-- ==== Sys2Proof/Word.lean ====
section
/-! DEFINITION. The word types of the device and the identifiers of its parts (scope chapter, Notation and R10). -/

namespace Sys2Proof

/-- A 64-bit word: a register, a plate word, a memory word under one check code. -/
abbrev Word := BitVec 64

/-- A byte of memory. -/
abbrev Byte := BitVec 8

/-- The 16 check bits of a guarded word, and a syndrome (R327, R328). -/
abbrev Check := BitVec 16

/-- The bits of one vector lane (R108). -/
abbrev Lane := BitVec 32

/-- A compute die, 0 to 3 (R10). -/
abbrev DieId := Fin 4

/-- A tile of the module: die x 16 + logical tile (R10). -/
abbrev TileId := Fin 64

/-- A client, 0 to 15 (R10). -/
abbrev ClientId := Fin 16

/-- A fabric port of the module, 8 per die (R266). -/
abbrev PortId := Fin 32

/-- A memory stack, 6 per die (R14). -/
abbrev StackId := Fin 24

end Sys2Proof
end

