-- ==== Sys2Proof/Config.lean ====
section
/-! DEFINITION. What the spec leaves to one implementation, and the free values: opaque constants with no body that Lean can see, so that nothing can be proved of their values (assumption log 4 and 5). -/

namespace Sys2Proof

/-- DESIGN CHOICE (log 4): a value the spec leaves open, fresh for each count of `State.free`. -/
opaque Config.freeValue : Nat → BitVec 64

/-- DESIGN CHOICE (log 4): the bits of an element in a block whose scale is 255, which the spec does not state:
by format code and element position (R41, R50). -/
opaque Config.nanBlockElem : Nat → Nat → BitVec 8

/-- DESIGN CHOICE (log 5): a 32-bit fuse word by its index; the value is fixed at manufacture (R7, R438). -/
opaque Config.fuse : Nat → BitVec 64

/-- DESIGN CHOICE (log 5): the module serial number, 12 characters as bytes (R1). -/
opaque Config.serial : Nat → BitVec 8

/-- DESIGN CHOICE (log 5): how a firmware image in a slot is read: byte offset of the release number (R396). -/
opaque Config.imageRelease : List (BitVec 8) → BitVec 32

/-- DESIGN CHOICE (log 4): what a credit message says, whose layout the spec does not give (R293): flits, and the virtual
channel. -/
opaque Config.creditFlits : BitVec 64 → BitVec 64 → BitVec 9
opaque Config.creditVc : BitVec 64 → BitVec 64 → Bool

/-- DESIGN CHOICE (log 4): bytes of a flit's payload that carry no data, by free count and place (R270). -/
opaque Config.padByte : Nat → Nat → BitVec 8

/-- DESIGN CHOICE (log 4): which slot of which client a refusal message names; its layout is not given (R283). -/
opaque Config.refusalSlot : BitVec 64 → BitVec 64 → BitVec 16
opaque Config.refusalClient : BitVec 64 → BitVec 64 → BitVec 4

/-- DESIGN CHOICE (log 5): how a firmware image in a slot is read, whose layout the spec does not give: public key (two
coordinates of 48 bytes), security version, body, digest, signature (R396). -/
opaque Config.imageKey : List (BitVec 8) → List (BitVec 8)
opaque Config.imageSvn : List (BitVec 8) → BitVec 16
opaque Config.imageBody : List (BitVec 8) → List (BitVec 8)
opaque Config.imageDigest : List (BitVec 8) → List (BitVec 8)
opaque Config.imageSig : List (BitVec 8) → List (BitVec 8)

/-- DESIGN CHOICE (log 5): the fused digest of the firmware's public key, and the fused Curator key of level 2, by byte
(R396, R424). -/
opaque Config.keyDigest : Nat → BitVec 8
opaque Config.serviceKey : Nat → BitVec 8

end Sys2Proof
end

