-- ==== Sys2Proof/Syntax.lean ====
section
/-! DEFINITION. The commands of the block: one constructor for each row of the opcode table, with its operands. -/

namespace Sys2Proof

/-- An engine that runs a plate (R219). -/
inductive Eng where
  | array (t : TileId)
  | vector (t : TileId)
  | stream (t : TileId)
  | seq (t : TileId)
  | hatch (d : DieId) (u : Fin 4)
  | cpt (d : DieId) (u : Fin 4)
  | dma (d : DieId) (e : Fin 2)
  | coll (d : DieId)
  deriving DecidableEq, Repr

/-- A plate command: the two header words and the body words (R221). -/
structure PCmd where
  h0 : Word
  h1 : Word
  body : List Word
  deriving DecidableEq, Repr

/-- Bits that upsets have flipped in a guarded word: where, and the 80-bit flip mask (data 63:0, check 79:64). -/
structure Upset where
  place : Nat
  flips : BitVec 80
  deriving DecidableEq, Repr

/-- A path over which the Registrar or the host reaches a die's ports (R335). -/
inductive Agent where
  | host
  | core (c : Fin 4)
  deriving DecidableEq, Repr

/-- A Catalog write record: the control word and the eight entry words (R166, R169). -/
structure CatRec where
  ctl : Word
  w : List Word
  deriving DecidableEq, Repr

/-- A Folio operation record of five words (R186). -/
structure FopRec where
  w0 : Word
  w1 : Word
  w2 : Word
  w3 : Word
  w4 : Word
  deriving DecidableEq, Repr

/-- A requester's access to a handle: who, the buffer name (die and handle), offset and length (R161, R189). -/
structure Access where
  die : DieId
  code : Nat
  name : Nat
  off : Nat
  len : Nat
  consuming : Bool
  deriving DecidableEq, Repr

/-- The writer of a remote write: module, die and engine code (R179, R180). -/
structure Writer where
  mod : Nat
  die : DieId
  eng : Nat
  deriving DecidableEq, Repr

/-- A path to the object dictionary (R8). -/
inductive DPath where
  | can
  | mailbox
  | curator
  deriving DecidableEq, Repr

/-- Sensor readings at an evaluation: input voltage in mV, input current in mA, average input power in W, die
temperatures, coolant temperatures, hottest stack (R443, R453). -/
structure Sensors where
  vin : Nat
  iin : Nat
  pin : Nat
  tdie : List Nat
  tin : Nat
  tout : Nat
  tstack : Nat
  deriving DecidableEq, Repr

/-- A flit as a port's receiver sees it (R270, R272): its 256 bytes, and whether the decoder gave it up. -/
structure FlitIn where
  bytes : List Byte
  bad : Bool
  deriving DecidableEq, Repr

/-- What a port's recovery meets (R273). -/
inductive RecoveryEv where
  | enter
  | retrained
  | failed
  deriving DecidableEq, Repr

/-- A request that an arbiter sees in a cycle (R361): requester code, class (0 high, 1 normal, 2 low), cycles waited. -/
structure ArbReq where
  code : Nat
  cls : Nat
  age : Nat
  deriving DecidableEq, Repr

/-- A die's energy of a tick, in uJ (R366): compute, each stack, links, management and leakage. -/
structure EnergyIn where
  compute : Nat
  stk : List Nat
  links : Nat
  mgmt : Nat
  deriving DecidableEq, Repr

/-- What Sketch finds (R391, R416, R432): dies whose fuses read back inconsistently, failing physical Folio banks, whether the
Errata map fails its check, the slot straps, the rate in GT/s and the width that the PCIe link trains to. -/
structure SketchIn where
  fuseBad : List DieId
  folioBad : List (DieId × Nat)
  mapBad : Bool := false
  strap : BitVec 7 := 0
  speed : Nat := 64
  width : Nat := 16
  deriving DecidableEq, Repr

/-- What a die's array self-test finds (R394): physical tiles that passed, rows and columns to repair. -/
structure SelfTestIn where
  passed : BitVec 17
  rows : List (Nat × Nat)
  cols : List (Nat × Nat)
  deriving DecidableEq, Repr

/-- What a port's training finds (R394): up, the peer's module and port, a lane to leave out. -/
structure TrainIn where
  up : Bool
  peerMod : Nat
  peerPort : Nat
  lane : Option Nat
  deriving DecidableEq, Repr

/-- A CAN FD frame received (R407, R408): identifier and data. -/
structure CanFrame where
  id : Nat
  data : List Byte
  deriving DecidableEq, Repr

/-- A wear count that has reached its threshold (R436): the row of R436's table of triggers, 0 to 9 (0 and 1 Folio bank, 2
and 3 stack die, 4 stack row, 5 and 6 tile, 7 lane, 8 port, 9 core), the die, the unit and the item within it (a bank, a
DRAM die, a row's ROW field, a tile, a lane, a core), and the count. -/
structure WearIn where
  kind : Nat
  die : DieId
  unit : Nat
  item : Nat
  count : Nat
  deriving DecidableEq, Repr

/-- The commands (opcode_table.json). -/
inductive Instr where
  /-- `REGISTER_WRITE` (R3): A write to a register field that has no behaviour of its own stores, ignores or clears bits according to the field's access code. -/
  | registerWrite (a : Nat) (v : Word)
  /-- `COUNTER_BLOCK_LATCH` (R369): A read of a counter block's lowest-addressed word copies the whole block into its shadow at one clock edge. -/
  | counterBlockLatch (a : Nat)
  /-- `DICTIONARY_WRITE` (R8): A write to a dictionary entry is checked against its access right, type and range, and is then applied whole or refused with an abort. -/
  | dictionaryWrite (p : DPath) (ix sub : Nat) (data : List Byte)
  /-- `DICTIONARY_READ` (R405): A read of a dictionary entry returns its value, or refuses with an abort, and latches a DOMAIN block. -/
  | dictionaryRead (p : DPath) (ix sub : Nat)
  /-- `SCHEDULE_TICK` (R20): Every 1,250 LCLK cycles, a die's link complex ends one schedule tick and delivers the tick count to its domains. -/
  | scheduleTick (d : DieId)
  /-- `TCLK_CHANGE` (R17): A TCLK frequency change that DVFS selected takes effect at a tick boundary. -/
  | tclkChange
  /-- `THROTTLE_EVAL` (R443): Once every 1,000 ticks, the lead Registrar evaluates power and temperatures and chooses the TCLK target. -/
  | throttleEval (m : Sensors)
  /-- `STEP_START` (R220): At a step's first tick, the client's token registers are preset, the lane-group bases advance and every plate starts fetching. -/
  | stepStart (c : ClientId)
  /-- `STEP_COMPLETE` (R220): After the closing slot ends with every plate done, the module records the scope word, advances the data position and posts the step-completion event. -/
  | stepComplete (c : ClientId)
  /-- `WINDOW_ENTRY` (R226): A command enters an engine's issue window in plate order, reading its Catalog entries and resolving its BANK value. -/
  | windowEntry (e : Eng)
  /-- `PLATE_FETCH` (R231): Plate words are fetched, or an instruction-cache line is filled from the plate's memory. -/
  | plateFetch (e : Eng)
  /-- `CATALOG_CACHE_FILL` (R232): A sequencer data-cache miss reads the Catalog entry and replaces the least recently used way. -/
  | catalogCacheFill (t : TileId) (name : Nat)
  /-- `TOKEN_ARRIVE` (R224): A posted token count reaches its register and is added to the count. -/
  | tokenArrive (k : Nat)
  /-- `TOKEN_WATCHDOG_FIRE` (R228): A client's token watchdog reaches TOKEN_WATCHDOG with only token-waiting commands and raises a token-deadlock fault. -/
  | tokenWatchdogFire (d : DieId) (c : ClientId)
  /-- `STEP_ABORT` (R229): An engine fault stops every engine of the client, discards or completes issued commands, resets streams and presets tokens for the next step. -/
  | stepAbort (c : ClientId)
  /-- `ABORT_MESSAGE` (R230): A received ABORT link message is flooded on once and makes the module abort the step. -/
  | abortMessage (p : PortId) (w0 w1 : Word)
  /-- `MODE_SET` (R90): Sets the current bank, the gatherer ring and deadline, Vellum acceptance and wake hold of the array. -/
  | modeSet (t : TileId) (c : PCmd)
  /-- `LOAD_STAT` (R91): Loads a stationary tile's lines from a stream into the pending registers and starts the wake of the units it needs. -/
  | loadStat (t : TileId) (c : PCmd)
  /-- `LOAD_LINE_ENTRY` (R66): A line of a load enters the pending registers, skewed by band, once its data is in the stream buffer and the pending registers are free. -/
  | loadLineEntry (t : TileId)
  /-- `PASS` (R93): Streams M rows through the active or newly switched stationary tile into an accumulator bank, through both banks, or into Vellum partials. -/
  | pass (t : TileId) (c : PCmd)
  /-- `PASS_ROW_ENTRY` (R99): A streamed row enters column 0 once its elements and scales are present, switches cells by the moving front and forms its exact results. -/
  | passRowEntry (t : TileId) (u : List Upset)
  /-- `DRAIN` (R94): Reads COUNT entries of every column of a bank and delivers them to the Hatch path or the vector engine. -/
  | drain (t : TileId) (c : PCmd)
  /-- `DRAIN_PAIR_READ` (R77): A drain reads two entries per column, converts them and offers them to the Hatch lane or the receive queue, waiting while either withholds acceptance. -/
  | drainPairRead (t : TileId) (u : List Upset)
  /-- `BANK_SWAP` (R95): Exchanges the current and other bank for every command behind it in plate order. -/
  | bankSwap (t : TileId) (c : PCmd)
  /-- `AUTO_DRAIN` (R76): A through pass drains a bank automatically once its 256th row, or the pass's last row, has been written. -/
  | autoDrain (t : TileId)
  /-- `GATHER_BATCH_LAUNCH` (R103): The row gatherer launches a batch when enough slots are full or its timer reaches GDEADLINE. -/
  | gatherBatchLaunch (t : TileId) (timer : Nat)
  /-- `UNIT_GATE` (R100): A group or column unit unused for 64 TCLK cycles is power-gated. -/
  | unitGate (t : TileId) (column : Bool) (i : Nat)
  /-- `UNIT_WAKE_DONE` (R101): A gated group or column unit completes its 24-cycle wake. -/
  | unitWakeDone (t : TileId) (column : Bool) (i : Nat)
  /-- `VBLOCK` (R112): A vector block fires as a whole when its input tokens are present and its instructions begin to issue in order. -/
  | vblock (t : TileId) (c : PCmd)
  /-- `VBLOCK_COMPLETE` (R112): A block completes once every result is written and every push accepted, and posts its output tokens. -/
  | vblockComplete (t : TileId)
  /-- `NOP` (R117): Vector instruction that does nothing. -/
  | nop (t : TileId) (w : Word) (u : List Upset)
  /-- `VMOV` (R117): Copies a vector register lane by lane. -/
  | vmov (t : TileId) (w : Word) (u : List Upset)
  /-- `VIMM` (R117): Writes the immediate bit pattern into every lane. -/
  | vimm (t : TileId) (w : Word) (u : List Upset)
  /-- `VIOTA` (R117): Writes the immediate plus the lane number into each lane. -/
  | viota (t : TileId) (w : Word) (u : List Upset)
  /-- `VSEL` (R117): Selects each lane from one of two registers by a mask. -/
  | vsel (t : TileId) (w : Word) (u : List Upset)
  /-- `VADD` (R118): FP32 addition rounded to nearest even. -/
  | vadd (t : TileId) (w : Word) (u : List Upset)
  /-- `VSUB` (R118): FP32 subtraction rounded to nearest even. -/
  | vsub (t : TileId) (w : Word) (u : List Upset)
  /-- `VMUL` (R118): FP32 multiplication rounded to nearest even. -/
  | vmul (t : TileId) (w : Word) (u : List Upset)
  /-- `VFMA` (R118): FP32 fused multiply-add with one rounding. -/
  | vfma (t : TileId) (w : Word) (u : List Upset)
  /-- `VFMS` (R118): FP32 fused multiply-subtract with one rounding. -/
  | vfms (t : TileId) (w : Word) (u : List Upset)
  /-- `VFNMA` (R118): FP32 negated fused multiply-add with one rounding. -/
  | vfnma (t : TileId) (w : Word) (u : List Upset)
  /-- `VMIN` (R119): Lane minimum, NaN-propagating, with −0 below +0. -/
  | vmin (t : TileId) (w : Word) (u : List Upset)
  /-- `VMAX` (R119): Lane maximum, NaN-propagating, with −0 below +0. -/
  | vmax (t : TileId) (w : Word) (u : List Upset)
  /-- `VABS` (R117): Clears the sign bit of each lane, copying the other bits. -/
  | vabs (t : TileId) (w : Word) (u : List Upset)
  /-- `VNEG` (R117): Inverts the sign bit of each lane, copying the other bits. -/
  | vneg (t : TileId) (w : Word) (u : List Upset)
  /-- `VADDI` (R117): Adds an FP32 immediate to each lane. -/
  | vaddi (t : TileId) (w : Word) (u : List Upset)
  /-- `VMULI` (R117): Multiplies each lane by an FP32 immediate. -/
  | vmuli (t : TileId) (w : Word) (u : List Upset)
  /-- `VFMAI` (R117): Fused multiply by an immediate and add, with one rounding. -/
  | vfmai (t : TileId) (w : Word) (u : List Upset)
  /-- `VDIV` (R119): Correctly rounded FP32 division. -/
  | vdiv (t : TileId) (w : Word) (u : List Upset)
  /-- `VSQRT` (R119): Correctly rounded FP32 square root. -/
  | vsqrt (t : TileId) (w : Word) (u : List Upset)
  /-- `VRSQRT` (R119): Correctly rounded FP32 reciprocal square root. -/
  | vrsqrt (t : TileId) (w : Word) (u : List Upset)
  /-- `VRCP` (R119): Correctly rounded FP32 reciprocal. -/
  | vrcp (t : TileId) (w : Word) (u : List Upset)
  /-- `VEXP` (R119): Correctly rounded natural exponential. -/
  | vexp (t : TileId) (w : Word) (u : List Upset)
  /-- `VEXP2` (R119): Correctly rounded power of two. -/
  | vexp2 (t : TileId) (w : Word) (u : List Upset)
  /-- `VLOG` (R119): Correctly rounded natural logarithm. -/
  | vlog (t : TileId) (w : Word) (u : List Upset)
  /-- `VLOG2` (R119): Correctly rounded base-2 logarithm. -/
  | vlog2 (t : TileId) (w : Word) (u : List Upset)
  /-- `VTANH` (R119): Correctly rounded hyperbolic tangent. -/
  | vtanh (t : TileId) (w : Word) (u : List Upset)
  /-- `VSIGM` (R119): Correctly rounded logistic sigmoid. -/
  | vsigm (t : TileId) (w : Word) (u : List Upset)
  /-- `VERF` (R119): Correctly rounded error function. -/
  | verf (t : TileId) (w : Word) (u : List Upset)
  /-- `VSIN` (R119): Correctly rounded sine. -/
  | vsin (t : TileId) (w : Word) (u : List Upset)
  /-- `VCOS` (R119): Correctly rounded cosine. -/
  | vcos (t : TileId) (w : Word) (u : List Upset)
  /-- `VIADD` (R117): 32-bit integer addition modulo 2^32. -/
  | viadd (t : TileId) (w : Word) (u : List Upset)
  /-- `VISUB` (R117): 32-bit integer subtraction modulo 2^32. -/
  | visub (t : TileId) (w : Word) (u : List Upset)
  /-- `VIMUL` (R117): 32-bit integer multiplication modulo 2^32. -/
  | vimul (t : TileId) (w : Word) (u : List Upset)
  /-- `VAND` (R117): Bitwise AND of two registers. -/
  | vand (t : TileId) (w : Word) (u : List Upset)
  /-- `VOR` (R117): Bitwise OR of two registers. -/
  | vor (t : TileId) (w : Word) (u : List Upset)
  /-- `VXOR` (R117): Bitwise XOR of two registers. -/
  | vxor (t : TileId) (w : Word) (u : List Upset)
  /-- `VSHL` (R117): Shifts each lane left. -/
  | vshl (t : TileId) (w : Word) (u : List Upset)
  /-- `VSHR` (R117): Shifts each lane right, logically or arithmetically by SUB. -/
  | vshr (t : TileId) (w : Word) (u : List Upset)
  /-- `VIADDI` (R117): Adds an integer immediate to each lane modulo 2^32. -/
  | viaddi (t : TileId) (w : Word) (u : List Upset)
  /-- `VCVTIF` (R117): Converts a signed integer lane to FP32. -/
  | vcvtif (t : TileId) (w : Word) (u : List Upset)
  /-- `VCVTFI` (R117): Converts an FP32 lane to a saturating signed integer. -/
  | vcvtfi (t : TileId) (w : Word) (u : List Upset)
  /-- `VCMP` (R119): Writes a mask from an FP32 comparison. -/
  | vcmp (t : TileId) (w : Word) (u : List Upset)
  /-- `VICMP` (R117): Writes a mask from a signed integer comparison. -/
  | vicmp (t : TileId) (w : Word) (u : List Upset)
  /-- `MOP` (R117): Combines two mask registers bitwise. -/
  | mop (t : TileId) (w : Word) (u : List Upset)
  /-- `MLANE` (R117): Writes a mask of a lane range. -/
  | mlane (t : TileId) (w : Word) (u : List Upset)
  /-- `VRMAX` (R119): Writes each group's maximum into every lane of the group. -/
  | vrmax (t : TileId) (w : Word) (u : List Upset)
  /-- `VRMIN` (R119): Writes each group's minimum into every lane of the group. -/
  | vrmin (t : TileId) (w : Word) (u : List Upset)
  /-- `VPERM` (R117): Permutes lanes by an index register. -/
  | vperm (t : TileId) (w : Word) (u : List Upset)
  /-- `VROT` (R117): Rotates lanes by an immediate. -/
  | vrot (t : TileId) (w : Word) (u : List Upset)
  /-- `VBCST` (R117): Broadcasts one lane to every lane. -/
  | vbcst (t : TileId) (w : Word) (u : List Upset)
  /-- `VSCAN` (R120): Forms exact group prefix sums and narrows each once to FP32. -/
  | vscan (t : TileId) (w : Word) (u : List Upset)
  /-- `VLREC` (R120): Computes a linear recurrence within each group, one rounding per step. -/
  | vlrec (t : TileId) (w : Word) (u : List Upset)
  /-- `VPOP` (R122): Takes the next 512 elements of a stream, waiting for them, and widens them to FP32. -/
  | vpop (t : TileId) (w : Word) (u : List Upset)
  /-- `VPUSH` (R123): Narrows 512 lanes into the output stream's format and pushes them, waiting while the stream is full. -/
  | vpush (t : TileId) (w : Word) (u : List Upset)
  /-- `XPOPN` (R125): Adds the next 512 stream elements exactly into an exact reduction register. -/
  | xpopn (t : TileId) (w : Word) (u : List Upset)
  /-- `VRECV` (R129): Moves the head FP32 slot of the receive queue into a vector register, waiting while the queue is empty. -/
  | vrecv (t : TileId) (w : Word) (u : List Upset)
  /-- `XRECV` (R128): Adds the head exact-path slot of the receive queue into an exact reduction register. -/
  | xrecv (t : TileId) (w : Word) (u : List Upset)
  /-- `XCLR` (R117): Clears an exact reduction register's value, guard and flags. -/
  | xclr (t : TileId) (w : Word) (u : List Upset)
  /-- `XADD` (R53): Adds FP32 lanes exactly into an exact reduction register. -/
  | xadd (t : TileId) (w : Word) (u : List Upset)
  /-- `XMRG` (R53): Merges one exact reduction register into another. -/
  | xmrg (t : TileId) (w : Word) (u : List Upset)
  /-- `XSUM` (R125): Merges every lane of a group and writes the total into each lane. -/
  | xsum (t : TileId) (w : Word) (u : List Upset)
  /-- `XNAR` (R54): Narrows an exact reduction register to FP32 with a multiplier. -/
  | xnar (t : TileId) (w : Word) (u : List Upset)
  /-- `XPUSH` (R123): Narrows an exact reduction register times a multiplier and pushes it to a stream. -/
  | xpush (t : TileId) (w : Word) (u : List Upset)
  /-- `XBIND` (R299): Lends an exact reduction register to the collective engine as a flow context's adder. -/
  | xbind (t : TileId) (w : Word) (u : List Upset)
  /-- `XFREE` (R126): Waits for the bound context to complete and releases the register with the reduced state. -/
  | xfree (t : TileId) (w : Word) (u : List Upset)
  /-- `VRAND` (R132): Writes each lane's 32-bit counter-based draw. -/
  | vrand (t : TileId) (w : Word) (u : List Upset)
  /-- `VRUNI` (R117): Writes each lane's uniform draw in [0, 1). -/
  | vruni (t : TileId) (w : Word) (u : List Upset)
  /-- `VRKEEP` (R117): Writes a keep mask from each lane's draw against a threshold. -/
  | vrkeep (t : TileId) (w : Word) (u : List Upset)
  /-- `RCTX` (R130): Sets one draw-context field and resets the draw number. -/
  | rctx (t : TileId) (w : Word) (u : List Upset)
  /-- `REP` (R114): Repeats the following instructions a number of times. -/
  | rep (t : TileId) (w : Word) (u : List Upset)
  /-- `HCONV` (R139): Hatch command that converts a region of one handle into another and folds statistics. -/
  | hconv (d : DieId) (u : Fin 4) (c : PCmd)
  /-- `HSTAT` (R141): Hatch command that gathers statistics of a region into a slot and writes nothing. -/
  | hstat (d : DieId) (u : Fin 4) (c : PCmd)
  /-- `HCTX` (R142): Sets the draw context of one of the Hatch unit's drain lanes. -/
  | hctx (d : DieId) (u : Fin 4) (c : PCmd)
  /-- `HSNAP` (R147): Copies, clears or sets the histogram base of a statistics slot. -/
  | hsnap (d : DieId) (u : Fin 4) (c : PCmd)
  /-- `HATCH_CHUNK` (R141): The Hatch command lane reads and converts one chunk of up to 512 elements once its data arrives. -/
  | hatchChunk (d : DieId) (u : Fin 4)
  /-- `HATCH_DRAIN_PAIR` (R136): A Hatch drain lane accepts one pair of drained values, narrows them into blocks and writes them. -/
  | hatchDrainPair (t : TileId)
  /-- `CPT` (R148): Counterproof command that transposes an R × C region, re-blocking and converting it. -/
  | cpt (d : DieId) (u : Fin 4) (c : PCmd)
  /-- `CPT_LINE` (R149): A Counterproof engine receives a source line into its block buffer or writes a destination line. -/
  | cptLine (d : DieId) (u : Fin 4)
  /-- `DMADESC` (R152): A DMA descriptor joins its queue to COPY, FILL or COMPARE units. -/
  | dmadesc (d : DieId) (e : Fin 2) (c : PCmd)
  /-- `DMAMARK` (R155): Sets a DMA queue's high and low marks once earlier descriptors complete. -/
  | dmamark (d : DieId) (e : Fin 2) (c : PCmd)
  /-- `DMA_READ_ISSUE` (R154): A DMA queue's reader issues the next read when staging has room. -/
  | dmaReadIssue (d : DieId) (e : Fin 2) (q : Fin 8)
  /-- `DMA_WRITE_UNITS` (R154): A bursting DMA writer writes or compares the next units at the head of its staging buffer. -/
  | dmaWriteUnits (d : DieId) (e : Fin 2) (q : Fin 8)
  /-- `DMA_DESC_COMPLETE` (R154): A DMA descriptor completes when its last write is acknowledged or last comparison made, and posts its tokens. -/
  | dmaDescComplete (d : DieId) (e : Fin 2) (q : Fin 8)
  /-- `FOLIO_READ` (R162): A granted Folio read delivers its line, correcting or poisoning words by the check code. -/
  | folioRead (r : Access) (u : List Upset)
  /-- `FOLIO_WRITE` (R163): A granted Folio write stores whole words with fresh check bits or merges a partial word. -/
  | folioWrite (r : Access) (data : List Byte) (u : List Upset)
  /-- `SLOT_WAITER_RESUME` (R178): An access waiting on a ring slot's state resumes, in arrival order, when the slot changes state. -/
  | slotWaiterResume (name slot : Nat)
  /-- `FOLIO_SCRUB` (R164): A bank's patrol scrubber reads, corrects and rewrites lines once per second. -/
  | folioScrub (d : DieId) (bank line : Nat) (u : List Upset)
  /-- `REMOTE_WRITE` (R179): A write from another die or module lands only if the handle's remote-write window admits it. -/
  | remoteWrite (w : Writer) (name off : Nat) (data : List Byte)
  /-- `CATALOG_WRITE` (R170): A Catalog write record is checked and applied whole at one FCLK edge, or refused with a reason. -/
  | catalogWrite (d : DieId) (a : Agent) (r : CatRec)
  /-- `CATALOG_WRITE_STAGED` (R175): A staged Catalog write is checked against the staged view and enters the die's staging table. -/
  | catalogWriteStaged (d : DieId) (a : Agent) (r : CatRec)
  /-- `CATALOG_WRITE_WINDOW` (R181): A window-only write changes only the remote-write window fields at one FCLK edge. -/
  | catalogWriteWindow (d : DieId) (a : Agent) (r : CatRec)
  /-- `CATALOG_WRITE_UNDEF` (R171): An undefining write makes a Catalog entry undefined. -/
  | catalogWriteUndef (d : DieId) (a : Agent) (r : CatRec)
  /-- `WINDOW_CLOSE_COMPLETE` (R181): A window-closing write completes once every remote write accepted under the old window has completed. -/
  | windowCloseComplete (d : DieId) (h : Nat)
  /-- `CATALOG_COMMIT` (R175): At the first FCLK edge of the named tick, a client's staged writes apply in staging order as one update. -/
  | catalogCommit (d : DieId) (c : ClientId) (tick : Nat)
  /-- `CATALOG_DISCARD` (R175): A discard empties a client's staged writes. -/
  | catalogDiscard (d : DieId) (c : ClientId)
  /-- `FILL` (R186): Folio operation that writes a pattern into a byte range. -/
  | fill (d : DieId) (a : Agent) (r : FopRec)
  /-- `COPY_FOLIO_OP` (R186): Folio operation that copies a byte range from one handle to another. -/
  | copyFolioOp (d : DieId) (a : Agent) (r : FopRec)
  /-- `SLOT_RESET` (R186): Folio operation that sets every slot of a ring EMPTY. -/
  | slotReset (d : DieId) (a : Agent) (r : FopRec)
  /-- `LOCK_ACQ` (R184): Indivisibly acquires a lock word, breaking it if its holder's epoch has advanced. -/
  | lockAcq (d : DieId) (a : Agent) (r : FopRec)
  /-- `LOCK_REL` (R184): Indivisibly releases a lock word held by the issuer. -/
  | lockRel (d : DieId) (a : Agent) (r : FopRec)
  /-- `BANK_GATE` (R192): An idle or uncovered bank with no in-flight writes enters sleep or off. -/
  | bankGate (d : DieId) (b : Nat)
  /-- `BANK_WAKE` (R192): A request to a sleeping or off bank starts its wake or power-on. -/
  | bankWake (d : DieId) (b : Nat)
  /-- `BANK_WAKE_DONE` (R191): A bank returns to active after its wake, zeroing every line after power-on. -/
  | bankWakeDone (d : DieId) (b : Nat)
  /-- `BANK_REPLACE` (R194): A worn logical bank is held, drained, copied to a spare and redirected. -/
  | bankReplace (d : DieId) (b : Nat)
  /-- `SARM` (R197): Places a full stream descriptor in the stream's queued slot. -/
  | sarm (t : TileId) (c : PCmd)
  /-- `SREARM` (R198): Places a descriptor with new base fields that inherits the rest. -/
  | srearm (t : TileId) (c : PCmd)
  /-- `SMODE` (R460): Sets the end mode of each stream group. -/
  | smode (t : TileId) (c : PCmd)
  /-- `SRESET` (R199): Requests a stream reset that waits until no command names the stream. -/
  | sreset (t : TileId) (c : PCmd)
  /-- `SRESET_EFFECT` (R199): A waiting SRESET takes effect, discarding descriptors and buffer and freeing pages. -/
  | sresetEffect (t : TileId) (s : Fin 64)
  /-- `DESCRIPTOR_ACTIVATE` (R212): A queued stream descriptor becomes active under its group's end mode, taking its pages when free. -/
  | descriptorActivate (t : TileId) (s : Fin 64)
  /-- `DESCRIPTOR_END` (R197): A stream descriptor ends when its last unit is taken or last write acknowledged, completing its command. -/
  | descriptorEnd (t : TileId) (s : Fin 64)
  /-- `STREAM_GRANT` (R208): Each TCLK cycle the stream engine grants up to 8 line requests by time to empty. -/
  | streamGrant (t : TileId)
  /-- `STREAM_DATA_RETURN` (R209): Fetched index, second-level or record data returns into the stream buffer. -/
  | streamDataReturn (t : TileId) (k : Nat)
  /-- `STREAM_CONSUMING_READ` (R209): At the end of a run on a ring slot, the stream issues one consuming read of the slot's last 8 bytes. -/
  | streamConsumingRead (t : TileId) (s : Fin 64)
  /-- `STREAM_OUTPUT_WRITE` (R206): An output stream writes pushed values into its records. -/
  | streamOutputWrite (t : TileId) (s : Fin 64)
  /-- `STREAM_WATCHDOG_FIRE` (R215): A client's stream watchdog reaches 65,536 TCLK cycles with a blocked participant and raises a stream-deadlock fault. -/
  | streamWatchdogFire (d : DieId) (c : ClientId)
  /-- `SNOP` (R233): Sequencer command that joins and forks tokens. -/
  | snop (t : TileId) (c : PCmd)
  /-- `STOK` (R233): Sequencer command that adds a count to one token register. -/
  | stok (t : TileId) (c : PCmd)
  /-- `SCAT` (R233): Sequencer command that issues a Catalog write record on the client's path. -/
  | scat (t : TileId) (c : PCmd)
  /-- `SFOP` (R234): Sequencer command that issues a Folio operation and stores its result word. -/
  | sfop (t : TileId) (c : PCmd)
  /-- `SFOP_RETRY` (R234): An SFOP with RETRY reissues its operation 64 TCLK cycles after a BUSY result. -/
  | sfopRetry (t : TileId) (k : Nat)
  /-- `SEVENT` (R233): Sequencer command that posts a program event. -/
  | sevent (t : TileId) (c : PCmd)
  /-- `GOV_LATCH` (R254): When MTREG reaches MTCNT, the governor latches a die's part of a layer's statistics and flags. -/
  | govLatch (c : ClientId) (d : DieId) (layer : Nat)
  /-- `VOTE_SETTLE` (R256): On the combined vote record, the governor decides the vote, rewrites Q and V and posts vote tokens. -/
  | voteSettle (c : ClientId) (layer : Nat)
  /-- `GOV_END_OF_STEP` (R260): After the last vote, the lead Registrar chooses rungs, windows and anchors and stages them for the next step. -/
  | govEndOfStep (c : ClientId)
  /-- `FLIT_SEND` (R271): At each flit boundary a port sends the highest-priority ready flit, a resend first. -/
  | flitSend (p : PortId)
  /-- `FLIT_RECEIVE` (R272): A port checks a received flit, delivers it in sequence or NAKs it. -/
  | flitReceive (p : PortId) (f : FlitIn)
  /-- `PORT_RECOVERY` (R273): A port enters recovery, retrains and resends unacknowledged flits, or fails. -/
  | portRecovery (p : PortId) (e : RecoveryEv)
  /-- `LANE_SWAP` (R274): A port swaps its spare lane in at a gap with no open slot. -/
  | laneSwap (p : PortId) (lane : Nat)
  /-- `PORT_REMAP` (R275): At a step boundary the Registrar maps a failed port onto a standby spare port. -/
  | portRemap (p : PortId)
  /-- `TIME_REQUEST` (R277): Every 16 ticks a module sends a time request to its parent. -/
  | timeRequest
  /-- `TIME_RESPONSE` (R277): A received time response yields offset and delay, trims the tick and updates the lock state. -/
  | timeResponse (t1 t2 t3 t4 : Int)
  /-- `PARENT_RESELECT` (R276): A module whose parent port fails chooses the next parent port. -/
  | parentReselect
  /-- `TICK_IN_EDGE` (R279): A timing root aligns its tick edges to every 10th TICK_IN rising edge. -/
  | tickInEdge
  /-- `PPS_IN_EDGE` (R279): At a PPS_IN rising edge, a timing root sets its tick count to the next multiple of 1,000,000. -/
  | ppsInEdge
  /-- `REFERENCE_LOST` (R279): An absent or off-frequency reference puts the root in holdover and posts a reference-lost event. -/
  | referenceLost (pps : Bool)
  /-- `SLOT_OPEN` (R283): A timetable slot's window opens and its engine may send. -/
  | slotOpen (c : ClientId) (slot : Nat)
  /-- `SLOT_CHECKPOINT` (R288): At LEAD ticks before a window's end, a module judges whether the slot is late. -/
  | slotCheckpoint (c : ClientId) (slot : Nat)
  /-- `WINDOW_END` (R288): A window ends; an endpoint whose transfer is incomplete raises a late slot. -/
  | windowEnd (c : ClientId) (slot : Nat)
  /-- `STEP_BOUNDARY_CHECK` (R288): LEAD ticks before the next step, a module whose end-of-step work cannot be ready raises a late slot 0xFFFF. -/
  | stepBoundaryCheck (c : ClientId)
  /-- `STRETCH` (R290): A received STRETCH message is flooded on once and inserts k ticks before plan boundary e. -/
  | stretch (p : PortId) (w0 w1 : Word)
  /-- `TRANSFER_RECEIVE_COMPLETE` (R283): A receiver completes a timetabled transfer once all its flits are written and posts TOKREF. -/
  | transferReceiveComplete (c : ClientId) (slot : Nat)
  /-- `REFUSAL_MESSAGE` (R283): A refusal link message returns to the sender, which records it in its status. -/
  | refusalMessage (w0 w1 : Word)
  /-- `CONTROL_RECORDS_UP` (R285): A module combines records from its children and its own and sends them toward the control root. -/
  | controlRecordsUp (c : ClientId) (slot : Nat) (child : List Word)
  /-- `CONTROL_RECORDS_DOWN` (R285): The combined control-slot records arrive down the tree and are acted on. -/
  | controlRecordsDown (c : ClientId) (slot : Nat) (recs : List Word)
  /-- `CREDIT` (R293): A credit message returns best-effort buffer credits to a sender. -/
  | credit (p : PortId) (w0 w1 : Word)
  /-- `BEST_EFFORT_PACKET` (R292): A best-effort packet advances a hop by dimension order once it holds credits. -/
  | bestEffortPacket (p : PortId) (k : Nat)
  /-- `CCTX` (R297): Arms a range of flow contexts. -/
  | cctx (d : DieId) (c : PCmd)
  /-- `CSEND` (R304): Sends one collective transfer in a send slot. -/
  | csend (d : DieId) (c : PCmd)
  /-- `CGATE` (R313): Settles the skip-step gate from a control slot's combined record. -/
  | cgate (d : DieId) (c : PCmd)
  /-- `CCOMMIT` (R318): Contributes readiness to a control slot and applies or discards a re-shard commit. -/
  | ccommit (d : DieId) (c : PCmd)
  /-- `COLL_TRANSFER_ARRIVE` (R303): A collective transfer arrives, is checked against its contexts and is added or placed. -/
  | collTransferArrive (d : DieId) (shape : Nat) (data : List Byte)
  /-- `SPILL_PACKET` (R310): A spill packet delivers pieces of escalated wide blocks to a context. -/
  | spillPacket (d : DieId) (data : List Byte)
  /-- `SPILL_TIMEOUT` (R310): A context waiting only for spilled pieces beyond SPILL_TIMEOUT raises a fault. -/
  | spillTimeout (d : DieId) (ctx : Nat)
  /-- `RESHARD_DECIDE` (R319): On the combined readiness record, every module commits the re-shard at CTICK or abandons it. -/
  | reshardDecide (c : ClientId) (slot : Nat)
  /-- `STACK_READ` (R330): A stack controller serves a read, correcting or poisoning words. -/
  | stackRead (r : Access) (u : List Upset)
  /-- `STACK_WRITE` (R330): A stack controller stores a write, merging a partial word. -/
  | stackWrite (r : Access) (data : List Byte) (u : List Upset)
  /-- `STACK_SCRUB` (R331): A stack controller's patrol scrubber reads and repairs check groups. -/
  | stackScrub (s : StackId) (group : Nat) (u : List Upset)
  /-- `STACK_DIE_SPARE` (R332): A retired stack die is copied row by row to the spare die. -/
  | stackDieSpare (s : StackId)
  /-- `STACK_FAILED` (R333): A stack that fails training or stops answering is marked failed and posts a stack-failed fault. -/
  | stackFailed (s : StackId) (training : Bool)
  /-- `ADDRESS_ERROR` (R334): An access to an unassigned module address reads 0, discards the write and posts an address-error event. -/
  | addressError (a : Nat) (write : Bool)
  /-- `BAR2_ACCESS` (R338): A host BAR2 access reaches stack memory through the stack controllers. -/
  | bar2Access (off : Nat) (write : Bool) (n : Nat) (data : List Byte)
  /-- `DOORBELL_WRITE` (R340): A doorbell write sets a queue's tail and starts fetching its entries. -/
  | doorbellWrite (q : Nat) (tail : Nat)
  /-- `QUEUE_ENABLE` (R346): Writing EN to a queue restarts it, writing any held event records. -/
  | queueEnable (event : Bool) (q : Nat)
  /-- `FUNCTION_LEVEL_RESET` (R339): A PCIe function-level reset aborts steps, discards commands, evicts clients and resets BAR0. -/
  | functionLevelReset
  /-- `LOAD_PLATES` (R342): Checks and loads a plate set, applies its Catalog set-up and sets governor state. -/
  | loadPlates (q : Nat)
  /-- `RUN_STEPS` (R343): Runs a number of steps of the loaded plate set. -/
  | runSteps (q : Nat)
  /-- `ARCHIVE_OUT` (R376): Takes or arms an Archive image of the client's state. -/
  | archiveOut (q : Nat)
  /-- `RESTORE_IN` (R384): Checks an Archive image and restores buffers, Catalog, governor state and counters. -/
  | restoreIn (q : Nat)
  /-- `COPY` (R344): Moves bytes between host memory and client buffers. -/
  | copy (q : Nat)
  /-- `ADMIT` (R349): Admits a client with its die set and allotments. -/
  | admitClient (q : Nat)
  /-- `EVICT` (R351): Evicts a client, aborting its step and zero-filling its Folio lines. -/
  | evict (q : Nat)
  /-- `HOST_RESERVED_OPCODE` (R341): A host command with a reserved opcode completes REFUSED. -/
  | hostReservedOpcode (q : Nat)
  /-- `EVENT_POST` (R346): An event record is written into its event queue, or held when the queue is full or disabled. -/
  | eventPost
  /-- `MSIX_SEND` (R347): The device sends a queue's MSI-X vector by count, time or severity. -/
  | msixSend (q : Nat) (timer : Bool)
  /-- `SLICE_DUE` (R352): A rotation slice reaches its due tick, shortened by debt. -/
  | sliceDue
  /-- `SWITCH_OUT` (R357): At the switch boundary, plan time stops, engines stop and state is saved and restored. -/
  | switchOut
  /-- `SWITCH_IN` (R357): Incoming clients' plan time resumes at their slice start, or when a late die is ready. -/
  | switchIn
  /-- `LONG_COMMAND` (R358): A non-pre-emptible unit still running 50 µs after the switch boundary posts a long-command event. -/
  | longCommand (e : Eng)
  /-- `ARBITER_GRANT` (R361): Each cycle an arbiter grants eligible requests by class and round robin. -/
  | arbiterGrant (res : Nat) (d : DieId) (reqs : List ArbReq)
  /-- `GRANT_WITHDRAW` (R362): A requester withdraws a granted request, wasting one cycle. -/
  | grantWithdraw (res : Nat) (d : DieId) (code : Nat)
  /-- `LEDGER_TICK` (R366): Each tick the lead Registrar reads each die's energy and charges it to clients. -/
  | ledgerTick (energy : List EnergyIn)
  /-- `ARCHIVE_CAPTURE` (R377): At the end of a scheduled step, plan time pauses while each die copies its state to staging. -/
  | archiveCapture (c : ClientId)
  /-- `ARCHIVE_STREAM_OUT` (R378): The staged image is written to the host, and the command completes on the last acknowledged write. -/
  | archiveStreamOut (c : ClientId)
  /-- `POWER_SEQUENCE` (R441): With input at 47.5 V for 10 ms, the controller sequences the rails and releases PWR_GOOD. -/
  | powerSequence (vin ms : Nat)
  /-- `PWR_GOOD_LOST` (R441): PWR_GOOD going low is a power-on reset. -/
  | pwrGoodLost
  /-- `PRESENT_N_RISE` (R447): PRESENT_N rising switches every rail off within 1 ms. -/
  | presentNRise
  /-- `PROTECTIVE_TRIP` (R442): An overcurrent or overtemperature trip switches the rails off and latches its cause. -/
  | protectiveTrip (thermal : Bool) (current : Bool)
  /-- `SKETCH_ENTRY` (R391): After PWR_GOOD or a cold reset, each die loads fuses, tests and zeroes its Folio and undefines the Catalog. -/
  | sketchEntry (m : SketchIn)
  /-- `BOOT_VERIFY` (R396): The boot ROM verifies and copies a firmware image, falling back or entering Sketch recovery. -/
  | bootVerify
  /-- `PROOF_ENTRY` (R392): The module enters Proof at a tick boundary once firmware, PLLs, bridges and Sketch work are ready. -/
  | proofEntry
  /-- `STACK_TRAINING` (R394): A die trains, repairs and tests its six stacks in Proof. -/
  | stackTraining (s : StackId) (ok : Bool)
  /-- `ARRAY_SELF_TEST` (R394): A die self-tests its physical tiles, repairs rows and columns and maps the spare tile. -/
  | arraySelfTest (d : DieId) (m : SelfTestIn)
  /-- `LINK_TRAINING` (R394): Ports train, learn their peers and build the timing tree. -/
  | linkTraining (p : PortId) (m : TrainIn)
  /-- `REGISTRAR_CHECK` (R394): Each Registrar core self-checks and the spare core is mapped. -/
  | registrarCheck (d : DieId) (bad : List (Fin 5))
  /-- `EDITION_ENTRY` (R393): The module enters Edition when every Proof task is done and no RUN_STEPS is in progress. -/
  | editionEntry
  /-- `STAGE_TIMEOUT` (R394): Edition not reached 120 s after PWR_GOOD sets STAGE_FAULT 4. -/
  | stageTimeout
  /-- `COLD_RESET` (R399): RST_N low for 10 µs or a request resets the module to Sketch with rails up. -/
  | coldReset
  /-- `CORE_RESET` (R399): A core watchdog or request restarts one Registrar core, aborting affected steps. -/
  | coreReset (d : DieId) (core : Fin 4) (watchdog : Bool)
  /-- `TILE_RESET` (R399): A tile hang resets the tile's sequencer and aborts the step on the die. -/
  | tileReset (t : TileId)
  /-- `RESET_REQ_COLD` (R401): A write of 1 to RESET_REQ requests a cold reset. -/
  | resetReqCold
  /-- `RESET_REQ_SELFTEST` (R400): A write of 2 to RESET_REQ returns the module to Proof and reruns the array self-test. -/
  | resetReqSelftest
  /-- `FW_UPD_DATA` (R402): Writes firmware bytes into the other slot and advances the offset. -/
  | fwUpdData (data : List Byte)
  /-- `FW_UPD_COMMIT` (R402): Verifies the other slot's image and makes it the preferred boot slot. -/
  | fwUpdCommit
  /-- `CFG_SAVE` (R402): Stores the listed entries in the flash configuration area. -/
  | cfgSave
  /-- `CAN_READ` (R410): A CAN READ request returns a value expedited or opens a segmented read. -/
  | canRead (f : CanFrame)
  /-- `CAN_WRITE` (R410): A CAN WRITE request applies an expedited value and answers WRITE_DONE or ABORT. -/
  | canWrite (f : CanFrame)
  /-- `CAN_WRITE_INIT` (R411): Opens a segmented CAN write. -/
  | canWriteInit (f : CanFrame)
  /-- `CAN_SEGMENT` (R411): A received segment is stored in order or discarded as a gap. -/
  | canSegment (f : CanFrame)
  /-- `CAN_BLOCK_ACK` (R411): A block acknowledge resumes sending after the last segment received in order. -/
  | canBlockAck (f : CanFrame)
  /-- `CAN_INFO` (R409): Returns the entry record of one dictionary entry. -/
  | canInfo (f : CanFrame)
  /-- `CAN_ABORT` (R412): A received ABORT ends a transaction at once. -/
  | canAbort (f : CanFrame)
  /-- `CAN_TIMEOUT` (R412): A transaction waiting CAN_TIMEOUT for a frame is aborted. -/
  | canTimeout (peer : Nat)
  /-- `CAN_SEGMENT_GAP_TIMER` (R411): 20 ms after the last in-order segment, the receiver sends BLOCK_ACK. -/
  | canSegmentGapTimer (peer : Nat)
  /-- `CAN_EVENT_MIRROR` (R414): An event of sufficient severity is sent as a rate-limited event frame. -/
  | canEventMirror
  /-- `HEARTBEAT` (R415): Every HB_PERIOD ms the node sends a heartbeat frame. -/
  | heartbeat
  /-- `NODE_ID_LISTEN` (R416): After 200 ms of listening, the node takes its node ID or enters listen-only. -/
  | nodeIdListen (seen : Bool)
  /-- `BUS_OFF_RECOVERY` (R407): A bus-off node recovers after 128 × 11 recessive bits and counts it. -/
  | busOffRecovery
  /-- `MAILBOX_GO` (R418): Writing GO starts a mailbox request, local or forwarded to a remote module. -/
  | mailboxGo
  /-- `MAILBOX_REMOTE_TIMEOUT` (R418): A forwarded mailbox request with no result within MB_REMOTE_TIMEOUT ends with TIMEOUT. -/
  | mailboxRemoteTimeout
  /-- `CUR_HELP` (R425): Curator command that lists the allowed commands. -/
  | curHelp
  /-- `CUR_ID` (R425): Curator command that prints the module's identity. -/
  | curId
  /-- `CUR_STAGE` (R425): Curator command that prints the stage entries. -/
  | curStage
  /-- `CUR_GET` (R425): Curator command that reads one entry. -/
  | curGet (ix sub : Nat)
  /-- `CUR_DUMP` (R425): Curator command that reads every sub-index of an index. -/
  | curDump (ix : Nat)
  /-- `CUR_INFO` (R425): Curator command that prints an entry record. -/
  | curInfo (ix sub : Nat)
  /-- `CUR_EVENTS` (R425): Curator command that prints the last records of the event log. -/
  | curEvents (n : Nat)
  /-- `CUR_UNLOCK` (R424): Curator command that prints a challenge for raising the level. -/
  | curUnlock (level : Nat)
  /-- `CUR_RESP` (R424): Curator command that checks a challenge response and raises the level. -/
  | curResp (data : List Byte)
  /-- `CUR_LOCK` (R424): Curator command that returns to level 0. -/
  | curLock
  /-- `CUR_SET` (R425): Curator command that writes one entry. -/
  | curSet (ix sub : Nat) (data : List Byte)
  /-- `CUR_RESET_COLD` (R425): Curator command that causes a cold reset. -/
  | curResetCold
  /-- `CUR_RESET_CORE` (R425): Curator command that resets one Registrar core. -/
  | curResetCore (d : DieId) (core : Fin 4)
  /-- `CUR_FUSE` (R426): Curator command that confirms and blows the fuses of a pending repair. -/
  | curFuse (e : Nat) (code : Nat)
  /-- `CUR_IDLE_TIMEOUT` (R424): After CUR_IDLE seconds without input the Curator returns to level 0. -/
  | curIdleTimeout
  /-- `CUR_BAUD_REVERT` (R422): With no valid line at a new baud rate within 10 s, the rate reverts. -/
  | curBaudRevert
  /-- `FUSE_ARM` (R426): A write of 0xA5 arms fuse commits for 60 s. -/
  | fuseArm (v : Byte)
  /-- `FUSE_ARM_EXPIRE` (R426): FUSE_ARMED clears 60 s after arming. -/
  | fuseArmExpire
  /-- `ERRLOG_CLEAR` (R439): A write of 0x5A empties the error log. -/
  | errlogClear (v : Byte)
  /-- `ERROR_LOG_WRITE` (R428): The Registrar writes up to 16 error-log records per second to flash, dropping excess below Critical. -/
  | errorLogWrite
  /-- `WEAR_WINDOW_BOUNDARY` (R436): At each wear window boundary, per-unit wear counts restart. -/
  | wearWindowBoundary
  /-- `WEAR_TRIGGER` (R436): A wear count reaching its threshold posts an event and queues a swap. -/
  | wearTrigger (k : WearIn)
  /-- `SPARE_SWAP` (R433): A queued spare swap is performed and appended to the Errata map. -/
  | spareSwap (k : Nat)
  /-- `FUSE_BLOW` (R437): A pending repair's fuse record is blown, by command or automatically, and its state is updated. -/
  | fuseBlow (e : Nat) (ok : Bool)
  /-- `EXTEST` (R452): JTAG instruction that drives boundary pins, only in Sketch. -/
  | extest (d : DieId) (bits : List Bool)
  /-- `IDCODE` (R451): JTAG instruction that selects the IDCODE register. -/
  | idcode (d : DieId)
  /-- `SAMPLE_PRELOAD` (R451): JTAG instruction that samples or preloads the boundary register. -/
  | samplePreload (d : DieId) (bits : List Bool)
  /-- `CLAMP` (R452): JTAG instruction that clamps outputs and selects bypass, only in Sketch. -/
  | clamp (d : DieId)
  /-- `HIGHZ` (R452): JTAG instruction that floats outputs, only in Sketch. -/
  | highz (d : DieId)
  /-- `BYPASS` (R451): JTAG instruction that selects the bypass register. -/
  | bypass (d : DieId)
  /-- `TAP_RESET` (R452): A TAP reset returns the pins to normal function and selects IDCODE. -/
  | tapReset (d : DieId)
  /-- `EVENT_QUEUE_HEAD_WRITE` (R346): The host writes an event queue's head to its doorbell, freeing room so that held event records are written. -/
  | eventQueueHeadWrite (q : Nat) (head : Nat)
  /-- `MSIX_UNMASK` (R347): The host unmasks an MSI-X vector whose pending bit is set, and the held message is sent. -/
  | msixUnmask (v : Nat)
  /-- `TIME_REQUEST_ARRIVAL` (R277): A time request from a child arrives on a port, is stamped, and the parent answers with a time response. -/
  | timeRequestArrival (p : PortId) (t1 : Int)
  /-- `PCIE_FUNDAMENTAL_RESET` (R399): A PCI Express fundamental reset on PERST# causes the host reset kind, evicting every client. -/
  | pcieFundamentalReset
  /-- `TRIP_RELEASE` (R442): After the input has been below 20 V, or PRESENT_N high, for 1 s, the protective trip latch releases so the module may power up again. -/
  | tripRelease
  /-- `REFERENCE_REGAINED` (R279): An absent or off-frequency TICK_IN or PPS_IN reference returns within tolerance and the timing root leaves holdover. -/
  | referenceRegained (pps : Bool)
  /-- `CAN_BUS_ERROR` (R407): A CAN bus error is counted by the standard and moves the node between error-active, error-passive and bus-off. -/
  | canBusError (tx : Bool) (n : Nat)
  deriving DecidableEq, Repr

end Sys2Proof
end

