-- ==== Sys2Proof/Decode.lean ====
section
/-! DEFINITION. Commands as words of the opcode table. The table gives no row any bits: the block takes commands, not encoded instructions, so no word spells a command. -/

namespace Sys2Proof

/-- The command that an instruction of the table's bits spells: none, since no row has bits. -/
def decodeTableWord (_nbits _w : Nat) : Option Instr := none

end Sys2Proof
end

