-- ==== Sys2Proof/Machine/Bits.lean ====
section
/-! DEFINITION. Bit fields, sign extension and byte order: the notation of the scope chapter (bit 0 is the least significant; multi-byte values little-endian). -/

namespace Sys2Proof.Machine

/-- The field [lo + n - 1 : lo] of a word, as a number. -/
def fld {w : Nat} (x : BitVec w) (lo n : Nat) : Nat := (x.toNat >>> lo) % 2 ^ n

/-- Bit i of a word. -/
def bit {w : Nat} (x : BitVec w) (i : Nat) : Bool := x.getLsbD i

/-- A word with its field [lo + n - 1 : lo] replaced. -/
def setFld {w : Nat} (x : BitVec w) (lo n v : Nat) : BitVec w :=
  (x &&& ~~~(BitVec.ofNat w (2 ^ n - 1) <<< lo)) ||| (BitVec.ofNat w (v % 2 ^ n) <<< lo)

/-- A number with n low bits read as two's complement. -/
def toSigned (n v : Nat) : Int :=
  if v % 2 ^ n < 2 ^ (n - 1) then (v % 2 ^ n : Nat) else (v % 2 ^ n : Nat) - (2 ^ n : Nat)

/-- The n-bit two's complement code of an integer (modulo 2^n). -/
def ofSigned (n : Nat) (v : Int) : Nat := (v % (2 ^ n : Nat)).toNat

/-- Little-endian bytes of a number. -/
def leBytes : Nat → Nat → List (BitVec 8)
  | 0, _ => []
  | n + 1, v => BitVec.ofNat 8 v :: leBytes n (v / 256)

/-- The number a little-endian byte list spells. -/
def leNat : List (BitVec 8) → Nat
  | [] => 0
  | b :: bs => b.toNat + 256 * leNat bs

/-- 64-bit words of a byte list, 8 bytes each; a short tail is dropped. -/
def wordsOf : Nat → List (BitVec 8) → List (BitVec 64)
  | 0, _ => []
  | n + 1, bs => BitVec.ofNat 64 (leNat (bs.take 8)) :: wordsOf n (bs.drop 8)

/-- Bytes of a list of words. -/
def bytesOf (ws : List (BitVec 64)) : List (BitVec 8) := ws.flatMap fun w => leBytes 8 w.toNat

/-- A list element or a default, by position. -/
def nth {α : Type} (d : α) (l : List α) (i : Nat) : α := l.getD i d

/-- Ceiling division. -/
def cdiv (a b : Nat) : Nat := (a + b - 1) / b

/-- A Boolean as a bit. -/
def b2n (b : Bool) : Nat := if b then 1 else 0

/-- Addition that stops at a counter's largest value (R82, R238 and the totals of the dictionary). -/
def stickyAdd (w : Nat) (x : BitVec w) (n : Nat) : BitVec w :=
  if x.toNat + n < 2 ^ w then x + BitVec.ofNat w n else BitVec.allOnes w

/-- A two-argument fold over a range: f i applied for i from 0 to n - 1. -/
def iter {σ : Type} (n : Nat) (f : Nat → σ → σ) (s : σ) : σ := (List.range n).foldl (fun s i => f i s) s

/-- Replace the element at a position of a list. -/
def setNth {α : Type} (l : List α) (i : Nat) (v : α) : List α := l.set i v

end Sys2Proof.Machine
end

