-- ==== Sys2Proof/Machine/Maps.lean ====
section
/-! DEFINITION. Sparse maps in one canonical form: a list of (key, value) pairs, keys strictly rising, no entry equal to the value an unlisted key reads as. Memory, registers, Catalog entries and every table of the device are held this way, so equal contents are equal data. -/

namespace Sys2Proof.Machine

/-- A sparse map from numbers. -/
abbrev SMap (α : Type) := List (Nat × α)

/-- Reading a key; d is what an unlisted key reads as. -/
def mget {α : Type} (d : α) : SMap α → Nat → α
  | [], _ => d
  | (k', v) :: m, k => if k = k' then v else mget d m k

/-- Removing a key. -/
def mdel {α : Type} (m : SMap α) (k : Nat) : SMap α := m.filter fun e => decide (e.1 ≠ k)

/-- Inserting or replacing a key. -/
def mins {α : Type} : SMap α → Nat → α → SMap α
  | [], k, x => [(k, x)]
  | (k', v) :: m, k, x =>
    if k < k' then (k, x) :: (k', v) :: m else if k = k' then (k, x) :: m else (k', v) :: mins m k x

/-- Writing a key: writing the default removes the entry, so the form stays canonical. -/
def mset {α : Type} [DecidableEq α] (d : α) (m : SMap α) (k : Nat) (v : α) : SMap α :=
  if v = d then mdel m k else mins m k v

/-- Changing a key's value by a function. -/
def mupd {α : Type} [DecidableEq α] (d : α) (m : SMap α) (k : Nat) (f : α → α) : SMap α :=
  mset d m k (f (mget d m k))

/-- Dropping every key that a test selects. -/
def mdrop {α : Type} (m : SMap α) (p : Nat → Bool) : SMap α := m.filter fun e => !p e.1

/-- The keys are strictly rising from a bound. -/
def msorted {α : Type} : Nat → SMap α → Bool
  | _, [] => true
  | lo, (k, _) :: m => decide (lo ≤ k) && msorted (k + 1) m

/-- The canonical form. -/
def mwf {α : Type} [DecidableEq α] (d : α) (m : SMap α) : Bool :=
  msorted 0 m && m.all fun e => decide (e.2 ≠ d)

end Sys2Proof.Machine
end

