-- ==== Sys2Proof/Machine/Ecc.lean ====
section
/-! DEFINITION. The DEC-TED check code that guards every word (R327 to R329). -/

namespace Sys2Proof.Machine

/-- x times a polynomial modulo g(x) = 0xC599 (R327). -/
def gfStep (r : Nat) : Nat :=
  let y := 2 * r
  if y ≥ 0x8000 then (y ^^^ 0xC599) % 0x8000 else y

/-- x^(15 + i) modulo g(x): bits [14:0] of the column of data bit i (R328). -/
def gfPow : Nat → Nat
  | 0 => 0x4599
  | i + 1 => gfStep (gfPow i)

/-- The column of bit i of the 80-bit word: data bits 0 to 63, check bits 64 to 79 (R328). -/
def eccCol (i : Nat) : Nat :=
  if i < 32 then gfPow i + 0x8000 else if i < 64 then gfPow i else 2 ^ (i - 64)

/-- The exclusive-or of the columns of a word's set bits, from bit i on. -/
def eccFold (x : Nat) : Nat → Nat
  | 0 => 0
  | n + 1 => (if x.testBit n then eccCol n else 0) ^^^ eccFold x n

/-- The check bits of a data word (R327). -/
def checkBits (w : BitVec 64) : BitVec 16 := BitVec.ofNat 16 (eccFold w.toNat 64)

/-- The syndrome that a set of flipped bits leaves (R328). -/
def syndOf (flips : BitVec 80) : BitVec 16 := BitVec.ofNat 16 (eccFold flips.toNat 80)

/-- The syndrome of a poisoned word (R329). -/
def poisonSynd : BitVec 16 := 0x0007#16

/-- What a syndrome decodes to (R328): clean, a data mask to correct, or uncorrectable. -/
inductive EccRes where
  | clean
  | fixed (mask : BitVec 64)
  | bad
  deriving DecidableEq, Repr

/-- The columns, once each. -/
def eccCols : List (Nat × Nat) := (List.range 80).map fun i => (i, eccCol i)

/-- The data mask of a bit of the 80-bit word; check bits carry none. -/
def eccMask (i : Nat) : BitVec 64 := if i < 64 then BitVec.ofNat 64 (2 ^ i) else 0

/-- Decoding a syndrome (R328). -/
def eccDecode (s : BitVec 16) : EccRes :=
  if s = 0 then .clean
  else
    match eccCols.find? fun c => decide (c.2 = s.toNat) with
    | some c => .fixed (eccMask c.1)
    | none =>
      match eccCols.findSome? fun c =>
        (eccCols.find? fun c' => decide (c.1 < c'.1) && decide (c.2 ^^^ c'.2 = s.toNat)).map fun c' => (c.1, c'.1) with
      | some (i, j) => .fixed (eccMask i ^^^ eccMask j)
      | none => .bad

end Sys2Proof.Machine
end

