-- ==== Sys2Proof/Machine/DictTable.lean ====
section
/-! DEFINITION. The entries of the object dictionary: index and sub-index, type, access right and default of each (R8, R403, and the entry tables of every chapter). -/

namespace Sys2Proof.Machine

/-- Types of dictionary entries (R403). -/
inductive DType where
  | bool | u8 | u16 | u32 | u64 | i8 | i16 | i32 | i64 | f32 | str | domain
  deriving DecidableEq, Repr

/-- Access rights of dictionary entries (R8). -/
inductive DAcc where
  | const | ro | rw | wo | rwIdle
  deriving DecidableEq, Repr

/-- A run of dictionary entries, keys index x 256 + sub-index from lo to hi. -/
structure DRow where
  lo : Nat
  hi : Nat
  ty : DType
  acc : DAcc
  name : String
  deriving DecidableEq, Repr

/-- Entries, part 0. -/
def dictRows0 : List DRow := [
  ⟨0x100001, 0x100001, .str, .const, "ORDER_CODE"⟩,
  ⟨0x100002, 0x100002, .u8, .const, "DIE_STEPPING"⟩,
  ⟨0x100003, 0x100003, .u8, .const, "CARRIER_REV"⟩,
  ⟨0x100004, 0x100004, .u32, .ro, "FW_RELEASE"⟩,
  ⟨0x100005, 0x100005, .str, .const, "SERIAL"⟩,
  ⟨0x100010, 0x100010, .u32, .const, "MFG_DATE"⟩,
  ⟨0x100011, 0x100011, .str, .const, "DIE_LOTS"⟩,
  ⟨0x100012, 0x100012, .u32, .const, "TEST_PROGRAM"⟩,
  ⟨0x100013, 0x100013, .u16, .const, "TCLK_BIN"⟩,
  ⟨0x100014, 0x100014, .u16, .const, "MFG_REPAIRS"⟩,
  ⟨0x100015, 0x100018, .u8, .ro, "FUSES_FREE_D0"⟩,
  ⟨0x110001, 0x110001, .u8, .ro, "NODE_ID"⟩,
  ⟨0x110002, 0x110002, .u8, .rw, "NODE_ID_OVERRIDE"⟩,
  ⟨0x110003, 0x110003, .u8, .ro, "NODE_ID_STRAP"⟩,
  ⟨0x110004, 0x110004, .u8, .ro, "CAN_STATE"⟩,
  ⟨0x110005, 0x110005, .u16, .rw, "HB_PERIOD"⟩,
  ⟨0x110006, 0x110006, .u8, .rw, "CAN_EVT_SEV"⟩,
  ⟨0x110007, 0x110007, .u16, .rw, "CAN_EVT_RATE"⟩,
  ⟨0x110008, 0x110008, .u16, .rw, "CAN_TIMEOUT"⟩,
  ⟨0x110009, 0x110009, .u32, .ro, "CAN_BUSOFF"⟩,
  ⟨0x11000A, 0x11000A, .u64, .ro, "CAN_ABORTS"⟩,
  ⟨0x11000B, 0x11000B, .u64, .ro, "CAN_EVT_DROPPED"⟩,
  ⟨0x110010, 0x110010, .u32, .rw, "CUR_BAUD"⟩,
  ⟨0x110011, 0x110011, .u16, .rw, "CUR_IDLE"⟩,
  ⟨0x110012, 0x110012, .u16, .rw, "MB_REMOTE_TIMEOUT"⟩,
  ⟨0x110020, 0x110020, .u8, .ro, "PCIE_SPEED"⟩,
  ⟨0x110021, 0x110021, .u8, .ro, "PCIE_WIDTH"⟩,
  ⟨0x110022, 0x110022, .u64, .ro, "HIF_EVENTS_LOST"⟩,
  ⟨0x200001, 0x200001, .u8, .ro, "STAGE"⟩,
  ⟨0x200002, 0x200002, .u8, .ro, "STAGE_FAULT"⟩,
  ⟨0x200003, 0x200005, .u32, .ro, "T_SKETCH"⟩,
  ⟨0x200006, 0x200006, .u64, .ro, "PROOF_TILES"⟩,
  ⟨0x200007, 0x200007, .u8, .ro, "PROOF_TASKS_DONE"⟩,
  ⟨0x200008, 0x200008, .u8, .ro, "LAST_RESET"⟩,
  ⟨0x200009, 0x200009, .u32, .ro, "RESET_COUNT"⟩,
  ⟨0x20000A, 0x20000A, .u8, .wo, "RESET_REQ"⟩,
  ⟨0x20000B, 0x20000B, .u8, .ro, "BOOT_SLOT"⟩,
  ⟨0x20000C, 0x20000C, .u8, .rw, "BOOT_PREFER"⟩,
  ⟨0x20000D, 0x20000D, .u16, .ro, "FW_SVN"⟩,
  ⟨0x20000E, 0x20000E, .u32, .ro, "BOOT_FALLBACKS"⟩]

/-- Entries, part 1. -/
def dictRows1 : List DRow := [
  ⟨0x200010, 0x200010, .u32, .rwIdle, "FW_UPD_OFFSET"⟩,
  ⟨0x200011, 0x200011, .domain, .wo, "FW_UPD_DATA"⟩,
  ⟨0x200012, 0x200012, .u8, .wo, "FW_UPD_COMMIT"⟩,
  ⟨0x200013, 0x200013, .u8, .wo, "CFG_SAVE"⟩,
  ⟨0x210001, 0x210001, .u16, .ro, "VIN"⟩,
  ⟨0x210002, 0x210002, .u32, .ro, "IIN"⟩,
  ⟨0x210003, 0x210003, .u16, .ro, "PIN_AVG"⟩,
  ⟨0x210004, 0x210007, .i8, .ro, "T_DIE0"⟩,
  ⟨0x210008, 0x210008, .i8, .ro, "T_COOLANT_IN"⟩,
  ⟨0x210009, 0x210009, .i8, .ro, "T_COOLANT_OUT"⟩,
  ⟨0x21000A, 0x21000A, .u16, .rw, "POWER_LIMIT"⟩,
  ⟨0x21000B, 0x21000B, .u8, .rw, "T_THROTTLE"⟩,
  ⟨0x21000C, 0x21000C, .u8, .ro, "THROTTLE_CAUSE"⟩,
  ⟨0x21000D, 0x21000D, .u64, .ro, "THROTTLE_CHANGES"⟩,
  ⟨0x21000E, 0x21000E, .u16, .ro, "TRIPS"⟩,
  ⟨0x210010, 0x210010, .u16, .ro, "TCLK_NOW"⟩,
  ⟨0x210011, 0x210011, .u16, .rw, "TCLK_CEILING"⟩,
  ⟨0x210012, 0x210012, .u64, .ro, "TCLK_CHANGES"⟩,
  ⟨0x210013, 0x210013, .u16, .const, "FCLK_NOW"⟩,
  ⟨0x210014, 0x210014, .u16, .const, "LCLK_NOW"⟩,
  ⟨0x210015, 0x210015, .u16, .const, "MCLK_NOW"⟩,
  ⟨0x300001, 0x300001, .u32, .ro, "STACKS_UP"⟩,
  ⟨0x300002, 0x300002, .u32, .ro, "STACK_SPARE_USED"⟩,
  ⟨0x300003, 0x300003, .u64, .ro, "STACK_ECC_CORRECTED"⟩,
  ⟨0x300004, 0x300004, .u64, .ro, "STACK_POISON_READS"⟩,
  ⟨0x300005, 0x300005, .u8, .ro, "STACK_TEMP_MAX"⟩,
  ⟨0x300006, 0x300006, .u8, .rw, "STACK_SCRUB_HOURS"⟩,
  ⟨0x310001, 0x310001, .u32, .rw, "FOLIO_SLEEP_IDLE"⟩,
  ⟨0x310002, 0x310002, .bool, .rwIdle, "FOLIO_OFF_ENABLE"⟩,
  ⟨0x310003, 0x310006, .u8, .ro, "FOLIO_SPARES_FREE_D0"⟩,
  ⟨0x310007, 0x310007, .u64, .ro, "FOLIO_ECC_CORRECTED"⟩,
  ⟨0x310008, 0x310008, .u64, .ro, "FOLIO_POISON_READS"⟩,
  ⟨0x310009, 0x310009, .u64, .ro, "CAT_REFUSED"⟩,
  ⟨0x31000A, 0x31000A, .u64, .ro, "WIN_REFUSED"⟩,
  ⟨0x31000B, 0x31000B, .u64, .ro, "LOCK_BROKEN"⟩,
  ⟨0x31000C, 0x31000C, .u8, .const, "BANK_CAP"⟩,
  ⟨0x31000D, 0x31000D, .u32, .ro, "SLOTS_FREE_D0"⟩,
  ⟨0x31000E, 0x310010, .u32, .ro, "SLOTS_FREE_D1"⟩,
  ⟨0x310011, 0x310011, .u16, .ro, "BANKS_AWAKE"⟩,
  ⟨0x401001, 0x401001, .u64, .ro, "ARR_SAT_TOTAL"⟩]

/-- Entries, part 2. -/
def dictRows2 : List DRow := [
  ⟨0x401002, 0x401002, .u64, .ro, "ARR_UNDERFLOW_TOTAL"⟩,
  ⟨0x401003, 0x401003, .u64, .ro, "ARR_VIOLATION_TOTAL"⟩,
  ⟨0x401004, 0x401004, .u64, .ro, "ARR_NONFINITE_TOTAL"⟩,
  ⟨0x401005, 0x401005, .u64, .ro, "ARR_ECC_CORRECTED"⟩,
  ⟨0x401101, 0x401140, .u16, .ro, "ARR_STATUS_T0"⟩,
  ⟨0x402001, 0x402001, .u64, .ro, "HATCH_SAT_TOTAL"⟩,
  ⟨0x402002, 0x402002, .u64, .ro, "HATCH_VIOLATION_TOTAL"⟩,
  ⟨0x402003, 0x402003, .u64, .ro, "HATCH_NONFINITE_TOTAL"⟩,
  ⟨0x402004, 0x402004, .u64, .ro, "CP_BLOCKS_TOTAL"⟩,
  ⟨0x402005, 0x402005, .u64, .ro, "DMA_BYTES_TOTAL"⟩,
  ⟨0x403001, 0x403001, .u16, .rw, "STREAM_URGENT"⟩,
  ⟨0x403002, 0x403002, .u32, .const, "STREAM_WATCHDOG"⟩,
  ⟨0x403003, 0x403003, .u64, .ro, "STREAM_DROPPED_TOTAL"⟩,
  ⟨0x403004, 0x403004, .u64, .ro, "STREAM_DESYNC_FAULTS"⟩,
  ⟨0x403005, 0x403005, .u64, .ro, "STREAM_REGION_FAULTS"⟩,
  ⟨0x403006, 0x403006, .u64, .ro, "STREAM_DEADLOCK_FAULTS"⟩,
  ⟨0x404001, 0x404001, .u32, .rwIdle, "TOKEN_WATCHDOG"⟩,
  ⟨0x404002, 0x404002, .u64, .ro, "TOKEN_OVERFLOW_FAULTS"⟩,
  ⟨0x404003, 0x404003, .u64, .ro, "TOKEN_DEADLOCK_FAULTS"⟩,
  ⟨0x404004, 0x404004, .u64, .ro, "STEP_ABORTS"⟩,
  ⟨0x404005, 0x404005, .u64, .ro, "PLATE_FETCH_MISSES"⟩,
  ⟨0x404006, 0x404006, .u64, .ro, "CATALOG_CACHE_MISSES"⟩,
  ⟨0x404100, 0x40411F, .u64, .ro, "STALL_TOTAL_00"⟩,
  ⟨0x500001, 0x500001, .u16, .rwIdle, "MODULE_ID"⟩,
  ⟨0x500002, 0x500002, .u8, .rwIdle, "TOPOLOGY"⟩,
  ⟨0x500003, 0x500005, .u16, .rwIdle, "DIM_X"⟩,
  ⟨0x500006, 0x500006, .bool, .rwIdle, "TIMING_ROOT"⟩,
  ⟨0x500007, 0x500007, .u8, .rwIdle, "TICK_SRC"⟩,
  ⟨0x500008, 0x500008, .u8, .ro, "TICK_STATE"⟩,
  ⟨0x500009, 0x500009, .i32, .ro, "TICK_OFFSET"⟩,
  ⟨0x50000A, 0x50000A, .u16, .ro, "TICK_DEPTH"⟩,
  ⟨0x50000B, 0x50000B, .u64, .ro, "TICK_NOW"⟩,
  ⟨0x50000C, 0x50000C, .u32, .ro, "PORTS_UP"⟩,
  ⟨0x50000D, 0x50000D, .u8, .rwIdle, "SPARE_PORT_USE"⟩,
  ⟨0x500010, 0x500010, .u64, .ro, "LINK_RESENDS"⟩,
  ⟨0x500011, 0x500011, .u64, .ro, "LINK_RECOVERIES"⟩,
  ⟨0x500012, 0x500012, .u64, .ro, "LANE_SWAPS"⟩,
  ⟨0x500013, 0x500013, .u64, .ro, "LATE_SLOTS"⟩,
  ⟨0x500014, 0x500014, .u64, .ro, "STRETCHES"⟩,
  ⟨0x500015, 0x500015, .u64, .ro, "STRETCH_TICKS"⟩]

/-- Entries, part 3. -/
def dictRows3 : List DRow := [
  ⟨0x500016, 0x500016, .u64, .ro, "LINK_FAULTS"⟩,
  ⟨0x510001, 0x510004, .u32, .ro, "COLL_CTX_FREE_D0"⟩,
  ⟨0x510005, 0x510005, .u64, .ro, "COLL_ESC_TOTAL"⟩,
  ⟨0x510006, 0x510006, .u64, .ro, "COLL_SPILL_TOTAL"⟩,
  ⟨0x510007, 0x510007, .u64, .ro, "COLL_NONFINITE_TOTAL"⟩,
  ⟨0x510008, 0x510008, .u64, .ro, "COLL_SKIPPED_STEPS"⟩,
  ⟨0x510009, 0x510009, .u64, .ro, "COLL_FAULTS"⟩,
  ⟨0x51000A, 0x51000A, .u64, .ro, "COLL_TOKENS_DROPPED_TOTAL"⟩,
  ⟨0x51000B, 0x51000B, .u64, .ro, "COLL_TOKENS_DEFERRED_TOTAL"⟩,
  ⟨0x51000C, 0x51000C, .u64, .ro, "RESHARD_COMMITS"⟩,
  ⟨0x51000D, 0x51000D, .u64, .ro, "RESHARD_ABANDONED"⟩,
  ⟨0x51000E, 0x51000E, .u32, .rw, "SPILL_TIMEOUT"⟩,
  ⟨0x510100, 0x51010F, .u32, .ro, "MAPGEN_0"⟩,
  ⟨0x510200, 0x51020F, .u32, .rw, "EXPERT_REF_0"⟩,
  ⟨0x511001, 0x511F07, .u64, .ro, "IDLE_c_CAUSE"⟩,
  ⟨0x600001, 0x600001, .bool, .rwIdle, "GOV_ENABLE"⟩,
  ⟨0x600002, 0x600002, .u16, .ro, "GOV_LAYERS"⟩,
  ⟨0x600003, 0x600003, .u64, .ro, "GOV_VOTES"⟩,
  ⟨0x600004, 0x600004, .u64, .ro, "GOV_RERUNS"⟩,
  ⟨0x600005, 0x600005, .u64, .ro, "GOV_STEP_DOWNS"⟩,
  ⟨0x600006, 0x600006, .u64, .ro, "GOV_UNRESOLVED"⟩,
  ⟨0x600007, 0x600007, .u64, .ro, "GOV_SKIPPED"⟩,
  ⟨0x600008, 0x600008, .u64, .ro, "GOV_ANCHOR_MOVES"⟩,
  ⟨0x600009, 0x600009, .u32, .ro, "GOV_END_MAX"⟩,
  ⟨0x60000A, 0x60000A, .u64, .ro, "GOV_FAULTS"⟩,
  ⟨0x601000, 0x60100F, .u16, .ro, "GOV_TABLE_0"⟩,
  ⟨0x700001, 0x700001, .u64, .rwIdle, "ROT_START"⟩,
  ⟨0x700002, 0x700002, .u8, .rw, "ROT_LEN"⟩,
  ⟨0x700003, 0x700003, .u16, .rwIdle, "SWITCH_GAP"⟩,
  ⟨0x700004, 0x700004, .u16, .rw, "ARB_WINDOW"⟩,
  ⟨0x700005, 0x700005, .u16, .rw, "ARB_QUOTA"⟩,
  ⟨0x700006, 0x700006, .u16, .rw, "ARB_LOW_AGE"⟩,
  ⟨0x700007, 0x700007, .u16, .ro, "CLIENTS_ADMITTED"⟩,
  ⟨0x700008, 0x700008, .u64, .ro, "SWITCHES"⟩,
  ⟨0x700009, 0x700009, .u32, .ro, "SWITCH_MAX"⟩,
  ⟨0x70000A, 0x70000A, .u64, .ro, "SWITCH_LATE"⟩,
  ⟨0x70000B, 0x70000B, .u64, .ro, "LONG_COMMANDS"⟩,
  ⟨0x70000C, 0x70000C, .domain, .ro, "SAT_BLOCKS"⟩,
  ⟨0x700100, 0x70010F, .u64, .rw, "ROT_ENTRY_0"⟩,
  ⟨0x700200, 0x70020F, .u8, .ro, "CLIENT_STATE_0"⟩]

/-- Entries, part 4. -/
def dictRows4 : List DRow := [
  ⟨0x700300, 0x70030F, .u8, .ro, "CLIENT_DIES_0"⟩,
  ⟨0x700400, 0x70040F, .u32, .ro, "CLIENT_DEBT_0"⟩,
  ⟨0x701000, 0x701003, .domain, .ro, "ARB_FOLIO_D0"⟩,
  ⟨0x701100, 0x701103, .domain, .ro, "ARB_STACK_D0"⟩,
  ⟨0x701200, 0x701203, .domain, .ro, "ARB_BRIDGE_D0"⟩,
  ⟨0x701300, 0x701303, .domain, .ro, "ARB_PORT_D0"⟩,
  ⟨0x710001, 0x710002, .u64, .ro, "LEDGER_UNATTRIBUTED"⟩,
  ⟨0x711001, 0x711F18, .u64, .ro, "LEDGER"⟩,
  ⟨0x800001, 0x800001, .domain, .ro, "ERRATA_MAP"⟩,
  ⟨0x800002, 0x800002, .u16, .ro, "ERRATA_COUNT"⟩,
  ⟨0x800003, 0x800003, .u16, .ro, "ERRATA_PENDING"⟩,
  ⟨0x800004, 0x800004, .bool, .rw, "WEAR_ENABLE"⟩,
  ⟨0x800005, 0x800005, .bool, .rw, "WEAR_AUTOFUSE"⟩,
  ⟨0x800006, 0x800006, .u16, .rw, "WEAR_WINDOW"⟩,
  ⟨0x800007, 0x800007, .u32, .rw, "WEAR_BANK_CE"⟩,
  ⟨0x800008, 0x800008, .u32, .rw, "WEAR_SDIE_CE"⟩,
  ⟨0x800009, 0x800009, .u8, .rw, "WEAR_ROW_CE"⟩,
  ⟨0x80000A, 0x80000A, .u32, .rw, "WEAR_TILE_CE"⟩,
  ⟨0x80000B, 0x80000B, .u32, .rw, "WEAR_LANE_FEC"⟩,
  ⟨0x80000C, 0x80000C, .u8, .ro, "SPARE_TILES_FREE"⟩,
  ⟨0x80000D, 0x80000D, .u32, .ro, "SPARE_LANES_FREE"⟩,
  ⟨0x80000E, 0x80000E, .u8, .ro, "SPARE_CORES_FREE"⟩,
  ⟨0x80000F, 0x80000F, .u64, .ro, "SWAPS"⟩,
  ⟨0x900001, 0x900001, .u64, .ro, "ARCH_IMAGES"⟩,
  ⟨0x900002, 0x900002, .u64, .ro, "ARCH_SKIPPED"⟩,
  ⟨0x900003, 0x900003, .u64, .ro, "ARCH_TAINTED"⟩,
  ⟨0x900004, 0x900004, .u64, .ro, "ARCH_BYTES_OUT"⟩,
  ⟨0x900005, 0x900005, .u64, .ro, "RESTORES"⟩,
  ⟨0x900006, 0x900006, .u64, .ro, "RESTORE_FAILS"⟩,
  ⟨0x900007, 0x900007, .u64, .ro, "BOOKMARK_MISMATCH"⟩,
  ⟨0x900100, 0x90010F, .u8, .ro, "ARCH_STATE_0"⟩,
  ⟨0x900200, 0x90020F, .u32, .rw, "ARCH_CAPTURE_0"⟩,
  ⟨0x900300, 0x90030F, .domain, .rw, "DATAPOS_0"⟩,
  ⟨0x900400, 0x90040F, .u32, .ro, "RESTORE_SET_0"⟩,
  ⟨0xA00001, 0xA00001, .domain, .ro, "EVENT_LOG"⟩,
  ⟨0xA00002, 0xA00002, .domain, .ro, "ERROR_LOG"⟩,
  ⟨0xA00003, 0xA00003, .u64, .ro, "ERRLOG_COUNT"⟩,
  ⟨0xA00004, 0xA00004, .u64, .ro, "ERRLOG_DROPPED"⟩,
  ⟨0xA00005, 0xA00005, .u8, .wo, "ERRLOG_CLEAR"⟩,
  ⟨0xA00010, 0xA0001F, .u32, .ro, "STEP_SCOPE_0"⟩]

/-- Entries, part 5. -/
def dictRows5 : List DRow := [
  ⟨0xA00020, 0xA0002F, .u64, .ro, "STEP_INDEX_0"⟩,
  ⟨0xF00001, 0xF00001, .u8, .ro, "CUR_LEVEL"⟩,
  ⟨0xF00002, 0xF00002, .domain, .wo, "CUR_KEY1"⟩,
  ⟨0xF00003, 0xF00003, .u32, .ro, "CUR_FAILS"⟩,
  ⟨0xF00004, 0xF00004, .u8, .wo, "FUSE_ARM"⟩,
  ⟨0xF00005, 0xF00005, .bool, .ro, "FUSE_ARMED"⟩]

/-- Every entry of the dictionary. -/
def dictRows : List DRow := dictRows0 ++ dictRows1 ++ dictRows2 ++ dictRows3 ++ dictRows4 ++ dictRows5

/-- The row of an entry; none where the dictionary has no such entry. -/
def dictRow (k : Nat) : Option DRow := dictRows.find? fun r => decide (r.lo ≤ k) && decide (k ≤ r.hi)

/-- The default of an entry (R7, R8); 0 where the table gives none (log 2) or another piece of state holds it. -/
def dictDefault (k : Nat) : Word :=
  if k = 0x100002 then 16 -- DIE_STEPPING (R1)
  else if k = 0x100003 then 2 -- CARRIER_REV (R1)
  else if 0x100015 ≤ k ∧ k ≤ 0x100018 then 48 -- FUSES_FREE_D0 (R438)
  else if k = 0x110005 then 1000 -- HB_PERIOD (R420)
  else if k = 0x110006 then 255 -- CAN_EVT_SEV (R420)
  else if k = 0x110007 then 100 -- CAN_EVT_RATE (R420)
  else if k = 0x110008 then 500 -- CAN_TIMEOUT (R420)
  else if k = 0x110010 then 115200 -- CUR_BAUD (R420)
  else if k = 0x110011 then 900 -- CUR_IDLE (R420)
  else if k = 0x110012 then 10 -- MB_REMOTE_TIMEOUT (R420)
  else if k = 0x200001 then 1 -- STAGE (R401)
  else if k = 0x200008 then 1 -- LAST_RESET (R401)
  else if k = 0x21000A then 3600 -- POWER_LIMIT (R453)
  else if k = 0x21000B then 95 -- T_THROTTLE (R453)
  else if k = 0x210011 then 1600 -- TCLK_CEILING (R17)
  else if k = 0x210013 then 2000 -- FCLK_NOW (R17)
  else if k = 0x210014 then 1250 -- LCLK_NOW (R17)
  else if k = 0x210015 then 800 -- MCLK_NOW (R17)
  else if k = 0x300006 then 8 -- STACK_SCRUB_HOURS (R347)
  else if k = 0x310001 then 512 -- FOLIO_SLEEP_IDLE (R195)
  else if k = 0x310002 then 1 -- FOLIO_OFF_ENABLE (R195)
  else if 0x310003 ≤ k ∧ k ≤ 0x310006 then 16 -- FOLIO_SPARES_FREE_D0 (R195)
  else if k = 0x31000C then 8 -- BANK_CAP (R195)
  else if k = 0x31000D then 65536 -- SLOTS_FREE_D0 (R195)
  else if 0x31000E ≤ k ∧ k ≤ 0x310010 then 65536 -- SLOTS_FREE_D1 (R195)
  else if k = 0x403001 then 64 -- STREAM_URGENT (R217)
  else if k = 0x403002 then 65536 -- STREAM_WATCHDOG (R217)
  else if k = 0x404001 then 1048576 -- TOKEN_WATCHDOG (R238)
  else if 0x500003 ≤ k ∧ k ≤ 0x500005 then 2 -- DIM_X (R294)
  else if 0x510001 ≤ k ∧ k ≤ 0x510004 then 65536 -- COLL_CTX_FREE_D0 (R323)
  else if k = 0x51000E then 1000 -- SPILL_TIMEOUT (R323)
  else if k = 0x600001 then 1 -- GOV_ENABLE (R265)
  else if 0x601000 ≤ k ∧ k ≤ 0x60100F then 65535 -- GOV_TABLE_0 (R265)
  else if k = 0x700003 then 600 -- SWITCH_GAP (R369)
  else if k = 0x700004 then 1024 -- ARB_WINDOW (R369)
  else if k = 0x700005 then 512 -- ARB_QUOTA (R369)
  else if k = 0x700006 then 4096 -- ARB_LOW_AGE (R369)
  else if k = 0x800004 then 1 -- WEAR_ENABLE (R439)
  else if k = 0x800006 then 60 -- WEAR_WINDOW (R439)
  else if k = 0x800007 then 64 -- WEAR_BANK_CE (R439)
  else if k = 0x800008 then 1024 -- WEAR_SDIE_CE (R439)
  else if k = 0x800009 then 2 -- WEAR_ROW_CE (R439)
  else if k = 0x80000A then 256 -- WEAR_TILE_CE (R439)
  else if k = 0x80000B then 1000000 -- WEAR_LANE_FEC (R439)
  else if k = 0x80000C then 15 -- SPARE_TILES_FREE (R439)
  else if k = 0x80000E then 15 -- SPARE_CORES_FREE (R439)
  else 0

end Sys2Proof.Machine
end

