-- ==== Sys2Proof/Machine/Exact.lean ====
section
/-! DEFINITION. Exact values: rationals, powers of two, and the floating values a format can hold. Every rule computes exactly here and narrows explicitly at the end (R38, R44). -/

namespace Sys2Proof.Machine

/-- 2 to an integer power, exactly. -/
def pow2 : Int → Rat
  | .ofNat n => ((2 ^ n : Nat) : Rat)
  | .negSucc n => mkRat 1 (2 ^ (n + 1))

/-- floor(log2 x) of a positive rational. -/
def ilog2 (x : Rat) : Int :=
  let e : Int := (x.num.natAbs.log2 : Int) - (x.den.log2 : Int)
  if pow2 e ≤ x then e else e - 1

/-- The absolute value of a rational. -/
def rabs (x : Rat) : Rat := if x < 0 then -x else x

/-- floor of a non-negative rational, as a natural number. -/
def rfloor (x : Rat) : Nat := x.floor.toNat

/-- A value an element can hold: a signed finite magnitude (a zero keeps its sign), an infinity or a NaN. -/
inductive FVal where
  | fin (neg : Bool) (mag : Rat)
  | inf (neg : Bool)
  | nan
  deriving DecidableEq, Repr

/-- The exact number of a finite value; 0 for the others. -/
def FVal.toRat : FVal → Rat
  | .fin true m => -m
  | .fin false m => m
  | _ => 0

/-- A finite exact number as a value; a zero takes the sign given. -/
def FVal.ofRat (zneg : Bool) (x : Rat) : FVal :=
  if x = 0 then .fin zneg 0 else .fin (decide (x < 0)) (rabs x)

/-- Whether a value is finite. -/
def FVal.isFin : FVal → Bool
  | .fin _ _ => true
  | _ => false

/-- A finite value times an exact number; a product that is zero keeps the exclusive-or of the signs. -/
def FVal.scale (v : FVal) (x : Rat) : FVal :=
  match v with
  | .fin n m => .fin (n != decide (x < 0)) (m * rabs x)
  | .inf n => .inf (n != decide (x < 0))
  | .nan => .nan

/-- How a conversion rounds: to nearest even, or stochastically with the low 16 bits of a draw (R44 to R46). -/
inductive Rnd where
  | rne
  | sr (r : Nat)
  deriving DecidableEq, Repr

/-- Rounding a non-negative number of units to a whole number of units (R45, R46). -/
def roundUnits (rnd : Rnd) (x : Rat) : Nat :=
  let k := rfloor x
  let f := x - (k : Rat)
  match rnd with
  | .rne => if f * 2 > 1 then k + 1 else if f * 2 = 1 then k + k % 2 else k
  | .sr r => if rfloor (f * 65536) + r % 65536 ≥ 65536 then k + 1 else k

end Sys2Proof.Machine
end

