-- ==== Sys2Proof/Machine/Formats.lean ====
section
/-! DEFINITION. Number formats: element encodings, format descriptors, block scales, conversions and their rounding (R28 to R51, R56, R57). -/

namespace Sys2Proof.Machine

/-- The ten element formats (R29). -/
inductive Elem where
  | fp32 | bf16 | fp16 | e4m3 | e5m2 | e3m2 | e2m3 | e2m1 | int8 | int4
  deriving DecidableEq, Repr

/-- ELEM codes; 10 to 15 are reserved (R32). -/
def elemOf : Nat → Option Elem
  | 0 => some .fp32 | 1 => some .bf16 | 2 => some .fp16 | 3 => some .e4m3 | 4 => some .e5m2
  | 5 => some .e3m2 | 6 => some .e2m3 | 7 => some .e2m1 | 8 => some .int8 | 9 => some .int4
  | _ => none

/-- The ELEM code of a format (R29). -/
def elemCode : Elem → Nat
  | .fp32 => 0 | .bf16 => 1 | .fp16 => 2 | .e4m3 => 3 | .e5m2 => 4
  | .e3m2 => 5 | .e2m3 => 6 | .e2m1 => 7 | .int8 => 8 | .int4 => 9

/-- Element width in bits (R29). -/
def elemBits : Elem → Nat
  | .fp32 => 32 | .bf16 => 16 | .fp16 => 16 | .e4m3 => 8 | .e5m2 => 8
  | .e3m2 => 6 | .e2m3 => 6 | .e2m1 => 4 | .int8 => 8 | .int4 => 4

/-- Mantissa width; 0 for the integer formats (R29). -/
def elemMant : Elem → Nat
  | .fp32 => 23 | .bf16 => 7 | .fp16 => 10 | .e4m3 => 3 | .e5m2 => 2
  | .e3m2 => 2 | .e2m3 => 3 | .e2m1 => 1 | .int8 => 0 | .int4 => 0

/-- Exponent bias (R29). -/
def elemBias : Elem → Int
  | .fp32 => 127 | .bf16 => 127 | .fp16 => 15 | .e4m3 => 7 | .e5m2 => 15
  | .e3m2 => 3 | .e2m3 => 1 | .e2m1 => 1 | .int8 => 0 | .int4 => 0

/-- Whether a format is an integer format. -/
def elemInt : Elem → Bool
  | .int8 => true | .int4 => true | _ => false

/-- Wide formats carry no block scales (R28). -/
def elemWide : Elem → Bool
  | .fp32 => true | .bf16 => true | .fp16 => true | _ => false

/-- The exponent of the largest element (R41). -/
def elemEmax : Elem → Int
  | .e4m3 => 8 | .e5m2 => 15 | .e3m2 => 4 | .e2m3 => 2 | .e2m1 => 2 | .int8 => 6 | .int4 => 2
  | .fp32 => 127 | .bf16 => 127 | .fp16 => 15

/-- The largest finite magnitude (R29). -/
def elemMax : Elem → Rat
  | .fp32 => ((2 ^ 24 - 1 : Nat) : Rat) * pow2 104
  | .bf16 => 255 * pow2 120
  | .fp16 => 65504
  | .e4m3 => 448
  | .e5m2 => 57344
  | .e3m2 => 28
  | .e2m3 => 15 / 2
  | .e2m1 => 6
  | .int8 => 127
  | .int4 => 7

/-- The exponent of the smallest normal value. -/
def elemEmin (f : Elem) : Int := 1 - elemBias f

/-- The formats that encode an infinity (R29). -/
def elemHasInf : Elem → Bool
  | .fp32 => true | .bf16 => true | .fp16 => true | .e5m2 => true | _ => false

/-- The formats that encode a NaN (R29). -/
def elemHasNan : Elem → Bool
  | .fp32 => true | .bf16 => true | .fp16 => true | .e5m2 => true | .e4m3 => true | _ => false

/-- The canonical NaN of a format; 0 where it has none (R31). -/
def elemNan : Elem → Nat
  | .fp32 => 0x7FC00000 | .bf16 => 0x7FC0 | .fp16 => 0x7E00 | .e5m2 => 0x7F | .e4m3 => 0x7F
  | _ => 0

/-- The code of +Inf, for the formats that have one (R29). -/
def elemInf : Elem → Nat
  | .fp32 => 0x7F800000 | .bf16 => 0x7F80 | .fp16 => 0x7C00 | .e5m2 => 0x7C | _ => 0

/-- The value of an element's bits (R29, R31). -/
def decodeElem (f : Elem) (code : Nat) : FVal :=
  let w := elemBits f
  let c := code % 2 ^ w
  if elemInt f then FVal.ofRat false (toSigned w c : Rat)
  else
    let neg := decide (2 ^ (w - 1) ≤ c)
    let mag := c % 2 ^ (w - 1)
    let m := elemMant f
    let e := mag / 2 ^ m
    let fr := mag % 2 ^ m
    if elemHasInf f && decide (mag = elemInf f) then .inf neg
    else if elemHasInf f && decide (elemInf f < mag) then .nan
    else if decide (f = .e4m3) && decide (mag = 0x7F) then .nan
    else if e = 0 then .fin neg ((fr : Rat) * pow2 (elemEmin f - m))
    else .fin neg (((2 ^ m + fr : Nat) : Rat) * pow2 ((e : Int) - elemBias f - m))

/-- A format descriptor, decoded (R32). -/
structure Fmt where
  elem : Elem
  blk : Nat
  ovf : Bool
  rnd : Bool
  wlo : Nat
  deriving DecidableEq, Repr

/-- Decoding a 16-bit format descriptor; none for a reserved encoding (R32, R33). -/
def fmtOf (d : Nat) : Option Fmt :=
  match elemOf (d % 16) with
  | none => none
  | some e =>
    let b := d / 16 % 4
    let ovf := d / 64 % 2 = 1
    let w := d / 256 % 256
    if ovf ∧ ¬ elemHasInf e then none
    else if elemWide e ∧ (b ≠ 0 ∨ w ≠ 0) then none
    else if w ≥ 208 then none
    else some { elem := e, blk := 16 * 2 ^ b, ovf := decide ovf, rnd := decide (d / 128 % 2 = 1), wlo := w }

/-- What one conversion gives: the element's bits, and the events it counts. -/
structure Conv where
  code : Nat
  sat : Bool := false
  flushed : Bool := false
  nonfin : Bool := false
  deriving DecidableEq, Repr

/-- Converting a finite number into a floating format, rounded once (R44 to R49). -/
def convFloat (f : Elem) (ovf : Bool) (rnd : Rnd) (neg : Bool) (mag : Rat) : Conv :=
  let sgn := if neg then 2 ^ (elemBits f - 1) else 0
  if mag = 0 then { code := sgn }
  else
    let m := elemMant f
    let lo : Int := elemEmin f - m
    let q : Int := max (ilog2 mag) (elemEmin f) - m
    let k := roundUnits rnd (mag / pow2 q)
    let sat := decide (elemMax f < mag)
    if elemMax f < (k : Rat) * pow2 q then
      let top := elemMax f
      let qt : Int := ilog2 top - m
      let kt := rfloor (top / pow2 qt)
      if ovf && elemHasInf f then { code := sgn + elemInf f, sat := sat }
      else { code := sgn + (qt - lo).toNat * 2 ^ m + kt, sat := sat }
    else if k = 0 then { code := sgn, sat := sat, flushed := true }
    else { code := sgn + (q - lo).toNat * 2 ^ m + k, sat := sat }

/-- Converting a finite number into an integer format (R45, R46, R48, R49). -/
def convInt (f : Elem) (rnd : Rnd) (neg : Bool) (mag : Rat) : Conv :=
  let w := elemBits f
  let k := roundUnits rnd mag
  let v : Int := if neg then -(k : Int) else k
  let top : Int := (2 ^ (w - 1) : Nat) - 1
  let bot : Int := -(2 ^ (w - 1) : Nat)
  let x : Rat := if neg then -mag else mag
  let sat := decide ((top : Rat) < x ∨ x < (bot : Rat))
  let r := if v > top then top else if v < bot then bot else v
  { code := ofSigned w r, sat := sat, flushed := decide (mag ≠ 0 ∧ k = 0) }

/-- Converting a value into an element format (R48, R50, R51). A NaN or an infinity that the format does not encode
answers code 0 here: its block's scale is 255 (narrowBlock). -/
def convElem (f : Elem) (ovf : Bool) (rnd : Rnd) (v : FVal) : Conv :=
  match v with
  | .nan => { code := elemNan f, nonfin := true }
  | .inf neg =>
    if elemHasInf f then { code := (if neg then 2 ^ (elemBits f - 1) else 0) + elemInf f, nonfin := true }
    else { code := elemNan f, nonfin := true }
  | .fin neg mag => if elemInt f then convInt f rnd neg mag else convFloat f ovf rnd neg mag

/-- The factor of a block scale (R34). -/
def scaleFactor (s : Nat) : Rat := pow2 ((s : Int) - 127)

/-- The exact value of an element under its block scale and tensor scale (R34, R38). -/
def elemValue (f : Elem) (s : Nat) (t : Rat) (code : Nat) : FVal :=
  if elemWide f then decodeElem f code
  else if s = 255 then .nan
  else (decodeElem f code).scale (scaleFactor s * t)

/-- The window of a narrow format holds 48 scales from W_LO (R39); the scale 255 is no violation (R40). -/
def outOfWindow (wlo s : Nat) : Bool := decide (s ≠ 255 ∧ (s < wlo ∨ wlo + 47 < s))

/-- The largest magnitude of the finite values of a list (R41). -/
def maxFin (vs : List FVal) : Rat :=
  vs.foldl (fun a v => match v with | .fin _ m => if a < m then m else a | _ => a) 0

/-- The block scale a producer chooses, and whether the choice is a window violation (R41). -/
def chooseScale (f : Elem) (wlo : Nat) (a : Rat) : Nat × Bool :=
  if a = 0 then (wlo, false)
  else
    let s : Int := ilog2 a - elemEmax f + 127
    if s > (wlo : Int) + 47 then (wlo + 47, true)
    else if s < (wlo : Int) then (wlo, true)
    else (s.toNat, false)

/-- A narrowed block: its scale, its elements' bits, and what it counts. -/
structure Block where
  scale : Nat
  codes : List Nat
  viol : Bool := false
  sats : Nat := 0
  flushed : Nat := 0
  nonfin : Nat := 0
  deriving DecidableEq, Repr

/-- Finite overflow of a sign (R48), as the SAT row of R54 gives it: counted as a saturation. -/
def overflowElem (f : Elem) (ovf neg : Bool) : Conv :=
  let w := elemBits f
  if elemInt f then { code := if neg then 2 ^ (w - 1) else 2 ^ (w - 1) - 1, sat := true }
  else { convFloat f ovf .rne neg (elemMax f * 4) with sat := true }

/-- Converting element i of a run: forced says that the SAT row of R54 decides it. -/
def convAt (f : Fmt) (rnd : Rnd) (forced : Bool) (v : FVal) : Conv :=
  if forced then overflowElem f.elem f.ovf (match v with | .fin n _ => n | .inf n => n | .nan => false)
  else convElem f.elem f.ovf rnd v

/-- Narrowing one block of values, already divided by the destination's tensor scale, into a narrow format
(R41, R44 to R50, R54). In a block of scale 255 the elements' bits are open: free values of Config (log 4). -/
def narrowBlock (f : Fmt) (rnd : Nat → Rnd) (vs : List FVal) (forced : Nat → Bool) : Block :=
  let (s, viol) := chooseScale f.elem f.wlo (maxFin vs)
  let nf := vs.countP fun v => !v.isFin
  if nf ≠ 0 ∧ ¬ elemHasNan f.elem then
    { scale := 255, nonfin := nf, viol := viol,
      codes := (List.range vs.length).map fun i =>
        (Config.nanBlockElem (elemCode f.elem) i).toNat % 2 ^ elemBits f.elem }
  else
    let cs := (List.range vs.length).map fun i =>
      convAt f (rnd i) (forced i) ((nth FVal.nan vs i).scale (1 / scaleFactor s))
    { scale := s, codes := cs.map (·.code), viol := viol, nonfin := nf,
      sats := cs.countP (·.sat), flushed := cs.countP (·.flushed) }

/-- Bits of the elements of a list, packed densely from bit 0 (R43). -/
def packBits (w : Nat) (codes : List Nat) : Nat :=
  codes.foldr (fun c acc => c % 2 ^ w + 2 ^ w * acc) 0

/-- The bytes of a list of elements (R43). -/
def packElems (w : Nat) (codes : List Nat) : List (BitVec 8) :=
  leBytes (cdiv (codes.length * w) 8) (packBits w codes)

/-- n elements of w bits each, read from bytes (R43). -/
def unpackElems (w n : Nat) (bs : List (BitVec 8)) : List Nat :=
  let x := leNat bs
  (List.range n).map fun i => x / 2 ^ (w * i) % 2 ^ w

/-- Blocks of a row of declared length L (R35). -/
def nBlocks (L b : Nat) : Nat := cdiv L b

/-- Bytes of a row's elements (R36, R167). -/
def rowPitch (f : Fmt) (L : Nat) : Nat :=
  if elemWide f.elem then L * elemBits f.elem / 8 else nBlocks L f.blk * f.blk * elemBits f.elem / 8

/-- An FP32 bit pattern as a value. -/
def f32 (x : BitVec 32) : FVal := decodeElem .fp32 x.toNat

/-- The FP32 bits of an exact number, rounded to nearest even, overflow to infinity (R118). -/
def toF32 (zneg : Bool) (x : Rat) : BitVec 32 :=
  match FVal.ofRat zneg x with
  | .fin n m => BitVec.ofNat 32 (convFloat .fp32 true .rne n m).code
  | _ => 0#32

/-- The canonical FP32 NaN (R31). -/
def nan32 : BitVec 32 := 0x7FC00000#32

/-- FP32 infinity of a sign. -/
def inf32 (neg : Bool) : BitVec 32 := if neg then 0xFF800000#32 else 0x7F800000#32

/-- FP32 bits of a value, rounded to nearest even with overflow to infinity. -/
def f32Bits (v : FVal) : BitVec 32 :=
  match v with
  | .nan => nan32
  | .inf n => inf32 n
  | .fin n m => BitVec.ofNat 32 (convFloat .fp32 true .rne n m).code

/-- A tensor scale or multiplier that is positive, finite and normal (R37). -/
def goodScale (x : BitVec 32) : Bool :=
  decide (0x00800000 ≤ x.toNat ∧ x.toNat < 0x7F800000)

/-- An FP32 multiplier that is finite, normal and non-zero, of either sign. -/
def goodMult (x : BitVec 32) : Bool := goodScale (x &&& 0x7FFFFFFF#32)

/-- BF16 bits of a magnitude rounded toward +Inf (R144, R146). -/
def bf16Up (x : Rat) : Nat :=
  if x = 0 then 0
  else
    let q : Int := max (ilog2 x) (elemEmin .bf16) - 7
    let y := x / pow2 q
    let k := rfloor y
    let k := if (k : Rat) = y then k else k + 1
    if elemMax .bf16 < (k : Rat) * pow2 q then 0x7F80
    else (q - (elemEmin .bf16 - 7)).toNat * 2 ^ 7 + k

/-- FP32 bits of a magnitude rounded toward +Inf (R144). -/
def f32Up (x : Rat) : Nat :=
  if x = 0 then 0
  else
    let q : Int := max (ilog2 x) (elemEmin .fp32) - 23
    let y := x / pow2 q
    let k := rfloor y
    let k := if (k : Rat) = y then k else k + 1
    if elemMax .fp32 < (k : Rat) * pow2 q then 0x7F800000
    else (q - (elemEmin .fp32 - 23)).toNat * 2 ^ 23 + k

end Sys2Proof.Machine
end

