-- ==== Sys2Proof/Machine/State.lean ====
section
/-! DEFINITION. The state of the module: plain data, everything the spec gives it, and the state at reset (Ground). -/

namespace Sys2Proof.Machine

/-- Reasons for which the machine stops with a fault. -/
inductive Fault where
  /-- Raised by POWER_SEQUENCE when the input voltage is above R440's absolute limit: the spec guarantees nothing there
  (R11). Safe: the model goes no further. -/
  | outsideLimits
  deriving DecidableEq, Repr

/-- Reasons for which a command has no meaning. -/
inductive Refusal where
  /-- Raised by the dispatcher for a command that is not modelled yet. Safe: nothing can be proved of it. -/
  | notModelled (mnemonic : String)
  deriving DecidableEq, Repr

/-! ### Memory and the Catalog -/

/-- Guarded memory: Folio and stack bytes by module-local address (R334), and for each 8-byte word that is not clean the
syndrome of its check bits (R328; 0x0007 is poison, R329), and the last owner of each Folio line (R165), as client + 1. -/
structure Memory where
  cells : List Host.Cell := []
  synd : SMap Check := []
  owner : SMap Nat := []
  deriving DecidableEq, Repr

/-- What an unlisted byte of memory reads as (R391 for the Folio; DESIGN CHOICE for the stacks, log 1). -/
def Memory.unlisted : Byte := 0#8

/-- The canonical form of memory: addresses strictly rising, no entry equal to what an unlisted address reads as. -/
def Memory.wf (m : Memory) : Bool := mwf Memory.unlisted m.cells && mwf 0#16 m.synd && mwf 0 m.owner

/-- A Catalog entry, words W0 to W7 (R166). -/
structure Entry where
  w0 : Word := 0
  w1 : Word := 0
  w2 : Word := 0
  w3 : Word := 0
  w4 : Word := 0
  w5 : Word := 0
  w6 : Word := 0
  w7 : Word := 0
  deriving DecidableEq, Repr

/-- A write in a die's staging table (R175): its record and the client whose staging it belongs to. -/
structure Staged where
  die : DieId
  owner : Nat
  ctl : Word
  ent : Entry
  deriving DecidableEq, Repr

/-- A commit that waits for its plan tick (R175, R176); one that a run has left behind waits for the client's next run, whose
plan ticks it then counts in (R260, log 15). -/
structure CommitWait where
  die : DieId
  client : Nat
  tick : Nat
  held : Bool := false
  deriving DecidableEq, Repr

/-- A window-closing Catalog write that waits for the remote writes accepted under the old window (R181): the port it came
through, or the SCAT it is. -/
structure Closing where
  name : Nat
  agent : Option Agent
  id : Nat := 0
  deriving DecidableEq, Repr

/-- An access that waits for a ring slot's state (R178). -/
structure Waiter where
  name : Nat
  slot : Nat
  write : Bool
  acc : Access
  data : List Byte
  remote : Bool := false
  deriving DecidableEq, Repr

/-- A die's Catalog and everything that goes with it (R165 to R185). -/
structure Catalog where
  ents : SMap Entry := []
  full : SMap Bool := []
  staging : List Staged := []
  commits : List CommitWait := []
  closing : List Closing := []
  accepted : SMap Nat := []
  epochs : SMap (BitVec 32) := []
  waiters : List Waiter := []
  deriving DecidableEq, Repr

/-- Power state of a Folio bank (R191). -/
inductive BankPower where
  | active | sleep | off | waking | powering
  deriving DecidableEq, Repr

/-- Folio banks (R191 to R194): what is not active, requests that wait for a wake, and the bank map. -/
structure Banks where
  power : SMap BankPower := []
  waiting : SMap Nat := []
  gate : SMap Bool := []
  map : SMap Nat := []
  used : SMap Nat := []
  deriving DecidableEq, Repr

/-! ### Plates, windows and tokens -/

/-- A command in an engine's issue window (R226): its ordinal and word index in the plate, its words, the Catalog entries
read when it entered, and for an issued command those of its issue (R169, log 14), the bank it resolved (R89), whether its
length is unknown (R221), whether a block check refuses it (R111). -/
structure WinCmd where
  ix : Nat
  off : Nat
  cmd : PCmd
  names : List (Nat × Entry)
  bank : Nat
  unknown : Bool := false
  bad : Bool := false
  deriving DecidableEq, Repr

/-- An issued command that has not completed (R174, R226). -/
structure Flight where
  id : Nat
  eng : Eng
  client : Nat
  win : WinCmd
  deriving DecidableEq, Repr

/-- An engine's plate state (R226, R231): window, words delivered and not entered, fetch position, end of plate. -/
structure EngSt where
  win : List WinCmd := []
  words : List Word := []
  fetched : Nat := 0
  entered : Nat := 0
  nextIx : Nat := 0
  ended : Bool := false
  bank : Bool := false
  xbound : BitVec 8 := 0
  running : Bool := false
  deriving DecidableEq, Repr

/-- A post on its way to a token register (R224): file 0 to 15 or 16, register, count, and the poster. -/
structure Post where
  die : DieId
  file : Nat
  reg : Nat
  count : Nat
  eng : Eng
  client : Nat
  deriving DecidableEq, Repr

/-- Caches of a tile sequencer (R231, R232): lines of plate words, and Catalog names by set, most recent first. -/
structure Caches where
  lines : SMap (List Word) := []
  order : SMap (List Nat) := []
  names : SMap (List Nat) := []
  deriving DecidableEq, Repr

/-- All plate state of the module. -/
structure Plates where
  engs : SMap EngSt := []
  flights : List Flight := []
  nextId : Nat := 1
  tokens : SMap (BitVec 16) := []
  posts : List Post := []
  caches : SMap Caches := []
  deriving DecidableEq, Repr

/-! ### The array -/

/-- An accumulator entry: 192-bit value and four flags (R70, R74). -/
structure AccEntry where
  val : BitVec 192 := 0
  nan : Bool := false
  pinf : Bool := false
  ninf : Bool := false
  sat : Bool := false
  deriving DecidableEq, Repr

/-- What a bank records (R70, R76, R79): L or A, the tensor-scale product, N'. -/
structure BankRec where
  wide : Bool
  base : Int
  scale : Rat
  cols : Nat
  deriving DecidableEq, Repr

/-- An accumulator bank (R76, R79, R253); entries by column x 256 + entry. -/
structure Bank where
  record : Option BankRec := none
  ufl : Bool := false
  ents : SMap AccEntry := []
  deriving DecidableEq, Repr

/-- A line or a row: element codes and the scale of each block. -/
structure Line where
  codes : List Nat
  scales : List Nat
  deriving DecidableEq, Repr

/-- A stationary tile (R60): its format, tensor scale, orientation, K' and N', and its lines. -/
structure Stat where
  fmt : Fmt
  tscale : Rat
  top : Bool
  k : Nat
  n : Nat
  lines : List Line
  deriving DecidableEq, Repr

/-- An issued LOAD_STAT (R91): its fields, the lines it has received, and whether it has been refused (R458). -/
structure LoadJob where
  id : Nat
  top : Bool
  lstr : Nat
  lscl : Nat
  lines : Nat
  llen : Nat
  got : List Line := []
  count : Nat := 0
  fmt : Option (Fmt × Rat) := none
  bad : Bool := false
  deriving DecidableEq, Repr

/-- Entries of a bank that wait for their automatic drain (R76, R104): first pass row, entries, request tags. -/
structure DueDrain where
  bank : Nat
  row0 : Nat
  count : Nat
  tags : List Nat := []
  deriving DecidableEq, Repr

/-- An issued PASS (R93): its words and how far it has come. takes says that it consumes a pending tile. -/
structure PassJob where
  id : Nat
  w0 : Word
  w1 : Word
  w2 : Word
  bank : Nat
  takes : Bool := false
  row : Nat := 0
  started : Bool := false
  bad : Bool := false
  dest : Option (Nat × Entry) := none
  ring : Option (Nat × Entry) := none
  batch : Nat := 0
  slots : List Nat := []
  done : Nat := 0
  tags : List Nat := []
  due : List DueDrain := []
  deriving DecidableEq, Repr

/-- What a fold adds to a statistics slot (R144, R145). -/
structure Fold where
  amax : Rat := 0
  elems : Nat := 0
  zeros : Nat := 0
  flushed : Nat := 0
  sats : Nat := 0
  viols : Nat := 0
  srcViols : Nat := 0
  nonfin : Nat := 0
  exps : List Int := []
  deriving DecidableEq, Repr

/-- A drain, explicit or automatic (R76, R94): entries done, and its specification. -/
structure DrainJob where
  id : Nat
  auto : Bool
  bank : Nat
  first : Nat
  count : Nat
  done : Nat := 0
  spec : Word
  mult : BitVec 32
  row0 : Nat := 0
  tags : List Nat := []
  dest : Option (Nat × Entry) := none
  started : Bool := false
  deriving DecidableEq, Repr

/-- A tile's array (R58 to R107). -/
structure ArrayS where
  ven : Bool := false
  wakeHold : Bool := false
  ghandle : Option Nat := none
  gdeadline : Nat := 256
  active : Option Stat := none
  pend : Option Stat := none
  pendBad : Bool := false
  loads : List LoadJob := []
  passes : List PassJob := []
  drains : List DrainJob := []
  bank0 : Bank := {}
  bank1 : Bank := {}
  credit : Nat := 0
  awakeR : BitVec 64 := 0
  wakingR : BitVec 64 := 0
  awakeC : BitVec 16 := 0
  wakingC : BitVec 16 := 0
  deriving DecidableEq, Repr

/-! ### The vector engine -/

/-- One lane of an exact reduction register (R52). -/
structure XReg where
  val : BitVec 320 := 0
  guard : BitVec 64 := 0
  nan : Bool := false
  pinf : Bool := false
  ninf : Bool := false
  deriving DecidableEq, Repr

/-- A vector register: 512 lanes (R108). -/
abbrev VReg := Vector Lane 512

/-- An exact reduction register: 512 lanes (R108). -/
abbrev XVec := Vector XReg 512

/-- A mask register (R108). -/
abbrev Mask := BitVec 512

/-- An accumulator value on the exact path (R128): its number and the entry's flags. -/
structure AccOut where
  val : Rat := 0
  nan : Bool := false
  pinf : Bool := false
  ninf : Bool := false
  sat : Bool := false
  deriving DecidableEq, Repr

/-- A slot of the receive queue (R127): FP32 lanes or exact-path values. -/
structure QSlot where
  exact : Bool
  f : List Lane
  x : List AccOut
  deriving DecidableEq, Repr

/-- The draw context (R130) and the draw number (R131). -/
structure DrawCtx where
  mb : Nat := 0
  layer : Nat := 0
  tensor : Nat := 0
  base : Nat := 0
  d : Nat := 0
  deriving DecidableEq, Repr

/-- A REP in progress: where its body starts, its length, iterations left (R114). -/
structure RepSt where
  start : Nat
  n : Nat
  left : Nat
  deriving DecidableEq, Repr

/-- A vector block in progress (R112): its command, its instructions, the next one, a REP under way. -/
structure BlockRun where
  id : Nat
  instrs : List Word
  pc : Nat := 0
  rep : Option RepSt := none
  deriving DecidableEq, Repr

/-- A tile's vector engine (R108, R109). -/
structure VecS where
  v : SMap VReg := []
  m : SMap Mask := []
  x : SMap XVec := []
  queue : List QSlot := []
  ctx : DrawCtx := {}
  block : Option BlockRun := none
  bind : SMap Nat := []
  skips : List Nat := []
  deriving DecidableEq, Repr

/-! ### The stream engine -/

/-- An index word in the index queue (R201, R209, R211): naming a second-level word, that word
requested, a value, an out-of-region
second level, or poisoned. -/
inductive IdxVal where
  | half (x : Nat)
  | asked (x : Nat)
  | val (x : Nat)
  | oor (x : Nat)
  | poison
  deriving DecidableEq, Repr

/-- A record in the stream buffer (R201, R202, R210, R211): its index value, what it is, and the lines returned, by their
number within the record, each byte with its word's poison. -/
structure RecBuf where
  i : Nat
  x : Nat := 0
  want : Nat := 0
  parts : SMap (List (Byte × Bool)) := []
  hole : Bool := false
  null : Bool := false
  poison : Bool := false
  deriving DecidableEq, Repr

/-- Pushed bytes that wait to be written (R206): their place in the handle, and whether their record ends with them. -/
structure OutPiece where
  i : Nat
  off : Nat
  bytes : List Byte
  last : Bool
  deriving DecidableEq, Repr

/-- A stream descriptor (R197) with the entries it read (R169) and its progress: index words, requests by record and line,
records in the buffer, units taken, elements pushed, pieces to write and grants for them, consuming reads made. -/
structure Desc where
  id : Nat
  w0 : Word
  w1 : Word
  w2 : Word
  w3 : Word
  w4 : Word
  ent : Entry
  ient : Entry := {}
  i2ent : Entry := {}
  lent : Entry := {}
  mode : Nat := 0
  paged : Bool := false
  idx : SMap (Option IdxVal) := []
  nIdx : Nat := 0
  nRec : Nat := 0
  nLine : Nat := 0
  recs : List RecBuf := []
  taken : Nat := 0
  pushed : Nat := 0
  out : List OutPiece := []
  granted : Nat := 0
  nCons : Nat := 0
  cycle0 : Nat := 0
  bytes : Nat := 0
  deriving DecidableEq, Repr

/-- What a stream keeps of the last descriptor armed on it, for SREARM to inherit (R198): its words and handle's FMT. -/
structure Armed where
  w0 : Word
  w1 : Word
  w2 : Word
  w3 : Word
  w4 : Word
  fmt : Nat
  deriving DecidableEq, Repr

/-- A stream: two descriptor slots, what SREARM inherits, its fault code (R217), a waiting SRESET (R199). -/
structure Strm where
  active : Option Desc := none
  queued : Option Desc := none
  last : Option Armed := none
  fault : Nat := 0
  reset : Option Nat := none
  deriving DecidableEq, Repr

/-- What a line request fetches (R208, R209): index words from n on, the second-level word of record i, or a line of a
record's elements or scales. -/
inductive ReqKind where
  | index (n cnt : Nat)
  | second (i : Nat)
  | data (i line : Nat)
  deriving DecidableEq, Repr

/-- A granted line request in flight (R208). -/
structure Req where
  strm : Nat
  id : Nat
  kind : ReqKind
  deriving DecidableEq, Repr

/-- A tile's stream engine (R196 to R217). -/
structure StreamS where
  strms : SMap Strm := []
  modes : BitVec 16 := 0
  reqs : List Req := []
  lastBg : Nat := 63
  cycle : Nat := 0
  deriving DecidableEq, Repr

/-- An SFOP that waits to reissue (R234). -/
structure SfopWait where
  id : Nat
  w0 : Word
  op : FopRec
  deriving DecidableEq, Repr

/-- A tile: array, vector engine, stream engine, sequencer. -/
structure Tile where
  arr : ArrayS := {}
  vec : VecS := {}
  str : StreamS := {}
  sfops : List SfopWait := []
  deriving DecidableEq, Repr

/-! ### Die engines -/

/-- A value on its way to a format: decided by a flag row of R54 (SAT keeps its exact number, for the block scale), or a
number to round, whose zero keeps a sign. -/
inductive DVal where
  | nan
  | inf (neg : Bool)
  | sat (neg : Bool) (mag : Rat)
  | num (neg : Bool) (mag : Rat)
  deriving DecidableEq, Repr

/-- A pair of rows that a drain offers to its Hatch lane (R77, R137): the drain, whether it is its first or last pair,
the destination, the bank's UFL, and each row's destination row and values. -/
structure DPair where
  id : Nat
  first : Bool
  last : Bool
  auto : Bool
  name : Nat
  ent : Entry
  col : Nat
  ufl : Bool
  rows : List (Nat × List DVal)
  deriving DecidableEq, Repr

/-- A tile's drain lane (R136, R137, R142): its draw context, the one latched for the drain, the pair it holds, its fold. -/
structure LaneS where
  c0 : Word := 0
  c1 : Word := 0
  l0 : Word := 0
  l1 : Word := 0
  offer : Option DPair := none
  fold : Fold := {}
  flags : Nat := 0
  deriving DecidableEq, Repr

/-- A Hatch command in progress (R141, R143): its command, chunks done, its fold, and a wide row's record so far. -/
structure HJob where
  id : Nat
  cmd : PCmd
  src : Nat × Entry
  dst : Option (Nat × Entry) := none
  rcd : Option (Nat × Entry) := none
  chunk : Nat := 0
  fold : Fold := {}
  flags : Nat := 0
  wide : Fold := {}
  deriving DecidableEq, Repr

/-- A Counterproof command in progress (R149): source lines received, destination lines written, its fold. -/
structure CJob where
  id : Nat
  cmd : PCmd
  src : Nat × Entry
  dst : Nat × Entry
  lines : List (List DVal) := []
  outs : Nat := 0
  fold : Fold := {}
  flags : Nat := 0
  deriving DecidableEq, Repr

/-- A descriptor or a mark in a DMA queue (R151 to R155). -/
structure DDesc where
  id : Nat
  mark : Bool
  w0 : Word
  w1 : Word := 0
  w2 : Word := 0
  w3 : Word := 0
  w4 : Word := 0
  src : Entry := {}
  dst : Entry := {}
  nRead : Nat := 0
  nWritten : Nat := 0
  differ : Nat := 0
  first : Option Nat := none
  stopped : Bool := false
  deriving DecidableEq, Repr

/-- A DMA queue (R154): descriptors in order, staged units (descriptor id, bytes, poisoned), bursting, marks. -/
structure DmaQ where
  descs : List DDesc := []
  staged : List (Nat × List Byte × Bool) := []
  burst : Bool := false
  high : Nat := 16
  low : Nat := 4
  deriving DecidableEq, Repr

/-- Engines of the dies, by number within the module. -/
structure Units where
  lanes : SMap LaneS := []
  hatch : SMap (Option HJob) := []
  cpt : SMap (List CJob) := []
  dma : SMap DmaQ := []
  deriving DecidableEq, Repr
/-! ### Host interface, events and logs -/

/-- An event (R345): its fields as numbers; client 16 means that it names none, and no step that it lies in none. -/
structure Event where
  code : Nat
  sev : Nat
  client : Nat := 16
  queue : Nat := 0
  cmdid : Nat := 0
  status : Nat := 0
  step : Option Nat := none
  detail : Nat := 0
  tick : Nat := 0
  deriving DecidableEq, Repr

/-- A host command fetched from a submission queue and not yet executed (R340): its 8 words. -/
structure HostCmd where
  q : Nat
  words : List Word
  deriving DecidableEq, Repr

/-- An event queue's state beyond its registers (R346, R347): the hold, the phase, records not yet signalled, whether a
fault is among them, whether their message waits for a masked vector, the head last written. -/
structure EvQ where
  hold : List Event := []
  phase : Bool := true
  unsig : Nat := 0
  urgent : Bool := false
  waits : Bool := false
  head : Nat := 0
  deriving DecidableEq, Repr

/-- The host interface (R336 to R347): host memory and the range that fails, commands fetched, queues, tails of submission
queues, queues stopped by an error (event queue e as 128 + e), records to write, MSI-X vectors and the messages sent, the
last BAR2 read with its EP bit. -/
structure HostSt where
  mem : SMap Byte := []
  failLo : Nat := 0
  failHi : Nat := 0
  fetched : List HostCmd := []
  queues : SMap EvQ := []
  posted : List (Nat × Event) := []
  tails : SMap Nat := []
  stopped : SMap Bool := []
  unmasked : SMap Bool := []
  pba : SMap Bool := []
  sent : List Nat := []
  bar2 : List Byte := []
  ep : Bool := false
  deriving DecidableEq, Repr
/-! ### Clients -/

/-- A loaded plate set (R218 to R220, R342, R375): plates by engine key as (address, words), token presets as
(file, register, count), the governor table's buffer, the timetable share, the plate signature. -/
structure PlateSet where
  dir : SMap (Nat × Nat) := []
  presets : List (Nat × Nat × Nat) := []
  gov : Option Nat := none
  tt : List Word := []
  psig : Nat := 0
  deriving DecidableEq, Repr

/-- A RUN_STEPS in progress (R343): its fabric start tick, steps left, the next step's place in the run, stretches as
(plan tick e, ticks), STRETCH messages seen as (origin, step, plan tick), and the switched-out ticks so far (R280, R290). -/
structure Run where
  q : Nat
  cmdid : Nat
  notify : Bool
  start : Nat
  left : Nat
  n : Nat := 0
  idx : Nat
  arch : Nat := 0
  stretches : List (Nat × Nat) := []
  seen : List (Nat × Nat × Nat) := []
  out : Nat := 0
  deriving DecidableEq, Repr

/-- The module's part of a layer's vote (R254, R255): dies that have latched, flags, AMAX of logical tensors 0 to 3. -/
structure Vote where
  dies : Nat := 0
  flags : Nat := 0
  amax : List Nat := [0, 0, 0, 0]
  deriving DecidableEq, Repr

/-- A control slot of the step in progress (R285 to R287): children heard, the records combined so far by position (six
fields each), whether the module's own records are in, whether they went up, whether the combined records came down. -/
structure Ctl where
  kids : Nat := 0
  recs : SMap (List Nat) := []
  own : Bool := false
  up : Bool := false
  down : Bool := false
  deriving DecidableEq, Repr

/-- A skip-step gate (R313): its command, the die, its control slot, its region records with the copy of their buffer's entry
(R169), the contexts it waits for, the outcome. -/
structure GateSt where
  id : Nat
  die : Nat
  cslot : Nat
  name : Nat
  cnt : Nat
  ent : Entry := {}
  waits : List Nat := []
  outcome : Option Bool := none
  deriving DecidableEq, Repr

/-- A re-shard commit (R318, R319): its command, control slot, position, plan tick, and whether it was decided. -/
structure CommitJob where
  id : Nat
  die : Nat
  cslot : Nat
  pos : Nat
  ctick : Nat
  decided : Option Bool := none
  deriving DecidableEq, Repr

/-- A step in progress (R220, R229, R230, R254, R280 to R289, R313, R318). -/
structure StepSt where
  idx : Nat
  n : Nat := 0
  stretch : Nat := 0
  out : Nat := 0
  aborted : Bool := false
  fcode : Nat := 0
  fdetail : Nat := 0
  forigin : Nat := 0
  stopped : Bool := false
  opened : List Nat := []
  ended : List Nat := []
  doneTx : List Nat := []
  votes : SMap Vote := []
  ctl : SMap Ctl := []
  gates : List GateSt := []
  commits : List CommitJob := []
  skip : Bool := false
  notReady : Bool := false
  govDone : Bool := false
  deriving DecidableEq, Repr
/-- Logs of events (R428, R414): event log, error-log records unwritten and written, events for the CAN mirror; the second
of the last error-log write, and how many were written in it. -/
structure Logs where
  evlog : List Event := []
  errWait : List Event := []
  errlog : List Event := []
  canWait : List Event := []
  second : Nat := 0
  written : Nat := 0
  deriving DecidableEq, Repr

/-- An armed or streaming Archive command (R376 to R378): its queue, identifier, words, and the image with its status. -/
structure ArchJob where
  q : Nat
  cmdid : Nat
  notify : Bool
  words : List Word
  image : List Byte := []
  poison : Bool := false
  deriving DecidableEq, Repr

/-- A client's Archive state (R370 to R385): what is armed, what streams out, staged images by staging address, the bases
of its lane groups, whether its last step was aborted. -/
structure ArchSt where
  armed : Option ArchJob := none
  out : Option ArchJob := none
  staged : SMap (List (Byte × Bool)) := []
  bases : SMap Nat := []
  lastAborted : Bool := false
  due : Bool := false
  pause : Nat := 0
  deriving DecidableEq, Repr

/-! ### Fabric -/

/-- A flit (R270): header fields, data bytes of its payload, and the plate command it belongs to (0: none). -/
structure Flit where
  ftype : Nat
  last : Bool := false
  seq : Nat := 0
  slot : Nat := 0
  fidx : Nat := 0
  client : Nat := 0
  data : List Byte := []
  owner : Nat := 0
  deriving DecidableEq, Repr

/-- A fabric port (R270 to R275, R293): flits ready by kind, the next SEQ, the replay buffer, a flit to resend, the next
SEQ to deliver, flits held behind a failed one, a NAK to send, whether a resend is awaited, flits since the last marker,
markers sent, ticks at which recoveries began, credits and partial packets by virtual channel, the last flit sent, a lane
swap that waits; flits that a recovery resends in order, and the tick at which the port failed. -/
structure Port where
  ctl : List (Word × Word) := []
  tt : List Flit := []
  be : List Flit := []
  seq : Nat := 0
  replay : List Flit := []
  resend : Option Nat := none
  again : List Flit := []
  rxNext : Nat := 0
  held : SMap (Option Flit) := []
  nak : Bool := false
  awaiting : Bool := false
  since : Nat := 0
  marks : Nat := 0
  recovs : List Nat := []
  cred0 : Nat := 256
  cred1 : Nat := 256
  part0 : List Flit := []
  part1 : List Flit := []
  wire : List Byte := []
  swap : Option Nat := none
  failedAt : Nat := 0
  deriving DecidableEq, Repr

/-- A best-effort packet (R292): destination and source module, virtual channel, the dimension it travels in, its bytes,
client, command, and the port and channel whose receive buffer holds it. -/
structure Packet where
  dmod : Nat
  smod : Nat
  vc : Nat := 0
  dim : Nat := 3
  bytes : List Byte
  client : Nat
  owner : Nat := 0
  inBuf : Option (Nat × Nat) := none
  deriving DecidableEq, Repr

/-- A timetabled transfer being sent (R282, R283): slot, client, engine and command, bytes not yet in flits, bytes its
engine has still to give, flits made. -/
structure Tx where
  slot : Nat
  client : Nat
  eng : Eng
  id : Nat
  port : Nat
  data : List Byte := []
  left : Nat
  made : Nat := 0
  deriving DecidableEq, Repr

/-- A timetabled transfer being received (R283): slot, client, next FIDX, its record, bytes written or gathered, and
whether its engine has taken it. -/
structure Rx where
  slot : Nat
  client : Nat
  next : Nat := 0
  hdr : List Byte := []
  off : Nat := 0
  data : List Byte := []
  taken : Bool := false
  deriving DecidableEq, Repr

/-- A flow context (R296): its four words. -/
structure Ctx where
  w0 : Word := 0
  w1 : Word := 0
  w2 : Word := 0
  w3 : Word := 0
  deriving DecidableEq, Repr

/-- A CSEND whose transfer has not been formed (R304). -/
structure SendJob where
  id : Nat
  die : DieId
  win : WinCmd
  deriving DecidableEq, Repr

/-- Spilled pieces that a context waits for (R310): context, source module, elements to come, the tick it began. -/
structure SpillWait where
  ctx : Nat
  smod : Nat
  left : Nat
  since : Nat
  deriving DecidableEq, Repr

/-- The tick across modules (R276 to R279): parent port, exchanges in a row within 10 ns and above 20 ns, the phase that
is still to be trimmed in steps of 12.5 ps, TICK_IN edges since the last tick edge, references lost. -/
structure TimeSt where
  parent : Option Nat := none
  good : Nat := 0
  bad : Nat := 0
  phase : Int := 0
  edges : Nat := 0
  lostTick : Bool := false
  lostPps : Bool := false
  depths : SMap Nat := []
  reply : List Int := []
  deriving DecidableEq, Repr

/-- The fabric and the collective engines (R266 to R323). -/
structure Fabric where
  ports : SMap Port := []
  packets : List Packet := []
  tx : List Tx := []
  rx : List Rx := []
  time : TimeSt := {}
  ctxs : SMap Ctx := []
  sends : List SendJob := []
  held : List (DieId × Nat × List Byte) := []
  spills : List SpillWait := []
  aborts : List (Nat × Nat) := []
  deriving DecidableEq, Repr

/-- A client (R348 to R358). -/
structure Client where
  state : Nat := 0
  job : Nat := 0
  dies : Nat := 0
  saveAddr : Nat := 0
  statFirst : Nat := 0
  statNum : Nat := 0
  ctxFirst : Nat := 0
  ctxNum : Nat := 0
  ringSlots : Nat := 0
  set : Option PlateSet := none
  seed : Option Nat := none
  next : Nat := 0
  run : Option Run := none
  step : Option StepSt := none
  scope : BitVec 32 := 0
  arch : ArchSt := {}
  plan : Bool := true
  debt : Nat := 0
  deriving DecidableEq, Repr

/-! ### Switching (R352 to R360) -/

/-- What a switch saves of a client on a die (R359). -/
structure DieSave where
  tiles : SMap Tile := []
  engs : SMap EngSt := []
  flights : List Flight := []
  tokens : SMap (BitVec 16) := []
  posts : List Post := []
  units : Units := {}
  results : SMap Word := []
  folio : List Nat := []
  full : SMap Bool := []
  waiters : List Waiter := []
  deriving DecidableEq, Repr

/-- The rotation (R352 to R358): the period's start, the slice in progress, whether its switch is due or under way, the
switch boundary of each client, the table in force, what switches saved by client x 4 + die, the module's uncarried debt,
the largest overrun of the switch under way, the debt that shortens the slice in progress, bytes saved by die, and the
engines whose long command has been posted. -/
structure Rotation where
  origin : Nat := 0
  slice : Nat := 0
  due : Bool := false
  between : Bool := false
  bounds : SMap Nat := []
  len : Nat := 0
  entries : SMap Word := []
  saves : SMap DieSave := []
  carry : Nat := 0
  overrun : Nat := 0
  cut : Nat := 0
  cost : SMap Nat := []
  long : List Nat := []
  deriving DecidableEq, Repr

/-! ### Arbiters (R361 to R364) -/

/-- A requester's counters at an arbiter (R364) and its high grants in the window (R363). -/
structure ArbCnt where
  grants : Nat := 0
  wait : Nat := 0
  maxWait : Nat := 0
  withdrawn : Nat := 0
  high : Nat := 0
  deriving DecidableEq, Repr

/-- An arbiter: counters by requester, the last one granted in each class, the cycle of its window. -/
structure Arb where
  cnts : SMap ArbCnt := []
  last : SMap Nat := []
  cycle : Nat := 0
  deriving DecidableEq, Repr

/-! ### Start, reset, wear and management -/

/-- A record of the Errata map (R431). -/
structure Errata where
  w0 : Word
  w1 : Word
  deriving DecidableEq, Repr

/-- A queued spare swap (R433 to R435): kind, die, unit, item, cause, and the event that asked for it. -/
structure Swap where
  kind : Nat
  die : DieId
  unit : Nat
  item : Nat
  cause : Nat
  row : Nat := 0
  deriving DecidableEq, Repr

/-- A die's JTAG port (R451, R452): instruction, boundary cells, whether the pins are taken, and whether they float. -/
structure Jtag where
  ir : Nat := 1
  cells : List Bool := []
  driving : Bool := false
  float : Bool := false
  deriving DecidableEq, Repr

/-- Power, start and reset (R390 to R402, R441, R442): rails up, PWR_GOOD, the tick at which it rose, whether Sketch work
is done, firmware runs, the trip latch and its record (cause, tick), physical tiles that passed and the tile map (die x 16 +
logical tile), dies whose cores are checked, the worn core that the spare serves (+ 1), the TCLK target, a requested
self-test, flash (slot A, then B), the entries saved, the security version that runs, the reset in progress (R399). -/
structure StartSt where
  rails : Bool := false
  good : Bool := false
  goodTick : Nat := 0
  sketched : Bool := false
  firmware : Bool := false
  tripped : Bool := false
  tripNote : Option (Nat × Nat) := none
  tilesOk : SMap Nat := []
  tileMap : SMap Nat := []
  cores : Nat := 0
  spareCore : SMap Nat := []
  tcut : Nat := 0
  selftest : Bool := false
  flash : SMap Byte := []
  saved : SMap Word := []
  svn : Nat := 0
  resetNow : Nat := 1
  jtag : SMap Jtag := []
  deriving DecidableEq, Repr

/-- Wear and spares (R431 to R437): the Errata map, queued swaps, units whose spares are gone, stack rows that wait for
repair, a fuse confirmation, the mapping of ports to spares. -/
structure WearSt where
  errata : List Errata := []
  queue : List Swap := []
  gone : List Nat := []
  rows : List Swap := []
  portMap : SMap Nat := []
  deriving DecidableEq, Repr

/-- An open CAN transaction (R410 to R413): its tag, entry, direction, bytes, place, block size and segment. -/
structure CanTx where
  tag : Nat
  ix : Nat
  sub : Nat
  write : Bool
  data : List Byte
  size : Nat
  done : Nat := 0
  block : Nat := 16
  seg : Nat := 0
  gap : Bool := false
  deriving DecidableEq, Repr

/-- The CAN node (R407 to R416): open transactions, frames sent (identifier and data), the second of the last event frame
and event frames in it, the transmit and receive error counters, whether it has sent its boot heartbeat, whether it has
listened. -/
structure CanSt where
  txs : List CanTx := []
  sent : List (Nat × List Byte) := []
  second : Nat := 0
  rate : Nat := 0
  tec : Nat := 0
  errs : Nat := 0
  booted : Bool := false
  ready : Bool := false
  deriving DecidableEq, Repr

/-- The Curator (R421 to R426): lines it has printed, a challenge (level, value, tick), wrong responses in a row, the tick
until which unlock is blocked, the rate before a change and the tick it changed, a fuse confirmation (entry, code, tick),
the entry whose blow is under way. -/
structure CurSt where
  out : List String := []
  challenge : Option (Nat × Nat × Nat) := none
  wrong : Nat := 0
  blocked : Nat := 0
  oldBaud : Option (Nat × Nat) := none
  confirm : Option (Nat × Nat × Nat) := none
  blow : Option Nat := none
  deriving DecidableEq, Repr

/-- The mailbox (R417, R418): its value buffer, and a forwarded request that waits. -/
structure MailSt where
  data : SMap Byte := []
  remote : Bool := false
  deriving DecidableEq, Repr

/-- Byte blocks of the dictionary that are not numbers (R403). -/
structure DictSt where
  blobs : SMap (List Byte) := []
  deriving DecidableEq, Repr
/-- The state of the module. -/
structure State where
  mem : Memory := {}
  regs : SMap Word := []
  shadow : SMap Word := []
  dict : SMap Word := []
  blobs : DictSt := {}
  sat : SMap Bool := []
  cat : Catalog := {}
  banks : Banks := {}
  plates : Plates := {}
  tiles : SMap Tile := []
  units : Units := {}
  clients : SMap Client := []
  fabric : Fabric := {}
  rot : Rotation := {}
  arbs : SMap Arb := []
  host : HostSt := {}
  logs : Logs := {}
  start : StartSt := {}
  wearS : WearSt := {}
  can : CanSt := {}
  cur : CurSt := {}
  mail : MailSt := {}
  wear : SMap Nat := []
  ledger : SMap Nat := []
  served : SMap Nat := []
  ports : SMap (List (Byte × Bool)) := []
  tick : Nat := 0
  pending : List Instr := []
  free : Nat := 0
  deriving DecidableEq, Repr

/-- The module right after power-on reset, at Ground (R7, R390): every register and memory as reset leaves it. -/
def State.reset : State := {}

end Sys2Proof.Machine
end

