-- ==== Sys2Proof/Machine/Ops.lean ====
section
/-! DEFINITION. Named operations over registers, counters, the dictionary and events (R3, R82, R334, R345, R368, R427 to R430). -/

namespace Sys2Proof.Machine

/-! ### The module address map (R334) -/

/-- Base of a die's control space. -/
def ctlBase (d : Nat) : Nat := 0xFF000000000 + d * 0x100000000

/-- An address in a tile's control blocks: array at 0x0000, vector at 0x1000, stream at 0x2000, plate at 0x3000. -/
def tileBlk (t off : Nat) : Nat := ctlBase (t / 16) + 0x10000 * (t % 16) + off

/-- An address in a tile's array block (R81). -/
def arrBlk (t : TileId) (off : Nat) : Nat := tileBlk t.val off

/-- An address in a tile's vector block (R134). -/
def vecBlk (t : TileId) (off : Nat) : Nat := tileBlk t.val (0x1000 + off)

/-- An address in a tile's stream block (R217). -/
def strBlk (t : TileId) (off : Nat) : Nat := tileBlk t.val (0x2000 + off)

/-- An address in a tile's plate block (R237). -/
def pltBlk (t : TileId) (off : Nat) : Nat := tileBlk t.val (0x3000 + off)

/-- An address in a Hatch unit's block (R158). -/
def hatchBlk (d u off : Nat) : Nat := ctlBase d + 0x100000 + 0x1000 * u + off

/-- An address in a Counterproof engine's block (R158). -/
def cptBlk (d u off : Nat) : Nat := ctlBase d + 0x110000 + 0x1000 * u + off

/-- An address in a DMA engine's block (R158). -/
def dmaBlk (d e off : Nat) : Nat := ctlBase d + 0x120000 + 0x1000 * e + off

/-- An address in the block of queue q of a DMA engine (R158). -/
def dmaQBlk (d e q off : Nat) : Nat := dmaBlk d e (0x100 + 0x40 * q + off)

/-- An address in a die's plate block (R237). -/
def diePlt (d off : Nat) : Nat := ctlBase d + 0x130000 + off

/-- An address in a die's link control block (R294). -/
def linkBlk (d off : Nat) : Nat := ctlBase d + 0x140000 + off

/-- An address in a stack controller's block (R333). -/
def stkBlk (s off : Nat) : Nat := ctlBase (s / 6) + 0x150000 + 0x1000 * (s % 6) + off

/-- An address in a statistics slot (R144). -/
def statBlk (d i off : Nat) : Nat := ctlBase d + 0x200000 + 0x400 * i + off

/-- The governor flag word of a slot (R252). -/
def govBlk (d i : Nat) : Nat := ctlBase d + 0x300000 + 8 * i

/-- An address in the Catalog port of an agent (R335). -/
def catPort (d p off : Nat) : Nat := ctlBase d + 0x310000 + 0x100 * p + off

/-- An address in the Folio operation port of an agent (R335). -/
def fopPort (d p off : Nat) : Nat := ctlBase d + 0x320000 + 0x100 * p + off

/-- An address in a die's collective block (R323). -/
def collBlk (d off : Nat) : Nat := ctlBase d + 0x800000 + off

/-- An address in the host interface registers (R337). -/
def bar0 (off : Nat) : Nat := 0xFF800000000 + off

/-- Base of a die's Folio (R159). -/
def folioBase (d : Nat) : Nat := 0xF0000000000 + d * 0x10000000

/-- The port number of an agent (R334). -/
def agentPort : Agent → Nat
  | .host => 0
  | .core c => 1 + c.val

/-! ### Registers -/

/-- What a register reads as at reset (R7): HBASE of a statistics slot is -24 (R144), BSLIM of a governor flag word 255
(R252), SPLANE of a port 4 (R294); every other register 0, by its table or, where the table gives none, by log 2. -/
def regReset (a : Nat) : Word :=
  if a < 0xFF000000000 ∨ 0xFF400000000 ≤ a then 0
  else
    let o := a % 0x100000000
    if 0x200000 ≤ o ∧ o < 0x300000 ∧ o % 0x400 = 0 then 0xFFE8
    else if 0x300000 ≤ o ∧ o < 0x302000 then 255
    else if 0x140000 ≤ o ∧ o < 0x140200 ∧ o % 0x40 = 0 then 0x20
    else 0

/-- A control register's stored value. -/
def getReg (s : State) (a : Nat) : Word := mget (regReset a) s.regs a

/-- Storing a control register. -/
def setReg (a : Nat) (v : Word) (s : State) : State := { s with regs := mset (regReset a) s.regs a v }

/-- Setting bits of a status register (hardware sets, R6). -/
def orReg (a : Nat) (v : Word) (s : State) : State := setReg a (getReg s a ||| v) s

/-- Setting one bit of a status register. -/
def setBit (a i : Nat) (s : State) : State := orReg a (1#64 <<< i) s

/-! ### The object dictionary -/

/-- The key of an entry. -/
def dkey (ix sub : Nat) : Nat := ix * 256 + sub

/-- An entry's stored value. -/
def getDict (s : State) (k : Nat) : Word := mget (dictDefault k) s.dict k

/-- Storing an entry. -/
def setDict (k : Nat) (v : Word) (s : State) : State := { s with dict := mset (dictDefault k) s.dict k v }

/-! ### Tiles, units and clients -/

/-- A tile's state. -/
def getTile (s : State) (t : TileId) : Tile := mget {} s.tiles t.val

/-- Storing a tile's state. -/
def setTile (t : TileId) (x : Tile) (s : State) : State := { s with tiles := mset {} s.tiles t.val x }

/-- A tile's array. -/
def getArr (s : State) (t : TileId) : ArrayS := (getTile s t).arr

/-- Storing a tile's array. -/
def setArr (t : TileId) (x : ArrayS) (s : State) : State := setTile t { getTile s t with arr := x } s

/-- A tile's vector engine. -/
def getVec (s : State) (t : TileId) : VecS := (getTile s t).vec

/-- Storing a tile's vector engine. -/
def setVec (t : TileId) (x : VecS) (s : State) : State := setTile t { getTile s t with vec := x } s

/-- A tile's stream engine. -/
def getStr (s : State) (t : TileId) : StreamS := (getTile s t).str

/-- Storing a tile's stream engine. -/
def setStr (t : TileId) (x : StreamS) (s : State) : State := setTile t { getTile s t with str := x } s

/-- The die of a tile (R10). -/
def tileDie (t : TileId) : Nat := t.val / 16

/-- A client's record. -/
def getClient (s : State) (c : Nat) : Client := mget {} s.clients c

/-- Storing a client's record. -/
def setClient (c : Nat) (x : Client) (s : State) : State := { s with clients := mset {} s.clients c x }

/-- Whether a client's die set holds a die. -/
def hasDie (c : Client) (d : Nat) : Bool := c.dies.testBit d

/-- Whether it is an admitted client's turn: always without a rotation, else in a slice that names it (R352, R354). -/
def inTurn (s : State) (c : Nat) : Bool :=
  decide (s.rot.len = 0) || (!s.rot.between && bit (mget 0 s.rot.entries s.rot.slice) c)

/-- The client that a die's engines serve: the client of the die that runs or is being switched out (R348), else an
admitted idle one; 16 where there is none (log 7). -/
def clientOn (s : State) (d : Nat) : Nat :=
  match (List.range 16).find? fun c => decide ((getClient s c).state = 2 ∨ (getClient s c).state = 4) && hasDie (getClient s c) d with
  | some c => c
  | none =>
    match (List.range 16).find? fun c => decide ((getClient s c).state = 1) && inTurn s c && hasDie (getClient s c) d with
    | some c => c
    | none => 16

/-- Setting bits of a client's scope word for the step in progress (R26, R82). -/
def setScope (c : Nat) (bits : BitVec 32) (s : State) : State :=
  if c < 16 then setClient c { getClient s c with scope := (getClient s c).scope ||| bits } s else s

/-- Scope bits (R26). -/
def scUnderflow : BitVec 32 := 1
def scSaturated : BitVec 32 := 2
def scVellum : BitVec 32 := 4
def scThinned : BitVec 32 := 8
def scViolation : BitVec 32 := 16
def scExpertMap : BitVec 32 := 32
def scUncovered : BitVec 32 := 64
def scWidened : BitVec 32 := 128

/-! ### Events -/

/-- The severity of an event code (R429). -/
def sevOf (code : Nat) : Nat :=
  if code ∈ [0x0001, 0x0002, 0x0003, 0x0004, 0x0903, 0x0905] then 0
  else if code ∈ [0x0201, 0x0202, 0x0203, 0x0204, 0x0904] then 2
  else if code ∈ [0x0101, 0x0301, 0x0302, 0x0303, 0x0304, 0x0305, 0x0306, 0x0307, 0x0308, 0x0404, 0x0405, 0x0406,
    0x0501, 0x0504] then 3
  else if code ∈ [0x0407, 0x0601, 0x0801, 0x0804] then 4
  else 1

/-- The index of a client's step in progress. -/
def stepOf (s : State) (c : Nat) : Nat := ((getClient s c).step.map (·.idx)).getD 0

/-- The step that an event of a client lies in. -/
def stepNow (s : State) (c : Nat) : Option Nat := (getClient s c).step.map (·.idx)

/-- The event log keeps the last 256 records (R428). -/
def evlogAdd (l : List Event) (e : Event) : List Event := (l ++ [e]).drop (l.length + 1 - 256)

/-- The event queues of an event: its client's, or the manager's (16) when it names none; the manager's as well when
its severity is fault or higher (R345). -/
def evQueues (e : Event) : List Nat :=
  if e.client < 16 then (if 3 ≤ e.sev then [e.client, 16] else [e.client]) else [16]

/-- Whether an event reaches the error log (R428). -/
def inErrLog (e : Event) : Bool := decide (2 ≤ e.sev) || (decide (0x0901 ≤ e.code) && decide (e.code ≤ 0x0905))

/-- Posting an event: the lead Registrar orders it behind earlier ones for its queues and logs (R345, R346, R428). -/
def postEvent (e : Event) (s : State) : State :=
  { s with
    host := { s.host with posted := s.host.posted ++ (evQueues e).map fun q => (q, e) },
    logs := { s.logs with
      evlog := evlogAdd s.logs.evlog e,
      errWait := if inErrLog e then s.logs.errWait ++ [e] else s.logs.errWait,
      canWait := s.logs.canWait ++ [e] } }

/-- Posting an event of a code for a client (16: none), with its detail. -/
def post (code client detail : Nat) (s : State) : State :=
  postEvent { code := code, sev := sevOf code, client := client, step := stepNow s client, detail := detail,
              tick := s.tick % 2 ^ 40 } s

/-- An uncorrected error: the event of R430, and UNCOVERED in the client's scope word. -/
def postUncorr (kind die : Nat) (scrub : Bool) (place client : Nat) (s : State) : State :=
  setScope client scUncovered
    (post 0x0101 client (kind + 16 * die + 64 * b2n scrub + 256 * (place % 2 ^ 44)) s)

/-! ### Statistical counters (R82, R238, R368) -/

/-- Marking a dictionary block whose first counter has stuck, with its event, once (R368): by index, and the sub-index of
that counter. -/
def stickDict (ix sub : Nat) (s : State) : State :=
  if s.sat.any fun x => decide (x.1 / 2 ^ 48 = ix) then s
  else
    let k := ix * 2 ^ 48 + sub * 2 ^ 40
    post 0x0207 16 k { s with sat := mset false s.sat k true }

/-- Counting in a dictionary total of w bits, which sticks at its largest value (R82, R238, R368). -/
def bumpDictW (w k n : Nat) (s : State) : State :=
  let v := (getDict s k).toNat
  if v + n < 2 ^ w then setDict k (BitVec.ofNat 64 (v + n)) s
  else stickDict (k / 256) (k % 256) (setDict k (BitVec.ofNat 64 (2 ^ w - 1)) s)

/-- Counting in a dictionary total of 64 bits. -/
def bumpDict (k n : Nat) (s : State) : State := bumpDictW 64 k n s

/-- Marking a block whose first counter has stuck, with its event, once (R368). -/
def stick (blk : Nat) (s : State) : State :=
  if mget false s.sat blk then s
  else post 0x0207 16 blk { s with sat := mset false s.sat blk true }

/-- Counting n in the counter at a register address of a block (R82, R368). -/
def bump (blk off n : Nat) (s : State) : State :=
  let v := getReg s (blk + off)
  let s' := setReg (blk + off) (stickyAdd 64 v n) s
  if v.toNat + n < 2 ^ 64 then s' else stick blk s'

/-! ### Stages (R390, R395) -/

/-- The stage entry: 1 Sketch, 2 Proof, 3 Edition, 0x81 Sketch recovery (R401). -/
def stageOf (s : State) : Nat := (getDict s (dkey 0x2000 0x01)).toNat

/-- Whether boundary scan has taken die 0's pins from CAN, the UART and PCI Express (R452). -/
def pinsTaken (s : State) : Bool := (mget {} s.start.jtag 0).driving && decide (stageOf s = 1)

/-- Whether the module is in Proof. -/
def inProof (s : State) : Bool := decide (stageOf s = 2)

/-- Whether a logical tile is out of service in Proof: its physical tile has not passed self-test (R395). -/
def tileOut (s : State) (t : TileId) : Bool := inProof s && !bit (getDict s (dkey 0x2000 0x06)) t.val

/-! ### Engines -/

/-- Engine codes of R219. -/
def engCode : Eng → Nat
  | .array _ => 0 | .vector _ => 1 | .stream _ => 2 | .seq _ => 3
  | .hatch _ _ => 4 | .cpt _ _ => 5 | .dma _ _ => 6 | .coll _ => 7

/-- An engine's unit number (R219). -/
def engUnit : Eng → Nat
  | .array t => t.val % 16 | .vector t => t.val % 16 | .stream t => t.val % 16 | .seq t => t.val % 16
  | .hatch _ u => u.val | .cpt _ u => u.val | .dma _ e => e.val | .coll _ => 0

/-- An engine's die. -/
def engDie : Eng → Nat
  | .array t => t.val / 16 | .vector t => t.val / 16 | .stream t => t.val / 16 | .seq t => t.val / 16
  | .hatch d _ => d.val | .cpt d _ => d.val | .dma d _ => d.val | .coll d => d.val

/-- A tile engine's tile. -/
def engTile : Eng → Option TileId
  | .array t => some t | .vector t => some t | .stream t => some t | .seq t => some t
  | _ => none

/-- The key of an engine's plate state. -/
def engKey (e : Eng) : Nat := (engDie e * 8 + engCode e) * 16 + engUnit e

/-- Every engine of a die. -/
def enginesOf (d : Nat) : List Eng :=
  if h : d < 4 then
    let die : DieId := ⟨d, h⟩
    ((List.range 16).flatMap fun i =>
      if hi : d * 16 + i < 64 then
        let t : TileId := ⟨d * 16 + i, hi⟩
        [Eng.array t, Eng.vector t, Eng.stream t, Eng.seq t]
      else []) ++
    [Eng.hatch die 0, Eng.hatch die 1, Eng.hatch die 2, Eng.hatch die 3, Eng.cpt die 0, Eng.cpt die 1, Eng.cpt die 2,
     Eng.cpt die 3, Eng.dma die 0, Eng.dma die 1, Eng.coll die]
  else []

/-- Base of an engine's stall block (R237). -/
def stallBlk : Eng → Nat
  | .array t => pltBlk t 0x000 | .vector t => pltBlk t 0x100 | .stream t => pltBlk t 0x200 | .seq t => pltBlk t 0x300
  | .hatch d u => hatchBlk d.val u.val 0x800 | .cpt d u => cptBlk d.val u.val 0x800
  | .dma d e => dmaBlk d.val e.val 0x800 | .coll d => collBlk d.val 0x800

/-- The PLATE_STATUS register of an engine (R237). -/
def plateStatus (e : Eng) : Nat :=
  match engTile e with
  | some t => pltBlk t 0x400
  | none => diePlt (engDie e) 0x400

/-- TCLK in MHz, in steps of 100 (R17); 1,600 until it first changes. -/
def tclk (s : State) : Nat :=
  let v := (getDict s (dkey 0x2100 0x10)).toNat
  if v = 0 then 1600 else v

/-- A ledger total in its entry's unit: ns for engine time, mJ for energy (R365, R366). -/
def ledgerUnit (sub n : Nat) : Nat := if sub ≤ 8 then n / 72072 else if sub = 0x13 then n / 1000 else n

/-- A ledger total of a client, in the model's own units (1/72,072 ns, uJ); the first of a client's that sticks is marked
(R365, R366, R368). -/
def bumpLedger (c sub n : Nat) (s : State) : State :=
  if c < 16 then
    let v := mget 0 s.ledger (c * 32 + sub) + n
    let s1 := { s with ledger := mset 0 s.ledger (c * 32 + sub) v }
    if ledgerUnit sub v < 2 ^ 64 then s1 else stickDict (0x7110 + c) sub s1
  else s

/-- One cycle of an engine's clock, in units of 1/72,072 ns, so that every TCLK divides evenly (R365). -/
def cycleUnits (s : State) (e : Eng) : Nat :=
  match engTile e with
  | some _ => 72072000 / tclk s
  | none => 36036

/-- Charging one cycle of an engine to a stall code (R236, R237, R238), and its time to the client (R365). -/
def charge (e : Eng) (code : Nat) (s : State) : State :=
  let s1 := bump (stallBlk e) (8 * code) 1 s
  let s2 := if (engTile e).isSome then bumpDict (dkey 0x4041 code) 1 s1 else s1
  if code = 0x1E then s2 else bumpLedger (clientOn s (engDie e)) (1 + engCode e) (cycleUnits s e) s2

/-- A fresh free value (log 4): the value is open, the counter moves on. -/
def fresh (s : State) : BitVec 64 × State := (Config.freeValue s.free, { s with free := s.free + 1 })

end Sys2Proof.Machine
end

