-- ==== Sys2Proof/Machine/MemOps.lean ====
section
/-! DEFINITION. Memory: guarded words, poison, reads and writes by module-local address, buffers through the Catalog, ring slots and remote-write windows (R159 to R184, R326 to R334). -/

namespace Sys2Proof.Machine

/-! ### Bytes and guarded words -/

/-- One byte of memory. -/
def Memory.byte (m : Memory) (a : Nat) : Byte := mget Memory.unlisted m.cells a

/-- Storing one byte. -/
def Memory.setByte (m : Memory) (a : Nat) (b : Byte) : Memory := { m with cells := mset Memory.unlisted m.cells a b }

/-- n bytes from an address. -/
def Memory.bytes (m : Memory) (a n : Nat) : List Byte := (List.range n).map fun i => m.byte (a + i)

/-- Storing bytes from an address on. -/
def Memory.setBytes (m : Memory) (a : Nat) : List Byte → Memory
  | [] => m
  | b :: bs => (m.setByte a b).setBytes (a + 1) bs

/-- The stored word of a word address (byte address / 8). -/
def Memory.rawWord (m : Memory) (k : Nat) : Word := BitVec.ofNat 64 (leNat (m.bytes (8 * k) 8))

/-- The syndrome of a word. -/
def Memory.syn (m : Memory) (k : Nat) : Check := mget 0 m.synd k

/-- Storing a word with a syndrome: 0 stores fresh check bits (R163), 0x0007 poison (R329). -/
def Memory.setWord (m : Memory) (k : Nat) (v : Word) (sy : Check) : Memory :=
  { m.setBytes (8 * k) (leBytes 8 v.toNat) with synd := mset 0 m.synd k sy }

/-- Flipping bits of a stored word: an upset (R328). -/
def Memory.upset (m : Memory) (k : Nat) (flips : BitVec 80) : Memory :=
  let v := m.rawWord k ^^^ (flips.setWidth 64)
  { m.setBytes (8 * k) (leBytes 8 v.toNat) with synd := mset 0 m.synd k (m.syn k ^^^ syndOf flips) }

/-- Where an address of memory lies (R334). -/
inductive Region where
  | stack (i : Nat)
  | folio (d : Nat)
  | none
  deriving DecidableEq, Repr

/-- The stack of an address below 0x1B0_0000_0000 (R326). -/
def stackOf (a : Nat) : Nat := 6 * (a / 0x6C00000000) + a % 0x6C00000000 / 4096 % 6

/-- stack_place of R326: stack, offset in the stack, pseudo-channel. -/
def stackPlace (a : Nat) : Nat × Nat × Nat :=
  let o := a % 0x6C00000000
  let g := o / 4096
  let so := g / 6 * 4096 + o % 4096
  (6 * (a / 0x6C00000000) + g % 6, so, so / 64 % 64)

/-- Region of an address (R334). -/
def regionOf (a : Nat) : Region :=
  if a < 0x1B000000000 then .stack (stackOf a)
  else if 0xF0000000000 ≤ a ∧ a < 0xF0040000000 then .folio ((a - 0xF0000000000) / 0x10000000)
  else .none

/-- The logical bank of a Folio address, numbered die x 512 + bank (R159). -/
def bankOf (a : Nat) : Nat := (a - 0xF0000000000) / 0x10000000 * 512 + a % 0x10000000 / 64 % 512

/-- Whether a stack is marked failed (R333). -/
def stackFailed (s : State) (i : Nat) : Bool := decide (fld (getReg s (stkBlk i 0)) 0 2 = 2)

/-- A word read: its value and whether it is poisoned. -/
structure RWord where
  val : Word
  poison : Bool
  deriving DecidableEq, Repr

/-- Whether a word lies in a stack that is marked failed (R333). -/
def deadWord (s : State) (k : Nat) : Bool :=
  match regionOf (8 * k) with
  | .stack i => stackFailed s i
  | _ => false

/-- A stored word as its check bits correct it (R162, R328). -/
def eccWord (v : Word) (sy : Check) : RWord :=
  match eccDecode sy with
  | .clean => ⟨v, false⟩
  | .fixed m => ⟨v ^^^ m, false⟩
  | .bad => ⟨v, true⟩

/-- What a read of a word delivers, with no effect on state (R162, R328, R333). -/
def peekWord (s : State) (k : Nat) : RWord :=
  if deadWord s k then ⟨s.mem.rawWord k, true⟩ else eccWord (s.mem.rawWord k) (s.mem.syn k)

/-- Counting a corrected word in its unit's counters and the wear count of its bank (R162, R195, R330, R333, R430). -/
def countCorrected (k : Nat) (s : State) : State :=
  match regionOf (8 * k) with
  | .folio _ =>
    let s1 := bumpDict (dkey 0x3100 0x07) 1 s
    { s1 with wear := mupd 0 s1.wear (bankOf (8 * k)) (· + 1) }
  | .stack i => setBit (stkBlk i 0) 3 (bump (stkBlk i 0) 0x008 1 (bumpDict (dkey 0x3000 0x03) 1 s))
  | .none => s

/-- A poisoned word delivered: counters and the uncorrected-error event (R162, R330, R331, R430). -/
def countPoison (k client : Nat) (scrub : Bool) (s : State) : State :=
  match regionOf (8 * k) with
  | .folio d => postUncorr 0 d scrub (8 * k) client (bumpDict (dkey 0x3100 0x08) 1 s)
  | .stack i =>
    postUncorr 1 (i / 6) scrub (8 * k) client
      (setBit (stkBlk i 0) 4 (bump (stkBlk i 0) 0x010 1 (bumpDict (dkey 0x3000 0x04) 1 s)))
  | .none => s

/-- Reading a word for a client: a corrected word is rewritten in place and counted, a poisoned one posts its event
(R162, R329, R330). A logical bank that is not active is woken first; an off bank's lines are zero (R191, R192). -/
def readWord (client : Nat) (scrub : Bool) (k : Nat) (s : State) : RWord × State :=
  let r := peekWord s k
  if r.poison then (r, countPoison k client scrub s)
  else if s.mem.syn k = 0 then (r, s)
  else (r, countCorrected k { s with mem := s.mem.setWord k r.val 0 })

/-- Writing a whole word: fresh check bits (R163); a write to a failed stack is discarded (R333). -/
def writeWord (k : Nat) (v : Word) (s : State) : State :=
  match regionOf (8 * k) with
  | .stack i => if stackFailed s i then s else { s with mem := s.mem.setWord k v 0 }
  | .folio _ => { s with mem := s.mem.setWord k v 0 }
  | .none => s

/-- Storing a word poisoned (R329). -/
def poisonWord (k : Nat) (v : Word) (s : State) : State :=
  match regionOf (8 * k) with
  | .stack i => if stackFailed s i then s else { s with mem := s.mem.setWord k v poisonSynd }
  | .folio _ => { s with mem := s.mem.setWord k v poisonSynd }
  | .none => s

/-- Waking the bank of a Folio address (R192): the wait takes no step of its own (log 12). -/
def wakeBank (a : Nat) (s : State) : State :=
  match regionOf a with
  | .folio _ => { s with banks := { s.banks with
      power := mset .active s.banks.power (bankOf a) .active, gate := mset false s.banks.gate (bankOf a) false } }
  | _ => s

/-- Bytes that a stack serves a client in the tick: the share of its energy (R366). -/
def noteServed (unit client n : Nat) (s : State) : State :=
  if client < 16 then { s with served := mupd 0 s.served (unit * 16 + client) (· + n) } else s

/-- Counting user bytes that a memory delivers, or accepts, from an address on: a stack's counters, and the Ledger's bytes
of the client (R333, R365, R366). -/
def countBytes (client : Nat) (write : Bool) (a n : Nat) (s : State) : State :=
  match regionOf a with
  | .stack i =>
    noteServed i client n (bumpLedger client (if write then 0x0C else 0x0B) n
      (bump (stkBlk i 0) (if write then 0x020 else 0x018) n s))
  | .folio _ => bumpLedger client (if write then 0x0A else 0x09) n s
  | .none => s

/-- Bridges between two dies (R13). -/
def bridges (a b : Nat) : Nat := if a = b then 0 else if a + b = 3 then 2 else 1

/-- Counting bytes that cross between dies (R13, R365). -/
def crossBridge (client a b n : Nat) (s : State) : State := bumpLedger client 0x0D (bridges a b * n) s

/-- Reading n bytes at a module-local address, word by word: each byte with its word's poison. -/
def readMem (client : Nat) (scrub : Bool) (a n : Nat) (s : State) : List (Byte × Bool) × State :=
  let k0 := a / 8
  let cnt := if n = 0 then 0 else (a + n - 1) / 8 - k0 + 1
  let (ws, s1) := (List.range cnt).foldl (fun (acc : List (Byte × Bool) × State) i =>
    let lo := max a (8 * (k0 + i))
    let hi := min (a + n) (8 * (k0 + i) + 8)
    let (r, s') := readWord client scrub (k0 + i) (wakeBank (8 * (k0 + i)) (countBytes client false lo (hi - lo) acc.2))
    (acc.1 ++ (leBytes 8 r.val.toNat).map fun b => (b, r.poison), s')) ([], s)
  ((ws.drop (a % 8)).take n, s1)

/-- Writing the bytes of one word: all 8 store it fresh; fewer merge into it, and into a poisoned word store nothing
(R163, R330). off is the place of the first byte in the word. -/
def writePart (client k off : Nat) (bs : List Byte) (s : State) : State :=
  if off = 0 ∧ bs.length = 8 then writeWord k (BitVec.ofNat 64 (leNat bs)) s
  else
    let (r, s1) := readWord client false k s
    if r.poison then s1
    else
      let old := leBytes 8 r.val.toNat
      writeWord k (BitVec.ofNat 64 (leNat (old.take off ++ bs ++ old.drop (off + bs.length)))) s1

/-- Writing bytes at a module-local address, word by word. -/
def writeMem (client a : Nat) (bs : List Byte) (s : State) : State :=
  let cnt := if bs.length = 0 then 0 else (a + bs.length - 1) / 8 - a / 8 + 1
  (List.range cnt).foldl (fun s i =>
    let k := a / 8 + i
    let lo := max a (8 * k)
    let hi := min (a + bs.length) (8 * k + 8)
    writePart client k (lo - 8 * k) ((bs.drop (lo - a)).take (hi - lo))
      (wakeBank (8 * k) (countBytes client true lo (hi - lo) s))) s

/-- Bytes as a read delivers them, poison forgotten. -/
def plain (bs : List (Byte × Bool)) : List Byte := bs.map (·.1)

/-- Whether any byte of a read is poisoned. -/
def anyPoison (bs : List (Byte × Bool)) : Bool := bs.any (·.2)

/-! ### Catalog entries (R166, R167) -/

/-- The entry of a buffer name, die x 4,096 + handle. -/
def getEnt (s : State) (name : Nat) : Entry := mget {} s.cat.ents name

/-- Storing an entry. -/
def setEnt (name : Nat) (e : Entry) (s : State) : State :=
  { s with cat := { s.cat with ents := mset {} s.cat.ents name e } }

def Entry.kind (e : Entry) : Nat := fld e.w0 0 2
def Entry.client (e : Entry) : Nat := fld e.w0 2 4
def Entry.resident (e : Entry) : Bool := bit e.w0 6
def Entry.fmtWord (e : Entry) : Nat := fld e.w0 8 16
def Entry.stat (e : Entry) : Nat := fld e.w0 24 10
def Entry.tsBits (e : Entry) : BitVec 32 := e.w1.setWidth 32
def Entry.rows (e : Entry) : Nat := fld e.w1 32 32
def Entry.cols (e : Entry) : Nat := fld e.w2 0 17
def Entry.b0 (e : Entry) : Nat := fld e.w3 0 9
def Entry.nbc (e : Entry) : Nat := fld e.w3 9 4
def Entry.lbase (e : Entry) : Nat := fld e.w3 13 13
def Entry.saddr (e : Entry) : Nat := fld e.w3 0 44
def Entry.len (e : Entry) : Nat := fld e.w4 0 36
def Entry.soff (e : Entry) : Nat := fld e.w5 0 36
def Entry.slots (e : Entry) : Nat := fld e.w6 0 13
def Entry.shdr (e : Entry) : Bool := bit e.w6 13
def Entry.slotu (e : Entry) : Nat := fld e.w6 16 14
def Entry.wopen (e : Entry) : Bool := bit e.w6 30
def Entry.wdies (e : Entry) : Nat := fld e.w6 31 4
def Entry.wmodLo (e : Entry) : Nat := fld e.w6 35 12
def Entry.wmodHi (e : Entry) : Nat := fld e.w6 47 12
def Entry.wlo (e : Entry) : Nat := fld e.w7 0 30
def Entry.whi (e : Entry) : Nat := fld e.w7 30 30

/-- A defined buffer of a client (R168). -/
def Entry.ownedBy (e : Entry) (c : Nat) : Bool := (decide (e.kind = 1) || decide (e.kind = 2)) && decide (e.client = c)

/-- A tensor handle: declared rows (R167). -/
def Entry.tensor (e : Entry) : Bool := decide (1 ≤ e.rows)

/-- The decoded format of a tensor handle; a byte buffer has none. -/
def Entry.fmt (e : Entry) : Option Fmt := if e.tensor then fmtOf e.fmtWord else none

/-- The tensor scale, 1 for a wide format (R166). -/
def Entry.tscale (e : Entry) : Rat :=
  match e.fmt with
  | some f => if elemWide f.elem then 1 else (f32 e.tsBits).toRat
  | none => 1

/-- Bytes of one ring slot. -/
def Entry.slotBytes (e : Entry) : Nat := e.slotu * 64

/-- Rows of the handle, over every slot of a ring (R201). -/
def Entry.rowsTotal (e : Entry) : Nat := e.rows * max 1 e.slots

/-- Byte offset of the start of row r in the handle (R167). -/
def Entry.rowOff (e : Entry) (f : Fmt) (r : Nat) : Nat :=
  if e.slots = 0 then r * rowPitch f e.cols
  else r / e.rows * e.slotBytes + (if e.shdr then 8 else 0) + r % e.rows * rowPitch f e.cols

/-- Byte offset of the scale of block b of row r (R36, R167). -/
def Entry.scaleOff (e : Entry) (f : Fmt) (r b : Nat) : Nat :=
  let nb := nBlocks e.cols f.blk
  if e.slots = 0 then e.soff + r * nb + b
  else r / e.rows * e.slotBytes + e.soff + r % e.rows * nb + b

/-- Elements of a row that the handle stores: the declared length, padded to whole blocks for a narrow format (R35). -/
def Entry.paddedCols (e : Entry) (f : Fmt) : Nat :=
  if elemWide f.elem then e.cols else nBlocks e.cols f.blk * f.blk

/-- folio_place and flat of R160: the flat address of byte o of a Folio handle. -/
def flatOf (e : Entry) (o : Nat) : Nat :=
  let n := 2 ^ e.nbc
  let q := o / 64
  (e.lbase + q / n) * 32768 + (e.b0 + q % n) * 64 + o % 64

/-- The module-local address of byte o of a handle on a die (R160, R166). -/
def addrOf (e : Entry) (die o : Nat) : Nat :=
  if e.kind = 1 then folioBase die + flatOf e o else e.saddr + o

/-- Reading n bytes of a handle from an offset. -/
def readBuf (client : Nat) (e : Entry) (die off n : Nat) (s : State) : List (Byte × Bool) × State :=
  let cnt := if n = 0 then 0 else (off + n - 1) / 64 - off / 64 + 1
  (List.range cnt).foldl (fun (acc : List (Byte × Bool) × State) i =>
    let l := off / 64 + i
    let lo := max off (64 * l)
    let hi := min (off + n) (64 * l + 64)
    let (bs, s') := readMem client false (addrOf e die lo) (hi - lo) acc.2
    (acc.1 ++ bs, s')) ([], s)

/-- Writing bytes of a handle from an offset. -/
def writeBuf (client : Nat) (e : Entry) (die off : Nat) (bs : List Byte) (s : State) : State :=
  let cnt := if bs.length = 0 then 0 else (off + bs.length - 1) / 64 - off / 64 + 1
  (List.range cnt).foldl (fun s i =>
    let l := off / 64 + i
    let lo := max off (64 * l)
    let hi := min (off + bs.length) (64 * l + 64)
    writeMem client (addrOf e die lo) ((bs.drop (lo - off)).take (hi - lo)) s) s

/-- Bytes [off, off + n) cut at 64-B lines, as (offset, length). -/
def lineSpans (off n : Nat) : List (Nat × Nat) :=
  if n = 0 then []
  else (List.range ((off + n - 1) / 64 - off / 64 + 1)).map fun i =>
    let lo := max off (64 * (off / 64 + i))
    let hi := min (off + n) (64 * (off / 64 + i) + 64)
    (lo, hi - lo)

/-! ### Ring slots (R177) -/

/-- The key of a slot's state. -/
def slotKey (name i : Nat) : Nat := name * 4096 + i

/-- Whether a slot is FULL. -/
def slotFull (s : State) (name i : Nat) : Bool := mget false s.cat.full (slotKey name i)

/-- Setting a slot's state. -/
def setSlot (name i : Nat) (f : Bool) (s : State) : State :=
  { s with cat := { s.cat with full := mset false s.cat.full (slotKey name i) f } }

/-- The slots that bytes [off, off + n) of a ring touch. -/
def slotsOf (e : Entry) (off n : Nat) : List Nat :=
  if e.slots = 0 ∨ e.slotBytes = 0 ∨ n = 0 then []
  else (List.range ((off + n - 1) / e.slotBytes - off / e.slotBytes + 1)).map (· + off / e.slotBytes)

/-- Whether bytes [off, off + n) cover the last byte of slot i. -/
def coversLast (e : Entry) (off n i : Nat) : Bool :=
  decide (off ≤ (i + 1) * e.slotBytes - 1) && decide ((i + 1) * e.slotBytes ≤ off + n)

/-- A read of a ring proceeds when every slot it touches is FULL; an untracked buffer never waits (R177). -/
def readReady (s : State) (name : Nat) (e : Entry) (off n : Nat) : Bool := (slotsOf e off n).all (slotFull s name)

/-- A write to a ring proceeds when every slot it touches is EMPTY (R177). -/
def writeReady (s : State) (name : Nat) (e : Entry) (off n : Nat) : Bool :=
  (slotsOf e off n).all fun i => !slotFull s name i

/-- After a write: a slot whose last byte it covers becomes FULL (R177). -/
def afterWrite (name : Nat) (e : Entry) (off n : Nat) (s : State) : State :=
  (slotsOf e off n).foldl (fun s i => if coversLast e off n i then setSlot name i true s else s) s

/-- After a consuming read: a slot whose last byte it covers becomes EMPTY (R177). -/
def afterConsume (name : Nat) (e : Entry) (off n : Nat) (s : State) : State :=
  (slotsOf e off n).foldl (fun s i => if coversLast e off n i then setSlot name i false s else s) s

/-- Writing a buffer by name: bytes, then the ring's slot states. -/
def putBuf (client name : Nat) (e : Entry) (off : Nat) (bs : List Byte) (s : State) : State :=
  afterWrite name e off bs.length (writeBuf client e (name / 4096) off bs s)

/-! ### Remote-write windows (R179, R180) -/

/-- The module's own ID. -/
def moduleId (s : State) : Nat := (getDict s (dkey 0x5000 0x01)).toNat

/-- Whether a window admits a remote write of n bytes at an offset (R179). -/
def windowAdmits (s : State) (e : Entry) (w : Writer) (off n : Nat) : Bool :=
  e.wopen &&
  (if w.mod = moduleId s then e.wdies.testBit w.die.val else decide (e.wmodLo ≤ w.mod) && decide (w.mod ≤ e.wmodHi)) &&
  decide (e.wlo * 64 ≤ off) && decide (off + n ≤ (e.whi + 1) * 64) && decide (off + n ≤ e.len)

/-- The offset of the first byte that a window refuses. -/
def firstRefused (s : State) (e : Entry) (w : Writer) (off n : Nat) : Nat :=
  match (List.range n).find? fun i => !windowAdmits s e w (off + i) 1 with
  | some i => off + i
  | none => off

/-- The client of the handle that an event names: its entry's, 16 where the entry is undefined (R345, log 7). -/
def ownerOf (s : State) (name : Nat) : Nat :=
  let e := getEnt s name
  if e.kind = 0 then 16 else e.client

/-- A refused remote write: it writes nothing, counts and posts its event, for the client of the handle (R180). -/
def windowRefused (w : Writer) (name off : Nat) (s : State) : State :=
  post 0x0203 (ownerOf s name) (w.mod + 2 ^ 12 * w.die.val + 2 ^ 14 * w.eng + 2 ^ 18 * (name % 4096) + 2 ^ 30 * (off / 64))
    (bumpDict (dkey 0x3100 0x0A) 1 s)

/-- A write by an engine of die d to a buffer: local, or remote under the window (R179). The flag says it was refused. -/
def engineWrite (client d eng name : Nat) (e : Entry) (off : Nat) (bs : List Byte) (s : State) : State × Bool :=
  if name / 4096 = d then (putBuf client name e off bs s, false)
  else
    let w : Writer := { mod := moduleId s, die := Fin.ofNat 4 d, eng := eng }
    let cur := getEnt s name
    let s0 := crossBridge client d (name / 4096) bs.length s
    if windowAdmits s cur w off bs.length then (putBuf client name cur off bs s0, false)
    else (windowRefused w name (firstRefused s cur w off bs.length) s0, true)

end Sys2Proof.Machine
end

