-- ==== Sys2Proof/Machine/GovTable.lean ====
section
/-! DEFINITION. The formats governor's table in memory: header, layer, tensor, patch and region records, and the state area (R246 to R251), and what a re-run region makes of a command (R259). -/

namespace Sys2Proof.Machine

/-- The word at byte offset o of a buffer name's handle by a copy of its entry, as a read delivers it, with no effect on
state. -/
def entWord (s : State) (e : Entry) (name o : Nat) : Word := (peekWord s (addrOf e (name / 4096) o / 8)).val

/-- The same by the entry that the Catalog holds now. -/
def bufWord (s : State) (name o : Nat) : Word := entWord s (getEnt s name) name o

/-- Number of layer, tensor, patch and region records (R246). -/
def govNL (s : State) (g : Nat) : Nat := fld (bufWord s g 0) 0 13
def govNT (s : State) (g : Nat) : Nat := fld (bufWord s g 0) 13 15
def govNP (s : State) (g : Nat) : Nat := fld (bufWord s g 0) 28 20
def govNR (s : State) (g : Nat) : Nat := fld (bufWord s g 0) 48 16

/-- Offsets of the tensor, patch, region, state and snapshot sections (R246). -/
def govTOff (s : State) (g : Nat) : Nat := fld (bufWord s g 8) 0 36
def govPOff (s : State) (g : Nat) : Nat := fld (bufWord s g 16) 0 36
def govROff (s : State) (g : Nat) : Nat := fld (bufWord s g 24) 0 36
def govStOff (s : State) (g : Nat) : Nat := fld (bufWord s g 32) 0 36
def govSnOff (s : State) (g : Nat) : Nat := fld (bufWord s g 40) 0 36

/-- Word k of layer record l (R247). -/
def layerWord (s : State) (g l k : Nat) : Word := bufWord s g (64 + 64 * l + 8 * k)

/-- Word k of layer l's state record (R251). -/
def layerState (s : State) (g l k : Nat) : Word := bufWord s g (govStOff s g + 32 * l + 8 * k)

/-- Storing word k of layer l's state record: an ordinary write of the device to the table's buffer. -/
def setLayerState (client g l k : Nat) (v : Word) (s : State) : State :=
  writeBuf client (getEnt s g) (g / 4096) (govStOff s g + 32 * l + 8 * k) (leBytes 8 v.toNat) s

def layerTag (s : State) (g l : Nat) : Nat := fld (layerWord s g l 0) 0 16
def layerEnable (s : State) (g l : Nat) : Bool := bit (layerWord s g l 0) 16
def layerNarrowOk (s : State) (g l : Nat) : Bool := bit (layerWord s g l 0) 17
def layerTop (s : State) (g l : Nat) : Nat := fld (layerWord s g l 0) 18 2

/-- The ELEM code of rung j of layer l's ladder (R247). -/
def layerRung (s : State) (g l j : Nat) : Nat := fld (layerWord s g l 0) (20 + 4 * j) 4

def layerBsLim (s : State) (g l : Nat) : Nat := fld (layerWord s g l 0) 38 8
def layerHead (s : State) (g l : Nat) : Nat := fld (layerWord s g l 0) 46 4
def layerVSlot (s : State) (g l : Nat) : Nat := fld (layerWord s g l 1) 0 16
def layerVPos (s : State) (g l : Nat) : Nat := fld (layerWord s g l 1) 16 12
def layerClean (s : State) (g l : Nat) : Nat := fld (layerWord s g l 1) 28 16
def layerAStep (s : State) (g l : Nat) : Nat := fld (layerWord s g l 1) 44 6
def layerMDies (s : State) (g l : Nat) : Nat := fld (layerWord s g l 4) 11 4

/-- Tensor records of layer l, as (record number, record) (R247, R248). -/
def layerTensors (s : State) (g l : Nat) : List (Nat × Word) :=
  (List.range (fld (layerWord s g l 2) 14 5)).map fun i =>
    let n := fld (layerWord s g l 2) 0 14 + i
    (n, bufWord s g (govTOff s g + 8 * n))

/-- Patch records of layer l (R247, R249). -/
def layerPatches (s : State) (g l : Nat) : List Word :=
  (List.range (fld (layerWord s g l 2) 39 20)).map fun i =>
    bufWord s g (govPOff s g + 8 * (fld (layerWord s g l 2) 19 20 + i))

/-- Region record i: its two words (R250). -/
def regionRec (s : State) (g i : Nat) : Word × Word :=
  (bufWord s g (govROff s g + 16 * i), bufWord s g (govROff s g + 16 * i + 8))

/-- What the formats governor makes of a command (R259): it runs, waits for a vote, or is skipped. -/
inductive Gate where
  | run
  | wait
  | skip
  deriving DecidableEq, Repr

/-- The client's governor table, as a buffer name (R246, R342). -/
def govOf (s : State) (client : Nat) : Option Nat := ((getClient s client).set).bind (·.gov)

/-- Whether a region record holds the command at word index off of an engine's plate (R250). -/
def recHolds (r : Word × Word) (e : Eng) (off : Nat) : Bool :=
  decide (fld r.2 0 4 = engCode e) && decide (fld r.2 4 4 = engUnit e) && decide (fld r.2 8 2 = engDie e) &&
  decide (fld r.1 0 24 ≤ off) && decide (off < fld r.1 0 24 + fld r.1 24 24)

/-- Whether region record i of a governor table holds a command (R250). -/
def inRegion (s : State) (g i : Nat) (e : Eng) (off : Nat) : Bool := recHolds (regionRec s g i) e off

/-- Record i of a gate's skip regions (R313): a byte buffer of records in the layout of R250, by the gate's copy of its entry
(R169). -/
def skipRec (s : State) (e : Entry) (name i : Nat) : Word × Word := (entWord s e name (16 * i), entWord s e name (16 * i + 8))

/-- What a re-run region makes of the command at word index off of engine e's plate (R259). -/
def rerunGate (s : State) (client : Nat) (e : Eng) (off : Nat) : Gate :=
  match govOf s client with
  | none => .run
  | some g =>
    match (List.range (govNR s g)).find? fun i => inRegion s g i e off with
    | none => .run
    | some i =>
      let st := layerState s g (fld (regionRec s g i).1 48 12) 0
      if !bit st 2 then .wait else if bit st 3 then .run else .skip

/-- What the skip regions of the step's gates make of a command (R313). -/
def skipGate (s : State) (client : Nat) (e : Eng) (off : Nat) : Gate :=
  match (getClient s client).step with
  | none => .run
  | some st =>
    let mine := st.gates.filter fun g => (List.range g.cnt).any fun i => recHolds (skipRec s g.ent g.name i) e off
    if mine.any fun g => g.outcome.isNone then .wait
    else if mine.any fun g => decide (g.outcome = some true) then .skip else .run

/-- What gates make of a command: it waits while either does, and is skipped when either skips it (R259, R313). -/
def gateOf (s : State) (client : Nat) (e : Eng) (off : Nat) : Gate :=
  match rerunGate s client e off, skipGate s client e off with
  | .wait, _ => .wait
  | _, .wait => .wait
  | .skip, _ => .skip
  | _, .skip => .skip
  | .run, .run => .run

end Sys2Proof.Machine
end

