-- ==== Sys2Proof/Machine/VecCode.lean ====
section
/-! DEFINITION. Vector instruction words: fields, operand kinds, and what makes a block's encoding reserved (R111, R114, R115, R117, R124, R126, R130). -/

namespace Sys2Proof.Machine

/-! ### Fields of an instruction word -/

def iOpc (w : Word) : Nat := fld w 0 8
def iVd (w : Word) : Nat := fld w 8 6
def iVa (w : Word) : Nat := fld w 14 6
def iVb (w : Word) : Nat := fld w 20 6
def iMsk (w : Word) : Nat := fld w 26 3
def iMz (w : Word) : Bool := bit w 29
def iVc (w : Word) : Nat := fld w 32 6
def iSub (w : Word) : Nat := fld w 38 4
def iImm (w : Word) : BitVec 32 := BitVec.ofNat 32 (fld w 32 32)

/-- What an operand field names (R115): nothing the engine checks, a vector, mask or exact register, or a stream. -/
inductive Opd where
  | none
  | vec
  | mask
  | exact
  | strm
  deriving DecidableEq, Repr

/-- An opcode's operand kinds (R117): VD, VA, VB, VC, and which SUB values are reserved. -/
structure OpInfo where
  vd : Opd := .none
  va : Opd := .none
  vb : Opd := .none
  vc : Opd := .none
  subBad : Nat → Bool := fun _ => false

/-- Group-size codes 6 to 15 are reserved (R117). -/
def groupBad (sub : Nat) : Bool := decide (6 ≤ sub)

/-- The opcode table (R117); none for a reserved opcode. -/
def opInfo (o : Nat) : Option OpInfo :=
  if o = 0x00 then some {}
  else if o = 0x01 then some { vd := .vec, va := .vec }
  else if o = 0x02 ∨ o = 0x03 then some { vd := .vec }
  else if o = 0x04 then some { vd := .vec, va := .vec, vb := .vec, vc := .mask }
  else if o ∈ [0x10, 0x11, 0x12, 0x16, 0x17, 0x20, 0x30, 0x31, 0x32, 0x33, 0x34, 0x35, 0x36, 0x52] then
    some { vd := .vec, va := .vec, vb := .vec }
  else if o ∈ [0x13, 0x14, 0x15] then some { vd := .vec, va := .vec, vb := .vec, vc := .vec }
  else if o ∈ [0x18, 0x19, 0x1A, 0x1B, 0x21, 0x22, 0x23, 0x24, 0x25, 0x26, 0x27, 0x28, 0x29, 0x2A, 0x2B, 0x2C, 0x38, 0x39, 0x3A,
      0x53, 0x54] then some { vd := .vec, va := .vec }
  else if o = 0x1C then some { vd := .vec, va := .vec, vb := .vec }
  else if o = 0x37 then some { vd := .vec, va := .vec, vb := .vec, subBad := fun s => decide (s / 2 ≠ 0) }
  else if o = 0x40 then some { vd := .mask, va := .vec, vb := .vec, subBad := fun s => decide (5 ≤ s) }
  else if o = 0x41 then some { vd := .mask, va := .vec, vb := .vec, subBad := fun s => decide (4 ≤ s) }
  else if o = 0x42 then some { vd := .mask, va := .mask, vb := .mask, subBad := fun s => decide (4 ≤ s) }
  else if o = 0x43 then some { vd := .mask }
  else if o = 0x50 ∨ o = 0x51 then some { vd := .vec, va := .vec, subBad := groupBad }
  else if o = 0x58 then some { vd := .vec, va := .vec, subBad := fun s => groupBad (s % 8) }
  else if o = 0x59 then some { vd := .vec, va := .vec, vb := .vec, vc := .vec, subBad := groupBad }
  else if o = 0x60 then some { vd := .vec, va := .strm }
  else if o = 0x61 then some { va := .vec, vb := .strm, vc := .vec }
  else if o = 0x62 then some { vd := .exact, va := .strm }
  else if o = 0x68 then some { vd := .vec }
  else if o = 0x69 ∨ o = 0x70 ∨ o = 0x76 ∨ o = 0x77 then some { vd := .exact }
  else if o = 0x71 then some { vd := .exact, va := .vec }
  else if o = 0x72 then some { vd := .exact, va := .exact }
  else if o = 0x73 then some { vd := .exact, subBad := groupBad }
  else if o = 0x74 then some { vd := .vec, va := .exact }
  else if o = 0x75 then some { vd := .vec, va := .exact, vb := .strm }
  else if o = 0x80 ∨ o = 0x81 then some { vd := .vec, va := .vec }
  else if o = 0x82 then some { vd := .mask, va := .vec }
  else if o = 0x88 ∨ o = 0xF0 then some {}
  else none

/-- Whether a field that names a mask or exact register has bits [5:3] set (R115). -/
def opdBad (k : Opd) (v : Nat) : Bool := (decide (k = .mask) || decide (k = .exact)) && decide (8 ≤ v)

/-- The width of a draw-context field by RCTX's VD[2:0] (R130); none for a reserved one. -/
def ctxWidth : Nat → Option Nat
  | 0 => some 12 | 1 => some 16 | 2 => some 8 | 3 => some 32 | 4 => some 16 | _ => none

/-- Whether an opcode holds a format R word, whose bits [41:38] are SUB (R117). -/
def opIsR (o : Nat) : Bool :=
  !decide (o ∈ [0x02, 0x03, 0x1A, 0x1B, 0x1C, 0x38, 0x43, 0x53, 0x54, 0x74, 0x75, 0x76, 0x82, 0x88, 0xF0])

/-- Whether a single instruction carries a reserved encoding that the block alone shows (R111, R115, R117, R124, R130). -/
def instrBad (w : Word) : Bool :=
  match opInfo (iOpc w) with
  | none => true
  | some i =>
    opdBad i.vd (iVd w) || opdBad i.va (iVa w) || opdBad i.vb (iVb w) || opdBad i.vc (iVc w) ||
    (decide (i.vd = .mask) && decide (iVd w = 0)) || (opIsR (iOpc w) && i.subBad (iSub w)) ||
    (decide (iOpc w = 0x74 ∨ iOpc w = 0x75) && !goodMult (iImm w)) ||
    (decide (iOpc w = 0x88) && match ctxWidth (iVd w % 8) with
      | some n => decide (2 ^ n ≤ (iImm w).toNat)
      | none => true)

/-- REP's body length and repeat count (R114). -/
def repN (w : Word) : Nat := fld w 48 12
def repK (w : Word) : Nat := fld w 32 16

/-- Whether the REP at place i of a block is reserved (R114). -/
def repBad (ws : List Word) (i : Nat) : Bool :=
  let w := nth 0 ws i
  decide (iOpc w = 0xF0) &&
  (decide (repN w = 0) || decide (repK w = 0) || decide (ws.length < i + 1 + repN w) ||
   ((ws.drop (i + 1)).take (repN w)).any fun v => decide (iOpc v = 0xF0))

/-- The exact registers an instruction names. -/
def exactNames (w : Word) : List Nat :=
  match opInfo (iOpc w) with
  | none => []
  | some i => (if i.vd = .exact then [iVd w % 8] else []) ++ (if i.va = .exact then [iVa w % 8] else [])

/-- The bound registers after an instruction, in plate order; none where it breaks the rules of R126. -/
def bindStep (b : Option (BitVec 8)) (w : Word) : Option (BitVec 8) :=
  match b with
  | none => none
  | some b =>
    if iOpc w = 0x76 then (if b.getLsbD (iVd w % 8) then none else some (b ||| (1#8 <<< (iVd w % 8))))
    else if iOpc w = 0x77 then (if b.getLsbD (iVd w % 8) then some (b &&& ~~~(1#8 <<< (iVd w % 8))) else none)
    else if (exactNames w).any fun x => b.getLsbD x then none
    else some b

/-- Whether a block is refused by what can be judged when it enters the window (R111). -/
def blockBad (bound : BitVec 8) (ws : List Word) : Bool :=
  ws.any instrBad || (List.range ws.length).any (repBad ws) || (ws.foldl bindStep (some bound)).isNone

/-- The bound registers behind a block that runs (R126). -/
def blockBound (bound : BitVec 8) (ws : List Word) : BitVec 8 := (ws.foldl bindStep (some bound)).getD bound

/-- Vector registers that an instruction reads. -/
def readsVec (w : Word) : List Nat :=
  match opInfo (iOpc w) with
  | none => []
  | some i =>
    (if i.va = .vec then [iVa w] else []) ++ (if i.vb = .vec then [iVb w] else []) ++ (if i.vc = .vec then [iVc w] else []) ++
    (if iOpc w = 0x75 then [iVd w] else [])

/-- Exact registers that an instruction reads. -/
def readsExact (w : Word) : List Nat :=
  if iOpc w = 0x70 ∨ iOpc w = 0x77 then [] else exactNames w

/-- Mask registers that an instruction reads, its MSK among them. -/
def readsMask (w : Word) : List Nat :=
  match opInfo (iOpc w) with
  | none => []
  | some i =>
    [iMsk w] ++ (if i.va = .mask then [iVa w] else []) ++ (if i.vb = .mask then [iVb w] else []) ++
    (if i.vc = .mask then [iVc w] else [])

end Sys2Proof.Machine
end

