-- ==== Sys2Proof/Machine/Issue.lean ====
section
/-! DEFINITION. Plates: command headers, tokens, issue windows, plate order, refusal and completion (R218 to R236, R5, R89, R111, R196, R138, R151). -/

namespace Sys2Proof

open Sys2Proof.Machine

/-! ### Headers and token references (R221, R222) -/

def PCmd.opc (c : PCmd) : Nat := fld c.h0 0 4
def PCmd.nin (c : PCmd) : Nat := fld c.h0 4 3
def PCmd.nout (c : PCmd) : Nat := fld c.h0 7 3
def PCmd.fence (c : PCmd) : Bool := bit c.h0 10

/-- Body word i; a word that the body lacks reads 0. -/
def PCmd.w (c : PCmd) (i : Nat) : Word := nth 0 c.body i

/-- Token reference i, 0 to 6. -/
def PCmd.tref (c : PCmd) (i : Nat) : Nat := if i < 3 then fld c.h0 (16 + 16 * i) 16 else fld c.h1 (16 * (i - 3)) 16

/-- The input references of a command. -/
def PCmd.ins (c : PCmd) : List Nat := (List.range c.nin).map c.tref

/-- The output references of a command. -/
def PCmd.outs (c : PCmd) : List Nat := (List.range c.nout).map fun i => c.tref (c.nin + i)

end Sys2Proof

namespace Sys2Proof.Machine

/-- TREG, TFILE and TCNT of a reference. -/
def trefReg (r : Nat) : Nat := r % 256
def trefFile (r : Nat) : Nat := r / 256 % 32
def trefCnt (r : Nat) : Nat := r / 8192

/-- An engine's own token file (R222). -/
def ownFile (e : Eng) : Nat :=
  match engTile e with
  | some t => t.val % 16
  | none => 16

/-- A header that is itself reserved (R222). -/
def hdrReserved (e : Eng) (c : PCmd) : Bool :=
  decide (7 < c.nin + c.nout) || (c.ins ++ c.outs).any (fun r => decide (trefCnt r = 0) || decide (17 ≤ trefFile r)) ||
  c.ins.any fun r => decide (trefFile r ≠ ownFile e)

/-- The key of a token register (R223). -/
def tokKey (die file reg : Nat) : Nat := (die * 17 + file) * 256 + reg

/-- The count of a token register. -/
def tokens (s : State) (die file reg : Nat) : Nat := (mget 0 s.plates.tokens (tokKey die file reg)).toNat

/-- Setting a token register. -/
def setTok (die file reg n : Nat) (s : State) : State :=
  { s with plates := { s.plates with
      tokens := mset 0 s.plates.tokens (tokKey die file reg) (BitVec.ofNat 16 n) } }

/-- What a command needs of one register: the sum of its references to it (R226). -/
def needOf (c : PCmd) (reg : Nat) : Nat :=
  (c.ins.filter fun r => decide (trefReg r = reg)).foldl (fun n r => n + trefCnt r) 0

/-- Whether every input count is present (R226). -/
def tokensReady (s : State) (e : Eng) (c : PCmd) : Bool :=
  c.ins.all fun r => decide (needOf c (trefReg r) ≤ tokens s (engDie e) (ownFile e) (trefReg r))

/-- Subtracting the input counts at issue (R226). -/
def takeTokens (e : Eng) (c : PCmd) (s : State) : State :=
  c.ins.foldl (fun s r =>
    setTok (engDie e) (ownFile e) (trefReg r) (tokens s (engDie e) (ownFile e) (trefReg r) - trefCnt r) s) s

/-- Posting a count: it is on its way to its register until TOKEN_ARRIVE delivers it (R224). -/
def postTok (e : Eng) (client file reg n : Nat) (s : State) : State :=
  { s with plates := { s.plates with posts := s.plates.posts ++
      [{ die := Fin.ofNat 4 (engDie e), file := file, reg := reg, count := n, eng := e, client := client }] } }

/-- Posting every output reference of a command at its completion (R224). -/
def postOuts (e : Eng) (client : Nat) (c : PCmd) (s : State) : State :=
  c.outs.foldl (fun s r => postTok e client (trefFile r) (trefReg r) (trefCnt r) s) s

/-! ### Engine state -/

/-- An engine's plate state. -/
def getEng (s : State) (e : Eng) : EngSt := mget {} s.plates.engs (engKey e)

/-- Storing an engine's plate state. -/
def setEng (e : Eng) (x : EngSt) (s : State) : State :=
  { s with plates := { s.plates with engs := mset {} s.plates.engs (engKey e) x } }

/-- The issued, incomplete commands of an engine. -/
def flightsOf (s : State) (e : Eng) : List Flight := s.plates.flights.filter fun f => decide (f.eng = e)

/-- An issued command by its number. -/
def findFlight (s : State) (id : Nat) : Option Flight := s.plates.flights.find? fun f => decide (f.id = id)

/-- Whether a client's step is aborted (R229). -/
def aborted (s : State) (c : Nat) : Bool :=
  match (getClient s c).step with
  | some st => st.aborted
  | none => false

/-- A command completes: it leaves the issued commands and posts its output tokens; after a fault of its client's step
the tokens are dropped (R224, R229). -/
def complete (id : Nat) (s : State) : State :=
  match findFlight s id with
  | none => s
  | some f =>
    let s1 := { s with plates := { s.plates with flights := s.plates.flights.filter fun g => decide (g.id ≠ id) } }
    if aborted s f.client then s1 else postOuts f.eng f.client f.win.cmd s1

/-- Posting a command's output tokens without completing it (R104). -/
def postBatch (id : Nat) (s : State) : State :=
  match findFlight s id with
  | none => s
  | some f => if aborted s f.client then s else postOuts f.eng f.client f.win.cmd s

/-- The use count of an entry: issued commands that name it and accepted remote writes (R174). -/
def useCount (s : State) (name : Nat) : Nat :=
  (s.plates.flights.filter fun f => f.win.names.any fun n => decide (n.1 = name)).length + mget 0 s.cat.accepted name

/-- The body length of an opcode; none where the engine reserves it (R88, R111, R138, R148, R151, R196, R233, R295). -/
def bodyLen (e : Eng) (opc : Nat) (w0 : Word) : Option Nat :=
  match e with
  | .array _ => nth none [none, some 1, some 1, some 3, some 2, some 0] opc
  | .vector _ => if opc = 1 ∧ 1 ≤ fld w0 0 13 ∧ fld w0 0 13 ≤ 4096 then some (1 + fld w0 0 13) else none
  | .stream _ => nth none [none, some 5, some 3, some 1, some 1] opc
  | .seq _ => nth none [none, some 0, some 1, some 9, some 6, some 1] opc
  | .hatch _ _ => nth none [none, some 6, some 3, some 3, some 2] opc
  | .cpt _ _ => nth none [none, some 5] opc
  | .dma _ _ => nth none [none, some 5, some 1] opc
  | .coll _ => nth none [none, some 4, some 6, some 1, some 2] opc

/-- The buffer names whose entries a command reads when it enters the window (R169, R232). -/
def namesOf (e : Eng) (c : PCmd) : List Nat :=
  let d := engDie e * 4096
  let w := c.w
  match e with
  | .array _ =>
    if c.opc = 3 then
      if bit (w 0) 5 ∨ (bit (w 0) 1 ∧ fld (w 2) 0 2 = 0) then [d + fld (w 2) 2 12] else []
    else if c.opc = 4 then (if fld (w 1) 0 2 = 0 then [d + fld (w 1) 2 12] else [])
    else []
  | .vector _ => []
  | .stream _ =>
    if c.opc = 1 then
      let hd := fld (w 0) 24 2 * 4096
      [hd + fld (w 0) 12 12] ++
      (if fld (w 0) 8 2 = 0 then [] else [d + fld (w 3) 32 12]) ++
      (if fld (w 0) 8 2 = 2 then [d + fld (w 3) 44 12] else []) ++
      (if fld (w 0) 6 2 = 3 then [hd + fld (w 4) 36 12] else [])
    else if c.opc = 2 then [fld (w 0) 18 2 * 4096 + fld (w 0) 6 12]
    else []
  | .seq _ =>
    if c.opc = 4 then
      [d + fld (w 1) 4 12] ++ (if fld (w 1) 0 4 = 2 then [d + fld (w 1) 16 12] else [])
    else []
  | .hatch _ _ =>
    if c.opc = 1 then
      [d + fld (w 0) 0 12, d + fld (w 0) 12 12] ++ (if bit (w 0) 24 then [d + fld (w 0) 25 12] else [])
    else if c.opc = 2 then [d + fld (w 0) 0 12]
    else if c.opc = 4 then (if bit (w 0) 40 then [] else [d + fld (w 0) 12 12])
    else []
  | .cpt _ _ => [d + fld (w 0) 0 12, d + fld (w 0) 12 12]
  | .dma _ _ =>
    if c.opc = 1 then
      (if fld (w 0) 0 3 = 2 then [] else [fld (w 0) 34 2 * 4096 + fld (w 0) 10 12]) ++
      (if bit (w 0) 9 then [] else [fld (w 0) 36 2 * 4096 + fld (w 0) 22 12])
    else []
  | .coll _ =>
    if c.opc = 1 then
      if fld (w 0) 29 3 = 2 then [d + fld (w 1) 0 12] ++ (if fld (w 1) 24 2 = 0 then [] else [d + fld (w 1) 12 12])
      else []
    else if c.opc = 2 then
      let cop := fld (w 0) 16 4
      (if cop = 3 then [] else [d + fld (w 0) 20 12]) ++ (if cop = 4 then [d + fld (w 3) 44 12] else []) ++
      (if cop = 4 ∨ (cop = 6 ∧ bit (w 3) 32) then [d + fld (w 4) 0 12] else []) ++
      (if cop = 6 ∨ cop = 7 then [d + fld (w 4) 12 12] else [])
    else if c.opc = 3 then (if fld (w 0) 28 16 = 0 then [] else [d + fld (w 0) 16 12])
    else []

/-- The entries of a command's names, as they stand (R169). -/
def captureNames (s : State) (ns : List Nat) : List (Nat × Entry) := ns.map fun n => (n, getEnt s n)

/-- The entry of a name that a command captured; undefined where it did not. -/
def WinCmd.ent (w : WinCmd) (name : Nat) : Entry := ((w.names.find? fun n => decide (n.1 = name)).map (·.2)).getD {}

/-- The bank that an array command resolves (R88, R89), with the current bank. -/
def resolveBank (cur : Bool) (c : PCmd) : Nat :=
  let b := if c.opc = 3 then fld (c.w 0) 2 2 else fld (c.w 0) 0 2
  if b = 2 then b2n cur else if b = 3 then 1 - b2n cur else b

/-- The current bank after an array command has entered the window (R89, R90, R95). -/
def nextBank (cur : Bool) (c : PCmd) : Bool :=
  if c.opc = 5 then !cur
  else if c.opc = 1 ∧ bit (c.w 0) 0 then bit (c.w 0) 1
  else cur

/-- Whether a command's block is refused by what is judged when it enters the window (R111, R126). -/
def entryBad (e : Eng) (bound : BitVec 8) (c : PCmd) : Bool :=
  match e with
  | .vector _ => blockBad bound (c.body.drop 1)
  | _ => false

/-- The bound exact registers behind a command in plate order (R126): a refused block binds nothing. -/
def entryBound (e : Eng) (bound : BitVec 8) (c : PCmd) : BitVec 8 :=
  match e with
  | .vector _ => if blockBad bound (c.body.drop 1) then bound else blockBound bound (c.body.drop 1)
  | _ => bound

/-! ### Plate order (R89, R205, R226) -/

/-- Whether an array command is a LOAD_STAT or a PASS with NEW = 1. -/
def usesTile (c : PCmd) : Bool := decide (c.opc = 2) || (decide (c.opc = 3) && bit (c.w 0) 0)

/-- The banks that an array command names, after resolution (R89). -/
def banksOf (w : WinCmd) : List Nat :=
  if w.cmd.opc = 3 then
    if bit (w.cmd.w 0) 5 then [] else if bit (w.cmd.w 0) 1 then [0, 1] else [w.bank]
  else if w.cmd.opc = 4 then [w.bank] else []

/-- The streams that an array command names (R199, R205). -/
def streamsOf (c : PCmd) : List Nat :=
  if c.opc = 2 then [fld (c.w 0) 2 6, fld (c.w 0) 8 6]
  else if c.opc = 3 ∧ ¬ bit (c.w 0) 6 then [fld (c.w 0) 16 6, fld (c.w 0) 22 6] else []

/-- Whether a drain delivers to the vector engine (R127). -/
def drainsToVector (c : PCmd) : Bool := decide (c.opc = 4) && decide (fld (c.w 1) 0 2 = 1 ∨ fld (c.w 1) 0 2 = 2)

/-- Whether two lists share an element. -/
def meets (a b : List Nat) : Bool := a.any fun x => b.contains x

/-- Whether plate order lets command w issue ahead of the earlier window commands es (R89, R111, R138, R151, R196). -/
def orderOk (s : State) (e : Eng) (es : List WinCmd) (w : WinCmd) : Bool :=
  match e with
  | .array _ =>
    (if w.cmd.opc = 1 then es.isEmpty && (flightsOf s e).isEmpty else true) &&
    !(es.any fun x => decide (x.cmd.opc = 1)) && !((flightsOf s e).any fun f => decide (f.win.cmd.opc = 1)) &&
    !(es.any fun x =>
      (usesTile w.cmd && usesTile x.cmd) || meets (banksOf w) (banksOf x) || meets (streamsOf w.cmd) (streamsOf x.cmd) ||
      (drainsToVector w.cmd && drainsToVector x.cmd))
  | .vector t => (getVec s t).block.isNone
  | .stream _ => es.isEmpty
  | .seq _ => true
  | .hatch _ _ => es.isEmpty && (flightsOf s e).isEmpty
  | .cpt _ _ => es.isEmpty
  | .dma _ _ => es.isEmpty
  | .coll _ => es.isEmpty

/-- Whether a command's FENCE lets it issue: every earlier command of the plate has completed (R221). -/
def fenceOk (s : State) (e : Eng) (es : List WinCmd) (w : WinCmd) : Bool :=
  !w.cmd.fence || (es.isEmpty && !((flightsOf s e).any fun f => decide (f.win.ix < w.ix)))

/-- Ready in R226's sense: tokens, plate order, fence; a reserved header examines no references (R222). -/
def isReady (s : State) (e : Eng) (es : List WinCmd) (w : WinCmd) : Bool :=
  (hdrReserved e w.cmd || tokensReady s e w.cmd) && orderOk s e es w && fenceOk s e es w &&
  decide (gateOf s (clientOn s (engDie e)) e w.off ≠ .wait)

/-- The outcome of an issue attempt. -/
inductive Issued where
  | wait (code : Nat)
  | skip (s : State)
  | refused (s : State)
  | go (s : State) (w : WinCmd) (id : Nat)
  deriving Repr

/-- The illegal-encoding event of an engine's command (R5, R429). -/
def illegalDetail (e : Eng) (w : WinCmd) : Nat :=
  engCode e + 16 * engUnit e + 256 * engDie e + 1024 * (w.off % 2 ^ 24) + 2 ^ 34 * w.cmd.opc

/-- The ILLEGAL bit of an engine's status, as (address, bit) (R134, R158, R217, R237, R323). -/
def illegalBit (e : Eng) (c : PCmd) : Nat × Nat :=
  match e with
  | .array t => (pltBlk t 0x400, 4)
  | .vector t => (vecBlk t 0, 3)
  | .stream t => (strBlk t 0, 2)
  | .seq t => (pltBlk t 0x400, 4)
  | .hatch d u => (hatchBlk d.val u.val 0, 0)
  | .cpt d u => (cptBlk d.val u.val 0, 0)
  | .dma d k => (dmaQBlk d.val k.val (if c.opc = 2 then fld (c.w 0) 0 3 else fld (c.w 0) 3 3) 0, 18)
  | .coll d => (collBlk d.val 0, 5)

/-- Posting an illegal-encoding event and setting the engine's ILLEGAL bit (R5). -/
def noteIllegal (e : Eng) (client : Nat) (w : WinCmd) (s : State) : State :=
  let b := if hdrReserved e w.cmd then (plateStatus e, 4) else illegalBit e w.cmd
  post 0x0201 client (illegalDetail e w) (setBit b.1 b.2 s)

/-- Refusing an issued command under R5: event, status, and completion with its output tokens. -/
def refuse (id : Nat) (s : State) : State :=
  match findFlight s id with
  | none => s
  | some f => complete id (noteIllegal f.eng f.client f.win s)

/-- Taking a command out of its window, or, where it is not in the window, treating it as entering now in plate order. -/
def locate (s : State) (e : Eng) (c : PCmd) : List WinCmd × WinCmd × List WinCmd × Bool :=
  let g := getEng s e
  match g.win.findIdx? fun w => decide (w.cmd = c) with
  | some i =>
    (g.win.take i, nth { ix := 0, off := 0, cmd := c, names := [], bank := 0 } g.win i, g.win.drop (i + 1), true)
  | none =>
    (g.win, { ix := g.nextIx, off := g.entered, cmd := c, names := captureNames s (namesOf e c),
              bank := resolveBank g.bank c, bad := entryBad e g.xbound c }, [], false)

/-- Whether an earlier command of the window is ready, and so issues first (R226). -/
def earlierReady (s : State) (e : Eng) : List WinCmd → List WinCmd → Bool
  | _, [] => false
  | pre, w :: ws => isReady s e pre w || earlierReady s e (pre ++ [w]) ws

/-- An attempt to issue command c on engine e (R5, R169, R222, R226, R229, R259): the copies of its entries that it uses are
those of its issue (log 14). hold is a stall code of the engine's own
chapter that keeps the command from issuing. -/
def issue (hold : Option Nat) (e : Eng) (c : PCmd) (s : State) : Issued :=
  let client := clientOn s (engDie e)
  let (es, w, rest, inWin) := locate s e c
  let gate := gateOf s client e w.off
  if aborted s client then .wait 0x1D
  else if !hdrReserved e c && !tokensReady s e c then .wait 0x01
  else if earlierReady s e [] es || !(orderOk s e es w && fenceOk s e es w) then .wait 0x02
  else if gate = .wait then .wait 0x02
  else
    match (if gate = .run && !hdrReserved e c then hold else none) with
    | some code => .wait code
    | none =>
      let g := getEng s e
      let g' : EngSt :=
        if inWin then { g with win := es ++ rest }
        else { g with nextIx := g.nextIx + 1, entered := g.entered + 2 + c.body.length, bank := nextBank g.bank c,
                        xbound := entryBound e g.xbound c }
      let s1 := setEng e g' s
      if hdrReserved e c then .refused (noteIllegal e client w s1)
      else
        let s2 := takeTokens e c s1
        if gate = .skip then .skip (postOuts e client c (bumpDict (dkey 0x6000 0x07) 1 s2))
        else
          let id := s2.plates.nextId
          let w1 := { w with names := if w.unknown then [] else captureNames s (namesOf e c) }
          .go { s2 with plates := { s2.plates with
                  nextId := id + 1,
                  flights := s2.plates.flights ++ [{ id := id, eng := e, client := client, win := w1 }] } } w1 id

/-- Whether an engine is on a tile that is out of service (R395). -/
def engOut (s : State) (e : Eng) : Bool :=
  match engTile e with
  | some t => tileOut s t
  | none => false

/-- Running an issue attempt: a wait is charged to its cause; a skipped or refused command is done; else the effect
follows. A command that the window knew only by a reserved length is refused (R221), and so is every command of a tile
that is out of service (R395). While its client is being switched out an engine issues nothing (R357). -/
def withIssue (hold : Option Nat) (e : Eng) (c : PCmd) (s : State) (k : State → WinCmd → Nat → State) : State :=
  if (getClient s (clientOn s (engDie e))).state = 4 then s
  else match issue hold e c s with
  | .wait code => charge e code s
  | .skip s' => charge e 0x00 s'
  | .refused s' => charge e 0x00 s'
  | .go s' w id => charge e 0x00 (if w.unknown || engOut s' e then refuse id s' else k s' w id)

/-! ### Faults (R229) -/

/-- Raising an engine fault: its event, and the abort of the client's step, which STEP_ABORT then carries out (R229).
The first fault of a step names it. -/
def raiseFault (client code detail : Nat) (s : State) : State :=
  let s1 := post code client detail s
  if client < 16 then
    let c := getClient s1 client
    match c.step with
    | some st =>
      if st.aborted then s1
      else setClient client { c with step := some { st with
             aborted := true, fcode := code, fdetail := detail, forigin := moduleId s } } s1
    | none => s1
  else s1

end Sys2Proof.Machine
end

