-- ==== Sys2Proof/Machine/CatOps.lean ====
section
/-! DEFINITION. Catalog writes: their checks, how they apply, staging, commits and window closing (R165 to R176, R181, R232, R335). -/

namespace Sys2Proof

open Sys2Proof.Machine

/-! ### Control words and entries -/

/-- HANDLE, STAGE, WIN and UNDEF of a Catalog write (R169). -/
def CatRec.handle (r : CatRec) : Nat := fld r.ctl 0 12
def CatRec.stage (r : CatRec) : Bool := bit r.ctl 12
def CatRec.win (r : CatRec) : Bool := bit r.ctl 13 && !bit r.ctl 14
def CatRec.undef (r : CatRec) : Bool := bit r.ctl 14 || (!r.win && decide (fld (nth 0 r.w 0) 0 2 = 0))

end Sys2Proof

namespace Sys2Proof.Machine

/-- Masking the RSV fields of an entry's words (R4, R166): W3 by KIND. -/
def Entry.masked (e : Entry) : Entry :=
  { w0 := e.w0 &&& 0x3FFFFFF7F, w1 := e.w1, w2 := e.w2 &&& 0x1FFFF,
    w3 := if fld e.w0 0 2 = 2 then e.w3 &&& 0xFFFFFFFFFFF else e.w3 &&& 0x3FFFFFF,
    w4 := e.w4 &&& 0xFFFFFFFFF, w5 := e.w5 &&& 0xFFFFFFFFF, w6 := e.w6 &&& 0x7FFFFFFFFFF3FFF,
    w7 := e.w7 &&& 0xFFFFFFFFFFFFFFF }

end Sys2Proof.Machine

namespace Sys2Proof

open Sys2Proof.Machine

/-- The entry that a write leaves: undefined, an entry with new window fields, or a new entry (R166, R169, R171). -/
def CatRec.result (r : CatRec) (cur : Entry) : Entry :=
  if r.undef then {}
  else if r.win then
    { cur with w6 := setFld cur.w6 30 29 (fld (nth 0 r.w 6) 30 29), w7 := nth 0 r.w 7 &&& 0xFFFFFFFFFFFFFFF }
  else Entry.masked { w0 := nth 0 r.w 0, w1 := nth 0 r.w 1, w2 := nth 0 r.w 2, w3 := nth 0 r.w 3, w4 := nth 0 r.w 4,
                      w5 := nth 0 r.w 5, w6 := nth 0 r.w 6, w7 := nth 0 r.w 7 }

end Sys2Proof

namespace Sys2Proof.Machine

/-! ### The checks of R171 -/

/-- A view of a die's Catalog: entries by buffer name. -/
abbrev CView := SMap Entry

/-- The Catalog with some staged writes applied, in staging order (R175). -/
def applyStaged (v : CView) (l : List Staged) : CView :=
  l.foldl (fun v x => mset {} v (x.die.val * 4096 + fld x.ctl 0 12) x.ent) v

/-- The defined entries of a die in a view, but for one name. -/
def othersOf (v : CView) (d name : Nat) : List (Nat × Entry) :=
  v.filter fun x => decide (x.1 / 4096 = d) && decide (x.1 ≠ name) && decide (x.2.kind ≠ 0)

/-- Bytes of data of one slot or of the whole buffer (R167). -/
def Entry.dataBytes (e : Entry) (f : Fmt) : Nat := e.rows * rowPitch f e.cols

/-- Reason 2: a narrow format with a tensor scale that R37 forbids. -/
def tscaleBad (e : Entry) (f : Fmt) : Bool :=
  !elemWide f.elem && !(match f32 e.tsBits with | .fin false m => decide (pow2 (-126) ≤ m) | _ => false)

/-- Reason 3 (R167, R171): the shape of the buffer. -/
def shapeBad (e : Entry) : Bool :=
  decide (e.len = 0) ||
  (e.tensor && (
    decide (e.cols < 1 ∨ 65536 < e.cols) ||
    match e.fmt with
    | none => true
    | some f =>
      let h := if e.slots ≠ 0 ∧ e.shdr then 8 else 0
      let stop := h + e.dataBytes f
      let lim := if e.slots = 0 then e.len else e.slotBytes
      let sEnd := e.soff + e.rows * nBlocks e.cols f.blk
      decide (lim < stop) ||
      (!elemWide f.elem && (decide (lim < sEnd) || (decide (e.soff < stop) && decide (h < sEnd)) ||
        decide (e.soff < h))))) ||
  (decide (e.slots ≠ 0) && decide (e.len < e.slots * e.slotBytes))

/-- Reason 4: where the buffer lies. -/
def locationBad (e : Entry) : Bool :=
  if e.kind = 1 then
    decide (9 < e.nbc) || decide (e.b0 % 2 ^ e.nbc ≠ 0) || decide (8192 < e.lbase + cdiv (cdiv e.len 64) (2 ^ e.nbc))
  else if e.kind = 2 then decide (e.saddr % 64 ≠ 0) || decide (1728 * 2 ^ 30 < e.saddr + e.len)
  else true

/-- Reason 4 in Proof: a stack buffer outside the die's own range, or on a die whose stacks are not all up (R395). -/
def stackNotYet (s : State) (d : Nat) (e : Entry) : Bool :=
  inProof s && decide (e.kind = 2) &&
    (decide (e.saddr < d * 0x6C00000000) || decide ((d + 1) * 0x6C00000000 < e.saddr + e.len) ||
      (List.range 6).any fun i => decide (fld (getReg s (stkBlk (6 * d + i) 0)) 0 2 ≠ 1))

/-- Reason 5: ring slots, against the die's and the client's totals. -/
def ringBad (s : State) (v : CView) (d name : Nat) (e : Entry) : Bool :=
  if e.slots = 0 then false
  else
    let os := othersOf v d name
    let tot := os.foldl (fun n x => n + x.2.slots) e.slots
    let own := os.foldl (fun n x => if x.2.client = e.client then n + x.2.slots else n) e.slots
    let c := getClient s e.client
    let allot := if c.state ≠ 0 ∧ hasDie c d then c.ringSlots else 0
    decide (4096 < e.slots) || decide (e.kind = 2) || !e.tensor || decide (e.slotu = 0) || decide (allot < own) ||
      decide (65536 < tot)

/-- Reason 6: the window fields. -/
def windowBad (e : Entry) : Bool :=
  e.wopen && (decide (e.whi < e.wlo) || decide (e.len ≤ e.whi * 64) || decide (e.wmodHi < e.wmodLo))

/-- Reason 8: the statistics slot is allotted to the client on the die (R349). -/
def statBad (s : State) (d : Nat) (e : Entry) : Bool :=
  let c := getClient s e.client
  !(decide (c.state ≠ 0) && hasDie c d && decide (c.statFirst ≤ e.stat) && decide (e.stat < c.statFirst + c.statNum))

/-- The Folio lines of an entry, as spans of lines for each bank: first bank, banks, first line, lines. -/
def lineBox (e : Entry) : Nat × Nat × Nat × Nat :=
  (e.b0, 2 ^ e.nbc, e.lbase, cdiv (cdiv e.len 64) (2 ^ e.nbc))

/-- Whether a line of a bank belongs to an entry: the last line of the range may lack its later banks (R160). -/
def coversLine (e : Entry) (bank line : Nat) : Bool :=
  let (b, n, l, _) := lineBox e
  decide (e.kind = 1) && decide (b ≤ bank) && decide (bank < b + n) && decide (l ≤ line) &&
    decide ((line - l) * n + (bank - b) < cdiv e.len 64)

/-- Whether two Folio entries share a line: bank ranges are aligned powers of two, so one holds the other or they are
apart; the lines shared by both are looked at in the banks that both have. -/
def shareLine (x y : Entry) : Bool :=
  let (bx, nx, lx, kx) := lineBox x
  let (yb, ny, ly, ky) := lineBox y
  let b0 := max bx yb
  let b1 := min (bx + nx) (yb + ny)
  let l0 := max lx ly
  let l1 := min (lx + kx) (ly + ky)
  decide (x.kind = 1) && decide (y.kind = 1) && decide (b0 < b1) && decide (l0 < l1) &&
    (List.range (b1 - b0)).any fun b => coversLine x (b0 + b) l0 && coversLine y (b0 + b) l0

/-- Reason 9: lines shared with another client, either entry resident. -/
def overlapBad (v : CView) (d name : Nat) (e : Entry) : Bool :=
  decide (e.kind = 1) && (othersOf v d name).any fun x =>
    decide (x.2.client ≠ e.client) && (x.2.resident || e.resident) && shareLine x.2 e

/-- Reasons 1 to 6 (R171), of an entry that the write leaves defined. -/
def placeReason (s : State) (v : CView) (d name : Nat) (e : Entry) : Option Nat :=
  match fmtOf e.fmtWord with
  | none => some 1
  | some f =>
    if tscaleBad e f then some 2
    else if shapeBad e then some 3
    else if locationBad e || stackNotYet s d e then some 4
    else if ringBad s v d name e then some 5
    else if windowBad e then some 6
    else none

/-- The refusal reason of a Catalog write on a path (none: the Registrar's or the host's), or none where it passes
(R171, R175). -/
def catReason (s : State) (path : Option Nat) (d : Nat) (r : CatRec) (v : CView) : Option Nat :=
  let name := d * 4096 + r.handle
  let cur := mget {} v name
  let new := r.result cur
  let live := decide (new.kind ≠ 0)
  let own := match path with
    | none => false
    | some c => (decide (cur.kind ≠ 0) && decide (cur.client ≠ c)) || (live && decide (new.client ≠ c))
  match (if live then placeReason s v d name new else none) with
  | some k => some k
  | none =>
    if own then some 7
    else if live ∧ statBad s d new then some 8
    else if live ∧ overlapBad v d name new then some 9
    else if ¬ r.win ∧ ¬ r.undef ∧ ¬ r.stage ∧ useCount s name ≠ 0 then some 10
    else if ¬ r.stage ∧ s.cat.staging.any (fun x => decide (x.die.val * 4096 + fld x.ctl 0 12 = name)) then some 11
    else if r.stage ∧ 256 ≤ (s.cat.staging.filter fun x => decide (x.die.val = d)).length then some 12
    else none

/-! ### Applying a write -/

/-- The Folio lines of an entry, numbered over the module's four Folios. -/
def entryLines (d : Nat) (e : Entry) : List Nat :=
  if e.kind = 1 then (List.range (cdiv e.len 64)).map fun q => d * 4194304 + flatOf e (64 * q) / 64 else []

/-- A client becomes the last owner of the lines of an entry that is defined over them (R165). -/
def claimLines (d : Nat) (e : Entry) (s : State) : State :=
  { s with mem := { s.mem with
      owner := (entryLines d e).foldl (fun m l => mset 0 m l (e.client + 1)) s.mem.owner } }

/-- Dropping a name from every sequencer data cache (R232). -/
def uncacheName (name : Nat) (s : State) : State :=
  { s with plates := { s.plates with
      caches := s.plates.caches.map fun c =>
        (c.1, { c.2 with
          names := (c.2.names.map (fun x => (x.1, x.2.filter (fun n => decide (n ≠ name))))).filter
            (fun x => !x.2.isEmpty) }) } }

/-- Clearing every slot of a ring (R172, R186). -/
def clearSlots (name : Nat) (s : State) : State :=
  { s with cat := { s.cat with full := mdrop s.cat.full (fun k => decide (k / 4096 = name)) } }

/-- Applying one Catalog write: the entry, its slot states, the last owner of its lines, the data caches (R165, R170,
R172, R232). full says that the write defined the entry rather than its window. -/
def applyEntry (name : Nat) (new : Entry) (full : Bool) (s : State) : State :=
  let cur := getEnt s name
  let s1 := setEnt name new (uncacheName name s)
  let s2 := if cur.kind = 0 ∨ new.kind = 0 ∨ cur.slots ≠ new.slots ∨ cur.slotu ≠ new.slotu then clearSlots name s1 else s1
  if full then claimLines (name / 4096) new s2 else s2

/-- The refusal of a Catalog write: its count and its event (R171). -/
def noteCatRefused (path : Option Nat) (d h reason : Nat) (s : State) : State :=
  post 0x0202 (path.getD 16) (d + 4 * h + 2 ^ 14 * reason) (bumpDict (dkey 0x3100 0x09) 1 s)

/-- Whether new window fields close or narrow the old window (R181). -/
def narrows (old new : Entry) : Bool :=
  old.wopen && (!new.wopen || decide (old.wlo < new.wlo) || decide (new.whi < old.whi) ||
    decide (old.wmodLo < new.wmodLo) || decide (new.wmodHi < old.wmodHi) ||
    decide (old.wdies &&& new.wdies ≠ old.wdies))

/-- The client whose staging a staged write belongs to (R175). -/
def stageOwner (s : State) (d : Nat) (r : CatRec) : Nat :=
  let stood := mget {} (applyStaged s.cat.ents s.cat.staging) (d * 4096 + r.handle)
  if r.undef ∨ r.win then stood.client else (r.result stood).client

/-- A refused staged write of a client in a step makes its module not ready to re-shard (R319). -/
def noteStageRefused (c : Nat) (r : CatRec) (s : State) : State :=
  if ¬ r.stage then s
  else match (getClient s c).step with
    | some st => setClient c { getClient s c with step := some { st with notReady := true } } s
    | none => s

/-- What became of a Catalog write. -/
inductive CatOut where
  | applied
  | pending
  | refused (reason : Nat)
  deriving DecidableEq, Repr

/-- A Catalog write on a path: checked, then applied, staged, or refused (R170, R171, R175, R181). -/
def catWrite (path : Option Nat) (d : DieId) (r : CatRec) (s : State) : CatOut × State :=
  let name := d.val * 4096 + r.handle
  let stood := mget {} (applyStaged s.cat.ents s.cat.staging) name
  let owner := stageOwner s d.val r
  if r.stage ∧ r.undef ∧ stood.kind = 0 then (.applied, s)
  else
    let view := if r.stage then
      applyStaged s.cat.ents (s.cat.staging.filter fun x => decide (x.owner = owner)) else s.cat.ents
    let cur := mget {} view name
    let new := r.result cur
    match catReason s path d.val r view with
    | some k => (.refused k, noteCatRefused path d.val r.handle k (noteStageRefused owner r s))
    | none =>
      if r.stage then
        (.applied, { s with cat := { s.cat with
          staging := s.cat.staging ++ [{ die := d, owner := owner, ctl := r.ctl, ent := new }] } })
      else
        let s1 := applyEntry name new (!r.win && !r.undef) s
        if r.win ∧ narrows cur new ∧ mget 0 s.cat.accepted name ≠ 0 then (.pending, s1) else (.applied, s1)

/-- Applying a client's staged writes on a die, in staging order, as one update (R175). -/
def commitStaged (d : DieId) (c : Nat) (s : State) : State :=
  let mine := s.cat.staging.filter fun x => decide (x.die = d) && decide (x.owner = c)
  let rest := s.cat.staging.filter fun x => !(decide (x.die = d) && decide (x.owner = c))
  mine.foldl (fun s x =>
    applyEntry (d.val * 4096 + fld x.ctl 0 12) x.ent (!bit x.ctl 13 && decide (x.ent.kind ≠ 0)) s)
    { s with cat := { s.cat with staging := rest } }

/-- Emptying a client's staging on a die (R175). -/
def discardStaged (d : DieId) (c : Nat) (s : State) : State :=
  { s with cat := { s.cat with
      staging := s.cat.staging.filter fun x => !(decide (x.die = d) && decide (x.owner = c)),
      commits := s.cat.commits.filter fun x => !(decide (x.die = d) && decide (x.client = c)) } }

/-! ### Ports (R335) -/

/-- Whether an agent's Catalog port waits for a closing write of the die to complete. -/
def catBusy (s : State) (d : DieId) (a : Agent) : Bool :=
  s.cat.closing.any fun x => decide (x.agent = some a) && decide (x.name / 4096 = d.val)

/-- A record written to an agent's Catalog port (R335): discarded with an address error while the port is busy. -/
def portCatWrite (d : DieId) (a : Agent) (r : CatRec) (s : State) : State :=
  let res := catPort d.val (agentPort a) 0x48
  if catBusy s d a then post 0x0204 16 (catPort d.val (agentPort a) 0x40) s
  else
    match catWrite none d r s with
    | (.applied, s1) => setReg res 1 s1
    | (.refused k, s1) => setReg res (BitVec.ofNat 64 (0x100 + k)) s1
    | (.pending, s1) => setReg res 0 { s1 with cat := { s1.cat with
        closing := s1.cat.closing ++ [{ name := d.val * 4096 + r.handle, agent := a }] } }

/-- CATALOG_WRITE (R170, R171): the record as it is. -/
def execCatalogWrite (d : DieId) (a : Agent) (r : CatRec) (s : State) : Host.Outcome State Fault Refusal :=
  .next (portCatWrite d a { r with ctl := r.ctl &&& 0xFFF } s)

/-- CATALOG_WRITE_STAGED (R175). -/
def execCatalogWriteStaged (d : DieId) (a : Agent) (r : CatRec) (s : State) : Host.Outcome State Fault Refusal :=
  .next (portCatWrite d a { r with ctl := (r.ctl &&& 0x6FFF) ||| 0x1000 } s)

/-- CATALOG_WRITE_WINDOW (R181). -/
def execCatalogWriteWindow (d : DieId) (a : Agent) (r : CatRec) (s : State) : Host.Outcome State Fault Refusal :=
  .next (portCatWrite d a { r with ctl := (r.ctl &&& 0x1FFF) ||| 0x2000 } s)

/-- CATALOG_WRITE_UNDEF (R171). -/
def execCatalogWriteUndef (d : DieId) (a : Agent) (r : CatRec) (s : State) : Host.Outcome State Fault Refusal :=
  .next (portCatWrite d a { r with ctl := (r.ctl &&& 0x1FFF) ||| 0x4000 } s)

/-- A closing write becomes final: its port's result, or its command completes (R181). -/
def finishClosing (d : DieId) (s : State) (x : Closing) : State :=
  match x.agent with
  | some a => setReg (catPort d.val (agentPort a) 0x48) 1 s
  | none => complete x.id s

/-- WINDOW_CLOSE_COMPLETE (R181): once no remote write accepted into the handle is incomplete, the closing write's
result becomes final. -/
def execWindowCloseComplete (d : DieId) (h : Nat) (s : State) : Host.Outcome State Fault Refusal :=
  let name := d.val * 4096 + h % 4096
  .next (if mget 0 s.cat.accepted name ≠ 0 then s
    else
      let mine := s.cat.closing.filter fun x => decide (x.name = name)
      mine.foldl (finishClosing d)
        { s with cat := { s.cat with closing := s.cat.closing.filter fun x => decide (x.name ≠ name) } })

/-- CATALOG_DISCARD (R175). -/
def execCatalogDiscard (d : DieId) (c : ClientId) (s : State) : Host.Outcome State Fault Refusal :=
  .next (discardStaged d c.val s)

end Sys2Proof.Machine
end

