-- ==== Sys2Proof/Machine/WearOps.lean ====
section
/-! DEFINITION. The Errata map and queued spare swaps (R431 to R435). -/

namespace Sys2Proof.Machine

/-- Fields of an Errata record (R431). -/
def Errata.kind (r : Errata) : Nat := fld r.w0 0 4
def Errata.die (r : Errata) : Nat := fld r.w0 4 2
def Errata.state (r : Errata) : Nat := fld r.w0 6 2
def Errata.unit (r : Errata) : Nat := fld r.w0 8 5
def Errata.frm (r : Errata) : Nat := fld r.w0 14 10
def Errata.to (r : Errata) : Nat := fld r.w0 24 10

/-- Whether a record waits for its fuse (R431, R437). -/
def Errata.pending (r : Errata) : Bool := decide (r.state = 0 ∨ r.state = 2)

/-- Storing the Errata map, with the entries that count its records (R439). -/
def setErrata (l : List Errata) (s : State) : State :=
  setDict (dkey 0x8000 0x02) (BitVec.ofNat 64 l.length)
    (setDict (dkey 0x8000 0x03) (BitVec.ofNat 64 (l.filter Errata.pending).length)
      { s with wearS := { s.wearS with errata := l } })

/-- A swap recorded: its Errata record appended, event 0x0901, and the count of field swaps (R431, R433, R439). A full map
takes no further record. -/
def recordSwap (kind die unit frm dst cause row : Nat) (s : State) : State :=
  let n := s.wearS.errata.length
  let st := if kind = 6 then 1 else 0
  let w0 : Word := BitVec.ofNat 64 (kind % 16 + 16 * (die % 4) + 64 * st + 256 * (unit % 32) + 2 ^ 14 * (frm % 1024) +
    2 ^ 24 * (dst % 1024) + 2 ^ 34 * (cause % 64))
  let w1 : Word := BitVec.ofNat 64 (s.tick % 2 ^ 40 + 2 ^ 40 * (row % 2 ^ 24))
  let s1 := bumpDict (dkey 0x8000 0x0F) 1 s
  if 1024 ≤ n then s1
  else post 0x0901 16 (n + 2 ^ 10 * (w0.toNat % 2 ^ 54)) (setErrata (s.wearS.errata ++ [{ w0 := w0, w1 := w1 }]) s1)

/-- Whether a queued swap is one of a unit's item. -/
def Swap.isOf (x : Swap) (kind die unit item : Nat) : Bool :=
  decide (x.kind = kind) && decide (x.die.val = die) && decide (x.unit = unit) && decide (x.item = item)

/-- Taking a swap out of the queue, with its cause; where none is queued, its cause is open (log 4). -/
def takeSwap (kind die unit item : Nat) (s : State) : Nat × State :=
  match s.wearS.queue.find? fun x => x.isOf kind die unit item with
  | some x => (x.cause, { s with wearS := { s.wearS with queue := s.wearS.queue.erase x } })
  | none =>
    let (v, s1) := fresh s
    (fld v 0 6, s1)

/-- Performing a swap: the queue gives it up and the Errata map records it. -/
def doneSwap (kind die unit frm dst : Nat) (s : State) : State :=
  let (cause, s1) := takeSwap kind die unit frm s
  recordSwap kind die unit frm dst cause 0 s1

/-- A swap that is due where no spare of its kind remains: its event, once per unit (R434). -/
def noSpare (kind die unit item : Nat) (s : State) : State :=
  let k := (kind * 4 + die) * 2 ^ 15 + unit * 1024 + item
  if s.wearS.gone.contains k then s
  else post 0x0902 16 (kind + 16 * die + 64 * unit) { s with wearS := { s.wearS with gone := k :: s.wearS.gone } }

end Sys2Proof.Machine
end

