-- ==== Sys2Proof/Machine/Folio.lean ====
section
/-! DEFINITION. Accesses to buffers, ring-slot waits, remote writes, Folio operations and lock words, scrubbing, bank power and bank replacement (R159 to R164, R177 to R194, R335). -/

namespace Sys2Proof.Machine

/-! ### Accesses (R161 to R163, R177, R178) -/

/-- The port at which an access delivers its data: the requester's die and code. -/
def accPort (r : Access) : Nat := r.die.val * 256 + r.code

/-- Upsets that have struck stored words, by word address (byte address / 8). -/
def strike (us : List Upset) (s : State) : State :=
  { s with mem := us.foldl (fun m u => if regionOf (8 * u.place) = .none then m else m.upset u.place u.flips) s.mem }

/-- Whether an access lies in its handle: a buffer of the kind, and bytes below its length. -/
def accOk (kind : Nat) (e : Entry) (r : Access) (n : Nat) : Bool :=
  decide (e.kind = kind) && decide (1 ≤ n) && decide (r.off + n ≤ e.len)

/-- A read that is served: it delivers its bytes at the requester's port, and a consuming read empties the slots whose
last byte it covers (R162, R177). -/
def serveRead (e : Entry) (r : Access) (s : State) : State :=
  let (bs, s1) := readBuf (clientOn s r.die.val) e (r.name / 4096) r.off r.len s
  let s2 := { s1 with ports := mset [] s1.ports (accPort r) bs }
  if r.consuming then afterConsume r.name e r.off r.len s2 else s2

/-- The first slot of an access that is not in the state it needs (R177). -/
def slotBlocked (s : State) (name : Nat) (e : Entry) (off n : Nat) (write : Bool) : Option Nat :=
  (slotsOf e off n).find? fun i => slotFull s name i == write

/-- An access that waits for a ring slot, behind earlier waiters (R178). -/
def addWaiter (w : Waiter) (s : State) : State := { s with cat := { s.cat with waiters := s.cat.waiters ++ [w] } }

/-- A read of a buffer (R162, R177, R178). -/
def readAccess (kind : Nat) (r : Access) (s : State) : State :=
  let e := getEnt s r.name
  if ¬ accOk kind e r r.len then s
  else match slotBlocked s r.name e r.off r.len false with
    | some i => addWaiter { name := r.name, slot := i, write := false, acc := r, data := [] } s
    | none => serveRead e r s

/-- A write of a buffer by an engine of its own die, or under the window of another die's handle (R163, R177 to R179). -/
def writeAccess (kind : Nat) (r : Access) (data : List Byte) (s : State) : State :=
  let e := getEnt s r.name
  let w : Writer := { mod := moduleId s, die := r.die, eng := r.code }
  if ¬ accOk kind e r data.length then s
  else if r.name / 4096 ≠ r.die.val ∧ ¬ windowAdmits s e w r.off data.length then
    windowRefused w r.name (firstRefused s e w r.off data.length) s
  else match slotBlocked s r.name e r.off data.length true with
    | some i => addWaiter { name := r.name, slot := i, write := true, acc := r, data := data } s
    | none => putBuf (clientOn s r.die.val) r.name e r.off data s

/-- FOLIO_READ (R162). -/
def execFolioRead (r : Access) (u : List Upset) (s : State) : Host.Outcome State Fault Refusal :=
  .next (readAccess 1 r (strike u s))

/-- FOLIO_WRITE (R163). -/
def execFolioWrite (r : Access) (data : List Byte) (u : List Upset) (s : State) : Host.Outcome State Fault Refusal :=
  .next (writeAccess 1 r data (strike u s))

/-- A waiter whose slots are all in the state it needs. -/
def waiterReady (s : State) (w : Waiter) : Bool :=
  (slotBlocked s w.name (getEnt s w.name) w.acc.off (if w.write then w.data.length else w.acc.len) w.write).isNone

/-- Counting a remote write into a handle as complete (R174, R181). -/
def dropAccepted (name : Nat) (s : State) : State :=
  { s with cat := { s.cat with accepted := mupd 0 s.cat.accepted name (· - 1) } }

/-- SLOT_WAITER_RESUME (R178): the earliest waiter on the slot that its state lets go on is served; one whose buffer is no
longer there is dropped. -/
def execSlotWaiterResume (name slot : Nat) (s : State) : Host.Outcome State Fault Refusal :=
  let l := s.cat.waiters
  .next (match l.findIdx? fun w => decide (w.name = name) && decide (w.slot = slot) && waiterReady s w with
    | none => s
    | some i =>
      match l[i]? with
      | none => s
      | some w =>
        let s1 := { s with cat := { s.cat with waiters := l.eraseIdx i } }
        let e := getEnt s name
        if ¬ accOk e.kind e w.acc (if w.write then w.data.length else w.acc.len) ∨ e.kind = 0 then
          if w.remote then dropAccepted name s1 else s1
        else if w.write then
          let s2 := putBuf (clientOn s w.acc.die.val) name e w.acc.off w.data s1
          if w.remote then dropAccepted name s2 else s2
        else serveRead e w.acc s1)

/-- FOLIO_SCRUB (R164): a line of a logical bank read, corrected and rewritten; it wakes no bank for good. -/
def execFolioScrub (d : DieId) (bank line : Nat) (u : List Upset) (s : State) : Host.Outcome State Fault Refusal :=
  let s0 := strike u s
  let a := folioBase d.val + line % 8192 * 32768 + bank % 512 * 64
  .next (if mget .active s.banks.power (bankOf a) = .off then s0
    else (List.range 8).foldl (fun s i => (readWord 16 true (a / 8 + i) s).2) s0)

/-- A remote write (R179, R180): checked against the window in force, and held while a ring slot is not EMPTY. -/
def remoteWrite (w : Writer) (name off : Nat) (data : List Byte) (s : State) : State :=
  let e := getEnt s name
  if data.length = 0 then s
  else if ¬ windowAdmits s e w off data.length then windowRefused w name (firstRefused s e w off data.length) s
  else match slotBlocked s name e off data.length true with
    | some i =>
      let r : Access := { die := Fin.ofNat 4 (name / 4096), code := w.eng, name := name, off := off, len := data.length,
                          consuming := false }
      addWaiter { name := name, slot := i, write := true, acc := r, data := data, remote := true }
        { s with cat := { s.cat with accepted := mupd 0 s.cat.accepted name (· + 1) } }
    | none => putBuf e.client name e off data s

/-- REMOTE_WRITE (R179). -/
def execRemoteWrite (w : Writer) (name off : Nat) (data : List Byte) (s : State) : Host.Outcome State Fault Refusal :=
  .next (remoteWrite w name off data s)

/-! ### Folio operations (R182 to R188) -/

/-- Fields of a Folio operation record (R186). -/
def fopCode (r : FopRec) : Nat := fld r.w0 0 4
def fopDh (r : FopRec) : Nat := fld r.w0 4 12
def fopSh (r : FopRec) : Nat := fld r.w0 16 12
def fopDoff (r : FopRec) : Nat := fld r.w1 0 36
def fopSoff (r : FopRec) : Nat := fld r.w2 0 36
def fopLen (r : FopRec) : Nat := fld r.w3 0 36

/-- An identity: client, die and agent, 12 bits (R182). -/
def lockId (client die agent : Nat) : Nat := client % 16 * 256 + die * 64 + agent

/-- Whether a handle serves an issuer: a Folio buffer on the die, of the issuer's client where it has one (R187). -/
def fopHandle (client : Option Nat) (e : Entry) : Bool :=
  decide (e.kind = 1) && match client with | some c => decide (e.client = c) | none => true

/-- The address spans of bytes [off, off + n) of a Folio handle. -/
def bufSpans (name : Nat) (e : Entry) (off n : Nat) : List (Nat × Nat) :=
  (List.range (cdiv n 8)).map fun i => (addrOf e (name / 4096) (off + 8 * i), 8)

/-- Whether bytes of two ranges meet (R187): by their flat addresses. -/
def copyOverlaps (dn : Nat) (de : Entry) (doff : Nat) (sn : Nat) (se : Entry) (soff n : Nat) : Bool :=
  (bufSpans dn de doff n).any fun x => (bufSpans sn se soff n).any fun y =>
    decide (x.1 < y.1 + 8) && decide (y.1 < x.1 + 8)

/-- The reserved combinations of R186 and R187. -/
def fopReserved (client : Option Nat) (d : DieId) (r : FopRec) (s : State) : Bool :=
  let dn := d.val * 4096 + fopDh r
  let sn := d.val * 4096 + fopSh r
  let de := getEnt s dn
  let se := getEnt s sn
  let range := fopLen r % 8 ≠ 0 ∨ fopLen r = 0 ∨ fopDoff r % 8 ≠ 0 ∨ de.len < fopDoff r + fopLen r
  if fopCode r = 1 then !fopHandle client de || decide range
  else if fopCode r = 2 then
    !fopHandle client de || !fopHandle client se || decide range || decide (fopSoff r % 8 ≠ 0) ||
      decide (se.len < fopSoff r + fopLen r) || copyOverlaps dn de (fopDoff r) sn se (fopSoff r) (fopLen r)
  else if fopCode r = 3 then !fopHandle client de || decide (de.slots = 0)
  else if fopCode r = 4 ∨ fopCode r = 5 then
    !fopHandle client de || decide (fopDoff r % 8 ≠ 0) || decide (de.len < fopDoff r + 8)
  else true

/-- What a Folio operation returns: it waits for ring slots, is reserved, or has its result word. -/
inductive FopOut where
  | waits
  | reserved
  | done (word : Word)
  deriving DecidableEq, Repr

/-- A result word (R187). -/
def fopWord (status : Nat) (broken : Bool) (holder : Nat) : Word :=
  BitVec.ofNat 64 (status + 256 * b2n broken + 2 ^ 20 * (holder % 4096))

/-- FILL: the pattern in every word of the range. -/
def fopFill (client : Nat) (d : DieId) (r : FopRec) (s : State) : State :=
  let dn := d.val * 4096 + fopDh r
  putBuf client dn (getEnt s dn) (fopDoff r)
    ((List.range (fopLen r / 8)).flatMap fun _ => leBytes 8 r.w4.toNat) s

/-- Copying word i of a COPY, poison with it; the flag gathers whether a source word was poisoned (R188). -/
def copyWord (client : Nat) (d : DieId) (de se : Entry) (doff soff : Nat) (acc : Bool × State) (i : Nat) : Bool × State :=
  let sa := addrOf se d.val (soff + 8 * i)
  let da := addrOf de d.val (doff + 8 * i)
  let (w, s1) := readWord client false (sa / 8) (wakeBank sa acc.2)
  let s2 := wakeBank da s1
  (acc.1 || w.poison, if w.poison then poisonWord (da / 8) w.val s2 else writeWord (da / 8) w.val s2)

/-- COPY: every word, poison with it; the flag says that a source word was poisoned (R188). -/
def fopCopy (client : Nat) (d : DieId) (r : FopRec) (s : State) : Bool × State :=
  let dn := d.val * 4096 + fopDh r
  let sn := d.val * 4096 + fopSh r
  let de := getEnt s dn
  let se := getEnt s sn
  let (bad, s1) := (List.range (fopLen r / 8)).foldl (copyWord client d de se (fopDoff r) (fopSoff r)) (false, s)
  (bad, afterWrite dn de (fopDoff r) (fopLen r) s1)

/-- The epoch of an identity (R183). -/
def epochOf (s : State) (id : Nat) : BitVec 32 := mget 0 s.cat.epochs id

/-- A lock word (R182). -/
def lockWord (broken : Bool) (me : Nat) (ep : BitVec 32) : Word :=
  BitVec.ofNat 64 (1 + 2 * b2n broken + 256 * me + 2 ^ 32 * ep.toNat)

/-- Acquiring or releasing a lock word, indivisibly (R184, R185). -/
def fopLock (client me : Nat) (d : DieId) (r : FopRec) (s : State) : Word × State :=
  let dn := d.val * 4096 + fopDh r
  let a := addrOf (getEnt s dn) d.val (fopDoff r)
  let (w, s1) := readWord client false (a / 8) (wakeBank a s)
  if w.poison then (fopWord 4 false 0, s1)
  else
    let held := bit w.val 0
    let owner := fld w.val 8 12
    let live := held && decide ((epochOf s1 owner).toNat = fld w.val 32 32)
    if fopCode r = 4 then
      if live then (fopWord 1 false owner, s1)
      else
        let s2 := writeWord (a / 8) (lockWord held me (epochOf s1 me)) s1
        (fopWord 0 held 0, if held then bumpDict (dkey 0x3100 0x0B) 1 s2 else s2)
    else if live ∧ owner = me then (fopWord 0 false 0, writeWord (a / 8) 0 s1)
    else (fopWord 2 false owner, s1)

/-- A Folio operation of an issuer: client path or none, identity, and the number of the SFOP it belongs to, which its
own use count leaves out (R186 to R188). -/
def fopRun (client : Option Nat) (me : Nat) (own : Option Nat) (d : DieId) (r : FopRec) (s : State) : FopOut × State :=
  let dn := d.val * 4096 + fopDh r
  let sn := d.val * 4096 + fopSh r
  let de := getEnt s dn
  let who := client.getD 16
  if fopReserved client d r s then (.reserved, s)
  else if fopCode r = 1 then
    if writeReady s dn de (fopDoff r) (fopLen r) then (.done (fopWord 0 false 0), fopFill who d r s) else (.waits, s)
  else if fopCode r = 2 then
    if writeReady s dn de (fopDoff r) (fopLen r) && readReady s sn (getEnt s sn) (fopSoff r) (fopLen r) then
      let (bad, s1) := fopCopy who d r s
      (.done (fopWord (if bad then 4 else 0) false 0), s1)
    else (.waits, s)
  else if fopCode r = 3 then
    let mine := match own with
      | some id => ((findFlight s id).map fun f => f.win.names.any fun n => decide (n.1 = dn)).getD false
      | none => false
    if useCount s dn = b2n mine then (.done (fopWord 0 false 0), clearSlots dn s) else (.done (fopWord 3 false 0), s)
  else
    let (w, s1) := fopLock who me d r s
    (.done w, s1)

/-- The identity of an agent of a die (R182). -/
def agentId (d : DieId) : Agent → Nat
  | .host => lockId 0 0 32
  | .core c => lockId 0 d.val (16 + c.val)

/-- The illegal-encoding event of a Folio operation that came through a port: the engine and unit fields, which the spec
gives no code for the operation unit, are open (log 4). -/
def portIllegal (d : DieId) (r : FopRec) (s : State) : State :=
  let (x, s1) := fresh s
  post 0x0201 16 (fld x 0 8 + 256 * d.val + 2 ^ 34 * fopCode r) s1

/-- A record at an agent's Folio operation port (R335): its result is final with bit 63 set; a record that waits for a
ring slot changes nothing yet. -/
def portFop (d : DieId) (a : Agent) (r : FopRec) (s : State) : State :=
  let res := fopPort d.val (agentPort a) 0x28
  match fopRun none (agentId d a) none d r s with
  | (.waits, s1) => setReg res 0 s1
  | (.reserved, s1) => setReg res (fopWord 3 false 0 ||| 1#64 <<< 63) (portIllegal d r s1)
  | (.done w, s1) => setReg res (w ||| 1#64 <<< 63) s1

/-- A record whose operation code is the one its command names. -/
def FopRec.as (r : FopRec) (op : Nat) : FopRec := { r with w0 := setFld r.w0 0 4 op }

/-- FILL (R186). -/
def execFill (d : DieId) (a : Agent) (r : FopRec) (s : State) : Host.Outcome State Fault Refusal :=
  .next (portFop d a { r with w0 := setFld r.w0 0 4 1 } s)

/-- COPY as a Folio operation (R186). -/
def execCopyFolioOp (d : DieId) (a : Agent) (r : FopRec) (s : State) : Host.Outcome State Fault Refusal :=
  .next (portFop d a { r with w0 := setFld r.w0 0 4 2 } s)

/-- SLOT_RESET (R186). -/
def execSlotReset (d : DieId) (a : Agent) (r : FopRec) (s : State) : Host.Outcome State Fault Refusal :=
  .next (portFop d a { r with w0 := setFld r.w0 0 4 3 } s)

/-- LOCK_ACQ (R184). -/
def execLockAcq (d : DieId) (a : Agent) (r : FopRec) (s : State) : Host.Outcome State Fault Refusal :=
  .next (portFop d a { r with w0 := setFld r.w0 0 4 4 } s)

/-- LOCK_REL (R184). -/
def execLockRel (d : DieId) (a : Agent) (r : FopRec) (s : State) : Host.Outcome State Fault Refusal :=
  .next (portFop d a { r with w0 := setFld r.w0 0 4 5 } s)

/-! ### Bank power (R191, R192) -/

/-- The key of a logical bank. -/
def bankKey (d : DieId) (b : Nat) : Nat := d.val * 512 + b % 512

/-- A bank's power state. -/
def bankPower (s : State) (k : Nat) : BankPower := mget .active s.banks.power k

/-- Setting a bank's power state. -/
def setBankPower (k : Nat) (p : BankPower) (s : State) : State :=
  { s with banks := { s.banks with power := mset .active s.banks.power k p } }

/-- Whether a defined Folio entry covers a line of a bank (R191). -/
def bankCovered (s : State) (k : Nat) : Bool :=
  s.cat.ents.any fun x => decide (x.1 / 4096 = k / 512) && decide (x.2.kind = 1) && decide (x.2.b0 ≤ k % 512) &&
    decide (k % 512 < x.2.b0 + 2 ^ x.2.nbc) && decide (k % 512 - x.2.b0 < cdiv x.2.len 64)

/-- Accesses that a ring slot holds back and that touch a bank: those of the die's own requesters, or remote writes. -/
def heldAt (s : State) (k : Nat) (remote : Bool) : Nat :=
  (s.cat.waiters.filter fun w =>
    (w.remote == remote) && decide (w.name / 4096 = k / 512) &&
    (lineSpans w.acc.off (if w.write then w.data.length else w.acc.len)).any fun sp =>
      decide (bankOf (addrOf (getEnt s w.name) (w.name / 4096) sp.1) = k)).length

/-- Requests that wait at a bank: those of its wake, and those that hold a slot there while a ring slot keeps them (R178,
R189). -/
def bankRequests (s : State) (k : Nat) : Nat := mget 0 s.banks.waiting k + heldAt s k false

/-- Clearing a bank's lines: a bank that goes off loses them, and reads zero when it is back (R165, R191). -/
def clearBank (k : Nat) (s : State) : State :=
  let hit : Nat → Bool := fun a => decide (regionOf a = .folio (k / 512)) && decide (bankOf a = k)
  { s with mem := { s.mem with
      cells := mdrop s.mem.cells hit,
      synd := mdrop s.mem.synd (fun w => hit (8 * w)),
      owner := mdrop s.mem.owner (fun l => decide (l / 4194304 = k / 512) && decide (l % 512 = k % 512)) } }

/-- BANK_GATE (R192): with no request waiting, a bank that has been idle long enough, or that is eligible to be off,
leaves the active state once no accepted write is unstored. A write of this model is stored when it is accepted, but for
a remote write that a ring slot holds. -/
def execBankGate (d : DieId) (b : Nat) (s : State) : Host.Outcome State Fault Refusal :=
  let k := bankKey d b
  let off := decide (getDict s (dkey 0x3100 0x02) ≠ 0) && !bankCovered s k
  let gate : Bool → State → State := fun g s => { s with banks := { s.banks with gate := mset false s.banks.gate k g } }
  .next (if bankPower s k ≠ .active ∨ bankRequests s k ≠ 0 then gate false s
    else if heldAt s k true ≠ 0 then gate true s
    else if off then clearBank k (setBankPower k .off (gate false s))
    else setBankPower k .sleep (gate false s))

/-- BANK_WAKE (R192): a request arrives at a sleeping or off bank. -/
def execBankWake (d : DieId) (b : Nat) (s : State) : Host.Outcome State Fault Refusal :=
  let k := bankKey d b
  let s1 := { s with banks := { s.banks with waiting := mupd 0 s.banks.waiting k (· + 1) } }
  .next (match bankPower s k with
    | .sleep => setBankPower k .waking s1
    | .off => setBankPower k .powering s1
    | .waking => s1
    | .powering => s1
    | .active => s)

/-- BANK_WAKE_DONE (R191): a bank is active again and its waiting requests are served; after power-on every line is zero
with valid check bits. -/
def execBankWakeDone (d : DieId) (b : Nat) (s : State) : Host.Outcome State Fault Refusal :=
  let k := bankKey d b
  let s1 := { s with banks := { s.banks with waiting := mset 0 s.banks.waiting k 0 } }
  .next (match bankPower s k with
    | .waking => setBankPower k .active s1
    | .powering => clearBank k (setBankPower k .active s1)
    | .active => s
    | .sleep => s
    | .off => s)

/-- The physical bank that serves a logical bank: the map of R193, the identity where no spare serves (log 3). -/
def physBank (s : State) (k : Nat) : Nat := mget (k % 512) s.banks.map k

/-- Spare banks of a die in use (R193). -/
def sparesUsed (s : State) (d : DieId) : Nat := mget 0 s.banks.used d.val

/-- Copying a line of a bank to its spare: words are corrected, poison is kept (R194). -/
def recopyBank (k : Nat) (s : State) : State :=
  let ws := (s.mem.synd.map (·.1)).filter fun w =>
    decide (regionOf (8 * w) = .folio (k / 512)) && decide (bankOf (8 * w) = k)
  ws.foldl (fun s w =>
    let r := peekWord s w
    if r.poison then { s with mem := s.mem.setWord w (s.mem.rawWord w) poisonSynd }
    else countCorrected w { s with mem := s.mem.setWord w r.val 0 }) s

/-- Replacing a worn logical bank by the next spare (R194): it waits while requests hold slots there; contents are copied,
the map redirected, and the swap recorded. -/
def replaceBank (d : DieId) (b : Nat) (s : State) : State :=
  let k := bankKey d b
  let n := sparesUsed s d
  if 16 ≤ n ∨ bankRequests s k ≠ 0 then s
  else
    let s1 := recopyBank k s
    let s2 := { s1 with
      banks := { s1.banks with map := mset (k % 512) s1.banks.map k (512 + n), used := mset 0 s1.banks.used d.val (n + 1) },
      wear := mset 0 s1.wear k 0 }
    doneSwap 4 d.val 0 (physBank s k) (512 + n) (setDict (dkey 0x3100 (3 + d.val)) (BitVec.ofNat 64 (16 - (n + 1))) s2)

/-- BANK_REPLACE (R194). -/
def execBankReplace (d : DieId) (b : Nat) (s : State) : Host.Outcome State Fault Refusal := .next (replaceBank d b s)

end Sys2Proof.Machine
end

