-- ==== Sys2Proof/Machine/PlanTime.lean ====
section
/-! DEFINITION. Plan ticks, the timetable share and the client's step (R220, R280, R281, R289, R430 events of faults). -/

namespace Sys2Proof.Machine

/-! ### The timetable share (R280) -/

/-- A timetable share: its words. -/
abbrev Share := List Word

def Share.nslot (t : Share) : Nat := fld (nth 0 t 0) 0 16
def Share.stepLen (t : Share) : Nat := fld (nth 0 t 0) 16 32
def Share.root (t : Share) : Nat := fld (nth 0 t 0) 48 12
def Share.cparent (t : Share) : Nat := fld (nth 0 t 1) 0 6
def Share.depth (t : Share) : Nat := fld (nth 0 t 1) 6 12
def Share.diam (t : Share) : Nat := fld (nth 0 t 1) 18 12
def Share.cchild (t : Share) : Nat := fld (nth 0 t 1) 32 32
def Share.lead (t : Share) : Nat := fld (nth 0 t 2) 0 16
def Share.quantum (t : Share) : Nat := fld (nth 0 t 2) 16 8
def Share.limit (t : Share) : Nat := fld (nth 0 t 2) 24 32

/-- A slot entry: its two words. -/
abbrev Slot := Word × Word

/-- Slot entry i. -/
def Share.slot (t : Share) (i : Nat) : Slot := (nth 0 t (8 + 2 * i), nth 0 t (9 + 2 * i))

def Slot.kind (e : Slot) : Nat := fld e.1 0 2
def Slot.port (e : Slot) : Nat := fld e.1 2 5
def Slot.inport (e : Slot) : Nat := fld e.1 7 5
def Slot.peer (e : Slot) : Nat := fld e.1 12 12
def Slot.window (e : Slot) : Nat := fld e.1 24 7
def Slot.start (e : Slot) : Nat := fld e.1 32 32
def Slot.flits (e : Slot) : Nat := fld e.2 0 16
def Slot.eng (e : Slot) : Nat := fld e.2 16 4
def Slot.edie (e : Slot) : Nat := fld e.2 20 2
def Slot.tokref (e : Slot) : Nat := fld e.2 22 16

/-- The end of a window: the plan boundary before this tick of the step. -/
def Slot.stop (e : Slot) : Nat := e.start + e.window

/-- Positions of a control slot: 0 encodes 4,096. -/
def Slot.positions (e : Slot) : Nat := if fld e.2 0 12 = 0 then 4096 else fld e.2 0 12

/-- The slots of a share. -/
def Share.slots (t : Share) : List (Nat × Slot) := (List.range t.nslot).map fun i => (i, t.slot i)

/-- The control slots of a share. -/
def Share.controls (t : Share) : List (Nat × Slot) := t.slots.filter fun x => decide (x.2.kind = 3)

/-- The closing slot: the control slot that ends last (R281, R286). -/
def Share.closing (t : Share) : Option Nat :=
  (t.controls.foldl (fun (b : Option (Nat × Nat)) x =>
    match b with
    | some (_, e) => if e < x.2.stop then some (x.1, x.2.stop) else b
    | none => some (x.1, x.2.stop)) none).map (·.1)

/-! ### Plan time (R280) -/

/-- The share of a client's loaded plate set. -/
def shareOf (s : State) (c : Nat) : Share := (((getClient s c).set).map (·.tt)).getD []

/-- Plan ticks of a run after t fabric ticks, its switched-out ticks apart: each stretch, in rising order of its plan tick
e, puts k ticks before boundary e. -/
def planAfter (l : List (Nat × Nat)) (t : Nat) : Nat :=
  l.foldl (fun b x => if x.1 + x.2 ≤ b then b - x.2 else min b (x.1 - 1)) t

/-- Stretches in rising order of plan tick. -/
def insStretch (x : Nat × Nat) : List (Nat × Nat) → List (Nat × Nat)
  | [] => [x]
  | y :: l => if x.1 < y.1 then x :: y :: l else y :: insStretch x l

/-- Whether a run has reached its start tick. -/
def runBegun (s : State) (r : Run) : Bool := decide (r.start + r.out ≤ s.tick)

/-- The plan tick of a client: 0 before its run starts; the fabric tick where no run is in progress. -/
def planTick (s : State) (c : Nat) : Nat :=
  match (getClient s c).run with
  | none => s.tick
  | some r => if r.start + r.out ≤ s.tick then planAfter r.stretches (s.tick - r.start - r.out) else 0

/-- Whether the present fabric tick is one that a stretch has put in (R280). -/
def inStretch (s : State) (c : Nat) : Bool :=
  match (getClient s c).run with
  | none => false
  | some r =>
    let t := s.tick - r.start - r.out
    decide (r.start + r.out < s.tick) && decide (planAfter r.stretches t = planAfter r.stretches (t - 1))

/-- The plan tick at which the client's step begins. -/
def stepBase (s : State) (c : Nat) : Nat :=
  match (getClient s c).step with
  | some st => st.n * (shareOf s c).stepLen
  | none => 0

/-- The plan tick of the client, counted from its step's plan tick 0. -/
def stepTick (s : State) (c : Nat) : Nat := planTick s c - stepBase s c

/-- Changing a client's step in progress. -/
def updStep (c : Nat) (f : StepSt → StepSt) (s : State) : State :=
  match (getClient s c).step with
  | some st => setClient c { getClient s c with step := some (f st) } s
  | none => s

/-- Whether a slot's window is open. -/
def slotOpen (s : State) (c slot : Nat) : Bool :=
  match (getClient s c).step with
  | some st => st.opened.contains slot && !st.ended.contains slot
  | none => false

/-- Whether a send slot's engine may send: its window has opened, and, where it has ended, its transfer is not complete and
keeps the port (R283, R289). -/
def slotLive (s : State) (c slot : Nat) : Bool :=
  match (getClient s c).step with
  | some st => st.opened.contains slot && (!st.ended.contains slot || !st.doneTx.contains slot)
  | none => false

/-- Whether any window of a client is open. -/
def anyOpen (s : State) (c : Nat) : Bool :=
  match (getClient s c).step with
  | some st => st.opened.any fun i => !st.ended.contains i
  | none => false

/-- Whether every plate of a client is done: every engine of its dies has run its plate to the end (R220). -/
def platesDone (s : State) (c : Nat) : Bool :=
  let cl := getClient s c
  ((List.range 4).filter (hasDie cl)).all fun d =>
    (enginesOf d).all fun e =>
      let g := getEng s e
      g.ended && g.win.isEmpty && g.words.isEmpty && (flightsOf s e).isEmpty

/-! ### Commits (R175, R176, R280) -/

/-- Whether a waiting commit's plan tick has begun; one held over from an earlier run waits for a run that has begun. -/
def commitDue (s : State) (x : CommitWait) : Bool :=
  decide (x.tick ≤ planTick s x.client) && (!x.held || (getClient s x.client).run.any (runBegun s))

/-- Applying the commits of a die whose plan tick has begun (R175). -/
def dueCommits (d : DieId) (s : State) : State :=
  let due := s.cat.commits.filter fun x => decide (x.die = d) && commitDue s x
  due.foldl (fun s x => commitStaged d x.client s)
    { s with cat := { s.cat with
      commits := s.cat.commits.filter fun x => !(decide (x.die = d) && commitDue s x) } }

/-- The commits of a client whose run ends: those not yet applied are for its next run, and count in that run's plan ticks
(R260, log 15). -/
def keepCommits (c base : Nat) (s : State) : State :=
  { s with cat := { s.cat with commits := s.cat.commits.map fun x =>
      if x.client = c then { x with tick := x.tick - base, held := true } else x } }

/-- A commit reaching a die: at its plan tick the client's staged writes apply. A tick that has begun makes it late; it
applies at the next tick, and its event is posted (R176). The flag says that it was late. -/
def queueCommit (d : DieId) (c tick : Nat) (s : State) : Bool × State :=
  let now := planTick s c
  let late := decide (tick ≤ now) && ((getClient s c).run.map (runBegun s)).getD true
  let s1 := if late then post 0x0205 c (d.val + 4 * c) s else s
  (late, { s1 with cat := { s1.cat with
    commits := s1.cat.commits ++ [{ die := d, client := c, tick := if late then now + 1 else tick }] } })

/-- CATALOG_COMMIT (R175, R176). -/
def execCatalogCommit (d : DieId) (c : ClientId) (tick : Nat) (s : State) : Host.Outcome State Fault Refusal :=
  .next (queueCommit d c.val tick s).2

end Sys2Proof.Machine
end

