-- ==== Sys2Proof/Machine/FabricOps.lean ====
section
/-! DEFINITION. Fabric ports and what engines hand them: flits of timetabled transfers, best-effort packets, link control messages (R266, R270, R282, R283, R292). -/

namespace Sys2Proof.Machine

/-- A port's state. -/
def getPort (s : State) (p : Nat) : Port := mget {} s.fabric.ports p

/-- Storing a port's state. -/
def setPort (p : Nat) (x : Port) (s : State) : State :=
  { s with fabric := { s.fabric with ports := mset {} s.fabric.ports p x } }

/-- The port that serves a port number: the spare it was mapped onto, or itself (R275). -/
def portFor (s : State) (p : Nat) : Nat := mget p s.wearS.portMap p

/-- A port's PORT_STATUS (R294). -/
def portStatus (p : Nat) : Nat := linkBlk (p / 8) (0x40 * (p % 8))

/-- STATE of a port: 2 is up (R294). -/
def portState (s : State) (p : Nat) : Nat := fld (getReg s (portStatus p)) 0 3

/-- Setting STATE of a port, and its bit of PORTS_UP. -/
def setPortState (p st : Nat) (s : State) : State :=
  let s1 := setReg (portStatus p) (setFld (getReg s (portStatus p)) 0 3 st) s
  setDict (dkey 0x5000 0x0C) (setFld (getDict s1 (dkey 0x5000 0x0C)) p 1 (b2n (st = 2))) s1

/-- PEERMOD and PEERPORT of a port (R268, R294). -/
def peerMod (s : State) (p : Nat) : Nat := fld (getReg s (portStatus p)) 6 12
def peerPort (s : State) (p : Nat) : Nat := fld (getReg s (portStatus p)) 18 5

/-- Whether a port has learned a peer: it is up, in recovery or failed after training. -/
def hasPeer (s : State) (p : Nat) : Bool := portState s p = 2 || portState s p = 3 || portState s p = 4

/-- Queueing a link control message at a port (R271). -/
def sendCtl (p : Nat) (m : Word × Word) (s : State) : State :=
  setPort p { getPort s p with ctl := (getPort s p).ctl ++ [m] } s

/-- A link control message whose layout the spec does not give past MTYPE: its other bits are open (log 4). -/
def openMsg (mtype : Nat) (s : State) : (Word × Word) × State :=
  let (a, s1) := fresh s
  let (b, s2) := fresh s1
  ((setFld a 0 8 mtype, b), s2)

/-- The ports of a client's partition: those its timetable names (R230, R290). -/
def partitionPorts (s : State) (c : Nat) : List Nat :=
  let t := shareOf s c
  let used := t.slots.flatMap fun x =>
    if x.2.kind = 3 then [] else if x.2.kind = 2 then [x.2.port, x.2.inport] else [x.2.port]
  (List.range 32).filter fun p => used.contains p || decide (t.cparent = p) || t.cchild.testBit p

/-- Flooding a message to every port of the partition but one (R230, R290). -/
def flood (c : Nat) (but : Option Nat) (m : Word × Word) (s : State) : State :=
  (partitionPorts s c).foldl (fun s p => if but = some p then s else sendCtl (portFor s p) m s) s

/-! ### Transfers (R282, R283) -/

/-- A transfer record of a DMA transfer (R282). -/
def transferRecord (s : State) (dh ddie doff bytes : Nat) (dmode unit : Bool) : List Byte :=
  leBytes 8 (4 * dh + 2 ^ 14 * ddie + 2 ^ 16 * doff + 2 ^ 52 * (moduleId s % 4096)) ++
  leBytes 8 (bytes + 2 ^ 32 * b2n dmode + 2 ^ 33 * b2n unit)

/-- Fields of a transfer record, from its bytes (R282). -/
def recKind (h : List Byte) : Nat := leNat (h.take 8) % 4
def recName (h : List Byte) : Nat := leNat (h.take 8) / 2 ^ 14 % 4 * 4096 + leNat (h.take 8) / 4 % 4096
def recOff (h : List Byte) : Nat := leNat (h.take 8) / 2 ^ 16 % 2 ^ 36
def recMod (h : List Byte) : Nat := leNat (h.take 8) / 2 ^ 52 % 4096
def recFixed (h : List Byte) : Bool := (leNat ((h.drop 8).take 8)).testBit 32
def recUnit (h : List Byte) : Nat := if (leNat ((h.drop 8).take 8)).testBit 33 then 64 else 8

/-- Flits of a transfer of n data bytes (R282). -/
def flitCount (n : Nat) : Nat := cdiv (n + 16) 242

/-- Cutting flits off the bytes of a transfer: 242 each, the last one short. -/
def cutFlits (x : Tx) : Nat → Tx × List Flit
  | 0 => (x, [])
  | n + 1 =>
    if x.data.length < 242 ∧ ¬ (x.left = 0 ∧ x.data ≠ []) then (x, [])
    else
      let rest := x.data.drop 242
      let f : Flit := { ftype := 1, last := decide (x.left = 0 ∧ rest = []), slot := x.slot, fidx := x.made,
                        client := x.client, data := x.data.take 242, owner := x.id }
      let (y, fs) := cutFlits { x with data := rest, made := x.made + 1 } n
      (y, f :: fs)

/-- Giving bytes to a transfer: whole flits go to its port (R283). -/
def feedTx (slot client : Nat) (bs : List Byte) (s : State) : State :=
  match s.fabric.tx.find? fun x => decide (x.slot = slot) && decide (x.client = client) with
  | none => s
  | some x =>
    let x1 := { x with data := x.data ++ bs, left := x.left - bs.length }
    let (x2, fs) := cutFlits x1 (x1.data.length + 1)
    let s1 := { s with fabric := { s.fabric with
      tx := s.fabric.tx.map fun y => if y.slot = slot ∧ y.client = client then x2 else y } }
    setPort x.port { getPort s1 x.port with tt := (getPort s1 x.port).tt ++ fs } s1

/-- Beginning a transfer in a send slot, with its header and the data bytes to follow. -/
def beginTx (slot client port : Nat) (e : Eng) (id : Nat) (hdr : List Byte) (bytes : Nat) (s : State) : State :=
  feedTx slot client hdr { s with fabric := { s.fabric with
    tx := s.fabric.tx ++ [{ slot := slot, client := client, eng := e, id := id, port := port, left := hdr.length + bytes }] } }

/-- Whether every flit and packet of a command has left and been acknowledged (R283, R295). -/
def ownerQuiet (s : State) (id : Nat) : Bool :=
  !(s.fabric.ports.any fun p => (p.2.tt ++ p.2.be ++ p.2.replay).any fun f => decide (f.owner = id)) &&
  !(s.fabric.packets.any fun p => decide (p.owner = id)) &&
  !(s.fabric.tx.any fun x => decide (x.id = id) && decide (x.left ≠ 0 ∨ x.data ≠ []))

/-- Noting that the transfer of a slot is complete at this module (R283). -/
def slotDone (c slot : Nat) (s : State) : State :=
  updStep c (fun st => if st.doneTx.contains slot then st else { st with doneTx := st.doneTx ++ [slot] }) s

/-- Forgetting the transfers of a command that is done: they are complete at the sender (R283). -/
def endTx (id : Nat) (s : State) : State :=
  let s1 := (s.fabric.tx.filter fun x => decide (x.id = id)).foldl (fun s x => slotDone x.client x.slot s) s
  { s1 with fabric := { s1.fabric with tx := s1.fabric.tx.filter fun x => decide (x.id ≠ id) } }

/-- Dropping a client's unsent timetabled flits and transfers: an aborted step sends no more (R230). -/
def dropTx (c : Nat) (s : State) : State :=
  { s with fabric := { s.fabric with
      tx := s.fabric.tx.filter (fun x => decide (x.client ≠ c)),
      rx := s.fabric.rx.filter (fun x => decide (x.client ≠ c)),
      ports := (s.fabric.ports.map (fun p => (p.1, { p.2 with tt := p.2.tt.filter (fun f => decide (f.client ≠ c)) }))).filter
        (fun p => decide (p.2 ≠ {})) } }

/-- A packet waiting to leave on best effort (R292). -/
def addPacket (p : Packet) (s : State) : State :=
  { s with fabric := { s.fabric with packets := s.fabric.packets ++ [p] } }

/-- Data bytes that a best-effort packet holds beside its transfer record. -/
def packetRoom : Nat := 16 * 242 - 16

end Sys2Proof.Machine
end

