-- ==== Sys2Proof/Machine/Stats.lean ====
section
/-! DEFINITION. Draws, narrowing of rows, statistics slots and governor flags: what every producer shares (R41, R47, R54, R130 to R132, R135, R136, R144, R145, R252, R262). -/

namespace Sys2Proof.Machine

/-! ### Draws (R130 to R132, R135) -/

/-- Rotation of a 32-bit number to the left. -/
def rotl (x n : Nat) : Nat := (x * 2 ^ n + x / 2 ^ (32 - n)) % 2 ^ 32

/-- The working words of lane_draw: x0 to x3, k0, k1. -/
structure DrawSt where
  x0 : Nat
  x1 : Nat
  x2 : Nat
  x3 : Nat
  k0 : Nat
  k1 : Nat
  deriving DecidableEq, Repr

/-- One round of lane_draw (R132). -/
def drawRound (d : DrawSt) : DrawSt :=
  let x0 := (d.x0 + d.x1 + d.k0) % 2 ^ 32
  let x3 := rotl (d.x3 ^^^ x0) 16
  let x2 := (d.x2 + x3 + d.k1) % 2 ^ 32
  let x1 := rotl (d.x1 ^^^ x2) 12
  let x0' := (x0 + x1) % 2 ^ 32
  let x3' := rotl (x3 ^^^ x0') 8
  let x2' := (x2 + x3') % 2 ^ 32
  let x1' := rotl (x1 ^^^ x2') 7
  { x0 := x0', x1 := x1', x2 := x2', x3 := x3',
    k0 := (d.k0 + 0x9E3779B9) % 2 ^ 32, k1 := (d.k1 + 0x6A09E667) % 2 ^ 32 }

/-- Word i of lane_draw (R132); key of 64 bits, counter of 128. -/
def laneDraw (key ctr i : Nat) : Nat :=
  let c (k : Nat) : Nat := ctr / 2 ^ (32 * k) % 2 ^ 32
  let d := (List.range 10).foldl (fun d _ => drawRound d)
    { x0 := c 0, x1 := c 1, x2 := c 2, x3 := c 3, k0 := key % 2 ^ 32, k1 := key / 2 ^ 32 % 2 ^ 32 }
  ((match i % 4 with | 0 => d.x0 | 1 => d.x1 | 2 => d.x2 | _ => d.x3) + c (i % 4)) % 2 ^ 32

/-- The counter of R130. -/
def drawCtr (step mb layer tensor draw elem : Nat) : Nat :=
  step % 2 ^ 32 * 2 ^ 96 + mb % 2 ^ 12 * 2 ^ 84 + layer % 2 ^ 16 * 2 ^ 68 + tensor % 2 ^ 8 * 2 ^ 60 +
  draw % 2 ^ 12 * 2 ^ 48 + elem % 2 ^ 48

/-- The job seed of a client: the key of its draws (R132). -/
def seedOf (s : State) (client : Nat) : Nat := ((getClient s client).seed).getD 0

/-- A draw context of a Hatch lane or command: DCTX0 and DCTX1. -/
structure Dctx where
  d0 : Word
  d1 : Word
  deriving DecidableEq, Repr

/-- The draw of a destination element (R135). -/
def elemDraw (seed step : Nat) (x : Dctx) (row col : Nat) : Nat :=
  laneDraw seed (drawCtr step (fld x.d0 0 12) (fld x.d0 12 16) (fld x.d0 28 8) 0
    (fld x.d1 0 48 + row * fld x.d0 36 28 + col)) 0

/-- How a destination rounds its element at (row, col) (R46, R135). -/
def elemRnd (f : Fmt) (seed step : Nat) (x : Dctx) (row col : Nat) : Rnd :=
  if f.rnd then .sr (elemDraw seed step x row col) else .rne

/-! ### Narrowing (R54, R136) -/

/-- The number behind a value. -/
def DVal.fval : DVal → FVal
  | .nan => .nan
  | .inf n => .inf n
  | .sat n m => .fin n m
  | .num n m => .fin n m

/-- Whether the SAT row of R54 decides a value. -/
def DVal.isSat : DVal → Bool
  | .sat _ _ => true
  | _ => false

/-- A finite or special element value as a value to narrow. -/
def DVal.ofF : FVal → DVal
  | .nan => .nan
  | .inf n => .inf n
  | .fin n m => .num n m

/-- A value times a positive or negative exact number. -/
def DVal.scale (v : DVal) (x : Rat) : DVal :=
  match v with
  | .nan => .nan
  | .inf n => .inf (n != decide (x < 0))
  | .sat n m => .sat (n != decide (x < 0)) (m * rabs x)
  | .num n m => .num (n != decide (x < 0)) (m * rabs x)

/-- What one measured element adds to a fold (R144, R145). -/
def foldElem (f : Fold) (q : FVal) : Fold :=
  match q with
  | .fin _ m =>
    if m = 0 then { f with elems := f.elems + 1, zeros := f.zeros + 1 }
    else { f with elems := f.elems + 1, amax := if f.amax < m then m else f.amax, exps := ilog2 m :: f.exps }
  | _ => { f with elems := f.elems + 1, nonfin := f.nonfin + 1 }

/-- Two folds of one operation together. -/
def Fold.add (a b : Fold) : Fold :=
  { amax := if a.amax < b.amax then b.amax else a.amax, elems := a.elems + b.elems, zeros := a.zeros + b.zeros,
    flushed := a.flushed + b.flushed, sats := a.sats + b.sats, viols := a.viols + b.viols,
    srcViols := a.srcViols + b.srcViols, nonfin := a.nonfin + b.nonfin, exps := b.exps ++ a.exps }

/-- A narrowed run of a row: element codes, padded to whole blocks, the blocks, and what it counts. -/
structure RowOut where
  codes : List Nat
  blocks : List Block
  fold : Fold
  wsat : Bool
  deriving DecidableEq, Repr

/-- Narrowing a run of values into format f with tensor scale t (R41, R44 to R50, R54, R136). cnt i says that lane i is an
element, not padding nor a discarded place: the others are written as +0 and count nothing (R35, R123, R242). -/
def narrowRun (f : Fmt) (t : Rat) (rnd : Nat → Rnd) (cnt : Nat → Bool) (vs : List DVal) : RowOut :=
  let us := vs.mapIdx fun i v => if cnt i then v.scale (1 / t) else .num false 0
  let fold0 := (List.range us.length).foldl (fun g i => if cnt i then foldElem g (nth .nan us i).fval else g) ({} : Fold)
  let wsat := (List.range us.length).any fun i => cnt i && (nth .nan us i).isSat
  if elemWide f.elem then
    let cs := us.mapIdx fun i v => convAt f (rnd i) v.isSat v.fval
    { codes := cs.map (·.code), blocks := [], wsat := wsat,
      fold := { fold0 with sats := cs.countP (·.sat), flushed := cs.countP (·.flushed) } }
  else
    let b := f.blk
    let bs := (List.range (cdiv us.length b)).map fun j =>
      let part := (us.drop (b * j)).take b
      let full := part ++ List.replicate (b - part.length) (DVal.num false 0)
      narrowBlock f (fun i => rnd (b * j + i)) (full.map (·.fval)) (fun i => (nth .nan full i).isSat)
    { codes := bs.flatMap (·.codes), blocks := bs, wsat := wsat,
      fold := { fold0 with
        sats := bs.foldl (fun n k => n + k.sats) 0
        flushed := bs.foldl (fun n k => n + k.flushed) 0
        viols := bs.countP (·.viol) } }

/-! ### Statistics slots (R144, R145) -/

/-- Setting SATD of a slot, with its event, the first time (R145). -/
def slotStuck (d slot : Nat) (s : State) : State :=
  if bit (getReg s (statBlk d slot 0)) 16 then s
  else post 0x0207 16 (statBlk d slot 0) (setBit (statBlk d slot 0) 16 s)

/-- Adding n to word k of a slot, which sticks at its largest value (R145). -/
def slotAdd (d slot k n : Nat) (s : State) : State :=
  if n = 0 then s
  else
    let a := statBlk d slot (8 * k)
    let v := getReg s a
    let s1 := setReg a (stickyAdd 64 v n) s
    if v.toNat + n < 2 ^ 64 then s1 else slotStuck d slot s1

/-- The histogram base of a slot. -/
def slotHBase (s : State) (d slot : Nat) : Int := toSigned 16 (fld (getReg s (statBlk d slot 0)) 0 16)

/-- The bin of an exponent (R145). -/
def binOf (hbase e : Int) : Nat := if e - hbase ≤ 0 then 0 else if 63 ≤ e - hbase then 63 else (e - hbase).toNat

/-- Folding an operation's statistics into a slot as one update (R144, R145). -/
def foldStats (d slot : Nat) (f : Fold) (s : State) : State :=
  let hb := slotHBase s d slot
  let a1 := statBlk d slot 8
  let am := max (fld (getReg s a1) 0 32) (f32Up f.amax)
  let s1 := setReg a1 (BitVec.ofNat 64 am) s
  let s2 := slotAdd d slot 2 f.elems s1
  let s3 := slotAdd d slot 3 f.zeros s2
  let s4 := slotAdd d slot 4 f.flushed s3
  let s5 := slotAdd d slot 5 f.sats s4
  let s6 := slotAdd d slot 6 f.viols s5
  let s7 := slotAdd d slot 7 f.srcViols s6
  let s8 := slotAdd d slot 8 f.nonfin s7
  let s9 := slotAdd d slot 9 1 s8
  (List.range 64).foldl (fun s b => slotAdd d slot (10 + b) (f.exps.countP fun e => decide (binOf hb e = b)) s) s9

/-- Whether a slot has a stuck counter (R145). -/
def slotSatd (s : State) (d slot : Nat) : Bool := bit (getReg s (statBlk d slot 0)) 16

/-- Whether a slot belongs to a client (R349). -/
def slotOwned (s : State) (client slot : Nat) : Bool :=
  let c := getClient s client
  decide (c.statFirst ≤ slot) && decide (slot < c.statFirst + c.statNum)

/-! ### Governor flags (R252, R262) -/

/-- Bits of a governor flag word. -/
def gViol : Nat := 1
def gBsat : Nat := 2
def gUnder : Nat := 4
def gWsat : Nat := 8

/-- Setting governor flags of a slot (R252). -/
def govFlag (d slot bits : Nat) (s : State) : State :=
  if bits = 0 then s else orReg (govBlk d slot) (BitVec.ofNat 64 (bits * 256)) s

/-- BSLIM of a slot (R252). -/
def bsLim (s : State) (d slot : Nat) : Nat := fld (getReg s (govBlk d slot)) 0 8

/-- Whether the governor is enabled (R265). -/
def govEnable (s : State) : Bool := decide (getDict s (dkey 0x6000 0x01) ≠ 0)

/-- Whether a tensor record of an enabled layer names a slot of die d (R262). -/
def slotGoverned (s : State) (client d slot : Nat) : Bool :=
  match govOf s client with
  | none => false
  | some g => govEnable s && (List.range (govNL s g)).any fun l =>
      layerEnable s g l && (layerTensors s g l).any fun r => decide (fld r.2 0 2 = d) && decide (fld r.2 2 10 = slot)

/-- The governor flags of a producer's run of blocks (R252). -/
def runFlags (s : State) (d slot : Nat) (r : RowOut) : Nat :=
  (if r.fold.viols ≠ 0 then gViol else 0) +
  (if bsLim s d slot ≠ 255 ∧ r.blocks.any (fun b => decide (bsLim s d slot < b.sats)) then gBsat else 0) +
  (if r.wsat then gWsat else 0)

/-- Raising the flags of a producer's run, the scope bit of a violation that no enabled layer governs (R252, R262), and
SATURATED where the SAT row of R54 decided a value. -/
def producerFlags (client d slot bits : Nat) (r : RowOut) (s : State) : State :=
  let s1 := govFlag d slot (runFlags s d slot r ||| bits) s
  let s2 := if r.fold.viols ≠ 0 ∧ ¬ slotGoverned s client d slot then setScope client scViolation s1 else s1
  if r.wsat then setScope client scSaturated s2 else s2

/-- A consumer's out-of-window scales read through a handle set VIOL of its slot (R42, R252). -/
def consumerViol (d slot n : Nat) (s : State) : State := if n = 0 then s else govFlag d slot gViol s

/-- Scales outside a format's window among those a consumer uses (R40, R42). -/
def countOut (f : Fmt) (scales : List Nat) : Nat :=
  if elemWide f.elem then 0 else scales.countP fun v => outOfWindow f.wlo v

end Sys2Proof.Machine
end

