-- ==== Sys2Proof/Machine/AccMath.lean ====
section
/-! DEFINITION. The arithmetic of a streamed row: products, rescale stages, the 192-bit column value and the accumulator entry (R67 to R75). -/

namespace Sys2Proof.Machine

/-- The weight exponent of a narrow format's smallest non-zero magnitude (R70). -/
def elemLsb : Elem → Int
  | .e4m3 => -9 | .e5m2 => -16 | .e3m2 => -4 | .e2m3 => -3 | .e2m1 => -1 | .int8 => 0 | .int4 => 0
  | .bf16 => -133 | .fp16 => -24 | .fp32 => -149

/-- The base L of a narrow pass (R70). -/
def baseL (x w : Fmt) : Int := elemLsb x.elem + elemLsb w.elem + ((x.wlo : Int) - 127) + ((w.wlo : Int) - 127)

/-- The rescale interval in bands that the operands determine (R68): 1 in a wide pass. -/
def rescaleBands (x w : Fmt) (top : Bool) : Nat :=
  if elemWide x.elem then 1 else if top then x.blk / 16 else min x.blk w.blk / 16

/-- Rounding a quotient of integers to nearest even: v / 2^k (R72). -/
def shiftRne (v : Int) (k : Nat) : Int :=
  let q := v / (2 ^ k : Nat)
  let r := v % (2 ^ k : Nat)
  if 2 * r > (2 ^ k : Nat) then q + 1 else if 2 * r = (2 ^ k : Nat) then q + q % 2 else q

/-- A value shifted left by d bits; to the right with rounding to nearest even for d below 0 (R69, R72). -/
def shiftBy (v d : Int) : Int := if 0 ≤ d then v * (2 ^ d.toNat : Nat) else shiftRne v (-d).toNat

/-- The bounds of a 192-bit value (R73). -/
def accMax : Int := 2 ^ 191 - 1
def accMin : Int := -2 ^ 191

/-- A column value on its way down: its number, and whether it saturated (R73). -/
structure ColVal where
  val : Int := 0
  sat : Bool := false
  deriving DecidableEq, Repr

/-- Adding a block partial to a column value (R73). -/
def ColVal.add (c : ColVal) (p : Int) : ColVal :=
  if c.sat then c
  else
    let v := c.val + p
    if accMax < v then ⟨accMax, true⟩ else if v < accMin then ⟨accMin, true⟩ else ⟨v, false⟩

/-- What a product of two elements gives (R74). -/
inductive Prod where
  | val (x : Rat)
  | nan
  | inf (neg : Bool)
  deriving DecidableEq, Repr

/-- The product of two elements, with blocks of scale 255 read as NaN (R74). -/
def prodOf (x w : FVal) : Prod :=
  match x, w with
  | .nan, _ => .nan
  | _, .nan => .nan
  | .inf a, .inf b => .inf (a != b)
  | .inf a, .fin b m => if m = 0 then .nan else .inf (a != b)
  | .fin a m, .inf b => if m = 0 then .nan else .inf (a != b)
  | .fin a m, .fin b n => .val (if a != b then -(m * n) else m * n)

/-- A column's result of one row: its value and what its products counted. -/
structure ColRes where
  val : ColVal := {}
  nan : Bool := false
  pinf : Bool := false
  ninf : Bool := false
  nonfin : Nat := 0
  under : Nat := 0
  deriving DecidableEq, Repr

/-- Marking the flag of a non-finite product. -/
def ColRes.flag (r : ColRes) (p : Prod) : ColRes :=
  match p with
  | .val _ => r
  | .nan => { r with nan := true, nonfin := r.nonfin + 1 }
  | .inf false => { r with pinf := true, nonfin := r.nonfin + 1 }
  | .inf true => { r with ninf := true, nonfin := r.nonfin + 1 }

/-- The element at position k of a row or line as an encoded value: +0 beyond its end; NaN in a block of scale 255. -/
def lineElem (f : Fmt) (l : Line) (k : Nat) : FVal :=
  if !elemWide f.elem && decide (nth f.wlo l.scales (k / f.blk) = 255) then .nan
  else match l.codes[k]? with
    | some c => decodeElem f.elem c
    | none => .fin false 0

/-- The scale of the block that holds position k. -/
def lineScale (f : Fmt) (l : Line) (k : Nat) : Int := (nth f.wlo l.scales (k / f.blk) : Nat)

/-- The stationary operand of cell (k, n): the line and the position in it (R60). -/
def statElem (w : Stat) (k n : Nat) : FVal :=
  if w.top then lineElem w.fmt (nth ⟨[], []⟩ w.lines k) n else lineElem w.fmt (nth ⟨[], []⟩ w.lines n) k

/-- The stationary block scale that applies in cell (k, n). -/
def statScale (w : Stat) (k n : Nat) : Int :=
  if w.top then lineScale w.fmt (nth ⟨[], []⟩ w.lines k) n else lineScale w.fmt (nth ⟨[], []⟩ w.lines n) k

/-- An exact product as a whole number of units of 2^e. -/
def inUnits (x : Rat) (e : Int) : Int := (x * pow2 (-e)).floor

/-- Column n of a narrow row (R67 to R69, R72 to R74). -/
def narrowCol (xf : Fmt) (x : Line) (w : Stat) (n : Nat) : ColRes :=
  let lsb := elemLsb xf.elem + elemLsb w.fmt.elem
  let bl := if w.top then xf.blk else min xf.blk w.fmt.blk
  (List.range (cdiv w.k bl)).foldl (fun (r : ColRes) j =>
    let k0 := j * bl
    let (p, r1) := (List.range (min bl (w.k - k0))).foldl (fun (acc : Int × ColRes) i =>
      let k := k0 + i
      match prodOf (lineElem xf x k) (statElem w k n) with
      | .val v =>
        let u := inUnits v lsb
        (acc.1 + (if w.top then shiftBy u (statScale w k n - w.fmt.wlo) else u), acc.2)
      | q => (acc.1, acc.2.flag q)) (0, r)
    let d := lineScale xf x k0 - xf.wlo + (if w.top then 0 else statScale w k0 n - w.fmt.wlo)
    { r1 with val := r1.val.add (shiftBy p d) }) {}

/-- Column n of a wide row with anchor a (R73 to R75): band by band, each product rounded to a multiple of 2^a. -/
def wideCol (a : Int) (xf : Fmt) (x : Line) (w : Stat) (n : Nat) : ColRes :=
  (List.range (cdiv w.k 16)).foldl (fun (r : ColRes) b =>
    let (p, r1) := (List.range (min 16 (w.k - 16 * b))).foldl (fun (acc : Int × ColRes) i =>
      let k := 16 * b + i
      match prodOf (lineElem xf x k) (statElem w k n) with
      | .val v =>
        let q := v * pow2 (-a)
        let u : Int := if q < 0 then -(roundUnits .rne (-q) : Int) else roundUnits .rne q
        (acc.1 + u, if (u : Rat) = q then acc.2 else { acc.2 with under := acc.2.under + 1 })
      | q => (acc.1, acc.2.flag q)) (0, r)
    { r1 with val := r1.val.add p }) {}

/-- One row through a stationary tile: a result for each column below N'. -/
def rowResults (anchor : Int) (xf : Fmt) (x : Line) (w : Stat) : List ColRes :=
  (List.range w.n).map fun n => if elemWide xf.elem then wideCol anchor xf x w n else narrowCol xf x w n

/-- The number of an entry. -/
def AccEntry.num (e : AccEntry) : Int := toSigned 192 e.val.toNat

/-- A number as an entry's bits. -/
def accBits (v : Int) : BitVec 192 := BitVec.ofNat 192 (ofSigned 192 v)

/-- Adding a column's result to an entry, or writing it (R73, R74); the flag says that the entry saturated now. -/
def accAdd (write : Bool) (e0 : AccEntry) (r : ColRes) : AccEntry × Bool :=
  let e1 := if write then ({} : AccEntry) else e0
  let e := { e1 with nan := e1.nan || r.nan, pinf := e1.pinf || r.pinf, ninf := e1.ninf || r.ninf }
  if e.sat then (e, false)
  else if r.val.sat then ({ e with val := accBits r.val.val, sat := true }, true)
  else
    let v := e.num + r.val.val
    if accMax < v then ({ e with val := accBits accMax, sat := true }, true)
    else if v < accMin then ({ e with val := accBits accMin, sat := true }, true)
    else ({ e with val := accBits v }, false)

/-- Whether an entry holds a non-finite flag. -/
def AccEntry.special (e : AccEntry) : Bool := e.nan || e.pinf || e.ninf

/-- The value of an entry as a drain converts it (R54, R77): x is its number in the units of the drain. -/
def accVal (e : AccEntry) (unit : Rat) : DVal :=
  let v : Rat := (e.num : Rat) * unit
  if e.nan ∨ (e.pinf ∧ e.ninf) then .nan
  else if e.pinf then .inf false
  else if e.ninf then .inf true
  else if e.sat then .sat (decide (e.num < 0) != decide (unit < 0)) (rabs v)
  else .num (decide (v < 0)) (rabs v)

/-- Errors of a guarded accumulator word as it is read (R80): what the decoder makes of flipped bits. -/
structure ReadErr where
  mask : BitVec 64
  corrected : Bool
  bad : Bool
  deriving DecidableEq, Repr

/-- Decoding the flips of a guarded word: bits that remain wrong, whether it was corrected, whether it is lost (R328). -/
def readErr (flips : BitVec 80) : ReadErr :=
  let f := flips.setWidth 64
  match eccDecode (syndOf flips) with
  | .clean => ⟨f, false, false⟩
  | .fixed m => ⟨f ^^^ m, true, false⟩
  | .bad => ⟨0, false, true⟩

/-- An entry read with an upset in its word k (0 to 2) or in its flags (3), by the place of the flags in their word. -/
def accUpset (e : AccEntry) (k slot : Nat) (r : ReadErr) : AccEntry :=
  if r.bad then { e with nan := true }
  else if k < 3 then { e with val := e.val ^^^ (r.mask.setWidth 192 <<< (64 * k)) }
  else
    { e with nan := e.nan != bit r.mask (4 * slot), pinf := e.pinf != bit r.mask (4 * slot + 1),
             ninf := e.ninf != bit r.mask (4 * slot + 2), sat := e.sat != bit r.mask (4 * slot + 3) }

end Sys2Proof.Machine
end

