-- ==== Sys2Proof/Machine/StreamOps.lean ====
section
/-! DEFINITION. Stream operations: record rows, run-ahead, delivery to consumers, pushes, faults (R201 to R214). -/

namespace Sys2Proof.Machine

/-! ### Descriptor fields (R197) -/

def Desc.dir (d : Desc) : Nat := fld d.w0 6 2
def Desc.imode (d : Desc) : Nat := fld d.w0 8 2
def Desc.consume (d : Desc) : Bool := bit d.w0 10 && decide (d.dir = 0)
def Desc.hdie (d : Desc) : Nat := fld d.w0 24 2
def Desc.name (d : Desc) : Nat := d.hdie * 4096 + fld d.w0 12 12
def Desc.sstr (d : Desc) : Nat := fld d.w0 26 6
def Desc.pages (d : Desc) : Nat := fld d.w0 32 9
def Desc.rate (d : Desc) : Nat := fld d.w0 41 16
def Desc.row0 (d : Desc) : Nat := fld d.w1 0 32
def Desc.rstride (d : Desc) : Int := toSigned 32 (fld d.w1 32 32)
def Desc.col0 (d : Desc) : Nat := fld d.w2 0 16
def Desc.reclen (d : Desc) : Nat := fld d.w2 16 17
def Desc.count (d : Desc) : Nat := fld d.w3 0 32
def Desc.ioff (d : Desc) : Nat := fld d.w4 0 36
def Desc.lname (d : Desc) : Nat := d.hdie * 4096 + fld d.w4 36 12

/-- A format that stands where a handle has none. -/
def noFmt : Fmt := { elem := .fp32, blk := 16, ovf := false, rnd := false, wlo := 0 }

/-- The format of an entry. -/
def Entry.fmtD (e : Entry) : Fmt := e.fmt.getD noFmt

def Desc.fmt (d : Desc) : Fmt := d.ent.fmtD

/-- Whether the descriptor's format carries block scales. -/
def Desc.narrow (d : Desc) : Bool := !elemWide d.fmt.elem

/-- Elements of the descriptor. -/
def Desc.total (d : Desc) : Nat := d.count * d.reclen

/-- Blocks of one record (R204). -/
def Desc.recBlocks (d : Desc) : Nat := d.reclen / d.fmt.blk

/-- Units that consumers take from the descriptor: elements of a data stream, scales of a scale stream. -/
def Desc.units (d : Desc) : Nat := if d.dir = 2 then d.count * d.recBlocks else d.total

/-- Records that consumers have taken or pushes have filled (R217). -/
def Desc.doneRecs (d : Desc) : Nat :=
  if d.dir = 1 then d.pushed / d.reclen
  else if d.dir = 2 then d.taken / d.recBlocks else d.taken / d.reclen

/-! ### Records (R201) -/

/-- What record_row answers. -/
inductive RowRes where
  | row (r : Nat)
  | null
  | oor (x : Nat)
  | poison
  deriving DecidableEq, Repr

/-- The row of an index value (R201). -/
def rowOfIndex (d : Desc) (x : Nat) : RowRes :=
  let r : Int := (d.row0 : Int) + (x : Int) * d.rstride
  if r < 0 ∨ (d.ent.rowsTotal : Int) ≤ r then .oor x else .row r.toNat

/-- record_row of R201, where the indices already fetched decide it. -/
def recRow (d : Desc) (i : Nat) : Option RowRes :=
  if d.imode = 0 then some (rowOfIndex d i)
  else match mget none d.idx i with
    | some (.val x) => some (if x = 0xFFFFFFFF then .null else rowOfIndex d x)
    | some (.oor x) => some (.oor x)
    | some .poison => some .poison
    | _ => none

/-- The index value of record i. -/
def recIndex (d : Desc) (i : Nat) : Nat :=
  if d.imode = 0 then i
  else match mget none d.idx i with
    | some (.val x) => x
    | some (.oor x) => x
    | _ => 0

/-- The ring slot of a row (R201). -/
def slotOfRow (d : Desc) (r : Nat) : Nat := if d.ent.slots = 0 then 0 else r / d.ent.rows

/-- Where the elements of a record on row r lie in the handle, as (offset, bytes). -/
def dataSpan (d : Desc) (r : Nat) : Nat × Nat :=
  (d.ent.rowOff d.fmt r + d.col0 * elemBits d.fmt.elem / 8, d.reclen * elemBits d.fmt.elem / 8)

/-- Where the scales of a record on row r lie. -/
def scaleSpan (d : Desc) (r : Nat) : Nat × Nat := (d.ent.scaleOff d.fmt r (d.col0 / d.fmt.blk), d.recBlocks)

/-- The lines a record on row r fetches: elements, scales, or both for a look-ahead copy. -/
def recLines (d : Desc) (r : Nat) : List (Nat × Nat) :=
  let dl := lineSpans (dataSpan d r).1 (dataSpan d r).2
  let sl := lineSpans (scaleSpan d r).1 (scaleSpan d r).2
  if d.dir = 2 then sl else if d.dir = 3 then dl ++ (if d.narrow then sl else []) else dl

/-! ### Stream state -/

/-- A stream. -/
def getStrm (x : StreamS) (n : Nat) : Strm := mget {} x.strms n

/-- Storing a stream. -/
def setStrm (x : StreamS) (n : Nat) (v : Strm) : StreamS := { x with strms := mset {} x.strms n v }

/-- Pages that a descriptor holds (R213). -/
def pagesOf : Option Desc → Nat
  | some d => if d.paged then d.pages else 0
  | none => 0

/-- Pages allotted in the tile (R213). -/
def pagesUsed (x : StreamS) : Nat := x.strms.foldl (fun n e => n + pagesOf e.2.active + pagesOf e.2.queued) 0

/-- Whether n more pages are free (R213). -/
def pagesFree (x : StreamS) (n : Nat) : Bool := decide (pagesUsed x + n ≤ 256)

/-- Bytes in the buffer of a descriptor that are not yet taken (R208). -/
def fillOf (d : Desc) : Nat :=
  d.recs.foldl (fun n r => n + r.parts.foldl (fun m p => m + p.2.length) 0) 0 -
  (if d.dir = 0 then d.taken % max 1 d.reclen * elemBits d.fmt.elem / 8
   else if d.dir = 2 then d.taken % max 1 d.recBlocks else 0)

/-- Bytes requested and not yet returned. -/
def inflightOf (x : StreamS) (d : Desc) : Nat := 64 * (x.reqs.filter fun r => decide (r.id = d.id)).length

/-- Pushed bytes not yet written (R208). -/
def pendingOf (d : Desc) : Nat := d.out.foldl (fun n p => n + p.bytes.length) 0

/-- Pages a descriptor may fill: its own, or those of the descriptor in front that it is to inherit (R212, R213). -/
def pageBytes (st : Strm) (d : Desc) : Nat :=
  4096 * (if d.paged then d.pages else match st.active with | some a => a.pages | none => d.pages)

/-- Whether every line of a record is in the buffer. -/
def RecBuf.complete (r : RecBuf) : Bool := decide (r.parts.length = r.want)

/-- A record in the buffer. -/
def findRec (d : Desc) (i : Nat) : Option RecBuf := d.recs.find? fun r => decide (r.i = i)

/-- Replacing a record in the buffer. -/
def putRec (d : Desc) (r : RecBuf) : Desc := { d with recs := d.recs.map fun q => if q.i = r.i then r else q }

/-! ### Run-ahead (R209, R210) -/

/-- Placing records that fetch nothing: null, poisoned and out-of-region ones; the count is of dropped prefetches. -/
def settleRecs (d : Desc) : Desc × Nat :=
  (List.range 512).foldl (fun (acc : Desc × Nat) _ =>
    let (d, n) := acc
    if d.dir = 1 ∨ d.count ≤ d.nRec ∨ d.nLine ≠ 0 ∨ 512 ≤ d.recs.length then (d, n)
    else
      let put (r : RecBuf) : Desc := { d with recs := d.recs ++ [r], nRec := d.nRec + 1 }
      match recRow d d.nRec with
      | some .null => (put { i := d.nRec, null := true }, n)
      | some .poison => (put { i := d.nRec, poison := true }, n)
      | some (.oor x) => (put { i := d.nRec, x := x, hole := true }, n + 1)
      | _ => (d, n)) (d, 0)

/-- Whether record i begins a new run of its ring slot whose earlier run still waits for its consuming read (R209). -/
def runBlocked (d : Desc) (i : Nat) : Bool :=
  d.consume && decide (d.ent.slots ≠ 0) &&
  match recRow d i with
  | some (.row r) =>
    match (List.range (i - d.nCons)).findRev? fun k =>
        match recRow d (d.nCons + k) with
        | some (.row q) => decide (slotOfRow d q = slotOfRow d r)
        | _ => false with
    | some k => decide (d.nCons + k + 1 ≠ i)
    | none => false
  | _ => false

/-- The next index request of a descriptor (R209). -/
def nextIndex (d : Desc) : Option (ReqKind × Desc) :=
  let lim := min d.count (d.doneRecs + 512)
  if d.imode = 0 ∨ lim ≤ d.nIdx then none
  else
    let cnt := min ((64 - (d.ioff + 4 * d.nIdx) % 64) / 4) (lim - d.nIdx)
    some (.index d.nIdx cnt, { d with nIdx := d.nIdx + cnt })

/-- The next second-level request (R209). -/
def nextSecond (d : Desc) : Option (ReqKind × Desc) :=
  match d.idx.find? fun e => match e.2 with | some (.half _) => true | _ => false with
  | some (i, some (.half x)) => some (.second i, { d with idx := mset none d.idx i (some (.asked x)) })
  | _ => none

/-- The next line of elements or scales (R209). -/
def nextData (x : StreamS) (st : Strm) (d : Desc) : Option (ReqKind × Desc) :=
  if d.dir = 1 ∨ d.count ≤ d.nRec then none
  else
    match recRow d d.nRec with
    | some (.row r) =>
      let ls := recLines d r
      let busy := fillOf d + inflightOf x d +
        (if d.paged then 0 else match st.active with | some a => fillOf a + inflightOf x a | none => 0)
      if pageBytes st d < busy + 64 ∨ (d.nLine = 0 ∧ runBlocked d d.nRec = true) then none
      else
        let d1 := if d.nLine = 0 then
            { d with recs := d.recs ++ [{ i := d.nRec, x := recIndex d d.nRec, want := ls.length : RecBuf }] } else d
        some (.data d.nRec d.nLine,
          if d.nLine + 1 < ls.length then { d1 with nLine := d.nLine + 1 } else { d1 with nRec := d.nRec + 1, nLine := 0 })
    | _ => none

/-- The next request of a descriptor: index words, second-level words, then data. -/
def nextReq (x : StreamS) (st : Strm) (d : Desc) : Option (ReqKind × Desc) :=
  match nextIndex d with
  | some r => some r
  | none => match nextSecond d with
    | some r => some r
    | none => nextData x st d

/-- A pushed piece is whole when it ends at a line's end or with its record. -/
def OutPiece.whole (p : OutPiece) : Bool := p.last || decide ((p.off + p.bytes.length) % 64 = 0)

/-- Whether an output stream has a whole pushed line that no grant covers yet (R208). -/
def outEligible (d : Desc) : Bool := ((d.out.drop d.granted).head?.map (·.whole)).getD false

/-- The last fetch of a descriptor has issued (R212). -/
def fetchDone (d : Desc) : Bool := decide (d.count ≤ d.nRec)

/-- A grant that a stream could use: whether the queued descriptor takes it, the descriptor after it, and its request
(none: an output line). -/
structure Grant where
  queued : Bool
  d : Desc
  req : Option ReqKind
  deriving Repr

/-- What a descriptor could use a grant for (R208, R209). -/
def grantOf (x : StreamS) (st : Strm) (q : Bool) (d : Desc) : Option Grant :=
  match nextReq x st d with
  | some (k, d') => some ⟨q, d', some k⟩
  | none => if d.dir = 1 ∧ outEligible d then some ⟨q, { d with granted := d.granted + 1 }, none⟩ else none

/-- Whether a queued descriptor fetches while the active one stands (R212). -/
def queuedFetches (a q : Desc) : Bool :=
  decide (q.mode = 2) || (decide (q.mode = 1) && fetchDone a)

/-- What stream n could use a grant for. -/
def streamGrant (x : StreamS) (n : Nat) : Option Grant :=
  let st := getStrm x n
  if st.fault ≠ 0 then none
  else match st.active with
    | none => none
    | some a => match grantOf x st false a with
      | some g => some g
      | none => match st.queued with
        | some q => if queuedFetches a q then grantOf x st true q else none
        | none => none

/-- tte of R208; none for a background stream. -/
def tteOf (x : StreamS) (n : Nat) : Option Int :=
  match (getStrm x n).active with
  | none => none
  | some d =>
    if d.rate = 0 then none
    else if d.dir = 0 ∨ d.dir = 2 then some (((fillOf d + inflightOf x d) * 64 / d.rate : Nat) : Int)
    else if d.dir = 1 then some (((d.pages * 4096 - pendingOf d) * 64 / d.rate : Nat) : Int)
    else some (((d.bytes * 64 / d.rate : Nat) : Int) - ((x.cycle - d.cycle0 : Nat) : Int))

/-- The stream that R208 picks next, with its tte: the rated one with the least tte, else the next background one. -/
def pickStream (x : StreamS) : Option (Nat × Option Int) :=
  let el := (List.range 64).filter fun n => (streamGrant x n).isSome
  let best := el.foldl (fun (acc : Option (Nat × Int)) n =>
    match tteOf x n, acc with
    | some v, none => some (n, v)
    | some v, some (m, w) => if v < w then some (n, v) else some (m, w)
    | none, a => a) none
  match best with
  | some (n, v) => some (n, some v)
  | none =>
    let bg := el.filter fun n => (tteOf x n).isNone
    match (bg.find? fun n => decide (x.lastBg < n)).orElse fun _ => bg.head? with
    | some n => some (n, none)
    | none => none

/-! ### Delivery to consumers (R203, R207, R211) -/

/-- The bytes of a record in order, each with its poison. -/
def RecBuf.bytes (r : RecBuf) : List (Byte × Bool) := r.parts.flatMap (·.2)

/-- The elements of a record: code and whether poisoned (R202, R203, R211, R35). -/
def recElems (d : Desc) (r : RecBuf) : List (Nat × Bool) :=
  if r.null then List.replicate d.reclen (0, false)
  else if r.poison then List.replicate d.reclen (elemNan d.fmt.elem, true)
  else
    let bs := r.bytes.take (d.reclen * elemBits d.fmt.elem / 8)
    let w := elemBits d.fmt.elem
    let bad := bs.map (·.2)
    (unpackElems w d.reclen (plain bs)).mapIdx fun k c =>
      if d.ent.cols ≤ d.col0 + k then (0, false)
      else if nth false bad (k * w / 8) || nth false bad ((k * w + w - 1) / 8) then (elemNan d.fmt.elem, true)
      else (c, false)

/-- The scales of a record: a poisoned byte is 255 (R202, R211). -/
def recScales (d : Desc) (r : RecBuf) : List Nat :=
  if r.null then List.replicate d.recBlocks d.fmt.wlo
  else if r.poison then List.replicate d.recBlocks 255
  else (r.bytes.drop (r.bytes.length - d.recBlocks)).map fun b => if b.2 then 255 else b.1.toNat

/-- What a consumer meets when it takes a unit. -/
inductive Take where
  | wait
  | oor (strm i x : Nat)
  | desync (ds ss expected found i : Nat)
  | ok (codes scales : List Nat) (d : Desc) (x : StreamS) (bytes : Nat)
  deriving Repr

/-- Dropping the records that have been taken whole. -/
def dropTaken (d : Desc) : Desc := { d with recs := d.recs.filter fun r => decide (d.doneRecs ≤ r.i) }

/-- Taking n scales from scale stream ss for the data blocks from index j on, of record i of data stream ds (R204, R207).
The answer is the scales and the stream after it. -/
def takeScales (x : StreamS) (ds ss i j n : Nat) : Take :=
  let st := getStrm x ss
  match st.active with
  | none => .wait
  | some d =>
    if st.fault ≠ 0 ∨ d.dir ≠ 2 then .wait
    else
      let one (b : Nat) : Take :=
        let q := d.taken + b
        if d.units ≤ q then (if (j + b) % 256 = 0 ∨ d.taken = d.units then .wait else .desync ds ss ((j + b) % 256) 0 i)
        else match findRec d (q / d.recBlocks) with
          | none => .wait
          | some r =>
            if r.hole then .oor ss r.i r.x
            else if !r.complete then .wait
            else if q % 256 ≠ (j + b) % 256 then .desync ds ss ((j + b) % 256) (q % 256) i
            else .ok [] [nth 255 (recScales d r) (q % d.recBlocks)] d x 0
      (List.range n).foldl (fun (acc : Take) b =>
        match acc with
        | .ok c sc _ _ _ =>
          match one b with
          | .ok _ s1 _ _ _ => .ok c (sc ++ s1) d x 0
          | e => e
        | e => e)
        (.ok [] [] d x 0) |> fun r =>
      match r with
      | .ok c sc d' _ _ => .ok c sc d' (setStrm x ss { st with active := some (dropTaken { d with taken := d.taken + n }) }) n
      | e => e

/-- Taking elements [taken, taken + n) of data stream ds with the scales of stream ss (R203, R207, R211). -/
def takeUnits (x : StreamS) (ds ss n : Nat) : Take :=
  let st := getStrm x ds
  match st.active with
  | none => .wait
  | some d =>
    if st.fault ≠ 0 ∨ d.dir ≠ 0 ∨ n = 0 ∨ d.reclen = 0 then .wait
    else
      let i0 := d.taken / d.reclen
      let i1 := (d.taken + n - 1) / d.reclen
      let rs := (List.range (i1 - i0 + 1)).map fun k => findRec d (i0 + k)
      match rs.find? fun r => match r with | some r => r.hole | none => false with
      | some (some r) => .oor ds r.i r.x
      | _ =>
        if rs.any fun r => match r with | some r => !r.complete | none => true then .wait
        else
          let es := ((rs.flatMap fun r => match r with | some r => recElems d r | none => []).drop (d.taken % d.reclen)).take n
          let x1 := setStrm x ds { st with active := some (dropTaken { d with taken := d.taken + n }) }
          let bytes := n * elemBits d.fmt.elem / 8
          if !d.narrow then .ok (es.map (·.1)) [] d x1 bytes
          else
            let b := d.fmt.blk
            match takeScales x1 ds ss i0 (d.taken / b) (cdiv n b) with
            | .ok _ sc _ x2 sb =>
              let sc' := sc.mapIdx fun k v => if ((es.drop (k * b)).take b).any (·.2) then 255 else v
              .ok (es.map (·.1)) sc' d x2 (bytes + sb)
            | e => e

/-- Taking one record: an array row or line (R203). -/
def takeRecord (x : StreamS) (ds ss : Nat) : Take :=
  match (getStrm x ds).active with
  | some d => if d.taken < d.total then takeUnits x ds ss d.reclen else .wait
  | none => .wait

/-- Taking up to 512 elements: a VPOP or XPOPN (R203). -/
def takeLanes (x : StreamS) (ds : Nat) : Take :=
  match (getStrm x ds).active with
  | some d => takeUnits x ds d.sstr (min 512 (d.total - d.taken))
  | none => .wait

/-! ### Stream faults (R214) -/

/-- Marking a stream faulted. -/
def markFault (t : TileId) (n code : Nat) (s : State) : State :=
  let x := getStr s t
  setStr t (setStrm x n { getStrm x n with fault := code }) s

/-- A scale-desynchronised fault (R207, R214). -/
def faultDesync (t : TileId) (client ds ss expected found i : Nat) (s : State) : State :=
  let s1 := markFault t ss 1 (markFault t ds 1 s)
  raiseFault client 0x0302 (t.val + 2 ^ 6 * ds + 2 ^ 12 * ss + 2 ^ 18 * expected + 2 ^ 26 * found + 2 ^ 34 * (i % 2 ^ 30))
    (bumpDict (dkey 0x4030 0x04) 1 (setBit (strBlk t 0) 0 s1))

/-- An out-of-region fault (R210, R214). -/
def faultRegion (t : TileId) (client n i idx : Nat) (s : State) : State :=
  raiseFault client 0x0303 (t.val + 2 ^ 6 * n + 2 ^ 12 * (i % 2 ^ 20) + 2 ^ 32 * idx)
    (bumpDict (dkey 0x4030 0x05) 1 (setBit (strBlk t 0) 0 (markFault t n 2 s)))

/-- Carrying out what a consumer met, where it is no delivery; the code is what a wait charges. -/
def takeFail (t : TileId) (e : Eng) (client code : Nat) (k : Take) (s : State) : State :=
  match k with
  | .wait => charge e code s
  | .oor n i x => charge e 0x1D (faultRegion t client n i x s)
  | .desync ds ss a b i => charge e 0x1D (faultDesync t client ds ss a b i s)
  | .ok _ _ _ _ _ => s

/-- Storing the streams after a delivery, with the bytes it counts (R217). -/
def delivered (t : TileId) (x : StreamS) (bytes : Nat) (s : State) : State :=
  bump (strBlk t 0) 0x010 bytes (setStr t x s)

/-! ### Pushes (R206, R210, R212) -/

/-- Whether the last write of a descriptor has issued (R212). -/
def writesIssued (d : Desc) : Bool := decide (d.pushed = d.total) && decide (d.out.length ≤ d.granted)

/-- The descriptor that a push goes to: the active one, or the queued one where its mode lets it (R212). -/
def pushTarget (st : Strm) : Option (Bool × Desc) :=
  match st.active with
  | none => none
  | some a =>
    if st.fault ≠ 0 ∨ a.dir ≠ 1 then none
    else if a.pushed < a.total then some (false, a)
    else match st.queued with
      | some q =>
        if q.pushed < q.total ∧ (q.mode = 2 ∨ (q.mode = 1 ∧ writesIssued a)) then some (true, q) else none
      | none => none

/-- Elements [p, p + n) of a descriptor, cut by record, as (record, place in it, length). -/
def recSegs (d : Desc) (p n : Nat) : List (Nat × Nat × Nat) :=
  if n = 0 ∨ d.reclen = 0 then []
  else (List.range ((p + n - 1) / d.reclen - p / d.reclen + 1)).map fun k =>
    let i := p / d.reclen + k
    let lo := max p (i * d.reclen)
    let hi := min (p + n) ((i + 1) * d.reclen)
    (i, lo - i * d.reclen, hi - lo)

/-- What a push of up to n elements meets. -/
inductive Push where
  | wait
  | oor (i x : Nat)
  | ok (queued : Bool) (d : Desc) (segs : List (Nat × Nat × Nat × RowRes))
  deriving Repr

/-- Planning a push of up to n elements into stream k (R206, R210). -/
def planPush (x : StreamS) (k n : Nat) : Push :=
  let st := getStrm x k
  match pushTarget st with
  | none => .wait
  | some (q, d) =>
    let segs := recSegs d d.pushed (min n (d.total - d.pushed))
    if segs.any fun g => (recRow d g.1).isNone then .wait
    else match segs.find? fun g => match recRow d g.1 with | some (.oor _) => true | _ => false with
      | some g => .oor g.1 (recIndex d g.1)
      | none =>
        let need := segs.foldl (fun m g => m + g.2.2 * elemBits d.fmt.elem / 8) 0
        if pageBytes st d < pendingOf d + need then .wait
        else .ok q d (segs.map fun g => (g.1, g.2.1, g.2.2, (recRow d g.1).getD .null))

/-- Adding bytes to the pieces that wait: they join a piece of the same record and line that no grant covers. -/
def addPiece (d : Desc) (p : OutPiece) : Desc :=
  let j := (List.range d.out.length).find? fun k =>
    match d.out[k]? with
    | some q => decide (d.granted ≤ k) && decide (q.i = p.i) && decide (q.off + q.bytes.length = p.off) &&
        decide (p.off % 64 ≠ 0)
    | none => false
  match j with
  | some k => { d with out := d.out.modify k fun q => { q with bytes := q.bytes ++ p.bytes, last := p.last } }
  | none => { d with out := d.out ++ [p] }

/-- Adding bytes at an offset of the handle, cut at lines; fin says that the record's run of bytes ends with them. -/
def addBytes (d : Desc) (i off : Nat) (bs : List Byte) (fin : Bool) : Desc :=
  (lineSpans off bs.length).foldl (fun d sp =>
    addPiece d { i := i, off := sp.1, bytes := (bs.drop (sp.1 - off)).take sp.2,
                 last := fin && decide (sp.1 + sp.2 = off + bs.length) }) d

/-- Placing the codes and scales of one record segment (R206): elements at pos on row r. -/
def pushSeg (d : Desc) (i pos r : Nat) (codes scales : List Nat) : Desc :=
  let w := elemBits d.fmt.elem
  let fin := decide (pos + codes.length = d.reclen)
  let d1 := addBytes d i ((dataSpan d r).1 + pos * w / 8) (packElems w codes) fin
  if d.narrow then
    addBytes d1 i ((scaleSpan d r).1 + pos / d.fmt.blk) (scales.map fun v => BitVec.ofNat 8 v) fin
  else d1

/-- Storing a descriptor of stream k. -/
def putDesc (x : StreamS) (k : Nat) (queued : Bool) (d : Desc) : StreamS :=
  let st := getStrm x k
  setStrm x k (if queued then { st with queued := some d } else { st with active := some d })

end Sys2Proof.Machine
end

