-- ==== Sys2Proof/Machine/Streams.lean ====
section
/-! DEFINITION. Stream engines: SARM, SREARM, SMODE, SRESET and the events of a stream (R196 to R215, R460). -/

namespace Sys2Proof.Machine

/-! ### Arming (R196 to R200, R212, R213) -/

/-- The entry of a name that a command captured at the window, else as it stands (R169). -/
def entryOf (s : State) (w : WinCmd) (name : Nat) : Entry :=
  match w.names.find? fun n => decide (n.1 = name) with
  | some n => n.2
  | none => getEnt s name

/-- The end mode in force for stream n (R212, R460). -/
def groupMode (x : StreamS) (n : Nat) : Nat := fld x.modes (2 * (n / 8)) 2

/-- A descriptor from its words and the entries they name (R197, R169). -/
def mkDesc (s : State) (t : TileId) (w : WinCmd) (id mode : Nat) (a : Armed) : Desc :=
  let d : Desc := { id := id, w0 := a.w0, w1 := a.w1, w2 := a.w2, w3 := a.w3, w4 := a.w4, ent := {}, mode := mode,
                    cycle0 := (getStr s t).cycle }
  let own := tileDie t * 4096
  { d with
    ent := entryOf s w d.name
    ient := entryOf s w (own + fld d.w3 32 12)
    i2ent := entryOf s w (own + fld d.w3 44 12)
    lent := entryOf s w d.lname }

/-- The reserved combinations of R196 to R200 and R168 for a descriptor. -/
def descReserved (client n : Nat) (d : Desc) : Bool :=
  let f := d.fmt
  decide (d.imode = 3) || decide (d.pages = 0 ∨ 256 < d.pages) || decide (d.reclen = 0 ∨ 65536 < d.reclen) ||
  decide (d.count = 0) || (decide (d.imode ≠ 0) && decide (d.ioff % 4 ≠ 0)) ||
  !d.ent.ownedBy client || !d.ent.tensor || (decide (d.dir = 2) && !d.narrow) ||
  (if d.narrow then
     decide (d.col0 % f.blk ≠ 0) || decide (d.reclen % f.blk ≠ 0) ||
     decide (nBlocks d.ent.cols f.blk * f.blk < d.col0 + d.reclen)
   else decide (d.ent.cols < d.col0 + d.reclen)) ||
  (decide (d.imode ≠ 0) && (!d.ient.ownedBy client || decide (d.ient.len < d.ioff + 4 * d.count))) ||
  (decide (d.imode = 2) && !d.i2ent.ownedBy client) ||
  (decide (d.dir = 0) && d.narrow && decide (d.sstr = n)) ||
  (decide (d.dir = 3) &&
    (!d.lent.ownedBy client || decide (d.lent.kind ≠ 1) || decide (d.lent.fmtWord ≠ d.ent.fmtWord) ||
     decide (d.lent.tsBits ≠ d.ent.tsBits) || !d.lent.tensor || decide (d.lent.rowsTotal < d.count) ||
     decide (d.lent.paddedCols f < d.reclen)))

/-- Why an arming command of stream n waits (R197, R199, R213, R214): its queued slot is taken, an SRESET stands before
it, the stream is faulted, or pages are short. -/
def armHold (s : State) (t : TileId) (n pages mode : Nat) : Option Nat :=
  let x := getStr s t
  let st := getStrm x n
  if st.fault ≠ 0 ∨ st.reset.isSome ∨ st.queued.isSome then some 0x02
  else if (st.active.isNone ∨ mode = 2) ∧ 1 ≤ pages ∧ pages ≤ 256 ∧ ¬ pagesFree x pages then some 0x0E
  else none

/-- Placing a descriptor in a stream (R197, R213). -/
def armStream (t : TileId) (n : Nat) (d : Desc) (a : Armed) (s : State) : State :=
  let x := getStr s t
  let st := getStrm x n
  let st' := if st.active.isNone then { st with active := some { d with paged := true }, last := some a }
    else { st with queued := some { d with paged := decide (d.mode = 2) }, last := some a }
  setStr t (setStrm x n st') s

/-- SARM's words. -/
def sarmWords (c : PCmd) : Armed := ⟨c.w 0, c.w 1, c.w 2, c.w 3, c.w 4, 0⟩

/-- SARM's mode: re-arm is for SREARM, and acts as per-layer (R212). -/
def sarmMode (x : StreamS) (n : Nat) : Nat := if groupMode x n = 1 then 0 else groupMode x n

/-- SARM (R197, R200, R212, R213). -/
def execSarm (t : TileId) (c : PCmd) (s : State) : Host.Outcome State Fault Refusal :=
  let n := fld (c.w 0) 0 6
  let mode := sarmMode (getStr s t) n
  .next (withIssue (armHold s t n (fld (c.w 0) 32 9) mode) (.stream t) c s fun s w id =>
    let a := sarmWords c
    let d := mkDesc s t w id mode a
    if descReserved (clientOn s (tileDie t)) n d then refuse id s
    else armStream t n d { a with fmt := d.ent.fmtWord } s)

/-- SREARM's words over those it inherits (R198). -/
def srearmWords (c : PCmd) (a : Armed) : Armed :=
  { a with
    w0 := setFld (setFld a.w0 12 12 (fld (c.w 0) 6 12)) 24 2 (fld (c.w 0) 18 2)
    w1 := setFld a.w1 0 32 (fld (c.w 1) 0 32)
    w3 := setFld a.w3 0 32 (fld (c.w 1) 32 32)
    w4 := setFld a.w4 0 36 (fld (c.w 2) 0 36) }

/-- SREARM (R198, R200, R212, R213). -/
def execSrearm (t : TileId) (c : PCmd) (s : State) : Host.Outcome State Fault Refusal :=
  let n := fld (c.w 0) 0 6
  let mode := groupMode (getStr s t) n
  let pages := match (getStrm (getStr s t) n).last with | some a => fld a.w0 32 9 | none => 0
  .next (withIssue (armHold s t n pages mode) (.stream t) c s fun s w id =>
    match (getStrm (getStr s t) n).last with
    | none => refuse id s
    | some a0 =>
      let a := srearmWords c a0
      let d := mkDesc s t w id mode a
      if descReserved (clientOn s (tileDie t)) n d ∨ d.ent.fmtWord ≠ a.fmt then refuse id s
      else armStream t n d a s)

/-- SMODE (R460): the end mode of each stream group. -/
def execSmode (t : TileId) (c : PCmd) (s : State) : Host.Outcome State Fault Refusal :=
  .next (withIssue none (.stream t) c s fun s _ id =>
    if (List.range 8).any fun g => decide (fld (c.w 0) (2 * g) 2 = 3) then refuse id s
    else complete id (setStr t { getStr s t with modes := BitVec.ofNat 16 (fld (c.w 0) 0 16) } s))

/-- SRESET (R199): it issues, and takes effect when no command names the stream. -/
def execSreset (t : TileId) (c : PCmd) (s : State) : Host.Outcome State Fault Refusal :=
  let n := fld (c.w 0) 0 6
  let hold := if (getStrm (getStr s t) n).reset.isSome then some 0x02 else none
  .next (withIssue hold (.stream t) c s fun s _ id =>
    let x := getStr s t
    setStr t (setStrm x n { getStrm x n with reset := some id }) s)

/-- The streams an instruction of a vector block names (R115, R117). -/
def instrStreams (w : Word) : List Nat :=
  let o := fld w 0 8
  if o = 0x60 ∨ o = 0x62 then [fld w 14 6] else if o = 0x61 ∨ o = 0x75 then [fld w 20 6] else []

/-- The streams an issued consumer or producer command names (R199). -/
def namedStreams (f : Flight) : List Nat :=
  match f.eng with
  | .array _ => streamsOf f.win.cmd
  | .vector _ => (f.win.cmd.body.drop 1).flatMap instrStreams
  | _ => []

/-- Whether an issued, incomplete consumer or producer command of the tile names stream n (R199). -/
def streamNamed (s : State) (t : TileId) (n : Nat) : Bool :=
  s.plates.flights.any fun f => decide (f.eng = .array t ∨ f.eng = .vector t) && (namedStreams f).contains n

/-- Clearing a stream: descriptors, buffer, pages, fault and what SREARM inherits (R199). -/
def clearStream (x : StreamS) (n : Nat) : StreamS :=
  let st := getStrm x n
  let ids := (st.active.map (·.id)).toList ++ (st.queued.map (·.id)).toList
  { setStrm x n {} with reqs := x.reqs.filter fun r => !ids.contains r.id }

/-- SRESET taking effect (R199). -/
def execSresetEffect (t : TileId) (n : Fin 64) (s : State) : Host.Outcome State Fault Refusal :=
  let x := getStr s t
  let st := getStrm x n.val
  .next (match st.reset with
    | none => s
    | some id =>
      if streamNamed s t n.val then s
      else
        let s1 := setStr t (clearStream x n.val) s
        let s2 := ((st.active.map (·.id)).toList ++ (st.queued.map (·.id)).toList).foldl (fun s i => complete i s) s1
        complete id s2)

/-- A per-layer successor becoming active, when its pages are free (R212, R213). -/
def execDescriptorActivate (t : TileId) (n : Fin 64) (s : State) : Host.Outcome State Fault Refusal :=
  let x := getStr s t
  let st := getStrm x n.val
  .next (match st.active, st.queued with
    | none, some q =>
      if q.paged ∨ pagesFree x q.pages then
        setStr t (setStrm x n.val { st with active := some { q with paged := true, cycle0 := x.cycle }, queued := none }) s
      else charge (.stream t) 0x0E s
    | _, _ => s)

/-- Whether a descriptor has ended (R197, R209). -/
def descEnded (d : Desc) : Bool :=
  if d.dir = 1 then decide (d.pushed = d.total) && d.out.isEmpty
  else decide (d.taken = d.units) && (!(d.consume && decide (d.ent.slots ≠ 0)) || decide (d.nCons = d.count))

/-- A descriptor ending: its command completes; a re-arm or overlap successor is active at once (R197, R212). -/
def execDescriptorEnd (t : TileId) (n : Fin 64) (s : State) : Host.Outcome State Fault Refusal :=
  let x := getStr s t
  let st := getStrm x n.val
  .next (match st.active with
    | none => s
    | some d =>
      if st.fault ≠ 0 ∨ ¬ descEnded d then s
      else
        let st' := match st.queued with
          | some q => if q.mode = 1 ∨ q.mode = 2 then { st with active := some { q with paged := true }, queued := none }
            else { st with active := none }
          | none => { st with active := none }
        complete d.id (setStr t { setStrm x n.val st' with reqs := x.reqs.filter fun r => decide (r.id ≠ d.id) } s))

/-! ### Grants and returns (R208 to R211) -/

/-- Counting dropped prefetches (R210). -/
def countDropped (t : TileId) (k : Nat) (s : State) : State :=
  if k = 0 then s
  else bumpDict (dkey 0x4030 0x03) k (bump (strBlk t 0) 0x008 k (setBit (strBlk t 0) 1 s))

/-- Placing the records of stream n that fetch nothing, in both its descriptors (R202, R210). -/
def settleStream (t : TileId) (n : Nat) (s : State) : State :=
  let x := getStr s t
  let st := getStrm x n
  let go (o : Option Desc) : Option Desc × Nat := match o with
    | some d => ((settleRecs d).1, (settleRecs d).2)
    | none => (none, 0)
  let a := go st.active
  let q := match st.active, st.queued with
    | some act, some que => if queuedFetches act que then go st.queued else (st.queued, 0)
    | _, o => (o, 0)
  countDropped t (a.2 + q.2) (setStr t (setStrm x n { st with active := a.1, queued := q.1 }) s)

/-- STREAM_URGENT (R217). -/
def streamUrgent (s : State) : Int := ((getDict s (dkey 0x4030 0x01)).toNat : Int)

/-- Granting one line (R208); none where no stream is eligible. -/
def grantLine (t : TileId) (s : State) : Option State :=
  let x := getStr s t
  match pickStream x with
  | none => none
  | some (n, tte) =>
    match streamGrant x n with
    | none => none
    | some g =>
      let x1 := putDesc x n g.queued g.d
      let x2 := match g.req with
        | some k => { x1 with reqs := x1.reqs ++ [{ strm := n, id := g.d.id, kind := k }] }
        | none => x1
      let x3 := if tte.isNone then { x2 with lastBg := n } else x2
      let s1 := settleStream t n (setStr t x3 s)
      match tte with
      | some v => if v < streamUrgent s then some (bump (strBlk t 0) 0x020 1 s1) else some s1
      | none => some s1

/-- The handle that a request reads: its name, its entry, and the bytes (R201, R209). -/
def reqRead (t : TileId) (d : Desc) (k : ReqKind) : Nat × Entry × Nat × Nat :=
  let own := tileDie t * 4096
  match k with
  | .index n cnt => (own + fld d.w3 32 12, d.ient, d.ioff + 4 * n, 4 * cnt)
  | .second i =>
    let x := match mget none d.idx i with | some (.asked x) => x | _ => 0
    (own + fld d.w3 44 12, d.i2ent, 4 * x, 4)
  | .data i l =>
    let sp := match recRow d i with
      | some (.row r) => nth (0, 0) (recLines d r) l
      | _ => (0, 0)
    (d.name, d.ent, sp.1, sp.2)

/-- The descriptor of a request, and whether it is the queued one. -/
def reqDesc (x : StreamS) (r : Req) : Option (Bool × Desc) :=
  let st := getStrm x r.strm
  match st.active with
  | some d => if d.id = r.id then some (false, d) else
      match st.queued with
      | some q => if q.id = r.id then some (true, q) else none
      | none => none
  | none => match st.queued with
    | some q => if q.id = r.id then some (true, q) else none
    | none => none

/-- Whether a request in flight waits for a ring slot (R178). -/
def reqWaits (s : State) (t : TileId) (r : Req) : Bool :=
  match reqDesc (getStr s t) r with
  | none => false
  | some (_, d) =>
    let (name, e, off, n) := reqRead t d r.kind
    !readReady s name e off n

/-- Settling every stream of a tile. -/
def settleStreams (t : TileId) (s : State) : State := (List.range 64).foldl (fun s n => settleStream t n s) s

/-- Up to n grants in a row, and whether there was one (R208). -/
def grantLines (t : TileId) : Nat → State → State × Bool
  | 0, s => (s, false)
  | n + 1, s =>
    match grantLine t s with
    | some s1 => ((grantLines t n s1).1, true)
    | none => (s, false)

/-- One cycle of grants: up to 8 lines (R208). -/
def execStreamGrant (t : TileId) (s : State) : Host.Outcome State Fault Refusal :=
  let (s1, any) := grantLines t 8 (settleStreams t s)
  let s2 := setStr t { getStr s1 t with cycle := (getStr s1 t).cycle + 1 } s1
  let code :=
    if any then 0x00
    else if (getStr s2 t).reqs.any (reqWaits s2 t) then 0x0F
    else 0x1E
  .next (charge (.stream t) code s2)

/-- The 32-bit little-endian word at place k of a read; none where a byte of it is poisoned. -/
def idxWord (bs : List (Byte × Bool)) (k : Nat) : Option Nat :=
  let w := (bs.drop (4 * k)).take 4
  if anyPoison w then none else some (leNat (plain w))

/-- An index word as it enters the queue (R201, R211). -/
def idxEnter (d : Desc) (w : Option Nat) : IdxVal :=
  match w with
  | none => .poison
  | some x =>
    if d.imode = 2 ∧ x ≠ 0xFFFFFFFF then
      if d.i2ent.len < 4 * x + 4 then .oor x else .half x
    else .val x

/-- What returned data does to its descriptor (R201, R209, R211). -/
def reqDeliver (d : Desc) (k : ReqKind) (bs : List (Byte × Bool)) : Desc :=
  match k with
  | .index n cnt =>
    { d with idx := (List.range cnt).foldl (fun m j => mset none m (n + j) (some (idxEnter d (idxWord bs j)))) d.idx }
  | .second i =>
    { d with idx := mset none d.idx i (some (match idxWord bs 0 with | none => .poison | some x => .val x)) }
  | .data i l =>
    match findRec d i with
    | some r => { putRec d { r with parts := mset [] r.parts l bs } with bytes := d.bytes + bs.length }
    | none => d

/-- Data returning for the k-th request in flight (R209 to R211); it waits while its ring slot is not FULL (R178). -/
def execStreamDataReturn (t : TileId) (k : Nat) (s : State) : Host.Outcome State Fault Refusal :=
  let x := getStr s t
  .next (match x.reqs[k]? with
    | none => s
    | some r =>
      match reqDesc x r with
      | none => setStr t { x with reqs := x.reqs.eraseIdx k } s
      | some (q, d) =>
        if reqWaits s t r then s
        else
          let (name, e, off, n) := reqRead t d r.kind
          let (bs, s1) := readBuf (clientOn s (tileDie t)) e (name / 4096) off n s
          let s2 := if anyPoison bs then setBit (strBlk t 0) 3 s1 else s1
          let x1 := putDesc { x with reqs := x.reqs.eraseIdx k } r.strm q (reqDeliver d r.kind bs)
          settleStream t r.strm (setStr t x1 (crossBridge (clientOn s (tileDie t)) (tileDie t) (name / 4096) n s2)))

/-! ### Consuming reads and writes (R206, R209, R214) -/

/-- The end of the run that begins at record i: the first later record of another slot, or one that takes no row. -/
def runEnd (d : Desc) (i : Nat) : Option Nat :=
  match recRow d i with
  | some (.row r) =>
    match (List.range (d.count - i)).find? fun k =>
        match recRow d (i + k) with
        | some (.row q) => decide (slotOfRow d q ≠ slotOfRow d r)
        | _ => true with
    | some k => if (recRow d (i + k)).isNone then none else some (i + k)
    | none => some d.count
  | _ => none

/-- Whether every line of the records below i has returned (R209). -/
def returnedTo (d : Desc) (i : Nat) : Bool :=
  decide (i ≤ d.nRec) && !(d.recs.any fun r => decide (r.i < i) && !r.complete)

/-- Whether the scale stream paired with a descriptor has delivered its records below i (R209). -/
def scalesReturned (x : StreamS) (d : Desc) (i : Nat) : Bool :=
  !d.narrow || decide (i ≤ d.doneRecs) ||
  match (getStrm x d.sstr).active with
  | some q => decide (q.name = d.name) && returnedTo q i
  | none => false

/-- Skipping the records before a run that take no row. -/
def skipRowless (d : Desc) : Desc :=
  (List.range 512).foldl (fun d _ =>
    if d.count ≤ d.nCons then d
    else match recRow d d.nCons with
      | some (.row _) => d
      | some _ => { d with nCons := d.nCons + 1 }
      | none => d) d

/-- The consuming read that ends a run of a ring slot (R209): the slot becomes EMPTY by R177. -/
def execStreamConsumingRead (t : TileId) (n : Fin 64) (s : State) : Host.Outcome State Fault Refusal :=
  let x := getStr s t
  let st := getStrm x n.val
  .next (match st.active with
    | none => s
    | some d0 =>
      if ¬ d0.consume ∨ d0.ent.slots = 0 then s
      else
        let d := skipRowless d0
        let s1 := setStr t (putDesc x n.val false d) s
        match recRow d d.nCons, runEnd d d.nCons with
        | some (.row r), some e =>
          if returnedTo d e ∧ scalesReturned x d e ∧ slotFull s d.name (slotOfRow d r) then
            let off := (slotOfRow d r + 1) * d.ent.slotBytes - 8
            let (bs, s2) := readBuf (clientOn s (tileDie t)) d.ent d.hdie off 8 s1
            let s3 := if anyPoison bs then setBit (strBlk t 0) 3 s2 else s2
            afterConsume d.name d.ent off 8 (setStr t (putDesc x n.val false { d with nCons := e }) s3)
          else s1
        | _, _ => s1)

/-- Counting a write of a stream, and what a window refused (R206, R217). -/
def countWrite (t : TileId) (n : Nat) (refused : Bool) (s : State) : State :=
  if refused then bump (strBlk t 0) 0x028 1 (setBit (strBlk t 0) 4 s) else bump (strBlk t 0) 0x018 n s

/-- The look-ahead copy's record as it is written: elements and scales (R211, R212). -/
def copyBytes (d : Desc) (r : RecBuf) : List Byte × List Byte :=
  let es := recElems d r
  let b := d.fmt.blk
  let sc := if r.null then List.replicate d.recBlocks d.fmt.wlo
    else if r.poison then List.replicate d.recBlocks 255
    else (recScales d r).mapIdx fun k v => if ((es.drop (k * b)).take b).any (·.2) then 255 else v
  (packElems (elemBits d.fmt.elem) (es.map (·.1)), if d.narrow then sc.map fun v => BitVec.ofNat 8 v else [])

/-- Writing the next record of a look-ahead copy (R212, R214). -/
def copyWrite (t : TileId) (n : Nat) (d : Desc) (s : State) : State :=
  let x := getStr s t
  let client := clientOn s (tileDie t)
  let i := d.taken / max 1 d.reclen
  match findRec d i with
  | none => s
  | some r =>
    if r.hole then faultRegion t client n r.i r.x s
    else if ¬ r.complete then s
    else
      let f := d.fmt
      let (eb, sb) := copyBytes d r
      let o := d.lent.rowOff f i
      let o2 := d.lent.scaleOff f i 0
      if ¬ (writeReady s d.lname d.lent o eb.length ∧ writeReady s d.lname d.lent o2 sb.length) then s
      else
        let (s1, r1) := engineWrite client (tileDie t) 2 d.lname d.lent o eb s
        let (s2, r2) := if sb.isEmpty then (s1, false) else engineWrite client (tileDie t) 2 d.lname d.lent o2 sb s1
        let d' := dropTaken { d with taken := d.taken + d.reclen }
        countWrite t (eb.length + sb.length) (r1 || r2) (setStr t (putDesc x n false d') s2)

/-- A granted output line being written, or the next record of a look-ahead copy (R206, R212). It waits while its ring
slot is not EMPTY (R177). -/
def execStreamOutputWrite (t : TileId) (n : Fin 64) (s : State) : Host.Outcome State Fault Refusal :=
  let x := getStr s t
  let st := getStrm x n.val
  let client := clientOn s (tileDie t)
  let write (q : Bool) (d : Desc) (p : OutPiece) (rest : List OutPiece) : State :=
    if ¬ writeReady s d.name d.ent p.off p.bytes.length then charge (.stream t) 0x0F s
    else
      let (s1, refused) := engineWrite client (tileDie t) 2 d.name d.ent p.off p.bytes s
      countWrite t p.bytes.length refused
        (setStr t (putDesc x n.val q { d with out := rest, granted := d.granted - 1 }) s1)
  .next (if st.fault ≠ 0 then s
    else match st.active with
      | none => s
      | some d =>
        if d.dir = 3 then copyWrite t n.val d s
        else if d.dir ≠ 1 then s
        else match d.out with
          | p :: rest => if 0 < d.granted then write false d p rest else s
          | [] => match st.queued with
            | some q => match q.out with
              | p :: rest => if 0 < q.granted then write true q p rest else s
              | [] => s
            | none => s)

/-! ### The deadlock watchdog (R215) -/

/-- Whether a stream's pushed line waits for its ring slot. -/
def outWaits (s : State) (d : Desc) : Bool :=
  decide (d.dir = 1) && match d.out with
  | p :: _ => decide (0 < d.granted) && !writeReady s d.name d.ent p.off p.bytes.length
  | [] => false

/-- Streams that the tile's consumers and producers wait on: array rows and lines, pops and pushes (R215). -/
def consumerWaits (s : State) (t : TileId) : List Nat :=
  let x := getStr s t
  let a := getArr s t
  let isWait (k : Take) : Bool := match k with | .wait => true | _ => false
  let ld := match a.loads with
    | j :: _ => if isWait (takeRecord x j.lstr j.lscl) then [j.lstr] else []
    | [] => []
  let ps := match a.passes with
    | j :: _ => if ¬ bit j.w0 6 ∧ isWait (takeRecord x (fld j.w0 16 6) (fld j.w0 22 6)) then [fld j.w0 16 6] else []
    | [] => []
  let vb := match (getVec s t).block with
    | none => []
    | some b =>
      let w := nth 0 b.instrs b.pc
      let o := fld w 0 8
      if o = 0x60 ∨ o = 0x62 then (if isWait (takeLanes x (fld w 14 6)) then [fld w 14 6] else [])
      else if o = 0x61 ∨ o = 0x75 then
        (match planPush x (fld w 20 6) 512 with | .wait => [fld w 20 6] | _ => [])
      else []
  ld ++ ps ++ vb

/-- Whether a participant of stream n is blocked (R215, R217). -/
def streamBlocked (s : State) (t : TileId) (n : Nat) : Bool :=
  let x := getStr s t
  let st := getStrm x n
  let waits (o : Option Desc) : Bool := match o with | some d => outWaits s d | none => false
  x.reqs.any (fun r => decide (r.strm = n) && reqWaits s t r) || waits st.active || waits st.queued ||
  (st.active.isNone && match st.queued with | some q => !q.paged && !pagesFree x q.pages | none => false) ||
  (st.reset.isSome && streamNamed s t n) || (consumerWaits s t).contains n

/-- Arming commands at the head of the stream window that wait for pages (R213, R215). -/
def armWaits (s : State) (t : TileId) : List Nat :=
  match (getEng s (.stream t)).win with
  | w :: _ =>
    let n := fld (w.cmd.w 0) 0 6
    if w.cmd.opc = 1 ∧ armHold s t n (fld (w.cmd.w 0) 32 9) (sarmMode (getStr s t) n) = some 0x0E then [n]
    else if w.cmd.opc = 2 ∧ armHold s t n
        (match (getStrm (getStr s t) n).last with | some a => fld a.w0 32 9 | none => 0) (groupMode (getStr s t) n) = some 0x0E
      then [n]
    else []
  | [] => []

/-- Blocked streams of a tile. -/
def blockedStreams (s : State) (t : TileId) : List Nat :=
  (List.range 64).filter fun n => streamBlocked s t n || (armWaits s t).contains n

/-- The tiles of a die. -/
def tilesOf (d : Nat) : List TileId := (List.finRange 64).filter fun t => decide (t.val / 16 = d)

/-- Whether a layer of the client has its contribution latched on every die of MDIES, die d among them, and no settled vote
yet (R258). -/
def voteWaits (s : State) (d c : Nat) : Bool :=
  match (getClient s c).step, govOf s c with
  | some st, some g => st.votes.any fun v =>
      decide (v.2.dies = layerMDies s g v.1) && v.2.dies.testBit d && !bit (layerState s g v.1 0) 2
  | _, _ => false

/-- Whether a timetabled transfer into a die is open for a client (R215). -/
def intoDieOpen (s : State) (d c : Nat) : Bool :=
  (shareOf s c).slots.any fun x => decide (x.2.kind = 1) && decide (x.2.edie = d) && slotOpen s c x.1

/-- Whether the watchdogs of a die hold still for a client (R215, R228, R258): switched out, in a stretch, with a transfer
into the die open, or with a vote that waits. -/
def watchdogHeld (s : State) (d c : Nat) : Bool :=
  decide ((getClient s c).state = 3) || inStretch s c || intoDieOpen s d c || voteWaits s d c

end Sys2Proof.Machine
end

