-- ==== Sys2Proof/Machine/Array.lean ====
section
/-! DEFINITION. Matrix arrays: MODE_SET, LOAD_STAT, PASS, DRAIN, BANK_SWAP and the events of loads, passes, drains, the gatherer and power gating (R58 to R107, R458, R461). -/

namespace Sys2Proof.Machine

/-! ### Units and their wakes (R67, R100, R101) -/

/-- Bits of the row groups (4 rows each) of every band that holds a row below k (R101). -/
def rowUnits (k : Nat) : BitVec 64 := BitVec.ofNat 64 (2 ^ (4 * cdiv k 16) - 1)

/-- Bits of the column units below n (R101). -/
def colUnits (n : Nat) : BitVec 16 := BitVec.ofNat 16 (2 ^ cdiv n 16 - 1)

/-- Starting the wake of the gated units a tile needs (R101). -/
def startWake (k n : Nat) (a : ArrayS) : ArrayS :=
  { a with wakingR := a.wakingR ||| (rowUnits k &&& ~~~a.awakeR), wakingC := a.wakingC ||| (colUnits n &&& ~~~a.awakeC) }

/-- Whether every unit a tile needs is awake. -/
def unitsAwake (a : ArrayS) (k n : Nat) : Bool :=
  decide (rowUnits k &&& ~~~a.awakeR = 0) && decide (colUnits n &&& ~~~a.awakeC = 0)

/-- K' and N' of a load (R60). -/
def loadDims (j : LoadJob) : Nat × Nat := if j.top then (j.lines, j.llen) else (j.llen, j.lines)

/-- Units that issued commands need (R100). -/
def neededUnits (a : ArrayS) : BitVec 64 × BitVec 16 :=
  let ld := a.loads.foldl (fun u j => (u.1 ||| rowUnits (loadDims j).1, u.2 ||| colUnits (loadDims j).2))
    ((0 : BitVec 64), (0 : BitVec 16))
  if a.passes.isEmpty then ld
  else [a.active, a.pend].foldl (fun u o => match o with
    | some w => (u.1 ||| rowUnits w.k, u.2 ||| colUnits w.n)
    | none => u) ld

/-- A unit gating (R100): not while WAKE_HOLD is 1 or an issued command needs it. -/
def execUnitGate (t : TileId) (column : Bool) (i : Nat) (s : State) : Host.Outcome State Fault Refusal :=
  let a := getArr s t
  let need := neededUnits a
  .next (if a.wakeHold then s
    else if column then
      if 16 ≤ i ∨ need.2.getLsbD i ∨ a.wakingC.getLsbD i then s
      else setArr t { a with awakeC := a.awakeC &&& ~~~(1#16 <<< i) } s
    else if 64 ≤ i ∨ need.1.getLsbD i ∨ a.wakingR.getLsbD i then s
    else setArr t { a with awakeR := a.awakeR &&& ~~~(1#64 <<< i) } s)

/-- A unit's wake ending (R101). -/
def execUnitWakeDone (t : TileId) (column : Bool) (i : Nat) (s : State) : Host.Outcome State Fault Refusal :=
  let a := getArr s t
  .next (if column then
      setArr t { a with awakeC := a.awakeC ||| (a.wakingC &&& (1#16 <<< i)), wakingC := a.wakingC &&& ~~~(1#16 <<< i) } s
    else
      setArr t { a with awakeR := a.awakeR ||| (a.wakingR &&& (1#64 <<< i)), wakingR := a.wakingR &&& ~~~(1#64 <<< i) } s)

/-! ### Counters and status (R81, R82) -/

/-- Counting in an array counter, its module total and its scope bit. -/
def arrCount (t : TileId) (client off sub n : Nat) (stat : Option Nat) (scope : BitVec 32) (s : State) : State :=
  if n = 0 then s
  else
    let s1 := bumpDict (dkey 0x4010 sub) n (bump (arrBlk t 0) off n s)
    let s2 := match stat with | some i => setBit (arrBlk t 0) i s1 | none => s1
    setScope client scope s2

/-- Saturated entries (R73). -/
def countSat (t : TileId) (client n : Nat) : State → State := arrCount t client 0x008 0x01 n (some 0) scSaturated

/-- Window underflows (R75). -/
def countUnder (t : TileId) (client n : Nat) : State → State := arrCount t client 0x010 0x02 n (some 1) scUnderflow

/-- Out-of-window scales consumed (R72). -/
def countViol (t : TileId) (client n : Nat) : State → State := arrCount t client 0x018 0x03 n (some 2) scViolation

/-- Non-finite products (R74); flagged says that an entry's flag was set. -/
def countNonfin (t : TileId) (client n : Nat) (flagged : Bool) : State → State :=
  arrCount t client 0x020 0x04 n (if flagged then some 3 else none) 0

/-! ### Accumulator banks (R76, R79, R80) -/

/-- A bank of an array. -/
def getBank (a : ArrayS) (b : Nat) : Bank := if b = 0 then a.bank0 else a.bank1

/-- Storing a bank. -/
def setBank (a : ArrayS) (b : Nat) (x : Bank) : ArrayS := if b = 0 then { a with bank0 := x } else { a with bank1 := x }

/-- Entry e of column n. -/
def getAcc (b : Bank) (n e : Nat) : AccEntry := mget {} b.ents (n * 256 + e)

/-- Storing entry e of column n. -/
def setAcc (b : Bank) (n e : Nat) (v : AccEntry) : Bank := { b with ents := mset {} b.ents (n * 256 + e) v }

/-- Clearing entries [e, e + m) of the columns below n (R76). -/
def clearEntries (b : Bank) (n e m : Nat) : Bank :=
  { b with ents := b.ents.filter fun x =>
      !(decide (x.1 / 256 < n) && decide (e ≤ x.1 % 256) && decide (x.1 % 256 < e + m)) }

/-- The place of a guarded accumulator word: ((bank x 256 + column) x 256 + entry) x 4 + word, word 3 being the flags of
16 entries (R80). -/
def accPlace (b n e k : Nat) : Nat := ((b * 256 + n) * 256 + e) * 4 + k

/-- Reading an entry under the upsets of a command (R80): corrected ones are counted, lost ones set NAN and post. -/
def readAcc (t : TileId) (client b n e : Nat) (us : List Upset) (x : AccEntry) (s : State) : AccEntry × State :=
  let mine := us.filter fun u =>
    decide (u.place = accPlace b n e 0) || decide (u.place = accPlace b n e 1) || decide (u.place = accPlace b n e 2) ||
    decide (u.place = accPlace b n (e / 16 * 16) 3)
  mine.foldl (fun (acc : AccEntry × State) u =>
    let r := readErr u.flips
    let x1 := accUpset acc.1 (u.place % 4) (e % 16) r
    let s1 := if r.corrected then setBit (arrBlk t 0) 5 (bumpDict (dkey 0x4010 0x05) 1 acc.2) else acc.2
    let s2 := if r.bad then
        postUncorr 2 (tileDie t) false ((t.val % 16 * 256 + n) * 512 + b * 256 + e) client (setBit (arrBlk t 0) 6 s1)
      else s1
    (x1, s2)) (x, s)

/-! ### Commands (R90 to R96, R458) -/

/-- The array with the modes of a MODE_SET (R90). -/
def setModes (w : Word) (a : ArrayS) : ArrayS :=
  let a1 := { a with ven := bit w 3, wakeHold := bit w 4 }
  let a2 := if bit w 2 then { a1 with ghandle := some (fld w 8 12), gdeadline := fld w 20 16 } else a1
  if bit w 4 then startWake 256 256 a2 else a2

/-- MODE_SET (R90): its modes apply; SETCUR took effect at the window (R89). -/
def execModeSet (t : TileId) (c : PCmd) (s : State) : Host.Outcome State Fault Refusal :=
  .next (withIssue none (.array t) c s fun s _ id =>
    if bit (c.w 0) 2 ∧ fld (c.w 0) 20 16 = 0 then refuse id s
    else complete id (setArr t (setModes (c.w 0) (getArr s t)) s))

/-- BANK_SWAP (R95): the swap took effect at the window (R89); it moves nothing. -/
def execBankSwap (t : TileId) (c : PCmd) (s : State) : Host.Outcome State Fault Refusal :=
  .next (withIssue none (.array t) c s fun s _ id => complete id s)

/-- A LOAD_STAT as it is issued (R91). -/
def loadJob (c : PCmd) (id : Nat) : LoadJob :=
  let x := c.w 0
  { id := id, top := bit x 0, lstr := fld x 2 6, lscl := fld x 8 6, lines := fld x 14 9, llen := fld x 23 9 }

/-- LOAD_STAT (R91, R101, R458). -/
def execLoadStat (t : TileId) (c : PCmd) (s : State) : Host.Outcome State Fault Refusal :=
  .next (withIssue none (.array t) c s fun s w id =>
    let j := loadJob c id
    let a := getArr s t
    if j.lines = 0 ∨ 256 < j.lines ∨ j.llen = 0 ∨ 256 < j.llen then
      let s1 := noteIllegal (.array t) (clientOn s (tileDie t)) w s
      if j.lines = 0 then complete id s1
      else setArr t { a with loads := a.loads ++ [{ j with bad := true }], credit := a.credit + 1 } s1
    else
      setArr t (startWake (loadDims j).1 (loadDims j).2 { a with loads := a.loads ++ [j], credit := a.credit + 1 }) s)

/-- Fields of a drain specification (R92). -/
def specDest (w : Word) : Nat := fld w 0 2
def specHandle (w : Word) : Nat := fld w 2 12
def specClr (w : Word) : Bool := bit w 14
def specRow (w : Word) : Nat := fld w 16 32
def specCol (w : Word) : Nat := fld w 48 16

/-- Whether a drain specification is reserved by its own fields and its handle (R92, R96, R168). -/
def specReserved (client : Nat) (e : Entry) (w : Word) : Bool :=
  decide (specDest w = 3) ||
  (decide (specDest w = 0) &&
    (!e.ownedBy client || !e.tensor ||
     (!elemWide e.fmtD.elem && decide (specCol w % e.fmtD.blk ≠ 0))))

/-- Whether a drain of N' columns splits or leaves a destination row (R96). -/
def specSplits (e : Entry) (w : Word) (n : Nat) : Bool :=
  decide (specDest w = 0) &&
  (decide (e.cols < specCol w + n) ||
   (!elemWide e.fmtD.elem && decide ((specCol w + n) % e.fmtD.blk ≠ 0) && decide (specCol w + n ≠ e.cols)))

/-- Fields of PASS (R93). -/
def PassJob.new (j : PassJob) : Bool := bit j.w0 0
def PassJob.through (j : PassJob) : Bool := bit j.w0 1
def PassJob.clear (j : PassJob) : Bool := bit j.w0 4
def PassJob.vellum (j : PassJob) : Bool := bit j.w0 5
def PassJob.gather (j : PassJob) : Bool := bit j.w0 6
def PassJob.base (j : PassJob) : Nat := fld j.w0 8 8
def PassJob.xstr (j : PassJob) : Nat := fld j.w0 16 6
def PassJob.xscl (j : PassJob) : Nat := fld j.w0 22 6
def PassJob.m (j : PassJob) : Nat := fld j.w0 32 32
def PassJob.anchor (j : PassJob) : Int := toSigned 10 (fld j.w1 0 10)
def PassJob.tmult (j : PassJob) : BitVec 32 := BitVec.ofNat 32 (fld j.w1 32 32)

/-- Whether a PASS uses its automatic drains (R93). -/
def PassJob.drains (j : PassJob) : Bool := j.through && !j.vellum

/-- The checks of a PASS at its issue (R61, R62, R79, R92, R96, R458). -/
def passReserved (client : Nat) (a : ArrayS) (j : PassJob) : Bool :=
  decide (fld j.w0 30 2 = 3) || decide (j.m = 0) || (!j.through && decide (256 < j.base + j.m)) ||
  (j.vellum && (!a.ven || j.gather)) || (j.gather && !j.through) ||
  (j.gather && match j.ring with
    | some (_, e) => !e.ownedBy client || decide (e.slots = 0)
    | none => true) ||
  (j.drains && (!goodMult j.tmult || specReserved client ((j.dest.map (·.2)).getD {}) j.w2)) ||
  (j.vellum && match j.dest with | some (_, e) => !e.ownedBy client || !e.tensor | none => true) ||
  (j.new && decide (a.credit = 0))

/-- A PASS as it is issued: its words, its bank, and its destination and ring as the issue found them (R93, R102). -/
def passJob (t : TileId) (c : PCmd) (w : WinCmd) (id : Nat) (s : State) : PassJob :=
  let a := getArr s t
  let own := tileDie t * 4096
  let dn := own + specHandle (c.w 2)
  let j : PassJob := { id := id, w0 := c.w 0, w1 := c.w 1, w2 := c.w 2, bank := w.bank,
                       takes := bit (c.w 0) 0 && decide (0 < a.credit) }
  { j with
    dest := if j.vellum || (j.drains && decide (specDest (c.w 2) = 0)) then some (dn, entryOf s w dn) else none
    ring := if j.gather then a.ghandle.map fun h => (own + h, getEnt s (own + h)) else none }

/-- A pass waiting for its first row: the units it needs start to wake (R93, R101). -/
def queuePass (j : PassJob) (a : ArrayS) : ArrayS :=
  let a1 := if j.takes then { a with credit := a.credit - 1 } else a
  let a2 := match (if j.takes then a1.pend else a1.active) with
    | some st => startWake st.k st.n a1
    | none => a1
  { a2 with passes := a2.passes ++ [j] }

/-- PASS (R93, R458): a refused one still takes its rows, and consumes its pending tile. -/
def execPass (t : TileId) (c : PCmd) (s : State) : Host.Outcome State Fault Refusal :=
  .next (withIssue none (.array t) c s fun s w id =>
    let a := getArr s t
    let client := clientOn s (tileDie t)
    let j := passJob t c w id s
    if passReserved client a j then
      let a1 := if j.takes then { a with credit := a.credit - 1 } else a
      let s1 := noteIllegal (.array t) client w s
      if (j.gather ∧ ¬ j.takes) ∨ (j.m = 0 ∧ ¬ j.takes) then complete id (setArr t a1 s1)
      else setArr t { a1 with passes := a1.passes ++ [{ j with bad := true }] } s1
    else setArr t (queuePass j a) s)

/-- A DRAIN as it is issued (R94). -/
def drainJob (t : TileId) (c : PCmd) (w : WinCmd) (id : Nat) (s : State) : DrainJob :=
  let dn := tileDie t * 4096 + specHandle (c.w 1)
  { id := id, auto := false, bank := w.bank, first := fld (c.w 0) 2 8, count := fld (c.w 0) 10 9, spec := c.w 1,
    mult := BitVec.ofNat 32 (fld (c.w 0) 32 32),
    dest := if specDest (c.w 1) = 0 then some (dn, entryOf s w dn) else none }

/-- The checks of a DRAIN at its issue (R94, R96). -/
def drainBad (client : Nat) (e : Entry) (j : DrainJob) : Bool :=
  decide (j.count = 0 ∨ 256 < j.first + j.count ∨ (specDest j.spec ≠ 2 ∧ ¬ goodMult j.mult)) || specReserved client e j.spec

/-- DRAIN (R94, R96, R458). -/
def execDrain (t : TileId) (c : PCmd) (s : State) : Host.Outcome State Fault Refusal :=
  .next (withIssue none (.array t) c s fun s w id =>
    let j := drainJob t c w id s
    if drainBad (clientOn s (tileDie t)) (entryOf s w (tileDie t * 4096 + specHandle j.spec)) j then refuse id s
    else
      let a := getArr s t
      setArr t { a with drains := a.drains ++ [j] } s)

/-! ### Loads (R60, R65, R66, R72) -/

/-- The scales of the blocks of a unit that hold an element below k (R67, R72, R203). -/
def usedScales (f : Fmt) (scales : List Nat) (k : Nat) : List Nat := scales.take (cdiv k f.blk)

/-- A format that a pass may use (R61, R62). -/
def passFmt (f : Fmt) : Bool := decide (f.elem ≠ .fp32)

/-- A load that has taken one more line; a refused one keeps none of its lines (R60, R66, R458). -/
def takeLine (j : LoadJob) (bad : Bool) (d : Desc) (codes scales : List Nat) : LoadJob :=
  { j with
    count := j.count + 1, bad := bad, fmt := j.fmt.orElse fun _ => some (d.fmt, d.ent.tscale)
    got := if bad then []
      else j.got ++ [{ codes := (codes ++ List.replicate (j.llen - codes.length) 0).take j.llen, scales := scales }] }

/-- The tile of a load whose lines are all there (R60, R65). -/
def loadTile (j : LoadJob) (d : Desc) : Stat :=
  let (f, ts) := j.fmt.getD (d.fmt, 1)
  { fmt := f, tscale := ts, top := j.top, k := (loadDims j).1, n := (loadDims j).2, lines := j.got }

/-- The array after a load has taken a line: the load goes on, or its tile is pending (R60, R65, R458). -/
def putLine (j : LoadJob) (rest : List LoadJob) (d : Desc) (a : ArrayS) : ArrayS :=
  if j.count < j.lines then { a with loads := j :: rest }
  else { a with loads := rest, pend := if j.bad then none else some (loadTile j d), pendBad := j.bad }

/-- Whether a load is refused at its first line, for its format (R61, R62, R458). -/
def loadLate (j : LoadJob) (d : Desc) : Bool := !j.bad && j.fmt.isNone && !passFmt d.fmt

/-- A stationary line reaching the pending registers (R60, R65, R66, R72, R99, R458). -/
def execLoadLineEntry (t : TileId) (s : State) : Host.Outcome State Fault Refusal :=
  let a := getArr s t
  let client := clientOn s (tileDie t)
  .next (match a.loads with
    | [] => s
    | j :: rest =>
      if a.pend.isSome ∨ a.pendBad then charge (.array t) 0x06 s
      else match takeRecord (getStr s t) j.lstr j.lscl with
        | .ok codes scales d x bytes =>
          let s1 := charge (.array t) 0x00 (delivered t x bytes s)
          let s2 := if loadLate j d then
              match findFlight s1 j.id with
              | some f => noteIllegal (.array t) client f.win s1
              | none => s1
            else s1
          let bad := j.bad || loadLate j d
          let nOut := if bad then 0 else countOut d.fmt (usedScales d.fmt scales j.llen)
          let s3 := consumerViol d.hdie d.ent.stat nOut (countViol t client nOut s2)
          let j1 := takeLine j bad d codes scales
          let s4 := setArr t (putLine j1 rest d (getArr s3 t)) s3
          if j1.count < j.lines then s4 else complete j.id s4
        | k => takeFail t (.array t) client 0x06 k s)

/-! ### Passes (R59, R65, R75, R76, R78, R83) -/

/-- Whether a bank still drains for command id: an earlier drain of it, or an automatic one, has entries to read, or waits
to start (R78). -/
def bankDraining (a : ArrayS) (b id : Nat) : Bool :=
  (a.drains.any fun d => decide (d.bank = b) && decide (d.id ≤ id) && decide (d.done < d.count)) ||
  a.passes.any fun p => p.due.any fun u => decide (u.bank = b)

/-- What starting the head pass finds. -/
inductive Start where
  | wait (code : Nat)
  | refuse
  | go (w : Stat)
  deriving Repr

/-- The tile a pass uses (R65). -/
def passTile (a : ArrayS) (j : PassJob) : Option Stat := if j.takes then a.pend else a.active

/-- L or A of a pass, its tensor-scale product and N' (R70, R75). -/
def passRec (j : PassJob) (xf : Fmt) (xt : Rat) (w : Stat) : BankRec :=
  let wide := elemWide xf.elem
  { wide := wide, base := if wide then j.anchor else baseL xf w.fmt, scale := if wide then 1 else xt * w.tscale, cols := w.n }

/-- The checks of a PASS when its first row reaches the array (R62, R70, R79, R96, R128, R458), and in Proof those of
R395. -/
def startReserved (proof : Bool) (a : ArrayS) (j : PassJob) (xf : Fmt) (xt : Rat) (w : Stat) : Bool :=
  let r := passRec j xf xt w
  let wide := elemWide xf.elem
  (proof && (wide || elemWide w.fmt.elem || j.vellum)) || !passFmt xf || decide (wide ≠ elemWide w.fmt.elem) || decide (2 ^ fld j.w0 28 2 ≠ rescaleBands xf w.fmt w.top) ||
  (wide && (decide (j.anchor < -320) || decide (80 < j.anchor))) ||
  (j.vellum && match j.dest with | some (_, e) => decide (e.fmtD.elem ≠ .fp32) | none => true) ||
  (j.drains && specSplits ((j.dest.map (·.2)).getD {}) j.w2 w.n) ||
  (j.drains && decide (specDest j.w2 = 2) && (decide (r.base < -149) || decide (-21 < r.base))) ||
  (!j.vellum && !j.through && !j.clear && decide ((getBank a j.bank).record ≠ some r))

/-- Starting the head pass on rows of format xf (R65, R78, R101). -/
def startPass (proof : Bool) (a : ArrayS) (j : PassJob) (xf : Fmt) (xt : Rat) : Start :=
  if j.takes ∧ a.pend.isNone ∧ ¬ a.pendBad then .wait 0x06
  else if j.vellum ∨ ¬ j.through then
    if ¬ j.vellum ∧ bankDraining a j.bank j.id then .wait 0x08
    else match passTile a j with
      | none => .refuse
      | some w => if startReserved proof a j xf xt w then .refuse else if unitsAwake a w.k w.n then .go w else .wait 0x07
  else if bankDraining a 0 j.id ∨ bankDraining a 1 j.id then .wait 0x08
  else match passTile a j with
    | none => .refuse
    | some w => if startReserved proof a j xf xt w then .refuse else if unitsAwake a w.k w.n then .go w else .wait 0x07

/-- Consuming the pending tile (R65): it becomes active, unless the pass is refused. -/
def switchTile (a : ArrayS) (j : PassJob) (ok : Bool) : ArrayS :=
  if j.takes then { a with active := if ok then a.pend else a.active, pend := none, pendBad := false } else a

/-- The effects of a pass's start on its bank (R70, R76, R253). -/
def startBank (a : ArrayS) (j : PassJob) (xf : Fmt) (xt : Rat) (w : Stat) : ArrayS :=
  if j.vellum ∨ j.through ∨ ¬ j.clear then a
  else setBank a j.bank
    { clearEntries (getBank a j.bank) w.n j.base j.m with record := some (passRec j xf xt w), ufl := false }

/-- Starting a pass, or going on with one that has started (R65, R78). -/
def passStart (proof : Bool) (a : ArrayS) (j : PassJob) (xf : Fmt) (xt : Rat) : Start :=
  if j.started then (match a.active with | some w => .go w | none => .refuse) else startPass proof a j xf xt

/-- The array as a pass's row finds it: at its first row its tile is active and its bank prepared (R65, R76). -/
def beginPass (a : ArrayS) (j : PassJob) (xf : Fmt) (xt : Rat) (w : Stat) : ArrayS :=
  if j.started then a else startBank (switchTile a j true) j xf xt w

/-- Adding a row's result to entry e of column n of bank b, or writing it, with the saturated entries and flags gathered
(R73, R74, R80). -/
def addCol (t : TileId) (client b e : Nat) (write : Bool) (us : List Upset) (rs : List ColRes) (acc : State × Nat × Bool)
    (n : Nat) : State × Nat × Bool :=
  let (s, k, fl) := acc
  let (e0, s1) := if write then (({} : AccEntry), s) else readAcc t client b n e us (getAcc (getBank (getArr s t) b) n e) s
  let (e1, sat) := accAdd write e0 (nth {} rs n)
  let a := getArr s1 t
  (setArr t (setBank a b (setAcc (getBank a b) n e e1)) s1, k + b2n sat, fl || e1.special)

/-- Adding a row's results to entry e of bank b, or writing them (R73, R74, R76, R80). -/
def addRow (t : TileId) (client b e : Nat) (write : Bool) (us : List Upset) (rs : List ColRes) (s : State) : State :=
  let (s1, sats, flagged) := (List.range rs.length).foldl (addCol t client b e write us rs) (s, 0, false)
  let nf := rs.foldl (fun m r => m + r.nonfin) 0
  let un := rs.foldl (fun m r => m + r.under) 0
  let s2 := countSat t client sats s1
  let s3 := countNonfin t client nf (flagged && decide (nf ≠ 0)) s2
  let s4 := countUnder t client un s3
  if un = 0 then s4
  else
    let a := getArr s4 t
    setArr t (setBank a b { getBank a b with ufl := true }) s4

/-- The sum of a Vellum partial and a result as FP32 (R83, R461). -/
def vellumSum (p : FVal) (unit : Rat) (r : ColRes) : BitVec 32 :=
  let nan := r.nan || (match p with | .nan => true | _ => false)
  let pinf := r.pinf || (match p with | .inf n => !n | _ => false)
  let ninf := r.ninf || (match p with | .inf n => n | _ => false)
  if nan ∨ (pinf ∧ ninf) then nan32
  else if pinf then inf32 false
  else if ninf then inf32 true
  else if r.val.sat then inf32 (decide (r.val.val < 0))
  else toF32 false (p.toRat + (r.val.val : Rat) * unit)

/-- The bytes that a row of a Vellum pass writes back, from the partials it read: a poisoned partial is a NaN (R83, R461). -/
def vellumOuts (bs : List (Byte × Bool)) (unit : Rat) (rs : List ColRes) : List Byte :=
  (List.range rs.length).flatMap fun n =>
    let part := (bs.drop (4 * n)).take 4
    let p := if anyPoison part then FVal.nan else f32 (BitVec.ofNat 32 (leNat (plain part)))
    leBytes 4 (vellumSum p unit (nth {} rs n)).toNat

/-- The offset of a Vellum row's partials in their buffer (R83). -/
def vellumOff (e : Entry) (j : PassJob) : Nat := e.rowOff e.fmtD (specRow j.w2 + j.row) + 4 * specCol j.w2

/-- A row of a Vellum-compatibility pass: partials are read, added and written back (R83, R84, R461). -/
def vellumRow (t : TileId) (client : Nat) (j : PassJob) (unit : Rat) (rs : List ColRes) (s : State) : State :=
  match j.dest with
  | none => s
  | some (name, e) =>
    let off := vellumOff e j
    let (bs, s1) := readBuf client e (name / 4096) off (4 * rs.length) s
    let s2 := writeBuf client e (name / 4096) off (vellumOuts bs unit rs) s1
    let nf := rs.foldl (fun m r => m + r.nonfin) 0
    let un := rs.foldl (fun m r => m + r.under) 0
    countUnder t client un (countNonfin t client nf (decide (nf ≠ 0)) (setBit (arrBlk t 0) 4 (setScope client scVellum s2)))

/-- The bank and entry that pass row m goes to: entry base + m, or the through places of R76, or a batch's (R104). -/
def rowPlace (j : PassJob) : Nat × Nat :=
  if j.gather then (j.batch % 2, j.done)
  else if j.through then (j.row / 256 % 2, j.row % 256)
  else (j.bank, j.base + j.row)

/-- What a gathered row's slot holds: its tag, elements and scales (R102). -/
def gatherRow (client name : Nat) (e : Entry) (slot k : Nat) (s : State) : Nat × List Nat × List Nat × State :=
  let f := e.fmtD
  let base := slot * e.slotBytes
  let (hd, s1) := readBuf client e (name / 4096) base 8 s
  let n := k * elemBits f.elem / 8
  let (bs, s2) := readBuf client e (name / 4096) (base + 8) n s1
  let nb := cdiv k f.blk
  let (sc, s3) := if elemWide f.elem then ([], s2) else readBuf client e (name / 4096) (base + e.soff) nb s2
  let w := elemBits f.elem
  let bad := bs.map (·.2)
  let codes := (unpackElems w k (plain bs)).mapIdx fun i c =>
    if nth false bad (i * w / 8) || nth false bad ((i * w + w - 1) / 8) then elemNan f.elem else c
  let scales := sc.mapIdx fun b v =>
    if v.2 || anyPoison ((bs.drop (b * f.blk * w / 8)).take (f.blk * w / 8)) then 255 else v.1.toNat
  (leNat (plain (hd.take 4)), codes, scales, s3)

/-- After a row (for a batch, row0 holds its number): a bank whose rows are complete is due for its automatic drain (R76, R104). -/
def dueAfter (j : PassJob) : List DueDrain :=
  if j.gather then (if j.slots.isEmpty then [⟨j.batch % 2, j.batch, j.done, j.tags⟩] else [])
  else if j.through ∧ ¬ j.vellum ∧ (j.row % 256 = 0 ∨ j.row = j.m) then
    [⟨(j.row - 1) / 256 % 2, (j.row - 1) / 256 * 256, (j.row - 1) % 256 + 1, []⟩]
  else []

/-- The record that a through pass leaves in the bank it writes, at the bank's first row (R70, R79, R253). -/
def throughBank (a : ArrayS) (j : PassJob) (b e : Nat) (r : BankRec) : ArrayS :=
  if j.drains ∧ e = 0 then setBank a b { getBank a b with record := some r, ufl := false } else a

/-- A pass after a row, with the drains that are due (R76, R104). -/
def nextRow (j : PassJob) (tag : Nat) : PassJob :=
  let j1 := { j with row := j.row + 1, started := true, done := j.done + 1, tags := if j.gather then j.tags ++ [tag] else [],
                     slots := j.slots.drop 1 }
  let due := dueAfter j1
  let j2 := if due.isEmpty then j1 else { j1 with due := j1.due ++ due }
  if j.gather ∧ j1.slots.isEmpty then { j2 with batch := j.batch + 1, done := 0, tags := [] } else j2

/-- Whether a pass is over with its last row: no automatic drain follows (R97). -/
def passOver (j : PassJob) : Bool := decide (j.row = j.m) && !j.drains

/-- A streamed row's effects once it and its tile are known (R59, R67 to R76, R83, R84). -/
def rowEffect (t : TileId) (client : Nat) (j : PassJob) (w : Stat) (xf : Fmt) (xt : Rat) (x : Line) (tag : Nat)
    (us : List Upset) (s : State) : State :=
  let r := passRec j xf xt w
  let rs := rowResults j.anchor xf x w
  let (b, e) := rowPlace j
  let s1 :=
    if j.vellum then vellumRow t client j (pow2 r.base * r.scale) rs s
    else addRow t client b e j.through us rs (setArr t (throughBank (getArr s t) j b e r) s)
  let a1 := getArr s1 t
  let j1 := nextRow j tag
  let s2 := setArr t { a1 with passes := if passOver j1 then a1.passes.drop 1 else j1 :: a1.passes.drop 1 } s1
  if passOver j1 then complete j.id s2 else s2

/-- Refusing the head pass when its first row reaches the array (R458): it still takes what it would have taken. -/
def refusePass (t : TileId) (client : Nat) (j : PassJob) (s : State) : State :=
  let s1 := match findFlight s j.id with
    | some f => noteIllegal (.array t) client f.win s
    | none => s
  let a := switchTile (getArr s1 t) j false
  if j.gather then complete j.id (setArr t { a with passes := a.passes.drop 1 } s1)
  else setArr t { a with passes := { j with bad := true, started := true, takes := false } :: a.passes.drop 1 } s1

/-- A row of a refused pass being taken and discarded (R458). -/
def discardRow (t : TileId) (client : Nat) (j : PassJob) (s : State) : State :=
  let a := getArr s t
  if j.takes ∧ a.pend.isNone ∧ ¬ a.pendBad then charge (.array t) 0x06 s
  else
    let a1 := switchTile a j false
    if j.gather ∨ j.m = 0 then complete j.id (setArr t { a1 with passes := a1.passes.drop 1 } s)
    else match takeRecord (getStr s t) j.xstr j.xscl with
      | .ok _ _ _ x bytes =>
        let s1 := charge (.array t) 0x00 (delivered t x bytes (setArr t a1 s))
        let a2 := getArr s1 t
        let j1 := { j with row := j.row + 1, takes := false }
        if j1.row = j.m then complete j.id (setArr t { a2 with passes := a2.passes.drop 1 } s1)
        else setArr t { a2 with passes := j1 :: a2.passes.drop 1 } s1
      | k => takeFail t (.array t) client 0x05 k s

/-- A row of a stream entering the array (R63, R65, R78, R99, R203). -/
def streamRow (t : TileId) (client : Nat) (j : PassJob) (us : List Upset) (s : State) : State :=
  let a := getArr s t
  match takeRecord (getStr s t) j.xstr j.xscl with
  | .ok codes scales d x bytes =>
    let xf := d.fmt
    let xt := d.ent.tscale
    match passStart (inProof s) a j xf xt with
    | .wait code => charge (.array t) code s
    | .refuse => refusePass t client j s
    | .go w =>
      let (b, _) := rowPlace j
      if j.started ∧ j.drains ∧ bankDraining a b j.id then charge (.array t) 0x08 s
      else
        let s1 := charge (.array t) 0x00 (delivered t x bytes (setArr t (beginPass a j xf xt w) s))
        let nOut := countOut xf (usedScales xf scales w.k)
        let s2 := consumerViol d.hdie d.ent.stat nOut (countViol t client nOut s1)
        rowEffect t client j w xf xt ⟨codes, scales⟩ 0 us s2
  | k => takeFail t (.array t) client 0x05 k s

/-- A gathered row entering the array: its slot is drained (R102, R103). -/
def gatheredRow (t : TileId) (client : Nat) (j : PassJob) (us : List Upset) (s : State) : State :=
  match j.ring, j.slots, (getArr s t).active with
  | some (name, e), slot :: _, some w =>
    let (tag, codes, scales, s1) := gatherRow client name e slot w.k s
    let s2 := bump (arrBlk t 0) 0x030 1 (setSlot name slot false (charge (.array t) 0x00 s1))
    let nOut := countOut e.fmtD (usedScales e.fmtD scales w.k)
    let s3 := consumerViol (tileDie t) e.stat nOut (countViol t client nOut s2)
    rowEffect t client j w e.fmtD e.tscale ⟨codes, scales⟩ tag us s3
  | _, _, _ => charge (.array t) 0x09 s

/-- A row of the head pass entering column 0 (R59, R65, R99, R458, R461). -/
def execPassRowEntry (t : TileId) (u : List Upset) (s : State) : Host.Outcome State Fault Refusal :=
  let client := clientOn s (tileDie t)
  .next (match (getArr s t).passes with
    | [] => s
    | j :: _ =>
      if j.bad then discardRow t client j s
      else if j.row = j.m then charge (.array t) 0x08 s
      else if j.gather then gatheredRow t client j u s
      else streamRow t client j u s)

/-! ### The row gatherer (R102 to R106) -/

/-- The FULL slots of a ring, in slot order (R103). -/
def fullSlots (s : State) (name : Nat) (e : Entry) : List Nat := (List.range e.slots).filter fun i => slotFull s name i

/-- A gathered batch launching (R103, R104), with the gatherer's timer at a value. -/
def execGatherBatchLaunch (t : TileId) (timer : Nat) (s : State) : Host.Outcome State Fault Refusal :=
  let a := getArr s t
  let client := clientOn s (tileDie t)
  .next (match a.passes with
    | [] => s
    | j :: rest =>
      match j.ring with
      | none => s
      | some (name, e) =>
        if ¬ j.gather ∨ j.bad ∨ j.row = j.m ∨ ¬ j.slots.isEmpty then s
        else
          let full := fullSlots s name e
          let c := full.length
          let rem := j.m - j.row
          if c = 0 then charge (.array t) 0x09 s
          else if ¬ (256 ≤ c ∨ rem ≤ c ∨ a.gdeadline ≤ timer) then charge (.array t) 0x09 s
          else if bankDraining a (j.batch % 2) j.id then charge (.array t) 0x08 s
          else
            match passStart (inProof s) a j e.fmtD e.tscale with
            | .wait code => charge (.array t) code s
            | .refuse => refusePass t client j s
            | .go w =>
              let n := min (min c 256) rem
              let a1 := beginPass a j e.fmtD e.tscale w
              let j1 := { j with started := true, slots := full.take n, done := 0, tags := [] }
              let s1 := bump (arrBlk t 0) 0x028 1 (setArr t { a1 with passes := j1 :: rest } s)
              charge (.array t) 0x00 (if c < 256 ∧ c < rem then bump (arrBlk t 0) 0x038 1 s1 else s1))

/-! ### Drains (R76 to R78, R94, R127, R128) -/

/-- An automatic drain starting for a bank whose rows are complete (R76, R104). -/
def execAutoDrain (t : TileId) (s : State) : Host.Outcome State Fault Refusal :=
  let a := getArr s t
  .next (match a.passes.find? fun j => !j.due.isEmpty with
    | none => s
    | some j =>
      match j.due with
      | [] => s
      | u :: due =>
        let d : DrainJob := { id := j.id, auto := true, bank := u.bank, first := 0, count := u.count, spec := j.w2,
                              mult := j.tmult, row0 := u.row0, tags := u.tags, dest := j.dest }
        setArr t { a with passes := a.passes.map (fun p => if p.id = j.id then { p with due := due } else p),
                          drains := a.drains ++ [d] } s)

/-- Whether a drain may start: an automatic one may; another waits for earlier passes into its bank, and for a through
pass that runs (R78). -/
def drainReady (a : ArrayS) (d : DrainJob) : Bool :=
  d.auto || !(a.passes.any fun p => decide (p.id < d.id) && !p.vellum && (p.through || decide (p.bank = d.bank)))

/-- The drain that reads next: the one under way, else the first that may start. -/
def headDrain (a : ArrayS) : Option DrainJob :=
  match a.drains.find? fun d => d.started && decide (d.done < d.count) with
  | some d => some d
  | none => a.drains.find? fun d => decide (d.done < d.count) && drainReady a d

/-- Replacing a drain; drains are told apart by command, bank and first pass row. -/
def sameDrain (x y : DrainJob) : Bool := decide (x.id = y.id) && decide (x.bank = y.bank) && decide (x.row0 = y.row0) &&
  decide (x.auto = y.auto)

/-- A drain's completion (R97, R104): an explicit DRAIN completes; a pass completes with its last automatic drain, and a
gathered pass posts once per batch. -/
def drainDone (t : TileId) (d : DrainJob) (s : State) : State :=
  let a := getArr s t
  let a1 := { a with drains := a.drains.filter fun x => !sameDrain x d }
  if ¬ d.auto then complete d.id (setArr t a1 s)
  else match a1.passes.find? fun j => decide (j.id = d.id) with
    | none => setArr t a1 s
    | some j =>
      if j.row = j.m ∧ j.due.isEmpty ∧ ¬ (a1.drains.any fun x => x.auto && decide (x.id = d.id)) then
        complete d.id (setArr t { a1 with passes := a1.passes.filter fun p => decide (p.id ≠ d.id) } s)
      else if j.gather then postBatch d.id (setArr t a1 s)
      else setArr t a1 s

/-- The destination row of the i-th entry of a drain (R92, R104). -/
def drainRow (d : DrainJob) (i : Nat) : Nat :=
  specRow d.spec + (if d.tags.isEmpty then d.row0 + i else nth 0 d.tags i)

/-- The checks of a DRAIN when it would first use its bank (R79, R96, R128, R458). -/
def drainReserved (b : Bank) (d : DrainJob) : Bool :=
  match b.record with
  | none => true
  | some r =>
    specSplits ((d.dest.map (·.2)).getD {}) d.spec r.cols ||
    (decide (specDest d.spec = 2) && (decide (r.base < -149) || decide (-21 < r.base)))

/-- Reading entry e of a column for a drain: with CLR it is zero afterwards (R80, R92). -/
def readCol (t : TileId) (client : Nat) (d : DrainJob) (e : Nat) (us : List Upset) (r : List AccEntry × State) (c : Nat) :
    List AccEntry × State :=
  let (x, s1) := readAcc t client d.bank c e us (getAcc (getBank (getArr r.2 t) d.bank) c e) r.2
  let a := getArr s1 t
  let keep := if specClr d.spec ∧ ¬ d.auto then ({} : AccEntry) else x
  (r.1 ++ [x], setArr t (setBank a d.bank (setAcc (getBank a d.bank) c e keep)) s1)

/-- Reading n entries of a drain, column by column, under upsets (R80). -/
def readEntries (t : TileId) (client : Nat) (d : DrainJob) (cols n : Nat) (us : List Upset) (s : State) :
    List (List AccEntry) × State :=
  (List.range n).foldl (fun (acc : List (List AccEntry) × State) i =>
    let (row, s1) := (List.range cols).foldl (readCol t client d (d.first + d.done + i) us) ([], acc.2)
    (acc.1 ++ [row], s1)) ([], s)

/-- A pair of rows as a slot of the receive queue (R127, R128): 256 lanes of each entry. -/
def drainSlot (spec : Word) (r : BankRec) (m : Rat) (rows : List (List AccEntry)) : QSlot :=
  let row (k : Nat) : List AccEntry := (nth [] rows k ++ List.replicate 256 ({} : AccEntry)).take 256
  let all := row 0 ++ row 1
  if specDest spec = 2 then
    { exact := true, f := [], x := all.map fun e =>
        { val := (e.num : Rat) * pow2 r.base, nan := e.nan, pinf := e.pinf, ninf := e.ninf, sat := e.sat } }
  else
    { exact := false, x := [], f := all.map fun e =>
        match accVal e (pow2 r.base * r.scale * m) with
        | .nan => nan32
        | .inf n => inf32 n
        | .sat n _ => inf32 n
        | .num n v => BitVec.ofNat 32 (convFloat .fp32 true .rne n v).code }

/-- The drain lane of a tile (R136). -/
def getLane (s : State) (t : TileId) : LaneS := mget {} s.units.lanes t.val

/-- Storing a drain lane. -/
def setLane (t : TileId) (x : LaneS) (s : State) : State := { s with units := { s.units with lanes := mset {} s.units.lanes t.val x } }

/-- The pair that a drain of n entries offers to its lane for the Hatch (R94, R137): destination rows and FP values. -/
def drainPair (d : DrainJob) (b : Bank) (r : BankRec) (rows : List (List AccEntry)) (n : Nat) : DPair :=
  let (name, e) := d.dest.getD (0, {})
  { id := d.id, first := !d.started, last := decide (d.done + n = d.count), auto := d.auto, name := name, ent := e,
    col := specCol d.spec, ufl := b.ufl,
    rows := (List.range n).map fun i =>
      (drainRow d (d.done + i), (nth [] rows i).map fun x => accVal x (pow2 r.base * r.scale * (f32 d.mult).toRat)) }

/-- A drain reading its next pair (R77, R78, R80, R94, R127, R128, R137). -/
def execDrainPairRead (t : TileId) (u : List Upset) (s : State) : Host.Outcome State Fault Refusal :=
  let a := getArr s t
  let client := clientOn s (tileDie t)
  .next (match headDrain a with
    | none => if a.drains.isEmpty then s else charge (.array t) 0x08 s
    | some d =>
      let b := getBank a d.bank
      if ¬ d.started ∧ ¬ d.auto ∧ drainReserved b d then
        refuse d.id (setArr t { a with drains := a.drains.filter fun x => !sameDrain x d } s)
      else match b.record with
        | none => drainDone t d s
        | some r =>
          let lane := getLane s t
          if specDest d.spec = 0 ∧ lane.offer.isSome then charge (.array t) 0x0B s
          else if specDest d.spec ≠ 0 ∧ 4 ≤ (getVec s t).queue.length then charge (.array t) 0x0A s
          else
            let n := min 2 (d.count - d.done)
            let (rows, s1) := readEntries t client d r.cols n u s
            let a1 := getArr s1 t
            let d1 := { d with done := d.done + n, started := true }
            let s2 := charge (.array t) 0x00 (setArr t { a1 with drains := a1.drains.map fun x => if sameDrain x d then d1 else x } s1)
            if specDest d.spec = 0 then setLane t { lane with offer := some (drainPair d b r rows n) } s2
            else
              let v := getVec s2 t
              let sat := rows.any fun w => w.any fun x => x.sat && !x.special
              let s3 := setVec t { v with queue := v.queue ++ [drainSlot d.spec r (f32 d.mult).toRat rows] } s2
              let s4 := if sat ∧ specDest d.spec = 1 then setScope client scSaturated s3 else s3
              if d1.done = d.count then drainDone t d1 s4 else s4)

end Sys2Proof.Machine
end

