-- ==== Sys2Proof/Machine/Hatch.lean ====
section
/-! DEFINITION. Hatch units and Counterproof engines (R135 to R150, R157, R158, R459). -/

namespace Sys2Proof.Machine

/-! ### Regions and their checks (R140) -/

/-- A region of a handle: first row, rows, first column, columns. -/
structure Area where
  row : Nat
  rows : Nat
  col : Nat
  cols : Nat
  deriving DecidableEq, Repr

/-- The byte spans of a region in module-local addresses: elements, and scales of a narrow format. -/
def areaSpans (name : Nat) (e : Entry) (a : Area) : List (Nat × Nat) :=
  let f := e.fmtD
  let w := elemBits f.elem
  (List.range a.rows).flatMap fun i =>
    let r := a.row + i
    let n := if elemWide f.elem then a.cols * w / 8 else cdiv a.cols f.blk * f.blk * w / 8
    let dl := lineSpans (e.rowOff f r + a.col * w / 8) n
    let sl := if elemWide f.elem then [] else lineSpans (e.scaleOff f r (a.col / f.blk)) (cdiv a.cols f.blk)
    (dl ++ sl).map fun sp => (addrOf e (name / 4096) sp.1, sp.2)

/-- Whether two lists of byte spans share a byte. -/
def spansMeet (xs ys : List (Nat × Nat)) : Bool :=
  xs.any fun x => ys.any fun y => decide (x.1 < y.1 + y.2) && decide (y.1 < x.1 + x.2)

/-- Whether a region leaves its handle's declared extent. -/
def areaBeyond (e : Entry) (a : Area) : Bool := decide (e.rowsTotal < a.row + a.rows) || decide (e.cols < a.col + a.cols)

/-- The reserved combinations of R140 for a source region. -/
def srcReserved (client : Nat) (e : Entry) (a : Area) : Bool :=
  !e.ownedBy client || !e.tensor || areaBeyond e a || (!elemWide e.fmtD.elem && decide (a.col % e.fmtD.blk ≠ 0))

/-- The reserved combinations of R135 and R140 for a destination region. -/
def dstReserved (client : Nat) (e : Entry) (a : Area) (d0 : Word) : Bool :=
  let f := e.fmtD
  !e.ownedBy client || !e.tensor || areaBeyond e a ||
  (!elemWide f.elem && (decide (a.col % f.blk ≠ 0) ||
     (decide ((a.col + a.cols) % f.blk ≠ 0) && decide (a.col + a.cols ≠ e.cols)))) ||
  (f.rnd && decide (fld d0 36 28 = 0))

/-! ### Engines' status (R158) -/

/-- The base of a Hatch unit's or Counterproof engine's block. -/
def engBlk (hatch : Bool) (d u : Nat) : Nat := if hatch then hatchBlk d u 0 else cptBlk d u 0

/-- Counting what an operation on one run of elements did (R158). -/
def engCount (hatch : Bool) (d u work : Nat) (f : Fold) (s : State) : State :=
  let b := engBlk hatch d u
  let viol := f.viols + f.srcViols
  let s1 := if work = 0 then s else bump b 0x008 work s
  let s2 := if f.sats = 0 then s1 else bump b 0x010 f.sats (if hatch then bumpDict (dkey 0x4020 0x01) f.sats s1 else s1)
  let s3 := if viol = 0 then s2 else bump b 0x018 viol (if hatch then bumpDict (dkey 0x4020 0x02) viol s2 else s2)
  if f.nonfin = 0 then s3 else bump b 0x020 f.nonfin (if hatch then bumpDict (dkey 0x4020 0x03) f.nonfin s3 else s3)

/-- Folding into a slot, with SLOT_SAT where the slot has a stuck counter (R144, R158). -/
def engFold (hatch : Bool) (d u slot : Nat) (f : Fold) (s : State) : State :=
  let s1 := foldStats d slot f s
  if slotSatd s1 d slot then setBit (engBlk hatch d u) 3 s1 else s1

/-- Whether a read of a handle meets a word that decodes to a corrected one (R158). -/
def readFixes (s : State) (e : Entry) (die off n : Nat) : Bool :=
  (lineSpans off n).any fun sp =>
    let a := addrOf e die sp.1
    (List.range ((a + sp.2 - 1) / 8 - a / 8 + 1)).any fun i =>
      match eccDecode (s.mem.syn (a / 8 + i)) with
      | .fixed _ => decide (s.mem.syn (a / 8 + i) ≠ 0)
      | _ => false

/-- Reading elements [c, c + n) of a row as exact values times m: the values, and the out-of-window scales among those
read. A poisoned element is NaN (R157). -/
def readVals (hatch : Bool) (d u client name : Nat) (e : Entry) (row c n : Nat) (m : Rat) (s : State) :
    List DVal × Nat × State :=
  let f := e.fmtD
  let w := elemBits f.elem
  let off := e.rowOff f row + c * w / 8
  let len := cdiv (n * w) 8
  let nb := if elemWide f.elem then 0 else cdiv n f.blk
  let so := e.scaleOff f row (c / f.blk)
  let fixes := readFixes s e (name / 4096) off len || readFixes s e (name / 4096) so nb
  let (bs, s1) := readBuf client e (name / 4096) off len s
  let (sc, s2) := readBuf client e (name / 4096) so nb s1
  let bad := bs.map (·.2)
  let vals := (unpackElems w n (plain bs)).mapIdx fun i code =>
    let sc1 := nth (0#8, false) sc (i / f.blk)
    if nth false bad (i * w / 8) || nth false bad ((i * w + w - 1) / 8) || (decide (nb ≠ 0) && sc1.2) then DVal.nan
    else (DVal.ofF (elemValue f.elem sc1.1.toNat e.tscale code)).scale m
  let out := countOut f ((sc.filter fun b => !b.2).map fun b => b.1.toNat)
  let s3 := if anyPoison bs || anyPoison sc then setBit (engBlk hatch d u) 2 s2 else s2
  (vals, out, if fixes then setBit (engBlk hatch d u) 1 s3 else s3)

/-- Writing a narrowed run at column c of a row: elements, then block scales (R35, R36, R136). -/
def writeRun (client name : Nat) (e : Entry) (row c : Nat) (r : RowOut) (s : State) : State :=
  let f := e.fmtD
  let s1 := putBuf client name e (e.rowOff f row + c * elemBits f.elem / 8) (packElems (elemBits f.elem) r.codes) s
  if r.blocks.isEmpty then s1
  else putBuf client name e (e.scaleOff f row (c / f.blk)) (r.blocks.map fun b => BitVec.ofNat 8 b.scale) s1

/-- Whether the ring slots of rows [r, r + n) are ready to read, or to write (R177). -/
def rowsReady (s : State) (name : Nat) (e : Entry) (r n : Nat) (write : Bool) : Bool :=
  decide (e.slots = 0) || (List.range n).all fun i => slotFull s name ((r + i) / e.rows) != write

/-- Narrowing a run of values for a destination place: its draws follow the destination's coordinates (R135, R136). -/
def narrowAt (s : State) (client : Nat) (e : Entry) (x : Dctx) (row c : Nat) (vals : List DVal) : RowOut :=
  let f := e.fmtD
  narrowRun f e.tscale (fun i => elemRnd f (seedOf s client) (stepOf s client) x row (c + i))
    (fun i => decide (c + i < e.cols)) vals

/-! ### Hatch commands (R138 to R147, R459) -/

/-- The key of a die unit with four of its kind. -/
def unitKey (d u : Nat) : Nat := d * 4 + u

/-- A Hatch unit's command. -/
def getHatch (s : State) (d u : Nat) : Option HJob := mget none s.units.hatch (unitKey d u)

/-- Storing a Hatch unit's command. -/
def setHatch (d u : Nat) (j : Option HJob) (s : State) : State :=
  { s with units := { s.units with hatch := mset none s.units.hatch (unitKey d u) j } }

/-- Regions of HCONV and HSTAT (R139, R141). -/
def hSrc (c : PCmd) : Area :=
  if c.opc = 1 then ⟨fld (c.w 1) 0 32, fld (c.w 2) 0 32, fld (c.w 3) 0 16, fld (c.w 2) 32 17⟩
  else ⟨fld (c.w 1) 0 32, fld (c.w 1) 32 32, fld (c.w 2) 0 16, fld (c.w 2) 16 17⟩
def hDst (c : PCmd) : Area := ⟨fld (c.w 1) 32 32, fld (c.w 2) 0 32, fld (c.w 3) 16 16, fld (c.w 2) 32 17⟩

/-- Blocks of one destination row of HCONV; a wide destination is one block (R146). -/
def hRecBlocks (f : Fmt) (cols : Nat) : Nat := if elemWide f.elem then 1 else cdiv cols f.blk

/-- HCONV (R139, R140, R146). -/
def execHconv (d : DieId) (u : Fin 4) (c : PCmd) (s : State) : Host.Outcome State Fault Refusal :=
  .next (withIssue none (.hatch d u) c s fun s w id =>
    let client := clientOn s d.val
    let own := d.val * 4096
    let sn := own + fld (c.w 0) 0 12
    let dn := own + fld (c.w 0) 12 12
    let bn := own + fld (c.w 0) 25 12
    let se := entryOf s w sn
    let de := entryOf s w dn
    let be := entryOf s w bn
    let sa := hSrc c
    let da := hDst c
    let bytes := 4 * da.rows * hRecBlocks de.fmtD da.cols
    let bspan := lineSpans 0 bytes |>.map fun sp => (addrOf be d.val sp.1, sp.2)
    let bad := decide (sa.rows = 0) || decide (sa.cols = 0 ∨ 65536 < sa.cols) ||
      !goodMult (BitVec.ofNat 32 (fld (c.w 3) 32 32)) || srcReserved client se sa || dstReserved client de da (c.w 4) ||
      spansMeet (areaSpans sn se sa) (areaSpans dn de da) ||
      (bit (c.w 0) 24 && (!be.ownedBy client || decide (be.len < bytes) || spansMeet bspan (areaSpans sn se sa) ||
        spansMeet bspan (areaSpans dn de da)))
    if bad then refuse id s
    else setHatch d.val u.val (some { id := id, cmd := c, src := (sn, se), dst := some (dn, de),
                                      rcd := if bit (c.w 0) 24 then some (bn, be) else none }) s)

/-- HSTAT (R141). -/
def execHstat (d : DieId) (u : Fin 4) (c : PCmd) (s : State) : Host.Outcome State Fault Refusal :=
  .next (withIssue none (.hatch d u) c s fun s w id =>
    let client := clientOn s d.val
    let sn := d.val * 4096 + fld (c.w 0) 0 12
    let se := entryOf s w sn
    let sa := hSrc c
    if sa.rows = 0 ∨ sa.cols = 0 ∨ 65536 < sa.cols ∨ srcReserved client se sa ∨ ¬ slotOwned s client (fld (c.w 0) 12 10) then
      refuse id s
    else setHatch d.val u.val (some { id := id, cmd := c, src := (sn, se) }) s)

/-- HCTX (R142): the draw context of a drain lane. -/
def execHctx (d : DieId) (u : Fin 4) (c : PCmd) (s : State) : Host.Outcome State Fault Refusal :=
  .next (withIssue none (.hatch d u) c s fun s _ id =>
    let t : TileId := Fin.ofNat 64 (16 * d.val + 4 * u.val + fld (c.w 0) 0 2)
    complete id (setLane t { getLane s t with c0 := c.w 1, c1 := c.w 2 } s))

/-- The 74 words of a statistics slot as bytes (R144). -/
def slotBytesOf (s : State) (d slot : Nat) : List Byte :=
  (List.range 74).flatMap fun k => leBytes 8 (getReg s (statBlk d slot (8 * k))).toNat

/-- Clearing W1 to W73 and SATD of a slot (R147). -/
def clearSlot (d slot : Nat) (s : State) : State :=
  let s1 := (List.range 73).foldl (fun s k => setReg (statBlk d slot (8 * (k + 1))) 0 s) s
  setReg (statBlk d slot 0) (setFld (getReg s1 (statBlk d slot 0)) 16 1 0) s1

/-- HSNAP (R147, R459). -/
def execHsnap (d : DieId) (u : Fin 4) (c : PCmd) (s : State) : Host.Outcome State Fault Refusal :=
  .next (withIssue none (.hatch d u) c s fun s w id =>
    let client := clientOn s d.val
    let x := c.w 0
    let slot := fld x 0 10
    let dn := d.val * 4096 + fld x 12 12
    let e := entryOf s w dn
    let off := fld (c.w 1) 0 36
    let copy := !bit x 40
    if ¬ slotOwned s client slot ∨ (copy ∧ (¬ e.ownedBy client ∨ off % 8 ≠ 0 ∨ e.len < off + 592)) then refuse id s
    else
      let s1 := if copy then putBuf client dn e off (slotBytesOf s d.val slot) s else s
      let s2 := if bit x 10 then clearSlot d.val slot s1 else s1
      let s3 := if bit x 11 then setReg (statBlk d.val slot 0) (setFld (getReg s2 (statBlk d.val slot 0)) 0 16 (fld x 24 16)) s2
        else s2
      complete id s3)

/-- Measuring values with no destination (R141): q = |v|. -/
def measure (vals : List DVal) : Fold := vals.foldl (fun g v => foldElem g v.fval) {}

/-- A per-block record (R146). -/
def blockRecord (amax : Rat) (sats : Nat) (viol nonfin : Bool) : List Byte :=
  leBytes 4 (bf16Up amax + 2 ^ 16 * min sats 255 + 2 ^ 24 * b2n viol + 2 ^ 25 * b2n nonfin)

/-- The largest finite q of a run's part. -/
def partAmax (vals : List DVal) (t : Rat) : Rat := (measure (vals.map fun v => v.scale (1 / t))).amax

/-- Whether the ring slots of a command lane's next chunk are in the state it needs (R177). -/
def hatchReady (s : State) (j : HJob) : Bool :=
  let r := j.chunk / cdiv (hSrc j.cmd).cols 512
  rowsReady s j.src.1 j.src.2 ((hSrc j.cmd).row + r) 1 false &&
    match j.dst with
    | some (dn, de) => rowsReady s dn de ((hDst j.cmd).row + r) 1 true
    | none => true

/-- Writing the records of a run's blocks, or of a wide row that the run ends (R146). -/
def putRecords (client : Nat) (j : HJob) (de : Entry) (r c n : Nat) (vals : List DVal) (out : RowOut) (s : State) : State :=
  let cols := (hSrc j.cmd).cols
  let b := de.fmtD.blk
  let row := j.wide.add out.fold
  match j.rcd with
  | none => s
  | some (bn, be) =>
    if elemWide de.fmtD.elem then
      if c + n = cols then
        putBuf client bn be (4 * r) (blockRecord row.amax row.sats false (decide (row.nonfin ≠ 0))) s
      else s
    else
      (List.range out.blocks.length).foldl (fun s k =>
        let bl := nth { scale := 0, codes := [] } out.blocks k
        putBuf client bn be (4 * (r * cdiv cols b + c / b + k))
          (blockRecord (partAmax ((vals.drop (b * k)).take b) de.tscale) bl.sats bl.viol (decide (bl.nonfin ≠ 0))) s) s

/-- A chunk of n values from column c of row r narrowed, written and counted (R139, R141, R146): the command after it, the
run, and the state. -/
def convertChunk (d u client : Nat) (j : HJob) (dn : Nat) (de : Entry) (r c n nOut : Nat) (vals : List DVal) (s : State) :
    HJob × RowOut × State :=
  let da := hDst j.cmd
  let out := narrowAt s client de ⟨j.cmd.w 4, j.cmd.w 5⟩ (da.row + r) (da.col + c) vals
  let f := { out.fold with srcViols := nOut }
  let s1 := putRecords client j de r c n vals out
    (engCount true d u n f (writeRun client dn de (da.row + r) (da.col + c) out s))
  ({ j with chunk := j.chunk + 1, fold := j.fold.add f, flags := j.flags ||| runFlags s1 d de.stat out,
            wide := if c + n = (hSrc j.cmd).cols then {} else j.wide.add out.fold }, out, s1)

/-- The end of an HCONV: its statistics and its producer's flags (R144, R252). -/
def convertEnd (d u client : Nat) (de : Entry) (k : HJob) (out : RowOut) (s : State) : State :=
  producerFlags client d de.stat k.flags { out with fold := k.fold, wsat := false, blocks := [] }
    (engFold true d u de.stat k.fold s)

/-- A chunk of the command lane (R141, R144, R146, R157). -/
def execHatchChunk (d : DieId) (u : Fin 4) (s : State) : Host.Outcome State Fault Refusal :=
  let e : Eng := .hatch d u
  .next (match getHatch s d.val u.val with
    | none => s
    | some j =>
      let client := clientOn s d.val
      let sa := hSrc j.cmd
      let per := cdiv sa.cols 512
      let r := j.chunk / per
      let c := j.chunk % per * 512
      let n := min 512 (sa.cols - c)
      let (sn, se) := j.src
      let mult := if j.cmd.opc = 1 then (f32 (BitVec.ofNat 32 (fld (j.cmd.w 3) 32 32))).toRat else 1
      if ¬ hatchReady s j then charge e 0x0F s
      else
        let (vals, nOut, s1) := readVals true d.val u.val client sn se (sa.row + r) (sa.col + c) n mult s
        let s2 := consumerViol d.val se.stat nOut s1
        charge e 0x00 (match j.dst with
          | none =>
            let f := { measure vals with srcViols := nOut }
            let k := { j with chunk := j.chunk + 1, fold := j.fold.add f }
            let s3 := engCount true d.val u.val n f s2
            if j.chunk + 1 = per * sa.rows then
              complete j.id (setHatch d.val u.val none (engFold true d.val u.val (fld (j.cmd.w 0) 12 10) k.fold s3))
            else setHatch d.val u.val (some k) s3
          | some (dn, de) =>
            let (k, out, s3) := convertChunk d.val u.val client j dn de r c n nOut vals s2
            if j.chunk + 1 = per * sa.rows then
              complete j.id (setHatch d.val u.val none (convertEnd d.val u.val client de k out s3))
            else setHatch d.val u.val (some k) s3))

/-! ### Drain lanes (R136, R137, R142) -/

/-- A row of a pair narrowed at its destination's place, written and counted (R136): with the fold, the governor flags and
whether the SAT row of R54 decided a value, so far. -/
def pairRow (d u client : Nat) (p : DPair) (x : Dctx) (acc : State × Fold × Nat × Bool) (r : Nat × List DVal) :
    State × Fold × Nat × Bool :=
  let (s, f, fl, ws) := acc
  let out := narrowAt s client p.ent x r.1 p.col r.2
  let s' := engCount true d u r.2.length out.fold (writeRun client p.name p.ent r.1 p.col out s)
  (s', f.add out.fold, fl ||| runFlags s d p.ent.stat out, ws || out.wsat)

/-- The last pair of a drain written: its statistics, its producer's flags, and its completion (R97, R144, R252). -/
def pairEnd (t : TileId) (client : Nat) (p : DPair) (l : LaneS) (f : Fold) (fl : Nat) (s : State) : State :=
  let d := tileDie t
  let s1 := producerFlags client d p.ent.stat fl { codes := [], blocks := [], fold := f, wsat := false }
    (engFold true d (t.val % 16 / 4) p.ent.stat f s)
  let s2 := setLane t { l with offer := none, fold := {}, flags := 0 } s1
  match (getArr s2 t).drains.find? fun j => decide (j.id = p.id) && decide (j.auto = p.auto) && decide (j.done = j.count) with
  | some j => drainDone t j s2
  | none => s2

/-- A drain lane writing the pair it holds (R97, R136, R144, R252). -/
def execHatchDrainPair (t : TileId) (s : State) : Host.Outcome State Fault Refusal :=
  let d := tileDie t
  let u := t.val % 16 / 4
  let lane := getLane s t
  let client := clientOn s d
  let e : Eng := .hatch (Fin.ofNat 4 d) (Fin.ofNat 4 u)
  .next (match lane.offer with
    | none => s
    | some p =>
      if ¬ p.rows.all (fun r => rowsReady s p.name p.ent r.1 1 true) then charge e 0x0F s
      else
        let l1 := if p.first then { lane with l0 := lane.c0, l1 := lane.c1, fold := {}, flags := 0 } else lane
        let (s1, f, fl, ws) := p.rows.foldl (pairRow d u client p ⟨l1.l0, l1.l1⟩)
          (s, l1.fold, l1.flags ||| (if p.ufl then gUnder else 0), false)
        let s2 := if ws then setScope client scSaturated s1 else s1
        charge e 0x00 (if p.last then pairEnd t client p l1 f fl s2
          else setLane t { l1 with offer := none, fold := f, flags := fl } s2))

/-! ### Counterproof engines (R148 to R150) -/

/-- A Counterproof engine's commands. -/
def getCpt (s : State) (d u : Nat) : List CJob := mget [] s.units.cpt (unitKey d u)

/-- Storing a Counterproof engine's commands. -/
def setCpt (d u : Nat) (j : List CJob) (s : State) : State :=
  { s with units := { s.units with cpt := mset [] s.units.cpt (unitKey d u) j } }

/-- R, C and the regions of CPT (R148). -/
def cptR (c : PCmd) : Nat := fld (c.w 0) 24 9
def cptC (c : PCmd) : Nat := fld (c.w 0) 33 9
def cptSrc (c : PCmd) : Area := ⟨fld (c.w 1) 0 32, cptR c, fld (c.w 2) 0 16, cptC c⟩
def cptDst (c : PCmd) : Area := ⟨fld (c.w 1) 32 32, cptC c, fld (c.w 2) 16 16, cptR c⟩

/-- CPT (R140, R148). -/
def execCpt (d : DieId) (u : Fin 4) (c : PCmd) (s : State) : Host.Outcome State Fault Refusal :=
  .next (withIssue none (.cpt d u) c s fun s w id =>
    let client := clientOn s d.val
    let sn := d.val * 4096 + fld (c.w 0) 0 12
    let dn := d.val * 4096 + fld (c.w 0) 12 12
    let se := entryOf s w sn
    let de := entryOf s w dn
    if cptR c = 0 ∨ 256 < cptR c ∨ cptC c = 0 ∨ 256 < cptC c ∨ ¬ goodMult (BitVec.ofNat 32 (fld (c.w 2) 32 32)) ∨
        srcReserved client se (cptSrc c) ∨ dstReserved client de (cptDst c) (c.w 3) ∨
        spansMeet (areaSpans sn se (cptSrc c)) (areaSpans dn de (cptDst c)) then refuse id s
    else setCpt d.val u.val (getCpt s d.val u.val ++ [{ id := id, cmd := c, src := (sn, se), dst := (dn, de) }]) s)

/-- Reading a source line of the first command that still reads and has a buffer (R149). -/
def cptRead (d u client : Nat) (s : State) : Option State :=
  let js := getCpt s d u
  match (js.take 2).find? fun j => decide (j.lines.length < cptR j.cmd) with
  | none => none
  | some j =>
    let (sn, se) := j.src
    let a := cptSrc j.cmd
    if ¬ rowsReady s sn se (a.row + j.lines.length) 1 false then none
    else
      let m := (f32 (BitVec.ofNat 32 (fld (j.cmd.w 2) 32 32))).toRat
      let (vals, nOut, s1) := readVals false d u client sn se (a.row + j.lines.length) a.col a.cols m s
      let s2 := engCount false d u 0 { srcViols := nOut } (consumerViol d se.stat nOut s1)
      some (setCpt d u (js.map fun k => if k.id = j.id then
        { k with lines := k.lines ++ [vals], fold := { k.fold with srcViols := k.fold.srcViols + nOut } } else k) s2)

/-- Writing a destination line of the first command, once all its source lines are in (R148, R149). -/
def cptWrite (d u client : Nat) (s : State) : Option State :=
  match getCpt s d u with
  | [] => none
  | j :: rest =>
    let (dn, de) := j.dst
    let a := cptDst j.cmd
    if j.lines.length < cptR j.cmd ∨ ¬ rowsReady s dn de (a.row + j.outs) 1 true then none
    else
      let vals := j.lines.map fun l => nth DVal.nan l j.outs
      let out := narrowAt s client de ⟨j.cmd.w 3, j.cmd.w 4⟩ (a.row + j.outs) a.col vals
      let s1 := engCount false d u 0 out.fold (writeRun client dn de (a.row + j.outs) a.col out s)
      let f := j.fold.add out.fold
      let fl := j.flags ||| runFlags s1 d de.stat out
      if j.outs + 1 = a.rows then
        let s2 := bumpDict (dkey 0x4020 0x04) 1 (bump (cptBlk d u 0) 0x008 1 (setCpt d u rest s1))
        let s3 := producerFlags client d de.stat fl { codes := [], blocks := [], fold := f, wsat := false }
          (engFold false d u de.stat f s2)
        some (complete j.id s3)
      else some (setCpt d u ({ j with outs := j.outs + 1, fold := f, flags := fl } :: rest) s1)

/-- An FCLK cycle of a Counterproof engine: a destination line out and a source line in (R149). -/
def execCptLine (d : DieId) (u : Fin 4) (s : State) : Host.Outcome State Fault Refusal :=
  let client := clientOn s d.val
  let e : Eng := .cpt d u
  .next (if (getCpt s d.val u.val).isEmpty then s
    else match cptWrite d.val u.val client s with
      | some s1 => charge e 0x00 ((cptRead d.val u.val client s1).getD s1)
      | none => match cptRead d.val u.val client s with
        | some s1 => charge e 0x00 s1
        | none => charge e 0x0F s)

end Sys2Proof.Machine
end

