-- ==== Sys2Proof/Machine/Dma.lean ====
section
/-! DEFINITION. DMA engines: descriptors, marks, reading, writing and completion (R151 to R158, R282, R283, R292, R395). -/

namespace Sys2Proof.Machine

/-- The key of a queue: die, engine, queue. -/
def dmaKey (d e q : Nat) : Nat := (d * 2 + e) * 8 + q

/-- A DMA queue. -/
def getDma (s : State) (k : Nat) : DmaQ := mget {} s.units.dma k

/-- Storing a DMA queue. -/
def setDma (k : Nat) (x : DmaQ) (s : State) : State :=
  { s with units := { s.units with dma := mset {} s.units.dma k x } }

/-! ### Fields of a descriptor (R151) -/

def DDesc.op (x : DDesc) : Nat := fld x.w0 0 3
def DDesc.sfix (x : DDesc) : Bool := bit x.w0 6
def DDesc.dfix (x : DDesc) : Bool := bit x.w0 7
def DDesc.unit (x : DDesc) : Nat := if bit x.w0 8 then 64 else 8
def DDesc.remote (x : DDesc) : Bool := bit x.w0 9
def DDesc.sname (x : DDesc) : Nat := fld x.w0 34 2 * 4096 + fld x.w0 10 12
def DDesc.dname (x : DDesc) : Nat := fld x.w0 36 2 * 4096 + fld x.w0 22 12
def DDesc.soff (x : DDesc) : Nat := fld x.w1 0 36
def DDesc.doff (x : DDesc) : Nat := fld x.w2 0 36
def DDesc.count (x : DDesc) : Nat := fld x.w3 0 32
def DDesc.slot (x : DDesc) : Nat := fld x.w3 32 16
def DDesc.best (x : DDesc) : Bool := decide (x.slot = 0xFFFF)

/-- Bytes that a side of a descriptor reaches: one unit where its addressing is fixed (R152). -/
def DDesc.span (x : DDesc) (fixed : Bool) : Nat := if fixed then x.unit else x.count * x.unit

/-- Offset of unit k on the source side, and on the destination side (R152). -/
def DDesc.sAt (x : DDesc) (k : Nat) : Nat := if x.sfix then x.soff else x.soff + k * x.unit
def DDesc.dAt (x : DDesc) (k : Nat) : Nat := if x.dfix then x.doff else x.doff + k * x.unit

/-- Address spans of bytes of a handle: one in a stack, one for each line in the Folio. -/
def handleSpans (name : Nat) (e : Entry) (off n : Nat) : List (Nat × Nat) :=
  if e.kind = 2 then [(addrOf e (name / 4096) off, n)]
  else (lineSpans off n).map fun sp => (addrOf e (name / 4096) sp.1, sp.2)

/-- A side of a descriptor that R153 or R168 reserves. -/
def sideBad (client : Nat) (e : Entry) (unit off span : Nat) : Bool :=
  !e.ownedBy client || decide (off % unit ≠ 0) || decide (e.len < off + span)

/-- R282's reserved cases of a descriptor with a timetable slot. -/
def slotBad (s : State) (client d e : Nat) (x : DDesc) : Bool :=
  let t := shareOf s client
  let en := t.slot x.slot
  decide (t.nslot ≤ x.slot) || decide (en.kind ≠ 0) || decide (en.eng ≠ e) || decide (en.edie ≠ d) ||
    decide (flitCount (x.count * x.unit) ≠ en.flits)

/-- Whether R5 refuses a descriptor (R151, R153, R168, R282, R395). -/
def dmaReserved (s : State) (client d e : Nat) (x : DDesc) : Bool :=
  decide (x.op ≠ 1 ∧ x.op ≠ 2 ∧ x.op ≠ 3) || decide (x.count = 0) ||
  (decide (x.op ≠ 2) && sideBad client x.src x.unit x.soff (x.span x.sfix)) ||
  (!x.remote && sideBad client x.dst x.unit x.doff (x.span x.dfix)) ||
  (x.remote && decide (x.doff % x.unit ≠ 0)) ||
  (decide (x.op = 1) && !x.remote &&
    spansMeet (handleSpans x.sname x.src x.soff (x.span x.sfix)) (handleSpans x.dname x.dst x.doff (x.span x.dfix))) ||
  (x.remote && (decide (x.op = 3) || inProof s || (!x.best && slotBad s client d e x)))

/-- DMADESC (R151, R153). -/
def execDmadesc (d : DieId) (e : Fin 2) (c : PCmd) (s : State) : Host.Outcome State Fault Refusal :=
  .next (withIssue none (.dma d e) c s fun s w id =>
    let x : DDesc := { id := id, mark := false, w0 := c.w 0, w1 := c.w 1, w2 := c.w 2, w3 := c.w 3, w4 := c.w 4 }
    let x1 := { x with src := w.ent x.sname, dst := w.ent x.dname }
    if dmaReserved s (clientOn s d.val) d.val e.val x1 then refuse id s
    else
      let k := dmaKey d.val e.val (fld (c.w 0) 3 3)
      setDma k { getDma s k with descs := (getDma s k).descs ++ [x1] } s)

/-- Marks at the head of a queue, every earlier descriptor complete, take effect and complete (R155). -/
def settleMarks (k : Nat) : Nat → State → State
  | 0, s => s
  | n + 1, s =>
    let q := getDma s k
    match q.descs with
    | [] => s
    | x :: l =>
      if x.mark then
        settleMarks k n (complete x.id (setDma k { q with descs := l, high := fld x.w0 3 7, low := fld x.w0 10 7 } s))
      else s

/-- DMAMARK (R155). -/
def execDmamark (d : DieId) (e : Fin 2) (c : PCmd) (s : State) : Host.Outcome State Fault Refusal :=
  .next (withIssue none (.dma d e) c s fun s _ id =>
    let hi := fld (c.w 0) 3 7
    let lo := fld (c.w 0) 10 7
    if hi = 0 ∨ 64 < hi ∨ 63 < lo ∨ hi ≤ lo then refuse id s
    else
      let k := dmaKey d.val e.val (fld (c.w 0) 0 3)
      let q := getDma s k
      let s1 := setDma k { q with descs := q.descs ++ [{ id := id, mark := true, w0 := c.w 0 }] } s
      settleMarks k (q.descs.length + 1) s1)

/-- Bytes staged in a queue. -/
def DmaQ.fill (q : DmaQ) : Nat := q.staged.foldl (fun n x => n + x.2.1.length) 0

/-- Storing a descriptor of a queue. -/
def DmaQ.put (q : DmaQ) (x : DDesc) : DmaQ := { q with descs := q.descs.map fun y => if y.id = x.id then x else y }

/-- The descriptor at the queue's reader, and at its writer (R154). -/
def DmaQ.reader (q : DmaQ) : Option DDesc :=
  q.descs.find? fun x => !x.mark && !x.stopped && decide (x.nRead < x.count)
def DmaQ.writer (q : DmaQ) : Option DDesc :=
  q.descs.find? fun x => !x.mark && !x.stopped && decide (x.nWritten < x.count)

/-- Reading n units of a descriptor into the staging buffer, each with whether it is poisoned (R152, R157). -/
def readUnits (client : Nat) (x : DDesc) : Nat → Nat → State → List (Nat × List Byte × Bool) × State
  | 0, _, s => ([], s)
  | n + 1, k, s =>
    let (bs, s1) := readBuf client x.src (x.sname / 4096) (x.sAt k) x.unit s
    let (us, s2) := readUnits client x n (k + 1) s1
    ((x.id, plain bs, anyPoison bs) :: us, s2)

/-- The client of an issued command. -/
def flightClient (s : State) (id d : Nat) : Nat := ((findFlight s id).map (·.client)).getD (clientOn s d)

/-- DMA_READ_ISSUE (R154): the reader fills the staging buffer, up to 256 B a cycle, while the request fits. A source ring
slot that is not FULL holds it. -/
def execDmaReadIssue (d : DieId) (e : Fin 2) (q : Fin 8) (s : State) : Host.Outcome State Fault Refusal :=
  let k := dmaKey d.val e.val q.val
  let x := getDma s k
  .next (match x.reader with
    | none => s
    | some r =>
      let n := min (256 / r.unit) (r.count - r.nRead)
      let off := r.sAt r.nRead
      let len := if r.sfix then r.unit else n * r.unit
      if 65536 < x.fill + n * r.unit then s
      else if r.op = 2 then
        let u := (leBytes 8 r.w4.toNat)
        let bytes := (List.range (r.unit / 8)).flatMap fun _ => u
        charge (.dma d e) 0x00
          (setDma k { x.put { r with nRead := r.nRead + n } with
            staged := x.staged ++ (List.range n).map fun _ => (r.id, bytes, false) } s)
      else if ¬ readReady s r.sname r.src off len then charge (.dma d e) 0x0F s
      else
        let (us, s1) := readUnits (flightClient s r.id d.val) r n r.nRead s
        charge (.dma d e) 0x00
          (setDma k { x.put { r with nRead := r.nRead + n } with staged := x.staged ++ us }
            (crossBridge (flightClient s r.id d.val) d.val (r.sname / 4096) (n * r.unit) s1)))

/-! ### Writing (R152, R154, R157, R283, R292) -/

/-- The outcome of a unit at the writer. -/
inductive UnitOut where
  | waits
  | stops (s : State)
  | done (x : DDesc) (s : State)
  deriving Repr

/-- Writing or comparing one staged unit of a descriptor whose destination is on the module. -/
def localUnit (d client : Nat) (x : DDesc) (bs : List Byte) (s : State) : UnitOut :=
  let off := x.dAt x.nWritten
  if x.op = 3 then
    if ¬ readReady s x.dname x.dst off x.unit then .waits
    else
      let (cs, s1) := readBuf client x.dst (x.dname / 4096) off x.unit s
      if anyPoison cs then .stops s1
      else if plain cs = bs then .done { x with nWritten := x.nWritten + 1 } s1
      else .done { x with nWritten := x.nWritten + 1, differ := x.differ + 1,
                          first := some (x.first.getD x.nWritten) } s1
  else
    let cur := if x.dname / 4096 = d then x.dst else getEnt s x.dname
    let w : Writer := { mod := moduleId s, die := Fin.ofNat 4 d, eng := 6 }
    let admitted := decide (x.dname / 4096 = d) || windowAdmits s cur w off x.unit
    if admitted ∧ ¬ writeReady s x.dname cur off x.unit then .waits
    else .done { x with nWritten := x.nWritten + 1 } (engineWrite client d 6 x.dname x.dst off bs s).1

/-- Writing or comparing up to n staged units of the writer's descriptor, at their places; the flag says that a poisoned
unit has stopped it, the number how many bytes were done. -/
def localUnits (d client : Nat) : Nat → DDesc → List (Nat × List Byte × Bool) → Nat → State →
    DDesc × List (Nat × List Byte × Bool) × Nat × Bool × State
  | 0, x, st, b, s => (x, st, b, false, s)
  | _ + 1, x, [], b, s => (x, [], b, false, s)
  | n + 1, x, u :: st, b, s =>
    if u.1 ≠ x.id then (x, u :: st, b, false, s)
    else if u.2.2 then (x, u :: st, b, true, s)
    else
      match localUnit d client x u.2.1 s with
      | .waits => (x, u :: st, b, false, s)
      | .stops s1 => (x, u :: st, b, true, s1)
      | .done y s1 => localUnits d client n y st (b + x.unit) s1

/-- The units of a descriptor at the head of the staging buffer, up to n and short of a poisoned one. -/
def headUnits (id : Nat) : Nat → List (Nat × List Byte × Bool) → List Byte × List (Nat × List Byte × Bool)
  | 0, st => ([], st)
  | _ + 1, [] => ([], [])
  | n + 1, u :: st =>
    if u.1 ≠ id ∨ u.2.2 then ([], u :: st)
    else
      let (bs, r) := headUnits id n st
      (u.2.1 ++ bs, r)

/-- Sending units of a remote descriptor: into its timetabled transfer, or as a best-effort packet (R283, R292). -/
def remoteUnits (d : DieId) (e : Fin 2) (client : Nat) (x : DDesc) (bs : List Byte) (s : State) : State :=
  let dh := fld x.w0 22 12
  let ddie := fld x.w0 36 2
  if x.best then
    addPacket { dmod := fld x.w0 38 12, smod := moduleId s, client := client, owner := x.id,
                bytes := transferRecord s dh ddie (x.dAt x.nWritten) bs.length x.dfix (bit x.w0 8) ++ bs } s
  else
    let port := portFor s ((shareOf s client).slot x.slot).port
    let s1 := if x.nWritten = 0 then
        beginTx x.slot client port (.dma d e) x.id
          (transferRecord s dh ddie x.doff (x.count * x.unit) x.dfix (bit x.w0 8)) (x.count * x.unit) s
      else s
    feedTx x.slot client bs s1

/-- Whether the writer bursts (R154). -/
def bursting (s : State) (client : Nat) (q : DmaQ) (x : DDesc) : Bool :=
  let fill := q.fill
  if x.remote then (x.best || slotLive s client x.slot) && decide (0 < fill)
  else
    let tail := decide (x.op = 2) || decide (x.nRead = x.count)
    let b := q.burst || decide (q.high * 1024 ≤ fill) || (tail && decide (0 < fill))
    b && !(decide (fill ≤ q.low * 1024) && !tail)

/-- Counting bytes that a queue has written or compared (R158). -/
def countDma (d e q n : Nat) (s : State) : State :=
  if n = 0 then s else bump (dmaQBlk d e q 0) 0x18 n (bumpDict (dkey 0x4020 0x05) n s)

/-- A poisoned unit stops its descriptor: its staged units are dropped (R157). -/
def stopDesc (k d e q : Nat) (x : DDesc) (s : State) : State :=
  let y := getDma s k
  setBit (dmaQBlk d e q 0) 19
    (setDma k { y.put { x with stopped := true } with staged := y.staged.filter fun u => decide (u.1 ≠ x.id) } s)

/-- DMA_WRITE_UNITS (R152, R154): the writer starts, stops, and writes or compares the next units, up to 256 B. -/
def execDmaWriteUnits (d : DieId) (e : Fin 2) (q : Fin 8) (s : State) : Host.Outcome State Fault Refusal :=
  let k := dmaKey d.val e.val q.val
  let y := getDma s k
  .next (match y.writer with
    | none => s
    | some x =>
      let client := flightClient s x.id d.val
      let b := bursting s client y x
      let s0 := setDma k { y with burst := b } s
      if ¬ b then
        if x.remote ∧ ¬ x.best ∧ ¬ slotLive s client x.slot then charge (.dma d e) 0x14 s0
        else if 0 < y.fill then charge (.dma d e) 0x15 s0
        else s0
      else
        let n := 256 / x.unit
        if x.remote then
          let (bs, st) := headUnits x.id n y.staged
          let m := bs.length / x.unit
          let s1 := if m = 0 then s0 else
            countDma d.val e.val q.val bs.length (remoteUnits d e client x bs
              (setDma k { y.put { x with nWritten := x.nWritten + m } with staged := st, burst := b } s0))
          let bad := match st with
            | u :: _ => decide (m < n) && decide (u.1 = x.id) && u.2.2
            | [] => false
          charge (.dma d e) 0x00
            (if bad then stopDesc k d.val e.val q.val { x with nWritten := x.nWritten + m } s1 else s1)
        else
          let (x1, st, bytes, bad, s1) := localUnits d.val client n x y.staged 0 s0
          let s2 := countDma d.val e.val q.val bytes
            (setDma k { y.put x1 with staged := st, burst := b } s1)
          if bad then charge (.dma d e) 0x00 (stopDesc k d.val e.val q.val x1 s2)
          else if bytes = 0 then charge (.dma d e) 0x0F s2
          else charge (.dma d e) 0x00 s2)

/-- Whether a descriptor is done: written or stopped, and a remote one acknowledged (R154, R283). -/
def descDone (s : State) (x : DDesc) : Bool :=
  !x.mark && (x.stopped || decide (x.nWritten = x.count)) && (!x.remote || ownerQuiet s x.id)

/-- DMA_DESC_COMPLETE (R154): the descriptor at the head of the queue completes; COMPARE leaves its results (R152). -/
def execDmaDescComplete (d : DieId) (e : Fin 2) (q : Fin 8) (s : State) : Host.Outcome State Fault Refusal :=
  let k := dmaKey d.val e.val q.val
  let y := getDma s k
  .next (match y.descs with
    | [] => s
    | x :: l =>
      if ¬ descDone s x then s
      else
        let b := dmaQBlk d.val e.val q.val 0
        let s1 := setDma k { y with descs := l } s
        let s2 := if x.op = 3 then
            setReg (b + 8) (BitVec.ofNat 64 x.differ)
              (setReg (b + 0x10) (match x.first with | some f => BitVec.ofNat 64 f | none => BitVec.allOnes 64) s1)
          else s1
        settleMarks k (l.length + 1) (complete x.id (endTx x.id s2)))

end Sys2Proof.Machine
end

