-- ==== Sys2Proof/Machine/FpMath.lean ====
section
/-! DEFINITION. FP32 arithmetic, correctly rounded functions, and exact reduction registers (R52 to R54, R118 to R120, R125). -/

namespace Sys2Proof.Machine

/-! ### FP32 arithmetic (R118) -/

/-- Whether FP32 bits are a NaN or an infinity. -/
def nonFinite32 (x : Lane) : Bool := decide (0x7F800000 ≤ x.toNat % 2 ^ 31)

/-- The sign of a value. -/
def FVal.neg : FVal → Bool
  | .fin n _ => n
  | .inf n => n
  | .nan => false

/-- A value with its sign inverted. -/
def FVal.flip : FVal → FVal
  | .fin n m => .fin (!n) m
  | .inf n => .inf (!n)
  | .nan => .nan

/-- a x b, exactly. -/
def fmulV (a b : FVal) : FVal :=
  match a, b with
  | .nan, _ => .nan
  | _, .nan => .nan
  | .inf x, .inf y => .inf (x != y)
  | .inf x, .fin y m => if m = 0 then .nan else .inf (x != y)
  | .fin x m, .inf y => if m = 0 then .nan else .inf (x != y)
  | .fin x m, .fin y n => .fin (x != y) (m * n)

/-- a + b rounded once to FP32: two zeros of one sign keep it, any other zero sum is +0. -/
def faddV (a b : FVal) : Lane :=
  match a, b with
  | .nan, _ => nan32
  | _, .nan => nan32
  | .inf x, .inf y => if x = y then inf32 x else nan32
  | .inf x, _ => inf32 x
  | _, .inf y => inf32 y
  | .fin x _, .fin y _ => toF32 (x && y) (a.toRat + b.toRat)

/-- FP32 addition, subtraction, multiplication and fused multiply-add. -/
def fadd (a b : Lane) : Lane := faddV (f32 a) (f32 b)
def fsub (a b : Lane) : Lane := faddV (f32 a) (f32 b).flip
def fmul (a b : Lane) : Lane := f32Bits (fmulV (f32 a) (f32 b))
def ffma (a b c : Lane) : Lane := faddV (fmulV (f32 a) (f32 b)) (f32 c)
def ffms (a b c : Lane) : Lane := faddV (fmulV (f32 a) (f32 b)) (f32 c).flip
def ffnma (a b c : Lane) : Lane := faddV (f32 c) (fmulV (f32 a) (f32 b)).flip

/-- A key that orders FP32 values, with -0 below +0 (R119). -/
def ordKey (x : Lane) : Int :=
  let m : Int := (x.toNat % 2 ^ 31 : Nat)
  if x.msb then -m - 1 else m

/-- Whether FP32 bits are a NaN. -/
def isNan32 (x : Lane) : Bool := decide (0x7F800000 < x.toNat % 2 ^ 31)

/-- Minimum and maximum (R119). -/
def fmin (a b : Lane) : Lane := if isNan32 a || isNan32 b then nan32 else if ordKey b < ordKey a then b else a
def fmax (a b : Lane) : Lane := if isNan32 a || isNan32 b then nan32 else if ordKey a < ordKey b then b else a

/-- VCMP by SUB: EQ, NE, LT, LE, UNORD (R117, R119). -/
def fcmp (sub : Nat) (a b : Lane) : Bool :=
  let un := isNan32 a || isNan32 b
  let x := (f32 a)
  let y := (f32 b)
  let key (v : FVal) : Rat := match v with
    | .inf n => if n then -(pow2 200) else pow2 200
    | w => w.toRat
  if sub = 0 then !un && decide (key x = key y)
  else if sub = 1 then un || decide (key x ≠ key y)
  else if sub = 2 then !un && decide (key x < key y)
  else if sub = 3 then !un && decide (key x ≤ key y)
  else un

/-- VICMP by SUB: EQ, NE, LT, LE on signed integers. -/
def icmp (sub : Nat) (a b : Lane) : Bool :=
  if sub = 0 then decide (a = b) else if sub = 1 then decide (a ≠ b)
  else if sub = 2 then a.slt b else a.sle b

/-- VCVTIF and VCVTFI (R117). -/
def cvtIF (a : Lane) : Lane := toF32 false (a.toInt : Rat)
def cvtFI (a : Lane) : Lane :=
  match f32 a with
  | .nan => 0
  | .inf n => if n then 0x80000000#32 else 0x7FFFFFFF#32
  | .fin n m =>
    let k := roundUnits .rne m
    if n then (if 2 ^ 31 ≤ k then 0x80000000#32 else BitVec.ofNat 32 (2 ^ 32 - k))
    else if 2 ^ 31 ≤ k then 0x7FFFFFFF#32 else BitVec.ofNat 32 k

/-- VDIV and VRCP (R119). -/
def fdiv (a b : Lane) : Lane :=
  match f32 a, f32 b with
  | .nan, _ => nan32
  | _, .nan => nan32
  | .inf _, .inf _ => nan32
  | .inf x, .fin y _ => inf32 (x != y)
  | .fin x _, .inf y => f32Bits (.fin (x != y) 0)
  | .fin x m, .fin y n => if n = 0 then (if m = 0 then nan32 else inf32 (x != y)) else f32Bits (.fin (x != y) (m / n))

/-- 1.0 in FP32. -/
def one32 : Lane := 0x3F800000#32

/-! ### Correctly rounded functions (R119)

Roots are rounded from an integer root with a sticky bit. The transcendentals are formed in fixed point with fixBits
fraction bits, far beyond the 24 of an FP32 result, and rounded once: see assumption log 13. -/

/-- A positive rational's square root, bracketed finely enough that rounding it to FP32 is exact. -/
def sqrtRat (x : Rat) : Rat :=
  let sh : Nat := 2 * (x.den.log2 + 100)
  let n := (x * pow2 sh).floor.toNat
  let r := Nat.sqrt n
  if ((r * r : Nat) : Rat) = x * pow2 sh then (r : Rat) / pow2 (sh / 2 : Nat)
  else ((2 * r + 1 : Nat) : Rat) / pow2 ((sh / 2 + 1 : Nat) : Int)

def fsqrt (a : Lane) : Lane :=
  match f32 a with
  | .nan => nan32
  | .inf n => if n then nan32 else inf32 false
  | .fin n m => if m = 0 then a else if n then nan32 else toF32 false (sqrtRat m)

def frsqrt (a : Lane) : Lane :=
  match f32 a with
  | .nan => nan32
  | .inf n => if n then nan32 else 0
  | .fin n m => if m = 0 then inf32 n else if n then nan32 else toF32 false (sqrtRat (1 / m))

/-- Fraction bits of the fixed-point values below. -/
def fixBits : Nat := 512

/-- 1 in fixed point. -/
def fixOne : Int := 2 ^ 512

/-- Fixed-point product and quotient, rounded down. -/
def fixMul (a b : Int) : Int := a * b / fixOne
def fixDiv (a b : Int) : Int := a * fixOne / b

/-- A rational in fixed point, rounded down. -/
def fixOf (x : Rat) : Int := (x * (fixOne : Rat)).floor

/-- A fixed-point value as a rational. -/
def ofFix (x : Int) : Rat := (x : Rat) / (fixOne : Rat)

/-- A power series: term n + 1 is term n times x, divided by div n; wt n scales a term on its way into the sum. -/
def fixSeries (terms : Nat) (x t0 : Int) (div : Nat → Int) (wt : Nat → Int) : Int :=
  ((List.range terms).foldl (fun (a : Int × Int) n => (a.1 + a.2 / wt n, fixMul a.2 x / div n)) (0, t0)).1

/-- atanh of a small value: the sum of y^(2k + 1) / (2k + 1). -/
def fixAtanh (y : Int) : Int := fixSeries 180 (fixMul y y) y (fun _ => 1) (fun n => 2 * n + 1)

/-- ln 2. -/
def fixLn2 : Int := 2 * fixAtanh (fixOne / 3)

/-- atan(1 / n). -/
def fixAtanInv (n : Nat) : Int :=
  fixSeries 240 (-(fixOne / (n * n : Nat))) (fixOne / n) (fun _ => 1) (fun k => 2 * k + 1)

/-- pi, by Machin's formula. -/
def fixPi : Int := 16 * fixAtanInv 5 - 4 * fixAtanInv 239

/-- e^r for r below 1 in magnitude. -/
def fixExp (r : Int) : Int := fixSeries 120 r fixOne (fun n => n + 1) (fun _ => 1)

/-- e^x as a rational, for x within 400 of 0. -/
def expRat (x : Rat) : Rat :=
  let k := (x / ofFix fixLn2 + 1 / 2).floor
  ofFix (fixExp (fixOf x - k * fixLn2)) * pow2 k

/-- A value kept within a bound of 0. -/
def clampTo (b : Rat) (x : Rat) : Rat := if b < x then b else if x < -b then -b else x

/-- ln m for m from 1 to 2. -/
def fixLn (m : Rat) : Int := 2 * fixAtanh (fixOf ((m - 1) / (m + 1)))

/-- sin and cos of r below 1 in magnitude. -/
def fixSin (r : Int) : Int :=
  fixSeries 60 (-(fixMul r r)) r (fun n => (2 * n + 2) * (2 * n + 3)) (fun _ => 1)
def fixCos (r : Int) : Int :=
  fixSeries 60 (-(fixMul r r)) fixOne (fun n => (2 * n + 1) * (2 * n + 2)) (fun _ => 1)

/-- sin(x + q pi / 2), for a finite x. -/
def sinRat (x : Rat) (q : Int) : Rat :=
  let half := fixPi / 2
  let k := (x / ofFix half + 1 / 2).floor
  let r := (x * (fixOne : Rat)).floor - k * half
  match (k + q) % 4 with
  | 0 => ofFix (fixSin r)
  | 1 => ofFix (fixCos r)
  | 2 => -ofFix (fixSin r)
  | _ => -ofFix (fixCos r)

/-- erf x for x within 7 of 0. -/
def erfRat (x : Rat) : Rat :=
  let y := fixOf x
  let s := fixSeries 400 (-(fixMul y y)) y (fun n => n + 1) (fun n => 2 * n + 1)
  let rootPi : Int := Nat.sqrt (fixPi * fixOne).toNat
  ofFix (fixDiv (2 * s) rootPi)

def fexp (a : Lane) : Lane :=
  match f32 a with
  | .nan => nan32
  | .inf n => if n then 0 else inf32 false
  | v => toF32 false (expRat (clampTo 400 v.toRat))

def fexp2 (a : Lane) : Lane :=
  match f32 a with
  | .nan => nan32
  | .inf n => if n then 0 else inf32 false
  | v =>
    let x := clampTo 400 v.toRat
    let k := x.floor
    toF32 false (ofFix (fixExp (fixMul (fixOf (x - k)) fixLn2)) * pow2 k)

def flogWith (a : Lane) (f : Rat → Int → Rat) : Lane :=
  match f32 a with
  | .nan => nan32
  | .inf n => if n then nan32 else inf32 false
  | .fin n m =>
    if m = 0 then inf32 true
    else if n then nan32
    else
      let e := ilog2 m
      toF32 false (f (m * pow2 (-e)) e)

def flog (a : Lane) : Lane := flogWith a fun m e => ofFix (fixLn m + e * fixLn2)
def flog2 (a : Lane) : Lane := flogWith a fun m e => (e : Rat) + ofFix (fixDiv (fixLn m) fixLn2)

def ftanh (a : Lane) : Lane :=
  match f32 a with
  | .nan => nan32
  | .inf n => if n then 0xBF800000#32 else one32
  | .fin n m =>
    if m = 0 then a
    else
      let e := expRat (clampTo 200 (2 * m))
      f32Bits (.fin n ((e - 1) / (e + 1)))

def fsigm (a : Lane) : Lane :=
  match f32 a with
  | .nan => nan32
  | .inf n => if n then 0 else one32
  | v => toF32 false (1 / (1 + expRat (clampTo 400 (-v.toRat))))

def ferf (a : Lane) : Lane :=
  match f32 a with
  | .nan => nan32
  | .inf n => if n then 0xBF800000#32 else one32
  | .fin n m => if m = 0 then a else f32Bits (.fin n (if 7 < m then 1 else erfRat m))

def fsin (a : Lane) : Lane :=
  match f32 a with
  | .nan => nan32
  | .inf _ => nan32
  | v => if v.toRat = 0 then a else toF32 false (sinRat v.toRat 0)

def fcos (a : Lane) : Lane :=
  match f32 a with
  | .nan => nan32
  | .inf _ => nan32
  | v => toF32 false (sinRat v.toRat 1)

/-! ### Exact reduction registers (R52 to R54) -/

/-- Adding to GUARD, which stops at its largest value. -/
def guardAdd (g : BitVec 64) (n : Nat) : BitVec 64 := stickyAdd 64 g n

/-- VALUE as a number. -/
def XReg.num (x : XReg) : Rat := (toSigned 320 x.val.toNat : Rat) * pow2 (-149)

/-- SAT: GUARD exceeds 2^42 (R52). -/
def XReg.sat (x : XReg) : Bool := decide (2 ^ 42 < x.guard.toNat)

/-- What a finite contribution adds to GUARD (R53). -/
def guardOf (m : Rat) : Nat := if m < pow2 128 then 1 else 2 ^ (ilog2 m - 127).toNat

/-- Adding a contribution (R53). -/
def XReg.add (x : XReg) (c : FVal) : XReg :=
  match c with
  | .nan => { x with nan := true }
  | .inf n => if n then { x with ninf := true } else { x with pinf := true }
  | .fin _ m =>
    { x with
      val := x.val + BitVec.ofNat 320 (ofSigned 320 (c.toRat * pow2 149).floor)
      guard := guardAdd x.guard (guardOf m) }

/-- Merging register q into p (R53). -/
def XReg.merge (p q : XReg) : XReg :=
  { val := p.val + q.val, guard := guardAdd p.guard q.guard.toNat, nan := p.nan || q.nan, pinf := p.pinf || q.pinf,
    ninf := p.ninf || q.ninf }

/-- Adding an accumulator value (R128): a saturated entry sets GUARD to its largest value. -/
def XReg.addAcc (x : XReg) (a : AccOut) : XReg :=
  let y := x.add (FVal.ofRat false a.val)
  { y with guard := if a.sat then BitVec.allOnes 64 else y.guard, nan := y.nan || a.nan, pinf := y.pinf || a.pinf,
           ninf := y.ninf || a.ninf }

/-- A register times an exact multiplier, as a value to narrow (R54). -/
def XReg.value (x : XReg) (m : Rat) : DVal :=
  let v := x.num * m
  if x.nan ∨ (x.pinf ∧ x.ninf) then .nan
  else if x.pinf then .inf false
  else if x.ninf then .inf true
  else if x.sat then .sat (decide (x.num < 0) != decide (m < 0)) (rabs v)
  else .num (decide (v < 0)) (rabs v)

/-- A value narrowed to FP32 with OVF = 1 (R54, R118), and whether it counted a saturation. -/
def narrow32 (v : DVal) : Lane × Bool :=
  match v with
  | .nan => (nan32, false)
  | .inf n => (inf32 n, false)
  | .sat n _ => (inf32 n, true)
  | .num n m => let c := convFloat .fp32 true .rne n m; (BitVec.ofNat 32 c.code, c.sat)

end Sys2Proof.Machine
end

