-- ==== Sys2Proof/Machine/VecOps.lean ====
section
/-! DEFINITION. What vector instructions share: registers and masks, issue and REP, upsets, draws, counts (R108 to R118, R130 to R132, R134). -/

namespace Sys2Proof.Machine

/-! ### Registers (R108, R116) -/

/-- A register of zeros. -/
def zeroV : VReg := Vector.replicate 512 0

/-- An exact register of zeros. -/
def zeroX : XVec := Vector.replicate 512 {}

/-- Vector register r. -/
def getV (v : VecS) (r : Nat) : VReg := mget zeroV v.v r

/-- Storing vector register r. -/
def setV (v : VecS) (r : Nat) (x : VReg) : VecS := { v with v := mset zeroV v.v r x }

/-- Mask register m: M0 reads all ones. -/
def getM (v : VecS) (m : Nat) : Mask := if m = 0 then BitVec.allOnes 512 else mget 0 v.m m

/-- Storing mask register m. -/
def setM (v : VecS) (m : Nat) (x : Mask) : VecS := { v with m := mset 0 v.m m x }

/-- Exact register x. -/
def getX (v : VecS) (x : Nat) : XVec := mget zeroX v.x x

/-- Storing exact register x. -/
def setX (v : VecS) (r : Nat) (x : XVec) : VecS := { v with x := mset zeroX v.x r x }

/-- The lanes that an instruction writes. -/
def laneMask (v : VecS) (w : Word) : Mask := getM v (iMsk w)

/-- Writing VD under the mask (R116). -/
def writeV (w : Word) (f : Fin 512 → Lane) (v : VecS) : VecS :=
  let m := laneMask v w
  let old := getV v (iVd w)
  setV v (iVd w) (Vector.ofFn fun i => if m.getLsbD i.val then f i else if iMz w then 0 else old.get i)

/-- Bits of a mask from a test. -/
def maskOf (f : Nat → Bool) : Mask :=
  BitVec.ofNat 512 ((List.range 512).foldl (fun n i => if f i then n + 2 ^ i else n) 0)

/-- Writing mask VD under the mask (R116). -/
def writeM (w : Word) (x : Mask) (v : VecS) : VecS :=
  let m := laneMask v w
  let old := getM v (iVd w % 8)
  setM v (iVd w % 8) ((x &&& m) ||| (if iMz w then 0 else old &&& ~~~m))

/-- Writing exact register VD under the mask (R116); f takes a lane's present state. -/
def writeX (w : Word) (f : Fin 512 → XReg → XReg) (v : VecS) : VecS :=
  let m := laneMask v w
  let r := iVd w % 8
  let old := getX v r
  setX v r (Vector.ofFn fun i => if m.getLsbD i.val then f i (old.get i) else if iMz w then {} else old.get i)

/-! ### Upsets (R110) -/

/-- Places of guarded words: vector registers from 0 (register x 256 + lane pair), exact registers from 0x10000
((register x 512 + lane) x 8 + word: 0 to 4 VALUE, 5 GUARD, 6 flags), masks from 0x20000 (register x 8 + word). -/
def exactBase : Nat := 0x10000
def maskBase : Nat := 0x20000

/-- Counting a corrected or an uncorrectable error of vector state (R110, R134, R430). -/
def noteVecErr (t : TileId) (client reg pair : Nat) (r : ReadErr) (s : State) : State :=
  let s1 := if r.corrected then setBit (vecBlk t 0) 4 s else s
  if r.bad then
    postUncorr 3 (tileDie t) false ((t.val % 16 * 128 + reg) * 256 + pair) client (setBit (vecBlk t 0) 5 s1)
  else s1

/-- Flipped bits of an exact register's word k. -/
def xUpset (x : XReg) (k : Nat) (r : ReadErr) : XReg :=
  if r.bad then { x with nan := true }
  else if k < 5 then { x with val := x.val ^^^ (r.mask.setWidth 320 <<< (64 * k)) }
  else if k = 5 then { x with guard := x.guard ^^^ r.mask }
  else { x with nan := x.nan != bit r.mask 0, pinf := x.pinf != bit r.mask 1, ninf := x.ninf != bit r.mask 2 }

/-- One upset in a word that the instruction reads: corrected, or its lanes lost (R110). A lost mask word is open: a free
value (log 4). -/
def vecUpset (t : TileId) (client : Nat) (w : Word) (u : Upset) (s : State) : State :=
  let r := readErr u.flips
  let v := getVec s t
  if u.place < exactBase then
    let reg := u.place / 256
    let p := u.place % 256
    if ¬ (readsVec w).contains reg then s
    else
      let x := getV v reg
      let x' : VReg := Vector.ofFn fun i =>
        if i.val / 2 ≠ p then x.get i
        else if r.bad then nan32
        else x.get i ^^^ BitVec.ofNat 32 (fld r.mask (32 * (i.val % 2)) 32)
      noteVecErr t client reg p r (setVec t (setV v reg x') s)
  else if u.place < maskBase then
    let k := u.place - exactBase
    let reg := k / 8 / 512
    let lane := k / 8 % 512
    if ¬ (readsExact w).contains reg then s
    else
      let x := getX v reg
      let x' : XVec := Vector.ofFn fun i => if i.val = lane then xUpset (x.get i) (k % 8) r else x.get i
      noteVecErr t client (64 + reg) (lane / 2) r (setVec t (setX v reg x') s)
  else
    let k := u.place - maskBase
    let reg := k / 8
    if ¬ (readsMask w).contains reg ∨ reg = 0 ∨ 8 ≤ reg then s
    else
      let (fv, s1) := if r.bad then fresh s else (r.mask, s)
      let flip := (fv.setWidth 512 : BitVec 512) <<< (64 * (k % 8))
      noteVecErr t client (72 + reg) (k % 8) r (setVec t (setM v reg (getM v reg ^^^ flip)) s1)

/-- The upsets of a command in the words its instruction reads. -/
def vecUpsets (t : TileId) (client : Nat) (w : Word) (us : List Upset) (s : State) : State :=
  us.foldl (fun s u => vecUpset t client w u s) s

/-! ### Issue (R111, R112, R114) -/

/-- What an instruction does: it is done, it waits for a cause, or it has met a stream fault. -/
inductive IRes where
  | done (s : State)
  | wait (code : Nat)
  | fault (s : State)
  deriving Repr

/-- The place of the next instruction (R114). -/
def advancePc (b : BlockRun) : BlockRun :=
  match b.rep with
  | none => { b with pc := b.pc + 1 }
  | some r =>
    if b.pc + 1 = r.start + r.n then
      if r.left ≤ 1 then { b with pc := b.pc + 1, rep := none } else { b with pc := r.start, rep := some { r with left := r.left - 1 } }
    else { b with pc := b.pc + 1 }

/-- Moving past the instruction and counting it (R134). -/
def retire (t : TileId) (s : State) : State :=
  let v := getVec s t
  bump (vecBlk t 0) 0x028 1 (setVec t { v with block := v.block.map advancePc } s)

/-- Running instruction word w of opcode o where the tile's block has it next; else the command finds nothing to do. -/
def runInstr (o : Nat) (t : TileId) (w : Word) (us : List Upset) (s : State) (k : State → IRes) :
    Host.Outcome State Fault Refusal :=
  .next (match (getVec s t).block with
    | none => s
    | some b =>
      if b.instrs[b.pc]? ≠ some w ∨ iOpc w ≠ o then s
      else match k (vecUpsets t (clientOn s (tileDie t)) w us s) with
        | .done s' => charge (.vector t) 0x00 (retire t s')
        | .wait code => charge (.vector t) code s
        | .fault s' => charge (.vector t) 0x1D s')

/-- An instruction that only changes vector state. -/
def runLane (o : Nat) (t : TileId) (w : Word) (us : List Upset) (s : State) (f : VecS → VecS) :
    Host.Outcome State Fault Refusal :=
  runInstr o t w us s fun s => .done (setVec t (f (getVec s t)) s)

/-- Counting non-finite results of finite sources (R118, R134). -/
def countNf (t : TileId) (n : Nat) (s : State) : State :=
  if n = 0 then s else bump (vecBlk t 0) 0x008 n (setBit (vecBlk t 0) 0 s)

/-- An FP32 instruction: f gives a lane's result, fin whether all its sources are finite. -/
def runFp (o : Nat) (t : TileId) (w : Word) (us : List Upset) (s : State) (f : VecS → Fin 512 → Lane)
    (fin : VecS → Fin 512 → Bool) : Host.Outcome State Fault Refusal :=
  runInstr o t w us s fun s =>
    let v := getVec s t
    let r : VReg := Vector.ofFn (f v)
    let m := laneMask v w
    let n := (List.finRange 512).countP fun i => m.getLsbD i.val && nonFinite32 (r.get i) && fin v i
    .done (countNf t n (setVec t (writeV w r.get v) s))

/-- Source lanes. -/
def srcA (v : VecS) (w : Word) (i : Fin 512) : Lane := (getV v (iVa w)).get i
def srcB (v : VecS) (w : Word) (i : Fin 512) : Lane := (getV v (iVb w)).get i
def srcC (v : VecS) (w : Word) (i : Fin 512) : Lane := (getV v (iVc w)).get i

/-- Whether source lanes are finite. -/
def finA (w : Word) (v : VecS) (i : Fin 512) : Bool := !nonFinite32 (srcA v w i)
def finAB (w : Word) (v : VecS) (i : Fin 512) : Bool := finA w v i && !nonFinite32 (srcB v w i)
def finABC (w : Word) (v : VecS) (i : Fin 512) : Bool := finAB w v i && !nonFinite32 (srcC v w i)

/-- One-, two- and three-source FP32 instructions. -/
def runFp1 (o : Nat) (t : TileId) (w : Word) (us : List Upset) (s : State) (f : Lane → Lane) :=
  runFp o t w us s (fun v i => f (srcA v w i)) (finA w)
def runFp2 (o : Nat) (t : TileId) (w : Word) (us : List Upset) (s : State) (f : Lane → Lane → Lane) :=
  runFp o t w us s (fun v i => f (srcA v w i) (srcB v w i)) (finAB w)
def runFp3 (o : Nat) (t : TileId) (w : Word) (us : List Upset) (s : State) (f : Lane → Lane → Lane → Lane) :=
  runFp o t w us s (fun v i => f (srcA v w i) (srcB v w i) (srcC v w i)) (finABC w)

/-- Integer and bit instructions of two sources. -/
def runInt2 (o : Nat) (t : TileId) (w : Word) (us : List Upset) (s : State) (f : Lane → Lane → Lane) :=
  runLane o t w us s fun v => writeV w (fun i => f (srcA v w i) (srcB v w i)) v

/-- A lane of a register by number. -/
def laneAt (x : VReg) (i : Nat) : Lane := x.get (Fin.ofNat 512 i)

/-- Group size of a SUB code (R117). -/
def groupSize (sub : Nat) : Nat := 16 * 2 ^ sub

/-! ### Draws (R130 to R132) -/

/-- The counter of a lane's draw (R130). -/
def laneCtr (c : DrawCtx) (step off : Nat) : Nat := drawCtr step c.mb c.layer c.tensor (c.d / 4) (c.base + off)

/-- The draws of every lane, by their offset register (R130 to R132). -/
def drawLanes (s : State) (t : TileId) (offs : VReg) : Fin 512 → Nat :=
  let client := clientOn s (tileDie t)
  let c := (getVec s t).ctx
  fun i => laneDraw (seedOf s client) (laneCtr c (stepOf s client) (offs.get i).toNat) (c.d % 4)

/-- After a drawing instruction: the draw number advances; a wrap sets DRAW_WRAP and posts (R131, R134). -/
def afterDraw (t : TileId) (s : State) : State :=
  let v := getVec s t
  let s1 := bump (vecBlk t 0) 0x020 1 (setVec t { v with ctx := { v.ctx with d := (v.ctx.d + 1) % 16384 } } s)
  if v.ctx.d = 16383 then post 0x0206 (clientOn s (tileDie t)) t.val (setBit (vecBlk t 0) 2 s1) else s1

/-- Counting saturations of vector conversions (R134). -/
def countVSat (t : TileId) (n : Nat) (s : State) : State := if n = 0 then s else bump (vecBlk t 0) 0x010 n s

/-- A narrowing that the SAT row of R54 decided (R125, R134). -/
def noteExactSat (t : TileId) (b : Bool) (s : State) : State :=
  if b then setBit (vecBlk t 0) 1 (setScope (clientOn s (tileDie t)) scSaturated s) else s

/-- An instruction that is skipped alone with an illegal-encoding event (R111, R129). -/
def skipInstr (t : TileId) (s : State) : State :=
  match (getVec s t).block with
  | none => s
  | some b => match findFlight s b.id with
    | some f => noteIllegal (.vector t) (clientOn s (tileDie t)) f.win s
    | none => setBit (vecBlk t 0) 3 s

/-! ### Pushes (R123, R242) -/

/-- How many elements a planned push takes. -/
def pushCount (segs : List (Nat × Nat × Nat × RowRes)) : Nat := segs.foldl (fun m g => m + g.2.2.1) 0

/-- The values of a planned push in the destination's format (R123): draws when it rounds stochastically, blocks by lane;
the lanes of null records and of padding are not counted. -/
def pushOut (s : State) (t : TileId) (offs : VReg) (vals : Fin 512 → DVal) (d : Desc)
    (segs : List (Nat × Nat × Nat × RowRes)) : RowOut :=
  let f := d.fmt
  let draws : Vector Nat 512 := if f.rnd then Vector.ofFn (drawLanes s t offs) else Vector.replicate 512 0
  let rnd (i : Nat) : Rnd := if f.rnd then .sr (draws.get (Fin.ofNat 512 i)) else .rne
  let lanes : List (Bool × Nat) := segs.flatMap fun g =>
    (List.range g.2.2.1).map fun j =>
      (match g.2.2.2 with | .row _ => decide (d.col0 + g.2.1 + j < d.ent.cols) | _ => false, j)
  let cnt (i : Nat) : Bool := (nth (false, 0) lanes i).1
  narrowRun f d.ent.tscale rnd cnt ((List.range (pushCount segs)).map fun i => vals (Fin.ofNat 512 i))

/-- The descriptor after a push (R123, R206): null records are discarded. -/
def pushAll (d : Desc) (segs : List (Nat × Nat × Nat × RowRes)) (out : RowOut) : Desc :=
  let (d1, _) := segs.foldl (fun (acc : Desc × Nat) g =>
    let (d, p) := acc
    let len := g.2.2.1
    match g.2.2.2 with
    | .row r =>
      (pushSeg d g.1 g.2.1 r ((out.codes.drop p).take len)
        (((out.blocks.drop (p / d.fmt.blk)).take (cdiv len d.fmt.blk)).map (·.scale)), p + len)
    | _ => (d, p + len)) (d, 0)
  { d1 with pushed := d.pushed + pushCount segs }

/-- A push that has its place (R123, R134, R206): the descriptor grows, and draws, saturations and flags are noted. -/
def pushDone (t : TileId) (k : Nat) (offs : VReg) (vals : Fin 512 → DVal) (q : Bool) (d : Desc)
    (segs : List (Nat × Nat × Nat × RowRes)) (s : State) : State :=
  let out := pushOut s t offs vals d segs
  let s1 := setStr t (putDesc (getStr s t) k q (pushAll d segs out)) s
  let s2 := if d.fmt.rnd then afterDraw t s1 else s1
  let s3 := countVSat t out.fold.sats s2
  let s4 := if out.fold.viols = 0 then s3 else bump (vecBlk t 0) 0x018 out.fold.viols s3
  producerFlags (clientOn s (tileDie t)) d.hdie d.ent.stat 0 out s4

/-- Pushing 512 values into stream k (R123, R206, R210). -/
def pushValues (t : TileId) (k : Nat) (offs : VReg) (vals : Fin 512 → DVal) (s : State) : IRes :=
  match planPush (getStr s t) k 512 with
  | .wait => .wait 0x0C
  | .oor i idx => .fault (faultRegion t (clientOn s (tileDie t)) k i idx s)
  | .ok q d segs => .done (pushDone t k offs vals q d segs s)

end Sys2Proof.Machine
end

