-- ==== Sys2Proof/Machine/Vector.lean ====
section
/-! DEFINITION. Vector engine: VBLOCK, its completion, and the instructions but for XBIND and XFREE (R111 to R134). -/

namespace Sys2Proof.Machine

/-- VBLOCK (R111, R112): the block starts, its draw number at 0 (R131); a reserved block is refused whole. -/
def execVblock (t : TileId) (c : PCmd) (s : State) : Host.Outcome State Fault Refusal :=
  .next (withIssue none (.vector t) c s fun s w id =>
    if w.bad then refuse id s
    else
      let v := getVec s t
      setVec t { v with block := some { id := id, instrs := c.body.drop 1 }, ctx := { v.ctx with d := 0 } } s)

/-- A block completing (R112): every instruction has been executed and every push accepted. -/
def execVblockComplete (t : TileId) (s : State) : Host.Outcome State Fault Refusal :=
  let v := getVec s t
  .next (match v.block with
    | none => s
    | some b => if b.pc < b.instrs.length then s else complete b.id (setVec t { v with block := none } s))

/-- NOP. -/
def execNop (t : TileId) (w : Word) (u : List Upset) (s : State) : Host.Outcome State Fault Refusal :=
  runLane 0x00 t w u s id

/-- d = a, bits copied. -/
def execVmov (t : TileId) (w : Word) (u : List Upset) (s : State) : Host.Outcome State Fault Refusal :=
  runLane 0x01 t w u s fun v => writeV w (srcA v w) v

/-- d = IMM in every lane. -/
def execVimm (t : TileId) (w : Word) (u : List Upset) (s : State) : Host.Outcome State Fault Refusal :=
  runLane 0x02 t w u s fun v => writeV w (fun _ => iImm w) v

/-- d = (IMM + l) mod 2^32. -/
def execViota (t : TileId) (w : Word) (u : List Upset) (s : State) : Host.Outcome State Fault Refusal :=
  runLane 0x03 t w u s fun v => writeV w (fun i => iImm w + BitVec.ofNat 32 i.val) v

/-- d = a where bit l of mask VC is 1, else b. -/
def execVsel (t : TileId) (w : Word) (u : List Upset) (s : State) : Host.Outcome State Fault Refusal :=
  runLane 0x04 t w u s fun v =>
    writeV w (fun i => if (getM v (iVc w % 8)).getLsbD i.val then srcA v w i else srcB v w i) v

/-- d = a + b (R118, R119). -/
def execVadd (t : TileId) (w : Word) (u : List Upset) (s : State) : Host.Outcome State Fault Refusal :=
  runFp2 0x10 t w u s fadd

/-- d = a - b (R118, R119). -/
def execVsub (t : TileId) (w : Word) (u : List Upset) (s : State) : Host.Outcome State Fault Refusal :=
  runFp2 0x11 t w u s fsub

/-- d = a x b (R118, R119). -/
def execVmul (t : TileId) (w : Word) (u : List Upset) (s : State) : Host.Outcome State Fault Refusal :=
  runFp2 0x12 t w u s fmul

/-- d = minimum of a and b (R118, R119). -/
def execVmin (t : TileId) (w : Word) (u : List Upset) (s : State) : Host.Outcome State Fault Refusal :=
  runFp2 0x16 t w u s fmin

/-- d = maximum of a and b (R118, R119). -/
def execVmax (t : TileId) (w : Word) (u : List Upset) (s : State) : Host.Outcome State Fault Refusal :=
  runFp2 0x17 t w u s fmax

/-- d = a / b (R118, R119). -/
def execVdiv (t : TileId) (w : Word) (u : List Upset) (s : State) : Host.Outcome State Fault Refusal :=
  runFp2 0x20 t w u s fdiv

/-- d = a x b + c, rounded once (R118). -/
def execVfma (t : TileId) (w : Word) (u : List Upset) (s : State) : Host.Outcome State Fault Refusal :=
  runFp3 0x13 t w u s ffma

/-- d = a x b - c, rounded once (R118). -/
def execVfms (t : TileId) (w : Word) (u : List Upset) (s : State) : Host.Outcome State Fault Refusal :=
  runFp3 0x14 t w u s ffms

/-- d = c - a x b, rounded once (R118). -/
def execVfnma (t : TileId) (w : Word) (u : List Upset) (s : State) : Host.Outcome State Fault Refusal :=
  runFp3 0x15 t w u s ffnma

/-- d = a with sign 0; a NaN keeps its payload (R31). -/
def execVabs (t : TileId) (w : Word) (u : List Upset) (s : State) : Host.Outcome State Fault Refusal :=
  runFp1 0x18 t w u s fun a => a &&& 0x7FFFFFFF#32

/-- d = a with its sign inverted; a NaN keeps its payload (R31). -/
def execVneg (t : TileId) (w : Word) (u : List Upset) (s : State) : Host.Outcome State Fault Refusal :=
  runFp1 0x19 t w u s fun a => a ^^^ 0x80000000#32

/-- d = a + IMM (R118). -/
def execVaddi (t : TileId) (w : Word) (u : List Upset) (s : State) : Host.Outcome State Fault Refusal :=
  runFp 0x1A t w u s (fun v i => let a := srcA v w i; fadd a (iImm w))
    (fun v i => finA w v i && !nonFinite32 (iImm w))

/-- d = a x IMM (R118). -/
def execVmuli (t : TileId) (w : Word) (u : List Upset) (s : State) : Host.Outcome State Fault Refusal :=
  runFp 0x1B t w u s (fun v i => let a := srcA v w i; fmul a (iImm w))
    (fun v i => finA w v i && !nonFinite32 (iImm w))

/-- d = a x IMM + b, rounded once (R118). -/
def execVfmai (t : TileId) (w : Word) (u : List Upset) (s : State) : Host.Outcome State Fault Refusal :=
  runFp 0x1C t w u s (fun v i => ffma (srcA v w i) (iImm w) (srcB v w i))
    (fun v i => finAB w v i && !nonFinite32 (iImm w))

/-- d = square root of a, rounded once to nearest even (R119). -/
def execVsqrt (t : TileId) (w : Word) (u : List Upset) (s : State) : Host.Outcome State Fault Refusal :=
  runFp1 0x21 t w u s fsqrt

/-- d = 1 / square root of a, rounded once to nearest even (R119). -/
def execVrsqrt (t : TileId) (w : Word) (u : List Upset) (s : State) : Host.Outcome State Fault Refusal :=
  runFp1 0x22 t w u s frsqrt

/-- d = 1 / a, rounded once to nearest even (R119). -/
def execVrcp (t : TileId) (w : Word) (u : List Upset) (s : State) : Host.Outcome State Fault Refusal :=
  runFp1 0x23 t w u s (fdiv one32)

/-- d = e^a, rounded once to nearest even (R119). -/
def execVexp (t : TileId) (w : Word) (u : List Upset) (s : State) : Host.Outcome State Fault Refusal :=
  runFp1 0x24 t w u s fexp

/-- d = 2^a, rounded once to nearest even (R119). -/
def execVexp2 (t : TileId) (w : Word) (u : List Upset) (s : State) : Host.Outcome State Fault Refusal :=
  runFp1 0x25 t w u s fexp2

/-- d = ln a, rounded once to nearest even (R119). -/
def execVlog (t : TileId) (w : Word) (u : List Upset) (s : State) : Host.Outcome State Fault Refusal :=
  runFp1 0x26 t w u s flog

/-- d = log2 a, rounded once to nearest even (R119). -/
def execVlog2 (t : TileId) (w : Word) (u : List Upset) (s : State) : Host.Outcome State Fault Refusal :=
  runFp1 0x27 t w u s flog2

/-- d = tanh a, rounded once to nearest even (R119). -/
def execVtanh (t : TileId) (w : Word) (u : List Upset) (s : State) : Host.Outcome State Fault Refusal :=
  runFp1 0x28 t w u s ftanh

/-- d = 1 / (1 + e^-a), rounded once to nearest even (R119). -/
def execVsigm (t : TileId) (w : Word) (u : List Upset) (s : State) : Host.Outcome State Fault Refusal :=
  runFp1 0x29 t w u s fsigm

/-- d = erf a, rounded once to nearest even (R119). -/
def execVerf (t : TileId) (w : Word) (u : List Upset) (s : State) : Host.Outcome State Fault Refusal :=
  runFp1 0x2A t w u s ferf

/-- d = sin a, rounded once to nearest even (R119). -/
def execVsin (t : TileId) (w : Word) (u : List Upset) (s : State) : Host.Outcome State Fault Refusal :=
  runFp1 0x2B t w u s fsin

/-- d = cos a, rounded once to nearest even (R119). -/
def execVcos (t : TileId) (w : Word) (u : List Upset) (s : State) : Host.Outcome State Fault Refusal :=
  runFp1 0x2C t w u s fcos

/-- d = (a + b) mod 2^32 (R117). -/
def execViadd (t : TileId) (w : Word) (u : List Upset) (s : State) : Host.Outcome State Fault Refusal :=
  runInt2 0x30 t w u s fun a b => a + b

/-- d = (a - b) mod 2^32 (R117). -/
def execVisub (t : TileId) (w : Word) (u : List Upset) (s : State) : Host.Outcome State Fault Refusal :=
  runInt2 0x31 t w u s fun a b => a - b

/-- d = (a x b) mod 2^32 (R117). -/
def execVimul (t : TileId) (w : Word) (u : List Upset) (s : State) : Host.Outcome State Fault Refusal :=
  runInt2 0x32 t w u s fun a b => a * b

/-- d = a and b (R117). -/
def execVand (t : TileId) (w : Word) (u : List Upset) (s : State) : Host.Outcome State Fault Refusal :=
  runInt2 0x33 t w u s fun a b => a &&& b

/-- d = a or b (R117). -/
def execVor (t : TileId) (w : Word) (u : List Upset) (s : State) : Host.Outcome State Fault Refusal :=
  runInt2 0x34 t w u s fun a b => a ||| b

/-- d = a exclusive-or b (R117). -/
def execVxor (t : TileId) (w : Word) (u : List Upset) (s : State) : Host.Outcome State Fault Refusal :=
  runInt2 0x35 t w u s fun a b => a ^^^ b

/-- d = a << (b & 31) (R117). -/
def execVshl (t : TileId) (w : Word) (u : List Upset) (s : State) : Host.Outcome State Fault Refusal :=
  runInt2 0x36 t w u s fun a b => a <<< (b.toNat % 32)

/-- d = a >> (b & 31), logical or arithmetic by SUB[0] (R117). -/
def execVshr (t : TileId) (w : Word) (u : List Upset) (s : State) : Host.Outcome State Fault Refusal :=
  runInt2 0x37 t w u s fun a b =>
    if iSub w % 2 = 1 then a.sshiftRight (b.toNat % 32) else a >>> (b.toNat % 32)

/-- d = (a + IMM) mod 2^32. -/
def execViaddi (t : TileId) (w : Word) (u : List Upset) (s : State) : Host.Outcome State Fault Refusal :=
  runLane 0x38 t w u s fun v => writeV w (fun i => srcA v w i + iImm w) v

/-- d = the signed integer a as FP32. -/
def execVcvtif (t : TileId) (w : Word) (u : List Upset) (s : State) : Host.Outcome State Fault Refusal :=
  runLane 0x39 t w u s fun v => writeV w (fun i => cvtIF (srcA v w i)) v

/-- d = a as a signed integer, saturating; NaN gives 0. -/
def execVcvtfi (t : TileId) (w : Word) (u : List Upset) (s : State) : Host.Outcome State Fault Refusal :=
  runLane 0x3A t w u s fun v => writeV w (fun i => cvtFI (srcA v w i)) v

/-- Mask d = a op b on FP32 (R119). -/
def execVcmp (t : TileId) (w : Word) (u : List Upset) (s : State) : Host.Outcome State Fault Refusal :=
  runLane 0x40 t w u s fun v =>
    writeM w (maskOf fun i => fcmp (iSub w) (laneAt (getV v (iVa w)) i) (laneAt (getV v (iVb w)) i)) v

/-- Mask d = a op b on signed integers. -/
def execVicmp (t : TileId) (w : Word) (u : List Upset) (s : State) : Host.Outcome State Fault Refusal :=
  runLane 0x41 t w u s fun v =>
    writeM w (maskOf fun i => icmp (iSub w) (laneAt (getV v (iVa w)) i) (laneAt (getV v (iVb w)) i)) v

/-- Mask d = mask a op mask b: AND, OR, XOR, AND-NOT. -/
def execMop (t : TileId) (w : Word) (u : List Upset) (s : State) : Host.Outcome State Fault Refusal :=
  runLane 0x42 t w u s fun v =>
    let a := getM v (iVa w % 8)
    let b := getM v (iVb w % 8)
    writeM w (if iSub w = 0 then a &&& b else if iSub w = 1 then a ||| b else if iSub w = 2 then a ^^^ b else a &&& ~~~b) v

/-- Mask d: bit l = 1 when IMM[9:0] <= l < IMM[25:16]. -/
def execMlane (t : TileId) (w : Word) (u : List Upset) (s : State) : Host.Outcome State Fault Refusal :=
  runLane 0x43 t w u s fun v =>
    writeM w (maskOf fun i => decide (fld (iImm w) 0 10 ≤ i) && decide (i < fld (iImm w) 16 10)) v

/-- Every lane of a group = the maximum of a over it (R119). -/
def execVrmax (t : TileId) (w : Word) (u : List Upset) (s : State) : Host.Outcome State Fault Refusal :=
  runLane 0x50 t w u s fun v =>
    let g := groupSize (iSub w)
    let a := getV v (iVa w)
    let r : Vector Lane 512 := Vector.ofFn fun i =>
      let j := i.val / g
      (List.range (g - 1)).foldl (fun m k => fmax m (laneAt a (j * g + k + 1))) (fmax (laneAt a (j * g)) (laneAt a (j * g)))
    writeV w r.get v

/-- Every lane of a group = the minimum of a over it (R119). -/
def execVrmin (t : TileId) (w : Word) (u : List Upset) (s : State) : Host.Outcome State Fault Refusal :=
  runLane 0x51 t w u s fun v =>
    let g := groupSize (iSub w)
    let a := getV v (iVa w)
    let r : Vector Lane 512 := Vector.ofFn fun i =>
      let j := i.val / g
      (List.range (g - 1)).foldl (fun m k => fmin m (laneAt a (j * g + k + 1))) (fmin (laneAt a (j * g)) (laneAt a (j * g)))
    writeV w r.get v

/-- d[l] = a[b[l] & 511]. -/
def execVperm (t : TileId) (w : Word) (u : List Upset) (s : State) : Host.Outcome State Fault Refusal :=
  runLane 0x52 t w u s fun v => writeV w (fun i => laneAt (getV v (iVa w)) ((srcB v w i).toNat % 512)) v

/-- d[l] = a[(l + IMM) mod 512]. -/
def execVrot (t : TileId) (w : Word) (u : List Upset) (s : State) : Host.Outcome State Fault Refusal :=
  runLane 0x53 t w u s fun v => writeV w (fun i => laneAt (getV v (iVa w)) ((i.val + (iImm w).toNat) % 512)) v

/-- d[l] = a[IMM & 511]. -/
def execVbcst (t : TileId) (w : Word) (u : List Upset) (s : State) : Host.Outcome State Fault Refusal :=
  runLane 0x54 t w u s fun v => writeV w (fun _ => laneAt (getV v (iVa w)) ((iImm w).toNat % 512)) v

/-- The exact prefix of lane l in its group (R120). -/
def scanPrefix (a : VReg) (g : Nat) (excl : Bool) (l : Nat) : XReg :=
  let first := l / g * g
  (List.range (l - first + (if excl then 0 else 1))).foldl (fun x k => x.add (f32 (laneAt a (first + k)))) {}

/-- VSCAN (R120): each lane's prefix is formed exactly and narrowed once. -/
def execVscan (t : TileId) (w : Word) (u : List Upset) (s : State) : Host.Outcome State Fault Refusal :=
  let g := groupSize (iSub w % 8)
  let excl := bit w 41
  runFp 0x58 t w u s (fun v i => (narrow32 ((scanPrefix (getV v (iVa w)) g excl i.val).value 1)).1)
    (fun v i =>
      let x := scanPrefix (getV v (iVa w)) g excl i.val
      !(x.nan || x.pinf || x.ninf))

/-- The recurrence of one group, lane by lane: incoming h, result, whether the sources were finite (R118, R120). -/
def lrecGroup (a b c : VReg) (g j : Nat) : List (Lane × Bool) :=
  ((List.range g).foldl (fun (acc : Lane × List (Lane × Bool)) k =>
    let l := j * g + k
    let h' := ffma (laneAt a l) acc.1 (laneAt b l)
    (h', acc.2 ++ [(h', !(nonFinite32 (laneAt a l) || nonFinite32 (laneAt b l) || nonFinite32 acc.1))]))
    (laneAt c (j * g), [])).2

/-- VLREC (R120). -/
def execVlrec (t : TileId) (w : Word) (u : List Upset) (s : State) : Host.Outcome State Fault Refusal :=
  let g := groupSize (iSub w)
  let at' (v : VecS) (i : Fin 512) : Lane × Bool :=
    nth (0, false) (lrecGroup (getV v (iVa w)) (getV v (iVb w)) (getV v (iVc w)) g (i.val / g)) (i.val % g)
  runFp 0x59 t w u s (fun v i => (at' v i).1) (fun v i => (at' v i).2)

/-- The scale of element j of a take: none for a wide format. -/
def scaleAt (f : Fmt) (scales : List Nat) (j : Nat) : Nat := if elemWide f.elem then 127 else nth 255 scales (j / f.blk)

/-- What a pop's wait or fault does. -/
def popFail (t : TileId) (s : State) (k : Take) : IRes :=
  let client := clientOn s (tileDie t)
  match k with
  | .oor n i x => .fault (faultRegion t client n i x s)
  | .desync ds ss a b i => .fault (faultDesync t client ds ss a b i s)
  | _ => .wait 0x05

/-- What VPOP's take delivers to a lane: the element widened to FP32, whether it saturated, whether a finite one became
non-finite. -/
def popLane (codes scales : List Nat) (d : Desc) (i : Nat) : Lane × Bool × Bool :=
  match codes[i]? with
  | none => (0, false, false)
  | some c =>
    let e := elemValue d.fmt.elem (scaleAt d.fmt scales i) d.ent.tscale c
    let (v, sat) := narrow32 (DVal.ofF e)
    (v, sat, e.isFin && nonFinite32 v)

/-- VPOP's take (R121, R122): the stream moves on, VD is written, saturations and non-finite lanes are counted. -/
def popDone (t : TileId) (w : Word) (codes scales : List Nat) (d : Desc) (x : StreamS) (bytes : Nat) (s : State) : State :=
  let r : Vector (Lane × Bool × Bool) 512 := Vector.ofFn fun i => popLane codes scales d i.val
  let m := laneMask (getVec s t) w
  let sats := (List.finRange 512).countP fun i => (r.get i).2.1
  let nf := (List.finRange 512).countP fun i => m.getLsbD i.val && (r.get i).2.2
  let s1 := delivered t x bytes s
  let s2 := consumerViol d.hdie d.ent.stat (countOut d.fmt scales) s1
  countNf t nf (countVSat t sats (setVec t (writeV w (fun i => (r.get i).1) (getVec s2 t)) s2))

/-- VPOP (R121, R122): the next 512 elements widened to FP32. -/
def execVpop (t : TileId) (w : Word) (u : List Upset) (s : State) : Host.Outcome State Fault Refusal :=
  runInstr 0x60 t w u s fun s =>
    match takeLanes (getStr s t) (iVa w) with
    | .ok codes scales d x bytes => .done (popDone t w codes scales d x bytes s)
    | k => popFail t s k

/-- VPUSH (R123): a lane outside the mask is pushed as +0. -/
def execVpush (t : TileId) (w : Word) (u : List Upset) (s : State) : Host.Outcome State Fault Refusal :=
  runInstr 0x61 t w u s fun s =>
    let v := getVec s t
    let m := laneMask v w
    pushValues t (iVb w) (getV v (iVc w))
      (fun i => if m.getLsbD i.val then DVal.ofF (f32 (srcA v w i)) else .num false 0) s

/-- What XPOPN's take adds to a lane (R125): the element without its tensor scale. -/
def xpopLane (codes scales : List Nat) (d : Desc) (i : Nat) : FVal :=
  match codes[i]? with
  | none => FVal.fin false 0
  | some c => elemValue d.fmt.elem (scaleAt d.fmt scales i) 1 c

/-- XPOPN's take (R125): the stream moves on, and each element is added to its lane. -/
def xpopDone (t : TileId) (w : Word) (codes scales : List Nat) (d : Desc) (x : StreamS) (bytes : Nat) (s : State) : State :=
  let s1 := consumerViol d.hdie d.ent.stat (countOut d.fmt scales) (delivered t x bytes s)
  setVec t (writeX w (fun i r => r.add (xpopLane codes scales d i.val)) (getVec s1 t)) s1

/-- XPOPN (R125): the next 512 elements added exactly, a narrow one without its tensor scale. -/
def execXpopn (t : TileId) (w : Word) (u : List Upset) (s : State) : Host.Outcome State Fault Refusal :=
  runInstr 0x62 t w u s fun s =>
    match takeLanes (getStr s t) (iVa w) with
    | .ok codes scales d x bytes => .done (xpopDone t w codes scales d x bytes s)
    | k => popFail t s k

/-- VRECV (R127, R129): the head slot of FP32 values. -/
def execVrecv (t : TileId) (w : Word) (u : List Upset) (s : State) : Host.Outcome State Fault Refusal :=
  runInstr 0x68 t w u s fun s =>
    let v := getVec s t
    match v.queue with
    | [] => .wait 0x0A
    | q :: rest =>
      if q.exact then .done (skipInstr t s)
      else .done (setVec t (writeV w (fun i => nth 0 q.f i.val) { v with queue := rest }) s)

/-- XRECV (R128, R129): the head slot of exact values added. -/
def execXrecv (t : TileId) (w : Word) (u : List Upset) (s : State) : Host.Outcome State Fault Refusal :=
  runInstr 0x69 t w u s fun s =>
    let v := getVec s t
    match v.queue with
    | [] => .wait 0x0A
    | q :: rest =>
      if !q.exact then .done (skipInstr t s)
      else .done (setVec t (writeX w (fun i r => r.addAcc (nth {} q.x i.val)) { v with queue := rest }) s)

/-- XCLR: VALUE, GUARD and flags 0. -/
def execXclr (t : TileId) (w : Word) (u : List Upset) (s : State) : Host.Outcome State Fault Refusal :=
  runLane 0x70 t w u s fun v => writeX w (fun _ _ => {}) v

/-- XADD (R53). -/
def execXadd (t : TileId) (w : Word) (u : List Upset) (s : State) : Host.Outcome State Fault Refusal :=
  runLane 0x71 t w u s fun v => writeX w (fun i r => r.add (f32 (srcA v w i))) v

/-- XMRG (R53). -/
def execXmrg (t : TileId) (w : Word) (u : List Upset) (s : State) : Host.Outcome State Fault Refusal :=
  runLane 0x72 t w u s fun v => writeX w (fun i r => r.merge ((getX v (iVa w % 8)).get i)) v

/-- XSUM (R125): the merge of a group in each of its lanes. -/
def execXsum (t : TileId) (w : Word) (u : List Upset) (s : State) : Host.Outcome State Fault Refusal :=
  runLane 0x73 t w u s fun v =>
    let g := groupSize (iSub w)
    let x := getX v (iVd w % 8)
    let tot : Vector XReg 512 := Vector.ofFn fun i =>
      (List.range g).foldl (fun a k => a.merge (x.get (Fin.ofNat 512 (i.val / g * g + k)))) ({} : XReg)
    writeX w (fun i _ => tot.get i) v

/-- XNAR's result (R54, R118, R125): VD written, saturations and non-finite lanes counted; only lanes in the mask count. -/
def xnarDone (t : TileId) (w : Word) (s : State) : State :=
  let v := getVec s t
  let m := laneMask v w
  let mul := (f32 (iImm w)).toRat
  let x := getX v (iVa w % 8)
  let r : Vector (Lane × Bool × Bool) 512 := Vector.ofFn fun i =>
    let d := (x.get i).value mul
    ((narrow32 d).1, (narrow32 d).2, d.isSat)
  let lanes := (List.finRange 512).filter fun i => m.getLsbD i.val
  let sats := lanes.countP fun i => (r.get i).2.1
  let nf := lanes.countP fun i => nonFinite32 (r.get i).1 && !((x.get i).nan || (x.get i).pinf || (x.get i).ninf)
  noteExactSat t (lanes.any fun i => (r.get i).2.2)
    (countNf t nf (countVSat t sats (setVec t (writeV w (fun i => (r.get i).1) v) s)))

/-- XNAR (R54, R118, R125): narrowed to FP32 with multiplier IMM. -/
def execXnar (t : TileId) (w : Word) (u : List Upset) (s : State) : Host.Outcome State Fault Refusal :=
  runInstr 0x74 t w u s fun s => .done (xnarDone t w s)

/-- EXACT_SAT where the SAT row of R54 decided a pushed lane (R125, R134). -/
def notePushSat (t : TileId) (b : Bool) (s : State) : State := if b then setBit (vecBlk t 0) 1 s else s

/-- XPUSH (R123, R124, R125): the exact register times IMM pushed; it is not cleared. -/
def execXpush (t : TileId) (w : Word) (u : List Upset) (s : State) : Host.Outcome State Fault Refusal :=
  runInstr 0x75 t w u s fun s =>
    let v := getVec s t
    let m := laneMask v w
    let mul := (f32 (iImm w)).toRat
    let x := getX v (iVa w % 8)
    let vals (i : Fin 512) : DVal := if m.getLsbD i.val then (x.get i).value mul else .num false 0
    match pushValues t (iVb w) (getV v (iVd w)) vals s with
    | .done s1 => .done (notePushSat t ((List.finRange 512).any fun i => (vals i).isSat) s1)
    | r => r

/-- VRAND (R132): each lane's draw. -/
def execVrand (t : TileId) (w : Word) (u : List Upset) (s : State) : Host.Outcome State Fault Refusal :=
  runInstr 0x80 t w u s fun s =>
    let v := getVec s t
    let d := drawLanes s t (getV v (iVa w))
    .done (afterDraw t (setVec t (writeV w (fun i => BitVec.ofNat 32 (d i)) v) s))

/-- VRUNI: (draw >> 8) x 2^-24. -/
def execVruni (t : TileId) (w : Word) (u : List Upset) (s : State) : Host.Outcome State Fault Refusal :=
  runInstr 0x81 t w u s fun s =>
    let v := getVec s t
    let d := drawLanes s t (getV v (iVa w))
    .done (afterDraw t (setVec t (writeV w (fun i => toF32 false (((d i / 256 : Nat) : Rat) * pow2 (-24))) v) s))

/-- VRKEEP: mask d, bit l = 1 when the draw is at least IMM. -/
def execVrkeep (t : TileId) (w : Word) (u : List Upset) (s : State) : Host.Outcome State Fault Refusal :=
  runInstr 0x82 t w u s fun s =>
    let v := getVec s t
    let d := drawLanes s t (getV v (iVa w))
    .done (afterDraw t (setVec t (writeM w (maskOf fun i => decide ((iImm w).toNat ≤ d (Fin.ofNat 512 i))) v) s))

/-- RCTX (R130, R131): a draw-context field is set, and the draw number is 0. -/
def execRctx (t : TileId) (w : Word) (u : List Upset) (s : State) : Host.Outcome State Fault Refusal :=
  runLane 0x88 t w u s fun v =>
    let c := { v.ctx with d := 0 }
    let x := (iImm w).toNat
    { v with ctx :=
        match iVd w % 8 with
        | 0 => { c with mb := x % 2 ^ 12 }
        | 1 => { c with layer := x % 2 ^ 16 }
        | 2 => { c with tensor := x % 2 ^ 8 }
        | 3 => { c with base := c.base / 2 ^ 32 * 2 ^ 32 + x }
        | _ => { c with base := c.base % 2 ^ 32 + x % 2 ^ 16 * 2 ^ 32 } }

/-- REP (R114): the next n instructions run k times. -/
def execRep (t : TileId) (w : Word) (u : List Upset) (s : State) : Host.Outcome State Fault Refusal :=
  .next (match (getVec s t).block with
    | none => s
    | some b =>
      if b.instrs[b.pc]? ≠ some w ∨ iOpc w ≠ 0xF0 then s
      else
        let s0 := vecUpsets t (clientOn s (tileDie t)) w u s
        let b' := { b with pc := b.pc + 1, rep := some { start := b.pc + 1, n := repN w, left := repK w } }
        charge (.vector t) 0x00 (bump (vecBlk t 0) 0x028 1 (setVec t { getVec s0 t with block := some b' } s0)))

end Sys2Proof.Machine
end

