-- ==== Sys2Proof/Machine/Plate.lean ====
section
/-! DEFINITION. Plates: fetch, caches, window entry, tokens, the token watchdog, and the tile sequencer (R218 to R238). -/

namespace Sys2Proof.Machine

/-! ### Fetch (R221, R231) -/

/-- A plate's address and length in words; an engine with no directory entry has an empty plate (R219). -/
def plateOf (s : State) (e : Eng) : Nat × Nat :=
  match (getClient s (clientOn s (engDie e))).set with
  | some p => mget (0, 0) p.dir (engKey e)
  | none => (0, 0)

/-- A tile's caches. -/
def getCaches (s : State) (t : Nat) : Caches := mget {} s.plates.caches t

/-- Storing a tile's caches. -/
def setCaches (t : Nat) (x : Caches) (s : State) : State :=
  { s with plates := { s.plates with caches := mset {} s.plates.caches t x } }

/-- Moving a key to the front of a set's order, of four ways; a fifth key falls out. -/
def touch (k : Nat) (l : List Nat) : List Nat := (k :: l.filter fun x => decide (x ≠ k)).take 4

/-- A line of plate words, read from memory. -/
def fetchLine (client a : Nat) (s : State) : List Word × State :=
  let (bs, s1) := readMem client false a 64 s
  (wordsOf 8 (plain bs), s1)

/-- A line of plate words through a tile's instruction cache: 256 sets of 4 lines; a miss is counted (R231, R238). -/
def cachedLine (t client a : Nat) (s : State) : List Word × State :=
  let k := a / 64
  let c := getCaches s t
  let set := k % 256
  match c.lines.find? fun x => decide (x.1 = k) with
  | some x => (x.2, setCaches t { c with order := mupd [] c.order set (touch k) } s)
  | none =>
    let (ws, s1) := fetchLine client a (bumpDict (dkey 0x4040 0x05) 1 s)
    let keep := touch k (mget [] c.order set)
    let lines := mdrop c.lines (fun x => decide (x % 256 = set) && !keep.contains x)
    (ws, setCaches t { c with lines := mset [] lines k ws, order := mset [] c.order set keep } s1)

/-- PLATE_FETCH (R231): the next line of an engine's plate is delivered, up to 16 lines ahead of its window; no word at or
past PLEN is (R221). -/
def execPlateFetch (e : Eng) (s : State) : Host.Outcome State Fault Refusal :=
  let g := getEng s e
  let client := clientOn s (engDie e)
  let (addr, len) := plateOf s e
  .next (if ¬ g.running ∨ g.ended ∨ len ≤ g.fetched ∨ 128 < g.words.length + 8 then s
    else
      let a := addr + 8 * g.fetched
      let (ws, s1) := match engTile e with
        | some t => cachedLine t.val client a s
        | none => fetchLine client a s
      let n := min 8 (len - g.fetched)
      setEng e { g with words := g.words ++ ws.take n, fetched := g.fetched + n } s1)

/-! ### The Catalog cache (R232) -/

/-- Whether a tile's data cache holds the entry of a name. -/
def nameCached (s : State) (t name : Nat) : Bool := (mget [] (getCaches s t).names (name % 256)).contains name

/-- Using a cached entry: it becomes the most recent of its set. -/
def useName (t : Nat) (s : State) (name : Nat) : State :=
  let c := getCaches s t
  setCaches t { c with names := mupd [] c.names (name % 256) (touch name) } s

/-- CATALOG_CACHE_FILL (R232): a miss reads the entry from the Catalog, in place of the least recently used way. -/
def execCatalogCacheFill (t : TileId) (name : Nat) (s : State) : Host.Outcome State Fault Refusal :=
  .next (if nameCached s t.val name then s else useName t.val (bumpDict (dkey 0x4040 0x06) 1 s) name)

/-! ### Window entry (R89, R126, R169, R221, R226) -/

/-- The next command of the delivered words: the command, how many words it takes, and whether its length is unknown;
none where it has not all been delivered. left is how many words of the plate remain from the command's first. -/
def nextCmd (e : Eng) (ws : List Word) (left : Nat) : Option (PCmd × Nat × Bool) :=
  let h0 := nth 0 ws 0
  let opc := fld h0 0 4
  let need := bodyLen e opc (nth 0 ws 2)
  let short : PCmd := { h0 := h0, h1 := nth 0 ws 1, body := ws.drop 2 }
  if ws.length < min 3 left then none
  else match need with
    | none => some ({ short with body := ws.take 3 |>.drop 2 }, left, true)
    | some n =>
      if left < 2 + n then some ({ short with body := ws.take 3 |>.drop 2 }, left, true)
      else if ws.length < 2 + n then none
      else some ({ short with body := (ws.drop 2).take n }, 2 + n, false)

/-- A command entering the window, in plate order: its entries read, its bank resolved, its block judged. -/
def enterWindow (e : Eng) (c : PCmd) (n : Nat) (unknown : Bool) (s : State) : State :=
  let g := getEng s e
  let names := if unknown then [] else namesOf e c
  let w : WinCmd := { ix := g.nextIx, off := g.entered, cmd := c, names := captureNames s names,
                      bank := resolveBank g.bank c, unknown := unknown, bad := !unknown && entryBad e g.xbound c }
  let s1 := match engTile e with
    | some t => names.foldl (useName t.val) s
    | none => s
  let ended := unknown || decide ((plateOf s e).2 ≤ g.entered + n)
  setEng e { g with win := g.win ++ [w], words := if unknown then [] else g.words.drop n, entered := g.entered + n,
                    nextIx := g.nextIx + 1, ended := ended, fetched := if unknown then (plateOf s e).2 else g.fetched,
                    bank := if unknown then g.bank else nextBank g.bank c,
                    xbound := if unknown then g.xbound else entryBound e g.xbound c } s1

/-- Whether an engine has neither a window command nor an issued one, so that a wait for plate words or entries is charged
(R236). -/
def engEmpty (s : State) (e : Eng) : Bool := (getEng s e).win.isEmpty && (flightsOf s e).isEmpty

/-- A wait of an engine that has nothing else to charge. -/
def chargeEmpty (e : Eng) (code : Nat) (s : State) : State := if engEmpty s e then charge e code s else s

/-- The last command of a plate, whose length is unknown, issues and is refused (R5, R221). -/
def refuseUnknown (e : Eng) (s : State) : State :=
  match (getEng s e).win.find? (·.unknown) with
  | some w => withIssue none e w.cmd s fun s _ id => refuse id s
  | none => chargeEmpty e 0x1E s

/-- WINDOW_ENTRY (R226): the next command of the plate enters the 8-place window once its words and its Catalog entries are
there; a plate that has ended lets its last command of unknown length be refused. -/
def execWindowEntry (e : Eng) (s : State) : Host.Outcome State Fault Refusal :=
  let g := getEng s e
  .next (if ¬ g.running ∨ aborted s (clientOn s (engDie e)) then s
    else if g.ended then refuseUnknown e s
    else if 8 ≤ g.win.length then s
    else
      let len := (plateOf s e).2
      match nextCmd e g.words (len - g.entered) with
      | none => chargeEmpty e 0x03 s
      | some (c, n, unknown) =>
        let miss := match engTile e with
          | some t => !unknown && (namesOf e c).any fun x => !nameCached s t.val x
          | none => false
        if miss then chargeEmpty e 0x04 s else enterWindow e c n unknown s)

/-! ### Tokens (R224, R225) -/

/-- The PLATE_STATUS of a token file. -/
def fileStatus (die file : Nat) : Nat := if file < 16 then tileBlk (16 * die + file) 0x3400 else diePlt die 0x400

/-- Recording a token fault: FAULT, FCODE, FREG and FFILE (R237). -/
def noteTokenFault (die file reg fcode : Nat) (s : State) : State :=
  let a := fileStatus die file
  let v := getReg s a
  setReg a (setFld (setFld (setFld (setFld v 0 1 1) 1 3 fcode) 5 8 reg) 13 5 file) s

/-- DETAIL of a token fault (R429). -/
def tokenDetail (e : Eng) (file reg : Nat) : Nat :=
  reg + 2 ^ 8 * file + 2 ^ 13 * engCode e + 2 ^ 17 * engUnit e + 2 ^ 21 * engDie e

/-- A post reaching its register; above 65,535 it saturates and raises a token-overflow fault (R225). -/
def addToken (p : Post) (s : State) : State :=
  let n := tokens s p.die.val p.file p.reg + p.count
  let s1 := setTok p.die.val p.file p.reg (min n 65535) s
  if n ≤ 65535 then s1
  else raiseFault p.client 0x0305 (tokenDetail p.eng p.file p.reg)
    (noteTokenFault p.die.val p.file p.reg 1 (bumpDict (dkey 0x4040 0x02) 1 s1))

/-- TOKEN_ARRIVE (R224): a post on its way reaches its register. -/
def execTokenArrive (k : Nat) (s : State) : Host.Outcome State Fault Refusal :=
  .next (match s.plates.posts[k]? with
    | none => s
    | some p => addToken p { s with plates := { s.plates with posts := s.plates.posts.eraseIdx k } })

/-! ### The token watchdog (R228) -/

/-- The register that an engine's oldest window command lacks, where it waits for tokens. -/
def lacks (s : State) (e : Eng) : Option Nat :=
  match (getEng s e).win with
  | [] => none
  | w :: _ =>
    if hdrReserved e w.cmd then none
    else (w.cmd.ins.find? fun r => decide (tokens s (engDie e) (ownFile e) (trefReg r) < needOf w.cmd (trefReg r))).map trefReg

/-- Whether an engine is stuck on tokens, or has nothing left to do. -/
def tokenStuck (s : State) (e : Eng) : Bool :=
  let g := getEng s e
  (flightsOf s e).isEmpty && !earlierReady s e [] g.win &&
    (if g.win.isEmpty then !g.running || (g.ended && g.words.isEmpty) else (lacks s e).isSome)

/-- TOKEN_WATCHDOG_FIRE (R228): with a command on the die that waits only for tokens, and no other working or waiting on
anything else, the step's token-deadlock fault is raised. The fault names every engine whose oldest command waits. -/
def execTokenWatchdogFire (d : DieId) (c : ClientId) (s : State) : Host.Outcome State Fault Refusal :=
  let es := enginesOf d.val
  let hit := es.filter fun e => (lacks s e).isSome
  .next (if watchdogHeld s d.val c.val ∨ clientOn s d.val ≠ c.val ∨ hit = [] ∨ ¬ es.all (tokenStuck s) then s
    else
      let s1 := hit.foldl (fun s e => noteTokenFault d.val (ownFile e) ((lacks s e).getD 0) 2 s)
        (bumpDict (dkey 0x4040 0x03) 1 s)
      match hit with
      | e :: _ => raiseFault c.val 0x0306 (tokenDetail e (ownFile e) ((lacks s e).getD 0)) s1
      | [] => s1)

/-! ### The tile sequencer (R233, R234) -/

/-- A sequencer fault (R234, R237): the command is discarded with no tokens. -/
def seqFault (t : TileId) (client id fcode reason : Nat) (s : State) : State :=
  let a := pltBlk t 0x400
  let v := setFld (setFld (getReg s a) 0 1 1) 1 3 fcode
  let s1 := setReg a (if fcode = 3 then setFld v 18 4 reason else v) s
  let s2 := { s1 with plates := { s1.plates with flights := s1.plates.flights.filter fun f => decide (f.id ≠ id) } }
  raiseFault client 0x0307 (t.val + 2 ^ 6 * fcode + 2 ^ 9 * reason) s2

/-- SNOP (R233): joins and forks tokens. -/
def execSnop (t : TileId) (c : PCmd) (s : State) : Host.Outcome State Fault Refusal :=
  .next (withIssue none (.seq t) c s fun s _ id => complete id s)

/-- STOK (R233): posts ADD to its register at its completion. -/
def execStok (t : TileId) (c : PCmd) (s : State) : Host.Outcome State Fault Refusal :=
  .next (withIssue none (.seq t) c s fun s _ id =>
    let x := c.w 0
    if fld x 16 16 = 0 ∨ 17 ≤ fld x 8 5 then refuse id s
    else
      let client := clientOn s (tileDie t)
      let s1 := complete id s
      if aborted s client then s1
      else postTok (.seq t) client (fld x 8 5) (fld x 0 8) (fld x 16 16) s1)

/-- The record of an SCAT (R233). -/
def scatRec (c : PCmd) : CatRec := { ctl := c.w 0, w := c.body.drop 1 }

/-- SCAT (R233, R171, R181): a Catalog write on the client's path. -/
def execScat (t : TileId) (c : PCmd) (s : State) : Host.Outcome State Fault Refusal :=
  .next (withIssue none (.seq t) c s fun s _ id =>
    let client := clientOn s (tileDie t)
    let d : DieId := Fin.ofNat 4 (tileDie t)
    match catWrite (some client) d (scatRec c) s with
    | (.applied, s1) => complete id s1
    | (.pending, s1) => { s1 with cat := { s1.cat with
        closing := s1.cat.closing ++ [{ name := d.val * 4096 + (scatRec c).handle, agent := none, id := id }] } }
    | (.refused k, s1) => seqFault t client id 3 k s1)

/-- The Folio operation record of an SFOP (R233). -/
def sfopRec (c : PCmd) : FopRec := { w0 := c.w 1, w1 := c.w 2, w2 := c.w 3, w3 := c.w 4, w4 := c.w 5 }

/-- Running an SFOP's operation: a busy one with RETRY, or one that a ring slot holds, stays to be reissued (R234). The
number is the code of the cycle (R236). -/
def sfopRun (t : TileId) (id : Nat) (w0 : Word) (op : FopRec) (s : State) : Nat × State :=
  let client := clientOn s (tileDie t)
  let d : DieId := Fin.ofNat 4 (tileDie t)
  let x := getTile s t
  let keep := if x.sfops.any fun j => decide (j.id = id) then x.sfops else x.sfops ++ [{ id := id, w0 := w0, op := op }]
  let drop := x.sfops.filter fun j => decide (j.id ≠ id)
  match fopRun (some client) (lockId client d.val (t.val % 16)) (some id) d op s with
  | (.waits, s1) => (0x0F, setTile t { getTile s1 t with sfops := keep } s1)
  | (.reserved, s1) => (0x00, refuse id (setTile t { getTile s1 t with sfops := drop } s1))
  | (.done r, s1) =>
    let status := fld r 0 8
    if status = 1 ∧ bit w0 0 then (0x16, setTile t { getTile s1 t with sfops := keep } s1)
    else
      let s2 := setReg (pltBlk t (0x408 + 8 * fld w0 2 3)) r (setTile t { getTile s1 t with sfops := drop } s1)
      (0x00, if bit w0 1 ∧ status ≠ 0 then seqFault t client id 4 0 s2 else complete id s2)

/-- SFOP (R233, R234). -/
def execSfop (t : TileId) (c : PCmd) (s : State) : Host.Outcome State Fault Refusal :=
  .next (withIssue none (.seq t) c s fun s _ id => (sfopRun t id (c.w 0) (sfopRec c) s).2)

/-- SFOP_RETRY (R234): a Folio operation that waits is reissued. -/
def execSfopRetry (t : TileId) (k : Nat) (s : State) : Host.Outcome State Fault Refusal :=
  .next (match (getTile s t).sfops[k]? with
    | none => s
    | some j =>
      let (code, s1) := sfopRun t j.id j.w0 j.op s
      charge (.seq t) code s1)

/-- SEVENT (R233, R345): a program event with its code and tile. -/
def execSevent (t : TileId) (c : PCmd) (s : State) : Host.Outcome State Fault Refusal :=
  .next (withIssue none (.seq t) c s fun s _ id =>
    complete id (post 0x0003 (clientOn s (tileDie t)) (fld (c.w 0) 0 32 + 2 ^ 32 * t.val) s))

end Sys2Proof.Machine
end

