-- ==== Sys2Proof/Machine/CollOps.lean ====
section
/-! DEFINITION. Collective engines: flow contexts, bindings, transfers received and formed, spills (R295 to R317, R323). -/

namespace Sys2Proof.Machine

/-! ### Contexts (R296) -/

/-- The key of a context: die and number. -/
def ctxKey (d c : Nat) : Nat := d * 65536 + c % 65536

/-- A context. -/
def getCtx (s : State) (k : Nat) : Ctx := mget {} s.fabric.ctxs k

/-- Storing a context. -/
def setCtx (k : Nat) (x : Ctx) (s : State) : State :=
  { s with fabric := { s.fabric with ctxs := mset {} s.fabric.ctxs k x } }

def Ctx.state (x : Ctx) : Nat := fld x.w0 0 3
def Ctx.kind (x : Ctx) : Nat := fld x.w0 3 3
def Ctx.client (x : Ctx) : Nat := fld x.w0 6 4
def Ctx.job (x : Ctx) : Nat := fld x.w0 10 16
def Ctx.skippol (x : Ctx) : Bool := bit x.w0 26
def Ctx.bound (x : Ctx) : Bool := bit x.w0 27
def Ctx.fmtWord (x : Ctx) : Nat := fld x.w0 28 16
def Ctx.nexp (x : Ctx) : Nat := fld x.w3 0 12
def Ctx.narr (x : Ctx) : Nat := fld x.w3 12 12
def Ctx.tscale (x : Ctx) : Nat := fld x.w1 0 32
def Ctx.fwdread (x : Ctx) : Bool := bit x.w1 32
def Ctx.ebase (x : Ctx) : Nat := fld x.w2 0 48
def Ctx.nelem (x : Ctx) : Nat := fld x.w2 48 10
def Ctx.tile (x : Ctx) : Nat := fld x.w3 24 4
def Ctx.xreg (x : Ctx) : Nat := fld x.w3 28 3
def Ctx.esc (x : Ctx) : Nat := fld x.w3 32 32
def Ctx.dhandle (x : Ctx) : Nat := fld x.w1 0 12
def Ctx.ahandle (x : Ctx) : Nat := fld x.w1 12 12
def Ctx.amode (x : Ctx) : Nat := fld x.w1 24 2
def Ctx.rrows (x : Ctx) : Nat := fld x.w1 26 32
def Ctx.drow (x : Ctx) : Nat := fld x.w2 0 32
def Ctx.dcol (x : Ctx) : Nat := fld x.w2 32 16
def Ctx.rlen (x : Ctx) : Nat := fld x.w3 24 17

/-- Whether a context is of a reduce kind. -/
def Ctx.reduce (x : Ctx) : Bool := decide (x.kind < 2)

/-- The decoded format of a context. -/
def Ctx.fmt (x : Ctx) : Fmt := (fmtOf x.fmtWord).getD noFmt

/-- The tile of a bound register on a die. -/
def ctxTile (d : Nat) (x : Ctx) : TileId := Fin.ofNat 64 (16 * d + x.tile)

/-- The register that is bound to a context. -/
def ctxReg (s : State) (d : Nat) (x : Ctx) : XVec := getX (getVec s (ctxTile d x)) x.xreg

/-- Refreshing COLL_CTX_FREE of a die (R323). -/
def countFree (d : Nat) (s : State) : State :=
  setDict (dkey 0x5100 (1 + d))
    (BitVec.ofNat 64 (65536 - s.fabric.ctxs.countP fun x => decide (x.1 / 65536 = d) && decide (x.2.state ≠ 0))) s

/-- Freeing the contexts that a test selects, their bindings released; the registers keep their state (R301). -/
def freeCtxs (p : Ctx → Bool) (s : State) : State :=
  let gone := s.fabric.ctxs.filter fun x => p x.2
  let s1 := gone.foldl (fun s x =>
    if x.2.bound then
      let t := ctxTile (x.1 / 65536) x.2
      let v := getVec s t
      setVec t { v with bind := mset 0 v.bind x.2.xreg 0 } s
    else s) s
  let s2 := { s1 with fabric := { s1.fabric with
    ctxs := s1.fabric.ctxs.filter (fun x => !p x.2),
    spills := s1.fabric.spills.filter (fun w => !(gone.any fun x => decide (x.1 = w.ctx))) } }
  (List.range 4).foldl (fun s d => if gone.any (fun x => decide (x.1 / 65536 = d)) then countFree d s else s) s2

/-! ### Faults and status (R303, R323) -/

/-- A collective fault: status, count, and the abort of the step; the module is not ready to re-shard (R319). -/
def collFault (d client code job ctx : Nat) (s : State) : State :=
  let a := collBlk d 0
  let v := setFld (setFld (setFld (getReg s a) 0 1 1) 1 4 code) 11 16 job
  updStep client (fun st => { st with notReady := true })
    (raiseFault client 0x0501 (code + 16 * job + 2 ^ 20 * ctx) (bumpDict (dkey 0x5100 0x09) 1 (setReg a v s)))

/-- The client of a partition's job on a die; the one that runs there where no client has that job. -/
def jobClient (s : State) (d job : Nat) : Nat :=
  match (List.range 16).find? fun c => decide ((getClient s c).state ≠ 0) && hasDie (getClient s c) d &&
      decide ((getClient s c).job = job) with
  | some c => c
  | none => clientOn s d

/-- A non-finite contribution: its event, status and counts (R312). -/
def noteNonFinite (d client mod job low count : Nat) (s : State) : State :=
  let s1 := bumpDict (dkey 0x5100 0x07) count (bump (collBlk d 0) 0x020 count (setBit (collBlk d 0) 6 s))
  postEvent { code := 0x0502, sev := sevOf 0x0502, client := client, step := stepNow s client,
              status := min 255 count, detail := mod + 2 ^ 12 * job + 2 ^ 28 * (low % 2 ^ 36),
              tick := s.tick % 2 ^ 40 } s1

/-! ### Completion of a context (R300, R313) -/

/-- Whether a lane of a register below n holds a flag. -/
def laneFlag (x : XVec) (n : Nat) : Bool :=
  (List.finRange 512).any fun i => decide (i.val < n) && ((x.get i).nan || (x.get i).pinf || (x.get i).ninf)

/-- A context completing when its counted contributions reach NEXP, and, for a reduce forward context, its CSEND has read
it; a non-finite result in a SKIPPOL context sets the step's skip request. -/
def settleCtx (k : Nat) (s : State) : State :=
  let x := getCtx s k
  let d := k / 65536
  if (x.state = 1 ∨ x.state = 2) ∧ x.narr = x.nexp ∧ (x.kind ≠ 1 ∨ x.fwdread) then
    let s1 := setCtx k { x with w0 := setFld x.w0 0 3 3 } s
    if x.reduce && x.skippol && laneFlag (ctxReg s d x) x.nelem then
      updStep x.client (fun st => { st with skip := true }) s1
    else s1
  else s

/-- Counting a transfer in a context (R300). -/
def countCtx (k : Nat) (s : State) : State :=
  let x := getCtx s k
  settleCtx k (setCtx k { x with w3 := setFld x.w3 12 12 (x.narr + 1) } s)

/-! ### Transfer headers (R302) -/

/-- A transfer's header and payload. -/
structure CXfer where
  w0 : Word
  w1 : Word
  pay : List Byte
  deriving DecidableEq, Repr

/-- Reading a transfer. -/
def xferOf (data : List Byte) : CXfer :=
  { w0 := BitVec.ofNat 64 (leNat (data.take 8)), w1 := BitVec.ofNat 64 (leNat ((data.drop 8).take 8)),
    pay := data.drop 16 }

def CXfer.cop (x : CXfer) : Nat := fld x.w0 2 4
def CXfer.job (x : CXfer) : Nat := fld x.w0 8 16
def CXfer.smod (x : CXfer) : Nat := fld x.w0 24 12
def CXfer.cbase (x : CXfer) : Nat := fld x.w0 36 16
def CXfer.selem (x : CXfer) : Nat := fld x.w0 52 4
def CXfer.sblk (x : CXfer) : Nat := fld x.w0 56 2
def CXfer.spill (x : CXfer) : Bool := bit x.w0 58
def CXfer.tscale (x : CXfer) : Nat := fld x.w1 0 32
def CXfer.roff (x : CXfer) : Nat := fld x.w1 32 32

/-- A transfer's header (R302). -/
def cHeader (s : State) (cop ddie job cbase fmtWord : Nat) (spill : Bool) (tscale roff : Nat) : List Byte :=
  leBytes 8 (1 + 4 * cop + 2 ^ 6 * ddie + 2 ^ 8 * (job % 65536) + 2 ^ 24 * (moduleId s % 4096) +
    2 ^ 36 * (cbase % 65536) + 2 ^ 52 * (fmtWord % 16) + 2 ^ 56 * (fmtWord / 16 % 4) + 2 ^ 58 * b2n spill) ++
  leBytes 8 (tscale + 2 ^ 32 * (roff % 2 ^ 32))

/-- Whether an operation is of a reduce kind (R304). -/
def copReduce (cop : Nat) : Bool := decide (1 ≤ cop ∧ cop ≤ 4)
def copRing (cop : Nat) : Bool := decide (cop = 2 ∨ cop = 3)
def copTagged (cop : Nat) : Bool := decide (cop = 6 ∨ cop = 7)

/-! ### Units (R306, R308) -/

/-- Element bytes of a row of n elements, padded to whole blocks. -/
def rowElemBytes (f : Fmt) (n : Nat) : Nat := nBlocks n f.blk * f.blk * elemBits f.elem / 8

/-- Bytes of a row: elements, block scales, zero bytes to a multiple of 8. -/
def rowUnit (f : Fmt) (n : Nat) : Nat := 8 * cdiv (rowElemBytes f n + nBlocks n f.blk) 8

/-- The span of an element format (R29). -/
def elemSpan : Elem → Nat
  | .e4m3 => 18 | .e5m2 => 32 | .e3m2 => 9 | .e2m3 => 6 | .e2m1 => 4 | .int4 => 4 | .int8 => 8 | _ => 0

/-- Width of a carry integer, and bytes of a carry block (R308). -/
def carryW (f : Fmt) : Nat := elemSpan f.elem + 5
def carryBytes (f : Fmt) : Nat := 8 + 8 * cdiv (f.blk * carryW f) 64

/-- Bytes of a wide block (R308). -/
def wideBytes (f : Fmt) : Nat := 8 + 48 * f.blk

/-- The unit of a carry scale a: the weight of its integers' lowest bit (R308). -/
def carryUnit (f : Fmt) (a : Nat) : Rat := pow2 ((a : Int) - 127 + elemLsb f.elem)

/-- The exponent of the lowest set bit of a dyadic number that is not zero. -/
def lowExp (v : Rat) : Int :=
  (Nat.log2 (v.num.natAbs ^^^ (v.num.natAbs - 1)) : Int) - (Nat.log2 v.den : Int)

/-- carry_block of R309: the carry scale and the integers, or none where the block escalates. -/
def carryBlock (f : Fmt) (xs : List XReg) (escIn : Bool) : Option (Nat × List Int) :=
  let vs := xs.map (·.num)
  if escIn || xs.any (fun x => x.nan || x.pinf || x.ninf || x.sat) then none
  else
    let nz := vs.filter fun v => decide (v ≠ 0)
    match nz with
    | [] => some (0, vs.map fun _ => 0)
    | v :: l =>
      let t := l.foldl (fun m v => min m (lowExp v)) (lowExp v)
      let a := min 254 (t - elemLsb f.elem + 127)
      if a < 0 then none
      else
        let us := vs.map fun v => (v / carryUnit f a.toNat).floor
        if us.any fun u => decide (2 ^ (elemSpan f.elem + 4) ≤ u.natAbs) then none else some (a.toNat, us)

/-- A wide carry element (R309). -/
def wideElem (x : XReg) : List Byte :=
  leBytes 40 x.val.toNat ++
  leBytes 8 (min x.guard.toNat (2 ^ 56 - 1) + 2 ^ 56 * b2n x.nan + 2 ^ 57 * b2n x.pinf + 2 ^ 58 * b2n x.ninf)

/-- Reading a wide carry element. -/
def wideRead (bs : List Byte) : XReg :=
  let w5 := leNat ((bs.drop 40).take 8)
  { val := BitVec.ofNat 320 (leNat (bs.take 40)), guard := BitVec.ofNat 64 (w5 % 2 ^ 56),
    nan := w5.testBit 56, pinf := w5.testBit 57, ninf := w5.testBit 58 }

/-- A narrow carry block, or an escalated block's header with its integers 0 (R308). -/
def carryCode (f : Fmt) (b : Option (Nat × List Int)) (spilled : Bool) : List Byte :=
  match b with
  | some (a, us) => leBytes 8 a ++ leBytes (carryBytes f - 8) (packBits (carryW f) (us.map (ofSigned (carryW f))))
  | none => leBytes 8 (256 + 512 * b2n spilled) ++ leBytes (carryBytes f - 8) 0

/-- What one element of a transfer brings to a lane. -/
inductive Contrib where
  | val (v : FVal)
  | reg (x : XReg)
  | none
  deriving DecidableEq, Repr

/-- A lane with a contribution (R53). -/
def Contrib.into (c : Contrib) (x : XReg) : XReg :=
  match c with
  | .val v => x.add v
  | .reg y => x.merge y
  | .none => x

/-- Whether a contribution is not finite. -/
def Contrib.special (c : Contrib) : Bool :=
  match c with
  | .val v => !v.isFin
  | .reg y => y.nan || y.pinf || y.ninf
  | .none => false

/-- The elements of a DIRECT row of n elements: values without the tensor scale, and the block scales (R307). -/
def directRow (f : Fmt) (n : Nat) (bs : List Byte) : List Contrib × List Nat :=
  let sc := ((bs.drop (rowElemBytes f n)).take (nBlocks n f.blk)).map (·.toNat)
  ((unpackElems (elemBits f.elem) n (bs.take (rowElemBytes f n))).mapIdx fun i code =>
    Contrib.val (elemValue f.elem (nth 255 sc (i / f.blk)) 1 code), sc)

/-- The elements of a THIN unit of 512 (R306, R311). -/
def thinUnit (bs : List Byte) : List Contrib :=
  (List.range 512).map fun j =>
    let sign := (nth 0#8 bs (j / 8)).toNat.testBit (j % 8)
    let m := decodeElem .bf16 (leNat ((bs.drop (64 + 2 * (j / 128))).take 2))
    Contrib.val (if sign then m.flip else m)

/-- A wide block of the reserve area by its block index. -/
def reserveOf (f : Fmt) (area : List Byte) (places b : Nat) : List XReg :=
  match (List.range places).find? fun i => decide (leNat ((area.drop (i * wideBytes f)).take 2) = b) with
  | some i => (List.range f.blk).map fun k => wideRead ((area.drop (i * wideBytes f + 8 + 48 * k)).take 48)
  | none => (List.range f.blk).map fun _ => {}

/-- The elements of carry block b of a transfer, and whether it is escalated, and spilled (R308, R309, R310). -/
def carryRead (f : Fmt) (area : List Byte) (places b : Nat) (bs : List Byte) : List Contrib × Bool × Bool :=
  let h := leNat (bs.take 8)
  if h.testBit 8 then
    if h.testBit 9 then ((List.range f.blk).map fun _ => Contrib.none, true, true)
    else ((reserveOf f area places b).map Contrib.reg, true, false)
  else
    let u := carryUnit f (h % 256)
    ((unpackElems (carryW f) f.blk (bs.drop 8)).map fun c =>
      Contrib.val (FVal.ofRat false ((toSigned (carryW f) c : Rat) * u)), false, false)

/-- Units of a reduce transfer: elements and bytes of a unit, and the bytes of all units. shape is what the header does
not carry: the elements of a row for DIRECT, the wide blocks reserved for the ring kinds. -/
def redUnits (x : CXfer) (f : Fmt) (shape : Nat) : Nat × Nat × Nat :=
  if copRing x.cop then (f.blk, carryBytes f, x.pay.length - shape * wideBytes f)
  else if x.cop = 4 then (512, 72, x.pay.length)
  else (max 1 shape, rowUnit f (max 1 shape), x.pay.length)

/-- The elements of a reduce transfer in order, its block scales, and escalated and spilled element places. -/
def redElems (x : CXfer) (f : Fmt) (shape : Nat) : List Contrib × List Nat × List Nat × List Nat :=
  let (n, b, len) := redUnits x f shape
  let units := (List.range (len / b)).map fun i => (x.pay.drop (i * b)).take b
  if copRing x.cop then
    let rs := units.mapIdx fun i u => carryRead f (x.pay.drop len) shape i u
    (rs.flatMap (·.1), [],
     (List.range rs.length).filter (fun i => ((rs[i]?).map (·.2.1)).getD false),
     (List.range rs.length).filter (fun i => ((rs[i]?).map (·.2.2)).getD false))
  else if x.cop = 4 then (units.flatMap thinUnit, [], [], [])
  else
    let rs := units.map (directRow f n)
    (rs.flatMap (·.1), rs.flatMap (·.2), [], [])

/-- Whether a context goes on the piece of the one before it: the next 512 elements of the same tensor. -/
def goesOn (x y : Ctx) : Bool :=
  decide (y.state ≠ 0) && y.reduce && decide (y.job = x.job) && decide (y.ebase = x.ebase + 512)

/-- The contexts that a reduce transfer of n elements covers from context k on: number, first element, elements. The
padding of a short piece, all zero bytes, covers no context beyond the piece (R306). -/
def covered (s : State) (zero : Nat → Bool) (n : Nat) : Nat → Nat → Nat → List (Nat × Nat × Nat)
  | 0, _, _ => []
  | fuel + 1, k, off =>
    if n ≤ off then []
    else
      let x := getCtx s k
      let m := if x.state ≠ 0 ∧ x.reduce then x.nelem else 512
      let item := (k, off, min m (n - off))
      if m < 512 then [item]
      else if zero (off + 512) ∧ ¬ goesOn x (getCtx s (k + 1)) then [item]
      else item :: covered s zero n fuel (k + 1) (off + 512)

/-- The first fault of a transfer against a context that it covers (R303): code, or none. -/
def ctxFault (x : CXfer) (c : Ctx) : Option Nat :=
  if c.state = 0 ∨ c.job ≠ x.job ∨ c.reduce ≠ copReduce x.cop then some 1
  else if x.selem ≠ c.fmtWord % 16 ∨ x.sblk ≠ c.fmtWord / 16 % 4 then some 2
  else if c.reduce ∧ x.tscale ≠ c.tscale then some 3
  else if c.nexp ≤ c.narr then some 4
  else none

/-- The lowest-coded fault over the covered contexts, with its context (R303). -/
def firstFault (s : State) (x : CXfer) (ks : List Nat) : Option (Nat × Nat) :=
  [1, 2, 3, 4].findSome? fun code =>
    (ks.find? fun k => decide (ctxFault x (getCtx s k) = some code)).map fun k => (code, k)

/-- Adding a context's elements of a transfer into its register (R53, R300), with escalated places; a transfer with
spilled elements is counted when they have come (R310). -/
def addInto (x : CXfer) (es : List Contrib) (blk : Nat) (esc spilled : List Nat) (it : Nat × Nat × Nat) (s : State) :
    State :=
  let (k, off, n) := it
  let d := k / 65536
  let c := getCtx s k
  let t := ctxTile d c
  let v := getVec s t
  let mine := (es.drop off).take n
  let reg := getX v c.xreg
  let new : XVec := Vector.ofFn fun i => if i.val < n then (nth Contrib.none mine i.val).into (reg.get i) else reg.get i
  let s1 := setVec t (setX v c.xreg new) s
  let here (b : Nat) : Bool := decide (off ≤ b * blk) && decide (b * blk < off + n)
  let bits := (esc.filter here).foldl (fun m b => m ||| 2 ^ ((b * blk - off) / blk)) c.esc
  let s2 := setCtx k { c with w3 := setFld c.w3 32 32 bits } s1
  let left := blk * (spilled.filter here).length
  if left = 0 then countCtx k s2
  else { s2 with fabric := { s2.fabric with
    spills := s2.fabric.spills ++ [{ ctx := k, smod := x.smod, left := left, since := s.tick }] } }

/-- A reduce transfer arriving at a die (R300, R303, R307, R309, R311, R312); the flag says that it must be held until an
XBIND. -/
def arriveReduce (d shape : Nat) (x : CXfer) (s : State) : Bool × State :=
  let f := (fmtOf (x.selem + 16 * x.sblk)).getD noFmt
  let (es, scales, esc, spilled) := redElems x f shape
  let (un, ub, len) := redUnits x f shape
  let zero (off : Nat) : Bool := ((x.pay.take len).drop (off / un * ub)).all fun b => b = 0#8
  let its := covered s zero es.length 128 (ctxKey d x.cbase) 0
  let client := jobClient s d x.job
  match firstFault s x (its.map (·.1)) with
  | some (code, k) => (false, collFault d client code x.job (k % 65536) s)
  | none =>
    if its.any fun it => !(getCtx s it.1).bound then (true, s)
    else
      let s1 := its.foldl (fun s it => addInto x es f.blk esc spilled it s) s
      let s2 := bump (collBlk d 0) 0x008 1 s1
      let n := es.countP (·.special)
      let low := match es.findIdx? (·.special), its.head? with
        | some i, some it => (getCtx s it.1).ebase + i
        | _, _ => 0
      let s3 := if n = 0 ∨ copRing x.cop then s2 else noteNonFinite d client x.smod x.job low n s2
      let s4 := if x.cop = 4 then setScope client scThinned s3 else s3
      let w := (its.head?.map fun it => (getCtx s it.1).fmt).getD f
      (false, if countOut w scales = 0 then s4 else setScope client scViolation s4)

/-! ### Place transfers (R314, R315) -/

/-- A port toward a module, for a message back to it. -/
def portTo (s : State) (m : Nat) : Option Nat := (List.range 32).find? fun p => hasPeer s p && decide (peerMod s p = m)

/-- A place write, as a remote write of module smod; a refusal returns to the sender in a link control message
(R180, R283, R303). The writer's die is not in the header: it is open (log 4). -/
def placeWrite (smod name off : Nat) (bs : List Byte) (s : State) : State :=
  let (die, s0) := fresh s
  let w : Writer := { mod := smod, die := Fin.ofNat 4 die.toNat, eng := 7 }
  let s1 := remoteWrite w name off bs s0
  if bs.length = 0 ∨ windowAdmits s0 (getEnt s0 name) w off bs.length then s1
  else match portTo s1 smod with
    | none => s1
    | some p =>
      let (m, s2) := openMsg 0x07 s1
      sendCtl p m s2

/-- Placing the bytes of a row unchanged: its elements, then its scales. -/
def placeRaw (smod name : Nat) (e : Entry) (f : Fmt) (row col n : Nat) (bs : List Byte) (s : State) : State :=
  let s1 := placeWrite smod name (e.rowOff f row + col * elemBits f.elem / 8) (bs.take (rowElemBytes f n)) s
  placeWrite smod name (e.scaleOff f row (col / f.blk)) ((bs.drop (rowElemBytes f n)).take (nBlocks n f.blk)) s1

/-- Placing a row converted into the destination's format, with its statistics (R136, R144, R314). -/
def placeConv (client smod name : Nat) (e : Entry) (f : Fmt) (ts : Rat) (row col n : Nat) (bs : List Byte) (s : State) :
    State :=
  let sc := ((bs.drop (rowElemBytes f n)).take (nBlocks n f.blk)).map (·.toNat)
  let vals := (unpackElems (elemBits f.elem) n (bs.take (rowElemBytes f n))).mapIdx fun i code =>
    DVal.ofF (elemValue f.elem (nth 255 sc (i / f.blk)) ts code)
  let r := narrowAt s client e ⟨0, 0⟩ row col vals
  let g := e.fmtD
  let s1 := placeWrite smod name (e.rowOff g row + col * elemBits g.elem / 8) (packElems (elemBits g.elem) r.codes) s
  let s2 := if r.blocks.isEmpty then s1
    else placeWrite smod name (e.scaleOff g row (col / g.blk)) (r.blocks.map fun b => BitVec.ofNat 8 b.scale) s1
  foldStats (name / 4096) e.stat r.fold s2

/-- Whether a place context can take rows of the transfer unchanged (R314). -/
def sameBytes (x : CXfer) (c : Ctx) (e : Entry) : Bool :=
  decide (e.fmtWord = c.fmtWord) && decide (e.tsBits.toNat = x.tscale)

/-- The rows of a place transfer that are not padding: index, tag, bytes. -/
def placeRows (x : CXfer) (c : Ctx) : List (Nat × Nat × List Byte) :=
  let f := c.fmt
  let tagged := copTagged x.cop
  let h := if tagged then 8 else 0
  let b := h + rowUnit f c.rlen
  ((List.range (x.pay.length / b)).map fun i =>
    let u := (x.pay.drop (i * b)).take b
    (x.roff + i, leNat (u.take 8), u.drop h)).filter fun r =>
      decide (r.1 < c.rrows) && !(tagged && decide (r.2.1 % 2 ^ 32 = 0xFFFFFFFF))

/-- The destination row of a row of a place transfer: by its tag with AMODE 3; none where the tag names no row. -/
def placeRow (x : CXfer) (c : Ctx) (e : Entry) (r : Nat × Nat × List Byte) : Option Nat :=
  if c.amode = 3 ∧ copTagged x.cop then
    let n := r.2.1 % 2 ^ 32
    if c.drow ≤ n ∧ n - c.drow < e.rowsTotal then some (n - c.drow) else none
  else some (c.drow + r.1)

/-- A place transfer arriving at a die (R303, R314, R315). -/
def arrivePlace (d : Nat) (x : CXfer) (s : State) : State :=
  let k := ctxKey d x.cbase
  let c := getCtx s k
  let client := jobClient s d x.job
  let name := d * 4096 + c.dhandle
  let e := getEnt s name
  let rows := placeRows x c
  let same := sameBytes x c e
  match ctxFault x c with
  | some 1 => collFault d client 1 x.job (k % 65536) s
  | some 2 => collFault d client 2 x.job (k % 65536) s
  | fault =>
    if x.cop = 8 ∧ ¬ same then collFault d client 2 x.job (k % 65536) s
    else match fault with
    | some code => collFault d client code x.job (k % 65536) s
    | none =>
      if rows.any fun r => (placeRow x c e r).isNone then collFault d client 7 x.job (k % 65536) s
      else
        let f := c.fmt
        let ts := (f32 (BitVec.ofNat 32 x.tscale)).toRat
        let s1 := rows.foldl (fun s r =>
          let row := (placeRow x c e r).getD 0
          let s1 := if same then placeRaw x.smod name e f row c.dcol c.rlen r.2.2 s
            else placeConv client x.smod name e f ts row c.dcol c.rlen r.2.2 s
          let an := d * 4096 + c.ahandle
          if c.amode = 1 then placeRaw x.smod an (getEnt s1 an) f row c.dcol c.rlen r.2.2 s1
          else if c.amode = 2 ∧ copTagged x.cop then
            placeWrite x.smod an (8 * (c.drow + r.1)) (leBytes 8 r.2.1) s1
          else s1) s
        countCtx k (bump (collBlk d 0) 0x008 1 s1)

/-! ### Spill packets (R310) -/

/-- The pieces of a spill packet: block index, first element, elements. -/
def spillPieces : Nat → List Byte → List (Nat × Nat × List XReg)
  | 0, _ => []
  | fuel + 1, bs =>
    if bs.length < 8 then []
    else
      let h := leNat (bs.take 8)
      let n := h / 2 ^ 24 % 256
      let xs := (List.range n).map fun k => wideRead ((bs.drop (8 + 48 * k)).take 48)
      (h % 65536, h / 2 ^ 16 % 256, xs) :: spillPieces fuel (bs.drop (8 + 48 * n))

/-- One piece of a wide block merged into its lanes, from element e of the transfer on. -/
def mergePiece (d cbase smod e : Nat) (xs : List XReg) (s : State) : State :=
  let k := ctxKey d cbase + e / 512
  let c := getCtx s k
  let t := ctxTile d c
  let v := getVec s t
  let reg := getX v c.xreg
  let lo := e % 512
  let new : XVec := Vector.ofFn fun i =>
    if lo ≤ i.val ∧ i.val < lo + xs.length then (reg.get i).merge (nth {} xs (i.val - lo)) else reg.get i
  let s1 := setVec t (setX v c.xreg new) s
  let isIt (w : SpillWait) : Bool := decide (w.ctx = k) && decide (w.smod = smod)
  let less (w : SpillWait) : SpillWait := if isIt w then { w with left := w.left - xs.length } else w
  let s2 := { s1 with fabric := { s1.fabric with spills := s1.fabric.spills.map less } }
  if s2.fabric.spills.any fun w => isIt w && decide (w.left = 0) then
    let rest := s2.fabric.spills.filter fun w => !(isIt w && decide (w.left = 0))
    countCtx k { s2 with fabric := { s2.fabric with spills := rest } }
  else s2

/-- A spill packet arriving at a die; the flag says that it must be held: no context of its transfer waits for it yet. -/
def arriveSpill (d : Nat) (x : CXfer) (s : State) : Bool × State :=
  let f := (fmtOf (x.selem + 16 * x.sblk)).getD noFmt
  let ps := spillPieces (x.pay.length + 1) x.pay
  let ready := ps.all fun p => s.fabric.spills.any fun w =>
    decide (w.ctx = ctxKey d x.cbase + (p.1 * f.blk + p.2.1) / 512) && decide (w.smod = x.smod)
  if ¬ ready then (true, s)
  else (false, ps.foldl (fun s p => mergePiece d x.cbase x.smod (p.1 * f.blk + p.2.1) p.2.2 s) s)

/-- A collective transfer or spill packet at a die: the flag says that it is held (R300, R303, R310). -/
def collArrive (d shape : Nat) (data : List Byte) (s : State) : Bool × State :=
  let x := xferOf data
  if x.spill then arriveSpill d x s
  else if copReduce x.cop then arriveReduce d shape x s
  else (false, arrivePlace d x s)

/-- A transfer being taken in: once it is not held, its receive slot knows that its elements are added or placed (R300). -/
def takeOne (d shape : Nat) (data : List Byte) (s : State) : Bool × State :=
  let (keep, s1) := collArrive d shape data s
  let mark (x : Rx) : Rx := if x.hdr ++ x.data = data then { x with taken := true } else x
  if keep then (keep, s1) else (keep, { s1 with fabric := { s1.fabric with rx := s1.fabric.rx.map mark } })

/-- Going through what is held for a die, in order of arrival: what can be taken now is (R300). -/
def pumpHeld (d : DieId) (s : State) : State :=
  let mine := s.fabric.held.filter fun h => decide (h.1 = d)
  let s0 := { s with fabric := { s.fabric with held := s.fabric.held.filter fun h => decide (h.1 ≠ d) } }
  mine.foldl (fun s h =>
    let (keep, s1) := takeOne d.val h.2.1 h.2.2 s
    if keep then { s1 with fabric := { s1.fabric with held := s1.fabric.held ++ [h] } } else s1) s0

/-- Taking in a transfer or packet at a die, held where it must be; then what it may have let go on. -/
def takeXfer (d : DieId) (shape : Nat) (data : List Byte) (s : State) : State :=
  let (keep, s1) := takeOne d.val shape data s
  if keep then { s1 with fabric := { s1.fabric with held := s1.fabric.held ++ [(d, shape, data)] } }
  else if s1.fabric.held.any fun h => decide (h.1 = d) then pumpHeld d s1 else s1

end Sys2Proof.Machine
end

