-- ==== Sys2Proof/Machine/Abort.lean ====
section
/-! DEFINITION. Step aborts (R220, R229, R230, R301). -/

namespace Sys2Proof.Machine

/-! ### Waits for ring slots (R177, R178) -/

/-- Whether a Counterproof command's next line waits for a ring slot. -/
def cptStuck (s : State) (j : CJob) : Bool :=
  if j.lines.length < cptR j.cmd then !rowsReady s j.src.1 j.src.2 ((cptSrc j.cmd).row + j.lines.length) 1 false
  else !rowsReady s j.dst.1 j.dst.2 ((cptDst j.cmd).row + j.outs) 1 true

/-- Whether a descriptor's next read waits for a ring slot (R154). -/
def readStuck (s : State) (r : DDesc) : Bool :=
  decide (r.op ≠ 2) && decide (r.nRead < r.count) &&
    !readReady s r.sname r.src (r.sAt r.nRead) (if r.sfix then r.unit else min (256 / r.unit) (r.count - r.nRead) * r.unit)

/-- Whether a descriptor's next unit at the writer waits for a ring slot on this module (R154). -/
def writeStuck (s : State) (d : Nat) (x : DDesc) : Bool :=
  decide (x.nWritten < x.nRead) && !x.remote &&
    (match localUnit d (flightClient s x.id d) x [] s with
      | .waits => true
      | _ => false)

/-- Whether a DMA queue's reader or writer waits for a ring slot. -/
def dmaBlocked (s : State) (d k : Nat) : Bool :=
  let y := getDma s k
  (match y.reader with
    | none => false
    | some r => readStuck s r) ||
  match y.writer with
  | none => false
  | some x => writeStuck s d x && bursting s (flightClient s x.id d) y x

/-- Whether a drain lane's pair waits for a ring slot (R136, R177). -/
def laneBlocked (s : State) (t : TileId) : Bool :=
  match (getLane s t).offer with
  | some p => !p.rows.all (fun r => rowsReady s p.name p.ent r.1 1 true)
  | none => false

/-! ### Step abort (R229, R230) -/

/-- The token presets of a client's loaded plate set (R220). -/
def clientPresets (cl : Client) : List (Nat × Nat × Nat) :=
  match cl.set with
  | some p => p.presets
  | none => []

/-- Presetting the token files of a client's dies: every register 0 but those of the plate set's presets, in order
(R220, R229). -/
def presetTokens (c : Nat) (s : State) : State :=
  let cl := getClient s c
  let ps := clientPresets cl
  let clear := mdrop s.plates.tokens (fun k => hasDie cl (k / 256 / 17))
  let s1 := { s with plates := { s.plates with tokens := clear, posts := s.plates.posts.filter fun p => decide (p.client ≠ c) } }
  ((List.range 4).filter (hasDie cl)).foldl (fun s d =>
    ps.foldl (fun s p => setTok d p.1 p.2.1 p.2.2 s) s) s1

/-- Emptying an engine's window and ending its plate for the step; bindings are released with the contexts (R301). -/
def stopEngine (s : State) (e : Eng) : State :=
  let g := getEng s e
  setEng e { g with win := [], words := [], ended := true, xbound := 0 } s

/-- Whether a drain waits on what the abort discards: a pass ahead of it on its bank, or the blocks that would take what it
delivers to the vector engine (R78, R127, R229). -/
def drainCut (a : ArrayS) (d : DrainJob) : Bool :=
  decide (fld d.spec 0 2 ≠ 0) ||
  (!d.auto && a.passes.any fun p => decide (p.id < d.id) && !bit p.w0 5 && (bit p.w0 1 || decide (p.bank = d.bank)))

/-- Whether a drain of a tile's window is discarded: cut, or its pair waits for a ring slot (R229). -/
def drainStops (s : State) (t : TileId) (d : DrainJob) : Bool :=
  drainCut (getArr s t) d ||
  (laneBlocked s t && match (getLane s t).offer with
    | some p => decide (p.id = d.id)
    | none => false)

/-- Whether an issued command waits on state that the abort resets or that the fault names: streams, votes, slots, locks,
windows, ring slots (R214, R229). The others complete, their tokens dropped. -/
def abortDiscards (s : State) (f : Flight) : Bool :=
  match f.eng with
  | .array t => decide (f.win.cmd.opc = 2) || decide (f.win.cmd.opc = 3) ||
      (getArr s t).drains.any fun d => decide (d.id = f.id) && drainStops s t d
  | .vector _ => true
  | .stream _ => true
  | .seq _ => true
  | .coll _ => true
  | .dma d e => s.units.dma.any fun q => decide (q.1 / 8 = d.val * 2 + e.val) && q.2.descs.any fun x =>
      decide (x.id = f.id) && !x.mark && ((x.remote && !x.best) || readStuck s x || writeStuck s d.val x)
  | .hatch d u => match getHatch s d.val u.val with
    | some j => decide (j.id = f.id) && !hatchReady s j
    | none => false
  | .cpt d u => (getCpt s d.val u.val).any fun j => decide (j.id = f.id) && cptStuck s j

/-- Resetting a tile on an abort: its streams as by SRESET, its passes and loads, its block, its Folio operations. -/
def abortTile (t : TileId) (s : State) : State :=
  let x := getTile s t
  setTile t { x with
    arr := { x.arr with loads := [], passes := [], pend := none, pendBad := false, credit := 0,
                        drains := x.arr.drains.filter fun d => !drainStops s t d },
    vec := { x.vec with block := none, skips := [] },
    str := (List.range 64).foldl (fun y n => clearStream y n) x.str,
    sfops := [] } (if laneBlocked s t then setLane t { getLane s t with offer := none, fold := {}, flags := 0 } s else s)

/-- The words of an ABORT message (R230). -/
def abortMsg (origin client fcode step : Nat) : Word × Word :=
  (BitVec.ofNat 64 (0x0A + 2 ^ 8 * (origin % 4096) + 2 ^ 20 * (client % 16) + 2 ^ 24 * (fcode % 65536)),
   BitVec.ofNat 64 (step % 2 ^ 32))

/-- Flooding an ABORT once (R230). -/
def floodAbort (c origin fcode step : Nat) (but : Option Nat) (s : State) : State :=
  if s.fabric.aborts.contains (origin, step % 2 ^ 32) then s
  else
    flood c but (abortMsg origin c fcode step)
      { s with fabric := { s.fabric with aborts := s.fabric.aborts ++ [(origin, step % 2 ^ 32)] } }

/-- Carrying out the abort of a client's step (R229). -/
def stopStep (c : Nat) (st : StepSt) (s : State) : State :=
  let cl := getClient s c
  let dies := (List.range 4).filter (hasDie cl)
  let es := dies.flatMap enginesOf
  let gone := (s.plates.flights.filter fun f => decide (f.client = c) && abortDiscards s f).map (·.id)
  let s1 := es.foldl stopEngine s
  let s2 := { s1 with plates := { s1.plates with flights := s1.plates.flights.filter fun f => !gone.contains f.id } }
  let s3 := dies.foldl (fun s d => (tilesOf d).foldl (fun s t => abortTile t s) s) s2
  let s4 := { s3 with
    units := { s3.units with
      dma := (s3.units.dma.map (fun q => (q.1, { q.2 with
        descs := q.2.descs.filter (fun x => !gone.contains x.id),
        staged := q.2.staged.filter (fun u => !gone.contains u.1) }))).filter (fun q => decide (q.2 ≠ {})),
      hatch := s3.units.hatch.filter (fun q => match q.2 with
        | some j => !gone.contains j.id
        | none => true),
      cpt := (s3.units.cpt.map (fun q => (q.1, q.2.filter (fun j => !gone.contains j.id)))).filter
        (fun q => decide (q.2 ≠ [])) },
    fabric := { s3.fabric with sends := s3.fabric.sends.filter (fun j => !gone.contains j.id) },
    cat := { s3.cat with
      waiters := s3.cat.waiters.filter (fun w => w.remote || !dies.contains w.acc.die.val),
      closing := s3.cat.closing.filter (fun x => x.agent.isSome || !gone.contains x.id) } }
  let s5 := presetTokens c (dropTx c (freeCtxs (fun x => decide (x.state ≠ 0) && decide (x.client = c)) s4))
  let s6 := if st.forigin = moduleId s5 then floodAbort c st.forigin st.fcode st.idx none s5 else s5
  let s7 := updStep c (fun st => { st with stopped := true, gates := [], commits := [] }) s6
  post 0x0301 c (st.fcode % 65536 + 2 ^ 16 * (st.forigin % 4096)) (bumpDict (dkey 0x4040 0x04) 1 s7)

/-- STEP_ABORT (R229): the abort of a client's faulted step is carried out; a switched-out client's when it is back. -/
def execStepAbort (c : ClientId) (s : State) : Host.Outcome State Fault Refusal :=
  .next (match (getClient s c.val).step with
    | some st => if st.aborted && !st.stopped && decide ((getClient s c.val).state = 2) then stopStep c.val st s else s
    | none => s)

/-- ABORT_MESSAGE (R230): the message is flooded on once, and the client's step of that index is aborted. -/
def execAbortMessage (p : PortId) (w0 w1 : Word) (s : State) : Host.Outcome State Fault Refusal :=
  let origin := fld w0 8 12
  let c := fld w0 20 4
  let fcode := fld w0 24 16
  let step := fld w1 0 32
  .next (if s.fabric.aborts.contains (origin, step) then s
    else
      let s1 := floodAbort c origin fcode step (some p.val) s
      updStep c (fun st =>
        if st.aborted ∨ st.idx % 2 ^ 32 ≠ step then st
        else { st with aborted := true, fcode := fcode, forigin := origin }) s1)

end Sys2Proof.Machine
end

