-- ==== Sys2Proof/Machine/Crc.lean ====
section
/-! DEFINITION. The CRCs of the device: CRC-32 of IEEE 802.3 (R267) and CRC-32C (R370), reflected, initial and final value all ones. -/

namespace Sys2Proof.Machine

/-- One bit of a reflected CRC. -/
def crcBit (poly c : BitVec 32) : BitVec 32 := if c.getLsbD 0 then (c >>> 1) ^^^ poly else c >>> 1

/-- One byte of a reflected CRC. -/
def crcByte (poly c : BitVec 32) (b : BitVec 8) : BitVec 32 := iter 8 (fun _ c => crcBit poly c) (c ^^^ b.setWidth 32)

/-- The register after a byte list. -/
def crcRun (poly : BitVec 32) : BitVec 32 → List (BitVec 8) → BitVec 32
  | c, [] => c
  | c, b :: bs => crcRun poly (crcByte poly c b) bs

/-- CRC-32, generator 0x04C1_1DB7. -/
def crc32 (bs : List (BitVec 8)) : BitVec 32 := crcRun 0xEDB88320 (BitVec.allOnes 32) bs ^^^ BitVec.allOnes 32

/-- CRC-32C, generator 0x1EDC_6F41. -/
def crc32c (bs : List (BitVec 8)) : BitVec 32 := crcRun 0x82F63B78 (BitVec.allOnes 32) bs ^^^ BitVec.allOnes 32

end Sys2Proof.Machine
end

