-- ==== Sys2Proof/Machine/Coll.lean ====
section
/-! DEFINITION. Collective commands: CCTX, CSEND, CGATE, CCOMMIT, arrivals, spills, the re-shard decision, XBIND and XFREE (R126, R295 to R321). -/

namespace Sys2Proof.Machine

/-! ### Ragged shards (R317) -/

/-- Fields of a ragged shard descriptor. -/
def rgN (r : Word) : Nat := fld r 0 32
def rgP (r : Word) : Nat := fld r 32 13
def rgPart (r : Word) : Nat := fld r 45 12

/-- Whether a descriptor is reserved. -/
def rgBad (r : Word) : Bool := decide (rgN r = 0) || decide (rgP r = 0) || decide (4096 < rgP r) || decide (rgP r ≤ rgPart r)

/-- units_p, and the units of the largest part. -/
def rgUnits (r : Word) : Nat := rgN r / rgP r + (if rgPart r < rgN r % rgP r then 1 else 0)
def rgMost (r : Word) : Nat := cdiv (rgN r) (rgP r)

/-! ### CCTX (R297, R298) -/

/-- Whether contexts [first, first + n) of a die are allotted to a client and free. -/
def ctxsFree (s : State) (client d first n : Nat) : Bool :=
  let c := getClient s client
  hasDie c d && decide (c.ctxFirst ≤ first) && decide (first + n ≤ c.ctxFirst + c.ctxNum) && decide (first + n ≤ 65536) &&
    !(s.fabric.ctxs.any fun x => decide (ctxKey d first ≤ x.1) && decide (x.1 < ctxKey d first + n) && decide (x.2.state ≠ 0))

/-- Whether an FP32 tensor scale is one that R37 allows. -/
def tscaleOk (x : BitVec 32) : Bool :=
  match f32 x with
  | .fin false m => decide (pow2 (-126) ≤ m)
  | _ => false

/-- Whether R5 refuses a CCTX (R298). -/
def cctxReserved (s : State) (client d : Nat) (c : PCmd) : Bool :=
  let first := fld (c.w 0) 0 16
  let num := fld (c.w 0) 16 13
  let kind := fld (c.w 0) 29 3
  let fw := fld (c.w 0) 33 16
  let units := rgUnits (c.w 3)
  let common := decide (num = 0) || decide (4096 < num) || decide (2 < kind) || rgBad (c.w 3) ||
    !ctxsFree s client d first num
  if kind = 2 then
    let dn := d * 4096 + fld (c.w 1) 0 12
    let an := d * 4096 + fld (c.w 1) 12 12
    let de := getEnt s dn
    let ae := getEnt s an
    let am := fld (c.w 1) 24 2
    let rlen := fld (c.w 1) 38 17
    common || decide (num ≠ 1) || decide (fld (c.w 1) 26 12 = 0) || decide (rlen = 0) || decide (65536 < rlen) ||
      (match fmtOf fw with | some f => elemWide f.elem | none => true) ||
      !de.ownedBy client || !de.tensor || de.fmtD.rnd ||
      (decide (am = 1) && (!ae.ownedBy client || !ae.tensor || decide (ae.fmtWord ≠ fw))) ||
      (decide (am = 2) && (!ae.ownedBy client || ae.tensor || decide (ae.len < 8 * (fld (c.w 2) 0 32 + units))))
  else
    let uelem := fld (c.w 1) 44 20
    common || decide (uelem = 0) || decide (fld (c.w 1) 32 12 = 0) ||
      decide (num ≠ cdiv (units * uelem) 512) ||
      (match fmtOf fw with | some f => elemWide f.elem | none => true) ||
      !tscaleOk (BitVec.ofNat 32 (fld (c.w 1) 0 32))

/-- The context that a CCTX arms in place i of its range (R296, R297). -/
def armedCtx (client job : Nat) (c : PCmd) (i : Nat) : Ctx :=
  let kind := fld (c.w 0) 29 3
  let units := rgUnits (c.w 3)
  let w0 := 1 + 2 ^ 3 * kind + 2 ^ 6 * client + 2 ^ 10 * job + 2 ^ 26 * (if kind = 2 then 0 else fld (c.w 0) 32 1) +
    2 ^ 28 * fld (c.w 0) 33 16
  if kind = 2 then
    { w0 := BitVec.ofNat 64 w0,
      w1 := BitVec.ofNat 64 (fld (c.w 1) 0 26 + 2 ^ 26 * (units % 2 ^ 32)),
      w2 := BitVec.ofNat 64 (fld (c.w 2) 0 48),
      w3 := BitVec.ofNat 64 (fld (c.w 1) 26 12 + 2 ^ 24 * fld (c.w 1) 38 17) }
  else
    let ntot := units * fld (c.w 1) 44 20
    { w0 := BitVec.ofNat 64 w0,
      w1 := BitVec.ofNat 64 (fld (c.w 1) 0 32),
      w2 := BitVec.ofNat 64 ((fld (c.w 2) 0 48 + 512 * i) % 2 ^ 48 + 2 ^ 48 * min 512 (ntot - 512 * i)),
      w3 := BitVec.ofNat 64 (fld (c.w 1) 32 12) }

/-- CCTX (R297): the contexts are armed. -/
def execCctx (d : DieId) (c : PCmd) (s : State) : Host.Outcome State Fault Refusal :=
  .next (withIssue none (.coll d) c s fun s _ id =>
    let client := clientOn s d.val
    if cctxReserved s client d.val c then refuse id s
    else
      let first := fld (c.w 0) 0 16
      let job := (getClient s client).job % 65536
      let s1 := (List.range (fld (c.w 0) 16 13)).foldl (fun s i =>
        setCtx (ctxKey d.val (first + i)) (armedCtx client job c i) s) s
      complete id (countFree d.val s1))

/-! ### CSEND (R304 to R316) -/

/-- Fields of a CSEND. -/
def csSlot (c : PCmd) : Nat := fld (c.w 0) 0 16
def csCop (c : PCmd) : Nat := fld (c.w 0) 16 4
def csName (d : Nat) (c : PCmd) : Nat := d * 4096 + fld (c.w 0) 20 12
def csRow (c : PCmd) : Nat := fld (c.w 1) 0 32
def csCol (c : PCmd) : Nat := fld (c.w 1) 32 16
def csSrc (c : PCmd) : Nat := fld (c.w 1) 48 16
def csCols (c : PCmd) : Nat := fld (c.w 2) 32 17
def csEscMax (c : PCmd) : Nat := fld (c.w 3) 32 12
def csEHandle (d : Nat) (c : PCmd) : Nat := d * 4096 + fld (c.w 3) 44 12
def csENext (d : Nat) (c : PCmd) : Nat := d * 4096 + fld (c.w 4) 0 12
def csTHandle (d : Nat) (c : PCmd) : Nat := d * 4096 + fld (c.w 4) 12 12

/-- Rows that a CSEND takes, and rows of the largest part, to which it pads (R306, R317); DISPATCH pads to its capacity. -/
def csRows (c : PCmd) : Nat := if c.w 5 = 0 then fld (c.w 2) 0 32 else rgUnits (c.w 5)
def csMost (c : PCmd) : Nat :=
  if csCop c = 6 then fld (c.w 3) 0 32 else if c.w 5 = 0 then fld (c.w 2) 0 32 else rgMost (c.w 5)

/-- The source format of a CSEND: its handle's, or that of its first source context. -/
def csFmtWord (s : State) (d : Nat) (e : Entry) (c : PCmd) : Nat :=
  if csCop c = 3 then (getCtx s (ctxKey d (csSrc c))).fmtWord else e.fmtWord

/-- Data bytes of a transfer for the largest shard (R306). -/
def csBytes (f : Fmt) (c : PCmd) : Nat :=
  let n := csMost c * csCols c
  if copRing (csCop c) then cdiv n f.blk * carryBytes f + csEscMax c * wideBytes f
  else if csCop c = 4 then cdiv n 512 * 72
  else csMost c * ((if copTagged (csCop c) then 8 else 0) + rowUnit f (csCols c))

/-- Entry i of a DISPATCH index list, as it stands in memory, by a copy of the list's entry. -/
def listEntry (s : State) (e : Entry) (name i : Nat) : Nat := fld (entWord s e name (4 * i / 8 * 8)) (32 * (i % 2)) 32

/-- The source contexts of a RING_FWD, from CSRC on, that hold n elements. -/
def fwdCtxs (d : Nat) (c : PCmd) : List (Nat × Nat × Nat) :=
  let n := csRows c * csCols c
  (List.range (cdiv n 512)).map fun i => (ctxKey d (csSrc c + i), 512 * i, min 512 (n - 512 * i))

/-- Whether R5 refuses a CSEND (R282, R304, R305). -/
def csReserved (s : State) (client d : Nat) (e : Entry) (c : PCmd) : Bool :=
  let cop := csCop c
  let t := shareOf s client
  let en := t.slot (csSlot c)
  let f := (fmtOf (csFmtWord s d e c)).getD noFmt
  let rows := csRows c
  let th := getEnt s (csTHandle d c)
  let eh := getEnt s (csEHandle d c)
  let nx := getEnt s (csENext d c)
  let bf (x : Entry) : Bool := x.ownedBy client && x.tensor && decide (x.fmtD.elem = .bf16) &&
    decide (csRow c + rows ≤ x.rowsTotal) && decide (csCol c + csCols c ≤ x.cols)
  decide (cop = 0 ∨ 8 < cop) || decide (csCols c = 0 ∨ 65536 < csCols c) || (decide (c.w 5 ≠ 0) && rgBad (c.w 5)) ||
  decide (t.nslot ≤ csSlot c) || decide (en.kind ≠ 0) || decide (en.eng ≠ 2) || decide (en.edie ≠ d) ||
  decide (flitCount (csBytes f c) ≠ en.flits) ||
  (decide (cop = 3) && (fwdCtxs d c).any fun x =>
    let k := getCtx s x.1
    decide (k.state = 0) || decide (k.kind ≠ 1) || decide (k.client ≠ client)) ||
  (decide (cop ≠ 3) && (!e.ownedBy client || !e.tensor || elemWide e.fmtD.elem)) ||
  (decide (cop ≠ 3 ∧ cop ≠ 6) && (decide (e.rowsTotal < csRow c + rows) || decide (e.cols < csCol c + csCols c))) ||
  (copReduce cop && decide (cop ≠ 3) && (decide (csCol c % e.fmtD.blk ≠ 0) || decide (csCols c % e.fmtD.blk ≠ 0))) ||
  (decide (cop = 4) && (!bf eh || !bf nx || nx.fmtD.rnd)) ||
  (copTagged cop && (!th.ownedBy client || th.tensor)) ||
  (decide (cop = 6) && (decide (th.len < 4 * rows) || decide (e.cols < csCol c + csCols c) ||
    (List.range (min rows (csMost c))).any fun i => decide (e.rowsTotal ≤ listEntry s th (csTHandle d c) i))) ||
  (decide (cop = 7) && decide (th.len < 8 * (csRow c + rows)))

/-- Reading n elements of a narrow row from a column on: the element codes and block scales; a block with a poisoned word
takes scale 255 (R211, R306). The flag says that one was. -/
def sourceRow (client name : Nat) (e : Entry) (row col n : Nat) (s : State) : List Nat × List Nat × Bool × State :=
  let f := e.fmtD
  let w := elemBits f.elem
  let m := nBlocks n f.blk * f.blk
  let (bs, s1) := readBuf client e (name / 4096) (e.rowOff f row + col * w / 8) (cdiv (m * w) 8) s
  let (sc, s2) := readBuf client e (name / 4096) (e.scaleOff f row (col / f.blk)) (nBlocks n f.blk) s1
  let scales := sc.mapIdx fun j b =>
    if b.2 || anyPoison ((bs.drop (j * f.blk * w / 8)).take (f.blk * w / 8)) then 255 else b.1.toNat
  (unpackElems w m (plain bs), scales, anyPoison bs || anyPoison sc, s2)

/-- Rows of a source as row units: row numbers, each with a tag where the operation has tags (R306). -/
def rowPayload (client name : Nat) (e : Entry) (col n : Nat) : List (Nat × List Byte) → State → List Byte × Bool × State
  | [], s => ([], false, s)
  | (row, tag) :: rs, s =>
    let f := e.fmtD
    let (codes, scales, bad, s1) := sourceRow client name e row col n s
    let body := packElems (elemBits f.elem) codes ++ scales.map (BitVec.ofNat 8)
    let pad : List Byte := List.replicate (rowUnit f n - body.length) 0
    let (rest, bad2, s2) := rowPayload client name e col n rs s1
    (tag ++ body ++ pad ++ rest, bad || bad2, s2)

/-- The exact values of a source region in order, without the tensor scale. -/
def regionVals (client name : Nat) (e : Entry) (col n : Nat) : List Nat → State → List FVal × State
  | [], s => ([], s)
  | row :: rs, s =>
    let f := e.fmtD
    let (codes, scales, _, s1) := sourceRow client name e row col n s
    let vs := (codes.take n).mapIdx fun i code => elemValue f.elem (nth 255 scales (i / f.blk)) 1 code
    let (rest, s2) := regionVals client name e col n rs s1
    (vs ++ rest, s2)

/-- The blocks of a ring transfer: registers of each block's lanes, and whether it came in escalated (R309). -/
abbrev RingBlocks := List (List XReg × Bool)

/-- Cutting lanes into blocks. -/
def cutBlocks (b : Nat) (xs : List XReg) (esc : Nat → Bool) : RingBlocks :=
  (List.range (cdiv xs.length b)).map fun i => ((xs.drop (i * b)).take b, esc i)

/-- A spill packet's bytes: at most 64 elements of a wide block (R310). -/
def spillBytes (hdr : List Byte) (b first : Nat) (xs : List XReg) : List Byte :=
  hdr ++ leBytes 8 (b % 65536 + 2 ^ 16 * first + 2 ^ 24 * xs.length) ++ xs.flatMap wideElem

/-- The payload of a ring transfer, padded with zero blocks to the largest shard, and its spilled pieces as block, first
element and lanes (R306, R308 to R310). -/
def ringPayload (f : Fmt) (bs : RingBlocks) (most escMax : Nat) : List Byte × List (Nat × Nat × List XReg) × List Nat :=
  let cs := bs.map fun b => carryBlock f b.1 b.2
  let esc := (List.range cs.length).filter fun i => nth none (cs.map fun c => some c.isNone) i = some true
  let kept := esc.take escMax
  let spilled := esc.drop escMax
  let body := (cs.mapIdx fun i c => carryCode f c (spilled.contains i)).flatten
  let pad : List Byte := List.replicate ((most - cs.length) * carryBytes f) 0
  let lanes (i : Nat) : List XReg := nth [] (bs.map (·.1)) i
  let res := kept.flatMap fun i => leBytes 8 i ++ (lanes i).flatMap wideElem
  let rpad : List Byte := List.replicate (escMax * wideBytes f - res.length) 0
  (body ++ pad ++ res ++ rpad,
   spilled.flatMap fun i => (List.range (cdiv f.blk 64)).map fun j => (i, 64 * j, ((lanes i).drop (64 * j)).take 64),
   esc)

/-- Counting and noting what a ring send escalated and spilled; a block that escalates for flags it did not come in with is
a non-finite contribution of this module, whose place in the tensor the sender has from its source context, and none
where the source is a handle: it is open there (R310, R312, R323, log 4). -/
def noteRing (d client job : Nat) (bs : RingBlocks) (f : Fmt) (base : Option Nat) (esc : List Nat) (spills : Nat)
    (s : State) : State :=
  let n := esc.length
  let s1 := if n = 0 then s else
    setBit (collBlk d 0) 7 (bump (collBlk d 0) 0x010 n (bumpDict (dkey 0x5100 0x05) n s))
  let s2 := if spills = 0 then s1 else
    setBit (collBlk d 0) 8 (bump (collBlk d 0) 0x018 spills (bumpDict (dkey 0x5100 0x06) spills s1))
  let bad (x : XReg) : Bool := x.nan || x.pinf || x.ninf
  let new := bs.zipIdx.filter fun b => !b.1.2 && b.1.1.any bad
  let cnt := new.foldl (fun m b => m + b.1.1.countP bad) 0
  match new with
  | [] => s2
  | (b, i) :: _ =>
    let at0 := i * f.blk + (b.1.findIdx? bad).getD 0
    match base with
    | some e => noteNonFinite d client (moduleId s) job (e + at0) cnt s2
    | none =>
      let (x, s3) := fresh s2
      noteNonFinite d client (moduleId s) job (fld x 0 36) cnt s3

/-- One THIN block of up to 128 elements from (x, err): its magnitude, signs and residuals, and saturations (R311). -/
def thinBlock (xs errs : List FVal) : Nat × List Bool × List Nat × Nat :=
  if (xs ++ errs).all (·.isFin) then
    let gs := xs.mapIdx fun i x => x.toRat + (nth FVal.nan errs i).toRat
    let m := convFloat .bf16 false .rne false ((gs.foldl (fun a g => a + rabs g) 0) / 128)
    let mv := (decodeElem .bf16 m.code).toRat
    let rs := gs.map fun g =>
      let r := g - (if g < 0 then -mv else mv)
      convFloat .bf16 false .rne (decide (r < 0)) (rabs r)
    (m.code, gs.map fun g => decide (g < 0), rs.map (·.code), b2n m.sat + rs.countP (·.sat))
  else
    let gs := xs.mapIdx fun i x => match x, nth FVal.nan errs i with
      | .fin _ _, .fin _ _ => decide (x.toRat + (nth FVal.nan errs i).toRat < 0)
      | _, _ => false
    (elemNan .bf16, gs, xs.map fun _ => elemNan .bf16, 0)

/-- Writing BF16 residuals at elements j on of a region whose rows have n columns. -/
def writeResid (client name : Nat) (e : Entry) (row col n j : Nat) (codes : List Nat) (s : State) : State :=
  (codes.zipIdx).foldl (fun s c =>
    let k := j + c.2
    putBuf client name e (e.rowOff e.fmtD (row + k / n) + 2 * (col + k % n)) (leBytes 2 c.1) s) s

/-- The payload of a THIN transfer; the residuals are written to the error memory's next buffer, whose entry is e (R306,
R311). -/
def thinPayload (d client : Nat) (c : PCmd) (e : Entry) (xs errs : List FVal) (s : State) : List Byte × State :=
  let nx := csENext d c
  let blocks := (List.range (cdiv xs.length 128)).map fun b =>
    thinBlock ((xs.drop (128 * b)).take 128) ((errs.drop (128 * b)).take 128)
  let s1 := (blocks.zipIdx).foldl (fun s b =>
    slotAdd d e.stat 5 b.1.2.2.2 (writeResid client nx e (csRow c) (csCol c) (csCols c) (128 * b.2) b.1.2.2.1 s)) s
  let units := cdiv (csMost c * csCols c) 512
  let pay := (List.range units).flatMap fun u =>
    let four := (List.range 4).map fun k => nth (0, [], [], 0) blocks (4 * u + k)
    let signs := four.flatMap fun b => b.2.1 ++ List.replicate (128 - b.2.1.length) false
    leBytes 64 (packBits 1 (signs.map b2n)) ++ four.flatMap fun b => leBytes 2 b.1
  (pay, s1)

/-- Tags and rows of a DISPATCH: entries within capacity, then empty rows; those beyond are deferred or dropped (R315). -/
def dispatchRows (s : State) (d : Nat) (c : PCmd) (th : Entry) : List (Nat × List Byte) :=
  (List.range (min (csRows c) (csMost c))).map fun i =>
    let x := listEntry s th (csTHandle d c) i
    (x, leBytes 8 ((csRow c + x) % 2 ^ 32 + 2 ^ 32 * fld (c.w 2) 49 8))

/-- The entries of a DISPATCH beyond its capacity, deferred into ENEXT as a count word and the entries, or dropped. -/
def dispatchRest (d client : Nat) (c : PCmd) (th e : Entry) (s : State) : State :=
  let n := csRows c - csMost c
  let rest := (List.range n).map fun i => listEntry s th (csTHandle d c) (csMost c + i)
  let nx := csENext d c
  if bit (c.w 3) 32 then
    let bs := leBytes 8 n ++ rest.flatMap (leBytes 4)
    let s1 := if e.ownedBy client ∧ bs.length ≤ e.len then putBuf client nx e 0 bs s else s
    if n = 0 then s1 else bump (collBlk d 0) 0x030 n (bumpDict (dkey 0x5100 0x0B) n s1)
  else if n = 0 then s
  else bump (collBlk d 0) 0x028 n (bumpDict (dkey 0x5100 0x0A) n s)

/-- EXPERT_MAP in the scope word where the signature is not the client's reference (R316). -/
def checkMap (client : Nat) (c : PCmd) (s : State) : State :=
  if fld (c.w 4) 32 32 = (getDict s (dkey 0x5102 client)).toNat then s else setScope client scExpertMap s

/-- Whether a CSEND's source is there: its ring slots FULL, its error memory writable, or its source contexts with every
contribution counted (R177, R300, R304). -/
def sendReady (s : State) (d : Nat) (w : WinCmd) : Bool :=
  let c := w.cmd
  if csCop c = 3 then (fwdCtxs d c).all fun x =>
    let k := getCtx s x.1
    k.bound && decide (k.narr = k.nexp)
  else
    let e := w.ent (csName d c)
    csCop c = 6 || (rowsReady s (csName d c) e (csRow c) (csRows c) false &&
      (csCop c ≠ 4 || rowsReady s (csENext d c) (w.ent (csENext d c)) (csRow c) (csRows c) true))

/-- Marking source contexts read (R300), with the blocks that escalated (R309). -/
def markRead (f : Fmt) (xs : List (Nat × Nat × Nat)) (esc : List Nat) (s : State) : State :=
  xs.foldl (fun s x =>
    let k := getCtx s x.1
    let bits := (esc.filter fun b => decide (x.2.1 ≤ b * f.blk) && decide (b * f.blk < x.2.1 + x.2.2)).foldl
      (fun m b => m ||| 2 ^ ((b * f.blk - x.2.1) / f.blk)) k.esc
    settleCtx x.1 (setCtx x.1 { k with w1 := setFld k.w1 32 1 1, w3 := setFld k.w3 32 32 bits } s)) s

/-- Forming a CSEND's transfer in its open slot: header and payload go to its port, spilled pieces to best effort
(R304 to R311, R315). -/
def formSend (d : DieId) (client id : Nat) (w : WinCmd) (s : State) : State :=
  let c := w.cmd
  let cop := csCop c
  let name := csName d.val c
  let e := w.ent name
  let th := w.ent (csTHandle d.val c)
  let fw := csFmtWord s d.val e c
  let f := (fmtOf fw).getD noFmt
  let job := (getClient s client).job
  let ts := if cop = 3 then (getCtx s (ctxKey d.val (csSrc c))).tscale else e.tsBits.toNat
  let hdr (spill : Bool) : List Byte := cHeader s cop (fld (c.w 0) 48 2) job (fld (c.w 0) 32 16) fw spill ts
    (if cop = 5 ∨ cop = 7 ∨ cop = 8 then fld (c.w 3) 0 32 else 0)
  let rows := (List.range (csRows c)).map (csRow c + ·)
  let plainRows : List (Nat × List Byte) := rows.map fun r => (r, [])
  let unit := (if copTagged cop then 8 else 0) + rowUnit f (csCols c)
  let empty : List Byte := leBytes 8 0xFFFFFFFF ++ List.replicate (unit - 8) 0
  let most := cdiv (csMost c * csCols c) f.blk
  let ringOf (bs : RingBlocks) (base : Option Nat) (s : State) : List Byte × List (Nat × Nat × List XReg) × List Nat × State :=
    let (pay, sp, esc) := ringPayload f bs most (csEscMax c)
    (pay, sp, esc, noteRing d.val client job bs f base esc ((sp.map (·.1)).eraseDups.length) s)
  let (pay, sp, s1) : List Byte × List (Nat × Nat × List XReg) × State :=
    if cop = 2 then
      let (vs, s1) := regionVals client name e (csCol c) (csCols c) rows s
      let (pay, sp, _, s2) := ringOf (cutBlocks f.blk (vs.map fun v => ({} : XReg).add v) fun _ => false) none s1
      (pay, sp, s2)
    else if cop = 3 then
      let xs := fwdCtxs d.val c
      let lanes := xs.flatMap fun x =>
        let r := ctxReg s d.val (getCtx s x.1)
        (List.range x.2.2).map fun i => r.get (Fin.ofNat 512 i)
      let escIn (b : Nat) : Bool := (getCtx s (ctxKey d.val (csSrc c) + b * f.blk / 512)).esc.testBit (b * f.blk % 512 / f.blk)
      let base := (xs.head?).map fun x => (getCtx s x.1).ebase
      let (pay, sp, esc, s1) := ringOf (cutBlocks f.blk lanes escIn) base s
      (pay, sp, markRead f xs esc s1)
    else if cop = 4 then
      let (vs, s1) := regionVals client name e (csCol c) (csCols c) rows s
      let eh := csEHandle d.val c
      let ee := w.ent eh
      let (errs, s2) := rows.foldl (fun (acc : List FVal × State) r =>
        let (bs, s') := readBuf client ee d.val (ee.rowOff ee.fmtD r + 2 * csCol c) (2 * csCols c) acc.2
        (acc.1 ++ (List.range (csCols c)).map fun i =>
          if anyPoison ((bs.drop (2 * i)).take 2) then .nan else decodeElem .bf16 (leNat (plain ((bs.drop (2 * i)).take 2))), s'))
        ([], s1)
      let (pay, s3) := thinPayload d.val client c (w.ent (csENext d.val c)) vs errs s2
      (pay, [], setScope client scThinned s3)
    else if cop = 6 then
      let (pay, _, s1) := rowPayload client name e (csCol c) (csCols c) (dispatchRows s d.val c th) s
      let pad := (List.range (csMost c - min (csRows c) (csMost c))).flatMap fun _ => empty
      (pay ++ pad, [], dispatchRest d.val client c th (w.ent (csENext d.val c)) (checkMap client c s1))
    else if cop = 7 then
      let (pay, s1) := rows.zipIdx.foldl (fun (acc : List Byte × State) r =>
        let tag := entWord s th (csTHandle d.val c) (8 * r.1)
        if fld tag 0 32 = 0xFFFFFFFF then (acc.1 ++ leBytes 8 tag.toNat ++ List.replicate (unit - 8) 0, acc.2)
        else
          let (bs, _, s') := rowPayload client name e (csCol c) (csCols c) [(r.1, leBytes 8 tag.toNat)] acc.2
          (acc.1 ++ bs, s')) ([], s)
      let pad := (List.range (csMost c - csRows c)).flatMap fun _ => empty
      (pay ++ pad, [], checkMap client c s1)
    else
      let (pay, bad, s1) := rowPayload client name e (csCol c) (csCols c) plainRows s
      let pad : List Byte := List.replicate ((csMost c - csRows c) * unit) 0
      (pay ++ pad, [], if bad ∧ cop = 8 then updStep client (fun st => { st with notReady := true }) s1 else s1)
  let en := (shareOf s client).slot (csSlot c)
  let s2 := beginTx (csSlot c) client (portFor s en.port) (.coll d) id (hdr false) pay.length s1
  let s3 := feedTx (csSlot c) client pay s2
  sp.foldl (fun s x => addPacket { dmod := en.peer, smod := moduleId s, client := client, owner := id,
                                   bytes := spillBytes (hdr true) x.1 x.2.1 x.2.2 } s) s3

/-- Forming every transfer whose slot is open and whose source is there. -/
def pumpSends (s : State) : State :=
  s.fabric.sends.foldl (fun s j =>
    match findFlight s j.id with
    | none => { s with fabric := { s.fabric with sends := s.fabric.sends.filter fun x => decide (x.id ≠ j.id) } }
    | some f =>
      if slotLive s f.client (csSlot j.win.cmd) && sendReady s j.die.val j.win && !aborted s f.client then
        formSend j.die f.client j.id j.win
          { s with fabric := { s.fabric with sends := s.fabric.sends.filter fun x => decide (x.id ≠ j.id) } }
      else s) s

/-- Completing every formed CSEND whose flits and packets have all been acknowledged (R283, R295). -/
def settleSends (s : State) : State :=
  let out := s.plates.flights.filter fun f => match f.eng with
    | .coll _ => decide (f.win.cmd.opc = 2) && !(s.fabric.sends.any fun j => decide (j.id = f.id)) && ownerQuiet s f.id
    | _ => false
  out.foldl (fun s f => complete f.id (endTx f.id s)) s

/-- CSEND (R304): the send is accepted, and its transfer is formed once its slot is open and its source is there. Up to 64
sends are in progress. -/
def execCsend (d : DieId) (c : PCmd) (s : State) : Host.Outcome State Fault Refusal :=
  let busy := (flightsOf s (.coll d)).countP fun f => decide (f.win.cmd.opc = 2)
  .next (withIssue (if 64 ≤ busy then some 0x14 else none) (.coll d) c s fun s w id =>
    if csReserved s (clientOn s d.val) d.val (w.ent (csName d.val c)) c then refuse id s
    else pumpSends { s with fabric := { s.fabric with
      sends := s.fabric.sends ++ [{ id := id, die := d, win := w }] } })

/-! ### CGATE (R313) -/

/-- Whether two region records of one plate overlap. -/
def recsOverlap (a b : Word × Word) : Bool :=
  decide (fld a.2 0 10 = fld b.2 0 10) && decide (fld a.1 0 24 < fld b.1 0 24 + fld b.1 24 24) &&
    decide (fld b.1 0 24 < fld a.1 0 24 + fld a.1 24 24)

/-- Whether the client's plate set holds the plate that a region record names. -/
def recHeld (s : State) (client : Nat) (r : Word × Word) : Bool :=
  match (getClient s client).set with
  | none => false
  | some p => (mget (0, 0) p.dir ((fld r.2 8 2 * 8 + fld r.2 0 4) * 16 + fld r.2 4 4)).2 ≠ 0 && decide (fld r.2 0 4 < 8)

/-- Whether R5 refuses a CGATE (R313): regions of plates that are not there, or that overlap; a buffer that is not a byte
buffer of the client; a slot that is no control slot. -/
def cgateReserved (s : State) (client d : Nat) (c : PCmd) : Bool :=
  let name := d * 4096 + fld (c.w 0) 16 12
  let e := getEnt s name
  let n := fld (c.w 0) 28 16
  let t := shareOf s client
  let rs := (List.range n).map fun i => skipRec s e name i
  decide (t.nslot ≤ fld (c.w 0) 0 16) || decide ((t.slot (fld (c.w 0) 0 16)).kind ≠ 3) ||
  (decide (n ≠ 0) && (!e.ownedBy client || e.tensor || decide (e.len < 16 * n))) ||
  rs.any (fun r => !recHeld s client r) ||
  (List.range n).any (fun i => (List.range i).any fun j => recsOverlap (nth (0, 0) rs i) (nth (0, 0) rs j))

/-- Settling the gates of a control slot whose combined records have come: the outcome is SKIP, and a step that skips is
counted once (R313, R323). -/
def settleGates (c slot : Nat) (s : State) : State :=
  match (getClient s c).step with
  | none => s
  | some st =>
    let ctl := mget {} st.ctl slot
    let mine := st.gates.filter fun g => decide (g.cslot = slot) && g.outcome.isNone
    if ¬ ctl.down ∨ mine = [] then s
    else
      let skip := (nth 0 (mget [] ctl.recs 0) 0).testBit 1
      let first := skip && !(st.gates.any fun g => decide (g.outcome = some true))
      let settle (g : GateSt) : GateSt := if g.cslot = slot ∧ g.outcome.isNone then { g with outcome := some skip } else g
      let s1 := updStep c (fun st => { st with gates := st.gates.map settle }) s
      let s2 := if first then
          bumpDict (dkey 0x5100 0x08) 1 (((List.range 4).filter (hasDie (getClient s c))).foldl (fun s d =>
            setBit (collBlk d 0) 9 s) s1)
        else s1
      mine.foldl (fun s g => complete g.id s) s2

/-- CGATE (R313): the gate waits for the combined record of its control slot. -/
def execCgate (d : DieId) (c : PCmd) (s : State) : Host.Outcome State Fault Refusal :=
  .next (withIssue none (.coll d) c s fun s w id =>
    let client := clientOn s d.val
    if cgateReserved s client d.val c then refuse id s
    else
      let waits := (s.fabric.ctxs.filter fun x => decide (x.1 / 65536 = d.val) && x.2.skippol &&
        decide (x.2.client = client) && decide (x.2.state = 1 ∨ x.2.state = 2)).map (·.1)
      settleGates client (fld (c.w 0) 0 16)
        (updStep client (fun st => { st with gates := st.gates ++
          [{ id := id, die := d.val, cslot := fld (c.w 0) 0 16, name := d.val * 4096 + fld (c.w 0) 16 12,
             cnt := fld (c.w 0) 28 16, ent := w.ent (d.val * 4096 + fld (c.w 0) 16 12), waits := waits }] }) s))

/-! ### Re-sharding (R318, R319) -/

/-- Whether R5 refuses a CCOMMIT (R318). -/
def ccommitReserved (s : State) (client : Nat) (c : PCmd) : Bool :=
  let t := shareOf s client
  let slot := fld (c.w 0) 0 16
  let en := t.slot slot
  let pos := fld (c.w 0) 16 12
  decide (t.nslot ≤ slot) || decide (en.kind ≠ 3) || decide (pos < 3) || decide (en.positions ≤ pos) ||
    decide (fld (c.w 1) 0 32 < en.stop + 2)

/-- CCOMMIT (R318): its readiness record waits for its slot; a refused one also raises COMMIT_BAD. -/
def execCcommit (d : DieId) (c : PCmd) (s : State) : Host.Outcome State Fault Refusal :=
  .next (withIssue none (.coll d) c s fun s _ id =>
    let client := clientOn s d.val
    if ccommitReserved s client c then
      collFault d.val client 9 ((getClient s client).job % 65536) 0 (refuse id s)
    else updStep client (fun st => { st with commits := st.commits ++
      [{ id := id, die := d.val, cslot := fld (c.w 0) 0 16, pos := fld (c.w 0) 16 12, ctick := fld (c.w 1) 0 32 }] }) s)

/-- Abandoning a re-shard: the staged writes are discarded and the commands complete (R319). -/
def abandonReshard (c : Nat) (ids : List Nat) (s : State) : State :=
  let s1 := (List.finRange 4).foldl (fun s d => discardStaged d c s) s
  let s2 := post 0x0503 c c (bumpDict (dkey 0x5100 0x0D) 1 s1)
  ids.foldl (fun s i => complete i s)
    (updStep c (fun st => { st with commits := st.commits.filter fun j => !ids.contains j.id }) s2)

/-- RESHARD_DECIDE (R319): the combined readiness record of a control slot decides its commits. -/
def execReshardDecide (c : ClientId) (slot : Nat) (s : State) : Host.Outcome State Fault Refusal :=
  .next (match (getClient s c.val).step with
    | none => s
    | some st =>
      let ctl := mget {} st.ctl slot
      let mine := st.commits.filter fun j => decide (j.cslot = slot) && j.decided.isNone
      match mine with
      | [] => s
      | j :: _ =>
        if ¬ ctl.down then s
        else
          let notReady := (nth 0 (mget [] ctl.recs j.pos) 0).testBit 0
          let abort := (nth 0 (mget [] ctl.recs 0) 0).testBit 0
          if notReady ∨ abort then abandonReshard c.val (mine.map (·.id)) s
          else
            let tick := stepBase s c.val + j.ctick
            let s1 := (List.finRange 4).foldl (fun s d =>
              let (late, s') := queueCommit d c.val tick s
              if late then setBit (collBlk d.val 0) 10 s' else s') s
            updStep c.val (fun st => { st with commits := st.commits.map fun x =>
              if x.cslot = slot then { x with decided := some true } else x }) s1)

/-! ### Arrivals (R300, R303, R310) -/

/-- COLL_TRANSFER_ARRIVE (R303): shape is what the header does not carry: the elements of a row for DIRECT, the wide blocks
reserved for the ring kinds. -/
def execCollTransferArrive (d : DieId) (shape : Nat) (data : List Byte) (s : State) : Host.Outcome State Fault Refusal :=
  .next (pumpSends (takeXfer d shape data s))

/-- SPILL_PACKET (R310). -/
def execSpillPacket (d : DieId) (data : List Byte) (s : State) : Host.Outcome State Fault Refusal :=
  .next (if (xferOf data).spill then pumpSends (takeXfer d 0 data s) else s)

/-- SPILL_TIMEOUT (R310): a context has waited for spilled pieces for longer than the bound. -/
def execSpillTimeout (d : DieId) (ctx : Nat) (s : State) : Host.Outcome State Fault Refusal :=
  let k := ctxKey d.val ctx
  let bound := (getDict s (dkey 0x5100 0x0E)).toNat
  let x := getCtx s k
  .next (if s.fabric.spills.any fun w => decide (w.ctx = k) && decide (bound < s.tick - w.since) then
      collFault d.val x.client 8 x.job (k % 65536)
        { s with fabric := { s.fabric with spills := s.fabric.spills.filter fun w => decide (w.ctx ≠ k) } }
    else s)

/-! ### XBIND and XFREE (R126, R299, R300) -/

/-- XBIND (R126, R299): the register is lent to the context; what was held for it is added. A context that is not armed, or
is bound, or is not a reduce context of the client leaves the register unbound. -/
def execXbind (t : TileId) (w : Word) (u : List Upset) (s : State) : Host.Outcome State Fault Refusal :=
  runInstr 0x76 t w u s fun s =>
    let d := tileDie t
    let k := ctxKey d (fld (iImm w) 0 16)
    let x := getCtx s k
    let r := iVd w % 8
    let v := getVec s t
    if x.state ≠ 1 ∨ ¬ x.reduce ∨ x.bound ∨ x.client ≠ clientOn s d then
      .done (skipInstr t (setVec t { v with skips := r :: v.skips } s))
    else
      let s1 := setVec t { v with bind := mset 0 v.bind r (k + 1) } s
      let w0 := setFld (setFld x.w0 0 3 2) 27 1 1
      let w3 := setFld (setFld x.w3 24 4 (t.val % 16)) 28 3 r
      .done (pumpSends (pumpHeld (Fin.ofNat 4 d) (setCtx k { x with w0 := w0, w3 := w3 } s1)))

/-- XFREE (R126, R300): waits until the context completes, then releases the register. -/
def execXfree (t : TileId) (w : Word) (u : List Upset) (s : State) : Host.Outcome State Fault Refusal :=
  runInstr 0x77 t w u s fun s =>
    let r := iVd w % 8
    let v := getVec s t
    if v.skips.contains r then .done (skipInstr t (setVec t { v with skips := v.skips.erase r } s))
    else
      match mget 0 v.bind r with
      | 0 => .done s
      | k + 1 =>
        let x := getCtx s k
        if x.state ≠ 3 then .wait 0x0D
        else .done (setCtx k { x with w0 := setFld x.w0 27 1 0 } (setVec t { v with bind := mset 0 v.bind r 0 } s))

end Sys2Proof.Machine
end

