-- ==== Sys2Proof/Machine/Governor.lean ====
section
/-! DEFINITION. The formats governor: latching, votes, and the choices at the end of a step (R246 to R263, R265). -/

namespace Sys2Proof.Machine

def layerRInit (s : State) (g l : Nat) : Nat := fld (layerWord s g l 0) 36 2
def layerMtReg (s : State) (g l : Nat) : Nat := fld (layerWord s g l 4) 0 8
def layerMtCnt (s : State) (g l : Nat) : Nat := fld (layerWord s g l 4) 8 3
def layerVtReg (s : State) (g l : Nat) : Nat := fld (layerWord s g l 4) 15 8
def layerVFiles (s : State) (g l : Nat) : Nat := fld (layerWord s g l 4) 23 16
def layerVDie (s : State) (g l : Nat) : Bool := bit (layerWord s g l 4) 39

/-- Fields of a tensor record (R248). -/
def tDie (r : Word) : Nat := fld r 0 2
def tSlot (r : Word) : Nat := fld r 2 10
def tIdx (r : Word) : Nat := fld r 12 2
def tHp (r : Word) : Nat := fld r 16 12
def tHq (r : Word) : Nat := fld r 28 12
def tHv (r : Word) : Nat := fld r 40 12

/-! ### The latch (R254) -/

/-- Latching one tensor record of a layer: its slot's flags and AMAX enter the contribution, the slot is copied to the
record's snapshot and cleared. -/
def latchTensor (c g d : Nat) (n : Nat) (r : Word) (acc : Vote × State) : Vote × State :=
  let (v, s) := acc
  let slot := tSlot r
  let fa := govBlk d slot
  let flags := fld (getReg s fa) 8 4
  let am := fld (getReg s (statBlk d slot 8)) 0 32
  let i := tIdx r
  let v1 := { v with flags := v.flags ||| flags, amax := setNth v.amax i (max (nth 0 v.amax i) am) }
  let s1 := writeBuf c (getEnt s g) (g / 4096) (govSnOff s g + 592 * n) (slotBytesOf s d slot) s
  (v1, setReg fa (setFld (getReg s1 fa) 8 4 0) (clearSlot d slot s1))

/-- GOV_LATCH (R254): the layer's register has reached its count on a die, which latches its part once in a step. -/
def execGovLatch (c : ClientId) (d : DieId) (layer : Nat) (s : State) : Host.Outcome State Fault Refusal :=
  .next (match (getClient s c.val).step, govOf s c.val with
    | some st, some g =>
      let v := mget {} st.votes layer
      let reg := layerMtReg s g layer
      let cnt := layerMtCnt s g layer
      let have0 := tokens s d.val 16 reg
      if govNL s g ≤ layer ∨ st.aborted ∨ ¬ (layerMDies s g layer).testBit d.val ∨ v.dies.testBit d.val ∨ have0 < cnt then s
      else
        let s1 := setTok d.val 16 reg (have0 - cnt) s
        let mine := (layerTensors s1 g layer).filter fun r => decide (tDie r.2 = d.val)
        let (v1, s2) := mine.foldl (fun a r => latchTensor c.val g d.val r.1 r.2 a) (v, s1)
        updStep c.val (fun st => { st with votes := mset {} st.votes layer { v1 with dies := v1.dies ||| 2 ^ d.val } }) s2
    | _, _ => s)

/-! ### Votes (R256) -/

/-- window of R256. -/
def govWindow (amax : Nat) (elem : Elem) (head old : Nat) : Nat :=
  if amax = 0 then old
  else
    let e : Int := if amax = 0x7F800000 then 128 else ilog2 (f32 (BitVec.ofNat 32 amax)).toRat
    (min 207 (max 0 (e - elemEmax elem + 127 + (head : Int) - 47))).toNat

/-- The element format of a rung. -/
def rungElem (s : State) (g l j : Nat) : Elem := (elemOf (layerRung s g l j)).getD .fp32

/-- W_LO of a handle's format. -/
def Entry.wlo8 (e : Entry) : Nat := e.fmtWord / 256 % 256

/-- A Catalog write record that leaves an entry. -/
def fullRec (h : Nat) (stage : Bool) (e : Entry) : CatRec :=
  { ctl := BitVec.ofNat 64 (h % 4096 + 4096 * b2n stage), w := [e.w0, e.w1, e.w2, e.w3, e.w4, e.w5, e.w6, e.w7] }

/-- A governor fault: FAULT in the die's PLATE_STATUS with FCODE 0, its count, and the abort of the step (R263). -/
def govFault (c d ltag h code : Nat) (s : State) : State :=
  let a := diePlt d 0x400
  let s1 := setReg a (setFld (setFld (getReg s a) 0 1 1) 1 3 0) s
  raiseFault c 0x0308 (ltag + 2 ^ 16 * h + 2 ^ 28 * code) (bumpDict (dkey 0x6000 0x0A) 1 s1)

/-- A Catalog write of the governor, on the client's path; once one has been refused, no more are made (R256, R263). -/
def govWrite (c d ltag : Nat) (r : CatRec) (acc : Bool × State) : Bool × State :=
  let (ok, s) := acc
  if ¬ ok then (ok, s)
  else match catWrite (some c) (Fin.ofNat 4 d) r s with
    | (.refused k, s1) => (false, govFault c d ltag r.handle k s1)
    | (_, s1) => (true, s1)

/-- Rewriting Q and V for a vote that carried (R256). -/
def voteTensor (c g l : Nat) (amax : List Nat) (r : Word) (acc : Bool × State) : Bool × State :=
  let s := acc.2
  let d := tDie r
  let tag := layerTag s g l
  let q := getEnt s (d * 4096 + tHq r)
  let rung := fld (layerState s g l 0) 0 2
  let w := govWindow (nth 0 amax (tIdx r)) (rungElem s g l (rung + 1)) (layerHead s g l) q.wlo8
  let a1 := govWrite c d tag (fullRec (tHq r) false { q with w0 := setFld q.w0 16 8 w }) acc
  govWrite c d tag (fullRec (tHv r) false (getEnt a1.2 (d * 4096 + tHq r))) a1

/-- Posting a layer's vote tokens (R256): the engine field of a Registrar's post is the die's collective engine. -/
def voteTokens (c g l : Nat) (s : State) : State :=
  let reg := layerVtReg s g l
  let files := (List.range 16).filter (fun t => (layerVFiles s g l).testBit t) ++ (if layerVDie s g l then [16] else [])
  ((List.finRange 4).filter fun d => (layerMDies s g l).testBit d.val).foldl (fun s d =>
    files.foldl (fun s f => postTok (.coll d) c f reg 1 s) s) s

/-- VOTE_SETTLE (R256, R262): the combined record of the layer's position has come down its control slot. -/
def execVoteSettle (c : ClientId) (layer : Nat) (s : State) : Host.Outcome State Fault Refusal :=
  .next (match (getClient s c.val).step, govOf s c.val with
    | some st, some g =>
      let ctl := mget {} st.ctl (layerVSlot s g layer)
      let w0 := layerState s g layer 0
      if govNL s g ≤ layer ∨ ¬ ctl.down ∨ bit w0 2 ∨ st.aborted then s
      else
        let rcd := mget [] ctl.recs (layerVPos s g layer)
        let flags := nth 0 rcd 0 % 16
        let amax := (List.range 4).map fun i => nth 0 rcd (1 + i)
        let misfit := decide (flags % 4 ≠ 0)
        let vote := govEnable s && layerEnable s g layer && misfit && decide (fld w0 0 2 < layerTop s g layer)
        let s1 := setLayerState c.val g layer 2 (BitVec.ofNat 64 (nth 0 amax 0 + 2 ^ 32 * nth 0 amax 1)) s
        let s2 := setLayerState c.val g layer 3 (BitVec.ofNat 64 (nth 0 amax 2 + 2 ^ 32 * nth 0 amax 3)) s1
        let s3 := setLayerState c.val g layer 0 (setFld w0 8 4 flags) s2
        let (ok, s4) := if vote then
            (layerTensors s3 g layer).foldl (fun a r => voteTensor c.val g layer amax r.2 a) (true, s3)
          else (true, s3)
        let s5 := bumpDict (dkey 0x6000 0x03) 1 s4
        let s6 := if vote then setScope c.val scWidened (bumpDict (dkey 0x6000 0x04) 1 s5)
          else if misfit then bumpDict (dkey 0x6000 0x06) 1 s5 else s5
        let s7 := if flags.testBit 0 ∧ ¬ vote then setScope c.val scViolation s6 else s6
        if ¬ ok then s7
        else
          let v := setFld (setFld (layerState s7 g layer 0) 2 1 1) 3 1 (b2n vote)
          voteTokens c.val g layer (setLayerState c.val g layer 0 v s7)
    | _, _ => s)

/-! ### The end of a step (R260, R261) -/

/-- The Catalog with a client's staged writes applied. -/
def stagedEnt (s : State) (c name : Nat) : Entry :=
  mget {} (applyStaged s.cat.ents (s.cat.staging.filter fun x => decide (x.owner = c))) name

/-- Staging the formats of one tensor record (R260). -/
def stageTensor (c g l rung q : Nat) (amax : List Nat) (r : Word) (acc : Bool × List Nat × State) :
    Bool × List Nat × State :=
  let (ok, wlo, s) := acc
  let d := tDie r
  let i := tIdx r
  let tag := layerTag s g l
  let head := layerHead s g l
  let w := govWindow (nth 0 amax i) (rungElem s g l rung) head (nth 0 wlo i)
  let p := stagedEnt s c (d * 4096 + tHp r)
  let p1 := { p with w0 := setFld (setFld p.w0 8 4 (layerRung s g l rung)) 16 8 w }
  let a1 := govWrite c d tag (fullRec (tHp r) true p1) (ok, s)
  let e := stagedEnt a1.2 c (d * 4096 + tHq r)
  let wq := govWindow (nth 0 amax i) (rungElem s g l q) head e.wlo8
  let q1 := { e with w0 := setFld (setFld e.w0 8 4 (layerRung s g l q)) 16 8 wq }
  let a2 := govWrite c d tag (fullRec (tHq r) true q1) a1
  let a3 := govWrite c d tag (fullRec (tHv r) true (stagedEnt a2.2 c (d * 4096 + tHp r))) a2
  (a3.1, setNth wlo i w, a3.2)

/-- Dropping a line of plate words from every instruction cache (R260). -/
def uncacheLine (a : Nat) (s : State) : State :=
  let drop (x : Caches) : Caches :=
    { x with lines := mdel x.lines (a / 64),
             order := (x.order.map (fun o => (o.1, o.2.filter (fun k => decide (k ≠ a / 64))))).filter (fun o => !o.2.isEmpty) }
  { s with plates := { s.plates with
      caches := (s.plates.caches.map (fun c => (c.1, drop c.2))).filter (fun c => decide (c.2 ≠ {})) } }

/-- Moving the anchor of one patched PASS (R249, R260). -/
def patchAnchor (c : Nat) (shift : Int) (s : State) (x : Word) : State :=
  let a := fld x 0 44
  let v := min 80 (max (-320) (toSigned 10 (fld x 44 10) + shift))
  let w := (peekWord s (a / 8)).val
  uncacheLine a (writeMem c a (leBytes 8 (setFld w 0 10 (ofSigned 10 v)).toNat) s)

/-- One layer of the end-of-step procedure (R260); false once a staged write has been refused. -/
def endLayer (c g l : Nat) (acc : Bool × State) : Bool × State :=
  let (ok, s) := acc
  if ¬ ok ∨ ¬ layerEnable s g l then acc
  else
    let w0 := layerState s g l 0
    let w1 := layerState s g l 1
    let rung := fld w0 0 2
    let flags := fld w0 8 4
    let amax := [fld (layerState s g l 2) 0 32, fld (layerState s g l 2) 32 32, fld (layerState s g l 3) 0 32,
                 fld (layerState s g l 3) 32 32]
    let run := min (fld w0 16 16 + 1) 65535
    let down := layerNarrowOk s g l && decide (0 < rung) && decide (layerClean s g l ≤ run)
    let (r, clean) := if bit w0 3 then (rung + 1, 0)
      else if flags % 4 ≠ 0 then (rung, 0)
      else if down then (rung - 1, 0) else (rung, run)
    let q := min (r + 1) (layerTop s g l)
    let wlo0 := (List.range 4).map fun i => fld w1 (8 * i) 8
    let (ok1, wlo, s1) := (layerTensors s g l).foldl (fun a t => stageTensor c g l r q amax t.2 a) (true, wlo0, s)
    let sh := toSigned 8 (fld w0 32 8)
    let under := flags.testBit 2
    let wsat := flags.testBit 3
    let st : Int := layerAStep s g l
    let sh1 := if under && !wsat then max (sh - st) (-128) else if wsat && !under then min (sh + st) 127 else sh
    let v0 := setFld (setFld (setFld w0 0 2 r) 16 16 clean) 32 8 (ofSigned 8 sh1)
    let v1 := (List.range 4).foldl (fun w i => setFld w (8 * i) 8 (nth 0 wlo i)) w1
    let s2 := setLayerState c g l 1 v1 (setLayerState c g l 0 v0 s1)
    let s3 := if decide (flags % 4 = 0) && !bit w0 3 && down then bumpDict (dkey 0x6000 0x05) 1 s2 else s2
    let s4 := if sh1 ≠ sh then bumpDict (dkey 0x6000 0x08) 1 s3 else s3
    (ok1, (layerPatches s4 g l).foldl (patchAnchor c sh1) s4)

/-- GOV_END_OF_STEP (R260): with every layer's vote settled, the choices for the next step are staged, and their commit set
for that step's first tick. How long the procedure took is open (log 4). -/
def execGovEndOfStep (c : ClientId) (s : State) : Host.Outcome State Fault Refusal :=
  .next (match (getClient s c.val).step, govOf s c.val with
    | some st, some g =>
      let n := govNL s g
      if st.govDone ∨ st.aborted ∨ (List.range n).any (fun l => !bit (layerState s g l 0) 2) then s
      else
        let (ok, s1) := if govEnable s then (List.range n).foldl (fun a l => endLayer c.val g l a) (true, s) else (true, s)
        let (x, s2) := fresh s1
        let k := dkey 0x6000 0x09
        let s3 := setDict k (BitVec.ofNat 64 (max (getDict s2 k).toNat (fld x 0 32))) s2
        if ¬ ok then s3
        else
          let tick := stepBase s c.val + (shareOf s c.val).stepLen
          let s4 := (List.finRange 4).foldl (fun s d => (queueCommit d c.val tick s).2) s3
          updStep c.val (fun st => { st with govDone := true }) s4
    | _, _ => s)

/-- Clearing RESOLVED and VOTE of every layer at a step's first tick (R260). -/
def clearVotes (c : Nat) (s : State) : State :=
  match govOf s c with
  | none => s
  | some g => (List.range (govNL s g)).foldl (fun s l =>
      let w := layerState s g l 0
      if bit w 2 || bit w 3 then setLayerState c g l 0 (setFld w 2 2 0) s else s) s

/-- Whether a governed slot's VIOL has been set since its latch (R262). -/
def lateViol (s : State) (c : Nat) : Bool :=
  match govOf s c with
  | none => false
  | some g => (List.range (govNL s g)).any fun l =>
      (layerTensors s g l).any fun r => bit (getReg s (govBlk (tDie r.2) (tSlot r.2))) 8

end Sys2Proof.Machine
end

