-- ==== Sys2Proof/Machine/Timetable.lean ====
section
/-! DEFINITION. The timetable at work: slots, control records, late slots, stretches (R255, R280, R285 to R291, R321, R356, R382). -/

namespace Sys2Proof.Machine

/-! ### Boundaries (R280) -/

/-- The fabric tick of the boundary before a plan tick of a run. -/
def boundaryTick (r : Run) (b : Nat) : Nat :=
  r.start + b + r.out + ((r.stretches.filter fun x => decide (x.1 ≤ b)).map (·.2)).sum

/-- The end of a slot's window, in plan ticks of the run, and the fabric ticks that remain to it. -/
def slotEnd (s : State) (c slot : Nat) : Nat := stepBase s c + ((shareOf s c).slot slot).stop

/-- Fabric ticks that remain to a plan boundary; 0 where it has passed or no run is in progress. -/
def remaining (s : State) (c b : Nat) : Nat :=
  match (getClient s c).run with
  | some r => boundaryTick r b - s.tick
  | none => 0

/-- Whether a slot is an entry of the client's share. -/
def isSlot (s : State) (c slot : Nat) : Bool := decide (slot < (shareOf s c).nslot)

/-- Whether the slot's window has begun: the client has a step in progress that has reached START. -/
def slotBegun (s : State) (c slot : Nat) : Bool :=
  (getClient s c).step.isSome && ((getClient s c).run.map (runBegun s)).getD false && isSlot s c slot &&
    decide (((shareOf s c).slot slot).start ≤ stepTick s c)

/-- Whether a slot of the client's step is marked in a list. -/
def inStep (s : State) (c : Nat) (p : StepSt → Bool) : Bool := ((getClient s c).step.map p).getD false

/-- Whether the module's tick is unlocked, so that it opens no slot (R277). -/
def unlocked (s : State) : Bool := decide ((getDict s (dkey 0x5000 0x08)).toNat = 2)

/-- Whether another slot's transfer keeps the port of a send or forward slot (R289). -/
def portKept (s : State) (c slot : Nat) : Bool :=
  let t := shareOf s c
  let e := t.slot slot
  inStep s c fun st => st.opened.any fun i =>
    decide (i ≠ slot) && !st.doneTx.contains i && decide ((t.slot i).kind = 0 ∨ (t.slot i).kind = 2) &&
      decide ((t.slot i).port = e.port)

/-! ### Control records (R285 to R287) -/

/-- A control slot's state. -/
def getCtl (s : State) (c slot : Nat) : Ctl := ((getClient s c).step.map fun st => mget {} st.ctl slot).getD {}

/-- Storing a control slot's state. -/
def setCtl (c slot : Nat) (x : Ctl) (s : State) : State :=
  updStep c (fun st => { st with ctl := mset {} st.ctl slot x }) s

/-- Combining two records: field 0 by OR, fields 1 to 5 by maximum (R285). -/
def combine (a b : List Nat) : List Nat :=
  (List.range 6).map fun i => if i = 0 then nth 0 a 0 ||| nth 0 b 0 else max (nth 0 a i) (nth 0 b i)

/-- Adding a record at a position; a zero record is none. -/
def addRec (pos : Nat) (r : List Nat) (m : SMap (List Nat)) : SMap (List Nat) :=
  if r.all fun x => x = 0 then m else mset [] m pos (combine (mget [] m pos) r)

/-- Combining records position by position. -/
def mergeRecs (a b : SMap (List Nat)) : SMap (List Nat) := b.foldl (fun m x => addRec x.1 x.2 m) a

/-- The records that words spell, three words to a position (R285). -/
def recsOfWords (n : Nat) (ws : List Word) : SMap (List Nat) :=
  (List.range n).foldl (fun m i =>
    addRec i ((List.range 6).map fun k => fld (nth 0 ws (3 * i + k / 2)) (32 * (k % 2)) 32) m) []

/-- Whether a slot is the closing slot of the client's share. -/
def isClosing (s : State) (c slot : Nat) : Bool := decide ((shareOf s c).closing = some slot)

/-- Whether PERMUTE copies of a client are under way: sends not complete, or place contexts not complete (R319). -/
def permuting (s : State) (c : Nat) : Bool :=
  (s.plates.flights.any fun f => decide (f.client = c) && (match f.eng with | .coll _ => true | _ => false) &&
    decide (f.win.cmd.opc = 2) && decide (csCop f.win.cmd = 8)) ||
  s.fabric.ctxs.any fun x => decide (x.2.client = c) && decide (x.2.kind = 2) && decide (x.2.state = 1)

/-- Layers of the governor table whose vote travels in a control slot (R255). -/
def slotLayers (s : State) (c slot : Nat) : List (Nat × Nat) :=
  match govOf s c with
  | none => []
  | some g => ((List.range (govNL s g)).filter fun l => decide (layerVSlot s g l = slot)).map fun l => (g, l)

/-- Whether the module's part of a layer's vote is complete (R254). -/
def voteDone (s : State) (st : StepSt) (x : Nat × Nat) : Bool :=
  decide ((mget {} st.votes x.2).dies = layerMDies s x.1 x.2)

/-- Whether a gate's contexts have completed (R313). -/
def gateDone (s : State) (g : GateSt) : Bool :=
  !(g.waits.any fun k => decide ((getCtx s k).state = 1 ∨ (getCtx s k).state = 2))

/-- Whether the module holds its records of a control slot back (R286, R287, R255, R313, R319); an aborted step does not
wait (R230). -/
def heldBack (s : State) (c slot : Nat) (st : StepSt) : Bool :=
  !st.aborted &&
  ((isClosing s c slot && !platesDone s c) || (slotLayers s c slot).any (fun x => !voteDone s st x) ||
   st.gates.any (fun g => decide (g.cslot = slot) && !gateDone s g) ||
   (st.commits.any (fun j => decide (j.cslot = slot)) && permuting s c))

/-- The partition status record (R286, R313). -/
def statusRec (st : StepSt) : List Nat :=
  [b2n st.aborted + 2 * b2n st.skip, if st.aborted then 4096 - st.forigin % 4096 else 0,
   if st.aborted then st.fcode else 0, 0, 0, 0]

/-- The mapping record, with the switched-out ticks and the debt (R321, R356). -/
def mappingRec (s : State) (c : Nat) (st : StepSt) : List Nat :=
  let m := (getDict s (dkey 0x5101 c)).toNat
  let late := ((List.range 4).filter (hasDie (getClient s c))).any fun d => bit (getReg s (collBlk d 0)) 10
  [0, if late then 0xFFFFFFFF else m, 0xFFFFFFFF - m, st.out, 0xFFFFFFFF - st.out, s.rot.carry]

/-- The restore record (R382). -/
def restoreRec (s : State) (c : Nat) : List Nat :=
  let m := (getDict s (dkey 0x9004 c)).toNat
  [0, m, 0xFFFFFFFF - m, 0, 0, 0]

/-- The module's own records of a control slot: those that are ready. -/
def ownRecs (s : State) (c slot : Nat) (st : StepSt) : SMap (List Nat) :=
  let r0 := addRec 0 (statusRec st) []
  let r1 := if isClosing s c slot then addRec 2 (restoreRec s c) (addRec 1 (mappingRec s c st) r0) else r0
  let r2 := ((slotLayers s c slot).filter (voteDone s st)).foldl (fun m x =>
    let v := mget {} st.votes x.2
    addRec (layerVPos s x.1 x.2) ([v.flags] ++ v.amax ++ [0]) m) r1
  (st.commits.filter fun j => decide (j.cslot = slot) && !permuting s c).foldl (fun m j =>
    addRec j.pos [b2n st.notReady, 0, 0, 0, 0, 0] m) r2

/-- The children of the module in the control tree. -/
def childPorts (s : State) (c : Nat) : List Nat := (List.range 32).filter fun p => (shareOf s c).cchild.testBit p

/-- Sending a control-records message to ports (R285); its layout is open (log 4). -/
def sendRecs (mtype : Nat) (ps : List Nat) (s : State) : State :=
  ps.foldl (fun s p =>
    let (m, s1) := openMsg mtype s
    sendCtl (portFor s p) m s1) s

/-- Adding the module's own records to a control slot that is open, once nothing holds them back; with every child heard,
the records go up (R285, R287). -/
def tryUp (c slot : Nat) (s : State) : State :=
  match (getClient s c).step with
  | none => s
  | some st =>
    let x := mget {} st.ctl slot
    let x1 := if !x.own && st.opened.contains slot && !heldBack s c slot st then
        { x with own := true, recs := mergeRecs x.recs (ownRecs s c slot st) } else x
    if x1.own && !x1.up && decide ((childPorts s c).length ≤ x1.kids) then
      let s1 := setCtl c slot { x1 with up := true } s
      let p := (shareOf s c).cparent
      if p = 63 then s1 else sendRecs 0x04 [p] s1
    else setCtl c slot x1 s

/-! ### Stretches (R289 to R291) -/

/-- The words of a STRETCH message (R289). -/
def stretchMsg (origin client e k step slot : Nat) : Word × Word :=
  (BitVec.ofNat 64 (0x03 + 2 ^ 8 * (origin % 4096) + 2 ^ 20 * (client % 16) + 2 ^ 24 * (e % 2 ^ 32) + 2 ^ 56 * (k % 256)),
   BitVec.ofNat 64 (step % 2 ^ 32 + 2 ^ 32 * (slot % 65536)))

/-- Changing a client's run in progress. -/
def updRun (c : Nat) (f : Run → Run) (s : State) : State :=
  match (getClient s c).run with
  | some r => setClient c { getClient s c with run := some (f r) } s
  | none => s

/-- A fabric-desync, stretch-limit or link-down fault: counted, and the client's step aborted (R229, R294). -/
def fabricFault (c code detail : Nat) (s : State) : State :=
  raiseFault c code detail (bumpDict (dkey 0x5000 0x16) 1 s)

/-- Counting a stretch toward the step's ticks and its limit; after the abort it counts no more (R230, R291). -/
def countStretch (c k : Nat) (s : State) : State :=
  match (getClient s c).step with
  | none => s
  | some st =>
    if st.aborted then s
    else
      let n := st.stretch + k
      let s1 := updStep c (fun st => { st with stretch := n }) s
      if (shareOf s c).limit < n then fabricFault c 0x0406 (n % 2 ^ 32) s1 else s1

/-- A stretch at this module: flooded once, then put in before its boundary; one that comes too late is a desync
(R289, R290, R291). -/
def applyStretch (c origin step e k slot : Nat) (but : Option Nat) (s : State) : State :=
  match (getClient s c).run with
  | none => s
  | some r =>
    let me := (origin, step % 2 ^ 32, e % 2 ^ 32)
    if r.seen.contains me then s
    else
      let s1 := flood c but (stretchMsg origin c e k step slot) (updRun c (fun r => { r with seen := r.seen ++ [me] }) s)
      if r.stretches.any fun x => decide (x.1 = e) then s1
      else if boundaryTick r e ≤ s.tick then fabricFault c 0x0405 1 s1
      else
        let s2 := updRun c (fun r => { r with stretches := insStretch (e, k) r.stretches }) s1
        let s3 := bumpDict (dkey 0x5000 0x14) 1 (bumpDict (dkey 0x5000 0x15) k s2)
        countStretch c k (bumpLedger c 0x17 k s3)

/-- Whether the client's step is aborted, and the index of its step in progress, or else of the last one. -/
def lateStep (s : State) (c : Nat) (r : Run) : Bool × Nat :=
  match (getClient s c).step with
  | some st => (st.aborted, st.idx)
  | none => (false, r.idx - 1)

/-- A late slot: its event, its counts, its port's LATE bit, and the stretch that it announces; none in an aborted step
(R230, R288, R289). -/
def lateSlot (c slot cause e : Nat) (port : Option Nat) (s : State) : State :=
  match (getClient s c).run with
  | none => s
  | some r =>
    let (ab, idx) := lateStep s c r
    if ab then s
    else
      let s1 := bumpDict (dkey 0x5000 0x13) 1 (post 0x0401 c (slot + 2 ^ 16 * cause + 2 ^ 20 * moduleId s) s)
      let s2 := match port with
        | some p => setBit (portStatus (portFor s p)) 23 s1
        | none => s1
      applyStretch c (moduleId s) idx e (shareOf s c).quantum slot none s2

/-- A plan tick from its low 32 bits: the one nearest the client's plan tick. -/
def fullTick (now low : Nat) : Nat :=
  let b := now / 2 ^ 32 * 2 ^ 32 + low
  if b + 2 ^ 31 ≤ now then b + 2 ^ 32 else if now + 2 ^ 31 < b then b - 2 ^ 32 else b

/-- STRETCH (R290): a received message. -/
def execStretch (p : PortId) (w0 w1 : Word) (s : State) : Host.Outcome State Fault Refusal :=
  let c := fld w0 20 4
  .next (applyStretch c (fld w0 8 12) (fld w1 0 32) (fullTick (planTick s c) (fld w0 24 32)) (fld w0 56 8) (fld w1 32 16)
    (some p.val) s)

/-! ### Slots (R283, R286 to R289) -/

/-- SLOT_OPEN (R283, R287): the window opens. A control slot takes the module's records; a slot that waits for its port, or
whose port has failed, or that an unlocked module meets, does not open. -/
def execSlotOpen (c : ClientId) (slot : Nat) (s : State) : Host.Outcome State Fault Refusal :=
  let e := (shareOf s c.val).slot slot
  let ports := if e.kind = 3 then [] else if e.kind = 2 then [e.port, e.inport] else [e.port]
  .next (if ¬ slotBegun s c.val slot ∨ inStep s c.val (fun st => st.opened.contains slot) ∨ unlocked s ∨
      (ports.any fun p => portState s (portFor s p) = 4) ∨ ((e.kind = 0 ∨ e.kind = 2) ∧ portKept s c.val slot) then s
    else
      let s1 := updStep c.val (fun st => { st with opened := st.opened ++ [slot] }) s
      pumpSends (if e.kind = 3 then tryUp c.val slot s1 else s1))

/-- Flits of a send slot's transfer that have not left (R288). -/
def unsentFlits (s : State) (c slot : Nat) : Nat :=
  let e := (shareOf s c).slot slot
  if inStep s c fun st => st.doneTx.contains slot then 0
  else
    let made := ((s.fabric.tx.filter fun x => decide (x.slot = slot) && decide (x.client = c)).map (·.made)).sum
    let waiting := (getPort s (portFor s e.port)).tt.countP fun f => decide (f.slot = slot) && decide (f.client = c)
    e.flits - (made - waiting)

/-- Whether a flit of a slot's transfer is in recovery (R273, R288). -/
def inRecovery (s : State) (c slot : Nat) : Bool :=
  let p := portFor s ((shareOf s c).slot slot).port
  decide (portState s p = 3) && ((getPort s p).replay ++ (getPort s p).again).any fun f =>
    decide (f.ftype = 1) && decide (f.slot = slot) && decide (f.client = c)

/-- SLOT_CHECKPOINT (R288): at LEAD ticks before the window's end, or at its start where that is later. -/
def execSlotCheckpoint (c : ClientId) (slot : Nat) (s : State) : Host.Outcome State Fault Refusal :=
  let t := shareOf s c.val
  let e := t.slot slot
  let fin := slotEnd s c.val slot
  let left := remaining s c.val fin
  .next (if ¬ slotBegun s c.val slot ∨ t.lead < left ∨ left = 0 then s
    else if e.kind = 0 then
      if 412 * (left - 2) < unsentFlits s c.val slot then lateSlot c.val slot 0 fin (some e.port) s
      else if inRecovery s c.val slot then lateSlot c.val slot 1 fin (some e.port) s else s
    else if e.kind = 3 then
      if (getCtl s c.val slot).own then s else lateSlot c.val slot 3 fin none s
    else s)

/-- What the end of the closing slot brings: complete contexts are freed, and the combined debt is to be deducted from the
client's next slice (R301, R358). -/
def closeStep (c slot : Nat) (s : State) : State :=
  let debt := nth 0 (mget [] (getCtl s c slot).recs 1) 5
  let s1 := freeCtxs (fun x => decide (x.state = 3) && decide (x.client = c)) s
  let d := (getClient s1 c).debt + debt
  setClient c { getClient s1 c with debt := d } { s1 with rot := { s1.rot with carry := 0 } }

/-- WINDOW_END (R288, R301): the window ends; a transfer that is still incomplete is late. -/
def execWindowEnd (c : ClientId) (slot : Nat) (s : State) : Host.Outcome State Fault Refusal :=
  let t := shareOf s c.val
  let e := t.slot slot
  .next (if ¬ slotBegun s c.val slot ∨ stepTick s c.val < e.stop ∨ inStep s c.val (fun st => st.ended.contains slot) then s
    else
      let s1 := updStep c.val (fun st => { st with ended := st.ended ++ [slot] }) s
      if e.kind = 3 then (if isClosing s c.val slot then closeStep c.val slot s1 else s1)
      else if inStep s c.val (fun st => st.doneTx.contains slot) then s1
      else lateSlot c.val slot 2 (slotEnd s c.val slot + t.lead) (some e.port) s1)

/-- Whether the next step cannot start in time: the end-of-step procedure or an Archive capture is not done (R261, R377). -/
def boundaryLate (s : State) (c : Nat) : Bool :=
  (inStep s c fun st => !st.aborted && !st.govDone && (govOf s c).isSome) || (getClient s c).arch.due

/-- STEP_BOUNDARY_CHECK (R261, R288, R377): at LEAD ticks before the next step's plan tick 0, a pause for a capture
included. -/
def execStepBoundaryCheck (c : ClientId) (s : State) : Host.Outcome State Fault Refusal :=
  let t := shareOf s c.val
  let cl := getClient s c.val
  .next (match cl.run with
    | none => s
    | some r =>
      let e := (match cl.step with | some st => st.n + 1 | none => r.n) * t.stepLen
      let left := remaining s c.val e + cl.arch.pause
      if left = 0 ∨ t.lead < left ∨ ¬ boundaryLate s c.val then s else lateSlot c.val 0xFFFF 4 e none s)

/-- TRANSFER_RECEIVE_COMPLETE (R283): every flit of a receive slot has been written, or taken by the collective engine. -/
def execTransferReceiveComplete (c : ClientId) (slot : Nat) (s : State) : Host.Outcome State Fault Refusal :=
  let e := (shareOf s c.val).slot slot
  .next (match s.fabric.rx.find? fun x => decide (x.slot = slot) && decide (x.client = c.val) with
    | none => s
    | some x =>
      let held := s.cat.waiters.any fun w => w.remote && decide (w.name = recName x.hdr)
      if e.kind ≠ 1 ∨ x.next < e.flits ∨ (if recKind x.hdr = 1 then ¬ x.taken else held) then s
      else
        let s1 := slotDone c.val slot { s with fabric := { s.fabric with
          rx := s.fabric.rx.filter fun y => !(decide (y.slot = slot) && decide (y.client = c.val)) } }
        let poster : Eng := if e.eng = 0 then .dma (Fin.ofNat 4 e.edie) 0 else if e.eng = 1 then .dma (Fin.ofNat 4 e.edie) 1
          else .coll (Fin.ofNat 4 e.edie)
        let r := e.tokref
        if r = 0 ∨ aborted s c.val then s1 else postTok poster c.val (trefFile r) (trefReg r) (trefCnt r) s1)

/-- REFUSAL_MESSAGE (R180, R283, R303): the sending engine of the slot records the refusal: the collective engine as its
fault; a DMA engine's status has no field for one. Which slot the message names is open (log 4). -/
def execRefusalMessage (w0 w1 : Word) (s : State) : Host.Outcome State Fault Refusal :=
  let slot := (Config.refusalSlot w0 w1).toNat
  let c := (Config.refusalClient w0 w1).toNat
  let e := (shareOf s c).slot slot
  .next (if isSlot s c slot && decide (e.kind = 0) && decide (e.eng = 2) then
      collFault e.edie c 5 ((getClient s c).job % 65536) 0 s
    else s)

/-- CONTROL_RECORDS_UP (R285): a child's records arrive; with none given, the module tries its own again. -/
def execControlRecordsUp (c : ClientId) (slot : Nat) (child : List Word) (s : State) : Host.Outcome State Fault Refusal :=
  let e := (shareOf s c.val).slot slot
  let x := getCtl s c.val slot
  .next (if ¬ isSlot s c.val slot ∨ e.kind ≠ 3 then s
    else if child = [] then tryUp c.val slot s
    else if x.up ∨ (childPorts s c.val).length ≤ x.kids then s
    else tryUp c.val slot
      (setCtl c.val slot { x with kids := x.kids + 1, recs := mergeRecs x.recs (recsOfWords e.positions child) } s))

/-- The checks of the combined records of the closing slot (R321, R356, R382). -/
def closingChecks (c : Nat) (recs : SMap (List Nat)) (s : State) : State :=
  let m := mget [] recs 1
  let t := mget [] recs 2
  let d := ((List.range 4).find? (hasDie (getClient s c))).getD 0
  let s1 := if nth 0 m 1 = 0xFFFFFFFF - nth 0 m 2 then s else collFault d c 6 ((getClient s c).job % 65536) 0 s
  let s2 := if nth 0 m 3 = 0xFFFFFFFF - nth 0 m 4 then s1 else fabricFault c 0x0405 2 s1
  if nth 0 t 1 = 0xFFFFFFFF - nth 0 t 2 then s2 else raiseFault c 0x0504 c s2

/-- An abort read from the partition status record (R230, R286). -/
def abortFrom (c : Nat) (recs : SMap (List Nat)) (s : State) : State :=
  let r := mget [] recs 0
  if (nth 0 r 0).testBit 0 then
    updStep c (fun st => if st.aborted then st
      else { st with aborted := true, fcode := nth 0 r 2, forigin := 4096 - nth 0 r 1 }) s
  else s

/-- CONTROL_RECORDS_DOWN (R285, R286, R313, R321): the combined records go down the tree and are acted on. At the root they
are those that it has combined. -/
def execControlRecordsDown (c : ClientId) (slot : Nat) (recs : List Word) (s : State) : Host.Outcome State Fault Refusal :=
  let t := shareOf s c.val
  let e := t.slot slot
  let x := getCtl s c.val slot
  let root := decide (t.cparent = 63)
  .next (if (getClient s c.val).step.isNone ∨ ¬ isSlot s c.val slot ∨ e.kind ≠ 3 ∨ x.down ∨ (root ∧ ¬ x.up) then s
    else
      let all := if root then x.recs else recsOfWords e.positions recs
      let s1 := sendRecs 0x05 (childPorts s c.val) (setCtl c.val slot { x with recs := all, down := true } s)
      let s2 := settleGates c.val slot (abortFrom c.val all s1)
      if isClosing s c.val slot then closingChecks c.val all s2 else s2)

end Sys2Proof.Machine
end

