-- ==== Sys2Proof/Machine/Fabric.lean ====
section
/-! DEFINITION. Fabric ports: flits, retry, recovery, lane swaps, the tick across modules, best effort (R266 to R279, R283, R284, R292 to R294, R386). -/

namespace Sys2Proof.Machine

/-! ### Flits on the wire (R270) -/

/-- A sequence number. -/
def seqSub (a b : Nat) : Nat := (a + 4096 - b % 4096) % 4096

/-- The 256 bytes of a flit: header, payload, CRC-32; what carries no data is open (log 4). -/
def flitBytes (f : Flit) (resend nak : Bool) (ack pad : Nat) : List Byte :=
  let h := f.ftype + 4 * b2n f.last + 8 * b2n resend + 16 * (f.seq % 4096) + 2 ^ 16 * (ack % 4096) + 2 ^ 28 * b2n nak +
    2 ^ 32 * (f.slot % 65536) + 2 ^ 48 * (f.fidx % 65536) + 2 ^ 64 * (f.data.length % 256) + 2 ^ 72 * (f.client % 16)
  let body := leBytes 10 h ++ f.data ++ (List.range (242 - f.data.length)).map (Config.padByte pad)
  body ++ leBytes 4 (crc32 body).toNat

/-- Reading a flit's header and data. -/
def flitOf (bs : List Byte) : Flit :=
  let h := leNat (bs.take 10)
  { ftype := h % 4, last := h.testBit 2, seq := h / 16 % 4096, slot := h / 2 ^ 32 % 65536, fidx := h / 2 ^ 48 % 65536,
    client := h / 2 ^ 72 % 16, data := (bs.drop 10).take (h / 2 ^ 64 % 256) }

/-- Whether a flit passes its check (R272): its codeword was decoded, and its CRC-32 matches. -/
def flitGood (f : FlitIn) : Bool :=
  !f.bad && decide (f.bytes.length = 256) && decide (leNat (f.bytes.drop 252) = (crc32 (f.bytes.take 252)).toNat)

/-- Putting a flit on the wire of a port, with its acknowledgement (R270, R272). -/
def putWire (p : Nat) (f : Flit) (resend : Bool) (s : State) : State :=
  let x := getPort s p
  let bs := flitBytes f resend x.nak (seqSub x.rxNext 1) s.free
  let s1 := { s with free := s.free + 1 }
  setPort p { x with wire := bs, nak := false, awaiting := x.awaiting || x.nak, since := x.since + 1 } s1

/-- An idle flit; its sequence number is not used, and is open (R270, log 4). -/
def sendIdle (p : Nat) (s : State) : State :=
  let (x, s1) := fresh s
  putWire p { ftype := 0, seq := fld x 0 12 } false s1

/-- Sending a new flit: it takes the next sequence number and enters the replay buffer (R272). -/
def sendNew (p : Nat) (f : Flit) (s : State) : State :=
  let x := getPort s p
  let g := { f with seq := x.seq }
  putWire p g false (setPort p { x with seq := (x.seq + 1) % 4096, replay := x.replay ++ [g] } s)

/-- The bytes of link control messages. -/
def msgBytes (ms : List (Word × Word)) : List Byte := ms.flatMap fun m => leBytes 8 m.1.toNat ++ leBytes 8 m.2.toNat

/-- The new flit that a port sends at a flit boundary: link control, timetabled data, best effort, idle (R271). -/
def sendNext (p : Nat) (s : State) : State :=
  let x := getPort s p
  if 512 ≤ x.replay.length then sendIdle p s
  else if ¬ x.ctl.isEmpty then
    sendNew p { ftype := 3, data := msgBytes (x.ctl.take 15) } (setPort p { x with ctl := x.ctl.drop 15 } s)
  else match x.tt.find? fun f => slotLive s f.client f.slot && !aborted s f.client with
  | some f =>
    let s1 := sendNew p f (setPort p { x with tt := x.tt.erase f } s)
    pumpSends (noteServed (24 + p / 8) f.client 1 (bumpLedger f.client 0x0E f.data.length (bump (portStatus p) 0x20 1 s1)))
  | none =>
    match x.be with
    | f :: l =>
      noteServed (24 + p / 8) f.client 1
        (bumpLedger f.client 0x10 f.data.length (bump (portStatus p) 0x28 1 (sendNew p f (setPort p { x with be := l } s))))
    | [] => sendIdle p s

/-- FLIT_SEND (R270 to R273): a resend first, then what a recovery resends, a marker after every 4,095 flits, and the
highest-priority flit that is ready. -/
def execFlitSend (p : PortId) (s : State) : Host.Outcome State Fault Refusal :=
  let x := getPort s p.val
  .next (if portState s p.val ≠ 2 then s
    else match x.resend.bind fun q => x.replay.find? fun f => decide (f.seq = q) with
    | some f =>
      let s1 := putWire p.val f true (setPort p.val { x with resend := none } s)
      bumpDict (dkey 0x5000 0x10) 1 (bump (portStatus p.val) 0x08 1 s1)
    | none =>
      let x0 := { x with resend := none }
      let s0 := setPort p.val x0 s
      match x0.again with
      | f :: l => putWire p.val f false (setPort p.val { x0 with again := l } s0)
      | [] =>
        if 4095 ≤ x0.since then
          let s1 := sendIdle p.val (setPort p.val { x0 with marks := x0.marks + 1 } s0)
          setPort p.val { getPort s1 p.val with since := 0 } s1
        else sendNext p.val s0)

/-! ### Recovery (R273) -/

/-- Clients whose timetable names a port. -/
def clientsOnPort (s : State) (p : Nat) : List Nat :=
  (List.range 16).filter fun c => decide ((getClient s c).state ≠ 0) && (partitionPorts s c).any fun q => decide (portFor s q = p)

/-- A fault of a port or of the tick: counted once, raised for each client that it aborts, and for none where there is no
such client (R273, R277). -/
def faultAll (cs : List Nat) (code detail : Nat) (s : State) : State :=
  let s1 := bumpDict (dkey 0x5000 0x16) 1 s
  match cs with
  | [] => post code 16 detail s1
  | _ => cs.foldl (fun s c => raiseFault c code detail s) s1

/-- Whether every port to a peer has failed within 1 s (R386). -/
def peerLost (s : State) (m : Nat) : Bool :=
  ((List.range 32).filter fun p => hasPeer s p && decide (peerMod s p = m)).all fun p =>
    decide (portState s p = 4) && decide (s.tick ≤ (getPort s p).failedAt + 1000000)

/-- A port fails: link down, and peer lost where it was the last port to its peer (R273, R386). -/
def failPort (p : Nat) (s : State) : State :=
  let m := peerMod s p
  let s1 := setPortState p 4 (setPort p { getPort s p with failedAt := s.tick, swap := none } s)
  let s2 := faultAll (clientsOnPort s1 p) 0x0404 (p + 2 ^ 5 * m + 2 ^ 17 * peerPort s p) s1
  if peerLost s2 m then post 0x0407 16 m s2 else s2

/-- A port enters recovery; a third recovery within 1 s fails it. -/
def enterRecovery (p : Nat) (s : State) : State :=
  let x := getPort s p
  let recent := x.recovs.filter fun t => decide (s.tick < t + 1000000)
  let s1 := setBit (portStatus p) 24 (setPortState p 3 (setPort p { x with recovs := recent ++ [s.tick] } s))
  let s2 := bumpDict (dkey 0x5000 0x11) 1 (bump (portStatus p) 0x10 1 s1)
  if 2 ≤ recent.length then failPort p s2 else s2

/-- PORT_RECOVERY (R273): a port enters recovery, has retrained and will resend every unacknowledged flit in order, or
fails. -/
def execPortRecovery (p : PortId) (e : RecoveryEv) (s : State) : Host.Outcome State Fault Refusal :=
  let x := getPort s p.val
  let st := portState s p.val
  .next (match e with
    | .enter => if st = 2 then enterRecovery p.val s else s
    | .retrained => if st = 3 then
        setPortState p.val 2 (setPort p.val { x with again := x.replay, resend := none, held := [], nak := false,
                                                      awaiting := false } s)
      else s
    | .failed => if st = 3 then failPort p.val s else s)

/-! ### Receiving (R272, R283, R284, R292) -/

/-- Cutting bytes at the ends of units of u bytes, from place pos on: place in the unit, and bytes. -/
def cutUnits (u : Nat) : Nat → Nat → List Byte → List (Nat × List Byte)
  | 0, _, _ => []
  | fuel + 1, pos, bs =>
    if bs.isEmpty then []
    else
      let n := u - pos % u
      (pos % u, bs.take n) :: cutUnits u fuel (pos + n) (bs.drop n)

/-- One piece of arriving data, as a remote write of the sender's DMA engine; a refusal goes back in a link control message
(R179, R180, R283). The writer's die is not in the record: it is open (log 4). -/
def landPiece (p smod name off : Nat) (bs : List Byte) (s : State) : State :=
  let (die, s0) := fresh s
  let w : Writer := { mod := smod, die := Fin.ofNat 4 die.toNat, eng := 6 }
  let s1 := remoteWrite w name off bs s0
  if bs.length = 0 ∨ windowAdmits s0 (getEnt s0 name) w off bs.length then s1
  else
    let (m, s2) := openMsg 0x07 s1
    sendCtl p m s2

/-- Writing data bytes of a transfer from place pos on (R282, R283). -/
def landData (p : Nat) (h : List Byte) (pos : Nat) (bs : List Byte) (s : State) : State :=
  if recFixed h then
    (cutUnits (recUnit h) bs.length pos bs).foldl (fun s x => landPiece p (recMod h) (recName h) (recOff h + x.1) x.2 s) s
  else landPiece p (recMod h) (recName h) (recOff h + pos) bs s

/-- A timetabled flit in a receive slot (R283). -/
def landFlit (p : Nat) (f : Flit) (s : State) : State :=
  let isIt (x : Rx) : Bool := decide (x.slot = f.slot) && decide (x.client = f.client)
  let x : Rx := (s.fabric.rx.find? isIt).getD { slot := f.slot, client := f.client }
  if x.next ≠ f.fidx then s
  else
    let n := 16 - x.hdr.length
    let hdr := x.hdr ++ f.data.take n
    let bs := f.data.drop n
    let x1 : Rx := { x with next := x.next + 1, hdr := hdr, off := x.off + bs.length,
                            data := if recKind hdr = 1 then x.data ++ bs else x.data }
    let s1 := { s with fabric := { s.fabric with rx := s.fabric.rx.filter (fun y => !isIt y) ++ [x1] } }
    let s2 := bumpLedger f.client 0x0F f.data.length s1
    if recKind hdr = 0 then landData p hdr x.off bs s2 else s2

/-- A timetabled flit in a forward slot: it goes on from the out port (R284). -/
def forwardFlit (out flits : Nat) (f : Flit) (s : State) : State :=
  let isIt (x : Rx) : Bool := decide (x.slot = f.slot) && decide (x.client = f.client)
  let x : Rx := (s.fabric.rx.find? isIt).getD { slot := f.slot, client := f.client }
  if aborted s f.client then s
  else
    let rest := s.fabric.rx.filter fun y => !isIt y
    let s1 := setPort out { getPort s out with tt := (getPort s out).tt ++ [{ f with owner := 0 }] } s
    if x.next + 1 < flits then { s1 with fabric := { s1.fabric with rx := rest ++ [{ x with next := x.next + 1 }] } }
    else slotDone f.client f.slot { s1 with fabric := { s1.fabric with rx := rest } }

/-- A timetabled flit delivered in order: SLOT names the entry of this module's share (DESIGN CHOICE, log 52). -/
def takeTimed (p : Nat) (f : Flit) (s : State) : State :=
  let e := (shareOf s f.client).slot f.slot
  if ¬ isSlot s f.client f.slot then s
  else if e.kind = 1 ∧ portFor s e.port = p then landFlit p f s
  else if e.kind = 2 ∧ portFor s e.inport = p then forwardFlit (portFor s e.port) e.flits f s
  else s

/-- Returning the credits of a packet's flits to the port it came through (R293); the message's layout is open. -/
def returnCredit (b : Option (Nat × Nat)) (s : State) : State :=
  match b with
  | none => s
  | some (p, _) =>
    let (m, s1) := openMsg 0x06 s
    sendCtl p m s1

/-- A packet that has reached its module: a DMA packet is written; what other packets hold comes by their own commands. -/
def landPacket (k : Packet) (s : State) : State :=
  let h := k.bytes.take 16
  let p := (k.inBuf.map (·.1)).getD ((portTo s k.smod).getD 0)
  let s1 := if recKind h = 0 then landData p h 0 (k.bytes.drop 16) s else s
  returnCredit k.inBuf s1

/-- A best-effort flit delivered in order: packets are put together, and delivered or kept to go on (R292). -/
def takePacket (p : Nat) (f : Flit) (s : State) : State :=
  let x := getPort s p
  let vc := f.slot / 4096 % 2
  let part := (if vc = 0 then x.part0 else x.part1) ++ [f]
  let keep := if f.last then [] else part
  let s1 := setPort p (if vc = 0 then { x with part0 := keep } else { x with part1 := keep }) s
  if ¬ f.last then s1
  else
    let bs := part.flatMap (·.data)
    let h := bs.take 16
    let k : Packet := { dmod := f.slot % 4096, smod := if recKind h = 1 then leNat (h.take 8) / 2 ^ 24 % 4096 else recMod h,
                        vc := vc, bytes := bs, client := f.client, inBuf := some (p, vc) }
    if k.dmod = moduleId s then landPacket k s1 else addPacket k s1

/-- A link control message delivered: STRETCH and ABORT act; a reserved MTYPE is discarded with an event whose other fields
are open; the others act by their own commands, since their layouts are not given (R271, R290, R293). -/
def takeMsg (p : PortId) (m : Word × Word) (s : State) : State :=
  let mt := fld m.1 0 8
  if mt = 3 then
    let c := fld m.1 20 4
    applyStretch c (fld m.1 8 12) (fld m.2 0 32) (fullTick (planTick s c) (fld m.1 24 32)) (fld m.1 56 8) (fld m.2 32 16)
      (some p.val) s
  else if mt = 10 then
    match execAbortMessage p m.1 m.2 s with
    | .next t => t
    | _ => s
  else if 1 ≤ mt ∧ mt ≤ 9 then s
  else
    let (x, s1) := fresh s
    post 0x0201 16 (fld x 0 38) s1

/-- Messages of a control flit. -/
def msgsOf : Nat → List Byte → List (Word × Word)
  | 0, _ => []
  | n + 1, bs =>
    if bs.length < 16 then []
    else (BitVec.ofNat 64 (leNat (bs.take 8)), BitVec.ofNat 64 (leNat ((bs.drop 8).take 8))) :: msgsOf n (bs.drop 16)

/-- Delivering one flit of types 1 to 3. -/
def takeFlit (p : PortId) (f : Flit) (s : State) : State :=
  if f.ftype = 1 then takeTimed p.val f s
  else if f.ftype = 2 then takePacket p.val f s
  else (msgsOf 15 f.data).foldl (fun s m => takeMsg p m s) s

/-- Delivering held flits that follow in sequence (R272). -/
def drainHeld (p : PortId) : Nat → State → State
  | 0, s => s
  | n + 1, s =>
    let x := getPort s p.val
    match mget none x.held x.rxNext with
    | none => s
    | some f =>
      drainHeld p n (takeFlit p f
        (setPort p.val { x with held := mset none x.held x.rxNext none, rxNext := (x.rxNext + 1) % 4096 } s))

/-- What a flit's ACK and NAK say: acknowledged flits leave the replay buffer, and a failed one is to be resent (R272). -/
def takeAck (p : Nat) (bs : List Byte) (s : State) : State :=
  let h := leNat (bs.take 10)
  let ack := h / 2 ^ 16 % 4096
  let old (f : Flit) : Bool := decide (seqSub ack f.seq < 2048)
  let x := getPort s p
  let x1 := { x with replay := x.replay.filter (fun f => !old f), again := x.again.filter (fun f => !old f),
                     resend := if h.testBit 28 then some ((ack + 1) % 4096) else x.resend }
  settleSends (setPort p x1 s)

/-- FLIT_RECEIVE (R272): a flit is checked; a good one is delivered in sequence, or held behind a failed one; a failed one
is discarded and NAKed, and a resend that fails puts the port in recovery. -/
def execFlitReceive (p : PortId) (f : FlitIn) (s : State) : Host.Outcome State Fault Refusal :=
  let x := getPort s p.val
  .next (if portState s p.val ≠ 2 then s
    else if ¬ flitGood f then
      if x.awaiting ∧ (leNat (f.bytes.take 10)).testBit 3 then enterRecovery p.val s
      else if x.awaiting then s else setPort p.val { x with nak := true, awaiting := true } s
    else
      let g := flitOf f.bytes
      let s1 := takeAck p.val f.bytes s
      let y := getPort s1 p.val
      let d := seqSub g.seq y.rxNext
      if g.ftype = 0 then s1
      else if d = 0 then
        let s2 := takeFlit p g (setPort p.val { y with rxNext := (y.rxNext + 1) % 4096, nak := false, awaiting := false } s1)
        let s3 := drainHeld p 512 s2
        let z := getPort s3 p.val
        pumpSends (if z.held.isEmpty then s3 else setPort p.val { z with nak := true, awaiting := true } s3)
      else if d ≤ 512 then
        setPort p.val { y with held := mset none y.held g.seq (some g), nak := y.nak || !y.awaiting, awaiting := true } s1
      else s1)

/-! ### Best effort (R268, R269, R292, R293) -/

/-- Direction groups (R268). -/
def dirGroup : Nat → List Nat
  | 0 => [0, 6, 13, 19, 26]
  | 1 => [1, 8, 14, 20, 27]
  | 2 => [2, 9, 15, 21, 28]
  | 3 => [3, 10, 16, 22, 29]
  | 4 => [4, 11, 17, 24, 30]
  | _ => [5, 12, 18, 25, 31]

/-- Ports of a direction of a dimension, in the order of R269: dimension 0 to 2, and whether it is the − direction. -/
def dirPorts (topology dim : Nat) (minus : Bool) : List Nat :=
  let g (k : Nat) : List Nat := dirGroup (2 * k + b2n minus)
  if topology = 0 then g 0 ++ g 1 ++ g 2
  else if topology = 1 then (if dim = 0 then g 0 ++ g 2 else g 1)
  else g dim

/-- The size of a dimension. -/
def dimSize (s : State) (k : Nat) : Nat := max 1 (getDict s (dkey 0x5000 (3 + k))).toNat

/-- A module's coordinate: X varies fastest (DESIGN CHOICE, log 74). -/
def coordOf (s : State) (m k : Nat) : Nat :=
  if k = 0 then m % dimSize s 0
  else if k = 1 then m / dimSize s 0 % dimSize s 1
  else m / (dimSize s 0 * dimSize s 1) % dimSize s 2

/-- The next hop of a packet: its dimension, direction, whether it crosses the wrap link, and the port number (R292). -/
def nextHop (s : State) (k : Packet) : Option (Nat × Bool × Bool × Nat) :=
  let me := moduleId s
  match (List.range 3).find? fun i => decide (coordOf s me i ≠ coordOf s k.dmod i) with
  | none => none
  | some i =>
    let n := dimSize s i
    let a := coordOf s me i
    let d := (coordOf s k.dmod i + n - a) % n
    let minus := decide (n < 2 * d)
    let wrap := if minus then decide (a = 0) else decide (a + 1 = n)
    let ps := dirPorts (getDict s (dkey 0x5000 0x02)).toNat i minus
    some (i, minus, wrap, nth 0 ps ((k.smod + k.dmod) % ps.length))

/-- The flits of a packet (R270, R292). -/
def packetFlits (k : Packet) (vc : Nat) : List Flit :=
  let n := cdiv k.bytes.length 242
  (List.range n).map fun i =>
    { ftype := 2, last := decide (i + 1 = n), slot := k.dmod % 4096 + 4096 * vc, fidx := i, client := k.client,
      data := (k.bytes.drop (242 * i)).take 242, owner := k.owner }

/-- BEST_EFFORT_PACKET (R292, R293): the k-th waiting packet advances a hop through a port, once it holds credits for all
its flits; packets from one source to one destination keep their order. -/
def execBestEffortPacket (p : PortId) (k : Nat) (s : State) : Host.Outcome State Fault Refusal :=
  .next (match s.fabric.packets[k]? with
    | none => s
    | some x =>
      let earlier := (s.fabric.packets.take k).any fun y => decide (y.smod = x.smod) && decide (y.dmod = x.dmod)
      let gone (s : State) : State := { s with fabric := { s.fabric with packets := s.fabric.packets.eraseIdx k } }
      if earlier then s
      else match nextHop s x with
      | none => landPacket x (gone s)
      | some (dim, _, wrap, q) =>
        let out := portFor s q
        let vc := if wrap then 1 else if dim = x.dim then x.vc else 0
        let fs := packetFlits x vc
        let y := getPort s out
        let cred := if vc = 0 then y.cred0 else y.cred1
        if out ≠ p.val ∨ portState s out ≠ 2 ∨ cred < fs.length then s
        else
          let y1 := { y with be := y.be ++ fs }
          let y2 := if vc = 0 then { y1 with cred0 := cred - fs.length } else { y1 with cred1 := cred - fs.length }
          returnCredit x.inBuf (setPort out y2 (gone s)))

/-- CREDIT (R293): credits return to a sending port, at most the 64 KiB of a buffer; the message's layout is open. -/
def execCredit (p : PortId) (w0 w1 : Word) (s : State) : Host.Outcome State Fault Refusal :=
  let n := (Config.creditFlits w0 w1).toNat
  let x := getPort s p.val
  .next (setPort p.val (if Config.creditVc w0 w1 then { x with cred1 := min 256 (x.cred1 + n) }
    else { x with cred0 := min 256 (x.cred0 + n) }) s)

/-! ### Lane swaps (R274) -/

/-- Whether a port has no open slot, in either direction, for the next 3 ticks. -/
def portGap (s : State) (p : Nat) : Bool :=
  (List.range 16).all fun c =>
    decide ((getClient s c).state ≠ 2) || (getClient s c).step.isNone ||
    (shareOf s c).slots.all fun x =>
      let e := x.2
      let uses := decide (e.kind ≠ 3) && (decide (portFor s e.port = p) || (decide (e.kind = 2) && decide (portFor s e.inport = p)))
      let now := stepTick s c
      !uses || decide (now + 3 ≤ e.start) ||
        (decide (e.stop ≤ now) && inStep s c fun st => st.aborted || st.doneTx.contains x.1 || !st.opened.contains x.1)

/-- Performing a lane swap: the worn lane is out of use (R274, R294), and the swap is recorded (R433). -/
def swapLane (p lane : Nat) (s : State) : State :=
  let a := portStatus p
  let s1 := setReg a (setFld (setFld (getReg s a) 3 3 lane) 25 1 0) s
  doneSwap 7 (p / 8) p lane (fld (getReg s a) 3 3)
    (bumpDict (dkey 0x5000 0x12) 1 (setPort p { getPort s1 p with swap := none } s1))

/-- A lane swap that waits, at a tick boundary. -/
def dueSwap (p : Nat) (s : State) : State :=
  match (getPort s p).swap with
  | some l => if portGap s p then swapLane p l s else s
  | none => s

/-- Asking for a lane swap: it is performed at once outside a step or at a gap, else it waits. A port whose spare lane is
in use has none left (R434). -/
def askLane (p : PortId) (lane : Nat) (s : State) : State :=
  if 4 ≤ lane ∨ fld (getReg s (portStatus p.val)) 3 3 ≠ 4 then s
  else dueSwap p.val (setBit (portStatus p.val) 25 (setPort p.val { getPort s p.val with swap := some lane } s))

/-- LANE_SWAP (R274). -/
def execLaneSwap (p : PortId) (lane : Nat) (s : State) : Host.Outcome State Fault Refusal := .next (askLane p lane s)

/-! ### The tick across modules (R276 to R279) -/

/-- Changing the tick state of the fabric. -/
def setTime (f : TimeSt → TimeSt) (s : State) : State := { s with fabric := { s.fabric with time := f s.fabric.time } }

/-- TICK_STATE (R294). -/
def setTickState (n : Nat) (s : State) : State := setDict (dkey 0x5000 0x08) (BitVec.ofNat 64 n) s

/-- Whether the module is a timing root, and one with external references (R276, R279). -/
def isRoot (s : State) : Bool := decide ((getDict s (dkey 0x5000 0x06)).toNat ≠ 0)
def extRoot (s : State) : Bool := isRoot s && decide ((getDict s (dkey 0x5000 0x07)).toNat = 1)

/-- Hops of a port's peer from the nearest root. -/
def depthOf (s : State) (p : Nat) : Nat := mget 0 s.fabric.time.depths p

/-- Choosing the parent port: the one whose peer is nearest a root, ties to the lower number (R276). -/
def chooseParent (s : State) : Option Nat :=
  ((List.range 32).filter fun p => portState s p = 2).foldl (fun (b : Option Nat) p =>
    match b with
    | some q => if depthOf s p < depthOf s q then some p else b
    | none => some p) none

/-- Placing the module in the timing tree; a root stands at depth 0 and needs no parent (R276). -/
def joinTree (s : State) : State :=
  if isRoot s then
    let s1 := setDict (dkey 0x5000 0x0A) 0 (setTime (fun t => { t with parent := none }) s)
    if (getDict s (dkey 0x5000 0x08)).toNat = 0 then setTickState 1 s1 else s1
  else match chooseParent s with
  | none => setTime (fun t => { t with parent := none }) s
  | some p => setDict (dkey 0x5000 0x0A) (BitVec.ofNat 64 (depthOf s p + 1)) (setTime (fun t => { t with parent := some p }) s)

/-- PARENT_RESELECT (R276): a module whose parent port is not up chooses the next by the same rule. -/
def execParentReselect (s : State) : Host.Outcome State Fault Refusal :=
  .next (match s.fabric.time.parent with
    | some p => if portState s p = 2 then s else joinTree s
    | none => joinTree s)

/-- TIME_REQUEST (R277). -/
def execTimeRequest (s : State) : Host.Outcome State Fault Refusal :=
  .next (match s.fabric.time.parent with
    | some p =>
      let (m, s1) := openMsg 0x01 s
      sendCtl p m s1
    | none => s)

/-- TIME_REQUEST_ARRIVAL (R277): the parent stamps the request and its response; where in the tick the stamps lie is open
(log 4). -/
def execTimeRequestArrival (p : PortId) (t1 : Int) (s : State) : Host.Outcome State Fault Refusal :=
  let (x, s1) := fresh s
  let (y, s2) := fresh s1
  let t2 : Int := s.tick * 80000 + (x.toNat % 80000 : Nat)
  let t3 : Int := t2 + (y.toNat % 80000 : Nat)
  let (m, s3) := openMsg 0x02 s2
  .next (sendCtl p.val m (setTime (fun t => { t with reply := [t1, t2, t3] }) s3))

/-- Twice the offset of an exchange, in stamps of 12.5 ps, and the offset in ps, rounded down (R277). -/
def offset2 (t1 t2 t3 t4 : Int) : Int := (t2 - t1) - (t4 - t3)
def offsetPs (o : Int) : Int := o * 25 / 4

/-- The lock state after an exchange (R277): 64 exchanges in a row within 10 ns lock; more than 500 ns unlocks, with a
fault; four in a row above 20 ns post an event. -/
def lockState (ps : Int) (s : State) : State :=
  let t := s.fabric.time
  let big := ps.natAbs
  let good := if big ≤ 10000 then t.good + 1 else 0
  let bad := if 20000 < big then t.bad + 1 else 0
  let s1 := setTime (fun t => { t with good := min good 64, bad := if bad = 4 then 0 else bad }) s
  let s2 := if bad = 4 then post 0x0402 16 (ofSigned 32 ps) s1 else s1
  let st := (getDict s (dkey 0x5000 0x08)).toNat
  if st = 1 ∧ 500000 < big then
    faultAll ((List.range 16).filter fun c => (getClient s2 c).step.isSome) 0x0405 0 (setTickState 2 s2)
  else if st ≠ 1 ∧ 64 ≤ good then setTickState 1 s2 else s2

/-- TIME_RESPONSE (R277): the offset is recorded and trimmed, the lock state follows; an acquiring module takes its parent's
tick count. -/
def execTimeResponse (t1 t2 t3 t4 : Int) (s : State) : Host.Outcome State Fault Refusal :=
  .next (if isRoot s ∨ s.fabric.time.parent = none then s
    else
      let o := offset2 t1 t2 t3 t4
      let s1 := setDict (dkey 0x5000 0x09) (BitVec.ofNat 64 (ofSigned 32 (offsetPs o))) s
      let s2 := if (getDict s (dkey 0x5000 0x08)).toNat = 0 then { s1 with tick := ((2 * t4 + o) / 160000).toNat } else s1
      lockState (offsetPs o) (setTime (fun t => { t with phase := o / 2 }) s2))

/-- TICK_IN_EDGE (R279): every 10th rising edge is a tick edge of a root on external references, whose phase it sets; on any
other module the input is only monitored. -/
def execTickInEdge (s : State) : Host.Outcome State Fault Refusal :=
  let n := s.fabric.time.edges + 1
  .next (if n < 10 then setTime (fun t => { t with edges := n }) s
    else if extRoot s then setTime (fun t => { t with edges := 0, phase := 0 }) s
    else setTime (fun t => { t with edges := 0 }) s)

/-- PPS_IN_EDGE (R279): the tick count of a root on external references becomes the next multiple of 1,000,000. -/
def execPpsInEdge (s : State) : Host.Outcome State Fault Refusal :=
  .next (if extRoot s then { s with tick := cdiv s.tick 1000000 * 1000000 } else s)

/-- REFERENCE_LOST (R279): a root on external references goes to holdover, with its event. -/
def execReferenceLost (pps : Bool) (s : State) : Host.Outcome State Fault Refusal :=
  .next (if ¬ extRoot s then s
    else
      let s1 := setTime (fun t => if pps then { t with lostPps := true } else { t with lostTick := true }) s
      post 0x0403 16 (if pps then 2 else 1) (setTickState 3 s1))

/-- REFERENCE_REGAINED (R279): with both references there, a root is disciplined again. -/
def execReferenceRegained (pps : Bool) (s : State) : Host.Outcome State Fault Refusal :=
  .next (if ¬ extRoot s then s
    else
      let s1 := setTime (fun t => if pps then { t with lostPps := false } else { t with lostTick := false }) s
      if s1.fabric.time.lostPps || s1.fabric.time.lostTick then s1 else setTickState 1 s1)

end Sys2Proof.Machine
end

