-- ==== Sys2Proof/Machine/HostOps.lean ====
section
/-! DEFINITION. The host interface's operations: host memory, queues, host commands and their completion (R337 to R346). -/

namespace Sys2Proof.Machine

/-! ### Host memory -/

/-- Whether host addresses [a, a + n) are reached without a failure on the host bus. -/
def hostOk (s : State) (a n : Nat) : Bool := !(decide (a < s.host.failHi) && decide (s.host.failLo < a + n))

/-- A byte of host memory; a byte that nothing has written reads 0 (log 1). -/
def hostByte (s : State) (a : Nat) : Byte := mget 0#8 s.host.mem a

/-- Bytes of host memory. -/
def hostBytes (s : State) (a n : Nat) : List Byte := (List.range n).map fun i => hostByte s (a + i)

/-- Writing bytes of host memory. -/
def hostWrite (a : Nat) (bs : List Byte) (s : State) : State :=
  { s with host := { s.host with mem := bs.zipIdx.foldl (fun m x => mset 0#8 m (a + x.2) x.1) s.host.mem } }

/-! ### Queues (R337, R340) -/

/-- Registers of submission queue q, 0 to 63, or 64 for the manager's; and of event queue e, 0 to 15, or 16. -/
def sqReg (q off : Nat) : Nat := bar0 ((if q < 64 then 0x10000 + 0x40 * q else 0x11000) + off)
def eqReg (e off : Nat) : Nat := bar0 (0x12000 + 0x40 * e + off)

/-- The client of a submission queue, 16 for the manager's. -/
def queueClient (q : Nat) : Nat := if q < 64 then q / 4 else 16

/-- Entries of a queue. -/
def queueSize (s : State) (reg : Nat) : Nat := 2 ^ (min 11 (fld (getReg s reg) 0 4) + 1)

/-- Whether a queue works: enabled, and not stopped by an error (R340). k is its key in the set of stopped queues. -/
def queueOn (s : State) (k ctrl : Nat) : Bool := bit (getReg s ctrl) 0 && !mget false s.host.stopped k

/-- Stopping a queue with an error code, until software writes EN again (R340). -/
def stopQueue (k ctrl code : Nat) (s : State) : State :=
  let s1 := setReg ctrl (setFld (setFld (getReg s ctrl) 1 1 1) 2 6 code) s
  { s1 with host := { s1.host with stopped := mset false s1.host.stopped k true } }

/-! ### Host commands (R341) -/

def HostCmd.w (c : HostCmd) (i : Nat) : Word := nth 0 c.words i
def HostCmd.hop (c : HostCmd) : Nat := fld (c.w 0) 0 8
def HostCmd.id (c : HostCmd) : Nat := fld (c.w 0) 8 16
def HostCmd.notify (c : HostCmd) : Bool := bit (c.w 0) 24

/-- Completion status (R344). -/
def stOk : Nat := 0
def stBusy : Nat := 1
def stRefused : Nat := 2
def stLoadFailed : Nat := 3
def stAborted : Nat := 4
def stEvicted : Nat := 5
def stNotAdmitted : Nat := 6
def stStartPassed : Nat := 7
def stPoisoned : Nat := 8
def stHostFault : Nat := 9
def stNoPlates : Nat := 10
def stSeedMismatch : Nat := 11

/-- A completion record: always where the status is not OK, else where the command asks (R341, R345). -/
def hostDone (q id : Nat) (notify : Bool) (status reason : Nat) (s : State) : State :=
  let c := queueClient q
  if status = stOk ∧ ¬ notify then s
  else postEvent { code := 0x0001, sev := 0, client := c, queue := q, cmdid := id, status := status, step := stepNow s c,
                   detail := reason, tick := s.tick % 2 ^ 40 } s

/-- Completing a fetched command. -/
def cmdDone (c : HostCmd) (status reason : Nat) (s : State) : State := hostDone c.q c.id c.notify status reason s

/-- Whether a queue has a command under way (R340). -/
def queueBusy (s : State) (q : Nat) : Bool :=
  s.clients.any fun x =>
    (x.2.run.any fun r => decide (r.q = q)) || (x.2.arch.armed.any fun a => decide (a.q = q)) ||
      (x.2.arch.out.any fun a => decide (a.q = q))

/-- The next fetched command of a queue, where the queue works and has none under way. -/
def nextHost (s : State) (q : Nat) : Option HostCmd :=
  if ¬ s.start.sketched ∨ pinsTaken s ∨ ¬ bit (getReg s (bar0 0)) 0 ∨ ¬ queueOn s q (sqReg q 0x18) ∨ queueBusy s q then none
  else s.host.fetched.find? fun c => decide (c.q = q)

/-- Taking a command out of the fetched ones. -/
def dropHost (c : HostCmd) (s : State) : State :=
  { s with host := { s.host with fetched := s.host.fetched.erase c } }

/-- The status that every host command completes with outside Proof and Edition (R391). -/
def sketchStatus (hop : Nat) : Nat := if hop = 5 ∨ hop = 0x10 then stRefused else stNotAdmitted

/-- Running the next command of a queue where it is of an opcode (R340, R341, R354, R391). The manager queue alone takes
ADMIT and EVICT. A client's command needs its client admitted and, but for COPY, running: idle clients run in their turn. -/
def withHost (hop q : Nat) (s : State) (k : HostCmd → State → State) : State :=
  match nextHost s q with
  | none => s
  | some c =>
    let cl := queueClient q
    let s1 := dropHost c s
    if c.hop ≠ hop then s
    else if stageOf s ≠ 2 ∧ stageOf s ≠ 3 then cmdDone c (sketchStatus hop) 0 s1
    else if (64 ≤ q) ≠ (0x10 ≤ hop) then cmdDone c stRefused 0 s1
    else if 64 ≤ q then k c s1
    else if (getClient s cl).state = 0 then cmdDone c stNotAdmitted 0 s1
    else if hop ≠ 5 ∧ ¬ ((getClient s cl).state = 2 ∨ ((getClient s cl).state = 1 ∧ inTurn s cl)) then s
    else k c s1

/-- Setting a client's state (R348). -/
def setClientState (c n : Nat) (s : State) : State := setClient c { getClient s c with state := n } s

/-- Ending a client's RUN_STEPS with a status (R343). -/
def endRun (c status : Nat) (s : State) : State :=
  match (getClient s c).run with
  | none => s
  | some r =>
    let s1 := setClient c { getClient s c with run := none } (keepCommits c (r.n * (shareOf s c).stepLen) s)
    let s2 := if (getClient s1 c).state = 2 then setClientState c 1 s1 else s1
    hostDone r.q r.cmdid r.notify status 0 s2

end Sys2Proof.Machine
end

