-- ==== Sys2Proof/Machine/ClientOps.lean ====
section
/-! DEFINITION. Admission and eviction of clients (R165, R183, R348 to R351), and what an admission leaves on the dies (R79, R109, R142, R155). -/

namespace Sys2Proof.Machine

/-! ### A client's state on its dies -/

/-- Whether a key of an engine, or of a plate register, belongs to a die. -/
def engKeyDie (k : Nat) : Nat := k / 128

/-- The result registers of a die's sequencers (R237). -/
def resultRegs (d : Nat) : List Nat :=
  (List.range 16).flatMap fun t => (List.range 8).map fun i => tileBlk (16 * d + t) (0x3000 + 0x408 + 8 * i)

/-- What is left of the die units without a die's (R141 to R156). -/
def unitsBut (d : Nat) (u : Units) : Units :=
  { lanes := mdrop u.lanes (fun k => decide (k / 16 = d)), hatch := mdrop u.hatch (fun k => decide (k / 4 = d)),
    cpt := mdrop u.cpt (fun k => decide (k / 4 = d)), dma := mdrop u.dma (fun k => decide (k / 16 = d)) }

/-- The die units of a die. -/
def unitsOn (d : Nat) (u : Units) : Units :=
  { lanes := mdrop u.lanes (fun k => decide (k / 16 ≠ d)), hatch := mdrop u.hatch (fun k => decide (k / 4 ≠ d)),
    cpt := mdrop u.cpt (fun k => decide (k / 4 ≠ d)), dma := mdrop u.dma (fun k => decide (k / 16 ≠ d)) }

/-- An engine access that waits for a ring slot on a die (R178). -/
def Waiter.onDie (w : Waiter) (d : Nat) : Bool := !w.remote && decide (w.acc.die.val = d)

/-- Setting a die's engines to their state at admission: arrays, vector and stream engines, sequencers, Hatch lanes, DMA
marks, windows, token files, result registers and caches (R79, R90, R109, R142, R155, R231). -/
def freshDie (d : Nat) (s : State) : State :=
  let s1 := { s with
    tiles := mdrop s.tiles (fun k => decide (k / 16 = d)),
    units := unitsBut d s.units,
    plates := { s.plates with
      engs := mdrop s.plates.engs (fun k => decide (engKeyDie k = d)),
      flights := s.plates.flights.filter (fun f => decide (engDie f.eng ≠ d)),
      tokens := mdrop s.plates.tokens (fun k => decide (k / 256 / 17 = d)),
      posts := s.plates.posts.filter (fun p => decide (p.die.val ≠ d)),
      caches := mdrop s.plates.caches (fun k => decide (k / 16 = d)) },
    cat := { s.cat with waiters := s.cat.waiters.filter (fun w => !w.onDie d) } }
  (resultRegs d).foldl (fun s a => setReg a 0 s) s1

/-- The dies of a client. -/
def clientDies (c : Client) : List Nat := (List.range 4).filter (hasDie c)

/-! ### Admission (R349, R350) -/

/-- Whether two ranges overlap; an empty range overlaps none. -/
def rangesMeet (a n b m : Nat) : Bool := decide (0 < n) && decide (0 < m) && decide (a < b + m) && decide (b < a + n)

/-- Ring slots of a die that no admitted client holds. -/
def slotsFree (s : State) (d : Nat) : Nat :=
  65536 - (s.clients.filter fun x => decide (x.2.state ≠ 0) && hasDie x.2 d).foldl (fun n x => n + x.2.ringSlots) 0

/-- The client record that an ADMIT command asks for. -/
def admitted (h : HostCmd) : Client :=
  { state := 1, job := fld (h.w 1) 4 16, dies := fld (h.w 1) 20 4, saveAddr := fld (h.w 2) 0 44,
    statFirst := fld (h.w 3) 0 10, statNum := fld (h.w 3) 10 11, ctxFirst := fld (h.w 3) 21 16,
    ctxNum := fld (h.w 3) 37 17, ringSlots := fld (h.w 4) 0 17 }

/-- Whether an admission is refused (R333, R349). -/
def admitBad (s : State) (c : Nat) (x : Client) (rotLen : Nat) : Bool :=
  let others := s.clients.filter fun y => decide (y.2.state ≠ 0)
  decide ((getClient s c).state ≠ 0) || others.any (fun y => decide (y.2.job = x.job)) || decide (x.dies = 0) ||
  decide (1024 < x.statFirst + x.statNum) || decide (65536 < x.ctxFirst + x.ctxNum) ||
  others.any (fun y => rangesMeet x.statFirst x.statNum y.2.statFirst y.2.statNum ||
    rangesMeet x.ctxFirst x.ctxNum y.2.ctxFirst y.2.ctxNum) ||
  (clientDies x).any (fun d => decide (slotsFree s d < x.ringSlots)) ||
  decide (x.saveAddr % 4096 ≠ 0) || decide (0x6C00000000 < x.saveAddr + 326 * 2 ^ 20) ||
  (decide (rotLen = 0) && others.any (fun y => decide (y.2.dies &&& x.dies ≠ 0))) ||
  (decide (stageOf s = 3) && (List.range 24).any (stackFailed s))

/-- Statistics slots and governor flag words of an admitted client (R350). -/
def freshStats (x : Client) (s : State) : State :=
  (clientDies x).foldl (fun s d => (List.range x.statNum).foldl (fun s i =>
    let slot := x.statFirst + i
    let s1 := (List.range 74).foldl (fun s k => setReg (statBlk d slot (8 * k)) (regReset (statBlk d slot (8 * k))) s) s
    setReg (govBlk d slot) (regReset (govBlk d slot)) { s1 with sat := mset false s1.sat (statBlk d slot 0) false }) s) s

/-- Whether another admitted client has its state on a die's engines: it runs there, or stands there idle. -/
def dieTaken (s : State) (c d : Nat) : Bool :=
  s.clients.any fun y => decide (y.1 ≠ c) && hasDie y.2 d &&
    (decide (y.2.state = 2 ∨ y.2.state = 4) || (decide (y.2.state = 1) && inTurn s y.1))

/-- The totals and words of a client that admission clears: scope word, mapping generation, restore record, Ledger
(R26, R350, R365, R382). -/
def freshTotals (c : Nat) (s : State) : State :=
  let s1 := setDict (dkey 0xA000 (0x10 + c)) 0 (setDict (dkey 0x5101 c) 0 (setDict (dkey 0x9004 c) 0
    (setDict (dkey 0x9001 c) 0 s)))
  { s1 with
    ledger := mdrop s1.ledger (fun k => decide (k / 32 = c)),
    sat := mdrop s1.sat (fun k => decide (k / 2 ^ 48 = 0x7110 + c)) }

/-- Admitting a client (R350, R374): next step index 0, and every lane group's base with it. -/
def admitClient (c : Nat) (x : Client) (s : State) : State :=
  let s1 := freshStats x (freshTotals c (setClient c x s))
  (clientDies x).foldl (fun s d => if dieTaken s c d then s else freshDie d s) s1

/-- An ADMIT command of the manager. -/
def admitCmd (h : HostCmd) (s : State) : State :=
  let c := fld (h.w 1) 0 4
  let x := admitted h
  if admitBad s c x (getDict s (dkey 0x7000 0x02)).toNat then cmdDone h stRefused 0 s
  else cmdDone h stOk 0 (admitClient c x s)

/-- ADMIT (R349). -/
def execAdmit (q : Nat) (s : State) : Host.Outcome State Fault Refusal := .next (withHost 0x10 q s admitCmd)

/-! ### Eviction (R351) -/

/-- Aborting the step of a client that is evicted or that a reset stops: the code that the step-aborted event names is open
where no event caused the abort (log 4). -/
def abortStep (c : Nat) (s : State) : State :=
  match (getClient s c).step with
  | none => s
  | some st =>
    if st.stopped then s
    else
      let (x, s0) := fresh s
      let st1 := if st.aborted then st else { st with aborted := true, fcode := fld x 0 16, forigin := moduleId s }
      let s1 := updStep c (fun _ => st1) s0
      if (getClient s c).state = 3 then
        let s2 := if st1.forigin = moduleId s1 then floodAbort c st1.forigin st1.fcode st1.idx none s1 else s1
        post 0x0301 c (st1.fcode % 65536 + 2 ^ 16 * (st1.forigin % 4096)) (bumpDict (dkey 0x4040 0x04) 1 s2)
      else stopStep c st1 s1

/-- Completing every command of a client's queues with a status: what is under way, then what has been fetched (R351). -/
def endCommands (c status : Nat) (s : State) : State :=
  let cl := getClient s c
  let s1 := match cl.run with
    | some r => hostDone r.q r.cmdid r.notify status 0 s
    | none => s
  let s2 := match cl.arch.armed with
    | some a => hostDone a.q a.cmdid a.notify status 0 s1
    | none => s1
  let s3 := match cl.arch.out with
    | some a => hostDone a.q a.cmdid a.notify status 0 s2
    | none => s2
  let mine := s3.host.fetched.filter fun h => decide (queueClient h.q = c)
  mine.foldl (fun s h => cmdDone h status 0 s)
    { s3 with host := { s3.host with fetched := s3.host.fetched.filter fun h => decide (queueClient h.q ≠ c) } }

/-- Zero-filling the Folio lines whose last owner is a client (R165). -/
def zeroLines (c : Nat) (s : State) : State :=
  let mine := (s.mem.owner.filter fun x => decide (x.2 = c + 1)).map (·.1)
  let hit (a : Nat) : Bool := match regionOf a with
    | .folio d => mine.contains (d * 4194304 + a % 0x10000000 / 64)
    | _ => false
  { s with mem := { s.mem with
      cells := mdrop s.mem.cells hit, synd := mdrop s.mem.synd (fun k => hit (8 * k)),
      owner := s.mem.owner.filter (fun x => decide (x.2 ≠ c + 1)) } }

/-- Making every Catalog entry of a client undefined (R351). -/
def undefEntries (c : Nat) (s : State) : State :=
  (s.cat.ents.filter fun x => x.2.ownedBy c).foldl (fun s x => applyEntry x.1 {} false s) s

/-- Advancing the epochs of agents that a test selects (R183). -/
def bumpEpochs (ids : List Nat) (s : State) : State :=
  { s with cat := { s.cat with epochs := ids.foldl (fun m i => mupd 0 m i (· + 1)) s.cat.epochs } }

/-- The identities of every tile sequencer under a client (R182, R183). -/
def seqIds (c : Nat) : List Nat := (List.range 4).flatMap fun d => (List.range 16).map fun t => lockId c d t

/-- Evicting a client (R351). say is whether its commands complete with a record. -/
def evictClient (c : Nat) (say : Bool) (s : State) : State :=
  let cl := getClient s c
  let s1 := abortStep c s
  let s2 := if say then endCommands c stEvicted s1
    else { s1 with host := { s1.host with fetched := s1.host.fetched.filter fun h => decide (queueClient h.q ≠ c) } }
  let s3 := freeCtxs (fun x => decide (x.state ≠ 0) && decide (x.client = c)) s2
  let s4 := undefEntries c ((List.finRange 4).foldl (fun s d => discardStaged d c s) s3)
  let s5 := zeroLines c (bumpEpochs (seqIds c) s4)
  let s6 := { s5 with
    clients := mset {} s5.clients c {},
    fabric := { s5.fabric with
      tx := s5.fabric.tx.filter (fun t => decide (t.client ≠ c)), rx := s5.fabric.rx.filter (fun t => decide (t.client ≠ c)) },
    rot := { s5.rot with saves := mdrop s5.rot.saves (fun k => decide (k / 4 = c)) } }
  (clientDies cl).foldl (fun s d => if dieTaken s c d then s else freshDie d s) s6

/-- An EVICT command of the manager. -/
def evictCmd (h : HostCmd) (s : State) : State :=
  let c := fld (h.w 1) 0 4
  if (getClient s c).state = 0 then cmdDone h stNotAdmitted 0 s else cmdDone h stOk 0 (evictClient c true s)

/-- EVICT (R351). -/
def execEvict (q : Nat) (s : State) : Host.Outcome State Fault Refusal := .next (withHost 0x11 q s evictCmd)

end Sys2Proof.Machine
end

