-- ==== Sys2Proof/Machine/Clock.lean ====
section
/-! DEFINITION. Ticks and steps: the schedule tick, DVFS, a step's start and completion, the Ledger's tick (R17, R20, R26, R220, R280, R319, R365 to R367, R373, R374, R443, R453). -/

namespace Sys2Proof.Machine

/-! ### DVFS (R17, R443) -/

/-- TCLK_CHANGE (R17): the frequency that DVFS selected takes effect at a tick boundary. -/
def execTclkChange (s : State) : Host.Outcome State Fault Refusal :=
  .next (if s.start.tcut = 0 ∨ s.start.tcut = tclk s then s
    else bumpDict (dkey 0x2100 0x12) 1 (setDict (dkey 0x2100 0x10) (BitVec.ofNat 64 s.start.tcut) s))

/-- The TCLK target of an evaluation and its cause (R443, R453). -/
def throttleTarget (s : State) (m : Sensors) : Nat × Nat :=
  let now := tclk s
  let cap := if inProof s then 800 else (getDict s (dkey 0x2100 0x11)).toNat
  let limit := (getDict s (dkey 0x2100 0x0A)).toNat
  let tmax := (getDict s (dkey 0x2100 0x0B)).toNat
  let die := m.tdie.any fun t => decide (tmax ≤ t)
  let cool := m.tdie.all (fun t => decide (t + 5 ≤ tmax)) && decide (m.tstack ≤ 90) && decide (m.pin + 150 ≤ limit)
  if die ∨ 95 ≤ m.tstack ∨ limit < m.pin then
    (max 800 (now - 100), if die then 1 else if 95 ≤ m.tstack then 2 else 3)
  else
    let t := if cool then min cap (now + 100) else min now cap
    (t, if now < t then 5 else 4)

/-- The sensor entries (R324, R453). -/
def setSensors (m : Sensors) (s : State) : State :=
  let put (k v : Nat) (s : State) : State := setDict (dkey 0x2100 k) (BitVec.ofNat 64 v) s
  let s1 := put 0x01 m.vin (put 0x02 m.iin (put 0x03 m.pin (put 0x08 m.tin (put 0x09 m.tout s))))
  setDict (dkey 0x3000 0x05) (BitVec.ofNat 64 m.tstack)
    ((List.range 4).foldl (fun s d => put (4 + d) (nth 0 m.tdie d) s) s1)

/-- THROTTLE_EVAL (R443): the lead Registrar chooses the TCLK target. -/
def execThrottleEval (m : Sensors) (s : State) : Host.Outcome State Fault Refusal :=
  .next (if ¬ s.start.firmware then s
    else
      let s1 := setSensors m s
      let (t, cause) := throttleTarget s1 m
      if t = tclk s1 then { s1 with start := { s1.start with tcut := t } }
      else
        let s2 := bumpDict (dkey 0x2100 0x0D) 1 (setDict (dkey 0x2100 0x0C) (BitVec.ofNat 64 cause) s1)
        post 0x0803 16 t { s2 with start := { s2.start with tcut := t } })

/-! ### The schedule tick (R20) -/

/-- Moving the phase to be trimmed by at most 16 steps (R277). -/
def trimPhase (x : Int) : Int := if x < 0 then min 0 (x + 16) else max 0 (x - 16)

/-- Whether a client's plan time stands still in this tick: it is switched out, or pauses for a capture at the boundary that
ends its step (R280, R357, R377). -/
def planHeld (s : State) (c : Nat) : Bool :=
  let cl := getClient s c
  match cl.run with
  | none => false
  | some r => runBegun s r && (decide (cl.state = 3 ∨ cl.state = 4) ||
      (decide (0 < cl.arch.pause) && cl.step.isNone && decide (r.n * (shareOf s c).stepLen ≤ planTick s c + 1)))

/-- A tick in which plan time stands still: it counts as a switched-out tick, idle time goes to pre-empted (R280, R322). -/
def holdPlan (c : Nat) (s : State) : State :=
  if planHeld s c then
    let cl := getClient s c
    let capture := decide (cl.state ≠ 3 ∧ cl.state ≠ 4)
    let s1 := updStep c (fun st => { st with out := st.out + 1 }) (updRun c (fun r => { r with out := r.out + 1 }) s)
    let s2 := if capture then
        setClient c { getClient s1 c with arch := { cl.arch with pause := cl.arch.pause - 1 } } s1 else s1
    if cl.step.isSome || capture then bumpDict (dkey (0x5110 + c) 1) 1000 s2 else s2
  else s

/-- Logical banks in the active state (R195). -/
def banksAwake (s : State) : Nat := 2048 - s.banks.power.length

/-- Completing the re-shard commits of a client that have been applied on every die: its mapping generation advances
(R319). -/
def settleCommits (c : Nat) (s : State) : State :=
  match (getClient s c).step with
  | none => s
  | some st =>
    let mine := st.commits.filter fun j => decide (j.decided = some true) && decide (stepBase s c + j.ctick ≤ planTick s c)
    if mine = [] ∨ (s.cat.commits.any fun x => decide (x.client = c) && commitDue s x) then s
    else
      let k := dkey 0x5101 c
      let s1 := updStep c (fun st => { st with commits := st.commits.filter fun j => !(mine.any fun m => decide (m.id = j.id)) }) s
      let s2 := bumpDict (dkey 0x5100 0x0C) 1 (setDict k (BitVec.ofNat 64 (((getDict s1 k).toNat + 1) % 2 ^ 32)) s1)
      mine.foldl (fun s j => complete j.id s) s2

/-- The key of a die's arbiter of a resource: 0 Folio banks, 1 stacks, 2 bridges, 3 ports. -/
def arbKey (res d : Nat) : Nat := 4 * d + res

/-- Starting a quota window (R363). -/
def arbWindow (a : Arb) : Arb :=
  { a with cycle := 0, cnts := (a.cnts.map fun x => (x.1, { x.2 with high := 0 })).filter fun x => decide (x.2 ≠ {}) }

/-- The arbiters of a die start a quota window at the tick's first cycle (R363). -/
def newWindows (d : Nat) (s : State) : State :=
  { s with arbs := (List.range 4).foldl (fun m r => mset {} m (arbKey r d) (arbWindow (mget {} m (arbKey r d)))) s.arbs }

/-- What die 0's tick brings to the module: the count, the phase, plan times that stand still. -/
def moduleTick (s : State) : State :=
  let s1 := (List.range 16).foldl (fun s c => holdPlan c s) { s with tick := s.tick + 1 }
  setDict (dkey 0x3100 0x11) (BitVec.ofNat 64 (banksAwake s1)) (setTime (fun t => { t with phase := trimPhase t.phase }) s1)

/-- SCHEDULE_TICK (R20, R363): a die's tick ends, and its arbiters' windows begin again. Die 0's counts the module's ticks (log); each die applies the commits that fall
due, and its ports the lane swaps that wait (R175, R274). -/
def execScheduleTick (d : DieId) (s : State) : Host.Outcome State Fault Refusal :=
  let s1 := newWindows d.val (if d.val = 0 then moduleTick s else s)
  let s2 := (List.range 8).foldl (fun s i => dueSwap (8 * d.val + i) s) (dueCommits d s1)
  .next ((List.range 16).foldl (fun s c => settleCommits c s) s2)

/-! ### A step's start (R220, R260, R261, R374) -/

/-- Lane groups of a client: 17 on each of its dies (R372). -/
def laneGroups (c : Client) : List Nat :=
  ((List.range 4).filter (hasDie c)).flatMap fun d => (List.range 17).map fun g => 17 * d + g

/-- Starting an engine's plate; an empty plate is done (R219, R220). -/
def startEngine (s : State) (e : Eng) : State :=
  let g := getEng s e
  setEng e { bank := g.bank, xbound := g.xbound, running := true, ended := decide ((plateOf s e).2 = 0) } s

/-- Whether a client's next step may begin: its plan tick has come, no commit that is due waits, no capture is due
(R261, R280, R377). -/
def stepReady (s : State) (c : Nat) (r : Run) : Bool :=
  let cl := getClient s c
  decide (cl.state = 2) && cl.step.isNone && decide (0 < r.left) && runBegun s r &&
    decide (r.n * (shareOf s c).stepLen ≤ planTick s c) && !cl.arch.due && decide (cl.arch.pause = 0) &&
    !(s.cat.commits.any fun x => decide (x.client = c) && commitDue s x)

/-- STEP_START (R220): tokens are preset, lane-group bases advance, votes and the gate's outcome are cleared, and every plate
starts fetching. -/
def execStepStart (c : ClientId) (s : State) : Host.Outcome State Fault Refusal :=
  let cl := getClient s c.val
  .next (match cl.run with
    | none => s
    | some r =>
      if ¬ stepReady s c.val r then s
      else
        let dies := (List.range 4).filter (hasDie cl)
        let bases := (laneGroups cl).foldl (fun m g => mset 0 m g (r.idx + 1)) cl.arch.bases
        let s1 := setClient c.val { cl with step := some { idx := r.idx, n := r.n }, arch := { cl.arch with bases := bases } } s
        let s2 := presetTokens c.val s1
        let s3 := (dies.flatMap enginesOf).foldl startEngine s2
        let s4 := dies.foldl (fun s d => setReg (collBlk d 0) (setFld (getReg s (collBlk d 0)) 9 1 0) s) s3
        clearVotes c.val s4)

/-! ### A step's completion (R26, R220, R286, R343, R367, R373) -/

/-- Fields of a data position record (R372). -/
def posWord (bs : List Byte) (i : Nat) : Nat := leNat ((bs.drop (8 * i)).take 8)

/-- A client's data position record, 48 bytes. -/
def dataPos (s : State) (c : Nat) : List Byte :=
  let bs := mget [] s.blobs.blobs (dkey 0x9003 c)
  bs ++ List.replicate (48 - bs.length) 0

/-- Storing a data position record. -/
def setDataPos (c : Nat) (bs : List Byte) (s : State) : State :=
  { s with blobs := { s.blobs with blobs := mset [] s.blobs.blobs (dkey 0x9003 c) bs } }

/-- Advancing a data position by one step's samples (R373). -/
def advancePos (bs : List Byte) : List Byte :=
  let w0 := posWord bs 0
  let per := posWord bs 3
  let sample := posWord bs 1 + w0 / 2 ^ 32
  let turns := if per = 0 then 0 else sample / per
  leBytes 8 ((w0 % 2 ^ 32 + turns) % 2 ^ 32 + w0 / 2 ^ 32 * 2 ^ 32) ++ leBytes 8 (sample - turns * per) ++ bs.drop 16

/-- Setting a Ledger total. -/
def setLedger (k v : Nat) (s : State) : State := { s with ledger := mset 0 s.ledger k v }

/-- The measured slowdown of a step (R367). -/
def slowdown (len stretch : Nat) : Nat := 1000 * (len + stretch) / len

/-- The Ledger's record of a completed step (R367). -/
def recordSlow (c v : Nat) (s : State) : State :=
  let s1 := setLedger (c * 32 + 0x15) v s
  bumpLedger c 0x18 1 (setLedger (c * 32 + 0x16) (max v (mget 0 s1.ledger (c * 32 + 0x16))) s1)

/-- The scope word of a completed step (R26, R262). -/
def recordScope (c idx : Nat) (s : State) : State :=
  let s1 := if lateViol s c then setScope c scViolation s else s
  let v := (getClient s1 c).scope
  setDict (dkey 0xA000 (0x20 + c)) (BitVec.ofNat 64 idx)
    (setDict (dkey 0xA000 (0x10 + c)) (v.setWidth 64) (setClient c { getClient s1 c with scope := 0 } s1))

/-- Whether a step is over on the module: its closing slot has ended, and its plates and the governor's procedure are done,
or it is aborted and stopped (R220, R230, R260, R286). -/
def stepOver (s : State) (c : Nat) (st : StepSt) : Bool :=
  (match (shareOf s c).closing with
    | some k => st.ended.contains k
    | none => false) &&
  (if st.aborted then st.stopped else platesDone s c && (st.govDone || (govOf s c).isNone))

/-- The end of an aborted step: its RUN_STEPS completes, and none of its later steps starts (R230, R343). -/
def endAborted (c : Nat) (s : State) : State :=
  let cl := getClient s c
  endRun c stAborted (setClient c { cl with step := none, scope := 0, arch := { cl.arch with lastAborted := true } } s)

/-- The end of a completed step. -/
def endStep (c : Nat) (st : StepSt) (r : Run) (s : State) : State :=
  let slow := slowdown (shareOf s c).stepLen st.stretch
  let s1 := setDataPos c (advancePos (dataPos s c)) (recordSlow c slow (recordScope c st.idx s))
  let s2 := post 0x0002 c (slow % 65536) s1
  let cl := getClient s2 c
  let due := decide (r.arch ≠ 0) && decide ((st.idx + 1) % r.arch = 0)
  let pause := if due && decide (1 < r.left) then (getDict s2 (dkey 0x9002 c)).toNat else 0
  let s3 := setClient c { cl with
    step := none, next := st.idx + 1,
    run := some { r with left := r.left - 1, n := r.n + 1, idx := st.idx + 1 },
    arch := { cl.arch with lastAborted := false, due := due, pause := pause } } s2
  if r.left ≤ 1 then endRun c stOk s3 else s3

/-- STEP_COMPLETE (R220): the scope word is recorded, the data position advances, the slowdown is measured, and the
step-completion event is posted. -/
def execStepComplete (c : ClientId) (s : State) : Host.Outcome State Fault Refusal :=
  let cl := getClient s c.val
  .next (match cl.step, cl.run with
    | some st, some r => if ¬ stepOver s c.val st then s else if st.aborted then endAborted c.val s else endStep c.val st r s
    | _, _ => s)

/-! ### Energy (R366) -/

/-- Charging energy to a client, in uJ; energy with no client goes to LEDGER_UNATTRIBUTED. -/
def chargeEnergy (c n : Nat) (s : State) : State :=
  if c < 16 then bumpLedger c 0x13 n s else setLedger (16 * 32 + 1) (mget 0 s.ledger (16 * 32 + 1) + n) s

/-- Sharing energy in proportion to what a unit served each client, in whole uJ; what is left over has no client. -/
def shareEnergy (unit n : Nat) (s : State) : State :=
  let of (c : Nat) : Nat := mget 0 s.served (unit * 16 + c)
  let total := ((List.range 16).map of).sum
  if total = 0 then chargeEnergy 16 n s
  else
    let given := ((List.range 16).map fun c => n * of c / total).sum
    (List.range 16).foldl (fun s c => chargeEnergy c (n * of c / total) s) (chargeEnergy 16 (n - given) s)

/-- A die's energy of a tick. -/
def dieEnergy (d : Nat) (x : EnergyIn) (s : State) : State :=
  let c := clientOn s d
  let s1 := chargeEnergy c (x.compute + x.mgmt) s
  let s2 := (List.range 6).foldl (fun s i => shareEnergy (6 * d + i) (nth 0 x.stk i) s) s1
  shareEnergy (24 + d) x.links s2

/-- LEDGER_TICK (R366). -/
def execLedgerTick (energy : List EnergyIn) (s : State) : Host.Outcome State Fault Refusal :=
  let all := ((energy.take 4).map fun x => x.compute + x.stk.sum + x.links + x.mgmt).sum
  let s1 := (energy.take 4).zipIdx.foldl (fun s x => dieEnergy x.2 x.1 s) s
  .next { setLedger (16 * 32 + 2) (mget 0 s1.ledger (16 * 32 + 2) + all) s1 with served := [] }

end Sys2Proof.Machine
end

