-- ==== Sys2Proof/Machine/HostIf.lean ====
section
/-! DEFINITION. Doorbells, queues, RUN_STEPS, COPY, event records and MSI-X (R337, R340 to R347). -/

namespace Sys2Proof.Machine

/-! ### Submission queues (R340) -/

/-- Fetching one entry of a submission queue; a failed access stops the queue. -/
def fetchOne (q : Nat) (s : State) : State :=
  let h := sqReg q 0x10
  let head := fld (getReg s h) 0 12
  let a := (getReg s (sqReg q 0)).toNat / 64 * 64 + 64 * head
  if mget 0 s.host.tails q = head ∨ ¬ queueOn s q (sqReg q 0x18) then s
  else if ¬ hostOk s a 64 then stopQueue q (sqReg q 0x18) 2 s
  else
    let s1 := setReg h (BitVec.ofNat 64 ((head + 1) % queueSize s (sqReg q 8))) s
    { s1 with host := { s1.host with fetched := s1.host.fetched ++ [{ q := q, words := wordsOf 8 (hostBytes s a 64) }] } }

/-- Fetching the entries up to the tail, in order, while queue processing is enabled. -/
def fetchQueue (q : Nat) (s : State) : State :=
  let n := queueSize s (sqReg q 8)
  if bit (getReg s (bar0 0)) 0 then
    iter ((mget 0 s.host.tails q + n - fld (getReg s (sqReg q 0x10)) 0 12) % n) (fun _ s => fetchOne q s) s
  else s

/-- DOORBELL_WRITE (R340): queues 0 to 63 are the clients', 64 the manager's. -/
def execDoorbellWrite (q tail : Nat) (s : State) : Host.Outcome State Fault Refusal :=
  .next (if 64 < q ∨ ¬ queueOn s q (sqReg q 0x18) then s
    else if queueSize s (sqReg q 8) ≤ tail % 4096 then stopQueue q (sqReg q 0x18) 1 s
    else fetchQueue q { s with host := { s.host with tails := mset 0 s.host.tails q (tail % 4096) } })

/-! ### RUN_STEPS (R343) -/

/-- Ticks from the present fabric tick to a 40-bit tick, modulo 2^40 (R276). -/
def ticksAhead (s : State) (t : Nat) : Nat := (t + 2 ^ 40 - s.tick % 2 ^ 40) % 2 ^ 40

/-- A RUN_STEPS command of a client. A second one while one is in progress, and one of no steps, the spec does not describe:
BUSY and REFUSED (log). -/
def runSteps (h : HostCmd) (s : State) : State :=
  let c := queueClient h.q
  let cl := getClient s c
  let ahead := ticksAhead s (fld (h.w 2) 0 40)
  let steps := fld (h.w 3) 0 32
  if cl.run.isSome then cmdDone h stBusy 0 s
  else if cl.set.isNone then cmdDone h stNoPlates 0 s
  else if ahead < 2 ∨ 2 ^ 39 ≤ ahead then cmdDone h stStartPassed 0 s
  else if steps = 0 then cmdDone h stRefused 0 s
  else if (match cl.seed with | some x => decide (x ≠ (h.w 1).toNat) | none => false) then cmdDone h stSeedMismatch 0 s
  else
    let idx := if h.w 4 = BitVec.allOnes 64 then cl.next else (h.w 4).toNat
    setClientState c 2 (setClient c { cl with
      seed := some (h.w 1).toNat,
      next := idx,
      run := some { q := h.q, cmdid := h.id, notify := h.notify, start := s.tick + ahead, left := steps, idx := idx,
                    arch := fld (h.w 5) 0 32 } } s)

/-- RUN_STEPS (R343). -/
def execRunSteps (q : Nat) (s : State) : Host.Outcome State Fault Refusal := .next (withHost 0x02 q s runSteps)

/-! ### COPY (R344) -/

/-- A side of a COPY: a host address, or a buffer name and an offset. -/
structure CopySide where
  host : Bool
  addr : Nat
  name : Nat
  off : Nat
  deriving DecidableEq, Repr

/-- Reading a side of a COPY command. -/
def copySide (host : Bool) (w : Word) : CopySide := { host := host, addr := w.toNat, name := fld w 0 14, off := fld w 28 36 }

/-- Whether a buffer side is refused (R168, R344). -/
def copySideBad (s : State) (c n : Nat) (x : CopySide) : Bool :=
  !x.host && (!(getEnt s x.name).ownedBy c || decide ((getEnt s x.name).len < x.off + n))

/-- Whether a side waits until its client runs: a non-resident Folio buffer of a client that does not (R354). -/
def sideWaits (s : State) (c : Nat) (x : CopySide) : Bool :=
  let e := getEnt s x.name
  let st := (getClient s c).state
  !x.host && decide (e.kind = 1) && !e.resident && !(decide (st = 2) || (decide (st = 1) && inTurn s c))

/-- Storing poison over the words of a buffer whose source was poisoned. -/
def poisonTo (e : Entry) (die off : Nat) (bs : List (Byte × Bool)) (s : State) : State :=
  bs.zipIdx.foldl (fun s x =>
    if x.1.2 then
      let k := addrOf e die (off + x.2) / 8
      poisonWord k (s.mem.rawWord k) s
    else s) s

/-- Moving bytes into a COPY's destination: poison reaches host memory as 0xFF, and a buffer as poison. -/
def copyOut (c : Nat) (d : CopySide) (bs : List (Byte × Bool)) (s : State) : State :=
  if d.host then
    bumpLedger c 0x11 bs.length (hostWrite d.addr (bs.map fun x => if x.2 then 0xFF#8 else x.1) s)
  else
    let e := getEnt s d.name
    poisonTo e (d.name / 4096) d.off bs (putBuf c d.name e d.off (plain bs) s)

/-- Reading a COPY's source. -/
def copyIn (c n : Nat) (x : CopySide) (s : State) : List (Byte × Bool) × State :=
  if x.host then ((hostBytes s x.addr n).map fun b => (b, false), bumpLedger c 0x11 n s)
  else readBuf c (getEnt s x.name) (x.name / 4096) x.off n s

/-- The die of a COPY's side: the endpoint is on die 0 (R336). -/
def sideDie (x : CopySide) : Nat := if x.host then 0 else x.name / 4096

/-- Putting back a command that waits. -/
def holdHost (h : HostCmd) (s : State) : State := { s with host := { s.host with fetched := h :: s.host.fetched } }

/-- A COPY command of a client. Host memory to host memory, and no bytes, are refused (log). -/
def copyCmd (h : HostCmd) (s : State) : State :=
  let c := queueClient h.q
  let n := fld (h.w 3) 0 36
  let src := copySide (bit (h.w 4) 0) (h.w 1)
  let dst := copySide (bit (h.w 4) 1) (h.w 2)
  if n = 0 ∨ (src.host ∧ dst.host) ∨ copySideBad s c n src ∨ copySideBad s c n dst then cmdDone h stRefused 0 s
  else if sideWaits s c src || sideWaits s c dst ||
      (!src.host && !readReady s src.name (getEnt s src.name) src.off n) ||
      (!dst.host && !writeReady s dst.name (getEnt s dst.name) dst.off n) then holdHost h s
  else if (src.host && !hostOk s src.addr n) || (dst.host && !hostOk s dst.addr n) then cmdDone h stHostFault 0 s
  else
    let (bs, s1) := copyIn c n src (crossBridge c (sideDie src) (sideDie dst) n s)
    cmdDone h (if anyPoison bs then stPoisoned else stOk) 0 (copyOut c dst bs s1)

/-- COPY (R344). -/
def execCopy (q : Nat) (s : State) : Host.Outcome State Fault Refusal := .next (withHost 0x05 q s copyCmd)

/-- HOST_RESERVED_OPCODE (R341): an opcode that the table does not list completes REFUSED, and does nothing. -/
def execHostReservedOpcode (q : Nat) (s : State) : Host.Outcome State Fault Refusal :=
  .next (match nextHost s q with
    | none => s
    | some c =>
      if c.hop ∈ [1, 2, 3, 4, 5, 0x10, 0x11] then s
      else cmdDone c (if stageOf s = 2 ∨ stageOf s = 3 then stRefused else stNotAdmitted) 0 (dropHost c s))

/-! ### Event records (R345, R346) -/

/-- An event queue's state, event queue 16 being the manager's. -/
def getEvQ (s : State) (e : Nat) : EvQ := mget {} s.host.queues e

/-- Storing an event queue's state. -/
def setEvQ (e : Nat) (x : EvQ) (s : State) : State := { s with host := { s.host with queues := mset {} s.host.queues e x } }

/-- The words of an event record. Fields that the event does not have are open: they take bits of a free value (log 4). -/
def recordWords (e : Event) (phase : Bool) (x y : Word) : List Word :=
  let isDone := decide (e.code = 1)
  let cl := if e.client < 16 then e.client else fld x 0 4
  let qu := if isDone ∧ e.queue < 64 then e.queue else fld x 4 6
  let id := if isDone then e.cmdid else fld x 10 16
  let st := if isDone ∨ e.code = 0x0502 then e.status else fld x 26 8
  [BitVec.ofNat 64 (e.code + 2 ^ 16 * cl + 2 ^ 20 * b2n phase + 2 ^ 21 * e.sev + 2 ^ 24 * qu + 2 ^ 32 * id + 2 ^ 48 * st),
   (match e.step with | some n => BitVec.ofNat 64 n | none => y),
   BitVec.ofNat 64 e.detail, BitVec.ofNat 64 (e.tick % 2 ^ 40)]

/-- The bytes of an event record, with fresh open fields. -/
def recordBytes (e : Event) (phase : Bool) (s : State) : List Byte × State :=
  let (x, s1) := fresh s
  let (y, s2) := fresh s1
  (bytesOf (recordWords e phase x y), s2)

/-- Whether an event queue is full (R346). -/
def evqFull (s : State) (e : Nat) : Bool :=
  decide ((fld (getReg s (eqReg e 0x10)) 0 12 + 1) % queueSize s (eqReg e 8) = (getEvQ s e).head)

/-- Counting a dropped record (R346). -/
def lostEvent (s : State) : State := bumpDict (dkey 0x1100 0x22) 1 s

/-- Keeping a record in a queue's hold (R346). -/
def holdEvent (e : Nat) (v : Event) (s : State) : State :=
  let x := getEvQ s e
  if x.hold.length < 256 then setEvQ e { x with hold := x.hold ++ [v] } s
  else if v.sev < 3 then lostEvent s
  else
    match x.hold.findIdx? fun y => decide (y.sev < 3) with
    | some i => lostEvent (setEvQ e { x with hold := x.hold.eraseIdx i ++ [v] } s)
    | none => lostEvent s

/-- Whether a queue can take a record now. -/
def evqOpen (s : State) (e : Nat) : Bool := queueOn s (128 + e) (eqReg e 0x18) && !evqFull s e

/-- Writing a record into host memory at the tail; none where the host bus fails, which stops the queue (R346). -/
def writeEvent (e : Nat) (v : Event) (s : State) : Option State :=
  let x := getEvQ s e
  let t := fld (getReg s (eqReg e 0x10)) 0 12
  let a := (getReg s (eqReg e 0)).toNat / 64 * 64 + 32 * t
  if ¬ hostOk s a 32 then none
  else
    let next := (t + 1) % queueSize s (eqReg e 8)
    let (bs, s1) := recordBytes v x.phase s
    some (setReg (eqReg e 0x10) (BitVec.ofNat 64 next)
      (setEvQ e { x with phase := if next = 0 then !x.phase else x.phase, unsig := x.unsig + 1,
                         urgent := x.urgent || decide (3 ≤ v.sev) } (hostWrite a bs s1)))

/-- Stopping an event queue whose record write failed (R346). -/
def stopEvQ (e : Nat) (s : State) : State := stopQueue (128 + e) (eqReg e 0x18) 2 s

/-- Writing the record at the head of a queue's hold, where the queue can take it. -/
def flushOne (e : Nat) (s : State) : State :=
  match (getEvQ s e).hold with
  | [] => s
  | v :: l =>
    if ¬ evqOpen s e then s
    else match writeEvent e v s with
      | some s1 => setEvQ e { getEvQ s1 e with hold := l } s1
      | none => stopEvQ e s

/-- Writing the records of a queue's hold, in order. -/
def flushHold (e : Nat) (s : State) : State := iter (getEvQ s e).hold.length (fun _ s => flushOne e s) s

/-- Posting a record to a queue: written at once where nothing is held before it, else held. -/
def postRecord (e : Nat) (v : Event) (s : State) : State :=
  if ¬ (getEvQ s e).hold.isEmpty ∨ ¬ evqOpen s e then holdEvent e v s
  else match writeEvent e v s with
    | some s1 => s1
    | none => stopEvQ e (setEvQ e { getEvQ s e with hold := [v] } s)

/-- EVENT_POST (R345, R346): the next record that the lead Registrar has ordered. -/
def execEventPost (s : State) : Host.Outcome State Fault Refusal :=
  .next (match s.host.posted with
    | [] => s
    | (e, v) :: l => postRecord e v { s with host := { s.host with posted := l } })

/-- EVENT_QUEUE_HEAD_WRITE (R340, R346): room for held records; a value beyond the queue's size stops it. -/
def execEventQueueHeadWrite (q head : Nat) (s : State) : Host.Outcome State Fault Refusal :=
  .next (if 16 < q ∨ ¬ queueOn s (128 + q) (eqReg q 0x18) then s
    else if queueSize s (eqReg q 8) ≤ head % 4096 then stopQueue (128 + q) (eqReg q 0x18) 1 s
    else flushHold q (setEvQ q { getEvQ s q with head := head % 4096 } s))

/-- Letting a stopped queue work again. -/
def unstop (k : Nat) (s : State) : State := { s with host := { s.host with stopped := mset false s.host.stopped k false } }

/-- Writing EN = 1 of a queue's SQ_CTRL (R340, R346). -/
def enableQueue (event : Bool) (q : Nat) (s : State) : State :=
  if event then
    if 16 < q then s else flushHold q (unstop (128 + q) (setBit (eqReg q 0x18) 0 s))
  else if 64 < q then s else fetchQueue q (unstop q (setBit (sqReg q 0x18) 0 s))

/-- QUEUE_ENABLE (R340, R346). -/
def execQueueEnable (event : Bool) (q : Nat) (s : State) : Host.Outcome State Fault Refusal := .next (enableQueue event q s)

/-! ### MSI-X (R347) -/

/-- The MSI-X vector of an event queue. -/
def evqVec (s : State) (e : Nat) : Nat := fld (getReg s (eqReg e 0x20)) 0 8

/-- Sending a message: its queue's records count as signalled. -/
def sendMsix (e : Nat) (s : State) : State :=
  let s1 := setEvQ e { getEvQ s e with unsig := 0, urgent := false, waits := false } s
  { s1 with host := { s1.host with sent := s1.host.sent ++ [evqVec s e] } }

/-- MSIX_SEND (R347): timer says that EQ_COAL's time has passed since the first record not signalled. -/
def execMsixSend (q : Nat) (timer : Bool) (s : State) : Host.Outcome State Fault Refusal :=
  let x := getEvQ s q
  .next (if 16 < q ∨ x.unsig = 0 ∨ ¬ (timer ∨ x.urgent ∨ fld (getReg s (eqReg q 0x28)) 0 16 ≤ x.unsig) then s
    else if mget false s.host.unmasked (evqVec s q) then sendMsix q s
    else
      let s1 := setEvQ q { x with waits := true } s
      { s1 with host := { s1.host with pba := mset false s1.host.pba (evqVec s q) true } })

/-- MSIX_UNMASK (R347): a pending message is sent. -/
def execMsixUnmask (v : Nat) (s : State) : Host.Outcome State Fault Refusal :=
  .next (if 256 ≤ v then s
    else
      let pend := mget false s.host.pba v
      let s1 := { s with host := { s.host with
        unmasked := mset false s.host.unmasked v true, pba := mset false s.host.pba v false } }
      if pend then
        let es := (List.range 17).filter fun e => (getEvQ s e).waits && decide (evqVec s e = v)
        let s2 := es.foldl (fun s e => setEvQ e { getEvQ s e with unsig := 0, urgent := false, waits := false } s) s1
        { s2 with host := { s2.host with sent := s2.host.sent ++ [v] } }
      else s1)

end Sys2Proof.Machine
end

