-- ==== Sys2Proof/Machine/Archive.lean ====
section
/-! DEFINITION. Archive images: taking, streaming out, checking and restoring them (R26, R27, R370 to R385, R389). -/

namespace Sys2Proof.Machine

/-! ### The parts of an image (R370 to R372) -/

/-- A section: STYPE, SBUF and its bytes. -/
structure ArchSec where
  typ : Nat
  buf : Nat := 0
  bytes : List Byte
  deriving DecidableEq, Repr

/-- The next 64-B boundary. -/
def up64 (n : Nat) : Nat := cdiv n 64 * 64

/-- Where sections of these sizes start, each at a 64-B boundary from o on. -/
def secOffsets (o : Nat) : List Nat → List Nat
  | [] => []
  | n :: l => up64 o :: secOffsets (up64 o + n) l

/-- The bytes of an image with sections of these sizes: it ends where its last section does. -/
def imageSize (sizes : List Nat) : Nat :=
  sizes.foldl (fun o n => up64 o + n) (64 + 32 * sizes.length)

/-- The Catalog of a client as it will stand at its next step's first tick, by buffer name (R371). -/
def archMap (s : State) (c : Nat) : List (Nat × Entry) :=
  (applyStaged s.cat.ents (s.cat.staging.filter fun x => decide (x.owner = c))).filter fun x => x.2.ownedBy c

/-- The words of an entry. -/
def Entry.words (e : Entry) : List Word := [e.w0, e.w1, e.w2, e.w3, e.w4, e.w5, e.w6, e.w7]

/-- The Catalog map section: 72 bytes for each defined entry, by die and handle. -/
def mapBytes (m : List (Nat × Entry)) : List Byte :=
  m.flatMap fun x => bytesOf (BitVec.ofNat 64 (x.1 / 4096 + 4 * (x.1 % 4096)) :: x.2.words)

/-- The sizes of the governor's state and snapshot areas of a client's set; none without a table (R251, R372). -/
def govSizes (s : State) (c : Nat) : Nat × Nat :=
  match govOf s c with
  | some g => (32 * govNL s g, 592 * govNT s g)
  | none => (0, 0)

/-- Bytes of a Bookmark (R372). -/
def bookmarkSize (s : State) (c : Nat) : Nat :=
  48 + 8 * (laneGroups (getClient s c)).length + (govSizes s c).1 + (govSizes s c).2

/-- A lane group's counter base (R374). -/
def laneBase (s : State) (c g : Nat) : Nat := mget 0 (getClient s c).arch.bases g

/-- Poisoned bytes are written as 0xFF (R380). -/
def unpoison (bs : List (Byte × Bool)) : List Byte := bs.map fun x => if x.2 then 0xFF#8 else x.1

/-- Reading bytes of a buffer for an image, with whether a word was poisoned. -/
def archRead (c name : Nat) (e : Entry) (off n : Nat) (s : State) : List Byte × Bool × State :=
  let (bs, s1) := readBuf c e (name / 4096) off n s
  (unpoison bs, anyPoison bs, s1)

/-- The Bookmark: data position, counter bases, the governor's state and snapshot areas (R372). -/
def bookmark (c : Nat) (s : State) : List Byte × Bool × State :=
  let own := dataPos s c ++ (laneGroups (getClient s c)).flatMap fun g => leBytes 8 (laneBase s c g)
  match govOf s c with
  | none => (own, false, s)
  | some g =>
    let (a, p, s1) := archRead c g (getEnt s g) (govStOff s g) (govSizes s c).1 s
    let (b, q, s2) := archRead c g (getEnt s1 g) (govSnOff s1 g) (govSizes s1 c).2 s1
    (own ++ a ++ b, p || q, s2)

/-- The data sections of an archive list. -/
def dataSections (c : Nat) (m : List (Nat × Entry)) (names : List Nat) (s : State) : List ArchSec × Bool × State :=
  names.foldl (fun (acc : List ArchSec × Bool × State) n =>
    let e := mget {} m n
    let (bs, p, s1) := archRead c n e 0 e.len acc.2.2
    (acc.1 ++ [{ typ := 3, buf := n, bytes := bs }], acc.2.1 || p, s1)) ([], false, s)

/-- An entry of the section table. -/
def secEntry (x : ArchSec) (o : Nat) : List Byte :=
  leBytes 8 (x.typ + 256 * x.buf) ++ leBytes 8 o ++ leBytes 8 x.bytes.length ++ leBytes 8 (crc32c x.bytes).toNat

/-- The section table and the sections; what fills up to a boundary is open (log 4). -/
def imageBody (l : List ArchSec) (pad : Nat) : List Byte :=
  let sizes : List Nat := l.map fun x => x.bytes.length
  let offs := secOffsets (64 + 32 * l.length) sizes
  let table := (l.zip offs).flatMap fun x => secEntry x.1 x.2
  (l.zip offs).foldl (fun (acc : List Byte) x =>
    acc ++ (List.range (x.2 - 64 - acc.length)).map (Config.padByte pad) ++ x.1.bytes) table

/-- Bytes 0 to 59 of an image header. Fields the module does not know are open: NMOD of the partition, and PSIG and SEED
where the client has no plate set or no seed (log 4). -/
def headerBytes (c : Nat) (n : Nat) (size : Nat) (tainted : Bool) (x y : Word) (s : State) : List Byte :=
  let cl := getClient s c
  let psig := match cl.set with | some p => p.psig | none => fld x 0 32
  let seed := match cl.seed with | some v => v | none => y.toNat
  leBytes 8 (0x5241584B + 2 ^ 32 + 2 ^ 48 * n) ++ leBytes 8 cl.next ++
  leBytes 8 (moduleId s % 4096 + 2 ^ 12 * cl.job + 2 ^ 28 * c + 2 ^ 32 * (getDict s (dkey 0x5101 c)).toNat) ++
  leBytes 8 (psig + 2 ^ 32 * (1 + fld x 32 12) + 2 ^ 45 * b2n tainted + 2 ^ 46 * b2n cl.arch.lastAborted) ++
  leBytes 8 size ++ leBytes 8 (s.tick % 2 ^ 40) ++ leBytes 8 seed ++ leBytes 4 0

/-- Whether the scope word of the last step has UNCOVERED set (R380). -/
def lastUncovered (s : State) (c : Nat) : Bool := bit (getDict s (dkey 0xA000 (0x10 + c))) 6

/-- Taking the image of a client: its bytes, whether a capture read met poison, and whether it is tainted. -/
def takeImage (c : Nat) (names : List Nat) (s : State) : List Byte × Bool × State :=
  let (x, s1) := fresh s
  let (y, s2) := fresh s1
  let m := archMap s2 c
  let (bk, p, s3) := bookmark c s2
  let (ds, q, s4) := dataSections c m names s3
  let secs : List ArchSec := { typ := 1, bytes := mapBytes m } :: { typ := 2, bytes := bk } :: ds
  let body := imageBody secs s4.free
  let h := headerBytes c secs.length (64 + body.length) (p || q || lastUncovered s c) x y s
  (h ++ leBytes 4 (crc32c h).toNat ++ body, p || q, { s4 with free := s4.free + 1 })

/-! ### ARCHIVE_OUT (R376) -/

/-- Reading the archive list of a command: buffer names, whether a word was poisoned. -/
def archNames (c : Nat) (ws : List Word) (s : State) : List Nat × Bool × State :=
  let name := fld (nth 0 ws 5) 0 14
  let n := fld (nth 0 ws 5) 32 32
  let (bs, s1) := readBuf c (getEnt s name) (name / 4096) 0 (2 * n) s
  let v := plain bs
  ((List.range n).map (fun i => leNat ((v.drop (2 * i)).take 2) % 2 ^ 14), anyPoison bs, s1)

/-- Whether a command's archive list cannot be read: no byte buffer of the client that holds it, or a count that no image
can hold (R5, R370). -/
def archListBad (s : State) (c : Nat) (ws : List Word) : Bool :=
  let e := getEnt s (fld (nth 0 ws 5) 0 14)
  let n := fld (nth 0 ws 5) 32 32
  decide (n = 0) || decide (65533 < n) || !e.ownedBy c || e.tensor || decide (e.len < 2 * n)

/-- The sizes of an image's sections. -/
def archSizes (s : State) (c : Nat) (names : List Nat) : List Nat :=
  let m := archMap s c
  72 * m.length :: bookmarkSize s c :: names.map fun n => (mget {} m n).len

/-- Bytes of a die's part of the staging area: its map records and buffers, and on die 0 what the lead Registrar writes
(R377, log). -/
def partSize (s : State) (c d : Nat) (names : List Nat) : Nat :=
  let m := archMap s c
  let own := 72 * (m.filter fun x => decide (x.1 / 4096 = d)).length
  let lead := if d = 0 then 64 + 32 * (names.length + 2) + bookmarkSize s c else 0
  (names.filter fun n => decide (n / 4096 = d)).foldl (fun o n => up64 o + (mget {} m n).len) (up64 (own + lead))

/-- Whether a die's part of the staging area cannot stand where a command puts it (R376). -/
def stageBad (s : State) (c stage : Nat) (names : List Nat) : Bool :=
  (List.range 4).any fun d =>
    let n := partSize s c d names
    let a := stage + d * 0x6C00000000
    decide (0x6C00000000 < stage + n) || rangesMeet stage n (getClient s c).saveAddr (326 * 2 ^ 20) ||
      s.cat.ents.any fun x => decide (x.2.kind = 2) && rangesMeet a n x.2.saddr x.2.len

/-- Whether an image cannot be taken for a command's words and list (R376). -/
def archBad (s : State) (c : Nat) (ws : List Word) (names : List Nat) : Bool :=
  names.any (fun n => decide ((mget {} (archMap s c) n).kind = 0)) ||
  decide ((nth 0 ws 2).toNat < imageSize (archSizes s c names)) || decide (fld (nth 0 ws 1) 0 6 ≠ 0) ||
  decide (fld (nth 0 ws 4) 0 12 ≠ 0) || stageBad s c (fld (nth 0 ws 4) 0 44) names ||
  decide (posWord (dataPos s c) 0 / 2 ^ 32 = 0)

/-- Changing a client's Archive state. -/
def updArch (c : Nat) (f : ArchSt → ArchSt) (s : State) : State :=
  setClient c { getClient s c with arch := f (getClient s c).arch } s

/-- ARCH_STATE of a client (R389). -/
def setArchState (c n : Nat) (s : State) : State := setDict (dkey 0x9001 c) (BitVec.ofNat 64 n) s

/-- Capturing: the image is staged, in the place of every staged image it meets, and streams out (R377, R378). -/
def captureImage (c : Nat) (j : ArchJob) (names : List Nat) (s : State) : State :=
  let stage := fld (nth 0 j.words 4) 0 44
  let (img, p, s1) := takeImage c names s
  let keep (x : Nat × List (Byte × Bool)) : Bool := !rangesMeet stage img.length x.1 x.2.length
  setArchState c 2 (updArch c (fun a =>
    { a with armed := none, out := some { j with image := img, poison := p },
             staged := mset [] (a.staged.filter keep) stage (img.map fun b => (b, false)) }) s1)

/-- An ARCHIVE_OUT command of a client. One that would capture while an image streams out waits (log). -/
def archiveOut (h : HostCmd) (s : State) : State :=
  let c := queueClient h.q
  let cl := getClient s c
  let arm := bit (h.w 3) 0
  let j : ArchJob := { q := h.q, cmdid := h.id, notify := h.notify, words := h.words }
  if archListBad s c h.words then cmdDone h stRefused 0 s
  else
    let (names, poison, s1) := archNames c h.words s
    if poison ∨ archBad s c h.words names ∨ (arm ∧ cl.arch.armed.isSome) then cmdDone h stRefused 0 s1
    else if arm then updArch c (fun a => { a with armed := some j }) s1
    else if cl.run.isSome then cmdDone h stBusy 0 s1
    else if cl.arch.out.isSome then holdHost h s
    else
      let s2 := captureImage c j names s1
      updArch c (fun a => { a with armed := cl.arch.armed }) s2

/-- ARCHIVE_OUT (R376). -/
def execArchiveOut (q : Nat) (s : State) : Host.Outcome State Fault Refusal := .next (withHost 0x03 q s archiveOut)

/-! ### Scheduled captures and streaming out (R377 to R380) -/

/-- A capture that is skipped: its event, its count (R379). -/
def skipCapture (c : Nat) (streaming : Bool) (s : State) : State :=
  post 0x0701 c (if streaming then 1 else 2) (bumpDict (dkey 0x9000 0x02) 1 s)

/-- ARCHIVE_CAPTURE (R377, R379): the scheduled capture at the boundary that ends a step. An armed command whose conditions
no longer hold completes REFUSED, and its capture is skipped (log). -/
def execArchiveCapture (c : ClientId) (s : State) : Host.Outcome State Fault Refusal :=
  let a := (getClient s c.val).arch
  .next (if ¬ a.due then s
    else
      let s0 := updArch c.val (fun a => { a with due := false }) s
      match a.armed with
      | none => skipCapture c.val a.out.isSome s0
      | some j =>
        if a.out.isSome then skipCapture c.val true s0
        else
          let (names, poison, s1) := archNames c.val j.words s0
          if archListBad s0 c.val j.words ∨ poison ∨ archBad s1 c.val j.words names then
            skipCapture c.val false (hostDone j.q j.cmdid j.notify stRefused 0
              (updArch c.val (fun a => { a with armed := none }) s1))
          else captureImage c.val j names s1)

/-- TAINTED of an image. -/
def imageTainted (img : List Byte) : Bool := (leNat ((img.drop 24).take 8)).testBit 45

/-- ARCHIVE_STREAM_OUT (R378, R380): the staged image reaches the host, and the command completes. -/
def execArchiveStreamOut (c : ClientId) (s : State) : Host.Outcome State Fault Refusal :=
  .next (match (getClient s c.val).arch.out with
    | none => s
    | some j =>
      let n := j.image.length
      let s1 := setArchState c.val 0 (updArch c.val (fun a => { a with out := none }) s)
      let a := (nth 0 j.words 1).toNat
      if ¬ hostOk s a n then hostDone j.q j.cmdid j.notify stHostFault 0 s1
      else
        let s2 := bumpLedger c.val 0x11 n (hostWrite a j.image s1)
        let s3 := bumpDict (dkey 0x9000 0x04) n (bumpDict (dkey 0x9000 0x01) 1 s2)
        let s4 := if imageTainted j.image then bumpDict (dkey 0x9000 0x03) 1 s3 else s3
        hostDone j.q j.cmdid j.notify (if j.poison then stPoisoned else stOk) 0 s4)

/-! ### Restore: the checks (R381, R383 to R385) -/

/-- Bytes [o, o + n) of a list. -/
def slice (bs : List Byte) (o n : Nat) : List Byte := (bs.drop o).take n

/-- Word i of a byte list. -/
def wordAt (bs : List Byte) (i : Nat) : Word := BitVec.ofNat 64 (leNat (slice bs (8 * i) 8))

/-- An entry of an image's section table: STYPE, SBUF, SOFF, SBYTES, SCRC. -/
structure SecInfo where
  typ : Nat
  buf : Nat
  off : Nat
  size : Nat
  crc : Nat
  deriving DecidableEq, Repr

/-- NSEC and IBYTES of an image. -/
def imgSecs (img : List Byte) : Nat := fld (wordAt img 0) 48 16
def imgBytes (img : List Byte) : Nat := (wordAt img 4).toNat

/-- The section table of an image. -/
def imgTable (img : List Byte) : List SecInfo :=
  (List.range (imgSecs img)).map fun i =>
    let e := slice img (64 + 32 * i) 32
    { typ := fld (wordAt e 0) 0 8, buf := fld (wordAt e 0) 8 14, off := (wordAt e 1).toNat, size := (wordAt e 2).toNat,
      crc := fld (wordAt e 3) 0 32 }

/-- A section's bytes. -/
def secBytes (img : List Byte) (x : SecInfo) : List Byte := slice img x.off x.size

/-- Whether a section's bytes match its CRC. -/
def secGood (img : List Byte) (x : SecInfo) : Bool := decide ((crc32c (secBytes img x)).toNat = x.crc)

/-- A record of a Catalog map: its buffer name and entry words. -/
def mapRec (bs : List Byte) (i : Nat) : Nat × List Word :=
  let ws := wordsOf 9 (slice bs (72 * i) 72)
  (fld (nth 0 ws 0) 0 2 * 4096 + fld (nth 0 ws 0) 2 12, ws.drop 1)

/-- The Catalog map of an image. -/
def imgMap (img : List Byte) (x : SecInfo) : List (Nat × List Word) :=
  (List.range (x.size / 72)).map (mapRec (secBytes img x))

/-- The entry of a map record. -/
def recEntry (ws : List Word) : Entry := CatRec.result { ctl := 0, w := ws } {}

/-- The entry that a map gives a buffer. -/
def mapEntry (m : List (Nat × List Word)) (name : Nat) : Entry :=
  match m.find? fun x => decide (x.1 = name) with
  | some x => recEntry x.2
  | none => {}

/-- Section n of a table. -/
def secAt (t : List SecInfo) (n : Nat) : SecInfo := nth { typ := 0, buf := 0, off := 0, size := 0, crc := 0 } t n

/-- Reason 1, HEADER_BAD: avail is how many bytes the image may have. A table that is not laid out as R370 and R371 say
counts as bad (log). -/
def headerBad (img : List Byte) (avail : Nat) : Bool :=
  let t := imgTable img
  let m := secAt t 0
  decide (avail < 64) || decide (fld (wordAt img 0) 0 32 ≠ 0x5241584B) || decide (fld (wordAt img 0) 32 16 ≠ 1) ||
  decide ((crc32c (slice img 0 60)).toNat ≠ fld (wordAt img 7) 32 32) || decide (avail < imgBytes img) ||
  decide (imgSecs img < 3) || decide (imgBytes img < 64 + 32 * imgSecs img) ||
  decide (m.typ ≠ 1) || decide ((secAt t 1).typ ≠ 2) || (t.drop 2).any (fun x => decide (x.typ ≠ 3)) ||
  t.any (fun x => decide (x.off % 64 ≠ 0) || decide (imgBytes img < x.off + x.size)) ||
  !secGood img m || !secGood img (secAt t 1) || decide (m.size % 72 ≠ 0) ||
  (t.drop 2).any fun x => decide ((mapEntry (imgMap img m) x.buf).len ≠ x.size)

/-- Reason 2, IDENTITY. -/
def identityBad (s : State) (c : Nat) (img : List Byte) : Bool :=
  decide (fld (wordAt img 2) 0 12 ≠ moduleId s) || decide (fld (wordAt img 2) 12 16 ≠ (getClient s c).job) ||
  decide (fld (wordAt img 2) 28 4 ≠ c)

/-- Reason 3, PLATES. -/
def platesBad (s : State) (c : Nat) (img : List Byte) : Bool :=
  (match (getClient s c).set with
    | some p => decide (fld (wordAt img 3) 0 32 ≠ p.psig)
    | none => true) || decide ((secAt (imgTable img) 1).size ≠ bookmarkSize s c)

/-- Whether numbers rise strictly. -/
def rising : List Nat → Bool
  | x :: y :: l => decide (x < y) && rising (y :: l)
  | _ => true

/-- Reason 4, MANIFEST (R381). -/
def manifestBad (img man : List Byte) : Bool :=
  let n := fld (wordAt man 0) 16 13
  let ents := (List.range n).map fun i => (wordAt man (4 + 2 * i), wordAt man (5 + 2 * i))
  decide (man.length ≠ 32 + 16 * n) ||
  decide ((crc32c (man.take 28 ++ man.drop 32)).toNat ≠ fld (wordAt man 3) 32 32) ||
  !rising (ents.map fun e => fld e.1 0 12) ||
  decide (fld (wordAt man 0) 0 16 ≠ fld (wordAt img 2) 12 16) || decide (n ≠ fld (wordAt img 3) 32 13) ||
  decide (fld (wordAt man 0) 32 32 ≠ fld (wordAt img 2) 32 32) || decide (wordAt man 1 ≠ wordAt img 1) ||
  !ents.any fun e => decide (fld e.1 0 12 = fld (wordAt img 2) 0 12) &&
    decide (fld e.1 32 32 = fld (wordAt img 7) 32 32) && decide (e.2 = wordAt img 4)

/-- The step index that a data position implies; none where it is not defined (R373). -/
def posStep (bs : List Byte) : Option Nat :=
  let per := posWord bs 0 / 2 ^ 32
  let used := posWord bs 0 % 2 ^ 32 * posWord bs 3 + posWord bs 1
  if per = 0 ∨ used % per ≠ 0 then none else some (posWord bs 4 + used / per)

/-- A saved counter base of a Bookmark. -/
def savedBase (bk : List Byte) (i : Nat) : Nat := leNat (slice bk (48 + 8 * i) 8)

/-- Reason 6, BOOKMARK (R385): a saved base may be one ahead. -/
def bookmarkBad (groups : Nat) (img bk : List Byte) : Bool :=
  match posStep bk with
  | none => true
  | some p => decide ((wordAt img 1).toNat ≠ p) ||
      (List.range groups).any fun i => decide (savedBase bk i ≠ p) && decide (savedBase bk i ≠ p + 1)

/-- The reason of a failure in phase 1 (R384). -/
def checkReason (s : State) (c avail : Nat) (img man : List Byte) : Option Nat :=
  let bk := secBytes img (secAt (imgTable img) 1)
  if headerBad img avail then some 1
  else if identityBad s c img then some 2
  else if platesBad s c img then some 3
  else if manifestBad img man then some 4
  else if bookmarkBad (laneGroups (getClient s c)).length img bk then some 6
  else if imageTainted img then some 7
  else none

/-! ### Restore: data and apply (R384) -/

/-- Phase 2: the data sections, each written raw, then its CRC checked; false at the first that fails. -/
def restoreData (c : Nat) (img : List Byte) (m : List (Nat × List Word)) (l : List SecInfo) (s : State) : Bool × State :=
  l.foldl (fun (acc : Bool × State) x =>
    if acc.1 then
      (secGood img x, writeBuf c (mapEntry m x.buf) (x.buf / 4096) 0 (secBytes img x) acc.2)
    else acc) (true, s)

/-- Writing the map records, in order; the first refusal's code (R170, R171). -/
def restoreMap (c : Nat) (m : List (Nat × List Word)) (s : State) : Option Nat × State :=
  m.foldl (fun (acc : Option Nat × State) x =>
    match acc.1 with
    | some _ => acc
    | none =>
      match catWrite (some c) ⟨x.1 / 4096 % 4, Nat.mod_lt _ (by decide)⟩
          { ctl := BitVec.ofNat 64 (x.1 % 4096), w := x.2 } acc.2 with
      | (.refused k, s1) => (some k, s1)
      | (_, s1) => (none, s1)) (none, s)

/-- The governor's state and snapshot areas, and every patch word from ABASE + ASHIFT (R260, R384). -/
def restoreGov (c : Nat) (bk : List Byte) (s : State) : State :=
  match govOf s c with
  | none => s
  | some g =>
    let o := 48 + 8 * (laneGroups (getClient s c)).length
    let (n, k) := govSizes s c
    let s1 := writeBuf c (getEnt s g) (g / 4096) (govStOff s g) (slice bk o n) s
    let s2 := writeBuf c (getEnt s1 g) (g / 4096) (govSnOff s1 g) (slice bk (o + n) k) s1
    (List.range (govNL s2 g)).foldl (fun s l =>
      (layerPatches s g l).foldl (patchAnchor c (toSigned 8 (fld (layerState s g l 0) 32 8))) s) s2

/-- The last step of phase 3: data position, step index, bases, seed, mapping generation, RESTORE_SET, scope word. -/
def restoreClient (c p : Nat) (img bk man : List Byte) (s : State) : State :=
  let cl := getClient s c
  let bases := (laneGroups cl).foldl (fun m g => mset 0 m g p) cl.arch.bases
  let s1 := setClient c { cl with
    next := p, seed := some (wordAt img 6).toNat, scope := 0,
    arch := { cl.arch with bases := bases, lastAborted := false } } (setDataPos c (bk.take 48) s)
  setDict (dkey 0xA000 (0x20 + c)) (BitVec.ofNat 64 p - 1) (setDict (dkey 0xA000 (0x10 + c)) 0
    (setDict (dkey 0x5101 c) (BitVec.ofNat 64 (fld (wordAt img 2) 32 32))
      (setDict (dkey 0x9004 c) (BitVec.ofNat 64 (fld (wordAt man 3) 32 32)) s1)))

/-- The warnings of groups whose saved base is one ahead (R385). -/
def warnBases (c p : Nat) (bk : List Byte) (s : State) : State :=
  (laneGroups (getClient s c)).zipIdx.foldl (fun s x =>
    if savedBase bk x.2 = p + 1 then post 0x0702 c x.1 (bumpDict (dkey 0x9000 0x07) 1 s) else s) s

/-- A restore that fails in phase 2 or 3. -/
def restoreFailed (h : HostCmd) (reason : Nat) (s : State) : State :=
  let c := queueClient h.q
  cmdDone h stLoadFailed reason (bumpDict (dkey 0x9000 0x06) 1
    (setArchState c 5 (setClient c { getClient s c with set := none } s)))

/-- Phases 2 and 3 of a restore whose image has passed phase 1. dataOk says that its data sections can be read. -/
def applyImage (h : HostCmd) (img man : List Byte) (dataOk : Bool) (s : State) : State :=
  let c := queueClient h.q
  let t := imgTable img
  let m := imgMap img (secAt t 0)
  let bk := secBytes img (secAt t 1)
  let p := (wordAt img 1).toNat
  let s0 := warnBases c p bk s
  let (ok, s1) := if dataOk then restoreData c img m (t.drop 2) s0 else (false, s0)
  if ¬ ok then restoreFailed h 5 s1
  else
    let s2 := undefEntries c ((List.finRange 4).foldl (fun s d => discardStaged d c s) s1)
    match restoreMap c m s2 with
    | (some k, s3) => restoreFailed h (8 + 256 * k) s3
    | (none, s3) =>
      let s4 := freshStats (getClient s3 c) (restoreGov c bk s3)
      cmdDone h stOk 0 (bumpDict (dkey 0x9000 0x05) 1 (setArchState c 4 (restoreClient c p img bk man s4)))

/-- Bytes of the host or of a staged copy that a restore reads: the image, its poison, what it may have, whether what phase 1
reads can be read, whether the rest can. -/
def restoreSource (h : HostCmd) (s : State) : List Byte × Bool × Nat × Bool × Bool :=
  if bit (h.w 3) 0 then
    let bs := mget [] (getClient s (queueClient h.q)).arch.staged (fld (h.w 4) 0 44)
    (plain bs, anyPoison bs, bs.length, true, true)
  else
    let a := (h.w 1).toNat
    let n := min (h.w 2).toNat (leNat (hostBytes s (a + 32) 8))
    let img := hostBytes s a n
    let t := imgTable img
    let head := 64 + 32 * min (imgSecs img) (n / 32)
    let reach (x : SecInfo) : Bool := hostOk s (a + x.off) x.size
    (img, false, (h.w 2).toNat, hostOk s a head && ((t.take 2).all reach), (t.drop 2).all reach)

/-- A RESTORE_IN command of a client. -/
def restoreIn (h : HostCmd) (s : State) : State :=
  let c := queueClient h.q
  let ma := (h.w 5).toNat
  let mn := fld (h.w 6) 0 32
  let (img, poison, avail, headOk, dataOk) := restoreSource h s
  if (getClient s c).run.isSome then cmdDone h stBusy 0 s
  else if (getClient s c).set.isNone then cmdDone h stNoPlates 0 s
  else if ¬ headOk ∨ ¬ hostOk s ma mn then cmdDone h stHostFault 0 s
  else
    let man := hostBytes s ma mn
    match checkReason s c avail img man with
    | some r => cmdDone h stRefused r (bumpDict (dkey 0x9000 0x06) 1 s)
    | none =>
      let n := (if bit (h.w 3) 0 then 0 else img.length) + mn
      applyImage h img man (dataOk && !poison) (bumpLedger c 0x11 n s)

/-- RESTORE_IN (R27, R383, R384). -/
def execRestoreIn (q : Nat) (s : State) : Host.Outcome State Fault Refusal := .next (withHost 0x04 q s restoreIn)

end Sys2Proof.Machine
end

