-- ==== Sys2Proof/Machine/Crypto.lean ====
section
/-! DEFINITION. SHA-384 (FIPS 180-4) and the verification of an ECDSA P-384 signature (FIPS 186-5), which R396 and R424 name. PRESUMED (log 45): the standards' own text. -/

namespace Sys2Proof.Machine

/-! ### SHA-384 -/

/-- The largest r below 2^n with r^k at most x, bit by bit. -/
def rootBits (k x : Nat) : Nat → Nat → Nat
  | 0, r => r
  | n + 1, r => rootBits k x n (if (r + 2 ^ n) ^ k ≤ x then r + 2 ^ n else r)

/-- The first 64 bits of the fractional part of the k-th root of p. -/
def rootFrac (k p : Nat) : BitVec 64 := BitVec.ofNat 64 (rootBits k (p * 2 ^ (64 * k)) 70 0)

/-- The first 80 primes. -/
def primes80 : List Nat := ((List.range 410).drop 2).filter fun n => ((List.range n).drop 2).all fun d => decide (n % d ≠ 0)

/-- The constants of the 80 rounds: the cube roots of the first 80 primes. -/
def shaK : List (BitVec 64) := primes80.map (rootFrac 3)

/-- The initial value of SHA-384: the square roots of the ninth to sixteenth primes. -/
def shaInit : List (BitVec 64) := ((primes80.drop 8).take 8).map (rootFrac 2)

/-- Big-endian bytes of a number. -/
def beBytes (n v : Nat) : List (BitVec 8) := (leBytes n v).reverse

/-- The number a big-endian byte list spells. -/
def beNat (bs : List (BitVec 8)) : Nat := leNat bs.reverse

/-- A message with its padding: 1, zeros, its length in bits. -/
def shaPad (bs : List (BitVec 8)) : List (BitVec 8) :=
  bs ++ 0x80#8 :: (List.replicate ((239 - bs.length % 128) % 128) 0#8 ++ beBytes 16 (8 * bs.length))

/-- The message schedule: n more words. -/
def shaSched : Nat → List (BitVec 64) → List (BitVec 64)
  | 0, l => l
  | n + 1, l =>
    let w (i : Nat) : BitVec 64 := nth 0 l (l.length - i)
    let s0 (x : BitVec 64) : BitVec 64 := x.rotateRight 1 ^^^ x.rotateRight 8 ^^^ (x >>> 7)
    let s1 (x : BitVec 64) : BitVec 64 := x.rotateRight 19 ^^^ x.rotateRight 61 ^^^ (x >>> 6)
    shaSched n (l ++ [s1 (w 2) + w 7 + s0 (w 15) + w 16])

/-- One round on the eight working variables. -/
def shaRound (v : List (BitVec 64)) (kw : BitVec 64) : List (BitVec 64) :=
  let x (i : Nat) : BitVec 64 := nth 0 v i
  let e := x 4
  let a := x 0
  let t1 := x 7 + (e.rotateRight 14 ^^^ e.rotateRight 18 ^^^ e.rotateRight 41) + ((e &&& x 5) ^^^ (~~~e &&& x 6)) + kw
  let t2 := (a.rotateRight 28 ^^^ a.rotateRight 34 ^^^ a.rotateRight 39) + ((a &&& x 1) ^^^ (a &&& x 2) ^^^ (x 1 &&& x 2))
  [t1 + t2, a, x 1, x 2, x 3 + t1, e, x 5, x 6]

/-- One block of 128 bytes. -/
def shaBlock (h : List (BitVec 64)) (blk : List (BitVec 8)) : List (BitVec 64) :=
  let m := (List.range 16).map fun i => BitVec.ofNat 64 (beNat ((blk.drop (8 * i)).take 8))
  let v := ((shaSched 64 m).zip shaK).foldl (fun v x => shaRound v (x.1 + x.2)) h
  (h.zip v).map fun x => x.1 + x.2

/-- The SHA-384 digest, 48 bytes. -/
def sha384 (bs : List (BitVec 8)) : List (BitVec 8) :=
  let p := shaPad bs
  let h := (List.range (p.length / 128)).foldl (fun h i => shaBlock h ((p.drop (128 * i)).take 128)) shaInit
  (h.take 6).flatMap fun x => beBytes 8 x.toNat

/-! ### ECDSA P-384 -/

/-- The field, the order of the base point, the curve's constant b (its a is -3), and the base point. -/
def p384 : Nat := 2 ^ 384 - 2 ^ 128 - 2 ^ 96 + 2 ^ 32 - 1
def n384 : Nat :=
  0xffffffffffffffffffffffffffffffffffffffffffffffffc7634d81f4372ddf581a0db248b0a77aecec196accc52973
def b384 : Nat :=
  0xb3312fa7e23ee7e4988e056be3f82d19181d9c6efe8141120314088f5013875ac656398d8a2ed19d2a85c8edd3ec2aef
def g384 : Nat × Nat :=
  (0xaa87ca22be8b05378eb1c71ef320ad746e1d3b628ba79b9859f741e082542a385502f25dbf55296c3a545e3872760ab7,
   0x3617de4a96262c6f5d9e98bf9292dc29f8f41dbd289a147ce9da3113b5f0b8c00a60b1ce1d7e819d7a431d7c90ea0e5f)

/-- A power modulo m, by the low n bits of the exponent. -/
def powMod (m b e : Nat) : Nat → Nat
  | 0 => 1 % m
  | n + 1 =>
    let h := powMod m (b * b % m) (e / 2) n
    if e % 2 = 1 then b * h % m else h

/-- An inverse modulo a prime below 2^384 (Fermat). -/
def invMod (m x : Nat) : Nat := powMod m (x % m) (m - 2) 384

/-- Adding points; none is the point at infinity. -/
def ecAdd : Option (Nat × Nat) → Option (Nat × Nat) → Option (Nat × Nat)
  | none, q => q
  | p, none => p
  | some (x1, y1), some (x2, y2) =>
    if x1 = x2 ∧ (y1 + y2) % p384 = 0 then none
    else
      let l := if x1 = x2 then (3 * x1 * x1 + p384 - 3) * invMod p384 (2 * y1) % p384
        else (y2 + p384 - y1) * invMod p384 (x2 + p384 - x1) % p384
      let x3 := (l * l + 2 * p384 - x1 - x2) % p384
      some (x3, (l * (x1 + p384 - x3) + p384 - y1) % p384)

/-- A multiple of a point, by the low n bits of the factor. -/
def ecMul (k : Nat) (p : Option (Nat × Nat)) : Nat → Option (Nat × Nat)
  | 0 => none
  | n + 1 =>
    let h := ecMul (k / 2) (ecAdd p p) n
    if k % 2 = 1 then ecAdd p h else h

/-- Verifying a signature (r, s) over a digest under a public key: 48 bytes of each number, most significant first. -/
def ecdsaVerify (key digest sig : List (BitVec 8)) : Bool :=
  let x := beNat (key.take 48)
  let y := beNat (key.drop 48)
  let r := beNat (sig.take 48)
  let t := beNat (sig.drop 48)
  let w := invMod n384 t
  let u1 := beNat digest * w % n384
  let u2 := r * w % n384
  decide (key.length = 96) && decide (sig.length = 96) && decide (x < p384) && decide (y < p384) &&
  decide ((x * x * x + b384 + 3 * (p384 - x)) % p384 = y * y % p384) &&
  decide (0 < r) && decide (r < n384) && decide (0 < t) && decide (t < n384) &&
  match ecAdd (ecMul u1 (some g384) 384) (ecMul u2 (some (x, y)) 384) with
  | some q => decide (q.1 % n384 = r)
  | none => false

end Sys2Proof.Machine
end

