-- ==== Sys2Proof/Machine/Stacks.lean ====
section
/-! DEFINITION. Stack controllers, unassigned addresses and BAR2 (R324 to R334, R338). -/

namespace Sys2Proof.Machine

/-- STACK_READ (R330). -/
def execStackRead (r : Access) (u : List Upset) (s : State) : Host.Outcome State Fault Refusal :=
  .next (readAccess 2 r (strike u s))

/-- STACK_WRITE (R330). -/
def execStackWrite (r : Access) (data : List Byte) (u : List Upset) (s : State) : Host.Outcome State Fault Refusal :=
  .next (writeAccess 2 r data (strike u s))

/-- The address of offset so of a stack: stack_place backwards (R326). -/
def stackAddr (i so : Nat) : Nat := i / 6 * 0x6C00000000 + (so / 4096 * 6 + i % 6) * 4096 + so % 4096

/-- Check groups of a stack: 72 GiB of 256 B (R325). -/
def stackGroups : Nat := 301989888

/-- STACK_SCRUB (R331): a check group is read, and what is corrected is rewritten. -/
def execStackScrub (i : StackId) (group : Nat) (u : List Upset) (s : State) : Host.Outcome State Fault Refusal :=
  let k := stackAddr i.val (group % stackGroups * 256) / 8
  let s0 := strike u s
  .next (if stackFailed s0 i.val then s0 else (List.range 32).foldl (fun s j => (readWord 16 true (k + j) s).2) s0)

/-- Copying a stack's words to its spare die: words are corrected, poison is kept (R332). -/
def recopyStack (i : Nat) (s : State) : State :=
  let ws := (s.mem.synd.map (·.1)).filter fun w => decide (regionOf (8 * w) = .stack i)
  ws.foldl (fun s w =>
    let r := peekWord s w
    if r.poison then { s with mem := s.mem.setWord w (s.mem.rawWord w) poisonSynd }
    else countCorrected w { s with mem := s.mem.setWord w r.val 0 }) s

/-- The DRAM die whose swap is queued for a stack (R433); where none is, the die that the controller retires is open
(log 4). -/
def wornDie (i : Nat) (s : State) : Nat × State :=
  match s.wearS.queue.find? fun x => decide (x.kind = 5) && decide (x.die.val = i / 6) && decide (x.unit = i % 6) with
  | some x => (x.item, s)
  | none =>
    let (v, s1) := fresh s
    (fld v 0 4, s1)

/-- Retiring a DRAM die of a stack for its spare (R332, R433). -/
def spareStackDie (i : Nat) (s : State) : State :=
  let a := stkBlk i 0
  if bit (getReg s a) 2 ∨ stackFailed s i then s
  else
    let (die, s1) := wornDie i (recopyStack i s)
    doneSwap 5 (i / 6) (i % 6) die 15
      (setDict (dkey 0x3000 0x02) (getDict s1 (dkey 0x3000 0x02) ||| 1#64 <<< i) (setBit a 2 s1))

/-- STACK_DIE_SPARE (R332). -/
def execStackDieSpare (i : StackId) (s : State) : Host.Outcome State Fault Refusal := .next (spareStackDie i.val s)

/-- Aborting the step of every client that has one, for a cause that names none of them (R229, R333). -/
def abortAll (code detail : Nat) (s : State) : State :=
  (List.range 16).foldl (fun s c => match (getClient s c).step with
    | some st =>
      if st.aborted then s
      else setClient c { getClient s c with step := some { st with
             aborted := true, fcode := code, fdetail := detail, forigin := moduleId s } } s
    | none => s) s

/-- Setting STAGE_FAULT, with its event (R394, R401). -/
def stageFault (n : Nat) (s : State) : State :=
  post 0x0801 16 n (setDict (dkey 0x2000 0x02) (BitVec.ofNat 64 n) s)

/-- A stack is marked failed: its state, its event, and in Edition the abort of every client's step (R333). -/
def failStack (i : Nat) (training : Bool) (s : State) : State :=
  let a := stkBlk i 0
  let up := dkey 0x3000 0x01
  let s1 := setDict up (getDict s up &&& ~~~(1#64 <<< i)) (setReg a (setFld (getReg s a) 0 2 2) s)
  let detail := i + 32 * b2n training
  let s2 := post 0x0601 16 detail s1
  if training then stageFault 2 s2 else abortAll 0x0601 detail s2

/-- STACK_FAILED (R333). -/
def execStackFailed (i : StackId) (training : Bool) (s : State) : Host.Outcome State Fault Refusal :=
  .next (if stackFailed s i.val then s else failStack i.val training s)

/-! ### Unassigned addresses (R334) -/

/-- Whether an offset of a die's control space is assigned (R334). -/
def ctlAssigned (o : Nat) : Bool :=
  decide (o < 0x100000) && decide (o % 0x10000 < 0x4000) || decide (0x100000 ≤ o) && decide (o < 0x104000) ||
  decide (0x110000 ≤ o) && decide (o < 0x114000) || decide (0x120000 ≤ o) && decide (o < 0x122000) ||
  decide (0x130000 ≤ o) && decide (o < 0x131000) || decide (0x140000 ≤ o) && decide (o < 0x141000) ||
  decide (0x150000 ≤ o) && decide (o < 0x156000) || decide (0x200000 ≤ o) && decide (o < 0x302000) ||
  decide (0x310000 ≤ o) && decide (o < 0x310500) || decide (0x320000 ≤ o) && decide (o < 0x320500) ||
  decide (0x400000 ≤ o) && decide (o < 0x480000) || decide (0x800000 ≤ o) && decide (o < 0xB00000)

/-- Whether the module address map assigns an address (R334). -/
def assigned (a : Nat) : Bool :=
  decide (a < 0x1B000000000) || decide (0xF0000000000 ≤ a) && decide (a < 0xF0040000000) ||
  decide (0xFF000000000 ≤ a) && decide (a < 0xFF400000000) && ctlAssigned (a % 0x100000000) ||
  decide (0xFF800000000 ≤ a) && decide (a < 0xFF804000000)

/-- The port at which the host reads a module address. -/
def hostPort : Nat := 4096

/-- ADDRESS_ERROR (R334): an access to an unassigned address reads 0 or is discarded, and posts its event. -/
def execAddressError (a : Nat) (write : Bool) (s : State) : Host.Outcome State Fault Refusal :=
  .next (if assigned a then s
    else
      let s1 := if write then s else { s with ports := mset [] s.ports hostPort (List.replicate 8 (0#8, false)) }
      post 0x0204 16 (a % 2 ^ 44) s1)

/-! ### BAR2 (R338) -/

/-- Where a BAR2 access of n bytes lands: none when BAR2_BASE is reserved (R337). -/
def bar2Addr (s : State) (off : Nat) : Option Nat :=
  let b := fld (getReg s (bar0 0x8)) 36 8
  if 27 ≤ b then none else some (b * 2 ^ 36 + off)

/-- What a BAR2 read returns: its bytes, all 0xFF with EP where it meets poison (R338). -/
def bar2Read (off n : Nat) (s : State) : State :=
  match bar2Addr s off with
  | none => { s with host := { s.host with bar2 := List.replicate n 0#8, ep := false } }
  | some a =>
    let (bs, s1) := readMem 16 false a n s
    if anyPoison bs then { s1 with host := { s1.host with bar2 := List.replicate n 0xFF#8, ep := true } }
    else { s1 with host := { s1.host with bar2 := plain bs, ep := false } }

/-- BAR2_ACCESS (R338): within the 64 GiB of BAR2. -/
def execBar2Access (off : Nat) (write : Bool) (n : Nat) (data : List Byte) (s : State) :
    Host.Outcome State Fault Refusal :=
  .next (if ¬ s.start.sketched ∨ 2 ^ 36 < off + (if write then data.length else n) then s
    else if write then
      match bar2Addr s off with
      | some a => writeMem 16 a data s
      | none => s
    else bar2Read off n s)

end Sys2Proof.Machine
end

