-- ==== Sys2Proof/Machine/Start.lean ====
section
/-! DEFINITION. Power, the staged start, resets, firmware slots and saved entries (R85 to R87, R183, R268, R339, R390 to R402, R441, R442, R447). -/

namespace Sys2Proof.Machine

/-! ### What a reset keeps (R183, R391, R399, R428, R431) -/

/-- Entries kept in fuses, in flash or in the controller's record: the free fuse records, the lowest accepted security
version, the Errata counts, the records ever logged, the trips. -/
def lastingEntries : List Nat :=
  [dkey 0x1000 0x15, dkey 0x1000 0x16, dkey 0x1000 0x17, dkey 0x1000 0x18, dkey 0x2000 0x0D, dkey 0x2100 0x0E,
   dkey 0x8000 0x02, dkey 0x8000 0x03, dkey 0xA000 0x03]

/-- NODE_ID_OVERRIDE: a change takes effect at the next cold reset, saved or not (R416). -/
def overrideKey : Nat := dkey 0x1100 0x02

/-- Totals that the entry tables count since Ground or since power-on, and NODE_ID_OVERRIDE: a cold reset keeps them
(DEDUCED, log 93). -/
def groundEntries : List Nat :=
  [overrideKey, dkey 0x2000 0x09, dkey 0x2100 0x12, dkey 0x4010 0x01, dkey 0x4030 0x04, dkey 0x4030 0x05, dkey 0x4030 0x06,
   dkey 0x4040 0x02, dkey 0x4040 0x03, dkey 0x5000 0x12, dkey 0x5100 0x09, dkey 0x6000 0x09, dkey 0x7000 0x08,
   dkey 0x1100 0x09, dkey 0x8000 0x0F, dkey 0xF000 0x03]

/-- CUR_KEY1, all zeros after Ground (R426). -/
def curKey : Nat := dkey 0xF000 0x02

/-- Identities of every agent of the module (R182). -/
def allIds : List Nat :=
  (List.range 16).flatMap seqIds ++ (List.range 4).flatMap (fun d => (List.range 4).map fun c => lockId 0 d (16 + c)) ++
    [lockId 0 0 32]

/-- Entries of a map whose keys a list holds. -/
def keepKeys {α : Type} (m : SMap α) (ks : List Nat) : SMap α := m.filter fun x => ks.contains x.1

/-- The module after a power-on or a cold reset, before Sketch: flash, fuses, the host's memory and what has left the module
stand; a cold reset keeps the rails, the stacks, totals since Ground, and every agent's epoch, advanced. -/
def downState (power : Bool) (s : State) : State :=
  let ks := if power then lastingEntries else lastingEntries ++ groundEntries
  { State.reset with
    mem := if power then {} else s.mem,
    dict := keepKeys s.dict ks,
    blobs := if power then {} else { blobs := keepKeys s.blobs.blobs [curKey] },
    sat := if power then [] else s.sat.filter fun x => ks.any fun k => decide (k / 256 = x.1 / 2 ^ 48),
    cat := if power then {} else { epochs := (bumpEpochs allIds s).cat.epochs },
    host := { mem := s.host.mem, failLo := s.host.failLo, failHi := s.host.failHi, sent := s.host.sent },
    logs := if power then { errlog := s.logs.errlog } else { errlog := s.logs.errlog, errWait := s.logs.errWait },
    start := { rails := s.start.rails, good := !power && s.start.good, goodTick := s.start.goodTick,
               tripped := s.start.tripped, tripNote := s.start.tripNote, flash := s.start.flash, saved := s.start.saved,
               resetNow := if power then 1 else 2 },
    wearS := { errata := s.wearS.errata, rows := s.wearS.rows },
    can := { sent := s.can.sent },
    cur := { out := s.cur.out },
    ledger := if power then [] else keepKeys s.ledger [16 * 32 + 2],
    tick := if power then 0 else s.tick,
    pending := s.pending,
    free := s.free }

/-- A reset carried out: LAST_RESET and RESET_COUNT (R401). -/
def noteReset (kind : Nat) (s : State) : State :=
  bumpDictW 32 (dkey 0x2000 0x09) 1 (setDict (dkey 0x2000 0x08) (BitVec.ofNat 64 kind) s)

/-- A reset asked for: it is absorbed, and counted, while one as strong or stronger is in progress; with the rails off it
has no effect (R400, R442). -/
def askReset (kind : Nat) (f : State → State) (s : State) : State :=
  if ¬ s.start.rails then s
  else if s.start.resetNow ≠ 0 ∧ s.start.resetNow ≤ kind then bumpDictW 32 (dkey 0x2000 0x09) 1 s
  else f s

/-! ### Ground (R390, R441, R442, R447) -/

/-- POWER_SEQUENCE (R441): vin is the lowest input voltage, in mV, over the last ms milliseconds. Above 54.0 V the spec
guarantees nothing (R11, R440). -/
def execPowerSequence (vin ms : Nat) (s : State) : Host.Outcome State Fault Refusal :=
  if 54000 < vin then .fault .outsideLimits
  else .next (if vin < 47500 ∨ ms < 10 ∨ s.start.tripped ∨ s.start.good then s
    else { s with start := { s.start with rails := true, good := true, goodTick := s.tick } })

/-- PWR_GOOD_LOST (R399, R441): the power-on reset; the rails stay up. -/
def execPwrGoodLost (s : State) : Host.Outcome State Fault Refusal :=
  .next (if s.start.good then downState true s else s)

/-- Switching every rail off. -/
def railsOff (s : State) : State :=
  let s1 := downState true s
  { s1 with start := { s1.start with rails := false } }

/-- PRESENT_N_RISE (R447). -/
def execPresentNRise (s : State) : Host.Outcome State Fault Refusal := .next (railsOff s)

/-- PROTECTIVE_TRIP (R442): the cause and the last tick stand in the controller's record. -/
def execProtectiveTrip (thermal current : Bool) (s : State) : Host.Outcome State Fault Refusal :=
  .next (if (!thermal && !current) || !s.start.rails then s
    else
      let s1 := bumpDictW 16 (dkey 0x2100 0x0E) 1 s
      railsOff { s1 with start := { s1.start with
        tripped := true, tripNote := some (b2n thermal + 2 * b2n current, s.tick % 2 ^ 40) } })

/-- TRIP_RELEASE (R442). -/
def execTripRelease (s : State) : Host.Outcome State Fault Refusal :=
  .next { s with start := { s.start with tripped := false } }

/-! ### Stages (R390 to R393, R401) -/

/-- Milliseconds since PWR_GOOD rose. -/
def sinceGood (s : State) : Nat := (s.tick - s.start.goodTick) / 1000

/-- Entering a stage: STAGE, its entry time, its event (R401). -/
def enterStage (n : Nat) (s : State) : State :=
  let s1 := setDict (dkey 0x2000 0x01) (BitVec.ofNat 64 n) s
  let s2 := if 1 ≤ n ∧ n ≤ 3 then setDict (dkey 0x2000 (2 + n)) (BitVec.ofNat 64 (sinceGood s)) s1 else s1
  post 0x0004 16 n s2

/-! ### Sketch (R391, R416, R432) -/

/-- The logical bank of a die that a physical bank serves. -/
def bankServed (s : State) (d phys : Nat) : Option Nat :=
  (List.range 512).find? fun b => decide (mget b s.banks.map (d * 512 + b) = phys)

/-- Spare banks of a die in use, with FOLIO_SPARES_FREE (R193, R195). -/
def setSpareBanks (d n : Nat) (s : State) : State :=
  setDict (dkey 0x3100 (3 + d)) (BitVec.ofNat 64 (16 - n))
    { s with banks := { s.banks with used := mset 0 s.banks.used d n } }

/-- Redirecting the logical bank that a physical bank serves. -/
def mapBank (d frm dst : Nat) (s : State) : State :=
  let s1 := setSpareBanks d (max (mget 0 s.banks.used d) (dst - 511)) s
  match bankServed s d frm with
  | some b => { s1 with banks := { s1.banks with map := mset b s1.banks.map (d * 512 + b) dst } }
  | none => s1

/-- Clearing a bit of an entry. -/
def clearEntryBit (k i : Nat) (s : State) : State := setDict k (getDict s k &&& ~~~(1#64 <<< i)) s

/-- The physical tile of a logical tile. -/
def physTile (s : State) (d t : Nat) : Nat := mget t s.start.tileMap (16 * d + t)

/-- Redirecting the logical tile that a physical tile serves to the spare. -/
def mapTile (d frm dst : Nat) (s : State) : State :=
  let s1 := clearEntryBit (dkey 0x8000 0x0C) d s
  match (List.range 16).find? fun t => decide (physTile s d t = frm) with
  | some t => { s1 with start := { s1.start with tileMap := mset t s1.start.tileMap (16 * d + t) dst } }
  | none => s1

/-- Letting a die's spare core serve for a worn one. -/
def mapCore (d frm : Nat) (s : State) : State :=
  let s1 := clearEntryBit (dkey 0x8000 0x0E) d s
  { s1 with start := { s1.start with spareCore := mset 0 s1.start.spareCore d (frm + 1) } }

/-- Marking a stack's spare die as used. -/
def useStackSpare (i : Nat) (s : State) : State :=
  setDict (dkey 0x3000 0x02) (getDict s (dkey 0x3000 0x02) ||| 1#64 <<< i) (setBit (stkBlk i 0) 2 s)

/-- Applying a record of the Errata map (R432). -/
def applyErrata (s : State) (r : Errata) : State :=
  match r.kind with
  | 3 => mapTile r.die r.frm r.to s
  | 4 => mapBank r.die r.frm r.to s
  | 5 => useStackSpare (6 * r.die + r.unit) s
  | 7 => setReg (portStatus r.unit) (setFld (getReg s (portStatus r.unit)) 3 3 r.frm) s
  | 8 => { s with wearS := { s.wearS with portMap := mset r.frm s.wearS.portMap r.frm r.to } }
  | 9 => mapCore r.die r.frm s
  | _ => s

/-- Loading fuses and applying the map: what is fused first, then the pending repairs, each in entry order. A map that
fails its check keeps the fused records alone (R432). -/
def loadErrata (mapBad : Bool) (s : State) : State :=
  let s1 := if mapBad then setErrata (s.wearS.errata.filter fun r => !r.pending) s else s
  (s1.wearS.errata.filter Errata.pending).foldl applyErrata
    ((s1.wearS.errata.filter fun r => !r.pending).foldl applyErrata s1)

/-- Entries whose default is a fuse (R7); the lowest security version never falls (R396). -/
def loadFuses (s : State) : State :=
  let s1 := [dkey 0x1000 0x10, dkey 0x1000 0x12, dkey 0x1000 0x13].foldl (fun s k => setDict k (Config.fuse k) s) s
  let k := dkey 0x2000 0x0D
  let v := (Config.fuse k).toNat % 65536
  setDict k (BitVec.ofNat 64 (max v (getDict s1 k).toNat)) s1

/-- A bank that the Folio test found bad: a spare takes its place (R391, R433). -/
def retireBank (s : State) (x : DieId × Nat) : State :=
  let d := x.1.val
  let n := mget 0 s.banks.used d
  match bankServed s d x.2 with
  | none => s
  | some _ =>
    if 16 ≤ n then noSpare 4 d 0 x.2 s
    else recordSwap 4 d 0 x.2 (512 + n) 2 0 (mapBank d x.2 (512 + n) s)

/-- Zero-filling every Folio line, with valid check bits (R391). -/
def zeroFolio (s : State) : State :=
  let folio (a : Nat) : Bool := decide (0xF0000000000 ≤ a)
  { s with mem := { cells := mdrop s.mem.cells folio, synd := mdrop s.mem.synd fun k => folio (8 * k), owner := [] } }

/-- NODE_ID from the override or the straps; node 0 only listens (R416). -/
def takeNodeId (strap : BitVec 7) (s : State) : State :=
  let v := getDict s (dkey 0x1100 0x02)
  let id : Word := if v ≠ 0 then v else strap.setWidth 64
  let s1 := setDict (dkey 0x1100 0x01) id (setDict (dkey 0x1100 0x03) (strap.setWidth 64) s)
  if id = 0 then setDict (dkey 0x1100 0x04) 3 s1 else s1

/-- The PCIe link trains, to a lower rate or width with its event (R336, R391). -/
def trainPcie (speed width : Nat) (s : State) : State :=
  let s1 := setDict (dkey 0x1100 0x21) (BitVec.ofNat 64 width) (setDict (dkey 0x1100 0x20) (BitVec.ofNat 64 speed) s)
  if speed < 64 ∨ width < 16 then post 0x0602 16 (speed % 256 + 256 * (width % 256)) s1 else s1

/-- The event of a protective trip, from the controller's record, with the latched tick (R442). -/
def tellTrip (s : State) : State :=
  match s.start.tripNote with
  | none => s
  | some (cause, t) =>
    postEvent { code := 0x0804, sev := 4, detail := cause, tick := t } { s with start := { s.start with tripNote := none } }

/-- Reloading the entries that CFG_SAVE stored (R399); after a cold reset NODE_ID_OVERRIDE stays as written (R416). -/
def reloadSaved (cold : Bool) (s : State) : State :=
  s.start.saved.foldl (fun s x => if cold ∧ x.1 = overrideKey then s else setDict x.1 x.2 s) s

/-- Sketch's work (R391). -/
def sketchWork (m : SketchIn) (s : State) : State :=
  let s1 := { s with start := { s.start with sketched := true, resetNow := 0 } }
  let s2 := takeNodeId m.strap (reloadSaved (s.start.resetNow = 2) (loadErrata m.mapBad (loadFuses s1)))
  let s3 := trainPcie m.speed m.width (tellTrip (enterStage 1 (zeroFolio (m.folioBad.foldl retireBank s2))))
  let s4 := { s3 with cat := { epochs := s3.cat.epochs } }
  if m.fuseBad = [] then s4 else stageFault 5 s4

/-- SKETCH_ENTRY (R391): it follows the release of PWR_GOOD, or a cold reset. -/
def execSketchEntry (m : SketchIn) (s : State) : Host.Outcome State Fault Refusal :=
  .next (if ¬ s.start.good ∨ s.start.sketched then s else sketchWork m s)

/-! ### Boot images (R396, R397, R402) -/

/-- Bytes of a firmware slot. -/
def slotSize : Nat := 2 ^ 25

/-- A firmware slot's contents. -/
def slotImage (s : State) (k : Nat) : List Byte := (List.range slotSize).map fun i => mget 0#8 s.start.flash (k * slotSize + i)

/-- Whether an image passes R396. -/
def imageGood (s : State) (img : List Byte) : Bool :=
  let key := Config.imageKey img
  let digest := sha384 (Config.imageBody img)
  decide (sha384 key = (List.range 48).map Config.keyDigest) &&
  decide ((getDict s (dkey 0x2000 0x0D)).toNat ≤ (Config.imageSvn img).toNat) &&
  decide (digest = Config.imageDigest img) && ecdsaVerify key digest (Config.imageSig img)

/-- Running the image of a slot. -/
def bootSlot (k : Nat) (fallback : Bool) (s : State) : State :=
  let img := slotImage s k
  let s1 := { s with start := { s.start with firmware := true, svn := (Config.imageSvn img).toNat } }
  let s2 := setDict (dkey 0x2000 0x0B) (BitVec.ofNat 64 k) (setDict (dkey 0x1000 0x04) ((Config.imageRelease img).setWidth 64) s1)
  if fallback then post 0x0802 16 k (bumpDictW 32 (dkey 0x2000 0x0E) 1 s2) else s2

/-- BOOT_VERIFY (R396, R397): the preferred slot, then the other; where neither passes, Sketch recovery. -/
def execBootVerify (s : State) : Host.Outcome State Fault Refusal :=
  .next (if ¬ s.start.sketched ∨ s.start.firmware ∨ stageOf s ≠ 1 then s
    else
      let k := (getDict s (dkey 0x2000 0x0C)).toNat % 2
      if imageGood s (slotImage s k) then bootSlot k false s
      else if imageGood s (slotImage s (1 - k)) then bootSlot (1 - k) true s
      else stageFault 1 (enterStage 0x81 s))

/-- FW_UPD_DATA: bytes go to the slot that does not run, at FW_UPD_OFFSET, which advances (R402); with the abort code. -/
def fwData (bs : List Byte) (s : State) : Nat × State :=
  let k := dkey 0x2000 0x10
  let o := (getDict s k).toNat
  let slot := 1 - (getDict s (dkey 0x2000 0x0B)).toNat % 2
  if bs.length = 0 ∨ 65536 < bs.length then (6, s)
  else if slotSize < o + bs.length then (7, s)
  else
    let fl := bs.zipIdx.foldl (fun m x => mset 0#8 m (slot * slotSize + o + x.2) x.1) s.start.flash
    (0, setDict k (BitVec.ofNat 64 (o + bs.length)) { s with start := { s.start with flash := fl } })

/-- FW_UPD_COMMIT: verifying the other slot; one that passes is preferred, and that entry alone is stored (R402). -/
def fwCommit (s : State) : Nat × State :=
  let slot := 1 - (getDict s (dkey 0x2000 0x0B)).toNat % 2
  let k := dkey 0x2000 0x0C
  if imageGood s (slotImage s slot) then
    let s1 := setDict k (BitVec.ofNat 64 slot) s
    (0, { s1 with start := { s1.start with saved := mset (dictDefault k) s1.start.saved k (BitVec.ofNat 64 slot) } })
  else (15, s)

/-- Entries that CFG_SAVE stores (R402, R420). -/
def savedEntries : List Nat :=
  ([2, 5, 6, 7, 8, 0x10, 0x11, 0x12].map (dkey 0x1100)) ++ [dkey 0x2000 0x0C] ++
    ([1, 2, 3, 4, 5, 6, 7, 0x0D].map (dkey 0x5000))

/-- CFG_SAVE: storing the entries in the configuration area. -/
def cfgSave (s : State) : State :=
  { s with start := { s.start with
      saved := savedEntries.foldl (fun m k => mset (dictDefault k) m k (getDict s k)) s.start.saved } }

/-- FW_UPD_DATA (R402). -/
def execFwUpdData (data : List Byte) (s : State) : Host.Outcome State Fault Refusal := .next (fwData data s).2

/-- FW_UPD_COMMIT (R402). -/
def execFwUpdCommit (s : State) : Host.Outcome State Fault Refusal := .next (fwCommit s).2

/-- CFG_SAVE (R402). -/
def execCfgSave (s : State) : Host.Outcome State Fault Refusal := .next (cfgSave s)

/-! ### Proof and its tasks (R392, R394, R395) -/

/-- PROOF_ENTRY (R392, R395): with verified firmware and Sketch's work done, TCLK runs at 0.8 GHz. -/
def execProofEntry (s : State) : Host.Outcome State Fault Refusal :=
  .next (if ¬ s.start.firmware ∨ stageOf s ≠ 1 ∨ getDict s (dkey 0x2000 0x02) = 5 then s
    else
      let s1 := setDict (dkey 0x2100 0x10) 800 { s with start := { s.start with tcut := 800 } }
      enterStage 2 s1)

/-- Counting completed tasks. -/
def tasksDone (n : Nat) (s : State) : State :=
  let k := dkey 0x2000 0x07
  setDict k (BitVec.ofNat 64 ((getDict s k).toNat + n)) s

/-- The rows that wait for a stack's repair are repaired, and recorded (R432, R433). -/
def repairRows (i : Nat) (s : State) : State :=
  let mine (x : Swap) : Bool := decide (x.die.val = i / 6) && decide (x.unit = i % 6)
  let l := s.wearS.rows.filter mine
  l.foldl (fun s x => recordSwap 6 x.die.val x.unit 0 0 x.cause x.row s)
    { s with wearS := { s.wearS with rows := s.wearS.rows.filter fun x => !mine x } }

/-- A trained stack: up, every word written once with valid check bits (R333, R394). -/
def stackUp (i : Nat) (s : State) : State :=
  let inStack (a : Nat) : Bool := decide (regionOf a = .stack i)
  let s1 := { s with mem := { s.mem with
    cells := mdrop s.mem.cells inStack, synd := mdrop s.mem.synd fun k => inStack (8 * k) } }
  let k := dkey 0x3000 0x01
  setDict k (getDict s1 k ||| 1#64 <<< i) (setReg (stkBlk i 0) (setFld (getReg s1 (stkBlk i 0)) 0 2 1) s1)

/-- STACK_TRAINING (R394): one stack of a die is trained, or fails. -/
def execStackTraining (i : StackId) (ok : Bool) (s : State) : Host.Outcome State Fault Refusal :=
  .next (if ¬ inProof s ∨ fld (getReg s (stkBlk i.val 0)) 0 2 ≠ 0 then s
    else
      let s1 := tasksDone 1 (repairRows i.val s)
      if ok then stackUp i.val s1 else failStack i.val true s1)

/-- Quarters of a tile whose one repair of a kind is in use (R85). -/
def quartersUsed (s : State) (kind d tile : Nat) : List Nat :=
  (s.wearS.errata.filter fun r => decide (r.kind = kind) && decide (r.die = d) && decide (r.unit = tile)).map
    fun r => r.frm / 65

/-- Whether a tile's faulty rows, or columns, can be repaired: at most one in each quarter (R85). -/
def repairable (s : State) (kind d tile : Nat) (l : List (Nat × Nat)) : Bool :=
  decide (((l.filter fun x => decide (x.1 = tile)).map fun x => x.2 / 65).Nodup) &&
    (l.filter fun x => decide (x.1 = tile)).all fun x => !(quartersUsed s kind d tile).contains (x.2 / 65)

/-- Whether a physical tile passes self-test (R394). -/
def tilePasses (s : State) (d : Nat) (m : SelfTestIn) (p : Nat) : Bool :=
  bit m.passed p && repairable s 1 d p m.rows && repairable s 2 d p m.cols

/-- Recording the row or column repairs of the tiles that pass (R85, R433): the quarter's last position now serves. -/
def repairLines (kind d cause : Nat) (passed : BitVec 17) (l : List (Nat × Nat)) (s : State) : State :=
  l.foldl (fun s x => if bit passed x.1 then recordSwap kind d x.1 x.2 (x.2 / 65 * 65 + 64) cause 0 s else s) s

/-- The cause that self-test gives a swap (R431). -/
def testCause (s : State) : Nat := if s.start.selftest then 8 else 1

/-- A logical tile whose physical tile has failed: the spare replaces it, if there is one (R87, R434). -/
def replaceTile (d : Nat) (passed : BitVec 17) (s : State) (t : Nat) : State :=
  let p := physTile s d t
  if bit passed p then s
  else if bit passed 16 && bit (getDict s (dkey 0x8000 0x0C)) d then
    recordSwap 3 d p p 16 (testCause s) 0 (mapTile d p 16 s)
  else noSpare 3 d p p s

/-- The logical tiles of a die that are available. -/
def tilesServing (s : State) (d : Nat) (passed : BitVec 17) : List Nat :=
  (List.range 16).filter fun t => bit passed (physTile s d t)

/-- ARRAY_SELF_TEST (R394): a die's 17 physical tiles are tested; rows, columns and one tile are repaired. -/
def execArraySelfTest (d : DieId) (m : SelfTestIn) (s : State) : Host.Outcome State Fault Refusal :=
  .next (if ¬ inProof s ∨ mget 0 s.start.tilesOk d.val ≠ 0 then s
    else
      let passed : BitVec 17 := (List.range 17).foldl (fun (v : BitVec 17) p =>
        if tilePasses s d.val m p then v ||| 1#17 <<< p else v) 0
      let cause := testCause s
      let s1 := repairLines 2 d.val cause passed m.cols (repairLines 1 d.val cause passed m.rows s)
      let s2 := (List.range 16).foldl (replaceTile d.val passed) s1
      let s3 := if bit passed 16 then s2 else clearEntryBit (dkey 0x8000 0x0C) d.val s2
      let ts := tilesServing s3 d.val passed
      let k := dkey 0x2000 0x06
      let s4 := setDict k (ts.foldl (fun (v : Word) t => v ||| 1#64 <<< (16 * d.val + t)) (getDict s3 k)) s3
      let s5 := tasksDone 17 { s4 with start := { s4.start with
        tilesOk := mset 0 s4.start.tilesOk d.val (passed.toNat + 2 ^ 17) } }
      let s6 := post 0x0905 16 (d.val + 4 * passed.toNat) s5
      if ts.length < 16 then stageFault 3 s6 else s6)

/-- The state that a trained port takes: a spare port stands by idle, or serves as a bypass (R275, R294). -/
def trainedState (s : State) (p : Nat) : Nat :=
  let u := (getDict s (dkey 0x5000 0x0D)).toNat
  if p = 7 then (if u % 4 = 2 then 2 else 5)
  else if p = 23 then (if u / 4 % 4 = 2 then 2 else 5)
  else 2

/-- A port's training: the peer it learns, the lane it leaves out (R268, R294, R394, R433). -/
def trainPort (p : Nat) (m : TrainIn) (s : State) : State :=
  let a := portStatus p
  let old := fld (getReg s a) 3 3
  let s1 := setReg a (setFld (setFld (getReg s a) 6 12 m.peerMod) 18 5 m.peerPort) s
  let s2 := setPortState p (if m.up then trainedState s p else 4) s1
  match m.lane with
  | some l =>
    if l < 5 ∧ l ≠ old then
      recordSwap 7 (p / 8) p l old (testCause s) 0 (setReg a (setFld (getReg s2 a) 3 3 l) s2)
    else s2
  | none => s2

/-- LINK_TRAINING (R394): a port whose cable detects a peer trains, and the timing tree is built (R276). -/
def execLinkTraining (p : PortId) (m : TrainIn) (s : State) : Host.Outcome State Fault Refusal :=
  .next (if (stageOf s ≠ 2 ∧ stageOf s ≠ 3) ∨ portState s p.val = 2 ∨ portState s p.val = 3 then s
    else
      let s1 := joinTree (trainPort p.val m s)
      if inProof s && decide (portState s p.val ≤ 1) then tasksDone 1 s1 else s1)

/-- REGISTRAR_CHECK (R394): a die's cores are checked, and the spare core takes the place of one that failed. The code of
STAGE_FAULT where fewer than four work is open (log 4). -/
def execRegistrarCheck (d : DieId) (bad : List (Fin 5)) (s : State) : Host.Outcome State Fault Refusal :=
  let worn : List Nat := ((List.range 4).filter fun c => bad.any fun b => decide (b.val = c))
  let spare := !(bad.any fun b => decide (b.val = 4)) && decide (mget 0 s.start.spareCore d.val = 0)
  .next (if ¬ inProof s ∨ s.start.cores.testBit d.val then s
    else
      let s1 := { s with start := { s.start with cores := s.start.cores ||| 2 ^ d.val } }
      let s2 := if bad.any (fun b => decide (b.val = 4)) then clearEntryBit (dkey 0x8000 0x0E) d.val s1 else s1
      match worn with
      | [] => s2
      | [c] =>
        if spare then recordSwap 9 d.val 0 c 4 (testCause s) 0 (mapCore d.val c s2)
        else
          let (x, s3) := fresh (noSpare 9 d.val 0 c s2)
          stageFault (1 + fld x 0 7) { s3 with start := { s3.start with cores := s.start.cores } }
      | c :: _ =>
        let (x, s3) := fresh (noSpare 9 d.val 0 c s2)
        stageFault (1 + fld x 0 7) { s3 with start := { s3.start with cores := s.start.cores } })

/-- Whether every task of R394 is complete and has met its condition. -/
def tasksMet (s : State) : Bool :=
  (List.range 24).all (fun i => decide (fld (getReg s (stkBlk i 0)) 0 2 = 1)) &&
  decide (getDict s (dkey 0x2000 0x06) = BitVec.allOnes 64) &&
  (List.range 4).all (fun d => decide (mget 0 s.start.tilesOk d ≠ 0)) && decide (s.start.cores = 15) &&
  (List.range 32).all (fun p => decide (portState s p ≠ 1)) &&
  (!(List.range 32).any (fun p => decide (portState s p = 2)) || decide (getDict s (dkey 0x5000 0x08) = 1))

/-- EDITION_ENTRY (R393, R396): every task met, no RUN_STEPS in progress; the lowest accepted security version rises to the
running image's. -/
def execEditionEntry (s : State) : Host.Outcome State Fault Refusal :=
  .next (if ¬ inProof s ∨ ¬ tasksMet s ∨ s.clients.any (fun x => x.2.run.isSome) then s
    else
      let k := dkey 0x2000 0x0D
      let s1 := setDict k (BitVec.ofNat 64 (max s.start.svn (getDict s k).toNat))
        { s with start := { s.start with selftest := false } }
      enterStage 3 s1)

/-- STAGE_TIMEOUT (R394): 120 s have passed since PWR_GOOD without Edition. -/
def execStageTimeout (s : State) : Host.Outcome State Fault Refusal :=
  .next (if ¬ s.start.good ∨ stageOf s = 3 then s else stageFault 4 s)

/-! ### Resets (R339, R399, R400) -/

/-- A cold reset. -/
def coldReset (s : State) : State := askReset 2 (fun s => noteReset 2 (downState false s)) s

/-- COLD_RESET (R399, R447): RST_N low for 10 us or more. -/
def execColdReset (s : State) : Host.Outcome State Fault Refusal := .next (coldReset s)

/-- RESET_REQ_COLD (R401). -/
def execResetReqCold (s : State) : Host.Outcome State Fault Refusal := .next (coldReset s)

/-- Clearing a die's staging: what a client loses there counts as a refused staged write (R175, R319, R399, R400). -/
def clearStaging (d : DieId) (s : State) : State :=
  let cs := (List.range 16).filter fun c => s.cat.staging.any fun x => decide (x.die = d) && decide (x.owner = c)
  let s1 := cs.foldl (fun s c => updStep c (fun st => { st with notReady := true }) s) s
  { s1 with cat := { s1.cat with
      staging := s1.cat.staging.filter fun x => decide (x.die ≠ d), commits := s1.cat.commits.filter fun x => decide (x.die ≠ d) } }

/-- Clients that run on dies that a test selects. -/
def runningOn (s : State) (f : Nat → Bool) : List Nat :=
  (List.range 16).filter fun c => decide ((getClient s c).state = 2 ∨ (getClient s c).state = 4) &&
    (clientDies (getClient s c)).any f

/-- A Registrar core's reset (R399): a lead-die core stops every running client's step, another those on its die; the lead
core, core 0 of die 0 (log), loses the event log and the Curator's level (R424, R428). A worn core gives its place to the
spare (R433). -/
def coreReset (d core : Nat) (s : State) : State :=
  let s1 := if h : d < 4 then clearStaging ⟨d, h⟩ s else s
  let s2 := (runningOn s1 fun x => decide (d = 0) || decide (x = d)).foldl (fun s c => abortStep c s) s1
  let s3 := bumpEpochs [lockId 0 d (16 + core)] s2
  let s4 := if d = 0 ∧ core = 0 then
      setDict (dkey 0xF000 0x01) 0 { s3 with
        logs := { s3.logs with evlog := [] }, cur := { s3.cur with challenge := none } }
    else s3
  let s5 := if s4.wearS.queue.any fun x => x.isOf 9 d 0 core then doneSwap 9 d 0 core 4 (mapCore d core s4) else s4
  noteReset 4 s5

/-- CORE_RESET (R399): the watchdog's, or a request. -/
def execCoreReset (d : DieId) (core : Fin 4) (_watchdog : Bool) (s : State) : Host.Outcome State Fault Refusal :=
  .next (if ¬ s.start.sketched then s else askReset 4 (coreReset d.val core.val) s)

/-- A tile's reset (R399): the step on its die is aborted, its array, vector and stream state is as at admission. -/
def tileReset (t : TileId) (s : State) : State :=
  let d := t.val / 16
  let s1 := if h : d < 4 then clearStaging ⟨d, h⟩ s else s
  let s2 := (runningOn s1 fun x => decide (x = d)).foldl (fun s c => abortStep c s) s1
  let s3 := bumpEpochs ((List.range 16).map fun c => lockId c d (t.val % 16)) (setTile t {} s2)
  noteReset 5 s3

/-- TILE_RESET (R399): a tile hang. -/
def execTileReset (t : TileId) (s : State) : Host.Outcome State Fault Refusal :=
  .next (if ¬ s.start.sketched then s else askReset 5 (tileReset t) s)

/-- RESET_REQ_SELFTEST's refusal and effect (R400): the abort code, and the state back in Proof with the array self-test to
run. -/
def requestTest (s : State) : Nat × State :=
  if stageOf s ≠ 3 ∨ s.clients.any (fun x => decide (x.2.state ≠ 0)) then (8, s)
  else
    let k := dkey 0x2000 0x07
    let s1 := setDict k (BitVec.ofNat 64 ((getDict s k).toNat - 68)) (setDict (dkey 0x2000 0x06) 0
      { s with start := { s.start with selftest := true, tilesOk := [], tcut := 800 } })
    (0, enterStage 2 (setDict (dkey 0x2100 0x10) 800 s1))

/-- RESET_REQ_SELFTEST (R400). -/
def execResetReqSelftest (s : State) : Host.Outcome State Fault Refusal := .next (requestTest s).2

/-- The BAR0 registers at their reset values: queues, doorbells, MSI-X, mailbox; records that wait for a queue stay held. -/
def clearBar0 (s : State) : State :=
  { s with
    regs := mdrop s.regs (fun a => decide (0xFF800000000 ≤ a) && decide (a < 0xFF804000000)),
    host := { s.host with
      fetched := [], tails := [], stopped := [], unmasked := [], pba := [],
      queues := (s.host.queues.map fun x => (x.1, ({ hold := x.2.hold } : EvQ))).filter fun x => decide (x.2 ≠ {}) },
    mail := {} }

/-- The host reset kind (R339, R399): steps are aborted, commands discarded, clients evicted, BAR0 reset. -/
def hostReset (s : State) : State :=
  let cs := (List.range 16).filter fun c => decide ((getClient s c).state ≠ 0)
  let s1 := cs.foldl (fun s c => abortStep c s) s
  let s2 := { s1 with host := { s1.host with fetched := [] } }
  let s3 := cs.foldl (fun s c => evictClient c false s) s2
  let s4 := bumpEpochs [lockId 0 0 32] { s3 with cat := { s3.cat with staging := [], commits := [] } }
  noteReset 3 (clearBar0 s4)

/-- FUNCTION_LEVEL_RESET (R339). -/
def execFunctionLevelReset (s : State) : Host.Outcome State Fault Refusal := .next (askReset 3 hostReset s)

/-- PCIE_FUNDAMENTAL_RESET (R399). -/
def execPcieFundamentalReset (s : State) : Host.Outcome State Fault Refusal := .next (askReset 3 hostReset s)

end Sys2Proof.Machine
end

