-- ==== Sys2Proof/Machine/Wear.lean ====
section
/-! DEFINITION. Wear, spare swaps, port remaps, fuses and the error log (R275, R426, R428, R433 to R437, R439). -/

namespace Sys2Proof.Machine

/-! ### Triggers (R434 to R436) -/

/-- An entry of the dictionary as a number. -/
def dictNat (s : State) (ix sub : Nat) : Nat := (getDict s (dkey ix sub)).toNat

/-- The threshold of a row of R436's table. -/
def wearThreshold (s : State) (row : Nat) : Nat :=
  match row with
  | 0 => dictNat s 0x8000 0x07
  | 2 => dictNat s 0x8000 0x08
  | 4 => dictNat s 0x8000 0x09
  | 5 => dictNat s 0x8000 0x0A
  | 7 => dictNat s 0x8000 0x0B
  | 8 => 0
  | _ => 2

/-- The count of a trigger: a bank's corrected words are counted in the state, the others come with the command. -/
def wearCount (s : State) (k : WearIn) : Nat :=
  if k.kind = 0 then mget 0 s.wear (k.die.val * 512 + k.item % 512) else k.count

/-- The swap that a row of R436's table asks for: a bank's item is the physical bank that serves it. -/
def wearSwap (s : State) (k : WearIn) : Swap :=
  match k.kind with
  | 0 => { kind := 4, die := k.die, unit := 0, item := physBank s (k.die.val * 512 + k.item % 512), cause := 3 }
  | 1 => { kind := 4, die := k.die, unit := 0, item := physBank s (k.die.val * 512 + k.item % 512), cause := 4 }
  | 2 => { kind := 5, die := k.die, unit := k.unit % 6, item := k.item % 16, cause := 3 }
  | 3 => { kind := 5, die := k.die, unit := k.unit % 6, item := k.item % 16, cause := 4 }
  | 4 => { kind := 6, die := k.die, unit := k.unit % 6, item := 0, cause := 3, row := k.item % 2 ^ 24 }
  | 5 => { kind := 3, die := k.die, unit := k.unit % 17, item := k.unit % 17, cause := 3 }
  | 6 => { kind := 3, die := k.die, unit := k.unit % 17, item := k.unit % 17, cause := 6 }
  | 7 => { kind := 7, die := k.die, unit := k.unit % 32, item := k.item % 5, cause := 5 }
  | 8 => { kind := 8, die := k.die, unit := k.unit % 32, item := k.unit % 32, cause := 7 }
  | _ => { kind := 9, die := k.die, unit := 0, item := k.item % 4, cause := 6 }

/-- Unit kind and physical unit of event 0x0102, where R429 gives them; what it does not give is open (log 4). -/
def wearDetail (s : State) (k : WearIn) (x : Word) : Nat :=
  let w := wearSwap s k
  match w.kind with
  | 4 => 64 * w.item
  | 5 => 1 + 64 * (16 * w.unit + w.item)
  | 6 => 1 + 64 * (16 * w.unit + fld x 0 4)
  | 3 => 2 + fld x 0 1 + 64 * w.unit
  | _ => fld x 0 4 + 64 * fld x 4 10

/-- A standby spare port that can serve for a failed one: cabled to the same peer, and idle (R275). -/
def standbyFor (s : State) (p : Nat) : Option Nat :=
  [7, 23].find? fun x =>
    let u := dictNat s 0x5000 0x0D
    decide ((if x = 7 then u % 4 else u / 4 % 4) = 1) && decide (portState s x = 5) && decide (peerMod s x = peerMod s p) &&
      !s.wearS.portMap.any fun m => decide (m.2 = x)

/-- Whether a spare remains for a swap (R433, R434). -/
def spareLeft (s : State) (w : Swap) : Bool :=
  let d := w.die.val
  match w.kind with
  | 3 => bit (getDict s (dkey 0x8000 0x0C)) d
  | 4 => decide (mget 0 s.banks.used d < 16)
  | 5 => !bit (getReg s (stkBlk (6 * d + w.unit) 0)) 2
  | 6 => decide ((s.wearS.rows.filter fun x => decide (x.die = w.die) && decide (x.unit = w.unit)).length < 64)
  | 7 => decide (fld (getReg s (portStatus w.unit)) 3 3 = 4)
  | 8 => (standbyFor s w.unit).isSome
  | 9 => bit (getDict s (dkey 0x8000 0x0E)) d
  | _ => false

/-- Whether a swap of the unit is queued already (R435). -/
def swapQueued (s : State) (w : Swap) : Bool :=
  s.wearS.queue.any (fun x => x.isOf w.kind w.die.val w.unit w.item) ||
    s.wearS.rows.any fun x => decide (w.kind = 6) && x.isOf 6 w.die.val w.unit w.item && decide (x.row = w.row)

/-- Queueing a swap; a row waits in its stack's queue (R433). -/
def queueSwap (w : Swap) (s : State) : State :=
  if w.kind = 6 then { s with wearS := { s.wearS with rows := s.wearS.rows ++ [w] } }
  else { s with wearS := { s.wearS with queue := s.wearS.queue ++ [w] } }

/-- WEAR_TRIGGER (R434 to R436): a count that has reached its threshold posts its event and queues its swap. A port's
failure triggers where a standby spare is cabled. -/
def execWearTrigger (k : WearIn) (s : State) : Host.Outcome State Fault Refusal :=
  let w := wearSwap s k
  .next (if ¬ s.start.firmware ∨ 10 ≤ k.kind ∨ wearCount s k < wearThreshold s k.kind ∨ swapQueued s w ∨
      (k.kind = 8 ∧ (portState s w.unit ≠ 4 ∨ standbyFor s w.unit = none)) then s
    else
      let (x, s1) := fresh s
      let s2 := post 0x0102 16 (wearDetail s k x + 16 * k.die.val + 2 ^ 16 * (wearCount s k % 2 ^ 32)) s1
      if getDict s2 (dkey 0x8000 0x04) = 0 then s2
      else if spareLeft s2 w then queueSwap w s2
      else noSpare w.kind w.die.val w.unit w.item s2)

/-- WEAR_WINDOW_BOUNDARY (R436). -/
def execWearWindowBoundary (s : State) : Host.Outcome State Fault Refusal := .next { s with wear := [] }

/-! ### Swaps (R275, R433) -/

/-- Whether a client has a step in progress on a die. -/
def stepOnDie (s : State) (d : Nat) : Bool :=
  s.clients.any fun x => x.2.step.isSome && hasDie x.2 d && decide (x.2.state = 2 ∨ x.2.state = 4)

/-- The wear process's tile swap: a tile reset with no step to abort, and the spare takes the tile's place (R399, R433). -/
def swapTile (d : DieId) (p : Nat) (s : State) : State :=
  if stepOnDie s d.val || !bit (getDict s (dkey 0x8000 0x0C)) d.val then s
  else
    match (List.range 16).find? fun t => decide (physTile s d.val t = p) with
    | none => s
    | some t =>
      let s1 := if h : 16 * d.val + t < 64 then tileReset ⟨16 * d.val + t, h⟩ s else s
      doneSwap 3 d.val p p 16 (mapTile d.val p 16 s1)

/-- Mapping a failed port onto a standby spare, at a step boundary of every client that uses it (R275). -/
def remapPort (p : Nat) (s : State) : State :=
  match standbyFor s p with
  | none => s
  | some x =>
    if portState s p ≠ 4 ∨ (clientsOnPort s p).any (fun c => (getClient s c).step.isSome) then s
    else
      let s1 := setPortState x 2 { s with wearS := { s.wearS with
        portMap := mset p s.wearS.portMap p x, queue := s.wearS.queue.filter fun w => !(decide (w.kind = 8) && decide (w.item = p)) } }
      recordSwap 8 (p / 8) p p x 7 0 s1

/-- Whether the wear process swaps a port in: a swap of it is queued, or swaps may be queued (R436). -/
def remapWanted (s : State) (p : Nat) : Bool :=
  decide (getDict s (dkey 0x8000 0x04) ≠ 0) || s.wearS.queue.any fun w => decide (w.kind = 8) && decide (w.item = p)

/-- PORT_REMAP (R275). -/
def execPortRemap (p : PortId) (s : State) : Host.Outcome State Fault Refusal :=
  .next (if remapWanted s p.val then remapPort p.val s else s)

/-- SPARE_SWAP (R433, R435): the k-th queued swap, performed where its unit can take it; else it waits. A core's waits for
the core's next reset. -/
def execSpareSwap (k : Nat) (s : State) : Host.Outcome State Fault Refusal :=
  .next (match s.wearS.queue[k]? with
    | none => s
    | some w =>
      match w.kind with
      | 3 => swapTile w.die w.item s
      | 4 => match bankServed s w.die.val w.item with
        | some b => replaceBank w.die b s
        | none => s
      | 5 => spareStackDie (6 * w.die.val + w.unit) s
      | 7 => if h : w.unit < 32 then askLane ⟨w.unit, h⟩ w.item s else s
      | 8 => remapPort w.item s
      | _ => s)

/-! ### Fuses (R426, R437) -/

/-- Whether a fuse may be blown but for arming and the Curator's level: no client admitted, Proof or Edition, supply and
coolant inlet within limits (R426, R440, R444). -/
def fuseAllowed (s : State) : Bool :=
  !(s.clients.any fun x => decide (x.2.state ≠ 0)) && decide (stageOf s = 2 ∨ stageOf s = 3) &&
  decide (48000 ≤ dictNat s 0x2100 0x01) && decide (dictNat s 0x2100 0x01 ≤ 54000) &&
  decide (10 ≤ dictNat s 0x2100 0x08) && decide (dictNat s 0x2100 0x08 ≤ 40)

/-- The Errata entry e, if it is a pending repair. -/
def pendingRepair (s : State) (e : Nat) : Option Errata := s.wearS.errata[e]?.filter Errata.pending

/-- The outcome of a blow: the record's STATE, its event, and a fuse record consumed by a success (R437). -/
def blowFuse (e : Nat) (r : Errata) (ok : Bool) (s : State) : State :=
  let s1 := setErrata (s.wearS.errata.set e { r with w0 := setFld r.w0 6 2 (if ok then 1 else 2) }) s
  if ok then
    let k := dkey 0x1000 (0x15 + r.die)
    post 0x0903 16 e (setDict k (getDict s1 k - 1) s1)
  else post 0x0904 16 e s1

/-- A line of the Curator's output. -/
def curSay (l : String) (s : State) : State := { s with cur := { s.cur with out := s.cur.out ++ [l] } }

/-- The Curator's prompt, with the present level (R423). -/
def curPrompt (s : State) : String := toString (dictNat s 0xF000 0x01) ++ "> "

/-- A reply of the Curator and its prompt. -/
def curReply (l : String) (s : State) : State := curSay (curPrompt s) (curSay l s)

/-- FUSE_BLOW (R426, R437): a blow that the Curator has started ends, or the Registrar blows a pending repair by itself. With
no fuse record left, the repair stays as it is. -/
def execFuseBlow (e : Nat) (ok : Bool) (s : State) : Host.Outcome State Fault Refusal :=
  .next (match pendingRepair s e with
    | none => s
    | some r =>
      let asked := decide (s.cur.blow = some e)
      let auto := decide (getDict s (dkey 0x8000 0x05) ≠ 0) && fuseAllowed s && s.cur.blow.isNone
      if ¬ asked ∧ ¬ auto then s
      else
        let s0 := if asked then { s with cur := { s.cur with blow := none } } else s
        let free := dictNat s 0x1000 (0x15 + r.die)
        let s1 := if free = 0 then s0 else blowFuse e r ok s0
        if ¬ asked then s1
        else curReply (if ok ∧ 0 < free then "OK" else "ERR 0x0000_0010 HARDWARE") s1)

/-- FUSE_ARM: 0xA5 arms; with the abort code (R426). -/
def armFuse (v : Nat) (s : State) : Nat × State :=
  if v = 0xA5 then (0, setDict (dkey 0xF000 0x05) 1 s) else (7, s)

/-- FUSE_ARM (R426). -/
def execFuseArm (v : Byte) (s : State) : Host.Outcome State Fault Refusal := .next (armFuse v.toNat s).2

/-- FUSE_ARM_EXPIRE (R426): 60 s have passed since arming. -/
def execFuseArmExpire (s : State) : Host.Outcome State Fault Refusal := .next (setDict (dkey 0xF000 0x05) 0 s)

/-! ### The error log (R428, R439) -/

/-- Which of the waiting records are kept when b may be written: a critical record takes the place of the oldest that is
not. The kept, how many are dropped, and those that wait on. -/
def pickRecords (b : Nat) : List Event → List Event × Nat × List Event
  | l => l.foldl (fun (acc : List Event × Nat × List Event) e =>
      let (kept, n, wait) := acc
      if kept.length < b then (kept ++ [e], n, wait)
      else if e.sev < 4 then (kept, n + 1, wait)
      else match kept.findIdx? fun x => decide (x.sev < 4) with
        | some i => (kept.eraseIdx i ++ [e], n + 1, wait)
        | none => (kept, n, wait ++ [e])) ([], 0, [])

/-- ERROR_LOG_WRITE (R428): the Registrar writes what waits to flash, at most 16 records in a second. -/
def execErrorLogWrite (s : State) : Host.Outcome State Fault Refusal :=
  let sec := s.tick / 1000000
  let used := if s.logs.second = sec then s.logs.written else 0
  let (kept, dropped, wait) := pickRecords (16 - used) s.logs.errWait
  let log := s.logs.errlog ++ kept
  let s1 := { s with logs := { s.logs with
    errWait := wait, errlog := log.drop (log.length - 2048), second := sec, written := used + kept.length } }
  .next (bumpDict (dkey 0xA000 0x04) dropped (bumpDict (dkey 0xA000 0x03) kept.length s1))

/-- ERRLOG_CLEAR: 0x5A empties the log; with the abort code (R439). -/
def clearErrlog (v : Nat) (s : State) : Nat × State :=
  if v ≠ 0x5A then (7, s)
  else if s.clients.any (fun x => decide (x.2.state ≠ 0)) then (8, s)
  else (0, { s with logs := { s.logs with errlog := [] } })

/-- ERRLOG_CLEAR (R439). -/
def execErrlogClear (v : Byte) (s : State) : Host.Outcome State Fault Refusal := .next (clearErrlog v.toNat s).2

end Sys2Proof.Machine
end

