-- ==== Sys2Proof/Machine/Dict.lean ====
section
/-! DEFINITION. Reads and writes of the object dictionary (R8, R9, R397, R403 to R406, R417, R419, and the entry tables of every chapter). -/

namespace Sys2Proof.Machine

/-! ### Entries (R403, R417) -/

/-- Type codes (R403). -/
def DType.code : DType → Nat
  | .bool => 1 | .u8 => 2 | .u16 => 3 | .u32 => 4 | .u64 => 5 | .i8 => 6 | .i16 => 7 | .i32 => 8 | .i64 => 9
  | .f32 => 10 | .str => 11 | .domain => 12

/-- Bytes of a fixed-size type; none for STR and DOMAIN (R403). -/
def DType.size : DType → Option Nat
  | .bool => some 1 | .u8 => some 1 | .u16 => some 2 | .u32 => some 4 | .u64 => some 8
  | .i8 => some 1 | .i16 => some 2 | .i32 => some 4 | .i64 => some 8 | .f32 => some 4 | .str => none | .domain => none

/-- Access codes (R403). -/
def DAcc.code : DAcc → Nat
  | .const => 0 | .ro => 1 | .rw => 2 | .wo => 3 | .rwIdle => 4

/-- Entries of a run whose sub-indices do not fill their indices: idle causes and the Ledger. -/
def inGap (k : Nat) : Bool :=
  (decide (0x511000 ≤ k) && decide (k < 0x512000) && (decide (k % 256 = 0) || decide (7 < k % 256))) ||
  (decide (0x711000 ≤ k) && decide (k < 0x712000) && (decide (k % 256 = 0) || decide (0x18 < k % 256)))

/-- The row of an entry that exists. -/
def entryRow (k : Nat) : Option DRow := if inGap k then none else dictRow k

/-- Whether an index exists (R406, R419). -/
def indexExists (ix : Nat) : Bool := dictRows.any fun r => decide (r.lo / 256 ≤ ix) && decide (ix ≤ r.hi / 256)

/-- Characters as bytes. -/
def charBytes (cs : List Char) : List Byte := cs.map fun c => BitVec.ofNat 8 c.toNat

/-- ASCII bytes of a string. -/
def strBytes (x : String) : List Byte := charBytes x.toList

/-- The number that decimal characters spell. -/
def decNat (cs : List Char) : Nat := cs.foldl (fun n c => 10 * n + (c.toNat - 48)) 0

/-- Two hexadecimal characters. -/
def hexDigit (n : Nat) : Char := Char.ofNat (if n < 10 then 48 + n else 55 + n)

/-- Names of the Ledger's entries, sub-indices 1 to 0x18. -/
def ledgerNames : List String :=
  ["T_ARRAY", "T_VECTOR", "T_STREAM", "T_SEQ", "T_HATCH", "T_CPT", "T_DMA", "T_COLL", "B_FOLIO_RD", "B_FOLIO_WR",
   "B_STACK_RD", "B_STACK_WR", "B_BRIDGE", "B_TT_OUT", "B_TT_IN", "B_BE_OUT", "B_HOST", "B_SWITCH", "ENERGY", "OVERRUN",
   "SLOW_LAST", "SLOW_MAX", "STRETCH_TICKS", "STEPS"]

/-- The name of an entry: in a run, the first name's number goes on (R417). -/
def entryName (r : DRow) (k : Nat) : List Char :=
  if k = 0x200004 then "T_PROOF".toList
  else if k = 0x200005 then "T_EDITION".toList
  else if k = 0x500004 then "DIM_Y".toList
  else if k = 0x500005 then "DIM_Z".toList
  else if k = 0x710002 then "LEDGER_ENERGY_TOTAL".toList
  else if k / 256 = 0x4041 then "STALL_TOTAL_".toList ++ [hexDigit (k % 256 / 16), hexDigit (k % 16)]
  else if k / 256 / 16 = 0x711 then "LEDGER_".toList ++ (nth "" ledgerNames (k % 256 - 1)).toList
  else
    let cs := r.name.toList
    let tail := (cs.reverse.takeWhile Char.isDigit).reverse
    if r.lo = r.hi ∨ tail = [] then cs
    else cs.take (cs.length - tail.length) ++ (toString (decNat tail + (k - r.lo))).toList

/-- The largest size of an entry, where R417's two bytes can hold it and the spec gives it. -/
def entrySize (r : DRow) (k : Nat) : Option Nat :=
  match r.ty.size with
  | some n => some n
  | none =>
    if k = 0x100001 ∨ k = 0x100005 then some 12
    else if k = 0x100011 then some 48
    else if k = 0x800001 then some 16384
    else if k = 0xA00001 then some 8192
    else if k = 0xF00002 then some 16
    else if k / 256 = 0x9003 then some 48
    else if 0x7010 ≤ k / 256 ∧ k / 256 ≤ 0x7013 then some 816
    else none

/-- The entry record of R417, 48 bytes; a size that is not given is open (log 4). -/
def entryRecord (r : DRow) (k : Nat) (s : State) : List Byte × State :=
  let (x, s1) := match entrySize r k with
    | some n => (BitVec.ofNat 64 n, s)
    | none => fresh s
  let name := charBytes ((entryName r k).take 44)
  (leBytes 1 r.ty.code ++ leBytes 1 r.acc.code ++ leBytes 2 x.toNat ++ name ++ List.replicate (44 - name.length) 0, s1)

/-! ### Values -/

/-- Whether bank b of an array is being accumulated or drained (R81). -/
def bankBusy (a : ArrayS) (b : Nat) : Bool :=
  (a.passes.any fun p => p.started && !p.vellum && (p.through || decide (p.bank = b))) ||
  (a.drains.any fun d => decide (d.bank = b) && decide (d.done < d.count)) ||
  (a.passes.any fun p => p.due.any fun u => decide (u.bank = b))

/-- ARRAY_STATUS as it reads (R81). -/
def arrayStatus (s : State) (t : TileId) : Nat :=
  fld (getReg s (arrBlk t 0)) 0 7 + 128 * b2n (bankBusy (getArr s t) 0) + 256 * b2n (bankBusy (getArr s t) 1)

/-- The buffer name of a client's governor table; 0xFFFF when there is none (R265). -/
def govName (s : State) (c : Nat) : Nat := (govOf s c).getD 0xFFFF

/-- A mask of ports or clients, bit i of the n set where a test holds. -/
def bitsWhere (n : Nat) (f : Nat → Bool) : Nat := (List.range n).foldl (fun x i => x + 2 ^ i * b2n (f i)) 0

/-- A Ledger total as its entry gives it, stuck at its largest value (R365, R366). -/
def ledgerEntry (s : State) (c sub : Nat) : Nat := min (ledgerUnit sub (mget 0 s.ledger (c * 32 + sub))) (2 ^ 64 - 1)

/-- The value of an entry of a fixed-size type: held elsewhere in the state, or stored. -/
def entryNat (s : State) (k : Nat) : Nat :=
  let ix := k / 256
  let sub := k % 256
  if k = 0x100014 then (s.wearS.errata.filter fun r => decide (fld r.w0 6 2 = 3)).length
  else if k = 0x210010 then tclk s
  else if 0x31000D ≤ k ∧ k ≤ 0x310010 then slotsFree s (sub - 0xD)
  else if ix = 0x4011 then (if h : sub - 1 < 64 then arrayStatus s ⟨sub - 1, h⟩ else 0)
  else if k = 0x50000B then s.tick % 2 ^ 40
  else if k = 0x600002 then ((List.range 16).filterMap (govOf s)).foldl (fun n g => n + govNL s g) 0
  else if ix = 0x6010 then govName s sub
  else if k = 0x700007 then bitsWhere 16 fun c => decide ((getClient s c).state ≠ 0)
  else if ix = 0x7002 then (getClient s sub).state
  else if ix = 0x7003 then (getClient s sub).dies
  else if ix = 0x7004 then (getClient s sub).debt
  else if k = 0x710001 then mget 0 s.ledger (16 * 32 + 1) / 1000
  else if k = 0x710002 then mget 0 s.ledger (16 * 32 + 2) / 1000
  else if ix / 16 = 0x711 then ledgerEntry s (ix % 16) sub
  else if k = 0x80000D then bitsWhere 32 fun p => decide (fld (getReg s (portStatus p)) 3 3 = 4)
  else (getDict s k).toNat

/-- An arbiter's record of a requester, 24 bytes (R364, R368). -/
def arbRecord (a : Arb) (code : Nat) : List Byte :=
  let x := mget {} a.cnts code
  leBytes 8 (min x.grants (2 ^ 64 - 1)) ++ leBytes 8 (min x.wait (2 ^ 64 - 1)) ++ leBytes 4 (min x.maxWait (2 ^ 32 - 1)) ++
    leBytes 4 (min x.withdrawn (2 ^ 32 - 1))

/-- An event record outside the queues, whose PHASE is open (R345, R414, R428, log 4). -/
def openRecord (e : Event) (s : State) : List Byte × State :=
  let (x, s1) := fresh s
  recordBytes e (bit x 0) s1

/-- Event records, oldest first. -/
def logBytes (l : List Event) (s : State) : List Byte × State :=
  l.foldl (fun acc e => let (bs, s1) := openRecord e acc.2; (acc.1 ++ bs, s1)) ([], s)

/-- Blocks whose saturated bit SAT_BLOCKS shows: every one but statistics slots, whose bit is SATD (R368). -/
def satBlocks (s : State) : List Nat :=
  (s.sat.filter fun x => x.2 && !(decide (0xFF000000000 ≤ x.1) && decide (x.1 < 0xFF400000000) &&
    decide (0x200000 ≤ x.1 % 0x100000000) && decide (x.1 % 0x100000000 < 0x300000))).map (·.1)

/-- The bytes of a STR or DOMAIN entry, latched whole (R369, R405). -/
def entryBlob (k : Nat) (s : State) : List Byte × State :=
  if k = 0x100001 then (strBytes "KX-ZK1728-LC", s)
  else if k = 0x100005 then ((List.range 12).map Config.serial, s)
  else if k = 0x100011 then ((List.range 48).map fun i => (Config.fuse (k + 256 * i)).setWidth 8, s)
  else if k = 0x70000C then ((satBlocks s).flatMap (leBytes 8), s)
  else if 0x7010 ≤ k / 256 ∧ k / 256 ≤ 0x7013 then
    ((List.range 34).flatMap (arbRecord (mget {} s.arbs (arbKey (k / 256 - 0x7010) (k % 256)))), s)
  else if k = 0x800001 then (s.wearS.errata.flatMap fun r => leBytes 8 r.w0.toNat ++ leBytes 8 r.w1.toNat, s)
  else if k / 256 = 0x9003 then (dataPos s (k % 256), s)
  else if k = 0xA00001 then logBytes s.logs.evlog s
  else if k = 0xA00002 then logBytes s.logs.errlog s
  else ([], s)

/-! ### Reads (R405, R406) -/

/-- Whether the present stage refuses an index: Sketch recovery serves four (R397). -/
def recoveryRefuses (s : State) (ix : Nat) : Bool :=
  decide (stageOf s = 0x81) && !decide (ix ∈ [0x1000, 0x1100, 0x2000, 0x2100])

/-- The abort code of a request for an entry that no path can reach, and its row (R397, R406, R419). -/
def findEntry (ix sub : Nat) (s : State) : Nat × Option DRow :=
  if recoveryRefuses s ix then (8, none)
  else if ¬ indexExists ix then (1, none)
  else match entryRow (dkey ix sub) with
    | none => (2, none)
    | some r => (0, some r)

/-- A read of an entry: abort code (0: none) and bytes (R8, R403, R405). -/
def dictRead (ix sub : Nat) (s : State) : Nat × List Byte × State :=
  match findEntry ix sub s with
  | (e, none) => (e, [], s)
  | (_, some r) =>
    if r.acc = .wo then (3, [], s)
    else match r.ty.size with
      | some n => (0, leBytes n (entryNat s (dkey ix sub)), s)
      | none => let (bs, s1) := entryBlob (dkey ix sub) s; (0, bs, s1)

/-- The record of an entry: abort code and bytes (R417). -/
def dictInfo (ix sub : Nat) (s : State) : Nat × List Byte × State :=
  match findEntry ix sub s with
  | (e, none) => (e, [], s)
  | (_, some r) => let (bs, s1) := entryRecord r (dkey ix sub) s; (0, bs, s1)

/-! ### Writes (R8, R9, R404) -/

/-- Whether a value lies in the range that its entry's table gives (R404). -/
def inRange (s : State) (k v : Nat) : Bool :=
  let btw (lo hi : Nat) : Bool := decide (lo ≤ v) && decide (v ≤ hi)
  if k = 0x110002 then btw 0 127
  else if k = 0x110005 then decide (v = 0) || btw 100 60000
  else if k = 0x110007 then btw 1 1000
  else if k = 0x110008 then btw 50 5000
  else if k = 0x110010 then decide (v ∈ [115200, 230400, 460800, 921600, 1500000, 3000000])
  else if k = 0x110011 then btw 60 65535
  else if k = 0x110012 then btw 1 1000
  else if k = 0x20000A then btw 1 2
  else if k = 0x20000C then btw 0 1
  else if k = 0x200010 then decide (v % 256 = 0) && decide (v < 2 ^ 25)
  else if k = 0x200012 ∨ k = 0x200013 then btw 1 1
  else if k = 0x21000A then btw 1500 3600
  else if k = 0x21000B then btw 80 100
  else if k = 0x210011 then btw 800 1600 && decide (v % 100 = 0)
  else if k = 0x300006 then btw 1 72
  else if k = 0x310001 then btw 64 65535
  else if k = 0x403001 then btw 1 4096
  else if k = 0x404001 then btw 65536 (2 ^ 31)
  else if k = 0x500001 then btw 0 4095
  else if k = 0x500002 then btw 0 2
  else if 0x500003 ≤ k ∧ k ≤ 0x500005 then btw 1 4096
  else if k = 0x500007 then btw 0 1
  else if k = 0x50000D then decide (v < 16) && decide (v % 4 < 3) && decide (v / 4 < 3)
  else if k = 0x51000E then btw 10 1000000
  else if k = 0x700001 then decide (v < 2 ^ 40)
  else if k = 0x700002 then btw 0 16
  else if k = 0x700003 then btw 200 65535
  else if k = 0x700004 then btw 64 65535
  else if k = 0x700005 then btw 1 (dictNat s 0x7000 0x04)
  else if k = 0x700006 then btw 64 65535
  else if k / 256 = 0x7001 then decide (1000 ≤ v / 2 ^ 16 % 2 ^ 24)
  else if k = 0x800006 then btw 10 1440
  else if k = 0x800007 ∨ k = 0x80000A then btw 1 (2 ^ 20)
  else if k = 0x800008 then btw 1 (2 ^ 24)
  else if k = 0x800009 then btw 1 16
  else if k = 0x80000B then btw 1000 (10 ^ 9)
  else if k / 256 = 0x9002 then btw 0 16777215
  else true

/-- Whether the die sets of two clients of a list meet. -/
def diesMeet (s : State) (cs : List Nat) : Bool :=
  cs.any fun a => cs.any fun b => decide (a < b) && decide ((getClient s a).dies &&& (getClient s b).dies ≠ 0)

/-- Whether a client runs a RUN_STEPS (R373, R377). -/
def inRun (s : State) (c : Nat) : Bool := (getClient s c).run.isSome

/-- Whether the present state refuses a value of an entry (R352, R373, R377). -/
def stateRefuses (s : State) (k v : Nat) : Bool :=
  if k = 0x700002 then decide (v = 0) && diesMeet s ((List.range 16).filter fun c => decide ((getClient s c).state ≠ 0))
  else if k / 256 = 0x7001 then diesMeet s ((List.range 16).filter fun c => v.testBit c)
  else if k / 256 = 0x9002 ∨ k / 256 = 0x9003 then inRun s (k % 256)
  else false

/-- A write of a fixed-size entry that has passed its checks: the value is stored, or has its side effect. The code is that
of an effect that fails. -/
def writeNat (k v : Nat) (s : State) : Nat × State :=
  if k = 0x20000A then (if v = 1 then (0, coldReset s) else requestTest s)
  else if k = 0x200012 then fwCommit s
  else if k = 0x200013 then (0, cfgSave s)
  else if k = 0xA00005 then clearErrlog v s
  else if k = 0xF00004 then armFuse v s
  else if k / 256 = 0x7001 then (0, setDict k (BitVec.ofNat 64 (v % 2 ^ 40)) s)
  else if k = 0x110010 then
    (0, setDict k (BitVec.ofNat 64 v) { s with cur := { s.cur with oldBaud := some ((getDict s k).toNat, s.tick) } })
  else (0, setDict k (BitVec.ofNat 64 v) s)

/-- A write of a DOMAIN entry that has passed its checks but for its length. -/
def writeBlob (k : Nat) (data : List Byte) (s : State) : Nat × State :=
  if k = 0x200011 then fwData data s
  else if k = curKey then
    if data.length ≠ 16 then (6, s)
    else (0, { s with blobs := { s.blobs with blobs := mset (List.replicate 16 0) s.blobs.blobs k data } })
  else if data.length ≠ 48 then (6, s)
  else if stateRefuses s k 0 then (8, s)
  else (0, setDataPos (k % 256) data s)

/-- The checks of a write of a fixed-size value, in this order: length, value, state (R404, R406). -/
def writeFixed (r : DRow) (n k : Nat) (data : List Byte) (s : State) : Nat × State :=
  let v := leNat data
  if data.length ≠ n then (6, s)
  else if (r.ty = .bool ∧ 1 < v) ∨ ¬ inRange s k v then (7, s)
  else if stateRefuses s k v then (8, s)
  else writeNat k v s

/-- A write of an entry: abort code, and the state, which a refusal leaves as it was (R8, R404, R406). -/
def dictWrite (p : DPath) (ix sub : Nat) (data : List Byte) (s : State) : Nat × State :=
  match findEntry ix sub s with
  | (e, none) => (e, s)
  | (_, some r) =>
    let k := dkey ix sub
    if r.acc = .const ∨ r.acc = .ro ∨ (p = .curator ∧ (k = 0xF00002 ∨ k = 0xF00004)) then (4, s)
    else if r.acc = .rwIdle ∧ s.clients.any (fun x => decide (x.2.state ≠ 0)) then (5, s)
    else match r.ty.size with
      | some n => writeFixed r n k data s
      | none => writeBlob k data s

/-! ### The commands -/

/-- Where a path's last answer stands: the abort code in 4 bytes, then the value. -/
def dictPort : DPath → Nat
  | .can => 8192
  | .mailbox => 8193
  | .curator => 8194

/-- Returning an answer over a path. -/
def dictAnswer (p : DPath) (code : Nat) (bs : List Byte) (s : State) : State :=
  { s with ports := mset [] s.ports (dictPort p) ((leBytes 4 code ++ bs).map fun b => (b, false)) }

/-- DICTIONARY_READ (R8, R405): the Registrar serves a path from Sketch onward. -/
def execDictionaryRead (p : DPath) (ix sub : Nat) (s : State) : Host.Outcome State Fault Refusal :=
  .next (if ¬ s.start.sketched then s
    else
      let (e, bs, s1) := dictRead ix sub s
      dictAnswer p e bs s1)

/-- DICTIONARY_WRITE (R8, R9, R404). -/
def execDictionaryWrite (p : DPath) (ix sub : Nat) (data : List Byte) (s : State) : Host.Outcome State Fault Refusal :=
  .next (if ¬ s.start.sketched then s
    else
      let (e, s1) := dictWrite p ix sub data s
      dictAnswer p e [] s1)

end Sys2Proof.Machine
end

