-- ==== Sys2Proof/Machine/Can.lean ====
section
/-! DEFINITION. The CAN FD node: requests, segmented transfers, aborts, events, heartbeats, node identity and bus errors (R407 to R416). -/

namespace Sys2Proof

open Sys2Proof.Machine

/-! ### Frames (R409) -/

/-- A byte of a frame. -/
def CanFrame.byte (f : CanFrame) (i : Nat) : Nat := (nth 0#8 f.data i).toNat

/-- The fields of W0 (R409). -/
def CanFrame.cmd (f : CanFrame) : Nat := f.byte 0
def CanFrame.tag (f : CanFrame) : Nat := f.byte 1
def CanFrame.index (f : CanFrame) : Nat := f.byte 2 + 256 * f.byte 3
def CanFrame.sub (f : CanFrame) : Nat := f.byte 4
def CanFrame.len (f : CanFrame) : Nat := f.byte 5
def CanFrame.seq (f : CanFrame) : Nat := f.byte 2
def CanFrame.last (f : CanFrame) : Bool := decide (f.byte 3 % 2 = 1)
def CanFrame.segLen (f : CanFrame) : Nat := f.byte 4

/-- The bytes from byte 8 on. -/
def CanFrame.body (f : CanFrame) : List Byte := f.data.drop 8

end Sys2Proof

namespace Sys2Proof.Machine

/-! ### The node (R407, R408, R416) -/

/-- The node ID in use. -/
def nodeId (s : State) : Nat := dictNat s 0x1100 0x01

/-- CAN_STATE. -/
def canState (s : State) : Nat := dictNat s 0x1100 0x04

/-- Storing CAN_STATE. -/
def setCanState (n : Nat) (s : State) : State := setDict (dkey 0x1100 0x04) (BitVec.ofNat 64 n) s

/-- Whether the node takes part in the bus: it has listened, and is error-active or error-passive. -/
def canOn (s : State) : Bool := s.start.sketched && s.can.ready && !pinsTaken s && decide (canState s < 2)

/-- CAN_STATE from the error counters, by the standard (PRESUMED, log 102: passive above 127, bus-off above 255); a listen-only node
stays so. -/
def errorState (s : State) : State :=
  if 3 ≤ canState s then s
  else setCanState (if 255 < s.can.tec then 2 else if 127 < s.can.tec ∨ 127 < s.can.errs then 1 else 0) s

/-- A frame has been received without error: the receive counter falls (PRESUMED, log 102; what it falls to from above
127 is open between 119 and 127). -/
def goodReceive (s : State) : State :=
  let (x, s1) := if 127 < s.can.errs then fresh s else (0, s)
  let n := if 127 < s.can.errs then 119 + x.toNat % 9 else s.can.errs - 1
  errorState { s1 with can := { s1.can with errs := n } }

/-- The payload length of a frame that holds n bytes (R407). -/
def canLen (n : Nat) : Nat := ([8, 12, 16, 20, 24, 32, 48].find? fun m => decide (n ≤ m)).getD 64

/-- A frame's payload. -/
def padFrame (bs : List Byte) : List Byte := bs ++ List.replicate (canLen bs.length - bs.length) 0

/-- Sending a frame of a function code; the transmit counter falls (PRESUMED, log 102). A node that its own reset has
just restarted sends nothing. -/
def sendFrame (code node : Nat) (bs : List Byte) (s : State) : State :=
  if ¬ s.start.sketched then s
  else errorState { s with can := { s.can with
      sent := s.can.sent ++ [(code * 128 + node, padFrame bs)], tec := s.can.tec - 1 } }

/-- W0 of a response (R409). -/
def respHead (cmd tag ix sub len : Nat) : List Byte :=
  leBytes 1 cmd ++ leBytes 1 tag ++ leBytes 2 ix ++ leBytes 1 sub ++ leBytes 3 len

/-- W0 of a segment or a block acknowledge (R409). -/
def segHead (cmd tag seq last len : Nat) : List Byte :=
  leBytes 1 cmd ++ leBytes 1 tag ++ leBytes 1 seq ++ leBytes 1 last ++ leBytes 4 len

/-- Sending a response. -/
def respond (bs : List Byte) (s : State) : State := sendFrame 0xB (nodeId s) bs s

/-- Counting an abort sent or received (R420). -/
def countAbort (s : State) : State := bumpDict (dkey 0x1100 0x0A) 1 s

/-- Ending the transaction of a tag. -/
def endTrans (tag : Nat) (s : State) : State :=
  { s with can := { s.can with txs := s.can.txs.filter fun x => decide (x.tag ≠ tag) } }

/-- Ending a transaction with an abort frame: W0 [63:16] of an abort is not given, so it is open (R409, R412, log 4). -/
def abortTrans (tag code : Nat) (s : State) : State :=
  let (x, s1) := fresh s
  countAbort (respond (leBytes 1 0x0F ++ leBytes 1 tag ++ leBytes 6 x.toNat ++ leBytes 4 code) (endTrans tag s1))

/-- The open transaction of a tag. -/
def findTrans (s : State) (tag : Nat) : Option CanTx := s.can.txs.find? fun x => decide (x.tag = tag)

/-- Replacing a transaction. -/
def setTrans (x : CanTx) (s : State) : State :=
  { s with can := { s.can with txs := s.can.txs.map fun y => if y.tag = x.tag then x else y } }

/-- Opening a transaction. -/
def openTrans (x : CanTx) (s : State) : State := { s with can := { s.can with txs := s.can.txs ++ [x] } }

/-! ### Requests (R408 to R413) -/

/-- Whether a frame is a request to this node (R408): a frame too short for W0 is none. -/
def isRequest (f : CanFrame) (s : State) : Bool :=
  canOn s && decide (f.id = 0xC * 128 + nodeId s) && decide (8 ≤ f.data.length)

/-- Whether a request is malformed: a command that no request has, or a payload length that R407 does not list. -/
def badRequest (f : CanFrame) : Bool :=
  !decide (f.cmd ∈ [1, 2, 3, 6, 7, 9, 0xF]) || !decide (f.data.length ∈ [8, 12, 16, 20, 24, 32, 48, 64])

/-- Serving a request of one command: frames of another command are another row's (R409). -/
def onRequest (cmd : Nat) (f : CanFrame) (run : State → State) (s : State) : State :=
  if ¬ isRequest f s then s
  else if badRequest f then abortTrans f.tag 0xA (goodReceive s)
  else if f.cmd = cmd then run (goodReceive s)
  else s

/-- Serving a request that opens a transaction: it supersedes the one under its tag, and four are the most (R413). -/
def opening (tag : Nat) (run : State → State) (s : State) : State :=
  let s1 := if (findTrans s tag).isSome then abortTrans tag 0xC s else s
  if 4 ≤ s1.can.txs.length then abortTrans tag 0xB s1 else run s1

/-- Returning a value read: expedited up to 56 bytes, else in segments (R410, R411). -/
def returnValue (f : CanFrame) (r : Nat × List Byte × State) : State :=
  let (e, bs, s) := r
  if e ≠ 0 then abortTrans f.tag e s
  else if bs.length ≤ 56 then respond (respHead 4 f.tag f.index f.sub bs.length ++ bs) s
  else
    openTrans { tag := f.tag, ix := f.index, sub := f.sub, write := false, data := bs, size := bs.length }
      (respond (respHead 5 f.tag f.index f.sub 0 ++ leBytes 4 bs.length) s)

/-- CAN_READ (R410, R411). -/
def execCanRead (f : CanFrame) (s : State) : Host.Outcome State Fault Refusal :=
  .next (onRequest 1 f (fun s => opening f.tag (fun s => returnValue f (dictRead f.index f.sub s)) s) s)

/-- CAN_INFO (R409): READ_DATA holding R417's record. -/
def execCanInfo (f : CanFrame) (s : State) : Host.Outcome State Fault Refusal :=
  .next (onRequest 9 f (fun s => opening f.tag (fun s => returnValue f (dictInfo f.index f.sub s)) s) s)

/-- Applying a write whose last byte has arrived, and its answer (R410, R411). -/
def applyWrite (tag ix sub : Nat) (data : List Byte) (s : State) : State :=
  let (e, s1) := dictWrite .can ix sub data s
  if e ≠ 0 then abortTrans tag e s1 else respond (respHead 8 tag ix sub 0) (endTrans tag s1)

/-- CAN_WRITE (R410). -/
def execCanWrite (f : CanFrame) (s : State) : Host.Outcome State Fault Refusal :=
  .next (onRequest 2 f (fun s => opening f.tag (fun s =>
    if f.len = 0 ∨ 56 < f.len ∨ f.body.length < f.len then abortTrans f.tag 0xA s
    else applyWrite f.tag f.index f.sub (f.body.take f.len) s) s) s)

/-- CAN_WRITE_INIT (R411). -/
def execCanWriteInit (f : CanFrame) (s : State) : Host.Outcome State Fault Refusal :=
  .next (onRequest 3 f (fun s => opening f.tag (fun s =>
    let size := leNat (f.body.take 4)
    if f.body.length < 4 ∨ size < 57 ∨ 65536 < size then abortTrans f.tag 0xA s
    else respond (segHead 7 f.tag 0 0 16)
      (openTrans { tag := f.tag, ix := f.index, sub := f.sub, write := true, data := [], size := size } s)) s) s)

/-! ### Segments (R411) -/

/-- Sending the block of a read from its place on. -/
def sendBlock (x : CanTx) (s : State) : State :=
  let n := min x.block (cdiv (x.size - x.done) 56)
  let s1 := (List.range n).foldl (fun s i =>
    let bs := (x.data.drop (x.done + 56 * i)).take 56
    respond (segHead 6 x.tag (i + 1) (b2n (decide (x.size ≤ x.done + 56 * (i + 1)))) bs.length ++ bs) s) s
  setTrans { x with seg := n } s1

/-- CAN_BLOCK_ACK (R411): the manager has everything up to SEQ; the next block follows, or the read ends. -/
def execCanBlockAck (f : CanFrame) (s : State) : Host.Outcome State Fault Refusal :=
  .next (onRequest 7 f (fun s =>
    match findTrans s f.tag with
    | none => s
    | some x =>
      let place := min x.size (x.done + 56 * f.seq)
      if x.write ∨ x.seg < f.seq then abortTrans f.tag 0xA s
      else if place = x.size then endTrans f.tag s
      else if f.segLen = 0 ∨ 16 < f.segLen then abortTrans f.tag 0xA s
      else sendBlock { x with done := place, block := f.segLen } s) s)

/-- Acknowledging a block of a write up to its last segment in order. -/
def ackBlock (x : CanTx) (s : State) : State :=
  respond (segHead 7 x.tag x.seg 0 16) (setTrans { x with seg := 0, gap := false } s)

/-- A segment of a write: in order it is stored, and the last one completes the write; else it and what follows it in the
block are discarded. -/
def takeSegment (x : CanTx) (f : CanFrame) (s : State) : State :=
  let blockEnd := decide (f.seq = 16) || f.last
  if f.seq = 0 ∨ 16 < f.seq ∨ f.segLen = 0 ∨ 56 < f.segLen ∨ f.body.length < f.segLen ∨ (¬ f.last ∧ f.segLen ≠ 56) then
    abortTrans x.tag 0xA s
  else if x.gap ∨ f.seq ≠ x.seg + 1 then
    let x1 := { x with gap := true }
    if blockEnd then ackBlock x1 s else setTrans x1 s
  else
    let x1 := { x with data := x.data ++ f.body.take f.segLen, seg := f.seq }
    if x.size < x1.data.length ∨ (f.last ∧ x1.data.length < x.size) then abortTrans x.tag 6 s
    else if f.last then applyWrite x.tag x.ix x.sub x1.data s
    else if blockEnd then ackBlock x1 s
    else setTrans x1 s

/-- CAN_SEGMENT (R411). -/
def execCanSegment (f : CanFrame) (s : State) : Host.Outcome State Fault Refusal :=
  .next (onRequest 6 f (fun s =>
    match findTrans s f.tag with
    | none => s
    | some x => if x.write then takeSegment x f s else abortTrans f.tag 0xA s) s)

/-- CAN_SEGMENT_GAP_TIMER (R411): 20 ms have passed since the last segment in order; the tag names the transaction. -/
def execCanSegmentGapTimer (peer : Nat) (s : State) : Host.Outcome State Fault Refusal :=
  .next (match findTrans s peer with
    | none => s
    | some x => if canOn s ∧ x.write then ackBlock x s else s)

/-- CAN_ABORT (R412): the transaction ends, and a partly received write is discarded. -/
def execCanAbort (f : CanFrame) (s : State) : Host.Outcome State Fault Refusal :=
  .next (onRequest 0xF f (fun s => countAbort (endTrans f.tag s)) s)

/-- CAN_TIMEOUT (R412): the tag names the transaction. -/
def execCanTimeout (peer : Nat) (s : State) : Host.Outcome State Fault Refusal :=
  .next (if canOn s ∧ (findTrans s peer).isSome then abortTrans peer 9 s else s)

/-! ### Events, heartbeats, identity, errors (R407, R414 to R416) -/

/-- Sending one event frame: W0, its [63:8] RSV, and the record of R345. -/
def mirrorEvent (e : Event) (s : State) : State :=
  let (bs, s1) := openRecord e s
  sendFrame 1 (nodeId s1) (leBytes 8 0x10 ++ bs) s1

/-- CAN_EVENT_MIRROR (R414): of the events that wait, those severe enough are sent, the newest that the rate allows in this
second; the others among them are dropped and counted. -/
def execCanEventMirror (s : State) : Host.Outcome State Fault Refusal :=
  .next (if ¬ canOn s then s
    else
      let low := dictNat s 0x1100 0x06
      let l := s.logs.canWait.filter fun e => decide (low ≠ 0xFF) && decide (low ≤ e.sev)
      let sec := s.tick / 1000000
      let used := if s.can.second = sec then s.can.rate else 0
      let n := min l.length (dictNat s 0x1100 0x07 - used)
      let s1 := { s with logs := { s.logs with canWait := [] }, can := { s.can with second := sec, rate := used + n } }
      bumpDict (dkey 0x1100 0x0B) (l.length - n) ((l.drop (l.length - n)).foldl (fun s e => mirrorEvent e s) s1))

/-- The heartbeat's W0 (R415). -/
def heartbeatWord (s : State) : Nat :=
  0x11 + 2 ^ 8 * stageOf s + 2 ^ 16 * (dictNat s 0x2000 0x02 % 256) +
    2 ^ 24 * bitsWhere 16 (fun c => decide ((getClient s c).state ≠ 0)) + 2 ^ 40 * b2n (!s.can.booted) +
    2 ^ 41 * b2n (decide (dictNat s 0x2000 0x02 ≠ 0) || decide (3 ≤ canState s))

/-- HEARTBEAT (R415): the first follows the entry of Sketch, also where HB_PERIOD turns the others off. -/
def execHeartbeat (s : State) : Host.Outcome State Fault Refusal :=
  .next (if ¬ canOn s ∨ (s.can.booted ∧ dictNat s 0x1100 0x05 = 0) then s
    else
      let s1 := sendFrame 0xE (nodeId s) (leBytes 8 (heartbeatWord s)) s
      { s1 with can := { s1.can with booted := true } })

/-- NODE_ID_LISTEN (R416): seen says that a frame with this node's ID was heard. -/
def execNodeIdListen (seen : Bool) (s : State) : Host.Outcome State Fault Refusal :=
  .next (if ¬ s.start.sketched ∨ s.can.ready ∨ pinsTaken s ∨ canState s = 3 then s
    else if seen then setCanState 4 s
    else { s with can := { s.can with ready := true } })

/-- BUS_OFF_RECOVERY (R407). -/
def execBusOffRecovery (s : State) : Host.Outcome State Fault Refusal :=
  .next (if canState s ≠ 2 then s
    else bumpDictW 32 (dkey 0x1100 0x09) 1 (setCanState 0 { s with can := { s.can with tec := 0, errs := 0 } }))

/-- CAN_BUS_ERROR (R407): n errors while transmitting count 8 each, while receiving 1 each (PRESUMED, log 102). -/
def execCanBusError (tx : Bool) (n : Nat) (s : State) : Host.Outcome State Fault Refusal :=
  .next (if ¬ canOn s then s
    else errorState { s with can :=
      if tx then { s.can with tec := s.can.tec + 8 * n } else { s.can with errs := s.can.errs + n } })

end Sys2Proof.Machine
end

