-- ==== Sys2Proof/Machine/Clients.lean ====
section
/-! DEFINITION. The rotation, switching, long commands, and the common arbiter (R178, R216, R235, R352 to R364). -/

namespace Sys2Proof.Machine

/-! ### The rotation (R352) -/

/-- G: SWITCH_GAP. -/
def switchGap (s : State) : Nat := (getDict s (dkey 0x7000 0x03)).toNat

/-- Slice length of an entry, and its clients. -/
def sliceLen (w : Word) : Nat := fld w 16 24

/-- Entry i of the table in force. -/
def rotEntry (s : State) (i : Nat) : Word := mget 0 s.rot.entries i

/-- The start of slice i of the period in progress; i may be the table's length, which is the period's end. -/
def sliceStart (s : State) (i : Nat) : Nat :=
  s.rot.origin + ((List.range i).map fun j => sliceLen (rotEntry s j) + switchGap s).sum

/-- The table that ROT_LEN and the entries hold, to come into force at the next period boundary. -/
def nextTable (s : State) : Nat × SMap Word :=
  let n := min 16 (getDict s (dkey 0x7000 0x02)).toNat
  (n, (List.range n).foldl (fun m i => mset 0 m i (getDict s (dkey 0x7001 i))) [])

/-- The first start of a period of a table at or after a tick: ROT_START plus a multiple of the period. -/
def nextStart (s : State) (t : Nat × SMap Word) (from_ : Nat) : Nat :=
  let p := ((List.range t.1).map fun i => sliceLen (mget 0 t.2 i) + switchGap s).sum
  let o := fld (getDict s (dkey 0x7000 0x01)) 0 40
  if p = 0 then from_ else if from_ ≤ o then o else o + cdiv (from_ - o) p * p

/-- Clients that the slice in progress runs: those of its entry, every client without a rotation. -/
def sliceClients (s : State) : List Nat :=
  (List.range 16).filter fun c => decide ((getClient s c).state ≠ 0) &&
    (decide (s.rot.len = 0) || bit (rotEntry s s.rot.slice) c)

/-- SLICE_DUE (R352): the slice reaches its due tick, shortened by debt; or, without a rotation, the first period of one
that software has set begins. -/
def execSliceDue (s : State) : Host.Outcome State Fault Refusal :=
  .next (if s.rot.due then s
    else if s.rot.len = 0 then
      let t := nextTable s
      if t.1 ≠ 0 ∧ nextStart s t s.tick = s.tick then { s with rot := { s.rot with due := true, origin := s.tick } } else s
    else if sliceStart s s.rot.slice + sliceLen (rotEntry s s.rot.slice) - s.rot.cut ≤ s.tick then
      { s with rot := { s.rot with due := true } }
    else s)

/-! ### Units that run to their end (R357) -/

/-- Whether a unit of an engine that is not pre-emptible is running. -/
def unitRuns (s : State) (e : Eng) : Bool :=
  match e with
  | .array t =>
    let a := getArr s t
    (a.passes.any fun j => j.started && !(j.gather && j.slots.isEmpty)) || (a.loads.any fun j => !j.got.isEmpty) ||
      (a.drains.any fun d => d.started && decide (d.done < d.count)) || !a.passes.all (fun j => j.due.isEmpty)
  | .vector t =>
    match (getVec s t).block with
    | none => false
    | some b => decide (b.pc ≠ 0) && !(b.rep.any fun r => decide (r.start = b.pc))
  | .stream _ => false
  | .seq _ => false
  | .hatch d u => (List.range 16).any fun i => decide (i / 4 = u.val) && (mget {} s.units.lanes (16 * d.val + i)).offer.isSome
  | .cpt d u => (getCpt s d.val u.val).any fun j => !j.lines.isEmpty || decide (j.outs ≠ 0)
  | .dma _ _ => false
  | .coll _ => false

/-- Whether every unit of a die is at a point where it can be pre-empted. -/
def dieAtRest (s : State) (d : Nat) : Bool := (enginesOf d).all fun e => !unitRuns s e

/-! ### Saving and restoring (R178, R359, R360) -/

/-- A client's save area on a die. -/
def saveArea (c : Client) (d : Nat) : Nat := c.saveAddr + d * 0x6C00000000

/-- Names of a client's non-resident Folio entries on a die. -/
def looseNames (s : State) (c d : Nat) : List (Nat × Entry) :=
  s.cat.ents.filter fun x => decide (x.1 / 4096 = d) && decide (x.2.kind = 1) && decide (x.2.client = c) && !x.2.resident

/-- Flat line numbers of a die that a client's non-resident entries cover. -/
def looseLines (s : State) (c d : Nat) : List Nat :=
  ((looseNames s c d).flatMap fun x => (List.range (cdiv x.2.len 64)).map fun q => flatOf x.2 (64 * q) / 64).eraseDups

/-- Copying a word: corrected where it can be, poison as poison. -/
def moveWord (src dst : Nat) (s : State) : State :=
  let r := peekWord s src
  if r.poison then poisonWord dst r.val s else writeWord dst r.val s

/-- Restoring a word from the save area: an uncorrectable word that is not a poisoned one posts its event (R360). -/
def bringWord (c d src dst : Nat) (s : State) : State :=
  let bad := (peekWord s src).poison && (decide (s.mem.syn src ≠ poisonSynd))
  moveWord src dst (if bad then postUncorr 4 d false (8 * src) c s else s)

/-- Saving a client's non-resident lines of a die. -/
def saveLines (cl : Client) (d : Nat) (ls : List Nat) (s : State) : State :=
  ls.foldl (fun s l => (List.range 8).foldl (fun s i =>
    moveWord ((folioBase d + 64 * l) / 8 + i) ((saveArea cl d + 64 * l) / 8 + i) s) s) s

/-- Restoring them; the client becomes their last owner (R165). -/
def bringLines (c : Nat) (cl : Client) (d : Nat) (ls : List Nat) (s : State) : State :=
  ls.foldl (fun s l =>
    let s1 := (List.range 8).foldl (fun s i =>
      bringWord c d ((saveArea cl d + 64 * l) / 8 + i) ((folioBase d + 64 * l) / 8 + i) s) s
    { s1 with mem := { s1.mem with owner := mset 0 s1.mem.owner (d * 4194304 + l) (c + 1) } }) s

/-- Bytes of a client's fixed state on a die (R360). -/
def fixedBytes : Nat := 70 * 2 ^ 20

/-- The state of a client on a die that a switch saves (R359). -/
def dieSave (c d : Nat) (s : State) : DieSave :=
  let loose := (looseNames s c d).map (·.1)
  { tiles := mdrop s.tiles (fun k => decide (k / 16 ≠ d)),
    engs := mdrop s.plates.engs (fun k => decide (engKeyDie k ≠ d)),
    flights := s.plates.flights.filter (fun f => decide (engDie f.eng = d)),
    tokens := mdrop s.plates.tokens (fun k => decide (k / 256 / 17 ≠ d)),
    posts := s.plates.posts.filter (fun p => decide (p.die.val = d)),
    units := unitsOn d s.units,
    results := (resultRegs d).foldl (fun m a => mset 0 m a (getReg s a)) [],
    folio := looseLines s c d,
    full := mdrop s.cat.full (fun k => !loose.contains (k / 4096)),
    waiters := s.cat.waiters.filter (fun w => w.onDie d) }

/-- Saving a client's state on a die, which leaves the die's engines as they are at admission. -/
def saveDie (c d : Nat) (s : State) : State :=
  let x := dieSave c d s
  let cl := getClient s c
  let n := fixedBytes + 64 * x.folio.length
  let s1 := freshDie d (saveLines cl d x.folio s)
  bumpLedger c 0x12 n { s1 with
    cat := { s1.cat with full := x.full.foldl (fun m k => mset false m k.1 false) s1.cat.full },
    rot := { s1.rot with saves := mset {} s1.rot.saves (4 * c + d) x, cost := mset 0 s1.rot.cost d n } }

/-- Putting the entries of one map into another. -/
def merge {α : Type} [DecidableEq α] (dflt : α) (m x : SMap α) : SMap α := x.foldl (fun m e => mset dflt m e.1 e.2) m

/-- Restoring a client's state on a die. -/
def bringDie (c d : Nat) (s : State) : State :=
  let x := mget {} s.rot.saves (4 * c + d)
  let cl := getClient s c
  let n := fixedBytes + 64 * x.folio.length
  let s0 := bringLines c cl d x.folio (freshDie d s)
  let s1 := { s0 with
    tiles := merge {} s0.tiles x.tiles,
    plates := { s0.plates with
      engs := merge {} s0.plates.engs x.engs, flights := s0.plates.flights ++ x.flights,
      tokens := merge 0 s0.plates.tokens x.tokens, posts := s0.plates.posts ++ x.posts },
    units := { lanes := merge {} s0.units.lanes x.units.lanes, hatch := merge none s0.units.hatch x.units.hatch,
               cpt := merge [] s0.units.cpt x.units.cpt, dma := merge {} s0.units.dma x.units.dma },
    cat := { s0.cat with full := merge false s0.cat.full x.full, waiters := s0.cat.waiters ++ x.waiters },
    rot := { s0.rot with saves := mdel s0.rot.saves (4 * c + d), cost := mupd 0 s0.rot.cost d (· + n) } }
  bumpLedger c 0x12 n (x.results.foldl (fun s r => setReg r.1 r.2 s) s1)

/-! ### Switching out (R355, R357, R358) -/

/-- A client whose windows are all closed reaches its switch boundary: its plan time stops, its engines issue no more. -/
def stopClient (c : Nat) (s : State) : State :=
  let st := (getClient s c).state
  if ¬ (st = 1 ∨ st = 2) ∨ anyOpen s c then s
  else
    let s1 := setClientState c 4 s
    { s1 with rot := { s1.rot with between := true, bounds := mset 0 s1.rot.bounds c s1.tick } }

/-- Saving a stopped client once its dies are at rest: its overrun is charged, and becomes debt. -/
def saveClient (c : Nat) (s : State) : State :=
  let cl := getClient s c
  if cl.state ≠ 4 ∨ ¬ (clientDies cl).all (dieAtRest s) then s
  else
    let late := s.tick - mget 0 s.rot.bounds c
    let s1 := bumpLedger c 0x14 (1000 * late) ((clientDies cl).foldl (fun s d => saveDie c d s) s)
    setClientState c 3 { s1 with rot := { s1.rot with
      overrun := max s1.rot.overrun late, carry := s1.rot.carry + (max s1.rot.overrun late - s1.rot.overrun) } }

/-- SWITCH_OUT (R357): at the switch boundary plan time stops and engines stop issuing; each client's state is saved once
its units have run to their ends. A capture that is due goes first (R377). -/
def execSwitchOut (s : State) : Host.Outcome State Fault Refusal :=
  .next (if ¬ s.rot.due then s
    else
      let out := (sliceClients s).filter fun c => !(getClient s c).arch.due && decide ((getClient s c).arch.pause = 0)
      let s1 := out.foldl (fun s c => stopClient c s) { s with rot := { s.rot with between := true } }
      out.foldl (fun s c => saveClient c s) s1)

/-! ### Switching in (R352, R357, R360) -/

/-- Time of a switch on a die, in ns: 33 us and its bytes at 1.0 TB/s (R360). -/
def switchTime (n : Nat) : Nat := 33000 + n / 1000

/-- A client whose slice starts: its state is restored, its plan time goes on from the slice's start, and the debt it had
is what shortens the slice (R352, R357, R358). -/
def bringClient (start c : Nat) (s : State) : State :=
  let cl := getClient s c
  if ¬ (cl.state = 1 ∨ cl.state = 3) then s
  else
    let s1 := if cl.state = 3 then (clientDies cl).foldl (fun s d => bringDie c d s) s else s
    let late := s.tick - start
    let s2 := if cl.state = 3 then
        updStep c (fun st => { st with out := st.out - late }) (updRun c (fun r => { r with out := r.out - late }) s1)
      else s1
    let s3 := if start < s.tick then bumpDict (dkey 0x7000 0x0A) (clientDies cl).length s2 else s2
    setClientState c (if cl.run.isSome then 2 else 1)
      (setClient c { getClient s3 c with debt := 0 } { s3 with rot := { s3.rot with cut := max s3.rot.cut cl.debt } })

/-- The next slice: its index, the table, the period's start and the slice's start. -/
def nextSlice (s : State) : Nat × (Nat × SMap Word) × Nat × Nat :=
  if s.rot.len = 0 then
    let t := nextTable s
    (0, t, s.rot.origin, s.rot.origin)
  else if s.rot.slice + 1 < s.rot.len then
    (s.rot.slice + 1, (s.rot.len, s.rot.entries), s.rot.origin, sliceStart s (s.rot.slice + 1))
  else
    let t := nextTable s
    let o := nextStart s t (sliceStart s s.rot.len)
    (0, t, o, o)

/-- SWITCH_IN (R357): once every outgoing client is saved and the next slice's start has come, its clients run. -/
def execSwitchIn (s : State) : Host.Outcome State Fault Refusal :=
  let (i, t, origin, start) := nextSlice s
  .next (if ¬ s.rot.due ∨ ¬ s.rot.between ∨ (sliceClients s).any (fun c => decide ((getClient s c).state ≠ 3)) ∨
      s.tick < start then s
    else
      let s1 := { s with rot := { s.rot with
        due := false, between := false, slice := i, len := t.1, entries := t.2, origin := origin, bounds := [], long := [],
        overrun := 0, cut := 0 } }
      let s2 := (sliceClients s1).foldl (fun s c => bringClient start c s) s1
      let longest := (s2.rot.cost.map fun x => switchTime x.2).foldl max 0
      let k := dkey 0x7000 0x09
      let s3 := setDict k (BitVec.ofNat 64 (max (getDict s2 k).toNat longest)) (bumpDict (dkey 0x7000 0x08) 1 s2)
      { s3 with rot := { s3.rot with cost := [] } })

/-- LONG_COMMAND (R358): a unit still runs 50 us after its client's switch boundary. -/
def execLongCommand (e : Eng) (s : State) : Host.Outcome State Fault Refusal :=
  let c := clientOn s (engDie e)
  .next (if (getClient s c).state ≠ 4 ∨ s.tick < mget 0 s.rot.bounds c + 50 ∨ ¬ unitRuns s e ∨ s.rot.long.contains (engKey e)
    then s
    else
      let s1 := { s with rot := { s.rot with long := s.rot.long ++ [engKey e] } }
      post 0x0208 c (engCode e + 16 * engUnit e + 256 * engDie e) (bumpDict (dkey 0x7000 0x0B) 1 s1))

/-! ### The common arbiter (R361 to R364) -/

/-- Grants of a resource in a cycle. -/
def arbWidth (res : Nat) : Nat := if res = 2 then 32 else 1

/-- The class in which a request competes (R361, R363). -/
def arbClass (s : State) (a : Arb) (r : ArbReq) : Nat :=
  if r.cls = 0 then
    if (getDict s (dkey 0x7000 0x05)).toNat ≤ (mget {} a.cnts r.code).high then 1 else 0
  else if r.cls = 2 then (if (getDict s (dkey 0x7000 0x06)).toNat ≤ r.age then 1 else 2)
  else 1

/-- The next request of a class, round robin from the requester after the last one granted in it. -/
def arbPick (s : State) (a : Arb) (cls : Nat) (rs : List ArbReq) : Option ArbReq :=
  let last := mget 63 a.last cls
  (rs.filter fun r => decide (arbClass s a r = cls)).foldl (fun (b : Option ArbReq) r =>
    let dist (x : ArbReq) : Nat := (x.code + 64 - (last + 1) % 64) % 64
    match b with
    | some x => if dist r < dist x then some r else b
    | none => some r) none

/-- Granting a request (R363, R364). -/
def arbTake (r : ArbReq) (cls : Nat) (a : Arb) : Arb :=
  let x := mget {} a.cnts r.code
  { a with
    cnts := mset {} a.cnts r.code { x with
      grants := min (2 ^ 64 - 1) (x.grants + 1), maxWait := min (2 ^ 32 - 1) (max x.maxWait r.age),
      high := if cls = 0 then x.high + 1 else x.high },
    last := mset 63 a.last cls (r.code % 64) }

/-- Granting up to n requests: high first, then normal, then low; what is left over is not granted. -/
def arbGrant (s : State) : Nat → Arb → List ArbReq → Arb × List ArbReq
  | 0, a, rs => (a, rs)
  | n + 1, a, rs =>
    match [0, 1, 2].findSome? fun cls => (arbPick s a cls rs).map fun r => (cls, r) with
    | some (cls, r) => arbGrant s n (arbTake r cls a) (rs.erase r)
    | none => (a, rs)

/-- Counting a cycle of a requester with an eligible request that is not granted. -/
def arbWait (a : Arb) (code : Nat) : Arb :=
  let x := mget {} a.cnts code
  { a with cnts := mset {} a.cnts code { x with wait := min (2 ^ 64 - 1) (x.wait + 1) } }

/-- A cycle of an arbiter: its window moves on, requests are granted, and the others wait. -/
def arbCycle (s : State) (res : Nat) (reqs : List ArbReq) (a : Arb) : Arb :=
  let a0 := if (getDict s (dkey 0x7000 0x04)).toNat ≤ a.cycle then arbWindow a else a
  let (a1, left) := arbGrant s (arbWidth res) { a0 with cycle := a0.cycle + 1 } reqs
  ((left.map (·.code)).eraseDups).foldl arbWait a1

/-- Whether a counter of an arbiter has stuck. -/
def arbStuck (a : Arb) : Bool :=
  a.cnts.any fun x => decide (x.2.grants = 2 ^ 64 - 1 ∨ x.2.wait = 2 ^ 64 - 1 ∨ x.2.maxWait = 2 ^ 32 - 1 ∨
    x.2.withdrawn = 2 ^ 32 - 1)

/-- Storing an arbiter; the first counter that sticks marks its block (R368). -/
def setArb (res d : Nat) (a : Arb) (s : State) : State :=
  let s1 := { s with arbs := mset {} s.arbs (arbKey res d) a }
  if arbStuck a then stickDict (0x7010 + res) d s1 else s1

/-- ARBITER_GRANT (R361): the requests are the eligible ones of the cycle, those of requesters below their cap (log). -/
def execArbiterGrant (res : Nat) (d : DieId) (reqs : List ArbReq) (s : State) : Host.Outcome State Fault Refusal :=
  .next (if 4 ≤ res then s else setArb res d.val (arbCycle s res reqs (mget {} s.arbs (arbKey res d.val))) s)

/-- GRANT_WITHDRAW (R362): the grant is lost; the pointer stays where the grant moved it. -/
def execGrantWithdraw (res : Nat) (d : DieId) (code : Nat) (s : State) : Host.Outcome State Fault Refusal :=
  let a := mget {} s.arbs (arbKey res d.val)
  let x := mget {} a.cnts code
  .next (if 4 ≤ res ∨ x.grants = 0 then s
    else setArb res d.val { a with cnts := mset {} a.cnts code { x with
      grants := x.grants - 1, withdrawn := min (2 ^ 32 - 1) (x.withdrawn + 1) } } s)

end Sys2Proof.Machine
end

