-- ==== Sys2Proof/Machine/Curator.lean ====
section
/-! DEFINITION. The Curator monitor on the UART (R421 to R426). Its output is a list of lines; each reply ends with the prompt. -/

namespace Sys2Proof.Machine

/-! ### Text (R406, R423) -/

/-- The names of the abort codes (R406). -/
def abortNames : List String :=
  ["", "NO_OBJECT", "NO_SUB", "READ_DENIED", "WRITE_DENIED", "CLIENT_ADMITTED", "LENGTH", "RANGE", "STATE", "TIMEOUT",
   "PROTOCOL", "BUSY", "SUPERSEDED", "NO_ROUTE", "LEVEL", "VERIFY", "HARDWARE"]

/-- The last n hexadecimal digits of a number. -/
def hexText (n v : Nat) : String := String.ofList ((List.range n).map fun i => hexDigit (v / 16 ^ (n - 1 - i) % 16))

/-- An error: the abort code and its name. -/
def errText (code : Nat) : String :=
  "ERR 0x" ++ hexText 4 (code / 65536) ++ "_" ++ hexText 4 code ++ " " ++ nth "" abortNames code

/-- Bytes as hexadecimal lines of 32 bytes. -/
def hexLines : Nat → List Byte → List String
  | 0, _ => []
  | n + 1, bs => if bs = [] then [] else String.join ((bs.take 32).map fun b => hexText 2 b.toNat) :: hexLines n (bs.drop 32)

/-- The text of a STR. -/
def strText (bs : List Byte) : String := "\"" ++ String.ofList (bs.map fun b => Char.ofNat b.toNat) ++ "\""

/-- The text of a number, decimal. -/
def numText (t : DType) (bs : List Byte) : String :=
  match t with
  | .i8 | .i16 | .i32 | .i64 => toString (toSigned (8 * bs.length) (leNat bs))
  | _ => toString (leNat bs)

/-- A value as the Curator prints it: what follows OK in its line, and the lines behind it. -/
def valueText (t : DType) (bs : List Byte) : String × List String :=
  match t with
  | .domain => ("", hexLines (bs.length + 1) bs)
  | .str => (" " ++ strText bs, [])
  | _ => (" " ++ numText t bs, [])

/-- Printing lines, then the prompt. -/
def curLines (ls : List String) (s : State) : State := curSay (curPrompt s) (ls.foldl (fun s l => curSay l s) s)

/-- A reply of an abort code. -/
def curErr (code : Nat) (s : State) : State := curReply (errText code) s

/-! ### Lines (R422, R423, R425) -/

/-- The present level (R424). -/
def curLevel (s : State) : Nat := dictNat s 0xF000 0x01

/-- Storing the level. -/
def setLevel (n : Nat) (s : State) : State := setDict (dkey 0xF000 0x01) (BitVec.ofNat 64 n) s

/-- A command line that needs a level: it is served from Sketch onward, after a blow under way has ended, and as a valid line it
keeps the present rate. -/
def onLine (level : Nat) (run : State → State) (s : State) : State :=
  if ¬ s.start.sketched ∨ pinsTaken s ∨ s.cur.blow.isSome then s
  else
    let s1 := { s with cur := { s.cur with oldBaud := none } }
    if curLevel s1 < level then curErr 0xE s1 else run s1

/-- A reply after an effect that may have reset the module, which then prints nothing. -/
def curAfter (l : String) (s : State) : State := if s.start.sketched then curReply l s else s

/-- Reading an entry for a reply: the error's text, or the value's. -/
def readText (ix sub : Nat) (s : State) : String × List String × State :=
  let (e, bs, s1) := dictRead ix sub s
  if e ≠ 0 then (errText e, [], s1)
  else
    let v := valueText (((entryRow (dkey ix sub)).map (·.ty)).getD .domain) bs
    ("OK" ++ v.1, v.2, s1)

/-- CUR_HELP (R425). -/
def execCurHelp (s : State) : Host.Outcome State Fault Refusal :=
  .next (onLine 0 (fun s => curReply ("OK help id stage get dump info events unlock resp lock" ++
    (if 1 ≤ curLevel s then " set reset" else "") ++ (if 2 ≤ curLevel s then " fuse" else "")) s) s)

/-- The values of several entries in one line. -/
def readAll (ks : List (Nat × Nat)) (s : State) : String :=
  ks.foldl (fun t k => t ++ (valueText (((entryRow (dkey k.1 k.2)).map (·.ty)).getD .domain) (dictRead k.1 k.2 s).2.1).1) "OK"

/-- CUR_ID (R425): ORDER_CODE, SERIAL, DIE_STEPPING, CARRIER_REV, FW_RELEASE, NODE_ID and MODULE_ID, each as its path reads it. -/
def execCurId (s : State) : Host.Outcome State Fault Refusal :=
  .next (onLine 0 (fun s => curReply (readAll
    [(0x1000, 1), (0x1000, 5), (0x1000, 2), (0x1000, 3), (0x1000, 4), (0x1100, 1), (0x5000, 1)] s) s) s)

/-- CUR_STAGE (R425). -/
def execCurStage (s : State) : Host.Outcome State Fault Refusal :=
  .next (onLine 0 (fun s => curReply (readAll
    [(0x2000, 1), (0x2000, 2), (0x2000, 3), (0x2000, 4), (0x2000, 5)] s) s) s)

/-- CUR_GET (R423, R425). -/
def execCurGet (ix sub : Nat) (s : State) : Host.Outcome State Fault Refusal :=
  .next (onLine 0 (fun s =>
    let (l, ls, s1) := readText ix sub s
    curLines (l :: ls) s1) s)

/-- CUR_DUMP (R425): a line for each sub-index, in ascending order; one that cannot be read shows its error. -/
def execCurDump (ix : Nat) (s : State) : Host.Outcome State Fault Refusal :=
  .next (onLine 0 (fun s =>
    if recoveryRefuses s ix then curErr 8 s
    else if ¬ indexExists ix then curErr 1 s
    else
      let r := ((List.range 256).filter fun i => (entryRow (dkey ix i)).isSome).foldl (fun (acc : List String × State) i =>
        let (l, ls, s1) := readText ix i acc.2
        (acc.1 ++ (l :: ls), s1)) ([], s)
      curLines r.1 r.2) s)

/-- CUR_INFO (R417, R425). -/
def execCurInfo (ix sub : Nat) (s : State) : Host.Outcome State Fault Refusal :=
  .next (onLine 0 (fun s =>
    let (e, bs, s1) := dictInfo ix sub s
    if e ≠ 0 then curErr e s1 else curLines ("OK" :: hexLines 2 bs) s1) s)

/-- CUR_EVENTS (R425): n = 0 stands for a line that gives no number, which prints 16 records. -/
def execCurEvents (n : Nat) (s : State) : Host.Outcome State Fault Refusal :=
  .next (onLine 0 (fun s =>
    let m := if n = 0 then 16 else n
    if 64 < m then curErr 7 s
    else
      let l := s.logs.evlog
      let (bs, s1) := logBytes (l.drop (l.length - m)) s
      curLines ("OK" :: hexLines (m + 1) bs) s1) s)

/-! ### Levels (R424) -/

/-- CUR_KEY1. -/
def key1 (s : State) : List Byte := mget (List.replicate 16 0) s.blobs.blobs curKey

/-- The key of a level: CUR_KEY1, or the fused service key (log 5). -/
def levelKey (s : State) (level : Nat) : List Byte := if level = 1 then key1 s else (List.range 16).map Config.serviceKey

/-- The response that a challenge asks for: the first 4 bytes of SHA-384(key, challenge, SERIAL). -/
def curAnswer (key : List Byte) (challenge : Nat) : List Byte :=
  (sha384 (key ++ beBytes 4 challenge ++ (List.range 12).map Config.serial)).take 4

/-- CUR_UNLOCK (R424): the challenge comes from the hardware random source, so it is open (log 4). -/
def execCurUnlock (level : Nat) (s : State) : Host.Outcome State Fault Refusal :=
  .next (onLine 0 (fun s =>
    if level = 0 ∨ 2 < level then curErr 7 s
    else if s.tick < s.cur.blocked then curErr 8 s
    else if level = 1 ∧ key1 s = List.replicate 16 0 then curErr 0xE s
    else
      let (x, s1) := fresh s
      let v := fld x 0 32
      curReply ("OK challenge " ++ hexText 8 v) { s1 with cur := { s1.cur with challenge := some (level, v, s.tick) } }) s)

/-- A wrong response: it counts, and the third in a row blocks unlock for 60 s. -/
def wrongAnswer (s : State) : State :=
  let third := decide (2 ≤ s.cur.wrong)
  let s1 := { s with cur := { s.cur with
    wrong := if third then 0 else s.cur.wrong + 1, blocked := if third then s.tick + 60000000 else s.cur.blocked } }
  curErr 0xE (bumpDictW 32 (dkey 0xF000 0x03) 1 s1)

/-- CUR_RESP (R424): the 4 bytes that 8 hexadecimal digits spell. A challenge serves one response, within 120 s. -/
def execCurResp (data : List Byte) (s : State) : Host.Outcome State Fault Refusal :=
  .next (onLine 0 (fun s =>
    if data.length ≠ 4 then curErr 0xA s
    else match s.cur.challenge with
      | none => curErr 8 s
      | some (level, v, t) =>
        let s1 := { s with cur := { s.cur with challenge := none } }
        if t + 120000000 < s.tick then curErr 8 s1
        else if data = curAnswer (levelKey s level) v then
          let n := max level (curLevel s)
          curReply ("OK level " ++ toString n) (setLevel n { s1 with cur := { s1.cur with wrong := 0 } })
        else wrongAnswer s1) s)

/-- CUR_LOCK (R424). -/
def execCurLock (s : State) : Host.Outcome State Fault Refusal :=
  .next (onLine 0 (fun s => curReply "OK level 0" (setLevel 0 s)) s)

/-- CUR_IDLE_TIMEOUT (R424): CUR_IDLE seconds have passed without input. -/
def execCurIdleTimeout (s : State) : Host.Outcome State Fault Refusal := .next (setLevel 0 s)

/-- CUR_BAUD_REVERT (R422): no valid line has arrived at the new rate within 10 s. -/
def execCurBaudRevert (s : State) : Host.Outcome State Fault Refusal :=
  .next (match s.cur.oldBaud with
    | none => s
    | some (b, _) => setDict (dkey 0x1100 0x10) (BitVec.ofNat 64 b) { s with cur := { s.cur with oldBaud := none } })

/-! ### Levels 1 and 2 (R425, R426) -/

/-- CUR_SET (R8, R425): a write into the 0x8000 range needs level 2. -/
def execCurSet (ix sub : Nat) (data : List Byte) (s : State) : Host.Outcome State Fault Refusal :=
  .next (onLine (if ix = 0x8000 then 2 else 1) (fun s =>
    let (e, s1) := dictWrite .curator ix sub data s
    curAfter (if e = 0 then "OK" else errText e) s1) s)

/-- CUR_RESET_COLD (R399, R425). -/
def execCurResetCold (s : State) : Host.Outcome State Fault Refusal :=
  .next (onLine 1 (fun s => curAfter "OK" (coldReset s)) s)

/-- CUR_RESET_CORE (R399, R425). -/
def execCurResetCore (d : DieId) (core : Fin 4) (s : State) : Host.Outcome State Fault Refusal :=
  .next (onLine 1 (fun s => curAfter "OK" (askReset 4 (coreReset d.val core.val) s)) s)

/-- Whether a second fuse line may start the blow (R426). -/
def fuseConfirmed (e code : Nat) (s : State) : Bool :=
  (match s.cur.confirm with
    | some (e', k, t) => decide (e' = e) && decide (k = code) && decide (s.tick ≤ t + 30000000)
    | none => false) &&
  decide (getDict s (dkey 0xF000 0x05) ≠ 0) && fuseAllowed s

/-- CUR_FUSE (R426): a line without a code (here: a code of 65,536 or more) prints the repair and a confirmation code, which
is open (log 4); one with it starts the blow, whose end gives the reply. -/
def execCurFuse (e code : Nat) (s : State) : Host.Outcome State Fault Refusal :=
  .next (onLine 2 (fun s =>
    match pendingRepair s e with
    | none => curErr 7 s
    | some r =>
      if 65536 ≤ code then
        let (x, s1) := fresh s
        curReply ("OK " ++ hexText 16 r.w0.toNat ++ " " ++ hexText 16 r.w1.toNat ++ " " ++ hexText 4 (fld x 0 16))
          { s1 with cur := { s1.cur with confirm := some (e, fld x 0 16, s.tick) } }
      else if fuseConfirmed e code s then
        let s1 := { s with cur := { s.cur with confirm := none, blow := some e } }
        setDict (dkey 0xF000 0x05) 0 s1
      else curErr 8 s) s)

end Sys2Proof.Machine
end

