-- ==== Sys2Proof/Machine/Deadlock.lean ====
section
/-! DEFINITION. The stream deadlock watchdog and the die engines that wait for ring slots (R178, R214, R215). -/

namespace Sys2Proof.Machine

/-- Whether a sequencer's Folio operation waits for a ring slot (R186, R234). -/
def sfopBlocked (s : State) (t : TileId) : Bool :=
  (getTile s t).sfops.any fun j =>
    match (fopRun (some (clientOn s (tileDie t))) (lockId (clientOn s (tileDie t)) (tileDie t) (t.val % 16)) (some j.id)
      (Fin.ofNat 4 (tileDie t)) j.op s).1 with
    | .waits => true
    | _ => false

/-- Whether an access of a die engine, local or remote, waits for a ring slot (R178, R215). -/
def slotBlockedEngine (s : State) (d : DieId) : Bool :=
  s.cat.waiters.any (fun w => decide (w.acc.die = d)) ||
  (List.range 4).any (fun u =>
    (match getHatch s d.val u with | some j => !hatchReady s j | none => false) || (getCpt s d.val u).any (cptStuck s)) ||
  (tilesOf d.val).any (fun t => laneBlocked s t || sfopBlocked s t) ||
  (List.range 16).any (fun i => dmaBlocked s d.val (dmaKey d.val (i / 8) (i % 8))) ||
  s.fabric.sends.any (fun j => decide (j.die = d) && decide (csCop j.win.cmd ≠ 3) &&
    slotLive s (clientOn s d.val) (csSlot j.win.cmd) && !sendReady s d.val j.win)

/-- STREAM_WATCHDOG_FIRE (R214, R215): the bound has passed for a client on a die, and a participant is blocked. -/
def execStreamWatchdogFire (d : DieId) (c : ClientId) (s : State) : Host.Outcome State Fault Refusal :=
  let ts := (tilesOf d.val).map fun t => (t, blockedStreams s t)
  let slots := slotBlockedEngine s d
  let hit := ts.find? fun p => !p.2.isEmpty
  .next (if watchdogHeld s d.val c.val ∨ ¬ hasDie (getClient s c.val) d.val ∨ (hit.isNone ∧ ¬ slots) then s
    else
      let s1 := ts.foldl (fun s p => p.2.foldl (fun s n => markFault p.1 n 3 s) s) s
      let s2 := ts.foldl (fun s p => if p.2.isEmpty then s else setBit (strBlk p.1 0) 0 s) s1
      let detail := match hit with
        | some p => p.1.val + (p.2.filter fun n => decide (n < 58)).foldl (fun m n => m + 2 ^ (6 + n)) 0
        | none => 16 * d.val
      raiseFault c.val 0x0304 detail (bumpDict (dkey 0x4030 0x06) 1 s2))

end Sys2Proof.Machine
end

