-- ==== Sys2Proof/Machine/Jtag.lean ====
section
/-! DEFINITION. The JTAG ports of the dies (R451, R452). -/

namespace Sys2Proof.Machine

/-- A die's JTAG port. -/
def getJtag (s : State) (d : DieId) : Jtag := mget {} s.start.jtag d.val

/-- Storing a die's JTAG port. -/
def setJtag (d : DieId) (x : Jtag) (s : State) : State :=
  { s with start := { s.start with jtag := mset {} s.start.jtag d.val x } }

/-- Cells of a boundary register. -/
def boundaryCells : Nat := 1152

/-- A boundary register's contents from the bits shifted in; cells that none reached hold 0. -/
def cellsOf (bits : List Bool) : List Bool := (List.range boundaryCells).map fun i => bits.getD i false

/-- A die's IDCODE. -/
def idcode : BitVec 32 := 0x15A17A6B

/-- The data register that an instruction selects, as it is captured: IDCODE, the boundary register, or the bypass bit. -/
def jtagDr (x : Jtag) : List Bool :=
  if x.ir = 1 then (List.range 32).map idcode.getLsbD
  else if x.ir = 0 ∨ x.ir = 2 then cellsOf x.cells
  else [false]

/-- Loading an instruction that takes the pins: outside Sketch the port acts as BYPASS (R452). -/
def takePins (d : DieId) (x : Jtag) (s : State) : State :=
  if stageOf s = 1 then setJtag d { x with driving := true } s else setJtag d { getJtag s d with ir := 0xFF } s

/-- EXTEST (R451, R452): the boundary register, with the bits shifted in, drives the pins. -/
def execExtest (d : DieId) (bits : List Bool) (s : State) : Host.Outcome State Fault Refusal :=
  .next (takePins d { getJtag s d with ir := 0, cells := cellsOf bits, float := false } s)

/-- IDCODE (R451). -/
def execIdcode (d : DieId) (s : State) : Host.Outcome State Fault Refusal := .next (setJtag d { getJtag s d with ir := 1 } s)

/-- SAMPLE/PRELOAD (R451): the boundary register takes the bits, from the pins or shifted in. -/
def execSamplePreload (d : DieId) (bits : List Bool) (s : State) : Host.Outcome State Fault Refusal :=
  .next (setJtag d { getJtag s d with ir := 2, cells := cellsOf bits } s)

/-- CLAMP (R451, R452): the pins keep what the boundary register holds. -/
def execClamp (d : DieId) (s : State) : Host.Outcome State Fault Refusal :=
  .next (takePins d { getJtag s d with ir := 4, float := false } s)

/-- HIGHZ (R451, R452): the pins float. -/
def execHighz (d : DieId) (s : State) : Host.Outcome State Fault Refusal :=
  .next (takePins d { getJtag s d with ir := 5, float := true } s)

/-- BYPASS (R451). -/
def execBypass (d : DieId) (s : State) : Host.Outcome State Fault Refusal :=
  .next (setJtag d { getJtag s d with ir := 0xFF } s)

/-- A TAP reset (R451, R452): IDCODE is selected, and the pins return to normal function. -/
def execTapReset (d : DieId) (s : State) : Host.Outcome State Fault Refusal :=
  .next (setJtag d { getJtag s d with ir := 1, driving := false, float := false } s)

end Sys2Proof.Machine
end

