-- ==== Sys2Proof/Machine/Load.lean ====
section
/-! DEFINITION. Loading a plate set: the checks of its image and what the load sets (R218 to R220, R231, R245 to R252, R281, R342, R375, R395). -/

namespace Sys2Proof.Machine

/-! ### The command and the image (R218, R342) -/

/-- A LOAD_PLATES command's fields. -/
structure LoadCmd where
  ibuf : Nat
  ioff : Nat
  ilen : Nat
  plateOff : Nat
  dirOff : Nat
  nDir : Nat
  preOff : Nat
  nPre : Nat
  catOff : Nat
  nCat : Nat
  ttOff : Nat
  ttLen : Nat
  gov : Option Nat
  deriving DecidableEq, Repr

/-- Reading the fields of a LOAD_PLATES command. -/
def loadCmd (c : HostCmd) : LoadCmd :=
  { ibuf := fld (c.w 1) 0 14, ioff := fld (c.w 1) 28 36, ilen := fld (c.w 2) 0 32, plateOff := fld (c.w 2) 32 32,
    dirOff := fld (c.w 3) 0 32, nDir := fld (c.w 3) 32 16, preOff := fld (c.w 4) 0 32, nPre := fld (c.w 4) 32 32,
    catOff := fld (c.w 5) 0 32, nCat := fld (c.w 5) 32 32, ttOff := fld (c.w 6) 0 32, ttLen := fld (c.w 6) 32 32,
    gov := if bit (c.w 7) 14 then some (fld (c.w 7) 0 14) else none }

/-- The end of the plates section: the start of the section behind it, or the image's end (log). -/
def LoadCmd.plateEnd (k : LoadCmd) : Nat :=
  [k.dirOff, k.preOff, k.catOff, k.ttOff].foldl (fun e o => if k.plateOff < o then min e o else e) k.ilen

/-- The sections of an image, as (offset, bytes): plates, directory, presets, Catalog set-up, timetable share. -/
def LoadCmd.sections (k : LoadCmd) : List (Nat × Nat) :=
  [(k.plateOff, k.plateEnd - k.plateOff), (k.dirOff, 16 * k.nDir), (k.preOff, 4 * k.nPre), (k.catOff, 72 * k.nCat),
   (k.ttOff, k.ttLen)]

/-- An image as it was read. -/
structure Image where
  plates : List Byte
  dir : List (Word × Word)
  pres : List Byte
  presets : List (Nat × Nat × Nat)
  recs : List CatRec
  tt : List Word
  deriving DecidableEq, Repr

/-- Reading the sections of an image; the flag says that a word was poisoned. -/
def readSections (c : Nat) (k : LoadCmd) (s : State) : Bool × List (List Byte) × State :=
  k.sections.foldl (fun (acc : Bool × List (List Byte) × State) x =>
    let (bs, s1) := readBuf c (getEnt acc.2.2 k.ibuf) (k.ibuf / 4096) (k.ioff + x.1) x.2 acc.2.2
    (acc.1 || anyPoison bs, acc.2.1 ++ [plain bs], s1)) (false, [], s)

/-- Pairs of words. -/
def pairsOf : List Word → List (Word × Word)
  | a :: b :: l => (a, b) :: pairsOf l
  | _ => []

/-- Catalog write records of 9 words. -/
def recsOf : Nat → List Word → List CatRec
  | 0, _ => []
  | n + 1, ws => { ctl := nth 0 ws 0, w := (ws.drop 1).take 8 } :: recsOf n (ws.drop 9)

/-- Token presets of 4 bytes, as (file, register, count) (R220). -/
def presetsOf : Nat → List Byte → List (Nat × Nat × Nat)
  | 0, _ => []
  | n + 1, bs =>
    let w : Word := BitVec.ofNat 64 (leNat (bs.take 4))
    (fld w 8 5, fld w 0 8, fld w 16 16) :: presetsOf n (bs.drop 4)

/-- An image from the bytes of its sections. -/
def imageOf (k : LoadCmd) (l : List (List Byte)) : Image :=
  let sec (i : Nat) : List Byte := nth [] l i
  { plates := sec 0, dir := pairsOf (wordsOf (2 * k.nDir) (sec 1)), pres := sec 2, presets := presetsOf k.nPre (sec 2),
    recs := recsOf k.nCat (wordsOf (9 * k.nCat) (sec 3)), tt := wordsOf (k.ttLen / 8) (sec 4) }

/-- Reason 1, but for what reading the image meets (R218, R342). -/
def imageBad (s : State) (c : Nat) (k : LoadCmd) : Bool :=
  let e := getEnt s k.ibuf
  !e.ownedBy c || decide (e.len < k.ioff + k.ilen) ||
    k.sections.any fun x => decide (x.1 % 64 ≠ 0) || decide (k.ilen < x.1 + x.2)

/-! ### The directory (R219) -/

/-- Fields of a directory entry. -/
def dirAddr (r : Word × Word) : Nat := fld r.1 0 44
def dirLen (r : Word × Word) : Nat := fld r.2 0 24
def dirEng (r : Word × Word) : Nat := fld r.2 24 4
def dirUnit (r : Word × Word) : Nat := fld r.2 28 4
def dirDie (r : Word × Word) : Nat := fld r.2 32 2

/-- Units of an engine code. -/
def unitsOf (eng : Nat) : Nat := nth 0 [16, 16, 16, 16, 4, 4, 2, 1] eng

/-- The engine key of a directory entry. -/
def dirKey (r : Word × Word) : Nat := (dirDie r * 8 + dirEng r) * 16 + dirUnit r

/-- Whether bytes [a, a + n) lie inside one resident Folio buffer of a client, in the Catalog of a state. -/
def inResident (s : State) (c a n : Nat) : Bool :=
  match regionOf a with
  | .folio d =>
    s.cat.ents.any fun x => decide (x.1 / 4096 = d) && x.2.ownedBy c && decide (x.2.kind = 1) && x.2.resident &&
      (List.range (cdiv n 64)).all fun i =>
        let b := a + 64 * i
        decide (regionOf b = .folio d) && coversLine x.2 (b % 0x10000000 / 64 % 512) (b % 0x10000000 / 32768) &&
          (List.range (cdiv (min 64 (n - 64 * i)) 8)).all fun j =>
            let q := (b % 0x10000000 / 32768 - x.2.lbase) * 2 ^ x.2.nbc + (b % 0x10000000 / 64 % 512 - x.2.b0)
            decide (64 * q + 8 * j + 8 ≤ x.2.len)
  | _ => false

/-- Reason 2 (R219); t is the state with the Catalog set-up applied. -/
def dirBad (t : State) (c : Nat) (k : LoadCmd) (l : List (Word × Word)) : Bool :=
  decide (k.nDir = 0) || decide (300 < k.nDir) || !decide ((l.map dirKey).Nodup) ||
  l.any fun r =>
    decide (unitsOf (dirEng r) ≤ dirUnit r) || !hasDie (getClient t c) (dirDie r) || decide (dirAddr r % 64 ≠ 0) ||
    (decide (dirLen r ≠ 0) && !decide (dirAddr r + 8 * dirLen r ≤ 0x1B000000000) &&
      !inResident t c (dirAddr r) (8 * dirLen r))

/-! ### The timetable share (R280, R281) -/

/-- Whether two windows overlap. -/
def overlap (x y : Slot) : Bool := decide (x.start < y.stop) && decide (y.start < x.stop)

/-- Whether any two entries of a list overlap. -/
def anyOverlap : List Slot → Bool
  | [] => false
  | x :: l => l.any (overlap x) || anyOverlap l

/-- Reserved encodings of a share's header. -/
def shareHdrBad (t : Share) (len : Nat) : Bool :=
  decide (len < 64) || decide (t.nslot = 0) || decide (len < 64 + 16 * t.nslot) || decide (t.stepLen = 0) ||
  (decide (32 ≤ t.cparent) && decide (t.cparent ≤ 62)) || decide (t.lead = 0) || decide (t.quantum = 0) ||
  decide (t.limit = 0)

/-- Reserved encodings of a slot entry; a token reference that counts nothing or names no file is one (R222). -/
def slotReserved (e : Slot) : Bool :=
  decide (e.window = 0) || decide (64 < e.window) || decide (4 ≤ e.eng) ||
  (decide (e.kind ≠ 3) && (decide (e.flits = 0) || decide (25544 < e.flits))) ||
  (decide (e.kind = 1) && decide (e.tokref ≠ 0) &&
    (decide (trefCnt e.tokref = 0) || decide (17 ≤ trefFile e.tokref)))

/-- A slot entry that R281 refuses on its own. -/
def slotRefused (s : State) (t : Share) (e : Slot) : Bool :=
  slotReserved e || decide (t.stepLen < e.stop) ||
  (if e.kind = 3 then decide (e.window < t.depth + 2)
   else
    let p := portFor s e.port
    !hasPeer s p || decide (peerMod s p ≠ e.peer) ||
      (decide (e.kind ≠ 1) && (decide (e.window < 3) || decide (412 * (e.window - 2) < e.flits))))

/-- Ports of the control tree. -/
def treePorts (t : Share) : List Nat := (List.range 32).filter fun p => decide (t.cparent = p) || t.cchild.testBit p

/-- Reason 3 (R281). -/
def shareBad (s : State) (t : Share) (len : Nat) : Bool :=
  let es : List Slot := t.slots.map (·.2)
  let outs : List Slot := es.filter fun e => decide (e.kind = 0 ∨ e.kind = 2)
  let ctls : List Slot := es.filter fun e => decide (e.kind = 3)
  let cend : Nat := ctls.foldl (fun m (e : Slot) => max m e.stop) 0
  let closers : List Slot := ctls.filter fun e => decide (e.stop = cend)
  shareHdrBad t len || es.any (slotRefused s t) ||
  (List.range 32).any (fun p =>
    anyOverlap (outs.filter fun e => decide (e.port = p)) ||
    anyOverlap (es.filter fun e =>
      (decide (e.kind = 1) && decide (e.port = p)) || (decide (e.kind = 2) && decide (e.inport = p)))) ||
  ctls.any (fun x => outs.any fun y => overlap x y && (treePorts t).contains y.port) ||
  decide (t.lead < cdiv t.diam 2 + 1) || ctls.isEmpty || decide (1 < closers.length) ||
  closers.any (fun e => decide (e.positions < 3)) ||
  (treePorts t).any (fun p => !hasPeer s (portFor s p)) ||
  (decide (t.cparent = 63) != decide (t.root = moduleId s)) ||
  (decide (t.cparent = 63) && decide (t.cchild = 0) && (decide (t.depth ≠ 0) || decide (t.diam ≠ 0)))

/-- What Proof does not serve (R395): t is the state with the Catalog set-up applied. -/
def proofLimit (s : State) (im : Image) : Bool :=
  let t : Share := im.tt
  inProof s &&
  (im.dir.any (fun r => decide (dirEng r < 4) && !bit (getDict s (dkey 0x2000 0x06)) (16 * dirDie r + dirUnit r)) ||
   t.slots.any (fun x => decide (x.2.kind ≠ 3)) || decide (t.depth ≠ 0) || decide (t.diam ≠ 0) ||
   decide (t.cchild ≠ 0) || decide (t.cparent ≠ 63) || decide (t.root ≠ moduleId s))

/-! ### The governor table (R244 to R250) -/

/-- The sections of a governor table, as (offset, bytes). -/
def govSections (t : State) (g : Nat) : List (Nat × Nat) :=
  [(0, 64 + 64 * govNL t g), (govTOff t g, 8 * govNT t g), (govPOff t g, 8 * govNP t g), (govROff t g, 16 * govNR t g),
   (govStOff t g, 32 * govNL t g), (govSnOff t g, 592 * govNT t g)]

/-- Whether two sections share a byte. -/
def secMeet (x y : Nat × Nat) : Bool :=
  decide (0 < x.2) && decide (0 < y.2) && decide (x.1 < y.1 + y.2) && decide (y.1 < x.1 + x.2)

/-- Whether any two sections of a list share a byte. -/
def anyMeet : List (Nat × Nat) → Bool
  | [] => false
  | x :: l => l.any (secMeet x) || anyMeet l

/-- Whether the table's header or sections are bad (R246). -/
def govHeadBad (t : State) (g : Nat) : Bool :=
  let e := getEnt t g
  decide (e.len < 64) || decide (govNL t g = 0) || decide (4096 < govNL t g) || decide (govNT t g = 0) ||
  decide (16384 < govNT t g) ||
  (govSections t g).any (fun x => decide (x.1 % 64 ≠ 0) || decide (e.len < x.1 + x.2)) || anyMeet (govSections t g)

/-- The narrow element formats of a layer's ladder; none where a rung is not one (R247). -/
def ladderOf (t : State) (g l : Nat) : Option (List Elem) :=
  ((List.range (layerTop t g l + 1)).mapM fun j => elemOf (layerRung t g l j)).bind fun es =>
    if es.all (fun x => !elemWide x) then some es else none

/-- Whether element widths never fall along a list. -/
def widthsRise : List Elem → Bool
  | x :: y :: l => decide (elemBits x ≤ elemBits y) && widthsRise (y :: l)
  | _ => true

/-- Bits [hi : lo] of a layer record's word 2 and 3 (R247). -/
def layerField (t : State) (g l w lo n : Nat) : Nat := fld (layerWord t g l w) lo n

/-- A layer record with a reserved encoding, or that names records the table does not hold (R247). -/
def layerBad (t : State) (g l : Nat) (share : Share) : Bool :=
  let ladder := ladderOf t g l
  let v := share.slot (layerVSlot t g l)
  (match ladder with
   | none => true
   | some es => !decide es.Nodup || !widthsRise es) ||
  decide (layerTop t g l < layerRInit t g l) || decide (8 < layerHead t g l) || decide (layerVPos t g l < 3) ||
  decide (layerClean t g l = 0) || decide (32 < layerAStep t g l) ||
  decide (layerField t g l 2 14 5 = 0) || decide (16 < layerField t g l 2 14 5) ||
  decide (govNT t g < layerField t g l 2 0 14 + layerField t g l 2 14 5) ||
  decide (govNP t g < layerField t g l 2 19 20 + layerField t g l 2 39 20) ||
  decide (govNR t g < layerField t g l 3 0 16 + layerField t g l 3 16 16) ||
  decide (layerMtCnt t g l = 0) ||
  decide (share.nslot ≤ layerVSlot t g l) || decide (v.kind ≠ 3) || decide (v.positions ≤ layerVPos t g l)

/-- The location fields of an entry. -/
def locOf (e : Entry) : Nat × Nat := (e.kind, if e.kind = 1 then fld e.w3 0 26 else e.saddr)

/-- Whether two buffers share a byte: every Folio buffer starts at the start of a line, so two that share a line share its
first byte. -/
def shareByte (x y : Entry) : Bool :=
  if x.kind = 2 ∧ y.kind = 2 then decide (x.saddr < y.saddr + y.len) && decide (y.saddr < x.saddr + x.len)
  else shareLine x y

/-- A handle's entry with its element format changed. -/
def Entry.withElem (e : Entry) (x : Elem) : Entry := { e with w0 := setFld e.w0 8 4 (elemCode x) }

/-- Whether the handles of a tensor record break R245 under a ladder. -/
def tensorBad (t : State) (c : Nat) (ladder : List Elem) (r : Word) : Bool :=
  let d := tDie r
  let nm (h : Nat) : Nat := d * 4096 + h
  let p := getEnt t (nm (tHp r))
  let q := getEnt t (nm (tHq r))
  let v := getEnt t (nm (tHv r))
  let narrow (e : Entry) : Bool := e.ownedBy c && e.tensor && (match e.fmt with | some f => !elemWide f.elem | none => false)
  let like (x y : Entry) : Bool :=
    decide (x.rows = y.rows) && decide (x.cols = y.cols) && decide (fld x.w0 12 2 = fld y.w0 12 2) &&
    decide (x.tsBits = y.tsBits) && decide (x.slots = y.slots) && decide (x.len = y.len)
  let widest := ladder.foldl (fun m x => if elemBits m ≤ elemBits x then x else m) .int4
  !narrow p || !narrow q || !narrow v || !like p q || !like p v ||
  shapeBad (p.withElem widest) || shapeBad (q.withElem widest) || shapeBad (v.withElem widest) || shareByte p q ||
  !(decide (locOf v = locOf p) || decide (locOf v = locOf q)) ||
  decide (p.stat ≠ tSlot r) || decide (q.stat ≠ tSlot r) || decide (v.stat ≠ tSlot r) ||
  t.cat.ents.any fun x => decide (x.1 / 4096 = d) && decide (x.2.kind ≠ 0) && decide (x.2.stat = tSlot r) &&
    decide (x.1 ≠ nm (tHp r)) && decide (x.1 ≠ nm (tHq r)) && decide (x.1 ≠ nm (tHv r))

/-- A patch record with a reserved encoding (R249). -/
def patchBad (x : Word) : Bool :=
  decide (fld x 0 44 % 8 ≠ 0) || decide (toSigned 10 (fld x 44 10) < -320) || decide (80 < toSigned 10 (fld x 44 10))

/-- A region record that names no plate of the directory, or reaches beyond it, or no layer (R246, R250). -/
def regionBad (t : State) (g : Nat) (dir : List (Word × Word)) (x : Word × Word) : Bool :=
  decide (govNL t g ≤ fld x.1 48 12) ||
  !dir.any fun r => decide (dirEng r = fld x.2 0 4) && decide (dirUnit r = fld x.2 4 4) && decide (dirDie r = fld x.2 8 2) &&
    decide (fld x.1 0 24 + fld x.1 24 24 ≤ dirLen r)

/-- The vote places of a table's layers. -/
def votePlaces (t : State) (g : Nat) : List (Nat × Nat) :=
  (List.range (govNL t g)).map fun l => (layerVSlot t g l, layerVPos t g l)

/-- Reason 4 (R246): t is the state with the Catalog set-up applied. -/
def govBad (t : State) (c g : Nat) (im : Image) : Bool :=
  !(getEnt t g).ownedBy c || (getEnt t g).tensor || govHeadBad t g || !decide (votePlaces t g).Nodup ||
  (List.range (govNL t g)).any (fun l => layerBad t g l im.tt ||
    (layerTensors t g l).any fun r => tensorBad t c ((ladderOf t g l).getD []) r.2) ||
  (List.range (govNP t g)).any (fun i => patchBad (bufWord t g (govPOff t g + 8 * i))) ||
  (List.range (govNR t g)).any (fun i => regionBad t g im.dir (regionRec t g i))

/-- Reading the whole governor table, for its poison (R246). -/
def readGov (c g : Nat) (s : State) : Bool × State :=
  let (bs, s1) := readBuf c (getEnt s g) (g / 4096) 0 (getEnt s g).len s
  (anyPoison bs, s1)

/-! ### The load (R342) -/

/-- One Catalog record on every die of a client, in die order; the first refusal ends it. -/
def applyRec (c : Nat) (r : CatRec) (acc : Option Nat × State) : Option Nat × State :=
  ((List.finRange 4).filter fun d => hasDie (getClient acc.2 c) d.val).foldl (fun acc d =>
    match acc.1 with
    | some _ => acc
    | none =>
      match catWrite (some c) d r acc.2 with
      | (.refused k, s1) => (some k, s1)
      | (_, s1) => (none, s1)) acc

/-- The Catalog set-up on the client's path (R342). -/
def applyRecs (c : Nat) (l : List CatRec) (s : State) : Option Nat × State :=
  l.foldl (fun acc r => match acc.1 with | some _ => acc | none => applyRec c r acc) (none, s)

/-- The governor's state area and BSLIM at a load (R251, R252). -/
def initGov (c g : Nat) (s : State) : State :=
  (List.range (govNL s g)).foldl (fun s l =>
    let w1 := (layerTensors s g l).foldl (fun (w : Word) r =>
      setFld w (8 * tIdx r.2) 8 (getEnt s (tDie r.2 * 4096 + tHp r.2)).wlo8) 0
    let s1 := setLayerState c g l 0 (BitVec.ofNat 64 (layerRInit s g l)) s
    let s2 := setLayerState c g l 3 0 (setLayerState c g l 2 0 (setLayerState c g l 1 w1 s1))
    (layerTensors s g l).foldl (fun s r =>
      let a := govBlk (tDie r.2) (tSlot r.2)
      setReg a (setFld (getReg s a) 0 8 (layerBsLim s g l)) s) s2) s

/-- Emptying the instruction caches of a client's tiles (R231). -/
def uncachePlates (c : Nat) (s : State) : State :=
  let cl := getClient s c
  let keep (x : Nat × Caches) : Nat × Caches :=
    if hasDie cl (x.1 / 16) then (x.1, { x.2 with lines := [], order := [] }) else x
  { s with plates := { s.plates with
      caches := (s.plates.caches.map keep).filter (fun x => decide (x.2 ≠ {})) } }

/-- The plate set that an image gives (R219, R220, R375). -/
def setOf (k : LoadCmd) (im : Image) : PlateSet :=
  { dir := im.dir.foldl (fun m r => mset (0, 0) m (dirKey r) (dirAddr r, dirLen r)) [],
    presets := im.presets, gov := k.gov, tt := im.tt, psig := (crc32c (im.plates ++ im.pres)).toNat }

/-- The reason of a failure at step 2, in the order of the reason codes; t is the state with the set-up applied. -/
def loadReason (s t : State) (c : Nat) (k : LoadCmd) (im : Image) (govPoison : Bool) : Option Nat :=
  if im.presets.any (fun p => decide (17 ≤ p.1)) then some 1
  else if dirBad t c k im.dir then some 2
  else if shareBad s im.tt k.ttLen then some 3
  else if (match k.gov with | some g => govPoison || govBad t c g im | none => false) then some 4
  else if proofLimit s im then some 6
  else none

/-- Loading a plate set whose image has been read: the checks, then the Catalog set-up, the set, the governor's state. -/
def loadImage (h : HostCmd) (c : Nat) (k : LoadCmd) (im : Image) (s : State) : State :=
  let (bad, s0) := match k.gov with
    | some g => readGov c g s
    | none => (false, s)
  match loadReason s0 (applyRecs c im.recs s0).2 c k im bad with
  | some r => cmdDone h stLoadFailed r s0
  | none =>
    match applyRecs c im.recs s0 with
    | (some code, s1) => cmdDone h stLoadFailed (5 + 256 * code) (setClient c { getClient s1 c with set := none } s1)
    | (none, s1) =>
      let s2 := uncachePlates c (setClient c { getClient s1 c with set := some (setOf k im) } s1)
      cmdDone h stOk 0 (match k.gov with | some g => initGov c g s2 | none => s2)

/-- A LOAD_PLATES command of a client. -/
def loadPlates (h : HostCmd) (s : State) : State :=
  let c := queueClient h.q
  let k := loadCmd h
  if (getClient s c).run.isSome then cmdDone h stBusy 0 s
  else if imageBad s c k then cmdDone h stLoadFailed 1 s
  else
    let (bad, l, s1) := readSections c k s
    if bad then cmdDone h stLoadFailed 1 s1 else loadImage h c k (imageOf k l) s1

/-- LOAD_PLATES (R342). -/
def execLoadPlates (q : Nat) (s : State) : Host.Outcome State Fault Refusal := .next (withHost 0x01 q s loadPlates)

end Sys2Proof.Machine
end

