-- ==== Sys2Proof/Machine/Mailbox.lean ====
section
/-! DEFINITION. The PCIe mailbox (R417, R418). -/

namespace Sys2Proof.Machine

/-- A mailbox register (R417). -/
def mbReg (off : Nat) : Nat := bar0 (0x100000 + off)

/-- The request word (R417). -/
def mbRequest (s : State) : Word := getReg s (mbReg 8)

/-- Whether the host can reach the mailbox: from Sketch onward, unless boundary scan has the pins (R405, R452). -/
def mbOpen (s : State) : Bool := s.start.sketched && !pinsTaken s

/-- Ending a request: DONE, ABORTED, ACODE and RLEN. A reset that the request has caused leaves nothing to end. -/
def mbDone (code len : Nat) (s : State) : State :=
  if ¬ s.start.sketched then s
  else setReg (mbReg 0x10) (BitVec.ofNat 64 (code + 2 ^ 32 * len)) (setReg (mbReg 0) (BitVec.ofNat 64 (2 + 4 * b2n (decide (code ≠ 0)))) s)

/-- A byte of the value buffer. -/
def mbByte (s : State) (i : Nat) : Byte := mget 0#8 s.mail.data i

/-- Placing bytes in the value buffer, from a byte on. -/
def mbPlace (o : Nat) (bs : List Byte) (s : State) : State :=
  { s with mail := { s.mail with data := bs.zipIdx.foldl (fun m x => mset 0#8 m (o + x.2) x.1) s.mail.data } }

/-- Ending a read: its bytes stand in the buffer. -/
def mbRead (r : Nat × List Byte × State) : State :=
  if r.1 ≠ 0 then mbDone r.1 0 r.2.2 else mbDone 0 r.2.1.length (mbPlace 0 r.2.1 r.2.2)

/-- Serving a request on this module (R417, R418): INFO returns the entry record, whatever DIR says. -/
def mbServe (w : Word) (s : State) : State :=
  let ix := fld w 8 16
  let sub := fld w 24 8
  let len := fld w 32 17
  if bit w 1 then mbRead (dictInfo ix sub s)
  else if ¬ bit w 0 then mbRead (dictRead ix sub s)
  else if len = 0 ∨ 65536 < len then mbDone 6 0 s
  else
    let r := dictWrite .mailbox ix sub ((List.range len).map (mbByte s)) s
    mbDone r.1 0 r.2

/-- Forwarding a request as a best-effort packet, whose layout the spec does not give, so its bytes are open (R418, log). -/
def mbForward (w : Word) (s : State) : State :=
  let (x, s1) := fresh s
  let (y, s2) := fresh s1
  let s3 := addPacket { dmod := fld w 49 12, smod := moduleId s, bytes := bytesOf [x, y], client := 16 } s2
  setReg (mbReg 0) 1 { s3 with mail := { s3.mail with remote := true } }

/-- MAILBOX_GO (R418): a request that is forwarded leaves GO at 1, and a second GO is discarded. -/
def execMailboxGo (s : State) : Host.Outcome State Fault Refusal :=
  .next (if ¬ mbOpen s ∨ s.mail.remote then s
    else
      let w := mbRequest s
      if ¬ bit w 61 ∨ fld w 49 12 = moduleId s % 4096 then mbServe w s
      else if ¬ (List.range 32).any (fun p => decide (portState s p = 2)) then mbDone 13 0 s
      else mbForward w s)

/-- MAILBOX_REMOTE_TIMEOUT (R418): no result has returned within MB_REMOTE_TIMEOUT. -/
def execMailboxRemoteTimeout (s : State) : Host.Outcome State Fault Refusal :=
  .next (if ¬ s.mail.remote then s else mbDone 9 0 { s with mail := { s.mail with remote := false } })

end Sys2Proof.Machine
end

