-- ==== Sys2Proof/Machine/Regs.lean ====
section
/-! DEFINITION. Reads and writes of registers through the module address map and BAR0 (R3 to R6, R81, R106, R134, R158, R174, R217, R237, R252, R294, R296, R323, R333 to R340, R369, R417). Addresses are those of 64-bit words: bits [2:0] are left out. -/

namespace Sys2Proof.Machine

/-! ### Fields (R3, R4) -/

/-- A write of v to a register that holds old: RW bits store it, W1C bits that it names clear, every other bit stays. -/
def writeFields (rw w1c old v : Word) : Word := (old &&& ~~~rw &&& ~~~(v &&& w1c)) ||| (v &&& rw)

/-- The RW and W1C bits of the registers of a die's control space, by offset; those of ports, which act, apart. -/
def ctlMasks (o : Nat) : Word × Word :=
  if o < 0x100000 then
    let b := o % 0x10000
    if b = 0 then (0, 0x7F)
    else if b = 0x1000 then (0, 0x3F)
    else if b = 0x2000 then (0, 0x1F)
    else if b = 0x3400 then (0, 0x11)
    else (0, 0)
  else if o < 0x120000 then (if o % 0x1000 = 0 then (0, 0xF) else (0, 0))
  else if o < 0x122000 then
    let b := o % 0x1000
    if 0x100 ≤ b ∧ b < 0x300 ∧ b % 0x40 = 0 then (0, 0xC0000) else (0, 0)
  else if o = 0x130400 then (0, 0x11)
  else if 0x140000 ≤ o ∧ o < 0x140200 ∧ o % 0x40 = 0 then (0, 0x1800000)
  else if 0x150000 ≤ o ∧ o < 0x156000 ∧ o % 0x1000 = 0 then (0, 0x18)
  else if 0x200000 ≤ o ∧ o < 0x300000 ∧ o % 0x400 = 0 then (0xFFFF, 0)
  else if 0x300000 ≤ o ∧ o < 0x302000 then (0xFF, 0xF00)
  else if o = 0x800000 then (0, 0x5E1)
  else (0, 0)

/-- The RW and W1C bits of BAR0's registers, by offset; doorbells, the mailbox and enables act apart (R337, R340). -/
def barMasks (o : Nat) : Word × Word :=
  let queue (b : Nat) : Word × Word :=
    if b = 0 then (0xFFFFFFFFFFFFFFC0, 0)
    else if b = 8 then (0xF, 0)
    else if b = 0x18 then (1, 2)
    else (0, 0)
  if o = 0 then (1, 0)
  else if o = 8 then (0xFF000000000, 0)
  else if o = 0x10 then (0xFFFFE000000, 0)
  else if (0x10000 ≤ o ∧ o < 0x11000) ∨ (0x11000 ≤ o ∧ o < 0x11040) then queue (o % 0x40)
  else if 0x12000 ≤ o ∧ o < 0x12440 then
    if o % 0x40 = 0x20 then (0xFF, 0)
    else if o % 0x40 = 0x28 then (0xFFFFFFFF, 0)
    else queue (o % 0x40)
  else if o = 0x100008 then (0x3FFFFFFFFFFFFF03, 0)
  else (0, 0)

/-- An address with its low three bits left out. -/
def wordAddr (a : Nat) : Nat := a / 8 * 8

/-- Storing a write by its register's masks. -/
def storeFields (m : Word × Word) (a : Nat) (v : Word) (s : State) : State := setReg a (writeFields m.1 m.2 (getReg s a) v) s

/-- The agent of a port number; none beyond the four Registrar cores. -/
def portAgent (p : Nat) : Option Agent :=
  if p = 0 then some .host
  else if h : p - 1 < 4 then some (.core ⟨p - 1, h⟩)
  else none

/-- Words of a port's record, from its registers. -/
def portWords (base n : Nat) (s : State) : List Word := (List.range n).map fun i => getReg s (base + 8 * i)

/-- A write to a Catalog port: the word at 0x40 submits the record; a busy port discards it with an address error (R335). -/
def catPortWrite (d : DieId) (a : Agent) (off : Nat) (v : Word) (s : State) : State :=
  let base := catPort d.val (agentPort a) 0
  if 0x40 < off then s
  else if catBusy s d a then post 0x0204 16 (base + off) s
  else
    let s1 := setReg (base + off) v s
    if off = 0x40 then
      portCatWrite d a { ctl := getReg s1 base, w := portWords (base + 8) 8 s1 } s1
    else s1

/-- A write to a Folio operation port: the word at 0x20 submits the record (R335). -/
def fopPortWrite (d : DieId) (a : Agent) (off : Nat) (v : Word) (s : State) : State :=
  let base := fopPort d.val (agentPort a) 0
  if 0x20 < off then s
  else
    let s1 := setReg (base + off) v s
    if off = 0x20 then
      portFop d a { w0 := getReg s1 base, w1 := getReg s1 (base + 8), w2 := getReg s1 (base + 0x10),
                    w3 := getReg s1 (base + 0x18), w4 := v } s1
    else s1

/-- The state of a next outcome. -/
def after (s : State) : Host.Outcome State Fault Refusal → State
  | .next t => t
  | _ => s

/-- A write to BAR0, but for the control window (R337, R340, R417, R418). -/
def barWrite (o : Nat) (v : Word) (s : State) : State :=
  let a := bar0 o
  if o = 0 then
    let s1 := storeFields (barMasks o) a v s
    if bit v 0 then (List.range 65).foldl (fun s q => fetchQueue q s) s1 else s1
  else if (0x10000 ≤ o ∧ o < 0x11040) ∧ o % 0x40 = 0x18 then
    let s1 := storeFields (barMasks o) a v s
    if bit v 0 then enableQueue false ((o - 0x10000) / 0x40) s1 else s1
  else if (0x12000 ≤ o ∧ o < 0x12440) ∧ o % 0x40 = 0x18 then
    let s1 := storeFields (barMasks o) a v s
    if bit v 0 then enableQueue true ((o - 0x12000) / 0x40) s1 else s1
  else if 0x20000 ≤ o ∧ o < 0x31000 then
    let c := (o - 0x20000) / 0x1000
    let b := o % 0x1000
    if b = 0x20 then after s (execEventQueueHeadWrite c v.toNat s)
    else if b < 0x20 ∧ (c < 16 ∨ b = 0) then after s (execDoorbellWrite (4 * c + b / 8) v.toNat s)
    else s
  else if o = 0x100000 then (if bit v 0 then after s (execMailboxGo s) else s)
  else if o = 0x100008 then (if s.mail.remote then s else storeFields (barMasks o) a v s)
  else if 0x101000 ≤ o ∧ o < 0x111000 then (if s.mail.remote then s else mbPlace (o - 0x101000) (leBytes 8 v.toNat) s)
  else storeFields (barMasks o) a v s

/-- A write to a die's control space. -/
def ctlWrite (d : DieId) (o : Nat) (v : Word) (s : State) : State :=
  if 0x310000 ≤ o ∧ o < 0x310500 then
    match portAgent ((o - 0x310000) / 0x100) with
    | some a => catPortWrite d a (o % 0x100) v s
    | none => s
  else if 0x320000 ≤ o ∧ o < 0x320500 then
    match portAgent ((o - 0x320000) / 0x100) with
    | some a => fopPortWrite d a (o % 0x100) v s
    | none => s
  else storeFields (ctlMasks o) (ctlBase d.val + o) v s

/-- A write to a module address outside the control window (R334). -/
def mapWrite (a : Nat) (v : Word) (s : State) : State :=
  if ¬ assigned a then post 0x0204 16 (a % 2 ^ 44) s
  else if a < 0xFF000000000 then writeMem 16 a (leBytes 8 v.toNat) s
  else if h : (a - 0xFF000000000) / 0x100000000 < 4 then
    ctlWrite ⟨(a - 0xFF000000000) / 0x100000000, h⟩ (a % 0x100000000) v s
  else barWrite (a - 0xFF800000000) v s

/-- Where an access to a module address goes: the control window leads elsewhere (R337). A window onto the window itself, or
onto an address below 0xF00_0000_0000, is taken as unassigned. -/
def windowAddr (s : State) (a : Nat) : Option Nat :=
  if 0xFF802000000 ≤ a ∧ a < 0xFF804000000 then
    let t := fld (getReg s (bar0 0x10)) 25 19 * 0x2000000 + (a - 0xFF802000000)
    if t < 0xF0000000000 ∨ (0xFF802000000 ≤ t ∧ t < 0xFF804000000) then none else some t
  else some a

/-- REGISTER_WRITE (R3, R4, R334 to R337). -/
def execRegisterWrite (a : Nat) (v : Word) (s : State) : Host.Outcome State Fault Refusal :=
  .next (match windowAddr s (wordAddr a) with
    | none => post 0x0204 16 (a % 2 ^ 44) s
    | some t => mapWrite t v s)

/-! ### Reads -/

/-- A stream's descriptors' lines in the buffer that are not yet taken (R217). -/
def bufferedLines (x : Strm) : Nat :=
  let n (d : Option Desc) : Nat := match d with | some d => d.recs.foldl (fun n r => n + r.parts.length) 0 | none => 0
  n x.active + n x.queued

/-- STREAM_STATE (R217). -/
def streamState (s : State) (t : TileId) (n : Nat) : Nat :=
  let x := getStrm (getStr s t) n
  let st := if x.fault ≠ 0 then 3 else if x.active.isSome ∧ x.queued.isSome then 2 else if x.active.isSome then 1 else 0
  st + 4 * b2n ((blockedStreams s t).contains n) + 8 * (bufferedLines x % 2 ^ 15) + 2 ^ 18 * x.fault

/-- STREAM_POS (R217). -/
def streamPos (s : State) (t : TileId) (n : Nat) : Nat :=
  match (getStrm (getStr s t) n).active with
  | some d => d.doneRecs
  | none => 0

/-- Registers of a tile whose fields the state holds elsewhere (R81, R106, R134, R217): the word, or none. -/
def tileReg (s : State) (t : TileId) (b : Nat) : Option Nat :=
  if b = 0 then some (arrayStatus s t)
  else if b = 0x040 then
    some (match (getArr s t).ghandle with | some g => (fullSlots s g (getEnt s g)).length | none => 0)
  else if b = 0x1000 then
    some (fld (getReg s (vecBlk t 0)) 0 6 + 64 * b2n (!(getVec s t).bind.isEmpty) + 128 * (getVec s t).queue.length)
  else if b = 0x2000 then some (fld (getReg s (strBlk t 0)) 0 5 + 32 * (256 - pagesUsed (getStr s t)))
  else if 0x2100 ≤ b ∧ b < 0x2500 then
    some (if b % 0x10 = 0 then streamState s t ((b - 0x2100) / 0x10) else streamPos s t ((b - 0x2100) / 0x10))
  else none

/-- ENG_STATUS of a Hatch unit or a Counterproof engine (R158). -/
def engStatus (s : State) (a : Nat) (busy : Bool) : Nat := fld (getReg s a) 0 4 + 16 * b2n busy

/-- Whether a Hatch unit has a command or a drain in progress. -/
def hatchBusy (s : State) (d u : Nat) : Bool :=
  (mget none s.units.hatch (4 * d + u)).isSome ||
    (List.range 4).any fun i => (mget {} s.units.lanes (16 * d + 4 * u + i)).offer.isSome

/-- A register of a DMA queue's block whose fields the state holds elsewhere (R158). -/
def dmaReg (s : State) (d e q b : Nat) : Option Nat :=
  let x : DmaQ := mget {} s.units.dma ((2 * d + e) * 8 + q)
  if b = 0 then
    some (x.staged.foldl (fun n u => n + u.2.1.length) 0 + 2 ^ 17 * b2n x.burst +
      2 ^ 18 * fld (getReg s (dmaQBlk d e q 0)) 18 2)
  else if b = 0x20 then some (x.high % 128 + 2 ^ 8 * (x.low % 128))
  else none

/-- A word of a Catalog entry (R174). -/
def Entry.word (e : Entry) (i : Nat) : Word := nth 0 [e.w0, e.w1, e.w2, e.w3, e.w4, e.w5, e.w6, e.w7] i

/-- A word of a flow context (R296). -/
def Ctx.word (x : Ctx) (i : Nat) : Word := nth 0 [x.w0, x.w1, x.w2, x.w3] i

/-- Whether the settled gate of the step in progress on a die is SKIP (R313, R323). -/
def gateSkips (s : State) (d : Nat) : Bool :=
  match (getClient s (clientOn s d)).step with
  | some st => st.gates.any fun g => decide (g.outcome = some true)
  | none => false

/-- A register of a die's control space as it reads; none for one that the state holds as it reads. -/
def ctlReg (s : State) (d : DieId) (o : Nat) : Option Nat :=
  if o < 0x100000 then
    if h : 16 * d.val + o / 0x10000 < 64 then tileReg s ⟨16 * d.val + o / 0x10000, h⟩ (o % 0x10000) else none
  else if o < 0x104000 ∧ o % 0x1000 = 0 then
    some (engStatus s (ctlBase d.val + o) (hatchBusy s d.val ((o - 0x100000) / 0x1000)))
  else if 0x110000 ≤ o ∧ o < 0x114000 ∧ o % 0x1000 = 0 then
    some (engStatus s (ctlBase d.val + o) (!(mget [] s.units.cpt (4 * d.val + (o - 0x110000) / 0x1000)).isEmpty))
  else if 0x120000 ≤ o ∧ o < 0x122000 ∧ 0x100 ≤ o % 0x1000 ∧ o % 0x1000 < 0x300 then
    dmaReg s d.val ((o - 0x120000) / 0x1000) ((o % 0x1000 - 0x100) / 0x40) (o % 0x40)
  else if 0x310000 ≤ o ∧ o < 0x310500 ∧ o % 0x100 = 0 then some 0
  else if 0x320000 ≤ o ∧ o < 0x320500 ∧ o % 0x100 ≤ 0x20 then some 0
  else if 0x400000 ≤ o ∧ o < 0x440000 then
    some ((getEnt s (d.val * 4096 + (o - 0x400000) / 64)).word (o % 64 / 8)).toNat
  else if 0x440000 ≤ o ∧ o < 0x480000 then
    some (if o % 64 = 56 then useCount s (d.val * 4096 + (o - 0x440000) / 64) else 0)
  else if o = 0x800000 then some (setFld (getReg s (collBlk d.val 0)) 9 1 (b2n (gateSkips s d.val))).toNat
  else if 0x900000 ≤ o ∧ o < 0xB00000 then
    some ((mget {} s.fabric.ctxs (d.val * 65536 + (o - 0x900000) / 32)).word (o % 32 / 8)).toNat
  else none

/-- The block of counters that an offset of a die's control space lies in: its lowest-addressed word and its words (R369). -/
def ctlBlock (o : Nat) : Option (Nat × Nat) :=
  let within (lo n : Nat) : Option (Nat × Nat) := if lo ≤ o ∧ o < lo + 8 * n then some (lo, n) else none
  let page := o / 0x1000 * 0x1000
  if o < 0x100000 then
    let b := o % 0x10000
    if b < 0x1000 then (within (page + 8) 4).or (within (page + 0x28) 3)
    else if b < 0x2000 then within (page + 8) 5
    else if b < 0x3000 then within (page + 8) 5
    else if b < 0x3400 then some (o / 0x100 * 0x100, 32)
    else none
  else if o < 0x120000 then (within (page + 8) 4).or (within (page + 0x800) 32)
  else if o < 0x122000 then
    if 0x100 ≤ o % 0x1000 ∧ o % 0x1000 < 0x300 ∧ o % 0x40 = 0x18 then some (o, 1) else within (page + 0x800) 32
  else if 0x140000 ≤ o ∧ o < 0x140200 then within (o / 0x40 * 0x40 + 8) 5
  else if 0x150000 ≤ o ∧ o < 0x156000 then within (page + 8) 5
  else if 0x200000 ≤ o ∧ o < 0x300000 then within (o / 0x400 * 0x400) 74
  else if 0x800000 ≤ o ∧ o < 0x801000 then (within 0x800008 6).or (within 0x800800 32)
  else none

/-- Copying a counter block into its shadow, at one edge (R369). -/
def latchBlock (lo n : Nat) (s : State) : State :=
  { s with shadow := (List.range n).foldl (fun m i => mset 0 m (lo + 8 * i) (getReg s (lo + 8 * i))) s.shadow }

/-- A read of a die's control space: counters through their block's shadow, TEMP and HOT of a stack as the sensor gives them,
which is open (log 4), every other register as it stands. -/
def ctlRead (d : DieId) (o : Nat) (s : State) : Word × State :=
  let a := ctlBase d.val + o
  match ctlBlock o with
  | some (lo, n) =>
    let s1 := if lo = o then latchBlock (ctlBase d.val + lo) n s else s
    (mget 0 s1.shadow a, s1)
  | none =>
    if 0x150000 ≤ o ∧ o < 0x156000 ∧ o % 0x1000 = 0 then
      let (x, s1) := fresh s
      (BitVec.ofNat 64 (fld (getReg s a) 0 5 + 32 * fld x 0 1 + 2 ^ 8 * fld x 8 8), s1)
    else match ctlReg s d o with
      | some v => (BitVec.ofNat 64 v, s)
      | none => (getReg s a, s)

/-- A read of BAR0, but for the control window: a doorbell page gives no field to read, so its value is open (log 4). -/
def barRead (o : Nat) (s : State) : Word × State :=
  if o = 0 then (BitVec.ofNat 64 (fld (getReg s (bar0 0)) 0 1 + 2 * b2n (!s.host.fetched.isEmpty)), s)
  else if 0x20000 ≤ o ∧ o < 0x31000 then fresh s
  else if 0x101000 ≤ o ∧ o < 0x111000 then
    (BitVec.ofNat 64 (leNat ((List.range 8).map fun i => mbByte s (o - 0x101000 + i))), s)
  else (getReg s (bar0 o), s)

/-- A register's value as the bytes of a read. -/
def wholeWord (r : Word × State) : List (Byte × Bool) × State := ((leBytes 8 r.1.toNat).map fun b => (b, false), r.2)

/-- A read of a module address outside the control window: bytes with their words' poison (R334). -/
def mapRead (a : Nat) (s : State) : List (Byte × Bool) × State :=
  if ¬ assigned a then (List.replicate 8 (0#8, false), post 0x0204 16 (a % 2 ^ 44) s)
  else if a < 0xFF000000000 then readMem 16 false a 8 s
  else if (a - 0xFF000000000) / 0x100000000 < 4 then
    wholeWord (ctlRead (Fin.ofNat 4 ((a - 0xFF000000000) / 0x100000000)) (a % 0x100000000) s)
  else wholeWord (barRead (a - 0xFF800000000) s)

/-- COUNTER_BLOCK_LATCH (R3, R369): a read of a register, whose value the reader's port then holds. A counter block's lowest
word copies the block into its shadow; its other words are the shadow's. -/
def execCounterBlockLatch (a : Nat) (s : State) : Host.Outcome State Fault Refusal :=
  let (bs, s1) := match windowAddr s (wordAddr a) with
    | none => (List.replicate 8 (0#8, false), post 0x0204 16 (a % 2 ^ 44) s)
    | some t => mapRead t s
  .next { s1 with ports := mset [] s1.ports hostPort bs }

end Sys2Proof.Machine
end

