-- ==== Sys2Proof/Machine/Dispatch.lean ====
section
/-! DEFINITION. One arm for each command: a direct call of its meaning. -/

namespace Sys2Proof.Machine

def exec (i : Instr) (s : State) : Host.Outcome State Fault Refusal :=
  match i with
  | .registerWrite a v => Sys2Proof.Machine.execRegisterWrite a v s
  | .counterBlockLatch a => Sys2Proof.Machine.execCounterBlockLatch a s
  | .dictionaryWrite p ix sub data => Sys2Proof.Machine.execDictionaryWrite p ix sub data s
  | .dictionaryRead p ix sub => Sys2Proof.Machine.execDictionaryRead p ix sub s
  | .scheduleTick d => Sys2Proof.Machine.execScheduleTick d s
  | .tclkChange => Sys2Proof.Machine.execTclkChange s
  | .throttleEval m => Sys2Proof.Machine.execThrottleEval m s
  | .stepStart c => Sys2Proof.Machine.execStepStart c s
  | .stepComplete c => Sys2Proof.Machine.execStepComplete c s
  | .windowEntry e => Sys2Proof.Machine.execWindowEntry e s
  | .plateFetch e => Sys2Proof.Machine.execPlateFetch e s
  | .catalogCacheFill t name => Sys2Proof.Machine.execCatalogCacheFill t name s
  | .tokenArrive k => Sys2Proof.Machine.execTokenArrive k s
  | .tokenWatchdogFire d c => Sys2Proof.Machine.execTokenWatchdogFire d c s
  | .stepAbort c => Sys2Proof.Machine.execStepAbort c s
  | .abortMessage p w0 w1 => Sys2Proof.Machine.execAbortMessage p w0 w1 s
  | .modeSet t c => Sys2Proof.Machine.execModeSet t c s
  | .loadStat t c => Sys2Proof.Machine.execLoadStat t c s
  | .loadLineEntry t => Sys2Proof.Machine.execLoadLineEntry t s
  | .pass t c => Sys2Proof.Machine.execPass t c s
  | .passRowEntry t u => Sys2Proof.Machine.execPassRowEntry t u s
  | .drain t c => Sys2Proof.Machine.execDrain t c s
  | .drainPairRead t u => Sys2Proof.Machine.execDrainPairRead t u s
  | .bankSwap t c => Sys2Proof.Machine.execBankSwap t c s
  | .autoDrain t => Sys2Proof.Machine.execAutoDrain t s
  | .gatherBatchLaunch t timer => Sys2Proof.Machine.execGatherBatchLaunch t timer s
  | .unitGate t column n => Sys2Proof.Machine.execUnitGate t column n s
  | .unitWakeDone t column n => Sys2Proof.Machine.execUnitWakeDone t column n s
  | .vblock t c => Sys2Proof.Machine.execVblock t c s
  | .vblockComplete t => Sys2Proof.Machine.execVblockComplete t s
  | .nop t w u => Sys2Proof.Machine.execNop t w u s
  | .vmov t w u => Sys2Proof.Machine.execVmov t w u s
  | .vimm t w u => Sys2Proof.Machine.execVimm t w u s
  | .viota t w u => Sys2Proof.Machine.execViota t w u s
  | .vsel t w u => Sys2Proof.Machine.execVsel t w u s
  | .vadd t w u => Sys2Proof.Machine.execVadd t w u s
  | .vsub t w u => Sys2Proof.Machine.execVsub t w u s
  | .vmul t w u => Sys2Proof.Machine.execVmul t w u s
  | .vfma t w u => Sys2Proof.Machine.execVfma t w u s
  | .vfms t w u => Sys2Proof.Machine.execVfms t w u s
  | .vfnma t w u => Sys2Proof.Machine.execVfnma t w u s
  | .vmin t w u => Sys2Proof.Machine.execVmin t w u s
  | .vmax t w u => Sys2Proof.Machine.execVmax t w u s
  | .vabs t w u => Sys2Proof.Machine.execVabs t w u s
  | .vneg t w u => Sys2Proof.Machine.execVneg t w u s
  | .vaddi t w u => Sys2Proof.Machine.execVaddi t w u s
  | .vmuli t w u => Sys2Proof.Machine.execVmuli t w u s
  | .vfmai t w u => Sys2Proof.Machine.execVfmai t w u s
  | .vdiv t w u => Sys2Proof.Machine.execVdiv t w u s
  | .vsqrt t w u => Sys2Proof.Machine.execVsqrt t w u s
  | .vrsqrt t w u => Sys2Proof.Machine.execVrsqrt t w u s
  | .vrcp t w u => Sys2Proof.Machine.execVrcp t w u s
  | .vexp t w u => Sys2Proof.Machine.execVexp t w u s
  | .vexp2 t w u => Sys2Proof.Machine.execVexp2 t w u s
  | .vlog t w u => Sys2Proof.Machine.execVlog t w u s
  | .vlog2 t w u => Sys2Proof.Machine.execVlog2 t w u s
  | .vtanh t w u => Sys2Proof.Machine.execVtanh t w u s
  | .vsigm t w u => Sys2Proof.Machine.execVsigm t w u s
  | .verf t w u => Sys2Proof.Machine.execVerf t w u s
  | .vsin t w u => Sys2Proof.Machine.execVsin t w u s
  | .vcos t w u => Sys2Proof.Machine.execVcos t w u s
  | .viadd t w u => Sys2Proof.Machine.execViadd t w u s
  | .visub t w u => Sys2Proof.Machine.execVisub t w u s
  | .vimul t w u => Sys2Proof.Machine.execVimul t w u s
  | .vand t w u => Sys2Proof.Machine.execVand t w u s
  | .vor t w u => Sys2Proof.Machine.execVor t w u s
  | .vxor t w u => Sys2Proof.Machine.execVxor t w u s
  | .vshl t w u => Sys2Proof.Machine.execVshl t w u s
  | .vshr t w u => Sys2Proof.Machine.execVshr t w u s
  | .viaddi t w u => Sys2Proof.Machine.execViaddi t w u s
  | .vcvtif t w u => Sys2Proof.Machine.execVcvtif t w u s
  | .vcvtfi t w u => Sys2Proof.Machine.execVcvtfi t w u s
  | .vcmp t w u => Sys2Proof.Machine.execVcmp t w u s
  | .vicmp t w u => Sys2Proof.Machine.execVicmp t w u s
  | .mop t w u => Sys2Proof.Machine.execMop t w u s
  | .mlane t w u => Sys2Proof.Machine.execMlane t w u s
  | .vrmax t w u => Sys2Proof.Machine.execVrmax t w u s
  | .vrmin t w u => Sys2Proof.Machine.execVrmin t w u s
  | .vperm t w u => Sys2Proof.Machine.execVperm t w u s
  | .vrot t w u => Sys2Proof.Machine.execVrot t w u s
  | .vbcst t w u => Sys2Proof.Machine.execVbcst t w u s
  | .vscan t w u => Sys2Proof.Machine.execVscan t w u s
  | .vlrec t w u => Sys2Proof.Machine.execVlrec t w u s
  | .vpop t w u => Sys2Proof.Machine.execVpop t w u s
  | .vpush t w u => Sys2Proof.Machine.execVpush t w u s
  | .xpopn t w u => Sys2Proof.Machine.execXpopn t w u s
  | .vrecv t w u => Sys2Proof.Machine.execVrecv t w u s
  | .xrecv t w u => Sys2Proof.Machine.execXrecv t w u s
  | .xclr t w u => Sys2Proof.Machine.execXclr t w u s
  | .xadd t w u => Sys2Proof.Machine.execXadd t w u s
  | .xmrg t w u => Sys2Proof.Machine.execXmrg t w u s
  | .xsum t w u => Sys2Proof.Machine.execXsum t w u s
  | .xnar t w u => Sys2Proof.Machine.execXnar t w u s
  | .xpush t w u => Sys2Proof.Machine.execXpush t w u s
  | .xbind t w u => Sys2Proof.Machine.execXbind t w u s
  | .xfree t w u => Sys2Proof.Machine.execXfree t w u s
  | .vrand t w u => Sys2Proof.Machine.execVrand t w u s
  | .vruni t w u => Sys2Proof.Machine.execVruni t w u s
  | .vrkeep t w u => Sys2Proof.Machine.execVrkeep t w u s
  | .rctx t w u => Sys2Proof.Machine.execRctx t w u s
  | .rep t w u => Sys2Proof.Machine.execRep t w u s
  | .hconv d u c => Sys2Proof.Machine.execHconv d u c s
  | .hstat d u c => Sys2Proof.Machine.execHstat d u c s
  | .hctx d u c => Sys2Proof.Machine.execHctx d u c s
  | .hsnap d u c => Sys2Proof.Machine.execHsnap d u c s
  | .hatchChunk d u => Sys2Proof.Machine.execHatchChunk d u s
  | .hatchDrainPair t => Sys2Proof.Machine.execHatchDrainPair t s
  | .cpt d u c => Sys2Proof.Machine.execCpt d u c s
  | .cptLine d u => Sys2Proof.Machine.execCptLine d u s
  | .dmadesc d e c => Sys2Proof.Machine.execDmadesc d e c s
  | .dmamark d e c => Sys2Proof.Machine.execDmamark d e c s
  | .dmaReadIssue d e q => Sys2Proof.Machine.execDmaReadIssue d e q s
  | .dmaWriteUnits d e q => Sys2Proof.Machine.execDmaWriteUnits d e q s
  | .dmaDescComplete d e q => Sys2Proof.Machine.execDmaDescComplete d e q s
  | .folioRead r u => Sys2Proof.Machine.execFolioRead r u s
  | .folioWrite r data u => Sys2Proof.Machine.execFolioWrite r data u s
  | .slotWaiterResume name slot => Sys2Proof.Machine.execSlotWaiterResume name slot s
  | .folioScrub d bank line u => Sys2Proof.Machine.execFolioScrub d bank line u s
  | .remoteWrite w name off data => Sys2Proof.Machine.execRemoteWrite w name off data s
  | .catalogWrite d a r => Sys2Proof.Machine.execCatalogWrite d a r s
  | .catalogWriteStaged d a r => Sys2Proof.Machine.execCatalogWriteStaged d a r s
  | .catalogWriteWindow d a r => Sys2Proof.Machine.execCatalogWriteWindow d a r s
  | .catalogWriteUndef d a r => Sys2Proof.Machine.execCatalogWriteUndef d a r s
  | .windowCloseComplete d h => Sys2Proof.Machine.execWindowCloseComplete d h s
  | .catalogCommit d c tick => Sys2Proof.Machine.execCatalogCommit d c tick s
  | .catalogDiscard d c => Sys2Proof.Machine.execCatalogDiscard d c s
  | .fill d a r => Sys2Proof.Machine.execFill d a r s
  | .copyFolioOp d a r => Sys2Proof.Machine.execCopyFolioOp d a r s
  | .slotReset d a r => Sys2Proof.Machine.execSlotReset d a r s
  | .lockAcq d a r => Sys2Proof.Machine.execLockAcq d a r s
  | .lockRel d a r => Sys2Proof.Machine.execLockRel d a r s
  | .bankGate d b => Sys2Proof.Machine.execBankGate d b s
  | .bankWake d b => Sys2Proof.Machine.execBankWake d b s
  | .bankWakeDone d b => Sys2Proof.Machine.execBankWakeDone d b s
  | .bankReplace d b => Sys2Proof.Machine.execBankReplace d b s
  | .sarm t c => Sys2Proof.Machine.execSarm t c s
  | .srearm t c => Sys2Proof.Machine.execSrearm t c s
  | .smode t c => Sys2Proof.Machine.execSmode t c s
  | .sreset t c => Sys2Proof.Machine.execSreset t c s
  | .sresetEffect t sn => Sys2Proof.Machine.execSresetEffect t sn s
  | .descriptorActivate t sn => Sys2Proof.Machine.execDescriptorActivate t sn s
  | .descriptorEnd t sn => Sys2Proof.Machine.execDescriptorEnd t sn s
  | .streamGrant t => Sys2Proof.Machine.execStreamGrant t s
  | .streamDataReturn t k => Sys2Proof.Machine.execStreamDataReturn t k s
  | .streamConsumingRead t sn => Sys2Proof.Machine.execStreamConsumingRead t sn s
  | .streamOutputWrite t sn => Sys2Proof.Machine.execStreamOutputWrite t sn s
  | .streamWatchdogFire d c => Sys2Proof.Machine.execStreamWatchdogFire d c s
  | .snop t c => Sys2Proof.Machine.execSnop t c s
  | .stok t c => Sys2Proof.Machine.execStok t c s
  | .scat t c => Sys2Proof.Machine.execScat t c s
  | .sfop t c => Sys2Proof.Machine.execSfop t c s
  | .sfopRetry t k => Sys2Proof.Machine.execSfopRetry t k s
  | .sevent t c => Sys2Proof.Machine.execSevent t c s
  | .govLatch c d layer => Sys2Proof.Machine.execGovLatch c d layer s
  | .voteSettle c layer => Sys2Proof.Machine.execVoteSettle c layer s
  | .govEndOfStep c => Sys2Proof.Machine.execGovEndOfStep c s
  | .flitSend p => Sys2Proof.Machine.execFlitSend p s
  | .flitReceive p f => Sys2Proof.Machine.execFlitReceive p f s
  | .portRecovery p e => Sys2Proof.Machine.execPortRecovery p e s
  | .laneSwap p lane => Sys2Proof.Machine.execLaneSwap p lane s
  | .portRemap p => Sys2Proof.Machine.execPortRemap p s
  | .timeRequest => Sys2Proof.Machine.execTimeRequest s
  | .timeResponse t1 t2 t3 t4 => Sys2Proof.Machine.execTimeResponse t1 t2 t3 t4 s
  | .parentReselect => Sys2Proof.Machine.execParentReselect s
  | .tickInEdge => Sys2Proof.Machine.execTickInEdge s
  | .ppsInEdge => Sys2Proof.Machine.execPpsInEdge s
  | .referenceLost pps => Sys2Proof.Machine.execReferenceLost pps s
  | .slotOpen c slot => Sys2Proof.Machine.execSlotOpen c slot s
  | .slotCheckpoint c slot => Sys2Proof.Machine.execSlotCheckpoint c slot s
  | .windowEnd c slot => Sys2Proof.Machine.execWindowEnd c slot s
  | .stepBoundaryCheck c => Sys2Proof.Machine.execStepBoundaryCheck c s
  | .stretch p w0 w1 => Sys2Proof.Machine.execStretch p w0 w1 s
  | .transferReceiveComplete c slot => Sys2Proof.Machine.execTransferReceiveComplete c slot s
  | .refusalMessage w0 w1 => Sys2Proof.Machine.execRefusalMessage w0 w1 s
  | .controlRecordsUp c slot child => Sys2Proof.Machine.execControlRecordsUp c slot child s
  | .controlRecordsDown c slot recs => Sys2Proof.Machine.execControlRecordsDown c slot recs s
  | .credit p w0 w1 => Sys2Proof.Machine.execCredit p w0 w1 s
  | .bestEffortPacket p k => Sys2Proof.Machine.execBestEffortPacket p k s
  | .cctx d c => Sys2Proof.Machine.execCctx d c s
  | .csend d c => Sys2Proof.Machine.execCsend d c s
  | .cgate d c => Sys2Proof.Machine.execCgate d c s
  | .ccommit d c => Sys2Proof.Machine.execCcommit d c s
  | .collTransferArrive d shape data => Sys2Proof.Machine.execCollTransferArrive d shape data s
  | .spillPacket d data => Sys2Proof.Machine.execSpillPacket d data s
  | .spillTimeout d ctx => Sys2Proof.Machine.execSpillTimeout d ctx s
  | .reshardDecide c slot => Sys2Proof.Machine.execReshardDecide c slot s
  | .stackRead r u => Sys2Proof.Machine.execStackRead r u s
  | .stackWrite r data u => Sys2Proof.Machine.execStackWrite r data u s
  | .stackScrub sn group u => Sys2Proof.Machine.execStackScrub sn group u s
  | .stackDieSpare sn => Sys2Proof.Machine.execStackDieSpare sn s
  | .stackFailed sn training => Sys2Proof.Machine.execStackFailed sn training s
  | .addressError a write => Sys2Proof.Machine.execAddressError a write s
  | .bar2Access off write n data => Sys2Proof.Machine.execBar2Access off write n data s
  | .doorbellWrite q tail => Sys2Proof.Machine.execDoorbellWrite q tail s
  | .queueEnable event q => Sys2Proof.Machine.execQueueEnable event q s
  | .functionLevelReset => Sys2Proof.Machine.execFunctionLevelReset s
  | .loadPlates q => Sys2Proof.Machine.execLoadPlates q s
  | .runSteps q => Sys2Proof.Machine.execRunSteps q s
  | .archiveOut q => Sys2Proof.Machine.execArchiveOut q s
  | .restoreIn q => Sys2Proof.Machine.execRestoreIn q s
  | .copy q => Sys2Proof.Machine.execCopy q s
  | .admitClient q => Sys2Proof.Machine.execAdmit q s
  | .evict q => Sys2Proof.Machine.execEvict q s
  | .hostReservedOpcode q => Sys2Proof.Machine.execHostReservedOpcode q s
  | .eventPost => Sys2Proof.Machine.execEventPost s
  | .msixSend q timer => Sys2Proof.Machine.execMsixSend q timer s
  | .sliceDue => Sys2Proof.Machine.execSliceDue s
  | .switchOut => Sys2Proof.Machine.execSwitchOut s
  | .switchIn => Sys2Proof.Machine.execSwitchIn s
  | .longCommand e => Sys2Proof.Machine.execLongCommand e s
  | .arbiterGrant res d reqs => Sys2Proof.Machine.execArbiterGrant res d reqs s
  | .grantWithdraw res d code => Sys2Proof.Machine.execGrantWithdraw res d code s
  | .ledgerTick energy => Sys2Proof.Machine.execLedgerTick energy s
  | .archiveCapture c => Sys2Proof.Machine.execArchiveCapture c s
  | .archiveStreamOut c => Sys2Proof.Machine.execArchiveStreamOut c s
  | .powerSequence vin ms => Sys2Proof.Machine.execPowerSequence vin ms s
  | .pwrGoodLost => Sys2Proof.Machine.execPwrGoodLost s
  | .presentNRise => Sys2Proof.Machine.execPresentNRise s
  | .protectiveTrip thermal current => Sys2Proof.Machine.execProtectiveTrip thermal current s
  | .sketchEntry m => Sys2Proof.Machine.execSketchEntry m s
  | .bootVerify => Sys2Proof.Machine.execBootVerify s
  | .proofEntry => Sys2Proof.Machine.execProofEntry s
  | .stackTraining sn ok => Sys2Proof.Machine.execStackTraining sn ok s
  | .arraySelfTest d m => Sys2Proof.Machine.execArraySelfTest d m s
  | .linkTraining p m => Sys2Proof.Machine.execLinkTraining p m s
  | .registrarCheck d bad => Sys2Proof.Machine.execRegistrarCheck d bad s
  | .editionEntry => Sys2Proof.Machine.execEditionEntry s
  | .stageTimeout => Sys2Proof.Machine.execStageTimeout s
  | .coldReset => Sys2Proof.Machine.execColdReset s
  | .coreReset d core watchdog => Sys2Proof.Machine.execCoreReset d core watchdog s
  | .tileReset t => Sys2Proof.Machine.execTileReset t s
  | .resetReqCold => Sys2Proof.Machine.execResetReqCold s
  | .resetReqSelftest => Sys2Proof.Machine.execResetReqSelftest s
  | .fwUpdData data => Sys2Proof.Machine.execFwUpdData data s
  | .fwUpdCommit => Sys2Proof.Machine.execFwUpdCommit s
  | .cfgSave => Sys2Proof.Machine.execCfgSave s
  | .canRead f => Sys2Proof.Machine.execCanRead f s
  | .canWrite f => Sys2Proof.Machine.execCanWrite f s
  | .canWriteInit f => Sys2Proof.Machine.execCanWriteInit f s
  | .canSegment f => Sys2Proof.Machine.execCanSegment f s
  | .canBlockAck f => Sys2Proof.Machine.execCanBlockAck f s
  | .canInfo f => Sys2Proof.Machine.execCanInfo f s
  | .canAbort f => Sys2Proof.Machine.execCanAbort f s
  | .canTimeout peer => Sys2Proof.Machine.execCanTimeout peer s
  | .canSegmentGapTimer peer => Sys2Proof.Machine.execCanSegmentGapTimer peer s
  | .canEventMirror => Sys2Proof.Machine.execCanEventMirror s
  | .heartbeat => Sys2Proof.Machine.execHeartbeat s
  | .nodeIdListen seen => Sys2Proof.Machine.execNodeIdListen seen s
  | .busOffRecovery => Sys2Proof.Machine.execBusOffRecovery s
  | .mailboxGo => Sys2Proof.Machine.execMailboxGo s
  | .mailboxRemoteTimeout => Sys2Proof.Machine.execMailboxRemoteTimeout s
  | .curHelp => Sys2Proof.Machine.execCurHelp s
  | .curId => Sys2Proof.Machine.execCurId s
  | .curStage => Sys2Proof.Machine.execCurStage s
  | .curGet ix sub => Sys2Proof.Machine.execCurGet ix sub s
  | .curDump ix => Sys2Proof.Machine.execCurDump ix s
  | .curInfo ix sub => Sys2Proof.Machine.execCurInfo ix sub s
  | .curEvents n => Sys2Proof.Machine.execCurEvents n s
  | .curUnlock level => Sys2Proof.Machine.execCurUnlock level s
  | .curResp data => Sys2Proof.Machine.execCurResp data s
  | .curLock => Sys2Proof.Machine.execCurLock s
  | .curSet ix sub data => Sys2Proof.Machine.execCurSet ix sub data s
  | .curResetCold => Sys2Proof.Machine.execCurResetCold s
  | .curResetCore d core => Sys2Proof.Machine.execCurResetCore d core s
  | .curFuse e code => Sys2Proof.Machine.execCurFuse e code s
  | .curIdleTimeout => Sys2Proof.Machine.execCurIdleTimeout s
  | .curBaudRevert => Sys2Proof.Machine.execCurBaudRevert s
  | .fuseArm v => Sys2Proof.Machine.execFuseArm v s
  | .fuseArmExpire => Sys2Proof.Machine.execFuseArmExpire s
  | .errlogClear v => Sys2Proof.Machine.execErrlogClear v s
  | .errorLogWrite => Sys2Proof.Machine.execErrorLogWrite s
  | .wearWindowBoundary => Sys2Proof.Machine.execWearWindowBoundary s
  | .wearTrigger k => Sys2Proof.Machine.execWearTrigger k s
  | .spareSwap k => Sys2Proof.Machine.execSpareSwap k s
  | .fuseBlow e ok => Sys2Proof.Machine.execFuseBlow e ok s
  | .extest d bits => Sys2Proof.Machine.execExtest d bits s
  | .idcode d => Sys2Proof.Machine.execIdcode d s
  | .samplePreload d bits => Sys2Proof.Machine.execSamplePreload d bits s
  | .clamp d => Sys2Proof.Machine.execClamp d s
  | .highz d => Sys2Proof.Machine.execHighz d s
  | .bypass d => Sys2Proof.Machine.execBypass d s
  | .tapReset d => Sys2Proof.Machine.execTapReset d s
  | .eventQueueHeadWrite q head => Sys2Proof.Machine.execEventQueueHeadWrite q head s
  | .msixUnmask v => Sys2Proof.Machine.execMsixUnmask v s
  | .timeRequestArrival p t1 => Sys2Proof.Machine.execTimeRequestArrival p t1 s
  | .pcieFundamentalReset => Sys2Proof.Machine.execPcieFundamentalReset s
  | .tripRelease => Sys2Proof.Machine.execTripRelease s
  | .referenceRegained pps => Sys2Proof.Machine.execReferenceRegained pps s
  | .canBusError tx n => Sys2Proof.Machine.execCanBusError tx n s

end Sys2Proof.Machine
end

