-- ==== Sys2Proof/WellFormed.lean ====
section
/-! DEFINITION. What makes a command well formed: each operand lies in the range that the spec gives it. The fields of the words that a command carries are checked by its meaning, as the spec has its engine check them. -/

namespace Sys2Proof

/-! ### Operands -/

/-- A plate command: its body holds a count word and at most 4,096 instructions (R111, R221). -/
def PCmd.wf (c : PCmd) : Bool := decide (c.body.length ≤ 4097)

/-- A Catalog write record: a control word and eight entry words (R169). -/
def CatRec.wf (r : CatRec) : Bool := decide (r.w.length = 8)

/-- Folio operation records are five words, and any words are well formed (R186). -/
def FopRec.wf (_ : FopRec) : Bool := true

/-- A buffer name: die and handle (R173). -/
def nameWf (n : Nat) : Bool := decide (n < 16384)

/-- An access: a requester of R364's table, a buffer name, a range within 64 GiB (R161, R166). -/
def Access.wf (r : Access) : Bool :=
  decide (r.code < 34) && nameWf r.name && decide (0 < r.len) && decide (r.off + r.len ≤ 2 ^ 36)

/-- Upset masks never fall on more than one word each, so any list is well formed (R328). -/
def upsetsWf (_ : List Upset) : Bool := true

/-- The writer of a remote write: a module ID and an engine code (R219, R269). -/
def Writer.wf (w : Writer) : Bool := decide (w.mod < 4096) && decide (w.eng < 8)

/-- Sensor readings: one temperature for each die (R443). -/
def Sensors.wf (m : Sensors) : Bool := decide (m.tdie.length = 4)

/-- A flit is 256 bytes (R270). -/
def FlitIn.wf (f : FlitIn) : Bool := decide (f.bytes.length = 256)

/-- A request at an arbiter: a requester of R364's table and one of three classes (R361). -/
def ArbReq.wf (r : ArbReq) : Bool := decide (r.code < 34) && decide (r.cls < 3)

/-- A die's energy: one group for each of its six stacks (R366). -/
def EnergyIn.wf (e : EnergyIn) : Bool := decide (e.stk.length = 6)

/-- What Sketch finds: physical banks 0 to 527 (R391). -/
def SketchIn.wf (m : SketchIn) : Bool := m.folioBad.all fun x => decide (x.2 < 528)

/-- What self-test finds: physical tiles 0 to 16 and lines 0 to 259 (R85, R431). -/
def SelfTestIn.wf (m : SelfTestIn) : Bool := (m.rows ++ m.cols).all fun x => decide (x.1 < 17) && decide (x.2 < 260)

/-- What training finds: a module ID, a port, one of five lanes (R294). -/
def TrainIn.wf (m : TrainIn) : Bool :=
  decide (m.peerMod < 4096) && decide (m.peerPort < 32) && (match m.lane with | some l => decide (l < 5) | none => true)

/-- A CAN frame: an 11-bit identifier and at most 64 bytes (R407, R408). -/
def CanFrame.wf (f : CanFrame) : Bool := decide (f.id < 2048) && decide (f.data.length ≤ 64)

/-- A wear count of a row of R436's table. -/
def WearIn.wf (k : WearIn) : Bool := decide (k.kind < 10)

/-- A dictionary index and sub-index (R403). -/
def entryWf (ix sub : Nat) : Bool := decide (ix < 65536) && decide (sub < 256)

/-- A value of 0 to 65,536 bytes (R403). -/
def valueWf (data : List Byte) : Bool := decide (data.length ≤ 65536)

/-- A submission queue: 0 to 63 the clients', 64 the manager's (R337). -/
def queueWf (q : Nat) : Bool := decide (q ≤ 64)

/-- An event queue: 0 to 15 the clients', 16 the manager's (R337). -/
def evqWf (q : Nat) : Bool := decide (q ≤ 16)

/-- An address of 44 bits (R334). -/
def addrWf (a : Nat) : Bool := decide (a < 2 ^ 44)

/-- A timetable slot number (R281). -/
def slotWf (n : Nat) : Bool := decide (n < 65536)

/-- A Folio bank of a die (R159). -/
def bankWf (b : Nat) : Bool := decide (b < 512)

/-! ### Commands -/

/-- Whether a command is well formed. -/
def Instr.wf (i : Instr) : Bool :=
  match i with
  | .registerWrite a _ => addrWf a
  | .counterBlockLatch a => addrWf a
  | .dictionaryWrite _ ix sub data => entryWf ix sub && valueWf data
  | .dictionaryRead _ ix sub => entryWf ix sub
  | .scheduleTick _ => true
  | .tclkChange => true
  | .throttleEval m => m.wf
  | .stepStart _ => true
  | .stepComplete _ => true
  | .windowEntry _ => true
  | .plateFetch _ => true
  | .catalogCacheFill _ name => nameWf name
  | .tokenArrive _ => true
  | .tokenWatchdogFire _ _ => true
  | .stepAbort _ => true
  | .abortMessage _ _ _ => true
  | .modeSet _ c => c.wf
  | .loadStat _ c => c.wf
  | .loadLineEntry _ => true
  | .pass _ c => c.wf
  | .passRowEntry _ u => upsetsWf u
  | .drain _ c => c.wf
  | .drainPairRead _ u => upsetsWf u
  | .bankSwap _ c => c.wf
  | .autoDrain _ => true
  | .gatherBatchLaunch _ _ => true
  | .unitGate _ column i => decide (i < (if column then 16 else 64))
  | .unitWakeDone _ column i => decide (i < (if column then 16 else 64))
  | .vblock _ c => c.wf
  | .vblockComplete _ => true
  | .nop _ _ u => upsetsWf u
  | .vmov _ _ u => upsetsWf u
  | .vimm _ _ u => upsetsWf u
  | .viota _ _ u => upsetsWf u
  | .vsel _ _ u => upsetsWf u
  | .vadd _ _ u => upsetsWf u
  | .vsub _ _ u => upsetsWf u
  | .vmul _ _ u => upsetsWf u
  | .vfma _ _ u => upsetsWf u
  | .vfms _ _ u => upsetsWf u
  | .vfnma _ _ u => upsetsWf u
  | .vmin _ _ u => upsetsWf u
  | .vmax _ _ u => upsetsWf u
  | .vabs _ _ u => upsetsWf u
  | .vneg _ _ u => upsetsWf u
  | .vaddi _ _ u => upsetsWf u
  | .vmuli _ _ u => upsetsWf u
  | .vfmai _ _ u => upsetsWf u
  | .vdiv _ _ u => upsetsWf u
  | .vsqrt _ _ u => upsetsWf u
  | .vrsqrt _ _ u => upsetsWf u
  | .vrcp _ _ u => upsetsWf u
  | .vexp _ _ u => upsetsWf u
  | .vexp2 _ _ u => upsetsWf u
  | .vlog _ _ u => upsetsWf u
  | .vlog2 _ _ u => upsetsWf u
  | .vtanh _ _ u => upsetsWf u
  | .vsigm _ _ u => upsetsWf u
  | .verf _ _ u => upsetsWf u
  | .vsin _ _ u => upsetsWf u
  | .vcos _ _ u => upsetsWf u
  | .viadd _ _ u => upsetsWf u
  | .visub _ _ u => upsetsWf u
  | .vimul _ _ u => upsetsWf u
  | .vand _ _ u => upsetsWf u
  | .vor _ _ u => upsetsWf u
  | .vxor _ _ u => upsetsWf u
  | .vshl _ _ u => upsetsWf u
  | .vshr _ _ u => upsetsWf u
  | .viaddi _ _ u => upsetsWf u
  | .vcvtif _ _ u => upsetsWf u
  | .vcvtfi _ _ u => upsetsWf u
  | .vcmp _ _ u => upsetsWf u
  | .vicmp _ _ u => upsetsWf u
  | .mop _ _ u => upsetsWf u
  | .mlane _ _ u => upsetsWf u
  | .vrmax _ _ u => upsetsWf u
  | .vrmin _ _ u => upsetsWf u
  | .vperm _ _ u => upsetsWf u
  | .vrot _ _ u => upsetsWf u
  | .vbcst _ _ u => upsetsWf u
  | .vscan _ _ u => upsetsWf u
  | .vlrec _ _ u => upsetsWf u
  | .vpop _ _ u => upsetsWf u
  | .vpush _ _ u => upsetsWf u
  | .xpopn _ _ u => upsetsWf u
  | .vrecv _ _ u => upsetsWf u
  | .xrecv _ _ u => upsetsWf u
  | .xclr _ _ u => upsetsWf u
  | .xadd _ _ u => upsetsWf u
  | .xmrg _ _ u => upsetsWf u
  | .xsum _ _ u => upsetsWf u
  | .xnar _ _ u => upsetsWf u
  | .xpush _ _ u => upsetsWf u
  | .xbind _ _ u => upsetsWf u
  | .xfree _ _ u => upsetsWf u
  | .vrand _ _ u => upsetsWf u
  | .vruni _ _ u => upsetsWf u
  | .vrkeep _ _ u => upsetsWf u
  | .rctx _ _ u => upsetsWf u
  | .rep _ _ u => upsetsWf u
  | .hconv _ _ c => c.wf
  | .hstat _ _ c => c.wf
  | .hctx _ _ c => c.wf
  | .hsnap _ _ c => c.wf
  | .hatchChunk _ _ => true
  | .hatchDrainPair _ => true
  | .cpt _ _ c => c.wf
  | .cptLine _ _ => true
  | .dmadesc _ _ c => c.wf
  | .dmamark _ _ c => c.wf
  | .dmaReadIssue _ _ _ => true
  | .dmaWriteUnits _ _ _ => true
  | .dmaDescComplete _ _ _ => true
  | .folioRead r u => r.wf && upsetsWf u
  | .folioWrite r _ u => r.wf && upsetsWf u
  | .slotWaiterResume name slot => nameWf name && decide (slot < 4096)
  | .folioScrub _ bank line u => bankWf bank && decide (line < 8192) && upsetsWf u
  | .remoteWrite w name off data => nameWf name && decide (off + data.length ≤ 2 ^ 36) && w.wf
  | .catalogWrite _ _ r => r.wf
  | .catalogWriteStaged _ _ r => r.wf
  | .catalogWriteWindow _ _ r => r.wf
  | .catalogWriteUndef _ _ r => r.wf
  | .windowCloseComplete _ h => decide (h < 4096)
  | .catalogCommit _ _ tick => decide (tick < 2 ^ 40)
  | .catalogDiscard _ _ => true
  | .fill _ _ r => r.wf
  | .copyFolioOp _ _ r => r.wf
  | .slotReset _ _ r => r.wf
  | .lockAcq _ _ r => r.wf
  | .lockRel _ _ r => r.wf
  | .bankGate _ b => bankWf b
  | .bankWake _ b => bankWf b
  | .bankWakeDone _ b => bankWf b
  | .bankReplace _ b => bankWf b
  | .sarm _ c => c.wf
  | .srearm _ c => c.wf
  | .smode _ c => c.wf
  | .sreset _ c => c.wf
  | .sresetEffect _ _ => true
  | .descriptorActivate _ _ => true
  | .descriptorEnd _ _ => true
  | .streamGrant _ => true
  | .streamDataReturn _ _ => true
  | .streamConsumingRead _ _ => true
  | .streamOutputWrite _ _ => true
  | .streamWatchdogFire _ _ => true
  | .snop _ c => c.wf
  | .stok _ c => c.wf
  | .scat _ c => c.wf
  | .sfop _ c => c.wf
  | .sfopRetry _ _ => true
  | .sevent _ c => c.wf
  | .govLatch _ _ layer => decide (layer < 4096)
  | .voteSettle _ layer => decide (layer < 4096)
  | .govEndOfStep _ => true
  | .flitSend _ => true
  | .flitReceive _ f => f.wf
  | .portRecovery _ _ => true
  | .laneSwap _ lane => decide (lane < 5)
  | .portRemap _ => true
  | .timeRequest => true
  | .timeResponse _ _ _ _ => true
  | .parentReselect => true
  | .tickInEdge => true
  | .ppsInEdge => true
  | .referenceLost _ => true
  | .slotOpen _ slot => slotWf slot
  | .slotCheckpoint _ slot => slotWf slot
  | .windowEnd _ slot => slotWf slot
  | .stepBoundaryCheck _ => true
  | .stretch _ _ _ => true
  | .transferReceiveComplete _ slot => slotWf slot
  | .refusalMessage _ _ => true
  | .controlRecordsUp _ slot _ => slotWf slot
  | .controlRecordsDown _ slot _ => slotWf slot
  | .credit _ _ _ => true
  | .bestEffortPacket _ _ => true
  | .cctx _ c => c.wf
  | .csend _ c => c.wf
  | .cgate _ c => c.wf
  | .ccommit _ c => c.wf
  | .collTransferArrive _ _ _ => true
  | .spillPacket _ _ => true
  | .spillTimeout _ ctx => decide (ctx < 65536)
  | .reshardDecide _ slot => slotWf slot
  | .stackRead r u => r.wf && upsetsWf u
  | .stackWrite r _ u => r.wf && upsetsWf u
  | .stackScrub _ group u => decide (group < 301989888) && upsetsWf u
  | .stackDieSpare _ => true
  | .stackFailed _ _ => true
  | .addressError a _ => addrWf a
  | .bar2Access off _ n data => decide (off + n ≤ 2 ^ 36) && decide (off + data.length ≤ 2 ^ 36)
  | .doorbellWrite q tail => queueWf q && decide (tail < 4096)
  | .queueEnable event q => if event then evqWf q else queueWf q
  | .functionLevelReset => true
  | .loadPlates q => queueWf q
  | .runSteps q => queueWf q
  | .archiveOut q => queueWf q
  | .restoreIn q => queueWf q
  | .copy q => queueWf q
  | .admitClient q => queueWf q
  | .evict q => queueWf q
  | .hostReservedOpcode q => queueWf q
  | .eventPost => true
  | .msixSend q _ => evqWf q
  | .sliceDue => true
  | .switchOut => true
  | .switchIn => true
  | .longCommand _ => true
  | .arbiterGrant res _ reqs => decide (res < 4) && reqs.all ArbReq.wf
  | .grantWithdraw res _ code => decide (res < 4) && decide (code < 34)
  | .ledgerTick energy => energy.all EnergyIn.wf
  | .archiveCapture _ => true
  | .archiveStreamOut _ => true
  | .powerSequence _ _ => true
  | .pwrGoodLost => true
  | .presentNRise => true
  | .protectiveTrip _ _ => true
  | .sketchEntry m => m.wf
  | .bootVerify => true
  | .proofEntry => true
  | .stackTraining _ _ => true
  | .arraySelfTest _ m => m.wf
  | .linkTraining _ m => m.wf
  | .registrarCheck _ _ => true
  | .editionEntry => true
  | .stageTimeout => true
  | .coldReset => true
  | .coreReset _ _ _ => true
  | .tileReset _ => true
  | .resetReqCold => true
  | .resetReqSelftest => true
  | .fwUpdData data => valueWf data
  | .fwUpdCommit => true
  | .cfgSave => true
  | .canRead f => f.wf
  | .canWrite f => f.wf
  | .canWriteInit f => f.wf
  | .canSegment f => f.wf
  | .canBlockAck f => f.wf
  | .canInfo f => f.wf
  | .canAbort f => f.wf
  | .canTimeout peer => decide (peer < 256)
  | .canSegmentGapTimer peer => decide (peer < 256)
  | .canEventMirror => true
  | .heartbeat => true
  | .nodeIdListen _ => true
  | .busOffRecovery => true
  | .mailboxGo => true
  | .mailboxRemoteTimeout => true
  | .curHelp => true
  | .curId => true
  | .curStage => true
  | .curGet ix sub => entryWf ix sub
  | .curDump ix => entryWf ix 0
  | .curInfo ix sub => entryWf ix sub
  | .curEvents n => decide (n ≤ 65535)
  | .curUnlock level => decide (level < 256)
  | .curResp data => valueWf data
  | .curLock => true
  | .curSet ix sub data => entryWf ix sub && valueWf data
  | .curResetCold => true
  | .curResetCore _ _ => true
  | .curFuse e code => decide (e < 1024) && decide (code ≤ 65536)
  | .curIdleTimeout => true
  | .curBaudRevert => true
  | .fuseArm _ => true
  | .fuseArmExpire => true
  | .errlogClear _ => true
  | .errorLogWrite => true
  | .wearWindowBoundary => true
  | .wearTrigger k => k.wf
  | .spareSwap _ => true
  | .fuseBlow e _ => decide (e < 1024)
  | .extest _ _ => true
  | .idcode _ => true
  | .samplePreload _ _ => true
  | .clamp _ => true
  | .highz _ => true
  | .bypass _ => true
  | .tapReset _ => true
  | .eventQueueHeadWrite q head => evqWf q && decide (head < 4096)
  | .msixUnmask v => decide (v < 256)
  | .timeRequestArrival _ _ => true
  | .pcieFundamentalReset => true
  | .tripRelease => true
  | .referenceRegained _ => true
  | .canBusError _ _ => true

end Sys2Proof
end

