-- ==== Sys2Proof/Safety.lean ====
section
/-! DEFINITION. What a safe run of the block is, and the terms that claims use: the invariant of every step, what an effect leaves unchanged, and when a plate command issues. -/

namespace Sys2Proof.Machine

/-- The invariant of every step: memory is in canonical form. -/
def State.inv (s : State) : Prop := s.mem.wf = true

/-- Whether every command that waits is well formed. -/
def State.queueWf (s : State) : Bool := s.pending.all Instr.wf

/-- Whether a step neither faults nor refuses. -/
def State.runs (s : State) : Prop := ∃ t, step s = .next t

/-- s with t's counters, totals, event queues and logs: what charging a cycle, counting and posting an event may change. -/
def State.accounts (s t : State) : State :=
  { s with regs := t.regs, dict := t.dict, sat := t.sat, ledger := t.ledger, host := t.host, logs := t.logs }

/-- s with what t's accesses to memory may have changed: memory itself, woken banks, wear and energy shares, scope words of
clients, and accounts. -/
def State.access (s t : State) : State :=
  { s.accounts t with mem := t.mem, banks := t.banks, clients := t.clients, wear := t.wear, served := t.served }

/-- The parts of the state. -/
inductive Part where
  | mem | regs | shadow | dict | blobs | sat | cat | banks | plates | tiles | units | clients | fabric | rot | arbs
  | host | logs | start | wearS | can | cur | mail | wear | ledger | served | ports | tick | pending | free
  deriving DecidableEq, Repr

/-- From s to n nothing has changed but the parts of a list. -/
structure Only (ks : List Part) (s n : State) : Prop where
  mem : Part.mem ∉ ks → n.mem = s.mem
  regs : Part.regs ∉ ks → n.regs = s.regs
  shadow : Part.shadow ∉ ks → n.shadow = s.shadow
  dict : Part.dict ∉ ks → n.dict = s.dict
  blobs : Part.blobs ∉ ks → n.blobs = s.blobs
  sat : Part.sat ∉ ks → n.sat = s.sat
  cat : Part.cat ∉ ks → n.cat = s.cat
  banks : Part.banks ∉ ks → n.banks = s.banks
  plates : Part.plates ∉ ks → n.plates = s.plates
  tiles : Part.tiles ∉ ks → n.tiles = s.tiles
  units : Part.units ∉ ks → n.units = s.units
  clients : Part.clients ∉ ks → n.clients = s.clients
  fabric : Part.fabric ∉ ks → n.fabric = s.fabric
  rot : Part.rot ∉ ks → n.rot = s.rot
  arbs : Part.arbs ∉ ks → n.arbs = s.arbs
  host : Part.host ∉ ks → n.host = s.host
  logs : Part.logs ∉ ks → n.logs = s.logs
  start : Part.start ∉ ks → n.start = s.start
  wearS : Part.wearS ∉ ks → n.wearS = s.wearS
  can : Part.can ∉ ks → n.can = s.can
  cur : Part.cur ∉ ks → n.cur = s.cur
  mail : Part.mail ∉ ks → n.mail = s.mail
  wear : Part.wear ∉ ks → n.wear = s.wear
  ledger : Part.ledger ∉ ks → n.ledger = s.ledger
  served : Part.served ∉ ks → n.served = s.served
  ports : Part.ports ∉ ks → n.ports = s.ports
  tick : Part.tick ∉ ks → n.tick = s.tick
  pending : Part.pending ∉ ks → n.pending = s.pending
  free : Part.free ∉ ks → n.free = s.free

/-- The parts that hold counters, totals, event queues and logs. -/
def accountParts : List Part := [.regs, .dict, .sat, .ledger, .host, .logs]

/-- The parts that an access to memory may change. -/
def accessParts : List Part := [.regs, .dict, .sat, .ledger, .host, .logs, .mem, .banks, .clients, .wear, .served]

/-- From s to n an event has been posted, of a code, for a client and with a detail; nothing else has changed but counters,
totals and events before it (R428). -/
def Posted (s n : State) (code client detail : Nat) : Prop := ∃ m, m = s.accounts m ∧ n = post code client detail m

/-- From s to n a fault has been raised, of a code, for a client and with a detail: its event has been posted, and where the
client is in a step that is not aborted yet, the step is aborted and names the fault (R229); nothing else has changed. -/
def Raised (s n : State) (code client detail : Nat) : Prop :=
  n = { post code client detail s with clients := n.clients } ∧ (∀ k, k ≠ client → getClient n k = getClient s k) ∧
  getClient n client = { getClient s client with step :=
    if client < 16 then (getClient s client).step.map fun st =>
      if st.aborted then st else { st with aborted := true, fcode := code, fdetail := detail, forigin := moduleId s }
    else (getClient s client).step }

/-- A byte of memory as a read delivers it, corrected, with its word's poison (R162, R329). -/
def State.peek (s : State) (a : Nat) : Byte × Bool :=
  ((leBytes 8 (peekWord s (a / 8)).val.toNat).getD (a % 8) 0, (peekWord s (a / 8)).poison)

/-- Whether a write to an address is stored: it lies in the Folio, or in a stack that is not marked failed (R333, R334). -/
def State.storable (s : State) (a : Nat) : Bool :=
  match regionOf a with
  | .stack i => !stackFailed s i
  | .folio _ => true
  | .none => false

/-- Whether a handle's bytes have places of their own: its banks lie in the Folio's 512 (R160). -/
def Entry.placed (e : Entry) : Prop := e.kind = 1 → e.b0 + 2 ^ e.nbc ≤ 512

/-- The bytes that a read of bytes [off, off + n) of a handle on a die delivers (R160, R162, R329). -/
def State.bytesOf (s : State) (e : Entry) (die off n : Nat) : List (Byte × Bool) :=
  (List.range n).map fun i => s.peek (addrOf e die (off + i))

/-- From s to n bytes have been stored in a handle on a die from an offset: each byte that may be stored, in a word without
poison, reads as written, and every byte at another address as before (R163, R330, R333). -/
def StoredAt (s n : State) (e : Entry) (die off : Nat) (bs : List Byte) : Prop :=
  (∀ x, (∀ i, i < bs.length → addrOf e die (off + i) ≠ x) → n.peek x = s.peek x) ∧
  ∀ i, i < bs.length → s.storable (addrOf e die (off + i)) = true → (s.peek (addrOf e die (off + i))).2 = false →
    n.peek (addrOf e die (off + i)) = (bs.getD i 0, false)

/-- From s to n the slots of a ring whose last byte an access covers have the state v, and every other slot its own (R177). -/
def SlotsSet (s n : State) (name : Nat) (e : Entry) (off len : Nat) (v : Bool) : Prop :=
  let l := (slotsOf e off len).filter (coversLast e off len)
  (∀ i ∈ l, slotFull n name i = v) ∧
  ∀ k, (∀ i ∈ l, k ≠ slotKey name i) → mget false n.cat.full k = mget false s.cat.full k

/-- From s to n an access has written bytes to a buffer: they are stored, the slots it completes are FULL, and nothing else
has changed but what an access to memory may change (R163, R177). -/
def WroteBuf (s n : State) (name : Nat) (e : Entry) (off : Nat) (bs : List Byte) : Prop :=
  StoredAt s n e (name / 4096) off bs ∧ SlotsSet s n name e off bs.length true ∧
  n = { s.access n with cat := { s.cat with full := n.cat.full } }

/-- From s to n an access has read a buffer: its bytes are at the requester's port, a consuming read has emptied the slots it
completes, every byte of memory reads as before, and nothing else has changed but what an access may change (R162, R177). -/
def ReadBuf (s n : State) (e : Entry) (r : Access) : Prop :=
  mget [] n.ports (accPort r) = s.bytesOf e (r.name / 4096) r.off r.len ∧
  (∀ p, p ≠ accPort r → mget [] n.ports p = mget [] s.ports p) ∧ (∀ x, n.peek x = s.peek x) ∧
  (if r.consuming then SlotsSet s n r.name e r.off r.len false else n.cat.full = s.cat.full) ∧
  n = { s.access n with cat := { s.cat with full := n.cat.full }, ports := n.ports }

/-- Whether a Folio operation's ring slots let it run (R177, R188). -/
def FopReady (s : State) (d : DieId) (r : FopRec) : Prop :=
  let dn := d.val * 4096 + fopDh r
  let sn := d.val * 4096 + fopSh r
  (fopCode r = 1 ∨ fopCode r = 2 → writeReady s dn (getEnt s dn) (fopDoff r) (fopLen r) = true) ∧
  (fopCode r = 2 → readReady s sn (getEnt s sn) (fopSoff r) (fopLen r) = true)

/-- What a Folio operation that runs does from s to m, with its result word w (R184 to R188): FILL writes its pattern; COPY
each source word, poison with it; SLOT_RESET empties the slots of a ring that no other command uses; the lock operations
acquire or release their word by who holds it. me is the issuer's identity; mine says that the issuer's own command uses the
handle. -/
def FopEffect (s m : State) (me : Nat) (mine : Bool) (d : DieId) (r : FopRec) (w : Word) : Prop :=
  let dn := d.val * 4096 + fopDh r
  let de := getEnt s dn
  let src := fun i => addrOf (getEnt s (d.val * 4096 + fopSh r)) d.val (fopSoff r + 8 * i) / 8
  let dst := fun i => addrOf de d.val (fopDoff r + 8 * i) / 8
  let old := peekWord s (dst 0)
  let held := bit old.val 0
  let owner := fld old.val 8 12
  let live := held && decide ((epochOf s owner).toNat = fld old.val 32 32)
  (fopCode r = 1 → w = fopWord 0 false 0 ∧
    WroteBuf s m dn de (fopDoff r) ((List.range (fopLen r / 8)).flatMap fun _ => leBytes 8 r.w4.toNat)) ∧
  (fopCode r = 2 →
    w = fopWord (if (List.range (fopLen r / 8)).any (fun i => (peekWord s (src i)).poison) then 4 else 0) false 0 ∧
    (∀ i, i < fopLen r / 8 → peekWord m (dst i) = peekWord s (src i)) ∧
    (∀ k, (∀ i, i < fopLen r / 8 → dst i ≠ k) → peekWord m k = peekWord s k) ∧
    SlotsSet s m dn de (fopDoff r) (fopLen r) true ∧ m = { s.access m with cat := { s.cat with full := m.cat.full } }) ∧
  (fopCode r = 3 →
    if useCount s dn = b2n mine then w = fopWord 0 false 0 ∧ (∀ j, j < 4096 → slotFull m dn j = false) ∧
      (∀ k j, j < 4096 → k ≠ dn → slotFull m k j = slotFull s k j) ∧ m = { s with cat := { s.cat with full := m.cat.full } }
    else w = fopWord 3 false 0 ∧ m = s) ∧
  (fopCode r = 4 ∨ fopCode r = 5 → (∀ k, k ≠ dst 0 → peekWord m k = peekWord s k) ∧ m = s.access m ∧
    if old.poison then w = fopWord 4 false 0 ∧ peekWord m (dst 0) = old
    else if fopCode r = 4 then
      if live then w = fopWord 1 false owner ∧ peekWord m (dst 0) = old
      else w = fopWord 0 held 0 ∧ peekWord m (dst 0) = ⟨lockWord held me (epochOf s me), false⟩
    else if live ∧ owner = me then w = fopWord 0 false 0 ∧ peekWord m (dst 0) = ⟨0, false⟩
    else w = fopWord 2 false owner ∧ peekWord m (dst 0) = old)

/-- Command c of engine e issues now (R221, R222, R226, R229, R259, R357, R395): its client is neither being switched out nor
in an aborted step, its header is not reserved, its tokens are there, no earlier command of its window is left, plate order,
FENCE and the governor let it go, its tile is in service, and its number is not in use. -/
structure State.Issues (s : State) (e : Eng) (c : PCmd) : Prop where
  turn : (getClient s (clientOn s (engDie e))).state ≠ 4
  live : aborted s (clientOn s (engDie e)) = false
  header : hdrReserved e c = false
  tokens : tokensReady s e c = true
  first : (locate s e c).1 = []
  known : (locate s e c).2.1.unknown = false
  order : orderOk s e [] (locate s e c).2.1 = true
  fence : fenceOk s e [] (locate s e c).2.1 = true
  gate : gateOf s (clientOn s (engDie e)) e (locate s e c).2.1.off = .run
  inService : engOut s e = false
  number : findFlight s s.plates.nextId = none

/-- The command as it has issued, with the copies of its entries (R169). -/
def State.issuedCmd (s : State) (e : Eng) (c : PCmd) : WinCmd := { (locate s e c).2.1 with names := captureNames s (namesOf e c) }

/-- The issued command in progress. -/
def State.flight (s : State) (e : Eng) (c : PCmd) : Flight :=
  { id := s.plates.nextId, eng := e, client := clientOn s (engDie e), win := s.issuedCmd e c }

/-- The engine after the issue: the command has left its window, or has entered and left it at once. -/
def State.issuedEng (s : State) (e : Eng) (c : PCmd) : EngSt :=
  let l := locate s e c
  let g := getEng s e
  if l.2.2.2 then { g with win := l.1 ++ l.2.2.1 }
  else { g with nextIx := g.nextIx + 1, entered := g.entered + 2 + c.body.length, bank := nextBank g.bank c,
                  xbound := entryBound e g.xbound c }

/-- The state after the issue: tokens taken, the command in progress (R223, R226). -/
def State.issued (s : State) (e : Eng) (c : PCmd) : State :=
  let s2 := takeTokens e c (setEng e (s.issuedEng e c) s)
  { s2 with plates := { s2.plates with nextId := s2.plates.nextId + 1, flights := s2.plates.flights ++ [s.flight e c] } }

/-- The token posts of a command's completion (R224). -/
def Flight.posts (f : Flight) : List Post := f.win.cmd.outs.map fun o =>
  { die := Fin.ofNat 4 (engDie f.eng), file := trefFile o, reg := trefReg o, count := trefCnt o, eng := f.eng, client := f.client }

/-- From s to n the issued command id has completed: it is in progress no longer, and its output tokens are on their way, or
dropped if its client's step is aborted (R224, R229); the other commands in progress, the windows and the tokens are as they
were. -/
def Completed (s n : State) (id : Nat) : Prop :=
  findFlight n id = none ∧ (∀ k, k ≠ id → findFlight n k = findFlight s k) ∧
  (∀ f, findFlight s id = some f →
    n.plates.posts = s.plates.posts ++ (if aborted s f.client then [] else f.posts)) ∧
  n.plates = { s.plates with flights := n.plates.flights, posts := n.plates.posts }

/-- From s to n an issued command has been refused: it has completed with its output tokens, its engine's ILLEGAL bit is set, and its illegal-encoding event has been posted; nothing else has changed but accounts (R5, R222). -/
def RefusedCmd (s n : State) (e : Eng) (c : PCmd) : Prop :=
  Completed (s.issued e c) n s.plates.nextId ∧ bit (getReg n (illegalBit e c).1) (illegalBit e c).2 = true ∧
  (post 0x0201 (clientOn s (engDie e)) (illegalDetail e (s.issuedCmd e c)) s).host.posted <+: n.host.posted ∧
  Only (.plates :: accountParts) s n

/-- The engine and the plate command of a command that a plate carries; none for the others (R88, R111, R138, R148, R151,
R196, R233, R295). -/
def plateCmd : Instr → Option (Eng × PCmd)
  | .modeSet t c => some (.array t, c)
  | .loadStat t c => some (.array t, c)
  | .pass t c => some (.array t, c)
  | .drain t c => some (.array t, c)
  | .bankSwap t c => some (.array t, c)
  | .vblock t c => some (.vector t, c)
  | .sarm t c => some (.stream t, c)
  | .srearm t c => some (.stream t, c)
  | .smode t c => some (.stream t, c)
  | .sreset t c => some (.stream t, c)
  | .snop t c => some (.seq t, c)
  | .stok t c => some (.seq t, c)
  | .scat t c => some (.seq t, c)
  | .sfop t c => some (.seq t, c)
  | .sevent t c => some (.seq t, c)
  | .hconv d u c => some (.hatch d u, c)
  | .hstat d u c => some (.hatch d u, c)
  | .hctx d u c => some (.hatch d u, c)
  | .hsnap d u c => some (.hatch d u, c)
  | .cpt d u c => some (.cpt d u, c)
  | .dmadesc d e c => some (.dma d e, c)
  | .dmamark d e c => some (.dma d e, c)
  | .cctx d c => some (.coll d, c)
  | .csend d c => some (.coll d, c)
  | .cgate d c => some (.coll d, c)
  | .ccommit d c => some (.coll d, c)
  | _ => none

/-- The line of plate words that a tile's instruction cache holds under a number (R231). -/
def cachedWords (s : State) (t k : Nat) : Option (List Word) :=
  ((getCaches s t).lines.find? fun x => decide (x.1 = k)).map (·.2)

/-- The result register of a sequencer's Folio operation (R233). -/
def sfopReg (t : TileId) (w0 : Word) : Nat := pltBlk t (0x408 + 8 * fld w0 2 3)

/-- From s to n the Folio operation q of the sequencer's command id has run (R233, R234), with the flags of w0: a busy one
with RETRY stays to be reissued; otherwise its result word is in the sequencer's result register, and the command completes,
or, with FAULT and a status other than 0, is discarded without tokens and raises the sequencer fault. -/
def SfopEnd (s n : State) (t : TileId) (id : Nat) (w0 : Word) (q : FopRec) : Prop :=
  let client := clientOn s (tileDie t)
  let d : DieId := Fin.ofNat 4 (tileDie t)
  let mine := ((findFlight s id).map fun f => f.win.names.any fun x => decide (x.1 = d.val * 4096 + fopDh q)).getD false
  ∃ m w, FopEffect s m (lockId client d.val (t.val % 16)) mine d q w ∧
    (fld w 0 8 = 1 ∧ bit w0 0 = true → n.plates = m.plates ∧ (∃ j ∈ (getTile n t).sfops, j.id = id) ∧
      Only (.tiles :: accountParts) m n) ∧
    (¬ (fld w 0 8 = 1 ∧ bit w0 0 = true) → getReg n (sfopReg t w0) = w ∧ (∀ j ∈ (getTile n t).sfops, j.id ≠ id) ∧
      if bit w0 1 = true ∧ fld w 0 8 ≠ 0 then
        findFlight n id = none ∧ n.plates.posts = m.plates.posts ∧ n.plates.tokens = m.plates.tokens ∧
          ∃ y z, Only (.tiles :: .plates :: accountParts) m y ∧ Raised y z 0x0307 client (t.val + 2 ^ 6 * 4) ∧ n = z.accounts n
      else Completed m n id ∧ Only (.tiles :: .plates :: accountParts) m n)

/-! ### Arrays -/

/-- What a read of entry e of column n of bank b gives where it holds x, under the upsets of a command (R80). -/
def upsetEntry (b n e : Nat) (us : List Upset) (x : AccEntry) : AccEntry :=
  (us.filter fun u =>
    decide (u.place = accPlace b n e 0) || decide (u.place = accPlace b n e 1) || decide (u.place = accPlace b n e 2) ||
    decide (u.place = accPlace b n (e / 16 * 16) 3)).foldl (fun x u => accUpset x (u.place % 4) (e % 16) (readErr u.flips)) x

/-- From bank a to bank x a row of results has been added to entry e of each column, or written to it (R73, R74, R76, R80);
no other entry has changed, and the bank's underflow mark is set where a product has underflowed. -/
def RowAdded (a x : Bank) (b e : Nat) (write : Bool) (us : List Upset) (rs : List ColRes) : Prop :=
  (∀ k, k < rs.length → getAcc x k e =
    (accAdd write (if write then {} else upsetEntry b k e us (getAcc a k e)) (nth {} rs k)).1) ∧
  (∀ key, (∀ k, k < rs.length → key ≠ k * 256 + e) → mget {} x.ents key = mget {} a.ents key) ∧
  x.record = a.record ∧ x.ufl = (a.ufl || decide (rs.foldl (fun m r => m + r.under) 0 ≠ 0))

/-- From s to n a row's results have gone where the pass puts them: rs to the bank of its place, or added to the partials in
memory by a Vellum pass (R76, R83, R104); a is the array as the row found it, arr as it left it but for its passes. -/
def RowDone (s n : State) (a arr : ArrayS) (j : PassJob) (w : Stat) (xf : Fmt) (xt : Rat) (x : Line)
    (us : List Upset) : Prop :=
  let r := passRec j xf xt w
  let rs := rowResults j.anchor xf x w
  let (b, e) := rowPlace j
  (j.vellum = false → ∃ y, RowAdded (getBank (throughBank a j b e r) b) y b e j.through us rs ∧
    arr = setBank (throughBank a j b e r) b y ∧ ∀ x, n.peek x = s.peek x) ∧
  (j.vellum = true → arr = a ∧ ∀ name buf, j.dest = some (name, buf) → buf.placed →
    StoredAt s n buf (name / 4096) (vellumOff buf j)
      (vellumOuts (s.bytesOf buf (name / 4096) (vellumOff buf j) (4 * rs.length)) (pow2 r.base * r.scale) rs))

/-! ### Vector instructions -/

/-- Word w, of opcode o, is the next instruction of the block that tile t's vector engine runs (R112). -/
def State.NextInstr (s : State) (t : TileId) (w : Word) (o : Nat) : Prop :=
  iOpc w = o ∧ ∃ b, (getVec s t).block = some b ∧ b.instrs[b.pc]? = some w

/-- The state in which an instruction finds its operands: upset words as they were read (R110). -/
def State.operands (s : State) (t : TileId) (w : Word) (u : List Upset) : State :=
  vecUpsets t (clientOn s (tileDie t)) w u s

/-- The registers that vector instructions change: status and counters of the tile's vector block (R134), and the engine's
busy cycles (R237). -/
def vecRegs (t : TileId) : List Nat := [0x000, 0x008, 0x010, 0x018, 0x020, 0x028].map (vecBlk t) ++ [stallBlk (.vector t)]

/-- From s to n an instruction has run on tile t and left the registers and the receive queue of v: the engine is past it
and has counted it; nothing else of that tile, of another tile, or of the module has changed but counters, totals and
events. -/
structure VecStep (s n : State) (t : TileId) (v : VecS) : Prop where
  tile : getTile n t = { getTile s t with vec := { v with block := (getVec s t).block.map advancePc } }
  others : ∀ u : TileId, u ≠ t → getTile n u = getTile s u
  retired : getReg n (vecBlk t 0x028) = stickyAdd 64 (getReg s (vecBlk t 0x028)) 1
  regs : ∀ a, a ∉ vecRegs t → getReg n a = getReg s a
  frame : n = { s.accounts n with tiles := n.tiles }

/-- From v to v' only vector register VD has been written, with f, under the mask (R116). -/
def WroteV (w : Word) (f : Fin 512 → Lane) (v v' : VecS) : Prop :=
  (∀ i : Fin 512, (getV v' (iVd w)).get i =
    if (laneMask v w).getLsbD i.val then f i else if iMz w then 0 else (getV v (iVd w)).get i) ∧
  (∀ r, r ≠ iVd w → getV v' r = getV v r) ∧ v' = { v with v := v'.v }

/-- How many lanes that an instruction writes are not finite though their sources are (R118). -/
def nfCount (v : VecS) (w : Word) (f : Fin 512 → Lane) (fin : Fin 512 → Bool) : Nat :=
  (List.finRange 512).countP fun i => (laneMask v w).getLsbD i.val && nonFinite32 (f i) && fin i

/-- k such lanes have been counted, and NONFINITE is set where there is one (R118, R134). -/
def CountedNf (s n : State) (t : TileId) (k : Nat) : Prop :=
  getReg n (vecBlk t 0x008) = stickyAdd 64 (getReg s (vecBlk t 0x008)) k ∧
  getReg n (vecBlk t 0x000) = getReg s (vecBlk t 0x000) ||| (if k = 0 then 0 else 1)

/-- From v to v' only mask register VD has been written, with f, under the mask (R116); M0 stays all ones (R115). -/
def WroteM (w : Word) (f : Nat → Bool) (v v' : VecS) : Prop :=
  (∀ i, i < 512 → (getM v' (iVd w % 8)).getLsbD i =
    if iVd w % 8 = 0 then true else
    if (laneMask v w).getLsbD i then f i else if iMz w then false else (getM v (iVd w % 8)).getLsbD i) ∧
  (∀ r, r ≠ iVd w % 8 → getM v' r = getM v r) ∧ v' = { v with m := v'.m }

/-- From v to v' only exact register VD has been written, with f of each lane, under the mask (R116). -/
def WroteX (w : Word) (f : Fin 512 → XReg → XReg) (v v' : VecS) : Prop :=
  (∀ i : Fin 512, (getX v' (iVd w % 8)).get i =
    if (laneMask v w).getLsbD i.val then f i ((getX v (iVd w % 8)).get i)
    else if iMz w then {} else (getX v (iVd w % 8)).get i) ∧
  (∀ r, r ≠ iVd w % 8 → getX v' r = getX v r) ∧ v' = { v with x := v'.x }

end Sys2Proof.Machine
end

