-- ==== Sys2Proof/Safety/Terms.lean ====
section
/-! DEFINITION. Further terms of the statements: totals that stick, and what a family's effects have in common. -/

namespace Sys2Proof.Machine

/-- A total of w bits after n more: it sticks at its largest value (R82, R238, R401). -/
def countUp (w : Nat) (v : Word) (n : Nat) : Word :=
  if v.toNat + n < 2 ^ w then BitVec.ofNat 64 (v.toNat + n) else BitVec.ofNat 64 (2 ^ w - 1)

/-- From s to n the host's side has changed by events posted alone. -/
def HostKept (s n : State) : Prop := n.host = { s.host with posted := n.host.posted }

/-- A client's step in progress, if it has one, is aborted, its index kept (R229). -/
def Halted (s n : State) (c : Nat) : Prop :=
  ∀ st, (getClient s c).step = some st →
    ∃ t, (getClient n c).step = some t ∧ (t.aborted = true ∨ t.stopped = true) ∧ t.idx = st.idx

/-- A reset of a kind is recorded: LAST_RESET and RESET_COUNT, and no other entry of the stage (R401). -/
def ResetNoted (kind : Nat) (s n : State) : Prop :=
  getDict n (dkey 0x2000 0x08) = BitVec.ofNat 64 kind ∧
  getDict n (dkey 0x2000 0x09) = countUp 32 (getDict s (dkey 0x2000 0x09)) 1 ∧ stageOf n = stageOf s

/-- The Curator prints lines and then its prompt; nothing else changes (R423). -/
def Prints (ls : List String) (s n : State) : Prop :=
  n = { s with cur := { s.cur with out := s.cur.out ++ ls ++ [curPrompt s] } }

/-- The Curator serves a line: the module is past the start of Sketch, its pins are not in a boundary test and no blow is under
way (R421, R426, R452). -/
def CurServes (s : State) : Prop := s.start.sketched = true ∧ pinsTaken s = false ∧ s.cur.blow = none

/-- From s to n a narrowed run has been written at column c of a row of a handle: the elements, then, for a narrow format, the
block scales (R35, R36, R136). -/
def WroteRun (s n : State) (name : Nat) (e : Entry) (row c : Nat) (r : RowOut) : Prop :=
  ∃ m, WroteBuf s m name e (e.rowOff e.fmtD row + c * elemBits e.fmtD.elem / 8) (packElems (elemBits e.fmtD.elem) r.codes) ∧
    if r.blocks.isEmpty then n = m
    else WroteBuf m n name e (e.scaleOff e.fmtD row (c / e.fmtD.blk)) (r.blocks.map fun b => BitVec.ofNat 8 b.scale)

/-- From s to n runs have been written one after the other at column c, each at its row; between them nothing of memory
changes. -/
def WroteRuns (name : Nat) (e : Entry) (c : Nat) (out : Nat → List DVal → RowOut) : List (Nat × List DVal) → State → State → Prop
  | [], s, n => n.mem = s.mem
  | r :: rs, s, n => ∃ y m, y.mem = s.mem ∧ WroteRun y m name e r.1 c (out r.1 r.2) ∧ WroteRuns name e c out rs m n

/-- From s to n every byte of memory reads as before (R330). -/
def SameBytes (s n : State) : Prop := ∀ a, n.peek a = s.peek a

/-- From s to n command id has completed, or been discarded with its posts if its client's step is aborted, after effects on
other parts of the state than the plates' (R224, R229). -/
def Finished (s n : State) (id : Nat) : Prop := ∃ y, y.plates = s.plates ∧ Completed y n id

/-- From x and s to y and n the writer of a descriptor has written or compared the bytes of units one after the other (R152). -/
def UnitsDone (d client : Nat) : List (List Byte) → DDesc → State → DDesc → State → Prop
  | [], x, s, y, n => y = x ∧ n = s
  | b :: bs, x, s, y, n => ∃ z t, localUnit d client x b s = .done z t ∧ UnitsDone d client bs z t y n

end Sys2Proof.Machine
end

