-- ==== Sys2Proof/Safety/Effects.lean ====
section
/-! DEFINITION. Terms of the statements on streams, the fabric, clients, the host's side, the start, and wear. -/

namespace Sys2Proof.Machine

/-- A stream with the records placed that fetch nothing: of its active descriptor, and of a queued one that fetches (R202, R210,
R212). -/
def Strm.settled (st : Strm) : Strm :=
  { st with
    active := st.active.map fun d => (settleRecs d).1
    queued := match st.active, st.queued with
      | some a, some q => if queuedFetches a q then some (settleRecs q).1 else some q
      | _, o => o }

/-- From s to n only the streams of tile t have changed among the tiles. -/
def StreamsOf (t : TileId) (s n : State) : Prop :=
  getTile n t = { getTile s t with str := getStr n t } ∧ ∀ u : TileId, u ≠ t → getTile n u = getTile s u

/-- From s to n the clients have changed by scope words, and the step of client c by f, alone. -/
def Stepped (s n : State) (c : Nat) (f : StepSt → StepSt) : Prop :=
  ∀ k, getClient n k = { getClient s k with
    scope := (getClient n k).scope
    step := if k = c then (getClient s k).step.map f else (getClient s k).step }

/-- From v and s to w and n the tensor records of a list, on die d, have been latched one after the other by client c's
governor, whose table is g (R254): a slot's flags and its AMAX enter the contribution, the slot goes to its record's snapshot,
and the slot and its flags are cleared. -/
def Latched (c g d : Nat) : List (Nat × Word) → Vote → State → Vote → State → Prop
  | [], v, s, w, n => w = v ∧ n = s
  | (k, r) :: rs, v, s, w, n =>
    let slot := tSlot r
    let flags := fld (getReg s (govBlk d slot)) 8 4
    let am := fld (getReg s (statBlk d slot 8)) 0 32
    ∃ m, ((getEnt s g).placed → StoredAt s m (getEnt s g) (g / 4096) (govSnOff s g + 592 * k) (slotBytesOf s d slot)) ∧
      (∀ j, 1 ≤ j → j < 74 → getReg m (statBlk d slot (8 * j)) = 0) ∧ fld (getReg m (govBlk d slot)) 8 4 = 0 ∧
      Only accessParts s m ∧
      Latched c g d rs { v with flags := v.flags ||| flags, amax := setNth v.amax (tIdx r) (max (nth 0 v.amax (tIdx r)) am) } m w n

/-- A port once it has put a flit on its wire (R270, R272). -/
def Port.sent (x : Port) (f : Flit) (resend : Bool) (pad : Nat) : Port :=
  { x with
    wire := flitBytes f resend x.nak (seqSub x.rxNext 1) pad
    nak := false
    awaiting := x.awaiting || x.nak
    since := x.since + 1 }

/-- A port once it has sent a new flit: it has taken the next sequence number and stands in the replay buffer (R272). -/
def Port.sentNew (x : Port) (f : Flit) (pad : Nat) : Port :=
  ({ x with seq := (x.seq + 1) % 4096, replay := x.replay ++ [{ f with seq := x.seq }] } : Port).sent { f with seq := x.seq } false pad

/-- From s to n port p has become y, and no other port has changed. -/
def PortIs (s n : State) (p : Nat) (y : Port) : Prop := getPort n p = y ∧ ∀ q, q ≠ p → getPort n q = getPort s q

/-- From s to n a stretch of k ticks before plan tick e has reached client c's run (R289 to R291): one already seen does nothing; a new one is
noted and goes on to every port of the partition but the one it came by; where the run has a stretch there it changes nothing
more, where its boundary has passed it is a desync, and else it is put in and counted toward the step's limit, which aborts the
step when it is passed. -/
def Stretched (c origin step e k slot : Nat) (but : Option Nat) (s n : State) : Prop :=
  ((getClient s c).run = none → n = s) ∧
  ∀ r, (getClient s c).run = some r →
    let me := (origin, step % 2 ^ 32, e % 2 ^ 32)
    (me ∈ r.seen → n = s) ∧
    (me ∉ r.seen → ∃ y, Only [.clients, .fabric] s y ∧ getClient y c = { getClient s c with run := some { r with seen := r.seen ++ [me] } } ∧
      (∀ j, j ≠ c → getClient y j = getClient s j) ∧
      (∀ p ∈ partitionPorts s c, but ≠ some p → stretchMsg origin c e k step slot ∈ (getPort y (portFor s p)).ctl) ∧
      ((∃ x ∈ r.stretches, x.1 = e) → n = y) ∧
      ((∀ x ∈ r.stretches, x.1 ≠ e) → boundaryTick r e ≤ s.tick → ∃ z, Only [.dict, .sat, .host, .logs] y z ∧ Raised z n 0x0405 c 1) ∧
      ((∀ x ∈ r.stretches, x.1 ≠ e) → s.tick < boundaryTick r e →
        (getClient n c).run = some { r with seen := r.seen ++ [me], stretches := insStretch (e, k) r.stretches } ∧
        (∀ st, (getClient s c).step = some st → ∃ u, (getClient n c).step = some u ∧ (st.aborted = true → u = st) ∧
          (st.aborted = false → u.stretch = st.stretch + k ∧ (c < 16 → (u.aborted = true ↔ (shareOf s c).limit < st.stretch + k)))) ∧
        (∀ j, j ≠ c → getClient n j = getClient s j) ∧ Only [.dict, .sat, .clients, .fabric, .host, .logs, .ledger] s n))

/-- From s to n a slot of client c has come too late (R288, R289): an aborted step says nothing; else the event is posted, its port's LATE bit set,
and a stretch of the plan's quantum announced before plan tick e. -/
def LateSlot (c slot cause e : Nat) (port : Option Nat) (s n : State) : Prop :=
  ∀ r, (getClient s c).run = some r →
    ((lateStep s c r).1 = true → n = s) ∧
    ((lateStep s c r).1 = false → ∃ y, Only [.regs, .dict, .sat, .host, .logs] s y ∧
      (post 0x0401 c (slot + 2 ^ 16 * cause + 2 ^ 20 * moduleId s) s).host.posted <+: y.host.posted ∧
      (∀ p, port = some p → bit (getReg y (portStatus (portFor s p))) 23 = true) ∧
      Stretched c (moduleId s) (lateStep s c r).2 e (shareOf s c).quantum slot none y n)

/-- From y to n the module has tried to send the records of a control slot up (R285 to R287): its own join those of its children once
the slot is open and nothing holds them back; with every child heard, all go up, once, to the parent of a module that has one. -/
def Upward (c slot : Nat) (y n : State) : Prop :=
  ((getClient y c).step = none → n = y) ∧
  ∀ st, (getClient y c).step = some st →
    let x := mget {} st.ctl slot
    let x1 : Ctl := if x.own = false ∧ slot ∈ st.opened ∧ heldBack y c slot st = false then
      { x with own := true, recs := mergeRecs x.recs (ownRecs y c slot st) } else x
    let goes := x1.own = true ∧ x1.up = false ∧ (childPorts y c).length ≤ x1.kids
    let p := (shareOf y c).cparent
    (¬ goes → Stepped y n c (fun st => { st with ctl := mset {} st.ctl slot x1 }) ∧ Only [.clients] y n) ∧
    (goes → Stepped y n c (fun st => { st with ctl := mset {} st.ctl slot { x1 with up := true } }) ∧ Only [.clients, .fabric, .free] y n ∧
      (p = 63 → Only [.clients] y n) ∧
      (p ≠ 63 → ∃ m : Word × Word, fld m.1 0 8 = 4 ∧ PortIs y n (portFor y p) { getPort y (portFor y p) with ctl := (getPort y (portFor y p)).ctl ++ [m] }))

/-- From s to n a collective fault (R303, R319, R323): the die's status holds FAULT, its code and its job, the fault is raised, and the
client's step is not ready to re-shard. -/
def CollFaulted (d client code job ctx : Nat) (s n : State) : Prop :=
  ∃ y z, Only [.regs, .dict, .sat, .host, .logs] s y ∧
    (let v := getReg y (collBlk d 0); bit v 0 = true ∧ fld v 1 4 = code % 16 ∧ fld v 11 16 = job % 65536) ∧
    Raised y z 0x0501 client (code + 16 * job + 2 ^ 20 * ctx) ∧ Only [.clients] z n ∧
    Stepped z n client (fun st => { st with notReady := true })

/-- In n each port of a list, mapped by s, has a link control message of a type in its queue. -/
def SentTo (mtype : Nat) (ps : List Nat) (s n : State) : Prop :=
  ∀ p ∈ ps, ∃ m : Word × Word, fld m.1 0 8 = mtype ∧ m ∈ (getPort n (portFor s p)).ctl

/-- From s to n a spare swap has been recorded (R431, R433, R439): it is counted; a map that is not full takes its record, and the event that names
it is posted. -/
def SwapRecorded (kind die unit frm dst cause row : Nat) (s n : State) : Prop :=
  let l := s.wearS.errata
  let w0 : Word := BitVec.ofNat 64 (kind % 16 + 16 * (die % 4) + 64 * (if kind = 6 then 1 else 0) + 256 * (unit % 32) + 2 ^ 14 * (frm % 1024) +
    2 ^ 24 * (dst % 1024) + 2 ^ 34 * (cause % 64))
  let w1 : Word := BitVec.ofNat 64 (s.tick % 2 ^ 40 + 2 ^ 40 * (row % 2 ^ 24))
  getDict n (dkey 0x8000 0x0F) = countUp 64 (getDict s (dkey 0x8000 0x0F)) 1 ∧ Only [.dict, .sat, .wearS, .host, .logs] s n ∧
  (1024 ≤ l.length → n.wearS = s.wearS) ∧
  (l.length < 1024 → ∃ z, n = post 0x0901 16 (l.length + 2 ^ 10 * (w0.toNat % 2 ^ 54)) z ∧
    z.wearS = { s.wearS with errata := l ++ [{ w0 := w0, w1 := w1 }] } ∧
    getDict z (dkey 0x8000 0x02) = BitVec.ofNat 64 (l.length + 1))

/-- From s to n the credits of a packet's flits have gone back through the port it came by, if it came by one (R293). -/
def CreditReturned (b : Option (Nat × Nat)) (s n : State) : Prop :=
  (b = none → n = s) ∧
  ∀ q, b = some q → Only [.fabric, .free] s n ∧
    ∃ m : Word × Word, fld m.1 0 8 = 6 ∧ PortIs s n q.1 { getPort s q.1 with ctl := (getPort s q.1).ctl ++ [m] }

/-- A context once a transfer has been counted in it: it completes with its last one, unless its CSEND is still to read it (R300). -/
def Ctx.counted (x : Ctx) : Ctx :=
  let y : Ctx := { x with w3 := setFld x.w3 12 12 (x.narr + 1) }
  if (x.state = 1 ∨ x.state = 2) ∧ y.narr = x.nexp ∧ (x.kind ≠ 1 ∨ x.fwdread = true) then { y with w0 := setFld x.w0 0 3 3 } else y

/-- From s to n the transfer that die d has taken in is marked in its receive slot, and what the die holds is gone through again (R300). -/
def TakenIn (d : DieId) (data : List Byte) (s n : State) : Prop :=
  ∃ z, z = { s with fabric := { s.fabric with rx := s.fabric.rx.map fun r => if r.hdr ++ r.data = data then { r with taken := true } else r } } ∧
    ((∃ h ∈ z.fabric.held, h.1 = d) → n = pumpHeld d z) ∧ ((∀ h ∈ z.fabric.held, h.1 ≠ d) → n = z)

end Sys2Proof.Machine
end

