-- ==== Sys2Proof/Safety/Host.lean ====
section
/-! DEFINITION. Terms of the statements on the host's queues and commands, clients, the start, CAN, the mailbox and wear. -/

namespace Sys2Proof.Machine

/-! ### Queues -/

/-- From s to n a queue, of a key in the set of stopped queues, has stopped with an error code in its control register (R340). -/
def QueueStopped (key ctrl code : Nat) (s n : State) : Prop :=
  bit (getReg n ctrl) 1 = true ∧ fld (getReg n ctrl) 2 6 = code ∧ (∀ a, a ≠ ctrl → getReg n a = getReg s a) ∧ queueOn n key ctrl = false ∧
    Only [.regs, .host] s n ∧ n.host = { s.host with stopped := mset false s.host.stopped key true }

/-- Where the entry i places after a submission queue's HEAD stands in host memory (R340). -/
def sqEntry (s : State) (q i : Nat) : Nat :=
  (getReg s (sqReg q 0)).toNat / 64 * 64 + 64 * ((fld (getReg s (sqReg q 0x10)) 0 12 + i) % queueSize s (sqReg q 8))

/-- From s to n k entries of a submission queue have been fetched in order, and its HEAD is past them (R340). -/
def Fetched (q k : Nat) (s n : State) : Prop :=
  n.host = { s.host with fetched := s.host.fetched ++ (List.range k).map fun i => { q := q, words := wordsOf 8 (hostBytes s (sqEntry s q i) 64) } } ∧
    fld (getReg n (sqReg q 0x10)) 0 12 = (fld (getReg s (sqReg q 0x10)) 0 12 + k) % queueSize s (sqReg q 8) ∧
    (∀ a, a ≠ sqReg q 0x10 → getReg n a = getReg s a) ∧ Only [.regs, .host] s n

/-- From s to n a submission queue has been fetched up to its tail, while queue processing is enabled; the first entry that the host bus does not
give stops it (R340). -/
def QueueFetched (q : Nat) (s n : State) : Prop :=
  let sz := queueSize s (sqReg q 8)
  let k := (mget 0 s.host.tails q + sz - fld (getReg s (sqReg q 0x10)) 0 12) % sz
  (bit (getReg s (bar0 0)) 0 = false → n = s) ∧
  (bit (getReg s (bar0 0)) 0 = true → queueOn s q (sqReg q 0x18) = true → mget 0 s.host.tails q < sz → fld (getReg s (sqReg q 0x10)) 0 12 < sz →
    ((∀ i, i < k → hostOk s (sqEntry s q i) 64 = true) → Fetched q k s n) ∧
    (∀ j, j < k → (∀ i, i < j → hostOk s (sqEntry s q i) 64 = true) → hostOk s (sqEntry s q j) 64 = false →
      ∃ m, Fetched q j s m ∧ QueueStopped q (sqReg q 0x18) 2 m n))

/-- Where an event queue's next record goes in host memory (R346). -/
def evTail (s : State) (e : Nat) : Nat := (getReg s (eqReg e 0)).toNat / 64 * 64 + 32 * fld (getReg s (eqReg e 0x10)) 0 12

/-- From s to m an event record has been written at an event queue's tail, fields it does not have open, and the tail is past it; the phase turns
over where the tail returns to 0. l is what the queue then holds (R345 to R347). -/
def EventWritten (e : Nat) (v : Event) (l : List Event) (s m : State) : Prop :=
  let q := getEvQ s e
  let a := evTail s e
  let next := (fld (getReg s (eqReg e 0x10)) 0 12 + 1) % queueSize s (eqReg e 8)
  (∃ x y : Word, ∀ i, i < 32 → hostByte m (a + i) = nth 0 (bytesOf (recordWords v q.phase x y)) i) ∧ (∀ b, b < a ∨ a + 32 ≤ b → hostByte m b = hostByte s b) ∧
  fld (getReg m (eqReg e 0x10)) 0 12 = next ∧ (∀ b, b ≠ eqReg e 0x10 → getReg m b = getReg s b) ∧
  getEvQ m e = { q with hold := l, phase := if next = 0 then !q.phase else q.phase, unsig := q.unsig + 1, urgent := q.urgent || decide (3 ≤ v.sev) } ∧
  (∀ k, k ≠ e → getEvQ m k = getEvQ s k) ∧ m.host = { s.host with mem := m.host.mem, queues := m.host.queues } ∧ Only [.regs, .host, .free] s m

/-- From s to n the records that an event queue holds, at most k of them, have been written in order while it could take them (R346). -/
def Flushed (e : Nat) : Nat → State → State → Prop
  | 0, s, n => n = s
  | k + 1, s, n =>
    ((getEvQ s e).hold = [] ∨ evqOpen s e = false → n = s) ∧
    ∀ v l, (getEvQ s e).hold = v :: l → evqOpen s e = true →
      (hostOk s (evTail s e) 32 = true → ∃ m, EventWritten e v l s m ∧ Flushed e k m n) ∧
      (hostOk s (evTail s e) 32 = false → QueueStopped (128 + e) (eqReg e 0x18) 2 s n)

/-- From s to n a record has gone to an event queue's hold, or, with 256 held, in place of the oldest below a fault, or has been lost: a record below
a fault, or one that finds only faults there (R346). -/
def RecordHeld (e : Nat) (v : Event) (s n : State) : Prop :=
  let h := (getEvQ s e).hold
  let lost (y : State) : Prop := getDict n (dkey 0x1100 0x22) = countUp 64 (getDict y (dkey 0x1100 0x22)) 1 ∧ Only [.dict, .sat, .host, .logs] y n
  (h.length < 256 → n = setEvQ e { getEvQ s e with hold := h ++ [v] } s) ∧
  (256 ≤ h.length → v.sev < 3 → lost s) ∧
  (256 ≤ h.length → 3 ≤ v.sev → (∀ w ∈ h, 3 ≤ w.sev) → lost s) ∧
  (256 ≤ h.length → 3 ≤ v.sev → ∀ a w b, h = a ++ w :: b → (∀ x ∈ a, 3 ≤ x.sev) → w.sev < 3 → lost (setEvQ e { getEvQ s e with hold := a ++ b ++ [v] } s))

/-! ### Host commands -/

/-- From y to n a host command has completed with a status and a reason: a record is posted where the status is not OK, or where the command asks for one (R341,
R344, R345). -/
def CmdDone (h : HostCmd) (status reason : Nat) (y n : State) : Prop :=
  let c := queueClient h.q
  (status = 0 ∧ h.notify = false → n = y) ∧
  (¬ (status = 0 ∧ h.notify = false) → n = postEvent { code := 1, sev := 0, client := c, queue := h.q, cmdid := h.id, status := status, step := stepNow y c, detail := reason, tick := y.tick % 2 ^ 40 } y)

/-- Queue q serves its next command h, of an opcode: the stage allows it, ADMIT and EVICT stand in the manager's queue and the others in that of an admitted
client, which runs, or has its turn, unless the command is COPY (R340, R341, R349, R354, R391). -/
def HostServes (s : State) (q hop : Nat) (h : HostCmd) : Prop :=
  nextHost s q = some h ∧ h.hop = hop ∧ (stageOf s = 2 ∨ stageOf s = 3) ∧
    ((64 ≤ q ∧ 16 ≤ hop) ∨ (q < 64 ∧ hop < 16 ∧ (getClient s (queueClient q)).state ≠ 0 ∧
      (hop = 5 ∨ (getClient s (queueClient q)).state = 2 ∨ ((getClient s (queueClient q)).state = 1 ∧ inTurn s (queueClient q) = true))))

/-- From x to y client c's record has become z, and nothing else has changed. -/
def ClientIs (x y : State) (c : Nat) (z : Client) : Prop := getClient y c = z ∧ (∀ k, k ≠ c → getClient y k = getClient x k) ∧ Only [.clients] x y

/-- From y to n a scheduled capture has been skipped: its count, and its event (R379). -/
def CaptureSkipped (c : Nat) (streaming : Bool) (y n : State) : Prop :=
  ∃ z, n = post 0x0701 c (if streaming then 1 else 2) z ∧ getDict z (dkey 0x9000 0x02) = countUp 64 (getDict y (dkey 0x9000 0x02)) 1 ∧
    Only [.dict, .sat, .host, .logs] y z

/-- From y to n the image of client c has been captured for a command: it is staged where the command says, and streams out (R377, R378). -/
def Captured (c : Nat) (j : ArchJob) (names : List Nat) (y n : State) : Prop :=
  let t := takeImage c names y
  (getClient n c).arch.out = some { j with image := t.1, poison := t.2.1 } ∧
  mget [] (getClient n c).arch.staged (fld (nth 0 j.words 4) 0 44) = t.1.map (fun b => (b, false)) ∧
  getDict n (dkey 0x9001 c) = 2 ∧ Only (.free :: accessParts) y n

/-- From y to n a restore has failed in its second or third phase: no plate set, ARCH_STATE 5, the count, and the record (R384, R389). -/
def RestoreFailed (h : HostCmd) (reason : Nat) (y n : State) : Prop :=
  let c := queueClient h.q
  ∃ z, CmdDone h 3 reason z n ∧ (getClient z c).set = none ∧ getDict z (dkey 0x9001 c) = 5 ∧
    getDict z (dkey 0x9000 0x06) = countUp 64 (getDict y (dkey 0x9000 0x06)) 1 ∧ Only [.dict, .sat, .clients, .host, .logs] y z

/-! ### The start -/

/-- From s to n the module has entered stage k: STAGE, for Sketch, Proof and Edition its entry time in ms since PWR_GOOD, and the stage event (R401). -/
def StageEntered (k : Nat) (s n : State) : Prop :=
  ∃ y, n = post 0x0004 16 k y ∧ getDict y (dkey 0x2000 0x01) = BitVec.ofNat 64 k ∧
    (1 ≤ k → k ≤ 3 → getDict y (dkey 0x2000 (2 + k)) = BitVec.ofNat 64 ((s.tick - s.start.goodTick) / 1000)) ∧
    (∀ j, j ≠ dkey 0x2000 0x01 → j ≠ dkey 0x2000 (2 + k) → getDict y j = getDict s j) ∧ Only [.dict] s y

/-- From s to n STAGE_FAULT has been set to k, with its event (R394, R401). -/
def StageFaulted (k : Nat) (s n : State) : Prop :=
  ∃ y, n = post 0x0801 16 k y ∧ getDict y (dkey 0x2000 0x02) = BitVec.ofNat 64 k ∧
    (∀ j, j ≠ dkey 0x2000 0x02 → getDict y j = getDict s j) ∧ Only [.dict] s y

/-- From s to n the image of slot k runs (R396, R402). -/
def Booted (k : Nat) (s n : State) : Prop :=
  let img := slotImage s k
  n.start = { s.start with firmware := true, svn := (Config.imageSvn img).toNat } ∧ getDict n (dkey 0x2000 0x0B) = BitVec.ofNat 64 k ∧
    getDict n (dkey 0x1000 0x04) = (Config.imageRelease img).setWidth 64 ∧
    (∀ j, j ≠ dkey 0x2000 0x0B → j ≠ dkey 0x1000 0x04 → getDict n j = getDict s j) ∧ Only [.dict, .start] s n

/-- Every task of Proof is complete and has met its condition (R394): the stacks, the tiles, the cores, the ports, and the timing tree where a
port is up. -/
def TasksMet (s : State) : Prop :=
  (∀ i, i < 24 → fld (getReg s (stkBlk i 0)) 0 2 = 1) ∧ getDict s (dkey 0x2000 0x06) = BitVec.allOnes 64 ∧
    (∀ d, d < 4 → mget 0 s.start.tilesOk d ≠ 0) ∧ s.start.cores = 15 ∧ (∀ p, p < 32 → portState s p ≠ 1) ∧
    ((∃ p, p < 32 ∧ portState s p = 2) → getDict s (dkey 0x5000 0x08) = 1)

/-- From s to n effects of one kind have followed one another, one for each item of a list. -/
def Chain {α : Type} (r : α → State → State → Prop) : List α → State → State → Prop
  | [], s, n => n = s
  | x :: l, s, n => ∃ m, r x s m ∧ Chain r l m n

/-- Whether the rows (kind 1) or columns (kind 2) that a self-test found bad in a physical tile can be repaired: no two in one quarter, and none in a
quarter whose one repair an Errata record has taken (R85, R394). -/
def RepairFits (s : State) (kind d p : Nat) (l : List (Nat × Nat)) : Prop :=
  ((l.filter fun x => decide (x.1 = p)).map fun x => x.2 / 65).Nodup ∧
    ∀ x ∈ l, x.1 = p → ∀ r ∈ s.wearS.errata, r.kind = kind → r.die = d → r.unit = p → r.frm / 65 ≠ x.2 / 65

/-! ### Wear -/

/-- From s to n a swap is due where no spare is left: its event, once per unit (R434). -/
def SpareGone (kind die unit item : Nat) (s n : State) : Prop :=
  let k := (kind * 4 + die) * 2 ^ 15 + unit * 1024 + item
  (k ∈ s.wearS.gone → n = s) ∧
  (k ∉ s.wearS.gone → n = post 0x0902 16 (kind + 16 * die + 64 * unit) { s with wearS := { s.wearS with gone := k :: s.wearS.gone } })

/-- From s to n a swap has been performed: the queue gives it up and its record takes its cause, open where none was queued (R431, R433). -/
def SwapDone (kind die unit frm dst : Nat) (s n : State) : Prop :=
  let q := s.wearS.queue.find? fun x => x.isOf kind die unit frm
  ∃ cause y, (∀ x, q = some x → cause = x.cause ∧ y = { s with wearS := { s.wearS with queue := s.wearS.queue.erase x } }) ∧
    (q = none → cause < 64 ∧ Only [.free] s y) ∧ SwapRecorded kind die unit frm dst cause 0 y n

/-- From s to n the fuses of Errata entry e, which is r, have been blown, or have failed to: the record's STATE, its event, and a fuse record used (R437). -/
def Blown (e : Nat) (r : Errata) (ok : Bool) (s n : State) : Prop :=
  let l := s.wearS.errata.set e { r with w0 := setFld r.w0 6 2 (if ok then 1 else 2) }
  let k := dkey 0x1000 (0x15 + r.die)
  ∃ z, z.wearS = { s.wearS with errata := l } ∧ getDict z (dkey 0x8000 0x02) = BitVec.ofNat 64 l.length ∧
    getDict z (dkey 0x8000 0x03) = BitVec.ofNat 64 (l.filter Errata.pending).length ∧ getDict z k = (if ok then getDict s k - 1 else getDict s k) ∧
    (∀ j, j ∉ [dkey 0x8000 0x02, dkey 0x8000 0x03, k] → getDict z j = getDict s j) ∧ Only [.dict, .wearS] s z ∧
    n = post (if ok then 0x0903 else 0x0904) 16 e z

end Sys2Proof.Machine
end

