-- ==== Sys2Proof/Safety/Can.lean ====
section
/-! DEFINITION. Terms of the statements on CAN and the mailbox (R407 to R418). -/

namespace Sys2Proof.Machine

/-- From s to n the node's state follows its error counters, and no other entry has changed; listen-only and a duplicated ID stay (log 102). -/
def Tallied (s n : State) : Prop :=
  canState n = (if 3 ≤ canState s then canState s else if 255 < n.can.tec then 2 else if 127 < n.can.tec ∨ 127 < n.can.errs then 1 else 0) ∧
    ∀ k, k ≠ dkey 0x1100 0x04 → getDict n k = getDict s k

/-- From s to g a frame has been received without error: the receive counter falls (log 102). -/
def CanHeard (s g : State) : Prop :=
  g.can = { s.can with errs := g.can.errs } ∧ (s.can.errs ≤ 127 → g.can.errs = s.can.errs - 1) ∧
    (127 < s.can.errs → 119 ≤ g.can.errs ∧ g.can.errs ≤ 127) ∧ Tallied s g ∧ Only [.dict, .can, .free] s g

/-- From s to n a frame of a function code and a node has been sent, padded to a length that CAN FD has (R407, R408); a node that its own reset has just
restarted sends nothing. -/
def FrameSent (code node : Nat) (bs : List Byte) (s n : State) : Prop :=
  (s.start.sketched = false → n = s) ∧
  (s.start.sketched = true → n.can = { s.can with sent := s.can.sent ++ [(code * 128 + node, padFrame bs)], tec := s.can.tec - 1 } ∧
    Tallied s n ∧ Only [.dict, .can] s n)

/-- A state without the transaction of a tag. -/
def ended (tag : Nat) (s : State) : State := { s with can := { s.can with txs := s.can.txs.filter fun x => decide (x.tag ≠ tag) } }

/-- From s to n an abort has been counted, and no other entry has changed (R420). -/
def AbortCounted (s n : State) : Prop :=
  getDict n (dkey 0x1100 0x0A) = countUp 64 (getDict s (dkey 0x1100 0x0A)) 1 ∧ (∀ k, k ≠ dkey 0x1100 0x0A → getDict n k = getDict s k) ∧
    Only [.dict, .sat, .host, .logs] s n

/-- From s to n the transaction of a tag has ended with an abort frame of a code, counted; six bytes of its W0 are open (R409, R412). -/
def CanAborted (tag code : Nat) (s n : State) : Prop :=
  ∃ (w : List Byte) (x y : State), w.length = 6 ∧ x.can = (ended tag s).can ∧ Only [.can, .free] s x ∧
    FrameSent 0xB (nodeId s) (leBytes 1 0x0F ++ leBytes 1 tag ++ w ++ leBytes 4 code) x y ∧ AbortCounted y n

/-- From g to n a request that opens a transaction has been served by r: the older one under its tag ends with SUPERSEDED, and a fifth is refused with BUSY
(R413). -/
def Opening (tag : Nat) (r : State → State → Prop) (g n : State) : Prop :=
  ∃ m, (findTrans g tag = none → m = g) ∧ (∀ x, findTrans g tag = some x → CanAborted tag 0xC g m) ∧
    (4 ≤ m.can.txs.length → CanAborted tag 0xB m n) ∧ (m.can.txs.length < 4 → r m n)

/-- From the state of a read to n its value has gone out: in one frame up to 56 bytes, else as a transaction of segments; or the abort that refused it (R410, R411). -/
def Returned (f : CanFrame) (r : Nat × List Byte × State) (n : State) : Prop :=
  let bs := r.2.1
  (r.1 ≠ 0 → CanAborted f.tag r.1 r.2.2 n) ∧
  (r.1 = 0 → bs.length ≤ 56 → FrameSent 0xB (nodeId r.2.2) (respHead 4 f.tag f.index f.sub bs.length ++ bs) r.2.2 n) ∧
  (r.1 = 0 → 56 < bs.length → ∃ y, FrameSent 0xB (nodeId r.2.2) (respHead 5 f.tag f.index f.sub 0 ++ leBytes 4 bs.length) r.2.2 y ∧
    n = { y with can := { y.can with txs := y.can.txs ++ [{ tag := f.tag, ix := f.index, sub := f.sub, write := false, data := bs, size := bs.length }] } })

/-- From s to n a whole write has been applied, and answered (R410, R411). -/
def Applied (tag ix sub : Nat) (data : List Byte) (s n : State) : Prop :=
  let r := dictWrite .can ix sub data s
  (r.1 ≠ 0 → CanAborted tag r.1 r.2 n) ∧
  (r.1 = 0 → FrameSent 0xB (nodeId r.2) (respHead 8 tag ix sub 0) (ended tag r.2) n)

/-- From s to n a block of a write has been acknowledged up to its last segment in order (R411). -/
def Acked (x : CanTx) (s n : State) : Prop :=
  FrameSent 0xB (nodeId s) (segHead 7 x.tag x.seg 0 16) (setTrans { x with seg := 0, gap := false } s) n

/-- From g to n a segment of a write has been taken (R411). -/
def SegmentTaken (x : CanTx) (f : CanFrame) (g n : State) : Prop :=
  let good := 1 ≤ f.seq ∧ f.seq ≤ 16 ∧ 1 ≤ f.segLen ∧ f.segLen ≤ 56 ∧ f.segLen ≤ f.body.length ∧ (f.last = false → f.segLen = 56)
  let blockEnd := f.seq = 16 ∨ f.last = true
  let inOrder := x.gap = false ∧ f.seq = x.seg + 1
  let y : CanTx := { x with data := x.data ++ f.body.take f.segLen, seg := f.seq }
  let fits := y.data.length ≤ x.size ∧ (f.last = true → x.size ≤ y.data.length)
  (¬ good → CanAborted x.tag 0xA g n) ∧
  (good → ¬ inOrder → (blockEnd → Acked { x with gap := true } g n) ∧ (¬ blockEnd → n = setTrans { x with gap := true } g)) ∧
  (good → inOrder → ¬ fits → CanAborted x.tag 6 g n) ∧
  (good → inOrder → fits → (f.last = true → Applied x.tag x.ix x.sub y.data g n) ∧
    (f.last = false → (f.seq = 16 → Acked y g n) ∧ (f.seq ≠ 16 → n = setTrans y g)))

/-- From s to n the next block of a read has been sent from its place on (R411). -/
def BlockSent (x : CanTx) (s n : State) : Prop :=
  let k := min x.block (cdiv (x.size - x.done) 56)
  ∃ y, Chain (fun (i : Nat) s n =>
      let bs := (x.data.drop (x.done + 56 * i)).take 56
      FrameSent 0xB (nodeId s) (segHead 6 x.tag (i + 1) (if x.size ≤ x.done + 56 * (i + 1) then 1 else 0) bs.length ++ bs) s n) (List.range k) s y ∧
    n = setTrans { x with seg := k } y

/-- From g to n a block's acknowledgement has been served (R411). -/
def BlockServed (x : CanTx) (f : CanFrame) (g n : State) : Prop :=
  let place := min x.size (x.done + 56 * f.seq)
  let known := x.write = false ∧ f.seq ≤ x.seg
  (¬ known → CanAborted f.tag 0xA g n) ∧
  (known → place = x.size → n = ended f.tag g) ∧
  (known → place ≠ x.size → ¬ (1 ≤ f.segLen ∧ f.segLen ≤ 16) → CanAborted f.tag 0xA g n) ∧
  (known → place ≠ x.size → 1 ≤ f.segLen → f.segLen ≤ 16 → BlockSent { x with done := place, block := f.segLen } g n)

/-- From y to n a mailbox request has ended: DONE, ABORTED, ACODE and RLEN; a reset that the request has caused leaves nothing to end (R417). -/
def MailEnded (code len : Nat) (y n : State) : Prop :=
  (y.start.sketched = false → n = y) ∧
  (y.start.sketched = true → getReg n (mbReg 0) = (if code = 0 then 2 else 6) ∧ getReg n (mbReg 0x10) = BitVec.ofNat 64 (code + 2 ^ 32 * len) ∧
    (∀ a, a ≠ mbReg 0 → a ≠ mbReg 0x10 → getReg n a = getReg y a) ∧ Only [.regs] y n)

/-- From the state of a read to n the mailbox holds its value, from the buffer's first byte on, or its abort (R417). -/
def MailRead (r : Nat × List Byte × State) (n : State) : Prop :=
  (r.1 ≠ 0 → MailEnded r.1 0 r.2.2 n) ∧
  (r.1 = 0 → ∃ y, (∀ i, mbByte y i = if i < r.2.1.length then nth 0 r.2.1 i else mbByte r.2.2 i) ∧ y.mail.remote = r.2.2.mail.remote ∧
    Only [.mail] r.2.2 y ∧ MailEnded 0 r.2.1.length y n)

end Sys2Proof.Machine
end

