-- ==== Sys2Proof/Certificates/Slice0/Obligations.lean ====
section
/-! DEFINITION. The statements for the provers: one definition of a proposition each, as OBLIGATIONS.json lists them. -/

open Sys2Proof Sys2Proof.Machine

/-- The model's queue (log 8; not a rule of the spec). A step is the front command's effect on the state with the queue's
rest; with nothing waiting it leaves the state as it is. -/
def Obligations.StepRunsFrontCommand : Prop :=
  (∀ (c : Instr) (rest : List Instr) (s : State), s.pending = c :: rest → step s = exec c { s with pending := rest }) ∧
  ∀ s : State, s.pending = [] → step s = .next s

/-- Ordinary data never stops the block: whatever the state, every command answers a next state, but for POWER_SEQUENCE with
an input above 54.0 V, where the spec guarantees nothing (R11, R440) and the machine stops with a fault. No command is refused. -/
def Obligations.OnlyOvervoltageStops : Prop :=
  (∀ (c : Instr) (s : State), (∀ vin ms, c = .powerSequence vin ms → vin ≤ 54000) → ∃ t, exec c s = .next t) ∧
  ∀ (vin ms : Nat) (s : State), 54000 < vin → exec (.powerSequence vin ms) s = .fault .outsideLimits

/-- Runs of any number of steps. After k steps the queue has lost its first k commands; the messages sent to the host and the
frames sent on the CAN bus are the earlier ones with new ones behind them; no free value is used twice. -/
def Obligations.RunsConsumeAndAppend : Prop :=
  ∀ (k : Nat) (s t : State), Sys2Proof.core.run k s = .next t →
    t.pending = s.pending.drop k ∧ s.host.sent <+: t.host.sent ∧ s.can.sent <+: t.can.sent ∧ s.free ≤ t.free

/-- The invariant of memory: whatever command runs, in whatever state, from memory in canonical form the step leaves memory in
canonical form: addresses strictly rising, no entry that says what an unlisted address says, and so for check bits and line
owners. -/
def Obligations.StepKeepsMemoryCanonical : Prop :=
  ∀ s t : State, s.inv → step s = .next t → t.inv

/-- Memory as data. Two memories in canonical form that read alike, byte by byte, word state by word state and owner by owner,
are equal; after bytes are written at an address, every byte of them reads as written and every other byte as before. -/
def Obligations.MemoryReadsDetermineData : Prop :=
  (∀ m m' : Memory, m.wf = true → m'.wf = true → (∀ a, m.byte a = m'.byte a) →
    (∀ k, mget 0#16 m.synd k = mget 0#16 m'.synd k) → (∀ k, mget 0 m.owner k = mget 0 m'.owner k) → m = m') ∧
  (∀ (m : Memory) (a i : Nat) (bs : List Byte),
    (m.setBytes a bs).byte i = if a ≤ i ∧ i < a + bs.length then bs.getD (i - a) 0 else m.byte i) ∧
  ∀ (m : Memory) (a : Nat) (bs : List Byte), m.wf = true → (m.setBytes a bs).wf = true

/-- The machine right after power-on reset. Memory is in canonical form and lists nothing, no command waits and no event is
posted. Registers with a stated reset value have it: HBASE of a statistics slot -24 (R144), BSLIM of a governor flag word 255
(R252), SPLANE of a port 4 (R294). Dictionary entries with a stated default have it, a selection: STAGE Sketch to come 1,
LAST_RESET 1 (R401), the clocks of R17, STREAM_WATCHDOG 65,536 (R217), TOKEN_WATCHDOG 1,048,576 (R238), GOV_ENABLE 1
(R265), HB_PERIOD 1,000 and CAN_TIMEOUT 500 (R420), SLOTS_FREE 65,536 (R195), WEAR_ENABLE 1 (R439). -/
def Obligations.ResetState : Prop :=
  let s := State.reset
  s.inv ∧ s.mem = {} ∧ s.pending = [] ∧ s.host.posted = [] ∧ s.tick = 0 ∧
  (∀ d i : Nat, d < 4 → i < 1024 → getReg s (statBlk d i 0) = 0xFFE8) ∧
  (∀ d i : Nat, d < 4 → i < 1024 → getReg s (govBlk d i) = 255) ∧
  (∀ d p : Nat, d < 4 → p < 8 → getReg s (linkBlk d (0x40 * p)) = 0x20) ∧
  (∀ e ∈ [(dkey 0x2000 0x01, 1), (dkey 0x2000 0x08, 1), (dkey 0x2100 0x11, 1600), (dkey 0x2100 0x13, 2000),
      (dkey 0x2100 0x14, 1250), (dkey 0x2100 0x15, 800), (dkey 0x4030 0x02, 65536), (dkey 0x4040 0x01, 1048576),
      (dkey 0x6000 0x01, 1), (dkey 0x1100 0x05, 1000), (dkey 0x1100 0x08, 500), (dkey 0x3100 0x0D, 65536),
      (dkey 0x8000 0x04, 1)], getDict s e.1 = BitVec.ofNat 64 e.2)

/-- FP32 vector instructions (R117 to R119). The next instruction of the running block, if it is VADD, VSUB, VMUL, VFMA, VFMS,
VFNMA, VMIN, VMAX, VABS, VNEG, VADDI, VMULI, VFMAI, VDIV, VSQRT, VRSQRT, VRCP, VEXP, VEXP2, VLOG, VLOG2, VTANH, VSIGM, VERF,
VSIN or VCOS, runs: each lane of VD that the mask selects gets the operation's result on the operands as they were read, the
others are kept or cleared (R116), no other register changes, the engine moves on, and the non-finite results of finite
sources are counted (R118). -/
def Obligations.VectorFloat : Prop :=
  ∀ (t : TileId) (w : Word) (u : List Upset) (s : State),
    let s0 := s.operands t w u
    let v := getVec s0 t
    let a (i : Fin 512) : Lane := (getV v (iVa w)).get i
    let b (i : Fin 512) : Lane := (getV v (iVb w)).get i
    let c (i : Fin 512) : Lane := (getV v (iVc w)).get i
    let fin (x : Lane) : Bool := !nonFinite32 x
    let runs (i : Instr) (o : Nat) (f : Fin 512 → Lane) (ok : Fin 512 → Bool) : Prop :=
      s.NextInstr t w o → ∃ n v', exec i s = .next n ∧ VecStep s0 n t v' ∧ WroteV w f v v' ∧
        CountedNf s0 n t (nfCount v w f ok)
    let one (i : Instr) (o : Nat) (f : Lane → Lane) : Prop := runs i o (fun l => f (a l)) (fun l => fin (a l))
    let two (i : Instr) (o : Nat) (f : Lane → Lane → Lane) : Prop :=
      runs i o (fun l => f (a l) (b l)) (fun l => fin (a l) && fin (b l))
    let three (i : Instr) (o : Nat) (f : Lane → Lane → Lane → Lane) : Prop :=
      runs i o (fun l => f (a l) (b l) (c l)) (fun l => fin (a l) && fin (b l) && fin (c l))
    let imm (i : Instr) (o : Nat) (f : Lane → Lane) : Prop :=
      runs i o (fun l => f (a l)) (fun l => fin (a l) && fin (iImm w))
    two (.vadd t w u) 0x10 fadd ∧ two (.vsub t w u) 0x11 fsub ∧ two (.vmul t w u) 0x12 fmul ∧
    three (.vfma t w u) 0x13 ffma ∧ three (.vfms t w u) 0x14 ffms ∧ three (.vfnma t w u) 0x15 ffnma ∧
    two (.vmin t w u) 0x16 fmin ∧ two (.vmax t w u) 0x17 fmax ∧
    one (.vabs t w u) 0x18 (fun x => x &&& 0x7FFFFFFF#32) ∧ one (.vneg t w u) 0x19 (fun x => x ^^^ 0x80000000#32) ∧
    imm (.vaddi t w u) 0x1A (fun x => fadd x (iImm w)) ∧ imm (.vmuli t w u) 0x1B (fun x => fmul x (iImm w)) ∧
    runs (.vfmai t w u) 0x1C (fun l => ffma (a l) (iImm w) (b l)) (fun l => fin (a l) && fin (b l) && fin (iImm w)) ∧
    two (.vdiv t w u) 0x20 fdiv ∧ one (.vsqrt t w u) 0x21 fsqrt ∧ one (.vrsqrt t w u) 0x22 frsqrt ∧
    one (.vrcp t w u) 0x23 (fdiv one32) ∧ one (.vexp t w u) 0x24 fexp ∧ one (.vexp2 t w u) 0x25 fexp2 ∧
    one (.vlog t w u) 0x26 flog ∧ one (.vlog2 t w u) 0x27 flog2 ∧ one (.vtanh t w u) 0x28 ftanh ∧
    one (.vsigm t w u) 0x29 fsigm ∧ one (.verf t w u) 0x2A ferf ∧ one (.vsin t w u) 0x2B fsin ∧
    one (.vcos t w u) 0x2C fcos

/-- Moves, integer and lane instructions (R117). The next instruction of the running block, if it is one of these, runs and
writes VD under the mask: VMOV, VIMM, VIOTA, VSEL, VIADD, VISUB, VIMUL, VAND, VOR, VXOR, VSHL, VSHR, VIADDI, VCVTIF, VCVTFI,
VPERM, VROT, VBCST. NOP runs and writes nothing. Shifts use the low five bits of b; VSHR is arithmetic when SUB[0] is 1. -/
def Obligations.VectorInteger : Prop :=
  ∀ (t : TileId) (w : Word) (u : List Upset) (s : State),
    let s0 := s.operands t w u
    let v := getVec s0 t
    let va := getV v (iVa w)
    let a (i : Fin 512) : Lane := va.get i
    let b (i : Fin 512) : Lane := (getV v (iVb w)).get i
    let at' (n : Nat) : Lane := va.get (Fin.ofNat 512 n)
    let runs (i : Instr) (o : Nat) (f : Fin 512 → Lane) : Prop :=
      s.NextInstr t w o → ∃ n v', exec i s = .next n ∧ VecStep s0 n t v' ∧ WroteV w f v v'
    (s.NextInstr t w 0x00 → ∃ n, exec (.nop t w u) s = .next n ∧ VecStep s0 n t v) ∧
    runs (.vmov t w u) 0x01 a ∧ runs (.vimm t w u) 0x02 (fun _ => iImm w) ∧
    runs (.viota t w u) 0x03 (fun l => iImm w + BitVec.ofNat 32 l.val) ∧
    runs (.vsel t w u) 0x04 (fun l => if (getM v (iVc w % 8)).getLsbD l.val then a l else b l) ∧
    runs (.viadd t w u) 0x30 (fun l => a l + b l) ∧ runs (.visub t w u) 0x31 (fun l => a l - b l) ∧
    runs (.vimul t w u) 0x32 (fun l => a l * b l) ∧ runs (.vand t w u) 0x33 (fun l => a l &&& b l) ∧
    runs (.vor t w u) 0x34 (fun l => a l ||| b l) ∧ runs (.vxor t w u) 0x35 (fun l => a l ^^^ b l) ∧
    runs (.vshl t w u) 0x36 (fun l => a l <<< ((b l).toNat % 32)) ∧
    runs (.vshr t w u) 0x37 (fun l =>
      if iSub w % 2 = 1 then (a l).sshiftRight ((b l).toNat % 32) else a l >>> ((b l).toNat % 32)) ∧
    runs (.viaddi t w u) 0x38 (fun l => a l + iImm w) ∧ runs (.vcvtif t w u) 0x39 (fun l => cvtIF (a l)) ∧
    runs (.vcvtfi t w u) 0x3A (fun l => cvtFI (a l)) ∧ runs (.vperm t w u) 0x52 (fun l => at' ((b l).toNat % 512)) ∧
    runs (.vrot t w u) 0x53 (fun l => at' ((l.val + (iImm w).toNat) % 512)) ∧
    runs (.vbcst t w u) 0x54 (fun _ => at' ((iImm w).toNat % 512))

/-- Mask instructions (R115 to R117, R119). The next instruction of the running block, if it is VCMP, VICMP, MOP or MLANE,
runs: bit l of mask VD becomes its comparison, mask operation or lane range where the instruction's own mask selects lane
l, and is kept or cleared elsewhere. MOP's SUB is 0 AND, 1 OR, 2 XOR, 3 AND-NOT (the block admits no other). M0 stays all
ones and no other register changes. -/
def Obligations.VectorMasks : Prop :=
  ∀ (t : TileId) (w : Word) (u : List Upset) (s : State),
    let s0 := s.operands t w u
    let v := getVec s0 t
    let a (l : Nat) : Lane := (getV v (iVa w)).get (Fin.ofNat 512 l)
    let b (l : Nat) : Lane := (getV v (iVb w)).get (Fin.ofNat 512 l)
    let ma := getM v (iVa w % 8)
    let mb := getM v (iVb w % 8)
    let runs (i : Instr) (o : Nat) (f : Nat → Bool) : Prop :=
      s.NextInstr t w o → ∃ n v', exec i s = .next n ∧ VecStep s0 n t v' ∧ WroteM w f v v'
    runs (.vcmp t w u) 0x40 (fun l => fcmp (iSub w) (a l) (b l)) ∧
    runs (.vicmp t w u) 0x41 (fun l => icmp (iSub w) (a l) (b l)) ∧
    (iSub w < 4 → runs (.mop t w u) 0x42 (fun l =>
      match iSub w with
      | 0 => ma.getLsbD l && mb.getLsbD l
      | 1 => ma.getLsbD l || mb.getLsbD l
      | 2 => ma.getLsbD l != mb.getLsbD l
      | _ => ma.getLsbD l && !mb.getLsbD l)) ∧
    runs (.mlane t w u) 0x43 (fun l => decide (fld (iImm w) 0 10 ≤ l ∧ l < fld (iImm w) 16 10))

/-- Reductions and exact registers (R53, R54, R117 to R120, R125). The next instruction of the running block, if it is one of
these, runs. VRMAX and VRMIN write every lane of a group with the maximum or minimum over the group; VSCAN writes the exact
prefix of the lane in its group, narrowed once; VLREC writes the recurrence, rounding at each step; the last two count
non-finite results of finite sources. XCLR, XADD, XMRG and XSUM write exact register VD: cleared, a added exactly, the
register a merged, or the merge over the group. XNAR writes VD with the exact register's value times IMM, narrowed to FP32,
leaves the exact register as it is, and marks SATURATED in the client's scope word where the SAT row decided a written
lane. -/
def Obligations.VectorExact : Prop :=
  ∀ (t : TileId) (w : Word) (u : List Upset) (s : State),
    let s0 := s.operands t w u
    let v := getVec s0 t
    let va := getV v (iVa w)
    let xa := getX v (iVa w % 8)
    let g := groupSize (iSub w)
    let across (f : Lane → Lane → Lane) (l : Fin 512) : Lane :=
      let j := l.val / g * g
      (List.range (g - 1)).foldl (fun m k => f m (laneAt va (j + k + 1))) (f (laneAt va j) (laneAt va j))
    let pre (l : Fin 512) : XReg := scanPrefix va (groupSize (iSub w % 8)) (bit w 41) l.val
    let rec' (l : Fin 512) : Lane × Bool :=
      nth (0, false) (lrecGroup va (getV v (iVb w)) (getV v (iVc w)) g (l.val / g)) (l.val % g)
    let vec (i : Instr) (o : Nat) (f : Fin 512 → Lane) : Prop :=
      s.NextInstr t w o → ∃ n v', exec i s = .next n ∧ VecStep s0 n t v' ∧ WroteV w f v v'
    let cnt (i : Instr) (o : Nat) (f : Fin 512 → Lane) (ok : Fin 512 → Bool) : Prop :=
      s.NextInstr t w o → ∃ n v', exec i s = .next n ∧ VecStep s0 n t v' ∧ WroteV w f v v' ∧
        CountedNf s0 n t (nfCount v w f ok)
    let ex (i : Instr) (o : Nat) (f : Fin 512 → XReg → XReg) : Prop :=
      s.NextInstr t w o → ∃ n v', exec i s = .next n ∧ VecStep s0 n t v' ∧ WroteX w f v v'
    let sat : Bool := (List.finRange 512).any fun l => (laneMask v w).getLsbD l.val &&
      ((xa.get l).value (f32 (iImm w)).toRat).isSat
    vec (.vrmax t w u) 0x50 (across fmax) ∧ vec (.vrmin t w u) 0x51 (across fmin) ∧
    cnt (.vscan t w u) 0x58 (fun l => (narrow32 ((pre l).value 1)).1) (fun l => !((pre l).nan || (pre l).pinf || (pre l).ninf)) ∧
    cnt (.vlrec t w u) 0x59 (fun l => (rec' l).1) (fun l => (rec' l).2) ∧
    ex (.xclr t w u) 0x70 (fun _ _ => {}) ∧
    ex (.xadd t w u) 0x71 (fun l r => r.add (f32 (va.get l))) ∧
    ex (.xmrg t w u) 0x72 (fun l r => r.merge (xa.get l)) ∧
    ex (.xsum t w u) 0x73 (fun l _ =>
      (List.range g).foldl (fun a k => a.merge ((getX v (iVd w % 8)).get (Fin.ofNat 512 (l.val / g * g + k)))) {}) ∧
    (s.NextInstr t w 0x74 → ∃ n v', exec (.xnar t w u) s = .next n ∧
      VecStep (if sat then setScope (clientOn s0 (tileDie t)) scSaturated s0 else s0) n t v' ∧
      WroteV w (fun l => (narrow32 ((xa.get l).value (f32 (iImm w)).toRat)).1) v v')

/-- Streams and the receive queue (R121 to R129). When the stream has its elements, VPOP writes each lane of VD with its
element widened to FP32, and XPOPN adds it exactly to exact register VD without its tensor scale; the stream moves on
past what was taken. When the stream can take them, VPUSH and XPUSH hand their lanes over (a lane outside the mask as +0):
the destination's descriptor grows by those values in its format, drawing once if it rounds stochastically, and no
vector, mask or exact register changes. When its queue's head slot is of its
kind, VRECV writes VD with the slot's values and XRECV adds them to exact register VD, and the slot is released. -/
def Obligations.VectorStreams : Prop :=
  ∀ (t : TileId) (w : Word) (u : List Upset) (s : State),
    let s0 := s.operands t w u
    let v := getVec s0 t
    (∀ codes scales d x bytes, takeLanes (getStr s0 t) (iVa w) = .ok codes scales d x bytes →
      let s1 := consumerViol d.hdie d.ent.stat (countOut d.fmt scales) (delivered t x bytes s0)
      (s.NextInstr t w 0x60 → ∃ n v', exec (.vpop t w u) s = .next n ∧ VecStep s1 n t v' ∧
        WroteV w (fun l => (popLane codes scales d l.val).1) v v' ∧ getStr n t = x) ∧
      (s.NextInstr t w 0x62 → ∃ n v', exec (.xpopn t w u) s = .next n ∧ VecStep s1 n t v' ∧
        WroteX w (fun l r => r.add (xpopLane codes scales d l.val)) v v' ∧ getStr n t = x)) ∧
    (∀ q d segs, planPush (getStr s0 t) (iVb w) 512 = .ok q d segs →
      let m := laneMask v w
      let pushed (i : Instr) (offs : VReg) (vals : Fin 512 → DVal) : Prop := ∃ n, exec i s = .next n ∧
        getTile n t = { getTile s0 t with
          str := putDesc (getStr s0 t) (iVb w) q (pushAll d segs (pushOut s0 t offs vals d segs)),
          vec := { v with block := v.block.map advancePc,
                          ctx := if d.fmt.rnd then { v.ctx with d := (v.ctx.d + 1) % 16384 } else v.ctx } } ∧
        (∀ y : TileId, y ≠ t → getTile n y = getTile s0 y) ∧
        n = { s0.accounts n with tiles := n.tiles, clients := n.clients }
      (s.NextInstr t w 0x61 → pushed (.vpush t w u) (getV v (iVc w))
        (fun l => if m.getLsbD l.val then DVal.ofF (f32 ((getV v (iVa w)).get l)) else .num false 0)) ∧
      (s.NextInstr t w 0x75 → pushed (.xpush t w u) (getV v (iVd w))
        (fun l => if m.getLsbD l.val then ((getX v (iVa w % 8)).get l).value (f32 (iImm w)).toRat else .num false 0))) ∧
    (∀ q rest, v.queue = q :: rest →
      (s.NextInstr t w 0x68 → q.exact = false → ∃ n v', exec (.vrecv t w u) s = .next n ∧ VecStep s0 n t v' ∧
        WroteV w (fun l => nth 0 q.f l.val) { v with queue := rest } v') ∧
      (s.NextInstr t w 0x69 → q.exact = true → ∃ n v', exec (.xrecv t w u) s = .next n ∧ VecStep s0 n t v' ∧
        WroteX w (fun l r => r.addAcc (nth {} q.x l.val)) { v with queue := rest } v'))

/-- Draws (R130 to R132). The next instruction of the running block, if it is VRAND, VRUNI or VRKEEP, runs: lane l gets the draw
of its counter, the draw as (draw >> 8) x 2^-24 in FP32, or mask bit l is 1 when the draw is at least IMM; then the draw
number has moved on by one modulo 16,384 and the counter of drawing instructions by one, and the wrap sets DRAW_WRAP. RCTX
sets one field of the draw context and the draw number to 0. -/
def Obligations.VectorDraws : Prop :=
  ∀ (t : TileId) (w : Word) (u : List Upset) (s : State),
    let s0 := s.operands t w u
    let v := getVec s0 t
    let draw := drawLanes s0 t (getV v (iVa w))
    let next : VecS := { v with ctx := { v.ctx with d := (v.ctx.d + 1) % 16384 } }
    let c := { v.ctx with d := 0 }
    let x := (iImm w).toNat
    let set : DrawCtx :=
      if iVd w % 8 = 0 then { c with mb := x % 2 ^ 12 }
      else if iVd w % 8 = 1 then { c with layer := x % 2 ^ 16 }
      else if iVd w % 8 = 2 then { c with tensor := x % 2 ^ 8 }
      else if iVd w % 8 = 3 then { c with base := c.base / 2 ^ 32 * 2 ^ 32 + x }
      else { c with base := c.base % 2 ^ 32 + x % 2 ^ 16 * 2 ^ 32 }
    let drew (n : State) : Prop := getReg n (vecBlk t 0x020) = stickyAdd 64 (getReg s0 (vecBlk t 0x020)) 1 ∧
      getReg n (vecBlk t 0x000) = getReg s0 (vecBlk t 0x000) ||| (if v.ctx.d = 16383 then 4 else 0)
    (s.NextInstr t w 0x80 → ∃ n v', exec (.vrand t w u) s = .next n ∧ VecStep s0 n t v' ∧ drew n ∧
      WroteV w (fun l => BitVec.ofNat 32 (draw l)) next v') ∧
    (s.NextInstr t w 0x81 → ∃ n v', exec (.vruni t w u) s = .next n ∧ VecStep s0 n t v' ∧ drew n ∧
      WroteV w (fun l => toF32 false (((draw l / 256 : Nat) : Rat) * pow2 (-24))) next v') ∧
    (s.NextInstr t w 0x82 → ∃ n v', exec (.vrkeep t w u) s = .next n ∧ VecStep s0 n t v' ∧ drew n ∧
      WroteM w (fun l => decide ((iImm w).toNat ≤ draw (Fin.ofNat 512 l))) next v') ∧
    (s.NextInstr t w 0x88 → iVd w % 8 < 5 → ∃ n, exec (.rctx t w u) s = .next n ∧ VecStep s0 n t { v with ctx := set })

/-- Vector blocks (R111 to R114, R126). A VBLOCK that issues and is not reserved starts its instructions with the draw number at
0; its command is in progress. REP n, k puts the engine at the first of the next n instructions, to run them k times. XBIND
lends the register to an armed, unbound reduce context of the client, which records the tile and the register and becomes
bound, and then takes what was held for it; XFREE releases the register of a completed context. A block whose instructions
have all run completes: the engine is free and the command's output tokens are posted. -/
def Obligations.VectorBlocks : Prop :=
  ∀ (t : TileId) (w : Word) (u : List Upset) (c : PCmd) (s : State),
    let s0 := s.operands t w u
    let v := getVec s0 t
    let d := tileDie t
    let r := iVd w % 8
    (s.Issues (.vector t) c → (s.issuedCmd (.vector t) c).bad = false → ∃ n, exec (.vblock t c) s = .next n ∧
      getTile n t = { getTile s t with vec := { getVec s t with
        block := some { id := s.plates.nextId, instrs := c.body.drop 1 }, ctx := { (getVec s t).ctx with d := 0 } } } ∧
      (∀ y : TileId, y ≠ t → getTile n y = getTile s y) ∧
      findFlight n s.plates.nextId = some (s.flight (.vector t) c) ∧
      n = { s.accounts n with tiles := n.tiles, plates := n.plates }) ∧
    (∀ b, (getVec s t).block = some b → s.NextInstr t w 0xF0 → ∃ n, exec (.rep t w u) s = .next n ∧
      getTile n t = { getTile s0 t with vec := { v with
        block := some { b with pc := b.pc + 1, rep := some { start := b.pc + 1, n := repN w, left := repK w } } } } ∧
      (∀ y : TileId, y ≠ t → getTile n y = getTile s0 y) ∧ n = { s0.accounts n with tiles := n.tiles }) ∧
    (let k := ctxKey d (fld (iImm w) 0 16)
     let x := getCtx s0 k
     s.NextInstr t w 0x76 → x.state = 1 → x.reduce = true → x.bound = false → x.client = clientOn s0 d →
      exec (.xbind t w u) s = .next (charge (.vector t) 0x00 (retire t (pumpSends (pumpHeld (Fin.ofNat 4 d)
        (setCtx k { x with w0 := setFld (setFld x.w0 0 3 2) 27 1 1, w3 := setFld (setFld x.w3 24 4 (t.val % 16)) 28 3 r }
          (setVec t { v with bind := mset 0 v.bind r (k + 1) } s0))))))) ∧
    (∀ k, s.NextInstr t w 0x77 → v.skips.contains r = false → mget 0 v.bind r = k + 1 → (getCtx s0 k).state = 3 →
      ∃ n, exec (.xfree t w u) s = .next n ∧ getCtx n k = { getCtx s0 k with w0 := setFld (getCtx s0 k).w0 27 1 0 } ∧
        (∀ j, j ≠ k → getCtx n j = getCtx s0 j) ∧
        getTile n t = { getTile s0 t with
          vec := { v with bind := mset 0 v.bind r 0, block := v.block.map advancePc } } ∧
        (∀ y : TileId, y ≠ t → getTile n y = getTile s0 y) ∧
        n = { s0.accounts n with tiles := n.tiles, fabric := n.fabric }) ∧
    (∀ b, (getVec s t).block = some b → b.instrs.length ≤ b.pc → ∃ n, exec (.vblockComplete t) s = .next n ∧
      getTile n t = { getTile s t with vec := { getVec s t with block := none } } ∧
      (∀ y : TileId, y ≠ t → getTile n y = getTile s y) ∧ Completed s n b.id ∧
      n = { s with tiles := n.tiles, plates := n.plates })

/-- Every command that a plate carries, on every engine. Where an input token is missing it waits: the engine's cycle is charged
to code 0x01 and nothing else changes (R226, R236). While its client's step is aborted it waits with code 0x1D (R229). Where
its header is itself reserved and its turn has come, it is refused: an illegal-encoding event, the ILLEGAL bit of the
engine's plate status, no token taken or posted, nothing in progress (R5, R222). -/
def Obligations.PlateCommandsWait : Prop :=
  ∀ (i : Instr) (e : Eng) (c : PCmd) (s : State), plateCmd i = some (e, c) →
    (getClient s (clientOn s (engDie e))).state ≠ 4 →
    (aborted s (clientOn s (engDie e)) = true → exec i s = .next (charge e 0x1D s)) ∧
    (aborted s (clientOn s (engDie e)) = false → hdrReserved e c = false → tokensReady s e c = false →
      exec i s = .next (charge e 0x01 s)) ∧
    (aborted s (clientOn s (engDie e)) = false → hdrReserved e c = true → (locate s e c).1 = [] →
      orderOk s e [] (locate s e c).2.1 = true → fenceOk s e [] (locate s e c).2.1 = true →
      gateOf s (clientOn s (engDie e)) e (locate s e c).2.1.off ≠ .wait → ∃ n, exec i s = .next n ∧
        bit (getReg n (plateStatus e)) 4 = true ∧ (∃ d, (post 0x0201 (clientOn s (engDie e)) d s).host.posted <+: n.host.posted) ∧
        n.plates.tokens = s.plates.tokens ∧ n.plates.posts = s.plates.posts ∧ n.plates.flights = s.plates.flights ∧
        n = { s.accounts n with plates := n.plates })

/-- Issue and completion of plate commands (R223, R224, R226). A command that issues leaves every token register of its engine's
file less what the command's references to it add up to, and every other register as it is; it is in progress under a number
of its own, and its own effect is applied to that state, with one busy cycle charged. A command that completes is in progress
no longer, and its output tokens are on their way, unless its client's step has been aborted (R229). -/
def Obligations.PlateIssueAndCompletion : Prop :=
  (∀ (e : Eng) (c : PCmd) (s : State), s.Issues e c → ∃ s1 w,
    (∀ k, withIssue none e c s k = charge e 0x00 (k s1 w s.plates.nextId)) ∧ w.cmd = c ∧
    findFlight s1 s.plates.nextId = some { id := s.plates.nextId, eng := e, client := clientOn s (engDie e), win := w } ∧
    (∀ d f r : Nat, f < 17 → r < 256 → tokens s1 d f r =
      tokens s d f r - (if d = engDie e ∧ f = ownFile e then needOf c r else 0)) ∧
    s1 = { s with plates := s1.plates }) ∧
  (∀ (id : Nat) (s : State), Completed s (complete id s) id ∧ complete id s = { s with plates := (complete id s).plates })

/-- How plates feed the windows. PLATE_FETCH delivers the next line of the plate: eight words, or those up to PLEN, from the
tile's cache where it holds the line and from memory otherwise (R221, R231). CATALOG_CACHE_FILL brings in an entry that is
not cached (R232). WINDOW_ENTRY puts the next command in the window, with its entries read, where a place is free, its words
are delivered and its entries cached (R226); with eight commands in the window nothing happens. TOKEN_ARRIVE adds a
post to its register; a sum above 65,535 saturates and raises a token-overflow fault (R225). TOKEN_WATCHDOG_FIRE raises the
token-deadlock fault where every engine of the die is stuck and one at least waits for tokens (R228). -/
def Obligations.PlateFeed : Prop :=
  (∀ (e : Eng) (s : State), (getEng s e).running = true → (getEng s e).ended = false →
    (getEng s e).fetched < (plateOf s e).2 → (getEng s e).words.length + 8 ≤ 128 →
    let g := getEng s e
    let a := (plateOf s e).1 + 8 * g.fetched
    let k := min 8 ((plateOf s e).2 - g.fetched)
    let mem := wordsOf 8 ((List.range 64).map fun i => (s.peek (a + i)).1)
    let ws := ((engTile e).bind fun t => cachedWords s t.val (a / 64)).getD mem
    ∃ n, exec (.plateFetch e) s = .next n ∧
      getEng n e = { g with words := g.words ++ ws.take k, fetched := g.fetched + k } ∧
      (∀ f, f ≠ e → getEng n f = getEng s f) ∧ (∀ x, n.peek x = s.peek x) ∧
      Only (.plates :: .mem :: .banks :: .clients :: .wear :: .served :: accountParts) s n) ∧
  (∀ (t : TileId) (name : Nat) (s : State), ∃ n, exec (.catalogCacheFill t name) s = .next n ∧
    nameCached n t.val name = true ∧ (nameCached s t.val name = true → n = s) ∧
    (∀ k, k ≠ name % 256 → mget [] (getCaches n t.val).names k = mget [] (getCaches s t.val).names k) ∧
    (nameCached s t.val name = false → getDict n (dkey 0x4040 0x06) = getDict (bumpDict (dkey 0x4040 0x06) 1 s) (dkey 0x4040 0x06)) ∧
    Only [.plates, .dict, .sat, .host, .logs] s n) ∧
  (∀ (e : Eng) (s : State) (c : PCmd) (k : Nat), (getEng s e).running = true →
    aborted s (clientOn s (engDie e)) = false → (getEng s e).ended = false → (getEng s e).win.length < 8 →
    nextCmd e (getEng s e).words ((plateOf s e).2 - (getEng s e).entered) = some (c, k, false) →
    (∀ t, engTile e = some t → ∀ x ∈ namesOf e c, nameCached s t.val x = true) →
    ∃ n w, exec (.windowEntry e) s = .next n ∧ w.cmd = c ∧ w.off = (getEng s e).entered ∧ w.ix = (getEng s e).nextIx ∧
      w.names = captureNames s (namesOf e c) ∧
      getEng n e = { getEng s e with
        win := (getEng s e).win ++ [w], words := (getEng s e).words.drop k,
        entered := (getEng s e).entered + k, nextIx := (getEng s e).nextIx + 1,
        ended := decide ((plateOf s e).2 ≤ (getEng s e).entered + k),
        bank := nextBank (getEng s e).bank c, xbound := entryBound e (getEng s e).xbound c } ∧
      (∀ f, f ≠ e → getEng n f = getEng s f) ∧ Only [.plates] s n) ∧
  (∀ (e : Eng) (s : State), (getEng s e).ended = false → 8 ≤ (getEng s e).win.length → exec (.windowEntry e) s = .next s) ∧
  (∀ (k : Nat) (p : Post) (s : State), s.plates.posts[k]? = some p → p.file < 17 → p.reg < 256 →
    let sum := tokens s p.die.val p.file p.reg + p.count
    ∃ n, exec (.tokenArrive k) s = .next n ∧ n.plates.posts = s.plates.posts.eraseIdx k ∧
      (∀ d f r, f < 17 → r < 256 → tokens n d f r =
        if d = p.die.val ∧ f = p.file ∧ r = p.reg then min sum 65535 else tokens s d f r) ∧
      (sum ≤ 65535 → Only [.plates] s n) ∧
      (65535 < sum → ∃ y, Only (.plates :: accountParts) s y ∧
        Raised y n 0x0305 p.client (tokenDetail p.eng p.file p.reg))) ∧
  (∀ (d : DieId) (c : ClientId) (e : Eng) (s : State), clientOn s d.val = c.val → watchdogHeld s d.val c.val = false →
    (∀ f ∈ enginesOf d.val, tokenStuck s f = true) →
    ((enginesOf d.val).filter fun f => (lacks s f).isSome).head? = some e →
    ∃ n y, exec (.tokenWatchdogFire d c) s = .next n ∧ Only accountParts s y ∧
      Raised y n 0x0306 c.val (tokenDetail e (ownFile e) ((lacks s e).getD 0)))

/-- The sequencer's commands, from the state s1 of their issue (R233, R234). SNOP completes. SEVENT posts the program event with
its code and tile, and completes. STOK completes and posts ADD to its register; ADD = 0 or a file above 16 is refused.
SCAT writes its record to the Catalog on its client's path: a direct write that passes the checks changes its entry alone
and the command completes, or waits in closing where it narrows a window with writes in flight; a staged one is staged; a refused
one raises the sequencer fault with FCODE 3 and the reason, and its command is discarded without tokens. SFOP runs its Folio
operation; one whose ring slots do not let it run stays to be reissued; a reserved one is refused. SFOP_RETRY reissues an
operation that stays. -/
def Obligations.SequencerCommands : Prop :=
  ∀ (t : TileId) (c : PCmd) (s : State),
    let e : Eng := .seq t
    let s1 := s.issued e c
    let id := s.plates.nextId
    let cl := clientOn s (tileDie t)
    let d : DieId := Fin.ofNat 4 (tileDie t)
    let r := scatRec c
    let name := d.val * 4096 + r.handle
    let new := r.result (getEnt s name)
    let narrow := r.win = true ∧ narrows (getEnt s name) new = true ∧ mget 0 s.cat.accepted name ≠ 0
    let skip := r.stage = true ∧ r.undef = true ∧ (mget {} (applyStaged s.cat.ents s.cat.staging) name).kind = 0
    let mine := applyStaged s.cat.ents (s.cat.staging.filter fun x => decide (x.owner = stageOwner s d.val r))
    let q := sfopRec c
    let de := getEnt s (d.val * 4096 + fopDh q)
    (s.Issues e c →
      (∃ n, exec (.snop t c) s = .next n ∧ Completed s1 n id ∧ Only (.plates :: accountParts) s n) ∧
      (∃ n, exec (.sevent t c) s = .next n ∧ Completed s1 n id ∧
        (post 0x0003 cl (fld (c.w 0) 0 32 + 2 ^ 32 * t.val) s).host.posted <+: n.host.posted ∧
        Only (.plates :: accountParts) s n) ∧
      (fld (c.w 0) 16 16 ≠ 0 → fld (c.w 0) 8 5 < 17 → ∃ n m, exec (.stok t c) s = .next n ∧ Completed s1 m id ∧
        n.plates = { m.plates with
          posts := m.plates.posts ++ [{ die := d, file := fld (c.w 0) 8 5, reg := fld (c.w 0) 0 8,
                                        count := fld (c.w 0) 16 16, eng := e, client := cl }] } ∧ Only (.plates :: accountParts) s n) ∧
      (fld (c.w 0) 16 16 = 0 ∨ 17 ≤ fld (c.w 0) 8 5 → ∃ n, exec (.stok t c) s = .next n ∧ RefusedCmd s n e c) ∧
      (r.stage = false → catReason s1 (some cl) d.val r s.cat.ents = none → ∃ n m, exec (.scat t c) s = .next n ∧
        getEnt n name = new ∧ (∀ k, k ≠ name → getEnt n k = getEnt s k) ∧ Only [.cat, .plates, .mem] s1 m ∧
        m.plates.flights = s1.plates.flights ∧ m.plates.posts = s1.plates.posts ∧
        (¬ narrow → Completed m n id ∧ Only (.plates :: accountParts) m n) ∧
        (narrow → n.cat.closing = s.cat.closing ++ [{ name := name, agent := none, id := id }] ∧
          findFlight n id = some (s.flight e c) ∧ Only (.cat :: accountParts) m n)) ∧
      (r.stage = true → ¬ skip → catReason s1 (some cl) d.val r mine = none → ∃ n, exec (.scat t c) s = .next n ∧
        n.cat = { s.cat with staging := s.cat.staging ++
          [{ die := d, owner := stageOwner s d.val r, ctl := r.ctl, ent := r.result (mget {} mine name) }] } ∧
        Completed s1 n id ∧ Only (.cat :: .plates :: accountParts) s n) ∧
      (∀ k, ¬ skip → catReason s1 (some cl) d.val r (if r.stage then mine else s.cat.ents) = some k →
        ∃ n y z, exec (.scat t c) s = .next n ∧ findFlight n id = none ∧ n.plates.posts = s1.plates.posts ∧ n.cat = s.cat ∧
          Only (.plates :: .clients :: accountParts) s1 y ∧
          Raised y z 0x0307 cl (t.val + 2 ^ 6 * 3 + 2 ^ 9 * k) ∧ n = z.accounts n) ∧
      (fopReserved (some cl) d q s = false → FopReady s d q → de.placed →
        (∀ o, o < de.len → s.storable (addrOf de d.val o) = true) →
        ∃ n, exec (.sfop t c) s = .next n ∧ SfopEnd s1 n t id (c.w 0) q) ∧
      (fopReserved (some cl) d q s = false → ¬ FopReady s d q → ∃ n, exec (.sfop t c) s = .next n ∧
        findFlight n id = some (s.flight e c) ∧ (∃ j ∈ (getTile n t).sfops, j.id = id) ∧
        Only (.tiles :: accountParts) s1 n) ∧
      (fopReserved (some cl) d q s = true → ∃ n, exec (.sfop t c) s = .next n ∧ Completed s1 n id ∧
        bit (getReg n (pltBlk t 0x400)) 4 = true ∧ Only (.tiles :: .plates :: accountParts) s1 n)) ∧
    (∀ (k : Nat) (j : SfopWait), (getTile s t).sfops[k]? = some j →
      let e := getEnt s (d.val * 4096 + fopDh j.op)
      fopReserved (some cl) d j.op s = false → FopReady s d j.op → e.placed →
        (∀ o, o < e.len → s.storable (addrOf e d.val o) = true) →
        ∃ n, exec (.sfopRetry t k) s = .next n ∧ SfopEnd s n t j.id j.w0 j.op)

/-- The array's commands, from the state s1 of their issue. BANK_SWAP and MODE_SET complete; MODE_SET applies its modes (R90,
R95). A LOAD_STAT with lines and lengths of 1 to 256 queues its load, and a load to be consumed counts as credit (R91). A PASS
that passes the checks of its issue queues, takes a credit where it uses a new tile, and starts the wake of the units it needs
(R93, R101). A DRAIN that passes its checks queues (R94). A reserved MODE_SET or DRAIN, and a LOAD_STAT without lines, is
refused; a LOAD_STAT or PASS that is reserved otherwise posts the event and stays in progress to take its lines or rows
(R458), but for a PASS that takes neither rows of a stream nor a tile, which completes. -/
def Obligations.ArrayCommands : Prop :=
  ∀ (t : TileId) (c : PCmd) (s : State),
    let e : Eng := .array t
    let s1 := s.issued e c
    let id := s.plates.nextId
    let cl := clientOn s (tileDie t)
    let a := getArr s t
    let lj := loadJob c id
    let pj := passJob t c (s.issuedCmd e c) id s1
    let dj := drainJob t c (s.issuedCmd e c) id s1
    let a1 := if pj.takes then { a with credit := a.credit - 1 } else a
    let left (n : State) (x : ArrayS) : Prop := getTile n t = { getTile s t with arr := x } ∧
      (∀ u : TileId, u ≠ t → getTile n u = getTile s u) ∧ Only (.tiles :: .plates :: accountParts) s n
    let runs (n : State) : Prop := n.plates = s1.plates ∧ findFlight n id = some (s.flight e c)
    let noted (n : State) : Prop := bit (getReg n (pltBlk t 0x400)) 4 = true ∧
      (post 0x0201 cl (illegalDetail e (s.issuedCmd e c)) s).host.posted <+: n.host.posted
    s.Issues e c →
    (∃ n, exec (.bankSwap t c) s = .next n ∧ Completed s1 n id ∧ Only (.plates :: accountParts) s n) ∧
    (¬ (bit (c.w 0) 2 = true ∧ fld (c.w 0) 20 16 = 0) → ∃ n, exec (.modeSet t c) s = .next n ∧
      left n (setModes (c.w 0) a) ∧ Completed s1 n id) ∧
    (bit (c.w 0) 2 = true ∧ fld (c.w 0) 20 16 = 0 → ∃ n, exec (.modeSet t c) s = .next n ∧ RefusedCmd s n e c) ∧
    (1 ≤ lj.lines → lj.lines ≤ 256 → 1 ≤ lj.llen → lj.llen ≤ 256 → ∃ n, exec (.loadStat t c) s = .next n ∧ runs n ∧
      left n (startWake (loadDims lj).1 (loadDims lj).2 { a with loads := a.loads ++ [lj], credit := a.credit + 1 })) ∧
    (lj.lines = 0 → ∃ n, exec (.loadStat t c) s = .next n ∧ RefusedCmd s n e c) ∧
    (1 ≤ lj.lines → ¬ (lj.lines ≤ 256 ∧ 1 ≤ lj.llen ∧ lj.llen ≤ 256) → ∃ n, exec (.loadStat t c) s = .next n ∧ runs n ∧
      left n { a with loads := a.loads ++ [{ lj with bad := true }], credit := a.credit + 1 } ∧ noted n) ∧
    (passReserved cl a pj = false → ∃ n, exec (.pass t c) s = .next n ∧ runs n ∧ left n (queuePass pj a)) ∧
    (passReserved cl a pj = true → ¬ ((pj.gather = true ∨ pj.m = 0) ∧ pj.takes = false) → ∃ n, exec (.pass t c) s = .next n ∧
      runs n ∧ left n { a1 with passes := a.passes ++ [{ pj with bad := true }] } ∧ noted n) ∧
    (passReserved cl a pj = true → (pj.gather = true ∨ pj.m = 0) ∧ pj.takes = false → ∃ n, exec (.pass t c) s = .next n ∧
      Completed s1 n id ∧ left n a ∧ noted n) ∧
    (drainBad cl (entryOf s1 (s.issuedCmd e c) (tileDie t * 4096 + specHandle (c.w 1))) dj = false →
      ∃ n, exec (.drain t c) s = .next n ∧ runs n ∧ left n { a with drains := a.drains ++ [dj] }) ∧
    (drainBad cl (entryOf s1 (s.issuedCmd e c) (tileDie t * 4096 + specHandle (c.w 1))) dj = true →
      ∃ n, exec (.drain t c) s = .next n ∧ RefusedCmd s n e c)

/-- The array's streaming side. LOAD_LINE_ENTRY takes the next line of the oldest load; with its last line the tile is pending
and the load completes (R60, R65, R66); while a pending tile is there it waits. PASS_ROW_ENTRY takes the next row of the head
pass, from its stream or from the ring slot of its batch: each column's exact sum is added to the entry of its place, or
written to it, or added to the partials in memory by a Vellum pass (R59, R73, R74, R76, R83, R102); a pass whose
first row this is has its tile active and its bank prepared before; the pass completes with its last row unless automatic
drains follow. GATHER_BATCH_LAUNCH takes up to 256 FULL slots, in slot order, for the head pass's next batch, and counts it
(R103). -/
def Obligations.ArrayRows : Prop :=
  ∀ (t : TileId) (s : State),
    let a := getArr s t
    let parts := .mem :: .banks :: .wear :: .served :: .cat :: .tiles :: .plates :: .clients :: accountParts
    (∀ j rest codes scales d x bytes, a.loads = j :: rest → a.pend = none → a.pendBad = false →
      takeRecord (getStr s t) j.lstr j.lscl = .ok codes scales d x bytes →
      let j1 := takeLine j (j.bad || loadLate j d) d codes scales
      ∃ n, exec (.loadLineEntry t) s = .next n ∧ getTile n t = { getTile s t with str := x, arr := putLine j1 rest d a } ∧
        (∀ u : TileId, u ≠ t → getTile n u = getTile s u) ∧
        (if j1.count < j.lines then n.plates = s.plates else Completed s n j.id) ∧
        Only (.tiles :: .plates :: .clients :: accountParts) s n) ∧
    (a.loads ≠ [] → a.pend.isSome = true ∨ a.pendBad = true →
      exec (.loadLineEntry t) s = .next (charge (.array t) 0x06 s)) ∧
    (∀ j rest us codes scales d x bytes w, a.passes = j :: rest → j.bad = false → j.row ≠ j.m → j.gather = false →
      takeRecord (getStr s t) j.xstr j.xscl = .ok codes scales d x bytes →
      passStart (inProof s) a j d.fmt d.ent.tscale = .go w →
      ¬ (j.started = true ∧ j.drains = true ∧ bankDraining a (rowPlace j).1 j.id = true) →
      ∃ n arr, exec (.passRowEntry t us) s = .next n ∧
        RowDone s n (beginPass a j d.fmt d.ent.tscale w) arr j w d.fmt d.ent.tscale ⟨codes, scales⟩ us ∧
        getTile n t = { getTile s t with
          str := x, arr := { arr with passes := if passOver (nextRow j 0) then rest else nextRow j 0 :: rest } } ∧
        (∀ u : TileId, u ≠ t → getTile n u = getTile s u) ∧
        (if passOver (nextRow j 0) then Completed s n j.id else n.plates = s.plates) ∧ Only parts s n) ∧
    (∀ j rest us name buf slot slots w, a.passes = j :: rest → j.bad = false → j.row ≠ j.m → j.gather = true →
      j.ring = some (name, buf) → j.slots = slot :: slots → a.active = some w →
      let row := gatherRow (clientOn s (tileDie t)) name buf slot w.k s
      ∃ n arr, exec (.passRowEntry t us) s = .next n ∧
        RowDone s n a arr j w buf.fmtD buf.tscale ⟨row.2.1, row.2.2.1⟩ us ∧
        getTile n t = { getTile s t with
          arr := { arr with passes := if passOver (nextRow j row.1) then rest else nextRow j row.1 :: rest } } ∧
        (∀ u : TileId, u ≠ t → getTile n u = getTile s u) ∧ slotFull n name slot = false ∧
        (if passOver (nextRow j row.1) then Completed s n j.id else n.plates = s.plates) ∧ Only parts s n) ∧
    (∀ timer j rest name buf w, a.passes = j :: rest → j.gather = true → j.bad = false → j.row ≠ j.m → j.slots = [] →
      j.ring = some (name, buf) → passStart (inProof s) a j buf.fmtD buf.tscale = .go w →
      bankDraining a (j.batch % 2) j.id = false →
      let full := fullSlots s name buf
      full ≠ [] → 256 ≤ full.length ∨ j.m - j.row ≤ full.length ∨ a.gdeadline ≤ timer →
      ∃ n, exec (.gatherBatchLaunch t timer) s = .next n ∧ getTile n t = { getTile s t with
          arr := { beginPass a j buf.fmtD buf.tscale w with
            passes := { j with started := true, slots := full.take (min (min full.length 256) (j.m - j.row)), done := 0,
                               tags := [] } :: rest } } ∧
        (∀ u : TileId, u ≠ t → getTile n u = getTile s u) ∧
        getReg n (arrBlk t 0x028) = stickyAdd 64 (getReg s (arrBlk t 0x028)) 1 ∧ Only (.tiles :: accountParts) s n)

/-- Writes to the Catalog through an agent's port (R170, R171, R175, R181, R335): the control word says what is written, by
the row. A write that passes the checks of R171 and is not staged takes effect at once on its handle's entry and no other,
with every slot of a ring whose slots it changes EMPTY (R172), and its result reads 1, or 0 while a closed or narrowed
window has writes to complete. A staged one waits in staging. A refused one changes no entry: its result reads 0x100 plus
the reason, and its event is posted. While the port waits for a closing write, a record is discarded with an address error.
WINDOW_CLOSE_COMPLETE makes those results final (R181). CATALOG_COMMIT queues the commit of a client's staged writes for its
tick, or for the next one where that has passed (R175, R176); CATALOG_DISCARD empties staging. -/
def Obligations.CatalogWrites : Prop :=
  (∀ (d : DieId) (a : Agent) (r r' : CatRec) (s : State) (i : Instr),
    (i, r') ∈ [(.catalogWrite d a r, { r with ctl := r.ctl &&& 0xFFF }),
      (.catalogWriteStaged d a r, { r with ctl := (r.ctl &&& 0x6FFF) ||| 0x1000 }),
      (.catalogWriteWindow d a r, { r with ctl := (r.ctl &&& 0x1FFF) ||| 0x2000 }),
      (.catalogWriteUndef d a r, { r with ctl := (r.ctl &&& 0x1FFF) ||| 0x4000 })] →
    let name := d.val * 4096 + r'.handle
    let res := catPort d.val (agentPort a) 0x48
    let mine := applyStaged s.cat.ents (s.cat.staging.filter fun x => decide (x.owner = stageOwner s d.val r'))
    let cur := getEnt s name
    let new := r'.result cur
    (catBusy s d a = true → ∃ n, exec i s = .next n ∧ Posted s n 0x0204 16 (catPort d.val (agentPort a) 0x40)) ∧
    (catBusy s d a = false → r'.stage = false → catReason s none d.val r' s.cat.ents = none →
      ∃ n, exec i s = .next n ∧ getEnt n name = new ∧ (∀ k, k ≠ name → getEnt n k = getEnt s k) ∧
        (cur.kind = 0 ∨ new.kind = 0 ∨ cur.slots ≠ new.slots ∨ cur.slotu ≠ new.slotu →
          ∀ j, j < 4096 → slotFull n name j = false) ∧
        (∀ k j, j < 4096 → k ≠ name → slotFull n k j = slotFull s k j) ∧
        getReg n res = (if r'.win && narrows cur new && decide (mget 0 s.cat.accepted name ≠ 0) then 0 else 1) ∧
        (∀ x, n.peek x = s.peek x) ∧ Only [.cat, .plates, .mem, .regs] s n) ∧
    (catBusy s d a = false → r'.stage = true →
      ¬ (r'.undef = true ∧ (mget {} (applyStaged s.cat.ents s.cat.staging) name).kind = 0) →
      catReason s none d.val r' mine = none →
      ∃ n, exec i s = .next n ∧ n.cat = { s.cat with staging := s.cat.staging ++
          [{ die := d, owner := stageOwner s d.val r', ctl := r'.ctl, ent := r'.result (mget {} mine name) }] } ∧
        getReg n res = 1 ∧ Only [.cat, .regs] s n) ∧
    (∀ k, catBusy s d a = false → ¬ (r'.stage = true ∧ r'.undef = true ∧
        (mget {} (applyStaged s.cat.ents s.cat.staging) name).kind = 0) →
      catReason s none d.val r' (if r'.stage then mine else s.cat.ents) = some k →
      ∃ n y, exec i s = .next n ∧ n = setReg res (BitVec.ofNat 64 (0x100 + k)) y ∧ y.cat = s.cat ∧
        ∃ z, Only [.clients, .dict, .sat, .host, .logs] s z ∧ y = post 0x0202 16 (d.val + 4 * r'.handle + 2 ^ 14 * k) z)) ∧
  (∀ (d : DieId) (h : Nat) (s : State), let name := d.val * 4096 + h % 4096
    (mget 0 s.cat.accepted name ≠ 0 → exec (.windowCloseComplete d h) s = .next s) ∧
    (mget 0 s.cat.accepted name = 0 → ∃ n, exec (.windowCloseComplete d h) s = .next n ∧
      n.cat = { s.cat with closing := s.cat.closing.filter fun x => decide (x.name ≠ name) } ∧
      (∀ x ∈ s.cat.closing, x.name = name → ∀ a, x.agent = some a → getReg n (catPort d.val (agentPort a) 0x48) = 1) ∧
      (∀ x ∈ s.cat.closing, x.name = name → x.agent = none → findFlight n x.id = none) ∧
      Only [.cat, .regs, .plates] s n)) ∧
  (∀ (d : DieId) (c : ClientId) (tick : Nat) (s : State),
    let late := decide (tick ≤ planTick s c.val) && ((getClient s c.val).run.map (runBegun s)).getD true
    ∃ n, exec (.catalogCommit d c tick) s = .next n ∧ n.cat = { s.cat with commits := s.cat.commits ++
        [{ die := d, client := c.val, tick := if late then planTick s c.val + 1 else tick }] } ∧
      n = { (if late then post 0x0205 c.val (d.val + 4 * c.val) s else s) with cat := n.cat }) ∧
  (∀ (d : DieId) (c : ClientId) (s : State), exec (.catalogDiscard d c) s = .next { s with cat := { s.cat with
    staging := s.cat.staging.filter fun x => !(decide (x.die = d) && decide (x.owner = c.val)),
    commits := s.cat.commits.filter fun x => !(decide (x.die = d) && decide (x.client = c.val)) } })

/-- The five Folio operations at an agent's port (R186 to R188, R335). One that is not a reserved combination, whose ring slots
let it run and whose destination lies in a Folio that can be stored to, has its effect, and its result register reads its
result word with bit 63 set: FILL writes the pattern over its range, COPY every source word with its poison, SLOT_RESET
empties the ring's slots unless a command uses the handle (status 3), LOCK_ACQ takes a word that no live holder has and
LOCK_REL gives up one that the issuer holds, both by the epoch of the identity that the word names (R183 to R185). One whose
slots are not in the state it needs changes nothing but its result register, which reads 0. A reserved combination has status
3 and the illegal-encoding event. -/
def Obligations.FolioOperations : Prop :=
  ∀ (d : DieId) (a : Agent) (r : FopRec) (s : State) (i : Instr) (op : Nat),
    (i, op) ∈ [(.fill d a r, 1), (.copyFolioOp d a r, 2), (.slotReset d a r, 3), (.lockAcq d a r, 4), (.lockRel d a r, 5)] →
    let q : FopRec := { r with w0 := setFld r.w0 0 4 op }
    let res := fopPort d.val (agentPort a) 0x28
    let de := getEnt s (d.val * 4096 + fopDh q)
    (fopReserved none d q s = false → FopReady s d q → de.placed →
      (∀ o, o < de.len → s.storable (addrOf de d.val o) = true) →
      ∃ m w, exec i s = .next (setReg res (w ||| 1#64 <<< 63) m) ∧ FopEffect s m (agentId d a) false d q w) ∧
    (fopReserved none d q s = false → ¬ FopReady s d q → exec i s = .next (setReg res 0 s)) ∧
    (fopReserved none d q s = true → ∃ y m det, exec i s = .next (setReg res (fopWord 3 false 0 ||| 1#64 <<< 63) m) ∧
      Only [.free] s y ∧ Posted y m 0x0201 16 det)

/-- Accesses to buffers (R160 to R163, R177 to R180, R330), with the upsets u struck first. A read inside its buffer whose
slots are FULL delivers its bytes at its requester's port, and, where it consumes, empties the slots it completes. A write
inside its buffer, by an engine of its die or under the handle's window, whose slots are EMPTY stores its bytes and fills the
slots it completes. Where a slot is not in that state, the access waits behind earlier waiters and changes nothing
else. A write of another die's engine that the window does not admit stores nothing, and posts
its event. A waiter whose slots let it go on is served by SLOT_WAITER_RESUME, the earliest first. A remote write that the
window in force admits stores its bytes in the same way. -/
def Obligations.BufferAccesses : Prop :=
  (∀ (r : Access) (u : List Upset) (s : State) (kind : Nat) (i : Instr), (kind, i) ∈ [(1, .folioRead r u), (2, .stackRead r u)] →
    let s0 := strike u s
    let e := getEnt s0 r.name
    accOk kind e r r.len = true →
    (slotBlocked s0 r.name e r.off r.len false = none → ∃ n, exec i s = .next n ∧ ReadBuf s0 n e r) ∧
    (∀ k, slotBlocked s0 r.name e r.off r.len false = some k → exec i s = .next { s0 with cat := { s0.cat with
      waiters := s0.cat.waiters ++ [{ name := r.name, slot := k, write := false, acc := r, data := [] }] } })) ∧
  (∀ (r : Access) (data : List Byte) (u : List Upset) (s : State) (kind : Nat) (i : Instr),
    (kind, i) ∈ [(1, .folioWrite r data u), (2, .stackWrite r data u)] →
    let s0 := strike u s
    let e := getEnt s0 r.name
    let w : Writer := { mod := moduleId s0, die := r.die, eng := r.code }
    accOk kind e r data.length = true → e.placed →
    (r.name / 4096 = r.die.val ∨ windowAdmits s0 e w r.off data.length = true →
      (slotBlocked s0 r.name e r.off data.length true = none →
        ∃ n, exec i s = .next n ∧ WroteBuf s0 n r.name e r.off data) ∧
      (∀ k, slotBlocked s0 r.name e r.off data.length true = some k → exec i s = .next { s0 with cat := { s0.cat with
        waiters := s0.cat.waiters ++ [{ name := r.name, slot := k, write := true, acc := r, data := data }] } })) ∧
    (r.name / 4096 ≠ r.die.val → windowAdmits s0 e w r.off data.length = false → ∃ n, exec i s = .next n ∧
      Posted s0 n 0x0203 (ownerOf s0 r.name) (w.mod + 2 ^ 12 * r.die.val + 2 ^ 14 * r.code + 2 ^ 18 * (r.name % 4096) +
        2 ^ 30 * (firstRefused s0 e w r.off data.length / 64)))) ∧
  (∀ (name slot i : Nat) (w : Waiter) (s : State),
    (s.cat.waiters.findIdx? fun x => decide (x.name = name) && decide (x.slot = slot) && waiterReady s x) = some i →
    s.cat.waiters[i]? = some w → w.acc.name = name →
    let s1 := { s with cat := { s.cat with waiters := s.cat.waiters.eraseIdx i } }
    let e := getEnt s name
    e.kind ≠ 0 → e.placed → w.remote = false →
    (w.write = false → accOk e.kind e w.acc w.acc.len = true →
      ∃ n, exec (.slotWaiterResume name slot) s = .next n ∧ ReadBuf s1 n e w.acc) ∧
    (w.write = true → accOk e.kind e w.acc w.data.length = true →
      ∃ n, exec (.slotWaiterResume name slot) s = .next n ∧ WroteBuf s1 n name e w.acc.off w.data)) ∧
  (∀ (w : Writer) (name off : Nat) (data : List Byte) (s : State),
    let e := getEnt s name
    e.placed → data.length ≠ 0 → windowAdmits s e w off data.length = true → slotBlocked s name e off data.length true = none →
    ∃ n, exec (.remoteWrite w name off data) s = .next n ∧ WroteBuf s n name e off data)

/-- Power gating and bank replacement (R100, R101, R191 to R194). A row or column unit that no issued command needs and that
no hold or wake keeps is gated; the end of its wake makes a waking unit awake. A bank with no request and no write in flight
goes to sleep, or, where it may be off, goes off and its lines read zero; a request at a sleeping or off bank starts
its wake and waits; the end of the wake makes it active with no request left. A worn bank whose requests are none is served
by its die's next spare: the count of spares in use rises, its wear count is 0, and every byte reads as before. -/
def Obligations.PowerGating : Prop :=
  (∀ (t : TileId) (i : Nat) (s : State), (getArr s t).wakeHold = false →
    (i < 64 → (neededUnits (getArr s t)).1.getLsbD i = false → (getArr s t).wakingR.getLsbD i = false →
      exec (.unitGate t false i) s =
        .next (setArr t { getArr s t with awakeR := (getArr s t).awakeR &&& ~~~(1#64 <<< i) } s)) ∧
    (i < 16 → (neededUnits (getArr s t)).2.getLsbD i = false → (getArr s t).wakingC.getLsbD i = false →
      exec (.unitGate t true i) s =
        .next (setArr t { getArr s t with awakeC := (getArr s t).awakeC &&& ~~~(1#16 <<< i) } s))) ∧
  (∀ (t : TileId) (i : Nat) (s : State),
    ((getArr s t).wakingR.getLsbD i = true → ∃ n, exec (.unitWakeDone t false i) s = .next n ∧
      (getArr n t).awakeR.getLsbD i = true ∧ (getArr n t).wakingR.getLsbD i = false) ∧
    ((getArr s t).wakingC.getLsbD i = true → ∃ n, exec (.unitWakeDone t true i) s = .next n ∧
      (getArr n t).awakeC.getLsbD i = true ∧ (getArr n t).wakingC.getLsbD i = false)) ∧
  (∀ (d : DieId) (b : Nat) (s : State),
    let k := bankKey d b
    bankPower s k = .active → bankRequests s k = 0 → heldAt s k true = 0 → ∃ n, exec (.bankGate d b) s = .next n ∧
      let off : Bool := decide (getDict s (dkey 0x3100 0x02) ≠ 0) && !bankCovered s k
      bankPower n k = (if off then .off else .sleep) ∧
      (∀ x, n.peek x = if off ∧ regionOf x = .folio (k / 512) ∧ bankOf x = k then (0, false) else s.peek x) ∧
      n = { s with banks := n.banks, mem := n.mem }) ∧
  (∀ (d : DieId) (b : Nat) (s : State),
    let k := bankKey d b
    (bankPower s k = .sleep ∨ bankPower s k = .off → ∃ n, exec (.bankWake d b) s = .next n ∧
      bankPower n k = (if bankPower s k = .sleep then .waking else .powering) ∧ bankRequests n k = bankRequests s k + 1 ∧
      n = { s with banks := n.banks }) ∧
    (bankPower s k = .waking ∨ bankPower s k = .powering → ∃ n, exec (.bankWakeDone d b) s = .next n ∧
      bankPower n k = .active ∧ mget 0 n.banks.waiting k = 0 ∧
      (∀ x, n.peek x = if bankPower s k = .powering ∧ regionOf x = .folio (k / 512) ∧ bankOf x = k then (0, false)
        else s.peek x) ∧
      n = { s with banks := n.banks, mem := n.mem })) ∧
  (∀ (d : DieId) (b : Nat) (s : State),
    let k := bankKey d b
    sparesUsed s d < 16 → bankRequests s k = 0 → ∃ n, exec (.bankReplace d b) s = .next n ∧
      physBank n k = 512 + sparesUsed s d ∧ sparesUsed n d = sparesUsed s d + 1 ∧
      (∀ j, j ≠ k → physBank n j = physBank s j) ∧ mget 0 n.wear k = 0 ∧ ∀ x, n.peek x = s.peek x)

/-- Scrubbing and faults of memory (R164, R331 to R334, R338). A scrub reads the words of one line, or of one check group,
after the upsets u struck: every byte of memory reads as before, and a word of the line that can be corrected has its
check bits fresh again. Sparing a die of a stack that is in service marks it spared and leaves every byte as it
reads. A stack that fails is marked failed, so that writes to it are not stored and reads of it are poisoned, and the
event 0x0601 is posted; in training the stage fault is 2. A read of an unassigned address delivers zeros and a write is
discarded, with event 0x0204. Through BAR2 the host reads bytes, or all ones with EP where one is poisoned, and writes
them. -/
def Obligations.ScrubbingAndMemoryFaults : Prop :=
  (∀ (d : DieId) (bank line : Nat) (u : List Upset) (s : State),
    let s0 := strike u s
    let a := folioBase d.val + line % 8192 * 32768 + bank % 512 * 64
    mget .active s0.banks.power (bankOf a) ≠ .off → ∃ n, exec (.folioScrub d bank line u) s = .next n ∧ n = s0.access n ∧
      (∀ x, n.peek x = s0.peek x) ∧
      ∀ k, a / 8 ≤ k → k < a / 8 + 8 → (peekWord s0 k).poison = false → n.mem.syn k = 0) ∧
  (∀ (i : StackId) (group : Nat) (u : List Upset) (s : State),
    let s0 := strike u s
    let k0 := stackAddr i.val (group % stackGroups * 256) / 8
    stackFailed s0 i.val = false → ∃ n, exec (.stackScrub i group u) s = .next n ∧ n = s0.access n ∧
      (∀ x, n.peek x = s0.peek x) ∧
      ∀ k, k0 ≤ k → k < k0 + 32 → (peekWord s0 k).poison = false → n.mem.syn k = 0) ∧
  (∀ (i : StackId) (s : State), bit (getReg s (stkBlk i.val 0)) 2 = false → stackFailed s i.val = false →
    ∃ n, exec (.stackDieSpare i) s = .next n ∧ bit (getReg n (stkBlk i.val 0)) 2 = true ∧ ∀ x, n.peek x = s.peek x) ∧
  (∀ (i : StackId) (training : Bool) (s : State), stackFailed s i.val = false →
    ∃ n, exec (.stackFailed i training) s = .next n ∧ stackFailed n i.val = true ∧
      (∀ j : StackId, j ≠ i → stackFailed n j.val = stackFailed s j.val) ∧
      (∀ x, regionOf x = .stack i.val → n.storable x = false ∧ (n.peek x).2 = true) ∧
      (training = true → getDict n (dkey 0x2000 0x02) = 2) ∧
      (post 0x0601 16 (i.val + 32 * b2n training) s).host.posted <+: n.host.posted) ∧
  (∀ (a : Nat) (write : Bool) (s : State), assigned a = false → exec (.addressError a write) s =
    .next (post 0x0204 16 (a % 2 ^ 44) (if write then s
      else { s with ports := mset [] s.ports hostPort (List.replicate 8 (0, false)) }))) ∧
  (∀ (off : Nat) (data : List Byte) (len a : Nat) (s : State), s.start.sketched = true → bar2Addr s off = some a →
    (off + len ≤ 2 ^ 36 → ∃ n, exec (.bar2Access off false len data) s = .next n ∧
      let bs := (List.range len).map fun i => s.peek (a + i)
      (∀ x, n.peek x = s.peek x) ∧ n.host.ep = anyPoison bs ∧
      n.host.bar2 = (if anyPoison bs then List.replicate len 0xFF else plain bs)) ∧
    (off + data.length ≤ 2 ^ 36 → ∃ n, exec (.bar2Access off true len data) s = .next n ∧ n = s.access n ∧
      ∀ x, n.peek x = if (a ≤ x ∧ x < a + data.length) ∧ s.storable x = true ∧
          ((a ≤ 8 * (x / 8) ∧ 8 * (x / 8) + 8 ≤ a + data.length) ∨ (s.peek x).2 = false)
        then (data.getD (x - a) 0, false) else s.peek x))

/-- Registers (R3, R4, R334, R337, R369), at the module address t to which an access goes. A write to a register of a die's
control space that is no port's, or to one of BAR0's that only hold a value, stores its RW bits, clears the W1C bits that the
value names, keeps every other bit, and changes no other register and nothing else. A write to memory stores its 8 bytes.
A write to an unassigned address posts event 0x0204 and is discarded. A read of the lowest word of a counter block copies
the whole block into its shadow and delivers that word, and a read of another of its words delivers the shadow's; a read of
memory delivers its bytes, of an unassigned address zeros with the event. -/
def Obligations.RegisterAccesses : Prop :=
  (∀ (a o : Nat) (d : DieId) (v : Word) (s : State), windowAddr s (wordAddr a) = some (ctlBase d.val + o) →
    o < 0x100000000 → ctlAssigned o = true → ¬ (0x310000 ≤ o ∧ o < 0x310500) → ¬ (0x320000 ≤ o ∧ o < 0x320500) →
    ∃ n, exec (.registerWrite a v) s = .next n ∧ n = { s with regs := n.regs } ∧
      (∀ b, b ≠ ctlBase d.val + o → getReg n b = getReg s b) ∧
      ∀ i, i < 64 → (getReg n (ctlBase d.val + o)).getLsbD i =
        if (ctlMasks o).1.getLsbD i then v.getLsbD i
        else (getReg s (ctlBase d.val + o)).getLsbD i && !(v.getLsbD i && (ctlMasks o).2.getLsbD i)) ∧
  (∀ (a o : Nat) (v : Word) (s : State), windowAddr s (wordAddr a) = some (0xFF800000000 + o) →
    (o = 8 ∨ o = 0x10 ∨ (0x10000 ≤ o ∧ o < 0x11040 ∧ o % 0x40 ≠ 0x18) ∨ (0x12000 ≤ o ∧ o < 0x12440 ∧ o % 0x40 ≠ 0x18)) →
    ∃ n, exec (.registerWrite a v) s = .next n ∧ n = { s with regs := n.regs } ∧
      (∀ b, b ≠ bar0 o → getReg n b = getReg s b) ∧
      ∀ i, i < 64 → (getReg n (bar0 o)).getLsbD i =
        if (barMasks o).1.getLsbD i then v.getLsbD i
        else (getReg s (bar0 o)).getLsbD i && !(v.getLsbD i && (barMasks o).2.getLsbD i)) ∧
  (∀ (a t : Nat) (v : Word) (s : State), windowAddr s (wordAddr a) = some t → t < 0xFF000000000 → assigned t = true →
    t % 8 = 0 → ∃ n, exec (.registerWrite a v) s = .next n ∧ n = s.access n ∧
      ∀ x, n.peek x = if t ≤ x ∧ x < t + 8 ∧ s.storable x = true then ((leBytes 8 v.toNat).getD (x - t) 0, false)
        else s.peek x) ∧
  (∀ (a t : Nat) (v : Word) (s : State), windowAddr s (wordAddr a) = some t → assigned t = false →
    exec (.registerWrite a v) s = .next (post 0x0204 16 (t % 2 ^ 44) s) ∧
    ∃ n, exec (.counterBlockLatch a) s = .next n ∧ mget [] n.ports hostPort = List.replicate 8 (0, false) ∧
      n.host.posted = (post 0x0204 16 (t % 2 ^ 44) s).host.posted) ∧
  (∀ (a o lo n : Nat) (d : DieId) (s : State), windowAddr s (wordAddr a) = some (ctlBase d.val + o) →
    o < 0x100000000 → ctlAssigned o = true → ctlBlock o = some (lo, n) →
    (lo = o → ∃ t, exec (.counterBlockLatch a) s = .next t ∧
      (∀ i, i < n → mget 0 t.shadow (ctlBase d.val + lo + 8 * i) = getReg s (ctlBase d.val + lo + 8 * i)) ∧
      (0 < n → mget [] t.ports hostPort = (leBytes 8 (getReg s (ctlBase d.val + o)).toNat).map fun b => (b, false)) ∧
      t = { s with shadow := t.shadow, ports := t.ports }) ∧
    (lo ≠ o → ∃ t, exec (.counterBlockLatch a) s = .next t ∧
      mget [] t.ports hostPort = (leBytes 8 (mget 0 s.shadow (ctlBase d.val + o)).toNat).map (fun b => (b, false)) ∧
      t = { s with ports := t.ports })) ∧
  (∀ (a t : Nat) (s : State), windowAddr s (wordAddr a) = some t → t < 0xFF000000000 → assigned t = true →
    ∃ n, exec (.counterBlockLatch a) s = .next n ∧ (∀ x, n.peek x = s.peek x) ∧
      mget [] n.ports hostPort = (List.range 8).map fun i => s.peek (t + i))

/-- The object dictionary (R8, R397, R403 to R406), over a path whose Registrar is there. A read of an entry of a fixed-size
type that may be read answers code 0 and its bytes, and changes nothing else; of a STR or DOMAIN entry, its bytes. A write
that passes its checks stores the value of an entry that only holds one, answers 0, and changes no other entry. A refused
request answers its code and leaves the dictionary as it was: 1 or 2 for an entry that does not exist, 8 in recovery, 3 for
a write-only entry read, 4 for a constant or read-only entry written, 5 for an entry written while a client is admitted, 6
for a length that is not its type's, 7 for a value out of range, 8 where the state refuses it. -/
def Obligations.DictionaryAccesses : Prop :=
  ∀ (p : DPath) (ix sub : Nat) (s : State), s.start.sketched = true →
    (∀ r, (findEntry ix sub s).2 = some r → r.acc ≠ .wo →
      (∀ n, r.ty.size = some n → exec (.dictionaryRead p ix sub) s =
        .next (dictAnswer p 0 (leBytes n (entryNat s (dkey ix sub))) s)) ∧
      (r.ty.size = none → exec (.dictionaryRead p ix sub) s =
        .next (dictAnswer p 0 (entryBlob (dkey ix sub) s).1 (entryBlob (dkey ix sub) s).2))) ∧
    ((findEntry ix sub s).2 = none →
      exec (.dictionaryRead p ix sub) s = .next (dictAnswer p (findEntry ix sub s).1 [] s) ∧
      ∀ data, exec (.dictionaryWrite p ix sub data) s = .next (dictAnswer p (findEntry ix sub s).1 [] s)) ∧
    (∀ r, (findEntry ix sub s).2 = some r →
      let k := dkey ix sub
      let shut : Prop := r.acc = .const ∨ r.acc = .ro ∨ (p = .curator ∧ (k = 0xF00002 ∨ k = 0xF00004))
      let busy : Prop := r.acc = .rwIdle ∧ s.clients.any (fun x => decide (x.2.state ≠ 0)) = true
      (r.acc = .wo → exec (.dictionaryRead p ix sub) s = .next (dictAnswer p 3 [] s)) ∧
      (shut → ∀ data, exec (.dictionaryWrite p ix sub data) s = .next (dictAnswer p 4 [] s)) ∧
      (¬ shut → busy → ∀ data, exec (.dictionaryWrite p ix sub data) s = .next (dictAnswer p 5 [] s)) ∧
      (∀ n data, ¬ shut → ¬ busy → r.ty.size = some n →
        let v := leNat data
        let bad : Prop := (r.ty = .bool ∧ 1 < v) ∨ inRange s k v = false
        (data.length ≠ n → exec (.dictionaryWrite p ix sub data) s = .next (dictAnswer p 6 [] s)) ∧
        (data.length = n → bad → exec (.dictionaryWrite p ix sub data) s = .next (dictAnswer p 7 [] s)) ∧
        (data.length = n → ¬ bad → stateRefuses s k v = true →
          exec (.dictionaryWrite p ix sub data) s = .next (dictAnswer p 8 [] s)) ∧
        (data.length = n → ¬ bad → stateRefuses s k v = false →
          k ∉ [0x20000A, 0x200012, 0x200013, 0xA00005, 0xF00004, 0x110010] → k / 256 ≠ 0x7001 →
          ∃ t, exec (.dictionaryWrite p ix sub data) s = .next t ∧ getDict t k = BitVec.ofNat 64 v ∧
            (∀ j, j ≠ k → getDict t j = getDict s j) ∧
            mget [] t.ports (dictPort p) = (leBytes 4 0).map (fun b => (b, false)) ∧
            t = { s with dict := t.dict, ports := t.ports })))

/-- The tick (R20): die 0's SCHEDULE_TICK counts the module's tick and trims the phase by at most 16 steps (R277); each die's
starts its arbiters' quota windows again (R363) and applies the commits that fall due on it (R175). TCLK_CHANGE puts the
frequency that DVFS selected into effect (R17); THROTTLE_EVAL stores the sensors' readings and selects the target, with its
event where it is another than the present one (R443). LEDGER_TICK adds the
tick's energy to the module's total (R366). -/
def Obligations.TicksAndClocks : Prop :=
  (∀ (d : DieId) (s : State), ∃ n, exec (.scheduleTick d) s = .next n ∧
    n.tick = s.tick + (if d.val = 0 then 1 else 0) ∧
    n.fabric.time = (if d.val = 0 then { s.fabric.time with phase := trimPhase s.fabric.time.phase } else s.fabric.time) ∧
    (∀ k, mget {} n.arbs k = if k / 4 = d.val then arbWindow (mget {} s.arbs k) else mget {} s.arbs k) ∧
    n.cat = (dueCommits d (newWindows d.val (if d.val = 0 then moduleTick s else s))).cat ∧
    Only (.tick :: .fabric :: .arbs :: .cat :: .clients :: .plates :: .mem :: .wearS :: .free :: accountParts) s n) ∧
  (∀ s : State,
    (s.start.tcut ≠ 0 → s.start.tcut ≠ tclk s → ∃ n, exec .tclkChange s = .next n ∧
      getDict n (dkey 0x2100 0x10) = BitVec.ofNat 64 s.start.tcut ∧ Only [.dict, .sat, .host, .logs] s n) ∧
    (s.start.tcut = 0 ∨ s.start.tcut = tclk s → exec .tclkChange s = .next s)) ∧
  (∀ (m : Sensors) (s : State), s.start.firmware = true → ∃ n, exec (.throttleEval m) s = .next n ∧
    let t := (throttleTarget (setSensors m s) m).1
    n.start = { s.start with tcut := t } ∧
    (t ≠ tclk (setSensors m s) → ∃ y, n = post 0x0803 16 t y ∧ y.start = { s.start with tcut := t }) ∧
    getDict n (dkey 0x3000 0x05) = BitVec.ofNat 64 m.tstack ∧
    Only [.dict, .sat, .host, .logs, .start] s n) ∧
  (∀ (energy : List EnergyIn) (s : State), ∃ n, exec (.ledgerTick energy) s = .next n ∧
    mget 0 n.ledger (16 * 32 + 2) = mget 0 s.ledger (16 * 32 + 2) +
      ((energy.take 4).map fun x => x.compute + x.stk.sum + x.links + x.mgmt).sum ∧ n.served = [] ∧
    Only (.served :: accountParts) s n)

/-- The tick across modules (R276, R277, R279). A time request goes out at the parent port, and a request that arrives is
answered with its stamps at the port it came by. A response sets the phase to be trimmed to half of (t2 - t1) - (t4 - t3), records
the offset, counts exchanges in a row within 10 ns, and moves the lock state: 64 of them lock; an offset above 500 ns unlocks
a locked module; an acquiring module takes its parent's tick count. A module whose parent port is down chooses as its parent the
up port whose peer is nearest a root. On a root with external references every 10th TICK_IN edge is a tick edge, a PPS_IN
edge makes the tick count the next multiple of 1,000,000, and a lost reference means holdover, with its event, until both
are there again. -/
def Obligations.TimeSynchronisation : Prop :=
  (∀ (s : State) (p : Nat), s.fabric.time.parent = some p → ∃ n m, exec .timeRequest s = .next n ∧ fld m.1 0 8 = 1 ∧
    (getPort n p).ctl = (getPort s p).ctl ++ [m] ∧ (∀ q, q ≠ p → getPort n q = getPort s q) ∧ Only [.fabric, .free] s n) ∧
  (∀ (s : State) (p : PortId) (t1 : Int), ∃ n m t2 t3, exec (.timeRequestArrival p t1) s = .next n ∧ fld m.1 0 8 = 2 ∧
    (getPort n p.val).ctl = (getPort s p.val).ctl ++ [m] ∧ n.fabric.time = { s.fabric.time with reply := [t1, t2, t3] } ∧
    (s.tick : Int) * 80000 ≤ t2 ∧ t2 ≤ t3 ∧ Only [.fabric, .free] s n) ∧
  (∀ (s : State) (t1 t2 t3 t4 : Int), isRoot s = false → s.fabric.time.parent ≠ none →
    ∃ n, exec (.timeResponse t1 t2 t3 t4) s = .next n ∧
      let o := offset2 t1 t2 t3 t4
      let ps := offsetPs o
      let good := if ps.natAbs ≤ 10000 then s.fabric.time.good + 1 else 0
      let state := (getDict s (dkey 0x5000 0x08)).toNat
      n.fabric.time.phase = o / 2 ∧ n.fabric.time.good = min good 64 ∧
      getDict n (dkey 0x5000 0x09) = BitVec.ofNat 64 (ofSigned 32 ps) ∧
      n.tick = (if state = 0 then ((2 * t4 + o) / 160000).toNat else s.tick) ∧
      getDict n (dkey 0x5000 0x08) = (if state = 1 ∧ 500000 < ps.natAbs then 2 else if state ≠ 1 ∧ 64 ≤ good then 1
        else getDict s (dkey 0x5000 0x08)) ∧
      Only (.fabric :: .tick :: .clients :: accountParts) s n) ∧
  (∀ (s : State), isRoot s = false → (∀ p, s.fabric.time.parent = some p → portState s p ≠ 2) →
    ∃ n, exec .parentReselect s = .next n ∧ n.fabric.time.parent = chooseParent s ∧
      (∀ p, chooseParent s = some p → portState s p = 2 ∧ (∀ q, q < 32 → portState s q = 2 → depthOf s p ≤ depthOf s q) ∧
        getDict n (dkey 0x5000 0x0A) = BitVec.ofNat 64 (depthOf s p + 1)) ∧ Only [.fabric, .dict] s n) ∧
  (∀ (s : State), (s.fabric.time.edges + 1 < 10 → ∃ n, exec .tickInEdge s = .next n ∧
      n.fabric.time = { s.fabric.time with edges := s.fabric.time.edges + 1 } ∧ Only [.fabric] s n) ∧
    (10 ≤ s.fabric.time.edges + 1 → ∃ n, exec .tickInEdge s = .next n ∧
      n.fabric.time = (if extRoot s then { s.fabric.time with edges := 0, phase := 0 }
        else { s.fabric.time with edges := 0 }) ∧ Only [.fabric] s n)) ∧
  (∀ (s : State), extRoot s = true → ∃ n, exec .ppsInEdge s = .next n ∧ s.tick ≤ n.tick ∧ n.tick < s.tick + 1000000 ∧
    n.tick % 1000000 = 0 ∧ Only [.tick] s n) ∧
  (∀ (s : State) (pps : Bool), extRoot s = true →
    (∃ n, exec (.referenceLost pps) s = .next n ∧ getDict n (dkey 0x5000 0x08) = 3 ∧
      n.fabric.time = (if pps then { s.fabric.time with lostPps := true } else { s.fabric.time with lostTick := true }) ∧
      n.host.posted = (post 0x0403 16 (if pps then 2 else 1) s).host.posted ∧ Only [.fabric, .dict, .host, .logs] s n) ∧
    (∃ n, exec (.referenceRegained pps) s = .next n ∧
      n.fabric.time = (if pps then { s.fabric.time with lostPps := false } else { s.fabric.time with lostTick := false }) ∧
      (n.fabric.time.lostPps = false → n.fabric.time.lostTick = false → getDict n (dkey 0x5000 0x08) = 1) ∧
      Only [.fabric, .dict] s n))

/-- Steps of a client (R220, R229, R230). A step that may start presets every token register of its dies (0 where the plate
set names none), drops posts on their way, starts every plate of its dies from its beginning, and advances the lane-group
bases. A completed step records its scope word and index, advances the data position, posts the event 0x0002 with its
measured slowdown, and goes to the next step, or ends the run after the last. An aborted step that has stopped ends its run.
Carrying out an abort empties and ends the plates of the client's dies, discards the commands that wait on what it resets,
and posts event 0x0301. An ABORT message not yet seen is noted, flooded on, and aborts the client's step of that index. -/
def Obligations.StepsAndAborts : Prop :=
  (∀ (c : ClientId) (s : State) (r : Run), (getClient s c.val).run = some r → stepReady s c.val r = true →
    let cl := getClient s c.val
    let ps := clientPresets cl
    (∀ p ∈ ps, p.1 < 17 ∧ p.2.1 < 256) →
    ∃ n, exec (.stepStart c) s = .next n ∧ (getClient n c.val).step = some { idx := r.idx, n := r.n } ∧
      (∀ g ∈ laneGroups cl, mget 0 (getClient n c.val).arch.bases g = r.idx + 1) ∧
      (∀ d f k, d < 4 → f < 17 → k < 256 → tokens n d f k = if hasDie cl d then
        (match ps.reverse.find? fun p => decide (p.1 = f ∧ p.2.1 = k) with | some p => p.2.2 % 2 ^ 16 | none => 0)
        else tokens s d f k) ∧
      n.plates.posts = s.plates.posts.filter (fun p => decide (p.client ≠ c.val)) ∧
      (∀ d e, d < 4 → hasDie cl d = true → e ∈ enginesOf d → (getEng n e).running = true ∧ (getEng n e).win = [] ∧
        (getEng n e).words = [] ∧ (getEng n e).fetched = 0 ∧ (getEng n e).nextIx = 0) ∧
      Only (.plates :: accessParts) s n) ∧
  (∀ (c : ClientId) (s : State) (st : StepSt) (r : Run), (getClient s c.val).step = some st →
    (getClient s c.val).run = some r → stepOver s c.val st = true →
    (st.aborted = false → ∃ n, exec (.stepComplete c) s = .next n ∧ (getClient n c.val).step = none ∧
      (getClient n c.val).next = st.idx + 1 ∧ (getClient n c.val).scope = 0 ∧
      (r.left ≤ 1 → (getClient n c.val).run = none) ∧
      (1 < r.left → (getClient n c.val).run = some { r with left := r.left - 1, n := r.n + 1, idx := st.idx + 1 }) ∧
      getDict n (dkey 0xA000 (0x20 + c.val)) = BitVec.ofNat 64 st.idx ∧
      getDict n (dkey 0xA000 (0x10 + c.val)) =
        ((getClient s c.val).scope ||| (if lateViol s c.val then scViolation else 0)).setWidth 64 ∧
      dataPos n c.val = advancePos (dataPos s c.val) ∧
      ∃ x, (post 0x0002 c.val (slowdown (shareOf s c.val).stepLen st.stretch % 65536) x).host.posted <+: n.host.posted) ∧
    (st.aborted = true → ∃ n, exec (.stepComplete c) s = .next n ∧ (getClient n c.val).step = none ∧
      (getClient n c.val).run = none ∧ (getClient n c.val).arch.lastAborted = true)) ∧
  (∀ (c : ClientId) (s : State) (st : StepSt), (getClient s c.val).step = some st → st.aborted = true → st.stopped = false →
    (getClient s c.val).state = 2 → ∃ n, exec (.stepAbort c) s = .next n ∧
      (getClient n c.val).step = some { st with stopped := true, gates := [], commits := [] } ∧
      (∀ d e, d < 4 → hasDie (getClient s c.val) d = true → e ∈ enginesOf d →
        (getEng n e).win = [] ∧ (getEng n e).words = [] ∧ (getEng n e).ended = true) ∧
      n.plates.flights = s.plates.flights.filter (fun f =>
        !((s.plates.flights.filter fun g => decide (g.client = c.val) && abortDiscards s g).map (·.id)).contains f.id) ∧
      ∃ x, n = post 0x0301 c.val (st.fcode % 65536 + 2 ^ 16 * (st.forigin % 4096)) x) ∧
  (∀ (p : PortId) (w0 w1 : Word) (s : State),
    let c := fld w0 20 4
    let step := fld w1 0 32
    (s.fabric.aborts.contains (fld w0 8 12, step) = true → exec (.abortMessage p w0 w1) s = .next s) ∧
    (s.fabric.aborts.contains (fld w0 8 12, step) = false → ∃ n, exec (.abortMessage p w0 w1) s = .next n ∧
      n.fabric.aborts = s.fabric.aborts ++ [(fld w0 8 12, step)] ∧
      (getClient n c).step = ((getClient s c).step.map fun st => if st.aborted ∨ st.idx % 2 ^ 32 ≠ step then st
        else { st with aborted := true, fcode := fld w0 24 16, forigin := fld w0 8 12 }) ∧
      Only [.fabric, .clients] s n))

/-- JTAG (R451, R452). In Sketch, EXTEST puts the bits shifted in into the die's boundary register (cells that none reached
hold 0) and drives the pins from it, CLAMP drives the pins from the register as it is, HIGHZ floats them; in any other stage
the three act as BYPASS, and the register keeps its cells. SAMPLE/PRELOAD fills the register and drives nothing. IDCODE
selects the code 0x15A17A6B. A TAP reset returns the pins to normal function. None touches another die's port or any other
state. -/
def Obligations.JtagCommands : Prop :=
  ∀ (d : DieId) (bits : List Bool) (s : State),
    let frame (t : State) : Prop := t = { s with start := { s.start with jtag := t.start.jtag } } ∧
      ∀ e : DieId, e ≠ d → getJtag t e = getJtag s e
    let filled (t : State) : Prop := ∀ i : Nat, i < 1152 → (getJtag t d).cells[i]? = some (bits.getD i false)
    let kept (t : State) : Prop := (getJtag t d).cells = (getJtag s d).cells
    (stageOf s = 1 →
      (∃ t, exec (.extest d bits) s = .next t ∧ frame t ∧ filled t ∧ (getJtag t d).ir = 0 ∧
        (getJtag t d).driving = true ∧ (getJtag t d).float = false) ∧
      (∃ t, exec (.clamp d) s = .next t ∧ frame t ∧ kept t ∧ (getJtag t d).ir = 4 ∧ (getJtag t d).driving = true ∧
        (getJtag t d).float = false) ∧
      (∃ t, exec (.highz d) s = .next t ∧ frame t ∧ kept t ∧ (getJtag t d).ir = 5 ∧ (getJtag t d).driving = true ∧
        (getJtag t d).float = true)) ∧
    (stageOf s ≠ 1 → ∃ t, exec (.bypass d) s = .next t ∧ exec (.extest d bits) s = .next t ∧
      exec (.clamp d) s = .next t ∧ exec (.highz d) s = .next t) ∧
    (∃ t, exec (.samplePreload d bits) s = .next t ∧ frame t ∧ filled t ∧ (getJtag t d).ir = 2 ∧
      (getJtag t d).driving = (getJtag s d).driving) ∧
    (∃ t, exec (.bypass d) s = .next t ∧ frame t ∧ kept t ∧ (getJtag t d).ir = 0xFF ∧ jtagDr (getJtag t d) = [false]) ∧
    (∃ t, exec (.idcode d) s = .next t ∧ frame t ∧ kept t ∧ jtagDr (getJtag t d) =
      (List.range 32).map (0x15A17A6B#32).getLsbD) ∧
    (∃ t, exec (.tapReset d) s = .next t ∧ frame t ∧ kept t ∧ (getJtag t d).ir = 1 ∧ (getJtag t d).driving = false ∧
      (getJtag t d).float = false)

/-- Power and the strongest resets. With the input in range for 10 ms, nothing tripped, the rails come up and PWR_GOOD rises
(R441). Losing PWR_GOOD, a rising PRESENT_N and a trip leave the module as at power-on: memory, registers, Catalog, clients
and engines empty, totals and entries at their defaults but for those of non-volatile store; the last two switch the rails off, and a
trip leaves its cause and the tick in the controller's record (R399, R442, R447). A release lets the module start again. A cold
reset, by RST_N or by RESET_REQ, leaves no client, no staged write and STAGE at Sketch, keeps stacks and rails, advances every
agent's epoch, and records kind 2 (R399, R401); while a cold or a power-on reset is in progress it is absorbed and counted (R400);
with the rails off it has no effect (R442). Which totals a cold reset keeps is the model's choice (log 93). -/
def Obligations.PowerAndColdReset : Prop :=
  ∀ (s : State),
    let bare (n : State) : Prop := n.regs = [] ∧ n.shadow = [] ∧ n.banks = {} ∧ n.plates = {} ∧ n.tiles = [] ∧ n.units = {} ∧
      n.clients = [] ∧ n.fabric = {} ∧ n.rot = {} ∧ n.arbs = [] ∧ n.served = [] ∧ n.ports = [] ∧ n.wear = [] ∧ n.mail = {} ∧
      n.cat.ents = [] ∧ n.cat.staging = [] ∧ n.cat.commits = [] ∧ n.host.fetched = [] ∧
      n.host.mem = s.host.mem ∧ n.start.flash = s.start.flash ∧ n.pending = s.pending ∧ n.free = s.free
    let lost (n : State) : Prop := bare n ∧ n.host.posted = [] ∧ n.mem = {} ∧ n.cat = {} ∧ n.ledger = [] ∧ n.tick = 0 ∧ n.start.good = false ∧
      n.start.resetNow = 1 ∧ stageOf n = 1 ∧ ∀ k, k ∉ lastingEntries → getDict n k = dictDefault k
    (∀ vin ms, 47500 ≤ vin → vin ≤ 54000 → 10 ≤ ms → s.start.tripped = false → s.start.good = false →
      ∃ n, exec (.powerSequence vin ms) s = .next n ∧ n.start = { s.start with rails := true, good := true, goodTick := s.tick } ∧
        Only [.start] s n) ∧
    (s.start.good = true → ∃ n, exec .pwrGoodLost s = .next n ∧ lost n ∧ n.start.rails = s.start.rails) ∧
    (∃ n, exec .presentNRise s = .next n ∧ lost n ∧ n.start.rails = false) ∧
    (∀ thermal current, (thermal || current) = true → s.start.rails = true →
      ∃ n, exec (.protectiveTrip thermal current) s = .next n ∧ lost n ∧ n.start.rails = false ∧ n.start.tripped = true ∧
        n.start.tripNote = some (b2n thermal + 2 * b2n current, s.tick % 2 ^ 40) ∧
        getDict n (dkey 0x2100 0x0E) = countUp 16 (getDict s (dkey 0x2100 0x0E)) 1) ∧
    (∃ n, exec .tripRelease s = .next n ∧ n.start = { s.start with tripped := false } ∧ Only [.start] s n) ∧
    (s.start.rails = true → ¬ (s.start.resetNow ≠ 0 ∧ s.start.resetNow ≤ 2) →
      ∃ n, exec .coldReset s = .next n ∧ exec .resetReqCold s = .next n ∧ bare n ∧ n.mem = s.mem ∧ n.tick = s.tick ∧
        n.start.rails = true ∧ n.start.good = s.start.good ∧ n.start.resetNow = 2 ∧ stageOf n = 1 ∧
        n.cat.epochs = allIds.foldl (fun m i => mupd 0 m i (· + 1)) s.cat.epochs ∧
        getDict n (dkey 0x2000 0x08) = 2#64 ∧ getDict n (dkey 0x2000 0x09) = countUp 32 (getDict s (dkey 0x2000 0x09)) 1 ∧
        ∀ k, k ∉ lastingEntries → k ∉ groundEntries → k ≠ dkey 0x2000 0x08 → getDict n k = dictDefault k) ∧
    (s.start.rails = true → s.start.resetNow ≠ 0 → s.start.resetNow ≤ 2 →
      ∃ n, exec .coldReset s = .next n ∧ exec .resetReqCold s = .next n ∧
        getDict n (dkey 0x2000 0x09) = countUp 32 (getDict s (dkey 0x2000 0x09)) 1 ∧
        (∀ k, k ≠ dkey 0x2000 0x09 → getDict n k = getDict s k) ∧ Only [.dict, .sat, .host, .logs] s n) ∧
    (s.start.rails = false → exec .coldReset s = .next s ∧ exec .resetReqCold s = .next s)

/-- The weaker resets. A function-level or a fundamental reset of PCI Express leaves no client, no staged write, no fetched
command and every BAR0 register at its reset value (R339, R399). A Registrar core's reset clears its die's staging, aborts the steps of
every client that runs on its die, on any die for a lead-die core, and advances that core's epoch; memory, Catalog entries and clients stay. A
tile's reset does the same for the clients on its die, and leaves the tile as at admission (R399). Each is recorded in LAST_RESET and
RESET_COUNT (R401); while a reset as strong or stronger is in progress it is absorbed, and only counted (R400). RESET_REQ = 2 takes
the module from Edition back to Proof, its self-test to run again, while no client is admitted (R400); otherwise nothing
changes. -/
def Obligations.ModuleResets : Prop :=
  ∀ (s : State), s.start.rails = true →
    (¬ (s.start.resetNow ≠ 0 ∧ s.start.resetNow ≤ 3) →
      ∃ n, exec .functionLevelReset s = .next n ∧ exec .pcieFundamentalReset s = .next n ∧
        (∀ c, c < 16 → (getClient n c).state = 0) ∧ (∀ c, c < 16 → (getClient s c).state ≠ 0 → getClient n c = {}) ∧
        n.cat.staging = [] ∧ n.cat.commits = [] ∧ n.host.fetched = [] ∧ n.mail = {} ∧
        (∀ a, 0xFF800000000 ≤ a → a < 0xFF804000000 → getReg n a = regReset a) ∧ ResetNoted 3 s n ∧ n.start = s.start ∧
        n.tick = s.tick ∧ n.pending = s.pending) ∧
    (∀ (d : DieId) (core : Fin 4) wd, s.start.sketched = true → ¬ (s.start.resetNow ≠ 0 ∧ s.start.resetNow ≤ 4) →
      ∃ n, exec (.coreReset d core wd) s = .next n ∧ (∀ x ∈ n.cat.staging, x.die ≠ d) ∧ (∀ x ∈ n.cat.commits, x.die ≠ d) ∧
        n.cat.ents = s.cat.ents ∧
        (∀ c ∈ runningOn s (fun x => decide (d = 0) || decide (x = d.val)), Halted s n c) ∧
        mget 0 n.cat.epochs (lockId 0 d.val (16 + core.val)) = mget 0 s.cat.epochs (lockId 0 d.val (16 + core.val)) + 1 ∧
        ResetNoted 4 s n ∧ n.mem = s.mem ∧ n.regs = s.regs ∧ n.ledger = s.ledger ∧ n.pending = s.pending) ∧
    (∀ t : TileId, s.start.sketched = true → ¬ (s.start.resetNow ≠ 0 ∧ s.start.resetNow ≤ 5) →
      ∃ n, exec (.tileReset t) s = .next n ∧ getTile n t = {} ∧ (∀ x ∈ n.cat.staging, x.die.val ≠ t.val / 16) ∧
        n.cat.ents = s.cat.ents ∧ (∀ c ∈ runningOn s (fun x => decide (x = t.val / 16)), Halted s n c) ∧
        ResetNoted 5 s n ∧ n.mem = s.mem ∧ n.regs = s.regs ∧ n.start = s.start ∧ n.pending = s.pending) ∧
    (∀ kind, s.start.resetNow ≠ 0 → s.start.resetNow ≤ kind →
      ∃ n, (kind = 3 → exec .functionLevelReset s = .next n ∧ exec .pcieFundamentalReset s = .next n) ∧
        (kind = 4 → s.start.sketched = true → ∀ d core wd, exec (.coreReset d core wd) s = .next n) ∧
        (kind = 5 → s.start.sketched = true → ∀ t, exec (.tileReset t) s = .next n) ∧
        getDict n (dkey 0x2000 0x09) = countUp 32 (getDict s (dkey 0x2000 0x09)) 1 ∧ Only [.dict, .sat, .host, .logs] s n) ∧
    (stageOf s = 3 → (∀ x ∈ s.clients, x.2.state = 0) →
      ∃ n, exec .resetReqSelftest s = .next n ∧ stageOf n = 2 ∧ n.start = { s.start with selftest := true, tilesOk := [], tcut := 800 } ∧
        getDict n (dkey 0x2000 0x06) = 0 ∧ getDict n (dkey 0x2100 0x10) = 800 ∧ n.host.posted = (post 0x0004 16 2 s).host.posted ∧
        Only [.dict, .start, .host, .logs] s n) ∧
    (stageOf s ≠ 3 ∨ (∃ x ∈ s.clients, x.2.state ≠ 0) → exec .resetReqSelftest s = .next s)

/-- The Curator (R421 to R426). Each line it serves counts as a valid line of the present rate and ends with the prompt; a command
above the present level gives LEVEL and does nothing else; while a blow is under way, or before Sketch, lines wait. help, id, stage,
get, dump, info and events print what R425 names, and change nothing (the layout of their lines is the model's: log 105). unlock
prints a challenge of 32 open bits, kept with its level and tick; it is refused by RANGE, STATE (while blocked) or LEVEL (level 1
with an all-zero key). resp consumes the challenge: within 120 s the right answer raises the level, a wrong one counts, and the
third in a row blocks unlock for 60 s (R424). lock and CUR_IDLE return to level 0. set writes through the dictionary's checks (R8);
the two resets are those of R399; fuse prints its repair and an open code, and with the code, when R426's conditions hold,
starts the blow and clears FUSE_ARMED. Without a valid line within 10 s the old rate returns (R422). -/
def Obligations.CuratorLines : Prop :=
  ∀ (s : State), CurServes s →
    let m : State := { s with cur := { s.cur with oldBaud := none } }
    (∃ n, exec .curHelp s = .next n ∧ Prints ["OK help id stage get dump info events unlock resp lock" ++
      (if 1 ≤ curLevel s then " set reset" else "") ++ (if 2 ≤ curLevel s then " fuse" else "")] m n) ∧
    (∃ n, exec .curId s = .next n ∧ Prints [readAll
      [(0x1000, 1), (0x1000, 5), (0x1000, 2), (0x1000, 3), (0x1000, 4), (0x1100, 1), (0x5000, 1)] m] m n) ∧
    (∃ n, exec .curStage s = .next n ∧ Prints [readAll [(0x2000, 1), (0x2000, 2), (0x2000, 3), (0x2000, 4), (0x2000, 5)] m] m n) ∧
    (∀ ix sub, ∃ n, exec (.curGet ix sub) s = .next n ∧ Prints ((readText ix sub m).1 :: (readText ix sub m).2.1) (readText ix sub m).2.2 n) ∧
    (∀ ix, ∃ n, exec (.curDump ix) s = .next n ∧
      (recoveryRefuses s ix = true → Prints [errText 8] m n) ∧
      (recoveryRefuses s ix = false → indexExists ix = false → Prints [errText 1] m n) ∧
      (recoveryRefuses s ix = false → indexExists ix = true → ∃ ls t, Prints ls t n ∧
        ls.length ≥ ((List.range 256).filter fun i => (entryRow (dkey ix i)).isSome).length)) ∧
    (∀ ix sub, ∃ n, exec (.curInfo ix sub) s = .next n ∧
      Prints (if (dictInfo ix sub m).1 ≠ 0 then [errText (dictInfo ix sub m).1] else "OK" :: hexLines 2 (dictInfo ix sub m).2.1)
        (dictInfo ix sub m).2.2 n) ∧
    (∀ k, k ≤ 64 → let l := s.logs.evlog.drop (s.logs.evlog.length - (if k = 0 then 16 else k))
      ∃ n, exec (.curEvents k) s = .next n ∧
        Prints ("OK" :: hexLines ((if k = 0 then 16 else k) + 1) (logBytes l m).1) (logBytes l m).2 n) ∧
    (∀ k, 64 < k → ∃ n, exec (.curEvents k) s = .next n ∧ Prints [errText 7] m n) ∧
    (∀ level, 1 ≤ level → level ≤ 2 → s.cur.blocked ≤ s.tick → (level = 1 → key1 s ≠ List.replicate 16 0) →
      ∃ n v, v < 2 ^ 32 ∧ exec (.curUnlock level) s = .next n ∧
        Prints ["OK challenge " ++ hexText 8 v] { m with cur := { m.cur with challenge := some (level, v, s.tick) }, free := s.free + 1 } n) ∧
    (∀ level, ∃ n, exec (.curUnlock level) s = .next n ∧ (level = 0 ∨ 2 < level → Prints [errText 7] m n) ∧
      (1 ≤ level → level ≤ 2 → s.tick < s.cur.blocked → Prints [errText 8] m n) ∧
      (level = 1 → s.cur.blocked ≤ s.tick → key1 s = List.replicate 16 0 → Prints [errText 0xE] m n)) ∧
    (∀ data level v t, data.length = 4 → s.cur.challenge = some (level, v, t) → s.tick ≤ t + 120000000 →
      let c : State := { m with cur := { m.cur with challenge := none } }
      ∃ n, exec (.curResp data) s = .next n ∧
        (data = curAnswer (levelKey s level) v → Prints ["OK level " ++ toString (max level (curLevel s))]
          (setLevel (max level (curLevel s)) { c with cur := { c.cur with wrong := 0 } }) n) ∧
        (data ≠ curAnswer (levelKey s level) v → ∃ w : State, Prints [errText 0xE] w n ∧ w.cur.challenge = none ∧
          w.cur.wrong = (if 2 ≤ s.cur.wrong then 0 else s.cur.wrong + 1) ∧
          w.cur.blocked = (if 2 ≤ s.cur.wrong then s.tick + 60000000 else s.cur.blocked) ∧
          getDict w (dkey 0xF000 0x03) = countUp 32 (getDict s (dkey 0xF000 0x03)) 1)) ∧
    (∃ n, exec .curLock s = .next n ∧ Prints ["OK level 0"] (setLevel 0 m) n) ∧
    (∀ ix sub data, let r := dictWrite .curator ix sub data m
      (if ix = 0x8000 then 2 else 1) ≤ curLevel s → ∃ n, exec (.curSet ix sub data) s = .next n ∧
        (r.2.start.sketched = true → Prints [if r.1 = 0 then "OK" else errText r.1] r.2 n) ∧ (r.2.start.sketched = false → n = r.2)) ∧
    (1 ≤ curLevel s → ∃ n, exec .curResetCold s = .next n ∧ ((coldReset m).start.sketched = true → Prints ["OK"] (coldReset m) n) ∧
      ((coldReset m).start.sketched = false → n = coldReset m)) ∧
    (1 ≤ curLevel s → ∀ (d : DieId) (core : Fin 4), ∃ n, exec (.curResetCore d core) s = .next n ∧
      let r := askReset 4 (coreReset d.val core.val) m
      (r.start.sketched = true → Prints ["OK"] r n) ∧ (r.start.sketched = false → n = r)) ∧
    (2 ≤ curLevel s → ∀ e r code, pendingRepair s e = some r →
      (65536 ≤ code → ∃ n k, k < 2 ^ 16 ∧ exec (.curFuse e code) s = .next n ∧
        Prints ["OK " ++ hexText 16 r.w0.toNat ++ " " ++ hexText 16 r.w1.toNat ++ " " ++ hexText 4 k]
          { m with cur := { m.cur with confirm := some (e, k, s.tick) }, free := s.free + 1 } n) ∧
      (code < 65536 → fuseConfirmed e code s = true → ∃ n, exec (.curFuse e code) s = .next n ∧
        n = setDict (dkey 0xF000 0x05) 0 { m with cur := { m.cur with confirm := none, blow := some e } }) ∧
      (code < 65536 → fuseConfirmed e code s = false → ∃ n, exec (.curFuse e code) s = .next n ∧ Prints [errText 8] m n)) ∧
    (curLevel s = 0 → ∀ ix sub data d core e code, ∀ c ∈ [Instr.curSet ix sub data, .curResetCold, .curResetCore d core, .curFuse e code],
      ∃ n, exec c s = .next n ∧ Prints [errText 0xE] m n) ∧
    (∃ n, exec .curIdleTimeout s = .next n ∧ n = setLevel 0 s) ∧
    (∀ b t, s.cur.oldBaud = some (b, t) → ∃ n, exec .curBaudRevert s = .next n ∧ n.cur.oldBaud = none ∧
      getDict n (dkey 0x1100 0x10) = BitVec.ofNat 64 b ∧ Only [.dict, .cur] s n) ∧
    (∀ e : Nat, ∀ b : State, b = { s with cur := { s.cur with blow := some e } } →
      exec .curHelp b = .next b ∧ exec .curLock b = .next b ∧ exec .curStage b = .next b)

/-- R172. However a Catalog write reaches an entry (at once, or as part of a commit), applying it sets every slot of the entry EMPTY
where it changes SLOTS or SLOTU or makes an undefined entry defined, and keeps the state of every slot
otherwise (an entry that the write leaves undefined has no slots). In particular each of the four port writes, when it is neither staged nor refused and the port is free, takes effect
with that on its handle's slots. The slots of every other entry keep their states in both cases. -/
def Obligations.SlotsAfterCatalogWrite : Prop :=
  let kept (old new : Entry) (name : Nat) (s n : State) : Prop :=
    (old.slots ≠ new.slots ∨ old.slotu ≠ new.slotu ∨ (old.kind = 0 ∧ new.kind ≠ 0) → ∀ j, j < 4096 → slotFull n name j = false) ∧
    (¬ (old.slots ≠ new.slots ∨ old.slotu ≠ new.slotu ∨ (old.kind = 0 ∧ new.kind ≠ 0)) →
      new.kind ≠ 0 → ∀ j, j < 4096 → slotFull n name j = slotFull s name j) ∧
    (∀ k j, j < 4096 → k ≠ name → slotFull n k j = slotFull s k j)
  (∀ (name : Nat) (new : Entry) (full : Bool) (s : State),
    let n := applyEntry name new full s
    getEnt n name = new ∧ kept (getEnt s name) new name s n) ∧
  (∀ (d : DieId) (a : Agent) (r r' : CatRec) (s : State) (i : Instr),
    (i, r') ∈ [(.catalogWrite d a r, { r with ctl := r.ctl &&& 0xFFF }),
      (.catalogWriteStaged d a r, { r with ctl := (r.ctl &&& 0x6FFF) ||| 0x1000 }),
      (.catalogWriteWindow d a r, { r with ctl := (r.ctl &&& 0x1FFF) ||| 0x2000 }),
      (.catalogWriteUndef d a r, { r with ctl := (r.ctl &&& 0x1FFF) ||| 0x4000 })] →
    catBusy s d a = false → r'.stage = false → catReason s none d.val r' s.cat.ents = none →
    let name := d.val * 4096 + r'.handle
    let new := r'.result (getEnt s name)
    ∃ n, exec i s = .next n ∧ getEnt n name = new ∧ kept (getEnt s name) new name s n)

/-- R225. When a post that would take its register's count above 65,535 arrives, the register stands at 65,535. The token-overflow
fault 0x0305 is raised for the post's client: its event is posted, and the client's step, if it is in one that is not aborted, is
aborted and names the fault (Faults and step abort). The fault names the register, the file, and the posting engine by its kind,
unit and die. Every other register keeps its count, and the post is on its way no longer. -/
def Obligations.TokenOverflow : Prop :=
  ∀ (k : Nat) (p : Post) (s : State), s.plates.posts[k]? = some p → p.file < 17 → p.reg < 256 →
    65535 < tokens s p.die.val p.file p.reg + p.count →
    ∃ n y detail, exec (.tokenArrive k) s = .next n ∧ n.plates.posts = s.plates.posts.eraseIdx k ∧
      tokens n p.die.val p.file p.reg = 65535 ∧
      (∀ d f r, f < 17 → r < 256 → ¬ (d = p.die.val ∧ f = p.file ∧ r = p.reg) → tokens n d f r = tokens s d f r) ∧
      Only (.plates :: accountParts) s y ∧ Raised y n 0x0305 p.client detail ∧
      detail % 2 ^ 8 = p.reg ∧ detail / 2 ^ 8 % 2 ^ 5 = p.file ∧ detail / 2 ^ 13 % 2 ^ 4 = engCode p.eng ∧
      detail / 2 ^ 17 % 2 ^ 4 = engUnit p.eng ∧ detail / 2 ^ 21 = engDie p.eng

/-- Hatch and Counterproof commands, from the state of their issue. HCONV and CPT whose regions, multiplier, handles and, for HCONV,
records meet R140 (every condition named here) go to work with the entries that their issue read, and stay in progress; so does an HSTAT whose
region and slot do. Each is refused otherwise: its ILLEGAL bit, its event, its output tokens (R5, R140, R141, R148). HCTX sets
the draw context of the drain lane of its tile, and of no other (R142). HSNAP of an owned slot writes, unless NOCOPY, the slot's 74 words
to its handle, then clears W1 to W73 with CLEAR and sets HBASE with SETH, and completes (R147, R459). -/
def Obligations.HatchCommands : Prop :=
  ∀ (d : DieId) (u : Fin 4) (c : PCmd) (s : State),
    let e : Eng := .hatch d u
    let s1 := s.issued e c
    let w := s.issuedCmd e c
    let id := s.plates.nextId
    let cl := clientOn s d.val
    let own := d.val * 4096
    let name (i : Nat) : Nat × Entry := (own + fld (c.w 0) i 12, entryOf s1 w (own + fld (c.w 0) i 12))
    let src := name 0
    let dst := name 12
    let rcd := name 25
    let sa := hSrc c
    let da := hDst c
    let bytes := 4 * da.rows * hRecBlocks dst.2.fmtD da.cols
    let bspan := lineSpans 0 bytes |>.map fun sp => (addrOf rcd.2 d.val sp.1, sp.2)
    let goodConv := 1 ≤ sa.rows ∧ 1 ≤ sa.cols ∧ sa.cols ≤ 65536 ∧ goodMult (BitVec.ofNat 32 (fld (c.w 3) 32 32)) = true ∧
      srcReserved cl src.2 sa = false ∧ dstReserved cl dst.2 da (c.w 4) = false ∧
      spansMeet (areaSpans src.1 src.2 sa) (areaSpans dst.1 dst.2 da) = false ∧
      (bit (c.w 0) 24 = true → rcd.2.ownedBy cl = true ∧ bytes ≤ rcd.2.len ∧
        spansMeet bspan (areaSpans src.1 src.2 sa) = false ∧ spansMeet bspan (areaSpans dst.1 dst.2 da) = false)
    let goodStat := 1 ≤ sa.rows ∧ 1 ≤ sa.cols ∧ sa.cols ≤ 65536 ∧ srcReserved cl src.2 sa = false ∧
      slotOwned s1 cl (fld (c.w 0) 12 10) = true
    let works (n : State) (j : HJob) : Prop := n.plates = s1.plates ∧ findFlight n id = some (s.flight e c) ∧
      getHatch n d.val u.val = some j ∧ (∀ k v, unitKey k v ≠ unitKey d.val u.val → getHatch n k v = getHatch s k v) ∧
      n.units = { s.units with hatch := n.units.hatch } ∧ Only (.units :: .plates :: accountParts) s n
    let slot := fld (c.w 0) 0 10
    let off := fld (c.w 1) 0 36
    let buf := own + fld (c.w 0) 12 12
    let ent := entryOf s1 w buf
    let goodSnap := slotOwned s1 cl slot = true ∧ (bit (c.w 0) 40 = false → ent.ownedBy cl = true ∧ off % 8 = 0 ∧ off + 592 ≤ ent.len)
    s.Issues e c →
    (goodConv → ∃ n, exec (.hconv d u c) s = .next n ∧
      works n { id := id, cmd := c, src := src, dst := some dst, rcd := if bit (c.w 0) 24 then some rcd else none }) ∧
    (¬ goodConv → ∃ n, exec (.hconv d u c) s = .next n ∧ RefusedCmd s n e c) ∧
    (goodStat → ∃ n, exec (.hstat d u c) s = .next n ∧ works n { id := id, cmd := c, src := src }) ∧
    (¬ goodStat → ∃ n, exec (.hstat d u c) s = .next n ∧ RefusedCmd s n e c) ∧
    (let t : TileId := Fin.ofNat 64 (16 * d.val + 4 * u.val + fld (c.w 0) 0 2)
     ∃ n, exec (.hctx d u c) s = .next n ∧ getLane n t = { getLane s t with c0 := c.w 1, c1 := c.w 2 } ∧
      (∀ v : TileId, v ≠ t → getLane n v = getLane s v) ∧ Finished s1 n id ∧
      n.units = { s.units with lanes := n.units.lanes } ∧ Only (.units :: .plates :: accountParts) s n) ∧
    (goodSnap → ent.placed → ∃ n y, exec (.hsnap d u c) s = .next n ∧
      (bit (c.w 0) 40 = true → y = s1) ∧
      (bit (c.w 0) 40 = false → WroteBuf s1 y buf ent off ((List.range 74).flatMap fun k => leBytes 8 (getReg s (statBlk d.val slot (8 * k))).toNat)) ∧
      (∀ k, 1 ≤ k → k < 74 → getReg n (statBlk d.val slot (8 * k)) =
        if bit (c.w 0) 10 = true then 0 else getReg y (statBlk d.val slot (8 * k))) ∧
      (getReg n (statBlk d.val slot 0) =
        let v := if bit (c.w 0) 10 = true then setFld (getReg y (statBlk d.val slot 0)) 16 1 0 else getReg y (statBlk d.val slot 0)
        if bit (c.w 0) 11 = true then setFld v 0 16 (fld (c.w 0) 24 16) else v) ∧
      Completed y n id ∧ Only (.plates :: accountParts) y n) ∧
    (¬ goodSnap → ∃ n, exec (.hsnap d u c) s = .next n ∧ RefusedCmd s n e c)

/-- A Hatch unit's command lane works chunk by chunk: up to 512 columns of a row, in row order (R141). A chunk whose ring slots are ready reads
its elements times the multiplier, every byte of memory as it was. HSTAT measures them; HCONV narrows them at their place of the
destination, draws by its coordinates (R135, R136), writes elements and block scales, and, when it keeps no records, nothing
else. After the last chunk the unit is free and the command completes with its statistics folded; before it, the next chunk stands.
A chunk that is not ready waits, charged to code 0x0F (R177). -/
def Obligations.HatchChunks : Prop :=
  ∀ (d : DieId) (u : Fin 4) (s : State) (j : HJob), getHatch s d.val u.val = some j →
    let e : Eng := .hatch d u
    let cl := clientOn s d.val
    let sa := hSrc j.cmd
    let per := cdiv sa.cols 512
    let r := j.chunk / per
    let c := j.chunk % per * 512
    let n := min 512 (sa.cols - c)
    let mult := if j.cmd.opc = 1 then (f32 (BitVec.ofNat 32 (fld (j.cmd.w 3) 32 32))).toRat else 1
    let read := readVals true d.val u.val cl j.src.1 j.src.2 (sa.row + r) (sa.col + c) n mult s
    (hatchReady s j = false → exec (.hatchChunk d u) s = .next (charge e 0x0F s)) ∧
    (hatchReady s j = true → j.dst = none → ∃ n' y, exec (.hatchChunk d u) s = .next n' ∧ SameBytes s y ∧ n'.mem = y.mem ∧
      Only (.units :: .plates :: accessParts) s n' ∧
      (if j.chunk + 1 = per * sa.rows then getHatch n' d.val u.val = none ∧ Finished s n' j.id
        else getHatch n' d.val u.val = some { j with chunk := j.chunk + 1, fold := j.fold.add { measure read.1 with srcViols := read.2.1 } } ∧
          n'.plates = s.plates)) ∧
    (∀ dn de, hatchReady s j = true → j.dst = some (dn, de) → de.placed → ∃ n' y m, exec (.hatchChunk d u) s = .next n' ∧
      SameBytes s y ∧ Only accessParts s y ∧ Only (.units :: .plates :: .cat :: accessParts) s n' ∧
      WroteRun y m dn de ((hDst j.cmd).row + r) ((hDst j.cmd).col + c)
        (narrowAt s cl de ⟨j.cmd.w 4, j.cmd.w 5⟩ ((hDst j.cmd).row + r) ((hDst j.cmd).col + c) read.1) ∧
      (j.rcd = none → n'.mem = m.mem) ∧
      (if j.chunk + 1 = per * sa.rows then getHatch n' d.val u.val = none ∧ Finished s n' j.id
        else ∃ k, getHatch n' d.val u.val = some k ∧ k.id = j.id ∧ k.cmd = j.cmd ∧ k.src = j.src ∧ k.dst = j.dst ∧ k.rcd = j.rcd ∧
          k.chunk = j.chunk + 1 ∧ n'.plates = s.plates))

/-- A drain lane writes the pair it holds once its destination's ring slots are ready (R97, R136): each row, narrowed at its place with draws of the
context latched with the drain's first pair (R136, R142), one row after the other, and nothing else in memory. With the last
pair the lane is empty, its fold and flags are spent; before it, the lane keeps the drain's fold so far. Slots that are not ready hold it, charged to code
0x0F. A lane without a pair does nothing. -/
def Obligations.DrainLanes : Prop :=
  ∀ (t : TileId) (s : State),
    let d := tileDie t
    let e : Eng := .hatch (Fin.ofNat 4 d) (Fin.ofNat 4 (t.val % 16 / 4))
    let cl := clientOn s d
    let lane := getLane s t
    (lane.offer = none → exec (.hatchDrainPair t) s = .next s) ∧
    (∀ p, lane.offer = some p → p.rows.all (fun r => rowsReady s p.name p.ent r.1 1 true) = false →
      exec (.hatchDrainPair t) s = .next (charge e 0x0F s)) ∧
    (∀ p, lane.offer = some p → p.rows.all (fun r => rowsReady s p.name p.ent r.1 1 true) = true → p.ent.placed →
      let x : Dctx := if p.first then ⟨lane.c0, lane.c1⟩ else ⟨lane.l0, lane.l1⟩
      let out (row : Nat) (vals : List DVal) : RowOut := narrowAt s cl p.ent x row p.col vals
      ∃ n, exec (.hatchDrainPair t) s = .next n ∧ WroteRuns p.name p.ent p.col out p.rows s n ∧
        (∀ v : TileId, v ≠ t → getLane n v = getLane s v ∧ getTile n v = getTile s v) ∧
        Only (.units :: .tiles :: .plates :: .cat :: accessParts) s n ∧
        (p.last = true → getLane n t = { lane with l0 := x.d0, l1 := x.d1, offer := none, fold := {}, flags := 0 }) ∧
        (p.last = false → n.tiles = s.tiles ∧ n.plates = s.plates ∧ ∃ fl, getLane n t = { lane with
          l0 := x.d0, l1 := x.d1, offer := none, flags := fl,
          fold := (p.rows.map fun r => (out r.1 r.2).fold).foldl Fold.add (if p.first then {} else lane.fold) }))

/-- A Counterproof engine (R148, R149). A CPT that meets R140 joins its engine's commands; another is refused. A cycle of CPT_LINE writes a
destination line of the first command once all its source lines are in and the line's ring slot is EMPTY: the transposed line, narrowed
at its place, with draws of its coordinates, written as elements and block scales and nothing else in memory; with its last line the command completes and
its block is counted. In the same cycle it reads a source line of the first of its two commands at work that still reads, where the slot is
FULL. When neither can be done the cycle is charged to code 0x0F and nothing else changes; an engine without commands does nothing. -/
def Obligations.CounterproofCommands : Prop :=
  (∀ (d : DieId) (u : Fin 4) (c : PCmd) (s : State),
    let e : Eng := .cpt d u
    let s1 := s.issued e c
    let w := s.issuedCmd e c
    let id := s.plates.nextId
    let cl := clientOn s d.val
    let name (i : Nat) : Nat × Entry := (d.val * 4096 + fld (c.w 0) i 12, entryOf s1 w (d.val * 4096 + fld (c.w 0) i 12))
    let src := name 0
    let dst := name 12
    let good := 1 ≤ cptR c ∧ cptR c ≤ 256 ∧ 1 ≤ cptC c ∧ cptC c ≤ 256 ∧ goodMult (BitVec.ofNat 32 (fld (c.w 2) 32 32)) = true ∧
      srcReserved cl src.2 (cptSrc c) = false ∧ dstReserved cl dst.2 (cptDst c) (c.w 3) = false ∧
      spansMeet (areaSpans src.1 src.2 (cptSrc c)) (areaSpans dst.1 dst.2 (cptDst c)) = false
    s.Issues e c →
    (good → ∃ n, exec (.cpt d u c) s = .next n ∧ n.plates = s1.plates ∧ findFlight n id = some (s.flight e c) ∧
      getCpt n d.val u.val = getCpt s d.val u.val ++ [{ id := id, cmd := c, src := src, dst := dst }] ∧
      n.units = { s.units with cpt := n.units.cpt } ∧ Only (.units :: .plates :: accountParts) s n) ∧
    (¬ good → ∃ n, exec (.cpt d u c) s = .next n ∧ RefusedCmd s n e c)) ∧
  (∀ (d : DieId) (u : Fin 4) (s : State), getCpt s d.val u.val = [] → exec (.cptLine d u) s = .next s) ∧
  (∀ (d : DieId) (u : Fin 4) (s : State) (j : CJob) (rest : List CJob), getCpt s d.val u.val = j :: rest →
    let e : Eng := .cpt d u
    let cl := clientOn s d.val
    let wReady := cptR j.cmd ≤ j.lines.length ∧ rowsReady s j.dst.1 j.dst.2 ((cptDst j.cmd).row + j.outs) 1 true = true
    let reader := ((j :: rest).take 2).find? fun k => decide (k.lines.length < cptR k.cmd)
    let rReady (k : CJob) : Prop := reader = some k ∧ rowsReady s k.src.1 k.src.2 ((cptSrc k.cmd).row + k.lines.length) 1 false = true
    (wReady → j.dst.2.placed → ∃ n y m, exec (.cptLine d u) s = .next n ∧
      WroteRun s m j.dst.1 j.dst.2 ((cptDst j.cmd).row + j.outs) (cptDst j.cmd).col
        (narrowAt s cl j.dst.2 ⟨j.cmd.w 3, j.cmd.w 4⟩ ((cptDst j.cmd).row + j.outs) (cptDst j.cmd).col
          (j.lines.map fun l => nth DVal.nan l j.outs)) ∧ y.mem = m.mem ∧
      (if j.outs + 1 = (cptDst j.cmd).rows then getCpt y d.val u.val = rest ∧ Finished s y j.id
        else ∃ k, getCpt y d.val u.val = k :: rest ∧ k.id = j.id ∧ k.cmd = j.cmd ∧ k.src = j.src ∧ k.dst = j.dst ∧
          k.lines = j.lines ∧ k.outs = j.outs + 1 ∧ y.plates = s.plates) ∧
      n = charge e 0x00 ((cptRead d.val u.val cl y).getD y) ∧ SameBytes y ((cptRead d.val u.val cl y).getD y) ∧
      Only (.units :: .plates :: .cat :: accessParts) s n) ∧
    (∀ k, ¬ wReady → rReady k → ∃ n y, exec (.cptLine d u) s = .next n ∧
      let m := (f32 (BitVec.ofNat 32 (fld (k.cmd.w 2) 32 32))).toRat
      let read := readVals false d.val u.val cl k.src.1 k.src.2 ((cptSrc k.cmd).row + k.lines.length) (cptSrc k.cmd).col (cptSrc k.cmd).cols m s
      SameBytes s y ∧ n.mem = y.mem ∧ n.plates = s.plates ∧
      getCpt n d.val u.val = (j :: rest).map (fun i => if i.id = k.id then
        { i with lines := i.lines ++ [read.1], fold := { i.fold with srcViols := i.fold.srcViols + read.2.1 } } else i) ∧
      Only (.units :: accessParts) s n) ∧
    (¬ wReady → (∀ k, ¬ rReady k) → exec (.cptLine d u) s = .next (charge e 0x0F s)))

/-- Drains (R76 to R78, R80, R94, R104, R127, R128, R137). AUTO_DRAIN starts the next automatic drain that is due. DRAIN_PAIR_READ reads the next
two entries, or the last one, of the drain at the head, every column of the bank under the upsets named, and clears what it reads
with CLR of an explicit drain; no other entry of the bank changes. A pair for the Hatch is offered to the tile's lane; one for the vector engine joins its
receive queue. A lane whose pair is not taken, and a full queue, hold the drain, charged to 0x0B and 0x0A; drains that may not start yet are charged
to 0x08. An explicit drain that its bank's record refuses at its start is refused, and leaves the drains. A drain to the vector engine
that has read its last entry leaves the drains, and an explicit one completes. -/
def Obligations.DrainReads : Prop :=
  ∀ (t : TileId) (us : List Upset) (s : State),
    let a := getArr s t
    let e : Eng := .array t
    let others (n : State) : Prop := ∀ v : TileId, v ≠ t → getTile n v = getTile s v
    ((∀ j ∈ a.passes, j.due = []) → exec (.autoDrain t) s = .next s) ∧
    (∀ j v due, a.passes.find? (fun j => !j.due.isEmpty) = some j → j.due = v :: due →
      ∃ n, exec (.autoDrain t) s = .next n ∧ getTile n t = { getTile s t with arr := { a with
          passes := a.passes.map (fun p => if p.id = j.id then { p with due := due } else p),
          drains := a.drains ++ [{ id := j.id, auto := true, bank := v.bank, first := 0, count := v.count, spec := j.w2, mult := j.tmult, row0 := v.row0, tags := v.tags, dest := j.dest }] } } ∧ others n ∧ Only [.tiles] s n) ∧
    (a.drains = [] → exec (.drainPairRead t us) s = .next s) ∧
    (a.drains ≠ [] → headDrain a = none → exec (.drainPairRead t us) s = .next (charge e 0x08 s)) ∧
    (∀ d, headDrain a = some d →
      let b := getBank a d.bank
      let lane := getLane s t
      let queue := (getVec s t).queue
      let starts := d.started = false ∧ d.auto = false
      (∀ f, starts → drainReserved b d = true → findFlight s d.id = some f → hdrReserved f.eng f.win.cmd = false →
        ∃ n, exec (.drainPairRead t us) s = .next n ∧ Finished s n d.id ∧
          bit (getReg n (illegalBit f.eng f.win.cmd).1) (illegalBit f.eng f.win.cmd).2 = true ∧
          getTile n t = { getTile s t with arr := { a with drains := a.drains.filter fun x => !sameDrain x d } } ∧ others n ∧
          Only (.tiles :: .plates :: accountParts) s n) ∧
      (∀ r, b.record = some r → ¬ (starts ∧ drainReserved b d = true) →
        let k := min 2 (d.count - d.done)
        let f := d.first + d.done
        let rows := (List.range k).map fun i => (List.range r.cols).map fun c => upsetEntry d.bank c (f + i) us (getAcc b c (f + i))
        let clear := specClr d.spec = true ∧ d.auto = false
        let read (n : State) : Prop := ∃ y, getBank (getArr n t) d.bank = y ∧ y.record = b.record ∧ y.ufl = b.ufl ∧
          (∀ i c, i < k → c < r.cols → getAcc y c (f + i) = if clear then {} else upsetEntry d.bank c (f + i) us (getAcc b c (f + i))) ∧
          ∀ key, (∀ i c, i < k → c < r.cols → key ≠ c * 256 + (f + i)) → mget {} y.ents key = mget {} b.ents key
        let d1 := { d with done := d.done + k, started := true }
        let moved := a.drains.map fun x => if sameDrain x d then d1 else x
        (specDest d.spec = 0 → lane.offer.isSome = true → exec (.drainPairRead t us) s = .next (charge e 0x0B s)) ∧
        (specDest d.spec ≠ 0 → 4 ≤ queue.length → exec (.drainPairRead t us) s = .next (charge e 0x0A s)) ∧
        (specDest d.spec = 0 → lane.offer = none → ∃ n, exec (.drainPairRead t us) s = .next n ∧
          getLane n t = { lane with offer := some (drainPair d b r rows k) } ∧ (∀ v : TileId, v ≠ t → getLane n v = getLane s v) ∧
          read n ∧ (getArr n t).drains = moved ∧ getVec n t = getVec s t ∧ others n ∧
          Only (.units :: .tiles :: .clients :: accountParts) s n) ∧
        (specDest d.spec ≠ 0 → queue.length < 4 → ∃ n, exec (.drainPairRead t us) s = .next n ∧
          getVec n t = { getVec s t with queue := queue ++ [drainSlot d.spec r (f32 d.mult).toRat rows] } ∧
          read n ∧ others n ∧ Only (.tiles :: .plates :: .clients :: accountParts) s n ∧
          (d.done + k ≠ d.count → (getArr n t).drains = moved ∧ n.plates = s.plates) ∧
          (d.done + k = d.count → (getArr n t).drains = moved.filter (fun x => !sameDrain x d1) ∧
            (d.auto = false → ∃ y, y.plates = s.plates ∧ y.clients = n.clients ∧ Completed y n d.id)))))

/-- DMA commands at their issue, and the end of a descriptor (R151 to R155). A DMADESC that R153, R168, R282 and R395 do not reserve joins its
queue with the entries its issue read; another is refused. A DMAMARK with 1 to 64 as its high mark and a lower low mark, of 63 at most, joins its queue; marks
that then stand at the queue's head set its marks, the last of them last, and complete (another mark is refused). DMA_DESC_COMPLETE takes the descriptor at
the head, once it is done, out of its queue: it completes, a COMPARE leaves how many units differed and the first of them, all ones where
none did (R152), and marks behind it take effect; one that is not done stays. -/
def Obligations.DmaQueues : Prop :=
  ∀ (d : DieId) (e : Fin 2) (s : State),
    let settled (k : Nat) (q : DmaQ) (n : State) : Prop :=
      (getDma n k).descs = q.descs.dropWhile (·.mark) ∧ (getDma n k).staged = q.staged ∧ (getDma n k).burst = q.burst ∧
      ((getDma n k).high, (getDma n k).low) = (match (q.descs.takeWhile (·.mark)).getLast? with
        | some m => (fld m.w0 3 7, fld m.w0 10 7)
        | none => (q.high, q.low)) ∧
      (∀ m ∈ q.descs.takeWhile (·.mark), findFlight n m.id = none) ∧ ∀ j, j ≠ k → getDma n j = getDma s j
    (∀ c : PCmd, s.Issues (.dma d e) c →
      let s1 := s.issued (.dma d e) c
      let w := s.issuedCmd (.dma d e) c
      let id := s.plates.nextId
      let x0 : DDesc := { id := id, mark := false, w0 := c.w 0, w1 := c.w 1, w2 := c.w 2, w3 := c.w 3, w4 := c.w 4 }
      let x := { x0 with src := w.ent x0.sname, dst := w.ent x0.dname }
      let k := dmaKey d.val e.val (fld (c.w 0) 3 3)
      let h := dmaKey d.val e.val (fld (c.w 0) 0 3)
      let good := 1 ≤ fld (c.w 0) 3 7 ∧ fld (c.w 0) 3 7 ≤ 64 ∧ fld (c.w 0) 10 7 ≤ 63 ∧ fld (c.w 0) 10 7 < fld (c.w 0) 3 7
      (dmaReserved s1 (clientOn s d.val) d.val e.val x = false → ∃ n, exec (.dmadesc d e c) s = .next n ∧
        getDma n k = { getDma s k with descs := (getDma s k).descs ++ [x] } ∧ (∀ j, j ≠ k → getDma n j = getDma s j) ∧
        n.plates = s1.plates ∧ findFlight n id = some (s.flight (.dma d e) c) ∧ Only (.units :: .plates :: accountParts) s n) ∧
      (dmaReserved s1 (clientOn s d.val) d.val e.val x = true → ∃ n, exec (.dmadesc d e c) s = .next n ∧ RefusedCmd s n (.dma d e) c) ∧
      (good → ∃ n, exec (.dmamark d e c) s = .next n ∧
        settled h { getDma s h with descs := (getDma s h).descs ++ [{ id := id, mark := true, w0 := c.w 0 }] } n ∧
        Only (.units :: .plates :: accountParts) s n) ∧
      (¬ good → ∃ n, exec (.dmamark d e c) s = .next n ∧ RefusedCmd s n (.dma d e) c)) ∧
    (∀ q : Fin 8,
      let k := dmaKey d.val e.val q.val
      let b := dmaQBlk d.val e.val q.val 0
      ((getDma s k).descs = [] → exec (.dmaDescComplete d e q) s = .next s) ∧
      (∀ x l, (getDma s k).descs = x :: l →
        (descDone s x = false → exec (.dmaDescComplete d e q) s = .next s) ∧
        (descDone s x = true → ∃ n, exec (.dmaDescComplete d e q) s = .next n ∧ findFlight n x.id = none ∧
          settled k { getDma s k with descs := l } n ∧
          (x.op = 3 → getReg n (b + 8) = BitVec.ofNat 64 x.differ ∧ getReg n (b + 0x10) = (x.first.map (BitVec.ofNat 64)).getD (BitVec.allOnes 64)) ∧
          (∀ a, (x.op = 3 → a ≠ b + 8 ∧ a ≠ b + 0x10) → getReg n a = getReg s a) ∧
          Only [.regs, .plates, .units, .clients, .fabric] s n)))

/-- DMA engines at work (R152, R154, R157). A read takes up to 256 B of units of the first descriptor that has units left, while the staging buffer's
64 KiB take them: FILL stages its word, the others the bytes of their source, each unit with its poison, and no byte of memory
changes; a source ring slot that is not FULL holds it, charged to 0x0F. The writer of a queue starts and stops by its marks (a remote one by its window); while it
does not burst it waits, charged to 0x15, or to 0x14 for a window not open, if units are staged. A local writer that bursts writes or compares staged units
one after the other, up to 256 B: it ends at a unit of another descriptor, at one whose ring slot is not ready, or at a poisoned unit, which stops the
descriptor and drops its units; what it has done leaves the buffer and is counted. A copied unit goes to its place in its buffer, a compared one
changes no memory and counts if its bytes differ. -/
def Obligations.DmaWork : Prop :=
  ∀ (d : DieId) (e : Fin 2) (q : Fin 8) (s : State),
    let k := dmaKey d.val e.val q.val
    let y := getDma s k
    let g : Eng := .dma d e
    let others (n : State) : Prop := ∀ j, j ≠ k → getDma n j = getDma s j
    (y.reader = none → exec (.dmaReadIssue d e q) s = .next s) ∧
    (∀ r, y.reader = some r →
      let m := min (256 / r.unit) (r.count - r.nRead)
      let fits := y.fill + m * r.unit ≤ 65536
      let took (n : State) (us : List (Nat × List Byte × Bool)) : Prop :=
        getDma n k = { y.put { r with nRead := r.nRead + m } with staged := y.staged ++ us } ∧ others n ∧ (∀ a, n.peek a = s.peek a) ∧ n.plates = s.plates
      let ready := readReady s r.sname r.src (r.sAt r.nRead) (if r.sfix then r.unit else m * r.unit)
      (¬ fits → exec (.dmaReadIssue d e q) s = .next s) ∧
      (fits → r.op = 2 → ∃ n, exec (.dmaReadIssue d e q) s = .next n ∧ Only (.units :: accountParts) s n ∧
        took n (List.replicate m (r.id, (List.range (r.unit / 8)).flatMap (fun _ => leBytes 8 r.w4.toNat), false))) ∧
      (fits → r.op ≠ 2 → ready = false → exec (.dmaReadIssue d e q) s = .next (charge g 0x0F s)) ∧
      (fits → r.op ≠ 2 → ready = true → ∃ n, exec (.dmaReadIssue d e q) s = .next n ∧ Only (.units :: accessParts) s n ∧
        took n ((List.range m).map fun i => let bs := s.bytesOf r.src (r.sname / 4096) (r.sAt (r.nRead + i)) r.unit
          (r.id, plain bs, anyPoison bs)))) ∧
    (y.writer = none → exec (.dmaWriteUnits d e q) s = .next s) ∧
    (∀ x, y.writer = some x →
      let cl := flightClient s x.id d.val
      let b := bursting s cl y x
      (b = false → ∃ n, exec (.dmaWriteUnits d e q) s = .next n ∧ getDma n k = { y with burst := false } ∧ others n ∧ n.mem = s.mem ∧
        (let t := setDma k { y with burst := false } s
         n = if x.remote = true ∧ x.best = false ∧ slotLive s cl x.slot = false then charge g 0x14 t
           else if 0 < y.fill then charge g 0x15 t else t) ∧ Only (.units :: accountParts) s n) ∧
      (b = true → x.remote = false → ∃ n m z t, exec (.dmaWriteUnits d e q) s = .next n ∧ m ≤ 256 / x.unit ∧ m ≤ y.staged.length ∧
        (∀ u ∈ y.staged.take m, u.1 = x.id ∧ u.2.2 = false) ∧
        UnitsDone d.val cl ((y.staged.take m).map (·.2.1)) x (setDma k { y with burst := true } s) z t ∧
        (let stops := m < 256 / x.unit ∧ ∃ u, y.staged[m]? = some u ∧ u.1 = x.id ∧ (u.2.2 = true ∨ ∃ v, localUnit d.val cl z u.2.1 t = .stops v)
         (¬ stops → getDma n k = { y.put z with staged := y.staged.drop m, burst := true } ∧ n.mem = t.mem) ∧
         (stops → getDma n k = { (y.put z).put { z with stopped := true } with
          burst := true, staged := (y.staged.drop m).filter fun u => decide (u.1 ≠ z.id) })) ∧
        others n ∧ Only (.units :: .cat :: accessParts) s n) ∧
      (b = true → x.remote = true → ∃ n, exec (.dmaWriteUnits d e q) s = .next n ∧
        let h := headUnits x.id (256 / x.unit) y.staged
        let z := { x with nWritten := x.nWritten + h.1.length / x.unit }
        let stops := h.1.length / x.unit < 256 / x.unit ∧ ∃ u r, h.2 = u :: r ∧ u.1 = x.id ∧ u.2.2 = true
        (1 ≤ h.1.length / x.unit → ¬ stops → getDma n k = { y.put z with staged := h.2, burst := true } ∧
          n.fabric = (remoteUnits d e cl x h.1 (setDma k { y.put z with staged := h.2, burst := true } (setDma k { y with burst := true } s))).fabric) ∧
        n.mem = s.mem ∧ others n ∧ Only (.units :: .fabric :: accountParts) s n)) ∧
    (∀ (cl : Nat) (x : DDesc) (bs : List Byte),
      (x.op = 3 → readReady s x.dname x.dst (x.dAt x.nWritten) x.unit = true →
        let cs := s.bytesOf x.dst (x.dname / 4096) (x.dAt x.nWritten) x.unit
        anyPoison cs = false → ∃ t, SameBytes s t ∧ localUnit d.val cl x bs s = .done (if plain cs = bs then { x with nWritten := x.nWritten + 1 }
          else { x with nWritten := x.nWritten + 1, differ := x.differ + 1, first := some (x.first.getD x.nWritten) }) t) ∧
      (x.op ≠ 3 → x.dname / 4096 = d.val → x.dst.placed → writeReady s x.dname x.dst (x.dAt x.nWritten) x.unit = true →
        ∃ t, localUnit d.val cl x bs s = .done { x with nWritten := x.nWritten + 1 } t ∧
          WroteBuf s t x.dname x.dst (x.dAt x.nWritten) bs))

/-- Stream commands and the life of a descriptor (R196 to R200, R212, R213, R460). An SARM, or an SREARM with the fields it
inherits, that R196 to R200 and R168 do not reserve makes its descriptor active, with its pages, where the stream has none, and queues it otherwise, with pages of its
own only in overlap mode; a reserved one is refused, as is an SREARM of another format or of a stream that nothing armed. While the stream's queued place is taken, it is
faulted, an SRESET stands, or pages are short, the command waits, charged to 0x02 or 0x0E. SMODE sets the eight end modes and completes; a mode of 3 is reserved. SRESET waits
behind another; it takes effect once no issued command names the stream: descriptors, buffer, pages and fault are gone, and the commands of its descriptors complete with
it. A queued descriptor becomes active when the stream has none and its pages are free. A descriptor that has ended completes, and a queued one in re-arm or overlap mode is active at
once. -/
def Obligations.StreamCommands : Prop :=
  ∀ (t : TileId) (s : State),
    let e : Eng := .stream t
    let x := getStr s t
    let left (n : State) (y : StreamS) : Prop := getTile n t = { getTile s t with str := y } ∧ ∀ u : TileId, u ≠ t → getTile n u = getTile s u
    (∀ c : PCmd, s.Issues e c →
      let s1 := s.issued e c
      let w := s.issuedCmd e c
      let id := s.plates.nextId
      let cl := clientOn s (tileDie t)
      let k := fld (c.w 0) 0 6
      let st := getStrm x k
      let runs (n : State) : Prop := n.plates = s1.plates ∧ findFlight n id = some (s.flight e c) ∧ Only (.tiles :: .plates :: accountParts) s n
      let armed (n : State) (d : Desc) (a : Armed) : Prop := runs n ∧ left n (setStrm x k (if st.active = none
        then { st with active := some { d with paged := true }, last := some a }
        else { st with queued := some { d with paged := decide (d.mode = 2) }, last := some a }))
      (let mode := sarmMode x k
       let a := sarmWords c
       let d := mkDesc s1 t w id mode a
       (∀ code, armHold s t k (fld (c.w 0) 32 9) mode = some code → exec (.sarm t c) s = .next (charge e code s)) ∧
       (armHold s t k (fld (c.w 0) 32 9) mode = none → descReserved cl k d = false →
         ∃ n, exec (.sarm t c) s = .next n ∧ armed n d { a with fmt := d.ent.fmtWord }) ∧
       (armHold s t k (fld (c.w 0) 32 9) mode = none → descReserved cl k d = true →
         ∃ n, exec (.sarm t c) s = .next n ∧ RefusedCmd s n e c)) ∧
      (st.last = none → armHold s t k 0 (groupMode x k) = none → ∃ n, exec (.srearm t c) s = .next n ∧ RefusedCmd s n e c) ∧
      (∀ a0, st.last = some a0 →
        let mode := groupMode x k
        let a := srearmWords c a0
        let d := mkDesc s1 t w id mode a
        let good := descReserved cl k d = false ∧ d.ent.fmtWord = a.fmt
        (∀ code, armHold s t k (fld a0.w0 32 9) mode = some code → exec (.srearm t c) s = .next (charge e code s)) ∧
        (armHold s t k (fld a0.w0 32 9) mode = none → good → ∃ n, exec (.srearm t c) s = .next n ∧ armed n d a) ∧
        (armHold s t k (fld a0.w0 32 9) mode = none → ¬ good → ∃ n, exec (.srearm t c) s = .next n ∧ RefusedCmd s n e c)) ∧
      ((∀ g, g < 8 → fld (c.w 0) (2 * g) 2 ≠ 3) → ∃ n, exec (.smode t c) s = .next n ∧
        left n { x with modes := BitVec.ofNat 16 (fld (c.w 0) 0 16) } ∧ Finished s1 n id ∧ Only (.tiles :: .plates :: accountParts) s n) ∧
      ((∃ g, g < 8 ∧ fld (c.w 0) (2 * g) 2 = 3) → ∃ n, exec (.smode t c) s = .next n ∧ RefusedCmd s n e c) ∧
      (st.reset ≠ none → exec (.sreset t c) s = .next (charge e 0x02 s)) ∧
      (st.reset = none → ∃ n, exec (.sreset t c) s = .next n ∧ runs n ∧ left n (setStrm x k { st with reset := some id }))) ∧
    (∀ k : Fin 64,
      let st := getStrm x k.val
      let ids := (st.active.map (·.id)).toList ++ (st.queued.map (·.id)).toList
      (st.reset = none ∨ streamNamed s t k.val = true → exec (.sresetEffect t k) s = .next s) ∧
      (∀ id, st.reset = some id → streamNamed s t k.val = false → ∃ n, exec (.sresetEffect t k) s = .next n ∧
        left n { setStrm x k.val {} with reqs := x.reqs.filter fun r => !ids.contains r.id } ∧
        (∀ i, i = id ∨ i ∈ ids → findFlight n i = none) ∧ n.plates.tokens = s.plates.tokens ∧ Only [.tiles, .plates] s n) ∧
      (∀ q, st.active = none → st.queued = some q →
        (q.paged = true ∨ pagesFree x q.pages = true → ∃ n, exec (.descriptorActivate t k) s = .next n ∧
          left n (setStrm x k.val { st with active := some { q with paged := true, cycle0 := x.cycle }, queued := none }) ∧ Only [.tiles] s n) ∧
        (q.paged = false → pagesFree x q.pages = false → exec (.descriptorActivate t k) s = .next (charge e 0x0E s))) ∧
      (st.active ≠ none ∨ st.queued = none → exec (.descriptorActivate t k) s = .next s) ∧
      (∀ d, st.active = some d →
        (st.fault ≠ 0 ∨ descEnded d = false → exec (.descriptorEnd t k) s = .next s) ∧
        (st.fault = 0 → descEnded d = true → ∃ n, exec (.descriptorEnd t k) s = .next n ∧ Finished s n d.id ∧
          (let next := match st.queued with
            | some q => if q.mode = 1 ∨ q.mode = 2 then { st with active := some { q with paged := true }, queued := none } else { st with active := none }
            | none => { st with active := none }
           left n { setStrm x k.val next with reqs := x.reqs.filter fun r => decide (r.id ≠ d.id) }) ∧ Only [.tiles, .plates] s n)) ∧
      (st.active = none → exec (.descriptorEnd t k) s = .next s))

/-- Streams at work (R201 to R212). Among the streams that can use a grant, a rated one with the least time to exhaustion goes first, and a
background one only where no rated one can (R208). A cycle of grants places the records that fetch nothing, grants up to 8 lines, the first of them to that stream, and
changes no memory; with nothing to grant no request is added. Data that returns for a request in flight takes the request out and enters the bytes that its
handle then holds into its descriptor; while its ring slot is not FULL it waits, and data of a descriptor that is gone is dropped. The consuming read that ends a run of
a ring slot makes the slot EMPTY once every line of the run and its scales have returned and the slot is FULL (R209). A granted output line is
stored in its handle, the slots it completes become FULL, and the grant is used; it waits, charged to 0x0F, while its slot is not EMPTY; another die's window may refuse it, and then no memory
changes (R179, R206). A faulted stream writes nothing. -/
def Obligations.StreamWork : Prop :=
  (∀ x : StreamS,
    (∀ k tte, pickStream x = some (k, tte) → k < 64 ∧ (streamGrant x k).isSome = true ∧ tteOf x k = tte ∧
      ∀ j v, j < 64 → (streamGrant x j).isSome = true → tteOf x j = some v → ∃ w, tte = some w ∧ w ≤ v) ∧
    (pickStream x = none → ∀ j, j < 64 → streamGrant x j = none)) ∧
  ∀ (t : TileId) (s : State),
    let x := getStr s t
    let cl := clientOn s (tileDie t)
    (∃ n, exec (.streamGrant t) s = .next n ∧ StreamsOf t s n ∧ SameBytes s n ∧ Only (.tiles :: accountParts) s n ∧
      let y := getStr n t
      let x0 := getStr (settleStreams t s) t
      y.cycle = x.cycle + 1 ∧ y.modes = x.modes ∧
      (∀ k, getStrm x0 k = if k < 64 then (getStrm x k).settled else getStrm x k) ∧ x0.reqs = x.reqs ∧
      (∃ l, y.reqs = x.reqs ++ l ∧ l.length ≤ 8 ∧ ∀ k tte g r, pickStream x0 = some (k, tte) → streamGrant x0 k = some g → g.req = some r →
        [{ strm := k, id := g.d.id, kind := r : Req }] <+: l) ∧
      (pickStream x0 = none → y.reqs = x.reqs ∧ y.strms = x0.strms)) ∧
    (∀ k,
      (x.reqs[k]? = none → exec (.streamDataReturn t k) s = .next s) ∧
      (∀ r, x.reqs[k]? = some r → reqDesc x r = none → ∃ n, exec (.streamDataReturn t k) s = .next n ∧
        StreamsOf t s n ∧ getStr n t = { x with reqs := x.reqs.eraseIdx k } ∧ Only [.tiles] s n) ∧
      (∀ r q d, x.reqs[k]? = some r → reqDesc x r = some (q, d) →
        let b := reqRead t d r.kind
        (readReady s b.1 b.2.1 b.2.2.1 b.2.2.2 = false → exec (.streamDataReturn t k) s = .next s) ∧
        (readReady s b.1 b.2.1 b.2.2.1 b.2.2.2 = true → ∃ n, exec (.streamDataReturn t k) s = .next n ∧ StreamsOf t s n ∧ SameBytes s n ∧
          Only (.tiles :: accessParts) s n ∧
          let y := putDesc { x with reqs := x.reqs.eraseIdx k } r.strm q (reqDeliver d r.kind (s.bytesOf b.2.1 (b.1 / 4096) b.2.2.1 b.2.2.2))
          getStr n t = setStrm y r.strm (getStrm y r.strm).settled))) ∧
    ∀ k : Fin 64,
      let st := getStrm x k.val
      (∀ d0, st.active = some d0 → (d0.consume = false ∨ d0.ent.slots = 0) → exec (.streamConsumingRead t k) s = .next s) ∧
      (st.active = none → exec (.streamConsumingRead t k) s = .next s) ∧
      (∀ d0, st.active = some d0 → d0.consume = true → d0.ent.slots ≠ 0 →
        let d := skipRowless d0
        let ends (r e : Nat) : Prop := recRow d d.nCons = some (.row r) ∧ runEnd d d.nCons = some e ∧ returnedTo d e = true ∧
          scalesReturned x d e = true ∧ slotFull s d.name (slotOfRow d r) = true
        (∀ r e, ends r e → ∃ n, exec (.streamConsumingRead t k) s = .next n ∧ StreamsOf t s n ∧
          getStr n t = putDesc x k.val false { d with nCons := e } ∧ SameBytes s n ∧
          SlotsSet s n d.name d.ent ((slotOfRow d r + 1) * d.ent.slotBytes - 8) 8 false ∧ Only (.tiles :: .cat :: accessParts) s n) ∧
        ((¬ ∃ r e, ends r e) → ∃ n, exec (.streamConsumingRead t k) s = .next n ∧ StreamsOf t s n ∧
          getStr n t = putDesc x k.val false d ∧ Only [.tiles] s n)) ∧
      (st.fault ≠ 0 ∨ st.active = none → exec (.streamOutputWrite t k) s = .next s) ∧
      (∀ d q v p rest, st.fault = 0 → st.active = some d → d.dir = 1 →
        ((q = false ∧ v = d ∧ d.out = p :: rest) ∨ (q = true ∧ d.out = [] ∧ st.queued = some v ∧ v.out = p :: rest)) →
        (v.granted = 0 → exec (.streamOutputWrite t k) s = .next s) ∧
        (0 < v.granted → writeReady s v.name v.ent p.off p.bytes.length = false →
          exec (.streamOutputWrite t k) s = .next (charge (.stream t) 0x0F s)) ∧
        (0 < v.granted → writeReady s v.name v.ent p.off p.bytes.length = true → ∃ n, exec (.streamOutputWrite t k) s = .next n ∧
          StreamsOf t s n ∧ getStr n t = putDesc x k.val q { v with out := rest, granted := v.granted - 1 } ∧
          Only (.tiles :: .cat :: accessParts) s n ∧
          let own := v.name / 4096 = tileDie t
          let cur := if own then v.ent else getEnt s v.name
          let ok := own ∨ windowAdmits s cur { mod := moduleId s, die := Fin.ofNat 4 (tileDie t), eng := 2 } p.off p.bytes.length = true
          (ok → SlotsSet s n v.name cur p.off p.bytes.length true ∧ (cur.placed → StoredAt s n cur (v.name / 4096) p.off p.bytes)) ∧
          (¬ ok → SameBytes s n ∧ n.cat = s.cat)))

/-- The stream watchdog of a die and client (R214, R215). Once its bound has passed while a stream of one of the die's tiles or a die engine is blocked, and nothing holds
the watchdog still, every blocked stream is marked faulted, and no other stream; the deadlock fault 0x0304 is raised for the client, with the first tile that has blocked
streams in its detail. Otherwise nothing happens. -/
def Obligations.StreamWatchdog : Prop :=
  ∀ (d : DieId) (c : ClientId) (s : State),
    let held := watchdogHeld s d.val c.val = true ∨ hasDie (getClient s c.val) d.val = false
    let idle := (∀ t ∈ tilesOf d.val, blockedStreams s t = []) ∧ slotBlockedEngine s d = false
    (held ∨ idle → exec (.streamWatchdogFire d c) s = .next s) ∧
    (¬ (held ∨ idle) → ∃ n y detail, exec (.streamWatchdogFire d c) s = .next n ∧ Raised y n 0x0304 c.val detail ∧
      Only [.regs, .dict, .sat, .tiles, .host, .logs] s y ∧
      (∀ t ∈ tilesOf d.val, ∀ k, getStrm (getStr n t) k = if k ∈ blockedStreams s t then { getStrm (getStr s t) k with fault := 3 } else getStrm (getStr s t) k) ∧
      (∀ t ∉ tilesOf d.val, getTile n t = getTile s t) ∧
      (∀ t, (tilesOf d.val).find? (fun t => decide (blockedStreams s t ≠ [])) = some t → detail % 2 ^ 6 = t.val) ∧
      ((∀ t ∈ tilesOf d.val, blockedStreams s t = []) → detail = 16 * d.val))

/-- The formats governor (R254, R256, R260 to R263). GOV_LATCH, once the layer's register has its count on a die of MDIES that has not latched in this step, takes the count and latches
the layer's tensor records of that die, one after the other: flags and AMAX enter the contribution, each slot goes to its snapshot and is cleared, and the die is marked as latched; a
record's later latch finds its slot as the earlier ones left it. VOTE_SETTLE, once the combined record has come down and the layer has no vote yet, settles it: unless a vote carries,
or where every rewrite of Q and V that the vote asks for is accepted, it marks RESOLVED, with VOTE as the vote went, in the layer's state and posts one token to each file of the vote on each die of MDIES; a
refused rewrite leaves the vote open and posts none. A vote carries only where the governor and the layer are enabled, the record shows a misfit, and the rung is below the top.
GOV_END_OF_STEP, once in a step and with every layer's vote settled, carries out the layers' choices where the governor is enabled, and where no write was refused sets the
commit of every die at the first tick of the next step, or at the next tick where that one has passed (R176). Otherwise none of the three does anything. -/
def Obligations.Governor : Prop :=
  ∀ (c : ClientId) (s : State),
    let st? := (getClient s c.val).step
    let g? := govOf s c.val
    ((st? = none ∨ g? = none) → (∀ d l, exec (.govLatch c d l) s = .next s) ∧ (∀ l, exec (.voteSettle c l) s = .next s) ∧
      exec (.govEndOfStep c) s = .next s) ∧
    ∀ st g, st? = some st → g? = some g →
      (∀ (d : DieId) (l : Nat),
        let v := mget {} st.votes l
        let reg := layerMtReg s g l
        let cnt := layerMtCnt s g l
        let due := l < govNL s g ∧ st.aborted = false ∧ (layerMDies s g l).testBit d.val = true ∧ v.dies.testBit d.val = false ∧ cnt ≤ tokens s d.val 16 reg
        (¬ due → exec (.govLatch c d l) s = .next s) ∧
        (due → ∃ n w y z, exec (.govLatch c d l) s = .next n ∧ Only [.plates] s y ∧
          tokens n d.val 16 reg = tokens s d.val 16 reg - cnt ∧
          (∀ d' f r, f < 17 → r < 256 → ¬ (d' = d.val ∧ f = 16 ∧ r = reg) → tokens n d' f r = tokens s d' f r) ∧
          Latched c.val g d.val ((layerTensors s g l).filter fun r => decide (tDie r.2 = d.val)) v y w z ∧ Only [.clients] z n ∧
          Stepped s n c.val (fun st => { st with votes := mset {} st.votes l { w with dies := w.dies ||| 2 ^ d.val } }) ∧
          Only (.plates :: accessParts) s n)) ∧
      (∀ l : Nat,
        let ctl := mget {} st.ctl (layerVSlot s g l)
        let w0 := layerState s g l 0
        let due := l < govNL s g ∧ ctl.down = true ∧ bit w0 2 = false ∧ st.aborted = false
        let rcd := mget [] ctl.recs (layerVPos s g l)
        let flags := nth 0 rcd 0 % 16
        let amax := (List.range 4).map fun i => nth 0 rcd (1 + i)
        let vote := govEnable s && layerEnable s g l && decide (flags % 4 ≠ 0) && decide (fld w0 0 2 < layerTop s g l)
        (¬ due → exec (.voteSettle c l) s = .next s) ∧
        (due → ∃ n z, exec (.voteSettle c l) s = .next n ∧
          (vote = false → z.cat = s.cat ∧ z.plates = s.plates ∧ Stepped s z c.val id) ∧ Only (.cat :: .plates :: accessParts) s z ∧
          (n = z ∧ vote = true ∨
            ∃ (y : State) (x : Word), bit x 2 = true ∧ bit x 3 = vote ∧ (∀ i, i ≠ 2 → i ≠ 3 → bit x i = bit (layerState z g l 0) i) ∧
              ((getEnt z g).placed → StoredAt z y (getEnt z g) (g / 4096) (govStOff z g + 32 * l) (leBytes 8 x.toNat)) ∧ Only accessParts z y ∧
              Only [.plates] y n ∧ n.plates = { z.plates with posts := z.plates.posts ++
                (((List.finRange 4).filter fun d => (layerMDies y g l).testBit d.val).flatMap fun d =>
                  ((List.range 16).filter (fun t => (layerVFiles y g l).testBit t) ++ (if layerVDie y g l then [16] else [])).map fun f =>
                    { die := d, file := f, reg := layerVtReg y g l, count := 1, eng := .coll d, client := c.val }) }))) ∧
      (let due := st.govDone = false ∧ st.aborted = false ∧ ∀ l, l < govNL s g → bit (layerState s g l 0) 2 = true
       let p : Bool × State := if govEnable s then (List.range (govNL s g)).foldl (fun a l => endLayer c.val g l a) (true, s) else (true, s)
       let T := stepBase s c.val + (shareOf s c.val).stepLen
       let late := T ≤ planTick p.2 c.val ∧ ∀ r, (getClient p.2 c.val).run = some r → runBegun p.2 r = true
       (¬ due → exec (.govEndOfStep c) s = .next s) ∧
       (due → ∃ n, exec (.govEndOfStep c) s = .next n ∧
         if p.1 = true then
           Only [.clients, .cat, .dict, .free, .host, .logs] p.2 n ∧ Stepped p.2 n c.val (fun st => { st with govDone := true }) ∧
           n.cat = { p.2.cat with commits := p.2.cat.commits ++ (List.finRange 4).map fun d =>
             { die := d, client := c.val, tick := if late then planTick p.2 c.val + 1 else T } }
         else Only [.dict, .free] p.2 n))

/-- Flits and recovery (R270 to R273). A port that is not up sends nothing. One that is up sends the flit that its peer asks for again, marked as a resend, then what a recovery
resends, in order; after 4,095 flits an idle flit as a marker; else link control, up to 15 messages of its queue, the first timetabled flit whose slot is live, the first
best-effort flit, or an idle flit, which takes no sequence number; with 512 flits unacknowledged it sends nothing but idle flits. Each new flit takes the next sequence number and enters the replay buffer. A flit
received that fails its check is discarded and NAKed once; a resend that fails puts the port in recovery. A good one takes what it acknowledges out of the replay buffer; an
idle flit does nothing else, the next one in sequence is delivered, and the held ones after it, one ahead of it by up to 512 is held, and any other is dropped. A port enters recovery only from up,
and leaves it up, with every unacknowledged flit to be sent again in order; the third recovery within 1 s fails it. -/
def Obligations.Flits : Prop :=
  ∀ (p : PortId) (s : State),
    let x := getPort s p.val
    let st := portState s p.val
    let again := x.resend.bind fun q => x.replay.find? fun f => decide (f.seq = q)
    let x0 : Port := { x with resend := none }
    let ready : Flit → Bool := fun f => slotLive s f.client f.slot && !aborted s f.client
    let frame (n : State) : Prop := Only [.fabric, .regs, .dict, .sat, .ledger, .host, .logs, .served, .free] s n
    (st ≠ 2 → exec (.flitSend p) s = .next s ∧ ∀ f, exec (.flitReceive p f) s = .next s) ∧
    (st = 2 →
      (∀ f, again = some f → ∃ n, exec (.flitSend p) s = .next n ∧ PortIs s n p.val (x0.sent f true s.free) ∧ frame n) ∧
      (again = none → ∀ f l, x.again = f :: l → ∃ n, exec (.flitSend p) s = .next n ∧
        PortIs s n p.val (({ x0 with again := l } : Port).sent f false s.free) ∧ Only [.fabric, .free] s n) ∧
      (again = none → x.again = [] →
        let idle (y : Port) (n : State) : Prop := Only [.fabric, .free] s n ∧ ∃ q, q < 4096 ∧ PortIs s n p.val (y.sent { ftype := 0, seq := q } false (s.free + 1))
        (4095 ≤ x.since → ∃ n, exec (.flitSend p) s = .next n ∧ Only [.fabric, .free] s n ∧
          ∃ q, q < 4096 ∧ PortIs s n p.val { ({ x0 with marks := x.marks + 1 } : Port).sent { ftype := 0, seq := q } false (s.free + 1) with since := 0 }) ∧
        (x.since < 4095 →
          (512 ≤ x.replay.length → ∃ n, exec (.flitSend p) s = .next n ∧ idle x0 n) ∧
          (x.replay.length < 512 →
            (x.ctl ≠ [] → ∃ n, exec (.flitSend p) s = .next n ∧ Only [.fabric, .free] s n ∧
              PortIs s n p.val (({ x0 with ctl := x.ctl.drop 15 } : Port).sentNew { ftype := 3, data := msgBytes (x.ctl.take 15) } s.free)) ∧
            (x.ctl = [] → ∀ f, x.tt.find? ready = some f → ∃ m, exec (.flitSend p) s = .next (pumpSends m) ∧ frame m ∧
              PortIs s m p.val (({ x0 with tt := x.tt.erase f } : Port).sentNew f s.free)) ∧
            (x.ctl = [] → x.tt.find? ready = none →
              (∀ f l, x.be = f :: l → ∃ n, exec (.flitSend p) s = .next n ∧ frame n ∧ PortIs s n p.val (({ x0 with be := l } : Port).sentNew f s.free)) ∧
              (x.be = [] → ∃ n, exec (.flitSend p) s = .next n ∧ idle x0 n)))))) ∧
    (st = 2 → ∀ f : FlitIn,
      (flitGood f = false →
        (x.awaiting = false → ∃ n, exec (.flitReceive p f) s = .next n ∧ PortIs s n p.val { x with nak := true, awaiting := true } ∧ Only [.fabric] s n) ∧
        (x.awaiting = true → (leNat (f.bytes.take 10)).testBit 3 = false → exec (.flitReceive p f) s = .next s) ∧
        (x.awaiting = true → (leNat (f.bytes.take 10)).testBit 3 = true → exec (.flitReceive p f) s = exec (.portRecovery p .enter) s)) ∧
      (flitGood f = true →
        let g := flitOf f.bytes
        let h := leNat (f.bytes.take 10)
        let ack := h / 2 ^ 16 % 4096
        let y : Port := { x with
          replay := x.replay.filter fun q => decide (2048 ≤ seqSub ack q.seq)
          again := x.again.filter fun q => decide (2048 ≤ seqSub ack q.seq)
          resend := if h.testBit 28 then some ((ack + 1) % 4096) else x.resend }
        let d := seqSub g.seq x.rxNext
        (g.ftype = 0 ∨ 512 < d → ∃ n, exec (.flitReceive p f) s = .next n ∧ PortIs s n p.val y ∧ Only [.fabric, .plates, .clients] s n) ∧
        (g.ftype ≠ 0 → 1 ≤ d → d ≤ 512 → ∃ n, exec (.flitReceive p f) s = .next n ∧ Only [.fabric, .plates, .clients] s n ∧
          PortIs s n p.val { y with held := mset none x.held g.seq (some g), nak := x.nak || !x.awaiting, awaiting := true }) ∧
        (g.ftype ≠ 0 → d = 0 → ∃ m z, exec (.flitReceive p f) s = .next (pumpSends z) ∧ Only [.fabric, .plates, .clients] s m ∧
          PortIs s m p.val { y with rxNext := (x.rxNext + 1) % 4096, nak := false, awaiting := false } ∧
          (let w := drainHeld p 512 (takeFlit p g m)
           if (getPort w p.val).held = [] then z = w else PortIs w z p.val { getPort w p.val with nak := true, awaiting := true } ∧ Only [.fabric] w z)))) ∧
    (let recent := x.recovs.filter fun t => decide (s.tick < t + 1000000)
     (st ≠ 2 → exec (.portRecovery p .enter) s = .next s) ∧
     (st = 2 → ∃ n, exec (.portRecovery p .enter) s = .next n ∧ Only [.regs, .dict, .sat, .clients, .fabric, .host, .logs] s n ∧
       (if 2 ≤ recent.length then portState n p.val = 4 ∧ PortIs s n p.val { x with recovs := recent ++ [s.tick], failedAt := s.tick, swap := none }
        else portState n p.val = 3 ∧ PortIs s n p.val { x with recovs := recent ++ [s.tick] })) ∧
     (st ≠ 3 → exec (.portRecovery p .retrained) s = .next s) ∧
     (st = 3 → ∃ n, exec (.portRecovery p .retrained) s = .next n ∧ portState n p.val = 2 ∧ Only [.regs, .dict, .fabric] s n ∧
       PortIs s n p.val { x with again := x.replay, resend := none, held := [], nak := false, awaiting := false }) ∧
     (st ≠ 3 → exec (.portRecovery p .failed) s = .next s) ∧
     (st = 3 → ∃ n, exec (.portRecovery p .failed) s = .next n ∧ portState n p.val = 4 ∧
       Only [.regs, .dict, .sat, .clients, .fabric, .host, .logs] s n ∧ PortIs s n p.val { x with failedAt := s.tick, swap := none }))

/-- The timetable at work (R280, R283, R287 to R291, R301, R358). A slot's window opens once, when it has begun, while the module is locked, its ports have not failed and no other
transfer keeps its port; a control slot then tries to send its records. At its checkpoint a send slot whose flits cannot all leave in time, or whose flits stand in a
port's recovery, and a control slot without the module's own records are late; so is a transfer that is incomplete when its window ends, and a step boundary for which the governor or a capture is not
ready. A late slot posts its event and announces a stretch, unless the step is aborted. The end of the closing slot frees the client's complete contexts and passes the combined debt on. A STRETCH message
is applied once, and flooded. -/
def Obligations.TimetableSlots : Prop :=
  ∀ (c : ClientId) (slot : Nat) (s : State),
    let t := shareOf s c.val
    let e := t.slot slot
    (let ports := if e.kind = 3 then [] else if e.kind = 2 then [e.port, e.inport] else [e.port]
     let due := slotBegun s c.val slot = true ∧ (∀ st, (getClient s c.val).step = some st → slot ∉ st.opened) ∧ unlocked s = false ∧
       (∀ p ∈ ports, portState s (portFor s p) ≠ 4) ∧ ¬ ((e.kind = 0 ∨ e.kind = 2) ∧ portKept s c.val slot = true)
     (¬ due → exec (.slotOpen c slot) s = .next s) ∧
     (due → ∃ y m, exec (.slotOpen c slot) s = .next (pumpSends m) ∧ Only [.clients] s y ∧
       Stepped s y c.val (fun st => { st with opened := st.opened ++ [slot] }) ∧
       (e.kind ≠ 3 → m = y) ∧ (e.kind = 3 → Upward c.val slot y m))) ∧
    (let fin := slotEnd s c.val slot
     let left := remaining s c.val fin
     let cause : Option Nat := if e.kind = 0 then (if 412 * (left - 2) < unsentFlits s c.val slot then some 0 else if inRecovery s c.val slot then some 1 else none)
       else if e.kind = 3 then (if (getCtl s c.val slot).own then none else some 3) else none
     let due := slotBegun s c.val slot = true ∧ left ≤ t.lead ∧ left ≠ 0
     ((¬ due ∨ cause = none) → exec (.slotCheckpoint c slot) s = .next s) ∧
     (due → ∀ k, cause = some k → ∃ n, exec (.slotCheckpoint c slot) s = .next n ∧
       LateSlot c.val slot k fin (if e.kind = 0 then some e.port else none) s n)) ∧
    (let due := slotBegun s c.val slot = true ∧ e.stop ≤ stepTick s c.val ∧ (∀ st, (getClient s c.val).step = some st → slot ∉ st.ended)
     (¬ due → exec (.windowEnd c slot) s = .next s) ∧
     (due → ∃ y n, exec (.windowEnd c slot) s = .next n ∧ Only [.clients] s y ∧ Stepped s y c.val (fun st => { st with ended := st.ended ++ [slot] }) ∧
       (e.kind = 3 → isClosing s c.val slot = false → n = y) ∧
       (e.kind = 3 → isClosing s c.val slot = true → n.rot.carry = 0 ∧
         (getClient n c.val).debt = (getClient s c.val).debt + nth 0 (mget [] (getCtl s c.val slot).recs 1) 5 ∧
         (∀ x ∈ n.fabric.ctxs, ¬ (x.2.state = 3 ∧ x.2.client = c.val)) ∧ Only [.dict, .tiles, .clients, .fabric, .rot] s n) ∧
       (e.kind ≠ 3 → (∀ st, (getClient s c.val).step = some st → slot ∈ st.doneTx) → n = y) ∧
       (e.kind ≠ 3 → (∀ st, (getClient s c.val).step = some st → slot ∉ st.doneTx) → LateSlot c.val slot 2 (slotEnd s c.val slot + t.lead) (some e.port) y n))) ∧
    (((getClient s c.val).run = none → exec (.stepBoundaryCheck c) s = .next s) ∧
     ∀ r, (getClient s c.val).run = some r →
       let b := (match (getClient s c.val).step with | some st => st.n + 1 | none => r.n) * t.stepLen
       let left := remaining s c.val b + (getClient s c.val).arch.pause
       let due := left ≠ 0 ∧ left ≤ t.lead ∧ boundaryLate s c.val = true
       (¬ due → exec (.stepBoundaryCheck c) s = .next s) ∧
       (due → ∃ n, exec (.stepBoundaryCheck c) s = .next n ∧ LateSlot c.val 0xFFFF 4 b none s n)) ∧
    ∀ (p : PortId) (w0 w1 : Word), ∃ n, exec (.stretch p w0 w1) s = .next n ∧
      Stretched (fld w0 20 4) (fld w0 8 12) (fld w1 0 32) (fullTick (planTick s (fld w0 20 4)) (fld w0 24 32)) (fld w0 56 8) (fld w1 32 16) (some p.val) s n

/-- Transfers received and control records (R180, R283, R285, R286, R303, R313, R321, R356, R382). A receive slot's transfer is complete once every flit has come and has been written, or taken by the
collective engine: it is forgotten, the slot is done, and its token is posted unless the step is aborted. A refusal that names a collective send slot is that engine's fault, code 5; one that names another slot changes nothing. A
child's records of a control slot are merged with the module's, until every child has been heard or the records have gone up; they go up as TRY says. The combined records, which at the root are its own once they have gone up, are kept
once, sent to every child, and acted on: an abort in the partition status record aborts the step, the gates of the slot have their outcome and complete, and in the closing slot a mapping,
a switched-out time or a restore that the modules do not agree on is a collective fault 6, a desync, or a restore fault. -/
def Obligations.TimetableRecords : Prop :=
  ∀ (c : ClientId) (slot : Nat) (s : State),
    let t := shareOf s c.val
    let e := t.slot slot
    let x := getCtl s c.val slot
    (let rx := s.fabric.rx.find? fun x => decide (x.slot = slot) && decide (x.client = c.val)
     (rx = none → exec (.transferReceiveComplete c slot) s = .next s) ∧
     ∀ x, rx = some x →
       let due := e.kind = 1 ∧ e.flits ≤ x.next ∧
         (if recKind x.hdr = 1 then x.taken = true else ∀ w ∈ s.cat.waiters, ¬ (w.remote = true ∧ w.name = recName x.hdr))
       (¬ due → exec (.transferReceiveComplete c slot) s = .next s) ∧
       (due → ∃ n, exec (.transferReceiveComplete c slot) s = .next n ∧ Only [.plates, .clients, .fabric] s n ∧
         Stepped s n c.val (fun st => if st.doneTx.contains slot then st else { st with doneTx := st.doneTx ++ [slot] }) ∧
         n.fabric = { s.fabric with rx := s.fabric.rx.filter fun y => !(decide (y.slot = slot) && decide (y.client = c.val)) } ∧
         ∃ e', (e.eng = 0 → e' = .dma (Fin.ofNat 4 e.edie) 0) ∧ (e.eng = 1 → e' = .dma (Fin.ofNat 4 e.edie) 1) ∧
           (2 ≤ e.eng → e' = .coll (Fin.ofNat 4 e.edie)) ∧
           n.plates = { s.plates with posts := s.plates.posts ++ (if e.tokref = 0 ∨ aborted s c.val = true then [] else
             [{ die := Fin.ofNat 4 (engDie e'), file := trefFile e.tokref, reg := trefReg e.tokref, count := trefCnt e.tokref, eng := e', client := c.val }]) })) ∧
    (∀ (w0 w1 : Word),
      let sl := (Config.refusalSlot w0 w1).toNat
      let k := (Config.refusalClient w0 w1).toNat
      let f := (shareOf s k).slot sl
      let due := isSlot s k sl = true ∧ f.kind = 0 ∧ f.eng = 2
      (¬ due → exec (.refusalMessage w0 w1) s = .next s) ∧
      (due → ∃ n, exec (.refusalMessage w0 w1) s = .next n ∧ CollFaulted f.edie k 5 ((getClient s k).job % 65536) 0 s n)) ∧
    (∀ child : List Word,
      (¬ (isSlot s c.val slot = true ∧ e.kind = 3) → exec (.controlRecordsUp c slot child) s = .next s) ∧
      (isSlot s c.val slot = true → e.kind = 3 →
        (child = [] → ∃ n, exec (.controlRecordsUp c slot child) s = .next n ∧ Upward c.val slot s n) ∧
        (child ≠ [] → x.up = true ∨ (childPorts s c.val).length ≤ x.kids → exec (.controlRecordsUp c slot child) s = .next s) ∧
        (child ≠ [] → x.up = false → x.kids < (childPorts s c.val).length → ∃ y n, exec (.controlRecordsUp c slot child) s = .next n ∧
          Only [.clients] s y ∧ Stepped s y c.val (fun st => { st with ctl := mset {} st.ctl slot { x with kids := x.kids + 1, recs := mergeRecs x.recs (recsOfWords e.positions child) } }) ∧ Upward c.val slot y n))) ∧
    ∀ recs : List Word,
      let root : Prop := t.cparent = 63
      let due := (getClient s c.val).step ≠ none ∧ isSlot s c.val slot = true ∧ e.kind = 3 ∧ x.down = false ∧ (root → x.up = true)
      let all := if root then x.recs else recsOfWords e.positions recs
      (¬ due → exec (.controlRecordsDown c slot recs) s = .next s) ∧
      (due → ∃ y m g a b n, exec (.controlRecordsDown c slot recs) s = .next n ∧
        Only [.clients, .fabric, .free] s y ∧ SentTo 5 (childPorts s c.val) s y ∧
        Stepped s y c.val (fun st => { st with ctl := mset {} st.ctl slot { x with recs := all, down := true } }) ∧
        Only [.clients] y m ∧ Stepped y m c.val (fun st => if (nth 0 (mget [] all 0) 0).testBit 0 = true ∧ st.aborted = false then
          { st with aborted := true, fcode := nth 0 (mget [] all 0) 2, forigin := 4096 - nth 0 (mget [] all 0) 1 } else st) ∧
        Only [.regs, .dict, .sat, .plates, .clients, .host, .logs] m g ∧
        Stepped m g c.val (fun st => { st with gates := st.gates.map fun q =>
          if q.cslot = slot ∧ q.outcome.isNone then { q with outcome := some ((nth 0 (mget [] all 0) 0).testBit 1) } else q }) ∧
        (∀ st, (getClient s c.val).step = some st →
          (∀ q ∈ st.gates, q.cslot = slot → q.outcome = none → findFlight g q.id = none) ∧
          ∀ i, (∀ q ∈ st.gates, q.cslot = slot → q.outcome = none → q.id ≠ i) → findFlight g i = findFlight s i) ∧
        (isClosing s c.val slot = false → a = g ∧ b = g ∧ n = g) ∧
        (isClosing s c.val slot = true →
          let d := ((List.range 4).find? (hasDie (getClient g c.val))).getD 0
          let p := mget [] all 1
          let q := mget [] all 2
          (if nth 0 p 1 = 0xFFFFFFFF - nth 0 p 2 then a = g else CollFaulted d c.val 6 ((getClient g c.val).job % 65536) 0 g a) ∧
          (if nth 0 p 3 = 0xFFFFFFFF - nth 0 p 4 then b = a else ∃ z, Only [.dict, .sat, .host, .logs] a z ∧ Raised z b 0x0405 c.val 2) ∧
          (if nth 0 q 1 = 0xFFFFFFFF - nth 0 q 2 then n = b else Raised b n 0x0504 c.val c.val)))

/-- Ports (R268, R269, R274, R275, R292, R293, R433). A lane swap is asked for where the lane is one of the four and the port's spare lane is free: LANE_DUE is set and the swap waits; in a
gap of the port it is made at once, the worn lane recorded as out of use. A port that has failed, with no step in progress on it, is mapped onto a standby spare cabled to the same peer, which comes up; the swaps queued for it
are dropped and the remap is recorded. The k-th waiting best-effort packet, unless an earlier one has its source and destination, is written where it has arrived, or goes out of the
port of its next hop, once that port is up and has credits for all its flits, which it takes: over virtual channel 1 across a wrap link. The credits of the buffer it came by go back. Credits that come in are added, up to a whole buffer. -/
def Obligations.Ports : Prop :=
  ∀ (p : PortId) (s : State),
    let x := getPort s p.val
    let a := portStatus p.val
    (∀ lane : Nat,
      (4 ≤ lane ∨ fld (getReg s a) 3 3 ≠ 4 → exec (.laneSwap p lane) s = .next s) ∧
      (lane < 4 → fld (getReg s a) 3 3 = 4 → ∃ y n, exec (.laneSwap p lane) s = .next n ∧ Only [.regs, .fabric] s y ∧
        bit (getReg y a) 25 = true ∧ PortIs s y p.val { x with swap := some lane } ∧
        (portGap y p.val = false → n = y) ∧
        (portGap y p.val = true → ∃ z w cause, Only [.regs, .dict, .sat, .fabric, .wearS, .host, .logs, .free] y w ∧
          PortIs s z p.val { x with swap := none } ∧ z.wearS = s.wearS ∧ fld (getReg z a) 3 3 = lane ∧ bit (getReg z a) 25 = false ∧
          w.regs = z.regs ∧ w.fabric = z.fabric ∧ SwapRecorded 7 (p.val / 8) p.val lane 4 cause 0 w n))) ∧
    (let due := (getDict s (dkey 0x8000 0x04) ≠ 0 ∨ ∃ w ∈ s.wearS.queue, w.kind = 8 ∧ w.item = p.val) ∧ standbyFor s p.val ≠ none ∧
       portState s p.val = 4 ∧ ∀ c ∈ clientsOnPort s p.val, (getClient s c).step = none
     (¬ due → exec (.portRemap p) s = .next s) ∧
     (due → ∀ q, standbyFor s p.val = some q → ∃ y n, exec (.portRemap p) s = .next n ∧ Only [.regs, .dict, .wearS] s y ∧
       portState y q = 2 ∧ portFor y p.val = q ∧ (∀ k, k ≠ p.val → portFor y k = portFor s k) ∧
       y.wearS = { s.wearS with portMap := y.wearS.portMap, queue := s.wearS.queue.filter fun w => !(decide (w.kind = 8) && decide (w.item = p.val)) } ∧
       SwapRecorded 8 (p.val / 8) p.val p.val q 7 0 y n)) ∧
    (∀ k : Nat, (s.fabric.packets[k]? = none → exec (.bestEffortPacket p k) s = .next s) ∧
      ∀ w, s.fabric.packets[k]? = some w →
        let m : State := { s with fabric := { s.fabric with packets := s.fabric.packets.eraseIdx k } }
        ((∃ u ∈ s.fabric.packets.take k, u.smod = w.smod ∧ u.dmod = w.dmod) → exec (.bestEffortPacket p k) s = .next s) ∧
        ((∀ u ∈ s.fabric.packets.take k, ¬ (u.smod = w.smod ∧ u.dmod = w.dmod)) →
          (nextHop s w = none → ∃ n, exec (.bestEffortPacket p k) s = .next n ∧
            let via := (w.inBuf.map (·.1)).getD ((portTo m w.smod).getD 0)
            CreditReturned w.inBuf (if recKind (w.bytes.take 16) = 0 then landData via (w.bytes.take 16) 0 (w.bytes.drop 16) m else m) n) ∧
          (∀ dim minus wrap q, nextHop s w = some (dim, minus, wrap, q) →
            let out := portFor s q
            let vc := if wrap then 1 else if dim = w.dim then w.vc else 0
            let fs := packetFlits w vc
            let u := getPort s out
            let cred := if vc = 0 then u.cred0 else u.cred1
            let goes := out = p.val ∧ portState s out = 2 ∧ fs.length ≤ cred
            (¬ goes → exec (.bestEffortPacket p k) s = .next s) ∧
            (goes → ∃ y n, exec (.bestEffortPacket p k) s = .next n ∧ Only [.fabric] s y ∧ y.fabric.packets = s.fabric.packets.eraseIdx k ∧
              PortIs s y out { u with be := u.be ++ fs, cred0 := if vc = 0 then u.cred0 - fs.length else u.cred0, cred1 := if vc = 0 then u.cred1 else u.cred1 - fs.length } ∧
              CreditReturned w.inBuf y n)))) ∧
    ∀ w0 w1 : Word, ∃ n, exec (.credit p w0 w1) s = .next n ∧ Only [.fabric] s n ∧
      let k := (Config.creditFlits w0 w1).toNat
      PortIs s n p.val (if Config.creditVc w0 w1 then { x with cred1 := min 256 (x.cred1 + k) } else { x with cred0 := min 256 (x.cred0 + k) })

/-- Collective commands, from the state of their issue. CCTX that is not reserved arms every context of its range, and no other, with its kind, client, job and format: a reduce
context with its scale, the place of its elements, which go up by 512, and its number of elements; a place context with its handles, mode, rows and columns; both expect their transfers and have had none. CSEND waits while 64 sends of its engine are
in progress; one that is not reserved enters the engine's sends with the entries that its issue read. CGATE is kept with the unfinished SKIPPOL contexts of its client on its die; where its slot's combined
records are there, it has its outcome and completes. CCOMMIT is kept. A reserved one is refused; a reserved CCOMMIT is a collective fault 9 besides (R5, R297, R298, R301, R304, R313, R318, R323). -/
def Obligations.CollectiveCommands : Prop :=
  ∀ (d : DieId) (c : PCmd) (s : State),
    let e : Eng := .coll d
    let s1 := s.issued e c
    let id := s.plates.nextId
    let cl := clientOn s d.val
    let job := (getClient s cl).job % 65536
    s.Issues e c →
    (let first := fld (c.w 0) 0 16
     let num := fld (c.w 0) 16 13
     let kind := fld (c.w 0) 29 3
     let units := rgUnits (c.w 3)
     (cctxReserved s1 cl d.val c = true → ∃ n, exec (.cctx d c) s = .next n ∧ RefusedCmd s n e c) ∧
     (cctxReserved s1 cl d.val c = false → ∃ n, exec (.cctx d c) s = .next n ∧ Finished s1 n id ∧
       n.fabric = { s.fabric with ctxs := n.fabric.ctxs } ∧ Only (.fabric :: .plates :: accountParts) s n ∧
       (∀ k, ¬ (ctxKey d.val first ≤ k ∧ k < ctxKey d.val first + num) → getCtx n k = getCtx s k) ∧
       ∀ i, i < num → cl < 16 →
         let x := getCtx n (ctxKey d.val first + i)
         x.state = 1 ∧ x.kind = kind ∧ x.client = cl ∧ x.job = job ∧ x.bound = false ∧ x.fmtWord = fld (c.w 0) 33 16 ∧ x.narr = 0 ∧
         (kind = 2 → x.skippol = false ∧ x.dhandle = fld (c.w 1) 0 12 ∧ x.ahandle = fld (c.w 1) 12 12 ∧ x.amode = fld (c.w 1) 24 2 ∧ x.rrows = units % 2 ^ 32 ∧
           x.drow = fld (c.w 2) 0 32 ∧ x.dcol = fld (c.w 2) 32 16 ∧ x.rlen = fld (c.w 1) 38 17 ∧ x.nexp = fld (c.w 1) 26 12) ∧
         (kind ≠ 2 → x.skippol = bit (c.w 0) 32 ∧ x.tscale = fld (c.w 1) 0 32 ∧ x.ebase = (fld (c.w 2) 0 48 + 512 * i) % 2 ^ 48 ∧ x.fwdread = false ∧ x.esc = 0 ∧
           x.nelem = min 512 (units * fld (c.w 1) 44 20 - 512 * i) ∧ x.nexp = fld (c.w 1) 32 12))) ∧
    (let w := s.issuedCmd e c
     let busy := (flightsOf s e).countP fun f => decide (f.win.cmd.opc = 2)
     (64 ≤ busy → ∃ n, exec (.csend d c) s = .next n ∧ Only accountParts s n) ∧
     (busy < 64 → csReserved s1 cl d.val (w.ent (csName d.val c)) c = true → ∃ n, exec (.csend d c) s = .next n ∧ RefusedCmd s n e c) ∧
     (busy < 64 → csReserved s1 cl d.val (w.ent (csName d.val c)) c = false → ∃ m n, exec (.csend d c) s = .next n ∧
       m = { s1 with fabric := { s.fabric with sends := s.fabric.sends ++ [{ id := id, die := d, win := w }] } } ∧ Only accountParts (pumpSends m) n)) ∧
    (let slot := fld (c.w 0) 0 16
     let g : GateSt := { id := id, die := d.val, cslot := slot, name := d.val * 4096 + fld (c.w 0) 16 12, cnt := fld (c.w 0) 28 16, ent := (s.issuedCmd e c).ent (d.val * 4096 + fld (c.w 0) 16 12), waits := (s.fabric.ctxs.filter fun x => decide (x.1 / 65536 = d.val) && x.2.skippol && decide (x.2.client = cl) && decide (x.2.state = 1 ∨ x.2.state = 2)).map (·.1) }
     (cgateReserved s1 cl d.val c = true → ∃ n, exec (.cgate d c) s = .next n ∧ RefusedCmd s n e c) ∧
     (cgateReserved s1 cl d.val c = false → ∃ n, exec (.cgate d c) s = .next n ∧ Only (.clients :: .plates :: accountParts) s n ∧
       ∀ st, (getClient s cl).step = some st →
         let ctl := mget {} st.ctl slot
         (ctl.down = false → findFlight n id = some (s.flight e c) ∧ Stepped s n cl (fun st => { st with gates := st.gates ++ [g] })) ∧
         (ctl.down = true → findFlight n id = none ∧ Stepped s n cl (fun st => { st with gates := (st.gates ++ [g]).map fun q =>
           if q.cslot = slot ∧ q.outcome.isNone then { q with outcome := some ((nth 0 (mget [] ctl.recs 0) 0).testBit 1) } else q })))) ∧
    (ccommitReserved s1 cl c = false → ∃ n, exec (.ccommit d c) s = .next n ∧ findFlight n id = some (s.flight e c) ∧ n.plates = s1.plates ∧
      Only (.clients :: .plates :: accountParts) s n ∧ Stepped s n cl (fun st => { st with commits := st.commits ++
        [{ id := id, die := d.val, cslot := fld (c.w 0) 0 16, pos := fld (c.w 0) 16 12, ctick := fld (c.w 1) 0 32 }] })) ∧
    (ccommitReserved s1 cl c = true → ∃ y z n, exec (.ccommit d c) s = .next n ∧ Completed s1 y id ∧ bit (getReg y (illegalBit e c).1) (illegalBit e c).2 = true ∧
      Only (.plates :: accountParts) s1 y ∧ CollFaulted d.val cl 9 job 0 y z ∧ Only accountParts z n)

/-- What reaches the collective engines (R300, R301, R303, R310, R314, R318, R319, R323). A reduce transfer that no context it covers expects is a fault with the lowest code; one for a register that is not bound yet is held; the others
are added: of one that covers one context, and has spilled nothing there, each element goes into its lane, and the transfer is counted. A place transfer that its context does not expect is a fault with
its code, code 2 also where an exact copy would have to be converted, code 7 where a tag names no row; the others are counted once their rows are placed. A spill packet is held until its transfer has come; the one piece of a
packet is merged into its lanes, and its context's wait is over with the last. A wait longer than the bound is a fault 8. After each, the sends that can go are formed. The decision of a re-shard comes with the combined records:
a module that is not ready, or an abort, discards what is staged and completes the CCOMMITs; else every die's commit is queued for its tick, or for the next one, with a bit set, where that has passed. -/
def Obligations.CollectiveArrivals : Prop :=
  ∀ (d : DieId) (s : State),
    (∀ (shape : Nat) (data : List Byte),
      let x := xferOf data
      let client := jobClient s d.val x.job
      let held (m : State) : Prop := m = { s with fabric := { s.fabric with held := s.fabric.held ++ [(d, shape, data)] } }
      let fault (m : State) (code ctx : Nat) : Prop := ∃ y, CollFaulted d.val client code x.job ctx s y ∧ TakenIn d data y m
      x.spill = false →
      (copReduce x.cop = true →
        let f := (fmtOf (x.selem + 16 * x.sblk)).getD noFmt
        let r := redElems x f shape
        let q := redUnits x f shape
        let zero (off : Nat) : Bool := ((x.pay.take q.2.2).drop (off / q.1 * q.2.1)).all fun b => b = 0#8
        let its := covered s zero r.1.length 128 (ctxKey d.val x.cbase) 0
        (∀ code k, firstFault s x (its.map (·.1)) = some (code, k) → ∃ m, exec (.collTransferArrive d shape data) s = .next (pumpSends m) ∧ fault m code (k % 65536)) ∧
        (firstFault s x (its.map (·.1)) = none → (∃ it ∈ its, (getCtx s it.1).bound = false) →
          ∃ m, exec (.collTransferArrive d shape data) s = .next (pumpSends m) ∧ held m) ∧
        (firstFault s x (its.map (·.1)) = none → (∀ it ∈ its, (getCtx s it.1).bound = true) → ∃ y m, exec (.collTransferArrive d shape data) s = .next (pumpSends m) ∧
          TakenIn d data y m ∧ Only [.regs, .dict, .sat, .tiles, .clients, .fabric, .host, .logs] s y ∧
          ∀ k n, its = [(k, 0, n)] → r.2.2.1 = [] → r.2.2.2 = [] → k / 65536 = d.val →
            (∀ i : Fin 512, (ctxReg y d.val (getCtx s k)).get i =
              if i.val < n then (nth .none r.1 i.val).into ((ctxReg s d.val (getCtx s k)).get i) else (ctxReg s d.val (getCtx s k)).get i) ∧
            getCtx y k = (getCtx s k).counted ∧ ∀ j, j ≠ k → getCtx y j = getCtx s j)) ∧
      (copReduce x.cop = false →
        let k := ctxKey d.val x.cbase
        let c := getCtx s k
        let e := getEnt s (d.val * 4096 + c.dhandle)
        let rows := placeRows x c
        (∀ code, ctxFault x c = some code → ¬ (2 < code ∧ x.cop = 8 ∧ sameBytes x c e = false) →
          ∃ m, exec (.collTransferArrive d shape data) s = .next (pumpSends m) ∧ fault m code (k % 65536)) ∧
        (x.cop = 8 → sameBytes x c e = false → ctxFault x c ≠ some 1 → ∃ m, exec (.collTransferArrive d shape data) s = .next (pumpSends m) ∧ fault m 2 (k % 65536)) ∧
        (ctxFault x c = none → ¬ (x.cop = 8 ∧ sameBytes x c e = false) → (∃ r ∈ rows, placeRow x c e r = none) →
          ∃ m, exec (.collTransferArrive d shape data) s = .next (pumpSends m) ∧ fault m 7 (k % 65536)) ∧
        (ctxFault x c = none → ¬ (x.cop = 8 ∧ sameBytes x c e = false) → (∀ r ∈ rows, placeRow x c e r ≠ none) →
          ∃ y m, exec (.collTransferArrive d shape data) s = .next (pumpSends m) ∧ TakenIn d data y m ∧ getCtx y k = c.counted ∧ (∀ j, j ≠ k → getCtx y j = getCtx s j) ∧
            Only [.mem, .regs, .dict, .sat, .cat, .banks, .clients, .fabric, .host, .logs, .wear, .ledger, .served, .free] s y))) ∧
    (∀ data : List Byte,
      let x := xferOf data
      let f := (fmtOf (x.selem + 16 * x.sblk)).getD noFmt
      let ps := spillPieces (x.pay.length + 1) x.pay
      let waits (p : Nat × Nat × List XReg) : Prop := ∃ w ∈ s.fabric.spills, w.ctx = ctxKey d.val x.cbase + (p.1 * f.blk + p.2.1) / 512 ∧ w.smod = x.smod
      (x.spill = false → exec (.spillPacket d data) s = .next s) ∧
      (x.spill = true → (∃ p ∈ ps, ¬ waits p) →
        exec (.spillPacket d data) s = .next (pumpSends { s with fabric := { s.fabric with held := s.fabric.held ++ [(d, 0, data)] } })) ∧
      (x.spill = true → (∀ p ∈ ps, waits p) → ∃ y m, exec (.spillPacket d data) s = .next (pumpSends m) ∧ TakenIn d data y m ∧ Only [.tiles, .clients, .fabric] s y ∧
        ∀ b o xs, ps = [(b, o, xs)] →
          let at0 := b * f.blk + o
          let k := ctxKey d.val x.cbase + at0 / 512
          let less (w : SpillWait) : SpillWait := if w.ctx = k ∧ w.smod = x.smod then { w with left := w.left - xs.length } else w
          (∀ i : Fin 512, (ctxReg y d.val (getCtx s k)).get i =
            if at0 % 512 ≤ i.val ∧ i.val < at0 % 512 + xs.length then ((ctxReg s d.val (getCtx s k)).get i).merge (nth {} xs (i.val - at0 % 512))
            else (ctxReg s d.val (getCtx s k)).get i) ∧
          y.fabric.spills = (s.fabric.spills.map less).filter (fun w => !(decide (w.ctx = k) && decide (w.smod = x.smod) && decide (w.left = 0))) ∧
          getCtx y k = (if ∃ w ∈ s.fabric.spills.map less, w.ctx = k ∧ w.smod = x.smod ∧ w.left = 0 then (getCtx s k).counted else getCtx s k) ∧
          ∀ j, j ≠ k → getCtx y j = getCtx s j)) ∧
    (∀ ctx : Nat,
      let k := ctxKey d.val ctx
      let x := getCtx s k
      let due := ∃ w ∈ s.fabric.spills, w.ctx = k ∧ (getDict s (dkey 0x5100 0x0E)).toNat < s.tick - w.since
      (¬ due → exec (.spillTimeout d ctx) s = .next s) ∧
      (due → ∃ n, exec (.spillTimeout d ctx) s = .next n ∧
        CollFaulted d.val x.client 8 x.job (k % 65536) { s with fabric := { s.fabric with spills := s.fabric.spills.filter fun w => decide (w.ctx ≠ k) } } n)) ∧
    ∀ (c : ClientId) (slot : Nat),
      ((getClient s c.val).step = none → exec (.reshardDecide c slot) s = .next s) ∧
      ∀ st, (getClient s c.val).step = some st →
        let ctl := mget {} st.ctl slot
        let mine := st.commits.filter fun j => decide (j.cslot = slot) && j.decided.isNone
        (mine = [] ∨ ctl.down = false → exec (.reshardDecide c slot) s = .next s) ∧
        (ctl.down = true → ∀ j l, mine = j :: l →
          let stop := (nth 0 (mget [] ctl.recs j.pos) 0).testBit 0 = true ∨ (nth 0 (mget [] ctl.recs 0) 0).testBit 0 = true
          (stop → ∃ y n, exec (.reshardDecide c slot) s = .next n ∧ n.host = (post 0x0503 c.val c.val y).host ∧ Only [.cat, .dict, .sat, .host, .logs] s y ∧
            Only [.cat, .plates, .dict, .sat, .clients, .host, .logs] s n ∧
            n.cat = { s.cat with staging := s.cat.staging.filter fun x => decide (x.owner ≠ c.val), commits := s.cat.commits.filter fun x => decide (x.client ≠ c.val) } ∧
            (∀ i ∈ mine.map (·.id), findFlight n i = none) ∧ (∀ i, i ∉ mine.map (·.id) → findFlight n i = findFlight s i) ∧
            Stepped s n c.val (fun st => { st with commits := st.commits.filter fun x => !(mine.map (·.id)).contains x.id })) ∧
          (¬ stop → ∃ n, exec (.reshardDecide c slot) s = .next n ∧ Only [.regs, .cat, .clients, .host, .logs] s n ∧
            (let T := stepBase s c.val + j.ctick
             let late := T ≤ planTick s c.val ∧ ∀ r, (getClient s c.val).run = some r → runBegun s r = true
             n.cat = { s.cat with commits := s.cat.commits ++ (List.finRange 4).map fun d => { die := d, client := c.val, tick := if late then planTick s c.val + 1 else T } } ∧
             (late → ∀ d : DieId, bit (getReg n (collBlk d.val 0)) 10 = true) ∧ (¬ late → n.regs = s.regs)) ∧
            Stepped s n c.val (fun st => { st with commits := st.commits.map fun x => if x.cslot = slot then { x with decided := some true } else x })))

/-- The host's queues (R340, R345 to R347). A doorbell of a queue that works sets its tail, and the entries up to it are fetched; a tail beyond the queue's size stops the queue with code 1. Enabling a
queue sets EN, lets it work again, and fetches its entries, or writes the records that it holds. A record that the Registrar has ordered is written at its queue's tail, or held where the queue is disabled,
full, or holds others before it; a failed write holds it and stops the queue with code 2. A written head makes room and lets held records be written; one beyond the size stops the queue. A message goes out for records not
signalled when they are enough, or urgent, or their time has passed: at once, or, where its vector is masked, its pending bit is set, and unmasking sends it. -/
def Obligations.HostQueues : Prop :=
  ∀ s : State,
    (∀ q tail : Nat,
      let on := q ≤ 64 ∧ queueOn s q (sqReg q 0x18) = true
      (¬ on → exec (.doorbellWrite q tail) s = .next s) ∧
      (on → queueSize s (sqReg q 8) ≤ tail % 4096 → ∃ n, exec (.doorbellWrite q tail) s = .next n ∧ QueueStopped q (sqReg q 0x18) 1 s n) ∧
      (on → tail % 4096 < queueSize s (sqReg q 8) → ∃ n, exec (.doorbellWrite q tail) s = .next n ∧
        QueueFetched q { s with host := { s.host with tails := mset 0 s.host.tails q (tail % 4096) } } n)) ∧
    (∀ q : Nat,
      (64 < q → exec (.queueEnable false q) s = .next s) ∧ (16 < q → exec (.queueEnable true q) s = .next s) ∧
      (q ≤ 64 → ∃ y n, exec (.queueEnable false q) s = .next n ∧ queueOn y q (sqReg q 0x18) = true ∧ (∀ a, a ≠ sqReg q 0x18 → getReg y a = getReg s a) ∧
        Only [.regs, .host] s y ∧ y.host = { s.host with stopped := mset false s.host.stopped q false } ∧ QueueFetched q y n) ∧
      (q ≤ 16 → ∃ y n, exec (.queueEnable true q) s = .next n ∧ queueOn y (128 + q) (eqReg q 0x18) = true ∧ (∀ a, a ≠ eqReg q 0x18 → getReg y a = getReg s a) ∧
        Only [.regs, .host] s y ∧ y.host = { s.host with stopped := mset false s.host.stopped (128 + q) false } ∧ Flushed q (getEvQ s q).hold.length y n)) ∧
    (∀ q head : Nat,
      let on := q ≤ 16 ∧ queueOn s (128 + q) (eqReg q 0x18) = true
      (¬ on → exec (.eventQueueHeadWrite q head) s = .next s) ∧
      (on → queueSize s (eqReg q 8) ≤ head % 4096 → ∃ n, exec (.eventQueueHeadWrite q head) s = .next n ∧ QueueStopped (128 + q) (eqReg q 0x18) 1 s n) ∧
      (on → head % 4096 < queueSize s (eqReg q 8) → ∃ n, exec (.eventQueueHeadWrite q head) s = .next n ∧
        Flushed q (getEvQ s q).hold.length (setEvQ q { getEvQ s q with head := head % 4096 } s) n)) ∧
    ((s.host.posted = [] → exec .eventPost s = .next s) ∧
      ∀ e v l, s.host.posted = (e, v) :: l →
        let y : State := { s with host := { s.host with posted := l } }
        ∃ n, exec .eventPost s = .next n ∧
          ((getEvQ s e).hold ≠ [] ∨ evqOpen s e = false → RecordHeld e v y n) ∧
          ((getEvQ s e).hold = [] → evqOpen s e = true → hostOk s (evTail s e) 32 = true → EventWritten e v [] y n) ∧
          ((getEvQ s e).hold = [] → evqOpen s e = true → hostOk s (evTail s e) 32 = false →
            QueueStopped (128 + e) (eqReg e 0x18) 2 (setEvQ e { getEvQ s e with hold := [v] } y) n)) ∧
    (∀ (q : Nat) (timer : Bool),
      let x := getEvQ s q
      let due := q ≤ 16 ∧ x.unsig ≠ 0 ∧ (timer = true ∨ x.urgent = true ∨ fld (getReg s (eqReg q 0x28)) 0 16 ≤ x.unsig)
      (¬ due → exec (.msixSend q timer) s = .next s) ∧
      (due → mget false s.host.unmasked (evqVec s q) = true → exec (.msixSend q timer) s = .next { s with host := { s.host with
        queues := mset {} s.host.queues q { x with unsig := 0, urgent := false, waits := false }, sent := s.host.sent ++ [evqVec s q] } }) ∧
      (due → mget false s.host.unmasked (evqVec s q) = false → exec (.msixSend q timer) s = .next { s with host := { s.host with
        queues := mset {} s.host.queues q { x with waits := true }, pba := mset false s.host.pba (evqVec s q) true } })) ∧
    ∀ v : Nat,
      (256 ≤ v → exec (.msixUnmask v) s = .next s) ∧
      (v < 256 → ∃ n, exec (.msixUnmask v) s = .next n ∧ mget false n.host.unmasked v = true ∧ mget false n.host.pba v = false ∧
        (∀ w, w ≠ v → mget false n.host.unmasked w = mget false s.host.unmasked w ∧ mget false n.host.pba w = mget false s.host.pba w) ∧
        n = { s with host := { s.host with unmasked := n.host.unmasked, pba := n.host.pba, queues := n.host.queues, sent := n.host.sent } } ∧
        (mget false s.host.pba v = false → n.host.sent = s.host.sent ∧ n.host.queues = s.host.queues) ∧
        (mget false s.host.pba v = true → n.host.sent = s.host.sent ++ [v] ∧
          ∀ e, getEvQ n e = if e < 17 ∧ (getEvQ s e).waits = true ∧ evqVec s e = v then { getEvQ s e with unsig := 0, urgent := false, waits := false } else getEvQ s e))

/-- Host commands (R340, R341, R343, R344, R349 to R351, R391). A queue's next command is served by the one of these that has its opcode; the others do nothing. Outside Proof and Edition it is turned away; so is one in a
queue of the wrong kind, or of a client not admitted; but for COPY, an idle client out of turn waits. An opcode that the table does not list completes REFUSED. RUN_STEPS refuses by BUSY, NO_PLATES, START_PASSED, REFUSED and
SEED_MISMATCH, in this order; else the client runs from the start tick, with the step index asked for. COPY completes REFUSED or HOST_FAULT, or waits; else its bytes have gone from source to destination, with poison as 0xFF to the host. ADMIT
that is not refused makes the client's record, with its totals cleared. EVICT of an admitted client clears its record, its commands and its entries. -/
def Obligations.HostCommands : Prop :=
  ∀ (s : State) (q : Nat),
    (∀ i hop, (i, hop) ∈ [(Instr.loadPlates q, 1), (.runSteps q, 2), (.archiveOut q, 3), (.restoreIn q, 4), (.copy q, 5), (.admitClient q, 16), (.evict q, 17)] →
      (nextHost s q = none → exec i s = .next s) ∧
      ∀ h, nextHost s q = some h →
        let c := getClient s (queueClient q)
        let staged := stageOf s = 2 ∨ stageOf s = 3
        (h.hop ≠ hop → exec i s = .next s) ∧
        (h.hop = hop → ¬ staged → ∃ n, exec i s = .next n ∧ CmdDone h (if hop = 5 ∨ hop = 16 then 2 else 6) 0 (dropHost h s) n) ∧
        (h.hop = hop → staged → ¬ (64 ≤ q ↔ 16 ≤ hop) → ∃ n, exec i s = .next n ∧ CmdDone h 2 0 (dropHost h s) n) ∧
        (h.hop = hop → staged → q < 64 → hop < 16 → c.state = 0 → ∃ n, exec i s = .next n ∧ CmdDone h 6 0 (dropHost h s) n) ∧
        (h.hop = hop → staged → q < 64 → hop < 16 → hop ≠ 5 → c.state ≠ 0 → ¬ (c.state = 2 ∨ (c.state = 1 ∧ inTurn s (queueClient q) = true)) →
          exec i s = .next s)) ∧
    ((nextHost s q = none → exec (.hostReservedOpcode q) s = .next s) ∧
      ∀ h, nextHost s q = some h →
        (h.hop ∈ [1, 2, 3, 4, 5, 16, 17] → exec (.hostReservedOpcode q) s = .next s) ∧
        (h.hop ∉ [1, 2, 3, 4, 5, 16, 17] → ∃ n, exec (.hostReservedOpcode q) s = .next n ∧
          CmdDone h (if stageOf s = 2 ∨ stageOf s = 3 then 2 else 6) 0 (dropHost h s) n)) ∧
    (∀ h, HostServes s q 2 h →
      let x := dropHost h s
      let c := queueClient h.q
      let cl := getClient s c
      let ahead := (fld (h.w 2) 0 40 + 2 ^ 40 - s.tick % 2 ^ 40) % 2 ^ 40
      let fail (st : Nat) : Prop := ∃ n, exec (.runSteps q) s = .next n ∧ CmdDone h st 0 x n
      (cl.run ≠ none → fail 1) ∧ (cl.run = none → (cl.set = none → fail 10) ∧ (cl.set ≠ none → (ahead < 2 ∨ 2 ^ 39 ≤ ahead → fail 7) ∧ (2 ≤ ahead → ahead < 2 ^ 39 →
        (fld (h.w 3) 0 32 = 0 → fail 2) ∧ (fld (h.w 3) 0 32 ≠ 0 → (∀ d, cl.seed = some d → d ≠ (h.w 1).toNat → fail 11) ∧
          ((∀ d, cl.seed = some d → d = (h.w 1).toNat) → ∃ n, exec (.runSteps q) s = .next n ∧
            let idx := if h.w 4 = BitVec.allOnes 64 then cl.next else (h.w 4).toNat
            ClientIs x n c { cl with
              state := 2, seed := some (h.w 1).toNat, next := idx,
              run := some { q := h.q, cmdid := h.id, notify := h.notify, start := s.tick + ahead, left := fld (h.w 3) 0 32, idx := idx, arch := fld (h.w 5) 0 32 } })))))) ∧
    (∀ h, HostServes s q 5 h →
      let x := dropHost h s
      let c := queueClient h.q
      let n := fld (h.w 3) 0 36
      let src := copySide (bit (h.w 4) 0) (h.w 1)
      let dst := copySide (bit (h.w 4) 1) (h.w 2)
      let bad := n = 0 ∨ (src.host = true ∧ dst.host = true) ∨ copySideBad s c n src = true ∨ copySideBad s c n dst = true
      let waits := sideWaits s c src = true ∨ sideWaits s c dst = true ∨ (src.host = false ∧ readReady s src.name (getEnt s src.name) src.off n = false) ∨
        (dst.host = false ∧ writeReady s dst.name (getEnt s dst.name) dst.off n = false)
      let dead := (src.host = true ∧ hostOk s src.addr n = false) ∨ (dst.host = true ∧ hostOk s dst.addr n = false)
      let data : List (Byte × Bool) := if src.host then (hostBytes s src.addr n).map fun b => (b, false) else s.bytesOf (getEnt s src.name) (src.name / 4096) src.off n
      (bad → ∃ m, exec (.copy q) s = .next m ∧ CmdDone h 2 0 x m) ∧
      (¬ bad → waits → exec (.copy q) s = .next (holdHost h x)) ∧
      (¬ bad → ¬ waits → dead → ∃ m, exec (.copy q) s = .next m ∧ CmdDone h 9 0 x m) ∧
      (¬ bad → ¬ waits → ¬ dead → ∃ y m, exec (.copy q) s = .next m ∧ CmdDone h (if anyPoison data then 8 else 0) 0 y m ∧
        Only [.mem, .regs, .dict, .sat, .cat, .banks, .clients, .host, .logs, .wear, .ledger, .served] s y ∧ y.host.fetched = x.host.fetched ∧
        (dst.host = true → SameBytes s y ∧ (∀ b, b < dst.addr ∨ dst.addr + n ≤ b → hostByte y b = hostByte s b) ∧
          ∀ i, i < n → hostByte y (dst.addr + i) = if (nth (0#8, false) data i).2 then 0xFF#8 else (nth (0#8, false) data i).1) ∧
        (dst.host = false → (∀ b, hostByte y b = hostByte s b) ∧ ((getEnt s dst.name).placed → anyPoison data = false →
          StoredAt s y (getEnt s dst.name) (dst.name / 4096) dst.off (plain data))))) ∧
    (∀ h, HostServes s q 16 h →
      let x := dropHost h s
      let c := fld (h.w 1) 0 4
      let bad := admitBad s c (admitted h) (getDict s (dkey 0x7000 0x02)).toNat = true
      (bad → ∃ n, exec (.admitClient q) s = .next n ∧ CmdDone h 2 0 x n) ∧
      (¬ bad → ∃ y n, exec (.admitClient q) s = .next n ∧ CmdDone h 0 0 y n ∧ y.host = x.host ∧ (∀ k, getClient y k = if k = c then admitted h else getClient s k) ∧
        (∀ k, k / 32 = c → mget 0 y.ledger k = 0) ∧ (∀ k ∈ [dkey 0xA000 (0x10 + c), dkey 0x5101 c, dkey 0x9004 c, dkey 0x9001 c], getDict y k = 0) ∧
        Only [.regs, .dict, .sat, .cat, .plates, .tiles, .units, .clients, .host, .ledger] s y)) ∧
    ∀ h, HostServes s q 17 h →
      let x := dropHost h s
      let c := fld (h.w 1) 0 4
      ((getClient s c).state = 0 → ∃ n, exec (.evict q) s = .next n ∧ CmdDone h 6 0 x n) ∧
      ((getClient s c).state ≠ 0 → ∃ y n, exec (.evict q) s = .next n ∧ CmdDone h 0 0 y n ∧ (∀ k, getClient y k = if k = c then {} else getClient s k) ∧
        y.host.fetched = x.host.fetched.filter (fun w => decide (queueClient w.q ≠ c)) ∧ (∀ k, (getEnt s k).ownedBy c = true → getEnt y k = {}) ∧
        Only [.mem, .regs, .dict, .sat, .cat, .plates, .tiles, .units, .clients, .fabric, .rot, .host, .logs, .free] s y)

/-- Loading, archiving and restoring (R218, R219, R342, R376 to R384, R389). LOAD_PLATES is BUSY during a run; an image that is not the client's, not aligned, or poisoned fails with reason 1, each further check with its own, a refused Catalog
record with reason 5 and the refusal's code, the set gone; else the client has the set that the image holds, and its caches are empty. ARCHIVE_OUT that cannot be served is REFUSED; armed, it waits for its boundary; else it is BUSY during a run, waits while an
image streams out, or captures. A scheduled capture that finds no armed command, or one streaming, is skipped; one whose conditions no longer hold is REFUSED and skipped. An image that streams out reaches the host, counts, and its command completes, or fails on the host bus.
RESTORE_IN is BUSY, NO_PLATES, HOST_FAULT or REFUSED with the reason of its first failed check; data that cannot be read, or does not match its CRC, fails with reason 5, a refused record with reason 8 and its code; else the client has the image's step index and seed, and ARCH_STATE is 4. -/
def Obligations.ArchiveCommands : Prop :=
  ∀ s : State,
    (∀ q h, HostServes s q 1 h →
      let x := dropHost h s
      let c := queueClient h.q
      let k := loadCmd h
      let e := getEnt s k.ibuf
      let secs := k.sections.map fun z => s.bytesOf e (k.ibuf / 4096) (k.ioff + z.1) z.2
      let im := imageOf k (secs.map plain)
      ((getClient s c).run ≠ none → ∃ n, exec (.loadPlates q) s = .next n ∧ CmdDone h 1 0 x n) ∧
      ((getClient s c).run = none → imageBad s c k = true → ∃ n, exec (.loadPlates q) s = .next n ∧ CmdDone h 3 1 x n) ∧
      ((getClient s c).run = none → imageBad s c k = false → (∃ b ∈ secs, anyPoison b = true) →
        ∃ y n, exec (.loadPlates q) s = .next n ∧ CmdDone h 3 1 y n ∧ Only accessParts s y) ∧
      ((getClient s c).run = none → imageBad s c k = false → (∀ b ∈ secs, anyPoison b = false) → ∃ z poison, Only accessParts s z ∧ SameBytes s z ∧
        let t := applyRecs c im.recs z
        (∀ r, loadReason z t.2 c k im poison = some r → ∃ n, exec (.loadPlates q) s = .next n ∧ CmdDone h 3 r z n) ∧
        (loadReason z t.2 c k im poison = none → ∃ y n, exec (.loadPlates q) s = .next n ∧ Only (.cat :: .plates :: accessParts) s y ∧
          (∀ code, t.1 = some code → CmdDone h 3 (5 + 256 * code) y n ∧ (getClient y c).set = none) ∧
          (t.1 = none → CmdDone h 0 0 y n ∧ (getClient y c).set = some (setOf k im) ∧
            ∀ i, hasDie (getClient y c) (i / 16) = true → (getCaches y i).lines = [])))) ∧
    (∀ q h, HostServes s q 3 h →
      let x := dropHost h s
      let c := queueClient h.q
      let a := (getClient s c).arch
      let arm := bit (h.w 3) 0
      let j : ArchJob := { q := h.q, cmdid := h.id, notify := h.notify, words := h.words }
      let r := archNames c h.words x
      let bad := r.2.1 = true ∨ archBad s c h.words r.1 = true ∨ (arm = true ∧ a.armed ≠ none)
      (archListBad s c h.words = true → ∃ n, exec (.archiveOut q) s = .next n ∧ CmdDone h 2 0 x n) ∧
      (archListBad s c h.words = false → bad → ∃ y n, exec (.archiveOut q) s = .next n ∧ CmdDone h 2 0 y n ∧ Only accessParts s y) ∧
      (archListBad s c h.words = false → ¬ bad → arm = true → ∃ n, exec (.archiveOut q) s = .next n ∧
        (getClient n c).arch = { a with armed := some j } ∧ Only accessParts s n) ∧
      (archListBad s c h.words = false → ¬ bad → arm = false → (getClient s c).run ≠ none →
        ∃ y n, exec (.archiveOut q) s = .next n ∧ CmdDone h 1 0 y n ∧ Only accessParts s y) ∧
      (archListBad s c h.words = false → ¬ bad → arm = false → (getClient s c).run = none → a.out ≠ none → exec (.archiveOut q) s = .next (holdHost h x)) ∧
      (archListBad s c h.words = false → ¬ bad → arm = false → (getClient s c).run = none → a.out = none →
        ∃ n, exec (.archiveOut q) s = .next n ∧ Captured c j r.1 r.2.2 n ∧ (getClient n c).arch.armed = a.armed ∧ Only (.free :: accessParts) s n)) ∧
    (∀ c : ClientId,
      let a := (getClient s c.val).arch
      let off (g : ArchSt → ArchSt) (y : State) : State := setClient c.val { getClient y c.val with arch := g (getClient y c.val).arch } y
      let s0 := off (fun a => { a with due := false }) s
      (a.due = false → exec (.archiveCapture c) s = .next s) ∧
      (a.due = true → a.armed = none ∨ a.out ≠ none → ∃ n, exec (.archiveCapture c) s = .next n ∧ CaptureSkipped c.val a.out.isSome s0 n) ∧
      (a.due = true → a.out = none → ∀ j, a.armed = some j →
        let r := archNames c.val j.words s0
        let bad := archListBad s0 c.val j.words = true ∨ r.2.1 = true ∨ archBad r.2.2 c.val j.words r.1 = true
        (bad → ∃ y n, exec (.archiveCapture c) s = .next n ∧ CaptureSkipped c.val false y n ∧ (getClient n c.val).arch.armed = none ∧
          y = hostDone j.q j.cmdid j.notify 2 0 (off (fun a => { a with armed := none }) r.2.2)) ∧
        (¬ bad → ∃ n, exec (.archiveCapture c) s = .next n ∧ Captured c.val j r.1 r.2.2 n ∧ (getClient n c.val).arch.armed = none))) ∧
    (∀ c : ClientId,
      let a := (getClient s c.val).arch
      (a.out = none → exec (.archiveStreamOut c) s = .next s) ∧
      ∀ j, a.out = some j →
        let at0 := (nth 0 j.words 1).toNat
        let len := j.image.length
        ∃ y n st, exec (.archiveStreamOut c) s = .next n ∧ n = hostDone j.q j.cmdid j.notify st 0 y ∧ (getClient y c.val).arch = { a with out := none } ∧
          getDict y (dkey 0x9001 c.val) = 0 ∧ Only [.dict, .sat, .clients, .host, .logs, .ledger] s y ∧
          (hostOk s at0 len = false → st = 9 ∧ y.host = s.host) ∧
          (hostOk s at0 len = true → st = (if j.poison then 8 else 0) ∧ (∀ i, i < len → hostByte y (at0 + i) = nth 0 j.image i) ∧
            (∀ b, b < at0 ∨ at0 + len ≤ b → hostByte y b = hostByte s b) ∧
            getDict y (dkey 0x9000 0x01) = countUp 64 (getDict s (dkey 0x9000 0x01)) 1 ∧ getDict y (dkey 0x9000 0x04) = countUp 64 (getDict s (dkey 0x9000 0x04)) len)) ∧
    (∀ q n, (exec (.loadPlates q) s = .next n → Only (.cat :: .plates :: accessParts) s n) ∧ (exec (.archiveOut q) s = .next n → Only (.free :: accessParts) s n) ∧
      (exec (.restoreIn q) s = .next n → Only (.blobs :: .cat :: .plates :: accessParts) s n)) ∧
    (∀ c n, exec (.archiveCapture c) s = .next n → Only (.free :: accessParts) s n) ∧
    ∀ q h, HostServes s q 4 h →
      let x := dropHost h s
      let c := queueClient h.q
      let (img, poison, avail, headOk, dataOk) := restoreSource h s
      let man := hostBytes s (h.w 5).toNat (fld (h.w 6) 0 32)
      let reach := headOk = true ∧ hostOk s (h.w 5).toNat (fld (h.w 6) 0 32) = true
      let good := dataOk = true ∧ poison = false ∧ ∀ z ∈ (imgTable img).drop 2, secGood img z = true
      let p := (wordAt img 1).toNat
      ((getClient s c).run ≠ none → ∃ n, exec (.restoreIn q) s = .next n ∧ CmdDone h 1 0 x n) ∧
      ((getClient s c).run = none → (getClient s c).set = none → ∃ n, exec (.restoreIn q) s = .next n ∧ CmdDone h 10 0 x n) ∧
      ((getClient s c).run = none → (getClient s c).set ≠ none →
        (¬ reach → ∃ n, exec (.restoreIn q) s = .next n ∧ CmdDone h 9 0 x n) ∧
        (reach → ∀ r, checkReason s c avail img man = some r → ∃ y n, exec (.restoreIn q) s = .next n ∧ CmdDone h 2 r y n ∧
          getDict y (dkey 0x9000 0x06) = countUp 64 (getDict s (dkey 0x9000 0x06)) 1 ∧ Only [.dict, .sat, .host, .logs] s y) ∧
        (reach → checkReason s c avail img man = none →
          (¬ good → ∃ y n, exec (.restoreIn q) s = .next n ∧ RestoreFailed h 5 y n) ∧
          (good → (∃ k y n, exec (.restoreIn q) s = .next n ∧ RestoreFailed h (8 + 256 * k) y n) ∨
            (∃ y n, exec (.restoreIn q) s = .next n ∧ CmdDone h 0 0 y n ∧ (getClient y c).next = p ∧ (getClient y c).seed = some (wordAt img 6).toNat ∧
              (getClient y c).scope = 0 ∧ getDict y (dkey 0x9001 c) = 4 ∧ getDict y (dkey 0x5101 c) = BitVec.ofNat 64 (fld (wordAt img 2) 32 32) ∧
              getDict y (dkey 0x9004 c) = BitVec.ofNat 64 (fld (wordAt man 3) 32 32)))))

/-- The rotation and the arbiters (R352, R355, R357, R358, R361 to R364). A slice is due at its end, shortened by debt; without a rotation, at the first period of one that software has set. At a due slice each client of it whose windows are closed
stops, with its boundary, and is saved once its dies are at rest; a capture that is due holds it back. When all are saved and the next slice's start has come, that slice begins, its clients run or stand idle, without debt, and the switch is counted. A unit still running 50 us after
its client's boundary posts a long-command event, once. An arbiter that serves one request a cycle grants the best class, round robin in it, counts the grant and the longest wait, and a cycle of wait for the requesters left; a withdrawn grant
is counted as such. -/
def Obligations.RotationAndArbiters : Prop :=
  ∀ s : State,
    (let w := s.tick
     let t := nextTable s
     let ended := sliceStart s s.rot.slice + sliceLen (rotEntry s s.rot.slice) - s.rot.cut ≤ w
     (s.rot.due = true → exec .sliceDue s = .next s) ∧
     (s.rot.due = false → s.rot.len ≠ 0 → exec .sliceDue s = .next (if ended then { s with rot := { s.rot with due := true } } else s)) ∧
     (s.rot.due = false → s.rot.len = 0 → exec .sliceDue s =
       .next (if t.1 ≠ 0 ∧ nextStart s t w = w then { s with rot := { s.rot with due := true, origin := w } } else s))) ∧
    ((s.rot.due = false → exec .switchOut s = .next s) ∧
     (s.rot.due = true → ∃ n, exec .switchOut s = .next n ∧ n.rot.between = true ∧ n.rot.due = true ∧ n.rot.slice = s.rot.slice ∧
       Only [.mem, .regs, .sat, .cat, .plates, .tiles, .units, .clients, .rot, .host, .logs, .ledger] s n ∧
       ∀ k : Nat,
         let c := getClient s k
         let goes (j : Nat) : Prop := j ∈ sliceClients s ∧ (getClient s j).arch.due = false ∧ (getClient s j).arch.pause = 0
         let stops := (c.state = 1 ∨ c.state = 2) ∧ anyOpen s k = false
         (¬ goes k → getClient n k = c ∧ mget 0 n.rot.bounds k = mget 0 s.rot.bounds k) ∧
         (goes k → getClient n k = { c with state := (getClient n k).state } ∧
           (stops → ((getClient n k).state = 4 ∨ (getClient n k).state = 3) ∧ mget 0 n.rot.bounds k = s.tick) ∧
           (¬ stops → mget 0 n.rot.bounds k = mget 0 s.rot.bounds k ∧ (c.state ≠ 4 → (getClient n k).state = c.state) ∧ (c.state = 4 → (getClient n k).state = 4 ∨ (getClient n k).state = 3)) ∧
           (stops ∨ c.state = 4 → (∀ j, goes j → j = k) → ((getClient n k).state = 3 ↔ ∀ d ∈ clientDies c, dieAtRest s d = true))))) ∧
    (let (i, t, origin, start) := nextSlice s
     let ready := s.rot.due = true ∧ s.rot.between = true ∧ (∀ c ∈ sliceClients s, (getClient s c).state = 3) ∧ start ≤ s.tick
     let here (k : Nat) : Prop := k < 16 ∧ (t.1 = 0 ∨ bit (mget 0 t.2 i) k = true) ∧ ((getClient s k).state = 1 ∨ (getClient s k).state = 3)
     (¬ ready → exec .switchIn s = .next s) ∧
     (ready → ∃ n, exec .switchIn s = .next n ∧ Only [.mem, .regs, .dict, .sat, .cat, .plates, .tiles, .units, .clients, .rot, .host, .logs, .ledger] s n ∧
       n.rot.due = false ∧ n.rot.between = false ∧ n.rot.slice = i ∧ n.rot.len = t.1 ∧ n.rot.entries = t.2 ∧ n.rot.origin = origin ∧ n.rot.bounds = [] ∧
       n.rot.long = [] ∧ n.rot.overrun = 0 ∧ n.rot.cost = [] ∧ getDict n (dkey 0x7000 0x08) = countUp 64 (getDict s (dkey 0x7000 0x08)) 1 ∧
       ∀ k, (here k → (getClient n k).state = (if (getClient s k).run.isSome then 2 else 1) ∧ (getClient n k).debt = 0 ∧ (getClient s k).debt ≤ n.rot.cut) ∧
         (¬ here k → getClient n k = { getClient s k with scope := (getClient n k).scope }))) ∧
    (∀ e : Eng,
      let c := clientOn s (engDie e)
      let due := (getClient s c).state = 4 ∧ mget 0 s.rot.bounds c + 50 ≤ s.tick ∧ unitRuns s e = true ∧ engKey e ∉ s.rot.long
      (¬ due → exec (.longCommand e) s = .next s) ∧
      (due → ∃ y, exec (.longCommand e) s = .next (post 0x0208 c (engCode e + 16 * engUnit e + 256 * engDie e) y) ∧
        y.rot = { s.rot with long := s.rot.long ++ [engKey e] } ∧ getDict y (dkey 0x7000 0x0B) = countUp 64 (getDict s (dkey 0x7000 0x0B)) 1 ∧
        Only [.dict, .sat, .rot, .host, .logs] s y)) ∧
    (∀ (res : Nat) (d : DieId) (reqs : List ArbReq),
      let a := mget {} s.arbs (arbKey res d.val)
      let a0 := if (getDict s (dkey 0x7000 0x04)).toNat ≤ a.cycle then arbWindow a else a
      (4 ≤ res → exec (.arbiterGrant res d reqs) s = .next s) ∧
      (res < 4 → ∃ n, exec (.arbiterGrant res d reqs) s = .next n ∧ Only [.sat, .arbs, .host, .logs] s n ∧
        (∀ k, k ≠ arbKey res d.val → mget {} n.arbs k = mget {} s.arbs k) ∧
        let x := mget {} n.arbs (arbKey res d.val)
        (reqs = [] → x = { a0 with cycle := a0.cycle + 1 }) ∧
        (res ≠ 2 → reqs ≠ [] → ∃ r ∈ reqs,
          let dist (q : ArbReq) : Nat := (q.code + 64 - (mget 63 a0.last (arbClass s a0 r) + 1) % 64) % 64
          (∀ q ∈ reqs, arbClass s a0 r ≤ arbClass s a0 q) ∧ (∀ q ∈ reqs, arbClass s a0 q = arbClass s a0 r → dist r ≤ dist q) ∧
          x.cycle = a0.cycle + 1 ∧ mget 63 x.last (arbClass s a0 r) = r.code % 64 ∧
          ∀ k,
            let y := mget {} a0.cnts k
            let y' : ArbCnt := if k = r.code then { y with
                grants := min (2 ^ 64 - 1) (y.grants + 1), maxWait := min (2 ^ 32 - 1) (max y.maxWait r.age),
                high := if arbClass s a0 r = 0 then y.high + 1 else y.high } else y
            mget {} x.cnts k = if ∃ q ∈ reqs.erase r, q.code = k then { y' with wait := min (2 ^ 64 - 1) (y'.wait + 1) } else y'))) ∧
    ∀ (res : Nat) (d : DieId) (code : Nat),
      let a := mget {} s.arbs (arbKey res d.val)
      let x := mget {} a.cnts code
      (4 ≤ res ∨ x.grants = 0 → exec (.grantWithdraw res d code) s = .next s) ∧
      (res < 4 → x.grants ≠ 0 → ∃ n, exec (.grantWithdraw res d code) s = .next n ∧ Only [.sat, .arbs, .host, .logs] s n ∧
        n.arbs = mset {} s.arbs (arbKey res d.val) { a with cnts := mset {} a.cnts code { x with grants := x.grants - 1, withdrawn := min (2 ^ 32 - 1) (x.withdrawn + 1) } })

/-- The stages of the start (R391 to R393, R395 to R397, R401, R402, R416, R432). Sketch follows PWR_GOOD or a cold reset, once: stage 1, the Folio all zeros, a
Catalog with no entries, the node's ID from the override or the straps, the rate and width of PCI Express; a fuse that reads back inconsistently sets STAGE_FAULT 5.
The boot takes the preferred image, else the other with its count and event, else Sketch recovery. Proof needs verified firmware and no fuse fault, and
runs TCLK at 0.8 GHz; Edition needs every task met and no RUN_STEPS, and raises the lowest accepted security version; 120 s without it set STAGE_FAULT 4.
Update bytes go to the slot that does not run; a commit that verifies sets and saves the preference alone; CFG_SAVE saves the entries of R402 and R420. -/
def Obligations.StartStages : Prop :=
  ∀ s : State,
    (∀ m : SketchIn,
      (s.start.good = false ∨ s.start.sketched = true → exec (.sketchEntry m) s = .next s) ∧
      (s.start.good = true → s.start.sketched = false → ∃ n, exec (.sketchEntry m) s = .next n ∧
        n.start.sketched = true ∧ n.start.resetNow = 0 ∧ n.start.tripNote = none ∧ stageOf n = 1 ∧
        getDict n (dkey 0x2000 0x03) = BitVec.ofNat 64 ((s.tick - s.start.goodTick) / 1000) ∧
        (m.fuseBad ≠ [] → getDict n (dkey 0x2000 0x02) = 5) ∧
        n.cat = { epochs := s.cat.epochs } ∧ n.mem.owner = [] ∧
        (∀ a, mget 0#8 n.mem.cells a = if 0xF0000000000 ≤ a then 0#8 else mget 0#8 s.mem.cells a) ∧
        (∀ w, mget 0#16 n.mem.synd w = if 0xF0000000000 ≤ 8 * w then 0#16 else mget 0#16 s.mem.synd w) ∧
        (s.start.resetNow = 2 → getDict n (dkey 0x1100 0x02) = getDict s (dkey 0x1100 0x02)) ∧
        getDict n (dkey 0x1100 0x03) = m.strap.setWidth 64 ∧
        getDict n (dkey 0x1100 0x01) = (if getDict n (dkey 0x1100 0x02) ≠ 0 then getDict n (dkey 0x1100 0x02) else m.strap.setWidth 64) ∧
        (getDict n (dkey 0x1100 0x01) = 0 → canState n = 3) ∧
        getDict n (dkey 0x1100 0x20) = BitVec.ofNat 64 m.speed ∧ getDict n (dkey 0x1100 0x21) = BitVec.ofNat 64 m.width ∧
        Only [.mem, .regs, .dict, .sat, .cat, .banks, .host, .logs, .start, .wearS] s n)) ∧
    (let ready := s.start.sketched = true ∧ s.start.firmware = false ∧ stageOf s = 1
     let k := (getDict s (dkey 0x2000 0x0C)).toNat % 2
     (¬ ready → exec .bootVerify s = .next s) ∧
     (ready → imageGood s (slotImage s k) = true → ∃ n, exec .bootVerify s = .next n ∧ Booted k s n) ∧
     (ready → imageGood s (slotImage s k) = false → imageGood s (slotImage s (1 - k)) = true →
       ∃ y z, exec .bootVerify s = .next (post 0x0802 16 (1 - k) z) ∧ Booted (1 - k) s y ∧ Only [.dict, .sat, .host, .logs] y z ∧
         getDict z (dkey 0x2000 0x0E) = countUp 32 (getDict s (dkey 0x2000 0x0E)) 1) ∧
     (ready → imageGood s (slotImage s k) = false → imageGood s (slotImage s (1 - k)) = false →
       ∃ y n, exec .bootVerify s = .next n ∧ StageEntered 0x81 s y ∧ StageFaulted 1 y n)) ∧
    (let ready := s.start.firmware = true ∧ stageOf s = 1 ∧ getDict s (dkey 0x2000 0x02) ≠ 5
     (¬ ready → exec .proofEntry s = .next s) ∧
     (ready → ∃ y n, exec .proofEntry s = .next n ∧ y.start = { s.start with tcut := 800 } ∧ getDict y (dkey 0x2100 0x10) = 800 ∧
       (∀ j, j ≠ dkey 0x2100 0x10 → getDict y j = getDict s j) ∧ Only [.dict, .start] s y ∧ StageEntered 2 y n)) ∧
    (let ready := stageOf s = 2 ∧ TasksMet s ∧ ∀ x ∈ s.clients, x.2.run = none
     let k := dkey 0x2000 0x0D
     (¬ ready → exec .editionEntry s = .next s) ∧
     (ready → ∃ y n, exec .editionEntry s = .next n ∧ y.start = { s.start with selftest := false } ∧
       getDict y k = BitVec.ofNat 64 (max s.start.svn (getDict s k).toNat) ∧
       (∀ j, j ≠ k → getDict y j = getDict s j) ∧ Only [.dict, .start] s y ∧ StageEntered 3 y n)) ∧
    ((s.start.good = false ∨ stageOf s = 3 → exec .stageTimeout s = .next s) ∧
     (s.start.good = true → stageOf s ≠ 3 → ∃ n, exec .stageTimeout s = .next n ∧ StageFaulted 4 s n)) ∧
    (∀ data : List Byte,
      let o := (getDict s (dkey 0x2000 0x10)).toNat
      let base := (1 - (getDict s (dkey 0x2000 0x0B)).toNat % 2) * slotSize + o
      let fits := data.length ≠ 0 ∧ data.length ≤ 65536 ∧ o + data.length ≤ slotSize
      (¬ fits → exec (.fwUpdData data) s = .next s) ∧
      (fits → ∃ n, exec (.fwUpdData data) s = .next n ∧ n.start = { s.start with flash := n.start.flash } ∧
        (∀ a, mget 0#8 n.start.flash a = if base ≤ a ∧ a < base + data.length then nth 0#8 data (a - base) else mget 0#8 s.start.flash a) ∧
        (getDict n (dkey 0x2000 0x10)).toNat = o + data.length ∧
        (∀ j, j ≠ dkey 0x2000 0x10 → getDict n j = getDict s j) ∧ Only [.dict, .start] s n)) ∧
    (let slot := 1 - (getDict s (dkey 0x2000 0x0B)).toNat % 2
     let k := dkey 0x2000 0x0C
     (imageGood s (slotImage s slot) = false → exec .fwUpdCommit s = .next s) ∧
     (imageGood s (slotImage s slot) = true → ∃ n, exec .fwUpdCommit s = .next n ∧ n.start = { s.start with saved := n.start.saved } ∧
       (∀ j, j ≠ k → getDict n j = getDict s j ∧ mget (dictDefault j) n.start.saved j = mget (dictDefault j) s.start.saved j) ∧
       getDict n k = BitVec.ofNat 64 slot ∧ mget (dictDefault k) n.start.saved k = BitVec.ofNat 64 slot ∧ Only [.dict, .start] s n)) ∧
    ∃ n, exec .cfgSave s = .next n ∧ n.start = { s.start with saved := n.start.saved } ∧ Only [.start] s n ∧
      ∀ k, mget (dictDefault k) n.start.saved k = if k ∈ savedEntries then getDict s k else mget (dictDefault k) s.start.saved k

/-- The tasks of Proof (R85, R87, R268, R276, R294, R333, R394, R431 to R434). A stack's training repairs the rows that wait for it, counts, and brings the stack up with
every byte written once, or fails it, with its event and STAGE_FAULT 2. A die's array self-test passes the tiles whose bad rows and columns can be
repaired, records those repairs, puts the spare tile in for one that failed, marks the tiles that serve, counts 17 tasks and posts the result; fewer than 16 tiles set
STAGE_FAULT 3. A port that trains takes its state, its peer and the lane it leaves out, which is recorded, and the parent port is chosen anew. A die's core check lets the spare
core serve for the one that failed; where that cannot be, the check is not complete and a STAGE_FAULT is set, its code open. -/
def Obligations.ProofTasks : Prop :=
  ∀ s : State,
    (∀ i : StackId,
      let a := stkBlk i.val 0
      let up := dkey 0x3000 0x01
      let mine (x : Swap) : Bool := decide (x.die.val = i.val / 6) && decide (x.unit = i.val % 6)
      let here (b : Nat) : Prop := regionOf b = .stack i.val
      let ready := stageOf s = 2 ∧ fld (getReg s a) 0 2 = 0
      (¬ ready → ∀ ok, exec (.stackTraining i ok) s = .next s) ∧
      (ready → ∃ y z,
        Chain (fun x s n => SwapRecorded 6 x.die.val x.unit 0 0 x.cause x.row s n) (s.wearS.rows.filter mine)
          { s with wearS := { s.wearS with rows := s.wearS.rows.filter fun x => !mine x } } y ∧
        (getDict z (dkey 0x2000 0x07) = BitVec.ofNat 64 ((getDict s (dkey 0x2000 0x07)).toNat + 1) ∧ Only [.dict] y z) ∧
        (∃ n, exec (.stackTraining i true) s = .next n ∧ fld (getReg n a) 0 2 = 1 ∧ bit (getDict n up) i.val = true ∧
          (∀ k, k ≠ up → getDict n k = getDict z k) ∧ (∀ b, b ≠ a → getReg n b = getReg s b) ∧
          (∀ b, (here b → mget 0#8 n.mem.cells b = 0#8) ∧ (¬ here b → mget 0#8 n.mem.cells b = mget 0#8 s.mem.cells b)) ∧
          (∀ w, (here (8 * w) → mget 0#16 n.mem.synd w = 0#16) ∧ (¬ here (8 * w) → mget 0#16 n.mem.synd w = mget 0#16 s.mem.synd w)) ∧
          Only [.mem, .regs, .dict] z n) ∧
        ∃ x n, exec (.stackTraining i false) s = .next n ∧ StageFaulted 2 (post 0x0601 16 (i.val + 32) x) n ∧ fld (getReg x a) 0 2 = 2 ∧
          bit (getDict x up) i.val = false ∧ (∀ k, k ≠ up → getDict x k = getDict z k) ∧ (∀ b, b ≠ a → getReg x b = getReg s b) ∧ Only [.regs, .dict] z x)) ∧
    (∀ (d : DieId) (m : SelfTestIn),
      let spare := bit (getDict s (dkey 0x8000 0x0C)) d.val = true
      let cause := if s.start.selftest then 8 else 1
      let ready := stageOf s = 2 ∧ mget 0 s.start.tilesOk d.val = 0
      (¬ ready → exec (.arraySelfTest d m) s = .next s) ∧
      (ready → ∃ (passed : BitVec 17) (y1 y2 z n : State), exec (.arraySelfTest d m) s = .next n ∧
        (∀ p, p < 17 → (bit passed p = true ↔ bit m.passed p = true ∧ RepairFits s 1 d.val p m.rows ∧ RepairFits s 2 d.val p m.cols)) ∧
        Chain (fun x s n => SwapRecorded 1 d.val x.1 x.2 (x.2 / 65 * 65 + 64) cause 0 s n) (m.rows.filter fun x => bit passed x.1) s y1 ∧
        Chain (fun x s n => SwapRecorded 2 d.val x.1 x.2 (x.2 / 65 * 65 + 64) cause 0 s n) (m.cols.filter fun x => bit passed x.1) y1 y2 ∧
        Only [.dict, .sat, .host, .logs, .start, .wearS] y2 n ∧
        (∀ t, t < 16 → physTile n d.val t = physTile s d.val t ∨
          (physTile n d.val t = 16 ∧ spare ∧ bit passed 16 = true ∧ bit passed (physTile s d.val t) = false)) ∧
        (∀ t u, t < 16 → u < 16 → physTile n d.val t ≠ physTile s d.val t → physTile n d.val u ≠ physTile s d.val u → t = u) ∧
        (spare → bit passed 16 = true → (∃ t, t < 16 ∧ bit passed (physTile s d.val t) = false) →
          (∃ t, t < 16 ∧ physTile n d.val t = 16) ∧ bit (getDict n (dkey 0x8000 0x0C)) d.val = false) ∧
        mget 0 n.start.tilesOk d.val = passed.toNat + 2 ^ 17 ∧ (∀ k, k ≠ d.val → mget 0 n.start.tilesOk k = mget 0 s.start.tilesOk k) ∧
        getDict n (dkey 0x2000 0x07) = BitVec.ofNat 64 ((getDict s (dkey 0x2000 0x07)).toNat + 17) ∧
        (∀ j, j < 64 → (bit (getDict n (dkey 0x2000 0x06)) j = true ↔
          bit (getDict s (dkey 0x2000 0x06)) j = true ∨ (j / 16 = d.val ∧ bit passed (physTile n d.val (j % 16)) = true))) ∧
        let e := post 0x0905 16 (d.val + 4 * passed.toNat) z
        ((∀ t, t < 16 → bit passed (physTile n d.val t) = true) → n = e) ∧
        ((∃ t, t < 16 ∧ bit passed (physTile n d.val t) = false) → StageFaulted 3 e n))) ∧
    (∀ (p : PortId) (m : TrainIn),
      let a := portStatus p.val
      let old := fld (getReg s a) 3 3
      let u := (getDict s (dkey 0x5000 0x0D)).toNat
      let idle := (p.val = 7 ∧ u % 4 ≠ 2) ∨ (p.val = 23 ∧ u / 4 % 4 ≠ 2)
      let ready := (stageOf s = 2 ∨ stageOf s = 3) ∧ portState s p.val ≠ 2 ∧ portState s p.val ≠ 3
      (¬ ready → exec (.linkTraining p m) s = .next s) ∧
      (ready → ∃ n, exec (.linkTraining p m) s = .next n ∧
        (m.up = false → portState n p.val = 4) ∧ (m.up = true → idle → portState n p.val = 5) ∧ (m.up = true → ¬ idle → portState n p.val = 2) ∧
        peerMod n p.val = m.peerMod % 4096 ∧ peerPort n p.val = m.peerPort % 32 ∧ (∀ b, b ≠ a → getReg n b = getReg s b) ∧
        ((∀ l, m.lane = some l → l < 5 → l = old) → fld (getReg n a) 3 3 = old ∧ n.wearS = s.wearS) ∧
        (∀ l, m.lane = some l → l < 5 → l ≠ old → fld (getReg n a) 3 3 = l ∧ ∃ y z, y.wearS = s.wearS ∧
          SwapRecorded 7 (p.val / 8) p.val l old (if s.start.selftest then 8 else 1) 0 y z ∧ n.wearS = z.wearS) ∧
        n.fabric = { s.fabric with time := { s.fabric.time with parent := if isRoot s then none else chooseParent n } } ∧
        (isRoot s = true → getDict n (dkey 0x5000 0x0A) = 0) ∧
        (isRoot s = false → ∀ q, chooseParent n = some q → getDict n (dkey 0x5000 0x0A) = BitVec.ofNat 64 (depthOf s q + 1)) ∧
        getDict n (dkey 0x2000 0x07) = (if stageOf s = 2 ∧ portState s p.val ≤ 1 then BitVec.ofNat 64 ((getDict s (dkey 0x2000 0x07)).toNat + 1)
          else getDict s (dkey 0x2000 0x07)) ∧
        Only [.regs, .dict, .sat, .fabric, .host, .logs, .wearS] s n)) ∧
    ∀ (d : DieId) (bad : List (Fin 5)),
      let failed (c : Nat) : Prop := ∃ b ∈ bad, b.val = c
      let served := s.start.cores ||| 2 ^ d.val
      let cause := if s.start.selftest then 8 else 1
      let ready := stageOf s = 2 ∧ s.start.cores.testBit d.val = false
      let spare := ¬ failed 4 ∧ mget 0 s.start.spareCore d.val = 0
      (¬ ready → exec (.registrarCheck d bad) s = .next s) ∧
      (ready → (∀ c, c < 4 → ¬ failed c) → ∃ n, exec (.registrarCheck d bad) s = .next n ∧ n.start = { s.start with cores := served } ∧
        (failed 4 → bit (getDict n (dkey 0x8000 0x0E)) d.val = false) ∧ (¬ failed 4 → n.dict = s.dict) ∧ Only [.dict, .start] s n) ∧
      (ready → ∀ c, c < 4 → failed c → (∀ k, k < 4 → failed k → k = c) → spare → ∃ y n, exec (.registrarCheck d bad) s = .next n ∧
        SwapRecorded 9 d.val 0 c 4 cause 0 y n ∧ y.start = { s.start with cores := served, spareCore := mset 0 s.start.spareCore d.val (c + 1) } ∧
        bit (getDict n (dkey 0x8000 0x0E)) d.val = false ∧ Only [.dict, .start] s y) ∧
      (ready → ∀ c, c < 4 → failed c → (∀ k, k < 4 → failed k → c ≤ k) → ¬ ((∀ k, k < 4 → failed k → k = c) ∧ spare) →
        ∃ y n code, exec (.registrarCheck d bad) s = .next n ∧ StageFaulted code y n ∧ 1 ≤ code ∧ code ≤ 128 ∧
          y.start = s.start ∧ (failed 4 → bit (getDict n (dkey 0x8000 0x0E)) d.val = false) ∧ (¬ failed 4 → y.dict = s.dict) ∧
          Only [.dict, .host, .logs, .wearS, .free] s y)

/-- CAN FD and the mailbox (R407 to R418). A frame that is no request of this node's, or is another command's, changes nothing; a malformed one is aborted. Reads
and entry records return their value, writes are applied and answered, long values go in blocks of segments each acknowledged up to the last in order, a request that opens a transaction ends the one
under its tag, and a fifth is refused; aborts and timeouts end a transaction. Events that are severe enough are sent, the newest that the rate allows in
a second, the rest counted; heartbeats carry the stage, the fault and the clients; a node that hears its ID does not take part. The error counters rise as log 102 says, and
a recovery from bus-off clears and counts them. GO serves a mailbox request here, or forwards it while a port is up; a request without a result ends with TIMEOUT. -/
def Obligations.CanAndMailbox : Prop :=
  ∀ s : State,
    (∀ f : CanFrame,
      let req := canOn s = true ∧ f.id = 0xC * 128 + nodeId s ∧ 8 ≤ f.data.length
      let bad := f.cmd ∉ [1, 2, 3, 6, 7, 9, 0xF] ∨ f.data.length ∉ [8, 12, 16, 20, 24, 32, 48, 64]
      (∀ x ∈ [(1, Instr.canRead f), (2, .canWrite f), (3, .canWriteInit f), (6, .canSegment f), (7, .canBlockAck f), (9, .canInfo f), (0xF, .canAbort f)],
        (¬ req ∨ (¬ bad ∧ f.cmd ≠ x.1) → exec x.2 s = .next s) ∧
        (req → bad → ∃ g n, exec x.2 s = .next n ∧ CanHeard s g ∧ CanAborted f.tag 0xA g n)) ∧
      (req → ¬ bad → ∃ g, CanHeard s g ∧
        (f.cmd = 1 → ∃ n, exec (.canRead f) s = .next n ∧ Opening f.tag (fun m n => Returned f (dictRead f.index f.sub m) n) g n) ∧
        (f.cmd = 9 → ∃ n, exec (.canInfo f) s = .next n ∧ Opening f.tag (fun m n => Returned f (dictInfo f.index f.sub m) n) g n) ∧
        (f.cmd = 2 → ∃ n, exec (.canWrite f) s = .next n ∧ Opening f.tag (fun m n =>
          let fits := 1 ≤ f.len ∧ f.len ≤ 56 ∧ f.len ≤ f.body.length
          (¬ fits → CanAborted f.tag 0xA m n) ∧ (fits → Applied f.tag f.index f.sub (f.body.take f.len) m n)) g n) ∧
        (f.cmd = 3 → ∃ n, exec (.canWriteInit f) s = .next n ∧ Opening f.tag (fun m n =>
          let size := leNat (f.body.take 4)
          let fits := 4 ≤ f.body.length ∧ 57 ≤ size ∧ size ≤ 65536
          let x : CanTx := { tag := f.tag, ix := f.index, sub := f.sub, write := true, data := [], size := size }
          (¬ fits → CanAborted f.tag 0xA m n) ∧
          (fits → FrameSent 0xB (nodeId m) (segHead 7 f.tag 0 0 16) { m with can := { m.can with txs := m.can.txs ++ [x] } } n)) g n) ∧
        (f.cmd = 6 → ∃ n, exec (.canSegment f) s = .next n ∧ (findTrans g f.tag = none → n = g) ∧ ∀ x, findTrans g f.tag = some x →
          (x.write = false → CanAborted f.tag 0xA g n) ∧ (x.write = true → SegmentTaken x f g n)) ∧
        (f.cmd = 7 → ∃ n, exec (.canBlockAck f) s = .next n ∧ (findTrans g f.tag = none → n = g) ∧ ∀ x, findTrans g f.tag = some x → BlockServed x f g n) ∧
        (f.cmd = 0xF → ∃ n, exec (.canAbort f) s = .next n ∧ AbortCounted (ended f.tag g) n))) ∧
    (∀ tag : Nat,
      (canOn s = false ∨ findTrans s tag = none → exec (.canTimeout tag) s = .next s) ∧
      (∀ x, canOn s = true → findTrans s tag = some x → ∃ n, exec (.canTimeout tag) s = .next n ∧ CanAborted tag 9 s n) ∧
      (canOn s = false ∨ findTrans s tag = none → exec (.canSegmentGapTimer tag) s = .next s) ∧
      (∀ x, findTrans s tag = some x → x.write = false → exec (.canSegmentGapTimer tag) s = .next s) ∧
      (∀ x, canOn s = true → findTrans s tag = some x → x.write = true → ∃ n, exec (.canSegmentGapTimer tag) s = .next n ∧ Acked x s n)) ∧
    (let low := dictNat s 0x1100 0x06
     let l := s.logs.canWait.filter fun e => decide (low ≠ 0xFF) && decide (low ≤ e.sev)
     let sec := s.tick / 1000000
     let used := if s.can.second = sec then s.can.rate else 0
     let k := min l.length (dictNat s 0x1100 0x07 - used)
     (canOn s = false → exec .canEventMirror s = .next s) ∧
     (canOn s = true → ∃ y n, exec .canEventMirror s = .next n ∧
       Chain (fun (e : Event) s n => ∃ (v w : Word) (p : Bool) (x : State), Only [.free] s x ∧
           FrameSent 1 (nodeId s) (leBytes 8 0x10 ++ bytesOf (recordWords e p v w)) x n) (l.drop (l.length - k))
         { s with logs := { s.logs with canWait := [] }, can := { s.can with second := sec, rate := used + k } } y ∧
       getDict n (dkey 0x1100 0x0B) = countUp 64 (getDict s (dkey 0x1100 0x0B)) (l.length - k) ∧
       (∀ j, j ≠ dkey 0x1100 0x0B → getDict n j = getDict y j) ∧ Only [.dict, .sat, .host, .logs] y n)) ∧
    (let due := canOn s = true ∧ (s.can.booted = false ∨ dictNat s 0x1100 0x05 ≠ 0)
     let w := 0x11 + 2 ^ 8 * stageOf s + 2 ^ 16 * (dictNat s 0x2000 0x02 % 256) + 2 ^ 24 * bitsWhere 16 (fun c => decide ((getClient s c).state ≠ 0)) +
       2 ^ 40 * (if s.can.booted then 0 else 1) + 2 ^ 41 * (if dictNat s 0x2000 0x02 ≠ 0 ∨ 3 ≤ canState s then 1 else 0)
     (¬ due → exec .heartbeat s = .next s) ∧
     (due → ∃ y n, exec .heartbeat s = .next n ∧ FrameSent 0xE (nodeId s) (leBytes 8 w) s y ∧ n = { y with can := { y.can with booted := true } })) ∧
    (let due := s.start.sketched = true ∧ s.can.ready = false ∧ pinsTaken s = false ∧ canState s ≠ 3
     (¬ due → ∀ seen, exec (.nodeIdListen seen) s = .next s) ∧
     (due → (∃ n, exec (.nodeIdListen true) s = .next n ∧ canState n = 4 ∧ (∀ k, k ≠ dkey 0x1100 0x04 → getDict n k = getDict s k) ∧ Only [.dict] s n) ∧
       exec (.nodeIdListen false) s = .next { s with can := { s.can with ready := true } })) ∧
    ((canState s ≠ 2 → exec .busOffRecovery s = .next s) ∧
     (canState s = 2 → ∃ n, exec .busOffRecovery s = .next n ∧ n.can = { s.can with tec := 0, errs := 0 } ∧ canState n = 0 ∧
       getDict n (dkey 0x1100 0x09) = countUp 32 (getDict s (dkey 0x1100 0x09)) 1 ∧
       (∀ k, k ≠ dkey 0x1100 0x04 → k ≠ dkey 0x1100 0x09 → getDict n k = getDict s k) ∧ Only [.dict, .sat, .host, .logs, .can] s n)) ∧
    (∀ k : Nat,
      (canOn s = false → ∀ tx, exec (.canBusError tx k) s = .next s) ∧
      (canOn s = true → (∃ n, exec (.canBusError true k) s = .next n ∧ n.can = { s.can with tec := s.can.tec + 8 * k } ∧ Tallied s n ∧ Only [.dict, .can] s n) ∧
        ∃ n, exec (.canBusError false k) s = .next n ∧ n.can = { s.can with errs := s.can.errs + k } ∧ Tallied s n ∧ Only [.dict, .can] s n)) ∧
    (let w := getReg s (mbReg 8)
     let ix := fld w 8 16
     let sub := fld w 24 8
     let len := fld w 32 17
     let serves := s.start.sketched = true ∧ pinsTaken s = false ∧ s.mail.remote = false
     let here := bit w 61 = false ∨ fld w 49 12 = moduleId s % 4096
     (¬ serves → exec .mailboxGo s = .next s) ∧
     (serves → here → bit w 1 = true → ∃ n, exec .mailboxGo s = .next n ∧ MailRead (dictInfo ix sub s) n) ∧
     (serves → here → bit w 1 = false → bit w 0 = false → ∃ n, exec .mailboxGo s = .next n ∧ MailRead (dictRead ix sub s) n) ∧
     (serves → here → bit w 1 = false → bit w 0 = true → ∃ n, exec .mailboxGo s = .next n ∧
       (¬ (1 ≤ len ∧ len ≤ 65536) → MailEnded 6 0 s n) ∧
       (1 ≤ len → len ≤ 65536 → let r := dictWrite .mailbox ix sub ((List.range len).map (mbByte s)) s; MailEnded r.1 0 r.2 n)) ∧
     (serves → ¬ here → (∀ p, p < 32 → portState s p ≠ 2) → ∃ n, exec .mailboxGo s = .next n ∧ MailEnded 13 0 s n) ∧
     (serves → ¬ here → (∃ p, p < 32 ∧ portState s p = 2) → ∃ n, exec .mailboxGo s = .next n ∧ getReg n (mbReg 0) = 1 ∧
       (∀ a, a ≠ mbReg 0 → getReg n a = getReg s a) ∧ n.mail = { s.mail with remote := true } ∧
       (∃ x y : Word, n.fabric = { s.fabric with packets := s.fabric.packets ++ [{ dmod := fld w 49 12, smod := moduleId s, bytes := bytesOf [x, y], client := 16 }] }) ∧
       Only [.regs, .fabric, .mail, .free] s n)) ∧
    (s.mail.remote = false → exec .mailboxRemoteTimeout s = .next s) ∧
    (s.mail.remote = true → ∃ n, exec .mailboxRemoteTimeout s = .next n ∧ MailEnded 9 0 { s with mail := { s.mail with remote := false } } n)

/-- Wear, fuses and the error log (R426, R428, R433 to R437, R439). A count that reaches its threshold posts its event and, with the wear process on, queues its swap, or posts once that
no spare is left; counts restart at a window's boundary. A queued swap is performed where its unit can take it: a tile's resets the tile and puts the spare in,
the others are those of BANK_REPLACE, STACK_DIE_SPARE, LANE_SWAP and PORT_REMAP; a core's waits for a reset. A fuse is blown as the Curator has asked, or by itself when no client is admitted and
supply and coolant are within limits: its record's STATE, its event, a fuse record used, and the Curator's answer. 0xA5 arms, and 60 s disarm. At most 16 records a second reach the error log, none
critical lost, and it keeps the last 2048; 0x5A clears it while no client is admitted. -/
def Obligations.WearAndLogs : Prop :=
  ∀ s : State,
    (∀ k : WearIn,
      let w := wearSwap s k
      let count := if k.kind = 0 then mget 0 s.wear (k.die.val * 512 + k.item % 512) else k.count
      let due := s.start.firmware = true ∧ k.kind < 10 ∧ wearThreshold s k.kind ≤ count ∧ swapQueued s w = false ∧
        (k.kind = 8 → portState s w.unit = 4 ∧ standbyFor s w.unit ≠ none)
      (¬ due → exec (.wearTrigger k) s = .next s) ∧
      (due → ∃ x y n, exec (.wearTrigger k) s = .next n ∧ Only [.free] s y ∧
        let z := post 0x0102 16 (wearDetail s k x + 16 * k.die.val + 2 ^ 16 * (count % 2 ^ 32)) y
        (getDict s (dkey 0x8000 0x04) = 0 → n = z) ∧
        (getDict s (dkey 0x8000 0x04) ≠ 0 → spareLeft s w = false → SpareGone w.kind w.die.val w.unit w.item z n) ∧
        (getDict s (dkey 0x8000 0x04) ≠ 0 → spareLeft s w = true →
          n = { z with wearS := if w.kind = 6 then { s.wearS with rows := s.wearS.rows ++ [w] } else { s.wearS with queue := s.wearS.queue ++ [w] } }))) ∧
    exec .wearWindowBoundary s = .next { s with wear := [] } ∧
    (∀ k : Nat,
      (s.wearS.queue[k]? = none → exec (.spareSwap k) s = .next s) ∧
      ∀ w, s.wearS.queue[k]? = some w →
        (w.kind = 3 →
          let spare := bit (getDict s (dkey 0x8000 0x0C)) w.die.val = true
          let ready := stepOnDie s w.die.val = false ∧ spare ∧ ∃ t, t < 16 ∧ physTile s w.die.val t = w.item
          (¬ ready → exec (.spareSwap k) s = .next s) ∧
          (ready → ∃ y n, exec (.spareSwap k) s = .next n ∧ SwapDone 3 w.die.val w.item w.item 16 y n ∧
            (∃ t, t < 16 ∧ physTile s w.die.val t = w.item ∧ (∀ u, u < 16 → physTile n w.die.val u = if u = t then 16 else physTile s w.die.val u) ∧
              ∀ j : TileId, j.val = 16 * w.die.val + t → getTile n j = {}) ∧
            bit (getDict n (dkey 0x8000 0x0C)) w.die.val = false ∧ ResetNoted 5 s n ∧ y.wearS = s.wearS ∧
            Only [.dict, .sat, .cat, .plates, .tiles, .units, .clients, .fabric, .host, .logs, .start, .wearS, .free] s n)) ∧
        (w.kind = 4 → (∀ b, bankServed s w.die.val w.item = some b → exec (.spareSwap k) s = exec (.bankReplace w.die b) s) ∧
          (bankServed s w.die.val w.item = none → exec (.spareSwap k) s = .next s)) ∧
        (w.kind = 5 → ∀ i : StackId, i.val = 6 * w.die.val + w.unit → exec (.spareSwap k) s = exec (.stackDieSpare i) s) ∧
        (w.kind = 7 → ∀ p : PortId, p.val = w.unit → exec (.spareSwap k) s = exec (.laneSwap p w.item) s) ∧
        (w.kind = 8 → ∀ p : PortId, p.val = w.item → exec (.spareSwap k) s = exec (.portRemap p) s) ∧
        (w.kind ∉ [3, 4, 5, 7, 8] → exec (.spareSwap k) s = .next s)) ∧
    (∀ (e : Nat) (ok : Bool),
      let asked := s.cur.blow = some e
      let mv := (getDict s (dkey 0x2100 0x01)).toNat
      let inlet := (getDict s (dkey 0x2100 0x08)).toNat
      let auto := getDict s (dkey 0x8000 0x05) ≠ 0 ∧ s.cur.blow = none ∧ (∀ x ∈ s.clients, x.2.state = 0) ∧ (stageOf s = 2 ∨ stageOf s = 3) ∧
        48000 ≤ mv ∧ mv ≤ 54000 ∧ 10 ≤ inlet ∧ inlet ≤ 40
      let idle : State := { s with cur := { s.cur with blow := none } }
      (s.wearS.errata[e]? = none → exec (.fuseBlow e ok) s = .next s) ∧
      ∀ r, s.wearS.errata[e]? = some r →
        let free := (getDict s (dkey 0x1000 (0x15 + r.die))).toNat
        ((r.pending = false ∨ ¬ (asked ∨ auto)) → exec (.fuseBlow e ok) s = .next s) ∧
        (r.pending = true → asked → ∃ y n, exec (.fuseBlow e ok) s = .next n ∧ (free = 0 → y = idle) ∧ (free ≠ 0 → Blown e r ok idle y) ∧
          Prints [if ok ∧ 0 < free then "OK" else "ERR 0x0000_0010 HARDWARE"] y n) ∧
        (r.pending = true → ¬ asked → auto → (free = 0 → exec (.fuseBlow e ok) s = .next s) ∧
          (free ≠ 0 → ∃ n, exec (.fuseBlow e ok) s = .next n ∧ Blown e r ok s n))) ∧
    (∀ v : Byte,
      (v ≠ 0xA5 → exec (.fuseArm v) s = .next s) ∧
      (v = 0xA5 → ∃ n, exec (.fuseArm v) s = .next n ∧ getDict n (dkey 0xF000 0x05) = 1 ∧ (∀ k, k ≠ dkey 0xF000 0x05 → getDict n k = getDict s k) ∧ Only [.dict] s n)) ∧
    (∃ n, exec .fuseArmExpire s = .next n ∧ getDict n (dkey 0xF000 0x05) = 0 ∧ (∀ k, k ≠ dkey 0xF000 0x05 → getDict n k = getDict s k) ∧ Only [.dict] s n) ∧
    (let l := s.logs.errWait
     let sec := s.tick / 1000000
     let used := if s.logs.second = sec then s.logs.written else 0
     let room := 16 - used
     ∃ (kept wait : List Event) (dropped : Nat) (n : State), exec .errorLogWrite s = .next n ∧
       n.logs.errWait = wait ∧
       n.logs.errlog = (s.logs.errlog ++ kept).drop (s.logs.errlog.length + kept.length - 2048) ∧ n.logs.second = sec ∧
       n.logs.written = used + kept.length ∧
       (l.length ≤ room → kept = l ∧ dropped = 0 ∧ wait = []) ∧ (room ≤ l.length → kept.length = room) ∧
       kept.length + dropped + wait.length = l.length ∧ (∀ e, 4 ≤ e.sev → (kept ++ wait).count e = l.count e) ∧
       (∀ e ∈ wait, 4 ≤ e.sev) ∧ (wait ≠ [] → ∀ e ∈ kept, 4 ≤ e.sev) ∧
       getDict n (dkey 0xA000 0x03) = countUp 64 (getDict s (dkey 0xA000 0x03)) kept.length ∧
       getDict n (dkey 0xA000 0x04) = countUp 64 (getDict s (dkey 0xA000 0x04)) dropped ∧ Only [.dict, .sat, .host, .logs] s n) ∧
    ∀ v : Byte,
      let idle := v = 0x5A ∧ ∀ x ∈ s.clients, x.2.state = 0
      (¬ idle → exec (.errlogClear v) s = .next s) ∧
      (idle → exec (.errlogClear v) s = .next { s with logs := { s.logs with errlog := [] } })
end

