-- ==== Sys2Proof/Laws/Maps.lean ====
section
/-! SUPPORT. Sparse maps: a read after a write, and the canonical form, which every operation keeps and which makes equal contents equal data. -/

set_option Elab.async false

namespace Sys2Proof.Machine

variable {α : Type}

@[simp] theorem mget_nil (d : α) (k : Nat) : mget d [] k = d := rfl

theorem mget_cons (d : α) (e : Nat × α) (m : SMap α) (k : Nat) :
    mget d (e :: m) k = if k = e.1 then e.2 else mget d m k := by
  obtain ⟨k', v⟩ := e
  rfl

theorem mget_mdel (d : α) (m : SMap α) (k j : Nat) : mget d (mdel m k) j = if j = k then d else mget d m j := by
  induction m with
  | nil => simp [mdel]
  | cons e m ih =>
    have hc : mdel (e :: m) k = if e.1 = k then mdel m k else e :: mdel m k := by
      by_cases h : e.1 = k <;> simp [mdel, h]
    rw [hc, mget_cons]
    by_cases h : e.1 = k
    · simp only [h, if_true, ih]
      split <;> simp_all
    · simp only [h, if_false, mget_cons, ih]
      by_cases h1 : j = e.1 <;> by_cases h2 : j = k <;> simp_all

theorem mget_mins (d : α) (m : SMap α) (k j : Nat) (x : α) :
    mget d (mins m k x) j = if j = k then x else mget d m j := by
  induction m with
  | nil => simp [mins, mget_cons]
  | cons e m ih =>
    obtain ⟨k', v⟩ := e
    by_cases h : k < k'
    · simp [mins, h, mget_cons]
    · by_cases h1 : k = k'
      · subst h1
        simp only [mins, lt_irrefl, if_false, if_true, mget_cons]
        split <;> simp_all
      · simp only [mins, h, h1, if_false, mget_cons, ih]
        by_cases h2 : j = k' <;> by_cases h3 : j = k <;> simp_all

/-- A read after a write: the written key reads as the value, every other key as before. -/
theorem mget_mset [DecidableEq α] (d : α) (m : SMap α) (k j : Nat) (v : α) :
    mget d (mset d m k v) j = if j = k then v else mget d m j := by
  unfold mset
  split
  · rename_i h
    rw [mget_mdel, h]
  · rw [mget_mins]

@[simp] theorem mget_mset_same [DecidableEq α] (d : α) (m : SMap α) (k : Nat) (v : α) :
    mget d (mset d m k v) k = v := by simp [mget_mset]

/-- Another key reads as before, whatever an unlisted key reads as. -/
theorem mget_mset_ne [DecidableEq α] (d e : α) (m : SMap α) {k j : Nat} (v : α) (h : j ≠ k) :
    mget e (mset d m k v) j = mget e m j := by
  unfold mset
  split
  · rw [mget_mdel, if_neg h]
  · rw [mget_mins, if_neg h]

/-! ### The canonical form -/

theorem msorted_mono {lo lo' : Nat} (h : lo' ≤ lo) : ∀ {m : SMap α}, msorted lo m = true → msorted lo' m = true
  | [], _ => rfl
  | (k, v) :: m, hm => by
    simp only [msorted, Bool.and_eq_true, decide_eq_true_eq] at hm ⊢
    exact ⟨le_trans h hm.1, hm.2⟩

theorem msorted_filter (p : Nat × α → Bool) : ∀ {lo : Nat} {m : SMap α}, msorted lo m = true →
    msorted lo (m.filter p) = true
  | _, [], _ => rfl
  | lo, (k, v) :: m, hm => by
    simp only [msorted, Bool.and_eq_true, decide_eq_true_eq] at hm
    have ih := msorted_filter p hm.2
    by_cases h : p (k, v) = true
    · simp [h, msorted, hm.1, ih]
    · simp only [List.filter_cons, h]
      exact msorted_mono (le_trans hm.1 (Nat.le_succ k)) ih

theorem msorted_mins : ∀ {lo : Nat} {m : SMap α} {k : Nat} (x : α), lo ≤ k → msorted lo m = true →
    msorted lo (mins m k x) = true
  | lo, [], k, x, h, _ => by simp [mins, msorted, h]
  | lo, (k', v) :: m, k, x, h, hm => by
    simp only [msorted, Bool.and_eq_true, decide_eq_true_eq] at hm
    simp only [mins]
    split
    · rename_i h1
      simp only [msorted, Bool.and_eq_true, decide_eq_true_eq]
      exact ⟨h, h1, hm.2⟩
    · split
      · rename_i h1
        subst h1
        simp only [msorted, Bool.and_eq_true, decide_eq_true_eq]
        exact ⟨h, hm.2⟩
      · rename_i h1 h2
        simp only [msorted, Bool.and_eq_true, decide_eq_true_eq]
        exact ⟨hm.1, msorted_mins x (by omega) hm.2⟩

theorem mem_mins {m : SMap α} {k : Nat} {x : α} {e : Nat × α} (h : e ∈ mins m k x) : e = (k, x) ∨ e ∈ m := by
  induction m with
  | nil => simpa [mins] using h
  | cons p m ih =>
    obtain ⟨k', v⟩ := p
    simp only [mins] at h
    split at h
    · simpa using h
    · split at h
      · rcases List.mem_cons.1 h with h | h
        · exact .inl h
        · exact .inr (List.mem_cons_of_mem _ h)
      · rcases List.mem_cons.1 h with h | h
        · exact .inr (h ▸ List.mem_cons_self)
        · exact (ih h).imp_right (List.mem_cons_of_mem _)

theorem mwf_iff [DecidableEq α] (d : α) (m : SMap α) :
    mwf d m = true ↔ msorted 0 m = true ∧ ∀ e ∈ m, e.2 ≠ d := by
  simp [mwf, List.all_eq_true]

@[simp] theorem mwf_nil [DecidableEq α] (d : α) : mwf d ([] : SMap α) = true := rfl

theorem mwf_filter [DecidableEq α] {d : α} {m : SMap α} (p : Nat × α → Bool) (h : mwf d m = true) :
    mwf d (m.filter p) = true := by
  rw [mwf_iff] at h ⊢
  exact ⟨msorted_filter p h.1, fun e he => h.2 e (List.mem_of_mem_filter he)⟩

theorem mwf_mdrop [DecidableEq α] {d : α} {m : SMap α} (p : Nat → Bool) (h : mwf d m = true) :
    mwf d (mdrop m p) = true := mwf_filter _ h

/-- A write keeps the canonical form. -/
theorem mwf_mset [DecidableEq α] {d : α} {m : SMap α} (k : Nat) (v : α) (h : mwf d m = true) :
    mwf d (mset d m k v) = true := by
  unfold mset
  split
  · exact mwf_filter _ h
  · rename_i hv
    rw [mwf_iff] at h ⊢
    refine ⟨msorted_mins v (Nat.zero_le k) h.1, fun e he => ?_⟩
    rcases mem_mins he with rfl | he
    · exact hv
    · exact h.2 e he

theorem mwf_mupd [DecidableEq α] {d : α} {m : SMap α} (k : Nat) (f : α → α) (h : mwf d m = true) :
    mwf d (mupd d m k f) = true := mwf_mset k _ h

theorem mwf_foldl [DecidableEq α] {β : Type} {d : α} {g : SMap α → β → SMap α} (l : List β) {m : SMap α}
    (h : mwf d m = true) (hg : ∀ m x, mwf d m = true → mwf d (g m x) = true) : mwf d (l.foldl g m) = true := by
  induction l generalizing m with
  | nil => exact h
  | cons x l ih => exact ih (hg m x h)

/-- Below its bound a sorted map reads as the default. -/
theorem mget_of_lt (d : α) : ∀ {lo : Nat} {m : SMap α} {k : Nat}, msorted lo m = true → k < lo → mget d m k = d
  | _, [], _, _, _ => rfl
  | lo, (k', v) :: m, k, hm, h => by
    simp only [msorted, Bool.and_eq_true, decide_eq_true_eq] at hm
    rw [mget_cons, if_neg (by simp; omega)]
    exact mget_of_lt d hm.2 (by omega)

/-- Canonical maps with equal contents are equal. -/
theorem ext_of_mwf [DecidableEq α] {d : α} : ∀ {lo : Nat} {a b : SMap α}, msorted lo a = true → msorted lo b = true →
    (∀ e ∈ a, e.2 ≠ d) → (∀ e ∈ b, e.2 ≠ d) → (∀ k, mget d a k = mget d b k) → a = b
  | _, [], [], _, _, _, _, _ => rfl
  | _, [], (k, v) :: b, _, _, _, hb, h => by
    have := h k
    rw [mget_cons] at this
    exact absurd (by simpa using this.symm) (hb (k, v) List.mem_cons_self)
  | _, (k, v) :: a, [], _, _, ha, _, h => by
    have := h k
    rw [mget_cons] at this
    exact absurd (by simpa using this) (ha (k, v) List.mem_cons_self)
  | lo, (k, v) :: a, (j, w) :: b, sa, sb, ha, hb, h => by
    simp only [msorted, Bool.and_eq_true, decide_eq_true_eq] at sa sb
    have hk := h k
    have hj := h j
    simp only [mget_cons, if_true] at hk hj
    have hkj : k = j := by
      by_contra hne
      rcases Nat.lt_or_gt_of_ne hne with hlt | hlt
      · rw [if_neg hne, mget_of_lt d sb.2 (by omega)] at hk
        exact ha (k, v) List.mem_cons_self hk
      · rw [if_neg (Ne.symm hne), mget_of_lt d sa.2 (by omega)] at hj
        exact hb (j, w) List.mem_cons_self hj.symm
    subst hkj
    simp only [if_true] at hk
    subst hk
    have := ext_of_mwf (lo := k + 1) sa.2 sb.2 (fun e he => ha e (List.mem_cons_of_mem _ he))
      (fun e he => hb e (List.mem_cons_of_mem _ he)) (fun i => by
        by_cases hi : i = k
        · subst hi
          rw [mget_of_lt d sa.2 (by omega), mget_of_lt d sb.2 (by omega)]
        · have := h i
          simpa [mget_cons, hi] using this)
    rw [this]

end Sys2Proof.Machine
end

