-- ==== Sys2Proof/Laws/State.lean ====
section
/-! SUPPORT. The shared operations over registers, the dictionary, tiles, clients, events, counters and plates: what each leaves unchanged, field by field, and what a read gives after it. -/

set_option Elab.async false

namespace Sys2Proof.Machine

variable (s : State)

/-- A field that no pass of a loop changes is as it was. -/
theorem foldl_field {α β : Type} (f : State → β) (l : List α) (g : State → α → State) (s : State)
    (h : ∀ s x, f (g s x) = f s) : f (l.foldl g s) = f s := by
  induction l generalizing s with
  | nil => rfl
  | cons x l ih => rw [List.foldl_cons, ih, h]

/-! ### setReg -/

@[simp] theorem setReg_mem (a : Nat) (v : Word) : (setReg a v s).mem = s.mem := rfl
@[simp] theorem setReg_shadow (a : Nat) (v : Word) : (setReg a v s).shadow = s.shadow := rfl
@[simp] theorem setReg_dict (a : Nat) (v : Word) : (setReg a v s).dict = s.dict := rfl
@[simp] theorem setReg_blobs (a : Nat) (v : Word) : (setReg a v s).blobs = s.blobs := rfl
@[simp] theorem setReg_sat (a : Nat) (v : Word) : (setReg a v s).sat = s.sat := rfl
@[simp] theorem setReg_cat (a : Nat) (v : Word) : (setReg a v s).cat = s.cat := rfl
@[simp] theorem setReg_banks (a : Nat) (v : Word) : (setReg a v s).banks = s.banks := rfl
@[simp] theorem setReg_plates (a : Nat) (v : Word) : (setReg a v s).plates = s.plates := rfl
@[simp] theorem setReg_tiles (a : Nat) (v : Word) : (setReg a v s).tiles = s.tiles := rfl
@[simp] theorem setReg_units (a : Nat) (v : Word) : (setReg a v s).units = s.units := rfl
@[simp] theorem setReg_clients (a : Nat) (v : Word) : (setReg a v s).clients = s.clients := rfl
@[simp] theorem setReg_fabric (a : Nat) (v : Word) : (setReg a v s).fabric = s.fabric := rfl
@[simp] theorem setReg_rot (a : Nat) (v : Word) : (setReg a v s).rot = s.rot := rfl
@[simp] theorem setReg_arbs (a : Nat) (v : Word) : (setReg a v s).arbs = s.arbs := rfl
@[simp] theorem setReg_host (a : Nat) (v : Word) : (setReg a v s).host = s.host := rfl
@[simp] theorem setReg_logs (a : Nat) (v : Word) : (setReg a v s).logs = s.logs := rfl
@[simp] theorem setReg_start (a : Nat) (v : Word) : (setReg a v s).start = s.start := rfl
@[simp] theorem setReg_wearS (a : Nat) (v : Word) : (setReg a v s).wearS = s.wearS := rfl
@[simp] theorem setReg_can (a : Nat) (v : Word) : (setReg a v s).can = s.can := rfl
@[simp] theorem setReg_cur (a : Nat) (v : Word) : (setReg a v s).cur = s.cur := rfl
@[simp] theorem setReg_mail (a : Nat) (v : Word) : (setReg a v s).mail = s.mail := rfl
@[simp] theorem setReg_wear (a : Nat) (v : Word) : (setReg a v s).wear = s.wear := rfl
@[simp] theorem setReg_ledger (a : Nat) (v : Word) : (setReg a v s).ledger = s.ledger := rfl
@[simp] theorem setReg_served (a : Nat) (v : Word) : (setReg a v s).served = s.served := rfl
@[simp] theorem setReg_ports (a : Nat) (v : Word) : (setReg a v s).ports = s.ports := rfl
@[simp] theorem setReg_tick (a : Nat) (v : Word) : (setReg a v s).tick = s.tick := rfl
@[simp] theorem setReg_pending (a : Nat) (v : Word) : (setReg a v s).pending = s.pending := rfl
@[simp] theorem setReg_free (a : Nat) (v : Word) : (setReg a v s).free = s.free := rfl

/-! ### orReg -/

@[simp] theorem orReg_mem (a : Nat) (v : Word) : (orReg a v s).mem = s.mem := rfl
@[simp] theorem orReg_shadow (a : Nat) (v : Word) : (orReg a v s).shadow = s.shadow := rfl
@[simp] theorem orReg_dict (a : Nat) (v : Word) : (orReg a v s).dict = s.dict := rfl
@[simp] theorem orReg_blobs (a : Nat) (v : Word) : (orReg a v s).blobs = s.blobs := rfl
@[simp] theorem orReg_sat (a : Nat) (v : Word) : (orReg a v s).sat = s.sat := rfl
@[simp] theorem orReg_cat (a : Nat) (v : Word) : (orReg a v s).cat = s.cat := rfl
@[simp] theorem orReg_banks (a : Nat) (v : Word) : (orReg a v s).banks = s.banks := rfl
@[simp] theorem orReg_plates (a : Nat) (v : Word) : (orReg a v s).plates = s.plates := rfl
@[simp] theorem orReg_tiles (a : Nat) (v : Word) : (orReg a v s).tiles = s.tiles := rfl
@[simp] theorem orReg_units (a : Nat) (v : Word) : (orReg a v s).units = s.units := rfl
@[simp] theorem orReg_clients (a : Nat) (v : Word) : (orReg a v s).clients = s.clients := rfl
@[simp] theorem orReg_fabric (a : Nat) (v : Word) : (orReg a v s).fabric = s.fabric := rfl
@[simp] theorem orReg_rot (a : Nat) (v : Word) : (orReg a v s).rot = s.rot := rfl
@[simp] theorem orReg_arbs (a : Nat) (v : Word) : (orReg a v s).arbs = s.arbs := rfl
@[simp] theorem orReg_host (a : Nat) (v : Word) : (orReg a v s).host = s.host := rfl
@[simp] theorem orReg_logs (a : Nat) (v : Word) : (orReg a v s).logs = s.logs := rfl
@[simp] theorem orReg_start (a : Nat) (v : Word) : (orReg a v s).start = s.start := rfl
@[simp] theorem orReg_wearS (a : Nat) (v : Word) : (orReg a v s).wearS = s.wearS := rfl
@[simp] theorem orReg_can (a : Nat) (v : Word) : (orReg a v s).can = s.can := rfl
@[simp] theorem orReg_cur (a : Nat) (v : Word) : (orReg a v s).cur = s.cur := rfl
@[simp] theorem orReg_mail (a : Nat) (v : Word) : (orReg a v s).mail = s.mail := rfl
@[simp] theorem orReg_wear (a : Nat) (v : Word) : (orReg a v s).wear = s.wear := rfl
@[simp] theorem orReg_ledger (a : Nat) (v : Word) : (orReg a v s).ledger = s.ledger := rfl
@[simp] theorem orReg_served (a : Nat) (v : Word) : (orReg a v s).served = s.served := rfl
@[simp] theorem orReg_ports (a : Nat) (v : Word) : (orReg a v s).ports = s.ports := rfl
@[simp] theorem orReg_tick (a : Nat) (v : Word) : (orReg a v s).tick = s.tick := rfl
@[simp] theorem orReg_pending (a : Nat) (v : Word) : (orReg a v s).pending = s.pending := rfl
@[simp] theorem orReg_free (a : Nat) (v : Word) : (orReg a v s).free = s.free := rfl

/-! ### setBit -/

@[simp] theorem setBit_mem (a i : Nat) : (setBit a i s).mem = s.mem := rfl
@[simp] theorem setBit_shadow (a i : Nat) : (setBit a i s).shadow = s.shadow := rfl
@[simp] theorem setBit_dict (a i : Nat) : (setBit a i s).dict = s.dict := rfl
@[simp] theorem setBit_blobs (a i : Nat) : (setBit a i s).blobs = s.blobs := rfl
@[simp] theorem setBit_sat (a i : Nat) : (setBit a i s).sat = s.sat := rfl
@[simp] theorem setBit_cat (a i : Nat) : (setBit a i s).cat = s.cat := rfl
@[simp] theorem setBit_banks (a i : Nat) : (setBit a i s).banks = s.banks := rfl
@[simp] theorem setBit_plates (a i : Nat) : (setBit a i s).plates = s.plates := rfl
@[simp] theorem setBit_tiles (a i : Nat) : (setBit a i s).tiles = s.tiles := rfl
@[simp] theorem setBit_units (a i : Nat) : (setBit a i s).units = s.units := rfl
@[simp] theorem setBit_clients (a i : Nat) : (setBit a i s).clients = s.clients := rfl
@[simp] theorem setBit_fabric (a i : Nat) : (setBit a i s).fabric = s.fabric := rfl
@[simp] theorem setBit_rot (a i : Nat) : (setBit a i s).rot = s.rot := rfl
@[simp] theorem setBit_arbs (a i : Nat) : (setBit a i s).arbs = s.arbs := rfl
@[simp] theorem setBit_host (a i : Nat) : (setBit a i s).host = s.host := rfl
@[simp] theorem setBit_logs (a i : Nat) : (setBit a i s).logs = s.logs := rfl
@[simp] theorem setBit_start (a i : Nat) : (setBit a i s).start = s.start := rfl
@[simp] theorem setBit_wearS (a i : Nat) : (setBit a i s).wearS = s.wearS := rfl
@[simp] theorem setBit_can (a i : Nat) : (setBit a i s).can = s.can := rfl
@[simp] theorem setBit_cur (a i : Nat) : (setBit a i s).cur = s.cur := rfl
@[simp] theorem setBit_mail (a i : Nat) : (setBit a i s).mail = s.mail := rfl
@[simp] theorem setBit_wear (a i : Nat) : (setBit a i s).wear = s.wear := rfl
@[simp] theorem setBit_ledger (a i : Nat) : (setBit a i s).ledger = s.ledger := rfl
@[simp] theorem setBit_served (a i : Nat) : (setBit a i s).served = s.served := rfl
@[simp] theorem setBit_ports (a i : Nat) : (setBit a i s).ports = s.ports := rfl
@[simp] theorem setBit_tick (a i : Nat) : (setBit a i s).tick = s.tick := rfl
@[simp] theorem setBit_pending (a i : Nat) : (setBit a i s).pending = s.pending := rfl
@[simp] theorem setBit_free (a i : Nat) : (setBit a i s).free = s.free := rfl

/-! ### setDict -/

@[simp] theorem setDict_mem (k : Nat) (v : Word) : (setDict k v s).mem = s.mem := rfl
@[simp] theorem setDict_regs (k : Nat) (v : Word) : (setDict k v s).regs = s.regs := rfl
@[simp] theorem setDict_shadow (k : Nat) (v : Word) : (setDict k v s).shadow = s.shadow := rfl
@[simp] theorem setDict_blobs (k : Nat) (v : Word) : (setDict k v s).blobs = s.blobs := rfl
@[simp] theorem setDict_sat (k : Nat) (v : Word) : (setDict k v s).sat = s.sat := rfl
@[simp] theorem setDict_cat (k : Nat) (v : Word) : (setDict k v s).cat = s.cat := rfl
@[simp] theorem setDict_banks (k : Nat) (v : Word) : (setDict k v s).banks = s.banks := rfl
@[simp] theorem setDict_plates (k : Nat) (v : Word) : (setDict k v s).plates = s.plates := rfl
@[simp] theorem setDict_tiles (k : Nat) (v : Word) : (setDict k v s).tiles = s.tiles := rfl
@[simp] theorem setDict_units (k : Nat) (v : Word) : (setDict k v s).units = s.units := rfl
@[simp] theorem setDict_clients (k : Nat) (v : Word) : (setDict k v s).clients = s.clients := rfl
@[simp] theorem setDict_fabric (k : Nat) (v : Word) : (setDict k v s).fabric = s.fabric := rfl
@[simp] theorem setDict_rot (k : Nat) (v : Word) : (setDict k v s).rot = s.rot := rfl
@[simp] theorem setDict_arbs (k : Nat) (v : Word) : (setDict k v s).arbs = s.arbs := rfl
@[simp] theorem setDict_host (k : Nat) (v : Word) : (setDict k v s).host = s.host := rfl
@[simp] theorem setDict_logs (k : Nat) (v : Word) : (setDict k v s).logs = s.logs := rfl
@[simp] theorem setDict_start (k : Nat) (v : Word) : (setDict k v s).start = s.start := rfl
@[simp] theorem setDict_wearS (k : Nat) (v : Word) : (setDict k v s).wearS = s.wearS := rfl
@[simp] theorem setDict_can (k : Nat) (v : Word) : (setDict k v s).can = s.can := rfl
@[simp] theorem setDict_cur (k : Nat) (v : Word) : (setDict k v s).cur = s.cur := rfl
@[simp] theorem setDict_mail (k : Nat) (v : Word) : (setDict k v s).mail = s.mail := rfl
@[simp] theorem setDict_wear (k : Nat) (v : Word) : (setDict k v s).wear = s.wear := rfl
@[simp] theorem setDict_ledger (k : Nat) (v : Word) : (setDict k v s).ledger = s.ledger := rfl
@[simp] theorem setDict_served (k : Nat) (v : Word) : (setDict k v s).served = s.served := rfl
@[simp] theorem setDict_ports (k : Nat) (v : Word) : (setDict k v s).ports = s.ports := rfl
@[simp] theorem setDict_tick (k : Nat) (v : Word) : (setDict k v s).tick = s.tick := rfl
@[simp] theorem setDict_pending (k : Nat) (v : Word) : (setDict k v s).pending = s.pending := rfl
@[simp] theorem setDict_free (k : Nat) (v : Word) : (setDict k v s).free = s.free := rfl

/-! ### setTile -/

@[simp] theorem setTile_mem (t : TileId) (x : Tile) : (setTile t x s).mem = s.mem := rfl
@[simp] theorem setTile_regs (t : TileId) (x : Tile) : (setTile t x s).regs = s.regs := rfl
@[simp] theorem setTile_shadow (t : TileId) (x : Tile) : (setTile t x s).shadow = s.shadow := rfl
@[simp] theorem setTile_dict (t : TileId) (x : Tile) : (setTile t x s).dict = s.dict := rfl
@[simp] theorem setTile_blobs (t : TileId) (x : Tile) : (setTile t x s).blobs = s.blobs := rfl
@[simp] theorem setTile_sat (t : TileId) (x : Tile) : (setTile t x s).sat = s.sat := rfl
@[simp] theorem setTile_cat (t : TileId) (x : Tile) : (setTile t x s).cat = s.cat := rfl
@[simp] theorem setTile_banks (t : TileId) (x : Tile) : (setTile t x s).banks = s.banks := rfl
@[simp] theorem setTile_plates (t : TileId) (x : Tile) : (setTile t x s).plates = s.plates := rfl
@[simp] theorem setTile_units (t : TileId) (x : Tile) : (setTile t x s).units = s.units := rfl
@[simp] theorem setTile_clients (t : TileId) (x : Tile) : (setTile t x s).clients = s.clients := rfl
@[simp] theorem setTile_fabric (t : TileId) (x : Tile) : (setTile t x s).fabric = s.fabric := rfl
@[simp] theorem setTile_rot (t : TileId) (x : Tile) : (setTile t x s).rot = s.rot := rfl
@[simp] theorem setTile_arbs (t : TileId) (x : Tile) : (setTile t x s).arbs = s.arbs := rfl
@[simp] theorem setTile_host (t : TileId) (x : Tile) : (setTile t x s).host = s.host := rfl
@[simp] theorem setTile_logs (t : TileId) (x : Tile) : (setTile t x s).logs = s.logs := rfl
@[simp] theorem setTile_start (t : TileId) (x : Tile) : (setTile t x s).start = s.start := rfl
@[simp] theorem setTile_wearS (t : TileId) (x : Tile) : (setTile t x s).wearS = s.wearS := rfl
@[simp] theorem setTile_can (t : TileId) (x : Tile) : (setTile t x s).can = s.can := rfl
@[simp] theorem setTile_cur (t : TileId) (x : Tile) : (setTile t x s).cur = s.cur := rfl
@[simp] theorem setTile_mail (t : TileId) (x : Tile) : (setTile t x s).mail = s.mail := rfl
@[simp] theorem setTile_wear (t : TileId) (x : Tile) : (setTile t x s).wear = s.wear := rfl
@[simp] theorem setTile_ledger (t : TileId) (x : Tile) : (setTile t x s).ledger = s.ledger := rfl
@[simp] theorem setTile_served (t : TileId) (x : Tile) : (setTile t x s).served = s.served := rfl
@[simp] theorem setTile_ports (t : TileId) (x : Tile) : (setTile t x s).ports = s.ports := rfl
@[simp] theorem setTile_tick (t : TileId) (x : Tile) : (setTile t x s).tick = s.tick := rfl
@[simp] theorem setTile_pending (t : TileId) (x : Tile) : (setTile t x s).pending = s.pending := rfl
@[simp] theorem setTile_free (t : TileId) (x : Tile) : (setTile t x s).free = s.free := rfl

/-! ### setArr -/

@[simp] theorem setArr_mem (t : TileId) (x : ArrayS) : (setArr t x s).mem = s.mem := rfl
@[simp] theorem setArr_regs (t : TileId) (x : ArrayS) : (setArr t x s).regs = s.regs := rfl
@[simp] theorem setArr_shadow (t : TileId) (x : ArrayS) : (setArr t x s).shadow = s.shadow := rfl
@[simp] theorem setArr_dict (t : TileId) (x : ArrayS) : (setArr t x s).dict = s.dict := rfl
@[simp] theorem setArr_blobs (t : TileId) (x : ArrayS) : (setArr t x s).blobs = s.blobs := rfl
@[simp] theorem setArr_sat (t : TileId) (x : ArrayS) : (setArr t x s).sat = s.sat := rfl
@[simp] theorem setArr_cat (t : TileId) (x : ArrayS) : (setArr t x s).cat = s.cat := rfl
@[simp] theorem setArr_banks (t : TileId) (x : ArrayS) : (setArr t x s).banks = s.banks := rfl
@[simp] theorem setArr_plates (t : TileId) (x : ArrayS) : (setArr t x s).plates = s.plates := rfl
@[simp] theorem setArr_units (t : TileId) (x : ArrayS) : (setArr t x s).units = s.units := rfl
@[simp] theorem setArr_clients (t : TileId) (x : ArrayS) : (setArr t x s).clients = s.clients := rfl
@[simp] theorem setArr_fabric (t : TileId) (x : ArrayS) : (setArr t x s).fabric = s.fabric := rfl
@[simp] theorem setArr_rot (t : TileId) (x : ArrayS) : (setArr t x s).rot = s.rot := rfl
@[simp] theorem setArr_arbs (t : TileId) (x : ArrayS) : (setArr t x s).arbs = s.arbs := rfl
@[simp] theorem setArr_host (t : TileId) (x : ArrayS) : (setArr t x s).host = s.host := rfl
@[simp] theorem setArr_logs (t : TileId) (x : ArrayS) : (setArr t x s).logs = s.logs := rfl
@[simp] theorem setArr_start (t : TileId) (x : ArrayS) : (setArr t x s).start = s.start := rfl
@[simp] theorem setArr_wearS (t : TileId) (x : ArrayS) : (setArr t x s).wearS = s.wearS := rfl
@[simp] theorem setArr_can (t : TileId) (x : ArrayS) : (setArr t x s).can = s.can := rfl
@[simp] theorem setArr_cur (t : TileId) (x : ArrayS) : (setArr t x s).cur = s.cur := rfl
@[simp] theorem setArr_mail (t : TileId) (x : ArrayS) : (setArr t x s).mail = s.mail := rfl
@[simp] theorem setArr_wear (t : TileId) (x : ArrayS) : (setArr t x s).wear = s.wear := rfl
@[simp] theorem setArr_ledger (t : TileId) (x : ArrayS) : (setArr t x s).ledger = s.ledger := rfl
@[simp] theorem setArr_served (t : TileId) (x : ArrayS) : (setArr t x s).served = s.served := rfl
@[simp] theorem setArr_ports (t : TileId) (x : ArrayS) : (setArr t x s).ports = s.ports := rfl
@[simp] theorem setArr_tick (t : TileId) (x : ArrayS) : (setArr t x s).tick = s.tick := rfl
@[simp] theorem setArr_pending (t : TileId) (x : ArrayS) : (setArr t x s).pending = s.pending := rfl
@[simp] theorem setArr_free (t : TileId) (x : ArrayS) : (setArr t x s).free = s.free := rfl

/-! ### setVec -/

@[simp] theorem setVec_mem (t : TileId) (x : VecS) : (setVec t x s).mem = s.mem := rfl
@[simp] theorem setVec_regs (t : TileId) (x : VecS) : (setVec t x s).regs = s.regs := rfl
@[simp] theorem setVec_shadow (t : TileId) (x : VecS) : (setVec t x s).shadow = s.shadow := rfl
@[simp] theorem setVec_dict (t : TileId) (x : VecS) : (setVec t x s).dict = s.dict := rfl
@[simp] theorem setVec_blobs (t : TileId) (x : VecS) : (setVec t x s).blobs = s.blobs := rfl
@[simp] theorem setVec_sat (t : TileId) (x : VecS) : (setVec t x s).sat = s.sat := rfl
@[simp] theorem setVec_cat (t : TileId) (x : VecS) : (setVec t x s).cat = s.cat := rfl
@[simp] theorem setVec_banks (t : TileId) (x : VecS) : (setVec t x s).banks = s.banks := rfl
@[simp] theorem setVec_plates (t : TileId) (x : VecS) : (setVec t x s).plates = s.plates := rfl
@[simp] theorem setVec_units (t : TileId) (x : VecS) : (setVec t x s).units = s.units := rfl
@[simp] theorem setVec_clients (t : TileId) (x : VecS) : (setVec t x s).clients = s.clients := rfl
@[simp] theorem setVec_fabric (t : TileId) (x : VecS) : (setVec t x s).fabric = s.fabric := rfl
@[simp] theorem setVec_rot (t : TileId) (x : VecS) : (setVec t x s).rot = s.rot := rfl
@[simp] theorem setVec_arbs (t : TileId) (x : VecS) : (setVec t x s).arbs = s.arbs := rfl
@[simp] theorem setVec_host (t : TileId) (x : VecS) : (setVec t x s).host = s.host := rfl
@[simp] theorem setVec_logs (t : TileId) (x : VecS) : (setVec t x s).logs = s.logs := rfl
@[simp] theorem setVec_start (t : TileId) (x : VecS) : (setVec t x s).start = s.start := rfl
@[simp] theorem setVec_wearS (t : TileId) (x : VecS) : (setVec t x s).wearS = s.wearS := rfl
@[simp] theorem setVec_can (t : TileId) (x : VecS) : (setVec t x s).can = s.can := rfl
@[simp] theorem setVec_cur (t : TileId) (x : VecS) : (setVec t x s).cur = s.cur := rfl
@[simp] theorem setVec_mail (t : TileId) (x : VecS) : (setVec t x s).mail = s.mail := rfl
@[simp] theorem setVec_wear (t : TileId) (x : VecS) : (setVec t x s).wear = s.wear := rfl
@[simp] theorem setVec_ledger (t : TileId) (x : VecS) : (setVec t x s).ledger = s.ledger := rfl
@[simp] theorem setVec_served (t : TileId) (x : VecS) : (setVec t x s).served = s.served := rfl
@[simp] theorem setVec_ports (t : TileId) (x : VecS) : (setVec t x s).ports = s.ports := rfl
@[simp] theorem setVec_tick (t : TileId) (x : VecS) : (setVec t x s).tick = s.tick := rfl
@[simp] theorem setVec_pending (t : TileId) (x : VecS) : (setVec t x s).pending = s.pending := rfl
@[simp] theorem setVec_free (t : TileId) (x : VecS) : (setVec t x s).free = s.free := rfl

/-! ### setStr -/

@[simp] theorem setStr_mem (t : TileId) (x : StreamS) : (setStr t x s).mem = s.mem := rfl
@[simp] theorem setStr_regs (t : TileId) (x : StreamS) : (setStr t x s).regs = s.regs := rfl
@[simp] theorem setStr_shadow (t : TileId) (x : StreamS) : (setStr t x s).shadow = s.shadow := rfl
@[simp] theorem setStr_dict (t : TileId) (x : StreamS) : (setStr t x s).dict = s.dict := rfl
@[simp] theorem setStr_blobs (t : TileId) (x : StreamS) : (setStr t x s).blobs = s.blobs := rfl
@[simp] theorem setStr_sat (t : TileId) (x : StreamS) : (setStr t x s).sat = s.sat := rfl
@[simp] theorem setStr_cat (t : TileId) (x : StreamS) : (setStr t x s).cat = s.cat := rfl
@[simp] theorem setStr_banks (t : TileId) (x : StreamS) : (setStr t x s).banks = s.banks := rfl
@[simp] theorem setStr_plates (t : TileId) (x : StreamS) : (setStr t x s).plates = s.plates := rfl
@[simp] theorem setStr_units (t : TileId) (x : StreamS) : (setStr t x s).units = s.units := rfl
@[simp] theorem setStr_clients (t : TileId) (x : StreamS) : (setStr t x s).clients = s.clients := rfl
@[simp] theorem setStr_fabric (t : TileId) (x : StreamS) : (setStr t x s).fabric = s.fabric := rfl
@[simp] theorem setStr_rot (t : TileId) (x : StreamS) : (setStr t x s).rot = s.rot := rfl
@[simp] theorem setStr_arbs (t : TileId) (x : StreamS) : (setStr t x s).arbs = s.arbs := rfl
@[simp] theorem setStr_host (t : TileId) (x : StreamS) : (setStr t x s).host = s.host := rfl
@[simp] theorem setStr_logs (t : TileId) (x : StreamS) : (setStr t x s).logs = s.logs := rfl
@[simp] theorem setStr_start (t : TileId) (x : StreamS) : (setStr t x s).start = s.start := rfl
@[simp] theorem setStr_wearS (t : TileId) (x : StreamS) : (setStr t x s).wearS = s.wearS := rfl
@[simp] theorem setStr_can (t : TileId) (x : StreamS) : (setStr t x s).can = s.can := rfl
@[simp] theorem setStr_cur (t : TileId) (x : StreamS) : (setStr t x s).cur = s.cur := rfl
@[simp] theorem setStr_mail (t : TileId) (x : StreamS) : (setStr t x s).mail = s.mail := rfl
@[simp] theorem setStr_wear (t : TileId) (x : StreamS) : (setStr t x s).wear = s.wear := rfl
@[simp] theorem setStr_ledger (t : TileId) (x : StreamS) : (setStr t x s).ledger = s.ledger := rfl
@[simp] theorem setStr_served (t : TileId) (x : StreamS) : (setStr t x s).served = s.served := rfl
@[simp] theorem setStr_ports (t : TileId) (x : StreamS) : (setStr t x s).ports = s.ports := rfl
@[simp] theorem setStr_tick (t : TileId) (x : StreamS) : (setStr t x s).tick = s.tick := rfl
@[simp] theorem setStr_pending (t : TileId) (x : StreamS) : (setStr t x s).pending = s.pending := rfl
@[simp] theorem setStr_free (t : TileId) (x : StreamS) : (setStr t x s).free = s.free := rfl

/-! ### setClient -/

@[simp] theorem setClient_mem (c : Nat) (x : Client) : (setClient c x s).mem = s.mem := rfl
@[simp] theorem setClient_regs (c : Nat) (x : Client) : (setClient c x s).regs = s.regs := rfl
@[simp] theorem setClient_shadow (c : Nat) (x : Client) : (setClient c x s).shadow = s.shadow := rfl
@[simp] theorem setClient_dict (c : Nat) (x : Client) : (setClient c x s).dict = s.dict := rfl
@[simp] theorem setClient_blobs (c : Nat) (x : Client) : (setClient c x s).blobs = s.blobs := rfl
@[simp] theorem setClient_sat (c : Nat) (x : Client) : (setClient c x s).sat = s.sat := rfl
@[simp] theorem setClient_cat (c : Nat) (x : Client) : (setClient c x s).cat = s.cat := rfl
@[simp] theorem setClient_banks (c : Nat) (x : Client) : (setClient c x s).banks = s.banks := rfl
@[simp] theorem setClient_plates (c : Nat) (x : Client) : (setClient c x s).plates = s.plates := rfl
@[simp] theorem setClient_tiles (c : Nat) (x : Client) : (setClient c x s).tiles = s.tiles := rfl
@[simp] theorem setClient_units (c : Nat) (x : Client) : (setClient c x s).units = s.units := rfl
@[simp] theorem setClient_fabric (c : Nat) (x : Client) : (setClient c x s).fabric = s.fabric := rfl
@[simp] theorem setClient_rot (c : Nat) (x : Client) : (setClient c x s).rot = s.rot := rfl
@[simp] theorem setClient_arbs (c : Nat) (x : Client) : (setClient c x s).arbs = s.arbs := rfl
@[simp] theorem setClient_host (c : Nat) (x : Client) : (setClient c x s).host = s.host := rfl
@[simp] theorem setClient_logs (c : Nat) (x : Client) : (setClient c x s).logs = s.logs := rfl
@[simp] theorem setClient_start (c : Nat) (x : Client) : (setClient c x s).start = s.start := rfl
@[simp] theorem setClient_wearS (c : Nat) (x : Client) : (setClient c x s).wearS = s.wearS := rfl
@[simp] theorem setClient_can (c : Nat) (x : Client) : (setClient c x s).can = s.can := rfl
@[simp] theorem setClient_cur (c : Nat) (x : Client) : (setClient c x s).cur = s.cur := rfl
@[simp] theorem setClient_mail (c : Nat) (x : Client) : (setClient c x s).mail = s.mail := rfl
@[simp] theorem setClient_wear (c : Nat) (x : Client) : (setClient c x s).wear = s.wear := rfl
@[simp] theorem setClient_ledger (c : Nat) (x : Client) : (setClient c x s).ledger = s.ledger := rfl
@[simp] theorem setClient_served (c : Nat) (x : Client) : (setClient c x s).served = s.served := rfl
@[simp] theorem setClient_ports (c : Nat) (x : Client) : (setClient c x s).ports = s.ports := rfl
@[simp] theorem setClient_tick (c : Nat) (x : Client) : (setClient c x s).tick = s.tick := rfl
@[simp] theorem setClient_pending (c : Nat) (x : Client) : (setClient c x s).pending = s.pending := rfl
@[simp] theorem setClient_free (c : Nat) (x : Client) : (setClient c x s).free = s.free := rfl

/-! ### setScope -/

@[simp] theorem setScope_mem (c : Nat) (b : BitVec 32) : (setScope c b s).mem = s.mem := by unfold setScope; split <;> rfl
@[simp] theorem setScope_regs (c : Nat) (b : BitVec 32) : (setScope c b s).regs = s.regs := by unfold setScope; split <;> rfl
@[simp] theorem setScope_shadow (c : Nat) (b : BitVec 32) : (setScope c b s).shadow = s.shadow := by unfold setScope; split <;> rfl
@[simp] theorem setScope_dict (c : Nat) (b : BitVec 32) : (setScope c b s).dict = s.dict := by unfold setScope; split <;> rfl
@[simp] theorem setScope_blobs (c : Nat) (b : BitVec 32) : (setScope c b s).blobs = s.blobs := by unfold setScope; split <;> rfl
@[simp] theorem setScope_sat (c : Nat) (b : BitVec 32) : (setScope c b s).sat = s.sat := by unfold setScope; split <;> rfl
@[simp] theorem setScope_cat (c : Nat) (b : BitVec 32) : (setScope c b s).cat = s.cat := by unfold setScope; split <;> rfl
@[simp] theorem setScope_banks (c : Nat) (b : BitVec 32) : (setScope c b s).banks = s.banks := by unfold setScope; split <;> rfl
@[simp] theorem setScope_plates (c : Nat) (b : BitVec 32) : (setScope c b s).plates = s.plates := by unfold setScope; split <;> rfl
@[simp] theorem setScope_tiles (c : Nat) (b : BitVec 32) : (setScope c b s).tiles = s.tiles := by unfold setScope; split <;> rfl
@[simp] theorem setScope_units (c : Nat) (b : BitVec 32) : (setScope c b s).units = s.units := by unfold setScope; split <;> rfl
@[simp] theorem setScope_fabric (c : Nat) (b : BitVec 32) : (setScope c b s).fabric = s.fabric := by unfold setScope; split <;> rfl
@[simp] theorem setScope_rot (c : Nat) (b : BitVec 32) : (setScope c b s).rot = s.rot := by unfold setScope; split <;> rfl
@[simp] theorem setScope_arbs (c : Nat) (b : BitVec 32) : (setScope c b s).arbs = s.arbs := by unfold setScope; split <;> rfl
@[simp] theorem setScope_host (c : Nat) (b : BitVec 32) : (setScope c b s).host = s.host := by unfold setScope; split <;> rfl
@[simp] theorem setScope_logs (c : Nat) (b : BitVec 32) : (setScope c b s).logs = s.logs := by unfold setScope; split <;> rfl
@[simp] theorem setScope_start (c : Nat) (b : BitVec 32) : (setScope c b s).start = s.start := by unfold setScope; split <;> rfl
@[simp] theorem setScope_wearS (c : Nat) (b : BitVec 32) : (setScope c b s).wearS = s.wearS := by unfold setScope; split <;> rfl
@[simp] theorem setScope_can (c : Nat) (b : BitVec 32) : (setScope c b s).can = s.can := by unfold setScope; split <;> rfl
@[simp] theorem setScope_cur (c : Nat) (b : BitVec 32) : (setScope c b s).cur = s.cur := by unfold setScope; split <;> rfl
@[simp] theorem setScope_mail (c : Nat) (b : BitVec 32) : (setScope c b s).mail = s.mail := by unfold setScope; split <;> rfl
@[simp] theorem setScope_wear (c : Nat) (b : BitVec 32) : (setScope c b s).wear = s.wear := by unfold setScope; split <;> rfl
@[simp] theorem setScope_ledger (c : Nat) (b : BitVec 32) : (setScope c b s).ledger = s.ledger := by unfold setScope; split <;> rfl
@[simp] theorem setScope_served (c : Nat) (b : BitVec 32) : (setScope c b s).served = s.served := by unfold setScope; split <;> rfl
@[simp] theorem setScope_ports (c : Nat) (b : BitVec 32) : (setScope c b s).ports = s.ports := by unfold setScope; split <;> rfl
@[simp] theorem setScope_tick (c : Nat) (b : BitVec 32) : (setScope c b s).tick = s.tick := by unfold setScope; split <;> rfl
@[simp] theorem setScope_pending (c : Nat) (b : BitVec 32) : (setScope c b s).pending = s.pending := by unfold setScope; split <;> rfl
@[simp] theorem setScope_free (c : Nat) (b : BitVec 32) : (setScope c b s).free = s.free := by unfold setScope; split <;> rfl

/-! ### postEvent -/

@[simp] theorem postEvent_mem (e : Event) : (postEvent e s).mem = s.mem := rfl
@[simp] theorem postEvent_regs (e : Event) : (postEvent e s).regs = s.regs := rfl
@[simp] theorem postEvent_shadow (e : Event) : (postEvent e s).shadow = s.shadow := rfl
@[simp] theorem postEvent_dict (e : Event) : (postEvent e s).dict = s.dict := rfl
@[simp] theorem postEvent_blobs (e : Event) : (postEvent e s).blobs = s.blobs := rfl
@[simp] theorem postEvent_sat (e : Event) : (postEvent e s).sat = s.sat := rfl
@[simp] theorem postEvent_cat (e : Event) : (postEvent e s).cat = s.cat := rfl
@[simp] theorem postEvent_banks (e : Event) : (postEvent e s).banks = s.banks := rfl
@[simp] theorem postEvent_plates (e : Event) : (postEvent e s).plates = s.plates := rfl
@[simp] theorem postEvent_tiles (e : Event) : (postEvent e s).tiles = s.tiles := rfl
@[simp] theorem postEvent_units (e : Event) : (postEvent e s).units = s.units := rfl
@[simp] theorem postEvent_clients (e : Event) : (postEvent e s).clients = s.clients := rfl
@[simp] theorem postEvent_fabric (e : Event) : (postEvent e s).fabric = s.fabric := rfl
@[simp] theorem postEvent_rot (e : Event) : (postEvent e s).rot = s.rot := rfl
@[simp] theorem postEvent_arbs (e : Event) : (postEvent e s).arbs = s.arbs := rfl
@[simp] theorem postEvent_start (e : Event) : (postEvent e s).start = s.start := rfl
@[simp] theorem postEvent_wearS (e : Event) : (postEvent e s).wearS = s.wearS := rfl
@[simp] theorem postEvent_can (e : Event) : (postEvent e s).can = s.can := rfl
@[simp] theorem postEvent_cur (e : Event) : (postEvent e s).cur = s.cur := rfl
@[simp] theorem postEvent_mail (e : Event) : (postEvent e s).mail = s.mail := rfl
@[simp] theorem postEvent_wear (e : Event) : (postEvent e s).wear = s.wear := rfl
@[simp] theorem postEvent_ledger (e : Event) : (postEvent e s).ledger = s.ledger := rfl
@[simp] theorem postEvent_served (e : Event) : (postEvent e s).served = s.served := rfl
@[simp] theorem postEvent_ports (e : Event) : (postEvent e s).ports = s.ports := rfl
@[simp] theorem postEvent_tick (e : Event) : (postEvent e s).tick = s.tick := rfl
@[simp] theorem postEvent_pending (e : Event) : (postEvent e s).pending = s.pending := rfl
@[simp] theorem postEvent_free (e : Event) : (postEvent e s).free = s.free := rfl

/-! ### post -/

@[simp] theorem post_mem (k c d : Nat) : (post k c d s).mem = s.mem := rfl
@[simp] theorem post_regs (k c d : Nat) : (post k c d s).regs = s.regs := rfl
@[simp] theorem post_shadow (k c d : Nat) : (post k c d s).shadow = s.shadow := rfl
@[simp] theorem post_dict (k c d : Nat) : (post k c d s).dict = s.dict := rfl
@[simp] theorem post_blobs (k c d : Nat) : (post k c d s).blobs = s.blobs := rfl
@[simp] theorem post_sat (k c d : Nat) : (post k c d s).sat = s.sat := rfl
@[simp] theorem post_cat (k c d : Nat) : (post k c d s).cat = s.cat := rfl
@[simp] theorem post_banks (k c d : Nat) : (post k c d s).banks = s.banks := rfl
@[simp] theorem post_plates (k c d : Nat) : (post k c d s).plates = s.plates := rfl
@[simp] theorem post_tiles (k c d : Nat) : (post k c d s).tiles = s.tiles := rfl
@[simp] theorem post_units (k c d : Nat) : (post k c d s).units = s.units := rfl
@[simp] theorem post_clients (k c d : Nat) : (post k c d s).clients = s.clients := rfl
@[simp] theorem post_fabric (k c d : Nat) : (post k c d s).fabric = s.fabric := rfl
@[simp] theorem post_rot (k c d : Nat) : (post k c d s).rot = s.rot := rfl
@[simp] theorem post_arbs (k c d : Nat) : (post k c d s).arbs = s.arbs := rfl
@[simp] theorem post_start (k c d : Nat) : (post k c d s).start = s.start := rfl
@[simp] theorem post_wearS (k c d : Nat) : (post k c d s).wearS = s.wearS := rfl
@[simp] theorem post_can (k c d : Nat) : (post k c d s).can = s.can := rfl
@[simp] theorem post_cur (k c d : Nat) : (post k c d s).cur = s.cur := rfl
@[simp] theorem post_mail (k c d : Nat) : (post k c d s).mail = s.mail := rfl
@[simp] theorem post_wear (k c d : Nat) : (post k c d s).wear = s.wear := rfl
@[simp] theorem post_ledger (k c d : Nat) : (post k c d s).ledger = s.ledger := rfl
@[simp] theorem post_served (k c d : Nat) : (post k c d s).served = s.served := rfl
@[simp] theorem post_ports (k c d : Nat) : (post k c d s).ports = s.ports := rfl
@[simp] theorem post_tick (k c d : Nat) : (post k c d s).tick = s.tick := rfl
@[simp] theorem post_pending (k c d : Nat) : (post k c d s).pending = s.pending := rfl
@[simp] theorem post_free (k c d : Nat) : (post k c d s).free = s.free := rfl

/-! ### postUncorr -/

@[simp] theorem postUncorr_mem (k d : Nat) (b : Bool) (p c : Nat) : (postUncorr k d b p c s).mem = s.mem := by simp [postUncorr]
@[simp] theorem postUncorr_regs (k d : Nat) (b : Bool) (p c : Nat) : (postUncorr k d b p c s).regs = s.regs := by simp [postUncorr]
@[simp] theorem postUncorr_shadow (k d : Nat) (b : Bool) (p c : Nat) : (postUncorr k d b p c s).shadow = s.shadow := by simp [postUncorr]
@[simp] theorem postUncorr_dict (k d : Nat) (b : Bool) (p c : Nat) : (postUncorr k d b p c s).dict = s.dict := by simp [postUncorr]
@[simp] theorem postUncorr_blobs (k d : Nat) (b : Bool) (p c : Nat) : (postUncorr k d b p c s).blobs = s.blobs := by simp [postUncorr]
@[simp] theorem postUncorr_sat (k d : Nat) (b : Bool) (p c : Nat) : (postUncorr k d b p c s).sat = s.sat := by simp [postUncorr]
@[simp] theorem postUncorr_cat (k d : Nat) (b : Bool) (p c : Nat) : (postUncorr k d b p c s).cat = s.cat := by simp [postUncorr]
@[simp] theorem postUncorr_banks (k d : Nat) (b : Bool) (p c : Nat) : (postUncorr k d b p c s).banks = s.banks := by simp [postUncorr]
@[simp] theorem postUncorr_plates (k d : Nat) (b : Bool) (p c : Nat) : (postUncorr k d b p c s).plates = s.plates := by simp [postUncorr]
@[simp] theorem postUncorr_tiles (k d : Nat) (b : Bool) (p c : Nat) : (postUncorr k d b p c s).tiles = s.tiles := by simp [postUncorr]
@[simp] theorem postUncorr_units (k d : Nat) (b : Bool) (p c : Nat) : (postUncorr k d b p c s).units = s.units := by simp [postUncorr]
@[simp] theorem postUncorr_fabric (k d : Nat) (b : Bool) (p c : Nat) : (postUncorr k d b p c s).fabric = s.fabric := by simp [postUncorr]
@[simp] theorem postUncorr_rot (k d : Nat) (b : Bool) (p c : Nat) : (postUncorr k d b p c s).rot = s.rot := by simp [postUncorr]
@[simp] theorem postUncorr_arbs (k d : Nat) (b : Bool) (p c : Nat) : (postUncorr k d b p c s).arbs = s.arbs := by simp [postUncorr]
@[simp] theorem postUncorr_start (k d : Nat) (b : Bool) (p c : Nat) : (postUncorr k d b p c s).start = s.start := by simp [postUncorr]
@[simp] theorem postUncorr_wearS (k d : Nat) (b : Bool) (p c : Nat) : (postUncorr k d b p c s).wearS = s.wearS := by simp [postUncorr]
@[simp] theorem postUncorr_can (k d : Nat) (b : Bool) (p c : Nat) : (postUncorr k d b p c s).can = s.can := by simp [postUncorr]
@[simp] theorem postUncorr_cur (k d : Nat) (b : Bool) (p c : Nat) : (postUncorr k d b p c s).cur = s.cur := by simp [postUncorr]
@[simp] theorem postUncorr_mail (k d : Nat) (b : Bool) (p c : Nat) : (postUncorr k d b p c s).mail = s.mail := by simp [postUncorr]
@[simp] theorem postUncorr_wear (k d : Nat) (b : Bool) (p c : Nat) : (postUncorr k d b p c s).wear = s.wear := by simp [postUncorr]
@[simp] theorem postUncorr_ledger (k d : Nat) (b : Bool) (p c : Nat) : (postUncorr k d b p c s).ledger = s.ledger := by simp [postUncorr]
@[simp] theorem postUncorr_served (k d : Nat) (b : Bool) (p c : Nat) : (postUncorr k d b p c s).served = s.served := by simp [postUncorr]
@[simp] theorem postUncorr_ports (k d : Nat) (b : Bool) (p c : Nat) : (postUncorr k d b p c s).ports = s.ports := by simp [postUncorr]
@[simp] theorem postUncorr_tick (k d : Nat) (b : Bool) (p c : Nat) : (postUncorr k d b p c s).tick = s.tick := by simp [postUncorr]
@[simp] theorem postUncorr_pending (k d : Nat) (b : Bool) (p c : Nat) : (postUncorr k d b p c s).pending = s.pending := by simp [postUncorr]
@[simp] theorem postUncorr_free (k d : Nat) (b : Bool) (p c : Nat) : (postUncorr k d b p c s).free = s.free := by simp [postUncorr]

/-! ### stickDict -/

@[simp] theorem stickDict_mem (ix sub : Nat) : (stickDict ix sub s).mem = s.mem := by unfold stickDict; split <;> rfl
@[simp] theorem stickDict_regs (ix sub : Nat) : (stickDict ix sub s).regs = s.regs := by unfold stickDict; split <;> rfl
@[simp] theorem stickDict_shadow (ix sub : Nat) : (stickDict ix sub s).shadow = s.shadow := by unfold stickDict; split <;> rfl
@[simp] theorem stickDict_dict (ix sub : Nat) : (stickDict ix sub s).dict = s.dict := by unfold stickDict; split <;> rfl
@[simp] theorem stickDict_blobs (ix sub : Nat) : (stickDict ix sub s).blobs = s.blobs := by unfold stickDict; split <;> rfl
@[simp] theorem stickDict_cat (ix sub : Nat) : (stickDict ix sub s).cat = s.cat := by unfold stickDict; split <;> rfl
@[simp] theorem stickDict_banks (ix sub : Nat) : (stickDict ix sub s).banks = s.banks := by unfold stickDict; split <;> rfl
@[simp] theorem stickDict_plates (ix sub : Nat) : (stickDict ix sub s).plates = s.plates := by unfold stickDict; split <;> rfl
@[simp] theorem stickDict_tiles (ix sub : Nat) : (stickDict ix sub s).tiles = s.tiles := by unfold stickDict; split <;> rfl
@[simp] theorem stickDict_units (ix sub : Nat) : (stickDict ix sub s).units = s.units := by unfold stickDict; split <;> rfl
@[simp] theorem stickDict_clients (ix sub : Nat) : (stickDict ix sub s).clients = s.clients := by unfold stickDict; split <;> rfl
@[simp] theorem stickDict_fabric (ix sub : Nat) : (stickDict ix sub s).fabric = s.fabric := by unfold stickDict; split <;> rfl
@[simp] theorem stickDict_rot (ix sub : Nat) : (stickDict ix sub s).rot = s.rot := by unfold stickDict; split <;> rfl
@[simp] theorem stickDict_arbs (ix sub : Nat) : (stickDict ix sub s).arbs = s.arbs := by unfold stickDict; split <;> rfl
@[simp] theorem stickDict_start (ix sub : Nat) : (stickDict ix sub s).start = s.start := by unfold stickDict; split <;> rfl
@[simp] theorem stickDict_wearS (ix sub : Nat) : (stickDict ix sub s).wearS = s.wearS := by unfold stickDict; split <;> rfl
@[simp] theorem stickDict_can (ix sub : Nat) : (stickDict ix sub s).can = s.can := by unfold stickDict; split <;> rfl
@[simp] theorem stickDict_cur (ix sub : Nat) : (stickDict ix sub s).cur = s.cur := by unfold stickDict; split <;> rfl
@[simp] theorem stickDict_mail (ix sub : Nat) : (stickDict ix sub s).mail = s.mail := by unfold stickDict; split <;> rfl
@[simp] theorem stickDict_wear (ix sub : Nat) : (stickDict ix sub s).wear = s.wear := by unfold stickDict; split <;> rfl
@[simp] theorem stickDict_ledger (ix sub : Nat) : (stickDict ix sub s).ledger = s.ledger := by unfold stickDict; split <;> rfl
@[simp] theorem stickDict_served (ix sub : Nat) : (stickDict ix sub s).served = s.served := by unfold stickDict; split <;> rfl
@[simp] theorem stickDict_ports (ix sub : Nat) : (stickDict ix sub s).ports = s.ports := by unfold stickDict; split <;> rfl
@[simp] theorem stickDict_tick (ix sub : Nat) : (stickDict ix sub s).tick = s.tick := by unfold stickDict; split <;> rfl
@[simp] theorem stickDict_pending (ix sub : Nat) : (stickDict ix sub s).pending = s.pending := by unfold stickDict; split <;> rfl
@[simp] theorem stickDict_free (ix sub : Nat) : (stickDict ix sub s).free = s.free := by unfold stickDict; split <;> rfl

/-! ### bumpDictW -/

@[simp] theorem bumpDictW_mem (w k n : Nat) : (bumpDictW w k n s).mem = s.mem := by simp only [bumpDictW]; split <;> simp
@[simp] theorem bumpDictW_regs (w k n : Nat) : (bumpDictW w k n s).regs = s.regs := by simp only [bumpDictW]; split <;> simp
@[simp] theorem bumpDictW_shadow (w k n : Nat) : (bumpDictW w k n s).shadow = s.shadow := by simp only [bumpDictW]; split <;> simp
@[simp] theorem bumpDictW_blobs (w k n : Nat) : (bumpDictW w k n s).blobs = s.blobs := by simp only [bumpDictW]; split <;> simp
@[simp] theorem bumpDictW_cat (w k n : Nat) : (bumpDictW w k n s).cat = s.cat := by simp only [bumpDictW]; split <;> simp
@[simp] theorem bumpDictW_banks (w k n : Nat) : (bumpDictW w k n s).banks = s.banks := by simp only [bumpDictW]; split <;> simp
@[simp] theorem bumpDictW_plates (w k n : Nat) : (bumpDictW w k n s).plates = s.plates := by simp only [bumpDictW]; split <;> simp
@[simp] theorem bumpDictW_tiles (w k n : Nat) : (bumpDictW w k n s).tiles = s.tiles := by simp only [bumpDictW]; split <;> simp
@[simp] theorem bumpDictW_units (w k n : Nat) : (bumpDictW w k n s).units = s.units := by simp only [bumpDictW]; split <;> simp
@[simp] theorem bumpDictW_clients (w k n : Nat) : (bumpDictW w k n s).clients = s.clients := by simp only [bumpDictW]; split <;> simp
@[simp] theorem bumpDictW_fabric (w k n : Nat) : (bumpDictW w k n s).fabric = s.fabric := by simp only [bumpDictW]; split <;> simp
@[simp] theorem bumpDictW_rot (w k n : Nat) : (bumpDictW w k n s).rot = s.rot := by simp only [bumpDictW]; split <;> simp
@[simp] theorem bumpDictW_arbs (w k n : Nat) : (bumpDictW w k n s).arbs = s.arbs := by simp only [bumpDictW]; split <;> simp
@[simp] theorem bumpDictW_start (w k n : Nat) : (bumpDictW w k n s).start = s.start := by simp only [bumpDictW]; split <;> simp
@[simp] theorem bumpDictW_wearS (w k n : Nat) : (bumpDictW w k n s).wearS = s.wearS := by simp only [bumpDictW]; split <;> simp
@[simp] theorem bumpDictW_can (w k n : Nat) : (bumpDictW w k n s).can = s.can := by simp only [bumpDictW]; split <;> simp
@[simp] theorem bumpDictW_cur (w k n : Nat) : (bumpDictW w k n s).cur = s.cur := by simp only [bumpDictW]; split <;> simp
@[simp] theorem bumpDictW_mail (w k n : Nat) : (bumpDictW w k n s).mail = s.mail := by simp only [bumpDictW]; split <;> simp
@[simp] theorem bumpDictW_wear (w k n : Nat) : (bumpDictW w k n s).wear = s.wear := by simp only [bumpDictW]; split <;> simp
@[simp] theorem bumpDictW_ledger (w k n : Nat) : (bumpDictW w k n s).ledger = s.ledger := by simp only [bumpDictW]; split <;> simp
@[simp] theorem bumpDictW_served (w k n : Nat) : (bumpDictW w k n s).served = s.served := by simp only [bumpDictW]; split <;> simp
@[simp] theorem bumpDictW_ports (w k n : Nat) : (bumpDictW w k n s).ports = s.ports := by simp only [bumpDictW]; split <;> simp
@[simp] theorem bumpDictW_tick (w k n : Nat) : (bumpDictW w k n s).tick = s.tick := by simp only [bumpDictW]; split <;> simp
@[simp] theorem bumpDictW_pending (w k n : Nat) : (bumpDictW w k n s).pending = s.pending := by simp only [bumpDictW]; split <;> simp
@[simp] theorem bumpDictW_free (w k n : Nat) : (bumpDictW w k n s).free = s.free := by simp only [bumpDictW]; split <;> simp

/-! ### bumpDict -/

@[simp] theorem bumpDict_mem (k n : Nat) : (bumpDict k n s).mem = s.mem := by simp [bumpDict]
@[simp] theorem bumpDict_regs (k n : Nat) : (bumpDict k n s).regs = s.regs := by simp [bumpDict]
@[simp] theorem bumpDict_shadow (k n : Nat) : (bumpDict k n s).shadow = s.shadow := by simp [bumpDict]
@[simp] theorem bumpDict_blobs (k n : Nat) : (bumpDict k n s).blobs = s.blobs := by simp [bumpDict]
@[simp] theorem bumpDict_cat (k n : Nat) : (bumpDict k n s).cat = s.cat := by simp [bumpDict]
@[simp] theorem bumpDict_banks (k n : Nat) : (bumpDict k n s).banks = s.banks := by simp [bumpDict]
@[simp] theorem bumpDict_plates (k n : Nat) : (bumpDict k n s).plates = s.plates := by simp [bumpDict]
@[simp] theorem bumpDict_tiles (k n : Nat) : (bumpDict k n s).tiles = s.tiles := by simp [bumpDict]
@[simp] theorem bumpDict_units (k n : Nat) : (bumpDict k n s).units = s.units := by simp [bumpDict]
@[simp] theorem bumpDict_clients (k n : Nat) : (bumpDict k n s).clients = s.clients := by simp [bumpDict]
@[simp] theorem bumpDict_fabric (k n : Nat) : (bumpDict k n s).fabric = s.fabric := by simp [bumpDict]
@[simp] theorem bumpDict_rot (k n : Nat) : (bumpDict k n s).rot = s.rot := by simp [bumpDict]
@[simp] theorem bumpDict_arbs (k n : Nat) : (bumpDict k n s).arbs = s.arbs := by simp [bumpDict]
@[simp] theorem bumpDict_start (k n : Nat) : (bumpDict k n s).start = s.start := by simp [bumpDict]
@[simp] theorem bumpDict_wearS (k n : Nat) : (bumpDict k n s).wearS = s.wearS := by simp [bumpDict]
@[simp] theorem bumpDict_can (k n : Nat) : (bumpDict k n s).can = s.can := by simp [bumpDict]
@[simp] theorem bumpDict_cur (k n : Nat) : (bumpDict k n s).cur = s.cur := by simp [bumpDict]
@[simp] theorem bumpDict_mail (k n : Nat) : (bumpDict k n s).mail = s.mail := by simp [bumpDict]
@[simp] theorem bumpDict_wear (k n : Nat) : (bumpDict k n s).wear = s.wear := by simp [bumpDict]
@[simp] theorem bumpDict_ledger (k n : Nat) : (bumpDict k n s).ledger = s.ledger := by simp [bumpDict]
@[simp] theorem bumpDict_served (k n : Nat) : (bumpDict k n s).served = s.served := by simp [bumpDict]
@[simp] theorem bumpDict_ports (k n : Nat) : (bumpDict k n s).ports = s.ports := by simp [bumpDict]
@[simp] theorem bumpDict_tick (k n : Nat) : (bumpDict k n s).tick = s.tick := by simp [bumpDict]
@[simp] theorem bumpDict_pending (k n : Nat) : (bumpDict k n s).pending = s.pending := by simp [bumpDict]
@[simp] theorem bumpDict_free (k n : Nat) : (bumpDict k n s).free = s.free := by simp [bumpDict]

/-! ### stick -/

@[simp] theorem stick_mem (b : Nat) : (stick b s).mem = s.mem := by unfold stick; split <;> rfl
@[simp] theorem stick_regs (b : Nat) : (stick b s).regs = s.regs := by unfold stick; split <;> rfl
@[simp] theorem stick_shadow (b : Nat) : (stick b s).shadow = s.shadow := by unfold stick; split <;> rfl
@[simp] theorem stick_dict (b : Nat) : (stick b s).dict = s.dict := by unfold stick; split <;> rfl
@[simp] theorem stick_blobs (b : Nat) : (stick b s).blobs = s.blobs := by unfold stick; split <;> rfl
@[simp] theorem stick_cat (b : Nat) : (stick b s).cat = s.cat := by unfold stick; split <;> rfl
@[simp] theorem stick_banks (b : Nat) : (stick b s).banks = s.banks := by unfold stick; split <;> rfl
@[simp] theorem stick_plates (b : Nat) : (stick b s).plates = s.plates := by unfold stick; split <;> rfl
@[simp] theorem stick_tiles (b : Nat) : (stick b s).tiles = s.tiles := by unfold stick; split <;> rfl
@[simp] theorem stick_units (b : Nat) : (stick b s).units = s.units := by unfold stick; split <;> rfl
@[simp] theorem stick_clients (b : Nat) : (stick b s).clients = s.clients := by unfold stick; split <;> rfl
@[simp] theorem stick_fabric (b : Nat) : (stick b s).fabric = s.fabric := by unfold stick; split <;> rfl
@[simp] theorem stick_rot (b : Nat) : (stick b s).rot = s.rot := by unfold stick; split <;> rfl
@[simp] theorem stick_arbs (b : Nat) : (stick b s).arbs = s.arbs := by unfold stick; split <;> rfl
@[simp] theorem stick_start (b : Nat) : (stick b s).start = s.start := by unfold stick; split <;> rfl
@[simp] theorem stick_wearS (b : Nat) : (stick b s).wearS = s.wearS := by unfold stick; split <;> rfl
@[simp] theorem stick_can (b : Nat) : (stick b s).can = s.can := by unfold stick; split <;> rfl
@[simp] theorem stick_cur (b : Nat) : (stick b s).cur = s.cur := by unfold stick; split <;> rfl
@[simp] theorem stick_mail (b : Nat) : (stick b s).mail = s.mail := by unfold stick; split <;> rfl
@[simp] theorem stick_wear (b : Nat) : (stick b s).wear = s.wear := by unfold stick; split <;> rfl
@[simp] theorem stick_ledger (b : Nat) : (stick b s).ledger = s.ledger := by unfold stick; split <;> rfl
@[simp] theorem stick_served (b : Nat) : (stick b s).served = s.served := by unfold stick; split <;> rfl
@[simp] theorem stick_ports (b : Nat) : (stick b s).ports = s.ports := by unfold stick; split <;> rfl
@[simp] theorem stick_tick (b : Nat) : (stick b s).tick = s.tick := by unfold stick; split <;> rfl
@[simp] theorem stick_pending (b : Nat) : (stick b s).pending = s.pending := by unfold stick; split <;> rfl
@[simp] theorem stick_free (b : Nat) : (stick b s).free = s.free := by unfold stick; split <;> rfl

/-! ### bump -/

@[simp] theorem bump_mem (b o n : Nat) : (bump b o n s).mem = s.mem := by simp only [bump]; split <;> simp
@[simp] theorem bump_shadow (b o n : Nat) : (bump b o n s).shadow = s.shadow := by simp only [bump]; split <;> simp
@[simp] theorem bump_dict (b o n : Nat) : (bump b o n s).dict = s.dict := by simp only [bump]; split <;> simp
@[simp] theorem bump_blobs (b o n : Nat) : (bump b o n s).blobs = s.blobs := by simp only [bump]; split <;> simp
@[simp] theorem bump_cat (b o n : Nat) : (bump b o n s).cat = s.cat := by simp only [bump]; split <;> simp
@[simp] theorem bump_banks (b o n : Nat) : (bump b o n s).banks = s.banks := by simp only [bump]; split <;> simp
@[simp] theorem bump_plates (b o n : Nat) : (bump b o n s).plates = s.plates := by simp only [bump]; split <;> simp
@[simp] theorem bump_tiles (b o n : Nat) : (bump b o n s).tiles = s.tiles := by simp only [bump]; split <;> simp
@[simp] theorem bump_units (b o n : Nat) : (bump b o n s).units = s.units := by simp only [bump]; split <;> simp
@[simp] theorem bump_clients (b o n : Nat) : (bump b o n s).clients = s.clients := by simp only [bump]; split <;> simp
@[simp] theorem bump_fabric (b o n : Nat) : (bump b o n s).fabric = s.fabric := by simp only [bump]; split <;> simp
@[simp] theorem bump_rot (b o n : Nat) : (bump b o n s).rot = s.rot := by simp only [bump]; split <;> simp
@[simp] theorem bump_arbs (b o n : Nat) : (bump b o n s).arbs = s.arbs := by simp only [bump]; split <;> simp
@[simp] theorem bump_start (b o n : Nat) : (bump b o n s).start = s.start := by simp only [bump]; split <;> simp
@[simp] theorem bump_wearS (b o n : Nat) : (bump b o n s).wearS = s.wearS := by simp only [bump]; split <;> simp
@[simp] theorem bump_can (b o n : Nat) : (bump b o n s).can = s.can := by simp only [bump]; split <;> simp
@[simp] theorem bump_cur (b o n : Nat) : (bump b o n s).cur = s.cur := by simp only [bump]; split <;> simp
@[simp] theorem bump_mail (b o n : Nat) : (bump b o n s).mail = s.mail := by simp only [bump]; split <;> simp
@[simp] theorem bump_wear (b o n : Nat) : (bump b o n s).wear = s.wear := by simp only [bump]; split <;> simp
@[simp] theorem bump_ledger (b o n : Nat) : (bump b o n s).ledger = s.ledger := by simp only [bump]; split <;> simp
@[simp] theorem bump_served (b o n : Nat) : (bump b o n s).served = s.served := by simp only [bump]; split <;> simp
@[simp] theorem bump_ports (b o n : Nat) : (bump b o n s).ports = s.ports := by simp only [bump]; split <;> simp
@[simp] theorem bump_tick (b o n : Nat) : (bump b o n s).tick = s.tick := by simp only [bump]; split <;> simp
@[simp] theorem bump_pending (b o n : Nat) : (bump b o n s).pending = s.pending := by simp only [bump]; split <;> simp
@[simp] theorem bump_free (b o n : Nat) : (bump b o n s).free = s.free := by simp only [bump]; split <;> simp

/-! ### bumpLedger -/

@[simp] theorem bumpLedger_mem (c sub n : Nat) : (bumpLedger c sub n s).mem = s.mem := by simp only [bumpLedger]; (repeat' split) <;> simp
@[simp] theorem bumpLedger_regs (c sub n : Nat) : (bumpLedger c sub n s).regs = s.regs := by simp only [bumpLedger]; (repeat' split) <;> simp
@[simp] theorem bumpLedger_shadow (c sub n : Nat) : (bumpLedger c sub n s).shadow = s.shadow := by simp only [bumpLedger]; (repeat' split) <;> simp
@[simp] theorem bumpLedger_dict (c sub n : Nat) : (bumpLedger c sub n s).dict = s.dict := by simp only [bumpLedger]; (repeat' split) <;> simp
@[simp] theorem bumpLedger_blobs (c sub n : Nat) : (bumpLedger c sub n s).blobs = s.blobs := by simp only [bumpLedger]; (repeat' split) <;> simp
@[simp] theorem bumpLedger_cat (c sub n : Nat) : (bumpLedger c sub n s).cat = s.cat := by simp only [bumpLedger]; (repeat' split) <;> simp
@[simp] theorem bumpLedger_banks (c sub n : Nat) : (bumpLedger c sub n s).banks = s.banks := by simp only [bumpLedger]; (repeat' split) <;> simp
@[simp] theorem bumpLedger_plates (c sub n : Nat) : (bumpLedger c sub n s).plates = s.plates := by simp only [bumpLedger]; (repeat' split) <;> simp
@[simp] theorem bumpLedger_tiles (c sub n : Nat) : (bumpLedger c sub n s).tiles = s.tiles := by simp only [bumpLedger]; (repeat' split) <;> simp
@[simp] theorem bumpLedger_units (c sub n : Nat) : (bumpLedger c sub n s).units = s.units := by simp only [bumpLedger]; (repeat' split) <;> simp
@[simp] theorem bumpLedger_clients (c sub n : Nat) : (bumpLedger c sub n s).clients = s.clients := by simp only [bumpLedger]; (repeat' split) <;> simp
@[simp] theorem bumpLedger_fabric (c sub n : Nat) : (bumpLedger c sub n s).fabric = s.fabric := by simp only [bumpLedger]; (repeat' split) <;> simp
@[simp] theorem bumpLedger_rot (c sub n : Nat) : (bumpLedger c sub n s).rot = s.rot := by simp only [bumpLedger]; (repeat' split) <;> simp
@[simp] theorem bumpLedger_arbs (c sub n : Nat) : (bumpLedger c sub n s).arbs = s.arbs := by simp only [bumpLedger]; (repeat' split) <;> simp
@[simp] theorem bumpLedger_start (c sub n : Nat) : (bumpLedger c sub n s).start = s.start := by simp only [bumpLedger]; (repeat' split) <;> simp
@[simp] theorem bumpLedger_wearS (c sub n : Nat) : (bumpLedger c sub n s).wearS = s.wearS := by simp only [bumpLedger]; (repeat' split) <;> simp
@[simp] theorem bumpLedger_can (c sub n : Nat) : (bumpLedger c sub n s).can = s.can := by simp only [bumpLedger]; (repeat' split) <;> simp
@[simp] theorem bumpLedger_cur (c sub n : Nat) : (bumpLedger c sub n s).cur = s.cur := by simp only [bumpLedger]; (repeat' split) <;> simp
@[simp] theorem bumpLedger_mail (c sub n : Nat) : (bumpLedger c sub n s).mail = s.mail := by simp only [bumpLedger]; (repeat' split) <;> simp
@[simp] theorem bumpLedger_wear (c sub n : Nat) : (bumpLedger c sub n s).wear = s.wear := by simp only [bumpLedger]; (repeat' split) <;> simp
@[simp] theorem bumpLedger_served (c sub n : Nat) : (bumpLedger c sub n s).served = s.served := by simp only [bumpLedger]; (repeat' split) <;> simp
@[simp] theorem bumpLedger_ports (c sub n : Nat) : (bumpLedger c sub n s).ports = s.ports := by simp only [bumpLedger]; (repeat' split) <;> simp
@[simp] theorem bumpLedger_tick (c sub n : Nat) : (bumpLedger c sub n s).tick = s.tick := by simp only [bumpLedger]; (repeat' split) <;> simp
@[simp] theorem bumpLedger_pending (c sub n : Nat) : (bumpLedger c sub n s).pending = s.pending := by simp only [bumpLedger]; (repeat' split) <;> simp
@[simp] theorem bumpLedger_free (c sub n : Nat) : (bumpLedger c sub n s).free = s.free := by simp only [bumpLedger]; (repeat' split) <;> simp

/-! ### charge -/

@[simp] theorem charge_mem (e : Eng) (k : Nat) : (charge e k s).mem = s.mem := by simp only [charge]; (repeat' split) <;> simp
@[simp] theorem charge_shadow (e : Eng) (k : Nat) : (charge e k s).shadow = s.shadow := by simp only [charge]; (repeat' split) <;> simp
@[simp] theorem charge_blobs (e : Eng) (k : Nat) : (charge e k s).blobs = s.blobs := by simp only [charge]; (repeat' split) <;> simp
@[simp] theorem charge_cat (e : Eng) (k : Nat) : (charge e k s).cat = s.cat := by simp only [charge]; (repeat' split) <;> simp
@[simp] theorem charge_banks (e : Eng) (k : Nat) : (charge e k s).banks = s.banks := by simp only [charge]; (repeat' split) <;> simp
@[simp] theorem charge_plates (e : Eng) (k : Nat) : (charge e k s).plates = s.plates := by simp only [charge]; (repeat' split) <;> simp
@[simp] theorem charge_tiles (e : Eng) (k : Nat) : (charge e k s).tiles = s.tiles := by simp only [charge]; (repeat' split) <;> simp
@[simp] theorem charge_units (e : Eng) (k : Nat) : (charge e k s).units = s.units := by simp only [charge]; (repeat' split) <;> simp
@[simp] theorem charge_clients (e : Eng) (k : Nat) : (charge e k s).clients = s.clients := by simp only [charge]; (repeat' split) <;> simp
@[simp] theorem charge_fabric (e : Eng) (k : Nat) : (charge e k s).fabric = s.fabric := by simp only [charge]; (repeat' split) <;> simp
@[simp] theorem charge_rot (e : Eng) (k : Nat) : (charge e k s).rot = s.rot := by simp only [charge]; (repeat' split) <;> simp
@[simp] theorem charge_arbs (e : Eng) (k : Nat) : (charge e k s).arbs = s.arbs := by simp only [charge]; (repeat' split) <;> simp
@[simp] theorem charge_start (e : Eng) (k : Nat) : (charge e k s).start = s.start := by simp only [charge]; (repeat' split) <;> simp
@[simp] theorem charge_wearS (e : Eng) (k : Nat) : (charge e k s).wearS = s.wearS := by simp only [charge]; (repeat' split) <;> simp
@[simp] theorem charge_can (e : Eng) (k : Nat) : (charge e k s).can = s.can := by simp only [charge]; (repeat' split) <;> simp
@[simp] theorem charge_cur (e : Eng) (k : Nat) : (charge e k s).cur = s.cur := by simp only [charge]; (repeat' split) <;> simp
@[simp] theorem charge_mail (e : Eng) (k : Nat) : (charge e k s).mail = s.mail := by simp only [charge]; (repeat' split) <;> simp
@[simp] theorem charge_wear (e : Eng) (k : Nat) : (charge e k s).wear = s.wear := by simp only [charge]; (repeat' split) <;> simp
@[simp] theorem charge_served (e : Eng) (k : Nat) : (charge e k s).served = s.served := by simp only [charge]; (repeat' split) <;> simp
@[simp] theorem charge_ports (e : Eng) (k : Nat) : (charge e k s).ports = s.ports := by simp only [charge]; (repeat' split) <;> simp
@[simp] theorem charge_tick (e : Eng) (k : Nat) : (charge e k s).tick = s.tick := by simp only [charge]; (repeat' split) <;> simp
@[simp] theorem charge_pending (e : Eng) (k : Nat) : (charge e k s).pending = s.pending := by simp only [charge]; (repeat' split) <;> simp
@[simp] theorem charge_free (e : Eng) (k : Nat) : (charge e k s).free = s.free := by simp only [charge]; (repeat' split) <;> simp

/-! ### fresh -/

@[simp] theorem fresh_mem : ((fresh s).2).mem = s.mem := rfl
@[simp] theorem fresh_regs  : ((fresh s).2).regs = s.regs := rfl
@[simp] theorem fresh_shadow  : ((fresh s).2).shadow = s.shadow := rfl
@[simp] theorem fresh_dict  : ((fresh s).2).dict = s.dict := rfl
@[simp] theorem fresh_blobs  : ((fresh s).2).blobs = s.blobs := rfl
@[simp] theorem fresh_sat  : ((fresh s).2).sat = s.sat := rfl
@[simp] theorem fresh_cat  : ((fresh s).2).cat = s.cat := rfl
@[simp] theorem fresh_banks  : ((fresh s).2).banks = s.banks := rfl
@[simp] theorem fresh_plates  : ((fresh s).2).plates = s.plates := rfl
@[simp] theorem fresh_tiles  : ((fresh s).2).tiles = s.tiles := rfl
@[simp] theorem fresh_units  : ((fresh s).2).units = s.units := rfl
@[simp] theorem fresh_clients  : ((fresh s).2).clients = s.clients := rfl
@[simp] theorem fresh_fabric  : ((fresh s).2).fabric = s.fabric := rfl
@[simp] theorem fresh_rot  : ((fresh s).2).rot = s.rot := rfl
@[simp] theorem fresh_arbs  : ((fresh s).2).arbs = s.arbs := rfl
@[simp] theorem fresh_host  : ((fresh s).2).host = s.host := rfl
@[simp] theorem fresh_logs  : ((fresh s).2).logs = s.logs := rfl
@[simp] theorem fresh_start  : ((fresh s).2).start = s.start := rfl
@[simp] theorem fresh_wearS  : ((fresh s).2).wearS = s.wearS := rfl
@[simp] theorem fresh_can  : ((fresh s).2).can = s.can := rfl
@[simp] theorem fresh_cur  : ((fresh s).2).cur = s.cur := rfl
@[simp] theorem fresh_mail  : ((fresh s).2).mail = s.mail := rfl
@[simp] theorem fresh_wear  : ((fresh s).2).wear = s.wear := rfl
@[simp] theorem fresh_ledger  : ((fresh s).2).ledger = s.ledger := rfl
@[simp] theorem fresh_served  : ((fresh s).2).served = s.served := rfl
@[simp] theorem fresh_ports  : ((fresh s).2).ports = s.ports := rfl
@[simp] theorem fresh_tick  : ((fresh s).2).tick = s.tick := rfl
@[simp] theorem fresh_pending  : ((fresh s).2).pending = s.pending := rfl

/-! ### setEng -/

@[simp] theorem setEng_mem (e : Eng) (x : EngSt) : (setEng e x s).mem = s.mem := rfl
@[simp] theorem setEng_regs (e : Eng) (x : EngSt) : (setEng e x s).regs = s.regs := rfl
@[simp] theorem setEng_shadow (e : Eng) (x : EngSt) : (setEng e x s).shadow = s.shadow := rfl
@[simp] theorem setEng_dict (e : Eng) (x : EngSt) : (setEng e x s).dict = s.dict := rfl
@[simp] theorem setEng_blobs (e : Eng) (x : EngSt) : (setEng e x s).blobs = s.blobs := rfl
@[simp] theorem setEng_sat (e : Eng) (x : EngSt) : (setEng e x s).sat = s.sat := rfl
@[simp] theorem setEng_cat (e : Eng) (x : EngSt) : (setEng e x s).cat = s.cat := rfl
@[simp] theorem setEng_banks (e : Eng) (x : EngSt) : (setEng e x s).banks = s.banks := rfl
@[simp] theorem setEng_tiles (e : Eng) (x : EngSt) : (setEng e x s).tiles = s.tiles := rfl
@[simp] theorem setEng_units (e : Eng) (x : EngSt) : (setEng e x s).units = s.units := rfl
@[simp] theorem setEng_clients (e : Eng) (x : EngSt) : (setEng e x s).clients = s.clients := rfl
@[simp] theorem setEng_fabric (e : Eng) (x : EngSt) : (setEng e x s).fabric = s.fabric := rfl
@[simp] theorem setEng_rot (e : Eng) (x : EngSt) : (setEng e x s).rot = s.rot := rfl
@[simp] theorem setEng_arbs (e : Eng) (x : EngSt) : (setEng e x s).arbs = s.arbs := rfl
@[simp] theorem setEng_host (e : Eng) (x : EngSt) : (setEng e x s).host = s.host := rfl
@[simp] theorem setEng_logs (e : Eng) (x : EngSt) : (setEng e x s).logs = s.logs := rfl
@[simp] theorem setEng_start (e : Eng) (x : EngSt) : (setEng e x s).start = s.start := rfl
@[simp] theorem setEng_wearS (e : Eng) (x : EngSt) : (setEng e x s).wearS = s.wearS := rfl
@[simp] theorem setEng_can (e : Eng) (x : EngSt) : (setEng e x s).can = s.can := rfl
@[simp] theorem setEng_cur (e : Eng) (x : EngSt) : (setEng e x s).cur = s.cur := rfl
@[simp] theorem setEng_mail (e : Eng) (x : EngSt) : (setEng e x s).mail = s.mail := rfl
@[simp] theorem setEng_wear (e : Eng) (x : EngSt) : (setEng e x s).wear = s.wear := rfl
@[simp] theorem setEng_ledger (e : Eng) (x : EngSt) : (setEng e x s).ledger = s.ledger := rfl
@[simp] theorem setEng_served (e : Eng) (x : EngSt) : (setEng e x s).served = s.served := rfl
@[simp] theorem setEng_ports (e : Eng) (x : EngSt) : (setEng e x s).ports = s.ports := rfl
@[simp] theorem setEng_tick (e : Eng) (x : EngSt) : (setEng e x s).tick = s.tick := rfl
@[simp] theorem setEng_pending (e : Eng) (x : EngSt) : (setEng e x s).pending = s.pending := rfl
@[simp] theorem setEng_free (e : Eng) (x : EngSt) : (setEng e x s).free = s.free := rfl

/-! ### setTok -/

@[simp] theorem setTok_mem (d f r n : Nat) : (setTok d f r n s).mem = s.mem := rfl
@[simp] theorem setTok_regs (d f r n : Nat) : (setTok d f r n s).regs = s.regs := rfl
@[simp] theorem setTok_shadow (d f r n : Nat) : (setTok d f r n s).shadow = s.shadow := rfl
@[simp] theorem setTok_dict (d f r n : Nat) : (setTok d f r n s).dict = s.dict := rfl
@[simp] theorem setTok_blobs (d f r n : Nat) : (setTok d f r n s).blobs = s.blobs := rfl
@[simp] theorem setTok_sat (d f r n : Nat) : (setTok d f r n s).sat = s.sat := rfl
@[simp] theorem setTok_cat (d f r n : Nat) : (setTok d f r n s).cat = s.cat := rfl
@[simp] theorem setTok_banks (d f r n : Nat) : (setTok d f r n s).banks = s.banks := rfl
@[simp] theorem setTok_tiles (d f r n : Nat) : (setTok d f r n s).tiles = s.tiles := rfl
@[simp] theorem setTok_units (d f r n : Nat) : (setTok d f r n s).units = s.units := rfl
@[simp] theorem setTok_clients (d f r n : Nat) : (setTok d f r n s).clients = s.clients := rfl
@[simp] theorem setTok_fabric (d f r n : Nat) : (setTok d f r n s).fabric = s.fabric := rfl
@[simp] theorem setTok_rot (d f r n : Nat) : (setTok d f r n s).rot = s.rot := rfl
@[simp] theorem setTok_arbs (d f r n : Nat) : (setTok d f r n s).arbs = s.arbs := rfl
@[simp] theorem setTok_host (d f r n : Nat) : (setTok d f r n s).host = s.host := rfl
@[simp] theorem setTok_logs (d f r n : Nat) : (setTok d f r n s).logs = s.logs := rfl
@[simp] theorem setTok_start (d f r n : Nat) : (setTok d f r n s).start = s.start := rfl
@[simp] theorem setTok_wearS (d f r n : Nat) : (setTok d f r n s).wearS = s.wearS := rfl
@[simp] theorem setTok_can (d f r n : Nat) : (setTok d f r n s).can = s.can := rfl
@[simp] theorem setTok_cur (d f r n : Nat) : (setTok d f r n s).cur = s.cur := rfl
@[simp] theorem setTok_mail (d f r n : Nat) : (setTok d f r n s).mail = s.mail := rfl
@[simp] theorem setTok_wear (d f r n : Nat) : (setTok d f r n s).wear = s.wear := rfl
@[simp] theorem setTok_ledger (d f r n : Nat) : (setTok d f r n s).ledger = s.ledger := rfl
@[simp] theorem setTok_served (d f r n : Nat) : (setTok d f r n s).served = s.served := rfl
@[simp] theorem setTok_ports (d f r n : Nat) : (setTok d f r n s).ports = s.ports := rfl
@[simp] theorem setTok_tick (d f r n : Nat) : (setTok d f r n s).tick = s.tick := rfl
@[simp] theorem setTok_pending (d f r n : Nat) : (setTok d f r n s).pending = s.pending := rfl
@[simp] theorem setTok_free (d f r n : Nat) : (setTok d f r n s).free = s.free := rfl

/-! ### postTok -/

@[simp] theorem postTok_mem (e : Eng) (c f r n : Nat) : (postTok e c f r n s).mem = s.mem := rfl
@[simp] theorem postTok_regs (e : Eng) (c f r n : Nat) : (postTok e c f r n s).regs = s.regs := rfl
@[simp] theorem postTok_shadow (e : Eng) (c f r n : Nat) : (postTok e c f r n s).shadow = s.shadow := rfl
@[simp] theorem postTok_dict (e : Eng) (c f r n : Nat) : (postTok e c f r n s).dict = s.dict := rfl
@[simp] theorem postTok_blobs (e : Eng) (c f r n : Nat) : (postTok e c f r n s).blobs = s.blobs := rfl
@[simp] theorem postTok_sat (e : Eng) (c f r n : Nat) : (postTok e c f r n s).sat = s.sat := rfl
@[simp] theorem postTok_cat (e : Eng) (c f r n : Nat) : (postTok e c f r n s).cat = s.cat := rfl
@[simp] theorem postTok_banks (e : Eng) (c f r n : Nat) : (postTok e c f r n s).banks = s.banks := rfl
@[simp] theorem postTok_tiles (e : Eng) (c f r n : Nat) : (postTok e c f r n s).tiles = s.tiles := rfl
@[simp] theorem postTok_units (e : Eng) (c f r n : Nat) : (postTok e c f r n s).units = s.units := rfl
@[simp] theorem postTok_clients (e : Eng) (c f r n : Nat) : (postTok e c f r n s).clients = s.clients := rfl
@[simp] theorem postTok_fabric (e : Eng) (c f r n : Nat) : (postTok e c f r n s).fabric = s.fabric := rfl
@[simp] theorem postTok_rot (e : Eng) (c f r n : Nat) : (postTok e c f r n s).rot = s.rot := rfl
@[simp] theorem postTok_arbs (e : Eng) (c f r n : Nat) : (postTok e c f r n s).arbs = s.arbs := rfl
@[simp] theorem postTok_host (e : Eng) (c f r n : Nat) : (postTok e c f r n s).host = s.host := rfl
@[simp] theorem postTok_logs (e : Eng) (c f r n : Nat) : (postTok e c f r n s).logs = s.logs := rfl
@[simp] theorem postTok_start (e : Eng) (c f r n : Nat) : (postTok e c f r n s).start = s.start := rfl
@[simp] theorem postTok_wearS (e : Eng) (c f r n : Nat) : (postTok e c f r n s).wearS = s.wearS := rfl
@[simp] theorem postTok_can (e : Eng) (c f r n : Nat) : (postTok e c f r n s).can = s.can := rfl
@[simp] theorem postTok_cur (e : Eng) (c f r n : Nat) : (postTok e c f r n s).cur = s.cur := rfl
@[simp] theorem postTok_mail (e : Eng) (c f r n : Nat) : (postTok e c f r n s).mail = s.mail := rfl
@[simp] theorem postTok_wear (e : Eng) (c f r n : Nat) : (postTok e c f r n s).wear = s.wear := rfl
@[simp] theorem postTok_ledger (e : Eng) (c f r n : Nat) : (postTok e c f r n s).ledger = s.ledger := rfl
@[simp] theorem postTok_served (e : Eng) (c f r n : Nat) : (postTok e c f r n s).served = s.served := rfl
@[simp] theorem postTok_ports (e : Eng) (c f r n : Nat) : (postTok e c f r n s).ports = s.ports := rfl
@[simp] theorem postTok_tick (e : Eng) (c f r n : Nat) : (postTok e c f r n s).tick = s.tick := rfl
@[simp] theorem postTok_pending (e : Eng) (c f r n : Nat) : (postTok e c f r n s).pending = s.pending := rfl
@[simp] theorem postTok_free (e : Eng) (c f r n : Nat) : (postTok e c f r n s).free = s.free := rfl

/-! ### takeTokens -/

@[simp] theorem takeTokens_mem (e : Eng) (c : PCmd) : (takeTokens e c s).mem = s.mem := foldl_field (·.mem) c.ins _ s (fun _ _ => rfl)
@[simp] theorem takeTokens_regs (e : Eng) (c : PCmd) : (takeTokens e c s).regs = s.regs := foldl_field (·.regs) c.ins _ s (fun _ _ => rfl)
@[simp] theorem takeTokens_shadow (e : Eng) (c : PCmd) : (takeTokens e c s).shadow = s.shadow := foldl_field (·.shadow) c.ins _ s (fun _ _ => rfl)
@[simp] theorem takeTokens_dict (e : Eng) (c : PCmd) : (takeTokens e c s).dict = s.dict := foldl_field (·.dict) c.ins _ s (fun _ _ => rfl)
@[simp] theorem takeTokens_blobs (e : Eng) (c : PCmd) : (takeTokens e c s).blobs = s.blobs := foldl_field (·.blobs) c.ins _ s (fun _ _ => rfl)
@[simp] theorem takeTokens_sat (e : Eng) (c : PCmd) : (takeTokens e c s).sat = s.sat := foldl_field (·.sat) c.ins _ s (fun _ _ => rfl)
@[simp] theorem takeTokens_cat (e : Eng) (c : PCmd) : (takeTokens e c s).cat = s.cat := foldl_field (·.cat) c.ins _ s (fun _ _ => rfl)
@[simp] theorem takeTokens_banks (e : Eng) (c : PCmd) : (takeTokens e c s).banks = s.banks := foldl_field (·.banks) c.ins _ s (fun _ _ => rfl)
@[simp] theorem takeTokens_tiles (e : Eng) (c : PCmd) : (takeTokens e c s).tiles = s.tiles := foldl_field (·.tiles) c.ins _ s (fun _ _ => rfl)
@[simp] theorem takeTokens_units (e : Eng) (c : PCmd) : (takeTokens e c s).units = s.units := foldl_field (·.units) c.ins _ s (fun _ _ => rfl)
@[simp] theorem takeTokens_clients (e : Eng) (c : PCmd) : (takeTokens e c s).clients = s.clients := foldl_field (·.clients) c.ins _ s (fun _ _ => rfl)
@[simp] theorem takeTokens_fabric (e : Eng) (c : PCmd) : (takeTokens e c s).fabric = s.fabric := foldl_field (·.fabric) c.ins _ s (fun _ _ => rfl)
@[simp] theorem takeTokens_rot (e : Eng) (c : PCmd) : (takeTokens e c s).rot = s.rot := foldl_field (·.rot) c.ins _ s (fun _ _ => rfl)
@[simp] theorem takeTokens_arbs (e : Eng) (c : PCmd) : (takeTokens e c s).arbs = s.arbs := foldl_field (·.arbs) c.ins _ s (fun _ _ => rfl)
@[simp] theorem takeTokens_host (e : Eng) (c : PCmd) : (takeTokens e c s).host = s.host := foldl_field (·.host) c.ins _ s (fun _ _ => rfl)
@[simp] theorem takeTokens_logs (e : Eng) (c : PCmd) : (takeTokens e c s).logs = s.logs := foldl_field (·.logs) c.ins _ s (fun _ _ => rfl)
@[simp] theorem takeTokens_start (e : Eng) (c : PCmd) : (takeTokens e c s).start = s.start := foldl_field (·.start) c.ins _ s (fun _ _ => rfl)
@[simp] theorem takeTokens_wearS (e : Eng) (c : PCmd) : (takeTokens e c s).wearS = s.wearS := foldl_field (·.wearS) c.ins _ s (fun _ _ => rfl)
@[simp] theorem takeTokens_can (e : Eng) (c : PCmd) : (takeTokens e c s).can = s.can := foldl_field (·.can) c.ins _ s (fun _ _ => rfl)
@[simp] theorem takeTokens_cur (e : Eng) (c : PCmd) : (takeTokens e c s).cur = s.cur := foldl_field (·.cur) c.ins _ s (fun _ _ => rfl)
@[simp] theorem takeTokens_mail (e : Eng) (c : PCmd) : (takeTokens e c s).mail = s.mail := foldl_field (·.mail) c.ins _ s (fun _ _ => rfl)
@[simp] theorem takeTokens_wear (e : Eng) (c : PCmd) : (takeTokens e c s).wear = s.wear := foldl_field (·.wear) c.ins _ s (fun _ _ => rfl)
@[simp] theorem takeTokens_ledger (e : Eng) (c : PCmd) : (takeTokens e c s).ledger = s.ledger := foldl_field (·.ledger) c.ins _ s (fun _ _ => rfl)
@[simp] theorem takeTokens_served (e : Eng) (c : PCmd) : (takeTokens e c s).served = s.served := foldl_field (·.served) c.ins _ s (fun _ _ => rfl)
@[simp] theorem takeTokens_ports (e : Eng) (c : PCmd) : (takeTokens e c s).ports = s.ports := foldl_field (·.ports) c.ins _ s (fun _ _ => rfl)
@[simp] theorem takeTokens_tick (e : Eng) (c : PCmd) : (takeTokens e c s).tick = s.tick := foldl_field (·.tick) c.ins _ s (fun _ _ => rfl)
@[simp] theorem takeTokens_pending (e : Eng) (c : PCmd) : (takeTokens e c s).pending = s.pending := foldl_field (·.pending) c.ins _ s (fun _ _ => rfl)
@[simp] theorem takeTokens_free (e : Eng) (c : PCmd) : (takeTokens e c s).free = s.free := foldl_field (·.free) c.ins _ s (fun _ _ => rfl)

/-! ### postOuts -/

@[simp] theorem postOuts_mem (e : Eng) (k : Nat) (c : PCmd) : (postOuts e k c s).mem = s.mem := foldl_field (·.mem) c.outs _ s (fun _ _ => rfl)
@[simp] theorem postOuts_regs (e : Eng) (k : Nat) (c : PCmd) : (postOuts e k c s).regs = s.regs := foldl_field (·.regs) c.outs _ s (fun _ _ => rfl)
@[simp] theorem postOuts_shadow (e : Eng) (k : Nat) (c : PCmd) : (postOuts e k c s).shadow = s.shadow := foldl_field (·.shadow) c.outs _ s (fun _ _ => rfl)
@[simp] theorem postOuts_dict (e : Eng) (k : Nat) (c : PCmd) : (postOuts e k c s).dict = s.dict := foldl_field (·.dict) c.outs _ s (fun _ _ => rfl)
@[simp] theorem postOuts_blobs (e : Eng) (k : Nat) (c : PCmd) : (postOuts e k c s).blobs = s.blobs := foldl_field (·.blobs) c.outs _ s (fun _ _ => rfl)
@[simp] theorem postOuts_sat (e : Eng) (k : Nat) (c : PCmd) : (postOuts e k c s).sat = s.sat := foldl_field (·.sat) c.outs _ s (fun _ _ => rfl)
@[simp] theorem postOuts_cat (e : Eng) (k : Nat) (c : PCmd) : (postOuts e k c s).cat = s.cat := foldl_field (·.cat) c.outs _ s (fun _ _ => rfl)
@[simp] theorem postOuts_banks (e : Eng) (k : Nat) (c : PCmd) : (postOuts e k c s).banks = s.banks := foldl_field (·.banks) c.outs _ s (fun _ _ => rfl)
@[simp] theorem postOuts_tiles (e : Eng) (k : Nat) (c : PCmd) : (postOuts e k c s).tiles = s.tiles := foldl_field (·.tiles) c.outs _ s (fun _ _ => rfl)
@[simp] theorem postOuts_units (e : Eng) (k : Nat) (c : PCmd) : (postOuts e k c s).units = s.units := foldl_field (·.units) c.outs _ s (fun _ _ => rfl)
@[simp] theorem postOuts_clients (e : Eng) (k : Nat) (c : PCmd) : (postOuts e k c s).clients = s.clients := foldl_field (·.clients) c.outs _ s (fun _ _ => rfl)
@[simp] theorem postOuts_fabric (e : Eng) (k : Nat) (c : PCmd) : (postOuts e k c s).fabric = s.fabric := foldl_field (·.fabric) c.outs _ s (fun _ _ => rfl)
@[simp] theorem postOuts_rot (e : Eng) (k : Nat) (c : PCmd) : (postOuts e k c s).rot = s.rot := foldl_field (·.rot) c.outs _ s (fun _ _ => rfl)
@[simp] theorem postOuts_arbs (e : Eng) (k : Nat) (c : PCmd) : (postOuts e k c s).arbs = s.arbs := foldl_field (·.arbs) c.outs _ s (fun _ _ => rfl)
@[simp] theorem postOuts_host (e : Eng) (k : Nat) (c : PCmd) : (postOuts e k c s).host = s.host := foldl_field (·.host) c.outs _ s (fun _ _ => rfl)
@[simp] theorem postOuts_logs (e : Eng) (k : Nat) (c : PCmd) : (postOuts e k c s).logs = s.logs := foldl_field (·.logs) c.outs _ s (fun _ _ => rfl)
@[simp] theorem postOuts_start (e : Eng) (k : Nat) (c : PCmd) : (postOuts e k c s).start = s.start := foldl_field (·.start) c.outs _ s (fun _ _ => rfl)
@[simp] theorem postOuts_wearS (e : Eng) (k : Nat) (c : PCmd) : (postOuts e k c s).wearS = s.wearS := foldl_field (·.wearS) c.outs _ s (fun _ _ => rfl)
@[simp] theorem postOuts_can (e : Eng) (k : Nat) (c : PCmd) : (postOuts e k c s).can = s.can := foldl_field (·.can) c.outs _ s (fun _ _ => rfl)
@[simp] theorem postOuts_cur (e : Eng) (k : Nat) (c : PCmd) : (postOuts e k c s).cur = s.cur := foldl_field (·.cur) c.outs _ s (fun _ _ => rfl)
@[simp] theorem postOuts_mail (e : Eng) (k : Nat) (c : PCmd) : (postOuts e k c s).mail = s.mail := foldl_field (·.mail) c.outs _ s (fun _ _ => rfl)
@[simp] theorem postOuts_wear (e : Eng) (k : Nat) (c : PCmd) : (postOuts e k c s).wear = s.wear := foldl_field (·.wear) c.outs _ s (fun _ _ => rfl)
@[simp] theorem postOuts_ledger (e : Eng) (k : Nat) (c : PCmd) : (postOuts e k c s).ledger = s.ledger := foldl_field (·.ledger) c.outs _ s (fun _ _ => rfl)
@[simp] theorem postOuts_served (e : Eng) (k : Nat) (c : PCmd) : (postOuts e k c s).served = s.served := foldl_field (·.served) c.outs _ s (fun _ _ => rfl)
@[simp] theorem postOuts_ports (e : Eng) (k : Nat) (c : PCmd) : (postOuts e k c s).ports = s.ports := foldl_field (·.ports) c.outs _ s (fun _ _ => rfl)
@[simp] theorem postOuts_tick (e : Eng) (k : Nat) (c : PCmd) : (postOuts e k c s).tick = s.tick := foldl_field (·.tick) c.outs _ s (fun _ _ => rfl)
@[simp] theorem postOuts_pending (e : Eng) (k : Nat) (c : PCmd) : (postOuts e k c s).pending = s.pending := foldl_field (·.pending) c.outs _ s (fun _ _ => rfl)
@[simp] theorem postOuts_free (e : Eng) (k : Nat) (c : PCmd) : (postOuts e k c s).free = s.free := foldl_field (·.free) c.outs _ s (fun _ _ => rfl)

/-! ### complete -/

@[simp] theorem complete_mem (id : Nat) : (complete id s).mem = s.mem := by simp only [complete]; (repeat' split) <;> simp
@[simp] theorem complete_regs (id : Nat) : (complete id s).regs = s.regs := by simp only [complete]; (repeat' split) <;> simp
@[simp] theorem complete_shadow (id : Nat) : (complete id s).shadow = s.shadow := by simp only [complete]; (repeat' split) <;> simp
@[simp] theorem complete_dict (id : Nat) : (complete id s).dict = s.dict := by simp only [complete]; (repeat' split) <;> simp
@[simp] theorem complete_blobs (id : Nat) : (complete id s).blobs = s.blobs := by simp only [complete]; (repeat' split) <;> simp
@[simp] theorem complete_sat (id : Nat) : (complete id s).sat = s.sat := by simp only [complete]; (repeat' split) <;> simp
@[simp] theorem complete_cat (id : Nat) : (complete id s).cat = s.cat := by simp only [complete]; (repeat' split) <;> simp
@[simp] theorem complete_banks (id : Nat) : (complete id s).banks = s.banks := by simp only [complete]; (repeat' split) <;> simp
@[simp] theorem complete_tiles (id : Nat) : (complete id s).tiles = s.tiles := by simp only [complete]; (repeat' split) <;> simp
@[simp] theorem complete_units (id : Nat) : (complete id s).units = s.units := by simp only [complete]; (repeat' split) <;> simp
@[simp] theorem complete_clients (id : Nat) : (complete id s).clients = s.clients := by simp only [complete]; (repeat' split) <;> simp
@[simp] theorem complete_fabric (id : Nat) : (complete id s).fabric = s.fabric := by simp only [complete]; (repeat' split) <;> simp
@[simp] theorem complete_rot (id : Nat) : (complete id s).rot = s.rot := by simp only [complete]; (repeat' split) <;> simp
@[simp] theorem complete_arbs (id : Nat) : (complete id s).arbs = s.arbs := by simp only [complete]; (repeat' split) <;> simp
@[simp] theorem complete_host (id : Nat) : (complete id s).host = s.host := by simp only [complete]; (repeat' split) <;> simp
@[simp] theorem complete_logs (id : Nat) : (complete id s).logs = s.logs := by simp only [complete]; (repeat' split) <;> simp
@[simp] theorem complete_start (id : Nat) : (complete id s).start = s.start := by simp only [complete]; (repeat' split) <;> simp
@[simp] theorem complete_wearS (id : Nat) : (complete id s).wearS = s.wearS := by simp only [complete]; (repeat' split) <;> simp
@[simp] theorem complete_can (id : Nat) : (complete id s).can = s.can := by simp only [complete]; (repeat' split) <;> simp
@[simp] theorem complete_cur (id : Nat) : (complete id s).cur = s.cur := by simp only [complete]; (repeat' split) <;> simp
@[simp] theorem complete_mail (id : Nat) : (complete id s).mail = s.mail := by simp only [complete]; (repeat' split) <;> simp
@[simp] theorem complete_wear (id : Nat) : (complete id s).wear = s.wear := by simp only [complete]; (repeat' split) <;> simp
@[simp] theorem complete_ledger (id : Nat) : (complete id s).ledger = s.ledger := by simp only [complete]; (repeat' split) <;> simp
@[simp] theorem complete_served (id : Nat) : (complete id s).served = s.served := by simp only [complete]; (repeat' split) <;> simp
@[simp] theorem complete_ports (id : Nat) : (complete id s).ports = s.ports := by simp only [complete]; (repeat' split) <;> simp
@[simp] theorem complete_tick (id : Nat) : (complete id s).tick = s.tick := by simp only [complete]; (repeat' split) <;> simp
@[simp] theorem complete_pending (id : Nat) : (complete id s).pending = s.pending := by simp only [complete]; (repeat' split) <;> simp
@[simp] theorem complete_free (id : Nat) : (complete id s).free = s.free := by simp only [complete]; (repeat' split) <;> simp

/-! ### postBatch -/

@[simp] theorem postBatch_mem (id : Nat) : (postBatch id s).mem = s.mem := by simp only [postBatch]; (repeat' split) <;> simp
@[simp] theorem postBatch_regs (id : Nat) : (postBatch id s).regs = s.regs := by simp only [postBatch]; (repeat' split) <;> simp
@[simp] theorem postBatch_shadow (id : Nat) : (postBatch id s).shadow = s.shadow := by simp only [postBatch]; (repeat' split) <;> simp
@[simp] theorem postBatch_dict (id : Nat) : (postBatch id s).dict = s.dict := by simp only [postBatch]; (repeat' split) <;> simp
@[simp] theorem postBatch_blobs (id : Nat) : (postBatch id s).blobs = s.blobs := by simp only [postBatch]; (repeat' split) <;> simp
@[simp] theorem postBatch_sat (id : Nat) : (postBatch id s).sat = s.sat := by simp only [postBatch]; (repeat' split) <;> simp
@[simp] theorem postBatch_cat (id : Nat) : (postBatch id s).cat = s.cat := by simp only [postBatch]; (repeat' split) <;> simp
@[simp] theorem postBatch_banks (id : Nat) : (postBatch id s).banks = s.banks := by simp only [postBatch]; (repeat' split) <;> simp
@[simp] theorem postBatch_tiles (id : Nat) : (postBatch id s).tiles = s.tiles := by simp only [postBatch]; (repeat' split) <;> simp
@[simp] theorem postBatch_units (id : Nat) : (postBatch id s).units = s.units := by simp only [postBatch]; (repeat' split) <;> simp
@[simp] theorem postBatch_clients (id : Nat) : (postBatch id s).clients = s.clients := by simp only [postBatch]; (repeat' split) <;> simp
@[simp] theorem postBatch_fabric (id : Nat) : (postBatch id s).fabric = s.fabric := by simp only [postBatch]; (repeat' split) <;> simp
@[simp] theorem postBatch_rot (id : Nat) : (postBatch id s).rot = s.rot := by simp only [postBatch]; (repeat' split) <;> simp
@[simp] theorem postBatch_arbs (id : Nat) : (postBatch id s).arbs = s.arbs := by simp only [postBatch]; (repeat' split) <;> simp
@[simp] theorem postBatch_host (id : Nat) : (postBatch id s).host = s.host := by simp only [postBatch]; (repeat' split) <;> simp
@[simp] theorem postBatch_logs (id : Nat) : (postBatch id s).logs = s.logs := by simp only [postBatch]; (repeat' split) <;> simp
@[simp] theorem postBatch_start (id : Nat) : (postBatch id s).start = s.start := by simp only [postBatch]; (repeat' split) <;> simp
@[simp] theorem postBatch_wearS (id : Nat) : (postBatch id s).wearS = s.wearS := by simp only [postBatch]; (repeat' split) <;> simp
@[simp] theorem postBatch_can (id : Nat) : (postBatch id s).can = s.can := by simp only [postBatch]; (repeat' split) <;> simp
@[simp] theorem postBatch_cur (id : Nat) : (postBatch id s).cur = s.cur := by simp only [postBatch]; (repeat' split) <;> simp
@[simp] theorem postBatch_mail (id : Nat) : (postBatch id s).mail = s.mail := by simp only [postBatch]; (repeat' split) <;> simp
@[simp] theorem postBatch_wear (id : Nat) : (postBatch id s).wear = s.wear := by simp only [postBatch]; (repeat' split) <;> simp
@[simp] theorem postBatch_ledger (id : Nat) : (postBatch id s).ledger = s.ledger := by simp only [postBatch]; (repeat' split) <;> simp
@[simp] theorem postBatch_served (id : Nat) : (postBatch id s).served = s.served := by simp only [postBatch]; (repeat' split) <;> simp
@[simp] theorem postBatch_ports (id : Nat) : (postBatch id s).ports = s.ports := by simp only [postBatch]; (repeat' split) <;> simp
@[simp] theorem postBatch_tick (id : Nat) : (postBatch id s).tick = s.tick := by simp only [postBatch]; (repeat' split) <;> simp
@[simp] theorem postBatch_pending (id : Nat) : (postBatch id s).pending = s.pending := by simp only [postBatch]; (repeat' split) <;> simp
@[simp] theorem postBatch_free (id : Nat) : (postBatch id s).free = s.free := by simp only [postBatch]; (repeat' split) <;> simp

/-! ### noteIllegal -/

@[simp] theorem noteIllegal_mem (e : Eng) (c : Nat) (w : WinCmd) : (noteIllegal e c w s).mem = s.mem := rfl
@[simp] theorem noteIllegal_shadow (e : Eng) (c : Nat) (w : WinCmd) : (noteIllegal e c w s).shadow = s.shadow := rfl
@[simp] theorem noteIllegal_dict (e : Eng) (c : Nat) (w : WinCmd) : (noteIllegal e c w s).dict = s.dict := rfl
@[simp] theorem noteIllegal_blobs (e : Eng) (c : Nat) (w : WinCmd) : (noteIllegal e c w s).blobs = s.blobs := rfl
@[simp] theorem noteIllegal_sat (e : Eng) (c : Nat) (w : WinCmd) : (noteIllegal e c w s).sat = s.sat := rfl
@[simp] theorem noteIllegal_cat (e : Eng) (c : Nat) (w : WinCmd) : (noteIllegal e c w s).cat = s.cat := rfl
@[simp] theorem noteIllegal_banks (e : Eng) (c : Nat) (w : WinCmd) : (noteIllegal e c w s).banks = s.banks := rfl
@[simp] theorem noteIllegal_plates (e : Eng) (c : Nat) (w : WinCmd) : (noteIllegal e c w s).plates = s.plates := rfl
@[simp] theorem noteIllegal_tiles (e : Eng) (c : Nat) (w : WinCmd) : (noteIllegal e c w s).tiles = s.tiles := rfl
@[simp] theorem noteIllegal_units (e : Eng) (c : Nat) (w : WinCmd) : (noteIllegal e c w s).units = s.units := rfl
@[simp] theorem noteIllegal_clients (e : Eng) (c : Nat) (w : WinCmd) : (noteIllegal e c w s).clients = s.clients := rfl
@[simp] theorem noteIllegal_fabric (e : Eng) (c : Nat) (w : WinCmd) : (noteIllegal e c w s).fabric = s.fabric := rfl
@[simp] theorem noteIllegal_rot (e : Eng) (c : Nat) (w : WinCmd) : (noteIllegal e c w s).rot = s.rot := rfl
@[simp] theorem noteIllegal_arbs (e : Eng) (c : Nat) (w : WinCmd) : (noteIllegal e c w s).arbs = s.arbs := rfl
@[simp] theorem noteIllegal_start (e : Eng) (c : Nat) (w : WinCmd) : (noteIllegal e c w s).start = s.start := rfl
@[simp] theorem noteIllegal_wearS (e : Eng) (c : Nat) (w : WinCmd) : (noteIllegal e c w s).wearS = s.wearS := rfl
@[simp] theorem noteIllegal_can (e : Eng) (c : Nat) (w : WinCmd) : (noteIllegal e c w s).can = s.can := rfl
@[simp] theorem noteIllegal_cur (e : Eng) (c : Nat) (w : WinCmd) : (noteIllegal e c w s).cur = s.cur := rfl
@[simp] theorem noteIllegal_mail (e : Eng) (c : Nat) (w : WinCmd) : (noteIllegal e c w s).mail = s.mail := rfl
@[simp] theorem noteIllegal_wear (e : Eng) (c : Nat) (w : WinCmd) : (noteIllegal e c w s).wear = s.wear := rfl
@[simp] theorem noteIllegal_ledger (e : Eng) (c : Nat) (w : WinCmd) : (noteIllegal e c w s).ledger = s.ledger := rfl
@[simp] theorem noteIllegal_served (e : Eng) (c : Nat) (w : WinCmd) : (noteIllegal e c w s).served = s.served := rfl
@[simp] theorem noteIllegal_ports (e : Eng) (c : Nat) (w : WinCmd) : (noteIllegal e c w s).ports = s.ports := rfl
@[simp] theorem noteIllegal_tick (e : Eng) (c : Nat) (w : WinCmd) : (noteIllegal e c w s).tick = s.tick := rfl
@[simp] theorem noteIllegal_pending (e : Eng) (c : Nat) (w : WinCmd) : (noteIllegal e c w s).pending = s.pending := rfl
@[simp] theorem noteIllegal_free (e : Eng) (c : Nat) (w : WinCmd) : (noteIllegal e c w s).free = s.free := rfl

/-! ### refuse -/

@[simp] theorem refuse_mem (id : Nat) : (refuse id s).mem = s.mem := by unfold refuse; split <;> simp
@[simp] theorem refuse_shadow (id : Nat) : (refuse id s).shadow = s.shadow := by unfold refuse; split <;> simp
@[simp] theorem refuse_dict (id : Nat) : (refuse id s).dict = s.dict := by unfold refuse; split <;> simp
@[simp] theorem refuse_blobs (id : Nat) : (refuse id s).blobs = s.blobs := by unfold refuse; split <;> simp
@[simp] theorem refuse_sat (id : Nat) : (refuse id s).sat = s.sat := by unfold refuse; split <;> simp
@[simp] theorem refuse_cat (id : Nat) : (refuse id s).cat = s.cat := by unfold refuse; split <;> simp
@[simp] theorem refuse_banks (id : Nat) : (refuse id s).banks = s.banks := by unfold refuse; split <;> simp
@[simp] theorem refuse_tiles (id : Nat) : (refuse id s).tiles = s.tiles := by unfold refuse; split <;> simp
@[simp] theorem refuse_units (id : Nat) : (refuse id s).units = s.units := by unfold refuse; split <;> simp
@[simp] theorem refuse_clients (id : Nat) : (refuse id s).clients = s.clients := by unfold refuse; split <;> simp
@[simp] theorem refuse_fabric (id : Nat) : (refuse id s).fabric = s.fabric := by unfold refuse; split <;> simp
@[simp] theorem refuse_rot (id : Nat) : (refuse id s).rot = s.rot := by unfold refuse; split <;> simp
@[simp] theorem refuse_arbs (id : Nat) : (refuse id s).arbs = s.arbs := by unfold refuse; split <;> simp
@[simp] theorem refuse_start (id : Nat) : (refuse id s).start = s.start := by unfold refuse; split <;> simp
@[simp] theorem refuse_wearS (id : Nat) : (refuse id s).wearS = s.wearS := by unfold refuse; split <;> simp
@[simp] theorem refuse_can (id : Nat) : (refuse id s).can = s.can := by unfold refuse; split <;> simp
@[simp] theorem refuse_cur (id : Nat) : (refuse id s).cur = s.cur := by unfold refuse; split <;> simp
@[simp] theorem refuse_mail (id : Nat) : (refuse id s).mail = s.mail := by unfold refuse; split <;> simp
@[simp] theorem refuse_wear (id : Nat) : (refuse id s).wear = s.wear := by unfold refuse; split <;> simp
@[simp] theorem refuse_ledger (id : Nat) : (refuse id s).ledger = s.ledger := by unfold refuse; split <;> simp
@[simp] theorem refuse_served (id : Nat) : (refuse id s).served = s.served := by unfold refuse; split <;> simp
@[simp] theorem refuse_ports (id : Nat) : (refuse id s).ports = s.ports := by unfold refuse; split <;> simp
@[simp] theorem refuse_tick (id : Nat) : (refuse id s).tick = s.tick := by unfold refuse; split <;> simp
@[simp] theorem refuse_pending (id : Nat) : (refuse id s).pending = s.pending := by unfold refuse; split <;> simp
@[simp] theorem refuse_free (id : Nat) : (refuse id s).free = s.free := by unfold refuse; split <;> simp

/-! ### raiseFault -/

@[simp] theorem raiseFault_mem (c k d : Nat) : (raiseFault c k d s).mem = s.mem := by simp only [raiseFault]; (repeat' split) <;> simp
@[simp] theorem raiseFault_regs (c k d : Nat) : (raiseFault c k d s).regs = s.regs := by simp only [raiseFault]; (repeat' split) <;> simp
@[simp] theorem raiseFault_shadow (c k d : Nat) : (raiseFault c k d s).shadow = s.shadow := by simp only [raiseFault]; (repeat' split) <;> simp
@[simp] theorem raiseFault_dict (c k d : Nat) : (raiseFault c k d s).dict = s.dict := by simp only [raiseFault]; (repeat' split) <;> simp
@[simp] theorem raiseFault_blobs (c k d : Nat) : (raiseFault c k d s).blobs = s.blobs := by simp only [raiseFault]; (repeat' split) <;> simp
@[simp] theorem raiseFault_sat (c k d : Nat) : (raiseFault c k d s).sat = s.sat := by simp only [raiseFault]; (repeat' split) <;> simp
@[simp] theorem raiseFault_cat (c k d : Nat) : (raiseFault c k d s).cat = s.cat := by simp only [raiseFault]; (repeat' split) <;> simp
@[simp] theorem raiseFault_banks (c k d : Nat) : (raiseFault c k d s).banks = s.banks := by simp only [raiseFault]; (repeat' split) <;> simp
@[simp] theorem raiseFault_plates (c k d : Nat) : (raiseFault c k d s).plates = s.plates := by simp only [raiseFault]; (repeat' split) <;> simp
@[simp] theorem raiseFault_tiles (c k d : Nat) : (raiseFault c k d s).tiles = s.tiles := by simp only [raiseFault]; (repeat' split) <;> simp
@[simp] theorem raiseFault_units (c k d : Nat) : (raiseFault c k d s).units = s.units := by simp only [raiseFault]; (repeat' split) <;> simp
@[simp] theorem raiseFault_fabric (c k d : Nat) : (raiseFault c k d s).fabric = s.fabric := by simp only [raiseFault]; (repeat' split) <;> simp
@[simp] theorem raiseFault_rot (c k d : Nat) : (raiseFault c k d s).rot = s.rot := by simp only [raiseFault]; (repeat' split) <;> simp
@[simp] theorem raiseFault_arbs (c k d : Nat) : (raiseFault c k d s).arbs = s.arbs := by simp only [raiseFault]; (repeat' split) <;> simp
@[simp] theorem raiseFault_start (c k d : Nat) : (raiseFault c k d s).start = s.start := by simp only [raiseFault]; (repeat' split) <;> simp
@[simp] theorem raiseFault_wearS (c k d : Nat) : (raiseFault c k d s).wearS = s.wearS := by simp only [raiseFault]; (repeat' split) <;> simp
@[simp] theorem raiseFault_can (c k d : Nat) : (raiseFault c k d s).can = s.can := by simp only [raiseFault]; (repeat' split) <;> simp
@[simp] theorem raiseFault_cur (c k d : Nat) : (raiseFault c k d s).cur = s.cur := by simp only [raiseFault]; (repeat' split) <;> simp
@[simp] theorem raiseFault_mail (c k d : Nat) : (raiseFault c k d s).mail = s.mail := by simp only [raiseFault]; (repeat' split) <;> simp
@[simp] theorem raiseFault_wear (c k d : Nat) : (raiseFault c k d s).wear = s.wear := by simp only [raiseFault]; (repeat' split) <;> simp
@[simp] theorem raiseFault_ledger (c k d : Nat) : (raiseFault c k d s).ledger = s.ledger := by simp only [raiseFault]; (repeat' split) <;> simp
@[simp] theorem raiseFault_served (c k d : Nat) : (raiseFault c k d s).served = s.served := by simp only [raiseFault]; (repeat' split) <;> simp
@[simp] theorem raiseFault_ports (c k d : Nat) : (raiseFault c k d s).ports = s.ports := by simp only [raiseFault]; (repeat' split) <;> simp
@[simp] theorem raiseFault_tick (c k d : Nat) : (raiseFault c k d s).tick = s.tick := by simp only [raiseFault]; (repeat' split) <;> simp
@[simp] theorem raiseFault_pending (c k d : Nat) : (raiseFault c k d s).pending = s.pending := by simp only [raiseFault]; (repeat' split) <;> simp
@[simp] theorem raiseFault_free (c k d : Nat) : (raiseFault c k d s).free = s.free := by simp only [raiseFault]; (repeat' split) <;> simp

/-! ### Reads after writes -/

@[simp] theorem getReg_setReg (a b : Nat) (v : Word) :
    getReg (setReg a v s) b = if b = a then v else getReg s b := by
  unfold getReg setReg
  by_cases h : b = a
  · subst h; simp
  · simp [mget_mset_ne _ _ _ _ h, h]

@[simp] theorem getReg_orReg (a b : Nat) (v : Word) :
    getReg (orReg a v s) b = if b = a then getReg s a ||| v else getReg s b := by simp [orReg]

@[simp] theorem getDict_setDict (k j : Nat) (v : Word) :
    getDict (setDict k v s) j = if j = k then v else getDict s j := by
  unfold getDict setDict
  by_cases h : j = k
  · subst h; simp
  · simp [mget_mset_ne _ _ _ _ h, h]

@[simp] theorem getTile_setTile (t u : TileId) (x : Tile) :
    getTile (setTile t x s) u = if u = t then x else getTile s u := by
  by_cases h : u = t
  · subst h; simp [getTile, setTile]
  · have : u.val ≠ t.val := fun hv => h (Fin.ext hv)
    simp [getTile, setTile, mget_mset_ne _ _ _ _ this, h]

@[simp] theorem getClient_setClient (c k : Nat) (x : Client) :
    getClient (setClient c x s) k = if k = c then x else getClient s k := by
  simp [getClient, setClient, mget_mset]

/-- Reads that depend on one field of the state only. -/
theorem getReg_congr {s t : State} (h : t.regs = s.regs) (a : Nat) : getReg t a = getReg s a := by simp [getReg, h]
theorem getDict_congr {s t : State} (h : t.dict = s.dict) (k : Nat) : getDict t k = getDict s k := by simp [getDict, h]
theorem getTile_congr {s t : State} (h : t.tiles = s.tiles) (u : TileId) : getTile t u = getTile s u := by
  simp [getTile, h]
theorem getClient_congr {s t : State} (h : t.clients = s.clients) (c : Nat) : getClient t c = getClient s c := by
  simp [getClient, h]
theorem getEng_congr {s t : State} (h : t.plates = s.plates) (e : Eng) : getEng t e = getEng s e := by
  simp [getEng, h]

/-- Every engine has a key of its own. -/
theorem engKey_inj : ∀ {a b : Eng}, engKey a = engKey b → a = b := by
  intro a b h
  cases a <;> cases b <;> simp only [engKey, engDie, engCode, engUnit] at h <;> first
    | (congr 1 <;> apply Fin.ext <;> omega)
    | omega

@[simp] theorem getEng_setEng (e f : Eng) (x : EngSt) :
    getEng (setEng e x s) f = if f = e then x else getEng s f := by
  by_cases h : f = e
  · subst h; simp [getEng, setEng]
  · have : engKey f ≠ engKey e := fun hk => h (engKey_inj hk)
    simp [getEng, setEng, mget_mset_ne _ _ _ _ this, h]


end Sys2Proof.Machine
end

