-- ==== Sys2Proof/Laws/Frame.lean ====
section
/-! SUPPORT. Frames: states field by field, what counting and charging leave alone, and what they do to a register. -/

set_option Elab.async false

namespace Sys2Proof.Machine

/-- States that agree in every field are equal. -/
theorem State.ext_fields {s t : State} (hmem : s.mem = t.mem) (hregs : s.regs = t.regs) (hshadow : s.shadow = t.shadow) (hdict : s.dict = t.dict) (hblobs : s.blobs = t.blobs)
    (hsat : s.sat = t.sat) (hcat : s.cat = t.cat) (hbanks : s.banks = t.banks) (hplates : s.plates = t.plates) (htiles : s.tiles = t.tiles)
    (hunits : s.units = t.units) (hclients : s.clients = t.clients) (hfabric : s.fabric = t.fabric) (hrot : s.rot = t.rot) (harbs : s.arbs = t.arbs)
    (hhost : s.host = t.host) (hlogs : s.logs = t.logs) (hstart : s.start = t.start) (hwearS : s.wearS = t.wearS) (hcan : s.can = t.can)
    (hcur : s.cur = t.cur) (hmail : s.mail = t.mail) (hwear : s.wear = t.wear) (hledger : s.ledger = t.ledger) (hserved : s.served = t.served)
    (hports : s.ports = t.ports) (htick : s.tick = t.tick) (hpending : s.pending = t.pending) (hfree : s.free = t.free) : s = t := by
  cases s; cases t; simp_all

/-- A state that agrees with s in every field but its accounts is s with those accounts. -/
theorem State.accounts_of {s t : State} (hmem : t.mem = s.mem) (hshadow : t.shadow = s.shadow) (hblobs : t.blobs = s.blobs) (hcat : t.cat = s.cat) (hbanks : t.banks = s.banks)
    (hplates : t.plates = s.plates) (htiles : t.tiles = s.tiles) (hunits : t.units = s.units) (hclients : t.clients = s.clients) (hfabric : t.fabric = s.fabric)
    (hrot : t.rot = s.rot) (harbs : t.arbs = s.arbs) (hstart : t.start = s.start) (hwearS : t.wearS = s.wearS) (hcan : t.can = s.can)
    (hcur : t.cur = s.cur) (hmail : t.mail = s.mail) (hwear : t.wear = s.wear) (hserved : t.served = s.served) (hports : t.ports = s.ports)
    (htick : t.tick = s.tick) (hpending : t.pending = s.pending) (hfree : t.free = s.free) : t = s.accounts t := by
  cases s; cases t; simp_all [State.accounts]

/-- The accounts of a state are its own. -/
@[simp] theorem accounts_mem (s t : State) : (s.accounts t).mem = s.mem := rfl
@[simp] theorem accounts_regs (s t : State) : (s.accounts t).regs = t.regs := rfl
@[simp] theorem accounts_shadow (s t : State) : (s.accounts t).shadow = s.shadow := rfl
@[simp] theorem accounts_dict (s t : State) : (s.accounts t).dict = t.dict := rfl
@[simp] theorem accounts_blobs (s t : State) : (s.accounts t).blobs = s.blobs := rfl
@[simp] theorem accounts_sat (s t : State) : (s.accounts t).sat = t.sat := rfl
@[simp] theorem accounts_cat (s t : State) : (s.accounts t).cat = s.cat := rfl
@[simp] theorem accounts_banks (s t : State) : (s.accounts t).banks = s.banks := rfl
@[simp] theorem accounts_plates (s t : State) : (s.accounts t).plates = s.plates := rfl
@[simp] theorem accounts_tiles (s t : State) : (s.accounts t).tiles = s.tiles := rfl
@[simp] theorem accounts_units (s t : State) : (s.accounts t).units = s.units := rfl
@[simp] theorem accounts_clients (s t : State) : (s.accounts t).clients = s.clients := rfl
@[simp] theorem accounts_fabric (s t : State) : (s.accounts t).fabric = s.fabric := rfl
@[simp] theorem accounts_rot (s t : State) : (s.accounts t).rot = s.rot := rfl
@[simp] theorem accounts_arbs (s t : State) : (s.accounts t).arbs = s.arbs := rfl
@[simp] theorem accounts_host (s t : State) : (s.accounts t).host = t.host := rfl
@[simp] theorem accounts_logs (s t : State) : (s.accounts t).logs = t.logs := rfl
@[simp] theorem accounts_start (s t : State) : (s.accounts t).start = s.start := rfl
@[simp] theorem accounts_wearS (s t : State) : (s.accounts t).wearS = s.wearS := rfl
@[simp] theorem accounts_can (s t : State) : (s.accounts t).can = s.can := rfl
@[simp] theorem accounts_cur (s t : State) : (s.accounts t).cur = s.cur := rfl
@[simp] theorem accounts_mail (s t : State) : (s.accounts t).mail = s.mail := rfl
@[simp] theorem accounts_wear (s t : State) : (s.accounts t).wear = s.wear := rfl
@[simp] theorem accounts_ledger (s t : State) : (s.accounts t).ledger = t.ledger := rfl
@[simp] theorem accounts_served (s t : State) : (s.accounts t).served = s.served := rfl
@[simp] theorem accounts_ports (s t : State) : (s.accounts t).ports = s.ports := rfl
@[simp] theorem accounts_tick (s t : State) : (s.accounts t).tick = s.tick := rfl
@[simp] theorem accounts_pending (s t : State) : (s.accounts t).pending = s.pending := rfl
@[simp] theorem accounts_free (s t : State) : (s.accounts t).free = s.free := rfl

/-- A change of tiles and then of accounts. -/
theorem State.accounts_tiles {s x y : State} (h : y = x.accounts y) (hx : x = { s with tiles := x.tiles }) :
    y = { s.accounts y with tiles := y.tiles } := by
  cases s; cases x; cases y; simp_all [State.accounts]

theorem charge_accounts (e : Eng) (c : Nat) (s : State) : charge e c s = s.accounts (charge e c s) := by
  apply State.accounts_of <;> simp

theorem bump_accounts (b o n : Nat) (s : State) : bump b o n s = s.accounts (bump b o n s) := by
  apply State.accounts_of <;> simp

theorem State.accounts_trans {r s t : State} (h1 : s = r.accounts s) (h2 : t = s.accounts t) : t = r.accounts t :=
  h2.trans (congrArg (fun y : State => y.accounts t) h1 : s.accounts t = (r.accounts s).accounts t)

theorem setReg_accounts (a : Nat) (v : Word) (s : State) : setReg a v s = s.accounts (setReg a v s) := rfl
theorem orReg_accounts (a : Nat) (v : Word) (s : State) : orReg a v s = s.accounts (orReg a v s) := rfl
theorem setBit_accounts (a i : Nat) (s : State) : setBit a i s = s.accounts (setBit a i s) := rfl

theorem post_accounts (k c d : Nat) (s : State) : post k c d s = s.accounts (post k c d s) := rfl

theorem bumpDict_accounts (k n : Nat) (s : State) : bumpDict k n s = s.accounts (bumpDict k n s) := by
  apply State.accounts_of <;> simp

/-- Counting changes its own counter, which sticks at all ones (R82), and no other register. -/
theorem bump_getReg (b o n a : Nat) (s : State) :
    getReg (bump b o n s) a = if a = b + o then stickyAdd 64 (getReg s (b + o)) n else getReg s a := by
  simp only [bump]
  split
  · simp
  · rw [getReg_congr (stick_regs _ _)]; simp

theorem charge_getReg (e : Eng) (c a : Nat) (s : State) :
    getReg (charge e c s) a =
      if a = stallBlk e + 8 * c then stickyAdd 64 (getReg s (stallBlk e + 8 * c)) 1 else getReg s a := by
  have h : getReg (charge e c s) a = getReg (bump (stallBlk e) (8 * c) 1 s) a := by
    apply getReg_congr
    simp only [charge]
    (repeat' split) <;> simp
  rw [h, bump_getReg]

/-- Counting changes its own dictionary total, which sticks at its largest value (R82, R238), and no other entry. -/
theorem bumpDictW_getDict (w k n j : Nat) (s : State) :
    getDict (bumpDictW w k n s) j = if j = k then (if (getDict s k).toNat + n < 2 ^ w then BitVec.ofNat 64 ((getDict s k).toNat + n)
      else BitVec.ofNat 64 (2 ^ w - 1)) else getDict s j := by
  simp only [bumpDictW]
  split
  · rw [getDict_setDict]
  · rw [getDict_congr (stickDict_dict _ _ _), getDict_setDict]

theorem bumpDict_getDict (k n j : Nat) (s : State) :
    getDict (bumpDict k n s) j = if j = k then (if (getDict s k).toNat + n < 2 ^ 64 then BitVec.ofNat 64 ((getDict s k).toNat + n)
      else BitVec.ofNat 64 (2 ^ 64 - 1)) else getDict s j := bumpDictW_getDict 64 k n j s

theorem setBit_getReg (a i b : Nat) (s : State) :
    getReg (setBit a i s) b = if b = a then getReg s a ||| 1#64 <<< i else getReg s b := by simp [setBit]

theorem inTurn_congr {s t : State} (hr : t.rot = s.rot) (c : Nat) : inTurn t c = inTurn s c := by
  unfold inTurn; rw [hr]

theorem clientOn_congr {s t : State} (hc : t.clients = s.clients) (hr : t.rot = s.rot) (d : Nat) :
    clientOn t d = clientOn s d := by
  unfold clientOn
  rw [show getClient t = getClient s from funext (getClient_congr hc), show inTurn t = inTurn s from funext (inTurn_congr hr)]

/-! What a change of accounts leaves, field by field. -/

theorem State.eq_mem {r y : State} (h : y = r.accounts y) : y.mem = r.mem := by rw [h]; rfl
theorem State.eq_shadow {r y : State} (h : y = r.accounts y) : y.shadow = r.shadow := by rw [h]; rfl
theorem State.eq_blobs {r y : State} (h : y = r.accounts y) : y.blobs = r.blobs := by rw [h]; rfl
theorem State.eq_cat {r y : State} (h : y = r.accounts y) : y.cat = r.cat := by rw [h]; rfl
theorem State.eq_banks {r y : State} (h : y = r.accounts y) : y.banks = r.banks := by rw [h]; rfl
theorem State.eq_plates {r y : State} (h : y = r.accounts y) : y.plates = r.plates := by rw [h]; rfl
theorem State.eq_tiles {r y : State} (h : y = r.accounts y) : y.tiles = r.tiles := by rw [h]; rfl
theorem State.eq_units {r y : State} (h : y = r.accounts y) : y.units = r.units := by rw [h]; rfl
theorem State.eq_clients {r y : State} (h : y = r.accounts y) : y.clients = r.clients := by rw [h]; rfl
theorem State.eq_fabric {r y : State} (h : y = r.accounts y) : y.fabric = r.fabric := by rw [h]; rfl
theorem State.eq_rot {r y : State} (h : y = r.accounts y) : y.rot = r.rot := by rw [h]; rfl
theorem State.eq_arbs {r y : State} (h : y = r.accounts y) : y.arbs = r.arbs := by rw [h]; rfl
theorem State.eq_start {r y : State} (h : y = r.accounts y) : y.start = r.start := by rw [h]; rfl
theorem State.eq_wearS {r y : State} (h : y = r.accounts y) : y.wearS = r.wearS := by rw [h]; rfl
theorem State.eq_can {r y : State} (h : y = r.accounts y) : y.can = r.can := by rw [h]; rfl
theorem State.eq_cur {r y : State} (h : y = r.accounts y) : y.cur = r.cur := by rw [h]; rfl
theorem State.eq_mail {r y : State} (h : y = r.accounts y) : y.mail = r.mail := by rw [h]; rfl
theorem State.eq_wear {r y : State} (h : y = r.accounts y) : y.wear = r.wear := by rw [h]; rfl
theorem State.eq_served {r y : State} (h : y = r.accounts y) : y.served = r.served := by rw [h]; rfl
theorem State.eq_ports {r y : State} (h : y = r.accounts y) : y.ports = r.ports := by rw [h]; rfl
theorem State.eq_tick {r y : State} (h : y = r.accounts y) : y.tick = r.tick := by rw [h]; rfl
theorem State.eq_pending {r y : State} (h : y = r.accounts y) : y.pending = r.pending := by rw [h]; rfl
theorem State.eq_free {r y : State} (h : y = r.accounts y) : y.free = r.free := by rw [h]; rfl

/-- Marking a scope word after a change of accounts. -/
theorem setScope_of_accounts {r y : State} (c : Nat) (b : BitVec 32) (h : y = r.accounts y) :
    setScope c b y = (setScope c b r).accounts (setScope c b y) := by
  have hc := State.eq_clients h
  have hg : getClient y c = getClient r c := getClient_congr hc c
  unfold setScope
  split
  · apply State.accounts_of
    · rw [setClient_mem, setClient_mem, State.eq_mem h]
    · rw [setClient_shadow, setClient_shadow, State.eq_shadow h]
    · rw [setClient_blobs, setClient_blobs, State.eq_blobs h]
    · rw [setClient_cat, setClient_cat, State.eq_cat h]
    · rw [setClient_banks, setClient_banks, State.eq_banks h]
    · rw [setClient_plates, setClient_plates, State.eq_plates h]
    · rw [setClient_tiles, setClient_tiles, State.eq_tiles h]
    · rw [setClient_units, setClient_units, State.eq_units h]
    · show mset {} y.clients c _ = mset {} r.clients c _
      rw [hc, hg]
    · rw [setClient_fabric, setClient_fabric, State.eq_fabric h]
    · rw [setClient_rot, setClient_rot, State.eq_rot h]
    · rw [setClient_arbs, setClient_arbs, State.eq_arbs h]
    · rw [setClient_start, setClient_start, State.eq_start h]
    · rw [setClient_wearS, setClient_wearS, State.eq_wearS h]
    · rw [setClient_can, setClient_can, State.eq_can h]
    · rw [setClient_cur, setClient_cur, State.eq_cur h]
    · rw [setClient_mail, setClient_mail, State.eq_mail h]
    · rw [setClient_wear, setClient_wear, State.eq_wear h]
    · rw [setClient_served, setClient_served, State.eq_served h]
    · rw [setClient_ports, setClient_ports, State.eq_ports h]
    · rw [setClient_tick, setClient_tick, State.eq_tick h]
    · rw [setClient_pending, setClient_pending, State.eq_pending h]
    · rw [setClient_free, setClient_free, State.eq_free h]
  · exact h

theorem setScope_frame (c : Nat) (b : BitVec 32) (s : State) :
    setScope c b s = { s with clients := (setScope c b s).clients } := by
  unfold setScope; split <;> rfl

theorem setScope_setTile (c : Nat) (b : BitVec 32) (t : TileId) (x : Tile) (s : State) :
    setScope c b (setTile t x s) = { setScope c b s with tiles := (setScope c b (setTile t x s)).tiles } := by
  unfold setScope; split <;> rfl

/-! Events only come behind earlier ones. -/

theorem post_posted (k c d : Nat) (s : State) : s.host.posted <+: (post k c d s).host.posted := List.prefix_append _ _

theorem stick_posted (b : Nat) (s : State) : s.host.posted <+: (stick b s).host.posted := by
  unfold stick; split
  · exact List.prefix_rfl
  · exact post_posted _ _ _ _

theorem bump_posted (b o n : Nat) (s : State) : s.host.posted <+: (bump b o n s).host.posted := by
  simp only [bump]; split
  · exact List.prefix_rfl
  · refine List.IsPrefix.trans ?_ (stick_posted _ _); exact List.prefix_rfl

theorem stickDict_posted (i j : Nat) (s : State) : s.host.posted <+: (stickDict i j s).host.posted := by
  simp only [stickDict]; split
  · exact List.prefix_rfl
  · exact post_posted _ _ _ _

theorem bumpDictW_posted (w k n : Nat) (s : State) : s.host.posted <+: (bumpDictW w k n s).host.posted := by
  simp only [bumpDictW]; split
  · exact List.prefix_rfl
  · refine List.IsPrefix.trans ?_ (stickDict_posted _ _ _); exact List.prefix_rfl

theorem bumpDict_posted (k n : Nat) (s : State) : s.host.posted <+: (bumpDict k n s).host.posted := bumpDictW_posted _ _ _ _

theorem bumpLedger_posted (c j n : Nat) (s : State) : s.host.posted <+: (bumpLedger c j n s).host.posted := by
  simp only [bumpLedger]; (repeat' split)
  · exact List.prefix_rfl
  · refine List.IsPrefix.trans ?_ (stickDict_posted _ _ _); exact List.prefix_rfl
  · exact List.prefix_rfl

theorem charge_posted (e : Eng) (c : Nat) (s : State) : s.host.posted <+: (charge e c s).host.posted := by
  simp only [charge]
  have h1 := bump_posted (stallBlk e) (8 * c) 1 s
  generalize bump (stallBlk e) (8 * c) 1 s = s1 at *
  have h2 : s1.host.posted <+: (if (engTile e).isSome then bumpDict (dkey 0x4041 c) 1 s1 else s1).host.posted := by
    split
    · exact bumpDict_posted _ _ _
    · exact List.prefix_rfl
  generalize (if (engTile e).isSome then bumpDict (dkey 0x4041 c) 1 s1 else s1) = s2 at *
  split
  · exact h1.trans h2
  · exact (h1.trans h2).trans (bumpLedger_posted _ _ _ _)

/-- An event as it is posted depends on the clients' steps and the tick alone. -/
theorem post_posted_congr {s t : State} (hh : t.host.posted = s.host.posted) (hc : t.clients = s.clients) (ht : t.tick = s.tick)
    (k c d : Nat) : (post k c d t).host.posted = (post k c d s).host.posted := by
  simp only [post, postEvent, hh, stepNow, getClient_congr hc, ht]

end Sys2Proof.Machine
end

