-- ==== Sys2Proof/Laws/Memory.lean ====
section
/-! SUPPORT. Memory: every operation keeps its canonical form; what a byte and a word read as after a write. -/

set_option Elab.async false

namespace Sys2Proof.Machine

variable {m : Memory}

theorem Memory.wf_iff (m : Memory) :
    m.wf = true ↔ mwf Memory.unlisted m.cells = true ∧ mwf 0#16 m.synd = true ∧ mwf 0 m.owner = true := by
  simp [Memory.wf, and_assoc]

theorem Memory.wf_empty : ({} : Memory).wf = true := rfl

theorem Memory.wf_cells {cells : List Host.Cell} (h : m.wf = true) (hc : mwf Memory.unlisted cells = true) :
    ({ m with cells := cells } : Memory).wf = true := by
  rw [Memory.wf_iff] at h ⊢
  exact ⟨hc, h.2⟩

theorem Memory.wf_synd {synd : SMap Check} (h : m.wf = true) (hs : mwf 0#16 synd = true) :
    ({ m with synd := synd } : Memory).wf = true := by
  rw [Memory.wf_iff] at h ⊢
  exact ⟨h.1, hs, h.2.2⟩

theorem Memory.wf_owner {owner : SMap Nat} (h : m.wf = true) (ho : mwf 0 owner = true) :
    ({ m with owner := owner } : Memory).wf = true := by
  rw [Memory.wf_iff] at h ⊢
  exact ⟨h.1, h.2.1, ho⟩

theorem Memory.cells_wf (h : m.wf = true) : mwf Memory.unlisted m.cells = true := ((Memory.wf_iff m).1 h).1
theorem Memory.synd_wf (h : m.wf = true) : mwf 0#16 m.synd = true := ((Memory.wf_iff m).1 h).2.1
theorem Memory.owner_wf (h : m.wf = true) : mwf 0 m.owner = true := ((Memory.wf_iff m).1 h).2.2

theorem Memory.wf_mk {cells : List Host.Cell} {synd : SMap Check} {owner : SMap Nat}
    (hc : mwf Memory.unlisted cells = true) (hs : mwf 0#16 synd = true) (ho : mwf 0 owner = true) :
    (⟨cells, synd, owner⟩ : Memory).wf = true := (Memory.wf_iff _).2 ⟨hc, hs, ho⟩

theorem Memory.wf_setByte (a : Nat) (b : Byte) (h : m.wf = true) : (m.setByte a b).wf = true :=
  Memory.wf_cells h (mwf_mset a b (Memory.cells_wf h))

theorem Memory.wf_setBytes (bs : List Byte) : ∀ {m : Memory} (a : Nat), m.wf = true → (m.setBytes a bs).wf = true := by
  induction bs with
  | nil => exact fun _ h => h
  | cons b bs ih => exact fun a h => ih (a + 1) (Memory.wf_setByte a b h)

@[simp] theorem Memory.setBytes_synd (bs : List Byte) : ∀ (m : Memory) (a : Nat), (m.setBytes a bs).synd = m.synd := by
  induction bs with
  | nil => exact fun _ _ => rfl
  | cons b bs ih => exact fun m a => ih (m.setByte a b) (a + 1)

@[simp] theorem Memory.setBytes_owner (bs : List Byte) : ∀ (m : Memory) (a : Nat), (m.setBytes a bs).owner = m.owner := by
  induction bs with
  | nil => exact fun _ _ => rfl
  | cons b bs ih => exact fun m a => ih (m.setByte a b) (a + 1)

theorem Memory.wf_setWord (k : Nat) (v : Word) (sy : Check) (h : m.wf = true) : (m.setWord k v sy).wf = true :=
  Memory.wf_synd (Memory.wf_setBytes _ _ h) (mwf_mset k sy (Memory.synd_wf h))

theorem Memory.wf_upset (k : Nat) (flips : BitVec 80) (h : m.wf = true) : (m.upset k flips).wf = true :=
  Memory.wf_synd (Memory.wf_setBytes _ _ h) (mwf_mset k _ (Memory.synd_wf h))

/-! ### Reads after writes -/

theorem Memory.byte_setByte (m : Memory) (a i : Nat) (b : Byte) :
    (m.setByte a b).byte i = if i = a then b else m.byte i := by
  unfold Memory.byte Memory.setByte
  rw [mget_mset]

/-- A byte after a run of bytes is stored: the run's own inside it, as before outside it. -/
theorem Memory.byte_setBytes (bs : List Byte) : ∀ (m : Memory) (a i : Nat),
    (m.setBytes a bs).byte i = if a ≤ i ∧ i < a + bs.length then bs.getD (i - a) 0 else m.byte i := by
  induction bs with
  | nil => intro m a i; rw [if_neg (by simp)]; rfl
  | cons b bs ih =>
    intro m a i
    rw [show m.setBytes a (b :: bs) = (m.setByte a b).setBytes (a + 1) bs from rfl, ih, Memory.byte_setByte]
    by_cases h : i = a
    · subst h
      rw [if_neg (by omega), if_pos (by simp)]
      simp
    · by_cases h1 : a + 1 ≤ i ∧ i < a + 1 + bs.length
      · rw [if_pos h1, if_pos (by simp only [List.length_cons]; omega), show i - a = (i - (a + 1)) + 1 by omega]
        simp
      · rw [if_neg h1, if_neg h, if_neg (by simp only [List.length_cons]; omega)]

@[simp] theorem length_leBytes (n v : Nat) : (leBytes n v).length = n := by
  induction n generalizing v with
  | zero => rfl
  | succ n ih => simp [leBytes, ih]

/-- The number that a number's little-endian bytes spell. -/
theorem leNat_leBytes (n : Nat) : ∀ v : Nat, leNat (leBytes n v) = v % 256 ^ n := by
  induction n with
  | zero => intro v; simp [leBytes, leNat, Nat.mod_one]
  | succ n ih =>
    intro v
    simp only [leBytes, leNat, ih, BitVec.toNat_ofNat]
    have h := Nat.mod_mul (x := v) (a := 256) (b := 256 ^ n)
    rw [show 256 ^ (n + 1) = 256 * 256 ^ n by ring, h]

end Sys2Proof.Machine
end

