-- ==== Sys2Proof/Laws/Access.lean ====
section
/-! SUPPORT. Accesses to memory: what a read delivers, what a write stores, and what neither changes (R159 to R163, R326 to R334). -/

set_option Elab.async false

namespace Sys2Proof.Machine

/-! ### Frames -/

theorem State.access_of {s t : State} (hshadow : t.shadow = s.shadow) (hblobs : t.blobs = s.blobs) (hcat : t.cat = s.cat)
    (hplates : t.plates = s.plates) (htiles : t.tiles = s.tiles) (hunits : t.units = s.units) (hfabric : t.fabric = s.fabric)
    (hrot : t.rot = s.rot) (harbs : t.arbs = s.arbs) (hstart : t.start = s.start) (hwearS : t.wearS = s.wearS)
    (hcan : t.can = s.can) (hcur : t.cur = s.cur) (hmail : t.mail = s.mail) (hports : t.ports = s.ports)
    (htick : t.tick = s.tick) (hpending : t.pending = s.pending) (hfree : t.free = s.free) : t = s.access t := by
  cases s; cases t; simp_all [State.access, State.accounts]

theorem State.access_rfl (s : State) : s = s.access s := rfl

theorem State.access_trans {r s t : State} (h1 : s = r.access s) (h2 : t = s.access t) : t = r.access t :=
  h2.trans (congrArg (fun y : State => y.access t) h1 : s.access t = (r.access s).access t)

theorem State.access_of_accounts {s t : State} (h : t = s.accounts t) : t = s.access t := by
  cases s; cases t; simp_all [State.access, State.accounts]

theorem postUncorr_access (k d : Nat) (b : Bool) (p c : Nat) (s : State) :
    postUncorr k d b p c s = s.access (postUncorr k d b p c s) := by
  unfold postUncorr
  rw [setScope_frame]
  rfl

theorem countCorrected_access (k : Nat) (s : State) : countCorrected k s = s.access (countCorrected k s) := by
  unfold countCorrected
  split
  · exact State.access_trans (State.access_of_accounts (bumpDict_accounts _ _ _)) rfl
  · exact State.access_of_accounts (State.accounts_trans (State.accounts_trans (bumpDict_accounts _ _ _) (bump_accounts _ _ _ _))
      (setBit_accounts _ _ _))
  · rfl

theorem countPoison_access (k c : Nat) (b : Bool) (s : State) : countPoison k c b s = s.access (countPoison k c b s) := by
  unfold countPoison
  split
  · exact State.access_trans (State.access_of_accounts (bumpDict_accounts _ _ _)) (postUncorr_access _ _ _ _ _ _)
  · exact State.access_trans (State.access_of_accounts (State.accounts_trans (State.accounts_trans (bumpDict_accounts _ _ _)
      (bump_accounts _ _ _ _)) (setBit_accounts _ _ _))) (postUncorr_access _ _ _ _ _ _)
  · rfl

theorem readWord_access (c : Nat) (b : Bool) (k : Nat) (s : State) : (readWord c b k s).2 = s.access (readWord c b k s).2 := by
  unfold readWord
  dsimp only
  split
  · exact countPoison_access _ _ _ _
  · split
    · rfl
    · exact State.access_trans rfl (countCorrected_access _ _)

theorem writeWord_access (k : Nat) (v : Word) (s : State) : writeWord k v s = s.access (writeWord k v s) := by
  unfold writeWord
  split
  · split <;> rfl
  · rfl
  · rfl

theorem poisonWord_access (k : Nat) (v : Word) (s : State) : poisonWord k v s = s.access (poisonWord k v s) := by
  unfold poisonWord
  split
  · split <;> rfl
  · rfl
  · rfl

theorem wakeBank_access (a : Nat) (s : State) : wakeBank a s = s.access (wakeBank a s) := by
  unfold wakeBank
  split <;> rfl

theorem bumpLedger_accounts (c j n : Nat) (s : State) : bumpLedger c j n s = s.accounts (bumpLedger c j n s) := by
  apply State.accounts_of <;> simp

theorem noteServed_access (i c n : Nat) (s : State) : noteServed i c n s = s.access (noteServed i c n s) := by
  unfold noteServed
  split <;> rfl

theorem countBytes_access (c : Nat) (w : Bool) (a n : Nat) (s : State) : countBytes c w a n s = s.access (countBytes c w a n s) := by
  unfold countBytes
  split
  · exact State.access_trans (State.access_of_accounts (State.accounts_trans (bump_accounts _ _ _ _)
      (bumpLedger_accounts _ _ _ _))) (noteServed_access _ _ _ _)
  · exact State.access_of_accounts (bumpLedger_accounts _ _ _ _)
  · rfl

/-- A fold whose every step is an access is one. -/
theorem foldl_access {β : Type} (g : State → β → State) (h : ∀ s x, g s x = s.access (g s x)) (l : List β) (s : State) :
    l.foldl g s = s.access (l.foldl g s) := by
  induction l generalizing s with
  | nil => rfl
  | cons x l ih => exact State.access_trans (h s x) (ih _)

theorem foldl_access_snd {α β : Type} (g : α × State → β → α × State) (h : ∀ p x, (g p x).2 = p.2.access (g p x).2)
    (l : List β) (p : α × State) : (l.foldl g p).2 = p.2.access (l.foldl g p).2 := by
  induction l generalizing p with
  | nil => rfl
  | cons x l ih => exact State.access_trans (h p x) (ih _)

theorem readMem_access (c : Nat) (b : Bool) (a n : Nat) (s : State) : (readMem c b a n s).2 = s.access (readMem c b a n s).2 := by
  unfold readMem
  refine foldl_access_snd _ (fun p x => ?_) _ ([], s)
  exact State.access_trans (State.access_trans (countBytes_access _ _ _ _ _) (wakeBank_access _ _)) (readWord_access _ _ _ _)

theorem writePart_access (c k o : Nat) (bs : List Byte) (s : State) : writePart c k o bs s = s.access (writePart c k o bs s) := by
  unfold writePart
  split
  · exact writeWord_access _ _ _
  · dsimp only
    split
    · exact readWord_access _ _ _ _
    · exact State.access_trans (readWord_access _ _ _ _) (writeWord_access _ _ _)

theorem writeMem_access (c a : Nat) (bs : List Byte) (s : State) : writeMem c a bs s = s.access (writeMem c a bs s) := by
  unfold writeMem
  exact foldl_access _ (fun s x => State.access_trans (State.access_trans (countBytes_access _ _ _ _ _)
    (wakeBank_access _ _)) (writePart_access _ _ _ _ _)) _ s

theorem readBuf_access (c : Nat) (e : Entry) (d o n : Nat) (s : State) :
    (readBuf c e d o n s).2 = s.access (readBuf c e d o n s).2 := by
  unfold readBuf
  refine foldl_access_snd _ (fun p x => ?_) _ ([], s)
  exact readMem_access _ _ _ _ _

theorem writeBuf_access (c : Nat) (e : Entry) (d o : Nat) (bs : List Byte) (s : State) :
    writeBuf c e d o bs s = s.access (writeBuf c e d o bs s) := by
  unfold writeBuf
  exact foldl_access _ (fun s x => writeMem_access _ _ _ _) _ s

/-! ### What is stored (R162, R163, R329, R330) -/

theorem stkBlk_ne (i j o : Nat) (h1 : 0 < o) (h2 : o < 0x1000) : stkBlk i 0 ≠ stkBlk j o := by
  simp only [stkBlk, ctlBase]; omega

theorem fld_low_or (v : Word) (i : Nat) (h : 2 ≤ i) : fld (v ||| 1#64 <<< i) 0 2 = fld v 0 2 := by
  unfold fld
  simp only [Nat.shiftRight_zero]
  apply Nat.eq_of_testBit_eq
  intro j
  rw [Nat.testBit_mod_two_pow, Nat.testBit_mod_two_pow]
  by_cases hj : j < 2
  · have : i ≠ j := by omega
    simp only [BitVec.toNat_or, Nat.testBit_or, BitVec.testBit_toNat]
    have : (1#64 <<< i).getLsbD j = false := by
      rw [BitVec.getLsbD_shiftLeft]; simp; omega
    simp [this]
  · simp [hj]

theorem fld_setFld_low (v : Word) (n x : Nat) (h : n ≤ 64) : fld (setFld v 0 n x) 0 n = x % 2 ^ n := by
  unfold fld setFld
  apply Nat.eq_of_testBit_eq
  intro j
  rw [Nat.testBit_mod_two_pow, Nat.testBit_mod_two_pow]
  by_cases hj : j < n
  · simp only [hj, decide_true, Bool.true_and, Nat.shiftRight_zero, BitVec.shiftLeft_zero, BitVec.testBit_toNat]
    rw [BitVec.getLsbD_or, BitVec.getLsbD_and, BitVec.getLsbD_not, BitVec.getLsbD_ofNat, BitVec.getLsbD_ofNat,
      Nat.testBit_two_pow_sub_one, Nat.testBit_mod_two_pow]
    have : j < 64 := by omega
    simp [hj, this]
  · simp [hj]

/-- The states of memory and of the stacks that a read goes by. -/
structure SameStore (s t : State) : Prop where
  peek : ∀ k, peekWord t k = peekWord s k
  failed : ∀ i, stackFailed t i = stackFailed s i

theorem SameStore.rfl {s : State} : SameStore s s := ⟨fun _ => Eq.refl _, fun _ => Eq.refl _⟩

theorem SameStore.trans {r s t : State} (h : SameStore r s) (k : SameStore s t) : SameStore r t :=
  ⟨fun w => (k.peek w).trans (h.peek w), fun i => (k.failed i).trans (h.failed i)⟩

theorem deadWord_of {s t : State} (hf : ∀ i, stackFailed t i = stackFailed s i) (k : Nat) : deadWord t k = deadWord s k := by
  unfold deadWord
  simp only [hf]

theorem SameStore.of {s t : State} (hm : t.mem = s.mem) (hf : ∀ i, stackFailed t i = stackFailed s i) : SameStore s t := by
  refine ⟨fun k => ?_, hf⟩
  unfold peekWord
  rw [hm, deadWord_of hf]

theorem stackFailed_congr {s t : State} (h : t.regs = s.regs) (i : Nat) : stackFailed t i = stackFailed s i := by
  unfold stackFailed; rw [getReg_congr h]

theorem stackFailed_bump (j o n i : Nat) (s : State) (h1 : 0 < o) (h2 : o < 0x1000) :
    stackFailed (bump (stkBlk j 0) o n s) i = stackFailed s i := by
  unfold stackFailed
  rw [bump_getReg, if_neg (by have := stkBlk_ne i j o h1 h2; simpa [stkBlk] using this)]

theorem stackFailed_setBit (j b i : Nat) (s : State) (h : 2 ≤ b) :
    stackFailed (setBit (stkBlk j 0) b s) i = stackFailed s i := by
  unfold stackFailed
  rw [setBit_getReg]
  split
  · rename_i e; rw [fld_low_or _ _ h, e]
  · rfl

theorem countCorrected_failed (k i : Nat) (s : State) : stackFailed (countCorrected k s) i = stackFailed s i := by
  unfold countCorrected
  split
  · exact stackFailed_congr (by simp) i
  · rw [stackFailed_setBit _ _ _ _ (by omega), stackFailed_bump _ _ _ _ _ (by omega) (by omega)]
    exact stackFailed_congr (by simp) i
  · rfl

theorem countPoison_failed (k c : Nat) (b : Bool) (i : Nat) (s : State) :
    stackFailed (countPoison k c b s) i = stackFailed s i := by
  unfold countPoison
  split
  · exact stackFailed_congr (by simp) i
  · rw [stackFailed_congr (postUncorr_regs _ _ _ _ _ _) i, stackFailed_setBit _ _ _ _ (by omega),
      stackFailed_bump _ _ _ _ _ (by omega) (by omega)]
    exact stackFailed_congr (by simp) i
  · rfl

theorem countBytes_same (c : Nat) (w : Bool) (a n : Nat) (s : State) : SameStore s (countBytes c w a n s) := by
  unfold countBytes
  split
  · apply SameStore.of
    · unfold noteServed; split <;> simp
    · intro i
      rw [stackFailed_congr (t := noteServed _ _ _ _) (s := bumpLedger _ _ _ _) (by unfold noteServed; split <;> rfl),
        stackFailed_congr (bumpLedger_regs _ _ _ _)]
      exact stackFailed_bump _ _ _ _ _ (by split <;> omega) (by split <;> omega)
  · exact SameStore.of (by simp) (stackFailed_congr (by simp))
  · exact SameStore.rfl

theorem wakeBank_same (a : Nat) (s : State) : SameStore s (wakeBank a s) := by
  unfold wakeBank
  split
  · exact SameStore.of (Eq.refl _) (stackFailed_congr (Eq.refl _))
  · exact SameStore.rfl

theorem Memory.syn_setWord (m : Memory) (k j : Nat) (v : Word) (sy : Check) :
    (m.setWord k v sy).syn j = if j = k then sy else m.syn j := by
  unfold Memory.syn Memory.setWord
  rw [mget_mset]

theorem Memory.bytes_length (m : Memory) (a n : Nat) : (m.bytes a n).length = n := by simp [Memory.bytes]

theorem Memory.bytes_eq_leBytes : ∀ (n v : Nat), leBytes n v = (List.range n).map fun i => (leBytes n v).getD i 0 := by
  intro n v
  apply List.ext_getElem
  · simp
  · intro i h1 h2
    simp at h1
    simp [List.getD_eq_getElem?_getD, h1]

theorem Memory.rawWord_setWord (m : Memory) (k j : Nat) (v : Word) (sy : Check) :
    (m.setWord k v sy).rawWord j = if j = k then v else m.rawWord j := by
  have hb : ∀ a, (m.setWord k v sy).byte a = (m.setBytes (8 * k) (leBytes 8 v.toNat)).byte a := fun a => rfl
  unfold Memory.rawWord Memory.bytes
  split
  · rename_i h
    subst h
    have : ((List.range 8).map fun i => (m.setWord j v sy).byte (8 * j + i)) = leBytes 8 v.toNat := by
      rw [Memory.bytes_eq_leBytes 8 v.toNat]
      apply List.map_congr_left
      intro i hi
      rw [hb, Memory.byte_setBytes, if_pos (by simp at hi ⊢; omega), Nat.add_sub_cancel_left]
    rw [this, leNat_leBytes]
    apply BitVec.eq_of_toNat_eq
    simp only [BitVec.toNat_ofNat]
    have := v.isLt
    omega
  · rename_i h
    have : ((List.range 8).map fun i => (m.setWord k v sy).byte (8 * j + i)) = (List.range 8).map fun i => m.byte (8 * j + i) := by
      apply List.map_congr_left
      intro i hi
      rw [hb, Memory.byte_setBytes, if_neg (by simp at hi ⊢; omega)]
    rw [this]

theorem eccWord_zero (v : Word) : eccWord v 0 = ⟨v, false⟩ := rfl

/-- A word after a word is stored with a syndrome. -/
theorem peekWord_setWord (k j : Nat) (v : Word) (sy : Check) (s : State) :
    peekWord { s with mem := s.mem.setWord k v sy } j =
      if j = k then (if deadWord s k then ⟨v, true⟩ else eccWord v sy) else peekWord s j := by
  have hf : deadWord { s with mem := s.mem.setWord k v sy } j = deadWord s j := deadWord_of (stackFailed_congr rfl) j
  unfold peekWord
  rw [hf]
  by_cases h : j = k
  · subst h
    rw [if_pos rfl]
    simp only [Memory.rawWord_setWord, Memory.syn_setWord, if_true]
  · rw [if_neg h]
    simp only [Memory.rawWord_setWord, Memory.syn_setWord, if_neg h]

theorem deadWord_of_peek {s : State} {k : Nat} (h : ¬ (peekWord s k).poison = true) : deadWord s k = false := by
  by_contra hd
  rw [Bool.not_eq_false] at hd
  apply h
  unfold peekWord
  rw [if_pos hd]

/-- Rewriting a word with what a read of it delivers changes no read. -/
theorem rewrite_same (k : Nat) (s : State) (hp : ¬ (peekWord s k).poison = true) :
    SameStore s { s with mem := s.mem.setWord k (peekWord s k).val 0 } := by
  refine ⟨fun j => ?_, stackFailed_congr (Eq.refl _)⟩
  rw [peekWord_setWord]
  by_cases h : j = k
  · rw [if_pos h, deadWord_of_peek hp, eccWord_zero, h]
    have : (peekWord s k).poison = false := by simpa using hp
    generalize peekWord s k = q at this
    cases q
    simp_all
  · rw [if_neg h]

theorem countCorrected_mem (k : Nat) (s : State) : (countCorrected k s).mem = s.mem := by
  unfold countCorrected
  split
  · exact bumpDict_mem _ _ _
  · rw [setBit_mem, bump_mem, bumpDict_mem]
  · rfl

theorem countPoison_mem (k c : Nat) (b : Bool) (s : State) : (countPoison k c b s).mem = s.mem := by
  unfold countPoison
  split
  · rw [postUncorr_mem, bumpDict_mem]
  · rw [postUncorr_mem, setBit_mem, bump_mem, bumpDict_mem]
  · rfl

theorem countCorrected_same (k : Nat) (s : State) : SameStore s (countCorrected k s) :=
  SameStore.of (countCorrected_mem k s) fun i => countCorrected_failed k i s

theorem countPoison_same (k c : Nat) (b : Bool) (s : State) : SameStore s (countPoison k c b s) :=
  SameStore.of (countPoison_mem k c b s) fun i => countPoison_failed k c b i s

/-- A read leaves what is stored. -/
theorem readWord_same (c : Nat) (b : Bool) (k : Nat) (s : State) : SameStore s (readWord c b k s).2 := by
  unfold readWord
  dsimp only
  split
  · exact countPoison_same _ _ _ _
  · rename_i hp
    split
    · exact SameStore.rfl
    · exact (rewrite_same k s hp).trans (countCorrected_same _ _)

theorem readWord_val (c : Nat) (b : Bool) (k : Nat) (s : State) : (readWord c b k s).1 = peekWord s k := by
  unfold readWord
  dsimp only
  split
  · rfl
  · split <;> rfl

theorem foldl_same {α β : Type} (g : α × State → β → α × State) (h : ∀ p x, SameStore p.2 (g p x).2) (l : List β)
    (p : α × State) : SameStore p.2 (l.foldl g p).2 := by
  induction l generalizing p with
  | nil => exact SameStore.rfl
  | cons x l ih => exact (h p x).trans (ih _)

theorem readMem_same (c : Nat) (b : Bool) (a n : Nat) (s : State) : SameStore s (readMem c b a n s).2 := by
  unfold readMem
  refine foldl_same _ (fun p x => ?_) _ ([], s)
  exact ((countBytes_same _ _ _ _ _).trans (wakeBank_same _ _)).trans (readWord_same _ _ _ _)

theorem readBuf_same (c : Nat) (e : Entry) (d o n : Nat) (s : State) : SameStore s (readBuf c e d o n s).2 := by
  unfold readBuf
  refine foldl_same _ (fun p x => ?_) _ ([], s)
  exact readMem_same _ _ _ _ _

theorem SameStore.peekByte {s t : State} (h : SameStore s t) (a : Nat) : t.peek a = s.peek a := by
  unfold State.peek; rw [h.peek]

theorem SameStore.storable {s t : State} (h : SameStore s t) (a : Nat) : t.storable a = s.storable a := by
  unfold State.storable; simp only [h.failed]

/-! ### The bytes of a read (R162) -/

theorem flatMap_range_getElem? {α : Type} (g : Nat → List α) (w : Nat) (hw : ∀ i, (g i).length = w) :
    ∀ (n j : Nat), j < n * w → ((List.range n).flatMap g)[j]? = (g (j / w))[j % w]? := by
  intro n
  induction n with
  | zero => intro j hj; omega
  | succ n ih =>
    intro j hj
    have hl : ((List.range n).flatMap g).length = n * w := by
      rw [List.length_flatMap]
      simp [hw]
    rw [List.range_succ, List.flatMap_append]
    have hw0 : 0 < w := by
      rcases Nat.eq_zero_or_pos w with h | h
      · subst h; omega
      · exact h
    by_cases h : j < n * w
    · rw [List.getElem?_append_left (by omega), ih j h]
    · rw [List.getElem?_append_right (by omega), hl]
      have h1 : j / w = n := by
        apply Nat.div_eq_of_lt_le
        · omega
        · rw [Nat.add_mul, Nat.one_mul] at hj ⊢; exact hj
      have h2 : j % w = j - n * w := by
        have := Nat.div_add_mod j w
        rw [h1, Nat.mul_comm] at this
        omega
      rw [h1, h2]
      simp

/-- A fold that reads and gathers: each part is what a read of the state before delivers. -/
theorem foldl_gather {α : Type} (g : List α × State → Nat → List α × State) (part : Nat → List α) (s : State)
    (h1 : ∀ p i, SameStore p.2 (g p i).2)
    (h2 : ∀ p i, SameStore s p.2 → (g p i).1 = p.1 ++ part i) :
    ∀ (l : List Nat) (p : List α × State), SameStore s p.2 → (l.foldl g p).1 = p.1 ++ l.flatMap part := by
  intro l
  induction l with
  | nil => intro p _; simp
  | cons x l ih =>
    intro p hp
    rw [List.foldl_cons, ih _ (hp.trans (h1 p x)), h2 p x hp]
    simp

/-- The bytes of a word as reads deliver them. -/
def wordBytes (s : State) (k : Nat) : List (Byte × Bool) :=
  (leBytes 8 (peekWord s k).val.toNat).map fun b => (b, (peekWord s k).poison)

theorem wordBytes_getElem? (s : State) (a : Nat) : (wordBytes s (a / 8))[a % 8]? = some (s.peek a) := by
  unfold wordBytes State.peek
  have h : a % 8 < (leBytes 8 (peekWord s (a / 8)).val.toNat).length := by simp; omega
  rw [List.getElem?_map, List.getElem?_eq_getElem h, List.getD_eq_getElem?_getD, List.getElem?_eq_getElem h]
  rfl

theorem readMem_val (c : Nat) (b : Bool) (a n : Nat) (s : State) :
    (readMem c b a n s).1 = (List.range n).map fun i => s.peek (a + i) := by
  unfold readMem
  dsimp only
  rw [foldl_gather _ (fun i => wordBytes s (a / 8 + i)) s ?h1 ?h2 _ ([], s) SameStore.rfl]
  case h1 =>
    intro p i
    exact ((countBytes_same _ _ _ _ _).trans (wakeBank_same _ _)).trans (readWord_same _ _ _ _)
  case h2 =>
    intro p i hp
    dsimp only
    rw [readWord_val]
    have := ((hp.trans (countBytes_same c false (max a (8 * (a / 8 + i)))
      (min (a + n) (8 * (a / 8 + i) + 8) - max a (8 * (a / 8 + i))) p.2)).trans (wakeBank_same (8 * (a / 8 + i)) _)).peek (a / 8 + i)
    rw [this]
    rfl
  apply List.ext_getElem?
  intro j
  rw [List.nil_append]
  by_cases hj : j < n
  · rw [List.getElem?_take_of_lt hj, List.getElem?_drop, flatMap_range_getElem? _ 8 (by intro i; simp [wordBytes])]
    · have e1 : a / 8 + (a % 8 + j) / 8 = (a + j) / 8 := by omega
      have e2 : (a % 8 + j) % 8 = (a + j) % 8 := by omega
      rw [e1, e2, wordBytes_getElem?]
      simp [hj]
    · rw [if_neg (by omega)]
      omega
  · rw [List.getElem?_eq_none (by simp; omega), List.getElem?_eq_none (by simp; omega)]

theorem addrOf_line (e : Entry) (d o j : Nat) (h : (o + j) / 64 = o / 64) : addrOf e d (o + j) = addrOf e d o + j := by
  unfold addrOf flatOf
  split
  · dsimp only
    rw [h]
    have : (o + j) % 64 = o % 64 + j := by omega
    omega
  · omega

/-- The bytes of a line of a handle that lie in [o, o + n), as reads deliver them. -/
theorem readBuf_val (c : Nat) (e : Entry) (d o n : Nat) (s : State) :
    (readBuf c e d o n s).1 = (List.range n).map fun i => s.peek (addrOf e d (o + i)) := by
  unfold readBuf
  dsimp only
  have key : ∀ m, ((List.range m).flatMap fun i => (List.range (min (o + n) (64 * (o / 64 + i) + 64) - max o (64 * (o / 64 + i)))).map
      fun j => s.peek (addrOf e d (max o (64 * (o / 64 + i))) + j)) =
      (List.range (min n (64 * (o / 64 + m) - o))).map fun i => s.peek (addrOf e d (o + i)) := by
    intro m
    induction m with
    | zero => simp; omega
    | succ m ih =>
      rw [List.range_succ, List.flatMap_append, ih]
      simp only [List.flatMap_cons, List.flatMap_nil, List.append_nil]
      by_cases hn : n = 0
      · subst hn
        have : min (o + 0) (64 * (o / 64 + m) + 64) - max o (64 * (o / 64 + m)) = 0 := by omega
        rw [this]; simp
      set p := min n (64 * (o / 64 + m) - o) with hp
      set q := min (o + n) (64 * (o / 64 + m) + 64) - max o (64 * (o / 64 + m)) with hq
      have hsum : min n (64 * (o / 64 + (m + 1)) - o) = p + q := by omega
      rw [hsum, List.range_add, List.map_append, List.map_map]
      congr 1
      apply List.map_congr_left
      intro j hj
      rw [List.mem_range] at hj
      have h1 : max o (64 * (o / 64 + m)) = o + p := by omega
      rw [h1, ← addrOf_line e d (o + p) j (by omega)]
      simp [Nat.add_assoc]
  rw [foldl_gather _ (fun i => (List.range (min (o + n) (64 * (o / 64 + i) + 64) - max o (64 * (o / 64 + i)))).map
      fun j => s.peek (addrOf e d (max o (64 * (o / 64 + i))) + j)) s ?h1 ?h2 _ ([], s) SameStore.rfl]
  case h1 => intro p i; exact readMem_same _ _ _ _ _
  case h2 =>
    intro p i hp
    dsimp only
    rw [readMem_val]
    simp only [hp.peekByte]
  rw [List.nil_append, key]
  congr 2
  split <;> omega

/-! ### The bytes of a write (R163, R330, R333) -/

theorem regionOf_word (a : Nat) : regionOf (8 * (a / 8)) = regionOf a := by
  unfold regionOf
  have h1 : (8 * (a / 8) < 0x1B000000000) ↔ a < 0x1B000000000 := by omega
  have h2 : (0xF0000000000 ≤ 8 * (a / 8) ∧ 8 * (a / 8) < 0xF0040000000) ↔ (0xF0000000000 ≤ a ∧ a < 0xF0040000000) := by omega
  simp only [h1, h2]
  have h3 : stackOf (8 * (a / 8)) = stackOf a := by unfold stackOf; omega
  have h4 : (8 * (a / 8) - 0xF0000000000) / 0x10000000 = (a - 0xF0000000000) / 0x10000000 := by omega
  rw [h3, h4]

theorem storable_word (s : State) (a : Nat) : s.storable (8 * (a / 8)) = s.storable a := by
  unfold State.storable; rw [regionOf_word]

/-- A word that may not be stored in is left alone; another is stored. -/
theorem writeWord_eq (k : Nat) (v : Word) (s : State) :
    writeWord k v s = if s.storable (8 * k) then { s with mem := s.mem.setWord k v 0 } else s := by
  unfold writeWord State.storable
  cases regionOf (8 * k) with
  | none => simp
  | folio _ => simp
  | stack i => cases hf : stackFailed s i <;> simp [hf]

theorem writeWord_peek (k j : Nat) (v : Word) (s : State) :
    peekWord (writeWord k v s) j = if j = k ∧ s.storable (8 * k) then ⟨v, false⟩ else peekWord s j := by
  rw [writeWord_eq]
  by_cases h : s.storable (8 * k)
  · rw [if_pos h, peekWord_setWord]
    by_cases hj : j = k
    · have hd : deadWord s k = false := by
        unfold State.storable at h
        unfold deadWord
        revert h
        cases regionOf (8 * k) <;> simp
      rw [hd, eccWord_zero]
      simp [hj, h]
    · rw [if_neg hj, if_neg (by simp [hj])]
  · rw [if_neg h, if_neg (by simp [h])]

theorem writeWord_failed (k i : Nat) (v : Word) (s : State) : stackFailed (writeWord k v s) i = stackFailed s i := by
  rw [writeWord_eq]; split <;> rfl

theorem writeWord_storable (k a : Nat) (v : Word) (s : State) : (writeWord k v s).storable a = s.storable a := by
  unfold State.storable; simp only [writeWord_failed]

/-- The bytes of a word after part of it is written. -/
theorem getD_splice (old bs : List Byte) (off j : Nat) (h : old.length = 8) (hl : off + bs.length ≤ 8) (hj : j < 8) :
    (old.take off ++ bs ++ old.drop (off + bs.length)).getD j 0 =
      if off ≤ j ∧ j < off + bs.length then bs.getD (j - off) 0 else old.getD j 0 := by
  simp only [List.getD_eq_getElem?_getD]
  split
  · rename_i hc
    rw [List.getElem?_append_left (by simp; omega), List.getElem?_append_right (by simp; omega)]
    congr 2
    simp; omega
  · rename_i hc
    by_cases h1 : j < off
    · rw [List.getElem?_append_left (by simp; omega), List.getElem?_append_left (by simp; omega), List.getElem?_take_of_lt h1]
    · rw [List.getElem?_append_right (by simp; omega), List.getElem?_drop]
      congr 2
      simp; omega

theorem leBytes_leNat : ∀ (n : Nat) (l : List Byte), l.length = n → leBytes n (leNat l) = l := by
  intro n
  induction n with
  | zero => intro l h; simp at h; subst h; rfl
  | succ n ih =>
    intro l h
    cases l with
    | nil => simp at h
    | cons b l =>
      simp only [leNat, leBytes]
      have hb := b.isLt
      rw [show (b.toNat + 256 * leNat l) / 256 = leNat l by omega, ih l (by simpa using h)]
      congr 1
      apply BitVec.eq_of_toNat_eq
      simp only [BitVec.toNat_ofNat]
      omega

theorem leNat_lt : ∀ l : List Byte, leNat l < 256 ^ l.length := by
  intro l
  induction l with
  | nil => simp [leNat]
  | cons b l ih =>
    simp only [leNat, List.length_cons, Nat.pow_succ]
    have := b.isLt
    omega

theorem leBytes_ofNat_leNat (l : List Byte) (h : l.length = 8) : leBytes 8 (BitVec.ofNat 64 (leNat l)).toNat = l := by
  have := leNat_lt l
  rw [h] at this
  rw [BitVec.toNat_ofNat, Nat.mod_eq_of_lt (by omega), leBytes_leNat 8 l h]

/-- What part of a word written leaves at each byte: all 8 bytes store the word fresh; fewer merge, and into a poisoned
word they store nothing. -/
theorem writePart_peek (c k off : Nat) (bs : List Byte) (s : State) (h : off + bs.length ≤ 8) (h0 : 0 < bs.length) (x : Nat) :
    (writePart c k off bs s).peek x =
      if (8 * k + off ≤ x ∧ x < 8 * k + off + bs.length) ∧ s.storable x ∧ (bs.length = 8 ∨ (s.peek x).2 = false)
      then (bs.getD (x - (8 * k + off)) 0, false) else s.peek x := by
  have hsx : x / 8 = k → s.storable (8 * k) = s.storable x := by rintro rfl; exact storable_word s x
  unfold writePart
  by_cases hw : off = 0 ∧ bs.length = 8
  · rw [if_pos hw]
    obtain ⟨rfl, hl⟩ := hw
    unfold State.peek
    rw [writeWord_peek]
    by_cases hk : x / 8 = k
    · rw [← hsx hk]
      by_cases hs : s.storable (8 * k)
      · rw [if_pos ⟨hk, hs⟩, if_pos ⟨by omega, hs, .inl hl⟩]
        rw [leBytes_ofNat_leNat bs hl]
        congr 2; omega
      · rw [if_neg (by simp [hs]), if_neg (by simp [hs])]
    · rw [if_neg (by simp [hk]), if_neg (by omega)]
  · rw [if_neg hw]
    have hl : bs.length ≠ 8 := by omega
    have hsame := readWord_same c false k s
    have hval := readWord_val c false k s
    dsimp only
    rw [hval]
    generalize (readWord c false k s).2 = s1 at hsame
    by_cases hp : (peekWord s k).poison
    · rw [if_pos hp, hsame.peekByte, if_neg]
      rintro ⟨hx, _, hb | hb⟩
      · exact hl hb
      · unfold State.peek at hb
        rw [show x / 8 = k by omega] at hb
        simp [hp] at hb
    · rw [if_neg hp]
      set new := (leBytes 8 (peekWord s k).val.toNat).take off ++ bs ++ (leBytes 8 (peekWord s k).val.toNat).drop (off + bs.length) with hnew
      have hlen : new.length = 8 := by simp [hnew]; omega
      unfold State.peek
      rw [writeWord_peek, hsame.storable]
      by_cases hk : x / 8 = k
      · rw [← hsx hk]
        by_cases hs : s.storable (8 * k)
        · rw [if_pos ⟨hk, hs⟩, leBytes_ofNat_leNat new hlen, hnew, getD_splice _ _ _ _ (by simp) h (by omega)]
          subst hk
          by_cases hin : off ≤ x % 8 ∧ x % 8 < off + bs.length
          · rw [if_pos hin, if_pos ⟨by omega, hs, .inr (by simpa using hp)⟩]
            congr 2; omega
          · rw [if_neg hin, if_neg (by omega)]
            simp [hp]
        · rw [if_neg (by simp [hs]), if_neg (by simp [hs]), hsame.peek]
      · rw [if_neg (by simp [hk]), if_neg (by omega), hsame.peek]

theorem writePart_storable (c k off : Nat) (bs : List Byte) (s : State) (a : Nat) :
    (writePart c k off bs s).storable a = s.storable a := by
  unfold writePart
  split
  · exact writeWord_storable _ _ _ _
  · dsimp only
    split
    · exact (readWord_same _ _ _ _).storable a
    · rw [writeWord_storable]; exact (readWord_same _ _ _ _).storable a

/-- A write at [a, a + n) with the words wholly inside it stored fresh: at each byte, what is stored, or what was there. -/
def written (s : State) (a : Nat) (bs : List Byte) (x : Nat) : Byte × Bool :=
  if (a ≤ x ∧ x < a + bs.length) ∧ s.storable x ∧ ((a ≤ 8 * (x / 8) ∧ 8 * (x / 8) + 8 ≤ a + bs.length) ∨ (s.peek x).2 = false)
  then (bs.getD (x - a) 0, false) else s.peek x

theorem writeMem_peek_storable (c a : Nat) (bs : List Byte) (s : State) (x : Nat) :
    (writeMem c a bs s).peek x = written s a bs x ∧ ∀ y, (writeMem c a bs s).storable y = s.storable y := by
  unfold writeMem
  dsimp only
  set n := bs.length with hn
  set g : State → Nat → State := fun s i => writePart c (a / 8 + i) (max a (8 * (a / 8 + i)) - 8 * (a / 8 + i))
      ((bs.drop (max a (8 * (a / 8 + i)) - a)).take (min (a + n) (8 * (a / 8 + i) + 8) - max a (8 * (a / 8 + i))))
      (wakeBank (8 * (a / 8 + i)) (countBytes c true (max a (8 * (a / 8 + i)))
        (min (a + n) (8 * (a / 8 + i) + 8) - max a (8 * (a / 8 + i))) s)) with hg
  have key : ∀ m, m ≤ (if n = 0 then 0 else (a + n - 1) / 8 - a / 8 + 1) →
      (∀ x, ((List.range m).foldl g s).peek x = if x < 8 * (a / 8 + m) then written s a bs x else s.peek x) ∧
      ∀ y, ((List.range m).foldl g s).storable y = s.storable y := by
    intro m
    induction m with
    | zero =>
      intro _
      refine ⟨fun x => ?_, fun y => rfl⟩
      simp only [List.range_zero, List.foldl_nil]
      split
      · unfold written; rw [if_neg (by omega)]
      · rfl
    | succ m ih =>
      intro hm
      have hn0 : n ≠ 0 := by intro h; simp [h] at hm
      rw [if_neg hn0] at hm
      obtain ⟨ihp, ihs⟩ := ih (by rw [if_neg hn0]; omega)
      rw [List.range_succ, List.foldl_append]
      simp only [List.foldl_cons, List.foldl_nil]
      generalize (List.range m).foldl g s = t at ihp ihs ⊢
      have hsame := ((countBytes_same c true (max a (8 * (a / 8 + m)))
        (min (a + n) (8 * (a / 8 + m) + 8) - max a (8 * (a / 8 + m))) t).trans (wakeBank_same (8 * (a / 8 + m)) _))
      refine ⟨fun x => ?_, fun y => ?_⟩
      · rw [hg]
        dsimp only
        have hlen : ((bs.drop (max a (8 * (a / 8 + m)) - a)).take (min (a + n) (8 * (a / 8 + m) + 8) - max a (8 * (a / 8 + m)))).length
            = min (a + n) (8 * (a / 8 + m) + 8) - max a (8 * (a / 8 + m)) := by
          simp [← hn]; omega
        rw [writePart_peek _ _ _ _ _ (by rw [hlen]; omega) (by rw [hlen]; omega), hlen, hsame.peekByte, hsame.storable, ihs, ihp]
        by_cases hx : x / 8 = a / 8 + m
        · have hx1 : ¬ x < 8 * (a / 8 + m) := by omega
          have hx2 : x < 8 * (a / 8 + (m + 1)) := by omega
          rw [if_neg hx1, if_pos hx2]
          unfold written
          rw [← hn]
          by_cases hin : a ≤ x ∧ x < a + n
          · have hin' : 8 * (a / 8 + m) + (max a (8 * (a / 8 + m)) - 8 * (a / 8 + m)) ≤ x ∧
                x < 8 * (a / 8 + m) + (max a (8 * (a / 8 + m)) - 8 * (a / 8 + m)) +
                  (min (a + n) (8 * (a / 8 + m) + 8) - max a (8 * (a / 8 + m))) := by omega
            have hfull : min (a + n) (8 * (a / 8 + m) + 8) - max a (8 * (a / 8 + m)) = 8 ↔
                a ≤ 8 * (x / 8) ∧ 8 * (x / 8) + 8 ≤ a + n := by omega
            simp only [hin, hin', hfull, true_and]
            split
            · simp only [Prod.mk.injEq, and_true]
              rw [List.getD_eq_getElem?_getD, List.getD_eq_getElem?_getD, List.getElem?_take_of_lt (by omega), List.getElem?_drop]
              congr 2
              omega
            · rfl
          · rw [if_neg, if_neg]
            · rintro ⟨h, _⟩; exact hin h
            · rintro ⟨h, _⟩; apply hin; omega
        · rw [if_neg]
          · by_cases hlt : x < 8 * (a / 8 + m)
            · have hx2 : x < 8 * (a / 8 + (m + 1)) := by omega
              rw [if_pos hlt, if_pos hx2]
            · have hx2 : ¬ x < 8 * (a / 8 + (m + 1)) := by omega
              rw [if_neg hlt, if_neg hx2]
          · rintro ⟨h, _⟩; omega
      · rw [hg]
        dsimp only
        rw [writePart_storable, hsame.storable, ihs]
  obtain ⟨h1, h2⟩ := key _ le_rfl
  refine ⟨?_, h2⟩
  rw [h1]
  by_cases hn0 : n = 0
  · rw [if_pos hn0]
    have : written s a bs x = s.peek x := by
      unfold written
      rw [if_neg]
      rintro ⟨h, _⟩; omega
    rw [this, ite_self]
  · rw [if_neg hn0]
    split
    · rfl
    · unfold written
      rw [if_neg]
      rintro ⟨h, _⟩; omega

theorem addrOf_inj {e : Entry} (he : e.placed) (d : Nat) {o p : Nat} (h : addrOf e d o = addrOf e d p) : o = p := by
  unfold addrOf at h
  split at h
  · rename_i hk
    have hb := he hk
    unfold flatOf at h
    dsimp only at h
    have hn : 0 < 2 ^ e.nbc := by positivity
    generalize 2 ^ e.nbc = n at h hb hn
    have h1 := Nat.mod_lt (o / 64) hn
    have h2 := Nat.mod_lt (p / 64) hn
    have h3 := Nat.div_add_mod (o / 64) n
    have h4 := Nat.div_add_mod (p / 64) n
    have hq : o / 64 / n = p / 64 / n := by omega
    rw [hq] at h3
    omega
  · omega

theorem writeBuf_peek_storable (c : Nat) {e : Entry} (he : e.placed) (d off : Nat) (bs : List Byte) (s : State) :
    (∀ x, (∀ i, i < bs.length → addrOf e d (off + i) ≠ x) → (writeBuf c e d off bs s).peek x = s.peek x) ∧
    (∀ i, i < bs.length → s.storable (addrOf e d (off + i)) = true → (s.peek (addrOf e d (off + i))).2 = false →
      (writeBuf c e d off bs s).peek (addrOf e d (off + i)) = (bs.getD i 0, false)) ∧
    (∀ y, (writeBuf c e d off bs s).storable y = s.storable y) := by
  unfold writeBuf
  dsimp only
  set n := bs.length with hn
  set g : State → Nat → State := fun s i => writeMem c (addrOf e d (max off (64 * (off / 64 + i))))
      ((bs.drop (max off (64 * (off / 64 + i)) - off)).take (min (off + n) (64 * (off / 64 + i) + 64) - max off (64 * (off / 64 + i)))) s with hg
  have key : ∀ m, m ≤ (if n = 0 then 0 else (off + n - 1) / 64 - off / 64 + 1) →
      (∀ x, (∀ i, i < n → off + i < 64 * (off / 64 + m) → addrOf e d (off + i) ≠ x) → ((List.range m).foldl g s).peek x = s.peek x) ∧
      (∀ i, i < n → off + i < 64 * (off / 64 + m) → s.storable (addrOf e d (off + i)) = true →
        (s.peek (addrOf e d (off + i))).2 = false →
        ((List.range m).foldl g s).peek (addrOf e d (off + i)) = (bs.getD i 0, false)) ∧
      (∀ y, ((List.range m).foldl g s).storable y = s.storable y) := by
    intro m
    induction m with
    | zero =>
      intro _
      exact ⟨fun x _ => rfl, fun i _ h => by omega, fun y => rfl⟩
    | succ m ih =>
      intro hm
      have hn0 : n ≠ 0 := by intro h; simp [h] at hm
      rw [if_neg hn0] at hm
      obtain ⟨ih1, ih2, ih3⟩ := ih (by rw [if_neg hn0]; omega)
      rw [List.range_succ, List.foldl_append]
      simp only [List.foldl_cons, List.foldl_nil]
      generalize (List.range m).foldl g s = t at ih1 ih2 ih3 ⊢
      rw [hg]
      dsimp only
      set lo := max off (64 * (off / 64 + m)) with hlo
      set L := min (off + n) (64 * (off / 64 + m) + 64) - lo with hL
      have hlen : ((bs.drop (lo - off)).take L).length = L := by simp [← hn]; omega
      have hplace : ∀ j, j < L → addrOf e d (lo + j) = addrOf e d lo + j := fun j hj => addrOf_line e d lo j (by omega)
      have hw := fun x => (writeMem_peek_storable c (addrOf e d lo) ((bs.drop (lo - off)).take L) t x).1
      refine ⟨fun x hx => ?_, fun i hi hc hst hp => ?_, fun y => ?_⟩
      · rw [hw]
        unfold written
        rw [hlen, if_neg]
        · exact ih1 x fun i hi hc => hx i hi (by omega)
        · rintro ⟨⟨h1, h2⟩, _⟩
          refine hx (lo + (x - addrOf e d lo) - off) (by omega) (by omega) ?_
          rw [show off + (lo + (x - addrOf e d lo) - off) = lo + (x - addrOf e d lo) by omega, hplace _ (by omega)]
          omega
      · rw [hw]
        unfold written
        rw [hlen]
        by_cases hold : off + i < 64 * (off / 64 + m)
        · rw [if_neg]
          · exact ih2 i hi hold hst hp
          · rintro ⟨⟨h1, h2⟩, _⟩
            have := addrOf_inj he d ((hplace (addrOf e d (off + i) - addrOf e d lo) (by omega)).trans
              (show addrOf e d lo + (addrOf e d (off + i) - addrOf e d lo) = addrOf e d (off + i) by omega))
            omega
        · obtain ⟨j, hj⟩ : ∃ j, off + i = lo + j := ⟨off + i - lo, by omega⟩
          have hjL : j < L := by omega
          have ht : t.peek (addrOf e d (off + i)) = s.peek (addrOf e d (off + i)) :=
            ih1 _ fun k hk hck heq => by have := addrOf_inj he d heq; omega
          rw [if_pos]
          · rw [hj, hplace j hjL, Nat.add_sub_cancel_left, List.getD_eq_getElem?_getD, List.getD_eq_getElem?_getD,
              List.getElem?_take_of_lt hjL, List.getElem?_drop]
            congr 3
            omega
          · refine ⟨⟨?_, ?_⟩, ?_, .inr ?_⟩
            · rw [hj, hplace j hjL]; omega
            · rw [hj, hplace j hjL]; omega
            · rw [ih3]; exact hst
            · rw [ht]; exact hp
      · rw [(writeMem_peek_storable c (addrOf e d lo) ((bs.drop (lo - off)).take L) t y).2 y, ih3]
  obtain ⟨h1, h2, h3⟩ := key _ le_rfl
  refine ⟨fun x hx => h1 x fun i hi _ => hx i hi, fun i hi => h2 i hi ?_, h3⟩
  rw [if_neg (by omega)]
  omega

/-! ### Accesses to buffers and their ring slots (R177) -/

theorem foldl_setSlot (name : Nat) (p : Nat → Bool) (v : Bool) : ∀ (l : List Nat) (s : State),
    let t := l.foldl (fun s i => if p i then setSlot name i v s else s) s
    (∀ i ∈ l.filter p, slotFull t name i = v) ∧
    (∀ k, (∀ i ∈ l.filter p, k ≠ slotKey name i) → mget false t.cat.full k = mget false s.cat.full k) ∧
    t = { s with cat := { s.cat with full := t.cat.full } } := by
  intro l
  induction l using List.reverseRecOn with
  | nil => intro s; exact ⟨fun i h => by simp at h, fun k _ => rfl, rfl⟩
  | append_singleton l x ih =>
    intro s
    obtain ⟨h1, h2, h3⟩ := ih s
    simp only [List.foldl_append, List.foldl_cons, List.foldl_nil, List.filter_append]
    generalize l.foldl (fun s i => if p i then setSlot name i v s else s) s = t at h1 h2 h3 ⊢
    by_cases hx : p x
    · rw [if_pos hx]
      have hf : ∀ k, mget false (setSlot name x v t).cat.full k = if k = slotKey name x then v else mget false t.cat.full k := by
        intro k; exact mget_mset _ _ _ _ _
      refine ⟨fun i hi => ?_, fun k hk => ?_, ?_⟩
      · unfold slotFull
        rw [hf]
        split
        · rfl
        · rename_i hne
          rcases List.mem_append.1 hi with hi | hi
          · exact h1 i hi
          · simp [hx] at hi; subst hi; exact absurd rfl hne
      · rw [hf, if_neg (hk x (List.mem_append_right _ (by simp [hx])))]
        exact h2 k fun i hi => hk i (List.mem_append_left _ hi)
      · rw [h3]; rfl
    · rw [if_neg hx]
      have : List.filter p [x] = [] := by simp [hx]
      rw [this, List.append_nil]
      exact ⟨h1, h2, h3⟩

theorem peek_congr {s t : State} (hm : t.mem = s.mem) (hr : t.regs = s.regs) (x : Nat) : t.peek x = s.peek x :=
  (SameStore.of hm (stackFailed_congr hr)).peekByte x

/-- What a write to a buffer does. -/
theorem putBuf_wrote (c name : Nat) {e : Entry} (he : e.placed) (off : Nat) (bs : List Byte) (s : State) :
    WroteBuf s (putBuf c name e off bs s) name e off bs := by
  unfold putBuf afterWrite
  obtain ⟨w1, w2, w3⟩ := writeBuf_peek_storable c he (name / 4096) off bs s
  have ha := writeBuf_access c e (name / 4096) off bs s
  generalize writeBuf c e (name / 4096) off bs s = t at w1 w2 w3 ha ⊢
  obtain ⟨f1, f2, f3⟩ := foldl_setSlot name (coversLast e off bs.length) true (slotsOf e off bs.length) t
  generalize (slotsOf e off bs.length).foldl (fun s i => if coversLast e off bs.length i then setSlot name i true s else s) t = n
    at f1 f2 f3 ⊢
  have hp : ∀ x, n.peek x = t.peek x := fun x => peek_congr (by rw [f3]) (by rw [f3]) x
  refine ⟨⟨fun x hx => ?_, fun i hi hs hp' => ?_⟩, ⟨f1, fun k hk => ?_⟩, ?_⟩
  · rw [hp]; exact w1 x hx
  · rw [hp]; exact w2 i hi hs hp'
  · rw [f2 k hk, ha]; rfl
  · rw [f3, ha]; rfl

/-- What a read of a buffer that is served does. -/
theorem serveRead_read (e : Entry) (r : Access) (s : State) : ReadBuf s (serveRead e r s) e r := by
  unfold serveRead
  have hv := readBuf_val (clientOn s r.die.val) e (r.name / 4096) r.off r.len s
  have ha := readBuf_access (clientOn s r.die.val) e (r.name / 4096) r.off r.len s
  have hs := readBuf_same (clientOn s r.die.val) e (r.name / 4096) r.off r.len s
  dsimp only
  rw [hv]
  generalize (readBuf (clientOn s r.die.val) e (r.name / 4096) r.off r.len s).2 = t at ha hs ⊢
  set t2 : State := { t with ports := mset [] t.ports (accPort r) ((List.range r.len).map fun i => s.peek (addrOf e (r.name / 4096) (r.off + i))) } with ht2
  have hp2 : ∀ x, t2.peek x = s.peek x := fun x => (peek_congr (s := t) rfl rfl x).trans (hs.peekByte x)
  have hports : ∀ n : State, n.ports = t2.ports → mget [] n.ports (accPort r) = s.bytesOf e (r.name / 4096) r.off r.len ∧
      ∀ p, p ≠ accPort r → mget [] n.ports p = mget [] s.ports p := by
    intro n hn
    rw [hn]
    refine ⟨mget_mset_same _ _ _ _, fun p hp => ?_⟩
    show mget [] (mset [] t.ports _ _) p = _
    rw [mget_mset, if_neg hp, ha]
    rfl
  by_cases hc : r.consuming
  · rw [if_pos hc]
    unfold afterConsume
    obtain ⟨f1, f2, f3⟩ := foldl_setSlot r.name (coversLast e r.off r.len) false (slotsOf e r.off r.len) t2
    generalize (slotsOf e r.off r.len).foldl (fun s i => if coversLast e r.off r.len i then setSlot r.name i false s else s) t2 = n
      at f1 f2 f3 ⊢
    obtain ⟨q1, q2⟩ := hports n (by rw [f3])
    refine ⟨q1, q2, fun x => ?_, ?_, ?_⟩
    · rw [peek_congr (s := t2) (by rw [f3]) (by rw [f3])]; exact hp2 x
    · rw [if_pos hc]
      refine ⟨f1, fun k hk => ?_⟩
      rw [f2 k hk]
      show mget false t.cat.full k = _
      rw [ha]; rfl
    · rw [f3, ht2, ha]; rfl
  · rw [if_neg hc]
    obtain ⟨q1, q2⟩ := hports t2 rfl
    refine ⟨q1, q2, hp2, ?_, ?_⟩
    · rw [if_neg hc]; show t.cat.full = _; rw [ha]; rfl
    · rw [ht2, ha]; rfl

end Sys2Proof.Machine
end

