-- ==== Sys2Proof/Laws/Units.lean ====
section
/-! SUPPORT. A unit's state after a unit's state is stored: its own, and every other unit's as before. -/

set_option Elab.async false

namespace Sys2Proof.Machine

variable {s : State}

@[simp] theorem getArr_setArr (t u : TileId) (x : ArrayS) : getArr (setArr t x s) u = if u = t then x else getArr s u := by
  unfold getArr setArr; rw [getTile_setTile]; split <;> rfl

@[simp] theorem getVec_setVec (t u : TileId) (x : VecS) : getVec (setVec t x s) u = if u = t then x else getVec s u := by
  unfold getVec setVec; rw [getTile_setTile]; split <;> rfl

@[simp] theorem getStr_setStr (t u : TileId) (x : StreamS) : getStr (setStr t x s) u = if u = t then x else getStr s u := by
  unfold getStr setStr; rw [getTile_setTile]; split <;> rfl

@[simp] theorem getVec_setArr (t u : TileId) (x : ArrayS) : getVec (setArr t x s) u = getVec s u := by
  unfold getVec setArr; rw [getTile_setTile]; split
  · rename_i h; subst h; rfl
  · rfl

@[simp] theorem getStr_setArr (t u : TileId) (x : ArrayS) : getStr (setArr t x s) u = getStr s u := by
  unfold getStr setArr; rw [getTile_setTile]; split
  · rename_i h; subst h; rfl
  · rfl

@[simp] theorem getArr_setStr (t u : TileId) (x : StreamS) : getArr (setStr t x s) u = getArr s u := by
  unfold getArr setStr; rw [getTile_setTile]; split
  · rename_i h; subst h; rfl
  · rfl

@[simp] theorem getVec_setStr (t u : TileId) (x : StreamS) : getVec (setStr t x s) u = getVec s u := by
  unfold getVec setStr; rw [getTile_setTile]; split
  · rename_i h; subst h; rfl
  · rfl

@[simp] theorem getDma_setDma (k j : Nat) (x : DmaQ) : getDma (setDma k x s) j = if j = k then x else getDma s j := by
  unfold getDma setDma; exact mget_mset _ _ _ _ _

@[simp] theorem getPort_setPort (p q : Nat) (x : Port) : getPort (setPort p x s) q = if q = p then x else getPort s q := by
  unfold getPort setPort; exact mget_mset _ _ _ _ _

@[simp] theorem getStrm_setStrm (x : StreamS) (n m : Nat) (v : Strm) :
    getStrm (setStrm x n v) m = if m = n then v else getStrm x m := by
  unfold getStrm setStrm; exact mget_mset _ _ _ _ _

theorem getHatch_setHatch (d u : Nat) (j : Option HJob) (k v : Nat) :
    getHatch (setHatch d u j s) k v = if unitKey k v = unitKey d u then j else getHatch s k v := by
  unfold getHatch setHatch; exact mget_mset _ _ _ _ _

theorem mget_mupd {α : Type} [DecidableEq α] (d : α) (m : SMap α) (k j : Nat) (f : α → α) :
    mget d (mupd d m k f) j = if j = k then f (mget d m k) else mget d m j := mget_mset _ _ _ _ _

theorem mget_mdrop {α : Type} (d : α) (m : SMap α) (p : Nat → Bool) (k : Nat) :
    mget d (mdrop m p) k = if p k then d else mget d m k := by
  induction m with
  | nil => simp [mdrop]
  | cons e m ih =>
    have hc : mdrop (e :: m) p = if p e.1 then mdrop m p else e :: mdrop m p := by
      by_cases h : p e.1 <;> simp [mdrop, h]
    rw [hc, mget_cons]
    by_cases h : p e.1
    · rw [if_pos h, ih]
      by_cases hk : k = e.1
      · subst hk; simp [h]
      · simp [hk]
    · rw [if_neg h, mget_cons, ih]
      by_cases hk : k = e.1
      · subst hk; simp [h]
      · simp [hk]

/-- A port after an answer is put there. -/
theorem putPort_get (s : State) (p : Nat) (bs : List (Byte × Bool)) :
    mget [] ({ s with ports := mset [] s.ports p bs } : State).ports p = bs := mget_mset_same _ _ _ _

theorem putPort_get_ne (s : State) {p q : Nat} (bs : List (Byte × Bool)) (h : q ≠ p) :
    mget [] ({ s with ports := mset [] s.ports p bs } : State).ports q = mget [] s.ports q := mget_mset_ne _ _ _ _ h

end Sys2Proof.Machine
end

