-- ==== Sys2Proof/Laws/Banks.lean ====
section
/-! SUPPORT. Folio banks: what clearing, copying and replacing one leaves of memory (R191 to R194), and the record of a swap (R431). -/

set_option Elab.async false

namespace Sys2Proof.Machine

theorem peek_eq_of {s t : State} (x : Nat) (h : peekWord t (x / 8) = peekWord s (x / 8)) : t.peek x = s.peek x := by
  unfold State.peek; rw [h]

/-- The words of a bank that is cleared read 0, and every other word as before. -/
theorem clearBank_peek (k : Nat) (s : State) (x : Nat) :
    (clearBank k s).peek x = if regionOf x = .folio (k / 512) ∧ bankOf x = k then (0, false) else s.peek x := by
  have hb : ∀ i, i < 8 → bankOf (8 * (x / 8) + i) = bankOf x := by intro i hi; unfold bankOf; omega
  have hr : ∀ i, i < 8 → regionOf (8 * (x / 8) + i) = regionOf x := by
    intro i hi
    rw [← regionOf_word x, ← regionOf_word (8 * (x / 8) + i)]
    congr 2; omega
  have hby : ∀ i, i < 8 → (clearBank k s).mem.byte (8 * (x / 8) + i) =
      if regionOf x = .folio (k / 512) ∧ bankOf x = k then 0 else s.mem.byte (8 * (x / 8) + i) := by
    intro i hi
    unfold Memory.byte clearBank
    dsimp only
    rw [mget_mdrop]
    simp only [hb i hi, hr i hi, Bool.and_eq_true, decide_eq_true_eq]
    rfl
  have hsy : (clearBank k s).mem.syn (x / 8) =
      if regionOf x = .folio (k / 512) ∧ bankOf x = k then 0 else s.mem.syn (x / 8) := by
    unfold Memory.syn clearBank
    dsimp only
    rw [mget_mdrop]
    have h1 := hb 0 (by omega)
    have h2 := hr 0 (by omega)
    simp only [Nat.add_zero] at h1 h2
    simp only [h1, h2, Bool.and_eq_true, decide_eq_true_eq]
  have hraw : (clearBank k s).mem.rawWord (x / 8) =
      if regionOf x = .folio (k / 512) ∧ bankOf x = k then 0 else s.mem.rawWord (x / 8) := by
    unfold Memory.rawWord Memory.bytes
    rw [show ((List.range 8).map fun i => (clearBank k s).mem.byte (8 * (x / 8) + i)) =
      (List.range 8).map fun i => if regionOf x = .folio (k / 512) ∧ bankOf x = k then 0 else s.mem.byte (8 * (x / 8) + i) from
      List.map_congr_left fun i hi => hby i (List.mem_range.1 hi)]
    split
    · rfl
    · rfl
  have hd : deadWord (clearBank k s) (x / 8) = deadWord s (x / 8) := deadWord_of (stackFailed_congr rfl) _
  unfold State.peek peekWord
  rw [hd, hsy, hraw]
  by_cases hc : regionOf x = .folio (k / 512) ∧ bankOf x = k
  · simp only [if_pos hc]
    have : deadWord s (x / 8) = false := by
      unfold deadWord
      rw [regionOf_word, hc.1]
    rw [this, eccWord_zero]
    have h8 : x % 8 < 8 := by omega
    interval_cases x % 8 <;> rfl
  · simp only [if_neg hc]

theorem recopy_same (k : Nat) (s : State) (hf : ¬ deadWord s k = true) :
    SameStore s (if (peekWord s k).poison then { s with mem := s.mem.setWord k (s.mem.rawWord k) poisonSynd }
      else countCorrected k { s with mem := s.mem.setWord k (peekWord s k).val 0 }) := by
  split
  · rename_i hp
    refine ⟨fun j => ?_, stackFailed_congr (Eq.refl _)⟩
    rw [peekWord_setWord]
    by_cases h : j = k
    · rw [if_pos h, if_neg hf, h]
      unfold peekWord at hp ⊢
      rw [if_neg hf] at hp ⊢
      generalize s.mem.rawWord k = v at *
      have : eccWord v poisonSynd = ⟨v, true⟩ := by unfold eccWord; rw [show eccDecode poisonSynd = .bad by decide +kernel]
      rw [this]
      unfold eccWord at hp ⊢
      revert hp
      cases eccDecode (s.mem.syn k) <;> simp
    · rw [if_neg h]
  · rename_i hp
    exact (rewrite_same k s hp).trans (countCorrected_same _ _)

theorem State.accounts_wear {s y : State} (h : y = s.accounts y) : y = { s.accounts y with wear := y.wear } := by
  have hw := State.eq_wear h
  cases s; cases y
  simp_all [State.accounts]

theorem countCorrected_frame (k : Nat) (s : State) :
    countCorrected k s = { s.accounts (countCorrected k s) with wear := (countCorrected k s).wear } := by
  unfold countCorrected
  split
  · have hb := bumpDict_accounts (dkey 0x3100 0x07) 1 s
    generalize bumpDict (dkey 0x3100 0x07) 1 s = y at hb ⊢
    rw [hb]; rfl
  · exact State.accounts_wear (State.accounts_trans (State.accounts_trans (bumpDict_accounts _ _ _) (bump_accounts _ _ _ _))
      (setBit_accounts _ _ _))
  · rfl

theorem recopyBank_same (k : Nat) (s : State) : SameStore s (recopyBank k s) ∧
    recopyBank k s =
    { s.accounts (recopyBank k s) with mem := (recopyBank k s).mem, wear := (recopyBank k s).wear } := by
  unfold recopyBank
  dsimp only
  have : ∀ (l : List Nat) (s : State), (∀ w ∈ l, regionOf (8 * w) = .folio (k / 512)) →
      let t := l.foldl (fun s w => if (peekWord s w).poison then { s with mem := s.mem.setWord w (s.mem.rawWord w) poisonSynd }
        else countCorrected w { s with mem := s.mem.setWord w (peekWord s w).val 0 }) s
      SameStore s t ∧ t = { s.accounts t with mem := t.mem, wear := t.wear } := by
    intro l
    induction l using List.reverseRecOn with
    | nil => intro s _; exact ⟨SameStore.rfl, rfl⟩
    | append_singleton l w ih =>
      intro s hl
      obtain ⟨h1, h2⟩ := ih s fun x hx => hl x (List.mem_append_left _ hx)
      have hw := hl w (by simp)
      simp only [List.foldl_append, List.foldl_cons, List.foldl_nil]
      generalize l.foldl _ s = t at h1 h2 ⊢
      refine ⟨h1.trans (recopy_same w t ?_), ?_⟩
      · unfold deadWord; rw [hw]; simp
      · split
        · rw [h2]; rfl
        · rw [countCorrected_frame, h2]; rfl
  exact this _ s (by intro w hw; simp at hw; exact hw.2.1)

/-- A swap performed changes the wear record, accounts and the free counter alone. -/
theorem doneSwap_frame (kind die unit frm dst : Nat) (s : State) :
    doneSwap kind die unit frm dst s = { s.accounts (doneSwap kind die unit frm dst s) with
      wearS := (doneSwap kind die unit frm dst s).wearS, free := (doneSwap kind die unit frm dst s).free } := by
  unfold doneSwap
  have ht : (takeSwap kind die unit frm s).2 = { s with wearS := (takeSwap kind die unit frm s).2.wearS, free := (takeSwap kind die unit frm s).2.free } := by
    unfold takeSwap
    split <;> rfl
  dsimp only
  generalize (takeSwap kind die unit frm s).1 = c
  generalize (takeSwap kind die unit frm s).2 = t at ht ⊢
  unfold recordSwap
  dsimp only
  have hb := bumpDict_accounts (dkey 32768 15) 1 t
  generalize bumpDict (dkey 32768 15) 1 t = y at hb ⊢
  split
  · rw [hb, ht]; rfl
  · rw [hb, ht]; rfl

theorem doneSwap_regs (kind die unit frm dst : Nat) (s : State) : (doneSwap kind die unit frm dst s).regs = s.regs := by
  unfold doneSwap
  dsimp only
  have ht : (takeSwap kind die unit frm s).2.regs = s.regs := by unfold takeSwap; split <;> rfl
  unfold recordSwap
  dsimp only
  split
  · rw [bumpDict_regs, ht]
  · unfold setErrata
    rw [post_regs, setDict_regs, setDict_regs, ← ht]
    exact bumpDict_regs _ _ _

theorem bankPower_setBankPower (k : Nat) (p : BankPower) (s : State) : bankPower (setBankPower k p s) k = p := by
  unfold bankPower setBankPower; exact mget_mset_same _ _ _ _

theorem bankPower_clearBank (k j : Nat) (s : State) : bankPower (clearBank k s) j = bankPower s j := rfl

end Sys2Proof.Machine
end

