-- ==== Sys2Proof/Laws/Issue.lean ====
section
/-! SUPPORT. Plate commands that issue: the state an issue leaves, and what the command's own effect is then applied to. -/

set_option Elab.async false

namespace Sys2Proof.Machine

variable {s : State} {e : Eng} {c : PCmd}

theorem takeTokens_nextId (s : State) (e : Eng) (c : PCmd) : (takeTokens e c s).plates.nextId = s.plates.nextId :=
  foldl_field (·.plates.nextId) c.ins _ s (fun _ _ => rfl)

theorem takeTokens_flights (s : State) (e : Eng) (c : PCmd) : (takeTokens e c s).plates.flights = s.plates.flights :=
  foldl_field (·.plates.flights) c.ins _ s (fun _ _ => rfl)

theorem tileOut_congr {s t : State} (h : t.dict = s.dict) (u : TileId) : tileOut t u = tileOut s u := by
  unfold tileOut inProof stageOf
  rw [getDict_congr h, getDict_congr h]

theorem engOut_congr {s t : State} (h : t.dict = s.dict) (e : Eng) : engOut t e = engOut s e := by
  unfold engOut
  split <;> simp [tileOut_congr h]

theorem locate_off (s : State) (e : Eng) (c : PCmd) (h : (locate s e c).1 = []) :
    earlierReady s e [] (locate s e c).1 = false := by
  rw [h]
  rfl

@[simp] theorem issued_mem : (s.issued e c).mem = s.mem := by simp [State.issued]
@[simp] theorem issued_regs : (s.issued e c).regs = s.regs := by simp [State.issued]
@[simp] theorem issued_shadow : (s.issued e c).shadow = s.shadow := by simp [State.issued]
@[simp] theorem issued_dict : (s.issued e c).dict = s.dict := by simp [State.issued]
@[simp] theorem issued_blobs : (s.issued e c).blobs = s.blobs := by simp [State.issued]
@[simp] theorem issued_sat : (s.issued e c).sat = s.sat := by simp [State.issued]
@[simp] theorem issued_cat : (s.issued e c).cat = s.cat := by simp [State.issued]
@[simp] theorem issued_banks : (s.issued e c).banks = s.banks := by simp [State.issued]
@[simp] theorem issued_tiles : (s.issued e c).tiles = s.tiles := by simp [State.issued]
@[simp] theorem issued_units : (s.issued e c).units = s.units := by simp [State.issued]
@[simp] theorem issued_clients : (s.issued e c).clients = s.clients := by simp [State.issued]
@[simp] theorem issued_fabric : (s.issued e c).fabric = s.fabric := by simp [State.issued]
@[simp] theorem issued_rot : (s.issued e c).rot = s.rot := by simp [State.issued]
@[simp] theorem issued_arbs : (s.issued e c).arbs = s.arbs := by simp [State.issued]
@[simp] theorem issued_host : (s.issued e c).host = s.host := by simp [State.issued]
@[simp] theorem issued_logs : (s.issued e c).logs = s.logs := by simp [State.issued]
@[simp] theorem issued_start : (s.issued e c).start = s.start := by simp [State.issued]
@[simp] theorem issued_wearS : (s.issued e c).wearS = s.wearS := by simp [State.issued]
@[simp] theorem issued_can : (s.issued e c).can = s.can := by simp [State.issued]
@[simp] theorem issued_cur : (s.issued e c).cur = s.cur := by simp [State.issued]
@[simp] theorem issued_mail : (s.issued e c).mail = s.mail := by simp [State.issued]
@[simp] theorem issued_wear : (s.issued e c).wear = s.wear := by simp [State.issued]
@[simp] theorem issued_ledger : (s.issued e c).ledger = s.ledger := by simp [State.issued]
@[simp] theorem issued_served : (s.issued e c).served = s.served := by simp [State.issued]
@[simp] theorem issued_ports : (s.issued e c).ports = s.ports := by simp [State.issued]
@[simp] theorem issued_tick : (s.issued e c).tick = s.tick := by simp [State.issued]
@[simp] theorem issued_pending : (s.issued e c).pending = s.pending := by simp [State.issued]
@[simp] theorem issued_free : (s.issued e c).free = s.free := by simp [State.issued]

/-- A command that issues leaves the state of its issue to its own effect, and charges one busy cycle (R236). -/
theorem withIssue_issues (h : s.Issues e c) (k : State → WinCmd → Nat → State) :
    withIssue none e c s k = charge e 0x00 (k (s.issued e c) (s.issuedCmd e c) s.plates.nextId) := by
  obtain ⟨h1, h2, h3, h4, h5, h6, h7, h8, h9, h10, -⟩ := h
  unfold withIssue
  rw [if_neg h1]
  have hi : issue none e c s = .go (s.issued e c) (s.issuedCmd e c) s.plates.nextId := by
    unfold issue
    simp only [State.issued, State.issuedCmd, State.flight, State.issuedEng]
    generalize hl : locate s e c = l at *
    obtain ⟨es, w, rest, inWin⟩ := l
    simp only at h5 h6 h7 h8 h9
    subst h5
    simp [h2, h3, h4, h6, h7, h8, h9, earlierReady, takeTokens_nextId, setEng]
  rw [hi]
  have ho : engOut (s.issued e c) e = false := by
    rw [engOut_congr (s := s) issued_dict e]; exact h10
  simp [State.issuedCmd, h6, ho]

theorem issued_findFlight (h : s.Issues e c) : findFlight (s.issued e c) s.plates.nextId = some (s.flight e c) := by
  have hn := h.number
  unfold findFlight at hn ⊢
  simp only [State.issued]
  rw [takeTokens_flights, List.find?_append]
  rw [show (setEng e (s.issuedEng e c) s).plates.flights = s.plates.flights from rfl, hn]
  simp [State.flight]

theorem issued_nextId : (s.issued e c).plates.nextId = s.plates.nextId + 1 := by
  simp only [State.issued, takeTokens_nextId]
  rfl

theorem issued_frame (s : State) (e : Eng) (c : PCmd) : s.issued e c = { s with plates := (s.issued e c).plates } := by
  apply State.ext_fields <;> simp

theorem findFlight_congr {s t : State} (h : t.plates = s.plates) (id : Nat) : findFlight t id = findFlight s id := by
  unfold findFlight; rw [h]

/-! ### Completion -/

theorem postOuts_posts (e : Eng) (cl : Nat) (c : PCmd) (s : State) :
    (postOuts e cl c s).plates = { s.plates with posts := s.plates.posts ++ c.outs.map fun o =>
      ({ die := Fin.ofNat 4 (engDie e), file := trefFile o, reg := trefReg o, count := trefCnt o, eng := e, client := cl } : Post) } := by
  unfold postOuts
  generalize c.outs = l
  induction l generalizing s with
  | nil => simp
  | cons o l ih => rw [List.foldl_cons, ih]; simp [postTok, List.append_assoc]

theorem complete_completed (id : Nat) (s : State) : Completed s (complete id s) id := by
  have hfilter : ∀ l : List Flight, ((l.filter fun g => decide (g.id ≠ id)).find? fun f => decide (f.id = id)) = none := by
    intro l; simp [List.find?_eq_none]
  have hother : ∀ k, k ≠ id → ∀ l : List Flight,
      ((l.filter fun g => decide (g.id ≠ id)).find? fun f => decide (f.id = k)) = l.find? fun f => decide (f.id = k) := by
    intro k hk l
    induction l with
    | nil => rfl
    | cons a l ih =>
      by_cases ha : a.id = id
      · have : ¬ a.id = k := fun h => hk (h.symm.trans ha)
        simp [ha] at ih ⊢
        rw [ih]
        simp [List.find?_cons, this]
      · by_cases h : a.id = k <;> simp_all [List.find?_cons]
  unfold complete
  cases hf : findFlight s id with
  | none =>
    refine ⟨hf, fun _ _ => rfl, ?_, rfl⟩
    intro f h
    rw [hf] at h
    cases h
  | some f =>
    dsimp only
    by_cases ha : aborted s f.client = true
    · rw [if_pos ha]
      refine ⟨hfilter _, fun k hk => hother k hk _, ?_, rfl⟩
      intro g h
      rw [hf] at h
      cases h
      simp [ha]
    · rw [if_neg ha]
      refine ⟨?_, fun k hk => ?_, ?_, ?_⟩
      · unfold findFlight; rw [postOuts_posts]; exact hfilter _
      · unfold findFlight; rw [postOuts_posts]; exact hother k hk _
      · intro g h
        rw [hf] at h; cases h; rw [postOuts_posts]; simp [ha, Flight.posts]
      · rw [postOuts_posts]

theorem complete_frame (id : Nat) (s : State) : complete id s = { s with plates := (complete id s).plates } := by
  unfold complete
  split
  · rfl
  · dsimp only
    split
    · rfl
    · rename_i f _ _
      unfold postOuts
      generalize f.win.cmd.outs = l
      generalize hs : ({ s with plates := { s.plates with flights := s.plates.flights.filter fun g => decide (g.id ≠ id) } } : State) = s1
      have h1 : s1 = { s with plates := s1.plates } := by subst hs; rfl
      clear hs
      induction l generalizing s1 with
      | nil => exact h1
      | cons o l ih =>
        refine ih _ ?_
        rw [h1]; rfl

end Sys2Proof.Machine
end

