-- ==== Sys2Proof/Laws/Parts.lean ====
section
/-! SUPPORT. How the parts of the state that effects change add up (Safety.lean, Only). -/

set_option Elab.async false

namespace Sys2Proof.Machine

variable {r s t n : State} {ks js : List Part}

theorem Only.rfl' (s : State) : Only ks s s := by constructor <;> exact fun _ => rfl

theorem Only.trans (h : Only ks r s) (k : Only ks s t) : Only ks r t where
  mem x := (k.mem x).trans (h.mem x)
  regs x := (k.regs x).trans (h.regs x)
  shadow x := (k.shadow x).trans (h.shadow x)
  dict x := (k.dict x).trans (h.dict x)
  blobs x := (k.blobs x).trans (h.blobs x)
  sat x := (k.sat x).trans (h.sat x)
  cat x := (k.cat x).trans (h.cat x)
  banks x := (k.banks x).trans (h.banks x)
  plates x := (k.plates x).trans (h.plates x)
  tiles x := (k.tiles x).trans (h.tiles x)
  units x := (k.units x).trans (h.units x)
  clients x := (k.clients x).trans (h.clients x)
  fabric x := (k.fabric x).trans (h.fabric x)
  rot x := (k.rot x).trans (h.rot x)
  arbs x := (k.arbs x).trans (h.arbs x)
  host x := (k.host x).trans (h.host x)
  logs x := (k.logs x).trans (h.logs x)
  start x := (k.start x).trans (h.start x)
  wearS x := (k.wearS x).trans (h.wearS x)
  can x := (k.can x).trans (h.can x)
  cur x := (k.cur x).trans (h.cur x)
  mail x := (k.mail x).trans (h.mail x)
  wear x := (k.wear x).trans (h.wear x)
  ledger x := (k.ledger x).trans (h.ledger x)
  served x := (k.served x).trans (h.served x)
  ports x := (k.ports x).trans (h.ports x)
  tick x := (k.tick x).trans (h.tick x)
  pending x := (k.pending x).trans (h.pending x)
  free x := (k.free x).trans (h.free x)

theorem Only.mono (h : Only js r s) (hk : js ⊆ ks) : Only ks r s where
  mem x := h.mem fun y => x (hk y)
  regs x := h.regs fun y => x (hk y)
  shadow x := h.shadow fun y => x (hk y)
  dict x := h.dict fun y => x (hk y)
  blobs x := h.blobs fun y => x (hk y)
  sat x := h.sat fun y => x (hk y)
  cat x := h.cat fun y => x (hk y)
  banks x := h.banks fun y => x (hk y)
  plates x := h.plates fun y => x (hk y)
  tiles x := h.tiles fun y => x (hk y)
  units x := h.units fun y => x (hk y)
  clients x := h.clients fun y => x (hk y)
  fabric x := h.fabric fun y => x (hk y)
  rot x := h.rot fun y => x (hk y)
  arbs x := h.arbs fun y => x (hk y)
  host x := h.host fun y => x (hk y)
  logs x := h.logs fun y => x (hk y)
  start x := h.start fun y => x (hk y)
  wearS x := h.wearS fun y => x (hk y)
  can x := h.can fun y => x (hk y)
  cur x := h.cur fun y => x (hk y)
  mail x := h.mail fun y => x (hk y)
  wear x := h.wear fun y => x (hk y)
  ledger x := h.ledger fun y => x (hk y)
  served x := h.served fun y => x (hk y)
  ports x := h.ports fun y => x (hk y)
  tick x := h.tick fun y => x (hk y)
  pending x := h.pending fun y => x (hk y)
  free x := h.free fun y => x (hk y)

/-- An operation that changes some parts, after others. -/
theorem Only.step (h : Only ks r s) (k : Only js s t) (hk : js ⊆ ks) : Only ks r t := h.trans (k.mono hk)

end Sys2Proof.Machine
end

