-- ==== Sys2Proof/Laws/Only.lean ====
section
/-! SUPPORT. Frames by parts of the state: what each shared operation changes, and how the parts of a sequence of operations add up. -/

set_option Elab.async false

namespace Sys2Proof.Machine

variable {r s t n : State} {ks js : List Part}

theorem Only.foldl {β : Type} {g : State → β → State} (hg : ∀ s x, Only ks s (g s x)) (l : List β) (s : State) :
    Only ks s (l.foldl g s) := by
  induction l generalizing s with
  | nil => exact Only.rfl' s
  | cons x l ih => exact (hg s x).trans (ih _)

theorem Only.foldl_snd {α β : Type} {g : α × State → β → α × State} (hg : ∀ p x, Only ks p.2 (g p x).2) (l : List β)
    (p : α × State) : Only ks p.2 (l.foldl g p).2 := by
  induction l generalizing p with
  | nil => exact Only.rfl' _
  | cons x l ih => exact (hg p x).trans (ih _)

theorem Only.ite {c : Prop} [Decidable c] {x y : State} (h1 : Only ks r x) (h2 : Only ks r y) :
    Only ks r (if c then x else y) := by split <;> assumption

theorem only_mem (v : Memory) (s : State) : Only [.mem] s { s with mem := v } := by
  constructor <;> first | exact fun _ => rfl | exact fun h => absurd (by decide) h
theorem only_regs (v : SMap Word) (s : State) : Only [.regs] s { s with regs := v } := by
  constructor <;> first | exact fun _ => rfl | exact fun h => absurd (by decide) h
theorem only_shadow (v : SMap Word) (s : State) : Only [.shadow] s { s with shadow := v } := by
  constructor <;> first | exact fun _ => rfl | exact fun h => absurd (by decide) h
theorem only_dict (v : SMap Word) (s : State) : Only [.dict] s { s with dict := v } := by
  constructor <;> first | exact fun _ => rfl | exact fun h => absurd (by decide) h
theorem only_blobs (v : DictSt) (s : State) : Only [.blobs] s { s with blobs := v } := by
  constructor <;> first | exact fun _ => rfl | exact fun h => absurd (by decide) h
theorem only_sat (v : SMap Bool) (s : State) : Only [.sat] s { s with sat := v } := by
  constructor <;> first | exact fun _ => rfl | exact fun h => absurd (by decide) h
theorem only_cat (v : Catalog) (s : State) : Only [.cat] s { s with cat := v } := by
  constructor <;> first | exact fun _ => rfl | exact fun h => absurd (by decide) h
theorem only_banks (v : Banks) (s : State) : Only [.banks] s { s with banks := v } := by
  constructor <;> first | exact fun _ => rfl | exact fun h => absurd (by decide) h
theorem only_plates (v : Plates) (s : State) : Only [.plates] s { s with plates := v } := by
  constructor <;> first | exact fun _ => rfl | exact fun h => absurd (by decide) h
theorem only_tiles (v : SMap Tile) (s : State) : Only [.tiles] s { s with tiles := v } := by
  constructor <;> first | exact fun _ => rfl | exact fun h => absurd (by decide) h
theorem only_units (v : Units) (s : State) : Only [.units] s { s with units := v } := by
  constructor <;> first | exact fun _ => rfl | exact fun h => absurd (by decide) h
theorem only_clients (v : SMap Client) (s : State) : Only [.clients] s { s with clients := v } := by
  constructor <;> first | exact fun _ => rfl | exact fun h => absurd (by decide) h
theorem only_fabric (v : Fabric) (s : State) : Only [.fabric] s { s with fabric := v } := by
  constructor <;> first | exact fun _ => rfl | exact fun h => absurd (by decide) h
theorem only_rot (v : Rotation) (s : State) : Only [.rot] s { s with rot := v } := by
  constructor <;> first | exact fun _ => rfl | exact fun h => absurd (by decide) h
theorem only_arbs (v : SMap Arb) (s : State) : Only [.arbs] s { s with arbs := v } := by
  constructor <;> first | exact fun _ => rfl | exact fun h => absurd (by decide) h
theorem only_host (v : HostSt) (s : State) : Only [.host] s { s with host := v } := by
  constructor <;> first | exact fun _ => rfl | exact fun h => absurd (by decide) h
theorem only_logs (v : Logs) (s : State) : Only [.logs] s { s with logs := v } := by
  constructor <;> first | exact fun _ => rfl | exact fun h => absurd (by decide) h
theorem only_start (v : StartSt) (s : State) : Only [.start] s { s with start := v } := by
  constructor <;> first | exact fun _ => rfl | exact fun h => absurd (by decide) h
theorem only_wearS (v : WearSt) (s : State) : Only [.wearS] s { s with wearS := v } := by
  constructor <;> first | exact fun _ => rfl | exact fun h => absurd (by decide) h
theorem only_can (v : CanSt) (s : State) : Only [.can] s { s with can := v } := by
  constructor <;> first | exact fun _ => rfl | exact fun h => absurd (by decide) h
theorem only_cur (v : CurSt) (s : State) : Only [.cur] s { s with cur := v } := by
  constructor <;> first | exact fun _ => rfl | exact fun h => absurd (by decide) h
theorem only_mail (v : MailSt) (s : State) : Only [.mail] s { s with mail := v } := by
  constructor <;> first | exact fun _ => rfl | exact fun h => absurd (by decide) h
theorem only_wear (v : SMap Nat) (s : State) : Only [.wear] s { s with wear := v } := by
  constructor <;> first | exact fun _ => rfl | exact fun h => absurd (by decide) h
theorem only_ledger (v : SMap Nat) (s : State) : Only [.ledger] s { s with ledger := v } := by
  constructor <;> first | exact fun _ => rfl | exact fun h => absurd (by decide) h
theorem only_served (v : SMap Nat) (s : State) : Only [.served] s { s with served := v } := by
  constructor <;> first | exact fun _ => rfl | exact fun h => absurd (by decide) h
theorem only_ports (v : SMap (List (Byte × Bool))) (s : State) : Only [.ports] s { s with ports := v } := by
  constructor <;> first | exact fun _ => rfl | exact fun h => absurd (by decide) h
theorem only_tick (v : Nat) (s : State) : Only [.tick] s { s with tick := v } := by
  constructor <;> first | exact fun _ => rfl | exact fun h => absurd (by decide) h
theorem only_pending (v : List Instr) (s : State) : Only [.pending] s { s with pending := v } := by
  constructor <;> first | exact fun _ => rfl | exact fun h => absurd (by decide) h
theorem only_free (v : Nat) (s : State) : Only [.free] s { s with free := v } := by
  constructor <;> first | exact fun _ => rfl | exact fun h => absurd (by decide) h
theorem setReg_only (a : Nat) (v : Word) (s : State) : Only [.regs] s (setReg a v s) := by
  constructor <;> first | exact fun _ => rfl | exact fun h => absurd (by decide) h
theorem orReg_only (a : Nat) (v : Word) (s : State) : Only [.regs] s (orReg a v s) := by
  constructor <;> first | exact fun _ => rfl | exact fun h => absurd (by decide) h
theorem setBit_only (a i : Nat) (s : State) : Only [.regs] s (setBit a i s) := by
  constructor <;> first | exact fun _ => rfl | exact fun h => absurd (by decide) h
theorem setDict_only (k : Nat) (v : Word) (s : State) : Only [.dict] s (setDict k v s) := by
  constructor <;> first | exact fun _ => rfl | exact fun h => absurd (by decide) h
theorem postEvent_only (e : Event) (s : State) : Only [.host, .logs] s (postEvent e s) := by
  constructor <;> first | exact fun _ => by simp | exact fun h => absurd (by decide) h
theorem post_only (c k d : Nat) (s : State) : Only [.host, .logs] s (post c k d s) := by
  constructor <;> first | exact fun _ => by simp | exact fun h => absurd (by decide) h
theorem stick_only (b : Nat) (s : State) : Only [.sat, .host, .logs] s (stick b s) := by
  constructor <;> first | exact fun _ => by simp | exact fun h => absurd (by decide) h
theorem stickDict_only (i j : Nat) (s : State) : Only [.sat, .host, .logs] s (stickDict i j s) := by
  constructor <;> first | exact fun _ => by simp | exact fun h => absurd (by decide) h
theorem bump_only (b i n : Nat) (s : State) : Only [.regs, .sat, .host, .logs] s (bump b i n s) := by
  constructor <;> first | exact fun _ => by simp | exact fun h => absurd (by decide) h
theorem bumpDictW_only (w k n : Nat) (s : State) : Only [.dict, .sat, .host, .logs] s (bumpDictW w k n s) := by
  constructor <;> first | exact fun _ => by simp | exact fun h => absurd (by decide) h
theorem bumpDict_only (k n : Nat) (s : State) : Only [.dict, .sat, .host, .logs] s (bumpDict k n s) := by
  constructor <;> first | exact fun _ => by simp | exact fun h => absurd (by decide) h
theorem bumpLedger_only (c j n : Nat) (s : State) : Only [.ledger, .sat, .host, .logs] s (bumpLedger c j n s) := by
  constructor <;> first | exact fun _ => by simp | exact fun h => absurd (by decide) h
theorem charge_only (e : Eng) (c : Nat) (s : State) : Only [.regs, .dict, .sat, .ledger, .host, .logs] s (charge e c s) := by
  constructor <;> first | exact fun _ => by simp | exact fun h => absurd (by decide) h
theorem setTile_only (t : TileId) (x : Tile) (s : State) : Only [.tiles] s (setTile t x s) := by
  constructor <;> first | exact fun _ => rfl | exact fun h => absurd (by decide) h
theorem setArr_only (t : TileId) (x : ArrayS) (s : State) : Only [.tiles] s (setArr t x s) := by
  constructor <;> first | exact fun _ => rfl | exact fun h => absurd (by decide) h
theorem setVec_only (t : TileId) (x : VecS) (s : State) : Only [.tiles] s (setVec t x s) := by
  constructor <;> first | exact fun _ => rfl | exact fun h => absurd (by decide) h
theorem setStr_only (t : TileId) (x : StreamS) (s : State) : Only [.tiles] s (setStr t x s) := by
  constructor <;> first | exact fun _ => rfl | exact fun h => absurd (by decide) h
theorem setClient_only (c : Nat) (x : Client) (s : State) : Only [.clients] s (setClient c x s) := by
  constructor <;> first | exact fun _ => rfl | exact fun h => absurd (by decide) h
theorem setScope_only (c : Nat) (b : BitVec 32) (s : State) : Only [.clients] s (setScope c b s) := by
  unfold setScope
  split
  · exact setClient_only _ _ _
  · exact Only.rfl' s
theorem postUncorr_only (k d : Nat) (b : Bool) (p c : Nat) (s : State) : Only [.host, .logs, .clients] s (postUncorr k d b p c s) := by
  unfold postUncorr
  exact ((post_only _ _ _ _).mono (by decide)).trans ((setScope_only _ _ _).mono (by decide))
theorem raiseFault_only (c k d : Nat) (s : State) : Only [.host, .logs, .clients] s (raiseFault c k d s) := by
  unfold raiseFault
  dsimp only
  have h0 : Only [.host, .logs, .clients] s (post k c d s) := (post_only _ _ _ _).mono (by decide)
  split
  · split
    · split
      · exact h0
      · exact h0.trans ((setClient_only _ _ _).mono (by decide))
    · exact h0
  · exact h0
theorem setEng_only (e : Eng) (x : EngSt) (s : State) : Only [.plates] s (setEng e x s) := by
  constructor <;> first | exact fun _ => rfl | exact fun h => absurd (by decide) h
theorem complete_only (id : Nat) (s : State) : Only [.plates] s (complete id s) := by
  rw [complete_frame]
  exact only_plates _ _
theorem setPort_only (p : Nat) (x : Port) (s : State) : Only [.fabric] s (setPort p x s) := by
  constructor <;> first | exact fun _ => rfl | exact fun h => absurd (by decide) h
theorem setDma_only (k : Nat) (x : DmaQ) (s : State) : Only [.units] s (setDma k x s) := by
  constructor <;> first | exact fun _ => rfl | exact fun h => absurd (by decide) h
theorem setHatch_only (d u : Nat) (j : Option HJob) (s : State) : Only [.units] s (setHatch d u j s) := by
  constructor <;> first | exact fun _ => rfl | exact fun h => absurd (by decide) h
theorem setEnt_only (k : Nat) (e : Entry) (s : State) : Only [.cat] s (setEnt k e s) := by
  constructor <;> first | exact fun _ => rfl | exact fun h => absurd (by decide) h
theorem setSlot_only (k i : Nat) (f : Bool) (s : State) : Only [.cat] s (setSlot k i f s) := by
  constructor <;> first | exact fun _ => rfl | exact fun h => absurd (by decide) h

theorem fresh_only (s : State) : Only [.free] s (fresh s).2 := only_free _ _

/-- What changes only a state's accounts. -/
theorem only_of_accounts (h : t = s.accounts t) : Only accountParts s t where
  mem _ := State.eq_mem h
  regs x := absurd (by decide) x
  shadow _ := State.eq_shadow h
  dict x := absurd (by decide) x
  blobs _ := State.eq_blobs h
  sat x := absurd (by decide) x
  cat _ := State.eq_cat h
  banks _ := State.eq_banks h
  plates _ := State.eq_plates h
  tiles _ := State.eq_tiles h
  units _ := State.eq_units h
  clients _ := State.eq_clients h
  fabric _ := State.eq_fabric h
  rot _ := State.eq_rot h
  arbs _ := State.eq_arbs h
  host x := absurd (by decide) x
  logs x := absurd (by decide) x
  start _ := State.eq_start h
  wearS _ := State.eq_wearS h
  can _ := State.eq_can h
  cur _ := State.eq_cur h
  mail _ := State.eq_mail h
  wear _ := State.eq_wear h
  ledger x := absurd (by decide) x
  served _ := State.eq_served h
  ports _ := State.eq_ports h
  tick _ := State.eq_tick h
  pending _ := State.eq_pending h
  free _ := State.eq_free h

theorem only_of_access (h : t = s.access t) : Only accessParts s t where
  mem x := absurd (by decide) x
  regs x := absurd (by decide) x
  shadow _ := (congrArg State.shadow h).trans rfl
  dict x := absurd (by decide) x
  blobs _ := (congrArg State.blobs h).trans rfl
  sat x := absurd (by decide) x
  cat _ := (congrArg State.cat h).trans rfl
  banks x := absurd (by decide) x
  plates _ := (congrArg State.plates h).trans rfl
  tiles _ := (congrArg State.tiles h).trans rfl
  units _ := (congrArg State.units h).trans rfl
  clients x := absurd (by decide) x
  fabric _ := (congrArg State.fabric h).trans rfl
  rot _ := (congrArg State.rot h).trans rfl
  arbs _ := (congrArg State.arbs h).trans rfl
  host x := absurd (by decide) x
  logs x := absurd (by decide) x
  start _ := (congrArg State.start h).trans rfl
  wearS _ := (congrArg State.wearS h).trans rfl
  can _ := (congrArg State.can h).trans rfl
  cur _ := (congrArg State.cur h).trans rfl
  mail _ := (congrArg State.mail h).trans rfl
  wear x := absurd (by decide) x
  ledger x := absurd (by decide) x
  served x := absurd (by decide) x
  ports _ := (congrArg State.ports h).trans rfl
  tick _ := (congrArg State.tick h).trans rfl
  pending _ := (congrArg State.pending h).trans rfl
  free _ := (congrArg State.free h).trans rfl

theorem doneSwap_only (kind die unit frm dst : Nat) (s : State) :
    Only [.dict, .sat, .ledger, .host, .logs, .wearS, .free] s (doneSwap kind die unit frm dst s) := by
  have h := doneSwap_frame kind die unit frm dst s
  have hr := doneSwap_regs kind die unit frm dst s
  generalize doneSwap kind die unit frm dst s = t at h hr
  exact {
    mem := fun _ => (congrArg State.mem h).trans rfl
    regs := fun _ => hr
    shadow := fun _ => (congrArg State.shadow h).trans rfl
    dict := fun x => absurd (by decide) x
    blobs := fun _ => (congrArg State.blobs h).trans rfl
    sat := fun x => absurd (by decide) x
    cat := fun _ => (congrArg State.cat h).trans rfl
    banks := fun _ => (congrArg State.banks h).trans rfl
    plates := fun _ => (congrArg State.plates h).trans rfl
    tiles := fun _ => (congrArg State.tiles h).trans rfl
    units := fun _ => (congrArg State.units h).trans rfl
    clients := fun _ => (congrArg State.clients h).trans rfl
    fabric := fun _ => (congrArg State.fabric h).trans rfl
    rot := fun _ => (congrArg State.rot h).trans rfl
    arbs := fun _ => (congrArg State.arbs h).trans rfl
    host := fun x => absurd (by decide) x
    logs := fun x => absurd (by decide) x
    start := fun _ => (congrArg State.start h).trans rfl
    wearS := fun x => absurd (by decide) x
    can := fun _ => (congrArg State.can h).trans rfl
    cur := fun _ => (congrArg State.cur h).trans rfl
    mail := fun _ => (congrArg State.mail h).trans rfl
    wear := fun _ => (congrArg State.wear h).trans rfl
    ledger := fun x => absurd (by decide) x
    served := fun _ => (congrArg State.served h).trans rfl
    ports := fun _ => (congrArg State.ports h).trans rfl
    tick := fun _ => (congrArg State.tick h).trans rfl
    pending := fun _ => (congrArg State.pending h).trans rfl
    free := fun x => absurd (by decide) x
  }

/-! ### What accesses leave of the clients -/

/-- Of the clients, only scope words have changed. -/
def ScopesOnly (s t : State) : Prop := ∀ c, getClient t c = { getClient s c with scope := (getClient t c).scope }

theorem ScopesOnly.rfl' (s : State) : ScopesOnly s s := fun _ => rfl

theorem ScopesOnly.trans {r s t : State} (h : ScopesOnly r s) (k : ScopesOnly s t) : ScopesOnly r t := by
  intro c
  rw [k c, h c]

theorem ScopesOnly.of_eq {s t : State} (h : t.clients = s.clients) : ScopesOnly s t := by
  intro c; rw [getClient_congr h]

theorem setScope_scopes (c : Nat) (b : BitVec 32) (s : State) : ScopesOnly s (setScope c b s) := by
  intro k
  unfold setScope
  split
  · rw [getClient_setClient]
    split
    · rename_i h; rw [h]
    · rfl
  · rfl

theorem countPoison_scopes (k c : Nat) (b : Bool) (s : State) : ScopesOnly s (countPoison k c b s) := by
  unfold countPoison postUncorr
  split
  · refine ScopesOnly.trans (ScopesOnly.of_eq ?_) (setScope_scopes _ _ _)
    rw [post_clients, bumpDict_clients]
  · refine ScopesOnly.trans (ScopesOnly.of_eq ?_) (setScope_scopes _ _ _)
    rw [post_clients, setBit_clients, bump_clients, bumpDict_clients]
  · exact ScopesOnly.rfl' s

theorem countCorrected_clients (k : Nat) (s : State) : (countCorrected k s).clients = s.clients := by
  unfold countCorrected
  split
  · show (bumpDict _ 1 s).clients = _
    rw [bumpDict_clients]
  · rw [setBit_clients, bump_clients, bumpDict_clients]
  · rfl

theorem readWord_scopes (c : Nat) (b : Bool) (k : Nat) (s : State) : ScopesOnly s (readWord c b k s).2 := by
  unfold readWord
  dsimp only
  split
  · exact countPoison_scopes _ _ _ _
  · split
    · exact ScopesOnly.rfl' s
    · exact ScopesOnly.of_eq (countCorrected_clients _ _)

theorem countBytes_clients (c : Nat) (w : Bool) (a n : Nat) (s : State) : (countBytes c w a n s).clients = s.clients := by
  unfold countBytes
  split
  · unfold noteServed; split <;> simp
  · simp
  · rfl

theorem wakeBank_clients (a : Nat) (s : State) : (wakeBank a s).clients = s.clients := by
  unfold wakeBank; split <;> rfl

theorem writeWord_clients (k : Nat) (v : Word) (s : State) : (writeWord k v s).clients = s.clients := by
  rw [writeWord_eq]; split <;> rfl

theorem writePart_scopes (c k o : Nat) (bs : List Byte) (s : State) : ScopesOnly s (writePart c k o bs s) := by
  unfold writePart
  split
  · exact ScopesOnly.of_eq (writeWord_clients _ _ _)
  · dsimp only
    split
    · exact readWord_scopes _ _ _ _
    · exact (readWord_scopes _ _ _ _).trans (ScopesOnly.of_eq (writeWord_clients _ _ _))

theorem foldl_scopes {β : Type} (g : State → β → State) (h : ∀ s x, ScopesOnly s (g s x)) (l : List β) (s : State) :
    ScopesOnly s (l.foldl g s) := by
  induction l generalizing s with
  | nil => exact ScopesOnly.rfl' s
  | cons x l ih => exact (h s x).trans (ih _)

theorem foldl_scopes_snd {α β : Type} (g : α × State → β → α × State) (h : ∀ p x, ScopesOnly p.2 (g p x).2) (l : List β)
    (p : α × State) : ScopesOnly p.2 (l.foldl g p).2 := by
  induction l generalizing p with
  | nil => exact ScopesOnly.rfl' _
  | cons x l ih => exact (h p x).trans (ih _)

theorem writeMem_scopes (c a : Nat) (bs : List Byte) (s : State) : ScopesOnly s (writeMem c a bs s) := by
  unfold writeMem
  refine foldl_scopes _ (fun s x => ?_) _ s
  exact (ScopesOnly.of_eq ((wakeBank_clients _ _).trans (countBytes_clients _ _ _ _ _))).trans (writePart_scopes _ _ _ _ _)

theorem readMem_scopes (c : Nat) (b : Bool) (a n : Nat) (s : State) : ScopesOnly s (readMem c b a n s).2 := by
  unfold readMem
  refine foldl_scopes_snd _ (fun p x => ?_) _ ([], s)
  exact (ScopesOnly.of_eq ((wakeBank_clients _ _).trans (countBytes_clients _ _ _ _ _))).trans (readWord_scopes _ _ _ _)

theorem writeBuf_scopes (c : Nat) (e : Entry) (d o : Nat) (bs : List Byte) (s : State) : ScopesOnly s (writeBuf c e d o bs s) := by
  unfold writeBuf
  refine foldl_scopes _ (fun s x => ?_) _ s
  exact writeMem_scopes _ _ _ _

theorem readBuf_scopes (c : Nat) (e : Entry) (d o n : Nat) (s : State) : ScopesOnly s (readBuf c e d o n s).2 := by
  unfold readBuf
  refine foldl_scopes_snd _ (fun p x => ?_) _ ([], s)
  exact readMem_scopes _ _ _ _ _

end Sys2Proof.Machine
end

