-- ==== Sys2Proof/Laws/Tokens.lean ====
section
/-! SUPPORT. Token registers: what taking and posting counts does to each (R223 to R226). -/

set_option Elab.async false

namespace Sys2Proof.Machine

theorem locate_cmd (s : State) (e : Eng) (c : PCmd) : (locate s e c).2.1.cmd = c := by
  unfold locate
  dsimp only
  split
  · rename_i i hi
    rw [List.findIdx?_eq_some_iff_getElem] at hi
    obtain ⟨hlt, hp, -⟩ := hi
    simp [nth, hlt]
    simpa using hp
  · rfl

theorem tokKey_inj {d f r d' f' r' : Nat} (hf : f < 17) (hr : r < 256) (hf' : f' < 17) (hr' : r' < 256)
    (h : tokKey d f r = tokKey d' f' r') : d = d' ∧ f = f' ∧ r = r' := by
  unfold tokKey at h; omega

theorem tokens_setTok (d f r d' f' r' n : Nat) (hf : f < 17) (hr : r < 256) (hf' : f' < 17) (hr' : r' < 256) (s : State) :
    tokens (setTok d f r n s) d' f' r' = if d' = d ∧ f' = f ∧ r' = r then n % 2 ^ 16 else tokens s d' f' r' := by
  unfold tokens setTok
  by_cases h : d' = d ∧ f' = f ∧ r' = r
  · obtain ⟨rfl, rfl, rfl⟩ := h
    simp
  · rw [if_neg h]
    have : tokKey d' f' r' ≠ tokKey d f r := fun hk => h (tokKey_inj hf' hr' hf hr hk)
    dsimp only
    rw [mget_mset_ne _ _ _ _ this]

theorem tokens_lt (s : State) (d f r : Nat) : tokens s d f r < 2 ^ 16 := BitVec.isLt _

theorem ownFile_lt (e : Eng) : ownFile e < 17 := by
  unfold ownFile; split <;> omega

theorem take_fold (e : Eng) (d f r : Nat) (hf : f < 17) (hr : r < 256) : ∀ (l : List Nat) (s : State),
    tokens (l.foldl (fun s r => setTok (engDie e) (ownFile e) (trefReg r) (tokens s (engDie e) (ownFile e) (trefReg r) - trefCnt r) s) s) d f r =
      tokens s d f r - (if d = engDie e ∧ f = ownFile e then (l.filter fun x => decide (trefReg x = r)).foldl (fun n r => n + trefCnt r) 0 else 0) := by
  have hsum : ∀ (l : List Nat) (a : Nat), l.foldl (fun n r => n + trefCnt r) a = a + l.foldl (fun n r => n + trefCnt r) 0 := by
    intro l
    induction l with
    | nil => simp
    | cons x l ih => intro a; rw [List.foldl_cons, List.foldl_cons, ih, ih (0 + trefCnt x)]; omega
  intro l
  induction l with
  | nil => intro s; simp
  | cons x l ih =>
    intro s
    rw [List.foldl_cons, ih]
    have hx : trefReg x < 256 := Nat.mod_lt _ (by decide)
    rw [tokens_setTok _ _ _ _ _ _ _ (ownFile_lt e) hx hf hr]
    by_cases he : d = engDie e ∧ f = ownFile e
    · obtain ⟨rfl, rfl⟩ := he
      by_cases hxr : trefReg x = r
      · subst hxr
        have := tokens_lt s (engDie e) (ownFile e) (trefReg x)
        simp only [and_self, if_true, List.filter_cons, decide_true, List.foldl_cons]
        rw [hsum _ (0 + trefCnt x), Nat.mod_eq_of_lt (by omega)]
        omega
      · have h2 : r ≠ trefReg x := fun h => hxr h.symm
        simp [hxr, h2]
    · have : ¬ (d = engDie e ∧ f = ownFile e ∧ r = trefReg x) := fun h => he ⟨h.1, h.2.1⟩
      rw [if_neg this, if_neg he, if_neg he]

end Sys2Proof.Machine
end

