-- ==== Sys2Proof/Laws/Clock.lean ====
section
/-! SUPPORT. The tick, DVFS, energy: what each operation changes (R17, R20, R366). -/

set_option Elab.async false

namespace Sys2Proof.Machine

theorem updStep_only (c : Nat) (f : StepSt → StepSt) (s : State) : Only [.clients] s (updStep c f s) := by
  unfold updStep
  split
  · exact setClient_only _ _ _
  · exact Only.rfl' s

theorem updRun_only (c : Nat) (f : Run → Run) (s : State) : Only [.clients] s (updRun c f s) := by
  unfold updRun
  split
  · exact setClient_only _ _ _
  · exact Only.rfl' s

theorem setTime_only (f : TimeSt → TimeSt) (s : State) : Only [.fabric] s (setTime f s) := only_fabric _ s

theorem holdPlan_only (c : Nat) (s : State) : Only [.clients, .dict, .sat, .host, .logs] s (holdPlan c s) := by
  unfold holdPlan
  split
  · dsimp only
    have h1 : Only [.clients, .dict, .sat, .host, .logs] s (updStep c (fun st => { st with out := st.out + 1 })
        (updRun c (fun r => { r with out := r.out + 1 }) s)) :=
      ((updRun_only _ _ _).mono (by decide)).step (updStep_only _ _ _) (by decide)
    generalize updStep c _ _ = y at h1 ⊢
    split
    · refine Only.step ?_ (bumpDict_only _ _ _) (by decide)
      exact h1.trans (Only.ite ((setClient_only _ _ _).mono (by decide)) (Only.rfl' _))
    · exact h1.trans (Only.ite ((setClient_only _ _ _).mono (by decide)) (Only.rfl' _))
  · exact Only.rfl' s

theorem moduleTick_spec (s : State) : Only [.tick, .fabric, .clients, .dict, .sat, .host, .logs] s (moduleTick s) ∧
    (moduleTick s).tick = s.tick + 1 ∧
    (moduleTick s).fabric = { s.fabric with time := { s.fabric.time with phase := trimPhase s.fabric.time.phase } } := by
  unfold moduleTick
  dsimp only
  have h1 : Only [.clients, .dict, .sat, .host, .logs] { s with tick := s.tick + 1 }
      ((List.range 16).foldl (fun s c => holdPlan c s) { s with tick := s.tick + 1 }) :=
    Only.foldl (fun s c => holdPlan_only c s) _ _
  generalize (List.range 16).foldl (fun s c => holdPlan c s) { s with tick := s.tick + 1 } = y at h1 ⊢
  refine ⟨?_, ?_, ?_⟩
  · refine Only.step ?_ (setDict_only _ _ _) (by decide)
    refine Only.step ?_ (setTime_only _ _) (by decide)
    exact ((only_tick _ s).mono (by decide)).trans (h1.mono (by decide))
  · rw [setDict_tick]; exact h1.tick (by decide)
  · rw [setDict_fabric]
    show ({ y.fabric with time := _ } : Fabric) = _
    rw [h1.fabric (by decide)]

theorem newWindows_spec (d : DieId) (s : State) : Only [.arbs] s (newWindows d.val s) ∧
    ∀ k, mget {} (newWindows d.val s).arbs k = if k / 4 = d.val then arbWindow (mget {} s.arbs k) else mget {} s.arbs k := by
  refine ⟨only_arbs _ s, fun k => ?_⟩
  have h4 : (List.range 4) = [0, 1, 2, 3] := rfl
  unfold newWindows
  dsimp only
  rw [h4]
  simp only [List.foldl_cons, List.foldl_nil, mget_mset, arbKey]
  by_cases hk : k / 4 = d.val
  · rw [if_pos hk]
    obtain h | h | h | h : k = 4 * d.val + 0 ∨ k = 4 * d.val + 1 ∨ k = 4 * d.val + 2 ∨ k = 4 * d.val + 3 := by omega
    all_goals (subst h; simp)
  · rw [if_neg hk, if_neg (by omega), if_neg (by omega), if_neg (by omega), if_neg (by omega)]

theorem uncacheName_only (n : Nat) (s : State) : Only [.plates] s (uncacheName n s) := only_plates _ s
theorem clearSlots_only (n : Nat) (s : State) : Only [.cat] s (clearSlots n s) := only_cat _ s
theorem claimLines_only (d : Nat) (e : Entry) (s : State) : Only [.mem] s (claimLines d e s) := only_mem _ s

theorem applyEntry_only (name : Nat) (e : Entry) (f : Bool) (s : State) :
    Only [.cat, .plates, .mem] s (applyEntry name e f s) := by
  unfold applyEntry
  dsimp only
  have h1 : Only [.cat, .plates, .mem] s (setEnt name e (uncacheName name s)) :=
    ((uncacheName_only _ _).mono (by decide)).step (setEnt_only _ _ _) (by decide)
  have h2 : Only [.cat, .plates, .mem] s (if (getEnt s name).kind = 0 ∨ e.kind = 0 ∨ (getEnt s name).slots ≠ e.slots ∨
      (getEnt s name).slotu ≠ e.slotu then clearSlots name (setEnt name e (uncacheName name s))
      else setEnt name e (uncacheName name s)) :=
    Only.ite (h1.step (clearSlots_only _ _) (by decide)) h1
  exact Only.ite (h2.step (claimLines_only _ _ _) (by decide)) h2

theorem commitStaged_only (d : DieId) (c : Nat) (s : State) : Only [.cat, .plates, .mem] s (commitStaged d c s) := by
  unfold commitStaged
  exact ((only_cat _ s).mono (by decide)).trans (Only.foldl (fun s x => applyEntry_only _ _ _ _) _ _)

theorem dueCommits_only (d : DieId) (s : State) : Only [.cat, .plates, .mem] s (dueCommits d s) := by
  unfold dueCommits
  exact ((only_cat _ s).mono (by decide)).trans (Only.foldl (fun s x => commitStaged_only _ _ _) _ _)

theorem setPort_time (p : Nat) (x : Port) (s : State) : (setPort p x s).fabric.time = s.fabric.time := rfl

theorem dueSwap_only (p : Nat) (s : State) : Only [.fabric, .regs, .dict, .sat, .ledger, .host, .logs, .wearS, .free] s (dueSwap p s) ∧
    (dueSwap p s).fabric.time = s.fabric.time := by
  unfold dueSwap
  split
  · split
    · unfold swapLane
      dsimp only
      refine ⟨?_, ?_⟩
      · refine Only.step ?_ (doneSwap_only _ _ _ _ _ _) (by decide)
        refine Only.step ?_ (bumpDict_only _ _ _) (by decide)
        exact Only.step ((setReg_only _ _ _).mono (by decide)) (setPort_only _ _ _) (by decide)
      · rw [(doneSwap_only _ _ _ _ _ _).fabric (by decide), (bumpDict_only _ _ _).fabric (by decide), setPort_time,
          setReg_fabric]
    · exact ⟨Only.rfl' s, rfl⟩
  · exact ⟨Only.rfl' s, rfl⟩

theorem settleCommits_only (c : Nat) (s : State) : Only [.clients, .dict, .sat, .host, .logs, .plates] s (settleCommits c s) := by
  unfold settleCommits
  split
  · exact Only.rfl' s
  · dsimp only
    split
    · exact Only.rfl' s
    · refine Only.trans ?_ (Only.foldl (fun s j => (complete_only _ _).mono (by decide)) _ _)
      refine Only.step ?_ (bumpDict_only _ _ _) (by decide)
      refine Only.step ?_ (setDict_only _ _ _) (by decide)
      exact (updStep_only _ _ _).mono (by decide)

theorem setSensors_only (m : Sensors) (s : State) : Only [.dict] s (setSensors m s) := by
  unfold setSensors
  dsimp only
  refine Only.step ?_ (setDict_only _ _ _) (by decide)
  refine Only.trans ?_ (Only.foldl (fun s d => setDict_only _ _ _) _ _)
  exact ((((setDict_only _ _ _).trans (setDict_only _ _ _)).trans (setDict_only _ _ _)).trans (setDict_only _ _ _)).trans
    (setDict_only _ _ _)

theorem setLedger_only (k v : Nat) (s : State) : Only [.ledger] s (setLedger k v s) := only_ledger _ s

theorem bumpLedger_ledger (c j n k : Nat) (s : State) (h : 512 ≤ k) (hj : j < 32) :
    mget 0 (bumpLedger c j n s).ledger k = mget 0 s.ledger k := by
  unfold bumpLedger
  split
  · dsimp only
    have : k ≠ c * 32 + j := by omega
    split
    · exact mget_mset_ne _ _ _ _ this
    · rw [stickDict_ledger]; exact mget_mset_ne _ _ _ _ this
  · rfl

theorem chargeEnergy_spec (c n : Nat) (s : State) : Only accountParts s (chargeEnergy c n s) ∧
    mget 0 (chargeEnergy c n s).ledger 514 = mget 0 s.ledger 514 := by
  unfold chargeEnergy
  split
  · exact ⟨(bumpLedger_only _ _ _ _).mono (by decide), bumpLedger_ledger _ _ _ _ _ (by omega) (by omega)⟩
  · exact ⟨(setLedger_only _ _ _).mono (by decide), mget_mset_ne _ _ _ _ (by omega)⟩

theorem foldl_energy {β : Type} (g : State → β → State)
    (hg : ∀ s x, Only accountParts s (g s x) ∧ mget 0 (g s x).ledger 514 = mget 0 s.ledger 514) (l : List β) (s : State) :
    Only accountParts s (l.foldl g s) ∧ mget 0 (l.foldl g s).ledger 514 = mget 0 s.ledger 514 := by
  induction l generalizing s with
  | nil => exact ⟨Only.rfl' s, rfl⟩
  | cons x l ih => exact ⟨(hg s x).1.trans (ih _).1, (ih _).2.trans (hg s x).2⟩

theorem shareEnergy_spec (u n : Nat) (s : State) : Only accountParts s (shareEnergy u n s) ∧
    mget 0 (shareEnergy u n s).ledger 514 = mget 0 s.ledger 514 := by
  unfold shareEnergy
  dsimp only
  split
  · exact chargeEnergy_spec _ _ _
  · obtain ⟨h1, h2⟩ := chargeEnergy_spec 16 (n - ((List.range 16).map fun c => n * mget 0 s.served (u * 16 + c) /
      ((List.range 16).map fun c => mget 0 s.served (u * 16 + c)).sum).sum) s
    obtain ⟨h3, h4⟩ := foldl_energy (fun t c => chargeEnergy c (n * mget 0 s.served (u * 16 + c) /
      ((List.range 16).map fun c => mget 0 s.served (u * 16 + c)).sum) t) (fun s x => chargeEnergy_spec _ _ _) (List.range 16)
      (chargeEnergy 16 (n - ((List.range 16).map fun c => n * mget 0 s.served (u * 16 + c) /
      ((List.range 16).map fun c => mget 0 s.served (u * 16 + c)).sum).sum) s)
    exact ⟨h1.trans h3, h4.trans h2⟩

theorem dieEnergy_spec (d : Nat) (x : EnergyIn) (s : State) : Only accountParts s (dieEnergy d x s) ∧
    mget 0 (dieEnergy d x s).ledger 514 = mget 0 s.ledger 514 := by
  unfold dieEnergy
  dsimp only
  obtain ⟨h1, h2⟩ := chargeEnergy_spec (clientOn s d) (x.compute + x.mgmt) s
  obtain ⟨h3, h4⟩ := foldl_energy (fun s i => shareEnergy (6 * d + i) (nth 0 x.stk i) s) (fun s i => shareEnergy_spec _ _ _)
    (List.range 6) (chargeEnergy (clientOn s d) (x.compute + x.mgmt) s)
  obtain ⟨h5, h6⟩ := shareEnergy_spec (24 + d) x.links ((List.range 6).foldl (fun s i => shareEnergy (6 * d + i) (nth 0 x.stk i) s)
    (chargeEnergy (clientOn s d) (x.compute + x.mgmt) s))
  exact ⟨(h1.trans h3).trans h5, h6.trans (h4.trans h2)⟩

end Sys2Proof.Machine
end

