-- ==== Sys2Proof/Laws/Catalog.lean ====
section
/-! SUPPORT. Catalog writes and closing writes (R165, R170 to R172, R175, R181, R335). -/

set_option Elab.async false

namespace Sys2Proof.Machine

theorem Catalog.eq_of {a b : Catalog} (h : a.staging = b.staging ∧ a.commits = b.commits ∧ a.closing = b.closing ∧
    a.accepted = b.accepted ∧ a.epochs = b.epochs ∧ a.waiters = b.waiters) :
    a = { b with ents := a.ents, full := a.full } := by
  obtain ⟨h1, h2, h3, h4, h5, h6⟩ := h
  cases a; cases b; cases h1; cases h2; cases h3; cases h4; cases h5; cases h6; rfl

/-- What a Catalog write of one entry leaves (R165, R170, R172). -/
structure EntWritten (s n : State) (name : Nat) (new : Entry) : Prop where
  ent : getEnt n name = new
  others : ∀ k, k ≠ name → getEnt n k = getEnt s k
  cleared : (getEnt s name).kind = 0 ∨ new.kind = 0 ∨ (getEnt s name).slots ≠ new.slots ∨ (getEnt s name).slotu ≠ new.slotu →
    ∀ j, j < 4096 → slotFull n name j = false
  slots : ∀ k j, j < 4096 → k ≠ name → slotFull n k j = slotFull s k j
  peek : ∀ x, n.peek x = s.peek x
  only : Only [.cat, .plates, .mem] s n
  cat : n.cat = { s.cat with ents := n.cat.ents, full := n.cat.full }

theorem getEnt_setEnt (k j : Nat) (e : Entry) (s : State) : getEnt (setEnt k e s) j = if j = k then e else getEnt s j :=
  mget_mset _ _ _ _ _

theorem clearSlots_full (name k j : Nat) (hj : j < 4096) (s : State) :
    slotFull (clearSlots name s) k j = if k = name then false else slotFull s k j := by
  unfold slotFull clearSlots
  dsimp only
  rw [mget_mdrop]
  have : slotKey k j / 4096 = k := by unfold slotKey; omega
  rw [this]
  by_cases h : k = name <;> simp [h]

theorem claimLines_peek (d : Nat) (e : Entry) (s : State) (x : Nat) : (claimLines d e s).peek x = s.peek x := rfl

theorem applyEntry_written (name : Nat) (e : Entry) (f : Bool) (s : State) : EntWritten s (applyEntry name e f s) name e := by
  have ho := applyEntry_only name e f s
  unfold applyEntry at ho ⊢
  dsimp only at ho ⊢
  set s1 := setEnt name e (uncacheName name s) with h1
  have e1 : ∀ k, getEnt s1 k = if k = name then e else getEnt s k := fun k => by rw [h1, getEnt_setEnt]; rfl
  have f1 : ∀ k j, slotFull s1 k j = slotFull s k j := fun k j => rfl
  have p1 : ∀ x, s1.peek x = s.peek x := fun x => rfl
  have c1 : s1.cat.staging = s.cat.staging ∧ s1.cat.commits = s.cat.commits ∧ s1.cat.closing = s.cat.closing ∧
    s1.cat.accepted = s.cat.accepted ∧ s1.cat.epochs = s.cat.epochs ∧ s1.cat.waiters = s.cat.waiters := ⟨rfl, rfl, rfl, rfl, rfl, rfl⟩
  clear_value s1
  set s2 := if (getEnt s name).kind = 0 ∨ e.kind = 0 ∨ (getEnt s name).slots ≠ e.slots ∨ (getEnt s name).slotu ≠ e.slotu then
    clearSlots name s1 else s1 with h2
  have e2 : ∀ k, getEnt s2 k = if k = name then e else getEnt s k := by
    intro k; rw [h2]; split <;> exact e1 k
  have f2 : ∀ k j, j < 4096 → k ≠ name → slotFull s2 k j = slotFull s k j := by
    intro k j hj hk
    rw [h2]; split
    · rw [clearSlots_full _ _ _ hj, if_neg hk, f1]
    · exact f1 k j
  have g2 : (getEnt s name).kind = 0 ∨ e.kind = 0 ∨ (getEnt s name).slots ≠ e.slots ∨ (getEnt s name).slotu ≠ e.slotu →
      ∀ j, j < 4096 → slotFull s2 name j = false := by
    intro h j hj
    rw [h2, if_pos h, clearSlots_full _ _ _ hj, if_pos rfl]
  have p2 : ∀ x, s2.peek x = s.peek x := by intro x; rw [h2]; split <;> exact p1 x
  have c2 : s2.cat = { s.cat with ents := s2.cat.ents, full := s2.cat.full } := by
    refine Catalog.eq_of ?_
    rw [h2]; split <;> exact c1
  clear_value s2
  cases f with
  | true => exact ⟨(e2 name).trans (if_pos rfl), fun k hk => (e2 k).trans (if_neg hk), g2, f2, p2, ho, c2⟩
  | false => exact ⟨(e2 name).trans (if_pos rfl), fun k hk => (e2 k).trans (if_neg hk), g2, f2, p2, ho, c2⟩

theorem EntWritten.views {s n m : State} {name : Nat} {new : Entry} (h : EntWritten s n name new)
    (he : m.cat.ents = n.cat.ents) (hf : m.cat.full = n.cat.full) :
    getEnt m name = new ∧ (∀ k, k ≠ name → getEnt m k = getEnt s k) ∧
    ((getEnt s name).kind = 0 ∨ new.kind = 0 ∨ (getEnt s name).slots ≠ new.slots ∨ (getEnt s name).slotu ≠ new.slotu →
      ∀ j, j < 4096 → slotFull m name j = false) ∧
    ∀ k j, j < 4096 → k ≠ name → slotFull m k j = slotFull s k j := by
  have h1 : ∀ k, getEnt m k = getEnt n k := fun k => by unfold getEnt; rw [he]
  have h2 : ∀ k j, slotFull m k j = slotFull n k j := fun k j => by unfold slotFull; rw [hf]
  refine ⟨by rw [h1, h.ent], fun k hk => by rw [h1, h.others k hk], fun hc j hj => by rw [h2, h.cleared hc j hj],
    fun k j hj hk => by rw [h2, h.slots k j hj hk]⟩

theorem noteStageRefused_only (c : Nat) (r : CatRec) (s : State) : Only [.clients] s (noteStageRefused c r s) := by
  unfold noteStageRefused
  split
  · exact Only.rfl' _
  · split
    · exact setClient_only _ _ _
    · exact Only.rfl' _

theorem catWrite_refused {path : Option Nat} {d : DieId} {r : CatRec} {s : State} {k : Nat}
    (h0 : ¬ (r.stage = true ∧ r.undef = true ∧ (mget {} (applyStaged s.cat.ents s.cat.staging) (d.val * 4096 + r.handle)).kind = 0))
    (hk : catReason s path d.val r (if r.stage then applyStaged s.cat.ents (s.cat.staging.filter fun x =>
      decide (x.owner = stageOwner s d.val r)) else s.cat.ents) = some k) :
    catWrite path d r s = (.refused k, noteCatRefused path d.val r.handle k (noteStageRefused (stageOwner s d.val r) r s)) := by
  unfold catWrite
  dsimp only
  rw [if_neg h0]
  split
  · rename_i k' h; rw [hk] at h; cases h; rfl
  · rename_i h; rw [hk] at h; cases h

theorem catWrite_direct {path : Option Nat} {d : DieId} {r : CatRec} {s : State} (hs : r.stage = false)
    (hk : catReason s path d.val r s.cat.ents = none) :
    let name := d.val * 4096 + r.handle
    let cur := getEnt s name
    catWrite path d r s = (if r.win = true ∧ narrows cur (r.result cur) = true ∧ mget 0 s.cat.accepted name ≠ 0 then .pending else .applied,
      applyEntry name (r.result cur) (!r.win && !r.undef) s) := by
  intro name cur
  unfold catWrite
  dsimp only
  rw [if_neg (by rw [hs]; simp), hs]
  simp only [Bool.false_eq_true, if_false]
  split
  · rename_i k' h; rw [hk] at h; cases h
  · split
    · rename_i h
      change r.win = true ∧ narrows cur (r.result cur) = true ∧ mget 0 s.cat.accepted name ≠ 0 at h
      rw [if_pos h]; rfl
    · rename_i h
      change ¬ (r.win = true ∧ narrows cur (r.result cur) = true ∧ mget 0 s.cat.accepted name ≠ 0) at h
      rw [if_neg h]; rfl

theorem catWrite_staged {path : Option Nat} {d : DieId} {r : CatRec} {s : State} (hs : r.stage = true)
    (h0 : ¬ (r.stage = true ∧ r.undef = true ∧ (mget {} (applyStaged s.cat.ents s.cat.staging) (d.val * 4096 + r.handle)).kind = 0)) :
    let mine := applyStaged s.cat.ents (s.cat.staging.filter fun x => decide (x.owner = stageOwner s d.val r))
    catReason s path d.val r mine = none →
    catWrite path d r s = (.applied, { s with cat := { s.cat with staging := s.cat.staging ++
      [{ die := d, owner := stageOwner s d.val r, ctl := r.ctl, ent := r.result (mget {} mine (d.val * 4096 + r.handle)) }] } }) := by
  intro mine hk
  unfold catWrite
  dsimp only
  rw [if_neg h0, hs]
  simp only [if_true]
  split
  · rename_i k' h; rw [hk] at h; cases h
  · rfl

theorem finishClosing_some {d : DieId} {x : Closing} {a : Agent} (h : x.agent = some a) (s : State) :
    finishClosing d s x = setReg (catPort d.val (agentPort a) 0x48) 1 s := by unfold finishClosing; rw [h]

theorem finishClosing_none {d : DieId} {x : Closing} (h : x.agent = none) (s : State) :
    finishClosing d s x = complete x.id s := by unfold finishClosing; rw [h]

theorem finishClosing_spec (d : DieId) (f : Agent → Nat) (hf : ∀ a, f a = catPort d.val (agentPort a) 0x48) : ∀ (l : List Closing) (s : State),
    let n := l.foldl (finishClosing d) s
    Only [.regs, .plates] s n ∧ (∀ x ∈ l, ∀ a, x.agent = some a → getReg n (f a) = 1) ∧
    (∀ r, getReg s r = 1 → getReg n r = 1) ∧
    (∀ x ∈ l, x.agent = none → findFlight n x.id = none) ∧ ∀ k, findFlight s k = none → findFlight n k = none := by
  intro l
  induction l with
  | nil => intro s; exact ⟨Only.rfl' _, fun x hx => absurd hx (List.not_mem_nil), fun r h => h, fun x hx => absurd hx (List.not_mem_nil), fun k h => h⟩
  | cons y l ih =>
    intro s
    simp only [List.foldl_cons]
    cases hy : y.agent with
    | some a =>
      rw [finishClosing_some hy, ← hf]
      obtain ⟨i1, i2, i3, i4, i5⟩ := ih (setReg (f a) 1 s)
      refine ⟨((setReg_only _ _ _).mono (by decide)).trans i1, fun x hx b hb => ?_, fun r hr => i3 r ?_, fun x hx hn => ?_, fun k hk => i5 k hk⟩
      · rcases List.mem_cons.1 hx with rfl | hx
        · rw [hy] at hb; cases hb
          exact i3 _ (by simp)
        · exact i2 x hx b hb
      · rw [getReg_setReg]; split
        · rfl
        · exact hr
      · rcases List.mem_cons.1 hx with rfl | hx
        · rw [hy] at hn; cases hn
        · exact i4 x hx hn
    | none =>
      rw [finishClosing_none hy]
      obtain ⟨i1, i2, i3, i4, i5⟩ := ih (complete y.id s)
      have hc := complete_completed y.id s
      refine ⟨((complete_only _ _).mono (by decide)).trans i1, fun x hx b hb => ?_, fun r hr => i3 r ?_, fun x hx hn => ?_, fun k hk => i5 k ?_⟩
      · rcases List.mem_cons.1 hx with rfl | hx
        · rw [hy] at hb; cases hb
        · exact i2 x hx b hb
      · unfold getReg at hr ⊢; rw [(complete_only y.id s).regs (by decide)]; exact hr
      · rcases List.mem_cons.1 hx with rfl | hx
        · exact i5 _ hc.1
        · exact i4 x hx hn
      · by_cases h : k = y.id
        · rw [h]; exact hc.1
        · rw [hc.2.1 k h]; exact hk

theorem portCat_refused {d : DieId} {a : Agent} {r : CatRec} {s s1 : State} {k : Nat} {res : Nat} (hr : res = catPort d.val (agentPort a) 0x48) (hb : catBusy s d a = false)
    (h : catWrite none d r s = (.refused k, s1)) :
    portCatWrite d a r s = setReg res (BitVec.ofNat 64 (0x100 + k)) s1 := by
  unfold portCatWrite
  rw [← hr]
  dsimp only
  rw [if_neg (by rw [hb]; simp), h]

theorem portCat_applied {d : DieId} {a : Agent} {r : CatRec} {s s1 : State} {res : Nat} (hr : res = catPort d.val (agentPort a) 0x48) (hb : catBusy s d a = false)
    (h : catWrite none d r s = (.applied, s1)) :
    portCatWrite d a r s = setReg res 1 s1 := by
  unfold portCatWrite
  rw [← hr]
  dsimp only
  rw [if_neg (by rw [hb]; simp), h]

theorem portCat_pending {d : DieId} {a : Agent} {r : CatRec} {s s1 : State} {res : Nat} (hr : res = catPort d.val (agentPort a) 0x48) (hb : catBusy s d a = false)
    (h : catWrite none d r s = (.pending, s1)) :
    portCatWrite d a r s = setReg res 0 { s1 with cat := { s1.cat with
        closing := s1.cat.closing ++ [{ name := d.val * 4096 + r.handle, agent := a }] } } := by
  unfold portCatWrite
  rw [← hr]
  dsimp only
  rw [if_neg (by rw [hb]; simp), h]

theorem setReg_same (a : Nat) (v : Word) (s : State) (h : a % 4096 ≠ 0) : SameStore s (setReg a v s) := by
  refine SameStore.of rfl fun i => ?_
  have hb : stkBlk i 0 % 4096 = 0 := by unfold stkBlk ctlBase; omega
  unfold stackFailed
  rw [getReg_setReg, if_neg]
  intro e
  rw [e] at hb
  exact h hb

theorem catPort_same {d : DieId} {a : Agent} {res : Nat} (hr : res = catPort d.val (agentPort a) 0x48) (v : Word) (s : State) :
    SameStore s (setReg res v s) := by
  refine setReg_same _ _ _ ?_
  rw [hr]
  have : agentPort a ≤ 4 := by
    cases a with
    | host => exact Nat.zero_le _
    | core c => have := c.isLt; show 1 + c.val ≤ 4; omega
  unfold catPort ctlBase
  omega

end Sys2Proof.Machine
end

