-- ==== Sys2Proof/Laws/Kept.lean ====
section
/-! SUPPORT. What every command keeps: memory in canonical form, the queue, the messages that have left the module, and free values never used twice. -/

set_option Elab.async false

namespace Sys2Proof.Machine

/-- From r the machine has come to t by effects that change the parts of ks alone, keep the canonical form of memory, leave the queue alone, take back no
message sent to the host or on the CAN bus, and reuse no free value. -/
structure Kept (ks : List Part) (r t : State) : Prop where
  mem : r.mem.wf = true → t.mem.wf = true
  pending : t.pending = r.pending
  sent : r.host.sent <+: t.host.sent
  frames : r.can.sent <+: t.can.sent
  free : r.free ≤ t.free
  only : Only ks r t

variable {ks : List Part} {r s t : State}

theorem sub_of {a b c : List Part} (h : b ⊆ c) (k : a ⊆ b) : a ⊆ c := fun _ x => h (k x)

theorem sub_mem {a b : List Part} {p : Part} (h : a ⊆ b) (k : p ∈ a) : p ∈ b := h k

theorem Kept.rfl' (s : State) : Kept ks s s := ⟨id, rfl, List.prefix_rfl, List.prefix_rfl, le_rfl, Only.rfl' s⟩

theorem Kept.trans (h : Kept ks r s) (k : Kept ks s t) : Kept ks r t :=
  ⟨fun x => k.mem (h.mem x), k.pending.trans h.pending, h.sent.trans k.sent, h.frames.trans k.frames, h.free.trans k.free, h.only.trans k.only⟩

/-- An effect on other fields. -/
theorem kept_of_eq (h : Kept ks r s) (ho : Only ks s t) (hm : t.mem = s.mem) (hp : t.pending = s.pending) (hs : t.host.sent = s.host.sent)
    (hc : t.can.sent = s.can.sent) (hf : t.free = s.free) : Kept ks r t :=
  ⟨fun x => hm ▸ h.mem x, hp.trans h.pending, hs ▸ h.sent, hc ▸ h.frames, hf ▸ h.free, h.only.trans ho⟩

/-- An effect on memory, and on other fields. -/
theorem kept_of_mem (h : Kept ks r s) (ho : Only ks s t) (hm : s.mem.wf = true → t.mem.wf = true) (hp : t.pending = s.pending)
    (hs : t.host.sent = s.host.sent) (hc : t.can.sent = s.can.sent) (hf : t.free = s.free) : Kept ks r t :=
  ⟨fun x => hm (h.mem x), hp.trans h.pending, hs ▸ h.sent, hc ▸ h.frames, hf ▸ h.free, h.only.trans ho⟩

/-- A record update of other fields. -/
theorem kept_mk {regs : SMap Word} {shadow : SMap Word} {dict : SMap Word} {blobs : DictSt} {sat : SMap Bool} {cat : Catalog}
    {banks : Banks} {plates : Plates} {tiles : SMap Tile} {units : Units} {clients : SMap Client} {fabric :
    Fabric} {rot : Rotation} {arbs : SMap Arb} {host : HostSt} {logs : Logs} {start : StartSt} {wearS : WearSt}
    {can : CanSt} {cur : CurSt} {mail : MailSt} {wear : SMap Nat} {ledger : SMap Nat} {served : SMap Nat} {ports :
    SMap (List (Byte × Bool))} {tick : Nat}
    (h : Kept ks r s) (ho : Only ks s ⟨s.mem, regs, shadow, dict, blobs, sat, cat, banks, plates, tiles, units, clients, fabric, rot, arbs, host,
    logs, start, wearS, can, cur, mail, wear, ledger, served, ports, tick, s.pending, s.free⟩)
     (hs : host.sent = s.host.sent) (hc : can.sent = s.can.sent) :
    Kept ks r ⟨s.mem, regs, shadow, dict, blobs, sat, cat, banks, plates, tiles, units, clients, fabric, rot, arbs, host,
    logs, start, wearS, can, cur, mail, wear, ledger, served, ports, tick, s.pending, s.free⟩ :=
  kept_of_eq h ho rfl rfl hs hc rfl

/-- A record update that sends messages to the host. -/
theorem kept_mk_sent {regs : SMap Word} {shadow : SMap Word} {dict : SMap Word} {blobs : DictSt} {sat : SMap Bool} {cat : Catalog}
    {banks : Banks} {plates : Plates} {tiles : SMap Tile} {units : Units} {clients : SMap Client} {fabric :
    Fabric} {rot : Rotation} {arbs : SMap Arb} {host : HostSt} {logs : Logs} {start : StartSt} {wearS : WearSt}
    {can : CanSt} {cur : CurSt} {mail : MailSt} {wear : SMap Nat} {ledger : SMap Nat} {served : SMap Nat} {ports :
    SMap (List (Byte × Bool))} {tick : Nat}
    (h : Kept ks r s) (ho : Only ks s ⟨s.mem, regs, shadow, dict, blobs, sat, cat, banks, plates, tiles, units, clients, fabric, rot, arbs, host,
    logs, start, wearS, can, cur, mail, wear, ledger, served, ports, tick, s.pending, s.free⟩)
     (hs : s.host.sent <+: host.sent) (hc : can.sent = s.can.sent) :
    Kept ks r ⟨s.mem, regs, shadow, dict, blobs, sat, cat, banks, plates, tiles, units, clients, fabric, rot, arbs, host,
    logs, start, wearS, can, cur, mail, wear, ledger, served, ports, tick, s.pending, s.free⟩ :=
  ⟨h.mem, h.pending, h.sent.trans hs, hc ▸ h.frames, h.free, h.only.trans ho⟩

/-- A record update that sends CAN frames. -/
theorem kept_mk_frames {regs : SMap Word} {shadow : SMap Word} {dict : SMap Word} {blobs : DictSt} {sat : SMap Bool} {cat : Catalog}
    {banks : Banks} {plates : Plates} {tiles : SMap Tile} {units : Units} {clients : SMap Client} {fabric :
    Fabric} {rot : Rotation} {arbs : SMap Arb} {host : HostSt} {logs : Logs} {start : StartSt} {wearS : WearSt}
    {can : CanSt} {cur : CurSt} {mail : MailSt} {wear : SMap Nat} {ledger : SMap Nat} {served : SMap Nat} {ports :
    SMap (List (Byte × Bool))} {tick : Nat}
    (h : Kept ks r s) (ho : Only ks s ⟨s.mem, regs, shadow, dict, blobs, sat, cat, banks, plates, tiles, units, clients, fabric, rot, arbs, host,
    logs, start, wearS, can, cur, mail, wear, ledger, served, ports, tick, s.pending, s.free⟩)
     (hs : host.sent = s.host.sent) (hc : s.can.sent <+: can.sent) :
    Kept ks r ⟨s.mem, regs, shadow, dict, blobs, sat, cat, banks, plates, tiles, units, clients, fabric, rot, arbs, host,
    logs, start, wearS, can, cur, mail, wear, ledger, served, ports, tick, s.pending, s.free⟩ :=
  ⟨h.mem, h.pending, hs ▸ h.sent, h.frames.trans hc, h.free, h.only.trans ho⟩

/-- A record update that moves the free counter on. -/
theorem kept_mk_free {free : Nat} {regs : SMap Word} {shadow : SMap Word} {dict : SMap Word} {blobs : DictSt} {sat : SMap Bool} {cat : Catalog}
    {banks : Banks} {plates : Plates} {tiles : SMap Tile} {units : Units} {clients : SMap Client} {fabric :
    Fabric} {rot : Rotation} {arbs : SMap Arb} {host : HostSt} {logs : Logs} {start : StartSt} {wearS : WearSt}
    {can : CanSt} {cur : CurSt} {mail : MailSt} {wear : SMap Nat} {ledger : SMap Nat} {served : SMap Nat} {ports :
    SMap (List (Byte × Bool))} {tick : Nat}
    (h : Kept ks r s) (ho : Only ks s ⟨s.mem, regs, shadow, dict, blobs, sat, cat, banks, plates, tiles, units, clients, fabric, rot, arbs, host,
    logs, start, wearS, can, cur, mail, wear, ledger, served, ports, tick, s.pending, free⟩)
     (hf : s.free ≤ free) (hs : host.sent = s.host.sent) (hc : can.sent = s.can.sent) :
    Kept ks r ⟨s.mem, regs, shadow, dict, blobs, sat, cat, banks, plates, tiles, units, clients, fabric, rot, arbs, host,
    logs, start, wearS, can, cur, mail, wear, ledger, served, ports, tick, s.pending, free⟩ :=
  ⟨h.mem, h.pending, hs ▸ h.sent, hc ▸ h.frames, h.free.trans hf, h.only.trans ho⟩

/-- A record update of memory and other fields. -/
theorem kept_mk_mem {mem : Memory} {regs : SMap Word} {shadow : SMap Word} {dict : SMap Word} {blobs : DictSt} {sat : SMap Bool} {cat : Catalog}
    {banks : Banks} {plates : Plates} {tiles : SMap Tile} {units : Units} {clients : SMap Client} {fabric :
    Fabric} {rot : Rotation} {arbs : SMap Arb} {host : HostSt} {logs : Logs} {start : StartSt} {wearS : WearSt}
    {can : CanSt} {cur : CurSt} {mail : MailSt} {wear : SMap Nat} {ledger : SMap Nat} {served : SMap Nat} {ports :
    SMap (List (Byte × Bool))} {tick : Nat}
    (h : Kept ks r s) (ho : Only ks s ⟨mem, regs, shadow, dict, blobs, sat, cat, banks, plates, tiles, units, clients, fabric, rot, arbs, host,
    logs, start, wearS, can, cur, mail, wear, ledger, served, ports, tick, s.pending, s.free⟩)
     (hm : s.mem.wf = true → mem.wf = true) (hs : host.sent = s.host.sent) (hc : can.sent = s.can.sent) :
    Kept ks r ⟨mem, regs, shadow, dict, blobs, sat, cat, banks, plates, tiles, units, clients, fabric, rot, arbs, host,
    logs, start, wearS, can, cur, mail, wear, ledger, served, ports, tick, s.pending, s.free⟩ :=
  kept_of_mem h ho hm rfl hs hc rfl

theorem kept_ite {c : Prop} [Decidable c] {a b : State} (ha : Kept ks r a) (hb : Kept ks r b) :
    Kept ks r (if c then a else b) := by split <;> assumption

theorem kept_foldl {α : Type} {l : List α} {g : State → α → State} (h : Kept ks r s)
    (hg : ∀ s x, Kept ks r s → Kept ks r (g s x)) : Kept ks r (l.foldl g s) := by
  induction l generalizing s with
  | nil => exact h
  | cons x l ih => exact ih (hg s x h)

theorem kept_iter {n : Nat} {g : Nat → State → State} (h : Kept ks r s) (hg : ∀ i s, Kept ks r s → Kept ks r (g i s)) :
    Kept ks r (iter n g s) := kept_foldl h fun s i hs => hg i s hs

theorem kept_foldl_fst {α β : Type} {l : List α} {g : State × β → α → State × β} {b : State × β} (h : Kept ks r b.1)
    (hg : ∀ b x, Kept ks r b.1 → Kept ks r (g b x).1) : Kept ks r (l.foldl g b).1 := by
  induction l generalizing b with
  | nil => exact h
  | cons x l ih => exact ih (hg b x h)

theorem kept_foldl_snd {α β : Type} {l : List α} {g : β × State → α → β × State} {b : β × State} (h : Kept ks r b.2)
    (hg : ∀ b x, Kept ks r b.2 → Kept ks r (g b x).2) : Kept ks r (l.foldl g b).2 := by
  induction l generalizing b with
  | nil => exact h
  | cons x l ih => exact ih (hg b x h)

theorem kept_foldl_snd3 {α β γ : Type} {l : List α} {g : β × γ × State → α → β × γ × State} {b : β × γ × State} (h : Kept ks r b.2.2)
    (hg : ∀ b x, Kept ks r b.2.2 → Kept ks r (g b x).2.2) : Kept ks r (l.foldl g b).2.2 := by
  induction l generalizing b with
  | nil => exact h
  | cons x l ih => exact ih (hg b x h)

theorem kept_foldl_snd4 {α β γ δ : Type} {l : List α} {g : β × γ × δ × State → α → β × γ × δ × State} {b : β × γ × δ × State} (h : Kept ks r b.2.2.2)
    (hg : ∀ b x, Kept ks r b.2.2.2 → Kept ks r (g b x).2.2.2) : Kept ks r (l.foldl g b).2.2.2 := by
  induction l generalizing b with
  | nil => exact h
  | cons x l ih => exact ih (hg b x h)

theorem kept_foldl_fst4 {α β γ δ : Type} {l : List α} {g : State × β × γ × δ → α → State × β × γ × δ} {b : State × β × γ × δ} (h : Kept ks r b.1)
    (hg : ∀ b x, Kept ks r b.1 → Kept ks r (g b x).1) : Kept ks r (l.foldl g b).1 := by
  induction l generalizing b with
  | nil => exact h
  | cons x l ih => exact ih (hg b x h)

theorem kept_fst {α : Type} {p : State × α} {x : α} (e : p = (t, x)) (h : Kept ks r p.1) : Kept ks r t := by
  subst e; exact h
theorem kept_snd {α : Type} {p : α × State} {x : α} (e : p = (x, t)) (h : Kept ks r p.2) : Kept ks r t := by
  subst e; exact h
theorem kept_snd3 {α β : Type} {p : α × β × State} {x : α} {y : β} (e : p = (x, y, t)) (h : Kept ks r p.2.2) :
    Kept ks r t := by subst e; exact h
theorem kept_snd4 {α β γ : Type} {p : α × β × γ × State} {x : α} {y : β} {z : γ} (e : p = (x, y, z, t))
    (h : Kept ks r p.2.2.2) : Kept ks r t := by subst e; exact h
theorem kept_snd5 {α β γ δ : Type} {p : α × β × γ × δ × State} {x : α} {y : β} {z : γ} {w : δ}
    (e : p = (x, y, z, w, t)) (h : Kept ks r p.2.2.2.2) : Kept ks r t := by subst e; exact h
theorem kept_some {o : Option State} {d : State} (h : Kept ks r (o.getD d)) (e : o = some t) : Kept ks r t := by
  subst e; exact h
theorem kept_getD {o : Option State} {d : State} (hd : Kept ks r d) (ho : ∀ t, o = some t → Kept ks r t) :
    Kept ks r (o.getD d) := by
  cases o with
  | none => exact hd
  | some t => exact ho t rfl
theorem kept_next {φ ρ : Type} {x t : State} (e : (Host.Outcome.next x : Host.Outcome State φ ρ) = .next t)
    (h : Kept ks r x) : Kept ks r t := by injection e with e; exact e ▸ h

end Sys2Proof.Machine
end

