-- ==== Sys2Proof/Laws/KeptOps.lean ====
section
/-! SUPPORT. What the operations of Machine/Ops.lean keep (Laws/Kept.lean). -/

set_option Elab.async false

namespace Sys2Proof.Machine

theorem setReg_kept {ks : List Part} {r : State} (a : Nat) (v : Word) {s : State} (h : Kept ks r s) (hk : [.regs] ⊆ ks := by first | assumption | exact sub_of (by assumption) (by decide)) : Kept ks r (setReg a v s) := by
  unfold setReg
  try dsimp only
  repeat' first
    | with_reducible assumption
    | with_reducible refine kept_mk ?_ (by constructor <;> intro hp <;> first | exact absurd (sub_mem hk (by decide)) hp | rfl) (by rfl) (by rfl)

theorem orReg_kept {ks : List Part} {r : State} (a : Nat) (v : Word) {s : State} (h : Kept ks r s) (hk : [.regs] ⊆ ks := by first | assumption | exact sub_of (by assumption) (by decide)) : Kept ks r (orReg a v s) := by
  unfold orReg
  try dsimp only
  repeat' first
    | with_reducible assumption
    | with_reducible apply setReg_kept

theorem setBit_kept {ks : List Part} {r : State} (a : Nat) (i : Nat) {s : State} (h : Kept ks r s) (hk : [.regs] ⊆ ks := by first | assumption | exact sub_of (by assumption) (by decide)) : Kept ks r (setBit a i s) := by
  unfold setBit
  try dsimp only
  repeat' first
    | with_reducible assumption
    | with_reducible apply orReg_kept

theorem setDict_kept {ks : List Part} {r : State} (k : Nat) (v : Word) {s : State} (h : Kept ks r s) (hk : [.dict] ⊆ ks := by first | assumption | exact sub_of (by assumption) (by decide)) : Kept ks r (setDict k v s) := by
  unfold setDict
  try dsimp only
  repeat' first
    | with_reducible assumption
    | with_reducible refine kept_mk ?_ (by constructor <;> intro hp <;> first | exact absurd (sub_mem hk (by decide)) hp | rfl) (by rfl) (by rfl)

theorem setTile_kept {ks : List Part} {r : State} (t : TileId) (x : Tile) {s : State} (h : Kept ks r s) (hk : [.tiles] ⊆ ks := by first | assumption | exact sub_of (by assumption) (by decide)) : Kept ks r (setTile t x s) := by
  unfold setTile
  try dsimp only
  repeat' first
    | with_reducible assumption
    | with_reducible refine kept_mk ?_ (by constructor <;> intro hp <;> first | exact absurd (sub_mem hk (by decide)) hp | rfl) (by rfl) (by rfl)

theorem setArr_kept {ks : List Part} {r : State} (t : TileId) (x : ArrayS) {s : State} (h : Kept ks r s) (hk : [.tiles] ⊆ ks := by first | assumption | exact sub_of (by assumption) (by decide)) : Kept ks r (setArr t x s) := by
  unfold setArr
  try dsimp only
  repeat' first
    | with_reducible assumption
    | with_reducible apply setTile_kept

theorem setVec_kept {ks : List Part} {r : State} (t : TileId) (x : VecS) {s : State} (h : Kept ks r s) (hk : [.tiles] ⊆ ks := by first | assumption | exact sub_of (by assumption) (by decide)) : Kept ks r (setVec t x s) := by
  unfold setVec
  try dsimp only
  repeat' first
    | with_reducible assumption
    | with_reducible apply setTile_kept

theorem setStr_kept {ks : List Part} {r : State} (t : TileId) (x : StreamS) {s : State} (h : Kept ks r s) (hk : [.tiles] ⊆ ks := by first | assumption | exact sub_of (by assumption) (by decide)) : Kept ks r (setStr t x s) := by
  unfold setStr
  try dsimp only
  repeat' first
    | with_reducible assumption
    | with_reducible apply setTile_kept

theorem setClient_kept {ks : List Part} {r : State} (c : Nat) (x : Client) {s : State} (h : Kept ks r s) (hk : [.clients] ⊆ ks := by first | assumption | exact sub_of (by assumption) (by decide)) : Kept ks r (setClient c x s) := by
  unfold setClient
  try dsimp only
  repeat' first
    | with_reducible assumption
    | with_reducible refine kept_mk ?_ (by constructor <;> intro hp <;> first | exact absurd (sub_mem hk (by decide)) hp | rfl) (by rfl) (by rfl)

theorem setScope_kept {ks : List Part} {r : State} (c : Nat) (bits : BitVec 32) {s : State} (h : Kept ks r s) (hk : [.clients] ⊆ ks := by first | assumption | exact sub_of (by assumption) (by decide)) : Kept ks r (setScope c bits s) := by
  unfold setScope
  try dsimp only
  repeat' first
    | with_reducible assumption
    | with_reducible apply setClient_kept
    | with_reducible apply kept_ite

theorem postEvent_kept {ks : List Part} {r : State} (e : Event) {s : State} (h : Kept ks r s) (hk : [.host, .logs] ⊆ ks := by first | assumption | exact sub_of (by assumption) (by decide)) : Kept ks r (postEvent e s) := by
  unfold postEvent
  try dsimp only
  repeat' first
    | with_reducible assumption
    | split
    | with_reducible refine kept_mk ?_ (by constructor <;> intro hp <;> first | exact absurd (sub_mem hk (by decide)) hp | rfl) (by rfl) (by rfl)

theorem post_kept {ks : List Part} {r : State} (code : Nat) (client : Nat) (detail : Nat) {s : State} (h : Kept ks r s) (hk : [.host, .logs] ⊆ ks := by first | assumption | exact sub_of (by assumption) (by decide)) : Kept ks r (post code client detail s) := by
  unfold post
  try dsimp only
  repeat' first
    | with_reducible assumption
    | with_reducible apply postEvent_kept

theorem postUncorr_kept {ks : List Part} {r : State} (kind : Nat) (die : Nat) (scrub : Bool) (place : Nat) (client : Nat) {s : State} (h : Kept ks r s) (hk : [.clients, .host, .logs] ⊆ ks := by first | assumption | exact sub_of (by assumption) (by decide)) : Kept ks r (postUncorr kind die scrub place client s) := by
  unfold postUncorr
  try dsimp only
  repeat' first
    | with_reducible assumption
    | exact sub_of hk (by decide)
    | with_reducible apply setScope_kept
    | with_reducible apply post_kept

theorem stickDict_kept {ks : List Part} {r : State} (ix : Nat) (sub : Nat) {s : State} (h : Kept ks r s) (hk : [.sat, .host, .logs] ⊆ ks := by first | assumption | exact sub_of (by assumption) (by decide)) : Kept ks r (stickDict ix sub s) := by
  unfold stickDict
  try dsimp only
  repeat' first
    | with_reducible assumption
    | exact sub_of hk (by decide)
    | with_reducible apply post_kept
    | with_reducible apply kept_ite
    | with_reducible refine kept_mk ?_ (by constructor <;> intro hp <;> first | exact absurd (sub_mem hk (by decide)) hp | rfl) (by rfl) (by rfl)

theorem bumpDictW_kept {ks : List Part} {r : State} (w : Nat) (k : Nat) (n : Nat) {s : State} (h : Kept ks r s) (hk : [.dict, .sat, .host, .logs] ⊆ ks := by first | assumption | exact sub_of (by assumption) (by decide)) : Kept ks r (bumpDictW w k n s) := by
  unfold bumpDictW
  try dsimp only
  repeat' first
    | with_reducible assumption
    | exact sub_of hk (by decide)
    | with_reducible apply setDict_kept
    | with_reducible apply stickDict_kept
    | with_reducible apply kept_ite

theorem bumpDict_kept {ks : List Part} {r : State} (k : Nat) (n : Nat) {s : State} (h : Kept ks r s) (hk : [.dict, .sat, .host, .logs] ⊆ ks := by first | assumption | exact sub_of (by assumption) (by decide)) : Kept ks r (bumpDict k n s) := by
  unfold bumpDict
  try dsimp only
  repeat' first
    | with_reducible assumption
    | with_reducible apply bumpDictW_kept

theorem stick_kept {ks : List Part} {r : State} (blk : Nat) {s : State} (h : Kept ks r s) (hk : [.sat, .host, .logs] ⊆ ks := by first | assumption | exact sub_of (by assumption) (by decide)) : Kept ks r (stick blk s) := by
  unfold stick
  try dsimp only
  repeat' first
    | with_reducible assumption
    | exact sub_of hk (by decide)
    | with_reducible apply post_kept
    | with_reducible apply kept_ite
    | with_reducible refine kept_mk ?_ (by constructor <;> intro hp <;> first | exact absurd (sub_mem hk (by decide)) hp | rfl) (by rfl) (by rfl)

theorem bump_kept {ks : List Part} {r : State} (blk : Nat) (off : Nat) (n : Nat) {s : State} (h : Kept ks r s) (hk : [.regs, .sat, .host, .logs] ⊆ ks := by first | assumption | exact sub_of (by assumption) (by decide)) : Kept ks r (bump blk off n s) := by
  unfold bump
  try dsimp only
  repeat' first
    | with_reducible assumption
    | exact sub_of hk (by decide)
    | with_reducible apply setReg_kept
    | with_reducible apply stick_kept
    | with_reducible apply kept_ite

theorem bumpLedger_kept {ks : List Part} {r : State} (c : Nat) (sub : Nat) (n : Nat) {s : State} (h : Kept ks r s) (hk : [.sat, .host, .logs, .ledger] ⊆ ks := by first | assumption | exact sub_of (by assumption) (by decide)) : Kept ks r (bumpLedger c sub n s) := by
  unfold bumpLedger
  try dsimp only
  repeat' first
    | with_reducible assumption
    | exact sub_of hk (by decide)
    | with_reducible apply stickDict_kept
    | with_reducible apply kept_ite
    | with_reducible refine kept_mk ?_ (by constructor <;> intro hp <;> first | exact absurd (sub_mem hk (by decide)) hp | rfl) (by rfl) (by rfl)

theorem charge_kept {ks : List Part} {r : State} (e : Eng) (code : Nat) {s : State} (h : Kept ks r s) (hk : [.regs, .dict, .sat, .host, .logs, .ledger] ⊆ ks := by first | assumption | exact sub_of (by assumption) (by decide)) : Kept ks r (charge e code s) := by
  unfold charge
  try dsimp only
  repeat' first
    | with_reducible assumption
    | exact sub_of hk (by decide)
    | with_reducible apply bump_kept
    | with_reducible apply bumpDict_kept
    | with_reducible apply bumpLedger_kept
    | with_reducible apply kept_ite

theorem fresh_kept {ks : List Part} {r s : State} (h : Kept ks r s) (hk : [.free] ⊆ ks := by first | assumption | exact sub_of (by assumption) (by decide)) : Kept ks r (fresh s).2 :=
  ⟨h.mem, h.pending, h.sent, h.frames, h.free.trans (Nat.le_succ _), h.only.trans (by constructor <;> intro hp <;> first | exact absurd (sub_mem hk (by decide)) hp | rfl)⟩

end Sys2Proof.Machine
end

