-- ==== Sys2Proof/Laws/KeptMemOps.lean ====
section
/-! SUPPORT. What the operations of Machine/MemOps.lean keep (Laws/Kept.lean). -/

set_option Elab.async false

namespace Sys2Proof.Machine

theorem countCorrected_kept {ks : List Part} {r : State} (k : Nat) {s : State} (h : Kept ks r s) (hk : [.regs, .dict, .sat, .host, .logs, .wear] ⊆ ks := by first | assumption | exact sub_of (by assumption) (by decide)) : Kept ks r (countCorrected k s) := by
  unfold countCorrected
  try dsimp only
  repeat' first
    | with_reducible assumption
    | exact sub_of hk (by decide)
    | with_reducible apply bumpDict_kept
    | with_reducible apply setBit_kept
    | with_reducible apply bump_kept
    | split
    | with_reducible refine kept_mk ?_ (by constructor <;> intro hp <;> first | exact absurd (sub_mem hk (by decide)) hp | rfl) (by rfl) (by rfl)

theorem countPoison_kept {ks : List Part} {r : State} (k : Nat) (client : Nat) (scrub : Bool) {s : State} (h : Kept ks r s) (hk : [.regs, .dict, .sat, .clients, .host, .logs] ⊆ ks := by first | assumption | exact sub_of (by assumption) (by decide)) : Kept ks r (countPoison k client scrub s) := by
  unfold countPoison
  try dsimp only
  repeat' first
    | with_reducible assumption
    | exact sub_of hk (by decide)
    | with_reducible apply postUncorr_kept
    | with_reducible apply bumpDict_kept
    | with_reducible apply setBit_kept
    | with_reducible apply bump_kept
    | split

theorem readWord_kept {ks : List Part} {r : State} (client : Nat) (scrub : Bool) (k : Nat) {s : State} (h : Kept ks r s) (hk : [.mem, .regs, .dict, .sat, .clients, .host, .logs, .wear] ⊆ ks := by first | assumption | exact sub_of (by assumption) (by decide)) : Kept ks r (readWord client scrub k s).2 := by
  unfold readWord
  try dsimp only
  repeat' first
    | with_reducible assumption
    | exact sub_of hk (by decide)
    | with_reducible apply countPoison_kept
    | with_reducible apply countCorrected_kept
    | split
    | with_reducible refine kept_mk_mem ?_ (by constructor <;> intro hp <;> first | exact absurd (sub_mem hk (by decide)) hp | rfl) (Memory.wf_setWord _ _ _) (by rfl) (by rfl)

theorem writeWord_kept {ks : List Part} {r : State} (k : Nat) (v : Word) {s : State} (h : Kept ks r s) (hk : [.mem] ⊆ ks := by first | assumption | exact sub_of (by assumption) (by decide)) : Kept ks r (writeWord k v s) := by
  unfold writeWord
  try dsimp only
  repeat' first
    | with_reducible assumption
    | with_reducible apply kept_ite
    | split
    | with_reducible refine kept_mk_mem ?_ (by constructor <;> intro hp <;> first | exact absurd (sub_mem hk (by decide)) hp | rfl) (Memory.wf_setWord _ _ _) (by rfl) (by rfl)

theorem poisonWord_kept {ks : List Part} {r : State} (k : Nat) (v : Word) {s : State} (h : Kept ks r s) (hk : [.mem] ⊆ ks := by first | assumption | exact sub_of (by assumption) (by decide)) : Kept ks r (poisonWord k v s) := by
  unfold poisonWord
  try dsimp only
  repeat' first
    | with_reducible assumption
    | with_reducible apply kept_ite
    | split
    | with_reducible refine kept_mk_mem ?_ (by constructor <;> intro hp <;> first | exact absurd (sub_mem hk (by decide)) hp | rfl) (Memory.wf_setWord _ _ _) (by rfl) (by rfl)

theorem wakeBank_kept {ks : List Part} {r : State} (a : Nat) {s : State} (h : Kept ks r s) (hk : [.banks] ⊆ ks := by first | assumption | exact sub_of (by assumption) (by decide)) : Kept ks r (wakeBank a s) := by
  unfold wakeBank
  try dsimp only
  repeat' first
    | with_reducible assumption
    | split
    | with_reducible refine kept_mk ?_ (by constructor <;> intro hp <;> first | exact absurd (sub_mem hk (by decide)) hp | rfl) (by rfl) (by rfl)

theorem noteServed_kept {ks : List Part} {r : State} (unit : Nat) (client : Nat) (n : Nat) {s : State} (h : Kept ks r s) (hk : [.served] ⊆ ks := by first | assumption | exact sub_of (by assumption) (by decide)) : Kept ks r (noteServed unit client n s) := by
  unfold noteServed
  try dsimp only
  repeat' first
    | with_reducible assumption
    | with_reducible apply kept_ite
    | with_reducible refine kept_mk ?_ (by constructor <;> intro hp <;> first | exact absurd (sub_mem hk (by decide)) hp | rfl) (by rfl) (by rfl)

theorem countBytes_kept {ks : List Part} {r : State} (client : Nat) (write : Bool) (a : Nat) (n : Nat) {s : State} (h : Kept ks r s) (hk : [.regs, .sat, .host, .logs, .ledger, .served] ⊆ ks := by first | assumption | exact sub_of (by assumption) (by decide)) : Kept ks r (countBytes client write a n s) := by
  unfold countBytes
  try dsimp only
  repeat' first
    | with_reducible assumption
    | exact sub_of hk (by decide)
    | with_reducible apply noteServed_kept
    | with_reducible apply bumpLedger_kept
    | with_reducible apply bump_kept
    | split

theorem crossBridge_kept {ks : List Part} {r : State} (client : Nat) (a : Nat) (b : Nat) (n : Nat) {s : State} (h : Kept ks r s) (hk : [.sat, .host, .logs, .ledger] ⊆ ks := by first | assumption | exact sub_of (by assumption) (by decide)) : Kept ks r (crossBridge client a b n s) := by
  unfold crossBridge
  try dsimp only
  repeat' first
    | with_reducible assumption
    | with_reducible apply bumpLedger_kept

theorem readMem_kept {ks : List Part} {r : State} (client : Nat) (scrub : Bool) (a : Nat) (n : Nat) {s : State} (h : Kept ks r s) (hk : [.mem, .regs, .dict, .sat, .banks, .clients, .host, .logs, .wear, .ledger, .served] ⊆ ks := by first | assumption | exact sub_of (by assumption) (by decide)) : Kept ks r (readMem client scrub a n s).2 := by
  unfold readMem
  try dsimp only
  repeat' first
    | with_reducible assumption
    | exact sub_of hk (by decide)
    | intro _
    | with_reducible apply readWord_kept
    | with_reducible apply wakeBank_kept
    | with_reducible apply countBytes_kept
    | with_reducible apply kept_foldl_snd

theorem writePart_kept {ks : List Part} {r : State} (client : Nat) (k : Nat) (off : Nat) (bs : List Byte) {s : State} (h : Kept ks r s) (hk : [.mem, .regs, .dict, .sat, .clients, .host, .logs, .wear] ⊆ ks := by first | assumption | exact sub_of (by assumption) (by decide)) : Kept ks r (writePart client k off bs s) := by
  unfold writePart
  try dsimp only
  repeat' first
    | with_reducible assumption
    | exact sub_of hk (by decide)
    | with_reducible apply writeWord_kept
    | with_reducible apply readWord_kept
    | with_reducible apply kept_ite

theorem writeMem_kept {ks : List Part} {r : State} (client : Nat) (a : Nat) (bs : List Byte) {s : State} (h : Kept ks r s) (hk : [.mem, .regs, .dict, .sat, .banks, .clients, .host, .logs, .wear, .ledger, .served] ⊆ ks := by first | assumption | exact sub_of (by assumption) (by decide)) : Kept ks r (writeMem client a bs s) := by
  unfold writeMem
  try dsimp only
  repeat' first
    | with_reducible assumption
    | exact sub_of hk (by decide)
    | intro _
    | with_reducible apply writePart_kept
    | with_reducible apply wakeBank_kept
    | with_reducible apply countBytes_kept
    | with_reducible apply kept_foldl

theorem setEnt_kept {ks : List Part} {r : State} (name : Nat) (e : Entry) {s : State} (h : Kept ks r s) (hk : [.cat] ⊆ ks := by first | assumption | exact sub_of (by assumption) (by decide)) : Kept ks r (setEnt name e s) := by
  unfold setEnt
  try dsimp only
  repeat' first
    | with_reducible assumption
    | with_reducible refine kept_mk ?_ (by constructor <;> intro hp <;> first | exact absurd (sub_mem hk (by decide)) hp | rfl) (by rfl) (by rfl)

theorem readBuf_kept {ks : List Part} {r : State} (client : Nat) (e : Entry) (die : Nat) (off : Nat) (n : Nat) {s : State} (h : Kept ks r s) (hk : [.mem, .regs, .dict, .sat, .banks, .clients, .host, .logs, .wear, .ledger, .served] ⊆ ks := by first | assumption | exact sub_of (by assumption) (by decide)) : Kept ks r (readBuf client e die off n s).2 := by
  unfold readBuf
  try dsimp only
  repeat' first
    | with_reducible assumption
    | intro _
    | with_reducible apply readMem_kept
    | with_reducible apply kept_foldl_snd

theorem writeBuf_kept {ks : List Part} {r : State} (client : Nat) (e : Entry) (die : Nat) (off : Nat) (bs : List Byte) {s : State} (h : Kept ks r s) (hk : [.mem, .regs, .dict, .sat, .banks, .clients, .host, .logs, .wear, .ledger, .served] ⊆ ks := by first | assumption | exact sub_of (by assumption) (by decide)) : Kept ks r (writeBuf client e die off bs s) := by
  unfold writeBuf
  try dsimp only
  repeat' first
    | with_reducible assumption
    | intro _
    | with_reducible apply writeMem_kept
    | with_reducible apply kept_foldl

theorem setSlot_kept {ks : List Part} {r : State} (name : Nat) (i : Nat) (f : Bool) {s : State} (h : Kept ks r s) (hk : [.cat] ⊆ ks := by first | assumption | exact sub_of (by assumption) (by decide)) : Kept ks r (setSlot name i f s) := by
  unfold setSlot
  try dsimp only
  repeat' first
    | with_reducible assumption
    | with_reducible refine kept_mk ?_ (by constructor <;> intro hp <;> first | exact absurd (sub_mem hk (by decide)) hp | rfl) (by rfl) (by rfl)

theorem afterWrite_kept {ks : List Part} {r : State} (name : Nat) (e : Entry) (off : Nat) (n : Nat) {s : State} (h : Kept ks r s) (hk : [.cat] ⊆ ks := by first | assumption | exact sub_of (by assumption) (by decide)) : Kept ks r (afterWrite name e off n s) := by
  unfold afterWrite
  try dsimp only
  repeat' first
    | with_reducible assumption
    | intro _
    | with_reducible apply setSlot_kept
    | with_reducible apply kept_ite
    | with_reducible apply kept_foldl

theorem afterConsume_kept {ks : List Part} {r : State} (name : Nat) (e : Entry) (off : Nat) (n : Nat) {s : State} (h : Kept ks r s) (hk : [.cat] ⊆ ks := by first | assumption | exact sub_of (by assumption) (by decide)) : Kept ks r (afterConsume name e off n s) := by
  unfold afterConsume
  try dsimp only
  repeat' first
    | with_reducible assumption
    | intro _
    | with_reducible apply setSlot_kept
    | with_reducible apply kept_ite
    | with_reducible apply kept_foldl

theorem putBuf_kept {ks : List Part} {r : State} (client : Nat) (name : Nat) (e : Entry) (off : Nat) (bs : List Byte) {s : State} (h : Kept ks r s) (hk : [.mem, .regs, .dict, .sat, .cat, .banks, .clients, .host, .logs, .wear, .ledger, .served] ⊆ ks := by first | assumption | exact sub_of (by assumption) (by decide)) : Kept ks r (putBuf client name e off bs s) := by
  unfold putBuf
  try dsimp only
  repeat' first
    | with_reducible assumption
    | exact sub_of hk (by decide)
    | with_reducible apply afterWrite_kept
    | with_reducible apply writeBuf_kept

theorem windowRefused_kept {ks : List Part} {r : State} (w : Writer) (name : Nat) (off : Nat) {s : State} (h : Kept ks r s) (hk : [.dict, .sat, .host, .logs] ⊆ ks := by first | assumption | exact sub_of (by assumption) (by decide)) : Kept ks r (windowRefused w name off s) := by
  unfold windowRefused
  try dsimp only
  repeat' first
    | with_reducible assumption
    | exact sub_of hk (by decide)
    | with_reducible apply post_kept
    | with_reducible apply bumpDict_kept

theorem engineWrite_kept {ks : List Part} {r : State} (client : Nat) (d : Nat) (eng : Nat) (name : Nat) (e : Entry) (off : Nat) (bs : List Byte) {s : State} (h : Kept ks r s) (hk : [.mem, .regs, .dict, .sat, .cat, .banks, .clients, .host, .logs, .wear, .ledger, .served] ⊆ ks := by first | assumption | exact sub_of (by assumption) (by decide)) : Kept ks r (engineWrite client d eng name e off bs s).1 := by
  unfold engineWrite
  try dsimp only
  repeat' first
    | with_reducible assumption
    | exact sub_of hk (by decide)
    | with_reducible apply putBuf_kept
    | with_reducible apply crossBridge_kept
    | with_reducible apply windowRefused_kept
    | split

end Sys2Proof.Machine
end

