-- ==== Sys2Proof/Laws/KeptGovTable.lean ====
section
/-! SUPPORT. What the operations of Machine/GovTable.lean keep (Laws/Kept.lean). -/

set_option Elab.async false

namespace Sys2Proof.Machine

theorem setLayerState_kept {ks : List Part} {r : State} (client : Nat) (g : Nat) (l : Nat) (k : Nat) (v : Word) {s : State} (h : Kept ks r s) (hk : [.mem, .regs, .dict, .sat, .banks, .clients, .host, .logs, .wear, .ledger, .served] ⊆ ks := by first | assumption | exact sub_of (by assumption) (by decide)) : Kept ks r (setLayerState client g l k v s) := by
  unfold setLayerState
  try dsimp only
  repeat' first
    | with_reducible assumption
    | with_reducible apply writeBuf_kept

end Sys2Proof.Machine
end

