-- ==== Sys2Proof/Laws/KeptIssue.lean ====
section
/-! SUPPORT. What the operations of Machine/Issue.lean keep (Laws/Kept.lean). -/

set_option Elab.async false

namespace Sys2Proof.Machine

theorem setTok_kept {ks : List Part} {r : State} (die : Nat) (file : Nat) (reg : Nat) (n : Nat) {s : State} (h : Kept ks r s) (hk : [.plates] ⊆ ks := by first | assumption | exact sub_of (by assumption) (by decide)) : Kept ks r (setTok die file reg n s) := by
  unfold setTok
  try dsimp only
  repeat' first
    | with_reducible assumption
    | with_reducible refine kept_mk ?_ (by constructor <;> intro hp <;> first | exact absurd (sub_mem hk (by decide)) hp | rfl) (by rfl) (by rfl)

theorem takeTokens_kept {ks : List Part} {r : State} (e : Eng) (c : PCmd) {s : State} (h : Kept ks r s) (hk : [.plates] ⊆ ks := by first | assumption | exact sub_of (by assumption) (by decide)) : Kept ks r (takeTokens e c s) := by
  unfold takeTokens
  try dsimp only
  repeat' first
    | with_reducible assumption
    | intro _
    | with_reducible apply setTok_kept
    | with_reducible apply kept_foldl

theorem postTok_kept {ks : List Part} {r : State} (e : Eng) (client : Nat) (file : Nat) (reg : Nat) (n : Nat) {s : State} (h : Kept ks r s) (hk : [.plates] ⊆ ks := by first | assumption | exact sub_of (by assumption) (by decide)) : Kept ks r (postTok e client file reg n s) := by
  unfold postTok
  try dsimp only
  repeat' first
    | with_reducible assumption
    | with_reducible refine kept_mk ?_ (by constructor <;> intro hp <;> first | exact absurd (sub_mem hk (by decide)) hp | rfl) (by rfl) (by rfl)

theorem postOuts_kept {ks : List Part} {r : State} (e : Eng) (client : Nat) (c : PCmd) {s : State} (h : Kept ks r s) (hk : [.plates] ⊆ ks := by first | assumption | exact sub_of (by assumption) (by decide)) : Kept ks r (postOuts e client c s) := by
  unfold postOuts
  try dsimp only
  repeat' first
    | with_reducible assumption
    | intro _
    | with_reducible apply postTok_kept
    | with_reducible apply kept_foldl

theorem setEng_kept {ks : List Part} {r : State} (e : Eng) (x : EngSt) {s : State} (h : Kept ks r s) (hk : [.plates] ⊆ ks := by first | assumption | exact sub_of (by assumption) (by decide)) : Kept ks r (setEng e x s) := by
  unfold setEng
  try dsimp only
  repeat' first
    | with_reducible assumption
    | with_reducible refine kept_mk ?_ (by constructor <;> intro hp <;> first | exact absurd (sub_mem hk (by decide)) hp | rfl) (by rfl) (by rfl)

theorem complete_kept {ks : List Part} {r : State} (id : Nat) {s : State} (h : Kept ks r s) (hk : [.plates] ⊆ ks := by first | assumption | exact sub_of (by assumption) (by decide)) : Kept ks r (complete id s) := by
  unfold complete
  try dsimp only
  repeat' first
    | with_reducible assumption
    | with_reducible apply postOuts_kept
    | with_reducible apply kept_ite
    | split
    | with_reducible refine kept_mk ?_ (by constructor <;> intro hp <;> first | exact absurd (sub_mem hk (by decide)) hp | rfl) (by rfl) (by rfl)

theorem postBatch_kept {ks : List Part} {r : State} (id : Nat) {s : State} (h : Kept ks r s) (hk : [.plates] ⊆ ks := by first | assumption | exact sub_of (by assumption) (by decide)) : Kept ks r (postBatch id s) := by
  unfold postBatch
  try dsimp only
  repeat' first
    | with_reducible assumption
    | with_reducible apply postOuts_kept
    | with_reducible apply kept_ite
    | split

theorem noteIllegal_kept {ks : List Part} {r : State} (e : Eng) (client : Nat) (w : WinCmd) {s : State} (h : Kept ks r s) (hk : [.regs, .host, .logs] ⊆ ks := by first | assumption | exact sub_of (by assumption) (by decide)) : Kept ks r (noteIllegal e client w s) := by
  unfold noteIllegal
  try dsimp only
  repeat' first
    | with_reducible assumption
    | exact sub_of hk (by decide)
    | with_reducible apply post_kept
    | with_reducible apply setBit_kept

theorem refuse_kept {ks : List Part} {r : State} (id : Nat) {s : State} (h : Kept ks r s) (hk : [.regs, .plates, .host, .logs] ⊆ ks := by first | assumption | exact sub_of (by assumption) (by decide)) : Kept ks r (refuse id s) := by
  unfold refuse
  try dsimp only
  repeat' first
    | with_reducible assumption
    | exact sub_of hk (by decide)
    | with_reducible apply complete_kept
    | with_reducible apply noteIllegal_kept
    | split

/-- A property of the state that an issue attempt leaves. -/
def Issued.all (p : State → Prop) : Issued → Prop
  | .wait _ => True
  | .skip t => p t
  | .refused t => p t
  | .go t _ _ => p t

theorem Issued.all_ite {p : State → Prop} {c : Prop} [Decidable c] {a b : Issued} (ha : a.all p) (hb : b.all p) :
    (if c then a else b).all p := by split <;> assumption

theorem issue_kept {ks : List Part} {r : State} (hold : Option Nat) (e : Eng) (c : PCmd) {s : State} (h : Kept ks r s) (hk : [.regs, .dict, .sat, .plates, .host, .logs] ⊆ ks := by first | assumption | exact sub_of (by assumption) (by decide)) :
    (issue hold e c s).all (Kept ks r) := by
  unfold issue
  obtain ⟨es, w, rest, inWin⟩ := locate s e c
  refine Issued.all_ite trivial (Issued.all_ite trivial (Issued.all_ite trivial (Issued.all_ite trivial ?_)))
  split
  · trivial
  · refine Issued.all_ite (noteIllegal_kept _ _ _ (setEng_kept _ _ h)) (Issued.all_ite ?_ ?_)
    · exact postOuts_kept _ _ _ (bumpDict_kept _ _ (takeTokens_kept _ _ (setEng_kept _ _ h)))
    · exact kept_mk (takeTokens_kept _ _ (setEng_kept _ _ h)) (by constructor <;> intro hp <;> first | exact absurd (sub_mem hk (by decide)) hp | rfl) rfl rfl

theorem withIssue_kept {ks : List Part} {r : State} (hold : Option Nat) (e : Eng) (c : PCmd) {s : State}
    {k : State → WinCmd → Nat → State} (h : Kept ks r s) (hc : ∀ s w id, Kept ks r s → Kept ks r (k s w id)) (hk : [.regs, .dict, .sat, .plates, .host, .logs, .ledger] ⊆ ks := by first | assumption | exact sub_of (by assumption) (by decide)) :
    Kept ks r (withIssue hold e c s k) := by
  unfold withIssue
  have hi := issue_kept hold e c h
  split
  · exact h
  · split <;> rename_i he <;> rw [he] at hi
    · exact charge_kept _ _ h
    · exact charge_kept _ _ hi
    · exact charge_kept _ _ hi
    · exact charge_kept _ _ (kept_ite (refuse_kept _ hi) (hc _ _ _ hi))

theorem raiseFault_kept {ks : List Part} {r : State} (client : Nat) (code : Nat) (detail : Nat) {s : State} (h : Kept ks r s) (hk : [.clients, .host, .logs] ⊆ ks := by first | assumption | exact sub_of (by assumption) (by decide)) : Kept ks r (raiseFault client code detail s) := by
  unfold raiseFault
  try dsimp only
  repeat' first
    | with_reducible assumption
    | exact sub_of hk (by decide)
    | with_reducible apply post_kept
    | with_reducible apply setClient_kept
    | with_reducible apply kept_ite
    | split

end Sys2Proof.Machine
end

