-- ==== Sys2Proof/Laws/KeptCatOps.lean ====
section
/-! SUPPORT. What the operations of Machine/CatOps.lean keep (Laws/Kept.lean). -/

set_option Elab.async false

namespace Sys2Proof.Machine

theorem claimLines_kept {ks : List Part} {r : State} (d : Nat) (e : Entry) {s : State} (h : Kept ks r s) (hk : [.mem] ⊆ ks := by first | assumption | exact sub_of (by assumption) (by decide)) : Kept ks r (claimLines d e s) :=
  kept_mk_mem h (by constructor <;> intro hp <;> first | exact absurd (sub_mem hk (by decide)) hp | rfl) (fun hm => Memory.wf_owner hm (mwf_foldl _ (Memory.owner_wf hm) fun _ _ hx => mwf_mset _ _ hx)) rfl rfl

theorem uncacheName_kept {ks : List Part} {r : State} (name : Nat) {s : State} (h : Kept ks r s) (hk : [.plates] ⊆ ks := by first | assumption | exact sub_of (by assumption) (by decide)) : Kept ks r (uncacheName name s) := by
  unfold uncacheName
  try dsimp only
  repeat' first
    | with_reducible assumption
    | with_reducible refine kept_mk ?_ (by constructor <;> intro hp <;> first | exact absurd (sub_mem hk (by decide)) hp | rfl) (by rfl) (by rfl)

theorem clearSlots_kept {ks : List Part} {r : State} (name : Nat) {s : State} (h : Kept ks r s) (hk : [.cat] ⊆ ks := by first | assumption | exact sub_of (by assumption) (by decide)) : Kept ks r (clearSlots name s) := by
  unfold clearSlots
  try dsimp only
  repeat' first
    | with_reducible assumption
    | with_reducible refine kept_mk ?_ (by constructor <;> intro hp <;> first | exact absurd (sub_mem hk (by decide)) hp | rfl) (by rfl) (by rfl)

theorem applyEntry_kept {ks : List Part} {r : State} (name : Nat) (new : Entry) (full : Bool) {s : State} (h : Kept ks r s) (hk : [.mem, .cat, .plates] ⊆ ks := by first | assumption | exact sub_of (by assumption) (by decide)) : Kept ks r (applyEntry name new full s) := by
  unfold applyEntry
  try dsimp only
  repeat' first
    | with_reducible assumption
    | exact sub_of hk (by decide)
    | with_reducible apply setEnt_kept
    | with_reducible apply uncacheName_kept
    | with_reducible apply clearSlots_kept
    | with_reducible apply claimLines_kept
    | with_reducible apply kept_ite

theorem noteCatRefused_kept {ks : List Part} {r : State} (path : Option Nat) (d : Nat) (h0 : Nat) (reason : Nat) {s : State} (h : Kept ks r s) (hk : [.dict, .sat, .host, .logs] ⊆ ks := by first | assumption | exact sub_of (by assumption) (by decide)) : Kept ks r (noteCatRefused path d h0 reason s) := by
  unfold noteCatRefused
  try dsimp only
  repeat' first
    | with_reducible assumption
    | exact sub_of hk (by decide)
    | with_reducible apply post_kept
    | with_reducible apply bumpDict_kept

theorem noteStageRefused_kept {ks : List Part} {r : State} (c : Nat) (r0 : CatRec) {s : State} (h : Kept ks r s) (hk : [.clients] ⊆ ks := by first | assumption | exact sub_of (by assumption) (by decide)) : Kept ks r (noteStageRefused c r0 s) := by
  unfold noteStageRefused
  try dsimp only
  repeat' first
    | with_reducible assumption
    | with_reducible apply setClient_kept
    | with_reducible apply kept_ite
    | split

theorem catWrite_kept {ks : List Part} {r : State} (path : Option Nat) (d : DieId) (r0 : CatRec) {s : State} (h : Kept ks r s) (hk : [.mem, .dict, .sat, .cat, .plates, .clients, .host, .logs] ⊆ ks := by first | assumption | exact sub_of (by assumption) (by decide)) : Kept ks r (catWrite path d r0 s).2 := by
  unfold catWrite
  try dsimp only
  repeat' first
    | with_reducible assumption
    | exact sub_of hk (by decide)
    | with_reducible apply noteCatRefused_kept
    | with_reducible apply noteStageRefused_kept
    | with_reducible apply applyEntry_kept
    | split
    | dsimp only
    | with_reducible refine kept_mk ?_ (by constructor <;> intro hp <;> first | exact absurd (sub_mem hk (by decide)) hp | rfl) (by rfl) (by rfl)

theorem commitStaged_kept {ks : List Part} {r : State} (d : DieId) (c : Nat) {s : State} (h : Kept ks r s) (hk : [.mem, .cat, .plates] ⊆ ks := by first | assumption | exact sub_of (by assumption) (by decide)) : Kept ks r (commitStaged d c s) := by
  unfold commitStaged
  try dsimp only
  repeat' first
    | with_reducible assumption
    | intro _
    | with_reducible apply applyEntry_kept
    | with_reducible apply kept_foldl
    | with_reducible refine kept_mk ?_ (by constructor <;> intro hp <;> first | exact absurd (sub_mem hk (by decide)) hp | rfl) (by rfl) (by rfl)

theorem discardStaged_kept {ks : List Part} {r : State} (d : DieId) (c : Nat) {s : State} (h : Kept ks r s) (hk : [.cat] ⊆ ks := by first | assumption | exact sub_of (by assumption) (by decide)) : Kept ks r (discardStaged d c s) := by
  unfold discardStaged
  try dsimp only
  repeat' first
    | with_reducible assumption
    | with_reducible refine kept_mk ?_ (by constructor <;> intro hp <;> first | exact absurd (sub_mem hk (by decide)) hp | rfl) (by rfl) (by rfl)

theorem portCatWrite_kept {ks : List Part} {r : State} (d : DieId) (a : Agent) (r0 : CatRec) {s : State} (h : Kept ks r s) (hk : [.mem, .regs, .dict, .sat, .cat, .plates, .clients, .host, .logs] ⊆ ks := by first | assumption | exact sub_of (by assumption) (by decide)) : Kept ks r (portCatWrite d a r0 s) := by
  unfold portCatWrite
  try dsimp only
  repeat' first
    | with_reducible assumption
    | exact sub_of hk (by decide)
    | with_reducible apply post_kept
    | with_reducible apply catWrite_kept
    | with_reducible apply setReg_kept
    | with_reducible apply kept_ite
    | with_reducible refine kept_snd (by assumption) ?_
    | split
    | with_reducible refine kept_mk ?_ (by constructor <;> intro hp <;> first | exact absurd (sub_mem hk (by decide)) hp | rfl) (by rfl) (by rfl)

theorem execCatalogWrite_kept {ks : List Part} {r out : State} (d : DieId) (a : Agent) (r0 : CatRec) {s : State} (h : Kept ks r s) (he : execCatalogWrite d a r0 s = .next out) (hk : [.mem, .regs, .dict, .sat, .cat, .plates, .clients, .host, .logs] ⊆ ks := by first | assumption | exact sub_of (by assumption) (by decide)) : Kept ks r out := by
  unfold execCatalogWrite at he
  refine kept_next he ?_
  clear he
  try dsimp only
  repeat' first
    | with_reducible assumption
    | with_reducible apply portCatWrite_kept

theorem execCatalogWriteStaged_kept {ks : List Part} {r out : State} (d : DieId) (a : Agent) (r0 : CatRec) {s : State} (h : Kept ks r s) (he : execCatalogWriteStaged d a r0 s = .next out) (hk : [.mem, .regs, .dict, .sat, .cat, .plates, .clients, .host, .logs] ⊆ ks := by first | assumption | exact sub_of (by assumption) (by decide)) : Kept ks r out := by
  unfold execCatalogWriteStaged at he
  refine kept_next he ?_
  clear he
  try dsimp only
  repeat' first
    | with_reducible assumption
    | with_reducible apply portCatWrite_kept

theorem execCatalogWriteWindow_kept {ks : List Part} {r out : State} (d : DieId) (a : Agent) (r0 : CatRec) {s : State} (h : Kept ks r s) (he : execCatalogWriteWindow d a r0 s = .next out) (hk : [.mem, .regs, .dict, .sat, .cat, .plates, .clients, .host, .logs] ⊆ ks := by first | assumption | exact sub_of (by assumption) (by decide)) : Kept ks r out := by
  unfold execCatalogWriteWindow at he
  refine kept_next he ?_
  clear he
  try dsimp only
  repeat' first
    | with_reducible assumption
    | with_reducible apply portCatWrite_kept

theorem execCatalogWriteUndef_kept {ks : List Part} {r out : State} (d : DieId) (a : Agent) (r0 : CatRec) {s : State} (h : Kept ks r s) (he : execCatalogWriteUndef d a r0 s = .next out) (hk : [.mem, .regs, .dict, .sat, .cat, .plates, .clients, .host, .logs] ⊆ ks := by first | assumption | exact sub_of (by assumption) (by decide)) : Kept ks r out := by
  unfold execCatalogWriteUndef at he
  refine kept_next he ?_
  clear he
  try dsimp only
  repeat' first
    | with_reducible assumption
    | with_reducible apply portCatWrite_kept

theorem finishClosing_kept {ks : List Part} {r : State} (d : DieId) {s : State} (x : Closing) (h : Kept ks r s) (hk : [.regs, .plates] ⊆ ks := by first | assumption | exact sub_of (by assumption) (by decide)) : Kept ks r (finishClosing d s x) := by
  unfold finishClosing
  try dsimp only
  repeat' first
    | with_reducible assumption
    | exact sub_of hk (by decide)
    | with_reducible apply setReg_kept
    | with_reducible apply complete_kept
    | split

theorem execWindowCloseComplete_kept {ks : List Part} {r out : State} (d : DieId) (h0 : Nat) {s : State} (h : Kept ks r s) (he : execWindowCloseComplete d h0 s = .next out) (hk : [.regs, .cat, .plates] ⊆ ks := by first | assumption | exact sub_of (by assumption) (by decide)) : Kept ks r out := by
  unfold execWindowCloseComplete at he
  refine kept_next he ?_
  clear he
  try dsimp only
  repeat' first
    | with_reducible assumption
    | exact sub_of hk (by decide)
    | intro _
    | with_reducible apply finishClosing_kept
    | with_reducible apply kept_ite
    | with_reducible apply kept_foldl
    | with_reducible refine kept_mk ?_ (by constructor <;> intro hp <;> first | exact absurd (sub_mem hk (by decide)) hp | rfl) (by rfl) (by rfl)

theorem execCatalogDiscard_kept {ks : List Part} {r out : State} (d : DieId) (c : ClientId) {s : State} (h : Kept ks r s) (he : execCatalogDiscard d c s = .next out) (hk : [.cat] ⊆ ks := by first | assumption | exact sub_of (by assumption) (by decide)) : Kept ks r out := by
  unfold execCatalogDiscard at he
  refine kept_next he ?_
  clear he
  try dsimp only
  repeat' first
    | with_reducible assumption
    | with_reducible apply discardStaged_kept

end Sys2Proof.Machine
end

