-- ==== Sys2Proof/Laws/KeptPlanTime.lean ====
section
/-! SUPPORT. What the operations of Machine/PlanTime.lean keep (Laws/Kept.lean). -/

set_option Elab.async false

namespace Sys2Proof.Machine

theorem updStep_kept {ks : List Part} {r : State} (c : Nat) (f : StepSt → StepSt) {s : State} (h : Kept ks r s) (hk : [.clients] ⊆ ks := by first | assumption | exact sub_of (by assumption) (by decide)) : Kept ks r (updStep c f s) := by
  unfold updStep
  try dsimp only
  repeat' first
    | with_reducible assumption
    | with_reducible apply setClient_kept
    | split

theorem dueCommits_kept {ks : List Part} {r : State} (d : DieId) {s : State} (h : Kept ks r s) (hk : [.mem, .cat, .plates] ⊆ ks := by first | assumption | exact sub_of (by assumption) (by decide)) : Kept ks r (dueCommits d s) := by
  unfold dueCommits
  try dsimp only
  repeat' first
    | with_reducible assumption
    | intro _
    | with_reducible apply commitStaged_kept
    | with_reducible apply kept_foldl
    | with_reducible refine kept_mk ?_ (by constructor <;> intro hp <;> first | exact absurd (sub_mem hk (by decide)) hp | rfl) (by rfl) (by rfl)

theorem keepCommits_kept {ks : List Part} {r : State} (c : Nat) (base : Nat) {s : State} (h : Kept ks r s) (hk : [.cat] ⊆ ks := by first | assumption | exact sub_of (by assumption) (by decide)) : Kept ks r (keepCommits c base s) := by
  unfold keepCommits
  try dsimp only
  repeat' first
    | with_reducible assumption
    | with_reducible refine kept_mk ?_ (by constructor <;> intro hp <;> first | exact absurd (sub_mem hk (by decide)) hp | rfl) (by rfl) (by rfl)

theorem queueCommit_kept {ks : List Part} {r : State} (d : DieId) (c : Nat) (tick : Nat) {s : State} (h : Kept ks r s) (hk : [.cat, .host, .logs] ⊆ ks := by first | assumption | exact sub_of (by assumption) (by decide)) : Kept ks r (queueCommit d c tick s).2 := by
  unfold queueCommit
  try dsimp only
  repeat' first
    | with_reducible assumption
    | exact sub_of hk (by decide)
    | with_reducible apply post_kept
    | split
    | with_reducible refine kept_mk ?_ (by constructor <;> intro hp <;> first | exact absurd (sub_mem hk (by decide)) hp | rfl) (by rfl) (by rfl)

theorem execCatalogCommit_kept {ks : List Part} {r out : State} (d : DieId) (c : ClientId) (tick : Nat) {s : State} (h : Kept ks r s) (he : execCatalogCommit d c tick s = .next out) (hk : [.cat, .host, .logs] ⊆ ks := by first | assumption | exact sub_of (by assumption) (by decide)) : Kept ks r out := by
  unfold execCatalogCommit at he
  refine kept_next he ?_
  clear he
  try dsimp only
  repeat' first
    | with_reducible assumption
    | with_reducible apply queueCommit_kept

end Sys2Proof.Machine
end

