-- ==== Sys2Proof/Laws/KeptWearOps.lean ====
section
/-! SUPPORT. What the operations of Machine/WearOps.lean keep (Laws/Kept.lean). -/

set_option Elab.async false

namespace Sys2Proof.Machine

theorem setErrata_kept {ks : List Part} {r : State} (l : List Errata) {s : State} (h : Kept ks r s) (hk : [.dict, .wearS] ⊆ ks := by first | assumption | exact sub_of (by assumption) (by decide)) : Kept ks r (setErrata l s) := by
  unfold setErrata
  try dsimp only
  repeat' first
    | with_reducible assumption
    | exact sub_of hk (by decide)
    | with_reducible apply setDict_kept
    | with_reducible refine kept_mk ?_ (by constructor <;> intro hp <;> first | exact absurd (sub_mem hk (by decide)) hp | rfl) (by rfl) (by rfl)

theorem recordSwap_kept {ks : List Part} {r : State} (kind : Nat) (die : Nat) (unit : Nat) (frm : Nat) (dst : Nat) (cause : Nat) (row : Nat) {s : State} (h : Kept ks r s) (hk : [.dict, .sat, .host, .logs, .wearS] ⊆ ks := by first | assumption | exact sub_of (by assumption) (by decide)) : Kept ks r (recordSwap kind die unit frm dst cause row s) := by
  unfold recordSwap
  try dsimp only
  repeat' first
    | with_reducible assumption
    | exact sub_of hk (by decide)
    | with_reducible apply bumpDict_kept
    | with_reducible apply post_kept
    | with_reducible apply setErrata_kept
    | with_reducible apply kept_ite

theorem takeSwap_kept {ks : List Part} {r : State} (kind : Nat) (die : Nat) (unit : Nat) (item : Nat) {s : State} (h : Kept ks r s) (hk : [.wearS, .free] ⊆ ks := by first | assumption | exact sub_of (by assumption) (by decide)) : Kept ks r (takeSwap kind die unit item s).2 := by
  unfold takeSwap
  try dsimp only
  repeat' first
    | with_reducible assumption
    | exact sub_of hk (by decide)
    | with_reducible apply fresh_kept
    | split
    | dsimp only
    | with_reducible refine kept_mk ?_ (by constructor <;> intro hp <;> first | exact absurd (sub_mem hk (by decide)) hp | rfl) (by rfl) (by rfl)

theorem doneSwap_kept {ks : List Part} {r : State} (kind : Nat) (die : Nat) (unit : Nat) (frm : Nat) (dst : Nat) {s : State} (h : Kept ks r s) (hk : [.dict, .sat, .host, .logs, .wearS, .free] ⊆ ks := by first | assumption | exact sub_of (by assumption) (by decide)) : Kept ks r (doneSwap kind die unit frm dst s) := by
  unfold doneSwap
  try dsimp only
  repeat' first
    | with_reducible assumption
    | exact sub_of hk (by decide)
    | with_reducible apply takeSwap_kept
    | with_reducible apply recordSwap_kept

theorem noSpare_kept {ks : List Part} {r : State} (kind : Nat) (die : Nat) (unit : Nat) (item : Nat) {s : State} (h : Kept ks r s) (hk : [.host, .logs, .wearS] ⊆ ks := by first | assumption | exact sub_of (by assumption) (by decide)) : Kept ks r (noSpare kind die unit item s) := by
  unfold noSpare
  try dsimp only
  repeat' first
    | with_reducible assumption
    | exact sub_of hk (by decide)
    | with_reducible apply post_kept
    | with_reducible apply kept_ite
    | with_reducible refine kept_mk ?_ (by constructor <;> intro hp <;> first | exact absurd (sub_mem hk (by decide)) hp | rfl) (by rfl) (by rfl)

end Sys2Proof.Machine
end

