-- ==== Sys2Proof/Laws/KeptFolio.lean ====
section
/-! SUPPORT. What the operations of Machine/Folio.lean keep (Laws/Kept.lean). -/

set_option Elab.async false

namespace Sys2Proof.Machine

theorem strike_kept {ks : List Part} {r : State} (us : List Upset) {s : State} (h : Kept ks r s) (hk : [.mem] ⊆ ks := by first | assumption | exact sub_of (by assumption) (by decide)) : Kept ks r (strike us s) := by
  refine kept_mk_mem h (by constructor <;> intro hp <;> first | exact absurd (sub_mem hk (by decide)) hp | rfl) (fun hm => ?_) rfl rfl
  induction us using List.reverseRecOn with
  | nil => exact hm
  | append_singleton us u ih =>
    rw [List.foldl_append]
    simp only [List.foldl_cons, List.foldl_nil]
    split
    · exact ih
    · exact Memory.wf_upset _ _ ih

theorem serveRead_kept {ks : List Part} {r : State} (e : Entry) (r0 : Access) {s : State} (h : Kept ks r s) (hk : [.mem, .regs, .dict, .sat, .cat, .banks, .clients, .host, .logs, .wear, .ledger, .served, .ports] ⊆ ks := by first | assumption | exact sub_of (by assumption) (by decide)) : Kept ks r (serveRead e r0 s) := by
  unfold serveRead
  try dsimp only
  repeat' first
    | with_reducible assumption
    | exact sub_of hk (by decide)
    | with_reducible apply readBuf_kept
    | with_reducible apply afterConsume_kept
    | with_reducible apply kept_ite
    | with_reducible refine kept_mk ?_ (by constructor <;> intro hp <;> first | exact absurd (sub_mem hk (by decide)) hp | rfl) (by rfl) (by rfl)

theorem addWaiter_kept {ks : List Part} {r : State} (w : Waiter) {s : State} (h : Kept ks r s) (hk : [.cat] ⊆ ks := by first | assumption | exact sub_of (by assumption) (by decide)) : Kept ks r (addWaiter w s) := by
  unfold addWaiter
  try dsimp only
  repeat' first
    | with_reducible assumption
    | with_reducible refine kept_mk ?_ (by constructor <;> intro hp <;> first | exact absurd (sub_mem hk (by decide)) hp | rfl) (by rfl) (by rfl)

theorem readAccess_kept {ks : List Part} {r : State} (kind : Nat) (r0 : Access) {s : State} (h : Kept ks r s) (hk : [.mem, .regs, .dict, .sat, .cat, .banks, .clients, .host, .logs, .wear, .ledger, .served, .ports] ⊆ ks := by first | assumption | exact sub_of (by assumption) (by decide)) : Kept ks r (readAccess kind r0 s) := by
  unfold readAccess
  try dsimp only
  repeat' first
    | with_reducible assumption
    | exact sub_of hk (by decide)
    | with_reducible apply addWaiter_kept
    | with_reducible apply serveRead_kept
    | with_reducible apply kept_ite
    | split

theorem writeAccess_kept {ks : List Part} {r : State} (kind : Nat) (r0 : Access) (data : List Byte) {s : State} (h : Kept ks r s) (hk : [.mem, .regs, .dict, .sat, .cat, .banks, .clients, .host, .logs, .wear, .ledger, .served] ⊆ ks := by first | assumption | exact sub_of (by assumption) (by decide)) : Kept ks r (writeAccess kind r0 data s) := by
  unfold writeAccess
  try dsimp only
  repeat' first
    | with_reducible assumption
    | exact sub_of hk (by decide)
    | with_reducible apply windowRefused_kept
    | with_reducible apply addWaiter_kept
    | with_reducible apply putBuf_kept
    | with_reducible apply kept_ite
    | split

theorem execFolioRead_kept {ks : List Part} {r out : State} (r0 : Access) (u : List Upset) {s : State} (h : Kept ks r s) (he : execFolioRead r0 u s = .next out) (hk : [.mem, .regs, .dict, .sat, .cat, .banks, .clients, .host, .logs, .wear, .ledger, .served, .ports] ⊆ ks := by first | assumption | exact sub_of (by assumption) (by decide)) : Kept ks r out := by
  unfold execFolioRead at he
  refine kept_next he ?_
  clear he
  try dsimp only
  repeat' first
    | with_reducible assumption
    | exact sub_of hk (by decide)
    | with_reducible apply readAccess_kept
    | with_reducible apply strike_kept

theorem execFolioWrite_kept {ks : List Part} {r out : State} (r0 : Access) (data : List Byte) (u : List Upset) {s : State} (h : Kept ks r s) (he : execFolioWrite r0 data u s = .next out) (hk : [.mem, .regs, .dict, .sat, .cat, .banks, .clients, .host, .logs, .wear, .ledger, .served] ⊆ ks := by first | assumption | exact sub_of (by assumption) (by decide)) : Kept ks r out := by
  unfold execFolioWrite at he
  refine kept_next he ?_
  clear he
  try dsimp only
  repeat' first
    | with_reducible assumption
    | exact sub_of hk (by decide)
    | with_reducible apply writeAccess_kept
    | with_reducible apply strike_kept

theorem dropAccepted_kept {ks : List Part} {r : State} (name : Nat) {s : State} (h : Kept ks r s) (hk : [.cat] ⊆ ks := by first | assumption | exact sub_of (by assumption) (by decide)) : Kept ks r (dropAccepted name s) := by
  unfold dropAccepted
  try dsimp only
  repeat' first
    | with_reducible assumption
    | with_reducible refine kept_mk ?_ (by constructor <;> intro hp <;> first | exact absurd (sub_mem hk (by decide)) hp | rfl) (by rfl) (by rfl)

theorem execSlotWaiterResume_kept {ks : List Part} {r out : State} (name : Nat) (slot : Nat) {s : State} (h : Kept ks r s) (he : execSlotWaiterResume name slot s = .next out) (hk : [.mem, .regs, .dict, .sat, .cat, .banks, .clients, .host, .logs, .wear, .ledger, .served, .ports] ⊆ ks := by first | assumption | exact sub_of (by assumption) (by decide)) : Kept ks r out := by
  unfold execSlotWaiterResume at he
  refine kept_next he ?_
  clear he
  try dsimp only
  repeat' first
    | with_reducible assumption
    | exact sub_of hk (by decide)
    | with_reducible apply dropAccepted_kept
    | with_reducible apply putBuf_kept
    | with_reducible apply serveRead_kept
    | with_reducible apply kept_ite
    | split
    | with_reducible refine kept_mk ?_ (by constructor <;> intro hp <;> first | exact absurd (sub_mem hk (by decide)) hp | rfl) (by rfl) (by rfl)

theorem execFolioScrub_kept {ks : List Part} {r out : State} (d : DieId) (bank : Nat) (line : Nat) (u : List Upset) {s : State} (h : Kept ks r s) (he : execFolioScrub d bank line u s = .next out) (hk : [.mem, .regs, .dict, .sat, .clients, .host, .logs, .wear] ⊆ ks := by first | assumption | exact sub_of (by assumption) (by decide)) : Kept ks r out := by
  unfold execFolioScrub at he
  refine kept_next he ?_
  clear he
  try dsimp only
  repeat' first
    | with_reducible assumption
    | exact sub_of hk (by decide)
    | intro _
    | with_reducible apply strike_kept
    | with_reducible apply readWord_kept
    | with_reducible apply kept_ite
    | with_reducible apply kept_foldl

theorem remoteWrite_kept {ks : List Part} {r : State} (w : Writer) (name : Nat) (off : Nat) (data : List Byte) {s : State} (h : Kept ks r s) (hk : [.mem, .regs, .dict, .sat, .cat, .banks, .clients, .host, .logs, .wear, .ledger, .served] ⊆ ks := by first | assumption | exact sub_of (by assumption) (by decide)) : Kept ks r (remoteWrite w name off data s) := by
  unfold remoteWrite
  try dsimp only
  repeat' first
    | with_reducible assumption
    | exact sub_of hk (by decide)
    | with_reducible apply windowRefused_kept
    | with_reducible apply addWaiter_kept
    | with_reducible apply putBuf_kept
    | with_reducible apply kept_ite
    | split
    | with_reducible refine kept_mk ?_ (by constructor <;> intro hp <;> first | exact absurd (sub_mem hk (by decide)) hp | rfl) (by rfl) (by rfl)

theorem execRemoteWrite_kept {ks : List Part} {r out : State} (w : Writer) (name : Nat) (off : Nat) (data : List Byte) {s : State} (h : Kept ks r s) (he : execRemoteWrite w name off data s = .next out) (hk : [.mem, .regs, .dict, .sat, .cat, .banks, .clients, .host, .logs, .wear, .ledger, .served] ⊆ ks := by first | assumption | exact sub_of (by assumption) (by decide)) : Kept ks r out := by
  unfold execRemoteWrite at he
  refine kept_next he ?_
  clear he
  try dsimp only
  repeat' first
    | with_reducible assumption
    | with_reducible apply remoteWrite_kept

theorem fopFill_kept {ks : List Part} {r : State} (client : Nat) (d : DieId) (r0 : FopRec) {s : State} (h : Kept ks r s) (hk : [.mem, .regs, .dict, .sat, .cat, .banks, .clients, .host, .logs, .wear, .ledger, .served] ⊆ ks := by first | assumption | exact sub_of (by assumption) (by decide)) : Kept ks r (fopFill client d r0 s) := by
  unfold fopFill
  try dsimp only
  repeat' first
    | with_reducible assumption
    | with_reducible apply putBuf_kept

theorem copyWord_kept {ks : List Part} {r : State} (client : Nat) (d : DieId) (de : Entry) (se : Entry) (doff : Nat) (soff : Nat) {acc : Bool × State} (i : Nat) (h : Kept ks r acc.2) (hk : [.mem, .regs, .dict, .sat, .banks, .clients, .host, .logs, .wear] ⊆ ks := by first | assumption | exact sub_of (by assumption) (by decide)) : Kept ks r (copyWord client d de se doff soff acc i).2 := by
  unfold copyWord
  try dsimp only
  repeat' first
    | with_reducible assumption
    | exact sub_of hk (by decide)
    | with_reducible apply readWord_kept
    | with_reducible apply wakeBank_kept
    | with_reducible apply poisonWord_kept
    | with_reducible apply writeWord_kept
    | with_reducible apply kept_ite

theorem fopCopy_kept {ks : List Part} {r : State} (client : Nat) (d : DieId) (r0 : FopRec) {s : State} (h : Kept ks r s) (hk : [.mem, .regs, .dict, .sat, .cat, .banks, .clients, .host, .logs, .wear] ⊆ ks := by first | assumption | exact sub_of (by assumption) (by decide)) : Kept ks r (fopCopy client d r0 s).2 := by
  unfold fopCopy
  try dsimp only
  repeat' first
    | with_reducible assumption
    | exact sub_of hk (by decide)
    | intro _
    | with_reducible apply copyWord_kept
    | with_reducible apply afterWrite_kept
    | with_reducible apply kept_foldl_snd

theorem fopLock_kept {ks : List Part} {r : State} (client : Nat) (me : Nat) (d : DieId) (r0 : FopRec) {s : State} (h : Kept ks r s) (hk : [.mem, .regs, .dict, .sat, .banks, .clients, .host, .logs, .wear] ⊆ ks := by first | assumption | exact sub_of (by assumption) (by decide)) : Kept ks r (fopLock client me d r0 s).2 := by
  unfold fopLock
  try dsimp only
  repeat' first
    | with_reducible assumption
    | exact sub_of hk (by decide)
    | with_reducible apply readWord_kept
    | with_reducible apply wakeBank_kept
    | with_reducible apply writeWord_kept
    | with_reducible apply bumpDict_kept
    | with_reducible apply kept_ite
    | split

theorem fopRun_kept {ks : List Part} {r : State} (client : Option Nat) (me : Nat) (own : Option Nat) (d : DieId) (r0 : FopRec) {s : State} (h : Kept ks r s) (hk : [.mem, .regs, .dict, .sat, .cat, .banks, .clients, .host, .logs, .wear, .ledger, .served] ⊆ ks := by first | assumption | exact sub_of (by assumption) (by decide)) : Kept ks r (fopRun client me own d r0 s).2 := by
  unfold fopRun
  try dsimp only
  repeat' first
    | with_reducible assumption
    | exact sub_of hk (by decide)
    | with_reducible apply fopFill_kept
    | with_reducible apply fopCopy_kept
    | with_reducible apply clearSlots_kept
    | with_reducible apply fopLock_kept
    | split

theorem portIllegal_kept {ks : List Part} {r : State} (d : DieId) (r0 : FopRec) {s : State} (h : Kept ks r s) (hk : [.host, .logs, .free] ⊆ ks := by first | assumption | exact sub_of (by assumption) (by decide)) : Kept ks r (portIllegal d r0 s) := by
  unfold portIllegal
  try dsimp only
  repeat' first
    | with_reducible assumption
    | exact sub_of hk (by decide)
    | with_reducible apply fresh_kept
    | with_reducible apply post_kept

theorem portFop_kept {ks : List Part} {r : State} (d : DieId) (a : Agent) (r0 : FopRec) {s : State} (h : Kept ks r s) (hk : [.mem, .regs, .dict, .sat, .cat, .banks, .clients, .host, .logs, .wear, .ledger, .served, .free] ⊆ ks := by first | assumption | exact sub_of (by assumption) (by decide)) : Kept ks r (portFop d a r0 s) := by
  unfold portFop
  try dsimp only
  repeat' first
    | with_reducible assumption
    | exact sub_of hk (by decide)
    | with_reducible apply fopRun_kept
    | with_reducible apply setReg_kept
    | with_reducible apply portIllegal_kept
    | with_reducible refine kept_snd (by assumption) ?_
    | split

theorem execFill_kept {ks : List Part} {r out : State} (d : DieId) (a : Agent) (r0 : FopRec) {s : State} (h : Kept ks r s) (he : execFill d a r0 s = .next out) (hk : [.mem, .regs, .dict, .sat, .cat, .banks, .clients, .host, .logs, .wear, .ledger, .served, .free] ⊆ ks := by first | assumption | exact sub_of (by assumption) (by decide)) : Kept ks r out := by
  unfold execFill at he
  refine kept_next he ?_
  clear he
  try dsimp only
  repeat' first
    | with_reducible assumption
    | with_reducible apply portFop_kept

theorem execCopyFolioOp_kept {ks : List Part} {r out : State} (d : DieId) (a : Agent) (r0 : FopRec) {s : State} (h : Kept ks r s) (he : execCopyFolioOp d a r0 s = .next out) (hk : [.mem, .regs, .dict, .sat, .cat, .banks, .clients, .host, .logs, .wear, .ledger, .served, .free] ⊆ ks := by first | assumption | exact sub_of (by assumption) (by decide)) : Kept ks r out := by
  unfold execCopyFolioOp at he
  refine kept_next he ?_
  clear he
  try dsimp only
  repeat' first
    | with_reducible assumption
    | with_reducible apply portFop_kept

theorem execSlotReset_kept {ks : List Part} {r out : State} (d : DieId) (a : Agent) (r0 : FopRec) {s : State} (h : Kept ks r s) (he : execSlotReset d a r0 s = .next out) (hk : [.mem, .regs, .dict, .sat, .cat, .banks, .clients, .host, .logs, .wear, .ledger, .served, .free] ⊆ ks := by first | assumption | exact sub_of (by assumption) (by decide)) : Kept ks r out := by
  unfold execSlotReset at he
  refine kept_next he ?_
  clear he
  try dsimp only
  repeat' first
    | with_reducible assumption
    | with_reducible apply portFop_kept

theorem execLockAcq_kept {ks : List Part} {r out : State} (d : DieId) (a : Agent) (r0 : FopRec) {s : State} (h : Kept ks r s) (he : execLockAcq d a r0 s = .next out) (hk : [.mem, .regs, .dict, .sat, .cat, .banks, .clients, .host, .logs, .wear, .ledger, .served, .free] ⊆ ks := by first | assumption | exact sub_of (by assumption) (by decide)) : Kept ks r out := by
  unfold execLockAcq at he
  refine kept_next he ?_
  clear he
  try dsimp only
  repeat' first
    | with_reducible assumption
    | with_reducible apply portFop_kept

theorem execLockRel_kept {ks : List Part} {r out : State} (d : DieId) (a : Agent) (r0 : FopRec) {s : State} (h : Kept ks r s) (he : execLockRel d a r0 s = .next out) (hk : [.mem, .regs, .dict, .sat, .cat, .banks, .clients, .host, .logs, .wear, .ledger, .served, .free] ⊆ ks := by first | assumption | exact sub_of (by assumption) (by decide)) : Kept ks r out := by
  unfold execLockRel at he
  refine kept_next he ?_
  clear he
  try dsimp only
  repeat' first
    | with_reducible assumption
    | with_reducible apply portFop_kept

theorem setBankPower_kept {ks : List Part} {r : State} (k : Nat) (p : BankPower) {s : State} (h : Kept ks r s) (hk : [.banks] ⊆ ks := by first | assumption | exact sub_of (by assumption) (by decide)) : Kept ks r (setBankPower k p s) := by
  unfold setBankPower
  try dsimp only
  repeat' first
    | with_reducible assumption
    | with_reducible refine kept_mk ?_ (by constructor <;> intro hp <;> first | exact absurd (sub_mem hk (by decide)) hp | rfl) (by rfl) (by rfl)

theorem clearBank_kept {ks : List Part} {r : State} (k : Nat) {s : State} (h : Kept ks r s) (hk : [.mem] ⊆ ks := by first | assumption | exact sub_of (by assumption) (by decide)) : Kept ks r (clearBank k s) :=
  kept_mk_mem h (by constructor <;> intro hp <;> first | exact absurd (sub_mem hk (by decide)) hp | rfl) (fun hm => Memory.wf_mk (mwf_mdrop _ (Memory.cells_wf hm)) (mwf_mdrop _ (Memory.synd_wf hm)) (mwf_mdrop _ (Memory.owner_wf hm))) rfl rfl

theorem execBankGate_kept {ks : List Part} {r out : State} (d : DieId) (b : Nat) {s : State} (h : Kept ks r s) (he : execBankGate d b s = .next out) (hk : [.mem, .banks] ⊆ ks := by first | assumption | exact sub_of (by assumption) (by decide)) : Kept ks r out := by
  unfold execBankGate at he
  refine kept_next he ?_
  clear he
  try dsimp only
  repeat' first
    | with_reducible assumption
    | exact sub_of hk (by decide)
    | with_reducible apply clearBank_kept
    | with_reducible apply setBankPower_kept
    | with_reducible apply kept_ite
    | with_reducible refine kept_mk ?_ (by constructor <;> intro hp <;> first | exact absurd (sub_mem hk (by decide)) hp | rfl) (by rfl) (by rfl)

theorem execBankWake_kept {ks : List Part} {r out : State} (d : DieId) (b : Nat) {s : State} (h : Kept ks r s) (he : execBankWake d b s = .next out) (hk : [.banks] ⊆ ks := by first | assumption | exact sub_of (by assumption) (by decide)) : Kept ks r out := by
  unfold execBankWake at he
  refine kept_next he ?_
  clear he
  try dsimp only
  repeat' first
    | with_reducible assumption
    | with_reducible apply setBankPower_kept
    | split
    | with_reducible refine kept_mk ?_ (by constructor <;> intro hp <;> first | exact absurd (sub_mem hk (by decide)) hp | rfl) (by rfl) (by rfl)

theorem execBankWakeDone_kept {ks : List Part} {r out : State} (d : DieId) (b : Nat) {s : State} (h : Kept ks r s) (he : execBankWakeDone d b s = .next out) (hk : [.mem, .banks] ⊆ ks := by first | assumption | exact sub_of (by assumption) (by decide)) : Kept ks r out := by
  unfold execBankWakeDone at he
  refine kept_next he ?_
  clear he
  try dsimp only
  repeat' first
    | with_reducible assumption
    | exact sub_of hk (by decide)
    | with_reducible apply setBankPower_kept
    | with_reducible apply clearBank_kept
    | split
    | with_reducible refine kept_mk ?_ (by constructor <;> intro hp <;> first | exact absurd (sub_mem hk (by decide)) hp | rfl) (by rfl) (by rfl)

theorem recopyBank_kept {ks : List Part} {r : State} (k : Nat) {s : State} (h : Kept ks r s) (hk : [.mem, .regs, .dict, .sat, .host, .logs, .wear] ⊆ ks := by first | assumption | exact sub_of (by assumption) (by decide)) : Kept ks r (recopyBank k s) := by
  unfold recopyBank
  try dsimp only
  repeat' first
    | with_reducible assumption
    | exact sub_of hk (by decide)
    | intro _
    | with_reducible apply countCorrected_kept
    | with_reducible apply kept_ite
    | with_reducible apply kept_foldl
    | with_reducible refine kept_mk_mem ?_ (by constructor <;> intro hp <;> first | exact absurd (sub_mem hk (by decide)) hp | rfl) (Memory.wf_setWord _ _ _) (by rfl) (by rfl)

theorem replaceBank_kept {ks : List Part} {r : State} (d : DieId) (b : Nat) {s : State} (h : Kept ks r s) (hk : [.mem, .regs, .dict, .sat, .banks, .host, .logs, .wearS, .wear, .free] ⊆ ks := by first | assumption | exact sub_of (by assumption) (by decide)) : Kept ks r (replaceBank d b s) := by
  unfold replaceBank
  try dsimp only
  repeat' first
    | with_reducible assumption
    | exact sub_of hk (by decide)
    | with_reducible apply recopyBank_kept
    | with_reducible apply doneSwap_kept
    | with_reducible apply setDict_kept
    | with_reducible apply kept_ite
    | with_reducible refine kept_mk ?_ (by constructor <;> intro hp <;> first | exact absurd (sub_mem hk (by decide)) hp | rfl) (by rfl) (by rfl)

theorem execBankReplace_kept {ks : List Part} {r out : State} (d : DieId) (b : Nat) {s : State} (h : Kept ks r s) (he : execBankReplace d b s = .next out) (hk : [.mem, .regs, .dict, .sat, .banks, .host, .logs, .wearS, .wear, .free] ⊆ ks := by first | assumption | exact sub_of (by assumption) (by decide)) : Kept ks r out := by
  unfold execBankReplace at he
  refine kept_next he ?_
  clear he
  try dsimp only
  repeat' first
    | with_reducible assumption
    | with_reducible apply replaceBank_kept

end Sys2Proof.Machine
end

