-- ==== Sys2Proof/Laws/KeptFabricOps.lean ====
section
/-! SUPPORT. What the operations of Machine/FabricOps.lean keep (Laws/Kept.lean). -/

set_option Elab.async false

namespace Sys2Proof.Machine

theorem setPort_kept {ks : List Part} {r : State} (p : Nat) (x : Port) {s : State} (h : Kept ks r s) (hk : [.fabric] ⊆ ks := by first | assumption | exact sub_of (by assumption) (by decide)) : Kept ks r (setPort p x s) := by
  unfold setPort
  try dsimp only
  repeat' first
    | with_reducible assumption
    | with_reducible refine kept_mk ?_ (by constructor <;> intro hp <;> first | exact absurd (sub_mem hk (by decide)) hp | rfl) (by rfl) (by rfl)

theorem setPortState_kept {ks : List Part} {r : State} (p : Nat) (st : Nat) {s : State} (h : Kept ks r s) (hk : [.regs, .dict] ⊆ ks := by first | assumption | exact sub_of (by assumption) (by decide)) : Kept ks r (setPortState p st s) := by
  unfold setPortState
  try dsimp only
  repeat' first
    | with_reducible assumption
    | exact sub_of hk (by decide)
    | with_reducible apply setReg_kept
    | with_reducible apply setDict_kept

theorem sendCtl_kept {ks : List Part} {r : State} (p : Nat) (m : Word × Word) {s : State} (h : Kept ks r s) (hk : [.fabric] ⊆ ks := by first | assumption | exact sub_of (by assumption) (by decide)) : Kept ks r (sendCtl p m s) := by
  unfold sendCtl
  try dsimp only
  repeat' first
    | with_reducible assumption
    | with_reducible apply setPort_kept

theorem openMsg_kept {ks : List Part} {r : State} (mtype : Nat) {s : State} (h : Kept ks r s) (hk : [.free] ⊆ ks := by first | assumption | exact sub_of (by assumption) (by decide)) : Kept ks r (openMsg mtype s).2 := by
  unfold openMsg
  try dsimp only
  repeat' first
    | with_reducible assumption
    | with_reducible apply fresh_kept

theorem flood_kept {ks : List Part} {r : State} (c : Nat) (but : Option Nat) (m : Word × Word) {s : State} (h : Kept ks r s) (hk : [.fabric] ⊆ ks := by first | assumption | exact sub_of (by assumption) (by decide)) : Kept ks r (flood c but m s) := by
  unfold flood
  try dsimp only
  repeat' first
    | with_reducible assumption
    | intro _
    | with_reducible apply sendCtl_kept
    | with_reducible apply kept_ite
    | with_reducible apply kept_foldl

theorem feedTx_kept {ks : List Part} {r : State} (slot : Nat) (client : Nat) (bs : List Byte) {s : State} (h : Kept ks r s) (hk : [.fabric] ⊆ ks := by first | assumption | exact sub_of (by assumption) (by decide)) : Kept ks r (feedTx slot client bs s) := by
  unfold feedTx
  try dsimp only
  repeat' first
    | with_reducible assumption
    | with_reducible apply setPort_kept
    | split
    | with_reducible refine kept_mk ?_ (by constructor <;> intro hp <;> first | exact absurd (sub_mem hk (by decide)) hp | rfl) (by rfl) (by rfl)

theorem beginTx_kept {ks : List Part} {r : State} (slot : Nat) (client : Nat) (port : Nat) (e : Eng) (id : Nat) (hdr : List Byte) (bytes : Nat) {s : State} (h : Kept ks r s) (hk : [.fabric] ⊆ ks := by first | assumption | exact sub_of (by assumption) (by decide)) : Kept ks r (beginTx slot client port e id hdr bytes s) := by
  unfold beginTx
  try dsimp only
  repeat' first
    | with_reducible assumption
    | with_reducible apply feedTx_kept
    | with_reducible refine kept_mk ?_ (by constructor <;> intro hp <;> first | exact absurd (sub_mem hk (by decide)) hp | rfl) (by rfl) (by rfl)

theorem slotDone_kept {ks : List Part} {r : State} (c : Nat) (slot : Nat) {s : State} (h : Kept ks r s) (hk : [.clients] ⊆ ks := by first | assumption | exact sub_of (by assumption) (by decide)) : Kept ks r (slotDone c slot s) := by
  unfold slotDone
  try dsimp only
  repeat' first
    | with_reducible assumption
    | with_reducible apply updStep_kept

theorem endTx_kept {ks : List Part} {r : State} (id : Nat) {s : State} (h : Kept ks r s) (hk : [.clients, .fabric] ⊆ ks := by first | assumption | exact sub_of (by assumption) (by decide)) : Kept ks r (endTx id s) := by
  unfold endTx
  try dsimp only
  repeat' first
    | with_reducible assumption
    | exact sub_of hk (by decide)
    | intro _
    | with_reducible apply slotDone_kept
    | with_reducible apply kept_foldl
    | with_reducible refine kept_mk ?_ (by constructor <;> intro hp <;> first | exact absurd (sub_mem hk (by decide)) hp | rfl) (by rfl) (by rfl)

theorem dropTx_kept {ks : List Part} {r : State} (c : Nat) {s : State} (h : Kept ks r s) (hk : [.fabric] ⊆ ks := by first | assumption | exact sub_of (by assumption) (by decide)) : Kept ks r (dropTx c s) := by
  unfold dropTx
  try dsimp only
  repeat' first
    | with_reducible assumption
    | with_reducible refine kept_mk ?_ (by constructor <;> intro hp <;> first | exact absurd (sub_mem hk (by decide)) hp | rfl) (by rfl) (by rfl)

theorem addPacket_kept {ks : List Part} {r : State} (p : Packet) {s : State} (h : Kept ks r s) (hk : [.fabric] ⊆ ks := by first | assumption | exact sub_of (by assumption) (by decide)) : Kept ks r (addPacket p s) := by
  unfold addPacket
  try dsimp only
  repeat' first
    | with_reducible assumption
    | with_reducible refine kept_mk ?_ (by constructor <;> intro hp <;> first | exact absurd (sub_mem hk (by decide)) hp | rfl) (by rfl) (by rfl)

end Sys2Proof.Machine
end

