-- ==== Sys2Proof/Laws/KeptStats.lean ====
section
/-! SUPPORT. What the operations of Machine/Stats.lean keep (Laws/Kept.lean). -/

set_option Elab.async false

namespace Sys2Proof.Machine

theorem slotStuck_kept {ks : List Part} {r : State} (d : Nat) (slot : Nat) {s : State} (h : Kept ks r s) (hk : [.regs, .host, .logs] ⊆ ks := by first | assumption | exact sub_of (by assumption) (by decide)) : Kept ks r (slotStuck d slot s) := by
  unfold slotStuck
  try dsimp only
  repeat' first
    | with_reducible assumption
    | exact sub_of hk (by decide)
    | with_reducible apply post_kept
    | with_reducible apply setBit_kept
    | with_reducible apply kept_ite

theorem slotAdd_kept {ks : List Part} {r : State} (d : Nat) (slot : Nat) (k : Nat) (n : Nat) {s : State} (h : Kept ks r s) (hk : [.regs, .host, .logs] ⊆ ks := by first | assumption | exact sub_of (by assumption) (by decide)) : Kept ks r (slotAdd d slot k n s) := by
  unfold slotAdd
  try dsimp only
  repeat' first
    | with_reducible assumption
    | exact sub_of hk (by decide)
    | with_reducible apply setReg_kept
    | with_reducible apply slotStuck_kept
    | with_reducible apply kept_ite

theorem foldStats_kept {ks : List Part} {r : State} (d : Nat) (slot : Nat) (f : Fold) {s : State} (h : Kept ks r s) (hk : [.regs, .host, .logs] ⊆ ks := by first | assumption | exact sub_of (by assumption) (by decide)) : Kept ks r (foldStats d slot f s) := by
  unfold foldStats
  try dsimp only
  repeat' first
    | with_reducible assumption
    | exact sub_of hk (by decide)
    | intro _
    | with_reducible apply setReg_kept
    | with_reducible apply slotAdd_kept
    | with_reducible apply kept_foldl

theorem govFlag_kept {ks : List Part} {r : State} (d : Nat) (slot : Nat) (bits : Nat) {s : State} (h : Kept ks r s) (hk : [.regs] ⊆ ks := by first | assumption | exact sub_of (by assumption) (by decide)) : Kept ks r (govFlag d slot bits s) := by
  unfold govFlag
  try dsimp only
  repeat' first
    | with_reducible assumption
    | with_reducible apply orReg_kept
    | with_reducible apply kept_ite

theorem producerFlags_kept {ks : List Part} {r : State} (client : Nat) (d : Nat) (slot : Nat) (bits : Nat) (r0 : RowOut) {s : State} (h : Kept ks r s) (hk : [.regs, .clients] ⊆ ks := by first | assumption | exact sub_of (by assumption) (by decide)) : Kept ks r (producerFlags client d slot bits r0 s) := by
  unfold producerFlags
  try dsimp only
  repeat' first
    | with_reducible assumption
    | exact sub_of hk (by decide)
    | with_reducible apply govFlag_kept
    | with_reducible apply setScope_kept
    | with_reducible apply kept_ite

theorem consumerViol_kept {ks : List Part} {r : State} (d : Nat) (slot : Nat) (n : Nat) {s : State} (h : Kept ks r s) (hk : [.regs] ⊆ ks := by first | assumption | exact sub_of (by assumption) (by decide)) : Kept ks r (consumerViol d slot n s) := by
  unfold consumerViol
  try dsimp only
  repeat' first
    | with_reducible assumption
    | with_reducible apply govFlag_kept
    | with_reducible apply kept_ite

end Sys2Proof.Machine
end

