-- ==== Sys2Proof/Laws/KeptStreamOps.lean ====
section
/-! SUPPORT. What the operations of Machine/StreamOps.lean keep (Laws/Kept.lean). -/

set_option Elab.async false

namespace Sys2Proof.Machine

theorem markFault_kept {ks : List Part} {r : State} (t : TileId) (n : Nat) (code : Nat) {s : State} (h : Kept ks r s) (hk : [.tiles] ⊆ ks := by first | assumption | exact sub_of (by assumption) (by decide)) : Kept ks r (markFault t n code s) := by
  unfold markFault
  try dsimp only
  repeat' first
    | with_reducible assumption
    | with_reducible apply setStr_kept

theorem faultDesync_kept {ks : List Part} {r : State} (t : TileId) (client : Nat) (ds : Nat) (ss : Nat) (expected : Nat) (found : Nat) (i : Nat) {s : State} (h : Kept ks r s) (hk : [.regs, .dict, .sat, .tiles, .clients, .host, .logs] ⊆ ks := by first | assumption | exact sub_of (by assumption) (by decide)) : Kept ks r (faultDesync t client ds ss expected found i s) := by
  unfold faultDesync
  try dsimp only
  repeat' first
    | with_reducible assumption
    | exact sub_of hk (by decide)
    | with_reducible apply markFault_kept
    | with_reducible apply raiseFault_kept
    | with_reducible apply bumpDict_kept
    | with_reducible apply setBit_kept

theorem faultRegion_kept {ks : List Part} {r : State} (t : TileId) (client : Nat) (n : Nat) (i : Nat) (idx : Nat) {s : State} (h : Kept ks r s) (hk : [.regs, .dict, .sat, .tiles, .clients, .host, .logs] ⊆ ks := by first | assumption | exact sub_of (by assumption) (by decide)) : Kept ks r (faultRegion t client n i idx s) := by
  unfold faultRegion
  try dsimp only
  repeat' first
    | with_reducible assumption
    | exact sub_of hk (by decide)
    | with_reducible apply raiseFault_kept
    | with_reducible apply bumpDict_kept
    | with_reducible apply setBit_kept
    | with_reducible apply markFault_kept

theorem takeFail_kept {ks : List Part} {r : State} (t : TileId) (e : Eng) (client : Nat) (code : Nat) (k : Take) {s : State} (h : Kept ks r s) (hk : [.regs, .dict, .sat, .tiles, .clients, .host, .logs, .ledger] ⊆ ks := by first | assumption | exact sub_of (by assumption) (by decide)) : Kept ks r (takeFail t e client code k s) := by
  unfold takeFail
  try dsimp only
  repeat' first
    | with_reducible assumption
    | exact sub_of hk (by decide)
    | with_reducible apply charge_kept
    | with_reducible apply faultRegion_kept
    | with_reducible apply faultDesync_kept
    | split

theorem delivered_kept {ks : List Part} {r : State} (t : TileId) (x : StreamS) (bytes : Nat) {s : State} (h : Kept ks r s) (hk : [.regs, .sat, .tiles, .host, .logs] ⊆ ks := by first | assumption | exact sub_of (by assumption) (by decide)) : Kept ks r (delivered t x bytes s) := by
  unfold delivered
  try dsimp only
  repeat' first
    | with_reducible assumption
    | exact sub_of hk (by decide)
    | with_reducible apply bump_kept
    | with_reducible apply setStr_kept

end Sys2Proof.Machine
end

