-- ==== Sys2Proof/Laws/KeptStreams.lean ====
section
/-! SUPPORT. What the operations of Machine/Streams.lean keep (Laws/Kept.lean). -/

set_option Elab.async false

namespace Sys2Proof.Machine

theorem armStream_kept {ks : List Part} {r : State} (t : TileId) (n : Nat) (d : Desc) (a : Armed) {s : State} (h : Kept ks r s) (hk : [.tiles] ⊆ ks := by first | assumption | exact sub_of (by assumption) (by decide)) : Kept ks r (armStream t n d a s) := by
  unfold armStream
  try dsimp only
  repeat' first
    | with_reducible assumption
    | with_reducible apply setStr_kept

theorem execSarm_kept {ks : List Part} {r out : State} (t : TileId) (c : PCmd) {s : State} (h : Kept ks r s) (he : execSarm t c s = .next out) (hk : [.regs, .dict, .sat, .plates, .tiles, .host, .logs, .ledger] ⊆ ks := by first | assumption | exact sub_of (by assumption) (by decide)) : Kept ks r out := by
  unfold execSarm at he
  refine kept_next he ?_
  clear he
  try dsimp only
  repeat' first
    | with_reducible assumption
    | exact sub_of hk (by decide)
    | intro _
    | with_reducible apply withIssue_kept
    | with_reducible apply refuse_kept
    | with_reducible apply armStream_kept
    | with_reducible apply kept_ite

theorem execSrearm_kept {ks : List Part} {r out : State} (t : TileId) (c : PCmd) {s : State} (h : Kept ks r s) (he : execSrearm t c s = .next out) (hk : [.regs, .dict, .sat, .plates, .tiles, .host, .logs, .ledger] ⊆ ks := by first | assumption | exact sub_of (by assumption) (by decide)) : Kept ks r out := by
  unfold execSrearm at he
  refine kept_next he ?_
  clear he
  try dsimp only
  repeat' first
    | with_reducible assumption
    | exact sub_of hk (by decide)
    | intro _
    | with_reducible apply withIssue_kept
    | with_reducible apply refuse_kept
    | with_reducible apply armStream_kept
    | with_reducible apply kept_ite
    | split

theorem execSmode_kept {ks : List Part} {r out : State} (t : TileId) (c : PCmd) {s : State} (h : Kept ks r s) (he : execSmode t c s = .next out) (hk : [.regs, .dict, .sat, .plates, .tiles, .host, .logs, .ledger] ⊆ ks := by first | assumption | exact sub_of (by assumption) (by decide)) : Kept ks r out := by
  unfold execSmode at he
  refine kept_next he ?_
  clear he
  try dsimp only
  repeat' first
    | with_reducible assumption
    | exact sub_of hk (by decide)
    | intro _
    | with_reducible apply withIssue_kept
    | with_reducible apply refuse_kept
    | with_reducible apply complete_kept
    | with_reducible apply setStr_kept
    | with_reducible apply kept_ite

theorem execSreset_kept {ks : List Part} {r out : State} (t : TileId) (c : PCmd) {s : State} (h : Kept ks r s) (he : execSreset t c s = .next out) (hk : [.regs, .dict, .sat, .plates, .tiles, .host, .logs, .ledger] ⊆ ks := by first | assumption | exact sub_of (by assumption) (by decide)) : Kept ks r out := by
  unfold execSreset at he
  refine kept_next he ?_
  clear he
  try dsimp only
  repeat' first
    | with_reducible assumption
    | exact sub_of hk (by decide)
    | intro _
    | with_reducible apply withIssue_kept
    | with_reducible apply setStr_kept

theorem execSresetEffect_kept {ks : List Part} {r out : State} (t : TileId) (n : Fin 64) {s : State} (h : Kept ks r s) (he : execSresetEffect t n s = .next out) (hk : [.plates, .tiles] ⊆ ks := by first | assumption | exact sub_of (by assumption) (by decide)) : Kept ks r out := by
  unfold execSresetEffect at he
  refine kept_next he ?_
  clear he
  try dsimp only
  repeat' first
    | with_reducible assumption
    | exact sub_of hk (by decide)
    | intro _
    | with_reducible apply setStr_kept
    | with_reducible apply complete_kept
    | with_reducible apply kept_ite
    | with_reducible apply kept_foldl
    | split

theorem execDescriptorActivate_kept {ks : List Part} {r out : State} (t : TileId) (n : Fin 64) {s : State} (h : Kept ks r s) (he : execDescriptorActivate t n s = .next out) (hk : [.regs, .dict, .sat, .tiles, .host, .logs, .ledger] ⊆ ks := by first | assumption | exact sub_of (by assumption) (by decide)) : Kept ks r out := by
  unfold execDescriptorActivate at he
  refine kept_next he ?_
  clear he
  try dsimp only
  repeat' first
    | with_reducible assumption
    | exact sub_of hk (by decide)
    | with_reducible apply setStr_kept
    | with_reducible apply charge_kept
    | with_reducible apply kept_ite
    | split

theorem execDescriptorEnd_kept {ks : List Part} {r out : State} (t : TileId) (n : Fin 64) {s : State} (h : Kept ks r s) (he : execDescriptorEnd t n s = .next out) (hk : [.plates, .tiles] ⊆ ks := by first | assumption | exact sub_of (by assumption) (by decide)) : Kept ks r out := by
  unfold execDescriptorEnd at he
  refine kept_next he ?_
  clear he
  try dsimp only
  repeat' first
    | with_reducible assumption
    | exact sub_of hk (by decide)
    | with_reducible apply complete_kept
    | with_reducible apply setStr_kept
    | with_reducible apply kept_ite
    | split

theorem countDropped_kept {ks : List Part} {r : State} (t : TileId) (k : Nat) {s : State} (h : Kept ks r s) (hk : [.regs, .dict, .sat, .host, .logs] ⊆ ks := by first | assumption | exact sub_of (by assumption) (by decide)) : Kept ks r (countDropped t k s) := by
  unfold countDropped
  try dsimp only
  repeat' first
    | with_reducible assumption
    | exact sub_of hk (by decide)
    | with_reducible apply bumpDict_kept
    | with_reducible apply bump_kept
    | with_reducible apply setBit_kept
    | with_reducible apply kept_ite

theorem settleStream_kept {ks : List Part} {r : State} (t : TileId) (n : Nat) {s : State} (h : Kept ks r s) (hk : [.regs, .dict, .sat, .tiles, .host, .logs] ⊆ ks := by first | assumption | exact sub_of (by assumption) (by decide)) : Kept ks r (settleStream t n s) := by
  unfold settleStream
  try dsimp only
  repeat' first
    | with_reducible assumption
    | exact sub_of hk (by decide)
    | with_reducible apply countDropped_kept
    | with_reducible apply setStr_kept

theorem grantLine_kept {ks : List Part} {r out : State} (t : TileId) {s : State} (h : Kept ks r s) (he : grantLine t s = some out) (hk : [.regs, .dict, .sat, .tiles, .host, .logs] ⊆ ks := by first | assumption | exact sub_of (by assumption) (by decide)) : Kept ks r out := by
  unfold grantLine at he
  dsimp only at he
  repeat' first
    | contradiction
    | (simp only [Option.some.injEq] at he; subst he)
    | split at he
  all_goals repeat' first
    | with_reducible assumption
    | exact sub_of hk (by decide)
    | with_reducible apply settleStream_kept
    | with_reducible apply setStr_kept
    | with_reducible apply bump_kept

theorem settleStreams_kept {ks : List Part} {r : State} (t : TileId) {s : State} (h : Kept ks r s) (hk : [.regs, .dict, .sat, .tiles, .host, .logs] ⊆ ks := by first | assumption | exact sub_of (by assumption) (by decide)) : Kept ks r (settleStreams t s) := by
  unfold settleStreams
  try dsimp only
  repeat' first
    | with_reducible assumption
    | intro _
    | with_reducible apply settleStream_kept
    | with_reducible apply kept_foldl

theorem grantLines_kept {ks : List Part} {r : State} (t : TileId) (n : Nat) {s : State} (h : Kept ks r s) (hk : [.regs, .dict, .sat, .tiles, .host, .logs] ⊆ ks := by first | assumption | exact sub_of (by assumption) (by decide)) :
    Kept ks r (grantLines t n s).1 := by
  induction n generalizing s with
  | zero => exact h
  | succ n ih =>
    unfold grantLines
    split
    · exact ih (grantLine_kept t h (by assumption))
    · exact h

theorem execStreamGrant_kept {ks : List Part} {r out : State} (t : TileId) {s : State} (h : Kept ks r s) (he : execStreamGrant t s = .next out) (hk : [.regs, .dict, .sat, .tiles, .host, .logs, .ledger] ⊆ ks := by first | assumption | exact sub_of (by assumption) (by decide)) :
    Kept ks r out := by
  unfold execStreamGrant at he
  have h1 := grantLines_kept t 8 (settleStreams_kept t h)
  generalize grantLines t 8 (settleStreams t s) = p at he h1
  obtain ⟨s1, any⟩ := p
  exact kept_next he (charge_kept _ _ (setStr_kept _ _ h1))

theorem execStreamDataReturn_kept {ks : List Part} {r out : State} (t : TileId) (k : Nat) {s : State} (h : Kept ks r s) (he : execStreamDataReturn t k s = .next out) (hk : [.mem, .regs, .dict, .sat, .banks, .tiles, .clients, .host, .logs, .wear, .ledger, .served] ⊆ ks := by first | assumption | exact sub_of (by assumption) (by decide)) : Kept ks r out := by
  unfold execStreamDataReturn at he
  refine kept_next he ?_
  clear he
  try dsimp only
  repeat' first
    | with_reducible assumption
    | exact sub_of hk (by decide)
    | with_reducible apply setStr_kept
    | with_reducible apply readBuf_kept
    | with_reducible apply setBit_kept
    | with_reducible apply settleStream_kept
    | with_reducible apply crossBridge_kept
    | with_reducible apply kept_ite
    | split

theorem execStreamConsumingRead_kept {ks : List Part} {r out : State} (t : TileId) (n : Fin 64) {s : State} (h : Kept ks r s) (he : execStreamConsumingRead t n s = .next out) (hk : [.mem, .regs, .dict, .sat, .cat, .banks, .tiles, .clients, .host, .logs, .wear, .ledger, .served] ⊆ ks := by first | assumption | exact sub_of (by assumption) (by decide)) : Kept ks r out := by
  unfold execStreamConsumingRead at he
  refine kept_next he ?_
  clear he
  try dsimp only
  repeat' first
    | with_reducible assumption
    | exact sub_of hk (by decide)
    | with_reducible apply setStr_kept
    | with_reducible apply readBuf_kept
    | with_reducible apply setBit_kept
    | with_reducible apply afterConsume_kept
    | with_reducible apply kept_ite
    | split

theorem countWrite_kept {ks : List Part} {r : State} (t : TileId) (n : Nat) (refused : Bool) {s : State} (h : Kept ks r s) (hk : [.regs, .sat, .host, .logs] ⊆ ks := by first | assumption | exact sub_of (by assumption) (by decide)) : Kept ks r (countWrite t n refused s) := by
  unfold countWrite
  try dsimp only
  repeat' first
    | with_reducible assumption
    | exact sub_of hk (by decide)
    | with_reducible apply bump_kept
    | with_reducible apply setBit_kept
    | with_reducible apply kept_ite

theorem copyWrite_kept {ks : List Part} {r : State} (t : TileId) (n : Nat) (d : Desc) {s : State} (h : Kept ks r s) (hk : [.mem, .regs, .dict, .sat, .cat, .banks, .tiles, .clients, .host, .logs, .wear, .ledger, .served] ⊆ ks := by first | assumption | exact sub_of (by assumption) (by decide)) : Kept ks r (copyWrite t n d s) := by
  unfold copyWrite
  try dsimp only
  repeat' first
    | with_reducible assumption
    | exact sub_of hk (by decide)
    | with_reducible apply faultRegion_kept
    | with_reducible apply engineWrite_kept
    | with_reducible apply countWrite_kept
    | with_reducible apply setStr_kept
    | with_reducible apply kept_ite
    | split

theorem execStreamOutputWrite_kept {ks : List Part} {r out : State} (t : TileId) (n : Fin 64) {s : State} (h : Kept ks r s) (he : execStreamOutputWrite t n s = .next out) (hk : [.mem, .regs, .dict, .sat, .cat, .banks, .tiles, .clients, .host, .logs, .wear, .ledger, .served] ⊆ ks := by first | assumption | exact sub_of (by assumption) (by decide)) : Kept ks r out := by
  unfold execStreamOutputWrite at he
  refine kept_next he ?_
  clear he
  try dsimp only
  repeat' first
    | with_reducible assumption
    | exact sub_of hk (by decide)
    | with_reducible apply charge_kept
    | with_reducible apply engineWrite_kept
    | with_reducible apply countWrite_kept
    | with_reducible apply setStr_kept
    | with_reducible apply copyWrite_kept
    | with_reducible apply kept_ite
    | split

end Sys2Proof.Machine
end

