-- ==== Sys2Proof/Laws/KeptArray.lean ====
section
/-! SUPPORT. What the operations of Machine/Array.lean keep (Laws/Kept.lean). -/

set_option Elab.async false

namespace Sys2Proof.Machine

theorem execUnitGate_kept {ks : List Part} {r out : State} (t : TileId) (column : Bool) (i : Nat) {s : State} (h : Kept ks r s) (he : execUnitGate t column i s = .next out) (hk : [.tiles] ⊆ ks := by first | assumption | exact sub_of (by assumption) (by decide)) : Kept ks r out := by
  unfold execUnitGate at he
  refine kept_next he ?_
  clear he
  try dsimp only
  repeat' first
    | with_reducible assumption
    | with_reducible apply setArr_kept
    | with_reducible apply kept_ite

theorem execUnitWakeDone_kept {ks : List Part} {r out : State} (t : TileId) (column : Bool) (i : Nat) {s : State} (h : Kept ks r s) (he : execUnitWakeDone t column i s = .next out) (hk : [.tiles] ⊆ ks := by first | assumption | exact sub_of (by assumption) (by decide)) : Kept ks r out := by
  unfold execUnitWakeDone at he
  refine kept_next he ?_
  clear he
  try dsimp only
  repeat' first
    | with_reducible assumption
    | with_reducible apply setArr_kept
    | with_reducible apply kept_ite

theorem arrCount_kept {ks : List Part} {r : State} (t : TileId) (client : Nat) (off : Nat) (sub : Nat) (n : Nat) (stat : Option Nat) (scope : BitVec 32) {s : State} (h : Kept ks r s) (hk : [.regs, .dict, .sat, .clients, .host, .logs] ⊆ ks := by first | assumption | exact sub_of (by assumption) (by decide)) : Kept ks r (arrCount t client off sub n stat scope s) := by
  unfold arrCount
  try dsimp only
  repeat' first
    | with_reducible assumption
    | exact sub_of hk (by decide)
    | with_reducible apply bumpDict_kept
    | with_reducible apply bump_kept
    | with_reducible apply setBit_kept
    | with_reducible apply setScope_kept
    | with_reducible apply kept_ite
    | split

theorem countSat_kept {ks : List Part} {r : State} (t : TileId) (client : Nat) (n : Nat) {a : State} (h : Kept ks r a) (hk : [.regs, .dict, .sat, .clients, .host, .logs] ⊆ ks := by first | assumption | exact sub_of (by assumption) (by decide)) : Kept ks r (countSat t client n a) := by
  unfold countSat
  try dsimp only
  repeat' first
    | with_reducible assumption
    | with_reducible apply arrCount_kept

theorem countUnder_kept {ks : List Part} {r : State} (t : TileId) (client : Nat) (n : Nat) {a : State} (h : Kept ks r a) (hk : [.regs, .dict, .sat, .clients, .host, .logs] ⊆ ks := by first | assumption | exact sub_of (by assumption) (by decide)) : Kept ks r (countUnder t client n a) := by
  unfold countUnder
  try dsimp only
  repeat' first
    | with_reducible assumption
    | with_reducible apply arrCount_kept

theorem countViol_kept {ks : List Part} {r : State} (t : TileId) (client : Nat) (n : Nat) {a : State} (h : Kept ks r a) (hk : [.regs, .dict, .sat, .clients, .host, .logs] ⊆ ks := by first | assumption | exact sub_of (by assumption) (by decide)) : Kept ks r (countViol t client n a) := by
  unfold countViol
  try dsimp only
  repeat' first
    | with_reducible assumption
    | with_reducible apply arrCount_kept

theorem countNonfin_kept {ks : List Part} {r : State} (t : TileId) (client : Nat) (n : Nat) (flagged : Bool) {a : State} (h : Kept ks r a) (hk : [.regs, .dict, .sat, .clients, .host, .logs] ⊆ ks := by first | assumption | exact sub_of (by assumption) (by decide)) : Kept ks r (countNonfin t client n flagged a) := by
  unfold countNonfin
  try dsimp only
  repeat' first
    | with_reducible assumption
    | with_reducible apply arrCount_kept

theorem readAcc_kept {ks : List Part} {r : State} (t : TileId) (client : Nat) (b : Nat) (n : Nat) (e : Nat) (us : List Upset) (x : AccEntry) {s : State} (h : Kept ks r s) (hk : [.regs, .dict, .sat, .clients, .host, .logs] ⊆ ks := by first | assumption | exact sub_of (by assumption) (by decide)) : Kept ks r (readAcc t client b n e us x s).2 := by
  unfold readAcc
  try dsimp only
  repeat' first
    | with_reducible assumption
    | exact sub_of hk (by decide)
    | intro _
    | with_reducible apply setBit_kept
    | with_reducible apply bumpDict_kept
    | with_reducible apply postUncorr_kept
    | with_reducible apply kept_ite
    | with_reducible apply kept_foldl_snd

theorem execModeSet_kept {ks : List Part} {r out : State} (t : TileId) (c : PCmd) {s : State} (h : Kept ks r s) (he : execModeSet t c s = .next out) (hk : [.regs, .dict, .sat, .plates, .tiles, .host, .logs, .ledger] ⊆ ks := by first | assumption | exact sub_of (by assumption) (by decide)) : Kept ks r out := by
  unfold execModeSet at he
  refine kept_next he ?_
  clear he
  try dsimp only
  repeat' first
    | with_reducible assumption
    | exact sub_of hk (by decide)
    | intro _
    | with_reducible apply withIssue_kept
    | with_reducible apply refuse_kept
    | with_reducible apply complete_kept
    | with_reducible apply setArr_kept
    | with_reducible apply kept_ite

theorem execBankSwap_kept {ks : List Part} {r out : State} (t : TileId) (c : PCmd) {s : State} (h : Kept ks r s) (he : execBankSwap t c s = .next out) (hk : [.regs, .dict, .sat, .plates, .host, .logs, .ledger] ⊆ ks := by first | assumption | exact sub_of (by assumption) (by decide)) : Kept ks r out := by
  unfold execBankSwap at he
  refine kept_next he ?_
  clear he
  try dsimp only
  repeat' first
    | with_reducible assumption
    | exact sub_of hk (by decide)
    | intro _
    | with_reducible apply withIssue_kept
    | with_reducible apply complete_kept

theorem execLoadStat_kept {ks : List Part} {r out : State} (t : TileId) (c : PCmd) {s : State} (h : Kept ks r s) (he : execLoadStat t c s = .next out) (hk : [.regs, .dict, .sat, .plates, .tiles, .host, .logs, .ledger] ⊆ ks := by first | assumption | exact sub_of (by assumption) (by decide)) : Kept ks r out := by
  unfold execLoadStat at he
  refine kept_next he ?_
  clear he
  try dsimp only
  repeat' first
    | with_reducible assumption
    | exact sub_of hk (by decide)
    | intro _
    | with_reducible apply withIssue_kept
    | with_reducible apply noteIllegal_kept
    | with_reducible apply complete_kept
    | with_reducible apply setArr_kept
    | with_reducible apply kept_ite

theorem execPass_kept {ks : List Part} {r out : State} (t : TileId) (c : PCmd) {s : State} (h : Kept ks r s) (he : execPass t c s = .next out) (hk : [.regs, .dict, .sat, .plates, .tiles, .host, .logs, .ledger] ⊆ ks := by first | assumption | exact sub_of (by assumption) (by decide)) : Kept ks r out := by
  unfold execPass at he
  refine kept_next he ?_
  clear he
  try dsimp only
  repeat' first
    | with_reducible assumption
    | exact sub_of hk (by decide)
    | intro _
    | with_reducible apply withIssue_kept
    | with_reducible apply noteIllegal_kept
    | with_reducible apply complete_kept
    | with_reducible apply setArr_kept
    | with_reducible apply kept_ite

theorem execDrain_kept {ks : List Part} {r out : State} (t : TileId) (c : PCmd) {s : State} (h : Kept ks r s) (he : execDrain t c s = .next out) (hk : [.regs, .dict, .sat, .plates, .tiles, .host, .logs, .ledger] ⊆ ks := by first | assumption | exact sub_of (by assumption) (by decide)) : Kept ks r out := by
  unfold execDrain at he
  refine kept_next he ?_
  clear he
  try dsimp only
  repeat' first
    | with_reducible assumption
    | exact sub_of hk (by decide)
    | intro _
    | with_reducible apply withIssue_kept
    | with_reducible apply refuse_kept
    | with_reducible apply setArr_kept
    | with_reducible apply kept_ite

theorem execLoadLineEntry_kept {ks : List Part} {r out : State} (t : TileId) {s : State} (h : Kept ks r s) (he : execLoadLineEntry t s = .next out) (hk : [.regs, .dict, .sat, .plates, .tiles, .clients, .host, .logs, .ledger] ⊆ ks := by first | assumption | exact sub_of (by assumption) (by decide)) : Kept ks r out := by
  unfold execLoadLineEntry at he
  refine kept_next he ?_
  clear he
  try dsimp only
  repeat' first
    | with_reducible assumption
    | exact sub_of hk (by decide)
    | with_reducible apply charge_kept
    | with_reducible apply delivered_kept
    | with_reducible apply noteIllegal_kept
    | with_reducible apply consumerViol_kept
    | with_reducible apply countViol_kept
    | with_reducible apply setArr_kept
    | with_reducible apply complete_kept
    | with_reducible apply takeFail_kept
    | with_reducible apply kept_ite
    | split

theorem addCol_kept {ks : List Part} {r : State} (t : TileId) (client : Nat) (b : Nat) (e : Nat) (write : Bool) (us : List Upset) (rs : List ColRes) {acc : State × Nat × Bool} (n : Nat) (h : Kept ks r acc.1) (hk : [.regs, .dict, .sat, .tiles, .clients, .host, .logs] ⊆ ks := by first | assumption | exact sub_of (by assumption) (by decide)) : Kept ks r (addCol t client b e write us rs acc n).1 := by
  unfold addCol
  try dsimp only
  repeat' first
    | with_reducible assumption
    | exact sub_of hk (by decide)
    | with_reducible apply readAcc_kept
    | with_reducible apply setArr_kept
    | split

theorem addRow_kept {ks : List Part} {r : State} (t : TileId) (client : Nat) (b : Nat) (e : Nat) (write : Bool) (us : List Upset) (rs : List ColRes) {s : State} (h : Kept ks r s) (hk : [.regs, .dict, .sat, .tiles, .clients, .host, .logs] ⊆ ks := by first | assumption | exact sub_of (by assumption) (by decide)) : Kept ks r (addRow t client b e write us rs s) := by
  unfold addRow
  try dsimp only
  repeat' first
    | with_reducible assumption
    | exact sub_of hk (by decide)
    | intro _
    | with_reducible apply addCol_kept
    | with_reducible apply countSat_kept
    | with_reducible apply countNonfin_kept
    | with_reducible apply countUnder_kept
    | with_reducible apply setArr_kept
    | with_reducible apply kept_ite
    | with_reducible apply kept_foldl_fst

theorem vellumRow_kept {ks : List Part} {r : State} (t : TileId) (client : Nat) (j : PassJob) (unit : ℚ) (rs : List ColRes) {s : State} (h : Kept ks r s) (hk : [.mem, .regs, .dict, .sat, .banks, .clients, .host, .logs, .wear, .ledger, .served] ⊆ ks := by first | assumption | exact sub_of (by assumption) (by decide)) : Kept ks r (vellumRow t client j unit rs s) := by
  unfold vellumRow
  try dsimp only
  repeat' first
    | with_reducible assumption
    | exact sub_of hk (by decide)
    | with_reducible apply readBuf_kept
    | with_reducible apply writeBuf_kept
    | with_reducible apply countUnder_kept
    | with_reducible apply countNonfin_kept
    | with_reducible apply setBit_kept
    | with_reducible apply setScope_kept
    | split

theorem gatherRow_kept {ks : List Part} {r : State} (client : Nat) (name : Nat) (e : Entry) (slot : Nat) (k : Nat) {s : State} (h : Kept ks r s) (hk : [.mem, .regs, .dict, .sat, .banks, .clients, .host, .logs, .wear, .ledger, .served] ⊆ ks := by first | assumption | exact sub_of (by assumption) (by decide)) : Kept ks r (gatherRow client name e slot k s).2.2.2 := by
  unfold gatherRow
  try dsimp only
  repeat' first
    | with_reducible assumption
    | with_reducible apply readBuf_kept
    | split

theorem rowEffect_kept {ks : List Part} {r : State} (t : TileId) (client : Nat) (j : PassJob) (w : Stat) (xf : Fmt) (xt : ℚ) (x : Line) (tag : Nat) (us : List Upset) {s : State} (h : Kept ks r s) (hk : [.mem, .regs, .dict, .sat, .banks, .plates, .tiles, .clients, .host, .logs, .wear, .ledger, .served] ⊆ ks := by first | assumption | exact sub_of (by assumption) (by decide)) : Kept ks r (rowEffect t client j w xf xt x tag us s) := by
  unfold rowEffect
  try dsimp only
  repeat' first
    | with_reducible assumption
    | exact sub_of hk (by decide)
    | with_reducible apply vellumRow_kept
    | with_reducible apply addRow_kept
    | with_reducible apply setArr_kept
    | with_reducible apply complete_kept
    | with_reducible apply kept_ite

theorem refusePass_kept {ks : List Part} {r : State} (t : TileId) (client : Nat) (j : PassJob) {s : State} (h : Kept ks r s) (hk : [.regs, .plates, .tiles, .host, .logs] ⊆ ks := by first | assumption | exact sub_of (by assumption) (by decide)) : Kept ks r (refusePass t client j s) := by
  unfold refusePass
  try dsimp only
  repeat' first
    | with_reducible assumption
    | exact sub_of hk (by decide)
    | with_reducible apply noteIllegal_kept
    | with_reducible apply complete_kept
    | with_reducible apply setArr_kept
    | with_reducible apply kept_ite
    | split

theorem discardRow_kept {ks : List Part} {r : State} (t : TileId) (client : Nat) (j : PassJob) {s : State} (h : Kept ks r s) (hk : [.regs, .dict, .sat, .plates, .tiles, .clients, .host, .logs, .ledger] ⊆ ks := by first | assumption | exact sub_of (by assumption) (by decide)) : Kept ks r (discardRow t client j s) := by
  unfold discardRow
  try dsimp only
  repeat' first
    | with_reducible assumption
    | exact sub_of hk (by decide)
    | with_reducible apply charge_kept
    | with_reducible apply complete_kept
    | with_reducible apply setArr_kept
    | with_reducible apply delivered_kept
    | with_reducible apply takeFail_kept
    | with_reducible apply kept_ite
    | split

theorem streamRow_kept {ks : List Part} {r : State} (t : TileId) (client : Nat) (j : PassJob) (us : List Upset) {s : State} (h : Kept ks r s) (hk : [.mem, .regs, .dict, .sat, .banks, .plates, .tiles, .clients, .host, .logs, .wear, .ledger, .served] ⊆ ks := by first | assumption | exact sub_of (by assumption) (by decide)) : Kept ks r (streamRow t client j us s) := by
  unfold streamRow
  try dsimp only
  repeat' first
    | with_reducible assumption
    | exact sub_of hk (by decide)
    | with_reducible apply charge_kept
    | with_reducible apply refusePass_kept
    | with_reducible apply delivered_kept
    | with_reducible apply setArr_kept
    | with_reducible apply consumerViol_kept
    | with_reducible apply countViol_kept
    | with_reducible apply rowEffect_kept
    | with_reducible apply takeFail_kept
    | with_reducible apply kept_ite
    | split

theorem gatheredRow_kept {ks : List Part} {r : State} (t : TileId) (client : Nat) (j : PassJob) (us : List Upset) {s : State} (h : Kept ks r s) (hk : [.mem, .regs, .dict, .sat, .cat, .banks, .plates, .tiles, .clients, .host, .logs, .wear, .ledger, .served] ⊆ ks := by first | assumption | exact sub_of (by assumption) (by decide)) : Kept ks r (gatheredRow t client j us s) := by
  unfold gatheredRow
  try dsimp only
  repeat' first
    | with_reducible assumption
    | exact sub_of hk (by decide)
    | with_reducible apply gatherRow_kept
    | with_reducible apply bump_kept
    | with_reducible apply setSlot_kept
    | with_reducible apply charge_kept
    | with_reducible apply consumerViol_kept
    | with_reducible apply countViol_kept
    | with_reducible apply rowEffect_kept
    | split

theorem execPassRowEntry_kept {ks : List Part} {r out : State} (t : TileId) (u : List Upset) {s : State} (h : Kept ks r s) (he : execPassRowEntry t u s = .next out) (hk : [.mem, .regs, .dict, .sat, .cat, .banks, .plates, .tiles, .clients, .host, .logs, .wear, .ledger, .served] ⊆ ks := by first | assumption | exact sub_of (by assumption) (by decide)) : Kept ks r out := by
  unfold execPassRowEntry at he
  refine kept_next he ?_
  clear he
  try dsimp only
  repeat' first
    | with_reducible assumption
    | exact sub_of hk (by decide)
    | with_reducible apply discardRow_kept
    | with_reducible apply charge_kept
    | with_reducible apply gatheredRow_kept
    | with_reducible apply streamRow_kept
    | with_reducible apply kept_ite
    | split

theorem execGatherBatchLaunch_kept {ks : List Part} {r out : State} (t : TileId) (timer : Nat) {s : State} (h : Kept ks r s) (he : execGatherBatchLaunch t timer s = .next out) (hk : [.regs, .dict, .sat, .plates, .tiles, .host, .logs, .ledger] ⊆ ks := by first | assumption | exact sub_of (by assumption) (by decide)) : Kept ks r out := by
  unfold execGatherBatchLaunch at he
  refine kept_next he ?_
  clear he
  try dsimp only
  repeat' first
    | with_reducible assumption
    | exact sub_of hk (by decide)
    | with_reducible apply charge_kept
    | with_reducible apply refusePass_kept
    | with_reducible apply bump_kept
    | with_reducible apply setArr_kept
    | with_reducible apply kept_ite
    | split

theorem execAutoDrain_kept {ks : List Part} {r out : State} (t : TileId) {s : State} (h : Kept ks r s) (he : execAutoDrain t s = .next out) (hk : [.tiles] ⊆ ks := by first | assumption | exact sub_of (by assumption) (by decide)) : Kept ks r out := by
  unfold execAutoDrain at he
  refine kept_next he ?_
  clear he
  try dsimp only
  repeat' first
    | with_reducible assumption
    | with_reducible apply setArr_kept
    | split

theorem drainDone_kept {ks : List Part} {r : State} (t : TileId) (d : DrainJob) {s : State} (h : Kept ks r s) (hk : [.plates, .tiles] ⊆ ks := by first | assumption | exact sub_of (by assumption) (by decide)) : Kept ks r (drainDone t d s) := by
  unfold drainDone
  try dsimp only
  repeat' first
    | with_reducible assumption
    | exact sub_of hk (by decide)
    | with_reducible apply complete_kept
    | with_reducible apply setArr_kept
    | with_reducible apply postBatch_kept
    | with_reducible apply kept_ite
    | split

theorem readCol_kept {ks : List Part} {r : State} (t : TileId) (client : Nat) (d : DrainJob) (e : Nat) (us : List Upset) {r0 : List AccEntry × State} (c : Nat) (h : Kept ks r r0.2) (hk : [.regs, .dict, .sat, .tiles, .clients, .host, .logs] ⊆ ks := by first | assumption | exact sub_of (by assumption) (by decide)) : Kept ks r (readCol t client d e us r0 c).2 := by
  unfold readCol
  try dsimp only
  repeat' first
    | with_reducible assumption
    | exact sub_of hk (by decide)
    | with_reducible apply readAcc_kept
    | with_reducible apply setArr_kept

theorem readEntries_kept {ks : List Part} {r : State} (t : TileId) (client : Nat) (d : DrainJob) (cols : Nat) (n : Nat) (us : List Upset) {s : State} (h : Kept ks r s) (hk : [.regs, .dict, .sat, .tiles, .clients, .host, .logs] ⊆ ks := by first | assumption | exact sub_of (by assumption) (by decide)) : Kept ks r (readEntries t client d cols n us s).2 := by
  unfold readEntries
  try dsimp only
  repeat' first
    | with_reducible assumption
    | intro _
    | with_reducible apply readCol_kept
    | with_reducible apply kept_foldl_snd

theorem setLane_kept {ks : List Part} {r : State} (t : TileId) (x : LaneS) {s : State} (h : Kept ks r s) (hk : [.units] ⊆ ks := by first | assumption | exact sub_of (by assumption) (by decide)) : Kept ks r (setLane t x s) := by
  unfold setLane
  try dsimp only
  repeat' first
    | with_reducible assumption
    | with_reducible refine kept_mk ?_ (by constructor <;> intro hp <;> first | exact absurd (sub_mem hk (by decide)) hp | rfl) (by rfl) (by rfl)

theorem execDrainPairRead_kept {ks : List Part} {r out : State} (t : TileId) (u : List Upset) {s : State} (h : Kept ks r s) (he : execDrainPairRead t u s = .next out) (hk : [.regs, .dict, .sat, .plates, .tiles, .units, .clients, .host, .logs, .ledger] ⊆ ks := by first | assumption | exact sub_of (by assumption) (by decide)) : Kept ks r out := by
  unfold execDrainPairRead at he
  refine kept_next he ?_
  clear he
  try dsimp only
  repeat' first
    | with_reducible assumption
    | exact sub_of hk (by decide)
    | with_reducible apply charge_kept
    | with_reducible apply refuse_kept
    | with_reducible apply setArr_kept
    | with_reducible apply drainDone_kept
    | with_reducible apply readEntries_kept
    | with_reducible apply setLane_kept
    | with_reducible apply setVec_kept
    | with_reducible apply setScope_kept
    | with_reducible apply kept_ite
    | split

end Sys2Proof.Machine
end

