-- ==== Sys2Proof/Laws/KeptHatch.lean ====
section
/-! SUPPORT. What the operations of Machine/Hatch.lean keep (Laws/Kept.lean). -/

set_option Elab.async false

namespace Sys2Proof.Machine

theorem engCount_kept {ks : List Part} {r : State} (hatch : Bool) (d : Nat) (u : Nat) (work : Nat) (f : Fold) {s : State} (h : Kept ks r s) (hk : [.regs, .dict, .sat, .host, .logs] ⊆ ks := by first | assumption | exact sub_of (by assumption) (by decide)) : Kept ks r (engCount hatch d u work f s) := by
  unfold engCount
  try dsimp only
  repeat' first
    | with_reducible assumption
    | exact sub_of hk (by decide)
    | with_reducible apply bump_kept
    | with_reducible apply bumpDict_kept
    | with_reducible apply kept_ite

theorem engFold_kept {ks : List Part} {r : State} (hatch : Bool) (d : Nat) (u : Nat) (slot : Nat) (f : Fold) {s : State} (h : Kept ks r s) (hk : [.regs, .host, .logs] ⊆ ks := by first | assumption | exact sub_of (by assumption) (by decide)) : Kept ks r (engFold hatch d u slot f s) := by
  unfold engFold
  try dsimp only
  repeat' first
    | with_reducible assumption
    | exact sub_of hk (by decide)
    | with_reducible apply foldStats_kept
    | with_reducible apply setBit_kept
    | with_reducible apply kept_ite

theorem readVals_kept {ks : List Part} {r : State} (hatch : Bool) (d : Nat) (u : Nat) (client : Nat) (name : Nat) (e : Entry) (row : Nat) (c : Nat) (n : Nat) (m : ℚ) {s : State} (h : Kept ks r s) (hk : [.mem, .regs, .dict, .sat, .banks, .clients, .host, .logs, .wear, .ledger, .served] ⊆ ks := by first | assumption | exact sub_of (by assumption) (by decide)) : Kept ks r (readVals hatch d u client name e row c n m s).2.2 := by
  unfold readVals
  try dsimp only
  repeat' first
    | with_reducible assumption
    | exact sub_of hk (by decide)
    | with_reducible apply readBuf_kept
    | with_reducible apply setBit_kept
    | with_reducible apply kept_ite

theorem writeRun_kept {ks : List Part} {r : State} (client : Nat) (name : Nat) (e : Entry) (row : Nat) (c : Nat) (r0 : RowOut) {s : State} (h : Kept ks r s) (hk : [.mem, .regs, .dict, .sat, .cat, .banks, .clients, .host, .logs, .wear, .ledger, .served] ⊆ ks := by first | assumption | exact sub_of (by assumption) (by decide)) : Kept ks r (writeRun client name e row c r0 s) := by
  unfold writeRun
  try dsimp only
  repeat' first
    | with_reducible assumption
    | with_reducible apply putBuf_kept
    | with_reducible apply kept_ite

theorem setHatch_kept {ks : List Part} {r : State} (d : Nat) (u : Nat) (j : Option HJob) {s : State} (h : Kept ks r s) (hk : [.units] ⊆ ks := by first | assumption | exact sub_of (by assumption) (by decide)) : Kept ks r (setHatch d u j s) := by
  unfold setHatch
  try dsimp only
  repeat' first
    | with_reducible assumption
    | with_reducible refine kept_mk ?_ (by constructor <;> intro hp <;> first | exact absurd (sub_mem hk (by decide)) hp | rfl) (by rfl) (by rfl)

theorem execHconv_kept {ks : List Part} {r out : State} (d : DieId) (u : Fin 4) (c : PCmd) {s : State} (h : Kept ks r s) (he : execHconv d u c s = .next out) (hk : [.regs, .dict, .sat, .plates, .units, .host, .logs, .ledger] ⊆ ks := by first | assumption | exact sub_of (by assumption) (by decide)) : Kept ks r out := by
  unfold execHconv at he
  refine kept_next he ?_
  clear he
  try dsimp only
  repeat' first
    | with_reducible assumption
    | exact sub_of hk (by decide)
    | intro _
    | with_reducible apply withIssue_kept
    | with_reducible apply refuse_kept
    | with_reducible apply setHatch_kept
    | with_reducible apply kept_ite

theorem execHstat_kept {ks : List Part} {r out : State} (d : DieId) (u : Fin 4) (c : PCmd) {s : State} (h : Kept ks r s) (he : execHstat d u c s = .next out) (hk : [.regs, .dict, .sat, .plates, .units, .host, .logs, .ledger] ⊆ ks := by first | assumption | exact sub_of (by assumption) (by decide)) : Kept ks r out := by
  unfold execHstat at he
  refine kept_next he ?_
  clear he
  try dsimp only
  repeat' first
    | with_reducible assumption
    | exact sub_of hk (by decide)
    | intro _
    | with_reducible apply withIssue_kept
    | with_reducible apply refuse_kept
    | with_reducible apply setHatch_kept
    | with_reducible apply kept_ite

theorem execHctx_kept {ks : List Part} {r out : State} (d : DieId) (u : Fin 4) (c : PCmd) {s : State} (h : Kept ks r s) (he : execHctx d u c s = .next out) (hk : [.regs, .dict, .sat, .plates, .units, .host, .logs, .ledger] ⊆ ks := by first | assumption | exact sub_of (by assumption) (by decide)) : Kept ks r out := by
  unfold execHctx at he
  refine kept_next he ?_
  clear he
  try dsimp only
  repeat' first
    | with_reducible assumption
    | exact sub_of hk (by decide)
    | intro _
    | with_reducible apply withIssue_kept
    | with_reducible apply complete_kept
    | with_reducible apply setLane_kept

theorem clearSlot_kept {ks : List Part} {r : State} (d : Nat) (slot : Nat) {s : State} (h : Kept ks r s) (hk : [.regs] ⊆ ks := by first | assumption | exact sub_of (by assumption) (by decide)) : Kept ks r (clearSlot d slot s) := by
  unfold clearSlot
  try dsimp only
  repeat' first
    | with_reducible assumption
    | intro _
    | with_reducible apply setReg_kept
    | with_reducible apply kept_foldl

theorem execHsnap_kept {ks : List Part} {r out : State} (d : DieId) (u : Fin 4) (c : PCmd) {s : State} (h : Kept ks r s) (he : execHsnap d u c s = .next out) (hk : [.mem, .regs, .dict, .sat, .cat, .banks, .plates, .clients, .host, .logs, .wear, .ledger, .served] ⊆ ks := by first | assumption | exact sub_of (by assumption) (by decide)) : Kept ks r out := by
  unfold execHsnap at he
  refine kept_next he ?_
  clear he
  try dsimp only
  repeat' first
    | with_reducible assumption
    | exact sub_of hk (by decide)
    | intro _
    | with_reducible apply withIssue_kept
    | with_reducible apply refuse_kept
    | with_reducible apply putBuf_kept
    | with_reducible apply clearSlot_kept
    | with_reducible apply setReg_kept
    | with_reducible apply complete_kept
    | with_reducible apply kept_ite

theorem putRecords_kept {ks : List Part} {r0 : State} (client : Nat) (j : HJob) (de : Entry) (r c n : Nat) (vals : List DVal) (out : RowOut) {s : State} (h : Kept ks r0 s) (hk : [.mem, .regs, .dict, .sat, .cat, .banks, .clients, .host, .logs, .wear, .ledger, .served] ⊆ ks := by first | assumption | exact sub_of (by assumption) (by decide)) : Kept ks r0 (putRecords client j de r c n vals out s) := by
  unfold putRecords
  try dsimp only
  repeat' first
    | with_reducible assumption
    | exact sub_of hk (by decide)
    | intro _
    | with_reducible apply putBuf_kept
    | with_reducible apply kept_ite
    | with_reducible apply kept_foldl
    | split

theorem convertChunk_kept {ks : List Part} {r0 : State} (d u client : Nat) (j : HJob) (dn : Nat) (de : Entry) (r c n nOut : Nat) (vals : List DVal) {s : State} (h : Kept ks r0 s) (hk : [.mem, .regs, .dict, .sat, .cat, .banks, .clients, .host, .logs, .wear, .ledger, .served] ⊆ ks := by first | assumption | exact sub_of (by assumption) (by decide)) : Kept ks r0 ((convertChunk d u client j dn de r c n nOut vals s).2.2) := by
  unfold convertChunk
  try dsimp only
  repeat' first
    | with_reducible assumption
    | exact sub_of hk (by decide)
    | intro _
    | with_reducible apply putRecords_kept
    | with_reducible apply engCount_kept
    | with_reducible apply writeRun_kept
    | split

theorem convertEnd_kept {ks : List Part} {r0 : State} (d u client : Nat) (de : Entry) (k : HJob) (out : RowOut) {s : State} (h : Kept ks r0 s) (hk : [.regs, .dict, .sat, .clients, .host, .logs] ⊆ ks := by first | assumption | exact sub_of (by assumption) (by decide)) : Kept ks r0 (convertEnd d u client de k out s) := by
  unfold convertEnd
  try dsimp only
  repeat' first
    | with_reducible assumption
    | exact sub_of hk (by decide)
    | intro _
    | with_reducible apply producerFlags_kept
    | with_reducible apply engFold_kept
    | split

theorem execHatchChunk_kept {ks : List Part} {r out : State} (d : DieId) (u : Fin 4) {s : State} (h : Kept ks r s) (he : execHatchChunk d u s = .next out) (hk : [.mem, .regs, .dict, .sat, .cat, .banks, .plates, .units, .clients, .host, .logs, .wear, .ledger, .served] ⊆ ks := by first | assumption | exact sub_of (by assumption) (by decide)) : Kept ks r out := by
  unfold execHatchChunk at he
  refine kept_next he ?_
  clear he
  try dsimp only
  repeat' first
    | with_reducible assumption
    | exact sub_of hk (by decide)
    | intro _
    | with_reducible apply charge_kept
    | with_reducible apply readVals_kept
    | with_reducible apply consumerViol_kept
    | with_reducible apply engCount_kept
    | with_reducible apply complete_kept
    | with_reducible apply setHatch_kept
    | with_reducible apply engFold_kept
    | with_reducible apply convertChunk_kept
    | with_reducible apply convertEnd_kept
    | with_reducible apply kept_ite
    | split

theorem pairRow_kept {ks : List Part} {r0 : State} (d u client : Nat) (p : DPair) (x : Dctx) (acc : State × Fold × Nat × Bool) (r : Nat × List DVal) (h : Kept ks r0 acc.1) (hk : [.mem, .regs, .dict, .sat, .cat, .banks, .clients, .host, .logs, .wear, .ledger, .served] ⊆ ks := by first | assumption | exact sub_of (by assumption) (by decide)) : Kept ks r0 (pairRow d u client p x acc r).1 := by
  unfold pairRow
  try dsimp only
  repeat' first
    | with_reducible assumption
    | exact sub_of hk (by decide)
    | with_reducible apply engCount_kept
    | with_reducible apply writeRun_kept

theorem pairEnd_kept {ks : List Part} {r0 : State} (t : TileId) (client : Nat) (p : DPair) (l : LaneS) (f : Fold) (fl : Nat) {s : State} (h : Kept ks r0 s) (hk : [.regs, .dict, .sat, .plates, .tiles, .units, .clients, .host, .logs] ⊆ ks := by first | assumption | exact sub_of (by assumption) (by decide)) : Kept ks r0 (pairEnd t client p l f fl s) := by
  unfold pairEnd
  try dsimp only
  repeat' first
    | with_reducible assumption
    | exact sub_of hk (by decide)
    | intro _
    | with_reducible apply drainDone_kept
    | with_reducible apply setLane_kept
    | with_reducible apply producerFlags_kept
    | with_reducible apply engFold_kept
    | split

theorem execHatchDrainPair_kept {ks : List Part} {r out : State} (t : TileId) {s : State} (h : Kept ks r s) (he : execHatchDrainPair t s = .next out) (hk : [.mem, .regs, .dict, .sat, .cat, .banks, .plates, .tiles, .units, .clients, .host, .logs, .wear, .ledger, .served] ⊆ ks := by first | assumption | exact sub_of (by assumption) (by decide)) : Kept ks r out := by
  unfold execHatchDrainPair at he
  refine kept_next he ?_
  clear he
  try dsimp only
  repeat' first
    | with_reducible assumption
    | exact sub_of hk (by decide)
    | intro _
    | with_reducible apply charge_kept
    | with_reducible apply setScope_kept
    | with_reducible apply setLane_kept
    | with_reducible apply pairEnd_kept
    | with_reducible apply pairRow_kept
    | with_reducible apply kept_ite
    | with_reducible apply kept_foldl_fst
    | split

theorem setCpt_kept {ks : List Part} {r : State} (d : Nat) (u : Nat) (j : List CJob) {s : State} (h : Kept ks r s) (hk : [.units] ⊆ ks := by first | assumption | exact sub_of (by assumption) (by decide)) : Kept ks r (setCpt d u j s) := by
  unfold setCpt
  try dsimp only
  repeat' first
    | with_reducible assumption
    | with_reducible refine kept_mk ?_ (by constructor <;> intro hp <;> first | exact absurd (sub_mem hk (by decide)) hp | rfl) (by rfl) (by rfl)

theorem execCpt_kept {ks : List Part} {r out : State} (d : DieId) (u : Fin 4) (c : PCmd) {s : State} (h : Kept ks r s) (he : execCpt d u c s = .next out) (hk : [.regs, .dict, .sat, .plates, .units, .host, .logs, .ledger] ⊆ ks := by first | assumption | exact sub_of (by assumption) (by decide)) : Kept ks r out := by
  unfold execCpt at he
  refine kept_next he ?_
  clear he
  try dsimp only
  repeat' first
    | with_reducible assumption
    | exact sub_of hk (by decide)
    | intro _
    | with_reducible apply withIssue_kept
    | with_reducible apply refuse_kept
    | with_reducible apply setCpt_kept
    | with_reducible apply kept_ite

theorem cptRead_kept {ks : List Part} {r out : State} (d u client : Nat) {s : State} (h : Kept ks r s) (he : cptRead d u client s = some out) (hk : [.mem, .regs, .dict, .sat, .banks, .units, .clients, .host, .logs, .wear, .ledger, .served] ⊆ ks := by first | assumption | exact sub_of (by assumption) (by decide)) : Kept ks r out := by
  unfold cptRead at he
  dsimp only at he
  repeat' first
    | contradiction
    | (simp only [Option.some.injEq] at he; subst he)
    | split at he
  all_goals repeat' first
    | with_reducible assumption
    | exact sub_of hk (by decide)
    | with_reducible apply setCpt_kept
    | with_reducible apply readVals_kept
    | with_reducible apply engCount_kept
    | with_reducible apply consumerViol_kept

theorem cptWrite_kept {ks : List Part} {r out : State} (d u client : Nat) {s : State} (h : Kept ks r s) (he : cptWrite d u client s = some out) (hk : [.mem, .regs, .dict, .sat, .cat, .banks, .plates, .units, .clients, .host, .logs, .wear, .ledger, .served] ⊆ ks := by first | assumption | exact sub_of (by assumption) (by decide)) : Kept ks r out := by
  unfold cptWrite at he
  dsimp only at he
  repeat' first
    | contradiction
    | (simp only [Option.some.injEq] at he; subst he)
    | split at he
  all_goals repeat' first
    | with_reducible assumption
    | exact sub_of hk (by decide)
    | with_reducible apply setCpt_kept
    | with_reducible apply writeRun_kept
    | with_reducible apply engCount_kept
    | with_reducible apply complete_kept
    | with_reducible apply producerFlags_kept
    | with_reducible apply engFold_kept
    | with_reducible apply bumpDict_kept
    | with_reducible apply bump_kept

theorem execCptLine_kept {ks : List Part} {r out : State} (d : DieId) (u : Fin 4) {s : State} (h : Kept ks r s) (he : execCptLine d u s = .next out) (hk : [.mem, .regs, .dict, .sat, .cat, .banks, .plates, .units, .clients, .host, .logs, .wear, .ledger, .served] ⊆ ks := by first | assumption | exact sub_of (by assumption) (by decide)) : Kept ks r out := by
  unfold execCptLine at he
  refine kept_next he ?_
  clear he
  try dsimp only
  repeat' first
    | with_reducible assumption
    | exact sub_of hk (by decide)
    | intro _
    | with_reducible refine cptWrite_kept _ _ _ ?_ (by assumption)
    | with_reducible apply charge_kept
    | with_reducible refine cptRead_kept _ _ _ ?_ (by assumption)
    | with_reducible apply kept_getD
    | with_reducible apply kept_ite
    | split

end Sys2Proof.Machine
end

