-- ==== Sys2Proof/Laws/KeptDma.lean ====
section
/-! SUPPORT. What the operations of Machine/Dma.lean keep (Laws/Kept.lean). -/

set_option Elab.async false

namespace Sys2Proof.Machine

theorem setDma_kept {ks : List Part} {r : State} (k : Nat) (x : DmaQ) {s : State} (h : Kept ks r s) (hk : [.units] ⊆ ks := by first | assumption | exact sub_of (by assumption) (by decide)) : Kept ks r (setDma k x s) := by
  unfold setDma
  try dsimp only
  repeat' first
    | with_reducible assumption
    | with_reducible refine kept_mk ?_ (by constructor <;> intro hp <;> first | exact absurd (sub_mem hk (by decide)) hp | rfl) (by rfl) (by rfl)

theorem execDmadesc_kept {ks : List Part} {r out : State} (d : DieId) (e : Fin 2) (c : PCmd) {s : State} (h : Kept ks r s) (he : execDmadesc d e c s = .next out) (hk : [.regs, .dict, .sat, .plates, .units, .host, .logs, .ledger] ⊆ ks := by first | assumption | exact sub_of (by assumption) (by decide)) : Kept ks r out := by
  unfold execDmadesc at he
  refine kept_next he ?_
  clear he
  try dsimp only
  repeat' first
    | with_reducible assumption
    | exact sub_of hk (by decide)
    | intro _
    | with_reducible apply withIssue_kept
    | with_reducible apply refuse_kept
    | with_reducible apply setDma_kept
    | with_reducible apply kept_ite

theorem settleMarks_kept {ks : List Part} {r : State} (k n : Nat) {s : State} (h : Kept ks r s) (hk : [.plates, .units] ⊆ ks := by first | assumption | exact sub_of (by assumption) (by decide)) : Kept ks r (settleMarks k n s) := by
  induction n generalizing s with
  | zero => exact h
  | succ n ih =>
    unfold settleMarks
    dsimp only
    split
    · exact h
    · split
      · exact ih (complete_kept _ (setDma_kept _ _ h))
      · exact h

theorem execDmamark_kept {ks : List Part} {r out : State} (d : DieId) (e : Fin 2) (c : PCmd) {s : State} (h : Kept ks r s) (he : execDmamark d e c s = .next out) (hk : [.regs, .dict, .sat, .plates, .units, .host, .logs, .ledger] ⊆ ks := by first | assumption | exact sub_of (by assumption) (by decide)) : Kept ks r out := by
  unfold execDmamark at he
  refine kept_next he ?_
  clear he
  try dsimp only
  repeat' first
    | with_reducible assumption
    | exact sub_of hk (by decide)
    | intro _
    | with_reducible apply withIssue_kept
    | with_reducible apply refuse_kept
    | with_reducible apply setDma_kept
    | with_reducible apply settleMarks_kept
    | with_reducible apply kept_ite

theorem readUnits_kept {ks : List Part} {r : State} (client : Nat) (x : DDesc) (n k : Nat) {s : State} (h : Kept ks r s) (hk : [.mem, .regs, .dict, .sat, .banks, .clients, .host, .logs, .wear, .ledger, .served] ⊆ ks := by first | assumption | exact sub_of (by assumption) (by decide)) :
    Kept ks r (readUnits client x n k s).2 := by
  induction n generalizing k s with
  | zero => exact h
  | succ n ih => exact ih (k + 1) (readBuf_kept _ _ _ _ _ h)

theorem execDmaReadIssue_kept {ks : List Part} {r out : State} (d : DieId) (e : Fin 2) (q : Fin 8) {s : State} (h : Kept ks r s) (he : execDmaReadIssue d e q s = .next out) (hk : [.mem, .regs, .dict, .sat, .banks, .units, .clients, .host, .logs, .wear, .ledger, .served] ⊆ ks := by first | assumption | exact sub_of (by assumption) (by decide)) : Kept ks r out := by
  unfold execDmaReadIssue at he
  refine kept_next he ?_
  clear he
  try dsimp only
  repeat' first
    | with_reducible assumption
    | exact sub_of hk (by decide)
    | with_reducible apply charge_kept
    | with_reducible apply setDma_kept
    | with_reducible apply readUnits_kept
    | with_reducible apply crossBridge_kept
    | with_reducible apply kept_ite
    | split

/-- A property of the state that a unit leaves. -/
def UnitOut.all (p : State → Prop) : UnitOut → Prop
  | .waits => True
  | .stops t => p t
  | .done _ t => p t

theorem UnitOut.all_ite {p : State → Prop} {c : Prop} [Decidable c] {a b : UnitOut} (ha : a.all p) (hb : b.all p) :
    (if c then a else b).all p := by split <;> assumption

theorem localUnit_kept {ks : List Part} {r : State} (d client : Nat) (x : DDesc) (bs : List Byte) {s : State} (h : Kept ks r s) (hk : [.mem, .regs, .dict, .sat, .cat, .banks, .clients, .host, .logs, .wear, .ledger, .served] ⊆ ks := by first | assumption | exact sub_of (by assumption) (by decide)) :
    (localUnit d client x bs s).all (Kept ks r) := by
  unfold localUnit
  dsimp only
  refine UnitOut.all_ite (UnitOut.all_ite trivial ?_) (UnitOut.all_ite trivial (engineWrite_kept _ _ _ _ _ _ _ h))
  have hr := readBuf_kept client x.dst (x.dname / 4096) (x.dAt x.nWritten) x.unit h
  exact UnitOut.all_ite hr (UnitOut.all_ite hr hr)

theorem localUnits_kept {ks : List Part} {r : State} (d client : Nat) (n : Nat) (x : DDesc) (st : List (Nat × List Byte × Bool)) (b : Nat)
    {s : State} (h : Kept ks r s) (hk : [.mem, .regs, .dict, .sat, .cat, .banks, .clients, .host, .logs, .wear, .ledger, .served] ⊆ ks := by first | assumption | exact sub_of (by assumption) (by decide)) : Kept ks r (localUnits d client n x st b s).2.2.2.2 := by
  induction n generalizing x st b s with
  | zero => exact h
  | succ n ih =>
    cases st with
    | nil => exact h
    | cons u st =>
      unfold localUnits
      split
      · exact h
      · split
        · exact h
        · have hu := localUnit_kept d client x u.2.1 h
          split <;> rename_i heq <;> rw [heq] at hu
          · exact h
          · exact hu
          · exact ih _ _ _ hu

theorem remoteUnits_kept {ks : List Part} {r : State} (d : DieId) (e : Fin 2) (client : Nat) (x : DDesc) (bs : List Byte) {s : State} (h : Kept ks r s) (hk : [.fabric] ⊆ ks := by first | assumption | exact sub_of (by assumption) (by decide)) : Kept ks r (remoteUnits d e client x bs s) := by
  unfold remoteUnits
  try dsimp only
  repeat' first
    | with_reducible assumption
    | with_reducible apply addPacket_kept
    | with_reducible apply beginTx_kept
    | with_reducible apply feedTx_kept
    | with_reducible apply kept_ite

theorem countDma_kept {ks : List Part} {r : State} (d : Nat) (e : Nat) (q : Nat) (n : Nat) {s : State} (h : Kept ks r s) (hk : [.regs, .dict, .sat, .host, .logs] ⊆ ks := by first | assumption | exact sub_of (by assumption) (by decide)) : Kept ks r (countDma d e q n s) := by
  unfold countDma
  try dsimp only
  repeat' first
    | with_reducible assumption
    | exact sub_of hk (by decide)
    | with_reducible apply bump_kept
    | with_reducible apply bumpDict_kept
    | with_reducible apply kept_ite

theorem stopDesc_kept {ks : List Part} {r : State} (k : Nat) (d : Nat) (e : Nat) (q : Nat) (x : DDesc) {s : State} (h : Kept ks r s) (hk : [.regs, .units] ⊆ ks := by first | assumption | exact sub_of (by assumption) (by decide)) : Kept ks r (stopDesc k d e q x s) := by
  unfold stopDesc
  try dsimp only
  repeat' first
    | with_reducible assumption
    | exact sub_of hk (by decide)
    | with_reducible apply setBit_kept
    | with_reducible apply setDma_kept

theorem execDmaWriteUnits_kept {ks : List Part} {r out : State} (d : DieId) (e : Fin 2) (q : Fin 8) {s : State} (h : Kept ks r s) (he : execDmaWriteUnits d e q s = .next out) (hk : [.mem, .regs, .dict, .sat, .cat, .banks, .units, .clients, .fabric, .host, .logs, .wear, .ledger, .served] ⊆ ks := by first | assumption | exact sub_of (by assumption) (by decide)) : Kept ks r out := by
  unfold execDmaWriteUnits at he
  refine kept_next he ?_
  clear he
  try dsimp only
  repeat' first
    | with_reducible assumption
    | exact sub_of hk (by decide)
    | with_reducible apply setDma_kept
    | with_reducible apply charge_kept
    | with_reducible apply countDma_kept
    | with_reducible apply remoteUnits_kept
    | with_reducible apply stopDesc_kept
    | with_reducible apply localUnits_kept
    | with_reducible apply kept_ite
    | split

theorem execDmaDescComplete_kept {ks : List Part} {r out : State} (d : DieId) (e : Fin 2) (q : Fin 8) {s : State} (h : Kept ks r s) (he : execDmaDescComplete d e q s = .next out) (hk : [.regs, .plates, .units, .clients, .fabric] ⊆ ks := by first | assumption | exact sub_of (by assumption) (by decide)) : Kept ks r out := by
  unfold execDmaDescComplete at he
  refine kept_next he ?_
  clear he
  try dsimp only
  repeat' first
    | with_reducible assumption
    | exact sub_of hk (by decide)
    | with_reducible apply setDma_kept
    | with_reducible apply setReg_kept
    | with_reducible apply settleMarks_kept
    | with_reducible apply complete_kept
    | with_reducible apply endTx_kept
    | with_reducible apply kept_ite
    | split

end Sys2Proof.Machine
end

