-- ==== Sys2Proof/Laws/KeptVecOps.lean ====
section
/-! SUPPORT. What the operations of Machine/VecOps.lean keep (Laws/Kept.lean). -/

set_option Elab.async false

namespace Sys2Proof.Machine

theorem noteVecErr_kept {ks : List Part} {r : State} (t : TileId) (client : Nat) (reg : Nat) (pair : Nat) (r0 : ReadErr) {s : State} (h : Kept ks r s) (hk : [.regs, .clients, .host, .logs] ⊆ ks := by first | assumption | exact sub_of (by assumption) (by decide)) : Kept ks r (noteVecErr t client reg pair r0 s) := by
  unfold noteVecErr
  try dsimp only
  repeat' first
    | with_reducible assumption
    | exact sub_of hk (by decide)
    | with_reducible apply setBit_kept
    | with_reducible apply postUncorr_kept
    | with_reducible apply kept_ite

theorem vecUpset_kept {ks : List Part} {r : State} (t : TileId) (client : Nat) (w : Word) (u : Upset) {s : State} (h : Kept ks r s) (hk : [.regs, .tiles, .clients, .host, .logs, .free] ⊆ ks := by first | assumption | exact sub_of (by assumption) (by decide)) : Kept ks r (vecUpset t client w u s) := by
  unfold vecUpset
  try dsimp only
  repeat' first
    | with_reducible assumption
    | exact sub_of hk (by decide)
    | with_reducible apply noteVecErr_kept
    | with_reducible apply setVec_kept
    | with_reducible apply fresh_kept
    | with_reducible apply kept_ite
    | split

theorem vecUpsets_kept {ks : List Part} {r : State} (t : TileId) (client : Nat) (w : Word) (us : List Upset) {s : State} (h : Kept ks r s) (hk : [.regs, .tiles, .clients, .host, .logs, .free] ⊆ ks := by first | assumption | exact sub_of (by assumption) (by decide)) : Kept ks r (vecUpsets t client w us s) := by
  unfold vecUpsets
  try dsimp only
  repeat' first
    | with_reducible assumption
    | intro _
    | with_reducible apply vecUpset_kept
    | with_reducible apply kept_foldl

theorem retire_kept {ks : List Part} {r : State} (t : TileId) {s : State} (h : Kept ks r s) (hk : [.regs, .sat, .tiles, .host, .logs] ⊆ ks := by first | assumption | exact sub_of (by assumption) (by decide)) : Kept ks r (retire t s) := by
  unfold retire
  try dsimp only
  repeat' first
    | with_reducible assumption
    | exact sub_of hk (by decide)
    | with_reducible apply bump_kept
    | with_reducible apply setVec_kept

/-- A property of the state that an instruction leaves. -/
def IRes.all (p : State → Prop) : IRes → Prop
  | .done t => p t
  | .wait _ => True
  | .fault t => p t

theorem IRes.all_wait {p : State → Prop} {k : Nat} : (IRes.wait k).all p := trivial
theorem IRes.all_done {p : State → Prop} {t : State} (h : p t) : (IRes.done t).all p := h
theorem IRes.all_ite {p : State → Prop} {c : Prop} [Decidable c] {a b : IRes} (ha : a.all p) (hb : b.all p) :
    (if c then a else b).all p := by split <;> assumption

theorem runInstr_kept {ks : List Part} {r out : State} {o : Nat} {t : TileId} {w : Word} {us : List Upset} {s : State} {k : State → IRes}
    (h : Kept ks r s) (hc : ∀ s, Kept ks r s → (k s).all (Kept ks r)) (he : runInstr o t w us s k = .next out) (hk : [.regs, .dict, .sat, .tiles, .clients, .host, .logs, .ledger, .free] ⊆ ks := by first | assumption | exact sub_of (by assumption) (by decide)) : Kept ks r out := by
  unfold runInstr at he
  refine kept_next he ?_
  split
  · exact h
  · split
    · exact h
    · have hi := hc _ (vecUpsets_kept t (clientOn s (tileDie t)) w us h)
      split <;> rename_i heq <;> rw [heq] at hi
      · exact charge_kept _ _ (retire_kept _ hi)
      · exact charge_kept _ _ h
      · exact charge_kept _ _ hi

theorem runLane_kept {ks : List Part} {r out : State} {o : Nat} {t : TileId} {w : Word} {us : List Upset} {s : State} {f : VecS → VecS}
    (h : Kept ks r s) (he : runLane o t w us s f = .next out) (hk : [.regs, .dict, .sat, .tiles, .clients, .host, .logs, .ledger, .free] ⊆ ks := by first | assumption | exact sub_of (by assumption) (by decide)) : Kept ks r out :=
  runInstr_kept (k := fun s => .done (setVec t (f (getVec s t)) s)) h (fun _ hs => setVec_kept _ _ hs) he

theorem countNf_kept {ks : List Part} {r : State} (t : TileId) (n : Nat) {s : State} (h : Kept ks r s) (hk : [.regs, .sat, .host, .logs] ⊆ ks := by first | assumption | exact sub_of (by assumption) (by decide)) : Kept ks r (countNf t n s) := by
  unfold countNf
  try dsimp only
  repeat' first
    | with_reducible assumption
    | exact sub_of hk (by decide)
    | with_reducible apply bump_kept
    | with_reducible apply setBit_kept
    | with_reducible apply kept_ite

theorem runFp_kept {ks : List Part} {r out : State} {o : Nat} {t : TileId} {w : Word} {us : List Upset} {s : State}
    {f : VecS → Fin 512 → Lane} {fin : VecS → Fin 512 → Bool} (h : Kept ks r s) (he : runFp o t w us s f fin = .next out) (hk : [.regs, .dict, .sat, .tiles, .clients, .host, .logs, .ledger, .free] ⊆ ks := by first | assumption | exact sub_of (by assumption) (by decide)) :
    Kept ks r out := by
  unfold runFp at he
  refine runInstr_kept h (fun s hs => ?_) he
  exact countNf_kept _ _ (setVec_kept _ _ hs)

theorem runFp1_kept {ks : List Part} {r out : State} {o : Nat} {t : TileId} {w : Word} {us : List Upset} {s : State}
    {f : Lane → Lane} (h : Kept ks r s) (he : runFp1 o t w us s f = .next out) (hk : [.regs, .dict, .sat, .tiles, .clients, .host, .logs, .ledger, .free] ⊆ ks := by first | assumption | exact sub_of (by assumption) (by decide)) : Kept ks r out :=
  runFp_kept h he

theorem runFp2_kept {ks : List Part} {r out : State} {o : Nat} {t : TileId} {w : Word} {us : List Upset} {s : State}
    {f : Lane → Lane → Lane} (h : Kept ks r s) (he : runFp2 o t w us s f = .next out) (hk : [.regs, .dict, .sat, .tiles, .clients, .host, .logs, .ledger, .free] ⊆ ks := by first | assumption | exact sub_of (by assumption) (by decide)) : Kept ks r out :=
  runFp_kept h he

theorem runFp3_kept {ks : List Part} {r out : State} {o : Nat} {t : TileId} {w : Word} {us : List Upset} {s : State}
    {f : Lane → Lane → Lane → Lane} (h : Kept ks r s) (he : runFp3 o t w us s f = .next out) (hk : [.regs, .dict, .sat, .tiles, .clients, .host, .logs, .ledger, .free] ⊆ ks := by first | assumption | exact sub_of (by assumption) (by decide)) : Kept ks r out :=
  runFp_kept h he

theorem runInt2_kept {ks : List Part} {r out : State} {o : Nat} {t : TileId} {w : Word} {us : List Upset} {s : State}
    {f : Lane → Lane → Lane} (h : Kept ks r s) (he : runInt2 o t w us s f = .next out) (hk : [.regs, .dict, .sat, .tiles, .clients, .host, .logs, .ledger, .free] ⊆ ks := by first | assumption | exact sub_of (by assumption) (by decide)) : Kept ks r out :=
  runLane_kept h he

theorem afterDraw_kept {ks : List Part} {r : State} (t : TileId) {s : State} (h : Kept ks r s) (hk : [.regs, .sat, .tiles, .host, .logs] ⊆ ks := by first | assumption | exact sub_of (by assumption) (by decide)) : Kept ks r (afterDraw t s) := by
  unfold afterDraw
  try dsimp only
  repeat' first
    | with_reducible assumption
    | exact sub_of hk (by decide)
    | with_reducible apply bump_kept
    | with_reducible apply setVec_kept
    | with_reducible apply post_kept
    | with_reducible apply setBit_kept
    | with_reducible apply kept_ite

theorem countVSat_kept {ks : List Part} {r : State} (t : TileId) (n : Nat) {s : State} (h : Kept ks r s) (hk : [.regs, .sat, .host, .logs] ⊆ ks := by first | assumption | exact sub_of (by assumption) (by decide)) : Kept ks r (countVSat t n s) := by
  unfold countVSat
  try dsimp only
  repeat' first
    | with_reducible assumption
    | with_reducible apply bump_kept
    | with_reducible apply kept_ite

theorem noteExactSat_kept {ks : List Part} {r : State} (t : TileId) (b : Bool) {s : State} (h : Kept ks r s) (hk : [.regs, .clients] ⊆ ks := by first | assumption | exact sub_of (by assumption) (by decide)) : Kept ks r (noteExactSat t b s) := by
  unfold noteExactSat
  try dsimp only
  repeat' first
    | with_reducible assumption
    | exact sub_of hk (by decide)
    | with_reducible apply setBit_kept
    | with_reducible apply setScope_kept
    | with_reducible apply kept_ite

theorem skipInstr_kept {ks : List Part} {r : State} (t : TileId) {s : State} (h : Kept ks r s) (hk : [.regs, .host, .logs] ⊆ ks := by first | assumption | exact sub_of (by assumption) (by decide)) : Kept ks r (skipInstr t s) := by
  unfold skipInstr
  try dsimp only
  repeat' first
    | with_reducible assumption
    | exact sub_of hk (by decide)
    | with_reducible apply noteIllegal_kept
    | with_reducible apply setBit_kept
    | split

theorem pushDone_kept {ks : List Part} {r : State} (t : TileId) (k : Nat) (offs : VReg) (vals : Fin 512 → DVal) (q : Bool) (d : Desc) (segs : List (Nat × Nat × Nat × RowRes)) {s : State} (h : Kept ks r s) (hk : [.regs, .sat, .tiles, .clients, .host, .logs] ⊆ ks := by first | assumption | exact sub_of (by assumption) (by decide)) : Kept ks r (pushDone t k offs vals q d segs s) := by
  unfold pushDone
  try dsimp only
  repeat' first
    | with_reducible assumption
    | exact sub_of hk (by decide)
    | with_reducible apply setStr_kept
    | with_reducible apply afterDraw_kept
    | with_reducible apply countVSat_kept
    | with_reducible apply bump_kept
    | with_reducible apply producerFlags_kept
    | with_reducible apply kept_ite

theorem pushValues_kept {ks : List Part} {r : State} (t : TileId) (k : Nat) (offs : VReg) (vals : Fin 512 → DVal) {s : State}
    (h : Kept ks r s) (hk : [.regs, .dict, .sat, .tiles, .clients, .host, .logs] ⊆ ks := by first | assumption | exact sub_of (by assumption) (by decide)) : (pushValues t k offs vals s).all (Kept ks r) := by
  unfold pushValues
  split
  · trivial
  · exact faultRegion_kept _ _ _ _ _ h
  · exact pushDone_kept _ _ _ _ _ _ _ h

end Sys2Proof.Machine
end

