-- ==== Sys2Proof/Laws/KeptVector.lean ====
section
/-! SUPPORT. What the operations of Machine/Vector.lean keep (Laws/Kept.lean). -/

set_option Elab.async false

namespace Sys2Proof.Machine

theorem execVblock_kept {ks : List Part} {r out : State} (t : TileId) (c : PCmd) {s : State} (h : Kept ks r s) (he : execVblock t c s = .next out) (hk : [.regs, .dict, .sat, .plates, .tiles, .host, .logs, .ledger] ⊆ ks := by first | assumption | exact sub_of (by assumption) (by decide)) : Kept ks r out := by
  unfold execVblock at he
  refine kept_next he ?_
  clear he
  try dsimp only
  repeat' first
    | with_reducible assumption
    | exact sub_of hk (by decide)
    | intro _
    | with_reducible apply withIssue_kept
    | with_reducible apply refuse_kept
    | with_reducible apply setVec_kept
    | with_reducible apply kept_ite

theorem execVblockComplete_kept {ks : List Part} {r out : State} (t : TileId) {s : State} (h : Kept ks r s) (he : execVblockComplete t s = .next out) (hk : [.plates, .tiles] ⊆ ks := by first | assumption | exact sub_of (by assumption) (by decide)) : Kept ks r out := by
  unfold execVblockComplete at he
  refine kept_next he ?_
  clear he
  try dsimp only
  repeat' first
    | with_reducible assumption
    | exact sub_of hk (by decide)
    | with_reducible apply complete_kept
    | with_reducible apply setVec_kept
    | with_reducible apply kept_ite
    | split

theorem execNop_kept {ks : List Part} {r out : State} (t : TileId) (w : Word) (u : List Upset) {s : State} (h : Kept ks r s) (he : execNop t w u s = .next out) (hk : [.regs, .dict, .sat, .tiles, .clients, .host, .logs, .ledger, .free] ⊆ ks := by first | assumption | exact sub_of (by assumption) (by decide)) : Kept ks r out := by
  unfold execNop at he
  exact runLane_kept h he

theorem execVmov_kept {ks : List Part} {r out : State} (t : TileId) (w : Word) (u : List Upset) {s : State} (h : Kept ks r s) (he : execVmov t w u s = .next out) (hk : [.regs, .dict, .sat, .tiles, .clients, .host, .logs, .ledger, .free] ⊆ ks := by first | assumption | exact sub_of (by assumption) (by decide)) : Kept ks r out := by
  unfold execVmov at he
  exact runLane_kept h he

theorem execVimm_kept {ks : List Part} {r out : State} (t : TileId) (w : Word) (u : List Upset) {s : State} (h : Kept ks r s) (he : execVimm t w u s = .next out) (hk : [.regs, .dict, .sat, .tiles, .clients, .host, .logs, .ledger, .free] ⊆ ks := by first | assumption | exact sub_of (by assumption) (by decide)) : Kept ks r out := by
  unfold execVimm at he
  exact runLane_kept h he

theorem execViota_kept {ks : List Part} {r out : State} (t : TileId) (w : Word) (u : List Upset) {s : State} (h : Kept ks r s) (he : execViota t w u s = .next out) (hk : [.regs, .dict, .sat, .tiles, .clients, .host, .logs, .ledger, .free] ⊆ ks := by first | assumption | exact sub_of (by assumption) (by decide)) : Kept ks r out := by
  unfold execViota at he
  exact runLane_kept h he

theorem execVsel_kept {ks : List Part} {r out : State} (t : TileId) (w : Word) (u : List Upset) {s : State} (h : Kept ks r s) (he : execVsel t w u s = .next out) (hk : [.regs, .dict, .sat, .tiles, .clients, .host, .logs, .ledger, .free] ⊆ ks := by first | assumption | exact sub_of (by assumption) (by decide)) : Kept ks r out := by
  unfold execVsel at he
  exact runLane_kept h he

theorem execVadd_kept {ks : List Part} {r out : State} (t : TileId) (w : Word) (u : List Upset) {s : State} (h : Kept ks r s) (he : execVadd t w u s = .next out) (hk : [.regs, .dict, .sat, .tiles, .clients, .host, .logs, .ledger, .free] ⊆ ks := by first | assumption | exact sub_of (by assumption) (by decide)) : Kept ks r out := by
  unfold execVadd at he
  exact runFp2_kept h he

theorem execVsub_kept {ks : List Part} {r out : State} (t : TileId) (w : Word) (u : List Upset) {s : State} (h : Kept ks r s) (he : execVsub t w u s = .next out) (hk : [.regs, .dict, .sat, .tiles, .clients, .host, .logs, .ledger, .free] ⊆ ks := by first | assumption | exact sub_of (by assumption) (by decide)) : Kept ks r out := by
  unfold execVsub at he
  exact runFp2_kept h he

theorem execVmul_kept {ks : List Part} {r out : State} (t : TileId) (w : Word) (u : List Upset) {s : State} (h : Kept ks r s) (he : execVmul t w u s = .next out) (hk : [.regs, .dict, .sat, .tiles, .clients, .host, .logs, .ledger, .free] ⊆ ks := by first | assumption | exact sub_of (by assumption) (by decide)) : Kept ks r out := by
  unfold execVmul at he
  exact runFp2_kept h he

theorem execVmin_kept {ks : List Part} {r out : State} (t : TileId) (w : Word) (u : List Upset) {s : State} (h : Kept ks r s) (he : execVmin t w u s = .next out) (hk : [.regs, .dict, .sat, .tiles, .clients, .host, .logs, .ledger, .free] ⊆ ks := by first | assumption | exact sub_of (by assumption) (by decide)) : Kept ks r out := by
  unfold execVmin at he
  exact runFp2_kept h he

theorem execVmax_kept {ks : List Part} {r out : State} (t : TileId) (w : Word) (u : List Upset) {s : State} (h : Kept ks r s) (he : execVmax t w u s = .next out) (hk : [.regs, .dict, .sat, .tiles, .clients, .host, .logs, .ledger, .free] ⊆ ks := by first | assumption | exact sub_of (by assumption) (by decide)) : Kept ks r out := by
  unfold execVmax at he
  exact runFp2_kept h he

theorem execVdiv_kept {ks : List Part} {r out : State} (t : TileId) (w : Word) (u : List Upset) {s : State} (h : Kept ks r s) (he : execVdiv t w u s = .next out) (hk : [.regs, .dict, .sat, .tiles, .clients, .host, .logs, .ledger, .free] ⊆ ks := by first | assumption | exact sub_of (by assumption) (by decide)) : Kept ks r out := by
  unfold execVdiv at he
  exact runFp2_kept h he

theorem execVfma_kept {ks : List Part} {r out : State} (t : TileId) (w : Word) (u : List Upset) {s : State} (h : Kept ks r s) (he : execVfma t w u s = .next out) (hk : [.regs, .dict, .sat, .tiles, .clients, .host, .logs, .ledger, .free] ⊆ ks := by first | assumption | exact sub_of (by assumption) (by decide)) : Kept ks r out := by
  unfold execVfma at he
  exact runFp3_kept h he

theorem execVfms_kept {ks : List Part} {r out : State} (t : TileId) (w : Word) (u : List Upset) {s : State} (h : Kept ks r s) (he : execVfms t w u s = .next out) (hk : [.regs, .dict, .sat, .tiles, .clients, .host, .logs, .ledger, .free] ⊆ ks := by first | assumption | exact sub_of (by assumption) (by decide)) : Kept ks r out := by
  unfold execVfms at he
  exact runFp3_kept h he

theorem execVfnma_kept {ks : List Part} {r out : State} (t : TileId) (w : Word) (u : List Upset) {s : State} (h : Kept ks r s) (he : execVfnma t w u s = .next out) (hk : [.regs, .dict, .sat, .tiles, .clients, .host, .logs, .ledger, .free] ⊆ ks := by first | assumption | exact sub_of (by assumption) (by decide)) : Kept ks r out := by
  unfold execVfnma at he
  exact runFp3_kept h he

theorem execVabs_kept {ks : List Part} {r out : State} (t : TileId) (w : Word) (u : List Upset) {s : State} (h : Kept ks r s) (he : execVabs t w u s = .next out) (hk : [.regs, .dict, .sat, .tiles, .clients, .host, .logs, .ledger, .free] ⊆ ks := by first | assumption | exact sub_of (by assumption) (by decide)) : Kept ks r out := by
  unfold execVabs at he
  exact runFp1_kept h he

theorem execVneg_kept {ks : List Part} {r out : State} (t : TileId) (w : Word) (u : List Upset) {s : State} (h : Kept ks r s) (he : execVneg t w u s = .next out) (hk : [.regs, .dict, .sat, .tiles, .clients, .host, .logs, .ledger, .free] ⊆ ks := by first | assumption | exact sub_of (by assumption) (by decide)) : Kept ks r out := by
  unfold execVneg at he
  exact runFp1_kept h he

theorem execVaddi_kept {ks : List Part} {r out : State} (t : TileId) (w : Word) (u : List Upset) {s : State} (h : Kept ks r s) (he : execVaddi t w u s = .next out) (hk : [.regs, .dict, .sat, .tiles, .clients, .host, .logs, .ledger, .free] ⊆ ks := by first | assumption | exact sub_of (by assumption) (by decide)) : Kept ks r out := by
  unfold execVaddi at he
  exact runFp_kept h he

theorem execVmuli_kept {ks : List Part} {r out : State} (t : TileId) (w : Word) (u : List Upset) {s : State} (h : Kept ks r s) (he : execVmuli t w u s = .next out) (hk : [.regs, .dict, .sat, .tiles, .clients, .host, .logs, .ledger, .free] ⊆ ks := by first | assumption | exact sub_of (by assumption) (by decide)) : Kept ks r out := by
  unfold execVmuli at he
  exact runFp_kept h he

theorem execVfmai_kept {ks : List Part} {r out : State} (t : TileId) (w : Word) (u : List Upset) {s : State} (h : Kept ks r s) (he : execVfmai t w u s = .next out) (hk : [.regs, .dict, .sat, .tiles, .clients, .host, .logs, .ledger, .free] ⊆ ks := by first | assumption | exact sub_of (by assumption) (by decide)) : Kept ks r out := by
  unfold execVfmai at he
  exact runFp_kept h he

theorem execVsqrt_kept {ks : List Part} {r out : State} (t : TileId) (w : Word) (u : List Upset) {s : State} (h : Kept ks r s) (he : execVsqrt t w u s = .next out) (hk : [.regs, .dict, .sat, .tiles, .clients, .host, .logs, .ledger, .free] ⊆ ks := by first | assumption | exact sub_of (by assumption) (by decide)) : Kept ks r out := by
  unfold execVsqrt at he
  exact runFp1_kept h he

theorem execVrsqrt_kept {ks : List Part} {r out : State} (t : TileId) (w : Word) (u : List Upset) {s : State} (h : Kept ks r s) (he : execVrsqrt t w u s = .next out) (hk : [.regs, .dict, .sat, .tiles, .clients, .host, .logs, .ledger, .free] ⊆ ks := by first | assumption | exact sub_of (by assumption) (by decide)) : Kept ks r out := by
  unfold execVrsqrt at he
  exact runFp1_kept h he

theorem execVrcp_kept {ks : List Part} {r out : State} (t : TileId) (w : Word) (u : List Upset) {s : State} (h : Kept ks r s) (he : execVrcp t w u s = .next out) (hk : [.regs, .dict, .sat, .tiles, .clients, .host, .logs, .ledger, .free] ⊆ ks := by first | assumption | exact sub_of (by assumption) (by decide)) : Kept ks r out := by
  unfold execVrcp at he
  exact runFp1_kept h he

theorem execVexp_kept {ks : List Part} {r out : State} (t : TileId) (w : Word) (u : List Upset) {s : State} (h : Kept ks r s) (he : execVexp t w u s = .next out) (hk : [.regs, .dict, .sat, .tiles, .clients, .host, .logs, .ledger, .free] ⊆ ks := by first | assumption | exact sub_of (by assumption) (by decide)) : Kept ks r out := by
  unfold execVexp at he
  exact runFp1_kept h he

theorem execVexp2_kept {ks : List Part} {r out : State} (t : TileId) (w : Word) (u : List Upset) {s : State} (h : Kept ks r s) (he : execVexp2 t w u s = .next out) (hk : [.regs, .dict, .sat, .tiles, .clients, .host, .logs, .ledger, .free] ⊆ ks := by first | assumption | exact sub_of (by assumption) (by decide)) : Kept ks r out := by
  unfold execVexp2 at he
  exact runFp1_kept h he

theorem execVlog_kept {ks : List Part} {r out : State} (t : TileId) (w : Word) (u : List Upset) {s : State} (h : Kept ks r s) (he : execVlog t w u s = .next out) (hk : [.regs, .dict, .sat, .tiles, .clients, .host, .logs, .ledger, .free] ⊆ ks := by first | assumption | exact sub_of (by assumption) (by decide)) : Kept ks r out := by
  unfold execVlog at he
  exact runFp1_kept h he

theorem execVlog2_kept {ks : List Part} {r out : State} (t : TileId) (w : Word) (u : List Upset) {s : State} (h : Kept ks r s) (he : execVlog2 t w u s = .next out) (hk : [.regs, .dict, .sat, .tiles, .clients, .host, .logs, .ledger, .free] ⊆ ks := by first | assumption | exact sub_of (by assumption) (by decide)) : Kept ks r out := by
  unfold execVlog2 at he
  exact runFp1_kept h he

theorem execVtanh_kept {ks : List Part} {r out : State} (t : TileId) (w : Word) (u : List Upset) {s : State} (h : Kept ks r s) (he : execVtanh t w u s = .next out) (hk : [.regs, .dict, .sat, .tiles, .clients, .host, .logs, .ledger, .free] ⊆ ks := by first | assumption | exact sub_of (by assumption) (by decide)) : Kept ks r out := by
  unfold execVtanh at he
  exact runFp1_kept h he

theorem execVsigm_kept {ks : List Part} {r out : State} (t : TileId) (w : Word) (u : List Upset) {s : State} (h : Kept ks r s) (he : execVsigm t w u s = .next out) (hk : [.regs, .dict, .sat, .tiles, .clients, .host, .logs, .ledger, .free] ⊆ ks := by first | assumption | exact sub_of (by assumption) (by decide)) : Kept ks r out := by
  unfold execVsigm at he
  exact runFp1_kept h he

theorem execVerf_kept {ks : List Part} {r out : State} (t : TileId) (w : Word) (u : List Upset) {s : State} (h : Kept ks r s) (he : execVerf t w u s = .next out) (hk : [.regs, .dict, .sat, .tiles, .clients, .host, .logs, .ledger, .free] ⊆ ks := by first | assumption | exact sub_of (by assumption) (by decide)) : Kept ks r out := by
  unfold execVerf at he
  exact runFp1_kept h he

theorem execVsin_kept {ks : List Part} {r out : State} (t : TileId) (w : Word) (u : List Upset) {s : State} (h : Kept ks r s) (he : execVsin t w u s = .next out) (hk : [.regs, .dict, .sat, .tiles, .clients, .host, .logs, .ledger, .free] ⊆ ks := by first | assumption | exact sub_of (by assumption) (by decide)) : Kept ks r out := by
  unfold execVsin at he
  exact runFp1_kept h he

theorem execVcos_kept {ks : List Part} {r out : State} (t : TileId) (w : Word) (u : List Upset) {s : State} (h : Kept ks r s) (he : execVcos t w u s = .next out) (hk : [.regs, .dict, .sat, .tiles, .clients, .host, .logs, .ledger, .free] ⊆ ks := by first | assumption | exact sub_of (by assumption) (by decide)) : Kept ks r out := by
  unfold execVcos at he
  exact runFp1_kept h he

theorem execViadd_kept {ks : List Part} {r out : State} (t : TileId) (w : Word) (u : List Upset) {s : State} (h : Kept ks r s) (he : execViadd t w u s = .next out) (hk : [.regs, .dict, .sat, .tiles, .clients, .host, .logs, .ledger, .free] ⊆ ks := by first | assumption | exact sub_of (by assumption) (by decide)) : Kept ks r out := by
  unfold execViadd at he
  exact runInt2_kept h he

theorem execVisub_kept {ks : List Part} {r out : State} (t : TileId) (w : Word) (u : List Upset) {s : State} (h : Kept ks r s) (he : execVisub t w u s = .next out) (hk : [.regs, .dict, .sat, .tiles, .clients, .host, .logs, .ledger, .free] ⊆ ks := by first | assumption | exact sub_of (by assumption) (by decide)) : Kept ks r out := by
  unfold execVisub at he
  exact runInt2_kept h he

theorem execVimul_kept {ks : List Part} {r out : State} (t : TileId) (w : Word) (u : List Upset) {s : State} (h : Kept ks r s) (he : execVimul t w u s = .next out) (hk : [.regs, .dict, .sat, .tiles, .clients, .host, .logs, .ledger, .free] ⊆ ks := by first | assumption | exact sub_of (by assumption) (by decide)) : Kept ks r out := by
  unfold execVimul at he
  exact runInt2_kept h he

theorem execVand_kept {ks : List Part} {r out : State} (t : TileId) (w : Word) (u : List Upset) {s : State} (h : Kept ks r s) (he : execVand t w u s = .next out) (hk : [.regs, .dict, .sat, .tiles, .clients, .host, .logs, .ledger, .free] ⊆ ks := by first | assumption | exact sub_of (by assumption) (by decide)) : Kept ks r out := by
  unfold execVand at he
  exact runInt2_kept h he

theorem execVor_kept {ks : List Part} {r out : State} (t : TileId) (w : Word) (u : List Upset) {s : State} (h : Kept ks r s) (he : execVor t w u s = .next out) (hk : [.regs, .dict, .sat, .tiles, .clients, .host, .logs, .ledger, .free] ⊆ ks := by first | assumption | exact sub_of (by assumption) (by decide)) : Kept ks r out := by
  unfold execVor at he
  exact runInt2_kept h he

theorem execVxor_kept {ks : List Part} {r out : State} (t : TileId) (w : Word) (u : List Upset) {s : State} (h : Kept ks r s) (he : execVxor t w u s = .next out) (hk : [.regs, .dict, .sat, .tiles, .clients, .host, .logs, .ledger, .free] ⊆ ks := by first | assumption | exact sub_of (by assumption) (by decide)) : Kept ks r out := by
  unfold execVxor at he
  exact runInt2_kept h he

theorem execVshl_kept {ks : List Part} {r out : State} (t : TileId) (w : Word) (u : List Upset) {s : State} (h : Kept ks r s) (he : execVshl t w u s = .next out) (hk : [.regs, .dict, .sat, .tiles, .clients, .host, .logs, .ledger, .free] ⊆ ks := by first | assumption | exact sub_of (by assumption) (by decide)) : Kept ks r out := by
  unfold execVshl at he
  exact runInt2_kept h he

theorem execVshr_kept {ks : List Part} {r out : State} (t : TileId) (w : Word) (u : List Upset) {s : State} (h : Kept ks r s) (he : execVshr t w u s = .next out) (hk : [.regs, .dict, .sat, .tiles, .clients, .host, .logs, .ledger, .free] ⊆ ks := by first | assumption | exact sub_of (by assumption) (by decide)) : Kept ks r out := by
  unfold execVshr at he
  exact runInt2_kept h he

theorem execViaddi_kept {ks : List Part} {r out : State} (t : TileId) (w : Word) (u : List Upset) {s : State} (h : Kept ks r s) (he : execViaddi t w u s = .next out) (hk : [.regs, .dict, .sat, .tiles, .clients, .host, .logs, .ledger, .free] ⊆ ks := by first | assumption | exact sub_of (by assumption) (by decide)) : Kept ks r out := by
  unfold execViaddi at he
  exact runLane_kept h he

theorem execVcvtif_kept {ks : List Part} {r out : State} (t : TileId) (w : Word) (u : List Upset) {s : State} (h : Kept ks r s) (he : execVcvtif t w u s = .next out) (hk : [.regs, .dict, .sat, .tiles, .clients, .host, .logs, .ledger, .free] ⊆ ks := by first | assumption | exact sub_of (by assumption) (by decide)) : Kept ks r out := by
  unfold execVcvtif at he
  exact runLane_kept h he

theorem execVcvtfi_kept {ks : List Part} {r out : State} (t : TileId) (w : Word) (u : List Upset) {s : State} (h : Kept ks r s) (he : execVcvtfi t w u s = .next out) (hk : [.regs, .dict, .sat, .tiles, .clients, .host, .logs, .ledger, .free] ⊆ ks := by first | assumption | exact sub_of (by assumption) (by decide)) : Kept ks r out := by
  unfold execVcvtfi at he
  exact runLane_kept h he

theorem execVcmp_kept {ks : List Part} {r out : State} (t : TileId) (w : Word) (u : List Upset) {s : State} (h : Kept ks r s) (he : execVcmp t w u s = .next out) (hk : [.regs, .dict, .sat, .tiles, .clients, .host, .logs, .ledger, .free] ⊆ ks := by first | assumption | exact sub_of (by assumption) (by decide)) : Kept ks r out := by
  unfold execVcmp at he
  exact runLane_kept h he

theorem execVicmp_kept {ks : List Part} {r out : State} (t : TileId) (w : Word) (u : List Upset) {s : State} (h : Kept ks r s) (he : execVicmp t w u s = .next out) (hk : [.regs, .dict, .sat, .tiles, .clients, .host, .logs, .ledger, .free] ⊆ ks := by first | assumption | exact sub_of (by assumption) (by decide)) : Kept ks r out := by
  unfold execVicmp at he
  exact runLane_kept h he

theorem execMop_kept {ks : List Part} {r out : State} (t : TileId) (w : Word) (u : List Upset) {s : State} (h : Kept ks r s) (he : execMop t w u s = .next out) (hk : [.regs, .dict, .sat, .tiles, .clients, .host, .logs, .ledger, .free] ⊆ ks := by first | assumption | exact sub_of (by assumption) (by decide)) : Kept ks r out := by
  unfold execMop at he
  exact runLane_kept h he

theorem execMlane_kept {ks : List Part} {r out : State} (t : TileId) (w : Word) (u : List Upset) {s : State} (h : Kept ks r s) (he : execMlane t w u s = .next out) (hk : [.regs, .dict, .sat, .tiles, .clients, .host, .logs, .ledger, .free] ⊆ ks := by first | assumption | exact sub_of (by assumption) (by decide)) : Kept ks r out := by
  unfold execMlane at he
  exact runLane_kept h he

theorem execVrmax_kept {ks : List Part} {r out : State} (t : TileId) (w : Word) (u : List Upset) {s : State} (h : Kept ks r s) (he : execVrmax t w u s = .next out) (hk : [.regs, .dict, .sat, .tiles, .clients, .host, .logs, .ledger, .free] ⊆ ks := by first | assumption | exact sub_of (by assumption) (by decide)) : Kept ks r out := by
  unfold execVrmax at he
  exact runLane_kept h he

theorem execVrmin_kept {ks : List Part} {r out : State} (t : TileId) (w : Word) (u : List Upset) {s : State} (h : Kept ks r s) (he : execVrmin t w u s = .next out) (hk : [.regs, .dict, .sat, .tiles, .clients, .host, .logs, .ledger, .free] ⊆ ks := by first | assumption | exact sub_of (by assumption) (by decide)) : Kept ks r out := by
  unfold execVrmin at he
  exact runLane_kept h he

theorem execVperm_kept {ks : List Part} {r out : State} (t : TileId) (w : Word) (u : List Upset) {s : State} (h : Kept ks r s) (he : execVperm t w u s = .next out) (hk : [.regs, .dict, .sat, .tiles, .clients, .host, .logs, .ledger, .free] ⊆ ks := by first | assumption | exact sub_of (by assumption) (by decide)) : Kept ks r out := by
  unfold execVperm at he
  exact runLane_kept h he

theorem execVrot_kept {ks : List Part} {r out : State} (t : TileId) (w : Word) (u : List Upset) {s : State} (h : Kept ks r s) (he : execVrot t w u s = .next out) (hk : [.regs, .dict, .sat, .tiles, .clients, .host, .logs, .ledger, .free] ⊆ ks := by first | assumption | exact sub_of (by assumption) (by decide)) : Kept ks r out := by
  unfold execVrot at he
  exact runLane_kept h he

theorem execVbcst_kept {ks : List Part} {r out : State} (t : TileId) (w : Word) (u : List Upset) {s : State} (h : Kept ks r s) (he : execVbcst t w u s = .next out) (hk : [.regs, .dict, .sat, .tiles, .clients, .host, .logs, .ledger, .free] ⊆ ks := by first | assumption | exact sub_of (by assumption) (by decide)) : Kept ks r out := by
  unfold execVbcst at he
  exact runLane_kept h he

theorem execVscan_kept {ks : List Part} {r out : State} (t : TileId) (w : Word) (u : List Upset) {s : State} (h : Kept ks r s) (he : execVscan t w u s = .next out) (hk : [.regs, .dict, .sat, .tiles, .clients, .host, .logs, .ledger, .free] ⊆ ks := by first | assumption | exact sub_of (by assumption) (by decide)) : Kept ks r out := by
  unfold execVscan at he
  exact runFp_kept h he

theorem execVlrec_kept {ks : List Part} {r out : State} (t : TileId) (w : Word) (u : List Upset) {s : State} (h : Kept ks r s) (he : execVlrec t w u s = .next out) (hk : [.regs, .dict, .sat, .tiles, .clients, .host, .logs, .ledger, .free] ⊆ ks := by first | assumption | exact sub_of (by assumption) (by decide)) : Kept ks r out := by
  unfold execVlrec at he
  exact runFp_kept h he

theorem popFail_kept {ks : List Part} {r : State} (t : TileId) {s : State} (k : Take) (h : Kept ks r s) (hk : [.regs, .dict, .sat, .tiles, .clients, .host, .logs] ⊆ ks := by first | assumption | exact sub_of (by assumption) (by decide)) : (popFail t s k).all (Kept ks r) := by
  unfold popFail
  dsimp only
  split
  · exact faultRegion_kept _ _ _ _ _ h
  · exact faultDesync_kept _ _ _ _ _ _ _ h
  · trivial

theorem popDone_kept {ks : List Part} {r : State} (t : TileId) (w : Word) (codes : List Nat) (scales : List Nat) (d : Desc) (x : StreamS) (bytes : Nat) {s : State} (h : Kept ks r s) (hk : [.regs, .sat, .tiles, .host, .logs] ⊆ ks := by first | assumption | exact sub_of (by assumption) (by decide)) : Kept ks r (popDone t w codes scales d x bytes s) := by
  unfold popDone
  try dsimp only
  repeat' first
    | with_reducible assumption
    | exact sub_of hk (by decide)
    | with_reducible apply delivered_kept
    | with_reducible apply consumerViol_kept
    | with_reducible apply countNf_kept
    | with_reducible apply countVSat_kept
    | with_reducible apply setVec_kept

theorem execVpop_kept {ks : List Part} {r out : State} (t : TileId) (w : Word) (u : List Upset) {s : State} (h : Kept ks r s) (he : execVpop t w u s = .next out) (hk : [.regs, .dict, .sat, .tiles, .clients, .host, .logs, .ledger, .free] ⊆ ks := by first | assumption | exact sub_of (by assumption) (by decide)) : Kept ks r out := by
  unfold execVpop at he
  refine runInstr_kept h (fun s hs => ?_) he
  try dsimp only
  repeat' first
    | with_reducible apply IRes.all_done
    | with_reducible assumption
    | exact sub_of hk (by decide)
    | with_reducible apply popFail_kept
    | with_reducible apply popDone_kept
    | split

theorem execVpush_kept {ks : List Part} {r out : State} (t : TileId) (w : Word) (u : List Upset) {s : State} (h : Kept ks r s) (he : execVpush t w u s = .next out) (hk : [.regs, .dict, .sat, .tiles, .clients, .host, .logs, .ledger, .free] ⊆ ks := by first | assumption | exact sub_of (by assumption) (by decide)) : Kept ks r out := by
  unfold execVpush at he
  refine runInstr_kept h (fun s hs => ?_) he
  try dsimp only
  repeat' first
    | with_reducible assumption
    | exact sub_of hk (by decide)
    | with_reducible apply pushValues_kept

theorem xpopDone_kept {ks : List Part} {r : State} (t : TileId) (w : Word) (codes : List Nat) (scales : List Nat) (d : Desc) (x : StreamS) (bytes : Nat) {s : State} (h : Kept ks r s) (hk : [.regs, .sat, .tiles, .host, .logs] ⊆ ks := by first | assumption | exact sub_of (by assumption) (by decide)) : Kept ks r (xpopDone t w codes scales d x bytes s) := by
  unfold xpopDone
  try dsimp only
  repeat' first
    | with_reducible assumption
    | exact sub_of hk (by decide)
    | with_reducible apply consumerViol_kept
    | with_reducible apply delivered_kept
    | with_reducible apply setVec_kept

theorem execXpopn_kept {ks : List Part} {r out : State} (t : TileId) (w : Word) (u : List Upset) {s : State} (h : Kept ks r s) (he : execXpopn t w u s = .next out) (hk : [.regs, .dict, .sat, .tiles, .clients, .host, .logs, .ledger, .free] ⊆ ks := by first | assumption | exact sub_of (by assumption) (by decide)) : Kept ks r out := by
  unfold execXpopn at he
  refine runInstr_kept h (fun s hs => ?_) he
  try dsimp only
  repeat' first
    | with_reducible apply IRes.all_done
    | with_reducible assumption
    | exact sub_of hk (by decide)
    | with_reducible apply popFail_kept
    | with_reducible apply xpopDone_kept
    | split

theorem execVrecv_kept {ks : List Part} {r out : State} (t : TileId) (w : Word) (u : List Upset) {s : State} (h : Kept ks r s) (he : execVrecv t w u s = .next out) (hk : [.regs, .dict, .sat, .tiles, .clients, .host, .logs, .ledger, .free] ⊆ ks := by first | assumption | exact sub_of (by assumption) (by decide)) : Kept ks r out := by
  unfold execVrecv at he
  refine runInstr_kept h (fun s hs => ?_) he
  try dsimp only
  repeat' first
    | with_reducible apply IRes.all_wait
    | with_reducible apply IRes.all_done
    | with_reducible apply IRes.all_ite
    | with_reducible assumption
    | exact sub_of hk (by decide)
    | with_reducible apply skipInstr_kept
    | with_reducible apply setVec_kept
    | split

theorem execXrecv_kept {ks : List Part} {r out : State} (t : TileId) (w : Word) (u : List Upset) {s : State} (h : Kept ks r s) (he : execXrecv t w u s = .next out) (hk : [.regs, .dict, .sat, .tiles, .clients, .host, .logs, .ledger, .free] ⊆ ks := by first | assumption | exact sub_of (by assumption) (by decide)) : Kept ks r out := by
  unfold execXrecv at he
  refine runInstr_kept h (fun s hs => ?_) he
  try dsimp only
  repeat' first
    | with_reducible apply IRes.all_wait
    | with_reducible apply IRes.all_done
    | with_reducible apply IRes.all_ite
    | with_reducible assumption
    | exact sub_of hk (by decide)
    | with_reducible apply skipInstr_kept
    | with_reducible apply setVec_kept
    | split

theorem execXclr_kept {ks : List Part} {r out : State} (t : TileId) (w : Word) (u : List Upset) {s : State} (h : Kept ks r s) (he : execXclr t w u s = .next out) (hk : [.regs, .dict, .sat, .tiles, .clients, .host, .logs, .ledger, .free] ⊆ ks := by first | assumption | exact sub_of (by assumption) (by decide)) : Kept ks r out := by
  unfold execXclr at he
  exact runLane_kept h he

theorem execXadd_kept {ks : List Part} {r out : State} (t : TileId) (w : Word) (u : List Upset) {s : State} (h : Kept ks r s) (he : execXadd t w u s = .next out) (hk : [.regs, .dict, .sat, .tiles, .clients, .host, .logs, .ledger, .free] ⊆ ks := by first | assumption | exact sub_of (by assumption) (by decide)) : Kept ks r out := by
  unfold execXadd at he
  exact runLane_kept h he

theorem execXmrg_kept {ks : List Part} {r out : State} (t : TileId) (w : Word) (u : List Upset) {s : State} (h : Kept ks r s) (he : execXmrg t w u s = .next out) (hk : [.regs, .dict, .sat, .tiles, .clients, .host, .logs, .ledger, .free] ⊆ ks := by first | assumption | exact sub_of (by assumption) (by decide)) : Kept ks r out := by
  unfold execXmrg at he
  exact runLane_kept h he

theorem execXsum_kept {ks : List Part} {r out : State} (t : TileId) (w : Word) (u : List Upset) {s : State} (h : Kept ks r s) (he : execXsum t w u s = .next out) (hk : [.regs, .dict, .sat, .tiles, .clients, .host, .logs, .ledger, .free] ⊆ ks := by first | assumption | exact sub_of (by assumption) (by decide)) : Kept ks r out := by
  unfold execXsum at he
  exact runLane_kept h he

theorem xnarDone_kept {ks : List Part} {r : State} (t : TileId) (w : Word) {s : State} (h : Kept ks r s) (hk : [.regs, .sat, .tiles, .clients, .host, .logs] ⊆ ks := by first | assumption | exact sub_of (by assumption) (by decide)) : Kept ks r (xnarDone t w s) := by
  unfold xnarDone
  try dsimp only
  repeat' first
    | with_reducible assumption
    | exact sub_of hk (by decide)
    | with_reducible apply noteExactSat_kept
    | with_reducible apply countNf_kept
    | with_reducible apply countVSat_kept
    | with_reducible apply setVec_kept

theorem execXnar_kept {ks : List Part} {r out : State} (t : TileId) (w : Word) (u : List Upset) {s : State} (h : Kept ks r s) (he : execXnar t w u s = .next out) (hk : [.regs, .dict, .sat, .tiles, .clients, .host, .logs, .ledger, .free] ⊆ ks := by first | assumption | exact sub_of (by assumption) (by decide)) : Kept ks r out := by
  unfold execXnar at he
  refine runInstr_kept h (fun s hs => ?_) he
  try dsimp only
  repeat' first
    | with_reducible apply IRes.all_done
    | with_reducible assumption
    | exact sub_of hk (by decide)
    | with_reducible apply xnarDone_kept

theorem notePushSat_kept {ks : List Part} {r : State} (t : TileId) (b : Bool) {s : State} (h : Kept ks r s) (hk : [.regs] ⊆ ks := by first | assumption | exact sub_of (by assumption) (by decide)) : Kept ks r (notePushSat t b s) := by
  unfold notePushSat
  try dsimp only
  repeat' first
    | with_reducible assumption
    | with_reducible apply setBit_kept
    | with_reducible apply kept_ite

theorem execXpush_kept {ks : List Part} {r out : State} (t : TileId) (w : Word) (u : List Upset) {s : State} (h : Kept ks r s)
    (he : execXpush t w u s = .next out) (hk : [.regs, .dict, .sat, .tiles, .clients, .host, .logs, .ledger, .free] ⊆ ks := by first | assumption | exact sub_of (by assumption) (by decide)) : Kept ks r out := by
  unfold execXpush at he
  refine runInstr_kept h (fun s hs => ?_) he
  have hp := fun vals => pushValues_kept t (iVb w) (getV (getVec s t) (iVd w)) vals hs
  dsimp only
  split
  · rename_i s1 heq
    have h1 : (IRes.done s1).all (Kept ks r) := heq ▸ hp _
    exact kept_ite (setBit_kept _ _ h1) h1
  · exact hp _

theorem execVrand_kept {ks : List Part} {r out : State} (t : TileId) (w : Word) (u : List Upset) {s : State} (h : Kept ks r s) (he : execVrand t w u s = .next out) (hk : [.regs, .dict, .sat, .tiles, .clients, .host, .logs, .ledger, .free] ⊆ ks := by first | assumption | exact sub_of (by assumption) (by decide)) : Kept ks r out := by
  unfold execVrand at he
  refine runInstr_kept h (fun s hs => ?_) he
  try dsimp only
  repeat' first
    | with_reducible apply IRes.all_done
    | with_reducible assumption
    | exact sub_of hk (by decide)
    | with_reducible apply afterDraw_kept
    | with_reducible apply setVec_kept

theorem execVruni_kept {ks : List Part} {r out : State} (t : TileId) (w : Word) (u : List Upset) {s : State} (h : Kept ks r s) (he : execVruni t w u s = .next out) (hk : [.regs, .dict, .sat, .tiles, .clients, .host, .logs, .ledger, .free] ⊆ ks := by first | assumption | exact sub_of (by assumption) (by decide)) : Kept ks r out := by
  unfold execVruni at he
  refine runInstr_kept h (fun s hs => ?_) he
  try dsimp only
  repeat' first
    | with_reducible apply IRes.all_done
    | with_reducible assumption
    | exact sub_of hk (by decide)
    | with_reducible apply afterDraw_kept
    | with_reducible apply setVec_kept

theorem execVrkeep_kept {ks : List Part} {r out : State} (t : TileId) (w : Word) (u : List Upset) {s : State} (h : Kept ks r s) (he : execVrkeep t w u s = .next out) (hk : [.regs, .dict, .sat, .tiles, .clients, .host, .logs, .ledger, .free] ⊆ ks := by first | assumption | exact sub_of (by assumption) (by decide)) : Kept ks r out := by
  unfold execVrkeep at he
  refine runInstr_kept h (fun s hs => ?_) he
  try dsimp only
  repeat' first
    | with_reducible apply IRes.all_done
    | with_reducible assumption
    | exact sub_of hk (by decide)
    | with_reducible apply afterDraw_kept
    | with_reducible apply setVec_kept

theorem execRctx_kept {ks : List Part} {r out : State} (t : TileId) (w : Word) (u : List Upset) {s : State} (h : Kept ks r s) (he : execRctx t w u s = .next out) (hk : [.regs, .dict, .sat, .tiles, .clients, .host, .logs, .ledger, .free] ⊆ ks := by first | assumption | exact sub_of (by assumption) (by decide)) : Kept ks r out := by
  unfold execRctx at he
  exact runLane_kept h he

theorem execRep_kept {ks : List Part} {r out : State} (t : TileId) (w : Word) (u : List Upset) {s : State} (h : Kept ks r s) (he : execRep t w u s = .next out) (hk : [.regs, .dict, .sat, .tiles, .clients, .host, .logs, .ledger, .free] ⊆ ks := by first | assumption | exact sub_of (by assumption) (by decide)) : Kept ks r out := by
  unfold execRep at he
  refine kept_next he ?_
  clear he
  try dsimp only
  repeat' first
    | with_reducible assumption
    | exact sub_of hk (by decide)
    | with_reducible apply vecUpsets_kept
    | with_reducible apply charge_kept
    | with_reducible apply bump_kept
    | with_reducible apply setVec_kept
    | with_reducible apply kept_ite
    | split

end Sys2Proof.Machine
end

