-- ==== Sys2Proof/Laws/KeptPlate.lean ====
section
/-! SUPPORT. What the operations of Machine/Plate.lean keep (Laws/Kept.lean). -/

set_option Elab.async false

namespace Sys2Proof.Machine

theorem setCaches_kept {ks : List Part} {r : State} (t : Nat) (x : Caches) {s : State} (h : Kept ks r s) (hk : [.plates] ⊆ ks := by first | assumption | exact sub_of (by assumption) (by decide)) : Kept ks r (setCaches t x s) := by
  unfold setCaches
  try dsimp only
  repeat' first
    | with_reducible assumption
    | with_reducible refine kept_mk ?_ (by constructor <;> intro hp <;> first | exact absurd (sub_mem hk (by decide)) hp | rfl) (by rfl) (by rfl)

theorem fetchLine_kept {ks : List Part} {r : State} (client : Nat) (a : Nat) {s : State} (h : Kept ks r s) (hk : [.mem, .regs, .dict, .sat, .banks, .clients, .host, .logs, .wear, .ledger, .served] ⊆ ks := by first | assumption | exact sub_of (by assumption) (by decide)) : Kept ks r (fetchLine client a s).2 := by
  unfold fetchLine
  try dsimp only
  repeat' first
    | with_reducible assumption
    | with_reducible apply readMem_kept

theorem cachedLine_kept {ks : List Part} {r : State} (t : Nat) (client : Nat) (a : Nat) {s : State} (h : Kept ks r s) (hk : [.mem, .regs, .dict, .sat, .banks, .plates, .clients, .host, .logs, .wear, .ledger, .served] ⊆ ks := by first | assumption | exact sub_of (by assumption) (by decide)) : Kept ks r (cachedLine t client a s).2 := by
  unfold cachedLine
  try dsimp only
  repeat' first
    | with_reducible assumption
    | exact sub_of hk (by decide)
    | with_reducible apply setCaches_kept
    | with_reducible apply fetchLine_kept
    | with_reducible apply bumpDict_kept
    | split

theorem execPlateFetch_kept {ks : List Part} {r out : State} (e : Eng) {s : State} (h : Kept ks r s) (he : execPlateFetch e s = .next out) (hk : [.mem, .regs, .dict, .sat, .banks, .plates, .clients, .host, .logs, .wear, .ledger, .served] ⊆ ks := by first | assumption | exact sub_of (by assumption) (by decide)) : Kept ks r out := by
  unfold execPlateFetch at he
  refine kept_next he ?_
  clear he
  try dsimp only
  repeat' first
    | with_reducible assumption
    | exact sub_of hk (by decide)
    | with_reducible apply cachedLine_kept
    | with_reducible apply fetchLine_kept
    | with_reducible apply setEng_kept
    | with_reducible apply kept_ite
    | split

theorem useName_kept {ks : List Part} {r : State} (t : Nat) {s : State} (name : Nat) (h : Kept ks r s) (hk : [.plates] ⊆ ks := by first | assumption | exact sub_of (by assumption) (by decide)) : Kept ks r (useName t s name) := by
  unfold useName
  try dsimp only
  repeat' first
    | with_reducible assumption
    | with_reducible apply setCaches_kept

theorem execCatalogCacheFill_kept {ks : List Part} {r out : State} (t : TileId) (name : Nat) {s : State} (h : Kept ks r s) (he : execCatalogCacheFill t name s = .next out) (hk : [.dict, .sat, .plates, .host, .logs] ⊆ ks := by first | assumption | exact sub_of (by assumption) (by decide)) : Kept ks r out := by
  unfold execCatalogCacheFill at he
  refine kept_next he ?_
  clear he
  try dsimp only
  repeat' first
    | with_reducible assumption
    | exact sub_of hk (by decide)
    | with_reducible apply useName_kept
    | with_reducible apply bumpDict_kept
    | with_reducible apply kept_ite

theorem enterWindow_kept {ks : List Part} {r : State} (e : Eng) (c : PCmd) (n : Nat) (unknown : Bool) {s : State} (h : Kept ks r s) (hk : [.plates] ⊆ ks := by first | assumption | exact sub_of (by assumption) (by decide)) : Kept ks r (enterWindow e c n unknown s) := by
  unfold enterWindow
  try dsimp only
  repeat' first
    | with_reducible assumption
    | intro _
    | with_reducible apply useName_kept
    | with_reducible apply setEng_kept
    | with_reducible apply kept_foldl
    | split

theorem chargeEmpty_kept {ks : List Part} {r : State} (e : Eng) (code : Nat) {s : State} (h : Kept ks r s) (hk : [.regs, .dict, .sat, .host, .logs, .ledger] ⊆ ks := by first | assumption | exact sub_of (by assumption) (by decide)) : Kept ks r (chargeEmpty e code s) := by
  unfold chargeEmpty
  try dsimp only
  repeat' first
    | with_reducible assumption
    | with_reducible apply charge_kept
    | with_reducible apply kept_ite

theorem refuseUnknown_kept {ks : List Part} {r : State} (e : Eng) {s : State} (h : Kept ks r s) (hk : [.regs, .dict, .sat, .plates, .host, .logs, .ledger] ⊆ ks := by first | assumption | exact sub_of (by assumption) (by decide)) : Kept ks r (refuseUnknown e s) := by
  unfold refuseUnknown
  try dsimp only
  repeat' first
    | with_reducible assumption
    | exact sub_of hk (by decide)
    | intro _
    | with_reducible apply withIssue_kept
    | with_reducible apply refuse_kept
    | with_reducible apply chargeEmpty_kept
    | split

theorem execWindowEntry_kept {ks : List Part} {r out : State} (e : Eng) {s : State} (h : Kept ks r s) (he : execWindowEntry e s = .next out) (hk : [.regs, .dict, .sat, .plates, .host, .logs, .ledger] ⊆ ks := by first | assumption | exact sub_of (by assumption) (by decide)) : Kept ks r out := by
  unfold execWindowEntry at he
  refine kept_next he ?_
  clear he
  try dsimp only
  repeat' first
    | with_reducible assumption
    | exact sub_of hk (by decide)
    | with_reducible apply refuseUnknown_kept
    | with_reducible apply chargeEmpty_kept
    | with_reducible apply enterWindow_kept
    | with_reducible apply kept_ite
    | split

theorem noteTokenFault_kept {ks : List Part} {r : State} (die : Nat) (file : Nat) (reg : Nat) (fcode : Nat) {s : State} (h : Kept ks r s) (hk : [.regs] ⊆ ks := by first | assumption | exact sub_of (by assumption) (by decide)) : Kept ks r (noteTokenFault die file reg fcode s) := by
  unfold noteTokenFault
  try dsimp only
  repeat' first
    | with_reducible assumption
    | with_reducible apply setReg_kept

theorem addToken_kept {ks : List Part} {r : State} (p : Post) {s : State} (h : Kept ks r s) (hk : [.regs, .dict, .sat, .plates, .clients, .host, .logs] ⊆ ks := by first | assumption | exact sub_of (by assumption) (by decide)) : Kept ks r (addToken p s) := by
  unfold addToken
  try dsimp only
  repeat' first
    | with_reducible assumption
    | exact sub_of hk (by decide)
    | with_reducible apply setTok_kept
    | with_reducible apply raiseFault_kept
    | with_reducible apply noteTokenFault_kept
    | with_reducible apply bumpDict_kept
    | with_reducible apply kept_ite

theorem execTokenArrive_kept {ks : List Part} {r out : State} (k : Nat) {s : State} (h : Kept ks r s) (he : execTokenArrive k s = .next out) (hk : [.regs, .dict, .sat, .plates, .clients, .host, .logs] ⊆ ks := by first | assumption | exact sub_of (by assumption) (by decide)) : Kept ks r out := by
  unfold execTokenArrive at he
  refine kept_next he ?_
  clear he
  try dsimp only
  repeat' first
    | with_reducible assumption
    | with_reducible apply addToken_kept
    | split
    | with_reducible refine kept_mk ?_ (by constructor <;> intro hp <;> first | exact absurd (sub_mem hk (by decide)) hp | rfl) (by rfl) (by rfl)

theorem execTokenWatchdogFire_kept {ks : List Part} {r out : State} (d : DieId) (c : ClientId) {s : State} (h : Kept ks r s) (he : execTokenWatchdogFire d c s = .next out) (hk : [.regs, .dict, .sat, .clients, .host, .logs] ⊆ ks := by first | assumption | exact sub_of (by assumption) (by decide)) : Kept ks r out := by
  unfold execTokenWatchdogFire at he
  refine kept_next he ?_
  clear he
  try dsimp only
  repeat' first
    | with_reducible assumption
    | exact sub_of hk (by decide)
    | intro _
    | with_reducible apply noteTokenFault_kept
    | with_reducible apply bumpDict_kept
    | with_reducible apply raiseFault_kept
    | with_reducible apply kept_ite
    | with_reducible apply kept_foldl
    | split

theorem seqFault_kept {ks : List Part} {r : State} (t : TileId) (client : Nat) (id : Nat) (fcode : Nat) (reason : Nat) {s : State} (h : Kept ks r s) (hk : [.regs, .plates, .clients, .host, .logs] ⊆ ks := by first | assumption | exact sub_of (by assumption) (by decide)) : Kept ks r (seqFault t client id fcode reason s) := by
  unfold seqFault
  try dsimp only
  repeat' first
    | with_reducible assumption
    | exact sub_of hk (by decide)
    | with_reducible apply setReg_kept
    | with_reducible apply raiseFault_kept
    | split
    | with_reducible refine kept_mk ?_ (by constructor <;> intro hp <;> first | exact absurd (sub_mem hk (by decide)) hp | rfl) (by rfl) (by rfl)

theorem execSnop_kept {ks : List Part} {r out : State} (t : TileId) (c : PCmd) {s : State} (h : Kept ks r s) (he : execSnop t c s = .next out) (hk : [.regs, .dict, .sat, .plates, .host, .logs, .ledger] ⊆ ks := by first | assumption | exact sub_of (by assumption) (by decide)) : Kept ks r out := by
  unfold execSnop at he
  refine kept_next he ?_
  clear he
  try dsimp only
  repeat' first
    | with_reducible assumption
    | exact sub_of hk (by decide)
    | intro _
    | with_reducible apply withIssue_kept
    | with_reducible apply complete_kept

theorem execStok_kept {ks : List Part} {r out : State} (t : TileId) (c : PCmd) {s : State} (h : Kept ks r s) (he : execStok t c s = .next out) (hk : [.regs, .dict, .sat, .plates, .host, .logs, .ledger] ⊆ ks := by first | assumption | exact sub_of (by assumption) (by decide)) : Kept ks r out := by
  unfold execStok at he
  refine kept_next he ?_
  clear he
  try dsimp only
  repeat' first
    | with_reducible assumption
    | exact sub_of hk (by decide)
    | intro _
    | with_reducible apply withIssue_kept
    | with_reducible apply refuse_kept
    | with_reducible apply complete_kept
    | with_reducible apply postTok_kept
    | with_reducible apply kept_ite

theorem execScat_kept {ks : List Part} {r out : State} (t : TileId) (c : PCmd) {s : State} (h : Kept ks r s) (he : execScat t c s = .next out) (hk : [.mem, .regs, .dict, .sat, .cat, .plates, .clients, .host, .logs, .ledger] ⊆ ks := by first | assumption | exact sub_of (by assumption) (by decide)) : Kept ks r out := by
  unfold execScat at he
  refine kept_next he ?_
  clear he
  try dsimp only
  repeat' first
    | with_reducible assumption
    | exact sub_of hk (by decide)
    | intro _
    | with_reducible apply withIssue_kept
    | with_reducible apply catWrite_kept
    | with_reducible apply complete_kept
    | with_reducible apply seqFault_kept
    | with_reducible refine kept_snd (by assumption) ?_
    | split
    | with_reducible refine kept_mk ?_ (by constructor <;> intro hp <;> first | exact absurd (sub_mem hk (by decide)) hp | rfl) (by rfl) (by rfl)

theorem sfopRun_kept {ks : List Part} {r : State} (t : TileId) (id : Nat) (w0 : Word) (op : FopRec) {s : State} (h : Kept ks r s) (hk : [.mem, .regs, .dict, .sat, .cat, .banks, .plates, .tiles, .clients, .host, .logs, .wear, .ledger, .served] ⊆ ks := by first | assumption | exact sub_of (by assumption) (by decide)) : Kept ks r (sfopRun t id w0 op s).2 := by
  unfold sfopRun
  try dsimp only
  repeat' first
    | with_reducible assumption
    | exact sub_of hk (by decide)
    | with_reducible apply fopRun_kept
    | with_reducible apply setTile_kept
    | with_reducible apply refuse_kept
    | with_reducible apply setReg_kept
    | with_reducible apply seqFault_kept
    | with_reducible apply complete_kept
    | with_reducible apply kept_ite
    | with_reducible refine kept_snd (by assumption) ?_
    | split

theorem execSfop_kept {ks : List Part} {r out : State} (t : TileId) (c : PCmd) {s : State} (h : Kept ks r s) (he : execSfop t c s = .next out) (hk : [.mem, .regs, .dict, .sat, .cat, .banks, .plates, .tiles, .clients, .host, .logs, .wear, .ledger, .served] ⊆ ks := by first | assumption | exact sub_of (by assumption) (by decide)) : Kept ks r out := by
  unfold execSfop at he
  refine kept_next he ?_
  clear he
  try dsimp only
  repeat' first
    | with_reducible assumption
    | exact sub_of hk (by decide)
    | intro _
    | with_reducible apply withIssue_kept
    | with_reducible apply sfopRun_kept

theorem execSfopRetry_kept {ks : List Part} {r out : State} (t : TileId) (k : Nat) {s : State} (h : Kept ks r s) (he : execSfopRetry t k s = .next out) (hk : [.mem, .regs, .dict, .sat, .cat, .banks, .plates, .tiles, .clients, .host, .logs, .wear, .ledger, .served] ⊆ ks := by first | assumption | exact sub_of (by assumption) (by decide)) : Kept ks r out := by
  unfold execSfopRetry at he
  refine kept_next he ?_
  clear he
  try dsimp only
  repeat' first
    | with_reducible assumption
    | exact sub_of hk (by decide)
    | with_reducible apply sfopRun_kept
    | with_reducible apply charge_kept
    | split

theorem execSevent_kept {ks : List Part} {r out : State} (t : TileId) (c : PCmd) {s : State} (h : Kept ks r s) (he : execSevent t c s = .next out) (hk : [.regs, .dict, .sat, .plates, .host, .logs, .ledger] ⊆ ks := by first | assumption | exact sub_of (by assumption) (by decide)) : Kept ks r out := by
  unfold execSevent at he
  refine kept_next he ?_
  clear he
  try dsimp only
  repeat' first
    | with_reducible assumption
    | exact sub_of hk (by decide)
    | intro _
    | with_reducible apply withIssue_kept
    | with_reducible apply complete_kept
    | with_reducible apply post_kept

end Sys2Proof.Machine
end

