-- ==== Sys2Proof/Laws/KeptCollOps.lean ====
section
/-! SUPPORT. What the operations of Machine/CollOps.lean keep (Laws/Kept.lean). -/

set_option Elab.async false

namespace Sys2Proof.Machine

theorem setCtx_kept {ks : List Part} {r : State} (k : Nat) (x : Ctx) {s : State} (h : Kept ks r s) (hk : [.fabric] ⊆ ks := by first | assumption | exact sub_of (by assumption) (by decide)) : Kept ks r (setCtx k x s) := by
  unfold setCtx
  try dsimp only
  repeat' first
    | with_reducible assumption
    | with_reducible refine kept_mk ?_ (by constructor <;> intro hp <;> first | exact absurd (sub_mem hk (by decide)) hp | rfl) (by rfl) (by rfl)

theorem countFree_kept {ks : List Part} {r : State} (d : Nat) {s : State} (h : Kept ks r s) (hk : [.dict] ⊆ ks := by first | assumption | exact sub_of (by assumption) (by decide)) : Kept ks r (countFree d s) := by
  unfold countFree
  try dsimp only
  repeat' first
    | with_reducible assumption
    | with_reducible apply setDict_kept

theorem freeCtxs_kept {ks : List Part} {r : State} (p : Ctx → Bool) {s : State} (h : Kept ks r s) (hk : [.dict, .tiles, .fabric] ⊆ ks := by first | assumption | exact sub_of (by assumption) (by decide)) : Kept ks r (freeCtxs p s) := by
  unfold freeCtxs
  try dsimp only
  repeat' first
    | with_reducible assumption
    | exact sub_of hk (by decide)
    | intro _
    | with_reducible apply setVec_kept
    | with_reducible apply countFree_kept
    | with_reducible apply kept_ite
    | with_reducible apply kept_foldl
    | with_reducible refine kept_mk ?_ (by constructor <;> intro hp <;> first | exact absurd (sub_mem hk (by decide)) hp | rfl) (by rfl) (by rfl)

theorem collFault_kept {ks : List Part} {r : State} (d : Nat) (client : Nat) (code : Nat) (job : Nat) (ctx : Nat) {s : State} (h : Kept ks r s) (hk : [.regs, .dict, .sat, .clients, .host, .logs] ⊆ ks := by first | assumption | exact sub_of (by assumption) (by decide)) : Kept ks r (collFault d client code job ctx s) := by
  unfold collFault
  try dsimp only
  repeat' first
    | with_reducible assumption
    | exact sub_of hk (by decide)
    | with_reducible apply updStep_kept
    | with_reducible apply raiseFault_kept
    | with_reducible apply bumpDict_kept
    | with_reducible apply setReg_kept

theorem noteNonFinite_kept {ks : List Part} {r : State} (d : Nat) (client : Nat) (mod : Nat) (job : Nat) (low : Nat) (count : Nat) {s : State} (h : Kept ks r s) (hk : [.regs, .dict, .sat, .host, .logs] ⊆ ks := by first | assumption | exact sub_of (by assumption) (by decide)) : Kept ks r (noteNonFinite d client mod job low count s) := by
  unfold noteNonFinite
  try dsimp only
  repeat' first
    | with_reducible assumption
    | exact sub_of hk (by decide)
    | with_reducible apply bumpDict_kept
    | with_reducible apply bump_kept
    | with_reducible apply setBit_kept
    | with_reducible apply postEvent_kept

theorem settleCtx_kept {ks : List Part} {r : State} (k : Nat) {s : State} (h : Kept ks r s) (hk : [.clients, .fabric] ⊆ ks := by first | assumption | exact sub_of (by assumption) (by decide)) : Kept ks r (settleCtx k s) := by
  unfold settleCtx
  try dsimp only
  repeat' first
    | with_reducible assumption
    | exact sub_of hk (by decide)
    | with_reducible apply setCtx_kept
    | with_reducible apply updStep_kept
    | with_reducible apply kept_ite

theorem countCtx_kept {ks : List Part} {r : State} (k : Nat) {s : State} (h : Kept ks r s) (hk : [.clients, .fabric] ⊆ ks := by first | assumption | exact sub_of (by assumption) (by decide)) : Kept ks r (countCtx k s) := by
  unfold countCtx
  try dsimp only
  repeat' first
    | with_reducible assumption
    | exact sub_of hk (by decide)
    | with_reducible apply settleCtx_kept
    | with_reducible apply setCtx_kept

theorem addInto_kept {ks : List Part} {r : State} (x : CXfer) (es : List Contrib) (blk : Nat) (esc : List Nat) (spilled : List Nat) (it : Nat × Nat × Nat) {s : State} (h : Kept ks r s) (hk : [.tiles, .clients, .fabric] ⊆ ks := by first | assumption | exact sub_of (by assumption) (by decide)) : Kept ks r (addInto x es blk esc spilled it s) := by
  unfold addInto
  try dsimp only
  repeat' first
    | with_reducible assumption
    | exact sub_of hk (by decide)
    | with_reducible apply setVec_kept
    | with_reducible apply setCtx_kept
    | with_reducible apply countCtx_kept
    | with_reducible apply kept_ite
    | with_reducible refine kept_mk ?_ (by constructor <;> intro hp <;> first | exact absurd (sub_mem hk (by decide)) hp | rfl) (by rfl) (by rfl)

theorem arriveReduce_kept {ks : List Part} {r : State} (d : Nat) (shape : Nat) (x : CXfer) {s : State} (h : Kept ks r s) (hk : [.regs, .dict, .sat, .tiles, .clients, .fabric, .host, .logs] ⊆ ks := by first | assumption | exact sub_of (by assumption) (by decide)) : Kept ks r (arriveReduce d shape x s).2 := by
  unfold arriveReduce
  try dsimp only
  repeat' first
    | with_reducible assumption
    | exact sub_of hk (by decide)
    | intro _
    | with_reducible apply collFault_kept
    | with_reducible apply addInto_kept
    | with_reducible apply bump_kept
    | with_reducible apply noteNonFinite_kept
    | with_reducible apply setScope_kept
    | with_reducible apply kept_ite
    | with_reducible apply kept_foldl
    | split

theorem placeWrite_kept {ks : List Part} {r : State} (smod : Nat) (name : Nat) (off : Nat) (bs : List Byte) {s : State} (h : Kept ks r s) (hk : [.mem, .regs, .dict, .sat, .cat, .banks, .clients, .fabric, .host, .logs, .wear, .ledger, .served, .free] ⊆ ks := by first | assumption | exact sub_of (by assumption) (by decide)) : Kept ks r (placeWrite smod name off bs s) := by
  unfold placeWrite
  try dsimp only
  repeat' first
    | with_reducible assumption
    | exact sub_of hk (by decide)
    | with_reducible apply fresh_kept
    | with_reducible apply remoteWrite_kept
    | with_reducible apply openMsg_kept
    | with_reducible apply sendCtl_kept
    | with_reducible apply kept_ite
    | split

theorem placeRaw_kept {ks : List Part} {r : State} (smod : Nat) (name : Nat) (e : Entry) (f : Fmt) (row : Nat) (col : Nat) (n : Nat) (bs : List Byte) {s : State} (h : Kept ks r s) (hk : [.mem, .regs, .dict, .sat, .cat, .banks, .clients, .fabric, .host, .logs, .wear, .ledger, .served, .free] ⊆ ks := by first | assumption | exact sub_of (by assumption) (by decide)) : Kept ks r (placeRaw smod name e f row col n bs s) := by
  unfold placeRaw
  try dsimp only
  repeat' first
    | with_reducible assumption
    | with_reducible apply placeWrite_kept

theorem placeConv_kept {ks : List Part} {r : State} (client : Nat) (smod : Nat) (name : Nat) (e : Entry) (f : Fmt) (ts : ℚ) (row : Nat) (col : Nat) (n : Nat) (bs : List Byte) {s : State} (h : Kept ks r s) (hk : [.mem, .regs, .dict, .sat, .cat, .banks, .clients, .fabric, .host, .logs, .wear, .ledger, .served, .free] ⊆ ks := by first | assumption | exact sub_of (by assumption) (by decide)) : Kept ks r (placeConv client smod name e f ts row col n bs s) := by
  unfold placeConv
  try dsimp only
  repeat' first
    | with_reducible assumption
    | exact sub_of hk (by decide)
    | with_reducible apply placeWrite_kept
    | with_reducible apply foldStats_kept
    | with_reducible apply kept_ite

theorem arrivePlace_kept {ks : List Part} {r : State} (d : Nat) (x : CXfer) {s : State} (h : Kept ks r s) (hk : [.mem, .regs, .dict, .sat, .cat, .banks, .clients, .fabric, .host, .logs, .wear, .ledger, .served, .free] ⊆ ks := by first | assumption | exact sub_of (by assumption) (by decide)) : Kept ks r (arrivePlace d x s) := by
  unfold arrivePlace
  try dsimp only
  repeat' first
    | with_reducible assumption
    | exact sub_of hk (by decide)
    | intro _
    | with_reducible apply collFault_kept
    | with_reducible apply placeRaw_kept
    | with_reducible apply placeConv_kept
    | with_reducible apply placeWrite_kept
    | with_reducible apply countCtx_kept
    | with_reducible apply bump_kept
    | with_reducible apply kept_ite
    | with_reducible apply kept_foldl
    | split

theorem mergePiece_kept {ks : List Part} {r : State} (d : Nat) (cbase : Nat) (smod : Nat) (e : Nat) (xs : List XReg) {s : State} (h : Kept ks r s) (hk : [.tiles, .clients, .fabric] ⊆ ks := by first | assumption | exact sub_of (by assumption) (by decide)) : Kept ks r (mergePiece d cbase smod e xs s) := by
  unfold mergePiece
  try dsimp only
  repeat' first
    | with_reducible assumption
    | exact sub_of hk (by decide)
    | with_reducible apply setVec_kept
    | with_reducible apply countCtx_kept
    | with_reducible apply kept_ite
    | with_reducible refine kept_mk ?_ (by constructor <;> intro hp <;> first | exact absurd (sub_mem hk (by decide)) hp | rfl) (by rfl) (by rfl)

theorem arriveSpill_kept {ks : List Part} {r : State} (d : Nat) (x : CXfer) {s : State} (h : Kept ks r s) (hk : [.tiles, .clients, .fabric] ⊆ ks := by first | assumption | exact sub_of (by assumption) (by decide)) : Kept ks r (arriveSpill d x s).2 := by
  unfold arriveSpill
  try dsimp only
  repeat' first
    | with_reducible assumption
    | intro _
    | with_reducible apply mergePiece_kept
    | with_reducible apply kept_foldl
    | split

theorem collArrive_kept {ks : List Part} {r : State} (d : Nat) (shape : Nat) (data : List Byte) {s : State} (h : Kept ks r s) (hk : [.mem, .regs, .dict, .sat, .cat, .banks, .tiles, .clients, .fabric, .host, .logs, .wear, .ledger, .served, .free] ⊆ ks := by first | assumption | exact sub_of (by assumption) (by decide)) : Kept ks r (collArrive d shape data s).2 := by
  unfold collArrive
  try dsimp only
  repeat' first
    | with_reducible assumption
    | exact sub_of hk (by decide)
    | with_reducible apply arriveSpill_kept
    | with_reducible apply arriveReduce_kept
    | with_reducible apply arrivePlace_kept
    | split

theorem takeOne_kept {ks : List Part} {r : State} (d : Nat) (shape : Nat) (data : List Byte) {s : State} (h : Kept ks r s) (hk : [.mem, .regs, .dict, .sat, .cat, .banks, .tiles, .clients, .fabric, .host, .logs, .wear, .ledger, .served, .free] ⊆ ks := by first | assumption | exact sub_of (by assumption) (by decide)) : Kept ks r (takeOne d shape data s).2 := by
  unfold takeOne
  try dsimp only
  repeat' first
    | with_reducible assumption
    | with_reducible apply collArrive_kept
    | split
    | dsimp only
    | with_reducible refine kept_mk ?_ (by constructor <;> intro hp <;> first | exact absurd (sub_mem hk (by decide)) hp | rfl) (by rfl) (by rfl)

theorem pumpHeld_kept {ks : List Part} {r : State} (d : DieId) {s : State} (h : Kept ks r s) (hk : [.mem, .regs, .dict, .sat, .cat, .banks, .tiles, .clients, .fabric, .host, .logs, .wear, .ledger, .served, .free] ⊆ ks := by first | assumption | exact sub_of (by assumption) (by decide)) : Kept ks r (pumpHeld d s) := by
  unfold pumpHeld
  try dsimp only
  repeat' first
    | with_reducible assumption
    | intro _
    | with_reducible apply takeOne_kept
    | with_reducible apply kept_ite
    | with_reducible apply kept_foldl
    | with_reducible refine kept_mk ?_ (by constructor <;> intro hp <;> first | exact absurd (sub_mem hk (by decide)) hp | rfl) (by rfl) (by rfl)

theorem takeXfer_kept {ks : List Part} {r : State} (d : DieId) (shape : Nat) (data : List Byte) {s : State} (h : Kept ks r s) (hk : [.mem, .regs, .dict, .sat, .cat, .banks, .tiles, .clients, .fabric, .host, .logs, .wear, .ledger, .served, .free] ⊆ ks := by first | assumption | exact sub_of (by assumption) (by decide)) : Kept ks r (takeXfer d shape data s) := by
  unfold takeXfer
  try dsimp only
  repeat' first
    | with_reducible assumption
    | with_reducible apply takeOne_kept
    | with_reducible apply pumpHeld_kept
    | with_reducible apply kept_ite
    | with_reducible refine kept_mk ?_ (by constructor <;> intro hp <;> first | exact absurd (sub_mem hk (by decide)) hp | rfl) (by rfl) (by rfl)

end Sys2Proof.Machine
end

