-- ==== Sys2Proof/Laws/KeptAbort.lean ====
section
/-! SUPPORT. What the operations of Machine/Abort.lean keep (Laws/Kept.lean). -/

set_option Elab.async false

namespace Sys2Proof.Machine

theorem presetTokens_kept {ks : List Part} {r : State} (c : Nat) {s : State} (h : Kept ks r s) (hk : [.plates] ⊆ ks := by first | assumption | exact sub_of (by assumption) (by decide)) : Kept ks r (presetTokens c s) := by
  unfold presetTokens
  try dsimp only
  repeat' first
    | with_reducible assumption
    | intro _
    | with_reducible apply setTok_kept
    | with_reducible apply kept_foldl
    | with_reducible refine kept_mk ?_ (by constructor <;> intro hp <;> first | exact absurd (sub_mem hk (by decide)) hp | rfl) (by rfl) (by rfl)

theorem stopEngine_kept {ks : List Part} {r : State} {s : State} (e : Eng) (h : Kept ks r s) (hk : [.plates] ⊆ ks := by first | assumption | exact sub_of (by assumption) (by decide)) : Kept ks r (stopEngine s e) := by
  unfold stopEngine
  try dsimp only
  repeat' first
    | with_reducible assumption
    | with_reducible apply setEng_kept

theorem abortTile_kept {ks : List Part} {r : State} (t : TileId) {s : State} (h : Kept ks r s) (hk : [.tiles, .units] ⊆ ks := by first | assumption | exact sub_of (by assumption) (by decide)) : Kept ks r (abortTile t s) := by
  unfold abortTile
  try dsimp only
  repeat' first
    | with_reducible assumption
    | exact sub_of hk (by decide)
    | with_reducible apply setTile_kept
    | with_reducible apply setLane_kept
    | with_reducible apply kept_ite

theorem floodAbort_kept {ks : List Part} {r : State} (c : Nat) (origin : Nat) (fcode : Nat) (step : Nat) (but : Option Nat) {s : State} (h : Kept ks r s) (hk : [.fabric] ⊆ ks := by first | assumption | exact sub_of (by assumption) (by decide)) : Kept ks r (floodAbort c origin fcode step but s) := by
  unfold floodAbort
  try dsimp only
  repeat' first
    | with_reducible assumption
    | with_reducible apply flood_kept
    | with_reducible apply kept_ite
    | with_reducible refine kept_mk ?_ (by constructor <;> intro hp <;> first | exact absurd (sub_mem hk (by decide)) hp | rfl) (by rfl) (by rfl)

theorem stopStep_kept {ks : List Part} {r : State} (c : Nat) (st : StepSt) {s : State} (h : Kept ks r s) (hk : [.dict, .sat, .cat, .plates, .tiles, .units, .clients, .fabric, .host, .logs] ⊆ ks := by first | assumption | exact sub_of (by assumption) (by decide)) : Kept ks r (stopStep c st s) := by
  unfold stopStep
  try dsimp only
  repeat' first
    | with_reducible assumption
    | exact sub_of hk (by decide)
    | intro _
    | with_reducible apply stopEngine_kept
    | with_reducible apply abortTile_kept
    | with_reducible apply presetTokens_kept
    | with_reducible apply dropTx_kept
    | with_reducible apply freeCtxs_kept
    | with_reducible apply floodAbort_kept
    | with_reducible apply updStep_kept
    | with_reducible apply post_kept
    | with_reducible apply bumpDict_kept
    | with_reducible apply kept_ite
    | with_reducible apply kept_foldl
    | with_reducible refine kept_mk ?_ (by constructor <;> intro hp <;> first | exact absurd (sub_mem hk (by decide)) hp | rfl) (by rfl) (by rfl)

theorem execStepAbort_kept {ks : List Part} {r out : State} (c : ClientId) {s : State} (h : Kept ks r s) (he : execStepAbort c s = .next out) (hk : [.dict, .sat, .cat, .plates, .tiles, .units, .clients, .fabric, .host, .logs] ⊆ ks := by first | assumption | exact sub_of (by assumption) (by decide)) : Kept ks r out := by
  unfold execStepAbort at he
  refine kept_next he ?_
  clear he
  try dsimp only
  repeat' first
    | with_reducible assumption
    | with_reducible apply stopStep_kept
    | with_reducible apply kept_ite
    | split

theorem execAbortMessage_kept {ks : List Part} {r out : State} (p : PortId) (w0 : Word) (w1 : Word) {s : State} (h : Kept ks r s) (he : execAbortMessage p w0 w1 s = .next out) (hk : [.clients, .fabric] ⊆ ks := by first | assumption | exact sub_of (by assumption) (by decide)) : Kept ks r out := by
  unfold execAbortMessage at he
  refine kept_next he ?_
  clear he
  try dsimp only
  repeat' first
    | with_reducible assumption
    | exact sub_of hk (by decide)
    | with_reducible apply floodAbort_kept
    | with_reducible apply updStep_kept
    | with_reducible apply kept_ite

end Sys2Proof.Machine
end

