-- ==== Sys2Proof/Laws/KeptColl.lean ====
section
/-! SUPPORT. What the operations of Machine/Coll.lean keep (Laws/Kept.lean). -/

set_option Elab.async false

namespace Sys2Proof.Machine

theorem execCctx_kept {ks : List Part} {r out : State} (d : DieId) (c : PCmd) {s : State} (h : Kept ks r s) (he : execCctx d c s = .next out) (hk : [.regs, .dict, .sat, .plates, .fabric, .host, .logs, .ledger] ⊆ ks := by first | assumption | exact sub_of (by assumption) (by decide)) : Kept ks r out := by
  unfold execCctx at he
  refine kept_next he ?_
  clear he
  try dsimp only
  repeat' first
    | with_reducible assumption
    | exact sub_of hk (by decide)
    | intro _
    | with_reducible apply withIssue_kept
    | with_reducible apply refuse_kept
    | with_reducible apply setCtx_kept
    | with_reducible apply complete_kept
    | with_reducible apply countFree_kept
    | with_reducible apply kept_ite
    | with_reducible apply kept_foldl

theorem sourceRow_kept {ks : List Part} {r : State} (client : Nat) (name : Nat) (e : Entry) (row : Nat) (col : Nat) (n : Nat) {s : State} (h : Kept ks r s) (hk : [.mem, .regs, .dict, .sat, .banks, .clients, .host, .logs, .wear, .ledger, .served] ⊆ ks := by first | assumption | exact sub_of (by assumption) (by decide)) : Kept ks r (sourceRow client name e row col n s).2.2.2 := by
  unfold sourceRow
  try dsimp only
  repeat' first
    | with_reducible assumption
    | with_reducible apply readBuf_kept

theorem rowPayload_kept {ks : List Part} {r : State} (client name : Nat) (e : Entry) (col n : Nat) (l : List (Nat × List Byte)) {s : State}
    (h : Kept ks r s) (hk : [.mem, .regs, .dict, .sat, .banks, .clients, .host, .logs, .wear, .ledger, .served] ⊆ ks := by first | assumption | exact sub_of (by assumption) (by decide)) : Kept ks r (rowPayload client name e col n l s).2.2 := by
  induction l generalizing s with
  | nil => exact h
  | cons x l ih => exact ih (sourceRow_kept _ _ _ _ _ _ h)

theorem regionVals_kept {ks : List Part} {r : State} (client name : Nat) (e : Entry) (col n : Nat) (l : List Nat) {s : State}
    (h : Kept ks r s) (hk : [.mem, .regs, .dict, .sat, .banks, .clients, .host, .logs, .wear, .ledger, .served] ⊆ ks := by first | assumption | exact sub_of (by assumption) (by decide)) : Kept ks r (regionVals client name e col n l s).2 := by
  induction l generalizing s with
  | nil => exact h
  | cons x l ih => exact ih (sourceRow_kept _ _ _ _ _ _ h)

theorem noteRing_kept {ks : List Part} {r : State} (d : Nat) (client : Nat) (job : Nat) (bs : RingBlocks) (f : Fmt) (base : Option Nat) (esc : List Nat) (spills : Nat) {s : State} (h : Kept ks r s) (hk : [.regs, .dict, .sat, .host, .logs, .free] ⊆ ks := by first | assumption | exact sub_of (by assumption) (by decide)) : Kept ks r (noteRing d client job bs f base esc spills s) := by
  unfold noteRing
  try dsimp only
  repeat' first
    | with_reducible assumption
    | exact sub_of hk (by decide)
    | with_reducible apply setBit_kept
    | with_reducible apply bump_kept
    | with_reducible apply bumpDict_kept
    | with_reducible apply noteNonFinite_kept
    | with_reducible apply fresh_kept
    | with_reducible apply kept_ite
    | split

theorem writeResid_kept {ks : List Part} {r : State} (client : Nat) (name : Nat) (e : Entry) (row : Nat) (col : Nat) (n : Nat) (j : Nat) (codes : List Nat) {s : State} (h : Kept ks r s) (hk : [.mem, .regs, .dict, .sat, .cat, .banks, .clients, .host, .logs, .wear, .ledger, .served] ⊆ ks := by first | assumption | exact sub_of (by assumption) (by decide)) : Kept ks r (writeResid client name e row col n j codes s) := by
  unfold writeResid
  try dsimp only
  repeat' first
    | with_reducible assumption
    | intro _
    | with_reducible apply putBuf_kept
    | with_reducible apply kept_foldl

theorem thinPayload_kept {ks : List Part} {r : State} (d : Nat) (client : Nat) (c : PCmd) (e : Entry) (xs : List FVal) (errs : List FVal) {s : State} (h : Kept ks r s) (hk : [.mem, .regs, .dict, .sat, .cat, .banks, .clients, .host, .logs, .wear, .ledger, .served] ⊆ ks := by first | assumption | exact sub_of (by assumption) (by decide)) : Kept ks r (thinPayload d client c e xs errs s).2 := by
  unfold thinPayload
  try dsimp only
  repeat' first
    | with_reducible assumption
    | exact sub_of hk (by decide)
    | intro _
    | with_reducible apply slotAdd_kept
    | with_reducible apply writeResid_kept
    | with_reducible apply kept_foldl

theorem dispatchRest_kept {ks : List Part} {r : State} (d : Nat) (client : Nat) (c : PCmd) (th e : Entry) {s : State} (h : Kept ks r s) (hk : [.mem, .regs, .dict, .sat, .cat, .banks, .clients, .host, .logs, .wear, .ledger, .served] ⊆ ks := by first | assumption | exact sub_of (by assumption) (by decide)) : Kept ks r (dispatchRest d client c th e s) := by
  unfold dispatchRest
  try dsimp only
  repeat' first
    | with_reducible assumption
    | exact sub_of hk (by decide)
    | with_reducible apply putBuf_kept
    | with_reducible apply bump_kept
    | with_reducible apply bumpDict_kept
    | with_reducible apply kept_ite

theorem checkMap_kept {ks : List Part} {r : State} (client : Nat) (c : PCmd) {s : State} (h : Kept ks r s) (hk : [.clients] ⊆ ks := by first | assumption | exact sub_of (by assumption) (by decide)) : Kept ks r (checkMap client c s) := by
  unfold checkMap
  try dsimp only
  repeat' first
    | with_reducible assumption
    | with_reducible apply setScope_kept
    | with_reducible apply kept_ite

theorem markRead_kept {ks : List Part} {r : State} (f : Fmt) (xs : List (Nat × Nat × Nat)) (esc : List Nat) {s : State} (h : Kept ks r s) (hk : [.clients, .fabric] ⊆ ks := by first | assumption | exact sub_of (by assumption) (by decide)) : Kept ks r (markRead f xs esc s) := by
  unfold markRead
  try dsimp only
  repeat' first
    | with_reducible assumption
    | exact sub_of hk (by decide)
    | intro _
    | with_reducible apply settleCtx_kept
    | with_reducible apply setCtx_kept
    | with_reducible apply kept_foldl

theorem formSend_kept {ks : List Part} {r : State} (d : DieId) (client : Nat) (id : Nat) (w : WinCmd) {s : State} (h : Kept ks r s) (hk : [.mem, .regs, .dict, .sat, .cat, .banks, .clients, .fabric, .host, .logs, .wear, .ledger, .served, .free] ⊆ ks := by first | assumption | exact sub_of (by assumption) (by decide)) : Kept ks r (formSend d client id w s) := by
  unfold formSend
  try dsimp only
  repeat' first
    | with_reducible assumption
    | exact sub_of hk (by decide)
    | intro _
    | with_reducible apply noteRing_kept
    | with_reducible apply regionVals_kept
    | with_reducible apply markRead_kept
    | with_reducible apply readBuf_kept
    | with_reducible apply thinPayload_kept
    | with_reducible apply setScope_kept
    | with_reducible apply rowPayload_kept
    | with_reducible apply dispatchRest_kept
    | with_reducible apply checkMap_kept
    | with_reducible apply updStep_kept
    | with_reducible apply beginTx_kept
    | with_reducible apply feedTx_kept
    | with_reducible apply addPacket_kept
    | with_reducible apply kept_ite
    | with_reducible apply kept_foldl
    | with_reducible apply kept_foldl_snd
    | split

theorem pumpSends_kept {ks : List Part} {r : State} {s : State} (h : Kept ks r s) (hk : [.mem, .regs, .dict, .sat, .cat, .banks, .clients, .fabric, .host, .logs, .wear, .ledger, .served, .free] ⊆ ks := by first | assumption | exact sub_of (by assumption) (by decide)) : Kept ks r (pumpSends s) := by
  unfold pumpSends
  try dsimp only
  repeat' first
    | with_reducible assumption
    | intro _
    | with_reducible apply formSend_kept
    | with_reducible apply kept_ite
    | with_reducible apply kept_foldl
    | split
    | with_reducible refine kept_mk ?_ (by constructor <;> intro hp <;> first | exact absurd (sub_mem hk (by decide)) hp | rfl) (by rfl) (by rfl)

theorem settleSends_kept {ks : List Part} {r : State} {s : State} (h : Kept ks r s) (hk : [.plates, .clients, .fabric] ⊆ ks := by first | assumption | exact sub_of (by assumption) (by decide)) : Kept ks r (settleSends s) := by
  unfold settleSends
  try dsimp only
  repeat' first
    | with_reducible assumption
    | exact sub_of hk (by decide)
    | intro _
    | with_reducible apply complete_kept
    | with_reducible apply endTx_kept
    | with_reducible apply kept_foldl

theorem execCsend_kept {ks : List Part} {r out : State} (d : DieId) (c : PCmd) {s : State} (h : Kept ks r s) (he : execCsend d c s = .next out) (hk : [.mem, .regs, .dict, .sat, .cat, .banks, .plates, .clients, .fabric, .host, .logs, .wear, .ledger, .served, .free] ⊆ ks := by first | assumption | exact sub_of (by assumption) (by decide)) : Kept ks r out := by
  unfold execCsend at he
  refine kept_next he ?_
  clear he
  try dsimp only
  repeat' first
    | with_reducible assumption
    | exact sub_of hk (by decide)
    | intro _
    | with_reducible apply withIssue_kept
    | with_reducible apply refuse_kept
    | with_reducible apply pumpSends_kept
    | with_reducible apply kept_ite
    | with_reducible refine kept_mk ?_ (by constructor <;> intro hp <;> first | exact absurd (sub_mem hk (by decide)) hp | rfl) (by rfl) (by rfl)

theorem settleGates_kept {ks : List Part} {r : State} (c : Nat) (slot : Nat) {s : State} (h : Kept ks r s) (hk : [.regs, .dict, .sat, .plates, .clients, .host, .logs] ⊆ ks := by first | assumption | exact sub_of (by assumption) (by decide)) : Kept ks r (settleGates c slot s) := by
  unfold settleGates
  try dsimp only
  repeat' first
    | with_reducible assumption
    | exact sub_of hk (by decide)
    | intro _
    | with_reducible apply updStep_kept
    | with_reducible apply bumpDict_kept
    | with_reducible apply setBit_kept
    | with_reducible apply complete_kept
    | with_reducible apply kept_ite
    | with_reducible apply kept_foldl
    | split

theorem execCgate_kept {ks : List Part} {r out : State} (d : DieId) (c : PCmd) {s : State} (h : Kept ks r s) (he : execCgate d c s = .next out) (hk : [.regs, .dict, .sat, .plates, .clients, .host, .logs, .ledger] ⊆ ks := by first | assumption | exact sub_of (by assumption) (by decide)) : Kept ks r out := by
  unfold execCgate at he
  refine kept_next he ?_
  clear he
  try dsimp only
  repeat' first
    | with_reducible assumption
    | exact sub_of hk (by decide)
    | intro _
    | with_reducible apply withIssue_kept
    | with_reducible apply refuse_kept
    | with_reducible apply settleGates_kept
    | with_reducible apply updStep_kept
    | with_reducible apply kept_ite

theorem execCcommit_kept {ks : List Part} {r out : State} (d : DieId) (c : PCmd) {s : State} (h : Kept ks r s) (he : execCcommit d c s = .next out) (hk : [.regs, .dict, .sat, .plates, .clients, .host, .logs, .ledger] ⊆ ks := by first | assumption | exact sub_of (by assumption) (by decide)) : Kept ks r out := by
  unfold execCcommit at he
  refine kept_next he ?_
  clear he
  try dsimp only
  repeat' first
    | with_reducible assumption
    | exact sub_of hk (by decide)
    | intro _
    | with_reducible apply withIssue_kept
    | with_reducible apply collFault_kept
    | with_reducible apply refuse_kept
    | with_reducible apply updStep_kept
    | with_reducible apply kept_ite

theorem abandonReshard_kept {ks : List Part} {r : State} (c : Nat) (ids : List Nat) {s : State} (h : Kept ks r s) (hk : [.dict, .sat, .cat, .plates, .clients, .host, .logs] ⊆ ks := by first | assumption | exact sub_of (by assumption) (by decide)) : Kept ks r (abandonReshard c ids s) := by
  unfold abandonReshard
  try dsimp only
  repeat' first
    | with_reducible assumption
    | exact sub_of hk (by decide)
    | intro _
    | with_reducible apply discardStaged_kept
    | with_reducible apply post_kept
    | with_reducible apply bumpDict_kept
    | with_reducible apply complete_kept
    | with_reducible apply updStep_kept
    | with_reducible apply kept_foldl

theorem execReshardDecide_kept {ks : List Part} {r out : State} (c : ClientId) (slot : Nat) {s : State} (h : Kept ks r s) (he : execReshardDecide c slot s = .next out) (hk : [.regs, .dict, .sat, .cat, .plates, .clients, .host, .logs] ⊆ ks := by first | assumption | exact sub_of (by assumption) (by decide)) : Kept ks r out := by
  unfold execReshardDecide at he
  refine kept_next he ?_
  clear he
  try dsimp only
  repeat' first
    | with_reducible assumption
    | exact sub_of hk (by decide)
    | intro _
    | with_reducible apply abandonReshard_kept
    | with_reducible apply queueCommit_kept
    | with_reducible apply setBit_kept
    | with_reducible apply updStep_kept
    | with_reducible apply kept_ite
    | with_reducible apply kept_foldl
    | split

theorem execCollTransferArrive_kept {ks : List Part} {r out : State} (d : DieId) (shape : Nat) (data : List Byte) {s : State} (h : Kept ks r s) (he : execCollTransferArrive d shape data s = .next out) (hk : [.mem, .regs, .dict, .sat, .cat, .banks, .tiles, .clients, .fabric, .host, .logs, .wear, .ledger, .served, .free] ⊆ ks := by first | assumption | exact sub_of (by assumption) (by decide)) : Kept ks r out := by
  unfold execCollTransferArrive at he
  refine kept_next he ?_
  clear he
  try dsimp only
  repeat' first
    | with_reducible assumption
    | exact sub_of hk (by decide)
    | with_reducible apply pumpSends_kept
    | with_reducible apply takeXfer_kept

theorem execSpillPacket_kept {ks : List Part} {r out : State} (d : DieId) (data : List Byte) {s : State} (h : Kept ks r s) (he : execSpillPacket d data s = .next out) (hk : [.mem, .regs, .dict, .sat, .cat, .banks, .tiles, .clients, .fabric, .host, .logs, .wear, .ledger, .served, .free] ⊆ ks := by first | assumption | exact sub_of (by assumption) (by decide)) : Kept ks r out := by
  unfold execSpillPacket at he
  refine kept_next he ?_
  clear he
  try dsimp only
  repeat' first
    | with_reducible assumption
    | exact sub_of hk (by decide)
    | with_reducible apply pumpSends_kept
    | with_reducible apply takeXfer_kept
    | with_reducible apply kept_ite

theorem execSpillTimeout_kept {ks : List Part} {r out : State} (d : DieId) (ctx : Nat) {s : State} (h : Kept ks r s) (he : execSpillTimeout d ctx s = .next out) (hk : [.regs, .dict, .sat, .clients, .fabric, .host, .logs] ⊆ ks := by first | assumption | exact sub_of (by assumption) (by decide)) : Kept ks r out := by
  unfold execSpillTimeout at he
  refine kept_next he ?_
  clear he
  try dsimp only
  repeat' first
    | with_reducible assumption
    | exact sub_of hk (by decide)
    | with_reducible apply collFault_kept
    | with_reducible apply kept_ite
    | with_reducible refine kept_mk ?_ (by constructor <;> intro hp <;> first | exact absurd (sub_mem hk (by decide)) hp | rfl) (by rfl) (by rfl)

theorem execXbind_kept {ks : List Part} {r out : State} (t : TileId) (w : Word) (u : List Upset) {s : State} (h : Kept ks r s) (he : execXbind t w u s = .next out) (hk : [.mem, .regs, .dict, .sat, .cat, .banks, .tiles, .clients, .fabric, .host, .logs, .wear, .ledger, .served, .free] ⊆ ks := by first | assumption | exact sub_of (by assumption) (by decide)) : Kept ks r out := by
  unfold execXbind at he
  refine runInstr_kept h (fun s hs => ?_) he
  try dsimp only
  repeat' first
    | with_reducible apply IRes.all_done
    | with_reducible apply IRes.all_ite
    | with_reducible assumption
    | exact sub_of hk (by decide)
    | with_reducible apply skipInstr_kept
    | with_reducible apply setVec_kept
    | with_reducible apply pumpSends_kept
    | with_reducible apply pumpHeld_kept
    | with_reducible apply setCtx_kept

theorem execXfree_kept {ks : List Part} {r out : State} (t : TileId) (w : Word) (u : List Upset) {s : State} (h : Kept ks r s) (he : execXfree t w u s = .next out) (hk : [.regs, .dict, .sat, .tiles, .clients, .fabric, .host, .logs, .ledger, .free] ⊆ ks := by first | assumption | exact sub_of (by assumption) (by decide)) : Kept ks r out := by
  unfold execXfree at he
  refine runInstr_kept h (fun s hs => ?_) he
  try dsimp only
  repeat' first
    | with_reducible apply IRes.all_wait
    | with_reducible apply IRes.all_done
    | with_reducible apply IRes.all_ite
    | with_reducible assumption
    | exact sub_of hk (by decide)
    | with_reducible apply skipInstr_kept
    | with_reducible apply setVec_kept
    | with_reducible apply setCtx_kept
    | split

end Sys2Proof.Machine
end

