-- ==== Sys2Proof/Laws/KeptGovernor.lean ====
section
/-! SUPPORT. What the operations of Machine/Governor.lean keep (Laws/Kept.lean). -/

set_option Elab.async false

namespace Sys2Proof.Machine

theorem latchTensor_kept {ks : List Part} {r : State} (c : Nat) (g : Nat) (d : Nat) (n : Nat) (r0 : Word) {acc : Vote × State} (h : Kept ks r acc.2) (hk : [.mem, .regs, .dict, .sat, .banks, .clients, .host, .logs, .wear, .ledger, .served] ⊆ ks := by first | assumption | exact sub_of (by assumption) (by decide)) : Kept ks r (latchTensor c g d n r0 acc).2 := by
  unfold latchTensor
  try dsimp only
  repeat' first
    | with_reducible assumption
    | exact sub_of hk (by decide)
    | with_reducible apply writeBuf_kept
    | with_reducible apply setReg_kept
    | with_reducible apply clearSlot_kept

theorem execGovLatch_kept {ks : List Part} {r out : State} (c : ClientId) (d : DieId) (layer : Nat) {s : State} (h : Kept ks r s) (he : execGovLatch c d layer s = .next out) (hk : [.mem, .regs, .dict, .sat, .banks, .plates, .clients, .host, .logs, .wear, .ledger, .served] ⊆ ks := by first | assumption | exact sub_of (by assumption) (by decide)) : Kept ks r out := by
  unfold execGovLatch at he
  refine kept_next he ?_
  clear he
  try dsimp only
  repeat' first
    | with_reducible assumption
    | exact sub_of hk (by decide)
    | intro _
    | with_reducible apply setTok_kept
    | with_reducible apply latchTensor_kept
    | with_reducible apply updStep_kept
    | with_reducible apply kept_ite
    | with_reducible apply kept_foldl_snd
    | split

theorem govFault_kept {ks : List Part} {r : State} (c : Nat) (d : Nat) (ltag : Nat) (h0 : Nat) (code : Nat) {s : State} (h : Kept ks r s) (hk : [.regs, .dict, .sat, .clients, .host, .logs] ⊆ ks := by first | assumption | exact sub_of (by assumption) (by decide)) : Kept ks r (govFault c d ltag h0 code s) := by
  unfold govFault
  try dsimp only
  repeat' first
    | with_reducible assumption
    | exact sub_of hk (by decide)
    | with_reducible apply setReg_kept
    | with_reducible apply raiseFault_kept
    | with_reducible apply bumpDict_kept

theorem govWrite_kept {ks : List Part} {r : State} (c : Nat) (d : Nat) (ltag : Nat) (r0 : CatRec) {acc : Bool × State} (h : Kept ks r acc.2) (hk : [.mem, .regs, .dict, .sat, .cat, .plates, .clients, .host, .logs] ⊆ ks := by first | assumption | exact sub_of (by assumption) (by decide)) : Kept ks r (govWrite c d ltag r0 acc).2 := by
  unfold govWrite
  try dsimp only
  repeat' first
    | with_reducible assumption
    | exact sub_of hk (by decide)
    | with_reducible apply catWrite_kept
    | with_reducible apply govFault_kept
    | with_reducible refine kept_snd (by assumption) ?_
    | split

theorem voteTensor_kept {ks : List Part} {r : State} (c : Nat) (g : Nat) (l : Nat) (amax : List Nat) (r0 : Word) {acc : Bool × State} (h : Kept ks r acc.2) (hk : [.mem, .regs, .dict, .sat, .cat, .plates, .clients, .host, .logs] ⊆ ks := by first | assumption | exact sub_of (by assumption) (by decide)) : Kept ks r (voteTensor c g l amax r0 acc).2 := by
  unfold voteTensor
  try dsimp only
  repeat' first
    | with_reducible assumption
    | with_reducible apply govWrite_kept

theorem voteTokens_kept {ks : List Part} {r : State} (c : Nat) (g : Nat) (l : Nat) {s : State} (h : Kept ks r s) (hk : [.plates] ⊆ ks := by first | assumption | exact sub_of (by assumption) (by decide)) : Kept ks r (voteTokens c g l s) := by
  unfold voteTokens
  try dsimp only
  repeat' first
    | with_reducible assumption
    | intro _
    | with_reducible apply postTok_kept
    | with_reducible apply kept_foldl

theorem execVoteSettle_kept {ks : List Part} {r out : State} (c : ClientId) (layer : Nat) {s : State} (h : Kept ks r s) (he : execVoteSettle c layer s = .next out) (hk : [.mem, .regs, .dict, .sat, .cat, .banks, .plates, .clients, .host, .logs, .wear, .ledger, .served] ⊆ ks := by first | assumption | exact sub_of (by assumption) (by decide)) : Kept ks r out := by
  unfold execVoteSettle at he
  refine kept_next he ?_
  clear he
  try dsimp only
  repeat' first
    | with_reducible assumption
    | exact sub_of hk (by decide)
    | intro _
    | with_reducible apply setLayerState_kept
    | with_reducible apply voteTensor_kept
    | with_reducible apply bumpDict_kept
    | with_reducible apply setScope_kept
    | with_reducible apply voteTokens_kept
    | with_reducible apply kept_ite
    | with_reducible apply kept_foldl_snd
    | split

theorem stageTensor_kept {ks : List Part} {r : State} (c : Nat) (g : Nat) (l : Nat) (rung : Nat) (q : Nat) (amax : List Nat) (r0 : Word) {acc : Bool × List Nat × State} (h : Kept ks r acc.2.2) (hk : [.mem, .regs, .dict, .sat, .cat, .plates, .clients, .host, .logs] ⊆ ks := by first | assumption | exact sub_of (by assumption) (by decide)) : Kept ks r (stageTensor c g l rung q amax r0 acc).2.2 := by
  unfold stageTensor
  try dsimp only
  repeat' first
    | with_reducible assumption
    | with_reducible apply govWrite_kept

theorem uncacheLine_kept {ks : List Part} {r : State} (a : Nat) {s : State} (h : Kept ks r s) (hk : [.plates] ⊆ ks := by first | assumption | exact sub_of (by assumption) (by decide)) : Kept ks r (uncacheLine a s) := by
  unfold uncacheLine
  try dsimp only
  repeat' first
    | with_reducible assumption
    | with_reducible refine kept_mk ?_ (by constructor <;> intro hp <;> first | exact absurd (sub_mem hk (by decide)) hp | rfl) (by rfl) (by rfl)

theorem patchAnchor_kept {ks : List Part} {r : State} (c : Nat) (shift : Int) {s : State} (x : Word) (h : Kept ks r s) (hk : [.mem, .regs, .dict, .sat, .banks, .plates, .clients, .host, .logs, .wear, .ledger, .served] ⊆ ks := by first | assumption | exact sub_of (by assumption) (by decide)) : Kept ks r (patchAnchor c shift s x) := by
  unfold patchAnchor
  try dsimp only
  repeat' first
    | with_reducible assumption
    | exact sub_of hk (by decide)
    | with_reducible apply uncacheLine_kept
    | with_reducible apply writeMem_kept

theorem endLayer_kept {ks : List Part} {r : State} (c : Nat) (g : Nat) (l : Nat) {acc : Bool × State} (h : Kept ks r acc.2) (hk : [.mem, .regs, .dict, .sat, .cat, .banks, .plates, .clients, .host, .logs, .wear, .ledger, .served] ⊆ ks := by first | assumption | exact sub_of (by assumption) (by decide)) : Kept ks r (endLayer c g l acc).2 := by
  unfold endLayer
  try dsimp only
  repeat' first
    | with_reducible assumption
    | exact sub_of hk (by decide)
    | intro _
    | with_reducible apply stageTensor_kept
    | with_reducible apply setLayerState_kept
    | with_reducible apply bumpDict_kept
    | with_reducible apply patchAnchor_kept
    | with_reducible apply kept_ite
    | with_reducible apply kept_foldl
    | with_reducible apply kept_foldl_snd3
    | split

theorem execGovEndOfStep_kept {ks : List Part} {r out : State} (c : ClientId) {s : State} (h : Kept ks r s) (he : execGovEndOfStep c s = .next out) (hk : [.mem, .regs, .dict, .sat, .cat, .banks, .plates, .clients, .host, .logs, .wear, .ledger, .served, .free] ⊆ ks := by first | assumption | exact sub_of (by assumption) (by decide)) : Kept ks r out := by
  unfold execGovEndOfStep at he
  refine kept_next he ?_
  clear he
  try dsimp only
  repeat' first
    | with_reducible assumption
    | exact sub_of hk (by decide)
    | intro _
    | with_reducible apply endLayer_kept
    | with_reducible apply fresh_kept
    | with_reducible apply setDict_kept
    | with_reducible apply queueCommit_kept
    | with_reducible apply updStep_kept
    | with_reducible apply kept_ite
    | with_reducible apply kept_foldl
    | with_reducible apply kept_foldl_snd
    | split

theorem clearVotes_kept {ks : List Part} {r : State} (c : Nat) {s : State} (h : Kept ks r s) (hk : [.mem, .regs, .dict, .sat, .banks, .clients, .host, .logs, .wear, .ledger, .served] ⊆ ks := by first | assumption | exact sub_of (by assumption) (by decide)) : Kept ks r (clearVotes c s) := by
  unfold clearVotes
  try dsimp only
  repeat' first
    | with_reducible assumption
    | intro _
    | with_reducible apply setLayerState_kept
    | with_reducible apply kept_ite
    | with_reducible apply kept_foldl
    | split

end Sys2Proof.Machine
end

