-- ==== Sys2Proof/Laws/KeptTimetable.lean ====
section
/-! SUPPORT. What the operations of Machine/Timetable.lean keep (Laws/Kept.lean). -/

set_option Elab.async false

namespace Sys2Proof.Machine

theorem setCtl_kept {ks : List Part} {r : State} (c : Nat) (slot : Nat) (x : Ctl) {s : State} (h : Kept ks r s) (hk : [.clients] ⊆ ks := by first | assumption | exact sub_of (by assumption) (by decide)) : Kept ks r (setCtl c slot x s) := by
  unfold setCtl
  try dsimp only
  repeat' first
    | with_reducible assumption
    | with_reducible apply updStep_kept

theorem sendRecs_kept {ks : List Part} {r : State} (mtype : Nat) (ps : List Nat) {s : State} (h : Kept ks r s) (hk : [.fabric, .free] ⊆ ks := by first | assumption | exact sub_of (by assumption) (by decide)) : Kept ks r (sendRecs mtype ps s) := by
  unfold sendRecs
  try dsimp only
  repeat' first
    | with_reducible assumption
    | exact sub_of hk (by decide)
    | intro _
    | with_reducible apply openMsg_kept
    | with_reducible apply sendCtl_kept
    | with_reducible apply kept_foldl

theorem tryUp_kept {ks : List Part} {r : State} (c : Nat) (slot : Nat) {s : State} (h : Kept ks r s) (hk : [.clients, .fabric, .free] ⊆ ks := by first | assumption | exact sub_of (by assumption) (by decide)) : Kept ks r (tryUp c slot s) := by
  unfold tryUp
  try dsimp only
  repeat' first
    | with_reducible assumption
    | exact sub_of hk (by decide)
    | with_reducible apply setCtl_kept
    | with_reducible apply sendRecs_kept
    | with_reducible apply kept_ite
    | split

theorem updRun_kept {ks : List Part} {r : State} (c : Nat) (f : Run → Run) {s : State} (h : Kept ks r s) (hk : [.clients] ⊆ ks := by first | assumption | exact sub_of (by assumption) (by decide)) : Kept ks r (updRun c f s) := by
  unfold updRun
  try dsimp only
  repeat' first
    | with_reducible assumption
    | with_reducible apply setClient_kept
    | split

theorem fabricFault_kept {ks : List Part} {r : State} (c : Nat) (code : Nat) (detail : Nat) {s : State} (h : Kept ks r s) (hk : [.dict, .sat, .clients, .host, .logs] ⊆ ks := by first | assumption | exact sub_of (by assumption) (by decide)) : Kept ks r (fabricFault c code detail s) := by
  unfold fabricFault
  try dsimp only
  repeat' first
    | with_reducible assumption
    | exact sub_of hk (by decide)
    | with_reducible apply raiseFault_kept
    | with_reducible apply bumpDict_kept

theorem countStretch_kept {ks : List Part} {r : State} (c : Nat) (k : Nat) {s : State} (h : Kept ks r s) (hk : [.dict, .sat, .clients, .host, .logs] ⊆ ks := by first | assumption | exact sub_of (by assumption) (by decide)) : Kept ks r (countStretch c k s) := by
  unfold countStretch
  try dsimp only
  repeat' first
    | with_reducible assumption
    | exact sub_of hk (by decide)
    | with_reducible apply updStep_kept
    | with_reducible apply fabricFault_kept
    | with_reducible apply kept_ite
    | split

theorem applyStretch_kept {ks : List Part} {r : State} (c : Nat) (origin : Nat) (step : Nat) (e : Nat) (k : Nat) (slot : Nat) (but : Option Nat) {s : State} (h : Kept ks r s) (hk : [.dict, .sat, .clients, .fabric, .host, .logs, .ledger] ⊆ ks := by first | assumption | exact sub_of (by assumption) (by decide)) : Kept ks r (applyStretch c origin step e k slot but s) := by
  unfold applyStretch
  try dsimp only
  repeat' first
    | with_reducible assumption
    | exact sub_of hk (by decide)
    | with_reducible apply flood_kept
    | with_reducible apply updRun_kept
    | with_reducible apply fabricFault_kept
    | with_reducible apply bumpDict_kept
    | with_reducible apply countStretch_kept
    | with_reducible apply bumpLedger_kept
    | with_reducible apply kept_ite
    | split

theorem lateSlot_kept {ks : List Part} {r : State} (c : Nat) (slot : Nat) (cause : Nat) (e : Nat) (port : Option Nat) {s : State} (h : Kept ks r s) (hk : [.regs, .dict, .sat, .clients, .fabric, .host, .logs, .ledger] ⊆ ks := by first | assumption | exact sub_of (by assumption) (by decide)) : Kept ks r (lateSlot c slot cause e port s) := by
  unfold lateSlot
  try dsimp only
  repeat' first
    | with_reducible assumption
    | exact sub_of hk (by decide)
    | with_reducible apply bumpDict_kept
    | with_reducible apply post_kept
    | with_reducible apply setBit_kept
    | with_reducible apply applyStretch_kept
    | with_reducible apply kept_ite
    | split

theorem execStretch_kept {ks : List Part} {r out : State} (p : PortId) (w0 : Word) (w1 : Word) {s : State} (h : Kept ks r s) (he : execStretch p w0 w1 s = .next out) (hk : [.dict, .sat, .clients, .fabric, .host, .logs, .ledger] ⊆ ks := by first | assumption | exact sub_of (by assumption) (by decide)) : Kept ks r out := by
  unfold execStretch at he
  refine kept_next he ?_
  clear he
  try dsimp only
  repeat' first
    | with_reducible assumption
    | with_reducible apply applyStretch_kept

theorem execSlotOpen_kept {ks : List Part} {r out : State} (c : ClientId) (slot : Nat) {s : State} (h : Kept ks r s) (he : execSlotOpen c slot s = .next out) (hk : [.mem, .regs, .dict, .sat, .cat, .banks, .clients, .fabric, .host, .logs, .wear, .ledger, .served, .free] ⊆ ks := by first | assumption | exact sub_of (by assumption) (by decide)) : Kept ks r out := by
  unfold execSlotOpen at he
  refine kept_next he ?_
  clear he
  try dsimp only
  repeat' first
    | with_reducible assumption
    | exact sub_of hk (by decide)
    | with_reducible apply updStep_kept
    | with_reducible apply pumpSends_kept
    | with_reducible apply tryUp_kept
    | with_reducible apply kept_ite

theorem execSlotCheckpoint_kept {ks : List Part} {r out : State} (c : ClientId) (slot : Nat) {s : State} (h : Kept ks r s) (he : execSlotCheckpoint c slot s = .next out) (hk : [.regs, .dict, .sat, .clients, .fabric, .host, .logs, .ledger] ⊆ ks := by first | assumption | exact sub_of (by assumption) (by decide)) : Kept ks r out := by
  unfold execSlotCheckpoint at he
  refine kept_next he ?_
  clear he
  try dsimp only
  repeat' first
    | with_reducible assumption
    | with_reducible apply lateSlot_kept
    | with_reducible apply kept_ite

theorem closeStep_kept {ks : List Part} {r : State} (c : Nat) (slot : Nat) {s : State} (h : Kept ks r s) (hk : [.dict, .tiles, .clients, .fabric, .rot] ⊆ ks := by first | assumption | exact sub_of (by assumption) (by decide)) : Kept ks r (closeStep c slot s) := by
  unfold closeStep
  try dsimp only
  repeat' first
    | with_reducible assumption
    | exact sub_of hk (by decide)
    | with_reducible apply freeCtxs_kept
    | with_reducible apply setClient_kept
    | with_reducible refine kept_mk ?_ (by constructor <;> intro hp <;> first | exact absurd (sub_mem hk (by decide)) hp | rfl) (by rfl) (by rfl)

theorem execWindowEnd_kept {ks : List Part} {r out : State} (c : ClientId) (slot : Nat) {s : State} (h : Kept ks r s) (he : execWindowEnd c slot s = .next out) (hk : [.regs, .dict, .sat, .tiles, .clients, .fabric, .rot, .host, .logs, .ledger] ⊆ ks := by first | assumption | exact sub_of (by assumption) (by decide)) : Kept ks r out := by
  unfold execWindowEnd at he
  refine kept_next he ?_
  clear he
  try dsimp only
  repeat' first
    | with_reducible assumption
    | exact sub_of hk (by decide)
    | with_reducible apply updStep_kept
    | with_reducible apply closeStep_kept
    | with_reducible apply lateSlot_kept
    | with_reducible apply kept_ite

theorem execStepBoundaryCheck_kept {ks : List Part} {r out : State} (c : ClientId) {s : State} (h : Kept ks r s) (he : execStepBoundaryCheck c s = .next out) (hk : [.regs, .dict, .sat, .clients, .fabric, .host, .logs, .ledger] ⊆ ks := by first | assumption | exact sub_of (by assumption) (by decide)) : Kept ks r out := by
  unfold execStepBoundaryCheck at he
  refine kept_next he ?_
  clear he
  try dsimp only
  repeat' first
    | with_reducible assumption
    | with_reducible apply lateSlot_kept
    | with_reducible apply kept_ite
    | split

theorem execTransferReceiveComplete_kept {ks : List Part} {r out : State} (c : ClientId) (slot : Nat) {s : State} (h : Kept ks r s) (he : execTransferReceiveComplete c slot s = .next out) (hk : [.plates, .clients, .fabric] ⊆ ks := by first | assumption | exact sub_of (by assumption) (by decide)) : Kept ks r out := by
  unfold execTransferReceiveComplete at he
  refine kept_next he ?_
  clear he
  try dsimp only
  repeat' first
    | with_reducible assumption
    | exact sub_of hk (by decide)
    | with_reducible apply slotDone_kept
    | with_reducible apply postTok_kept
    | with_reducible apply kept_ite
    | split
    | with_reducible refine kept_mk ?_ (by constructor <;> intro hp <;> first | exact absurd (sub_mem hk (by decide)) hp | rfl) (by rfl) (by rfl)

theorem execRefusalMessage_kept {ks : List Part} {r out : State} (w0 : Word) (w1 : Word) {s : State} (h : Kept ks r s) (he : execRefusalMessage w0 w1 s = .next out) (hk : [.regs, .dict, .sat, .clients, .host, .logs] ⊆ ks := by first | assumption | exact sub_of (by assumption) (by decide)) : Kept ks r out := by
  unfold execRefusalMessage at he
  refine kept_next he ?_
  clear he
  try dsimp only
  repeat' first
    | with_reducible assumption
    | with_reducible apply collFault_kept
    | with_reducible apply kept_ite

theorem execControlRecordsUp_kept {ks : List Part} {r out : State} (c : ClientId) (slot : Nat) (child : List Word) {s : State} (h : Kept ks r s) (he : execControlRecordsUp c slot child s = .next out) (hk : [.clients, .fabric, .free] ⊆ ks := by first | assumption | exact sub_of (by assumption) (by decide)) : Kept ks r out := by
  unfold execControlRecordsUp at he
  refine kept_next he ?_
  clear he
  try dsimp only
  repeat' first
    | with_reducible assumption
    | exact sub_of hk (by decide)
    | with_reducible apply tryUp_kept
    | with_reducible apply setCtl_kept
    | with_reducible apply kept_ite

theorem closingChecks_kept {ks : List Part} {r : State} (c : Nat) (recs : SMap (List Nat)) {s : State} (h : Kept ks r s) (hk : [.regs, .dict, .sat, .clients, .host, .logs] ⊆ ks := by first | assumption | exact sub_of (by assumption) (by decide)) : Kept ks r (closingChecks c recs s) := by
  unfold closingChecks
  try dsimp only
  repeat' first
    | with_reducible assumption
    | exact sub_of hk (by decide)
    | with_reducible apply collFault_kept
    | with_reducible apply fabricFault_kept
    | with_reducible apply raiseFault_kept
    | with_reducible apply kept_ite

theorem abortFrom_kept {ks : List Part} {r : State} (c : Nat) (recs : SMap (List Nat)) {s : State} (h : Kept ks r s) (hk : [.clients] ⊆ ks := by first | assumption | exact sub_of (by assumption) (by decide)) : Kept ks r (abortFrom c recs s) := by
  unfold abortFrom
  try dsimp only
  repeat' first
    | with_reducible assumption
    | with_reducible apply updStep_kept
    | with_reducible apply kept_ite

theorem execControlRecordsDown_kept {ks : List Part} {r out : State} (c : ClientId) (slot : Nat) (recs : List Word) {s : State} (h : Kept ks r s) (he : execControlRecordsDown c slot recs s = .next out) (hk : [.regs, .dict, .sat, .plates, .clients, .fabric, .host, .logs, .free] ⊆ ks := by first | assumption | exact sub_of (by assumption) (by decide)) : Kept ks r out := by
  unfold execControlRecordsDown at he
  refine kept_next he ?_
  clear he
  try dsimp only
  repeat' first
    | with_reducible assumption
    | exact sub_of hk (by decide)
    | with_reducible apply sendRecs_kept
    | with_reducible apply setCtl_kept
    | with_reducible apply settleGates_kept
    | with_reducible apply abortFrom_kept
    | with_reducible apply closingChecks_kept
    | with_reducible apply kept_ite

end Sys2Proof.Machine
end

