-- ==== Sys2Proof/Laws/KeptFabric.lean ====
section
/-! SUPPORT. What the operations of Machine/Fabric.lean keep (Laws/Kept.lean). -/

set_option Elab.async false

namespace Sys2Proof.Machine

theorem putWire_kept {ks : List Part} {r : State} (p : Nat) (f : Flit) (resend : Bool) {s : State} (h : Kept ks r s) (hk : [.fabric, .free] ⊆ ks := by first | assumption | exact sub_of (by assumption) (by decide)) : Kept ks r (putWire p f resend s) := by
  unfold putWire
  try dsimp only
  repeat' first
    | with_reducible assumption
    | exact sub_of hk (by decide)
    | with_reducible apply setPort_kept
    | with_reducible refine kept_mk_free ?_ (by constructor <;> intro hp <;> first | exact absurd (sub_mem hk (by decide)) hp | rfl) (by omega) (by rfl) (by rfl)

theorem sendIdle_kept {ks : List Part} {r : State} (p : Nat) {s : State} (h : Kept ks r s) (hk : [.fabric, .free] ⊆ ks := by first | assumption | exact sub_of (by assumption) (by decide)) : Kept ks r (sendIdle p s) := by
  unfold sendIdle
  try dsimp only
  repeat' first
    | with_reducible assumption
    | exact sub_of hk (by decide)
    | with_reducible apply fresh_kept
    | with_reducible apply putWire_kept

theorem sendNew_kept {ks : List Part} {r : State} (p : Nat) (f : Flit) {s : State} (h : Kept ks r s) (hk : [.fabric, .free] ⊆ ks := by first | assumption | exact sub_of (by assumption) (by decide)) : Kept ks r (sendNew p f s) := by
  unfold sendNew
  try dsimp only
  repeat' first
    | with_reducible assumption
    | exact sub_of hk (by decide)
    | with_reducible apply putWire_kept
    | with_reducible apply setPort_kept

theorem sendNext_kept {ks : List Part} {r : State} (p : Nat) {s : State} (h : Kept ks r s) (hk : [.mem, .regs, .dict, .sat, .cat, .banks, .clients, .fabric, .host, .logs, .wear, .ledger, .served, .free] ⊆ ks := by first | assumption | exact sub_of (by assumption) (by decide)) : Kept ks r (sendNext p s) := by
  unfold sendNext
  try dsimp only
  repeat' first
    | with_reducible assumption
    | exact sub_of hk (by decide)
    | with_reducible apply sendIdle_kept
    | with_reducible apply sendNew_kept
    | with_reducible apply setPort_kept
    | with_reducible apply pumpSends_kept
    | with_reducible apply noteServed_kept
    | with_reducible apply bumpLedger_kept
    | with_reducible apply bump_kept
    | with_reducible apply kept_ite
    | split

theorem execFlitSend_kept {ks : List Part} {r out : State} (p : PortId) {s : State} (h : Kept ks r s) (he : execFlitSend p s = .next out) (hk : [.mem, .regs, .dict, .sat, .cat, .banks, .clients, .fabric, .host, .logs, .wear, .ledger, .served, .free] ⊆ ks := by first | assumption | exact sub_of (by assumption) (by decide)) : Kept ks r out := by
  unfold execFlitSend at he
  refine kept_next he ?_
  clear he
  try dsimp only
  repeat' first
    | with_reducible assumption
    | exact sub_of hk (by decide)
    | with_reducible apply putWire_kept
    | with_reducible apply setPort_kept
    | with_reducible apply bumpDict_kept
    | with_reducible apply bump_kept
    | with_reducible apply sendIdle_kept
    | with_reducible apply sendNext_kept
    | with_reducible apply kept_ite
    | split

theorem faultAll_kept {ks : List Part} {r : State} (cs : List Nat) (code : Nat) (detail : Nat) {s : State} (h : Kept ks r s) (hk : [.dict, .sat, .clients, .host, .logs] ⊆ ks := by first | assumption | exact sub_of (by assumption) (by decide)) : Kept ks r (faultAll cs code detail s) := by
  unfold faultAll
  try dsimp only
  repeat' first
    | with_reducible assumption
    | exact sub_of hk (by decide)
    | intro _
    | with_reducible apply bumpDict_kept
    | with_reducible apply post_kept
    | with_reducible apply raiseFault_kept
    | with_reducible apply kept_foldl
    | split

theorem failPort_kept {ks : List Part} {r : State} (p : Nat) {s : State} (h : Kept ks r s) (hk : [.regs, .dict, .sat, .clients, .fabric, .host, .logs] ⊆ ks := by first | assumption | exact sub_of (by assumption) (by decide)) : Kept ks r (failPort p s) := by
  unfold failPort
  try dsimp only
  repeat' first
    | with_reducible assumption
    | exact sub_of hk (by decide)
    | with_reducible apply setPortState_kept
    | with_reducible apply setPort_kept
    | with_reducible apply faultAll_kept
    | with_reducible apply post_kept
    | with_reducible apply kept_ite

theorem enterRecovery_kept {ks : List Part} {r : State} (p : Nat) {s : State} (h : Kept ks r s) (hk : [.regs, .dict, .sat, .clients, .fabric, .host, .logs] ⊆ ks := by first | assumption | exact sub_of (by assumption) (by decide)) : Kept ks r (enterRecovery p s) := by
  unfold enterRecovery
  try dsimp only
  repeat' first
    | with_reducible assumption
    | exact sub_of hk (by decide)
    | with_reducible apply setBit_kept
    | with_reducible apply setPortState_kept
    | with_reducible apply setPort_kept
    | with_reducible apply bumpDict_kept
    | with_reducible apply bump_kept
    | with_reducible apply failPort_kept
    | with_reducible apply kept_ite

theorem execPortRecovery_kept {ks : List Part} {r out : State} (p : PortId) (e : RecoveryEv) {s : State} (h : Kept ks r s) (he : execPortRecovery p e s = .next out) (hk : [.regs, .dict, .sat, .clients, .fabric, .host, .logs] ⊆ ks := by first | assumption | exact sub_of (by assumption) (by decide)) : Kept ks r out := by
  unfold execPortRecovery at he
  refine kept_next he ?_
  clear he
  try dsimp only
  repeat' first
    | with_reducible assumption
    | exact sub_of hk (by decide)
    | with_reducible apply enterRecovery_kept
    | with_reducible apply setPortState_kept
    | with_reducible apply setPort_kept
    | with_reducible apply failPort_kept
    | with_reducible apply kept_ite
    | split

theorem landPiece_kept {ks : List Part} {r : State} (p : Nat) (smod : Nat) (name : Nat) (off : Nat) (bs : List Byte) {s : State} (h : Kept ks r s) (hk : [.mem, .regs, .dict, .sat, .cat, .banks, .clients, .fabric, .host, .logs, .wear, .ledger, .served, .free] ⊆ ks := by first | assumption | exact sub_of (by assumption) (by decide)) : Kept ks r (landPiece p smod name off bs s) := by
  unfold landPiece
  try dsimp only
  repeat' first
    | with_reducible assumption
    | exact sub_of hk (by decide)
    | with_reducible apply fresh_kept
    | with_reducible apply remoteWrite_kept
    | with_reducible apply openMsg_kept
    | with_reducible apply sendCtl_kept
    | with_reducible apply kept_ite

theorem landData_kept {ks : List Part} {r : State} (p : Nat) (h0 : List Byte) (pos : Nat) (bs : List Byte) {s : State} (h : Kept ks r s) (hk : [.mem, .regs, .dict, .sat, .cat, .banks, .clients, .fabric, .host, .logs, .wear, .ledger, .served, .free] ⊆ ks := by first | assumption | exact sub_of (by assumption) (by decide)) : Kept ks r (landData p h0 pos bs s) := by
  unfold landData
  try dsimp only
  repeat' first
    | with_reducible assumption
    | intro _
    | with_reducible apply landPiece_kept
    | with_reducible apply kept_ite
    | with_reducible apply kept_foldl

theorem landFlit_kept {ks : List Part} {r : State} (p : Nat) (f : Flit) {s : State} (h : Kept ks r s) (hk : [.mem, .regs, .dict, .sat, .cat, .banks, .clients, .fabric, .host, .logs, .wear, .ledger, .served, .free] ⊆ ks := by first | assumption | exact sub_of (by assumption) (by decide)) : Kept ks r (landFlit p f s) := by
  unfold landFlit
  try dsimp only
  repeat' first
    | with_reducible assumption
    | exact sub_of hk (by decide)
    | with_reducible apply bumpLedger_kept
    | with_reducible apply landData_kept
    | with_reducible apply kept_ite
    | split
    | with_reducible refine kept_mk ?_ (by constructor <;> intro hp <;> first | exact absurd (sub_mem hk (by decide)) hp | rfl) (by rfl) (by rfl)

theorem forwardFlit_kept {ks : List Part} {r : State} (out : Nat) (flits : Nat) (f : Flit) {s : State} (h : Kept ks r s) (hk : [.clients, .fabric] ⊆ ks := by first | assumption | exact sub_of (by assumption) (by decide)) : Kept ks r (forwardFlit out flits f s) := by
  unfold forwardFlit
  try dsimp only
  repeat' first
    | with_reducible assumption
    | exact sub_of hk (by decide)
    | with_reducible apply setPort_kept
    | with_reducible apply slotDone_kept
    | with_reducible apply kept_ite
    | with_reducible refine kept_mk ?_ (by constructor <;> intro hp <;> first | exact absurd (sub_mem hk (by decide)) hp | rfl) (by rfl) (by rfl)

theorem takeTimed_kept {ks : List Part} {r : State} (p : Nat) (f : Flit) {s : State} (h : Kept ks r s) (hk : [.mem, .regs, .dict, .sat, .cat, .banks, .clients, .fabric, .host, .logs, .wear, .ledger, .served, .free] ⊆ ks := by first | assumption | exact sub_of (by assumption) (by decide)) : Kept ks r (takeTimed p f s) := by
  unfold takeTimed
  try dsimp only
  repeat' first
    | with_reducible assumption
    | exact sub_of hk (by decide)
    | with_reducible apply landFlit_kept
    | with_reducible apply forwardFlit_kept
    | with_reducible apply kept_ite

theorem returnCredit_kept {ks : List Part} {r : State} (b : Option (Nat × Nat)) {s : State} (h : Kept ks r s) (hk : [.fabric, .free] ⊆ ks := by first | assumption | exact sub_of (by assumption) (by decide)) : Kept ks r (returnCredit b s) := by
  unfold returnCredit
  try dsimp only
  repeat' first
    | with_reducible assumption
    | exact sub_of hk (by decide)
    | with_reducible apply openMsg_kept
    | with_reducible apply sendCtl_kept
    | split

theorem landPacket_kept {ks : List Part} {r : State} (k : Packet) {s : State} (h : Kept ks r s) (hk : [.mem, .regs, .dict, .sat, .cat, .banks, .clients, .fabric, .host, .logs, .wear, .ledger, .served, .free] ⊆ ks := by first | assumption | exact sub_of (by assumption) (by decide)) : Kept ks r (landPacket k s) := by
  unfold landPacket
  try dsimp only
  repeat' first
    | with_reducible assumption
    | exact sub_of hk (by decide)
    | with_reducible apply landData_kept
    | with_reducible apply returnCredit_kept
    | with_reducible apply kept_ite

theorem takePacket_kept {ks : List Part} {r : State} (p : Nat) (f : Flit) {s : State} (h : Kept ks r s) (hk : [.mem, .regs, .dict, .sat, .cat, .banks, .clients, .fabric, .host, .logs, .wear, .ledger, .served, .free] ⊆ ks := by first | assumption | exact sub_of (by assumption) (by decide)) : Kept ks r (takePacket p f s) := by
  unfold takePacket
  try dsimp only
  repeat' first
    | with_reducible assumption
    | exact sub_of hk (by decide)
    | with_reducible apply setPort_kept
    | with_reducible apply landPacket_kept
    | with_reducible apply addPacket_kept
    | with_reducible apply kept_ite

theorem takeMsg_kept {ks : List Part} {r : State} (p : PortId) (m : Word × Word) {s : State} (h : Kept ks r s) (hk : [.dict, .sat, .clients, .fabric, .host, .logs, .ledger, .free] ⊆ ks := by first | assumption | exact sub_of (by assumption) (by decide)) : Kept ks r (takeMsg p m s) := by
  unfold takeMsg
  try dsimp only
  repeat' first
    | with_reducible assumption
    | exact sub_of hk (by decide)
    | with_reducible apply applyStretch_kept
    | with_reducible apply fresh_kept
    | with_reducible apply post_kept
    | with_reducible refine execAbortMessage_kept _ _ _ ?_ (by assumption)
    | with_reducible apply kept_ite
    | split

theorem takeFlit_kept {ks : List Part} {r : State} (p : PortId) (f : Flit) {s : State} (h : Kept ks r s) (hk : [.mem, .regs, .dict, .sat, .cat, .banks, .clients, .fabric, .host, .logs, .wear, .ledger, .served, .free] ⊆ ks := by first | assumption | exact sub_of (by assumption) (by decide)) : Kept ks r (takeFlit p f s) := by
  unfold takeFlit
  try dsimp only
  repeat' first
    | with_reducible assumption
    | exact sub_of hk (by decide)
    | intro _
    | with_reducible apply takeTimed_kept
    | with_reducible apply takePacket_kept
    | with_reducible apply takeMsg_kept
    | with_reducible apply kept_ite
    | with_reducible apply kept_foldl

theorem drainHeld_kept {ks : List Part} {r : State} (p : PortId) (n : Nat) {s : State} (h : Kept ks r s) (hk : [.mem, .regs, .dict, .sat, .cat, .banks, .clients, .fabric, .host, .logs, .wear, .ledger, .served, .free] ⊆ ks := by first | assumption | exact sub_of (by assumption) (by decide)) : Kept ks r (drainHeld p n s) := by
  induction n generalizing s with
  | zero => exact h
  | succ n ih =>
    unfold drainHeld
    dsimp only
    split
    · exact h
    · exact ih (takeFlit_kept _ _ (setPort_kept _ _ h))

theorem takeAck_kept {ks : List Part} {r : State} (p : Nat) (bs : List Byte) {s : State} (h : Kept ks r s) (hk : [.plates, .clients, .fabric] ⊆ ks := by first | assumption | exact sub_of (by assumption) (by decide)) : Kept ks r (takeAck p bs s) := by
  unfold takeAck
  try dsimp only
  repeat' first
    | with_reducible assumption
    | exact sub_of hk (by decide)
    | with_reducible apply settleSends_kept
    | with_reducible apply setPort_kept

theorem execFlitReceive_kept {ks : List Part} {r out : State} (p : PortId) (f : FlitIn) {s : State} (h : Kept ks r s) (he : execFlitReceive p f s = .next out) (hk : [.mem, .regs, .dict, .sat, .cat, .banks, .plates, .clients, .fabric, .host, .logs, .wear, .ledger, .served, .free] ⊆ ks := by first | assumption | exact sub_of (by assumption) (by decide)) : Kept ks r out := by
  unfold execFlitReceive at he
  refine kept_next he ?_
  clear he
  try dsimp only
  repeat' first
    | with_reducible assumption
    | exact sub_of hk (by decide)
    | with_reducible apply enterRecovery_kept
    | with_reducible apply setPort_kept
    | with_reducible apply takeAck_kept
    | with_reducible apply takeFlit_kept
    | with_reducible apply drainHeld_kept
    | with_reducible apply pumpSends_kept
    | with_reducible apply kept_ite

theorem execBestEffortPacket_kept {ks : List Part} {r out : State} (p : PortId) (k : Nat) {s : State} (h : Kept ks r s) (he : execBestEffortPacket p k s = .next out) (hk : [.mem, .regs, .dict, .sat, .cat, .banks, .clients, .fabric, .host, .logs, .wear, .ledger, .served, .free] ⊆ ks := by first | assumption | exact sub_of (by assumption) (by decide)) : Kept ks r out := by
  unfold execBestEffortPacket at he
  refine kept_next he ?_
  clear he
  try dsimp only
  repeat' first
    | with_reducible assumption
    | exact sub_of hk (by decide)
    | with_reducible apply landPacket_kept
    | with_reducible apply returnCredit_kept
    | with_reducible apply setPort_kept
    | with_reducible apply kept_ite
    | split
    | with_reducible refine kept_mk ?_ (by constructor <;> intro hp <;> first | exact absurd (sub_mem hk (by decide)) hp | rfl) (by rfl) (by rfl)

theorem execCredit_kept {ks : List Part} {r out : State} (p : PortId) (w0 : Word) (w1 : Word) {s : State} (h : Kept ks r s) (he : execCredit p w0 w1 s = .next out) (hk : [.fabric] ⊆ ks := by first | assumption | exact sub_of (by assumption) (by decide)) : Kept ks r out := by
  unfold execCredit at he
  refine kept_next he ?_
  clear he
  try dsimp only
  repeat' first
    | with_reducible assumption
    | with_reducible apply setPort_kept

theorem swapLane_kept {ks : List Part} {r : State} (p : Nat) (lane : Nat) {s : State} (h : Kept ks r s) (hk : [.regs, .dict, .sat, .fabric, .host, .logs, .wearS, .free] ⊆ ks := by first | assumption | exact sub_of (by assumption) (by decide)) : Kept ks r (swapLane p lane s) := by
  unfold swapLane
  try dsimp only
  repeat' first
    | with_reducible assumption
    | exact sub_of hk (by decide)
    | with_reducible apply setReg_kept
    | with_reducible apply doneSwap_kept
    | with_reducible apply bumpDict_kept
    | with_reducible apply setPort_kept

theorem dueSwap_kept {ks : List Part} {r : State} (p : Nat) {s : State} (h : Kept ks r s) (hk : [.regs, .dict, .sat, .fabric, .host, .logs, .wearS, .free] ⊆ ks := by first | assumption | exact sub_of (by assumption) (by decide)) : Kept ks r (dueSwap p s) := by
  unfold dueSwap
  try dsimp only
  repeat' first
    | with_reducible assumption
    | with_reducible apply swapLane_kept
    | with_reducible apply kept_ite
    | split

theorem askLane_kept {ks : List Part} {r : State} (p : PortId) (lane : Nat) {s : State} (h : Kept ks r s) (hk : [.regs, .dict, .sat, .fabric, .host, .logs, .wearS, .free] ⊆ ks := by first | assumption | exact sub_of (by assumption) (by decide)) : Kept ks r (askLane p lane s) := by
  unfold askLane
  try dsimp only
  repeat' first
    | with_reducible assumption
    | exact sub_of hk (by decide)
    | with_reducible apply dueSwap_kept
    | with_reducible apply setBit_kept
    | with_reducible apply setPort_kept
    | with_reducible apply kept_ite

theorem execLaneSwap_kept {ks : List Part} {r out : State} (p : PortId) (lane : Nat) {s : State} (h : Kept ks r s) (he : execLaneSwap p lane s = .next out) (hk : [.regs, .dict, .sat, .fabric, .host, .logs, .wearS, .free] ⊆ ks := by first | assumption | exact sub_of (by assumption) (by decide)) : Kept ks r out := by
  unfold execLaneSwap at he
  refine kept_next he ?_
  clear he
  try dsimp only
  repeat' first
    | with_reducible assumption
    | with_reducible apply askLane_kept

theorem setTime_kept {ks : List Part} {r : State} (f : TimeSt → TimeSt) {s : State} (h : Kept ks r s) (hk : [.fabric] ⊆ ks := by first | assumption | exact sub_of (by assumption) (by decide)) : Kept ks r (setTime f s) := by
  unfold setTime
  try dsimp only
  repeat' first
    | with_reducible assumption
    | with_reducible refine kept_mk ?_ (by constructor <;> intro hp <;> first | exact absurd (sub_mem hk (by decide)) hp | rfl) (by rfl) (by rfl)

theorem setTickState_kept {ks : List Part} {r : State} (n : Nat) {s : State} (h : Kept ks r s) (hk : [.dict] ⊆ ks := by first | assumption | exact sub_of (by assumption) (by decide)) : Kept ks r (setTickState n s) := by
  unfold setTickState
  try dsimp only
  repeat' first
    | with_reducible assumption
    | with_reducible apply setDict_kept

theorem joinTree_kept {ks : List Part} {r : State} {s : State} (h : Kept ks r s) (hk : [.dict, .fabric] ⊆ ks := by first | assumption | exact sub_of (by assumption) (by decide)) : Kept ks r (joinTree s) := by
  unfold joinTree
  try dsimp only
  repeat' first
    | with_reducible assumption
    | exact sub_of hk (by decide)
    | with_reducible apply setDict_kept
    | with_reducible apply setTime_kept
    | with_reducible apply setTickState_kept
    | with_reducible apply kept_ite
    | split

theorem execParentReselect_kept {ks : List Part} {r out : State} {s : State} (h : Kept ks r s) (he : execParentReselect s = .next out) (hk : [.dict, .fabric] ⊆ ks := by first | assumption | exact sub_of (by assumption) (by decide)) : Kept ks r out := by
  unfold execParentReselect at he
  refine kept_next he ?_
  clear he
  try dsimp only
  repeat' first
    | with_reducible assumption
    | with_reducible apply joinTree_kept
    | with_reducible apply kept_ite
    | split

theorem execTimeRequest_kept {ks : List Part} {r out : State} {s : State} (h : Kept ks r s) (he : execTimeRequest s = .next out) (hk : [.fabric, .free] ⊆ ks := by first | assumption | exact sub_of (by assumption) (by decide)) : Kept ks r out := by
  unfold execTimeRequest at he
  refine kept_next he ?_
  clear he
  try dsimp only
  repeat' first
    | with_reducible assumption
    | exact sub_of hk (by decide)
    | with_reducible apply openMsg_kept
    | with_reducible apply sendCtl_kept
    | split

theorem execTimeRequestArrival_kept {ks : List Part} {r out : State} (p : PortId) (t1 : Int) {s : State} (h : Kept ks r s) (he : execTimeRequestArrival p t1 s = .next out) (hk : [.fabric, .free] ⊆ ks := by first | assumption | exact sub_of (by assumption) (by decide)) : Kept ks r out := by
  unfold execTimeRequestArrival at he
  refine kept_next he ?_
  clear he
  try dsimp only
  repeat' first
    | with_reducible assumption
    | exact sub_of hk (by decide)
    | with_reducible apply sendCtl_kept
    | with_reducible apply setTime_kept
    | with_reducible refine kept_mk_free ?_ (by constructor <;> intro hp <;> first | exact absurd (sub_mem hk (by decide)) hp | rfl) (by omega) (by rfl) (by rfl)

theorem lockState_kept {ks : List Part} {r : State} (ps : Int) {s : State} (h : Kept ks r s) (hk : [.dict, .sat, .clients, .fabric, .host, .logs] ⊆ ks := by first | assumption | exact sub_of (by assumption) (by decide)) : Kept ks r (lockState ps s) := by
  unfold lockState
  try dsimp only
  repeat' first
    | with_reducible assumption
    | exact sub_of hk (by decide)
    | with_reducible apply setTime_kept
    | with_reducible apply post_kept
    | with_reducible apply faultAll_kept
    | with_reducible apply setTickState_kept
    | with_reducible apply kept_ite

theorem execTimeResponse_kept {ks : List Part} {r out : State} (t1 : Int) (t2 : Int) (t3 : Int) (t4 : Int) {s : State} (h : Kept ks r s) (he : execTimeResponse t1 t2 t3 t4 s = .next out) (hk : [.dict, .sat, .clients, .fabric, .host, .logs, .tick] ⊆ ks := by first | assumption | exact sub_of (by assumption) (by decide)) : Kept ks r out := by
  unfold execTimeResponse at he
  refine kept_next he ?_
  clear he
  try dsimp only
  repeat' first
    | with_reducible assumption
    | exact sub_of hk (by decide)
    | with_reducible apply setDict_kept
    | with_reducible apply lockState_kept
    | with_reducible apply setTime_kept
    | with_reducible apply kept_ite
    | with_reducible refine kept_mk ?_ (by constructor <;> intro hp <;> first | exact absurd (sub_mem hk (by decide)) hp | rfl) (by rfl) (by rfl)

theorem execTickInEdge_kept {ks : List Part} {r out : State} {s : State} (h : Kept ks r s) (he : execTickInEdge s = .next out) (hk : [.fabric] ⊆ ks := by first | assumption | exact sub_of (by assumption) (by decide)) : Kept ks r out := by
  unfold execTickInEdge at he
  refine kept_next he ?_
  clear he
  try dsimp only
  repeat' first
    | with_reducible assumption
    | with_reducible apply setTime_kept
    | with_reducible apply kept_ite

theorem execPpsInEdge_kept {ks : List Part} {r out : State} {s : State} (h : Kept ks r s) (he : execPpsInEdge s = .next out) (hk : [.tick] ⊆ ks := by first | assumption | exact sub_of (by assumption) (by decide)) : Kept ks r out := by
  unfold execPpsInEdge at he
  refine kept_next he ?_
  clear he
  try dsimp only
  repeat' first
    | with_reducible assumption
    | with_reducible apply kept_ite
    | with_reducible refine kept_mk ?_ (by constructor <;> intro hp <;> first | exact absurd (sub_mem hk (by decide)) hp | rfl) (by rfl) (by rfl)

theorem execReferenceLost_kept {ks : List Part} {r out : State} (pps : Bool) {s : State} (h : Kept ks r s) (he : execReferenceLost pps s = .next out) (hk : [.dict, .fabric, .host, .logs] ⊆ ks := by first | assumption | exact sub_of (by assumption) (by decide)) : Kept ks r out := by
  unfold execReferenceLost at he
  refine kept_next he ?_
  clear he
  try dsimp only
  repeat' first
    | with_reducible assumption
    | exact sub_of hk (by decide)
    | with_reducible apply setTime_kept
    | with_reducible apply post_kept
    | with_reducible apply setTickState_kept
    | with_reducible apply kept_ite

theorem execReferenceRegained_kept {ks : List Part} {r out : State} (pps : Bool) {s : State} (h : Kept ks r s) (he : execReferenceRegained pps s = .next out) (hk : [.dict, .fabric] ⊆ ks := by first | assumption | exact sub_of (by assumption) (by decide)) : Kept ks r out := by
  unfold execReferenceRegained at he
  refine kept_next he ?_
  clear he
  try dsimp only
  repeat' first
    | with_reducible assumption
    | exact sub_of hk (by decide)
    | with_reducible apply setTime_kept
    | with_reducible apply setTickState_kept
    | with_reducible apply kept_ite

end Sys2Proof.Machine
end

