-- ==== Sys2Proof/Laws/KeptHostOps.lean ====
section
/-! SUPPORT. What the operations of Machine/HostOps.lean keep (Laws/Kept.lean). -/

set_option Elab.async false

namespace Sys2Proof.Machine

theorem hostWrite_kept {ks : List Part} {r : State} (a : Nat) (bs : List Byte) {s : State} (h : Kept ks r s) (hk : [.host] ⊆ ks := by first | assumption | exact sub_of (by assumption) (by decide)) : Kept ks r (hostWrite a bs s) := by
  unfold hostWrite
  try dsimp only
  repeat' first
    | with_reducible assumption
    | with_reducible refine kept_mk ?_ (by constructor <;> intro hp <;> first | exact absurd (sub_mem hk (by decide)) hp | rfl) (by rfl) (by rfl)

theorem stopQueue_kept {ks : List Part} {r : State} (k : Nat) (ctrl : Nat) (code : Nat) {s : State} (h : Kept ks r s) (hk : [.regs, .host] ⊆ ks := by first | assumption | exact sub_of (by assumption) (by decide)) : Kept ks r (stopQueue k ctrl code s) := by
  unfold stopQueue
  try dsimp only
  repeat' first
    | with_reducible assumption
    | exact sub_of hk (by decide)
    | with_reducible apply setReg_kept
    | with_reducible refine kept_mk ?_ (by constructor <;> intro hp <;> first | exact absurd (sub_mem hk (by decide)) hp | rfl) (by rfl) (by rfl)

theorem hostDone_kept {ks : List Part} {r : State} (q : Nat) (id : Nat) (notify : Bool) (status : Nat) (reason : Nat) {s : State} (h : Kept ks r s) (hk : [.host, .logs] ⊆ ks := by first | assumption | exact sub_of (by assumption) (by decide)) : Kept ks r (hostDone q id notify status reason s) := by
  unfold hostDone
  try dsimp only
  repeat' first
    | with_reducible assumption
    | with_reducible apply postEvent_kept
    | with_reducible apply kept_ite

theorem cmdDone_kept {ks : List Part} {r : State} (c : HostCmd) (status : Nat) (reason : Nat) {s : State} (h : Kept ks r s) (hk : [.host, .logs] ⊆ ks := by first | assumption | exact sub_of (by assumption) (by decide)) : Kept ks r (cmdDone c status reason s) := by
  unfold cmdDone
  try dsimp only
  repeat' first
    | with_reducible assumption
    | with_reducible apply hostDone_kept

theorem dropHost_kept {ks : List Part} {r : State} (c : HostCmd) {s : State} (h : Kept ks r s) (hk : [.host] ⊆ ks := by first | assumption | exact sub_of (by assumption) (by decide)) : Kept ks r (dropHost c s) := by
  unfold dropHost
  try dsimp only
  repeat' first
    | with_reducible assumption
    | with_reducible refine kept_mk ?_ (by constructor <;> intro hp <;> first | exact absurd (sub_mem hk (by decide)) hp | rfl) (by rfl) (by rfl)

theorem withHost_kept {ks : List Part} {r : State} (hop : Nat) (q : Nat) {s : State} {k : HostCmd → State → State} (h : Kept ks r s) (hfk : ∀ x0 s, Kept ks r s → Kept ks r (k x0 s)) (hk : [.host, .logs] ⊆ ks := by first | assumption | exact sub_of (by assumption) (by decide)) : Kept ks r (withHost hop q s k) := by
  unfold withHost
  try dsimp only
  repeat' first
    | with_reducible assumption
    | exact sub_of hk (by decide)
    | with_reducible apply dropHost_kept
    | with_reducible apply cmdDone_kept
    | with_reducible apply hfk
    | with_reducible apply kept_ite
    | split

theorem setClientState_kept {ks : List Part} {r : State} (c : Nat) (n : Nat) {s : State} (h : Kept ks r s) (hk : [.clients] ⊆ ks := by first | assumption | exact sub_of (by assumption) (by decide)) : Kept ks r (setClientState c n s) := by
  unfold setClientState
  try dsimp only
  repeat' first
    | with_reducible assumption
    | with_reducible apply setClient_kept

theorem endRun_kept {ks : List Part} {r : State} (c : Nat) (status : Nat) {s : State} (h : Kept ks r s) (hk : [.cat, .clients, .host, .logs] ⊆ ks := by first | assumption | exact sub_of (by assumption) (by decide)) : Kept ks r (endRun c status s) := by
  unfold endRun
  try dsimp only
  repeat' first
    | with_reducible assumption
    | exact sub_of hk (by decide)
    | with_reducible apply setClient_kept
    | with_reducible apply keepCommits_kept
    | with_reducible apply setClientState_kept
    | with_reducible apply hostDone_kept
    | with_reducible apply kept_ite
    | split

end Sys2Proof.Machine
end

