-- ==== Sys2Proof/Laws/KeptClientOps.lean ====
section
/-! SUPPORT. What the operations of Machine/ClientOps.lean keep (Laws/Kept.lean). -/

set_option Elab.async false

namespace Sys2Proof.Machine

theorem freshDie_kept {ks : List Part} {r : State} (d : Nat) {s : State} (h : Kept ks r s) (hk : [.regs, .cat, .plates, .tiles, .units] ⊆ ks := by first | assumption | exact sub_of (by assumption) (by decide)) : Kept ks r (freshDie d s) := by
  unfold freshDie
  try dsimp only
  repeat' first
    | with_reducible assumption
    | exact sub_of hk (by decide)
    | intro _
    | with_reducible apply setReg_kept
    | with_reducible apply kept_foldl
    | with_reducible refine kept_mk ?_ (by constructor <;> intro hp <;> first | exact absurd (sub_mem hk (by decide)) hp | rfl) (by rfl) (by rfl)

theorem freshStats_kept {ks : List Part} {r : State} (x : Client) {s : State} (h : Kept ks r s) (hk : [.regs, .sat] ⊆ ks := by first | assumption | exact sub_of (by assumption) (by decide)) : Kept ks r (freshStats x s) := by
  unfold freshStats
  try dsimp only
  repeat' first
    | with_reducible assumption
    | exact sub_of hk (by decide)
    | intro _
    | with_reducible apply setReg_kept
    | with_reducible apply kept_foldl
    | with_reducible refine kept_mk ?_ (by constructor <;> intro hp <;> first | exact absurd (sub_mem hk (by decide)) hp | rfl) (by rfl) (by rfl)

theorem freshTotals_kept {ks : List Part} {r : State} (c : Nat) {s : State} (h : Kept ks r s) (hk : [.dict, .sat, .ledger] ⊆ ks := by first | assumption | exact sub_of (by assumption) (by decide)) : Kept ks r (freshTotals c s) := by
  unfold freshTotals
  try dsimp only
  repeat' first
    | with_reducible assumption
    | exact sub_of hk (by decide)
    | with_reducible apply setDict_kept
    | with_reducible refine kept_mk ?_ (by constructor <;> intro hp <;> first | exact absurd (sub_mem hk (by decide)) hp | rfl) (by rfl) (by rfl)

theorem admitClient_kept {ks : List Part} {r : State} (c : Nat) (x : Client) {s : State} (h : Kept ks r s) (hk : [.regs, .dict, .sat, .cat, .plates, .tiles, .units, .clients, .ledger] ⊆ ks := by first | assumption | exact sub_of (by assumption) (by decide)) : Kept ks r (admitClient c x s) := by
  unfold admitClient
  try dsimp only
  repeat' first
    | with_reducible assumption
    | exact sub_of hk (by decide)
    | intro _
    | with_reducible apply freshStats_kept
    | with_reducible apply freshTotals_kept
    | with_reducible apply setClient_kept
    | with_reducible apply freshDie_kept
    | with_reducible apply kept_ite
    | with_reducible apply kept_foldl

theorem admitCmd_kept {ks : List Part} {r : State} (h0 : HostCmd) {s : State} (h : Kept ks r s) (hk : [.regs, .dict, .sat, .cat, .plates, .tiles, .units, .clients, .host, .logs, .ledger] ⊆ ks := by first | assumption | exact sub_of (by assumption) (by decide)) : Kept ks r (admitCmd h0 s) := by
  unfold admitCmd
  try dsimp only
  repeat' first
    | with_reducible assumption
    | exact sub_of hk (by decide)
    | with_reducible apply cmdDone_kept
    | with_reducible apply admitClient_kept
    | with_reducible apply kept_ite

theorem execAdmit_kept {ks : List Part} {r out : State} (q : Nat) {s : State} (h : Kept ks r s) (he : execAdmit q s = .next out) (hk : [.regs, .dict, .sat, .cat, .plates, .tiles, .units, .clients, .host, .logs, .ledger] ⊆ ks := by first | assumption | exact sub_of (by assumption) (by decide)) : Kept ks r out := by
  unfold execAdmit at he
  refine kept_next he ?_
  clear he
  try dsimp only
  repeat' first
    | with_reducible assumption
    | exact sub_of hk (by decide)
    | intro _
    | with_reducible apply withHost_kept
    | with_reducible apply admitCmd_kept

theorem abortStep_kept {ks : List Part} {r : State} (c : Nat) {s : State} (h : Kept ks r s) (hk : [.dict, .sat, .cat, .plates, .tiles, .units, .clients, .fabric, .host, .logs, .free] ⊆ ks := by first | assumption | exact sub_of (by assumption) (by decide)) : Kept ks r (abortStep c s) := by
  unfold abortStep
  try dsimp only
  repeat' first
    | with_reducible assumption
    | exact sub_of hk (by decide)
    | with_reducible apply fresh_kept
    | with_reducible apply updStep_kept
    | with_reducible apply floodAbort_kept
    | with_reducible apply post_kept
    | with_reducible apply bumpDict_kept
    | with_reducible apply stopStep_kept
    | with_reducible apply kept_ite
    | split

theorem endCommands_kept {ks : List Part} {r : State} (c : Nat) (status : Nat) {s : State} (h : Kept ks r s) (hk : [.host, .logs] ⊆ ks := by first | assumption | exact sub_of (by assumption) (by decide)) : Kept ks r (endCommands c status s) := by
  unfold endCommands
  try dsimp only
  repeat' first
    | with_reducible assumption
    | intro _
    | with_reducible apply hostDone_kept
    | with_reducible apply cmdDone_kept
    | with_reducible apply kept_foldl
    | split
    | with_reducible refine kept_mk ?_ (by constructor <;> intro hp <;> first | exact absurd (sub_mem hk (by decide)) hp | rfl) (by rfl) (by rfl)

theorem zeroLines_kept {ks : List Part} {r : State} (c : Nat) {s : State} (h : Kept ks r s) (hk : [.mem] ⊆ ks := by first | assumption | exact sub_of (by assumption) (by decide)) : Kept ks r (zeroLines c s) :=
  kept_mk_mem h (by constructor <;> intro hp <;> first | exact absurd (sub_mem hk (by decide)) hp | rfl) (fun hm => Memory.wf_mk (mwf_mdrop _ (Memory.cells_wf hm)) (mwf_mdrop _ (Memory.synd_wf hm)) (mwf_filter _ (Memory.owner_wf hm))) rfl rfl

theorem undefEntries_kept {ks : List Part} {r : State} (c : Nat) {s : State} (h : Kept ks r s) (hk : [.mem, .cat, .plates] ⊆ ks := by first | assumption | exact sub_of (by assumption) (by decide)) : Kept ks r (undefEntries c s) := by
  unfold undefEntries
  try dsimp only
  repeat' first
    | with_reducible assumption
    | intro _
    | with_reducible apply applyEntry_kept
    | with_reducible apply kept_foldl

theorem bumpEpochs_kept {ks : List Part} {r : State} (ids : List Nat) {s : State} (h : Kept ks r s) (hk : [.cat] ⊆ ks := by first | assumption | exact sub_of (by assumption) (by decide)) : Kept ks r (bumpEpochs ids s) := by
  unfold bumpEpochs
  try dsimp only
  repeat' first
    | with_reducible assumption
    | with_reducible refine kept_mk ?_ (by constructor <;> intro hp <;> first | exact absurd (sub_mem hk (by decide)) hp | rfl) (by rfl) (by rfl)

theorem evictClient_kept {ks : List Part} {r : State} (c : Nat) (say : Bool) {s : State} (h : Kept ks r s) (hk : [.mem, .regs, .dict, .sat, .cat, .plates, .tiles, .units, .clients, .fabric, .rot, .host, .logs, .free] ⊆ ks := by first | assumption | exact sub_of (by assumption) (by decide)) : Kept ks r (evictClient c say s) := by
  unfold evictClient
  try dsimp only
  repeat' first
    | with_reducible assumption
    | exact sub_of hk (by decide)
    | intro _
    | with_reducible apply abortStep_kept
    | with_reducible apply endCommands_kept
    | with_reducible apply freeCtxs_kept
    | with_reducible apply undefEntries_kept
    | with_reducible apply discardStaged_kept
    | with_reducible apply zeroLines_kept
    | with_reducible apply bumpEpochs_kept
    | with_reducible apply freshDie_kept
    | with_reducible apply kept_ite
    | with_reducible apply kept_foldl
    | split
    | with_reducible refine kept_mk ?_ (by constructor <;> intro hp <;> first | exact absurd (sub_mem hk (by decide)) hp | rfl) (by rfl) (by rfl)

theorem evictCmd_kept {ks : List Part} {r : State} (h0 : HostCmd) {s : State} (h : Kept ks r s) (hk : [.mem, .regs, .dict, .sat, .cat, .plates, .tiles, .units, .clients, .fabric, .rot, .host, .logs, .free] ⊆ ks := by first | assumption | exact sub_of (by assumption) (by decide)) : Kept ks r (evictCmd h0 s) := by
  unfold evictCmd
  try dsimp only
  repeat' first
    | with_reducible assumption
    | exact sub_of hk (by decide)
    | with_reducible apply cmdDone_kept
    | with_reducible apply evictClient_kept
    | with_reducible apply kept_ite

theorem execEvict_kept {ks : List Part} {r out : State} (q : Nat) {s : State} (h : Kept ks r s) (he : execEvict q s = .next out) (hk : [.mem, .regs, .dict, .sat, .cat, .plates, .tiles, .units, .clients, .fabric, .rot, .host, .logs, .free] ⊆ ks := by first | assumption | exact sub_of (by assumption) (by decide)) : Kept ks r out := by
  unfold execEvict at he
  refine kept_next he ?_
  clear he
  try dsimp only
  repeat' first
    | with_reducible assumption
    | exact sub_of hk (by decide)
    | intro _
    | with_reducible apply withHost_kept
    | with_reducible apply evictCmd_kept

end Sys2Proof.Machine
end

