-- ==== Sys2Proof/Laws/KeptClock.lean ====
section
/-! SUPPORT. What the operations of Machine/Clock.lean keep (Laws/Kept.lean). -/

set_option Elab.async false

namespace Sys2Proof.Machine

theorem execTclkChange_kept {ks : List Part} {r out : State} {s : State} (h : Kept ks r s) (he : execTclkChange s = .next out) (hk : [.dict, .sat, .host, .logs] ⊆ ks := by first | assumption | exact sub_of (by assumption) (by decide)) : Kept ks r out := by
  unfold execTclkChange at he
  refine kept_next he ?_
  clear he
  try dsimp only
  repeat' first
    | with_reducible assumption
    | exact sub_of hk (by decide)
    | with_reducible apply bumpDict_kept
    | with_reducible apply setDict_kept
    | with_reducible apply kept_ite

theorem setSensors_kept {ks : List Part} {r : State} (m : Sensors) {s : State} (h : Kept ks r s) (hk : [.dict] ⊆ ks := by first | assumption | exact sub_of (by assumption) (by decide)) : Kept ks r (setSensors m s) := by
  unfold setSensors
  try dsimp only
  repeat' first
    | with_reducible assumption
    | intro _
    | with_reducible apply setDict_kept
    | with_reducible apply kept_foldl

theorem execThrottleEval_kept {ks : List Part} {r out : State} (m : Sensors) {s : State} (h : Kept ks r s) (he : execThrottleEval m s = .next out) (hk : [.dict, .sat, .host, .logs, .start] ⊆ ks := by first | assumption | exact sub_of (by assumption) (by decide)) : Kept ks r out := by
  unfold execThrottleEval at he
  refine kept_next he ?_
  clear he
  try dsimp only
  repeat' first
    | with_reducible assumption
    | exact sub_of hk (by decide)
    | with_reducible apply setSensors_kept
    | with_reducible apply bumpDict_kept
    | with_reducible apply setDict_kept
    | with_reducible apply post_kept
    | with_reducible apply kept_ite
    | with_reducible refine kept_mk ?_ (by constructor <;> intro hp <;> first | exact absurd (sub_mem hk (by decide)) hp | rfl) (by rfl) (by rfl)

theorem holdPlan_kept {ks : List Part} {r : State} (c : Nat) {s : State} (h : Kept ks r s) (hk : [.dict, .sat, .clients, .host, .logs] ⊆ ks := by first | assumption | exact sub_of (by assumption) (by decide)) : Kept ks r (holdPlan c s) := by
  unfold holdPlan
  try dsimp only
  repeat' first
    | with_reducible assumption
    | exact sub_of hk (by decide)
    | with_reducible apply updStep_kept
    | with_reducible apply updRun_kept
    | with_reducible apply setClient_kept
    | with_reducible apply bumpDict_kept
    | with_reducible apply kept_ite

theorem settleCommits_kept {ks : List Part} {r : State} (c : Nat) {s : State} (h : Kept ks r s) (hk : [.dict, .sat, .plates, .clients, .host, .logs] ⊆ ks := by first | assumption | exact sub_of (by assumption) (by decide)) : Kept ks r (settleCommits c s) := by
  unfold settleCommits
  try dsimp only
  repeat' first
    | with_reducible assumption
    | exact sub_of hk (by decide)
    | intro _
    | with_reducible apply updStep_kept
    | with_reducible apply bumpDict_kept
    | with_reducible apply setDict_kept
    | with_reducible apply complete_kept
    | with_reducible apply kept_ite
    | with_reducible apply kept_foldl
    | split

theorem newWindows_kept {ks : List Part} {r : State} (d : Nat) {s : State} (h : Kept ks r s) (hk : [.arbs] ⊆ ks := by first | assumption | exact sub_of (by assumption) (by decide)) : Kept ks r (newWindows d s) := by
  unfold newWindows
  try dsimp only
  repeat' first
    | with_reducible assumption
    | with_reducible refine kept_mk ?_ (by constructor <;> intro hp <;> first | exact absurd (sub_mem hk (by decide)) hp | rfl) (by rfl) (by rfl)

theorem moduleTick_kept {ks : List Part} {r : State} {s : State} (h : Kept ks r s) (hk : [.dict, .sat, .clients, .fabric, .host, .logs, .tick] ⊆ ks := by first | assumption | exact sub_of (by assumption) (by decide)) : Kept ks r (moduleTick s) := by
  unfold moduleTick
  try dsimp only
  repeat' first
    | with_reducible assumption
    | exact sub_of hk (by decide)
    | intro _
    | with_reducible apply holdPlan_kept
    | with_reducible apply setDict_kept
    | with_reducible apply setTime_kept
    | with_reducible apply kept_foldl
    | with_reducible refine kept_mk ?_ (by constructor <;> intro hp <;> first | exact absurd (sub_mem hk (by decide)) hp | rfl) (by rfl) (by rfl)

theorem execScheduleTick_kept {ks : List Part} {r out : State} (d : DieId) {s : State} (h : Kept ks r s) (he : execScheduleTick d s = .next out) (hk : [.mem, .regs, .dict, .sat, .cat, .plates, .clients, .fabric, .arbs, .host, .logs, .wearS, .tick, .free] ⊆ ks := by first | assumption | exact sub_of (by assumption) (by decide)) : Kept ks r out := by
  unfold execScheduleTick at he
  refine kept_next he ?_
  clear he
  try dsimp only
  repeat' first
    | with_reducible assumption
    | exact sub_of hk (by decide)
    | intro _
    | with_reducible apply newWindows_kept
    | with_reducible apply moduleTick_kept
    | with_reducible apply dueSwap_kept
    | with_reducible apply dueCommits_kept
    | with_reducible apply settleCommits_kept
    | with_reducible apply kept_ite
    | with_reducible apply kept_foldl

theorem startEngine_kept {ks : List Part} {r : State} {s : State} (e : Eng) (h : Kept ks r s) (hk : [.plates] ⊆ ks := by first | assumption | exact sub_of (by assumption) (by decide)) : Kept ks r (startEngine s e) := by
  unfold startEngine
  try dsimp only
  repeat' first
    | with_reducible assumption
    | with_reducible apply setEng_kept

theorem execStepStart_kept {ks : List Part} {r out : State} (c : ClientId) {s : State} (h : Kept ks r s) (he : execStepStart c s = .next out) (hk : [.mem, .regs, .dict, .sat, .banks, .plates, .clients, .host, .logs, .wear, .ledger, .served] ⊆ ks := by first | assumption | exact sub_of (by assumption) (by decide)) : Kept ks r out := by
  unfold execStepStart at he
  refine kept_next he ?_
  clear he
  try dsimp only
  repeat' first
    | with_reducible assumption
    | exact sub_of hk (by decide)
    | intro _
    | with_reducible apply setClient_kept
    | with_reducible apply presetTokens_kept
    | with_reducible apply startEngine_kept
    | with_reducible apply setReg_kept
    | with_reducible apply clearVotes_kept
    | with_reducible apply kept_ite
    | with_reducible apply kept_foldl
    | split

theorem setDataPos_kept {ks : List Part} {r : State} (c : Nat) (bs : List Byte) {s : State} (h : Kept ks r s) (hk : [.blobs] ⊆ ks := by first | assumption | exact sub_of (by assumption) (by decide)) : Kept ks r (setDataPos c bs s) := by
  unfold setDataPos
  try dsimp only
  repeat' first
    | with_reducible assumption
    | with_reducible refine kept_mk ?_ (by constructor <;> intro hp <;> first | exact absurd (sub_mem hk (by decide)) hp | rfl) (by rfl) (by rfl)

theorem setLedger_kept {ks : List Part} {r : State} (k : Nat) (v : Nat) {s : State} (h : Kept ks r s) (hk : [.ledger] ⊆ ks := by first | assumption | exact sub_of (by assumption) (by decide)) : Kept ks r (setLedger k v s) := by
  unfold setLedger
  try dsimp only
  repeat' first
    | with_reducible assumption
    | with_reducible refine kept_mk ?_ (by constructor <;> intro hp <;> first | exact absurd (sub_mem hk (by decide)) hp | rfl) (by rfl) (by rfl)

theorem recordSlow_kept {ks : List Part} {r : State} (c : Nat) (v : Nat) {s : State} (h : Kept ks r s) (hk : [.sat, .host, .logs, .ledger] ⊆ ks := by first | assumption | exact sub_of (by assumption) (by decide)) : Kept ks r (recordSlow c v s) := by
  unfold recordSlow
  try dsimp only
  repeat' first
    | with_reducible assumption
    | exact sub_of hk (by decide)
    | with_reducible apply setLedger_kept
    | with_reducible apply bumpLedger_kept

theorem recordScope_kept {ks : List Part} {r : State} (c : Nat) (idx : Nat) {s : State} (h : Kept ks r s) (hk : [.dict, .clients] ⊆ ks := by first | assumption | exact sub_of (by assumption) (by decide)) : Kept ks r (recordScope c idx s) := by
  unfold recordScope
  try dsimp only
  repeat' first
    | with_reducible assumption
    | exact sub_of hk (by decide)
    | with_reducible apply setScope_kept
    | with_reducible apply setDict_kept
    | with_reducible apply setClient_kept
    | with_reducible apply kept_ite

theorem endAborted_kept {ks : List Part} {r : State} (c : Nat) {s : State} (h : Kept ks r s) (hk : [.cat, .clients, .host, .logs] ⊆ ks := by first | assumption | exact sub_of (by assumption) (by decide)) : Kept ks r (endAborted c s) := by
  unfold endAborted
  try dsimp only
  repeat' first
    | with_reducible assumption
    | exact sub_of hk (by decide)
    | with_reducible apply endRun_kept
    | with_reducible apply setClient_kept

theorem endStep_kept {ks : List Part} {r : State} (c : Nat) (st : StepSt) (r0 : Run) {s : State} (h : Kept ks r s) (hk : [.dict, .blobs, .sat, .cat, .clients, .host, .logs, .ledger] ⊆ ks := by first | assumption | exact sub_of (by assumption) (by decide)) : Kept ks r (endStep c st r0 s) := by
  unfold endStep
  try dsimp only
  repeat' first
    | with_reducible assumption
    | exact sub_of hk (by decide)
    | with_reducible apply setDataPos_kept
    | with_reducible apply recordSlow_kept
    | with_reducible apply recordScope_kept
    | with_reducible apply post_kept
    | with_reducible apply setClient_kept
    | with_reducible apply endRun_kept
    | with_reducible apply kept_ite

theorem execStepComplete_kept {ks : List Part} {r out : State} (c : ClientId) {s : State} (h : Kept ks r s) (he : execStepComplete c s = .next out) (hk : [.dict, .blobs, .sat, .cat, .clients, .host, .logs, .ledger] ⊆ ks := by first | assumption | exact sub_of (by assumption) (by decide)) : Kept ks r out := by
  unfold execStepComplete at he
  refine kept_next he ?_
  clear he
  try dsimp only
  repeat' first
    | with_reducible assumption
    | exact sub_of hk (by decide)
    | with_reducible apply endAborted_kept
    | with_reducible apply endStep_kept
    | with_reducible apply kept_ite
    | split

theorem chargeEnergy_kept {ks : List Part} {r : State} (c : Nat) (n : Nat) {s : State} (h : Kept ks r s) (hk : [.sat, .host, .logs, .ledger] ⊆ ks := by first | assumption | exact sub_of (by assumption) (by decide)) : Kept ks r (chargeEnergy c n s) := by
  unfold chargeEnergy
  try dsimp only
  repeat' first
    | with_reducible assumption
    | exact sub_of hk (by decide)
    | with_reducible apply bumpLedger_kept
    | with_reducible apply setLedger_kept
    | with_reducible apply kept_ite

theorem shareEnergy_kept {ks : List Part} {r : State} (unit : Nat) (n : Nat) {s : State} (h : Kept ks r s) (hk : [.sat, .host, .logs, .ledger] ⊆ ks := by first | assumption | exact sub_of (by assumption) (by decide)) : Kept ks r (shareEnergy unit n s) := by
  unfold shareEnergy
  try dsimp only
  repeat' first
    | with_reducible assumption
    | intro _
    | with_reducible apply chargeEnergy_kept
    | with_reducible apply kept_ite
    | with_reducible apply kept_foldl

theorem dieEnergy_kept {ks : List Part} {r : State} (d : Nat) (x : EnergyIn) {s : State} (h : Kept ks r s) (hk : [.sat, .host, .logs, .ledger] ⊆ ks := by first | assumption | exact sub_of (by assumption) (by decide)) : Kept ks r (dieEnergy d x s) := by
  unfold dieEnergy
  try dsimp only
  repeat' first
    | with_reducible assumption
    | intro _
    | with_reducible apply chargeEnergy_kept
    | with_reducible apply shareEnergy_kept
    | with_reducible apply kept_foldl

theorem execLedgerTick_kept {ks : List Part} {r out : State} (energy : List EnergyIn) {s : State} (h : Kept ks r s) (he : execLedgerTick energy s = .next out) (hk : [.sat, .host, .logs, .ledger, .served] ⊆ ks := by first | assumption | exact sub_of (by assumption) (by decide)) : Kept ks r out := by
  unfold execLedgerTick at he
  refine kept_next he ?_
  clear he
  try dsimp only
  repeat' first
    | with_reducible assumption
    | exact sub_of hk (by decide)
    | intro _
    | with_reducible apply dieEnergy_kept
    | with_reducible apply setLedger_kept
    | with_reducible apply kept_foldl
    | with_reducible refine kept_mk ?_ (by constructor <;> intro hp <;> first | exact absurd (sub_mem hk (by decide)) hp | rfl) (by rfl) (by rfl)

end Sys2Proof.Machine
end

