-- ==== Sys2Proof/Laws/KeptHostIf.lean ====
section
/-! SUPPORT. What the operations of Machine/HostIf.lean keep (Laws/Kept.lean). -/

set_option Elab.async false

namespace Sys2Proof.Machine

theorem fetchOne_kept {ks : List Part} {r : State} (q : Nat) {s : State} (h : Kept ks r s) (hk : [.regs, .host] ⊆ ks := by first | assumption | exact sub_of (by assumption) (by decide)) : Kept ks r (fetchOne q s) := by
  unfold fetchOne
  try dsimp only
  repeat' first
    | with_reducible assumption
    | exact sub_of hk (by decide)
    | with_reducible apply stopQueue_kept
    | with_reducible apply setReg_kept
    | with_reducible apply kept_ite
    | with_reducible refine kept_mk ?_ (by constructor <;> intro hp <;> first | exact absurd (sub_mem hk (by decide)) hp | rfl) (by rfl) (by rfl)

theorem fetchQueue_kept {ks : List Part} {r : State} (q : Nat) {s : State} (h : Kept ks r s) (hk : [.regs, .host] ⊆ ks := by first | assumption | exact sub_of (by assumption) (by decide)) : Kept ks r (fetchQueue q s) := by
  unfold fetchQueue
  try dsimp only
  repeat' first
    | with_reducible assumption
    | intro _
    | with_reducible apply fetchOne_kept
    | with_reducible apply kept_ite
    | with_reducible apply kept_iter

theorem execDoorbellWrite_kept {ks : List Part} {r out : State} (q : Nat) (tail : Nat) {s : State} (h : Kept ks r s) (he : execDoorbellWrite q tail s = .next out) (hk : [.regs, .host] ⊆ ks := by first | assumption | exact sub_of (by assumption) (by decide)) : Kept ks r out := by
  unfold execDoorbellWrite at he
  refine kept_next he ?_
  clear he
  try dsimp only
  repeat' first
    | with_reducible assumption
    | with_reducible apply stopQueue_kept
    | with_reducible apply fetchQueue_kept
    | with_reducible apply kept_ite
    | with_reducible refine kept_mk ?_ (by constructor <;> intro hp <;> first | exact absurd (sub_mem hk (by decide)) hp | rfl) (by rfl) (by rfl)

theorem runSteps_kept {ks : List Part} {r : State} (h0 : HostCmd) {s : State} (h : Kept ks r s) (hk : [.clients, .host, .logs] ⊆ ks := by first | assumption | exact sub_of (by assumption) (by decide)) : Kept ks r (runSteps h0 s) := by
  unfold runSteps
  try dsimp only
  repeat' first
    | with_reducible assumption
    | exact sub_of hk (by decide)
    | with_reducible apply cmdDone_kept
    | with_reducible apply setClientState_kept
    | with_reducible apply setClient_kept
    | with_reducible apply kept_ite

theorem execRunSteps_kept {ks : List Part} {r out : State} (q : Nat) {s : State} (h : Kept ks r s) (he : execRunSteps q s = .next out) (hk : [.clients, .host, .logs] ⊆ ks := by first | assumption | exact sub_of (by assumption) (by decide)) : Kept ks r out := by
  unfold execRunSteps at he
  refine kept_next he ?_
  clear he
  try dsimp only
  repeat' first
    | with_reducible assumption
    | exact sub_of hk (by decide)
    | intro _
    | with_reducible apply withHost_kept
    | with_reducible apply runSteps_kept

theorem poisonTo_kept {ks : List Part} {r : State} (e : Entry) (die : Nat) (off : Nat) (bs : List (Byte × Bool)) {s : State} (h : Kept ks r s) (hk : [.mem] ⊆ ks := by first | assumption | exact sub_of (by assumption) (by decide)) : Kept ks r (poisonTo e die off bs s) := by
  unfold poisonTo
  try dsimp only
  repeat' first
    | with_reducible assumption
    | intro _
    | with_reducible apply poisonWord_kept
    | with_reducible apply kept_ite
    | with_reducible apply kept_foldl

theorem copyOut_kept {ks : List Part} {r : State} (c : Nat) (d : CopySide) (bs : List (Byte × Bool)) {s : State} (h : Kept ks r s) (hk : [.mem, .regs, .dict, .sat, .cat, .banks, .clients, .host, .logs, .wear, .ledger, .served] ⊆ ks := by first | assumption | exact sub_of (by assumption) (by decide)) : Kept ks r (copyOut c d bs s) := by
  unfold copyOut
  try dsimp only
  repeat' first
    | with_reducible assumption
    | exact sub_of hk (by decide)
    | with_reducible apply bumpLedger_kept
    | with_reducible apply hostWrite_kept
    | with_reducible apply poisonTo_kept
    | with_reducible apply putBuf_kept
    | with_reducible apply kept_ite

theorem copyIn_kept {ks : List Part} {r : State} (c : Nat) (n : Nat) (x : CopySide) {s : State} (h : Kept ks r s) (hk : [.mem, .regs, .dict, .sat, .banks, .clients, .host, .logs, .wear, .ledger, .served] ⊆ ks := by first | assumption | exact sub_of (by assumption) (by decide)) : Kept ks r (copyIn c n x s).2 := by
  unfold copyIn
  try dsimp only
  repeat' first
    | with_reducible assumption
    | exact sub_of hk (by decide)
    | with_reducible apply bumpLedger_kept
    | with_reducible apply readBuf_kept
    | split

theorem holdHost_kept {ks : List Part} {r : State} (h0 : HostCmd) {s : State} (h : Kept ks r s) (hk : [.host] ⊆ ks := by first | assumption | exact sub_of (by assumption) (by decide)) : Kept ks r (holdHost h0 s) := by
  unfold holdHost
  try dsimp only
  repeat' first
    | with_reducible assumption
    | with_reducible refine kept_mk ?_ (by constructor <;> intro hp <;> first | exact absurd (sub_mem hk (by decide)) hp | rfl) (by rfl) (by rfl)

theorem copyCmd_kept {ks : List Part} {r : State} (h0 : HostCmd) {s : State} (h : Kept ks r s) (hk : [.mem, .regs, .dict, .sat, .cat, .banks, .clients, .host, .logs, .wear, .ledger, .served] ⊆ ks := by first | assumption | exact sub_of (by assumption) (by decide)) : Kept ks r (copyCmd h0 s) := by
  unfold copyCmd
  try dsimp only
  repeat' first
    | with_reducible assumption
    | exact sub_of hk (by decide)
    | with_reducible apply cmdDone_kept
    | with_reducible apply holdHost_kept
    | with_reducible apply copyIn_kept
    | with_reducible apply crossBridge_kept
    | with_reducible apply copyOut_kept
    | with_reducible apply kept_ite

theorem execCopy_kept {ks : List Part} {r out : State} (q : Nat) {s : State} (h : Kept ks r s) (he : execCopy q s = .next out) (hk : [.mem, .regs, .dict, .sat, .cat, .banks, .clients, .host, .logs, .wear, .ledger, .served] ⊆ ks := by first | assumption | exact sub_of (by assumption) (by decide)) : Kept ks r out := by
  unfold execCopy at he
  refine kept_next he ?_
  clear he
  try dsimp only
  repeat' first
    | with_reducible assumption
    | exact sub_of hk (by decide)
    | intro _
    | with_reducible apply withHost_kept
    | with_reducible apply copyCmd_kept

theorem execHostReservedOpcode_kept {ks : List Part} {r out : State} (q : Nat) {s : State} (h : Kept ks r s) (he : execHostReservedOpcode q s = .next out) (hk : [.host, .logs] ⊆ ks := by first | assumption | exact sub_of (by assumption) (by decide)) : Kept ks r out := by
  unfold execHostReservedOpcode at he
  refine kept_next he ?_
  clear he
  try dsimp only
  repeat' first
    | with_reducible assumption
    | exact sub_of hk (by decide)
    | with_reducible apply cmdDone_kept
    | with_reducible apply dropHost_kept
    | with_reducible apply kept_ite
    | split

theorem setEvQ_kept {ks : List Part} {r : State} (e : Nat) (x : EvQ) {s : State} (h : Kept ks r s) (hk : [.host] ⊆ ks := by first | assumption | exact sub_of (by assumption) (by decide)) : Kept ks r (setEvQ e x s) := by
  unfold setEvQ
  try dsimp only
  repeat' first
    | with_reducible assumption
    | with_reducible refine kept_mk ?_ (by constructor <;> intro hp <;> first | exact absurd (sub_mem hk (by decide)) hp | rfl) (by rfl) (by rfl)

theorem recordBytes_kept {ks : List Part} {r : State} (e : Event) (phase : Bool) {s : State} (h : Kept ks r s) (hk : [.free] ⊆ ks := by first | assumption | exact sub_of (by assumption) (by decide)) : Kept ks r (recordBytes e phase s).2 := by
  unfold recordBytes
  try dsimp only
  repeat' first
    | with_reducible assumption
    | with_reducible apply fresh_kept

theorem lostEvent_kept {ks : List Part} {r : State} {s : State} (h : Kept ks r s) (hk : [.dict, .sat, .host, .logs] ⊆ ks := by first | assumption | exact sub_of (by assumption) (by decide)) : Kept ks r (lostEvent s) := by
  unfold lostEvent
  try dsimp only
  repeat' first
    | with_reducible assumption
    | with_reducible apply bumpDict_kept

theorem holdEvent_kept {ks : List Part} {r : State} (e : Nat) (v : Event) {s : State} (h : Kept ks r s) (hk : [.dict, .sat, .host, .logs] ⊆ ks := by first | assumption | exact sub_of (by assumption) (by decide)) : Kept ks r (holdEvent e v s) := by
  unfold holdEvent
  try dsimp only
  repeat' first
    | with_reducible assumption
    | exact sub_of hk (by decide)
    | with_reducible apply setEvQ_kept
    | with_reducible apply lostEvent_kept
    | with_reducible apply kept_ite
    | split

theorem writeEvent_kept {ks : List Part} {r out : State} (e : Nat) (v : Event) {s : State} (h : Kept ks r s) (he : writeEvent e v s = some out) (hk : [.regs, .host, .free] ⊆ ks := by first | assumption | exact sub_of (by assumption) (by decide)) : Kept ks r out := by
  unfold writeEvent at he
  dsimp only at he
  repeat' first
    | contradiction
    | (simp only [Option.some.injEq] at he; subst he)
    | split at he
  all_goals repeat' first
    | with_reducible assumption
    | exact sub_of hk (by decide)
    | with_reducible apply setReg_kept
    | with_reducible apply setEvQ_kept
    | with_reducible apply hostWrite_kept
    | with_reducible apply recordBytes_kept

theorem stopEvQ_kept {ks : List Part} {r : State} (e : Nat) {s : State} (h : Kept ks r s) (hk : [.regs, .host] ⊆ ks := by first | assumption | exact sub_of (by assumption) (by decide)) : Kept ks r (stopEvQ e s) := by
  unfold stopEvQ
  try dsimp only
  repeat' first
    | with_reducible assumption
    | with_reducible apply stopQueue_kept

theorem flushOne_kept {ks : List Part} {r : State} (e : Nat) {s : State} (h : Kept ks r s) (hk : [.regs, .host, .free] ⊆ ks := by first | assumption | exact sub_of (by assumption) (by decide)) : Kept ks r (flushOne e s) := by
  unfold flushOne
  try dsimp only
  repeat' first
    | with_reducible assumption
    | exact sub_of hk (by decide)
    | with_reducible refine writeEvent_kept _ _ ?_ (by assumption)
    | with_reducible apply setEvQ_kept
    | with_reducible apply stopEvQ_kept
    | with_reducible apply kept_ite
    | split

theorem flushHold_kept {ks : List Part} {r : State} (e : Nat) {s : State} (h : Kept ks r s) (hk : [.regs, .host, .free] ⊆ ks := by first | assumption | exact sub_of (by assumption) (by decide)) : Kept ks r (flushHold e s) := by
  unfold flushHold
  try dsimp only
  repeat' first
    | with_reducible assumption
    | intro _
    | with_reducible apply flushOne_kept
    | with_reducible apply kept_iter

theorem postRecord_kept {ks : List Part} {r : State} (e : Nat) (v : Event) {s : State} (h : Kept ks r s) (hk : [.regs, .dict, .sat, .host, .logs, .free] ⊆ ks := by first | assumption | exact sub_of (by assumption) (by decide)) : Kept ks r (postRecord e v s) := by
  unfold postRecord
  try dsimp only
  repeat' first
    | with_reducible assumption
    | exact sub_of hk (by decide)
    | with_reducible apply holdEvent_kept
    | with_reducible refine writeEvent_kept _ _ ?_ (by assumption)
    | with_reducible apply stopEvQ_kept
    | with_reducible apply setEvQ_kept
    | with_reducible apply kept_ite
    | split

theorem execEventPost_kept {ks : List Part} {r out : State} {s : State} (h : Kept ks r s) (he : execEventPost s = .next out) (hk : [.regs, .dict, .sat, .host, .logs, .free] ⊆ ks := by first | assumption | exact sub_of (by assumption) (by decide)) : Kept ks r out := by
  unfold execEventPost at he
  refine kept_next he ?_
  clear he
  try dsimp only
  repeat' first
    | with_reducible assumption
    | with_reducible apply postRecord_kept
    | split
    | with_reducible refine kept_mk ?_ (by constructor <;> intro hp <;> first | exact absurd (sub_mem hk (by decide)) hp | rfl) (by rfl) (by rfl)

theorem execEventQueueHeadWrite_kept {ks : List Part} {r out : State} (q : Nat) (head : Nat) {s : State} (h : Kept ks r s) (he : execEventQueueHeadWrite q head s = .next out) (hk : [.regs, .host, .free] ⊆ ks := by first | assumption | exact sub_of (by assumption) (by decide)) : Kept ks r out := by
  unfold execEventQueueHeadWrite at he
  refine kept_next he ?_
  clear he
  try dsimp only
  repeat' first
    | with_reducible assumption
    | exact sub_of hk (by decide)
    | with_reducible apply stopQueue_kept
    | with_reducible apply flushHold_kept
    | with_reducible apply setEvQ_kept
    | with_reducible apply kept_ite

theorem unstop_kept {ks : List Part} {r : State} (k : Nat) {s : State} (h : Kept ks r s) (hk : [.host] ⊆ ks := by first | assumption | exact sub_of (by assumption) (by decide)) : Kept ks r (unstop k s) := by
  unfold unstop
  try dsimp only
  repeat' first
    | with_reducible assumption
    | with_reducible refine kept_mk ?_ (by constructor <;> intro hp <;> first | exact absurd (sub_mem hk (by decide)) hp | rfl) (by rfl) (by rfl)

theorem enableQueue_kept {ks : List Part} {r : State} (event : Bool) (q : Nat) {s : State} (h : Kept ks r s) (hk : [.regs, .host, .free] ⊆ ks := by first | assumption | exact sub_of (by assumption) (by decide)) : Kept ks r (enableQueue event q s) := by
  unfold enableQueue
  try dsimp only
  repeat' first
    | with_reducible assumption
    | exact sub_of hk (by decide)
    | with_reducible apply flushHold_kept
    | with_reducible apply unstop_kept
    | with_reducible apply setBit_kept
    | with_reducible apply fetchQueue_kept
    | with_reducible apply kept_ite

theorem execQueueEnable_kept {ks : List Part} {r out : State} (event : Bool) (q : Nat) {s : State} (h : Kept ks r s) (he : execQueueEnable event q s = .next out) (hk : [.regs, .host, .free] ⊆ ks := by first | assumption | exact sub_of (by assumption) (by decide)) : Kept ks r out := by
  unfold execQueueEnable at he
  refine kept_next he ?_
  clear he
  try dsimp only
  repeat' first
    | with_reducible assumption
    | with_reducible apply enableQueue_kept

theorem sendMsix_kept {ks : List Part} {r : State} (e : Nat) {s : State} (h : Kept ks r s) (hk : [.host] ⊆ ks := by first | assumption | exact sub_of (by assumption) (by decide)) : Kept ks r (sendMsix e s) := by
  unfold sendMsix
  try dsimp only
  repeat' first
    | with_reducible assumption
    | with_reducible apply setEvQ_kept
    | with_reducible refine kept_mk_sent ?_ (by constructor <;> intro hp <;> first | exact absurd (sub_mem hk (by decide)) hp | rfl) (List.prefix_append _ _) (by rfl)

theorem execMsixSend_kept {ks : List Part} {r out : State} (q : Nat) (timer : Bool) {s : State} (h : Kept ks r s) (he : execMsixSend q timer s = .next out) (hk : [.host] ⊆ ks := by first | assumption | exact sub_of (by assumption) (by decide)) : Kept ks r out := by
  unfold execMsixSend at he
  refine kept_next he ?_
  clear he
  try dsimp only
  repeat' first
    | with_reducible assumption
    | with_reducible apply sendMsix_kept
    | with_reducible apply setEvQ_kept
    | with_reducible apply kept_ite
    | with_reducible refine kept_mk ?_ (by constructor <;> intro hp <;> first | exact absurd (sub_mem hk (by decide)) hp | rfl) (by rfl) (by rfl)

theorem execMsixUnmask_kept {ks : List Part} {r out : State} (v : Nat) {s : State} (h : Kept ks r s) (he : execMsixUnmask v s = .next out) (hk : [.host] ⊆ ks := by first | assumption | exact sub_of (by assumption) (by decide)) : Kept ks r out := by
  unfold execMsixUnmask at he
  refine kept_next he ?_
  clear he
  try dsimp only
  repeat' first
    | with_reducible assumption
    | intro _
    | with_reducible apply setEvQ_kept
    | with_reducible apply kept_ite
    | with_reducible apply kept_foldl
    | with_reducible refine kept_mk ?_ (by constructor <;> intro hp <;> first | exact absurd (sub_mem hk (by decide)) hp | rfl) (by rfl) (by rfl)
    | with_reducible refine kept_mk_sent ?_ (by constructor <;> intro hp <;> first | exact absurd (sub_mem hk (by decide)) hp | rfl) (List.prefix_append _ _) (by rfl)

end Sys2Proof.Machine
end

