-- ==== Sys2Proof/Laws/KeptArchive.lean ====
section
/-! SUPPORT. What the operations of Machine/Archive.lean keep (Laws/Kept.lean). -/

set_option Elab.async false

namespace Sys2Proof.Machine

theorem archRead_kept {ks : List Part} {r : State} (c : Nat) (name : Nat) (e : Entry) (off : Nat) (n : Nat) {s : State} (h : Kept ks r s) (hk : [.mem, .regs, .dict, .sat, .banks, .clients, .host, .logs, .wear, .ledger, .served] ⊆ ks := by first | assumption | exact sub_of (by assumption) (by decide)) : Kept ks r (archRead c name e off n s).2.2 := by
  unfold archRead
  try dsimp only
  repeat' first
    | with_reducible assumption
    | with_reducible apply readBuf_kept

theorem bookmark_kept {ks : List Part} {r : State} (c : Nat) {s : State} (h : Kept ks r s) (hk : [.mem, .regs, .dict, .sat, .banks, .clients, .host, .logs, .wear, .ledger, .served] ⊆ ks := by first | assumption | exact sub_of (by assumption) (by decide)) : Kept ks r (bookmark c s).2.2 := by
  unfold bookmark
  try dsimp only
  repeat' first
    | with_reducible assumption
    | with_reducible apply archRead_kept
    | split

theorem dataSections_kept {ks : List Part} {r : State} (c : Nat) (m : List (Nat × Entry)) (names : List Nat) {s : State} (h : Kept ks r s) (hk : [.mem, .regs, .dict, .sat, .banks, .clients, .host, .logs, .wear, .ledger, .served] ⊆ ks := by first | assumption | exact sub_of (by assumption) (by decide)) : Kept ks r (dataSections c m names s).2.2 := by
  unfold dataSections
  try dsimp only
  repeat' first
    | with_reducible assumption
    | intro _
    | with_reducible apply archRead_kept
    | with_reducible apply kept_foldl_snd3

theorem takeImage_kept {ks : List Part} {r : State} (c : Nat) (names : List Nat) {s : State} (h : Kept ks r s) (hk : [.mem, .regs, .dict, .sat, .banks, .clients, .host, .logs, .wear, .ledger, .served, .free] ⊆ ks := by first | assumption | exact sub_of (by assumption) (by decide)) : Kept ks r (takeImage c names s).2.2 := by
  unfold takeImage
  try dsimp only
  repeat' first
    | with_reducible assumption
    | exact sub_of hk (by decide)
    | with_reducible apply fresh_kept
    | with_reducible apply bookmark_kept
    | with_reducible apply dataSections_kept
    | with_reducible refine kept_mk_free ?_ (by constructor <;> intro hp <;> first | exact absurd (sub_mem hk (by decide)) hp | rfl) (by omega) (by rfl) (by rfl)

theorem archNames_kept {ks : List Part} {r : State} (c : Nat) (ws : List Word) {s : State} (h : Kept ks r s) (hk : [.mem, .regs, .dict, .sat, .banks, .clients, .host, .logs, .wear, .ledger, .served] ⊆ ks := by first | assumption | exact sub_of (by assumption) (by decide)) : Kept ks r (archNames c ws s).2.2 := by
  unfold archNames
  try dsimp only
  repeat' first
    | with_reducible assumption
    | with_reducible apply readBuf_kept

theorem updArch_kept {ks : List Part} {r : State} (c : Nat) (f : ArchSt → ArchSt) {s : State} (h : Kept ks r s) (hk : [.clients] ⊆ ks := by first | assumption | exact sub_of (by assumption) (by decide)) : Kept ks r (updArch c f s) := by
  unfold updArch
  try dsimp only
  repeat' first
    | with_reducible assumption
    | with_reducible apply setClient_kept

theorem setArchState_kept {ks : List Part} {r : State} (c : Nat) (n : Nat) {s : State} (h : Kept ks r s) (hk : [.dict] ⊆ ks := by first | assumption | exact sub_of (by assumption) (by decide)) : Kept ks r (setArchState c n s) := by
  unfold setArchState
  try dsimp only
  repeat' first
    | with_reducible assumption
    | with_reducible apply setDict_kept

theorem captureImage_kept {ks : List Part} {r : State} (c : Nat) (j : ArchJob) (names : List Nat) {s : State} (h : Kept ks r s) (hk : [.mem, .regs, .dict, .sat, .banks, .clients, .host, .logs, .wear, .ledger, .served, .free] ⊆ ks := by first | assumption | exact sub_of (by assumption) (by decide)) : Kept ks r (captureImage c j names s) := by
  unfold captureImage
  try dsimp only
  repeat' first
    | with_reducible assumption
    | exact sub_of hk (by decide)
    | with_reducible apply takeImage_kept
    | with_reducible apply setArchState_kept
    | with_reducible apply updArch_kept

theorem archiveOut_kept {ks : List Part} {r : State} (h0 : HostCmd) {s : State} (h : Kept ks r s) (hk : [.mem, .regs, .dict, .sat, .banks, .clients, .host, .logs, .wear, .ledger, .served, .free] ⊆ ks := by first | assumption | exact sub_of (by assumption) (by decide)) : Kept ks r (archiveOut h0 s) := by
  unfold archiveOut
  try dsimp only
  repeat' first
    | with_reducible assumption
    | exact sub_of hk (by decide)
    | with_reducible apply cmdDone_kept
    | with_reducible apply archNames_kept
    | with_reducible apply updArch_kept
    | with_reducible apply holdHost_kept
    | with_reducible apply captureImage_kept
    | with_reducible apply kept_ite

theorem execArchiveOut_kept {ks : List Part} {r out : State} (q : Nat) {s : State} (h : Kept ks r s) (he : execArchiveOut q s = .next out) (hk : [.mem, .regs, .dict, .sat, .banks, .clients, .host, .logs, .wear, .ledger, .served, .free] ⊆ ks := by first | assumption | exact sub_of (by assumption) (by decide)) : Kept ks r out := by
  unfold execArchiveOut at he
  refine kept_next he ?_
  clear he
  try dsimp only
  repeat' first
    | with_reducible assumption
    | exact sub_of hk (by decide)
    | intro _
    | with_reducible apply withHost_kept
    | with_reducible apply archiveOut_kept

theorem skipCapture_kept {ks : List Part} {r : State} (c : Nat) (streaming : Bool) {s : State} (h : Kept ks r s) (hk : [.dict, .sat, .host, .logs] ⊆ ks := by first | assumption | exact sub_of (by assumption) (by decide)) : Kept ks r (skipCapture c streaming s) := by
  unfold skipCapture
  try dsimp only
  repeat' first
    | with_reducible assumption
    | exact sub_of hk (by decide)
    | with_reducible apply post_kept
    | with_reducible apply bumpDict_kept

theorem execArchiveCapture_kept {ks : List Part} {r out : State} (c : ClientId) {s : State} (h : Kept ks r s) (he : execArchiveCapture c s = .next out) (hk : [.mem, .regs, .dict, .sat, .banks, .clients, .host, .logs, .wear, .ledger, .served, .free] ⊆ ks := by first | assumption | exact sub_of (by assumption) (by decide)) : Kept ks r out := by
  unfold execArchiveCapture at he
  refine kept_next he ?_
  clear he
  try dsimp only
  repeat' first
    | with_reducible assumption
    | exact sub_of hk (by decide)
    | with_reducible apply updArch_kept
    | with_reducible apply skipCapture_kept
    | with_reducible apply archNames_kept
    | with_reducible apply hostDone_kept
    | with_reducible apply captureImage_kept
    | with_reducible apply kept_ite
    | split

theorem execArchiveStreamOut_kept {ks : List Part} {r out : State} (c : ClientId) {s : State} (h : Kept ks r s) (he : execArchiveStreamOut c s = .next out) (hk : [.dict, .sat, .clients, .host, .logs, .ledger] ⊆ ks := by first | assumption | exact sub_of (by assumption) (by decide)) : Kept ks r out := by
  unfold execArchiveStreamOut at he
  refine kept_next he ?_
  clear he
  try dsimp only
  repeat' first
    | with_reducible assumption
    | exact sub_of hk (by decide)
    | with_reducible apply setArchState_kept
    | with_reducible apply updArch_kept
    | with_reducible apply hostDone_kept
    | with_reducible apply bumpLedger_kept
    | with_reducible apply hostWrite_kept
    | with_reducible apply bumpDict_kept
    | with_reducible apply kept_ite
    | split

theorem restoreData_kept {ks : List Part} {r : State} (c : Nat) (img : List Byte) (m : List (Nat × List Word)) (l : List SecInfo) {s : State} (h : Kept ks r s) (hk : [.mem, .regs, .dict, .sat, .banks, .clients, .host, .logs, .wear, .ledger, .served] ⊆ ks := by first | assumption | exact sub_of (by assumption) (by decide)) : Kept ks r (restoreData c img m l s).2 := by
  unfold restoreData
  try dsimp only
  repeat' first
    | with_reducible assumption
    | intro _
    | with_reducible apply writeBuf_kept
    | with_reducible apply kept_foldl_snd
    | split

theorem restoreMap_kept {ks : List Part} {r : State} (c : Nat) (m : List (Nat × List Word)) {s : State} (h : Kept ks r s) (hk : [.mem, .dict, .sat, .cat, .plates, .clients, .host, .logs] ⊆ ks := by first | assumption | exact sub_of (by assumption) (by decide)) : Kept ks r (restoreMap c m s).2 := by
  unfold restoreMap
  try dsimp only
  repeat' first
    | with_reducible assumption
    | intro _
    | with_reducible apply catWrite_kept
    | with_reducible apply kept_foldl_snd
    | with_reducible refine kept_snd (by assumption) ?_
    | split

theorem restoreGov_kept {ks : List Part} {r : State} (c : Nat) (bk : List Byte) {s : State} (h : Kept ks r s) (hk : [.mem, .regs, .dict, .sat, .banks, .plates, .clients, .host, .logs, .wear, .ledger, .served] ⊆ ks := by first | assumption | exact sub_of (by assumption) (by decide)) : Kept ks r (restoreGov c bk s) := by
  unfold restoreGov
  try dsimp only
  repeat' first
    | with_reducible assumption
    | exact sub_of hk (by decide)
    | intro _
    | with_reducible apply writeBuf_kept
    | with_reducible apply patchAnchor_kept
    | with_reducible apply kept_foldl
    | split

theorem restoreClient_kept {ks : List Part} {r : State} (c : Nat) (p : Nat) (img : List Byte) (bk : List Byte) (man : List Byte) {s : State} (h : Kept ks r s) (hk : [.dict, .blobs, .clients] ⊆ ks := by first | assumption | exact sub_of (by assumption) (by decide)) : Kept ks r (restoreClient c p img bk man s) := by
  unfold restoreClient
  try dsimp only
  repeat' first
    | with_reducible assumption
    | exact sub_of hk (by decide)
    | with_reducible apply setClient_kept
    | with_reducible apply setDataPos_kept
    | with_reducible apply setDict_kept

theorem warnBases_kept {ks : List Part} {r : State} (c : Nat) (p : Nat) (bk : List Byte) {s : State} (h : Kept ks r s) (hk : [.dict, .sat, .host, .logs] ⊆ ks := by first | assumption | exact sub_of (by assumption) (by decide)) : Kept ks r (warnBases c p bk s) := by
  unfold warnBases
  try dsimp only
  repeat' first
    | with_reducible assumption
    | exact sub_of hk (by decide)
    | intro _
    | with_reducible apply post_kept
    | with_reducible apply bumpDict_kept
    | with_reducible apply kept_ite
    | with_reducible apply kept_foldl

theorem restoreFailed_kept {ks : List Part} {r : State} (h0 : HostCmd) (reason : Nat) {s : State} (h : Kept ks r s) (hk : [.dict, .sat, .clients, .host, .logs] ⊆ ks := by first | assumption | exact sub_of (by assumption) (by decide)) : Kept ks r (restoreFailed h0 reason s) := by
  unfold restoreFailed
  try dsimp only
  repeat' first
    | with_reducible assumption
    | exact sub_of hk (by decide)
    | with_reducible apply cmdDone_kept
    | with_reducible apply bumpDict_kept
    | with_reducible apply setArchState_kept
    | with_reducible apply setClient_kept

theorem applyImage_kept {ks : List Part} {r : State} (h0 : HostCmd) (img : List Byte) (man : List Byte) (dataOk : Bool) {s : State} (h : Kept ks r s) (hk : [.mem, .regs, .dict, .blobs, .sat, .cat, .banks, .plates, .clients, .host, .logs, .wear, .ledger, .served] ⊆ ks := by first | assumption | exact sub_of (by assumption) (by decide)) : Kept ks r (applyImage h0 img man dataOk s) := by
  unfold applyImage
  try dsimp only
  repeat' first
    | with_reducible assumption
    | exact sub_of hk (by decide)
    | intro _
    | with_reducible apply warnBases_kept
    | with_reducible apply restoreData_kept
    | with_reducible apply restoreFailed_kept
    | with_reducible apply undefEntries_kept
    | with_reducible apply discardStaged_kept
    | with_reducible apply restoreMap_kept
    | with_reducible apply freshStats_kept
    | with_reducible apply restoreGov_kept
    | with_reducible apply cmdDone_kept
    | with_reducible apply bumpDict_kept
    | with_reducible apply setArchState_kept
    | with_reducible apply restoreClient_kept
    | with_reducible apply kept_ite
    | with_reducible apply kept_foldl
    | with_reducible refine kept_snd (by assumption) ?_
    | split

theorem restoreIn_kept {ks : List Part} {r : State} (h0 : HostCmd) {s : State} (h : Kept ks r s) (hk : [.mem, .regs, .dict, .blobs, .sat, .cat, .banks, .plates, .clients, .host, .logs, .wear, .ledger, .served] ⊆ ks := by first | assumption | exact sub_of (by assumption) (by decide)) : Kept ks r (restoreIn h0 s) := by
  unfold restoreIn
  try dsimp only
  repeat' first
    | with_reducible assumption
    | exact sub_of hk (by decide)
    | with_reducible apply cmdDone_kept
    | with_reducible apply bumpDict_kept
    | with_reducible apply applyImage_kept
    | with_reducible apply bumpLedger_kept
    | with_reducible apply kept_ite
    | split

theorem execRestoreIn_kept {ks : List Part} {r out : State} (q : Nat) {s : State} (h : Kept ks r s) (he : execRestoreIn q s = .next out) (hk : [.mem, .regs, .dict, .blobs, .sat, .cat, .banks, .plates, .clients, .host, .logs, .wear, .ledger, .served] ⊆ ks := by first | assumption | exact sub_of (by assumption) (by decide)) : Kept ks r out := by
  unfold execRestoreIn at he
  refine kept_next he ?_
  clear he
  try dsimp only
  repeat' first
    | with_reducible assumption
    | exact sub_of hk (by decide)
    | intro _
    | with_reducible apply withHost_kept
    | with_reducible apply restoreIn_kept

end Sys2Proof.Machine
end

