-- ==== Sys2Proof/Laws/KeptStacks.lean ====
section
/-! SUPPORT. What the operations of Machine/Stacks.lean keep (Laws/Kept.lean). -/

set_option Elab.async false

namespace Sys2Proof.Machine

theorem execStackRead_kept {ks : List Part} {r out : State} (r0 : Access) (u : List Upset) {s : State} (h : Kept ks r s) (he : execStackRead r0 u s = .next out) (hk : [.mem, .regs, .dict, .sat, .cat, .banks, .clients, .host, .logs, .wear, .ledger, .served, .ports] ⊆ ks := by first | assumption | exact sub_of (by assumption) (by decide)) : Kept ks r out := by
  unfold execStackRead at he
  refine kept_next he ?_
  clear he
  try dsimp only
  repeat' first
    | with_reducible assumption
    | exact sub_of hk (by decide)
    | with_reducible apply readAccess_kept
    | with_reducible apply strike_kept

theorem execStackWrite_kept {ks : List Part} {r out : State} (r0 : Access) (data : List Byte) (u : List Upset) {s : State} (h : Kept ks r s) (he : execStackWrite r0 data u s = .next out) (hk : [.mem, .regs, .dict, .sat, .cat, .banks, .clients, .host, .logs, .wear, .ledger, .served] ⊆ ks := by first | assumption | exact sub_of (by assumption) (by decide)) : Kept ks r out := by
  unfold execStackWrite at he
  refine kept_next he ?_
  clear he
  try dsimp only
  repeat' first
    | with_reducible assumption
    | exact sub_of hk (by decide)
    | with_reducible apply writeAccess_kept
    | with_reducible apply strike_kept

theorem execStackScrub_kept {ks : List Part} {r out : State} (i : StackId) (group : Nat) (u : List Upset) {s : State} (h : Kept ks r s) (he : execStackScrub i group u s = .next out) (hk : [.mem, .regs, .dict, .sat, .clients, .host, .logs, .wear] ⊆ ks := by first | assumption | exact sub_of (by assumption) (by decide)) : Kept ks r out := by
  unfold execStackScrub at he
  refine kept_next he ?_
  clear he
  try dsimp only
  repeat' first
    | with_reducible assumption
    | exact sub_of hk (by decide)
    | intro _
    | with_reducible apply strike_kept
    | with_reducible apply readWord_kept
    | with_reducible apply kept_ite
    | with_reducible apply kept_foldl

theorem recopyStack_kept {ks : List Part} {r : State} (i : Nat) {s : State} (h : Kept ks r s) (hk : [.mem, .regs, .dict, .sat, .host, .logs, .wear] ⊆ ks := by first | assumption | exact sub_of (by assumption) (by decide)) : Kept ks r (recopyStack i s) := by
  unfold recopyStack
  try dsimp only
  repeat' first
    | with_reducible assumption
    | exact sub_of hk (by decide)
    | intro _
    | with_reducible apply countCorrected_kept
    | with_reducible apply kept_ite
    | with_reducible apply kept_foldl
    | with_reducible refine kept_mk_mem ?_ (by constructor <;> intro hp <;> first | exact absurd (sub_mem hk (by decide)) hp | rfl) (Memory.wf_setWord _ _ _) (by rfl) (by rfl)

theorem wornDie_kept {ks : List Part} {r : State} (i : Nat) {s : State} (h : Kept ks r s) (hk : [.free] ⊆ ks := by first | assumption | exact sub_of (by assumption) (by decide)) : Kept ks r (wornDie i s).2 := by
  unfold wornDie
  try dsimp only
  repeat' first
    | with_reducible assumption
    | with_reducible apply fresh_kept
    | split

theorem spareStackDie_kept {ks : List Part} {r : State} (i : Nat) {s : State} (h : Kept ks r s) (hk : [.mem, .regs, .dict, .sat, .host, .logs, .wearS, .wear, .free] ⊆ ks := by first | assumption | exact sub_of (by assumption) (by decide)) : Kept ks r (spareStackDie i s) := by
  unfold spareStackDie
  try dsimp only
  repeat' first
    | with_reducible assumption
    | exact sub_of hk (by decide)
    | with_reducible apply wornDie_kept
    | with_reducible apply recopyStack_kept
    | with_reducible apply doneSwap_kept
    | with_reducible apply setDict_kept
    | with_reducible apply setBit_kept
    | with_reducible apply kept_ite

theorem execStackDieSpare_kept {ks : List Part} {r out : State} (i : StackId) {s : State} (h : Kept ks r s) (he : execStackDieSpare i s = .next out) (hk : [.mem, .regs, .dict, .sat, .host, .logs, .wearS, .wear, .free] ⊆ ks := by first | assumption | exact sub_of (by assumption) (by decide)) : Kept ks r out := by
  unfold execStackDieSpare at he
  refine kept_next he ?_
  clear he
  try dsimp only
  repeat' first
    | with_reducible assumption
    | with_reducible apply spareStackDie_kept

theorem abortAll_kept {ks : List Part} {r : State} (code : Nat) (detail : Nat) {s : State} (h : Kept ks r s) (hk : [.clients] ⊆ ks := by first | assumption | exact sub_of (by assumption) (by decide)) : Kept ks r (abortAll code detail s) := by
  unfold abortAll
  try dsimp only
  repeat' first
    | with_reducible assumption
    | intro _
    | with_reducible apply setClient_kept
    | with_reducible apply kept_ite
    | with_reducible apply kept_foldl
    | split

theorem stageFault_kept {ks : List Part} {r : State} (n : Nat) {s : State} (h : Kept ks r s) (hk : [.dict, .host, .logs] ⊆ ks := by first | assumption | exact sub_of (by assumption) (by decide)) : Kept ks r (stageFault n s) := by
  unfold stageFault
  try dsimp only
  repeat' first
    | with_reducible assumption
    | exact sub_of hk (by decide)
    | with_reducible apply post_kept
    | with_reducible apply setDict_kept

theorem failStack_kept {ks : List Part} {r : State} (i : Nat) (training : Bool) {s : State} (h : Kept ks r s) (hk : [.regs, .dict, .clients, .host, .logs] ⊆ ks := by first | assumption | exact sub_of (by assumption) (by decide)) : Kept ks r (failStack i training s) := by
  unfold failStack
  try dsimp only
  repeat' first
    | with_reducible assumption
    | exact sub_of hk (by decide)
    | with_reducible apply setDict_kept
    | with_reducible apply setReg_kept
    | with_reducible apply post_kept
    | with_reducible apply stageFault_kept
    | with_reducible apply abortAll_kept
    | with_reducible apply kept_ite

theorem execStackFailed_kept {ks : List Part} {r out : State} (i : StackId) (training : Bool) {s : State} (h : Kept ks r s) (he : execStackFailed i training s = .next out) (hk : [.regs, .dict, .clients, .host, .logs] ⊆ ks := by first | assumption | exact sub_of (by assumption) (by decide)) : Kept ks r out := by
  unfold execStackFailed at he
  refine kept_next he ?_
  clear he
  try dsimp only
  repeat' first
    | with_reducible assumption
    | with_reducible apply failStack_kept
    | with_reducible apply kept_ite

theorem execAddressError_kept {ks : List Part} {r out : State} (a : Nat) (write : Bool) {s : State} (h : Kept ks r s) (he : execAddressError a write s = .next out) (hk : [.host, .logs, .ports] ⊆ ks := by first | assumption | exact sub_of (by assumption) (by decide)) : Kept ks r out := by
  unfold execAddressError at he
  refine kept_next he ?_
  clear he
  try dsimp only
  repeat' first
    | with_reducible assumption
    | exact sub_of hk (by decide)
    | with_reducible apply post_kept
    | with_reducible apply kept_ite
    | with_reducible refine kept_mk ?_ (by constructor <;> intro hp <;> first | exact absurd (sub_mem hk (by decide)) hp | rfl) (by rfl) (by rfl)

theorem bar2Read_kept {ks : List Part} {r : State} (off : Nat) (n : Nat) {s : State} (h : Kept ks r s) (hk : [.mem, .regs, .dict, .sat, .banks, .clients, .host, .logs, .wear, .ledger, .served] ⊆ ks := by first | assumption | exact sub_of (by assumption) (by decide)) : Kept ks r (bar2Read off n s) := by
  unfold bar2Read
  try dsimp only
  repeat' first
    | with_reducible assumption
    | with_reducible apply readMem_kept
    | with_reducible apply kept_ite
    | split
    | with_reducible refine kept_mk ?_ (by constructor <;> intro hp <;> first | exact absurd (sub_mem hk (by decide)) hp | rfl) (by rfl) (by rfl)

theorem execBar2Access_kept {ks : List Part} {r out : State} (off : Nat) (write : Bool) (n : Nat) (data : List Byte) {s : State} (h : Kept ks r s) (he : execBar2Access off write n data s = .next out) (hk : [.mem, .regs, .dict, .sat, .banks, .clients, .host, .logs, .wear, .ledger, .served] ⊆ ks := by first | assumption | exact sub_of (by assumption) (by decide)) : Kept ks r out := by
  unfold execBar2Access at he
  refine kept_next he ?_
  clear he
  try dsimp only
  repeat' first
    | with_reducible assumption
    | with_reducible apply writeMem_kept
    | with_reducible apply bar2Read_kept
    | with_reducible apply kept_ite
    | split

end Sys2Proof.Machine
end

