-- ==== Sys2Proof/Laws/KeptStart.lean ====
section
/-! SUPPORT. What the operations of Machine/Start.lean keep (Laws/Kept.lean). -/

set_option Elab.async false

namespace Sys2Proof.Machine

theorem downState_kept {ks : List Part} {r : State} (power : Bool) {s : State} (h : Kept ks r s) (hk : [.mem, .regs, .shadow, .dict, .blobs, .sat, .cat, .banks, .plates, .tiles, .units, .clients, .fabric, .rot, .arbs, .host, .logs, .start, .wearS, .can, .cur, .mail, .wear, .ledger, .served, .ports, .tick] ⊆ ks := by first | assumption | exact sub_of (by assumption) (by decide)) : Kept ks r (downState power s) where
  mem hr := by cases power <;> first | exact h.mem hr | rfl
  pending := h.pending
  sent := h.sent
  frames := h.frames
  free := h.free
  only := h.only.trans (by constructor <;> intro hp <;> first | exact absurd (sub_mem hk (by decide)) hp | rfl)

theorem noteReset_kept {ks : List Part} {r : State} (kind : Nat) {s : State} (h : Kept ks r s) (hk : [.dict, .sat, .host, .logs] ⊆ ks := by first | assumption | exact sub_of (by assumption) (by decide)) : Kept ks r (noteReset kind s) := by
  unfold noteReset
  try dsimp only
  repeat' first
    | with_reducible assumption
    | exact sub_of hk (by decide)
    | with_reducible apply bumpDictW_kept
    | with_reducible apply setDict_kept

theorem askReset_kept {ks : List Part} {r : State} (kind : Nat) {f : State → State} {s : State} (h : Kept ks r s) (hff : ∀ s, Kept ks r s → Kept ks r (f s)) (hk : [.dict, .sat, .host, .logs] ⊆ ks := by first | assumption | exact sub_of (by assumption) (by decide)) : Kept ks r (askReset kind f s) := by
  unfold askReset
  try dsimp only
  repeat' first
    | with_reducible assumption
    | with_reducible apply bumpDictW_kept
    | with_reducible apply hff
    | with_reducible apply kept_ite

theorem execPowerSequence_kept {ks : List Part} {r out : State} (vin ms : Nat) {s : State} (h : Kept ks r s)
    (he : execPowerSequence vin ms s = .next out) (hk : [.start] ⊆ ks := by first | assumption | exact sub_of (by assumption) (by decide)) : Kept ks r out := by
  unfold execPowerSequence at he
  split at he
  · contradiction
  · exact kept_next he (kept_ite h (kept_mk h (by constructor <;> intro hp <;> first | exact absurd (sub_mem hk (by decide)) hp | rfl) rfl rfl))

theorem execPwrGoodLost_kept {ks : List Part} {r out : State} {s : State} (h : Kept ks r s) (he : execPwrGoodLost s = .next out) (hk : [.mem, .regs, .shadow, .dict, .blobs, .sat, .cat, .banks, .plates, .tiles, .units, .clients, .fabric, .rot, .arbs, .host, .logs, .start, .wearS, .can, .cur, .mail, .wear, .ledger, .served, .ports, .tick] ⊆ ks := by first | assumption | exact sub_of (by assumption) (by decide)) : Kept ks r out := by
  unfold execPwrGoodLost at he
  refine kept_next he ?_
  clear he
  try dsimp only
  repeat' first
    | with_reducible assumption
    | with_reducible apply downState_kept
    | with_reducible apply kept_ite

theorem railsOff_kept {ks : List Part} {r : State} {s : State} (h : Kept ks r s) (hk : [.mem, .regs, .shadow, .dict, .blobs, .sat, .cat, .banks, .plates, .tiles, .units, .clients, .fabric, .rot, .arbs, .host, .logs, .start, .wearS, .can, .cur, .mail, .wear, .ledger, .served, .ports, .tick] ⊆ ks := by first | assumption | exact sub_of (by assumption) (by decide)) : Kept ks r (railsOff s) := by
  unfold railsOff
  try dsimp only
  repeat' first
    | with_reducible assumption
    | with_reducible apply downState_kept
    | with_reducible refine kept_mk ?_ (by constructor <;> intro hp <;> first | exact absurd (sub_mem hk (by decide)) hp | rfl) (by rfl) (by rfl)

theorem execPresentNRise_kept {ks : List Part} {r out : State} {s : State} (h : Kept ks r s) (he : execPresentNRise s = .next out) (hk : [.mem, .regs, .shadow, .dict, .blobs, .sat, .cat, .banks, .plates, .tiles, .units, .clients, .fabric, .rot, .arbs, .host, .logs, .start, .wearS, .can, .cur, .mail, .wear, .ledger, .served, .ports, .tick] ⊆ ks := by first | assumption | exact sub_of (by assumption) (by decide)) : Kept ks r out := by
  unfold execPresentNRise at he
  refine kept_next he ?_
  clear he
  try dsimp only
  repeat' first
    | with_reducible assumption
    | with_reducible apply railsOff_kept

theorem execProtectiveTrip_kept {ks : List Part} {r out : State} (thermal : Bool) (current : Bool) {s : State} (h : Kept ks r s) (he : execProtectiveTrip thermal current s = .next out) (hk : [.mem, .regs, .shadow, .dict, .blobs, .sat, .cat, .banks, .plates, .tiles, .units, .clients, .fabric, .rot, .arbs, .host, .logs, .start, .wearS, .can, .cur, .mail, .wear, .ledger, .served, .ports, .tick] ⊆ ks := by first | assumption | exact sub_of (by assumption) (by decide)) : Kept ks r out := by
  unfold execProtectiveTrip at he
  refine kept_next he ?_
  clear he
  try dsimp only
  repeat' first
    | with_reducible assumption
    | exact sub_of hk (by decide)
    | with_reducible apply bumpDictW_kept
    | with_reducible apply railsOff_kept
    | with_reducible apply kept_ite
    | with_reducible refine kept_mk ?_ (by constructor <;> intro hp <;> first | exact absurd (sub_mem hk (by decide)) hp | rfl) (by rfl) (by rfl)

theorem execTripRelease_kept {ks : List Part} {r out : State} {s : State} (h : Kept ks r s) (he : execTripRelease s = .next out) (hk : [.start] ⊆ ks := by first | assumption | exact sub_of (by assumption) (by decide)) : Kept ks r out := by
  unfold execTripRelease at he
  refine kept_next he ?_
  clear he
  try dsimp only
  repeat' first
    | with_reducible assumption
    | with_reducible refine kept_mk ?_ (by constructor <;> intro hp <;> first | exact absurd (sub_mem hk (by decide)) hp | rfl) (by rfl) (by rfl)

theorem enterStage_kept {ks : List Part} {r : State} (n : Nat) {s : State} (h : Kept ks r s) (hk : [.dict, .host, .logs] ⊆ ks := by first | assumption | exact sub_of (by assumption) (by decide)) : Kept ks r (enterStage n s) := by
  unfold enterStage
  try dsimp only
  repeat' first
    | with_reducible assumption
    | exact sub_of hk (by decide)
    | with_reducible apply setDict_kept
    | with_reducible apply post_kept
    | with_reducible apply kept_ite

theorem setSpareBanks_kept {ks : List Part} {r : State} (d : Nat) (n : Nat) {s : State} (h : Kept ks r s) (hk : [.dict, .banks] ⊆ ks := by first | assumption | exact sub_of (by assumption) (by decide)) : Kept ks r (setSpareBanks d n s) := by
  unfold setSpareBanks
  try dsimp only
  repeat' first
    | with_reducible assumption
    | exact sub_of hk (by decide)
    | with_reducible apply setDict_kept
    | with_reducible refine kept_mk ?_ (by constructor <;> intro hp <;> first | exact absurd (sub_mem hk (by decide)) hp | rfl) (by rfl) (by rfl)

theorem mapBank_kept {ks : List Part} {r : State} (d : Nat) (frm : Nat) (dst : Nat) {s : State} (h : Kept ks r s) (hk : [.dict, .banks] ⊆ ks := by first | assumption | exact sub_of (by assumption) (by decide)) : Kept ks r (mapBank d frm dst s) := by
  unfold mapBank
  try dsimp only
  repeat' first
    | with_reducible assumption
    | with_reducible apply setSpareBanks_kept
    | split
    | with_reducible refine kept_mk ?_ (by constructor <;> intro hp <;> first | exact absurd (sub_mem hk (by decide)) hp | rfl) (by rfl) (by rfl)

theorem clearEntryBit_kept {ks : List Part} {r : State} (k : Nat) (i : Nat) {s : State} (h : Kept ks r s) (hk : [.dict] ⊆ ks := by first | assumption | exact sub_of (by assumption) (by decide)) : Kept ks r (clearEntryBit k i s) := by
  unfold clearEntryBit
  try dsimp only
  repeat' first
    | with_reducible assumption
    | with_reducible apply setDict_kept

theorem mapTile_kept {ks : List Part} {r : State} (d : Nat) (frm : Nat) (dst : Nat) {s : State} (h : Kept ks r s) (hk : [.dict, .start] ⊆ ks := by first | assumption | exact sub_of (by assumption) (by decide)) : Kept ks r (mapTile d frm dst s) := by
  unfold mapTile
  try dsimp only
  repeat' first
    | with_reducible assumption
    | exact sub_of hk (by decide)
    | with_reducible apply clearEntryBit_kept
    | split
    | with_reducible refine kept_mk ?_ (by constructor <;> intro hp <;> first | exact absurd (sub_mem hk (by decide)) hp | rfl) (by rfl) (by rfl)

theorem mapCore_kept {ks : List Part} {r : State} (d : Nat) (frm : Nat) {s : State} (h : Kept ks r s) (hk : [.dict, .start] ⊆ ks := by first | assumption | exact sub_of (by assumption) (by decide)) : Kept ks r (mapCore d frm s) := by
  unfold mapCore
  try dsimp only
  repeat' first
    | with_reducible assumption
    | exact sub_of hk (by decide)
    | with_reducible apply clearEntryBit_kept
    | with_reducible refine kept_mk ?_ (by constructor <;> intro hp <;> first | exact absurd (sub_mem hk (by decide)) hp | rfl) (by rfl) (by rfl)

theorem useStackSpare_kept {ks : List Part} {r : State} (i : Nat) {s : State} (h : Kept ks r s) (hk : [.regs, .dict] ⊆ ks := by first | assumption | exact sub_of (by assumption) (by decide)) : Kept ks r (useStackSpare i s) := by
  unfold useStackSpare
  try dsimp only
  repeat' first
    | with_reducible assumption
    | exact sub_of hk (by decide)
    | with_reducible apply setDict_kept
    | with_reducible apply setBit_kept

theorem applyErrata_kept {ks : List Part} {r : State} {s : State} (r0 : Errata) (h : Kept ks r s) (hk : [.regs, .dict, .banks, .start, .wearS] ⊆ ks := by first | assumption | exact sub_of (by assumption) (by decide)) : Kept ks r (applyErrata s r0) := by
  unfold applyErrata
  try dsimp only
  repeat' first
    | with_reducible assumption
    | exact sub_of hk (by decide)
    | with_reducible apply mapTile_kept
    | with_reducible apply mapBank_kept
    | with_reducible apply useStackSpare_kept
    | with_reducible apply setReg_kept
    | with_reducible apply mapCore_kept
    | split
    | with_reducible refine kept_mk ?_ (by constructor <;> intro hp <;> first | exact absurd (sub_mem hk (by decide)) hp | rfl) (by rfl) (by rfl)

theorem loadErrata_kept {ks : List Part} {r : State} (mapBad : Bool) {s : State} (h : Kept ks r s) (hk : [.regs, .dict, .banks, .start, .wearS] ⊆ ks := by first | assumption | exact sub_of (by assumption) (by decide)) : Kept ks r (loadErrata mapBad s) := by
  unfold loadErrata
  try dsimp only
  repeat' first
    | with_reducible assumption
    | exact sub_of hk (by decide)
    | intro _
    | with_reducible apply setErrata_kept
    | with_reducible apply applyErrata_kept
    | with_reducible apply kept_ite
    | with_reducible apply kept_foldl

theorem loadFuses_kept {ks : List Part} {r : State} {s : State} (h : Kept ks r s) (hk : [.dict] ⊆ ks := by first | assumption | exact sub_of (by assumption) (by decide)) : Kept ks r (loadFuses s) := by
  unfold loadFuses
  try dsimp only
  repeat' first
    | with_reducible assumption
    | intro _
    | with_reducible apply setDict_kept
    | with_reducible apply kept_foldl

theorem retireBank_kept {ks : List Part} {r : State} {s : State} (x : DieId × Nat) (h : Kept ks r s) (hk : [.dict, .sat, .banks, .host, .logs, .wearS] ⊆ ks := by first | assumption | exact sub_of (by assumption) (by decide)) : Kept ks r (retireBank s x) := by
  unfold retireBank
  try dsimp only
  repeat' first
    | with_reducible assumption
    | exact sub_of hk (by decide)
    | with_reducible apply noSpare_kept
    | with_reducible apply recordSwap_kept
    | with_reducible apply mapBank_kept
    | with_reducible apply kept_ite
    | split

theorem zeroFolio_kept {ks : List Part} {r s : State} (h : Kept ks r s) (hk : [.mem] ⊆ ks := by first | assumption | exact sub_of (by assumption) (by decide)) : Kept ks r (zeroFolio s) :=
  kept_mk_mem h (by constructor <;> intro hp <;> first | exact absurd (sub_mem hk (by decide)) hp | rfl) (fun hm => Memory.wf_mk (mwf_mdrop _ (Memory.cells_wf hm)) (mwf_mdrop _ (Memory.synd_wf hm)) (rfl)) rfl rfl

theorem takeNodeId_kept {ks : List Part} {r : State} (strap : BitVec 7) {s : State} (h : Kept ks r s) (hk : [.dict] ⊆ ks := by first | assumption | exact sub_of (by assumption) (by decide)) : Kept ks r (takeNodeId strap s) := by
  unfold takeNodeId
  try dsimp only
  repeat' first
    | with_reducible assumption
    | with_reducible apply setDict_kept
    | with_reducible apply kept_ite

theorem trainPcie_kept {ks : List Part} {r : State} (speed : Nat) (width : Nat) {s : State} (h : Kept ks r s) (hk : [.dict, .host, .logs] ⊆ ks := by first | assumption | exact sub_of (by assumption) (by decide)) : Kept ks r (trainPcie speed width s) := by
  unfold trainPcie
  try dsimp only
  repeat' first
    | with_reducible assumption
    | exact sub_of hk (by decide)
    | with_reducible apply setDict_kept
    | with_reducible apply post_kept
    | with_reducible apply kept_ite

theorem tellTrip_kept {ks : List Part} {r : State} {s : State} (h : Kept ks r s) (hk : [.host, .logs, .start] ⊆ ks := by first | assumption | exact sub_of (by assumption) (by decide)) : Kept ks r (tellTrip s) := by
  unfold tellTrip
  try dsimp only
  repeat' first
    | with_reducible assumption
    | exact sub_of hk (by decide)
    | with_reducible apply postEvent_kept
    | split
    | with_reducible refine kept_mk ?_ (by constructor <;> intro hp <;> first | exact absurd (sub_mem hk (by decide)) hp | rfl) (by rfl) (by rfl)

theorem reloadSaved_kept {ks : List Part} {r : State} (cold : Bool) {s : State} (h : Kept ks r s) (hk : [.dict] ⊆ ks := by first | assumption | exact sub_of (by assumption) (by decide)) : Kept ks r (reloadSaved cold s) := by
  unfold reloadSaved
  try dsimp only
  repeat' first
    | with_reducible assumption
    | intro _
    | with_reducible apply setDict_kept
    | with_reducible apply kept_ite
    | with_reducible apply kept_foldl

theorem sketchWork_kept {ks : List Part} {r : State} (m : SketchIn) {s : State} (h : Kept ks r s) (hk : [.mem, .regs, .dict, .sat, .cat, .banks, .host, .logs, .start, .wearS] ⊆ ks := by first | assumption | exact sub_of (by assumption) (by decide)) : Kept ks r (sketchWork m s) := by
  unfold sketchWork
  try dsimp only
  repeat' first
    | with_reducible assumption
    | exact sub_of hk (by decide)
    | intro _
    | with_reducible apply takeNodeId_kept
    | with_reducible apply reloadSaved_kept
    | with_reducible apply loadErrata_kept
    | with_reducible apply loadFuses_kept
    | with_reducible apply trainPcie_kept
    | with_reducible apply tellTrip_kept
    | with_reducible apply enterStage_kept
    | with_reducible apply zeroFolio_kept
    | with_reducible apply retireBank_kept
    | with_reducible apply stageFault_kept
    | with_reducible apply kept_ite
    | with_reducible apply kept_foldl
    | with_reducible refine kept_mk ?_ (by constructor <;> intro hp <;> first | exact absurd (sub_mem hk (by decide)) hp | rfl) (by rfl) (by rfl)

theorem execSketchEntry_kept {ks : List Part} {r out : State} (m : SketchIn) {s : State} (h : Kept ks r s) (he : execSketchEntry m s = .next out) (hk : [.mem, .regs, .dict, .sat, .cat, .banks, .host, .logs, .start, .wearS] ⊆ ks := by first | assumption | exact sub_of (by assumption) (by decide)) : Kept ks r out := by
  unfold execSketchEntry at he
  refine kept_next he ?_
  clear he
  try dsimp only
  repeat' first
    | with_reducible assumption
    | with_reducible apply sketchWork_kept
    | with_reducible apply kept_ite

theorem bootSlot_kept {ks : List Part} {r : State} (k : Nat) (fallback : Bool) {s : State} (h : Kept ks r s) (hk : [.dict, .sat, .host, .logs, .start] ⊆ ks := by first | assumption | exact sub_of (by assumption) (by decide)) : Kept ks r (bootSlot k fallback s) := by
  unfold bootSlot
  try dsimp only
  repeat' first
    | with_reducible assumption
    | exact sub_of hk (by decide)
    | with_reducible apply setDict_kept
    | with_reducible apply post_kept
    | with_reducible apply bumpDictW_kept
    | with_reducible apply kept_ite
    | with_reducible refine kept_mk ?_ (by constructor <;> intro hp <;> first | exact absurd (sub_mem hk (by decide)) hp | rfl) (by rfl) (by rfl)

theorem execBootVerify_kept {ks : List Part} {r out : State} {s : State} (h : Kept ks r s) (he : execBootVerify s = .next out) (hk : [.dict, .sat, .host, .logs, .start] ⊆ ks := by first | assumption | exact sub_of (by assumption) (by decide)) : Kept ks r out := by
  unfold execBootVerify at he
  refine kept_next he ?_
  clear he
  try dsimp only
  repeat' first
    | with_reducible assumption
    | exact sub_of hk (by decide)
    | with_reducible apply bootSlot_kept
    | with_reducible apply stageFault_kept
    | with_reducible apply enterStage_kept
    | with_reducible apply kept_ite

theorem fwData_kept {ks : List Part} {r : State} (bs : List Byte) {s : State} (h : Kept ks r s) (hk : [.dict, .start] ⊆ ks := by first | assumption | exact sub_of (by assumption) (by decide)) : Kept ks r (fwData bs s).2 := by
  unfold fwData
  try dsimp only
  repeat' first
    | with_reducible assumption
    | exact sub_of hk (by decide)
    | with_reducible apply setDict_kept
    | split
    | with_reducible refine kept_mk ?_ (by constructor <;> intro hp <;> first | exact absurd (sub_mem hk (by decide)) hp | rfl) (by rfl) (by rfl)

theorem fwCommit_kept {ks : List Part} {r : State} {s : State} (h : Kept ks r s) (hk : [.dict, .start] ⊆ ks := by first | assumption | exact sub_of (by assumption) (by decide)) : Kept ks r (fwCommit s).2 := by
  unfold fwCommit
  try dsimp only
  repeat' first
    | with_reducible assumption
    | exact sub_of hk (by decide)
    | with_reducible apply setDict_kept
    | split
    | dsimp only
    | with_reducible refine kept_mk ?_ (by constructor <;> intro hp <;> first | exact absurd (sub_mem hk (by decide)) hp | rfl) (by rfl) (by rfl)

theorem cfgSave_kept {ks : List Part} {r : State} {s : State} (h : Kept ks r s) (hk : [.start] ⊆ ks := by first | assumption | exact sub_of (by assumption) (by decide)) : Kept ks r (cfgSave s) := by
  unfold cfgSave
  try dsimp only
  repeat' first
    | with_reducible assumption
    | with_reducible refine kept_mk ?_ (by constructor <;> intro hp <;> first | exact absurd (sub_mem hk (by decide)) hp | rfl) (by rfl) (by rfl)

theorem execFwUpdData_kept {ks : List Part} {r out : State} (data : List Byte) {s : State} (h : Kept ks r s) (he : execFwUpdData data s = .next out) (hk : [.dict, .start] ⊆ ks := by first | assumption | exact sub_of (by assumption) (by decide)) : Kept ks r out := by
  unfold execFwUpdData at he
  refine kept_next he ?_
  clear he
  try dsimp only
  repeat' first
    | with_reducible assumption
    | with_reducible apply fwData_kept

theorem execFwUpdCommit_kept {ks : List Part} {r out : State} {s : State} (h : Kept ks r s) (he : execFwUpdCommit s = .next out) (hk : [.dict, .start] ⊆ ks := by first | assumption | exact sub_of (by assumption) (by decide)) : Kept ks r out := by
  unfold execFwUpdCommit at he
  refine kept_next he ?_
  clear he
  try dsimp only
  repeat' first
    | with_reducible assumption
    | with_reducible apply fwCommit_kept

theorem execCfgSave_kept {ks : List Part} {r out : State} {s : State} (h : Kept ks r s) (he : execCfgSave s = .next out) (hk : [.start] ⊆ ks := by first | assumption | exact sub_of (by assumption) (by decide)) : Kept ks r out := by
  unfold execCfgSave at he
  refine kept_next he ?_
  clear he
  try dsimp only
  repeat' first
    | with_reducible assumption
    | with_reducible apply cfgSave_kept

theorem execProofEntry_kept {ks : List Part} {r out : State} {s : State} (h : Kept ks r s) (he : execProofEntry s = .next out) (hk : [.dict, .host, .logs, .start] ⊆ ks := by first | assumption | exact sub_of (by assumption) (by decide)) : Kept ks r out := by
  unfold execProofEntry at he
  refine kept_next he ?_
  clear he
  try dsimp only
  repeat' first
    | with_reducible assumption
    | exact sub_of hk (by decide)
    | with_reducible apply setDict_kept
    | with_reducible apply enterStage_kept
    | with_reducible apply kept_ite
    | with_reducible refine kept_mk ?_ (by constructor <;> intro hp <;> first | exact absurd (sub_mem hk (by decide)) hp | rfl) (by rfl) (by rfl)

theorem tasksDone_kept {ks : List Part} {r : State} (n : Nat) {s : State} (h : Kept ks r s) (hk : [.dict] ⊆ ks := by first | assumption | exact sub_of (by assumption) (by decide)) : Kept ks r (tasksDone n s) := by
  unfold tasksDone
  try dsimp only
  repeat' first
    | with_reducible assumption
    | with_reducible apply setDict_kept

theorem repairRows_kept {ks : List Part} {r : State} (i : Nat) {s : State} (h : Kept ks r s) (hk : [.dict, .sat, .host, .logs, .wearS] ⊆ ks := by first | assumption | exact sub_of (by assumption) (by decide)) : Kept ks r (repairRows i s) := by
  unfold repairRows
  try dsimp only
  repeat' first
    | with_reducible assumption
    | intro _
    | with_reducible apply recordSwap_kept
    | with_reducible apply kept_foldl
    | with_reducible refine kept_mk ?_ (by constructor <;> intro hp <;> first | exact absurd (sub_mem hk (by decide)) hp | rfl) (by rfl) (by rfl)

theorem stackUp_kept {ks : List Part} {r : State} (i : Nat) {s : State} (h : Kept ks r s) (hk : [.mem, .regs, .dict] ⊆ ks := by first | assumption | exact sub_of (by assumption) (by decide)) : Kept ks r (stackUp i s) :=
  setDict_kept _ _ (setReg_kept _ _ (kept_mk_mem h (by constructor <;> intro hp <;> first | exact absurd (sub_mem hk (by decide)) hp | rfl) (fun hm => Memory.wf_mk (mwf_mdrop _ (Memory.cells_wf hm)) (mwf_mdrop _ (Memory.synd_wf hm)) (Memory.owner_wf hm)) rfl rfl))

theorem execStackTraining_kept {ks : List Part} {r out : State} (i : StackId) (ok : Bool) {s : State} (h : Kept ks r s) (he : execStackTraining i ok s = .next out) (hk : [.mem, .regs, .dict, .sat, .clients, .host, .logs, .wearS] ⊆ ks := by first | assumption | exact sub_of (by assumption) (by decide)) : Kept ks r out := by
  unfold execStackTraining at he
  refine kept_next he ?_
  clear he
  try dsimp only
  repeat' first
    | with_reducible assumption
    | exact sub_of hk (by decide)
    | with_reducible apply tasksDone_kept
    | with_reducible apply repairRows_kept
    | with_reducible apply stackUp_kept
    | with_reducible apply failStack_kept
    | with_reducible apply kept_ite

theorem repairLines_kept {ks : List Part} {r : State} (kind : Nat) (d : Nat) (cause : Nat) (passed : BitVec 17) (l : List (Nat × Nat)) {s : State} (h : Kept ks r s) (hk : [.dict, .sat, .host, .logs, .wearS] ⊆ ks := by first | assumption | exact sub_of (by assumption) (by decide)) : Kept ks r (repairLines kind d cause passed l s) := by
  unfold repairLines
  try dsimp only
  repeat' first
    | with_reducible assumption
    | intro _
    | with_reducible apply recordSwap_kept
    | with_reducible apply kept_ite
    | with_reducible apply kept_foldl

theorem replaceTile_kept {ks : List Part} {r : State} (d : Nat) (passed : BitVec 17) {s : State} (t : Nat) (h : Kept ks r s) (hk : [.dict, .sat, .host, .logs, .start, .wearS] ⊆ ks := by first | assumption | exact sub_of (by assumption) (by decide)) : Kept ks r (replaceTile d passed s t) := by
  unfold replaceTile
  try dsimp only
  repeat' first
    | with_reducible assumption
    | exact sub_of hk (by decide)
    | with_reducible apply recordSwap_kept
    | with_reducible apply mapTile_kept
    | with_reducible apply noSpare_kept
    | with_reducible apply kept_ite

theorem execArraySelfTest_kept {ks : List Part} {r out : State} (d : DieId) (m : SelfTestIn) {s : State} (h : Kept ks r s) (he : execArraySelfTest d m s = .next out) (hk : [.dict, .sat, .host, .logs, .start, .wearS] ⊆ ks := by first | assumption | exact sub_of (by assumption) (by decide)) : Kept ks r out := by
  unfold execArraySelfTest at he
  refine kept_next he ?_
  clear he
  try dsimp only
  repeat' first
    | with_reducible assumption
    | exact sub_of hk (by decide)
    | intro _
    | with_reducible apply repairLines_kept
    | with_reducible apply replaceTile_kept
    | with_reducible apply clearEntryBit_kept
    | with_reducible apply setDict_kept
    | with_reducible apply tasksDone_kept
    | with_reducible apply post_kept
    | with_reducible apply stageFault_kept
    | with_reducible apply kept_ite
    | with_reducible apply kept_foldl
    | split
    | with_reducible refine kept_mk ?_ (by constructor <;> intro hp <;> first | exact absurd (sub_mem hk (by decide)) hp | rfl) (by rfl) (by rfl)

theorem trainPort_kept {ks : List Part} {r : State} (p : Nat) (m : TrainIn) {s : State} (h : Kept ks r s) (hk : [.regs, .dict, .sat, .host, .logs, .wearS] ⊆ ks := by first | assumption | exact sub_of (by assumption) (by decide)) : Kept ks r (trainPort p m s) := by
  unfold trainPort
  try dsimp only
  repeat' first
    | with_reducible assumption
    | exact sub_of hk (by decide)
    | with_reducible apply setReg_kept
    | with_reducible apply setPortState_kept
    | with_reducible apply recordSwap_kept
    | with_reducible apply kept_ite
    | split

theorem execLinkTraining_kept {ks : List Part} {r out : State} (p : PortId) (m : TrainIn) {s : State} (h : Kept ks r s) (he : execLinkTraining p m s = .next out) (hk : [.regs, .dict, .sat, .fabric, .host, .logs, .wearS] ⊆ ks := by first | assumption | exact sub_of (by assumption) (by decide)) : Kept ks r out := by
  unfold execLinkTraining at he
  refine kept_next he ?_
  clear he
  try dsimp only
  repeat' first
    | with_reducible assumption
    | exact sub_of hk (by decide)
    | with_reducible apply joinTree_kept
    | with_reducible apply trainPort_kept
    | with_reducible apply tasksDone_kept
    | with_reducible apply kept_ite

theorem execRegistrarCheck_kept {ks : List Part} {r out : State} (d : DieId) (bad : List (Fin 5)) {s : State} (h : Kept ks r s) (he : execRegistrarCheck d bad s = .next out) (hk : [.dict, .sat, .host, .logs, .start, .wearS, .free] ⊆ ks := by first | assumption | exact sub_of (by assumption) (by decide)) : Kept ks r out := by
  unfold execRegistrarCheck at he
  refine kept_next he ?_
  clear he
  try dsimp only
  repeat' first
    | with_reducible assumption
    | exact sub_of hk (by decide)
    | with_reducible apply clearEntryBit_kept
    | with_reducible apply recordSwap_kept
    | with_reducible apply mapCore_kept
    | with_reducible apply fresh_kept
    | with_reducible apply noSpare_kept
    | with_reducible apply stageFault_kept
    | with_reducible apply kept_ite
    | split
    | with_reducible refine kept_mk ?_ (by constructor <;> intro hp <;> first | exact absurd (sub_mem hk (by decide)) hp | rfl) (by rfl) (by rfl)

theorem execEditionEntry_kept {ks : List Part} {r out : State} {s : State} (h : Kept ks r s) (he : execEditionEntry s = .next out) (hk : [.dict, .host, .logs, .start] ⊆ ks := by first | assumption | exact sub_of (by assumption) (by decide)) : Kept ks r out := by
  unfold execEditionEntry at he
  refine kept_next he ?_
  clear he
  try dsimp only
  repeat' first
    | with_reducible assumption
    | exact sub_of hk (by decide)
    | with_reducible apply setDict_kept
    | with_reducible apply enterStage_kept
    | with_reducible apply kept_ite
    | with_reducible refine kept_mk ?_ (by constructor <;> intro hp <;> first | exact absurd (sub_mem hk (by decide)) hp | rfl) (by rfl) (by rfl)

theorem execStageTimeout_kept {ks : List Part} {r out : State} {s : State} (h : Kept ks r s) (he : execStageTimeout s = .next out) (hk : [.dict, .host, .logs] ⊆ ks := by first | assumption | exact sub_of (by assumption) (by decide)) : Kept ks r out := by
  unfold execStageTimeout at he
  refine kept_next he ?_
  clear he
  try dsimp only
  repeat' first
    | with_reducible assumption
    | with_reducible apply stageFault_kept
    | with_reducible apply kept_ite

theorem coldReset_kept {ks : List Part} {r : State} {s : State} (h : Kept ks r s) (hk : [.mem, .regs, .shadow, .dict, .blobs, .sat, .cat, .banks, .plates, .tiles, .units, .clients, .fabric, .rot, .arbs, .host, .logs, .start, .wearS, .can, .cur, .mail, .wear, .ledger, .served, .ports, .tick] ⊆ ks := by first | assumption | exact sub_of (by assumption) (by decide)) : Kept ks r (coldReset s) := by
  unfold coldReset
  try dsimp only
  repeat' first
    | with_reducible assumption
    | exact sub_of hk (by decide)
    | intro _
    | with_reducible apply askReset_kept
    | with_reducible apply noteReset_kept
    | with_reducible apply downState_kept

theorem execColdReset_kept {ks : List Part} {r out : State} {s : State} (h : Kept ks r s) (he : execColdReset s = .next out) (hk : [.mem, .regs, .shadow, .dict, .blobs, .sat, .cat, .banks, .plates, .tiles, .units, .clients, .fabric, .rot, .arbs, .host, .logs, .start, .wearS, .can, .cur, .mail, .wear, .ledger, .served, .ports, .tick] ⊆ ks := by first | assumption | exact sub_of (by assumption) (by decide)) : Kept ks r out := by
  unfold execColdReset at he
  refine kept_next he ?_
  clear he
  try dsimp only
  repeat' first
    | with_reducible assumption
    | with_reducible apply coldReset_kept

theorem execResetReqCold_kept {ks : List Part} {r out : State} {s : State} (h : Kept ks r s) (he : execResetReqCold s = .next out) (hk : [.mem, .regs, .shadow, .dict, .blobs, .sat, .cat, .banks, .plates, .tiles, .units, .clients, .fabric, .rot, .arbs, .host, .logs, .start, .wearS, .can, .cur, .mail, .wear, .ledger, .served, .ports, .tick] ⊆ ks := by first | assumption | exact sub_of (by assumption) (by decide)) : Kept ks r out := by
  unfold execResetReqCold at he
  refine kept_next he ?_
  clear he
  try dsimp only
  repeat' first
    | with_reducible assumption
    | with_reducible apply coldReset_kept

theorem clearStaging_kept {ks : List Part} {r : State} (d : DieId) {s : State} (h : Kept ks r s) (hk : [.cat, .clients] ⊆ ks := by first | assumption | exact sub_of (by assumption) (by decide)) : Kept ks r (clearStaging d s) := by
  unfold clearStaging
  try dsimp only
  repeat' first
    | with_reducible assumption
    | exact sub_of hk (by decide)
    | intro _
    | with_reducible apply updStep_kept
    | with_reducible apply kept_foldl
    | with_reducible refine kept_mk ?_ (by constructor <;> intro hp <;> first | exact absurd (sub_mem hk (by decide)) hp | rfl) (by rfl) (by rfl)

theorem coreReset_kept {ks : List Part} {r : State} (d : Nat) (core : Nat) {s : State} (h : Kept ks r s) (hk : [.dict, .sat, .cat, .plates, .tiles, .units, .clients, .fabric, .host, .logs, .start, .wearS, .cur, .free] ⊆ ks := by first | assumption | exact sub_of (by assumption) (by decide)) : Kept ks r (coreReset d core s) := by
  unfold coreReset
  try dsimp only
  repeat' first
    | with_reducible assumption
    | exact sub_of hk (by decide)
    | intro _
    | with_reducible apply clearStaging_kept
    | with_reducible apply abortStep_kept
    | with_reducible apply bumpEpochs_kept
    | with_reducible apply setDict_kept
    | with_reducible apply doneSwap_kept
    | with_reducible apply mapCore_kept
    | with_reducible apply noteReset_kept
    | with_reducible apply kept_ite
    | with_reducible apply kept_foldl
    | split
    | with_reducible refine kept_mk ?_ (by constructor <;> intro hp <;> first | exact absurd (sub_mem hk (by decide)) hp | rfl) (by rfl) (by rfl)

theorem execCoreReset_kept {ks : List Part} {r out : State} (d : DieId) (core : Fin 4) (_watchdog : Bool) {s : State} (h : Kept ks r s) (he : execCoreReset d core _watchdog s = .next out) (hk : [.dict, .sat, .cat, .plates, .tiles, .units, .clients, .fabric, .host, .logs, .start, .wearS, .cur, .free] ⊆ ks := by first | assumption | exact sub_of (by assumption) (by decide)) : Kept ks r out := by
  unfold execCoreReset at he
  refine kept_next he ?_
  clear he
  try dsimp only
  repeat' first
    | with_reducible assumption
    | exact sub_of hk (by decide)
    | intro _
    | with_reducible apply askReset_kept
    | with_reducible apply coreReset_kept
    | with_reducible apply kept_ite

theorem tileReset_kept {ks : List Part} {r : State} (t : TileId) {s : State} (h : Kept ks r s) (hk : [.dict, .sat, .cat, .plates, .tiles, .units, .clients, .fabric, .host, .logs, .free] ⊆ ks := by first | assumption | exact sub_of (by assumption) (by decide)) : Kept ks r (tileReset t s) := by
  unfold tileReset
  try dsimp only
  repeat' first
    | with_reducible assumption
    | exact sub_of hk (by decide)
    | intro _
    | with_reducible apply clearStaging_kept
    | with_reducible apply abortStep_kept
    | with_reducible apply bumpEpochs_kept
    | with_reducible apply setTile_kept
    | with_reducible apply noteReset_kept
    | with_reducible apply kept_foldl
    | split

theorem execTileReset_kept {ks : List Part} {r out : State} (t : TileId) {s : State} (h : Kept ks r s) (he : execTileReset t s = .next out) (hk : [.dict, .sat, .cat, .plates, .tiles, .units, .clients, .fabric, .host, .logs, .free] ⊆ ks := by first | assumption | exact sub_of (by assumption) (by decide)) : Kept ks r out := by
  unfold execTileReset at he
  refine kept_next he ?_
  clear he
  try dsimp only
  repeat' first
    | with_reducible assumption
    | exact sub_of hk (by decide)
    | intro _
    | with_reducible apply askReset_kept
    | with_reducible apply tileReset_kept
    | with_reducible apply kept_ite

theorem requestTest_kept {ks : List Part} {r : State} {s : State} (h : Kept ks r s) (hk : [.dict, .host, .logs, .start] ⊆ ks := by first | assumption | exact sub_of (by assumption) (by decide)) : Kept ks r (requestTest s).2 := by
  unfold requestTest
  try dsimp only
  repeat' first
    | with_reducible assumption
    | exact sub_of hk (by decide)
    | with_reducible apply setDict_kept
    | with_reducible apply enterStage_kept
    | split
    | with_reducible refine kept_mk ?_ (by constructor <;> intro hp <;> first | exact absurd (sub_mem hk (by decide)) hp | rfl) (by rfl) (by rfl)

theorem execResetReqSelftest_kept {ks : List Part} {r out : State} {s : State} (h : Kept ks r s) (he : execResetReqSelftest s = .next out) (hk : [.dict, .host, .logs, .start] ⊆ ks := by first | assumption | exact sub_of (by assumption) (by decide)) : Kept ks r out := by
  unfold execResetReqSelftest at he
  refine kept_next he ?_
  clear he
  try dsimp only
  repeat' first
    | with_reducible assumption
    | with_reducible apply requestTest_kept

theorem clearBar0_kept {ks : List Part} {r : State} {s : State} (h : Kept ks r s) (hk : [.regs, .host, .mail] ⊆ ks := by first | assumption | exact sub_of (by assumption) (by decide)) : Kept ks r (clearBar0 s) := by
  unfold clearBar0
  try dsimp only
  repeat' first
    | with_reducible assumption
    | with_reducible refine kept_mk ?_ (by constructor <;> intro hp <;> first | exact absurd (sub_mem hk (by decide)) hp | rfl) (by rfl) (by rfl)

theorem hostReset_kept {ks : List Part} {r : State} {s : State} (h : Kept ks r s) (hk : [.mem, .regs, .dict, .sat, .cat, .plates, .tiles, .units, .clients, .fabric, .rot, .host, .logs, .mail, .free] ⊆ ks := by first | assumption | exact sub_of (by assumption) (by decide)) : Kept ks r (hostReset s) := by
  unfold hostReset
  try dsimp only
  repeat' first
    | with_reducible assumption
    | exact sub_of hk (by decide)
    | intro _
    | with_reducible apply abortStep_kept
    | with_reducible apply evictClient_kept
    | with_reducible apply bumpEpochs_kept
    | with_reducible apply noteReset_kept
    | with_reducible apply clearBar0_kept
    | with_reducible apply kept_foldl
    | with_reducible refine kept_mk ?_ (by constructor <;> intro hp <;> first | exact absurd (sub_mem hk (by decide)) hp | rfl) (by rfl) (by rfl)

theorem execFunctionLevelReset_kept {ks : List Part} {r out : State} {s : State} (h : Kept ks r s) (he : execFunctionLevelReset s = .next out) (hk : [.mem, .regs, .dict, .sat, .cat, .plates, .tiles, .units, .clients, .fabric, .rot, .host, .logs, .mail, .free] ⊆ ks := by first | assumption | exact sub_of (by assumption) (by decide)) : Kept ks r out := by
  unfold execFunctionLevelReset at he
  refine kept_next he ?_
  clear he
  try dsimp only
  repeat' first
    | with_reducible assumption
    | exact sub_of hk (by decide)
    | intro _
    | with_reducible apply askReset_kept
    | with_reducible apply hostReset_kept

theorem execPcieFundamentalReset_kept {ks : List Part} {r out : State} {s : State} (h : Kept ks r s) (he : execPcieFundamentalReset s = .next out) (hk : [.mem, .regs, .dict, .sat, .cat, .plates, .tiles, .units, .clients, .fabric, .rot, .host, .logs, .mail, .free] ⊆ ks := by first | assumption | exact sub_of (by assumption) (by decide)) : Kept ks r out := by
  unfold execPcieFundamentalReset at he
  refine kept_next he ?_
  clear he
  try dsimp only
  repeat' first
    | with_reducible assumption
    | exact sub_of hk (by decide)
    | intro _
    | with_reducible apply askReset_kept
    | with_reducible apply hostReset_kept

end Sys2Proof.Machine
end

