-- ==== Sys2Proof/Laws/Resets.lean ====
section
/-! SUPPORT. The host's side under posted events; resets: what a power-on or a cold reset leaves, and how a reset asked for is absorbed (R399 to R401). -/

set_option Elab.async false

namespace Sys2Proof.Machine

theorem keep_mget {α : Type} (d : α) (m : SMap α) (ks : List Nat) (k : Nat) :
    mget d (keepKeys m ks) k = if k ∈ ks then mget d m k else d := by
  unfold keepKeys
  induction m with
  | nil => simp [mget]
  | cons e m ih =>
    obtain ⟨k', v⟩ := e
    by_cases hk : k' ∈ ks
    · rw [List.filter_cons_of_pos (by simpa using hk)]
      simp only [mget]
      by_cases h : k = k'
      · subst h; simp [hk]
      · simp only [h, if_false]; exact ih
    · rw [List.filter_cons_of_neg (by simpa using hk), ih]
      simp only [mget]
      by_cases h : k = k'
      · subst h; simp [hk]
      · simp only [h, if_false]

theorem downState_dict (power : Bool) (s : State) (k : Nat) : getDict (downState power s) k =
    if k ∈ (if power then lastingEntries else lastingEntries ++ groundEntries) then getDict s k else dictDefault k := by
  unfold getDict
  exact keep_mget _ _ _ _

theorem HostKept.of_host {s n : State} (h : n.host = s.host) : HostKept s n := by unfold HostKept; rw [h]

theorem post_hostKept (k c d : Nat) (s : State) : HostKept s (post k c d s) := rfl

theorem HostKept.trans {r s t : State} (h : HostKept r s) (k : HostKept s t) : HostKept r t := by
  unfold HostKept at *
  rw [k, h]

theorem stickDict_hostKept (i j : Nat) (s : State) : HostKept s (stickDict i j s) := by
  unfold stickDict
  split
  · exact HostKept.of_host rfl
  · exact (HostKept.of_host rfl).trans (post_hostKept _ _ _ _)

theorem bumpDictW_hostKept (w k n : Nat) (s : State) : HostKept s (bumpDictW w k n s) := by
  unfold bumpDictW
  dsimp only
  split
  · exact HostKept.of_host rfl
  · exact (HostKept.of_host rfl).trans (stickDict_hostKept _ _ _)

theorem HostKept.mem {s n : State} (h : HostKept s n) : n.host.mem = s.host.mem := by
  unfold HostKept at h; rw [h]
theorem HostKept.fetched {s n : State} (h : HostKept s n) : n.host.fetched = s.host.fetched := by
  unfold HostKept at h; rw [h]

theorem downState_stage (power : Bool) (s : State) : stageOf (downState power s) = 1 := by
  unfold stageOf
  rw [downState_dict, if_neg (by cases power <;> decide)]
  decide

theorem askReset_go {kind : Nat} {f : State → State} {s : State} (hr : s.start.rails = true)
    (hn : ¬ (s.start.resetNow ≠ 0 ∧ s.start.resetNow ≤ kind)) : askReset kind f s = f s := by
  unfold askReset
  rw [if_neg (by simp [hr]), if_neg hn]

theorem askReset_absorbed {kind : Nat} {f : State → State} {s : State} (hr : s.start.rails = true)
    (h0 : s.start.resetNow ≠ 0) (hk : s.start.resetNow ≤ kind) :
    askReset kind f s = bumpDictW 32 (dkey 0x2000 0x09) 1 s := by
  unfold askReset
  rw [if_neg (by simp [hr]), if_pos ⟨h0, hk⟩]

theorem askReset_off {kind : Nat} {f : State → State} {s : State} (hr : s.start.rails = false) : askReset kind f s = s := by
  unfold askReset
  rw [if_pos (by simp [hr])]

theorem noteReset_dict (kind k : Nat) (s : State) : getDict (noteReset kind s) k =
    if k = dkey 0x2000 0x09 then countUp 32 (getDict s k) 1
    else if k = dkey 0x2000 0x08 then BitVec.ofNat 64 kind else getDict s k := by
  unfold noteReset
  have h98 : dkey 0x2000 0x09 ≠ dkey 0x2000 0x08 := by decide
  rw [bumpDictW_getDict]
  generalize dkey 0x2000 0x09 = a at h98 ⊢
  generalize dkey 0x2000 0x08 = b at h98 ⊢
  rw [getDict_setDict, getDict_setDict, if_neg h98]
  by_cases hk : k = a
  · subst hk; simp [countUp]
  · simp [hk]

theorem bumpEpochs_epochs (l : List Nat) (s : State) :
    (bumpEpochs l s).cat.epochs = l.foldl (fun m i => mupd 0 m i (· + 1)) s.cat.epochs := rfl

theorem downState_epochs (s : State) :
    (downState false s).cat.epochs = allIds.foldl (fun m i => mupd 0 m i (· + 1)) s.cat.epochs := by
  rw [← bumpEpochs_epochs]
  generalize h : (bumpEpochs allIds s).cat.epochs = x
  simp only [downState, Bool.false_eq_true, if_false, h]

end Sys2Proof.Machine
end

