-- ==== Sys2Proof/Laws/Time.lean ====
section
/-! SUPPORT. The tick across modules: control messages, the timing tree, the lock state (R276, R277). -/

set_option Elab.async false

namespace Sys2Proof.Machine

theorem sendCtl_only (p : Nat) (m : Word × Word) (s : State) : Only [.fabric] s (sendCtl p m s) := setPort_only _ _ s

theorem sendCtl_getPort (p q : Nat) (m : Word × Word) (s : State) :
    getPort (sendCtl p m s) q = if q = p then { getPort s p with ctl := (getPort s p).ctl ++ [m] } else getPort s q := by
  unfold sendCtl; rw [getPort_setPort]

theorem openMsg_spec (k : Nat) (s : State) (hk : k < 256) : fld (openMsg k s).1.1 0 8 = k ∧
    Only [.free] s (openMsg k s).2 := by
  refine ⟨?_, only_free _ s⟩
  unfold openMsg
  dsimp only
  rw [fld_setFld_low _ _ _ (by omega)]
  exact Nat.mod_eq_of_lt hk

theorem faultAll_spec (cs : List Nat) (c d : Nat) (s : State) : Only [.dict, .sat, .host, .logs, .clients] s (faultAll cs c d s) ∧
    ∀ j, j ≠ dkey 0x5000 0x16 → getDict (faultAll cs c d s) j = getDict s j := by
  unfold faultAll
  dsimp only
  have h1 : Only [.dict, .sat, .host, .logs, .clients] s (bumpDict (dkey 0x5000 0x16) 1 s) := (bumpDict_only _ _ _).mono (by decide)
  have h2 : ∀ j, j ≠ dkey 0x5000 0x16 → getDict (bumpDict (dkey 0x5000 0x16) 1 s) j = getDict s j := by
    intro j hj; rw [bumpDict_getDict, if_neg hj]
  generalize bumpDict (dkey 0x5000 0x16) 1 s = y at h1 h2 ⊢
  cases cs with
  | nil => exact ⟨h1.step (post_only _ _ _ _) (by decide), fun j hj => by rw [getDict_congr (post_dict _ _ _ _), h2 j hj]⟩
  | cons a l =>
    dsimp only
    have h3 : Only [.host, .logs, .clients] y ((a :: l).foldl (fun s x => raiseFault x c d s) y) :=
      Only.foldl (fun s x => raiseFault_only _ _ _ _) _ _
    exact ⟨h1.step h3 (by decide), fun j hj => by rw [getDict_congr (h3.dict (by decide)), h2 j hj]⟩

theorem dkey_ne {a b c d : Nat} (h : (a, b) ≠ (c, d)) (hb : b < 256) (hd : d < 256) : dkey a b ≠ dkey c d := by
  unfold dkey
  intro e
  apply h
  have : a = c := by omega
  subst this
  simp; omega

theorem foldl_nearest (f : Nat → Nat) : ∀ (l : List Nat) (b : Option Nat),
    let r := l.foldl (fun (b : Option Nat) p => match b with
      | some q => if f p < f q then some p else b
      | none => some p) b
    ∀ p, r = some p → (p ∈ l ∨ b = some p) ∧ (∀ q ∈ l, f p ≤ f q) ∧ (∀ q, b = some q → f p ≤ f q) := by
  intro l
  induction l with
  | nil =>
    intro b r p hp
    refine ⟨.inr hp, by simp, fun q hq => ?_⟩
    have : some p = some q := hp.symm.trans hq
    rw [Option.some.inj this]
  | cons x l ih =>
    intro b
    dsimp only
    intro p hp
    rw [List.foldl_cons] at hp
    obtain ⟨h1, h2, h3⟩ := ih _ p hp
    cases b with
    | none =>
      dsimp only at h1 h3
      refine ⟨?_, ?_, fun q hq => by simp at hq⟩
      · rcases h1 with h1 | h1
        · exact .inl (List.mem_cons_of_mem _ h1)
        · simp at h1; exact .inl (by simp [h1])
      · intro q hq
        rcases List.mem_cons.1 hq with rfl | hq
        · exact h3 _ rfl
        · exact h2 q hq
    | some b =>
      dsimp only at h1 h3
      by_cases hb : f x < f b
      · rw [if_pos hb] at h1 h3
        have hx := h3 x rfl
        refine ⟨?_, ?_, fun q hq => ?_⟩
        · rcases h1 with h1 | h1
          · exact .inl (List.mem_cons_of_mem _ h1)
          · simp at h1; exact .inl (by simp [h1])
        · intro q hq
          rcases List.mem_cons.1 hq with rfl | hq
          · exact hx
          · exact h2 q hq
        · simp at hq; subst hq; omega
      · rw [if_neg hb] at h1 h3
        have hx := h3 b rfl
        refine ⟨?_, ?_, fun q hq => ?_⟩
        · rcases h1 with h1 | h1
          · exact .inl (List.mem_cons_of_mem _ h1)
          · exact .inr h1
        · intro q hq
          rcases List.mem_cons.1 hq with rfl | hq
          · omega
          · exact h2 q hq
        · simp at hq; subst hq; exact hx

theorem lockState_spec (ps : Int) (s : State) :
    let n := lockState ps s
    let good := if ps.natAbs ≤ 10000 then s.fabric.time.good + 1 else 0
    let st := (getDict s (dkey 0x5000 0x08)).toNat
    Only (.fabric :: .clients :: accountParts) s n ∧ n.fabric.time.phase = s.fabric.time.phase ∧
    n.fabric.time.good = min good 64 ∧
    (∀ j, j ≠ dkey 0x5000 0x16 → j ≠ dkey 0x5000 0x08 → getDict n j = getDict s j) ∧
    getDict n (dkey 0x5000 0x08) = (if st = 1 ∧ 500000 < ps.natAbs then 2 else if st ≠ 1 ∧ 64 ≤ good then 1
        else getDict s (dkey 0x5000 0x08)) := by
  unfold lockState
  dsimp only
  set good := if ps.natAbs ≤ 10000 then s.fabric.time.good + 1 else 0 with hgood
  set bad := if 20000 < ps.natAbs then s.fabric.time.bad + 1 else 0
  set s1 := setTime (fun t => { t with good := min good 64, bad := if bad = 4 then 0 else bad }) s with hs1
  have k1 : Only [.fabric] s s1 := only_fabric _ s
  have k1t : s1.fabric.time = { s.fabric.time with good := min good 64, bad := if bad = 4 then 0 else bad } := rfl
  set s2 := if bad = 4 then post 0x0402 16 (ofSigned 32 ps) s1 else s1 with hs2
  have k2 : Only [.host, .logs] s1 s2 := Only.ite (post_only _ _ _ _) (Only.rfl' _)
  have k12 : Only (.fabric :: .clients :: accountParts) s s2 := (k1.mono (by decide)).step k2 (by decide)
  have hd2 : ∀ j, getDict s2 j = getDict s j := fun j =>
    (getDict_congr (k2.dict (by decide)) j).trans (getDict_congr (k1.dict (by decide)) j)
  have ht2 : s2.fabric.time = s1.fabric.time := by rw [k2.fabric (by decide)]
  have hst : ∀ v : Nat, Only [.dict] s2 (setTickState v s2) := fun v => setDict_only _ _ _
  have hstd : ∀ v j, getDict (setTickState v s2) j = if j = dkey 0x5000 0x08 then BitVec.ofNat 64 v else getDict s2 j :=
    fun v j => getDict_setDict _ _ _ _
  clear_value s2 s1
  by_cases h1 : (getDict s (dkey 0x5000 0x08)).toNat = 1 ∧ 500000 < ps.natAbs
  · simp only [if_pos h1]
    obtain ⟨f1, f2⟩ := faultAll_spec ((List.range 16).filter fun c => (getClient s2 c).step.isSome) 0x0405 0 (setTickState 2 s2)
    generalize faultAll ((List.range 16).filter fun c => (getClient s2 c).step.isSome) 0x0405 0 (setTickState 2 s2) = n at f1 f2 ⊢
    have ht : n.fabric.time = s1.fabric.time := by rw [f1.fabric (by decide), (hst 2).fabric (by decide), ht2]
    refine ⟨(k12.step (hst 2) (by decide)).step f1 (by decide), ?_, ?_, fun j j1 j2 => ?_, ?_⟩
    · rw [ht, k1t]
    · rw [ht, k1t]
    · rw [f2 j j1, hstd, if_neg j2, hd2]
    · rw [f2 _ (dkey_ne (by simp) (by omega) (by omega)), hstd, if_pos rfl]; rfl
  · simp only [if_neg h1]
    by_cases h2 : (getDict s (dkey 0x5000 0x08)).toNat ≠ 1 ∧ 64 ≤ good
    · simp only [if_pos h2]
      have ht : (setTickState 1 s2).fabric.time = s1.fabric.time := by rw [(hst 1).fabric (by decide), ht2]
      refine ⟨k12.step (hst 1) (by decide), ?_, ?_, fun j j1 j2 => ?_, ?_⟩
      · rw [ht, k1t]
      · rw [ht, k1t]
      · rw [hstd, if_neg j2, hd2]
      · rw [hstd, if_pos rfl]; rfl
    · simp only [if_neg h2]
      refine ⟨k12, ?_, ?_, fun j j1 j2 => hd2 j, hd2 _⟩
      · rw [ht2, k1t]
      · rw [ht2, k1t]

end Sys2Proof.Machine
end

