-- ==== Sys2Proof/Laws/Steps.lean ====
section
/-! SUPPORT. Steps of a client: token presets, plates started and stopped, the records of a completed step, aborts (R220, R229, R230). -/

set_option Elab.async false

namespace Sys2Proof.Machine

theorem setTok_only (d f r n : Nat) (s : State) : Only [.plates] s (setTok d f r n s) := only_plates _ s

theorem presetTokens_only (c : Nat) (s : State) : Only [.plates] s (presetTokens c s) := by
  unfold presetTokens
  dsimp only
  exact Only.trans (only_plates _ s) (Only.foldl (fun s d => Only.foldl (fun s p => setTok_only _ _ _ _ _) _ _) _ _)

/-- The fields of plates that token writes leave. -/
theorem setTok_plates (d f r n : Nat) (s : State) :
    (setTok d f r n s).plates = { s.plates with tokens := (setTok d f r n s).plates.tokens } := rfl

theorem foldl_setTok_plates (d : Nat) (ps : List (Nat × Nat × Nat)) (s : State) :
    (ps.foldl (fun s p => setTok d p.1 p.2.1 p.2.2 s) s).plates =
      { s.plates with tokens := (ps.foldl (fun s p => setTok d p.1 p.2.1 p.2.2 s) s).plates.tokens } := by
  induction ps generalizing s with
  | nil => rfl
  | cons p ps ih => rw [List.foldl_cons, ih]; rfl

theorem presetTokens_plates (c : Nat) (s : State) : (presetTokens c s).plates =
    { s.plates with tokens := (presetTokens c s).plates.tokens, posts := s.plates.posts.filter fun p => decide (p.client ≠ c) } := by
  unfold presetTokens
  dsimp only
  generalize clientPresets (getClient s c) = ps
  generalize (List.range 4).filter (hasDie (getClient s c)) = ds
  generalize hy : ({ s with plates := { s.plates with tokens := _, posts := s.plates.posts.filter fun p => decide (p.client ≠ c) } } : State) = y
  have h0 : y.plates = { s.plates with tokens := y.plates.tokens, posts := s.plates.posts.filter fun p => decide (p.client ≠ c) } := by
    rw [← hy]
  clear hy
  induction ds generalizing y with
  | nil => exact h0
  | cons d ds ih =>
    rw [List.foldl_cons]
    apply ih
    rw [foldl_setTok_plates, h0]

theorem foldl_setTok_tokens (d : Nat) (ps : List (Nat × Nat × Nat)) (hps : ∀ p ∈ ps, p.1 < 17 ∧ p.2.1 < 256) (d' f r : Nat)
    (hf : f < 17) (hr : r < 256) (s : State) :
    tokens (ps.foldl (fun s p => setTok d p.1 p.2.1 p.2.2 s) s) d' f r =
      if d' = d then (match ps.reverse.find? fun p => decide (p.1 = f ∧ p.2.1 = r) with
        | some p => p.2.2 % 2 ^ 16 | none => tokens s d' f r) else tokens s d' f r := by
  induction ps using List.reverseRecOn with
  | nil => simp
  | append_singleton ps p ih =>
    have hp := hps p (by simp)
    rw [List.foldl_append]
    simp only [List.foldl_cons, List.foldl_nil]
    rw [tokens_setTok _ _ _ _ _ _ _ hp.1 hp.2 hf hr, ih fun q hq => hps q (List.mem_append_left _ hq)]
    rw [List.reverse_append]
    simp only [List.reverse_cons, List.reverse_nil, List.nil_append, List.singleton_append, List.find?_cons]
    by_cases hd : d' = d
    · subst hd
      by_cases hm : p.1 = f ∧ p.2.1 = r
      · obtain ⟨rfl, rfl⟩ := hm
        simp
      · have : ¬ (True ∧ f = p.1 ∧ r = p.2.1) := fun h => hm ⟨h.2.1.symm, h.2.2.symm⟩
        simp only [if_true, hm, decide_false]
        rw [if_neg this]
    · rw [if_neg hd, if_neg hd, if_neg (fun h => hd h.1)]

theorem presetTokens_tokens (c : Nat) (s : State)
    (hps : ∀ p : Nat × Nat × Nat, p ∈ clientPresets (getClient s c) → p.1 < 17 ∧ p.2.1 < 256)
    (d f r : Nat) (hd : d < 4) (hf : f < 17) (hr : r < 256) :
    tokens (presetTokens c s) d f r = if hasDie (getClient s c) d then
      (match (clientPresets (getClient s c)).reverse.find? fun p : Nat × Nat × Nat => decide (p.1 = f ∧ p.2.1 = r) with
        | some p => p.2.2 % 2 ^ 16 | none => 0) else tokens s d f r := by
  unfold presetTokens
  dsimp only
  generalize clientPresets (getClient s c) = ps at hps ⊢
  have h0 : tokens ({ s with plates := { s.plates with
      tokens := mdrop s.plates.tokens (fun k => hasDie (getClient s c) (k / 256 / 17)),
      posts := s.plates.posts.filter fun p => decide (p.client ≠ c) } } : State) d f r =
      if hasDie (getClient s c) d then 0 else tokens s d f r := by
    unfold tokens
    dsimp only
    rw [mget_mdrop]
    have : tokKey d f r / 256 / 17 = d := by unfold tokKey; omega
    rw [this]
    split <;> rfl
  have key : ∀ (ds : List Nat) (y : State), tokens (ds.foldl (fun s d => ps.foldl (fun s p => setTok d p.1 p.2.1 p.2.2 s) s) y) d f r =
      if d ∈ ds then (match ps.reverse.find? fun p => decide (p.1 = f ∧ p.2.1 = r) with
        | some p => p.2.2 % 2 ^ 16 | none => tokens y d f r) else tokens y d f r := by
    intro ds
    induction ds with
    | nil => intro y; simp
    | cons e ds ih =>
      intro y
      rw [List.foldl_cons, ih, foldl_setTok_tokens e ps hps d f r hf hr]
      by_cases he : d = e
      · subst he
        simp only [if_true, List.mem_cons, true_or]
        split
        · split <;> rfl
        · rfl
      · simp only [List.mem_cons, he, false_or, if_false]
  refine (key _ _).trans ?_
  rw [show tokens _ d f r = _ from h0]
  have hmem : d ∈ (List.range 4).filter (hasDie (getClient s c)) ↔ hasDie (getClient s c) d = true := by simp [hd]
  by_cases hh : hasDie (getClient s c) d = true
  · rw [if_pos (hmem.2 hh), if_pos hh, if_pos hh]
  · rw [if_neg (fun h => hh (hmem.1 h)), if_neg hh, if_neg hh]

theorem setEng_tokens (e : Eng) (x : EngSt) (s : State) : (setEng e x s).plates = { s.plates with engs := (setEng e x s).plates.engs } := rfl

/-- Engines that a fold has changed one by one. -/
theorem foldl_setEng (f : State → Eng → EngSt) (P : EngSt → Prop) (hP : ∀ s e, P (f s e)) : ∀ (l : List Eng) (s : State),
    let n := l.foldl (fun s e => setEng e (f s e) s) s
    (∀ e ∈ l, P (getEng n e)) ∧ Only [.plates] s n ∧ n.plates = { s.plates with engs := n.plates.engs } := by
  intro l
  induction l using List.reverseRecOn with
  | nil => intro s; exact ⟨fun e he => by simp at he, Only.rfl' s, rfl⟩
  | append_singleton l x ih =>
    intro s
    obtain ⟨h1, h2, h3⟩ := ih s
    simp only [List.foldl_append, List.foldl_cons, List.foldl_nil]
    generalize l.foldl (fun s e => setEng e (f s e) s) s = t at h1 h2 h3 ⊢
    refine ⟨fun e he => ?_, h2.trans (setEng_only _ _ _), ?_⟩
    · rw [getEng_setEng]
      split
      · exact hP _ _
      · rename_i hne
        rcases List.mem_append.1 he with he | he
        · exact h1 e he
        · simp at he; exact absurd he hne
    · rw [setEng_tokens, h3]

theorem clearVotes_spec (c : Nat) (s : State) : Only accessParts s (clearVotes c s) ∧ ScopesOnly s (clearVotes c s) := by
  unfold clearVotes
  split
  · exact ⟨Only.rfl' s, ScopesOnly.rfl' s⟩
  · dsimp only
    refine ⟨Only.foldl (fun s l => ?_) _ _, foldl_scopes _ (fun s l => ?_) _ _⟩
    · split
      · exact only_of_access (writeBuf_access _ _ _ _ _ _)
      · exact Only.rfl' s
    · split
      · exact writeBuf_scopes _ _ _ _ _ _
      · exact ScopesOnly.rfl' s

theorem foldl_bases (idx : Nat) : ∀ (l : List Nat) (m : SMap Nat) (g : Nat),
    mget 0 (l.foldl (fun m g => mset 0 m g (idx + 1)) m) g = if g ∈ l then idx + 1 else mget 0 m g := by
  intro l
  induction l with
  | nil => intro m g; simp
  | cons x l ih =>
    intro m g
    rw [List.foldl_cons, ih, mget_mset]
    by_cases h1 : g ∈ l
    · rw [if_pos h1, if_pos (List.mem_cons_of_mem _ h1)]
    · rw [if_neg h1]
      by_cases h2 : g = x
      · rw [if_pos h2, if_pos (by simp [h2])]
      · rw [if_neg h2, if_neg (by simp [h1, h2])]

theorem keepCommits_only (c b : Nat) (s : State) : Only [.cat] s (keepCommits c b s) := only_cat _ s

theorem hostDone_only (q i : Nat) (nt : Bool) (st re : Nat) (s : State) : Only [.host, .logs] s (hostDone q i nt st re s) := by
  unfold hostDone
  dsimp only
  split
  · exact Only.rfl' s
  · exact postEvent_only _ _

theorem hostDone_posted (q i : Nat) (nt : Bool) (st re : Nat) (s : State) : s.host.posted <+: (hostDone q i nt st re s).host.posted := by
  unfold hostDone
  dsimp only
  split
  · exact List.prefix_rfl
  · exact List.prefix_append _ _

/-- The end of a run. -/
theorem endRun_spec (c st : Nat) (s : State) : Only [.cat, .clients, .host, .logs] s (endRun c st s) ∧
    (∃ v, getClient (endRun c st s) c = { getClient s c with run := none, state := v }) ∧
    s.host.posted <+: (endRun c st s).host.posted := by
  unfold endRun
  split
  · rename_i h
    exact ⟨Only.rfl' s, ⟨_, by rw [← h]⟩, List.prefix_rfl⟩
  · rename_i r hr
    dsimp only
    have h1 := keepCommits_only c (r.n * (shareOf s c).stepLen) s
    generalize keepCommits c (r.n * (shareOf s c).stepLen) s = k at h1 ⊢
    have hk : getClient k c = getClient s c := getClient_congr (h1.clients (by decide)) c
    set y := setClient c { getClient s c with run := none } k with hy
    have h2 : Only [.clients] k y := setClient_only _ _ _
    have hyc : getClient y c = { getClient s c with run := none } := by rw [hy, getClient_setClient, if_pos rfl]
    clear_value y
    set z := if (getClient y c).state = 2 then setClientState c 1 y else y with hz
    have h3 : Only [.clients] y z := Only.ite (setClient_only _ _ _) (Only.rfl' y)
    have hzc : ∃ v, getClient z c = { getClient s c with run := none, state := v } := by
      rw [hz]
      split
      · exact ⟨1, by unfold setClientState; rw [getClient_setClient, if_pos rfl, hyc]⟩
      · exact ⟨_, hyc⟩
    clear_value z
    have h4 := hostDone_only r.q r.cmdid r.notify st 0 z
    refine ⟨(((h1.mono (by decide)).step h2 (by decide)).step h3 (by decide)).step h4 (by decide), ?_, ?_⟩
    · obtain ⟨v, hv⟩ := hzc
      exact ⟨v, by rw [getClient_congr (h4.clients (by decide)), hv]⟩
    · have := hostDone_posted r.q r.cmdid r.notify st 0 z
      rwa [h3.host (by decide), h2.host (by decide), h1.host (by decide)] at this

theorem recordScope_spec (c idx : Nat) (hc : c < 16) (s : State) :
    Only [.clients, .dict] s (recordScope c idx s) ∧ getClient (recordScope c idx s) c = { getClient s c with scope := 0 } ∧
    getDict (recordScope c idx s) (dkey 0xA000 (0x20 + c)) = BitVec.ofNat 64 idx ∧
    getDict (recordScope c idx s) (dkey 0xA000 (0x10 + c)) =
      ((getClient s c).scope ||| (if lateViol s c then scViolation else 0)).setWidth 64 := by
  unfold recordScope
  dsimp only
  set y := if lateViol s c then setScope c scViolation s else s with hy
  have h1 : Only [.clients] s y := Only.ite (setScope_only _ _ _) (Only.rfl' s)
  have hyc : getClient y c = { getClient s c with scope := (getClient s c).scope ||| (if lateViol s c then scViolation else 0) } := by
    rw [hy]
    split
    · unfold setScope; rw [if_pos hc, getClient_setClient, if_pos rfl]
    · simp
  clear_value y
  set z := setClient c { getClient y c with scope := 0 } y with hz
  have h2 : Only [.clients] y z := setClient_only _ _ _
  have hzc : getClient z c = { getClient s c with scope := 0 } := by rw [hz, getClient_setClient, if_pos rfl, hyc]
  clear_value z
  refine ⟨?_, ?_, ?_, ?_⟩
  · exact (((h1.trans h2).mono (by decide)).step (setDict_only _ _ _) (by decide)).step (setDict_only _ _ _) (by decide)
  · rw [getClient_congr (setDict_clients _ _ _), getClient_congr (setDict_clients _ _ _), hzc]
  · rw [getDict_setDict, if_pos rfl]
  · rw [getDict_setDict, if_neg (by unfold dkey; omega), getDict_setDict, if_pos rfl, hyc]

theorem recordSlow_only (c v : Nat) (s : State) : Only [.ledger, .sat, .host, .logs] s (recordSlow c v s) := by
  unfold recordSlow
  dsimp only
  exact ((setLedger_only _ _ _).mono (by decide)).step ((setLedger_only _ _ _).mono (by decide)) (List.Subset.refl _)
    |>.step (bumpLedger_only _ _ _ _) (by decide)

theorem dataPos_setDataPos (c : Nat) (bs : List Byte) (s : State) (h : 48 ≤ bs.length) : dataPos (setDataPos c bs s) c = bs := by
  unfold dataPos setDataPos
  dsimp only
  rw [mget_mset_same, Nat.sub_eq_zero_of_le h]
  simp

theorem dataPos_length (c : Nat) (s : State) : 48 ≤ (dataPos s c).length := by
  unfold dataPos
  simp
  omega

theorem advancePos_length (bs : List Byte) (h : 48 ≤ bs.length) : 48 ≤ (advancePos bs).length := by
  unfold advancePos
  simp
  omega

theorem dataPos_congr {s t : State} (h : t.blobs = s.blobs) (c : Nat) : dataPos t c = dataPos s c := by
  unfold dataPos; rw [h]

theorem sendCtl_aborts (p : Nat) (m : Word × Word) (s : State) : (sendCtl p m s).fabric.aborts = s.fabric.aborts := rfl

theorem flood_spec (c : Nat) (b : Option Nat) (m : Word × Word) (s : State) : Only [.fabric] s (flood c b m s) ∧
    (flood c b m s).fabric.aborts = s.fabric.aborts := by
  unfold flood
  generalize partitionPorts s c = l
  induction l generalizing s with
  | nil => exact ⟨Only.rfl' s, rfl⟩
  | cons p l ih =>
    rw [List.foldl_cons]
    split
    · exact ih s
    · obtain ⟨h1, h2⟩ := ih (sendCtl (portFor s p) m s)
      exact ⟨(sendCtl_only _ _ _).trans h1, h2.trans (sendCtl_aborts _ _ _)⟩

theorem floodAbort_only (c o f st : Nat) (b : Option Nat) (s : State) : Only [.fabric] s (floodAbort c o f st b s) := by
  unfold floodAbort
  split
  · exact Only.rfl' s
  · exact (only_fabric _ s).trans (flood_spec _ _ _ _).1

theorem only_units_fabric_cat (u : Units) (f : Fabric) (c : Catalog) (s : State) :
    Only [.units, .fabric, .cat] s { s with units := u, fabric := f, cat := c } := by
  constructor <;> first | exact fun _ => rfl | exact fun h => absurd (by decide) h

theorem setLane_only (t : TileId) (x : LaneS) (s : State) : Only [.units] s (setLane t x s) := only_units _ s

theorem abortTile_only (t : TileId) (s : State) : Only [.tiles, .units] s (abortTile t s) := by
  unfold abortTile
  dsimp only
  refine Only.step ?_ (setTile_only _ _ _) (by decide)
  exact Only.ite ((setLane_only _ _ _).mono (by decide)) (Only.rfl' s)

theorem freeCtxs_only (p : Ctx → Bool) (s : State) : Only [.tiles, .fabric, .dict] s (freeCtxs p s) := by
  unfold freeCtxs
  dsimp only
  refine Only.trans ?_ (Only.foldl (fun s d => ?_) _ _)
  · refine Only.step ?_ (only_fabric _ _) (by decide)
    refine Only.foldl (fun s x => ?_) _ _
    split
    · exact (setVec_only _ _ _).mono (by decide)
    · exact Only.rfl' s
  · split
    · exact (setDict_only _ _ _).mono (by decide)
    · exact Only.rfl' s

end Sys2Proof.Machine
end

