-- ==== Sys2Proof/Laws/Aborts.lean ====
section
/-! SUPPORT. Aborted steps, evictions, and the resets that carry them out (R229, R351, R399). -/

set_option Elab.async false

namespace Sys2Proof.Machine

/-- Entries of the stage (index 0x2000) read as before. -/
def StageSame (s n : State) : Prop := ∀ k, k / 256 = 0x2000 → getDict n k = getDict s k

theorem StageSame.of_dict {s n : State} (h : n.dict = s.dict) : StageSame s n := fun k _ => getDict_congr h k
theorem StageSame.trans {r s t : State} (h : StageSame r s) (k : StageSame s t) : StageSame r t :=
  fun j hj => (k j hj).trans (h j hj)
theorem StageSame.foldl {β : Type} {g : State → β → State} (hg : ∀ s x, StageSame s (g s x)) (l : List β) (s : State) :
    StageSame s (l.foldl g s) := by
  induction l generalizing s with
  | nil => exact StageSame.of_dict rfl
  | cons x l ih => exact (hg s x).trans (ih _)
theorem setDict_stage (k : Nat) (v : Word) (s : State) (h : k / 256 ≠ 0x2000) : StageSame s (setDict k v s) := fun j hj => by
  rw [getDict_setDict, if_neg (by rintro rfl; exact h hj)]
theorem bumpDictW_stage (w k n : Nat) (s : State) (h : k / 256 ≠ 0x2000) : StageSame s (bumpDictW w k n s) := fun j hj => by
  rw [bumpDictW_getDict, if_neg (by rintro rfl; exact h hj)]
theorem StageSame.noted {kind : Nat} {s m : State} (h : StageSame s m) : ResetNoted kind s (noteReset kind m) := by
  refine ⟨?_, ?_, ?_⟩
  · rw [noteReset_dict, if_neg (by decide), if_pos rfl]
  · rw [noteReset_dict, if_pos rfl, h _ (by decide)]
  · unfold stageOf
    rw [noteReset_dict, if_neg (by decide), if_neg (by decide), h _ (by decide)]

theorem updStep_getClient (c : Nat) (f : StepSt → StepSt) (s : State) (k : Nat) : getClient (updStep c f s) k =
    if k = c then { getClient s c with step := (getClient s c).step.map f } else getClient s k := by
  unfold updStep
  cases h : (getClient s c).step with
  | none =>
    dsimp only
    split
    · rename_i hk; subst hk
      generalize getClient s k = x at h
      cases x; cases h; rfl
    · rfl
  | some st =>
    dsimp only
    unfold getClient setClient
    rw [mget_mset]
    rfl

theorem updStep_congr {s t : State} (h : t.clients = s.clients) (c : Nat) (f : StepSt → StepSt) :
    (updStep c f t).clients = (updStep c f s).clients := by
  unfold updStep getClient
  rw [h]
  split <;> simp [setClient, h]

theorem countFree_stage (d : Nat) (hd : d < 4) (s : State) : StageSame s (countFree d s) :=
  setDict_stage _ _ _ (by unfold dkey; omega)

theorem countAll_stage (g : Nat → Bool) (s : State) :
    StageSame s ((List.range 4).foldl (fun s d => if g d then countFree d s else s) s) := by
  have key : ∀ (d : Nat), d < 4 → ∀ s, StageSame s (if g d then countFree d s else s) := fun d hd s => by
    split
    · exact countFree_stage d hd s
    · exact StageSame.of_dict rfl
  exact (((key 0 (by decide) _).trans (key 1 (by decide) _)).trans (key 2 (by decide) _)).trans (key 3 (by decide) _)

theorem freeCtxs_stage (p : Ctx → Bool) (s : State) : StageSame s (freeCtxs p s) := by
  unfold freeCtxs
  dsimp only
  refine StageSame.trans (StageSame.of_dict ?_) (countAll_stage (fun d => (List.filter (fun x => p x.2) s.fabric.ctxs).any
    fun x => decide (x.1 / 65536 = d)) _)
  exact foldl_field State.dict _ _ _ fun s x => by split <;> rfl

theorem StageSame.ite {c : Prop} [Decidable c] {s a b : State} (ha : StageSame s a) (hb : StageSame s b) :
    StageSame s (if c then a else b) := by split <;> assumption

/-- The end of an abort, from the state whose engines have stopped (R229). -/
theorem stopTail (c : Nat) (st : StepSt) {s s4 : State} (k4 : Only [.plates, .tiles, .units, .fabric, .cat] s s4)
    (c4 : s4.cat.ents = s.cat.ents ∧ s4.cat.staging = s.cat.staging ∧ s4.cat.commits = s.cat.commits ∧ s4.cat.epochs = s.cat.epochs)
    (p : Ctx → Bool) :
    let s5 := presetTokens c (dropTx c (freeCtxs p s4))
    let s6 := if st.forigin = moduleId s5 then floodAbort c st.forigin st.fcode st.idx none s5 else s5
    let s7 := updStep c (fun st => { st with stopped := true, gates := [], commits := [] }) s6
    let n := post 0x0301 c (st.fcode % 65536 + 2 ^ 16 * (st.forigin % 4096)) (bumpDict (dkey 0x4040 0x04) 1 s7)
    StageSame s n ∧
    n.clients = (updStep c (fun st => { st with stopped := true, gates := [], commits := [] }) s).clients ∧
    n.cat.ents = s.cat.ents ∧ n.cat.staging = s.cat.staging ∧ n.cat.commits = s.cat.commits ∧ n.cat.epochs = s.cat.epochs := by
  intro s5 s6 s7 n
  have g1 := freeCtxs_only p s4
  have e1 := freeCtxs_stage p s4
  have k5 : Only [.plates, .fabric] (freeCtxs p s4) s5 :=
    ((dropTx_kept c (Kept.rfl' _) (by decide)).only (ks := [.plates, .fabric])).trans
      ((presetTokens_only c _).mono (by decide))
  have k6 : Only [.plates, .fabric] (freeCtxs p s4) s6 := k5.trans (Only.ite ((floodAbort_only _ _ _ _ _ _).mono (by decide)) (Only.rfl' _))
  have k7 : Only [.clients] s6 s7 := updStep_only _ _ _
  have k8 : Only [.dict, .sat, .host, .logs] s7 n := (bumpDict_only _ _ _).trans ((post_only _ _ _ _).mono (by decide))
  have e8 : StageSame s7 n := StageSame.trans (bumpDictW_stage _ _ _ _ (by decide)) (StageSame.of_dict rfl)
  have kc : Only [.plates, .tiles, .units, .fabric, .cat, .dict] s s6 :=
    ((k4.mono (by decide)).step g1 (by decide)).step k6 (by decide)
  have kf : n.cat = s4.cat := by
    rw [k8.cat (by decide), k7.cat (by decide), k6.cat (by decide), g1.cat (by decide)]
  refine ⟨?_, ?_, ?_⟩
  · refine StageSame.trans (StageSame.trans (StageSame.trans (StageSame.of_dict (k4.dict (by decide))) e1) ?_) e8
    exact StageSame.of_dict ((k7.dict (by decide)).trans (k6.dict (by decide)))
  · rw [k8.clients (by decide)]
    exact updStep_congr (kc.clients (by decide)) _ _
  · rw [kf]; exact c4

theorem stopStep_spec (c : Nat) (st : StepSt) (s : State) : StageSame s (stopStep c st s) ∧
    (stopStep c st s).clients = (updStep c (fun st => { st with stopped := true, gates := [], commits := [] }) s).clients ∧
    (stopStep c st s).cat.ents = s.cat.ents ∧ (stopStep c st s).cat.staging = s.cat.staging ∧
    (stopStep c st s).cat.commits = s.cat.commits ∧ (stopStep c st s).cat.epochs = s.cat.epochs := by
  unfold stopStep
  dsimp only
  obtain ⟨s1, hs1⟩ : ∃ s1, s1 = List.foldl stopEngine s (((List.range 4).filter (hasDie (getClient s c))).flatMap enginesOf) := ⟨_, rfl⟩
  have k1 : Only [.plates] s s1 := by
    rw [hs1]; exact Only.foldl (fun s e => (stopEngine_kept e (Kept.rfl' s) (by decide)).only) _ _
  rw [← hs1]
  clear hs1
  generalize (List.map (fun x => x.id) (List.filter (fun f => decide (f.client = c) && abortDiscards s f) s.plates.flights)) = gone
  have d1 : StageSame s s1 := StageSame.of_dict (k1.dict (by decide))
  obtain ⟨s2, hs2⟩ : ∃ s2 : State, s2 = { s1 with plates := { s1.plates with flights := s1.plates.flights.filter fun f => !gone.contains f.id } } := ⟨_, rfl⟩
  have k2 : Only [.plates] s s2 := k1.trans (by rw [hs2]; constructor <;> intro hp <;> first | rfl | exact absurd (by decide) hp)
  rw [← hs2]
  clear hs2 k1 d1
  obtain ⟨s3, hs3⟩ : ∃ s3, s3 = List.foldl (fun s d => List.foldl (fun s t => abortTile t s) s (tilesOf d)) s2 ((List.range 4).filter (hasDie (getClient s c))) := ⟨_, rfl⟩
  have k3 : Only [.plates, .tiles, .units] s s3 := (k2.mono (by decide)).step
    (by rw [hs3]; exact Only.foldl (fun s d => Only.foldl (fun s t => abortTile_only t s) _ _) _ _) (by decide)
  rw [← hs3]
  clear hs3 k2
  generalize hdies : (List.range 4).filter (hasDie (getClient s c)) = dies
  refine stopTail c st (s4 := { s3 with
    units := { s3.units with
      dma := (s3.units.dma.map (fun q => (q.1, { q.2 with
        descs := q.2.descs.filter (fun x => !gone.contains x.id),
        staged := q.2.staged.filter (fun u => !gone.contains u.1) }))).filter (fun q => decide (q.2 ≠ {})),
      hatch := s3.units.hatch.filter (fun q => match q.2 with
        | some j => !gone.contains j.id
        | none => true),
      cpt := (s3.units.cpt.map (fun q => (q.1, q.2.filter (fun j => !gone.contains j.id)))).filter
        (fun q => decide (q.2 ≠ [])) },
    fabric := { s3.fabric with sends := s3.fabric.sends.filter (fun j => !gone.contains j.id) },
    cat := { s3.cat with
      waiters := s3.cat.waiters.filter (fun w => w.remote || !dies.contains w.acc.die.val),
      closing := s3.cat.closing.filter (fun x => x.agent.isSome || !gone.contains x.id) } }) ((k3.mono (by decide)).step (js := [.units, .fabric, .cat])
    (by constructor <;> intro hp <;> first | rfl | exact absurd (by decide) hp) (by decide)) ?_ _
  rw [← k3.cat (by decide)]
  exact ⟨rfl, rfl, rfl, rfl⟩

/-- What aborting a client's step leaves (R229): the step aborted, every other client, the Catalog's entries, staging and epochs
as before. -/
theorem abortStep_spec (c : Nat) (s : State) : StageSame s (abortStep c s) ∧ Halted s (abortStep c s) c ∧
    (∀ k, k ≠ c → getClient (abortStep c s) k = getClient s k) ∧
    (∀ k, (getClient (abortStep c s) k).state = (getClient s k).state ∧ (getClient (abortStep c s) k).dies = (getClient s k).dies) ∧
    (abortStep c s).cat.ents = s.cat.ents ∧ (abortStep c s).cat.staging = s.cat.staging ∧
    (abortStep c s).cat.commits = s.cat.commits ∧ (abortStep c s).cat.epochs = s.cat.epochs := by
  unfold abortStep
  split
  · rename_i h
    exact ⟨StageSame.of_dict rfl, fun st hs => by rw [h] at hs; simp at hs, fun k _ => rfl, fun k => ⟨rfl, rfl⟩, rfl, rfl, rfl, rfl⟩
  · rename_i st h
    split
    · rename_i hs
      refine ⟨StageSame.of_dict rfl, fun st' hs' => ?_, fun k _ => rfl, fun k => ⟨rfl, rfl⟩, rfl, rfl, rfl, rfl⟩
      rw [h] at hs'
      cases hs'
      exact ⟨st, h, .inr hs, rfl⟩
    · obtain ⟨v, s0, hf⟩ : ∃ v s0, fresh s = (v, s0) := ⟨_, _, rfl⟩
      have k0 : Only [.free] s s0 := by
        have : s0 = (fresh s).2 := by rw [hf]
        rw [this]
        exact (fresh_kept (Kept.rfl' s) (by decide)).only
      rw [hf]
      dsimp only
      obtain ⟨st1, hst1⟩ : ∃ st1 : StepSt, st1 = if st.aborted = true then st else { st with aborted := true, fcode := fld v 0 16, forigin := moduleId s } := ⟨_, rfl⟩
      have ha : st1.aborted = true ∧ st1.idx = st.idx := by
        rw [hst1]; split
        · rename_i h'; exact ⟨h', rfl⟩
        · exact ⟨rfl, rfl⟩
      rw [← hst1]
      have g1 : ∀ k, getClient (updStep c (fun _ => st1) s0) k = if k = c then { getClient s c with step := some st1 } else getClient s k := by
        intro k
        rw [updStep_getClient]
        have : ∀ j, getClient s0 j = getClient s j := fun j => by unfold getClient; rw [k0.clients (by decide)]
        simp only [this, h]
        rfl
      have k1 : Only [.free, .clients] s (updStep c (fun _ => st1) s0) := (k0.mono (by decide)).step (updStep_only _ _ _) (by decide)
      generalize updStep c (fun _ => st1) s0 = s1 at g1 k1
      have fin : ∀ n : State, StageSame s1 n → (∃ f : StepSt → StepSt, (∀ x, (f x).idx = x.idx ∧ (f x).aborted = x.aborted) ∧
          ∀ k, getClient n k = if k = c then { getClient s1 c with step := (getClient s1 c).step.map f } else getClient s1 k) → n.cat.ents = s1.cat.ents ∧ n.cat.staging = s1.cat.staging ∧
          n.cat.commits = s1.cat.commits ∧ n.cat.epochs = s1.cat.epochs → StageSame s n ∧ Halted s n c ∧
          (∀ k, k ≠ c → getClient n k = getClient s k) ∧
          (∀ k, (getClient n k).state = (getClient s k).state ∧ (getClient n k).dies = (getClient s k).dies) ∧
          n.cat.ents = s.cat.ents ∧ n.cat.staging = s.cat.staging ∧ n.cat.commits = s.cat.commits ∧ n.cat.epochs = s.cat.epochs := by
        rintro n e ⟨f, hf, hn⟩ hc
        have gn : ∀ k, getClient n k = if k = c then { getClient s c with step := some (f st1) } else getClient s k := by
          intro k
          rw [hn, g1, if_pos rfl]
          split
          · rfl
          · rw [g1, if_neg (by assumption)]
        have hcat := k1.cat (by decide)
        rw [hcat] at hc
        refine ⟨StageSame.trans (StageSame.of_dict (k1.dict (by decide))) e, fun st' hs' => ?_, fun k hk => ?_, fun k => ?_, hc⟩
        · rw [h] at hs'; cases hs'
          refine ⟨f st1, ?_, .inl ?_, ?_⟩
          · rw [gn, if_pos rfl]
          · rw [(hf st1).2, ha.1]
          · rw [(hf st1).1, ha.2]
        · rw [gn, if_neg hk]
        · rw [gn]
          split
          · rename_i hk; subst hk; exact ⟨rfl, rfl⟩
          · exact ⟨rfl, rfl⟩
      split
      · have kk : Only [.fabric] s1 (if st1.forigin = moduleId s1 then floodAbort c st1.forigin st1.fcode st1.idx none s1 else s1) :=
          Only.ite (floodAbort_only _ _ _ _ _ _) (Only.rfl' _)
        generalize (if st1.forigin = moduleId s1 then floodAbort c st1.forigin st1.fcode st1.idx none s1 else s1) = s2 at kk
        have k3 : Only [.dict, .sat, .host, .logs] s2 (post 0x0301 c (st1.fcode % 65536 + 2 ^ 16 * (st1.forigin % 4096)) (bumpDict (dkey 0x4040 0x04) 1 s2)) :=
          (bumpDict_only _ _ _).trans ((post_only _ _ _ _).mono (by decide))
        have k4 := (kk.mono (ks := [.fabric, .dict, .sat, .host, .logs]) (by decide)).step k3 (by decide)
        refine fin _ ?_ ⟨id, fun x => ⟨rfl, rfl⟩, fun k => ?_⟩ ?_
        · exact StageSame.trans (StageSame.of_dict (kk.dict (by decide)))
            (StageSame.trans (bumpDictW_stage _ _ _ _ (by decide)) (StageSame.of_dict rfl))
        · rw [Option.map_id]
          refine (show _ = getClient s1 k by unfold getClient; rw [k4.clients (by decide)]).trans ?_
          split
          · rename_i hkc; rw [hkc]; rfl
          · rfl
        · rw [k4.cat (by decide)]; exact ⟨rfl, rfl, rfl, rfl⟩
      · obtain ⟨p1, p2, p3, p4, p5, p6⟩ := stopStep_spec c st1 s1
        refine fin _ p1 ⟨fun st => { st with stopped := true, gates := [], commits := [] }, fun x => ⟨rfl, rfl⟩, fun k => ?_⟩ ⟨p3, p4, p5, p6⟩
        rw [← updStep_getClient]
        unfold getClient
        rw [p2]

theorem Halted.abort {r s : State} {c : Nat} (h : Halted r s c) (k : Nat) : Halted r (abortStep k s) c := by
  obtain ⟨-, a2, a3, -⟩ := abortStep_spec k s
  intro st hst
  obtain ⟨t, t1, t2, t3⟩ := h st hst
  by_cases hk : c = k
  · subst hk
    obtain ⟨u, u1, u2, u3⟩ := a2 t t1
    exact ⟨u, u1, u2, u3.trans t3⟩
  · exact ⟨t, by rw [a3 c hk]; exact t1, t2, t3⟩

theorem Halted.aborts {r : State} {c : Nat} (l : List Nat) {s : State} (h : Halted r s c) :
    Halted r (l.foldl (fun s c => abortStep c s) s) c := by
  induction l generalizing s with
  | nil => exact h
  | cons a l ih => exact ih (h.abort a)

/-- Aborting the steps of a list of clients. -/
theorem abortSteps_spec (l : List Nat) (s : State) : StageSame s (l.foldl (fun s c => abortStep c s) s) ∧
    (∀ c ∈ l, Halted s (l.foldl (fun s c => abortStep c s) s) c) ∧
    (∀ k, (getClient (l.foldl (fun s c => abortStep c s) s) k).state = (getClient s k).state ∧
      (getClient (l.foldl (fun s c => abortStep c s) s) k).dies = (getClient s k).dies) ∧
    (l.foldl (fun s c => abortStep c s) s).cat.ents = s.cat.ents ∧ (l.foldl (fun s c => abortStep c s) s).cat.staging = s.cat.staging ∧
    (l.foldl (fun s c => abortStep c s) s).cat.commits = s.cat.commits ∧ (l.foldl (fun s c => abortStep c s) s).cat.epochs = s.cat.epochs ∧
    Only [.dict, .sat, .cat, .plates, .tiles, .units, .clients, .fabric, .host, .logs, .free] s (l.foldl (fun s c => abortStep c s) s) := by
  induction l generalizing s with
  | nil => exact ⟨StageSame.of_dict rfl, fun c hc => absurd hc (by simp), fun k => ⟨rfl, rfl⟩, rfl, rfl, rfl, rfl, Only.rfl' _⟩
  | cons a l ih =>
    obtain ⟨a1, a2, a3, a4, a5, a6, a7, a8⟩ := abortStep_spec a s
    have ao : Only _ s (abortStep a s) := (abortStep_kept a (Kept.rfl' s) (by decide)).only (ks := [.dict, .sat, .cat, .plates, .tiles, .units, .clients, .fabric, .host, .logs, .free])
    obtain ⟨b1, b2, b4, b5, b6, b7, b8, b9⟩ := ih (abortStep a s)
    refine ⟨a1.trans b1, fun c hc => ?_, fun k => ⟨(b4 k).1.trans (a4 k).1, (b4 k).2.trans (a4 k).2⟩, b5.trans a5, b6.trans a6,
      b7.trans a7, b8.trans a8, ao.trans b9⟩
    by_cases h : c = a
    · subst h; exact a2.aborts l
    · rcases List.mem_cons.1 hc with rfl | hc
      · exact absurd rfl h
      · intro st hst
        exact b2 c hc st (by rw [a3 c h]; exact hst)

theorem runningOn_congr {s t : State} (h : ∀ k, (getClient t k).state = (getClient s k).state ∧ (getClient t k).dies = (getClient s k).dies)
    (f : Nat → Bool) : runningOn t f = runningOn s f := by
  unfold runningOn clientDies hasDie
  refine List.filter_congr fun c _ => ?_
  rw [(h c).1, (h c).2]

/-- Clearing a die's staging (R175, R319, R399). -/
theorem clearStaging_spec (d : DieId) (s : State) : (∀ x ∈ (clearStaging d s).cat.staging, x.die ≠ d) ∧
    (∀ x ∈ (clearStaging d s).cat.commits, x.die ≠ d) ∧ (clearStaging d s).cat.ents = s.cat.ents ∧
    (clearStaging d s).cat.epochs = s.cat.epochs ∧ Only [.cat, .clients] s (clearStaging d s) ∧
    (∀ k, (getClient (clearStaging d s) k).state = (getClient s k).state ∧ (getClient (clearStaging d s) k).dies = (getClient s k).dies ∧
      ∀ st, (getClient s k).step = some st → ∃ t, (getClient (clearStaging d s) k).step = some t ∧ t.idx = st.idx) := by
  unfold clearStaging
  dsimp only
  generalize hcs : List.filter (fun c => s.cat.staging.any fun x => decide (x.die = d) && decide (x.owner = c)) (List.range 16) = cs
  clear hcs
  have key : ∀ (cs : List Nat) (s : State), Only [.clients] s (cs.foldl (fun s c => updStep c (fun st => { st with notReady := true }) s) s) ∧
      ∀ k, (getClient (cs.foldl (fun s c => updStep c (fun st => { st with notReady := true }) s) s) k).state = (getClient s k).state ∧
        (getClient (cs.foldl (fun s c => updStep c (fun st => { st with notReady := true }) s) s) k).dies = (getClient s k).dies ∧
        ∀ st, (getClient s k).step = some st →
          ∃ t, (getClient (cs.foldl (fun s c => updStep c (fun st => { st with notReady := true }) s) s) k).step = some t ∧ t.idx = st.idx := by
    intro cs
    induction cs with
    | nil => exact fun s => ⟨Only.rfl' _, fun k => ⟨rfl, rfl, fun st h => ⟨st, h, rfl⟩⟩⟩
    | cons a cs ih =>
      intro s
      obtain ⟨i1, i2⟩ := ih (updStep a (fun st => { st with notReady := true }) s)
      refine ⟨(updStep_only _ _ _).trans i1, fun k => ?_⟩
      obtain ⟨j1, j2, j3⟩ := i2 k
      have g := updStep_getClient a (fun st => { st with notReady := true }) s k
      refine ⟨j1.trans ?_, j2.trans ?_, fun st h => ?_⟩
      · rw [g]; split
        · rename_i h; rw [h]
        · rfl
      · rw [g]; split
        · rename_i h; rw [h]
        · rfl
      · by_cases hk : k = a
        · subst hk
          obtain ⟨t, t1, t2⟩ := j3 { st with notReady := true } (by rw [g, if_pos rfl, h]; rfl)
          exact ⟨t, t1, t2⟩
        · exact j3 st (by rw [g, if_neg hk]; exact h)
  obtain ⟨k1, k2⟩ := key cs s
  generalize cs.foldl (fun s c => updStep c (fun st => { st with notReady := true }) s) s = s1 at k1 k2
  have hcat : s1.cat = s.cat := k1.cat (by decide)
  refine ⟨fun x hx => ?_, fun x hx => ?_, ?_, ?_, ?_, k2⟩
  · have := (List.mem_filter.1 hx).2
    simpa using this
  · have := (List.mem_filter.1 hx).2
    simpa using this
  · exact congrArg Catalog.ents hcat
  · exact congrArg Catalog.epochs hcat
  · refine (k1.mono (by decide)).trans ?_
    constructor <;> intro hp <;> first | rfl | exact absurd (by decide) hp

/-- What an eviction leaves of the clients and the stage's entries (R351). -/
theorem evictClient_spec (c : Nat) (say : Bool) (s : State) : StageSame s (evictClient c say s) ∧
    (∀ k, getClient (evictClient c say s) k = if k = c then {} else getClient s k) ∧
    Only [.mem, .regs, .dict, .sat, .cat, .plates, .tiles, .units, .clients, .fabric, .rot, .host, .logs, .free] s (evictClient c say s) := by
  refine ⟨?_, ?_, (evictClient_kept c say (Kept.rfl' s) (by decide)).only⟩
  all_goals
    unfold evictClient
    dsimp only
    obtain ⟨a1, -, a3, -⟩ := abortStep_spec c s
    generalize abortStep c s = s1 at a1 a3
    obtain ⟨s2, hs2⟩ : ∃ s2, s2 = (if say = true then endCommands c stEvicted s1
      else { s1 with host := { s1.host with fetched := s1.host.fetched.filter fun h => decide (queueClient h.q ≠ c) } }) := ⟨_, rfl⟩
    have k2 : Only [.host, .logs] s1 s2 := by
      rw [hs2]
      exact Only.ite ((endCommands_kept c stEvicted (Kept.rfl' s1) (by decide)).only)
        (by constructor <;> intro hp <;> first | rfl | exact absurd (by decide) hp)
    rw [← hs2]
    clear hs2
    have k3 := freeCtxs_only (fun x => decide (x.state ≠ 0) && decide (x.client = c)) s2
    have e3 := freeCtxs_stage (fun x => decide (x.state ≠ 0) && decide (x.client = c)) s2
    generalize freeCtxs (fun x => decide (x.state ≠ 0) && decide (x.client = c)) s2 = s3 at k3 e3
    obtain ⟨s5, hs5⟩ : ∃ s5, s5 = zeroLines c (bumpEpochs (seqIds c) (undefEntries c ((List.finRange 4).foldl (fun s d => discardStaged d c s) s3))) := ⟨_, rfl⟩
    have k5 : Only [.mem, .cat, .plates] s3 s5 := by
      rw [hs5]
      have h1 : Only [.mem, .cat, .plates] s3 ((List.finRange 4).foldl (fun s d => discardStaged d c s) s3) :=
        Only.foldl (fun s d => (discardStaged_kept d c (Kept.rfl' s) (by decide)).only) _ _
      exact ((h1.trans ((undefEntries_kept c (Kept.rfl' _) (by decide)).only)).trans
        ((bumpEpochs_kept _ (Kept.rfl' _) (by decide)).only)).trans ((zeroLines_kept c (Kept.rfl' _) (by decide)).only)
    rw [← hs5]
    clear hs5
    have hd : ∀ (l : List Nat) (m : State), Only [.regs, .cat, .plates, .tiles, .units] m (l.foldl (fun s d => if dieTaken s c d = true then s else freshDie d s) m) :=
      fun l m => Only.foldl (fun s d => Only.ite (Only.rfl' _) ((freshDie_kept d (Kept.rfl' _) (by decide)).only)) _ _
  · refine StageSame.trans (StageSame.trans (StageSame.trans (StageSame.trans a1 (StageSame.of_dict (k2.dict (by decide)))) e3)
      (StageSame.of_dict (k5.dict (by decide)))) ?_
    exact StageSame.of_dict ((hd _ _).dict (by decide))
  · intro k
    have hc : s5.clients = s1.clients := by rw [k5.clients (by decide), k3.clients (by decide), k2.clients (by decide)]
    unfold getClient at a3 ⊢
    rw [(hd _ _).clients (by decide)]
    show mget ({} : Client) (mset ({} : Client) s5.clients c {}) k = if k = c then ({} : Client) else mget {} s.clients k
    rw [mget_mset, hc]
    split
    · rfl
    · rename_i h; exact a3 k h

theorem evicts_spec (l : List Nat) (s : State) : StageSame s (l.foldl (fun s c => evictClient c false s) s) ∧
    (∀ k, getClient (l.foldl (fun s c => evictClient c false s) s) k = if k ∈ l then {} else getClient s k) ∧
    Only [.mem, .regs, .dict, .sat, .cat, .plates, .tiles, .units, .clients, .fabric, .rot, .host, .logs, .free] s
      (l.foldl (fun s c => evictClient c false s) s) := by
  induction l generalizing s with
  | nil => exact ⟨StageSame.of_dict rfl, fun k => by simp, Only.rfl' _⟩
  | cons a l ih =>
    obtain ⟨a1, a2, a3⟩ := evictClient_spec a false s
    obtain ⟨b1, b2, b3⟩ := ih (evictClient a false s)
    refine ⟨a1.trans b1, fun k => ?_, a3.trans b3⟩
    refine (b2 k).trans ?_
    rw [a2]
    by_cases h : k ∈ l
    · simp [h]
    · by_cases h' : k = a <;> simp [h, h']

theorem noteReset_only (k : Nat) (s : State) : Only [.dict, .sat, .host, .logs] s (noteReset k s) :=
  (noteReset_kept k (Kept.rfl' _) (by decide)).only

theorem noteReset_hostKept (k : Nat) (s : State) : HostKept s (noteReset k s) :=
  (HostKept.of_host rfl).trans (bumpDictW_hostKept _ _ _ _)

theorem hostReset_spec (s : State) : (∀ c, c < 16 → (getClient (hostReset s) c).state = 0) ∧
    (∀ c, c < 16 → (getClient s c).state ≠ 0 → getClient (hostReset s) c = {}) ∧ (hostReset s).cat.staging = [] ∧
    (hostReset s).cat.commits = [] ∧ (hostReset s).host.fetched = [] ∧ (hostReset s).mail = {} ∧
    (∀ a, 0xFF800000000 ≤ a → a < 0xFF804000000 → getReg (hostReset s) a = regReset a) ∧ ResetNoted 3 s (hostReset s) ∧
    (hostReset s).start = s.start ∧ (hostReset s).tick = s.tick ∧ (hostReset s).pending = s.pending := by
  unfold hostReset
  dsimp only
  generalize hcs : List.filter (fun c => decide ((getClient s c).state ≠ 0)) (List.range 16) = cs
  have hin : ∀ c, c < 16 → (c ∈ cs ↔ (getClient s c).state ≠ 0) := fun c hc => by rw [← hcs]; simp [hc]
  obtain ⟨a1, -, a4, -, -, -, -, a9⟩ := abortSteps_spec cs s
  generalize cs.foldl (fun s c => abortStep c s) s = s1 at a1 a4 a9
  obtain ⟨b1, b2, b3⟩ := evicts_spec cs { s1 with host := { s1.host with fetched := [] } }
  generalize cs.foldl (fun s c => evictClient c false s) _ = s3 at b1 b2 b3
  obtain ⟨s5, hs5⟩ : ∃ s5, s5 = clearBar0 (bumpEpochs [lockId 0 0 32] { s3 with cat := { s3.cat with staging := [], commits := [] } }) := ⟨_, rfl⟩
  have p5 : s5.cat.staging = [] ∧ s5.cat.commits = [] ∧ s5.host.fetched = [] ∧ s5.mail = {} ∧ s5.start = s3.start ∧ s5.tick = s3.tick ∧
      s5.pending = s3.pending ∧ s5.dict = s3.dict ∧ s5.clients = s3.clients ∧
      s5.regs = mdrop s3.regs (fun a => decide (0xFF800000000 ≤ a) && decide (a < 0xFF804000000)) := by
    rw [hs5]
    exact ⟨rfl, rfl, rfl, rfl, rfl, rfl, rfl, rfl, rfl, rfl⟩
  rw [← hs5]
  clear hs5
  obtain ⟨q1, q2, q3, q4, q5, q6, q7, q8, q9, q10⟩ := p5
  have o := noteReset_only 3 s5
  have hk := noteReset_hostKept 3 s5
  have st : StageSame s s5 := (StageSame.trans a1 b1).trans (StageSame.of_dict q8)
  have hcl : ∀ c, getClient (noteReset 3 s5) c = if c ∈ cs then {} else getClient s1 c := fun c => by
    have h : getClient (noteReset 3 s5) c = getClient s3 c := by unfold getClient; rw [o.clients (by decide), q9]
    rw [h, b2]
    rfl
  refine ⟨fun c hc => ?_, fun c hc hs => ?_, ?_, ?_, ?_, ?_, fun a h1 h2 => ?_, st.noted, ?_, ?_, ?_⟩
  · rw [hcl]
    split
    · rfl
    · rename_i h
      rw [(a4 c).1]
      by_contra hne
      exact h ((hin c hc).2 hne)
  · rw [hcl, if_pos ((hin c hc).2 hs)]
  · rw [o.cat (by decide), q1]
  · rw [o.cat (by decide), q2]
  · rw [hk.fetched, q3]
  · rw [o.mail (by decide), q4]
  · unfold getReg
    rw [o.regs (by decide), q10, mget_mdrop, if_pos (by simp [h1, h2])]
  · rw [o.start (by decide), q5, b3.start (by decide)]
    exact a9.start (by decide)
  · rw [o.tick (by decide), q6, b3.tick (by decide)]
    exact a9.tick (by decide)
  · rw [o.pending (by decide), q7, b3.pending (by decide)]
    exact a9.pending (by decide)

theorem mapCore_only (d frm : Nat) (s : State) : Only [.dict, .start] s (mapCore d frm s) :=
  (mapCore_kept d frm (Kept.rfl' s) (by decide)).only

theorem recordSwap_stage (a b c d e f g : Nat) (s : State) : StageSame s (recordSwap a b c d e f g s) := by
  unfold recordSwap
  dsimp only
  have h1 : StageSame s (bumpDict (dkey 0x8000 0x0F) 1 s) := bumpDictW_stage _ _ _ _ (by decide)
  generalize bumpDict (dkey 0x8000 0x0F) 1 s = m at h1
  split
  · exact h1
  · refine h1.trans (StageSame.trans (t := setErrata _ m) ?_ (StageSame.of_dict rfl))
    unfold setErrata
    exact StageSame.trans (StageSame.trans (StageSame.of_dict rfl) (setDict_stage _ _ _ (by decide))) (setDict_stage _ _ _ (by decide))

theorem doneSwap_stage (a b c d e : Nat) (s : State) : StageSame s (doneSwap a b c d e s) := by
  have h0 : StageSame s (takeSwap a b c d s).2 := by
    unfold takeSwap
    split <;> exact StageSame.of_dict rfl
  exact h0.trans (recordSwap_stage a b c d e _ 0 _)

theorem coreReset_spec (d : DieId) (core : Nat) (s : State) : (∀ x ∈ (coreReset d.val core s).cat.staging, x.die ≠ d) ∧
    (∀ x ∈ (coreReset d.val core s).cat.commits, x.die ≠ d) ∧ (coreReset d.val core s).cat.ents = s.cat.ents ∧
    (∀ c ∈ runningOn s (fun x => decide (d = 0) || decide (x = d.val)), Halted s (coreReset d.val core s) c) ∧
    mget 0 (coreReset d.val core s).cat.epochs (lockId 0 d.val (16 + core)) = mget 0 s.cat.epochs (lockId 0 d.val (16 + core)) + 1 ∧
    ResetNoted 4 s (coreReset d.val core s) ∧
    Only [.dict, .sat, .cat, .plates, .tiles, .units, .clients, .fabric, .host, .logs, .start, .wearS, .cur, .free] s (coreReset d.val core s) := by
  unfold coreReset
  dsimp only
  rw [dif_pos d.isLt]
  obtain ⟨c1, c2, c3, c4, c5, c6⟩ := clearStaging_spec d s
  have hr := runningOn_congr (t := clearStaging d s) (s := s) (fun k => ⟨(c6 k).1, (c6 k).2.1⟩)
  change (∀ x ∈ (noteReset 4 _).cat.staging, _) ∧ _
  rw [show (⟨d.val, d.isLt⟩ : Fin 4) = d from rfl]
  generalize clearStaging d s = s1 at c1 c2 c3 c4 c5 c6 hr
  have hd0 : (fun x => decide (d.val = 0) || decide (x = d.val)) = (fun x => decide (d = 0) || decide (x = d.val)) := by
    funext x
    congr 1
    exact decide_eq_decide.2 ⟨fun h => Fin.ext h, fun h => by rw [h]; rfl⟩
  rw [hd0, hr]
  obtain ⟨a1, a2, -, a5, a6, a7, a8, a9⟩ := abortSteps_spec (runningOn s fun x => decide (d = 0) || decide (x = d.val)) s1
  generalize (runningOn s fun x => decide (d = 0) || decide (x = d.val)).foldl (fun s c => abortStep c s) s1 = s2 at a1 a2 a5 a6 a7 a8 a9
  obtain ⟨s3, hs3⟩ : ∃ s3, s3 = bumpEpochs [lockId 0 d.val (16 + core)] s2 := ⟨_, rfl⟩
  have p3 : s3.cat.ents = s2.cat.ents ∧ s3.cat.staging = s2.cat.staging ∧ s3.cat.commits = s2.cat.commits ∧
      mget 0 s3.cat.epochs (lockId 0 d.val (16 + core)) = mget 0 s2.cat.epochs (lockId 0 d.val (16 + core)) + 1 ∧ Only [.cat] s2 s3 := by
    rw [hs3]
    refine ⟨rfl, rfl, rfl, ?_, (bumpEpochs_kept _ (Kept.rfl' _) (by decide)).only⟩
    rw [bumpEpochs_epochs]
    simp only [List.foldl_cons, List.foldl_nil, mupd]
    rw [mget_mset, if_pos rfl]
  rw [← hs3]
  clear hs3
  obtain ⟨q1, q2, q3, q4, q5⟩ := p3
  obtain ⟨s4, hs4⟩ : ∃ s4, s4 = (if d.val = 0 ∧ core = 0 then
      setDict (dkey 0xF000 0x01) 0 { s3 with
        logs := { s3.logs with evlog := [] }, cur := { s3.cur with challenge := none } }
    else s3) := ⟨_, rfl⟩
  have o4 : Only [.dict, .logs, .cur] s3 s4 := by
    rw [hs4]
    refine Only.ite ?_ (Only.rfl' _)
    constructor <;> intro hp <;> first | rfl | exact absurd (by decide) hp
  have e4 : StageSame s3 s4 := by
    rw [hs4]
    refine StageSame.ite ?_ (StageSame.of_dict rfl)
    exact StageSame.trans (StageSame.of_dict rfl) (setDict_stage _ _ _ (by decide))
  rw [← hs4]
  clear hs4
  obtain ⟨s5, hs5⟩ : ∃ s5, s5 = (if (s4.wearS.queue.any fun x => x.isOf 9 d.val 0 core) = true then doneSwap 9 d.val 0 core 4 (mapCore d.val core s4) else s4) := ⟨_, rfl⟩
  have o5 : Only [.dict, .start, .sat, .host, .logs, .wearS, .free] s4 s5 := by
    rw [hs5]
    refine Only.ite ?_ (Only.rfl' _)
    exact ((mapCore_only d.val core s4).mono (by decide)).trans ((doneSwap_kept 9 d.val 0 core 4 (Kept.rfl' (mapCore d.val core s4)) (by decide)).only)
  have e5 : StageSame s4 s5 := by
    rw [hs5]
    refine StageSame.ite (StageSame.trans ?_ (doneSwap_stage _ _ _ _ _ _)) (StageSame.of_dict rfl)
    unfold mapCore clearEntryBit
    exact StageSame.trans (setDict_stage _ _ _ (by decide)) (StageSame.of_dict rfl)
  rw [← hs5]
  clear hs5
  have o6 := noteReset_only 4 s5
  have hcat : (noteReset 4 s5).cat = s3.cat := by rw [o6.cat (by decide), o5.cat (by decide), o4.cat (by decide)]
  have hst : StageSame s s5 := (((StageSame.of_dict (c5.dict (by decide))).trans a1).trans (StageSame.of_dict (q5.dict (by decide)))).trans (e4.trans e5)
  refine ⟨fun x hx => ?_, fun x hx => ?_, ?_, fun c hc => ?_, ?_, hst.noted, ?_⟩
  · rw [hcat, q2, a6] at hx; exact c1 x hx
  · rw [hcat, q3, a7] at hx; exact c2 x hx
  · rw [hcat, q1, a5, c3]
  · intro st hs
    obtain ⟨t, t1, t2⟩ := (c6 c).2.2 st hs
    obtain ⟨u, u1, u2, u3⟩ := a2 c hc t t1
    refine ⟨u, ?_, u2, u3.trans t2⟩
    have : getClient (noteReset 4 s5) c = getClient s2 c := by
      unfold getClient
      rw [o6.clients (by decide), o5.clients (by decide), o4.clients (by decide), q5.clients (by decide)]
    rw [this, u1]
  · rw [hcat, q4, a8, c4]
  · exact (((((c5.mono (by decide)).step a9 (by decide)).step q5 (by decide)).step o4 (by decide)).step o5 (by decide)).step o6 (by decide)

theorem tileReset_spec (t : TileId) (s : State) : getTile (tileReset t s) t = {} ∧
    (∀ x ∈ (tileReset t s).cat.staging, x.die.val ≠ t.val / 16) ∧ (tileReset t s).cat.ents = s.cat.ents ∧
    (∀ c ∈ runningOn s (fun x => decide (x = t.val / 16)), Halted s (tileReset t s) c) ∧ ResetNoted 5 s (tileReset t s) ∧
    Only [.dict, .sat, .cat, .plates, .tiles, .units, .clients, .fabric, .host, .logs, .free] s (tileReset t s) := by
  unfold tileReset
  dsimp only
  have hd : t.val / 16 < 4 := by omega
  rw [dif_pos hd]
  obtain ⟨c1, c2, c3, c4, c5, c6⟩ := clearStaging_spec ⟨t.val / 16, hd⟩ s
  have hr := runningOn_congr (t := clearStaging ⟨t.val / 16, hd⟩ s) (s := s) (fun k => ⟨(c6 k).1, (c6 k).2.1⟩)
  generalize clearStaging ⟨t.val / 16, hd⟩ s = s1 at c1 c2 c3 c4 c5 c6 hr
  rw [hr]
  obtain ⟨a1, a2, -, a5, a6, a7, a8, a9⟩ := abortSteps_spec (runningOn s fun x => decide (x = t.val / 16)) s1
  generalize (runningOn s fun x => decide (x = t.val / 16)).foldl (fun s c => abortStep c s) s1 = s2 at a1 a2 a5 a6 a7 a8 a9
  obtain ⟨s3, hs3⟩ : ∃ s3, s3 = bumpEpochs ((List.range 16).map fun c => lockId c (t.val / 16) (t.val % 16)) (setTile t {} s2) := ⟨_, rfl⟩
  have p3 : s3.cat.ents = s2.cat.ents ∧ s3.cat.staging = s2.cat.staging ∧ getTile s3 t = {} ∧ Only [.cat, .tiles] s2 s3 := by
    have kt : Only [.cat, .tiles] s2 (setTile t {} s2) := (setTile_kept t {} (Kept.rfl' s2) (by decide)).only
    have gt : getTile (setTile t {} s2) t = {} := by rw [getTile_setTile, if_pos rfl]
    have gc : (setTile t {} s2).cat = s2.cat := rfl
    generalize setTile t {} s2 = m at hs3 kt gt gc
    generalize ((List.range 16).map fun c => lockId c (t.val / 16) (t.val % 16)) = l at hs3
    have kb : Only [.cat, .tiles] m s3 := by
      rw [hs3]; exact (bumpEpochs_kept _ (Kept.rfl' _) (by decide)).only
    refine ⟨?_, ?_, ?_, kt.trans kb⟩
    · rw [hs3, ← gc]; rfl
    · rw [hs3, ← gc]; rfl
    · rw [hs3]; exact gt
  rw [← hs3]
  clear hs3
  obtain ⟨q1, q2, q3, q4⟩ := p3
  have o6 := noteReset_only 5 s3
  have hst : StageSame s s3 := ((StageSame.of_dict (c5.dict (by decide))).trans a1).trans (StageSame.of_dict (q4.dict (by decide)))
  refine ⟨?_, fun x hx => ?_, ?_, fun c hc => ?_, hst.noted, ?_⟩
  · rw [getTile_congr (o6.tiles (by decide)), q3]
  · rw [o6.cat (by decide), q2, a6] at hx
    intro h
    exact c1 x hx (Fin.ext h)
  · rw [o6.cat (by decide), q1, a5, c3]
  · intro st hs
    obtain ⟨x, t1, t2⟩ := (c6 c).2.2 st hs
    obtain ⟨u, u1, u2, u3⟩ := a2 c hc x t1
    refine ⟨u, ?_, u2, u3.trans t2⟩
    have : getClient (noteReset 5 s3) c = getClient s2 c := by
      unfold getClient
      rw [o6.clients (by decide), q4.clients (by decide)]
    rw [this, u1]
  · exact (((c5.mono (by decide)).step a9 (by decide)).step q4 (by decide)).step o6 (by decide)

end Sys2Proof.Machine
end

