-- ==== Sys2Proof/Laws/FolioOps.lean ====
section
/-! SUPPORT. Folio operations: COPY word by word, lock words, and what an operation that runs does (R184 to R188). -/

set_option Elab.async false

namespace Sys2Proof.Machine

theorem poisonWord_eq (k : Nat) (v : Word) (s : State) :
    poisonWord k v s = if s.storable (8 * k) then { s with mem := s.mem.setWord k v poisonSynd } else s := by
  unfold poisonWord State.storable
  cases regionOf (8 * k) with
  | none => simp
  | folio _ => simp
  | stack i => cases hf : stackFailed s i <;> simp [hf]

theorem eccWord_poison (v : Word) : eccWord v poisonSynd = ⟨v, true⟩ := by
  have : eccDecode poisonSynd = .bad := by decide +kernel
  unfold eccWord
  rw [this]

theorem poisonWord_peek (k j : Nat) (v : Word) (s : State) :
    peekWord (poisonWord k v s) j = if j = k ∧ s.storable (8 * k) then ⟨v, true⟩ else peekWord s j := by
  rw [poisonWord_eq]
  by_cases h : s.storable (8 * k)
  · rw [if_pos h, peekWord_setWord]
    by_cases hj : j = k
    · have hd : deadWord s k = false := by
        unfold State.storable at h
        unfold deadWord
        revert h
        cases regionOf (8 * k) <;> simp
      rw [hd, eccWord_poison]
      simp [hj, h]
    · rw [if_neg hj, if_neg (by simp [hj])]
  · rw [if_neg h, if_neg (by simp [h])]

theorem poisonWord_failed (k i : Nat) (v : Word) (s : State) : stackFailed (poisonWord k v s) i = stackFailed s i := by
  rw [poisonWord_eq]; split <;> rfl

theorem storable_of {s t : State} (hf : ∀ i, stackFailed t i = stackFailed s i) (a : Nat) : t.storable a = s.storable a := by
  unfold State.storable; simp only [hf]

theorem copyWord_spec (c : Nat) (d : DieId) (de se : Entry) (doff soff : Nat) (p : Bool × State) (i : Nat) :
    let n := copyWord c d de se doff soff p i
    let sk := addrOf se d.val (soff + 8 * i) / 8
    let dk := addrOf de d.val (doff + 8 * i) / 8
    n.1 = (p.1 || (peekWord p.2 sk).poison) ∧
    (∀ k, peekWord n.2 k = if k = dk ∧ p.2.storable (8 * dk) = true then peekWord p.2 sk else peekWord p.2 k) ∧
    (∀ j, stackFailed n.2 j = stackFailed p.2 j) ∧ n.2 = p.2.access n.2 := by
  unfold copyWord
  dsimp only
  generalize hsa : addrOf se d.val (soff + 8 * i) = sa
  generalize hda : addrOf de d.val (doff + 8 * i) = da
  have w0 := wakeBank_same sa p.2
  have a0 := wakeBank_access sa p.2
  generalize wakeBank sa p.2 = s0 at w0 a0 ⊢
  have v1 := readWord_val c false (sa / 8) s0
  have w1 := readWord_same c false (sa / 8) s0
  have a1 := readWord_access c false (sa / 8) s0
  generalize readWord c false (sa / 8) s0 = q at v1 w1 a1 ⊢
  have w2 := wakeBank_same da q.2
  have a2 := wakeBank_access da q.2
  generalize wakeBank da q.2 = s2 at w2 a2 ⊢
  have w := (w0.trans w1).trans w2
  have hq : q.1 = peekWord p.2 (sa / 8) := by rw [v1, w0.peek]
  have a := State.access_trans (State.access_trans a0 a1) a2
  rw [hq]
  refine ⟨rfl, fun k => ?_, fun j => ?_, ?_⟩
  · split
    · rename_i hp
      rw [poisonWord_peek, storable_of w.failed, w.peek]
      split
      · generalize peekWord p.2 (sa / 8) = x at hp ⊢
        cases x; cases hp; rfl
      · rfl
    · rename_i hp
      rw [writeWord_peek, storable_of w.failed, w.peek]
      split
      · generalize peekWord p.2 (sa / 8) = x at hp ⊢
        cases x with
        | mk v b => cases b with
          | true => exact absurd rfl hp
          | false => rfl
      · rfl
  · split
    · rw [poisonWord_failed, w.failed]
    · rw [writeWord_failed, w.failed]
  · split
    · exact State.access_trans a (poisonWord_access _ _ _)
    · exact State.access_trans a (writeWord_access _ _ _)

theorem copyWords_spec (c : Nat) (d : DieId) (de se : Entry) (doff soff : Nat) (s : State)
    (n : Nat) (src dst : Nat → Nat) (hsrc : ∀ i, addrOf se d.val (soff + 8 * i) / 8 = src i)
    (hdst : ∀ i, addrOf de d.val (doff + 8 * i) / 8 = dst i) (hinj : ∀ i j, i < n → j < n → dst i = dst j → i = j)
    (hsep : ∀ i j, i < n → j < n → dst i ≠ src j) (hst : ∀ i, i < n → s.storable (8 * dst i) = true) :
    ∀ m, m ≤ n → let t := (List.range m).foldl (copyWord c d de se doff soff) (false, s)
    t.1 = ((List.range m).any fun i => (peekWord s (src i)).poison) ∧
    (∀ i, i < m → peekWord t.2 (dst i) = peekWord s (src i)) ∧
    (∀ k, (∀ i, i < m → dst i ≠ k) → peekWord t.2 k = peekWord s k) ∧
    (∀ j, stackFailed t.2 j = stackFailed s j) ∧ t.2 = s.access t.2 := by
  intro m
  induction m with
  | zero => intro _; exact ⟨rfl, fun i h => absurd h (by omega), fun k _ => rfl, fun j => rfl, State.access_rfl _⟩
  | succ m ih =>
    intro hm
    obtain ⟨i1, i2, i3, i4, i5⟩ := ih (by omega)
    rw [List.range_succ, List.foldl_append]
    simp only [List.foldl_cons, List.foldl_nil]
    generalize (List.range m).foldl (copyWord c d de se doff soff) (false, s) = t at i1 i2 i3 i4 i5 ⊢
    obtain ⟨c1, c2, c3, c4⟩ := copyWord_spec c d de se doff soff t m
    rw [hsrc, hdst] at c2
    rw [hsrc] at c1
    have hs : t.2.storable (8 * dst m) = true := by rw [storable_of i4]; exact hst m (by omega)
    have hp : peekWord t.2 (src m) = peekWord s (src m) := i3 _ fun i hi => hsep i m (by omega) (by omega)
    rw [hp] at c1
    generalize copyWord c d de se doff soff t m = n' at c1 c2 c3 c4 ⊢
    refine ⟨?_, fun i hi => ?_, fun k hk => ?_, fun j => by rw [c3, i4], State.access_trans i5 c4⟩
    · rw [c1, i1]; simp
    · rw [c2]
      by_cases h : i = m
      · subst h; rw [if_pos ⟨rfl, hs⟩, hp]
      · rw [if_neg (fun e => h (hinj i m (by omega) (by omega) e.1))]
        exact i2 i (by omega)
    · rw [c2, if_neg (fun e => hk m (by omega) e.1.symm)]
      exact i3 k fun i hi => hk i (by omega)

theorem afterWrite_spec (name : Nat) (e : Entry) (off len : Nat) (s : State) :
    SlotsSet s (afterWrite name e off len s) name e off len true ∧
    afterWrite name e off len s = { s with cat := { s.cat with full := (afterWrite name e off len s).cat.full } } := by
  unfold afterWrite
  obtain ⟨f1, f2, f3⟩ := foldl_setSlot name (coversLast e off len) true (slotsOf e off len) s
  exact ⟨⟨f1, f2⟩, f3⟩

theorem fopLock_spec (c me : Nat) (d : DieId) (r : FopRec) (s : State)
    (hst : s.storable (8 * (addrOf (getEnt s (d.val * 4096 + fopDh r)) d.val (fopDoff r) / 8)) = true) :
    let dk := addrOf (getEnt s (d.val * 4096 + fopDh r)) d.val (fopDoff r) / 8
    let old := peekWord s dk
    let held := bit old.val 0
    let owner := fld old.val 8 12
    let live := held && decide ((epochOf s owner).toNat = fld old.val 32 32)
    let p := fopLock c me d r s
    (∀ k, k ≠ dk → peekWord p.2 k = peekWord s k) ∧ p.2 = s.access p.2 ∧
    if old.poison then p.1 = fopWord 4 false 0 ∧ peekWord p.2 dk = old
    else if fopCode r = 4 then
      if live then p.1 = fopWord 1 false owner ∧ peekWord p.2 dk = old
      else p.1 = fopWord 0 held 0 ∧ peekWord p.2 dk = ⟨lockWord held me (epochOf s me), false⟩
    else if live ∧ owner = me then p.1 = fopWord 0 false 0 ∧ peekWord p.2 dk = ⟨0, false⟩
    else p.1 = fopWord 2 false owner ∧ peekWord p.2 dk = old := by
  intro dk
  unfold fopLock
  dsimp only
  have hdk : addrOf (getEnt s (d.val * 4096 + fopDh r)) d.val (fopDoff r) / 8 = dk := rfl
  have w0 := wakeBank_same (addrOf (getEnt s (d.val * 4096 + fopDh r)) d.val (fopDoff r)) s
  have a0 := wakeBank_access (addrOf (getEnt s (d.val * 4096 + fopDh r)) d.val (fopDoff r)) s
  rw [hdk] at hst ⊢
  clear_value dk
  generalize wakeBank (addrOf (getEnt s (d.val * 4096 + fopDh r)) d.val (fopDoff r)) s = s0 at w0 a0 ⊢
  have v1 := readWord_val c false dk s0
  have w1 := readWord_same c false dk s0
  have a1 := readWord_access c false dk s0
  generalize readWord c false dk s0 = q at v1 w1 a1 ⊢
  rw [w0.peek] at v1
  rw [v1]
  have w := w0.trans w1
  have a := State.access_trans a0 a1
  have hep : ∀ i, epochOf q.2 i = epochOf s i := fun i => by
    unfold epochOf
    rw [(only_of_access a).cat (by decide)]
  simp only [hep]
  have hst' : q.2.storable (8 * dk) = true := by rw [storable_of w.failed]; exact hst
  have hwr : ∀ (v : Word), (∀ k, k ≠ dk → peekWord (writeWord dk v q.2) k = peekWord s k) ∧
      writeWord dk v q.2 = s.access (writeWord dk v q.2) ∧ peekWord (writeWord dk v q.2) dk = ⟨v, false⟩ := by
    intro v
    refine ⟨fun k hk => ?_, State.access_trans a (writeWord_access _ _ _), ?_⟩
    · rw [writeWord_peek, if_neg (by simp [hk]), w.peek]
    · rw [writeWord_peek, if_pos ⟨rfl, hst'⟩]
  have hbd : ∀ (k : Nat) (y : State), SameStore y (bumpDict k 1 y) := fun k y =>
    SameStore.of ((bumpDict_only k 1 y).mem (by decide)) (stackFailed_congr ((bumpDict_only k 1 y).regs (by decide)))
  generalize dkey 0x3100 0x0B = kk
  split
  · exact ⟨fun k _ => w.peek k, a, rfl, w.peek dk⟩
  · split
    · split
      · exact ⟨fun k _ => w.peek k, a, rfl, w.peek dk⟩
      · obtain ⟨h1, h2, h3⟩ := hwr (lockWord (bit (peekWord s dk).val 0) me (epochOf s me))
        generalize writeWord dk (lockWord (bit (peekWord s dk).val 0) me (epochOf s me)) q.2 = y at h1 h2 h3 ⊢
        split
        · refine ⟨fun k hk => ?_, State.access_trans h2 (State.access_of_accounts (bumpDict_accounts _ _ _)), rfl, ?_⟩
          · rw [(hbd _ _).peek, h1 k hk]
          · rw [(hbd _ _).peek, h3]
        · exact ⟨h1, h2, rfl, h3⟩
    · split
      · obtain ⟨h1, h2, h3⟩ := hwr 0
        exact ⟨h1, h2, rfl, h3⟩
      · exact ⟨fun k _ => w.peek k, a, rfl, w.peek dk⟩

theorem flatOf_mod (e : Entry) (o : Nat) : flatOf e o % 64 = o % 64 := by
  unfold flatOf
  dsimp only
  omega

theorem addrOf_mod (e : Entry) (d o : Nat) (hk : e.kind = 1) : addrOf e d o % 64 = o % 64 := by
  unfold addrOf folioBase
  rw [if_pos hk]
  have := flatOf_mod e o
  omega

theorem fopHandle_kind {c : Option Nat} {e : Entry} (h : fopHandle c e = true) : e.kind = 1 := by
  unfold fopHandle at h
  rw [Bool.and_eq_true] at h
  exact of_decide_eq_true h.1

theorem overlaps_none {dn : Nat} {de : Entry} {doff sn : Nat} {se : Entry} {soff n : Nat}
    (h : copyOverlaps dn de doff sn se soff n = false) (i j : Nat) (hi : i < cdiv n 8) (hj : j < cdiv n 8) :
    ¬ (addrOf de (dn / 4096) (doff + 8 * i) < addrOf se (sn / 4096) (soff + 8 * j) + 8 ∧
      addrOf se (sn / 4096) (soff + 8 * j) < addrOf de (dn / 4096) (doff + 8 * i) + 8) := by
  intro hx
  have : copyOverlaps dn de doff sn se soff n = true := by
    unfold copyOverlaps bufSpans
    refine List.any_eq_true.2 ⟨_, List.mem_map.2 ⟨i, List.mem_range.2 hi, rfl⟩, ?_⟩
    refine List.any_eq_true.2 ⟨_, List.mem_map.2 ⟨j, List.mem_range.2 hj, rfl⟩, ?_⟩
    simp [hx.1, hx.2]
  rw [h] at this
  cases this

theorem fopRun_effect {client : Option Nat} {me : Nat} {own : Option Nat} {d : DieId} {r : FopRec} {s : State}
    (hr : fopReserved client d r s = false) (hw : FopReady s d r) (hp : (getEnt s (d.val * 4096 + fopDh r)).placed)
    (hst : ∀ o, o < (getEnt s (d.val * 4096 + fopDh r)).len →
      s.storable (addrOf (getEnt s (d.val * 4096 + fopDh r)) d.val o) = true) :
    ∃ m w, fopRun client me own d r s = (.done w, m) ∧ FopEffect s m me (((own.bind (findFlight s)).map fun f =>
      f.win.names.any fun n => decide (n.1 = d.val * 4096 + fopDh r)).getD false) d r w := by
  have hdn : (d.val * 4096 + fopDh r) / 4096 = d.val := by
    have : fopDh r < 4096 := by unfold fopDh fld; exact Nat.mod_lt _ (by decide)
    omega
  have hsn : (d.val * 4096 + fopSh r) / 4096 = d.val := by
    have : fopSh r < 4096 := by unfold fopSh fld; exact Nat.mod_lt _ (by decide)
    omega
  unfold FopReady at hw
  unfold fopRun
  dsimp only at hw ⊢
  rw [if_neg (by rw [hr]; simp)]
  unfold fopReserved at hr
  dsimp only at hr
  by_cases h1 : fopCode r = 1
  · rw [if_pos h1, if_pos (hw.1 (.inl h1))]
    refine ⟨_, _, rfl, fun _ => ⟨rfl, ?_⟩, fun h => absurd h (by omega), fun h => absurd h (by omega), fun h => absurd h (by omega)⟩
    exact putBuf_wrote _ _ hp _ _ _
  · rw [if_neg h1] at hr ⊢
    by_cases h2 : fopCode r = 2
    · rw [if_pos h2] at hr ⊢
      rw [if_pos (by rw [hw.1 (.inr h2), hw.2 h2]; rfl)]
      unfold fopCopy
      dsimp only
      simp only [Bool.or_eq_false_iff, decide_eq_false_iff_not, Bool.not_eq_false', not_or, Nat.not_lt, not_not] at hr
      obtain ⟨⟨⟨⟨⟨r1, r2⟩, r3⟩, r4⟩, r5⟩, r6⟩ := hr
      have k1 := fopHandle_kind r1
      have k2 := fopHandle_kind r2
      obtain ⟨q1, q2, q3, q4⟩ := r3
      have hov := overlaps_none r6
      rw [hdn, hsn] at hov
      have hcd : cdiv (fopLen r) 8 = fopLen r / 8 := by unfold cdiv; omega
      rw [hcd] at hov
      refine ⟨_, _, rfl, fun h => absurd h h1, fun _ => ?_, fun h => absurd h (by omega), fun h => absurd h (by omega)⟩
      have ha : ∀ i, addrOf (getEnt s (d.val * 4096 + fopDh r)) d.val (fopDoff r + 8 * i) % 64 = (fopDoff r + 8 * i) % 64 := fun i => addrOf_mod _ _ _ k1
      have hb : ∀ i, addrOf (getEnt s (d.val * 4096 + fopSh r)) d.val (fopSoff r + 8 * i) % 64 = (fopSoff r + 8 * i) % 64 := fun i => addrOf_mod _ _ _ k2
      have hc := copyWords_spec (client.getD 16) d (getEnt s (d.val * 4096 + fopDh r)) (getEnt s (d.val * 4096 + fopSh r)) (fopDoff r) (fopSoff r) s (fopLen r / 8)
        (fun i => addrOf (getEnt s (d.val * 4096 + fopSh r)) d.val (fopSoff r + 8 * i) / 8) (fun i => addrOf (getEnt s (d.val * 4096 + fopDh r)) d.val (fopDoff r + 8 * i) / 8)
        (fun _ => rfl) (fun _ => rfl) (fun i j _ _ h => by
          have h' : addrOf (getEnt s (d.val * 4096 + fopDh r)) d.val (fopDoff r + 8 * i) = addrOf (getEnt s (d.val * 4096 + fopDh r)) d.val (fopDoff r + 8 * j) := by
            have := ha i; have := ha j; have h : _ / 8 = _ / 8 := h; omega
          have := addrOf_inj hp d.val h'
          omega)
        (fun i j hi hj h => by
          have := hov i j hi hj
          have := ha i; have := hb j; have h : _ / 8 = _ / 8 := h; omega)
        (fun i hi => by
          show s.storable (8 * (addrOf (getEnt s (d.val * 4096 + fopDh r)) d.val (fopDoff r + 8 * i) / 8)) = true
          rw [storable_word]
          exact hst _ (by omega)) (fopLen r / 8) (Nat.le_refl _)
      obtain ⟨c1, c2, c3, c4, c5⟩ := hc
      have key : ∀ t : Bool × State, (t.1 = (List.range (fopLen r / 8)).any fun i => (peekWord s
            (addrOf (getEnt s (d.val * 4096 + fopSh r)) d.val (fopSoff r + 8 * i) / 8)).poison) →
          (∀ i, i < fopLen r / 8 → peekWord t.2 (addrOf (getEnt s (d.val * 4096 + fopDh r)) d.val (fopDoff r + 8 * i) / 8) =
            peekWord s (addrOf (getEnt s (d.val * 4096 + fopSh r)) d.val (fopSoff r + 8 * i) / 8)) →
          (∀ k, (∀ i, i < fopLen r / 8 → addrOf (getEnt s (d.val * 4096 + fopDh r)) d.val (fopDoff r + 8 * i) / 8 ≠ k) →
            peekWord t.2 k = peekWord s k) → t.2 = s.access t.2 → ∀ m,
          m = afterWrite (d.val * 4096 + fopDh r) (getEnt s (d.val * 4096 + fopDh r)) (fopDoff r) (fopLen r) t.2 →
          fopWord (if t.1 then 4 else 0) false 0 = fopWord (if (List.range (fopLen r / 8)).any (fun i => (peekWord s
            (addrOf (getEnt s (d.val * 4096 + fopSh r)) d.val (fopSoff r + 8 * i) / 8)).poison) then 4 else 0) false 0 ∧
          (∀ i, i < fopLen r / 8 → peekWord m (addrOf (getEnt s (d.val * 4096 + fopDh r)) d.val (fopDoff r + 8 * i) / 8) =
            peekWord s (addrOf (getEnt s (d.val * 4096 + fopSh r)) d.val (fopSoff r + 8 * i) / 8)) ∧
          (∀ k, (∀ i, i < fopLen r / 8 → addrOf (getEnt s (d.val * 4096 + fopDh r)) d.val (fopDoff r + 8 * i) / 8 ≠ k) →
            peekWord m k = peekWord s k) ∧
          SlotsSet s m (d.val * 4096 + fopDh r) (getEnt s (d.val * 4096 + fopDh r)) (fopDoff r) (fopLen r) true ∧
          m = { s.access m with cat := { s.cat with full := m.cat.full } } := by
        intro t c1 c2 c3 c5 m hm
        obtain ⟨a1, a2⟩ := afterWrite_spec (d.val * 4096 + fopDh r) (getEnt s (d.val * 4096 + fopDh r)) (fopDoff r) (fopLen r) t.2
        rw [← hm] at a1 a2
        have hpm : ∀ k, peekWord m k = peekWord t.2 k := (SameStore.of (by rw [a2]) (stackFailed_congr (by rw [a2]))).peek
        refine ⟨by rw [c1], fun i hi => by rw [hpm]; exact c2 i hi, fun k hk => by rw [hpm]; exact c3 k hk, ⟨a1.1, fun k hk => ?_⟩, ?_⟩
        · rw [a1.2 k hk, c5]; rfl
        · rw [a2, c5]; rfl
      exact key _ c1 c2 c3 c5 _ rfl
    · rw [if_neg h2] at hr ⊢
      by_cases h3 : fopCode r = 3
      · rw [if_pos h3]
        have hm : (match own with
            | some id => ((findFlight s id).map fun f => f.win.names.any fun n => decide (n.1 = d.val * 4096 + fopDh r)).getD false
            | none => false) = (((own.bind (findFlight s)).map fun f =>
              f.win.names.any fun n => decide (n.1 = d.val * 4096 + fopDh r)).getD false) := by
          cases own <;> rfl
        have key : ∀ b : Bool, ∃ m w, (if useCount s (d.val * 4096 + fopDh r) = b2n b then
            (FopOut.done (fopWord 0 false 0), clearSlots (d.val * 4096 + fopDh r) s) else (FopOut.done (fopWord 3 false 0), s)) = (.done w, m) ∧
            FopEffect s m me b d r w := by
          intro b
          by_cases hu : useCount s (d.val * 4096 + fopDh r) = b2n b
          · rw [if_pos hu]
            refine ⟨_, _, rfl, fun h => absurd h h1, fun h => absurd h h2, fun _ => ?_, fun h => absurd h (by omega)⟩
            rw [if_pos hu]
            refine ⟨rfl, fun j hj => ?_, fun k j hj hk => ?_, rfl⟩
            · rw [clearSlots_full _ _ _ hj, if_pos rfl]
            · rw [clearSlots_full _ _ _ hj, if_neg hk]
          · rw [if_neg hu]
            refine ⟨_, _, rfl, fun h => absurd h h1, fun h => absurd h h2, fun _ => ?_, fun h => absurd h (by omega)⟩
            rw [if_neg hu]
            exact ⟨rfl, rfl⟩
        have := key (((own.bind (findFlight s)).map fun f =>
              f.win.names.any fun n => decide (n.1 = d.val * 4096 + fopDh r)).getD false)
        cases own <;> exact this
      · rw [if_neg h3] at hr ⊢
        refine ⟨_, _, rfl, fun h => absurd h h1, fun h => absurd h h2, fun h => absurd h h3, fun h45 => ?_⟩
        rw [if_pos h45] at hr
        simp only [Bool.or_eq_false_iff, decide_eq_false_iff_not, Bool.not_eq_false', Nat.not_lt, not_not] at hr
        obtain ⟨⟨r1, r2⟩, r3⟩ := hr
        have hl := fopLock_spec (client.getD 16) me d r s (by rw [storable_word]; exact hst _ (by omega))
        exact hl

theorem fopRun_waits {client : Option Nat} {me : Nat} {own : Option Nat} {d : DieId} {r : FopRec} {s : State}
    (hr : fopReserved client d r s = false) (hw : ¬ FopReady s d r) : fopRun client me own d r s = (.waits, s) := by
  unfold FopReady at hw
  unfold fopRun
  dsimp only at hw ⊢
  rw [if_neg (by rw [hr]; simp)]
  split
  · rename_i h1
    rw [if_neg]
    intro h
    exact hw ⟨fun _ => h, fun h2 => absurd h2 (by omega)⟩
  · split
    · rename_i h2
      rw [if_neg]
      intro h
      rw [Bool.and_eq_true] at h
      exact hw ⟨fun _ => h.1, fun _ => h.2⟩
    · rename_i h1 h2
      exact absurd ⟨fun h => absurd h (by simp [h1, h2]), fun h => absurd h h2⟩ hw

end Sys2Proof.Machine
end

