-- ==== Sys2Proof/Laws/Plates.lean ====
section
/-! SUPPORT. Plates: faults raised, the caches, plate fetch (R221, R225, R229, R231). -/

set_option Elab.async false

namespace Sys2Proof.Machine


theorem raiseFault_raised (client code detail : Nat) (s : State) : Raised s (raiseFault client code detail s) code client detail := by
  have hp : ∀ k, getClient (post code client detail s) k = getClient s k := fun k => getClient_congr rfl k
  unfold raiseFault
  dsimp only
  split
  · rename_i h
    split
    · rename_i st hst
      rw [hp] at hst
      split
      · rename_i ha
        refine ⟨rfl, fun k _ => hp k, ?_⟩
        rw [if_pos h, hst, hp]
        simp only [Option.map_some]
        rw [if_pos ha, ← hst]
      · rename_i ha
        refine ⟨rfl, fun k hk => ?_, ?_⟩
        · rw [getClient_setClient, if_neg hk, hp]
        · rw [getClient_setClient, if_pos rfl, hp, if_pos h, hst]
          simp only [Option.map_some]
          rw [if_neg ha]
    · rename_i hst
      rw [hp] at hst
      refine ⟨rfl, fun k _ => hp k, ?_⟩
      rw [hp, if_pos h, hst, Option.map_none, ← hst]
  · rename_i h
    refine ⟨rfl, fun k _ => hp k, ?_⟩
    rw [if_neg h, hp]

theorem setCaches_only (t : Nat) (x : Caches) (s : State) : Only [.plates] s (setCaches t x s) := only_plates _ s

theorem setCaches_eng (t : Nat) (x : Caches) (s : State) (e : Eng) : getEng (setCaches t x s) e = getEng s e := rfl

@[simp] theorem getCaches_setCaches (t u : Nat) (x : Caches) (s : State) :
    getCaches (setCaches t x s) u = if u = t then x else getCaches s u := mget_mset _ _ _ _ _

theorem useName_only (t : Nat) (s : State) (k : Nat) : Only [.plates] s (useName t s k) := setCaches_only _ _ _

theorem useName_eng (t : Nat) (s : State) (k : Nat) (e : Eng) : getEng (useName t s k) e = getEng s e := rfl

theorem foldl_useName_eng (t : Nat) (l : List Nat) (e : Eng) : ∀ s, getEng (l.foldl (useName t) s) e = getEng s e := by
  induction l with
  | nil => intro s; rfl
  | cons k l ih => intro s; rw [List.foldl_cons, ih]; rfl

theorem noteTokenFault_only (d f r k : Nat) (s : State) : Only [.regs] s (noteTokenFault d f r k s) := setReg_only _ _ _

theorem fetchLine_spec (c a : Nat) (s : State) : (fetchLine c a s).1 = wordsOf 8 ((List.range 64).map fun i => (s.peek (a + i)).1) ∧
    SameStore s (fetchLine c a s).2 ∧ (fetchLine c a s).2 = s.access (fetchLine c a s).2 := by
  unfold fetchLine
  dsimp only
  refine ⟨?_, readMem_same _ _ _ _ _, readMem_access _ _ _ _ _⟩
  rw [readMem_val]
  unfold plain
  rw [List.map_map]
  rfl

theorem cachedLine_spec (t c a : Nat) (s : State) : (cachedLine t c a s).1 =
      (cachedWords s t (a / 64)).getD (wordsOf 8 ((List.range 64).map fun i => (s.peek (a + i)).1)) ∧
    SameStore s (cachedLine t c a s).2 ∧ Only (.plates :: accessParts) s (cachedLine t c a s).2 ∧
    ∀ e, getEng (cachedLine t c a s).2 e = getEng s e := by
  unfold cachedLine cachedWords
  dsimp only
  generalize dkey 0x4040 0x05 = kk
  have k1 := bumpDict_only kk 1 s
  have q1 : SameStore s (bumpDict kk 1 s) := SameStore.of (k1.mem (by decide)) (stackFailed_congr (k1.regs (by decide)))
  generalize bumpDict kk 1 s = s1 at k1 q1 ⊢
  obtain ⟨f1, f2, f3⟩ := fetchLine_spec c a s1
  cases hf : (getCaches s t).lines.find? fun x => decide (x.1 = a / 64) with
  | some x => exact ⟨rfl, SameStore.of rfl (fun _ => rfl), (setCaches_only _ _ _).mono (by decide), fun e => rfl⟩
  | none =>
    dsimp only
    generalize fetchLine c a s1 = p at f1 f2 f3 ⊢
    refine ⟨?_, (q1.trans f2).trans (SameStore.of rfl (fun _ => rfl)), ?_, fun e => ?_⟩
    · rw [f1]
      show wordsOf 8 _ = wordsOf 8 _
      congr 1
      refine List.map_congr_left fun i _ => ?_
      rw [q1.peekByte]
    · exact ((k1.mono (by decide)).step (only_of_access f3) (by decide)).step (setCaches_only _ _ _) (by decide)
    · rw [setCaches_eng, getEng_congr ((only_of_access f3).plates (by decide)), getEng_congr (k1.plates (by decide))]

end Sys2Proof.Machine
end

