-- ==== Sys2Proof/Laws/Stacks.lean ====
section
/-! SUPPORT. Scrubbing, spare dies and failures of stacks (R331 to R333). -/

set_option Elab.async false

namespace Sys2Proof.Machine

theorem readWord_syn (c : Nat) (b : Bool) (k j : Nat) (s : State) :
    (readWord c b k s).2.mem.syn j = if j = k ∧ (peekWord s k).poison = false then 0 else s.mem.syn j := by
  unfold readWord
  dsimp only
  split
  · rename_i hp
    rw [countPoison_mem, if_neg (by simp [hp])]
  · rename_i hp
    split
    · rename_i h0
      split
      · rename_i h; rw [h.1, h0]
      · rfl
    · rw [countCorrected_mem]
      show (s.mem.setWord k _ 0).syn j = _
      rw [Memory.syn_setWord]
      by_cases h : j = k
      · rw [if_pos h, if_pos ⟨h, by simpa using hp⟩]
      · rw [if_neg h, if_neg (by simp [h])]

/-- Reading n words in turn: each that can be corrected has fresh check bits, and what reads deliver is as it was. -/
theorem scrub_words (c : Nat) (b : Bool) (k0 : Nat) : ∀ (n : Nat) (s : State),
    let t := (List.range n).foldl (fun s i => (readWord c b (k0 + i) s).2) s
    t = s.access t ∧ SameStore s t ∧
    (∀ k, k0 ≤ k → k < k0 + n → (peekWord s k).poison = false → t.mem.syn k = 0) := by
  intro n s
  refine ⟨foldl_access _ (fun s i => readWord_access _ _ _ _) _ _, ?_⟩
  induction n with
  | zero => exact ⟨SameStore.rfl, fun k h1 h2 => by omega⟩
  | succ n ih =>
    obtain ⟨h1, h2⟩ := ih
    rw [List.range_succ, List.foldl_append]
    simp only [List.foldl_cons, List.foldl_nil]
    generalize (List.range n).foldl _ s = t at h1 h2 ⊢
    refine ⟨h1.trans (readWord_same _ _ _ _), fun k ha hb hp => ?_⟩
    rw [readWord_syn, h1.peek]
    by_cases hk : k = k0 + n
    · subst hk; rw [if_pos ⟨rfl, hp⟩]
    · rw [if_neg (by simp [hk])]
      exact h2 k ha (by omega) hp

theorem recopyStack_same (i : Nat) (s : State) (hf : stackFailed s i = false) : SameStore s (recopyStack i s) ∧
    (∀ a, getReg (recopyStack i s) (stkBlk i 0) = getReg s (stkBlk i 0) ||| a → True) := by
  refine ⟨?_, fun _ _ => trivial⟩
  unfold recopyStack
  dsimp only
  have : ∀ (l : List Nat) (s : State), stackFailed s i = false → (∀ w ∈ l, regionOf (8 * w) = .stack i) →
      SameStore s (l.foldl (fun s w => if (peekWord s w).poison then { s with mem := s.mem.setWord w (s.mem.rawWord w) poisonSynd }
        else countCorrected w { s with mem := s.mem.setWord w (peekWord s w).val 0 }) s) := by
    intro l
    induction l using List.reverseRecOn with
    | nil => intro s _ _; exact SameStore.rfl
    | append_singleton l w ih =>
      intro s hf hl
      have h1 := ih s hf fun x hx => hl x (List.mem_append_left _ hx)
      have hw := hl w (by simp)
      simp only [List.foldl_append, List.foldl_cons, List.foldl_nil]
      generalize l.foldl _ s = t at h1 ⊢
      refine h1.trans (recopy_same w t ?_)
      unfold deadWord; rw [hw]; simp [h1.failed, hf]
  exact this _ s hf (by intro w hw; simp at hw; exact hw.2)

theorem bit_or_self (v : Word) (i : Nat) (h : i < 64) : bit (v ||| 1#64 <<< i) i = true := by
  unfold bit
  rw [BitVec.getLsbD_or, BitVec.getLsbD_shiftLeft]
  simp [h]

theorem wornDie_frame (i : Nat) (s : State) : (wornDie i s).2 = { s with free := (wornDie i s).2.free } := by
  unfold wornDie
  split <;> rfl

theorem abortAll_frame (code d : Nat) (s : State) : abortAll code d s = { s with clients := (abortAll code d s).clients } := by
  unfold abortAll
  induction (List.range 16) using List.reverseRecOn with
  | nil => rfl
  | append_singleton l c ih =>
    simp only [List.foldl_append, List.foldl_cons, List.foldl_nil]
    generalize l.foldl _ s = t at ih ⊢
    split
    · split
      · exact ih
      · rw [ih]; rfl
    · exact ih

theorem abortAll_regs (code d : Nat) (s : State) : (abortAll code d s).regs = s.regs := by rw [abortAll_frame]
theorem abortAll_host (code d : Nat) (s : State) : (abortAll code d s).host = s.host := by rw [abortAll_frame]

theorem stageFault_regs (n : Nat) (s : State) : (stageFault n s).regs = s.regs := by
  unfold stageFault; rw [post_regs, setDict_regs]
theorem stageFault_posted (n : Nat) (s : State) : s.host.posted <+: (stageFault n s).host.posted := by
  unfold stageFault
  have := post_posted 0x0801 16 n (setDict (dkey 0x2000 0x02) (BitVec.ofNat 64 n) s)
  rwa [setDict_host] at this
theorem stageFault_dict (n : Nat) (s : State) : getDict (stageFault n s) (dkey 0x2000 0x02) = BitVec.ofNat 64 n := by
  unfold stageFault
  rw [getDict_congr (post_dict _ _ _ _), getDict_setDict, if_pos rfl]

end Sys2Proof.Machine
end

