-- ==== Sys2Proof/Laws/Sequencer.lean ====
section
/-! SUPPORT. The sequencer and refused commands: Catalog writes and Folio operations on a client's path, faults (R5, R233, R234). -/

set_option Elab.async false

namespace Sys2Proof.Machine

theorem Completed.congr {s n m : State} {id : Nat} (h : Completed s n id) (hp : m.plates = n.plates) : Completed s m id := by
  obtain ⟨h1, h2, h3, h4⟩ := h
  refine ⟨by rw [findFlight_congr hp]; exact h1, fun k hk => by rw [findFlight_congr hp]; exact h2 k hk,
    fun f hf => by rw [hp]; exact h3 f hf, by rw [hp]; exact h4⟩

theorem Completed.from {s r n : State} {id : Nat} (h : Completed s n id) (hp : s.plates = r.plates) (hc : s.clients = r.clients) :
    Completed r n id := by
  obtain ⟨a1, a2, a3, a4⟩ := h
  have hff : ∀ k, findFlight s k = findFlight r k := fun k => findFlight_congr hp k
  refine ⟨a1, fun k hk => by rw [a2 k hk, hff], fun f hf' => ?_, by rw [a4, hp]⟩
  rw [a3 f (by rw [hff]; exact hf'), hp]
  have : aborted s f.client = aborted r f.client := by
    unfold aborted; rw [getClient_congr hc]
  rw [this]

theorem illegalBit_lt (e : Eng) (c : PCmd) : (illegalBit e c).2 < 64 := by
  cases e <;> simp [illegalBit]

theorem fld_lt' (v : Word) (i n : Nat) : fld v i n < 2 ^ n := Nat.mod_lt _ (Nat.two_pow_pos n)

theorem illegalBit_ne (e : Eng) (c : PCmd) : (illegalBit e c).1 ≠ stallBlk e + 8 * 0 := by
  cases e with
  | dma d k =>
    have h1 := fld_lt' (c.w 0) 0 3
    have h2 := fld_lt' (c.w 0) 3 3
    simp only [illegalBit, stallBlk, dmaQBlk, dmaBlk]
    split <;> omega
  | _ => simp only [illegalBit, stallBlk, vecBlk, strBlk, pltBlk, tileBlk, hatchBlk, cptBlk, collBlk]; omega

theorem refuse_spec {f : Flight} (id : Nat) (s : State) (hf : findFlight s id = some f) (hh : hdrReserved f.eng f.win.cmd = false) :
    Completed s (refuse id s) id ∧
    bit (getReg (refuse id s) (illegalBit f.eng f.win.cmd).1) (illegalBit f.eng f.win.cmd).2 = true ∧
    Only (.plates :: accountParts) s (refuse id s) := by
  have hx : refuse id s = complete id (post 0x0201 f.client (illegalDetail f.eng f.win)
      (setBit (illegalBit f.eng f.win.cmd).1 (illegalBit f.eng f.win.cmd).2 s)) := by
    unfold refuse
    rw [hf]
    dsimp only
    unfold noteIllegal
    rw [hh]
    rfl
  rw [hx]
  have hlt := illegalBit_lt f.eng f.win.cmd
  generalize illegalBit f.eng f.win.cmd = b at hlt
  have k1 := setBit_only b.1 b.2 s
  have g1 : getReg (setBit b.1 b.2 s) b.1 = getReg s b.1 ||| 1#64 <<< b.2 := by
    rw [setBit_getReg, if_pos rfl]
  generalize setBit b.1 b.2 s = y1 at k1 g1
  have k2 := post_only 0x0201 f.client (illegalDetail f.eng f.win) y1
  generalize post 0x0201 f.client (illegalDetail f.eng f.win) y1 = y2 at k2
  have h3 := complete_completed id y2
  have k3 := complete_only id y2
  generalize complete id y2 = y3 at h3 k3
  refine ⟨h3.from (by rw [k2.plates (by decide), k1.plates (by decide)]) (by rw [k2.clients (by decide), k1.clients (by decide)]), ?_,
    ((k1.mono (by decide)).step k2 (by decide)).step k3 (by decide)⟩
  unfold getReg at g1 ⊢
  rw [k3.regs (by decide), k2.regs (by decide), g1]
  exact bit_or_self _ _ hlt

theorem refuse_refused {s : State} {e : Eng} {c : PCmd} (hi : s.Issues e c) :
    RefusedCmd s (charge e 0x00 (refuse s.plates.nextId (s.issued e c))) e c := by
  have hf := issued_findFlight hi
  have hw : (s.flight e c).win.cmd = c := locate_cmd s e c
  have hh : hdrReserved e (s.flight e c).win.cmd = false := by rw [hw]; exact hi.header
  have hx : refuse s.plates.nextId (s.issued e c) = complete s.plates.nextId (post 0x0201 (clientOn s (engDie e))
      (illegalDetail e (s.issuedCmd e c)) (setBit (illegalBit e c).1 (illegalBit e c).2 (s.issued e c))) := by
    unfold refuse
    rw [hf]
    dsimp only
    unfold noteIllegal
    have he : (s.flight e c).eng = e := rfl
    rw [he, hh, hw]
    rfl
  rw [hx]
  have hlt := illegalBit_lt e c
  have hne := illegalBit_ne e c
  generalize hbb : illegalBit e c = b at hlt hne
  generalize hdet : illegalDetail e (s.issuedCmd e c) = det
  have k1 := setBit_only b.1 b.2 (s.issued e c)
  have g1 : getReg (setBit b.1 b.2 (s.issued e c)) b.1 = getReg (s.issued e c) b.1 ||| 1#64 <<< b.2 := by
    rw [setBit_getReg, if_pos rfl]
  generalize setBit b.1 b.2 (s.issued e c) = y1 at k1 g1
  have k2 := post_only 0x0201 (clientOn s (engDie e)) det y1
  have p2 : (post 0x0201 (clientOn s (engDie e)) det s).host.posted = (post 0x0201 (clientOn s (engDie e)) det y1).host.posted := by
    refine (post_posted_congr ?_ ?_ ?_ _ _ _).symm
    · rw [k1.host (by decide), issued_host]
    · rw [k1.clients (by decide), issued_clients]
    · rw [k1.tick (by decide), issued_tick]
  generalize post 0x0201 (clientOn s (engDie e)) det y1 = y2 at k2 p2
  have h3 := complete_completed s.plates.nextId y2
  have k3 := complete_only s.plates.nextId y2
  generalize complete s.plates.nextId y2 = y3 at h3 k3
  have k4 := charge_only e 0x00 y3
  have hy2 : y2.plates = (s.issued e c).plates := by rw [k2.plates (by decide), k1.plates (by decide)]
  have hcl : y2.clients = (s.issued e c).clients := by rw [k2.clients (by decide), k1.clients (by decide)]
  unfold RefusedCmd
  rw [hdet, hbb]
  refine ⟨?_, ?_, ?_, ?_⟩
  · exact (h3.congr (k4.plates (by decide))).from hy2 hcl
  · rw [charge_getReg, if_neg hne]
    unfold getReg at g1 ⊢
    rw [k3.regs (by decide), k2.regs (by decide), g1]
    exact bit_or_self _ _ hlt
  · rw [p2, ← k3.host (by decide)]
    exact charge_posted _ _ _
  · have hall := (((k1.mono (js := [.regs]) (ks := .plates :: accountParts) (by decide)).step k2 (by decide)).step k3 (by decide)).step k4 (by decide)
    have hs : Only (.plates :: accountParts) s (s.issued e c) := by rw [issued_frame]; exact (only_plates _ s).mono (by decide)
    exact hs.trans hall

theorem issued_only (s : State) (e : Eng) (c : PCmd) : Only [.plates] s (s.issued e c) := by
  rw [issued_frame]; exact only_plates _ s

theorem issued_posted {s : State} {e : Eng} {c : PCmd} (k cl d : Nat) :
    (post k cl d (s.issued e c)).host.posted = (post k cl d s).host.posted :=
  post_posted_congr (by rw [issued_host]) issued_clients issued_tick _ _ _

theorem scat_eq {t : TileId} {c : PCmd} {s : State} (hi : s.Issues (.seq t) c) : exec (.scat t c) s = .next (charge (.seq t) 0x00
    (match catWrite (some (clientOn s (tileDie t))) (Fin.ofNat 4 (tileDie t)) (scatRec c) (s.issued (.seq t) c) with
    | (.applied, s1) => complete s.plates.nextId s1
    | (.pending, s1) => { s1 with cat := { s1.cat with
        closing := s1.cat.closing ++ [{ name := (Fin.ofNat 4 (tileDie t) : DieId).val * 4096 + (scatRec c).handle, agent := none, id := s.plates.nextId }] } }
    | (.refused k, s1) => seqFault t (clientOn s (tileDie t)) s.plates.nextId 3 k s1)) := by
  refine congrArg Host.Outcome.next ((withIssue_issues hi _).trans ?_)
  have hcl : clientOn (s.issued (.seq t) c) (tileDie t) = clientOn s (tileDie t) := clientOn_congr issued_clients issued_rot _
  dsimp only
  rw [hcl]
  all_goals
    generalize catWrite _ _ _ _ = p
    obtain ⟨o, m⟩ := p
    cases o <;> rfl

theorem scat_applied {t : TileId} {c : PCmd} {s m : State} (hi : s.Issues (.seq t) c)
    (h : catWrite (some (clientOn s (tileDie t))) (Fin.ofNat 4 (tileDie t)) (scatRec c) (s.issued (.seq t) c) = (.applied, m)) :
    exec (.scat t c) s = .next (charge (.seq t) 0x00 (complete s.plates.nextId m)) := by rw [scat_eq hi, h]

theorem scat_pending {t : TileId} {c : PCmd} {s m : State} (hi : s.Issues (.seq t) c)
    (h : catWrite (some (clientOn s (tileDie t))) (Fin.ofNat 4 (tileDie t)) (scatRec c) (s.issued (.seq t) c) = (.pending, m)) :
    exec (.scat t c) s = .next (charge (.seq t) 0x00 { m with cat := { m.cat with closing := m.cat.closing ++
      [{ name := (Fin.ofNat 4 (tileDie t) : DieId).val * 4096 + (scatRec c).handle, agent := none, id := s.plates.nextId }] } }) := by
  rw [scat_eq hi, h]

theorem scat_refused {t : TileId} {c : PCmd} {s m : State} {k : Nat} (hi : s.Issues (.seq t) c)
    (h : catWrite (some (clientOn s (tileDie t))) (Fin.ofNat 4 (tileDie t)) (scatRec c) (s.issued (.seq t) c) = (.refused k, m)) :
    exec (.scat t c) s = .next (charge (.seq t) 0x00 (seqFault t (clientOn s (tileDie t)) s.plates.nextId 3 k m)) := by
  rw [scat_eq hi, h]

theorem seqFault_spec (t : TileId) (cl id f k : Nat) (s : State) : ∃ y, Only [.regs, .plates] s y ∧
    Raised y (seqFault t cl id f k s) 0x0307 cl (t.val + 2 ^ 6 * f + 2 ^ 9 * k) ∧
    findFlight (seqFault t cl id f k s) id = none ∧ (seqFault t cl id f k s).plates.posts = s.plates.posts ∧
    (seqFault t cl id f k s).plates.tokens = s.plates.tokens ∧
    Only [.regs, .plates, .host, .logs, .clients] s (seqFault t cl id f k s) ∧
    ∀ r, r ≠ pltBlk t 0x400 → getReg (seqFault t cl id f k s) r = getReg s r := by
  unfold seqFault
  dsimp only
  generalize pltBlk t 0x400 = a
  generalize (if f = 3 then setFld (setFld (setFld (getReg s a) 0 1 1) 1 3 f) 18 4 k else setFld (setFld (getReg s a) 0 1 1) 1 3 f) = v
  have k1 := setReg_only a v s
  have v1 : ∀ r, r ≠ a → getReg (setReg a v s) r = getReg s r := fun r hr => by rw [getReg_setReg, if_neg hr]
  generalize setReg a v s = y1 at k1 v1
  set y2 : State := { y1 with plates := { y1.plates with flights := y1.plates.flights.filter fun g => decide (g.id ≠ id) } } with hy2
  have k2 : Only [.plates] y1 y2 := only_plates _ _
  have f2 : findFlight y2 id = none := by
    unfold findFlight
    rw [hy2]
    simp [List.find?_eq_none]
  have p2 : y2.plates.posts = s.plates.posts := by rw [← k1.plates (by decide)]
  have t2 : y2.plates.tokens = s.plates.tokens := by rw [← k1.plates (by decide)]
  clear_value y2
  have k3 := raiseFault_only cl 0x0307 (t.val + 2 ^ 6 * f + 2 ^ 9 * k) y2
  have r3 := raiseFault_raised cl 0x0307 (t.val + 2 ^ 6 * f + 2 ^ 9 * k) y2
  generalize raiseFault cl 0x0307 (t.val + 2 ^ 6 * f + 2 ^ 9 * k) y2 = y3 at k3 r3
  have hp := k3.plates (by decide)
  have k12 : Only [.regs, .plates] s y2 := (k1.mono (by decide)).step k2 (by decide)
  exact ⟨y2, k12, r3, by rw [findFlight_congr hp, f2], by rw [hp, p2], by rw [hp, t2], (k12.mono (by decide)).step k3 (by decide),
    fun r hr => by unfold getReg at v1 ⊢; rw [k3.regs (by decide), k2.regs (by decide)]; exact v1 r hr⟩

theorem applyEntry_plates (name : Nat) (e : Entry) (f : Bool) (s : State) :
    (applyEntry name e f s).plates.flights = s.plates.flights ∧ (applyEntry name e f s).plates.posts = s.plates.posts := by
  unfold applyEntry
  dsimp only
  (repeat' split) <;> exact ⟨rfl, rfl⟩

theorem FopEffect.only {s m : State} {me : Nat} {mine : Bool} {d : DieId} {r : FopRec} {w : Word} {cl : Option Nat}
    (h : FopEffect s m me mine d r w) (hr : fopReserved cl d r s = false) : Only (.cat :: accessParts) s m := by
  obtain ⟨h1, h2, h3, h4⟩ := h
  have hacc : ∀ {x : State}, x = s.access x → Only (.cat :: accessParts) s x := fun hx => (only_of_access hx).mono (by decide)
  by_cases c1 : fopCode r = 1
  · have := (h1 c1).2.2.2
    rw [this]
    exact (hacc (x := s.access m) rfl).step (only_cat _ _) (by decide)
  · by_cases c2 : fopCode r = 2
    · have := (h2 c2).2.2.2.2
      rw [this]
      exact (hacc (x := s.access m) rfl).step (only_cat _ _) (by decide)
    · by_cases c3 : fopCode r = 3
      · have := h3 c3
        split at this
        · rw [this.2.2.2]
          exact (only_cat _ s).mono (by decide)
        · rw [this.2]
          exact Only.rfl' _
      · by_cases c4 : fopCode r = 4 ∨ fopCode r = 5
        · exact hacc (h4 c4).2.1
        · unfold fopReserved at hr
          dsimp only at hr
          rw [if_neg c1, if_neg c2, if_neg c3, if_neg c4] at hr
          cases hr

theorem sfopReg_ne (t : TileId) (w0 : Word) (k : Nat) (hk : k < 32) : sfopReg t w0 ≠ stallBlk (.seq t) + 8 * k := by
  have := fld_lt' w0 2 3
  simp only [sfopReg, stallBlk, pltBlk, tileBlk]
  omega

theorem mem_ids_keep {l : List SfopWait} {id : Nat} {w0 : Word} {q : FopRec} :
    ∃ j ∈ (if l.any fun j => decide (j.id = id) then l else l ++ [{ id := id, w0 := w0, op := q }]), j.id = id := by
  split
  · rename_i h
    obtain ⟨j, h1, h2⟩ := List.any_eq_true.1 h
    exact ⟨j, h1, of_decide_eq_true h2⟩
  · exact ⟨_, List.mem_append_right _ (List.mem_singleton_self _), rfl⟩

/-- The states that sfopRun leaves by what its operation returns. -/
theorem sfopRun_eq (t : TileId) (id : Nat) (w0 : Word) (op : FopRec) (s : State) :
    let client := clientOn s (tileDie t)
    let d : DieId := Fin.ofNat 4 (tileDie t)
    let l := (getTile s t).sfops
    let keep := if l.any fun j => decide (j.id = id) then l else l ++ [{ id := id, w0 := w0, op := op }]
    let drop := l.filter fun j => decide (j.id ≠ id)
    let p := fopRun (some client) (lockId client d.val (t.val % 16)) (some id) d op s
    (p.1 = .waits → sfopRun t id w0 op s = (0x0F, setTile t { getTile p.2 t with sfops := keep } p.2)) ∧
    (p.1 = .reserved → sfopRun t id w0 op s = (0x00, refuse id (setTile t { getTile p.2 t with sfops := drop } p.2))) ∧
    (∀ r, p.1 = .done r → sfopRun t id w0 op s = if fld r 0 8 = 1 ∧ bit w0 0 = true then (0x16, setTile t { getTile p.2 t with sfops := keep } p.2)
      else (0x00, if bit w0 1 = true ∧ fld r 0 8 ≠ 0 then seqFault t client id 4 0 (setReg (sfopReg t w0) r (setTile t { getTile p.2 t with sfops := drop } p.2))
        else complete id (setReg (sfopReg t w0) r (setTile t { getTile p.2 t with sfops := drop } p.2)))) := by
  unfold sfopRun
  dsimp only
  generalize fopRun _ _ _ _ _ _ = p
  obtain ⟨o, m⟩ := p
  cases o with
  | waits => exact ⟨fun _ => rfl, fun h => (by cases h), fun r h => (by cases h)⟩
  | reserved => exact ⟨fun h => (by cases h), fun _ => rfl, fun r h => (by cases h)⟩
  | done w => exact ⟨fun h => (by cases h), fun h => (by cases h), fun r h => (by cases h; rfl)⟩

theorem sfopRun_end {t : TileId} {id : Nat} {w0 : Word} {q : FopRec} {s : State} (k : Nat) (hk : k < 32)
    (hr : fopReserved (some (clientOn s (tileDie t))) (Fin.ofNat 4 (tileDie t)) q s = false)
    (hw : FopReady s (Fin.ofNat 4 (tileDie t)) q)
    (hp : (getEnt s ((Fin.ofNat 4 (tileDie t) : DieId).val * 4096 + fopDh q)).placed)
    (hst : ∀ o, o < (getEnt s ((Fin.ofNat 4 (tileDie t) : DieId).val * 4096 + fopDh q)).len →
      s.storable (addrOf (getEnt s ((Fin.ofNat 4 (tileDie t) : DieId).val * 4096 + fopDh q)) (Fin.ofNat 4 (tileDie t) : DieId).val o) = true) :
    SfopEnd s (charge (.seq t) k (sfopRun t id w0 q s).2) t id w0 q := by
  obtain ⟨m, w, h1, h2⟩ := fopRun_effect (me := lockId (clientOn s (tileDie t)) (Fin.ofNat 4 (tileDie t) : DieId).val (t.val % 16))
    (own := some id) hr hw hp hst
  have hm := h2.only hr
  have hx := (sfopRun_eq t id w0 q s).2.2 w (by rw [h1])
  rw [h1] at hx
  dsimp only at hx
  refine ⟨m, w, h2, fun hb => ?_, fun hb => ?_⟩
  · rw [if_pos hb] at hx
    rw [hx]
    dsimp only
    have k1 := setTile_only t { getTile m t with sfops := if (getTile s t).sfops.any fun j => decide (j.id = id) then (getTile s t).sfops
      else (getTile s t).sfops ++ [{ id := id, w0 := w0, op := q }] } m
    have g1 := getTile_setTile (s := m) t t { getTile m t with sfops := if (getTile s t).sfops.any fun j => decide (j.id = id) then (getTile s t).sfops
      else (getTile s t).sfops ++ [{ id := id, w0 := w0, op := q }] }
    generalize setTile t _ m = y at k1 g1
    have k2 := charge_only (.seq t) k y
    refine ⟨by rw [k2.plates (by decide), k1.plates (by decide)], ?_, (k1.mono (by decide)).step k2 (by decide)⟩
    rw [getTile_congr (k2.tiles (by decide)), g1, if_pos rfl]
    exact mem_ids_keep
  · rw [if_neg hb] at hx
    rw [hx]
    dsimp only
    have hreg := sfopReg_ne t w0 k hk
    have hne : sfopReg t w0 ≠ pltBlk t 0x400 := by simp only [sfopReg, pltBlk, tileBlk]; omega
    generalize sfopReg t w0 = a at hreg hne
    have k1 := setTile_only t { getTile m t with sfops := (getTile s t).sfops.filter fun j => decide (j.id ≠ id) } m
    have g1 := getTile_setTile (s := m) t t { getTile m t with sfops := (getTile s t).sfops.filter fun j => decide (j.id ≠ id) }
    generalize setTile t _ m = y at k1 g1
    have k2 := setReg_only a w y
    have v2 : getReg (setReg a w y) a = w := by rw [getReg_setReg, if_pos rfl]
    generalize setReg a w y = y2 at k2 v2
    have k12 : Only (.tiles :: accountParts) m y2 := (k1.mono (by decide)).step k2 (by decide)
    have g2 : getTile y2 t = { getTile m t with sfops := (getTile s t).sfops.filter fun j => decide (j.id ≠ id) } := by
      rw [getTile_congr (k2.tiles (by decide)), g1, if_pos rfl]
    have hreg' : ∀ z : State, z.regs = y2.regs → getReg (charge (.seq t) k z) a = w := by
      intro z hz
      rw [charge_getReg, if_neg hreg]
      unfold getReg at v2 ⊢
      rw [hz, v2]
    have hjob : ∀ z : State, z.tiles = y2.tiles → ∀ j ∈ (getTile (charge (.seq t) k z) t).sfops, j.id ≠ id := by
      intro z hz j hj
      rw [getTile_congr ((charge_only (.seq t) k z).tiles (by decide)), getTile_congr hz, g2] at hj
      exact of_decide_eq_true (List.mem_filter.1 hj).2
    by_cases hf : bit w0 1 = true ∧ fld w 0 8 ≠ 0
    · rw [if_pos hf, if_pos hf]
      obtain ⟨y3, f1, f2, f3, f4, f5, f6, f7⟩ := seqFault_spec t (clientOn s (tileDie t)) id 4 0 y2
      have hv := f7 a hne
      rw [v2] at hv
      generalize seqFault t (clientOn s (tileDie t)) id 4 0 y2 = z at f2 f3 f4 f5 f6 hv
      have k4 := charge_only (.seq t) k z
      refine ⟨by rw [charge_getReg, if_neg hreg, hv], hjob z (f6.tiles (by decide)), ?_, ?_, ?_, y3, z,
        (k12.mono (by decide)).step f1 (by decide), f2, charge_accounts _ _ _⟩
      · rw [findFlight_congr (k4.plates (by decide)), f3]
      · rw [k4.plates (by decide), f4, k12.plates (by decide)]
      · rw [k4.plates (by decide), f5, k12.plates (by decide)]
    · rw [if_neg hf, if_neg hf]
      have k3 := complete_only id y2
      have h3 := complete_completed id y2
      generalize complete id y2 = z at k3 h3
      have k4 := charge_only (.seq t) k z
      exact ⟨hreg' z (k3.regs (by decide)), hjob z (k3.tiles (by decide)),
        (h3.congr (k4.plates (by decide))).from (k12.plates (by decide)) (k12.clients (by decide)),
        ((k12.mono (by decide)).step k3 (by decide)).step k4 (by decide)⟩

theorem fopReserved_congr {s t : State} (h : t.cat = s.cat) (c : Option Nat) (d : DieId) (r : FopRec) :
    fopReserved c d r t = fopReserved c d r s := by
  unfold fopReserved getEnt; rw [h]

theorem FopReady_congr {s t : State} (h : t.cat = s.cat) (d : DieId) (r : FopRec) : FopReady t d r ↔ FopReady s d r := by
  unfold FopReady writeReady readReady slotFull getEnt; rw [h]

end Sys2Proof.Machine
end

