-- ==== Sys2Proof/Laws/ArrayIssue.lean ====
section
/-! SUPPORT. Array commands that issue: queued jobs and refused commands that stay to take what they would have taken (R90 to R96, R458). -/

set_option Elab.async false

namespace Sys2Proof.Machine

theorem getTile_setArr (t u : TileId) (x : ArrayS) (s : State) :
    getTile (setArr t x s) u = if u = t then { getTile s t with arr := x } else getTile s u := by
  unfold setArr; rw [getTile_setTile]

/-- An issued array command that queues its job. -/
theorem queued_spec {t : TileId} {c : PCmd} {s y : State} (hi : s.Issues (.array t) c) (x : ArrayS)
    (hy : Only accountParts (s.issued (.array t) c) y) :
    let n := charge (.array t) 0x00 (setArr t x y)
    (n.plates = (s.issued (.array t) c).plates ∧ findFlight n s.plates.nextId = some (s.flight (.array t) c)) ∧
    getTile n t = { getTile s t with arr := x } ∧ (∀ u : TileId, u ≠ t → getTile n u = getTile s u) ∧
    Only (.tiles :: .plates :: accountParts) s n := by
  intro n
  have k1 := setArr_only t x y
  have g1 := fun u => getTile_setArr t u x y
  have k2 := charge_only (.array t) 0x00 (setArr t x y)
  change Only _ _ n at k2
  clear_value n
  generalize setArr t x y = z at k1 k2 g1
  have hp : n.plates = (s.issued (.array t) c).plates := by rw [k2.plates (by decide), k1.plates (by decide), hy.plates (by decide)]
  have ht : ∀ u, getTile y u = getTile s u := fun u => by
    rw [getTile_congr (hy.tiles (by decide)), getTile_congr issued_tiles]
  refine ⟨⟨hp, by rw [findFlight_congr hp]; exact issued_findFlight hi⟩, ?_, fun u hu => ?_, ?_⟩
  · rw [getTile_congr (k2.tiles (by decide)), g1, if_pos rfl, ht]
  · rw [getTile_congr (k2.tiles (by decide)), g1, if_neg hu, ht]
  · exact ((((issued_only s _ c).mono (by decide)).step hy (by decide)).step k1 (by decide)).step k2 (by decide)

theorem noteIllegal_spec {e : Eng} {cl : Nat} {w : WinCmd} {s : State} (hh : hdrReserved e w.cmd = false) :
    bit (getReg (noteIllegal e cl w s) (illegalBit e w.cmd).1) (illegalBit e w.cmd).2 = true ∧
    (noteIllegal e cl w s).host.posted = (post 0x0201 cl (illegalDetail e w) s).host.posted ∧
    Only accountParts s (noteIllegal e cl w s) := by
  unfold noteIllegal
  rw [hh]
  dsimp only
  rw [if_neg (by simp)]
  have hlt := illegalBit_lt e w.cmd
  generalize illegalBit e w.cmd = b at hlt
  have k1 := setBit_only b.1 b.2 s
  have g1 : getReg (setBit b.1 b.2 s) b.1 = getReg s b.1 ||| 1#64 <<< b.2 := by
    rw [setBit_getReg, if_pos rfl]
  generalize setBit b.1 b.2 s = y1 at k1 g1
  have k2 := post_only 0x0201 cl (illegalDetail e w) y1
  refine ⟨?_, post_posted_congr (by rw [k1.host (by decide)]) (k1.clients (by decide)) (k1.tick (by decide)) _ _ _,
    (k1.mono (by decide)).step k2 (by decide)⟩
  unfold getReg at g1 ⊢
  rw [k2.regs (by decide), g1]
  exact bit_or_self _ _ hlt

theorem noted_spec {t : TileId} {c : PCmd} {s y : State} (hi : s.Issues (.array t) c)
    (hy : y.regs = (noteIllegal (.array t) (clientOn s (tileDie t)) (s.issuedCmd (.array t) c) (s.issued (.array t) c)).regs)
    (hh : y.host = (noteIllegal (.array t) (clientOn s (tileDie t)) (s.issuedCmd (.array t) c) (s.issued (.array t) c)).host) :
    bit (getReg (charge (.array t) 0x00 y) (pltBlk t 0x400)) 4 = true ∧
    (post 0x0201 (clientOn s (tileDie t)) (illegalDetail (.array t) (s.issuedCmd (.array t) c)) s).host.posted <+:
      (charge (.array t) 0x00 y).host.posted := by
  have hw : (s.issuedCmd (.array t) c).cmd = c := locate_cmd s (.array t) c
  obtain ⟨n1, n2, n3⟩ := noteIllegal_spec (e := .array t) (cl := clientOn s (tileDie t)) (w := s.issuedCmd (.array t) c)
    (s := s.issued (.array t) c) (by rw [hw]; exact hi.header)
  rw [hw] at n1
  have hne := illegalBit_ne (.array t) c
  change pltBlk t 0x400 ≠ _ at hne
  refine ⟨?_, ?_⟩
  · rw [charge_getReg, if_neg hne]
    have : getReg y (pltBlk t 0x400) = getReg (noteIllegal (.array t) (clientOn s (tileDie t)) (s.issuedCmd (.array t) c) (s.issued (.array t) c)) (pltBlk t 0x400) := by
      unfold getReg; rw [hy]
    rw [this]
    exact n1
  · rw [issued_posted] at n2
    rw [← n2, ← hh]
    exact charge_posted _ _ _

end Sys2Proof.Machine
end

