-- ==== Sys2Proof/Laws/ArrayRows.lean ====
section
/-! SUPPORT. the row side of the array: rows of passes, their entries, and batches -/

set_option Elab.async false

namespace Sys2Proof.Machine

theorem delivered_only (t : TileId) (x : StreamS) (n : Nat) (s : State) :
    Only [.tiles, .regs, .sat, .host, .logs] s (delivered t x n s) := by
  unfold delivered
  exact ((setStr_only _ _ _).mono (by decide)).step (bump_only _ _ _ _) (by decide)

theorem delivered_tile (t u : TileId) (x : StreamS) (n : Nat) (s : State) :
    getTile (delivered t x n s) u = if u = t then { getTile s t with str := x } else getTile s u := by
  unfold delivered
  rw [getTile_congr ((bump_only _ _ _ _).tiles (by decide))]
  unfold setStr
  rw [getTile_setTile]

theorem govFlag_only (d slot b : Nat) (s : State) : Only [.regs] s (govFlag d slot b s) := by
  unfold govFlag
  split
  · exact Only.rfl' _
  · exact orReg_only _ _ _

theorem consumerViol_only (d slot n : Nat) (s : State) : Only [.regs] s (consumerViol d slot n s) := by
  unfold consumerViol
  split
  · exact Only.rfl' _
  · exact govFlag_only _ _ _ _

theorem arrCount_only (t : TileId) (c off sub n : Nat) (st : Option Nat) (sc : BitVec 32) (s : State) :
    Only (.clients :: accountParts) s (arrCount t c off sub n st sc s) := by
  unfold arrCount
  split
  · exact Only.rfl' _
  · dsimp only
    have k1 := (((bump_only (arrBlk t 0) off n s).mono (ks := .clients :: accountParts) (by decide)).step (bumpDict_only (dkey 0x4010 sub) n _) (by decide))
    generalize bumpDict (dkey 0x4010 sub) n (bump (arrBlk t 0) off n s) = y at k1
    cases st with
    | some i => exact (k1.step (setBit_only _ _ _) (by decide)).step (setScope_only _ _ _) (by decide)
    | none => exact k1.step (setScope_only _ _ _) (by decide)

theorem ScopesOnly.of_only {ks : List Part} {s t : State} (h : Only ks s t) (hc : Part.clients ∉ ks) : ScopesOnly s t :=
  ScopesOnly.of_eq (h.clients hc)

theorem ScopesOnly.aborted {s t : State} (h : ScopesOnly s t) (c : Nat) : aborted t c = aborted s c := by
  unfold Machine.aborted
  rw [h c]

theorem arrCount_scopes (t : TileId) (c off sub n : Nat) (st : Option Nat) (sc : BitVec 32) (s : State) :
    ScopesOnly s (arrCount t c off sub n st sc s) := by
  unfold arrCount
  split
  · exact ScopesOnly.rfl' _
  · dsimp only
    have k1 := (((bump_only (arrBlk t 0) off n s).mono (ks := accountParts) (by decide)).step (bumpDict_only (dkey 0x4010 sub) n _) (by decide))
    generalize bumpDict (dkey 0x4010 sub) n (bump (arrBlk t 0) off n s) = y at k1
    cases st with
    | some i => exact ((ScopesOnly.of_only k1 (by decide)).trans (ScopesOnly.of_only (setBit_only _ _ _) (by decide))).trans (setScope_scopes _ _ _)
    | none => exact (ScopesOnly.of_only k1 (by decide)).trans (setScope_scopes _ _ _)

theorem postUncorr_scopes (k d : Nat) (b : Bool) (p c : Nat) (s : State) : ScopesOnly s (postUncorr k d b p c s) := by
  unfold postUncorr
  exact (ScopesOnly.of_only (post_only _ _ _ _) (by decide)).trans (setScope_scopes _ _ _)

theorem readAcc_scopes (t : TileId) (c b n e : Nat) (us : List Upset) (x : AccEntry) (s : State) :
    ScopesOnly s (readAcc t c b n e us x s).2 := by
  unfold readAcc
  dsimp only
  generalize (us.filter _) = l
  refine foldl_scopes_snd _ (fun p u => ?_) l (x, s)
  dsimp only
  generalize dkey 0x4010 0x05 = kk
  have k1 : ScopesOnly p.2 (if (readErr u.flips).corrected = true then setBit (arrBlk t 0) 5 (bumpDict kk 1 p.2) else p.2) := by
    split
    · exact (ScopesOnly.of_only (bumpDict_only _ _ _) (by decide)).trans (ScopesOnly.of_only (setBit_only _ _ _) (by decide))
    · exact ScopesOnly.rfl' _
  split
  · exact (k1.trans (ScopesOnly.of_only (setBit_only _ _ _) (by decide))).trans (postUncorr_scopes _ _ _ _ _ _)
  · exact k1

theorem addCol_scopes (t : TileId) (cl b e : Nat) (wr : Bool) (us : List Upset) (rs : List ColRes) (p : State × Nat × Bool) (n : Nat) :
    ScopesOnly p.1 (addCol t cl b e wr us rs p n).1 := by
  obtain ⟨s, k, fl⟩ := p
  unfold addCol
  dsimp only
  cases wr with
  | true => exact ScopesOnly.of_only (setArr_only _ _ _) (by decide)
  | false => exact (readAcc_scopes _ _ _ _ _ _ _ _).trans (ScopesOnly.of_only (setArr_only _ _ _) (by decide))

theorem addRow_scopes (t : TileId) (cl b e : Nat) (wr : Bool) (us : List Upset) (rs : List ColRes) (s : State) :
    ScopesOnly s (addRow t cl b e wr us rs s) := by
  unfold addRow
  dsimp only
  have h : ∀ (l : List Nat) (p : State × Nat × Bool), ScopesOnly p.1 (l.foldl (addCol t cl b e wr us rs) p).1 := by
    intro l
    induction l with
    | nil => intro p; exact ScopesOnly.rfl' _
    | cons x l ih => intro p; exact (addCol_scopes t cl b e wr us rs p x).trans (ih _)
  have h0 := h (List.range rs.length) (s, 0, false)
  generalize (List.range rs.length).foldl (addCol t cl b e wr us rs) (s, 0, false) = q at h0 ⊢
  obtain ⟨s1, k, fl⟩ := q
  dsimp only at h0 ⊢
  have h1 := ((h0.trans (arrCount_scopes t cl 0x008 0x01 k (some 0) scSaturated s1)).trans (arrCount_scopes t cl 0x020 0x04
    (rs.foldl (fun m r => m + r.nonfin) 0) (if (fl && decide (rs.foldl (fun m r => m + r.nonfin) 0 ≠ 0)) = true then some 3 else none) 0 _)).trans
    (arrCount_scopes t cl 0x010 0x02 (rs.foldl (fun m r => m + r.under) 0) (some 1) scUnderflow _)
  split
  · exact h1
  · exact h1.trans (ScopesOnly.of_only (setArr_only _ _ _) (by decide))

theorem vellumRow_scopes (t : TileId) (cl : Nat) (j : PassJob) (unit : Rat) (rs : List ColRes) (s : State) :
    ScopesOnly s (vellumRow t cl j unit rs s) := by
  unfold vellumRow
  cases hd : j.dest with
  | none => exact ScopesOnly.rfl' _
  | some p =>
    obtain ⟨name, buf⟩ := p
    dsimp only
    have h0 := readBuf_scopes cl buf (name / 4096) (vellumOff buf j) (4 * rs.length) s
    generalize readBuf cl buf (name / 4096) (vellumOff buf j) (4 * rs.length) s = q at h0 ⊢
    exact ((((h0.trans (writeBuf_scopes _ _ _ _ _ _)).trans (setScope_scopes cl scVellum _)).trans
      (ScopesOnly.of_only (setBit_only (arrBlk t 0) 4 _) (by decide))).trans (arrCount_scopes t cl 0x020 0x04 _ _ 0 _)).trans
      (arrCount_scopes t cl 0x010 0x02 _ (some 1) scUnderflow _)

theorem noteIllegal_only (e : Eng) (cl : Nat) (w : WinCmd) (s : State) : Only accountParts s (noteIllegal e cl w s) := by
  unfold noteIllegal
  exact ((setBit_only _ _ _).mono (by decide)).step (post_only _ _ _ _) (by decide)

theorem readAcc_spec (t : TileId) (c b n e : Nat) (us : List Upset) (x : AccEntry) (s : State) :
    (readAcc t c b n e us x s).1 = upsetEntry b n e us x ∧ Only (.clients :: accountParts) s (readAcc t c b n e us x s).2 := by
  unfold readAcc upsetEntry
  dsimp only
  generalize (us.filter _) = l
  induction l using List.reverseRecOn with
  | nil => exact ⟨rfl, Only.rfl' _⟩
  | append_singleton l u ih =>
    rw [List.foldl_append, List.foldl_append]
    generalize List.foldl _ (x, s) l = p at ih ⊢
    generalize List.foldl _ x l = q at ih ⊢
    simp only [List.foldl_cons, List.foldl_nil]
    obtain ⟨h1, h2⟩ := ih
    refine ⟨by rw [h1], ?_⟩
    generalize dkey 0x4010 0x05 = kk
    have k1 : Only (.clients :: accountParts) s (if (readErr u.flips).corrected = true then setBit (arrBlk t 0) 5 (bumpDict kk 1 p.2) else p.2) :=
      Only.ite ((h2.step (bumpDict_only _ _ _) (by decide)).step (setBit_only _ _ _) (by decide)) h2
    exact Only.ite ((k1.step (setBit_only _ _ _) (by decide)).step (postUncorr_only _ _ _ _ _ _) (by decide)) k1

theorem getBank_setBank (a : ArrayS) (b : Nat) (x : Bank) : getBank (setBank a b x) b = x := by
  unfold getBank setBank; split <;> rfl

theorem setBank_setBank (a : ArrayS) (b : Nat) (x y : Bank) : setBank (setBank a b x) b y = setBank a b y := by
  unfold setBank; split <;> rfl

theorem getAcc_setAcc (x : Bank) (n e : Nat) (v : AccEntry) (key : Nat) :
    mget {} (setAcc x n e v).ents key = if key = n * 256 + e then v else mget {} x.ents key := mget_mset _ _ _ _ _

theorem addCol_spec (t : TileId) (cl b e : Nat) (wr : Bool) (us : List Upset) (rs : List ColRes) (p : State × Nat × Bool) (n : Nat) :
    let q := addCol t cl b e wr us rs p n
    let a := getArr p.1 t
    let v := (accAdd wr (if wr then {} else upsetEntry b n e us (getAcc (getBank a b) n e)) (nth {} rs n)).1
    getTile q.1 t = { getTile p.1 t with arr := setBank a b (setAcc (getBank a b) n e v) } ∧
    (∀ u : TileId, u ≠ t → getTile q.1 u = getTile p.1 u) ∧ Only (.tiles :: .clients :: accountParts) p.1 q.1 := by
  obtain ⟨s, k, fl⟩ := p
  unfold addCol
  dsimp only
  cases wr with
  | true =>
    simp only [if_true]
    refine ⟨?_, fun u hu => ?_, (setArr_only _ _ _).mono (by decide)⟩
    · rw [getTile_setArr, if_pos rfl]
    · rw [getTile_setArr, if_neg hu]
  | false =>
    simp only [Bool.false_eq_true, if_false]
    obtain ⟨r1, r2⟩ := readAcc_spec t cl b n e us (getAcc (getBank (getArr s t) b) n e) s
    generalize readAcc t cl b n e us (getAcc (getBank (getArr s t) b) n e) s = q at r1 r2
    have ht : ∀ u, getTile q.2 u = getTile s u := fun u => getTile_congr (r2.tiles (by decide)) u
    have ha : getArr q.2 t = getArr s t := by unfold getArr; rw [ht]
    rw [r1, ha]
    refine ⟨?_, fun u hu => ?_, (r2.mono (by decide)).step (setArr_only _ _ _) (by decide)⟩
    · rw [getTile_setArr, if_pos rfl, ht]
    · rw [getTile_setArr, if_neg hu, ht]

theorem addCols_spec (t : TileId) (cl b e : Nat) (wr : Bool) (us : List Upset) (rs : List ColRes) (s : State) : ∀ m : Nat,
    let q := (List.range m).foldl (addCol t cl b e wr us rs) (s, 0, false)
    ∃ y : Bank, getTile q.1 t = { getTile s t with arr := setBank (getArr s t) b y } ∧
      (∀ k, k < m → getAcc y k e =
        (accAdd wr (if wr then {} else upsetEntry b k e us (getAcc (getBank (getArr s t) b) k e)) (nth {} rs k)).1) ∧
      (∀ key, (∀ k, k < m → key ≠ k * 256 + e) → mget {} y.ents key = mget {} (getBank (getArr s t) b).ents key) ∧
      y.record = (getBank (getArr s t) b).record ∧ y.ufl = (getBank (getArr s t) b).ufl ∧
      (∀ u : TileId, u ≠ t → getTile q.1 u = getTile s u) ∧ Only (.tiles :: .clients :: accountParts) s q.1 := by
  intro m
  induction m with
  | zero =>
    refine ⟨getBank (getArr s t) b, ?_, fun k h => absurd h (by omega), fun _ _ => rfl, rfl, rfl, fun _ _ => rfl, Only.rfl' _⟩
    have : setBank (getArr s t) b (getBank (getArr s t) b) = getArr s t := by unfold setBank getBank; split <;> rfl
    rw [this]; rfl
  | succ m ih =>
    obtain ⟨y, i1, i2, i3, i4, i5, i6, i7⟩ := ih
    rw [List.range_succ, List.foldl_append]
    simp only [List.foldl_cons, List.foldl_nil]
    generalize (List.range m).foldl (addCol t cl b e wr us rs) (s, 0, false) = q at i1 i6 i7 ⊢
    obtain ⟨c1, c2, c3⟩ := addCol_spec t cl b e wr us rs q m
    generalize addCol t cl b e wr us rs q m = q' at c1 c2 c3 ⊢
    have ha : getArr q.1 t = setBank (getArr s t) b y := by unfold getArr at i1 ⊢; rw [i1]
    rw [ha, getBank_setBank, setBank_setBank] at c1
    have hold : getAcc y m e = getAcc (getBank (getArr s t) b) m e := i3 _ fun k hk => by omega
    rw [hold] at c1
    refine ⟨setAcc y m e (accAdd wr (if wr then {} else upsetEntry b m e us (getAcc (getBank (getArr s t) b) m e)) (nth {} rs m)).1,
      by rw [c1, i1], fun k hk => ?_, fun key hkey => ?_, i4, i5, fun u hu => by rw [c2 u hu, i6 u hu], i7.step c3 (by decide)⟩
    · show mget {} (setAcc y m e _).ents (k * 256 + e) = _
      rw [getAcc_setAcc]
      by_cases h : k = m
      · subst h; rw [if_pos rfl]
      · rw [if_neg (by omega)]
        exact i2 k (by omega)
    · rw [getAcc_setAcc, if_neg (hkey m (by omega))]
      exact i3 key fun k hk => hkey k (by omega)

theorem addRow_spec (t : TileId) (cl b e : Nat) (wr : Bool) (us : List Upset) (rs : List ColRes) (s : State) :
    ∃ y : Bank, RowAdded (getBank (getArr s t) b) y b e wr us rs ∧
      getTile (addRow t cl b e wr us rs s) t = { getTile s t with arr := setBank (getArr s t) b y } ∧
      (∀ u : TileId, u ≠ t → getTile (addRow t cl b e wr us rs s) u = getTile s u) ∧
      Only (.tiles :: .clients :: accountParts) s (addRow t cl b e wr us rs s) := by
  unfold addRow
  dsimp only
  obtain ⟨y, i1, i2, i3, i4, i5, i6, i7⟩ := addCols_spec t cl b e wr us rs s rs.length
  generalize (List.range rs.length).foldl (addCol t cl b e wr us rs) (s, 0, false) = q at i1 i6 i7 ⊢
  obtain ⟨s1, sats, fl⟩ := q
  dsimp only at i1 i6 i7 ⊢
  have k1 := arrCount_only t cl 0x008 0x01 sats (some 0) scSaturated s1
  change Only _ _ (countSat t cl sats s1) at k1
  generalize countSat t cl sats s1 = s2 at k1 ⊢
  have k2 : Only (.clients :: accountParts) s2 (countNonfin t cl (rs.foldl (fun m r => m + r.nonfin) 0)
      (fl && decide (rs.foldl (fun m r => m + r.nonfin) 0 ≠ 0)) s2) := arrCount_only _ _ _ _ _ _ _ _
  generalize countNonfin t cl (rs.foldl (fun m r => m + r.nonfin) 0) (fl && decide (rs.foldl (fun m r => m + r.nonfin) 0 ≠ 0)) s2 = s3 at k2 ⊢
  generalize hun : rs.foldl (fun m r => m + r.under) 0 = un
  have k3 : Only (.clients :: accountParts) s3 (countUnder t cl un s3) := arrCount_only _ _ _ _ _ _ _ _
  generalize countUnder t cl un s3 = s4 at k3 ⊢
  have k : Only (.clients :: accountParts) s1 s4 := (k1.trans k2).trans k3
  have ht : ∀ u, getTile s4 u = getTile s1 u := fun u => getTile_congr (k.tiles (by decide)) u
  have h7 := i7.trans (k.mono (by decide))
  by_cases h0 : un = 0
  · rw [if_pos h0]
    refine ⟨y, ⟨i2, i3, i4, by rw [i5, hun, h0]; simp⟩, by rw [ht, i1], fun u hu => by rw [ht, i6 u hu], h7⟩
  · rw [if_neg h0]
    have ha : getArr s4 t = setBank (getArr s t) b y := by unfold getArr at i1 ⊢; rw [ht, i1]
    have g := fun u => getTile_setArr t u (setBank (getArr s4 t) b { getBank (getArr s4 t) b with ufl := true }) s4
    have k5 := setArr_only t (setBank (getArr s4 t) b { getBank (getArr s4 t) b with ufl := true }) s4
    generalize setArr t (setBank (getArr s4 t) b { getBank (getArr s4 t) b with ufl := true }) s4 = s5 at g k5 ⊢
    rw [ha, getBank_setBank, setBank_setBank] at g
    refine ⟨{ y with ufl := true }, ⟨i2, i3, i4, by rw [hun]; simp [h0]⟩, by rw [g, if_pos rfl, ht, i1], fun u hu => by rw [g, if_neg hu, ht, i6 u hu],
      h7.step k5 (by decide)⟩

theorem SameStore.of_stk {s t : State} (hm : t.mem = s.mem) (hr : ∀ i, getReg t (stkBlk i 0) = getReg s (stkBlk i 0)) :
    SameStore s t := SameStore.of hm fun i => by unfold stackFailed; rw [hr]

theorem tileBlk_stk (t o i : Nat) (h : o < 0x10000) : stkBlk i 0 ≠ tileBlk t o := by unfold stkBlk tileBlk ctlBase; omega

theorem stallBlk_stk (e : Eng) (k i : Nat) (h : k < 64) : stkBlk i 0 ≠ stallBlk e + 8 * k := by
  cases e with
  | array t => have := tileBlk_stk t.val (0x3000 + (0x000 + 8 * k)) i (by omega); simp only [stallBlk, pltBlk, tileBlk] at this ⊢; omega
  | vector t => have := tileBlk_stk t.val (0x3000 + (0x100 + 8 * k)) i (by omega); simp only [stallBlk, pltBlk, tileBlk] at this ⊢; omega
  | stream t => have := tileBlk_stk t.val (0x3000 + (0x200 + 8 * k)) i (by omega); simp only [stallBlk, pltBlk, tileBlk] at this ⊢; omega
  | seq t => have := tileBlk_stk t.val (0x3000 + (0x300 + 8 * k)) i (by omega); simp only [stallBlk, pltBlk, tileBlk] at this ⊢; omega
  | hatch d u => simp only [stallBlk, hatchBlk, stkBlk, ctlBase]; omega
  | cpt d u => simp only [stallBlk, cptBlk, stkBlk, ctlBase]; omega
  | dma d u => simp only [stallBlk, dmaBlk, stkBlk, ctlBase]; omega
  | coll d => simp only [stallBlk, collBlk, stkBlk, ctlBase]; omega

theorem charge_same (e : Eng) (k : Nat) (h : k < 64) (s : State) : SameStore s (charge e k s) :=
  SameStore.of_stk (charge_mem _ _ _) fun i => by rw [charge_getReg, if_neg (stallBlk_stk e k i h)]

theorem setBit_same (a b : Nat) (s : State) (h : ∀ i, stkBlk i 0 ≠ a) : SameStore s (setBit a b s) :=
  SameStore.of_stk ((setBit_only a b s).mem (by decide)) fun i => by rw [setBit_getReg, if_neg (h i)]

theorem bump_same (a o n : Nat) (s : State) (h : ∀ i, stkBlk i 0 ≠ a + o) : SameStore s (bump a o n s) :=
  SameStore.of_stk ((bump_only a o n s).mem (by decide)) fun i => by rw [bump_getReg, if_neg (h i)]

theorem same_of_only {ks : List Part} {s t : State} (h : Only ks s t) (hm : Part.mem ∉ ks) (hr : Part.regs ∉ ks) : SameStore s t :=
  SameStore.of (h.mem hm) (stackFailed_congr (h.regs hr))

theorem arrBlk_stk (t : TileId) (o i : Nat) (h : o < 0x1000) : stkBlk i 0 ≠ arrBlk t o := tileBlk_stk _ _ _ (by omega)

theorem arrBlk_add (t : TileId) (o : Nat) : arrBlk t 0 + o = arrBlk t o := by unfold arrBlk tileBlk; omega

theorem arrCount_same (t : TileId) (c off sub n : Nat) (st : Option Nat) (sc : BitVec 32) (s : State) (h : off < 0x1000) :
    SameStore s (arrCount t c off sub n st sc s) := by
  unfold arrCount
  split
  · exact SameStore.rfl
  · dsimp only
    have k1 := (bump_same (arrBlk t 0) off n s fun i => by rw [arrBlk_add]; exact arrBlk_stk _ _ _ h).trans
      (same_of_only (bumpDict_only (dkey 0x4010 sub) n (bump (arrBlk t 0) off n s)) (by decide) (by decide))
    generalize bumpDict (dkey 0x4010 sub) n (bump (arrBlk t 0) off n s) = y at k1
    have hs : ∀ z, SameStore z (setScope c sc z) := fun z => same_of_only (setScope_only c sc z) (by decide) (by decide)
    cases st with
    | some i => exact (k1.trans (setBit_same _ _ _ fun i => arrBlk_stk _ _ _ (by decide))).trans (hs _)
    | none => exact k1.trans (hs _)

theorem vellumRow_spec (t : TileId) (cl : Nat) (j : PassJob) (unit : Rat) (rs : List ColRes) (s : State) :
    (∀ name buf, j.dest = some (name, buf) → buf.placed → StoredAt s (vellumRow t cl j unit rs s) buf (name / 4096) (vellumOff buf j)
      (vellumOuts (s.bytesOf buf (name / 4096) (vellumOff buf j) (4 * rs.length)) unit rs)) ∧
    Only (.mem :: .banks :: .wear :: .served :: .clients :: accountParts) s (vellumRow t cl j unit rs s) := by
  unfold vellumRow
  cases hd : j.dest with
  | none => exact ⟨fun name buf h => (by cases h), Only.rfl' _⟩
  | some p =>
    obtain ⟨name, buf⟩ := p
    dsimp only
    have hv := readBuf_val cl buf (name / 4096) (vellumOff buf j) (4 * rs.length) s
    have ha := readBuf_access cl buf (name / 4096) (vellumOff buf j) (4 * rs.length) s
    have hs := readBuf_same cl buf (name / 4096) (vellumOff buf j) (4 * rs.length) s
    generalize readBuf cl buf (name / 4096) (vellumOff buf j) (4 * rs.length) s = q at hv ha hs ⊢
    change q.1 = s.bytesOf buf (name / 4096) (vellumOff buf j) (4 * rs.length) at hv
    rw [hv]
    generalize hbs : vellumOuts (s.bytesOf buf (name / 4096) (vellumOff buf j) (4 * rs.length)) unit rs = bs
    have hw := writeBuf_peek_storable cl (e := buf) (d := name / 4096) (off := vellumOff buf j) (bs := bs) (s := q.2)
    have hwa := writeBuf_access cl buf (name / 4096) (vellumOff buf j) bs q.2
    generalize writeBuf cl buf (name / 4096) (vellumOff buf j) bs q.2 = s2 at hw hwa ⊢
    have k0 : Only accessParts s s2 := (only_of_access ha).trans (only_of_access hwa)
    have k1 := setScope_only cl scVellum s2
    generalize setScope cl scVellum s2 = s3 at k1 ⊢
    have k2 := setBit_only (arrBlk t 0) 4 s3
    have w2 := setBit_same (arrBlk t 0) 4 s3 fun i => arrBlk_stk _ _ _ (by decide)
    generalize setBit (arrBlk t 0) 4 s3 = s4 at k2 w2 ⊢
    generalize rs.foldl (fun m r => m + r.nonfin) 0 = nf
    have k3 : Only (.clients :: accountParts) s4 (countNonfin t cl nf (decide (nf ≠ 0)) s4) := arrCount_only _ _ _ _ _ _ _ _
    have w3 : SameStore s4 (countNonfin t cl nf (decide (nf ≠ 0)) s4) := arrCount_same _ _ _ _ _ _ _ _ (by decide)
    generalize countNonfin t cl nf (decide (nf ≠ 0)) s4 = s5 at k3 w3 ⊢
    generalize rs.foldl (fun m r => m + r.under) 0 = un
    have k4 : Only (.clients :: accountParts) s5 (countUnder t cl un s5) := arrCount_only _ _ _ _ _ _ _ _
    have w4 : SameStore s5 (countUnder t cl un s5) := arrCount_same _ _ _ _ _ _ _ _ (by decide)
    generalize countUnder t cl un s5 = s6 at k4 w4 ⊢
    have w : SameStore s2 s6 := (((same_of_only k1 (by decide) (by decide)).trans w2).trans w3).trans w4
    refine ⟨fun name' buf' h hp => ?_, ?_⟩
    · cases h
      rw [hbs]
      obtain ⟨q1, q2, q3⟩ := hw hp
      refine ⟨fun x hx => ?_, fun i hi hst hpo => ?_⟩
      · rw [w.peekByte, q1 x hx, hs.peekByte]
      · rw [w.peekByte]
        refine q2 i hi ?_ ?_
        · rw [hs.storable]; exact hst
        · rw [hs.peekByte]; exact hpo
    · exact ((((k0.mono (by decide)).step k1 (by decide)).step k2 (by decide)).step k3 (by decide)).step k4 (by decide)

theorem postUncorr_same (k d : Nat) (b : Bool) (p c : Nat) (s : State) : SameStore s (postUncorr k d b p c s) :=
  same_of_only (postUncorr_only k d b p c s) (by decide) (by decide)

theorem readAcc_same (t : TileId) (c b n e : Nat) (us : List Upset) (x : AccEntry) (s : State) :
    SameStore s (readAcc t c b n e us x s).2 := by
  unfold readAcc
  dsimp only
  generalize (us.filter _) = l
  refine foldl_same _ (fun p u => ?_) l (x, s)
  dsimp only
  generalize dkey 0x4010 0x05 = kk
  have hb : ∀ b y, SameStore y (setBit (arrBlk t 0) b y) := fun b y => setBit_same _ _ _ fun i => arrBlk_stk _ _ _ (by decide)
  have k1 : SameStore p.2 (if (readErr u.flips).corrected = true then setBit (arrBlk t 0) 5 (bumpDict kk 1 p.2) else p.2) := by
    split
    · exact (same_of_only (bumpDict_only _ _ _) (by decide) (by decide)).trans (hb _ _)
    · exact SameStore.rfl
  split
  · exact (k1.trans (hb _ _)).trans (postUncorr_same _ _ _ _ _ _)
  · exact k1

theorem addCol_same (t : TileId) (cl b e : Nat) (wr : Bool) (us : List Upset) (rs : List ColRes) (p : State × Nat × Bool) (n : Nat) :
    SameStore p.1 (addCol t cl b e wr us rs p n).1 := by
  obtain ⟨s, k, fl⟩ := p
  unfold addCol
  dsimp only
  cases wr with
  | true => exact same_of_only (setArr_only _ _ _) (by decide) (by decide)
  | false => exact (readAcc_same _ _ _ _ _ _ _ _).trans (same_of_only (setArr_only _ _ _) (by decide) (by decide))

theorem addRow_same (t : TileId) (cl b e : Nat) (wr : Bool) (us : List Upset) (rs : List ColRes) (s : State) :
    SameStore s (addRow t cl b e wr us rs s) := by
  unfold addRow
  dsimp only
  have h : ∀ (l : List Nat) (p : State × Nat × Bool), SameStore p.1 (l.foldl (addCol t cl b e wr us rs) p).1 := by
    intro l
    induction l with
    | nil => intro p; exact SameStore.rfl
    | cons x l ih => intro p; exact (addCol_same t cl b e wr us rs p x).trans (ih _)
  have h0 := h (List.range rs.length) (s, 0, false)
  generalize (List.range rs.length).foldl (addCol t cl b e wr us rs) (s, 0, false) = q at h0 ⊢
  obtain ⟨s1, k, fl⟩ := q
  dsimp only at h0 ⊢
  have h1 := ((h0.trans (arrCount_same t cl 0x008 0x01 k (some 0) scSaturated s1 (by decide))).trans (arrCount_same t cl 0x020 0x04
    (rs.foldl (fun m r => m + r.nonfin) 0) (if (fl && decide (rs.foldl (fun m r => m + r.nonfin) 0 ≠ 0)) = true then some 3 else none) 0 _ (by decide))).trans
    (arrCount_same t cl 0x010 0x02 (rs.foldl (fun m r => m + r.under) 0) (some 1) scUnderflow _ (by decide))
  split
  · exact h1
  · exact h1.trans (same_of_only (setArr_only _ _ _) (by decide) (by decide))

theorem StoredAt.from {r s n : State} {e : Entry} {d o : Nat} {bs : List Byte} (h : StoredAt s n e d o bs) (w : SameStore r s) :
    StoredAt r n e d o bs := by
  refine ⟨fun x hx => by rw [h.1 x hx, w.peekByte], fun i hi hs hp => h.2 i hi ?_ ?_⟩
  · rw [w.storable]; exact hs
  · rw [w.peekByte]; exact hp

theorem StoredAt.to {s n m : State} {e : Entry} {d o : Nat} {bs : List Byte} (h : StoredAt s n e d o bs) (w : SameStore n m) :
    StoredAt s m e d o bs :=
  ⟨fun x hx => by rw [w.peekByte, h.1 x hx], fun i hi hs hp => by rw [w.peekByte]; exact h.2 i hi hs hp⟩

theorem bytesOf_same {r s : State} (w : SameStore r s) (e : Entry) (d o n : Nat) : s.bytesOf e d o n = r.bytesOf e d o n := by
  unfold State.bytesOf
  exact List.map_congr_left fun i _ => w.peekByte _

theorem RowDone.from {r s n : State} {a arr : ArrayS} {j : PassJob} {w : Stat} {xf : Fmt} {xt : Rat} {x : Line} {us : List Upset}
    (h : RowDone s n a arr j w xf xt x us) (k : SameStore r s) : RowDone r n a arr j w xf xt x us := by
  unfold RowDone at h ⊢
  dsimp only at h ⊢
  refine ⟨fun hv => ?_, fun hv => ⟨(h.2 hv).1, fun name buf hd hp => ?_⟩⟩
  · obtain ⟨y, h1, h2, h3⟩ := h.1 hv
    exact ⟨y, h1, h2, fun z => (h3 z).trans (k.peekByte z)⟩
  · have := ((h.2 hv).2 name buf hd hp).from k
    rwa [bytesOf_same k] at this

theorem RowDone.to {s n m : State} {a arr : ArrayS} {j : PassJob} {w : Stat} {xf : Fmt} {xt : Rat} {x : Line} {us : List Upset}
    (h : RowDone s n a arr j w xf xt x us) (k : SameStore n m) : RowDone s m a arr j w xf xt x us := by
  unfold RowDone at h ⊢
  dsimp only at h ⊢
  refine ⟨fun hv => ?_, fun hv => ⟨(h.2 hv).1, fun name buf hd hp => ((h.2 hv).2 name buf hd hp).to k⟩⟩
  obtain ⟨y, h1, h2, h3⟩ := h.1 hv
  exact ⟨y, h1, h2, fun z => (k.peekByte z).trans (h3 z)⟩

theorem Completed.from' {s r n : State} {id : Nat} (h : Completed s n id) (hp : s.plates = r.plates) (hc : ScopesOnly r s) :
    Completed r n id := by
  obtain ⟨a1, a2, a3, a4⟩ := h
  have hff : ∀ k, findFlight s k = findFlight r k := fun k => findFlight_congr hp k
  refine ⟨a1, fun k hk => by rw [a2 k hk, hff], fun f hf' => ?_, by rw [a4, hp]⟩
  rw [a3 f (by rw [hff]; exact hf'), hp, hc.aborted]

theorem rowEffect_spec (t : TileId) (cl : Nat) (j : PassJob) (w : Stat) (xf : Fmt) (xt : Rat) (x : Line) (tag : Nat) (us : List Upset) (s : State) :
    let n := rowEffect t cl j w xf xt x tag us s
    let j1 := nextRow j tag
    ∃ arr : ArrayS, RowDone s n (getArr s t) arr j w xf xt x us ∧
      getTile n t = { getTile s t with arr := { arr with
        passes := if passOver j1 then (getArr s t).passes.drop 1 else j1 :: (getArr s t).passes.drop 1 } } ∧
      (∀ u : TileId, u ≠ t → getTile n u = getTile s u) ∧
      (if passOver j1 then Completed s n j.id else n.plates = s.plates) ∧
      Only (.mem :: .banks :: .wear :: .served :: .tiles :: .plates :: .clients :: accountParts) s n := by
  intro n j1
  -- what the results do
  obtain ⟨s1, arr, hn, e1, e2, e3, e4, e5, e6⟩ : ∃ (s1 : State) (arr : ArrayS),
      n = (let s2 := setArr t { getArr s1 t with passes := if passOver j1 then (getArr s1 t).passes.drop 1 else j1 :: (getArr s1 t).passes.drop 1 } s1
        if passOver j1 then complete j.id s2 else s2) ∧
      RowDone s s1 (getArr s t) arr j w xf xt x us ∧ getTile s1 t = { getTile s t with arr := arr } ∧ arr.passes = (getArr s t).passes ∧
      (∀ u : TileId, u ≠ t → getTile s1 u = getTile s u) ∧
      Only (.mem :: .banks :: .wear :: .served :: .tiles :: .clients :: accountParts) s s1 ∧ ScopesOnly s s1 := by
    have hpl : ∀ (a : ArrayS) (b : Nat) (y : Bank), (setBank a b y).passes = a.passes := by
      intro a b y; unfold setBank; split <;> rfl
    have hpt : ∀ (a : ArrayS) (b e : Nat) (r : BankRec), (throughBank a j b e r).passes = a.passes := by
      intro a b e r; unfold throughBank; split
      · exact hpl _ _ _
      · rfl
    have hf : n = rowEffect t cl j w xf xt x tag us s := rfl
    unfold rowEffect at hf
    dsimp only at hf
    by_cases hv : j.vellum = true
    · rw [if_pos hv] at hf
      obtain ⟨v1, v2⟩ := vellumRow_spec t cl j (pow2 (passRec j xf xt w).base * (passRec j xf xt w).scale) (rowResults j.anchor xf x w) s
      have v3 := vellumRow_scopes t cl j (pow2 (passRec j xf xt w).base * (passRec j xf xt w).scale) (rowResults j.anchor xf x w) s
      generalize vellumRow t cl j (pow2 (passRec j xf xt w).base * (passRec j xf xt w).scale) (rowResults j.anchor xf x w) s = s1 at hf v1 v2 v3
      refine ⟨s1, getArr s t, hf, by
        unfold RowDone; dsimp only
        exact ⟨fun h => absurd (hv.symm.trans h) (by decide), fun _ => ⟨rfl, v1⟩⟩, ?_, rfl, fun u _ => getTile_congr (v2.tiles (by decide)) u, v2.mono (by decide), v3⟩
      rw [getTile_congr (v2.tiles (by decide))]
      rfl
    · rw [if_neg hv] at hf
      have g0 := fun u => getTile_setArr t u (throughBank (getArr s t) j (rowPlace j).1 (rowPlace j).2 (passRec j xf xt w)) s
      have k0 := setArr_only t (throughBank (getArr s t) j (rowPlace j).1 (rowPlace j).2 (passRec j xf xt w)) s
      generalize setArr t (throughBank (getArr s t) j (rowPlace j).1 (rowPlace j).2 (passRec j xf xt w)) s = s0 at hf g0 k0
      have ha : getArr s0 t = throughBank (getArr s t) j (rowPlace j).1 (rowPlace j).2 (passRec j xf xt w) := by
        show (getTile s0 t).arr = _
        rw [g0, if_pos rfl]
      obtain ⟨y, r1, r2, r3, r4⟩ := addRow_spec t cl (rowPlace j).1 (rowPlace j).2 j.through us (rowResults j.anchor xf x w) s0
      have r5 := addRow_scopes t cl (rowPlace j).1 (rowPlace j).2 j.through us (rowResults j.anchor xf x w) s0
      have r6 := addRow_same t cl (rowPlace j).1 (rowPlace j).2 j.through us (rowResults j.anchor xf x w) s0
      generalize addRow t cl (rowPlace j).1 (rowPlace j).2 j.through us (rowResults j.anchor xf x w) s0 = s1 at hf r2 r3 r4 r5 r6
      rw [ha] at r1 r2
      refine ⟨s1, setBank (throughBank (getArr s t) j (rowPlace j).1 (rowPlace j).2 (passRec j xf xt w)) (rowPlace j).1 y, hf,
        (by
          unfold RowDone; dsimp only
          exact ⟨fun _ => ⟨y, r1, rfl, fun z => ((same_of_only k0 (by decide) (by decide)).trans r6).peekByte z⟩, fun h => absurd h hv⟩), ?_, by rw [hpl, hpt], fun u hu => by rw [r3 u hu, g0, if_neg hu],
        (k0.mono (by decide)).step r4 (by decide), (ScopesOnly.of_only k0 (by decide)).trans r5⟩
      · rw [r2, g0, if_pos rfl]
  clear_value n
  have ha1 : getArr s1 t = arr := by show (getTile s1 t).arr = _; rw [e2]
  rw [ha1] at hn
  dsimp only at hn
  generalize hA : ({ arr with passes := if passOver j1 then arr.passes.drop 1 else j1 :: arr.passes.drop 1 } : ArrayS) = A at hn
  have g := fun u => getTile_setArr t u A s1
  have k := setArr_only t A s1
  generalize setArr t A s1 = s2 at hn g k
  have w2 : SameStore s1 s2 := same_of_only k (by decide) (by decide)
  rw [e3] at hA
  by_cases ho : passOver j1 = true
  · rw [if_pos ho] at hn
    have kc := complete_only j.id s2
    have hc := complete_completed j.id s2
    rw [← hn] at kc hc
    refine ⟨arr, (e1.to w2).to (same_of_only kc (by decide) (by decide)), ?_, fun u hu => ?_, ?_, ?_⟩
    · rw [getTile_congr (kc.tiles (by decide)), g, if_pos rfl, e2, hA]
    · rw [getTile_congr (kc.tiles (by decide)), g, if_neg hu, e4 u hu]
    · rw [if_pos ho]
      exact hc.from' (by rw [k.plates (by decide), e5.plates (by decide)]) (e6.trans (ScopesOnly.of_only k (by decide)))
    · exact ((e5.mono (by decide)).step k (by decide)).step kc (by decide)
  · rw [if_neg ho] at hn
    rw [hn]
    refine ⟨arr, e1.to w2, ?_, fun u hu => ?_, ?_, (e5.mono (by decide)).step k (by decide)⟩
    · rw [g, if_pos rfl, e2, hA]
    · rw [g, if_neg hu, e4 u hu]
    · rw [if_neg ho, k.plates (by decide), e5.plates (by decide)]

theorem stat_lt (e : Entry) : e.stat < 4096 := by
  unfold Entry.stat
  exact Nat.lt_of_lt_of_le (fld_lt' _ _ _) (by decide)

theorem consumerViol_same (d n : Nat) (e : Entry) (s : State) : SameStore s (consumerViol d e.stat n s) := by
  have hs := stat_lt e
  unfold consumerViol govFlag
  split
  · exact SameStore.rfl
  · split
    · exact SameStore.rfl
    · refine SameStore.of_stk ((orReg_only _ _ _).mem (by decide)) fun i => ?_
      unfold orReg
      rw [getReg_setReg, if_neg]
      unfold govBlk stkBlk ctlBase
      omega

theorem delivered_same (t : TileId) (x : StreamS) (n : Nat) (s : State) : SameStore s (delivered t x n s) := by
  unfold delivered
  refine (same_of_only (setStr_only t x s) (by decide) (by decide)).trans (bump_same _ _ _ _ fun i => ?_)
  have := tileBlk_stk t.val (0x2000 + 0x010) i (by decide)
  unfold strBlk tileBlk at *
  omega

theorem switchTile_passes (a : ArrayS) (j : PassJob) (ok : Bool) : (switchTile a j ok).passes = a.passes := by
  unfold switchTile; split <;> rfl

theorem beginPass_passes (a : ArrayS) (j : PassJob) (xf : Fmt) (xt : Rat) (w : Stat) : (beginPass a j xf xt w).passes = a.passes := by
  unfold beginPass
  split
  · rfl
  · unfold startBank
    split
    · exact switchTile_passes _ _ _
    · unfold setBank
      split <;> exact switchTile_passes _ _ _

theorem gatherRow_spec (cl name : Nat) (e : Entry) (slot k : Nat) (s : State) :
    SameStore s (gatherRow cl name e slot k s).2.2.2 ∧ (gatherRow cl name e slot k s).2.2.2 = s.access (gatherRow cl name e slot k s).2.2.2 ∧
    ScopesOnly s (gatherRow cl name e slot k s).2.2.2 := by
  unfold gatherRow
  dsimp only
  have w1 := readBuf_same cl e (name / 4096) (slot * e.slotBytes) 8 s
  have a1 := readBuf_access cl e (name / 4096) (slot * e.slotBytes) 8 s
  have c1 := readBuf_scopes cl e (name / 4096) (slot * e.slotBytes) 8 s
  generalize readBuf cl e (name / 4096) (slot * e.slotBytes) 8 s = q1 at w1 a1 c1 ⊢
  have w2 := readBuf_same cl e (name / 4096) (slot * e.slotBytes + 8) (k * elemBits e.fmtD.elem / 8) q1.2
  have a2 := readBuf_access cl e (name / 4096) (slot * e.slotBytes + 8) (k * elemBits e.fmtD.elem / 8) q1.2
  have c2 := readBuf_scopes cl e (name / 4096) (slot * e.slotBytes + 8) (k * elemBits e.fmtD.elem / 8) q1.2
  generalize readBuf cl e (name / 4096) (slot * e.slotBytes + 8) (k * elemBits e.fmtD.elem / 8) q1.2 = q2 at w2 a2 c2 ⊢
  have w3 := readBuf_same cl e (name / 4096) (slot * e.slotBytes + e.soff) (cdiv k e.fmtD.blk) q2.2
  have a3 := readBuf_access cl e (name / 4096) (slot * e.slotBytes + e.soff) (cdiv k e.fmtD.blk) q2.2
  have c3 := readBuf_scopes cl e (name / 4096) (slot * e.slotBytes + e.soff) (cdiv k e.fmtD.blk) q2.2
  generalize readBuf cl e (name / 4096) (slot * e.slotBytes + e.soff) (cdiv k e.fmtD.blk) q2.2 = q3 at w3 a3 c3 ⊢
  split
  · exact ⟨w1.trans w2, State.access_trans a1 a2, c1.trans c2⟩
  · exact ⟨(w1.trans w2).trans w3, State.access_trans (State.access_trans a1 a2) a3, (c1.trans c2).trans c3⟩

end Sys2Proof.Machine
end

