-- ==== Sys2Proof/Laws/KeptWear.lean ====
section
/-! SUPPORT. What the operations of Machine/Wear.lean keep (Laws/Kept.lean). -/

set_option Elab.async false

namespace Sys2Proof.Machine

theorem queueSwap_kept {ks : List Part} {r : State} (w : Swap) {s : State} (h : Kept ks r s) (hk : [.wearS] ⊆ ks := by first | assumption | exact sub_of (by assumption) (by decide)) : Kept ks r (queueSwap w s) := by
  unfold queueSwap
  try dsimp only
  repeat' first
    | with_reducible assumption
    | with_reducible apply kept_ite
    | with_reducible refine kept_mk ?_ (by constructor <;> intro hp <;> first | exact absurd (sub_mem hk (by decide)) hp | rfl) (by rfl) (by rfl)

theorem execWearTrigger_kept {ks : List Part} {r out : State} (k : WearIn) {s : State} (h : Kept ks r s) (he : execWearTrigger k s = .next out) (hk : [.host, .logs, .wearS, .free] ⊆ ks := by first | assumption | exact sub_of (by assumption) (by decide)) : Kept ks r out := by
  unfold execWearTrigger at he
  refine kept_next he ?_
  clear he
  try dsimp only
  repeat' first
    | with_reducible assumption
    | exact sub_of hk (by decide)
    | with_reducible apply fresh_kept
    | with_reducible apply post_kept
    | with_reducible apply queueSwap_kept
    | with_reducible apply noSpare_kept
    | with_reducible apply kept_ite

theorem execWearWindowBoundary_kept {ks : List Part} {r out : State} {s : State} (h : Kept ks r s) (he : execWearWindowBoundary s = .next out) (hk : [.wear] ⊆ ks := by first | assumption | exact sub_of (by assumption) (by decide)) : Kept ks r out := by
  unfold execWearWindowBoundary at he
  refine kept_next he ?_
  clear he
  try dsimp only
  repeat' first
    | with_reducible assumption
    | with_reducible refine kept_mk ?_ (by constructor <;> intro hp <;> first | exact absurd (sub_mem hk (by decide)) hp | rfl) (by rfl) (by rfl)

theorem swapTile_kept {ks : List Part} {r : State} (d : DieId) (p : Nat) {s : State} (h : Kept ks r s) (hk : [.dict, .sat, .cat, .plates, .tiles, .units, .clients, .fabric, .host, .logs, .start, .wearS, .free] ⊆ ks := by first | assumption | exact sub_of (by assumption) (by decide)) : Kept ks r (swapTile d p s) := by
  unfold swapTile
  try dsimp only
  repeat' first
    | with_reducible assumption
    | exact sub_of hk (by decide)
    | with_reducible apply tileReset_kept
    | with_reducible apply doneSwap_kept
    | with_reducible apply mapTile_kept
    | with_reducible apply kept_ite
    | split

theorem remapPort_kept {ks : List Part} {r : State} (p : Nat) {s : State} (h : Kept ks r s) (hk : [.regs, .dict, .sat, .host, .logs, .wearS] ⊆ ks := by first | assumption | exact sub_of (by assumption) (by decide)) : Kept ks r (remapPort p s) := by
  unfold remapPort
  try dsimp only
  repeat' first
    | with_reducible assumption
    | exact sub_of hk (by decide)
    | with_reducible apply setPortState_kept
    | with_reducible apply recordSwap_kept
    | with_reducible apply kept_ite
    | split
    | with_reducible refine kept_mk ?_ (by constructor <;> intro hp <;> first | exact absurd (sub_mem hk (by decide)) hp | rfl) (by rfl) (by rfl)

theorem execPortRemap_kept {ks : List Part} {r out : State} (p : PortId) {s : State} (h : Kept ks r s) (he : execPortRemap p s = .next out) (hk : [.regs, .dict, .sat, .host, .logs, .wearS] ⊆ ks := by first | assumption | exact sub_of (by assumption) (by decide)) : Kept ks r out := by
  unfold execPortRemap at he
  refine kept_next he ?_
  clear he
  try dsimp only
  repeat' first
    | with_reducible assumption
    | with_reducible apply remapPort_kept
    | with_reducible apply kept_ite

theorem execSpareSwap_kept {ks : List Part} {r out : State} (k : Nat) {s : State} (h : Kept ks r s) (he : execSpareSwap k s = .next out) (hk : [.mem, .regs, .dict, .sat, .cat, .banks, .plates, .tiles, .units, .clients, .fabric, .host, .logs, .start, .wearS, .wear, .free] ⊆ ks := by first | assumption | exact sub_of (by assumption) (by decide)) : Kept ks r out := by
  unfold execSpareSwap at he
  refine kept_next he ?_
  clear he
  try dsimp only
  repeat' first
    | with_reducible assumption
    | exact sub_of hk (by decide)
    | with_reducible apply swapTile_kept
    | with_reducible apply replaceBank_kept
    | with_reducible apply spareStackDie_kept
    | with_reducible apply askLane_kept
    | with_reducible apply remapPort_kept
    | split

theorem blowFuse_kept {ks : List Part} {r : State} (e : Nat) (r0 : Errata) (ok : Bool) {s : State} (h : Kept ks r s) (hk : [.dict, .host, .logs, .wearS] ⊆ ks := by first | assumption | exact sub_of (by assumption) (by decide)) : Kept ks r (blowFuse e r0 ok s) := by
  unfold blowFuse
  try dsimp only
  repeat' first
    | with_reducible assumption
    | exact sub_of hk (by decide)
    | with_reducible apply setErrata_kept
    | with_reducible apply post_kept
    | with_reducible apply setDict_kept
    | with_reducible apply kept_ite

theorem curSay_kept {ks : List Part} {r : State} (l : String) {s : State} (h : Kept ks r s) (hk : [.cur] ⊆ ks := by first | assumption | exact sub_of (by assumption) (by decide)) : Kept ks r (curSay l s) := by
  unfold curSay
  try dsimp only
  repeat' first
    | with_reducible assumption
    | with_reducible refine kept_mk ?_ (by constructor <;> intro hp <;> first | exact absurd (sub_mem hk (by decide)) hp | rfl) (by rfl) (by rfl)

theorem curReply_kept {ks : List Part} {r : State} (l : String) {s : State} (h : Kept ks r s) (hk : [.cur] ⊆ ks := by first | assumption | exact sub_of (by assumption) (by decide)) : Kept ks r (curReply l s) := by
  unfold curReply
  try dsimp only
  repeat' first
    | with_reducible assumption
    | with_reducible apply curSay_kept

theorem execFuseBlow_kept {ks : List Part} {r out : State} (e : Nat) (ok : Bool) {s : State} (h : Kept ks r s) (he : execFuseBlow e ok s = .next out) (hk : [.dict, .host, .logs, .wearS, .cur] ⊆ ks := by first | assumption | exact sub_of (by assumption) (by decide)) : Kept ks r out := by
  unfold execFuseBlow at he
  refine kept_next he ?_
  clear he
  try dsimp only
  repeat' first
    | with_reducible assumption
    | exact sub_of hk (by decide)
    | with_reducible apply blowFuse_kept
    | with_reducible apply curReply_kept
    | with_reducible apply kept_ite
    | split
    | with_reducible refine kept_mk ?_ (by constructor <;> intro hp <;> first | exact absurd (sub_mem hk (by decide)) hp | rfl) (by rfl) (by rfl)

theorem armFuse_kept {ks : List Part} {r : State} (v : Nat) {s : State} (h : Kept ks r s) (hk : [.dict] ⊆ ks := by first | assumption | exact sub_of (by assumption) (by decide)) : Kept ks r (armFuse v s).2 := by
  unfold armFuse
  try dsimp only
  repeat' first
    | with_reducible assumption
    | with_reducible apply setDict_kept
    | split

theorem execFuseArm_kept {ks : List Part} {r out : State} (v : Byte) {s : State} (h : Kept ks r s) (he : execFuseArm v s = .next out) (hk : [.dict] ⊆ ks := by first | assumption | exact sub_of (by assumption) (by decide)) : Kept ks r out := by
  unfold execFuseArm at he
  refine kept_next he ?_
  clear he
  try dsimp only
  repeat' first
    | with_reducible assumption
    | with_reducible apply armFuse_kept

theorem execFuseArmExpire_kept {ks : List Part} {r out : State} {s : State} (h : Kept ks r s) (he : execFuseArmExpire s = .next out) (hk : [.dict] ⊆ ks := by first | assumption | exact sub_of (by assumption) (by decide)) : Kept ks r out := by
  unfold execFuseArmExpire at he
  refine kept_next he ?_
  clear he
  try dsimp only
  repeat' first
    | with_reducible assumption
    | with_reducible apply setDict_kept

theorem execErrorLogWrite_kept {ks : List Part} {r out : State} {s : State} (h : Kept ks r s) (he : execErrorLogWrite s = .next out) (hk : [.dict, .sat, .host, .logs] ⊆ ks := by first | assumption | exact sub_of (by assumption) (by decide)) : Kept ks r out := by
  unfold execErrorLogWrite at he
  refine kept_next he ?_
  clear he
  try dsimp only
  repeat' first
    | with_reducible assumption
    | with_reducible apply bumpDict_kept
    | split
    | with_reducible refine kept_mk ?_ (by constructor <;> intro hp <;> first | exact absurd (sub_mem hk (by decide)) hp | rfl) (by rfl) (by rfl)

theorem clearErrlog_kept {ks : List Part} {r : State} (v : Nat) {s : State} (h : Kept ks r s) (hk : [.logs] ⊆ ks := by first | assumption | exact sub_of (by assumption) (by decide)) : Kept ks r (clearErrlog v s).2 := by
  unfold clearErrlog
  try dsimp only
  repeat' first
    | with_reducible assumption
    | split
    | dsimp only
    | with_reducible refine kept_mk ?_ (by constructor <;> intro hp <;> first | exact absurd (sub_mem hk (by decide)) hp | rfl) (by rfl) (by rfl)

theorem execErrlogClear_kept {ks : List Part} {r out : State} (v : Byte) {s : State} (h : Kept ks r s) (he : execErrlogClear v s = .next out) (hk : [.logs] ⊆ ks := by first | assumption | exact sub_of (by assumption) (by decide)) : Kept ks r out := by
  unfold execErrlogClear at he
  refine kept_next he ?_
  clear he
  try dsimp only
  repeat' first
    | with_reducible assumption
    | with_reducible apply clearErrlog_kept

end Sys2Proof.Machine
end

