-- ==== Sys2Proof/Laws/KeptDict.lean ====
section
/-! SUPPORT. What the operations of Machine/Dict.lean keep (Laws/Kept.lean). -/

set_option Elab.async false

namespace Sys2Proof.Machine

theorem entryRecord_kept {ks : List Part} {r : State} (r0 : DRow) (k : Nat) {s : State} (h : Kept ks r s) (hk : [.free] ⊆ ks := by first | assumption | exact sub_of (by assumption) (by decide)) : Kept ks r (entryRecord r0 k s).2 := by
  unfold entryRecord
  try dsimp only
  repeat' first
    | with_reducible assumption
    | with_reducible apply fresh_kept
    | split

theorem openRecord_kept {ks : List Part} {r : State} (e : Event) {s : State} (h : Kept ks r s) (hk : [.free] ⊆ ks := by first | assumption | exact sub_of (by assumption) (by decide)) : Kept ks r (openRecord e s).2 := by
  unfold openRecord
  try dsimp only
  repeat' first
    | with_reducible assumption
    | with_reducible apply fresh_kept
    | with_reducible apply recordBytes_kept

theorem logBytes_kept {ks : List Part} {r : State} (l : List Event) {s : State} (h : Kept ks r s) (hk : [.free] ⊆ ks := by first | assumption | exact sub_of (by assumption) (by decide)) : Kept ks r (logBytes l s).2 := by
  unfold logBytes
  try dsimp only
  repeat' first
    | with_reducible assumption
    | intro _
    | with_reducible apply openRecord_kept
    | with_reducible apply kept_foldl_snd

theorem entryBlob_kept {ks : List Part} {r : State} (k : Nat) {s : State} (h : Kept ks r s) (hk : [.free] ⊆ ks := by first | assumption | exact sub_of (by assumption) (by decide)) : Kept ks r (entryBlob k s).2 := by
  unfold entryBlob
  try dsimp only
  repeat' first
    | with_reducible assumption
    | with_reducible apply logBytes_kept
    | split

theorem dictRead_kept {ks : List Part} {r : State} (ix : Nat) (sub : Nat) {s : State} (h : Kept ks r s) (hk : [.free] ⊆ ks := by first | assumption | exact sub_of (by assumption) (by decide)) : Kept ks r (dictRead ix sub s).2.2 := by
  unfold dictRead
  try dsimp only
  repeat' first
    | with_reducible assumption
    | with_reducible apply entryBlob_kept
    | split

theorem dictInfo_kept {ks : List Part} {r : State} (ix : Nat) (sub : Nat) {s : State} (h : Kept ks r s) (hk : [.free] ⊆ ks := by first | assumption | exact sub_of (by assumption) (by decide)) : Kept ks r (dictInfo ix sub s).2.2 := by
  unfold dictInfo
  try dsimp only
  repeat' first
    | with_reducible assumption
    | with_reducible apply entryRecord_kept
    | split

theorem writeNat_kept {ks : List Part} {r : State} (k : Nat) (v : Nat) {s : State} (h : Kept ks r s) (hk : [.mem, .regs, .shadow, .dict, .blobs, .sat, .cat, .banks, .plates, .tiles, .units, .clients, .fabric, .rot, .arbs, .host, .logs, .start, .wearS, .can, .cur, .mail, .wear, .ledger, .served, .ports, .tick] ⊆ ks := by first | assumption | exact sub_of (by assumption) (by decide)) : Kept ks r (writeNat k v s).2 := by
  unfold writeNat
  try dsimp only
  repeat' first
    | with_reducible assumption
    | exact sub_of hk (by decide)
    | with_reducible apply coldReset_kept
    | with_reducible apply requestTest_kept
    | with_reducible apply fwCommit_kept
    | with_reducible apply cfgSave_kept
    | with_reducible apply clearErrlog_kept
    | with_reducible apply armFuse_kept
    | with_reducible apply setDict_kept
    | split
    | with_reducible refine kept_mk ?_ (by constructor <;> intro hp <;> first | exact absurd (sub_mem hk (by decide)) hp | rfl) (by rfl) (by rfl)

theorem writeBlob_kept {ks : List Part} {r : State} (k : Nat) (data : List Byte) {s : State} (h : Kept ks r s) (hk : [.dict, .blobs, .start] ⊆ ks := by first | assumption | exact sub_of (by assumption) (by decide)) : Kept ks r (writeBlob k data s).2 := by
  unfold writeBlob
  try dsimp only
  repeat' first
    | with_reducible assumption
    | exact sub_of hk (by decide)
    | with_reducible apply fwData_kept
    | with_reducible apply setDataPos_kept
    | split
    | dsimp only
    | with_reducible refine kept_mk ?_ (by constructor <;> intro hp <;> first | exact absurd (sub_mem hk (by decide)) hp | rfl) (by rfl) (by rfl)

theorem writeFixed_kept {ks : List Part} {r : State} (r0 : DRow) (n : Nat) (k : Nat) (data : List Byte) {s : State} (h : Kept ks r s) (hk : [.mem, .regs, .shadow, .dict, .blobs, .sat, .cat, .banks, .plates, .tiles, .units, .clients, .fabric, .rot, .arbs, .host, .logs, .start, .wearS, .can, .cur, .mail, .wear, .ledger, .served, .ports, .tick] ⊆ ks := by first | assumption | exact sub_of (by assumption) (by decide)) : Kept ks r (writeFixed r0 n k data s).2 := by
  unfold writeFixed
  try dsimp only
  repeat' first
    | with_reducible assumption
    | with_reducible apply writeNat_kept
    | split

theorem dictWrite_kept {ks : List Part} {r : State} (p : DPath) (ix : Nat) (sub : Nat) (data : List Byte) {s : State} (h : Kept ks r s) (hk : [.mem, .regs, .shadow, .dict, .blobs, .sat, .cat, .banks, .plates, .tiles, .units, .clients, .fabric, .rot, .arbs, .host, .logs, .start, .wearS, .can, .cur, .mail, .wear, .ledger, .served, .ports, .tick] ⊆ ks := by first | assumption | exact sub_of (by assumption) (by decide)) : Kept ks r (dictWrite p ix sub data s).2 := by
  unfold dictWrite
  try dsimp only
  repeat' first
    | with_reducible assumption
    | exact sub_of hk (by decide)
    | with_reducible apply writeFixed_kept
    | with_reducible apply writeBlob_kept
    | split

theorem dictAnswer_kept {ks : List Part} {r : State} (p : DPath) (code : Nat) (bs : List Byte) {s : State} (h : Kept ks r s) (hk : [.ports] ⊆ ks := by first | assumption | exact sub_of (by assumption) (by decide)) : Kept ks r (dictAnswer p code bs s) := by
  unfold dictAnswer
  try dsimp only
  repeat' first
    | with_reducible assumption
    | with_reducible refine kept_mk ?_ (by constructor <;> intro hp <;> first | exact absurd (sub_mem hk (by decide)) hp | rfl) (by rfl) (by rfl)

theorem execDictionaryRead_kept {ks : List Part} {r out : State} (p : DPath) (ix : Nat) (sub : Nat) {s : State} (h : Kept ks r s) (he : execDictionaryRead p ix sub s = .next out) (hk : [.ports, .free] ⊆ ks := by first | assumption | exact sub_of (by assumption) (by decide)) : Kept ks r out := by
  unfold execDictionaryRead at he
  refine kept_next he ?_
  clear he
  try dsimp only
  repeat' first
    | with_reducible assumption
    | exact sub_of hk (by decide)
    | with_reducible apply dictRead_kept
    | with_reducible apply dictAnswer_kept
    | with_reducible apply kept_ite

theorem execDictionaryWrite_kept {ks : List Part} {r out : State} (p : DPath) (ix : Nat) (sub : Nat) (data : List Byte) {s : State} (h : Kept ks r s) (he : execDictionaryWrite p ix sub data s = .next out) (hk : [.mem, .regs, .shadow, .dict, .blobs, .sat, .cat, .banks, .plates, .tiles, .units, .clients, .fabric, .rot, .arbs, .host, .logs, .start, .wearS, .can, .cur, .mail, .wear, .ledger, .served, .ports, .tick] ⊆ ks := by first | assumption | exact sub_of (by assumption) (by decide)) : Kept ks r out := by
  unfold execDictionaryWrite at he
  refine kept_next he ?_
  clear he
  try dsimp only
  repeat' first
    | with_reducible assumption
    | exact sub_of hk (by decide)
    | with_reducible apply dictWrite_kept
    | with_reducible apply dictAnswer_kept
    | with_reducible apply kept_ite

end Sys2Proof.Machine
end

