-- ==== Sys2Proof/Laws/KeptCan.lean ====
section
/-! SUPPORT. What the operations of Machine/Can.lean keep (Laws/Kept.lean). -/

set_option Elab.async false

namespace Sys2Proof.Machine

theorem setCanState_kept {ks : List Part} {r : State} (n : Nat) {s : State} (h : Kept ks r s) (hk : [.dict] ⊆ ks := by first | assumption | exact sub_of (by assumption) (by decide)) : Kept ks r (setCanState n s) := by
  unfold setCanState
  try dsimp only
  repeat' first
    | with_reducible assumption
    | with_reducible apply setDict_kept

theorem errorState_kept {ks : List Part} {r : State} {s : State} (h : Kept ks r s) (hk : [.dict] ⊆ ks := by first | assumption | exact sub_of (by assumption) (by decide)) : Kept ks r (errorState s) := by
  unfold errorState
  try dsimp only
  repeat' first
    | with_reducible assumption
    | with_reducible apply setCanState_kept
    | with_reducible apply kept_ite

theorem goodReceive_kept {ks : List Part} {r : State} {s : State} (h : Kept ks r s) (hk : [.dict, .can, .free] ⊆ ks := by first | assumption | exact sub_of (by assumption) (by decide)) : Kept ks r (goodReceive s) := by
  unfold goodReceive
  try dsimp only
  repeat' first
    | with_reducible assumption
    | exact sub_of hk (by decide)
    | with_reducible apply fresh_kept
    | with_reducible apply errorState_kept
    | split
    | dsimp only
    | with_reducible refine kept_mk ?_ (by constructor <;> intro hp <;> first | exact absurd (sub_mem hk (by decide)) hp | rfl) (by rfl) (by rfl)

theorem sendFrame_kept {ks : List Part} {r : State} (code : Nat) (node : Nat) (bs : List Byte) {s : State} (h : Kept ks r s) (hk : [.dict, .can] ⊆ ks := by first | assumption | exact sub_of (by assumption) (by decide)) : Kept ks r (sendFrame code node bs s) := by
  unfold sendFrame
  try dsimp only
  repeat' first
    | with_reducible assumption
    | exact sub_of hk (by decide)
    | with_reducible apply errorState_kept
    | with_reducible apply kept_ite
    | with_reducible refine kept_mk_frames ?_ (by constructor <;> intro hp <;> first | exact absurd (sub_mem hk (by decide)) hp | rfl) (by rfl) (List.prefix_append _ _)

theorem respond_kept {ks : List Part} {r : State} (bs : List Byte) {s : State} (h : Kept ks r s) (hk : [.dict, .can] ⊆ ks := by first | assumption | exact sub_of (by assumption) (by decide)) : Kept ks r (respond bs s) := by
  unfold respond
  try dsimp only
  repeat' first
    | with_reducible assumption
    | with_reducible apply sendFrame_kept

theorem countAbort_kept {ks : List Part} {r : State} {s : State} (h : Kept ks r s) (hk : [.dict, .sat, .host, .logs] ⊆ ks := by first | assumption | exact sub_of (by assumption) (by decide)) : Kept ks r (countAbort s) := by
  unfold countAbort
  try dsimp only
  repeat' first
    | with_reducible assumption
    | with_reducible apply bumpDict_kept

theorem endTrans_kept {ks : List Part} {r : State} (tag : Nat) {s : State} (h : Kept ks r s) (hk : [.can] ⊆ ks := by first | assumption | exact sub_of (by assumption) (by decide)) : Kept ks r (endTrans tag s) := by
  unfold endTrans
  try dsimp only
  repeat' first
    | with_reducible assumption
    | with_reducible refine kept_mk ?_ (by constructor <;> intro hp <;> first | exact absurd (sub_mem hk (by decide)) hp | rfl) (by rfl) (by rfl)

theorem abortTrans_kept {ks : List Part} {r : State} (tag : Nat) (code : Nat) {s : State} (h : Kept ks r s) (hk : [.dict, .sat, .host, .logs, .can, .free] ⊆ ks := by first | assumption | exact sub_of (by assumption) (by decide)) : Kept ks r (abortTrans tag code s) := by
  unfold abortTrans
  try dsimp only
  repeat' first
    | with_reducible assumption
    | exact sub_of hk (by decide)
    | with_reducible apply fresh_kept
    | with_reducible apply countAbort_kept
    | with_reducible apply respond_kept
    | with_reducible apply endTrans_kept

theorem setTrans_kept {ks : List Part} {r : State} (x : CanTx) {s : State} (h : Kept ks r s) (hk : [.can] ⊆ ks := by first | assumption | exact sub_of (by assumption) (by decide)) : Kept ks r (setTrans x s) := by
  unfold setTrans
  try dsimp only
  repeat' first
    | with_reducible assumption
    | with_reducible refine kept_mk ?_ (by constructor <;> intro hp <;> first | exact absurd (sub_mem hk (by decide)) hp | rfl) (by rfl) (by rfl)

theorem openTrans_kept {ks : List Part} {r : State} (x : CanTx) {s : State} (h : Kept ks r s) (hk : [.can] ⊆ ks := by first | assumption | exact sub_of (by assumption) (by decide)) : Kept ks r (openTrans x s) := by
  unfold openTrans
  try dsimp only
  repeat' first
    | with_reducible assumption
    | with_reducible refine kept_mk ?_ (by constructor <;> intro hp <;> first | exact absurd (sub_mem hk (by decide)) hp | rfl) (by rfl) (by rfl)

theorem onRequest_kept {ks : List Part} {r : State} (cmd : Nat) (f : CanFrame) {run : State → State} {s : State} (h : Kept ks r s) (hfrun : ∀ s, Kept ks r s → Kept ks r (run s)) (hk : [.dict, .sat, .host, .logs, .can, .free] ⊆ ks := by first | assumption | exact sub_of (by assumption) (by decide)) : Kept ks r (onRequest cmd f run s) := by
  unfold onRequest
  try dsimp only
  repeat' first
    | with_reducible assumption
    | exact sub_of hk (by decide)
    | with_reducible apply abortTrans_kept
    | with_reducible apply goodReceive_kept
    | with_reducible apply hfrun
    | with_reducible apply kept_ite

theorem opening_kept {ks : List Part} {r : State} (tag : Nat) {run : State → State} {s : State} (h : Kept ks r s) (hfrun : ∀ s, Kept ks r s → Kept ks r (run s)) (hk : [.dict, .sat, .host, .logs, .can, .free] ⊆ ks := by first | assumption | exact sub_of (by assumption) (by decide)) : Kept ks r (opening tag run s) := by
  unfold opening
  try dsimp only
  repeat' first
    | with_reducible assumption
    | with_reducible apply abortTrans_kept
    | with_reducible apply hfrun
    | with_reducible apply kept_ite

theorem returnValue_kept {ks : List Part} {r : State} (f : CanFrame) {r0 : Nat × List Byte × State} (h : Kept ks r r0.2.2) (hk : [.dict, .sat, .host, .logs, .can, .free] ⊆ ks := by first | assumption | exact sub_of (by assumption) (by decide)) : Kept ks r (returnValue f r0) := by
  unfold returnValue
  try dsimp only
  repeat' first
    | with_reducible assumption
    | exact sub_of hk (by decide)
    | with_reducible apply abortTrans_kept
    | with_reducible apply respond_kept
    | with_reducible apply openTrans_kept
    | with_reducible apply kept_ite

theorem execCanRead_kept {ks : List Part} {r out : State} (f : CanFrame) {s : State} (h : Kept ks r s) (he : execCanRead f s = .next out) (hk : [.dict, .sat, .host, .logs, .can, .free] ⊆ ks := by first | assumption | exact sub_of (by assumption) (by decide)) : Kept ks r out := by
  unfold execCanRead at he
  refine kept_next he ?_
  clear he
  try dsimp only
  repeat' first
    | with_reducible assumption
    | exact sub_of hk (by decide)
    | intro _
    | with_reducible apply onRequest_kept
    | with_reducible apply opening_kept
    | with_reducible apply returnValue_kept
    | with_reducible apply dictRead_kept

theorem execCanInfo_kept {ks : List Part} {r out : State} (f : CanFrame) {s : State} (h : Kept ks r s) (he : execCanInfo f s = .next out) (hk : [.dict, .sat, .host, .logs, .can, .free] ⊆ ks := by first | assumption | exact sub_of (by assumption) (by decide)) : Kept ks r out := by
  unfold execCanInfo at he
  refine kept_next he ?_
  clear he
  try dsimp only
  repeat' first
    | with_reducible assumption
    | exact sub_of hk (by decide)
    | intro _
    | with_reducible apply onRequest_kept
    | with_reducible apply opening_kept
    | with_reducible apply returnValue_kept
    | with_reducible apply dictInfo_kept

theorem applyWrite_kept {ks : List Part} {r : State} (tag : Nat) (ix : Nat) (sub : Nat) (data : List Byte) {s : State} (h : Kept ks r s) (hk : [.mem, .regs, .shadow, .dict, .blobs, .sat, .cat, .banks, .plates, .tiles, .units, .clients, .fabric, .rot, .arbs, .host, .logs, .start, .wearS, .can, .cur, .mail, .wear, .ledger, .served, .ports, .tick, .free] ⊆ ks := by first | assumption | exact sub_of (by assumption) (by decide)) : Kept ks r (applyWrite tag ix sub data s) := by
  unfold applyWrite
  try dsimp only
  repeat' first
    | with_reducible assumption
    | exact sub_of hk (by decide)
    | with_reducible apply dictWrite_kept
    | with_reducible apply abortTrans_kept
    | with_reducible apply respond_kept
    | with_reducible apply endTrans_kept
    | with_reducible apply kept_ite

theorem execCanWrite_kept {ks : List Part} {r out : State} (f : CanFrame) {s : State} (h : Kept ks r s) (he : execCanWrite f s = .next out) (hk : [.mem, .regs, .shadow, .dict, .blobs, .sat, .cat, .banks, .plates, .tiles, .units, .clients, .fabric, .rot, .arbs, .host, .logs, .start, .wearS, .can, .cur, .mail, .wear, .ledger, .served, .ports, .tick, .free] ⊆ ks := by first | assumption | exact sub_of (by assumption) (by decide)) : Kept ks r out := by
  unfold execCanWrite at he
  refine kept_next he ?_
  clear he
  try dsimp only
  repeat' first
    | with_reducible assumption
    | exact sub_of hk (by decide)
    | intro _
    | with_reducible apply onRequest_kept
    | with_reducible apply opening_kept
    | with_reducible apply abortTrans_kept
    | with_reducible apply applyWrite_kept
    | with_reducible apply kept_ite

theorem execCanWriteInit_kept {ks : List Part} {r out : State} (f : CanFrame) {s : State} (h : Kept ks r s) (he : execCanWriteInit f s = .next out) (hk : [.dict, .sat, .host, .logs, .can, .free] ⊆ ks := by first | assumption | exact sub_of (by assumption) (by decide)) : Kept ks r out := by
  unfold execCanWriteInit at he
  refine kept_next he ?_
  clear he
  try dsimp only
  repeat' first
    | with_reducible assumption
    | exact sub_of hk (by decide)
    | intro _
    | with_reducible apply onRequest_kept
    | with_reducible apply opening_kept
    | with_reducible apply abortTrans_kept
    | with_reducible apply respond_kept
    | with_reducible apply openTrans_kept
    | with_reducible apply kept_ite

theorem sendBlock_kept {ks : List Part} {r : State} (x : CanTx) {s : State} (h : Kept ks r s) (hk : [.dict, .can] ⊆ ks := by first | assumption | exact sub_of (by assumption) (by decide)) : Kept ks r (sendBlock x s) := by
  unfold sendBlock
  try dsimp only
  repeat' first
    | with_reducible assumption
    | exact sub_of hk (by decide)
    | intro _
    | with_reducible apply respond_kept
    | with_reducible apply setTrans_kept
    | with_reducible apply kept_foldl

theorem execCanBlockAck_kept {ks : List Part} {r out : State} (f : CanFrame) {s : State} (h : Kept ks r s) (he : execCanBlockAck f s = .next out) (hk : [.dict, .sat, .host, .logs, .can, .free] ⊆ ks := by first | assumption | exact sub_of (by assumption) (by decide)) : Kept ks r out := by
  unfold execCanBlockAck at he
  refine kept_next he ?_
  clear he
  try dsimp only
  repeat' first
    | with_reducible assumption
    | exact sub_of hk (by decide)
    | intro _
    | with_reducible apply onRequest_kept
    | with_reducible apply abortTrans_kept
    | with_reducible apply endTrans_kept
    | with_reducible apply sendBlock_kept
    | with_reducible apply kept_ite
    | split

theorem ackBlock_kept {ks : List Part} {r : State} (x : CanTx) {s : State} (h : Kept ks r s) (hk : [.dict, .can] ⊆ ks := by first | assumption | exact sub_of (by assumption) (by decide)) : Kept ks r (ackBlock x s) := by
  unfold ackBlock
  try dsimp only
  repeat' first
    | with_reducible assumption
    | exact sub_of hk (by decide)
    | with_reducible apply respond_kept
    | with_reducible apply setTrans_kept

theorem takeSegment_kept {ks : List Part} {r : State} (x : CanTx) (f : CanFrame) {s : State} (h : Kept ks r s) (hk : [.mem, .regs, .shadow, .dict, .blobs, .sat, .cat, .banks, .plates, .tiles, .units, .clients, .fabric, .rot, .arbs, .host, .logs, .start, .wearS, .can, .cur, .mail, .wear, .ledger, .served, .ports, .tick, .free] ⊆ ks := by first | assumption | exact sub_of (by assumption) (by decide)) : Kept ks r (takeSegment x f s) := by
  unfold takeSegment
  try dsimp only
  repeat' first
    | with_reducible assumption
    | exact sub_of hk (by decide)
    | with_reducible apply abortTrans_kept
    | with_reducible apply ackBlock_kept
    | with_reducible apply setTrans_kept
    | with_reducible apply applyWrite_kept
    | with_reducible apply kept_ite

theorem execCanSegment_kept {ks : List Part} {r out : State} (f : CanFrame) {s : State} (h : Kept ks r s) (he : execCanSegment f s = .next out) (hk : [.mem, .regs, .shadow, .dict, .blobs, .sat, .cat, .banks, .plates, .tiles, .units, .clients, .fabric, .rot, .arbs, .host, .logs, .start, .wearS, .can, .cur, .mail, .wear, .ledger, .served, .ports, .tick, .free] ⊆ ks := by first | assumption | exact sub_of (by assumption) (by decide)) : Kept ks r out := by
  unfold execCanSegment at he
  refine kept_next he ?_
  clear he
  try dsimp only
  repeat' first
    | with_reducible assumption
    | exact sub_of hk (by decide)
    | intro _
    | with_reducible apply onRequest_kept
    | with_reducible apply takeSegment_kept
    | with_reducible apply abortTrans_kept
    | with_reducible apply kept_ite
    | split

theorem execCanSegmentGapTimer_kept {ks : List Part} {r out : State} (peer : Nat) {s : State} (h : Kept ks r s) (he : execCanSegmentGapTimer peer s = .next out) (hk : [.dict, .can] ⊆ ks := by first | assumption | exact sub_of (by assumption) (by decide)) : Kept ks r out := by
  unfold execCanSegmentGapTimer at he
  refine kept_next he ?_
  clear he
  try dsimp only
  repeat' first
    | with_reducible assumption
    | with_reducible apply ackBlock_kept
    | with_reducible apply kept_ite
    | split

theorem execCanAbort_kept {ks : List Part} {r out : State} (f : CanFrame) {s : State} (h : Kept ks r s) (he : execCanAbort f s = .next out) (hk : [.dict, .sat, .host, .logs, .can, .free] ⊆ ks := by first | assumption | exact sub_of (by assumption) (by decide)) : Kept ks r out := by
  unfold execCanAbort at he
  refine kept_next he ?_
  clear he
  try dsimp only
  repeat' first
    | with_reducible assumption
    | exact sub_of hk (by decide)
    | intro _
    | with_reducible apply onRequest_kept
    | with_reducible apply countAbort_kept
    | with_reducible apply endTrans_kept

theorem execCanTimeout_kept {ks : List Part} {r out : State} (peer : Nat) {s : State} (h : Kept ks r s) (he : execCanTimeout peer s = .next out) (hk : [.dict, .sat, .host, .logs, .can, .free] ⊆ ks := by first | assumption | exact sub_of (by assumption) (by decide)) : Kept ks r out := by
  unfold execCanTimeout at he
  refine kept_next he ?_
  clear he
  try dsimp only
  repeat' first
    | with_reducible assumption
    | with_reducible apply abortTrans_kept
    | with_reducible apply kept_ite

theorem mirrorEvent_kept {ks : List Part} {r : State} (e : Event) {s : State} (h : Kept ks r s) (hk : [.dict, .can, .free] ⊆ ks := by first | assumption | exact sub_of (by assumption) (by decide)) : Kept ks r (mirrorEvent e s) := by
  unfold mirrorEvent
  try dsimp only
  repeat' first
    | with_reducible assumption
    | exact sub_of hk (by decide)
    | with_reducible apply openRecord_kept
    | with_reducible apply sendFrame_kept

theorem execCanEventMirror_kept {ks : List Part} {r out : State} {s : State} (h : Kept ks r s) (he : execCanEventMirror s = .next out) (hk : [.dict, .sat, .host, .logs, .can, .free] ⊆ ks := by first | assumption | exact sub_of (by assumption) (by decide)) : Kept ks r out := by
  unfold execCanEventMirror at he
  refine kept_next he ?_
  clear he
  try dsimp only
  repeat' first
    | with_reducible assumption
    | exact sub_of hk (by decide)
    | intro _
    | with_reducible apply bumpDict_kept
    | with_reducible apply mirrorEvent_kept
    | with_reducible apply kept_ite
    | with_reducible apply kept_foldl
    | split
    | with_reducible refine kept_mk ?_ (by constructor <;> intro hp <;> first | exact absurd (sub_mem hk (by decide)) hp | rfl) (by rfl) (by rfl)

theorem execHeartbeat_kept {ks : List Part} {r out : State} {s : State} (h : Kept ks r s) (he : execHeartbeat s = .next out) (hk : [.dict, .can] ⊆ ks := by first | assumption | exact sub_of (by assumption) (by decide)) : Kept ks r out := by
  unfold execHeartbeat at he
  refine kept_next he ?_
  clear he
  try dsimp only
  repeat' first
    | with_reducible assumption
    | with_reducible apply sendFrame_kept
    | with_reducible apply kept_ite
    | with_reducible refine kept_mk ?_ (by constructor <;> intro hp <;> first | exact absurd (sub_mem hk (by decide)) hp | rfl) (by rfl) (by rfl)

theorem execNodeIdListen_kept {ks : List Part} {r out : State} (seen : Bool) {s : State} (h : Kept ks r s) (he : execNodeIdListen seen s = .next out) (hk : [.dict, .can] ⊆ ks := by first | assumption | exact sub_of (by assumption) (by decide)) : Kept ks r out := by
  unfold execNodeIdListen at he
  refine kept_next he ?_
  clear he
  try dsimp only
  repeat' first
    | with_reducible assumption
    | exact sub_of hk (by decide)
    | with_reducible apply setCanState_kept
    | with_reducible apply kept_ite
    | with_reducible refine kept_mk ?_ (by constructor <;> intro hp <;> first | exact absurd (sub_mem hk (by decide)) hp | rfl) (by rfl) (by rfl)

theorem execBusOffRecovery_kept {ks : List Part} {r out : State} {s : State} (h : Kept ks r s) (he : execBusOffRecovery s = .next out) (hk : [.dict, .sat, .host, .logs, .can] ⊆ ks := by first | assumption | exact sub_of (by assumption) (by decide)) : Kept ks r out := by
  unfold execBusOffRecovery at he
  refine kept_next he ?_
  clear he
  try dsimp only
  repeat' first
    | with_reducible assumption
    | exact sub_of hk (by decide)
    | with_reducible apply bumpDictW_kept
    | with_reducible apply setCanState_kept
    | with_reducible apply kept_ite
    | with_reducible refine kept_mk ?_ (by constructor <;> intro hp <;> first | exact absurd (sub_mem hk (by decide)) hp | rfl) (by rfl) (by rfl)

theorem execCanBusError_kept {ks : List Part} {r out : State} (tx : Bool) (n : Nat) {s : State} (h : Kept ks r s) (he : execCanBusError tx n s = .next out) (hk : [.dict, .can] ⊆ ks := by first | assumption | exact sub_of (by assumption) (by decide)) : Kept ks r out := by
  unfold execCanBusError at he
  refine kept_next he ?_
  clear he
  try dsimp only
  repeat' first
    | with_reducible assumption
    | exact sub_of hk (by decide)
    | with_reducible apply errorState_kept
    | with_reducible apply kept_ite
    | split
    | with_reducible refine kept_mk ?_ (by constructor <;> intro hp <;> first | exact absurd (sub_mem hk (by decide)) hp | rfl) (by rfl) (by rfl)

end Sys2Proof.Machine
end

