-- ==== Sys2Proof/Laws/KeptClients.lean ====
section
/-! SUPPORT. What the operations of Machine/Clients.lean keep (Laws/Kept.lean). -/

set_option Elab.async false

namespace Sys2Proof.Machine

theorem execSliceDue_kept {ks : List Part} {r out : State} {s : State} (h : Kept ks r s) (he : execSliceDue s = .next out) (hk : [.rot] ⊆ ks := by first | assumption | exact sub_of (by assumption) (by decide)) : Kept ks r out := by
  unfold execSliceDue at he
  refine kept_next he ?_
  clear he
  try dsimp only
  repeat' first
    | with_reducible assumption
    | with_reducible apply kept_ite
    | with_reducible refine kept_mk ?_ (by constructor <;> intro hp <;> first | exact absurd (sub_mem hk (by decide)) hp | rfl) (by rfl) (by rfl)

theorem moveWord_kept {ks : List Part} {r : State} (src : Nat) (dst : Nat) {s : State} (h : Kept ks r s) (hk : [.mem] ⊆ ks := by first | assumption | exact sub_of (by assumption) (by decide)) : Kept ks r (moveWord src dst s) := by
  unfold moveWord
  try dsimp only
  repeat' first
    | with_reducible assumption
    | with_reducible apply poisonWord_kept
    | with_reducible apply writeWord_kept
    | with_reducible apply kept_ite

theorem bringWord_kept {ks : List Part} {r : State} (c : Nat) (d : Nat) (src : Nat) (dst : Nat) {s : State} (h : Kept ks r s) (hk : [.mem, .clients, .host, .logs] ⊆ ks := by first | assumption | exact sub_of (by assumption) (by decide)) : Kept ks r (bringWord c d src dst s) := by
  unfold bringWord
  try dsimp only
  repeat' first
    | with_reducible assumption
    | exact sub_of hk (by decide)
    | with_reducible apply moveWord_kept
    | with_reducible apply postUncorr_kept
    | with_reducible apply kept_ite

theorem saveLines_kept {ks : List Part} {r : State} (cl : Client) (d : Nat) (ls : List Nat) {s : State} (h : Kept ks r s) (hk : [.mem] ⊆ ks := by first | assumption | exact sub_of (by assumption) (by decide)) : Kept ks r (saveLines cl d ls s) := by
  unfold saveLines
  try dsimp only
  repeat' first
    | with_reducible assumption
    | intro _
    | with_reducible apply moveWord_kept
    | with_reducible apply kept_foldl

theorem ownLine_kept {ks : List Part} {r s1 : State} (k : Kept ks r s1) (hk : [.mem, .clients, .host, .logs] ⊆ ks)
    (a b : Nat) : Kept ks r { s1 with mem := { s1.mem with owner := mset 0 s1.mem.owner a b } } :=
  kept_mk_mem k (by constructor <;> intro hp <;> first | exact absurd (sub_mem hk (by decide)) hp | rfl) (fun hm => Memory.wf_owner hm (mwf_mset _ _ (Memory.owner_wf hm))) rfl rfl

theorem bringLines_kept {ks : List Part} {r : State} (c : Nat) (cl : Client) (d : Nat) (ls : List Nat) {s : State} (h : Kept ks r s) (hk : [.mem, .clients, .host, .logs] ⊆ ks := by first | assumption | exact sub_of (by assumption) (by decide)) :
    Kept ks r (bringLines c cl d ls s) := by
  unfold bringLines
  refine kept_foldl h fun s0 l hs => ?_
  exact ownLine_kept (kept_foldl (l := List.range 8) hs fun s i hx => bringWord_kept c d _ _ hx) hk _ _

theorem saveDie_kept {ks : List Part} {r : State} (c : Nat) (d : Nat) {s : State} (h : Kept ks r s) (hk : [.mem, .regs, .sat, .cat, .plates, .tiles, .units, .rot, .host, .logs, .ledger] ⊆ ks := by first | assumption | exact sub_of (by assumption) (by decide)) : Kept ks r (saveDie c d s) := by
  unfold saveDie
  try dsimp only
  repeat' first
    | with_reducible assumption
    | exact sub_of hk (by decide)
    | with_reducible apply freshDie_kept
    | with_reducible apply saveLines_kept
    | with_reducible apply bumpLedger_kept
    | with_reducible refine kept_mk ?_ (by constructor <;> intro hp <;> first | exact absurd (sub_mem hk (by decide)) hp | rfl) (by rfl) (by rfl)

theorem bringDie_kept {ks : List Part} {r : State} (c : Nat) (d : Nat) {s : State} (h : Kept ks r s) (hk : [.mem, .regs, .sat, .cat, .plates, .tiles, .units, .clients, .rot, .host, .logs, .ledger] ⊆ ks := by first | assumption | exact sub_of (by assumption) (by decide)) : Kept ks r (bringDie c d s) := by
  unfold bringDie
  try dsimp only
  repeat' first
    | with_reducible assumption
    | exact sub_of hk (by decide)
    | intro _
    | with_reducible apply bringLines_kept
    | with_reducible apply freshDie_kept
    | with_reducible apply bumpLedger_kept
    | with_reducible apply setReg_kept
    | with_reducible apply kept_foldl
    | with_reducible refine kept_mk ?_ (by constructor <;> intro hp <;> first | exact absurd (sub_mem hk (by decide)) hp | rfl) (by rfl) (by rfl)

theorem stopClient_kept {ks : List Part} {r : State} (c : Nat) {s : State} (h : Kept ks r s) (hk : [.clients, .rot] ⊆ ks := by first | assumption | exact sub_of (by assumption) (by decide)) : Kept ks r (stopClient c s) := by
  unfold stopClient
  try dsimp only
  repeat' first
    | with_reducible assumption
    | exact sub_of hk (by decide)
    | with_reducible apply setClientState_kept
    | with_reducible apply kept_ite
    | with_reducible refine kept_mk ?_ (by constructor <;> intro hp <;> first | exact absurd (sub_mem hk (by decide)) hp | rfl) (by rfl) (by rfl)

theorem saveClient_kept {ks : List Part} {r : State} (c : Nat) {s : State} (h : Kept ks r s) (hk : [.mem, .regs, .sat, .cat, .plates, .tiles, .units, .clients, .rot, .host, .logs, .ledger] ⊆ ks := by first | assumption | exact sub_of (by assumption) (by decide)) : Kept ks r (saveClient c s) := by
  unfold saveClient
  try dsimp only
  repeat' first
    | with_reducible assumption
    | exact sub_of hk (by decide)
    | intro _
    | with_reducible apply bumpLedger_kept
    | with_reducible apply saveDie_kept
    | with_reducible apply setClientState_kept
    | with_reducible apply kept_ite
    | with_reducible apply kept_foldl
    | with_reducible refine kept_mk ?_ (by constructor <;> intro hp <;> first | exact absurd (sub_mem hk (by decide)) hp | rfl) (by rfl) (by rfl)

theorem execSwitchOut_kept {ks : List Part} {r out : State} {s : State} (h : Kept ks r s) (he : execSwitchOut s = .next out) (hk : [.mem, .regs, .sat, .cat, .plates, .tiles, .units, .clients, .rot, .host, .logs, .ledger] ⊆ ks := by first | assumption | exact sub_of (by assumption) (by decide)) : Kept ks r out := by
  unfold execSwitchOut at he
  refine kept_next he ?_
  clear he
  try dsimp only
  repeat' first
    | with_reducible assumption
    | exact sub_of hk (by decide)
    | intro _
    | with_reducible apply stopClient_kept
    | with_reducible apply saveClient_kept
    | with_reducible apply kept_ite
    | with_reducible apply kept_foldl
    | with_reducible refine kept_mk ?_ (by constructor <;> intro hp <;> first | exact absurd (sub_mem hk (by decide)) hp | rfl) (by rfl) (by rfl)

theorem bringClient_kept {ks : List Part} {r : State} (start : Nat) (c : Nat) {s : State} (h : Kept ks r s) (hk : [.mem, .regs, .dict, .sat, .cat, .plates, .tiles, .units, .clients, .rot, .host, .logs, .ledger] ⊆ ks := by first | assumption | exact sub_of (by assumption) (by decide)) : Kept ks r (bringClient start c s) := by
  unfold bringClient
  try dsimp only
  repeat' first
    | with_reducible assumption
    | exact sub_of hk (by decide)
    | intro _
    | with_reducible apply bringDie_kept
    | with_reducible apply updStep_kept
    | with_reducible apply updRun_kept
    | with_reducible apply bumpDict_kept
    | with_reducible apply setClientState_kept
    | with_reducible apply setClient_kept
    | with_reducible apply kept_ite
    | with_reducible apply kept_foldl
    | split
    | with_reducible refine kept_mk ?_ (by constructor <;> intro hp <;> first | exact absurd (sub_mem hk (by decide)) hp | rfl) (by rfl) (by rfl)

theorem execSwitchIn_kept {ks : List Part} {r out : State} {s : State} (h : Kept ks r s) (he : execSwitchIn s = .next out) (hk : [.mem, .regs, .dict, .sat, .cat, .plates, .tiles, .units, .clients, .rot, .host, .logs, .ledger] ⊆ ks := by first | assumption | exact sub_of (by assumption) (by decide)) : Kept ks r out := by
  unfold execSwitchIn at he
  refine kept_next he ?_
  clear he
  try dsimp only
  repeat' first
    | with_reducible assumption
    | exact sub_of hk (by decide)
    | intro _
    | with_reducible apply bringClient_kept
    | with_reducible apply setDict_kept
    | with_reducible apply bumpDict_kept
    | with_reducible apply kept_ite
    | with_reducible apply kept_foldl
    | split
    | with_reducible refine kept_mk ?_ (by constructor <;> intro hp <;> first | exact absurd (sub_mem hk (by decide)) hp | rfl) (by rfl) (by rfl)

theorem execLongCommand_kept {ks : List Part} {r out : State} (e : Eng) {s : State} (h : Kept ks r s) (he : execLongCommand e s = .next out) (hk : [.dict, .sat, .rot, .host, .logs] ⊆ ks := by first | assumption | exact sub_of (by assumption) (by decide)) : Kept ks r out := by
  unfold execLongCommand at he
  refine kept_next he ?_
  clear he
  try dsimp only
  repeat' first
    | with_reducible assumption
    | exact sub_of hk (by decide)
    | with_reducible apply post_kept
    | with_reducible apply bumpDict_kept
    | with_reducible apply kept_ite
    | with_reducible refine kept_mk ?_ (by constructor <;> intro hp <;> first | exact absurd (sub_mem hk (by decide)) hp | rfl) (by rfl) (by rfl)

theorem setArb_kept {ks : List Part} {r : State} (res : Nat) (d : Nat) (a : Arb) {s : State} (h : Kept ks r s) (hk : [.sat, .arbs, .host, .logs] ⊆ ks := by first | assumption | exact sub_of (by assumption) (by decide)) : Kept ks r (setArb res d a s) := by
  unfold setArb
  try dsimp only
  repeat' first
    | with_reducible assumption
    | exact sub_of hk (by decide)
    | with_reducible apply stickDict_kept
    | with_reducible apply kept_ite
    | with_reducible refine kept_mk ?_ (by constructor <;> intro hp <;> first | exact absurd (sub_mem hk (by decide)) hp | rfl) (by rfl) (by rfl)

theorem execArbiterGrant_kept {ks : List Part} {r out : State} (res : Nat) (d : DieId) (reqs : List ArbReq) {s : State} (h : Kept ks r s) (he : execArbiterGrant res d reqs s = .next out) (hk : [.sat, .arbs, .host, .logs] ⊆ ks := by first | assumption | exact sub_of (by assumption) (by decide)) : Kept ks r out := by
  unfold execArbiterGrant at he
  refine kept_next he ?_
  clear he
  try dsimp only
  repeat' first
    | with_reducible assumption
    | with_reducible apply setArb_kept
    | with_reducible apply kept_ite

theorem execGrantWithdraw_kept {ks : List Part} {r out : State} (res : Nat) (d : DieId) (code : Nat) {s : State} (h : Kept ks r s) (he : execGrantWithdraw res d code s = .next out) (hk : [.sat, .arbs, .host, .logs] ⊆ ks := by first | assumption | exact sub_of (by assumption) (by decide)) : Kept ks r out := by
  unfold execGrantWithdraw at he
  refine kept_next he ?_
  clear he
  try dsimp only
  repeat' first
    | with_reducible assumption
    | with_reducible apply setArb_kept
    | with_reducible apply kept_ite

end Sys2Proof.Machine
end

