-- ==== Sys2Proof/Laws/KeptCurator.lean ====
section
/-! SUPPORT. What the operations of Machine/Curator.lean keep (Laws/Kept.lean). -/

set_option Elab.async false

namespace Sys2Proof.Machine

theorem curLines_kept {ks : List Part} {r : State} (ls : List String) {s : State} (h : Kept ks r s) (hk : [.cur] ⊆ ks := by first | assumption | exact sub_of (by assumption) (by decide)) : Kept ks r (curLines ls s) := by
  unfold curLines
  try dsimp only
  repeat' first
    | with_reducible assumption
    | intro _
    | with_reducible apply curSay_kept
    | with_reducible apply kept_foldl

theorem curErr_kept {ks : List Part} {r : State} (code : Nat) {s : State} (h : Kept ks r s) (hk : [.cur] ⊆ ks := by first | assumption | exact sub_of (by assumption) (by decide)) : Kept ks r (curErr code s) := by
  unfold curErr
  try dsimp only
  repeat' first
    | with_reducible assumption
    | with_reducible apply curReply_kept

theorem setLevel_kept {ks : List Part} {r : State} (n : Nat) {s : State} (h : Kept ks r s) (hk : [.dict] ⊆ ks := by first | assumption | exact sub_of (by assumption) (by decide)) : Kept ks r (setLevel n s) := by
  unfold setLevel
  try dsimp only
  repeat' first
    | with_reducible assumption
    | with_reducible apply setDict_kept

theorem onLine_kept {ks : List Part} {r : State} (level : Nat) {run : State → State} {s : State} (h : Kept ks r s) (hfrun : ∀ s, Kept ks r s → Kept ks r (run s)) (hk : [.cur] ⊆ ks := by first | assumption | exact sub_of (by assumption) (by decide)) : Kept ks r (onLine level run s) := by
  unfold onLine
  try dsimp only
  repeat' first
    | with_reducible assumption
    | with_reducible apply curErr_kept
    | with_reducible apply hfrun
    | with_reducible apply kept_ite
    | with_reducible refine kept_mk ?_ (by constructor <;> intro hp <;> first | exact absurd (sub_mem hk (by decide)) hp | rfl) (by rfl) (by rfl)

theorem curAfter_kept {ks : List Part} {r : State} (l : String) {s : State} (h : Kept ks r s) (hk : [.cur] ⊆ ks := by first | assumption | exact sub_of (by assumption) (by decide)) : Kept ks r (curAfter l s) := by
  unfold curAfter
  try dsimp only
  repeat' first
    | with_reducible assumption
    | with_reducible apply curReply_kept
    | with_reducible apply kept_ite

theorem readText_kept {ks : List Part} {r : State} (ix : Nat) (sub : Nat) {s : State} (h : Kept ks r s) (hk : [.free] ⊆ ks := by first | assumption | exact sub_of (by assumption) (by decide)) : Kept ks r (readText ix sub s).2.2 := by
  unfold readText
  try dsimp only
  repeat' first
    | with_reducible assumption
    | with_reducible apply dictRead_kept
    | split

theorem execCurHelp_kept {ks : List Part} {r out : State} {s : State} (h : Kept ks r s) (he : execCurHelp s = .next out) (hk : [.cur] ⊆ ks := by first | assumption | exact sub_of (by assumption) (by decide)) : Kept ks r out := by
  unfold execCurHelp at he
  refine kept_next he ?_
  clear he
  try dsimp only
  repeat' first
    | with_reducible assumption
    | intro _
    | with_reducible apply onLine_kept
    | with_reducible apply curReply_kept

theorem execCurId_kept {ks : List Part} {r out : State} {s : State} (h : Kept ks r s) (he : execCurId s = .next out) (hk : [.cur] ⊆ ks := by first | assumption | exact sub_of (by assumption) (by decide)) : Kept ks r out := by
  unfold execCurId at he
  refine kept_next he ?_
  clear he
  try dsimp only
  repeat' first
    | with_reducible assumption
    | exact sub_of hk (by decide)
    | intro _
    | with_reducible apply onLine_kept
    | with_reducible apply curReply_kept

theorem execCurStage_kept {ks : List Part} {r out : State} {s : State} (h : Kept ks r s) (he : execCurStage s = .next out) (hk : [.cur] ⊆ ks := by first | assumption | exact sub_of (by assumption) (by decide)) : Kept ks r out := by
  unfold execCurStage at he
  refine kept_next he ?_
  clear he
  try dsimp only
  repeat' first
    | with_reducible assumption
    | exact sub_of hk (by decide)
    | intro _
    | with_reducible apply onLine_kept
    | with_reducible apply curReply_kept

theorem execCurGet_kept {ks : List Part} {r out : State} (ix : Nat) (sub : Nat) {s : State} (h : Kept ks r s) (he : execCurGet ix sub s = .next out) (hk : [.cur, .free] ⊆ ks := by first | assumption | exact sub_of (by assumption) (by decide)) : Kept ks r out := by
  unfold execCurGet at he
  refine kept_next he ?_
  clear he
  try dsimp only
  repeat' first
    | with_reducible assumption
    | exact sub_of hk (by decide)
    | intro _
    | with_reducible apply onLine_kept
    | with_reducible apply readText_kept
    | with_reducible apply curLines_kept

theorem execCurDump_kept {ks : List Part} {r out : State} (ix : Nat) {s : State} (h : Kept ks r s) (he : execCurDump ix s = .next out) (hk : [.cur, .free] ⊆ ks := by first | assumption | exact sub_of (by assumption) (by decide)) : Kept ks r out := by
  unfold execCurDump at he
  refine kept_next he ?_
  clear he
  try dsimp only
  repeat' first
    | with_reducible assumption
    | exact sub_of hk (by decide)
    | intro _
    | with_reducible apply onLine_kept
    | with_reducible apply curErr_kept
    | with_reducible apply readText_kept
    | with_reducible apply curLines_kept
    | with_reducible apply kept_ite
    | with_reducible apply kept_foldl_snd

theorem execCurInfo_kept {ks : List Part} {r out : State} (ix : Nat) (sub : Nat) {s : State} (h : Kept ks r s) (he : execCurInfo ix sub s = .next out) (hk : [.cur, .free] ⊆ ks := by first | assumption | exact sub_of (by assumption) (by decide)) : Kept ks r out := by
  unfold execCurInfo at he
  refine kept_next he ?_
  clear he
  try dsimp only
  repeat' first
    | with_reducible assumption
    | exact sub_of hk (by decide)
    | intro _
    | with_reducible apply onLine_kept
    | with_reducible apply dictInfo_kept
    | with_reducible apply curErr_kept
    | with_reducible apply curLines_kept
    | with_reducible apply kept_ite

theorem execCurEvents_kept {ks : List Part} {r out : State} (n : Nat) {s : State} (h : Kept ks r s) (he : execCurEvents n s = .next out) (hk : [.cur, .free] ⊆ ks := by first | assumption | exact sub_of (by assumption) (by decide)) : Kept ks r out := by
  unfold execCurEvents at he
  refine kept_next he ?_
  clear he
  try dsimp only
  repeat' first
    | with_reducible assumption
    | exact sub_of hk (by decide)
    | intro _
    | with_reducible apply onLine_kept
    | with_reducible apply curErr_kept
    | with_reducible apply logBytes_kept
    | with_reducible apply curLines_kept
    | with_reducible apply kept_ite

theorem execCurUnlock_kept {ks : List Part} {r out : State} (level : Nat) {s : State} (h : Kept ks r s) (he : execCurUnlock level s = .next out) (hk : [.cur, .free] ⊆ ks := by first | assumption | exact sub_of (by assumption) (by decide)) : Kept ks r out := by
  unfold execCurUnlock at he
  refine kept_next he ?_
  clear he
  try dsimp only
  repeat' first
    | with_reducible assumption
    | exact sub_of hk (by decide)
    | intro _
    | with_reducible apply onLine_kept
    | with_reducible apply curErr_kept
    | with_reducible apply fresh_kept
    | with_reducible apply curReply_kept
    | with_reducible apply kept_ite
    | with_reducible refine kept_mk ?_ (by constructor <;> intro hp <;> first | exact absurd (sub_mem hk (by decide)) hp | rfl) (by rfl) (by rfl)

theorem wrongAnswer_kept {ks : List Part} {r : State} {s : State} (h : Kept ks r s) (hk : [.dict, .sat, .host, .logs, .cur] ⊆ ks := by first | assumption | exact sub_of (by assumption) (by decide)) : Kept ks r (wrongAnswer s) := by
  unfold wrongAnswer
  try dsimp only
  repeat' first
    | with_reducible assumption
    | exact sub_of hk (by decide)
    | with_reducible apply curErr_kept
    | with_reducible apply bumpDictW_kept
    | split
    | with_reducible refine kept_mk ?_ (by constructor <;> intro hp <;> first | exact absurd (sub_mem hk (by decide)) hp | rfl) (by rfl) (by rfl)

theorem execCurResp_kept {ks : List Part} {r out : State} (data : List Byte) {s : State} (h : Kept ks r s) (he : execCurResp data s = .next out) (hk : [.dict, .sat, .host, .logs, .cur] ⊆ ks := by first | assumption | exact sub_of (by assumption) (by decide)) : Kept ks r out := by
  unfold execCurResp at he
  refine kept_next he ?_
  clear he
  try dsimp only
  repeat' first
    | with_reducible assumption
    | exact sub_of hk (by decide)
    | intro _
    | with_reducible apply onLine_kept
    | with_reducible apply curErr_kept
    | with_reducible apply curReply_kept
    | with_reducible apply setLevel_kept
    | with_reducible apply wrongAnswer_kept
    | with_reducible apply kept_ite
    | split
    | with_reducible refine kept_mk ?_ (by constructor <;> intro hp <;> first | exact absurd (sub_mem hk (by decide)) hp | rfl) (by rfl) (by rfl)

theorem execCurLock_kept {ks : List Part} {r out : State} {s : State} (h : Kept ks r s) (he : execCurLock s = .next out) (hk : [.dict, .cur] ⊆ ks := by first | assumption | exact sub_of (by assumption) (by decide)) : Kept ks r out := by
  unfold execCurLock at he
  refine kept_next he ?_
  clear he
  try dsimp only
  repeat' first
    | with_reducible assumption
    | exact sub_of hk (by decide)
    | intro _
    | with_reducible apply onLine_kept
    | with_reducible apply curReply_kept
    | with_reducible apply setLevel_kept

theorem execCurIdleTimeout_kept {ks : List Part} {r out : State} {s : State} (h : Kept ks r s) (he : execCurIdleTimeout s = .next out) (hk : [.dict] ⊆ ks := by first | assumption | exact sub_of (by assumption) (by decide)) : Kept ks r out := by
  unfold execCurIdleTimeout at he
  refine kept_next he ?_
  clear he
  try dsimp only
  repeat' first
    | with_reducible assumption
    | with_reducible apply setLevel_kept

theorem execCurBaudRevert_kept {ks : List Part} {r out : State} {s : State} (h : Kept ks r s) (he : execCurBaudRevert s = .next out) (hk : [.dict, .cur] ⊆ ks := by first | assumption | exact sub_of (by assumption) (by decide)) : Kept ks r out := by
  unfold execCurBaudRevert at he
  refine kept_next he ?_
  clear he
  try dsimp only
  repeat' first
    | with_reducible assumption
    | exact sub_of hk (by decide)
    | with_reducible apply setDict_kept
    | split
    | with_reducible refine kept_mk ?_ (by constructor <;> intro hp <;> first | exact absurd (sub_mem hk (by decide)) hp | rfl) (by rfl) (by rfl)

theorem execCurSet_kept {ks : List Part} {r out : State} (ix : Nat) (sub : Nat) (data : List Byte) {s : State} (h : Kept ks r s) (he : execCurSet ix sub data s = .next out) (hk : [.mem, .regs, .shadow, .dict, .blobs, .sat, .cat, .banks, .plates, .tiles, .units, .clients, .fabric, .rot, .arbs, .host, .logs, .start, .wearS, .can, .cur, .mail, .wear, .ledger, .served, .ports, .tick] ⊆ ks := by first | assumption | exact sub_of (by assumption) (by decide)) : Kept ks r out := by
  unfold execCurSet at he
  refine kept_next he ?_
  clear he
  try dsimp only
  repeat' first
    | with_reducible assumption
    | exact sub_of hk (by decide)
    | intro _
    | with_reducible apply onLine_kept
    | with_reducible apply dictWrite_kept
    | with_reducible apply curAfter_kept

theorem execCurResetCold_kept {ks : List Part} {r out : State} {s : State} (h : Kept ks r s) (he : execCurResetCold s = .next out) (hk : [.mem, .regs, .shadow, .dict, .blobs, .sat, .cat, .banks, .plates, .tiles, .units, .clients, .fabric, .rot, .arbs, .host, .logs, .start, .wearS, .can, .cur, .mail, .wear, .ledger, .served, .ports, .tick] ⊆ ks := by first | assumption | exact sub_of (by assumption) (by decide)) : Kept ks r out := by
  unfold execCurResetCold at he
  refine kept_next he ?_
  clear he
  try dsimp only
  repeat' first
    | with_reducible assumption
    | exact sub_of hk (by decide)
    | intro _
    | with_reducible apply onLine_kept
    | with_reducible apply curAfter_kept
    | with_reducible apply coldReset_kept

theorem execCurResetCore_kept {ks : List Part} {r out : State} (d : DieId) (core : Fin 4) {s : State} (h : Kept ks r s) (he : execCurResetCore d core s = .next out) (hk : [.dict, .sat, .cat, .plates, .tiles, .units, .clients, .fabric, .host, .logs, .start, .wearS, .cur, .free] ⊆ ks := by first | assumption | exact sub_of (by assumption) (by decide)) : Kept ks r out := by
  unfold execCurResetCore at he
  refine kept_next he ?_
  clear he
  try dsimp only
  repeat' first
    | with_reducible assumption
    | exact sub_of hk (by decide)
    | intro _
    | with_reducible apply onLine_kept
    | with_reducible apply curAfter_kept
    | with_reducible apply askReset_kept
    | with_reducible apply coreReset_kept

theorem execCurFuse_kept {ks : List Part} {r out : State} (e : Nat) (code : Nat) {s : State} (h : Kept ks r s) (he : execCurFuse e code s = .next out) (hk : [.dict, .cur, .free] ⊆ ks := by first | assumption | exact sub_of (by assumption) (by decide)) : Kept ks r out := by
  unfold execCurFuse at he
  refine kept_next he ?_
  clear he
  try dsimp only
  repeat' first
    | with_reducible assumption
    | exact sub_of hk (by decide)
    | intro _
    | with_reducible apply onLine_kept
    | with_reducible apply curErr_kept
    | with_reducible apply fresh_kept
    | with_reducible apply curReply_kept
    | with_reducible apply setDict_kept
    | with_reducible apply kept_ite
    | split
    | with_reducible refine kept_mk ?_ (by constructor <;> intro hp <;> first | exact absurd (sub_mem hk (by decide)) hp | rfl) (by rfl) (by rfl)

end Sys2Proof.Machine
end

