-- ==== Sys2Proof/Laws/KeptDeadlock.lean ====
section
/-! SUPPORT. What the operations of Machine/Deadlock.lean keep (Laws/Kept.lean). -/

set_option Elab.async false

namespace Sys2Proof.Machine

theorem execStreamWatchdogFire_kept {ks : List Part} {r out : State} (d : DieId) (c : ClientId) {s : State} (h : Kept ks r s) (he : execStreamWatchdogFire d c s = .next out) (hk : [.regs, .dict, .sat, .tiles, .clients, .host, .logs] ⊆ ks := by first | assumption | exact sub_of (by assumption) (by decide)) : Kept ks r out := by
  unfold execStreamWatchdogFire at he
  refine kept_next he ?_
  clear he
  try dsimp only
  repeat' first
    | with_reducible assumption
    | exact sub_of hk (by decide)
    | intro _
    | with_reducible apply markFault_kept
    | with_reducible apply setBit_kept
    | with_reducible apply raiseFault_kept
    | with_reducible apply bumpDict_kept
    | with_reducible apply kept_ite
    | with_reducible apply kept_foldl

end Sys2Proof.Machine
end

