-- ==== Sys2Proof/Laws/KeptJtag.lean ====
section
/-! SUPPORT. What the operations of Machine/Jtag.lean keep (Laws/Kept.lean). -/

set_option Elab.async false

namespace Sys2Proof.Machine

theorem setJtag_kept {ks : List Part} {r : State} (d : DieId) (x : Jtag) {s : State} (h : Kept ks r s) (hk : [.start] ⊆ ks := by first | assumption | exact sub_of (by assumption) (by decide)) : Kept ks r (setJtag d x s) := by
  unfold setJtag
  try dsimp only
  repeat' first
    | with_reducible assumption
    | with_reducible refine kept_mk ?_ (by constructor <;> intro hp <;> first | exact absurd (sub_mem hk (by decide)) hp | rfl) (by rfl) (by rfl)

theorem takePins_kept {ks : List Part} {r : State} (d : DieId) (x : Jtag) {s : State} (h : Kept ks r s) (hk : [.start] ⊆ ks := by first | assumption | exact sub_of (by assumption) (by decide)) : Kept ks r (takePins d x s) := by
  unfold takePins
  try dsimp only
  repeat' first
    | with_reducible assumption
    | with_reducible apply setJtag_kept
    | with_reducible apply kept_ite

theorem execExtest_kept {ks : List Part} {r out : State} (d : DieId) (bits : List Bool) {s : State} (h : Kept ks r s) (he : execExtest d bits s = .next out) (hk : [.start] ⊆ ks := by first | assumption | exact sub_of (by assumption) (by decide)) : Kept ks r out := by
  unfold execExtest at he
  refine kept_next he ?_
  clear he
  try dsimp only
  repeat' first
    | with_reducible assumption
    | with_reducible apply takePins_kept

theorem execIdcode_kept {ks : List Part} {r out : State} (d : DieId) {s : State} (h : Kept ks r s) (he : execIdcode d s = .next out) (hk : [.start] ⊆ ks := by first | assumption | exact sub_of (by assumption) (by decide)) : Kept ks r out := by
  unfold execIdcode at he
  refine kept_next he ?_
  clear he
  try dsimp only
  repeat' first
    | with_reducible assumption
    | with_reducible apply setJtag_kept

theorem execSamplePreload_kept {ks : List Part} {r out : State} (d : DieId) (bits : List Bool) {s : State} (h : Kept ks r s) (he : execSamplePreload d bits s = .next out) (hk : [.start] ⊆ ks := by first | assumption | exact sub_of (by assumption) (by decide)) : Kept ks r out := by
  unfold execSamplePreload at he
  refine kept_next he ?_
  clear he
  try dsimp only
  repeat' first
    | with_reducible assumption
    | with_reducible apply setJtag_kept

theorem execClamp_kept {ks : List Part} {r out : State} (d : DieId) {s : State} (h : Kept ks r s) (he : execClamp d s = .next out) (hk : [.start] ⊆ ks := by first | assumption | exact sub_of (by assumption) (by decide)) : Kept ks r out := by
  unfold execClamp at he
  refine kept_next he ?_
  clear he
  try dsimp only
  repeat' first
    | with_reducible assumption
    | with_reducible apply takePins_kept

theorem execHighz_kept {ks : List Part} {r out : State} (d : DieId) {s : State} (h : Kept ks r s) (he : execHighz d s = .next out) (hk : [.start] ⊆ ks := by first | assumption | exact sub_of (by assumption) (by decide)) : Kept ks r out := by
  unfold execHighz at he
  refine kept_next he ?_
  clear he
  try dsimp only
  repeat' first
    | with_reducible assumption
    | with_reducible apply takePins_kept

theorem execBypass_kept {ks : List Part} {r out : State} (d : DieId) {s : State} (h : Kept ks r s) (he : execBypass d s = .next out) (hk : [.start] ⊆ ks := by first | assumption | exact sub_of (by assumption) (by decide)) : Kept ks r out := by
  unfold execBypass at he
  refine kept_next he ?_
  clear he
  try dsimp only
  repeat' first
    | with_reducible assumption
    | with_reducible apply setJtag_kept

theorem execTapReset_kept {ks : List Part} {r out : State} (d : DieId) {s : State} (h : Kept ks r s) (he : execTapReset d s = .next out) (hk : [.start] ⊆ ks := by first | assumption | exact sub_of (by assumption) (by decide)) : Kept ks r out := by
  unfold execTapReset at he
  refine kept_next he ?_
  clear he
  try dsimp only
  repeat' first
    | with_reducible assumption
    | with_reducible apply setJtag_kept

end Sys2Proof.Machine
end

