-- ==== Sys2Proof/Laws/KeptLoad.lean ====
section
/-! SUPPORT. What the operations of Machine/Load.lean keep (Laws/Kept.lean). -/

set_option Elab.async false

namespace Sys2Proof.Machine

theorem readSections_kept {ks : List Part} {r : State} (c : Nat) (k : LoadCmd) {s : State} (h : Kept ks r s) (hk : [.mem, .regs, .dict, .sat, .banks, .clients, .host, .logs, .wear, .ledger, .served] ⊆ ks := by first | assumption | exact sub_of (by assumption) (by decide)) : Kept ks r (readSections c k s).2.2 := by
  unfold readSections
  try dsimp only
  repeat' first
    | with_reducible assumption
    | intro _
    | with_reducible apply readBuf_kept
    | with_reducible apply kept_foldl_snd3

theorem readGov_kept {ks : List Part} {r : State} (c : Nat) (g : Nat) {s : State} (h : Kept ks r s) (hk : [.mem, .regs, .dict, .sat, .banks, .clients, .host, .logs, .wear, .ledger, .served] ⊆ ks := by first | assumption | exact sub_of (by assumption) (by decide)) : Kept ks r (readGov c g s).2 := by
  unfold readGov
  try dsimp only
  repeat' first
    | with_reducible assumption
    | with_reducible apply readBuf_kept

theorem applyRec_kept {ks : List Part} {r : State} (c : Nat) (r0 : CatRec) {acc : Option Nat × State} (h : Kept ks r acc.2) (hk : [.mem, .dict, .sat, .cat, .plates, .clients, .host, .logs] ⊆ ks := by first | assumption | exact sub_of (by assumption) (by decide)) : Kept ks r (applyRec c r0 acc).2 := by
  unfold applyRec
  try dsimp only
  repeat' first
    | with_reducible assumption
    | intro _
    | with_reducible apply catWrite_kept
    | with_reducible apply kept_foldl_snd
    | with_reducible refine kept_snd (by assumption) ?_
    | split

theorem applyRecs_kept {ks : List Part} {r : State} (c : Nat) (l : List CatRec) {s : State} (h : Kept ks r s) (hk : [.mem, .dict, .sat, .cat, .plates, .clients, .host, .logs] ⊆ ks := by first | assumption | exact sub_of (by assumption) (by decide)) : Kept ks r (applyRecs c l s).2 := by
  unfold applyRecs
  try dsimp only
  repeat' first
    | with_reducible assumption
    | intro _
    | with_reducible apply applyRec_kept
    | with_reducible apply kept_foldl_snd
    | split

theorem initGov_kept {ks : List Part} {r : State} (c : Nat) (g : Nat) {s : State} (h : Kept ks r s) (hk : [.mem, .regs, .dict, .sat, .banks, .clients, .host, .logs, .wear, .ledger, .served] ⊆ ks := by first | assumption | exact sub_of (by assumption) (by decide)) : Kept ks r (initGov c g s) := by
  unfold initGov
  try dsimp only
  repeat' first
    | with_reducible assumption
    | exact sub_of hk (by decide)
    | intro _
    | with_reducible apply setLayerState_kept
    | with_reducible apply setReg_kept
    | with_reducible apply kept_foldl

theorem uncachePlates_kept {ks : List Part} {r : State} (c : Nat) {s : State} (h : Kept ks r s) (hk : [.plates] ⊆ ks := by first | assumption | exact sub_of (by assumption) (by decide)) : Kept ks r (uncachePlates c s) := by
  unfold uncachePlates
  try dsimp only
  repeat' first
    | with_reducible assumption
    | with_reducible refine kept_mk ?_ (by constructor <;> intro hp <;> first | exact absurd (sub_mem hk (by decide)) hp | rfl) (by rfl) (by rfl)

theorem loadImage_kept {ks : List Part} {r : State} (h0 : HostCmd) (c : Nat) (k : LoadCmd) (im : Image) {s : State} (h : Kept ks r s) (hk : [.mem, .regs, .dict, .sat, .cat, .banks, .plates, .clients, .host, .logs, .wear, .ledger, .served] ⊆ ks := by first | assumption | exact sub_of (by assumption) (by decide)) : Kept ks r (loadImage h0 c k im s) := by
  unfold loadImage
  try dsimp only
  repeat' first
    | with_reducible assumption
    | exact sub_of hk (by decide)
    | with_reducible apply readGov_kept
    | with_reducible apply applyRecs_kept
    | with_reducible apply cmdDone_kept
    | with_reducible apply setClient_kept
    | with_reducible apply uncachePlates_kept
    | with_reducible apply initGov_kept
    | with_reducible refine kept_snd (by assumption) ?_
    | split

theorem loadPlates_kept {ks : List Part} {r : State} (h0 : HostCmd) {s : State} (h : Kept ks r s) (hk : [.mem, .regs, .dict, .sat, .cat, .banks, .plates, .clients, .host, .logs, .wear, .ledger, .served] ⊆ ks := by first | assumption | exact sub_of (by assumption) (by decide)) : Kept ks r (loadPlates h0 s) := by
  unfold loadPlates
  try dsimp only
  repeat' first
    | with_reducible assumption
    | exact sub_of hk (by decide)
    | with_reducible apply cmdDone_kept
    | with_reducible apply readSections_kept
    | with_reducible apply loadImage_kept
    | with_reducible apply kept_ite

theorem execLoadPlates_kept {ks : List Part} {r out : State} (q : Nat) {s : State} (h : Kept ks r s) (he : execLoadPlates q s = .next out) (hk : [.mem, .regs, .dict, .sat, .cat, .banks, .plates, .clients, .host, .logs, .wear, .ledger, .served] ⊆ ks := by first | assumption | exact sub_of (by assumption) (by decide)) : Kept ks r out := by
  unfold execLoadPlates at he
  refine kept_next he ?_
  clear he
  try dsimp only
  repeat' first
    | with_reducible assumption
    | exact sub_of hk (by decide)
    | intro _
    | with_reducible apply withHost_kept
    | with_reducible apply loadPlates_kept

end Sys2Proof.Machine
end

