-- ==== Sys2Proof/Laws/KeptMailbox.lean ====
section
/-! SUPPORT. What the operations of Machine/Mailbox.lean keep (Laws/Kept.lean). -/

set_option Elab.async false

namespace Sys2Proof.Machine

theorem mbDone_kept {ks : List Part} {r : State} (code : Nat) (len : Nat) {s : State} (h : Kept ks r s) (hk : [.regs] ⊆ ks := by first | assumption | exact sub_of (by assumption) (by decide)) : Kept ks r (mbDone code len s) := by
  unfold mbDone
  try dsimp only
  repeat' first
    | with_reducible assumption
    | with_reducible apply setReg_kept
    | with_reducible apply kept_ite

theorem mbPlace_kept {ks : List Part} {r : State} (o : Nat) (bs : List Byte) {s : State} (h : Kept ks r s) (hk : [.mail] ⊆ ks := by first | assumption | exact sub_of (by assumption) (by decide)) : Kept ks r (mbPlace o bs s) := by
  unfold mbPlace
  try dsimp only
  repeat' first
    | with_reducible assumption
    | with_reducible refine kept_mk ?_ (by constructor <;> intro hp <;> first | exact absurd (sub_mem hk (by decide)) hp | rfl) (by rfl) (by rfl)

theorem mbRead_kept {ks : List Part} {r : State} {r0 : Nat × List Byte × State} (h : Kept ks r r0.2.2) (hk : [.regs, .mail] ⊆ ks := by first | assumption | exact sub_of (by assumption) (by decide)) : Kept ks r (mbRead r0) := by
  unfold mbRead
  try dsimp only
  repeat' first
    | with_reducible assumption
    | exact sub_of hk (by decide)
    | with_reducible apply mbDone_kept
    | with_reducible apply mbPlace_kept
    | with_reducible apply kept_ite

theorem mbServe_kept {ks : List Part} {r : State} (w : Word) {s : State} (h : Kept ks r s) (hk : [.mem, .regs, .shadow, .dict, .blobs, .sat, .cat, .banks, .plates, .tiles, .units, .clients, .fabric, .rot, .arbs, .host, .logs, .start, .wearS, .can, .cur, .mail, .wear, .ledger, .served, .ports, .tick, .free] ⊆ ks := by first | assumption | exact sub_of (by assumption) (by decide)) : Kept ks r (mbServe w s) := by
  unfold mbServe
  try dsimp only
  repeat' first
    | with_reducible assumption
    | exact sub_of hk (by decide)
    | with_reducible apply mbRead_kept
    | with_reducible apply dictInfo_kept
    | with_reducible apply dictRead_kept
    | with_reducible apply mbDone_kept
    | with_reducible apply dictWrite_kept
    | with_reducible apply kept_ite

theorem mbForward_kept {ks : List Part} {r : State} (w : Word) {s : State} (h : Kept ks r s) (hk : [.regs, .fabric, .mail, .free] ⊆ ks := by first | assumption | exact sub_of (by assumption) (by decide)) : Kept ks r (mbForward w s) := by
  unfold mbForward
  try dsimp only
  repeat' first
    | with_reducible assumption
    | exact sub_of hk (by decide)
    | with_reducible apply fresh_kept
    | with_reducible apply addPacket_kept
    | with_reducible apply setReg_kept
    | with_reducible refine kept_mk ?_ (by constructor <;> intro hp <;> first | exact absurd (sub_mem hk (by decide)) hp | rfl) (by rfl) (by rfl)

theorem execMailboxGo_kept {ks : List Part} {r out : State} {s : State} (h : Kept ks r s) (he : execMailboxGo s = .next out) (hk : [.mem, .regs, .shadow, .dict, .blobs, .sat, .cat, .banks, .plates, .tiles, .units, .clients, .fabric, .rot, .arbs, .host, .logs, .start, .wearS, .can, .cur, .mail, .wear, .ledger, .served, .ports, .tick, .free] ⊆ ks := by first | assumption | exact sub_of (by assumption) (by decide)) : Kept ks r out := by
  unfold execMailboxGo at he
  refine kept_next he ?_
  clear he
  try dsimp only
  repeat' first
    | with_reducible assumption
    | exact sub_of hk (by decide)
    | with_reducible apply mbServe_kept
    | with_reducible apply mbDone_kept
    | with_reducible apply mbForward_kept
    | with_reducible apply kept_ite

theorem execMailboxRemoteTimeout_kept {ks : List Part} {r out : State} {s : State} (h : Kept ks r s) (he : execMailboxRemoteTimeout s = .next out) (hk : [.regs, .mail] ⊆ ks := by first | assumption | exact sub_of (by assumption) (by decide)) : Kept ks r out := by
  unfold execMailboxRemoteTimeout at he
  refine kept_next he ?_
  clear he
  try dsimp only
  repeat' first
    | with_reducible assumption
    | exact sub_of hk (by decide)
    | with_reducible apply mbDone_kept
    | with_reducible apply kept_ite
    | with_reducible refine kept_mk ?_ (by constructor <;> intro hp <;> first | exact absurd (sub_mem hk (by decide)) hp | rfl) (by rfl) (by rfl)

end Sys2Proof.Machine
end

