-- ==== Sys2Proof/Laws/Drains.lean ====
section
/-! SUPPORT. Reading the entries of a drain, and the lanes that take them (R77, R80, R94). -/

set_option Elab.async false

namespace Sys2Proof.Machine

theorem readCol_spec (t : TileId) (cl : Nat) (d : DrainJob) (e : Nat) (us : List Upset) (r : List AccEntry × State) (c : Nat) :
    let b := getBank (getArr r.2 t) d.bank
    let q := readCol t cl d e us r c
    let x := upsetEntry d.bank c e us (getAcc b c e)
    q.1 = r.1 ++ [x] ∧
    getTile q.2 t = { getTile r.2 t with
      arr := setBank (getArr r.2 t) d.bank (setAcc b c e (if specClr d.spec = true ∧ ¬ d.auto = true then {} else x)) } ∧
    (∀ v : TileId, v ≠ t → getTile q.2 v = getTile r.2 v) ∧ Only (.tiles :: .clients :: accountParts) r.2 q.2 := by
  intro b q x
  show _ ∧ _
  have hq : q = (let p := readAcc t cl d.bank c e us (getAcc b c e) r.2
      (r.1 ++ [p.1], setArr t (setBank (getArr p.2 t) d.bank (setAcc (getBank (getArr p.2 t) d.bank) c e
        (if specClr d.spec = true ∧ ¬ d.auto = true then {} else p.1))) p.2)) := rfl
  obtain ⟨r1, r2⟩ := readAcc_spec t cl d.bank c e us (getAcc b c e) r.2
  generalize readAcc t cl d.bank c e us (getAcc b c e) r.2 = p at r1 r2 hq
  obtain ⟨y, s1⟩ := p
  dsimp only at r1 r2 hq
  have ht : ∀ u, getTile s1 u = getTile r.2 u := fun u => getTile_congr (r2.tiles (by decide)) u
  have ha : getArr s1 t = getArr r.2 t := by unfold getArr; rw [ht]
  rw [r1, ha] at hq
  change q = (r.1 ++ [x], setArr t (setBank (getArr r.2 t) d.bank (setAcc b c e (if specClr d.spec = true ∧ ¬ d.auto = true then {} else x))) s1) at hq
  rw [hq]
  refine ⟨rfl, ?_, fun v hv => ?_, (r2.mono (by decide)).step (setArr_only _ _ _) (by decide)⟩
  · rw [getTile_setArr, if_pos rfl, ht]
  · rw [getTile_setArr, if_neg hv, ht]

/-- The bank y after columns below m of entry e have been read. -/
theorem readCols_spec (t : TileId) (cl : Nat) (d : DrainJob) (e : Nat) (us : List Upset) (s : State) : ∀ m : Nat,
    let b := getBank (getArr s t) d.bank
    let q := (List.range m).foldl (readCol t cl d e us) ([], s)
    q.1 = (List.range m).map (fun c => upsetEntry d.bank c e us (getAcc b c e)) ∧
    (∃ y : Bank, getTile q.2 t = { getTile s t with arr := setBank (getArr s t) d.bank y } ∧ y.record = b.record ∧ y.ufl = b.ufl ∧
      (∀ c, c < m → getAcc y c e = if specClr d.spec = true ∧ ¬ d.auto = true then {} else upsetEntry d.bank c e us (getAcc b c e)) ∧
      (∀ key, (∀ c, c < m → key ≠ c * 256 + e) → mget {} y.ents key = mget {} b.ents key)) ∧
    (∀ v : TileId, v ≠ t → getTile q.2 v = getTile s v) ∧ Only (.tiles :: .clients :: accountParts) s q.2 := by
  intro m b
  induction m with
  | zero =>
    refine ⟨rfl, ⟨b, ?_, rfl, rfl, fun c h => by omega, fun key _ => rfl⟩, fun v _ => rfl, Only.rfl' _⟩
    show getTile s t = { getTile s t with arr := setBank (getArr s t) d.bank (getBank (getArr s t) d.bank) }
    unfold setBank getBank getArr
    split <;> rfl
  | succ m ih =>
    intro q
    have hq : q = readCol t cl d e us ((List.range m).foldl (readCol t cl d e us) ([], s)) m := by
      show List.foldl _ _ (List.range (m + 1)) = _
      rw [List.range_succ, List.foldl_append]; rfl
    dsimp only at ih
    generalize (List.range m).foldl (readCol t cl d e us) ([], s) = p at ih hq
    obtain ⟨i1, ⟨y, i2, i3, i4, i5, i6⟩, i7, i8⟩ := ih
    obtain ⟨c1, c2, c3, c4⟩ := readCol_spec t cl d e us p m
    rw [← hq] at c1 c2 c3 c4
    clear_value q
    have ha : getArr p.2 t = setBank (getArr s t) d.bank y := by unfold getArr; rw [i2]; rfl
    rw [ha, getBank_setBank] at c1 c2
    have hm : getAcc y m e = getAcc b m e := i6 _ fun c hc => by omega
    rw [hm] at c1 c2
    refine ⟨?_, ⟨setAcc y m e (if specClr d.spec = true ∧ ¬ d.auto = true then {} else upsetEntry d.bank m e us (getAcc b m e)), ?_, i3, i4, fun c hc => ?_, fun key hk => ?_⟩,
      fun v hv => (c3 v hv).trans (i7 v hv), i8.trans c4⟩
    · rw [c1, i1, List.range_succ, List.map_append]; rfl
    · rw [c2, setBank_setBank, i2]
    · unfold getAcc
      rw [getAcc_setAcc]
      by_cases h : c = m
      · subst h; rw [if_pos rfl]
      · rw [if_neg (by omega)]; exact i5 c (by omega)
    · rw [getAcc_setAcc, if_neg (hk m (by omega))]
      exact i6 key fun c hc => hk c (by omega)

theorem readEntries_spec (t : TileId) (cl : Nat) (d : DrainJob) (cols : Nat) (us : List Upset) (s : State) : ∀ k : Nat, k ≤ 256 →
    let b := getBank (getArr s t) d.bank
    let f := d.first + d.done
    let q := readEntries t cl d cols k us s
    q.1 = (List.range k).map (fun i => (List.range cols).map fun c => upsetEntry d.bank c (f + i) us (getAcc b c (f + i))) ∧
    (∃ y : Bank, getTile q.2 t = { getTile s t with arr := setBank (getArr s t) d.bank y } ∧ y.record = b.record ∧ y.ufl = b.ufl ∧
      (∀ i c, i < k → c < cols → getAcc y c (f + i) = if specClr d.spec = true ∧ ¬ d.auto = true then {} else upsetEntry d.bank c (f + i) us (getAcc b c (f + i))) ∧
      (∀ key, (∀ i c, i < k → c < cols → key ≠ c * 256 + (f + i)) → mget {} y.ents key = mget {} b.ents key)) ∧
    (∀ v : TileId, v ≠ t → getTile q.2 v = getTile s v) ∧ Only (.tiles :: .clients :: accountParts) s q.2 := by
  intro k hk b f
  induction k with
  | zero =>
    refine ⟨rfl, ⟨b, ?_, rfl, rfl, fun i c h => by omega, fun key _ => rfl⟩, fun v _ => rfl, Only.rfl' _⟩
    show getTile s t = { getTile s t with arr := setBank (getArr s t) d.bank (getBank (getArr s t) d.bank) }
    unfold setBank getBank getArr
    split <;> rfl
  | succ k ih =>
    intro q
    have hq : q = (let acc := readEntries t cl d cols k us s
        let (row, s1) := (List.range cols).foldl (readCol t cl d (f + k) us) ([], acc.2)
        (acc.1 ++ [row], s1)) := by
      show readEntries t cl d cols (k + 1) us s = _
      unfold readEntries
      rw [List.range_succ, List.foldl_append]; rfl
    have ih' := ih (by omega)
    dsimp only at ih' hq
    generalize readEntries t cl d cols k us s = p at ih' hq
    obtain ⟨i1, ⟨y, i2, i3, i4, i5, i6⟩, i7, i8⟩ := ih'
    obtain ⟨c1, ⟨z, c2, c3, c4, c5, c6⟩, c7, c8⟩ := readCols_spec t cl d (f + k) us p.2 cols
    generalize (List.range cols).foldl (readCol t cl d (f + k) us) ([], p.2) = w at hq c1 c2 c7 c8
    rw [hq]
    dsimp only
    have ha : getArr p.2 t = setBank (getArr s t) d.bank y := by unfold getArr; rw [i2]; rfl
    rw [ha, getBank_setBank] at c1 c3 c4 c5 c6
    rw [ha] at c2
    have hm : ∀ c, getAcc y c (f + k) = getAcc b c (f + k) := fun c => i6 _ fun i c' h h' => by omega
    simp only [hm] at c1 c5
    refine ⟨?_, ⟨z, ?_, c3.trans i3, c4.trans i4, fun i c hi hc => ?_, fun key hkey => ?_⟩,
      fun v hv => (c7 v hv).trans (i7 v hv), i8.trans c8⟩
    · rw [c1, i1, List.range_succ, List.map_append]; rfl
    · rw [c2, setBank_setBank, i2]
    · by_cases h : i = k
      · subst h; exact c5 c hc
      · rw [← i5 i c (by omega) hc]
        exact c6 _ fun c' hc' => by omega
    · rw [c6 key fun c hc => hkey k c (by omega) hc]
      exact i6 key fun i c hi hc => hkey i c (by omega) hc

theorem getTile_setVec (t u : TileId) (x : VecS) (s : State) :
    getTile (setVec t x s) u = if u = t then { getTile s t with vec := x } else getTile s u := by
  unfold setVec; rw [getTile_setTile]

theorem getLane_setLane (t u : TileId) (x : LaneS) (s : State) : getLane (setLane t x s) u = if u = t then x else getLane s u := by
  unfold getLane setLane
  rw [mget_mset]
  by_cases h : u = t
  · rw [if_pos h, if_pos (by rw [h])]
  · rw [if_neg h, if_neg (fun e => h (Fin.ext e))]

end Sys2Proof.Machine
end

