-- ==== Sys2Proof/Laws/HatchIssue.lean ====
section
/-! SUPPORT. Hatch and Counterproof commands that issue: the checks of R140, jobs that go to work, and the clearing of a statistics slot (R138 to R148). -/

set_option Elab.async false

namespace Sys2Proof.Machine

/-- An issued command of a die unit that goes to work: only its unit's state and accounts change after the issue. -/
theorem works_spec {e : Eng} {c : PCmd} {s : State} (hi : s.Issues e c) (v : Units) :
    let n := charge e 0x00 { s.issued e c with units := v }
    n.plates = (s.issued e c).plates ∧ findFlight n s.plates.nextId = some (s.flight e c) ∧ n.units = v ∧
    Only (.units :: .plates :: accountParts) s n := by
  intro n
  have k1 := only_units v (s.issued e c)
  have k2 := charge_only e 0x00 { s.issued e c with units := v }
  change Only _ _ n at k2
  have hu : n.units = v := k2.units (by decide)
  clear_value n
  have hp : n.plates = (s.issued e c).plates := by rw [k2.plates (by decide)]
  exact ⟨hp, by rw [findFlight_congr hp]; exact issued_findFlight hi, hu,
    (((issued_only s e c).mono (by decide)).step k1 (by decide)).step k2 (by decide)⟩

theorem foldl_setReg_zero (d slot : Nat) : ∀ (l : List Nat) (s : State) (a : Nat),
    getReg (l.foldl (fun s k => setReg (statBlk d slot (8 * (k + 1))) 0 s) s) a =
      if ∃ k ∈ l, a = statBlk d slot (8 * (k + 1)) then 0 else getReg s a := by
  intro l
  induction l with
  | nil => intro s a; simp
  | cons k l ih =>
    intro s a
    rw [List.foldl_cons, ih, getReg_setReg]
    by_cases h : a = statBlk d slot (8 * (k + 1))
    · simp [h]
    · simp [h]

theorem clearSlot_getReg (d slot : Nat) (s : State) :
    (∀ k, 1 ≤ k → k < 74 → getReg (clearSlot d slot s) (statBlk d slot (8 * k)) = 0) ∧
    getReg (clearSlot d slot s) (statBlk d slot 0) = setFld (getReg s (statBlk d slot 0)) 16 1 0 ∧
    Only [.regs] s (clearSlot d slot s) := by
  have hk : Only [.regs] s (clearSlot d slot s) := by
    unfold clearSlot
    exact (Only.foldl (fun s k => setReg_only _ _ _) _ _).step (setReg_only _ _ _) (by decide)
  refine ⟨fun k h1 h2 => ?_, ?_, hk⟩
  · unfold clearSlot
    dsimp only
    rw [getReg_setReg, if_neg (by unfold statBlk; omega), foldl_setReg_zero, if_pos ⟨k - 1, by simp; omega, by congr 1; omega⟩]
  · unfold clearSlot
    dsimp only
    rw [getReg_setReg, if_pos rfl, foldl_setReg_zero, if_neg]
    rintro ⟨k, -, h⟩
    unfold statBlk at h
    omega

theorem snap_end (d : DieId) (u : Fin 4) (slot : Nat) (hslot : slot < 2 ^ 10) (id : Nat) (clear seth : Bool) (hb : Nat) (y : State) :
    let z := if clear = true then clearSlot d.val slot y else y
    let x := if seth = true then setReg (statBlk d.val slot 0) (setFld (getReg z (statBlk d.val slot 0)) 0 16 hb) z else z
    let n := charge (.hatch d u) 0x00 (complete id x)
    (∀ k, 1 ≤ k → k < 74 → getReg n (statBlk d.val slot (8 * k)) = if clear = true then 0 else getReg y (statBlk d.val slot (8 * k))) ∧
    (getReg n (statBlk d.val slot 0) = let v := (if clear = true then setFld (getReg y (statBlk d.val slot 0)) 16 1 0
          else getReg y (statBlk d.val slot 0)); if seth = true then setFld v 0 16 hb else v) ∧
    Completed y n id ∧ Only (.plates :: accountParts) y n := by
  intro z x n
  have hz : ∀ k, 1 ≤ k → k < 74 → getReg z (statBlk d.val slot (8 * k)) = if clear = true then 0 else getReg y (statBlk d.val slot (8 * k)) := by
    intro k a b
    show getReg (if clear = true then _ else _) _ = _
    split
    · exact (clearSlot_getReg d.val slot y).1 k a b
    · rfl
  have hz0 : getReg z (statBlk d.val slot 0) = if clear = true then setFld (getReg y (statBlk d.val slot 0)) 16 1 0 else getReg y (statBlk d.val slot 0) := by
    show getReg (if clear = true then _ else _) _ = _
    split
    · exact (clearSlot_getReg d.val slot y).2.1
    · rfl
  have k1 : Only [.regs] y z := by
    show Only _ _ (if clear = true then _ else _)
    split
    · exact (clearSlot_getReg d.val slot y).2.2
    · exact Only.rfl' _
  have k2 : Only [.regs] z x := by
    show Only _ _ (if seth = true then _ else _)
    split
    · exact setReg_only _ _ _
    · exact Only.rfl' _
  have g2 : ∀ a, getReg x a = if a = statBlk d.val slot 0 then (if seth = true then setFld (getReg z (statBlk d.val slot 0)) 0 16 hb else getReg z (statBlk d.val slot 0)) else getReg z a := by
    intro a
    show getReg (if seth = true then _ else _) a = _
    cases seth
    · simp only [Bool.false_eq_true, if_false]
      split
      · rename_i h; rw [h]
      · rfl
    · simp only [if_true]
      rw [getReg_setReg]
  have k3 := complete_only id x
  have h3 := complete_completed id x
  have k4 := charge_only (.hatch d u) 0x00 (complete id x)
  have hq : ∀ o, o < 0x400 → getReg n (statBlk d.val slot o) = getReg x (statBlk d.val slot o) := by
    intro o ho
    show getReg (charge _ _ _) _ = _
    rw [charge_getReg, if_neg]
    · unfold getReg; rw [k3.regs (by decide)]
    · have hd := d.isLt
      have hu := u.isLt
      show ¬ (ctlBase d.val + 0x200000 + 0x400 * slot + o = ctlBase d.val + 0x100000 + 0x1000 * u.val + 0x800 + 8 * 0)
      omega
  clear_value z x
  refine ⟨fun k a b => ?_, ?_, ?_, ?_⟩
  · rw [hq _ (by omega), g2, if_neg (by unfold statBlk; omega), hz k a b]
  · rw [hq _ (by omega), g2, if_pos rfl, hz0]
  · exact (h3.congr (k4.plates (by decide))).from (by rw [k2.plates (by decide), k1.plates (by decide)]) (by rw [k2.clients (by decide), k1.clients (by decide)])
  · exact (((k1.mono (by decide)).step k2 (by decide)).step k3 (by decide)).step k4 (by decide)

theorem conv_bad (p1 p2 p3 l : Prop) [Decidable p1] [Decidable p2] [Decidable p3] [Decidable l] (g r1 r2 m rec o m1 m2 : Bool) :
    ((decide (¬ p1) || decide (¬ (p2 ∧ p3)) || !g || r1 || r2 || m || (rec && (!o || decide (¬ l) || m1 || m2))) = true) ↔
      ¬ (p1 ∧ p2 ∧ p3 ∧ g = true ∧ r1 = false ∧ r2 = false ∧ m = false ∧ (rec = true → o = true ∧ l ∧ m1 = false ∧ m2 = false)) := by
  simp only [Bool.or_eq_true, Bool.and_eq_true, decide_eq_true_eq, Bool.not_eq_true', not_and_or, Classical.not_imp, Bool.not_eq_true,
    Bool.not_eq_false, or_assoc]

theorem conv_reserved (cl sn dn bytes : Nat) (se de be : Entry) (sa da : Area) (x : Word) (g records : Bool) (bspan : List (Nat × Nat)) :
    ((decide (sa.rows = 0) || decide (sa.cols = 0 ∨ 65536 < sa.cols) || !g ||
        srcReserved cl se sa || dstReserved cl de da x || spansMeet (areaSpans sn se sa) (areaSpans dn de da) ||
        (records && (!be.ownedBy cl || decide (be.len < bytes) || spansMeet bspan (areaSpans sn se sa) ||
          spansMeet bspan (areaSpans dn de da)))) = true) ↔
      ¬ (1 ≤ sa.rows ∧ 1 ≤ sa.cols ∧ sa.cols ≤ 65536 ∧ g = true ∧
        srcReserved cl se sa = false ∧ dstReserved cl de da x = false ∧
        spansMeet (areaSpans sn se sa) (areaSpans dn de da) = false ∧
        (records = true → be.ownedBy cl = true ∧ bytes ≤ be.len ∧ spansMeet bspan (areaSpans sn se sa) = false ∧
          spansMeet bspan (areaSpans dn de da) = false)) := by
  have e1 : sa.rows = 0 ↔ ¬ 1 ≤ sa.rows := by omega
  have e2 : (sa.cols = 0 ∨ 65536 < sa.cols) ↔ ¬ (1 ≤ sa.cols ∧ sa.cols ≤ 65536) := by omega
  have e3 : be.len < bytes ↔ ¬ bytes ≤ be.len := by omega
  simp only [e1, e2, e3]
  exact conv_bad _ _ _ _ _ _ _ _ _ _ _ _

theorem stat_reserved (cl : Nat) (se : Entry) (sa : Area) (o : Bool) :
    (sa.rows = 0 ∨ sa.cols = 0 ∨ 65536 < sa.cols ∨ srcReserved cl se sa = true ∨ ¬ o = true) ↔
      ¬ (1 ≤ sa.rows ∧ 1 ≤ sa.cols ∧ sa.cols ≤ 65536 ∧ srcReserved cl se sa = false ∧ o = true) := by
  simp only [← Bool.not_eq_true, show sa.rows = 0 ↔ ¬ 1 ≤ sa.rows by omega, show sa.cols = 0 ↔ ¬ 1 ≤ sa.cols by omega,
    show 65536 < sa.cols ↔ ¬ sa.cols ≤ 65536 by omega]
  tauto

theorem snap_reserved (len off : Nat) (o nocopy own : Bool) :
    (¬ o = true ∨ ((!nocopy) = true ∧ (¬ own = true ∨ off % 8 ≠ 0 ∨ len < off + 592))) ↔
      ¬ (o = true ∧ (nocopy = false → own = true ∧ off % 8 = 0 ∧ off + 592 ≤ len)) := by
  cases o <;> cases nocopy <;> cases own <;> simp
  omega

theorem cpt_reserved (cl r k : Nat) (se de : Entry) (sa da : Area) (x : Word) (g m : Bool) :
    (r = 0 ∨ 256 < r ∨ k = 0 ∨ 256 < k ∨ ¬ g = true ∨ srcReserved cl se sa = true ∨ dstReserved cl de da x = true ∨ m = true) ↔
      ¬ (1 ≤ r ∧ r ≤ 256 ∧ 1 ≤ k ∧ k ≤ 256 ∧ g = true ∧ srcReserved cl se sa = false ∧ dstReserved cl de da x = false ∧ m = false) := by
  simp only [← Bool.not_eq_true, show r = 0 ↔ ¬ 1 ≤ r by omega, show 256 < r ↔ ¬ r ≤ 256 by omega,
        show k = 0 ↔ ¬ 1 ≤ k by omega, show 256 < k ↔ ¬ k ≤ 256 by omega]
  tauto

end Sys2Proof.Machine
end

