-- ==== Sys2Proof/Laws/HatchWork.lean ====
section
/-! SUPPORT. How chunks, drained pairs and Counterproof lines are read, narrowed and written (R136 to R149). -/

set_option Elab.async false

namespace Sys2Proof.Machine

theorem SameBytes.of_same {s n : State} (h : SameStore s n) : SameBytes s n := fun a => h.peekByte a

theorem engBlk_stk (hatch : Bool) (d u o i : Nat) (hu : u < 4) (h : o < 0x1000) : stkBlk i 0 ≠ engBlk hatch d u + o := by
  unfold engBlk stkBlk hatchBlk cptBlk ctlBase
  split <;> omega

theorem readVals_same (hatch : Bool) (d u cl name : Nat) (e : Entry) (row c n : Nat) (m : Rat) (s : State) (hu : u < 4) :
    SameStore s (readVals hatch d u cl name e row c n m s).2.2 := by
  have hb : ∀ b y, SameStore y (setBit (engBlk hatch d u) b y) := fun b y => setBit_same _ _ _ fun i => engBlk_stk _ _ _ 0 _ hu (by decide)
  unfold readVals
  dsimp only
  have h1 := readBuf_same cl e (name / 4096) (e.rowOff e.fmtD row + c * elemBits e.fmtD.elem / 8) (cdiv (n * elemBits e.fmtD.elem) 8) s
  generalize readBuf cl e (name / 4096) (e.rowOff e.fmtD row + c * elemBits e.fmtD.elem / 8) (cdiv (n * elemBits e.fmtD.elem) 8) s = p at h1 ⊢
  have h2 := readBuf_same cl e (name / 4096) (e.scaleOff e.fmtD row (c / e.fmtD.blk)) (if elemWide e.fmtD.elem = true then 0 else cdiv n e.fmtD.blk) p.2
  generalize readBuf cl e (name / 4096) (e.scaleOff e.fmtD row (c / e.fmtD.blk)) (if elemWide e.fmtD.elem = true then 0 else cdiv n e.fmtD.blk) p.2 = q at h2 ⊢
  have h3 := h1.trans h2
  have h4 : SameStore s (if anyPoison p.1 = true ∨ anyPoison q.1 = true then setBit (engBlk hatch d u) 2 q.2 else q.2) := by
    split
    · exact h3.trans (hb _ _)
    · exact h3
  have h5 : ∀ (b : Bool) (y : State), SameStore s y → SameStore s (if b = true then setBit (engBlk hatch d u) 1 y else y) := by
    intro b y hy
    cases b
    · exact hy
    · exact hy.trans (hb _ _)
  simp only [Bool.or_eq_true] at h4 ⊢
  by_cases hc : readFixes s e (name / 4096) (e.rowOff e.fmtD row + c * elemBits e.fmtD.elem / 8) (cdiv (n * elemBits e.fmtD.elem) 8) = true ∨
      readFixes s e (name / 4096) (e.scaleOff e.fmtD row (c / e.fmtD.blk)) (if elemWide e.fmtD.elem = true then 0 else cdiv n e.fmtD.blk) = true
  · rw [if_pos hc]; exact h4.trans (hb _ _)
  · rw [if_neg hc]; exact h4

theorem writeRun_wrote (cl name : Nat) {e : Entry} (he : e.placed) (row c : Nat) (r : RowOut) (s : State) :
    WroteRun s (writeRun cl name e row c r s) name e row c r := by
  refine ⟨_, putBuf_wrote cl name he _ _ s, ?_⟩
  unfold writeRun
  dsimp only
  split
  · rfl
  · exact putBuf_wrote cl name he _ _ _

theorem getHatch_set (d u : Nat) (j : Option HJob) (s : State) : getHatch (setHatch d u j s) d u = j := by
  unfold getHatch setHatch; rw [mget_mset, if_pos rfl]

theorem getHatch_congr {s t : State} (h : t.units = s.units) (d u : Nat) : getHatch t d u = getHatch s d u := by
  unfold getHatch; rw [h]

theorem getCpt_congr {s t : State} (h : t.units = s.units) (d u : Nat) : getCpt t d u = getCpt s d u := by
  unfold getCpt; rw [h]

theorem getCpt_set (d u : Nat) (j : List CJob) (s : State) : getCpt (setCpt d u j s) d u = j := by
  unfold getCpt setCpt; rw [mget_mset, if_pos rfl]

theorem readVals_scopes (hatch : Bool) (d u cl name : Nat) (e : Entry) (row c n : Nat) (m : Rat) (s : State) :
    ScopesOnly s (readVals hatch d u cl name e row c n m s).2.2 := by
  have hb : ∀ b y, ScopesOnly y (setBit (engBlk hatch d u) b y) := fun b y => ScopesOnly.of_only (setBit_only _ _ _) (by decide)
  unfold readVals
  dsimp only
  have h1 := readBuf_scopes cl e (name / 4096) (e.rowOff e.fmtD row + c * elemBits e.fmtD.elem / 8) (cdiv (n * elemBits e.fmtD.elem) 8) s
  generalize readBuf cl e (name / 4096) (e.rowOff e.fmtD row + c * elemBits e.fmtD.elem / 8) (cdiv (n * elemBits e.fmtD.elem) 8) s = p at h1 ⊢
  have h2 := readBuf_scopes cl e (name / 4096) (e.scaleOff e.fmtD row (c / e.fmtD.blk)) (if elemWide e.fmtD.elem = true then 0 else cdiv n e.fmtD.blk) p.2
  generalize readBuf cl e (name / 4096) (e.scaleOff e.fmtD row (c / e.fmtD.blk)) (if elemWide e.fmtD.elem = true then 0 else cdiv n e.fmtD.blk) p.2 = q at h2 ⊢
  have h3 : ScopesOnly s (if (anyPoison p.1 || anyPoison q.1) = true then setBit (engBlk hatch d u) 2 q.2 else q.2) := by
    split
    · exact (h1.trans h2).trans (hb _ _)
    · exact h1.trans h2
  generalize (if (anyPoison p.1 || anyPoison q.1) = true then setBit (engBlk hatch d u) 2 q.2 else q.2) = z at h3 ⊢
  generalize (readFixes s e (name / 4096) _ _ || readFixes s e (name / 4096) _ _) = b
  cases b
  · exact h3
  · exact h3.trans (hb _ _)

theorem narrowAt_scopes {s t : State} (h : ScopesOnly s t) (cl : Nat) (e : Entry) (x : Dctx) (row c : Nat) (vals : List DVal) :
    narrowAt t cl e x row c vals = narrowAt s cl e x row c vals := by
  have h1 : seedOf t cl = seedOf s cl := by unfold seedOf; rw [h cl]
  have h2 : stepOf t cl = stepOf s cl := by unfold stepOf; rw [h cl]
  unfold narrowAt
  rw [h1, h2]

/-- The end of a chunk's command: the unit is free, and the command has completed. -/
theorem chunk_last (e : Eng) (d u : Nat) (id : Nat) {s0 y : State} (hp : y.plates = s0.plates) :
    let n := charge e 0x00 (complete id (setHatch d u none y))
    getHatch n d u = none ∧ Finished s0 n id ∧ n.mem = y.mem ∧ Only (.units :: .plates :: accountParts) y n := by
  intro n
  have k0 : Only [.units] y (setHatch d u none y) := only_units _ _
  have g0 := getHatch_set d u none y
  have k1 := complete_only id (setHatch d u none y)
  have h1 := complete_completed id (setHatch d u none y)
  have k2 := charge_only e 0x00 (complete id (setHatch d u none y))
  change Only _ _ n at k2
  clear_value n
  refine ⟨?_, ⟨_, ?_, h1.congr (k2.plates (by decide))⟩, ?_, ((k0.mono (by decide)).step k1 (by decide)).step k2 (by decide)⟩
  · rw [getHatch_congr (k2.units (by decide)), getHatch_congr (k1.units (by decide)), g0]
  · rw [k0.plates (by decide)]; exact hp
  · rw [k2.mem (by decide), k1.mem (by decide), k0.mem (by decide)]

theorem chunk_next (e : Eng) (d u : Nat) (j : HJob) {s0 y : State} (hp : y.plates = s0.plates) :
    let n := charge e 0x00 (setHatch d u (some j) y)
    getHatch n d u = some j ∧ n.plates = s0.plates ∧ n.mem = y.mem ∧ Only (.units :: accountParts) y n := by
  intro n
  have k0 : Only [.units] y (setHatch d u (some j) y) := only_units _ _
  have g0 := getHatch_set d u (some j) y
  have k2 := charge_only e 0x00 (setHatch d u (some j) y)
  change Only _ _ n at k2
  clear_value n
  refine ⟨?_, ?_, ?_, (k0.mono (by decide)).step k2 (by decide)⟩
  · rw [getHatch_congr (k2.units (by decide)), g0]
  · rw [k2.plates (by decide), k0.plates (by decide)]; exact hp
  · rw [k2.mem (by decide), k0.mem (by decide)]

/-- A chunk converted: the run written, the command past it. -/
theorem convertChunk_spec (d u cl : Nat) (j : HJob) (dn : Nat) {de : Entry} (hp : de.placed) (r c n nOut : Nat) (vals : List DVal) (s : State) :
    let q := convertChunk d u cl j dn de r c n nOut vals s
    (∃ m, WroteRun s m dn de ((hDst j.cmd).row + r) ((hDst j.cmd).col + c)
      (narrowAt s cl de ⟨j.cmd.w 4, j.cmd.w 5⟩ ((hDst j.cmd).row + r) ((hDst j.cmd).col + c) vals) ∧ (j.rcd = none → q.2.2.mem = m.mem)) ∧
    Only (.cat :: accessParts) s q.2.2 ∧
    q.1.id = j.id ∧ q.1.cmd = j.cmd ∧ q.1.src = j.src ∧ q.1.dst = j.dst ∧ q.1.rcd = j.rcd ∧ q.1.chunk = j.chunk + 1 := by
  refine ⟨⟨_, writeRun_wrote cl dn hp _ _ _ s, fun h => ?_⟩, (convertChunk_kept d u cl j dn de r c n nOut vals (Kept.rfl' s) (by decide)).only, rfl, rfl, rfl, rfl, rfl, rfl⟩
  unfold convertChunk putRecords
  dsimp only
  rw [h]
  generalize writeRun cl dn de ((hDst j.cmd).row + r) ((hDst j.cmd).col + c) _ s = y
  exact (engCount_kept true d u n _ (Kept.rfl' y) (ks := [.regs, .dict, .sat, .host, .logs]) (by decide)).only.mem (by decide)

theorem hatchChunk_exec (d : DieId) (u : Fin 4) (s : State) (j : HJob) (hj : getHatch s d.val u.val = some j) (hr : hatchReady s j = true)
    {r c n : Nat} {mult : Rat} {v : List DVal × Nat × State} {s2 : State} (h1 : r = j.chunk / cdiv (hSrc j.cmd).cols 512)
    (h2 : c = j.chunk % cdiv (hSrc j.cmd).cols 512 * 512) (h3 : n = min 512 ((hSrc j.cmd).cols - c))
    (h4 : mult = if j.cmd.opc = 1 then (f32 (BitVec.ofNat 32 (fld (j.cmd.w 3) 32 32))).toRat else 1)
    (h5 : v = readVals true d.val u.val (clientOn s d.val) j.src.1 j.src.2 ((hSrc j.cmd).row + r) ((hSrc j.cmd).col + c) n mult s)
    (h6 : s2 = consumerViol d.val j.src.2.stat v.2.1 v.2.2) :
    (j.dst = none → ∀ s3, s3 = engCount true d.val u.val n { measure v.1 with srcViols := v.2.1 } s2 →
      exec (.hatchChunk d u) s = .next (charge (.hatch d u) 0x00 (if j.chunk + 1 = cdiv (hSrc j.cmd).cols 512 * (hSrc j.cmd).rows then
        complete j.id (setHatch d.val u.val none (engFold true d.val u.val (fld (j.cmd.w 0) 12 10) (j.fold.add { measure v.1 with srcViols := v.2.1 }) s3))
      else setHatch d.val u.val (some { j with chunk := j.chunk + 1, fold := j.fold.add { measure v.1 with srcViols := v.2.1 } }) s3))) ∧
    (∀ dn de, j.dst = some (dn, de) → ∀ q, q = convertChunk d.val u.val (clientOn s d.val) j dn de r c n v.2.1 v.1 s2 →
      exec (.hatchChunk d u) s = .next (charge (.hatch d u) 0x00 (if j.chunk + 1 = cdiv (hSrc j.cmd).cols 512 * (hSrc j.cmd).rows then
          complete j.id (setHatch d.val u.val none (convertEnd d.val u.val (clientOn s d.val) de q.1 q.2.1 q.2.2))
        else setHatch d.val u.val (some q.1) q.2.2))) := by
  subst h1 h2 h3 h4 h5 h6
  refine ⟨fun hd s3 h => ?_, fun dn de hd q h => ?_⟩
  · subst h
    show execHatchChunk d u s = _
    unfold execHatchChunk
    dsimp only
    rw [hj]
    dsimp only
    rw [if_neg (by rw [hr]; simp), hd]
  · subst h
    show execHatchChunk d u s = _
    unfold execHatchChunk
    dsimp only
    rw [hj]
    dsimp only
    rw [if_neg (by rw [hr]; simp), hd]

theorem writeRun_scopes (cl name : Nat) (e : Entry) (row c : Nat) (r : RowOut) (s : State) : ScopesOnly s (writeRun cl name e row c r s) := by
  have hp : ∀ o bs y, ScopesOnly y (putBuf cl name e o bs y) := fun o bs y => by
    unfold putBuf
    refine (writeBuf_scopes cl e (name / 4096) o bs y).trans ?_
    unfold afterWrite
    exact foldl_scopes _ (fun s x => by split <;> exact ScopesOnly.of_eq rfl) _ _
  unfold writeRun
  dsimp only
  split
  · exact hp _ _ _
  · exact (hp _ _ _).trans (hp _ _ _)

theorem wroteRuns_from {name : Nat} {e : Entry} {c : Nat} {out : Nat → List DVal → RowOut} {rows : List (Nat × List DVal)} {s t n : State}
    (h : WroteRuns name e c out rows s n) (hm : s.mem = t.mem) : WroteRuns name e c out rows t n := by
  cases rows with
  | nil => exact Eq.trans h hm
  | cons r rs =>
    obtain ⟨y, m, h1, h2, h3⟩ := h
    exact ⟨y, m, h1.trans hm, h2, h3⟩

theorem wroteRuns_to {name : Nat} {e : Entry} {c : Nat} {out : Nat → List DVal → RowOut} {n k : State} (hm : k.mem = n.mem) :
    ∀ {rows : List (Nat × List DVal)} {s : State}, WroteRuns name e c out rows s n → WroteRuns name e c out rows s k := by
  intro rows
  induction rows with
  | nil => intro s h; exact hm.trans h
  | cons r rs ih =>
    intro s h
    obtain ⟨y, m, h1, h2, h3⟩ := h
    exact ⟨y, m, h1, h2, ih h3⟩

theorem pairRows_spec (d u cl : Nat) (p : DPair) (hp : p.ent.placed) (x : Dctx) (s0 : State) : ∀ (rows : List (Nat × List DVal)) (s : State) (f : Fold)
    (fl : Nat) (ws : Bool), ScopesOnly s0 s →
    let out (row : Nat) (vals : List DVal) : RowOut := narrowAt s0 cl p.ent x row p.col vals
    let q := rows.foldl (pairRow d u cl p x) (s, f, fl, ws)
    WroteRuns p.name p.ent p.col out rows s q.1 ∧ q.2.1 = (rows.map fun r => (out r.1 r.2).fold).foldl Fold.add f ∧
    Only (.cat :: accessParts) s q.1 := by
  intro rows
  induction rows with
  | nil => intro s f fl ws _; exact ⟨rfl, rfl, Only.rfl' _⟩
  | cons r rs ih =>
    intro s f fl ws hs out q
    obtain ⟨m, hm⟩ : ∃ m, m = writeRun cl p.name p.ent r.1 p.col (out r.1 r.2) s := ⟨_, rfl⟩
    obtain ⟨s1, hs1⟩ : ∃ s1, s1 = engCount true d u r.2.length (out r.1 r.2).fold m := ⟨_, rfl⟩
    have hn : narrowAt s cl p.ent x r.1 p.col r.2 = out r.1 r.2 := narrowAt_scopes hs _ _ _ _ _ _
    have hq : q = rs.foldl (pairRow d u cl p x) (s1, f.add (out r.1 r.2).fold, fl ||| runFlags s d p.ent.stat (out r.1 r.2), ws || (out r.1 r.2).wsat) := by
      show List.foldl _ _ _ = _
      rw [List.foldl_cons]
      congr 1
      unfold pairRow
      dsimp only
      rw [hn, hs1, hm]
    have k1 : Only [.regs, .dict, .sat, .host, .logs] m s1 := by
      rw [hs1]; exact (engCount_kept _ _ _ _ _ (Kept.rfl' m) (by decide)).only
    have w1 : WroteRun s m p.name p.ent r.1 p.col (out r.1 r.2) := by rw [hm]; exact writeRun_wrote _ _ hp _ _ _ _
    have k0 : Only (.cat :: accessParts) s m := by rw [hm]; exact (writeRun_kept _ _ _ _ _ _ (Kept.rfl' s) (by decide)).only
    have c0 : ScopesOnly s m := by rw [hm]; exact writeRun_scopes _ _ _ _ _ _ _
    clear hm hs1
    obtain ⟨i1, i2, i3⟩ := ih s1 (f.add (out r.1 r.2).fold) (fl ||| runFlags s d p.ent.stat (out r.1 r.2)) (ws || (out r.1 r.2).wsat)
      ((hs.trans c0).trans (ScopesOnly.of_only k1 (by decide)))
    rw [← hq] at i1 i2 i3
    exact ⟨⟨s, m, rfl, w1, wroteRuns_from i1 (k1.mem (by decide))⟩, i2, (k0.step k1 (by decide)).trans i3⟩

theorem getLane_congr {s t : State} (h : t.units = s.units) (v : TileId) : getLane t v = getLane s v := by
  unfold getLane; rw [h]

theorem drainDone_only' (t : TileId) (d : DrainJob) (s : State) : Only [.tiles, .plates] s (drainDone t d s) :=
  (drainDone_kept t d (Kept.rfl' s) (by decide)).only

theorem drainDone_tile (t v : TileId) (hv : v ≠ t) (d : DrainJob) (s : State) : getTile (drainDone t d s) v = getTile s v := by
  have h : ∀ x, getTile (setArr t x s) v = getTile s v := fun x => by rw [getTile_setArr, if_neg hv]
  have hc : ∀ id y, getTile (complete id y) v = getTile y v := fun id y => getTile_congr ((complete_only id y).tiles (by decide)) v
  have hb : ∀ id y, getTile (postBatch id y) v = getTile y v := fun id y =>
    getTile_congr ((postBatch_kept id (Kept.rfl' y) (ks := [.plates]) (by decide)).only.tiles (by decide)) v
  unfold drainDone
  dsimp only
  split
  · rw [hc, h]
  · split
    · exact h _
    · split
      · rw [hc, h]
      · split
        · rw [hb, h]
        · exact h _

theorem cptWrite_spec (d : DieId) (u : Fin 4) (cl : Nat) (s : State) (j : CJob) (rest : List CJob) (hj : getCpt s d.val u.val = j :: rest) :
    (j.lines.length < cptR j.cmd ∨ rowsReady s j.dst.1 j.dst.2 ((cptDst j.cmd).row + j.outs) 1 true = false → cptWrite d.val u.val cl s = none) ∧
    (cptR j.cmd ≤ j.lines.length → rowsReady s j.dst.1 j.dst.2 ((cptDst j.cmd).row + j.outs) 1 true = true → j.dst.2.placed → ∃ n m,
      cptWrite d.val u.val cl s = some n ∧
      WroteRun s m j.dst.1 j.dst.2 ((cptDst j.cmd).row + j.outs) (cptDst j.cmd).col (narrowAt s cl j.dst.2 ⟨j.cmd.w 3, j.cmd.w 4⟩ ((cptDst j.cmd).row + j.outs) (cptDst j.cmd).col
          (j.lines.map fun l => nth DVal.nan l j.outs)) ∧ n.mem = m.mem ∧
        (if j.outs + 1 = (cptDst j.cmd).rows then getCpt n d.val u.val = rest ∧ Finished s n j.id
          else ∃ k, getCpt n d.val u.val = k :: rest ∧ k.id = j.id ∧ k.cmd = j.cmd ∧ k.src = j.src ∧ k.dst = j.dst ∧
            k.lines = j.lines ∧ k.outs = j.outs + 1 ∧ n.plates = s.plates) ∧
        Only (.units :: .plates :: .cat :: accessParts) s n) := by
  refine ⟨fun h => ?_, fun h1 h2 hp => ?_⟩
  · unfold cptWrite
    rw [hj]
    dsimp only
    rw [if_pos]
    rcases h with h | h
    · exact .inl h
    · exact .inr (by rw [h]; simp)
  · obtain ⟨out, hout⟩ : ∃ out, out = narrowAt s cl j.dst.2 ⟨j.cmd.w 3, j.cmd.w 4⟩ ((cptDst j.cmd).row + j.outs) (cptDst j.cmd).col (j.lines.map fun l => nth DVal.nan l j.outs) := ⟨_, rfl⟩
    obtain ⟨m, hm⟩ : ∃ m, m = writeRun cl j.dst.1 j.dst.2 ((cptDst j.cmd).row + j.outs) (cptDst j.cmd).col out s := ⟨_, rfl⟩
    obtain ⟨s1, hs1⟩ : ∃ s1, s1 = engCount false d.val u.val 0 out.fold m := ⟨_, rfl⟩
    have hx : cptWrite d.val u.val cl s = if j.outs + 1 = (cptDst j.cmd).rows then
        some (complete j.id (producerFlags cl d.val j.dst.2.stat (j.flags ||| runFlags s1 d.val j.dst.2.stat out) { codes := [], blocks := [], fold := j.fold.add out.fold, wsat := false }
          (engFold false d.val u.val j.dst.2.stat (j.fold.add out.fold) (bumpDict (dkey 0x4020 0x04) 1 (bump (cptBlk d.val u.val 0) 0x008 1 (setCpt d.val u.val rest s1))))))
      else some (setCpt d.val u.val ({ j with outs := j.outs + 1, fold := j.fold.add out.fold, flags := j.flags ||| runFlags s1 d.val j.dst.2.stat out } :: rest) s1) := by
      unfold cptWrite
      rw [hj]
      dsimp only
      rw [if_neg (by rw [h2]; simp; omega), hs1, hm, hout]
    have k1 : Only [.regs, .dict, .sat, .host, .logs] m s1 := by
      rw [hs1]; exact (engCount_kept _ _ _ _ _ (Kept.rfl' m) (by decide)).only
    have w1 : WroteRun s m j.dst.1 j.dst.2 ((cptDst j.cmd).row + j.outs) (cptDst j.cmd).col out := by rw [hm]; exact writeRun_wrote _ _ hp _ _ _ _
    have k0 : Only (.cat :: accessParts) s m := by rw [hm]; exact (writeRun_kept _ _ _ _ _ _ (Kept.rfl' s) (by decide)).only
    rw [← hout]
    clear hm hs1 hout
    have k01 := k0.step k1 (by decide)
    by_cases hl : j.outs + 1 = (cptDst j.cmd).rows
    · rw [if_pos hl] at hx
      have k2 : Only [.units] s1 (setCpt d.val u.val rest s1) := only_units _ _
      have g2 := getCpt_set d.val u.val rest s1
      generalize setCpt d.val u.val rest s1 = s2 at hx k2 g2
      obtain ⟨y, hy⟩ : ∃ y, y = producerFlags cl d.val j.dst.2.stat (j.flags ||| runFlags s1 d.val j.dst.2.stat out) { codes := [], blocks := [], fold := j.fold.add out.fold, wsat := false }
          (engFold false d.val u.val j.dst.2.stat (j.fold.add out.fold) (bumpDict (dkey 0x4020 0x04) 1 (bump (cptBlk d.val u.val 0) 0x008 1 s2))) := ⟨_, rfl⟩
      rw [← hy] at hx
      have ky : Only [.regs, .dict, .sat, .clients, .host, .logs] s2 y := by
        rw [hy]
        exact (producerFlags_kept _ _ _ _ _ (engFold_kept _ _ _ _ _ (bumpDict_kept _ _ (bump_kept _ _ _ (Kept.rfl' s2) (by decide)) (by decide)) (by decide)) (by decide)).only
      clear hy
      have k5 := complete_only j.id y
      have h5 := complete_completed j.id y
      generalize complete j.id y = n at hx k5 h5
      refine ⟨n, m, hx, w1, ?_, (iff_of_eq (if_pos hl)).2 ⟨?_, ⟨y, ?_, h5⟩⟩, ((((k01.mono (by decide)).step k2 (by decide)).step ky (by decide)).step k5 (by decide))⟩
      · rw [k5.mem (by decide), ky.mem (by decide), k2.mem (by decide), k1.mem (by decide)]
      · rw [getCpt_congr (k5.units (by decide)), getCpt_congr (ky.units (by decide)), g2]
      · rw [ky.plates (by decide), k2.plates (by decide), k01.plates (by decide)]
    · rw [if_neg hl] at hx
      have k2 : Only [.units] s1 (setCpt d.val u.val ({ j with outs := j.outs + 1, fold := j.fold.add out.fold, flags := j.flags ||| runFlags s1 d.val j.dst.2.stat out } :: rest) s1) := only_units _ _
      refine ⟨_, m, hx, w1, ?_, (iff_of_eq (if_neg hl)).2 ⟨_, getCpt_set _ _ _ _, rfl, rfl, rfl, rfl, rfl, rfl, ?_⟩, (k01.mono (by decide)).step k2 (by decide)⟩
      · rw [k2.mem (by decide), k1.mem (by decide)]
      · rw [k2.plates (by decide), k01.plates (by decide)]

theorem cptLine_exec (d : DieId) (u : Fin 4) (s : State) (j : CJob) (rest : List CJob) (hj : getCpt s d.val u.val = j :: rest) :
    (∀ n, cptWrite d.val u.val (clientOn s d.val) s = some n →
      exec (.cptLine d u) s = .next (charge (.cpt d u) 0x00 ((cptRead d.val u.val (clientOn s d.val) n).getD n))) ∧
    (∀ n, cptWrite d.val u.val (clientOn s d.val) s = none → cptRead d.val u.val (clientOn s d.val) s = some n →
      exec (.cptLine d u) s = .next (charge (.cpt d u) 0x00 n)) ∧
    (cptWrite d.val u.val (clientOn s d.val) s = none → cptRead d.val u.val (clientOn s d.val) s = none →
      exec (.cptLine d u) s = .next (charge (.cpt d u) 0x0F s)) := by
  refine ⟨fun n h => ?_, fun n h1 h2 => ?_, fun h1 h2 => ?_⟩
  · show execCptLine d u s = _
    unfold execCptLine
    dsimp only
    rw [if_neg (by rw [hj]; simp), h]
  · show execCptLine d u s = _
    unfold execCptLine
    dsimp only
    rw [if_neg (by rw [hj]; simp), h1, h2]
  · show execCptLine d u s = _
    unfold execCptLine
    dsimp only
    rw [if_neg (by rw [hj]; simp), h1, h2]

theorem engCount_src_same (d u n : Nat) (hu : u < 4) (s : State) : SameStore s (engCount false d u 0 { srcViols := n } s) := by
  unfold engCount
  dsimp only
  simp only [if_true, if_false]
  split
  · exact SameStore.rfl
  · exact bump_same _ _ _ _ fun i => engBlk_stk false d u 0x018 i hu (by decide)

/-- A source line read by a Counterproof engine. -/
theorem cptRead_some (d u cl : Nat) (hu : u < 4) (s : State) (js : List CJob) (hj : getCpt s d u = js) (k : CJob)
    (hk : (js.take 2).find? (fun k => decide (k.lines.length < cptR k.cmd)) = some k)
    (hr : rowsReady s k.src.1 k.src.2 ((cptSrc k.cmd).row + k.lines.length) 1 false = true)
    {read : List DVal × Nat × State} (h : read = readVals false d u cl k.src.1 k.src.2 ((cptSrc k.cmd).row + k.lines.length)
      (cptSrc k.cmd).col (cptSrc k.cmd).cols (f32 (BitVec.ofNat 32 (fld (k.cmd.w 2) 32 32))).toRat s) :
    ∃ y, cptRead d u cl s = some (setCpt d u (js.map fun i => if i.id = k.id then
        { i with lines := i.lines ++ [read.1], fold := { i.fold with srcViols := i.fold.srcViols + read.2.1 } } else i) y) ∧
      SameStore s y ∧ Only accessParts s y := by
  have r1 : SameStore s read.2.2 := by rw [h]; exact readVals_same _ _ _ _ _ _ _ _ _ _ _ hu
  have k1 : Only accessParts s read.2.2 := by
    rw [h]; exact (readVals_kept _ _ _ _ _ _ _ _ _ _ (Kept.rfl' s) (ks := accessParts) (by decide)).only
  refine ⟨engCount false d u 0 { srcViols := read.2.1 } (consumerViol d k.src.2.stat read.2.1 read.2.2), ?_, ?_, ?_⟩
  · unfold cptRead
    dsimp only
    rw [hj, hk]
    dsimp only
    rw [if_neg (by rw [hr]; simp), h]
  · exact (r1.trans (consumerViol_same _ _ _ _)).trans (engCount_src_same _ _ _ hu _)
  · refine (k1.step (consumerViol_only _ _ _ _) (by decide)).step (engCount_kept _ _ _ _ _ (Kept.rfl' _) (ks := [.regs, .dict, .sat, .host, .logs]) (by decide)).only (by decide)

theorem cptRead_bytes (d u cl : Nat) (hu : u < 4) (s : State) : SameBytes s ((cptRead d u cl s).getD s) := by
  cases hk : ((getCpt s d u).take 2).find? (fun k => decide (k.lines.length < cptR k.cmd)) with
  | none =>
    unfold cptRead
    dsimp only
    rw [hk]
    exact fun _ => rfl
  | some k =>
    by_cases hr : rowsReady s k.src.1 k.src.2 ((cptSrc k.cmd).row + k.lines.length) 1 false = true
    · obtain ⟨y, h1, h2, -⟩ := cptRead_some d u cl hu s _ rfl k hk hr rfl
      rw [h1]
      intro a
      rw [← h2.peekByte a]
      exact peek_congr rfl rfl a
    · unfold cptRead
      dsimp only
      rw [hk]
      dsimp only
      rw [if_pos hr]
      exact fun _ => rfl

/-- What a drain that is done leaves of its tile. -/
theorem drainDone_tile_own (t : TileId) (d : DrainJob) (s : State) :
    (∃ ps, getTile (drainDone t d s) t = { getTile s t with arr := { getArr s t with
      drains := (getArr s t).drains.filter fun x => !sameDrain x d, passes := ps } }) ∧
    (d.auto = false → drainDone t d s = complete d.id (setArr t { getArr s t with drains := (getArr s t).drains.filter fun x => !sameDrain x d } s)) := by
  have hc : ∀ id y, getTile (complete id y) t = getTile y t := fun id y => getTile_congr ((complete_only id y).tiles (by decide)) t
  have hb : ∀ id y, getTile (postBatch id y) t = getTile y t := fun id y =>
    getTile_congr ((postBatch_kept id (Kept.rfl' y) (ks := [.plates]) (by decide)).only.tiles (by decide)) t
  have hs : ∀ x, getTile (setArr t x s) t = { getTile s t with arr := x } := fun x => by rw [getTile_setArr, if_pos rfl]
  refine ⟨?_, fun h => ?_⟩
  · unfold drainDone
    dsimp only
    split
    · exact ⟨_, by rw [hc, hs]⟩
    · split
      · exact ⟨_, by rw [hs]⟩
      · split
        · exact ⟨_, by rw [hc, hs]⟩
        · split
          · exact ⟨_, by rw [hb, hs]⟩
          · exact ⟨_, by rw [hs]⟩
  · unfold drainDone
    dsimp only
    rw [if_pos (by rw [h]; simp)]

end Sys2Proof.Machine
end

