-- ==== Sys2Proof/Laws/Streams.lean ====
section
/-! SUPPORT. Streams: commands that are held, the streams of a tile, commands completed together (R199, R213). -/

set_option Elab.async false

namespace Sys2Proof.Machine

theorem withIssue_hold {s : State} {e : Eng} {c : PCmd} (h : s.Issues e c) (code : Nat) (k : State → WinCmd → Nat → State) :
    withIssue (some code) e c s k = charge e code s := by
  obtain ⟨h1, h2, h3, h4, h5, h6, h7, h8, h9, h10, -⟩ := h
  unfold withIssue
  rw [if_neg h1]
  have hi : issue (some code) e c s = .wait code := by
    unfold issue
    generalize hl : locate s e c = l at *
    obtain ⟨es, w, rest, inWin⟩ := l
    simp only at h5 h6 h7 h8 h9
    subst h5
    simp [h2, h3, h4, h7, h8, h9, earlierReady]
  rw [hi]

theorem getTile_setStr (t u : TileId) (x : StreamS) (s : State) :
    getTile (setStr t x s) u = if u = t then { getTile s t with str := x } else getTile s u := by
  unfold setStr; rw [getTile_setTile]

/-- Commands completed one after the other. -/
theorem completes_spec : ∀ (l : List Nat) (s : State), let n := l.foldl (fun s i => complete i s) s
    (∀ i ∈ l, findFlight n i = none) ∧ (∀ i, findFlight s i = none → findFlight n i = none) ∧
    n.plates.tokens = s.plates.tokens ∧ Only [.plates] s n := by
  intro l
  induction l with
  | nil => intro s; exact ⟨fun _ h => by simp at h, fun _ h => h, rfl, Only.rfl' _⟩
  | cons a l ih =>
    intro s
    obtain ⟨i1, i2, i3, i4⟩ := ih (complete a s)
    obtain ⟨c1, c2, -, c4⟩ := complete_completed a s
    have hp : ∀ i, findFlight s i = none → findFlight (complete a s) i = none := fun i h => by
      by_cases ha : i = a
      · rw [ha]; exact c1
      · rw [c2 i ha]; exact h
    refine ⟨fun i hi => ?_, fun i h => i2 i (hp i h), ?_, (complete_only a s).trans i4⟩
    · rcases List.mem_cons.1 hi with rfl | h
      · exact i2 _ c1
      · exact i1 i h
    · refine Eq.trans i3 ?_
      rw [c4]

theorem StreamsOf.rfl' (t : TileId) (s : State) : StreamsOf t s s := ⟨rfl, fun _ _ => rfl⟩

theorem StreamsOf.trans {t : TileId} {r s n : State} (h : StreamsOf t r s) (k : StreamsOf t s n) : StreamsOf t r n :=
  ⟨by rw [k.1, h.1], fun u hu => (k.2 u hu).trans (h.2 u hu)⟩

theorem StreamsOf.of_tiles {t : TileId} {s n : State} (h : n.tiles = s.tiles) : StreamsOf t s n := by
  have hg : ∀ u, getTile n u = getTile s u := fun u => getTile_congr h u
  exact ⟨by unfold getStr; rw [hg], fun u _ => hg u⟩

theorem setStr_streamsOf (t : TileId) (x : StreamS) (s : State) : StreamsOf t s (setStr t x s) := by
  refine ⟨?_, fun u hu => ?_⟩
  · rw [getStr_setStr, if_pos rfl, getTile_setStr, if_pos rfl]
  · rw [getTile_setStr, if_neg hu]

theorem getStr_congr {s n : State} (h : n.tiles = s.tiles) (t : TileId) : getStr n t = getStr s t := by
  unfold getStr; rw [getTile_congr h]

theorem strBlk_stk (t : TileId) (o i : Nat) (h : o < 0x1000) : stkBlk i 0 ≠ strBlk t o := tileBlk_stk _ _ _ (by omega)

theorem strBlk_stk' (t : TileId) (o i : Nat) (h : o < 0x1000) : stkBlk i 0 ≠ strBlk t 0 + o := by
  have := tileBlk_stk t.val (0x2000 + o) i (by omega)
  unfold strBlk tileBlk at *
  omega

theorem countDropped_same (t : TileId) (k : Nat) (s : State) : SameStore s (countDropped t k s) := by
  unfold countDropped
  split
  · exact SameStore.rfl
  · exact ((setBit_same _ _ _ fun i => strBlk_stk t 0 i (by decide)).trans (bump_same _ _ _ _ fun i => strBlk_stk' t 8 i (by decide))).trans
      (same_of_only (bumpDict_only _ _ _) (by decide) (by decide))

theorem settleStream_spec (t : TileId) (n : Nat) (s : State) :
    getStr (settleStream t n s) t = setStrm (getStr s t) n (getStrm (getStr s t) n).settled ∧
    StreamsOf t s (settleStream t n s) ∧ SameStore s (settleStream t n s) := by
  have hm : ∃ k, settleStream t n s = countDropped t k (setStr t (setStrm (getStr s t) n (getStrm (getStr s t) n).settled) s) := by
    unfold settleStream Strm.settled
    dsimp only
    generalize getStrm (getStr s t) n = st
    obtain ⟨a, q, l, f, r⟩ := st
    cases a <;> cases q <;> dsimp only [Option.map_none, Option.map_some]
    · exact ⟨_, rfl⟩
    · exact ⟨_, rfl⟩
    · exact ⟨_, rfl⟩
    · split <;> exact ⟨_, rfl⟩
  obtain ⟨k, hm⟩ := hm
  rw [hm]
  have kc := (countDropped_kept t k (Kept.rfl' (setStr t (setStrm (getStr s t) n (getStrm (getStr s t) n).settled) s)) (ks := accountParts) (by decide)).only
  refine ⟨?_, (setStr_streamsOf t _ s).trans (StreamsOf.of_tiles (kc.tiles (by decide))), ?_⟩
  · rw [getStr_congr (kc.tiles (by decide)), getStr_setStr, if_pos rfl]
  · exact (same_of_only (setStr_only _ _ _) (by decide) (by decide)).trans (countDropped_same _ _ _)

/-- Settling streams one after the other: each is settled, and nothing else of the tile's streams changes. -/
theorem settleAll_spec (t : TileId) : ∀ (l : List Nat), l.Nodup → ∀ s : State,
    let n := l.foldl (fun s k => settleStream t k s) s
    let x := getStr s t
    let y := getStr n t
    (∀ k, getStrm y k = if k ∈ l then (getStrm x k).settled else getStrm x k) ∧ y = { x with strms := y.strms } ∧
    StreamsOf t s n ∧ SameStore s n := by
  intro l
  induction l with
  | nil => intro _ s; exact ⟨fun k => by simp, rfl, StreamsOf.rfl' _ _, SameStore.rfl⟩
  | cons a l ih =>
    intro hl s n x y
    obtain ⟨ha, hl⟩ := List.nodup_cons.1 hl
    obtain ⟨a1, a2, a3⟩ := settleStream_spec t a s
    obtain ⟨i1, i2, i3, i4⟩ := ih hl (settleStream t a s)
    rw [a1] at i1 i2
    refine ⟨fun k => ?_, ?_, a2.trans i3, a3.trans i4⟩
    · refine (i1 k).trans ?_
      rw [getStrm_setStrm]
      by_cases h1 : k = a
      · subst h1; simp [ha, x]
      · simp [h1, x]
    · refine i2.trans rfl

theorem settleStreams_spec (t : TileId) (s : State) : let n := settleStreams t s
    let x := getStr s t
    let y := getStr n t
    (∀ k, getStrm y k = if k < 64 then (getStrm x k).settled else getStrm x k) ∧ y = { x with strms := y.strms } ∧
    StreamsOf t s n ∧ SameStore s n := by
  obtain ⟨h1, h⟩ := settleAll_spec t (List.range 64) List.nodup_range s
  exact ⟨fun k => by rw [show settleStreams t s = (List.range 64).foldl (fun s k => settleStream t k s) s from rfl, h1]; simp [List.mem_range], h⟩

/-- One grant: the stream that R208 picks gets it, and one request at most joins those in flight. -/
theorem grantLine_spec (t : TileId) (s n : State) (h : grantLine t s = some n) :
    let x := getStr s t
    let y := getStr n t
    ∃ k tte g, pickStream x = some (k, tte) ∧ streamGrant x k = some g ∧
      y.reqs = x.reqs ++ (match g.req with | some r => [{ strm := k, id := g.d.id, kind := r : Req }] | none => []) ∧
      y.cycle = x.cycle ∧ y.modes = x.modes ∧ StreamsOf t s n ∧ SameStore s n := by
  intro x y
  unfold grantLine at h
  dsimp only at h
  cases hp : pickStream x with
  | none => rw [show getStr s t = x from rfl, hp] at h; cases h
  | some p =>
    obtain ⟨k, tte⟩ := p
    cases hg : streamGrant x k with
    | none => rw [show getStr s t = x from rfl, hp] at h; dsimp only at h; rw [hg] at h; cases h
    | some g =>
      rw [show getStr s t = x from rfl, hp] at h
      dsimp only at h
      rw [hg] at h
      dsimp only at h
      refine ⟨k, tte, g, rfl, hg, ?_⟩
      have fin : ∀ x3 : StreamS, x3.reqs = x.reqs ++ (match g.req with | some r => [{ strm := k, id := g.d.id, kind := r : Req }] | none => []) →
          x3.cycle = x.cycle → x3.modes = x.modes →
          ∀ m, m.tiles = (settleStream t k (setStr t x3 s)).tiles → SameStore (settleStream t k (setStr t x3 s)) m → m = n →
          y.reqs = x.reqs ++ (match g.req with | some r => [{ strm := k, id := g.d.id, kind := r : Req }] | none => []) ∧
          y.cycle = x.cycle ∧ y.modes = x.modes ∧ StreamsOf t s n ∧ SameStore s n := by
        intro x3 e1 e2 e3 m hm hs hn
        obtain ⟨a1, a2, a3⟩ := settleStream_spec t k (setStr t x3 s)
        rw [getStr_setStr, if_pos rfl] at a1
        have b2 := (setStr_streamsOf t x3 s).trans a2
        have b3 := (same_of_only (setStr_only t x3 s) (by decide) (by decide)).trans a3
        subst hn
        have hy : y = setStrm x3 k (getStrm x3 k).settled := (getStr_congr hm t).trans a1
        rw [hy]
        exact ⟨e1, e2, e3, b2.trans (StreamsOf.of_tiles hm), b3.trans hs⟩
      have hb : ∀ z, (bump (strBlk t 0) 0x020 1 z).tiles = z.tiles := fun z => (bump_only _ _ _ z).tiles (by decide)
      have hs : ∀ z, SameStore z (bump (strBlk t 0) 0x020 1 z) := fun z => bump_same (strBlk t 0) 0x020 1 z fun i => strBlk_stk' t 0x20 i (by decide)
      have finA : ∀ {x3 : StreamS}, settleStream t k (setStr t x3 s) = n → x3.reqs = x.reqs ++ (match g.req with | some r => [{ strm := k, id := g.d.id, kind := r : Req }] | none => []) →
          x3.cycle = x.cycle → x3.modes = x.modes → _ := fun {x3} hn e1 e2 e3 => fin x3 e1 e2 e3 _ rfl SameStore.rfl hn
      have finB : ∀ {x3 : StreamS}, bump (strBlk t 0) 0x020 1 (settleStream t k (setStr t x3 s)) = n → x3.reqs = x.reqs ++ (match g.req with | some r => [{ strm := k, id := g.d.id, kind := r : Req }] | none => []) →
          x3.cycle = x.cycle → x3.modes = x.modes → _ := fun {x3} hn e1 e2 e3 => fin x3 e1 e2 e3 _ (hb _) (hs _) hn
      clear fin
      cases hr : g.req with
      | none =>
        rw [hr] at h finA finB
        cases tte with
        | none =>
          simp only [Option.isNone_none, if_true, Option.some.injEq] at h
          exact finA h (List.append_nil _).symm rfl rfl
        | some v =>
          simp only [Option.isNone_some, Bool.false_eq_true, if_false] at h
          split at h
          · exact finB (Option.some.inj h) (List.append_nil _).symm rfl rfl
          · exact finA (Option.some.inj h) (List.append_nil _).symm rfl rfl
      | some r =>
        rw [hr] at h finA finB
        cases tte with
        | none =>
          simp only [Option.isNone_none, if_true, Option.some.injEq] at h
          exact finA h rfl rfl rfl
        | some v =>
          simp only [Option.isNone_some, Bool.false_eq_true, if_false] at h
          split at h
          · exact finB (Option.some.inj h) rfl rfl rfl
          · exact finA (Option.some.inj h) rfl rfl rfl

theorem grantLines_spec (t : TileId) : ∀ (m : Nat) (s : State),
    let n := (grantLines t m s).1
    let x := getStr s t
    let y := getStr n t
    (∃ l, y.reqs = x.reqs ++ l ∧ l.length ≤ m ∧
      ∀ k tte g r, 0 < m → pickStream x = some (k, tte) → streamGrant x k = some g → g.req = some r →
        [{ strm := k, id := g.d.id, kind := r : Req }] <+: l) ∧
    (pickStream x = none → n = s) ∧ y.cycle = x.cycle ∧ y.modes = x.modes ∧ StreamsOf t s n ∧ SameStore s n := by
  intro m
  induction m with
  | zero =>
    intro s
    exact ⟨⟨[], by simp [grantLines], Nat.le_refl _, fun _ _ _ _ h => absurd h (by decide)⟩, fun _ => rfl, rfl, rfl, StreamsOf.rfl' _ _, SameStore.rfl⟩
  | succ m ih =>
    intro s n x y
    cases h : grantLine t s with
    | none =>
      have hn : n = s := by show (grantLines t (m + 1) s).1 = s; unfold grantLines; rw [h]
      have hno : ∀ k tte g, pickStream x = some (k, tte) → streamGrant x k = some g → False := by
        intro k tte g h1 h2
        unfold grantLine at h
        dsimp only at h
        change (match pickStream x with
          | none => none
          | some (n, tte) => _) = none at h
        rw [h1] at h
        dsimp only at h
        rw [h2] at h
        dsimp only at h
        cases tte with
        | none => cases h
        | some v => dsimp only at h; split at h <;> cases h
      refine ⟨⟨[], ?_, Nat.zero_le _, fun k tte g r _ h1 h2 _ => (hno k tte g h1 h2).elim⟩, fun _ => hn, ?_, ?_, ?_, ?_⟩
      · show (getStr n t).reqs = _; rw [hn, List.append_nil]
      · show (getStr n t).cycle = _; rw [hn]
      · show (getStr n t).modes = _; rw [hn]
      · rw [hn]; exact StreamsOf.rfl' _ _
      · rw [hn]; exact SameStore.rfl
    | some s1 =>
      have hn : n = (grantLines t m s1).1 := by show (grantLines t (m + 1) s).1 = _; rw [grantLines, h]
      obtain ⟨k, tte, g, g1, g2, g3, g4, g5, g6, g7⟩ := grantLine_spec t s s1 h
      obtain ⟨⟨l, i1, i2, -⟩, -, i4, i5, i6, i7⟩ := ih s1
      rw [← hn] at i1 i4 i5 i6 i7
      refine ⟨⟨(match g.req with | some r => [{ strm := k, id := g.d.id, kind := r : Req }] | none => []) ++ l, ?_, ?_, ?_⟩, fun hp => ?_, i4.trans g4, i5.trans g5, g6.trans i6, g7.trans i7⟩
      · show (getStr n t).reqs = _
        rw [i1, g3, List.append_assoc]
      · cases g.req <;> simp <;> omega
      · intro k' tte' g' r _ h1 h2 h3
        rw [show pickStream x = some (k, tte) from g1] at h1
        cases h1
        rw [show streamGrant x k = some g from g2] at h2
        cases h2
        rw [h3]
        exact ⟨l, rfl⟩
      · rw [show pickStream x = some (k, tte) from g1] at hp; cases hp

/-- A write by an engine: stored in its buffer, or refused where the buffer is another die's and no window admits it. -/
theorem engineWrite_spec (client d eng name : Nat) (e : Entry) (off : Nat) (bs : List Byte) (s : State) :
    let p := engineWrite client d eng name e off bs s
    let cur := if name / 4096 = d then e else getEnt s name
    let ok := name / 4096 = d ∨ windowAdmits s cur { mod := moduleId s, die := Fin.ofNat 4 d, eng := eng } off bs.length = true
    (ok → p.2 = false ∧ (cur.placed → StoredAt s p.1 cur (name / 4096) off bs) ∧ SlotsSet s p.1 name cur off bs.length true) ∧
    (¬ ok → p.2 = true ∧ SameStore s p.1 ∧ p.1.cat = s.cat) := by
  intro p cur ok
  have put : ∀ (e : Entry) (z : State), SameStore s z → z.cat = s.cat →
      (e.placed → StoredAt s (putBuf client name e off bs z) e (name / 4096) off bs) ∧
      SlotsSet s (putBuf client name e off bs z) name e off bs.length true := by
    intro e z hz hc
    refine ⟨fun he => (putBuf_wrote client name he off bs z).1.from hz, ?_⟩
    unfold putBuf
    obtain ⟨a1, -⟩ := afterWrite_spec name e off bs.length (writeBuf client e (name / 4096) off bs z)
    refine ⟨a1.1, fun k hk => (a1.2 k hk).trans ?_⟩
    rw [writeBuf_access client e (name / 4096) off bs z]
    show mget false z.cat.full k = _
    rw [hc]
  by_cases hd : name / 4096 = d
  · have hp : p = (putBuf client name e off bs s, false) := by show engineWrite _ _ _ _ _ _ _ _ = _; unfold engineWrite; rw [if_pos hd]
    have hc : cur = e := if_pos hd
    rw [hp, hc]
    exact ⟨fun _ => ⟨rfl, put e s SameStore.rfl rfl⟩, fun h => absurd (.inl hd) h⟩
  · have hc : cur = getEnt s name := if_neg hd
    have kb := (crossBridge_kept client d (name / 4096) bs.length (Kept.rfl' s) (ks := accountParts) (by decide)).only
    have sb : SameStore s (crossBridge client d (name / 4096) bs.length s) := same_of_only (bumpLedger_only _ _ _ _) (by decide) (by decide)
    by_cases hw : windowAdmits s cur { mod := moduleId s, die := Fin.ofNat 4 d, eng := eng } off bs.length = true
    · have hp : p = (putBuf client name (getEnt s name) off bs (crossBridge client d (name / 4096) bs.length s), false) := by
        show engineWrite _ _ _ _ _ _ _ _ = _
        unfold engineWrite
        rw [if_neg hd]
        dsimp only
        rw [if_pos (by rw [← hc]; exact hw)]
      rw [hp, hc]
      exact ⟨fun _ => ⟨rfl, put _ _ sb (kb.cat (by decide))⟩, fun h => absurd (.inr hw) h⟩
    · have hp : p = (windowRefused { mod := moduleId s, die := Fin.ofNat 4 d, eng := eng } name
          (firstRefused s (getEnt s name) { mod := moduleId s, die := Fin.ofNat 4 d, eng := eng } off bs.length)
          (crossBridge client d (name / 4096) bs.length s), true) := by
        show engineWrite _ _ _ _ _ _ _ _ = _
        unfold engineWrite
        rw [if_neg hd]
        dsimp only
        rw [if_neg (by rw [← hc]; exact hw)]
      refine ⟨fun h => absurd h (by rintro (h | h); exacts [hd h, hw h]), fun _ => ?_⟩
      rw [hp]
      generalize (firstRefused s (getEnt s name) { mod := moduleId s, die := Fin.ofNat 4 d, eng := eng } off bs.length) = fo
      have kw := (windowRefused_kept { mod := moduleId s, die := Fin.ofNat 4 d, eng := eng } name fo
        (Kept.rfl' (crossBridge client d (name / 4096) bs.length s)) (ks := [.dict, .sat, .host, .logs]) (by decide)).only
      exact ⟨rfl, sb.trans (same_of_only kw (by decide) (by decide)), (kw.cat (by decide)).trans (kb.cat (by decide))⟩

theorem afterConsume_spec (name : Nat) (e : Entry) (off len : Nat) (s : State) :
    SlotsSet s (afterConsume name e off len s) name e off len false := by
  unfold afterConsume
  obtain ⟨f1, f2, -⟩ := foldl_setSlot name (coversLast e off len) false (slotsOf e off len) s
  exact ⟨f1, f2⟩

theorem SlotsSet.from {r s n : State} {name : Nat} {e : Entry} {off len : Nat} {v : Bool} (h : SlotsSet s n name e off len v)
    (w : s.cat = r.cat) : SlotsSet r n name e off len v :=
  ⟨h.1, fun k hk => (h.2 k hk).trans (by rw [w])⟩

theorem SlotsSet.to {s n m : State} {name : Nat} {e : Entry} {off len : Nat} {v : Bool} (h : SlotsSet s n name e off len v)
    (w : m.cat = n.cat) : SlotsSet s m name e off len v :=
  ⟨fun i hi => by unfold slotFull; rw [w]; exact h.1 i hi, fun k hk => by rw [w]; exact h.2 k hk⟩

theorem SameStore.bytes {s n : State} (h : SameStore s n) : SameBytes s n := fun a => h.peekByte a

/-- Streams marked faulted, tile by tile. -/
theorem markFaults_spec (t : TileId) (code : Nat) : ∀ (l : List Nat) (s : State), let n := l.foldl (fun s k => markFault t k code s) s
    (∀ k, getStrm (getStr n t) k = if k ∈ l then { getStrm (getStr s t) k with fault := code } else getStrm (getStr s t) k) ∧
    StreamsOf t s n ∧ Only [.tiles] s n := by
  intro l
  induction l with
  | nil => intro s; exact ⟨fun k => by simp, StreamsOf.rfl' _ _, Only.rfl' _⟩
  | cons a l ih =>
    intro s n
    obtain ⟨i1, i2, i3⟩ := ih (markFault t a code s)
    have hm : getStr (markFault t a code s) t = setStrm (getStr s t) a { getStrm (getStr s t) a with fault := code } := by
      unfold markFault
      rw [getStr_setStr, if_pos rfl]
    refine ⟨fun k => ?_, (setStr_streamsOf _ _ _).trans i2, (setStr_only _ _ _).trans i3⟩
    refine (i1 k).trans ?_
    rw [hm, getStrm_setStrm]
    by_cases h : k = a
    · subst h; simp
    · simp [h]

theorem markTiles_spec (f : TileId → List Nat) (code : Nat) : ∀ (ts : List TileId), ts.Nodup → ∀ s : State,
    let n := (ts.map fun t => (t, f t)).foldl (fun s p => p.2.foldl (fun s k => markFault p.1 k code s) s) s
    (∀ t ∈ ts, ∀ k, getStrm (getStr n t) k = if k ∈ f t then { getStrm (getStr s t) k with fault := code } else getStrm (getStr s t) k) ∧
    (∀ t ∉ ts, getTile n t = getTile s t) ∧ Only [.tiles] s n := by
  intro ts
  induction ts with
  | nil => intro _ s; exact ⟨fun t h => (by cases h), fun t _ => rfl, Only.rfl' _⟩
  | cons a ts ih =>
    intro hn s n
    obtain ⟨ha, hn⟩ := List.nodup_cons.1 hn
    obtain ⟨m1, m2, m3⟩ := markFaults_spec a code (f a) s
    obtain ⟨i1, i2, i3⟩ := ih hn ((f a).foldl (fun s k => markFault a k code s) s)
    refine ⟨fun t ht k => ?_, fun t ht => ?_, m3.trans i3⟩
    · rcases List.mem_cons.1 ht with rfl | ht
      · have := i2 t ha
        have hs : getStr n t = getStr ((f t).foldl (fun s k => markFault t k code s) s) t := congrArg Tile.str this
        rw [hs]; exact m1 k
      · refine (i1 t ht k).trans ?_
        have hta : t ≠ a := fun e => ha (e ▸ ht)
        have hs : getStr ((f a).foldl (fun s k => markFault a k code s) s) t = getStr s t := congrArg Tile.str (m2.2 t hta)
        rw [hs]
    · rw [List.mem_cons, not_or] at ht
      exact (i2 t ht.2).trans (m2.2 t ht.1)

theorem fld_setFld {w : Nat} (v : BitVec w) (lo n x : Nat) (h : lo + n ≤ w) : fld (setFld v lo n x) lo n = x % 2 ^ n := by
  unfold fld setFld
  apply Nat.eq_of_testBit_eq
  intro j
  rw [Nat.testBit_mod_two_pow, Nat.testBit_mod_two_pow, Nat.testBit_shiftRight, BitVec.testBit_toNat]
  by_cases hj : j < n
  · rw [BitVec.getLsbD_or, BitVec.getLsbD_and, BitVec.getLsbD_not, BitVec.getLsbD_shiftLeft, BitVec.getLsbD_shiftLeft, BitVec.getLsbD_ofNat,
      BitVec.getLsbD_ofNat, Nat.testBit_two_pow_sub_one, Nat.testBit_mod_two_pow]
    have h1 : lo + j < w := by omega
    have h2 : lo + j - lo = j := by omega
    have h3 : ¬ lo + j < lo := by omega
    have h4 : j < w := by omega
    simp [hj, h1, h2, h3, h4]
  · simp [hj]

theorem bit_setFld {w : Nat} (v : BitVec w) (lo n x i : Nat) (h : lo + n ≤ w) :
    bit (setFld v lo n x) i = if lo ≤ i ∧ i < lo + n then x.testBit (i - lo) else bit v i := by
  unfold bit setFld
  rw [BitVec.getLsbD_or, BitVec.getLsbD_and, BitVec.getLsbD_not, BitVec.getLsbD_shiftLeft, BitVec.getLsbD_shiftLeft, BitVec.getLsbD_ofNat,
    BitVec.getLsbD_ofNat, Nat.testBit_two_pow_sub_one, Nat.testBit_mod_two_pow]
  by_cases hw : i < w
  · by_cases h1 : lo ≤ i ∧ i < lo + n
    · have h2 : ¬ i < lo := by omega
      have h3 : i - lo < n := by omega
      have h4 : i - lo < w := by omega
      rw [if_pos h1]
      simp [hw, h2, h3, h4]
    · rw [if_neg h1]
      by_cases h2 : i < lo
      · simp [hw, h2]
      · have h3 : ¬ i - lo < n := by omega
        simp [hw, h2, h3]
  · have h1 : ¬ (lo ≤ i ∧ i < lo + n) := by omega
    rw [if_neg h1]
    simp [hw, BitVec.getLsbD_of_ge v i (by omega)]

theorem Stepped.of_scopes {s n : State} {c : Nat} {f : StepSt → StepSt} (h : ScopesOnly s n) (hf : ∀ x, f x = x) : Stepped s n c f := by
  intro k
  have hm : (getClient s k).step.map f = (getClient s k).step := by
    cases (getClient s k).step <;> simp [hf]
  rw [hm, ite_self]
  exact h k

theorem Stepped.pre {r s n : State} {c : Nat} {f : StepSt → StepSt} (h : Stepped s n c f) (w : ScopesOnly r s) : Stepped r n c f := by
  intro k
  rw [h k, w k]

theorem Stepped.post {s n m : State} {c : Nat} {f : StepSt → StepSt} (h : Stepped s n c f) (w : ScopesOnly n m) : Stepped s m c f := by
  intro k
  rw [w k, h k]

theorem updStep_stepped (c : Nat) (f : StepSt → StepSt) (s : State) : Stepped s (updStep c f s) c f := by
  intro k
  rw [updStep_getClient]
  by_cases h : k = c
  · subst h; simp
  · simp [h]

theorem govBlk_stk (d i j : Nat) (h : i < 1024) : stkBlk j 0 ≠ govBlk d i := by
  unfold govBlk stkBlk ctlBase; omega

theorem statBlk_stk (d i o j : Nat) (h : i < 1024) (ho : o < 0x400) : stkBlk j 0 ≠ statBlk d i o := by
  unfold statBlk stkBlk ctlBase; omega

theorem statBlk_govBlk (d i o : Nat) (h : i < 1024) (ho : o < 0x400) : statBlk d i o ≠ govBlk d i := by
  unfold statBlk govBlk; omega

theorem tSlot_lt (r : Word) : tSlot r < 1024 := by
  unfold tSlot fld; exact Nat.mod_lt _ (by decide)

theorem clearSlot_same (d slot : Nat) (h : slot < 1024) (s : State) : SameStore s (clearSlot d slot s) := by
  obtain ⟨-, -, c3⟩ := clearSlot_getReg d slot s
  refine SameStore.of_stk (c3.mem (by decide)) fun i => ?_
  unfold clearSlot
  dsimp only
  rw [getReg_setReg, if_neg (statBlk_stk d slot 0 i h (by decide)), foldl_setReg_zero, if_neg]
  rintro ⟨k, hk, hh⟩
  rw [List.mem_range] at hk
  exact statBlk_stk d slot (8 * (k + 1)) i h (by omega) hh

theorem latchTensor_eq (c g d n : Nat) (r : Word) (v : Vote) (s : State) : latchTensor c g d n r (v, s) =
         (let v1 : Vote := { v with
         flags := v.flags ||| fld (getReg s (govBlk d (tSlot r))) 8 4,
         amax := setNth v.amax (tIdx r) (max (nth 0 v.amax (tIdx r)) (fld (getReg s (statBlk d (tSlot r) 8)) 0 32)) }
     let s1 := writeBuf c (getEnt s g) (g / 4096) (govSnOff s g + 592 * n) (slotBytesOf s d (tSlot r)) s
     (v1, setReg (govBlk d (tSlot r)) (setFld (getReg s1 (govBlk d (tSlot r))) 8 4 0) (clearSlot d (tSlot r) s1))) := by
  rfl

theorem latchTensor_spec (c g d : Nat) : ∀ (l : List (Nat × Word)) (v : Vote) (s : State),
    let p := l.foldl (fun a r => latchTensor c g d r.1 r.2 a) (v, s)
    Latched c g d l v s p.1 p.2 ∧ ScopesOnly s p.2 := by
  intro l
  induction l with
  | nil => intro v s; exact ⟨⟨rfl, rfl⟩, ScopesOnly.rfl' _⟩
  | cons r l ih =>
    intro v s p
    obtain ⟨k, r⟩ := r
    have w1 := fun (he : (getEnt s g).placed) => writeBuf_peek_storable c he (g / 4096) (govSnOff s g + 592 * k) (slotBytesOf s d (tSlot r)) s
    have kw := only_of_access (writeBuf_access c (getEnt s g) (g / 4096) (govSnOff s g + 592 * k) (slotBytesOf s d (tSlot r)) s)
    have sw := writeBuf_scopes c (getEnt s g) (g / 4096) (govSnOff s g + 592 * k) (slotBytesOf s d (tSlot r)) s
    have hp : p = l.foldl (fun a r => latchTensor c g d r.1 r.2 a) (latchTensor c g d k r (v, s)) := rfl
    obtain ⟨q, hq⟩ : ∃ q, q = latchTensor c g d k r (v, s) := ⟨_, rfl⟩
    rw [← hq] at hp
    obtain ⟨u, m⟩ := q
    obtain ⟨hu, hm'⟩ := Prod.mk.inj (hq.trans (latchTensor_eq c g d k r v s))
    clear hq
    generalize writeBuf c (getEnt s g) (g / 4096) (govSnOff s g + 592 * k) (slotBytesOf s d (tSlot r)) s = s1 at w1 kw sw hm'
    obtain ⟨c1, c2, c3⟩ := clearSlot_getReg d (tSlot r) s1
    have hslot := tSlot_lt r
    have hne : ∀ j, j < 74 → statBlk d (tSlot r) (8 * j) ≠ govBlk d (tSlot r) := fun j hj => statBlk_govBlk d _ _ hslot (by omega)
    have hsame : SameStore s1 m := by
      refine (clearSlot_same d (tSlot r) hslot s1).trans ?_
      rw [hm']
      exact SameStore.of_stk ((setReg_only _ _ _).mem (by decide)) fun i => by rw [getReg_setReg, if_neg (govBlk_stk d _ i hslot)]
    have km : Only [.regs] s1 m := by rw [hm']; exact c3.step (setReg_only _ _ _) (by decide)
    obtain ⟨i1, i2⟩ := ih u m
    refine ⟨⟨m, fun he => ?_, fun j h1 h2 => ?_, ?_, (kw.step km (by decide)), ?_⟩, ?_⟩
    · exact StoredAt.to ⟨(w1 he).1, (w1 he).2.1⟩ hsame
    · rw [hm', getReg_setReg, if_neg (hne j h2)]
      exact c1 j h1 h2
    · rw [hm', getReg_setReg, if_pos rfl, fld_setFld _ _ _ _ (by decide), Nat.zero_mod]
    · rw [hp, ← hu]; exact i1
    · rw [hp]
      exact (sw.trans (ScopesOnly.of_eq (km.clients (by decide)))).trans i2

end Sys2Proof.Machine
end

