-- ==== Sys2Proof/Laws/Governor.lean ====
section
/-! SUPPORT. The formats governor: the tokens of a vote, and the commits at the end of a step (R256, R260). -/

set_option Elab.async false

namespace Sys2Proof.Machine

theorem not_due {p q r t u : Prop} (h : ¬ (p ∧ q ∧ r ∧ t ∧ u)) [Decidable p] [Decidable q] [Decidable r] [Decidable t] : ¬ p ∨ ¬ q ∨ ¬ r ∨ ¬ t ∨ ¬ u := by
  tauto

/-- Tokens of a vote, posted die by die and file by file (R256). -/
theorem voteTokens_plates (c g l : Nat) (y : State) : (voteTokens c g l y).plates = { y.plates with posts := y.plates.posts ++
    (((List.finRange 4).filter fun d => (layerMDies y g l).testBit d.val).flatMap fun d =>
      ((List.range 16).filter (fun t => (layerVFiles y g l).testBit t) ++ (if layerVDie y g l then [16] else [])).map fun f =>
        { die := d, file := f, reg := layerVtReg y g l, count := 1, eng := .coll d, client := c }) } := by
  have h1 : ∀ (d : DieId) (fs : List Nat) (s : State), (fs.foldl (fun s f => postTok (.coll d) c f (layerVtReg y g l) 1 s) s).plates =
      { s.plates with posts := s.plates.posts ++ fs.map fun f =>
        { die := d, file := f, reg := layerVtReg y g l, count := 1, eng := .coll d, client := c } } := by
    intro d fs
    induction fs with
    | nil => intro s; simp
    | cons f fs ih =>
      intro s
      rw [List.foldl_cons, ih]
      unfold postTok
      dsimp only
      have : (Fin.ofNat 4 (engDie (.coll d)) : DieId) = d := Fin.ext (Nat.mod_eq_of_lt d.isLt)
      rw [this, List.map_cons, List.append_assoc]
      rfl
  have h2 : ∀ (ds : List DieId) (fs : List Nat) (s : State), (ds.foldl (fun s d => fs.foldl (fun s f => postTok (.coll d) c f (layerVtReg y g l) 1 s) s) s).plates =
      { s.plates with posts := s.plates.posts ++ ds.flatMap fun d => fs.map fun f =>
        { die := d, file := f, reg := layerVtReg y g l, count := 1, eng := .coll d, client := c } } := by
    intro ds fs
    induction ds with
    | nil => intro s; simp
    | cons d ds ih =>
      intro s
      rw [List.foldl_cons, ih, h1, List.flatMap_cons, List.append_assoc]
  unfold voteTokens
  exact h2 _ _ y

theorem setLayerState_scopes (c g l k : Nat) (v : Word) (s : State) : ScopesOnly s (setLayerState c g l k v s) := writeBuf_scopes _ _ _ _ _ _

theorem setLayerState_only (c g l k : Nat) (v : Word) (s : State) : Only accessParts s (setLayerState c g l k v s) :=
  only_of_access (writeBuf_access _ _ _ _ _ _)

theorem queueCommit_clients (d : DieId) (c T : Nat) (s : State) : (queueCommit d c T s).2.clients = s.clients ∧ (queueCommit d c T s).2.tick = s.tick := by
  have h := (queueCommit_kept d c T (Kept.rfl' s) (ks := [.cat, .host, .logs]) (by decide)).only
  exact ⟨h.clients (by decide), h.tick (by decide)⟩

theorem planTick_congr {s t : State} (hc : t.clients = s.clients) (ht : t.tick = s.tick) (c : Nat) : planTick t c = planTick s c := by
  unfold planTick
  rw [getClient_congr hc, ht]

theorem queueCommits_spec (c T : Nat) : ∀ (ds : List DieId) (s : State),
    let n := ds.foldl (fun s d => (queueCommit d c T s).2) s
    let late := T ≤ planTick s c ∧ ∀ r, (getClient s c).run = some r → runBegun s r = true
    n.cat = { s.cat with commits := s.cat.commits ++ ds.map fun d => { die := d, client := c, tick := if late then planTick s c + 1 else T } } ∧
    Only [.cat, .host, .logs] s n := by
  intro ds
  induction ds with
  | nil => intro s; exact ⟨by simp, Only.rfl' _⟩
  | cons d ds ih =>
    intro s n late
    obtain ⟨i1, i2⟩ := ih (queueCommit d c T s).2
    obtain ⟨q1, q2⟩ := queueCommit_clients d c T s
    have k1 := (queueCommit_kept d c T (Kept.rfl' s) (ks := [.cat, .host, .logs]) (by decide)).only
    have hl : (T ≤ planTick (queueCommit d c T s).2 c ∧ ∀ r, (getClient (queueCommit d c T s).2 c).run = some r → runBegun (queueCommit d c T s).2 r = true) = late := by
      rw [planTick_congr q1 q2, getClient_congr q1]
      unfold runBegun
      rw [q2]
      rfl
    have hlate : (decide (T ≤ planTick s c) && ((getClient s c).run.map (runBegun s)).getD true) = decide late := by
      show _ = decide (T ≤ planTick s c ∧ ∀ r, (getClient s c).run = some r → runBegun s r = true)
      cases h : (getClient s c).run with
      | none => simp
      | some r => simp [h]
    have hc : (queueCommit d c T s).2.cat = { s.cat with commits := s.cat.commits ++ [{ die := d, client := c, tick := if late then planTick s c + 1 else T }] } := by
      unfold queueCommit
      dsimp only
      rw [hlate]
      by_cases hh : late
      · simp only [hh, decide_true, if_true]; rfl
      · simp only [hh, decide_false, if_false]; rfl
    refine ⟨i1.trans ?_, k1.trans i2⟩
    rw [hc]
    dsimp only
    rw [planTick_congr q1 q2] at hl ⊢
    simp only [hl, List.map_cons, List.append_assoc, List.singleton_append]

end Sys2Proof.Machine
end

