-- ==== Sys2Proof/Laws/Ports.lean ====
section
/-! SUPPORT. Fabric ports: flits sent, acknowledged and resent, recovery (R270 to R273). -/

set_option Elab.async false

namespace Sys2Proof.Machine

theorem PortIs.of {s n : State} {p : Nat} {y : Port} (h : n.fabric.ports = mset {} s.fabric.ports p y) : PortIs s n p y := by
  unfold PortIs getPort
  rw [h]
  exact ⟨by rw [mget_mset, if_pos rfl], fun q hq => by rw [mget_mset, if_neg hq]⟩

theorem PortIs.trans {r s n : State} {p : Nat} {x y : Port} (h : PortIs r s p x) (k : PortIs s n p y) : PortIs r n p y :=
  ⟨k.1, fun q hq => (k.2 q hq).trans (h.2 q hq)⟩

theorem PortIs.congr {s n m : State} {p : Nat} {y : Port} (h : PortIs s n p y) (k : m.fabric.ports = n.fabric.ports) : PortIs s m p y := by
  unfold PortIs getPort at *
  rw [k]; exact h

theorem PortIs.from {r s n : State} {p : Nat} {y : Port} (h : PortIs s n p y) (k : s.fabric.ports = r.fabric.ports) : PortIs r n p y := by
  unfold PortIs getPort at *
  rw [← k]; exact h

theorem setPort_is (p : Nat) (x : Port) (s : State) : PortIs s (setPort p x s) p x := PortIs.of rfl

theorem putWire_is (p : Nat) (f : Flit) (resend : Bool) (s : State) :
    PortIs s (putWire p f resend s) p ((getPort s p).sent f resend s.free) ∧ Only [.fabric, .free] s (putWire p f resend s) := by
  have h : putWire p f resend s = setPort p ((getPort s p).sent f resend s.free) { s with free := s.free + 1 } := rfl
  rw [h]
  exact ⟨(setPort_is _ _ _).from rfl, ((only_free _ s).mono (by decide)).step (setPort_only _ _ _) (by decide)⟩

theorem sendNew_is (p : Nat) (f : Flit) (s : State) :
    PortIs s (sendNew p f s) p ((getPort s p).sentNew f s.free) ∧ Only [.fabric, .free] s (sendNew p f s) := by
  unfold sendNew
  dsimp only
  generalize hx : ({ getPort s p with seq := ((getPort s p).seq + 1) % 4096, replay := (getPort s p).replay ++ [{ f with seq := (getPort s p).seq }] } : Port) = x
  obtain ⟨h1, h2⟩ := putWire_is p { f with seq := (getPort s p).seq } false (setPort p x s)
  have k1 := setPort_is p x s
  have k2 := setPort_only p x s
  rw [k1.1] at h1
  have : x.sent { f with seq := (getPort s p).seq } false (setPort p x s).free = (getPort s p).sentNew f s.free := by
    rw [← hx]; rfl
  rw [this] at h1
  exact ⟨k1.trans h1, (k2.mono (by decide)).trans h2⟩

theorem sendIdle_is (p : Nat) (s : State) : Only [.fabric, .free] s (sendIdle p s) ∧
    ∃ q, q < 4096 ∧ PortIs s (sendIdle p s) p ((getPort s p).sent { ftype := 0, seq := q } false (s.free + 1)) := by
  unfold sendIdle
  have kf := fresh_only s
  have hf : (fresh s).2.free = s.free + 1 := rfl
  have hp : (fresh s).2.fabric = s.fabric := kf.fabric (by decide)
  generalize fresh s = q at kf hf hp
  obtain ⟨x, s1⟩ := q
  dsimp only at kf hf hp ⊢
  obtain ⟨h1, h2⟩ := putWire_is p { ftype := 0, seq := fld x 0 12 } false s1
  have hg : getPort s1 p = getPort s p := by unfold getPort; rw [hp]
  rw [hg, hf] at h1
  exact ⟨(kf.mono (by decide)).trans h2, _, Nat.mod_lt _ (by decide), h1.from (by rw [hp])⟩

theorem getPort_congr {s n : State} (h : n.fabric = s.fabric) (p : Nat) : getPort n p = getPort s p := by
  unfold getPort; rw [h]

theorem portState_congr {s n : State} {p : Nat} (h : getReg n (portStatus p) = getReg s (portStatus p)) : portState n p = portState s p := by
  unfold portState; rw [h]

theorem setPortState_spec (p st : Nat) (h : st < 8) (s : State) : portState (setPortState p st s) p = st ∧
    Only [.regs, .dict] s (setPortState p st s) := by
  refine ⟨?_, ((setReg_only _ _ _).mono (by decide)).step (setDict_only _ _ _) (by decide)⟩
  have : getReg (setPortState p st s) (portStatus p) = setFld (getReg s (portStatus p)) 0 3 st := by
    unfold setPortState
    dsimp only
    rw [getReg_congr ((setDict_only _ _ _).regs (by decide)), getReg_setReg, if_pos rfl]
  unfold portState
  rw [this, fld_setFld _ _ _ _ (by decide)]
  exact Nat.mod_eq_of_lt h

theorem failPort_spec (p : Nat) (s : State) : portState (failPort p s) p = 4 ∧
    PortIs s (failPort p s) p { getPort s p with failedAt := s.tick, swap := none } ∧
    Only [.regs, .dict, .sat, .clients, .fabric, .host, .logs] s (failPort p s) := by
  have hk := (failPort_kept p (Kept.rfl' s) (ks := [.regs, .dict, .sat, .clients, .fabric, .host, .logs]) (by decide)).only
  unfold failPort at hk ⊢
  dsimp only at hk ⊢
  have k1 := setPort_is p { getPort s p with failedAt := s.tick, swap := none } s
  generalize setPort p { getPort s p with failedAt := s.tick, swap := none } s = z1 at k1 hk ⊢
  obtain ⟨h2, k2⟩ := setPortState_spec p 4 (by decide) z1
  generalize setPortState p 4 z1 = z2 at h2 k2 hk ⊢
  generalize p + 2 ^ 5 * peerMod s p + 2 ^ 17 * peerPort s p = det at hk ⊢
  obtain ⟨k3, -⟩ := faultAll_spec (clientsOnPort z2 p) 0x0404 det z2
  generalize faultAll (clientsOnPort z2 p) 0x0404 det z2 = z3 at k3 hk ⊢
  have k4 : Only [.host, .logs] z3 (if peerLost z3 (peerMod s p) = true then post 0x0407 16 (peerMod s p) z3 else z3) := by
    split
    · exact post_only _ _ _ _
    · exact Only.rfl' _
  generalize (if peerLost z3 (peerMod s p) = true then post 0x0407 16 (peerMod s p) z3 else z3) = n at k4 hk ⊢
  refine ⟨?_, k1.congr ?_, hk⟩
  · rw [portState_congr (getReg_congr (k4.regs (by decide)) _), portState_congr (getReg_congr (k3.regs (by decide)) _)]
    exact h2
  · rw [k4.fabric (by decide), k3.fabric (by decide), k2.fabric (by decide)]

theorem enterRecovery_spec (p : Nat) (s : State) :
    let x := getPort s p
    let recent := x.recovs.filter fun t => decide (s.tick < t + 1000000)
    let n := enterRecovery p s
    Only [.regs, .dict, .sat, .clients, .fabric, .host, .logs] s n ∧
    if 2 ≤ recent.length then portState n p = 4 ∧ PortIs s n p { x with recovs := recent ++ [s.tick], failedAt := s.tick, swap := none }
    else portState n p = 3 ∧ PortIs s n p { x with recovs := recent ++ [s.tick] } := by
  intro x recent n
  have hk : Only [.regs, .dict, .sat, .clients, .fabric, .host, .logs] s n := (enterRecovery_kept p (Kept.rfl' s) (by decide)).only
  refine ⟨hk, ?_⟩
  have k1 := setPort_is p { x with recovs := recent ++ [s.tick] } s
  have t1 := setPort_only p { x with recovs := recent ++ [s.tick] } s
  obtain ⟨h2, k2⟩ := setPortState_spec p 3 (by decide) (setPort p { x with recovs := recent ++ [s.tick] } s)
  have hn : n = (let s2 := bumpDict (dkey 0x5000 0x11) 1 (bump (portStatus p) 0x10 1 (setBit (portStatus p) 24
      (setPortState p 3 (setPort p { x with recovs := recent ++ [s.tick] } s))))
      if 2 ≤ recent.length then failPort p s2 else s2) := by
    show enterRecovery p s = _
    unfold enterRecovery
    rfl
  generalize setPort p { x with recovs := recent ++ [s.tick] } s = z1 at k1 t1 h2 k2 hn
  generalize setPortState p 3 z1 = z2 at h2 k2 hn
  have k3 := setBit_only (portStatus p) 24 z2
  have h3 : portState (setBit (portStatus p) 24 z2) p = 3 := by
    rw [← h2]
    unfold portState
    rw [setBit_getReg, if_pos rfl]
    unfold fld
    apply Nat.eq_of_testBit_eq
    intro j
    simp only [Nat.shiftRight_zero]
    rw [Nat.testBit_mod_two_pow, Nat.testBit_mod_two_pow]
    by_cases hj : j < 3
    · have h24 : (1#64 <<< 24).getLsbD j = false := by
        rw [BitVec.getLsbD_shiftLeft]; simp; omega
      simp [hj, BitVec.testBit_toNat, BitVec.getLsbD_or]
      intro h
      exact absurd (h.symm.trans h24) (by decide)
    · simp [hj]
  generalize setBit (portStatus p) 24 z2 = z3 at k3 h3 hn
  have k4 := bump_only (portStatus p) 0x10 1 z3
  have h4 : portState (bump (portStatus p) 0x10 1 z3) p = 3 := by
    rw [portState_congr (s := z3) (by rw [bump_getReg, if_neg (by omega)])]; exact h3
  generalize bump (portStatus p) 0x10 1 z3 = z4 at k4 h4 hn
  have k5 := bumpDict_only (dkey 0x5000 0x11) 1 z4
  have h5 : portState (bumpDict (dkey 0x5000 0x11) 1 z4) p = 3 := by
    rw [portState_congr (getReg_congr (k5.regs (by decide)) _)]; exact h4
  generalize bumpDict (dkey 0x5000 0x11) 1 z4 = z5 at k5 h5 hn
  dsimp only at hn
  have hf : z5.fabric = z1.fabric := by
    rw [k5.fabric (by decide), k4.fabric (by decide), k3.fabric (by decide), k2.fabric (by decide)]
  have ht : z5.tick = s.tick := by
    rw [k5.tick (by decide), k4.tick (by decide), k3.tick (by decide), k2.tick (by decide), t1.tick (by decide)]
  have hp : PortIs s z5 p { x with recovs := recent ++ [s.tick] } := k1.congr (by rw [hf])
  by_cases h : 2 ≤ recent.length
  · rw [if_pos h] at hn ⊢
    obtain ⟨f1, f2, -⟩ := failPort_spec p z5
    rw [hp.1, ht] at f2
    rw [hn]
    exact ⟨f1, hp.trans f2⟩
  · rw [if_neg h] at hn ⊢
    rw [hn]
    exact ⟨h5, hp⟩

theorem endTx_ports (id : Nat) (s : State) : (endTx id s).fabric.ports = s.fabric.ports := by
  have h : ∀ (l : List Tx) (s : State), (l.foldl (fun s x => slotDone x.client x.slot s) s).fabric = s.fabric := by
    intro l
    induction l with
    | nil => intro s; rfl
    | cons a l ih => intro s; rw [List.foldl_cons, ih]; exact (updStep_only _ _ _).fabric (by decide)
  unfold endTx
  dsimp only
  rw [h]

theorem settleSends_ports (s : State) : (settleSends s).fabric.ports = s.fabric.ports := by
  have h : ∀ (l : List Flight) (s : State), (l.foldl (fun s f => complete f.id (endTx f.id s)) s).fabric.ports = s.fabric.ports := by
    intro l
    induction l with
    | nil => intro s; rfl
    | cons a l ih =>
      intro s
      rw [List.foldl_cons, ih, (complete_only _ _).fabric (by decide), endTx_ports]
  exact h _ _

theorem takeAck_is (p : Nat) (bs : List Byte) (s : State) :
    let h := leNat (bs.take 10)
    let ack := h / 2 ^ 16 % 4096
    let x := getPort s p
    PortIs s (takeAck p bs s) p { x with
      replay := x.replay.filter fun q => decide (2048 ≤ seqSub ack q.seq)
      again := x.again.filter fun q => decide (2048 ≤ seqSub ack q.seq)
      resend := if h.testBit 28 then some ((ack + 1) % 4096) else x.resend } ∧
    Only [.fabric, .plates, .clients] s (takeAck p bs s) := by
  intro h ack x
  refine ⟨?_, (takeAck_kept p bs (Kept.rfl' s) (by decide)).only⟩
  have hf : (fun q : Flit => !decide (seqSub ack q.seq < 2048)) = fun q => decide (2048 ≤ seqSub ack q.seq) := by
    funext q; by_cases hh : seqSub ack q.seq < 2048 <;> simp [hh] <;> omega
  rw [← hf]
  unfold takeAck
  dsimp only
  exact (setPort_is p _ s).congr (settleSends_ports _)

end Sys2Proof.Machine
end

