-- ==== Sys2Proof/Laws/Slots.lean ====
section
/-! SUPPORT. The timetable: stretches, late slots, control records that go up (R285 to R291). -/

set_option Elab.async false

namespace Sys2Proof.Machine

theorem sendCtl_mono (p q : Nat) (m : Word × Word) (s : State) (x : Word × Word) (h : x ∈ (getPort s q).ctl) :
    x ∈ (getPort (sendCtl p m s) q).ctl := by
  obtain ⟨h1, h2⟩ := setPort_is p { getPort s p with ctl := (getPort s p).ctl ++ [m] } s
  unfold sendCtl
  by_cases hq : q = p
  · subst hq; rw [h1]; exact List.mem_append_left _ h
  · rw [h2 q hq]; exact h

theorem sendCtl_mem (p : Nat) (m : Word × Word) (s : State) : m ∈ (getPort (sendCtl p m s) p).ctl := by
  obtain ⟨h1, -⟩ := setPort_is p { getPort s p with ctl := (getPort s p).ctl ++ [m] } s
  unfold sendCtl
  rw [h1]; exact List.mem_append_right _ List.mem_cons_self

theorem portFor_congr {s t : State} (h : t.wearS = s.wearS) (p : Nat) : portFor t p = portFor s p := by unfold portFor; rw [h]

theorem shareOf_congr {s t : State} {c : Nat} (h : (getClient t c).set = (getClient s c).set) : shareOf t c = shareOf s c := by
  unfold shareOf; rw [h]

theorem partitionPorts_congr {s t : State} {c : Nat} (h : (getClient t c).set = (getClient s c).set) : partitionPorts t c = partitionPorts s c := by
  unfold partitionPorts; rw [shareOf_congr h]

/-- A flood reaches every port of the partition but one. -/
theorem flood_reaches (c : Nat) (but : Option Nat) (m : Word × Word) (s : State) :
    ∀ p ∈ partitionPorts s c, but ≠ some p → m ∈ (getPort (flood c but m s) (portFor s p)).ctl := by
  unfold flood
  have key : ∀ (l : List Nat) (y : State), y.wearS = s.wearS →
      (∀ q, m ∈ (getPort y q).ctl → m ∈ (getPort (l.foldl (fun s p => if but = some p then s else sendCtl (portFor s p) m s) y) q).ctl) ∧
      ∀ p ∈ l, but ≠ some p → m ∈ (getPort (l.foldl (fun s p => if but = some p then s else sendCtl (portFor s p) m s) y) (portFor s p)).ctl := by
    intro l
    induction l with
    | nil => intro y _; exact ⟨fun _ h => h, fun p hp => by simp at hp⟩
    | cons a l ih =>
      intro y hy
      rw [List.foldl_cons]
      by_cases ha : but = some a
      · rw [if_pos ha]
        obtain ⟨i1, i2⟩ := ih y hy
        refine ⟨i1, fun p hp hb => ?_⟩
        rcases List.mem_cons.1 hp with rfl | hp
        · exact absurd ha hb
        · exact i2 p hp hb
      · rw [if_neg ha]
        obtain ⟨i1, i2⟩ := ih (sendCtl (portFor y a) m y) (((sendCtl_only (portFor y a) m y).wearS (by decide)).trans hy)
        refine ⟨fun q h => i1 q (sendCtl_mono _ _ _ _ _ h), fun p hp hb => ?_⟩
        rcases List.mem_cons.1 hp with rfl | hp
        · refine i1 _ ?_
          rw [portFor_congr hy]
          exact sendCtl_mem _ _ _
        · exact i2 p hp hb
  exact (key _ s rfl).2

theorem updRun_getClient (c : Nat) (f : Run → Run) (s : State) (k : Nat) : getClient (updRun c f s) k =
    if k = c then { getClient s c with run := (getClient s c).run.map f } else getClient s k := by
  unfold updRun
  cases h : (getClient s c).run with
  | none =>
    dsimp only
    split
    · rename_i hk; subst hk; rw [Option.map_none, ← h]
    · rfl
  | some r =>
    dsimp only
    rw [getClient_setClient]
    split
    · rfl
    · rfl

theorem countStretch_spec (c k : Nat) (s : State) : Only [.dict, .sat, .clients, .host, .logs] s (countStretch c k s) ∧
    (getClient (countStretch c k s) c).run = (getClient s c).run ∧
    (∀ j, j ≠ c → getClient (countStretch c k s) j = getClient s j) ∧
    ∀ st, (getClient s c).step = some st → ∃ u, (getClient (countStretch c k s) c).step = some u ∧ (st.aborted = true → u = st) ∧
      (st.aborted = false → u.stretch = st.stretch + k ∧ (c < 16 → (u.aborted = true ↔ (shareOf s c).limit < st.stretch + k))) := by
  refine ⟨(countStretch_kept c k (Kept.rfl' s) (by decide)).only, ?_⟩
  unfold countStretch
  cases h : (getClient s c).step with
  | none => exact ⟨rfl, fun _ _ => rfl, fun _ h => absurd h (by simp)⟩
  | some st =>
    dsimp only
    cases ha : st.aborted with
    | true =>
      rw [if_pos rfl]
      refine ⟨rfl, fun _ _ => rfl, fun st' h' => ?_⟩
      cases h'
      exact ⟨st, h, fun _ => rfl, fun h => absurd (ha.symm.trans h) (by decide)⟩
    | false =>
      rw [if_neg (by decide)]
      have u1 := updStep_getClient c (fun st' : StepSt => { st' with stretch := st.stretch + k }) s
      generalize updStep c (fun st' : StepSt => { st' with stretch := st.stretch + k }) s = y at u1 ⊢
      have uc := u1 c
      rw [if_pos rfl, h] at uc
      by_cases hl : (shareOf s c).limit < st.stretch + k
      · rw [if_pos hl]
        unfold fabricFault
        have b := bumpDict_only (dkey 0x5000 0x16) 1 y
        generalize bumpDict (dkey 0x5000 0x16) 1 y = z at b ⊢
        have bz : ∀ j, getClient z j = getClient y j := fun j => getClient_congr (b.clients (by decide)) j
        obtain ⟨-, r2, r3⟩ := raiseFault_raised c 0x0406 ((st.stretch + k) % 2 ^ 32) z
        refine ⟨?_, fun j hj => ?_, fun st' h' => ?_⟩
        · rw [r3, bz, uc]
        · rw [r2 j hj, bz, u1, if_neg hj]
        · cases h'
          rw [r3, bz, uc]
          by_cases hc : c < 16
          · simp [hc, ha, hl]
          · simp [hc, ha]
      · rw [if_neg hl]
        refine ⟨by rw [uc], fun j hj => by rw [u1, if_neg hj], fun st' h' => ?_⟩
        cases h'
        refine ⟨_, by rw [uc]; rfl, fun h => absurd (ha.symm.trans h) (by decide), fun _ => ⟨rfl, fun _ => ?_⟩⟩
        dsimp only
        rw [ha]
        exact ⟨fun h => absurd h (by decide), fun h => absurd h hl⟩

theorem applyStretch_stretched (c origin step e k slot : Nat) (but : Option Nat) (s : State) :
    Stretched c origin step e k slot but s (applyStretch c origin step e k slot but s) := by
  have hk := (applyStretch_kept c origin step e k slot but (Kept.rfl' s) (ks := [.dict, .sat, .clients, .fabric, .host, .logs, .ledger]) (by decide)).only
  unfold Stretched
  unfold applyStretch at hk ⊢
  cases h : (getClient s c).run with
  | none => exact ⟨fun _ => rfl, fun _ h => absurd h (by simp)⟩
  | some r =>
    refine ⟨fun h => absurd h (by simp), ?_⟩
    intro r' h' me
    cases h'
    rw [h] at hk
    dsimp only at hk ⊢
    refine ⟨fun hm => by rw [if_pos (List.contains_iff_mem.2 hm)], fun hm => ?_⟩
    have hm' : r.seen.contains me = false := by rw [Bool.eq_false_iff]; exact fun h => hm (List.contains_iff_mem.1 h)
    change r.seen.contains (origin, step % 2 ^ 32, e % 2 ^ 32) = false at hm'
    rw [hm'] at hk ⊢
    simp only [Bool.false_eq_true, if_false] at hk ⊢
    have u1 := updRun_getClient c (fun r => { r with seen := r.seen ++ [(origin, step % 2 ^ 32, e % 2 ^ 32)] }) s
    have k1 := updRun_only c (fun r => { r with seen := r.seen ++ [(origin, step % 2 ^ 32, e % 2 ^ 32)] }) s
    generalize updRun c (fun r => { r with seen := r.seen ++ [(origin, step % 2 ^ 32, e % 2 ^ 32)] }) s = x at u1 k1 hk ⊢
    have f1 := flood_reaches c but (stretchMsg origin c e k step slot) x
    have k2 := (flood_spec c but (stretchMsg origin c e k step slot) x).1
    generalize flood c but (stretchMsg origin c e k step slot) x = y at f1 k2 hk ⊢
    have uc := u1 c
    rw [if_pos rfl, h] at uc
    have yc : ∀ j, getClient y j = getClient x j := fun j => getClient_congr (k2.clients (by decide)) j
    refine ⟨y, (k1.mono (by decide)).step k2 (by decide), by rw [yc, uc]; rfl, fun j hj => by rw [yc, u1, if_neg hj], ?_, ?_, ?_, ?_⟩
    · intro p hp hb
      have := f1 p (by rw [partitionPorts_congr (s := s) (by rw [uc])]; exact hp) hb
      rwa [portFor_congr (k1.wearS (by decide))] at this
    · rintro ⟨a, ha, he⟩
      rw [if_pos]
      simp only [List.any_eq_true, decide_eq_true_eq]
      exact ⟨a, ha, he⟩
    · intro hn hb
      have : (r.stretches.any fun x => decide (x.1 = e)) = false := by
        simp only [List.any_eq_false, decide_eq_true_eq]; exact hn
      rw [this]
      simp only [Bool.false_eq_true, if_false]
      rw [if_pos hb]
      exact ⟨_, (bumpDict_only (dkey 0x5000 0x16) 1 y).mono (by decide), raiseFault_raised _ _ _ _⟩
    · intro hn hb
      have hf : (r.stretches.any fun x => decide (x.1 = e)) = false := by
        simp only [List.any_eq_false, decide_eq_true_eq]; exact hn
      rw [hf] at hk ⊢
      simp only [Bool.false_eq_true, if_false] at hk ⊢
      rw [if_neg (Nat.not_le_of_lt hb)] at hk ⊢
      have v1 := updRun_getClient c (fun r => { r with stretches := insStretch (e, k) r.stretches }) y
      generalize updRun c (fun r => { r with stretches := insStretch (e, k) r.stretches }) y = z at v1 hk ⊢
      have b1 := bumpDict_only (dkey 0x5000 0x15) k z
      generalize bumpDict (dkey 0x5000 0x15) k z = z1 at b1 hk ⊢
      have b2 := bumpDict_only (dkey 0x5000 0x14) 1 z1
      generalize bumpDict (dkey 0x5000 0x14) 1 z1 = z2 at b2 hk ⊢
      have b3 := bumpLedger_only c 0x17 k z2
      generalize bumpLedger c 0x17 k z2 = z3 at b3 hk ⊢
      have zc : ∀ j, getClient z3 j = getClient z j := fun j => by
        rw [getClient_congr (b3.clients (by decide)), getClient_congr (b2.clients (by decide)), getClient_congr (b1.clients (by decide))]
      obtain ⟨-, c2, c3, c4⟩ := countStretch_spec c k z3
      generalize countStretch c k z3 = n at c2 c3 c4 hk ⊢
      have vc := v1 c
      rw [if_pos rfl, yc, uc] at vc
      refine ⟨?_, fun st hst => ?_, fun j hj => ?_, hk⟩
      · rw [c2, zc, vc]; rfl
      · have := c4 st (by rw [zc, vc]; exact hst)
        rwa [shareOf_congr (s := s) (by rw [zc, vc])] at this
      · rw [c3 j hj, zc, v1, if_neg hj, yc, u1, if_neg hj]

theorem lateSlot_late (c slot cause e : Nat) (port : Option Nat) (s : State) : LateSlot c slot cause e port s (lateSlot c slot cause e port s) := by
  unfold LateSlot lateSlot
  intro r hr
  rw [hr]
  dsimp only
  generalize hl : lateStep s c r = l
  obtain ⟨ab, idx⟩ := l
  dsimp only
  cases ab with
  | true => exact ⟨fun _ => rfl, fun h => absurd h (by decide)⟩
  | false =>
    refine ⟨fun h => absurd h (by decide), fun _ => ?_⟩
    rw [if_neg (by decide)]
    have k1 := post_only 0x0401 c (slot + 2 ^ 16 * cause + 2 ^ 20 * moduleId s) s
    generalize post 0x0401 c (slot + 2 ^ 16 * cause + 2 ^ 20 * moduleId s) s = s0 at k1 ⊢
    have k2 := bumpDict_only (dkey 0x5000 0x13) 1 s0
    have p2 := bumpDict_posted (dkey 0x5000 0x13) 1 s0
    generalize bumpDict (dkey 0x5000 0x13) 1 s0 = s1 at k2 p2 ⊢
    cases port with
    | none => exact ⟨s1, (k1.mono (by decide)).step k2 (by decide), p2, fun _ h => absurd h (by simp), applyStretch_stretched _ _ _ _ _ _ _ _⟩
    | some p =>
      refine ⟨_, ((k1.mono (by decide)).step k2 (by decide)).step (setBit_only (portStatus (portFor s p)) 23 s1) (by decide), ?_, ?_,
        applyStretch_stretched _ _ _ _ _ _ _ _⟩
      · rw [(setBit_only (portStatus (portFor s p)) 23 s1).host (by decide)]; exact p2
      · rintro _ ⟨⟩
        rw [setBit_getReg, if_pos rfl]
        exact bit_or_self _ _ (by decide)

theorem sendRecs_one (mtype p : Nat) (hm : mtype < 256) (s : State) : Only [.fabric, .free] s (sendRecs mtype [p] s) ∧
    ∃ m : Word × Word, fld m.1 0 8 = mtype ∧ PortIs s (sendRecs mtype [p] s) (portFor s p) { getPort s (portFor s p) with ctl := (getPort s (portFor s p)).ctl ++ [m] } := by
  have hk := (sendRecs_kept mtype [p] (Kept.rfl' s) (ks := [.fabric, .free]) (by decide)).only
  refine ⟨hk, ?_⟩
  obtain ⟨o1, o2⟩ := openMsg_spec mtype s hm
  unfold sendRecs
  rw [List.foldl_cons, List.foldl_nil]
  generalize openMsg mtype s = q at o1 o2 ⊢
  obtain ⟨m, s1⟩ := q
  dsimp only at o1 o2 ⊢
  refine ⟨m, o1, ?_⟩
  have := setPort_is (portFor s p) { getPort s1 (portFor s p) with ctl := (getPort s1 (portFor s p)).ctl ++ [m] } s1
  rw [getPort_congr (o2.fabric (by decide))] at this
  unfold sendCtl
  rw [getPort_congr (o2.fabric (by decide))]
  exact this.from (by rw [o2.fabric (by decide)])

theorem tryUp_upward (c slot : Nat) (y : State) : Upward c slot y (tryUp c slot y) := by
  unfold Upward
  cases h : (getClient y c).step with
  | none => exact ⟨fun _ => by unfold tryUp; rw [h], fun _ h => absurd h (by simp)⟩
  | some st =>
    refine ⟨fun h => absurd h (by simp), ?_⟩
    intro st' h' x x1 goes p
    cases h'
    have hx1 : (if (!x.own && st.opened.contains slot && !heldBack y c slot st) = true then
        { x with own := true, recs := mergeRecs x.recs (ownRecs y c slot st) } else x) = x1 := by
      show _ = (if _ then _ else _)
      refine if_congr ?_ rfl rfl
      simp [and_assoc]
    have hg : (x1.own && !x1.up && decide ((childPorts y c).length ≤ x1.kids)) = decide goes := by
      show _ = decide (_ ∧ _ ∧ _)
      cases x1.own <;> cases x1.up <;> simp
    have ht : tryUp c slot y = if goes then (if p = 63 then setCtl c slot { x1 with up := true } y
        else sendRecs 0x04 [p] (setCtl c slot { x1 with up := true } y)) else setCtl c slot x1 y := by
      unfold tryUp
      rw [h]
      show (fun z : Ctl => if (z.own && !z.up && decide ((childPorts y c).length ≤ z.kids)) = true then
        (if p = 63 then setCtl c slot { z with up := true } y else sendRecs 0x04 [p] (setCtl c slot { z with up := true } y))
        else setCtl c slot z y) (if (!x.own && st.opened.contains slot && !heldBack y c slot st) = true then
        { x with own := true, recs := mergeRecs x.recs (ownRecs y c slot st) } else x) = _
      rw [hx1]
      dsimp only
      rw [hg]
      by_cases hh : goes
      · rw [if_pos hh, if_pos (decide_eq_true hh)]
      · rw [if_neg hh, if_neg (by rw [decide_eq_false hh]; decide)]
    show (¬ goes → Stepped y (tryUp c slot y) c _ ∧ _) ∧ (goes → _)
    rw [ht]
    by_cases hh : goes
    · refine ⟨fun h => absurd hh h, fun _ => ?_⟩
      rw [if_pos hh]
      have u1 := updStep_stepped c (fun st => { st with ctl := mset {} st.ctl slot { x1 with up := true } }) y
      have k1 := updStep_only c (fun st => { st with ctl := mset {} st.ctl slot { x1 with up := true } }) y
      unfold setCtl
      generalize updStep c (fun st => { st with ctl := mset {} st.ctl slot { x1 with up := true } }) y = z at u1 k1 ⊢
      by_cases hp : p = 63
      · rw [if_pos hp]
        exact ⟨u1, k1.mono (by decide), fun _ => k1, fun h => absurd hp h⟩
      · rw [if_neg hp]
        obtain ⟨s1, m, s2, s3⟩ := sendRecs_one 4 p (by decide) z
        refine ⟨u1.post (ScopesOnly.of_eq (s1.clients (by decide))), (k1.mono (by decide)).step s1 (by decide), fun h => absurd h hp, fun _ => ⟨m, s2, ?_⟩⟩
        rw [portFor_congr (k1.wearS (by decide)), getPort_congr (k1.fabric (by decide))] at s3
        exact s3.from (by rw [k1.fabric (by decide)])
    · refine ⟨fun _ => ?_, fun h => absurd h hh⟩
      rw [if_neg hh]
      exact ⟨updStep_stepped _ _ _, updStep_only _ _ _⟩

theorem mem_getPort_ctxs (p : Ctx → Bool) (s : State) : ∀ x ∈ (freeCtxs p s).fabric.ctxs, p x.2 = false := by
  intro x hx
  unfold freeCtxs at hx
  dsimp only at hx
  generalize hy : ({ ((s.fabric.ctxs.filter fun x => p x.2).foldl _ s) with fabric := _ } : State) = y at hx
  have hyf : y.fabric.ctxs = (((s.fabric.ctxs.filter fun x => p x.2).foldl (fun s x => if x.2.bound then setVec (ctxTile (x.1 / 65536) x.2) { getVec s (ctxTile (x.1 / 65536) x.2) with bind := mset 0 (getVec s (ctxTile (x.1 / 65536) x.2)).bind x.2.xreg 0 } s else s) s).fabric.ctxs).filter (fun x => !p x.2) := by
    rw [← hy]
  have hk : ∀ (l : List Nat) (y : State), (l.foldl (fun t d => if (s.fabric.ctxs.filter fun x => p x.2).any (fun x => decide (x.1 / 65536 = d)) then countFree d t else t) y).fabric.ctxs = y.fabric.ctxs := by
    intro l
    induction l with
    | nil => intro y; rfl
    | cons a l ih =>
      intro y
      rw [List.foldl_cons, ih]
      split <;> rfl
  rw [hk, hyf] at hx
  have := (List.mem_filter.1 hx).2
  simpa using this

theorem closeStep_spec (c slot : Nat) (s : State) : (closeStep c slot s).rot.carry = 0 ∧
    (getClient (closeStep c slot s) c).debt = (getClient s c).debt + nth 0 (mget [] (getCtl s c slot).recs 1) 5 ∧
    (∀ x ∈ (closeStep c slot s).fabric.ctxs, ¬ (x.2.state = 3 ∧ x.2.client = c)) ∧
    Only [.dict, .tiles, .clients, .fabric, .rot] s (closeStep c slot s) := by
  have hk := (closeStep_kept c slot (Kept.rfl' s) (ks := [.dict, .tiles, .clients, .fabric, .rot]) (by decide)).only
  unfold closeStep at hk ⊢
  dsimp only at hk ⊢
  have f1 := freeCtxs_only (fun x => decide (x.state = 3) && decide (x.client = c)) s
  have f2 := mem_getPort_ctxs (fun x => decide (x.state = 3) && decide (x.client = c)) s
  generalize freeCtxs (fun x => decide (x.state = 3) && decide (x.client = c)) s = z at f1 f2 hk ⊢
  refine ⟨rfl, ?_, ?_, hk⟩
  · rw [getClient_setClient, if_pos rfl]
    dsimp only
    rw [getClient_congr (f1.clients (by decide))]
  · intro x hx
    have := f2 x hx
    simpa using this

theorem fld_setFld_off {w : Nat} (v : BitVec w) (lo n x lo' n' : Nat) (h : lo + n ≤ w) (hd : lo' + n' ≤ lo ∨ lo + n ≤ lo') :
    fld (setFld v lo n x) lo' n' = fld v lo' n' := by
  unfold fld
  apply Nat.eq_of_testBit_eq
  intro j
  rw [Nat.testBit_mod_two_pow, Nat.testBit_mod_two_pow, Nat.testBit_shiftRight, Nat.testBit_shiftRight]
  by_cases hj : j < n'
  · have := bit_setFld v lo n x (lo' + j) h
    unfold bit at this
    rw [if_neg (by omega)] at this
    simp only [hj, decide_true, Bool.true_and]
    simpa [BitVec.testBit_toNat] using this
  · simp [hj]

theorem collFault_faulted (d client code job ctx : Nat) (s : State) : CollFaulted d client code job ctx s (collFault d client code job ctx s) := by
  unfold collFault CollFaulted
  dsimp only
  have k1 := setReg_only (collBlk d 0) (setFld (setFld (setFld (getReg s (collBlk d 0)) 0 1 1) 1 4 code) 11 16 job) s
  have g1 := getReg_setReg s (collBlk d 0) (collBlk d 0) (setFld (setFld (setFld (getReg s (collBlk d 0)) 0 1 1) 1 4 code) 11 16 job)
  rw [if_pos rfl] at g1
  generalize setReg (collBlk d 0) (setFld (setFld (setFld (getReg s (collBlk d 0)) 0 1 1) 1 4 code) 11 16 job) s = s1 at k1 g1 ⊢
  have k2 := bumpDict_only (dkey 0x5100 0x09) 1 s1
  generalize bumpDict (dkey 0x5100 0x09) 1 s1 = y at k2 ⊢
  have g2 : getReg y (collBlk d 0) = setFld (setFld (setFld (getReg s (collBlk d 0)) 0 1 1) 1 4 code) 11 16 job :=
    (getReg_congr (k2.regs (by decide)) _).trans g1
  have k3 := raiseFault_raised client 0x0501 (code + 16 * job + 2 ^ 20 * ctx) y
  generalize raiseFault client 0x0501 (code + 16 * job + 2 ^ 20 * ctx) y = z at k3 ⊢
  refine ⟨y, z, (k1.mono (by decide)).step k2 (by decide), ⟨?_, ?_, ?_⟩, k3, updStep_only _ _ _, updStep_stepped _ _ _⟩
  · rw [g2, bit_setFld _ _ _ _ _ (by decide), if_neg (by decide), bit_setFld _ _ _ _ _ (by decide), if_neg (by decide),
      bit_setFld _ _ _ _ _ (by decide), if_pos (by decide)]
    decide
  · rw [g2, fld_setFld_off _ _ _ _ _ _ (by decide) (by decide), fld_setFld _ _ _ _ (by decide)]; rfl
  · rw [g2, fld_setFld _ _ _ _ (by decide)]; rfl

theorem sendRecs_sent (mtype : Nat) (hm : mtype < 256) (ps : List Nat) (s : State) : SentTo mtype ps s (sendRecs mtype ps s) ∧
    Only [.fabric, .free] s (sendRecs mtype ps s) := by
  refine ⟨?_, (sendRecs_kept mtype ps (Kept.rfl' s) (by decide)).only⟩
  unfold sendRecs SentTo
  have key : ∀ (l : List Nat) (y : State), y.wearS = s.wearS →
      let n := l.foldl (fun s p => let (m, s1) := openMsg mtype s; sendCtl (portFor s p) m s1) y
      (∀ q m, m ∈ (getPort y q).ctl → m ∈ (getPort n q).ctl) ∧
      ∀ p ∈ l, ∃ m : Word × Word, fld m.1 0 8 = mtype ∧ m ∈ (getPort n (portFor s p)).ctl := by
    intro l
    induction l with
    | nil => intro y _; exact ⟨fun _ _ h => h, fun p hp => by simp at hp⟩
    | cons a l ih =>
      intro y hy
      dsimp only
      rw [List.foldl_cons]
      obtain ⟨o1, o2⟩ := openMsg_spec mtype y hm
      generalize openMsg mtype y = q at o1 o2 ⊢
      obtain ⟨m, y1⟩ := q
      dsimp only at o1 o2 ⊢
      have kc := sendCtl_only (portFor y a) m y1
      obtain ⟨i1, i2⟩ := ih (sendCtl (portFor y a) m y1) (by rw [kc.wearS (by decide), o2.wearS (by decide), hy])
      refine ⟨fun q x hx => i1 q x (sendCtl_mono _ _ _ _ _ (by rw [getPort_congr (o2.fabric (by decide))]; exact hx)), fun p hp => ?_⟩
      rcases List.mem_cons.1 hp with rfl | hp
      · refine ⟨m, o1, i1 _ _ ?_⟩
        rw [← portFor_congr hy]
        exact sendCtl_mem _ _ _
      · exact i2 p hp
  exact (key ps s rfl).2

theorem completes_none (l : List Nat) : ∀ (s : State), let n := l.foldl (fun s i => complete i s) s
    (∀ k, findFlight s k = none → findFlight n k = none) ∧ (∀ k ∈ l, findFlight n k = none) ∧
    (∀ k, k ∉ l → findFlight n k = findFlight s k) ∧ Only [.plates] s n := by
  induction l with
  | nil => intro s; exact ⟨fun _ h => h, fun k hk => by simp at hk, fun _ _ => rfl, Only.rfl' s⟩
  | cons a l ih =>
    intro s
    dsimp only
    rw [List.foldl_cons]
    have hc := complete_completed a s
    have ho := complete_only a s
    generalize complete a s = y at hc ho ⊢
    obtain ⟨i1, i2, i3, i4⟩ := ih y
    obtain ⟨c1, c2, -, -⟩ := hc
    refine ⟨fun k hk => i1 k ?_, fun k hk => ?_, fun k hk => ?_, ho.trans i4⟩
    · by_cases h : k = a
      · subst h; exact c1
      · rw [c2 k h]; exact hk
    · rcases List.mem_cons.1 hk with rfl | hk
      · exact i1 _ c1
      · exact i2 k hk
    · rw [List.mem_cons, not_or] at hk
      rw [i3 k hk.2, c2 k hk.1]

/-- Gates of a slot settled. -/
theorem settleGates_spec (c slot : Nat) (s : State) (st : StepSt) (hs : (getClient s c).step = some st) (hd : (mget {} st.ctl slot).down = true) :
    let skip := (nth 0 (mget [] (mget {} st.ctl slot).recs 0) 0).testBit 1
    let mine := (st.gates.filter fun g => decide (g.cslot = slot) && g.outcome.isNone).map (·.id)
    let n := settleGates c slot s
    Only [.regs, .dict, .sat, .plates, .clients, .host, .logs] s n ∧
    Stepped s n c (fun st => { st with gates := st.gates.map fun g => if g.cslot = slot ∧ g.outcome.isNone then { g with outcome := some skip } else g }) ∧
    (∀ i ∈ mine, findFlight n i = none) ∧ ∀ i, i ∉ mine → findFlight n i = findFlight s i := by
  intro skip mine n
  have hk : Only [.regs, .dict, .sat, .plates, .clients, .host, .logs] s n := (settleGates_kept c slot (Kept.rfl' s) (by decide)).only
  refine ⟨hk, ?_⟩
  have hn : n = settleGates c slot s := rfl
  clear_value n
  unfold settleGates at hn
  rw [hs] at hn
  dsimp only at hn
  by_cases hm : st.gates.filter (fun g => decide (g.cslot = slot) && g.outcome.isNone) = []
  · rw [if_pos (Or.inr hm)] at hn
    have : mine = [] := by show List.map _ _ = []; rw [hm]; rfl
    rw [this, hn]
    refine ⟨?_, fun i hi => by simp at hi, fun _ _ => rfl⟩
    intro k
    by_cases hkc : k = c
    · subst hkc
      rw [if_pos rfl]
      have : (getClient s k).step.map (fun st => { st with gates := st.gates.map fun g => if g.cslot = slot ∧ g.outcome.isNone then { g with outcome := some skip } else g }) = (getClient s k).step := by
        rw [hs, Option.map_some]
        congr 1
        have : st.gates.map (fun g => if g.cslot = slot ∧ g.outcome.isNone then { g with outcome := some skip } else g) = st.gates := by
          conv_rhs => rw [← List.map_id st.gates]
          apply List.map_congr_left
          intro g hg
          rw [if_neg]; · rfl
          intro hh
          have := List.filter_eq_nil_iff.1 hm g hg
          simp [hh.1, hh.2] at this
        rw [this]
      rw [this]
    · rw [if_neg hkc]
  · rw [if_neg (by simp [hd, hm])] at hn
    let f : StepSt → StepSt := fun st => { st with gates := st.gates.map fun g => if g.cslot = slot ∧ g.outcome.isNone then { g with outcome := some skip } else g }
    have u1 := updStep_stepped c f s
    have k1 := updStep_only c f s
    change n = (List.foldl (fun s (g : GateSt) => complete g.id s) (if _ then bumpDict _ 1 (List.foldl _ (updStep c f s) _) else (updStep c f s)) _) at hn
    generalize updStep c f s = s1 at u1 k1 hn
    have hy : ∃ y, n = (st.gates.filter fun g => decide (g.cslot = slot) && g.outcome.isNone).foldl (fun s (g : GateSt) => complete g.id s) y ∧
        Only [.regs, .dict, .sat, .host, .logs] s1 y := by
      refine ⟨_, hn, ?_⟩
      split
      · exact Only.step ((Only.foldl (fun s d => setBit_only _ _ _) _ _).mono (by decide)) (bumpDict_only _ _ _) (by decide)
      · exact Only.rfl' _
    clear hn
    obtain ⟨y, hn, ky⟩ := hy
    have hn : n = mine.foldl (fun s i => complete i s) y := hn.trans (List.foldl_map (f := GateSt.id) (g := fun s i => complete i s)).symm
    obtain ⟨-, c2, c3, c4⟩ := completes_none mine y
    rw [hn]
    refine ⟨u1.post (ScopesOnly.of_eq ?_), c2, fun i hi => ?_⟩
    · rw [c4.clients (by decide), ky.clients (by decide)]
    · rw [c3 i hi, findFlight_congr (ky.plates (by decide)), findFlight_congr (k1.plates (by decide))]

theorem closingChecks_spec (c : Nat) (recs : SMap (List Nat)) (g : State) : ∃ a b,
    let d := ((List.range 4).find? (hasDie (getClient g c))).getD 0
    let p := mget [] recs 1
    let q := mget [] recs 2
    let n := closingChecks c recs g
    (if nth 0 p 1 = 0xFFFFFFFF - nth 0 p 2 then a = g else CollFaulted d c 6 ((getClient g c).job % 65536) 0 g a) ∧
    (if nth 0 p 3 = 0xFFFFFFFF - nth 0 p 4 then b = a else ∃ z, Only [.dict, .sat, .host, .logs] a z ∧ Raised z b 0x0405 c 2) ∧
    (if nth 0 q 1 = 0xFFFFFFFF - nth 0 q 2 then n = b else Raised b n 0x0504 c c) := by
  have h1 : ∃ a, a = (if nth 0 (mget [] recs 1) 1 = 0xFFFFFFFF - nth 0 (mget [] recs 1) 2 then g
      else collFault (((List.range 4).find? (hasDie (getClient g c))).getD 0) c 6 ((getClient g c).job % 65536) 0 g) := ⟨_, rfl⟩
  obtain ⟨a, ha⟩ := h1
  have h2 : ∃ b, b = (if nth 0 (mget [] recs 1) 3 = 0xFFFFFFFF - nth 0 (mget [] recs 1) 4 then a else fabricFault c 0x0405 2 a) := ⟨_, rfl⟩
  obtain ⟨b, hb⟩ := h2
  have hn : closingChecks c recs g = (if nth 0 (mget [] recs 2) 1 = 0xFFFFFFFF - nth 0 (mget [] recs 2) 2 then b else raiseFault c 0x0504 c b) := by
    rw [hb, ha]; rfl
  rw [hn]
  refine ⟨a, b, ?_, ?_, ?_⟩
  · rw [ha]
    split
    · rfl
    · exact collFault_faulted _ _ _ _ _ _
  · rw [hb]
    split
    · rfl
    · exact ⟨_, bumpDict_only _ _ _, raiseFault_raised _ _ _ _⟩
  · split
    · rfl
    · exact raiseFault_raised _ _ _ _

end Sys2Proof.Machine
end

