-- ==== Sys2Proof/Laws/Spares.lean ====
section
/-! SUPPORT. Ports and spares: packets, credits, lane swaps, remaps, recorded swaps (R274, R275, R292, R293, R433). -/

set_option Elab.async false

namespace Sys2Proof.Machine

theorem bumpDict_countUp (k n : Nat) (s : State) : getDict (bumpDict k n s) k = countUp 64 (getDict s k) n := by
  rw [bumpDict_getDict, if_pos rfl]; rfl

theorem recordSwap_recorded (kind die unit frm dst cause row : Nat) (s : State) :
    SwapRecorded kind die unit frm dst cause row s (recordSwap kind die unit frm dst cause row s) := by
  have hk := (recordSwap_kept kind die unit frm dst cause row (Kept.rfl' s) (ks := [.dict, .sat, .wearS, .host, .logs]) (by decide)).only
  unfold SwapRecorded
  intro l w0 w1
  have hn : recordSwap kind die unit frm dst cause row s = if 1024 ≤ l.length then bumpDict (dkey 0x8000 0x0F) 1 s
      else post 0x0901 16 (l.length + 2 ^ 10 * (w0.toNat % 2 ^ 54)) (setErrata (l ++ [{ w0 := w0, w1 := w1 }]) (bumpDict (dkey 0x8000 0x0F) 1 s)) := rfl
  rw [hn] at hk ⊢
  clear hn
  have kb := bumpDict_only (dkey 0x8000 0x0F) 1 s
  have gb := bumpDict_countUp (dkey 0x8000 0x0F) 1 s
  generalize bumpDict (dkey 0x8000 0x0F) 1 s = y at kb gb hk ⊢
  by_cases h : 1024 ≤ l.length
  · rw [if_pos h] at hk ⊢
    exact ⟨gb, hk, fun _ => kb.wearS (by decide), fun h' => absurd h' (by omega)⟩
  · rw [if_neg h] at hk ⊢
    refine ⟨?_, hk, fun h' => absurd h' h, fun _ => ⟨_, rfl, ?_, ?_⟩⟩
    · rw [getDict_congr (post_dict _ _ _ _)]
      unfold setErrata
      rw [getDict_setDict, if_neg (dkey_ne (by decide) (by decide) (by decide)), getDict_setDict, if_neg (dkey_ne (by decide) (by decide) (by decide))]
      exact gb
    · rw [← kb.wearS (by decide)]; rfl
    · unfold setErrata
      rw [getDict_setDict, if_pos rfl, List.length_append]
      rfl

theorem returnCredit_returned (b : Option (Nat × Nat)) (s : State) : CreditReturned b s (returnCredit b s) := by
  unfold CreditReturned
  cases b with
  | none => exact ⟨fun _ => rfl, fun _ h => absurd h (by simp)⟩
  | some q =>
    refine ⟨fun h => absurd h (by simp), fun q' hq => ?_⟩
    cases hq
    obtain ⟨p, v⟩ := q
    unfold returnCredit
    dsimp only
    obtain ⟨o1, o2⟩ := openMsg_spec 6 s (by decide)
    generalize openMsg 6 s = r at o1 o2 ⊢
    obtain ⟨m, s1⟩ := r
    dsimp only at o1 o2 ⊢
    refine ⟨(o2.mono (by decide)).step (sendCtl_only _ _ _) (by decide), m, o1, ?_⟩
    have := setPort_is p { getPort s1 p with ctl := (getPort s1 p).ctl ++ [m] } s1
    unfold sendCtl
    rw [getPort_congr (o2.fabric (by decide))] at this ⊢
    exact this.from (by rw [o2.fabric (by decide)])

theorem fld_or_bit (v : Word) (i lo n : Nat) (h : i < 64) (hi : i < lo ∨ lo + n ≤ i) : fld (v ||| 1#64 <<< i) lo n = fld v lo n := by
  unfold fld
  apply Nat.eq_of_testBit_eq
  intro j
  rw [Nat.testBit_mod_two_pow, Nat.testBit_mod_two_pow, Nat.testBit_shiftRight, Nat.testBit_shiftRight]
  by_cases hj : j < n
  · have h1 : (1#64 <<< i).getLsbD (lo + j) = false := by
      rw [BitVec.getLsbD_shiftLeft]
      simp
      omega
    rw [BitVec.testBit_toNat, BitVec.testBit_toNat, BitVec.getLsbD_or, h1, Bool.or_false]
  · simp [hj]

end Sys2Proof.Machine
end

