-- ==== Sys2Proof/Laws/Vector.lean ====
section
/-! SUPPORT. What vector instructions do, once for each shape: the registers they write, and the state they leave. -/

set_option Elab.async false

namespace Sys2Proof.Machine

theorem getV_setV (v : VecS) (r q : Nat) (x : VReg) : getV (setV v r x) q = if q = r then x else getV v q := by
  unfold getV setV
  generalize zeroV = z
  simp [mget_mset]

theorem getX_setX (v : VecS) (r q : Nat) (x : XVec) : getX (setX v r x) q = if q = r then x else getX v q := by
  unfold getX setX
  generalize zeroX = z
  simp [mget_mset]

theorem setV_frame (v : VecS) (r : Nat) (x : VReg) : setV v r x = { v with v := (setV v r x).v } := rfl
theorem setX_frame (v : VecS) (r : Nat) (x : XVec) : setX v r x = { v with x := (setX v r x).x } := rfl

@[simp] theorem setV_block (v : VecS) (r : Nat) (x : VReg) : (setV v r x).block = v.block := rfl
@[simp] theorem setX_block (v : VecS) (r : Nat) (x : XVec) : (setX v r x).block = v.block := rfl
@[simp] theorem setM_block (v : VecS) (r : Nat) (x : Mask) : (setM v r x).block = v.block := rfl
@[simp] theorem writeV_block (w : Word) (f : Fin 512 → Lane) (v : VecS) : (writeV w f v).block = v.block := by
  unfold writeV; rw [setV_block]
@[simp] theorem writeX_block (w : Word) (f : Fin 512 → XReg → XReg) (v : VecS) : (writeX w f v).block = v.block := by
  unfold writeX; rw [setX_block]
@[simp] theorem writeM_block (w : Word) (x : Mask) (v : VecS) : (writeM w x v).block = v.block := by
  unfold writeM; rw [setM_block]

theorem ofFn_get {α : Type} {n : Nat} (f : Fin n → α) (i : Fin n) : (Vector.ofFn f).get i = f i := by
  simp [Vector.get]
  rfl

theorem writeV_wrote (w : Word) (f : Fin 512 → Lane) (v : VecS) : WroteV w f v (writeV w f v) := by
  unfold writeV
  refine ⟨fun i => ?_, fun r hr => ?_, setV_frame _ _ _⟩
  · simp only [getV_setV, if_pos, ofFn_get]
  · simp only [getV_setV, if_neg hr]

theorem writeX_wrote (w : Word) (f : Fin 512 → XReg → XReg) (v : VecS) : WroteX w f v (writeX w f v) := by
  unfold writeX
  refine ⟨fun i => ?_, fun r hr => ?_, setX_frame _ _ _⟩
  · simp only [getX_setX, if_pos, ofFn_get]
  · simp only [getX_setX, if_neg hr]

/-- An instruction that is done has run: the engine is past it, has counted it, and has charged a busy cycle. -/
theorem runInstr_done {o : Nat} {t : TileId} {w : Word} {u : List Upset} {s : State} {k : State → IRes} {x : State}
    (h : s.NextInstr t w o) (hk : k (s.operands t w u) = .done x) :
    runInstr o t w u s k = .next (charge (.vector t) 0x00 (retire t x)) := by
  obtain ⟨ho, b, hb, hw⟩ := h
  unfold State.operands at hk
  simp [runInstr, hb, hw, ho, hk]

/-- What moving past an instruction that left tile t's engine as v does, if it changed nothing else but accounts. -/
theorem retire_step {t : TileId} {s x : State} {v : VecS}
    (ht : getTile x t = { getTile s t with vec := v }) (ho : ∀ u : TileId, u ≠ t → getTile x u = getTile s u)
    (hb : v.block = (getVec s t).block) (hr : getReg x (vecBlk t 0x028) = getReg s (vecBlk t 0x028))
    (hg : ∀ a, a ∉ vecRegs t → getReg x a = getReg s a) (hf : x = { s.accounts x with tiles := x.tiles }) :
    VecStep s (charge (.vector t) 0x00 (retire t x)) t v := by
  refine ⟨?_, fun u hu => ?_, ?_, fun a ha => ?_, ?_⟩
  · rw [getTile_congr (charge_tiles _ _ _), retire, getTile_congr (bump_tiles _ _ _ _)]
    simp [setVec, getVec, ht, show v.block = (getTile s t).vec.block from hb]
  · rw [getTile_congr (charge_tiles _ _ _), retire, getTile_congr (bump_tiles _ _ _ _)]
    simp [setVec, hu, ho u hu]
  · rw [charge_getReg, if_neg, retire, bump_getReg, if_pos (by simp only [vecBlk, tileBlk])]
    · exact congrArg (stickyAdd 64 · 1) hr
    · simp only [vecBlk, stallBlk, pltBlk, tileBlk]; omega
  · rw [charge_getReg, if_neg, retire, bump_getReg, if_neg]
    · exact hg a ha
    · rintro rfl; exact ha (by simp [vecRegs, vecBlk, tileBlk])
    · rintro rfl; exact ha (by simp [vecRegs])
  · have h1 : charge (.vector t) 0x00 (retire t x) =
        { x.accounts (charge (.vector t) 0x00 (retire t x)) with tiles := (charge (.vector t) 0x00 (retire t x)).tiles } := by
      apply State.ext_fields <;> simp [retire, setVec]
    exact h1.trans (congrArg (fun y : State => { y.accounts (charge (.vector t) 0x00 (retire t x)) with
      tiles := (charge (.vector t) 0x00 (retire t x)).tiles }) hf)

/-- An instruction that only changes vector state (R108, R112). -/
theorem runLane_step {o : Nat} {t : TileId} {w : Word} {u : List Upset} {s : State} {f : VecS → VecS}
    (h : s.NextInstr t w o) (hb : ∀ v, (f v).block = v.block) :
    ∃ n, runLane o t w u s f = .next n ∧ VecStep (s.operands t w u) n t (f (getVec (s.operands t w u) t)) := by
  refine ⟨_, runInstr_done h rfl, retire_step ?_ (fun x hx => ?_) (hb _) rfl (fun _ _ => rfl) rfl⟩
  · simp [setVec]
  · simp [setVec, hx]

theorem stickyAdd_zero {n : Nat} (x : BitVec n) : stickyAdd n x 0 = x := by
  simp [stickyAdd, x.isLt]

theorem countNf_getReg (t : TileId) (k a : Nat) (s : State) :
    getReg (countNf t k s) a =
      if a = vecBlk t 0x008 then stickyAdd 64 (getReg s a) k
      else if a = vecBlk t 0 then getReg s a ||| (if k = 0 then 0 else 1) else getReg s a := by
  unfold countNf
  have h : vecBlk t 0x008 = vecBlk t 0 + 0x008 := by simp only [vecBlk, tileBlk]
  have h' : vecBlk t 0x008 ≠ vecBlk t 0 := by omega
  by_cases hk : k = 0
  · subst hk
    simp [stickyAdd_zero]
  · rw [if_neg hk]
    rw [bump_getReg, ← h, setBit_getReg, setBit_getReg, if_neg h']
    split
    · rename_i ha; rw [ha]
    · split
      · rename_i ha; rw [ha]; rfl
      · rfl

theorem countNf_tiles (t : TileId) (k : Nat) (s : State) : (countNf t k s).tiles = s.tiles := by
  unfold countNf
  by_cases hk : k = 0
  · rw [if_pos hk]
  · rw [if_neg hk, bump_tiles, setBit_tiles]

theorem countNf_accounts (t : TileId) (k : Nat) (s : State) : countNf t k s = s.accounts (countNf t k s) := by
  unfold countNf
  by_cases hk : k = 0
  · rw [if_pos hk]; rfl
  · rw [if_neg hk]; exact State.accounts_trans (setBit_accounts _ _ _) (bump_accounts _ _ _ _)

/-- What charge and retire leave of a status or count other than the instruction counter. -/
theorem retire_getReg {t : TileId} {x : State} {a : Nat} (h1 : a ≠ stallBlk (.vector t)) (h2 : a ≠ vecBlk t 0x028) :
    getReg (charge (.vector t) 0x00 (retire t x)) a = getReg x a := by
  rw [charge_getReg, if_neg (by simpa using h1), retire, bump_getReg, if_neg]
  · rfl
  · rintro rfl; exact h2 (by simp [vecBlk, tileBlk])

/-- An FP32 instruction: what it writes and what it counts (R116, R118). -/
theorem runFp_step {o : Nat} {t : TileId} {w : Word} {u : List Upset} {s : State} {f : VecS → Fin 512 → Lane}
    {fin : VecS → Fin 512 → Bool} (h : s.NextInstr t w o) :
    ∃ n v', runFp o t w u s f fin = .next n ∧ VecStep (s.operands t w u) n t v' ∧
      WroteV w (f (getVec (s.operands t w u) t)) (getVec (s.operands t w u) t) v' ∧
      CountedNf (s.operands t w u) n t
        (nfCount (getVec (s.operands t w u) t) w (f (getVec (s.operands t w u) t)) (fin (getVec (s.operands t w u) t))) := by
  generalize hs : s.operands t w u = s0
  let v := getVec s0 t
  have hg : ∀ v, (Vector.ofFn (f v)).get = f v := fun v => funext (ofFn_get _)
  refine ⟨_, writeV w (f v) v, runInstr_done h (by rw [hs]), ?_, writeV_wrote _ _ _, ?_⟩
  · simp only [hg]
    refine retire_step (by rw [getTile_congr (countNf_tiles _ _ _)]; simp [setVec, v])
      (fun x hx => by rw [getTile_congr (countNf_tiles _ _ _)]; simp [setVec, hx]) (writeV_block _ _ _) ?_ (fun a ha => ?_) ?_
    · rw [countNf_getReg, if_neg, if_neg]
      · rfl
      · unfold vecBlk tileBlk; omega
      · unfold vecBlk tileBlk; omega
    · rw [countNf_getReg, if_neg, if_neg]
      · rfl
      · rintro rfl; exact ha (by simp [vecRegs])
      · rintro rfl; exact ha (by simp [vecRegs])
    · exact State.accounts_tiles (countNf_accounts _ _ _) rfl
  · simp only [hg]
    constructor
    · rw [retire_getReg, countNf_getReg, if_pos rfl]
      · rfl
      · simp only [vecBlk, stallBlk, pltBlk, tileBlk]; omega
      · simp only [vecBlk, tileBlk]; omega
    · rw [retire_getReg, countNf_getReg, if_neg, if_pos rfl]
      · rfl
      · simp only [vecBlk, tileBlk]; omega
      · simp only [vecBlk, stallBlk, pltBlk, tileBlk]; omega
      · simp only [vecBlk, tileBlk]; omega

/-- A mask bit of a test. -/
theorem maskOf_getLsbD (f : Nat → Bool) (i : Nat) : (maskOf f).getLsbD i = (decide (i < 512) && f i) := by
  have key : ∀ n, (((List.range n).foldl (fun n i => if f i then n + 2 ^ i else n) 0) < 2 ^ n) ∧
      ∀ i, (((List.range n).foldl (fun n i => if f i then n + 2 ^ i else n) 0).testBit i) = (decide (i < n) && f i) := by
    intro n
    induction n with
    | zero => simp
    | succ n ih =>
      obtain ⟨h1, h2⟩ := ih
      rw [List.range_succ, List.foldl_append]
      generalize (List.range n).foldl (fun n i => if f i then n + 2 ^ i else n) 0 = a at h1 h2
      simp only [List.foldl_cons, List.foldl_nil]
      split
      · rename_i hf
        refine ⟨by rw [Nat.pow_succ]; omega, fun i => ?_⟩
        rcases Nat.lt_trichotomy i n with hi | hi | hi
        · rw [Nat.add_comm, Nat.testBit_two_pow_add_gt hi, h2]
          have : i < n + 1 := by omega
          simp [hi, this]
        · subst hi
          rw [Nat.add_comm, Nat.testBit_two_pow_add_eq, h2]
          simp [hf]
        · rw [Nat.testBit_lt_two_pow]
          · have : ¬ i < n + 1 := by omega
            simp [this]
          · calc a + 2 ^ n < 2 ^ (n + 1) := by rw [Nat.pow_succ]; omega
              _ ≤ 2 ^ i := Nat.pow_le_pow_right (by omega) (by omega)
      · rename_i hf
        refine ⟨by rw [Nat.pow_succ]; omega, fun i => ?_⟩
        rw [h2]
        by_cases hi : i = n
        · subst hi; simp [hf]
        · have : (i < n + 1) = (i < n) := by apply propext; omega
          simp [this]
  rw [maskOf, BitVec.getLsbD_ofNat, (key 512).2]
  simp

theorem getM_setM (v : VecS) (r q : Nat) (x : Mask) :
    getM (setM v r x) q = if q = 0 then BitVec.allOnes 512 else if q = r then x else getM v q := by
  unfold getM setM
  split
  · rfl
  · simp [mget_mset]

theorem setM_frame (v : VecS) (r : Nat) (x : Mask) : setM v r x = { v with m := (setM v r x).m } := rfl

theorem writeM_wrote {w : Word} {x : Mask} {v : VecS} {f : Nat → Bool} (h : ∀ i, i < 512 → x.getLsbD i = f i) :
    WroteM w f v (writeM w x v) := by
  unfold writeM
  refine ⟨fun i hi => ?_, fun r hr => ?_, setM_frame _ _ _⟩
  · rw [getM_setM]
    by_cases h0 : iVd w % 8 = 0
    · rw [if_pos h0, if_pos h0, BitVec.getLsbD_allOnes, decide_eq_true hi]
    · rw [if_neg h0, if_pos rfl, if_neg h0, ← h i hi]
      generalize laneMask v w = m, getM v (iVd w % 8) = old
      cases iMz w <;> cases hm : m.getLsbD i <;> rw [BitVec.getLsbD_eq_getElem hi] at hm <;> simp [hi, hm]
  · rw [getM_setM, if_neg hr]
    split
    · rename_i h0; subst h0; simp [getM]
    · rfl

/-- An instruction that writes a vector register. -/
theorem runLane_wroteV {o : Nat} {t : TileId} {w : Word} {u : List Upset} {s : State} {f : VecS → Fin 512 → Lane}
    (h : s.NextInstr t w o) :
    ∃ n v', runLane o t w u s (fun v => writeV w (f v) v) = .next n ∧ VecStep (s.operands t w u) n t v' ∧
      WroteV w (f (getVec (s.operands t w u) t)) (getVec (s.operands t w u) t) v' := by
  obtain ⟨n, hn, hs⟩ := runLane_step (f := fun v => writeV w (f v) v) h (fun v => writeV_block _ _ _)
  exact ⟨n, _, hn, hs, writeV_wrote _ _ _⟩

/-- An instruction that writes a mask register. -/
theorem runLane_wroteM {o : Nat} {t : TileId} {w : Word} {u : List Upset} {s : State} {x : VecS → Mask}
    {f : VecS → Nat → Bool} (h : s.NextInstr t w o) (hx : ∀ v i, i < 512 → (x v).getLsbD i = f v i) :
    ∃ n v', runLane o t w u s (fun v => writeM w (x v) v) = .next n ∧ VecStep (s.operands t w u) n t v' ∧
      WroteM w (f (getVec (s.operands t w u) t)) (getVec (s.operands t w u) t) v' := by
  obtain ⟨n, hn, hs⟩ := runLane_step (f := fun v => writeM w (x v) v) h (fun v => writeM_block _ _ _)
  exact ⟨n, _, hn, hs, writeM_wrote (hx _)⟩

/-- An instruction that writes an exact register. -/
theorem runLane_wroteX {o : Nat} {t : TileId} {w : Word} {u : List Upset} {s : State} {f : VecS → Fin 512 → XReg → XReg}
    (h : s.NextInstr t w o) :
    ∃ n v', runLane o t w u s (fun v => writeX w (f v) v) = .next n ∧ VecStep (s.operands t w u) n t v' ∧
      WroteX w (f (getVec (s.operands t w u) t)) (getVec (s.operands t w u) t) v' := by
  obtain ⟨n, hn, hs⟩ := runLane_step (f := fun v => writeX w (f v) v) h (fun v => writeX_block _ _ _)
  exact ⟨n, _, hn, hs, writeX_wrote _ _ _⟩

theorem countVSat_tiles (t : TileId) (k : Nat) (s : State) : (countVSat t k s).tiles = s.tiles := by
  unfold countVSat
  by_cases hk : k = 0
  · rw [if_pos hk]
  · rw [if_neg hk, bump_tiles]

theorem countVSat_accounts (t : TileId) (k : Nat) (s : State) : countVSat t k s = s.accounts (countVSat t k s) := by
  unfold countVSat
  by_cases hk : k = 0
  · rw [if_pos hk]; rfl
  · rw [if_neg hk]; exact bump_accounts _ _ _ _

theorem countVSat_getReg (t : TileId) (k a : Nat) (s : State) :
    getReg (countVSat t k s) a = if a = vecBlk t 0x010 then stickyAdd 64 (getReg s a) k else getReg s a := by
  unfold countVSat
  have h : vecBlk t 0x010 = vecBlk t 0 + 0x010 := by simp only [vecBlk, tileBlk]
  by_cases hk : k = 0
  · subst hk
    simp [stickyAdd_zero]
  · rw [if_neg hk, bump_getReg, ← h]
    split
    · rename_i ha; rw [ha]
    · rfl

/-! ### Streams and draws -/

theorem afterDraw_tile (t : TileId) (s : State) : getTile (afterDraw t s) t =
    { getTile s t with vec := { getVec s t with ctx := { (getVec s t).ctx with d := ((getVec s t).ctx.d + 1) % 16384 } } } := by
  simp only [afterDraw]
  split
  · rw [getTile_congr (post_tiles _ _ _ _), getTile_congr (setBit_tiles _ _ _), getTile_congr (bump_tiles _ _ _ _)]
    simp [setVec]
  · rw [getTile_congr (bump_tiles _ _ _ _)]
    simp [setVec]

theorem afterDraw_other {t y : TileId} (h : y ≠ t) (s : State) : getTile (afterDraw t s) y = getTile s y := by
  simp only [afterDraw]
  split
  · rw [getTile_congr (post_tiles _ _ _ _), getTile_congr (setBit_tiles _ _ _), getTile_congr (bump_tiles _ _ _ _)]
    simp [setVec, h]
  · rw [getTile_congr (bump_tiles _ _ _ _)]
    simp [setVec, h]

theorem afterDraw_frame (t : TileId) (s : State) :
    afterDraw t s = { s.accounts (afterDraw t s) with tiles := (afterDraw t s).tiles } := by
  simp only [afterDraw]
  split
  · exact State.accounts_tiles (State.accounts_trans (State.accounts_trans (bump_accounts _ _ _ _) (setBit_accounts _ _ _))
      (post_accounts _ _ _ _)) rfl
  · exact State.accounts_tiles (bump_accounts _ _ _ _) rfl

theorem afterDraw_getReg (t : TileId) (s : State) (a : Nat) (h1 : a ≠ vecBlk t 0x000) (h2 : a ≠ vecBlk t 0x020) :
    getReg (afterDraw t s) a = getReg s a := by
  have h : vecBlk t 0x020 = vecBlk t 0 + 0x020 := by simp only [vecBlk, tileBlk]
  simp only [afterDraw]
  split
  · rw [getReg_congr (post_regs _ _ _ _), setBit_getReg, if_neg h1, bump_getReg, ← h, if_neg h2]; rfl
  · rw [bump_getReg, ← h, if_neg h2]; rfl

theorem govFlag_accounts (d slot bits : Nat) (s : State) : govFlag d slot bits s = s.accounts (govFlag d slot bits s) := by
  unfold govFlag
  split
  · rfl
  · exact orReg_accounts _ _ _

theorem govFlag_tiles (d slot bits : Nat) (s : State) : (govFlag d slot bits s).tiles = s.tiles :=
  State.eq_tiles (govFlag_accounts _ _ _ _)

/-- Accounts and scope words: what a producer's flags may change. -/
theorem producerFlags_frame (c d slot bits : Nat) (r : RowOut) (s : State) :
    producerFlags c d slot bits r s = { s.accounts (producerFlags c d slot bits r s) with
      clients := (producerFlags c d slot bits r s).clients } := by
  have h : ∀ (c : Nat) (b : BitVec 32) (x : State), x = { s.accounts x with clients := x.clients } →
      setScope c b x = { s.accounts (setScope c b x) with clients := (setScope c b x).clients } := by
    intro c b x hx
    have hs := setScope_frame c b x
    revert hs
    generalize setScope c b x = z
    intro hs
    cases s; cases x; cases z; simp_all [State.accounts]
  have hg : ∀ z, z = s.accounts z → z = { s.accounts z with clients := z.clients } := by
    intro z hz
    exact hz.trans (congrArg (fun cl => { s.accounts z with clients := cl }) (State.eq_clients hz).symm)
  unfold producerFlags
  have hz := hg _ (govFlag_accounts d slot (runFlags s d slot r ||| bits) s)
  revert hz
  generalize govFlag d slot (runFlags s d slot r ||| bits) s = z
  intro hz
  dsimp only
  split <;> split <;> first | exact hz | exact h _ _ _ hz | exact h _ _ _ (h _ _ _ hz)

end Sys2Proof.Machine
end

