-- ==== Sys2Proof/Laws/Collective.lean ====
section
/-! SUPPORT. Collective engines: contexts armed, sends, gates, commits, arrivals (R297, R300, R304, R313, R318). -/

set_option Elab.async false

namespace Sys2Proof.Machine

theorem setCtx_getCtx (k : Nat) (x : Ctx) (s : State) (j : Nat) : getCtx (setCtx k x s) j = if j = k then x else getCtx s j := mget_mset _ _ _ _ _

/-- Contexts set one after the other at consecutive keys. -/
theorem setCtxs_spec (d first : Nat) (f : Nat → Ctx) : ∀ (num : Nat) (_ : first + num ≤ 65536) (s : State),
    let n := (List.range num).foldl (fun s i => setCtx (ctxKey d (first + i)) (f i) s) s
    (∀ i, i < num → getCtx n (ctxKey d first + i) = f i) ∧
    (∀ k, ¬ (ctxKey d first ≤ k ∧ k < ctxKey d first + num) → getCtx n k = getCtx s k) ∧
    n = { s with fabric := { s.fabric with ctxs := n.fabric.ctxs } } := by
  intro num
  induction num with
  | zero => intro _ s; exact ⟨fun i h => absurd h (by omega), fun _ _ => rfl, rfl⟩
  | succ m ih =>
    intro h s
    dsimp only
    rw [List.range_succ, List.foldl_append, List.foldl_cons, List.foldl_nil]
    obtain ⟨i1, i2, i3⟩ := ih (by omega) s
    generalize (List.range m).foldl (fun s i => setCtx (ctxKey d (first + i)) (f i) s) s = y at i1 i2 i3 ⊢
    have hkey : ctxKey d (first + m) = ctxKey d first + m := by unfold ctxKey; omega
    refine ⟨fun i hi => ?_, fun k hk => ?_, ?_⟩
    · rw [setCtx_getCtx]
      by_cases hm : i = m
      · subst hm; rw [if_pos (by omega)]
      · rw [if_neg (by omega)]; exact i1 i (by omega)
    · rw [setCtx_getCtx, if_neg (by omega)]; exact i2 k (by omega)
    · unfold setCtx
      rw [i3]

theorem fld_ofNat (x lo n : Nat) (h : x < 2 ^ 64) : fld (BitVec.ofNat 64 x) lo n = x / 2 ^ lo % 2 ^ n := by
  unfold fld
  rw [BitVec.toNat_ofNat, Nat.mod_eq_of_lt h, Nat.shiftRight_eq_div_pow]

theorem bit_fld (v : Word) (i : Nat) : bit v i = decide (fld v i 1 = 1) := by
  unfold bit fld
  rw [BitVec.getLsbD, Nat.testBit_eq_decide_div_mod_eq, Nat.shiftRight_eq_div_pow]
  rfl

theorem armedCtx_common (cl job : Nat) (c : PCmd) (i : Nat) (hc : cl < 16) (hj : job < 65536) :
    let x := armedCtx cl job c i
    x.state = 1 ∧ x.kind = fld (c.w 0) 29 3 ∧ x.client = cl ∧ x.job = job ∧ x.bound = false ∧ x.fmtWord = fld (c.w 0) 33 16 ∧
    x.skippol = (if fld (c.w 0) 29 3 = 2 then false else bit (c.w 0) 32) := by
  have hk := fld_lt' (c.w 0) 29 3
  have hf := fld_lt' (c.w 0) 33 16
  have hs := fld_lt' (c.w 0) 32 1
  intro x
  obtain ⟨b, hb⟩ : ∃ b, b = (if fld (c.w 0) 29 3 = 2 then 0 else fld (c.w 0) 32 1) := ⟨_, rfl⟩
  have hb2 : b < 2 := by rw [hb]; split <;> omega
  have hw : x.w0 = BitVec.ofNat 64 (1 + 2 ^ 3 * fld (c.w 0) 29 3 + 2 ^ 6 * cl + 2 ^ 10 * job + 2 ^ 26 * b + 2 ^ 28 * fld (c.w 0) 33 16) := by
    rw [hb]
    show (armedCtx cl job c i).w0 = _
    unfold armedCtx
    dsimp only
    split <;> rfl
  have hlt : 1 + 2 ^ 3 * fld (c.w 0) 29 3 + 2 ^ 6 * cl + 2 ^ 10 * job + 2 ^ 26 * b + 2 ^ 28 * fld (c.w 0) 33 16 < 2 ^ 64 := by omega
  have hsk : x.skippol = decide (b = 1) := by
    unfold Ctx.skippol
    rw [hw, bit_fld, fld_ofNat _ _ _ hlt]
    congr 1
    apply propext
    omega
  refine ⟨?_, ?_, ?_, ?_, ?_, ?_, ?_⟩
  · unfold Ctx.state; rw [hw, fld_ofNat _ _ _ hlt]; omega
  · unfold Ctx.kind; rw [hw, fld_ofNat _ _ _ hlt]; omega
  · unfold Ctx.client; rw [hw, fld_ofNat _ _ _ hlt]; omega
  · unfold Ctx.job; rw [hw, fld_ofNat _ _ _ hlt]; omega
  · unfold Ctx.bound; rw [hw, bit_fld, fld_ofNat _ _ _ hlt]; rw [decide_eq_false]; omega
  · unfold Ctx.fmtWord; rw [hw, fld_ofNat _ _ _ hlt]; omega
  · rw [hsk, hb]
    split
    · decide
    · rw [bit_fld]

theorem armedCtx_place (cl job : Nat) (c : PCmd) (i : Nat) (h : fld (c.w 0) 29 3 = 2) :
    let x := armedCtx cl job c i
    x.narr = 0 ∧ x.dhandle = fld (c.w 1) 0 12 ∧ x.ahandle = fld (c.w 1) 12 12 ∧ x.amode = fld (c.w 1) 24 2 ∧ x.rrows = rgUnits (c.w 3) % 2 ^ 32 ∧
    x.drow = fld (c.w 2) 0 32 ∧ x.dcol = fld (c.w 2) 32 16 ∧ x.rlen = fld (c.w 1) 38 17 ∧ x.nexp = fld (c.w 1) 26 12 := by
  intro x
  have h1 := fld_lt' (c.w 1) 0 26
  have h2 := fld_lt' (c.w 2) 0 48
  have h3 := fld_lt' (c.w 1) 26 12
  have h4 := fld_lt' (c.w 1) 38 17
  have w1 : x.w1 = BitVec.ofNat 64 (fld (c.w 1) 0 26 + 2 ^ 26 * (rgUnits (c.w 3) % 2 ^ 32)) := by
    show (armedCtx cl job c i).w1 = _; unfold armedCtx; dsimp only; rw [if_pos h]
  have w2 : x.w2 = BitVec.ofNat 64 (fld (c.w 2) 0 48) := by
    show (armedCtx cl job c i).w2 = _; unfold armedCtx; dsimp only; rw [if_pos h]
  have w3 : x.w3 = BitVec.ofNat 64 (fld (c.w 1) 26 12 + 2 ^ 24 * fld (c.w 1) 38 17) := by
    show (armedCtx cl job c i).w3 = _; unfold armedCtx; dsimp only; rw [if_pos h]
  have sub : ∀ (v : Word) (a m lo n : Nat), lo + n ≤ m → fld v a m / 2 ^ lo % 2 ^ n = fld v (a + lo) n := by
    intro v a m lo n hm
    unfold fld
    apply Nat.eq_of_testBit_eq
    intro j
    rw [Nat.testBit_mod_two_pow, Nat.testBit_mod_two_pow, Nat.testBit_div_two_pow, Nat.testBit_mod_two_pow, Nat.testBit_shiftRight, Nat.testBit_shiftRight]
    by_cases hj : j < n
    · simp only [hj, decide_true, Bool.true_and, show lo + j < m by omega, show j + lo < m by omega]
      congr 1
      omega
    · simp [hj]
  have l1 : fld (c.w 1) 0 26 + 2 ^ 26 * (rgUnits (c.w 3) % 2 ^ 32) < 2 ^ 64 := by omega
  have l2 : fld (c.w 2) 0 48 < 2 ^ 64 := by omega
  have l3 : fld (c.w 1) 26 12 + 2 ^ 24 * fld (c.w 1) 38 17 < 2 ^ 64 := by omega
  refine ⟨?_, ?_, ?_, ?_, ?_, ?_, ?_, ?_, ?_⟩
  · unfold Ctx.narr; rw [w3, fld_ofNat _ _ _ l3]; omega
  · unfold Ctx.dhandle; rw [w1, fld_ofNat _ _ _ l1, ← sub (c.w 1) 0 26 0 12 (by decide)]; omega
  · unfold Ctx.ahandle; rw [w1, fld_ofNat _ _ _ l1, ← sub (c.w 1) 0 26 12 12 (by decide)]; omega
  · unfold Ctx.amode; rw [w1, fld_ofNat _ _ _ l1, ← sub (c.w 1) 0 26 24 2 (by decide)]; omega
  · unfold Ctx.rrows; rw [w1, fld_ofNat _ _ _ l1]; omega
  · unfold Ctx.drow; rw [w2, fld_ofNat _ _ _ l2]; exact sub (c.w 2) 0 48 0 32 (by decide)
  · unfold Ctx.dcol; rw [w2, fld_ofNat _ _ _ l2]; exact sub (c.w 2) 0 48 32 16 (by decide)
  · unfold Ctx.rlen; rw [w3, fld_ofNat _ _ _ l3]; omega
  · unfold Ctx.nexp; rw [w3, fld_ofNat _ _ _ l3]; omega

theorem armedCtx_reduce (cl job : Nat) (c : PCmd) (i : Nat) (h : fld (c.w 0) 29 3 ≠ 2) :
    let x := armedCtx cl job c i
    x.narr = 0 ∧ x.tscale = fld (c.w 1) 0 32 ∧ x.ebase = (fld (c.w 2) 0 48 + 512 * i) % 2 ^ 48 ∧ x.fwdread = false ∧ x.esc = 0 ∧
    x.nelem = min 512 (rgUnits (c.w 3) * fld (c.w 1) 44 20 - 512 * i) ∧ x.nexp = fld (c.w 1) 32 12 := by
  intro x
  have h1 := fld_lt' (c.w 1) 0 32
  have h3 := fld_lt' (c.w 1) 32 12
  obtain ⟨m, hm⟩ : ∃ m, m = min 512 (rgUnits (c.w 3) * fld (c.w 1) 44 20 - 512 * i) := ⟨_, rfl⟩
  have hm5 : m ≤ 512 := by rw [hm]; exact Nat.min_le_left _ _
  have w1 : x.w1 = BitVec.ofNat 64 (fld (c.w 1) 0 32) := by
    show (armedCtx cl job c i).w1 = _; unfold armedCtx; dsimp only; rw [if_neg h]
  have w2 : x.w2 = BitVec.ofNat 64 ((fld (c.w 2) 0 48 + 512 * i) % 2 ^ 48 + 2 ^ 48 * m) := by
    rw [hm]; show (armedCtx cl job c i).w2 = _; unfold armedCtx; dsimp only; rw [if_neg h]
  have w3 : x.w3 = BitVec.ofNat 64 (fld (c.w 1) 32 12) := by
    show (armedCtx cl job c i).w3 = _; unfold armedCtx; dsimp only; rw [if_neg h]
  rw [← hm]
  have hq : (fld (c.w 2) 0 48 + 512 * i) % 2 ^ 48 < 2 ^ 48 := Nat.mod_lt _ (by decide)
  generalize (fld (c.w 2) 0 48 + 512 * i) % 2 ^ 48 = q at w2 hq ⊢
  have l1 : fld (c.w 1) 0 32 < 2 ^ 64 := by omega
  have l2 : q + 2 ^ 48 * m < 2 ^ 64 := by omega
  have l3 : fld (c.w 1) 32 12 < 2 ^ 64 := by omega
  refine ⟨?_, ?_, ?_, ?_, ?_, ?_, ?_⟩
  · unfold Ctx.narr; rw [w3, fld_ofNat _ _ _ l3]; omega
  · unfold Ctx.tscale; rw [w1, fld_ofNat _ _ _ l1]; omega
  · unfold Ctx.ebase; rw [w2, fld_ofNat _ _ _ l2]; omega
  · unfold Ctx.fwdread; rw [w1, bit_fld, fld_ofNat _ _ _ l1]; rw [decide_eq_false]; omega
  · unfold Ctx.esc; rw [w3, fld_ofNat _ _ _ l3]; omega
  · unfold Ctx.nelem; rw [w2, fld_ofNat _ _ _ l2]; omega
  · unfold Ctx.nexp; rw [w3, fld_ofNat _ _ _ l3]; omega

theorem Stepped.comp {r s n : State} {c : Nat} {f g : StepSt → StepSt} (h : Stepped r s c f) (k : Stepped s n c g) : Stepped r n c (fun x => g (f x)) := by
  intro j
  rw [k j, h j]
  by_cases hj : j = c
  · subst hj
    simp only [if_true, Option.map_map]
    rfl
  · simp only [hj, if_false]

theorem cctx_room {s : State} {cl d : Nat} {c : PCmd} (h : cctxReserved s cl d c = false) : fld (c.w 0) 0 16 + fld (c.w 0) 16 13 ≤ 65536 := by
  have key : ctxsFree s cl d (fld (c.w 0) 0 16) (fld (c.w 0) 16 13) = true := by
    by_contra hc
    have hc : ctxsFree s cl d (fld (c.w 0) 0 16) (fld (c.w 0) 16 13) = false := by simpa using hc
    unfold cctxReserved at h
    simp only [hc, Bool.not_false, Bool.or_true, Bool.true_or, ite_self] at h
    exact absurd h (by decide)
  unfold ctxsFree at key
  simp only [Bool.and_eq_true, decide_eq_true_eq] at key
  exact key.1.2

theorem countCtx_getCtx (k : Nat) (s : State) (j : Nat) : getCtx (countCtx k s) j = if j = k then (getCtx s k).counted else getCtx s j := by
  have h1 : ∀ j, getCtx (setCtx k { getCtx s k with w3 := setFld (getCtx s k).w3 12 12 ((getCtx s k).narr + 1) } s) j =
      if j = k then { getCtx s k with w3 := setFld (getCtx s k).w3 12 12 ((getCtx s k).narr + 1) } else getCtx s j := setCtx_getCtx _ _ _
  unfold countCtx
  dsimp only
  generalize setCtx k { getCtx s k with w3 := setFld (getCtx s k).w3 12 12 ((getCtx s k).narr + 1) } s = y at h1 ⊢
  have hk := h1 k
  rw [if_pos rfl] at hk
  unfold settleCtx
  dsimp only
  rw [hk]
  unfold Ctx.counted
  dsimp only
  have hu : ∀ (c : Nat) (f : StepSt → StepSt) (z : State) (j : Nat), getCtx (updStep c f z) j = getCtx z j := by
    intro c f z j; unfold getCtx; rw [(updStep_only c f z).fabric (by decide)]
  change getCtx (if ((getCtx s k).state = 1 ∨ (getCtx s k).state = 2) ∧ ({ getCtx s k with w3 := setFld (getCtx s k).w3 12 12 ((getCtx s k).narr + 1) } : Ctx).narr = ({ getCtx s k with w3 := setFld (getCtx s k).w3 12 12 ((getCtx s k).narr + 1) } : Ctx).nexp ∧ ((getCtx s k).kind ≠ 1 ∨ (getCtx s k).fwdread = true) then _ else y) j = _
  have hn : ({ getCtx s k with w3 := setFld (getCtx s k).w3 12 12 ((getCtx s k).narr + 1) } : Ctx).nexp = (getCtx s k).nexp := by
    unfold Ctx.nexp
    exact fld_setFld_off _ _ _ _ _ _ (by decide) (by decide)
  rw [hn]
  by_cases hc : ((getCtx s k).state = 1 ∨ (getCtx s k).state = 2) ∧ ({ getCtx s k with w3 := setFld (getCtx s k).w3 12 12 ((getCtx s k).narr + 1) } : Ctx).narr = (getCtx s k).nexp ∧ ((getCtx s k).kind ≠ 1 ∨ (getCtx s k).fwdread = true)
  · rw [if_pos hc, if_pos hc]
    split
    · rw [hu, setCtx_getCtx]
      by_cases hj : j = k
      · rw [if_pos hj, if_pos hj]
      · rw [if_neg hj, if_neg hj, h1, if_neg hj]
    · rw [setCtx_getCtx]
      by_cases hj : j = k
      · rw [if_pos hj, if_pos hj]
      · rw [if_neg hj, if_neg hj, h1, if_neg hj]
  · rw [if_neg hc, if_neg hc, h1]

theorem countCtx_only (k : Nat) (s : State) : Only [.clients, .fabric] s (countCtx k s) := (countCtx_kept k (Kept.rfl' s) (by decide)).only

theorem settleCtx_fabric (k : Nat) (s : State) : (settleCtx k s).fabric = { s.fabric with ctxs := (settleCtx k s).fabric.ctxs } := by
  unfold settleCtx
  dsimp only
  split
  · split
    · rw [(updStep_only _ _ _).fabric (by decide)]; rfl
    · rfl
  · rfl

theorem countCtx_fabric (k : Nat) (s : State) : (countCtx k s).fabric = { s.fabric with ctxs := (countCtx k s).fabric.ctxs } := by
  unfold countCtx
  dsimp only
  rw [settleCtx_fabric]
  rfl

theorem setFld_self (v : Word) (lo n : Nat) (h : lo + n ≤ 64) : setFld v lo n (fld v lo n) = v := by
  apply BitVec.eq_of_getLsbD_eq
  intro i hi
  have := bit_setFld v lo n (fld v lo n) i h
  unfold bit at this
  rw [this]
  split
  · rename_i hc
    unfold fld
    rw [Nat.testBit_mod_two_pow, Nat.testBit_shiftRight, BitVec.testBit_toNat]
    simp only [show i - lo < n by omega, decide_true, Bool.true_and, show lo + (i - lo) = i by omega]
  · rfl

theorem takeXfer_held {d : DieId} {shape : Nat} {data : List Byte} {s : State} (h : collArrive d.val shape data s = (true, s)) :
    takeXfer d shape data s = { s with fabric := { s.fabric with held := s.fabric.held ++ [(d, shape, data)] } } := by
  unfold takeXfer takeOne
  rw [h]
  rfl

theorem takeXfer_taken {d : DieId} {shape : Nat} {data : List Byte} {s y : State} (h : collArrive d.val shape data s = (false, y)) :
    TakenIn d data y (takeXfer d shape data s) := by
  have ht : takeXfer d shape data s = (let z : State := { y with fabric := { y.fabric with rx := y.fabric.rx.map fun r => if r.hdr ++ r.data = data then { r with taken := true } else r } }
      if (z.fabric.held.any fun h => decide (h.1 = d)) = true then pumpHeld d z else z) := by
    unfold takeXfer takeOne
    rw [h]
    rfl
  rw [ht]
  dsimp only
  refine ⟨_, rfl, fun hh => ?_, fun hh => ?_⟩
  · rw [if_pos]
    obtain ⟨x, h1, h2⟩ := hh
    exact List.any_eq_true.2 ⟨x, h1, decide_eq_true h2⟩
  · rw [if_neg]
    intro hc
    obtain ⟨x, h1, h2⟩ := List.any_eq_true.1 hc
    exact hh x h1 (of_decide_eq_true h2)

theorem ctxReg_congr {s t : State} {d : Nat} {x : Ctx} (h : t.tiles = s.tiles) : ctxReg t d x = ctxReg s d x := by
  unfold ctxReg getVec; rw [getTile_congr h]

theorem addInto_one (x : CXfer) (es : List Contrib) (blk k n : Nat) (s : State) :
    let y := addInto x es blk [] [] (k, 0, n) s
    (∀ i : Fin 512, (ctxReg y (k / 65536) (getCtx s k)).get i =
      if i.val < n then (nth .none es i.val).into ((ctxReg s (k / 65536) (getCtx s k)).get i) else (ctxReg s (k / 65536) (getCtx s k)).get i) ∧
    getCtx y k = (getCtx s k).counted ∧ ∀ j, j ≠ k → getCtx y j = getCtx s j := by
  intro y
  obtain ⟨new, hnew⟩ : ∃ new : XVec, new = Vector.ofFn fun i => if i.val < n then (nth Contrib.none ((es.drop 0).take n) i.val).into ((ctxReg s (k / 65536) (getCtx s k)).get i) else (ctxReg s (k / 65536) (getCtx s k)).get i := ⟨_, rfl⟩
  have hy : y = countCtx k (setCtx k { getCtx s k with w3 := setFld (getCtx s k).w3 32 32 (getCtx s k).esc }
      (setVec (ctxTile (k / 65536) (getCtx s k)) (setX (getVec s (ctxTile (k / 65536) (getCtx s k))) (getCtx s k).xreg new) s)) := by
    rw [hnew]; rfl
  have hself : ({ getCtx s k with w3 := setFld (getCtx s k).w3 32 32 (getCtx s k).esc } : Ctx) = getCtx s k := by
    show ({ getCtx s k with w3 := setFld (getCtx s k).w3 32 32 (fld (getCtx s k).w3 32 32) } : Ctx) = _
    rw [setFld_self _ _ _ (by decide)]
  rw [hself] at hy
  clear_value y
  have v1 := getVec_setVec (s := s) (ctxTile (k / 65536) (getCtx s k)) (ctxTile (k / 65536) (getCtx s k)) (setX (getVec s (ctxTile (k / 65536) (getCtx s k))) (getCtx s k).xreg new)
  rw [if_pos rfl] at v1
  have k1 := setVec_only (ctxTile (k / 65536) (getCtx s k)) (setX (getVec s (ctxTile (k / 65536) (getCtx s k))) (getCtx s k).xreg new) s
  generalize setVec (ctxTile (k / 65536) (getCtx s k)) (setX (getVec s (ctxTile (k / 65536) (getCtx s k))) (getCtx s k).xreg new) s = s1 at hy v1 k1
  have c1 : ∀ j, getCtx s1 j = getCtx s j := fun j => by unfold getCtx; rw [k1.fabric (by decide)]
  have c2 := fun j => setCtx_getCtx k (getCtx s k) s1 j
  have k2 : Only [.fabric] s1 (setCtx k (getCtx s k) s1) := only_fabric _ s1
  generalize setCtx k (getCtx s k) s1 = s2 at hy c2 k2
  have k3 := countCtx_only k s2
  refine ⟨fun i => ?_, ?_, fun j hj => ?_⟩
  · have : ctxReg y (k / 65536) (getCtx s k) = new := by
      rw [hy, ctxReg_congr (k3.tiles (by decide)), ctxReg_congr (k2.tiles (by decide))]
      unfold ctxReg
      rw [v1, getX_setX, if_pos rfl]
    rw [this, hnew, Vector.get_ofFn]
    by_cases hi : i.val < n
    · rw [if_pos hi, if_pos hi]
      congr 1
      unfold nth
      simp [List.getElem?_take, hi]
    · rw [if_neg hi, if_neg hi]
  · rw [hy, countCtx_getCtx, if_pos rfl, c2, if_pos rfl]
  · rw [hy, countCtx_getCtx, if_neg hj, c2, if_neg hj, c1]

theorem placeWrite_ctxs (smod name off : Nat) (bs : List Byte) (s : State) : (placeWrite smod name off bs s).fabric.ctxs = s.fabric.ctxs := by
  unfold placeWrite
  have kf := fresh_only s
  generalize fresh s = q at kf ⊢
  obtain ⟨die, s0⟩ := q
  dsimp only at kf ⊢
  have kr := (remoteWrite_kept { mod := smod, die := Fin.ofNat 4 die.toNat, eng := 7 } name off bs (Kept.rfl' s0)
    (ks := [.mem, .regs, .dict, .sat, .cat, .banks, .clients, .host, .logs, .wear, .ledger, .served]) (by decide)).only
  generalize remoteWrite { mod := smod, die := Fin.ofNat 4 die.toNat, eng := 7 } name off bs s0 = s1 at kr ⊢
  have h1 : s1.fabric = s.fabric := (kr.fabric (by decide)).trans (kf.fabric (by decide))
  split
  · rw [h1]
  · split
    · rw [h1]
    · have ko := (openMsg_spec 7 s1 (by decide)).2
      generalize openMsg 7 s1 = r at ko ⊢
      obtain ⟨m, s2⟩ := r
      dsimp only at ko ⊢
      show s2.fabric.ctxs = _
      rw [ko.fabric (by decide), h1]

theorem placeRaw_ctxs (smod name : Nat) (e : Entry) (f : Fmt) (row col n : Nat) (bs : List Byte) (s : State) :
    (placeRaw smod name e f row col n bs s).fabric.ctxs = s.fabric.ctxs := by
  unfold placeRaw
  dsimp only
  rw [placeWrite_ctxs, placeWrite_ctxs]

theorem placeConv_ctxs (client smod name : Nat) (e : Entry) (f : Fmt) (ts : Rat) (row col n : Nat) (bs : List Byte) (s : State) :
    (placeConv client smod name e f ts row col n bs s).fabric.ctxs = s.fabric.ctxs := by
  unfold placeConv
  dsimp only
  rw [((foldStats_kept _ _ _ (Kept.rfl' _) (ks := [.regs, .host, .logs]) (by decide)).only).fabric (by decide)]
  split
  · rw [placeWrite_ctxs]
  · rw [placeWrite_ctxs, placeWrite_ctxs]

theorem mergePiece_spec (d cbase smod e : Nat) (xs : List XReg) (s : State) :
    let k := ctxKey d cbase + e / 512
    let less (w : SpillWait) : SpillWait := if w.ctx = k ∧ w.smod = smod then { w with left := w.left - xs.length } else w
    let y := mergePiece d cbase smod e xs s
    (∀ i : Fin 512, (ctxReg y d (getCtx s k)).get i =
      if e % 512 ≤ i.val ∧ i.val < e % 512 + xs.length then ((ctxReg s d (getCtx s k)).get i).merge (nth {} xs (i.val - e % 512))
      else (ctxReg s d (getCtx s k)).get i) ∧
    y.fabric.spills = (s.fabric.spills.map less).filter (fun w => !(decide (w.ctx = k) && decide (w.smod = smod) && decide (w.left = 0))) ∧
    getCtx y k = (if ∃ w ∈ s.fabric.spills.map less, w.ctx = k ∧ w.smod = smod ∧ w.left = 0 then (getCtx s k).counted else getCtx s k) ∧
    ∀ j, j ≠ k → getCtx y j = getCtx s j := by
  intro k less y
  obtain ⟨new, hnew⟩ : ∃ new : XVec, new = Vector.ofFn fun i => if e % 512 ≤ i.val ∧ i.val < e % 512 + xs.length then ((ctxReg s d (getCtx s k)).get i).merge (nth {} xs (i.val - e % 512)) else (ctxReg s d (getCtx s k)).get i := ⟨_, rfl⟩
  let t := ctxTile d (getCtx s k)
  have v1 := getVec_setVec (s := s) t t (setX (getVec s t) (getCtx s k).xreg new)
  rw [if_pos rfl] at v1
  have k1 := setVec_only t (setX (getVec s t) (getCtx s k).xreg new) s
  obtain ⟨s1, hs1⟩ : ∃ s1, s1 = setVec t (setX (getVec s t) (getCtx s k).xreg new) s := ⟨_, rfl⟩
  rw [← hs1] at v1 k1
  have hless : (fun w : SpillWait => if (decide (w.ctx = k) && decide (w.smod = smod)) = true then { w with left := w.left - xs.length } else w) = less := by
    funext w
    exact if_congr (by rw [Bool.and_eq_true, decide_eq_true_eq, decide_eq_true_eq]) rfl rfl
  obtain ⟨s2, hs2⟩ : ∃ s2 : State, s2 = { s1 with fabric := { s1.fabric with spills := s1.fabric.spills.map less } } := ⟨_, rfl⟩
  have hy : y = if (s2.fabric.spills.any fun w => decide (w.ctx = k) && decide (w.smod = smod) && decide (w.left = 0)) = true then
      countCtx k { s2 with fabric := { s2.fabric with spills := s2.fabric.spills.filter fun w => !(decide (w.ctx = k) && decide (w.smod = smod) && decide (w.left = 0)) } } else s2 := by
    rw [hs2, hs1, ← hless, hnew]; rfl
  clear_value y
  have hsp : s2.fabric.spills = s.fabric.spills.map less := by
    rw [hs2]; show s1.fabric.spills.map less = _; rw [k1.fabric (by decide)]
  have h2c : ∀ j, getCtx s2 j = getCtx s j := by
    intro j; rw [hs2]; unfold getCtx; show mget {} s1.fabric.ctxs j = _; rw [k1.fabric (by decide)]
  have h2t : s2.tiles = s1.tiles := by rw [hs2]
  have hreg : ctxReg s2 d (getCtx s k) = new := by
    rw [ctxReg_congr h2t]
    unfold ctxReg
    rw [v1, getX_setX, if_pos rfl]
  have hget : ∀ i : Fin 512, new.get i = if e % 512 ≤ i.val ∧ i.val < e % 512 + xs.length then ((ctxReg s d (getCtx s k)).get i).merge (nth {} xs (i.val - e % 512)) else (ctxReg s d (getCtx s k)).get i := by
    intro i; rw [hnew, Vector.get_ofFn]
  have hiff : (s2.fabric.spills.any fun w => decide (w.ctx = k) && decide (w.smod = smod) && decide (w.left = 0)) = true ↔ ∃ w ∈ s.fabric.spills.map less, w.ctx = k ∧ w.smod = smod ∧ w.left = 0 := by
    rw [hsp, List.any_eq_true]
    simp only [Bool.and_eq_true, decide_eq_true_eq, and_assoc]
  by_cases hz : (s2.fabric.spills.any fun w => decide (w.ctx = k) && decide (w.smod = smod) && decide (w.left = 0)) = true
  · rw [if_pos hz] at hy
    rw [if_pos (hiff.1 hz)]
    obtain ⟨s3, hs3⟩ : ∃ s3 : State, s3 = { s2 with fabric := { s2.fabric with spills := s2.fabric.spills.filter fun w => !(decide (w.ctx = k) && decide (w.smod = smod) && decide (w.left = 0)) } } := ⟨_, rfl⟩
    rw [← hs3] at hy
    have h3c : ∀ j, getCtx s3 j = getCtx s2 j := by intro j; rw [hs3]; rfl
    have h3t : s3.tiles = s2.tiles := by rw [hs3]
    have h3s : s3.fabric.spills = (s.fabric.spills.map less).filter (fun w => !(decide (w.ctx = k) && decide (w.smod = smod) && decide (w.left = 0))) := by
      rw [hs3, ← hsp]
    refine ⟨fun i => ?_, ?_, ?_, fun j hj => ?_⟩
    · rw [hy, ctxReg_congr ((countCtx_only k s3).tiles (by decide)), ctxReg_congr h3t, hreg, hget]
    · rw [hy, countCtx_fabric]; exact h3s
    · rw [hy, countCtx_getCtx, if_pos rfl, h3c, h2c]
    · rw [hy, countCtx_getCtx, if_neg hj, h3c, h2c]
  · rw [if_neg hz] at hy
    rw [if_neg (fun h => hz (hiff.2 h)), hy]
    refine ⟨fun i => by rw [hreg, hget], ?_, h2c k, fun j _ => h2c j⟩
    rw [hsp, List.filter_eq_self.2]
    intro w hw
    rw [Bool.not_eq_true']
    by_contra hc
    rw [Bool.not_eq_false] at hc
    apply hz
    rw [hsp]
    exact List.any_eq_true.2 ⟨w, hw, hc⟩

theorem discardAll_cat (c : Nat) : ∀ (l : List DieId) (s : State), (l.foldl (fun s d => discardStaged d c s) s).cat = { s.cat with
    staging := s.cat.staging.filter fun x => !(decide (x.die ∈ l) && decide (x.owner = c))
    commits := s.cat.commits.filter fun x => !(decide (x.die ∈ l) && decide (x.client = c)) } := by
  intro l
  induction l with
  | nil => intro s; simp
  | cons a l ih =>
    intro s
    rw [List.foldl_cons, ih]
    unfold discardStaged
    dsimp only
    rw [List.filter_filter, List.filter_filter]
    congr 1
    · refine List.filter_congr fun x _ => ?_
      by_cases h1 : x.die = a <;> by_cases h2 : x.owner = c <;> simp [h1, h2]
    · refine List.filter_congr fun x _ => ?_
      by_cases h1 : x.die = a <;> by_cases h2 : x.client = c <;> simp [h1, h2]

theorem abandonReshard_spec (c : Nat) (ids : List Nat) (s : State) :
    let n := abandonReshard c ids s
    (∃ y, n.host = (post 0x0503 c c y).host ∧ Only [.cat, .dict, .sat, .host, .logs] s y) ∧ Only [.cat, .plates, .dict, .sat, .clients, .host, .logs] s n ∧
    n.cat = { s.cat with staging := s.cat.staging.filter fun x => decide (x.owner ≠ c), commits := s.cat.commits.filter fun x => decide (x.client ≠ c) } ∧
    (∀ i ∈ ids, findFlight n i = none) ∧ (∀ i, i ∉ ids → findFlight n i = findFlight s i) ∧
    Stepped s n c (fun st => { st with commits := st.commits.filter fun x => !ids.contains x.id }) := by
  intro n
  have hn : n = ids.foldl (fun s i => complete i s) (updStep c (fun st => { st with commits := st.commits.filter fun j => !ids.contains j.id })
      (post 0x0503 c c (bumpDict (dkey 0x5100 0x0D) 1 ((List.finRange 4).foldl (fun s d => discardStaged d c s) s)))) := rfl
  clear_value n
  have k1 : Only [.cat] s ((List.finRange 4).foldl (fun s d => discardStaged d c s) s) := Only.foldl (fun s d => only_cat _ s) _ _
  have c1 := discardAll_cat c (List.finRange 4) s
  generalize (List.finRange 4).foldl (fun s d => discardStaged d c s) s = s1 at hn k1 c1
  have k2 := bumpDict_only (dkey 0x5100 0x0D) 1 s1
  generalize bumpDict (dkey 0x5100 0x0D) 1 s1 = y at hn k2
  have k3 := post_only 0x0503 c c y
  have hh : ∃ z, z = post 0x0503 c c y := ⟨_, rfl⟩
  obtain ⟨z, hz⟩ := hh
  rw [← hz] at hn k3
  have k4 := updStep_only c (fun st => { st with commits := st.commits.filter fun j => !ids.contains j.id }) z
  have u4 := updStep_stepped c (fun st => { st with commits := st.commits.filter fun j => !ids.contains j.id }) z
  generalize updStep c (fun st => { st with commits := st.commits.filter fun j => !ids.contains j.id }) z = w at hn k4 u4
  obtain ⟨-, n2, n3, n4⟩ := completes_none ids w
  rw [← hn] at n2 n3 n4
  have kz : Only [.cat, .dict, .sat, .host, .logs] s z := ((k1.mono (by decide)).step k2 (by decide)).step k3 (by decide)
  refine ⟨⟨y, ?_, (k1.mono (by decide)).step k2 (by decide)⟩, ((kz.mono (by decide)).step k4 (by decide)).step n4 (by decide), ?_, n2, fun i hi => ?_, ?_⟩
  · rw [n4.host (by decide), k4.host (by decide), hz]
  · rw [n4.cat (by decide), k4.cat (by decide), k3.cat (by decide), k2.cat (by decide), c1]
    have h1 : (s.cat.staging.filter fun x => !(decide (x.die ∈ List.finRange 4) && decide (x.owner = c))) = s.cat.staging.filter fun x => decide (x.owner ≠ c) := by
      refine List.filter_congr fun x _ => ?_
      simp [List.mem_finRange]
    have h2 : (s.cat.commits.filter fun x => !(decide (x.die ∈ List.finRange 4) && decide (x.client = c))) = s.cat.commits.filter fun x => decide (x.client ≠ c) := by
      refine List.filter_congr fun x _ => ?_
      simp [List.mem_finRange]
    rw [h1, h2]
  · rw [n3 i hi, findFlight_congr (k4.plates (by decide)), findFlight_congr (kz.plates (by decide))]
  · exact (u4.pre (ScopesOnly.of_eq (kz.clients (by decide)))).post (ScopesOnly.of_eq (n4.clients (by decide)))

theorem reshardQueue_spec (c T : Nat) : ∀ (ds : List DieId) (s : State),
    let n := ds.foldl (fun s d => if (queueCommit d c T s).1 = true then setBit (collBlk d.val 0) 10 (queueCommit d c T s).2 else (queueCommit d c T s).2) s
    let late := T ≤ planTick s c ∧ ∀ r, (getClient s c).run = some r → runBegun s r = true
    n.cat = { s.cat with commits := s.cat.commits ++ ds.map fun d => { die := d, client := c, tick := if late then planTick s c + 1 else T } } ∧
    (late → ∀ d ∈ ds, bit (getReg n (collBlk d.val 0)) 10 = true) ∧ (late → ∀ a, bit (getReg s a) 10 = true → bit (getReg n a) 10 = true) ∧
    (¬ late → n.regs = s.regs) ∧ Only [.regs, .cat, .host, .logs] s n := by
  intro ds
  induction ds with
  | nil => intro s; exact ⟨by simp, fun _ d hd => by simp at hd, fun _ _ h => h, fun _ => rfl, Only.rfl' _⟩
  | cons d ds ih =>
    intro s n late
    obtain ⟨m, hm⟩ : ∃ m, m = (if (queueCommit d c T s).1 = true then setBit (collBlk d.val 0) 10 (queueCommit d c T s).2 else (queueCommit d c T s).2) := ⟨_, rfl⟩
    have hn : n = ds.foldl (fun s d => if (queueCommit d c T s).1 = true then setBit (collBlk d.val 0) 10 (queueCommit d c T s).2 else (queueCommit d c T s).2) m := by
      rw [hm]; rfl
    clear_value n
    obtain ⟨i1, i2, i3, i4, i5⟩ := ih m
    rw [← hn] at i1 i2 i3 i4 i5
    have kq := (queueCommit_kept d c T (Kept.rfl' s) (ks := [.cat, .host, .logs]) (by decide)).only
    have hl : (queueCommit d c T s).1 = decide late := by
      show (decide (T ≤ planTick s c) && ((getClient s c).run.map (runBegun s)).getD true) = decide (T ≤ planTick s c ∧ ∀ r, (getClient s c).run = some r → runBegun s r = true)
      cases h : (getClient s c).run with
      | none => simp
      | some r => simp [h]
    have hc : (queueCommit d c T s).2.cat = { s.cat with commits := s.cat.commits ++ [{ die := d, client := c, tick := if late then planTick s c + 1 else T }] } := by
      have hl' : (decide (T ≤ planTick s c) && ((getClient s c).run.map (runBegun s)).getD true) = decide late := hl
      unfold queueCommit
      dsimp only
      rw [hl']
      by_cases hh : late
      · simp only [hh, decide_true, if_true]; rfl
      · simp only [hh, decide_false, if_false]; rfl
    rw [hl] at hm
    generalize (queueCommit d c T s).2 = q at hm kq hc
    have km : Only [.regs] q m := by
      rw [hm]; split
      · exact setBit_only _ _ _
      · exact Only.rfl' _
    have ksm : Only [.regs, .cat, .host, .logs] s m := (kq.mono (by decide)).step km (by decide)
    have hlate : (T ≤ planTick m c ∧ ∀ r, (getClient m c).run = some r → runBegun m r = true) ↔ late := by
      rw [planTick_congr (ksm.clients (by decide)) (ksm.tick (by decide)), getClient_congr (ksm.clients (by decide))]
      unfold runBegun
      rw [ksm.tick (by decide)]
      exact Iff.rfl
    refine ⟨?_, fun h e he => ?_, fun h a ha => ?_, fun h => ?_, ksm.trans i5⟩
    · rw [i1, km.cat (by decide), hc, planTick_congr (ksm.clients (by decide)) (ksm.tick (by decide))]
      dsimp only
      rw [planTick_congr (ksm.clients (by decide)) (ksm.tick (by decide))] at hlate
      simp only [hlate, List.map_cons, List.append_assoc, List.singleton_append]
    · rcases List.mem_cons.1 he with rfl | he
      · refine i3 (hlate.2 h) _ ?_
        rw [hm, if_pos (decide_eq_true h), setBit_getReg, if_pos rfl]
        exact bit_or_self _ _ (by decide)
      · exact i2 (hlate.2 h) e he
    · refine i3 (hlate.2 h) _ ?_
      rw [hm, if_pos (decide_eq_true h), setBit_getReg, getReg_congr (kq.regs (by decide)), getReg_congr (kq.regs (by decide))]
      split
      · rename_i hx
        subst hx
        unfold bit at ha ⊢
        rw [BitVec.getLsbD_or, ha, Bool.true_or]
      · exact ha
    · rw [i4 (fun hh => h (hlate.1 hh)), hm, if_neg (by simp [h]), kq.regs (by decide)]

theorem arriveReduce_eq (d shape : Nat) (x : CXfer) (s : State) :
    let f := (fmtOf (x.selem + 16 * x.sblk)).getD noFmt
    let r := redElems x f shape
    let q := redUnits x f shape
    let zero (off : Nat) : Bool := ((x.pay.take q.2.2).drop (off / q.1 * q.2.1)).all fun b => b = 0#8
    let its := covered s zero r.1.length 128 (ctxKey d x.cbase) 0
    (∀ code k, firstFault s x (its.map (·.1)) = some (code, k) → arriveReduce d shape x s = (false, collFault d (jobClient s d x.job) code x.job (k % 65536) s)) ∧
    (firstFault s x (its.map (·.1)) = none → (∃ it ∈ its, (getCtx s it.1).bound = false) → arriveReduce d shape x s = (true, s)) ∧
    (firstFault s x (its.map (·.1)) = none → (∀ it ∈ its, (getCtx s it.1).bound = true) → ∃ y, arriveReduce d shape x s = (false, y) ∧
      Only [.regs, .dict, .sat, .tiles, .clients, .fabric, .host, .logs] s y ∧
      Only [.regs, .dict, .sat, .clients, .host, .logs] (its.foldl (fun s it => addInto x r.1 f.blk r.2.2.1 r.2.2.2 it s) s) y) := by
  have hk := (arriveReduce_kept d shape x (Kept.rfl' s) (ks := [.regs, .dict, .sat, .tiles, .clients, .fabric, .host, .logs]) (by decide)).only
  unfold arriveReduce at hk ⊢
  dsimp only at hk ⊢
  rcases hr : redElems x ((fmtOf (x.selem + 16 * x.sblk)).getD noFmt) shape with ⟨es, scales, esc, spilled⟩
  rcases hq : redUnits x ((fmtOf (x.selem + 16 * x.sblk)).getD noFmt) shape with ⟨un, ub, len⟩
  rw [hr, hq] at hk
  dsimp only at hk ⊢
  generalize covered s (fun off => ((x.pay.take len).drop (off / un * ub)).all fun b => b = 0#8) es.length 128 (ctxKey d x.cbase) 0 = its at hk ⊢
  cases hf : firstFault s x (its.map (·.1)) with
  | some ck =>
    obtain ⟨code, k⟩ := ck
    refine ⟨fun code' k' h => ?_, fun h => absurd h (by simp), fun h => absurd h (by simp)⟩
    cases h
    rfl
  | none =>
    rw [hf] at hk
    dsimp only at hk ⊢
    refine ⟨fun _ _ h => absurd h (by simp), fun _ hb => ?_, fun _ hb => ?_⟩
    · rw [if_pos]
      obtain ⟨it, h1, h2⟩ := hb
      exact List.any_eq_true.2 ⟨it, h1, by rw [h2]; rfl⟩
    · have hb' : ¬ (its.any fun it => !(getCtx s it.1).bound) = true := by
        intro h
        obtain ⟨it, h1, h2⟩ := List.any_eq_true.1 h
        rw [hb it h1] at h2
        exact absurd h2 (by decide)
      rw [if_neg hb'] at hk ⊢
      refine ⟨_, rfl, hk, ?_⟩
      generalize its.foldl (fun s it => addInto x es ((fmtOf (x.selem + 16 * x.sblk)).getD noFmt).blk esc spilled it s) s = z
      refine Kept.only ?_
      have h0 : Kept [.regs, .dict, .sat, .clients, .host, .logs] z z := Kept.rfl' z
      have hks : ([.regs, .dict, .sat, .clients, .host, .logs] : List Part) ⊆ [.regs, .dict, .sat, .clients, .host, .logs] := List.Subset.refl _
      repeat' first
        | with_reducible assumption
        | exact sub_of hks (by decide)
        | with_reducible apply bump_kept
        | with_reducible apply noteNonFinite_kept
        | with_reducible apply setScope_kept
        | with_reducible apply kept_ite

theorem arrivePlace_eq (d : Nat) (x : CXfer) (s : State) :
    let k := ctxKey d x.cbase
    let c := getCtx s k
    let e := getEnt s (d * 4096 + c.dhandle)
    let client := jobClient s d x.job
    let rows := placeRows x c
    (∀ code, ctxFault x c = some code → ¬ (2 < code ∧ x.cop = 8 ∧ sameBytes x c e = false) → arrivePlace d x s = collFault d client code x.job (k % 65536) s) ∧
    (x.cop = 8 → sameBytes x c e = false → ctxFault x c ≠ some 1 → arrivePlace d x s = collFault d client 2 x.job (k % 65536) s) ∧
    (ctxFault x c = none → ¬ (x.cop = 8 ∧ sameBytes x c e = false) → (∃ r ∈ rows, placeRow x c e r = none) → arrivePlace d x s = collFault d client 7 x.job (k % 65536) s) ∧
    (ctxFault x c = none → ¬ (x.cop = 8 ∧ sameBytes x c e = false) → (∀ r ∈ rows, placeRow x c e r ≠ none) → ∃ y, arrivePlace d x s = y ∧
      getCtx y k = c.counted ∧ (∀ j, j ≠ k → getCtx y j = getCtx s j) ∧
      Only [.mem, .regs, .dict, .sat, .cat, .banks, .clients, .fabric, .host, .logs, .wear, .ledger, .served, .free] s y) := by
  have hk := (arrivePlace_kept d x (Kept.rfl' s) (ks := [.mem, .regs, .dict, .sat, .cat, .banks, .clients, .fabric, .host, .logs, .wear, .ledger, .served, .free]) (by decide)).only
  intro k c e client rows
  have hf0 : ∀ code, ctxFault x c = some code → code = 1 ∨ code = 2 ∨ code = 3 ∨ code = 4 := by
    intro code h
    unfold ctxFault at h
    split at h
    · cases h; left; rfl
    · split at h
      · cases h; right; left; rfl
      · split at h
        · cases h; right; right; left; rfl
        · split at h
          · cases h; right; right; right; rfl
          · exact absurd h (by simp)
  have he : arrivePlace d x s = (match ctxFault x c with
    | some 1 => collFault d client 1 x.job (k % 65536) s
    | some 2 => collFault d client 2 x.job (k % 65536) s
    | fault =>
      if x.cop = 8 ∧ ¬ sameBytes x c e = true then collFault d client 2 x.job (k % 65536) s
      else match fault with
      | some code => collFault d client code x.job (k % 65536) s
      | none =>
        if (rows.any fun r => (placeRow x c e r).isNone) = true then collFault d client 7 x.job (k % 65536) s
        else countCtx k (bump (collBlk d 0) 0x008 1 (rows.foldl (fun s r =>
          let row := (placeRow x c e r).getD 0
          let s1 := if sameBytes x c e = true then placeRaw x.smod (d * 4096 + c.dhandle) e c.fmt row c.dcol c.rlen r.2.2 s
            else placeConv client x.smod (d * 4096 + c.dhandle) e c.fmt (f32 (BitVec.ofNat 32 x.tscale)).toRat row c.dcol c.rlen r.2.2 s
          let an := d * 4096 + c.ahandle
          if c.amode = 1 then placeRaw x.smod an (getEnt s1 an) c.fmt row c.dcol c.rlen r.2.2 s1
          else if c.amode = 2 ∧ copTagged x.cop = true then placeWrite x.smod an (8 * (c.drow + r.1)) (leBytes 8 r.2.1) s1
          else s1) s))) := by
    unfold arrivePlace
    rfl
  rw [he] at hk ⊢
  clear he
  clear_value rows client
  have hs : (x.cop = 8 ∧ ¬ sameBytes x c e = true) ↔ (x.cop = 8 ∧ sameBytes x c e = false) := by simp
  refine ⟨fun code h1 h2 => ?_, fun h1 h2 h3 => ?_, fun h1 h2 h3 => ?_, fun h1 h2 h3 => ?_⟩
  · rw [h1]
    rcases hf0 code h1 with rfl | rfl | rfl | rfl
    · rfl
    · rfl
    · exact if_neg (fun h => h2 ⟨by decide, hs.1 h⟩)
    · exact if_neg (fun h => h2 ⟨by decide, hs.1 h⟩)
  · cases hf : ctxFault x c with
    | none => dsimp only; rw [if_pos (hs.2 ⟨h1, h2⟩)]
    | some code =>
      rcases hf0 code hf with rfl | rfl | rfl | rfl
      · exact absurd hf h3
      · rfl
      · exact if_pos (hs.2 ⟨h1, h2⟩)
      · exact if_pos (hs.2 ⟨h1, h2⟩)
  · rw [h1]
    dsimp only
    rw [if_neg (fun h => h2 (hs.1 h)), if_pos]
    obtain ⟨r, h4, h5⟩ := h3
    exact List.any_eq_true.2 ⟨r, h4, by rw [h5]; rfl⟩
  · rw [h1] at hk ⊢
    dsimp only at hk ⊢
    have hn : ¬ (rows.any fun r => (placeRow x c e r).isNone) = true := by
      intro h
      obtain ⟨r, h4, h5⟩ := List.any_eq_true.1 h
      rw [Option.isNone_iff_eq_none] at h5
      exact h3 r h4 h5
    rw [if_neg (fun h => h2 (hs.1 h)), if_neg hn] at hk ⊢
    refine ⟨_, rfl, ?_⟩
    have hfold : ∀ (l : List (Nat × Nat × List Byte)) (s : State), (l.foldl (fun s r =>
          if c.amode = 1 then placeRaw x.smod (d * 4096 + c.ahandle) (getEnt (if sameBytes x c e = true then placeRaw x.smod (d * 4096 + c.dhandle) e c.fmt ((placeRow x c e r).getD 0) c.dcol c.rlen r.2.2 s
            else placeConv client x.smod (d * 4096 + c.dhandle) e c.fmt (f32 (BitVec.ofNat 32 x.tscale)).toRat ((placeRow x c e r).getD 0) c.dcol c.rlen r.2.2 s) (d * 4096 + c.ahandle)) c.fmt ((placeRow x c e r).getD 0) c.dcol c.rlen r.2.2 (if sameBytes x c e = true then placeRaw x.smod (d * 4096 + c.dhandle) e c.fmt ((placeRow x c e r).getD 0) c.dcol c.rlen r.2.2 s
            else placeConv client x.smod (d * 4096 + c.dhandle) e c.fmt (f32 (BitVec.ofNat 32 x.tscale)).toRat ((placeRow x c e r).getD 0) c.dcol c.rlen r.2.2 s)
          else if c.amode = 2 ∧ copTagged x.cop = true then placeWrite x.smod (d * 4096 + c.ahandle) (8 * (c.drow + r.1)) (leBytes 8 r.2.1) (if sameBytes x c e = true then placeRaw x.smod (d * 4096 + c.dhandle) e c.fmt ((placeRow x c e r).getD 0) c.dcol c.rlen r.2.2 s
            else placeConv client x.smod (d * 4096 + c.dhandle) e c.fmt (f32 (BitVec.ofNat 32 x.tscale)).toRat ((placeRow x c e r).getD 0) c.dcol c.rlen r.2.2 s)
          else (if sameBytes x c e = true then placeRaw x.smod (d * 4096 + c.dhandle) e c.fmt ((placeRow x c e r).getD 0) c.dcol c.rlen r.2.2 s
            else placeConv client x.smod (d * 4096 + c.dhandle) e c.fmt (f32 (BitVec.ofNat 32 x.tscale)).toRat ((placeRow x c e r).getD 0) c.dcol c.rlen r.2.2 s)) s).fabric.ctxs = s.fabric.ctxs := by
      intro l
      induction l with
      | nil => intro s; rfl
      | cons r l ih =>
        intro s
        rw [List.foldl_cons, ih]
        have h1 : (if sameBytes x c e = true then placeRaw x.smod (d * 4096 + c.dhandle) e c.fmt ((placeRow x c e r).getD 0) c.dcol c.rlen r.2.2 s
            else placeConv client x.smod (d * 4096 + c.dhandle) e c.fmt (f32 (BitVec.ofNat 32 x.tscale)).toRat ((placeRow x c e r).getD 0) c.dcol c.rlen r.2.2 s).fabric.ctxs = s.fabric.ctxs := by
          split
          · exact placeRaw_ctxs _ _ _ _ _ _ _ _ _
          · exact placeConv_ctxs _ _ _ _ _ _ _ _ _ _ _
        generalize (if sameBytes x c e = true then placeRaw x.smod (d * 4096 + c.dhandle) e c.fmt ((placeRow x c e r).getD 0) c.dcol c.rlen r.2.2 s
            else placeConv client x.smod (d * 4096 + c.dhandle) e c.fmt (f32 (BitVec.ofNat 32 x.tscale)).toRat ((placeRow x c e r).getD 0) c.dcol c.rlen r.2.2 s) = s1 at h1 ⊢
        split
        · rw [placeRaw_ctxs, h1]
        · split
          · rw [placeWrite_ctxs, h1]
          · exact h1
    have hf := hfold rows s
    generalize rows.foldl _ s = z at hf hk ⊢
    have kb := bump_only (collBlk d 0) 0x008 1 z
    generalize bump (collBlk d 0) 0x008 1 z = w at kb hk ⊢
    have hw : ∀ j, getCtx w j = getCtx s j := fun j => by unfold getCtx; rw [kb.fabric (by decide), hf]
    refine ⟨?_, fun j hj => ?_, hk⟩
    · rw [countCtx_getCtx, if_pos rfl, hw]
    · rw [countCtx_getCtx, if_neg hj, hw]

end Sys2Proof.Machine
end

