-- ==== Sys2Proof/Laws/Host.lean ====
section
/-! SUPPORT. The host's queues: stopped, fetched and flushed queues, event records written and held (R340, R345 to R347). -/

set_option Elab.async false

namespace Sys2Proof.Machine

theorem fld_lt (v : Word) (lo n : Nat) : fld v lo n < 2 ^ n := Nat.mod_lt _ (Nat.two_pow_pos n)

theorem bit_setReg_low (v : Word) (x : Nat) : bit (setFld (setFld v 1 1 1) 2 6 x) 1 = true := by
  rw [bit_setFld _ _ _ _ _ (by omega), if_neg (by omega), bit_setFld _ _ _ _ _ (by omega), if_pos (by omega)]
  rfl

theorem stopQueue_stopped (key ctrl code : Nat) (h : code < 64) (s : State) : QueueStopped key ctrl code s (stopQueue key ctrl code s) := by
  have hr : ∀ a, getReg (stopQueue key ctrl code s) a = if a = ctrl then setFld (setFld (getReg s ctrl) 1 1 1) 2 6 code else getReg s a :=
    fun a => getReg_setReg s ctrl a _
  refine ⟨?_, ?_, fun a ha => by rw [hr, if_neg ha], ?_, ?_, rfl⟩
  · rw [hr, if_pos rfl]; exact bit_setReg_low _ _
  · rw [hr, if_pos rfl, fld_setFld _ _ _ _ (by omega)]; exact Nat.mod_eq_of_lt h
  · have : mget false (stopQueue key ctrl code s).host.stopped key = true := by
      show mget false (mset false s.host.stopped key true) key = true
      rw [mget_mset, if_pos rfl]
    unfold queueOn
    rw [this]
    exact Bool.and_false _
  · exact (stopQueue_kept key ctrl code (Kept.rfl' s) (ks := [.regs, .host]) (by decide)).only

theorem queueSize_pos (s : State) (r : Nat) : 2 ≤ queueSize s r := by
  unfold queueSize
  rw [Nat.pow_succ]
  have := Nat.two_pow_pos (min 11 (fld (getReg s r) 0 4))
  omega

theorem queueSize_le (s : State) (r : Nat) : queueSize s r ≤ 4096 := by
  unfold queueSize
  exact Nat.pow_le_pow_right (by omega) (by omega : min 11 (fld (getReg s r) 0 4) + 1 ≤ 12)

theorem queueSize_congr {s n : State} {r : Nat} (h : getReg n r = getReg s r) : queueSize n r = queueSize s r := by unfold queueSize; rw [h]

theorem sqReg_ne (q a b : Nat) (h : a ≠ b) : sqReg q a ≠ sqReg q b := by unfold sqReg bar0; omega

theorem eqReg_ne (q a b : Nat) (h : a ≠ b) : eqReg q a ≠ eqReg q b := by unfold eqReg bar0; omega

/-- What has been fetched keeps the queue's size, base and enable. -/
theorem Fetched.size {q k : Nat} {s n : State} (h : Fetched q k s n) : queueSize n (sqReg q 8) = queueSize s (sqReg q 8) :=
  queueSize_congr (h.2.2.1 _ (sqReg_ne _ _ _ (by decide)))

theorem Fetched.on {q k : Nat} {s n : State} (h : Fetched q k s n) : queueOn n q (sqReg q 0x18) = queueOn s q (sqReg q 0x18) := by
  unfold queueOn
  rw [h.2.2.1 _ (sqReg_ne _ _ _ (by decide)), h.1]

theorem Fetched.mem {q k : Nat} {s n : State} (h : Fetched q k s n) (a m : Nat) : hostBytes n a m = hostBytes s a m ∧ hostOk n a m = hostOk s a m := by
  unfold hostBytes hostByte hostOk
  rw [h.1]
  exact ⟨rfl, rfl⟩

theorem fetchOne_fetched (q k : Nat) (s y : State) (h : Fetched q k s y) (hon : queueOn s q (sqReg q 0x18) = true)
    (hne : (fld (getReg s (sqReg q 0x10)) 0 12 + k) % queueSize s (sqReg q 8) ≠ mget 0 s.host.tails q) :
    (hostOk s (sqEntry s q k) 64 = true → Fetched q (k + 1) s (fetchOne q y)) ∧
    (hostOk s (sqEntry s q k) 64 = false → QueueStopped q (sqReg q 0x18) 2 y (fetchOne q y)) := by
  have h1 := h.1
  have h2 := h.2.1
  have h3 := h.2.2.1
  have h4 := h.2.2.2
  have ha : (getReg y (sqReg q 0)).toNat / 64 * 64 + 64 * fld (getReg y (sqReg q 0x10)) 0 12 = sqEntry s q k := by
    unfold sqEntry
    rw [h3 _ (sqReg_ne _ _ _ (by decide)), h2]
  have ht : mget 0 y.host.tails q = mget 0 s.host.tails q := by rw [h1]
  have hc : ¬ (mget 0 y.host.tails q = fld (getReg y (sqReg q 0x10)) 0 12 ∨ ¬ queueOn y q (sqReg q 0x18) = true) := by
    rw [ht, h2, h.on, hon]
    rintro (hh | hh)
    · exact hne hh.symm
    · exact hh rfl
  unfold fetchOne
  dsimp only
  rw [if_neg hc, ha, (h.mem _ _).2, (h.mem _ _).1]
  constructor
  · intro hk
    rw [if_neg (by rw [hk]; decide)]
    have hr : ∀ a, getReg (setReg (sqReg q 0x10) (BitVec.ofNat 64 ((fld (getReg y (sqReg q 0x10)) 0 12 + 1) % queueSize y (sqReg q 8))) y) a =
        if a = sqReg q 0x10 then BitVec.ofNat 64 ((fld (getReg y (sqReg q 0x10)) 0 12 + 1) % queueSize y (sqReg q 8)) else getReg y a := fun a => getReg_setReg y _ a _
    refine ⟨?_, ?_, fun a ha => ?_, ?_⟩
    · have h6 : ∀ z : HostCmd, ({ y.host with fetched := y.host.fetched ++ [z] } : HostSt) = { s.host with fetched := s.host.fetched ++
          ((List.range k).map (fun i => { q := q, words := wordsOf 8 (hostBytes s (sqEntry s q i) 64) }) ++ [z]) } := by
        intro z; rw [h1, List.append_assoc]
      rw [List.range_succ, List.map_append]
      exact h6 _
    · show fld (getReg (setReg _ _ y) _) 0 12 = _
      have := Nat.mod_lt (fld (getReg s (sqReg q 0x10)) 0 12 + (k + 1)) (show 0 < queueSize s (sqReg q 8) by have := queueSize_pos s (sqReg q 8); omega)
      have h5 := queueSize_le s (sqReg q 8)
      rw [hr, if_pos rfl, h.size, h2, Nat.mod_add_mod, Nat.add_assoc, fld_ofNat _ _ _ (by omega)]
      rw [Nat.pow_zero, Nat.div_one]
      exact Nat.mod_eq_of_lt (by omega)
    · show getReg (setReg _ _ y) a = _
      rw [hr, if_neg ha, h3 a ha]
    · refine h4.step (js := [.regs, .host]) ?_ (by decide)
      exact ((setReg_only _ _ y).mono (by decide)).step (only_host _ _) (by decide)
  · intro hk
    rw [if_pos (by rw [hk]; decide)]
    exact stopQueue_stopped _ _ _ (by decide) y

theorem fetchOne_stopped (q : Nat) (y : State) (h : queueOn y q (sqReg q 0x18) = false) : fetchOne q y = y := by
  unfold fetchOne
  dsimp only
  rw [if_pos (Or.inr (by rw [h]; decide))]

theorem iter_succ {σ : Type} (n : Nat) (f : Nat → σ → σ) (s : σ) : iter (n + 1) f s = f n (iter n f s) := by
  unfold iter
  rw [List.range_succ, List.foldl_append]
  rfl

theorem fetchQueue_fetched (q : Nat) (s : State) : QueueFetched q s (fetchQueue q s) := by
  unfold QueueFetched
  intro sz k
  have hn : fetchQueue q s = if bit (getReg s (bar0 0)) 0 = true then iter k (fun _ s => fetchOne q s) s else s := rfl
  refine ⟨fun h => by rw [hn, if_neg (by rw [h]; decide)], fun h hon htl hhd => ?_⟩
  rw [hn, if_pos h]
  clear hn
  have hk : k < sz := Nat.mod_lt _ (by omega)
  have hne : ∀ i, i < k → (fld (getReg s (sqReg q 0x10)) 0 12 + i) % sz ≠ mget 0 s.host.tails q := by
    intro i hi he
    have hkd : k = (mget 0 s.host.tails q + sz - fld (getReg s (sqReg q 0x10)) 0 12) % sz := rfl
    generalize mget 0 s.host.tails q = t at *
    generalize fld (getReg s (sqReg q 0x10)) 0 12 = hd at *
    by_cases h1 : hd + i < sz
    · rw [Nat.mod_eq_of_lt h1] at he
      have : t + sz - hd = i + sz := by omega
      rw [this, Nat.add_mod_right, Nat.mod_eq_of_lt (by omega)] at hkd
      omega
    · rw [Nat.mod_eq_sub_mod (by omega), Nat.mod_eq_of_lt (by omega)] at he
      have : t + sz - hd = i := by omega
      rw [this, Nat.mod_eq_of_lt (by omega)] at hkd
      omega
  have hf0 : Fetched q 0 s s := by
    refine ⟨by rw [List.range_zero, List.map_nil, List.append_nil], by rw [Nat.add_zero, Nat.mod_eq_of_lt hhd], fun _ _ => rfl, Only.rfl' s⟩
  have hf : ∀ j, j ≤ k → (∀ i, i < j → hostOk s (sqEntry s q i) 64 = true) → Fetched q j s (iter j (fun _ s => fetchOne q s) s) := by
    intro j
    induction j with
    | zero => intro _ _; exact hf0
    | succ j ih =>
      intro hj ho
      rw [iter_succ]
      exact (fetchOne_fetched q j s _ (ih (by omega) fun i hi => ho i (by omega)) hon (hne j (by omega))).1 (ho j (by omega))
  refine ⟨fun ho => hf k (Nat.le_refl k) ho, fun j hj ho hno => ⟨_, hf j (by omega) ho, ?_⟩⟩
  have h0 := (fetchOne_fetched q j s _ (hf j (by omega) ho) hon (hne j hj)).2 hno
  have hs : ∀ m, iter (j + 1 + m) (fun _ s => fetchOne q s) s = fetchOne q (iter j (fun _ s => fetchOne q s) s) := by
    intro m
    induction m with
    | zero => exact iter_succ _ _ _
    | succ m ih =>
      rw [← Nat.add_assoc, iter_succ, ih]
      exact fetchOne_stopped q _ h0.2.2.2.1
  have : k = j + 1 + (k - (j + 1)) := by omega
  rw [this, hs]
  exact h0

theorem mget_zipIdx (bs : List Byte) (a b : Nat) (m : SMap Byte) :
    mget 0#8 (bs.zipIdx.foldl (fun m x => mset 0#8 m (a + x.2) x.1) m) b = if a ≤ b ∧ b < a + bs.length then nth 0 bs (b - a) else mget 0#8 m b := by
  induction bs using List.reverseRecOn with
  | nil => rw [if_neg (by simp)]; rfl
  | append_singleton l x ih =>
    rw [List.zipIdx_append, List.foldl_append, List.length_append]
    simp only [List.zipIdx_singleton, List.foldl_cons, List.foldl_nil, Nat.zero_add, List.length_singleton]
    rw [mget_mset, ih]
    unfold nth
    by_cases h : b = a + l.length
    · subst h
      rw [if_pos rfl, if_pos (by omega), List.getD_append_right _ _ _ _ (by omega)]
      simp
    · rw [if_neg h]
      by_cases h2 : a ≤ b ∧ b < a + l.length
      · rw [if_pos h2, if_pos (by omega), List.getD_append _ _ _ _ (by omega)]
      · rw [if_neg h2, if_neg (by omega)]

theorem hostByte_hostWrite (a : Nat) (bs : List Byte) (s : State) (b : Nat) :
    hostByte (hostWrite a bs s) b = if a ≤ b ∧ b < a + bs.length then nth 0 bs (b - a) else hostByte s b := mget_zipIdx bs a b s.host.mem

theorem getEvQ_setEvQ (e k : Nat) (x : EvQ) (s : State) : getEvQ (setEvQ e x s) k = if k = e then x else getEvQ s k := mget_mset _ _ _ _ _

theorem recordWords_length (e : Event) (p : Bool) (x y : Word) : (bytesOf (recordWords e p x y)).length = 32 := rfl

theorem writeEvent_none (e : Nat) (v : Event) (s : State) (h : hostOk s (evTail s e) 32 = false) : writeEvent e v s = none := by
  unfold writeEvent
  dsimp only
  rw [if_pos (by
    change ¬ hostOk s (evTail s e) 32 = true
    rw [h]; decide)]

theorem writeEvent_some (e : Nat) (v : Event) (s : State) (h : hostOk s (evTail s e) 32 = true) :
    ∃ m, writeEvent e v s = some m ∧ EventWritten e v (getEvQ s e).hold s m := by
  have hk : ∀ m, writeEvent e v s = some m → Only [.regs, .host, .free] s m := fun m hm =>
    (writeEvent_kept e v (Kept.rfl' s) hm (ks := [.regs, .host, .free]) (by decide)).only
  have hb : ∀ p, ∃ x y, (recordBytes v p s).1 = bytesOf (recordWords v p x y) := fun p => ⟨_, _, rfl⟩
  have hs := fun p => (recordBytes_kept v p (Kept.rfl' s) (ks := [.free]) (by decide)).only
  have hw : writeEvent e v s = some (setReg (eqReg e 0x10) (BitVec.ofNat 64 ((fld (getReg s (eqReg e 0x10)) 0 12 + 1) % queueSize s (eqReg e 8)))
      (setEvQ e { getEvQ s e with phase := if (fld (getReg s (eqReg e 0x10)) 0 12 + 1) % queueSize s (eqReg e 8) = 0 then !(getEvQ s e).phase else (getEvQ s e).phase,
                                  unsig := (getEvQ s e).unsig + 1, urgent := (getEvQ s e).urgent || decide (3 ≤ v.sev) }
        (hostWrite (evTail s e) (recordBytes v (getEvQ s e).phase s).1 (recordBytes v (getEvQ s e).phase s).2))) := by
    unfold writeEvent
    dsimp only
    rw [if_neg (by
      change ¬ ¬ hostOk s (evTail s e) 32 = true
      rw [h]; decide)]
    rfl
  refine ⟨_, hw, ?_⟩
  have hk := hk _ hw
  obtain ⟨x, y, hxy⟩ := hb (getEvQ s e).phase
  have hs := hs (getEvQ s e).phase
  clear hw hb
  generalize recordBytes v (getEvQ s e).phase s = rb at hxy hs hk ⊢
  obtain ⟨bs, s1⟩ := rb
  dsimp only at hxy hs hk ⊢
  have hlen : bs.length = 32 := by rw [hxy]; exact recordWords_length _ _ _ _
  have hhost : s1.host = s.host := hs.host (by decide)
  have hregs : ∀ b, getReg s1 b = getReg s b := fun b => getReg_congr (hs.regs (by decide)) b
  generalize hx : ({ getEvQ s e with phase := _, unsig := _, urgent := _ } : EvQ) = q' at hk ⊢
  have hm := hostByte_hostWrite (evTail s e) bs s1
  refine ⟨⟨x, y, fun i hi => ?_⟩, fun b hb => ?_, ?_, fun b hb => ?_, ?_, fun k hk' => ?_, ?_, hk⟩
  · change hostByte (hostWrite (evTail s e) bs s1) _ = _
    rw [hm, hlen, if_pos (by omega), hxy, Nat.add_sub_cancel_left]
  · change hostByte (hostWrite (evTail s e) bs s1) _ = _
    rw [hm, hlen, if_neg (by omega)]
    unfold hostByte; rw [hhost]
  · have := Nat.mod_lt (fld (getReg s (eqReg e 0x10)) 0 12 + 1) (show 0 < queueSize s (eqReg e 8) by have := queueSize_pos s (eqReg e 8); omega)
    have h5 := queueSize_le s (eqReg e 8)
    rw [getReg_setReg, if_pos rfl, fld_ofNat _ _ _ (by omega)]
    rw [Nat.pow_zero, Nat.div_one]
    exact Nat.mod_eq_of_lt (by omega)
  · rw [getReg_setReg, if_neg hb]
    exact hregs b
  · change getEvQ (setEvQ e q' (hostWrite (evTail s e) bs s1)) e = _
    rw [getEvQ_setEvQ, if_pos rfl, ← hx]
  · change getEvQ (setEvQ e q' (hostWrite (evTail s e) bs s1)) k = _
    rw [getEvQ_setEvQ, if_neg hk']
    unfold getEvQ
    exact congrArg (fun h : HostSt => mget {} h.queues k) hhost
  · rw [← hhost]; rfl

theorem flushOne_cases (e : Nat) (s : State) :
    ((getEvQ s e).hold = [] ∨ evqOpen s e = false → flushOne e s = s) ∧
    ∀ v l, (getEvQ s e).hold = v :: l → evqOpen s e = true →
      (hostOk s (evTail s e) 32 = true → EventWritten e v l s (flushOne e s)) ∧
      (hostOk s (evTail s e) 32 = false → QueueStopped (128 + e) (eqReg e 0x18) 2 s (flushOne e s)) := by
  unfold flushOne
  constructor
  · intro h
    cases hh : (getEvQ s e).hold with
    | nil => rfl
    | cons v l =>
      dsimp only
      rw [if_pos (by
        rcases h with h | h
        · rw [hh] at h; exact absurd h (by simp)
        · rw [h]; decide)]
  · intro v l hh ho
    rw [hh]
    dsimp only
    rw [if_neg (by rw [ho]; decide)]
    constructor
    · intro hk
      obtain ⟨m, m1, m2⟩ := writeEvent_some e v s hk
      rw [m1]
      dsimp only
      obtain ⟨a1, a2, a3, a4, a5, a6, a7, a8⟩ := m2
      refine ⟨a1, a2, a3, a4, ?_, fun k hk' => ?_, ?_, a8.step (only_host _ m) (by decide)⟩
      · rw [getEvQ_setEvQ, if_pos rfl, a5]
      · rw [getEvQ_setEvQ, if_neg hk', a6 k hk']
      · have h6 : ∀ z : SMap EvQ, ({ m.host with queues := z } : HostSt) = { s.host with mem := m.host.mem, queues := z } := fun z => by rw [a7]
        exact h6 _
    · intro hk
      rw [writeEvent_none e v s hk]
      exact stopQueue_stopped _ _ _ (by decide) s

theorem evqOpen_stopped {e : Nat} {s n : State} (h : QueueStopped (128 + e) (eqReg e 0x18) 2 s n) : evqOpen n e = false := by
  unfold evqOpen
  rw [h.2.2.2.1]
  rfl

theorem iter_fix {σ : Type} (f : σ → σ) (s : σ) (h : f s = s) (n : Nat) : iter n (fun _ => f) s = s := by
  induction n with
  | zero => rfl
  | succ n ih => rw [iter_succ, ih, h]

theorem iter_succ' {σ : Type} (f : σ → σ) (s : σ) (n : Nat) : iter (n + 1) (fun _ => f) s = iter n (fun _ => f) (f s) := by
  induction n generalizing s with
  | zero => rfl
  | succ n ih => rw [iter_succ, ih, ← iter_succ n (fun _ => f) (f s)]

theorem iter_flushed (e : Nat) : ∀ (k : Nat) (s : State), Flushed e k s (iter k (fun _ s => flushOne e s) s) := by
  intro k
  induction k with
  | zero => intro s; exact (rfl : s = s)
  | succ k ih =>
    intro s
    obtain ⟨h1, h2⟩ := flushOne_cases e s
    have hi := iter_succ' (fun s => flushOne e s) s k
    rw [hi]
    refine ⟨fun h => ?_, fun v l hv ho => ⟨fun hk => ⟨_, (h2 v l hv ho).1 hk, ih _⟩, fun hk => ?_⟩⟩
    · have := h1 h
      show iter k _ (flushOne e s) = s
      rw [this]
      exact iter_fix (fun s => flushOne e s) s this k
    · have h3 := (h2 v l hv ho).2 hk
      have h4 := (flushOne_cases e (flushOne e s)).1 (Or.inr (evqOpen_stopped h3))
      have := iter_fix (fun s => flushOne e s) (flushOne e s) h4 k
      rw [this]
      exact h3

theorem flushHold_flushed (e : Nat) (s : State) : Flushed e (getEvQ s e).hold.length s (flushHold e s) := iter_flushed e _ s

theorem holdEvent_held (e : Nat) (v : Event) (s : State) : RecordHeld e v s (holdEvent e v s) := by
  unfold RecordHeld
  intro h lost
  have hn : holdEvent e v s = if h.length < 256 then setEvQ e { getEvQ s e with hold := h ++ [v] } s
      else if v.sev < 3 then lostEvent s
      else match h.findIdx? fun y => decide (y.sev < 3) with
        | some i => lostEvent (setEvQ e { getEvQ s e with hold := h.eraseIdx i ++ [v] } s)
        | none => lostEvent s := rfl
  have hl : ∀ y, holdEvent e v s = lostEvent y → lost y := by
    intro y hy
    show _ ∧ _
    rw [hy]
    exact ⟨bumpDict_countUp _ _ y, bumpDict_only _ _ y⟩
  refine ⟨fun h1 => hn.trans (if_pos h1), fun h1 h2 => ?_, fun h1 h2 h3 => ?_, fun h1 h2 a w b h3 h4 h5 => ?_⟩
  · rw [if_neg (show ¬ h.length < 256 by omega), if_pos h2] at hn; exact hl s hn
  · have : h.findIdx? (fun y => decide (y.sev < 3)) = none := by
      rw [List.findIdx?_eq_none_iff]
      intro x hx
      have := h3 x hx
      exact decide_eq_false (by omega)
    rw [if_neg (show ¬ h.length < 256 by omega), if_neg (by omega), this] at hn
    exact hl s hn
  · have : h.findIdx? (fun y => decide (y.sev < 3)) = some a.length := by
      rw [h3, List.findIdx?_append]
      have : a.findIdx? (fun y => decide (y.sev < 3)) = none := by
        rw [List.findIdx?_eq_none_iff]
        intro x hx
        have := h4 x hx
        exact decide_eq_false (by omega)
      rw [this, List.findIdx?_cons, if_pos (decide_eq_true h5)]
      simp
    rw [if_neg (show ¬ h.length < 256 by omega), if_neg (by omega), this] at hn
    dsimp only at hn
    have he : h.eraseIdx a.length = a ++ b := by
      rw [h3, List.eraseIdx_append_of_length_le (Nat.le_refl _), Nat.sub_self]; rfl
    rw [he] at hn
    exact hl _ hn

theorem unsignal_spec (p : Nat → Bool) (k : Nat) (s : State) :
    let n := ((List.range k).filter p).foldl (fun s e => setEvQ e { getEvQ s e with unsig := 0, urgent := false, waits := false } s) s
    n = { s with host := { s.host with queues := n.host.queues } } ∧
      ∀ e, getEvQ n e = if e < k ∧ p e = true then { getEvQ s e with unsig := 0, urgent := false, waits := false } else getEvQ s e := by
  induction k with
  | zero => exact ⟨rfl, fun e => (if_neg (by omega)).symm⟩
  | succ k ih =>
    dsimp only at ih ⊢
    rw [List.range_succ, List.filter_append, List.foldl_append]
    generalize List.foldl _ s ((List.range k).filter p) = y at ih ⊢
    obtain ⟨h1, h2⟩ := ih
    by_cases hp : p k = true
    · have : [k].filter p = [k] := by simp [hp]
      rw [this, List.foldl_cons, List.foldl_nil]
      refine ⟨by rw [h1]; rfl, fun e => ?_⟩
      rw [getEvQ_setEvQ]
      by_cases he : e = k
      · subst he
        rw [if_pos rfl, if_pos ⟨Nat.lt_succ_self _, hp⟩, h2, if_neg (by omega)]
      · rw [if_neg he, h2]
        exact if_congr (and_congr_left fun _ => by omega) rfl rfl
    · have : [k].filter p = [] := by simp [hp]
      rw [this, List.foldl_nil]
      refine ⟨h1, fun e => ?_⟩
      rw [h2]
      by_cases he : e = k
      · subst he
        rw [if_neg (by omega), if_neg (fun h => hp h.2)]
      · exact if_congr (and_congr_left fun _ => by omega) rfl rfl

end Sys2Proof.Machine
end

