-- ==== Sys2Proof/Laws/HostCmds.lean ====
section
/-! SUPPORT. Host commands: which one is served, their completion, what an eviction ends, captures and loads (R340 to R344, R349 to R351, R376 to R384). -/

set_option Elab.async false

namespace Sys2Proof.Machine

theorem hostDone_done (h : HostCmd) (status reason : Nat) (y : State) : CmdDone h status reason y (cmdDone h status reason y) := by
  unfold CmdDone
  intro c
  have hn : cmdDone h status reason y = if status = 0 ∧ ¬ h.notify = true then y
    else postEvent { code := 1, sev := 0, client := c, queue := h.q, cmdid := h.id, status := status, step := stepNow y c, detail := reason, tick := y.tick % 2 ^ 40 } y := rfl
  have hb : (status = 0 ∧ h.notify = false) ↔ (status = 0 ∧ ¬ h.notify = true) := by rw [Bool.not_eq_true]
  exact ⟨fun hh => hn.trans (if_pos (hb.1 hh)), fun hh => hn.trans (if_neg fun h2 => hh (hb.2 h2))⟩

theorem withHost_none {s : State} {q : Nat} (hop : Nat) (k : HostCmd → State → State) (h : nextHost s q = none) : withHost hop q s k = s := by
  unfold withHost; rw [h]

/-- What becomes of a queue's next command where one of an opcode is looked for (R340, R341, R349, R354, R391). -/
theorem withHost_some {s : State} {q : Nat} {h : HostCmd} (hop : Nat) (k : HostCmd → State → State) (hh : nextHost s q = some h) :
    withHost hop q s k = if h.hop ≠ hop then s
      else if stageOf s ≠ 2 ∧ stageOf s ≠ 3 then cmdDone h (sketchStatus hop) 0 (dropHost h s)
      else if (64 ≤ q) ≠ (0x10 ≤ hop) then cmdDone h stRefused 0 (dropHost h s)
      else if 64 ≤ q then k h (dropHost h s)
      else if (getClient s (queueClient q)).state = 0 then cmdDone h stNotAdmitted 0 (dropHost h s)
      else if hop ≠ 5 ∧ ¬ ((getClient s (queueClient q)).state = 2 ∨ ((getClient s (queueClient q)).state = 1 ∧ inTurn s (queueClient q) = true)) then s
      else k h (dropHost h s) := by
  unfold withHost; rw [hh]

theorem withHost_serves {s : State} {q hop : Nat} {h : HostCmd} (k : HostCmd → State → State) (hs : HostServes s q hop h) :
    withHost hop q s k = k h (dropHost h s) := by
  obtain ⟨h1, h2, h3, h4⟩ := hs
  rw [withHost_some hop k h1, if_neg (fun hh => hh h2), if_neg (by omega)]
  rcases h4 with ⟨h4, h5⟩ | ⟨h4, h5, h6, h7⟩
  · rw [if_neg (by simp [h4, h5]), if_pos h4]
  · rw [if_neg (by simp; omega), if_neg (by omega), if_neg h6, if_neg ?_]
    rintro ⟨h8, h9⟩
    rcases h7 with h7 | h7
    · exact h8 h7
    · exact h9 h7

/-- The queue of a command that a queue serves. -/
theorem HostServes.q {s : State} {q hop : Nat} {h : HostCmd} (hs : HostServes s q hop h) : h.q = q := by
  have h1 := hs.1
  unfold nextHost at h1
  split at h1
  · exact absurd h1 (by simp)
  · have := List.find?_some h1
    exact of_decide_eq_true this

theorem setClient_is (c : Nat) (z : Client) (s : State) : ClientIs s (setClient c z s) c z :=
  ⟨by rw [getClient_setClient, if_pos rfl], fun k hk => by rw [getClient_setClient, if_neg hk], setClient_only c z s⟩

theorem hostKept_foldl {β : Type} {g : State → β → State} (hg : ∀ s x, HostKept s (g s x)) : ∀ (l : List β) (s : State), HostKept s (l.foldl g s)
  | [], _ => HostKept.of_host rfl
  | x :: l, s => (hg s x).trans (hostKept_foldl hg l (g s x))

theorem hostDone_hostKept (q i : Nat) (nt : Bool) (st re : Nat) (s : State) : HostKept s (hostDone q i nt st re s) := by
  unfold hostDone
  dsimp only
  split
  · exact HostKept.of_host rfl
  · exact (rfl : _ = _)

theorem stopStep_hostKept (c : Nat) (st : StepSt) (s : State) : HostKept s (stopStep c st s) := by
  obtain ⟨y, hy, hn⟩ : ∃ y, Only [.dict, .cat, .plates, .tiles, .units, .clients, .fabric] s y ∧
      stopStep c st s = post 0x0301 c (st.fcode % 65536 + 2 ^ 16 * (st.forigin % 4096)) (bumpDict (dkey 0x4040 0x04) 1 y) := by
    refine ⟨_, ?_, rfl⟩
    refine Kept.only ?_
    have h := Kept.rfl' s (ks := [.dict, .cat, .plates, .tiles, .units, .clients, .fabric])
    have hk : [.dict, .cat, .plates, .tiles, .units, .clients, .fabric] ⊆ [Part.dict, .cat, .plates, .tiles, .units, .clients, .fabric] := List.Subset.refl _
    repeat' first
      | with_reducible assumption
      | exact sub_of hk (by decide)
      | intro _
      | with_reducible apply stopEngine_kept
      | with_reducible apply abortTile_kept
      | with_reducible apply presetTokens_kept
      | with_reducible apply dropTx_kept
      | with_reducible apply freeCtxs_kept
      | with_reducible apply floodAbort_kept
      | with_reducible apply updStep_kept
      | with_reducible apply kept_ite
      | with_reducible apply kept_foldl
      | with_reducible refine kept_mk ?_ (by constructor <;> intro hp <;> first | exact absurd (sub_mem hk (by decide)) hp | rfl) (by rfl) (by rfl)
  rw [hn]
  exact (HostKept.of_host (hy.host (by decide))).trans ((bumpDictW_hostKept _ _ _ _).trans (post_hostKept _ _ _ _))

theorem abortStep_hostKept (c : Nat) (s : State) : HostKept s (abortStep c s) := by
  unfold abortStep
  split
  · exact HostKept.of_host rfl
  · split
    · exact HostKept.of_host rfl
    · dsimp only
      have h0 : ∀ y f, HostKept y (updStep c f y) := fun y f => HostKept.of_host ((updStep_only c f y).host (by decide))
      have h1 : HostKept s (fresh s).2 := HostKept.of_host ((fresh_only s).host (by decide))
      rename_i st _ _
      obtain ⟨st1, hst1⟩ : ∃ st1 : StepSt, st1 = if st.aborted = true then st else { st with aborted := true, fcode := fld (fresh s).1 0 16, forigin := moduleId s } := ⟨_, rfl⟩
      rw [← hst1]
      split
      · refine HostKept.trans ?_ (post_hostKept _ _ _ _)
        refine HostKept.trans ?_ (bumpDictW_hostKept _ _ _ _)
        split
        · exact (h1.trans (h0 _ _)).trans (HostKept.of_host ((floodAbort_only _ _ _ _ _ _).host (by decide)))
        · exact h1.trans (h0 _ _)
      · exact (h1.trans (h0 _ _)).trans (stopStep_hostKept _ _ _)

theorem endCommands_fetched (c status : Nat) (s : State) :
    (endCommands c status s).host.fetched = s.host.fetched.filter fun h => decide (queueClient h.q ≠ c) := by
  have fin : ∀ s3, HostKept s s3 → ((s3.host.fetched.filter fun h => decide (queueClient h.q = c)).foldl (fun s h => cmdDone h status 0 s)
      { s3 with host := { s3.host with fetched := s3.host.fetched.filter fun h => decide (queueClient h.q ≠ c) } }).host.fetched =
      s.host.fetched.filter fun h => decide (queueClient h.q ≠ c) := by
    intro s3 h3
    have hf := hostKept_foldl (g := fun s h => cmdDone h status 0 s) (fun s h => hostDone_hostKept _ _ _ _ _ _)
      (s3.host.fetched.filter fun h => decide (queueClient h.q = c))
      { s3 with host := { s3.host with fetched := s3.host.fetched.filter fun h => decide (queueClient h.q ≠ c) } }
    rw [hf.fetched]
    show s3.host.fetched.filter _ = _
    rw [h3.fetched]
  unfold endCommands
  refine fin _ ?_
  repeat' first
    | with_reducible exact HostKept.of_host rfl
    | with_reducible refine HostKept.trans ?_ (hostDone_hostKept _ _ _ _ _ _)
    | split

theorem mem_of_mget {α : Type} [DecidableEq α] (d : α) : ∀ (m : SMap α) (k : Nat), mget d m k ≠ d → (k, mget d m k) ∈ m
  | [], k, h => absurd rfl h
  | (j, v) :: m, k, h => by
    unfold mget at h ⊢
    split
    · rename_i he; subst he; exact List.mem_cons_self
    · rename_i he
      rw [if_neg he] at h
      exact List.mem_cons_of_mem _ (mem_of_mget d m k h)

theorem applyEntry_getEnt (name : Nat) (e : Entry) (f : Bool) (s : State) (k : Nat) :
    getEnt (applyEntry name e f s) k = if k = name then e else getEnt s k := by
  have h : (applyEntry name e f s).cat.ents = mset {} s.cat.ents name e := by
    unfold applyEntry claimLines clearSlots uncacheName
    dsimp only
    split <;> split <;> rfl
  unfold getEnt
  rw [h, mget_mset]

theorem undefEntries_getEnt (c : Nat) (s : State) (k : Nat) (h : (getEnt s k).ownedBy c = true) : getEnt (undefEntries c s) k = {} := by
  have key : ∀ (l : List (Nat × Entry)) (y : State), getEnt (l.foldl (fun s x => applyEntry x.1 {} false s) y) k =
      if k ∈ l.map (·.1) then {} else getEnt y k := by
    intro l
    induction l with
    | nil => intro y; rfl
    | cons x l ih =>
      intro y
      rw [List.foldl_cons, ih, applyEntry_getEnt, List.map_cons]
      by_cases h1 : k ∈ l.map (·.1)
      · rw [if_pos h1, if_pos (List.mem_cons_of_mem _ h1)]
      · rw [if_neg h1]
        by_cases h2 : k = x.1
        · rw [if_pos h2, if_pos (by rw [h2]; exact List.mem_cons_self)]
        · rw [if_neg h2, if_neg (by rw [List.mem_cons]; rintro (h3 | h3); exacts [h2 h3, h1 h3])]
  unfold undefEntries
  rw [key, if_pos]
  have hm : (k, getEnt s k) ∈ s.cat.ents := mem_of_mget ({} : Entry) s.cat.ents k (by
    intro he
    have : getEnt s k = {} := he
    rw [this] at h
    exact absurd h (by unfold Entry.ownedBy; exact Bool.false_ne_true))
  exact List.mem_map.2 ⟨_, List.mem_filter.2 ⟨hm, h⟩, rfl⟩

theorem HostKept.rfl' (s : State) : HostKept s s := HostKept.of_host rfl

theorem stick_hostKept (b : Nat) (s : State) : HostKept s (stick b s) := by
  unfold stick
  split
  · exact HostKept.of_host rfl
  · exact (HostKept.of_host rfl).trans (post_hostKept _ _ _ _)

theorem bump_hostKept (b i n : Nat) (s : State) : HostKept s (bump b i n s) := by
  unfold bump
  dsimp only
  split
  · exact HostKept.of_host rfl
  · exact (HostKept.of_host rfl).trans (stick_hostKept _ _)

theorem bumpDict_hostKept (k n : Nat) (s : State) : HostKept s (bumpDict k n s) := bumpDictW_hostKept 64 k n s

theorem bumpLedger_hostKept (c i n : Nat) (s : State) : HostKept s (bumpLedger c i n s) := by
  unfold bumpLedger
  split
  · dsimp only
    split
    · exact HostKept.of_host rfl
    · exact (HostKept.of_host rfl).trans (stickDict_hostKept _ _ _)
  · exact HostKept.of_host rfl

theorem setScope_hostKept (c : Nat) (b : BitVec 32) (s : State) : HostKept s (setScope c b s) :=
  HostKept.of_host ((setScope_only c b s).host (by decide))

theorem setBit_hostKept (a i : Nat) (s : State) : HostKept s (setBit a i s) := HostKept.of_host rfl

theorem countPoison_hostKept (k c : Nat) (b : Bool) (s : State) : HostKept s (countPoison k c b s) := by
  unfold countPoison postUncorr
  split
  · exact ((bumpDict_hostKept _ _ _).trans (post_hostKept _ _ _ _)).trans (setScope_hostKept _ _ _)
  · exact ((((bumpDict_hostKept _ _ _).trans (bump_hostKept _ _ _ _)).trans (setBit_hostKept _ _ _)).trans (post_hostKept _ _ _ _)).trans (setScope_hostKept _ _ _)
  · exact HostKept.of_host rfl

theorem countCorrected_hostKept (k : Nat) (s : State) : HostKept s (countCorrected k s) := by
  unfold countCorrected
  split
  · exact bumpDict_hostKept _ _ _
  · exact ((bumpDict_hostKept _ _ _).trans (bump_hostKept _ _ _ _)).trans (setBit_hostKept _ _ _)
  · exact HostKept.of_host rfl

theorem readWord_hostKept (c : Nat) (b : Bool) (k : Nat) (s : State) : HostKept s (readWord c b k s).2 := by
  unfold readWord
  dsimp only
  split
  · exact countPoison_hostKept _ _ _ _
  · split
    · exact HostKept.of_host rfl
    · exact countCorrected_hostKept _ _

theorem noteServed_hostKept (i c n : Nat) (s : State) : HostKept s (noteServed i c n s) := by
  unfold noteServed; split <;> exact HostKept.of_host rfl

theorem countBytes_hostKept (c : Nat) (w : Bool) (a n : Nat) (s : State) : HostKept s (countBytes c w a n s) := by
  unfold countBytes
  split
  · exact ((bump_hostKept _ _ _ _).trans (bumpLedger_hostKept _ _ _ _)).trans (noteServed_hostKept _ _ _ _)
  · exact bumpLedger_hostKept _ _ _ _
  · exact HostKept.of_host rfl

theorem wakeBank_hostKept (a : Nat) (s : State) : HostKept s (wakeBank a s) := by
  unfold wakeBank; split <;> exact HostKept.of_host rfl

theorem writeWord_hostKept (k : Nat) (v : Word) (s : State) : HostKept s (writeWord k v s) := by
  rw [writeWord_eq]; split <;> exact HostKept.of_host rfl

theorem writePart_hostKept (c k o : Nat) (bs : List Byte) (s : State) : HostKept s (writePart c k o bs s) := by
  unfold writePart
  split
  · exact writeWord_hostKept _ _ _
  · dsimp only
    split
    · exact readWord_hostKept _ _ _ _
    · exact (readWord_hostKept _ _ _ _).trans (writeWord_hostKept _ _ _)

theorem hostKept_foldl_snd {α β : Type} (g : α × State → β → α × State) (h : ∀ p x, HostKept p.2 (g p x).2) (l : List β)
    (p : α × State) : HostKept p.2 (l.foldl g p).2 := by
  induction l generalizing p with
  | nil => exact HostKept.of_host rfl
  | cons x l ih => exact (h p x).trans (ih _)

theorem writeMem_hostKept (c a : Nat) (bs : List Byte) (s : State) : HostKept s (writeMem c a bs s) := by
  unfold writeMem
  refine hostKept_foldl (fun s x => ?_) _ s
  exact ((countBytes_hostKept _ _ _ _ _).trans (wakeBank_hostKept _ _)).trans (writePart_hostKept _ _ _ _ _)

theorem readMem_hostKept (c : Nat) (b : Bool) (a n : Nat) (s : State) : HostKept s (readMem c b a n s).2 := by
  unfold readMem
  refine hostKept_foldl_snd _ (fun p x => ?_) _ ([], s)
  exact ((countBytes_hostKept _ _ _ _ _).trans (wakeBank_hostKept _ _)).trans (readWord_hostKept _ _ _ _)

theorem writeBuf_hostKept (c : Nat) (e : Entry) (d o : Nat) (bs : List Byte) (s : State) : HostKept s (writeBuf c e d o bs s) := by
  unfold writeBuf
  refine hostKept_foldl (fun s x => ?_) _ s
  exact writeMem_hostKept _ _ _ _

theorem readBuf_hostKept (c : Nat) (e : Entry) (d o n : Nat) (s : State) : HostKept s (readBuf c e d o n s).2 := by
  unfold readBuf
  refine hostKept_foldl_snd _ (fun p x => ?_) _ ([], s)
  exact readMem_hostKept _ _ _ _ _

theorem afterWrite_hostKept (name : Nat) (e : Entry) (o n : Nat) (s : State) : HostKept s (afterWrite name e o n s) := by
  unfold afterWrite
  refine hostKept_foldl (fun s x => ?_) _ s
  split <;> exact HostKept.of_host rfl

theorem putBuf_hostKept (c name : Nat) (e : Entry) (o : Nat) (bs : List Byte) (s : State) : HostKept s (putBuf c name e o bs s) :=
  (writeBuf_hostKept _ _ _ _ _ _).trans (afterWrite_hostKept _ _ _ _ _)

theorem poisonTo_hostKept (e : Entry) (d o : Nat) (bs : List (Byte × Bool)) (s : State) : HostKept s (poisonTo e d o bs s) := by
  unfold poisonTo
  refine hostKept_foldl (fun s x => ?_) _ s
  split
  · dsimp only
    unfold poisonWord
    split
    · split <;> exact HostKept.of_host rfl
    · exact HostKept.of_host rfl
    · exact HostKept.of_host rfl
  · exact HostKept.of_host rfl

theorem poisonTo_none (e : Entry) (d o : Nat) (bs : List (Byte × Bool)) (s : State) (h : anyPoison bs = false) : poisonTo e d o bs s = s := by
  have key : ∀ l : List ((Byte × Bool) × Nat), (∀ x ∈ l, x.1.2 = false) → l.foldl (fun s x => if x.1.2 then
      poisonWord (addrOf e d (o + x.2) / 8) (s.mem.rawWord (addrOf e d (o + x.2) / 8)) s else s) s = s := by
    intro l
    induction l with
    | nil => intro _; rfl
    | cons x l ih =>
      intro hl
      rw [List.foldl_cons, if_neg (by rw [hl x List.mem_cons_self]; decide)]
      exact ih fun y hy => hl y (List.mem_cons_of_mem _ hy)
  refine key bs.zipIdx fun x hx => ?_
  have := (List.mem_zipIdx hx).2.2
  unfold anyPoison at h
  rw [List.any_eq_false] at h
  have hb := h x.1 (by rw [this]; exact List.getElem_mem _)
  exact Bool.eq_false_iff.2 hb

theorem HostKept.hostByte {s n : State} (h : HostKept s n) (b : Nat) : hostByte n b = hostByte s b := by
  show mget 0#8 n.host.mem b = mget 0#8 s.host.mem b
  rw [h.mem]

theorem HostKept.hostBytes {s n : State} (h : HostKept s n) (a k : Nat) : hostBytes n a k = hostBytes s a k := by
  unfold Machine.hostBytes
  exact List.map_congr_left fun i _ => h.hostByte _

theorem getEnt_congr {s n : State} (h : n.cat = s.cat) (k : Nat) : getEnt n k = getEnt s k := by unfold getEnt; rw [h]

theorem copyIn_val (c n : Nat) (x : CopySide) (s : State) : (copyIn c n x s).1 =
    if x.host = true then (hostBytes s x.addr n).map (fun b => (b, false)) else s.bytesOf (getEnt s x.name) (x.name / 4096) x.off n := by
  unfold copyIn
  split
  · rfl
  · exact readBuf_val _ _ _ _ _ _

theorem copyIn_keeps (c n : Nat) (x : CopySide) (s : State) : HostKept s (copyIn c n x s).2 ∧ SameStore s (copyIn c n x s).2 ∧
    (copyIn c n x s).2.cat = s.cat := by
  have hk := (copyIn_kept c n x (Kept.rfl' s) (ks := [.mem, .regs, .dict, .sat, .banks, .clients, .host, .logs, .wear, .ledger, .served]) (by decide)).only
  refine ⟨?_, ?_, hk.cat (by decide)⟩ <;> unfold copyIn <;> split
  · exact bumpLedger_hostKept _ _ _ _
  · exact readBuf_hostKept _ _ _ _ _ _
  · exact same_of_only (bumpLedger_only _ _ _ _) (by decide) (by decide)
  · exact readBuf_same _ _ _ _ _ _

/-- What COPY moves (R344). -/
theorem copy_spec (c n : Nat) (src dst : CopySide) (x : State) :
    let z := copyIn c n src (crossBridge c (sideDie src) (sideDie dst) n x)
    let y := copyOut c dst z.1 z.2
    let data : List (Byte × Bool) := if src.host then (hostBytes x src.addr n).map fun b => (b, false) else x.bytesOf (getEnt x src.name) (src.name / 4096) src.off n
    z.1 = data ∧ Only [.mem, .regs, .dict, .sat, .cat, .banks, .clients, .host, .logs, .wear, .ledger, .served] x y ∧ y.host.fetched = x.host.fetched ∧
    (dst.host = true → SameBytes x y ∧ (∀ b, b < dst.addr ∨ dst.addr + n ≤ b → hostByte y b = hostByte x b) ∧
      ∀ i, i < n → hostByte y (dst.addr + i) = if (nth (0#8, false) data i).2 then 0xFF#8 else (nth (0#8, false) data i).1) ∧
    (dst.host = false → (∀ b, hostByte y b = hostByte x b) ∧ ((getEnt x dst.name).placed → anyPoison data = false →
      StoredAt x y (getEnt x dst.name) (dst.name / 4096) dst.off (plain data))) := by
  intro z y data
  have h0 : HostKept x (crossBridge c (sideDie src) (sideDie dst) n x) := bumpLedger_hostKept _ _ _ _
  have k0 := (crossBridge_kept c (sideDie src) (sideDie dst) n (Kept.rfl' x) (ks := [.sat, .host, .logs, .ledger]) (by decide)).only
  have hz1 := copyIn_val c n src (crossBridge c (sideDie src) (sideDie dst) n x)
  obtain ⟨hz2, hz3, hz4⟩ := copyIn_keeps c n src (crossBridge c (sideDie src) (sideDie dst) n x)
  have hky := (copyOut_kept c dst z.1 (copyIn_kept c n src (crossBridge_kept c (sideDie src) (sideDie dst) n (Kept.rfl' x)
    (ks := [.mem, .regs, .dict, .sat, .cat, .banks, .clients, .host, .logs, .wear, .ledger, .served]) (by decide)) (by decide)) (by decide)).only
  change Only _ x (copyOut c dst z.1 z.2) at hky
  have hs0 : SameStore x (crossBridge c (sideDie src) (sideDie dst) n x) := same_of_only k0 (by decide) (by decide)
  have hcat : z.2.cat = x.cat := hz4.trans (k0.cat (by decide))
  have hh : HostKept x z.2 := h0.trans hz2
  have hs : SameStore x z.2 := hs0.trans hz3
  have hdata : z.1 = data := by
    refine hz1.trans ?_
    show _ = if src.host = true then _ else _
    refine if_congr Iff.rfl ?_ ?_
    · rw [h0.hostBytes]
    · rw [bytesOf_same hs0, getEnt_congr (k0.cat (by decide))]
  have hlen : data.length = n := by
    show (if src.host = true then (hostBytes x src.addr n).map (fun b => (b, false)) else x.bytesOf (getEnt x src.name) (src.name / 4096) src.off n).length = n
    split
    · rw [List.length_map]; unfold hostBytes; rw [List.length_map, List.length_range]
    · unfold State.bytesOf; rw [List.length_map, List.length_range]
  have hy : copyOut c dst z.1 z.2 = y := rfl
  rw [hdata] at hy hky
  clear_value y z data
  clear hz1 hz2 hz3 hz4
  have hyh : dst.host = true → y = bumpLedger c 0x11 data.length (hostWrite dst.addr (data.map fun x => if x.2 = true then 0xFF#8 else x.1) z.2) := by
    intro hd; rw [← hy]; unfold copyOut; rw [if_pos hd]
  have hyb : dst.host = false → y = poisonTo (getEnt z.2 dst.name) (dst.name / 4096) dst.off data (putBuf c dst.name (getEnt z.2 dst.name) dst.off (plain data) z.2) := by
    intro hd; rw [← hy]; unfold copyOut; rw [if_neg (by rw [hd]; decide)]
  rw [hy] at hky
  clear hy
  refine ⟨hdata, hky, ?_, fun hd => ?_, fun hd => ?_⟩
  · by_cases hd : dst.host = true
    · rw [hyh hd, (bumpLedger_hostKept _ _ _ _).fetched]
      exact hh.fetched
    · have hd : dst.host = false := by simpa using hd
      rw [hyb hd, ((putBuf_hostKept _ _ _ _ _ _).trans (poisonTo_hostKept _ _ _ _ _)).fetched]
      exact hh.fetched
  · have hb : ∀ b, hostByte y b = if dst.addr ≤ b ∧ b < dst.addr + n then
        nth 0 (data.map fun x => if x.2 = true then 0xFF#8 else x.1) (b - dst.addr) else hostByte x b := by
      intro b
      rw [hyh hd, (bumpLedger_hostKept _ _ _ _).hostByte, hostByte_hostWrite, List.length_map, hlen, hh.hostByte]
    refine ⟨?_, fun b h => by rw [hb, if_neg (by omega)], fun i hi => ?_⟩
    · rw [hyh hd]
      have hw : SameStore z.2 (hostWrite dst.addr (data.map fun x => if x.2 = true then 0xFF#8 else x.1) z.2) :=
        same_of_only (ks := [.host]) (only_host _ _) (by decide) (by decide)
      exact ((hs.trans hw).trans (same_of_only (bumpLedger_only _ _ _ _) (by decide) (by decide))).bytes
    · rw [hb, if_pos (by omega), Nat.add_sub_cancel_left]
      unfold nth
      rw [List.getD_eq_getElem _ _ (by rw [List.length_map, hlen]; exact hi), List.getElem_map, List.getD_eq_getElem _ _ (by rw [hlen]; exact hi)]
  · refine ⟨fun b => ?_, fun hp hn => ?_⟩
    · rw [hyb hd, ((putBuf_hostKept _ _ _ _ _ _).trans (poisonTo_hostKept _ _ _ _ _)).hostByte, hh.hostByte]
    · rw [hyb hd, poisonTo_none _ _ _ _ _ hn, getEnt_congr hcat]
      exact (putBuf_wrote c dst.name hp dst.off (plain data) z.2).1.from hs

theorem admitClient_spec (c : Nat) (hc : c < 16) (z : Client) (x : State) : let y := admitClient c z x
    y.host = x.host ∧ (∀ k, getClient y k = if k = c then z else getClient x k) ∧
    (∀ k, k / 32 = c → mget 0 y.ledger k = 0) ∧ (∀ k ∈ [dkey 0xA000 (0x10 + c), dkey 0x5101 c, dkey 0x9004 c, dkey 0x9001 c], getDict y k = 0) ∧
    Only [.regs, .dict, .sat, .cat, .plates, .tiles, .units, .clients, .ledger] x y := by
  intro y
  have hn : y = (clientDies z).foldl (fun s d => if dieTaken s c d = true then s else freshDie d s) (freshStats z (freshTotals c (setClient c z x))) := rfl
  have k3 : ∀ (l : List Nat) (m : State), Only [.regs, .cat, .plates, .tiles, .units] m (l.foldl (fun s d => if dieTaken s c d = true then s else freshDie d s) m) :=
    fun l m => Only.foldl (fun s d => Only.ite (Only.rfl' _) ((freshDie_kept d (Kept.rfl' _) (by decide)).only)) _ _
  have k3 := k3 (clientDies z) (freshStats z (freshTotals c (setClient c z x)))
  rw [← hn] at k3
  clear_value y
  clear hn
  have k2 := (freshStats_kept z (Kept.rfl' (freshTotals c (setClient c z x))) (ks := [.regs, .sat]) (by decide)).only
  generalize freshStats z (freshTotals c (setClient c z x)) = s2 at k2 k3
  have k0 := setClient_only c z x
  have g0 : ∀ k, getClient (setClient c z x) k = if k = c then z else getClient x k := fun k => getClient_setClient _ _ _ _
  generalize setClient c z x = s0 at k0 k2 g0
  have k1 := (freshTotals_kept c (Kept.rfl' s0) (ks := [.dict, .sat, .ledger]) (by decide)).only
  have hl : ∀ k, k / 32 = c → mget 0 (freshTotals c s0).ledger k = 0 := by
    intro k hk
    have hm : (freshTotals c s0).ledger = mdrop s0.ledger (fun k => decide (k / 32 = c)) := rfl
    rw [hm, mget_mdrop, if_pos (decide_eq_true hk)]
  have hd : ∀ k ∈ [dkey 0xA000 (0x10 + c), dkey 0x5101 c, dkey 0x9004 c, dkey 0x9001 c], getDict (freshTotals c s0) k = 0 := by
    intro k hk
    show getDict (setDict (dkey 0xA000 (0x10 + c)) 0 (setDict (dkey 0x5101 c) 0 (setDict (dkey 0x9004 c) 0 (setDict (dkey 0x9001 c) 0 s0)))) k = 0
    rw [getDict_setDict, getDict_setDict, getDict_setDict, getDict_setDict]
    simp only [List.mem_cons, List.not_mem_nil, or_false] at hk
    rcases hk with hk | hk | hk | hk
    · rw [if_pos hk]
    · rw [if_pos hk, ite_self]
    · rw [if_pos hk, ite_self, ite_self]
    · rw [if_pos hk, ite_self, ite_self, ite_self]
  generalize freshTotals c s0 = s1 at k1 k2 hl hd
  refine ⟨?_, fun k => ?_, fun k hk => ?_, fun k hk => ?_, ?_⟩
  · rw [k3.host (by decide), k2.host (by decide), k1.host (by decide), k0.host (by decide)]
  · rw [getClient_congr (k3.clients (by decide)), getClient_congr (k2.clients (by decide)), getClient_congr (k1.clients (by decide)), g0]
  · rw [k3.ledger (by decide), k2.ledger (by decide)]; exact hl k hk
  · rw [getDict_congr (k3.dict (by decide)), getDict_congr (k2.dict (by decide))]; exact hd k hk
  · exact (((k0.mono (by decide)).step k1 (by decide)).step k2 (by decide)).step k3 (by decide)

theorem foldl_setReg_cat (l : List Nat) (v : Word) (z : State) : (l.foldl (fun s a => setReg a v s) z).cat = z.cat :=
  foldl_field (fun s => s.cat) l _ z fun _ _ => rfl

theorem evictClient_more (c : Nat) (x : State) : let y := evictClient c true x
    y.host.fetched = x.host.fetched.filter (fun w => decide (queueClient w.q ≠ c)) ∧ (∀ k, (getEnt x k).ownedBy c = true → getEnt y k = {}) := by
  intro y
  have hn : y = (clientDies (getClient x c)).foldl (fun s d => if dieTaken s c d = true then s else freshDie d s)
      (let s5 := zeroLines c (bumpEpochs (seqIds c) (undefEntries c ((List.finRange 4).foldl (fun s d => discardStaged d c s)
          (freeCtxs (fun x => decide (x.state ≠ 0) && decide (x.client = c)) (endCommands c stEvicted (abortStep c x))))))
       { s5 with
        clients := mset {} s5.clients c {},
        fabric := { s5.fabric with
          tx := s5.fabric.tx.filter (fun t => decide (t.client ≠ c)), rx := s5.fabric.rx.filter (fun t => decide (t.client ≠ c)) },
        rot := { s5.rot with saves := mdrop s5.rot.saves (fun k => decide (k / 4 = c)) } }) := rfl
  rw [hn]
  clear hn
  clear y
  have h1 := abortStep_hostKept c x
  obtain ⟨-, -, -, -, e1, -⟩ := abortStep_spec c x
  generalize abortStep c x = s1 at h1 e1 ⊢
  have f2 := endCommands_fetched c stEvicted s1
  have k2 := (endCommands_kept c stEvicted (Kept.rfl' s1) (ks := [.host, .logs]) (by decide)).only
  generalize endCommands c stEvicted s1 = s2 at f2 k2 ⊢
  have k3 := freeCtxs_only (fun x => decide (x.state ≠ 0) && decide (x.client = c)) s2
  generalize freeCtxs (fun x => decide (x.state ≠ 0) && decide (x.client = c)) s2 = s3 at k3 ⊢
  have e4 : ((List.finRange 4).foldl (fun s d => discardStaged d c s) s3).cat.ents = s3.cat.ents := rfl
  have k4 : Only [.cat] s3 ((List.finRange 4).foldl (fun s d => discardStaged d c s) s3) := Only.foldl (fun s d => only_cat _ s) _ _
  generalize (List.finRange 4).foldl (fun s d => discardStaged d c s) s3 = s4 at e4 k4 ⊢
  have u5 := undefEntries_getEnt c s4
  have k5 := (undefEntries_kept c (Kept.rfl' s4) (ks := [.mem, .cat, .plates]) (by decide)).only
  generalize undefEntries c s4 = s5 at u5 k5 ⊢
  have b6 : ∀ l, (bumpEpochs l s5).cat.ents = s5.cat.ents := fun l => by unfold bumpEpochs; rfl
  have b6 := b6 (seqIds c)
  have k6 := (bumpEpochs_kept (seqIds c) (Kept.rfl' s5) (ks := [.cat]) (by decide)).only
  generalize bumpEpochs (seqIds c) s5 = s6 at b6 k6 ⊢
  have k7 : Only [.mem] s6 (zeroLines c s6) := only_mem _ _
  generalize zeroLines c s6 = s7 at k7 ⊢
  obtain ⟨s8, hs8⟩ : ∃ s8 : State, s8 = { s7 with
        clients := mset {} s7.clients c {},
        fabric := { s7.fabric with
          tx := s7.fabric.tx.filter (fun t => decide (t.client ≠ c)), rx := s7.fabric.rx.filter (fun t => decide (t.client ≠ c)) },
        rot := { s7.rot with saves := mdrop s7.rot.saves (fun k => decide (k / 4 = c)) } } := ⟨_, rfl⟩
  have c8 : s8.cat = s7.cat := by rw [hs8]
  have h8 : s8.host = s7.host := by rw [hs8]
  show ((clientDies (getClient x c)).foldl _ { s7 with clients := _, fabric := _, rot := _ }).host.fetched = _ ∧ ∀ k, _ → getEnt ((clientDies (getClient x c)).foldl _ { s7 with clients := _, fabric := _, rot := _ }) k = _
  rw [← hs8]
  clear hs8
  have hd : ∀ (l : List Nat) (m : State), Only [.regs, .cat, .plates, .tiles, .units] m (l.foldl (fun s d => if dieTaken s c d = true then s else freshDie d s) m) ∧
      (l.foldl (fun s d => if dieTaken s c d = true then s else freshDie d s) m).cat.ents = m.cat.ents := by
    intro l m
    refine ⟨Only.foldl (fun s d => Only.ite (Only.rfl' _) ((freshDie_kept d (Kept.rfl' _) (by decide)).only)) _ _, ?_⟩
    refine foldl_field (fun s => s.cat.ents) _ _ _ fun s d => ?_
    split
    · rfl
    · unfold freshDie
      dsimp only
      rw [foldl_setReg_cat]
  obtain ⟨k9, e9⟩ := hd (clientDies (getClient x c)) s8
  generalize (clientDies (getClient x c)).foldl _ s8 = y at k9 e9 ⊢
  refine ⟨?_, fun k hk => ?_⟩
  · rw [k9.host (by decide), h8, k7.host (by decide), k6.host (by decide), k5.host (by decide), k4.host (by decide), k3.host (by decide), f2, h1.fetched]
  · have : (getEnt s4 k).ownedBy c = true := by
      unfold getEnt at hk ⊢
      rw [e4, k3.cat (by decide), k2.cat (by decide), e1]
      exact hk
    have := u5 k this
    unfold getEnt at this ⊢
    rw [e9, c8, k7.cat (by decide), b6]
    exact this

theorem readBuf_only (c : Nat) (e : Entry) (d o n : Nat) (s : State) : Only accessParts s (readBuf c e d o n s).2 :=
  only_of_access (readBuf_access _ _ _ _ _ _)

/-- What reading an image's sections gives (R218, R342). -/
theorem readSections_spec (c : Nat) (k : LoadCmd) (x : State) :
    let secs := k.sections.map fun z => x.bytesOf (getEnt x k.ibuf) (k.ibuf / 4096) (k.ioff + z.1) z.2
    let r := readSections c k x
    r.1 = secs.any anyPoison ∧ r.2.1 = secs.map plain ∧ SameStore x r.2.2 ∧ Only accessParts x r.2.2 := by
  intro secs r
  have key : ∀ (l : List (Nat × Nat)) (b : Bool) (bs : List (List Byte)) (y : State), SameStore x y → Only accessParts x y →
      let r := l.foldl (fun (acc : Bool × List (List Byte) × State) z =>
        let (bs, s1) := readBuf c (getEnt acc.2.2 k.ibuf) (k.ibuf / 4096) (k.ioff + z.1) z.2 acc.2.2
        (acc.1 || anyPoison bs, acc.2.1 ++ [plain bs], s1)) (b, bs, y)
      let secs := l.map fun z => x.bytesOf (getEnt x k.ibuf) (k.ibuf / 4096) (k.ioff + z.1) z.2
      r.1 = (b || secs.any anyPoison) ∧ r.2.1 = bs ++ secs.map plain ∧ SameStore x r.2.2 ∧ Only accessParts x r.2.2 := by
    intro l
    induction l with
    | nil => intro b bs y h1 h2; exact ⟨(Bool.or_false _).symm, (List.append_nil _).symm, h1, h2⟩
    | cons z l ih =>
      intro b bs y h1 h2
      have hv : (readBuf c (getEnt y k.ibuf) (k.ibuf / 4096) (k.ioff + z.1) z.2 y).1 = x.bytesOf (getEnt x k.ibuf) (k.ibuf / 4096) (k.ioff + z.1) z.2 := by
        rw [getEnt_congr (h2.cat (by decide)), readBuf_val]
        exact bytesOf_same h1 _ _ _ _
      have hs := readBuf_same c (getEnt y k.ibuf) (k.ibuf / 4096) (k.ioff + z.1) z.2 y
      have ho := readBuf_only c (getEnt y k.ibuf) (k.ibuf / 4096) (k.ioff + z.1) z.2 y
      rw [List.foldl_cons]
      dsimp only
      generalize readBuf c (getEnt y k.ibuf) (k.ibuf / 4096) (k.ioff + z.1) z.2 y = rb at hv hs ho ⊢
      obtain ⟨v, y1⟩ := rb
      dsimp only at hv hs ho ⊢
      subst hv
      obtain ⟨a1, a2, a3, a4⟩ := ih (b || anyPoison _) (bs ++ [plain _]) y1 (h1.trans hs) (h2.trans ho)
      refine ⟨a1.trans ?_, a2.trans ?_, a3, a4⟩
      · rw [List.map_cons, List.any_cons, Bool.or_assoc]
      · rw [List.map_cons, List.map_cons, List.append_assoc]; rfl
  obtain ⟨a1, a2, a3, a4⟩ := key k.sections false [] x SameStore.rfl (Only.rfl' x)
  exact ⟨a1.trans (Bool.false_or _), a2, a3, a4⟩

theorem readGov_keeps (c g : Nat) (s : State) : SameStore s (readGov c g s).2 ∧ Only accessParts s (readGov c g s).2 :=
  ⟨readBuf_same _ _ _ _ _ _, readBuf_only _ _ _ _ _ _⟩

theorem foldl_setReg_clients {α : Type} (a : α → Nat) (v : State → α → Word) (l : List α) (s : State) :
    (l.foldl (fun s r => setReg (a r) (v s r) s) s).clients = s.clients := foldl_field (fun s => s.clients) _ _ _ fun _ _ => rfl

theorem initGov_scopes (c g : Nat) (s : State) : ScopesOnly s (initGov c g s) := by
  unfold initGov
  refine foldl_scopes _ (fun s l => ?_) _ s
  dsimp only
  generalize List.foldl (fun (w : Word) (r : Nat × Word) => setFld w (8 * tIdx r.2) 8 (getEnt s (tDie r.2 * 4096 + tHp r.2)).wlo8) 0 (layerTensors s g l) = w1
  generalize layerTensors s g l = ts
  have h := (((setLayerState_scopes c g l 0 (BitVec.ofNat 64 (layerRInit s g l)) s).trans (setLayerState_scopes c g l 1 w1 _)).trans
    (setLayerState_scopes c g l 2 0 _)).trans (setLayerState_scopes c g l 3 0 _)
  generalize setLayerState c g l 3 0 _ = y at h ⊢
  exact h.trans (ScopesOnly.of_eq (foldl_setReg_clients (fun r : Nat × Word => govBlk (tDie r.2) (tSlot r.2))
    (fun s r => setFld (getReg s (govBlk (tDie r.2) (tSlot r.2))) 0 8 (layerBsLim s g l)) ts y))

theorem uncachePlates_lines (c : Nat) (s : State) (i : Nat) (h : hasDie (getClient s c) (i / 16) = true) : (getCaches (uncachePlates c s) i).lines = [] := by
  by_cases hd : getCaches (uncachePlates c s) i = {}
  · rw [hd]
  · have hm := mem_of_mget ({} : Caches) (uncachePlates c s).plates.caches i hd
    unfold uncachePlates at hm
    dsimp only at hm
    rw [List.mem_filter] at hm
    obtain ⟨⟨k, v⟩, h1, h2⟩ := List.mem_map.1 hm.1
    dsimp only at h2
    split at h2
    · have h3 := congrArg Prod.snd h2
      have : getCaches (uncachePlates c s) i = { v with lines := [], order := [] } := h3.symm
      rw [this]
    · rename_i hc
      have h3 := congrArg Prod.fst h2
      dsimp only at h3
      exact absurd (h3 ▸ h) hc

/-- What the load of an image that has been read does (R342). -/
theorem loadImage_spec (h : HostCmd) (c : Nat) (k : LoadCmd) (im : Image) (s : State) : ∃ z poison, Only accessParts s z ∧ SameStore s z ∧
    let t := applyRecs c im.recs z
    (∀ r, loadReason z t.2 c k im poison = some r → CmdDone h 3 r z (loadImage h c k im s)) ∧
    (loadReason z t.2 c k im poison = none → ∃ y, Only (.cat :: .plates :: accessParts) s y ∧
      (∀ code, t.1 = some code → CmdDone h 3 (5 + 256 * code) y (loadImage h c k im s) ∧ (getClient y c).set = none) ∧
      (t.1 = none → CmdDone h 0 0 y (loadImage h c k im s) ∧ (getClient y c).set = some (setOf k im) ∧
        ∀ i, hasDie (getClient y c) (i / 16) = true → (getCaches y i).lines = [])) := by
  obtain ⟨g, hg⟩ : ∃ g, g = (match k.gov with | some g => readGov c g s | none => (false, s)) := ⟨_, rfl⟩
  have hgk : SameStore s g.2 ∧ Only accessParts s g.2 := by
    rw [hg]; split
    · exact readGov_keeps _ _ _
    · exact ⟨SameStore.rfl, Only.rfl' s⟩
  have hn : loadImage h c k im s = match loadReason g.2 (applyRecs c im.recs g.2).2 c k im g.1 with
      | some r => cmdDone h stLoadFailed r g.2
      | none =>
        match applyRecs c im.recs g.2 with
        | (some code, s1) => cmdDone h stLoadFailed (5 + 256 * code) (setClient c { getClient s1 c with set := none } s1)
        | (none, s1) =>
          let s2 := uncachePlates c (setClient c { getClient s1 c with set := some (setOf k im) } s1)
          cmdDone h stOk 0 (match k.gov with | some g => initGov c g s2 | none => s2) := by
    rw [hg]; rfl
  clear hg
  obtain ⟨g1, z⟩ := g
  dsimp only at hn hgk
  refine ⟨z, g1, hgk.2, hgk.1, ?_⟩
  have ho := (applyRecs_kept c im.recs (Kept.rfl' z) (ks := .cat :: .plates :: accessParts) (by decide)).only
  generalize applyRecs c im.recs z = t at hn ho ⊢
  obtain ⟨code, s1⟩ := t
  dsimp only at hn ho ⊢
  have hs1 : Only (.cat :: .plates :: accessParts) s s1 := (hgk.2.mono (by decide)).trans ho
  refine ⟨fun r hr => ?_, fun hr => ?_⟩
  · rw [hr] at hn; rw [hn]; exact hostDone_done h _ _ _
  · rw [hr] at hn
    dsimp only at hn
    cases code with
    | some code =>
      dsimp only at hn
      refine ⟨_, hs1.step (setClient_only c { getClient s1 c with set := none } s1) (by decide), fun code' hc => ?_, fun hc => absurd hc (by simp)⟩
      cases hc
      rw [hn]
      exact ⟨hostDone_done h _ _ _, by rw [getClient_setClient, if_pos rfl]⟩
    | none =>
      dsimp only at hn
      have k2 := setClient_only c { getClient s1 c with set := some (setOf k im) } s1
      have g2 : getClient (setClient c { getClient s1 c with set := some (setOf k im) } s1) c = { getClient s1 c with set := some (setOf k im) } := by
        rw [getClient_setClient, if_pos rfl]
      generalize setClient c { getClient s1 c with set := some (setOf k im) } s1 = s2 at hn k2 g2
      have k3 : Only [.plates] s2 (uncachePlates c s2) := only_plates _ _
      have g3 := uncachePlates_lines c s2
      generalize uncachePlates c s2 = s3 at hn k3 g3
      obtain ⟨y, hy⟩ : ∃ y, y = (match k.gov with | some g => initGov c g s3 | none => s3) := ⟨_, rfl⟩
      have hyk : ScopesOnly s3 y ∧ Only accessParts s3 y := by
        rw [hy]; split
        · exact ⟨initGov_scopes _ _ _, (initGov_kept _ _ (Kept.rfl' s3) (by decide)).only⟩
        · exact ⟨ScopesOnly.rfl' _, Only.rfl' _⟩
      rw [← hy] at hn
      clear hy
      have gy := hyk.1 c
      rw [getClient_congr (k3.clients (by decide)), g2] at gy
      refine ⟨y, ((hs1.step k2 (by decide)).step k3 (by decide)).step hyk.2 (by decide), fun code hc => absurd hc (by simp), fun _ => ?_⟩
      refine ⟨by rw [hn]; exact hostDone_done h _ _ _, by rw [gy], fun i hi => ?_⟩
      unfold getCaches at g3 ⊢
      rw [hyk.2.plates (by decide)]
      refine g3 i ?_
      rw [gy] at hi
      rw [g2]
      exact hi

theorem skipCapture_skipped (c : Nat) (b : Bool) (s : State) : CaptureSkipped c b s (skipCapture c b s) :=
  ⟨_, rfl, bumpDict_countUp _ _ _, bumpDict_only _ _ _⟩

theorem updArch_getClient (c : Nat) (f : ArchSt → ArchSt) (s : State) : getClient (updArch c f s) c = { getClient s c with arch := f (getClient s c).arch } := by
  unfold updArch; rw [getClient_setClient, if_pos rfl]

theorem captureImage_captured (c : Nat) (j : ArchJob) (names : List Nat) (s : State) : Captured c j names s (captureImage c j names s) ∧
    (getClient (captureImage c j names s) c).arch.armed = none := by
  have hk := (captureImage_kept c j names (Kept.rfl' s) (ks := .free :: accessParts) (by decide)).only
  unfold Captured
  dsimp only
  generalize ht : takeImage c names s = t
  have hn : captureImage c j names s = setArchState c 2 (updArch c (fun a =>
      { a with armed := none, out := some { j with image := t.1, poison := t.2.1 },
               staged := mset [] (a.staged.filter fun x => !rangesMeet (fld (nth 0 j.words 4) 0 44) t.1.length x.1 x.2.length) (fld (nth 0 j.words 4) 0 44) (t.1.map fun b => (b, false)) }) t.2.2) := by rw [← ht]; rfl
  have hg : ∀ y, getClient (setArchState c 2 y) c = getClient y c := fun y => rfl
  rw [hn] at hk ⊢
  rw [hg, updArch_getClient]
  refine ⟨⟨rfl, ?_, ?_, hk⟩, rfl⟩
  · exact (mget_mset _ _ _ _ _).trans (if_pos rfl)
  · unfold setArchState
    rw [getDict_setDict, if_pos rfl]
    rfl

theorem queueClient_lt (q : Nat) : queueClient q < 256 := by unfold queueClient; split <;> omega

theorem restoreFailed_failed (h : HostCmd) (reason : Nat) (s : State) : RestoreFailed h reason s (restoreFailed h reason s) := by
  refine ⟨_, hostDone_done h 3 reason _, ?_, ?_, ?_, ?_⟩
  · rw [getClient_congr ((bumpDict_only _ _ _).clients (by decide))]
    show (getClient (setClient _ _ _) _).set = _
    rw [getClient_setClient, if_pos rfl]
  · rw [bumpDict_getDict, if_neg (dkey_ne (by simp) (queueClient_lt _) (by decide))]
    unfold setArchState
    rw [getDict_setDict, if_pos rfl]
    rfl
  · rw [bumpDict_countUp]
    unfold setArchState
    rw [getDict_setDict, if_neg (dkey_ne (by simp) (by decide) (queueClient_lt _))]
    rfl
  · exact (((setClient_only _ _ _).mono (by decide)).step (setDict_only _ _ _) (by decide)).step (bumpDict_only _ _ _) (by decide)

theorem restoreData_ok (c : Nat) (img : List Byte) (m : List (Nat × List Word)) (l : List SecInfo) (s : State) :
    (restoreData c img m l s).1 = l.all (secGood img) := by
  unfold restoreData
  have key : ∀ (l : List SecInfo) (p : Bool × State), (l.foldl (fun (acc : Bool × State) x =>
      if acc.1 then (secGood img x, writeBuf c (mapEntry m x.buf) (x.buf / 4096) 0 (secBytes img x) acc.2) else acc) p).1 = (p.1 && l.all (secGood img)) := by
    intro l
    induction l with
    | nil => intro p; exact (Bool.and_true _).symm
    | cons x l ih =>
      intro p
      rw [List.foldl_cons, ih, List.all_cons]
      cases hp : p.1
      · rw [if_neg (by decide), hp]; rfl
      · rw [if_pos rfl]; rfl
  rw [key]
  exact Bool.true_and _

theorem restoreClient_spec (c p : Nat) (hc : c < 200) (img bk man : List Byte) (s : State) : let y := restoreClient c p img bk man s
    (getClient y c).next = p ∧ (getClient y c).seed = some (wordAt img 6).toNat ∧ (getClient y c).scope = 0 ∧
    getDict y (dkey 0x5101 c) = BitVec.ofNat 64 (fld (wordAt img 2) 32 32) ∧ getDict y (dkey 0x9004 c) = BitVec.ofNat 64 (fld (wordAt man 3) 32 32) := by
  intro y
  have hg : ∃ a, getClient y c = { getClient s c with next := p, seed := some (wordAt img 6).toNat, scope := 0, arch := a } :=
    ⟨_, (getClient_setClient _ _ _ _).trans (if_pos rfl)⟩
  obtain ⟨a, hg⟩ := hg
  refine ⟨by rw [hg], by rw [hg], by rw [hg], ?_, ?_⟩
  · show getDict (restoreClient c p img bk man s) _ = _
    unfold restoreClient
    dsimp only
    rw [getDict_setDict, if_neg (dkey_ne (by simp) (by omega) (by omega)), getDict_setDict, if_neg (dkey_ne (by simp) (by omega) (by omega)), getDict_setDict, if_pos rfl]
  · show getDict (restoreClient c p img bk man s) _ = _
    unfold restoreClient
    dsimp only
    rw [getDict_setDict, if_neg (dkey_ne (by simp) (by omega) (by omega)), getDict_setDict, if_neg (dkey_ne (by simp) (by omega) (by omega)), getDict_setDict,
      if_neg (dkey_ne (by simp) (by omega) (by omega)), getDict_setDict, if_pos rfl]

/-- What the second and third phases of a restore leave (R384). -/
theorem applyImage_spec (h : HostCmd) (img man : List Byte) (dataOk : Bool) (z : State) :
    let c := queueClient h.q
    let good := dataOk = true ∧ ∀ z ∈ (imgTable img).drop 2, secGood img z = true
    let n := applyImage h img man dataOk z
    (¬ good → ∃ y, RestoreFailed h 5 y n) ∧
    (good → (∃ k y, RestoreFailed h (8 + 256 * k) y n) ∨
      (∃ y, CmdDone h 0 0 y n ∧ (getClient y c).next = (wordAt img 1).toNat ∧ (getClient y c).seed = some (wordAt img 6).toNat ∧
              (getClient y c).scope = 0 ∧ getDict y (dkey 0x9001 c) = 4 ∧ getDict y (dkey 0x5101 c) = BitVec.ofNat 64 (fld (wordAt img 2) 32 32) ∧
              getDict y (dkey 0x9004 c) = BitVec.ofNat 64 (fld (wordAt man 3) 32 32))) := by
  intro c good n
  have hc : c < 200 := by
    show queueClient h.q < 200
    unfold queueClient; split <;> omega
  obtain ⟨bk, hbk⟩ : ∃ bk, bk = secBytes img (secAt (imgTable img) 1) := ⟨_, rfl⟩
  obtain ⟨m, hm⟩ : ∃ m, m = imgMap img (secAt (imgTable img) 0) := ⟨_, rfl⟩
  obtain ⟨p, hp⟩ : ∃ p, p = (wordAt img 1).toNat := ⟨_, rfl⟩
  obtain ⟨D, hD⟩ : ∃ D, D = if dataOk = true then restoreData c img m ((imgTable img).drop 2) (warnBases c p bk z) else (false, warnBases c p bk z) := ⟨_, rfl⟩
  have hn : n = if ¬ D.1 = true then restoreFailed h 5 D.2 else
      match restoreMap c m (undefEntries c ((List.finRange 4).foldl (fun s d => discardStaged d c s) D.2)) with
      | (some k, s3) => restoreFailed h (8 + 256 * k) s3
      | (none, s3) => cmdDone h stOk 0 (bumpDict (dkey 0x9000 0x05) 1 (setArchState c 4 (restoreClient c p img bk man (freshStats (getClient s3 c) (restoreGov c bk s3))))) := by
    rw [hD, hm, hbk, hp]; rfl
  clear_value n
  have hg : D.1 = true ↔ good := by
    rw [hD]
    by_cases hd : dataOk = true
    · rw [if_pos hd, restoreData_ok, List.all_eq_true]
      exact ⟨fun h => ⟨hd, h⟩, fun h => h.2⟩
    · rw [if_neg hd]
      exact ⟨fun h => absurd (show false = true from h) Bool.false_ne_true, fun h => absurd h.1 hd⟩
  clear hD
  refine ⟨fun h1 => ?_, fun h1 => ?_⟩
  · rw [if_pos (fun hh => h1 (hg.1 hh))] at hn
    rw [hn]
    exact ⟨_, restoreFailed_failed h 5 _⟩
  · rw [if_neg (not_not.2 (hg.2 h1))] at hn
    generalize undefEntries c _ = w at hn
    generalize restoreMap c m w = E at hn
    obtain ⟨k, s3⟩ := E
    cases k with
    | some k =>
      dsimp only at hn
      rw [hn]
      exact .inl ⟨k, _, restoreFailed_failed h _ _⟩
    | none =>
      dsimp only at hn
      rw [hn]
      generalize freshStats (getClient s3 c) (restoreGov c bk s3) = s4
      obtain ⟨a1, a2, a3, a4, a5⟩ := restoreClient_spec c p hc img bk man s4
      generalize restoreClient c p img bk man s4 = s5 at a1 a2 a3 a4 a5
      refine .inr ⟨_, hostDone_done h 0 0 _, ?_⟩
      have hcl : getClient (bumpDict (dkey 0x9000 0x05) 1 (setArchState c 4 s5)) c = getClient s5 c :=
        (getClient_congr ((bumpDict_only _ _ _).clients (by decide)) _).trans rfl
      have hdc : ∀ k, k ≠ dkey 0x9000 0x05 → getDict (bumpDict (dkey 0x9000 0x05) 1 (setArchState c 4 s5)) k = if k = dkey 0x9001 c then 4 else getDict s5 k := by
        intro k hk
        rw [bumpDict_getDict, if_neg hk]
        exact getDict_setDict _ _ _ _
      rw [hcl]
      refine ⟨a1.trans hp, a2, a3, ?_, ?_, ?_⟩
      · rw [hdc _ (dkey_ne (by simp) (by omega) (by omega)), if_pos rfl]
      · rw [hdc _ (dkey_ne (by simp) (by omega) (by omega)), if_neg (dkey_ne (by simp) (by omega) (by omega)), a4]
      · rw [hdc _ (dkey_ne (by simp) (by omega) (by omega)), if_neg (dkey_ne (by simp) (by omega) (by omega)), a5]

end Sys2Proof.Machine
end

