-- ==== Sys2Proof/Laws/Rotation.lean ====
section
/-! SUPPORT. The rotation and the arbiters: clients stopped, saved and brought back, and what a cycle of an arbiter grants (R352 to R364). -/

set_option Elab.async false

namespace Sys2Proof.Machine

theorem anyOpen_congr {s n : State} {c : Nat} (h : (getClient n c).step = (getClient s c).step) : anyOpen n c = anyOpen s c := by
  unfold anyOpen; rw [h]

/-- Whether a client stops where its slice is due (R355, R357). -/
def canStop (s : State) (c : Nat) : Prop := ((getClient s c).state = 1 ∨ (getClient s c).state = 2) ∧ anyOpen s c = false

open Classical in
theorem stopClient_spec (c : Nat) (s : State) : let n := stopClient c s
    (∀ k, getClient n k = if k = c ∧ canStop s c then { getClient s k with state := 4 } else getClient s k) ∧
    (∀ k, mget 0 n.rot.bounds k = if k = c ∧ canStop s c then s.tick else mget 0 s.rot.bounds k) ∧
    n.rot = { s.rot with bounds := n.rot.bounds, between := n.rot.between } ∧ (s.rot.between = true → n.rot.between = true) ∧ Only [.clients, .rot] s n := by
  intro n
  have hk := (stopClient_kept c (Kept.rfl' s) (ks := [.clients, .rot]) (by decide)).only
  have hn : n = if ¬ ((getClient s c).state = 1 ∨ (getClient s c).state = 2) ∨ anyOpen s c = true then s
      else { setClientState c 4 s with rot := { (setClientState c 4 s).rot with between := true, bounds := mset 0 (setClientState c 4 s).rot.bounds c (setClientState c 4 s).tick } } := rfl
  by_cases h : canStop s c
  · have h' : ¬ (¬ ((getClient s c).state = 1 ∨ (getClient s c).state = 2) ∨ anyOpen s c = true) := by
      rintro (h1 | h1)
      · exact h1 h.1
      · exact absurd (h1.symm.trans h.2) (by decide)
    rw [if_neg h'] at hn
    refine ⟨fun k => ?_, fun k => ?_, ?_, fun _ => by rw [hn], hk⟩
    · rw [hn]
      show getClient (setClient c { getClient s c with state := 4 } s) k = _
      rw [getClient_setClient]
      by_cases hkc : k = c
      · rw [if_pos hkc, if_pos ⟨hkc, h⟩, hkc]
      · rw [if_neg hkc, if_neg (fun hh => hkc hh.1)]
    · rw [hn]
      show mget 0 (mset 0 s.rot.bounds c s.tick) k = _
      rw [mget_mset]
      exact if_congr ⟨fun hh => ⟨hh, h⟩, fun hh => hh.1⟩ rfl rfl
    · rw [hn]; rfl
  · have h' : ¬ ((getClient s c).state = 1 ∨ (getClient s c).state = 2) ∨ anyOpen s c = true := by
      by_contra hh
      rw [not_or, not_not, Bool.not_eq_true] at hh
      exact h hh
    rw [if_pos h'] at hn
    rw [hn]
    exact ⟨fun k => by rw [if_neg (fun hh => h hh.2)], fun k => by rw [if_neg (fun hh => h hh.2)], rfl, fun hh => hh, Only.rfl' _⟩

open Classical in
theorem stopClients_spec : ∀ (l : List Nat), l.Nodup → ∀ s : State, let n := l.foldl (fun s c => stopClient c s) s
    (∀ k, getClient n k = if k ∈ l ∧ canStop s k then { getClient s k with state := 4 } else getClient s k) ∧
    (∀ k, mget 0 n.rot.bounds k = if k ∈ l ∧ canStop s k then s.tick else mget 0 s.rot.bounds k) ∧
    n.rot = { s.rot with bounds := n.rot.bounds, between := n.rot.between } ∧ (s.rot.between = true → n.rot.between = true) ∧ Only [.clients, .rot] s n := by
  intro l
  induction l with
  | nil =>
    intro _ s
    exact ⟨fun k => by rw [if_neg (fun h => absurd h.1 List.not_mem_nil)]; rfl, fun k => by rw [if_neg (fun h => absurd h.1 List.not_mem_nil)]; rfl, rfl, fun h => h, Only.rfl' _⟩
  | cons c l ih =>
    intro hd s
    obtain ⟨hc, hl⟩ := List.nodup_cons.1 hd
    rw [List.foldl_cons]
    obtain ⟨a1, a2, a3, a4, a5⟩ := stopClient_spec c s
    obtain ⟨b1, b2, b3, b4, b5⟩ := ih hl (stopClient c s)
    generalize stopClient c s = y at a1 a2 a3 a4 a5 b1 b2 b3 b4 b5 ⊢
    generalize l.foldl _ y = n at b1 b2 b3 b4 b5 ⊢
    have hcan : ∀ k, k ≠ c → (canStop y k ↔ canStop s k) := by
      intro k hk
      have h := a1 k
      rw [if_neg (fun hh => hk hh.1)] at h
      unfold canStop
      rw [anyOpen_congr (congrArg Client.step h), h]
    refine ⟨fun k => ?_, fun k => ?_, by rw [b3, a3], fun h => b4 (a4 h), a5.trans b5⟩
    · rw [b1]
      by_cases hk : k = c
      · subst hk
        rw [if_neg (fun hh => hc hh.1), a1]
        exact if_congr ⟨fun hh => ⟨List.mem_cons_self, hh.2⟩, fun hh => ⟨rfl, hh.2⟩⟩ rfl rfl
      · have h := a1 k
        rw [if_neg (fun hh => hk hh.1)] at h
        rw [h]
        refine if_congr ?_ rfl rfl
        rw [hcan k hk, List.mem_cons]
        exact ⟨fun hh => ⟨.inr hh.1, hh.2⟩, fun hh => ⟨hh.1.resolve_left hk, hh.2⟩⟩
    · rw [b2, a5.tick (by decide)]
      by_cases hk : k = c
      · subst hk
        rw [if_neg (fun hh => hc hh.1), a2]
        exact if_congr ⟨fun hh => ⟨List.mem_cons_self, hh.2⟩, fun hh => ⟨rfl, hh.2⟩⟩ rfl rfl
      · have h := a2 k
        rw [if_neg (fun hh => hk hh.1)] at h
        rw [h]
        refine if_congr ?_ rfl rfl
        rw [hcan k hk, List.mem_cons]
        exact ⟨fun hh => ⟨.inr hh.1, hh.2⟩, fun hh => ⟨hh.1.resolve_left hk, hh.2⟩⟩

theorem foldl_saveDie (c : Nat) (l : List Nat) (s : State) : let n := l.foldl (fun s d => saveDie c d s) s
    n.clients = s.clients ∧ n.rot = { s.rot with saves := n.rot.saves, cost := n.rot.cost } := by
  induction l generalizing s with
  | nil => exact ⟨rfl, rfl⟩
  | cons d l ih =>
    rw [List.foldl_cons]
    obtain ⟨b1, b2⟩ := ih (saveDie c d s)
    have k := (saveDie_kept c d (Kept.rfl' s) (ks := [.mem, .regs, .sat, .cat, .plates, .tiles, .units, .rot, .host, .logs, .ledger]) (by decide)).only
    have h2 : (saveDie c d s).rot = { s.rot with saves := (saveDie c d s).rot.saves, cost := (saveDie c d s).rot.cost } := by
      unfold saveDie
      dsimp only
      have e : ∀ n y, (bumpLedger c 0x12 n y).rot = y.rot := fun n y => (bumpLedger_only _ _ _ _).rot (by decide)
      rw [e]
      have f : (freshDie d (saveLines (getClient s c) d (dieSave c d s).folio s)).rot = s.rot :=
        ((saveLines_kept _ _ _ (Kept.rfl' s) (ks := [.mem]) (by decide)).only.mono (ks := [.mem, .regs, .cat, .plates, .tiles, .units]) (by decide)).trans
          ((freshDie_kept d (Kept.rfl' _) (ks := [.mem, .regs, .cat, .plates, .tiles, .units]) (by decide)).only) |>.rot (by decide)
      dsimp only
      rw [f]
    dsimp only at b1 b2 ⊢
    generalize saveDie c d s = y at b1 b2 k h2 ⊢
    generalize List.foldl _ y l = n at b1 b2 ⊢
    exact ⟨b1.trans (k.clients (by decide)), by rw [b2, h2]⟩

theorem saveClient_spec (c : Nat) (s : State) : let n := saveClient c s
    let rest := (clientDies (getClient s c)).all (dieAtRest s)
    (∀ k, getClient n k = if k = c ∧ (getClient s c).state = 4 ∧ rest = true then { getClient s k with state := 3 } else getClient s k) ∧
    n.rot = { s.rot with saves := n.rot.saves, cost := n.rot.cost, overrun := n.rot.overrun, carry := n.rot.carry } ∧
    Only [.mem, .regs, .sat, .cat, .plates, .tiles, .units, .clients, .rot, .host, .logs, .ledger] s n := by
  intro n rest
  have hk := (saveClient_kept c (Kept.rfl' s) (ks := [.mem, .regs, .sat, .cat, .plates, .tiles, .units, .clients, .rot, .host, .logs, .ledger]) (by decide)).only
  obtain ⟨s1, hs1⟩ : ∃ s1, s1 = bumpLedger c 0x14 (1000 * (s.tick - mget 0 s.rot.bounds c)) ((clientDies (getClient s c)).foldl (fun s d => saveDie c d s) s) := ⟨_, rfl⟩
  have hn : n = if (getClient s c).state ≠ 4 ∨ ¬ rest = true then s else setClientState c 3 { s1 with rot := { s1.rot with
      overrun := max s1.rot.overrun (s.tick - mget 0 s.rot.bounds c), carry := s1.rot.carry + (max s1.rot.overrun (s.tick - mget 0 s.rot.bounds c) - s1.rot.overrun) } } := by
    rw [hs1]; rfl
  obtain ⟨f1, f2⟩ := foldl_saveDie c (clientDies (getClient s c)) s
  have g1 : s1.clients = s.clients := by rw [hs1, (bumpLedger_only _ _ _ _).clients (by decide)]; exact f1
  have g2 : s1.rot = { s.rot with saves := s1.rot.saves, cost := s1.rot.cost } := by
    have : s1.rot = ((clientDies (getClient s c)).foldl (fun s d => saveDie c d s) s).rot := by rw [hs1, (bumpLedger_only _ _ _ _).rot (by decide)]
    rw [this]; exact f2
  clear hs1 f1 f2
  by_cases h : (getClient s c).state = 4 ∧ rest = true
  · rw [if_neg (by rintro (h1 | h1); exacts [h1 h.1, h1 h.2])] at hn
    refine ⟨fun k => ?_, ?_, hk⟩
    · rw [hn]
      unfold setClientState
      rw [getClient_setClient]
      have e : ∀ k, getClient { s1 with rot := { s1.rot with
        overrun := max s1.rot.overrun (s.tick - mget 0 s.rot.bounds c), carry := s1.rot.carry + (max s1.rot.overrun (s.tick - mget 0 s.rot.bounds c) - s1.rot.overrun) } } k = getClient s k :=
        fun k => getClient_congr g1 k
      rw [e, e]
      by_cases hkc : k = c
      · rw [if_pos hkc, if_pos ⟨hkc, h⟩, hkc]
      · rw [if_neg hkc, if_neg (fun hh => hkc hh.1)]
    · rw [hn]
      have e2 : ∀ o k : Nat, ({ s1.rot with overrun := o, carry := k } : Rotation) = { s.rot with saves := s1.rot.saves, cost := s1.rot.cost, overrun := o, carry := k } :=
        fun o k => by rw [g2]
      exact e2 _ _
  · rw [if_pos (by
      by_cases h1 : (getClient s c).state = 4
      · exact .inr (fun hh => h ⟨h1, hh⟩)
      · exact .inl h1)] at hn
    rw [hn]
    exact ⟨fun k => by rw [if_neg (fun hh => h hh.2)], rfl, Only.rfl' _⟩

theorem saveClients_spec : ∀ (l : List Nat) (s : State), let n := l.foldl (fun s c => saveClient c s) s
    (∀ k, getClient n k = { getClient s k with state := (getClient n k).state } ∧ (k ∉ l ∨ (getClient s k).state ≠ 4 → (getClient n k).state = (getClient s k).state) ∧
      ((getClient s k).state = 4 → (getClient n k).state = 4 ∨ (getClient n k).state = 3)) ∧
    n.rot = { s.rot with saves := n.rot.saves, cost := n.rot.cost, overrun := n.rot.overrun, carry := n.rot.carry } ∧
    Only [.mem, .regs, .sat, .cat, .plates, .tiles, .units, .clients, .rot, .host, .logs, .ledger] s n := by
  intro l
  induction l with
  | nil => intro s; exact ⟨fun k => ⟨rfl, fun _ => rfl, fun h => .inl h⟩, rfl, Only.rfl' _⟩
  | cons c l ih =>
    intro s
    rw [List.foldl_cons]
    obtain ⟨a1, a2, a3⟩ := saveClient_spec c s
    obtain ⟨b1, b2, b3⟩ := ih (saveClient c s)
    generalize saveClient c s = y at a1 a2 a3 b1 b2 b3 ⊢
    generalize l.foldl _ y = n at b1 b2 b3 ⊢
    refine ⟨fun k => ?_, by rw [b2, a2], a3.trans b3⟩
    obtain ⟨c1, c2, c3⟩ := b1 k
    have h := a1 k
    split at h
    · rename_i hh
      obtain ⟨rfl, h4, -⟩ := hh
      refine ⟨by rw [c1, h], fun hh => ?_, fun _ => ?_⟩
      · rcases hh with hh | hh
        · exact absurd List.mem_cons_self hh
        · exact absurd h4 hh
      · right
        rw [c2 (.inr (by rw [h]; exact (by decide : (3 : Nat) ≠ 4))), h]
    · rw [h] at c1 c2 c3
      refine ⟨c1, fun hh => c2 ?_, c3⟩
      rcases hh with hh | hh
      · exact .inl fun h' => hh (List.mem_cons_of_mem _ h')
      · exact .inr hh

theorem poisonWord_clients (k : Nat) (v : Word) (s : State) : (poisonWord k v s).clients = s.clients := by
  unfold poisonWord; split <;> (try split) <;> rfl

theorem moveWord_clients (a b : Nat) (s : State) : (moveWord a b s).clients = s.clients := by
  unfold moveWord
  dsimp only
  split
  · exact poisonWord_clients _ _ _
  · exact writeWord_clients _ _ _

theorem bringWord_scopes (c d a b : Nat) (s : State) : ScopesOnly s (bringWord c d a b s) := by
  unfold bringWord
  dsimp only
  refine ScopesOnly.trans ?_ (ScopesOnly.of_eq (moveWord_clients _ _ _))
  split
  · unfold postUncorr
    exact ScopesOnly.trans (ScopesOnly.of_eq (post_clients ..)) (setScope_scopes _ _ _)
  · exact ScopesOnly.rfl' _

theorem ownLine_scopes {r s : State} (h : ScopesOnly r s) (a b : Nat) :
    ScopesOnly r { s with mem := { s.mem with owner := mset 0 s.mem.owner a b } } := h

theorem bringLines_scopes (c : Nat) (cl : Client) (d : Nat) (ls : List Nat) (s : State) : ScopesOnly s (bringLines c cl d ls s) := by
  unfold bringLines
  refine foldl_scopes _ (fun s l => ?_) ls s
  exact ownLine_scopes (foldl_scopes _ (fun s i => bringWord_scopes c d _ _ s) (List.range 8) s) _ _

/-- What a switch that brings a client back may change of the rotation, and that it does not count the switch. -/
def Brought (s n : State) : Prop :=
  n.rot = { s.rot with saves := n.rot.saves, cost := n.rot.cost, cut := n.rot.cut } ∧ s.rot.cut ≤ n.rot.cut ∧
    getDict n (dkey 0x7000 0x08) = getDict s (dkey 0x7000 0x08)

theorem Brought.rfl' (s : State) : Brought s s := ⟨rfl, Nat.le_refl _, rfl⟩

theorem Brought.trans {r s t : State} (h : Brought r s) (k : Brought s t) : Brought r t := by
  refine ⟨?_, Nat.le_trans h.2.1 k.2.1, k.2.2.trans h.2.2⟩
  rw [k.1, h.1]

theorem Brought.of_only {ks : List Part} {s n : State} (h : Only ks s n) (h1 : Part.rot ∉ ks) (h2 : Part.dict ∉ ks) : Brought s n := by
  have hr := h.rot h1
  refine ⟨by rw [hr], by rw [hr], getDict_congr (h.dict h2) _⟩

theorem bringDie_brought (c d : Nat) (s : State) : Brought s (bringDie c d s) ∧ ScopesOnly s (bringDie c d s) := by
  unfold bringDie
  dsimp only
  have k1 := (freshDie_kept d (Kept.rfl' s) (ks := [.regs, .cat, .plates, .tiles, .units]) (by decide)).only
  generalize freshDie d s = s1 at k1 ⊢
  generalize mget ({} : DieSave) s.rot.saves (4 * c + d) = x
  have k2 := (bringLines_kept c (getClient s c) d x.folio (Kept.rfl' s1) (ks := [.mem, .clients, .host, .logs]) (by decide)).only
  have w2 := bringLines_scopes c (getClient s c) d x.folio s1
  generalize bringLines c (getClient s c) d x.folio s1 = s2 at k2 w2 ⊢
  have hk := (k1.mono (ks := [.mem, .clients, .host, .logs, .regs, .cat, .plates, .tiles, .units]) (by decide)).step k2 (by decide)
  have hw : ScopesOnly s s2 := (ScopesOnly.of_eq (k1.clients (by decide))).trans w2
  clear k1 k2 w2
  have hs : ∀ y : State, Brought s2 y → y.clients = s2.clients → Brought s y ∧ ScopesOnly s y := fun y h1 h2 =>
    ⟨(Brought.of_only hk (by decide) (by decide)).trans h1, hw.trans (ScopesOnly.of_eq h2)⟩
  have kb := fun y => bumpLedger_only c 0x12 (fixedBytes + 64 * x.folio.length) y
  refine hs _ ((?_ : Brought s2 _).trans (Brought.of_only (kb _) (by decide) (by decide))) (((kb _).clients (by decide)).trans ?_)
  · have kr : ∀ y : State, Only [.regs] y (x.results.foldl (fun s r => setReg r.1 r.2 s) y) := fun y => Only.foldl (fun s r => setReg_only _ _ _) _ _
    refine Brought.trans ?_ (Brought.of_only (kr _) (by decide) (by decide))
    exact ⟨rfl, Nat.le_refl _, rfl⟩
  · have kr : ∀ y : State, Only [.regs] y (x.results.foldl (fun s r => setReg r.1 r.2 s) y) := fun y => Only.foldl (fun s r => setReg_only _ _ _) _ _
    rw [(kr _).clients (by decide)]

theorem foldl_bringDie (c : Nat) (l : List Nat) (s : State) : Brought s (l.foldl (fun s d => bringDie c d s) s) ∧
    ScopesOnly s (l.foldl (fun s d => bringDie c d s) s) := by
  induction l generalizing s with
  | nil => exact ⟨Brought.rfl' s, ScopesOnly.rfl' s⟩
  | cons d l ih =>
    obtain ⟨h1, h2⟩ := bringDie_brought c d s
    obtain ⟨h3, h4⟩ := ih (bringDie c d s)
    exact ⟨h1.trans h3, h2.trans h4⟩

theorem bringClient_spec (start c : Nat) (s : State) : let n := bringClient start c s
    let here := (getClient s c).state = 1 ∨ (getClient s c).state = 3
    Brought s n ∧ (∀ k, k ≠ c → getClient n k = { getClient s k with scope := (getClient n k).scope }) ∧
    (¬ here → n = s) ∧ (here → (getClient n c).state = (if (getClient s c).run.isSome then 2 else 1) ∧ (getClient n c).debt = 0 ∧ (getClient s c).debt ≤ n.rot.cut) := by
  intro n here
  by_cases h : here
  · obtain ⟨s1, hs1⟩ : ∃ s1, s1 = if (getClient s c).state = 3 then (clientDies (getClient s c)).foldl (fun s d => bringDie c d s) s else s := ⟨_, rfl⟩
    have f1 : Brought s s1 ∧ ScopesOnly s s1 := by
      rw [hs1]; split
      · exact foldl_bringDie _ _ _
      · exact ⟨Brought.rfl' s, ScopesOnly.rfl' s⟩
    obtain ⟨s2, hs2⟩ : ∃ s2, s2 = if (getClient s c).state = 3 then
        updStep c (fun st => { st with out := st.out - (s.tick - start) }) (updRun c (fun r => { r with out := r.out - (s.tick - start) }) s1) else s1 := ⟨_, rfl⟩
    have f2 : Only [.clients] s1 s2 ∧ ∀ k, k ≠ c → getClient s2 k = getClient s1 k := by
      rw [hs2]; split
      · refine ⟨(updRun_only _ _ _).trans (updStep_only _ _ _), fun k hk => ?_⟩
        rw [updStep_getClient, if_neg hk, updRun_getClient, if_neg hk]
      · exact ⟨Only.rfl' _, fun _ _ => rfl⟩
    obtain ⟨s3, hs3⟩ : ∃ s3, s3 = if start < s.tick then bumpDict (dkey 0x7000 0x0A) (clientDies (getClient s c)).length s2 else s2 := ⟨_, rfl⟩
    have f3 : Only [.dict, .sat, .host, .logs] s2 s3 ∧ getDict s3 (dkey 0x7000 0x08) = getDict s2 (dkey 0x7000 0x08) := by
      rw [hs3]; split
      · exact ⟨bumpDict_only _ _ _, by rw [bumpDict_getDict, if_neg (dkey_ne (by decide) (by decide) (by decide))]⟩
      · exact ⟨Only.rfl' _, rfl⟩
    have hn : n = setClientState c (if (getClient s c).run.isSome then 2 else 1)
        (setClient c { getClient s3 c with debt := 0 } { s3 with rot := { s3.rot with cut := max s3.rot.cut (getClient s c).debt } }) := by
      rw [hs3, hs2, hs1]
      show bringClient start c s = _
      unfold bringClient
      dsimp only
      rw [if_neg (not_not.2 h)]
    clear hs1 hs2 hs3
    have b3 : Brought s s3 := by
      refine (f1.1.trans (Brought.of_only f2.1 (by decide) (by decide))).trans ⟨?_, ?_, f3.2⟩
      · rw [f3.1.rot (by decide)]
      · rw [f3.1.rot (by decide)]
    have g : ∀ k, getClient n k = if k = c then { getClient s3 c with debt := 0, state := if (getClient s c).run.isSome then 2 else 1 } else getClient s3 k := by
      intro k
      rw [hn]
      unfold setClientState
      rw [getClient_setClient, getClient_setClient, getClient_setClient, if_pos rfl]
      by_cases hk : k = c
      · rw [if_pos hk, if_pos hk]
      · rw [if_neg hk, if_neg hk, if_neg hk]; rfl
    have hr : n.rot = { s3.rot with cut := max s3.rot.cut (getClient s c).debt } := by rw [hn]; rfl
    have hd : getDict n (dkey 0x7000 0x08) = getDict s3 (dkey 0x7000 0x08) := by rw [hn]; rfl
    clear_value n
    clear hn
    refine ⟨b3.trans ⟨by rw [hr], by rw [hr]; exact Nat.le_max_left _ _, hd⟩, fun k hk => ?_, fun hh => absurd h hh, fun _ => ⟨?_, ?_, ?_⟩⟩
    · have e := f1.2 k
      rw [g, if_neg hk, getClient_congr (f3.1.clients (by decide)), f2.2 k hk]
      exact e
    · rw [g, if_pos rfl]
    · rw [g, if_pos rfl]
    · rw [hr]; exact Nat.le_max_right _ _
  · have hn : n = s := by
      show bringClient start c s = s
      unfold bringClient
      dsimp only
      rw [if_pos h]
    rw [hn]
    exact ⟨Brought.rfl' s, fun _ _ => rfl, fun _ => rfl, fun hh => absurd hh h⟩

theorem bringClients_spec (start : Nat) : ∀ (l : List Nat), l.Nodup → ∀ s : State, let n := l.foldl (fun s c => bringClient start c s) s
    let here (c : Nat) := c ∈ l ∧ ((getClient s c).state = 1 ∨ (getClient s c).state = 3)
    Brought s n ∧ (∀ k, ¬ here k → getClient n k = { getClient s k with scope := (getClient n k).scope }) ∧
    (∀ k, here k → (getClient n k).state = (if (getClient s k).run.isSome then 2 else 1) ∧ (getClient n k).debt = 0 ∧ (getClient s k).debt ≤ n.rot.cut) := by
  intro l
  induction l with
  | nil => intro _ s; exact ⟨Brought.rfl' s, fun _ _ => rfl, fun _ h => absurd h.1 List.not_mem_nil⟩
  | cons c l ih =>
    intro hd s
    obtain ⟨hc, hl⟩ := List.nodup_cons.1 hd
    rw [List.foldl_cons]
    obtain ⟨a1, a2, a3, a4⟩ := bringClient_spec start c s
    obtain ⟨b1, b2, b3⟩ := ih hl (bringClient start c s)
    generalize bringClient start c s = y at a1 a2 a3 a4 b1 b2 b3 ⊢
    generalize l.foldl _ y = n at b1 b2 b3 ⊢
    dsimp only at b2 b3 ⊢
    have hcn := b2 c (fun hh => hc hh.1)
    refine ⟨a1.trans b1, fun k hk => ?_, fun k hk => ?_⟩
    · by_cases hkc : k = c
      · subst hkc
        have : y = s := a3 (fun hh => hk ⟨List.mem_cons_self, hh⟩)
        rw [this] at hcn
        exact hcn
      · have e := a2 k hkc
        have h1 : ¬ (k ∈ l ∧ ((getClient y k).state = 1 ∨ (getClient y k).state = 3)) := by
          rw [e]
          exact fun hh => hk ⟨List.mem_cons_of_mem _ hh.1, hh.2⟩
        have e2 := b2 k h1
        rw [e] at e2
        exact e2
    · by_cases hkc : k = c
      · subst hkc
        obtain ⟨c1, c2, c3⟩ := a4 hk.2
        rw [hcn]
        exact ⟨c1, c2, Nat.le_trans c3 b1.2.1⟩
      · have e := a2 k hkc
        have hm : k ∈ l := (List.mem_cons.1 hk.1).resolve_left hkc
        have h3 := b3 k ⟨hm, by rw [e]; exact hk.2⟩
        rw [e] at h3
        exact h3

/-- The nearest of a list of requests. -/
theorem nearest_request (dist : ArbReq → Nat) (l : List ArbReq) :
    (l = [] → l.foldl (fun (b : Option ArbReq) r => match b with | some x => if dist r < dist x then some r else b | none => some r) none = none) ∧
    (l ≠ [] → ∃ r ∈ l, l.foldl (fun (b : Option ArbReq) r => match b with | some x => if dist r < dist x then some r else b | none => some r) none = some r ∧
      ∀ q ∈ l, dist r ≤ dist q) := by
  refine ⟨fun h => by rw [h]; rfl, fun h => ?_⟩
  have key : ∀ (l : List ArbReq) (x : ArbReq), ∃ r, (r = x ∨ r ∈ l) ∧
      l.foldl (fun (b : Option ArbReq) r => match b with | some x => if dist r < dist x then some r else b | none => some r) (some x) = some r ∧
      dist r ≤ dist x ∧ ∀ q ∈ l, dist r ≤ dist q := by
    intro l
    induction l with
    | nil => intro x; exact ⟨x, .inl rfl, rfl, Nat.le_refl _, fun _ h => absurd h List.not_mem_nil⟩
    | cons y l ih =>
      intro x
      rw [List.foldl_cons]
      by_cases hd : dist y < dist x
      · obtain ⟨r, h1, h2, h3, h4⟩ := ih y
        refine ⟨r, ?_, ?_, by omega, fun q hq => ?_⟩
        · rcases h1 with h1 | h1
          · exact .inr (h1 ▸ List.mem_cons_self)
          · exact .inr (List.mem_cons_of_mem _ h1)
        · dsimp only; rw [if_pos hd]; exact h2
        · rcases List.mem_cons.1 hq with h5 | h5
          · rw [h5]; exact h3
          · exact h4 q h5
      · obtain ⟨r, h1, h2, h3, h4⟩ := ih x
        refine ⟨r, ?_, ?_, h3, fun q hq => ?_⟩
        · rcases h1 with h1 | h1
          · exact .inl h1
          · exact .inr (List.mem_cons_of_mem _ h1)
        · dsimp only; rw [if_neg hd]; exact h2
        · rcases List.mem_cons.1 hq with h5 | h5
          · rw [h5]; omega
          · exact h4 q h5
  cases l with
  | nil => exact absurd rfl h
  | cons x l =>
    obtain ⟨r, h1, h2, h3, h4⟩ := key l x
    refine ⟨r, ?_, h2, fun q hq => ?_⟩
    · rcases h1 with h1 | h1
      · rw [h1]; exact List.mem_cons_self
      · exact List.mem_cons_of_mem _ h1
    · rcases List.mem_cons.1 hq with h5 | h5
      · rw [h5]; exact h3
      · exact h4 q h5

/-- What an arbiter picks in a class (R361). -/
theorem arbPick_spec (s : State) (a : Arb) (cls : Nat) (rs : List ArbReq) :
    let dist (q : ArbReq) : Nat := (q.code + 64 - (mget 63 a.last cls + 1) % 64) % 64
    ((∀ r ∈ rs, arbClass s a r ≠ cls) → arbPick s a cls rs = none) ∧
    ((∃ r ∈ rs, arbClass s a r = cls) → ∃ r ∈ rs, arbPick s a cls rs = some r ∧ arbClass s a r = cls ∧ ∀ q ∈ rs, arbClass s a q = cls → dist r ≤ dist q) := by
  intro dist
  obtain ⟨h1, h2⟩ := nearest_request dist (rs.filter fun r => decide (arbClass s a r = cls))
  refine ⟨fun h => h1 ?_, fun h => ?_⟩
  · rw [List.filter_eq_nil_iff]
    exact fun r hr => by rw [decide_eq_true_eq]; exact h r hr
  · obtain ⟨r, hr, hc⟩ := h
    have hne : rs.filter (fun r => decide (arbClass s a r = cls)) ≠ [] := by
      intro hh
      rw [List.filter_eq_nil_iff] at hh
      exact hh r hr (decide_eq_true hc)
    obtain ⟨x, x1, x2, x3⟩ := h2 hne
    rw [List.mem_filter, decide_eq_true_eq] at x1
    refine ⟨x, x1.1, x2, x1.2, fun q hq hqc => x3 q ?_⟩
    rw [List.mem_filter, decide_eq_true_eq]
    exact ⟨hq, hqc⟩

theorem arbClass_lt (s : State) (a : Arb) (r : ArbReq) : arbClass s a r < 3 := by
  unfold arbClass
  split
  · split <;> omega
  · split
    · split <;> omega
    · omega

/-- What an arbiter grants one of, in a cycle (R361). -/
theorem arbGrant_one (s : State) (a : Arb) (rs : List ArbReq) (h : rs ≠ []) : ∃ r ∈ rs,
    let cls := arbClass s a r
    let dist (q : ArbReq) : Nat := (q.code + 64 - (mget 63 a.last cls + 1) % 64) % 64
    arbGrant s 1 a rs = (arbTake r cls a, rs.erase r) ∧ (∀ q ∈ rs, cls ≤ arbClass s a q) ∧ (∀ q ∈ rs, arbClass s a q = cls → dist r ≤ dist q) := by
  have p0 := arbPick_spec s a 0 rs
  have p1 := arbPick_spec s a 1 rs
  have p2 := arbPick_spec s a 2 rs
  have hg : arbGrant s 1 a rs = match [0, 1, 2].findSome? fun cls => (arbPick s a cls rs).map fun r => (cls, r) with
    | some (cls, r) => (arbTake r cls a, rs.erase r)
    | none => (a, rs) := by
    unfold arbGrant
    generalize ([0, 1, 2].findSome? fun cls => (arbPick s a cls rs).map fun r => (cls, r)) = x
    cases x with
    | none => rfl
    | some q => rfl
  by_cases h0 : ∃ r ∈ rs, arbClass s a r = 0
  · obtain ⟨r, r1, r2, r3, r4⟩ := p0.2 h0
    refine ⟨r, r1, ?_, fun q hq => by rw [r3]; omega, fun q hq hc => ?_⟩
    · rw [hg]
      have : ([0, 1, 2].findSome? fun cls => (arbPick s a cls rs).map fun r => (cls, r)) = some (0, r) := by
        simp only [List.findSome?, r2, Option.map_some]
      rw [this, r3]
    · rw [r3] at hc ⊢; exact r4 q hq hc
  · have n0 := p0.1 (fun r hr hc => h0 ⟨r, hr, hc⟩)
    by_cases h1 : ∃ r ∈ rs, arbClass s a r = 1
    · obtain ⟨r, r1, r2, r3, r4⟩ := p1.2 h1
      refine ⟨r, r1, ?_, fun q hq => ?_, fun q hq hc => ?_⟩
      · rw [hg]
        have : ([0, 1, 2].findSome? fun cls => (arbPick s a cls rs).map fun r => (cls, r)) = some (1, r) := by
          simp only [List.findSome?, n0, r2, Option.map_some, Option.map_none]
        rw [this, r3]
      · have : arbClass s a q ≠ 0 := fun hc => h0 ⟨q, hq, hc⟩
        rw [r3]; omega
      · rw [r3] at hc ⊢; exact r4 q hq hc
    · have n1 := p1.1 (fun r hr hc => h1 ⟨r, hr, hc⟩)
      have h2 : ∃ r ∈ rs, arbClass s a r = 2 := by
        cases rs with
        | nil => exact absurd rfl h
        | cons x l =>
          refine ⟨x, List.mem_cons_self, ?_⟩
          have := arbClass_lt s a x
          have e0 : arbClass s a x ≠ 0 := fun hc => h0 ⟨x, List.mem_cons_self, hc⟩
          have e1 : arbClass s a x ≠ 1 := fun hc => h1 ⟨x, List.mem_cons_self, hc⟩
          omega
      obtain ⟨r, r1, r2, r3, r4⟩ := p2.2 h2
      refine ⟨r, r1, ?_, fun q hq => ?_, fun q hq hc => ?_⟩
      · rw [hg]
        have : ([0, 1, 2].findSome? fun cls => (arbPick s a cls rs).map fun r => (cls, r)) = some (2, r) := by
          simp only [List.findSome?, n0, n1, r2, Option.map_some, Option.map_none]
        rw [this, r3]
      · have e0 : arbClass s a q ≠ 0 := fun hc => h0 ⟨q, hq, hc⟩
        have e1 : arbClass s a q ≠ 1 := fun hc => h1 ⟨q, hq, hc⟩
        rw [r3]; omega
      · rw [r3] at hc ⊢; exact r4 q hq hc

theorem arbWaits_spec : ∀ (l : List Nat), l.Nodup → ∀ a : Arb, let x := l.foldl arbWait a
    x.last = a.last ∧ x.cycle = a.cycle ∧
    ∀ k, mget {} x.cnts k = if k ∈ l then { mget {} a.cnts k with wait := min (2 ^ 64 - 1) ((mget {} a.cnts k).wait + 1) } else mget {} a.cnts k := by
  intro l
  induction l with
  | nil => intro _ a; exact ⟨rfl, rfl, fun k => (if_neg List.not_mem_nil).symm⟩
  | cons c l ih =>
    intro hd a
    obtain ⟨hc, hl⟩ := List.nodup_cons.1 hd
    rw [List.foldl_cons]
    obtain ⟨b1, b2, b3⟩ := ih hl (arbWait a c)
    have h1 : ∀ k, mget {} (arbWait a c).cnts k = if k = c then { mget {} a.cnts c with wait := min (2 ^ 64 - 1) ((mget {} a.cnts c).wait + 1) } else mget {} a.cnts k :=
      fun k => mget_mset _ _ _ _ _
    refine ⟨b1, b2, fun k => ?_⟩
    rw [b3, h1]
    by_cases hk : k = c
    · subst hk
      rw [if_neg hc, if_pos rfl, if_pos List.mem_cons_self]
    · rw [if_neg hk]
      exact if_congr ⟨fun h => List.mem_cons_of_mem _ h, fun h => (List.mem_cons.1 h).resolve_left hk⟩ rfl rfl

theorem setArb_arbs (res d : Nat) (a : Arb) (s : State) : (setArb res d a s).arbs = mset {} s.arbs (arbKey res d) a := by
  unfold setArb
  dsimp only
  split
  · exact (stickDict_only _ _ _).arbs (by decide)
  · rfl

theorem nodup_eraseDups (l : List Nat) : l.eraseDups.Nodup := by
  have key : ∀ n (l : List Nat), l.length ≤ n → l.eraseDups.Nodup := by
    intro n
    induction n with
    | zero =>
      intro l hl
      cases l with
      | nil => exact List.nodup_nil
      | cons a l => exact absurd hl (by simp)
    | succ n ih =>
      intro l hl
      cases l with
      | nil => exact List.nodup_nil
      | cons a l =>
        rw [List.eraseDups_cons, List.nodup_cons]
        refine ⟨fun hm => ?_, ih _ ?_⟩
        · rw [List.mem_eraseDups, List.mem_filter] at hm
          simp at hm
        · exact Nat.le_trans (List.length_filter_le _ _) (by simpa using hl)
  exact key l.length l (Nat.le_refl _)

end Sys2Proof.Machine
end

