-- ==== Sys2Proof/Laws/Start.lean ====
section
/-! SUPPORT. The staged start: stages, faults, boot images, Sketch's work and the tasks of Proof (R391 to R397, R401, R402). -/

set_option Elab.async false

namespace Sys2Proof.Machine

theorem enterStage_entered (k : Nat) (s : State) : StageEntered k s (enterStage k s) := by
  unfold enterStage StageEntered
  dsimp only
  refine ⟨_, rfl, ?_, fun h1 h2 => ?_, fun j h1 h2 => ?_, ?_⟩
  · split
    · rw [getDict_setDict, if_neg (dkey_ne (by simp; omega) (by decide) (by omega)), getDict_setDict, if_pos rfl]
    · rw [getDict_setDict, if_pos rfl]
  · rw [if_pos ⟨h1, h2⟩, getDict_setDict, if_pos rfl]
    rfl
  · split
    · rw [getDict_setDict, if_neg h2, getDict_setDict, if_neg h1]
    · rw [getDict_setDict, if_neg h1]
  · split
    · exact (setDict_only _ _ s).trans (setDict_only _ _ _)
    · exact setDict_only _ _ s

theorem stageFault_faulted (k : Nat) (s : State) : StageFaulted k s (stageFault k s) :=
  ⟨_, rfl, by rw [getDict_setDict, if_pos rfl], fun j h => by rw [getDict_setDict, if_neg h], setDict_only _ _ s⟩

theorem bootSlot_booted (k : Nat) (s : State) : Booted k s (bootSlot k false s) := by
  unfold bootSlot
  dsimp only
  rw [if_neg (by decide)]
  generalize hi : slotImage s k = img
  unfold Booted
  intro img'
  rw [show img' = img from hi]
  refine ⟨rfl, by rw [getDict_setDict, if_pos rfl], ?_, fun j h1 h2 => ?_, ?_⟩
  · rw [getDict_setDict, if_neg (dkey_ne (by decide) (by decide) (by decide)), getDict_setDict, if_pos rfl]
  · rw [getDict_setDict, if_neg h1, getDict_setDict, if_neg h2]; rfl
  · exact (((only_start _ s).mono (by decide)).step (setDict_only _ _ _) (by decide)).step (setDict_only _ _ _) (by decide)

theorem bootSlot_other (k : Nat) (s : State) : ∃ y z, bootSlot k true s = post 0x0802 16 k z ∧ Booted k s y ∧
    Only [.dict, .sat, .host, .logs] y z ∧ getDict z (dkey 0x2000 0x0E) = countUp 32 (getDict s (dkey 0x2000 0x0E)) 1 := by
  have hb := bootSlot_booted k s
  refine ⟨bootSlot k false s, bumpDictW 32 (dkey 0x2000 0x0E) 1 (bootSlot k false s), ?_, hb, ?_, ?_⟩
  · unfold bootSlot
    dsimp only
    rw [if_pos rfl, if_neg (by decide)]
  · exact (bumpDictW_kept _ _ _ (Kept.rfl' _) (by decide)).only
  · rw [bumpDictW_getDict, if_pos rfl, hb.2.2.2.1 _ (dkey_ne (by decide) (by decide) (by decide)) (dkey_ne (by decide) (by decide) (by decide))]
    rfl

theorem tasksMet_iff (s : State) : tasksMet s = true ↔ TasksMet s := by
  unfold tasksMet TasksMet
  simp only [Bool.and_eq_true, List.all_eq_true, List.mem_range, decide_eq_true_eq, Bool.or_eq_true, Bool.not_eq_true', and_assoc]
  refine and_congr_right fun _ => and_congr_right fun _ => and_congr_right fun _ => and_congr_right fun _ => and_congr_right fun _ => ?_
  constructor
  · rintro (h | h) ⟨p, hp, hs⟩
    · rw [List.any_eq_false] at h
      exact absurd (decide_eq_true hs) (h p (List.mem_range.2 hp))
    · exact h
  · intro h
    by_cases hx : ∃ p, p < 32 ∧ portState s p = 2
    · exact .inr (h hx)
    · refine .inl (List.any_eq_false.2 fun p hp => ?_)
      rw [decide_eq_true_eq]
      exact fun hs => hx ⟨p, List.mem_range.1 hp, hs⟩

theorem saves_spec (s : State) (k : Nat) (l : List Nat) (m : SMap Word) :
    mget (dictDefault k) (l.foldl (fun m k => mset (dictDefault k) m k (getDict s k)) m) k =
      if k ∈ l then getDict s k else mget (dictDefault k) m k := by
  induction l generalizing m with
  | nil => exact (if_neg List.not_mem_nil).symm
  | cons j l ih =>
    rw [List.foldl_cons, ih]
    by_cases h : k = j
    · subst h
      rw [if_pos List.mem_cons_self, mget_mset_same]
      split <;> rfl
    · rw [mget_mset_ne _ _ _ _ h]
      refine if_congr ⟨fun h => List.mem_cons_of_mem _ h, fun h' => (List.mem_cons.1 h').resolve_left h⟩ rfl rfl

theorem fwData_spec (data : List Byte) (s : State) :
    let o := (getDict s (dkey 0x2000 0x10)).toNat
    let base := (1 - (getDict s (dkey 0x2000 0x0B)).toNat % 2) * slotSize + o
    let fits := data.length ≠ 0 ∧ data.length ≤ 65536 ∧ o + data.length ≤ slotSize
    (¬ fits → execFwUpdData data s = .next s) ∧
    (fits → ∃ n, execFwUpdData data s = .next n ∧ n.start = { s.start with flash := n.start.flash } ∧
      (∀ a, mget 0#8 n.start.flash a = if base ≤ a ∧ a < base + data.length then nth 0#8 data (a - base) else mget 0#8 s.start.flash a) ∧
      (getDict n (dkey 0x2000 0x10)).toNat = o + data.length ∧
      (∀ j, j ≠ dkey 0x2000 0x10 → getDict n j = getDict s j) ∧ Only [.dict, .start] s n) := by
  intro o base fits
  have hx : execFwUpdData data s = .next (fwData data s).2 := rfl
  rw [hx]
  unfold fwData
  dsimp only
  refine ⟨fun h => ?_, fun ⟨h1, h2, h3⟩ => ?_⟩
  · split
    · rfl
    · rename_i h1
      rw [if_pos]
      exact Nat.lt_of_not_le fun h2 => h ⟨fun hh => h1 (.inl hh), Nat.le_of_not_lt fun hh => h1 (.inr hh), h2⟩
  · rw [if_neg (by omega), if_neg (Nat.not_lt.2 h3)]
    refine ⟨_, rfl, rfl, fun a => ?_, ?_, fun j hj => by rw [getDict_setDict, if_neg hj]; rfl, ?_⟩
    · exact mget_zipIdx data base a s.start.flash
    · rw [getDict_setDict, if_pos rfl, BitVec.toNat_ofNat, Nat.mod_eq_of_lt]
      refine Nat.lt_of_le_of_lt h3 (by unfold slotSize; decide)
    · exact ((only_start _ s).mono (by decide)).step (setDict_only _ _ _) (by decide)

/-- Entries of the identity, the host link and CAN (index 0x1100) read as before. -/
def LinkSame (s n : State) : Prop := ∀ k, k / 256 = 0x1100 → getDict n k = getDict s k

theorem LinkSame.of_dict {s n : State} (h : n.dict = s.dict) : LinkSame s n := fun k _ => getDict_congr h k
theorem LinkSame.trans {r s t : State} (h : LinkSame r s) (k : LinkSame s t) : LinkSame r t := fun j hj => (k j hj).trans (h j hj)
theorem LinkSame.ite {c : Prop} [Decidable c] {s x y : State} (h : LinkSame s x) (k : LinkSame s y) : LinkSame s (if c then x else y) := by
  split <;> assumption
theorem LinkSame.foldl {β : Type} {g : State → β → State} (hg : ∀ s x, LinkSame s (g s x)) (l : List β) (s : State) : LinkSame s (l.foldl g s) := by
  induction l generalizing s with
  | nil => exact LinkSame.of_dict rfl
  | cons x l ih => exact (hg s x).trans (ih _)
theorem setDict_link (k : Nat) (v : Word) (s : State) (h : k / 256 ≠ 0x1100) : LinkSame s (setDict k v s) := fun j hj => by
  rw [getDict_setDict, if_neg (by rintro rfl; exact h hj)]
theorem bumpDictW_link (w k n : Nat) (s : State) (h : k / 256 ≠ 0x1100) : LinkSame s (bumpDictW w k n s) := fun j hj => by
  rw [bumpDictW_getDict, if_neg (by rintro rfl; exact h hj)]

theorem setErrata_link (l : List Errata) (s : State) : LinkSame s (setErrata l s) := by
  unfold setErrata
  exact (LinkSame.of_dict (s := s) rfl).trans ((setDict_link _ _ _ (by decide)).trans (setDict_link _ _ _ (by decide)))

theorem recordSwap_link (a b c d e f g : Nat) (s : State) : LinkSame s (recordSwap a b c d e f g s) := by
  unfold recordSwap
  dsimp only
  have h1 : LinkSame s (bumpDict (dkey 0x8000 0x0F) 1 s) := bumpDictW_link _ _ _ _ (by decide)
  generalize bumpDict (dkey 0x8000 0x0F) 1 s = m at h1
  split
  · exact h1
  · exact h1.trans ((setErrata_link _ m).trans (LinkSame.of_dict rfl))

theorem dkey_div (a b : Nat) (h : b < 256) : dkey a b / 256 = a := by unfold dkey; omega

theorem noSpare_link (a b c d : Nat) (s : State) : LinkSame s (noSpare a b c d s) := by
  unfold noSpare
  dsimp only
  split <;> exact LinkSame.of_dict rfl

theorem mapBank_link (d : Nat) (hd : d < 4) (frm dst : Nat) (s : State) : LinkSame s (mapBank d frm dst s) := by
  unfold mapBank
  dsimp only
  have h1 : ∀ n, LinkSame s (setSpareBanks d n s) := fun n => by
    unfold setSpareBanks
    exact (LinkSame.of_dict (s := s) rfl).trans (setDict_link _ _ _ (by rw [dkey_div _ _ (by omega)]; decide))
  split
  · exact (h1 _).trans (LinkSame.of_dict rfl)
  · exact h1 _

theorem fld2_lt (v : Word) (lo : Nat) : fld v lo 2 < 4 := by
  have := fld_lt v lo 2
  omega

theorem clearEntryBit_link (k i : Nat) (s : State) (h : k / 256 ≠ 0x1100) : LinkSame s (clearEntryBit k i s) := setDict_link _ _ _ h

theorem mapTile_link (d frm dst : Nat) (s : State) : LinkSame s (mapTile d frm dst s) := by
  unfold mapTile
  dsimp only
  have h := clearEntryBit_link (dkey 0x8000 0x0C) d s (by decide)
  generalize clearEntryBit (dkey 0x8000 0x0C) d s = s1 at h
  split
  · exact h.trans (LinkSame.of_dict rfl)
  · exact h

theorem useStackSpare_link (i : Nat) (s : State) : LinkSame s (useStackSpare i s) := by
  unfold useStackSpare
  generalize getDict s (dkey 0x3000 0x02) ||| 1#64 <<< i = v
  have h : LinkSame s (setBit (stkBlk i 0) 2 s) := LinkSame.of_dict (setBit_dict _ _ _)
  generalize setBit (stkBlk i 0) 2 s = s1 at h
  exact h.trans (setDict_link _ _ _ (by decide))

theorem mapCore_link (d frm : Nat) (s : State) : LinkSame s (mapCore d frm s) := by
  unfold mapCore
  dsimp only
  have h := clearEntryBit_link (dkey 0x8000 0x0E) d s (by decide)
  generalize clearEntryBit (dkey 0x8000 0x0E) d s = s1 at h
  exact h.trans (LinkSame.of_dict rfl)

theorem applyErrata_link (s : State) (r : Errata) : LinkSame s (applyErrata s r) := by
  unfold applyErrata
  split
  · exact mapTile_link _ _ _ _
  · exact mapBank_link _ (fld2_lt _ _) _ _ _
  · exact useStackSpare_link _ _
  · exact LinkSame.of_dict (setReg_dict _ _ _)
  · exact LinkSame.of_dict rfl
  · exact mapCore_link _ _ _
  · exact LinkSame.of_dict rfl

theorem loadErrata_link (b : Bool) (s : State) : LinkSame s (loadErrata b s) := by
  unfold loadErrata
  dsimp only
  have h1 : LinkSame s (if b = true then setErrata (s.wearS.errata.filter fun r => !r.pending) s else s) :=
    LinkSame.ite (setErrata_link _ s) (LinkSame.of_dict rfl)
  generalize (if b = true then setErrata (s.wearS.errata.filter fun r => !r.pending) s else s) = s1 at h1
  exact h1.trans ((LinkSame.foldl applyErrata_link _ _).trans (LinkSame.foldl applyErrata_link _ _))

theorem loadFuses_link (s : State) : LinkSame s (loadFuses s) := by
  unfold loadFuses
  dsimp only [List.foldl_cons, List.foldl_nil]
  exact (setDict_link _ _ _ (by decide)).trans ((setDict_link _ _ _ (by decide)).trans ((setDict_link _ _ _ (by decide)).trans (setDict_link _ _ _ (by decide))))

theorem retireBank_link (s : State) (x : DieId × Nat) : LinkSame s (retireBank s x) := by
  unfold retireBank
  dsimp only
  split
  · exact LinkSame.of_dict rfl
  · split
    · exact noSpare_link _ _ _ _ _
    · exact (mapBank_link _ x.1.isLt _ _ _).trans (recordSwap_link _ _ _ _ _ _ _ _)

theorem tellTrip_dict (s : State) : (tellTrip s).dict = s.dict := by
  unfold tellTrip
  split <;> rfl

theorem tellTrip_trip (s : State) : (tellTrip s).start = { s.start with tripNote := none } := by
  unfold tellTrip
  split
  · rename_i h
    rw [← h]
  · rfl

theorem trainPcie_dict (a b k : Nat) (s : State) : getDict (trainPcie a b s) k =
    if k = dkey 0x1100 0x21 then BitVec.ofNat 64 b else if k = dkey 0x1100 0x20 then BitVec.ofNat 64 a else getDict s k := by
  have h : (trainPcie a b s).dict = (setDict (dkey 0x1100 0x21) (BitVec.ofNat 64 b) (setDict (dkey 0x1100 0x20) (BitVec.ofNat 64 a) s)).dict := by
    unfold trainPcie
    dsimp only
    split <;> rfl
  rw [getDict_congr h, getDict_setDict, getDict_setDict]

theorem enterStage_dict (n k : Nat) (s : State) (h : k / 256 ≠ 0x2000) : getDict (enterStage n s) k = getDict s k := by
  obtain ⟨y, h1, _, _, h2, _⟩ := enterStage_entered n s
  rw [h1, getDict_congr (post_dict _ _ _ _)]
  by_cases hn : n ≤ 3
  · exact h2 k (by rintro rfl; exact h (by decide)) (by rintro rfl; exact h (by rw [dkey_div _ _ (by omega)]))
  · by_cases hk : k = dkey 0x2000 (2 + n)
    · have : (enterStage n s).dict = (setDict (dkey 0x2000 0x01) (BitVec.ofNat 64 n) s).dict := by
        unfold enterStage
        dsimp only
        rw [if_neg (by omega)]
        rfl
      have h3 := getDict_congr this k
      rw [h1, getDict_congr (post_dict _ _ _ _)] at h3
      rw [h3, getDict_setDict, if_neg (by rintro rfl; exact h (by decide))]
    · exact h2 k (by rintro rfl; exact h (by decide)) hk

theorem stageFault_getDict (n k : Nat) (s : State) (h : k ≠ dkey 0x2000 0x02) : getDict (stageFault n s) k = getDict s k := by
  obtain ⟨y, h1, _, h2, _⟩ := stageFault_faulted n s
  rw [h1, getDict_congr (post_dict _ _ _ _), h2 k h]

theorem takeNodeId_dict (b : BitVec 7) (s : State) : let n := takeNodeId b s
    getDict n (dkey 0x1100 0x02) = getDict s (dkey 0x1100 0x02) ∧ getDict n (dkey 0x1100 0x03) = b.setWidth 64 ∧
    getDict n (dkey 0x1100 0x01) = (if getDict s (dkey 0x1100 0x02) ≠ 0 then getDict s (dkey 0x1100 0x02) else b.setWidth 64) ∧
    (getDict n (dkey 0x1100 0x01) = 0 → getDict n (dkey 0x1100 0x04) = 3) := by
  intro n
  obtain ⟨id, hid⟩ : ∃ id, id = (if getDict s (dkey 0x1100 0x02) ≠ 0 then getDict s (dkey 0x1100 0x02) else b.setWidth 64) := ⟨_, rfl⟩
  have hn : n = if id = 0 then setDict (dkey 0x1100 0x04) 3 (setDict (dkey 0x1100 0x01) id (setDict (dkey 0x1100 0x03) (b.setWidth 64) s))
      else setDict (dkey 0x1100 0x01) id (setDict (dkey 0x1100 0x03) (b.setWidth 64) s) := by rw [hid]; rfl
  rw [← hid]
  clear hid
  clear_value n
  by_cases h0 : id = 0
  · rw [if_pos h0] at hn
    subst hn
    refine ⟨?_, ?_, ?_, fun _ => by rw [getDict_setDict, if_pos rfl]⟩
    · rw [getDict_setDict, if_neg (by decide), getDict_setDict, if_neg (by decide), getDict_setDict, if_neg (by decide)]
    · rw [getDict_setDict, if_neg (by decide), getDict_setDict, if_neg (by decide), getDict_setDict, if_pos rfl]
    · rw [getDict_setDict, if_neg (by decide), getDict_setDict, if_pos rfl]
  · rw [if_neg h0] at hn
    subst hn
    refine ⟨?_, ?_, ?_, fun h => ?_⟩
    · rw [getDict_setDict, if_neg (by decide), getDict_setDict, if_neg (by decide)]
    · rw [getDict_setDict, if_neg (by decide), getDict_setDict, if_pos rfl]
    · rw [getDict_setDict, if_pos rfl]
    · rw [getDict_setDict, if_pos rfl] at h
      exact absurd h h0

theorem reloadSaved_override (s : State) : getDict (reloadSaved true s) overrideKey = getDict s overrideKey := by
  unfold reloadSaved
  generalize s.start.saved = l
  induction l generalizing s with
  | nil => rfl
  | cons x l ih =>
    rw [List.foldl_cons, ih]
    split
    · rfl
    · rename_i h
      rw [getDict_setDict, if_neg (fun hh => h ⟨rfl, hh.symm⟩)]

theorem applyErrata_start (s : State) (r : Errata) : (applyErrata s r).start = { s.start with tileMap := (applyErrata s r).start.tileMap, spareCore := (applyErrata s r).start.spareCore } := by
  unfold applyErrata
  split
  · unfold mapTile
    dsimp only
    split <;> rfl
  · unfold mapBank
    dsimp only
    split <;> rfl
  all_goals rfl

theorem applyErratas_start (l : List Errata) (s : State) : (l.foldl applyErrata s).start = { s.start with tileMap := (l.foldl applyErrata s).start.tileMap, spareCore := (l.foldl applyErrata s).start.spareCore } := by
  induction l generalizing s with
  | nil => rfl
  | cons r l ih =>
    rw [List.foldl_cons]
    have h := applyErrata_start s r
    have h2 := ih (applyErrata s r)
    generalize applyErrata s r = t at h h2
    generalize l.foldl applyErrata t = n at h2
    rw [h2, h]

theorem loadErrata_start (b : Bool) (s : State) : (loadErrata b s).start = { s.start with tileMap := (loadErrata b s).start.tileMap, spareCore := (loadErrata b s).start.spareCore } := by
  unfold loadErrata
  dsimp only
  have h0 : (if b = true then setErrata (s.wearS.errata.filter fun r => !r.pending) s else s).start = s.start := by split <;> rfl
  generalize (if b = true then setErrata (s.wearS.errata.filter fun r => !r.pending) s else s) = s1 at h0
  generalize s1.wearS.errata.filter (fun r => !r.pending) = l1
  generalize s1.wearS.errata.filter Errata.pending = l2
  have h1 := applyErratas_start l1 s1
  generalize l1.foldl applyErrata s1 = s2 at h1
  have h2 := applyErratas_start l2 s2
  generalize l2.foldl applyErrata s2 = s3 at h2
  rw [h2, h1, h0]

theorem zeroFolio_spec (d : State) : (zeroFolio d).mem.owner = [] ∧
    (∀ a, mget 0#8 (zeroFolio d).mem.cells a = if 0xF0000000000 ≤ a then 0#8 else mget 0#8 d.mem.cells a) ∧
    (∀ w, mget 0#16 (zeroFolio d).mem.synd w = if 0xF0000000000 ≤ 8 * w then 0#16 else mget 0#16 d.mem.synd w) := by
  unfold zeroFolio
  refine ⟨rfl, fun a => ?_, fun w => ?_⟩
  · dsimp only
    rw [mget_mdrop]
    simp only [decide_eq_true_eq]
  · dsimp only
    rw [mget_mdrop]
    simp only [decide_eq_true_eq]

theorem sketchWork_spec (m : SketchIn) (s : State) : let n := sketchWork m s
    n.start.sketched = true ∧ n.start.resetNow = 0 ∧ n.start.tripNote = none ∧ stageOf n = 1 ∧
    getDict n (dkey 0x2000 0x03) = BitVec.ofNat 64 ((s.tick - s.start.goodTick) / 1000) ∧
    (m.fuseBad ≠ [] → getDict n (dkey 0x2000 0x02) = 5) ∧
    n.cat = { epochs := s.cat.epochs } ∧ n.mem.owner = [] ∧
    (∀ a, mget 0#8 n.mem.cells a = if 0xF0000000000 ≤ a then 0#8 else mget 0#8 s.mem.cells a) ∧
    (∀ w, mget 0#16 n.mem.synd w = if 0xF0000000000 ≤ 8 * w then 0#16 else mget 0#16 s.mem.synd w) ∧
    (s.start.resetNow = 2 → getDict n (dkey 0x1100 0x02) = getDict s (dkey 0x1100 0x02)) ∧
    getDict n (dkey 0x1100 0x03) = m.strap.setWidth 64 ∧
    getDict n (dkey 0x1100 0x01) = (if getDict n (dkey 0x1100 0x02) ≠ 0 then getDict n (dkey 0x1100 0x02) else m.strap.setWidth 64) ∧
    (getDict n (dkey 0x1100 0x01) = 0 → canState n = 3) ∧
    (getDict n (dkey 0x1100 0x20) = BitVec.ofNat 64 m.speed ∧ getDict n (dkey 0x1100 0x21) = BitVec.ofNat 64 m.width) := by
  intro n
  obtain ⟨s1, h1⟩ : ∃ s1 : State, s1 = { s with start := { s.start with sketched := true, resetNow := 0 } } := ⟨_, rfl⟩
  obtain ⟨a, ha⟩ : ∃ a, a = loadErrata m.mapBad (loadFuses s1) := ⟨_, rfl⟩
  obtain ⟨b, hb⟩ : ∃ b, b = reloadSaved (s.start.resetNow = 2) a := ⟨_, rfl⟩
  obtain ⟨c, hc⟩ : ∃ c, c = takeNodeId m.strap b := ⟨_, rfl⟩
  obtain ⟨d, hd⟩ : ∃ d, d = m.folioBad.foldl retireBank c := ⟨_, rfl⟩
  obtain ⟨e, he⟩ : ∃ e, e = zeroFolio d := ⟨_, rfl⟩
  obtain ⟨f, hf⟩ : ∃ f, f = enterStage 1 e := ⟨_, rfl⟩
  obtain ⟨g, hg⟩ : ∃ g, g = trainPcie m.speed m.width (tellTrip f) := ⟨_, rfl⟩
  obtain ⟨p, hp⟩ : ∃ p : State, p = { g with cat := { epochs := g.cat.epochs } } := ⟨_, rfl⟩
  have hn : n = if m.fuseBad = [] then p else stageFault 5 p := by
    rw [hp, hg, hf, he, hd, hc, hb, ha, h1]; rfl
  clear_value n
  have k1 : LinkSame s a := by
    have : LinkSame s s1 := LinkSame.of_dict (by rw [h1])
    rw [ha]
    exact this.trans ((loadFuses_link s1).trans (loadErrata_link _ _))
  have o1 : Only [.dict, .regs, .start, .banks, .wearS] s1 a := by
    rw [ha]
    exact (loadFuses_kept (Kept.rfl' s1) (ks := [.dict, .regs, .start, .banks, .wearS]) (by decide)).only.trans
      (loadErrata_kept m.mapBad (Kept.rfl' _) (ks := [.dict, .regs, .start, .banks, .wearS]) (by decide)).only
  have q1 : a.start = { s.start with sketched := true, resetNow := 0, tileMap := a.start.tileMap, spareCore := a.start.spareCore } := by
    have := loadErrata_start m.mapBad (loadFuses s1)
    rw [← ha, (loadFuses_kept (Kept.rfl' s1) (ks := [.dict]) (by decide)).only.start (by decide), h1] at this
    exact this
  clear ha
  have o2 : Only [.dict] a c := by
    rw [hc, hb]
    exact (reloadSaved_kept _ (Kept.rfl' a) (ks := [.dict]) (by decide)).only.trans (takeNodeId_kept _ (Kept.rfl' _) (ks := [.dict]) (by decide)).only
  have k2 := takeNodeId_dict m.strap b
  rw [← hc] at k2
  have k3 : s.start.resetNow = 2 → getDict b (dkey 0x1100 0x02) = getDict s (dkey 0x1100 0x02) := fun h => by
    rw [hb, decide_eq_true h]
    exact (reloadSaved_override a).trans (k1 _ (by decide))
  clear hc hb k1
  have o3 : Only [.dict, .sat, .banks, .host, .logs, .wearS] c d := by
    rw [hd]
    exact Only.foldl (fun s x => (retireBank_kept x (Kept.rfl' s) (by decide)).only) _ _
  have k4 : LinkSame c d := by rw [hd]; exact LinkSame.foldl retireBank_link _ _
  clear hd
  have o4 : Only [.mem] d e := by rw [he]; exact (zeroFolio_kept (Kept.rfl' d) (by decide)).only
  have c1 : e.mem.owner = [] ∧ (∀ a, mget 0#8 e.mem.cells a = if 0xF0000000000 ≤ a then 0#8 else mget 0#8 d.mem.cells a) ∧
      (∀ w, mget 0#16 e.mem.synd w = if 0xF0000000000 ≤ 8 * w then 0#16 else mget 0#16 d.mem.synd w) := by
    rw [he]
    exact zeroFolio_spec d
  clear he
  have o5 : Only [.dict, .host, .logs] e f := by rw [hf]; exact (enterStage_kept 1 (Kept.rfl' e) (by decide)).only
  have t1 : getDict f (dkey 0x2000 0x01) = 1 ∧ getDict f (dkey 0x2000 0x03) = BitVec.ofNat 64 ((e.tick - e.start.goodTick) / 1000) := by
    obtain ⟨y, y1, y2, y3, _⟩ := enterStage_entered 1 e
    rw [hf, y1, getDict_congr (post_dict _ _ _ _), getDict_congr (post_dict _ _ _ _)]
    exact ⟨y2, y3 (by decide) (by decide)⟩
  have k5 : LinkSame e f := fun k hk => by rw [hf, enterStage_dict _ _ _ (by omega)]
  clear hf
  have o6 : Only [.dict, .host, .logs, .start] f g := by
    rw [hg]
    exact ((tellTrip_kept (Kept.rfl' f) (ks := [.dict, .host, .logs, .start]) (by decide)).only).trans (trainPcie_kept _ _ (Kept.rfl' _) (by decide)).only
  have q6 : g.start = { f.start with tripNote := none } := by
    rw [hg, (trainPcie_kept _ _ (Kept.rfl' _) (ks := [.dict, .host, .logs]) (by decide)).only.start (by decide), tellTrip_trip]
  have k6 : ∀ k, getDict g k = if k = dkey 0x1100 0x21 then BitVec.ofNat 64 m.width else if k = dkey 0x1100 0x20 then BitVec.ofNat 64 m.speed else getDict f k := fun k => by
    rw [hg, trainPcie_dict, getDict_congr (tellTrip_dict f)]
  clear hg
  have o7 : Only [.dict, .host, .logs] p n := by
    rw [hn]
    split
    · exact Only.rfl' _
    · exact (stageFault_kept 5 (Kept.rfl' p) (by decide)).only
  have k7 : ∀ k, k ≠ dkey 0x2000 0x02 → getDict n k = getDict g k := fun k hk => by
    have hpg : getDict p k = getDict g k := getDict_congr (by rw [hp]) k
    rw [hn]
    split
    · exact hpg
    · rw [stageFault_getDict _ _ _ hk, hpg]
  have f7 : m.fuseBad ≠ [] → getDict n (dkey 0x2000 0x02) = 5 := fun h => by
    rw [hn, if_neg h]; exact stageFault_dict 5 p
  clear hn
  have tk : e.tick = s.tick := by rw [o4.tick (by decide), o3.tick (by decide), o2.tick (by decide), o1.tick (by decide), h1]
  have q5 : f.start = a.start := by rw [o5.start (by decide), o4.start (by decide), o3.start (by decide), o2.start (by decide)]
  have qe : e.start.goodTick = s.start.goodTick := by rw [o4.start (by decide), o3.start (by decide), o2.start (by decide), q1]
  have qn : n.start = g.start := by rw [o7.start (by decide), hp]
  have mn : n.mem = e.mem := by rw [o7.mem (by decide), hp]; exact (o6.mem (by decide)).trans (o5.mem (by decide))
  have md : d.mem = s.mem := by rw [o3.mem (by decide), o2.mem (by decide), o1.mem (by decide), h1]
  have d0 : ∀ k, k / 256 = 0x1100 → k ≠ dkey 0x1100 0x21 → k ≠ dkey 0x1100 0x20 → getDict n k = getDict c k := fun k h1 h2 h3 => by
    have he : getDict e k = getDict d k := getDict_congr (o4.dict (by decide)) k
    rw [k7 k (by rintro rfl; exact absurd h1 (by decide)), k6, if_neg h2, if_neg h3, k5 k h1, he, k4 k h1]
  have d1 := d0 (dkey 0x1100 0x01) (by decide) (by decide) (by decide)
  have d2 := d0 (dkey 0x1100 0x02) (by decide) (by decide) (by decide)
  have d3 := d0 (dkey 0x1100 0x03) (by decide) (by decide) (by decide)
  have d4 := d0 (dkey 0x1100 0x04) (by decide) (by decide) (by decide)
  obtain ⟨e1, e2, e3, e4⟩ := k2
  refine ⟨?_, ?_, ?_, ?_, ?_, f7, ?_, ?_, ?_, ?_, ?_, ?_, ?_, ?_, ?_, ?_⟩
  · rw [qn, q6, q5, q1]
  · rw [qn, q6, q5, q1]
  · rw [qn, q6]
  · unfold stageOf
    rw [k7 _ (by decide), k6, if_neg (by decide), if_neg (by decide), t1.1]
    rfl
  · rw [k7 _ (by decide), k6, if_neg (by decide), if_neg (by decide), t1.2, tk, qe]
  · rw [o7.cat (by decide), hp]
    show ({ epochs := g.cat.epochs } : Catalog) = _
    rw [o6.cat (by decide), o5.cat (by decide), o4.cat (by decide), o3.cat (by decide), o2.cat (by decide), o1.cat (by decide), h1]
  · rw [mn, c1.1]
  · intro x; rw [mn, c1.2.1, md]
  · intro x; rw [mn, c1.2.2, md]
  · intro h; rw [d2, e1, k3 h]
  · rw [d3, e2]
  · rw [d1, d2, e1, e3]
  · intro h
    rw [d1] at h
    unfold canState dictNat
    rw [d4, e4 h]
    rfl
  · rw [k7 _ (by decide), k6, if_neg (by decide), if_pos rfl]
  · rw [k7 _ (by decide), k6, if_pos rfl]

theorem bit_or_shift {w : Nat} (v : BitVec w) (i j : Nat) (hj : j < w) : bit (v ||| 1#w <<< i) j = (bit v j || decide (i = j)) := by
  unfold bit
  rw [BitVec.getLsbD_or, BitVec.getLsbD_shiftLeft, BitVec.getLsbD_one]
  congr 1
  by_cases h : i = j
  · subst h; simp [hj]; omega
  · rw [decide_eq_false h]
    by_cases h2 : j < i
    · simp [h2]
    · have : j - i ≠ 0 := by omega
      simp [this]

theorem bit_fold_or {w : Nat} (f : Nat → Bool) (g : Nat → Nat) (l : List Nat) (v : BitVec w) (j : Nat) (hj : j < w) :
    bit (l.foldl (fun v p => if f p then v ||| 1#w <<< g p else v) v) j = true ↔ bit v j = true ∨ ∃ p ∈ l, f p = true ∧ g p = j := by
  induction l generalizing v with
  | nil => simp
  | cons p l ih =>
    rw [List.foldl_cons, ih]
    by_cases h : f p = true
    · rw [if_pos h, bit_or_shift _ _ _ hj, Bool.or_eq_true, decide_eq_true_eq]
      constructor
      · rintro ((h1 | h1) | ⟨q, h1, h2⟩)
        · exact .inl h1
        · exact .inr ⟨p, List.mem_cons_self, h, h1⟩
        · exact .inr ⟨q, List.mem_cons_of_mem _ h1, h2⟩
      · rintro (h1 | ⟨q, h1, h2⟩)
        · exact .inl (.inl h1)
        · rcases List.mem_cons.1 h1 with rfl | h1
          · exact .inl (.inr h2.2)
          · exact .inr ⟨q, h1, h2⟩
    · rw [if_neg h]
      constructor
      · rintro (h1 | ⟨q, h1, h2⟩)
        · exact .inl h1
        · exact .inr ⟨q, List.mem_cons_of_mem _ h1, h2⟩
      · rintro (h1 | ⟨q, h1, h2⟩)
        · exact .inl h1
        · rcases List.mem_cons.1 h1 with rfl | h1
          · exact absurd h2.1 h
          · exact .inr ⟨q, h1, h2⟩

theorem recordSwap_getDict (a b c d e f g k : Nat) (s : State) (h : k / 256 ≠ 0x8000) : getDict (recordSwap a b c d e f g s) k = getDict s k := by
  unfold recordSwap
  dsimp only
  have h1 : getDict (bumpDict (dkey 0x8000 0x0F) 1 s) k = getDict s k := by
    rw [bumpDict_getDict, if_neg (by rintro rfl; exact h (by decide))]
  generalize bumpDict (dkey 0x8000 0x0F) 1 s = m at h1
  split
  · exact h1
  · rw [getDict_congr (post_dict _ _ _ _)]
    unfold setErrata
    rw [getDict_setDict, if_neg (by rintro rfl; exact h (by decide)), getDict_setDict, if_neg (by rintro rfl; exact h (by decide))]
    exact h1

theorem recordSwap_getDict' (a b c d e f g k : Nat) (s : State) (h : k ∉ [dkey 0x8000 0x02, dkey 0x8000 0x03, dkey 0x8000 0x0F]) :
    getDict (recordSwap a b c d e f g s) k = getDict s k := by
  simp only [List.mem_cons, List.not_mem_nil, or_false, not_or] at h
  unfold recordSwap
  dsimp only
  have h1 : getDict (bumpDict (dkey 0x8000 0x0F) 1 s) k = getDict s k := by
    rw [bumpDict_getDict, if_neg h.2.2]
  generalize bumpDict (dkey 0x8000 0x0F) 1 s = m at h1
  split
  · exact h1
  · rw [getDict_congr (post_dict _ _ _ _)]
    unfold setErrata
    rw [getDict_setDict, if_neg h.1, getDict_setDict, if_neg h.2.1]
    exact h1

theorem noSpare_dict (a b c d : Nat) (s : State) : (noSpare a b c d s).dict = s.dict := by
  unfold noSpare
  dsimp only
  split <;> rfl

theorem noSpare_start (a b c d : Nat) (s : State) : (noSpare a b c d s).start = s.start := by
  unfold noSpare
  dsimp only
  split <;> rfl

/-- Entries outside index 0x8000 read as before. -/
def MostSame (s n : State) : Prop := ∀ k, k / 256 ≠ 0x8000 → getDict n k = getDict s k

theorem chain_of_foldl {α : Type} {r : α → State → State → Prop} {g : State → α → State} (p : α → Bool)
    (h1 : ∀ s x, p x = true → r x s (g s x)) (h2 : ∀ s x, p x = false → g s x = s) (l : List α) (s : State) :
    Chain r (l.filter p) s (l.foldl g s) := by
  induction l generalizing s with
  | nil => rfl
  | cons x l ih =>
    rw [List.foldl_cons]
    cases hp : p x with
    | true => rw [List.filter_cons_of_pos hp]; exact ⟨_, h1 s x hp, ih _⟩
    | false => rw [List.filter_cons_of_neg (by rw [hp]; decide), h2 s x hp]; exact ih _

theorem bit_clearEntry (s : State) (k i : Nat) (hi : i < 64) : bit (getDict (clearEntryBit k i s) k) i = false := by
  unfold clearEntryBit bit
  rw [getDict_setDict, if_pos rfl, BitVec.getLsbD_and, BitVec.getLsbD_not, BitVec.getLsbD_shiftLeft, BitVec.getLsbD_one]
  simp [hi]

theorem mapTile_spec (d frm dst : Nat) (hd : d < 4) (s : State) : let n := mapTile d frm dst s
    bit (getDict n (dkey 0x8000 0x0C)) d = false ∧ (∀ k, k ≠ dkey 0x8000 0x0C → getDict n k = getDict s k) ∧
    n.start = { s.start with tileMap := n.start.tileMap } ∧
    ((∃ t, t < 16 ∧ physTile s d t = frm) → ∃ t, t < 16 ∧ physTile s d t = frm ∧ ∀ u, u < 16 → physTile n d u = if u = t then dst else physTile s d u) := by
  intro n
  have h1 := bit_clearEntry s (dkey 0x8000 0x0C) d (by omega)
  have h2 : ∀ k, k ≠ dkey 0x8000 0x0C → getDict (clearEntryBit (dkey 0x8000 0x0C) d s) k = getDict s k := fun k hk => by
    unfold clearEntryBit; rw [getDict_setDict, if_neg hk]
  have h3 : (clearEntryBit (dkey 0x8000 0x0C) d s).start = s.start := rfl
  have hn : n = (match (List.range 16).find? fun t => decide (physTile (clearEntryBit (dkey 0x8000 0x0C) d s) d t = frm) with
    | some t => { clearEntryBit (dkey 0x8000 0x0C) d s with start := { (clearEntryBit (dkey 0x8000 0x0C) d s).start with tileMap := mset t (clearEntryBit (dkey 0x8000 0x0C) d s).start.tileMap (16 * d + t) dst } }
    | none => clearEntryBit (dkey 0x8000 0x0C) d s) := rfl
  clear_value n
  generalize clearEntryBit (dkey 0x8000 0x0C) d s = s1 at h1 h2 h3 hn
  have hp : ∀ t, physTile s1 d t = physTile s d t := fun t => by unfold physTile; rw [h3]
  cases hf : (List.range 16).find? fun t => decide (physTile s1 d t = frm) with
  | none =>
    rw [hf] at hn
    subst hn
    refine ⟨h1, h2, by rw [h3], ?_⟩
    rintro ⟨t, ht, h⟩
    rw [List.find?_eq_none] at hf
    exact absurd (decide_eq_true ((hp t).trans h)) (hf t (List.mem_range.2 ht))
  | some t =>
    rw [hf] at hn
    subst hn
    refine ⟨h1, h2, by rw [h3], fun _ => ⟨t, List.mem_range.1 (List.mem_of_find?_eq_some hf), ?_, fun u hu => ?_⟩⟩
    · have hq := List.find?_some hf
      rw [← hp]
      exact of_decide_eq_true hq
    · have ht : t < 16 := List.mem_range.1 (List.mem_of_find?_eq_some hf)
      show mget u (mset t s1.start.tileMap (16 * d + t) dst) (16 * d + u) = _
      by_cases h : u = t
      · subst h
        rw [mget_mset_same, if_pos rfl]
      · rw [mget_mset_ne _ _ _ _ (by omega), if_neg h, ← hp]
        rfl

theorem replaceTiles_spec (d : Nat) (hd : d < 4) (passed : BitVec 17) (l : List Nat) (hl : ∀ t ∈ l, t < 16) (s : State) :
    let n := l.foldl (replaceTile d passed) s
    let spare := bit (getDict s (dkey 0x8000 0x0C)) d = true ∧ bit passed 16 = true
    MostSame s n ∧ n.start = { s.start with tileMap := n.start.tileMap } ∧
    (((∀ t, physTile n d t = physTile s d t) ∧ getDict n (dkey 0x8000 0x0C) = getDict s (dkey 0x8000 0x0C) ∧
        (spare → ∀ t ∈ l, bit passed (physTile s d t) = true)) ∨
      (spare ∧ bit (getDict n (dkey 0x8000 0x0C)) d = false ∧ ∃ t, t < 16 ∧ bit passed (physTile s d t) = false ∧
        ∀ u, u < 16 → physTile n d u = if u = t then 16 else physTile s d u)) := by
  induction l using List.reverseRecOn with
  | nil => exact ⟨fun _ _ => rfl, rfl, .inl ⟨fun _ => rfl, rfl, fun _ _ h => absurd h List.not_mem_nil⟩⟩
  | append_singleton l t ih =>
    rw [List.foldl_append, List.foldl_cons, List.foldl_nil]
    obtain ⟨a1, a2, a3⟩ := ih fun t h => hl t (List.mem_append_left _ h)
    have ht : t < 16 := hl t (List.mem_append_right _ List.mem_cons_self)
    generalize l.foldl (replaceTile d passed) s = m at a1 a2 a3
    intro n spare
    have hn : n = if bit passed (physTile m d t) then m else if bit passed 16 && bit (getDict m (dkey 0x8000 0x0C)) d then
        recordSwap 3 d (physTile m d t) (physTile m d t) 16 (testCause m) 0 (mapTile d (physTile m d t) 16 m)
      else noSpare 3 d (physTile m d t) (physTile m d t) m := rfl
    clear_value n
    by_cases h1 : bit passed (physTile m d t) = true
    · rw [if_pos h1] at hn
      rw [hn]
      refine ⟨a1, a2, ?_⟩
      rcases a3 with ⟨b1, b2, b3⟩ | h
      · refine .inl ⟨b1, b2, fun hs u hu => ?_⟩
        rcases List.mem_append.1 hu with hu | hu
        · exact b3 hs u hu
        · rw [List.mem_singleton] at hu
          rw [hu, ← b1]
          exact h1
      · exact .inr h
    · rw [if_neg h1] at hn
      by_cases h2 : (bit passed 16 && bit (getDict m (dkey 0x8000 0x0C)) d) = true
      · rw [if_pos h2] at hn
        rw [Bool.and_eq_true] at h2
        obtain ⟨c1, c2, c3, c4⟩ := mapTile_spec d (physTile m d t) 16 hd m
        generalize mapTile d (physTile m d t) 16 m = y at c1 c2 c3 c4 hn
        have k1 := (recordSwap_kept 3 d (physTile m d t) (physTile m d t) 16 (testCause m) 0 (Kept.rfl' y) (ks := [.dict, .sat, .wearS, .host, .logs]) (by decide)).only
        have k2 := fun k h => recordSwap_getDict 3 d (physTile m d t) (physTile m d t) 16 (testCause m) 0 k y h
        have k3 := recordSwap_getDict' 3 d (physTile m d t) (physTile m d t) 16 (testCause m) 0 (dkey 0x8000 0x0C) y (by decide)
        rw [← hn] at k1 k2 k3
        have ks := k1.start (by decide)
        obtain ⟨t0, e1, e2, e3⟩ := c4 ⟨t, ht, rfl⟩
        have hp : ∀ u, physTile n d u = physTile y d u := fun u => by unfold physTile; rw [ks]
        refine ⟨fun k hk => ?_, ?_, .inr ?_⟩
        · rw [k2 k hk, c2 k (by rintro rfl; exact hk (by decide)), a1 k hk]
        · rw [ks, c3, a2]
        · rcases a3 with ⟨b1, b2, b3⟩ | ⟨b1, b2, _⟩
          · refine ⟨⟨by rw [← b2]; exact h2.2, h2.1⟩, by rw [k3]; exact c1, t0, e1, ?_, fun u hu => ?_⟩
            · rw [← b1, e2]; exact Bool.eq_false_iff.2 h1
            · rw [hp, e3 u hu, b1]
          · rw [b2] at h2
            exact absurd h2.2 (by decide)
      · rw [if_neg h2] at hn
        have hs : n.start = m.start := by rw [hn]; exact noSpare_start _ _ _ _ _
        have hd' : ∀ k, getDict n k = getDict m k := fun k => getDict_congr (by rw [hn]; exact noSpare_dict _ _ _ _ _) k
        have hp : ∀ u, physTile n d u = physTile m d u := fun u => by unfold physTile; rw [hs]
        refine ⟨fun k hk => by rw [hd', a1 k hk], by rw [hs, a2], ?_⟩
        rcases a3 with ⟨b1, b2, b3⟩ | ⟨b1, b2, t0, b3, b4, b5⟩
        · refine .inl ⟨fun u => by rw [hp, b1], by rw [hd', b2], fun hsp => absurd ?_ h2⟩
          rw [b2, hsp.1, hsp.2]
          rfl
        · exact .inr ⟨b1, by rw [hd', b2], t0, b3, b4, fun u hu => by rw [hp, b5 u hu]⟩

theorem repairable_iff (s : State) (kind d p : Nat) (l : List (Nat × Nat)) : repairable s kind d p l = true ↔ RepairFits s kind d p l := by
  unfold repairable RepairFits quartersUsed
  rw [Bool.and_eq_true, decide_eq_true_eq, List.all_eq_true]
  refine and_congr_right fun _ => ?_
  constructor
  · intro h x hx hp r hr h1 h2 h3 h4
    have := h x (List.mem_filter.2 ⟨hx, decide_eq_true hp⟩)
    rw [Bool.not_eq_true', List.contains_eq_mem, decide_eq_false_iff_not] at this
    refine this (List.mem_map.2 ⟨r, List.mem_filter.2 ⟨hr, ?_⟩, h4⟩)
    rw [decide_eq_true h1, decide_eq_true h2, decide_eq_true h3]
    rfl
  · intro h x hx
    obtain ⟨hx, hp⟩ := List.mem_filter.1 hx
    rw [Bool.not_eq_true', List.contains_eq_mem, decide_eq_false_iff_not]
    intro hm
    obtain ⟨r, hr, h4⟩ := List.mem_map.1 hm
    obtain ⟨hr, hb⟩ := List.mem_filter.1 hr
    rw [Bool.and_eq_true, Bool.and_eq_true, decide_eq_true_eq, decide_eq_true_eq, decide_eq_true_eq] at hb
    exact h x hx (of_decide_eq_true hp) r hr hb.1.1 hb.1.2 hb.2 h4

theorem repairRows_chain (i : Nat) (s : State) :
    let mine (x : Swap) : Bool := decide (x.die.val = i / 6) && decide (x.unit = i % 6)
    Chain (fun x s n => SwapRecorded 6 x.die.val x.unit 0 0 x.cause x.row s n) (s.wearS.rows.filter mine)
      { s with wearS := { s.wearS with rows := s.wearS.rows.filter fun x => !mine x } } (repairRows i s) := by
  intro mine
  have h := chain_of_foldl (r := fun (x : Swap) s n => SwapRecorded 6 x.die.val x.unit 0 0 x.cause x.row s n)
    (g := fun s x => recordSwap 6 x.die.val x.unit 0 0 x.cause x.row s) (fun _ => true) (fun s x _ => recordSwap_recorded _ _ _ _ _ _ _ s) (fun s x h => absurd h (by decide))
    (s.wearS.rows.filter mine) { s with wearS := { s.wearS with rows := s.wearS.rows.filter fun x => !mine x } }
  rw [List.filter_eq_self.2 fun _ _ => rfl] at h
  exact h

theorem repairRows_most (i : Nat) (s : State) : MostSame s (repairRows i s) := by
  unfold repairRows
  dsimp only
  intro k hk
  generalize hs : ({ s with wearS := { s.wearS with rows := _ } } : State) = s1
  have h1 : getDict s1 k = getDict s k := getDict_congr (by rw [← hs]) k
  rw [← h1]
  clear h1 hs
  generalize s.wearS.rows.filter _ = l
  induction l generalizing s1 with
  | nil => rfl
  | cons x l ih => rw [List.foldl_cons, ih, recordSwap_getDict _ _ _ _ _ _ _ _ _ hk]

theorem repairLines_most (kind d cause : Nat) (passed : BitVec 17) (l : List (Nat × Nat)) (s : State) : MostSame s (repairLines kind d cause passed l s) := by
  unfold repairLines
  intro k hk
  induction l generalizing s with
  | nil => rfl
  | cons x l ih =>
    rw [List.foldl_cons, ih]
    split
    · exact recordSwap_getDict _ _ _ _ _ _ _ _ _ hk
    · rfl

theorem repairLines_spare (kind d cause : Nat) (passed : BitVec 17) (l : List (Nat × Nat)) (s : State) :
    getDict (repairLines kind d cause passed l s) (dkey 0x8000 0x0C) = getDict s (dkey 0x8000 0x0C) := by
  unfold repairLines
  induction l generalizing s with
  | nil => rfl
  | cons x l ih =>
    rw [List.foldl_cons, ih]
    split
    · exact recordSwap_getDict' _ _ _ _ _ _ _ _ _ (by decide)
    · rfl

theorem repairLines_chain (kind d cause : Nat) (passed : BitVec 17) (l : List (Nat × Nat)) (s : State) :
    Chain (fun x s n => SwapRecorded kind d x.1 x.2 (x.2 / 65 * 65 + 64) cause 0 s n) (l.filter fun x => bit passed x.1) s (repairLines kind d cause passed l s) := by
  unfold repairLines
  exact chain_of_foldl (r := fun (x : Nat × Nat) s n => SwapRecorded kind d x.1 x.2 (x.2 / 65 * 65 + 64) cause 0 s n) (fun x => bit passed x.1)
    (fun s x h => by rw [if_pos h]; exact recordSwap_recorded _ _ _ _ _ _ _ s)
    (fun s x h => by rw [if_neg (by rw [h]; decide)]) l s

theorem stkUp_spec (a up i : Nat) (hi : i < 64) (v : Nat) (hv : v < 4) (b : Bool) (s : State) :
    let n := setDict up (if b then getDict s up ||| 1#64 <<< i else getDict s up &&& ~~~(1#64 <<< i)) (setReg a (setFld (getReg s a) 0 2 v) s)
    fld (getReg n a) 0 2 = v ∧ bit (getDict n up) i = b ∧ (∀ k, k ≠ up → getDict n k = getDict s k) ∧ (∀ x, x ≠ a → getReg n x = getReg s x) ∧
      n.mem = s.mem ∧ Only [.regs, .dict] s n := by
  intro n
  have hr : ∀ x, getReg n x = getReg (setReg a (setFld (getReg s a) 0 2 v) s) x := getReg_congr ((setDict_only _ _ _).regs (by decide))
  have hk : Only [.regs, .dict] s n := ((setReg_only _ _ _).mono (by decide)).step (setDict_only _ _ _) (by decide)
  refine ⟨?_, ?_, fun k h => ?_, fun x h => ?_, hk.mem (by decide), hk⟩
  · rw [hr, getReg_setReg, if_pos rfl, fld_setFld _ _ _ _ (by decide)]
    exact Nat.mod_eq_of_lt hv
  · rw [getDict_setDict, if_pos rfl]
    cases b with
    | true => rw [if_pos rfl, bit_or_shift _ _ _ hi, decide_eq_true rfl, Bool.or_true]
    | false =>
      rw [if_neg (by decide)]
      unfold bit
      rw [BitVec.getLsbD_and, BitVec.getLsbD_not, BitVec.getLsbD_shiftLeft, BitVec.getLsbD_one]
      simp [hi]
  · rw [getDict_setDict, if_neg h]
    exact getDict_congr ((setReg_only _ _ _).dict (by decide)) k
  · rw [hr, getReg_setReg, if_neg h]

theorem stackUp_spec (i : StackId) (s : State) : let a := stkBlk i.val 0
    let up := dkey 0x3000 0x01
    let n := stackUp i.val s
    let here (b : Nat) : Prop := regionOf b = .stack i.val
    fld (getReg n a) 0 2 = 1 ∧ bit (getDict n up) i.val = true ∧
    (∀ k, k ≠ up → getDict n k = getDict s k) ∧ (∀ b, b ≠ a → getReg n b = getReg s b) ∧
    (∀ b, (here b → mget 0#8 n.mem.cells b = 0#8) ∧ (¬ here b → mget 0#8 n.mem.cells b = mget 0#8 s.mem.cells b)) ∧
    (∀ w, (here (8 * w) → mget 0#16 n.mem.synd w = 0#16) ∧ (¬ here (8 * w) → mget 0#16 n.mem.synd w = mget 0#16 s.mem.synd w)) ∧
    Only [.mem, .regs, .dict] s n := by
  intro a up n here
  have hk : Only [.mem, .regs, .dict] s n := (stackUp_kept i.val (Kept.rfl' s) (by decide)).only
  obtain ⟨s1, h1⟩ : ∃ s1 : State, s1 = { s with mem := { s.mem with
    cells := mdrop s.mem.cells fun b => decide (regionOf b = .stack i.val), synd := mdrop s.mem.synd fun k => decide (regionOf (8 * k) = .stack i.val) } } := ⟨_, rfl⟩
  have hn : n = setDict up (getDict s1 up ||| 1#64 <<< i.val) (setReg a (setFld (getReg s1 a) 0 2 1) s1) := by rw [h1]; rfl
  obtain ⟨b1, b2, b3, b4, b5, _⟩ := stkUp_spec a up i.val (by have := i.isLt; omega) 1 (by decide) true s1
  rw [if_pos rfl, ← hn] at b1 b2 b3 b4 b5
  clear_value n
  refine ⟨b1, b2, fun k h => ?_, fun b h => ?_, fun b => ?_, fun w => ?_, hk⟩
  · rw [b3 k h, h1]; rfl
  · rw [b4 b h, h1]; rfl
  · rw [b5, h1]
    dsimp only
    rw [mget_mdrop]
    exact ⟨fun h => if_pos (decide_eq_true h), fun h => if_neg (by rw [decide_eq_true_eq]; exact h)⟩
  · rw [b5, h1]
    dsimp only
    rw [mget_mdrop]
    exact ⟨fun h => if_pos (decide_eq_true h), fun h => if_neg (by rw [decide_eq_true_eq]; exact h)⟩

theorem failTraining_spec (i : StackId) (s : State) : let a := stkBlk i.val 0
    let up := dkey 0x3000 0x01
    ∃ x, StageFaulted 2 (post 0x0601 16 (i.val + 32) x) (failStack i.val true s) ∧ fld (getReg x a) 0 2 = 2 ∧
      bit (getDict x up) i.val = false ∧ (∀ k, k ≠ up → getDict x k = getDict s k) ∧ (∀ b, b ≠ a → getReg x b = getReg s b) ∧ Only [.regs, .dict] s x := by
  intro a up
  obtain ⟨b1, b2, b3, b4, _, b6⟩ := stkUp_spec a up i.val (by have := i.isLt; omega) 2 (by decide) false s
  rw [if_neg (by decide)] at b1 b2 b3 b4 b6
  have hf : failStack i.val true s = stageFault 2 (post 0x0601 16 (i.val + 32) (setDict up (getDict s up &&& ~~~(1#64 <<< i.val)) (setReg a (setFld (getReg s a) 0 2 2) s))) := by
    unfold failStack
    dsimp only
    rw [if_pos rfl]
    rfl
  generalize setDict up (getDict s up &&& ~~~(1#64 <<< i.val)) (setReg a (setFld (getReg s a) 0 2 2) s) = x at b1 b2 b3 b4 b6 hf
  exact ⟨x, by rw [hf]; exact stageFault_faulted 2 _, b1, b2, b3, b4, b6⟩

theorem joinTree_spec (s : State) : let n := joinTree s
    n.fabric = { s.fabric with time := { s.fabric.time with parent := if isRoot s then none else chooseParent s } } ∧
    (isRoot s = true → getDict n (dkey 0x5000 0x0A) = 0) ∧
    (isRoot s = false → ∀ q, chooseParent s = some q → getDict n (dkey 0x5000 0x0A) = BitVec.ofNat 64 (depthOf s q + 1)) ∧
    (∀ k, k / 256 ≠ 0x5000 → getDict n k = getDict s k) ∧ n.regs = s.regs ∧ Only [.dict, .fabric] s n := by
  intro n
  have hk : Only [.dict, .fabric] s n := (joinTree_kept (Kept.rfl' s) (by decide)).only
  obtain ⟨x, hx⟩ : ∃ x, x = setTime (fun t => { t with parent := if isRoot s then none else chooseParent s }) s := ⟨_, rfl⟩
  have xf : x.fabric = { s.fabric with time := { s.fabric.time with parent := if isRoot s then none else chooseParent s } } := by rw [hx]; rfl
  have xd : x.dict = s.dict := by rw [hx]; rfl
  refine ⟨?_, fun h => ?_, fun h q hq => ?_, fun k h => ?_, hk.regs (by decide), hk⟩
  · rw [← xf]
    show (joinTree s).fabric = _
    unfold joinTree
    cases hr : isRoot s with
    | true =>
      rw [if_pos rfl]
      rw [hr, if_pos rfl] at hx
      rw [← hx]
      dsimp only
      split <;> rfl
    | false =>
      rw [if_neg (by decide)]
      rw [hr, if_neg (by decide)] at hx
      cases hc : chooseParent s with
      | none => rw [hc] at hx; rw [hx]
      | some q => rw [hc] at hx; rw [hx]; rfl
  · show getDict (joinTree s) _ = 0
    unfold joinTree
    rw [if_pos h]
    dsimp only
    split
    · unfold setTickState
      rw [getDict_setDict, if_neg (by decide), getDict_setDict, if_pos rfl]
    · rw [getDict_setDict, if_pos rfl]
  · show getDict (joinTree s) _ = _
    unfold joinTree
    rw [if_neg (by rw [h]; decide), hq]
    dsimp only
    rw [getDict_setDict, if_pos rfl]
  · show getDict (joinTree s) k = _
    have ht : ∀ f, getDict (setTime f s) k = getDict s k := fun f => rfl
    unfold joinTree setTickState
    split
    · dsimp only
      split
      · rw [getDict_setDict, if_neg (by rintro rfl; exact h (by decide)), getDict_setDict, if_neg (by rintro rfl; exact h (by decide))]; exact ht _
      · rw [getDict_setDict, if_neg (by rintro rfl; exact h (by decide))]; exact ht _
    · split
      · exact ht _
      · rw [getDict_setDict, if_neg (by rintro rfl; exact h (by decide))]; exact ht _

theorem trainPort_spec (p : Nat) (m : TrainIn) (s : State) : let n := trainPort p m s
    let a := portStatus p
    let old := fld (getReg s a) 3 3
    portState n p = (if m.up then trainedState s p else 4) ∧ peerMod n p = m.peerMod % 4096 ∧ peerPort n p = m.peerPort % 32 ∧
    (∀ b, b ≠ a → getReg n b = getReg s b) ∧
    ((∀ l, m.lane = some l → l < 5 → l = old) → fld (getReg n a) 3 3 = old ∧ n.wearS = s.wearS) ∧
    (∀ l, m.lane = some l → l < 5 → l ≠ old → fld (getReg n a) 3 3 = l ∧ ∃ y, y.wearS = s.wearS ∧
      SwapRecorded 7 (p / 8) p l old (testCause s) 0 y n) ∧
    (∀ k, k / 256 ≠ 0x8000 → k ≠ dkey 0x5000 0x0C → getDict n k = getDict s k) ∧
    Only [.regs, .dict, .sat, .host, .logs, .wearS] s n := by
  intro n a old
  have hk : Only [.regs, .dict, .sat, .host, .logs, .wearS] s n := (trainPort_kept p m (Kept.rfl' s) (by decide)).only
  obtain ⟨st, hst⟩ : ∃ st, st = (if m.up then trainedState s p else 4) := ⟨_, rfl⟩
  have st8 : st < 8 := by
    rw [hst]
    unfold trainedState
    dsimp only
    split
    · split
      · split <;> decide
      · split
        · split <;> decide
        · decide
    · decide
  obtain ⟨s2, h2⟩ : ∃ s2, s2 = setPortState p st (setReg a (setFld (setFld (getReg s a) 6 12 m.peerMod) 18 5 m.peerPort) s) := ⟨_, rfl⟩
  have hn : n = match m.lane with
      | some l => if l < 5 ∧ l ≠ old then recordSwap 7 (p / 8) p l old (testCause s) 0 (setReg a (setFld (getReg s2 a) 3 3 l) s2) else s2
      | none => s2 := by rw [h2, hst]; rfl
  rw [← hst]
  clear hst
  have r2 : ∀ b, getReg s2 b = if b = a then setFld (setFld (setFld (getReg s a) 6 12 m.peerMod) 18 5 m.peerPort) 0 3 st else getReg s b := fun b => by
    rw [h2]
    unfold setPortState
    dsimp only
    rw [getReg_congr ((setDict_only _ _ _).regs (by decide)), getReg_setReg, getReg_setReg]
    by_cases h : b = a
    · subst h
      rw [if_pos rfl, if_pos rfl, if_pos rfl]
    · rw [if_neg h, if_neg h, getReg_setReg, if_neg h]
  have d2 : ∀ k, k ≠ dkey 0x5000 0x0C → getDict s2 k = getDict s k := fun k hk => by
    rw [h2]
    unfold setPortState
    dsimp only
    rw [getDict_setDict, if_neg hk, getDict_congr ((setReg_only _ _ _).dict (by decide)), getDict_congr ((setReg_only _ _ _).dict (by decide))]
  have o2 : Only [.regs, .dict] s s2 := by
    rw [h2]
    exact ((setReg_only _ _ _).mono (by decide)).trans (setPortState_spec _ _ st8 _).2
  clear h2
  have ra : getReg s2 a = setFld (setFld (setFld (getReg s a) 6 12 m.peerMod) 18 5 m.peerPort) 0 3 st := by rw [r2, if_pos rfl]
  have f0 : fld (getReg s2 a) 0 3 = st := by rw [ra, fld_setFld _ _ _ _ (by decide)]; exact Nat.mod_eq_of_lt st8
  have f1 : fld (getReg s2 a) 3 3 = old := by
    rw [ra, fld_setFld_off _ _ _ _ _ _ (by decide) (by decide), fld_setFld_off _ _ _ _ _ _ (by decide) (by decide), fld_setFld_off _ _ _ _ _ _ (by decide) (by decide)]
  have f2 : fld (getReg s2 a) 6 12 = m.peerMod % 4096 := by
    rw [ra, fld_setFld_off _ _ _ _ _ _ (by decide) (by decide), fld_setFld_off _ _ _ _ _ _ (by decide) (by decide), fld_setFld _ _ _ _ (by decide)]
    rfl
  have f3 : fld (getReg s2 a) 18 5 = m.peerPort % 32 := by
    rw [ra, fld_setFld_off _ _ _ _ _ _ (by decide) (by decide), fld_setFld _ _ _ _ (by decide)]
    rfl
  by_cases hl : ∃ l, m.lane = some l ∧ l < 5 ∧ l ≠ old
  · obtain ⟨l, l1, l2, l3⟩ := hl
    have hn' : n = recordSwap 7 (p / 8) p l old (testCause s) 0 (setReg a (setFld (getReg s2 a) 3 3 l) s2) := by
      rw [hn, l1]
      exact if_pos ⟨l2, l3⟩
    clear hn
    obtain ⟨y, hy⟩ : ∃ y, y = setReg a (setFld (getReg s2 a) 3 3 l) s2 := ⟨_, rfl⟩
    rw [← hy] at hn'
    have hs := recordSwap_recorded 7 (p / 8) p l old (testCause s) 0 y
    have hd := fun k h => recordSwap_getDict 7 (p / 8) p l old (testCause s) 0 k y h
    rw [← hn'] at hs hd
    have hrn : ∀ b, getReg n b = getReg y b := getReg_congr (hs.2.1.regs (by decide))
    have hya : getReg n a = setFld (getReg s2 a) 3 3 l := by rw [hrn, hy, getReg_setReg, if_pos rfl]
    have oy := setReg_only a (setFld (getReg s2 a) 3 3 l) s2
    rw [← hy] at oy
    clear_value n
    unfold portState peerMod peerPort
    show fld (getReg n a) 0 3 = st ∧ fld (getReg n a) 6 12 = _ ∧ fld (getReg n a) 18 5 = _ ∧ _
    rw [hya]
    refine ⟨?_, ?_, ?_, fun b hb => ?_, fun h => absurd (h l l1 l2) l3, fun l' l1' l2' l3' => ?_, fun k h1 h2 => ?_, hk⟩
    · rw [fld_setFld_off _ _ _ _ _ _ (by decide) (by decide), f0]
    · rw [fld_setFld_off _ _ _ _ _ _ (by decide) (by decide), f2]
    · rw [fld_setFld_off _ _ _ _ _ _ (by decide) (by decide), f3]
    · rw [hrn, hy, getReg_setReg, if_neg hb, r2, if_neg hb]
    · rw [l1] at l1'
      cases l1'
      refine ⟨?_, y, ?_, hs⟩
      · rw [fld_setFld _ _ _ _ (by decide)]
        exact Nat.mod_eq_of_lt (by omega)
      · rw [oy.wearS (by decide), o2.wearS (by decide)]
    · rw [hd k h1, getDict_congr (oy.dict (by decide)), d2 k h2]
  · have hn' : n = s2 := by
      rw [hn]
      cases hm : m.lane with
      | none => rfl
      | some l => exact if_neg fun h => hl ⟨l, hm, h⟩
    clear hn
    clear_value n
    subst hn'
    unfold portState peerMod peerPort
    refine ⟨f0, f2, f3, fun b hb => by rw [r2, if_neg hb], fun _ => ⟨f1, o2.wearS (by decide)⟩, fun l l1 l2 l3 => absurd ⟨l, l1, l2, l3⟩ hl, fun k _ h2 => d2 k h2, hk⟩

theorem Only.drop_start {ks : List Part} {s n : State} (h : Only (.start :: ks) s n) (hs : n.start = s.start) : Only ks s n := by
  have hm : ∀ {p : Part}, p ≠ .start → p ∉ ks → p ∉ Part.start :: ks := fun hp hk hh => (List.mem_cons.1 hh).elim hp hk
  constructor
  case start => exact fun _ => hs
  all_goals intro hp; first | exact h.mem (hm (by decide) hp) | exact h.regs (hm (by decide) hp) | exact h.shadow (hm (by decide) hp) | exact h.dict (hm (by decide) hp) | exact h.blobs (hm (by decide) hp) | exact h.sat (hm (by decide) hp) | exact h.cat (hm (by decide) hp) | exact h.banks (hm (by decide) hp) | exact h.plates (hm (by decide) hp) | exact h.tiles (hm (by decide) hp) | exact h.units (hm (by decide) hp) | exact h.clients (hm (by decide) hp) | exact h.fabric (hm (by decide) hp) | exact h.rot (hm (by decide) hp) | exact h.arbs (hm (by decide) hp) | exact h.host (hm (by decide) hp) | exact h.logs (hm (by decide) hp) | exact h.wearS (hm (by decide) hp) | exact h.can (hm (by decide) hp) | exact h.cur (hm (by decide) hp) | exact h.mail (hm (by decide) hp) | exact h.wear (hm (by decide) hp) | exact h.ledger (hm (by decide) hp) | exact h.served (hm (by decide) hp) | exact h.ports (hm (by decide) hp) | exact h.tick (hm (by decide) hp) | exact h.pending (hm (by decide) hp) | exact h.free (hm (by decide) hp)

end Sys2Proof.Machine
end

