-- ==== Sys2Proof/Laws/Can.lean ====
section
/-! SUPPORT. CAN frames, transactions and segments; the mailbox (R407 to R418). -/

set_option Elab.async false

namespace Sys2Proof.Machine

theorem errorState_tallied (s : State) : Tallied s (errorState s) ∧ (errorState s).can = s.can ∧ Only [.dict] s (errorState s) := by
  have hk := (errorState_kept (Kept.rfl' s) (ks := [.dict]) (by decide)).only
  refine ⟨?_, hk.can (by decide), hk⟩
  unfold Tallied
  rw [hk.can (by decide)]
  unfold errorState
  by_cases h : 3 ≤ canState s
  · rw [if_pos h, if_pos h]
    exact ⟨rfl, fun _ _ => rfl⟩
  · rw [if_neg h, if_neg h]
    unfold setCanState
    refine ⟨?_, fun k hk => by rw [getDict_setDict, if_neg hk]⟩
    unfold canState dictNat
    rw [getDict_setDict, if_pos rfl]
    split
    · rfl
    · split <;> rfl

/-- The counters' effect on a state whose CAN part alone has changed before. -/
theorem errorState_of (s : State) (c : CanSt) : let n := errorState { s with can := c }
    Tallied s n ∧ n.can = c ∧ Only [.dict, .can] s n := by
  obtain ⟨a, b, d⟩ := errorState_tallied { s with can := c }
  exact ⟨a, b, ((only_can c s).mono (by decide)).trans (d.mono (by decide))⟩

theorem goodReceive_heard (s : State) : CanHeard s (goodReceive s) := by
  unfold goodReceive
  by_cases h : 127 < s.can.errs
  · simp only [if_pos h]
    have hf := fresh_only s
    generalize fresh s = r at hf
    obtain ⟨x, s1⟩ := r
    dsimp only at hf ⊢
    obtain ⟨a, b, c⟩ := errorState_of s1 { s1.can with errs := 119 + x.toNat % 9 }
    generalize errorState _ = g at a b c
    have hc : s1.can = s.can := hf.can (by decide)
    refine ⟨by rw [b, hc], fun h' => absurd h' (by omega), fun _ => by rw [b]; dsimp only; omega, ?_, (hf.mono (by decide)).trans (c.mono (by decide))⟩
    refine ⟨?_, fun k hk => (a.2 k hk).trans (getDict_congr (hf.dict (by decide)) k)⟩
    have : canState s1 = canState s := by unfold canState dictNat; rw [getDict_congr (hf.dict (by decide))]
    rw [← this]
    exact a.1
  · simp only [if_neg h]
    obtain ⟨a, b, c⟩ := errorState_of s { s.can with errs := s.can.errs - 1 }
    generalize errorState _ = g at a b c
    exact ⟨by rw [b], fun _ => by rw [b], fun h' => absurd h' h, a, c.mono (by decide)⟩

theorem sendFrame_sent (code node : Nat) (bs : List Byte) (s : State) : FrameSent code node bs s (sendFrame code node bs s) := by
  unfold sendFrame
  refine ⟨fun h => by rw [if_pos (by rw [h]; decide)], fun h => ?_⟩
  rw [if_neg (by rw [h]; decide)]
  obtain ⟨a, b, c⟩ := errorState_of s { s.can with sent := s.can.sent ++ [(code * 128 + node, padFrame bs)], tec := s.can.tec - 1 }
  exact ⟨b, a, c⟩

theorem countAbort_counted (s : State) : AbortCounted s (countAbort s) := by
  unfold countAbort
  exact ⟨bumpDict_countUp _ _ _, fun k hk => by rw [bumpDict_getDict, if_neg hk], bumpDict_only _ _ _⟩

theorem leBytes_length (n v : Nat) : (leBytes n v).length = n := by
  induction n generalizing v with
  | zero => rfl
  | succ n ih => unfold leBytes; rw [List.length_cons, ih]

theorem abortTrans_aborted (tag code : Nat) (s : State) : CanAborted tag code s (abortTrans tag code s) := by
  unfold abortTrans
  have hf := fresh_only s
  generalize fresh s = r at hf
  obtain ⟨v, s1⟩ := r
  dsimp only at hf ⊢
  obtain ⟨x, hx⟩ : ∃ x, x = endTrans tag s1 := ⟨_, rfl⟩
  rw [← hx]
  have hd : nodeId x = nodeId s := by
    unfold nodeId dictNat
    have : x.dict = s.dict := by rw [hx]; exact hf.dict (by decide)
    rw [getDict_congr this]
  refine ⟨leBytes 6 v.toNat, x, _, leBytes_length _ _, ?_, ?_, ?_, countAbort_counted _⟩
  · rw [hx]
    unfold endTrans ended
    dsimp only
    rw [hf.can (by decide)]
  · rw [hx]
    exact (hf.mono (by decide)).trans ((only_can _ s1).mono (by decide))
  · unfold respond
    rw [hd]
    exact sendFrame_sent _ _ _ _

theorem opening_opened (tag : Nat) (run : State → State) (r : State → State → Prop) (h : ∀ m, r m (run m)) (g : State) :
    Opening tag r g (opening tag run g) := by
  unfold opening
  dsimp only
  refine ⟨if (findTrans g tag).isSome = true then abortTrans tag 0xC g else g, fun hn => by rw [hn]; rfl, fun x hx => ?_, fun h4 => ?_, fun h4 => ?_⟩
  · rw [hx]
    exact abortTrans_aborted _ _ _
  · rw [if_pos h4]
    exact abortTrans_aborted _ _ _
  · rw [if_neg (Nat.not_le.2 h4)]
    exact h _

theorem returnValue_returned (f : CanFrame) (r : Nat × List Byte × State) : Returned f r (returnValue f r) := by
  obtain ⟨e, bs, s⟩ := r
  unfold returnValue Returned
  dsimp only
  refine ⟨fun h => ?_, fun h hl => ?_, fun h hl => ?_⟩
  · rw [if_pos h]; exact abortTrans_aborted _ _ _
  · rw [if_neg (not_not.2 h), if_pos hl]; exact sendFrame_sent _ _ _ _
  · rw [if_neg (not_not.2 h), if_neg (Nat.not_le.2 hl)]
    exact ⟨_, sendFrame_sent _ _ _ _, rfl⟩

theorem applyWrite_applied (tag ix sub : Nat) (data : List Byte) (s : State) : Applied tag ix sub data s (applyWrite tag ix sub data s) := by
  unfold applyWrite Applied
  intro r
  show (r.1 ≠ 0 → CanAborted tag r.1 r.2 (if r.1 ≠ 0 then abortTrans tag r.1 r.2 else respond (respHead 8 tag ix sub 0) (endTrans tag r.2))) ∧
    (r.1 = 0 → FrameSent 0xB (nodeId r.2) (respHead 8 tag ix sub 0) (ended tag r.2) (if r.1 ≠ 0 then abortTrans tag r.1 r.2 else respond (respHead 8 tag ix sub 0) (endTrans tag r.2)))
  clear_value r
  refine ⟨fun h => ?_, fun h => ?_⟩
  · rw [if_pos h]; exact abortTrans_aborted _ _ _
  · rw [if_neg (not_not.2 h)]; exact sendFrame_sent _ _ _ _

theorem ackBlock_acked (x : CanTx) (s : State) : Acked x s (ackBlock x s) := by
  unfold ackBlock Acked respond
  exact sendFrame_sent _ _ _ _

theorem takeSegment_taken (x : CanTx) (f : CanFrame) (g : State) : SegmentTaken x f g (takeSegment x f g) := by
  unfold takeSegment SegmentTaken
  intro good blockEnd inOrder y fits
  dsimp only
  have hg : (f.seq = 0 ∨ 16 < f.seq ∨ f.segLen = 0 ∨ 56 < f.segLen ∨ f.body.length < f.segLen ∨ (¬ f.last = true ∧ f.segLen ≠ 56)) ↔ ¬ good := by
    show _ ↔ ¬ (1 ≤ f.seq ∧ f.seq ≤ 16 ∧ 1 ≤ f.segLen ∧ f.segLen ≤ 56 ∧ f.segLen ≤ f.body.length ∧ (f.last = false → f.segLen = 56))
    cases f.last <;> simp <;> omega
  have ho : (x.gap = true ∨ f.seq ≠ x.seg + 1) ↔ ¬ inOrder := by
    show _ ↔ ¬ (x.gap = false ∧ f.seq = x.seg + 1)
    rw [Classical.not_and_iff_not_or_not, Bool.not_eq_false]
  have hb : (decide (f.seq = 16) || f.last) = true ↔ blockEnd := by
    rw [Bool.or_eq_true, decide_eq_true_eq]
  have hx : (x.size < y.data.length ∨ (f.last = true ∧ y.data.length < x.size)) ↔ ¬ fits := by
    show _ ↔ ¬ (y.data.length ≤ x.size ∧ (f.last = true → x.size ≤ y.data.length))
    cases f.last <;> simp <;> omega
  refine ⟨fun h => ?_, fun h h1 => ⟨fun h2 => ?_, fun h2 => ?_⟩, fun h h1 h2 => ?_, fun h h1 h2 => ⟨fun h3 => ?_, fun h3 => ⟨fun h4 => ?_, fun h4 => ?_⟩⟩⟩
  · rw [if_pos (hg.2 h)]; exact abortTrans_aborted _ _ _
  · rw [if_neg (fun hh => hg.1 hh h), if_pos (ho.2 h1), if_pos (hb.2 h2)]; exact ackBlock_acked _ _
  · rw [if_neg (fun hh => hg.1 hh h), if_pos (ho.2 h1), if_neg (fun hh => h2 (hb.1 hh))]
  · rw [if_neg (fun hh => hg.1 hh h), if_neg (fun hh => ho.1 hh h1), if_pos (hx.2 h2)]; exact abortTrans_aborted _ _ _
  · rw [if_neg (fun hh => hg.1 hh h), if_neg (fun hh => ho.1 hh h1), if_neg (fun hh => hx.1 hh h2), if_pos h3]; exact applyWrite_applied _ _ _ _ _
  · rw [if_neg (fun hh => hg.1 hh h), if_neg (fun hh => ho.1 hh h1), if_neg (fun hh => hx.1 hh h2), if_neg (by rw [h3]; decide), if_pos (hb.2 (.inl h4))]
    exact ackBlock_acked _ _
  · rw [if_neg (fun hh => hg.1 hh h), if_neg (fun hh => ho.1 hh h1), if_neg (fun hh => hx.1 hh h2), if_neg (by rw [h3]; decide),
      if_neg (fun hh => (hb.1 hh).elim h4 fun h5 => by rw [h3] at h5; exact absurd h5 (by decide))]

theorem chain_foldl {α : Type} {r : α → State → State → Prop} {g : State → α → State} (h : ∀ s x, r x s (g s x)) (l : List α) (s : State) :
    Chain r l s (l.foldl g s) := by
  induction l generalizing s with
  | nil => rfl
  | cons x l ih => exact ⟨_, h s x, ih _⟩

theorem sendBlock_sent (x : CanTx) (s : State) : BlockSent x s (sendBlock x s) := by
  unfold sendBlock BlockSent
  dsimp only
  refine ⟨_, chain_foldl (fun s i => ?_) _ _, rfl⟩
  have hb : b2n (decide (x.size ≤ x.done + 56 * (i + 1))) = if x.size ≤ x.done + 56 * (i + 1) then 1 else 0 := by
    split
    · rename_i h; rw [decide_eq_true h]; rfl
    · rename_i h; rw [decide_eq_false h]; rfl
  rw [← hb]
  exact sendFrame_sent _ _ _ _

theorem mbDone_ended (code len : Nat) (s : State) : MailEnded code len s (mbDone code len s) := by
  unfold mbDone
  refine ⟨fun h => by rw [if_pos (by rw [h]; decide)], fun h => ?_⟩
  rw [if_neg (by rw [h]; decide)]
  refine ⟨?_, by rw [getReg_setReg, if_pos rfl], fun a h1 h2 => by rw [getReg_setReg, if_neg h2, getReg_setReg, if_neg h1], ?_⟩
  · rw [getReg_setReg, if_neg (by decide), getReg_setReg, if_pos rfl]
    by_cases hc : code = 0
    · rw [if_pos hc, decide_eq_false (not_not.2 hc)]; rfl
    · rw [if_neg hc, decide_eq_true hc]; rfl
  · exact (setReg_only _ _ _).trans (setReg_only _ _ _)

theorem mbRead_read (r : Nat × List Byte × State) : MailRead r (mbRead r) := by
  unfold mbRead
  refine ⟨fun h => by rw [if_pos h]; exact mbDone_ended _ _ _, fun h => ?_⟩
  rw [if_neg (not_not.2 h)]
  refine ⟨mbPlace 0 r.2.1 r.2.2, fun i => ?_, rfl, only_mail _ _, mbDone_ended _ _ _⟩
  have := mget_zipIdx r.2.1 0 i r.2.2.mail.data
  simp only [Nat.zero_le, true_and, Nat.zero_add, Nat.sub_zero] at this
  unfold mbByte mbPlace
  simp only [Nat.zero_add]
  exact this

theorem isRequest_iff (f : CanFrame) (s : State) : isRequest f s = true ↔ canOn s = true ∧ f.id = 0xC * 128 + nodeId s ∧ 8 ≤ f.data.length := by
  unfold isRequest
  rw [Bool.and_eq_true, Bool.and_eq_true, decide_eq_true_eq, decide_eq_true_eq, and_assoc]

theorem badRequest_iff (f : CanFrame) : badRequest f = true ↔ f.cmd ∉ [1, 2, 3, 6, 7, 9, 0xF] ∨ f.data.length ∉ [8, 12, 16, 20, 24, 32, 48, 64] := by
  unfold badRequest
  rw [Bool.or_eq_true, Bool.not_eq_true', Bool.not_eq_true', decide_eq_false_iff_not, decide_eq_false_iff_not]

theorem onRequest_other (cmd : Nat) (f : CanFrame) (run : State → State) (s : State)
    (h : isRequest f s = false ∨ (badRequest f = false ∧ f.cmd ≠ cmd)) : onRequest cmd f run s = s := by
  unfold onRequest
  by_cases h1 : isRequest f s = true
  · rcases h with h | ⟨h2, h3⟩
    · rw [h] at h1; exact absurd h1 (by decide)
    · rw [if_neg (not_not.2 h1), if_neg (by rw [h2]; decide), if_neg h3]
  · rw [if_pos h1]

theorem onRequest_bad (cmd : Nat) (f : CanFrame) (run : State → State) (s : State) (h1 : isRequest f s = true) (h2 : badRequest f = true) :
    onRequest cmd f run s = abortTrans f.tag 0xA (goodReceive s) := by
  unfold onRequest
  rw [if_neg (not_not.2 h1), if_pos h2]

theorem onRequest_run (f : CanFrame) (run : State → State) (s : State) (h1 : isRequest f s = true) (h2 : badRequest f = false) {cmd : Nat} (h3 : f.cmd = cmd) :
    onRequest cmd f run s = run (goodReceive s) := by
  unfold onRequest
  rw [if_neg (not_not.2 h1), if_neg (by rw [h2]; decide), if_pos h3]

theorem mirrorEvent_sent (e : Event) (s : State) : ∃ (v w : Word) (p : Bool) (x : State), Only [.free] s x ∧
    FrameSent 1 (nodeId s) (leBytes 8 0x10 ++ bytesOf (recordWords e p v w)) x (mirrorEvent e s) := by
  unfold mirrorEvent openRecord recordBytes
  dsimp only
  have h0 := fresh_only s
  generalize fresh s = r at h0
  obtain ⟨a, s1⟩ := r
  dsimp only at h0 ⊢
  have h1 := fresh_only s1
  generalize fresh s1 = r at h1
  obtain ⟨v, s2⟩ := r
  dsimp only at h1 ⊢
  have h2 := fresh_only s2
  generalize fresh s2 = r at h2
  obtain ⟨w, s3⟩ := r
  dsimp only at h2 ⊢
  have ho := (h0.trans h1).trans h2
  refine ⟨v, w, bit a 0, s3, ho, ?_⟩
  have : nodeId s3 = nodeId s := by unfold nodeId dictNat; rw [getDict_congr (ho.dict (by decide))]
  rw [← this]
  exact sendFrame_sent _ _ _ _

theorem blockAck_served (x : CanTx) (f : CanFrame) (g : State) : BlockServed x f g
    (let place := min x.size (x.done + 56 * f.seq)
     if x.write ∨ x.seg < f.seq then abortTrans f.tag 0xA g
     else if place = x.size then endTrans f.tag g
     else if f.segLen = 0 ∨ 16 < f.segLen then abortTrans f.tag 0xA g
     else sendBlock { x with done := place, block := f.segLen } g) := by
  unfold BlockServed
  intro place known
  have hk : (x.write = true ∨ x.seg < f.seq) ↔ ¬ known := by
    show _ ↔ ¬ (x.write = false ∧ f.seq ≤ x.seg)
    rw [Classical.not_and_iff_not_or_not, Bool.not_eq_false, Nat.not_le]
  refine ⟨fun h => ?_, fun h h1 => ?_, fun h h1 h2 => ?_, fun h h1 h2 h3 => ?_⟩
  · rw [if_pos (hk.2 h)]; exact abortTrans_aborted _ _ _
  · rw [if_neg (fun hh => hk.1 hh h), if_pos h1]; rfl
  · rw [if_neg (fun hh => hk.1 hh h), if_neg h1, if_pos (by omega)]; exact abortTrans_aborted _ _ _
  · rw [if_neg (fun hh => hk.1 hh h), if_neg h1, if_neg (by omega)]; exact sendBlock_sent _ _

theorem setCanState_spec (n : Nat) (hn : n < 2 ^ 64) (s : State) : canState (setCanState n s) = n ∧ (∀ k, k ≠ dkey 0x1100 0x04 → getDict (setCanState n s) k = getDict s k) ∧
    Only [.dict] s (setCanState n s) := by
  unfold setCanState canState dictNat
  refine ⟨?_, fun k hk => by rw [getDict_setDict, if_neg hk], setDict_only _ _ _⟩
  rw [getDict_setDict, if_pos rfl, BitVec.toNat_ofNat, Nat.mod_eq_of_lt hn]

theorem mbForward_spec (w : Word) (s : State) : let n := mbForward w s
    getReg n (mbReg 0) = 1 ∧ (∀ a, a ≠ mbReg 0 → getReg n a = getReg s a) ∧ n.mail = { s.mail with remote := true } ∧
    (∃ x y : Word, n.fabric = { s.fabric with packets := s.fabric.packets ++ [{ dmod := fld w 49 12, smod := moduleId s, bytes := bytesOf [x, y], client := 16 }] }) ∧
    Only [.regs, .fabric, .mail, .free] s n := by
  intro n
  have hk : Only [.regs, .fabric, .mail, .free] s n := (mbForward_kept w (Kept.rfl' s) (by decide)).only
  obtain ⟨x, s1, hf1⟩ : ∃ x s1, fresh s = (x, s1) := ⟨_, _, rfl⟩
  obtain ⟨y, s2, hf2⟩ : ∃ y s2, fresh s1 = (y, s2) := ⟨_, _, rfl⟩
  have h1 := fresh_only s
  rw [hf1] at h1
  have h2 := fresh_only s1
  rw [hf2] at h2
  have ho : Only [.free] s s2 := h1.trans h2
  have hn : n = setReg (mbReg 0) 1 { addPacket { dmod := fld w 49 12, smod := moduleId s, bytes := bytesOf [x, y], client := 16 } s2 with mail := { s2.mail with remote := true } } := by
    show mbForward w s = _
    unfold mbForward
    rw [hf1]
    dsimp only
    rw [hf2]
    have : moduleId s2 = moduleId s := by unfold moduleId; rw [getDict_congr (ho.dict (by decide))]
    rfl
  clear_value n
  refine ⟨by rw [hn, getReg_setReg, if_pos rfl], fun a ha => ?_, ?_, ⟨x, y, ?_⟩, hk⟩
  · rw [hn, getReg_setReg, if_neg ha]
    show getReg s2 a = _
    exact getReg_congr (ho.regs (by decide)) a
  · rw [hn, ← ho.mail (by decide)]; rfl
  · rw [hn, ← ho.fabric (by decide)]; rfl

end Sys2Proof.Machine
end

