-- ==== Sys2Proof/Laws/Dict.lean ====
section
/-! SUPPORT. Requests to the object dictionary (R404, R405). -/

set_option Elab.async false

namespace Sys2Proof.Machine

theorem dread_eq (p : DPath) (ix sub : Nat) (s : State) (h : s.start.sketched = true) :
    exec (.dictionaryRead p ix sub) s = .next (dictAnswer p (dictRead ix sub s).1 (dictRead ix sub s).2.1 (dictRead ix sub s).2.2) := by
  show execDictionaryRead p ix sub s = _
  unfold execDictionaryRead
  rw [h, if_neg (by simp)]

theorem dwrite_eq (p : DPath) (ix sub : Nat) (data : List Byte) (s : State) (h : s.start.sketched = true) :
    exec (.dictionaryWrite p ix sub data) s =
      .next (dictAnswer p (dictWrite p ix sub data s).1 [] (dictWrite p ix sub data s).2) := by
  show execDictionaryWrite p ix sub data s = _
  unfold execDictionaryWrite
  rw [h, if_neg (by simp)]

end Sys2Proof.Machine
end

