-- ==== Sys2Proof/Laws/DmaWork.lean ====
section
/-! SUPPORT. What DMA engines do: marks that settle, units read, units written or compared (R151 to R158). -/

set_option Elab.async false

namespace Sys2Proof.Machine

theorem getDma_congr {s t : State} (h : t.units = s.units) (k : Nat) : getDma t k = getDma s k := by
  unfold getDma; rw [h]

/-- What marks at the head of a queue do: each takes effect and completes (R155). -/
theorem settleMarks_spec (k : Nat) : ∀ (n : Nat) (s : State), (getDma s k).descs.length ≤ n →
    let t := settleMarks k n s
    let l := (getDma s k).descs
    (getDma t k).descs = l.dropWhile (·.mark) ∧ (getDma t k).staged = (getDma s k).staged ∧ (getDma t k).burst = (getDma s k).burst ∧
    ((getDma t k).high, (getDma t k).low) = (match (l.takeWhile (·.mark)).getLast? with
        | some m => (fld m.w0 3 7, fld m.w0 10 7)
        | none => ((getDma s k).high, (getDma s k).low)) ∧
    (∀ m ∈ l.takeWhile (·.mark), findFlight t m.id = none) ∧ (∀ i, findFlight s i = none → findFlight t i = none) ∧
    (∀ j, j ≠ k → getDma t j = getDma s j) ∧ Only [.plates, .units] s t := by
  intro n
  induction n with
  | zero =>
    intro s h t l
    have hl : l = [] := List.length_eq_zero_iff.1 (Nat.le_zero.1 h)
    rw [hl]
    exact ⟨hl, rfl, rfl, rfl, fun m hm => by simp at hm, fun i h => h, fun j _ => rfl, Only.rfl' _⟩
  | succ n ih =>
    intro s hn t l
    have ht : t = settleMarks k (n + 1) s := rfl
    unfold settleMarks at ht
    dsimp only at ht
    cases hd : (getDma s k).descs with
    | nil =>
      rw [hd] at ht
      dsimp only at ht
      have hl : l = [] := hd
      rw [ht, hl]
      refine ⟨hd, rfl, rfl, rfl, fun m hm => by simp at hm, fun i h => h, fun j _ => rfl, Only.rfl' _⟩
    | cons x r =>
      rw [hd] at ht
      dsimp only at ht
      have hl : l = x :: r := hd
      rw [hl]
      by_cases hm : x.mark = true
      · rw [if_pos hm] at ht
        have k1 := setDma_only k { getDma s k with descs := r, high := fld x.w0 3 7, low := fld x.w0 10 7 } s
        have g1 := fun j => getDma_setDma k j { getDma s k with descs := r, high := fld x.w0 3 7, low := fld x.w0 10 7 } (s := s)
        generalize setDma k { getDma s k with descs := r, high := fld x.w0 3 7, low := fld x.w0 10 7 } s = s1 at ht k1 g1
        have k2 := complete_only x.id s1
        obtain ⟨c1, c2, -, -⟩ := complete_completed x.id s1
        generalize complete x.id s1 = s2 at ht k2 c1 c2
        have g2 : ∀ j, getDma s2 j = getDma s1 j := fun j => getDma_congr (k2.units (by decide)) j
        have gk : getDma s2 k = { getDma s k with descs := r, high := fld x.w0 3 7, low := fld x.w0 10 7 } := by rw [g2, g1, if_pos rfl]
        have f2 : ∀ i, findFlight s i = none → findFlight s2 i = none := by
          intro i h
          by_cases hi : i = x.id
          · rw [hi]; exact c1
          · rw [c2 i hi, findFlight_congr (k1.plates (by decide))]; exact h
        obtain ⟨i1, i2, i2', i3, i4, i5, i6, i7⟩ := ih s2 (by rw [gk]; rw [hd] at hn; simpa using hn)
        rw [← ht, gk] at i1 i2 i2' i3 i4
        rw [← ht] at i5 i6 i7
        dsimp only at i1 i2 i2' i3 i4
        clear_value t
        refine ⟨?_, i2, i2', ?_, fun m hmm => ?_, fun i h => i5 i (f2 i h), fun j hj => ?_, ((k1.mono (by decide)).step k2 (by decide)).trans i7⟩
        · rw [i1, List.dropWhile_cons, if_pos hm]
        · rw [i3, List.takeWhile_cons, if_pos hm]
          cases hg : (r.takeWhile (·.mark)) with
          | nil => rfl
          | cons a b =>
            obtain ⟨g, hg⟩ : ∃ g, (a :: b).getLast? = some g := ⟨_, List.getLast?_eq_getLast_of_ne_nil (List.cons_ne_nil _ _)⟩
            simp only [List.getLast?_cons_cons, hg]
        · rw [List.takeWhile_cons, if_pos hm] at hmm
          rcases List.mem_cons.1 hmm with rfl | h
          · exact i5 _ c1
          · exact i4 m h
        · rw [i6 j hj, g2, g1, if_neg hj]
      · rw [if_neg hm] at ht
        rw [ht, List.dropWhile_cons, if_neg hm, List.takeWhile_cons, if_neg hm]
        exact ⟨hd, rfl, rfl, rfl, fun m hmm => by simp at hmm, fun i h => h, fun j _ => rfl, Only.rfl' _⟩

/-- The units that a read stages (R152, R154). -/
theorem readUnits_spec (cl : Nat) (x : DDesc) : ∀ (n k : Nat) (s : State),
    (readUnits cl x n k s).1 = (List.range n).map (fun i => let bs := s.bytesOf x.src (x.sname / 4096) (x.sAt (k + i)) x.unit
      (x.id, plain bs, anyPoison bs)) ∧
    SameStore s (readUnits cl x n k s).2 := by
  intro n
  induction n with
  | zero => intro k s; exact ⟨rfl, SameStore.rfl⟩
  | succ n ih =>
    intro k s
    have h1 := readBuf_same cl x.src (x.sname / 4096) (x.sAt k) x.unit s
    have h2 := readBuf_val cl x.src (x.sname / 4096) (x.sAt k) x.unit s
    unfold readUnits
    dsimp only
    generalize readBuf cl x.src (x.sname / 4096) (x.sAt k) x.unit s = p at h1 h2
    obtain ⟨bs, s1⟩ := p
    dsimp only at h1 h2 ⊢
    obtain ⟨i1, i2⟩ := ih (k + 1) s1
    generalize readUnits cl x n (k + 1) s1 = q at i1 i2
    obtain ⟨us, s2⟩ := q
    dsimp only at i1 i2 ⊢
    refine ⟨?_, h1.trans i2⟩
    rw [List.range_succ_eq_map, List.map_cons, List.map_map, i1, h2]
    refine congrArg _ (List.map_congr_left fun i _ => ?_)
    have : k + 1 + i = k + (i + 1) := by omega
    show (let bs := s1.bytesOf _ _ _ _; (x.id, plain bs, anyPoison bs)) = _
    rw [bytesOf_same h1, this]
    rfl

theorem localUnit_done {d cl : Nat} {x z : DDesc} {bs : List Byte} {s t : State} (h : localUnit d cl x bs s = .done z t) :
    z.id = x.id ∧ z.unit = x.unit := by
  unfold localUnit at h
  dsimp only at h
  by_cases h1 : x.op = 3
  · rw [if_pos h1] at h
    by_cases h2 : ¬ readReady s x.dname x.dst (x.dAt x.nWritten) x.unit = true
    · rw [if_pos h2] at h; cases h
    · rw [if_neg h2] at h
      generalize readBuf cl x.dst (x.dname / 4096) (x.dAt x.nWritten) x.unit s = p at h
      obtain ⟨cs, s1⟩ := p
      dsimp only at h
      by_cases h3 : anyPoison cs = true
      · rw [if_pos h3] at h; cases h
      · rw [if_neg h3] at h
        by_cases h4 : plain cs = bs
        · rw [if_pos h4] at h; cases h; exact ⟨rfl, rfl⟩
        · rw [if_neg h4] at h; cases h; exact ⟨rfl, rfl⟩
  · rw [if_neg h1] at h
    generalize (engineWrite cl d 6 x.dname x.dst (x.dAt x.nWritten) bs s).1 = w at h
    generalize writeReady s x.dname (if x.dname / 4096 = d then x.dst else getEnt s x.dname) (x.dAt x.nWritten) x.unit = r at h
    generalize windowAdmits s (if x.dname / 4096 = d then x.dst else getEnt s x.dname) { mod := moduleId s, die := Fin.ofNat 4 d, eng := 6 } (x.dAt x.nWritten) x.unit = a at h
    by_cases h2 : (decide (x.dname / 4096 = d) || a) = true ∧ ¬ r = true
    · rw [if_pos h2] at h; cases h
    · rw [if_neg h2] at h; cases h; exact ⟨rfl, rfl⟩

/-- What a burst of local units does (R152, R154, R157). -/
theorem localUnits_spec (d cl : Nat) : ∀ (n : Nat) (x : DDesc) (st : List (Nat × List Byte × Bool)) (b : Nat) (s : State),
    let q := localUnits d cl n x st b s
    ∃ m z t, m ≤ n ∧ (∀ u ∈ st.take m, u.1 = x.id ∧ u.2.2 = false) ∧ m ≤ st.length ∧
      UnitsDone d cl ((st.take m).map (·.2.1)) x s z t ∧ z.id = x.id ∧ q.1 = z ∧ q.2.1 = st.drop m ∧ q.2.2.1 = b + m * x.unit ∧
      (m = n → q.2.2.2.1 = false ∧ q.2.2.2.2 = t) ∧
      (m < n → match st[m]? with
        | none => q.2.2.2.1 = false ∧ q.2.2.2.2 = t
        | some u => if u.1 ≠ x.id then q.2.2.2.1 = false ∧ q.2.2.2.2 = t
          else if u.2.2 then q.2.2.2.1 = true ∧ q.2.2.2.2 = t
          else match localUnit d cl z u.2.1 t with
            | .waits => q.2.2.2.1 = false ∧ q.2.2.2.2 = t
            | .stops v => q.2.2.2.1 = true ∧ q.2.2.2.2 = v
            | .done _ _ => False) := by
  intro n
  induction n with
  | zero =>
    intro x st b s q
    exact ⟨0, x, s, Nat.le_refl _, by simp, Nat.zero_le _, ⟨rfl, rfl⟩, rfl, rfl, by simp [q, localUnits], by simp [q, localUnits], fun _ => ⟨rfl, rfl⟩, fun h => absurd h (by omega)⟩
  | succ n ih =>
    intro x st b s
    cases st with
    | nil =>
      exact ⟨0, x, s, Nat.zero_le _, by simp, Nat.le_refl _, ⟨rfl, rfl⟩, rfl, rfl, rfl, by simp [localUnits], fun h => by omega, fun _ => ⟨rfl, rfl⟩⟩
    | cons u st =>
      by_cases h1 : u.1 ≠ x.id
      · refine ⟨0, x, s, Nat.zero_le _, by simp, Nat.zero_le _, ⟨rfl, rfl⟩, rfl, ?_, ?_, ?_, fun h => by omega, fun _ => ?_⟩
        · unfold localUnits; rw [if_pos h1]
        · unfold localUnits; rw [if_pos h1]; rfl
        · unfold localUnits; rw [if_pos h1]; simp
        · unfold localUnits; rw [if_pos h1]
          simp [h1]
      · by_cases h2 : u.2.2 = true
        · refine ⟨0, x, s, Nat.zero_le _, by simp, Nat.zero_le _, ⟨rfl, rfl⟩, rfl, ?_, ?_, ?_, fun h => by omega, fun _ => ?_⟩
          · unfold localUnits; rw [if_neg h1, if_pos h2]
          · unfold localUnits; rw [if_neg h1, if_pos h2]; rfl
          · unfold localUnits; rw [if_neg h1, if_pos h2]; simp
          · unfold localUnits; rw [if_neg h1, if_pos h2]
            simp only [ne_eq, not_not] at h1
            simp [h1, h2]
        · have hu : localUnits d cl (n + 1) x (u :: st) b s = match localUnit d cl x u.2.1 s with
              | .waits => (x, u :: st, b, false, s)
              | .stops s1 => (x, u :: st, b, true, s1)
              | .done y s1 => localUnits d cl n y st (b + x.unit) s1 := by
            rw [localUnits, if_neg h1, if_neg h2]
            all_goals cases localUnit d cl x u.2.1 s <;> rfl
          rw [hu]
          have e1 : u.1 = x.id := not_not.1 h1
          cases hl : localUnit d cl x u.2.1 s with
          | waits =>
            exact ⟨0, x, s, Nat.zero_le _, by simp, Nat.zero_le _, ⟨rfl, rfl⟩, rfl, rfl, rfl, by simp, fun h => by omega, fun _ => by simp [e1, h2, hl]⟩
          | stops s1 =>
            exact ⟨0, x, s, Nat.zero_le _, by simp, Nat.zero_le _, ⟨rfl, rfl⟩, rfl, rfl, rfl, by simp, fun h => by omega, fun _ => by simp [e1, h2, hl]⟩
          | done y s1 =>
            obtain ⟨d1, d2⟩ := localUnit_done hl
            obtain ⟨m, z, t, a1, a2, a3, a4, a5, a6, a7, a8, a9, a10⟩ := ih y st (b + x.unit) s1
            refine ⟨m + 1, z, t, by omega, fun v hv => ?_, by simp; omega, ⟨y, s1, hl, a4⟩, a5.trans d1, a6, by simpa using a7, ?_, fun h => a9 (by omega), fun h => ?_⟩
            · rw [List.take_succ_cons] at hv
              rcases List.mem_cons.1 hv with rfl | hv
              · exact ⟨e1, by simpa using h2⟩
              · rw [← d1]; exact a2 v hv
            · dsimp only
              rw [a8, d2]; ring
            · have := a10 (by omega)
              rw [d1] at this
              simpa using this

theorem stopDesc_spec (k d e q : Nat) (x : DDesc) (s : State) :
    getDma (stopDesc k d e q x s) k = { (getDma s k).put { x with stopped := true } with
      staged := (getDma s k).staged.filter fun u => decide (u.1 ≠ x.id) } ∧ (stopDesc k d e q x s).mem = s.mem := by
  unfold stopDesc
  have k1 := setDma_only k { (getDma s k).put { x with stopped := true } with staged := (getDma s k).staged.filter fun u => decide (u.1 ≠ x.id) } s
  have g1 := getDma_setDma k k { (getDma s k).put { x with stopped := true } with staged := (getDma s k).staged.filter fun u => decide (u.1 ≠ x.id) } (s := s)
  dsimp only at k1 g1 ⊢
  generalize setDma k { (getDma s k).put { x with stopped := true } with staged := (getDma s k).staged.filter fun u => decide (u.1 ≠ x.id) } s = y at k1 g1
  have k2 := setBit_only (dmaQBlk d e q 0) 19 y
  exact ⟨by rw [getDma_congr (k2.units (by decide)), g1, if_pos rfl], by rw [k2.mem (by decide), k1.mem (by decide)]⟩

end Sys2Proof.Machine
end

