-- ==== Sys2Proof/Laws/KeptRegs.lean ====
section
/-! SUPPORT. What the operations of Machine/Regs.lean keep (Laws/Kept.lean). -/

set_option Elab.async false

namespace Sys2Proof.Machine

theorem storeFields_kept {ks : List Part} {r : State} (m : Word × Word) (a : Nat) (v : Word) {s : State} (h : Kept ks r s) (hk : [.regs] ⊆ ks := by first | assumption | exact sub_of (by assumption) (by decide)) : Kept ks r (storeFields m a v s) := by
  unfold storeFields
  try dsimp only
  repeat' first
    | with_reducible assumption
    | with_reducible apply setReg_kept

theorem catPortWrite_kept {ks : List Part} {r : State} (d : DieId) (a : Agent) (off : Nat) (v : Word) {s : State} (h : Kept ks r s) (hk : [.mem, .regs, .dict, .sat, .cat, .plates, .clients, .host, .logs] ⊆ ks := by first | assumption | exact sub_of (by assumption) (by decide)) : Kept ks r (catPortWrite d a off v s) := by
  unfold catPortWrite
  try dsimp only
  repeat' first
    | with_reducible assumption
    | exact sub_of hk (by decide)
    | with_reducible apply post_kept
    | with_reducible apply setReg_kept
    | with_reducible apply portCatWrite_kept
    | with_reducible apply kept_ite

theorem fopPortWrite_kept {ks : List Part} {r : State} (d : DieId) (a : Agent) (off : Nat) (v : Word) {s : State} (h : Kept ks r s) (hk : [.mem, .regs, .dict, .sat, .cat, .banks, .clients, .host, .logs, .wear, .ledger, .served, .free] ⊆ ks := by first | assumption | exact sub_of (by assumption) (by decide)) : Kept ks r (fopPortWrite d a off v s) := by
  unfold fopPortWrite
  try dsimp only
  repeat' first
    | with_reducible assumption
    | exact sub_of hk (by decide)
    | with_reducible apply setReg_kept
    | with_reducible apply portFop_kept
    | with_reducible apply kept_ite

theorem after_kept {ks : List Part} {r s : State} {a : Host.Outcome State Fault Refusal} (h : Kept ks r s)
    (ha : ∀ t, a = .next t → Kept ks r t) (hk : [] ⊆ ks := by first | assumption | exact sub_of (by assumption) (by decide)) : Kept ks r (after s a) := by
  cases a with
  | next t => exact ha t rfl
  | fault _ => exact h
  | refused _ => exact h

theorem barWrite_kept {ks : List Part} {r : State} (o : Nat) (v : Word) {s : State} (h : Kept ks r s) (hk : [.mem, .regs, .shadow, .dict, .blobs, .sat, .cat, .banks, .plates, .tiles, .units, .clients, .fabric, .rot, .arbs, .host, .logs, .start, .wearS, .can, .cur, .mail, .wear, .ledger, .served, .ports, .tick, .free] ⊆ ks := by first | assumption | exact sub_of (by assumption) (by decide)) : Kept ks r (barWrite o v s) := by
  unfold barWrite
  try dsimp only
  repeat' first
    | with_reducible assumption
    | exact sub_of hk (by decide)
    | intro _
    | with_reducible apply storeFields_kept
    | with_reducible apply fetchQueue_kept
    | with_reducible apply enableQueue_kept
    | with_reducible apply after_kept
    | with_reducible apply mbPlace_kept
    | with_reducible refine execEventQueueHeadWrite_kept _ _ ?_ (by assumption)
    | with_reducible refine execDoorbellWrite_kept _ _ ?_ (by assumption)
    | with_reducible refine execMailboxGo_kept  ?_ (by assumption)
    | with_reducible apply kept_ite
    | with_reducible apply kept_foldl

theorem ctlWrite_kept {ks : List Part} {r : State} (d : DieId) (o : Nat) (v : Word) {s : State} (h : Kept ks r s) (hk : [.mem, .regs, .dict, .sat, .cat, .banks, .plates, .clients, .host, .logs, .wear, .ledger, .served, .free] ⊆ ks := by first | assumption | exact sub_of (by assumption) (by decide)) : Kept ks r (ctlWrite d o v s) := by
  unfold ctlWrite
  try dsimp only
  repeat' first
    | with_reducible assumption
    | exact sub_of hk (by decide)
    | with_reducible apply catPortWrite_kept
    | with_reducible apply fopPortWrite_kept
    | with_reducible apply storeFields_kept
    | with_reducible apply kept_ite
    | split

theorem mapWrite_kept {ks : List Part} {r : State} (a : Nat) (v : Word) {s : State} (h : Kept ks r s) (hk : [.mem, .regs, .shadow, .dict, .blobs, .sat, .cat, .banks, .plates, .tiles, .units, .clients, .fabric, .rot, .arbs, .host, .logs, .start, .wearS, .can, .cur, .mail, .wear, .ledger, .served, .ports, .tick, .free] ⊆ ks := by first | assumption | exact sub_of (by assumption) (by decide)) : Kept ks r (mapWrite a v s) := by
  unfold mapWrite
  try dsimp only
  repeat' first
    | with_reducible assumption
    | exact sub_of hk (by decide)
    | with_reducible apply post_kept
    | with_reducible apply writeMem_kept
    | with_reducible apply ctlWrite_kept
    | with_reducible apply barWrite_kept
    | with_reducible apply kept_ite
    | split

theorem execRegisterWrite_kept {ks : List Part} {r out : State} (a : Nat) (v : Word) {s : State} (h : Kept ks r s) (he : execRegisterWrite a v s = .next out) (hk : [.mem, .regs, .shadow, .dict, .blobs, .sat, .cat, .banks, .plates, .tiles, .units, .clients, .fabric, .rot, .arbs, .host, .logs, .start, .wearS, .can, .cur, .mail, .wear, .ledger, .served, .ports, .tick, .free] ⊆ ks := by first | assumption | exact sub_of (by assumption) (by decide)) : Kept ks r out := by
  unfold execRegisterWrite at he
  refine kept_next he ?_
  clear he
  try dsimp only
  repeat' first
    | with_reducible assumption
    | exact sub_of hk (by decide)
    | with_reducible apply post_kept
    | with_reducible apply mapWrite_kept
    | split

theorem latchBlock_kept {ks : List Part} {r : State} (lo : Nat) (n : Nat) {s : State} (h : Kept ks r s) (hk : [.shadow] ⊆ ks := by first | assumption | exact sub_of (by assumption) (by decide)) : Kept ks r (latchBlock lo n s) := by
  unfold latchBlock
  try dsimp only
  repeat' first
    | with_reducible assumption
    | with_reducible refine kept_mk ?_ (by constructor <;> intro hp <;> first | exact absurd (sub_mem hk (by decide)) hp | rfl) (by rfl) (by rfl)

theorem ctlRead_kept {ks : List Part} {r : State} (d : DieId) (o : Nat) {s : State} (h : Kept ks r s) (hk : [.shadow, .free] ⊆ ks := by first | assumption | exact sub_of (by assumption) (by decide)) : Kept ks r (ctlRead d o s).2 := by
  unfold ctlRead
  try dsimp only
  repeat' first
    | with_reducible assumption
    | exact sub_of hk (by decide)
    | with_reducible apply latchBlock_kept
    | with_reducible apply fresh_kept
    | with_reducible apply kept_ite
    | split

theorem barRead_kept {ks : List Part} {r : State} (o : Nat) {s : State} (h : Kept ks r s) (hk : [.free] ⊆ ks := by first | assumption | exact sub_of (by assumption) (by decide)) : Kept ks r (barRead o s).2 := by
  unfold barRead
  try dsimp only
  repeat' first
    | with_reducible assumption
    | with_reducible apply fresh_kept
    | split

theorem wholeWord_kept {ks : List Part} {r : State} {r0 : Word × State} (h : Kept ks r r0.2) (hk : [] ⊆ ks := by first | assumption | exact sub_of (by assumption) (by decide)) : Kept ks r (wholeWord r0).2 := by
  unfold wholeWord
  try dsimp only
  assumption

theorem kept_ite_snd {ks : List Part} {r : State} {α : Type} {c : Prop} [Decidable c] {a b : α × State} (ha : Kept ks r a.2)
    (hb : Kept ks r b.2) : Kept ks r (if c then a else b).2 := by split <;> assumption

theorem mapRead_kept {ks : List Part} {r : State} (a : Nat) {s : State} (h : Kept ks r s) (hk : [.mem, .regs, .shadow, .dict, .sat, .banks, .clients, .host, .logs, .wear, .ledger, .served, .free] ⊆ ks := by first | assumption | exact sub_of (by assumption) (by decide)) : Kept ks r (mapRead a s).2 := by
  unfold mapRead
  refine kept_ite_snd (post_kept _ _ _ h) (kept_ite_snd (readMem_kept _ _ _ _ h) (kept_ite_snd ?_ ?_))
  · with_reducible exact wholeWord_kept (ctlRead_kept _ _ h)
  · with_reducible exact wholeWord_kept (barRead_kept _ h)

theorem execCounterBlockLatch_kept {ks : List Part} {r out : State} (a : Nat) {s : State} (h : Kept ks r s) (he : execCounterBlockLatch a s = .next out) (hk : [.mem, .regs, .shadow, .dict, .sat, .banks, .clients, .host, .logs, .wear, .ledger, .served, .ports, .free] ⊆ ks := by first | assumption | exact sub_of (by assumption) (by decide)) : Kept ks r out := by
  unfold execCounterBlockLatch at he
  refine kept_next he ?_
  clear he
  try dsimp only
  repeat' first
    | with_reducible assumption
    | exact sub_of hk (by decide)
    | with_reducible apply post_kept
    | with_reducible apply mapRead_kept
    | split
    | dsimp only
    | with_reducible refine kept_mk ?_ (by constructor <;> intro hp <;> first | exact absurd (sub_mem hk (by decide)) hp | rfl) (by rfl) (by rfl)

end Sys2Proof.Machine
end

