-- ==== Sys2Proof/Laws/Regs.lean ====
section
/-! SUPPORT. Register accesses: masks, latches, addresses (R3, R334, R369). -/

set_option Elab.async false

namespace Sys2Proof.Machine

theorem getLsbD_writeFields (rw w1c old v : Word) (i : Nat) (hi : i < 64) : (writeFields rw w1c old v).getLsbD i =
    if rw.getLsbD i then v.getLsbD i else old.getLsbD i && !(v.getLsbD i && w1c.getLsbD i) := by
  unfold writeFields
  simp only [BitVec.getLsbD_or, BitVec.getLsbD_and, BitVec.getLsbD_not, hi, decide_true, Bool.true_and]
  cases rw.getLsbD i <;> cases old.getLsbD i <;> cases v.getLsbD i <;> cases w1c.getLsbD i <;> rfl

theorem storeFields_spec (m : Word × Word) (a : Nat) (v : Word) (s : State) :
    let n := storeFields m a v s
    n = { s with regs := n.regs } ∧ (∀ b, b ≠ a → getReg n b = getReg s b) ∧
    ∀ i, i < 64 → (getReg n a).getLsbD i =
      if m.1.getLsbD i then v.getLsbD i else (getReg s a).getLsbD i && !(v.getLsbD i && m.2.getLsbD i) := by
  refine ⟨rfl, fun b hb => ?_, fun i hi => ?_⟩
  · unfold storeFields; rw [getReg_setReg, if_neg hb]
  · unfold storeFields; rw [getReg_setReg, if_pos rfl]; exact getLsbD_writeFields _ _ _ _ _ hi

theorem assigned_of_ctl (a : Nat) (h1 : 0xFF000000000 ≤ a) (h2 : a < 0xFF400000000) (h3 : ctlAssigned (a % 0x100000000) = true) :
    assigned a = true := by
  unfold assigned
  rw [h3, decide_eq_true h1, decide_eq_true h2]
  simp only [Bool.and_true, Bool.or_true, Bool.true_or]

theorem assigned_ctl (d : DieId) (o : Nat) (ho : o < 0x100000000) (h : ctlAssigned o = true) :
    assigned (ctlBase d.val + o) = true := by
  have := d.isLt
  apply assigned_of_ctl
  · unfold ctlBase; omega
  · unfold ctlBase; omega
  · rw [show (ctlBase d.val + o) % 0x100000000 = o by unfold ctlBase; omega]
    exact h

theorem mapWrite_ctl (d : DieId) (o : Nat) (v : Word) (s : State) (ho : o < 0x100000000) (h : ctlAssigned o = true) :
    mapWrite (ctlBase d.val + o) v s = ctlWrite d o v s := by
  unfold mapWrite
  have hd := d.isLt
  have h1 : (ctlBase d.val + o - 0xFF000000000) / 0x100000000 = d.val := by unfold ctlBase; omega
  have h2 : (ctlBase d.val + o) % 0x100000000 = o := by unfold ctlBase; omega
  have h3 : ¬ ctlBase d.val + o < 0xFF000000000 := by unfold ctlBase; omega
  rw [assigned_ctl d o ho h, if_neg (by simp), if_neg h3, dif_pos (by omega)]
  simp only [h1, h2]

theorem mapWrite_bar (o : Nat) (v : Word) (s : State) (ho : o < 0x4000000) :
    mapWrite (0xFF800000000 + o) v s = barWrite o v s := by
  unfold mapWrite
  have ha : assigned (0xFF800000000 + o) = true := by
    unfold assigned
    have h1 : 0xFF800000000 ≤ 0xFF800000000 + o := by omega
    have h2 : 0xFF800000000 + o < 0xFF804000000 := by omega
    simp only [Bool.or_eq_true, Bool.and_eq_true, decide_eq_true_eq]
    exact .inr ⟨h1, h2⟩
  rw [ha, if_neg (by simp), if_neg (by omega), dif_neg (by omega), Nat.add_sub_cancel_left]

theorem foldl_latch (s : State) (lo : Nat) : ∀ (n : Nat) (m : SMap Word) (k : Nat),
    mget 0 ((List.range n).foldl (fun m i => mset 0 m (lo + 8 * i) (getReg s (lo + 8 * i))) m) k =
      if ∃ i, i < n ∧ k = lo + 8 * i then getReg s k else mget 0 m k := by
  intro n m k
  induction n with
  | zero => simp
  | succ n ih =>
    rw [List.range_succ, List.foldl_append]
    simp only [List.foldl_cons, List.foldl_nil]
    rw [mget_mset, ih]
    by_cases h : k = lo + 8 * n
    · rw [if_pos h, if_pos ⟨n, by omega, h⟩, h]
    · rw [if_neg h]
      by_cases h2 : ∃ i, i < n ∧ k = lo + 8 * i
      · obtain ⟨i, hi, hk⟩ := h2
        rw [if_pos ⟨i, hi, hk⟩, if_pos ⟨i, by omega, hk⟩]
      · rw [if_neg h2, if_neg]
        rintro ⟨i, hi, hk⟩
        by_cases hin : i = n
        · exact h (hin ▸ hk)
        · exact h2 ⟨i, by omega, hk⟩

theorem latch_eq (a t : Nat) (s : State) (h : windowAddr s (wordAddr a) = some t) :
    exec (.counterBlockLatch a) s = .next { (mapRead t s).2 with ports := mset [] (mapRead t s).2.ports hostPort (mapRead t s).1 } := by
  show execCounterBlockLatch a s = _
  unfold execCounterBlockLatch
  rw [h]

theorem mapRead_ctl (d : DieId) (o : Nat) (s : State) (ho : o < 0x100000000) (h : ctlAssigned o = true) :
    mapRead (ctlBase d.val + o) s = wholeWord (ctlRead d o s) := by
  unfold mapRead
  have hd := d.isLt
  have h1 : (ctlBase d.val + o - 0xFF000000000) / 0x100000000 = d.val := by unfold ctlBase; omega
  have h2 : (ctlBase d.val + o) % 0x100000000 = o := by unfold ctlBase; omega
  have h3 : ¬ ctlBase d.val + o < 0xFF000000000 := by unfold ctlBase; omega
  have h4 : Fin.ofNat 4 d.val = d := Fin.ext (Nat.mod_eq_of_lt hd)
  rw [assigned_ctl d o ho h, if_neg (by simp), if_neg h3, if_pos (by omega), h1, h2, h4]

end Sys2Proof.Machine
end

