-- ==== Sys2Proof/Laws/Wear.lean ====
section
/-! SUPPORT. Wear triggers, swaps performed, fuses blown, the error log (R426, R428, R433 to R437). -/

set_option Elab.async false

namespace Sys2Proof.Machine

theorem noSpare_gone (a b c d : Nat) (s : State) : SpareGone a b c d s (noSpare a b c d s) := by
  unfold noSpare SpareGone
  intro k
  refine ⟨fun h => ?_, fun h => ?_⟩
  · dsimp only
    rw [if_pos (by rw [List.contains_eq_mem]; exact decide_eq_true h)]
  · dsimp only
    rw [if_neg (by rw [List.contains_eq_mem, decide_eq_true_eq]; exact h)]

theorem doneSwap_done (kind die unit frm dst : Nat) (s : State) : SwapDone kind die unit frm dst s (doneSwap kind die unit frm dst s) := by
  unfold doneSwap takeSwap SwapDone
  intro q
  cases hq : q with
  | some x =>
    have hq' : (s.wearS.queue.find? fun x => x.isOf kind die unit frm) = some x := hq
    rw [hq']
    refine ⟨x.cause, { s with wearS := { s.wearS with queue := s.wearS.queue.erase x } }, fun y hy => ?_, fun h => absurd h (by simp), recordSwap_recorded _ _ _ _ _ _ _ _⟩
    cases hy
    exact ⟨rfl, rfl⟩
  | none =>
    have hq' : (s.wearS.queue.find? fun x => x.isOf kind die unit frm) = none := hq
    rw [hq']
    dsimp only
    have hf := fresh_only s
    generalize fresh s = r at hf
    obtain ⟨v, y⟩ := r
    exact ⟨fld v 0 6, y, fun x h => absurd h (by simp), fun _ => ⟨fld_lt v 0 6, hf⟩, recordSwap_recorded _ _ _ _ _ _ _ _⟩

theorem blowFuse_blown (e : Nat) (r : Errata) (ok : Bool) (s : State) : Blown e r ok s (blowFuse e r ok s) := by
  unfold Blown
  intro l k
  have hd : r.die < 4 := fld2_lt _ _
  have hk : k ≠ dkey 0x8000 0x02 ∧ k ≠ dkey 0x8000 0x03 := by
    refine ⟨dkey_ne ?_ (by omega) (by decide), dkey_ne ?_ (by omega) (by decide)⟩ <;> simp
  have h0 : ∀ j, getDict (setErrata l s) j = if j = dkey 0x8000 0x02 then BitVec.ofNat 64 l.length
      else if j = dkey 0x8000 0x03 then BitVec.ofNat 64 (l.filter Errata.pending).length else getDict s j := fun j => by
    unfold setErrata
    rw [getDict_setDict, getDict_setDict]
    rfl
  have hw : (setErrata l s).wearS = { s.wearS with errata := l } := rfl
  have ho : Only [.dict, .wearS] s (setErrata l s) := (setErrata_kept l (Kept.rfl' s) (by decide)).only
  have hb : blowFuse e r ok s = if ok then post 0x0903 16 e (setDict k (getDict (setErrata l s) k - 1) (setErrata l s)) else post 0x0904 16 e (setErrata l s) := by
    cases ok <;> rfl
  rw [hb]
  clear hb
  generalize setErrata l s = m at h0 hw ho
  have hmk : getDict m k = getDict s k := by rw [h0, if_neg hk.1, if_neg hk.2]
  cases ok with
  | true =>
    refine ⟨setDict k (getDict m k - 1) m, hw, ?_, ?_, ?_, fun j hj => ?_, ho.step (setDict_only _ _ _) (by decide), rfl⟩
    · rw [getDict_setDict, if_neg (Ne.symm hk.1), h0, if_pos rfl]
    · rw [getDict_setDict, if_neg (Ne.symm hk.2), h0, if_neg (by decide), if_pos rfl]
    · rw [getDict_setDict, if_pos rfl, hmk]; rfl
    · simp only [List.mem_cons, List.not_mem_nil, or_false, not_or] at hj
      rw [getDict_setDict, if_neg hj.2.2, h0, if_neg hj.1, if_neg hj.2.1]
  | false =>
    refine ⟨m, hw, ?_, ?_, hmk, fun j hj => ?_, ho, rfl⟩
    · rw [h0, if_pos rfl]
    · rw [h0, if_neg (by decide), if_pos rfl]
    · simp only [List.mem_cons, List.not_mem_nil, or_false, not_or] at hj
      rw [h0, if_neg hj.1, if_neg hj.2.1]

theorem count_eraseIdx_other {α : Type} [DecidableEq α] : ∀ (l : List α) (i : Nat) (h : i < l.length) (x : α), l[i] ≠ x → (l.eraseIdx i).count x = l.count x
  | [], i, h, _, _ => absurd h (by simp)
  | a :: l, 0, _, x, hx => by
    rw [List.eraseIdx_zero, List.tail_cons, List.count_cons, if_neg, Nat.add_zero]
    rw [beq_iff_eq]
    exact hx
  | a :: l, i + 1, h, x, hx => by
    rw [List.eraseIdx_cons_succ, List.count_cons, List.count_cons,
      count_eraseIdx_other l i (Nat.lt_of_succ_lt_succ h) x hx]

theorem pickRecords_spec (b : Nat) (l : List Event) : let r := pickRecords b l
    (l.length ≤ b → r = (l, 0, [])) ∧ (b ≤ l.length → r.1.length = b) ∧ r.1.length + r.2.1 + r.2.2.length = l.length ∧
    (∀ e, 4 ≤ e.sev → (r.1 ++ r.2.2).count e = l.count e) ∧ (∀ e ∈ r.2.2, 4 ≤ e.sev) ∧ (r.2.2 ≠ [] → ∀ e ∈ r.1, 4 ≤ e.sev) := by
  unfold pickRecords
  induction l using List.reverseRecOn with
  | nil => exact ⟨fun _ => rfl, fun h => (Nat.le_zero.1 h).symm, rfl, fun _ _ => rfl, fun _ h => absurd h List.not_mem_nil, fun h => absurd rfl h⟩
  | append_singleton l e ih =>
    simp only [List.foldl_append, List.foldl_cons, List.foldl_nil]
    generalize l.foldl _ (([], 0, []) : List Event × Nat × List Event) = r at ih ⊢
    obtain ⟨kept, n, wait⟩ := r
    obtain ⟨a1, a2, a3, a4, a5, a6⟩ := ih
    dsimp only at a1 a2 a3 a4 a5 a6 ⊢
    rw [List.length_append, List.length_singleton]
    by_cases h1 : kept.length < b
    · rw [if_pos h1]
      have hlt : l.length < b := by
        rcases Nat.lt_or_ge l.length b with h | h
        · exact h
        · have := a2 h; omega
      have := a1 (Nat.le_of_lt hlt)
      cases this
      refine ⟨fun _ => rfl, fun h => ?_, ?_, fun x hx => ?_, a5, fun h => absurd rfl h⟩
      · rw [List.length_append, List.length_singleton]; omega
      · dsimp only; rw [List.length_append, List.length_singleton]; simp
      · dsimp only; rw [List.append_nil]
    · rw [if_neg h1]
      have hle : b ≤ l.length := by
        rcases Nat.lt_or_ge l.length b with h | h
        · have := a1 (Nat.le_of_lt h)
          cases this
          omega
        · exact h
      have hkl := a2 hle
      by_cases h2 : e.sev < 4
      · rw [if_pos h2]
        refine ⟨fun h => absurd h (by omega), fun _ => hkl, by dsimp only; omega, fun x hx => ?_, a5, a6⟩
        rw [List.count_append (l₁ := l), List.count_singleton, if_neg, Nat.add_zero]
        · exact a4 x hx
        · intro hh
          rw [beq_iff_eq] at hh
          subst hh
          omega
      · rw [if_neg h2]
        cases hf : kept.findIdx? fun x => decide (x.sev < 4) with
        | some i =>
          dsimp only
          rw [List.findIdx?_eq_some_iff_getElem] at hf
          obtain ⟨hi, hp, _⟩ := hf
          have hp : kept[i].sev < 4 := of_decide_eq_true hp
          have hwn : wait = [] := Classical.byContradiction fun hn => by
            have := a6 hn _ (List.getElem_mem hi)
            omega
          subst hwn
          have hlen : (kept.eraseIdx i).length + 1 = kept.length := by
            rw [List.length_eraseIdx, if_pos hi]
            omega
          refine ⟨fun h => absurd h (by omega), fun _ => ?_, ?_, fun x hx => ?_, a5, fun h => absurd rfl h⟩
          · rw [List.length_append, List.length_singleton, hlen]; exact hkl
          · simp only [List.length_append, List.length_singleton, List.length_nil] at a3 ⊢
            omega
          · have h3 := a4 x hx
            rw [List.append_nil] at h3 ⊢
            rw [List.count_append, List.count_append, ← h3]
            congr 1
            have h4 : kept.count x = (kept.eraseIdx i).count x := by
              rw [count_eraseIdx_other _ _ hi]
              intro hh
              rw [hh] at hp
              omega
            exact h4.symm
        | none =>
          dsimp only
          rw [List.findIdx?_eq_none_iff] at hf
          refine ⟨fun h => absurd h (by omega), fun _ => hkl, ?_, fun x hx => ?_, fun x hx => ?_, fun _ x hx => ?_⟩
          · rw [List.length_append, List.length_singleton]; omega
          · rw [← List.append_assoc, List.count_append (l₁ := kept ++ wait), List.count_append (l₁ := l), a4 x hx]
          · rcases List.mem_append.1 hx with hx | hx
            · exact a5 x hx
            · rw [List.mem_singleton] at hx; subst hx; omega
          · have := hf x hx
            rw [decide_eq_false_iff_not] at this
            omega

theorem bumpDict_logs (k n : Nat) (s : State) : (bumpDict k n s).logs = { s.logs with evlog := (bumpDict k n s).logs.evlog, canWait := (bumpDict k n s).logs.canWait } := by
  have h : ∀ i j (x : State), (stickDict i j x).logs = { x.logs with evlog := (stickDict i j x).logs.evlog, canWait := (stickDict i j x).logs.canWait } := fun i j x => by
    have hp : ∀ d (y : State), (post 0x0207 16 d y).logs = { y.logs with evlog := (post 0x0207 16 d y).logs.evlog, canWait := (post 0x0207 16 d y).logs.canWait } := fun d y => by
      have hs : sevOf 0x0207 = 1 := by decide
      have hi : ∀ e : Event, e.code = 0x0207 → e.sev = 1 → inErrLog e = false := fun e h1 h2 => by unfold inErrLog; rw [h1, h2]; decide
      unfold post postEvent
      dsimp only
      rw [hi _ rfl hs, if_neg (by decide)]
    unfold stickDict
    split
    · rfl
    · exact hp _ { x with sat := _ }
  unfold bumpDict bumpDictW
  generalize 2 ^ 64 = top
  dsimp only
  split
  · rw [setDict_logs]
  · have := h (k / 256) (k % 256) (setDict k (BitVec.ofNat 64 (top - 1)) s)
    rw [setDict_logs] at this
    exact this

theorem swapTile_ready (d : DieId) (p : Nat) (s : State) (t : Nat) (h1 : stepOnDie s d.val = false) (h2 : bit (getDict s (dkey 0x8000 0x0C)) d.val = true)
    (h3 : (List.range 16).find? (fun t => decide (physTile s d.val t = p)) = some t) (j : TileId) (hj : j.val = 16 * d.val + t) :
    swapTile d p s = doneSwap 3 d.val p p 16 (mapTile d.val p 16 (tileReset j s)) := by
  unfold swapTile
  rw [if_neg (by rw [h1, h2]; decide), h3]
  dsimp only
  rw [dif_pos (by rw [← hj]; exact j.isLt)]
  have : (⟨16 * d.val + t, by rw [← hj]; exact j.isLt⟩ : TileId) = j := Fin.ext hj.symm
  rw [this]

theorem remapPort_wanted (p : PortId) (s : State) (w : Swap) (hw : w ∈ s.wearS.queue) (h8 : w.kind = 8) (hp : p.val = w.item) :
    execPortRemap p s = .next (remapPort w.item s) := by
  unfold execPortRemap
  rw [if_pos, hp]
  unfold remapWanted
  rw [Bool.or_eq_true, List.any_eq_true]
  exact .inr ⟨w, hw, by rw [decide_eq_true h8, decide_eq_true hp.symm]; rfl⟩

end Sys2Proof.Machine
end

