-- ==== Sys2Proof/Tests/Slice0.lean ====
section
/-! SUPPORT. The model's own tests: ill-formed commands that the checks refuse, single steps with results worked out by hand from the spec, and states that meet the hypotheses of the statements. -/

namespace Sys2Proof.Tests

open Sys2Proof Sys2Proof.Machine

set_option Elab.async false

/-! ### Ill-formed commands are refused (WellFormed.lean) -/

/-- A plate command of n body words. -/
def cmdOf (n : Nat) : PCmd := ⟨0, 0, List.replicate n 0⟩

theorem test_wf_body : (Instr.modeSet 0 (cmdOf 4098)).wf = false := by decide +kernel
theorem test_wf_body_edge : (Instr.modeSet 0 (cmdOf 4097)).wf = true := by decide +kernel
theorem test_wf_record : (Instr.catalogWrite 0 .host ⟨0, [0, 0, 0, 0, 0, 0, 0]⟩).wf = false := by decide +kernel
theorem test_wf_name : (Instr.catalogCacheFill 0 16384).wf = false := by decide +kernel
theorem test_wf_slot_handle : (Instr.slotWaiterResume 16384 0).wf = false := by decide +kernel
theorem test_wf_ring_slot : (Instr.slotWaiterResume 0 4096).wf = false := by decide +kernel
theorem test_wf_requester : (Instr.folioRead ⟨0, 34, 0, 0, 8, false⟩ []).wf = false := by decide +kernel
theorem test_wf_access_name : (Instr.folioRead ⟨0, 1, 16384, 0, 8, false⟩ []).wf = false := by decide +kernel
theorem test_wf_access_empty : (Instr.folioRead ⟨0, 1, 0, 0, 0, false⟩ []).wf = false := by decide +kernel
theorem test_wf_access_end : (Instr.folioRead ⟨0, 1, 0, 2 ^ 36 - 7, 8, false⟩ []).wf = false := by decide +kernel
theorem test_wf_writer_module : (Instr.remoteWrite ⟨4096, 0, 1⟩ 0 0 []).wf = false := by decide +kernel
theorem test_wf_writer_engine : (Instr.remoteWrite ⟨0, 0, 8⟩ 0 0 []).wf = false := by decide +kernel
theorem test_wf_remote_name : (Instr.remoteWrite ⟨0, 0, 1⟩ 16384 0 []).wf = false := by decide +kernel
theorem test_wf_remote_end : (Instr.remoteWrite ⟨0, 0, 1⟩ 0 (2 ^ 36) [0]).wf = false := by decide +kernel
theorem test_wf_sensors : (Instr.throttleEval ⟨0, 0, 0, [0, 0, 0], 0, 0, 0⟩).wf = false := by decide +kernel
theorem test_wf_flit : (Instr.flitReceive ⟨0, by decide⟩ ⟨List.replicate 255 0, false⟩).wf = false := by decide +kernel
theorem test_wf_arb_class : (Instr.arbiterGrant 0 0 [⟨1, 3, 0⟩]).wf = false := by decide +kernel
theorem test_wf_arb_code : (Instr.arbiterGrant 0 0 [⟨34, 0, 0⟩]).wf = false := by decide +kernel
theorem test_wf_arb_resource : (Instr.arbiterGrant 4 0 []).wf = false := by decide +kernel
theorem test_wf_withdraw_resource : (Instr.grantWithdraw 4 0 0).wf = false := by decide +kernel
theorem test_wf_withdraw_code : (Instr.grantWithdraw 0 0 34).wf = false := by decide +kernel
theorem test_wf_energy : (Instr.ledgerTick [⟨0, [0, 0, 0, 0, 0], 0, 0⟩]).wf = false := by decide +kernel
theorem test_wf_sketch : (Instr.sketchEntry { fuseBad := [], folioBad := [(0, 528)] }).wf = false := by decide +kernel
theorem test_wf_selftest_tile : (Instr.arraySelfTest 0 ⟨0, [(17, 0)], []⟩).wf = false := by decide +kernel
theorem test_wf_selftest_line : (Instr.arraySelfTest 0 ⟨0, [], [(0, 260)]⟩).wf = false := by decide +kernel
theorem test_wf_training_module : (Instr.linkTraining 0 ⟨true, 4096, 0, none⟩).wf = false := by decide +kernel
theorem test_wf_training_port : (Instr.linkTraining 0 ⟨true, 0, 32, none⟩).wf = false := by decide +kernel
theorem test_wf_training_lane : (Instr.linkTraining 0 ⟨true, 0, 0, some 5⟩).wf = false := by decide +kernel
theorem test_wf_frame_id : (Instr.canRead ⟨2048, []⟩).wf = false := by decide +kernel
theorem test_wf_frame_length : (Instr.canRead ⟨0, List.replicate 65 0⟩).wf = false := by decide +kernel
theorem test_wf_wear : (Instr.wearTrigger ⟨10, 0, 0, 0, 0⟩).wf = false := by decide +kernel
theorem test_wf_index : (Instr.dictionaryRead .can 65536 0).wf = false := by decide +kernel
theorem test_wf_sub_index : (Instr.dictionaryRead .can 0 256).wf = false := by decide +kernel
theorem test_wf_value : (Instr.dictionaryWrite .can 0 0 (List.replicate 65537 0)).wf = false := by decide +kernel
theorem test_wf_queue : (Instr.runSteps 65).wf = false := by decide +kernel
theorem test_wf_event_queue : (Instr.msixSend 17 false).wf = false := by decide +kernel
theorem test_wf_enable : (Instr.queueEnable true 17).wf = false ∧ (Instr.queueEnable false 17).wf = true := by decide +kernel
theorem test_wf_tail : (Instr.doorbellWrite 0 4096).wf = false := by decide +kernel
theorem test_wf_head : (Instr.eventQueueHeadWrite 0 4096).wf = false := by decide +kernel
theorem test_wf_address : (Instr.registerWrite (2 ^ 44) 0).wf = false := by decide +kernel
theorem test_wf_slot : (Instr.slotOpen 0 65536).wf = false := by decide +kernel
theorem test_wf_bank : (Instr.bankGate 0 512).wf = false := by decide +kernel
theorem test_wf_unit : (Instr.unitGate 0 true 16).wf = false ∧ (Instr.unitGate 0 false 16).wf = true := by decide +kernel
theorem test_wf_handle : (Instr.windowCloseComplete 0 4096).wf = false := by decide +kernel
theorem test_wf_commit_tick : (Instr.catalogCommit 0 0 (2 ^ 40)).wf = false := by decide +kernel
theorem test_wf_layer : (Instr.govLatch 0 0 4096).wf = false := by decide +kernel
theorem test_wf_lane : (Instr.laneSwap ⟨0, by decide⟩ 5).wf = false := by decide +kernel
theorem test_wf_context : (Instr.spillTimeout 0 65536).wf = false := by decide +kernel
theorem test_wf_bar2 : (Instr.bar2Access (2 ^ 36) false 1 []).wf = false := by decide +kernel
theorem test_wf_peer : (Instr.canTimeout 256).wf = false := by decide +kernel
theorem test_wf_cur_events : (Instr.curEvents 65536).wf = false := by decide +kernel
theorem test_wf_cur_level : (Instr.curUnlock 256).wf = false := by decide +kernel
theorem test_wf_fuse : (Instr.curFuse 1024 0).wf = false ∧ (Instr.curFuse 0 65537).wf = false := by decide +kernel
theorem test_wf_fuse_blow : (Instr.fuseBlow 1024 true).wf = false := by decide +kernel
theorem test_wf_vector_number : (Instr.msixUnmask 256).wf = false := by decide +kernel

/-! ### States that meet the hypotheses of the statements -/

/-- Client 0 in its first step, on all four dies, with 16 statistics slots and 16 contexts. -/
def cl0 : Client := { state := 2, dies := 15, statNum := 16, ctxNum := 16, step := some { idx := 0 } }

/-- A module that has started, in Edition, with client 0 in a step on all four dies. -/
def up : State := { State.reset with
  dict := [(dkey 0x2000 0x01, 3)], clients := [(0, cl0)],
  start := { State.reset.start with rails := true, good := true, sketched := true, firmware := true, resetNow := 0 } }

/-- Tile 0's vector engine with the registers v, at the one instruction w of its block. -/
def vecAt (v : VecS) (w : Nat) : State := setVec 0 { v with block := some { id := 1, instrs := [BitVec.ofNat 64 w] } } up

theorem vecAt_next (v : VecS) (w o : Nat) (h : iOpc (BitVec.ofNat 64 w) = o) :
    (vecAt v w).NextInstr 0 (BitVec.ofNat 64 w) o := by
  refine ⟨h, { id := 1, instrs := [BitVec.ofNat 64 w] }, ?_, rfl⟩
  simp [vecAt]

/-- VectorFloat, VectorInteger, VectorMasks, VectorExact, VectorDraws and the REP, XBIND and XFREE of VectorBlocks: each
instruction can be the next one of a running block. -/
theorem witness_vector_instructions : ∀ o ∈ List.range 0x100, (vecAt {} o).NextInstr 0 (BitVec.ofNat 64 o) o := by
  have h : ∀ o ∈ List.range 0x100, iOpc (BitVec.ofNat 64 o) = o := by decide +kernel
  exact fun o ho => vecAt_next {} o o (h o ho)

/-- A Catalog entry: a Folio tensor of client 0 of FP32 elements in one bank from line 0. -/
def fp32Ent (rows cols : Nat) : Entry :=
  { w0 := 1, w1 := BitVec.ofNat 64 (rows * 2 ^ 32), w2 := BitVec.ofNat 64 cols, w4 := BitVec.ofNat 64 (4 * rows * cols) }

/-- A stream descriptor on it: one record of two elements. -/
def desc (w0 : Word) : Desc := { id := 1, w0 := w0, w1 := 0, w2 := 2 * 2 ^ 16, w3 := 1, w4 := 0, ent := fp32Ent 1 2 }

/-- An input stream with its record in the buffer, the elements 1.0 and 2.0. -/
def inStream : StreamS := { strms := [(0, { active := some { desc 0 with
  recs := [{ i := 0, want := 1, parts := [(0, [(0, false), (0, false), (0x80, false), (0x3F, false),
    (0, false), (0, false), (0, false), (0x40, false)])] }] } })] }

/-- An output stream. -/
def outStream : StreamS := { strms := [(0, { active := some { desc (0x40 + 2 ^ 32) with paged := true } })] }

/-- VectorStreams. -/
theorem witness_VectorStreams :
    (let s := setStr 0 inStream (vecAt {} 0x60);
      s.NextInstr 0 0x60 0x60 ∧ (∃ scales d x bytes,
        takeLanes (getStr (s.operands 0 0x60 []) 0) (iVa 0x60) = .ok [0x3F800000, 0x40000000] scales d x bytes)) ∧
    (let s := setStr 0 inStream (vecAt {} 0x62);
      s.NextInstr 0 0x62 0x62 ∧ (∃ scales d x bytes,
        takeLanes (getStr (s.operands 0 0x62 []) 0) (iVa 0x62) = .ok [0x3F800000, 0x40000000] scales d x bytes)) ∧
    (∀ o ∈ [0x61, 0x75], let s := setStr 0 outStream (vecAt {} o);
      s.NextInstr 0 (BitVec.ofNat 64 o) o ∧ (∃ q d segs,
        planPush (getStr (s.operands 0 (BitVec.ofNat 64 o) []) 0) (iVb (BitVec.ofNat 64 o)) 512 = .ok q d segs)) ∧
    (∀ e o, (e, o) ∈ [(false, 0x68), (true, 0x69)] → let s := vecAt { queue := [{ exact := e, f := [], x := [] }] } o;
      s.NextInstr 0 (BitVec.ofNat 64 o) o ∧
      (getVec (s.operands 0 (BitVec.ofNat 64 o) []) 0).queue = [{ exact := e, f := [], x := [] }]) := by
  have run (x : StreamS) (v : VecS) (w o : Nat) (h : iOpc (BitVec.ofNat 64 w) = o) :
      (setStr 0 x (vecAt v w)).NextInstr 0 (BitVec.ofNat 64 w) o :=
    ⟨h, { id := 1, instrs := [BitVec.ofNat 64 w] }, by simp [vecAt], rfl⟩
  refine ⟨⟨run _ _ 0x60 _ rfl, _, _, _, _, rfl⟩, ⟨run _ _ 0x62 _ rfl, _, _, _, _, rfl⟩, fun o h => ?_, fun e o h => ?_⟩
  · simp only [List.mem_cons, List.not_mem_nil, or_false] at h
    obtain rfl | rfl := h
    · exact ⟨run _ _ 0x61 _ rfl, _, _, _, rfl⟩
    · exact ⟨run _ _ 0x75 _ rfl, _, _, _, rfl⟩
  · simp only [List.mem_cons, List.not_mem_nil, or_false, Prod.mk.injEq] at h
    obtain ⟨rfl, rfl⟩ | ⟨rfl, rfl⟩ := h
    · exact ⟨vecAt_next _ 0x68 _ rfl, rfl⟩
    · exact ⟨vecAt_next _ 0x69 _ rfl, rfl⟩

/-- Whether a command issues, as a test that evaluates. -/
def issues (s : State) (e : Eng) (c : PCmd) : Bool :=
  decide ((getClient s (clientOn s (engDie e))).state ≠ 4) && !aborted s (clientOn s (engDie e)) && !hdrReserved e c &&
  tokensReady s e c && (locate s e c).1.isEmpty && !(locate s e c).2.1.unknown && orderOk s e [] (locate s e c).2.1 &&
  fenceOk s e [] (locate s e c).2.1 && decide (gateOf s (clientOn s (engDie e)) e (locate s e c).2.1.off = .run) &&
  !engOut s e && (findFlight s s.plates.nextId).isNone

theorem issues_spec {s : State} {e : Eng} {c : PCmd} (h : issues s e c = true) : s.Issues e c := by
  simp only [issues, Bool.and_eq_true, Bool.not_eq_true', decide_eq_true_eq, List.isEmpty_iff, Option.isNone_iff_eq_none] at h
  obtain ⟨⟨⟨⟨⟨⟨⟨⟨⟨⟨h1, h2⟩, h3⟩, h4⟩, h5⟩, h6⟩, h7⟩, h8⟩, h9⟩, h10⟩, h11⟩ := h
  exact ⟨h1, h2, h3, h4, h5, h6, h7, h8, h9, h10, h11⟩

/-- A plate command of an opcode without tokens. -/
def pc (opc : Nat) (body : List Nat) : PCmd := ⟨BitVec.ofNat 64 opc, 0, body.map (BitVec.ofNat 64)⟩

/-- A reduce context of client 0, armed, unbound (state 1), or completed and bound to X0 (state 3). -/
def withCtx (x : Ctx) (s : State) : State := setCtx 0 x s

/-- VectorBlocks, and the bounds of MOP (VectorMasks) and RCTX (VectorDraws). -/
theorem witness_VectorBlocks :
    up.Issues (.vector 0) (pc 1 [1, 0]) ∧ (up.issuedCmd (.vector 0) (pc 1 [1, 0])).bad = false ∧
    (let s := withCtx { w0 := 1 } (vecAt {} 0x76);
     let x := getCtx (s.operands 0 0x76 []) (ctxKey 0 0);
     s.NextInstr 0 0x76 0x76 ∧ x.state = 1 ∧ x.reduce = true ∧ x.bound = false ∧ x.client = clientOn (s.operands 0 0x76 []) 0) ∧
    (let s := withCtx { w0 := 3 } (vecAt { bind := [(0, 1)] } 0x77);
     let v := getVec (s.operands 0 0x77 []) 0;
     s.NextInstr 0 0x77 0x77 ∧ v.skips.contains 0 = false ∧ mget 0 v.bind 0 = 1 ∧ (getCtx (s.operands 0 0x77 []) 0).state = 3) ∧
    (∃ b, (getVec (setVec 0 { block := some { id := 1, instrs := [], pc := 0 } } up) 0).block = some b ∧ b.instrs.length ≤ b.pc) ∧
    (∀ k, k < 4 → iSub (BitVec.ofNat 64 (k * 2 ^ 38)) = k) ∧ (∀ k, k < 5 → iVd (BitVec.ofNat 64 (k * 2 ^ 8)) % 8 = k) := by
  refine ⟨issues_spec (by decide +kernel), by decide +kernel, ⟨?_, by decide +kernel⟩, ⟨?_, by decide +kernel⟩,
    ⟨_, rfl, by decide⟩, by decide +kernel, by decide +kernel⟩
  · exact ⟨rfl, { id := 1, instrs := [0x76] }, rfl, rfl⟩
  · exact ⟨rfl, { id := 1, instrs := [0x77] }, rfl, rfl⟩

/-- A plate command with one input token of register 0 of an engine's file. -/
def pcTok (e : Eng) (opc : Nat) (body : List Nat) : PCmd :=
  ⟨BitVec.ofNat 64 (opc + 0x10 + 2 ^ 16 * (0x2000 + 2 ^ 8 * ownFile e)), 0, body.map (BitVec.ofNat 64)⟩

/-- The module with its client's step aborted. -/
def upAborted : State := { up with clients := [(0, { cl0 with step := some { idx := 0, aborted := true } })] }

/-- PlateCommandsWait, its three clauses: an aborted step, a missing token, a reserved header (a reference whose count is 0). -/
theorem witness_PlateCommandsWait :
    (plateCmd (.snop 0 (pc 1 [])) = some (.seq 0, pc 1 []) ∧ (getClient upAborted (clientOn upAborted 0)).state ≠ 4 ∧
      aborted upAborted (clientOn upAborted 0) = true) ∧
    (let c := pcTok (.seq 0) 1 [];
      plateCmd (.snop 0 c) = some (.seq 0, c) ∧ (getClient up (clientOn up 0)).state ≠ 4 ∧
      aborted up (clientOn up 0) = false ∧ hdrReserved (.seq 0) c = false ∧ tokensReady up (.seq 0) c = false) ∧
    (let c := pc 0x11 [];
      plateCmd (.snop 0 c) = some (.seq 0, c) ∧ aborted up (clientOn up 0) = false ∧ hdrReserved (.seq 0) c = true ∧
      (locate up (.seq 0) c).1 = [] ∧ orderOk up (.seq 0) [] (locate up (.seq 0) c).2.1 = true ∧
      fenceOk up (.seq 0) [] (locate up (.seq 0) c).2.1 = true ∧
      gateOf up (clientOn up 0) (.seq 0) (locate up (.seq 0) c).2.1.off ≠ .wait) := by decide +kernel

/-- A module whose tile 0 sequencer has one token in register 0. -/
def upTok : State := setTok 0 0 0 1 up

/-- PlateIssueAndCompletion. -/
theorem witness_PlateIssueAndCompletion : upTok.Issues (.seq 0) (pcTok (.seq 0) 1 []) :=
  issues_spec (by decide +kernel)

/-- A plate set whose tile 0 sequencer has a plate of 16 words at address 0. -/
def upPlate (g : EngSt) : State :=
  setEng (.seq 0) g (setClient 0 { cl0 with set := some { dir := [(engKey (.seq 0), (0, 16))] } } up)

/-- PlateFeed: a plate with words left, a window with room for the delivered SNOP, a full window, a post on its way, and the
watchdog with one engine that waits for a token. -/
theorem witness_PlateFeed :
    (let s := upPlate { running := true }
     let g := getEng s (.seq 0);
      g.running = true ∧ g.ended = false ∧ g.fetched < (plateOf s (.seq 0)).2 ∧ g.words.length + 8 ≤ 128) ∧
    (let s := upPlate { running := true, words := [1, 0, 0, 0, 0, 0, 0, 0], fetched := 8 };
      aborted s (clientOn s 0) = false ∧ (getEng s (.seq 0)).win.length < 8 ∧
      nextCmd (.seq 0) (getEng s (.seq 0)).words ((plateOf s (.seq 0)).2 - (getEng s (.seq 0)).entered) = some (pc 1 [], 2, false) ∧
      ∀ x ∈ namesOf (.seq 0) (pc 1 []), nameCached s 0 x = true) ∧
    (let s := upPlate { running := true, win := List.replicate 8 { ix := 0, off := 0, cmd := pc 1 [], names := [], bank := 0 } };
      (getEng s (.seq 0)).ended = false ∧ 8 ≤ (getEng s (.seq 0)).win.length) ∧
    (∀ n ∈ [1, 65535], let p : Post := { die := 0, file := 16, reg := 255, count := n, eng := .dma 0 0, client := 0 }
      let s := setTok 0 16 255 1 { up with plates := { up.plates with posts := [p] } };
      s.plates.posts[0]? = some p ∧ p.file < 17 ∧ p.reg < 256 ∧
      (tokens s p.die.val p.file p.reg + p.count ≤ 65535 ↔ n = 1)) ∧
    (let s := upPlate { running := true, win := [{ ix := 0, off := 0, cmd := pcTok (.seq 0) 1 [], names := [], bank := 0 }] };
      clientOn s 0 = 0 ∧ watchdogHeld s 0 0 = false ∧ (∀ f ∈ enginesOf 0, tokenStuck s f = true) ∧
      ((enginesOf 0).filter fun f => (lacks s f).isSome).head? = some (.seq 0)) := by decide +kernel

/-- A Catalog of die 0 with handle 0: a Folio byte buffer of n bytes. -/
def bufEnt (n : Nat) : Entry := { w0 := 1, w4 := BitVec.ofNat 64 n }

def upBuf : State := setEnt 0 (bufEnt 64) up

/-- The words of an SFOP: FILL of handle 0's first 8 bytes. -/
def sfopFill : PCmd := pc 4 [0, 1, 0, 0, 8, 0x55]

/-- SequencerCommands. SCAT: a direct write that passes, a staged one, and one refused because the entry is another client's. -/
theorem witness_SequencerCommands :
    (up.Issues (.seq 0) (pc 1 []) ∧ up.Issues (.seq 0) (pc 5 [0]) ∧ up.Issues (.seq 0) (pc 2 [0x10000]) ∧
      up.Issues (.seq 0) (pc 2 [0])) ∧
    (let c := pc 3 [0, 1, 0, 0, 0, 64, 0, 0, 0]
     let r := scatRec c;
      up.Issues (.seq 0) c ∧ r.stage = false ∧
      catReason (up.issued (.seq 0) c) (some (clientOn up 0)) 0 r up.cat.ents = none) ∧
    (let c := pc 3 [0x1000, 1, 0, 0, 0, 64, 0, 0, 0]
     let r := scatRec c;
      up.Issues (.seq 0) c ∧ r.stage = true ∧ r.undef = false ∧ catReason (up.issued (.seq 0) c) (some (clientOn up 0)) 0 r
        (applyStaged up.cat.ents (up.cat.staging.filter fun x => decide (x.owner = stageOwner up 0 r))) = none) ∧
    (let c := pc 3 [0, 5, 0, 0, 0, 64, 0, 0, 0]
     let r := scatRec c;
      up.Issues (.seq 0) c ∧ r.stage = false ∧ catReason (up.issued (.seq 0) c) (some (clientOn up 0)) 0 r up.cat.ents = some 7) ∧
    (let q := sfopRec sfopFill;
      upBuf.Issues (.seq 0) sfopFill ∧ fopReserved (some (clientOn upBuf 0)) 0 q upBuf = false ∧ FopReady upBuf 0 q ∧
      (getEnt upBuf (fopDh q)).placed ∧ fopReserved (some (clientOn up 0)) 0 q up = true ∧
      (∀ o, o < (getEnt upBuf (fopDh q)).len → upBuf.storable (addrOf (getEnt upBuf (fopDh q)) 0 o) = true)) ∧
    (let s := setTile 0 { getTile upBuf 0 with sfops := [{ id := 1, w0 := 0, op := sfopRec sfopFill }] } upBuf;
      (getTile s 0).sfops[0]? = some { id := 1, w0 := 0, op := sfopRec sfopFill } ∧
      fopReserved (some (clientOn s 0)) 0 (sfopRec sfopFill) s = false ∧ FopReady s 0 (sfopRec sfopFill)) := by
  refine ⟨⟨issues_spec (by decide +kernel), issues_spec (by decide +kernel), issues_spec (by decide +kernel),
    issues_spec (by decide +kernel)⟩, ⟨issues_spec (by decide +kernel), by decide +kernel⟩,
    ⟨issues_spec (by decide +kernel), by decide +kernel⟩, ⟨issues_spec (by decide +kernel), by decide +kernel⟩,
    ⟨issues_spec (by decide +kernel), by decide +kernel, ?_, ?_, by decide +kernel, by decide +kernel⟩,
    by decide +kernel, by decide +kernel, ?_⟩
  · unfold FopReady; decide +kernel
  · unfold Entry.placed; decide +kernel
  · unfold FopReady; decide +kernel

/-- ArrayCommands, its clauses: MODE_SET (plain, and with SETG and a deadline of 0), LOAD_STAT (2 lines of 256, the bounds;
none; too long), PASS (plain; reserved with rows to take; reserved without), DRAIN (one entry, none). -/
theorem witness_ArrayCommands :
    (∀ c ∈ [pc 5 [], pc 1 [0x18], pc 1 [4], pc 2 [256 * 2 ^ 14 + 256 * 2 ^ 23], pc 2 [0], pc 2 [257 * 2 ^ 14 + 2 ^ 23],
        pc 3 [0x10 + 2 ^ 32, 0, 0], pc 3 [3 * 2 ^ 30 + 2 ^ 32, 0, 0], pc 3 [0, 0, 0], pc 4 [0x3F80000000000400, 1], pc 4 [0, 1]],
      up.Issues (.array 0) c) ∧
    ¬ (bit ((pc 1 [0x18]).w 0) 2 = true ∧ fld ((pc 1 [0x18]).w 0) 20 16 = 0) ∧
    (bit ((pc 1 [4]).w 0) 2 = true ∧ fld ((pc 1 [4]).w 0) 20 16 = 0) ∧
    (let j := loadJob (pc 2 [256 * 2 ^ 14 + 256 * 2 ^ 23]) 1;
      1 ≤ j.lines ∧ j.lines ≤ 256 ∧ 1 ≤ j.llen ∧ j.llen ≤ 256) ∧
    (loadJob (pc 2 [0]) 1).lines = 0 ∧
    (let j := loadJob (pc 2 [257 * 2 ^ 14 + 2 ^ 23]) 1;
      1 ≤ j.lines ∧ ¬ (j.lines ≤ 256 ∧ 1 ≤ j.llen ∧ j.llen ≤ 256)) ∧
    (∀ x ∈ [(pc 3 [0x10 + 2 ^ 32, 0, 0], false), (pc 3 [3 * 2 ^ 30 + 2 ^ 32, 0, 0], true), (pc 3 [0, 0, 0], true)],
      let j := passJob 0 x.1 (up.issuedCmd (.array 0) x.1) 1 (up.issued (.array 0) x.1);
      passReserved 0 (getArr up 0) j = x.2 ∧ j.gather = false ∧ j.takes = false ∧ (j.m = 0 ↔ x.1 = pc 3 [0, 0, 0])) ∧
    (∀ x ∈ [(pc 4 [0x3F80000000000400, 1], false), (pc 4 [0, 1], true)],
      let s1 := up.issued (.array 0) x.1
      let w := up.issuedCmd (.array 0) x.1;
      drainBad 0 (entryOf s1 w (specHandle (x.1.w 1))) (drainJob 0 x.1 w 1 s1) = x.2) := by
  refine ⟨fun c h => ?_, by decide +kernel⟩
  have a : ∀ c ∈ [pc 5 [], pc 1 [0x18], pc 1 [4], pc 2 [256 * 2 ^ 14 + 256 * 2 ^ 23], pc 2 [0], pc 2 [257 * 2 ^ 14 + 2 ^ 23],
      pc 3 [0x10 + 2 ^ 32, 0, 0], pc 3 [3 * 2 ^ 30 + 2 ^ 32, 0, 0], pc 3 [0, 0, 0], pc 4 [0x3F80000000000400, 1],
      pc 4 [0, 1]], issues up (.array 0) c = true := by decide +kernel
  exact issues_spec (a c h)

/-- A ring of one slot with a header and one row of two BF16 elements. -/
def ringEnt : Entry := { w0 := 0x101, w1 := 2 ^ 32, w2 := 2, w4 := 64, w6 := 1 + 2 ^ 13 + 2 ^ 16 }

/-- A stream with one record of two BF16 elements, 1.0 and 2.0, in the buffer. -/
def rowStream : StreamS := { strms := [(0, { active := some { desc 0 with ent := { fp32Ent 1 2 with w0 := 0x101 }
                                                                          recs := [{ i := 0, want := 1, parts := [(0,
  [(0x80, false), (0x3F, false), (0, false), (0x40, false)])] }] } })] }

/-- BF16. -/
def bf16 : Fmt := { elem := .bf16, blk := 16, ovf := false, rnd := false, wlo := 0 }

/-- A stationary tile of 2 rows and one column. -/
def tile21 : Stat := { fmt := bf16, tscale := 1, top := true, k := 2, n := 1, lines := [⟨[0x3F80], []⟩, ⟨[0x3F80], []⟩] }

/-- A pass of one row that writes its result into bank 0; and one that gathers rows of the ring for the vector engine. -/
def rowPass : PassJob := { id := 1, w0 := 0x10 + 2 ^ 32, w1 := 0, w2 := 0, bank := 0 }
def ringPass : PassJob := { id := 1, w0 := 0x42 + 2 ^ 32, w1 := 0, w2 := 1, bank := 0, ring := some (0, ringEnt) }

/-- The module with an array on tile 0. -/
def arrAt (a : ArrayS) : State := setStr 0 rowStream (setArr 0 a up)

/-- An array with its tile active and every unit awake. -/
def arrRun (ps : List PassJob) : ArrayS :=
  { active := some tile21, passes := ps, awakeR := BitVec.allOnes 64, awakeC := BitVec.allOnes 16 }

/-- ArrayRows. -/
theorem witness_ArrayRows :
    (let j : LoadJob := { id := 1, top := true, lstr := 0, lscl := 0, lines := 1, llen := 2 }
     let s := arrAt { loads := [j] };
      (getArr s 0).loads = [j] ∧ (getArr s 0).pend = none ∧ (getArr s 0).pendBad = false ∧
      ∃ d x bytes, takeRecord (getStr s 0) j.lstr j.lscl = .ok [0x3F80, 0x4000] [] d x bytes) ∧
    (let s := arrAt { loads := [{ id := 1, top := true, lstr := 0, lscl := 0, lines := 1, llen := 2 }], pend := some tile21 };
      (getArr s 0).loads ≠ [] ∧ (getArr s 0).pend.isSome = true) ∧
    (let s := arrAt (arrRun [rowPass]);
      (getArr s 0).passes = [rowPass] ∧ rowPass.bad = false ∧ rowPass.row ≠ rowPass.m ∧ rowPass.gather = false ∧
      (∃ d x bytes, takeRecord (getStr s 0) rowPass.xstr rowPass.xscl = .ok [0x3F80, 0x4000] [] d x bytes ∧
        passStart (inProof s) (getArr s 0) rowPass d.fmt d.ent.tscale = .go tile21) ∧
      ¬ (rowPass.started = true ∧ rowPass.drains = true ∧ bankDraining (getArr s 0) (rowPlace rowPass).1 rowPass.id = true)) ∧
    (let j := { ringPass with slots := [0] }
     let s := arrAt (arrRun [j]);
      (getArr s 0).passes = [j] ∧ j.bad = false ∧ j.row ≠ j.m ∧ j.gather = true ∧ j.ring = some (0, ringEnt) ∧
      (getArr s 0).active = some tile21) ∧
    (let s := setSlot 0 0 true (arrAt (arrRun [ringPass]));
      (getArr s 0).passes = [ringPass] ∧ ringPass.gather = true ∧ ringPass.bad = false ∧ ringPass.row ≠ ringPass.m ∧
      passStart (inProof s) (getArr s 0) ringPass ringEnt.fmtD ringEnt.tscale = .go tile21 ∧
      bankDraining (getArr s 0) 0 1 = false ∧ fullSlots s 0 ringEnt = [0] ∧
      ringPass.m - ringPass.row ≤ (fullSlots s 0 ringEnt).length) := by
  refine ⟨⟨rfl, rfl, rfl, _, _, _, rfl⟩, by decide +kernel, ⟨rfl, by decide +kernel, by decide +kernel, by decide +kernel,
    ⟨_, _, _, rfl, rfl⟩, by decide +kernel⟩, ⟨rfl, by decide +kernel, by decide +kernel, by decide +kernel, rfl, rfl⟩,
    rfl, by decide +kernel, by decide +kernel, by decide +kernel, rfl, by decide +kernel, by decide +kernel, by decide +kernel⟩

/-- A Catalog record that defines handle 0 of the die as a buffer of 64 bytes of client 0. -/
def bufRec (ctl : Nat) : CatRec := ⟨BitVec.ofNat 64 ctl, [1, 0, 0, 0, 64, 0, 0, 0]⟩

/-- CatalogWrites: a busy port, a direct write that passes, a staged one, and one refused for its reserved format. -/
theorem witness_CatalogWrites :
    catBusy { up with cat := { up.cat with closing := [{ name := 0, agent := some .host }] } } 0 .host = true ∧
    (catBusy up 0 .host = false ∧ (bufRec 0).stage = false ∧ catReason up none 0 (bufRec 0) up.cat.ents = none) ∧
    ((bufRec 0x1000).stage = true ∧ (bufRec 0x1000).undef = false ∧ catReason up none 0 (bufRec 0x1000)
      (applyStaged up.cat.ents (up.cat.staging.filter fun x => decide (x.owner = stageOwner up 0 (bufRec 0x1000)))) = none) ∧
    (let r : CatRec := ⟨0, [0xF01, 0, 0, 0, 64, 0, 0, 0]⟩;
      r.stage = false ∧ catReason up none 0 r up.cat.ents = some 1) ∧
    (mget 0 { up.cat with accepted := [(0, 1)] }.accepted 0 ≠ 0 ∧ mget 0 up.cat.accepted 0 = 0) := by decide +kernel

/-- FolioOperations: FILL, COPY, SLOT_RESET, LOCK_ACQ and LOCK_REL as records, on die 0's handles 0 (64 bytes), 1 (another
bank) and 2 (a ring). -/
def fopRec (code : Nat) : FopRec :=
  { w0 := BitVec.ofNat 64 (code + 2 ^ 4 * (if code = 3 then 2 else 0) + 2 ^ 16), w1 := 0, w2 := 0, w3 := 8, w4 := 0x55 }

def upFop : State := setEnt 2 { ringEnt with w3 := 2 } (setEnt 1 { bufEnt 64 with w3 := 1 } upBuf)

theorem witness_FolioOperations :
    (∀ code ∈ [1, 2, 3, 4, 5], let q := fopRec code;
      fopReserved none 0 q upFop = false ∧ FopReady upFop 0 q ∧ (getEnt upFop (fopDh q)).placed ∧
      ∀ o, o < (getEnt upFop (fopDh q)).len → upFop.storable (addrOf (getEnt upFop (fopDh q)) 0 o) = true) ∧
    (let s := setSlot 0 0 true (setEnt 0 ringEnt up);
      fopReserved none 0 (fopRec 1) s = false ∧ ¬ FopReady s 0 (fopRec 1)) ∧
    fopReserved none 0 (fopRec 1) up = true := by unfold FopReady Entry.placed; decide +kernel

/-- A handle whose window lets every module and die write its first 64 bytes. -/
def winEnt : Entry := { bufEnt 64 with w6 := BitVec.ofNat 64 (2 ^ 30 + 15 * 2 ^ 31 + 4095 * 2 ^ 47) }

/-- An access of die 0's host port to handle 0, 8 bytes. -/
def acc8 : Access := ⟨0, 0, 0, 0, 8, false⟩

/-- BufferAccesses: Folio and stack reads and writes that run, ones that a ring slot holds, a write of another die that the
window does not admit, a waiter that can be served, and a remote write. -/
theorem witness_BufferAccesses :
    (∀ kind ∈ [1, 2], let s := setEnt 0 { bufEnt 64 with w0 := BitVec.ofNat 64 kind } up
      let e := getEnt (strike [] s) 0;
      accOk kind e acc8 8 = true ∧ slotBlocked (strike [] s) 0 e 0 8 false = none ∧
      slotBlocked (strike [] s) 0 e 0 8 true = none ∧ e.placed ∧ acc8.name / 4096 = acc8.die.val) ∧
    (let s := setEnt 0 ringEnt up;
      slotBlocked (strike [] s) 0 (getEnt s 0) 0 8 false = some 0 ∧ accOk 1 (getEnt s 0) acc8 8 = true ∧
      slotBlocked (setSlot 0 0 true s) 0 (getEnt s 0) 0 8 true = some 0) ∧
    (let r : Access := { acc8 with die := 1 }
     let s := setEnt 0 (bufEnt 64) up
     let e := getEnt s 0;
      accOk 1 e r 8 = true ∧ e.placed ∧ r.name / 4096 ≠ r.die.val ∧
      windowAdmits (strike [] s) e { mod := moduleId s, die := r.die, eng := r.code } r.off 8 = false) ∧
    (∀ wr ∈ [true, false], let w : Waiter := { name := 0, slot := 0, write := wr, acc := acc8, data := List.replicate 8 0 }
      let s0 := setSlot 0 0 (!wr) (setEnt 0 ringEnt up)
      let s := { s0 with cat := { s0.cat with waiters := [w] } };
      (s.cat.waiters.findIdx? fun x => decide (x.name = 0) && decide (x.slot = 0) && waiterReady s x) = some 0 ∧
      s.cat.waiters[0]? = some w ∧ w.acc.name = 0 ∧ (getEnt s 0).kind ≠ 0 ∧ (getEnt s 0).placed ∧
      accOk (getEnt s 0).kind (getEnt s 0) w.acc (if wr then w.data.length else w.acc.len) = true) ∧
    (let s := setEnt 0 winEnt up
     let e := getEnt s 0;
      e.placed ∧ (List.replicate 64 (0 : Byte)).length ≠ 0 ∧ windowAdmits s e ⟨4095, 3, 7⟩ 0 64 = true ∧
      slotBlocked s 0 e 0 64 true = none) := by unfold Entry.placed; decide +kernel

/-- PowerGating: each clause at the ends of its range of units, and at die 3's bank 511. -/
theorem witness_PowerGating :
    (∀ i ∈ [0, 63], (getArr up 0).wakeHold = false ∧ (neededUnits (getArr up 0)).1.getLsbD i = false ∧
      (getArr up 0).wakingR.getLsbD i = false ∧ (getArr (arrAt { wakingR := BitVec.allOnes 64 }) 0).wakingR.getLsbD i = true) ∧
    (∀ i ∈ [0, 15], (neededUnits (getArr up 0)).2.getLsbD i = false ∧ (getArr up 0).wakingC.getLsbD i = false ∧
      (getArr (arrAt { wakingC := BitVec.allOnes 16 }) 0).wakingC.getLsbD i = true) ∧
    (let k := bankKey 3 511;
      bankPower up k = .active ∧ bankRequests up k = 0 ∧ heldAt up k true = 0 ∧
      (∀ p ∈ [BankPower.sleep, .off, .waking, .powering], bankPower (setBankPower k p up) k = p) ∧
      sparesUsed { up with banks := { up.banks with used := [(3, 15)] } } 3 < 16) := by decide +kernel

/-- ScrubbingAndMemoryFaults. -/
theorem witness_ScrubbingAndMemoryFaults :
    mget .active (strike [⟨0x1E000000000, 3⟩] up).banks.power (bankOf (folioBase 0)) ≠ .off ∧
    stackFailed (strike [⟨0, 3⟩] up) 0 = false ∧ bit (getReg up (stkBlk 23 0)) 2 = false ∧
    assigned 0x1B000000000 = false ∧ up.start.sketched = true ∧ bar2Addr up 0 = some 0 ∧
    bar2Addr (setReg (bar0 8) (BitVec.ofNat 64 (26 * 2 ^ 36)) up) (2 ^ 36 - 8) = some (27 * 2 ^ 36 - 8) ∧
    bar2Addr (setReg (bar0 8) (BitVec.ofNat 64 (27 * 2 ^ 36)) up) 0 = none := by decide +kernel

/-- RegisterAccesses: a control register of die 3 (the tile 0 array's status), an interrupt mask of BAR0, memory, an
unassigned address, the first and another word of a counter block. -/
theorem witness_RegisterAccesses :
    (∀ o ∈ [0, 0x150000, 0x301000], windowAddr up (wordAddr (ctlBase 3 + o)) = some (ctlBase 3 + o) ∧ o < 0x100000000 ∧
      ctlAssigned o = true ∧ ¬ (0x310000 ≤ o ∧ o < 0x310500) ∧ ¬ (0x320000 ≤ o ∧ o < 0x320500)) ∧
    (∀ o ∈ [8, 0x10, 0x11000, 0x12430], windowAddr up (wordAddr (0xFF800000000 + o)) = some (0xFF800000000 + o) ∧
      (o = 8 ∨ o = 0x10 ∨ (0x10000 ≤ o ∧ o < 0x11040 ∧ o % 0x40 ≠ 0x18) ∨ (0x12000 ≤ o ∧ o < 0x12440 ∧ o % 0x40 ≠ 0x18))) ∧
    (∀ t ∈ [0, 0x1AFFFFFFFF8, 0xF0000000000], windowAddr up (wordAddr t) = some t ∧ t < 0xFF000000000 ∧ assigned t = true ∧ t % 8 = 0) ∧
    (∀ t ∈ [0x1B000000000, 0xF0040000000], windowAddr up (wordAddr t) = some t ∧ assigned t = false) ∧
    (ctlBlock 8 = some (8, 4) ∧ ctlBlock 0x10 = some (8, 4)) := by decide +kernel

theorem entry_spec (s : State) (ix sub : Nat) (a : DAcc) (ty : DType)
    (h : (findEntry ix sub s).2.map (fun r => (r.acc, r.ty)) = some (a, ty)) :
    ∃ r, (findEntry ix sub s).2 = some r ∧ r.acc = a ∧ r.ty = ty := by
  obtain ⟨r, hr, he⟩ := Option.map_eq_some_iff.mp h
  cases he
  exact ⟨r, hr, rfl, rfl⟩

/-- DictionaryAccesses: HB_PERIOD (read, written in and out of range), ORDER_CODE (a string, constant), RESET_REQ (write only),
an entry and an index that do not exist, FOLIO_OFF_ENABLE (while a client is admitted), and TIME_SLICES (refused by state). -/
theorem witness_DictionaryAccesses :
    up.start.sketched = true ∧
    (∃ r, (findEntry 0x1100 5 up).2 = some r ∧ r.acc = .rw ∧ r.ty = .u16) ∧ DType.u16.size = some 2 ∧
    (inRange up (dkey 0x1100 5) 60000 = true ∧ inRange up (dkey 0x1100 5) 60001 = false ∧
      stateRefuses up (dkey 0x1100 5) 60000 = false ∧ dkey 0x1100 5 / 256 ≠ 0x7001) ∧
    (∃ r, (findEntry 0x1000 1 up).2 = some r ∧ r.acc = .const ∧ r.ty = .str) ∧ DType.str.size = none ∧
    (∃ r, (findEntry 0x2000 10 up).2 = some r ∧ r.acc = .wo ∧ r.ty = .u8) ∧
    ((findEntry 0x1000 0xFF up).2 = none ∧ (findEntry 0x0FFF 0 up).2 = none) ∧
    (∃ r, (findEntry 0x3100 2 up).2 = some r ∧ r.acc = .rwIdle ∧ r.ty = .bool) ∧
      up.clients.any (fun x => decide (x.2.state ≠ 0)) = true ∧
    (∃ r, (findEntry 0x9002 0 up).2 = some r ∧ r.acc = .rw ∧ r.ty = .u32) ∧
      stateRefuses (setClient 0 { cl0 with run := some { q := 0, cmdid := 0, notify := false, start := 0, left := 1, idx := 0 } } up)
        (dkey 0x9002 0) 0 = true :=
  ⟨by decide +kernel, entry_spec _ _ _ _ _ (by decide +kernel), rfl, by decide +kernel, entry_spec _ _ _ _ _ (by decide +kernel), rfl,
    entry_spec _ _ _ _ _ (by decide +kernel), ⟨by decide +kernel, by decide +kernel⟩, entry_spec _ _ _ _ _ (by decide +kernel),
    by decide +kernel, entry_spec _ _ _ _ _ (by decide +kernel), by decide +kernel⟩

/-- TicksAndClocks. -/
theorem witness_TicksAndClocks :
    (let s := { up with start := { up.start with tcut := 800 } };
      s.start.tcut ≠ 0 ∧ s.start.tcut ≠ tclk s) ∧ up.start.tcut = 0 ∧ up.start.firmware = true := by decide +kernel

/-- TimeSynchronisation: a module with a parent port; one whose parent port is down, with another port up; a root with
external references. -/
theorem witness_TimeSynchronisation :
    (let s := { up with fabric := { up.fabric with time := { parent := some 0 } } };
      s.fabric.time.parent = some 0 ∧ isRoot s = false ∧ portState s 0 ≠ 2 ∧
      chooseParent (setReg (portStatus 31) 2 s) = some 31) ∧
    (∀ n ∈ [8, 9], let s := { up with fabric := { up.fabric with time := { edges := n } } };
      (s.fabric.time.edges + 1 < 10 ↔ n = 8)) ∧
    extRoot (setDict (dkey 0x5000 7) 1 (setDict (dkey 0x5000 6) 1 up)) = true := by decide +kernel

/-- A client in a run of steps, on die 0, with a timetable share whose one slot is the closing slot. -/
def clRun (st : Option StepSt) : Client :=
  { cl0 with
    dies := 1
    step := st
    run := some { q := 0, cmdid := 0, notify := false, start := 0, left := 2, idx := 0 }
    set := some { dir := [], presets := [(16, 255, 3)], tt := [BitVec.ofNat 64 (1 + 2 ^ 16 * 1000), 0, 0, 0, 0, 0, 0, 0, 3, 0] } }

/-- A module whose engines of die 0 have run their plates to the end. -/
def upRun (st : Option StepSt) : State :=
  { setClient 0 (clRun st) up with plates := { up.plates with
    engs := (enginesOf 0).foldl (fun m e => mset {} m (engKey e) { ended := true }) [] } }

/-- StepsAndAborts. -/
theorem witness_StepsAndAborts :
    (let s := upRun none;
      ∃ r, (getClient s 0).run = some r ∧ stepReady s 0 r = true ∧
      ∀ p ∈ clientPresets (getClient s 0), p.1 < 17 ∧ p.2.1 < 256) ∧
    (∀ a ∈ [false, true], let st : StepSt := { idx := 0, ended := [0], aborted := a, stopped := true }
      let s := upRun (some st);
      (getClient s 0).step = some st ∧ (∃ r, (getClient s 0).run = some r ∧ 1 < r.left) ∧ stepOver s 0 st = true) ∧
    (let st : StepSt := { idx := 0, aborted := true }
     let s := upRun (some st);
      (getClient s 0).step = some st ∧ st.stopped = false ∧ (getClient s 0).state = 2) ∧
    (up.fabric.aborts.contains (0, 0) = false ∧
      { up.fabric with aborts := [(0, 0)] }.aborts.contains (fld (0 : Word) 8 12, fld (0 : Word) 0 32) = true) := by
  refine ⟨⟨_, rfl, by decide +kernel, by decide +kernel⟩, fun a h => ?_, by decide +kernel, by decide +kernel⟩
  simp only [List.mem_cons, List.not_mem_nil, or_false] at h
  obtain rfl | rfl := h <;> exact ⟨rfl, ⟨_, rfl, by decide⟩, by decide +kernel⟩

/-- The module in a stage, in a reset of a kind (0: none), with the client as given. -/
def upStage (stage kind : Nat) (c : Client) : State :=
  { up with dict := [(dkey 0x2000 0x01, BitVec.ofNat 64 stage)], clients := [(0, c)], start := { up.start with resetNow := kind } }

/-- JtagCommands, PowerAndColdReset and ModuleResets: Sketch and Edition; rails up and down; the input at its bounds; a reset of
each strength in progress, or none; the staged self-test with no client, and with one. -/
theorem witness_resets :
    (stageOf (upStage 1 1 {}) = 1 ∧ stageOf up ≠ 1) ∧
    ((47500 ≤ 47500 ∧ 54000 ≤ 54000 ∧ 10 ≤ 10) ∧ State.reset.start.tripped = false ∧ State.reset.start.good = false ∧
      State.reset.start.rails = false ∧ up.start.good = true ∧ up.start.rails = true) ∧
    (∀ kind ∈ [1, 2], (upStage 3 kind cl0).start.rails = true ∧ (upStage 3 kind cl0).start.resetNow ≠ 0 ∧
      (upStage 3 kind cl0).start.resetNow ≤ 2) ∧
    (¬ (up.start.resetNow ≠ 0 ∧ up.start.resetNow ≤ 2) ∧ ¬ ((upStage 3 3 cl0).start.resetNow ≠ 0 ∧ (upStage 3 3 cl0).start.resetNow ≤ 2)) ∧
    (∀ kind ∈ [3, 4, 5], ¬ (up.start.resetNow ≠ 0 ∧ up.start.resetNow ≤ kind) ∧ (upStage 3 3 cl0).start.resetNow ≤ kind ∧
      up.start.sketched = true) ∧
    (0 ∈ runningOn up (fun x => decide (x = 0)) ∧ (getClient up 0).step = some { idx := 0 }) ∧
    (stageOf (upStage 3 0 {}) = 3 ∧ (∀ x ∈ (upStage 3 0 {}).clients, x.2.state = 0) ∧ ∃ x ∈ up.clients, x.2.state ≠ 0) := by
  decide +kernel

/-- The Curator at a level, with a challenge of level 1 and a key. -/
def upCur (level : Nat) : State :=
  { up with
    dict := [(dkey 0x2000 0x01, 3), (dkey 0xF000 0x01, BitVec.ofNat 64 level), (dkey 0xF000 0x05, 1)]
    blobs := { blobs := [(curKey, List.replicate 16 1)] }
    wearS := { up.wearS with errata := [{ w0 := 0x80, w1 := 0 }] }
    cur := { challenge := some (1, 7, 0), oldBaud := some (115200, 0), confirm := some (0, 5, 0) } }

/-- CuratorLines: levels 0 to 2, a key and none, a challenge of its time with an answer of 4 bytes, a dump of an index that
exists and of one that does not, unlock blocked, a rate to go back to. -/
theorem witness_CuratorLines :
    (∀ k ∈ [0, 1, 2], CurServes (upCur k) ∧ curLevel (upCur k) = k ∧ (upCur k).cur.blocked ≤ (upCur k).tick) ∧
    key1 (upCur 0) ≠ List.replicate 16 0 ∧ key1 up = List.replicate 16 0 ∧
    ((upCur 0).cur.challenge = some (1, 7, 0) ∧ (upCur 0).tick ≤ 0 + 120000000) ∧
    ([0, 0, 0, 0] : List Byte).length = 4 ∧
    (recoveryRefuses up 0x1000 = false ∧ indexExists 0x1000 = true ∧ indexExists 0x0FFF = false ∧
      recoveryRefuses (upStage 0x81 0 {}) 0x3000 = true) ∧
    (let s := { upCur 0 with cur := { (upCur 0).cur with blocked := 1 } };
      s.tick < s.cur.blocked) ∧
    (upCur 0).cur.oldBaud = some (115200, 0) := by unfold CurServes; decide +kernel

/-- CuratorLines, the fuse command: a pending repair, confirmed by its code and not by another. -/
theorem witness_CuratorFuse :
    let s := setDict (dkey 0x2100 8) 20 (setDict (dkey 0x2100 1) 48000 { upCur 2 with clients := [] })
    (pendingRepair s 0).isSome = true ∧ curLevel s = 2 ∧ fuseConfirmed 0 5 s = true ∧ fuseConfirmed 0 6 s = false := by
  decide +kernel

/-- SlotsAfterCatalogWrite: a direct write that makes handle 0 a defined buffer, as in CatalogWrites above. TokenOverflow: the
post of 65,535 in PlateFeed above, to a register that holds 1. -/
theorem witness_TokenOverflow :
    let p : Post := { die := 0, file := 16, reg := 255, count := 65535, eng := .dma 0 0, client := 0 }
    let s := setTok 0 16 255 1 { up with plates := { up.plates with posts := [p] } }
    s.plates.posts[0]? = some p ∧ p.file < 17 ∧ p.reg < 256 ∧ 65535 < tokens s p.die.val p.file p.reg + p.count := by decide +kernel

/-- The module with FP32 tensors of one row of two elements as handles 0 and 1 and a buffer of 592 bytes as handle 2. -/
def upTen : State := setEnt 2 { bufEnt 592 with w3 := 2 } (setEnt 1 { fp32Ent 1 2 with w3 := 1 } (setEnt 0 (fp32Ent 1 2) up))

def hconv : PCmd := pc 1 [0x1000, 0, 1 + 2 ^ 33, 0x3F80000000000000, 0, 0]
def hstat : PCmd := pc 2 [0, 2 ^ 32, 2 ^ 17]

/-- HatchCommands: HCONV and HSTAT that meet R140, HCTX, HSNAP with and without its copy; and an empty HCONV, which does not. -/
theorem witness_HatchCommands :
    (∀ c ∈ [hconv, hstat, pc 3 [3, 0, 0], pc 4 [0x2000, 0], pc 4 [2 ^ 40, 0], pc 1 [0, 0, 0, 0, 0, 0]], upTen.Issues (.hatch 0 0) c) ∧
    (let e := fun n => entryOf (upTen.issued (.hatch 0 0) hconv) (upTen.issuedCmd (.hatch 0 0) hconv) n
     let sa := hSrc hconv
     let da := hDst hconv;
      1 ≤ sa.rows ∧ 1 ≤ sa.cols ∧ sa.cols ≤ 65536 ∧ goodMult (BitVec.ofNat 32 (fld (hconv.w 3) 32 32)) = true ∧
      srcReserved 0 (e 0) sa = false ∧ dstReserved 0 (e 1) da (hconv.w 4) = false ∧
      spansMeet (areaSpans 0 (e 0) sa) (areaSpans 1 (e 1) da) = false ∧ bit (hconv.w 0) 24 = false) ∧
    (let e := entryOf (upTen.issued (.hatch 0 0) hstat) (upTen.issuedCmd (.hatch 0 0) hstat) 0
     let sa := hSrc hstat;
      1 ≤ sa.rows ∧ 1 ≤ sa.cols ∧ sa.cols ≤ 65536 ∧ srcReserved 0 e sa = false ∧
      slotOwned (upTen.issued (.hatch 0 0) hstat) 0 (fld (hstat.w 0) 12 10) = true) ∧
    (let c := pc 4 [0x2000, 0]
     let s1 := upTen.issued (.hatch 0 0) c
     let e := entryOf s1 (upTen.issuedCmd (.hatch 0 0) c) 2;
      slotOwned s1 0 0 = true ∧ bit (c.w 0) 40 = false ∧ e.ownedBy 0 = true ∧ 0 + 592 ≤ e.len ∧ e.placed) ∧
    ¬ 1 ≤ (hSrc (pc 1 [0, 0, 0, 0, 0, 0])).rows := by
  refine ⟨fun c h => issues_spec ?_, by unfold Entry.placed; decide +kernel⟩
  revert c
  decide +kernel

/-- HatchChunks: an HSTAT and an HCONV at work, ready, and one whose ring slot is EMPTY. -/
theorem witness_HatchChunks :
    (let j : HJob := { id := 1, cmd := hstat, src := (0, fp32Ent 1 2) }
     let s := setHatch 0 0 (some j) upTen;
      getHatch s 0 0 = some j ∧ hatchReady s j = true ∧ j.dst = none) ∧
    (let j : HJob := { id := 1, cmd := hconv, src := (0, fp32Ent 1 2), dst := some (1, { fp32Ent 1 2 with w3 := 1 }) }
     let s := setHatch 0 0 (some j) upTen;
      getHatch s 0 0 = some j ∧ hatchReady s j = true ∧ j.dst = some (1, { fp32Ent 1 2 with w3 := 1 }) ∧
      ({ fp32Ent 1 2 with w3 := 1 } : Entry).placed) ∧
    (let j : HJob := { id := 1, cmd := hstat, src := (0, ringEnt) }
     let s := setHatch 0 0 (some j) upTen;
      getHatch s 0 0 = some j ∧ hatchReady s j = false) := by unfold Entry.placed; decide +kernel

/-- DrainLanes: an empty lane, a pair whose destination's slots are ready, and one whose ring slot is FULL. -/
theorem witness_DrainLanes :
    let p (e : Entry) : DPair :=
      { id := 1, first := true, last := true, auto := false, name := 0, ent := e, col := 0, ufl := false, rows := [(0, [.num false 1])] }
    let s (e : Entry) := setSlot 0 0 true (setLane 0 { offer := some (p e) } up)
    (getLane up 0).offer = none ∧ (getLane (s (fp32Ent 1 2)) 0).offer = some (p (fp32Ent 1 2)) ∧
    (p (fp32Ent 1 2)).rows.all (fun r => rowsReady (s (fp32Ent 1 2)) 0 (fp32Ent 1 2) r.1 1 true) = true ∧ (fp32Ent 1 2).placed ∧
    (getLane (s ringEnt) 0).offer = some (p ringEnt) ∧
    (p ringEnt).rows.all (fun r => rowsReady (s ringEnt) 0 ringEnt r.1 1 true) = false := by unfold Entry.placed; decide +kernel

/-- A CPT of one row of two elements, as a command and at work with a number of source lines. -/
def cpt12 : PCmd := pc 1 [0x1000 + 2 ^ 24 + 2 ^ 34, 0, 0x3F80000000000000, 0, 0]
def cptAt (src dst : Entry) (ls : List (List DVal)) : State :=
  setCpt 0 0 [{ id := 1, cmd := cpt12, src := (0, src), dst := (1, dst), lines := ls }] up

/-- CounterproofCommands: a command that meets R140 and one that does not, an engine that can write, one that can only read, and
one that can do neither. -/
theorem witness_CounterproofCommands :
    (let s := setEnt 1 { fp32Ent 2 1 with w3 := 1 } (setEnt 0 (fp32Ent 1 2) up)
     let e := fun n => entryOf (s.issued (.cpt 0 0) cpt12) (s.issuedCmd (.cpt 0 0) cpt12) n;
      issues s (.cpt 0 0) cpt12 = true ∧ 1 ≤ cptR cpt12 ∧ cptR cpt12 ≤ 256 ∧ 1 ≤ cptC cpt12 ∧ cptC cpt12 ≤ 256 ∧
      goodMult (BitVec.ofNat 32 (fld (cpt12.w 2) 32 32)) = true ∧ srcReserved 0 (e 0) (cptSrc cpt12) = false ∧
      dstReserved 0 (e 1) (cptDst cpt12) (cpt12.w 3) = false ∧
      spansMeet (areaSpans 0 (e 0) (cptSrc cpt12)) (areaSpans 1 (e 1) (cptDst cpt12)) = false) ∧
    (issues up (.cpt 0 0) (pc 1 [0, 0, 0, 0, 0]) = true ∧ ¬ 1 ≤ cptR (pc 1 [0, 0, 0, 0, 0]) ∧ getCpt up 0 0 = []) ∧
    (let s := cptAt (fp32Ent 1 2) (fp32Ent 2 1) [[.num false 1, .num false 2]];
      ∀ j ∈ getCpt s 0 0, cptR j.cmd ≤ j.lines.length ∧
        rowsReady s j.dst.1 j.dst.2 ((cptDst j.cmd).row + j.outs) 1 true = true ∧ j.dst.2.placed) ∧
    (∀ src ∈ [fp32Ent 1 2, ringEnt], let s := cptAt src (fp32Ent 2 1) [];
      ∀ j ∈ getCpt s 0 0, ¬ cptR j.cmd ≤ j.lines.length ∧
        (((getCpt s 0 0).take 2).find? fun k => decide (k.lines.length < cptR k.cmd)) = some j ∧
        (rowsReady s j.src.1 j.src.2 ((cptSrc j.cmd).row + j.lines.length) 1 false = true ↔ src = fp32Ent 1 2)) := by
  unfold Entry.placed; decide +kernel

/-- An explicit drain of an entry of bank 0 to the vector engine (or, spec 0, to the Hatch). -/
def vdrain (spec : Nat) : DrainJob := { id := 1, auto := false, bank := 0, first := 0, count := 1, spec := BitVec.ofNat 64 spec, mult := 0x3F800000 }

/-- An array with drains, whose bank 0 has a record of one column (or none). -/
def drainAt (ds : List DrainJob) (r : Option BankRec) : State := arrAt { drains := ds, bank0 := { record := r } }
def rec1 : BankRec := { wide := true, base := 0, scale := 1, cols := 1 }

/-- DrainReads: nothing due and a drain due; no drain; a drain that may not start behind an earlier pass; drains that the
bank's record lets start, to the Hatch and to the vector engine, their way free and taken; one that it refuses. -/
theorem witness_DrainReads :
    (∀ j ∈ (getArr up 0).passes, j.due = []) ∧
    (let v : DueDrain := { bank := 0, row0 := 0, count := 1 }
     let j : PassJob := { ringPass with due := [v] };
      ((getArr (arrAt { passes := [j] }) 0).passes.find? fun j => !j.due.isEmpty) = some j ∧ j.due = [v]) ∧
    (getArr up 0).drains = [] ∧
    (let s := arrAt { drains := [{ vdrain 1 with id := 2 }], passes := [rowPass] };
      (getArr s 0).drains ≠ [] ∧ headDrain (getArr s 0) = none) ∧
    (∀ k ∈ [0, 1], let s := drainAt [vdrain k] (some rec1);
      headDrain (getArr s 0) = some (vdrain k) ∧ (getBank (getArr s 0) 0).record = some rec1 ∧
      drainReserved (getBank (getArr s 0) 0) (vdrain 1) = false ∧ (specDest (vdrain k).spec = 0 ↔ k = 0) ∧
      (getLane s 0).offer = none ∧ (getVec s 0).queue.length < 4) ∧
    (let s := setVec 0 { queue := List.replicate 4 { exact := false, f := [], x := [] } } (drainAt [vdrain 1] (some rec1));
      4 ≤ (getVec s 0).queue.length ∧ headDrain (getArr s 0) = some (vdrain 1)) ∧
    (let s := setLane 0 { offer := some { id := 1, first := true, last := true, auto := false, name := 0, ent := {}, col := 0, ufl := false, rows := [] } }
        (drainAt [{ vdrain 0 with dest := some (0, fp32Ent 1 1) }] (some rec1));
      (getLane s 0).offer.isSome = true ∧ (headDrain (getArr s 0)).isSome = true ∧
      drainReserved (getBank (getArr s 0) 0) { vdrain 0 with dest := some (0, fp32Ent 1 1) } = false) ∧
    (let f : Flight := { id := 1, eng := .array 0, client := 0, win := { ix := 0, off := 0, cmd := pc 4 [0, 1], names := [], bank := 0 } }
     let s0 := drainAt [vdrain 1] none
     let s := { s0 with plates := { s0.plates with flights := [f] } };
      headDrain (getArr s 0) = some (vdrain 1) ∧ drainReserved (getBank (getArr s 0) 0) (vdrain 1) = true ∧
      findFlight s 1 = some f ∧ hdrReserved f.eng f.win.cmd = false) := by decide +kernel

/-- A DMADESC (FILL 2, COPY 1, COMPARE 3) of one unit of 8 bytes from handle 0 to handle 1. -/
def dmaCmd (op : Nat) : PCmd := pc 1 [op + 2 ^ 22, 0, 0, 1, 0x55]
def ddesc (op : Nat) : DDesc :=
  { id := 1, mark := false, w0 := BitVec.ofNat 64 (op + 2 ^ 22), w3 := 1, w4 := 0x55, src := bufEnt 64, dst := { bufEnt 64 with w3 := 1 } }
def dmaAt (q : DmaQ) : State := setDma (dmaKey 0 0 0) q upFop

/-- DmaQueues: descriptors of the three operations, one without units, marks at their bounds and beyond them, a descriptor
that is done, and one that is not. -/
theorem witness_DmaQueues :
    (∀ op ∈ [1, 2, 3], let s1 := upFop.issued (.dma 0 0) (dmaCmd op);
      issues upFop (.dma 0 0) (dmaCmd op) = true ∧ dmaReserved s1 0 0 0 (ddesc op) = false ∧
      dmaReserved s1 0 0 0 { ddesc op with w3 := 0 } = true) ∧
    (∀ x ∈ [(64, 63), (1, 0)], let c := pc 2 [8 * x.1 + 1024 * x.2];
      issues up (.dma 0 0) c = true ∧ fld (c.w 0) 3 7 = x.1 ∧ fld (c.w 0) 10 7 = x.2) ∧
    issues up (.dma 0 0) (pc 2 [0]) = true ∧
    (∀ n ∈ [0, 1], let x : DDesc := { ddesc 3 with nWritten := n };
      (getDma (dmaAt { descs := [x] }) (dmaKey 0 0 0)).descs = [x] ∧ (descDone (dmaAt { descs := [x] }) x = true ↔ n = 1)) ∧
    (getDma up (dmaKey 0 0 0)).descs = [] := by decide +kernel

/-- A DMA queue with a descriptor and n bytes staged. -/
def dmaQ (x : DDesc) (n : Nat) : DmaQ := { descs := [x], staged := if n = 0 then [] else [(1, List.replicate n 0, false)], burst := decide (n ≠ 0) }

/-- DmaWork: a reader whose units fit in the staging buffer, and one whose units do not; FILL, and a COPY whose source is ready
or not; a local writer that bursts and one that does not; remote ones, of a closed slot and of the best-effort path; and units that can be written and
compared. -/
theorem witness_DmaWork :
    (getDma up 0).reader = none ∧ (getDma up 0).writer = none ∧
    (∀ op ∈ [1, 2], ∀ n ∈ [56, 57], let x := ddesc op
      let y : DmaQ := { descs := [x], staged := List.replicate 1023 (2, List.replicate 64 0, false) ++ [(2, List.replicate n 0, false)] };
      y.reader = some x ∧ (y.fill + min (256 / x.unit) (x.count - x.nRead) * x.unit ≤ 65536 ↔ n = 56)) ∧
    (let x : DDesc := ddesc 1;
      readReady (dmaAt (dmaQ x 0)) x.sname x.src (x.sAt 0) 8 = true ∧
      readReady (dmaAt (dmaQ x 0)) x.sname { ringEnt with w3 := 0 } (x.sAt 0) 8 = false) ∧
    (∀ n ∈ [0, 8], let x : DDesc := { ddesc 1 with nRead := n / 8 };
      (dmaQ x n).writer = some x ∧ x.remote = false ∧ (bursting (dmaAt (dmaQ x n)) 0 (dmaQ x n) x = true ↔ n = 8)) ∧
    (let x : DDesc := { ddesc 1 with w0 := 1 + 2 ^ 9 };
      x.remote = true ∧ x.best = false ∧ slotLive up 0 x.slot = false ∧ bursting (dmaAt (dmaQ x 0)) 0 (dmaQ x 0) x = false) ∧
    (let x : DDesc := { ddesc 1 with w0 := 1 + 2 ^ 9, w3 := BitVec.ofNat 64 (1 + 0xFFFF * 2 ^ 32) };
      x.remote = true ∧ x.best = true ∧ bursting (dmaAt (dmaQ x 64)) 0 (dmaQ x 64) x = true) ∧
    (let x : DDesc := ddesc 3;
      x.op = 3 ∧ readReady upFop x.dname x.dst (x.dAt 0) 8 = true ∧
      anyPoison (upFop.bytesOf x.dst (x.dname / 4096) (x.dAt 0) 8) = false) ∧
    (let x : DDesc := ddesc 1;
      x.op ≠ 3 ∧ x.dname / 4096 = 0 ∧ x.dst.placed ∧ writeReady upFop x.dname x.dst (x.dAt 0) 8 = true) := by
  unfold Entry.placed; refine ⟨?_, ?_, ?_, ?_, ?_, ?_, ?_, ?_, ?_⟩ <;> decide +kernel

/-- SARM of one record of handle 0 on stream 0, with a page; SREARM of the same; what SREARM inherits. -/
def sarm (pages : Nat) : PCmd := pc 1 [pages * 2 ^ 32, 0, 2 * 2 ^ 16, 1, 0]
def srearm : PCmd := pc 2 [0, 2 ^ 32, 0]
def armed0 : Armed := ⟨BitVec.ofNat 64 (2 ^ 32), 0, 2 * 2 ^ 16, 1, 0, 0⟩

/-- The module with stream 0 of tile 0. -/
def strAt (st : Strm) : State := setStr 0 { strms := [(0, st)] } upTen

/-- StreamCommands: SARM taken, held and refused; SREARM without an armed stream, taken, held, and of another format; SMODE
with a mode of 3 and without; SRESET free and held; a reset to take effect, and one that a command holds back; a queued
descriptor with its pages and without; a descriptor that has ended, and one that has not. -/
theorem witness_StreamCommands :
    (∀ c ∈ [sarm 1, sarm 0, pc 3 [0xAAAA], pc 3 [3], pc 4 [0]], issues upTen (.stream 0) c = true) ∧
    (∀ k ∈ [0, 1], let d := mkDesc (upTen.issued (.stream 0) (sarm k)) 0 (upTen.issuedCmd (.stream 0) (sarm k)) 1 0 (sarmWords (sarm k));
      armHold upTen 0 0 k 0 = none ∧ (descReserved 0 0 d = false ↔ k = 1)) ∧
    (armHold (strAt { fault := 1 }) 0 0 1 0 = some 0x02 ∧
      armHold (strAt { active := some { desc (BitVec.ofNat 64 (256 * 2 ^ 32)) with paged := true } }) 0 0 1 2 = some 0x0E ∧
      issues (strAt { fault := 1 }) (.stream 0) (sarm 1) = true) ∧
    (issues upTen (.stream 0) srearm = true ∧ (getStrm (getStr upTen 0) 0).last = none ∧ armHold upTen 0 0 0 0 = none) ∧
    (∀ f ∈ [0, 1], let a0 := { armed0 with fmt := f }
      let s := strAt { last := some a0 }
      let a := srearmWords srearm a0
      let d := mkDesc (s.issued (.stream 0) srearm) 0 (s.issuedCmd (.stream 0) srearm) 1 0 a;
      issues s (.stream 0) srearm = true ∧ (getStrm (getStr s 0) 0).last = some a0 ∧ armHold s 0 0 (fld a0.w0 32 9) 0 = none ∧
      (descReserved 0 0 d = false ∧ d.ent.fmtWord = a.fmt ↔ f = 0)) ∧
    ((∀ g, g < 8 → fld ((pc 3 [0xAAAA]).w 0) (2 * g) 2 ≠ 3) ∧ ∃ g, g < 8 ∧ fld ((pc 3 [3]).w 0) (2 * g) 2 = 3) ∧
    ((getStrm (getStr (strAt { reset := some 1 }) 0) 0).reset = some 1 ∧ streamNamed (strAt { reset := some 1 }) 0 0 = false ∧
      (let f : Flight := { id := 2, eng := .array 0, client := 0, win := { ix := 0, off := 0, cmd := pc 2 [0], names := [], bank := 0 } };
        streamNamed { strAt { reset := some 1 } with plates := { upTen.plates with flights := [f] } } 0 0 = true)) ∧
    (∀ k ∈ [256, 257], let q := desc (BitVec.ofNat 64 (k * 2 ^ 32))
      let s := strAt { queued := some q };
      (getStrm (getStr s 0) 0).active = none ∧ (getStrm (getStr s 0) 0).queued = some q ∧ q.paged = false ∧
      (pagesFree (getStr s 0) q.pages = true ↔ k = 256)) ∧
    (∀ n ∈ [1, 2], (descEnded { desc 0 with taken := n } = true ↔ n = 2)) := by decide +kernel

/-- A stream with a request in flight for its record. -/
def strReq (ent : Entry) (id : Nat) : State :=
  setStr 0 { strms := [(0, { active := some { desc (2 ^ 32) with ent := ent, recs := [{ i := 0, want := 1 }], nRec := 1, paged := true } })],
             reqs := [{ strm := 0, id := id, kind := .data 0 0 }] } upTen

/-- StreamWork: a rated stream and a background one, and none; a request whose data may return, one that a slot holds, one
whose descriptor is gone; a consuming read that ends a run, and one whose slot is EMPTY; an output line granted or not, its slot EMPTY or not. -/
theorem witness_StreamWork :
    ((pickStream { strms := [(0, { active := some { desc (2 ^ 32) with paged := true } }),
        (1, { active := some { desc (2 ^ 32 + 2 ^ 41) with paged := true, id := 2 } })] } = some (1, some 0)) ∧ pickStream {} = none) ∧
    (∀ x ∈ [(fp32Ent 1 2, 1), (fp32Ent 1 2, 2), (ringEnt, 1)], let s := strReq x.1 x.2
      let r : Req := { strm := 0, id := x.2, kind := .data 0 0 };
      (getStr s 0).reqs[0]? = some r ∧ (getStr s 0).reqs[1]? = none ∧ ((reqDesc (getStr s 0) r).isSome = true ↔ x.2 = 1) ∧
      (let b := reqRead 0 { desc (2 ^ 32) with ent := x.1 } r.kind;
        (readReady s b.1 b.2.1 b.2.2.1 b.2.2.2 = true ↔ x.1 = fp32Ent 1 2))) ∧
    (let d : Desc := { desc (2 ^ 10) with ent := ringEnt, recs := [{ i := 0, want := 1, parts := [(0, [])] }], nRec := 1 }
     let s := setSlot 0 0 true (strAt { active := some d });
      (getStrm (getStr s 0) 0).active = some d ∧ d.consume = true ∧ d.ent.slots ≠ 0 ∧ skipRowless d = d ∧ recRow d d.nCons = some (.row 0) ∧
      runEnd d d.nCons = some 1 ∧ returnedTo d 1 = true ∧ scalesReturned (getStr s 0) d 1 = true ∧
      slotFull s d.name (slotOfRow d 0) = true ∧ slotFull (strAt { active := some d }) d.name (slotOfRow d 0) = false) ∧
    (∀ g ∈ [0, 1], let d : Desc := { desc 0x40 with out := [{ i := 0, off := 0, bytes := [1], last := true }], granted := g }
      let s := strAt { active := some d };
      (getStrm (getStr s 0) 0).fault = 0 ∧ d.dir = 1 ∧ (0 < d.granted ↔ g = 1) ∧ writeReady s d.name d.ent 0 1 = true ∧
      writeReady (setSlot 0 0 true s) d.name ringEnt 0 1 = false ∧ d.name / 4096 = 0) := by decide +kernel

/-- StreamWatchdog: nothing blocked, a client that is not on the die, and an access that a slot blocks. -/
theorem witness_StreamWatchdog :
    ((∀ t ∈ tilesOf 0, blockedStreams up t = []) ∧ slotBlockedEngine up 0 = false) ∧ hasDie (getClient up 1) 0 = false ∧
    (let s := { up with cat := { up.cat with waiters := [{ name := 0, slot := 0, write := false, acc := acc8, data := [] }] } };
      ¬ ((watchdogHeld s 0 0 = true ∨ hasDie (getClient s 0) 0 = false) ∨
        (∀ t ∈ tilesOf 0, blockedStreams s t = []) ∧ slotBlockedEngine s 0 = false)) := by decide +kernel

/-- Words written to memory from an address on. -/
def putWords (a : Nat) (ws : List Nat) (s : State) : State :=
  { s with mem := s.mem.setBytes a (ws.flatMap fun w => leBytes 8 w) }

/-- A client with a governor table in a stack buffer, handle 0: one layer, enabled, on die 0, its state at offset 512. -/
def upGov (st : StepSt) (state : Nat) : State :=
  putWords 512 [state] (putWords 64 [0x10000, 0, 0, 0, 2 ^ 11] (putWords 0 [1, 0, 0, 0, 512]
    (setEnt 0 { bufEnt 4096 with w0 := 2 } (setClient 0 { cl0 with step := some st, set := some { gov := some 0 } } up))))

/-- Governor: a die to latch, a vote to settle, an end of step whose votes are settled; and a client without a table. -/
theorem witness_Governor :
    (let s := upGov { idx := 0 } 0;
      (getClient s 0).step = some { idx := 0 } ∧ govOf s 0 = some 0 ∧ 0 < govNL s 0 ∧ (layerMDies s 0 0).testBit 0 = true ∧
      layerMtCnt s 0 0 ≤ tokens s 0 16 (layerMtReg s 0 0)) ∧
    (let s := upGov { idx := 0, ctl := [(0, { down := true })] } 0
     let ctl : Ctl := mget {} [(0, { down := true })] (layerVSlot s 0 0);
      0 < govNL s 0 ∧ ctl.down = true ∧ bit (layerState s 0 0 0) 2 = false) ∧
    (let s := upGov { idx := 0 } 4;
      ∀ l, l < govNL s 0 → bit (layerState s 0 l 0) 2 = true) ∧ govOf up 0 = none := by decide +kernel

/-- The module with port 0 in a state. -/
def upPort (st : Nat) (x : Port) : State :=
  setReg (portStatus 0) (BitVec.ofNat 64 st) { up with fabric := { up.fabric with ports := [(0, x)] } }

/-- A flit of link control, with its CRC; and one whose CRC is wrong. -/
def flit3 (seq ack : Nat) : FlitIn :=
  let h := leBytes 10 (3 + 16 * seq + 2 ^ 16 * ack) ++ List.replicate 242 0
  ⟨h ++ leBytes 4 (crc32 h).toNat, false⟩
def badFlit : FlitIn := ⟨[8], true⟩

theorem crc_good (h : List Byte) (n : h.length = 252) : flitGood ⟨h ++ leBytes 4 (crc32 h).toNat, false⟩ = true := by
  simp only [flitGood, ← n, List.drop_left, List.take_left, leNat_leBytes, List.length_append, length_leBytes, Bool.not_false,
    Bool.true_and, Bool.and_eq_true, decide_eq_true_eq]
  exact ⟨by rw [n], Nat.mod_eq_of_lt (BitVec.isLt _)⟩

theorem flit3_good (seq ack : Nat) : flitGood (flit3 seq ack) = true :=
  crc_good _ (by rw [List.length_append, length_leBytes, List.length_replicate])

/-- Flits: each place a flit to send is taken from, and none; flits received that fail, are next, ahead, or dropped; the third
recovery within 1 s, and the second. -/
theorem witness_Flits :
    (∀ st ∈ [0, 2, 3, 4], portState (upPort st {}) 0 = st) ∧
    (let f : Flit := { ftype := 3 }
     let x : Port := { resend := some 0, replay := [f] };
      (x.resend.bind fun q => x.replay.find? fun f => decide (f.seq = q)) = some f) ∧
    (getPort (upPort 2 { again := [{ ftype := 3 }] }) 0).again = [{ ftype := 3 }] ∧
    (∀ n ∈ [4094, 4095], (4095 ≤ (getPort (upPort 2 { since := n }) 0).since ↔ n = 4095)) ∧
    (∀ n ∈ [511, 512], (512 ≤ (getPort (upPort 2 { replay := List.replicate n { ftype := 3 } }) 0).replay.length ↔ n = 512)) ∧
    (getPort (upPort 2 { ctl := [(1, 0)] }) 0).ctl ≠ [] ∧
    (let f : Flit := { ftype := 1, slot := 5 }
     let s := setClient 0 { cl0 with step := some { idx := 0, opened := [5] } } (upPort 2 { tt := [f] });
      (getPort s 0).tt.find? (fun f => slotLive s f.client f.slot && !aborted s f.client) = some f) ∧
    (getPort (upPort 2 { be := [{ ftype := 2 }] }) 0).be = [{ ftype := 2 }] ∧
    (flitGood badFlit = false ∧ flitGood (flit3 0 4095) = true ∧ flitGood (flit3 512 0) = true ∧ flitGood (flit3 513 0) = true ∧
      (flitOf (flit3 0 4095).bytes).ftype ≠ 0 ∧
      seqSub (flitOf (flit3 0 4095).bytes).seq 0 = 0 ∧ seqSub (flitOf (flit3 512 0).bytes).seq 0 = 512 ∧
      512 < seqSub (flitOf (flit3 513 0).bytes).seq 0) ∧
    (leNat (badFlit.bytes.take 10)).testBit 3 = true ∧
    (∀ l ∈ [[0], [0, 0]], (2 ≤ (l.filter fun t => decide ((upPort 2 { recovs := l }).tick < t + 1000000)).length ↔ l = [0, 0])) := by
  refine ⟨?_, ?_, ?_, ?_, ?_, ?_, ?_, ?_, ⟨?_, flit3_good _ _, flit3_good _ _, flit3_good _ _, ?_⟩, ?_, ?_⟩ <;> decide +kernel

/-- A client with a timetable share of one slot (kind, port, start, window, flits, second word besides), LEAD 10, a step of
1,000 ticks, at a plan tick; child port 0, and the parent port given. -/
def upTT (kind window flits parent tick : Nat) (st : StepSt) (arch : ArchSt) : State :=
  { setClient 0 { cl0 with
      step := some st
      arch := arch
      run := some { q := 0, cmdid := 0, notify := false, start := 0, left := 1, idx := 0 }
      set := some { tt := [BitVec.ofNat 64 (1 + 2 ^ 16 * 1000), BitVec.ofNat 64 (parent + 2 ^ 32), 10, 0, 0, 0, 0, 0,
        BitVec.ofNat 64 (kind + 2 ^ 24 * window), BitVec.ofNat 64 (flits + 2 ^ 16 * 2)] } } up with tick := tick }

/-- TimetableSlots: send and control slots to open, late at their checkpoint for each cause (1 with its flits in recovery), a window
that ends (of a send slot, of the closing slot), and a step boundary for which the governor or a capture is late. -/
theorem witness_TimetableSlots :
    (∀ kind ∈ [0, 1, 2, 3], let s := upTT kind 20 1 0 0 { idx := 0 } {}
      let e := (shareOf s 0).slot 0;
      e.kind = kind ∧ slotBegun s 0 0 = true ∧ unlocked s = false ∧ portState s (portFor s e.port) ≠ 4 ∧ portKept s 0 0 = false) ∧
    (∀ kind ∈ [0, 3], let s := upTT kind 20 5000 0 10 { idx := 0 } {}
      let e := (shareOf s 0).slot 0
      let left := remaining s 0 (slotEnd s 0 0);
      slotBegun s 0 0 = true ∧ left = 10 ∧ (shareOf s 0).lead = 10 ∧ e.kind = kind ∧ 412 * (left - 2) < unsentFlits s 0 0 ∧
      (getCtl s 0 0).own = false) ∧
    (let s0 := upTT 0 20 1 0 10 { idx := 0 } {}
     let s := setReg (portStatus 0) 3 { s0 with fabric := { s0.fabric with ports := [(0, { replay := [{ ftype := 1 }] })] } };
      ¬ 412 * (remaining s 0 (slotEnd s 0 0) - 2) < unsentFlits s 0 0 ∧ inRecovery s 0 0 = true) ∧
    (∀ kind ∈ [0, 3], let s := upTT kind 20 1 0 20 { idx := 0 } {};
      slotBegun s 0 0 = true ∧ ((shareOf s 0).slot 0).stop ≤ stepTick s 0 ∧ (isClosing s 0 0 = true ↔ kind = 3)) ∧
    (let s := upTT 3 20 1 0 990 { idx := 0 } { due := true };
      remaining s 0 1000 = 10 ∧ boundaryLate s 0 = true) := by decide +kernel

/-- TimetableRecords: a transfer received whole; children heard and not, records that have gone up; combined records at the root and
below it. (Of REFUSAL_MESSAGE, which slot and client the message names is open, log 4: no concrete state can be shown to meet its hypothesis.) -/
theorem witness_TimetableRecords :
    (let s0 := upTT 1 20 1 0 0 { idx := 0 } {}
     let s := { s0 with fabric := { s0.fabric with rx := [{ slot := 0, client := 0, next := 1 }] } };
      (s.fabric.rx.find? fun x => decide (x.slot = 0) && decide (x.client = 0)) = some { slot := 0, client := 0, next := 1 } ∧
      ((shareOf s 0).slot 0).kind = 1 ∧ ((shareOf s 0).slot 0).flits ≤ 1 ∧ recKind [] ≠ 1 ∧ s.cat.waiters = []) ∧
    (∀ n ∈ [0, 1], let s := upTT 3 20 1 0 0 { idx := 0, ctl := [(0, { kids := n })] } {};
      isSlot s 0 0 = true ∧ ((shareOf s 0).slot 0).kind = 3 ∧ (getCtl s 0 0).up = false ∧
      ((getCtl s 0 0).kids < (childPorts s 0).length ↔ n = 0)) ∧
    (∀ parent ∈ [0, 63], let s := upTT 3 20 1 parent 0 { idx := 0, ctl := [(0, { up := true })] } {};
      isSlot s 0 0 = true ∧ (getCtl s 0 0).down = false ∧ ((shareOf s 0).cparent = 63 ↔ parent = 63) ∧ (getCtl s 0 0).up = true ∧
      (getClient s 0).step ≠ none) := by decide +kernel

/-- A module of a ring of 4 along the first dimension, with packets. -/
def upRing (ps : List Packet) (x : Port) (st : Nat) : State :=
  let s := setDict (dkey 0x5000 3) 4 { up with fabric := { up.fabric with packets := ps, ports := [(6, x)] } }
  setReg (portStatus 6) (BitVec.ofNat 64 st) s

/-- Ports: a lane to swap in a gap of the port and outside one; a failed port with a standby spare; packets that have arrived, that wait
behind another, that can go by port 6, within its bounds of credit, and that cannot. -/
theorem witness_Ports :
    (fld (getReg up (portStatus 0)) 3 3 = 4 ∧ portGap up 0 = true ∧ portGap (upTT 0 20 1 0 0 { idx := 0, opened := [0] } {}) 0 = false) ∧
    (let s := setDict (dkey 0x5000 0x0D) 1 (setReg (portStatus 7) 5 (setReg (portStatus 0) 4
        (setClient 0 { cl0 with step := none } up)));
      getDict s (dkey 0x8000 0x04) ≠ 0 ∧ standbyFor s 0 = some 7 ∧ portState s 0 = 4 ∧
      ∀ c ∈ clientsOnPort s 0, (getClient s c).step = none) ∧
    (let w : Packet := { dmod := 1, smod := 0, bytes := [1], client := 0 }
     let u : Packet := { w with dmod := 0 };
      nextHop (upRing [u] {} 2) u = none ∧ (upRing [w, w] {} 2).fabric.packets[1]? = some w ∧
      (∃ y ∈ (upRing [w, w] {} 2).fabric.packets.take 1, y.smod = w.smod ∧ y.dmod = w.dmod)) ∧
    (let w : Packet := { dmod := 1, smod := 0, bytes := [1], client := 0 };
      nextHop (upRing [w] {} 2) w = some (0, false, false, 6) ∧ portFor (upRing [w] {} 2) 6 = 6 ∧ portState (upRing [w] {} 2) 6 = 2 ∧
      (packetFlits w 0).length ≤ (getPort (upRing [w] { cred0 := 1 } 2) 6).cred0 ∧
      ¬ (packetFlits w 0).length ≤ (getPort (upRing [w] { cred0 := 0 } 2) 6).cred0) := by decide +kernel

/-- A narrow tensor, E4M3 of one row of 16, as handle 0. -/
def e4Ent : Entry := { w0 := 0x301, w1 := BitVec.ofNat 64 (2 ^ 32 + 0x3F800000), w2 := 16, w4 := 64, w5 := 32 }

/-- The module with it and a timetable of a send slot of one flit of the collective engine, or of a control slot of 5 positions. -/
def upColl (kind : Nat) (st : StepSt) : State := setEnt 0 e4Ent (upTT kind 20 (if kind = 0 then 1 else 5) 0 0 st {})

def cctxRed : PCmd := pc 1 [2 ^ 16 + 3 * 2 ^ 33, 0x3F800000 + 2 ^ 32 + 16 * 2 ^ 44, 0, 1 + 2 ^ 32]
def cctxPlace : PCmd := pc 1 [2 ^ 16 + 2 * 2 ^ 29 + 3 * 2 ^ 33, 2 ^ 26 + 16 * 2 ^ 38, 0, 1 + 2 ^ 32]
def csend : PCmd := pc 2 [2 ^ 16, 0, 1 + 16 * 2 ^ 32, 0, 0, 0]

/-- CollectiveCommands: CCTX of a reduce and of a place context, CSEND, CGATE and CCOMMIT that are not reserved; each of them
reserved (an empty range; no operation; no control slot); 64 sends in progress; a gate whose slot's records are there or not. -/
theorem witness_CollectiveCommands :
    (∀ c ∈ [cctxRed, cctxPlace, pc 1 [0, 0, 0, 0], csend, pc 2 [0, 0, 0, 0, 0, 0], pc 3 [0], pc 4 [3 * 2 ^ 16, 100], pc 4 [0, 0]],
      issues (upColl 0 { idx := 0 }) (.coll 0) c = true ∧ issues (upColl 3 { idx := 0 }) (.coll 0) c = true) ∧
    (let r := fun c => cctxReserved ((upColl 0 { idx := 0 }).issued (.coll 0) c) 0 0 c;
      r cctxRed = false ∧ r cctxPlace = false ∧ r (pc 1 [0, 0, 0, 0]) = true) ∧
    (let r := fun c => let s := upColl 0 { idx := 0 }
      csReserved (s.issued (.coll 0) c) 0 0 ((s.issuedCmd (.coll 0) c).ent (csName 0 c)) c;
      r csend = false ∧ r (pc 2 [0, 0, 0, 0, 0, 0]) = true) ∧
    (∀ n ∈ [63, 64], let f : Flight := { id := 99, eng := .coll 0, client := 0, win := { ix := 0, off := 0, cmd := csend, names := [], bank := 0 } }
      let s0 := upColl 0 { idx := 0 }
      let s := { s0 with plates := { s0.plates with flights := List.replicate n f } };
      issues s (.coll 0) csend = true ∧ (64 ≤ (flightsOf s (.coll 0)).countP (fun f => decide (f.win.cmd.opc = 2)) ↔ n = 64)) ∧
    (∀ kind ∈ [0, 3], let s := upColl kind { idx := 0 };
      (cgateReserved (s.issued (.coll 0) (pc 3 [0])) 0 0 (pc 3 [0]) = false ↔ kind = 3) ∧
      (ccommitReserved (s.issued (.coll 0) (pc 4 [3 * 2 ^ 16, 100])) 0 (pc 4 [3 * 2 ^ 16, 100]) = false ↔ kind = 3)) ∧
    (∀ down ∈ [false, true], ∃ st, (getClient (upColl 3 { idx := 0, ctl := [(0, { down := down })] }) 0).step = some st ∧
      (mget {} st.ctl 0).down = down) := by
  refine ⟨by decide +kernel, by decide +kernel, by decide +kernel, by decide +kernel, by decide +kernel, fun down h => ?_⟩
  simp only [List.mem_cons, List.not_mem_nil, or_false] at h
  obtain rfl | rfl := h <;> exact ⟨_, rfl, rfl⟩

/-- A transfer of an operation with a payload, of E4M3 elements, to context 0. -/
def xfer (cop : Nat) (pay : List Byte) : List Byte := leBytes 8 (4 * cop + 3 * 2 ^ 52) ++ leBytes 8 0x3F800000 ++ pay

/-- The module with context 0: reduce or place, bound or not, of 16 E4M3 elements, expecting one transfer. -/
def upCtx (w0 : Nat) : State :=
  setCtx 0 { w0 := BitVec.ofNat 64 (w0 + 3 * 2 ^ 28), w1 := if w0 / 8 % 8 = 2 then BitVec.ofNat 64 (3 * 2 ^ 24 + 2 ^ 26) else 0x3F800000,
             w2 := BitVec.ofNat 64 (if w0 / 8 % 8 = 2 then 0 else 16 * 2 ^ 48), w3 := BitVec.ofNat 64 (1 + 16 * 2 ^ 24) } (setEnt 0 e4Ent up)

/-- CollectiveArrivals, reduce transfers: no context armed, one that is not bound, one that is. -/
theorem witness_CollectiveArrivals_reduce :
    let data := xfer 1 (List.replicate 24 0)
    let x := xferOf data
    let r := redElems x ((fmtOf (x.selem + 16 * x.sblk)).getD noFmt) 16
    let its (s : State) := covered s (fun _ => true) r.1.length 128 (ctxKey 0 x.cbase) 0
    x.spill = false ∧ copReduce x.cop = true ∧ r.1.length = 16 ∧ r.2.2.1 = [] ∧ r.2.2.2 = [] ∧
    firstFault up x ((its up).map (·.1)) = some (1, 0) ∧
    (∀ b ∈ [0, 1], let s := upCtx (1 + b * 2 ^ 27);
      its s = [(0, 0, 16)] ∧ firstFault s x [0] = none ∧ ((getCtx s 0).bound = true ↔ b = 1)) := by decide +kernel

/-- CollectiveArrivals, place transfers: no context armed; rows that are placed; a tag that names no row; an exact copy that
would have to be converted. -/
theorem witness_CollectiveArrivals_place :
    let s := upCtx 0x11
    let c := getCtx s 0
    let tag (n : Nat) := xferOf (xfer 6 (leBytes 8 n ++ List.replicate 24 0))
    (∀ cop ∈ [5, 6, 7, 8], copReduce cop = false ∧ (xferOf (xfer cop [])).cop = cop) ∧
    ctxFault (tag 0) (getCtx up 0) = some 1 ∧ ctxFault (tag 0) c = none ∧
    (placeRows (tag 0) c).length = 1 ∧ (∀ r ∈ placeRows (tag 0) c, placeRow (tag 0) c e4Ent r ≠ none) ∧
    (∃ r ∈ placeRows (tag 1) c, placeRow (tag 1) c e4Ent r = none) ∧
    sameBytes (xferOf (xfer 8 [])) c e4Ent = true ∧ sameBytes (xferOf (xfer 8 [])) c { e4Ent with w0 := 0x401 } = false ∧
    ctxFault (xferOf (xfer 8 [])) c ≠ some 1 := by decide +kernel

/-- CollectiveArrivals, spills and re-shards: a packet that is no spill, one that waits for its transfer, one whose transfer waits for it; a
wait that has run out; a decision to stop and one to go on. -/
theorem witness_CollectiveArrivals_spills :
    let x := xferOf (leBytes 8 (2 ^ 58) ++ leBytes 8 0 ++ leBytes 8 0)
    let s := { up with fabric := { up.fabric with spills := [{ ctx := 0, smod := 0, left := 1, since := 0 }] }, tick := 2000000 }
    (xferOf (xfer 1 [])).spill = false ∧ x.spill = true ∧ spillPieces (x.pay.length + 1) x.pay = [(0, 0, [])] ∧
    (∃ w ∈ s.fabric.spills, w.ctx = ctxKey 0 x.cbase + (0 * 16 + 0) / 512 ∧ w.smod = x.smod) ∧ up.fabric.spills = [] ∧
    (∃ w ∈ s.fabric.spills, w.ctx = ctxKey 0 0 ∧ (getDict s (dkey 0x5100 0x0E)).toNat < s.tick - w.since) ∧
    (∀ n ∈ [0, 1], let j : CommitJob := { id := 1, die := 0, cslot := 0, pos := 3, ctick := 10 }
      let st : StepSt := { idx := 0, commits := [j], ctl := [(0, { down := true, recs := [(3, [n, 0, 0, 0, 0, 0])] })] };
      (st.commits.filter fun j => decide (j.cslot = 0) && j.decided.isNone) = [j] ∧ (mget {} st.ctl 0).down = true ∧
      ((nth 0 (mget [] (mget {} st.ctl 0).recs j.pos) 0).testBit 0 = true ↔ n = 1)) := by decide +kernel

/-- The module in Edition with queue processing enabled, queue q of the clients and event queue 0 at work, registers as given, and a
fetched command. -/
def upHost (q : Nat) (regs : List (Nat × Nat)) (c : Client) (cmds : List HostCmd) : State :=
  let s := setClient 0 c { up with host := { up.host with fetched := cmds } }
  regs.foldl (fun s x => setReg x.1 (BitVec.ofNat 64 x.2) s)
    (setReg (sqReg q 0x18) 1 (setReg (eqReg 0 0x18) 1 (setReg (bar0 0) 1 s)))

/-- Event queue 0 with these contents. -/
def withEvQ (x : EvQ) (h : HostSt) (s : State) : State :=
  { s with host := { h with queues := [(0, x)], mem := s.host.mem, tails := s.host.tails } }

/-- HostQueues: a doorbell and a head inside the queue and beyond it; a record that is written, held, or cannot be written; a message that
is due by its count, by its urgency or by its time, masked or not; a pending vector. -/
theorem witness_HostQueues :
    (let s := upHost 0 [] cl0 [];
      queueOn s 0 (sqReg 0 0x18) = true ∧ queueSize s (sqReg 0 8) = 2 ∧ queueOn s 64 (sqReg 64 0x18) = false ∧
      queueOn s 128 (eqReg 0 0x18) = true ∧ queueSize s (eqReg 0 8) = 2 ∧ bit (getReg s (bar0 0)) 0 = true ∧
      hostOk s (sqEntry s 0 0) 64 = true) ∧
    (let v : Event := { code := 1, sev := 0 };
      (∀ x ∈ [({} : EvQ), { hold := [v] }, { head := 1 }],
        let s := withEvQ x { State.reset.host with posted := [(0, v)] } (upHost 0 [] cl0 []);
        s.host.posted = [(0, v)] ∧ ((getEvQ s 0).hold ≠ [] ∨ evqOpen s 0 = false ↔ x ≠ {}) ∧ hostOk s (evTail s 0) 32 = true) ∧
      (let s := withEvQ {} { State.reset.host with posted := [(0, v)], failHi := 64 } (upHost 0 [] cl0 []);
        (getEvQ s 0).hold = [] ∧ evqOpen s 0 = true ∧ hostOk s (evTail s 0) 32 = false)) ∧
    (∀ m ∈ [false, true], let s := withEvQ { unsig := 1, waits := m } { State.reset.host with unmasked := [(0, m)], pba := [(0, m)] } (upHost 0 [] cl0 []);
      (getEvQ s 0).unsig ≠ 0 ∧ fld (getReg s (eqReg 0 0x28)) 0 16 ≤ (getEvQ s 0).unsig ∧ mget false s.host.unmasked (evqVec s 0) = m ∧
      mget false s.host.pba 0 = m) := by decide +kernel

/-- A host command of an opcode: its further words. -/
def hc (q hop : Nat) (ws : List Nat) : HostCmd := { q := q, words := (hop :: ws).map (BitVec.ofNat 64) }

/-- Whether queue q serves its next command, as a test that evaluates. -/
def serves (s : State) (q hop : Nat) (h : HostCmd) : Bool :=
  decide (nextHost s q = some h) && decide (h.hop = hop) && decide (stageOf s = 2 ∨ stageOf s = 3) &&
    decide ((64 ≤ q ∧ 16 ≤ hop) ∨ (q < 64 ∧ hop < 16 ∧ (getClient s (queueClient q)).state ≠ 0 ∧
      (hop = 5 ∨ (getClient s (queueClient q)).state = 2 ∨ ((getClient s (queueClient q)).state = 1 ∧ inTurn s (queueClient q) = true))))

theorem serves_spec {s : State} {q hop : Nat} {h : HostCmd} (w : serves s q hop h = true) : HostServes s q hop h := by
  simp only [serves, Bool.and_eq_true, decide_eq_true_eq] at w
  exact ⟨w.1.1.1, w.1.1.2, w.1.2, w.2⟩

/-- A client with a plate set; with a run of another of its queues. -/
def clSet : Client := { cl0 with set := some { dir := [] } }
def clBusy : Client := { clSet with run := some { q := 1, cmdid := 0, notify := false, start := 0, left := 2, idx := 0 } }

/-- A module whose rotation is between slices, with an idle client 0. -/
def upTurn (c : Client) (cmds : List HostCmd) : State :=
  let s := upHost 0 [] { c with state := 1 } cmds
  { s with rot := { s.rot with len := 1, between := true } }

/-- HostCommands: each opcode outside Proof and Edition, in the wrong kind of queue, of no admitted client, and out of turn. -/
theorem witness_HostCommands_turned_away :
    ∀ hop ∈ [1, 2, 3, 4, 5, 16, 17, 6],
      nextHost (upHost 0 [] cl0 [hc 0 hop []]) 0 = some (hc 0 hop []) ∧ (hc 0 hop []).hop = hop ∧
      nextHost (upHost 64 [] cl0 [hc 64 hop []]) 64 = some (hc 64 hop []) ∧ (¬ ((64 : Nat) ≤ 64 ↔ 16 ≤ hop) ∨ ¬ ((64 : Nat) ≤ 0 ↔ 16 ≤ hop)) ∧
      (let s := setDict (dkey 0x2000 0x01) 1 (upHost 0 [] cl0 [hc 0 hop []]); nextHost s 0 = some (hc 0 hop []) ∧ stageOf s = 1) ∧
      nextHost (upHost 4 [] cl0 [hc 4 hop []]) 4 = some (hc 4 hop []) ∧ (getClient (upHost 4 [] cl0 []) (queueClient 4)).state = 0 ∧
      nextHost (upTurn cl0 [hc 0 hop []]) 0 = some (hc 0 hop []) ∧ inTurn (upTurn cl0 []) 0 = false := by decide +kernel

/-- HostCommands, RUN_STEPS: in a run; without a plate set; with a start that has passed; of no steps; with another seed than the client's; and one
that runs. -/
theorem witness_HostCommands_runSteps :
    (∀ c ∈ [clBusy, cl0, clSet, { clSet with seed := some 1 }, { clSet with seed := some 0 }],
      ∀ ws ∈ [[0, 0, 1, 0, 0], [0, 2, 0, 0, 0], [0, 2, 1, 0, 0]],
        HostServes (upHost 0 [] c [hc 0 2 ws]) 0 2 (hc 0 2 ws)) ∧
    (upHost 0 [] clSet []).tick = 0 ∧ clBusy.run ≠ none ∧ clSet.run = none ∧ cl0.set = none ∧ clSet.set ≠ none ∧
    fld ((hc 0 2 [0, 0, 1, 0, 0]).w 2) 0 40 = 0 ∧ fld ((hc 0 2 [0, 2, 1, 0, 0]).w 2) 0 40 = 2 ∧
    fld ((hc 0 2 [0, 2, 0, 0, 0]).w 3) 0 32 = 0 ∧ fld ((hc 0 2 [0, 2, 1, 0, 0]).w 3) 0 32 = 1 := by
  refine ⟨fun c hc0 ws hw => serves_spec ?_, by decide +kernel⟩
  revert c ws
  decide +kernel

/-- A COPY between host memory and buffer 0: in, out, of no bytes, beyond the buffer, host to host. -/
def copyIn8 : HostCmd := hc 0 5 [0x1000, 0, 8, 1]
def copyOut8 : HostCmd := hc 0 5 [0, 0x1000, 8, 2]

/-- HostCommands, COPY: refused, waiting, on a host bus that fails, and done, both ways. -/
theorem witness_HostCommands_copy :
    (∀ h ∈ [copyIn8, copyOut8, hc 0 5 [0, 0, 0, 1]],
      serves (setEnt 0 (bufEnt 64) (upHost 0 [] cl0 [h])) 0 5 h = true ∧ serves (setEnt 0 (bufEnt 64) (upTurn cl0 [h])) 0 5 h = true) ∧
    (∀ h ∈ [copyIn8, copyOut8], let s := setEnt 0 (bufEnt 64) (upHost 0 [] cl0 [h])
      let src := copySide (bit (h.w 4) 0) (h.w 1)
      let dst := copySide (bit (h.w 4) 1) (h.w 2)
      let x := if src.host then dst else src;
      src.host = !dst.host ∧ fld (h.w 3) 0 36 = 8 ∧ copySideBad s 0 8 src = false ∧ copySideBad s 0 8 dst = false ∧ sideWaits s 0 src = false ∧ sideWaits s 0 dst = false ∧
      readReady s x.name (getEnt s x.name) x.off 8 = true ∧ writeReady s x.name (getEnt s x.name) x.off 8 = true ∧
      hostOk s 0x1000 8 = true ∧ hostOk { s with host := { s.host with failHi := 0x2000 } } 0x1000 8 = false ∧
      copySideBad s 0 65 x = true ∧ sideWaits (setEnt 0 (bufEnt 64) (upTurn cl0 [h])) 0 x = true ∧ (getEnt s x.name).placed) ∧
    fld ((hc 0 5 [0, 0, 0, 1]).w 3) 0 36 = 0 := by unfold Entry.placed; decide +kernel

/-- HostCommands, ADMIT and EVICT: an admission refused and made; a client there and not. -/
theorem witness_HostCommands_admit :
    (∀ h ∈ [hc 64 16 [1 + 2 ^ 20, 0, 0, 0], hc 64 16 [0, 0, 0, 0], hc 64 16 [1 + 2 ^ 4 + 2 ^ 20, 0, 0, 0]], serves (upHost 64 [] cl0 [h]) 64 16 h = true) ∧
    (∀ h ∈ [hc 64 17 [0], hc 64 17 [1]], serves (upHost 64 [] cl0 [h]) 64 17 h = true) ∧
    (let s := upHost 64 [] { cl0 with dies := 14 } [];
      admitBad s 0 (admitted (hc 64 16 [0, 0, 0, 0])) 0 = true ∧ admitBad s 1 (admitted (hc 64 16 [1 + 2 ^ 4 + 2 ^ 20, 0, 0, 0])) 0 = false ∧
      getDict s (dkey 0x7000 0x02) = 0 ∧ (getClient s 0).state ≠ 0 ∧ (getClient s 1).state = 0) := by decide +kernel

/-- A plate set's image in buffer 0, of a stack: an empty plates section, one directory entry, a share of one control slot that closes the step, and, where nCat is 1,
a Catalog record of the reserved kind 3. -/
def loadTT : List Nat := [1 + 2 ^ 16 * 1000, 63, 10 + 2 ^ 16 + 2 ^ 24, 0, 0, 0, 0, 0, 3 + 2 ^ 24 * 20, 3]

/-- A LOAD_PLATES command for it. -/
def hload (nDir nCat : Nat) : HostCmd :=
  hc 0 1 [0, 512, 64 + 2 ^ 32 * nDir, 128, 256 + 2 ^ 32 * nCat, 128 + 2 ^ 32 * 80, 0]

/-- The module with the image and a fetched command. -/
def upLoad (c : Client) (h : HostCmd) : State :=
  putWords 256 [0, 3] (putWords 128 loadTT (setEnt 0 { bufEnt 512 with w0 := 2 } (upHost 0 [] c [h])))

/-- ArchiveCommands, LOAD_PLATES: in a run; of an image that is not the client's; poisoned; failing a check; with a refused record; loaded. -/
theorem witness_ArchiveCommands_load :
    (∀ c ∈ [clBusy, cl0], ∀ h ∈ [hload 0 0, hload 1 0, hload 1 1], serves (upLoad c h) 0 1 h = true) ∧ clBusy.run ≠ none ∧ cl0.run = none ∧
    (let h := hload 1 0
     let s := upLoad cl0 h
     let k := loadCmd h
     let secs := k.sections.map fun z => s.bytesOf (getEnt s 0) 0 z.1 z.2;
      imageBad s 0 k = false ∧ imageBad (setEnt 0 (bufEnt 64) s) 0 k = true ∧ (∀ b ∈ secs, anyPoison b = false) ∧
      (∃ b ∈ k.sections.map fun z => (poisonWord 16 0 s).bytesOf (getEnt s 0) 0 z.1 z.2, anyPoison b = true)) ∧
    (∀ nDir nCat, (nDir, nCat) ∈ [(0, 0), (1, 0), (1, 1)] → let h := hload nDir nCat
      let s := upLoad cl0 h
      let k := loadCmd h
      let im := imageOf k (k.sections.map fun z => plain (s.bytesOf (getEnt s 0) 0 z.1 z.2))
      let t := applyRecs 0 im.recs s;
      (loadReason s t.2 0 k im false = none ↔ nDir = 1) ∧ (t.1 = none ↔ nCat = 0)) := by
  refine ⟨by decide +kernel, by decide, by decide, by decide +kernel, ?_⟩
  intro nDir nCat h
  simp only [List.mem_cons, List.not_mem_nil, or_false, Prod.mk.injEq] at h
  obtain ⟨rfl, rfl⟩ | ⟨rfl, rfl⟩ | ⟨rfl, rfl⟩ := h <;> decide +kernel

/-- An ARCHIVE_OUT command with its list of n names in handle 0, to a host address, armed or not. -/
def harch (n arm : Nat) : HostCmd := hc 0 3 [0x10000, 4096, arm, 0x20000000, n * 2 ^ 32]

/-- A job of another queue. -/
def job1 : ArchJob := { q := 1, cmdid := 0, notify := false, words := (harch 1 0).words, image := [1] }

/-- The module with a data position of client 0 and a list buffer that names buffer 0. -/
def upArch (a : ArchSt) (c : Client) (h : HostCmd) : State :=
  setDataPos 0 (leBytes 8 (2 ^ 32)) (setEnt 0 (bufEnt 64) (upHost 0 [] { c with arch := a } [h]))

/-- ArchiveCommands, ARCHIVE_OUT: a list that cannot be read, a destination that is not aligned, one armed already, a run, an image that streams out,
and a capture. -/
theorem witness_ArchiveCommands_out :
    (∀ a ∈ [{}, { armed := some job1 }, { out := some job1 }], ∀ c ∈ [cl0, clBusy], ∀ arm ∈ [0, 1], ∀ n ∈ [0, 1], let h := harch n arm
      let s := upArch a c h;
      serves s 0 3 h = true ∧ (archListBad s 0 h.words = true ↔ n = 0)) ∧
    (∀ a ∈ [{}, { armed := some job1 }, { out := some job1 }], ∀ arm ∈ [0, 1], let h := harch 1 arm
      let s := upArch a cl0 h
      let r := archNames 0 h.words (dropHost h s);
      r.1 = [0] ∧ r.2.1 = false ∧ archBad s 0 h.words r.1 = false ∧ (bit (h.w 3) 0 = true ↔ arm = 1)) ∧
    (let h := hc 0 3 [1, 4096, 0, 0x20000000, 2 ^ 32]; archBad (upArch {} cl0 h) 0 h.words [0] = true) := by decide +kernel

/-- ArchiveCommands, captures and streams: a capture that is not due, one without an armed command, one while an image streams out, one that can no longer be
taken, and one that is taken; an image that streams out, on a host bus that works or fails. -/
theorem witness_ArchiveCommands_capture :
    (∀ a ∈ [{}, { due := true }, { due := true, out := some job1 }, { due := true, armed := some job1 }], (getClient (upArch a cl0 (harch 1 0)) 0).arch = a) ∧
    (let s := upArch { armed := some job1 } cl0 (harch 1 0);
      archListBad s 0 job1.words = false ∧ (archNames 0 job1.words s).2.1 = false ∧ archBad (archNames 0 job1.words s).2.2 0 job1.words [0] = false ∧
      archListBad (setEnt 0 {} s) 0 job1.words = true) ∧
    (let s := upArch { out := some job1 } cl0 (harch 1 0)
     let at0 := (nth 0 job1.words 1).toNat;
      hostOk s at0 1 = true ∧ hostOk { s with host := { s.host with failHi := at0 + 1 } } at0 1 = false) := by decide +kernel

/-- An image of client 0 on die 0: the map of one record, buffer 0 of 8 bytes, a Bookmark at step 0, and the buffer's bytes. -/
def imgHead : List Byte :=
  leBytes 8 (0x5241584B + 2 ^ 32 + 3 * 2 ^ 48) ++ leBytes 8 0 ++ leBytes 8 0 ++ leBytes 8 (2 ^ 32) ++ leBytes 8 520 ++ leBytes 8 0 ++ leBytes 8 0 ++ leBytes 4 0
def imgMap0 : List Byte := [0, 1, 0, 0, 0, 8, 0, 0, 0].flatMap (leBytes 8)
def imgMark : List Byte := (2 ^ 32 :: List.replicate 22 0).flatMap (leBytes 8)
def imgSec (t b : Nat) (bs : List Byte) (o : Nat) : List Byte := secEntry { typ := t, buf := b, bytes := bs } o
def img0 : List Byte :=
  imgHead ++ leBytes 4 2660852902 ++ imgSec 1 0 imgMap0 192 ++ (leBytes 8 2 ++ leBytes 8 320 ++ leBytes 8 184 ++ leBytes 8 1369373473) ++ imgSec 3 0 (leBytes 8 5) 512 ++
    leBytes 32 0 ++ imgMap0 ++ leBytes 56 0 ++ imgMark ++ leBytes 8 0 ++ leBytes 8 5

theorem crcRun_append (p : BitVec 32) (a b : List Byte) : ∀ c, crcRun p c (a ++ b) = crcRun p (crcRun p c a) b := by
  induction a with
  | nil => intro c; rfl
  | cons x l ih => intro c; exact ih _

/-- The CRC in the table is the Bookmark's. -/
theorem imgMark_crc : crc32c imgMark = 1369373473 := by
  have a : crcRun 0x82F63B78 (BitVec.allOnes 32) (imgMark.take 46) = 1640953365 := by decide +kernel
  have b : crcRun 0x82F63B78 1640953365 ((imgMark.drop 46).take 46) = 348493892 := by decide +kernel
  have c : crcRun 0x82F63B78 348493892 ((imgMark.drop 92).take 46) = 1697910534 := by decide +kernel
  have e : imgMark = imgMark.take 46 ++ ((imgMark.drop 46).take 46 ++ ((imgMark.drop 92).take 46 ++ imgMark.drop 138)) := by decide +kernel
  rw [crc32c, e, crcRun_append, a, crcRun_append, b, crcRun_append, c]
  decide +kernel

theorem img0_mark : secGood img0 (secAt (imgTable img0) 1) = true := by
  have h : secBytes img0 (secAt (imgTable img0) 1) = imgMark := by decide +kernel
  unfold secGood
  rw [h, imgMark_crc]
  decide +kernel

theorem img0_head : headerBad img0 520 = false := by
  unfold headerBad
  dsimp only
  rw [img0_mark]
  decide +kernel

/-- Its manifest: this module's entry alone. -/
def man0 : List Byte :=
  let a := leBytes 8 (2 ^ 16) ++ leBytes 8 0 ++ leBytes 8 0 ++ leBytes 4 0
  let b := leBytes 8 (2 ^ 32 * 2660852902) ++ leBytes 8 520
  a ++ leBytes 4 3909153947 ++ b

/-- A RESTORE_IN of the staged image at 0, with its manifest at host address 0. -/
def hrest : HostCmd := hc 0 4 [0, 0, 1, 0, 0, 48]

def upRest (img : List Byte) (c : Client) : State :=
  let s := upHost 0 [] { c with dies := 1, arch := { staged := [(0, img.map fun b => (b, false))] } } [hrest]
  hostWrite 0 man0 s

/-- ArchiveCommands, RESTORE_IN: in a run, without a plate set, out of the host bus's reach, failing a check, with data that does not match, and restored. -/
theorem witness_ArchiveCommands_restore :
    (∀ c ∈ [cl0, clSet, clBusy], serves (upRest [] c) 0 4 hrest = true) ∧
    (let s := upRest [] clSet;
      hostOk s 0 48 = true ∧ hostOk { s with host := { s.host with failHi := 1 } } 0 48 = false ∧ (restoreSource hrest s).2.2.2.1 = true ∧
      checkReason s 0 0 [] man0 = some 1) ∧
    checkReason (upRest img0 clSet) 0 520 img0 man0 = none ∧ hostBytes (upRest [] clSet) 0 48 = man0 ∧
    (∀ z ∈ (imgTable img0).drop 2, secGood img0 z = true) ∧
    (let bad := img0.take 512 ++ leBytes 8 6; ∃ z ∈ (imgTable bad).drop 2, secGood bad z = false) := by
  refine ⟨by decide +kernel, by decide +kernel, ?_, by decide +kernel, by decide +kernel, by decide +kernel⟩
  simp only [checkReason, img0_head, Bool.false_eq_true, if_false]
  decide +kernel

/-- The module with a rotation, a tick, and client 0 as given. -/
def upRot (r : Rotation) (tick : Nat) (c : Client) : State := { setClient 0 c up with rot := r, tick := tick }

/-- Client 0 with a window that is open. -/
def clOpen : Client := { cl0 with step := some { idx := 0, opened := [0] } }

/-- RotationAndArbiters: a slice that is due, one that has ended and one that has not, a rotation that begins and one that is not set; clients that stop, that have a
window open, that are switched out, with dies at rest or not; a slice to begin; a long command; requests, and a grant to withdraw. -/
theorem witness_RotationAndArbiters :
    (∀ t ∈ [0, 2 ^ 24], let s := upRot { len := 1, entries := [(0, BitVec.ofNat 64 (1 + 2 ^ 16 * 100))] } t cl0;
      s.rot.due = false ∧ s.rot.len ≠ 0 ∧ (sliceStart s s.rot.slice + sliceLen (rotEntry s s.rot.slice) - s.rot.cut ≤ s.tick ↔ t ≠ 0)) ∧
    (∀ n ∈ [0, 1], let s := setDict (dkey 0x7000 2) (BitVec.ofNat 64 n) (upRot {} 0 cl0);
      s.rot.due = false ∧ s.rot.len = 0 ∧ ((nextTable s).1 ≠ 0 ∧ nextStart s (nextTable s) 0 = 0 ↔ n = 1)) ∧
    (∀ c ∈ [cl0, clOpen, { cl0 with state := 4 }], let s := upRot { due := true } 0 c;
      s.rot.due = true ∧ 0 ∈ sliceClients s ∧ (getClient s 0).arch.due = false ∧ (getClient s 0).arch.pause = 0 ∧
      (anyOpen s 0 = false ↔ c ≠ clOpen) ∧ (∀ j ∈ sliceClients s, j = 0) ∧ (∀ d ∈ clientDies c, dieAtRest s d = true)) ∧
    dieAtRest (setVec 0 { block := some { id := 1, instrs := [0], pc := 1 } } up) 0 = false ∧
    (∀ b ∈ [false, true], let s := upRot { due := true, between := b } 0 { cl0 with state := 3, debt := 1 };
      (s.rot.due = true ∧ s.rot.between = true ∧ (∀ c ∈ sliceClients s, (getClient s c).state = 3) ∧ (nextSlice s).2.2.2 ≤ s.tick ↔ b = true) ∧
      (nextSlice s).2.1.1 = 0 ∧ (getClient s 0).state = 3 ∧ (getClient s 1).state = 0) ∧
    (let s := { setVec 0 { block := some { id := 1, instrs := [0], pc := 1 } } (upRot {} 50 { cl0 with state := 4 }) with tick := 50 };
      (getClient s (clientOn s 0)).state = 4 ∧ mget 0 s.rot.bounds (clientOn s 0) + 50 ≤ s.tick ∧ unitRuns s (.vector 0) = true ∧ engKey (.vector 0) ∉ s.rot.long) ∧
    (mget {} (mget {} { up with arbs := [(arbKey 0 0, { cnts := [(3, { grants := 1 })] })] }.arbs (arbKey 0 0) : Arb).cnts 3 : ArbCnt).grants ≠ 0 := by decide +kernel

/-- A module whose lowest accepted security version is above what 16 bits hold: no image passes. -/
theorem imageGood_low (s : State) (img : List Byte) (h : 65536 ≤ (getDict s (dkey 0x2000 0x0D)).toNat) : imageGood s img = false := by
  have := (Config.imageSvn img).isLt
  have e : decide ((getDict s (dkey 0x2000 0x0D)).toNat ≤ (Config.imageSvn img).toNat) = false := by simp; omega
  simp [imageGood, e]

/-- A module in a stage, with its firmware or without. -/
def upAt (stage : Nat) (fw : Bool) : State := setDict (dkey 0x2000 1) (BitVec.ofNat 64 stage) { up with start := { up.start with firmware := fw } }

/-- A module in Proof whose tasks are met. -/
def upMet : State :=
  let s := setDict (dkey 0x2000 6) (BitVec.allOnes 64) (upAt 2 true)
  (List.range 24).foldl (fun s i => setReg (stkBlk i 0) 1 s)
    { s with start := { s.start with cores := 15, tilesOk := [(0, 1), (1, 1), (2, 1), (3, 1)] } }

/-- StartStages: Sketch to enter, after a warm reset as well, and entered; a boot that finds no good image; Proof and Edition to enter and not; the timeout's
two cases; update bytes inside the slot and none. (That an image is good rests on opaque constants of Config, log 5: no concrete state can be shown to
have one.) -/
theorem witness_StartStages :
    (∀ k ∈ [1, 2], let s := { up with start := { up.start with sketched := false, resetNow := k } };
      s.start.good = true ∧ s.start.sketched = false ∧ (s.start.resetNow = 2 ↔ k = 2)) ∧ up.start.sketched = true ∧
    (let s := setDict (dkey 0x2000 0x0D) 65536 (upAt 1 false);
      s.start.sketched = true ∧ s.start.firmware = false ∧ stageOf s = 1 ∧
      ∀ img, imageGood s img = false) ∧
    ((upAt 1 true).start.firmware = true ∧ stageOf (upAt 1 true) = 1 ∧ getDict (upAt 1 true) (dkey 0x2000 0x02) ≠ 5) ∧
    (stageOf upMet = 2 ∧ TasksMet upMet ∧ (∀ x ∈ upMet.clients, x.2.run = none)) ∧
    (up.start.good = true ∧ stageOf up = 3 ∧ stageOf (upAt 1 true) ≠ 3) ∧
    ([(0 : Byte)].length ≠ 0 ∧ [(0 : Byte)].length ≤ 65536 ∧ (getDict up (dkey 0x2000 0x10)).toNat + [(0 : Byte)].length ≤ slotSize) := by
  refine ⟨by decide +kernel, by decide +kernel, ⟨by decide +kernel, by decide +kernel, by decide +kernel, fun img => ?_⟩,
    by decide +kernel, ⟨by decide +kernel, ?_, by decide +kernel⟩, by decide +kernel, by decide +kernel⟩
  · exact imageGood_low _ _ (by decide +kernel)
  · unfold TasksMet; decide +kernel

/-- ProofTasks: a stack, a die and its cores in Proof, to do and done; a self-test that all tiles pass, one for which the spare serves and one with too few; repairs that
fit; a port that trains, one idle; core checks with none failed, one, the spare, or two. -/
theorem witness_ProofTasks :
    (let s := upAt 2 true;
      stageOf s = 2 ∧ fld (getReg s (stkBlk 0 0)) 0 2 = 0 ∧ fld (getReg (setReg (stkBlk 0 0) 1 s) (stkBlk 0 0)) 0 2 ≠ 0 ∧
      mget 0 s.start.tilesOk 0 = 0 ∧ s.start.cores.testBit 0 = false ∧ portState s 0 ≠ 2 ∧ portState s 0 ≠ 3 ∧ portState s 7 ≠ 2 ∧
      bit (getDict s (dkey 0x8000 0x0C)) 0 = true ∧ mget 0 s.start.spareCore 0 = 0) ∧
    RepairFits (upAt 2 true) 1 0 0 [(0, 3), (0, 70)] ∧
    (List.range 16).map (physTile (upAt 2 true) 0) = List.range 16 ∧ (∀ t ∈ List.range 16, bit (0x1FFFF#17) t = true) ∧
    (bit (0x1FFFE#17) 0 = false ∧ bit (0x1FFFE#17) 16 = true ∧ bit (0xFFFC#17) 0 = false ∧ bit (0xFFFC#17) 16 = false) ∧
    (∀ n ∈ [0, 2], ((getDict (setDict (dkey 0x5000 0x0D) (BitVec.ofNat 64 n) up) (dkey 0x5000 0x0D)).toNat % 4 ≠ 2 ↔ n = 0)) ∧
    (∀ b ∈ ([4] : List (Fin 5)), ¬ b.val < 4) ∧ (∀ k ∈ List.range 4, (∃ b ∈ ([1] : List (Fin 5)), b.val = k) → k = 1) ∧
    (∃ b ∈ ([1, 2] : List (Fin 5)), b.val = 2) := by
  refine ⟨by decide +kernel, ⟨by decide +kernel, ?_⟩, by decide +kernel, by decide +kernel, by decide +kernel, by decide +kernel, by decide +kernel, by decide +kernel,
    by decide +kernel⟩
  intro x _ _ r hr
  have e : (upAt 2 true).wearS.errata = [] := by decide +kernel
  rw [e] at hr
  cases hr

/-- The module on CAN as node 5, with open transactions. -/
def upCan (txs : List CanTx) : State := setDict (dkey 0x1100 1) 5 { up with can := { up.can with ready := true, txs := txs } }

/-- A frame for node 5: a command, its tag, an entry, a length field, and bytes behind W0. -/
def frame (cmd : Nat) (w : List Nat) (body : List Byte) : CanFrame :=
  { id := 0xC * 128 + 5, data := ([cmd, 1] ++ w).map (BitVec.ofNat 8) ++ body }

/-- Open transactions of tag 1: a write of 100 bytes, and a read of 100 bytes of which a block of 2 segments is out. -/
def txW : CanTx := { tag := 1, ix := 0x1000, sub := 0, write := true, data := [], size := 100 }
def txR : CanTx := { tag := 1, ix := 0x1000, sub := 0, write := false, data := List.replicate 100 0, size := 100, seg := 2 }

/-- CanAndMailbox, requests: each command's frame, one too short, one of a length that CAN FD lacks; a short write that fits and one that does not; a long one that
fits and one that does not; segments in order, out of order, the last, of a wrong length; acknowledgements that end a read, go on, are malformed, or acknowledge
what was not sent. -/
theorem witness_CanAndMailbox_requests :
    canOn (upCan []) = true ∧ nodeId (upCan []) = 5 ∧ canOn up = false ∧
    (∀ c ∈ [1, 2, 3, 6, 7, 9, 0xF], let f := frame c [0, 0x10, 0, 0, 0, 0] []
      let g := frame c [0, 0x10, 0, 0, 0, 0] [0];
      f.id = 0xC * 128 + 5 ∧ 8 ≤ f.data.length ∧ f.cmd = c ∧ f.data.length ∈ [8, 12, 16, 20, 24, 32, 48, 64] ∧
      g.data.length ∉ [8, 12, 16, 20, 24, 32, 48, 64]) ∧
    (∀ n ∈ [0, 4], let f := frame 2 [0, 0x10, 0, n, 0, 0] [1, 2, 3, 4]; (1 ≤ f.len ∧ f.len ≤ 56 ∧ f.len ≤ f.body.length ↔ n = 4)) ∧
    (∀ n ∈ [56, 57], let f := frame 3 [0, 0x10, 0, 0, 0, 0] (leBytes 4 n);
      (4 ≤ f.body.length ∧ 57 ≤ leNat (f.body.take 4) ∧ leNat (f.body.take 4) ≤ 65536 ↔ n = 57)) ∧
    (∀ x ∈ [txW, txR], findTrans (upCan [x]) 1 = some x) ∧ findTrans (upCan []) 1 = none ∧
    (∀ q n last, (q, n, last) ∈ [(1, 56, 0), (2, 56, 0), (1, 10, 0), (1, 10, 1)] → let f := frame 6 [q, last, n, 0, 0, 0] (List.replicate 56 0);
      ((1 ≤ f.seq ∧ f.seq ≤ 16 ∧ 1 ≤ f.segLen ∧ f.segLen ≤ 56 ∧ f.segLen ≤ f.body.length ∧ (f.last = false → f.segLen = 56)) ↔ (n = 56 ∨ last = 1)) ∧
      (txW.gap = false ∧ f.seq = txW.seg + 1 ↔ q = 1) ∧ ((txW.data ++ f.body.take f.segLen).length ≤ txW.size) ∧
      ((f.last = true → txW.size ≤ (txW.data ++ f.body.take f.segLen).length) ↔ last = 0)) ∧
    (∀ q b, (q, b) ∈ [(3, 1), (2, 1), (1, 0), (1, 16)] → let f := frame 7 [q, 0, b, 0, 0, 0] [];
      (txR.write = false ∧ f.seq ≤ txR.seg ↔ q ≠ 3) ∧ (min txR.size (txR.done + 56 * f.seq) = txR.size ↔ q ≠ 1) ∧
      (1 ≤ f.segLen ∧ f.segLen ≤ 16 ↔ b ≠ 0)) := by
  refine ⟨by decide +kernel, by decide +kernel, by decide +kernel, by decide +kernel, by decide +kernel, by decide +kernel, by decide +kernel, by decide +kernel, ?_, ?_⟩
  · intro q n last h
    simp only [List.mem_cons, List.not_mem_nil, or_false, Prod.mk.injEq] at h
    obtain ⟨rfl, rfl, rfl⟩ | ⟨rfl, rfl, rfl⟩ | ⟨rfl, rfl, rfl⟩ | ⟨rfl, rfl, rfl⟩ := h <;> decide +kernel
  · intro q b h
    simp only [List.mem_cons, List.not_mem_nil, or_false, Prod.mk.injEq] at h
    obtain ⟨rfl, rfl⟩ | ⟨rfl, rfl⟩ | ⟨rfl, rfl⟩ | ⟨rfl, rfl⟩ := h <;> decide +kernel

/-- A mailbox with its request word. -/
def upMail (w : Nat) (s : State) : State := setReg (mbReg 8) (BitVec.ofNat 64 w) s

/-- CanAndMailbox, the node and the mailbox: a heartbeat that is due; a node that has not listened; one off the bus; mailbox requests of each kind, served here, with a
length that fits or not, and for another module with a port up or none; one that waits. -/
theorem witness_CanAndMailbox_node :
    (canOn (upCan []) = true ∧ (upCan []).can.booted = false) ∧
    (up.start.sketched = true ∧ up.can.ready = false ∧ pinsTaken up = false ∧ canState up ≠ 3) ∧
    canState (setDict (dkey 0x1100 4) 2 up) = 2 ∧
    (∀ w ∈ [2, 0, 1, 1 + 2 ^ 32], let s := upMail w up;
      s.start.sketched = true ∧ pinsTaken s = false ∧ s.mail.remote = false ∧ bit (getReg s (mbReg 8)) 61 = false ∧
      (bit (getReg s (mbReg 8)) 1 = true ↔ w = 2) ∧ (bit (getReg s (mbReg 8)) 0 = true ↔ w % 2 = 1) ∧
      (1 ≤ fld (getReg s (mbReg 8)) 32 17 ↔ w = 1 + 2 ^ 32)) ∧
    (∀ n ∈ [0, 2], let s := setReg (portStatus 0) (BitVec.ofNat 64 n) (upMail (2 ^ 61 + 2 ^ 49) up);
      bit (getReg s (mbReg 8)) 61 = true ∧ fld (getReg s (mbReg 8)) 49 12 ≠ moduleId s % 4096 ∧
      ((∃ p, p < 32 ∧ portState s p = 2) ↔ n = 2)) ∧
    { up.mail with remote := true }.remote = true := by decide +kernel

/-- The module with queued swaps, error records and no client. -/
def upWear (q : List Swap) (l : List Errata) (c : Client) : State :=
  { setClient 0 c up with wearS := { up.wearS with queue := q, errata := l } }

/-- A swap of each kind, and a fuse record that waits. -/
def swap (kind item : Nat) : Swap := { kind := kind, die := 0, unit := 0, item := item, cause := 3 }
def pend : Errata := { w0 := 0, w1 := 0 }

/-- WearAndLogs: a count that is due, with the wear process on and off, and with no spare left; queued swaps of each kind, with a tile's spare and a step on the die or not; a fuse to blow,
asked for or by itself, with a record free and none; the error log to clear. -/
theorem witness_WearAndLogs :
    (∀ n ∈ [0, 1], let k : WearIn := { kind := 6, die := 0, unit := 0, item := 0, count := 2 }
      let s := setDict (dkey 0x8000 4) (BitVec.ofNat 64 n) up;
      s.start.firmware = true ∧ wearThreshold s k.kind ≤ k.count ∧ swapQueued s (wearSwap s k) = false ∧ spareLeft s (wearSwap s k) = true ∧
      spareLeft (setDict (dkey 0x8000 0x0C) 0 s) (wearSwap s k) = false ∧ (getDict s (dkey 0x8000 4) = 0 ↔ n = 0)) ∧
    (let s := setDict (dkey 0x5000 0x0D) 1 (setReg (portStatus 7) 5 (setReg (portStatus 0) 4 up))
     let k : WearIn := { kind := 8, die := 0, unit := 0, item := 0, count := 0 };
      portState s (wearSwap s k).unit = 4 ∧ standbyFor s (wearSwap s k).unit ≠ none ∧ wearThreshold s 8 ≤ k.count) ∧
    (∀ w ∈ [swap 3 0, swap 4 0, swap 5 0, swap 7 0, swap 8 0, swap 9 0],
      (upWear [w] [] cl0).wearS.queue[0]? = some w ∧ (upWear [] [] cl0).wearS.queue[0]? = none ∧
      stepOnDie (upWear [w] [] cl0) 0 = true ∧ stepOnDie (upWear [w] [] { cl0 with step := none }) 0 = false ∧
      bit (getDict (upWear [w] [] cl0) (dkey 0x8000 0x0C)) 0 = true ∧ physTile (upWear [w] [] cl0) 0 0 = 0 ∧ bankServed (upWear [w] [] cl0) 0 0 = some 0) ∧
    (∀ free ∈ [0, 1], let s := setDict (dkey 0x1000 0x15) (BitVec.ofNat 64 free) (upWear [] [pend] {});
      s.wearS.errata[0]? = some pend ∧ s.wearS.errata[1]? = none ∧ pend.pending = true ∧ pend.die = 0 ∧
      ((getDict s (dkey 0x1000 (0x15 + pend.die))).toNat = 0 ↔ free = 0) ∧
      { s.cur with blow := some 0 }.blow = some 0 ∧ s.cur.blow = none ∧ (∀ x ∈ s.clients, x.2.state = 0) ∧ stageOf s = 3) ∧
    (let s := setDict (dkey 0x2100 1) 48000 (setDict (dkey 0x2100 8) 10 (setDict (dkey 0x8000 5) 1 (upWear [] [pend] {})));
      getDict s (dkey 0x8000 0x05) ≠ 0 ∧ 48000 ≤ (getDict s (dkey 0x2100 0x01)).toNat ∧ (getDict s (dkey 0x2100 0x01)).toNat ≤ 54000 ∧
      10 ≤ (getDict s (dkey 0x2100 0x08)).toNat ∧ (getDict s (dkey 0x2100 0x08)).toNat ≤ 40) ∧
    (∀ x ∈ (setClient 0 {} up).clients, x.2.state = 0) := by decide +kernel

/-- MemoryReadsDetermineData, StepKeepsMemoryCanonical, RunsConsumeAndAppend, StepRunsFrontCommand and OnlyOvervoltageStops: canonical memories, a step that answers a next state from a state with
canonical memory, and rails inside their limits and outside. -/
theorem witness_step :
    (let s : State := { up with pending := [.errlogClear 0] };
      s.inv ∧ s.pending = .errlogClear 0 :: [] ∧ step s = .next up ∧ Sys2Proof.core.run 1 s = .next up ∧ up.pending = []) ∧
    (∀ vin ms, Instr.errlogClear 0 = .powerSequence vin ms → vin ≤ 54000) ∧ (54000 : Nat) < 54001 ∧
    ({} : Memory).wf = true ∧ (({} : Memory).setBytes 0 [1]).wf = true := by
  refine ⟨?_, fun _ _ h => ?_, by decide, by decide +kernel, by decide +kernel⟩
  · exact ⟨by unfold State.inv; decide +kernel, rfl, rfl, rfl, rfl⟩
  · cases h

/-! ### Single steps, with results worked out by hand from the spec -/

/-- What one step makes of a command in front of a state. -/
def ran (c : Instr) (s : State) : Option State :=
  match step { s with pending := [c] } with
  | .next t => some t
  | _ => none

/-- R267, R370: the check values of CRC-32 and CRC-32C, of the bytes 0x31 to 0x39. -/
theorem test_crc32 : crc32 [0x31, 0x32, 0x33, 0x34, 0x35, 0x36, 0x37, 0x38, 0x39] = 0xCBF43926 := by decide +kernel
theorem test_crc32c : crc32c [0x31, 0x32, 0x33, 0x34, 0x35, 0x36, 0x37, 0x38, 0x39] = 0xE3069283 := by decide +kernel

/-- R117: VIADDI of 5 to 0, in lane 7. -/
theorem test_viaddi :
    ((ran (.viaddi 0 (BitVec.ofNat 64 (0x38 + 2 ^ 32 * 5)) []) (vecAt {} (0x38 + 2 ^ 32 * 5))).map fun t =>
      ((mget (Vector.replicate 512 0) (getVec t 0).v 0).get 7)) = some 5 := by decide +kernel

/-- R20: a tick of die 0 counts. -/
theorem test_tick : ((ran (.scheduleTick 0) up).map (·.tick)) = some 1 := by decide +kernel

/-- R304: a CSEND whose source handle is the client's is in progress, not refused. -/
theorem test_csend :
    ((ran (.csend 0 csend) (upColl 0 { idx := 0 })).map fun t => (flightsOf t (.coll 0)).length) = some 1 := by decide +kernel

/-- R297: CCTX arms context 0: STATE 1, NELEM 16, NEXP 1. -/
theorem test_cctx :
    ((ran (.cctx 0 cctxRed) (upColl 0 { idx := 0 })).map fun t => ((getCtx t 0).state, (getCtx t 0).nelem, (getCtx t 0).nexp)) = some (1, 16, 1) := by
  decide +kernel

/-- R426: 0xA5 arms, and 60 s later FUSE_ARMED is 0 again. -/
theorem test_fuse_arm : ((ran (.fuseArm 0xA5) up).map fun t => getDict t (dkey 0xF000 5)) = some 1 := by decide +kernel
theorem test_fuse_disarm : ((ran .fuseArmExpire (setDict (dkey 0xF000 5) 1 up)).map fun t => getDict t (dkey 0xF000 5)) = some 0 := by decide +kernel

/-- R340: a doorbell sets the tail; one beyond the queue stops it with code 1. -/
theorem test_doorbell : ((ran (.doorbellWrite 0 1) (upHost 0 [(sqReg 0 8, 3)] cl0 [])).map fun t => (t.host.fetched.length, fld (getReg t (sqReg 0 16)) 0 12)) = some (1, 1) := by
  decide +kernel
theorem test_doorbell_beyond : ((ran (.doorbellWrite 0 16) (upHost 0 [(sqReg 0 8, 3)] cl0 [])).map fun t => getReg t (sqReg 0 24)) = some 7 := by decide +kernel

end Sys2Proof.Tests
end

section
/-! Scope: what reset leaves (R7), and that only an overvoltage stops the machine (R11, R440). -/

namespace Sys2Proof.Machine

/-- Settles O2: every arm of the dispatch answers a next state by its definition; only POWER_SEQUENCE branches. -/
theorem onlyOvervoltageStops : Obligations.OnlyOvervoltageStops := by
  unfold Obligations.OnlyOvervoltageStops
  refine ⟨fun c s h => ?_, fun vin ms s h => if_pos h⟩
  cases c
  case powerSequence vin ms => exact ⟨_, if_neg (Nat.not_lt.2 (h vin ms rfl))⟩
  all_goals exact ⟨_, rfl⟩

theorem regReset_statBlk {d i : Nat} (hd : d < 4) (hi : i < 1024) : regReset (statBlk d i 0) = 0xFFE8 := by
  unfold regReset statBlk ctlBase
  rw [if_neg (by omega)]
  dsimp only
  rw [if_pos (by omega)]

theorem regReset_govBlk {d i : Nat} (hd : d < 4) (hi : i < 1024) : regReset (govBlk d i) = 255 := by
  unfold regReset govBlk ctlBase
  rw [if_neg (by omega)]
  dsimp only
  rw [if_neg (by omega), if_pos (by omega)]

theorem regReset_linkBlk {d p : Nat} (hd : d < 4) (hp : p < 8) : regReset (linkBlk d (0x40 * p)) = 0x20 := by
  unfold regReset linkBlk ctlBase
  rw [if_neg (by omega)]
  dsimp only
  rw [if_neg (by omega), if_neg (by omega), if_pos (by omega)]

/-- Settles O6: at reset no register and no entry is stored, so each reads as its reset value or default. -/
theorem resetState : Obligations.ResetState := by
  unfold Obligations.ResetState
  refine ⟨rfl, rfl, rfl, rfl, rfl, fun d i => regReset_statBlk, fun d i => regReset_govBlk, fun d p => regReset_linkBlk, ?_⟩
  decide +kernel

end Sys2Proof.Machine
end

section
/-! Plate commands that do not issue: they wait, or their header is refused (R5, R222, R226, R229). -/

namespace Sys2Proof.Machine

theorem exec_plateCmd {i : Instr} {e : Eng} {c : PCmd} (h : plateCmd i = some (e, c)) (s : State) :
    ∃ hold k, exec i s = .next (withIssue hold e c s k) := by
  cases i <;> cases h <;> exact ⟨_, _, rfl⟩

section Issue
variable {s : State} {e : Eng} {c : PCmd} (hold : Option Nat) (k : State → WinCmd → Nat → State)
  (hturn : (getClient s (clientOn s (engDie e))).state ≠ 4)
include hturn

theorem withIssue_aborted (ha : aborted s (clientOn s (engDie e)) = true) : withIssue hold e c s k = charge e 0x1D s := by
  simp [withIssue, issue, hturn, ha]

theorem withIssue_tokensMissing (ha : aborted s (clientOn s (engDie e)) = false) (hh : hdrReserved e c = false)
    (ht : tokensReady s e c = false) : withIssue hold e c s k = charge e 0x01 s := by
  simp [withIssue, issue, hturn, ha, hh, ht]

theorem withIssue_hdrReserved (ha : aborted s (clientOn s (engDie e)) = false) (hh : hdrReserved e c = true)
    (hfirst : (locate s e c).1 = []) (ho : orderOk s e [] (locate s e c).2.1 = true)
    (hf : fenceOk s e [] (locate s e c).2.1 = true)
    (hg : gateOf s (clientOn s (engDie e)) e (locate s e c).2.1.off ≠ .wait) :
    withIssue hold e c s k =
      charge e 0x00 (noteIllegal e (clientOn s (engDie e)) (locate s e c).2.1 (setEng e (s.issuedEng e c) s)) := by
  unfold withIssue issue State.issuedEng
  generalize locate s e c = l at *
  obtain ⟨es, w, rest, inWin⟩ := l
  simp only at hfirst ho hf hg
  subst hfirst
  simp [hturn, ha, hh, ho, hf, hg, earlierReady]

end Issue

theorem plateStatus_ne_stallBlk (e : Eng) : plateStatus e ≠ stallBlk e + 8 * 0 := by
  cases e <;> simp only [plateStatus, engTile, engDie, stallBlk, pltBlk, tileBlk, diePlt, hatchBlk, cptBlk, dmaBlk, collBlk] <;> omega

theorem eq_accounts_plates_of_only {s n : State} (h : Only (.plates :: accountParts) s n) :
    n = { s.accounts n with plates := n.plates } := by
  apply State.ext_fields
  case hregs | hdict | hsat | hplates | hhost | hlogs | hledger => rfl
  all_goals simp [accountParts, h.mem, h.shadow, h.blobs, h.cat, h.banks, h.tiles, h.units, h.clients, h.fabric, h.rot, h.arbs, h.start,
    h.wearS, h.can, h.cur, h.mail, h.wear, h.served, h.ports, h.tick, h.pending, h.free]

/-- Noting a command whose header is itself reserved (R222): the ILLEGAL bit of the plate status and the event. -/
theorem noteIllegal_header {e : Eng} {cl : Nat} {w : WinCmd} (hh : hdrReserved e w.cmd = true) (s : State) :
    bit (getReg (noteIllegal e cl w s) (plateStatus e)) 4 = true ∧
    (noteIllegal e cl w s).host.posted = (post 0x0201 cl (illegalDetail e w) s).host.posted ∧
    Only [.regs, .host, .logs] s (noteIllegal e cl w s) := by
  have hn : noteIllegal e cl w s = post 0x0201 cl (illegalDetail e w) (setBit (plateStatus e) 4 s) := by
    unfold noteIllegal
    rw [hh]
    rfl
  rw [hn]
  refine ⟨?_, post_posted_congr rfl rfl rfl _ _ _,
    ((setBit_only _ _ s).mono (by decide)).step (post_only _ _ _ _) (by decide)⟩
  rw [getReg_congr (post_regs _ _ _ _), setBit_getReg, if_pos rfl]
  exact bit_or_self _ _ (by decide)

/-- Settles O14: the three attempts that do not issue. -/
theorem plateCommandsWait : Obligations.PlateCommandsWait := by
  unfold Obligations.PlateCommandsWait
  intro i e c s hi hturn
  obtain ⟨hold, k, hx⟩ := exec_plateCmd hi s
  rw [hx]
  refine ⟨fun ha => congrArg _ (withIssue_aborted hold k hturn ha),
    fun ha hh ht => congrArg _ (withIssue_tokensMissing hold k hturn ha hh ht), fun ha hh hfirst ho hf hg => ?_⟩
  rw [withIssue_hdrReserved hold k hturn ha hh hfirst ho hf hg]
  have k1 := setEng_only e (s.issuedEng e c) s
  have hw : hdrReserved e (locate s e c).2.1.cmd = true := by rw [locate_cmd]; exact hh
  obtain ⟨hbit, hpost, k2⟩ := noteIllegal_header (cl := clientOn s (engDie e)) hw (setEng e (s.issuedEng e c) s)
  generalize noteIllegal e _ _ _ = y at hbit hpost k2
  have k3 := charge_only e 0x00 y
  have hp : (charge e 0x00 y).plates = (setEng e (s.issuedEng e c) s).plates := by
    rw [k3.plates (by decide), k2.plates (by decide)]
  refine ⟨_, rfl, ?_, ⟨illegalDetail e (locate s e c).2.1, ?_⟩, by rw [hp]; rfl, by rw [hp]; rfl, by rw [hp]; rfl, ?_⟩
  · rw [charge_getReg, if_neg (plateStatus_ne_stallBlk e)]
    exact hbit
  · rw [← post_posted_congr (s := s) (t := setEng e (s.issuedEng e c) s) rfl rfl rfl, ← hpost]
    exact charge_posted _ _ _
  · exact eq_accounts_plates_of_only (((k1.mono (by decide)).step k2 (by decide)).step k3 (by decide))

end Sys2Proof.Machine
end

section
/-! Issued commands: their own effect, the completion or refusal that ends it, and the cycle that is charged (R5, R224, R236). -/

namespace Sys2Proof.Machine

/-- An effect that ends with a command's completion, and the cycle that is then charged. -/
theorem charge_complete {s y : State} (e : Eng) (k id : Nat) (hp : y.plates = s.plates) (hc : y.clients = s.clients) :
    Completed s (charge e k (complete id y)) id ∧ Only (.plates :: accountParts) y (charge e k (complete id y)) :=
  have k2 := charge_only e k (complete id y)
  ⟨((complete_completed id y).congr (k2.plates (by decide))).from hp hc,
    ((complete_only id y).mono (by decide)).step k2 (by decide)⟩

theorem issued_clientOn (s : State) (e : Eng) (c : PCmd) (d : Nat) : clientOn (s.issued e c) d = clientOn s d :=
  clientOn_congr issued_clients issued_rot d

theorem issued_aborted (s : State) (e : Eng) (c : PCmd) (cl : Nat) : aborted (s.issued e c) cl = aborted s cl := by
  unfold aborted
  rw [getClient_congr issued_clients]

/-- From s to n the issued command of an engine stays in progress, with its tokens taken and none posted. -/
def StaysIssued (s n : State) (e : Eng) (c : PCmd) : Prop :=
  n.plates = (s.issued e c).plates ∧ findFlight n s.plates.nextId = some (s.flight e c)

/-- What an issued command's own effect makes of the state of its issue is the next state, with the cycle charged. -/
theorem exec_issues {i : Instr} {e : Eng} {c : PCmd} {s y : State} {k : State → WinCmd → Nat → State} (hi : s.Issues e c)
    (hx : exec i s = .next (withIssue none e c s k)) (hk : k (s.issued e c) (s.issuedCmd e c) s.plates.nextId = y) :
    exec i s = .next (charge e 0x00 y) := by
  rw [hx, withIssue_issues hi, hk]

/-- An attempt that its engine's own chapter holds back, or does not. -/
theorem exec_held {i : Instr} {e : Eng} {c : PCmd} {s : State} {k : State → WinCmd → Nat → State} {hold : Option Nat} {code : Nat}
    (hi : s.Issues e c) (hx : exec i s = .next (withIssue hold e c s k)) (hh : hold = some code) :
    exec i s = .next (charge e code s) := by
  rw [hx, hh, withIssue_hold hi]

theorem exec_unheld {i : Instr} {e : Eng} {c : PCmd} {s : State} {k : State → WinCmd → Nat → State} {hold : Option Nat}
    (hx : exec i s = .next (withIssue hold e c s k)) (hh : hold = none) : exec i s = .next (withIssue none e c s k) := by
  rw [hx, hh]

/-- An issued command that its own checks refuse. -/
theorem exec_refused {i : Instr} {e : Eng} {c : PCmd} {s : State} {k : State → WinCmd → Nat → State} (hi : s.Issues e c)
    (hx : exec i s = .next (withIssue none e c s k))
    (hk : k (s.issued e c) (s.issuedCmd e c) s.plates.nextId = refuse s.plates.nextId (s.issued e c)) :
    ∃ n, exec i s = .next n ∧ RefusedCmd s n e c :=
  ⟨_, exec_issues hi hx hk, refuse_refused hi⟩

/-- An issued command of a die unit that goes to work: what it stores is the units. -/
theorem exec_works {i : Instr} {e : Eng} {c : PCmd} {s : State} {k : State → WinCmd → Nat → State} {v : Units} (hi : s.Issues e c)
    (hx : exec i s = .next (withIssue none e c s k))
    (hk : k (s.issued e c) (s.issuedCmd e c) s.plates.nextId = { s.issued e c with units := v }) :
    ∃ n, exec i s = .next n ∧ StaysIssued s n e c ∧ n.units = v ∧ Only (.units :: .plates :: accountParts) s n := by
  obtain ⟨hp, hf, hu, ho⟩ := works_spec hi v
  exact ⟨_, exec_issues hi hx hk, ⟨hp, hf⟩, hu, ho⟩

end Sys2Proof.Machine
end

section
/-! The tile sequencer's commands (R233, R234). -/

namespace Sys2Proof.Machine

theorem stageOwner_congr {s n : State} (h : n.cat = s.cat) (d : Nat) (r : CatRec) : stageOwner n d r = stageOwner s d r := by
  unfold stageOwner
  rw [h]

theorem noteCatRefused_only (path : Option Nat) (d h k : Nat) (s : State) : Only accountParts s (noteCatRefused path d h k s) :=
  ((bumpDict_only _ _ s).mono (by decide)).step (post_only _ _ _ _) (by decide)

section
variable {t : TileId} {c : PCmd} {s : State} (hi : s.Issues (.seq t) c)
include hi

theorem snop_completes : ∃ n, exec (.snop t c) s = .next n ∧ Completed (s.issued (.seq t) c) n s.plates.nextId ∧
    Only (.plates :: accountParts) s n := by
  obtain ⟨h1, h2⟩ := charge_complete (.seq t) 0x00 s.plates.nextId (y := s.issued (.seq t) c) rfl rfl
  exact ⟨_, exec_issues hi rfl rfl, h1, ((issued_only s _ c).mono (by decide)).trans h2⟩

theorem sevent_completes : ∃ n, exec (.sevent t c) s = .next n ∧ Completed (s.issued (.seq t) c) n s.plates.nextId ∧
    (post 0x0003 (clientOn s (tileDie t)) (fld (c.w 0) 0 32 + 2 ^ 32 * t.val) s).host.posted <+: n.host.posted ∧
    Only (.plates :: accountParts) s n := by
  have hx : exec (.sevent t c) s = .next (charge (.seq t) 0x00 (complete s.plates.nextId
      (post 0x0003 (clientOn s (tileDie t)) (fld (c.w 0) 0 32 + 2 ^ 32 * t.val) (s.issued (.seq t) c)))) :=
    exec_issues hi rfl (by rw [issued_clientOn])
  have k1 := post_only 0x0003 (clientOn s (tileDie t)) (fld (c.w 0) 0 32 + 2 ^ 32 * t.val) (s.issued (.seq t) c)
  rw [← issued_posted (e := .seq t) (c := c)]
  generalize post _ _ _ (s.issued _ c) = y at hx k1 ⊢
  obtain ⟨h1, h2⟩ := charge_complete (.seq t) 0x00 s.plates.nextId (k1.plates (by decide)) (k1.clients (by decide))
  refine ⟨_, hx, h1, ?_, (((issued_only s _ c).mono (by decide)).step k1 (by decide)).trans h2⟩
  rw [← (complete_only s.plates.nextId y).host (by decide)]
  exact charge_posted _ _ _

/-- STOK's own post stands behind those of its completion: the step of a client whose command issues is not aborted. -/
theorem stok_posts (hadd : fld (c.w 0) 16 16 ≠ 0) (hfile : fld (c.w 0) 8 5 < 17) : ∃ n m, exec (.stok t c) s = .next n ∧
    Completed (s.issued (.seq t) c) m s.plates.nextId ∧
    n.plates = { m.plates with
      posts := m.plates.posts ++ [{ die := Fin.ofNat 4 (tileDie t), file := fld (c.w 0) 8 5, reg := fld (c.w 0) 0 8,
                                    count := fld (c.w 0) 16 16, eng := .seq t, client := clientOn s (tileDie t) }] } ∧
    Only (.plates :: accountParts) s n := by
  have hlive : aborted (s.issued (.seq t) c) (clientOn s (tileDie t)) = false := (issued_aborted s _ c _).trans hi.live
  refine ⟨_, complete s.plates.nextId (s.issued (.seq t) c), exec_issues hi rfl (if_neg (by omega)),
    complete_completed _ _, ?_, ?_⟩
  · dsimp only
    rw [(charge_only _ _ _).plates (by decide), issued_clientOn, hlive]
    rfl
  · dsimp only
    rw [issued_clientOn, hlive]
    exact ((((issued_only s _ c).trans (complete_only _ _)).step (only_plates _ _) (by decide)).mono (by decide)).step
      (charge_only _ _ _) (by decide)

theorem stok_reserved (h : fld (c.w 0) 16 16 = 0 ∨ 17 ≤ fld (c.w 0) 8 5) :
    ∃ n, exec (.stok t c) s = .next n ∧ RefusedCmd s n (.seq t) c :=
  exec_refused hi rfl (if_pos h)

/-- A direct SCAT whose record passes (R170, R171, R181): its entry alone is written; the command completes, or waits in
closing where it narrows a window with writes in flight. -/
theorem scat_direct (hs : (scatRec c).stage = false)
    (hk : catReason (s.issued (.seq t) c) (some (clientOn s (tileDie t))) (Fin.ofNat 4 (tileDie t) : DieId).val (scatRec c) s.cat.ents = none) :
    let id := s.plates.nextId
    let s1 := s.issued (.seq t) c
    let name := (Fin.ofNat 4 (tileDie t) : DieId).val * 4096 + (scatRec c).handle
    let new := (scatRec c).result (getEnt s name)
    let narrow := (scatRec c).win = true ∧ narrows (getEnt s name) new = true ∧ mget 0 s.cat.accepted name ≠ 0
    ∃ n m, exec (.scat t c) s = .next n ∧
      getEnt n name = new ∧ (∀ k, k ≠ name → getEnt n k = getEnt s k) ∧ Only [.cat, .plates, .mem] s1 m ∧
      m.plates.flights = s1.plates.flights ∧ m.plates.posts = s1.plates.posts ∧
      (¬ narrow → Completed m n id ∧ Only (.plates :: accountParts) m n) ∧
      (narrow → n.cat.closing = s.cat.closing ++ [{ name := name, agent := none, id := id }] ∧
        findFlight n id = some (s.flight (.seq t) c) ∧ Only (.cat :: accountParts) m n) := by
  intro id s1 name new narrow
  have hw := catWrite_direct (path := some (clientOn s (tileDie t))) (d := Fin.ofNat 4 (tileDie t)) (r := scatRec c) (s := s1) hs
    ((congrArg (catReason s1 _ _ _) (congrArg Catalog.ents issued_cat)).trans hk)
  have hent : ∀ k, getEnt s1 k = getEnt s k := fun k => getEnt_congr issued_cat k
  have hacc : s1.cat.accepted = s.cat.accepted := congrArg Catalog.accepted issued_cat
  dsimp only at hw
  rw [hent, hacc] at hw
  have hm := applyEntry_written name new (!(scatRec c).win && !(scatRec c).undef) s1
  obtain ⟨hf, hp⟩ := applyEntry_plates name new (!(scatRec c).win && !(scatRec c).undef) s1
  change catWrite _ _ _ _ = (if narrow then _ else _, applyEntry name new _ s1) at hw
  generalize applyEntry name new _ s1 = m at hw hm hf hp
  by_cases hn : narrow
  · rw [if_pos hn] at hw
    have k1 := only_cat { m.cat with closing := m.cat.closing ++ [{ name := name, agent := none, id := id }] } m
    have hcl : m.cat.closing = s.cat.closing := by rw [hm.cat, issued_cat]
    refine ⟨_, m, scat_pending hi hw, ?_, fun k hk => ?_, hm.only, hf, hp, fun h => absurd hn h, fun _ => ⟨?_, ?_, ?_⟩⟩
    · rw [getEnt_congr (charge_cat _ _ _)]
      exact hm.ent
    · rw [getEnt_congr (charge_cat _ _ _)]
      exact (hm.others k hk).trans (hent k)
    · rw [charge_cat, hcl]
    · unfold findFlight
      rw [charge_plates]
      refine Eq.trans ?_ (issued_findFlight hi)
      unfold findFlight
      rw [hf]
    · exact (k1.mono (by decide)).step (charge_only _ _ _) (by decide)
  · rw [if_neg hn] at hw
    obtain ⟨h1, h2⟩ := charge_complete (.seq t) 0x00 id (y := m) rfl rfl
    refine ⟨_, m, scat_applied hi hw, ?_, fun k hk => ?_, hm.only, hf, hp, fun _ => ⟨h1, h2⟩, fun h => absurd h hn⟩
    · rw [getEnt_congr (h2.cat (by decide)), hm.ent]
    · rw [getEnt_congr (h2.cat (by decide)), hm.others k hk, hent]

theorem scat_staged (hs : (scatRec c).stage = true)
    (hskip : ¬ ((scatRec c).stage = true ∧ (scatRec c).undef = true ∧ (mget {} (applyStaged s.cat.ents s.cat.staging)
      ((Fin.ofNat 4 (tileDie t) : DieId).val * 4096 + (scatRec c).handle)).kind = 0)) :
    let d : DieId := Fin.ofNat 4 (tileDie t)
    let r := scatRec c
    let mine := applyStaged s.cat.ents (s.cat.staging.filter fun x => decide (x.owner = stageOwner s d.val r))
    catReason (s.issued (.seq t) c) (some (clientOn s (tileDie t))) d.val r mine = none → ∃ n, exec (.scat t c) s = .next n ∧
      n.cat = { s.cat with staging := s.cat.staging ++
        [{ die := d, owner := stageOwner s d.val r, ctl := r.ctl, ent := r.result (mget {} mine (d.val * 4096 + r.handle)) }] } ∧
      Completed (s.issued (.seq t) c) n s.plates.nextId ∧ Only (.cat :: .plates :: accountParts) s n := by
  intro d r mine hk
  have hw := catWrite_staged (path := some (clientOn s (tileDie t))) (d := d) (r := r) (s := s.issued (.seq t) c) hs
    (by rw [issued_cat]; exact hskip)
  dsimp only at hw
  rw [issued_cat, stageOwner_congr issued_cat] at hw
  have hx := scat_applied hi (hw hk)
  have k1 := (issued_only s (.seq t) c).mono (ks := [.cat, .plates]) (by decide)
  have k2 := k1.step (only_cat { s.cat with staging := s.cat.staging ++
    [{ die := d, owner := stageOwner s d.val r, ctl := r.ctl, ent := r.result (mget {} mine (d.val * 4096 + r.handle)) }] } _) (by decide)
  obtain ⟨h1, h2⟩ := charge_complete (.seq t) 0x00 s.plates.nextId (s := s.issued (.seq t) c) (y := { s.issued (.seq t) c with
    cat := { s.cat with staging := s.cat.staging ++
      [{ die := d, owner := stageOwner s d.val r, ctl := r.ctl, ent := r.result (mget {} mine (d.val * 4096 + r.handle)) }] } }) rfl rfl
  exact ⟨_, hx, h2.cat (by decide), h1, (k2.mono (by decide)).step h2 (by decide)⟩

theorem scat_faults (k : Nat)
    (hskip : ¬ ((scatRec c).stage = true ∧ (scatRec c).undef = true ∧ (mget {} (applyStaged s.cat.ents s.cat.staging)
      ((Fin.ofNat 4 (tileDie t) : DieId).val * 4096 + (scatRec c).handle)).kind = 0)) :
    let d : DieId := Fin.ofNat 4 (tileDie t)
    let r := scatRec c
    let mine := applyStaged s.cat.ents (s.cat.staging.filter fun x => decide (x.owner = stageOwner s d.val r))
    catReason (s.issued (.seq t) c) (some (clientOn s (tileDie t))) d.val r (if r.stage then mine else s.cat.ents) = some k →
    ∃ n y z, exec (.scat t c) s = .next n ∧ findFlight n s.plates.nextId = none ∧
      n.plates.posts = (s.issued (.seq t) c).plates.posts ∧ n.cat = s.cat ∧
      Only (.plates :: .clients :: accountParts) (s.issued (.seq t) c) y ∧
      Raised y z 0x0307 (clientOn s (tileDie t)) (t.val + 2 ^ 6 * 3 + 2 ^ 9 * k) ∧ n = z.accounts n := by
  intro d r mine hk
  have hw := catWrite_refused (path := some (clientOn s (tileDie t))) (d := d) (r := r) (s := s.issued (.seq t) c) (k := k)
    (by rw [issued_cat]; exact hskip) (by rw [issued_cat, stageOwner_congr issued_cat]; exact hk)
  have hx := scat_refused hi hw
  have k1 : Only (.clients :: accountParts) (s.issued (.seq t) c) _ :=
    ((noteStageRefused_only (stageOwner (s.issued (.seq t) c) d.val r) r (s.issued (.seq t) c)).mono (by decide)).step
      (noteCatRefused_only (some (clientOn s (tileDie t))) d.val r.handle k _) (by decide)
  generalize noteCatRefused _ _ _ _ (noteStageRefused _ _ _) = m at hx k1
  obtain ⟨y, f1, f2, f3, f4, -, f6, -⟩ := seqFault_spec t (clientOn s (tileDie t)) s.plates.nextId 3 k m
  generalize seqFault t _ _ _ _ m = z at hx f2 f3 f4 f6
  have k3 := charge_only (.seq t) 0x00 z
  refine ⟨_, y, z, hx, ?_, ?_, ?_, (k1.mono (by decide)).step f1 (by decide), f2, charge_accounts _ _ _⟩
  · rw [findFlight_congr (k3.plates (by decide)), f3]
  · rw [k3.plates (by decide), f4, k1.plates (by decide)]
  · rw [k3.cat (by decide), f6.cat (by decide), k1.cat (by decide), issued_cat]

theorem exec_sfop : exec (.sfop t c) s =
    .next (charge (.seq t) 0x00 (sfopRun t s.plates.nextId (c.w 0) (sfopRec c) (s.issued (.seq t) c)).2) :=
  exec_issues hi rfl rfl

theorem sfop_runs (hr : fopReserved (some (clientOn s (tileDie t))) (Fin.ofNat 4 (tileDie t)) (sfopRec c) s = false)
    (hw : FopReady s (Fin.ofNat 4 (tileDie t)) (sfopRec c)) :
    let d : DieId := Fin.ofNat 4 (tileDie t)
    let e := getEnt s (d.val * 4096 + fopDh (sfopRec c))
    e.placed → (∀ o, o < e.len → s.storable (addrOf e d.val o) = true) →
    ∃ n, exec (.sfop t c) s = .next n ∧ SfopEnd (s.issued (.seq t) c) n t s.plates.nextId (c.w 0) (sfopRec c) := by
  intro d e hp hst
  have hent : getEnt (s.issued (.seq t) c) (d.val * 4096 + fopDh (sfopRec c)) = e := getEnt_congr issued_cat _
  have hstore : ∀ a, (s.issued (.seq t) c).storable a = s.storable a :=
    storable_of fun i => stackFailed_congr issued_regs i
  refine ⟨_, exec_sfop hi, sfopRun_end 0x00 (by decide) ?_ ((FopReady_congr issued_cat _ _).2 hw) ?_ fun o ho => ?_⟩
  · rw [issued_clientOn, fopReserved_congr issued_cat, hr]
  · rw [hent]
    exact hp
  · rw [hent] at ho ⊢
    rw [hstore]
    exact hst o ho

theorem sfop_waits (hr : fopReserved (some (clientOn s (tileDie t))) (Fin.ofNat 4 (tileDie t)) (sfopRec c) s = false)
    (hw : ¬ FopReady s (Fin.ofNat 4 (tileDie t)) (sfopRec c)) : ∃ n, exec (.sfop t c) s = .next n ∧
    findFlight n s.plates.nextId = some (s.flight (.seq t) c) ∧ (∃ j ∈ (getTile n t).sfops, j.id = s.plates.nextId) ∧
    Only (.tiles :: accountParts) (s.issued (.seq t) c) n := by
  have hrun := fopRun_waits (me := lockId (clientOn (s.issued (.seq t) c) (tileDie t)) (Fin.ofNat 4 (tileDie t) : DieId).val (t.val % 16))
    (own := some s.plates.nextId) (s := s.issued (.seq t) c) ((fopReserved_congr issued_cat _ _ _).trans hr)
    fun h => hw ((FopReady_congr issued_cat _ _).1 h)
  rw [← issued_clientOn s (.seq t) c (tileDie t)] at hrun
  have hx := (sfopRun_eq t s.plates.nextId (c.w 0) (sfopRec c) (s.issued (.seq t) c)).1 (by rw [hrun])
  rw [hrun] at hx
  refine ⟨_, exec_sfop hi, ?_⟩
  rw [hx]
  dsimp only
  generalize hk : (if List.any _ _ then _ else _ : List SfopWait) = keep
  have k1 := setTile_only t { getTile (s.issued (.seq t) c) t with sfops := keep } (s.issued (.seq t) c)
  have g1 := getTile_setTile (s := s.issued (.seq t) c) t t { getTile (s.issued (.seq t) c) t with sfops := keep }
  generalize setTile t _ _ = y at k1 g1
  have k2 := charge_only (.seq t) 0x00 y
  refine ⟨?_, ?_, (k1.mono (by decide)).step k2 (by decide)⟩
  · rw [findFlight_congr ((k2.plates (by decide)).trans (k1.plates (by decide)))]
    exact issued_findFlight hi
  · rw [getTile_congr (k2.tiles (by decide)), g1, if_pos rfl, ← hk]
    exact mem_ids_keep

theorem sfop_reserved (hr : fopReserved (some (clientOn s (tileDie t))) (Fin.ofNat 4 (tileDie t)) (sfopRec c) s = true) :
    ∃ n, exec (.sfop t c) s = .next n ∧ Completed (s.issued (.seq t) c) n s.plates.nextId ∧
      bit (getReg n (pltBlk t 0x400)) 4 = true ∧ Only (.tiles :: .plates :: accountParts) (s.issued (.seq t) c) n := by
  have hrun : fopRun (some (clientOn (s.issued (.seq t) c) (tileDie t)))
      (lockId (clientOn (s.issued (.seq t) c) (tileDie t)) (Fin.ofNat 4 (tileDie t) : DieId).val (t.val % 16))
      (some s.plates.nextId) (Fin.ofNat 4 (tileDie t)) (sfopRec c) (s.issued (.seq t) c) = (.reserved, s.issued (.seq t) c) := by
    unfold fopRun
    dsimp only
    rw [if_pos (by rw [issued_clientOn, fopReserved_congr issued_cat, hr])]
  have hx := (sfopRun_eq t s.plates.nextId (c.w 0) (sfopRec c) (s.issued (.seq t) c)).2.1 (by rw [hrun])
  rw [hrun] at hx
  refine ⟨_, exec_sfop hi, ?_⟩
  rw [hx]
  dsimp only
  generalize ((getTile _ t).sfops.filter _) = drop
  have k1 := setTile_only t { getTile (s.issued (.seq t) c) t with sfops := drop } (s.issued (.seq t) c)
  generalize setTile t _ _ = y at k1
  have hf : findFlight y s.plates.nextId = some (s.flight (.seq t) c) :=
    (findFlight_congr (k1.plates (by decide)) _).trans (issued_findFlight hi)
  have hw : (s.flight (.seq t) c).win.cmd = c := locate_cmd s (.seq t) c
  obtain ⟨r1, r2, r3⟩ := refuse_spec _ y hf (by rw [hw]; exact hi.header)
  have k3 := charge_only (.seq t) 0x00 (refuse s.plates.nextId y)
  refine ⟨(r1.congr (k3.plates (by decide))).from (k1.plates (by decide)) (k1.clients (by decide)), ?_,
    ((k1.mono (by decide)).step r3 (by decide)).step k3 (by decide)⟩
  have hne : pltBlk t 0x400 ≠ stallBlk (.seq t) + 8 * 0 := illegalBit_ne (.seq t) c
  rw [charge_getReg, if_neg hne]
  exact r2

end

theorem sfopRun_code_lt (t : TileId) (id : Nat) (w0 : Word) (q : FopRec) (s : State) : (sfopRun t id w0 q s).1 < 32 := by
  unfold sfopRun
  dsimp only
  split
  · exact (by decide : 0x0F < 32)
  · exact (by decide : 0x00 < 32)
  · split
    · exact (by decide : 0x16 < 32)
    · exact (by decide : 0x00 < 32)

theorem sfopRetry_runs {t : TileId} {s : State} {k : Nat} {j : SfopWait} (hj : (getTile s t).sfops[k]? = some j)
    (hr : fopReserved (some (clientOn s (tileDie t))) (Fin.ofNat 4 (tileDie t)) j.op s = false)
    (hw : FopReady s (Fin.ofNat 4 (tileDie t)) j.op) :
    let d : DieId := Fin.ofNat 4 (tileDie t)
    let e := getEnt s (d.val * 4096 + fopDh j.op)
    e.placed → (∀ o, o < e.len → s.storable (addrOf e d.val o) = true) →
    ∃ n, exec (.sfopRetry t k) s = .next n ∧ SfopEnd s n t j.id j.w0 j.op := by
  intro d e hp hst
  have hx : exec (.sfopRetry t k) s = .next (charge (.seq t) (sfopRun t j.id j.w0 j.op s).1 (sfopRun t j.id j.w0 j.op s).2) := by
    show Host.Outcome.next _ = _
    rw [hj]
  exact ⟨_, hx, sfopRun_end _ (sfopRun_code_lt _ _ _ _ _) hr hw hp hst⟩

/-- Settles O17: command by command. -/
theorem sequencerCommands : Obligations.SequencerCommands := by
  unfold Obligations.SequencerCommands
  intro t c s e s1 id cl d r name new narrow skip mine q de
  exact ⟨fun hi => ⟨snop_completes hi, sevent_completes hi, stok_posts hi, stok_reserved hi, scat_direct hi, scat_staged hi,
    scat_faults hi, sfop_runs hi, sfop_waits hi, sfop_reserved hi⟩, fun k j hj => sfopRetry_runs hj⟩

end Sys2Proof.Machine
end

section
/-! The array's commands at their issue (R90 to R96, R101, R458). -/

namespace Sys2Proof.Machine

/-- From s to n tile t's array has become x; nothing else has changed but the plates and accounts. -/
def ArrayLeft (t : TileId) (x : ArrayS) (s n : State) : Prop :=
  getTile n t = { getTile s t with arr := x } ∧ (∀ u : TileId, u ≠ t → getTile n u = getTile s u) ∧
  Only (.tiles :: .plates :: accountParts) s n

/-- In n an array command that s has issued is noted as reserved: the ILLEGAL bit and the event (R5). -/
def ArrayNoted (t : TileId) (c : PCmd) (s n : State) : Prop :=
  bit (getReg n (pltBlk t 0x400)) 4 = true ∧
  (post 0x0201 (clientOn s (tileDie t)) (illegalDetail (.array t) (s.issuedCmd (.array t) c)) s).host.posted <+: n.host.posted

theorem issued_getArr (s : State) (e : Eng) (c : PCmd) (t : TileId) : getArr (s.issued e c) t = getArr s t :=
  congrArg Tile.arr (getTile_congr issued_tiles t)

theorem refuse_issued {s : State} {e : Eng} {c : PCmd} (hi : s.Issues e c) : refuse s.plates.nextId (s.issued e c) =
    complete s.plates.nextId (noteIllegal e (clientOn s (engDie e)) (s.issuedCmd e c) (s.issued e c)) := by
  unfold refuse
  rw [issued_findFlight hi]
  rfl

/-- What is left of an array stored in the state of an issue, behind what leaves the tiles alone. -/
theorem setArr_left {s y n : State} {t : TileId} {x : ArrayS} (hy : Only (.plates :: accountParts) s y)
    (hn : Only (.plates :: accountParts) (setArr t x y) n) : ArrayLeft t x s n := by
  have hg : ∀ u, getTile n u = if u = t then { getTile s t with arr := x } else getTile s u := fun u => by
    rw [getTile_congr (hn.tiles (by decide)), getTile_setArr, getTile_congr (hy.tiles (by decide)), getTile_congr (hy.tiles (by decide))]
  exact ⟨(hg t).trans (if_pos rfl), fun u hu => (hg u).trans (if_neg hu),
    ((hy.mono (by decide)).step (setArr_only _ _ _) (by decide)).step hn (by decide)⟩

section
variable {t : TileId} {c : PCmd} {s : State} (hi : s.Issues (.array t) c)

/-- The reserved command's note at its issue keeps everything but accounts. -/
theorem noteIllegal_issued (hi : s.Issues (.array t) c) : Only accountParts (s.issued (.array t) c)
    (noteIllegal (.array t) (clientOn s (tileDie t)) (s.issuedCmd (.array t) c) (s.issued (.array t) c)) :=
  (noteIllegal_spec (by rw [show (s.issuedCmd (.array t) c).cmd = c from locate_cmd s _ c]; exact hi.header)).2.2

include hi

theorem bankSwap_completes : ∃ n, exec (.bankSwap t c) s = .next n ∧ Completed (s.issued (.array t) c) n s.plates.nextId ∧
    Only (.plates :: accountParts) s n := by
  obtain ⟨h1, h2⟩ := charge_complete (.array t) 0x00 s.plates.nextId (y := s.issued (.array t) c) rfl rfl
  exact ⟨_, exec_issues hi rfl rfl, h1, ((issued_only s _ c).mono (by decide)).trans h2⟩

theorem modeSet_applies (h : ¬ (bit (c.w 0) 2 = true ∧ fld (c.w 0) 20 16 = 0)) :
    ∃ n, exec (.modeSet t c) s = .next n ∧ ArrayLeft t (setModes (c.w 0) (getArr s t)) s n ∧
    Completed (s.issued (.array t) c) n s.plates.nextId := by
  obtain ⟨h1, h2⟩ := charge_complete (.array t) 0x00 s.plates.nextId
    (y := setArr t (setModes (c.w 0) (getArr s t)) (s.issued (.array t) c)) rfl rfl
  refine ⟨_, exec_issues hi rfl ?_, setArr_left ((issued_only s _ c).mono (by decide)) h2, h1⟩
  rw [if_neg h, issued_getArr]

theorem modeSet_reserved (h : bit (c.w 0) 2 = true ∧ fld (c.w 0) 20 16 = 0) :
    ∃ n, exec (.modeSet t c) s = .next n ∧ RefusedCmd s n (.array t) c :=
  exec_refused hi rfl (if_pos h)

/-- A command that queues its job: what it stores is the array with the job. -/
theorem exec_queues {i : Instr} {k : State → WinCmd → Nat → State} {x : ArrayS}
    (hx : exec i s = .next (withIssue none (.array t) c s k))
    (hk : k (s.issued (.array t) c) (s.issuedCmd (.array t) c) s.plates.nextId = setArr t x (s.issued (.array t) c)) :
    ∃ n, exec i s = .next n ∧ StaysIssued s n (.array t) c ∧ ArrayLeft t x s n :=
  ⟨_, exec_issues hi hx hk, queued_spec hi x (Only.rfl' _)⟩

/-- A reserved command that stays in progress to take what it would have taken (R458): it is noted, and its job queued. -/
theorem exec_stays {i : Instr} {k : State → WinCmd → Nat → State} {x : ArrayS}
    (hx : exec i s = .next (withIssue none (.array t) c s k))
    (hk : k (s.issued (.array t) c) (s.issuedCmd (.array t) c) s.plates.nextId = setArr t x
      (noteIllegal (.array t) (clientOn s (tileDie t)) (s.issuedCmd (.array t) c) (s.issued (.array t) c))) :
    ∃ n, exec i s = .next n ∧ StaysIssued s n (.array t) c ∧ ArrayLeft t x s n ∧ ArrayNoted t c s n := by
  obtain ⟨hruns, hleft⟩ := queued_spec hi x (noteIllegal_issued hi)
  exact ⟨_, exec_issues hi hx hk, hruns, hleft, noted_spec hi rfl rfl⟩

theorem loadStat_queues (h1 : 1 ≤ (loadJob c s.plates.nextId).lines) (h2 : (loadJob c s.plates.nextId).lines ≤ 256)
    (h3 : 1 ≤ (loadJob c s.plates.nextId).llen) (h4 : (loadJob c s.plates.nextId).llen ≤ 256) :
    let lj := loadJob c s.plates.nextId
    let a := getArr s t
    ∃ n, exec (.loadStat t c) s = .next n ∧ StaysIssued s n (.array t) c ∧
      ArrayLeft t (startWake (loadDims lj).1 (loadDims lj).2 { a with loads := a.loads ++ [lj], credit := a.credit + 1 }) s n := by
  refine exec_queues hi rfl ?_
  dsimp only
  rw [if_neg (by omega), issued_getArr]

theorem loadStat_noLines (h : (loadJob c s.plates.nextId).lines = 0) :
    ∃ n, exec (.loadStat t c) s = .next n ∧ RefusedCmd s n (.array t) c := by
  refine exec_refused hi rfl ?_
  dsimp only
  rw [if_pos (.inl h), if_pos h, issued_clientOn, refuse_issued hi]
  rfl

theorem loadStat_stays (h1 : 1 ≤ (loadJob c s.plates.nextId).lines) (h : ¬ ((loadJob c s.plates.nextId).lines ≤ 256 ∧
      1 ≤ (loadJob c s.plates.nextId).llen ∧ (loadJob c s.plates.nextId).llen ≤ 256)) :
    let lj := loadJob c s.plates.nextId
    let a := getArr s t
    ∃ n, exec (.loadStat t c) s = .next n ∧ StaysIssued s n (.array t) c ∧
      ArrayLeft t { a with loads := a.loads ++ [{ lj with bad := true }], credit := a.credit + 1 } s n ∧ ArrayNoted t c s n := by
  refine exec_stays hi rfl ?_
  dsimp only
  rw [if_pos (by omega), if_neg (by omega), issued_clientOn, issued_getArr]

theorem pass_queues (h : passReserved (clientOn s (tileDie t)) (getArr s t)
      (passJob t c (s.issuedCmd (.array t) c) s.plates.nextId (s.issued (.array t) c)) = false) :
    ∃ n, exec (.pass t c) s = .next n ∧ StaysIssued s n (.array t) c ∧
      ArrayLeft t (queuePass (passJob t c (s.issuedCmd (.array t) c) s.plates.nextId (s.issued (.array t) c)) (getArr s t)) s n := by
  refine exec_queues hi rfl ?_
  dsimp only
  rw [issued_getArr, issued_clientOn, h, if_neg Bool.false_ne_true]

theorem pass_stays :
    let pj := passJob t c (s.issuedCmd (.array t) c) s.plates.nextId (s.issued (.array t) c)
    let a := getArr s t
    let a1 := if pj.takes then { a with credit := a.credit - 1 } else a
    passReserved (clientOn s (tileDie t)) a pj = true → ¬ ((pj.gather = true ∨ pj.m = 0) ∧ pj.takes = false) →
    ∃ n, exec (.pass t c) s = .next n ∧ StaysIssued s n (.array t) c ∧
      ArrayLeft t { a1 with passes := a.passes ++ [{ pj with bad := true }] } s n ∧ ArrayNoted t c s n := by
  intro pj a a1 hr hrows
  have ha1 : a1.passes = a.passes := by
    unfold a1
    split <;> rfl
  refine exec_stays hi rfl ?_
  dsimp only
  rw [issued_getArr, issued_clientOn, if_pos hr, if_neg (by grind)]
  change setArr t { a1 with passes := a1.passes ++ _ } _ = _
  rw [ha1]

theorem pass_completes :
    let pj := passJob t c (s.issuedCmd (.array t) c) s.plates.nextId (s.issued (.array t) c)
    let a := getArr s t
    passReserved (clientOn s (tileDie t)) a pj = true → (pj.gather = true ∨ pj.m = 0) ∧ pj.takes = false →
    ∃ n, exec (.pass t c) s = .next n ∧ Completed (s.issued (.array t) c) n s.plates.nextId ∧ ArrayLeft t a s n ∧ ArrayNoted t c s n := by
  intro pj a hr hrows
  have k1 := noteIllegal_issued hi
  obtain ⟨h1, h2⟩ := charge_complete (.array t) 0x00 s.plates.nextId (s := s.issued (.array t) c)
    (y := setArr t a (noteIllegal (.array t) (clientOn s (tileDie t)) (s.issuedCmd (.array t) c) (s.issued (.array t) c)))
    (k1.plates (by decide)) (k1.clients (by decide))
  have kc := complete_only s.plates.nextId
    (setArr t a (noteIllegal (.array t) (clientOn s (tileDie t)) (s.issuedCmd (.array t) c) (s.issued (.array t) c)))
  refine ⟨_, exec_issues hi rfl ?_, h1, setArr_left (((issued_only s _ c).mono (by decide)).step k1 (by decide)) h2,
    noted_spec hi (kc.regs (by decide)) (kc.host (by decide))⟩
  dsimp only
  rw [issued_getArr, issued_clientOn, if_pos hr, if_pos (by grind)]
  rw [if_neg (by rw [show _ = false from hrows.2]; exact Bool.false_ne_true)]

theorem drain_queues :
    let dj := drainJob t c (s.issuedCmd (.array t) c) s.plates.nextId (s.issued (.array t) c)
    drainBad (clientOn s (tileDie t)) (entryOf (s.issued (.array t) c) (s.issuedCmd (.array t) c)
      (tileDie t * 4096 + specHandle (c.w 1))) dj = false → ∃ n, exec (.drain t c) s = .next n ∧ StaysIssued s n (.array t) c ∧
      ArrayLeft t { getArr s t with drains := (getArr s t).drains ++ [dj] } s n := by
  intro dj h
  refine exec_queues hi rfl ((if_neg ?_).trans (by rw [issued_getArr]))
  rw [issued_clientOn]
  exact Bool.not_eq_true _ ▸ h

theorem drain_reserved (h : drainBad (clientOn s (tileDie t)) (entryOf (s.issued (.array t) c) (s.issuedCmd (.array t) c)
      (tileDie t * 4096 + specHandle (c.w 1))) (drainJob t c (s.issuedCmd (.array t) c) s.plates.nextId (s.issued (.array t) c)) = true) :
    ∃ n, exec (.drain t c) s = .next n ∧ RefusedCmd s n (.array t) c := by
  refine exec_refused hi rfl (if_pos ?_)
  rw [issued_clientOn]
  exact h

end

/-- Settles O18: command by command. -/
theorem arrayCommands : Obligations.ArrayCommands := by
  unfold Obligations.ArrayCommands
  intro t c s e s1 id cl a lj pj dj a1 left runs noted hi
  exact ⟨bankSwap_completes hi, modeSet_applies hi, modeSet_reserved hi, loadStat_queues hi, loadStat_noLines hi,
    loadStat_stays hi, pass_queues hi, pass_stays hi, pass_completes hi, drain_queues hi, drain_reserved hi⟩

end Sys2Proof.Machine
end

section
/-! Hatch commands at their issue (R138 to R142, R146, R147, R459). -/

namespace Sys2Proof.Machine

theorem issued_slotBytesOf (s : State) (e : Eng) (c : PCmd) (d slot : Nat) :
    slotBytesOf (s.issued e c) d slot = slotBytesOf s d slot := by
  unfold slotBytesOf getReg
  rw [issued_regs]

/-- The state in which HSNAP has copied its slot to its handle, unless NOCOPY stands (R147). -/
def snapCopied (cl : Nat) (c : PCmd) (buf : Nat) (ent : Entry) (off : Nat) (bs : List Byte) (s : State) : State :=
  if (!bit (c.w 0) 40) = true then putBuf cl buf ent off bs s else s

theorem snapCopied_nocopy {cl buf off : Nat} {c : PCmd} {ent : Entry} {bs : List Byte} {s : State} (h : bit (c.w 0) 40 = true) :
    snapCopied cl c buf ent off bs s = s := by
  simp [snapCopied, h]

theorem snapCopied_wrote {cl buf off : Nat} {c : PCmd} {ent : Entry} {bs : List Byte} {s : State} (hp : ent.placed)
    (h : bit (c.w 0) 40 = false) : WroteBuf s (snapCopied cl c buf ent off bs s) buf ent off bs := by
  simp only [snapCopied, h]
  exact putBuf_wrote cl buf hp off bs s

section
variable {d : DieId} {u : Fin 4} {c : PCmd} {s : State} (hi : s.Issues (.hatch d u) c)
include hi

/-- A Hatch command that goes to work: its unit holds its job (R139, R141). -/
theorem exec_hatchWorks {i : Instr} {k : State → WinCmd → Nat → State} {j : HJob}
    (hx : exec i s = .next (withIssue none (.hatch d u) c s k))
    (hk : k (s.issued (.hatch d u) c) (s.issuedCmd (.hatch d u) c) s.plates.nextId =
      setHatch d.val u.val (some j) (s.issued (.hatch d u) c)) :
    ∃ n, exec i s = .next n ∧ n.plates = (s.issued (.hatch d u) c).plates ∧
      findFlight n s.plates.nextId = some (s.flight (.hatch d u) c) ∧ getHatch n d.val u.val = some j ∧
      (∀ k v, unitKey k v ≠ unitKey d.val u.val → getHatch n k v = getHatch s k v) ∧
      n.units = { s.units with hatch := n.units.hatch } ∧ Only (.units :: .plates :: accountParts) s n := by
  obtain ⟨n, hn, ⟨hp, hf⟩, hu, ho⟩ := exec_works hi hx (v := { s.units with
    hatch := mset none s.units.hatch (unitKey d.val u.val) (some j) }) (by rw [hk, setHatch, issued_units])
  have hget : ∀ k v, getHatch n k v = if unitKey k v = unitKey d.val u.val then some j else getHatch s k v := fun k v => by
    unfold getHatch
    rw [hu, mget_mset]
  exact ⟨n, hn, hp, hf, (hget _ _).trans (if_pos rfl), fun k v h => (hget k v).trans (if_neg h), by rw [hu], ho⟩

theorem hctx_sets :
    let t : TileId := Fin.ofNat 64 (16 * d.val + 4 * u.val + fld (c.w 0) 0 2)
    ∃ n, exec (.hctx d u c) s = .next n ∧ getLane n t = { getLane s t with c0 := c.w 1, c1 := c.w 2 } ∧
      (∀ v : TileId, v ≠ t → getLane n v = getLane s v) ∧ Finished (s.issued (.hatch d u) c) n s.plates.nextId ∧
      n.units = { s.units with lanes := n.units.lanes } ∧ Only (.units :: .plates :: accountParts) s n := by
  intro t
  have hx : exec (.hctx d u c) s = .next (charge (.hatch d u) 0x00 (complete s.plates.nextId
      (setLane t { getLane s t with c0 := c.w 1, c1 := c.w 2 } (s.issued (.hatch d u) c)))) :=
    exec_issues hi rfl (by dsimp only; rw [getLane_congr issued_units])
  have hl := fun v => getLane_setLane t v { getLane s t with c0 := c.w 1, c1 := c.w 2 } (s.issued (.hatch d u) c)
  have hu : (setLane t { getLane s t with c0 := c.w 1, c1 := c.w 2 } (s.issued (.hatch d u) c)).units =
      { s.units with lanes := (setLane t { getLane s t with c0 := c.w 1, c1 := c.w 2 } (s.issued (.hatch d u) c)).units.lanes } := by
    rw [setLane, issued_units]
  have k1 := setLane_only t { getLane s t with c0 := c.w 1, c1 := c.w 2 } (s.issued (.hatch d u) c)
  generalize setLane t _ _ = y at hx hl hu k1
  obtain ⟨h1, h2⟩ := charge_complete (.hatch d u) 0x00 s.plates.nextId (y := y) rfl rfl
  have hlane := fun v => (getLane_congr (h2.units (by decide)) v).trans (hl v)
  refine ⟨_, hx, (hlane t).trans (if_pos rfl), fun v hv => ?_, ⟨y, k1.plates (by decide), h1⟩, ?_,
    (((issued_only s _ c).mono (by decide)).step k1 (by decide)).step h2 (by decide)⟩
  · rw [hlane, if_neg hv, getLane_congr issued_units]
  · rw [h2.units (by decide)]
    exact hu

/-- HSNAP of an owned slot: the copy, where it is asked for, then the clearing of the slot (R147, R459). -/
theorem hsnap_snaps :
    let slot := fld (c.w 0) 0 10
    let off := fld (c.w 1) 0 36
    let buf := d.val * 4096 + fld (c.w 0) 12 12
    let ent := entryOf (s.issued (.hatch d u) c) (s.issuedCmd (.hatch d u) c) buf
    slotOwned (s.issued (.hatch d u) c) (clientOn s d.val) slot = true ∧
      (bit (c.w 0) 40 = false → ent.ownedBy (clientOn s d.val) = true ∧ off % 8 = 0 ∧ off + 592 ≤ ent.len) → ent.placed →
    ∃ n y, exec (.hsnap d u c) s = .next n ∧
      (bit (c.w 0) 40 = true → y = s.issued (.hatch d u) c) ∧
      (bit (c.w 0) 40 = false → WroteBuf (s.issued (.hatch d u) c) y buf ent off (slotBytesOf s d.val slot)) ∧
      (∀ k, 1 ≤ k → k < 74 → getReg n (statBlk d.val slot (8 * k)) =
        if bit (c.w 0) 10 = true then 0 else getReg y (statBlk d.val slot (8 * k))) ∧
      (getReg n (statBlk d.val slot 0) =
        let v := if bit (c.w 0) 10 = true then setFld (getReg y (statBlk d.val slot 0)) 16 1 0 else getReg y (statBlk d.val slot 0)
        if bit (c.w 0) 11 = true then setFld v 0 16 (fld (c.w 0) 24 16) else v) ∧
      Completed y n s.plates.nextId ∧ Only (.plates :: accountParts) y n := by
  intro slot off buf ent hgood hplaced
  have hx := exec_issues (i := .hsnap d u c) hi rfl (if_neg (by
    rw [issued_clientOn, snap_reserved]
    exact not_not.2 hgood))
  dsimp only at hx
  rw [issued_clientOn] at hx
  have hsnap := snap_end d u slot (fld_lt' _ _ _) s.plates.nextId (bit (c.w 0) 10) (bit (c.w 0) 11) (fld (c.w 0) 24 16)
    (snapCopied (clientOn s d.val) c buf ent off (slotBytesOf s d.val slot) (s.issued (.hatch d u) c))
  refine ⟨_, snapCopied (clientOn s d.val) c buf ent off (slotBytesOf s d.val slot) (s.issued (.hatch d u) c), ?_,
    snapCopied_nocopy, snapCopied_wrote hplaced, hsnap⟩
  rw [← issued_slotBytesOf s (.hatch d u) c]
  exact hx

theorem hsnap_reserved (h : ¬ (slotOwned (s.issued (.hatch d u) c) (clientOn s d.val) (fld (c.w 0) 0 10) = true ∧
    (bit (c.w 0) 40 = false →
      (entryOf (s.issued (.hatch d u) c) (s.issuedCmd (.hatch d u) c) (d.val * 4096 + fld (c.w 0) 12 12)).ownedBy (clientOn s d.val) = true ∧
      fld (c.w 1) 0 36 % 8 = 0 ∧
      fld (c.w 1) 0 36 + 592 ≤ (entryOf (s.issued (.hatch d u) c) (s.issuedCmd (.hatch d u) c) (d.val * 4096 + fld (c.w 0) 12 12)).len))) :
    ∃ n, exec (.hsnap d u c) s = .next n ∧ RefusedCmd s n (.hatch d u) c := by
  refine exec_refused hi rfl (if_pos ?_)
  rw [issued_clientOn, snap_reserved]
  exact h

end

/-- Settles O36: command by command. -/
theorem hatchCommands : Obligations.HatchCommands := by
  unfold Obligations.HatchCommands
  intro d u c s e s1 w id cl own name src dst rcd sa da bytes bspan goodConv goodStat works slot off buf ent goodSnap hi
  refine ⟨fun h => exec_hatchWorks hi rfl ?_, fun h => exec_refused hi rfl ?_, fun h => exec_hatchWorks hi rfl ?_,
    fun h => exec_refused hi rfl ?_, hctx_sets hi, hsnap_snaps hi, hsnap_reserved hi⟩
  · refine if_neg ?_
    rw [issued_clientOn, conv_reserved]
    exact not_not.2 h
  · refine if_pos ?_
    rw [issued_clientOn, conv_reserved]
    exact h
  · refine if_neg ?_
    rw [issued_clientOn, stat_reserved]
    exact not_not.2 h
  · refine if_pos ?_
    rw [issued_clientOn, stat_reserved]
    exact h

end Sys2Proof.Machine
end

section
/-! Counterproof engines: CPT at its issue, and the lines that a cycle writes and reads (R140, R148, R149). -/

namespace Sys2Proof.Machine

theorem cpt_queues {d : DieId} {u : Fin 4} {c : PCmd} {s : State} {j : CJob} {k : State → WinCmd → Nat → State} (hi : s.Issues (.cpt d u) c)
    (hx : exec (.cpt d u c) s = .next (withIssue none (.cpt d u) c s k))
    (hk : k (s.issued (.cpt d u) c) (s.issuedCmd (.cpt d u) c) s.plates.nextId =
      setCpt d.val u.val (getCpt (s.issued (.cpt d u) c) d.val u.val ++ [j]) (s.issued (.cpt d u) c)) :
    ∃ n, exec (.cpt d u c) s = .next n ∧ n.plates = (s.issued (.cpt d u) c).plates ∧
      findFlight n s.plates.nextId = some (s.flight (.cpt d u) c) ∧ getCpt n d.val u.val = getCpt s d.val u.val ++ [j] ∧
      n.units = { s.units with cpt := n.units.cpt } ∧ Only (.units :: .plates :: accountParts) s n := by
  obtain ⟨n, hn, ⟨hp, hf⟩, hu, ho⟩ := exec_works hi hx (v := { s.units with
    cpt := mset [] s.units.cpt (unitKey d.val u.val) (getCpt s d.val u.val ++ [j]) })
    (by rw [hk, setCpt, getCpt_congr issued_units, issued_units])
  refine ⟨n, hn, hp, hf, ?_, by rw [hu], ho⟩
  show mget [] n.units.cpt _ = _
  rw [hu, mget_mset_same]

theorem charge_setCpt (e : Eng) (k d u : Nat) (js : List CJob) (s : State) :
    (charge e k (setCpt d u js s)).mem = s.mem ∧ (charge e k (setCpt d u js s)).plates = s.plates ∧
    getCpt (charge e k (setCpt d u js s)) d u = js ∧ Only (.units :: accountParts) s (charge e k (setCpt d u js s)) := by
  have k2 := charge_only e k (setCpt d u js s)
  exact ⟨k2.mem (by decide), k2.plates (by decide), by rw [getCpt_congr (k2.units (by decide)), getCpt_set],
    ((only_units _ s).mono (by decide)).step k2 (by decide)⟩

theorem cptRead_only (d u cl : Nat) (s : State) : Only (.units :: accessParts) s ((cptRead d u cl s).getD s) := by
  cases hr : cptRead d u cl s with
  | none => exact Only.rfl' _
  | some n => exact (cptRead_kept d u cl (Kept.rfl' s) hr (by decide)).only

theorem cptRead_none (d u cl : Nat) (s : State)
    (h : ∀ k, ¬ (((getCpt s d u).take 2).find? (fun k => decide (k.lines.length < cptR k.cmd)) = some k ∧
      rowsReady s k.src.1 k.src.2 ((cptSrc k.cmd).row + k.lines.length) 1 false = true)) : cptRead d u cl s = none := by
  unfold cptRead
  dsimp only
  cases hk : ((getCpt s d u).take 2).find? (fun k => decide (k.lines.length < cptR k.cmd)) with
  | none => rfl
  | some k => exact if_pos fun hr => h k ⟨hk, hr⟩

section
variable {d : DieId} {u : Fin 4} {s : State}

theorem cptLine_idle (h : getCpt s d.val u.val = []) : exec (.cptLine d u) s = .next s := by
  show execCptLine d u s = _
  unfold execCptLine
  dsimp only
  rw [if_pos (by rw [h]; rfl)]

variable {j : CJob} {rest : List CJob} (hj : getCpt s d.val u.val = j :: rest)
include hj

theorem cptWrite_none (h : ¬ (cptR j.cmd ≤ j.lines.length ∧ rowsReady s j.dst.1 j.dst.2 ((cptDst j.cmd).row + j.outs) 1 true = true)) :
    cptWrite d.val u.val (clientOn s d.val) s = none := by
  refine (cptWrite_spec d u (clientOn s d.val) s j rest hj).1 ?_
  rw [← Bool.not_eq_true, ← Nat.not_le]
  exact not_and_or.1 h

theorem cptLine_writes (hw : cptR j.cmd ≤ j.lines.length ∧ rowsReady s j.dst.1 j.dst.2 ((cptDst j.cmd).row + j.outs) 1 true = true)
    (hp : j.dst.2.placed) : ∃ n y m, exec (.cptLine d u) s = .next n ∧
      WroteRun s m j.dst.1 j.dst.2 ((cptDst j.cmd).row + j.outs) (cptDst j.cmd).col
        (narrowAt s (clientOn s d.val) j.dst.2 ⟨j.cmd.w 3, j.cmd.w 4⟩ ((cptDst j.cmd).row + j.outs) (cptDst j.cmd).col
          (j.lines.map fun l => nth DVal.nan l j.outs)) ∧ y.mem = m.mem ∧
      (if j.outs + 1 = (cptDst j.cmd).rows then getCpt y d.val u.val = rest ∧ Finished s y j.id
        else ∃ k, getCpt y d.val u.val = k :: rest ∧ k.id = j.id ∧ k.cmd = j.cmd ∧ k.src = j.src ∧ k.dst = j.dst ∧
          k.lines = j.lines ∧ k.outs = j.outs + 1 ∧ y.plates = s.plates) ∧
      n = charge (.cpt d u) 0x00 ((cptRead d.val u.val (clientOn s d.val) y).getD y) ∧
      SameBytes y ((cptRead d.val u.val (clientOn s d.val) y).getD y) ∧
      Only (.units :: .plates :: .cat :: accessParts) s n := by
  obtain ⟨y, m, hy, hrun, hmem, hjobs, k1⟩ := (cptWrite_spec d u (clientOn s d.val) s j rest hj).2 hw.1 hw.2 hp
  exact ⟨_, y, m, (cptLine_exec d u s j rest hj).1 y hy, hrun, hmem, hjobs, rfl, cptRead_bytes _ _ _ u.isLt y,
    (k1.step (cptRead_only _ _ _ y) (by decide)).step (charge_only _ _ _) (by decide)⟩

theorem cptLine_reads (k : CJob)
    (hw : ¬ (cptR j.cmd ≤ j.lines.length ∧ rowsReady s j.dst.1 j.dst.2 ((cptDst j.cmd).row + j.outs) 1 true = true))
    (hr : ((j :: rest).take 2).find? (fun k => decide (k.lines.length < cptR k.cmd)) = some k ∧
      rowsReady s k.src.1 k.src.2 ((cptSrc k.cmd).row + k.lines.length) 1 false = true) :
    ∃ n y, exec (.cptLine d u) s = .next n ∧
      let m := (f32 (BitVec.ofNat 32 (fld (k.cmd.w 2) 32 32))).toRat
      let read := readVals false d.val u.val (clientOn s d.val) k.src.1 k.src.2 ((cptSrc k.cmd).row + k.lines.length)
        (cptSrc k.cmd).col (cptSrc k.cmd).cols m s
      SameBytes s y ∧ n.mem = y.mem ∧ n.plates = s.plates ∧
      getCpt n d.val u.val = (j :: rest).map (fun i => if i.id = k.id then
        { i with lines := i.lines ++ [read.1], fold := { i.fold with srcViols := i.fold.srcViols + read.2.1 } } else i) ∧
      Only (.units :: accessParts) s n := by
  obtain ⟨y, hy, hsame, k1⟩ := cptRead_some d.val u.val (clientOn s d.val) u.isLt s _ hj k hr.1 hr.2 rfl
  obtain ⟨hmem, hplates, hjobs, k2⟩ := charge_setCpt (.cpt d u) 0x00 d.val u.val _ y
  exact ⟨_, y, (cptLine_exec d u s j rest hj).2.1 _ (cptWrite_none hj hw) hy, fun a => hsame.peekByte a, hmem,
    hplates.trans (k1.plates (by decide)), hjobs, (k1.mono (by decide)).step k2 (by decide)⟩

theorem cptLine_waits
    (hw : ¬ (cptR j.cmd ≤ j.lines.length ∧ rowsReady s j.dst.1 j.dst.2 ((cptDst j.cmd).row + j.outs) 1 true = true))
    (hr : ∀ k, ¬ (((j :: rest).take 2).find? (fun k => decide (k.lines.length < cptR k.cmd)) = some k ∧
      rowsReady s k.src.1 k.src.2 ((cptSrc k.cmd).row + k.lines.length) 1 false = true)) :
    exec (.cptLine d u) s = .next (charge (.cpt d u) 0x0F s) :=
  (cptLine_exec d u s j rest hj).2.2 (cptWrite_none hj hw) (cptRead_none _ _ _ s (by rw [hj]; exact hr))

end

/-- Settles O39: CPT by the checks of R140, a cycle by what is ready to be written and read. -/
theorem counterproofCommands : Obligations.CounterproofCommands := by
  unfold Obligations.CounterproofCommands
  refine ⟨?_, fun d u s => cptLine_idle, fun d u s j rest hj => ⟨cptLine_writes hj, cptLine_reads hj, cptLine_waits hj⟩⟩
  intro d u c s e s1 w id cl name src dst good hi
  refine ⟨fun h => cpt_queues hi rfl (if_neg ?_), fun h => exec_refused hi rfl (if_pos ?_)⟩
  · rw [issued_clientOn, cpt_reserved]
    exact not_not.2 h
  · rw [issued_clientOn, cpt_reserved]
    exact h

end Sys2Proof.Machine
end

section
/-! DMA commands at their issue, and the end of a descriptor (R151 to R155). -/

namespace Sys2Proof.Machine

/-- From s to n queue k has become q with the marks at its head in effect and complete, and no other queue has changed (R155). -/
def MarksSettled (k : Nat) (q : DmaQ) (s n : State) : Prop :=
  (getDma n k).descs = q.descs.dropWhile (·.mark) ∧ (getDma n k).staged = q.staged ∧ (getDma n k).burst = q.burst ∧
  ((getDma n k).high, (getDma n k).low) = (match (q.descs.takeWhile (·.mark)).getLast? with
    | some m => (fld m.w0 3 7, fld m.w0 10 7)
    | none => (q.high, q.low)) ∧
  (∀ m ∈ q.descs.takeWhile (·.mark), findFlight n m.id = none) ∧ ∀ j, j ≠ k → getDma n j = getDma s j

theorem settleMarks_settled {k n : Nat} {q : DmaQ} {s y : State} (hk : getDma y k = q) (hj : ∀ j, j ≠ k → getDma y j = getDma s j)
    (hn : q.descs.length ≤ n) : MarksSettled k q s (settleMarks k n y) ∧
      (∀ i, findFlight y i = none → findFlight (settleMarks k n y) i = none) ∧ Only [.plates, .units] y (settleMarks k n y) := by
  subst hk
  obtain ⟨h1, h2, h3, h4, h5, h6, h7, h8⟩ := settleMarks_spec k n y hn
  exact ⟨⟨h1, h2, h3, h4, h5, fun j h => (h7 j h).trans (hj j h)⟩, h6, h8⟩

theorem MarksSettled.congr {k : Nat} {q : DmaQ} {s n m : State} (h : MarksSettled k q s n) (hu : m.units = n.units)
    (hp : m.plates = n.plates) : MarksSettled k q s m := by
  obtain ⟨h1, h2, h3, h4, h5, h6⟩ := h
  have hd := getDma_congr hu
  unfold MarksSettled
  simp only [hd, findFlight_congr hp]
  exact ⟨h1, h2, h3, h4, h5, h6⟩

section
variable {d : DieId} {e : Fin 2} {c : PCmd} {s : State} (hi : s.Issues (.dma d e) c)
include hi

theorem dmadesc_queues :
    let x0 : DDesc := { id := s.plates.nextId, mark := false, w0 := c.w 0, w1 := c.w 1, w2 := c.w 2, w3 := c.w 3, w4 := c.w 4 }
    let x := { x0 with src := (s.issuedCmd (.dma d e) c).ent x0.sname, dst := (s.issuedCmd (.dma d e) c).ent x0.dname }
    let k := dmaKey d.val e.val (fld (c.w 0) 3 3)
    dmaReserved (s.issued (.dma d e) c) (clientOn s d.val) d.val e.val x = false → ∃ n, exec (.dmadesc d e c) s = .next n ∧
      getDma n k = { getDma s k with descs := (getDma s k).descs ++ [x] } ∧ (∀ j, j ≠ k → getDma n j = getDma s j) ∧
      n.plates = (s.issued (.dma d e) c).plates ∧ findFlight n s.plates.nextId = some (s.flight (.dma d e) c) ∧
      Only (.units :: .plates :: accountParts) s n := by
  intro x0 x k h
  have hk := exec_works (i := .dmadesc d e c) hi rfl (v := { s.units with
    dma := mset {} s.units.dma k { getDma s k with descs := (getDma s k).descs ++ [x] } }) (by
      refine (if_neg ?_).trans ?_
      · rw [issued_clientOn]
        exact (Bool.not_eq_true _).symm ▸ h
      · dsimp only
        rw [getDma_congr issued_units, setDma, issued_units])
  obtain ⟨n, hn, ⟨hp, hf⟩, hu, ho⟩ := hk
  have hget : ∀ j, getDma n j = if j = k then { getDma s k with descs := (getDma s k).descs ++ [x] } else getDma s j := fun j => by
    unfold getDma
    rw [hu, mget_mset]
    rfl
  exact ⟨n, hn, (hget k).trans (if_pos rfl), fun j hj => (hget j).trans (if_neg hj), hp, hf, ho⟩

theorem dmadesc_reserved :
    let x0 : DDesc := { id := s.plates.nextId, mark := false, w0 := c.w 0, w1 := c.w 1, w2 := c.w 2, w3 := c.w 3, w4 := c.w 4 }
    let x := { x0 with src := (s.issuedCmd (.dma d e) c).ent x0.sname, dst := (s.issuedCmd (.dma d e) c).ent x0.dname }
    dmaReserved (s.issued (.dma d e) c) (clientOn s d.val) d.val e.val x = true →
    ∃ n, exec (.dmadesc d e c) s = .next n ∧ RefusedCmd s n (.dma d e) c := by
  intro x0 x h
  refine exec_refused hi rfl (if_pos ?_)
  rw [issued_clientOn]
  exact h

theorem dmamark_settles
    (h : 1 ≤ fld (c.w 0) 3 7 ∧ fld (c.w 0) 3 7 ≤ 64 ∧ fld (c.w 0) 10 7 ≤ 63 ∧ fld (c.w 0) 10 7 < fld (c.w 0) 3 7) :
    let k := dmaKey d.val e.val (fld (c.w 0) 0 3)
    ∃ n, exec (.dmamark d e c) s = .next n ∧
      MarksSettled k { getDma s k with descs := (getDma s k).descs ++ [{ id := s.plates.nextId, mark := true, w0 := c.w 0 }] } s n ∧
      Only (.units :: .plates :: accountParts) s n := by
  intro k
  obtain ⟨q, hq⟩ : ∃ q : DmaQ, q = { getDma s k with descs := (getDma s k).descs ++
    [{ id := s.plates.nextId, mark := true, w0 := c.w 0 }] } := ⟨_, rfl⟩
  have hx : exec (.dmamark d e c) s = .next (charge (.dma d e) 0x00
      (settleMarks k ((getDma s k).descs.length + 1) (setDma k q (s.issued (.dma d e) c)))) := by
    refine exec_issues hi rfl ((if_neg (by omega)).trans ?_)
    dsimp only
    rw [getDma_congr issued_units, hq]
  rw [← hq]
  have k1 := setDma_only k q (s.issued (.dma d e) c)
  have hj : ∀ j, j ≠ k → getDma (setDma k q (s.issued (.dma d e) c)) j = getDma s j := fun j hj => by
    rw [getDma_setDma, if_neg hj, getDma_congr issued_units]
  obtain ⟨hs, -, k2⟩ := settleMarks_settled (n := (getDma s k).descs.length + 1)
    ((getDma_setDma k k q).trans (if_pos rfl)) hj (by rw [hq, List.length_append]; rfl)
  generalize settleMarks k _ (setDma k q _) = y at hx hs k2
  have k3 := charge_only (.dma d e) 0x00 y
  exact ⟨_, hx, hs.congr (k3.units (by decide)) (k3.plates (by decide)),
    ((((issued_only s _ c).mono (by decide)).step k1 (by decide)).step k2 (by decide)).step k3 (by decide)⟩

theorem dmamark_reserved
    (h : ¬ (1 ≤ fld (c.w 0) 3 7 ∧ fld (c.w 0) 3 7 ≤ 64 ∧ fld (c.w 0) 10 7 ≤ 63 ∧ fld (c.w 0) 10 7 < fld (c.w 0) 3 7)) :
    ∃ n, exec (.dmamark d e c) s = .next n ∧ RefusedCmd s n (.dma d e) c :=
  exec_refused hi rfl (if_pos (by omega))

end

/-- The registers of a queue's block once a descriptor has ended: a COMPARE leaves how many units differed and the first of
them, all ones where none did (R152). -/
def compareResults (b : Nat) (x : DDesc) (s : State) : State :=
  if x.op = 3 then
    setReg (b + 8) (BitVec.ofNat 64 x.differ) (setReg (b + 0x10) ((x.first.map (BitVec.ofNat 64)).getD (BitVec.allOnes 64)) s)
  else s

theorem compareResults_spec (b : Nat) (x : DDesc) (s : State) :
    (x.op = 3 → getReg (compareResults b x s) (b + 8) = BitVec.ofNat 64 x.differ ∧
      getReg (compareResults b x s) (b + 0x10) = (x.first.map (BitVec.ofNat 64)).getD (BitVec.allOnes 64)) ∧
    (∀ a, (x.op = 3 → a ≠ b + 8 ∧ a ≠ b + 0x10) → getReg (compareResults b x s) a = getReg s a) ∧
    Only [.regs] s (compareResults b x s) := by
  unfold compareResults
  by_cases h : x.op = 3
  · rw [if_pos h]
    refine ⟨fun _ => ⟨?_, ?_⟩, fun a ha => ?_, (setReg_only _ _ _).trans (setReg_only _ _ _)⟩
    · rw [getReg_setReg, if_pos rfl]
    · rw [getReg_setReg, if_neg (by omega), getReg_setReg, if_pos rfl]
    · rw [getReg_setReg, if_neg (ha h).1, getReg_setReg, if_neg (ha h).2]
  · rw [if_neg h]
    exact ⟨fun h3 => absurd h3 h, fun _ _ => rfl, Only.rfl' _⟩

section
variable {d : DieId} {e : Fin 2} {q : Fin 8} {s : State}

theorem dmaDescComplete_empty (h : (getDma s (dmaKey d.val e.val q.val)).descs = []) :
    exec (.dmaDescComplete d e q) s = .next s := by
  show execDmaDescComplete d e q s = _
  unfold execDmaDescComplete
  dsimp only
  rw [h]

variable {x : DDesc} {l : List DDesc} (h : (getDma s (dmaKey d.val e.val q.val)).descs = x :: l)
include h

theorem dmaDescComplete_undone (hd : descDone s x = false) : exec (.dmaDescComplete d e q) s = .next s := by
  show execDmaDescComplete d e q s = _
  unfold execDmaDescComplete
  dsimp only
  rw [h]
  dsimp only
  rw [hd]
  rfl

/-- A descriptor that is done leaves its queue: COMPARE's results stand in their registers, the command completes, and the
marks behind it take effect (R152, R154, R155). -/
theorem dmaDescComplete_done (hd : descDone s x = true) :
    let k := dmaKey d.val e.val q.val
    let b := dmaQBlk d.val e.val q.val 0
    ∃ n, exec (.dmaDescComplete d e q) s = .next n ∧ findFlight n x.id = none ∧
      MarksSettled k { getDma s k with descs := l } s n ∧
      (x.op = 3 → getReg n (b + 8) = BitVec.ofNat 64 x.differ ∧
        getReg n (b + 0x10) = (x.first.map (BitVec.ofNat 64)).getD (BitVec.allOnes 64)) ∧
      (∀ a, (x.op = 3 → a ≠ b + 8 ∧ a ≠ b + 0x10) → getReg n a = getReg s a) ∧
      Only [.regs, .plates, .units, .clients, .fabric] s n := by
  intro k b
  have hx : exec (.dmaDescComplete d e q) s = .next (settleMarks k (l.length + 1) (complete x.id (endTx x.id
      (compareResults b x (setDma k { getDma s k with descs := l } s))))) := by
    show execDmaDescComplete d e q s = _
    unfold execDmaDescComplete compareResults
    dsimp only
    rw [h]
    dsimp only
    rw [if_neg (by rw [hd]; simp)]
    cases x.first <;> rfl
  obtain ⟨p, hp⟩ : ∃ p : DmaQ, p = { getDma s k with descs := l } := ⟨_, rfl⟩
  rw [← hp] at hx ⊢
  have hlen : p.descs.length ≤ l.length + 1 := by rw [hp]; exact Nat.le_succ _
  have k1 := setDma_only k p s
  have hreg : ∀ a, getReg (setDma k p s) a = getReg s a := fun a => rfl
  have hdma := fun j => getDma_setDma k j p (s := s)
  generalize setDma k p s = s1 at hx k1 hreg hdma
  obtain ⟨hres, hother, k2⟩ := compareResults_spec b x s1
  generalize compareResults b x s1 = s2 at hx hres hother k2
  have k3 := (endTx_kept x.id (Kept.rfl' s2) (ks := [.clients, .fabric]) (by decide)).only
  generalize endTx x.id s2 = s3 at hx k3
  have k4 := complete_only x.id s3
  have hgone := (complete_completed x.id s3).1
  generalize complete x.id s3 = s4 at hx k4 hgone
  have hget : ∀ j, getDma s4 j = if j = k then p else getDma s j := fun j => by
    rw [getDma_congr (k4.units (by decide)), getDma_congr (k3.units (by decide)), getDma_congr (k2.units (by decide)), hdma]
  obtain ⟨hs, hkept, k5⟩ := settleMarks_settled (n := l.length + 1) ((hget k).trans (if_pos rfl))
    (fun j hj => (hget j).trans (if_neg hj)) hlen
  generalize settleMarks k (l.length + 1) s4 = n at hx hs hkept k5
  have hregs : ∀ a, getReg n a = getReg s2 a := fun a => getReg_congr (by
    rw [k5.regs (by decide), k4.regs (by decide), k3.regs (by decide)]) a
  refine ⟨n, hx, hkept _ hgone, hs, fun ho => ?_, fun a ha => ?_, ?_⟩
  · rw [hregs, hregs]
    exact hres ho
  · rw [hregs, hother a ha, hreg]
  · exact (((((k1.mono (by decide)).step k2 (by decide)).step k3 (by decide)).step k4 (by decide)).step k5 (by decide))

end

/-- Settles O41: command by command, then the end of a descriptor. -/
theorem dmaQueues : Obligations.DmaQueues := by
  unfold Obligations.DmaQueues
  intro d e s settled
  refine ⟨fun c hi => ⟨dmadesc_queues hi, dmadesc_reserved hi, dmamark_settles hi, dmamark_reserved hi⟩,
    fun q => ⟨dmaDescComplete_empty, fun x l h => ⟨dmaDescComplete_undone h, dmaDescComplete_done h⟩⟩⟩

end Sys2Proof.Machine
end

section
/-! Stream commands at their issue, and the life of a descriptor (R196 to R200, R212, R213, R460). -/

namespace Sys2Proof.Machine

/-- From s to n the streams of tile t have become y, and no other tile has changed. -/
def StreamsLeft (t : TileId) (y : StreamS) (s n : State) : Prop :=
  getTile n t = { getTile s t with str := y } ∧ ∀ u : TileId, u ≠ t → getTile n u = getTile s u

theorem setStr_left {s r n : State} {t : TileId} {y : StreamS} (hr : r.tiles = s.tiles) (hn : n.tiles = (setStr t y r).tiles) :
    StreamsLeft t y s n := by
  have hg : ∀ u, getTile n u = if u = t then { getTile s t with str := y } else getTile s u := fun u => by
    rw [getTile_congr hn, getTile_setStr, getTile_congr hr, getTile_congr hr]
  exact ⟨(hg t).trans (if_pos rfl), fun u hu => (hg u).trans (if_neg hu)⟩

/-- A stream with a descriptor placed in it (R197, R213). -/
def armedStrm (st : Strm) (d : Desc) (a : Armed) : Strm :=
  if st.active = none then { st with active := some { d with paged := true }, last := some a }
  else { st with queued := some { d with paged := decide (d.mode = 2) }, last := some a }

theorem armStream_eq (t : TileId) (k : Nat) (d : Desc) (a : Armed) (s : State) :
    armStream t k d a s = setStr t (setStrm (getStr s t) k (armedStrm (getStrm (getStr s t) k) d a)) s := by
  unfold armStream armedStrm
  simp only [Option.isNone_iff_eq_none]

/-- A stream whose active descriptor has ended: a successor in re-arm or overlap mode is active at once (R212). -/
def succeeded (st : Strm) : Strm :=
  match st.queued with
  | some q => if q.mode = 1 ∨ q.mode = 2 then { st with active := some { q with paged := true }, queued := none }
    else { st with active := none }
  | none => { st with active := none }

theorem issued_getStr (s : State) (e : Eng) (c : PCmd) (t : TileId) : getStr (s.issued e c) t = getStr s t :=
  getStr_congr issued_tiles t

section
variable {t : TileId} {c : PCmd} {s : State} (hi : s.Issues (.stream t) c)
include hi

/-- An issued stream command that stays in progress with its tile's streams changed. -/
theorem exec_streamStays {i : Instr} {k : State → WinCmd → Nat → State} {y : StreamS}
    (hx : exec i s = .next (withIssue none (.stream t) c s k))
    (hk : k (s.issued (.stream t) c) (s.issuedCmd (.stream t) c) s.plates.nextId = setStr t y (s.issued (.stream t) c)) :
    ∃ n, exec i s = .next n ∧ (n.plates = (s.issued (.stream t) c).plates ∧
      findFlight n s.plates.nextId = some (s.flight (.stream t) c) ∧ Only (.tiles :: .plates :: accountParts) s n) ∧
      StreamsLeft t y s n := by
  have k1 := setStr_only t y (s.issued (.stream t) c)
  have k2 := charge_only (.stream t) 0x00 (setStr t y (s.issued (.stream t) c))
  have hp := (k2.plates (by decide)).trans (k1.plates (by decide))
  exact ⟨_, exec_issues hi hx hk, ⟨hp, (findFlight_congr hp _).trans (issued_findFlight hi),
    (((issued_only s _ c).mono (by decide)).step k1 (by decide)).step k2 (by decide)⟩,
    setStr_left issued_tiles (k2.tiles (by decide))⟩

theorem smode_sets (h : ∀ g, g < 8 → fld (c.w 0) (2 * g) 2 ≠ 3) : ∃ n, exec (.smode t c) s = .next n ∧
    StreamsLeft t { getStr s t with modes := BitVec.ofNat 16 (fld (c.w 0) 0 16) } s n ∧
    Finished (s.issued (.stream t) c) n s.plates.nextId ∧ Only (.tiles :: .plates :: accountParts) s n := by
  have hx : exec (.smode t c) s = .next (charge (.stream t) 0x00 (complete s.plates.nextId (setStr t
      { getStr s t with modes := BitVec.ofNat 16 (fld (c.w 0) 0 16) } (s.issued (.stream t) c)))) := by
    refine exec_issues hi rfl ((if_neg ?_).trans ?_)
    · simpa using h
    · rw [issued_getStr]
  obtain ⟨h1, h2⟩ := charge_complete (.stream t) 0x00 s.plates.nextId
    (y := setStr t { getStr s t with modes := BitVec.ofNat 16 (fld (c.w 0) 0 16) } (s.issued (.stream t) c)) rfl rfl
  exact ⟨_, hx, setStr_left issued_tiles (h2.tiles (by decide)), ⟨_, rfl, h1⟩,
    (((issued_only s _ c).mono (by decide)).step (setStr_only _ _ _) (by decide)).step h2 (by decide)⟩

theorem smode_reserved (h : ∃ g, g < 8 ∧ fld (c.w 0) (2 * g) 2 = 3) :
    ∃ n, exec (.smode t c) s = .next n ∧ RefusedCmd s n (.stream t) c :=
  exec_refused hi rfl (if_pos (by simpa using h))

theorem sreset_waits (h : (getStrm (getStr s t) (fld (c.w 0) 0 6)).reset ≠ none) :
    exec (.sreset t c) s = .next (charge (.stream t) 0x02 s) :=
  exec_held hi rfl (if_pos (Option.isSome_iff_ne_none.2 h))

theorem sreset_stands (h : (getStrm (getStr s t) (fld (c.w 0) 0 6)).reset = none) :
    let k := fld (c.w 0) 0 6
    ∃ n, exec (.sreset t c) s = .next n ∧ (n.plates = (s.issued (.stream t) c).plates ∧
      findFlight n s.plates.nextId = some (s.flight (.stream t) c) ∧ Only (.tiles :: .plates :: accountParts) s n) ∧
      StreamsLeft t (setStrm (getStr s t) k { getStrm (getStr s t) k with reset := some s.plates.nextId }) s n := by
  refine exec_streamStays hi (exec_unheld rfl (if_neg (by rw [h]; decide))) ?_
  dsimp only
  rw [issued_getStr]

/-- An arming command that is accepted: its descriptor is placed in its stream (R197, R213). -/
theorem exec_arms {i : Instr} {k : State → WinCmd → Nat → State} {n : Nat} {d : Desc} {a : Armed}
    (hx : exec i s = .next (withIssue none (.stream t) c s k))
    (hk : k (s.issued (.stream t) c) (s.issuedCmd (.stream t) c) s.plates.nextId = armStream t n d a (s.issued (.stream t) c)) :
    ∃ m, exec i s = .next m ∧ (m.plates = (s.issued (.stream t) c).plates ∧
      findFlight m s.plates.nextId = some (s.flight (.stream t) c) ∧ Only (.tiles :: .plates :: accountParts) s m) ∧
      StreamsLeft t (setStrm (getStr s t) n (armedStrm (getStrm (getStr s t) n) d a)) s m := by
  refine exec_streamStays hi hx (hk.trans ?_)
  rw [armStream_eq, issued_getStr]

theorem sarm_waits {code : Nat} (h : armHold s t (fld (c.w 0) 0 6) (fld (c.w 0) 32 9) (sarmMode (getStr s t) (fld (c.w 0) 0 6)) = some code) :
    exec (.sarm t c) s = .next (charge (.stream t) code s) :=
  exec_held hi rfl h

section
variable (hh : armHold s t (fld (c.w 0) 0 6) (fld (c.w 0) 32 9) (sarmMode (getStr s t) (fld (c.w 0) 0 6)) = none)
include hh

theorem sarm_arms :
    let k := fld (c.w 0) 0 6
    let d := mkDesc (s.issued (.stream t) c) t (s.issuedCmd (.stream t) c) s.plates.nextId (sarmMode (getStr s t) k) (sarmWords c)
    descReserved (clientOn s (tileDie t)) k d = false → ∃ n, exec (.sarm t c) s = .next n ∧
      (n.plates = (s.issued (.stream t) c).plates ∧
        findFlight n s.plates.nextId = some (s.flight (.stream t) c) ∧ Only (.tiles :: .plates :: accountParts) s n) ∧
      StreamsLeft t (setStrm (getStr s t) k (armedStrm (getStrm (getStr s t) k) d { sarmWords c with fmt := d.ent.fmtWord })) s n := by
  intro k d h
  refine exec_arms hi (exec_unheld rfl hh) (if_neg ?_)
  rw [issued_clientOn]
  exact Bool.not_eq_true _ ▸ h

theorem sarm_reserved :
    let k := fld (c.w 0) 0 6
    let d := mkDesc (s.issued (.stream t) c) t (s.issuedCmd (.stream t) c) s.plates.nextId (sarmMode (getStr s t) k) (sarmWords c)
    descReserved (clientOn s (tileDie t)) k d = true → ∃ n, exec (.sarm t c) s = .next n ∧ RefusedCmd s n (.stream t) c := by
  intro k d h
  refine exec_refused hi (exec_unheld rfl hh) (if_pos ?_)
  rw [issued_clientOn]
  exact h

end

theorem srearm_unarmed (hl : (getStrm (getStr s t) (fld (c.w 0) 0 6)).last = none)
    (hh : armHold s t (fld (c.w 0) 0 6) 0 (groupMode (getStr s t) (fld (c.w 0) 0 6)) = none) :
    ∃ n, exec (.srearm t c) s = .next n ∧ RefusedCmd s n (.stream t) c := by
  refine exec_refused hi (exec_unheld rfl (by rw [hl]; exact hh)) ?_
  dsimp only
  rw [issued_getStr, hl]

section
variable {a0 : Armed} (hl : (getStrm (getStr s t) (fld (c.w 0) 0 6)).last = some a0)
include hl

theorem srearm_waits {code : Nat}
    (h : armHold s t (fld (c.w 0) 0 6) (fld a0.w0 32 9) (groupMode (getStr s t) (fld (c.w 0) 0 6)) = some code) :
    exec (.srearm t c) s = .next (charge (.stream t) code s) :=
  exec_held hi rfl (by rw [hl]; exact h)

variable (hh : armHold s t (fld (c.w 0) 0 6) (fld a0.w0 32 9) (groupMode (getStr s t) (fld (c.w 0) 0 6)) = none)
include hh

theorem srearm_arms :
    let k := fld (c.w 0) 0 6
    let a := srearmWords c a0
    let d := mkDesc (s.issued (.stream t) c) t (s.issuedCmd (.stream t) c) s.plates.nextId (groupMode (getStr s t) k) a
    descReserved (clientOn s (tileDie t)) k d = false ∧ d.ent.fmtWord = a.fmt → ∃ n, exec (.srearm t c) s = .next n ∧
      (n.plates = (s.issued (.stream t) c).plates ∧
        findFlight n s.plates.nextId = some (s.flight (.stream t) c) ∧ Only (.tiles :: .plates :: accountParts) s n) ∧
      StreamsLeft t (setStrm (getStr s t) k (armedStrm (getStrm (getStr s t) k) d a)) s n := by
  intro k a d h
  refine exec_arms hi (exec_unheld rfl (by rw [hl]; exact hh)) ?_
  dsimp only
  rw [issued_getStr, hl]
  refine if_neg ?_
  rw [issued_clientOn, not_or, not_not]
  exact ⟨Bool.not_eq_true _ ▸ h.1, h.2⟩

theorem srearm_reserved :
    let k := fld (c.w 0) 0 6
    let a := srearmWords c a0
    let d := mkDesc (s.issued (.stream t) c) t (s.issuedCmd (.stream t) c) s.plates.nextId (groupMode (getStr s t) k) a
    ¬ (descReserved (clientOn s (tileDie t)) k d = false ∧ d.ent.fmtWord = a.fmt) →
    ∃ n, exec (.srearm t c) s = .next n ∧ RefusedCmd s n (.stream t) c := by
  intro k a d h
  refine exec_refused hi (exec_unheld rfl (by rw [hl]; exact hh)) ?_
  dsimp only
  rw [issued_getStr, hl]
  refine if_pos ?_
  rw [issued_clientOn, ← Bool.not_eq_false]
  exact not_and_or.1 h

end

end

section
variable {t : TileId} {s : State} {k : Fin 64}

theorem sresetEffect_waits (h : (getStrm (getStr s t) k.val).reset = none ∨ streamNamed s t k.val = true) :
    exec (.sresetEffect t k) s = .next s := by
  show execSresetEffect t k s = _
  unfold execSresetEffect
  dsimp only
  cases hr : (getStrm (getStr s t) k.val).reset with
  | none => rfl
  | some id =>
    rw [hr] at h
    exact congrArg Host.Outcome.next (if_pos (h.resolve_left (Option.some_ne_none id)))

/-- SRESET taking effect: the commands of the stream's descriptors complete, and its own (R199). -/
theorem sresetEffect_clears {id : Nat} (hr : (getStrm (getStr s t) k.val).reset = some id) (hn : streamNamed s t k.val = false) :
    let st := getStrm (getStr s t) k.val
    let ids := (st.active.map (·.id)).toList ++ (st.queued.map (·.id)).toList
    ∃ n, exec (.sresetEffect t k) s = .next n ∧
      StreamsLeft t { setStrm (getStr s t) k.val {} with reqs := (getStr s t).reqs.filter fun r => !ids.contains r.id } s n ∧
      (∀ i, i = id ∨ i ∈ ids → findFlight n i = none) ∧ n.plates.tokens = s.plates.tokens ∧ Only [.tiles, .plates] s n := by
  intro st ids
  have hx : exec (.sresetEffect t k) s = .next ((ids ++ [id]).foldl (fun s i => complete i s)
      (setStr t (clearStream (getStr s t) k.val) s)) := by
    show execSresetEffect t k s = _
    unfold execSresetEffect
    dsimp only
    rw [hr, List.foldl_append (l := ids)]
    dsimp only
    rw [hn]
    rfl
  have k1 := setStr_only t (clearStream (getStr s t) k.val) s
  obtain ⟨c1, -, c3, c4⟩ := completes_spec (ids ++ [id]) (setStr t (clearStream (getStr s t) k.val) s)
  refine ⟨_, hx, setStr_left (y := clearStream (getStr s t) k.val) rfl (c4.tiles (by decide)), fun i hi => c1 i ?_, c3,
    (k1.mono (by decide)).step c4 (by decide)⟩
  rw [List.mem_append, List.mem_singleton]
  exact hi.symm

theorem descriptorActivate_none (h : (getStrm (getStr s t) k.val).active ≠ none ∨ (getStrm (getStr s t) k.val).queued = none) :
    exec (.descriptorActivate t k) s = .next s := by
  show execDescriptorActivate t k s = _
  unfold execDescriptorActivate
  dsimp only
  cases ha : (getStrm (getStr s t) k.val).active with
  | some a => rfl
  | none =>
    rw [h.resolve_left (not_not.2 ha)]

variable {q : Desc} (ha : (getStrm (getStr s t) k.val).active = none) (hq : (getStrm (getStr s t) k.val).queued = some q)
include ha hq

theorem descriptorActivate_activates (h : q.paged = true ∨ pagesFree (getStr s t) q.pages = true) :
    ∃ n, exec (.descriptorActivate t k) s = .next n ∧
      StreamsLeft t (setStrm (getStr s t) k.val { getStrm (getStr s t) k.val with
        active := some { q with paged := true, cycle0 := (getStr s t).cycle }, queued := none }) s n ∧ Only [.tiles] s n := by
  refine ⟨setStr t (setStrm (getStr s t) k.val { getStrm (getStr s t) k.val with
    active := some { q with paged := true, cycle0 := (getStr s t).cycle }, queued := none }) s, ?_,
    setStr_left rfl rfl, setStr_only _ _ _⟩
  show execDescriptorActivate t k s = _
  unfold execDescriptorActivate
  dsimp only
  rw [ha, hq]
  exact congrArg Host.Outcome.next (if_pos h)

theorem descriptorActivate_waits (hp : q.paged = false) (hf : pagesFree (getStr s t) q.pages = false) :
    exec (.descriptorActivate t k) s = .next (charge (.stream t) 0x0E s) := by
  show execDescriptorActivate t k s = _
  unfold execDescriptorActivate
  dsimp only
  rw [ha, hq]
  exact congrArg Host.Outcome.next (if_neg (by rw [hp, hf]; decide))

end

section
variable {t : TileId} {s : State} {k : Fin 64}

theorem descriptorEnd_none (h : (getStrm (getStr s t) k.val).active = none) : exec (.descriptorEnd t k) s = .next s := by
  show execDescriptorEnd t k s = _
  unfold execDescriptorEnd
  dsimp only
  rw [h]

variable {d : Desc} (ha : (getStrm (getStr s t) k.val).active = some d)
include ha

theorem descriptorEnd_goesOn (h : (getStrm (getStr s t) k.val).fault ≠ 0 ∨ descEnded d = false) :
    exec (.descriptorEnd t k) s = .next s := by
  show execDescriptorEnd t k s = _
  unfold execDescriptorEnd
  dsimp only
  rw [ha]
  refine congrArg Host.Outcome.next (if_pos ?_)
  rwa [Bool.not_eq_true]

/-- A descriptor that has ended: its command completes, and its successor takes its place (R197, R212). -/
theorem descriptorEnd_ends (hf : (getStrm (getStr s t) k.val).fault = 0) (he : descEnded d = true) :
    ∃ n, exec (.descriptorEnd t k) s = .next n ∧ Finished s n d.id ∧
      StreamsLeft t { setStrm (getStr s t) k.val (succeeded (getStrm (getStr s t) k.val)) with
        reqs := (getStr s t).reqs.filter fun r => decide (r.id ≠ d.id) } s n ∧ Only [.tiles, .plates] s n := by
  obtain ⟨y, hy⟩ : ∃ y : StreamS, y = { setStrm (getStr s t) k.val (succeeded (getStrm (getStr s t) k.val)) with
    reqs := (getStr s t).reqs.filter fun r => decide (r.id ≠ d.id) } := ⟨_, rfl⟩
  have hx : exec (.descriptorEnd t k) s = .next (complete d.id (setStr t y s)) := by
    show execDescriptorEnd t k s = _
    unfold execDescriptorEnd
    dsimp only
    rw [ha, hy]
    exact congrArg Host.Outcome.next (if_neg (by rw [hf, he]; decide))
  have k2 := complete_only d.id (setStr t y s)
  exact ⟨_, hx, ⟨_, rfl, complete_completed _ _⟩, hy ▸ setStr_left rfl (k2.tiles (by decide)),
    ((setStr_only t y s).mono (by decide)).step k2 (by decide)⟩

end

/-- Settles O43: command by command, then the events of a stream. -/
theorem streamCommands : Obligations.StreamCommands := by
  unfold Obligations.StreamCommands
  intro t s e x left
  refine ⟨fun c hi => ?_, fun k => ?_⟩
  · exact ⟨⟨fun code => sarm_waits hi, sarm_arms hi, sarm_reserved hi⟩, srearm_unarmed hi,
      fun a0 hl => ⟨fun code => srearm_waits hi hl, srearm_arms hi hl, srearm_reserved hi hl⟩,
      smode_sets hi, smode_reserved hi, sreset_waits hi, sreset_stands hi⟩
  · exact ⟨sresetEffect_waits, fun id => sresetEffect_clears,
      fun q ha hq => ⟨descriptorActivate_activates ha hq, descriptorActivate_waits ha hq⟩, descriptorActivate_none,
      fun d ha => ⟨descriptorEnd_goesOn ha, descriptorEnd_ends ha⟩, descriptorEnd_none⟩

end Sys2Proof.Machine
end

section
/-! Collective commands at their issue (R297, R298, R301, R304, R313, R318). -/

namespace Sys2Proof.Machine

theorem getCtx_congr {s n : State} (h : n.fabric = s.fabric) (k : Nat) : getCtx n k = getCtx s k := by
  unfold getCtx
  rw [h]

theorem countFree_only (d : Nat) (s : State) : Only [.dict] s (countFree d s) :=
  (countFree_kept d (Kept.rfl' s) (ks := [.dict]) (by decide)).only

/-- The contexts that a CCTX arms, one after the other (R297). -/
def ctxsArmed (d : DieId) (c : PCmd) (cl job : Nat) (s : State) : State :=
  (List.range (fld (c.w 0) 16 13)).foldl (fun s i => setCtx (ctxKey d.val (fld (c.w 0) 0 16 + i)) (armedCtx cl job c i) s) s

/-- Gates that have their outcome, with those of a control slot settled (R313). -/
def gatesSettled (slot : Nat) (skip : Bool) (st : StepSt) : StepSt :=
  { st with gates := st.gates.map fun g => if g.cslot = slot ∧ g.outcome.isNone then { g with outcome := some skip } else g }

/-- The gate that a CGATE issued in a state keeps: the contexts it waits for are its client's unfinished SKIPPOL ones on its die. -/
def issuedGate (s : State) (d : DieId) (c : PCmd) : GateSt :=
  { id := s.plates.nextId
    die := d.val
    cslot := fld (c.w 0) 0 16
    name := d.val * 4096 + fld (c.w 0) 16 12
    cnt := fld (c.w 0) 28 16
    ent := (s.issuedCmd (.coll d) c).ent (d.val * 4096 + fld (c.w 0) 16 12)
    waits := (s.fabric.ctxs.filter fun x => decide (x.1 / 65536 = d.val) && x.2.skippol &&
      decide (x.2.client = clientOn s d.val) && decide (x.2.state = 1 ∨ x.2.state = 2)).map (·.1) }

/-- The re-shard commit that a CCOMMIT issued in a state keeps (R318). -/
def issuedCommit (s : State) (d : DieId) (c : PCmd) : CommitJob :=
  { id := s.plates.nextId, die := d.val, cslot := fld (c.w 0) 0 16, pos := fld (c.w 0) 16 12, ctick := fld (c.w 1) 0 32 }

theorem settleGates_waits {c slot : Nat} {s : State} {st : StepSt} (hs : (getClient s c).step = some st)
    (hd : (mget {} st.ctl slot).down = false) : settleGates c slot s = s := by
  simp [settleGates, hs, hd]

section
variable {d : DieId} {c : PCmd} {s : State} (hi : s.Issues (.coll d) c)
include hi

/-- CCTX: its range of contexts is armed, counted, and the command completes (R297, R323). -/
theorem cctx_arms (h : cctxReserved (s.issued (.coll d) c) (clientOn s d.val) d.val c = false) :
    let first := fld (c.w 0) 0 16
    let num := fld (c.w 0) 16 13
    ∃ n, exec (.cctx d c) s = .next n ∧ Finished (s.issued (.coll d) c) n s.plates.nextId ∧
      n.fabric = { s.fabric with ctxs := n.fabric.ctxs } ∧ Only (.fabric :: .plates :: accountParts) s n ∧
      (∀ k, ¬ (ctxKey d.val first ≤ k ∧ k < ctxKey d.val first + num) → getCtx n k = getCtx s k) ∧
      ∀ i, i < num → getCtx n (ctxKey d.val first + i) =
        armedCtx (clientOn s d.val) ((getClient s (clientOn s d.val)).job % 65536) c i := by
  intro first num
  obtain ⟨y, hy⟩ : ∃ y, y = ctxsArmed d c (clientOn s d.val) ((getClient s (clientOn s d.val)).job % 65536) (s.issued (.coll d) c) :=
    ⟨_, rfl⟩
  have hx : exec (.cctx d c) s = .next (charge (.coll d) 0x00 (complete s.plates.nextId (countFree d.val y))) := by
    refine exec_issues hi rfl ?_
    dsimp only
    rw [issued_clientOn, if_neg (h ▸ Bool.false_ne_true), getClient_congr issued_clients, hy]
    rfl
  obtain ⟨hin, hout, hfr⟩ := setCtxs_spec d.val first
    (armedCtx (clientOn s d.val) ((getClient s (clientOn s d.val)).job % 65536) c) num (cctx_room h) (s.issued (.coll d) c)
  change ∀ i, i < num → getCtx (ctxsArmed d c _ _ _) _ = _ at hin
  change ∀ k, _ → getCtx (ctxsArmed d c _ _ _) k = _ at hout
  change ctxsArmed d c _ _ _ = _ at hfr
  rw [← hy] at hin hout hfr
  have k0 := issued_only s (.coll d) c
  have k1 : Only [.fabric] (s.issued (.coll d) c) y := by rw [hfr]; exact only_fabric _ _
  have k2 := countFree_only d.val y
  generalize countFree d.val y = z at hx k2
  obtain ⟨hc, k3⟩ := charge_complete (.coll d) 0x00 s.plates.nextId (y := z) rfl rfl
  have hf : (charge (.coll d) 0x00 (complete s.plates.nextId z)).fabric = y.fabric :=
    (k3.fabric (by decide)).trans (k2.fabric (by decide))
  refine ⟨_, hx, ⟨z, (k2.plates (by decide)).trans (k1.plates (by decide)), hc⟩, ?_,
    (((k0.mono (by decide)).step k1 (by decide)).step k2 (by decide)).step k3 (by decide), fun k hk => ?_, fun i hi => ?_⟩
  · rw [hf, hfr, issued_fabric]
  · rw [getCtx_congr hf, hout k hk, getCtx_congr issued_fabric]
  · rw [getCtx_congr hf, hin i hi]

theorem cctx_reserved (h : cctxReserved (s.issued (.coll d) c) (clientOn s d.val) d.val c = true) :
    ∃ n, exec (.cctx d c) s = .next n ∧ RefusedCmd s n (.coll d) c :=
  exec_refused hi rfl (if_pos (by rw [issued_clientOn]; exact h))

section
variable (hb : ¬ 64 ≤ (flightsOf s (.coll d)).countP fun f => decide (f.win.cmd.opc = 2))
include hb

theorem csend_enters (h : csReserved (s.issued (.coll d) c) (clientOn s d.val) d.val
      ((s.issuedCmd (.coll d) c).ent (csName d.val c)) c = false) :
    ∃ m n, exec (.csend d c) s = .next n ∧
      m = { s.issued (.coll d) c with fabric := { s.fabric with
        sends := s.fabric.sends ++ [{ id := s.plates.nextId, die := d, win := s.issuedCmd (.coll d) c }] } } ∧
      Only accountParts (pumpSends m) n := by
  refine ⟨_, _, exec_issues hi (exec_unheld rfl (if_neg hb)) ?_, rfl, (charge_only _ _ _).mono (by decide)⟩
  dsimp only
  rw [issued_clientOn, if_neg (h ▸ Bool.false_ne_true), issued_fabric]

theorem csend_reserved (h : csReserved (s.issued (.coll d) c) (clientOn s d.val) d.val
      ((s.issuedCmd (.coll d) c).ent (csName d.val c)) c = true) :
    ∃ n, exec (.csend d c) s = .next n ∧ RefusedCmd s n (.coll d) c :=
  exec_refused hi (exec_unheld rfl (if_neg hb)) (if_pos (by rw [issued_clientOn]; exact h))

end

theorem cgate_reserved (h : cgateReserved (s.issued (.coll d) c) (clientOn s d.val) d.val c = true) :
    ∃ n, exec (.cgate d c) s = .next n ∧ RefusedCmd s n (.coll d) c :=
  exec_refused hi rfl (if_pos (by rw [issued_clientOn]; exact h))

/-- CGATE: the gate is kept with its step, and settled at once where its control slot's records are there (R313). -/
theorem cgate_keeps (h : cgateReserved (s.issued (.coll d) c) (clientOn s d.val) d.val c = false) :
    let slot := fld (c.w 0) 0 16
    let cl := clientOn s d.val
    let g := issuedGate s d c
    ∃ n, exec (.cgate d c) s = .next n ∧ Only (.clients :: .plates :: accountParts) s n ∧
      ∀ st, (getClient s cl).step = some st →
        ((mget {} st.ctl slot).down = false → findFlight n s.plates.nextId = some (s.flight (.coll d) c) ∧
          Stepped s n cl fun st => { st with gates := st.gates ++ [g] }) ∧
        ((mget {} st.ctl slot).down = true → findFlight n s.plates.nextId = none ∧
          Stepped s n cl fun x => gatesSettled slot ((nth 0 (mget [] (mget {} st.ctl slot).recs 0) 0).testBit 1)
            { x with gates := x.gates ++ [g] }) := by
  intro slot cl g
  obtain ⟨y, hy⟩ : ∃ y, y = updStep cl (fun st => { st with gates := st.gates ++ [g] }) (s.issued (.coll d) c) := ⟨_, rfl⟩
  have hx : exec (.cgate d c) s = .next (charge (.coll d) 0x00 (settleGates cl slot y)) := by
    refine exec_issues hi rfl ?_
    dsimp only
    rw [issued_clientOn, if_neg (h ▸ Bool.false_ne_true), hy, issued_fabric]
    rfl
  have k0 := issued_only s (.coll d) c
  have k1 := updStep_only cl (fun st => { st with gates := st.gates ++ [g] }) (s.issued (.coll d) c)
  have k2 := (settleGates_kept cl slot (Kept.rfl' y) (ks := [.regs, .dict, .sat, .plates, .clients, .host, .logs]) (by decide)).only
  have k3 := charge_only (.coll d) 0x00 (settleGates cl slot y)
  have hstep : Stepped s y cl fun st => { st with gates := st.gates ++ [g] } := by
    rw [hy]
    exact (updStep_stepped cl _ _).pre (.of_eq issued_clients)
  rw [← hy] at k1
  refine ⟨_, hx, (((k0.mono (by decide)).step k1 (by decide)).step k2 (by decide)).step k3 (by decide), fun st hst => ?_⟩
  have hyst : (getClient y cl).step = some { st with gates := st.gates ++ [g] } := by
    rw [hstep cl]
    simp [hst]
  have hpost : ScopesOnly (settleGates cl slot y) (charge (.coll d) 0x00 (settleGates cl slot y)) := .of_eq (k3.clients (by decide))
  rw [findFlight_congr (k3.plates (by decide))]
  refine ⟨fun hd => ?_, fun hd => ?_⟩
  · rw [settleGates_waits hyst hd] at hpost ⊢
    exact ⟨(findFlight_congr (k1.plates (by decide)) _).trans (issued_findFlight hi), hstep.post hpost⟩
  · obtain ⟨-, hs, hnone, -⟩ := settleGates_spec cl slot y _ hyst hd
    refine ⟨hnone _ ?_, (hstep.comp hs).post hpost⟩
    have hg : g ∈ st.gates ++ [g] := List.mem_append_right _ (List.mem_singleton_self g)
    exact List.mem_map.2 ⟨g, List.mem_filter.2 ⟨hg, by simp [g, issuedGate, slot]⟩, rfl⟩

theorem ccommit_keeps (h : ccommitReserved (s.issued (.coll d) c) (clientOn s d.val) c = false) :
    ∃ n, exec (.ccommit d c) s = .next n ∧ findFlight n s.plates.nextId = some (s.flight (.coll d) c) ∧
      n.plates = (s.issued (.coll d) c).plates ∧ Only (.clients :: .plates :: accountParts) s n ∧
      Stepped s n (clientOn s d.val) fun st => { st with commits := st.commits ++ [issuedCommit s d c] } := by
  obtain ⟨y, hy⟩ : ∃ y, y = updStep (clientOn s d.val) (fun st => { st with commits := st.commits ++ [issuedCommit s d c] })
    (s.issued (.coll d) c) := ⟨_, rfl⟩
  have hx : exec (.ccommit d c) s = .next (charge (.coll d) 0x00 y) := by
    refine exec_issues hi rfl ?_
    dsimp only
    rw [issued_clientOn, if_neg (h ▸ Bool.false_ne_true), hy]
    rfl
  have k1 : Only [.clients] (s.issued (.coll d) c) y := by rw [hy]; exact updStep_only _ _ _
  have k2 := charge_only (.coll d) 0x00 y
  have hp : (charge (.coll d) 0x00 y).plates = (s.issued (.coll d) c).plates :=
    (k2.plates (by decide)).trans (k1.plates (by decide))
  refine ⟨_, hx, (findFlight_congr hp _).trans (issued_findFlight hi), hp,
    (((issued_only s _ c).mono (by decide)).step k1 (by decide)).step k2 (by decide), .post ?_ (.of_eq (k2.clients (by decide)))⟩
  rw [hy]
  exact (updStep_stepped _ _ _).pre (.of_eq issued_clients)

/-- A reserved CCOMMIT is refused, and raises COMMIT_BAD (R318). -/
theorem ccommit_reserved (h : ccommitReserved (s.issued (.coll d) c) (clientOn s d.val) c = true) :
    ∃ y z n, exec (.ccommit d c) s = .next n ∧ Completed (s.issued (.coll d) c) y s.plates.nextId ∧
      bit (getReg y (illegalBit (.coll d) c).1) (illegalBit (.coll d) c).2 = true ∧
      Only (.plates :: accountParts) (s.issued (.coll d) c) y ∧
      CollFaulted d.val (clientOn s d.val) 9 ((getClient s (clientOn s d.val)).job % 65536) 0 y z ∧ Only accountParts z n := by
  have hw : (s.flight (.coll d) c).win.cmd = c := locate_cmd s (.coll d) c
  have hr := refuse_spec s.plates.nextId (s.issued (.coll d) c) (issued_findFlight hi) (by rw [hw]; exact hi.header)
  rw [hw] at hr
  obtain ⟨hc, hb, ho⟩ := hr
  refine ⟨_, _, _, exec_issues hi rfl ?_, hc, hb, ho, collFault_faulted _ _ _ _ _ _, (charge_only _ _ _).mono (by decide)⟩
  dsimp only
  rw [issued_clientOn, if_pos h, getClient_congr issued_clients]

end

/-- Settles O51: command by command. -/
theorem collectiveCommands : Obligations.CollectiveCommands := by
  unfold Obligations.CollectiveCommands
  intro d c s e s1 id cl job hi
  refine ⟨⟨cctx_reserved hi, fun h => ?_⟩,
    ⟨fun h => ⟨_, exec_held hi rfl (if_pos h), (charge_only _ _ _).mono (by decide)⟩,
      fun hb => csend_reserved hi (Nat.not_le.2 hb), fun hb => csend_enters hi (Nat.not_le.2 hb)⟩,
    ⟨cgate_reserved hi, cgate_keeps hi⟩, ccommit_keeps hi, ccommit_reserved hi⟩
  obtain ⟨n, hx, hf, hfab, ho, hout, hin⟩ := cctx_arms hi h
  refine ⟨n, hx, hf, hfab, ho, hout, fun i hi hcl => ?_⟩
  obtain ⟨h1, h2, h3, h4, h5, h6, h7⟩ := armedCtx_common cl job c i hcl (Nat.mod_lt _ (by decide))
  dsimp only
  rw [hin i hi]
  by_cases hk : fld (c.w 0) 29 3 = 2
  · obtain ⟨hn, hplace⟩ := armedCtx_place cl job c i hk
    exact ⟨h1, h2, h3, h4, h5, h6, hn, fun _ => ⟨h7.trans (if_pos hk), hplace⟩, fun h => absurd hk h⟩
  · obtain ⟨hn, hred⟩ := armedCtx_reduce cl job c i hk
    exact ⟨h1, h2, h3, h4, h5, h6, hn, fun h => absurd h hk, fun _ => ⟨h7.trans (if_neg hk), hred⟩⟩

end Sys2Proof.Machine
end

section
/-! Register accesses: where a module address leads, and what a write or a read there does (R3, R334, R337, R369). -/

namespace Sys2Proof.Machine

theorem registerWrite_eq {a t : Nat} {s : State} (h : windowAddr s (wordAddr a) = some t) (v : Word) :
    exec (.registerWrite a v) s = .next (mapWrite t v s) := by
  change execRegisterWrite a v s = _
  unfold execRegisterWrite
  rw [h]

theorem mapWrite_unassigned {t : Nat} (h : assigned t = false) (v : Word) (s : State) :
    mapWrite t v s = post 0x0204 16 (t % 2 ^ 44) s := by
  simp [mapWrite, h]

theorem mapWrite_mem {t : Nat} (hm : t < 0xFF000000000) (ha : assigned t = true) (v : Word) (s : State) :
    mapWrite t v s = writeMem 16 t (leBytes 8 v.toNat) s := by
  simp [mapWrite, ha, hm]

theorem mapRead_unassigned {t : Nat} (h : assigned t = false) (s : State) :
    mapRead t s = (List.replicate 8 (0#8, false), post 0x0204 16 (t % 2 ^ 44) s) := by
  simp [mapRead, h]

theorem mapRead_mem {t : Nat} (hm : t < 0xFF000000000) (ha : assigned t = true) (s : State) :
    mapRead t s = readMem 16 false t 8 s := by
  simp [mapRead, ha, hm]

theorem ctlWrite_plain {o : Nat} (hc : ¬ (0x310000 ≤ o ∧ o < 0x310500)) (hf : ¬ (0x320000 ≤ o ∧ o < 0x320500)) (d : DieId)
    (v : Word) (s : State) : ctlWrite d o v s = storeFields (ctlMasks o) (ctlBase d.val + o) v s := by
  simp only [ctlWrite, if_neg hc, if_neg hf]

/-- BAR0's registers that only hold a value: the two windows and the words of the queues but their enables (R337, R340). -/
theorem barWrite_plain {o : Nat} (ho : o = 8 ∨ o = 0x10 ∨ (0x10000 ≤ o ∧ o < 0x11040 ∧ o % 0x40 ≠ 0x18) ∨
    (0x12000 ≤ o ∧ o < 0x12440 ∧ o % 0x40 ≠ 0x18)) (v : Word) (s : State) :
    barWrite o v s = storeFields (barMasks o) (bar0 o) v s := by
  unfold barWrite
  rw [if_neg (by omega), if_neg (by omega), if_neg (by omega), if_neg (by omega), if_neg (by omega), if_neg (by omega),
    if_neg (by omega)]

theorem writeMem_wholeWord {t : Nat} (ht : t % 8 = 0) (v : Word) (s : State) (x : Nat) :
    (writeMem 16 t (leBytes 8 v.toNat) s).peek x =
      if t ≤ x ∧ x < t + 8 ∧ s.storable x = true then ((leBytes 8 v.toNat).getD (x - t) 0, false) else s.peek x := by
  rw [(writeMem_peek_storable 16 t (leBytes 8 v.toNat) s x).1, written, leBytes_length]
  refine if_congr ⟨fun ⟨⟨h1, h2⟩, h3, _⟩ => ⟨h1, h2, h3⟩, fun ⟨h1, h2, h3⟩ => ⟨⟨h1, h2⟩, h3, .inl ?_⟩⟩ rfl rfl
  omega

theorem latchBlock_shadow (lo n i : Nat) (hi : i < n) (s : State) :
    mget 0 (latchBlock lo n s).shadow (lo + 8 * i) = getReg s (lo + 8 * i) :=
  (foldl_latch s lo n s.shadow (lo + 8 * i)).trans (if_pos ⟨i, hi, rfl⟩)

/-- A read of a counter block's lowest word latches the block; a read of another word delivers its shadow (R369). -/
theorem ctlRead_lowest {o n : Nat} (h : ctlBlock o = some (o, n)) (d : DieId) (s : State) :
    ctlRead d o s = (mget 0 (latchBlock (ctlBase d.val + o) n s).shadow (ctlBase d.val + o), latchBlock (ctlBase d.val + o) n s) := by
  simp [ctlRead, h]

theorem ctlRead_shadow {o lo n : Nat} (h : ctlBlock o = some (lo, n)) (hne : lo ≠ o) (d : DieId) (s : State) :
    ctlRead d o s = (mget 0 s.shadow (ctlBase d.val + o), s) := by
  simp [ctlRead, h, hne]

/-- A read leaves what it delivers at the host's port (R3). -/
theorem latch_delivers {a t : Nat} {s y : State} {bs : List (Byte × Bool)} (hw : windowAddr s (wordAddr a) = some t)
    (hr : mapRead t s = (bs, y)) :
    ∃ n, exec (.counterBlockLatch a) s = .next n ∧ mget [] n.ports hostPort = bs ∧ n = { y with ports := n.ports } := by
  have hx := latch_eq a t s hw
  rw [hr] at hx
  refine ⟨_, hx, ?_, rfl⟩
  dsimp only
  rw [mget_mset, if_pos rfl]

theorem latch_lowest {a o n : Nat} {d : DieId} {s : State} (hw : windowAddr s (wordAddr a) = some (ctlBase d.val + o))
    (ho : o < 0x100000000) (ha : ctlAssigned o = true) (hb : ctlBlock o = some (o, n)) :
    ∃ t, exec (.counterBlockLatch a) s = .next t ∧
      (∀ i, i < n → mget 0 t.shadow (ctlBase d.val + o + 8 * i) = getReg s (ctlBase d.val + o + 8 * i)) ∧
      (0 < n → mget [] t.ports hostPort = (leBytes 8 (getReg s (ctlBase d.val + o)).toNat).map fun b => (b, false)) ∧
      t = { s with shadow := t.shadow, ports := t.ports } := by
  have hr := mapRead_ctl d o s ho ha
  rw [ctlRead_lowest hb] at hr
  obtain ⟨t, hx, hp, ht⟩ := latch_delivers hw hr
  have hl := fun i hi => latchBlock_shadow (ctlBase d.val + o) n i hi s
  refine ⟨t, hx, fun i hi => ?_, fun hn => ?_, ?_⟩
  · rw [ht]
    exact hl i hi
  · exact hp.trans (congrArg (fun w : Word => (leBytes 8 w.toNat).map fun b => (b, false)) (hl 0 hn))
  · rw [ht]
    rfl

theorem latch_shadow {a o lo n : Nat} {d : DieId} {s : State} (hw : windowAddr s (wordAddr a) = some (ctlBase d.val + o))
    (ho : o < 0x100000000) (ha : ctlAssigned o = true) (hb : ctlBlock o = some (lo, n)) (hne : lo ≠ o) :
    ∃ t, exec (.counterBlockLatch a) s = .next t ∧
      mget [] t.ports hostPort = (leBytes 8 (mget 0 s.shadow (ctlBase d.val + o)).toNat).map (fun b => (b, false)) ∧
      t = { s with ports := t.ports } := by
  have hr := mapRead_ctl d o s ho ha
  rw [ctlRead_shadow hb hne] at hr
  exact latch_delivers hw hr

theorem latch_unassigned {a t : Nat} {s : State} (hw : windowAddr s (wordAddr a) = some t) (ha : assigned t = false) :
    ∃ n, exec (.counterBlockLatch a) s = .next n ∧ mget [] n.ports hostPort = List.replicate 8 (0, false) ∧
      n.host.posted = (post 0x0204 16 (t % 2 ^ 44) s).host.posted := by
  obtain ⟨n, hx, hp, hn⟩ := latch_delivers hw (mapRead_unassigned ha s)
  exact ⟨n, hx, hp, by rw [hn]⟩

theorem latch_mem {a t : Nat} {s : State} (hw : windowAddr s (wordAddr a) = some t) (hm : t < 0xFF000000000)
    (ha : assigned t = true) : ∃ n, exec (.counterBlockLatch a) s = .next n ∧ (∀ x, n.peek x = s.peek x) ∧
      mget [] n.ports hostPort = (List.range 8).map fun i => s.peek (t + i) := by
  obtain ⟨n, hx, hp, hn⟩ := latch_delivers hw (mapRead_mem hm ha s)
  refine ⟨n, hx, fun x => ?_, hp.trans (readMem_val 16 false t 8 s)⟩
  rw [hn, ← (readMem_same 16 false t 8 s).peekByte x]
  exact peek_congr rfl rfl x

/-- Settles O25: by where the address leads. -/
theorem registerAccesses : Obligations.RegisterAccesses := by
  unfold Obligations.RegisterAccesses
  refine ⟨fun a o d v s hw ho ha hc hf => ?_, fun a o v s hw ho => ?_, fun a t v s hw hm ha ht => ?_, fun a t v s hw ha => ?_,
    fun a o lo n d s hw ho ha hb => ⟨fun hlo => ?_, latch_shadow hw ho ha hb⟩, fun a t s hw hm ha => latch_mem hw hm ha⟩
  · rw [registerWrite_eq hw, mapWrite_ctl d o v s ho ha, ctlWrite_plain hc hf]
    exact ⟨_, rfl, storeFields_spec _ _ _ _⟩
  · rw [registerWrite_eq hw, mapWrite_bar o v s (by omega), barWrite_plain ho]
    exact ⟨_, rfl, storeFields_spec _ _ _ _⟩
  · rw [registerWrite_eq hw, mapWrite_mem hm ha]
    exact ⟨_, rfl, writeMem_access _ _ _ _, writeMem_wholeWord ht v s⟩
  · rw [registerWrite_eq hw, mapWrite_unassigned ha]
    exact ⟨rfl, latch_unassigned hw ha⟩
  · subst hlo
    exact latch_lowest hw ho ha hb

end Sys2Proof.Machine
end

section
/-! Requests to the object dictionary: what a read answers, and the checks of a write in their order (R8, R403 to R406). -/

namespace Sys2Proof.Machine

/-- Whether an entry may not be written over a path: constant, read-only, or the curator's own (R404). -/
abbrev writeShut (p : DPath) (r : DRow) (k : Nat) : Prop :=
  r.acc = .const ∨ r.acc = .ro ∨ (p = .curator ∧ (k = 0xF00002 ∨ k = 0xF00004))

/-- Whether an entry that is written only with no client admitted is held by one that is (R404). -/
abbrev writeBusy (r : DRow) (s : State) : Prop := r.acc = .rwIdle ∧ s.clients.any (fun x => decide (x.2.state ≠ 0)) = true

section
variable {p : DPath} {ix sub : Nat} {s : State} {data : List Byte}

theorem dictRead_missing (h : (findEntry ix sub s).2 = none) : dictRead ix sub s = ((findEntry ix sub s).1, [], s) := by
  unfold dictRead
  generalize findEntry ix sub s = f at h
  obtain ⟨e, o⟩ := f
  subst h
  rfl

theorem dictWrite_missing (h : (findEntry ix sub s).2 = none) : dictWrite p ix sub data s = ((findEntry ix sub s).1, s) := by
  unfold dictWrite
  generalize findEntry ix sub s = f at h
  obtain ⟨e, o⟩ := f
  subst h
  rfl

section
variable {r : DRow} (h : (findEntry ix sub s).2 = some r)
include h

theorem dictRead_row : dictRead ix sub s = if r.acc = .wo then (3, [], s) else
    match r.ty.size with
    | some n => (0, leBytes n (entryNat s (dkey ix sub)), s)
    | none => (0, entryBlob (dkey ix sub) s) := by
  unfold dictRead
  generalize findEntry ix sub s = f at h
  obtain ⟨e, o⟩ := f
  subst h
  rfl

theorem dictWrite_row : dictWrite p ix sub data s = if writeShut p r (dkey ix sub) then (4, s) else
    if writeBusy r s then (5, s) else
    match r.ty.size with
    | some n => writeFixed r n (dkey ix sub) data s
    | none => writeBlob (dkey ix sub) data s := by
  unfold dictWrite
  generalize findEntry ix sub s = f at h
  obtain ⟨e, o⟩ := f
  subst h
  rfl

theorem dictWrite_fixed {n : Nat} (hs : ¬ writeShut p r (dkey ix sub)) (hb : ¬ writeBusy r s) (hn : r.ty.size = some n) :
    dictWrite p ix sub data s = writeFixed r n (dkey ix sub) data s := by
  rw [dictWrite_row h, if_neg hs, if_neg hb, hn]

end

section
variable {r : DRow} {n k : Nat}

theorem writeFixed_length (hl : data.length ≠ n) : writeFixed r n k data s = (6, s) := by
  unfold writeFixed
  exact if_pos hl

theorem writeFixed_range (hl : data.length = n) (hb : (r.ty = .bool ∧ 1 < leNat data) ∨ inRange s k (leNat data) = false) :
    writeFixed r n k data s = (7, s) := by
  unfold writeFixed
  rw [if_neg (not_not.2 hl), if_pos (by simpa using hb)]

variable (hl : data.length = n) (hb : ¬ ((r.ty = .bool ∧ 1 < leNat data) ∨ inRange s k (leNat data) = false))
include hl hb

theorem writeFixed_state (hr : stateRefuses s k (leNat data) = true) : writeFixed r n k data s = (8, s) := by
  unfold writeFixed
  rw [if_neg (not_not.2 hl), if_neg (by simpa using hb), if_pos hr]

theorem writeFixed_passes (hr : stateRefuses s k (leNat data) = false) :
    writeFixed r n k data s = writeNat k (leNat data) s := by
  unfold writeFixed
  rw [if_neg (not_not.2 hl), if_neg (by simpa using hb), if_neg (hr ▸ Bool.false_ne_true)]

end

theorem writeNat_stores {k : Nat} (hk : k ∉ [0x20000A, 0x200012, 0x200013, 0xA00005, 0xF00004, 0x110010]) (hq : k / 256 ≠ 0x7001)
    (v : Nat) (s : State) : writeNat k v s = (0, setDict k (BitVec.ofNat 64 v) s) := by
  simp only [List.mem_cons, List.not_mem_nil, or_false, not_or] at hk
  obtain ⟨h1, h2, h3, h4, h5, h6⟩ := hk
  unfold writeNat
  rw [if_neg h1, if_neg h2, if_neg h3, if_neg h4, if_neg h5, if_neg hq, if_neg h6]

section
variable (hs : s.start.sketched = true)
include hs

theorem exec_dictRead {code : Nat} {bs : List Byte} {y : State} (h : dictRead ix sub s = (code, bs, y)) :
    exec (.dictionaryRead p ix sub) s = .next (dictAnswer p code bs y) := by
  rw [dread_eq p ix sub s hs, h]

theorem exec_dictWrite {code : Nat} {y : State} (h : dictWrite p ix sub data s = (code, y)) :
    exec (.dictionaryWrite p ix sub data) s = .next (dictAnswer p code [] y) := by
  rw [dwrite_eq p ix sub data s hs, h]

/-- A write whose value is stored: its entry alone changes, and the path answers 0 (R404). -/
theorem exec_dictStores {v : Nat} (h : dictWrite p ix sub data s = (0, setDict (dkey ix sub) (BitVec.ofNat 64 v) s)) :
    ∃ t, exec (.dictionaryWrite p ix sub data) s = .next t ∧ getDict t (dkey ix sub) = BitVec.ofNat 64 v ∧
      (∀ j, j ≠ dkey ix sub → getDict t j = getDict s j) ∧
      mget [] t.ports (dictPort p) = (leBytes 4 0).map (fun b => (b, false)) ∧ t = { s with dict := t.dict, ports := t.ports } := by
  have hget := fun j => (getDict_congr (s := setDict (dkey ix sub) (BitVec.ofNat 64 v) s)
    (t := dictAnswer p 0 [] (setDict (dkey ix sub) (BitVec.ofNat 64 v) s)) rfl j).trans (getDict_setDict _ _ _ _)
  refine ⟨_, exec_dictWrite hs h, (hget _).trans (if_pos rfl), fun j hj => (hget j).trans (if_neg hj), ?_, rfl⟩
  unfold dictAnswer
  dsimp only
  rw [mget_mset, if_pos rfl, List.append_nil]

end

end

/-- Settles O26: the reads, then the checks of a write in their order. -/
theorem dictionaryAccesses : Obligations.DictionaryAccesses := by
  unfold Obligations.DictionaryAccesses
  intro p ix sub s hs
  refine ⟨fun r h hw => ⟨fun n hn => exec_dictRead hs ?_, fun hn => exec_dictRead hs ?_⟩,
    fun h => ⟨exec_dictRead hs (dictRead_missing h), fun data => exec_dictWrite hs (dictWrite_missing h)⟩,
    fun r h => ⟨fun hw => exec_dictRead hs ?_, fun hshut data => exec_dictWrite hs ?_, fun hshut hbusy data => exec_dictWrite hs ?_,
      fun n data hshut hbusy hn => ?_⟩⟩
  · rw [dictRead_row h, if_neg hw, hn]
  · rw [dictRead_row h, if_neg hw, hn]
  · rw [dictRead_row h, if_pos hw]
  · rw [dictWrite_row h, if_pos hshut]
  · rw [dictWrite_row h, if_neg hshut, if_pos hbusy]
  · have hf := dictWrite_fixed (data := data) h hshut hbusy hn
    refine ⟨fun hl => exec_dictWrite hs (hf.trans (writeFixed_length hl)),
      fun hl hb => exec_dictWrite hs (hf.trans (writeFixed_range hl hb)),
      fun hl hb hr => exec_dictWrite hs (hf.trans (writeFixed_state hl hb hr)),
      fun hl hb hr hk hq => exec_dictStores hs ?_⟩
    exact (hf.trans (writeFixed_passes hl hb hr)).trans (writeNat_stores hk hq _ s)

end Sys2Proof.Machine
end

section
/-! The tick, DVFS and the Ledger's tick (R17, R20, R175, R277, R363, R366, R443). -/

namespace Sys2Proof.Machine

/-- A die's tick before its commits are applied: die 0 has ticked the module, and the die's quota windows begin again. -/
def dieTicked (d : DieId) (s : State) : State := newWindows d.val (if d.val = 0 then moduleTick s else s)

theorem dieTicked_spec (d : DieId) (s : State) :
    (dieTicked d s).tick = s.tick + (if d.val = 0 then 1 else 0) ∧
    (dieTicked d s).fabric.time =
      (if d.val = 0 then { s.fabric.time with phase := trimPhase s.fabric.time.phase } else s.fabric.time) ∧
    (∀ k, mget {} (dieTicked d s).arbs k = if k / 4 = d.val then arbWindow (mget {} s.arbs k) else mget {} s.arbs k) ∧
    Only [.tick, .fabric, .arbs, .clients, .dict, .sat, .host, .logs] s (dieTicked d s) := by
  unfold dieTicked
  by_cases hd : d.val = 0
  · simp only [if_pos hd]
    obtain ⟨k1, htick, hfab⟩ := moduleTick_spec s
    obtain ⟨k2, harb⟩ := newWindows_spec d (moduleTick s)
    refine ⟨(k2.tick (by decide)).trans htick, ?_, fun k => ?_, (k1.mono (by decide)).step k2 (by decide)⟩
    · rw [k2.fabric (by decide), hfab]
    · rw [harb, k1.arbs (by decide)]
  · simp only [if_neg hd]
    obtain ⟨k2, harb⟩ := newWindows_spec d s
    exact ⟨k2.tick (by decide), congrArg Fabric.time (k2.fabric (by decide)), harb, k2.mono (by decide)⟩

/-- A die's lane swaps that wait leave the phase and everything beside ports, spares and accounts (R274). -/
theorem dueSwaps_spec (d : Nat) (s : State) :
    ((List.range 8).foldl (fun s i => dueSwap (8 * d + i) s) s).fabric.time = s.fabric.time ∧
    Only [.fabric, .regs, .dict, .sat, .ledger, .host, .logs, .wearS, .free] s
      ((List.range 8).foldl (fun s i => dueSwap (8 * d + i) s) s) :=
  ⟨foldl_field (fun s => s.fabric.time) _ _ _ fun s i => (dueSwap_only (8 * d + i) s).2,
    Only.foldl (fun s i => (dueSwap_only (8 * d + i) s).1) _ _⟩

/-- The end of a die's tick: due commits, lane swaps that wait, then the clients' re-shards. -/
theorem exec_scheduleTick (d : DieId) (s : State) : exec (.scheduleTick d) s =
    .next ((List.range 16).foldl (fun s c => settleCommits c s)
      ((List.range 8).foldl (fun s i => dueSwap (8 * d.val + i) s) (dueCommits d (dieTicked d s)))) := rfl

theorem scheduleTick_spec (d : DieId) (s : State) : ∃ n, exec (.scheduleTick d) s = .next n ∧
    n.tick = (dieTicked d s).tick ∧ n.fabric.time = (dieTicked d s).fabric.time ∧ n.arbs = (dieTicked d s).arbs ∧
    n.cat = (dueCommits d (dieTicked d s)).cat ∧
    Only (.fabric :: .cat :: .clients :: .plates :: .mem :: .wearS :: .free :: accountParts) (dieTicked d s) n := by
  have k1 := dueCommits_only d (dieTicked d s)
  obtain ⟨htime, k2⟩ := dueSwaps_spec d.val (dueCommits d (dieTicked d s))
  have k3 := Only.foldl (fun s c => settleCommits_only c s) (List.range 16)
    ((List.range 8).foldl (fun s i => dueSwap (8 * d.val + i) s) (dueCommits d (dieTicked d s)))
  have k : Only (.fabric :: .cat :: .clients :: .plates :: .mem :: .wearS :: .free :: accountParts) (dieTicked d s) _ :=
    ((k1.mono (by decide)).step k2 (by decide)).step k3 (by decide)
  refine ⟨_, exec_scheduleTick d s, k.tick (by decide), ?_, k.arbs (by decide), (k3.cat (by decide)).trans (k2.cat (by decide)), k⟩
  exact (congrArg Fabric.time (k3.fabric (by decide))).trans
    (htime.trans (congrArg Fabric.time (k1.fabric (by decide))))

/-- DVFS: a frequency selected other than the present one takes effect, and is counted (R17). -/
theorem tclkChange_selected {s : State} (h0 : s.start.tcut ≠ 0) (h1 : s.start.tcut ≠ tclk s) :
    ∃ n, exec .tclkChange s = .next n ∧ getDict n (dkey 0x2100 0x10) = BitVec.ofNat 64 s.start.tcut ∧
      Only [.dict, .sat, .host, .logs] s n := by
  refine ⟨_, congrArg Host.Outcome.next (if_neg (not_or.2 ⟨h0, h1⟩)), ?_, ((setDict_only _ _ s).mono (by decide)).step (bumpDict_only _ _ _) (by decide)⟩
  rw [bumpDict_getDict, if_neg (by decide), getDict_setDict, if_pos rfl]

theorem setSensors_tstack (m : Sensors) (s : State) :
    getDict (setSensors m s) (dkey 0x3000 0x05) = BitVec.ofNat 64 m.tstack := by
  unfold setSensors
  rw [getDict_setDict, if_pos rfl]

/-- An evaluation of DVFS: the readings are stored, and the target is selected, with an event where it is another than the
present one (R443). -/
theorem throttleEval_spec (m : Sensors) {s : State} (hf : s.start.firmware = true) :
    ∃ n, exec (.throttleEval m) s = .next n ∧
      n.start = { s.start with tcut := (throttleTarget (setSensors m s) m).1 } ∧
      ((throttleTarget (setSensors m s) m).1 ≠ tclk (setSensors m s) →
        ∃ y, n = post 0x0803 16 (throttleTarget (setSensors m s) m).1 y ∧
          y.start = { s.start with tcut := (throttleTarget (setSensors m s) m).1 }) ∧
      getDict n (dkey 0x3000 0x05) = BitVec.ofNat 64 m.tstack ∧ Only [.dict, .sat, .host, .logs, .start] s n := by
  have k1 := setSensors_only m s
  have hstart := k1.start (by decide)
  have hstack := setSensors_tstack m s
  refine ⟨_, congrArg Host.Outcome.next (if_neg (not_not.2 hf)), ?_⟩
  dsimp only
  generalize setSensors m s = s1 at k1 hstart hstack ⊢
  obtain ⟨t, cause⟩ := throttleTarget s1 m
  dsimp only
  by_cases ht : t = tclk s1
  · rw [if_pos ht]
    exact ⟨by rw [hstart], fun hne => absurd ht hne, hstack, (k1.mono (by decide)).step (only_start _ _) (by decide)⟩
  · rw [if_neg ht]
    have k2 : Only [.dict, .sat, .host, .logs] s1 (bumpDict (dkey 0x2100 0x0D) 1 (setDict (dkey 0x2100 0x0C) (BitVec.ofNat 64 cause) s1)) :=
      ((setDict_only _ _ s1).mono (by decide)).step (bumpDict_only _ _ _) (by decide)
    have hstack2 : getDict (bumpDict (dkey 0x2100 0x0D) 1 (setDict (dkey 0x2100 0x0C) (BitVec.ofNat 64 cause) s1)) (dkey 0x3000 0x05) =
        BitVec.ofNat 64 m.tstack := by
      rw [bumpDict_getDict, if_neg (by decide), getDict_setDict, if_neg (by decide), hstack]
    generalize bumpDict (dkey 0x2100 0x0D) 1 _ = s2 at k2 hstack2 ⊢
    have hstart2 : s2.start = s.start := (k2.start (by decide)).trans hstart
    refine ⟨by rw [post_start, hstart2], fun _ => ⟨_, rfl, by rw [hstart2]⟩, ?_, ?_⟩
    · exact (getDict_congr (post_dict _ _ _ _) _).trans hstack2
    · exact (((k1.mono (by decide)).step k2 (by decide)).step (only_start _ _) (by decide)).step (post_only _ _ _ _) (by decide)

/-- The Ledger's tick: the clients' shares leave the module's total, to which the tick's energy is added (R366). -/
theorem ledgerTick_spec (energy : List EnergyIn) (s : State) : ∃ n, exec (.ledgerTick energy) s = .next n ∧
    mget 0 n.ledger (16 * 32 + 2) = mget 0 s.ledger (16 * 32 + 2) +
      ((energy.take 4).map fun x => x.compute + x.stk.sum + x.links + x.mgmt).sum ∧ n.served = [] ∧
    Only (.served :: accountParts) s n := by
  obtain ⟨k1, htotal⟩ := foldl_energy (fun s (x : EnergyIn × Nat) => dieEnergy x.2 x.1 s) (fun s x => dieEnergy_spec _ _ _)
    (energy.take 4).zipIdx s
  refine ⟨_, rfl, ?_, rfl, ?_⟩
  · exact (mget_mset_same _ _ _ _).trans (by rw [htotal])
  · exact ((k1.mono (by decide)).step (setLedger_only _ _ _) (by decide)).step (only_served _ _) (by decide)

/-- Settles O27: command by command. -/
theorem ticksAndClocks : Obligations.TicksAndClocks := by
  unfold Obligations.TicksAndClocks
  refine ⟨fun d s => ?_, fun s => ⟨tclkChange_selected, fun h => congrArg Host.Outcome.next (if_pos h)⟩, fun m s => throttleEval_spec m,
    ledgerTick_spec⟩
  obtain ⟨htick, htime, harbs, k1⟩ := dieTicked_spec d s
  obtain ⟨n, hx, ntick, ntime, narbs, ncat, k2⟩ := scheduleTick_spec d s
  refine ⟨n, hx, ntick.trans htick, ntime.trans htime, fun k => ?_, ncat, (k1.mono (by decide)).step k2 (by decide)⟩
  rw [narbs]
  exact harbs k

end Sys2Proof.Machine
end

section
/-! Steps of a client: start, completion, abort and its messages (R220, R229, R230, R343, R373, R374). -/

namespace Sys2Proof.Machine

theorem tokens_congr {s t : State} (h : t.plates.tokens = s.plates.tokens) (d f r : Nat) : tokens t d f r = tokens s d f r := by
  unfold tokens
  rw [h]

theorem getEng_congr_engs {s t : State} (h : t.plates.engs = s.plates.engs) (e : Eng) : getEng t e = getEng s e := by
  unfold getEng
  rw [h]

/-- Every engine of a client's dies. -/
def clientEngines (cl : Client) : List Eng := ((List.range 4).filter (hasDie cl)).flatMap enginesOf

theorem mem_clientEngines {cl : Client} {d : Nat} {e : Eng} (hd : d < 4) (hh : hasDie cl d = true) (he : e ∈ enginesOf d) :
    e ∈ clientEngines cl :=
  List.mem_flatMap.2 ⟨d, List.mem_filter.2 ⟨List.mem_range.2 hd, hh⟩, he⟩

/-! ### A step's start -/

/-- A client whose run's step starts: the step is in progress, and every lane group's base is the step's (R374). -/
def startedClient (cl : Client) (r : Run) : Client :=
  { cl with
    step := some { idx := r.idx, n := r.n }
    arch := { cl.arch with bases := (laneGroups cl).foldl (fun m g => mset 0 m g (r.idx + 1)) cl.arch.bases } }

/-- An engine whose plate starts from its beginning. -/
def FromStart (g : EngSt) : Prop := g.running = true ∧ g.win = [] ∧ g.words = [] ∧ g.fetched = 0 ∧ g.nextIx = 0

theorem startEngines_spec (es : List Eng) (s : State) :
    (∀ e ∈ es, FromStart (getEng (es.foldl startEngine s) e)) ∧ Only [.plates] s (es.foldl startEngine s) ∧
    (es.foldl startEngine s).plates = { s.plates with engs := (es.foldl startEngine s).plates.engs } :=
  foldl_setEng _ FromStart (fun _ _ => ⟨rfl, rfl, rfl, rfl, rfl⟩) es s

/-- Clearing the gate's outcome on a client's dies (R220). -/
def clearOutcomes (cl : Client) (s : State) : State :=
  ((List.range 4).filter (hasDie cl)).foldl (fun s d => setReg (collBlk d 0) (setFld (getReg s (collBlk d 0)) 9 1 0) s) s

theorem clearOutcomes_only (cl : Client) (s : State) : Only [.regs] s (clearOutcomes cl s) :=
  Only.foldl (fun s _ => setReg_only _ _ s) _ _

section
variable {c : ClientId} {s : State} {r : Run} (hr : (getClient s c.val).run = some r)
include hr

theorem exec_stepStart (h : stepReady s c.val r = true) : exec (.stepStart c) s =
    .next (clearVotes c.val (clearOutcomes (getClient s c.val) ((clientEngines (getClient s c.val)).foldl startEngine
      (presetTokens c.val (setClient c.val (startedClient (getClient s c.val) r) s))))) := by
  change execStepStart c s = _
  unfold execStepStart
  dsimp only
  rw [hr]
  dsimp only
  rw [if_neg (not_not.2 h), ← hr]
  rfl

theorem stepStart_spec (h : stepReady s c.val r = true) :
    ∃ n t, exec (.stepStart c) s = .next n ∧ t = presetTokens c.val (setClient c.val (startedClient (getClient s c.val) r) s) ∧
      getClient n c.val = { startedClient (getClient s c.val) r with scope := (getClient n c.val).scope } ∧
      (∀ e ∈ clientEngines (getClient s c.val), FromStart (getEng n e)) ∧
      n.plates = { t.plates with engs := n.plates.engs } ∧
      Only (.plates :: accessParts) s n := by
  have hx := exec_stepStart hr h
  have k1 := setClient_only c.val (startedClient (getClient s c.val) r) s
  have hcl : getClient (setClient c.val (startedClient (getClient s c.val) r) s) c.val = startedClient (getClient s c.val) r := by
    rw [getClient_setClient, if_pos rfl]
  generalize setClient c.val (startedClient (getClient s c.val) r) s = s1 at hx k1 hcl ⊢
  have k2 := presetTokens_only c.val s1
  generalize presetTokens c.val s1 = s2 at hx k2 ⊢
  obtain ⟨heng, k3, hplates⟩ := startEngines_spec (clientEngines (getClient s c.val)) s2
  generalize (clientEngines (getClient s c.val)).foldl startEngine s2 = s3 at hx heng k3 hplates
  have k4 := clearOutcomes_only (getClient s c.val) s3
  generalize clearOutcomes (getClient s c.val) s3 = s4 at hx k4
  obtain ⟨k5, hscopes⟩ := clearVotes_spec c.val s4
  generalize clearVotes c.val s4 = n at hx k5 hscopes
  have hclients : s4.clients = s1.clients :=
    (k4.clients (by decide)).trans ((k3.clients (by decide)).trans (k2.clients (by decide)))
  have hn : n.plates = s3.plates := (k5.plates (by decide)).trans (k4.plates (by decide))
  refine ⟨n, s2, hx, rfl, ?_, fun e he => ?_, ?_, ?_⟩
  · rw [← hcl, ← getClient_congr hclients]
    exact hscopes c.val
  · rw [getEng_congr hn]
    exact heng e he
  · rw [hn]
    exact hplates
  · exact ((((k1.mono (by decide)).step k2 (by decide)).step k3 (by decide)).step k4 (by decide)).step k5 (by decide)

/-- A step that may start: its client, its tokens, its posts and its plates (R220, R374). -/
theorem stepStart_starts (h : stepReady s c.val r = true) :
    let cl := getClient s c.val
    let ps := clientPresets cl
    (∀ p ∈ ps, p.1 < 17 ∧ p.2.1 < 256) →
    ∃ n, exec (.stepStart c) s = .next n ∧ (getClient n c.val).step = some { idx := r.idx, n := r.n } ∧
      (∀ g ∈ laneGroups cl, mget 0 (getClient n c.val).arch.bases g = r.idx + 1) ∧
      (∀ d f k, d < 4 → f < 17 → k < 256 → tokens n d f k = if hasDie cl d then
        (match ps.reverse.find? fun p => decide (p.1 = f ∧ p.2.1 = k) with | some p => p.2.2 % 2 ^ 16 | none => 0)
        else tokens s d f k) ∧
      n.plates.posts = s.plates.posts.filter (fun p => decide (p.client ≠ c.val)) ∧
      (∀ d e, d < 4 → hasDie cl d = true → e ∈ enginesOf d → (getEng n e).running = true ∧ (getEng n e).win = [] ∧
        (getEng n e).words = [] ∧ (getEng n e).fetched = 0 ∧ (getEng n e).nextIx = 0) ∧
      Only (.plates :: accessParts) s n := by
  intro cl ps hps
  obtain ⟨n, t, hx, ht, hcl, heng, hplates, k⟩ := stepStart_spec hr h
  have hst : getClient (setClient c.val (startedClient cl r) s) c.val = startedClient cl r := by
    rw [getClient_setClient, if_pos rfl]
  refine ⟨n, hx, ?_, fun g hg => ?_, fun d f k hd hf hk => ?_, ?_,
    fun d e hd hh he => heng e (mem_clientEngines hd hh he), k⟩
  · rw [hcl]
    rfl
  · rw [hcl]
    exact (foldl_bases r.idx (laneGroups cl) _ g).trans (if_pos hg)
  · have htok := presetTokens_tokens c.val (setClient c.val (startedClient cl r) s) (by rw [hst]; exact hps) d f k hd hf hk
    rw [← ht, hst] at htok
    exact (tokens_congr (by rw [hplates]) d f k).trans htok
  · rw [hplates, ht, presetTokens_plates]
    rfl

end

/-! ### A step's completion -/

/-- The measured slowdown of a client's step (R367). -/
def stepSlowdown (c : Nat) (st : StepSt) (s : State) : Nat := slowdown (shareOf s c).stepLen st.stretch

/-- What a completed step records: scope word and index, slowdown, data position (R26, R367, R373). -/
def stepRecorded (c : Nat) (st : StepSt) (s : State) : State :=
  setDataPos c (advancePos (dataPos s c)) (recordSlow c (stepSlowdown c st s) (recordScope c st.idx s))

theorem stepRecorded_spec {c : Nat} (hc : c < 16) (st : StepSt) (s : State) :
    getClient (stepRecorded c st s) c = { getClient s c with scope := 0 } ∧
    getDict (stepRecorded c st s) (dkey 0xA000 (0x20 + c)) = BitVec.ofNat 64 st.idx ∧
    getDict (stepRecorded c st s) (dkey 0xA000 (0x10 + c)) =
      ((getClient s c).scope ||| (if lateViol s c then scViolation else 0)).setWidth 64 ∧
    dataPos (stepRecorded c st s) c = advancePos (dataPos s c) := by
  unfold stepRecorded
  obtain ⟨-, hscope, hidx, hword⟩ := recordScope_spec c st.idx hc s
  have k := recordSlow_only c (stepSlowdown c st s) (recordScope c st.idx s)
  generalize recordSlow c (stepSlowdown c st s) (recordScope c st.idx s) = y at k ⊢
  refine ⟨(getClient_congr (k.clients (by decide)) c).trans hscope, (getDict_congr (k.dict (by decide)) _).trans hidx,
    (getDict_congr (k.dict (by decide)) _).trans hword, ?_⟩
  exact dataPos_setDataPos _ _ _ (advancePos_length _ (dataPos_length c s))

/-- A client with a step of its run done, and the next one to come. -/
def stepCounted (c : Nat) (st : StepSt) (r : Run) (s : State) : State :=
  let cl := getClient s c
  let due := decide (r.arch ≠ 0) && decide ((st.idx + 1) % r.arch = 0)
  let pause := if due && decide (1 < r.left) then (getDict s (dkey 0x9002 c)).toNat else 0
  setClient c { cl with
    step := none, next := st.idx + 1,
    run := some { r with left := r.left - 1, n := r.n + 1, idx := st.idx + 1 },
    arch := { cl.arch with lastAborted := false, due := due, pause := pause } } s

theorem stepCounted_getClient (c : Nat) (st : StepSt) (r : Run) (s : State) : ∃ a, getClient (stepCounted c st r s) c =
    { getClient s c with
      step := none, next := st.idx + 1, run := some { r with left := r.left - 1, n := r.n + 1, idx := st.idx + 1 }, arch := a } :=
  ⟨_, by unfold stepCounted; rw [getClient_setClient, if_pos rfl]⟩

/-- The completion event of a step (R220). -/
def stepPosted (c : Nat) (st : StepSt) (s : State) : State :=
  post 0x0002 c (stepSlowdown c st s % 65536) (stepRecorded c st s)

theorem endStep_eq (c : Nat) (st : StepSt) (r : Run) (s : State) : endStep c st r s =
    if r.left ≤ 1 then endRun c stOk (stepCounted c st r (stepPosted c st s)) else stepCounted c st r (stepPosted c st s) := rfl

/-- The end of a completed step, after its event: the client goes to its next step, or ends its run. -/
theorem endStep_spec (c : Nat) (st : StepSt) (r : Run) (s : State) :
    Only [.cat, .clients, .host, .logs] (stepPosted c st s) (endStep c st r s) ∧
    (stepPosted c st s).host.posted <+: (endStep c st r s).host.posted ∧
    (getClient (endStep c st r s) c).step = none ∧ (getClient (endStep c st r s) c).next = st.idx + 1 ∧
    (getClient (endStep c st r s) c).scope = (getClient (stepPosted c st s) c).scope ∧
    (r.left ≤ 1 → (getClient (endStep c st r s) c).run = none) ∧
    (1 < r.left → (getClient (endStep c st r s) c).run = some { r with left := r.left - 1, n := r.n + 1, idx := st.idx + 1 }) := by
  rw [endStep_eq]
  generalize stepPosted c st s = p
  obtain ⟨a, hcl⟩ := stepCounted_getClient c st r p
  have k1 : Only [.clients] p (stepCounted c st r p) := setClient_only _ _ _
  generalize stepCounted c st r p = y at hcl k1 ⊢
  by_cases hl : r.left ≤ 1
  · simp only [if_pos hl]
    obtain ⟨k2, ⟨v, hend⟩, hpost⟩ := endRun_spec c stOk y
    rw [hcl] at hend
    refine ⟨(k1.mono (by decide)).step k2 (by decide), ?_, ?_⟩
    · rwa [k1.host (by decide)] at hpost
    · rw [hend]
      exact ⟨rfl, rfl, rfl, fun _ => rfl, fun h => absurd h (Nat.not_lt.2 hl)⟩
  · simp only [if_neg hl]
    refine ⟨k1.mono (by decide), by rw [k1.host (by decide)], ?_⟩
    rw [hcl]
    exact ⟨rfl, rfl, rfl, fun h => absurd h hl, fun _ => rfl⟩

section
variable {c : ClientId} {s : State} {st : StepSt} {r : Run} (hs : (getClient s c.val).step = some st)
  (hr : (getClient s c.val).run = some r) (hover : stepOver s c.val st = true)
include hs hr hover

theorem exec_stepComplete : exec (.stepComplete c) s =
    .next (if st.aborted then endAborted c.val s else endStep c.val st r s) := by
  change execStepComplete c s = _
  unfold execStepComplete
  dsimp only
  rw [hs, hr]
  dsimp only
  rw [if_neg (not_not.2 hover)]

theorem stepComplete_completes (ha : st.aborted = false) :
    ∃ n, exec (.stepComplete c) s = .next n ∧ (getClient n c.val).step = none ∧
      (getClient n c.val).next = st.idx + 1 ∧ (getClient n c.val).scope = 0 ∧
      (r.left ≤ 1 → (getClient n c.val).run = none) ∧
      (1 < r.left → (getClient n c.val).run = some { r with left := r.left - 1, n := r.n + 1, idx := st.idx + 1 }) ∧
      getDict n (dkey 0xA000 (0x20 + c.val)) = BitVec.ofNat 64 st.idx ∧
      getDict n (dkey 0xA000 (0x10 + c.val)) =
        ((getClient s c.val).scope ||| (if lateViol s c.val then scViolation else 0)).setWidth 64 ∧
      dataPos n c.val = advancePos (dataPos s c.val) ∧
      ∃ x, (post 0x0002 c.val (slowdown (shareOf s c.val).stepLen st.stretch % 65536) x).host.posted <+: n.host.posted := by
  have hx := exec_stepComplete hs hr hover
  rw [if_neg (ha ▸ Bool.false_ne_true)] at hx
  obtain ⟨hscope, hidx, hword, hpos⟩ := stepRecorded_spec c.isLt st s
  obtain ⟨k, hpost, hstep, hnext, hsc, hlast, hmore⟩ := endStep_spec c.val st r s
  have hdict : (endStep c.val st r s).dict = (stepRecorded c.val st s).dict := k.dict (by decide)
  refine ⟨_, hx, hstep, hnext, ?_, hlast, hmore, (getDict_congr hdict _).trans hidx, (getDict_congr hdict _).trans hword,
    (dataPos_congr (k.blobs (by decide)) c.val).trans hpos, _, hpost⟩
  exact hsc.trans (congrArg Client.scope hscope)

/-- An aborted step that has stopped ends its run (R230, R343). -/
theorem stepComplete_aborted (ha : st.aborted = true) : ∃ n, exec (.stepComplete c) s = .next n ∧
    (getClient n c.val).step = none ∧ (getClient n c.val).run = none ∧ (getClient n c.val).arch.lastAborted = true := by
  have hx := exec_stepComplete hs hr hover
  rw [if_pos ha] at hx
  refine ⟨_, hx, ?_⟩
  unfold endAborted
  obtain ⟨-, ⟨v, hend⟩, -⟩ := endRun_spec c.val stAborted (setClient c.val { getClient s c.val with
    step := none, scope := 0, arch := { (getClient s c.val).arch with lastAborted := true } } s)
  rw [getClient_setClient, if_pos rfl] at hend
  rw [hend]
  exact ⟨rfl, rfl, rfl⟩

end

/-! ### A step's abort -/

/-- An engine whose plate an abort has emptied and ended (R229). -/
def Emptied (g : EngSt) : Prop := g.win = [] ∧ g.words = [] ∧ g.ended = true

theorem stopEngines_spec (es : List Eng) (s : State) :
    (∀ e ∈ es, Emptied (getEng (es.foldl stopEngine s) e)) ∧ Only [.plates] s (es.foldl stopEngine s) ∧
    (es.foldl stopEngine s).plates = { s.plates with engs := (es.foldl stopEngine s).plates.engs } :=
  foldl_setEng _ Emptied (fun _ _ => ⟨rfl, rfl, rfl⟩) es s

/-- The end of an abort, from the state whose engines have stopped, changes tokens and posts alone of the plates (R229). -/
theorem stopTail_plates (c : Nat) (st : StepSt) (p : Ctx → Bool) (s4 : State) :
    let s5 := presetTokens c (dropTx c (freeCtxs p s4))
    let s6 := if st.forigin = moduleId s5 then floodAbort c st.forigin st.fcode st.idx none s5 else s5
    let s7 := updStep c (fun st => { st with stopped := true, gates := [], commits := [] }) s6
    let n := post 0x0301 c (st.fcode % 65536 + 2 ^ 16 * (st.forigin % 4096)) (bumpDict (dkey 0x4040 0x04) 1 s7)
    n.plates.engs = s4.plates.engs ∧ n.plates.flights = s4.plates.flights := by
  intro s5 s6 s7 n
  have k1 : Only [.tiles, .fabric, .dict] s4 (dropTx c (freeCtxs p s4)) :=
    (freeCtxs_only p s4).step (dropTx_kept c (Kept.rfl' _) (ks := [.fabric]) (by decide)).only (by decide)
  have h5 : s5.plates = _ := presetTokens_plates c (dropTx c (freeCtxs p s4))
  have k6 : Only [.fabric] s5 s6 := Only.ite (floodAbort_only _ _ _ _ _ _) (Only.rfl' _)
  have k7 : Only [.clients] s6 s7 := updStep_only _ _ _
  have k8 : Only [.dict, .sat, .host, .logs] s7 n := (bumpDict_only _ _ _).trans ((post_only _ _ _ _).mono (by decide))
  have hn : n.plates = s5.plates := (k8.plates (by decide)).trans ((k7.plates (by decide)).trans (k6.plates (by decide)))
  rw [k1.plates (by decide)] at h5
  exact ⟨by rw [hn, h5], by rw [hn, h5]⟩

/-- The commands of a client that an abort discards (R229). -/
def abortGone (c : Nat) (s : State) : List Nat :=
  (s.plates.flights.filter fun f => decide (f.client = c) && abortDiscards s f).map (·.id)

/-- The engines of a client stopped, and the commands that its abort discards taken back (R229). -/
def enginesStopped (c : Nat) (s : State) : State :=
  let s1 := (clientEngines (getClient s c)).foldl stopEngine s
  { s1 with plates := { s1.plates with flights := s1.plates.flights.filter fun f => !(abortGone c s).contains f.id } }

theorem enginesStopped_flights (c : Nat) (s : State) :
    (enginesStopped c s).plates.flights = s.plates.flights.filter fun f => !(abortGone c s).contains f.id := by
  obtain ⟨-, -, hplates⟩ := stopEngines_spec (clientEngines (getClient s c)) s
  unfold enginesStopped
  dsimp only
  rw [hplates]

theorem stopStep_plates (c : Nat) (st : StepSt) (s : State) :
    (stopStep c st s).plates.engs = (enginesStopped c s).plates.engs ∧
    (stopStep c st s).plates.flights = (enginesStopped c s).plates.flights := by
  have k : Only [.tiles, .units] (enginesStopped c s) (((List.range 4).filter (hasDie (getClient s c))).foldl
      (fun s d => (tilesOf d).foldl (fun s t => abortTile t s) s) (enginesStopped c s)) :=
    Only.foldl (fun s d => Only.foldl (fun s t => abortTile_only t s) _ _) _ _
  have hplates := k.plates (by decide)
  rw [← hplates]
  exact stopTail_plates c st _ _

section
variable {c : ClientId} {s : State} {st : StepSt} (hs : (getClient s c.val).step = some st) (ha : st.aborted = true)
  (hstop : st.stopped = false) (hstate : (getClient s c.val).state = 2)
include hs ha hstop hstate

theorem exec_stepAbort : exec (.stepAbort c) s = .next (stopStep c.val st s) := by
  change execStepAbort c s = _
  unfold execStepAbort
  rw [hs]
  dsimp only
  rw [if_pos (by rw [ha, hstop, hstate]; rfl)]

theorem stepAbort_stops : ∃ n, exec (.stepAbort c) s = .next n ∧
    (getClient n c.val).step = some { st with stopped := true, gates := [], commits := [] } ∧
    (∀ d e, d < 4 → hasDie (getClient s c.val) d = true → e ∈ enginesOf d →
      (getEng n e).win = [] ∧ (getEng n e).words = [] ∧ (getEng n e).ended = true) ∧
    n.plates.flights = s.plates.flights.filter (fun f =>
      !((s.plates.flights.filter fun g => decide (g.client = c.val) && abortDiscards s g).map (·.id)).contains f.id) ∧
    ∃ x, n = post 0x0301 c.val (st.fcode % 65536 + 2 ^ 16 * (st.forigin % 4096)) x := by
  obtain ⟨-, hclients, -⟩ := stopStep_spec c.val st s
  obtain ⟨hengs, hflights⟩ := stopStep_plates c.val st s
  obtain ⟨hempty, -, -⟩ := stopEngines_spec (clientEngines (getClient s c.val)) s
  refine ⟨_, exec_stepAbort hs ha hstop hstate, ?_, fun d e hd hh he => ?_,
    hflights.trans (enginesStopped_flights c.val s), _, rfl⟩
  · rw [getClient_congr hclients, updStep_getClient, if_pos rfl, hs]
    rfl
  · rw [getEng_congr_engs hengs]
    exact hempty e (mem_clientEngines hd hh he)

end

/-! ### Abort messages -/

theorem floodAbort_unseen {c o f n : Nat} {b : Option Nat} {s : State} (h : s.fabric.aborts.contains (o, n % 2 ^ 32) = false) :
    (floodAbort c o f n b s).fabric.aborts = s.fabric.aborts ++ [(o, n % 2 ^ 32)] := by
  unfold floodAbort
  rw [if_neg (h ▸ Bool.false_ne_true), (flood_spec _ _ _ _).2]

theorem abortMessage_unseen (p : PortId) (w0 w1 : Word) (s : State)
    (h : s.fabric.aborts.contains (fld w0 8 12, fld w1 0 32) = false) :
    ∃ n, exec (.abortMessage p w0 w1) s = .next n ∧
      n.fabric.aborts = s.fabric.aborts ++ [(fld w0 8 12, fld w1 0 32)] ∧
      (getClient n (fld w0 20 4)).step = ((getClient s (fld w0 20 4)).step.map fun st =>
        if st.aborted ∨ st.idx % 2 ^ 32 ≠ fld w1 0 32 then st
        else { st with aborted := true, fcode := fld w0 24 16, forigin := fld w0 8 12 }) ∧
      Only [.fabric, .clients] s n := by
  have hmod : fld w1 0 32 % 2 ^ 32 = fld w1 0 32 := Nat.mod_mod _ _
  have k1 := floodAbort_only (fld w0 20 4) (fld w0 8 12) (fld w0 24 16) (fld w1 0 32) (some p.val) s
  have haborts := floodAbort_unseen (c := fld w0 20 4) (f := fld w0 24 16) (b := some p.val) (s := s) (by rw [hmod]; exact h)
  refine ⟨_, congrArg Host.Outcome.next (if_neg (h ▸ Bool.false_ne_true)), ?_, ?_, (k1.mono (by decide)).step (updStep_only _ _ _) (by decide)⟩
  · rw [(updStep_only _ _ _).fabric (by decide), haborts, hmod]
  · rw [updStep_getClient, if_pos rfl, getClient_congr (k1.clients (by decide))]

/-- Settles O29: the start, the two completions, the abort, the message. -/
theorem stepsAndAborts : Obligations.StepsAndAborts := by
  unfold Obligations.StepsAndAborts
  exact ⟨fun c s r hr h => stepStart_starts hr h,
    fun c s st r hs hr hover => ⟨stepComplete_completes hs hr hover, stepComplete_aborted hs hr hover⟩,
    fun c s st hs ha hstop hstate => stepAbort_stops hs ha hstop hstate,
    fun p w0 w1 s => ⟨fun h => congrArg Host.Outcome.next (if_pos h), abortMessage_unseen p w0 w1 s⟩⟩

end Sys2Proof.Machine
end

section
/-! Vector reductions, scans, recurrences and exact registers (R53, R54, R116 to R120, R125). -/

namespace Sys2Proof.Machine

/-! ### Reductions and sums over a group: the result that the engine tabulates is the one it writes -/

theorem get_ofFn {α : Type} (f : Fin 512 → α) : (Vector.ofFn f).get = f := funext (ofFn_get f)

/-- Lane l of a reduction by f over the groups of g lanes: f of the first lane with itself, then of each later lane in turn. -/
def groupFold (f : Lane → Lane → Lane) (a : VReg) (g : Nat) (l : Fin 512) : Lane :=
  (List.range (g - 1)).foldl (fun m k => f m (laneAt a (l.val / g * g + k + 1))) (f (laneAt a (l.val / g * g)) (laneAt a (l.val / g * g)))

/-- Lane l of the merge of an exact register over the groups of g lanes. -/
def groupMerge (x : XVec) (g : Nat) (l : Fin 512) : XReg :=
  (List.range g).foldl (fun a k => a.merge (x.get (Fin.ofNat 512 (l.val / g * g + k)))) {}

section
variable {i : Instr} {o : Nat} {t : TileId} {w : Word} {u : List Upset} {s : State} (h : s.NextInstr t w o)
include h

/-! What a command does that runs as an instruction of one shape: it writes a vector register, writes an exact register, or
writes a vector register and counts its non-finite lanes. -/

theorem exec_wroteV {f : VecS → Fin 512 → Lane} (hx : exec i s = runLane o t w u s fun v => writeV w (f v) v) :
    ∃ n v', exec i s = .next n ∧ VecStep (s.operands t w u) n t v' ∧
      WroteV w (f (getVec (s.operands t w u) t)) (getVec (s.operands t w u) t) v' := by
  rw [hx]
  exact runLane_wroteV h

theorem exec_wroteX {f : VecS → Fin 512 → XReg → XReg} (hx : exec i s = runLane o t w u s fun v => writeX w (f v) v) :
    ∃ n v', exec i s = .next n ∧ VecStep (s.operands t w u) n t v' ∧
      WroteX w (f (getVec (s.operands t w u) t)) (getVec (s.operands t w u) t) v' := by
  rw [hx]
  exact runLane_wroteX h

theorem exec_wroteFp {f : VecS → Fin 512 → Lane} {fin : VecS → Fin 512 → Bool} (hx : exec i s = runFp o t w u s f fin) :
    ∃ n v', exec i s = .next n ∧ VecStep (s.operands t w u) n t v' ∧
      WroteV w (f (getVec (s.operands t w u) t)) (getVec (s.operands t w u) t) v' ∧
      CountedNf (s.operands t w u) n t
        (nfCount (getVec (s.operands t w u) t) w (f (getVec (s.operands t w u) t)) (fin (getVec (s.operands t w u) t))) := by
  rw [hx]
  exact runFp_step h

end

theorem exec_vrmax (t : TileId) (w : Word) (u : List Upset) (s : State) : exec (.vrmax t w u) s =
    runLane 0x50 t w u s fun v => writeV w (groupFold fmax (getV v (iVa w)) (groupSize (iSub w))) v := by
  change execVrmax t w u s = _
  simp only [execVrmax, get_ofFn]
  rfl

theorem exec_vrmin (t : TileId) (w : Word) (u : List Upset) (s : State) : exec (.vrmin t w u) s =
    runLane 0x51 t w u s fun v => writeV w (groupFold fmin (getV v (iVa w)) (groupSize (iSub w))) v := by
  change execVrmin t w u s = _
  simp only [execVrmin, get_ofFn]
  rfl

theorem exec_xclr (t : TileId) (w : Word) (u : List Upset) (s : State) : exec (.xclr t w u) s =
    runLane 0x70 t w u s fun v => writeX w (fun _ _ => {}) v := rfl

theorem exec_xadd (t : TileId) (w : Word) (u : List Upset) (s : State) : exec (.xadd t w u) s =
    runLane 0x71 t w u s fun v => writeX w (fun l r => r.add (f32 ((getV v (iVa w)).get l))) v := rfl

theorem exec_xmrg (t : TileId) (w : Word) (u : List Upset) (s : State) : exec (.xmrg t w u) s =
    runLane 0x72 t w u s fun v => writeX w (fun l r => r.merge ((getX v (iVa w % 8)).get l)) v := rfl

theorem exec_xsum (t : TileId) (w : Word) (u : List Upset) (s : State) : exec (.xsum t w u) s =
    runLane 0x73 t w u s fun v => writeX w (fun l _ => groupMerge (getX v (iVd w % 8)) (groupSize (iSub w)) l) v := by
  change execXsum t w u s = _
  simp only [execXsum, get_ofFn]
  rfl

/-! ### Scans and recurrences -/

/-- Lane l's exact prefix of VSCAN. -/
def scanLane (w : Word) (v : VecS) (l : Fin 512) : XReg := scanPrefix (getV v (iVa w)) (groupSize (iSub w % 8)) (bit w 41) l.val

/-- Lane l of the recurrence of its group, and whether its sources were finite. -/
def lrecLane (w : Word) (v : VecS) (l : Fin 512) : Lane × Bool :=
  nth (0, false) (lrecGroup (getV v (iVa w)) (getV v (iVb w)) (getV v (iVc w)) (groupSize (iSub w)) (l.val / groupSize (iSub w)))
    (l.val % groupSize (iSub w))

theorem exec_vscan (t : TileId) (w : Word) (u : List Upset) (s : State) : exec (.vscan t w u) s =
    runFp 0x58 t w u s (fun v l => (narrow32 ((scanLane w v l).value 1)).1)
      (fun v l => !((scanLane w v l).nan || (scanLane w v l).pinf || (scanLane w v l).ninf)) := rfl

theorem exec_vlrec (t : TileId) (w : Word) (u : List Upset) (s : State) : exec (.vlrec t w u) s =
    runFp 0x59 t w u s (fun v l => (lrecLane w v l).1) (fun v l => (lrecLane w v l).2) := rfl

/-! ### XNAR: the scope word that a narrowing by the SAT row marks (R54, R125) -/

/-- The state of a tile's client with SATURATED marked in its scope word, where b says so. -/
def scopedSat (t : TileId) (b : Bool) (s : State) : State :=
  if b then setScope (clientOn s (tileDie t)) scSaturated s else s

theorem scopedSat_regs (t : TileId) (b : Bool) (s : State) : (scopedSat t b s).regs = s.regs := by
  unfold scopedSat
  split
  · exact setScope_regs _ _ _
  · rfl

theorem scopedSat_tiles (t : TileId) (b : Bool) (s : State) : (scopedSat t b s).tiles = s.tiles := by
  unfold scopedSat
  split
  · exact setScope_tiles _ _ _
  · rfl

theorem noteExactSat_eq (t : TileId) (b : Bool) (s : State) : noteExactSat t b s = notePushSat t b (scopedSat t b s) := by
  cases b <;> rfl

theorem notePushSat_tiles (t : TileId) (b : Bool) (s : State) : (notePushSat t b s).tiles = s.tiles := by
  unfold notePushSat
  split
  · exact setBit_tiles _ _ _
  · rfl

theorem notePushSat_accounts (t : TileId) (b : Bool) (s : State) : notePushSat t b s = s.accounts (notePushSat t b s) := by
  unfold notePushSat
  split
  · exact setBit_accounts _ _ _
  · rfl

theorem notePushSat_getReg {t : TileId} {a : Nat} (h : a ≠ vecBlk t 0) (b : Bool) (s : State) :
    getReg (notePushSat t b s) a = getReg s a := by
  unfold notePushSat
  split
  · rw [setBit_getReg, if_neg h]
  · rfl

theorem noteExactSat_tiles (t : TileId) (b : Bool) (s : State) : (noteExactSat t b s).tiles = s.tiles := by
  rw [noteExactSat_eq, notePushSat_tiles, scopedSat_tiles]

theorem noteExactSat_getReg {t : TileId} {a : Nat} (h : a ≠ vecBlk t 0) (b : Bool) (s : State) :
    getReg (noteExactSat t b s) a = getReg s a := by
  rw [noteExactSat_eq, notePushSat_getReg h, getReg_congr (scopedSat_regs _ _ _)]

/-- Marking the scope word after a change of accounts marks the same word. -/
theorem scopedSat_of_accounts {r y : State} (t : TileId) (b : Bool) (h : y = r.accounts y) :
    scopedSat t b y = (scopedSat t b r).accounts (scopedSat t b y) := by
  have hc : clientOn y (tileDie t) = clientOn r (tileDie t) := clientOn_congr (State.eq_clients h) (State.eq_rot h) _
  unfold scopedSat
  rw [hc]
  split
  · exact setScope_of_accounts _ _ h
  · exact h

/-- Marking the scope word after a change of the engine marks the same word. -/
theorem scopedSat_setVec (t : TileId) (b : Bool) (v : VecS) (s : State) :
    scopedSat t b (setVec t v s) = { scopedSat t b s with tiles := (scopedSat t b (setVec t v s)).tiles } := by
  unfold scopedSat
  split
  · exact setScope_setTile _ _ t _ s
  · rfl

/-- The state that XNAR leaves: v' in the engine, k saturations and m non-finite lanes counted, and the SAT row noted as b says. -/
def narrowed (t : TileId) (v' : VecS) (k m : Nat) (b : Bool) (s : State) : State :=
  noteExactSat t b (countNf t m (countVSat t k (setVec t v' s)))

theorem narrowed_tiles (t : TileId) (v' : VecS) (k m : Nat) (b : Bool) (s : State) :
    (narrowed t v' k m b s).tiles = (setVec t v' s).tiles := by
  rw [narrowed, noteExactSat_tiles, countNf_tiles, countVSat_tiles]

theorem narrowed_getReg {t : TileId} {a : Nat} (h0 : a ≠ vecBlk t 0x000) (h8 : a ≠ vecBlk t 0x008) (h10 : a ≠ vecBlk t 0x010)
    (v' : VecS) (k m : Nat) (b : Bool) (s : State) : getReg (narrowed t v' k m b s) a = getReg s a := by
  rw [narrowed, noteExactSat_getReg h0, countNf_getReg, if_neg h8, if_neg h0, countVSat_getReg, if_neg h10]
  rfl

/-- Beyond tiles and accounts, only the scope word has changed. -/
theorem narrowed_frame (t : TileId) (v' : VecS) (k m : Nat) (b : Bool) (s : State) :
    let n := narrowed t v' k m b s
    n = { (scopedSat t b s).accounts n with tiles := n.tiles } := by
  have hcount := State.accounts_trans (countVSat_accounts t k (setVec t v' s)) (countNf_accounts t m _)
  have hnote := State.accounts_trans (scopedSat_of_accounts t b hcount) (notePushSat_accounts t b _)
  rw [← noteExactSat_eq] at hnote
  exact State.accounts_tiles hnote (scopedSat_setVec t b v' s)

theorem narrowed_step {t : TileId} {v' : VecS} {s : State} (hb : v'.block = (getVec s t).block) (k m : Nat) (b : Bool) :
    VecStep (scopedSat t b s) (charge (.vector t) 0x00 (retire t (narrowed t v' k m b s))) t v' := by
  have hbase : getTile (scopedSat t b s) = getTile s := funext (getTile_congr (scopedSat_tiles t b s))
  have hvec : getVec (scopedSat t b s) t = getVec s t := congrArg Tile.vec (congrFun hbase t)
  refine retire_step ?_ (fun y hy => ?_) (hb.trans (congrArg VecS.block hvec.symm)) ?_ (fun a ha => ?_) (narrowed_frame t v' k m b s)
  · rw [getTile_congr (narrowed_tiles t v' k m b s), hbase, setVec, getTile_setTile, if_pos rfl]
  · rw [getTile_congr (narrowed_tiles t v' k m b s), hbase, setVec, getTile_setTile, if_neg hy]
  · rw [getReg_congr (scopedSat_regs t b s), narrowed_getReg] <;> (simp only [vecBlk, tileBlk]; omega)
  · rw [getReg_congr (scopedSat_regs t b s), narrowed_getReg] <;> (rintro rfl; exact ha (by simp [vecRegs]))

/-- Whether the SAT row of R54 decides a lane that XNAR writes. -/
def xnarSat (w : Word) (v : VecS) : Bool :=
  (List.finRange 512).any fun l => (laneMask v w).getLsbD l.val && (((getX v (iVa w % 8)).get l).value (f32 (iImm w)).toRat).isSat

/-- The lanes that XNAR narrows to. -/
def xnarLane (w : Word) (v : VecS) (l : Fin 512) : Lane := (narrow32 (((getX v (iVa w % 8)).get l).value (f32 (iImm w)).toRat)).1

theorem xnarDone_eq (t : TileId) (w : Word) (s : State) : ∃ k m, xnarDone t w s =
    narrowed t (writeV w (xnarLane w (getVec s t)) (getVec s t)) k m (xnarSat w (getVec s t)) s := by
  simp only [xnarDone, narrowed, xnarSat, ofFn_get, List.any_filter]
  exact ⟨_, _, rfl⟩

theorem exec_xnar (t : TileId) (w : Word) (u : List Upset) (s : State) :
    exec (.xnar t w u) s = runInstr 0x74 t w u s fun s => .done (xnarDone t w s) := rfl

theorem xnar_writes {t : TileId} {w : Word} {u : List Upset} {s : State} (h : s.NextInstr t w 0x74) :
    let s0 := s.operands t w u
    ∃ n v', exec (.xnar t w u) s = .next n ∧ VecStep (scopedSat t (xnarSat w (getVec s0 t)) s0) n t v' ∧
      WroteV w (xnarLane w (getVec s0 t)) (getVec s0 t) v' := by
  intro s0
  obtain ⟨k, m, hdone⟩ := xnarDone_eq t w s0
  exact ⟨_, _, (exec_xnar t w u s).trans (runInstr_done h (congrArg IRes.done hdone)),
    narrowed_step (writeV_block _ _ _) k m _, writeV_wrote _ _ _⟩

/-- Settles O10: instruction by instruction, each by its shape; only XNAR marks more than the engine and the accounts. -/
theorem vectorExact : Obligations.VectorExact := by
  unfold Obligations.VectorExact
  intro t w u s s0 v va xa g across pre rec' vec cnt ex sat
  exact ⟨fun h => exec_wroteV h (exec_vrmax t w u s), fun h => exec_wroteV h (exec_vrmin t w u s),
    fun h => exec_wroteFp h (exec_vscan t w u s), fun h => exec_wroteFp h (exec_vlrec t w u s),
    fun h => exec_wroteX h (exec_xclr t w u s), fun h => exec_wroteX h (exec_xadd t w u s),
    fun h => exec_wroteX h (exec_xmrg t w u s), fun h => exec_wroteX h (exec_xsum t w u s), fun h => xnar_writes h⟩

end Sys2Proof.Machine
end

section
/-! Rows and lines that reach the array (R59, R60, R65, R66, R76, R102 to R104). -/

namespace Sys2Proof.Machine

/-- From s to y tile t has become x and no other tile has changed, with counts alone beside it: memory reads as before, no
client's step has changed, and no command. -/
structure Arrived (t : TileId) (x : Tile) (s y : State) : Prop where
  tile : ∀ u, getTile y u = if u = t then x else getTile s u
  scopes : ScopesOnly s y
  same : SameStore s y
  plates : y.plates = s.plates

section
variable {t : TileId} {x : Tile} {s y z : State}

/-- Counts that follow change no tile and no command. -/
theorem Arrived.counted {ks : List Part} (h : Arrived t x s y) (k : Only ks y z) (hs : ScopesOnly y z) (hm : SameStore y z)
    (ht : Part.tiles ∉ ks) (hp : Part.plates ∉ ks) : Arrived t x s z where
  tile u := (getTile_congr (k.tiles ht) u).trans (h.tile u)
  scopes := h.scopes.trans hs
  same := h.same.trans hm
  plates := (k.plates hp).trans h.plates

theorem Arrived.charge (h : Arrived t x s y) (e : Eng) : Arrived t x s (charge e 0x00 y) :=
  h.counted (charge_only _ _ _) (ScopesOnly.of_only (charge_only _ _ _) (by decide)) (charge_same _ _ (by decide) _) (by decide) (by decide)

/-- Out-of-window scales are counted, and marked for their handle's governor (R72). -/
theorem Arrived.violations (h : Arrived t x s y) (c d n : Nat) (e : Entry) :
    Arrived t x s (consumerViol d e.stat n (countViol t c n y)) :=
  (h.counted (arrCount_only _ _ _ _ _ _ _ _) (arrCount_scopes _ _ _ _ _ _ _ _) (arrCount_same _ _ _ _ _ _ _ _ (by decide))
    (by decide) (by decide)).counted (consumerViol_only _ _ _ _) (ScopesOnly.of_only (consumerViol_only _ _ _ _) (by decide))
    (consumerViol_same _ _ _ _) (by decide) (by decide)

/-- A delivery from the streams (R203, R217). -/
theorem Arrived.delivered (h : Arrived t x s y) (str : StreamS) (n : Nat) :
    Arrived t { x with str := str } s (delivered t str n y) where
  tile u := by
    rw [delivered_tile]
    split
    · rw [h.tile, if_pos rfl]
    · rw [h.tile, if_neg ‹_›]
  scopes := h.scopes.trans (ScopesOnly.of_only (delivered_only _ _ _ _) (by decide))
  same := h.same.trans (delivered_same _ _ _ _)
  plates := ((delivered_only _ _ _ _).plates (by decide)).trans h.plates

theorem Arrived.setArr (h : Arrived t x s y) (a : ArrayS) : Arrived t { x with arr := a } s (setArr t a y) where
  tile u := by
    rw [getTile_setArr]
    split
    · rw [h.tile, if_pos rfl]
    · rw [h.tile, if_neg ‹_›]
  scopes := h.scopes.trans (ScopesOnly.of_only (setArr_only _ _ _) (by decide))
  same := h.same.trans (same_of_only (setArr_only _ _ _) (by decide) (by decide))
  plates := ((setArr_only _ _ _).plates (by decide)).trans h.plates

theorem Arrived.getArr (h : Arrived t x s y) : getArr y t = x.arr :=
  congrArg Tile.arr ((h.tile t).trans (if_pos rfl))

theorem Arrived.completed (h : Arrived t x s y) (id : Nat) : Completed s (complete id y) id :=
  (complete_completed id y).from' h.plates h.scopes

/-- A last step that may complete a command. -/
theorem Arrived.unless (h : Arrived t x s y) (p : Prop) [Decidable p] (id : Nat) :
    let n := if p then y else complete id y
    getTile n t = x ∧ (∀ u : TileId, u ≠ t → getTile n u = getTile s u) ∧ (if p then n.plates = s.plates else Completed s n id) := by
  have hu : ∀ u, getTile (if p then y else complete id y) u = if u = t then x else getTile s u := fun u => by
    rw [← h.tile]
    split
    · rfl
    · exact getTile_congr ((complete_only _ _).tiles (by decide)) u
  refine ⟨(hu t).trans (if_pos rfl), fun u h => (hu u).trans (if_neg h), ?_⟩
  split
  · exact h.plates
  · exact h.completed id

theorem Arrived.rfl' (t : TileId) (s : State) : Arrived t (getTile s t) s s where
  tile u := by split <;> simp_all
  scopes := ScopesOnly.rfl' s
  same := SameStore.rfl
  plates := rfl

/-! ### Lines of a load -/

/-- A load that is refused at its first line notes the command (R458). -/
def lineNoted (t : TileId) (client : Nat) (j : LoadJob) (d : Desc) (s : State) : State :=
  if loadLate j d then
    match findFlight s j.id with
    | some f => noteIllegal (.array t) client f.win s
    | none => s
  else s

theorem noteIllegal_same (t : TileId) (c : Nat) (w : WinCmd) (s : State) : SameStore s (noteIllegal (.array t) c w s) := by
  have hb : (if hdrReserved (.array t) w.cmd then (plateStatus (.array t), 4) else illegalBit (.array t) w.cmd) = (pltBlk t 0x400, 4) :=
    ite_self _
  unfold noteIllegal
  rw [hb]
  exact (setBit_same _ _ _ fun i => tileBlk_stk _ _ _ (by decide)).trans (same_of_only (post_only _ _ _ _) (by decide) (by decide))

theorem Arrived.lineNoted (h : Arrived t x s y) (c : Nat) (j : LoadJob) (d : Desc) : Arrived t x s (lineNoted t c j d y) := by
  unfold Machine.lineNoted
  split
  · split
    · exact h.counted (noteIllegal_only _ _ _ _) (ScopesOnly.of_only (noteIllegal_only _ _ _ _) (by decide))
        (noteIllegal_same _ _ _ _) (by decide) (by decide)
    · exact h
  · exact h

/-- What a line's arrival counts, before the load takes it. -/
def lineCounted (t : TileId) (j : LoadJob) (d : Desc) (scales : List Nat) (str : StreamS) (bytes : Nat) (s : State) : State :=
  let client := clientOn s (tileDie t)
  let nOut := if j.bad || loadLate j d then 0 else countOut d.fmt (usedScales d.fmt scales j.llen)
  consumerViol d.hdie d.ent.stat nOut (countViol t client nOut
    (lineNoted t client j d (charge (.array t) 0x00 (delivered t str bytes s))))

theorem lineCounted_arrived (t : TileId) (j : LoadJob) (d : Desc) (scales : List Nat) (str : StreamS) (bytes : Nat) (s : State) :
    Arrived t { getTile s t with str := str } s (lineCounted t j d scales str bytes s) :=
  ((((Arrived.rfl' t s).delivered str bytes).charge _).lineNoted _ j d).violations _ _ _ _

theorem exec_loadLineEntry {j : LoadJob} {rest : List LoadJob} {codes scales : List Nat} {d : Desc} {str : StreamS} {bytes : Nat}
    (hl : (getArr s t).loads = j :: rest) (hp : (getArr s t).pend = none) (hb : (getArr s t).pendBad = false)
    (hr : takeRecord (getStr s t) j.lstr j.lscl = .ok codes scales d str bytes) :
    let j1 := takeLine j (j.bad || loadLate j d) d codes scales
    let y := lineCounted t j d scales str bytes s
    let z := setArr t (putLine j1 rest d (getArr s t)) y
    exec (.loadLineEntry t) s = .next (if j1.count < j.lines then z else complete j.id z) := by
  intro j1 y
  have ha : getArr y t = getArr s t := (lineCounted_arrived t j d scales str bytes s).getArr
  change execLoadLineEntry t s = _
  simp only [execLoadLineEntry, hl, hp, hb, hr]
  rw [← ha]
  rfl

/-- LOAD_LINE_ENTRY (R60, R65, R66): the next line of the oldest load. -/
theorem loadLineEntry_takes {j : LoadJob} {rest : List LoadJob} {codes scales : List Nat} {d : Desc} {str : StreamS} {bytes : Nat}
    (hl : (getArr s t).loads = j :: rest) (hp : (getArr s t).pend = none) (hb : (getArr s t).pendBad = false)
    (hr : takeRecord (getStr s t) j.lstr j.lscl = .ok codes scales d str bytes) :
    let j1 := takeLine j (j.bad || loadLate j d) d codes scales
    ∃ n, exec (.loadLineEntry t) s = .next n ∧ getTile n t = { getTile s t with str := str, arr := putLine j1 rest d (getArr s t) } ∧
      (∀ u : TileId, u ≠ t → getTile n u = getTile s u) ∧
      (if j1.count < j.lines then n.plates = s.plates else Completed s n j.id) ∧
      Only (.tiles :: .plates :: .clients :: accountParts) s n := by
  intro j1
  have hx := exec_loadLineEntry hl hp hb hr
  have ho := (execLoadLineEntry_kept t (ks := .tiles :: .plates :: .clients :: accountParts) (Kept.rfl' s) hx (by decide)).only
  obtain ⟨htile, hothers, hplates⟩ := ((lineCounted_arrived t j d scales str bytes s).setArr
    (putLine j1 rest d (getArr s t))).unless (j1.count < j.lines) j.id
  exact ⟨_, hx, htile, hothers, hplates, ho⟩

/-- While a pending tile is there, a line waits (R65, R99). -/
theorem loadLineEntry_waits (hl : (getArr s t).loads ≠ []) (hp : (getArr s t).pend.isSome = true ∨ (getArr s t).pendBad = true) :
    exec (.loadLineEntry t) s = .next (charge (.array t) 0x06 s) := by
  obtain ⟨j, rest, hj⟩ := List.exists_cons_of_ne_nil hl
  change execLoadLineEntry t s = _
  simp only [execLoadLineEntry, hj]
  rw [if_pos hp]

/-! ### Rows of a pass -/

/-- A row's results once it has arrived at the head pass (R59, R73 to R76, R83). -/
theorem rowEffect_done {j : PassJob} {rest : List PassJob} (h : Arrived t x s y) (hp : x.arr.passes = j :: rest) (cl : Nat) (w : Stat)
    (xf : Fmt) (xt : Rat) (l : Line) (tag : Nat) (us : List Upset) :
    let n := rowEffect t cl j w xf xt l tag us y
    ∃ arr, RowDone s n x.arr arr j w xf xt l us ∧
      getTile n t = { x with arr := { arr with passes := if passOver (nextRow j tag) then rest else nextRow j tag :: rest } } ∧
      (∀ u : TileId, u ≠ t → getTile n u = getTile s u) ∧
      (if passOver (nextRow j tag) then Completed s n j.id else n.plates = s.plates) := by
  intro n
  obtain ⟨arr, hdone, htile, hothers, hplates, _⟩ := rowEffect_spec t cl j w xf xt l tag us y
  rw [h.getArr] at hdone htile
  rw [hp, List.drop_one, List.tail_cons, h.tile, if_pos rfl] at htile
  refine ⟨arr, hdone.from h.same, htile, fun u hu => (hothers u hu).trans ((h.tile u).trans (if_neg hu)), ?_⟩
  split
  next ho => rw [if_pos ho] at hplates; exact hplates.from' h.plates h.scopes
  next ho => rw [if_neg ho] at hplates; exact hplates.trans h.plates

/-- What a streamed row's arrival counts (R63, R72, R203), with the pass begun. -/
def streamCounted (t : TileId) (j : PassJob) (w : Stat) (scales : List Nat) (d : Desc) (str : StreamS) (bytes : Nat) (s : State) : State :=
  let nOut := countOut d.fmt (usedScales d.fmt scales w.k)
  consumerViol d.hdie d.ent.stat nOut (countViol t (clientOn s (tileDie t)) nOut
    (charge (.array t) 0x00 (delivered t str bytes (setArr t (beginPass (getArr s t) j d.fmt d.ent.tscale w) s))))

theorem streamCounted_arrived (t : TileId) (j : PassJob) (w : Stat) (scales : List Nat) (d : Desc) (str : StreamS) (bytes : Nat) (s : State) :
    Arrived t { getTile s t with str := str, arr := beginPass (getArr s t) j d.fmt d.ent.tscale w } s
      (streamCounted t j w scales d str bytes s) :=
  ((((Arrived.rfl' t s).setArr _).delivered str bytes).charge _).violations _ _ _ _

theorem exec_passRowEntry_stream {j : PassJob} {rest : List PassJob} {codes scales : List Nat} {d : Desc} {str : StreamS} {bytes : Nat}
    {w : Stat} (us : List Upset) (hp : (getArr s t).passes = j :: rest) (hb : j.bad = false) (hm : j.row ≠ j.m) (hg : j.gather = false)
    (hr : takeRecord (getStr s t) j.xstr j.xscl = .ok codes scales d str bytes)
    (hw : passStart (inProof s) (getArr s t) j d.fmt d.ent.tscale = .go w)
    (hd : ¬ (j.started = true ∧ j.drains = true ∧ bankDraining (getArr s t) (rowPlace j).1 j.id = true)) :
    exec (.passRowEntry t us) s = .next (rowEffect t (clientOn s (tileDie t)) j w d.fmt d.ent.tscale ⟨codes, scales⟩ 0 us
      (streamCounted t j w scales d str bytes s)) := by
  change execPassRowEntry t us s = _
  simp only [execPassRowEntry, streamRow, hp, hb, hm, hg, hr, hw, hd]
  rfl

/-- PASS_ROW_ENTRY for a row of a stream (R59, R65, R76). -/
theorem passRowEntry_stream {j : PassJob} {rest : List PassJob} {codes scales : List Nat} {d : Desc} {str : StreamS} {bytes : Nat}
    {w : Stat} (us : List Upset) (hp : (getArr s t).passes = j :: rest) (hb : j.bad = false) (hm : j.row ≠ j.m) (hg : j.gather = false)
    (hr : takeRecord (getStr s t) j.xstr j.xscl = .ok codes scales d str bytes)
    (hw : passStart (inProof s) (getArr s t) j d.fmt d.ent.tscale = .go w)
    (hd : ¬ (j.started = true ∧ j.drains = true ∧ bankDraining (getArr s t) (rowPlace j).1 j.id = true)) :
    ∃ n arr, exec (.passRowEntry t us) s = .next n ∧
      RowDone s n (beginPass (getArr s t) j d.fmt d.ent.tscale w) arr j w d.fmt d.ent.tscale ⟨codes, scales⟩ us ∧
      getTile n t = { getTile s t with
        str := str, arr := { arr with passes := if passOver (nextRow j 0) then rest else nextRow j 0 :: rest } } ∧
      (∀ u : TileId, u ≠ t → getTile n u = getTile s u) ∧
      (if passOver (nextRow j 0) then Completed s n j.id else n.plates = s.plates) ∧
      Only (.mem :: .banks :: .wear :: .served :: .cat :: .tiles :: .plates :: .clients :: accountParts) s n := by
  have hx := exec_passRowEntry_stream us hp hb hm hg hr hw hd
  obtain ⟨arr, hdone, htile, hothers, hplates⟩ := rowEffect_done (streamCounted_arrived t j w scales d str bytes s)
    (rest := rest) ((beginPass_passes _ _ _ _ _).trans hp) (clientOn s (tileDie t)) w d.fmt d.ent.tscale ⟨codes, scales⟩ 0 us
  exact ⟨_, arr, hx, hdone, htile, hothers, hplates, (execPassRowEntry_kept t us (Kept.rfl' s) hx (by decide)).only⟩

/-- What a gathered row's arrival counts, and its slot, drained (R72, R102, R103). -/
def gatherCounted (t : TileId) (w : Stat) (name : Nat) (buf : Entry) (slot : Nat) (s : State) : State :=
  let client := clientOn s (tileDie t)
  let row := gatherRow client name buf slot w.k s
  let nOut := countOut buf.fmtD (usedScales buf.fmtD row.2.2.1 w.k)
  consumerViol (tileDie t) buf.stat nOut (countViol t client nOut
    (bump (arrBlk t 0) 0x030 1 (setSlot name slot false (charge (.array t) 0x00 row.2.2.2))))

theorem gatherCounted_arrived (t : TileId) (w : Stat) (name : Nat) (buf : Entry) (slot : Nat) (s : State) :
    Arrived t (getTile s t) s (gatherCounted t w name buf slot s) := by
  obtain ⟨hsame, haccess, hscopes⟩ := gatherRow_spec (clientOn s (tileDie t)) name buf slot w.k s
  have hrow := (Arrived.rfl' t s).counted (only_of_access haccess) hscopes hsame (by decide) (by decide)
  have hslot := (hrow.charge (.array t)).counted (setSlot_only name slot false _) (ScopesOnly.of_only (setSlot_only _ _ _ _) (by decide))
    (same_of_only (setSlot_only _ _ _ _) (by decide) (by decide)) (by decide) (by decide)
  exact (hslot.counted (bump_only (arrBlk t 0) 0x030 1 _) (ScopesOnly.of_only (bump_only _ _ _ _) (by decide))
    (bump_same _ _ _ _ fun i => by rw [arrBlk_add]; exact arrBlk_stk _ _ _ (by decide)) (by decide) (by decide)).violations _ _ _ _

theorem slotFull_setSlot_same (name i : Nat) (f : Bool) (s : State) : slotFull (setSlot name i f s) name i = f := by
  unfold slotFull setSlot
  exact mget_mset_same false _ _ _

theorem gatherCounted_slot (t : TileId) (w : Stat) (name : Nat) (buf : Entry) (slot : Nat) (s : State) :
    slotFull (gatherCounted t w name buf slot s) name slot = false := by
  have hcat : (gatherCounted t w name buf slot s).cat =
      (setSlot name slot false (charge (.array t) 0x00 (gatherRow (clientOn s (tileDie t)) name buf slot w.k s).2.2.2)).cat :=
    ((consumerViol_only _ _ _ _).cat (by decide)).trans (((arrCount_only _ _ _ _ _ _ _ _).cat (by decide)).trans (bump_cat _ _ _ _))
  rw [← slotFull_setSlot_same name slot false (charge (.array t) 0x00 (gatherRow (clientOn s (tileDie t)) name buf slot w.k s).2.2.2)]
  unfold slotFull
  rw [hcat]

theorem exec_passRowEntry_gather {j : PassJob} {rest : List PassJob} {name slot : Nat} {buf : Entry} {slots : List Nat}
    {w : Stat} (us : List Upset) (hp : (getArr s t).passes = j :: rest) (hb : j.bad = false) (hm : j.row ≠ j.m) (hg : j.gather = true)
    (hr : j.ring = some (name, buf)) (hs : j.slots = slot :: slots) (hw : (getArr s t).active = some w) :
    let row := gatherRow (clientOn s (tileDie t)) name buf slot w.k s
    exec (.passRowEntry t us) s = .next (rowEffect t (clientOn s (tileDie t)) j w buf.fmtD buf.tscale ⟨row.2.1, row.2.2.1⟩ row.1 us
      (gatherCounted t w name buf slot s)) := by
  change execPassRowEntry t us s = _
  simp only [execPassRowEntry, gatheredRow, hp, hb, hm, hg, hr, hs, hw]
  rfl

/-- PASS_ROW_ENTRY for a row of the ring (R102, R103). -/
theorem passRowEntry_gather {j : PassJob} {rest : List PassJob} {name slot : Nat} {buf : Entry} {slots : List Nat}
    {w : Stat} (us : List Upset) (hp : (getArr s t).passes = j :: rest) (hb : j.bad = false) (hm : j.row ≠ j.m) (hg : j.gather = true)
    (hr : j.ring = some (name, buf)) (hs : j.slots = slot :: slots) (hw : (getArr s t).active = some w) :
    let row := gatherRow (clientOn s (tileDie t)) name buf slot w.k s
    ∃ n arr, exec (.passRowEntry t us) s = .next n ∧
      RowDone s n (getArr s t) arr j w buf.fmtD buf.tscale ⟨row.2.1, row.2.2.1⟩ us ∧
      getTile n t = { getTile s t with
        arr := { arr with passes := if passOver (nextRow j row.1) then rest else nextRow j row.1 :: rest } } ∧
      (∀ u : TileId, u ≠ t → getTile n u = getTile s u) ∧ slotFull n name slot = false ∧
      (if passOver (nextRow j row.1) then Completed s n j.id else n.plates = s.plates) ∧
      Only (.mem :: .banks :: .wear :: .served :: .cat :: .tiles :: .plates :: .clients :: accountParts) s n := by
  intro row
  have hx := exec_passRowEntry_gather us hp hb hm hg hr hs hw
  obtain ⟨arr, hdone, htile, hothers, hplates⟩ := rowEffect_done (gatherCounted_arrived t w name buf slot s) hp
    (clientOn s (tileDie t)) w buf.fmtD buf.tscale ⟨row.2.1, row.2.2.1⟩ row.1 us
  refine ⟨_, arr, hx, hdone, htile, hothers, ?_, hplates, (execPassRowEntry_kept t us (Kept.rfl' s) hx (by decide)).only⟩
  obtain ⟨_, _, _, _, _, hframe⟩ := rowEffect_spec t (clientOn s (tileDie t)) j w buf.fmtD buf.tscale ⟨row.2.1, row.2.2.1⟩ row.1 us
    (gatherCounted t w name buf slot s)
  unfold slotFull
  rw [hframe.cat (by decide)]
  exact gatherCounted_slot t w name buf slot s

/-! ### Batches of gathered rows -/

theorem exec_gatherBatchLaunch {j : PassJob} {rest : List PassJob} {name timer : Nat} {buf : Entry} {w : Stat}
    (hp : (getArr s t).passes = j :: rest) (hg : j.gather = true) (hb : j.bad = false) (hm : j.row ≠ j.m) (hs : j.slots = [])
    (hr : j.ring = some (name, buf)) (hw : passStart (inProof s) (getArr s t) j buf.fmtD buf.tscale = .go w)
    (hd : bankDraining (getArr s t) (j.batch % 2) j.id = false) (hf : fullSlots s name buf ≠ [])
    (hn : 256 ≤ (fullSlots s name buf).length ∨ j.m - j.row ≤ (fullSlots s name buf).length ∨ (getArr s t).gdeadline ≤ timer) :
    let full := fullSlots s name buf
    let y := bump (arrBlk t 0) 0x028 1 (setArr t { beginPass (getArr s t) j buf.fmtD buf.tscale w with
      passes := { j with started := true, slots := full.take (min (min full.length 256) (j.m - j.row)), done := 0, tags := [] } :: rest } s)
    exec (.gatherBatchLaunch t timer) s = .next (charge (.array t) 0x00
      (if full.length < 256 ∧ full.length < j.m - j.row then bump (arrBlk t 0) 0x038 1 y else y)) := by
  have hf : (fullSlots s name buf).length ≠ 0 := fun h => hf (List.length_eq_zero_iff.1 h)
  change execGatherBatchLaunch t timer s = _
  simp only [execGatherBatchLaunch, hp, hg, hb, hm, hs, hr, hw, hd, hf, hn]
  rfl

/-- A batch's launch is counted, apart where its batch is not full (R103). -/
theorem launched (t : TileId) (a : ArrayS) (p : Prop) [Decidable p] (s : State) :
    let y := bump (arrBlk t 0) 0x028 1 (setArr t a s)
    let n := charge (.array t) 0x00 (if p then bump (arrBlk t 0) 0x038 1 y else y)
    getTile n t = { getTile s t with arr := a } ∧ (∀ u : TileId, u ≠ t → getTile n u = getTile s u) ∧
      getReg n (arrBlk t 0x028) = stickyAdd 64 (getReg s (arrBlk t 0x028)) 1 ∧ Only (.tiles :: accountParts) s n := by
  intro y n
  have hy : Only accountParts (setArr t a s) y := (bump_only _ _ _ _).mono (by decide)
  have hn : Only accountParts (setArr t a s) n :=
    (Only.ite (hy.step (bump_only _ _ _ _) (by decide)) hy).step (charge_only _ _ _) (by decide)
  have hu : ∀ u, getTile n u = if u = t then { getTile s t with arr := a } else getTile s u := fun u =>
    (getTile_congr (hn.tiles (by decide)) u).trans (getTile_setArr t u a s)
  refine ⟨(hu t).trans (if_pos rfl), fun u h => (hu u).trans (if_neg h), ?_,
    ((setArr_only t a s).mono (by decide)).step hn (by decide)⟩
  have hreg : getReg y (arrBlk t 0x028) = stickyAdd 64 (getReg s (arrBlk t 0x028)) 1 := by
    rw [bump_getReg, arrBlk_add, if_pos rfl, getReg_congr ((setArr_only t a s).regs (by decide))]
  rw [charge_getReg, if_neg (by simp only [arrBlk, stallBlk, pltBlk, tileBlk]; omega), ← hreg]
  split
  · rw [bump_getReg, if_neg (by simp only [arrBlk, tileBlk]; omega)]
  · rfl

/-- GATHER_BATCH_LAUNCH (R103): its slots in slot order, and its count. -/
theorem gatherBatchLaunch_takes {j : PassJob} {rest : List PassJob} {name timer : Nat} {buf : Entry} {w : Stat}
    (hp : (getArr s t).passes = j :: rest) (hg : j.gather = true) (hb : j.bad = false) (hm : j.row ≠ j.m) (hs : j.slots = [])
    (hr : j.ring = some (name, buf)) (hw : passStart (inProof s) (getArr s t) j buf.fmtD buf.tscale = .go w)
    (hd : bankDraining (getArr s t) (j.batch % 2) j.id = false) (hf : fullSlots s name buf ≠ [])
    (hn : 256 ≤ (fullSlots s name buf).length ∨ j.m - j.row ≤ (fullSlots s name buf).length ∨ (getArr s t).gdeadline ≤ timer) :
    let full := fullSlots s name buf
    ∃ n, exec (.gatherBatchLaunch t timer) s = .next n ∧ getTile n t = { getTile s t with
        arr := { beginPass (getArr s t) j buf.fmtD buf.tscale w with
          passes := { j with started := true, slots := full.take (min (min full.length 256) (j.m - j.row)), done := 0,
                             tags := [] } :: rest } } ∧
      (∀ u : TileId, u ≠ t → getTile n u = getTile s u) ∧
      getReg n (arrBlk t 0x028) = stickyAdd 64 (getReg s (arrBlk t 0x028)) 1 ∧ Only (.tiles :: accountParts) s n := by
  intro full
  have hx := exec_gatherBatchLaunch hp hg hb hm hs hr hw hd hf hn
  exact ⟨_, hx, launched _ _ _ _⟩

end

/-- Settles O19: lines, the two kinds of rows, batches. -/
theorem arrayRows : Obligations.ArrayRows := by
  unfold Obligations.ArrayRows
  intro t s a parts
  exact ⟨fun j rest codes scales d x bytes => loadLineEntry_takes, loadLineEntry_waits,
    fun j rest us codes scales d x bytes w => passRowEntry_stream us,
    fun j rest us name buf slot slots w => passRowEntry_gather us, fun timer j rest name buf w => gatherBatchLaunch_takes⟩

end Sys2Proof.Machine
end

section
/-! Resets weaker than a cold one, and the self-test request (R339, R399 to R401). -/

namespace Sys2Proof.Machine

section
variable {s : State}

theorem exec_hostReset_go (hr : s.start.rails = true) (h : ¬ (s.start.resetNow ≠ 0 ∧ s.start.resetNow ≤ 3)) :
    exec .functionLevelReset s = .next (hostReset s) ∧ exec .pcieFundamentalReset s = .next (hostReset s) :=
  have hgo := congrArg Host.Outcome.next (askReset_go (f := hostReset) hr h)
  ⟨hgo, hgo⟩

theorem exec_coreReset (d : DieId) (core : Fin 4) (wd : Bool) (hs : s.start.sketched = true) :
    exec (.coreReset d core wd) s = .next (askReset 4 (coreReset d.val core.val) s) :=
  congrArg Host.Outcome.next (if_neg (not_not.2 hs))

theorem exec_tileReset (t : TileId) (hs : s.start.sketched = true) :
    exec (.tileReset t) s = .next (askReset 5 (tileReset t) s) :=
  congrArg Host.Outcome.next (if_neg (not_not.2 hs))

theorem coreReset_carriedOut (hr : s.start.rails = true) (d : DieId) (core : Fin 4) (wd : Bool) (hs : s.start.sketched = true)
    (h : ¬ (s.start.resetNow ≠ 0 ∧ s.start.resetNow ≤ 4)) :
    ∃ n, exec (.coreReset d core wd) s = .next n ∧ (∀ x ∈ n.cat.staging, x.die ≠ d) ∧ (∀ x ∈ n.cat.commits, x.die ≠ d) ∧
      n.cat.ents = s.cat.ents ∧
      (∀ c ∈ runningOn s (fun x => decide (d = 0) || decide (x = d.val)), Halted s n c) ∧
      mget 0 n.cat.epochs (lockId 0 d.val (16 + core.val)) = mget 0 s.cat.epochs (lockId 0 d.val (16 + core.val)) + 1 ∧
      ResetNoted 4 s n ∧ n.mem = s.mem ∧ n.regs = s.regs ∧ n.ledger = s.ledger ∧ n.pending = s.pending := by
  obtain ⟨hstaging, hcommits, hents, hhalted, hepoch, hnoted, hframe⟩ := coreReset_spec d core.val s
  exact ⟨_, (exec_coreReset d core wd hs).trans (congrArg _ (askReset_go hr h)), hstaging, hcommits, hents, hhalted, hepoch, hnoted,
    hframe.mem (by decide), hframe.regs (by decide), hframe.ledger (by decide), hframe.pending (by decide)⟩

theorem tileReset_carriedOut (hr : s.start.rails = true) (t : TileId) (hs : s.start.sketched = true)
    (h : ¬ (s.start.resetNow ≠ 0 ∧ s.start.resetNow ≤ 5)) :
    ∃ n, exec (.tileReset t) s = .next n ∧ getTile n t = {} ∧ (∀ x ∈ n.cat.staging, x.die.val ≠ t.val / 16) ∧
      n.cat.ents = s.cat.ents ∧ (∀ c ∈ runningOn s (fun x => decide (x = t.val / 16)), Halted s n c) ∧
      ResetNoted 5 s n ∧ n.mem = s.mem ∧ n.regs = s.regs ∧ n.start = s.start ∧ n.pending = s.pending := by
  obtain ⟨htile, hstaging, hents, hhalted, hnoted, hframe⟩ := tileReset_spec t s
  exact ⟨_, (exec_tileReset t hs).trans (congrArg _ (askReset_go hr h)), htile, hstaging, hents, hhalted, hnoted,
    hframe.mem (by decide), hframe.regs (by decide), hframe.start (by decide), hframe.pending (by decide)⟩

/-- A reset of a kind that one in progress absorbs is counted, and does nothing else (R400). -/
theorem resets_absorbed (hr : s.start.rails = true) (kind : Nat) (h0 : s.start.resetNow ≠ 0) (hk : s.start.resetNow ≤ kind) :
    ∃ n, (kind = 3 → exec .functionLevelReset s = .next n ∧ exec .pcieFundamentalReset s = .next n) ∧
      (kind = 4 → s.start.sketched = true → ∀ d core wd, exec (.coreReset d core wd) s = .next n) ∧
      (kind = 5 → s.start.sketched = true → ∀ t, exec (.tileReset t) s = .next n) ∧
      getDict n (dkey 0x2000 0x09) = countUp 32 (getDict s (dkey 0x2000 0x09)) 1 ∧ Only [.dict, .sat, .host, .logs] s n := by
  have habs : ∀ f : State → State, askReset kind f s = bumpDictW 32 (dkey 0x2000 0x09) 1 s := fun f => askReset_absorbed hr h0 hk
  refine ⟨bumpDictW 32 (dkey 0x2000 0x09) 1 s, ?_, ?_, ?_, (bumpDictW_getDict _ _ _ _ _).trans (if_pos rfl), bumpDictW_only _ _ _ _⟩
  · rintro rfl
    exact ⟨congrArg _ (habs hostReset), congrArg _ (habs hostReset)⟩
  · rintro rfl hs d core wd
    exact (exec_coreReset d core wd hs).trans (congrArg _ (habs _))
  · rintro rfl hs t
    exact (exec_tileReset t hs).trans (congrArg _ (habs _))

theorem resetReqSelftest_refused (h : stageOf s ≠ 3 ∨ ∃ x ∈ s.clients, x.2.state ≠ 0) : exec .resetReqSelftest s = .next s := by
  change Host.Outcome.next (requestTest s).2 = _
  unfold requestTest
  rw [if_pos (by simpa using h)]

/-- What the request sets before it enters Proof: the self-test to run, no tile tested, the tasks to count again, TCLK at its
start (R394, R395, R400). -/
def testRequested (s : State) : State :=
  let k := dkey 0x2000 0x07
  setDict (dkey 0x2100 0x10) 800 (setDict k (BitVec.ofNat 64 ((getDict s k).toNat - 68)) (setDict (dkey 0x2000 0x06) 0
    { s with start := { s.start with selftest := true, tilesOk := [], tcut := 800 } }))

theorem testRequested_only (s : State) : Only [.dict, .start] s (testRequested s) :=
  ((((only_start _ s).mono (by decide)).step (setDict_only _ _ _) (by decide)).step (setDict_only _ _ _) (by decide)).step
    (setDict_only _ _ _) (by decide)

theorem testRequested_tiles (s : State) : getDict (testRequested s) (dkey 0x2000 0x06) = 0 := by
  unfold testRequested
  dsimp only
  rw [getDict_setDict, if_neg (by decide), getDict_setDict, if_neg (by decide), getDict_setDict, if_pos rfl]

theorem testRequested_tclk (s : State) : getDict (testRequested s) (dkey 0x2100 0x10) = 800 := by
  unfold testRequested
  dsimp only
  rw [getDict_setDict, if_pos rfl]

theorem exec_resetReqSelftest (h3 : stageOf s = 3) (hc : ∀ x ∈ s.clients, x.2.state = 0) :
    exec .resetReqSelftest s = .next (enterStage 2 (testRequested s)) := by
  change Host.Outcome.next (requestTest s).2 = _
  unfold requestTest
  rw [if_neg (by simpa [h3] using hc)]
  rfl

/-- RESET_REQ = 2 (R400): from Edition back to Proof, its self-test to run again. -/
theorem resetReqSelftest_accepted (h3 : stageOf s = 3) (hc : ∀ x ∈ s.clients, x.2.state = 0) :
    ∃ n, exec .resetReqSelftest s = .next n ∧ stageOf n = 2 ∧ n.start = { s.start with selftest := true, tilesOk := [], tcut := 800 } ∧
      getDict n (dkey 0x2000 0x06) = 0 ∧ getDict n (dkey 0x2100 0x10) = 800 ∧ n.host.posted = (post 0x0004 16 2 s).host.posted ∧
      Only [.dict, .start, .host, .logs] s n := by
  refine ⟨_, exec_resetReqSelftest h3 hc, ?_⟩
  have ho := testRequested_only s
  have hstart : (testRequested s).start = { s.start with selftest := true, tilesOk := [], tcut := 800 } := rfl
  have h06 := testRequested_tiles s
  have h10 := testRequested_tclk s
  generalize testRequested s = y at ho hstart h06 h10
  obtain ⟨z, hn, hstage, -, hdict, hz⟩ := enterStage_entered 2 y
  rw [hn]
  have k := post_only 0x0004 16 2 z
  have hp := post_posted_congr (s := s) (t := z) (by rw [hz.host (by decide), ho.host (by decide)])
    (by rw [hz.clients (by decide), ho.clients (by decide)]) (by rw [hz.tick (by decide), ho.tick (by decide)]) 0x0004 16 2
  refine ⟨?_, ?_, ?_, ?_, hp, ((ho.mono (by decide)).step hz (by decide)).step k (by decide)⟩
  · unfold stageOf
    rw [getDict_congr (k.dict (by decide)), hstage]
    decide
  · rw [k.start (by decide), hz.start (by decide), hstart]
  · rw [getDict_congr (k.dict (by decide)), hdict _ (by decide) (by decide), h06]
  · rw [getDict_congr (k.dict (by decide)), hdict _ (by decide) (by decide), h10]

end

/-- Settles O32: each reset by what it does, then as it is absorbed, then the request. -/
theorem moduleResets : Obligations.ModuleResets := by
  unfold Obligations.ModuleResets
  intro s hr
  refine ⟨fun h => ?_, coreReset_carriedOut hr, tileReset_carriedOut hr, resets_absorbed hr, resetReqSelftest_accepted,
    resetReqSelftest_refused⟩
  obtain ⟨hflr, hfund⟩ := exec_hostReset_go hr h
  exact ⟨_, hflr, hfund, hostReset_spec s⟩

end Sys2Proof.Machine
end

section
/-! Drains that start, read, and end (R76 to R78, R80, R94, R127, R128, R137). -/

namespace Sys2Proof.Machine

section
variable {t : TileId} {s : State}

/-! ### Drains that start, and reads that find none -/

theorem autoDrain_none (h : ∀ j ∈ (getArr s t).passes, j.due = []) : exec (.autoDrain t) s = .next s := by
  have hf : (getArr s t).passes.find? (fun j => !j.due.isEmpty) = none :=
    List.find?_eq_none.2 fun j hj => by rw [h j hj]; decide
  change execAutoDrain t s = _
  unfold execAutoDrain
  dsimp only
  rw [hf]

/-- AUTO_DRAIN (R76, R104): the next drain that is due joins the drains. -/
theorem autoDrain_starts {j : PassJob} {v : DueDrain} {due : List DueDrain}
    (hf : (getArr s t).passes.find? (fun j => !j.due.isEmpty) = some j) (hd : j.due = v :: due) :
    ∃ n, exec (.autoDrain t) s = .next n ∧ getTile n t = { getTile s t with arr := { getArr s t with
        passes := (getArr s t).passes.map (fun p => if p.id = j.id then { p with due := due } else p),
        drains := (getArr s t).drains ++ [{ id := j.id, auto := true, bank := v.bank, first := 0, count := v.count, spec := j.w2,
                                            mult := j.tmult, row0 := v.row0, tags := v.tags, dest := j.dest }] } } ∧
      (∀ u : TileId, u ≠ t → getTile n u = getTile s u) ∧ Only [.tiles] s n := by
  refine ⟨_, ?_, (getTile_setArr t t _ s).trans (if_pos rfl), fun u hu => (getTile_setArr t u _ s).trans (if_neg hu), setArr_only _ _ _⟩
  change execAutoDrain t s = _
  unfold execAutoDrain
  dsimp only
  rw [hf]
  dsimp only
  rw [hd]

theorem headDrain_of_none (h : (getArr s t).drains = []) : headDrain (getArr s t) = none := by
  unfold headDrain
  rw [h]
  rfl

theorem drainPairRead_idle (us : List Upset) (h : (getArr s t).drains = []) : exec (.drainPairRead t us) s = .next s := by
  change execDrainPairRead t us s = _
  unfold execDrainPairRead
  dsimp only
  rw [headDrain_of_none h, h]
  rfl

theorem drainPairRead_held (us : List Upset) (h : (getArr s t).drains ≠ []) (hn : headDrain (getArr s t) = none) :
    exec (.drainPairRead t us) s = .next (charge (.array t) 0x08 s) := by
  change execDrainPairRead t us s = _
  unfold execDrainPairRead
  dsimp only
  rw [hn]
  dsimp only
  rw [if_neg (by simpa using h)]

/-! ### The drain at the head -/

section
variable {d : DrainJob} (us : List Upset) (hd : headDrain (getArr s t) = some d)
include hd

/-- An explicit drain that its bank's record refuses at its start (R96, R128, R458). -/
theorem drainPairRead_refused {f : Flight} (hs : d.started = false ∧ d.auto = false)
    (hr : drainReserved (getBank (getArr s t) d.bank) d = true) (hf : findFlight s d.id = some f)
    (hh : hdrReserved f.eng f.win.cmd = false) :
    ∃ n, exec (.drainPairRead t us) s = .next n ∧ Finished s n d.id ∧
      bit (getReg n (illegalBit f.eng f.win.cmd).1) (illegalBit f.eng f.win.cmd).2 = true ∧
      getTile n t = { getTile s t with arr := { getArr s t with drains := (getArr s t).drains.filter fun x => !sameDrain x d } } ∧
      (∀ u : TileId, u ≠ t → getTile n u = getTile s u) ∧ Only (.tiles :: .plates :: accountParts) s n := by
  obtain ⟨hstarted, hauto⟩ := hs
  have hx : exec (.drainPairRead t us) s = .next (refuse d.id
      (setArr t { getArr s t with drains := (getArr s t).drains.filter fun x => !sameDrain x d } s)) := by
    change execDrainPairRead t us s = _
    unfold execDrainPairRead
    dsimp only
    rw [hd]
    dsimp only
    rw [if_pos ⟨by simp [hstarted], by simp [hauto], hr⟩]
  have ko := setArr_only t { getArr s t with drains := (getArr s t).drains.filter fun x => !sameDrain x d } s
  have ht := fun u => getTile_setArr t u { getArr s t with drains := (getArr s t).drains.filter fun x => !sameDrain x d } s
  generalize setArr t { getArr s t with drains := (getArr s t).drains.filter fun x => !sameDrain x d } s = y at hx ko ht
  obtain ⟨hdone, hbit, kr⟩ := refuse_spec d.id y ((findFlight_congr (ko.plates (by decide)) _).trans hf) hh
  have hu := fun u => (getTile_congr (kr.tiles (by decide)) u).trans (ht u)
  exact ⟨_, hx, ⟨y, ko.plates (by decide), hdone⟩, hbit, (hu t).trans (if_pos rfl), fun u h => (hu u).trans (if_neg h),
    (ko.mono (by decide)).step kr (by decide)⟩

end

/-- From bank b to bank y a drain has read k entries of cols columns under upsets, and cleared them where it is explicit and has
CLR (R80, R92). -/
def EntriesRead (d : DrainJob) (cols k : Nat) (us : List Upset) (b y : Bank) : Prop :=
  let f := d.first + d.done
  y.record = b.record ∧ y.ufl = b.ufl ∧
  (∀ i c, i < k → c < cols → getAcc y c (f + i) =
    if specClr d.spec = true ∧ d.auto = false then {} else upsetEntry d.bank c (f + i) us (getAcc b c (f + i))) ∧
  ∀ key, (∀ i c, i < k → c < cols → key ≠ c * 256 + (f + i)) → mget {} y.ents key = mget {} b.ents key

/-- What a drain's next k entries read as, row by row (R80). -/
def readRows (d : DrainJob) (cols k : Nat) (us : List Upset) (b : Bank) : List (List AccEntry) :=
  (List.range k).map fun i => (List.range cols).map fun c =>
    upsetEntry d.bank c (d.first + d.done + i) us (getAcc b c (d.first + d.done + i))

/-- A drain k entries further (R77). -/
def DrainJob.next (d : DrainJob) (k : Nat) : DrainJob := { d with done := d.done + k, started := true }

/-- An array after a drain has read k entries, its bank then y: the drain among the others is further. -/
def drained (a : ArrayS) (d : DrainJob) (k : Nat) (y : Bank) : ArrayS :=
  { setBank a d.bank y with drains := a.drains.map fun x => if sameDrain x d then d.next k else x }

theorem getBank_drained (a : ArrayS) (d : DrainJob) (k : Nat) (y : Bank) : getBank (drained a d k y) d.bank = y :=
  getBank_setBank a d.bank y

/-- A drain's next pair read (R77, R80): its entries, and the drains with it k entries further. -/
def pairRead (t : TileId) (d : DrainJob) (cols k : Nat) (us : List Upset) (s : State) : State :=
  let q := readEntries t (clientOn s (tileDie t)) d cols k us s
  charge (.array t) 0x00 (setArr t { getArr q.2 t with
    drains := (getArr q.2 t).drains.map fun x => if sameDrain x d then d.next k else x } q.2)

theorem setBank_drains (a : ArrayS) (b : Nat) (x : Bank) : (setBank a b x).drains = a.drains := by
  unfold setBank
  split <;> rfl

theorem pairRead_spec (t : TileId) (d : DrainJob) (cols : Nat) {k : Nat} (hk : k ≤ 256) (us : List Upset) (s : State) :
    let n := pairRead t d cols k us s
    (readEntries t (clientOn s (tileDie t)) d cols k us s).1 = readRows d cols k us (getBank (getArr s t) d.bank) ∧
    (∃ y, EntriesRead d cols k us (getBank (getArr s t) d.bank) y ∧
      getTile n t = { getTile s t with arr := drained (getArr s t) d k y }) ∧
    (∀ u : TileId, u ≠ t → getTile n u = getTile s u) ∧ Only (.tiles :: .clients :: accountParts) s n := by
  intro n
  obtain ⟨hrows, ⟨y, htile, hrec, hufl, hread, hkept⟩, hothers, hframe⟩ :=
    readEntries_spec t (clientOn s (tileDie t)) d cols us s k hk
  have hn : n = pairRead t d cols k us s := rfl
  unfold pairRead at hn
  dsimp only at hn
  generalize readEntries t (clientOn s (tileDie t)) d cols k us s = q at hrows htile hothers hframe hn
  have ha : getArr q.2 t = setBank (getArr s t) d.bank y := congrArg Tile.arr htile
  rw [ha, setBank_drains] at hn
  have hu : ∀ u, getTile n u = if u = t then { getTile s t with arr := drained (getArr s t) d k y } else getTile s u := fun u => by
    rw [hn, getTile_congr ((charge_only _ _ _).tiles (by decide)), getTile_setArr, htile]
    split
    · rfl
    · exact hothers u ‹_›
  refine ⟨hrows, ⟨y, ⟨hrec, hufl, fun i c hi hc => ?_, hkept⟩, (hu t).trans (if_pos rfl)⟩, fun u h => (hu u).trans (if_neg h), ?_⟩
  · rw [hread i c hi hc]
    simp only [Bool.not_eq_true]
  · rw [hn]
    exact (hframe.step (setArr_only _ _ _) (by decide)).step (charge_only _ _ _) (by decide)

/-! ### Pairs delivered -/

section
variable {d : DrainJob} {r : BankRec} (us : List Upset) (hd : headDrain (getArr s t) = some d)
  (hr : (getBank (getArr s t) d.bank).record = some r)
  (hn : ¬ ((d.started = false ∧ d.auto = false) ∧ drainReserved (getBank (getArr s t) d.bank) d = true))
include hd hr hn

/-- The lane of the head drain has not given up its last pair (R94, R137). -/
theorem drainPairRead_laneTaken (hs : specDest d.spec = 0) (hl : (getLane s t).offer.isSome = true) :
    exec (.drainPairRead t us) s = .next (charge (.array t) 0x0B s) := by
  change execDrainPairRead t us s = _
  unfold execDrainPairRead
  dsimp only
  rw [hd]
  dsimp only
  rw [if_neg (by grind), hr]
  dsimp only
  rw [if_pos ⟨hs, hl⟩]

/-- The receive queue is full (R127). -/
theorem drainPairRead_queueFull (hs : specDest d.spec ≠ 0) (hq : 4 ≤ (getVec s t).queue.length) :
    exec (.drainPairRead t us) s = .next (charge (.array t) 0x0A s) := by
  change execDrainPairRead t us s = _
  unfold execDrainPairRead
  dsimp only
  rw [hd]
  dsimp only
  rw [if_neg (by grind), hr]
  dsimp only
  rw [if_neg (by grind), if_pos ⟨hs, hq⟩]

theorem exec_drainPairRead_hatch (hs : specDest d.spec = 0) (hl : (getLane s t).offer = none) :
    let k := min 2 (d.count - d.done)
    let b := getBank (getArr s t) d.bank
    exec (.drainPairRead t us) s = .next (setLane t
      { getLane s t with offer := some (drainPair d b r (readEntries t (clientOn s (tileDie t)) d r.cols k us s).1 k) }
      (pairRead t d r.cols k us s)) := by
  change execDrainPairRead t us s = _
  unfold execDrainPairRead
  dsimp only
  rw [hd]
  dsimp only
  rw [if_neg (by grind), hr]
  dsimp only
  rw [if_neg (by simp [hl]), if_neg (by simp [hs]), if_pos hs]
  rfl

/-- A pair for the Hatch is offered to the tile's lane (R77, R94, R137). -/
theorem drainPairRead_offers (hs : specDest d.spec = 0) (hl : (getLane s t).offer = none) :
    let a := getArr s t
    let b := getBank a d.bank
    let k := min 2 (d.count - d.done)
    ∃ n, exec (.drainPairRead t us) s = .next n ∧
      getLane n t = { getLane s t with offer := some (drainPair d b r (readRows d r.cols k us b) k) } ∧
      (∀ v : TileId, v ≠ t → getLane n v = getLane s v) ∧
      (∃ y, getBank (getArr n t) d.bank = y ∧ EntriesRead d r.cols k us b y) ∧
      (getArr n t).drains = (a.drains.map fun x => if sameDrain x d then d.next k else x) ∧ getVec n t = getVec s t ∧
      (∀ v : TileId, v ≠ t → getTile n v = getTile s v) ∧ Only (.units :: .tiles :: .clients :: accountParts) s n := by
  intro a b k
  have hx := exec_drainPairRead_hatch us hd hr hn hs hl
  obtain ⟨hrows, ⟨y, hread, htile⟩, hothers, hframe⟩ := pairRead_spec t d r.cols (k := k) (by omega) us s
  dsimp only at hx
  rw [hrows] at hx
  generalize pairRead t d r.cols k us s = z at htile hothers hframe hx
  have hvec : (getTile z t).vec = (getTile s t).vec := by rw [htile]
  refine ⟨_, hx, (getLane_setLane _ _ _ _).trans (if_pos rfl), fun v hv => ?_, ⟨y, ?_, hread⟩, congrArg (fun x => x.arr.drains) htile,
    hvec, hothers, (hframe.mono (by decide)).step (only_units _ _) (by decide)⟩
  · rw [getLane_setLane, if_neg hv]
    exact congrArg (fun u => mget {} u.lanes v.val) (hframe.units (by decide))
  · exact (congrArg (fun x => getBank x.arr d.bank) htile).trans (getBank_drained _ _ _ _)

theorem exec_drainPairRead_vector (hs : specDest d.spec ≠ 0) (hq : (getVec s t).queue.length < 4) :
    let k := min 2 (d.count - d.done)
    let rows := (readEntries t (clientOn s (tileDie t)) d r.cols k us s).1
    let y := pairRead t d r.cols k us s
    let z := setVec t { getVec y t with queue := (getVec y t).queue ++ [drainSlot d.spec r (f32 d.mult).toRat rows] } y
    let n := if (rows.any fun w => w.any fun x => x.sat && !x.special) ∧ specDest d.spec = 1
      then setScope (clientOn s (tileDie t)) scSaturated z else z
    exec (.drainPairRead t us) s = .next (if d.done + k = d.count then drainDone t (d.next k) n else n) := by
  change execDrainPairRead t us s = _
  unfold execDrainPairRead
  dsimp only
  rw [hd]
  dsimp only
  rw [if_neg (by grind), hr]
  dsimp only
  rw [if_neg (by simp [hs]), if_neg (by omega), if_neg hs]
  rfl

end

theorem drainDone_explicit {d : DrainJob} (ha : d.auto = false) : drainDone t d s =
    complete d.id (setArr t { getArr s t with drains := (getArr s t).drains.filter fun x => !sameDrain x d } s) := by
  unfold drainDone
  exact if_pos (by simp [ha])

/-- A drain's end (R97, R104): the array without it, whatever passes are left, and then a completion, a post or neither. -/
theorem drainDone_cases (t : TileId) (d : DrainJob) (s : State) : ∃ (ps : List PassJob) (f : State → State),
    (∀ z, Only [.plates] z (f z)) ∧ drainDone t d s = f (setArr t { getArr s t with
      passes := ps, drains := (getArr s t).drains.filter fun x => !sameDrain x d } s) := by
  by_cases ha : d.auto = false
  · exact ⟨_, complete d.id, complete_only d.id, drainDone_explicit ha⟩
  · unfold drainDone
    dsimp only
    rw [if_neg (by simpa using ha)]
    split
    · exact ⟨_, id, Only.rfl', rfl⟩
    · split
      · exact ⟨_, complete d.id, complete_only d.id, rfl⟩
      · split
        · exact ⟨_, postBatch d.id, fun z => (postBatch_kept _ (Kept.rfl' z) (by decide)).only, rfl⟩
        · exact ⟨_, id, Only.rfl', rfl⟩

theorem drainDone_spec (t : TileId) (d : DrainJob) (s : State) :
    let n := drainDone t d s
    (∃ ps, getTile n t = { getTile s t with arr := { getArr s t with
      passes := ps, drains := (getArr s t).drains.filter fun x => !sameDrain x d } }) ∧
    (∀ u : TileId, u ≠ t → getTile n u = getTile s u) ∧ Only [.plates, .tiles] s n := by
  obtain ⟨ps, f, hf, hn⟩ := drainDone_cases t d s
  rw [hn]
  have hu := fun A u => (getTile_congr ((hf (setArr t A s)).tiles (by decide)) u).trans (getTile_setArr t u A s)
  exact ⟨⟨ps, (hu _ t).trans (if_pos rfl)⟩, fun u h => (hu _ u).trans (if_neg h),
    ((setArr_only _ _ _).mono (by decide)).step (hf _) (by decide)⟩

theorem drainDone_completes {d : DrainJob} (ha : d.auto = false) :
    ∃ y, y.plates = s.plates ∧ y.clients = (drainDone t d s).clients ∧ Completed y (drainDone t d s) d.id := by
  rw [drainDone_explicit ha]
  exact ⟨_, (setArr_only _ _ _).plates (by decide), ((complete_only _ _).clients (by decide)).symm, complete_completed _ _⟩

/-- A pair for the vector engine joins its receive queue, before the drain's end (R127, R128). -/
theorem pairQueued_spec (t : TileId) (c : Nat) (x : QSlot) (p : Prop) [Decidable p] (y : State) :
    let z := setVec t { getVec y t with queue := (getVec y t).queue ++ [x] } y
    let n := if p then setScope c scSaturated z else z
    getTile n t = { getTile y t with vec := { getVec y t with queue := (getVec y t).queue ++ [x] } } ∧
    (∀ u : TileId, u ≠ t → getTile n u = getTile y u) ∧ Only [.tiles, .clients] y n := by
  intro z n
  have hn : Only [.clients] z n := Only.ite (setScope_only _ _ _) (Only.rfl' _)
  have hu := fun u => (getTile_congr (hn.tiles (by decide)) u).trans (getTile_setVec t u _ y)
  exact ⟨(hu t).trans (if_pos rfl), fun u h => (hu u).trans (if_neg h), ((setVec_only _ _ _).mono (by decide)).step hn (by decide)⟩

section
variable {d : DrainJob} {r : BankRec} (us : List Upset) (hd : headDrain (getArr s t) = some d)
  (hr : (getBank (getArr s t) d.bank).record = some r)
  (hn : ¬ ((d.started = false ∧ d.auto = false) ∧ drainReserved (getBank (getArr s t) d.bank) d = true))
include hd hr hn

/-- A pair for the vector engine joins its receive queue; with its last entry the drain ends (R97, R127, R128). -/
theorem drainPairRead_queues (hs : specDest d.spec ≠ 0) (hq : (getVec s t).queue.length < 4) :
    let a := getArr s t
    let b := getBank a d.bank
    let k := min 2 (d.count - d.done)
    let moved := a.drains.map fun x => if sameDrain x d then d.next k else x
    ∃ n, exec (.drainPairRead t us) s = .next n ∧
      getVec n t = { getVec s t with queue := (getVec s t).queue ++
        [drainSlot d.spec r (f32 d.mult).toRat (readRows d r.cols k us b)] } ∧
      (∃ y, getBank (getArr n t) d.bank = y ∧ EntriesRead d r.cols k us b y) ∧
      (∀ v : TileId, v ≠ t → getTile n v = getTile s v) ∧ Only (.tiles :: .plates :: .clients :: accountParts) s n ∧
      (d.done + k ≠ d.count → (getArr n t).drains = moved ∧ n.plates = s.plates) ∧
      (d.done + k = d.count → (getArr n t).drains = moved.filter (fun x => !sameDrain x (d.next k)) ∧
        (d.auto = false → ∃ y, y.plates = s.plates ∧ y.clients = n.clients ∧ Completed y n d.id)) := by
  intro a b k moved
  have hx := exec_drainPairRead_vector us hd hr hn hs hq
  obtain ⟨hrows, ⟨y, hread, htile⟩, hothers, hframe⟩ := pairRead_spec t d r.cols (k := k) (by omega) us s
  dsimp only at hx
  rw [hrows] at hx
  have hq := pairQueued_spec t (clientOn s (tileDie t)) (drainSlot d.spec r (f32 d.mult).toRat (readRows d r.cols k us b))
    (((readRows d r.cols k us b).any fun w => w.any fun x => x.sat && !x.special) = true ∧ specDest d.spec = 1) (pairRead t d r.cols k us s)
  have hv : getVec (pairRead t d r.cols k us s) t = getVec s t := by
    unfold getVec
    rw [htile]
  dsimp only at hq
  rw [hv] at hx hq
  generalize (if ((readRows d r.cols k us b).any fun w => w.any fun x => x.sat && !x.special) = true ∧ specDest d.spec = 1 then _ else _ : State) = z
    at hx hq
  obtain ⟨hzt, hzo, hzk⟩ := hq
  rw [htile] at hzt
  have hzf : Only (.tiles :: .clients :: accountParts) s z := hframe.step hzk (by decide)
  have hzothers : ∀ v : TileId, v ≠ t → getTile z v = getTile s v := fun v h => (hzo v h).trans (hothers v h)
  by_cases hc : d.done + k = d.count
  · rw [if_pos hc] at hx
    obtain ⟨⟨ps, hnt⟩, hno, hnk⟩ := drainDone_spec t (d.next k) z
    have hpl : z.plates = s.plates := hzf.plates (by decide)
    have ha : getArr z t = drained a d k y := congrArg Tile.arr hzt
    rw [ha, hzt] at hnt
    refine ⟨_, hx, congrArg Tile.vec hnt, ⟨y, ?_, hread⟩, fun v h => (hno v h).trans (hzothers v h), ?_, fun h => absurd hc h,
      fun _ => ⟨congrArg (fun x => x.arr.drains) hnt, fun hauto => ?_⟩⟩
    · exact (congrArg (fun x => getBank x.arr d.bank) hnt).trans (getBank_drained a d k y)
    · exact (hzf.mono (by decide)).step hnk (by decide)
    · obtain ⟨w, hw, hcl, hcomp⟩ := drainDone_completes (t := t) (s := z) (d := d.next k) hauto
      exact ⟨w, hw.trans hpl, hcl, hcomp⟩
  · rw [if_neg hc] at hx
    exact ⟨_, hx, congrArg Tile.vec hzt, ⟨y, (congrArg (fun x => getBank x.arr d.bank) hzt).trans (getBank_drained a d k y), hread⟩,
      hzothers, hzf.mono (by decide), fun _ => ⟨congrArg (fun x => x.arr.drains) hzt, hzf.plates (by decide)⟩, fun h => absurd h hc⟩

end

end

/-- Settles O40: drains that start, reads that find none, the drain at the head by its destination. -/
theorem drainReads : Obligations.DrainReads := by
  unfold Obligations.DrainReads
  intro t us s a e others
  refine ⟨autoDrain_none, fun j v due => autoDrain_starts, drainPairRead_idle us, drainPairRead_held us, fun d hd => ?_⟩
  intro b lane queue starts
  exact ⟨fun f hs hr hf hh => drainPairRead_refused us hd hs hr hf hh, fun r hr hn =>
    ⟨drainPairRead_laneTaken us hd hr hn, drainPairRead_queueFull us hd hr hn, drainPairRead_offers us hd hr hn,
      drainPairRead_queues us hd hr hn⟩⟩

end Sys2Proof.Machine
end

section
/-! The training of stacks in Proof (R333, R394, R433). -/

namespace Sys2Proof.Machine

variable {s : State}

theorem inProof_iff (s : State) : inProof s = true ↔ stageOf s = 2 := decide_eq_true_iff

theorem tasksDone_getDict (n k : Nat) (s : State) : getDict (tasksDone n s) k =
    if k = dkey 0x2000 0x07 then BitVec.ofNat 64 ((getDict s (dkey 0x2000 0x07)).toNat + n) else getDict s k := by
  unfold tasksDone
  dsimp only
  exact getDict_setDict _ _ _ _

theorem tasksDone_only (n : Nat) (s : State) : Only [.dict] s (tasksDone n s) := setDict_only _ _ _

theorem exec_stackTraining (i : StackId) (ok : Bool) (h : stageOf s = 2 ∧ fld (getReg s (stkBlk i.val 0)) 0 2 = 0) :
    exec (.stackTraining i ok) s = .next (if ok then stackUp i.val (tasksDone 1 (repairRows i.val s))
      else failStack i.val true (tasksDone 1 (repairRows i.val s))) := by
  obtain ⟨hst, hfld⟩ := h
  exact congrArg Host.Outcome.next (if_neg (by simp [inProof_iff, hst, hfld]))

theorem stackTraining_notReady (i : StackId) (h : ¬ (stageOf s = 2 ∧ fld (getReg s (stkBlk i.val 0)) 0 2 = 0)) (ok : Bool) :
    exec (.stackTraining i ok) s = .next s :=
  congrArg Host.Outcome.next (if_pos (by rw [inProof_iff]; exact not_and_or.1 h))

/-- STACK_TRAINING (R394): the stack's rows are repaired and the task is counted; then the stack is up, or has failed. -/
theorem stackTraining_runs (i : StackId) (h : stageOf s = 2 ∧ fld (getReg s (stkBlk i.val 0)) 0 2 = 0) :
    let a := stkBlk i.val 0
    let up := dkey 0x3000 0x01
    let mine (x : Swap) : Bool := decide (x.die.val = i.val / 6) && decide (x.unit = i.val % 6)
    let here (b : Nat) : Prop := regionOf b = .stack i.val
    ∃ y z, Chain (fun x s n => SwapRecorded 6 x.die.val x.unit 0 0 x.cause x.row s n) (s.wearS.rows.filter mine)
        { s with wearS := { s.wearS with rows := s.wearS.rows.filter fun x => !mine x } } y ∧
      (getDict z (dkey 0x2000 0x07) = BitVec.ofNat 64 ((getDict s (dkey 0x2000 0x07)).toNat + 1) ∧ Only [.dict] y z) ∧
      (∃ n, exec (.stackTraining i true) s = .next n ∧ fld (getReg n a) 0 2 = 1 ∧ bit (getDict n up) i.val = true ∧
        (∀ k, k ≠ up → getDict n k = getDict z k) ∧ (∀ b, b ≠ a → getReg n b = getReg s b) ∧
        (∀ b, (here b → mget 0#8 n.mem.cells b = 0#8) ∧ (¬ here b → mget 0#8 n.mem.cells b = mget 0#8 s.mem.cells b)) ∧
        (∀ w, (here (8 * w) → mget 0#16 n.mem.synd w = 0#16) ∧ (¬ here (8 * w) → mget 0#16 n.mem.synd w = mget 0#16 s.mem.synd w)) ∧
        Only [.mem, .regs, .dict] z n) ∧
      ∃ x n, exec (.stackTraining i false) s = .next n ∧ StageFaulted 2 (post 0x0601 16 (i.val + 32) x) n ∧ fld (getReg x a) 0 2 = 2 ∧
        bit (getDict x up) i.val = false ∧ (∀ k, k ≠ up → getDict x k = getDict z k) ∧ (∀ b, b ≠ a → getReg x b = getReg s b) ∧
        Only [.regs, .dict] z x := by
  intro a up mine here
  have htrue := exec_stackTraining i true h
  have hfalse := exec_stackTraining i false h
  have hy : Only [.dict, .sat, .host, .logs, .wearS] s (repairRows i.val s) := (repairRows_kept i.val (Kept.rfl' s) (by decide)).only
  have h07 := repairRows_most i.val s (dkey 0x2000 0x07) (by decide)
  have hchain := repairRows_chain i.val s
  generalize repairRows i.val s = y at htrue hfalse hy h07 hchain
  have hz := tasksDone_only 1 y
  have hcount := (tasksDone_getDict 1 (dkey 0x2000 0x07) y).trans (if_pos rfl)
  rw [h07] at hcount
  generalize tasksDone 1 y = z at htrue hfalse hz hcount
  have hregs : ∀ b, getReg z b = getReg s b := getReg_congr ((hz.regs (by decide)).trans (hy.regs (by decide)))
  have hmem : z.mem = s.mem := (hz.mem (by decide)).trans (hy.mem (by decide))
  obtain ⟨u1, u2, u3, u4, u5, u6, u7⟩ := stackUp_spec i z
  obtain ⟨x, f1, f2, f3, f4, f5, f6⟩ := failTraining_spec i z
  rw [hmem] at u5 u6
  exact ⟨y, z, hchain, ⟨hcount, hz⟩, ⟨_, htrue, u1, u2, u3, fun b hb => (u4 b hb).trans (hregs b), u5, u6, u7⟩,
    x, _, hfalse, f1, f2, f3, f4, fun b hb => (f5 b hb).trans (hregs b), f6⟩

end Sys2Proof.Machine
end

section
/-! The self-test of a die's array in Proof (R85, R87, R394, R433, R434). -/

namespace Sys2Proof.Machine

variable {s : State}

/-- The physical tiles that pass self-test (R394). -/
def tilesPassed (s : State) (d : Nat) (m : SelfTestIn) : BitVec 17 :=
  (List.range 17).foldl (fun (v : BitVec 17) p => if tilePasses s d m p then v ||| 1#17 <<< p else v) 0

theorem tilesPassed_iff (s : State) (d : Nat) (m : SelfTestIn) (p : Nat) (hp : p < 17) : bit (tilesPassed s d m) p = true ↔
    bit m.passed p = true ∧ RepairFits s 1 d p m.rows ∧ RepairFits s 2 d p m.cols := by
  refine (bit_fold_or (tilePasses s d m) id (List.range 17) 0 p hp).trans ?_
  unfold tilePasses
  rw [← repairable_iff, ← repairable_iff]
  simp [hp, and_assoc, bit]

/-- A die after its tiles' repairs: rows, then columns (R85, R433). -/
def linesRepaired (d : Nat) (passed : BitVec 17) (m : SelfTestIn) (s : State) : State :=
  repairLines 2 d (testCause s) passed m.cols (repairLines 1 d (testCause s) passed m.rows s)

/-- A die after its spare tile serves, where it can, and is spare no longer where it failed (R87, R434). -/
def spareTileUsed (d : Nat) (passed : BitVec 17) (s : State) : State :=
  let s1 := (List.range 16).foldl (replaceTile d passed) s
  if bit passed 16 then s1 else clearEntryBit (dkey 0x8000 0x0C) d s1

/-- The tiles that serve with a die's that passed (R394). -/
def servingWith (d : Nat) (passed : BitVec 17) (s : State) : Word :=
  (tilesServing s d passed).foldl (fun (v : Word) t => v ||| 1#64 <<< (16 * d + t)) (getDict s (dkey 0x2000 0x06))

theorem servingWith_iff (d : Nat) (passed : BitVec 17) (s : State) {j : Nat} (hj : j < 64) :
    bit (servingWith d passed s) j = true ↔
      bit (getDict s (dkey 0x2000 0x06)) j = true ∨ (j / 16 = d ∧ bit passed (physTile s d (j % 16)) = true) := by
  unfold servingWith tilesServing
  rw [List.foldl_filter]
  refine (bit_fold_or (fun t => bit passed (physTile s d t)) (fun t => 16 * d + t) (List.range 16) _ j hj).trans (or_congr_right ?_)
  constructor
  · rintro ⟨t, ht, hp, rfl⟩
    have := List.mem_range.1 ht
    rw [show (16 * d + t) % 16 = t by omega]
    exact ⟨by omega, hp⟩
  · rintro ⟨hd, hp⟩
    exact ⟨j % 16, List.mem_range.2 (by omega), hp, by omega⟩

/-- A die after its self-test is marked: the tiles that serve, the tasks, the result (R394). -/
def testMarked (d : Nat) (passed : BitVec 17) (s : State) : State :=
  let s1 := setDict (dkey 0x2000 0x06) (servingWith d passed s) s
  tasksDone 17 { s1 with start := { s1.start with tilesOk := mset 0 s1.start.tilesOk d (passed.toNat + 2 ^ 17) } }

theorem exec_arraySelfTest (d : DieId) (m : SelfTestIn) (h : stageOf s = 2 ∧ mget 0 s.start.tilesOk d.val = 0) :
    let passed := tilesPassed s d.val m
    let y := spareTileUsed d.val passed (linesRepaired d.val passed m s)
    let e := post 0x0905 16 (d.val + 4 * passed.toNat) (testMarked d.val passed y)
    exec (.arraySelfTest d m) s = .next (if (tilesServing y d.val passed).length < 16 then stageFault 3 e else e) := by
  obtain ⟨hst, htiles⟩ := h
  exact congrArg Host.Outcome.next (if_neg (by simp [inProof_iff, hst, htiles]))

theorem arraySelfTest_notReady (d : DieId) (m : SelfTestIn) (h : ¬ (stageOf s = 2 ∧ mget 0 s.start.tilesOk d.val = 0)) :
    exec (.arraySelfTest d m) s = .next s :=
  congrArg Host.Outcome.next (if_pos (by rw [inProof_iff]; exact not_and_or.1 h))

/-- Where a die's spare tile serves after its test, and what is left of it (R87). -/
structure SpareServes (d : Nat) (passed : BitVec 17) (s n : State) : Prop where
  moved : ∀ t, t < 16 → physTile n d t = physTile s d t ∨ (physTile n d t = 16 ∧ bit (getDict s (dkey 0x8000 0x0C)) d = true ∧
    bit passed 16 = true ∧ bit passed (physTile s d t) = false)
  once : ∀ t u, t < 16 → u < 16 → physTile n d t ≠ physTile s d t → physTile n d u ≠ physTile s d u → t = u
  used : bit (getDict s (dkey 0x8000 0x0C)) d = true → bit passed 16 = true → (∃ t, t < 16 ∧ bit passed (physTile s d t) = false) →
    (∃ t, t < 16 ∧ physTile n d t = 16) ∧ bit (getDict n (dkey 0x8000 0x0C)) d = false

theorem physTile_congr {s n : State} (h : n.start.tileMap = s.start.tileMap) (d t : Nat) : physTile n d t = physTile s d t := by
  unfold physTile
  rw [h]

/-- Effects before and after that leave the tiles' map and the free spare tiles alone. -/
theorem SpareServes.congr {d : Nat} {passed : BitVec 17} {r s n m : State} (h : SpareServes d passed s n)
    (hr : s.start.tileMap = r.start.tileMap) (hrd : getDict s (dkey 0x8000 0x0C) = getDict r (dkey 0x8000 0x0C))
    (hm : m.start.tileMap = n.start.tileMap) (hmd : getDict m (dkey 0x8000 0x0C) = getDict n (dkey 0x8000 0x0C)) :
    SpareServes d passed r m := by
  obtain ⟨h1, h2, h3⟩ := h
  rw [hrd] at h1 h3
  rw [← hmd] at h3
  simp only [physTile_congr hr, ← physTile_congr hm] at h1 h2 h3
  exact ⟨h1, h2, h3⟩

theorem spareTileUsed_spec (d : DieId) (passed : BitVec 17) (s : State) :
    let n := spareTileUsed d.val passed s
    SpareServes d.val passed s n ∧ MostSame s n ∧ n.start = { s.start with tileMap := n.start.tileMap } ∧
      Only [.dict, .sat, .host, .logs, .start, .wearS] s n := by
  intro n
  obtain ⟨hmost, hstart, hcases⟩ := replaceTiles_spec d.val d.isLt passed (List.range 16) (fun t h => List.mem_range.1 h) s
  have hy : Only [.dict, .sat, .host, .logs, .start, .wearS] s ((List.range 16).foldl (replaceTile d.val passed) s) :=
    (kept_foldl (Kept.rfl' s) fun _ t h => replaceTile_kept d.val passed t h (by decide)).only
  have hn : n = spareTileUsed d.val passed s := rfl
  unfold spareTileUsed at hn
  generalize (List.range 16).foldl (replaceTile d.val passed) s = y at hmost hstart hcases hy hn
  have hns : n.start = y.start := by
    rw [hn]
    dsimp only
    split <;> rfl
  have hphys : ∀ t, physTile n d.val t = physTile y d.val t := fun t => by unfold physTile; rw [hns]
  have hno : Only [.dict] y n := by
    rw [hn]
    exact Only.ite (Only.rfl' _) (setDict_only _ _ _)
  have hnd : ∀ k, k ≠ dkey 0x8000 0x0C ∨ bit passed 16 = true → getDict n k = getDict y k := fun k hk => by
    rw [hn]
    dsimp only
    split
    · rfl
    · exact (getDict_setDict _ _ _ _).trans (if_neg (hk.resolve_right ‹_›))
  refine ⟨?_, fun k hk => (hnd k (.inl fun h => hk (by rw [h]; decide))).trans (hmost k hk), by rw [hns]; exact hstart, hy.step hno (by decide)⟩
  rcases hcases with ⟨hsame, hdict, hall⟩ | ⟨hspare, hbit, t, ht, hfail, hmap⟩
  · have hid : ∀ t, physTile n d.val t = physTile s d.val t := fun t => (hphys t).trans (hsame t)
    refine ⟨fun t _ => .inl (hid t), fun t u _ _ h => absurd (hid t) h, fun h1 h2 ⟨t, ht, hf⟩ => ?_⟩
    exact absurd (hall ⟨h1, h2⟩ t (List.mem_range.2 ht)) (by simp [hf])
  · obtain ⟨hfree, h16⟩ := hspare
    have hmoved : ∀ u, u < 16 → physTile n d.val u = if u = t then 16 else physTile s d.val u := fun u hu => (hphys u).trans (hmap u hu)
    have honly : ∀ u, u < 16 → physTile n d.val u ≠ physTile s d.val u → u = t := fun u hu hne => by
      by_contra h
      exact hne ((hmoved u hu).trans (if_neg h))
    refine ⟨fun u hu => ?_, fun u v hu hv h1 h2 => (honly u hu h1).trans (honly v hv h2).symm, fun _ _ _ => ⟨⟨t, ht, ?_⟩, ?_⟩⟩
    · by_cases h : u = t
      · exact .inr ⟨(hmoved u hu).trans (if_pos h), hfree, h16, by rw [h]; exact hfail⟩
      · exact .inl ((hmoved u hu).trans (if_neg h))
    · exact (hmoved t ht).trans (if_pos rfl)
    · rw [hnd _ (.inr h16)]
      exact hbit

theorem testMarked_spec (d : DieId) (passed : BitVec 17) (s : State) :
    let n := testMarked d.val passed s
    n.start = { s.start with tilesOk := mset 0 s.start.tilesOk d.val (passed.toNat + 2 ^ 17) } ∧
      getDict n (dkey 0x2000 0x07) = BitVec.ofNat 64 ((getDict s (dkey 0x2000 0x07)).toNat + 17) ∧
      (∀ j, j < 64 → (bit (getDict n (dkey 0x2000 0x06)) j = true ↔
        bit (getDict s (dkey 0x2000 0x06)) j = true ∨ (j / 16 = d.val ∧ bit passed (physTile s d.val (j % 16)) = true))) ∧
      (∀ k, k / 256 ≠ 0x2000 → getDict n k = getDict s k) ∧ Only [.dict, .start] s n := by
  intro n
  have hd : ∀ k, getDict n k = if k = dkey 0x2000 0x07 then BitVec.ofNat 64 ((getDict s (dkey 0x2000 0x07)).toNat + 17)
      else if k = dkey 0x2000 0x06 then servingWith d.val passed s else getDict s k := fun k => by
    refine (tasksDone_getDict 17 k _).trans ?_
    exact congrArg₂ (fun x y => if k = dkey 0x2000 0x07 then BitVec.ofNat 64 (BitVec.toNat x + 17) else y)
      ((getDict_setDict s _ (dkey 0x2000 0x07) _).trans (if_neg (by decide))) (getDict_setDict s _ k _)
  refine ⟨rfl, (hd _).trans (if_pos rfl), fun j hj => ?_, fun k hk => ?_, ?_⟩
  · rw [hd, if_neg (by decide), if_pos rfl]
    exact servingWith_iff d.val passed s hj
  · rw [hd, if_neg (by rintro rfl; exact hk (by decide)), if_neg (by rintro rfl; exact hk (by decide))]
  · exact (((setDict_only _ _ _).mono (by decide)).step (only_start _ _) (by decide)).step (tasksDone_only _ _) (by decide)

theorem linesRepaired_only (d : Nat) (passed : BitVec 17) (m : SelfTestIn) (s : State) :
    Only [.dict, .sat, .wearS, .host, .logs] s (linesRepaired d passed m s) :=
  (repairLines_kept _ _ _ _ _ (repairLines_kept _ _ _ _ _ (Kept.rfl' s) (by decide)) (by decide)).only

/-- Tiles serve on a whole die when each has a physical tile that passed. -/
theorem tilesServing_lt (s : State) (d : Nat) (passed : BitVec 17) :
    (tilesServing s d passed).length < 16 ↔ ∃ t, t < 16 ∧ bit passed (physTile s d t) = false := by
  have h := List.length_filter_lt_length_iff_exists (p := fun t => bit passed (physTile s d t)) (l := List.range 16)
  rw [List.length_range] at h
  simpa [tilesServing] using h

/-- A stage fault that is set where a condition holds. -/
theorem stageFault_if (k : Nat) (p : Prop) [Decidable p] (e : State) :
    let n := if p then stageFault k e else e
    n.start = e.start ∧ (∀ j, j ≠ dkey 0x2000 0x02 → getDict n j = getDict e j) ∧ Only [.dict, .host, .logs] e n ∧
      (¬ p → n = e) ∧ (p → StageFaulted k e n) := by
  have hk : Only [.dict, .host, .logs] e (stageFault k e) :=
    ((setDict_only _ _ _).mono (by decide)).step (post_only _ _ _ _) (by decide)
  intro n
  refine ⟨(Only.ite hk (Only.rfl' e)).start (by decide), fun j hj => ?_, Only.ite hk (Only.rfl' e), fun h => if_neg h, fun h => ?_⟩
  · unfold n
    split
    · exact stageFault_getDict k j e hj
    · rfl
  · rw [show n = stageFault k e from if_pos h]
    exact stageFault_faulted k e

/-- ARRAY_SELF_TEST (R394): the repairs of the tiles that pass, the spare tile, the marks, and the result. -/
theorem arraySelfTest_runs (d : DieId) (m : SelfTestIn) (h : stageOf s = 2 ∧ mget 0 s.start.tilesOk d.val = 0) :
    let spare := bit (getDict s (dkey 0x8000 0x0C)) d.val = true
    let cause := if s.start.selftest then 8 else 1
    ∃ (passed : BitVec 17) (y1 y2 z n : State), exec (.arraySelfTest d m) s = .next n ∧
      (∀ p, p < 17 → (bit passed p = true ↔ bit m.passed p = true ∧ RepairFits s 1 d.val p m.rows ∧ RepairFits s 2 d.val p m.cols)) ∧
      Chain (fun x s n => SwapRecorded 1 d.val x.1 x.2 (x.2 / 65 * 65 + 64) cause 0 s n) (m.rows.filter fun x => bit passed x.1) s y1 ∧
      Chain (fun x s n => SwapRecorded 2 d.val x.1 x.2 (x.2 / 65 * 65 + 64) cause 0 s n) (m.cols.filter fun x => bit passed x.1) y1 y2 ∧
      Only [.dict, .sat, .host, .logs, .start, .wearS] y2 n ∧
      (∀ t, t < 16 → physTile n d.val t = physTile s d.val t ∨
        (physTile n d.val t = 16 ∧ spare ∧ bit passed 16 = true ∧ bit passed (physTile s d.val t) = false)) ∧
      (∀ t u, t < 16 → u < 16 → physTile n d.val t ≠ physTile s d.val t → physTile n d.val u ≠ physTile s d.val u → t = u) ∧
      (spare → bit passed 16 = true → (∃ t, t < 16 ∧ bit passed (physTile s d.val t) = false) →
        (∃ t, t < 16 ∧ physTile n d.val t = 16) ∧ bit (getDict n (dkey 0x8000 0x0C)) d.val = false) ∧
      mget 0 n.start.tilesOk d.val = passed.toNat + 2 ^ 17 ∧ (∀ k, k ≠ d.val → mget 0 n.start.tilesOk k = mget 0 s.start.tilesOk k) ∧
      getDict n (dkey 0x2000 0x07) = BitVec.ofNat 64 ((getDict s (dkey 0x2000 0x07)).toNat + 17) ∧
      (∀ j, j < 64 → (bit (getDict n (dkey 0x2000 0x06)) j = true ↔
        bit (getDict s (dkey 0x2000 0x06)) j = true ∨ (j / 16 = d.val ∧ bit passed (physTile n d.val (j % 16)) = true))) ∧
      let e := post 0x0905 16 (d.val + 4 * passed.toNat) z
      ((∀ t, t < 16 → bit passed (physTile n d.val t) = true) → n = e) ∧
      ((∃ t, t < 16 ∧ bit passed (physTile n d.val t) = false) → StageFaulted 3 e n) := by
  intro spare cause
  have hx := exec_arraySelfTest d m h
  have hpassed := tilesPassed_iff s d.val m
  dsimp only at hx
  generalize tilesPassed s d.val m = passed at hx hpassed
  -- the repairs
  have hchain1 := repairLines_chain 1 d.val (testCause s) passed m.rows s
  have hchain2 := repairLines_chain 2 d.val (testCause s) passed m.cols (repairLines 1 d.val (testCause s) passed m.rows s)
  have hy2 := linesRepaired_only d.val passed m s
  have hspare2 : getDict (linesRepaired d.val passed m s) (dkey 0x8000 0x0C) = getDict s (dkey 0x8000 0x0C) :=
    (repairLines_spare _ _ _ _ _ _).trans (repairLines_spare _ _ _ _ _ _)
  have hmost2 : MostSame s (linesRepaired d.val passed m s) := fun k hk =>
    (repairLines_most _ _ _ _ _ _ k hk).trans (repairLines_most _ _ _ _ _ _ k hk)
  change Chain _ _ _ (linesRepaired d.val passed m s) at hchain2
  generalize linesRepaired d.val passed m s = y2 at hx hchain2 hy2 hspare2 hmost2
  -- the spare tile
  obtain ⟨hserves, hmost3, hstart3, hy3⟩ := spareTileUsed_spec d passed y2
  generalize spareTileUsed d.val passed y2 = y3 at hx hserves hmost3 hstart3 hy3
  -- the marks and the result
  obtain ⟨hstart, h07, h06, hdict, hz⟩ := testMarked_spec d passed y3
  generalize testMarked d.val passed y3 = z at hx hstart h07 h06 hdict hz
  have he := post_only 0x0905 16 (d.val + 4 * passed.toNat) z
  obtain ⟨hnstart, hndict, hn, hnone, hfault⟩ := stageFault_if 3 ((tilesServing y3 d.val passed).length < 16)
    (post 0x0905 16 (d.val + 4 * passed.toNat) z)
  generalize (if (tilesServing y3 d.val passed).length < 16 then stageFault 3 _ else _ : State) = n at hx hnstart hndict hn hnone hfault
  have hns : n.start = z.start := hnstart.trans (he.start (by decide))
  have hnd : ∀ k, k ≠ dkey 0x2000 0x02 → getDict n k = getDict z k := fun k hk =>
    (hndict k hk).trans (getDict_congr (he.dict (by decide)) k)
  have hphys : ∀ t, physTile n d.val t = physTile y3 d.val t := physTile_congr (by rw [hns, hstart]) d.val
  have htiles : n.start.tilesOk = mset 0 s.start.tilesOk d.val (passed.toNat + 2 ^ 17) := by
    have hy3t : y3.start.tilesOk = s.start.tilesOk := by rw [hstart3, hy2.start (by decide)]
    rw [hns, hstart, ← hy3t]
  obtain ⟨hmoved, honce, hused⟩ := hserves.congr (r := s) (m := n) (congrArg StartSt.tileMap (hy2.start (by decide))) hspare2
    (by rw [hns, hstart]) ((hnd _ (by decide)).trans (hdict _ (by decide)))
  refine ⟨passed, _, y2, z, n, hx, hpassed, hchain1, hchain2, ?_, hmoved, honce, hused, ?_, fun k hk => ?_, ?_, fun j hj => ?_, ?_, ?_⟩
  · exact ((hy3.step hz (by decide)).step he (by decide)).step hn (by decide)
  · rw [htiles]
    exact mget_mset_same 0 _ _ _
  · rw [htiles]
    exact mget_mset_ne 0 0 _ _ hk
  · rw [hnd _ (by decide), h07, hmost3 _ (by decide), hmost2 _ (by decide)]
  · rw [hnd _ (by decide), h06 j hj, hmost3 _ (by decide), hmost2 _ (by decide), hphys]
  · intro hall
    exact hnone fun hlt => by
      obtain ⟨t, ht, hf⟩ := (tilesServing_lt y3 d.val passed).1 hlt
      rw [← hphys, hall t ht] at hf
      cases hf
  · rintro ⟨t, ht, hf⟩
    exact hfault ((tilesServing_lt y3 d.val passed).2 ⟨t, ht, by rw [← hphys]; exact hf⟩)

end Sys2Proof.Machine
end

section
/-! The training of ports in Proof and Edition (R268, R275, R276, R294, R394, R433). -/

namespace Sys2Proof.Machine

variable {s : State}

/-- A spare port that stands by is idle, unless it serves as a bypass (R275, R294). -/
theorem trainedState_eq (s : State) (p : Nat) :
    let u := (getDict s (dkey 0x5000 0x0D)).toNat
    trainedState s p = if (p = 7 ∧ u % 4 ≠ 2) ∨ (p = 23 ∧ u / 4 % 4 ≠ 2) then 5 else 2 := by
  unfold trainedState
  dsimp only
  split_ifs <;> omega

/-- The parent port depends on the ports' states and the depths heard alone. -/
theorem chooseParent_congr {s n : State} (hr : n.regs = s.regs) (hd : n.fabric.time.depths = s.fabric.time.depths) :
    chooseParent n = chooseParent s := by
  have hs : ∀ p, portState n p = portState s p := fun p => portState_congr (getReg_congr hr _)
  have hp : ∀ p, depthOf n p = depthOf s p := fun p => by
    unfold depthOf
    rw [hd]
  unfold chooseParent
  simp only [hs, hp]

theorem linkTraining_notReady (p : PortId) (m : TrainIn)
    (h : ¬ ((stageOf s = 2 ∨ stageOf s = 3) ∧ portState s p.val ≠ 2 ∧ portState s p.val ≠ 3)) :
    exec (.linkTraining p m) s = .next s :=
  congrArg Host.Outcome.next (if_pos (by omega))

theorem exec_linkTraining (p : PortId) (m : TrainIn)
    (h : (stageOf s = 2 ∨ stageOf s = 3) ∧ portState s p.val ≠ 2 ∧ portState s p.val ≠ 3) :
    let y := joinTree (trainPort p.val m s)
    exec (.linkTraining p m) s = .next (if stageOf s = 2 ∧ portState s p.val ≤ 1 then tasksDone 1 y else y) := by
  refine congrArg Host.Outcome.next ((if_neg (by omega)).trans ?_)
  simp only [Bool.and_eq_true, inProof_iff, decide_eq_true_eq]

/-- A task that is counted where a condition holds. -/
theorem tasksDone_if (p : Prop) [Decidable p] (y : State) :
    let n := if p then tasksDone 1 y else y
    getDict n (dkey 0x2000 0x07) = (if p then BitVec.ofNat 64 ((getDict y (dkey 0x2000 0x07)).toNat + 1) else getDict y (dkey 0x2000 0x07)) ∧
      (∀ k, k ≠ dkey 0x2000 0x07 → getDict n k = getDict y k) ∧ Only [.dict] y n := by
  intro n
  refine ⟨?_, fun k hk => ?_, Only.ite (tasksDone_only _ _) (Only.rfl' _)⟩
  · unfold n
    split
    · exact (tasksDone_getDict _ _ _).trans (if_pos rfl)
    · rfl
  · unfold n
    split
    · exact (tasksDone_getDict _ _ _).trans (if_neg hk)
    · rfl

/-- LINK_TRAINING (R394): the port's state, its peer and its lane; the parent port; the task. -/
theorem linkTraining_runs (p : PortId) (m : TrainIn)
    (h : (stageOf s = 2 ∨ stageOf s = 3) ∧ portState s p.val ≠ 2 ∧ portState s p.val ≠ 3) :
    let a := portStatus p.val
    let old := fld (getReg s a) 3 3
    let u := (getDict s (dkey 0x5000 0x0D)).toNat
    let idle := (p.val = 7 ∧ u % 4 ≠ 2) ∨ (p.val = 23 ∧ u / 4 % 4 ≠ 2)
    ∃ n, exec (.linkTraining p m) s = .next n ∧
      (m.up = false → portState n p.val = 4) ∧ (m.up = true → idle → portState n p.val = 5) ∧ (m.up = true → ¬ idle → portState n p.val = 2) ∧
      peerMod n p.val = m.peerMod % 4096 ∧ peerPort n p.val = m.peerPort % 32 ∧ (∀ b, b ≠ a → getReg n b = getReg s b) ∧
      ((∀ l, m.lane = some l → l < 5 → l = old) → fld (getReg n a) 3 3 = old ∧ n.wearS = s.wearS) ∧
      (∀ l, m.lane = some l → l < 5 → l ≠ old → fld (getReg n a) 3 3 = l ∧ ∃ y z, y.wearS = s.wearS ∧
        SwapRecorded 7 (p.val / 8) p.val l old (if s.start.selftest then 8 else 1) 0 y z ∧ n.wearS = z.wearS) ∧
      n.fabric = { s.fabric with time := { s.fabric.time with parent := if isRoot s then none else chooseParent n } } ∧
      (isRoot s = true → getDict n (dkey 0x5000 0x0A) = 0) ∧
      (isRoot s = false → ∀ q, chooseParent n = some q → getDict n (dkey 0x5000 0x0A) = BitVec.ofNat 64 (depthOf s q + 1)) ∧
      getDict n (dkey 0x2000 0x07) = (if stageOf s = 2 ∧ portState s p.val ≤ 1 then BitVec.ofNat 64 ((getDict s (dkey 0x2000 0x07)).toNat + 1)
        else getDict s (dkey 0x2000 0x07)) ∧
      Only [.regs, .dict, .sat, .fabric, .host, .logs, .wearS] s n := by
  intro a old u idle
  have hx := exec_linkTraining p m h
  -- the port
  obtain ⟨hstate, hmod, hport, hregs, hlane, hlane', hdict, hx1⟩ := trainPort_spec p.val m s
  rw [trainedState_eq] at hstate
  dsimp only at hx
  generalize trainPort p.val m s = x at hx hstate hmod hport hregs hlane hlane' hdict hx1
  -- the timing tree
  obtain ⟨hfabric, hroot, hdepth, hydict, hyregs, hy⟩ := joinTree_spec x
  generalize joinTree x = y at hx hfabric hroot hdepth hydict hyregs hy
  -- the task
  obtain ⟨hcount, hndict, hn⟩ := tasksDone_if (stageOf s = 2 ∧ portState s p.val ≤ 1) y
  generalize (if stageOf s = 2 ∧ portState s p.val ≤ 1 then tasksDone 1 y else y) = n at hx hcount hndict hn
  have hr : n.regs = x.regs := (hn.regs (by decide)).trans hyregs
  have hreg : ∀ b, getReg n b = getReg x b := getReg_congr hr
  have hxf : x.fabric = s.fabric := hx1.fabric (by decide)
  have hnf : n.fabric = y.fabric := hn.fabric (by decide)
  have hparent : chooseParent n = chooseParent x := chooseParent_congr hr (by rw [hnf, hfabric])
  have hisroot : isRoot x = isRoot s := by
    unfold isRoot
    rw [hdict _ (by decide) (by decide)]
  have hwear : n.wearS = x.wearS := (hn.wearS (by decide)).trans (hy.wearS (by decide))
  have hps : portState n p.val = portState x p.val := portState_congr (hreg _)
  refine ⟨n, hx, fun hup => ?_, fun hup hi => ?_, fun hup hi => ?_, ?_, ?_, fun b hb => (hreg b).trans (hregs b hb), ?_, ?_, ?_, ?_, ?_, ?_, ?_⟩
  · rw [hps, hstate, hup, if_neg (by decide)]
  · rw [hps, hstate, hup, if_pos rfl, if_pos hi]
  · rw [hps, hstate, hup, if_pos rfl, if_neg hi]
  · rw [← hmod]
    exact congrArg (fun v => fld v 6 12) (hreg _)
  · rw [← hport]
    exact congrArg (fun v => fld v 18 5) (hreg _)
  · rw [hreg, hwear]
    exact hlane
  · rw [hreg, hwear]
    intro l h1 h2 h3
    obtain ⟨hf, w, hw, hswap⟩ := hlane' l h1 h2 h3
    exact ⟨hf, w, x, hw, hswap, rfl⟩
  · rw [hnf, hfabric, hxf, hisroot, hparent]
  · intro hroot'
    rw [hndict _ (by decide)]
    exact hroot (hisroot.trans hroot')
  · intro hroot' q hq
    rw [hndict _ (by decide), hdepth (hisroot.trans hroot') q (hparent.symm.trans hq)]
    unfold depthOf
    rw [hxf]
  · rw [hcount, hydict _ (by decide), hdict _ (by decide) (by decide)]
  · exact ((hx1.mono (by decide)).step hy (by decide)).step hn (by decide)

end Sys2Proof.Machine
end

section
/-! The check of a die's Registrar cores in Proof (R394, R433, R434). -/

namespace Sys2Proof.Machine

section
variable {s : State}

/-- A core of a die, of five with the spare, that its check found failed. -/
def CoreFailed (bad : List (Fin 5)) (c : Nat) : Prop := ∃ b ∈ bad, b.val = c

theorem coreFailed_iff (bad : List (Fin 5)) (c : Nat) : bad.any (fun b => decide (b.val = c)) = true ↔ CoreFailed bad c := by
  simp [CoreFailed]

theorem coreSpare_iff (bad : List (Fin 5)) (used : Nat) :
    (!(bad.any fun b => decide (b.val = 4)) && decide (used = 0)) = true ↔ ¬ CoreFailed bad 4 ∧ used = 0 := by
  rw [← coreFailed_iff]
  simp

/-- The serving cores that failed, in order. -/
def coresWorn (bad : List (Fin 5)) : List Nat := (List.range 4).filter fun c => bad.any fun b => decide (b.val = c)

theorem mem_coresWorn (bad : List (Fin 5)) (c : Nat) : c ∈ coresWorn bad ↔ c < 4 ∧ CoreFailed bad c := by
  rw [coresWorn, List.mem_filter, List.mem_range, coreFailed_iff]

theorem coresWorn_nil {bad : List (Fin 5)} (h : ∀ c, c < 4 → ¬ CoreFailed bad c) : coresWorn bad = [] :=
  List.eq_nil_iff_forall_not_mem.2 fun c hc => by
    obtain ⟨hlt, hf⟩ := (mem_coresWorn bad c).1 hc
    exact h c hlt hf

/-- The first core that failed stands at the head. -/
theorem coresWorn_cons {bad : List (Fin 5)} {c : Nat} (hc : c < 4) (hf : CoreFailed bad c) (hmin : ∀ k, k < 4 → CoreFailed bad k → c ≤ k) :
    ∃ l, coresWorn bad = c :: l := by
  refine List.head?_eq_some_iff.1 ?_
  unfold coresWorn
  rw [List.head?_filter, List.find?_range_eq_some]
  refine ⟨(coreFailed_iff bad c).2 hf, List.mem_range.2 hc, fun j hj => ?_⟩
  rw [Bool.not_eq_true', ← Bool.not_eq_true, coreFailed_iff]
  exact fun h => absurd (hmin j (by omega) h) (by omega)

theorem coresWorn_nodup (bad : List (Fin 5)) : (coresWorn bad).Nodup := List.nodup_range.filter _

theorem coresWorn_one {bad : List (Fin 5)} {c : Nat} (hc : c < 4) (hf : CoreFailed bad c) (hone : ∀ k, k < 4 → CoreFailed bad k → k = c) :
    coresWorn bad = [c] := by
  obtain ⟨l, hl⟩ := coresWorn_cons hc hf fun k hk h => (hone k hk h).ge
  have hnd := coresWorn_nodup bad
  rw [hl] at hnd ⊢
  rw [List.nodup_cons] at hnd
  have hnil : l = [] := List.eq_nil_iff_forall_not_mem.2 fun k hk => by
    obtain ⟨hlt, hfk⟩ := (mem_coresWorn bad k).1 (by rw [hl]; exact List.mem_cons_of_mem _ hk)
    rw [hone k hlt hfk] at hk
    exact hnd.1 hk
  rw [hnil]

/-- A die whose check is complete, its spare core given up where it failed (R394). -/
def coresServed (d : Nat) (bad : List (Fin 5)) (s : State) : State :=
  let s1 := { s with start := { s.start with cores := s.start.cores ||| 2 ^ d } }
  if bad.any (fun b => decide (b.val = 4)) then clearEntryBit (dkey 0x8000 0x0E) d s1 else s1

theorem coresServed_spec (d : DieId) (bad : List (Fin 5)) (s : State) :
    let n := coresServed d.val bad s
    n.start = { s.start with cores := s.start.cores ||| 2 ^ d.val } ∧
    (CoreFailed bad 4 → bit (getDict n (dkey 0x8000 0x0E)) d.val = false) ∧ (¬ CoreFailed bad 4 → n.dict = s.dict) ∧ Only [.dict, .start] s n := by
  intro n
  have hs1 := only_start { s.start with cores := s.start.cores ||| 2 ^ d.val } s
  by_cases h : CoreFailed bad 4
  · have hn : n = clearEntryBit (dkey 0x8000 0x0E) d.val { s with start := { s.start with cores := s.start.cores ||| 2 ^ d.val } } :=
      if_pos ((coreFailed_iff bad 4).2 h)
    rw [hn]
    exact ⟨rfl, fun _ => bit_clearEntry _ _ _ (by omega), fun h' => absurd h h', (hs1.mono (by decide)).step (setDict_only _ _ _) (by decide)⟩
  · have hn : n = { s with start := { s.start with cores := s.start.cores ||| 2 ^ d.val } } :=
      if_neg fun h' => h ((coreFailed_iff bad 4).1 h')
    rw [hn]
    exact ⟨rfl, fun h' => absurd h' h, fun _ => rfl, hs1.mono (by decide)⟩

/-- A die without four cores that work: its check is not complete, and the stage fault's code is open (R434). -/
def coresLacking (d c cores : Nat) (s : State) : State :=
  let (x, s1) := fresh (noSpare 9 d 0 c s)
  stageFault (1 + fld x 0 7) { s1 with start := { s1.start with cores := cores } }

theorem registrarCheck_notReady (d : DieId) (bad : List (Fin 5)) (h : ¬ (stageOf s = 2 ∧ s.start.cores.testBit d.val = false)) :
    exec (.registrarCheck d bad) s = .next s :=
  congrArg Host.Outcome.next (if_pos (by rw [inProof_iff, ← Bool.not_eq_false]; exact not_and_or.1 h))

section
variable {d : DieId} {bad : List (Fin 5)} (h : stageOf s = 2 ∧ s.start.cores.testBit d.val = false)
include h

theorem exec_registrarCheck : exec (.registrarCheck d bad) s = .next (
    match coresWorn bad with
    | [] => coresServed d.val bad s
    | [c] =>
      if !(bad.any fun b => decide (b.val = 4)) && decide (mget 0 s.start.spareCore d.val = 0) then
        recordSwap 9 d.val 0 c 4 (testCause s) 0 (mapCore d.val c (coresServed d.val bad s))
      else coresLacking d.val c s.start.cores (coresServed d.val bad s)
    | c :: _ => coresLacking d.val c s.start.cores (coresServed d.val bad s)) := by
  obtain ⟨hst, hcores⟩ := h
  exact congrArg Host.Outcome.next (if_neg (by simp [inProof_iff, hst, hcores]))

theorem registrarCheck_passes (hw : ∀ c, c < 4 → ¬ CoreFailed bad c) :
    ∃ n, exec (.registrarCheck d bad) s = .next n ∧ n.start = { s.start with cores := s.start.cores ||| 2 ^ d.val } ∧
      (CoreFailed bad 4 → bit (getDict n (dkey 0x8000 0x0E)) d.val = false) ∧ (¬ CoreFailed bad 4 → n.dict = s.dict) ∧ Only [.dict, .start] s n := by
  have hx := exec_registrarCheck (bad := bad) h
  rw [coresWorn_nil hw] at hx
  exact ⟨_, hx, coresServed_spec d bad s⟩

/-- The spare core serves for the one that failed (R433). -/
theorem registrarCheck_swaps {c : Nat} (hc : c < 4) (hf : CoreFailed bad c) (hone : ∀ k, k < 4 → CoreFailed bad k → k = c)
    (hspare : ¬ CoreFailed bad 4 ∧ mget 0 s.start.spareCore d.val = 0) :
    ∃ y n, exec (.registrarCheck d bad) s = .next n ∧
      SwapRecorded 9 d.val 0 c 4 (if s.start.selftest then 8 else 1) 0 y n ∧
      y.start = { s.start with cores := s.start.cores ||| 2 ^ d.val, spareCore := mset 0 s.start.spareCore d.val (c + 1) } ∧
      bit (getDict n (dkey 0x8000 0x0E)) d.val = false ∧ Only [.dict, .start] s y := by
  have hx := exec_registrarCheck (bad := bad) h
  rw [coresWorn_one hc hf hone] at hx
  dsimp only at hx
  rw [if_pos ((coreSpare_iff bad _).2 hspare)] at hx
  obtain ⟨hstart, _, _, hframe⟩ := coresServed_spec d bad s
  generalize coresServed d.val bad s = y at hx hstart hframe
  have hmap : (mapCore d.val c y).start = { y.start with spareCore := mset 0 y.start.spareCore d.val (c + 1) } := rfl
  have hbit : bit (getDict (mapCore d.val c y) (dkey 0x8000 0x0E)) d.val = false := bit_clearEntry y (dkey 0x8000 0x0E) d.val (by omega)
  refine ⟨mapCore d.val c y, _, hx, recordSwap_recorded _ _ _ _ _ _ _ _, ?_, ?_, hframe.trans (mapCore_only _ _ _)⟩
  · rw [hmap, hstart]
  · rw [recordSwap_getDict' _ _ _ _ _ _ _ _ _ (by decide)]
    exact hbit

/-- Where the spare core cannot serve, the check is not complete (R394, R434). -/
theorem registrarCheck_lacks {c : Nat} (hc : c < 4) (hf : CoreFailed bad c) (hmin : ∀ k, k < 4 → CoreFailed bad k → c ≤ k)
    (hno : ¬ ((∀ k, k < 4 → CoreFailed bad k → k = c) ∧ ¬ CoreFailed bad 4 ∧ mget 0 s.start.spareCore d.val = 0)) :
    ∃ y n code, exec (.registrarCheck d bad) s = .next n ∧ StageFaulted code y n ∧ 1 ≤ code ∧ code ≤ 128 ∧ y.start = s.start ∧
      (CoreFailed bad 4 → bit (getDict n (dkey 0x8000 0x0E)) d.val = false) ∧ (¬ CoreFailed bad 4 → y.dict = s.dict) ∧
      Only [.dict, .host, .logs, .wearS, .free] s y := by
  have hx := exec_registrarCheck (bad := bad) h
  obtain ⟨l, hl⟩ := coresWorn_cons hc hf hmin
  have hx' : exec (.registrarCheck d bad) s = .next (coresLacking d.val c s.start.cores (coresServed d.val bad s)) := by
    rw [hx, hl]
    cases l with
    | nil =>
      dsimp only
      refine congrArg Host.Outcome.next (if_neg fun hs => hno ⟨fun k hk hfk => ?_, (coreSpare_iff bad _).1 hs⟩)
      have hmem := (mem_coresWorn bad k).2 ⟨hk, hfk⟩
      rw [hl] at hmem
      exact List.mem_singleton.1 hmem
    | cons k l => rfl
  obtain ⟨hstart, hbit, hdict, hframe⟩ := coresServed_spec d bad s
  generalize coresServed d.val bad s = y at hx' hstart hbit hdict hframe
  have hz : Only [.host, .logs, .wearS] y (noSpare 9 d.val 0 c y) := (noSpare_kept _ _ _ _ (Kept.rfl' y) (by decide)).only
  have hzd := noSpare_dict 9 d.val 0 c y
  unfold coresLacking at hx'
  generalize noSpare 9 d.val 0 c y = z at hx' hz hzd
  have hw : Only (.start :: [.dict, .host, .logs, .wearS, .free]) s
      { (fresh z).2 with start := { (fresh z).2.start with cores := s.start.cores } } :=
    (((hframe.mono (by decide)).step hz (by decide)).step (fresh_only z) (by decide)).step (only_start _ _) (by decide)
  have hws : ({ (fresh z).2 with start := { (fresh z).2.start with cores := s.start.cores } } : State).start = s.start := by
    change { z.start with cores := s.start.cores } = s.start
    rw [hz.start (by decide), hstart]
  have hlt := fld_lt' (Config.freeValue z.free) 0 7
  refine ⟨_, _, _, hx', stageFault_faulted _ _, by omega, by omega, hws, fun h4 => ?_, fun h4 => hzd.trans (hdict h4), hw.drop_start hws⟩
  rw [stageFault_getDict _ _ _ (by decide)]
  exact (congrArg (fun v => bit v d.val) (getDict_congr hzd _)).trans (hbit h4)


end

end

/-- Settles O58: the stacks, a die's array, a port, a die's cores. -/
theorem proofTasks : Obligations.ProofTasks := by
  unfold Obligations.ProofTasks
  intro s
  exact ⟨fun i => ⟨stackTraining_notReady i, stackTraining_runs i⟩,
    fun d m => ⟨arraySelfTest_notReady d m, arraySelfTest_runs d m⟩,
    fun p m => ⟨linkTraining_notReady p m, linkTraining_runs p m⟩,
    fun d bad => ⟨registrarCheck_notReady d bad, registrarCheck_passes, fun h c hc hf hone hs => registrarCheck_swaps h hc hf hone hs,
      fun h c hc hf hmin hno => registrarCheck_lacks h hc hf hmin hno⟩⟩

end Sys2Proof.Machine
end

section
/-! Drain lanes: a pair of drained rows is narrowed, written, and taken from its lane (R97, R136, R142, R144). -/

namespace Sys2Proof.Machine

variable {t : TileId} {s : State} {p : DPair}

/-- The Hatch unit that a tile's drain lane belongs to (R136). -/
def laneEng (t : TileId) : Eng := .hatch (Fin.ofNat 4 (tileDie t)) (Fin.ofNat 4 (t.val % 16 / 4))

/-- The lane as the rows of its pair see it: the first pair of a drain latches the context and starts its fold and flags (R136, R142). -/
def LaneS.begun (l : LaneS) (p : DPair) : LaneS := if p.first then { l with l0 := l.c0, l1 := l.c1, fold := {}, flags := 0 } else l

/-- The draws' context of a pair (R136). -/
def LaneS.drawn (l : LaneS) (p : DPair) : Dctx := if p.first then ⟨l.c0, l.c1⟩ else ⟨l.l0, l.l1⟩

theorem LaneS.begun_dctx (l : LaneS) (p : DPair) : (⟨(l.begun p).l0, (l.begun p).l1⟩ : Dctx) = l.drawn p := by
  unfold begun drawn
  split <;> rfl

theorem LaneS.begun_emptied (l : LaneS) (p : DPair) (f : Fold) (fl : Nat) :
    { l.begun p with offer := none, fold := f, flags := fl } =
      { l with l0 := (l.drawn p).d0, l1 := (l.drawn p).d1, offer := none, fold := f, flags := fl } := by
  unfold begun drawn
  split <;> rfl

theorem LaneS.begun_fold (l : LaneS) (p : DPair) : (l.begun p).fold = if p.first then {} else l.fold := by
  unfold begun
  split <;> rfl

/-- The rows of a lane's pair written: the state, the fold, the flags, and whether a value was decided by the SAT row (R54, R136). -/
def pairRun (t : TileId) (p : DPair) (s : State) : State × Fold × Nat × Bool :=
  let l := (getLane s t).begun p
  p.rows.foldl (pairRow (tileDie t) (t.val % 16 / 4) (clientOn s (tileDie t)) p ((getLane s t).drawn p))
    (s, l.fold, l.flags ||| (if p.ufl then gUnder else 0), false)

/-- The rows of a lane's pair written and their saturation noted in the client's scope word (R26). -/
def pairNoted (t : TileId) (p : DPair) (s : State) : State :=
  if (pairRun t p s).2.2.2 then setScope (clientOn s (tileDie t)) scSaturated (pairRun t p s).1 else (pairRun t p s).1

theorem exec_hatchDrainPair_empty (h : (getLane s t).offer = none) : exec (.hatchDrainPair t) s = .next s := by
  change execHatchDrainPair t s = _
  unfold execHatchDrainPair
  dsimp only
  rw [h]

theorem exec_hatchDrainPair_held (h : (getLane s t).offer = some p)
    (hr : p.rows.all (fun r => rowsReady s p.name p.ent r.1 1 true) = false) :
    exec (.hatchDrainPair t) s = .next (charge (laneEng t) 0x0F s) := by
  change execHatchDrainPair t s = _
  unfold execHatchDrainPair
  dsimp only
  rw [h]
  exact congrArg Host.Outcome.next (if_pos (by simp [hr]))

theorem exec_hatchDrainPair_writes (h : (getLane s t).offer = some p)
    (hr : p.rows.all (fun r => rowsReady s p.name p.ent r.1 1 true) = true) :
    let run := pairRun t p s
    let l := (getLane s t).begun p
    exec (.hatchDrainPair t) s = .next (charge (laneEng t) 0x00
      (if p.last then pairEnd t (clientOn s (tileDie t)) p l run.2.1 run.2.2.1 (pairNoted t p s)
        else setLane t { l with offer := none, fold := run.2.1, flags := run.2.2.1 } (pairNoted t p s))) := by
  change execHatchDrainPair t s = _
  unfold execHatchDrainPair pairNoted pairRun
  rw [← LaneS.begun_dctx]
  unfold LaneS.begun
  dsimp only
  rw [h]
  dsimp only
  rw [if_neg (by simp [hr])]
  generalize List.foldl _ _ p.rows = run
  rfl

/-- The rows are written one after the other, their folds are added up, and no lane and no tile is touched (R136). -/
theorem pairNoted_spec (t : TileId) (s : State) (hp : p.ent.placed) :
    let x := (getLane s t).drawn p
    let out (row : Nat) (vals : List DVal) : RowOut := narrowAt s (clientOn s (tileDie t)) p.ent x row p.col vals
    WroteRuns p.name p.ent p.col out p.rows s (pairNoted t p s) ∧
    (pairRun t p s).2.1 = (p.rows.map fun r => (out r.1 r.2).fold).foldl Fold.add (if p.first then {} else (getLane s t).fold) ∧
    Only (.cat :: accessParts) s (pairNoted t p s) := by
  intro x out
  obtain ⟨hwrote, hfold, honly⟩ := pairRows_spec (tileDie t) (t.val % 16 / 4) (clientOn s (tileDie t)) p hp x s p.rows s
    ((getLane s t).begun p).fold (((getLane s t).begun p).flags ||| (if p.ufl then gUnder else 0)) false (ScopesOnly.rfl' s)
  have hscope : Only [.clients] (pairRun t p s).1 (pairNoted t p s) := Only.ite (setScope_only _ _ _) (Only.rfl' _)
  exact ⟨wroteRuns_to (hscope.mem (by decide)) hwrote, hfold.trans (by rw [LaneS.begun_fold]), honly.step hscope (by decide)⟩

/-- The last pair of a drain: the slot and the producer's flags take its statistics, its lane is emptied, and the drain that has
no entry left ends (R97, R144, R252). -/
theorem pairEnd_cases (t : TileId) (cl : Nat) (p : DPair) (l : LaneS) (f : Fold) (fl : Nat) (s : State) :
    ∃ z, Only [.regs, .clients, .host, .logs] s z ∧
      let y := setLane t { l with offer := none, fold := {}, flags := 0 } z
      pairEnd t cl p l f fl s = y ∨ ∃ j, pairEnd t cl p l f fl s = drainDone t j y := by
  refine ⟨_, (producerFlags_kept cl (tileDie t) p.ent.stat fl { codes := [], blocks := [], fold := f, wsat := false }
    (engFold_kept true (tileDie t) (t.val % 16 / 4) p.ent.stat f (Kept.rfl' s) (by decide)) (by decide)).only, ?_⟩
  unfold pairEnd
  dsimp only
  split
  · exact .inr ⟨_, rfl⟩
  · exact .inl rfl

theorem setLane_spec (t : TileId) (l : LaneS) (s : State) :
    let n := setLane t l s
    getLane n t = l ∧ (∀ v : TileId, v ≠ t → getLane n v = getLane s v ∧ getTile n v = getTile s v) ∧ Only [.units] s n :=
  ⟨(getLane_setLane t t l s).trans (if_pos rfl), fun v hv => ⟨(getLane_setLane t v l s).trans (if_neg hv), rfl⟩, setLane_only t l s⟩

/-- With the last pair its lane is empty, and no other tile and no byte of memory has changed (R97). -/
theorem pairEnd_spec (t : TileId) (cl : Nat) (p : DPair) (l : LaneS) (f : Fold) (fl : Nat) (s : State) :
    let n := pairEnd t cl p l f fl s
    getLane n t = { l with offer := none, fold := {}, flags := 0 } ∧
    (∀ v : TileId, v ≠ t → getLane n v = getLane s v ∧ getTile n v = getTile s v) ∧
    Only [.units, .tiles, .plates, .regs, .clients, .host, .logs] s n := by
  obtain ⟨z, hz, hend⟩ := pairEnd_cases t cl p l f fl s
  obtain ⟨hlane, hothers, hy⟩ := setLane_spec t { l with offer := none, fold := {}, flags := 0 } z
  dsimp only at hend ⊢
  generalize setLane t _ z = y at hend hlane hothers hy
  have hys : Only [.units, .regs, .clients, .host, .logs] s y := (hz.mono (by decide)).step hy (by decide)
  have hothers' : ∀ v : TileId, v ≠ t → getLane y v = getLane s v ∧ getTile y v = getTile s v := fun v hv =>
    ⟨(hothers v hv).1.trans (getLane_congr (hz.units (by decide)) v), getTile_congr (hys.tiles (by decide)) v⟩
  obtain hn | ⟨j, hn⟩ := hend
  · rw [hn]
    exact ⟨hlane, hothers', hys.mono (by decide)⟩
  · rw [hn]
    have hd := drainDone_only' t j y
    have hu := getLane_congr (hd.units (by decide))
    exact ⟨(hu t).trans hlane, fun v hv => ⟨(hu v).trans (hothers' v hv).1, (drainDone_tile t v hv j y).trans (hothers' v hv).2⟩,
      (hys.mono (by decide)).step hd (by decide)⟩

/-- The pair's rows written, its lane left, and the cycle charged. -/
theorem pairLeft_spec {name : Nat} {de : Entry} {col : Nat} {out : Nat → List DVal → RowOut} {rows : List (Nat × List DVal)}
    {y z : State} (e : Eng) (hwrote : WroteRuns name de col out rows s y) (hy : Only (.cat :: accessParts) s y)
    (hothers : ∀ v : TileId, v ≠ t → getLane z v = getLane y v ∧ getTile z v = getTile y v)
    (hz : Only [.units, .tiles, .plates, .regs, .clients, .host, .logs] y z) :
    let n := charge e 0x00 z
    WroteRuns name de col out rows s n ∧ (∀ v : TileId, v ≠ t → getLane n v = getLane s v ∧ getTile n v = getTile s v) ∧
    Only (.units :: .tiles :: .plates :: .cat :: accessParts) s n ∧ getLane n t = getLane z t ∧ n.tiles = z.tiles ∧ n.plates = z.plates := by
  intro n
  have hn : Only accountParts z n := charge_only e 0x00 z
  have hlane := getLane_congr (hn.units (by decide))
  have htile := getTile_congr (hn.tiles (by decide))
  refine ⟨wroteRuns_to ((hn.mem (by decide)).trans (hz.mem (by decide))) hwrote, fun v hv => ?_,
    ((hy.mono (by decide)).step hz (by decide)).step hn (by decide), hlane t, hn.tiles (by decide), hn.plates (by decide)⟩
  obtain ⟨hl, ht⟩ := hothers v hv
  exact ⟨((hlane v).trans hl).trans (getLane_congr (hy.units (by decide)) v), ((htile v).trans ht).trans (getTile_congr (hy.tiles (by decide)) v)⟩

/-- HATCH_DRAIN_PAIR with its slots ready (R136): the rows are written, then the lane is left for the drain's next pair, or its drain ends. -/
theorem hatchDrainPair_writes (h : (getLane s t).offer = some p)
    (hr : p.rows.all (fun r => rowsReady s p.name p.ent r.1 1 true) = true) (hp : p.ent.placed) :
    let lane := getLane s t
    let x := lane.drawn p
    let out (row : Nat) (vals : List DVal) : RowOut := narrowAt s (clientOn s (tileDie t)) p.ent x row p.col vals
    ∃ n, exec (.hatchDrainPair t) s = .next n ∧ WroteRuns p.name p.ent p.col out p.rows s n ∧
      (∀ v : TileId, v ≠ t → getLane n v = getLane s v ∧ getTile n v = getTile s v) ∧
      Only (.units :: .tiles :: .plates :: .cat :: accessParts) s n ∧
      (p.last = true → getLane n t = { lane with l0 := x.d0, l1 := x.d1, offer := none, fold := {}, flags := 0 }) ∧
      (p.last = false → n.tiles = s.tiles ∧ n.plates = s.plates ∧ ∃ fl, getLane n t = { lane with
        l0 := x.d0, l1 := x.d1, offer := none, flags := fl,
        fold := (p.rows.map fun r => (out r.1 r.2).fold).foldl Fold.add (if p.first then {} else lane.fold) }) := by
  intro lane x out
  have hx := exec_hatchDrainPair_writes h hr
  obtain ⟨hwrote, hfold, hy⟩ := pairNoted_spec t s hp
  dsimp only at hx
  rw [hfold] at hx
  generalize pairNoted t p s = y at hx hwrote hy
  cases hlast : p.last with
  | true =>
    rw [if_pos hlast] at hx
    obtain ⟨hlane, hothers, hz⟩ := pairEnd_spec t (clientOn s (tileDie t)) p (lane.begun p)
      ((p.rows.map fun r => (out r.1 r.2).fold).foldl Fold.add (if p.first then {} else lane.fold)) (pairRun t p s).2.2.1 y
    obtain ⟨hw, ho, honly, hl, -, -⟩ := pairLeft_spec (laneEng t) hwrote hy hothers hz
    exact ⟨_, hx, hw, ho, honly, fun _ => (hl.trans hlane).trans (lane.begun_emptied p {} 0), nofun⟩
  | false =>
    rw [if_neg (by simp [hlast]), LaneS.begun_emptied] at hx
    obtain ⟨hlane, hothers, hz⟩ := setLane_spec t { lane with
      l0 := x.d0, l1 := x.d1, offer := none, flags := (pairRun t p s).2.2.1,
      fold := (p.rows.map fun r => (out r.1 r.2).fold).foldl Fold.add (if p.first then {} else lane.fold) } y
    obtain ⟨hw, ho, honly, hl, ht, hpl⟩ := pairLeft_spec (laneEng t) hwrote hy hothers (hz.mono (by decide))
    exact ⟨_, hx, hw, ho, honly, nofun, fun _ => ⟨(ht.trans (hz.tiles (by decide))).trans (hy.tiles (by decide)),
      (hpl.trans (hz.plates (by decide))).trans (hy.plates (by decide)), _, hl.trans hlane⟩⟩

/-- Settles O38: a lane without a pair, a pair whose slots are not ready, a pair that is written. -/
theorem drainLanes : Obligations.DrainLanes := by
  unfold Obligations.DrainLanes
  intro t s d e cl lane
  exact ⟨exec_hatchDrainPair_empty, fun p => exec_hatchDrainPair_held, fun p => hatchDrainPair_writes⟩

end Sys2Proof.Machine
end

section
/-! Power gating of array units and of Folio banks, and bank replacement (R100, R101, R191 to R194). -/

namespace Sys2Proof.Machine

variable {t : TileId} {d : DieId} {b i : Nat} {s : State}

theorem unitGate_row (hold : (getArr s t).wakeHold = false) (hi : i < 64) (hn : (neededUnits (getArr s t)).1.getLsbD i = false)
    (hw : (getArr s t).wakingR.getLsbD i = false) :
    exec (.unitGate t false i) s = .next (setArr t { getArr s t with awakeR := (getArr s t).awakeR &&& ~~~(1#64 <<< i) } s) := by
  change execUnitGate t false i s = _
  unfold execUnitGate
  dsimp only
  rw [if_neg (by simp [hold]), if_neg (by decide), if_neg (by simpa [-BitVec.getLsbD_eq_getElem, hn, hw] using hi)]

theorem unitGate_column (hold : (getArr s t).wakeHold = false) (hi : i < 16) (hn : (neededUnits (getArr s t)).2.getLsbD i = false)
    (hw : (getArr s t).wakingC.getLsbD i = false) :
    exec (.unitGate t true i) s = .next (setArr t { getArr s t with awakeC := (getArr s t).awakeC &&& ~~~(1#16 <<< i) } s) := by
  change execUnitGate t true i s = _
  unfold execUnitGate
  dsimp only
  rw [if_neg (by simp [hold]), if_pos rfl, if_neg (by simpa [-BitVec.getLsbD_eq_getElem, hn, hw] using hi)]

/-- A unit whose wake ends moves from the waking units to those awake (R101). -/
theorem wakeBit_moves {w : Nat} (awake : BitVec w) {waking : BitVec w} (h : waking.getLsbD i = true) :
    (awake ||| (waking &&& 1#w <<< i)).getLsbD i = true ∧ (waking &&& ~~~(1#w <<< i)).getLsbD i = false := by
  have hi : i < w := BitVec.lt_of_getLsbD h
  have hbit : (1#w <<< i).getLsbD i = true := by
    rw [BitVec.getLsbD_shiftLeft]
    simp [hi, Nat.zero_lt_of_lt hi]
  rw [BitVec.getLsbD_or, BitVec.getLsbD_and, BitVec.getLsbD_and, BitVec.getLsbD_not, h, hbit]
  simp

theorem unitWakeDone_row (h : (getArr s t).wakingR.getLsbD i = true) : ∃ n, exec (.unitWakeDone t false i) s = .next n ∧
    (getArr n t).awakeR.getLsbD i = true ∧ (getArr n t).wakingR.getLsbD i = false := by
  refine ⟨_, rfl, ?_⟩
  simpa using wakeBit_moves (getArr s t).awakeR h

theorem unitWakeDone_column (h : (getArr s t).wakingC.getLsbD i = true) : ∃ n, exec (.unitWakeDone t true i) s = .next n ∧
    (getArr n t).awakeC.getLsbD i = true ∧ (getArr n t).wakingC.getLsbD i = false := by
  refine ⟨_, rfl, ?_⟩
  simpa using wakeBit_moves (getArr s t).awakeC h

/-- The banks once bank k has left the active state for p and waits no longer to be gated (R191, R192). -/
def bankLeft (k : Nat) (p : BankPower) (s : State) : State :=
  setBankPower k p { s with banks := { s.banks with gate := mset false s.banks.gate k false } }

/-- BANK_GATE (R191, R192): with no request and no write in flight the bank sleeps, or goes off and loses its lines. -/
theorem bankGate_gates (hp : bankPower s (bankKey d b) = .active) (hr : bankRequests s (bankKey d b) = 0)
    (hh : heldAt s (bankKey d b) true = 0) :
    let k := bankKey d b
    let off : Bool := decide (getDict s (dkey 0x3100 0x02) ≠ 0) && !bankCovered s k
    ∃ n, exec (.bankGate d b) s = .next n ∧ bankPower n k = (if off then .off else .sleep) ∧
      (∀ x, n.peek x = if off ∧ regionOf x = .folio (k / 512) ∧ bankOf x = k then (0, false) else s.peek x) ∧
      n = { s with banks := n.banks, mem := n.mem } := by
  intro k off
  have hx : exec (.bankGate d b) s = .next (if off then clearBank k (bankLeft k .off s) else bankLeft k .sleep s) := by
    change execBankGate d b s = _
    unfold execBankGate
    dsimp only
    rw [if_neg (by simp [hp, hr]), if_neg (by simp [hh])]
    rfl
  cases hoff : off with
  | true =>
    rw [if_pos hoff] at hx
    refine ⟨_, hx, bankPower_setBankPower _ _ _, fun x => ?_, rfl⟩
    rw [clearBank_peek, peek_congr (s := s) (t := bankLeft k .off s) rfl rfl]
    simp
  | false =>
    rw [if_neg (by simp [hoff])] at hx
    refine ⟨_, hx, bankPower_setBankPower _ _ _, fun x => ?_, rfl⟩
    rw [peek_congr (s := s) (t := bankLeft k .sleep s) rfl rfl]
    simp

/-- The banks with one request more that waits at bank k. -/
def bankRequested (k : Nat) (s : State) : State := { s with banks := { s.banks with waiting := mupd 0 s.banks.waiting k (· + 1) } }

theorem bankRequests_powering (k : Nat) (p : BankPower) (s : State) :
    bankRequests (setBankPower k p (bankRequested k s)) k = bankRequests s k + 1 := by
  change mget 0 (mupd 0 s.banks.waiting k (· + 1)) k + heldAt s k false = mget 0 s.banks.waiting k + heldAt s k false + 1
  rw [mget_mupd, if_pos rfl]
  omega

/-- BANK_WAKE (R192): a request at a sleeping or off bank starts its wake and waits. -/
theorem bankWake_starts (h : bankPower s (bankKey d b) = .sleep ∨ bankPower s (bankKey d b) = .off) :
    let k := bankKey d b
    ∃ n, exec (.bankWake d b) s = .next n ∧ bankPower n k = (if bankPower s k = .sleep then .waking else .powering) ∧
      bankRequests n k = bankRequests s k + 1 ∧ n = { s with banks := n.banks } := by
  intro k
  have hx : exec (.bankWake d b) s = .next (setBankPower k (if bankPower s k = .sleep then .waking else .powering) (bankRequested k s)) := by
    change execBankWake d b s = _
    unfold execBankWake
    dsimp only
    obtain h | h := h
    · rw [h]; rfl
    · rw [h]; rfl
  exact ⟨_, hx, bankPower_setBankPower _ _ _, bankRequests_powering _ _ _, rfl⟩

/-- The banks with no request that waits for bank k's wake. -/
def bankAnswered (k : Nat) (s : State) : State := { s with banks := { s.banks with waiting := mset 0 s.banks.waiting k 0 } }

/-- BANK_WAKE_DONE (R191): the bank is active and its requests are served; after power-on its lines read zero. -/
theorem bankWakeDone_wakes (h : bankPower s (bankKey d b) = .waking ∨ bankPower s (bankKey d b) = .powering) :
    let k := bankKey d b
    ∃ n, exec (.bankWakeDone d b) s = .next n ∧ bankPower n k = .active ∧ mget 0 n.banks.waiting k = 0 ∧
      (∀ x, n.peek x = if bankPower s k = .powering ∧ regionOf x = .folio (k / 512) ∧ bankOf x = k then (0, false) else s.peek x) ∧
      n = { s with banks := n.banks, mem := n.mem } := by
  intro k
  have hpeek : ∀ x, (setBankPower k .active (bankAnswered k s)).peek x = s.peek x := peek_congr rfl rfl
  obtain h | h := h
  · have hx : exec (.bankWakeDone d b) s = .next (setBankPower k .active (bankAnswered k s)) := by
      change execBankWakeDone d b s = _
      unfold execBankWakeDone
      dsimp only
      rw [h]
      rfl
    exact ⟨_, hx, bankPower_setBankPower _ _ _, mget_mset_same 0 s.banks.waiting k 0, fun x => by simpa [k, h] using hpeek x, rfl⟩
  · have hx : exec (.bankWakeDone d b) s = .next (clearBank k (setBankPower k .active (bankAnswered k s))) := by
      change execBankWakeDone d b s = _
      unfold execBankWakeDone
      dsimp only
      rw [h]
      rfl
    refine ⟨_, hx, bankPower_setBankPower _ _ _, mget_mset_same 0 s.banks.waiting k 0, fun x => ?_, rfl⟩
    rw [clearBank_peek, hpeek]
    simp [k, h]

/-- Logical bank k of die d once it is served by its die's next spare, with its wear count at 0 (R193, R194). -/
def spareServes (d : DieId) (k used : Nat) (s : State) : State :=
  { s with
    banks := { s.banks with map := mset (k % 512) s.banks.map k (512 + used), used := mset 0 s.banks.used d.val (used + 1) }
    wear := mset 0 s.wear k 0 }

/-- BANK_REPLACE (R194): the contents are copied, then the next spare serves, and the swap is recorded. -/
theorem bankReplace_replaces (hs : sparesUsed s d < 16) (hr : bankRequests s (bankKey d b) = 0) :
    let k := bankKey d b
    ∃ n, exec (.bankReplace d b) s = .next n ∧ physBank n k = 512 + sparesUsed s d ∧ sparesUsed n d = sparesUsed s d + 1 ∧
      (∀ j, j ≠ k → physBank n j = physBank s j) ∧ mget 0 n.wear k = 0 ∧ ∀ x, n.peek x = s.peek x := by
  intro k
  have hx : exec (.bankReplace d b) s = .next (doneSwap 4 d.val 0 (physBank s k) (512 + sparesUsed s d)
      (setDict (dkey 0x3100 (3 + d.val)) (BitVec.ofNat 64 (16 - (sparesUsed s d + 1)))
        (spareServes d k (sparesUsed s d) (recopyBank k s)))) := by
    change Host.Outcome.next (replaceBank d b s) = _
    unfold replaceBank
    exact congrArg Host.Outcome.next (if_neg (by simp [hr, Nat.not_le.2 hs]))
  have hcopy := (recopyBank_same k s).1
  have hbanks : (recopyBank k s).banks = s.banks := (recopyBank_kept k (Kept.rfl' s) (fun _ h => h)).only.banks (by decide)
  generalize recopyBank k s = y at hx hcopy hbanks
  have hspare := hcopy.trans (SameStore.of_stk (s := y) (t := spareServes d k (sparesUsed s d) y) rfl fun _ => rfl)
  have hz := setDict_only (dkey 0x3100 (3 + d.val)) (BitVec.ofNat 64 (16 - (sparesUsed s d + 1))) (spareServes d k (sparesUsed s d) y)
  generalize setDict _ _ (spareServes d k (sparesUsed s d) y) = z at hx hz
  have hn := doneSwap_only 4 d.val 0 (physBank s k) (512 + sparesUsed s d) z
  have hstore := (hspare.trans (same_of_only hz (by decide) (by decide))).trans (same_of_only hn (by decide) (by decide))
  generalize doneSwap 4 d.val 0 _ _ z = n at hx hn hstore
  have hnb : n.banks = (spareServes d k (sparesUsed s d) y).banks := (hn.banks (by decide)).trans (hz.banks (by decide))
  have hmap : n.banks.map = mset (k % 512) s.banks.map k (512 + sparesUsed s d) := by rw [hnb, spareServes, hbanks]
  have hused : n.banks.used = mset 0 s.banks.used d.val (sparesUsed s d + 1) := by rw [hnb, spareServes, hbanks]
  refine ⟨n, hx, ?_, ?_, fun j hj => ?_, ?_, hstore.peekByte⟩
  · unfold physBank
    rw [hmap, mget_mset_same]
  · change mget 0 n.banks.used d.val = _
    rw [hused, mget_mset_same]
  · unfold physBank
    rw [hmap, mget_mset_ne _ _ _ _ hj]
  · rw [hn.wear (by decide), hz.wear (by decide)]
    exact mget_mset_same 0 y.wear k 0

/-- Settles O23: the units of an array, a bank's gate, its wake, its replacement. -/
theorem powerGating : Obligations.PowerGating := by
  unfold Obligations.PowerGating
  exact ⟨fun t i s hold => ⟨unitGate_row hold, unitGate_column hold⟩, fun t i s => ⟨unitWakeDone_row, unitWakeDone_column⟩,
    fun d b s => bankGate_gates, fun d b s => ⟨bankWake_starts, bankWakeDone_wakes⟩, fun d b s => bankReplace_replaces⟩

end Sys2Proof.Machine
end

section
/-! Vector instructions of one shape each: FP32, integers, moves, lanes and masks (R115 to R119). -/

namespace Sys2Proof.Machine

/-- Settles O7: each instruction by its shape: one, two or three source registers, or a register and IMM. -/
theorem vectorFloat : Obligations.VectorFloat := by
  unfold Obligations.VectorFloat
  intro t w u s s0 v a b c fin runs one two three imm
  have one' : ∀ {i o} (f : Lane → Lane), exec i s = runFp1 o t w u s f → one i o f := fun f hx h => exec_wroteFp h hx
  have two' : ∀ {i o} (f : Lane → Lane → Lane), exec i s = runFp2 o t w u s f → two i o f :=
    fun f hx h => exec_wroteFp h hx
  have three' : ∀ {i o} (f : Lane → Lane → Lane → Lane), exec i s = runFp3 o t w u s f → three i o f :=
    fun f hx h => exec_wroteFp h hx
  have imm' : ∀ {i o} (f : Lane → Lane), exec i s = runFp o t w u s (fun v l => f (srcA v w l))
      (fun v l => finA w v l && !nonFinite32 (iImm w)) → imm i o f := fun f hx h => exec_wroteFp h hx
  exact ⟨two' fadd rfl, two' fsub rfl, two' fmul rfl, three' ffma rfl, three' ffms rfl, three' ffnma rfl, two' fmin rfl,
    two' fmax rfl, one' (· &&& 0x7FFFFFFF#32) rfl, one' (· ^^^ 0x80000000#32) rfl, imm' (fadd · (iImm w)) rfl,
    imm' (fmul · (iImm w)) rfl, fun h => exec_wroteFp (f := fun v l => ffma (srcA v w l) (iImm w) (srcB v w l))
      (fin := fun v l => finAB w v l && !nonFinite32 (iImm w)) h rfl, two' fdiv rfl, one' fsqrt rfl, one' frsqrt rfl,
    one' (fdiv one32) rfl, one' fexp rfl, one' fexp2 rfl, one' flog rfl, one' flog2 rfl, one' ftanh rfl, one' fsigm rfl,
    one' ferf rfl, one' fsin rfl, one' fcos rfl⟩

/-- Settles O8: NOP, then each instruction by its shape: two source registers, or a lane's result from the registers. -/
theorem vectorInteger : Obligations.VectorInteger := by
  unfold Obligations.VectorInteger
  intro t w u s s0 v va a b at' runs
  have lanes : ∀ {i o} (f : VecS → Fin 512 → Lane), exec i s = runLane o t w u s (fun v => writeV w (f v) v) →
      runs i o (f v) := fun f hx h => exec_wroteV h hx
  have ints : ∀ {i o} (f : Lane → Lane → Lane), exec i s = runInt2 o t w u s f → runs i o (fun l => f (a l) (b l)) :=
    fun f hx h => exec_wroteV h hx
  exact ⟨fun h => runLane_step h fun _ => rfl, lanes (fun v => srcA v w) rfl, lanes (fun _ _ => iImm w) rfl,
    lanes (fun _ l => iImm w + BitVec.ofNat 32 l.val) rfl,
    lanes (fun v l => if (getM v (iVc w % 8)).getLsbD l.val then srcA v w l else srcB v w l) rfl,
    ints (· + ·) rfl, ints (· - ·) rfl, ints (· * ·) rfl, ints (· &&& ·) rfl, ints (· ||| ·) rfl, ints (· ^^^ ·) rfl,
    ints (fun a b => a <<< (b.toNat % 32)) rfl,
    ints (fun a b => if iSub w % 2 = 1 then a.sshiftRight (b.toNat % 32) else a >>> (b.toNat % 32)) rfl,
    lanes (fun v l => srcA v w l + iImm w) rfl, lanes (fun v l => cvtIF (srcA v w l)) rfl,
    lanes (fun v l => cvtFI (srcA v w l)) rfl, lanes (fun v l => laneAt (getV v (iVa w)) ((srcB v w l).toNat % 512)) rfl,
    lanes (fun v l => laneAt (getV v (iVa w)) ((l.val + (iImm w).toNat) % 512)) rfl,
    lanes (fun v _ => laneAt (getV v (iVa w)) ((iImm w).toNat % 512)) rfl⟩

/-- An instruction that writes a mask register: bit l is f's, whatever the mask is made from. -/
theorem exec_wroteM {i : Instr} {o : Nat} {t : TileId} {w : Word} {u : List Upset} {s : State} {x : VecS → Mask}
    {f : Nat → Bool} (h : s.NextInstr t w o) (hx : exec i s = runLane o t w u s fun v => writeM w (x v) v)
    (hf : ∀ l, l < 512 → (x (getVec (s.operands t w u) t)).getLsbD l = f l) :
    ∃ n v', exec i s = .next n ∧ VecStep (s.operands t w u) n t v' ∧ WroteM w f (getVec (s.operands t w u) t) v' := by
  obtain ⟨n, hn, hs⟩ := runLane_step (f := fun v => writeM w (x v) v) h fun v => writeM_block _ _ _
  exact ⟨n, _, hx.trans hn, hs, writeM_wrote hf⟩

theorem maskOf_bit (f : Nat → Bool) {l : Nat} (hl : l < 512) : (maskOf f).getLsbD l = f l := by
  rw [maskOf_getLsbD, decide_eq_true hl, Bool.true_and]

/-- The mask that MOP forms from two masks, by its SUB. -/
def mopMask (sub : Nat) (a b : Mask) : Mask :=
  if sub = 0 then a &&& b else if sub = 1 then a ||| b else if sub = 2 then a ^^^ b else a &&& ~~~b

theorem exec_mop (t : TileId) (w : Word) (u : List Upset) (s : State) : exec (.mop t w u) s =
    runLane 0x42 t w u s fun v => writeM w (mopMask (iSub w) (getM v (iVa w % 8)) (getM v (iVb w % 8))) v := rfl

/-- Settles O9: comparisons and the lane range set each bit by a test; MOP works bit by bit. -/
theorem vectorMasks : Obligations.VectorMasks := by
  unfold Obligations.VectorMasks
  intro t w u s s0 v a b ma mb runs
  have tests : ∀ {i o} (f : VecS → Nat → Bool), exec i s = runLane o t w u s (fun v => writeM w (maskOf (f v)) v) →
      runs i o (f v) := fun f hx h => exec_wroteM h hx fun l => maskOf_bit _
  refine ⟨tests (fun v l => fcmp (iSub w) (laneAt (getV v (iVa w)) l) (laneAt (getV v (iVb w)) l)) rfl,
    tests (fun v l => icmp (iSub w) (laneAt (getV v (iVa w)) l) (laneAt (getV v (iVb w)) l)) rfl,
    fun hsub h => exec_wroteM h (exec_mop t w u s) fun l hl => ?_, ?_⟩
  · change (mopMask (iSub w) ma mb).getLsbD l = _
    generalize iSub w = k at hsub
    match k, hsub with
    | 0, _ => exact BitVec.getLsbD_and
    | 1, _ => exact BitVec.getLsbD_or
    | 2, _ => exact BitVec.getLsbD_xor
    | 3, _ => simp [mopMask, hl]
  · simp only [Bool.decide_and]
    exact tests (fun _ l => decide (fld (iImm w) 0 10 ≤ l) && decide (l < fld (iImm w) 16 10)) rfl

end Sys2Proof.Machine
end

section
/-! Random draws and the draw context (R130 to R132, R134). -/

namespace Sys2Proof.Machine

theorem afterDraw_getReg_count (t : TileId) (s : State) :
    getReg (afterDraw t s) (vecBlk t 0x020) = stickyAdd 64 (getReg s (vecBlk t 0x020)) 1 := by
  have h : vecBlk t 0x020 = vecBlk t 0 + 0x020 := by simp only [vecBlk, tileBlk]
  simp only [afterDraw]
  split
  · rw [getReg_congr (post_regs _ _ _ _), setBit_getReg, if_neg (by omega), bump_getReg, ← h, if_pos rfl]
    rfl
  · rw [bump_getReg, ← h, if_pos rfl]
    rfl

theorem afterDraw_getReg_status (t : TileId) (s : State) : getReg (afterDraw t s) (vecBlk t 0x000) =
    getReg s (vecBlk t 0x000) ||| (if (getVec s t).ctx.d = 16383 then 4 else 0) := by
  simp only [afterDraw]
  split
  · rw [getReg_congr (post_regs _ _ _ _), setBit_getReg, if_pos rfl, bump_getReg, if_neg (by omega)]
    rfl
  · rw [bump_getReg, if_neg (by omega)]
    exact BitVec.or_zero.symm

theorem setV_ctx (v : VecS) (r : Nat) (x : VReg) : (setV v r x).ctx = v.ctx := rfl

theorem writeV_ctx (w : Word) (f : Fin 512 → Lane) (v : VecS) : (writeV w f v).ctx = v.ctx := by
  unfold writeV; rw [setV_ctx]

theorem writeM_ctx (w : Word) (x : Mask) (v : VecS) : (writeM w x v).ctx = v.ctx := rfl

/-- The engine once a drawing instruction has drawn: its draw number has moved on (R131). -/
def VecS.drawn (v : VecS) : VecS := { v with ctx := { v.ctx with d := (v.ctx.d + 1) % 16384 } }

/-- From s to n an instruction of tile t has drawn: it is counted, and DRAW_WRAP is set where its draw number wraps (R131,
R134). -/
def Drew (t : TileId) (s n : State) : Prop :=
  getReg n (vecBlk t 0x020) = stickyAdd 64 (getReg s (vecBlk t 0x020)) 1 ∧
  getReg n (vecBlk t 0x000) = getReg s (vecBlk t 0x000) ||| (if (getVec s t).ctx.d = 16383 then 4 else 0)

section
variable {t : TileId} {w : Word} {s : State} {v v' : VecS}

/-- An instruction that leaves the engine as v', and then draws. -/
theorem draw_step (hb : v'.block = (getVec s t).block) (hc : v'.ctx = (getVec s t).ctx) :
    let n := charge (.vector t) 0x00 (retire t (afterDraw t (setVec t v' s)))
    VecStep s n t v'.drawn ∧ Drew t s n := by
  intro n
  have hv : getVec (setVec t v' s) t = v' := (getVec_setVec t t v').trans (if_pos rfl)
  refine ⟨retire_step ?_ (fun y hy => ?_) hb ?_ (fun a ha => ?_) (afterDraw_frame _ _), ?_, ?_⟩
  · rw [afterDraw_tile, hv]
    simp [setVec, VecS.drawn]
  · rw [afterDraw_other hy, setVec, getTile_setTile, if_neg hy]
  · exact afterDraw_getReg _ _ _ (by simp only [vecBlk, tileBlk]; omega) (by simp only [vecBlk, tileBlk]; omega)
  · exact afterDraw_getReg _ _ _ (by rintro rfl; exact ha (by simp [vecRegs])) (by rintro rfl; exact ha (by simp [vecRegs]))
  · rw [retire_getReg, afterDraw_getReg_count]
    · rfl
    · simp only [vecBlk, stallBlk, pltBlk, tileBlk]; omega
    · simp only [vecBlk, tileBlk]; omega
  · rw [retire_getReg, afterDraw_getReg_status, hv, hc]
    · rfl
    · simp only [vecBlk, stallBlk, pltBlk, tileBlk]; omega
    · simp only [vecBlk, tileBlk]; omega

theorem WroteV.drawn {f : Fin 512 → Lane} (h : WroteV w f v v') : WroteV w f v.drawn v'.drawn := by
  obtain ⟨hd, ho, hf⟩ := h
  exact ⟨hd, ho, congrArg VecS.drawn hf⟩

theorem WroteM.drawn {f : Nat → Bool} (h : WroteM w f v v') : WroteM w f v.drawn v'.drawn := by
  obtain ⟨hd, ho, hf⟩ := h
  exact ⟨hd, ho, congrArg VecS.drawn hf⟩

variable {i : Instr} {o : Nat} {u : List Upset} (h : s.NextInstr t w o)
include h

/-- A drawing instruction that writes a vector register with lanes formed from the draws. -/
theorem exec_draws {f : State → Fin 512 → Lane}
    (hx : exec i s = runInstr o t w u s fun s => .done (afterDraw t (setVec t (writeV w (f s) (getVec s t)) s))) :
    let s0 := s.operands t w u
    ∃ n v', exec i s = .next n ∧ VecStep s0 n t v' ∧ Drew t s0 n ∧ WroteV w (f s0) (getVec s0 t).drawn v' := by
  obtain ⟨hs, hd⟩ := draw_step (writeV_block w (f (s.operands t w u)) (getVec (s.operands t w u) t)) (writeV_ctx _ _ _)
  exact ⟨_, _, hx.trans (runInstr_done h rfl), hs, hd, (writeV_wrote _ _ _).drawn⟩

/-- A drawing instruction that writes a mask register with bits formed from the draws. -/
theorem exec_drawsM {x : State → Mask} {f : Nat → Bool}
    (hx : exec i s = runInstr o t w u s fun s => .done (afterDraw t (setVec t (writeM w (x s) (getVec s t)) s)))
    (hf : ∀ l, l < 512 → (x (s.operands t w u)).getLsbD l = f l) :
    let s0 := s.operands t w u
    ∃ n v', exec i s = .next n ∧ VecStep s0 n t v' ∧ Drew t s0 n ∧ WroteM w f (getVec s0 t).drawn v' := by
  obtain ⟨hs, hd⟩ := draw_step (writeM_block w (x (s.operands t w u)) (getVec (s.operands t w u) t)) (writeM_ctx _ _ _)
  exact ⟨_, _, hx.trans (runInstr_done h rfl), hs, hd, (writeM_wrote hf).drawn⟩

end

/-- The draws of the lanes, by the offsets in the register that VA names. -/
def lanesDrawn (t : TileId) (w : Word) (s : State) : Fin 512 → Nat := drawLanes s t (getV (getVec s t) (iVa w))

theorem exec_vrand (t : TileId) (w : Word) (u : List Upset) (s : State) : exec (.vrand t w u) s =
    runInstr 0x80 t w u s fun s =>
      .done (afterDraw t (setVec t (writeV w (fun l => BitVec.ofNat 32 (lanesDrawn t w s l)) (getVec s t)) s)) := rfl

theorem exec_vruni (t : TileId) (w : Word) (u : List Upset) (s : State) : exec (.vruni t w u) s =
    runInstr 0x81 t w u s fun s => .done (afterDraw t (setVec t
      (writeV w (fun l => toF32 false (((lanesDrawn t w s l / 256 : Nat) : Rat) * pow2 (-24))) (getVec s t)) s)) := rfl

theorem exec_vrkeep (t : TileId) (w : Word) (u : List Upset) (s : State) : exec (.vrkeep t w u) s =
    runInstr 0x82 t w u s fun s => .done (afterDraw t (setVec t
      (writeM w (maskOf fun l => decide ((iImm w).toNat ≤ lanesDrawn t w s (Fin.ofNat 512 l))) (getVec s t)) s)) := rfl

/-- The draw context that RCTX leaves: field k set from x, and the draw number 0 (R130, R131). -/
def ctxSet (k x : Nat) (c : DrawCtx) : DrawCtx :=
  match k with
  | 0 => { c with d := 0, mb := x % 2 ^ 12 }
  | 1 => { c with d := 0, layer := x % 2 ^ 16 }
  | 2 => { c with d := 0, tensor := x % 2 ^ 8 }
  | 3 => { c with d := 0, base := c.base / 2 ^ 32 * 2 ^ 32 + x }
  | _ => { c with d := 0, base := c.base % 2 ^ 32 + x % 2 ^ 16 * 2 ^ 32 }

theorem ctxSet_eq {k : Nat} (hk : k < 5) (x : Nat) (v : DrawCtx) :
    let c := { v with d := 0 }
    ctxSet k x v =
      if k = 0 then { c with mb := x % 2 ^ 12 }
      else if k = 1 then { c with layer := x % 2 ^ 16 }
      else if k = 2 then { c with tensor := x % 2 ^ 8 }
      else if k = 3 then { c with base := c.base / 2 ^ 32 * 2 ^ 32 + x }
      else { c with base := c.base % 2 ^ 32 + x % 2 ^ 16 * 2 ^ 32 } := by
  match k, hk with
  | 0, _ | 1, _ | 2, _ | 3, _ | 4, _ => rfl

theorem rctx_sets {t : TileId} {w : Word} {u : List Upset} {s : State} (h : s.NextInstr t w 0x88) :
    let v := getVec (s.operands t w u) t
    ∃ n, exec (.rctx t w u) s = .next n ∧
      VecStep (s.operands t w u) n t { v with ctx := ctxSet (iVd w % 8) (iImm w).toNat v.ctx } :=
  runLane_step (f := fun v => { v with ctx := ctxSet (iVd w % 8) (iImm w).toNat v.ctx }) h fun _ => rfl

/-- Settles O12: the three draws by what they write, and RCTX field by field. -/
theorem vectorDraws : Obligations.VectorDraws := by
  unfold Obligations.VectorDraws
  intro t w u s s0 v draw next c x set drew
  refine ⟨fun h => exec_draws h (exec_vrand t w u s), fun h => exec_draws h (exec_vruni t w u s),
    fun h => exec_drawsM h (exec_vrkeep t w u s) fun l => maskOf_bit _, fun h hk => ?_⟩
  rw [show set = ctxSet (iVd w % 8) x v.ctx from (ctxSet_eq hk x v.ctx).symm]
  exact rctx_sets h

end Sys2Proof.Machine
end

section
/-! Pops, receives and pushes of the vector engine (R121 to R129), and what moving past an instruction leaves (R112). -/

namespace Sys2Proof.Machine

/-! ### Pops and receives: the engine's registers alone change, and counts -/

theorem noteExactSat_false (t : TileId) (s : State) : noteExactSat t false s = s := rfl

theorem scopedSat_false (t : TileId) (s : State) : scopedSat t false s = s := rfl

section
variable {t : TileId} {v' : VecS} {s : State} (hb : v'.block = (getVec s t).block)
include hb

/-- An instruction that leaves the engine as v'. -/
theorem setVec_step : VecStep s (charge (.vector t) 0x00 (retire t (setVec t v' s))) t v' :=
  retire_step (by simp [setVec]) (fun y hy => by simp [setVec, hy]) hb rfl (fun _ _ => rfl) rfl

/-- An instruction that leaves the engine as v' and counts k saturations and m non-finite lanes. -/
theorem counted_step (k m : Nat) :
    VecStep s (charge (.vector t) 0x00 (retire t (countNf t m (countVSat t k (setVec t v' s))))) t v' := by
  have h := narrowed_step hb k m false
  rwa [narrowed, noteExactSat_false, scopedSat_false] at h

end

/-- The state once a stream's elements have been taken: the stream has moved on, their bytes and out-of-window scales are
noted (R42, R217, R252). -/
def popped (t : TileId) (d : Desc) (scales : List Nat) (x : StreamS) (bytes : Nat) (s : State) : State :=
  consumerViol d.hdie d.ent.stat (countOut d.fmt scales) (delivered t x bytes s)

section
variable {t : TileId} {w : Word} {u : List Upset} {s : State} {codes scales : List Nat} {d : Desc} {x : StreamS} {bytes : Nat}

theorem popped_tile (t : TileId) (d : Desc) (scales : List Nat) (x : StreamS) (bytes : Nat) (s : State) :
    getTile (popped t d scales x bytes s) t = { getTile s t with str := x } := by
  rw [popped, getTile_congr ((consumerViol_only _ _ _ _).tiles (by decide)), delivered_tile, if_pos rfl]

theorem popped_getVec : getVec (popped t d scales x bytes s) t = getVec s t := by
  rw [getVec, popped_tile]
  rfl

theorem VecStep.getStr_popped {n : State} {v : VecS} (h : VecStep (popped t d scales x bytes s) n t v) : getStr n t = x := by
  rw [getStr, h.tile, popped_tile]

theorem popDone_eq (t : TileId) (w : Word) (codes scales : List Nat) (d : Desc) (x : StreamS) (bytes : Nat) (s : State) :
    let s1 := popped t d scales x bytes s
    ∃ k m, popDone t w codes scales d x bytes s =
      countNf t m (countVSat t k (setVec t (writeV w (fun l => (popLane codes scales d l.val).1) (getVec s1 t)) s1)) := by
  simp only [popDone, ofFn_get]
  exact ⟨_, _, rfl⟩

theorem exec_vpop (t : TileId) (w : Word) (u : List Upset) (s : State) : exec (.vpop t w u) s =
    runInstr 0x60 t w u s fun s =>
      match takeLanes (getStr s t) (iVa w) with
      | .ok codes scales d x bytes => .done (popDone t w codes scales d x bytes s)
      | k => popFail t s k := rfl

theorem exec_xpopn (t : TileId) (w : Word) (u : List Upset) (s : State) : exec (.xpopn t w u) s =
    runInstr 0x62 t w u s fun s =>
      match takeLanes (getStr s t) (iVa w) with
      | .ok codes scales d x bytes => .done (xpopDone t w codes scales d x bytes s)
      | k => popFail t s k := rfl

section
variable (hk : takeLanes (getStr (s.operands t w u) t) (iVa w) = .ok codes scales d x bytes)
include hk

theorem vpop_writes (h : s.NextInstr t w 0x60) :
    let s0 := s.operands t w u
    ∃ n v', exec (.vpop t w u) s = .next n ∧ VecStep (popped t d scales x bytes s0) n t v' ∧
      WroteV w (fun l => (popLane codes scales d l.val).1) (getVec s0 t) v' ∧ getStr n t = x := by
  intro s0
  obtain ⟨k, m, hp⟩ := popDone_eq t w codes scales d x bytes s0
  have hs := counted_step (s := popped t d scales x bytes s0)
    (writeV_block w (fun l => (popLane codes scales d l.val).1) (getVec (popped t d scales x bytes s0) t)) k m
  rw [← hp] at hs
  refine ⟨_, _, (exec_vpop t w u s).trans (runInstr_done h ?_), hs, ?_, hs.getStr_popped⟩
  · rw [hk]
  · rw [popped_getVec]
    exact writeV_wrote _ _ _

theorem xpopn_adds (h : s.NextInstr t w 0x62) :
    let s0 := s.operands t w u
    ∃ n v', exec (.xpopn t w u) s = .next n ∧ VecStep (popped t d scales x bytes s0) n t v' ∧
      WroteX w (fun l r => r.add (xpopLane codes scales d l.val)) (getVec s0 t) v' ∧ getStr n t = x := by
  intro s0
  have hs := setVec_step (s := popped t d scales x bytes s0)
    (writeX_block w (fun l r => r.add (xpopLane codes scales d l.val)) (getVec (popped t d scales x bytes s0) t))
  refine ⟨_, _, (exec_xpopn t w u s).trans (runInstr_done h ?_), hs, ?_, hs.getStr_popped⟩
  · rw [hk]
    rfl
  · rw [popped_getVec]
    exact writeX_wrote _ _ _

end

theorem exec_vrecv (t : TileId) (w : Word) (u : List Upset) (s : State) : exec (.vrecv t w u) s =
    runInstr 0x68 t w u s fun s =>
      match (getVec s t).queue with
      | [] => .wait 0x0A
      | q :: rest =>
        if q.exact then .done (skipInstr t s)
        else .done (setVec t (writeV w (fun l => nth 0 q.f l.val) { getVec s t with queue := rest }) s) := rfl

theorem exec_xrecv (t : TileId) (w : Word) (u : List Upset) (s : State) : exec (.xrecv t w u) s =
    runInstr 0x69 t w u s fun s =>
      match (getVec s t).queue with
      | [] => .wait 0x0A
      | q :: rest =>
        if !q.exact then .done (skipInstr t s)
        else .done (setVec t (writeX w (fun l r => r.addAcc (nth {} q.x l.val)) { getVec s t with queue := rest }) s) := rfl

section
variable {q : QSlot} {rest : List QSlot} (hq : (getVec (s.operands t w u) t).queue = q :: rest)
include hq

theorem vrecv_writes (h : s.NextInstr t w 0x68) (he : q.exact = false) :
    let s0 := s.operands t w u
    ∃ n v', exec (.vrecv t w u) s = .next n ∧ VecStep s0 n t v' ∧
      WroteV w (fun l => nth 0 q.f l.val) { getVec s0 t with queue := rest } v' := by
  refine ⟨_, _, (exec_vrecv t w u s).trans (runInstr_done h ?_), setVec_step ?_, writeV_wrote _ _ _⟩
  · rw [hq]
    exact if_neg (by rw [he]; exact Bool.false_ne_true)
  · exact writeV_block _ _ _

theorem xrecv_adds (h : s.NextInstr t w 0x69) (he : q.exact = true) :
    let s0 := s.operands t w u
    ∃ n v', exec (.xrecv t w u) s = .next n ∧ VecStep s0 n t v' ∧
      WroteX w (fun l r => r.addAcc (nth {} q.x l.val)) { getVec s0 t with queue := rest } v' := by
  refine ⟨_, _, (exec_xrecv t w u s).trans (runInstr_done h ?_), setVec_step ?_, writeX_wrote _ _ _⟩
  · rw [hq]
    exact if_neg (by rw [he]; exact Bool.false_ne_true)
  · exact writeX_block _ _ _

end
end

/-! ### Pushes -/

theorem retired_tile (t y : TileId) (x : State) : getTile (charge (.vector t) 0x00 (retire t x)) y =
    if y = t then { getTile x t with vec := { getVec x t with block := (getVec x t).block.map advancePc } } else getTile x y := by
  rw [getTile_congr (charge_tiles _ _ _), retire, getTile_congr (bump_tiles _ _ _ _), setVec, getTile_setTile]

theorem retired_only (t : TileId) (x : State) : Only (.tiles :: accountParts) x (charge (.vector t) 0x00 (retire t x)) :=
  ((retire_kept t (Kept.rfl' x) (by decide)).only).step (charge_only _ _ _) (by decide)

/-- A state that has changed in tiles, plates, clients, fabric and accounts alone. -/
theorem Only.eq_record {s n : State} (h : Only (.tiles :: .plates :: .clients :: .fabric :: accountParts) s n) :
    n = { s.accounts n with tiles := n.tiles, plates := n.plates, clients := n.clients, fabric := n.fabric } := by
  apply State.ext_fields
  case hregs | hdict | hsat | htiles | hplates | hclients | hfabric | hhost | hlogs | hledger => rfl
  all_goals simp [accountParts, h.mem, h.shadow, h.blobs, h.cat, h.banks, h.units, h.rot, h.arbs, h.start,
    h.wearS, h.can, h.cur, h.mail, h.wear, h.served, h.ports, h.tick, h.pending, h.free]

/-- The draw context once a push to a descriptor has drawn, which it does once where it rounds stochastically (R123, R131). -/
def pushCtx (d : Desc) (c : DrawCtx) : DrawCtx := if d.fmt.rnd then { c with d := (c.d + 1) % 16384 } else c

section
variable {t : TileId} {k : Nat} {offs : VReg} {vals : Fin 512 → DVal} {q : Bool} {d : Desc}
  {segs : List (Nat × Nat × Nat × RowRes)} {s : State}

theorem pushDone_tiles : (pushDone t k offs vals q d segs s).tiles =
    (let s1 := setStr t (putDesc (getStr s t) k q (pushAll d segs (pushOut s t offs vals d segs))) s
     if d.fmt.rnd then afterDraw t s1 else s1).tiles := by
  unfold pushDone
  dsimp only
  rw [producerFlags_frame]
  split
  · exact countVSat_tiles _ _ _
  · exact (bump_tiles _ _ _ _).trans (countVSat_tiles _ _ _)

theorem pushDone_tile : getTile (pushDone t k offs vals q d segs s) t = { getTile s t with
    str := putDesc (getStr s t) k q (pushAll d segs (pushOut s t offs vals d segs))
    vec := { getVec s t with ctx := pushCtx d (getVec s t).ctx } } := by
  rw [getTile_congr pushDone_tiles, pushCtx]
  dsimp only
  split
  · rw [afterDraw_tile, getVec_setStr, setStr, getTile_setTile, if_pos rfl]
  · rw [setStr, getTile_setTile, if_pos rfl]
    rfl

theorem pushDone_other {y : TileId} (h : y ≠ t) : getTile (pushDone t k offs vals q d segs s) y = getTile s y := by
  rw [getTile_congr pushDone_tiles]
  dsimp only
  split
  · rw [afterDraw_other h, setStr, getTile_setTile, if_neg h]
  · rw [setStr, getTile_setTile, if_neg h]

end

theorem notePushSat_only (t : TileId) (b : Bool) (s : State) : Only [.regs] s (notePushSat t b s) :=
  (notePushSat_kept t b (Kept.rfl' s) (by decide)).only

theorem pushValues_ok {t : TileId} {k : Nat} {q : Bool} {d : Desc} {segs : List (Nat × Nat × Nat × RowRes)} {s : State}
    (hp : planPush (getStr s t) k 512 = .ok q d segs) (offs : VReg) (vals : Fin 512 → DVal) :
    pushValues t k offs vals s = .done (pushDone t k offs vals q d segs s) := by
  unfold pushValues
  rw [hp]

/-- From s to n the engine of tile t has pushed lanes into its stream k, to the place planned for them, and is past the
instruction: the descriptor has grown by them, the draw number has moved on where it rounds stochastically, and beyond the
tile and the accounts scope words alone have changed (R123, R206). -/
def Pushed (t : TileId) (k : Nat) (offs : VReg) (vals : Fin 512 → DVal) (q : Bool) (d : Desc)
    (segs : List (Nat × Nat × Nat × RowRes)) (s n : State) : Prop :=
  let v := getVec s t
  getTile n t = { getTile s t with
    str := putDesc (getStr s t) k q (pushAll d segs (pushOut s t offs vals d segs))
    vec := { v with block := v.block.map advancePc, ctx := pushCtx d v.ctx } } ∧
  (∀ y : TileId, y ≠ t → getTile n y = getTile s y) ∧ n = { s.accounts n with tiles := n.tiles, clients := n.clients }

/-- A push that has its place, with EXACT_SAT noted as b says, and the move past it. -/
theorem push_pushed (t : TileId) (k : Nat) (offs : VReg) (vals : Fin 512 → DVal) (q : Bool) (d : Desc)
    (segs : List (Nat × Nat × Nat × RowRes)) (b : Bool) (s : State) :
    let x := notePushSat t b (pushDone t k offs vals q d segs s)
    Pushed t k offs vals q d segs s (charge (.vector t) 0x00 (retire t x)) := by
  intro x
  have hx := getTile_congr (notePushSat_tiles t b (pushDone t k offs vals q d segs s))
  have k1 := (pushDone_kept t k offs vals q d segs (Kept.rfl' s) (ks := .tiles :: .clients :: accountParts) (by decide)).only
  have ho := (k1.step (notePushSat_only t b _) (by decide)).step (retired_only t _) (by decide)
  refine ⟨?_, fun y hy => ?_, ?_⟩
  · rw [retired_tile, if_pos rfl, getVec, hx, pushDone_tile]
  · rw [retired_tile, if_neg hy, hx, pushDone_other hy]
  · have hr := (ho.mono (by decide)).eq_record
    rwa [ho.plates (by decide), ho.fabric (by decide)] at hr

/-- The lanes that VPUSH hands over: a lane outside the mask as +0 (R123). -/
def vpushLane (w : Word) (v : VecS) (l : Fin 512) : DVal :=
  if (laneMask v w).getLsbD l.val then DVal.ofF (f32 ((getV v (iVa w)).get l)) else .num false 0

/-- The lanes that XPUSH hands over (R124, R125). -/
def xpushLane (w : Word) (v : VecS) (l : Fin 512) : DVal :=
  if (laneMask v w).getLsbD l.val then ((getX v (iVa w % 8)).get l).value (f32 (iImm w)).toRat else .num false 0

/-- Whether the SAT row of R54 decides a lane that XPUSH hands over. -/
def xpushSat (w : Word) (v : VecS) : Bool := (List.finRange 512).any fun l => (xpushLane w v l).isSat

theorem exec_vpush (t : TileId) (w : Word) (u : List Upset) (s : State) : exec (.vpush t w u) s =
    runInstr 0x61 t w u s fun s =>
      pushValues t (iVb w) (getV (getVec s t) (iVc w)) (vpushLane w (getVec s t)) s := rfl

theorem exec_xpush (t : TileId) (w : Word) (u : List Upset) (s : State) : exec (.xpush t w u) s =
    runInstr 0x75 t w u s fun s =>
      match pushValues t (iVb w) (getV (getVec s t) (iVd w)) (xpushLane w (getVec s t)) s with
      | .done s1 => .done (notePushSat t (xpushSat w (getVec s t)) s1)
      | r => r := rfl

section
variable {t : TileId} {w : Word} {u : List Upset} {s : State} {q : Bool} {d : Desc} {segs : List (Nat × Nat × Nat × RowRes)}
  (hp : planPush (getStr (s.operands t w u) t) (iVb w) 512 = .ok q d segs)
include hp

theorem vpush_pushes (h : s.NextInstr t w 0x61) :
    let s0 := s.operands t w u
    let v := getVec s0 t
    ∃ n, exec (.vpush t w u) s = .next n ∧ Pushed t (iVb w) (getV v (iVc w)) (vpushLane w v) q d segs s0 n :=
  ⟨_, (exec_vpush t w u s).trans (runInstr_done h (pushValues_ok hp _ _)), push_pushed _ _ _ _ _ _ _ false _⟩

theorem xpush_pushes (h : s.NextInstr t w 0x75) :
    let s0 := s.operands t w u
    let v := getVec s0 t
    ∃ n, exec (.xpush t w u) s = .next n ∧ Pushed t (iVb w) (getV v (iVd w)) (xpushLane w v) q d segs s0 n := by
  intro s0 v
  refine ⟨_, (exec_xpush t w u s).trans (runInstr_done h ?_), push_pushed _ _ _ _ _ _ _ (xpushSat w v) _⟩
  rw [pushValues_ok hp]

end

/-- Settles O11: pops, pushes, receives. -/
theorem vectorStreams : Obligations.VectorStreams := by
  unfold Obligations.VectorStreams
  intro t w u s s0 v
  exact ⟨fun codes scales d x bytes hk => ⟨vpop_writes hk, xpopn_adds hk⟩, fun q d segs hp => ⟨vpush_pushes hp, xpush_pushes hp⟩,
    fun q rest hq => ⟨vrecv_writes hq, xrecv_adds hq⟩⟩

end Sys2Proof.Machine
end

section
/-! Vector blocks: their issue, REP, the binding of exact registers, their completion (R111 to R114, R126, R131). -/

namespace Sys2Proof.Machine

theorem getVec_congr {s n : State} (h : n.tiles = s.tiles) (t : TileId) : getVec n t = getVec s t :=
  congrArg Tile.vec (getTile_congr h t)

theorem setVec_tile (t y : TileId) (v : VecS) (s : State) :
    getTile (setVec t v s) y = if y = t then { getTile s t with vec := v } else getTile s y := getTile_setTile _ _ _ _

theorem setCtx_only (k : Nat) (x : Ctx) (s : State) : Only [.fabric] s (setCtx k x s) :=
  (setCtx_kept k x (Kept.rfl' s) (by decide)).only

theorem vblock_starts {t : TileId} {c : PCmd} {s : State} (hi : s.Issues (.vector t) c)
    (hb : (s.issuedCmd (.vector t) c).bad = false) :
    ∃ n, exec (.vblock t c) s = .next n ∧
      getTile n t = { getTile s t with vec := { getVec s t with
        block := some { id := s.plates.nextId, instrs := c.body.drop 1 }, ctx := { (getVec s t).ctx with d := 0 } } } ∧
      (∀ y : TileId, y ≠ t → getTile n y = getTile s y) ∧
      findFlight n s.plates.nextId = some (s.flight (.vector t) c) ∧
      n = { s.accounts n with tiles := n.tiles, plates := n.plates } := by
  obtain ⟨v, hv⟩ : ∃ v : VecS, v = { getVec s t with
    block := some { id := s.plates.nextId, instrs := c.body.drop 1 }, ctx := { (getVec s t).ctx with d := 0 } } := ⟨_, rfl⟩
  have hx : exec (.vblock t c) s = .next (charge (.vector t) 0x00 (setVec t v (s.issued (.vector t) c))) := by
    refine exec_issues hi rfl ((if_neg (hb ▸ Bool.false_ne_true)).trans ?_)
    dsimp only
    rw [getVec_congr issued_tiles, hv]
  have k1 := issued_only s (.vector t) c
  have k2 := setVec_only t v (s.issued (.vector t) c)
  have k3 := charge_only (.vector t) 0x00 (setVec t v (s.issued (.vector t) c))
  have ho := ((k1.mono (ks := .tiles :: .plates :: accountParts) (by decide)).step k2 (by decide)).step k3 (by decide)
  have htile := fun y => (getTile_congr (k3.tiles (by decide)) y).trans (setVec_tile t y v _)
  simp only [getTile_congr issued_tiles] at htile
  rw [← hv]
  refine ⟨_, hx, (htile t).trans (if_pos rfl), fun y hy => (htile y).trans (if_neg hy), ?_, ?_⟩
  · rw [findFlight_congr ((k3.plates (by decide)).trans (k2.plates (by decide))), issued_findFlight hi]
  · have hr := (ho.mono (by decide)).eq_record
    rwa [ho.clients (by decide), ho.fabric (by decide)] at hr

/-- A block at its REP, once it is at the first of the instructions that REP repeats (R114). -/
def BlockRun.repeats (w : Word) (b : BlockRun) : BlockRun :=
  { b with pc := b.pc + 1, rep := some { start := b.pc + 1, n := repN w, left := repK w } }

theorem exec_rep {t : TileId} {w : Word} {u : List Upset} {s : State} {b : BlockRun} (hb : (getVec s t).block = some b)
    (h : s.NextInstr t w 0xF0) :
    let s0 := s.operands t w u
    exec (.rep t w u) s = .next (charge (.vector t) 0x00 (bump (vecBlk t 0) 0x028 1
      (setVec t { getVec s0 t with block := some (b.repeats w) } s0))) := by
  obtain ⟨ho, b', hb', hw⟩ := h
  obtain rfl : b = b' := Option.some.inj (hb.symm.trans hb')
  change execRep t w u s = _
  simp only [execRep, hb, hw, ho, ne_eq, not_true_eq_false, or_self, if_false, State.operands, BlockRun.repeats]

/-- The engine of a tile as v, with an instruction counted and a busy cycle charged. -/
theorem setVec_counted (t : TileId) (v : VecS) (s : State) :
    let n := charge (.vector t) 0x00 (bump (vecBlk t 0) 0x028 1 (setVec t v s))
    getTile n t = { getTile s t with vec := v } ∧ (∀ y : TileId, y ≠ t → getTile n y = getTile s y) ∧
      n = { s.accounts n with tiles := n.tiles } := by
  have hacc := State.accounts_trans (bump_accounts (vecBlk t 0) 0x028 1 (setVec t v s)) (charge_accounts (.vector t) 0x00 _)
  have htile := fun y => (getTile_congr (State.eq_tiles hacc) y).trans (setVec_tile t y v s)
  exact ⟨(htile t).trans (if_pos rfl), fun y hy => (htile y).trans (if_neg hy), State.accounts_tiles hacc rfl⟩

theorem rep_starts {t : TileId} {w : Word} {u : List Upset} {s : State} {b : BlockRun} (hb : (getVec s t).block = some b)
    (h : s.NextInstr t w 0xF0) :
    let s0 := s.operands t w u
    ∃ n, exec (.rep t w u) s = .next n ∧
      getTile n t = { getTile s0 t with vec := { getVec s0 t with block := some (b.repeats w) } } ∧
      (∀ y : TileId, y ≠ t → getTile n y = getTile s0 y) ∧ n = { s0.accounts n with tiles := n.tiles } :=
  ⟨_, exec_rep hb h, setVec_counted _ _ _⟩

/-- XBIND of a context that is armed, unbound, a reduce context and the client's (R126, R299). -/
theorem xbind_lends {t : TileId} {w : Word} {u : List Upset} {s : State} (h : s.NextInstr t w 0x76) :
    let s0 := s.operands t w u
    let v := getVec s0 t
    let r := iVd w % 8
    let k := ctxKey (tileDie t) (fld (iImm w) 0 16)
    let x := getCtx s0 k
    x.state = 1 → x.reduce = true → x.bound = false → x.client = clientOn s0 (tileDie t) →
    exec (.xbind t w u) s = .next (charge (.vector t) 0x00 (retire t (pumpSends (pumpHeld (Fin.ofNat 4 (tileDie t))
      (setCtx k { x with w0 := setFld (setFld x.w0 0 3 2) 27 1 1, w3 := setFld (setFld x.w3 24 4 (t.val % 16)) 28 3 r }
        (setVec t { v with bind := mset 0 v.bind r (k + 1) } s0)))))) := by
  intro s0 v r k x hstate hreduce hbound hclient
  change execXbind t w u s = _
  unfold execXbind
  refine runInstr_done h (if_neg ?_)
  rintro (hn | hn | hn | hn)
  · exact hn hstate
  · exact hn hreduce
  · exact Bool.false_ne_true (hbound.symm.trans hn)
  · exact hn hclient

theorem xfree_releases {t : TileId} {w : Word} {u : List Upset} {s : State} {k : Nat} (h : s.NextInstr t w 0x77) :
    let s0 := s.operands t w u
    let v := getVec s0 t
    let r := iVd w % 8
    v.skips.contains r = false → mget 0 v.bind r = k + 1 → (getCtx s0 k).state = 3 →
    ∃ n, exec (.xfree t w u) s = .next n ∧ getCtx n k = { getCtx s0 k with w0 := setFld (getCtx s0 k).w0 27 1 0 } ∧
      (∀ j, j ≠ k → getCtx n j = getCtx s0 j) ∧
      getTile n t = { getTile s0 t with
        vec := { v with bind := mset 0 v.bind r 0, block := v.block.map advancePc } } ∧
      (∀ y : TileId, y ≠ t → getTile n y = getTile s0 y) ∧
      n = { s0.accounts n with tiles := n.tiles, fabric := n.fabric } := by
  intro s0 v r hskip hbind hstate
  obtain ⟨x, hxd⟩ : ∃ x : Ctx, x = { getCtx s0 k with w0 := setFld (getCtx s0 k).w0 27 1 0 } := ⟨_, rfl⟩
  obtain ⟨y, hy⟩ : ∃ y, y = setCtx k x (setVec t { v with bind := mset 0 v.bind r 0 } s0) := ⟨_, rfl⟩
  have hx : exec (.xfree t w u) s = .next (charge (.vector t) 0x00 (retire t y)) := by
    change execXfree t w u s = _
    unfold execXfree
    refine runInstr_done h ((if_neg (by rw [hskip]; exact Bool.false_ne_true)).trans ?_)
    rw [hbind]
    refine (if_neg (not_not_intro hstate)).trans ?_
    rw [hy, hxd]
  have htile : ∀ z, getTile y z =
      if z = t then { getTile s0 t with vec := { v with bind := mset 0 v.bind r 0 } } else getTile s0 z := by
    rw [hy]
    exact fun z => setVec_tile t z _ s0
  have hctx : ∀ j, getCtx y j = if j = k then x else getCtx s0 j := by
    rw [hy]
    exact fun j => setCtx_getCtx k x _ j
  have k1 : Only [.tiles, .fabric] s0 y := by
    rw [hy]
    exact ((setVec_only _ _ _).mono (by decide)).step (setCtx_only _ _ _) (by decide)
  have k2 := retired_only t y
  have ho := (k1.mono (ks := .tiles :: .fabric :: accountParts) (by decide)).step k2 (by decide)
  have hn := getCtx_congr (k2.fabric (by decide))
  rw [← hxd]
  refine ⟨_, hx, ?_, fun j hj => ?_, ?_, fun z hz => ?_, ?_⟩
  · rw [hn, hctx, if_pos rfl]
  · rw [hn, hctx, if_neg hj]
  · rw [retired_tile, if_pos rfl, getVec, htile, if_pos rfl]
  · rw [retired_tile, if_neg hz, htile, if_neg hz]
  · have hr := (ho.mono (by decide)).eq_record
    rwa [ho.plates (by decide), ho.clients (by decide)] at hr

theorem vblockComplete_completes {t : TileId} {s : State} {b : BlockRun} (hb : (getVec s t).block = some b)
    (hpc : b.instrs.length ≤ b.pc) :
    ∃ n, exec (.vblockComplete t) s = .next n ∧
      getTile n t = { getTile s t with vec := { getVec s t with block := none } } ∧
      (∀ y : TileId, y ≠ t → getTile n y = getTile s y) ∧ Completed s n b.id ∧
      n = { s with tiles := n.tiles, plates := n.plates } := by
  have hx : exec (.vblockComplete t) s = .next (complete b.id (setVec t { getVec s t with block := none } s)) := by
    change execVblockComplete t s = _
    simp only [execVblockComplete, hb, if_neg (Nat.not_lt.2 hpc)]
  have hf := complete_frame b.id (setVec t { getVec s t with block := none } s)
  have htile := fun y => (getTile_congr (congrArg State.tiles hf) y).trans (setVec_tile t y _ s)
  refine ⟨_, hx, (htile t).trans (if_pos rfl), fun y hy => (htile y).trans (if_neg hy),
    (complete_completed _ _).from rfl rfl, ?_⟩
  rw [hf]
  rfl

/-- Settles O13: the issue, REP, XBIND, XFREE, the completion. -/
theorem vectorBlocks : Obligations.VectorBlocks := by
  unfold Obligations.VectorBlocks
  intro t w u c s s0 v d r
  exact ⟨vblock_starts, fun b => rep_starts, xbind_lends, fun k => xfree_releases, fun b => vblockComplete_completes⟩

end Sys2Proof.Machine
end

section
/-! Memory: every command leaves it in canonical form, canonical memories that read alike are equal data (R159, R165, R328, R329, R334). -/

namespace Sys2Proof.Machine

/-- The parts of the state that commands change: all but the queue, which only the step itself shortens. -/
def commandParts : List Part := [.mem, .regs, .shadow, .dict, .blobs, .sat, .cat, .banks, .plates, .tiles, .units, .clients,
  .fabric, .rot, .arbs, .host, .logs, .start, .wearS, .can, .cur, .mail, .wear, .ledger, .served, .ports, .tick, .free]

/-- What every command keeps: memory in canonical form, the queue, what has left the module, and free values used once. -/
theorem exec_kept {ks : List Part} {r s out : State} {i : Instr} (hs : Kept ks r s) (he : exec i s = .next out)
    (hk : commandParts ⊆ ks) : Kept ks r out := by
  cases i with
  | registerWrite a v => exact execRegisterWrite_kept a v hs he
  | counterBlockLatch a => exact execCounterBlockLatch_kept a hs he
  | dictionaryWrite p ix sub data => exact execDictionaryWrite_kept p ix sub data hs he
  | dictionaryRead p ix sub => exact execDictionaryRead_kept p ix sub hs he
  | scheduleTick d => exact execScheduleTick_kept d hs he
  | tclkChange => exact execTclkChange_kept hs he
  | throttleEval m => exact execThrottleEval_kept m hs he
  | stepStart c => exact execStepStart_kept c hs he
  | stepComplete c => exact execStepComplete_kept c hs he
  | windowEntry e => exact execWindowEntry_kept e hs he
  | plateFetch e => exact execPlateFetch_kept e hs he
  | catalogCacheFill t name => exact execCatalogCacheFill_kept t name hs he
  | tokenArrive k => exact execTokenArrive_kept k hs he
  | tokenWatchdogFire d c => exact execTokenWatchdogFire_kept d c hs he
  | stepAbort c => exact execStepAbort_kept c hs he
  | abortMessage p w0 w1 => exact execAbortMessage_kept p w0 w1 hs he
  | modeSet t c => exact execModeSet_kept t c hs he
  | loadStat t c => exact execLoadStat_kept t c hs he
  | loadLineEntry t => exact execLoadLineEntry_kept t hs he
  | pass t c => exact execPass_kept t c hs he
  | passRowEntry t u => exact execPassRowEntry_kept t u hs he
  | drain t c => exact execDrain_kept t c hs he
  | drainPairRead t u => exact execDrainPairRead_kept t u hs he
  | bankSwap t c => exact execBankSwap_kept t c hs he
  | autoDrain t => exact execAutoDrain_kept t hs he
  | gatherBatchLaunch t timer => exact execGatherBatchLaunch_kept t timer hs he
  | unitGate t column n => exact execUnitGate_kept t column n hs he
  | unitWakeDone t column n => exact execUnitWakeDone_kept t column n hs he
  | vblock t c => exact execVblock_kept t c hs he
  | vblockComplete t => exact execVblockComplete_kept t hs he
  | nop t w u => exact execNop_kept t w u hs he
  | vmov t w u => exact execVmov_kept t w u hs he
  | vimm t w u => exact execVimm_kept t w u hs he
  | viota t w u => exact execViota_kept t w u hs he
  | vsel t w u => exact execVsel_kept t w u hs he
  | vadd t w u => exact execVadd_kept t w u hs he
  | vsub t w u => exact execVsub_kept t w u hs he
  | vmul t w u => exact execVmul_kept t w u hs he
  | vfma t w u => exact execVfma_kept t w u hs he
  | vfms t w u => exact execVfms_kept t w u hs he
  | vfnma t w u => exact execVfnma_kept t w u hs he
  | vmin t w u => exact execVmin_kept t w u hs he
  | vmax t w u => exact execVmax_kept t w u hs he
  | vabs t w u => exact execVabs_kept t w u hs he
  | vneg t w u => exact execVneg_kept t w u hs he
  | vaddi t w u => exact execVaddi_kept t w u hs he
  | vmuli t w u => exact execVmuli_kept t w u hs he
  | vfmai t w u => exact execVfmai_kept t w u hs he
  | vdiv t w u => exact execVdiv_kept t w u hs he
  | vsqrt t w u => exact execVsqrt_kept t w u hs he
  | vrsqrt t w u => exact execVrsqrt_kept t w u hs he
  | vrcp t w u => exact execVrcp_kept t w u hs he
  | vexp t w u => exact execVexp_kept t w u hs he
  | vexp2 t w u => exact execVexp2_kept t w u hs he
  | vlog t w u => exact execVlog_kept t w u hs he
  | vlog2 t w u => exact execVlog2_kept t w u hs he
  | vtanh t w u => exact execVtanh_kept t w u hs he
  | vsigm t w u => exact execVsigm_kept t w u hs he
  | verf t w u => exact execVerf_kept t w u hs he
  | vsin t w u => exact execVsin_kept t w u hs he
  | vcos t w u => exact execVcos_kept t w u hs he
  | viadd t w u => exact execViadd_kept t w u hs he
  | visub t w u => exact execVisub_kept t w u hs he
  | vimul t w u => exact execVimul_kept t w u hs he
  | vand t w u => exact execVand_kept t w u hs he
  | vor t w u => exact execVor_kept t w u hs he
  | vxor t w u => exact execVxor_kept t w u hs he
  | vshl t w u => exact execVshl_kept t w u hs he
  | vshr t w u => exact execVshr_kept t w u hs he
  | viaddi t w u => exact execViaddi_kept t w u hs he
  | vcvtif t w u => exact execVcvtif_kept t w u hs he
  | vcvtfi t w u => exact execVcvtfi_kept t w u hs he
  | vcmp t w u => exact execVcmp_kept t w u hs he
  | vicmp t w u => exact execVicmp_kept t w u hs he
  | mop t w u => exact execMop_kept t w u hs he
  | mlane t w u => exact execMlane_kept t w u hs he
  | vrmax t w u => exact execVrmax_kept t w u hs he
  | vrmin t w u => exact execVrmin_kept t w u hs he
  | vperm t w u => exact execVperm_kept t w u hs he
  | vrot t w u => exact execVrot_kept t w u hs he
  | vbcst t w u => exact execVbcst_kept t w u hs he
  | vscan t w u => exact execVscan_kept t w u hs he
  | vlrec t w u => exact execVlrec_kept t w u hs he
  | vpop t w u => exact execVpop_kept t w u hs he
  | vpush t w u => exact execVpush_kept t w u hs he
  | xpopn t w u => exact execXpopn_kept t w u hs he
  | vrecv t w u => exact execVrecv_kept t w u hs he
  | xrecv t w u => exact execXrecv_kept t w u hs he
  | xclr t w u => exact execXclr_kept t w u hs he
  | xadd t w u => exact execXadd_kept t w u hs he
  | xmrg t w u => exact execXmrg_kept t w u hs he
  | xsum t w u => exact execXsum_kept t w u hs he
  | xnar t w u => exact execXnar_kept t w u hs he
  | xpush t w u => exact execXpush_kept t w u hs he
  | xbind t w u => exact execXbind_kept t w u hs he
  | xfree t w u => exact execXfree_kept t w u hs he
  | vrand t w u => exact execVrand_kept t w u hs he
  | vruni t w u => exact execVruni_kept t w u hs he
  | vrkeep t w u => exact execVrkeep_kept t w u hs he
  | rctx t w u => exact execRctx_kept t w u hs he
  | rep t w u => exact execRep_kept t w u hs he
  | hconv d u c => exact execHconv_kept d u c hs he
  | hstat d u c => exact execHstat_kept d u c hs he
  | hctx d u c => exact execHctx_kept d u c hs he
  | hsnap d u c => exact execHsnap_kept d u c hs he
  | hatchChunk d u => exact execHatchChunk_kept d u hs he
  | hatchDrainPair t => exact execHatchDrainPair_kept t hs he
  | cpt d u c => exact execCpt_kept d u c hs he
  | cptLine d u => exact execCptLine_kept d u hs he
  | dmadesc d e c => exact execDmadesc_kept d e c hs he
  | dmamark d e c => exact execDmamark_kept d e c hs he
  | dmaReadIssue d e q => exact execDmaReadIssue_kept d e q hs he
  | dmaWriteUnits d e q => exact execDmaWriteUnits_kept d e q hs he
  | dmaDescComplete d e q => exact execDmaDescComplete_kept d e q hs he
  | folioRead r u => exact execFolioRead_kept r u hs he
  | folioWrite r data u => exact execFolioWrite_kept r data u hs he
  | slotWaiterResume name slot => exact execSlotWaiterResume_kept name slot hs he
  | folioScrub d bank line u => exact execFolioScrub_kept d bank line u hs he
  | remoteWrite w name off data => exact execRemoteWrite_kept w name off data hs he
  | catalogWrite d a r => exact execCatalogWrite_kept d a r hs he
  | catalogWriteStaged d a r => exact execCatalogWriteStaged_kept d a r hs he
  | catalogWriteWindow d a r => exact execCatalogWriteWindow_kept d a r hs he
  | catalogWriteUndef d a r => exact execCatalogWriteUndef_kept d a r hs he
  | windowCloseComplete d h => exact execWindowCloseComplete_kept d h hs he
  | catalogCommit d c tick => exact execCatalogCommit_kept d c tick hs he
  | catalogDiscard d c => exact execCatalogDiscard_kept d c hs he
  | fill d a r => exact execFill_kept d a r hs he
  | copyFolioOp d a r => exact execCopyFolioOp_kept d a r hs he
  | slotReset d a r => exact execSlotReset_kept d a r hs he
  | lockAcq d a r => exact execLockAcq_kept d a r hs he
  | lockRel d a r => exact execLockRel_kept d a r hs he
  | bankGate d b => exact execBankGate_kept d b hs he
  | bankWake d b => exact execBankWake_kept d b hs he
  | bankWakeDone d b => exact execBankWakeDone_kept d b hs he
  | bankReplace d b => exact execBankReplace_kept d b hs he
  | sarm t c => exact execSarm_kept t c hs he
  | srearm t c => exact execSrearm_kept t c hs he
  | smode t c => exact execSmode_kept t c hs he
  | sreset t c => exact execSreset_kept t c hs he
  | sresetEffect t sn => exact execSresetEffect_kept t sn hs he
  | descriptorActivate t sn => exact execDescriptorActivate_kept t sn hs he
  | descriptorEnd t sn => exact execDescriptorEnd_kept t sn hs he
  | streamGrant t => exact execStreamGrant_kept t hs he
  | streamDataReturn t k => exact execStreamDataReturn_kept t k hs he
  | streamConsumingRead t sn => exact execStreamConsumingRead_kept t sn hs he
  | streamOutputWrite t sn => exact execStreamOutputWrite_kept t sn hs he
  | streamWatchdogFire d c => exact execStreamWatchdogFire_kept d c hs he
  | snop t c => exact execSnop_kept t c hs he
  | stok t c => exact execStok_kept t c hs he
  | scat t c => exact execScat_kept t c hs he
  | sfop t c => exact execSfop_kept t c hs he
  | sfopRetry t k => exact execSfopRetry_kept t k hs he
  | sevent t c => exact execSevent_kept t c hs he
  | govLatch c d layer => exact execGovLatch_kept c d layer hs he
  | voteSettle c layer => exact execVoteSettle_kept c layer hs he
  | govEndOfStep c => exact execGovEndOfStep_kept c hs he
  | flitSend p => exact execFlitSend_kept p hs he
  | flitReceive p f => exact execFlitReceive_kept p f hs he
  | portRecovery p e => exact execPortRecovery_kept p e hs he
  | laneSwap p lane => exact execLaneSwap_kept p lane hs he
  | portRemap p => exact execPortRemap_kept p hs he
  | timeRequest => exact execTimeRequest_kept hs he
  | timeResponse t1 t2 t3 t4 => exact execTimeResponse_kept t1 t2 t3 t4 hs he
  | parentReselect => exact execParentReselect_kept hs he
  | tickInEdge => exact execTickInEdge_kept hs he
  | ppsInEdge => exact execPpsInEdge_kept hs he
  | referenceLost pps => exact execReferenceLost_kept pps hs he
  | slotOpen c slot => exact execSlotOpen_kept c slot hs he
  | slotCheckpoint c slot => exact execSlotCheckpoint_kept c slot hs he
  | windowEnd c slot => exact execWindowEnd_kept c slot hs he
  | stepBoundaryCheck c => exact execStepBoundaryCheck_kept c hs he
  | stretch p w0 w1 => exact execStretch_kept p w0 w1 hs he
  | transferReceiveComplete c slot => exact execTransferReceiveComplete_kept c slot hs he
  | refusalMessage w0 w1 => exact execRefusalMessage_kept w0 w1 hs he
  | controlRecordsUp c slot child => exact execControlRecordsUp_kept c slot child hs he
  | controlRecordsDown c slot recs => exact execControlRecordsDown_kept c slot recs hs he
  | credit p w0 w1 => exact execCredit_kept p w0 w1 hs he
  | bestEffortPacket p k => exact execBestEffortPacket_kept p k hs he
  | cctx d c => exact execCctx_kept d c hs he
  | csend d c => exact execCsend_kept d c hs he
  | cgate d c => exact execCgate_kept d c hs he
  | ccommit d c => exact execCcommit_kept d c hs he
  | collTransferArrive d shape data => exact execCollTransferArrive_kept d shape data hs he
  | spillPacket d data => exact execSpillPacket_kept d data hs he
  | spillTimeout d ctx => exact execSpillTimeout_kept d ctx hs he
  | reshardDecide c slot => exact execReshardDecide_kept c slot hs he
  | stackRead r u => exact execStackRead_kept r u hs he
  | stackWrite r data u => exact execStackWrite_kept r data u hs he
  | stackScrub sn group u => exact execStackScrub_kept sn group u hs he
  | stackDieSpare sn => exact execStackDieSpare_kept sn hs he
  | stackFailed sn training => exact execStackFailed_kept sn training hs he
  | addressError a write => exact execAddressError_kept a write hs he
  | bar2Access off write n data => exact execBar2Access_kept off write n data hs he
  | doorbellWrite q tail => exact execDoorbellWrite_kept q tail hs he
  | queueEnable event q => exact execQueueEnable_kept event q hs he
  | functionLevelReset => exact execFunctionLevelReset_kept hs he
  | loadPlates q => exact execLoadPlates_kept q hs he
  | runSteps q => exact execRunSteps_kept q hs he
  | archiveOut q => exact execArchiveOut_kept q hs he
  | restoreIn q => exact execRestoreIn_kept q hs he
  | copy q => exact execCopy_kept q hs he
  | admitClient q => exact execAdmit_kept q hs he
  | evict q => exact execEvict_kept q hs he
  | hostReservedOpcode q => exact execHostReservedOpcode_kept q hs he
  | eventPost => exact execEventPost_kept hs he
  | msixSend q timer => exact execMsixSend_kept q timer hs he
  | sliceDue => exact execSliceDue_kept hs he
  | switchOut => exact execSwitchOut_kept hs he
  | switchIn => exact execSwitchIn_kept hs he
  | longCommand e => exact execLongCommand_kept e hs he
  | arbiterGrant res d reqs => exact execArbiterGrant_kept res d reqs hs he
  | grantWithdraw res d code => exact execGrantWithdraw_kept res d code hs he
  | ledgerTick energy => exact execLedgerTick_kept energy hs he
  | archiveCapture c => exact execArchiveCapture_kept c hs he
  | archiveStreamOut c => exact execArchiveStreamOut_kept c hs he
  | powerSequence vin ms => exact execPowerSequence_kept vin ms hs he
  | pwrGoodLost => exact execPwrGoodLost_kept hs he
  | presentNRise => exact execPresentNRise_kept hs he
  | protectiveTrip thermal current => exact execProtectiveTrip_kept thermal current hs he
  | sketchEntry m => exact execSketchEntry_kept m hs he
  | bootVerify => exact execBootVerify_kept hs he
  | proofEntry => exact execProofEntry_kept hs he
  | stackTraining sn ok => exact execStackTraining_kept sn ok hs he
  | arraySelfTest d m => exact execArraySelfTest_kept d m hs he
  | linkTraining p m => exact execLinkTraining_kept p m hs he
  | registrarCheck d bad => exact execRegistrarCheck_kept d bad hs he
  | editionEntry => exact execEditionEntry_kept hs he
  | stageTimeout => exact execStageTimeout_kept hs he
  | coldReset => exact execColdReset_kept hs he
  | coreReset d core watchdog => exact execCoreReset_kept d core watchdog hs he
  | tileReset t => exact execTileReset_kept t hs he
  | resetReqCold => exact execResetReqCold_kept hs he
  | resetReqSelftest => exact execResetReqSelftest_kept hs he
  | fwUpdData data => exact execFwUpdData_kept data hs he
  | fwUpdCommit => exact execFwUpdCommit_kept hs he
  | cfgSave => exact execCfgSave_kept hs he
  | canRead f => exact execCanRead_kept f hs he
  | canWrite f => exact execCanWrite_kept f hs he
  | canWriteInit f => exact execCanWriteInit_kept f hs he
  | canSegment f => exact execCanSegment_kept f hs he
  | canBlockAck f => exact execCanBlockAck_kept f hs he
  | canInfo f => exact execCanInfo_kept f hs he
  | canAbort f => exact execCanAbort_kept f hs he
  | canTimeout peer => exact execCanTimeout_kept peer hs he
  | canSegmentGapTimer peer => exact execCanSegmentGapTimer_kept peer hs he
  | canEventMirror => exact execCanEventMirror_kept hs he
  | heartbeat => exact execHeartbeat_kept hs he
  | nodeIdListen seen => exact execNodeIdListen_kept seen hs he
  | busOffRecovery => exact execBusOffRecovery_kept hs he
  | mailboxGo => exact execMailboxGo_kept hs he
  | mailboxRemoteTimeout => exact execMailboxRemoteTimeout_kept hs he
  | curHelp => exact execCurHelp_kept hs he
  | curId => exact execCurId_kept hs he
  | curStage => exact execCurStage_kept hs he
  | curGet ix sub => exact execCurGet_kept ix sub hs he
  | curDump ix => exact execCurDump_kept ix hs he
  | curInfo ix sub => exact execCurInfo_kept ix sub hs he
  | curEvents n => exact execCurEvents_kept n hs he
  | curUnlock level => exact execCurUnlock_kept level hs he
  | curResp data => exact execCurResp_kept data hs he
  | curLock => exact execCurLock_kept hs he
  | curSet ix sub data => exact execCurSet_kept ix sub data hs he
  | curResetCold => exact execCurResetCold_kept hs he
  | curResetCore d core => exact execCurResetCore_kept d core hs he
  | curFuse e code => exact execCurFuse_kept e code hs he
  | curIdleTimeout => exact execCurIdleTimeout_kept hs he
  | curBaudRevert => exact execCurBaudRevert_kept hs he
  | fuseArm v => exact execFuseArm_kept v hs he
  | fuseArmExpire => exact execFuseArmExpire_kept hs he
  | errlogClear v => exact execErrlogClear_kept v hs he
  | errorLogWrite => exact execErrorLogWrite_kept hs he
  | wearWindowBoundary => exact execWearWindowBoundary_kept hs he
  | wearTrigger k => exact execWearTrigger_kept k hs he
  | spareSwap k => exact execSpareSwap_kept k hs he
  | fuseBlow e ok => exact execFuseBlow_kept e ok hs he
  | extest d bits => exact execExtest_kept d bits hs he
  | idcode d => exact execIdcode_kept d hs he
  | samplePreload d bits => exact execSamplePreload_kept d bits hs he
  | clamp d => exact execClamp_kept d hs he
  | highz d => exact execHighz_kept d hs he
  | bypass d => exact execBypass_kept d hs he
  | tapReset d => exact execTapReset_kept d hs he
  | eventQueueHeadWrite q head => exact execEventQueueHeadWrite_kept q head hs he
  | msixUnmask v => exact execMsixUnmask_kept v hs he
  | timeRequestArrival p t1 => exact execTimeRequestArrival_kept p t1 hs he
  | pcieFundamentalReset => exact execPcieFundamentalReset_kept hs he
  | tripRelease => exact execTripRelease_kept hs he
  | referenceRegained pps => exact execReferenceRegained_kept pps hs he
  | canBusError tx n => exact execCanBusError_kept tx n hs he

/-- A step that has a next state leaves it with memory in canonical form. -/
theorem step_keeps_wf {s t : State} (h : s.mem.wf = true) (ht : step s = .next t) : t.mem.wf = true := by
  unfold step at ht
  cases hp : s.pending with
  | nil =>
    rw [hp] at ht
    cases ht
    exact h
  | cons c rest =>
    rw [hp] at ht
    exact (exec_kept (Kept.rfl' { s with pending := rest }) ht (List.Subset.refl _)).mem h

/-- Settles O4: of the queue's front command by what every command keeps. -/
theorem stepKeepsMemoryCanonical : Obligations.StepKeepsMemoryCanonical := by
  unfold Obligations.StepKeepsMemoryCanonical State.inv
  exact fun s t => step_keeps_wf

/-- Two sparse maps in canonical form that read alike are the same list. -/
theorem mwf_ext {α : Type} [DecidableEq α] {d : α} {a b : SMap α} (ha : mwf d a = true) (hb : mwf d b = true)
    (h : ∀ k, mget d a k = mget d b k) : a = b := by
  rw [mwf_iff] at ha hb
  exact ext_of_mwf ha.1 hb.1 ha.2 hb.2 h

/-- Settles O5: bytes, word states and owners are canonical maps each, and a run of bytes is written byte by byte. -/
theorem memoryReadsDetermineData : Obligations.MemoryReadsDetermineData := by
  unfold Obligations.MemoryReadsDetermineData
  refine ⟨fun m m' h h' hbyte hsynd howner => ?_, fun m a i bs => Memory.byte_setBytes bs m a i,
    fun m a bs => Memory.wf_setBytes bs a⟩
  obtain ⟨cells, synd, owner⟩ := m
  obtain ⟨cells', synd', owner'⟩ := m'
  congr 1
  · exact mwf_ext (Memory.cells_wf h) (Memory.cells_wf h') hbyte
  · exact mwf_ext (Memory.synd_wf h) (Memory.synd_wf h') hsynd
  · exact mwf_ext (Memory.owner_wf h) (Memory.owner_wf h') howner

end Sys2Proof.Machine
end

section
/-! Issue and completion of plate commands: tokens taken, the command in progress, tokens posted (R223, R224, R226, R229). -/

namespace Sys2Proof.Machine

/-- The token registers after an issue: those of the engine's file less what the command's references add up to (R223). -/
theorem issued_tokens (s : State) (e : Eng) (c : PCmd) {d f r : Nat} (hf : f < 17) (hr : r < 256) :
    tokens (s.issued e c) d f r = tokens s d f r - (if d = engDie e ∧ f = ownFile e then needOf c r else 0) :=
  take_fold e d f r hf hr c.ins (setEng e (s.issuedEng e c) s)

/-- Settles O15: the state of the issue is the one that tokens are taken from; a completion takes the command out of progress. -/
theorem plateIssueAndCompletion : Obligations.PlateIssueAndCompletion := by
  unfold Obligations.PlateIssueAndCompletion
  refine ⟨fun e c s h => ⟨s.issued e c, s.issuedCmd e c, withIssue_issues h, locate_cmd s e c, issued_findFlight h,
    fun d f r hf hr => issued_tokens s e c hf hr, issued_frame s e c⟩, fun id s => ⟨complete_completed id s, complete_frame id s⟩⟩

end Sys2Proof.Machine
end

section
/-! Catalog writes through an agent's port, window closing, commits and discards (R170 to R172, R175, R176, R181, R335). -/

namespace Sys2Proof.Machine

/-- The four rows of a Catalog write differ in the control word of the record that they write. -/
theorem exec_portCatWrite {d : DieId} {a : Agent} {r r' : CatRec} {i : Instr} (s : State)
    (h : (i, r') ∈ [(.catalogWrite d a r, { r with ctl := r.ctl &&& 0xFFF }),
      (.catalogWriteStaged d a r, { r with ctl := (r.ctl &&& 0x6FFF) ||| 0x1000 }),
      (.catalogWriteWindow d a r, { r with ctl := (r.ctl &&& 0x1FFF) ||| 0x2000 }),
      (.catalogWriteUndef d a r, { r with ctl := (r.ctl &&& 0x1FFF) ||| 0x4000 })]) :
    exec i s = .next (portCatWrite d a r' s) := by
  simp only [List.mem_cons, List.not_mem_nil, or_false, Prod.mk.injEq] at h
  rcases h with ⟨rfl, rfl⟩ | ⟨rfl, rfl⟩ | ⟨rfl, rfl⟩ | ⟨rfl, rfl⟩ <;> rfl

section
variable {d : DieId} {a : Agent} {r : CatRec} {s : State}

theorem portCatWrite_busy (hb : catBusy s d a = true) :
    portCatWrite d a r s = post 0x0204 16 (catPort d.val (agentPort a) 0x40) s := by
  unfold portCatWrite
  dsimp only
  rw [if_pos hb]

/-- A write that takes effect at once, through a free port: its entry is written, and its result reads whether it is final. -/
theorem portCatWrite_direct {res : Nat} (hres : res = catPort d.val (agentPort a) 0x48) (hb : catBusy s d a = false)
    (hs : r.stage = false) (hk : catReason s none d.val r s.cat.ents = none) :
    let name := d.val * 4096 + r.handle
    let new := r.result (getEnt s name)
    let m := applyEntry name new (!r.win && !r.undef) s
    let n := portCatWrite d a r s
    n.cat.ents = m.cat.ents ∧ n.cat.full = m.cat.full ∧
    getReg n res = (if r.win && narrows (getEnt s name) new && decide (mget 0 s.cat.accepted name ≠ 0) then 0 else 1) ∧
    (∀ x, n.peek x = s.peek x) ∧ Only [.cat, .plates, .mem, .regs] s n := by
  intro name new m n
  have hw := applyEntry_written name new (!r.win && !r.undef) s
  have hd : catWrite none d r s = (if r.win = true ∧ narrows (getEnt s name) new = true ∧ mget 0 s.cat.accepted name ≠ 0 then
    .pending else .applied, m) := catWrite_direct hs hk
  by_cases hp : r.win = true ∧ narrows (getEnt s name) new = true ∧ mget 0 s.cat.accepted name ≠ 0
  · rw [if_pos hp] at hd
    let m' : State := { m with cat := { m.cat with closing := m.cat.closing ++ [{ name := name, agent := a }] } }
    have hn : n = setReg res 0 m' := portCat_pending hres hb hd
    have k1 : Only [.cat, .plates, .mem] s m' := hw.only.step (only_cat _ m) (by decide)
    rw [hn]
    refine ⟨rfl, rfl, ?_, fun x => ((catPort_same hres 0 m').peekByte x).trans (hw.peek x),
      (k1.mono (by decide)).step (setReg_only _ _ _) (by decide)⟩
    rw [getReg_setReg, if_pos rfl, if_pos (by rw [hp.1, hp.2.1, decide_eq_true hp.2.2]; rfl)]
  · rw [if_neg hp] at hd
    have hn : n = setReg res 1 m := portCat_applied hres hb hd
    rw [hn]
    refine ⟨rfl, rfl, ?_, fun x => ((catPort_same hres 1 m).peekByte x).trans (hw.peek x),
      (hw.only.mono (by decide)).step (setReg_only _ _ _) (by decide)⟩
    rw [getReg_setReg, if_pos rfl, if_neg]
    simpa [and_assoc] using hp

/-- A staged write through a free port waits in its die's staging, its result 1. -/
theorem portCatWrite_staged {res : Nat} (hres : res = catPort d.val (agentPort a) 0x48) (hb : catBusy s d a = false)
    (hs : r.stage = true)
    (h0 : ¬ (r.undef = true ∧ (mget {} (applyStaged s.cat.ents s.cat.staging) (d.val * 4096 + r.handle)).kind = 0)) :
    let mine := applyStaged s.cat.ents (s.cat.staging.filter fun x => decide (x.owner = stageOwner s d.val r))
    catReason s none d.val r mine = none →
    portCatWrite d a r s = setReg res 1 { s with cat := { s.cat with staging := s.cat.staging ++
      [{ die := d, owner := stageOwner s d.val r, ctl := r.ctl, ent := r.result (mget {} mine (d.val * 4096 + r.handle)) }] } } :=
  fun hk => portCat_applied hres hb (catWrite_staged hs (fun h => h0 h.2) hk)

/-- A refused write through a free port posts its event, and its result reads the reason. -/
theorem portCatWrite_refused {res k : Nat} (hres : res = catPort d.val (agentPort a) 0x48) (hb : catBusy s d a = false)
    (h0 : ¬ (r.stage = true ∧ r.undef = true ∧
      (mget {} (applyStaged s.cat.ents s.cat.staging) (d.val * 4096 + r.handle)).kind = 0))
    (hk : catReason s none d.val r (if r.stage then applyStaged s.cat.ents (s.cat.staging.filter fun x =>
      decide (x.owner = stageOwner s d.val r)) else s.cat.ents) = some k) :
    ∃ z, Only [.clients, .dict, .sat, .host, .logs] s z ∧ portCatWrite d a r s =
      setReg res (BitVec.ofNat 64 (0x100 + k)) (post 0x0202 16 (d.val + 4 * r.handle + 2 ^ 14 * k) z) :=
  ⟨_, ((noteStageRefused_only _ r s).mono (by decide)).step (bumpDict_only _ _ _) (by decide),
    portCat_refused hres hb (catWrite_refused h0 hk)⟩

end

/-- The end of a closed window (R181): the results of its closing writes become final. -/
theorem windowCloseComplete_spec (d : DieId) (h : Nat) (s : State) :
    let name := d.val * 4096 + h % 4096
    (mget 0 s.cat.accepted name ≠ 0 → exec (.windowCloseComplete d h) s = .next s) ∧
    (mget 0 s.cat.accepted name = 0 → ∃ n, exec (.windowCloseComplete d h) s = .next n ∧
      n.cat = { s.cat with closing := s.cat.closing.filter fun x => decide (x.name ≠ name) } ∧
      (∀ x ∈ s.cat.closing, x.name = name → ∀ a, x.agent = some a → getReg n (catPort d.val (agentPort a) 0x48) = 1) ∧
      (∀ x ∈ s.cat.closing, x.name = name → x.agent = none → findFlight n x.id = none) ∧
      Only [.cat, .regs, .plates] s n) := by
  intro name
  let y : State := { s with cat := { s.cat with closing := s.cat.closing.filter fun x => decide (x.name ≠ name) } }
  let mine := s.cat.closing.filter fun x => decide (x.name = name)
  have hx : exec (.windowCloseComplete d h) s =
    .next (if mget 0 s.cat.accepted name ≠ 0 then s else mine.foldl (finishClosing d) y) := rfl
  have hmine : ∀ x ∈ s.cat.closing, x.name = name → x ∈ mine := fun x hx hn => List.mem_filter.2 ⟨hx, decide_eq_true hn⟩
  obtain ⟨ho, hagents, -, hcmds, -⟩ := finishClosing_spec d (fun a => catPort d.val (agentPort a) 0x48) (fun _ => rfl) mine y
  refine ⟨fun hacc => hx.trans (congrArg _ (if_pos hacc)), fun hacc => ⟨_, hx.trans (congrArg _ (if_neg (not_not_intro hacc))), ?_⟩⟩
  exact ⟨ho.cat (by decide), fun x hx hn => hagents x (hmine x hx hn), fun x hx hn => hcmds x (hmine x hx hn),
    ((only_cat _ s).mono (by decide)).step ho (by decide)⟩

/-- A commit that reaches a die waits for its plan tick, or for the next one where that has begun (R175, R176). -/
theorem catalogCommit_queues (d : DieId) (c : ClientId) (tick : Nat) (s : State) :
    let late := decide (tick ≤ planTick s c.val) && ((getClient s c.val).run.map (runBegun s)).getD true
    ∃ n, exec (.catalogCommit d c tick) s = .next n ∧ n.cat = { s.cat with commits := s.cat.commits ++
        [{ die := d, client := c.val, tick := if late then planTick s c.val + 1 else tick }] } ∧
      n = { (if late then post 0x0205 c.val (d.val + 4 * c.val) s else s) with cat := n.cat } := by
  intro late
  refine ⟨_, rfl, ?_, rfl⟩
  have hcat : (if late then post 0x0205 c.val (d.val + 4 * c.val) s else s).cat = s.cat := by
    cases late <;> rfl
  exact congrArg (fun x : Catalog => { x with commits := x.commits ++
    [({ die := d, client := c.val, tick := if late then planTick s c.val + 1 else tick } : CommitWait)] }) hcat

/-- Settles O20: port writes by what becomes of them, then the closing of windows, commits and discards. -/
theorem catalogWrites : Obligations.CatalogWrites := by
  unfold Obligations.CatalogWrites
  refine ⟨fun d a r r' s i hi => ?_, windowCloseComplete_spec, catalogCommit_queues, fun d c s => rfl⟩
  rw [exec_portCatWrite s hi]
  intro name res mine cur new
  refine ⟨fun hb => ⟨_, rfl, s, rfl, portCatWrite_busy hb⟩, fun hb hs hk => ?_, fun hb hs h0 hk => ?_, fun k hb h0 hk => ?_⟩
  · obtain ⟨hents, hfull, hresult, hpeek, honly⟩ := portCatWrite_direct rfl hb hs hk
    obtain ⟨hent, hothers, hcleared, hslots⟩ := (applyEntry_written name new (!r'.win && !r'.undef) s).views hents hfull
    exact ⟨_, rfl, hent, hothers, hcleared, hslots, hresult, hpeek, honly⟩
  · rw [portCatWrite_staged rfl hb hs h0 hk]
    exact ⟨_, rfl, rfl, (getReg_setReg _ _ _ _).trans (if_pos rfl), ((only_cat _ s).mono (by decide)).step (setReg_only _ _ _) (by decide)⟩
  · obtain ⟨z, hz, hn⟩ := portCatWrite_refused rfl hb h0 hk
    exact ⟨_, _, rfl, hn, hz.cat (by decide), z, hz, rfl⟩

/-! ### Slot states after a write (R172) -/

/-- Applying a write keeps the slots of an entry that it neither defines, undefines nor gives other slots. -/
theorem applyEntry_keepsSlots {name : Nat} {new : Entry} {s : State}
    (h : ¬ ((getEnt s name).slots ≠ new.slots ∨ (getEnt s name).slotu ≠ new.slotu ∨ ((getEnt s name).kind = 0 ∧ new.kind ≠ 0)))
    (hk : new.kind ≠ 0) (full : Bool) : (applyEntry name new full s).cat.full = s.cat.full := by
  have hc : ¬ ((getEnt s name).kind = 0 ∨ new.kind = 0 ∨ (getEnt s name).slots ≠ new.slots ∨ (getEnt s name).slotu ≠ new.slotu) := by
    rintro (h0 | h0 | h0 | h0)
    · exact h (.inr (.inr ⟨h0, hk⟩))
    · exact hk h0
    · exact h (.inl h0)
    · exact h (.inr (.inl h0))
  unfold applyEntry
  dsimp only
  rw [if_neg hc]
  cases full <;> rfl

/-- The slot states that an applied write leaves, in a state with the entries and slots of its own (R172). -/
theorem applyEntry_slots (name : Nat) (new : Entry) (full : Bool) {s m : State}
    (he : m.cat.ents = (applyEntry name new full s).cat.ents) (hf : m.cat.full = (applyEntry name new full s).cat.full) :
    let old := getEnt s name
    let changes := old.slots ≠ new.slots ∨ old.slotu ≠ new.slotu ∨ (old.kind = 0 ∧ new.kind ≠ 0)
    getEnt m name = new ∧ (changes → ∀ j, j < 4096 → slotFull m name j = false) ∧
    (¬ changes → new.kind ≠ 0 → ∀ j, j < 4096 → slotFull m name j = slotFull s name j) ∧
    ∀ k j, j < 4096 → k ≠ name → slotFull m k j = slotFull s k j := by
  obtain ⟨hent, -, hcleared, hslots⟩ := (applyEntry_written name new full s).views he hf
  refine ⟨hent, fun h => hcleared ?_, fun h hk j _ => ?_, hslots⟩
  · rcases h with h | h | h
    · exact .inr (.inr (.inl h))
    · exact .inr (.inr (.inr h))
    · exact .inl h.1
  · unfold slotFull
    rw [hf, applyEntry_keepsSlots h hk]

/-- Settles O34: what applying a write leaves of slots, and the port write that takes effect at once. -/
theorem slotsAfterCatalogWrite : Obligations.SlotsAfterCatalogWrite := by
  unfold Obligations.SlotsAfterCatalogWrite
  refine ⟨fun name new full s => applyEntry_slots name new full rfl rfl, fun d a r r' s i hi hb hs hk => ?_⟩
  obtain ⟨hents, hfull, -, -, -⟩ := portCatWrite_direct rfl hb hs hk
  exact ⟨_, exec_portCatWrite s hi, applyEntry_slots _ _ _ hents hfull⟩

end Sys2Proof.Machine
end

section
/-! Folio operations through an agent's port (R182 to R188, R335). -/

namespace Sys2Proof.Machine

/-- The five rows of a Folio operation differ in the operation code of the record that they write. -/
theorem exec_portFop {d : DieId} {a : Agent} {r : FopRec} {i : Instr} {op : Nat} (s : State)
    (h : (i, op) ∈ [(.fill d a r, 1), (.copyFolioOp d a r, 2), (.slotReset d a r, 3), (.lockAcq d a r, 4), (.lockRel d a r, 5)]) :
    exec i s = .next (portFop d a { r with w0 := setFld r.w0 0 4 op } s) := by
  simp only [List.mem_cons, List.not_mem_nil, or_false, Prod.mk.injEq] at h
  rcases h with ⟨rfl, rfl⟩ | ⟨rfl, rfl⟩ | ⟨rfl, rfl⟩ | ⟨rfl, rfl⟩ | ⟨rfl, rfl⟩ <;> rfl

theorem fopRun_reserved {client : Option Nat} {me : Nat} {own : Option Nat} {d : DieId} {r : FopRec} {s : State}
    (hr : fopReserved client d r s = true) : fopRun client me own d r s = (.reserved, s) := by
  unfold fopRun
  dsimp only
  rw [if_pos hr]

section
variable {d : DieId} {a : Agent} {r : FopRec} {s s1 : State} {res : Nat} (hres : res = fopPort d.val (agentPort a) 0x28)
include hres

theorem portFop_done {w : Word} (h : fopRun none (agentId d a) none d r s = (.done w, s1)) :
    portFop d a r s = setReg res (w ||| 1#64 <<< 63) s1 := by
  unfold portFop
  rw [h, hres]

theorem portFop_waits (h : fopRun none (agentId d a) none d r s = (.waits, s1)) : portFop d a r s = setReg res 0 s1 := by
  unfold portFop
  rw [h, hres]

theorem portFop_reserved (h : fopRun none (agentId d a) none d r s = (.reserved, s1)) :
    portFop d a r s = setReg res (fopWord 3 false 0 ||| 1#64 <<< 63) (portIllegal d r s1) := by
  unfold portFop
  rw [h, hres]

end

/-- The event of a reserved operation, in the state that its open fields leave. -/
theorem portIllegal_posted (d : DieId) (r : FopRec) (s : State) :
    ∃ y det, Only [.free] s y ∧ Posted y (portIllegal d r s) 0x0201 16 det :=
  ⟨(fresh s).2, _, fresh_only s, (fresh s).2, rfl, rfl⟩

/-- Settles O21: an operation that runs, one that waits, one that is reserved. -/
theorem folioOperations : Obligations.FolioOperations := by
  unfold Obligations.FolioOperations
  intro d a r s i op hi q res de
  rw [exec_portFop s hi]
  refine ⟨fun hr hw hp hst => ?_, fun hr hw => ?_, fun hr => ?_⟩
  · obtain ⟨m, w, hrun, heff⟩ := fopRun_effect (client := none) (me := agentId d a) (own := none) hr hw hp hst
    exact ⟨m, w, congrArg _ (portFop_done rfl hrun), heff⟩
  · exact congrArg _ (portFop_waits rfl (fopRun_waits hr hw))
  · obtain ⟨y, det, hy, hpost⟩ := portIllegal_posted d q s
    exact ⟨y, _, det, congrArg _ (portFop_reserved rfl (fopRun_reserved hr)), hy, hpost⟩

end Sys2Proof.Machine
end

section
/-! Accesses to buffers through FOLIO, STACK and REMOTE rows, and the waiters of ring slots (R160 to R163, R177 to R180, R330). -/

namespace Sys2Proof.Machine

section
variable {kind : Nat} {r : Access} {s : State}

/-- A read inside its buffer whose slots are FULL is served. -/
theorem readAccess_served (ha : accOk kind (getEnt s r.name) r r.len = true)
    (hb : slotBlocked s r.name (getEnt s r.name) r.off r.len false = none) :
    ReadBuf s (readAccess kind r s) (getEnt s r.name) r := by
  have hx : readAccess kind r s = serveRead (getEnt s r.name) r s := by
    unfold readAccess
    dsimp only
    rw [if_neg (not_not_intro ha), hb]
  rw [hx]
  exact serveRead_read _ r s

/-- A read inside its buffer waits for its first slot that is not FULL. -/
theorem readAccess_waits (ha : accOk kind (getEnt s r.name) r r.len = true) {k : Nat}
    (hb : slotBlocked s r.name (getEnt s r.name) r.off r.len false = some k) :
    readAccess kind r s = addWaiter { name := r.name, slot := k, write := false, acc := r, data := [] } s := by
  unfold readAccess
  dsimp only
  rw [if_neg (not_not_intro ha), hb]

variable {data : List Byte}

/-- What a write inside its buffer does that is its own die's, or that the window admits: it stores its bytes, or waits for its
first slot that is not EMPTY. -/
theorem writeAccess_admitted (ha : accOk kind (getEnt s r.name) r data.length = true)
    (hw : r.name / 4096 = r.die.val ∨ windowAdmits s (getEnt s r.name) { mod := moduleId s, die := r.die, eng := r.code } r.off
      data.length = true) :
    writeAccess kind r data s = match slotBlocked s r.name (getEnt s r.name) r.off data.length true with
      | some k => addWaiter { name := r.name, slot := k, write := true, acc := r, data := data } s
      | none => putBuf (clientOn s r.die.val) r.name (getEnt s r.name) r.off data s := by
  have hn : ¬ (r.name / 4096 ≠ r.die.val ∧ ¬ windowAdmits s (getEnt s r.name) { mod := moduleId s, die := r.die, eng := r.code }
      r.off data.length = true) := fun h => hw.elim h.1 h.2
  unfold writeAccess
  dsimp only
  refine (if_neg (not_not_intro ha)).trans ((if_neg hn).trans ?_)
  cases slotBlocked s r.name (getEnt s r.name) r.off data.length true <;> rfl

/-- A write of another die's engine that its window refuses. -/
theorem writeAccess_refused (ha : accOk kind (getEnt s r.name) r data.length = true) (hd : r.name / 4096 ≠ r.die.val)
    (hw : windowAdmits s (getEnt s r.name) { mod := moduleId s, die := r.die, eng := r.code } r.off data.length = false) :
    writeAccess kind r data s = windowRefused { mod := moduleId s, die := r.die, eng := r.code } r.name
      (firstRefused s (getEnt s r.name) { mod := moduleId s, die := r.die, eng := r.code } r.off data.length) s := by
  unfold writeAccess
  dsimp only
  rw [if_neg (not_not_intro ha), if_pos ⟨hd, by rw [hw]; exact Bool.false_ne_true⟩]

end

/-- A write that its window refuses posts its event behind the count of such writes. -/
theorem windowRefused_posted (w : Writer) (name off : Nat) (s : State) :
    Posted s (windowRefused w name off s) 0x0203 (ownerOf s name)
      (w.mod + 2 ^ 12 * w.die.val + 2 ^ 14 * w.eng + 2 ^ 18 * (name % 4096) + 2 ^ 30 * (off / 64)) :=
  ⟨bumpDict (dkey 0x3100 0x0A) 1 s, bumpDict_accounts _ _ s, rfl⟩

theorem exec_readAccess {r : Access} {u : List Upset} {kind : Nat} {i : Instr} (s : State)
    (h : (kind, i) ∈ [(1, .folioRead r u), (2, .stackRead r u)]) : exec i s = .next (readAccess kind r (strike u s)) := by
  simp only [List.mem_cons, List.not_mem_nil, or_false, Prod.mk.injEq] at h
  rcases h with ⟨rfl, rfl⟩ | ⟨rfl, rfl⟩ <;> rfl

theorem exec_writeAccess {r : Access} {data : List Byte} {u : List Upset} {kind : Nat} {i : Instr} (s : State)
    (h : (kind, i) ∈ [(1, .folioWrite r data u), (2, .stackWrite r data u)]) :
    exec i s = .next (writeAccess kind r data (strike u s)) := by
  simp only [List.mem_cons, List.not_mem_nil, or_false, Prod.mk.injEq] at h
  rcases h with ⟨rfl, rfl⟩ | ⟨rfl, rfl⟩ <;> rfl

/-- The waiter that SLOT_WAITER_RESUME finds, whose buffer is still there and which came from the die's own requesters, is served. -/
theorem slotWaiterResume_serves {name slot i : Nat} {w : Waiter} {s : State}
    (hi : (s.cat.waiters.findIdx? fun x => decide (x.name = name) && decide (x.slot = slot) && waiterReady s x) = some i)
    (hw : s.cat.waiters[i]? = some w) (hk : (getEnt s name).kind ≠ 0) (hr : w.remote = false)
    (ha : accOk (getEnt s name).kind (getEnt s name) w.acc (if w.write then w.data.length else w.acc.len) = true) :
    let s1 := { s with cat := { s.cat with waiters := s.cat.waiters.eraseIdx i } }
    exec (.slotWaiterResume name slot) s = .next (if w.write then
      putBuf (clientOn s w.acc.die.val) name (getEnt s name) w.acc.off w.data s1 else serveRead (getEnt s name) w.acc s1) := by
  intro s1
  have hn : ¬ (¬ accOk (getEnt s name).kind (getEnt s name) w.acc (if w.write then w.data.length else w.acc.len) = true ∨
      (getEnt s name).kind = 0) := fun h => h.elim (not_not_intro ha) hk
  show execSlotWaiterResume name slot s = _
  unfold execSlotWaiterResume
  dsimp only
  rw [hi]
  dsimp only
  rw [hw]
  dsimp only
  rw [if_neg hn, hr]
  rfl

/-- A remote write that the window admits, into EMPTY slots. -/
theorem remoteWrite_admitted {w : Writer} {name off : Nat} {data : List Byte} {s : State} (hd : data.length ≠ 0)
    (hw : windowAdmits s (getEnt s name) w off data.length = true)
    (hb : slotBlocked s name (getEnt s name) off data.length true = none) :
    remoteWrite w name off data s = putBuf (getEnt s name).client name (getEnt s name) off data s := by
  unfold remoteWrite
  dsimp only
  rw [if_neg hd, if_neg (not_not_intro hw), hb]

/-- Settles O22: reads, writes, waiters, remote writes. -/
theorem bufferAccesses : Obligations.BufferAccesses := by
  unfold Obligations.BufferAccesses
  refine ⟨fun r u s kind i hi => ?_, fun r data u s kind i hi => ?_, fun name slot i w s hfind hw hname => ?_,
    fun w name off data s he hd hadm hb => ?_⟩
  · rw [exec_readAccess s hi]
    intro s0 e ha
    exact ⟨fun hb => ⟨_, rfl, readAccess_served ha hb⟩, fun k hb => congrArg _ (readAccess_waits ha hb)⟩
  · rw [exec_writeAccess s hi]
    intro s0 e w ha he
    refine ⟨fun hadm => ⟨fun hb => ⟨_, rfl, ?_⟩, fun k hb => ?_⟩, fun hd hadm => ⟨_, rfl, ?_⟩⟩
    · rw [writeAccess_admitted ha hadm, hb]
      exact putBuf_wrote _ _ he _ _ s0
    · rw [writeAccess_admitted ha hadm, hb]
      rfl
    · rw [writeAccess_refused ha hd hadm]
      exact windowRefused_posted _ _ _ s0
  · intro s1 e hk he hr
    refine ⟨fun hread ha => ⟨_, slotWaiterResume_serves hfind hw hk hr (by rw [hread]; exact ha), ?_⟩,
      fun hwrite ha => ⟨_, slotWaiterResume_serves hfind hw hk hr (by rw [hwrite]; exact ha), ?_⟩⟩
    · rw [hread]
      exact serveRead_read e w.acc s1
    · rw [hwrite]
      exact putBuf_wrote _ name he _ _ s1
  · refine ⟨_, rfl, ?_⟩
    rw [remoteWrite_admitted hd hadm hb]
    exact putBuf_wrote _ name he off data s

end Sys2Proof.Machine
end

section
/-! Scrubbing, failures and spare dies of stacks, unassigned addresses, BAR2 (R164, R331 to R334, R338). -/

namespace Sys2Proof.Machine

/-- Reading the words of a line or group in turn, from word k0: what a scrub leaves (R164, R331). -/
theorem scrub_reads (k0 n : Nat) (s : State) :
    let t := (List.range n).foldl (fun s i => (readWord 16 true (k0 + i) s).2) s
    t = s.access t ∧ (∀ x, t.peek x = s.peek x) ∧
      ∀ k, k0 ≤ k → k < k0 + n → (peekWord s k).poison = false → t.mem.syn k = 0 := by
  obtain ⟨hacc, hsame, hclean⟩ := scrub_words 16 true k0 n s
  exact ⟨hacc, fun x => hsame.peekByte x, hclean⟩

/-- A stack in service that spares a die (R332). -/
theorem spareStackDie_spares {i : Nat} {s : State} (hb : bit (getReg s (stkBlk i 0)) 2 = false) (hf : stackFailed s i = false) :
    bit (getReg (spareStackDie i s) (stkBlk i 0)) 2 = true ∧ ∀ x, (spareStackDie i s).peek x = s.peek x := by
  have hsame : SameStore s (wornDie i (recopyStack i s)).2 := (recopyStack_same i s hf).1.trans
    (SameStore.of (by rw [wornDie_frame]) (stackFailed_congr (by rw [wornDie_frame])))
  unfold spareStackDie
  dsimp only
  rw [if_neg (by rw [hb, hf]; decide)]
  generalize wornDie i (recopyStack i s) = w at hsame
  have hm : SameStore w.2 (setBit (stkBlk i 0) 2 w.2) :=
    SameStore.of (setBit_mem _ _ _) fun j => stackFailed_setBit i 2 j w.2 (le_refl 2)
  have hbit : bit (getReg (setBit (stkBlk i 0) 2 w.2) (stkBlk i 0)) 2 = true := by
    rw [setBit_getReg, if_pos rfl]
    exact bit_or_self _ 2 (by decide)
  generalize setBit (stkBlk i 0) 2 w.2 = m at hm hbit
  have ho := ((setDict_only (dkey 0x3000 0x02) (getDict w.2 (dkey 0x3000 0x02) ||| 1#64 <<< i) m).mono
    (ks := [.dict, .sat, .ledger, .host, .logs, .wearS, .free]) (by decide)).trans (doneSwap_only 5 (i / 6) (i % 6) w.1 15 _)
  refine ⟨?_, fun x => ?_⟩
  · rw [getReg_congr (ho.regs (by decide))]
    exact hbit
  · rw [peek_congr (ho.mem (by decide)) (ho.regs (by decide))]
    exact (hsame.trans hm).peekByte x

theorem stkBlk_inj {i j : StackId} (h : stkBlk i.val 0 = stkBlk j.val 0) : i = j := by
  have hi := i.isLt
  have hj := j.isLt
  unfold stkBlk ctlBase at h
  exact Fin.ext (by omega)

/-- The registers and the events of a stack that is marked failed, in training or not. -/
theorem failStack_marks (i : Nat) (training : Bool) (s : State) :
    let n := failStack i training s
    n.regs = (setReg (stkBlk i 0) (setFld (getReg s (stkBlk i 0)) 0 2 2) s).regs ∧
    (training = true → getDict n (dkey 0x2000 0x02) = 2) ∧
    (post 0x0601 16 (i + 32 * b2n training) s).host.posted <+: n.host.posted := by
  unfold failStack
  dsimp only
  have ho := ((setReg_only (stkBlk i 0) (setFld (getReg s (stkBlk i 0)) 0 2 2) s).mono (ks := [.regs, .dict]) (by decide)).step
    (setDict_only (dkey 0x3000 0x01) (getDict s (dkey 0x3000 0x01) &&& ~~~(1#64 <<< i)) _) (by decide)
  have hr := (setDict_only (dkey 0x3000 0x01) (getDict s (dkey 0x3000 0x01) &&& ~~~(1#64 <<< i))
    (setReg (stkBlk i 0) (setFld (getReg s (stkBlk i 0)) 0 2 2) s)).regs (by decide)
  generalize setDict _ _ (setReg _ _ s) = s1 at ho hr
  rw [← hr, ← post_posted_congr (s := s) (t := s1) (congrArg (·.posted) (ho.host (by decide))) (ho.clients (by decide)) (ho.tick (by decide))]
  cases training with
  | true => exact ⟨(stageFault_regs 2 _).trans (post_regs _ _ _ _), fun _ => stageFault_dict 2 _, stageFault_posted 2 _⟩
  | false => exact ⟨(abortAll_regs _ _ _).trans (post_regs _ _ _ _), fun h => absurd h Bool.false_ne_true, by
      rw [if_neg Bool.false_ne_true, abortAll_host]⟩

/-- Memory of a failed stack: nothing is stored there, and reads are poisoned (R333). -/
theorem failed_dead {s : State} {i x : Nat} (hf : stackFailed s i = true) (hx : regionOf x = .stack i) :
    s.storable x = false ∧ (s.peek x).2 = true := by
  have hd : deadWord s (x / 8) = true := by
    unfold deadWord
    rw [regionOf_word, hx]
    exact hf
  refine ⟨?_, ?_⟩
  · unfold State.storable
    rw [hx]
    show (!stackFailed s i) = false
    rw [hf]
    rfl
  · unfold State.peek peekWord
    rw [if_pos hd]

/-- STACK_FAILED of a stack that is not failed yet. -/
theorem stackFailed_marks (i : StackId) (training : Bool) {s : State} (hf : stackFailed s i.val = false) :
    ∃ n, exec (.stackFailed i training) s = .next n ∧ stackFailed n i.val = true ∧
      (∀ j : StackId, j ≠ i → stackFailed n j.val = stackFailed s j.val) ∧
      (∀ x, regionOf x = .stack i.val → n.storable x = false ∧ (n.peek x).2 = true) ∧
      (training = true → getDict n (dkey 0x2000 0x02) = 2) ∧
      (post 0x0601 16 (i.val + 32 * b2n training) s).host.posted <+: n.host.posted := by
  have hx : exec (.stackFailed i training) s = .next (failStack i.val training s) := by
    show execStackFailed i training s = _
    unfold execStackFailed
    rw [if_neg (by rw [hf]; exact Bool.false_ne_true)]
  obtain ⟨hregs, hstage, hpost⟩ := failStack_marks i.val training s
  generalize failStack i.val training s = n at hx hregs hstage hpost
  have hreg : ∀ a, getReg n a = if a = stkBlk i.val 0 then setFld (getReg s (stkBlk i.val 0)) 0 2 2 else getReg s a :=
    fun a => (getReg_congr hregs a).trans (getReg_setReg s _ _ _)
  have hi : stackFailed n i.val = true := by
    unfold stackFailed
    rw [hreg, if_pos rfl, fld_setFld_low _ _ _ (by decide)]
    rfl
  refine ⟨n, hx, hi, fun j hj => ?_, fun x => failed_dead hi, hstage, hpost⟩
  unfold stackFailed
  rw [hreg, if_neg fun h => hj (stkBlk_inj h)]

section
variable {off len a : Nat} {data : List Byte} {s : State} (hs : s.start.sketched = true) (ha : bar2Addr s off = some a)
include hs ha

/-- What the host reads through BAR2: the bytes, or all ones with EP where one is poisoned (R338). -/
theorem bar2Access_reads (hl : off + len ≤ 2 ^ 36) : ∃ n, exec (.bar2Access off false len data) s = .next n ∧
    let bs := (List.range len).map fun i => s.peek (a + i)
    (∀ x, n.peek x = s.peek x) ∧ n.host.ep = anyPoison bs ∧
    n.host.bar2 = (if anyPoison bs then List.replicate len 0xFF else plain bs) := by
  have hx : exec (.bar2Access off false len data) s = .next (bar2Read off len s) := by
    show execBar2Access off false len data s = _
    unfold execBar2Access
    rw [if_neg, if_neg Bool.false_ne_true]
    rintro (h | h)
    · exact h hs
    · exact absurd hl (Nat.not_le.2 h)
  refine ⟨_, hx, ?_⟩
  unfold bar2Read
  rw [ha]
  dsimp only
  have hval := readMem_val 16 false a len s
  have hsame := readMem_same 16 false a len s
  rw [hval]
  generalize (readMem 16 false a len s).2 = t at hsame
  generalize (List.range len).map (fun i => s.peek (a + i)) = bs
  cases hb : anyPoison bs <;> exact ⟨fun x => (peek_congr (s := t) rfl rfl x).trans (hsame.peekByte x), rfl, rfl⟩

/-- What the host writes through BAR2 is stored as any write to memory is. -/
theorem bar2Access_writes (hl : off + data.length ≤ 2 ^ 36) : ∃ n, exec (.bar2Access off true len data) s = .next n ∧
    n = s.access n ∧ ∀ x, n.peek x = written s a data x := by
  have hx : exec (.bar2Access off true len data) s = .next (writeMem 16 a data s) := by
    show execBar2Access off true len data s = _
    unfold execBar2Access
    rw [if_neg, if_pos rfl, ha]
    rintro (h | h)
    · exact h hs
    · exact absurd hl (Nat.not_le.2 h)
  exact ⟨_, hx, writeMem_access 16 a data s, fun x => (writeMem_peek_storable 16 a data s x).1⟩

end

theorem addressError_unassigned {a : Nat} (write : Bool) (s : State) (h : assigned a = false) :
    exec (.addressError a write) s = .next (post 0x0204 16 (a % 2 ^ 44) (if write then s
      else { s with ports := mset [] s.ports hostPort (List.replicate 8 (0, false)) })) := by
  show execAddressError a write s = _
  unfold execAddressError
  rw [if_neg (by rw [h]; exact Bool.false_ne_true)]
  rfl

/-- Settles O24: the two scrubs, spares, failures, unassigned addresses, BAR2. -/
theorem scrubbingAndMemoryFaults : Obligations.ScrubbingAndMemoryFaults := by
  unfold Obligations.ScrubbingAndMemoryFaults
  refine ⟨fun d bank line u s => ?_, fun i group u s => ?_,
    fun i s hb hf => ⟨_, rfl, spareStackDie_spares hb hf⟩, fun i training s hf => stackFailed_marks i training hf,
    fun a write s h => addressError_unassigned write s h,
    fun off data len a s hs ha => ⟨bar2Access_reads hs ha, bar2Access_writes hs ha⟩⟩
  · intro s0 a hon
    exact ⟨_, congrArg Host.Outcome.next (if_neg hon), scrub_reads (a / 8) 8 s0⟩
  · intro s0 k0 hf
    exact ⟨_, congrArg Host.Outcome.next (if_neg (by rw [hf]; exact Bool.false_ne_true)), scrub_reads k0 32 s0⟩

end Sys2Proof.Machine
end

section
/-! Power, trips and cold resets (R390, R399 to R401, R441, R442, R447). -/

namespace Sys2Proof.Machine

/-- What every reset from power-on to cold leaves: engines, clients, registers and Catalog empty; the host's memory, the flash, the
queue and the free values as they are. -/
def LeftBare (s n : State) : Prop :=
  n.regs = [] ∧ n.shadow = [] ∧ n.banks = {} ∧ n.plates = {} ∧ n.tiles = [] ∧ n.units = {} ∧
    n.clients = [] ∧ n.fabric = {} ∧ n.rot = {} ∧ n.arbs = [] ∧ n.served = [] ∧ n.ports = [] ∧ n.wear = [] ∧ n.mail = {} ∧
    n.cat.ents = [] ∧ n.cat.staging = [] ∧ n.cat.commits = [] ∧ n.host.fetched = [] ∧
    n.host.mem = s.host.mem ∧ n.start.flash = s.start.flash ∧ n.pending = s.pending ∧ n.free = s.free

/-- What a loss of power leaves: memory, Catalog, Ledger and tick are gone too, and the entries but for the lasting ones. -/
def LeftUnpowered (s n : State) : Prop :=
  LeftBare s n ∧ n.host.posted = [] ∧ n.mem = {} ∧ n.cat = {} ∧ n.ledger = [] ∧ n.tick = 0 ∧ n.start.good = false ∧
    n.start.resetNow = 1 ∧ stageOf n = 1 ∧ ∀ k, k ∉ lastingEntries → getDict n k = dictDefault k

theorem downState_bare (power : Bool) (s : State) : LeftBare s (downState power s) := by
  refine ⟨rfl, rfl, rfl, rfl, rfl, rfl, rfl, rfl, rfl, rfl, rfl, rfl, rfl, rfl, ?_, ?_, ?_, rfl, rfl, rfl, rfl, rfl⟩ <;>
    cases power <;> rfl

theorem downState_unpowered (s : State) : LeftUnpowered s (downState true s) :=
  ⟨downState_bare true s, rfl, rfl, rfl, rfl, rfl, rfl, rfl, downState_stage true s,
    fun k hk => (downState_dict true s k).trans (if_neg hk)⟩

/-- Recording a reset leaves what it left. -/
theorem LeftBare.noteReset {s n : State} (kind : Nat) (h : LeftBare s n) : LeftBare s (noteReset kind n) := by
  have ho := noteReset_only kind n
  have hh := noteReset_hostKept kind n
  unfold LeftBare at h ⊢
  rw [ho.regs (by decide), ho.shadow (by decide), ho.banks (by decide), ho.plates (by decide), ho.tiles (by decide),
    ho.units (by decide), ho.clients (by decide), ho.fabric (by decide), ho.rot (by decide), ho.arbs (by decide),
    ho.served (by decide), ho.ports (by decide), ho.wear (by decide), ho.mail (by decide), ho.cat (by decide),
    ho.start (by decide), ho.pending (by decide), ho.free (by decide), hh.fetched, hh.mem]
  exact h

/-- The rails off, from a state with the host's memory, the flash, the queue and the free values of s. -/
theorem railsOff_unpowered {s y : State} (hm : y.host.mem = s.host.mem) (hf : y.start.flash = s.start.flash)
    (hp : y.pending = s.pending) (hr : y.free = s.free) :
    LeftUnpowered s (railsOff y) ∧ (railsOff y).start.rails = false := by
  obtain ⟨⟨b1, b2, b3, b4, b5, b6, b7, b8, b9, b10, b11, b12, b13, b14, b15, b16, b17, b18, -, -, -, -⟩, hlost⟩ :=
    downState_unpowered y
  exact ⟨⟨⟨b1, b2, b3, b4, b5, b6, b7, b8, b9, b10, b11, b12, b13, b14, b15, b16, b17, b18, hm, hf, hp, hr⟩, hlost⟩, rfl⟩

section
variable {s : State}

theorem powerSequence_raises {vin ms : Nat} (h1 : 47500 ≤ vin) (h2 : vin ≤ 54000) (h3 : 10 ≤ ms) (ht : s.start.tripped = false)
    (hg : s.start.good = false) : exec (.powerSequence vin ms) s =
      .next { s with start := { s.start with rails := true, good := true, goodTick := s.tick } } := by
  have hn : ¬ (vin < 47500 ∨ ms < 10 ∨ s.start.tripped = true ∨ s.start.good = true) := by
    rw [ht, hg]
    simp only [Bool.false_eq_true, or_self, or_false]
    omega
  show execPowerSequence vin ms s = _
  unfold execPowerSequence
  rw [if_neg (Nat.not_lt.2 h2), if_neg hn]

/-- A trip counts, leaves its cause and the tick in the controller's record, and switches the rails off (R442). -/
theorem protectiveTrip_trips {thermal current : Bool} (hc : (thermal || current) = true) (hr : s.start.rails = true) :
    ∃ n, exec (.protectiveTrip thermal current) s = .next n ∧ LeftUnpowered s n ∧ n.start.rails = false ∧ n.start.tripped = true ∧
      n.start.tripNote = some (b2n thermal + 2 * b2n current, s.tick % 2 ^ 40) ∧
      getDict n (dkey 0x2100 0x0E) = countUp 16 (getDict s (dkey 0x2100 0x0E)) 1 := by
  let s1 := bumpDictW 16 (dkey 0x2100 0x0E) 1 s
  let y : State := { s1 with start := { s1.start with
    tripped := true, tripNote := some (b2n thermal + 2 * b2n current, s.tick % 2 ^ 40) } }
  have hx : exec (.protectiveTrip thermal current) s = .next (railsOff y) := by
    show execProtectiveTrip thermal current s = _
    unfold execProtectiveTrip
    rw [if_neg]
    rw [hr]
    revert hc
    cases thermal <;> cases current <;> decide
  have ho := bumpDictW_only 16 (dkey 0x2100 0x0E) 1 s
  obtain ⟨hlost, hrails⟩ := railsOff_unpowered (s := s) (y := y) (bumpDictW_hostKept 16 (dkey 0x2100 0x0E) 1 s).mem
    (congrArg (·.flash) (ho.start (by decide))) (ho.pending (by decide)) (ho.free (by decide))
  refine ⟨_, hx, hlost, hrails, rfl, rfl, ?_⟩
  have hd : getDict (railsOff y) (dkey 0x2100 0x0E) = getDict y (dkey 0x2100 0x0E) :=
    (downState_dict true y _).trans (if_pos (by decide))
  rw [hd]
  exact (bumpDictW_getDict 16 _ 1 _ s).trans (if_pos rfl)

theorem exec_coldReset : exec .coldReset s = .next (coldReset s) ∧ exec .resetReqCold s = .next (coldReset s) := ⟨rfl, rfl⟩

/-- The entries after a cold reset: it is recorded, and those that are neither lasting nor counted since Ground have their
defaults (R399, R401). -/
theorem coldReset_entries (k : Nat) : getDict (noteReset 2 (downState false s)) k =
    if k = dkey 0x2000 0x09 then countUp 32 (getDict s k) 1
    else if k = dkey 0x2000 0x08 then 2
    else if k ∈ lastingEntries ++ groundEntries then getDict s k else dictDefault k := by
  rw [noteReset_dict, downState_dict]
  by_cases h : k = dkey 0x2000 0x09
  · subst h
    rw [if_pos rfl, if_pos rfl, if_pos (by decide)]
  · rw [if_neg h, if_neg h]
    rfl

/-- A cold reset that none as strong holds off (R399 to R401). -/
theorem coldReset_resets (hr : s.start.rails = true) (hn : ¬ (s.start.resetNow ≠ 0 ∧ s.start.resetNow ≤ 2)) :
    ∃ n, exec .coldReset s = .next n ∧ exec .resetReqCold s = .next n ∧ LeftBare s n ∧ n.mem = s.mem ∧ n.tick = s.tick ∧
      n.start.rails = true ∧ n.start.good = s.start.good ∧ n.start.resetNow = 2 ∧ stageOf n = 1 ∧
      n.cat.epochs = allIds.foldl (fun m i => mupd 0 m i (· + 1)) s.cat.epochs ∧
      getDict n (dkey 0x2000 0x08) = 2#64 ∧ getDict n (dkey 0x2000 0x09) = countUp 32 (getDict s (dkey 0x2000 0x09)) 1 ∧
      ∀ k, k ∉ lastingEntries → k ∉ groundEntries → k ≠ dkey 0x2000 0x08 → getDict n k = dictDefault k := by
  have hgo : coldReset s = noteReset 2 (downState false s) := askReset_go hr hn
  obtain ⟨hcold, hreq⟩ := exec_coldReset (s := s)
  have ho := noteReset_only 2 (downState false s)
  have hstart : (noteReset 2 (downState false s)).start = (downState false s).start := ho.start (by decide)
  refine ⟨noteReset 2 (downState false s), hgo ▸ hcold, hgo ▸ hreq, (downState_bare false s).noteReset 2, ho.mem (by decide),
    ho.tick (by decide), ?_, ?_, ?_, ?_, ?_, ?_, ?_, fun k h1 h2 h3 => ?_⟩
  · rw [hstart]; exact hr
  · rw [hstart]; exact Bool.true_and _
  · rw [hstart]; rfl
  · unfold stageOf
    rw [noteReset_dict, if_neg (by decide), if_neg (by decide)]
    exact downState_stage false s
  · rw [ho.cat (by decide)]; exact downState_epochs s
  · rw [coldReset_entries, if_neg (by decide), if_pos rfl]
    rfl
  · rw [coldReset_entries, if_pos rfl]
  · rw [coldReset_entries, if_neg, if_neg h3, if_neg]
    · simp only [List.mem_append, not_or]
      exact ⟨h1, h2⟩
    · rintro rfl
      exact h2 (by decide)

/-- A cold reset while one as strong is in progress is counted, and does nothing else (R400). -/
theorem coldReset_absorbed (hr : s.start.rails = true) (h0 : s.start.resetNow ≠ 0) (hk : s.start.resetNow ≤ 2) :
    ∃ n, exec .coldReset s = .next n ∧ exec .resetReqCold s = .next n ∧
      getDict n (dkey 0x2000 0x09) = countUp 32 (getDict s (dkey 0x2000 0x09)) 1 ∧
      (∀ k, k ≠ dkey 0x2000 0x09 → getDict n k = getDict s k) ∧ Only [.dict, .sat, .host, .logs] s n := by
  have habs : coldReset s = bumpDictW 32 (dkey 0x2000 0x09) 1 s := askReset_absorbed hr h0 hk
  obtain ⟨hcold, hreq⟩ := exec_coldReset (s := s)
  exact ⟨_, habs ▸ hcold, habs ▸ hreq, (bumpDictW_getDict _ _ _ _ _).trans (if_pos rfl),
    fun k h => (bumpDictW_getDict _ _ _ _ _).trans (if_neg h), bumpDictW_only _ _ _ _⟩

theorem coldReset_off (hr : s.start.rails = false) : exec .coldReset s = .next s ∧ exec .resetReqCold s = .next s := by
  have hoff : coldReset s = s := askReset_off hr
  have hx := exec_coldReset (s := s)
  rwa [hoff] at hx

end

/-- Settles O31: power-up, the three losses of power, the release, the cold resets. -/
theorem powerAndColdReset : Obligations.PowerAndColdReset := by
  unfold Obligations.PowerAndColdReset
  intro s bare lost
  refine ⟨fun vin ms h1 h2 h3 ht hg => ⟨_, powerSequence_raises h1 h2 h3 ht hg, rfl, only_start _ s⟩,
    fun hg => ⟨_, congrArg Host.Outcome.next (if_pos hg), downState_unpowered s, rfl⟩,
    ⟨_, rfl, railsOff_unpowered rfl rfl rfl rfl⟩, fun thermal current => protectiveTrip_trips,
    ⟨_, rfl, rfl, only_start _ s⟩, coldReset_resets, coldReset_absorbed, coldReset_off⟩

end Sys2Proof.Machine
end

section
/-! Wear triggers, spare swaps, fuses and the error log (R426, R428, R433 to R437, R439). -/

namespace Sys2Proof.Machine

/-! ### Triggers (R434 to R436) -/

/-- A wear trigger is due: the firmware runs, the count has reached its threshold, its swap is not queued, and a failed port has a
standby (R434 to R436). -/
def WearDue (s : State) (k : WearIn) : Prop :=
  s.start.firmware = true ∧ k.kind < 10 ∧ wearThreshold s k.kind ≤ wearCount s k ∧ swapQueued s (wearSwap s k) = false ∧
    (k.kind = 8 → portState s (wearSwap s k).unit = 4 ∧ standbyFor s (wearSwap s k).unit ≠ none)

theorem not_wearDue_iff (s : State) (k : WearIn) : ¬ WearDue s k ↔
    (¬ s.start.firmware = true ∨ 10 ≤ k.kind ∨ wearCount s k < wearThreshold s k.kind ∨ swapQueued s (wearSwap s k) = true ∨
      (k.kind = 8 ∧ (portState s (wearSwap s k).unit ≠ 4 ∨ standbyFor s (wearSwap s k).unit = none))) := by
  unfold WearDue
  simp only [not_and_or, Classical.not_imp, Nat.not_lt, Nat.not_le, Bool.not_eq_false, ne_eq, not_not]

/-- The state in which a due trigger finds its spare or not: a free value drawn, the event posted. -/
def wearPosted (s : State) (k : WearIn) : State :=
  post 0x0102 16 (wearDetail s k (fresh s).1 + 16 * k.die.val + 2 ^ 16 * (wearCount s k % 2 ^ 32)) (fresh s).2

theorem wearPosted_only (s : State) (k : WearIn) : Only [.free, .host, .logs] s (wearPosted s k) :=
  ((fresh_only s).mono (by decide)).step (post_only _ _ _ _) (by decide)

/-- Whether a spare is left does not depend on events and free values. -/
theorem spareLeft_congr {s t : State} (h : Only [.free, .host, .logs] s t) (w : Swap) : spareLeft t w = spareLeft s w := by
  have hd : ∀ k, getDict t k = getDict s k := getDict_congr (h.dict (by decide))
  have hr : ∀ a, getReg t a = getReg s a := getReg_congr (h.regs (by decide))
  have hb : t.banks = s.banks := h.banks (by decide)
  have hw : t.wearS = s.wearS := h.wearS (by decide)
  unfold spareLeft standbyFor portState peerMod dictNat
  simp only [hd, hr, hb, hw]

theorem wearTrigger_notDue {s : State} {k : WearIn} (h : ¬ WearDue s k) : exec (.wearTrigger k) s = .next s :=
  congrArg Host.Outcome.next (if_pos ((not_wearDue_iff s k).1 h))

theorem wearTrigger_due {s : State} {k : WearIn} (h : WearDue s k) : exec (.wearTrigger k) s = .next (
    if getDict s (dkey 0x8000 0x04) = 0 then wearPosted s k
    else if spareLeft s (wearSwap s k) then queueSwap (wearSwap s k) (wearPosted s k)
    else noSpare (wearSwap s k).kind (wearSwap s k).die.val (wearSwap s k).unit (wearSwap s k).item (wearPosted s k)) := by
  rw [← spareLeft_congr (wearPosted_only s k), ← getDict_congr ((wearPosted_only s k).dict (by decide))]
  exact congrArg Host.Outcome.next (if_neg fun hn => (not_wearDue_iff s k).2 hn h)

theorem wearTrigger_effect {s : State} {k : WearIn} (h : WearDue s k) :
    let w := wearSwap s k
    ∃ x y n, exec (.wearTrigger k) s = .next n ∧ Only [.free] s y ∧
      let z := post 0x0102 16 (wearDetail s k x + 16 * k.die.val + 2 ^ 16 * (wearCount s k % 2 ^ 32)) y
      (getDict s (dkey 0x8000 0x04) = 0 → n = z) ∧
      (getDict s (dkey 0x8000 0x04) ≠ 0 → spareLeft s w = false → SpareGone w.kind w.die.val w.unit w.item z n) ∧
      (getDict s (dkey 0x8000 0x04) ≠ 0 → spareLeft s w = true →
        n = { z with wearS := if w.kind = 6 then { s.wearS with rows := s.wearS.rows ++ [w] } else { s.wearS with queue := s.wearS.queue ++ [w] } }) := by
  intro w
  refine ⟨(fresh s).1, (fresh s).2, _, wearTrigger_due h, fresh_only s, fun h0 => if_pos h0, fun h0 hn => ?_, fun h0 hl => ?_⟩
  · rw [if_neg h0, if_neg (by rw [hn]; exact Bool.false_ne_true)]
    exact noSpare_gone _ _ _ _ _
  · rw [if_neg h0, if_pos hl]
    unfold queueSwap
    by_cases h6 : w.kind = 6
    · rw [if_pos h6, if_pos h6]; rfl
    · rw [if_neg h6, if_neg h6]; rfl

/-! ### Swaps (R433) -/

/-- The tile map after a physical tile that serves logical tile t has given way to another. -/
theorem mapTile_found {d frm dst t : Nat} {s : State}
    (h : (List.range 16).find? (fun t => decide (physTile s d t = frm)) = some t) (u : Nat) :
    physTile (mapTile d frm dst s) d u = if u = t then dst else physTile s d u := by
  have hx : mapTile d frm dst s = { clearEntryBit (dkey 0x8000 0x0C) d s with
      start := { s.start with tileMap := mset t s.start.tileMap (16 * d + t) dst } } := by
    unfold mapTile
    dsimp only
    simp only [h]
    rfl
  rw [hx]
  show mget u (mset t s.start.tileMap (16 * d + t) dst) (16 * d + u) = _
  by_cases hut : u = t
  · rw [hut, mget_mset_same, if_pos rfl]
  · rw [mget_mset_ne _ _ _ _ (by omega), if_neg hut]
    rfl

theorem mapTile_only (d frm dst : Nat) (s : State) : Only [.dict, .start] s (mapTile d frm dst s) :=
  (mapTile_kept d frm dst (Kept.rfl' s) (by decide)).only

theorem doneSwap_getDict (kind die unit frm dst : Nat) {k : Nat} (s : State)
    (h : k ∉ [dkey 0x8000 0x02, dkey 0x8000 0x03, dkey 0x8000 0x0F]) :
    getDict (doneSwap kind die unit frm dst s) k = getDict s k := by
  have ht : (takeSwap kind die unit frm s).2.dict = s.dict :=
    (takeSwap_kept kind die unit frm (Kept.rfl' s) (ks := [.wearS, .free]) (by decide)).only.dict (by decide)
  exact (recordSwap_getDict' _ _ _ _ _ _ _ _ _ h).trans (getDict_congr ht k)

theorem StageSame.resetNoted {kind : Nat} {s m n : State} (h : ResetNoted kind s m) (k : StageSame m n) : ResetNoted kind s n := by
  obtain ⟨h8, h9, hstage⟩ := h
  refine ⟨(k _ (by decide)).trans h8, (k _ (by decide)).trans (by rw [h9]), ?_⟩
  rw [← hstage]
  unfold stageOf
  rw [k _ (by decide)]

/-- A tile's swap can be performed: no step on its die, a spare left, and a logical tile that the physical one serves (R433). -/
def TileReady (s : State) (d : DieId) (p : Nat) : Prop :=
  stepOnDie s d.val = false ∧ bit (getDict s (dkey 0x8000 0x0C)) d.val = true ∧ ∃ t, t < 16 ∧ physTile s d.val t = p

theorem swapTile_notReady {s : State} {d : DieId} {p : Nat} (h : ¬ TileReady s d p) : swapTile d p s = s := by
  unfold swapTile
  by_cases hc : stepOnDie s d.val = false ∧ bit (getDict s (dkey 0x8000 0x0C)) d.val = true
  · have hf : (List.range 16).find? (fun t => decide (physTile s d.val t = p)) = none := by
      rw [List.find?_eq_none]
      intro t ht hp
      exact h ⟨hc.1, hc.2, t, List.mem_range.1 ht, of_decide_eq_true hp⟩
    rw [if_neg (by rw [hc.1, hc.2]; decide), hf]
  · rw [if_pos]
    revert hc
    cases stepOnDie s d.val <;> cases bit (getDict s (dkey 0x8000 0x0C)) d.val <;> decide

/-- A tile's swap: the tile is reset, the spare serves in its place, and the swap is recorded (R399, R433). -/
theorem swapTile_swaps {s : State} {d : DieId} {p : Nat} (h : TileReady s d p) :
    let n := swapTile d p s
    ∃ y, SwapDone 3 d.val p p 16 y n ∧
      (∃ t, t < 16 ∧ physTile s d.val t = p ∧ (∀ u, u < 16 → physTile n d.val u = if u = t then 16 else physTile s d.val u) ∧
        ∀ j : TileId, j.val = 16 * d.val + t → getTile n j = {}) ∧
      bit (getDict n (dkey 0x8000 0x0C)) d.val = false ∧ ResetNoted 5 s n ∧ y.wearS = s.wearS ∧
      Only [.dict, .sat, .cat, .plates, .tiles, .units, .clients, .fabric, .host, .logs, .start, .wearS, .free] s n := by
  obtain ⟨hstep, hspare, t0, ht0, hp0⟩ := h
  obtain ⟨t, hfind⟩ : ∃ t, (List.range 16).find? (fun t => decide (physTile s d.val t = p)) = some t := by
    cases hf : (List.range 16).find? (fun t => decide (physTile s d.val t = p)) with
    | some t => exact ⟨t, rfl⟩
    | none => exact absurd (decide_eq_true hp0) (List.find?_eq_none.1 hf t0 (List.mem_range.2 ht0))
  have ht : t < 16 := List.mem_range.1 (List.mem_of_find?_eq_some hfind)
  have hd := d.isLt
  let j : TileId := ⟨16 * d.val + t, by omega⟩
  intro n
  have hn : n = doneSwap 3 d.val p p 16 (mapTile d.val p 16 (tileReset j s)) := swapTile_ready d p s t hstep hspare hfind j rfl
  obtain ⟨htile, -, -, -, hnoted, hreset⟩ := tileReset_spec j s
  obtain ⟨hbit, hdict, -, -⟩ := mapTile_spec d.val p 16 hd (tileReset j s)
  have hphys : ∀ u, physTile (tileReset j s) d.val u = physTile s d.val u := fun u => by
    unfold physTile
    rw [hreset.start (by decide)]
  have hfind' : (List.range 16).find? (fun t => decide (physTile (tileReset j s) d.val t = p)) = some t := by
    simpa only [hphys] using hfind
  have hmap := mapTile_found (dst := 16) hfind'
  have hmo := mapTile_only d.val p 16 (tileReset j s)
  generalize mapTile d.val p 16 (tileReset j s) = y at hn hbit hdict hmap hmo
  have hdo := doneSwap_only 3 d.val p p 16 y
  have hdone := doneSwap_done 3 d.val p p 16 y
  have hstage := doneSwap_stage 3 d.val p p 16 y
  have hkeys := doneSwap_getDict 3 d.val p p 16 y (k := dkey 0x8000 0x0C) (by decide)
  have hdk := (doneSwap_kept 3 d.val p p 16 (Kept.rfl' y) (ks := [.dict, .sat, .host, .logs, .wearS, .free]) (by decide)).only
  rw [← hn] at hdo hdone hstage hkeys hdk
  have hp := List.find?_some hfind
  refine ⟨y, hdone, ⟨t, ht, of_decide_eq_true hp, fun u hu => ?_, fun i hi => ?_⟩, ?_, ?_, ?_, ?_⟩
  · have hstart : physTile n d.val u = physTile y d.val u := by
      unfold physTile
      rw [hdo.start (by decide)]
    rw [hstart, hmap u, hphys]
  · rw [Fin.ext (hi.trans rfl : i.val = j.val), getTile_congr (hdo.tiles (by decide)), getTile_congr (hmo.tiles (by decide))]
    exact htile
  · rw [hkeys]; exact hbit
  · exact (StageSame.trans (fun k hk => hdict k (by rintro rfl; exact absurd hk (by decide))) hstage).resetNoted hnoted
  · rw [hmo.wearS (by decide), hreset.wearS (by decide)]
  · exact ((hreset.mono (by decide)).step hmo (by decide)).step hdk (by decide)

theorem spareSwap_none {s : State} {k : Nat} (h : s.wearS.queue[k]? = none) : exec (.spareSwap k) s = .next s := by
  show execSpareSwap k s = _
  unfold execSpareSwap
  rw [h]

/-- What SPARE_SWAP does with the queue's k-th swap, by its kind (R433, R435). -/
theorem spareSwap_some {s : State} {k : Nat} {w : Swap} (h : s.wearS.queue[k]? = some w) :
    (w.kind = 3 → exec (.spareSwap k) s = .next (swapTile w.die w.item s)) ∧
    (w.kind = 4 → (∀ b, bankServed s w.die.val w.item = some b → exec (.spareSwap k) s = exec (.bankReplace w.die b) s) ∧
      (bankServed s w.die.val w.item = none → exec (.spareSwap k) s = .next s)) ∧
    (w.kind = 5 → ∀ i : StackId, i.val = 6 * w.die.val + w.unit → exec (.spareSwap k) s = exec (.stackDieSpare i) s) ∧
    (w.kind = 7 → ∀ p : PortId, p.val = w.unit → exec (.spareSwap k) s = exec (.laneSwap p w.item) s) ∧
    (w.kind = 8 → ∀ p : PortId, p.val = w.item → exec (.spareSwap k) s = exec (.portRemap p) s) ∧
    (w.kind ∉ [3, 4, 5, 7, 8] → exec (.spareSwap k) s = .next s) := by
  have hx : exec (.spareSwap k) s = execSpareSwap k s := rfl
  unfold execSpareSwap at hx
  rw [h] at hx
  dsimp only at hx
  rw [hx]
  refine ⟨fun hk => by simp only [hk], fun hk => ⟨fun b hb => ?_, fun hb => by simp only [hk, hb]⟩, fun hk i hi => ?_,
    fun hk p hp => ?_, fun hk p hp => ?_, fun hk => ?_⟩
  · simp only [hk, hb]
    rfl
  · simp only [hk, ← hi]
    rfl
  · have hlt : w.unit < 32 := hp ▸ p.isLt
    simp only [hk, dif_pos hlt, show (⟨w.unit, hlt⟩ : PortId) = p from Fin.ext hp.symm]
    rfl
  · simp only [hk]
    exact (remapPort_wanted p s w (List.mem_of_getElem? h) hk hp).symm
  · simp only [List.mem_cons, List.not_mem_nil, or_false, not_or] at hk
    obtain ⟨h3, h4, h5, h7, h8⟩ := hk
    split
    case h_6 => rfl
    all_goals contradiction

/-! ### Fuses (R426, R437) -/

theorem pendingRepair_some {s : State} {e : Nat} {r : Errata} (h : s.wearS.errata[e]? = some r) :
    pendingRepair s e = if r.pending = true then some r else none := by
  unfold pendingRepair
  rw [h]
  exact Option.filter_some

theorem fuseAllowed_iff (s : State) : fuseAllowed s = true ↔
    (∀ x ∈ s.clients, x.2.state = 0) ∧ (stageOf s = 2 ∨ stageOf s = 3) ∧
      48000 ≤ (getDict s (dkey 0x2100 0x01)).toNat ∧ (getDict s (dkey 0x2100 0x01)).toNat ≤ 54000 ∧
      10 ≤ (getDict s (dkey 0x2100 0x08)).toNat ∧ (getDict s (dkey 0x2100 0x08)).toNat ≤ 40 := by
  unfold fuseAllowed dictNat
  simp [and_assoc]

/-- What FUSE_BLOW does with a pending repair that the Curator has asked for, or that the Registrar may blow by itself. -/
theorem fuseBlow_pending {s : State} {e : Nat} {ok : Bool} {r : Errata} (h : s.wearS.errata[e]? = some r) (hp : r.pending = true) :
    let free := (getDict s (dkey 0x1000 (0x15 + r.die))).toNat
    let auto := decide (getDict s (dkey 0x8000 0x05) ≠ 0) && fuseAllowed s && s.cur.blow.isNone
    let idle : State := { s with cur := { s.cur with blow := none } }
    (s.cur.blow = some e → exec (.fuseBlow e ok) s = .next (curReply (if ok = true ∧ 0 < free then "OK" else "ERR 0x0000_0010 HARDWARE")
      (if free = 0 then idle else blowFuse e r ok idle))) ∧
    (s.cur.blow ≠ some e → exec (.fuseBlow e ok) s = .next (if auto = true then (if free = 0 then s else blowFuse e r ok s) else s)) := by
  intro free auto idle
  have hpr : pendingRepair s e = some r := by rw [pendingRepair_some h, if_pos hp]
  refine ⟨fun ha => ?_, fun ha => ?_⟩
  · show execFuseBlow e ok s = _
    unfold execFuseBlow
    rw [hpr]
    dsimp only
    rw [decide_eq_true ha, if_neg (by simp), if_neg (by simp), if_pos rfl]
    rfl
  · show execFuseBlow e ok s = _
    unfold execFuseBlow
    rw [hpr]
    dsimp only
    rw [decide_eq_false ha]
    simp only [Bool.false_eq_true, not_false_eq_true, true_and, if_false, if_true]
    by_cases hauto : auto = true
    · rw [if_pos hauto, if_neg (not_not_intro hauto)]
      rfl
    · rw [if_neg hauto, if_pos hauto]

theorem fuseBlow_notPending {s : State} {e : Nat} (ok : Bool) (h : pendingRepair s e = none) : exec (.fuseBlow e ok) s = .next s := by
  show execFuseBlow e ok s = _
  unfold execFuseBlow
  rw [h]

theorem curReply_prints (l : String) (s : State) : Prints [l] s (curReply l s) := by
  unfold Prints curReply curSay
  rfl

/-- Fuses of a known record, as the Curator asks or as the Registrar may. -/
theorem fuseBlow_effect {s : State} {e : Nat} {ok : Bool} {r : Errata} (h : s.wearS.errata[e]? = some r) :
    let asked := s.cur.blow = some e
    let mv := (getDict s (dkey 0x2100 0x01)).toNat
    let inlet := (getDict s (dkey 0x2100 0x08)).toNat
    let auto := getDict s (dkey 0x8000 0x05) ≠ 0 ∧ s.cur.blow = none ∧ (∀ x ∈ s.clients, x.2.state = 0) ∧
      (stageOf s = 2 ∨ stageOf s = 3) ∧ 48000 ≤ mv ∧ mv ≤ 54000 ∧ 10 ≤ inlet ∧ inlet ≤ 40
    let idle : State := { s with cur := { s.cur with blow := none } }
    let free := (getDict s (dkey 0x1000 (0x15 + r.die))).toNat
    ((r.pending = false ∨ ¬ (asked ∨ auto)) → exec (.fuseBlow e ok) s = .next s) ∧
    (r.pending = true → asked → ∃ y n, exec (.fuseBlow e ok) s = .next n ∧ (free = 0 → y = idle) ∧ (free ≠ 0 → Blown e r ok idle y) ∧
      Prints [if ok ∧ 0 < free then "OK" else "ERR 0x0000_0010 HARDWARE"] y n) ∧
    (r.pending = true → ¬ asked → auto → (free = 0 → exec (.fuseBlow e ok) s = .next s) ∧
      (free ≠ 0 → ∃ n, exec (.fuseBlow e ok) s = .next n ∧ Blown e r ok s n)) := by
  intro asked mv inlet auto idle free
  have hauto : (decide (getDict s (dkey 0x8000 0x05) ≠ 0) && fuseAllowed s && s.cur.blow.isNone) = true ↔ auto := by
    rw [Bool.and_eq_true, Bool.and_eq_true, decide_eq_true_eq, fuseAllowed_iff, Option.isNone_iff_eq_none]
    exact ⟨fun ⟨⟨h1, h2⟩, h3⟩ => ⟨h1, h3, h2⟩, fun ⟨h1, h3, h2⟩ => ⟨⟨h1, h2⟩, h3⟩⟩
  refine ⟨fun hn => ?_, fun hp ha => ?_, fun hp ha hau => ?_⟩
  · cases hp : r.pending with
    | false => exact fuseBlow_notPending ok (by rw [pendingRepair_some h, if_neg (by rw [hp]; exact Bool.false_ne_true)])
    | true =>
      have hn' : ¬ (asked ∨ auto) := hn.resolve_left (by rw [hp]; exact Bool.false_ne_true.symm)
      rw [(fuseBlow_pending h hp).2 fun ha => hn' (.inl ha), if_neg fun hau => hn' (.inr (hauto.1 hau))]
  · refine ⟨_, _, (fuseBlow_pending h hp).1 ha, fun h0 => if_pos h0, fun h0 => ?_, curReply_prints _ _⟩
    rw [if_neg h0]
    exact blowFuse_blown e r ok idle
  · have hx := (fuseBlow_pending (ok := ok) h hp).2 ha
    rw [if_pos (hauto.2 hau)] at hx
    refine ⟨fun h0 => hx.trans (congrArg _ (if_pos h0)), fun h0 => ⟨_, hx.trans (congrArg _ (if_neg h0)), blowFuse_blown e r ok s⟩⟩

/-- An entry of the dictionary set by a command that changes no other. -/
theorem setDict_sole (k : Nat) (v : Word) (s : State) : let n := setDict k v s
    getDict n k = v ∧ (∀ j, j ≠ k → getDict n j = getDict s j) ∧ Only [.dict] s n :=
  ⟨(getDict_setDict _ _ _ _).trans (if_pos rfl), fun _ hj => (getDict_setDict _ _ _ _).trans (if_neg hj), setDict_only _ _ _⟩

theorem fuseArm_other {v : Byte} (s : State) (h : v ≠ 0xA5) : exec (.fuseArm v) s = .next s := by
  show Host.Outcome.next (armFuse v.toNat s).2 = _
  unfold armFuse
  have hv : v.toNat ≠ 0xA5 := fun hv => h (BitVec.eq_of_toNat_eq hv)
  rw [if_neg hv]

theorem fuseArm_arms (s : State) : exec (.fuseArm 0xA5) s = .next (setDict (dkey 0xF000 0x05) 1 s) := rfl

/-! ### The error log (R428, R439) -/

/-- Counting changes no record that waits for the error log or stands in it. -/
theorem bumpDict_errorLog (k n : Nat) (s : State) : let t := (bumpDict k n s).logs
    t.errWait = s.logs.errWait ∧ t.errlog = s.logs.errlog ∧ t.second = s.logs.second ∧ t.written = s.logs.written := by
  intro t
  have h : t = { s.logs with evlog := t.evlog, canWait := t.canWait } := bumpDict_logs k n s
  clear_value t
  rw [h]
  exact ⟨rfl, rfl, rfl, rfl⟩

/-- ERROR_LOG_WRITE: what reaches the log, what is dropped, what waits on, and their totals (R428). -/
theorem errorLogWrite_writes (s : State) :
    let l := s.logs.errWait
    let sec := s.tick / 1000000
    let used := if s.logs.second = sec then s.logs.written else 0
    let room := 16 - used
    ∃ (kept wait : List Event) (dropped : Nat) (n : State), exec .errorLogWrite s = .next n ∧
      n.logs.errWait = wait ∧
      n.logs.errlog = (s.logs.errlog ++ kept).drop (s.logs.errlog.length + kept.length - 2048) ∧ n.logs.second = sec ∧
      n.logs.written = used + kept.length ∧
      (l.length ≤ room → kept = l ∧ dropped = 0 ∧ wait = []) ∧ (room ≤ l.length → kept.length = room) ∧
      kept.length + dropped + wait.length = l.length ∧ (∀ e, 4 ≤ e.sev → (kept ++ wait).count e = l.count e) ∧
      (∀ e ∈ wait, 4 ≤ e.sev) ∧ (wait ≠ [] → ∀ e ∈ kept, 4 ≤ e.sev) ∧
      getDict n (dkey 0xA000 0x03) = countUp 64 (getDict s (dkey 0xA000 0x03)) kept.length ∧
      getDict n (dkey 0xA000 0x04) = countUp 64 (getDict s (dkey 0xA000 0x04)) dropped ∧ Only [.dict, .sat, .host, .logs] s n := by
  intro l sec used room
  obtain ⟨hall, hfull, hsum, hcount, hwait, hkept⟩ := pickRecords_spec room l
  let kept := (pickRecords room l).1
  let dropped := (pickRecords room l).2.1
  let wait := (pickRecords room l).2.2
  let s1 : State := { s with logs := { s.logs with errWait := wait, errlog := (s.logs.errlog ++ kept).drop ((s.logs.errlog ++ kept).length - 2048),
                                                   second := sec, written := used + kept.length } }
  let m := bumpDict (dkey 0xA000 0x03) kept.length s1
  let n := bumpDict (dkey 0xA000 0x04) dropped m
  have hx : exec .errorLogWrite s = .next n := rfl
  obtain ⟨hw1, hl1, hs1, hn1⟩ := bumpDict_errorLog (dkey 0xA000 0x03) kept.length s1
  obtain ⟨hw2, hl2, hs2, hn2⟩ := bumpDict_errorLog (dkey 0xA000 0x04) dropped m
  refine ⟨kept, wait, dropped, n, hx, hw2.trans hw1, ?_, hs2.trans hs1, hn2.trans hn1, fun h => ?_, hfull, hsum, hcount, hwait, hkept,
    ?_, ?_, ?_⟩
  · have hs : s1.logs.errlog = (s.logs.errlog ++ kept).drop ((s.logs.errlog ++ kept).length - 2048) := by
      dsimp only [s1]
    have hlen : (s.logs.errlog ++ kept).length = s.logs.errlog.length + kept.length := List.length_append
    have he := hl2.trans (hl1.trans hs)
    rw [hlen] at he
    exact he
  · have hr := hall h
    exact ⟨congrArg (·.1) hr, congrArg (·.2.1) hr, congrArg (·.2.2) hr⟩
  · rw [bumpDict_getDict, if_neg (by decide)]
    exact bumpDict_countUp _ _ s1
  · rw [bumpDict_countUp, bumpDict_getDict, if_neg (by decide)]
    rfl
  · exact (((only_logs _ s).mono (by decide)).step (bumpDict_only _ _ s1) (by decide)).step (bumpDict_only _ _ m) (by decide)

theorem clients_idle_iff (s : State) : s.clients.any (fun x => decide (x.2.state ≠ 0)) = false ↔ ∀ x ∈ s.clients, x.2.state = 0 := by
  simp

theorem errlogClear_spec (v : Byte) (s : State) :
    let idle := v = 0x5A ∧ ∀ x ∈ s.clients, x.2.state = 0
    (¬ idle → exec (.errlogClear v) s = .next s) ∧
    (idle → exec (.errlogClear v) s = .next { s with logs := { s.logs with errlog := [] } }) := by
  intro idle
  have hx : exec (.errlogClear v) s = .next (clearErrlog v.toNat s).2 := rfl
  rw [hx]
  unfold clearErrlog
  refine ⟨fun h => ?_, fun ⟨hv, hc⟩ => ?_⟩
  · by_cases hv : v = 0x5A
    · rw [if_neg (by rw [hv]; decide), if_pos]
      rw [← Bool.not_eq_false, clients_idle_iff]
      exact fun hc => h ⟨hv, hc⟩
    · have hn : v.toNat ≠ 0x5A := fun hn => hv (BitVec.eq_of_toNat_eq hn)
      rw [if_pos hn]
  · rw [if_neg (by rw [hv]; decide), if_neg]
    rw [(clients_idle_iff s).2 hc]
    exact Bool.false_ne_true

/-- Settles O60: triggers, the window, swaps by kind, fuses, the error log. -/
theorem wearAndLogs : Obligations.WearAndLogs := by
  unfold Obligations.WearAndLogs
  intro s
  refine ⟨fun k => ⟨wearTrigger_notDue, wearTrigger_effect⟩, rfl, fun k => ⟨spareSwap_none, fun w hw => ?_⟩, fun e ok => ⟨fun h => ?_, fun r => fuseBlow_effect⟩,
    fun v => ⟨fuseArm_other s, ?_⟩, ⟨_, rfl, setDict_sole _ 0 s⟩, errorLogWrite_writes s, fun v => errlogClear_spec v s⟩
  · obtain ⟨htile, hothers⟩ := spareSwap_some hw
    refine ⟨fun hk => ⟨fun hn => ?_, fun hr => ?_⟩, hothers⟩
    · rw [htile hk, swapTile_notReady hn]
    · obtain ⟨y, hy⟩ := swapTile_swaps hr
      exact ⟨y, _, htile hk, hy⟩
  · exact fuseBlow_notPending ok (by unfold pendingRepair; rw [h]; rfl)
  · rintro rfl
    exact ⟨_, fuseArm_arms s, setDict_sole _ 1 s⟩

end Sys2Proof.Machine
end

section
/-! O44: the streams at work (R201 to R212). The pick of the next stream, a cycle of grants, the return of data, the consuming reads
and the output writes have one section each. -/

namespace Sys2Proof.Machine

/-! ### The pick of the next stream (R208) -/

section LeastTime

variable {f : Nat → Option Int} {g : Option (Nat × Int) → Nat → Option (Nat × Int)}
  (hskip : ∀ n a, f n = none → g a n = a) (hfirst : ∀ n v, f n = some v → g none n = some (n, v))
  (hless : ∀ n v m w, f n = some v → g (some (m, w)) n = if v < w then some (n, v) else some (m, w))

include hskip hfirst hless

/-- A fold that keeps the place of least value, where f gives the values. -/
theorem foldl_least : ∀ (l : List Nat) (a : Option (Nat × Int)),
    (l.foldl g a = none → a = none ∧ ∀ n ∈ l, f n = none) ∧
    ∀ k v, l.foldl g a = some (k, v) → (a = some (k, v) ∨ k ∈ l ∧ f k = some v) ∧ (∀ m w, a = some (m, w) → v ≤ w) ∧
      ∀ j ∈ l, ∀ w, f j = some w → v ≤ w := by
  intro l
  induction l with
  | nil =>
    refine fun a => ⟨fun h => ⟨h, fun n hn => absurd hn List.not_mem_nil⟩, fun k v h => ⟨.inl h, fun m w hm => ?_, fun j hj => absurd hj List.not_mem_nil⟩⟩
    cases h.symm.trans hm
    exact Int.le_refl v
  | cons n l ih =>
    intro a
    obtain ⟨hnone, hsome⟩ := ih (g a n)
    constructor
    · intro h
      obtain ⟨ha, hl⟩ := hnone h
      cases hf : f n with
      | none => exact ⟨(hskip n a hf).symm.trans ha, List.forall_mem_cons.2 ⟨hf, hl⟩⟩
      | some v =>
        cases a with
        | none => rw [hfirst n v hf] at ha; cases ha
        | some p => rw [hless n v p.1 p.2 hf] at ha; split at ha <;> cases ha
    · intro k v h
      obtain ⟨hin, hacc, hl⟩ := hsome k v h
      cases hf : f n with
      | none =>
        rw [hskip n a hf] at hin hacc
        exact ⟨hin.imp_right fun ⟨h1, h2⟩ => ⟨List.mem_cons_of_mem n h1, h2⟩, hacc,
          List.forall_mem_cons.2 ⟨fun w hw => (nomatch hf.symm.trans hw), hl⟩⟩
      | some u =>
        have hhead : v ≤ u → ∀ j ∈ n :: l, ∀ w, f j = some w → v ≤ w := fun hvu =>
          List.forall_mem_cons.2 ⟨fun w hw => (by cases hf.symm.trans hw; exact hvu), hl⟩
        have htail : k ∈ l ∧ f k = some v → k ∈ n :: l ∧ f k = some v := fun ⟨h1, h2⟩ => ⟨List.mem_cons_of_mem n h1, h2⟩
        have hself : some (n, u) = some (k, v) → k ∈ n :: l ∧ f k = some v := fun e => by cases e; exact ⟨List.mem_cons_self, hf⟩
        cases a with
        | none =>
          rw [hfirst n u hf] at hin hacc
          exact ⟨.inr (hin.elim hself htail), fun m w hm => (nomatch hm), hhead (hacc n u rfl)⟩
        | some p =>
          obtain ⟨m, w⟩ := p
          rw [hless n u m w hf] at hin hacc
          split at hin
          case isTrue hlt =>
            rw [if_pos hlt] at hacc
            have hvu := hacc n u rfl
            refine ⟨.inr (hin.elim hself htail), fun m' w' hm => ?_, hhead hvu⟩
            cases hm
            omega
          case isFalse hge =>
            rw [if_neg hge] at hacc
            have hvw := hacc m w rfl
            exact ⟨hin.imp_right htail, hacc, hhead (by omega)⟩

end LeastTime

/-- The pick: a rated stream of least time to exhaustion goes first, a background one where no rated one can use a grant. -/
theorem pickStream_spec (x : StreamS) :
    (∀ k tte, pickStream x = some (k, tte) → k < 64 ∧ (streamGrant x k).isSome = true ∧ tteOf x k = tte ∧
      ∀ j v, j < 64 → (streamGrant x j).isSome = true → tteOf x j = some v → ∃ w, tte = some w ∧ w ≤ v) ∧
    (pickStream x = none → ∀ j, j < 64 → streamGrant x j = none) := by
  have hmem : ∀ j, j ∈ (List.range 64).filter (fun n => (streamGrant x n).isSome) ↔ j < 64 ∧ (streamGrant x j).isSome = true := fun j => by
    rw [List.mem_filter, List.mem_range]
  unfold pickStream
  dsimp only
  generalize (List.range 64).filter (fun n => (streamGrant x n).isSome) = el at hmem ⊢
  generalize hg : (fun (acc : Option (Nat × Int)) n => _) = g
  obtain ⟨hnone, hsome⟩ := foldl_least (f := tteOf x) (g := g) (fun n a h => by subst hg; dsimp only; rw [h])
    (fun n v h => by subst hg; dsimp only; rw [h]) (fun n v m w h => by subst hg; dsimp only; rw [h]) el none
  generalize el.foldl g none = best at hnone hsome ⊢
  cases best with
  | some p =>
    obtain ⟨n, v⟩ := p
    obtain ⟨hin, -, hle⟩ := hsome n v rfl
    obtain ⟨hn, hv⟩ := hin.resolve_left fun h => nomatch h
    refine ⟨fun k tte h => ?_, fun h => nomatch h⟩
    cases h
    exact ⟨((hmem _).1 hn).1, ((hmem _).1 hn).2, hv, fun j w hj hg hw => ⟨v, rfl, hle j ((hmem j).2 ⟨hj, hg⟩) w hw⟩⟩
  | none =>
    obtain ⟨-, hrated⟩ := hnone rfl
    have hbg : el.filter (fun n => (tteOf x n).isNone) = el := List.filter_eq_self.2 fun n hn => by rw [hrated n hn]; rfl
    dsimp only
    rw [hbg]
    cases hp : (el.find? fun n => decide (x.lastBg < n)).orElse fun _ => el.head? with
    | some n =>
      have hn : n ∈ el := by
        cases hf : el.find? fun n => decide (x.lastBg < n) with
        | some m => rw [hf] at hp; cases hp; exact List.mem_of_find?_eq_some hf
        | none => rw [hf] at hp; exact List.mem_of_head? hp
      refine ⟨fun k tte h => ?_, fun h => nomatch h⟩
      cases h
      refine ⟨((hmem _).1 hn).1, ((hmem _).1 hn).2, hrated _ hn, fun j w hj hg hw => ?_⟩
      rw [hrated j ((hmem j).2 ⟨hj, hg⟩)] at hw
      cases hw
    | none =>
      have hnil : el = [] := by
        cases hf : el.find? fun n => decide (x.lastBg < n) with
        | some m => rw [hf] at hp; cases hp
        | none => rw [hf] at hp; exact List.head?_eq_none_iff.1 hp
      refine ⟨fun k tte h => (nomatch h), fun _ j hj => ?_⟩
      have hno := mt (hmem j).2 (by rw [hnil]; exact List.not_mem_nil)
      cases hs : streamGrant x j with
      | none => rfl
      | some g => exact absurd ⟨hj, by rw [hs]; rfl⟩ hno

/-! ### A cycle of grants (R208) -/

/-- A cycle of grants: the records that fetch nothing are placed, up to 8 lines are granted, the cycle is counted and a stall
code charged. -/
theorem exec_streamGrant (t : TileId) (s : State) : ∃ code, code < 64 ∧
    let m := (grantLines t 8 (settleStreams t s)).1
    exec (.streamGrant t) s = .next (charge (.stream t) code (setStr t { getStr m t with cycle := (getStr m t).cycle + 1 } m)) := by
  show ∃ code, _ ∧ execStreamGrant t s = _
  unfold execStreamGrant
  generalize grantLines t 8 (settleStreams t s) = p
  obtain ⟨m, any⟩ := p
  dsimp only
  refine ⟨_, ?_, rfl⟩
  split
  · decide
  · split <;> decide

theorem streamGrant_grants (t : TileId) (s : State) : let x := getStr s t
    ∃ n, exec (.streamGrant t) s = .next n ∧ StreamsOf t s n ∧ SameBytes s n ∧ Only (.tiles :: accountParts) s n ∧
      let y := getStr n t
      let x0 := getStr (settleStreams t s) t
      y.cycle = x.cycle + 1 ∧ y.modes = x.modes ∧
      (∀ k, getStrm x0 k = if k < 64 then (getStrm x k).settled else getStrm x k) ∧ x0.reqs = x.reqs ∧
      (∃ l, y.reqs = x.reqs ++ l ∧ l.length ≤ 8 ∧ ∀ k tte g r, pickStream x0 = some (k, tte) → streamGrant x0 k = some g → g.req = some r →
        [{ strm := k, id := g.d.id, kind := r : Req }] <+: l) ∧
      (pickStream x0 = none → y.reqs = x.reqs ∧ y.strms = x0.strms) := by
  intro x
  obtain ⟨code, hcode, hx⟩ := exec_streamGrant t s
  obtain ⟨hsettled, hrest, hstr, hsame⟩ := settleStreams_spec t s
  obtain ⟨⟨l, hl, hlen, hfirst⟩, hnone, hcycle, hmodes, hstr2, hsame2⟩ := grantLines_spec t 8 (settleStreams t s)
  generalize (grantLines t 8 (settleStreams t s)).1 = m at hx hl hnone hcycle hmodes hstr2 hsame2
  have hreqs : (getStr (settleStreams t s) t).reqs = x.reqs := by rw [hrest]
  let z := { getStr m t with cycle := (getStr m t).cycle + 1 }
  have hy : getStr (charge (.stream t) code (setStr t z m)) t = z := by
    rw [getStr_congr (charge_tiles _ _ _), getStr_setStr, if_pos rfl]
  refine ⟨_, hx, ((hstr.trans hstr2).trans (setStr_streamsOf t z m)).trans (StreamsOf.of_tiles (charge_tiles _ _ _)), ?_,
    (execStreamGrant_kept t (Kept.rfl' s) hx (by decide)).only, ?_⟩
  · exact (((hsame.trans hsame2).trans (same_of_only (setStr_only t z m) (by decide) (by decide))).trans (charge_same _ _ hcode _)).bytes
  intro y x0
  have hyz : y = z := hy
  rw [hyz]
  refine ⟨congrArg (· + 1) (hcycle.trans (by rw [hrest])), hmodes.trans (by rw [hrest]), hsettled, hreqs, ⟨l, ?_, hlen, ?_⟩, fun h => ?_⟩
  · exact hl.trans (by rw [hreqs])
  · exact fun k tte g r => hfirst k tte g r (by decide)
  · have hm := hnone h
    show (getStr m t).reqs = x.reqs ∧ (getStr m t).strms = x0.strms
    rw [hm]
    exact ⟨hreqs, rfl⟩

/-! ### The return of data (R209 to R211) -/

theorem reqWaits_eq {s : State} {t : TileId} {r : Req} {q : Bool} {d : Desc} (h : reqDesc (getStr s t) r = some (q, d)) :
    let b := reqRead t d r.kind
    reqWaits s t r = !readReady s b.1 b.2.1 b.2.2.1 b.2.2.2 := by
  unfold reqWaits
  rw [h]

/-- A state that counts a poisoned read of tile t's streams. -/
theorem poisonBit_spec (t : TileId) (p : Bool) (s : State) : let n := if p then setBit (strBlk t 0) 3 s else s
    SameStore s n ∧ Only [.regs] s n := by
  cases p with
  | false => exact ⟨SameStore.rfl, Only.rfl' s⟩
  | true => exact ⟨setBit_same _ _ _ fun i => strBlk_stk t 0 i (by decide), setBit_only _ _ s⟩

theorem streamDataReturn_none {t : TileId} {s : State} {k : Nat} (h : (getStr s t).reqs[k]? = none) :
    exec (.streamDataReturn t k) s = .next s := by
  show execStreamDataReturn t k s = _
  unfold execStreamDataReturn
  dsimp only
  rw [h]

theorem streamDataReturn_dropped {t : TileId} {s : State} {k : Nat} {r : Req} (h : (getStr s t).reqs[k]? = some r)
    (hd : reqDesc (getStr s t) r = none) :
    exec (.streamDataReturn t k) s = .next (setStr t { getStr s t with reqs := (getStr s t).reqs.eraseIdx k } s) := by
  show execStreamDataReturn t k s = _
  unfold execStreamDataReturn
  dsimp only
  rw [h]
  dsimp only
  rw [hd]

theorem streamDataReturn_waits {t : TileId} {s : State} {k : Nat} {r : Req} {q : Bool} {d : Desc} (h : (getStr s t).reqs[k]? = some r)
    (hd : reqDesc (getStr s t) r = some (q, d)) (hw : reqWaits s t r = true) : exec (.streamDataReturn t k) s = .next s := by
  show execStreamDataReturn t k s = _
  unfold execStreamDataReturn
  dsimp only
  rw [h]
  dsimp only
  rw [hd]
  exact congrArg Host.Outcome.next (if_pos hw)

theorem streamDataReturn_delivers {t : TileId} {s : State} {k : Nat} {r : Req} {q : Bool} {d : Desc} (h : (getStr s t).reqs[k]? = some r)
    (hd : reqDesc (getStr s t) r = some (q, d)) (hw : reqWaits s t r = false) :
    let b := reqRead t d r.kind
    ∃ n, exec (.streamDataReturn t k) s = .next n ∧ StreamsOf t s n ∧ SameBytes s n ∧
      Only (.tiles :: accessParts) s n ∧
      let y := putDesc { getStr s t with reqs := (getStr s t).reqs.eraseIdx k } r.strm q
        (reqDeliver d r.kind (s.bytesOf b.2.1 (b.1 / 4096) b.2.2.1 b.2.2.2))
      getStr n t = setStrm y r.strm (getStrm y r.strm).settled := by
  intro b
  let c := clientOn s (tileDie t)
  let p := readBuf c b.2.1 (b.1 / 4096) b.2.2.1 b.2.2.2 s
  let s2 := if anyPoison p.1 then setBit (strBlk t 0) 3 p.2 else p.2
  let s3 := crossBridge c (tileDie t) (b.1 / 4096) b.2.2.2 s2
  let y := putDesc { getStr s t with reqs := (getStr s t).reqs.eraseIdx k } r.strm q (reqDeliver d r.kind p.1)
  have hx : exec (.streamDataReturn t k) s = .next (settleStream t r.strm (setStr t y s3)) := by
    show execStreamDataReturn t k s = _
    unfold execStreamDataReturn
    dsimp only
    rw [h]
    dsimp only
    rw [hd]
    exact congrArg Host.Outcome.next (if_neg (by rw [hw]; decide))
  obtain ⟨hsame2, honly2⟩ := poisonBit_spec t (anyPoison p.1) p.2
  have htiles : s3.tiles = s.tiles :=
    ((crossBridge_kept c (tileDie t) (b.1 / 4096) b.2.2.2 (Kept.rfl' s2) (ks := accountParts) (by decide)).only.tiles (by decide)).trans
      ((honly2.tiles (by decide)).trans ((readBuf_only c b.2.1 (b.1 / 4096) b.2.2.1 b.2.2.2 s).tiles (by decide)))
  have hsame3 : SameStore s s3 := ((readBuf_same c b.2.1 (b.1 / 4096) b.2.2.1 b.2.2.2 s).trans hsame2).trans
    (same_of_only (bumpLedger_only _ _ _ _) (by decide) (by decide))
  obtain ⟨hstr, hof, hsame⟩ := settleStream_spec t r.strm (setStr t y s3)
  rw [getStr_setStr, if_pos rfl] at hstr
  have hb : p.1 = s.bytesOf b.2.1 (b.1 / 4096) b.2.2.1 b.2.2.2 := readBuf_val _ _ _ _ _ s
  refine ⟨_, hx, ((StreamsOf.of_tiles htiles).trans (setStr_streamsOf t y s3)).trans hof,
    ((hsame3.trans (same_of_only (setStr_only t y s3) (by decide) (by decide))).trans hsame).bytes,
    (execStreamDataReturn_kept t k (Kept.rfl' s) hx (by decide)).only, ?_⟩
  intro y'
  have hyy : y = y' := congrArg (fun l => putDesc { getStr s t with reqs := (getStr s t).reqs.eraseIdx k } r.strm q (reqDeliver d r.kind l)) hb
  rw [← hyy]
  exact hstr

/-! ### Consuming reads (R209) -/

/-- The run of a ring slot that begins at record nCons, on row r, ends before record e, has returned with its scales, and its slot is
FULL. -/
def RunEnds (s : State) (x : StreamS) (d : Desc) (r e : Nat) : Prop :=
  recRow d d.nCons = some (.row r) ∧ runEnd d d.nCons = some e ∧ returnedTo d e = true ∧
    scalesReturned x d e = true ∧ slotFull s d.name (slotOfRow d r) = true

theorem streamConsumingRead_idle {t : TileId} {k : Fin 64} {s : State}
    (h : ∀ d, (getStrm (getStr s t) k.val).active = some d → d.consume = false ∨ d.ent.slots = 0) :
    exec (.streamConsumingRead t k) s = .next s := by
  show execStreamConsumingRead t k s = _
  unfold execStreamConsumingRead
  dsimp only
  cases ha : (getStrm (getStr s t) k.val).active with
  | none => rfl
  | some d => exact congrArg Host.Outcome.next (if_pos ((h d ha).imp_left fun h => by rw [h]; decide))

section ConsumingRead

variable {t : TileId} {k : Fin 64} {s : State} {d0 : Desc} (ha : (getStrm (getStr s t) k.val).active = some d0)
  (hc : d0.consume = true) (hs : d0.ent.slots ≠ 0)

include ha hc hs

theorem streamConsumingRead_waits (h : ¬ ∃ r e, RunEnds s (getStr s t) (skipRowless d0) r e) :
    ∃ n, exec (.streamConsumingRead t k) s = .next n ∧ StreamsOf t s n ∧
      getStr n t = putDesc (getStr s t) k.val false (skipRowless d0) ∧ Only [.tiles] s n := by
  let n := setStr t (putDesc (getStr s t) k.val false (skipRowless d0)) s
  have hx : exec (.streamConsumingRead t k) s = .next n := by
    show execStreamConsumingRead t k s = _
    unfold execStreamConsumingRead
    dsimp only
    rw [ha]
    refine congrArg Host.Outcome.next ((if_neg fun hn => hn.elim (absurd hc) hs).trans ?_)
    unfold RunEnds at h
    split
    case h_1 r e hr he => exact if_neg fun ⟨h1, h2, h3⟩ => h ⟨r, e, hr, he, h1, h2, h3⟩
    case h_2 => rfl
  exact ⟨n, hx, setStr_streamsOf t _ s, by rw [getStr_setStr, if_pos rfl], setStr_only t _ s⟩

theorem streamConsumingRead_consumes {r e : Nat} (h : RunEnds s (getStr s t) (skipRowless d0) r e) : let d := skipRowless d0
    ∃ n, exec (.streamConsumingRead t k) s = .next n ∧ StreamsOf t s n ∧
      getStr n t = putDesc (getStr s t) k.val false { d with nCons := e } ∧ SameBytes s n ∧
      SlotsSet s n d.name d.ent ((slotOfRow d r + 1) * d.ent.slotBytes - 8) 8 false ∧ Only (.tiles :: .cat :: accessParts) s n := by
  intro d
  let x := getStr s t
  let s1 := setStr t (putDesc x k.val false d) s
  let off := (slotOfRow d r + 1) * d.ent.slotBytes - 8
  let p := readBuf (clientOn s (tileDie t)) d.ent d.hdie off 8 s1
  let s3 := if anyPoison p.1 then setBit (strBlk t 0) 3 p.2 else p.2
  let y := putDesc x k.val false { d with nCons := e }
  let s4 := setStr t y s3
  let n := afterConsume d.name d.ent off 8 s4
  have hx : exec (.streamConsumingRead t k) s = .next n := by
    show execStreamConsumingRead t k s = _
    unfold execStreamConsumingRead
    dsimp only
    rw [ha]
    obtain ⟨hr, he, h1, h2, h3⟩ := h
    dsimp only
    rw [hr, he]
    exact congrArg Host.Outcome.next ((if_neg fun hn => hn.elim (absurd hc) hs).trans (if_pos ⟨h1, h2, h3⟩))
  obtain ⟨hsame3, honly3⟩ := poisonBit_spec t (anyPoison p.1) p.2
  have hread := readBuf_only (clientOn s (tileDie t)) d.ent d.hdie off 8 s1
  have hlast : Only [.cat] s4 n := (afterConsume_kept d.name d.ent off 8 (Kept.rfl' s4) (by decide)).only
  have htiles3 : s3.tiles = s1.tiles := (honly3.tiles (by decide)).trans (hread.tiles (by decide))
  have hcat4 : s4.cat = s.cat := ((setStr_only t y s3).cat (by decide)).trans
    ((honly3.cat (by decide)).trans ((hread.cat (by decide)).trans ((setStr_only t _ s).cat (by decide))))
  refine ⟨n, hx, ?_, ?_, SameStore.bytes ?_, (afterConsume_spec d.name d.ent off 8 s4).from hcat4,
    (execStreamConsumingRead_kept t k (Kept.rfl' s) hx (by decide)).only⟩
  · exact (((setStr_streamsOf t _ s).trans (StreamsOf.of_tiles htiles3)).trans (setStr_streamsOf t y s3)).trans
      (StreamsOf.of_tiles (hlast.tiles (by decide)))
  · rw [getStr_congr (hlast.tiles (by decide)), getStr_setStr, if_pos rfl]
  · exact ((((same_of_only (setStr_only t _ s) (by decide) (by decide)).trans (readBuf_same _ d.ent d.hdie off 8 s1)).trans hsame3).trans
      (same_of_only (setStr_only t y s3) (by decide) (by decide))).trans (same_of_only hlast (by decide) (by decide))

end ConsumingRead

/-! ### Output writes (R206, R179) -/

theorem streamOutputWrite_idle {t : TileId} {k : Fin 64} {s : State}
    (h : (getStrm (getStr s t) k.val).fault ≠ 0 ∨ (getStrm (getStr s t) k.val).active = none) :
    exec (.streamOutputWrite t k) s = .next s := by
  show execStreamOutputWrite t k s = _
  unfold execStreamOutputWrite
  dsimp only
  refine congrArg Host.Outcome.next ?_
  split
  · rfl
  case isFalse hf =>
    rw [h.resolve_left hf]

/-- A write of a stream counts, and touches neither memory nor the tiles. -/
theorem countWrite_spec (t : TileId) (n : Nat) (refused : Bool) (s : State) :
    SameStore s (countWrite t n refused s) ∧ Only [.regs, .sat, .host, .logs] s (countWrite t n refused s) := by
  refine ⟨?_, (countWrite_kept t n refused (Kept.rfl' s) (by decide)).only⟩
  unfold countWrite
  cases refused with
  | false =>
    rw [if_neg (by decide)]
    exact bump_same _ _ _ _ fun i => strBlk_stk' t 0x18 i (by decide)
  | true =>
    rw [if_pos rfl]
    exact (setBit_same _ _ _ fun i => strBlk_stk t 0 i (by decide)).trans (bump_same _ _ _ _ fun i => strBlk_stk' t 0x28 i (by decide))

/-- Descriptor v, the queued one where q is true, holds the next output line p of stream st, and rest after it (R206, R212). -/
def NextOut (st : Strm) (q : Bool) (v : Desc) (p : OutPiece) (rest : List OutPiece) : Prop :=
  ∃ d, st.fault = 0 ∧ st.active = some d ∧ d.dir = 1 ∧
    ((q = false ∧ v = d ∧ d.out = p :: rest) ∨ (q = true ∧ d.out = [] ∧ st.queued = some v ∧ v.out = p :: rest))

/-- The state once a granted output line has been written, or refused by a window. -/
def outputWritten (t : TileId) (k : Nat) (q : Bool) (v : Desc) (p : OutPiece) (rest : List OutPiece) (s : State) : State :=
  let w := engineWrite (clientOn s (tileDie t)) (tileDie t) 2 v.name v.ent p.off p.bytes s
  countWrite t p.bytes.length w.2 (setStr t (putDesc (getStr s t) k q { v with out := rest, granted := v.granted - 1 }) w.1)

theorem exec_streamOutputWrite {t : TileId} {k : Fin 64} {s : State} {q : Bool} {v : Desc} {p : OutPiece} {rest : List OutPiece}
    (h : NextOut (getStrm (getStr s t) k.val) q v p rest) :
    exec (.streamOutputWrite t k) s = .next (if 0 < v.granted then
      if ¬ writeReady s v.name v.ent p.off p.bytes.length = true then charge (.stream t) 0x0F s else outputWritten t k.val q v p rest s
    else s) := by
  obtain ⟨d, hf, ha, hdir, hout⟩ := h
  show execStreamOutputWrite t k s = _
  unfold execStreamOutputWrite
  dsimp only
  refine congrArg Host.Outcome.next ((if_neg (by rw [hf]; decide)).trans ?_)
  rw [ha]
  dsimp only
  rw [if_neg (by rw [hdir]; decide), if_neg (by rw [hdir]; decide)]
  obtain ⟨rfl, rfl, ho⟩ | ⟨rfl, ho, hq, hv⟩ := hout
  · rw [ho]
    rfl
  · rw [ho, hq]
    dsimp only
    rw [hv]
    rfl

theorem outputWritten_spec (t : TileId) (k : Nat) (q : Bool) (v : Desc) (p : OutPiece) (rest : List OutPiece) (s : State) :
    let n := outputWritten t k q v p rest s
    StreamsOf t s n ∧ getStr n t = putDesc (getStr s t) k q { v with out := rest, granted := v.granted - 1 } ∧
      let own := v.name / 4096 = tileDie t
      let cur := if own then v.ent else getEnt s v.name
      let ok := own ∨ windowAdmits s cur { mod := moduleId s, die := Fin.ofNat 4 (tileDie t), eng := 2 } p.off p.bytes.length = true
      (ok → SlotsSet s n v.name cur p.off p.bytes.length true ∧ (cur.placed → StoredAt s n cur (v.name / 4096) p.off p.bytes)) ∧
      (¬ ok → SameBytes s n ∧ n.cat = s.cat) := by
  intro n
  let c := clientOn s (tileDie t)
  let w := engineWrite c (tileDie t) 2 v.name v.ent p.off p.bytes s
  let y := putDesc (getStr s t) k q { v with out := rest, granted := v.granted - 1 }
  let m := setStr t y w.1
  have hw : Only (.cat :: accessParts) s w.1 :=
    (engineWrite_kept c (tileDie t) 2 v.name v.ent p.off p.bytes (Kept.rfl' s) (by decide)).only
  have hm := setStr_only t y w.1
  obtain ⟨hsame, hn⟩ : SameStore m n ∧ Only [.regs, .sat, .host, .logs] m n := countWrite_spec t p.bytes.length w.2 m
  have hrest : SameStore w.1 n := (same_of_only hm (by decide) (by decide)).trans hsame
  have hcat : n.cat = w.1.cat := (hn.cat (by decide)).trans (hm.cat (by decide))
  refine ⟨?_, ?_, ?_⟩
  · exact ((StreamsOf.of_tiles (hw.tiles (by decide))).trans (setStr_streamsOf t y w.1)).trans (StreamsOf.of_tiles (hn.tiles (by decide)))
  · rw [getStr_congr (hn.tiles (by decide)), getStr_setStr, if_pos rfl]
  · intro own cur ok
    obtain ⟨hyes, hno⟩ := engineWrite_spec c (tileDie t) 2 v.name v.ent p.off p.bytes s
    refine ⟨fun h => ?_, fun h => ?_⟩
    · obtain ⟨-, hst, hsl⟩ := hyes h
      exact ⟨hsl.to hcat, fun hp => (hst hp).to hrest⟩
    · obtain ⟨-, hsm, hct⟩ := hno h
      exact ⟨(hsm.trans hrest).bytes, hcat.trans hct⟩

/-- Settles O44, command by command. -/
theorem streamWork : Obligations.StreamWork := by
  unfold Obligations.StreamWork
  refine ⟨pickStream_spec, fun t s => ?_⟩
  intro x cl
  refine ⟨streamGrant_grants t s, fun k => ⟨streamDataReturn_none, fun r hr hd => ?_, fun r q d hr hd => ?_⟩, fun k => ?_⟩
  · exact ⟨_, streamDataReturn_dropped hr hd, setStr_streamsOf t _ s, by rw [getStr_setStr, if_pos rfl], setStr_only t _ s⟩
  · intro b
    have hw := reqWaits_eq hd
    exact ⟨fun h => streamDataReturn_waits hr hd (hw.trans (congrArg not h)), fun h => streamDataReturn_delivers hr hd (hw.trans (congrArg not h))⟩
  intro st
  refine ⟨fun d0 ha h => streamConsumingRead_idle fun d hd => ?_, fun ha => streamConsumingRead_idle fun d hd => ?_, fun d0 ha hc hs => ?_,
    streamOutputWrite_idle, fun d q v p rest hf ha hdir hout => ?_⟩
  · cases ha.symm.trans hd
    exact h
  · cases ha.symm.trans hd
  · intro d ends
    exact ⟨fun r e h => streamConsumingRead_consumes ha hc hs h, fun h => streamConsumingRead_waits ha hc hs h⟩
  · have hx := exec_streamOutputWrite (t := t) (k := k) (s := s) ⟨d, hf, ha, hdir, hout⟩
    refine ⟨fun h => hx.trans (congrArg Host.Outcome.next (if_neg (by omega))), fun h hw => ?_, fun h hw => ?_⟩
    · exact hx.trans (congrArg Host.Outcome.next ((if_pos h).trans (if_pos (by rw [hw]; decide))))
    · have hxw := hx.trans (congrArg Host.Outcome.next ((if_pos h).trans (if_neg (not_not_intro hw))))
      obtain ⟨hof, hstr, hstore⟩ := outputWritten_spec t k.val q v p rest s
      exact ⟨_, hxw, hof, hstr, (execStreamOutputWrite_kept t k (Kept.rfl' s) hxw (by decide)).only, hstore⟩

end Sys2Proof.Machine
end

section
/-! O49: transfers received, refusals, and the control records up and down (R180, R283, R285, R286, R313, R321, R356, R382). -/

namespace Sys2Proof.Machine

theorem Stepped.step_eq {s n : State} {c : Nat} {f : StepSt → StepSt} {st : StepSt} (h : Stepped s n c f) (hs : (getClient s c).step = some st) :
    (getClient n c).step = some (f st) := by
  rw [h c]
  dsimp only
  rw [if_pos rfl, hs]
  rfl

/-! ### Transfers received (R283) -/

/-- The engine that posts the token of a receive slot. -/
def Slot.poster (e : Slot) : Eng :=
  if e.eng = 0 then .dma (Fin.ofNat 4 e.edie) 0 else if e.eng = 1 then .dma (Fin.ofNat 4 e.edie) 1 else .coll (Fin.ofNat 4 e.edie)

theorem Slot.poster_eq (e : Slot) : (e.eng = 0 → e.poster = .dma (Fin.ofNat 4 e.edie) 0) ∧ (e.eng = 1 → e.poster = .dma (Fin.ofNat 4 e.edie) 1) ∧
    (2 ≤ e.eng → e.poster = .coll (Fin.ofNat 4 e.edie)) := by
  unfold Slot.poster
  refine ⟨fun h => if_pos h, fun h => ?_, fun h => ?_⟩
  · rw [if_neg (by omega), if_pos h]
  · rw [if_neg (by omega), if_neg (by omega)]

/-- The transfer of a receive slot is complete: every flit has come, and has been written or taken by the collective engine. -/
def ReceiveDone (s : State) (e : Slot) (x : Rx) : Prop :=
  e.kind = 1 ∧ e.flits ≤ x.next ∧
    (if recKind x.hdr = 1 then x.taken = true else ∀ w ∈ s.cat.waiters, ¬ (w.remote = true ∧ w.name = recName x.hdr))

/-- The posts of a receive slot's completion: its token, unless it has none or the step is aborted. -/
def receivePosts (s : State) (c : Nat) (e : Slot) : List Post :=
  if e.tokref = 0 ∨ aborted s c = true then [] else
    [{ die := Fin.ofNat 4 (engDie e.poster), file := trefFile e.tokref, reg := trefReg e.tokref, count := trefCnt e.tokref, eng := e.poster, client := c }]

/-- A state whose receive slot is done and whose transfer is forgotten. -/
def received (c slot : Nat) (s : State) : State :=
  slotDone c slot { s with fabric := { s.fabric with rx := s.fabric.rx.filter fun y => !(decide (y.slot = slot) && decide (y.client = c)) } }

theorem received_spec (c slot : Nat) (s : State) : Only [.clients, .fabric] s (received c slot s) ∧
    Stepped s (received c slot s) c (fun st => if st.doneTx.contains slot then st else { st with doneTx := st.doneTx ++ [slot] }) ∧
    (received c slot s).fabric = { s.fabric with rx := s.fabric.rx.filter fun y => !(decide (y.slot = slot) && decide (y.client = c)) } := by
  obtain ⟨z, hz⟩ : ∃ z : State, z = { s with fabric := { s.fabric with rx := s.fabric.rx.filter fun y => !(decide (y.slot = slot) && decide (y.client = c)) } } :=
    ⟨_, rfl⟩
  have hn : received c slot s = slotDone c slot z := by rw [hz]; rfl
  have hsz : Only [.fabric] s z := by rw [hz]; exact only_fabric _ s
  have hzn : Only [.clients] z (slotDone c slot z) := (slotDone_kept c slot (Kept.rfl' z) (by decide)).only
  rw [hn]
  exact ⟨(hsz.mono (by decide)).step hzn (by decide), (updStep_stepped c _ z).pre (.of_eq (hsz.clients (by decide))),
    (hzn.fabric (by decide)).trans (by rw [hz])⟩

section Receive

variable {c : ClientId} {slot : Nat} {s : State}

theorem transferReceive_none (h : (s.fabric.rx.find? fun x => decide (x.slot = slot) && decide (x.client = c.val)) = none) :
    exec (.transferReceiveComplete c slot) s = .next s := by
  show execTransferReceiveComplete c slot s = _
  unfold execTransferReceiveComplete
  dsimp only
  rw [h]

theorem exec_transferReceive {x : Rx} (h : (s.fabric.rx.find? fun x => decide (x.slot = slot) && decide (x.client = c.val)) = some x) :
    let e := (shareOf s c.val).slot slot
    (¬ ReceiveDone s e x → exec (.transferReceiveComplete c slot) s = .next s) ∧
    (ReceiveDone s e x → exec (.transferReceiveComplete c slot) s = .next (if e.tokref = 0 ∨ aborted s c.val = true then received c.val slot s
      else postTok e.poster c.val (trefFile e.tokref) (trefReg e.tokref) (trefCnt e.tokref) (received c.val slot s))) := by
  intro e
  have hcond : (e.kind ≠ 1 ∨ x.next < e.flits ∨ (if recKind x.hdr = 1 then ¬ x.taken = true
      else (s.cat.waiters.any fun w => w.remote && decide (w.name = recName x.hdr)) = true)) ↔ ¬ ReceiveDone s e x := by
    have hheld : (s.cat.waiters.any fun w => w.remote && decide (w.name = recName x.hdr)) = true ↔
        ¬ ∀ w ∈ s.cat.waiters, ¬ (w.remote = true ∧ w.name = recName x.hdr) := by
      simp only [List.any_eq_true, Bool.and_eq_true, decide_eq_true_eq, not_forall, not_not, exists_prop]
    unfold ReceiveDone
    rw [not_and_or, not_and_or, Nat.not_le, hheld]
    split <;> rfl
  show (_ → execTransferReceiveComplete c slot s = _) ∧ (_ → execTransferReceiveComplete c slot s = _)
  unfold execTransferReceiveComplete
  dsimp only
  rw [h]
  exact ⟨fun hd => congrArg Host.Outcome.next (if_pos (hcond.2 hd)), fun hd => congrArg Host.Outcome.next (if_neg fun hn => hcond.1 hn hd)⟩

theorem transferReceive_completes {x : Rx} (h : (s.fabric.rx.find? fun x => decide (x.slot = slot) && decide (x.client = c.val)) = some x)
    (hd : ReceiveDone s ((shareOf s c.val).slot slot) x) :
    ∃ n, exec (.transferReceiveComplete c slot) s = .next n ∧ Only [.plates, .clients, .fabric] s n ∧
      Stepped s n c.val (fun st => if st.doneTx.contains slot then st else { st with doneTx := st.doneTx ++ [slot] }) ∧
      n.fabric = { s.fabric with rx := s.fabric.rx.filter fun y => !(decide (y.slot = slot) && decide (y.client = c.val)) } ∧
      n.plates = { s.plates with posts := s.plates.posts ++ receivePosts s c.val ((shareOf s c.val).slot slot) } := by
  have hx := (exec_transferReceive h).2 hd
  obtain ⟨honly, hstep, hfab⟩ := received_spec c.val slot s
  unfold receivePosts
  generalize (shareOf s c.val).slot slot = e at hx ⊢
  generalize received c.val slot s = m at hx honly hstep hfab
  have hpl := honly.plates (by decide)
  by_cases hn : e.tokref = 0 ∨ aborted s c.val = true
  · rw [if_pos hn] at hx
    rw [if_pos hn, List.append_nil]
    exact ⟨m, hx, honly.mono (by decide), hstep, hfab, hpl⟩
  · rw [if_neg hn] at hx
    rw [if_neg hn]
    obtain ⟨n, hpost⟩ : ∃ n, n = postTok e.poster c.val (trefFile e.tokref) (trefReg e.tokref) (trefCnt e.tokref) m := ⟨_, rfl⟩
    rw [← hpost] at hx
    have hmn : Only [.plates] m n := by rw [hpost]; exact only_plates _ m
    refine ⟨n, hx, (honly.mono (by decide)).step hmn (by decide), hstep.post (.of_eq (hmn.clients (by decide))), (hmn.fabric (by decide)).trans hfab, ?_⟩
    rw [hpost, ← hpl]
    rfl

end Receive

/-! ### Refusals (R180, R303) -/

theorem refusalMessage_faults (w0 w1 : Word) (s : State) :
    let sl := (Config.refusalSlot w0 w1).toNat
    let k := (Config.refusalClient w0 w1).toNat
    let f := (shareOf s k).slot sl
    let due := isSlot s k sl = true ∧ f.kind = 0 ∧ f.eng = 2
    (¬ due → exec (.refusalMessage w0 w1) s = .next s) ∧
    (due → ∃ n, exec (.refusalMessage w0 w1) s = .next n ∧ CollFaulted f.edie k 5 ((getClient s k).job % 65536) 0 s n) := by
  intro sl k f due
  have hcond : (isSlot s k sl && decide (f.kind = 0) && decide (f.eng = 2)) = true ↔ due := by
    simp only [Bool.and_eq_true, decide_eq_true_eq, and_assoc, due]
  show (_ → execRefusalMessage w0 w1 s = _) ∧ (_ → ∃ n, execRefusalMessage w0 w1 s = _ ∧ _)
  unfold execRefusalMessage
  dsimp only
  refine ⟨fun h => congrArg Host.Outcome.next (if_neg (mt hcond.1 h)), fun h => ?_⟩
  exact ⟨_, congrArg Host.Outcome.next (if_pos (hcond.2 h)), collFault_faulted _ _ _ _ _ _⟩

/-! ### Control records up (R285) -/

theorem setCtl_only (c slot : Nat) (x : Ctl) (s : State) : Only [.clients] s (setCtl c slot x s) := updStep_only c _ s

theorem setCtl_stepped (c slot : Nat) (x : Ctl) (s : State) :
    Stepped s (setCtl c slot x s) c (fun st => { st with ctl := mset {} st.ctl slot x }) := updStep_stepped c _ s

theorem controlRecordsUp_merges (c : ClientId) (slot : Nat) (child : List Word) (s : State) :
    let e := (shareOf s c.val).slot slot
    let x := getCtl s c.val slot
    (¬ (isSlot s c.val slot = true ∧ e.kind = 3) → exec (.controlRecordsUp c slot child) s = .next s) ∧
    (isSlot s c.val slot = true → e.kind = 3 →
      (child = [] → ∃ n, exec (.controlRecordsUp c slot child) s = .next n ∧ Upward c.val slot s n) ∧
      (child ≠ [] → x.up = true ∨ (childPorts s c.val).length ≤ x.kids → exec (.controlRecordsUp c slot child) s = .next s) ∧
      (child ≠ [] → x.up = false → x.kids < (childPorts s c.val).length → ∃ y n, exec (.controlRecordsUp c slot child) s = .next n ∧
        Only [.clients] s y ∧ Stepped s y c.val (fun st => { st with ctl := mset {} st.ctl slot { x with kids := x.kids + 1, recs := mergeRecs x.recs (recsOfWords e.positions child) } }) ∧ Upward c.val slot y n)) := by
  intro e x
  let y := setCtl c.val slot { x with kids := x.kids + 1, recs := mergeRecs x.recs (recsOfWords e.positions child) } s
  have hx : exec (.controlRecordsUp c slot child) s = .next (if ¬ isSlot s c.val slot = true ∨ e.kind ≠ 3 then s
    else if child = [] then tryUp c.val slot s
    else if x.up = true ∨ (childPorts s c.val).length ≤ x.kids then s else tryUp c.val slot y) := rfl
  refine ⟨fun h => hx.trans (congrArg Host.Outcome.next (if_pos (by tauto))), fun hs hk => ?_⟩
  have hx' := hx.trans (congrArg Host.Outcome.next (if_neg (by tauto)))
  refine ⟨fun hc => ?_, fun hc hfull => ?_, fun hc hup hkids => ?_⟩
  · exact ⟨_, hx'.trans (congrArg Host.Outcome.next (if_pos hc)), tryUp_upward c.val slot s⟩
  · exact hx'.trans (congrArg Host.Outcome.next ((if_neg hc).trans (if_pos hfull)))
  · have hopen : ¬ (x.up = true ∨ (childPorts s c.val).length ≤ x.kids) := fun h =>
      h.elim (fun h => Bool.false_ne_true (hup.symm.trans h)) (by omega)
    exact ⟨y, _, hx'.trans (congrArg Host.Outcome.next ((if_neg hc).trans (if_neg hopen))), setCtl_only c.val slot _ s, setCtl_stepped c.val slot _ s,
      tryUp_upward c.val slot y⟩

/-! ### Control records down (R286, R313, R321) -/

/-- An abort in the partition status record aborts the step, with the record's code and module. -/
theorem abortFrom_spec (c : Nat) (all : SMap (List Nat)) (s : State) : Only [.clients] s (abortFrom c all s) ∧
    Stepped s (abortFrom c all s) c (fun st => if (nth 0 (mget [] all 0) 0).testBit 0 = true ∧ st.aborted = false then
      { st with aborted := true, fcode := nth 0 (mget [] all 0) 2, forigin := 4096 - nth 0 (mget [] all 0) 1 } else st) := by
  unfold abortFrom
  dsimp only
  by_cases hb : (nth 0 (mget [] all 0) 0).testBit 0 = true
  · rw [if_pos hb]
    refine ⟨updStep_only c _ s, ?_⟩
    convert updStep_stepped c _ s using 2 with st
    cases st.aborted <;> simp [hb]
  · rw [if_neg hb]
    exact ⟨Only.rfl' s, Stepped.of_scopes (.of_eq rfl) fun st => if_neg fun h => hb h.1⟩

/-- The records that come down: at the root its own. -/
def downRecs (s : State) (c : ClientId) (slot : Nat) (recs : List Word) : SMap (List Nat) :=
  if (shareOf s c.val).cparent = 63 then (getCtl s c.val slot).recs else recsOfWords ((shareOf s c.val).slot slot).positions recs

/-- The combined records of a control slot are to be taken: its client has a step in progress, they have not come yet, and at the
root its own have gone up. -/
def DownDue (s : State) (c : ClientId) (slot : Nat) : Prop :=
  (getClient s c.val).step ≠ none ∧ isSlot s c.val slot = true ∧ ((shareOf s c.val).slot slot).kind = 3 ∧
    (getCtl s c.val slot).down = false ∧ ((shareOf s c.val).cparent = 63 → (getCtl s c.val slot).up = true)

theorem exec_controlRecordsDown (c : ClientId) (slot : Nat) (recs : List Word) (s : State) :
    let all := downRecs s c slot recs
    let y := sendRecs 0x05 (childPorts s c.val) (setCtl c.val slot { getCtl s c.val slot with recs := all, down := true } s)
    let g := settleGates c.val slot (abortFrom c.val all y)
    (¬ DownDue s c slot → exec (.controlRecordsDown c slot recs) s = .next s) ∧
    (DownDue s c slot → exec (.controlRecordsDown c slot recs) s = .next (if isClosing s c.val slot = true then closingChecks c.val all g else g)) := by
  intro all y g
  have hcond : ((getClient s c.val).step.isNone = true ∨ ¬ isSlot s c.val slot = true ∨ ((shareOf s c.val).slot slot).kind ≠ 3 ∨
      (getCtl s c.val slot).down = true ∨ (decide ((shareOf s c.val).cparent = 63) = true ∧ ¬ (getCtl s c.val slot).up = true)) ↔ ¬ DownDue s c slot := by
    unfold DownDue
    rw [Option.isNone_iff_eq_none, decide_eq_true_eq, ← Bool.not_eq_true]
    tauto
  have hall : all = if decide ((shareOf s c.val).cparent = 63) = true then (getCtl s c.val slot).recs
      else recsOfWords ((shareOf s c.val).slot slot).positions recs := by
    simp only [decide_eq_true_eq, all, downRecs]
  have hx : exec (.controlRecordsDown c slot recs) s = .next (if (getClient s c.val).step.isNone = true ∨ ¬ isSlot s c.val slot = true ∨
      ((shareOf s c.val).slot slot).kind ≠ 3 ∨ (getCtl s c.val slot).down = true ∨
      (decide ((shareOf s c.val).cparent = 63) = true ∧ ¬ (getCtl s c.val slot).up = true) then s
    else if isClosing s c.val slot = true then closingChecks c.val all g else g) := by
    simp only [g, y]
    rw [hall]
    rfl
  exact ⟨fun h => hx.trans (congrArg Host.Outcome.next (if_pos (hcond.2 h))),
    fun h => hx.trans (congrArg Host.Outcome.next (if_neg fun hn => hcond.1 hn h))⟩

/-- The records kept and sent to every child: the step holds them, and each child's port has the message. -/
theorem recordsKept (c slot : Nat) (x : Ctl) (ps : List Nat) (s : State) : let y := sendRecs 0x05 ps (setCtl c slot x s)
    Only [.clients, .fabric, .free] s y ∧ SentTo 5 ps s y ∧ Stepped s y c (fun st => { st with ctl := mset {} st.ctl slot x }) := by
  intro y
  have hk := setCtl_only c slot x s
  obtain ⟨hsent, hy⟩ : SentTo 0x05 ps (setCtl c slot x s) y ∧ Only [.fabric, .free] (setCtl c slot x s) y := sendRecs_sent 0x05 (by decide) ps _
  refine ⟨(hk.mono (by decide)).step hy (by decide), fun p hp => ?_, (setCtl_stepped c slot x s).post (.of_eq (hy.clients (by decide)))⟩
  rw [← portFor_congr (hk.wearS (by decide))]
  exact hsent p hp

/-- The gates of a slot whose records have come take their outcome and complete; every other command stays as it is. -/
theorem settleGates_gates {c slot : Nat} {m : State} {st : StepSt} {x : Ctl} (hm : (getClient m c).step = some st)
    (hx : mget {} st.ctl slot = x) (hd : x.down = true) : let g := settleGates c slot m
    Only [.regs, .dict, .sat, .plates, .clients, .host, .logs] m g ∧
    Stepped m g c (fun st => { st with gates := st.gates.map fun q =>
      if q.cslot = slot ∧ q.outcome.isNone then { q with outcome := some ((nth 0 (mget [] x.recs 0) 0).testBit 1) } else q }) ∧
    (∀ q ∈ st.gates, q.cslot = slot → q.outcome = none → findFlight g q.id = none) ∧
    ∀ i, (∀ q ∈ st.gates, q.cslot = slot → q.outcome = none → q.id ≠ i) → findFlight g i = findFlight m i := by
  subst hx
  obtain ⟨honly, hstep, hmine, hother⟩ := settleGates_spec c slot m st hm hd
  have hmem : ∀ q, q ∈ st.gates.filter (fun g => decide (g.cslot = slot) && g.outcome.isNone) ↔
      q ∈ st.gates ∧ q.cslot = slot ∧ q.outcome = none := fun q => by
    rw [List.mem_filter, Bool.and_eq_true, decide_eq_true_eq, Option.isNone_iff_eq_none]
  refine ⟨honly, hstep, fun q hq hs ho => hmine _ (List.mem_map.2 ⟨q, (hmem q).2 ⟨hq, hs, ho⟩, rfl⟩), fun i hi => hother i fun h => ?_⟩
  obtain ⟨q, hq, rfl⟩ := List.mem_map.1 h
  obtain ⟨h1, h2, h3⟩ := (hmem q).1 hq
  exact hi q h1 h2 h3 rfl

/-- The change that an abort in the partition status record makes to a step. -/
def abortRead (all : SMap (List Nat)) (st : StepSt) : StepSt :=
  if (nth 0 (mget [] all 0) 0).testBit 0 = true ∧ st.aborted = false then
    { st with aborted := true, fcode := nth 0 (mget [] all 0) 2, forigin := 4096 - nth 0 (mget [] all 0) 1 } else st

/-- An abort read leaves a step's gates and control slots as they are. -/
theorem abortRead_keeps (all : SMap (List Nat)) (st : StepSt) : (abortRead all st).gates = st.gates ∧ (abortRead all st).ctl = st.ctl := by
  unfold abortRead
  split <;> exact ⟨rfl, rfl⟩

/-- The combined records are kept, sent to every child, and acted on. -/
theorem controlRecordsDown_acts {c : ClientId} {slot : Nat} {s : State} (hdue : DownDue s c slot) (recs : List Word) :
    let all := downRecs s c slot recs
    ∃ y m g a b n, exec (.controlRecordsDown c slot recs) s = .next n ∧
      Only [.clients, .fabric, .free] s y ∧ SentTo 5 (childPorts s c.val) s y ∧
      Stepped s y c.val (fun st => { st with ctl := mset {} st.ctl slot { getCtl s c.val slot with recs := all, down := true } }) ∧
      Only [.clients] y m ∧ Stepped y m c.val (abortRead all) ∧
      Only [.regs, .dict, .sat, .plates, .clients, .host, .logs] m g ∧
      Stepped m g c.val (fun st => { st with gates := st.gates.map fun q =>
        if q.cslot = slot ∧ q.outcome.isNone then { q with outcome := some ((nth 0 (mget [] all 0) 0).testBit 1) } else q }) ∧
      (∀ st, (getClient s c.val).step = some st →
        (∀ q ∈ st.gates, q.cslot = slot → q.outcome = none → findFlight g q.id = none) ∧
        ∀ i, (∀ q ∈ st.gates, q.cslot = slot → q.outcome = none → q.id ≠ i) → findFlight g i = findFlight s i) ∧
      (isClosing s c.val slot = false → a = g ∧ b = g ∧ n = g) ∧
      (isClosing s c.val slot = true →
        let d := ((List.range 4).find? (hasDie (getClient g c.val))).getD 0
        let p := mget [] all 1
        let q := mget [] all 2
        (if nth 0 p 1 = 0xFFFFFFFF - nth 0 p 2 then a = g else CollFaulted d c.val 6 ((getClient g c.val).job % 65536) 0 g a) ∧
        (if nth 0 p 3 = 0xFFFFFFFF - nth 0 p 4 then b = a else ∃ z, Only [.dict, .sat, .host, .logs] a z ∧ Raised z b 0x0405 c.val 2) ∧
        (if nth 0 q 1 = 0xFFFFFFFF - nth 0 q 2 then n = b else Raised b n 0x0504 c.val c.val)) := by
  intro all
  have hx := (exec_controlRecordsDown c slot recs s).2 hdue
  obtain ⟨st, hst⟩ := Option.ne_none_iff_exists'.1 hdue.1
  let x : Ctl := { getCtl s c.val slot with recs := all, down := true }
  obtain ⟨hy, hsent, hstepY⟩ := recordsKept c.val slot x (childPorts s c.val) s
  generalize hyd : sendRecs 0x05 (childPorts s c.val) (setCtl c.val slot x s) = y at hy hsent hstepY
  obtain ⟨hm, hstepM⟩ := abortFrom_spec c.val all y
  generalize hmd : abortFrom c.val all y = m at hm hstepM
  have hstepM' : Stepped y m c.val (abortRead all) := hstepM
  have hmst := hstepM'.step_eq (hstepY.step_eq hst)
  obtain ⟨hgates, hctl⟩ := abortRead_keeps all { st with ctl := mset {} st.ctl slot x }
  generalize abortRead all { st with ctl := mset {} st.ctl slot x } = st' at hmst hgates hctl
  obtain ⟨hg, hstepG, hdone, hother⟩ := settleGates_gates hmst (x := x) (by rw [hctl, mget_mset, if_pos rfl]) rfl
  rw [hgates] at hdone hother
  have hx' : exec (.controlRecordsDown c slot recs) s = .next (if isClosing s c.val slot = true then closingChecks c.val all (settleGates c.val slot m)
      else settleGates c.val slot m) := by
    rw [← hmd, ← hyd]
    exact hx
  generalize settleGates c.val slot m = g at hg hstepG hdone hother hx'
  have hflights : ∀ st', (getClient s c.val).step = some st' →
      (∀ q ∈ st'.gates, q.cslot = slot → q.outcome = none → findFlight g q.id = none) ∧
      ∀ i, (∀ q ∈ st'.gates, q.cslot = slot → q.outcome = none → q.id ≠ i) → findFlight g i = findFlight s i := by
    intro st' hst'
    cases hst.symm.trans hst'
    refine ⟨hdone, fun i hi => (hother i hi).trans ?_⟩
    rw [findFlight_congr (hm.plates (by decide)), findFlight_congr (hy.plates (by decide))]
  cases hc : isClosing s c.val slot with
  | false =>
    rw [hc] at hx'
    exact ⟨y, m, g, g, g, g, hx', hy, hsent, hstepY, hm, hstepM', hg, hstepG, hflights, fun _ => ⟨rfl, rfl, rfl⟩, fun h => nomatch h⟩
  | true =>
    rw [hc] at hx'
    obtain ⟨a, b, hchecks⟩ := closingChecks_spec c.val all g
    exact ⟨y, m, g, a, b, closingChecks c.val all g, hx', hy, hsent, hstepY, hm, hstepM', hg, hstepG, hflights, fun h => (nomatch h), fun _ => hchecks⟩

/-- Settles O49, command by command. -/
theorem timetableRecords : Obligations.TimetableRecords := by
  unfold Obligations.TimetableRecords
  intro c slot s t e x
  refine ⟨⟨transferReceive_none, fun x hx => ?_⟩, fun w0 w1 => refusalMessage_faults w0 w1 s, fun child => controlRecordsUp_merges c slot child s,
    fun recs => ?_⟩
  · refine ⟨(exec_transferReceive hx).1, fun hd => ?_⟩
    obtain ⟨n, hn, honly, hstep, hfab, hposts⟩ := transferReceive_completes hx hd
    obtain ⟨h0, h1, h2⟩ := Slot.poster_eq e
    exact ⟨n, hn, honly, hstep, hfab, e.poster, h0, h1, h2, hposts⟩
  · exact ⟨(exec_controlRecordsDown c slot recs s).1, fun hd => controlRecordsDown_acts hd recs⟩

end Sys2Proof.Machine
end

section
/-! O45: the watchdog of a stream (R214, R215). What the command takes for blocked, and that where only ring slots block the detail
names the die, is the model's reading (log 37). -/

namespace Sys2Proof.Machine

/-- The first tile of a die that has blocked streams. -/
def firstBlocked (s : State) (d : DieId) : Option TileId := (tilesOf d.val).find? fun t => decide (blockedStreams s t ≠ [])

theorem firstBlocked_eq_none {s : State} {d : DieId} : firstBlocked s d = none ↔ ∀ t ∈ tilesOf d.val, blockedStreams s t = [] := by
  unfold firstBlocked
  simp [List.find?_eq_none]

/-- No participant of a die is blocked: no stream of its tiles, and no access of its engines on a ring slot (R215). -/
def NothingBlocked (s : State) (d : DieId) : Prop := (∀ t ∈ tilesOf d.val, blockedStreams s t = []) ∧ slotBlockedEngine s d = false

/-- The watchdog of a die holds still for a client, or does not run for it (R215). -/
def WatchdogStill (s : State) (d : DieId) (c : ClientId) : Prop :=
  watchdogHeld s d.val c.val = true ∨ hasDie (getClient s c.val) d.val = false

/-- The detail of the deadlock fault: the first tile that has blocked streams, with those below 58, or the die (R214, log 37). -/
def deadlockDetail (s : State) (d : DieId) : Nat :=
  match firstBlocked s d with
  | some t => t.val + ((blockedStreams s t).filter fun n => decide (n < 58)).foldl (fun m n => m + 2 ^ (6 + n)) 0
  | none => 16 * d.val

/-- Every blocked stream of a die marked faulted with code 3, stream deadlock (R217). -/
def markDeadlock (d : DieId) (s : State) : State :=
  ((tilesOf d.val).map fun t => (t, blockedStreams s t)).foldl (fun s p => p.2.foldl (fun s n => markFault p.1 n 3 s) s) s

/-- FAULT set in the stream status of every tile of a list that has blocked streams (R214). -/
def noteFaults (ts : List (TileId × List Nat)) (s : State) : State :=
  ts.foldl (fun s p => if p.2.isEmpty then s else setBit (strBlk p.1 0) 0 s) s

/-- The state in which the deadlock fault is raised: streams marked, status set, the fault counted. -/
def deadlockNoted (d : DieId) (s : State) : State :=
  bumpDict (dkey 0x4030 0x06) 1 (noteFaults ((tilesOf d.val).map fun t => (t, blockedStreams s t)) (markDeadlock d s))

/-! ### What the command does -/

theorem firstBlocked_of_pairs (s : State) (d : DieId) :
    ((tilesOf d.val).map fun t => (t, blockedStreams s t)).find? (fun p => !p.2.isEmpty) =
      (firstBlocked s d).map fun t => (t, blockedStreams s t) := by
  have hp : (fun p : TileId × List Nat => !p.2.isEmpty) ∘ (fun t => (t, blockedStreams s t)) = fun t => decide (blockedStreams s t ≠ []) := by
    funext t
    cases h : blockedStreams s t <;> simp [h]
  rw [List.find?_map, hp]
  rfl

theorem exec_streamWatchdogFire (d : DieId) (c : ClientId) (s : State) [Decidable (WatchdogStill s d c ∨ NothingBlocked s d)] :
    exec (.streamWatchdogFire d c) s = .next (if WatchdogStill s d c ∨ NothingBlocked s d then s
      else raiseFault c.val 0x0304 (deadlockDetail s d) (deadlockNoted d s)) := by
  have hx : exec (.streamWatchdogFire d c) s = execStreamWatchdogFire d c s := rfl
  have hc : (watchdogHeld s d.val c.val ∨ ¬ hasDie (getClient s c.val) d.val ∨ ((firstBlocked s d).isNone ∧ ¬ slotBlockedEngine s d)) ↔
      (WatchdogStill s d c ∨ NothingBlocked s d) := by
    rw [Option.isNone_iff_eq_none, firstBlocked_eq_none, Bool.not_eq_true, Bool.not_eq_true, ← or_assoc]
    rfl
  rw [hx]
  unfold execStreamWatchdogFire
  dsimp only
  rw [firstBlocked_of_pairs, Option.isNone_map]
  simp only [hc]
  unfold deadlockDetail
  cases firstBlocked s d <;> rfl

/-! ### What it marks, and its detail -/

theorem tilesOf_nodup (d : Nat) : (tilesOf d).Nodup := (List.nodup_finRange 64).filter _

theorem noteFaults_only (ts : List (TileId × List Nat)) (s : State) : Only [.regs] s (noteFaults ts s) :=
  Only.foldl (fun s _ => Only.ite (Only.rfl' s) (setBit_only _ _ s)) ts s

/-- What follows the marks leaves the tiles. -/
theorem deadlockNoted_tiles (d : DieId) (s : State) : (deadlockNoted d s).tiles = (markDeadlock d s).tiles :=
  (bumpDict_tiles _ _ _).trans ((noteFaults_only _ _).tiles (by decide))

theorem deadlockNoted_only (d : DieId) (s : State) : Only [.regs, .dict, .sat, .tiles, .host, .logs] s (deadlockNoted d s) :=
  have hmark : Only [.tiles] s (markDeadlock d s) := (markTiles_spec (blockedStreams s) 3 _ (tilesOf_nodup d.val) s).2.2
  ((hmark.mono (by decide)).step (noteFaults_only _ _) (by decide)).step (bumpDict_only _ _ _) (by decide)

/-- The bits of streams lie above the tile's six. -/
theorem streamBits_mod (l : List Nat) (m : Nat) : l.foldl (fun m n => m + 2 ^ (6 + n)) m % 2 ^ 6 = m % 2 ^ 6 := by
  induction l generalizing m with
  | nil => rfl
  | cons n l ih => rw [List.foldl_cons, ih, Nat.pow_add, Nat.add_mul_mod_self_left]

theorem deadlockDetail_tile {s : State} {d : DieId} {t : TileId} (h : firstBlocked s d = some t) : deadlockDetail s d % 2 ^ 6 = t.val := by
  unfold deadlockDetail
  rw [h]
  dsimp only
  rw [Nat.add_mod, streamBits_mod, Nat.zero_mod, Nat.add_zero, Nat.mod_mod]
  exact Nat.mod_eq_of_lt t.isLt

theorem deadlockDetail_die {s : State} {d : DieId} (h : ∀ t ∈ tilesOf d.val, blockedStreams s t = []) : deadlockDetail s d = 16 * d.val := by
  unfold deadlockDetail
  rw [firstBlocked_eq_none.2 h]

/-- Settles O45: the command raises its fault on the state that has every blocked stream marked. -/
theorem streamWatchdog : Obligations.StreamWatchdog := by
  unfold Obligations.StreamWatchdog
  intro d c s held idle
  classical
  have hx := exec_streamWatchdogFire d c s
  refine ⟨fun h => hx.trans (congrArg _ (if_pos h)), fun h => ?_⟩
  have hfire := hx.trans (congrArg _ (if_neg h))
  have htiles := (raiseFault_tiles _ c.val 0x0304 (deadlockDetail s d)).trans (deadlockNoted_tiles d s)
  obtain ⟨hmarked, hothers, -⟩ := markTiles_spec (blockedStreams s) 3 _ (tilesOf_nodup d.val) s
  refine ⟨_, _, _, hfire, raiseFault_raised _ _ _ _, deadlockNoted_only d s, fun t ht k => ?_, fun t ht => ?_,
    fun _ => deadlockDetail_tile, deadlockDetail_die⟩
  · exact (congrArg (fun x : Tile => getStrm x.str k) (getTile_congr htiles t)).trans (hmarked t ht k)
  · exact (getTile_congr htiles t).trans (hothers t ht)

end Sys2Proof.Machine
end

section
/-! Tokens that arrive, and the registers that saturate (R223 to R225, R229, R429). -/

namespace Sys2Proof.Machine

/-! ### What DETAIL of a token fault names (R429) -/

theorem engCode_lt (e : Eng) : engCode e < 2 ^ 4 := by
  cases e <;> simp [engCode]

theorem engUnit_lt (e : Eng) : engUnit e < 2 ^ 4 := by
  cases e with
  | array t | vector t | stream t | seq t => exact Nat.mod_lt _ (by decide)
  | hatch _ u | cpt _ u | dma _ u => exact u.isLt.trans (by decide)
  | coll _ => exact Nat.two_pow_pos 4

theorem tokenDetail_fields (e : Eng) {f r : Nat} (hf : f < 17) (hr : r < 256) :
    tokenDetail e f r % 2 ^ 8 = r ∧ tokenDetail e f r / 2 ^ 8 % 2 ^ 5 = f ∧ tokenDetail e f r / 2 ^ 13 % 2 ^ 4 = engCode e ∧
      tokenDetail e f r / 2 ^ 17 % 2 ^ 4 = engUnit e ∧ tokenDetail e f r / 2 ^ 21 = engDie e := by
  have hc := engCode_lt e
  have hu := engUnit_lt e
  unfold tokenDetail
  omega

/-! ### A post that reaches its register -/

/-- The state in which a post is on its way no longer. -/
def dropPost (k : Nat) (s : State) : State := { s with plates := { s.plates with posts := s.plates.posts.eraseIdx k } }

/-- The state in which a token-overflow fault is raised: the register saturated, the fault counted and recorded (R225, R237). -/
def overflowNoted (p : Post) (s : State) : State :=
  noteTokenFault p.die.val p.file p.reg 1 (bumpDict (dkey 0x4040 0x02) 1 (setTok p.die.val p.file p.reg 65535 s))

section
variable {k : Nat} {p : Post} {s : State}

theorem exec_tokenArrive (hp : s.plates.posts[k]? = some p) :
    exec (.tokenArrive k) s = .next (addToken p (dropPost k s)) := by
  show execTokenArrive k s = _
  unfold execTokenArrive
  rw [hp]
  rfl

theorem addToken_fits (h : tokens s p.die.val p.file p.reg + p.count ≤ 65535) :
    addToken p s = setTok p.die.val p.file p.reg (tokens s p.die.val p.file p.reg + p.count) s := by
  unfold addToken
  dsimp only
  rw [if_pos h, Nat.min_eq_left h]

theorem addToken_overflows (h : 65535 < tokens s p.die.val p.file p.reg + p.count) :
    addToken p s = raiseFault p.client 0x0305 (tokenDetail p.eng p.file p.reg) (overflowNoted p s) := by
  unfold addToken overflowNoted
  dsimp only
  rw [if_neg (by omega), Nat.min_eq_right h.le]

theorem overflowNoted_plates (p : Post) (s : State) :
    (overflowNoted p s).plates = (setTok p.die.val p.file p.reg 65535 s).plates :=
  ((noteTokenFault_only _ _ _ _ _).plates (by decide)).trans (bumpDict_plates _ _ _)

theorem overflowNoted_only (p : Post) (s : State) : Only (.plates :: accountParts) s (overflowNoted p s) :=
  (((setTok_only _ _ _ _ _).mono (by decide)).step (bumpDict_only _ _ _) (by decide)).step (noteTokenFault_only _ _ _ _ _) (by decide)

/-- Whether it fits or not, of plates a post changes its register alone. -/
theorem addToken_plates (p : Post) (s : State) : (addToken p s).plates =
    (setTok p.die.val p.file p.reg (min (tokens s p.die.val p.file p.reg + p.count) 65535) s).plates := by
  rcases Nat.lt_or_ge 65535 (tokens s p.die.val p.file p.reg + p.count) with h | h
  · rw [addToken_overflows h, raiseFault_plates, overflowNoted_plates, Nat.min_eq_right h.le]
  · rw [addToken_fits h, Nat.min_eq_left h]

/-- The token registers after a post: its own holds the sum, or 65,535 where the sum is above; every other keeps its count. -/
theorem addToken_tokens (hpf : p.file < 17) (hpr : p.reg < 256) {d f r : Nat} (hf : f < 17) (hr : r < 256) :
    tokens (addToken p s) d f r = if d = p.die.val ∧ f = p.file ∧ r = p.reg
      then min (tokens s p.die.val p.file p.reg + p.count) 65535 else tokens s d f r := by
  rw [tokens_congr (congrArg (·.tokens) (addToken_plates p s)), tokens_setTok _ _ _ _ _ _ _ hpf hpr hf hr,
    Nat.mod_eq_of_lt (by omega)]

/-- What TOKEN_ARRIVE does with a post that is on its way. -/
theorem tokenArrive_delivers (hp : s.plates.posts[k]? = some p) (hpf : p.file < 17) (hpr : p.reg < 256) :
    let sum := tokens s p.die.val p.file p.reg + p.count
    ∃ n, exec (.tokenArrive k) s = .next n ∧ n.plates.posts = s.plates.posts.eraseIdx k ∧
      (∀ d f r, f < 17 → r < 256 → tokens n d f r =
        if d = p.die.val ∧ f = p.file ∧ r = p.reg then min sum 65535 else tokens s d f r) ∧
      (sum ≤ 65535 → Only [.plates] s n) ∧
      (65535 < sum → ∃ y, Only (.plates :: accountParts) s y ∧
        Raised y n 0x0305 p.client (tokenDetail p.eng p.file p.reg)) := by
  have hdrop : Only [.plates] s (dropPost k s) := only_plates _ s
  refine ⟨_, exec_tokenArrive hp, congrArg (·.posts) (addToken_plates p _), fun d f r hf hr => addToken_tokens hpf hpr hf hr,
    fun h => ?_, fun h => ⟨overflowNoted p (dropPost k s), (hdrop.mono (by decide)).trans (overflowNoted_only p _), ?_⟩⟩
  · rw [addToken_fits (s := dropPost k s) h]
    exact hdrop.trans (setTok_only _ _ _ _ _)
  · rw [addToken_overflows (s := dropPost k s) h]
    exact raiseFault_raised _ _ _ _

end

/-- Settles O35: the case of TOKEN_ARRIVE in which the sum is above 65,535; the detail is read field by field. -/
theorem tokenOverflow : Obligations.TokenOverflow := by
  unfold Obligations.TokenOverflow
  intro k p s hp hf hr hover
  obtain ⟨n, hn, hposts, htok, -, hraise⟩ := tokenArrive_delivers hp hf hr
  obtain ⟨y, hy, hfault⟩ := hraise hover
  refine ⟨n, y, _, hn, hposts, ?_, fun d f r hf' hr' hne => ?_, hy, hfault, tokenDetail_fields p.eng hf hr⟩
  · rw [htok _ _ _ hf hr, if_pos ⟨rfl, rfl, rfl⟩, Nat.min_eq_right hover.le]
  · rw [htok _ _ _ hf' hr', if_neg hne]

end Sys2Proof.Machine
end

section
/-! How plates feed the windows: fetch, the Catalog cache, window entry, the token watchdog (R221, R226, R228, R231, R232). -/

namespace Sys2Proof.Machine

section
variable {e : Eng} {s : State}

/-! ### Plate fetch (R221, R231) -/

/-- A line of an engine's plate: through its tile's instruction cache, or from memory for an engine of a die. -/
def deliverLine (e : Eng) (client a : Nat) (s : State) : List Word × State :=
  match engTile e with
  | some t => cachedLine t.val client a s
  | none => fetchLine client a s

theorem deliverLine_spec (e : Eng) (client a : Nat) (s : State) :
    (deliverLine e client a s).1 = ((engTile e).bind fun t => cachedWords s t.val (a / 64)).getD
      (wordsOf 8 ((List.range 64).map fun i => (s.peek (a + i)).1)) ∧
    SameStore s (deliverLine e client a s).2 ∧ Only (.plates :: accessParts) s (deliverLine e client a s).2 ∧
    ∀ f, getEng (deliverLine e client a s).2 f = getEng s f := by
  unfold deliverLine
  cases engTile e with
  | some t => exact cachedLine_spec t.val client a s
  | none =>
    obtain ⟨hwords, hstore, haccess⟩ := fetchLine_spec client a s
    have honly := only_of_access haccess
    exact ⟨hwords, hstore, honly.mono (by decide), getEng_congr (honly.plates (by decide))⟩

theorem exec_plateFetch (hrun : (getEng s e).running = true) (hend : (getEng s e).ended = false)
    (hleft : (getEng s e).fetched < (plateOf s e).2) (hroom : (getEng s e).words.length + 8 ≤ 128) :
    let g := getEng s e
    let l := deliverLine e (clientOn s (engDie e)) ((plateOf s e).1 + 8 * g.fetched) s
    let k := min 8 ((plateOf s e).2 - g.fetched)
    exec (.plateFetch e) s = .next (setEng e { g with words := g.words ++ l.1.take k, fetched := g.fetched + k } l.2) := by
  have hgo : ¬ (¬ (getEng s e).running = true ∨ (getEng s e).ended = true ∨ (plateOf s e).2 ≤ (getEng s e).fetched ∨
      128 < (getEng s e).words.length + 8) := by
    rw [hrun, hend]
    simp only [not_true, Bool.false_eq_true, false_or]
    omega
  show execPlateFetch e s = _
  unfold execPlateFetch
  dsimp only
  rw [if_neg hgo]
  rfl

/-! ### The Catalog cache (R232) -/

theorem mem_touch (k : Nat) (l : List Nat) : k ∈ touch k l := by simp [touch]

theorem useName_names (t name : Nat) (s : State) (k : Nat) : mget [] (getCaches (useName t s name) t).names k =
    if k = name % 256 then touch name (mget [] (getCaches s t).names k) else mget [] (getCaches s t).names k := by
  unfold useName
  rw [getCaches_setCaches, if_pos rfl]
  dsimp only
  rw [mget_mupd]
  split
  · rename_i h
    rw [h]
  · rfl

theorem useName_caches (t name : Nat) (s : State) : nameCached (useName t s name) t name = true := by
  unfold nameCached
  rw [useName_names, if_pos rfl]
  exact List.contains_iff_mem.2 (mem_touch _ _)

theorem exec_catalogCacheFill_hit {t : TileId} {name : Nat} (h : nameCached s t.val name = true) :
    exec (.catalogCacheFill t name) s = .next s := congrArg Host.Outcome.next (if_pos h)

theorem exec_catalogCacheFill_miss {t : TileId} {name : Nat} (h : nameCached s t.val name = false) :
    exec (.catalogCacheFill t name) s = .next (useName t.val (bumpDict (dkey 0x4040 0x06) 1 s) name) :=
  congrArg Host.Outcome.next (if_neg (ne_true_of_eq_false h))

/-! ### Window entry (R226) -/

/-- A command of known length as it enters the window. -/
def enteringCmd (e : Eng) (c : PCmd) (s : State) : WinCmd :=
  { ix := (getEng s e).nextIx, off := (getEng s e).entered, cmd := c, names := captureNames s (namesOf e c),
    bank := resolveBank (getEng s e).bank c, unknown := false, bad := entryBad e (getEng s e).xbound c }

/-- The engine after a command of known length, of k words, has entered its window. -/
def enteredEng (e : Eng) (c : PCmd) (k : Nat) (s : State) : EngSt :=
  { getEng s e with
    win := (getEng s e).win ++ [enteringCmd e c s], words := (getEng s e).words.drop k,
    entered := (getEng s e).entered + k, nextIx := (getEng s e).nextIx + 1,
    ended := decide ((plateOf s e).2 ≤ (getEng s e).entered + k),
    bank := nextBank (getEng s e).bank c, xbound := entryBound e (getEng s e).xbound c }

/-- The state in which a command's entries have been used in the tile's cache, where its engine has one. -/
def useNames (e : Eng) (l : List Nat) (s : State) : State :=
  match engTile e with
  | some t => l.foldl (useName t.val) s
  | none => s

theorem useNames_only (e : Eng) (l : List Nat) (s : State) : Only [.plates] s (useNames e l s) := by
  unfold useNames
  cases engTile e with
  | some t => exact Only.foldl (useName_only t.val) l s
  | none => exact Only.rfl' s

theorem getEng_useNames (e : Eng) (l : List Nat) (s : State) (f : Eng) : getEng (useNames e l s) f = getEng s f := by
  unfold useNames
  cases engTile e with
  | some t => exact foldl_useName_eng t.val l f s
  | none => rfl

theorem enterWindow_known (e : Eng) (c : PCmd) (k : Nat) (s : State) :
    enterWindow e c k false s = setEng e (enteredEng e c k s) (useNames e (namesOf e c) s) := rfl

theorem exec_windowEntry_full (hend : (getEng s e).ended = false) (hfull : 8 ≤ (getEng s e).win.length) :
    exec (.windowEntry e) s = .next s := by
  show execWindowEntry e s = _
  unfold execWindowEntry
  dsimp only
  rw [hend, if_neg Bool.false_ne_true, if_pos hfull, ite_self]

theorem exec_windowEntry_enters {c : PCmd} {k : Nat} (hrun : (getEng s e).running = true)
    (hlive : aborted s (clientOn s (engDie e)) = false) (hend : (getEng s e).ended = false) (hroom : (getEng s e).win.length < 8)
    (hnext : nextCmd e (getEng s e).words ((plateOf s e).2 - (getEng s e).entered) = some (c, k, false))
    (hcached : ∀ t, engTile e = some t → ∀ x ∈ namesOf e c, nameCached s t.val x = true) :
    exec (.windowEntry e) s = .next (setEng e (enteredEng e c k s) (useNames e (namesOf e c) s)) := by
  have hhit : ∀ t, engTile e = some t → ¬ (!false && (namesOf e c).any fun x => !nameCached s t.val x) = true := fun t ht => by
    rw [List.any_eq_false.2 fun x hx => by rw [hcached t ht x hx]; decide]
    decide
  rw [← enterWindow_known]
  show execWindowEntry e s = _
  unfold execWindowEntry
  dsimp only
  rw [if_neg (by rw [hrun, hlive]; decide), hend, if_neg Bool.false_ne_true, if_neg (Nat.not_le.2 hroom), hnext]
  dsimp only
  cases ht : engTile e with
  | some t => exact congrArg Host.Outcome.next (if_neg (hhit t ht))
  | none => exact congrArg Host.Outcome.next (if_neg Bool.false_ne_true)

/-! ### The token watchdog (R228) -/

/-- The engines of a die whose oldest command waits for tokens. -/
def lackingEngines (s : State) (d : DieId) : List Eng := (enginesOf d.val).filter fun f => (lacks s f).isSome

/-- The state in which the token-deadlock fault is raised: the fault counted, and each register that an engine lacks recorded
in the status of its file (R237). -/
def tokenDeadlockNoted (d : DieId) (s : State) : State :=
  (lackingEngines s d).foldl (fun s e => noteTokenFault d.val (ownFile e) ((lacks s e).getD 0) 2 s) (bumpDict (dkey 0x4040 0x03) 1 s)

theorem tokenDeadlockNoted_only (d : DieId) (s : State) : Only accountParts s (tokenDeadlockNoted d s) :=
  ((bumpDict_only _ _ _).mono (by decide)).step (Only.foldl (fun s _ => noteTokenFault_only _ _ _ _ s) _ _) (by decide)

theorem exec_tokenWatchdogFire {d : DieId} {c : ClientId} (hrun : clientOn s d.val = c.val)
    (hheld : watchdogHeld s d.val c.val = false) (hstuck : ∀ f ∈ enginesOf d.val, tokenStuck s f = true)
    (hfirst : (lackingEngines s d).head? = some e) : exec (.tokenWatchdogFire d c) s =
      .next (raiseFault c.val 0x0306 (tokenDetail e (ownFile e) ((lacks s e).getD 0)) (tokenDeadlockNoted d s)) := by
  obtain ⟨es, hes⟩ := List.head?_eq_some_iff.1 hfirst
  have hgo : ¬ (watchdogHeld s d.val c.val = true ∨ clientOn s d.val ≠ c.val ∨ lackingEngines s d = [] ∨
      ¬ (enginesOf d.val).all (tokenStuck s) = true) := by
    rw [hheld, List.all_eq_true.2 hstuck, hes]
    simp [hrun]
  show execTokenWatchdogFire d c s = _
  unfold execTokenWatchdogFire
  refine congrArg Host.Outcome.next ((if_neg hgo).trans ?_)
  unfold tokenDeadlockNoted
  unfold lackingEngines at hes ⊢
  rw [hes]

end

/-- Settles O16: command by command. -/
theorem plateFeed : Obligations.PlateFeed := by
  unfold Obligations.PlateFeed
  refine ⟨fun e s hrun hend hleft hroom => ?_, fun t name s => ?_, fun e s c k hrun hlive hend hroom hnext hcached => ?_,
    fun e s hend hfull => exec_windowEntry_full hend hfull, fun k p s hp hf hr => tokenArrive_delivers hp hf hr,
    fun d c e s hrun hheld hstuck hfirst => ?_⟩
  · obtain ⟨hwords, hstore, honly, heng⟩ := deliverLine_spec e (clientOn s (engDie e)) ((plateOf s e).1 + 8 * (getEng s e).fetched) s
    refine ⟨_, exec_plateFetch hrun hend hleft hroom, ?_, fun f hf => ?_, fun x => hstore.peekByte x,
      (honly.mono (by decide)).step (setEng_only _ _ _) (by decide)⟩
    · rw [getEng_setEng, if_pos rfl, hwords]
    · rw [getEng_setEng, if_neg hf, heng]
  · cases hc : nameCached s t.val name with
    | true => exact ⟨s, exec_catalogCacheFill_hit hc, hc, fun _ => rfl, fun _ _ => rfl, fun h => absurd h (by decide), Only.rfl' s⟩
    | false =>
      have hbump := bumpDict_only (dkey 0x4040 0x06) 1 s
      refine ⟨_, exec_catalogCacheFill_miss hc, useName_caches _ _ _, fun h => absurd h (by decide), fun k hk => ?_, fun _ => rfl,
        (hbump.mono (by decide)).step (useName_only _ _ _) (by decide)⟩
      rw [useName_names, if_neg hk]
      unfold getCaches
      rw [hbump.plates (by decide)]
  · refine ⟨_, enteringCmd e c s, exec_windowEntry_enters hrun hlive hend hroom hnext hcached, rfl, rfl, rfl, rfl, ?_, fun f hf => ?_,
      (useNames_only _ _ _).trans (setEng_only _ _ _)⟩
    · rw [getEng_setEng, if_pos rfl]
      rfl
    · rw [getEng_setEng, if_neg hf, getEng_useNames]
  · exact ⟨_, _, exec_tokenWatchdogFire hrun hheld hstuck hfirst, tokenDeadlockNoted_only d s, raiseFault_raised _ _ _ _⟩

end Sys2Proof.Machine
end

section
/-! O28: time exchanges with the parent, the timing tree, and external references (R276, R277, R279). -/

namespace Sys2Proof.Machine

/-! ### Exchanges with the parent (R277) -/

/-- A message whose layout is open, opened in a state and queued at a port: the port's queue ends with it, of its type, and nothing else
has changed but the values drawn. -/
theorem openMsg_sent (k p : Nat) (hk : k < 256) (s : State) :
    let n := sendCtl p (openMsg k s).1 (openMsg k s).2
    fld (openMsg k s).1.1 0 8 = k ∧ (getPort n p).ctl = (getPort s p).ctl ++ [(openMsg k s).1] ∧
      (∀ q, q ≠ p → getPort n q = getPort s q) ∧ n.fabric.time = s.fabric.time ∧ Only [.fabric, .free] s n := by
  intro n
  obtain ⟨htype, hopen⟩ := openMsg_spec k s hk
  have hfab : (openMsg k s).2.fabric = s.fabric := hopen.fabric (by decide)
  refine ⟨htype, ?_, fun q hq => ?_, (setPort_time p _ _).trans (by rw [hfab]), (hopen.mono (by decide)).step (sendCtl_only p _ _) (by decide)⟩
  · rw [sendCtl_getPort, if_pos rfl, getPort_congr hfab]
  · rw [sendCtl_getPort, if_neg hq, getPort_congr hfab]

theorem timeRequest_sends {s : State} {p : Nat} (hp : s.fabric.time.parent = some p) : ∃ n m, exec .timeRequest s = .next n ∧
    fld m.1 0 8 = 1 ∧ (getPort n p).ctl = (getPort s p).ctl ++ [m] ∧ (∀ q, q ≠ p → getPort n q = getPort s q) ∧ Only [.fabric, .free] s n := by
  have hx : exec .timeRequest s = .next (sendCtl p (openMsg 1 s).1 (openMsg 1 s).2) := by
    show execTimeRequest s = _
    unfold execTimeRequest
    rw [hp]
  obtain ⟨htype, hctl, hother, -, honly⟩ := openMsg_sent 1 p (by decide) s
  exact ⟨_, _, hx, htype, hctl, hother, honly⟩

theorem timeRequestArrival_answers (s : State) (p : PortId) (t1 : Int) : ∃ n m t2 t3, exec (.timeRequestArrival p t1) s = .next n ∧
    fld m.1 0 8 = 2 ∧ (getPort n p.val).ctl = (getPort s p.val).ctl ++ [m] ∧
    n.fabric.time = { s.fabric.time with reply := [t1, t2, t3] } ∧ (s.tick : Int) * 80000 ≤ t2 ∧ t2 ≤ t3 ∧ Only [.fabric, .free] s n := by
  obtain ⟨z, hz⟩ : ∃ z, z = (fresh (fresh s).2).2 := ⟨_, rfl⟩
  have hsz : Only [.free] s z := hz ▸ (fresh_only s).trans (fresh_only _)
  obtain ⟨t2, h2⟩ : ∃ t2 : Int, t2 = s.tick * 80000 + ((fresh s).1.toNat % 80000 : Nat) := ⟨_, rfl⟩
  obtain ⟨t3, h3⟩ : ∃ t3 : Int, t3 = t2 + ((fresh (fresh s).2).1.toNat % 80000 : Nat) := ⟨_, rfl⟩
  let y := setTime (fun t => { t with reply := [t1, t2, t3] }) (openMsg 2 z).2
  have hx : exec (.timeRequestArrival p t1) s = .next (sendCtl p.val (openMsg 2 z).1 y) := by
    subst h3 h2 hz
    rfl
  obtain ⟨htype, hopen⟩ := openMsg_spec 2 z (by decide)
  have hfab : (openMsg 2 z).2.fabric = s.fabric := (hopen.fabric (by decide)).trans (hsz.fabric (by decide))
  have hports : getPort y p.val = getPort s p.val := getPort_congr (n := (openMsg 2 z).2) hfab p.val
  refine ⟨_, (openMsg 2 z).1, t2, t3, hx, htype, ?_, ?_, by omega, by omega, ?_⟩
  · rw [sendCtl_getPort, if_pos rfl, hports]
  · show { (openMsg 2 z).2.fabric.time with reply := [t1, t2, t3] } = _
    rw [hfab]
  · exact (((hsz.trans hopen).mono (by decide)).step (setTime_only _ _) (by decide)).step (sendCtl_only _ _ _) (by decide)

/-- The state in which a response moves the lock state: the offset recorded and to be trimmed, the tick count taken while acquiring. -/
def responseTaken (o t4 : Int) (s : State) : State :=
  let s1 := setDict (dkey 0x5000 0x09) (BitVec.ofNat 64 (ofSigned 32 (offsetPs o))) s
  setTime (fun t => { t with phase := o / 2 })
    (if (getDict s (dkey 0x5000 0x08)).toNat = 0 then { s1 with tick := ((2 * t4 + o) / 160000).toNat } else s1)

theorem responseTaken_spec (o t4 : Int) (s : State) : let y := responseTaken o t4 s
    y.fabric.time = { s.fabric.time with phase := o / 2 } ∧
    (∀ j, getDict y j = if j = dkey 0x5000 0x09 then BitVec.ofNat 64 (ofSigned 32 (offsetPs o)) else getDict s j) ∧
    y.tick = (if (getDict s (dkey 0x5000 0x08)).toNat = 0 then ((2 * t4 + o) / 160000).toNat else s.tick) ∧ Only [.fabric, .tick, .dict] s y := by
  unfold responseTaken
  have hd := setDict_only (dkey 0x5000 0x09) (BitVec.ofNat 64 (ofSigned 32 (offsetPs o))) s
  have hv := fun j => getDict_setDict s (dkey 0x5000 0x09) j (BitVec.ofNat 64 (ofSigned 32 (offsetPs o)))
  generalize setDict (dkey 0x5000 0x09) (BitVec.ofNat 64 (ofSigned 32 (offsetPs o))) s = s1 at hd hv
  have hf : s1.fabric = s.fabric := hd.fabric (by decide)
  dsimp only
  split
  · exact ⟨congrArg (fun f : Fabric => { f.time with phase := o / 2 }) hf, hv, rfl,
      ((hd.mono (by decide)).step (only_tick _ s1) (by decide)).step (setTime_only _ _) (by decide)⟩
  · exact ⟨congrArg (fun f : Fabric => { f.time with phase := o / 2 }) hf, hv, hd.tick (by decide), (hd.mono (by decide)).step (setTime_only _ _) (by decide)⟩

theorem timeResponse_locks {s : State} (t1 t2 t3 t4 : Int) (hroot : isRoot s = false) (hp : s.fabric.time.parent ≠ none) :
    ∃ n, exec (.timeResponse t1 t2 t3 t4) s = .next n ∧
      let o := offset2 t1 t2 t3 t4
      let ps := offsetPs o
      let good := if ps.natAbs ≤ 10000 then s.fabric.time.good + 1 else 0
      let state := (getDict s (dkey 0x5000 0x08)).toNat
      n.fabric.time.phase = o / 2 ∧ n.fabric.time.good = min good 64 ∧
      getDict n (dkey 0x5000 0x09) = BitVec.ofNat 64 (ofSigned 32 ps) ∧
      n.tick = (if state = 0 then ((2 * t4 + o) / 160000).toNat else s.tick) ∧
      getDict n (dkey 0x5000 0x08) = (if state = 1 ∧ 500000 < ps.natAbs then 2 else if state ≠ 1 ∧ 64 ≤ good then 1
        else getDict s (dkey 0x5000 0x08)) ∧
      Only (.fabric :: .tick :: .clients :: accountParts) s n := by
  let o := offset2 t1 t2 t3 t4
  have hx : exec (.timeResponse t1 t2 t3 t4) s = .next (lockState (offsetPs o) (responseTaken o t4 s)) :=
    congrArg Host.Outcome.next (if_neg fun h => h.elim (by rw [hroot]; decide) hp)
  refine ⟨_, hx, ?_⟩
  obtain ⟨htime, hdict, htick, hy⟩ := responseTaken_spec o t4 s
  generalize responseTaken o t4 s = y at htime hdict htick hy
  obtain ⟨hn, hphase, hgood, hkept, hlock⟩ := lockState_spec (offsetPs o) y
  have hstate : getDict y (dkey 0x5000 0x08) = getDict s (dkey 0x5000 0x08) := (hdict _).trans (if_neg (by decide))
  rw [hstate, htime] at hlock
  rw [htime] at hphase hgood
  exact ⟨hphase, hgood, (hkept _ (by decide) (by decide)).trans ((hdict _).trans (if_pos rfl)), (hn.tick (by decide)).trans htick, hlock,
    (hy.mono (by decide)).step hn (by decide)⟩

/-! ### The timing tree (R276) -/

/-- A chosen parent port is up, and no port that is up has a peer nearer a root. -/
theorem chooseParent_nearest {s : State} {p : Nat} (h : chooseParent s = some p) :
    portState s p = 2 ∧ ∀ q, q < 32 → portState s q = 2 → depthOf s p ≤ depthOf s q := by
  obtain ⟨hmem, hmin, -⟩ := foldl_nearest (depthOf s) ((List.range 32).filter fun p => portState s p = 2) none p h
  refine ⟨?_, fun q hq hup => hmin q (List.mem_filter.2 ⟨List.mem_range.2 hq, decide_eq_true hup⟩)⟩
  exact of_decide_eq_true (List.mem_filter.1 (hmem.resolve_right (Option.some_ne_none p).symm)).2

theorem joinTree_chooses {s : State} (hroot : isRoot s = false) : (joinTree s).fabric.time.parent = chooseParent s ∧
    (∀ p, chooseParent s = some p → getDict (joinTree s) (dkey 0x5000 0x0A) = BitVec.ofNat 64 (depthOf s p + 1)) ∧
    Only [.fabric, .dict] s (joinTree s) := by
  unfold joinTree
  rw [hroot, if_neg Bool.false_ne_true]
  cases chooseParent s with
  | none => exact ⟨rfl, fun _ h => (nomatch h), (setTime_only _ s).mono (by decide)⟩
  | some p =>
    refine ⟨rfl, fun q hq => ?_, ((setTime_only _ _).mono (by decide)).step (setDict_only _ _ _) (by decide)⟩
    cases hq
    exact (getDict_setDict _ _ _ _).trans (if_pos rfl)

theorem parentReselect_chooses {s : State} (hroot : isRoot s = false) (hdown : ∀ p, s.fabric.time.parent = some p → portState s p ≠ 2) :
    ∃ n, exec .parentReselect s = .next n ∧ n.fabric.time.parent = chooseParent s ∧
      (∀ p, chooseParent s = some p → portState s p = 2 ∧ (∀ q, q < 32 → portState s q = 2 → depthOf s p ≤ depthOf s q) ∧
        getDict n (dkey 0x5000 0x0A) = BitVec.ofNat 64 (depthOf s p + 1)) ∧ Only [.fabric, .dict] s n := by
  have hx : exec .parentReselect s = .next (joinTree s) := by
    show execParentReselect s = _
    unfold execParentReselect
    cases hp : s.fabric.time.parent with
    | none => rfl
    | some p => exact congrArg Host.Outcome.next (if_neg (hdown p hp))
  obtain ⟨hparent, hdepth, honly⟩ := joinTree_chooses hroot
  refine ⟨_, hx, hparent, fun p hp => ?_, honly⟩
  obtain ⟨hup, hmin⟩ := chooseParent_nearest hp
  exact ⟨hup, hmin, hdepth p hp⟩

/-! ### External references (R279) -/

theorem tickInEdge_counts (s : State) : (s.fabric.time.edges + 1 < 10 → ∃ n, exec .tickInEdge s = .next n ∧
      n.fabric.time = { s.fabric.time with edges := s.fabric.time.edges + 1 } ∧ Only [.fabric] s n) ∧
    (10 ≤ s.fabric.time.edges + 1 → ∃ n, exec .tickInEdge s = .next n ∧
      n.fabric.time = (if extRoot s then { s.fabric.time with edges := 0, phase := 0 }
        else { s.fabric.time with edges := 0 }) ∧ Only [.fabric] s n) := by
  refine ⟨fun h => ⟨_, congrArg Host.Outcome.next (if_pos h), rfl, setTime_only _ s⟩, fun h => ?_⟩
  refine ⟨_, congrArg Host.Outcome.next (if_neg (Nat.not_lt.2 h)), ?_, Only.ite (setTime_only _ s) (setTime_only _ s)⟩
  split <;> rfl

/-- The next multiple of a number, at or after another. -/
theorem cdiv_mul_next (a : Nat) {b : Nat} (hb : 0 < b) : a ≤ cdiv a b * b ∧ cdiv a b * b < a + b ∧ cdiv a b * b % b = 0 := by
  unfold cdiv
  have hdiv := Nat.div_add_mod (a + b - 1) b
  have hmod := Nat.mod_lt (a + b - 1) hb
  rw [Nat.mul_comm] at hdiv
  exact ⟨by omega, by omega, Nat.mul_mod_left _ _⟩

theorem ppsInEdge_sets {s : State} (hext : extRoot s = true) : ∃ n, exec .ppsInEdge s = .next n ∧ s.tick ≤ n.tick ∧
    n.tick < s.tick + 1000000 ∧ n.tick % 1000000 = 0 ∧ Only [.tick] s n := by
  obtain ⟨hle, hlt, hmod⟩ := cdiv_mul_next s.tick (b := 1000000) (by decide)
  exact ⟨_, congrArg Host.Outcome.next (if_pos hext), hle, hlt, hmod, only_tick _ s⟩

/-- A state in which a reference is noted as lost or there again. -/
def referenceNoted (pps lost : Bool) (s : State) : State :=
  setTime (fun t => if pps then { t with lostPps := lost } else { t with lostTick := lost }) s

theorem referenceLost_holds {s : State} (pps : Bool) (hext : extRoot s = true) :
    ∃ n, exec (.referenceLost pps) s = .next n ∧ getDict n (dkey 0x5000 0x08) = 3 ∧
      n.fabric.time = (if pps then { s.fabric.time with lostPps := true } else { s.fabric.time with lostTick := true }) ∧
      n.host.posted = (post 0x0403 16 (if pps then 2 else 1) s).host.posted ∧ Only [.fabric, .dict, .host, .logs] s n := by
  let y := setTickState 3 (referenceNoted pps true s)
  have hx : exec (.referenceLost pps) s = .next (post 0x0403 16 (if pps then 2 else 1) y) :=
    congrArg Host.Outcome.next (if_neg (not_not.2 hext))
  have hy : Only [.fabric, .dict] s y := ((setTime_only _ s).mono (by decide)).step (setDict_only _ _ _) (by decide)
  have hpost := post_only 0x0403 16 (if pps then 2 else 1) y
  refine ⟨_, hx, ?_, ?_, ?_, (hy.mono (by decide)).step hpost (by decide)⟩
  · rw [getDict_congr (hpost.dict (by decide))]
    exact (getDict_setDict _ _ _ _).trans (if_pos rfl)
  · rw [hpost.fabric (by decide)]
    rfl
  · exact post_posted_congr (by rw [hy.host (by decide)]) (hy.clients (by decide)) (hy.tick (by decide)) _ _ _

theorem referenceRegained_locks {s : State} (pps : Bool) (hext : extRoot s = true) :
    ∃ n, exec (.referenceRegained pps) s = .next n ∧
      n.fabric.time = (if pps then { s.fabric.time with lostPps := false } else { s.fabric.time with lostTick := false }) ∧
      (n.fabric.time.lostPps = false → n.fabric.time.lostTick = false → getDict n (dkey 0x5000 0x08) = 1) ∧ Only [.fabric, .dict] s n := by
  let y := referenceNoted pps false s
  have hy : Only [.fabric] s y := setTime_only _ s
  have hx : exec (.referenceRegained pps) s = .next (if (y.fabric.time.lostPps || y.fabric.time.lostTick) = true then y else setTickState 1 y) :=
    congrArg Host.Outcome.next (if_neg (not_not.2 hext))
  cases hlost : (y.fabric.time.lostPps || y.fabric.time.lostTick) with
  | true =>
    rw [hlost, if_pos rfl] at hx
    refine ⟨y, hx, rfl, fun hp ht => ?_, hy.mono (by decide)⟩
    rw [hp, ht] at hlost
    exact absurd hlost Bool.false_ne_true
  | false =>
    rw [hlost, if_neg Bool.false_ne_true] at hx
    exact ⟨_, hx, rfl, fun _ _ => (getDict_setDict _ _ _ _).trans (if_pos rfl), (hy.mono (by decide)).step (setDict_only _ _ _) (by decide)⟩

/-- Settles O28: the exchanges with the parent, the choice of the parent, the two edges, a reference lost and regained. -/
theorem timeSynchronisation : Obligations.TimeSynchronisation := by
  unfold Obligations.TimeSynchronisation
  exact ⟨fun s p hp => timeRequest_sends hp, timeRequestArrival_answers, fun s t1 t2 t3 t4 hroot hp => timeResponse_locks t1 t2 t3 t4 hroot hp,
    fun s hroot hdown => parentReselect_chooses hroot hdown, tickInEdge_counts, fun s hext => ppsInEdge_sets hext,
    fun s pps hext => ⟨referenceLost_holds pps hext, referenceRegained_locks pps hext⟩⟩

end Sys2Proof.Machine
end

section
/-! O47: flits sent and received, and the recovery of a port (R270 to R273). -/

namespace Sys2Proof.Machine

theorem PortIs.only {s n m : State} {p : Nat} {y : Port} {ks : List Part} (h : PortIs s n p y) (k : Only ks n m) (hk : Part.fabric ∉ ks) :
    PortIs s m p y := h.congr (by rw [k.fabric hk])

/-! ### What a port puts on its wire (R270, R271) -/

section Send

variable (p : Nat) (x : Port) (s : State)

theorem putWire_setPort (f : Flit) (resend : Bool) : PortIs s (putWire p f resend (setPort p x s)) p (x.sent f resend s.free) ∧
    Only [.fabric, .free] s (putWire p f resend (setPort p x s)) := by
  have hset := setPort_is p x s
  obtain ⟨hport, honly⟩ := putWire_is p f resend (setPort p x s)
  rw [hset.1] at hport
  exact ⟨hset.trans hport, ((setPort_only p x s).mono (by decide)).trans honly⟩

theorem sendNew_setPort (f : Flit) : PortIs s (sendNew p f (setPort p x s)) p (x.sentNew f s.free) ∧
    Only [.fabric, .free] s (sendNew p f (setPort p x s)) := by
  have hset := setPort_is p x s
  obtain ⟨hport, honly⟩ := sendNew_is p f (setPort p x s)
  rw [hset.1] at hport
  exact ⟨hset.trans hport, ((setPort_only p x s).mono (by decide)).trans honly⟩

theorem sendIdle_setPort : Only [.fabric, .free] s (sendIdle p (setPort p x s)) ∧
    ∃ q, q < 4096 ∧ PortIs s (sendIdle p (setPort p x s)) p (x.sent { ftype := 0, seq := q } false (s.free + 1)) := by
  have hset := setPort_is p x s
  obtain ⟨honly, q, hq, hport⟩ := sendIdle_is p (setPort p x s)
  rw [hset.1] at hport
  exact ⟨((setPort_only p x s).mono (by decide)).trans honly, q, hq, hset.trans hport⟩

end Send

/-- A state that has counted a flit of data sent at a port for a client. -/
def flitCounted (p total slot : Nat) (f : Flit) (s : State) : State :=
  noteServed (24 + p / 8) f.client 1 (bumpLedger f.client total f.data.length (bump (portStatus p) slot 1 s))

theorem flitCounted_only (p total slot : Nat) (f : Flit) (s : State) :
    Only [.regs, .sat, .ledger, .host, .logs, .served] s (flitCounted p total slot f s) :=
  (((bump_only _ _ _ s).mono (by decide)).step (bumpLedger_only _ _ _ _) (by decide)).step
    (noteServed_kept _ _ _ (Kept.rfl' _) (ks := [.served]) (by decide)).only (by decide)

/-- A flit of data sent and counted at a port that has been set twice. -/
theorem flitCounted_sent (p : Nat) (total slot : Nat) (f : Flit) (x0 x : Port) (s : State) :
    let y := setPort p x0 s
    let n := flitCounted p total slot f (sendNew p f (setPort p x y))
    Only [.fabric, .regs, .dict, .sat, .ledger, .host, .logs, .served, .free] s n ∧ PortIs s n p (x.sentNew f s.free) := by
  intro y n
  have hset := setPort_is p x0 s
  obtain ⟨hport, honly⟩ := sendNew_setPort p x y f
  have hcount := flitCounted_only p total slot f (sendNew p f (setPort p x y))
  exact ⟨(((setPort_only _ _ _).mono (by decide)).step honly (by decide)).step hcount (by decide), (hset.trans hport).only hcount (by decide)⟩

/-! ### The flit that is due (R271) -/

section Next

variable {p : Nat} {s : State}

theorem sendNext_full (h : 512 ≤ (getPort s p).replay.length) : sendNext p s = sendIdle p s := if_pos h

theorem sendNext_control (hroom : (getPort s p).replay.length < 512) (hctl : (getPort s p).ctl ≠ []) : sendNext p s =
    sendNew p { ftype := 3, data := msgBytes ((getPort s p).ctl.take 15) } (setPort p { getPort s p with ctl := (getPort s p).ctl.drop 15 } s) :=
  (if_neg (Nat.not_le.2 hroom)).trans (if_pos (by rwa [List.isEmpty_iff]))

variable (hroom : (getPort s p).replay.length < 512) (hctl : (getPort s p).ctl = [])
include hroom hctl

theorem sendNext_timed {f : Flit} (hf : ((getPort s p).tt.find? fun f => slotLive s f.client f.slot && !aborted s f.client) = some f) :
    sendNext p s = pumpSends (flitCounted p 0x0E 0x20 f (sendNew p f (setPort p { getPort s p with tt := (getPort s p).tt.erase f } s))) := by
  refine ((if_neg (Nat.not_le.2 hroom)).trans (if_neg (by simp [hctl]))).trans ?_
  rw [hf]
  rfl

variable (htt : ((getPort s p).tt.find? fun f => slotLive s f.client f.slot && !aborted s f.client) = none)
include htt

theorem sendNext_bestEffort {f : Flit} {l : List Flit} (hbe : (getPort s p).be = f :: l) :
    sendNext p s = flitCounted p 0x10 0x28 f (sendNew p f (setPort p { getPort s p with be := l } s)) := by
  refine ((if_neg (Nat.not_le.2 hroom)).trans (if_neg (by simp [hctl]))).trans ?_
  rw [htt]
  dsimp only
  rw [hbe]
  rfl

theorem sendNext_idle (hbe : (getPort s p).be = []) : sendNext p s = sendIdle p s := by
  refine ((if_neg (Nat.not_le.2 hroom)).trans (if_neg (by simp [hctl]))).trans ?_
  rw [htt]
  dsimp only
  rw [hbe]

end Next

/-! ### FLIT_SEND (R270 to R273) -/

/-- The flit that a port's peer has asked for again, where the replay buffer still holds it. -/
def Port.asked (x : Port) : Option Flit := x.resend.bind fun q => x.replay.find? fun f => decide (f.seq = q)

/-- A port that has dealt with what its peer asked for. -/
def Port.settled (x : Port) : Port := { x with resend := none }

/-- A port that has sent another marker. -/
def Port.marked (x : Port) : Port := { x with marks := x.marks + 1 }

section FlitSend

variable {p : PortId} {s : State}

theorem flitSend_down (h : portState s p.val ≠ 2) : exec (.flitSend p) s = .next s := congrArg Host.Outcome.next (if_pos h)

variable (hup : portState s p.val = 2)
include hup

theorem flitSend_resends {f : Flit} (hf : (getPort s p.val).asked = some f) : ∃ n, exec (.flitSend p) s = .next n ∧
    PortIs s n p.val ((getPort s p.val).settled.sent f true s.free) ∧
    Only [.fabric, .regs, .dict, .sat, .ledger, .host, .logs, .served, .free] s n := by
  obtain ⟨hport, honly⟩ := putWire_setPort p.val (getPort s p.val).settled s f true
  have hx : exec (.flitSend p) s = .next (bumpDict (dkey 0x5000 0x10) 1 (bump (portStatus p.val) 0x08 1
      (putWire p.val f true (setPort p.val (getPort s p.val).settled s)))) := by
    refine congrArg Host.Outcome.next ((if_neg (not_not.2 hup)).trans ?_)
    unfold Port.asked at hf
    rw [hf]
    rfl
  generalize putWire p.val f true (setPort p.val (getPort s p.val).settled s) = y at hport honly hx
  have hbump := bump_only (portStatus p.val) 0x08 1 y
  have hdict := bumpDict_only (dkey 0x5000 0x10) 1 (bump (portStatus p.val) 0x08 1 y)
  exact ⟨_, hx, (hport.only hbump (by decide)).only hdict (by decide),
    ((honly.mono (by decide)).step hbump (by decide)).step hdict (by decide)⟩

variable (hnone : (getPort s p.val).asked = none)
include hnone

/-- What a port sends whose peer asks for nothing again. -/
theorem exec_flitSend : let x := (getPort s p.val).settled
    let y := setPort p.val x s
    exec (.flitSend p) s = .next (match x.again with
      | f :: l => putWire p.val f false (setPort p.val { x with again := l } y)
      | [] => if 4095 ≤ x.since then
          let z := sendIdle p.val (setPort p.val x.marked y)
          setPort p.val { getPort z p.val with since := 0 } z
        else sendNext p.val y) := by
  refine congrArg Host.Outcome.next ((if_neg (not_not.2 hup)).trans ?_)
  unfold Port.asked at hnone
  rw [hnone]
  rfl

theorem flitSend_again {f : Flit} {l : List Flit} (ha : (getPort s p.val).again = f :: l) : ∃ n, exec (.flitSend p) s = .next n ∧
    PortIs s n p.val (({ (getPort s p.val).settled with again := l } : Port).sent f false s.free) ∧ Only [.fabric, .free] s n := by
  have hx := exec_flitSend hup hnone
  dsimp only at hx
  rw [show (getPort s p.val).settled.again = f :: l from ha] at hx
  obtain ⟨hport, honly⟩ := putWire_setPort p.val { (getPort s p.val).settled with again := l } (setPort p.val (getPort s p.val).settled s) f false
  exact ⟨_, hx, (setPort_is _ _ _).trans hport, ((setPort_only _ _ _).mono (by decide)).trans honly⟩

variable (hagain : (getPort s p.val).again = [])
include hagain

theorem flitSend_marks (h : 4095 ≤ (getPort s p.val).since) : ∃ n, exec (.flitSend p) s = .next n ∧ Only [.fabric, .free] s n ∧
    ∃ q, q < 4096 ∧ PortIs s n p.val { ({ (getPort s p.val).settled with marks := (getPort s p.val).marks + 1 } : Port).sent
      { ftype := 0, seq := q } false (s.free + 1) with since := 0 } := by
  have hx := exec_flitSend hup hnone
  dsimp only at hx
  rw [show (getPort s p.val).settled.again = [] from hagain] at hx
  dsimp only at hx
  rw [if_pos (show 4095 ≤ (getPort s p.val).settled.since from h)] at hx
  obtain ⟨honly, q, hq, hport⟩ := sendIdle_setPort p.val (getPort s p.val).settled.marked (setPort p.val (getPort s p.val).settled s)
  generalize sendIdle p.val (setPort p.val (getPort s p.val).settled.marked (setPort p.val (getPort s p.val).settled s)) = z at hx honly hport
  have hall := (setPort_is p.val (getPort s p.val).settled s).trans hport
  refine ⟨_, hx, (((setPort_only _ _ s).mono (by decide)).trans honly).step (setPort_only _ _ z) (by decide), q, hq, ?_⟩
  rw [hall.1]
  exact hall.trans (setPort_is _ _ z)

variable (hsince : (getPort s p.val).since < 4095)
include hsince

theorem exec_flitSend_next : exec (.flitSend p) s = .next (sendNext p.val (setPort p.val (getPort s p.val).settled s)) := by
  have hx := exec_flitSend hup hnone
  dsimp only at hx
  rw [show (getPort s p.val).settled.again = [] from hagain] at hx
  exact hx.trans (congrArg Host.Outcome.next (if_neg (Nat.not_le.2 hsince)))

theorem flitSend_idles (h : sendNext p.val (setPort p.val (getPort s p.val).settled s) = sendIdle p.val (setPort p.val (getPort s p.val).settled s)) :
    ∃ n, exec (.flitSend p) s = .next n ∧ Only [.fabric, .free] s n ∧
      ∃ q, q < 4096 ∧ PortIs s n p.val ((getPort s p.val).settled.sent { ftype := 0, seq := q } false (s.free + 1)) :=
  ⟨_, (exec_flitSend_next hup hnone hagain hsince).trans (congrArg Host.Outcome.next h), sendIdle_setPort p.val _ s⟩

variable (hroom : (getPort s p.val).replay.length < 512)
include hroom

theorem flitSend_control (hctl : (getPort s p.val).ctl ≠ []) : ∃ n, exec (.flitSend p) s = .next n ∧ Only [.fabric, .free] s n ∧
    PortIs s n p.val (({ (getPort s p.val).settled with ctl := (getPort s p.val).ctl.drop 15 } : Port).sentNew
      { ftype := 3, data := msgBytes ((getPort s p.val).ctl.take 15) } s.free) := by
  have hset := setPort_is p.val (getPort s p.val).settled s
  have hx := exec_flitSend_next hup hnone hagain hsince
  rw [sendNext_control (by rw [hset.1]; exact hroom) (by rw [hset.1]; exact hctl), hset.1] at hx
  obtain ⟨hport, honly⟩ := sendNew_setPort p.val { (getPort s p.val).settled with ctl := (getPort s p.val).ctl.drop 15 }
    (setPort p.val (getPort s p.val).settled s) { ftype := 3, data := msgBytes ((getPort s p.val).ctl.take 15) }
  exact ⟨_, hx, ((setPort_only _ _ _).mono (by decide)).trans honly, hset.trans hport⟩

variable (hctl : (getPort s p.val).ctl = [])
include hctl

theorem flitSend_timed {f : Flit} (hf : ((getPort s p.val).tt.find? fun f => slotLive s f.client f.slot && !aborted s f.client) = some f) :
    ∃ m, exec (.flitSend p) s = .next (pumpSends m) ∧ Only [.fabric, .regs, .dict, .sat, .ledger, .host, .logs, .served, .free] s m ∧
      PortIs s m p.val (({ (getPort s p.val).settled with tt := (getPort s p.val).tt.erase f } : Port).sentNew f s.free) := by
  have hset := setPort_is p.val (getPort s p.val).settled s
  have hx := exec_flitSend_next hup hnone hagain hsince
  rw [sendNext_timed (by rw [hset.1]; exact hroom) (by rw [hset.1]; exact hctl) (by rw [hset.1]; exact hf), hset.1] at hx
  exact ⟨_, hx, flitCounted_sent p.val 0x0E 0x20 f _ _ s⟩

variable (htt : ((getPort s p.val).tt.find? fun f => slotLive s f.client f.slot && !aborted s f.client) = none)
include htt

theorem flitSend_bestEffort {f : Flit} {l : List Flit} (hbe : (getPort s p.val).be = f :: l) :
    ∃ n, exec (.flitSend p) s = .next n ∧ Only [.fabric, .regs, .dict, .sat, .ledger, .host, .logs, .served, .free] s n ∧
      PortIs s n p.val (({ (getPort s p.val).settled with be := l } : Port).sentNew f s.free) := by
  have hset := setPort_is p.val (getPort s p.val).settled s
  have hx := exec_flitSend_next hup hnone hagain hsince
  rw [sendNext_bestEffort (by rw [hset.1]; exact hroom) (by rw [hset.1]; exact hctl) (by rw [hset.1]; exact htt) (by rw [hset.1]; exact hbe),
    hset.1] at hx
  exact ⟨_, hx, flitCounted_sent p.val 0x10 0x28 f _ _ s⟩

end FlitSend

/-! ### FLIT_RECEIVE (R272) -/

/-- A port that has taken what a received flit acknowledges and asks for again. -/
def Port.acked (x : Port) (bs : List Byte) : Port :=
  let h := leNat (bs.take 10)
  let ack := h / 2 ^ 16 % 4096
  { x with
    replay := x.replay.filter fun q => decide (2048 ≤ seqSub ack q.seq)
    again := x.again.filter fun q => decide (2048 ≤ seqSub ack q.seq)
    resend := if h.testBit 28 then some ((ack + 1) % 4096) else x.resend }

theorem takeAck_acked (p : Nat) (bs : List Byte) (s : State) : PortIs s (takeAck p bs s) p ((getPort s p).acked bs) ∧
    Only [.fabric, .plates, .clients] s (takeAck p bs s) := takeAck_is p bs s

/-- A state in which a port that still holds flits back asks for the missing one again. -/
def heldNaked (p : Nat) (w : State) : State :=
  if (getPort w p).held.isEmpty then w else setPort p { getPort w p with nak := true, awaiting := true } w

theorem heldNaked_spec (p : Nat) (w : State) : if (getPort w p).held = [] then heldNaked p w = w
    else PortIs w (heldNaked p w) p { getPort w p with nak := true, awaiting := true } ∧ Only [.fabric] w (heldNaked p w) := by
  unfold heldNaked
  split
  · next hnil => exact if_pos (List.isEmpty_iff.2 hnil)
  · next hheld =>
    rw [if_neg (mt List.isEmpty_iff.1 hheld)]
    exact ⟨setPort_is _ _ w, setPort_only _ _ w⟩

section FlitReceive

variable {p : PortId} {s : State} {f : FlitIn}

theorem flitReceive_down (h : portState s p.val ≠ 2) : exec (.flitReceive p f) s = .next s := congrArg Host.Outcome.next (if_pos h)

variable (hup : portState s p.val = 2)
include hup

theorem portRecovery_enters : exec (.portRecovery p .enter) s = .next (enterRecovery p.val s) := congrArg Host.Outcome.next (if_pos hup)

/-- A flit that fails its check. -/
theorem exec_flitReceive_bad (hbad : flitGood f = false) : let x := getPort s p.val
    exec (.flitReceive p f) s = .next (if x.awaiting = true ∧ (leNat (f.bytes.take 10)).testBit 3 = true then enterRecovery p.val s
      else if x.awaiting = true then s else setPort p.val { x with nak := true, awaiting := true } s) :=
  congrArg Host.Outcome.next ((if_neg (not_not.2 hup)).trans (if_pos (by rw [hbad]; exact Bool.false_ne_true)))

theorem flitReceive_bad (hbad : flitGood f = false) : let x := getPort s p.val
    (x.awaiting = false → ∃ n, exec (.flitReceive p f) s = .next n ∧ PortIs s n p.val { x with nak := true, awaiting := true } ∧ Only [.fabric] s n) ∧
    (x.awaiting = true → (leNat (f.bytes.take 10)).testBit 3 = false → exec (.flitReceive p f) s = .next s) ∧
    (x.awaiting = true → (leNat (f.bytes.take 10)).testBit 3 = true → exec (.flitReceive p f) s = exec (.portRecovery p .enter) s) := by
  intro x
  have hx := exec_flitReceive_bad hup hbad
  refine ⟨fun ha => ⟨_, ?_, setPort_is p.val { x with nak := true, awaiting := true } s, setPort_only _ _ s⟩, fun ha hr => ?_, fun ha hr => ?_⟩
  · have hna : ¬ x.awaiting = true := by rw [ha]; decide
    exact hx.trans (congrArg Host.Outcome.next ((if_neg fun h => hna h.1).trans (if_neg hna)))
  · exact hx.trans (congrArg Host.Outcome.next ((if_neg fun h => by rw [hr] at h; exact Bool.false_ne_true h.2).trans (if_pos ha)))
  · rw [portRecovery_enters hup]
    exact hx.trans (congrArg Host.Outcome.next (if_pos ⟨ha, hr⟩))

variable (hgood : flitGood f = true)
include hgood

/-- A flit that passes its check, once what it acknowledges is taken. -/
theorem exec_flitReceive_good : let g := flitOf f.bytes
    let z := takeAck p.val f.bytes s
    let y := getPort z p.val
    let d := seqSub g.seq y.rxNext
    exec (.flitReceive p f) s = .next (if g.ftype = 0 then z
      else if d = 0 then
        let w := drainHeld p 512 (takeFlit p g (setPort p.val { y with rxNext := (y.rxNext + 1) % 4096, nak := false, awaiting := false } z))
        pumpSends (heldNaked p.val w)
      else if d ≤ 512 then
        setPort p.val { y with held := mset none y.held g.seq (some g), nak := y.nak || !y.awaiting, awaiting := true } z
      else z) :=
  congrArg Host.Outcome.next ((if_neg (not_not.2 hup)).trans (if_neg (not_not.2 hgood)))

/-- A good flit that takes nothing but its acknowledgement: an idle one, or one that is not to come. -/
theorem flitReceive_acks (h : (flitOf f.bytes).ftype = 0 ∨ 512 < seqSub (flitOf f.bytes).seq (getPort s p.val).rxNext) :
    ∃ n, exec (.flitReceive p f) s = .next n ∧ PortIs s n p.val ((getPort s p.val).acked f.bytes) ∧ Only [.fabric, .plates, .clients] s n := by
  have hack := takeAck_acked p.val f.bytes s
  refine ⟨_, (exec_flitReceive_good hup hgood).trans (congrArg Host.Outcome.next ?_), hack⟩
  rw [hack.1.1]
  by_cases h0 : (flitOf f.bytes).ftype = 0
  · exact if_pos h0
  · have hd := h.resolve_left h0
    exact (if_neg h0).trans ((if_neg (Nat.ne_of_gt (Nat.lt_trans (by decide) hd))).trans (if_neg (Nat.not_le.2 hd)))

variable (htype : (flitOf f.bytes).ftype ≠ 0)
include htype

theorem flitReceive_holds (h1 : 1 ≤ seqSub (flitOf f.bytes).seq (getPort s p.val).rxNext)
    (h2 : seqSub (flitOf f.bytes).seq (getPort s p.val).rxNext ≤ 512) : let g := flitOf f.bytes
    let x := getPort s p.val
    ∃ n, exec (.flitReceive p f) s = .next n ∧ Only [.fabric, .plates, .clients] s n ∧
      PortIs s n p.val { x.acked f.bytes with held := mset none x.held g.seq (some g), nak := x.nak || !x.awaiting, awaiting := true } := by
  intro g x
  obtain ⟨hport, honly⟩ := takeAck_acked p.val f.bytes s
  have hx := (exec_flitReceive_good hup hgood).trans (congrArg Host.Outcome.next (if_neg htype))
  rw [hport.1] at hx
  exact ⟨_, hx.trans (congrArg Host.Outcome.next ((if_neg (Nat.ne_of_gt h1)).trans (if_pos h2))), honly.step (setPort_only _ _ _) (by decide),
    hport.trans (setPort_is _ _ _)⟩

theorem flitReceive_delivers (h : seqSub (flitOf f.bytes).seq (getPort s p.val).rxNext = 0) : let g := flitOf f.bytes
    let x := getPort s p.val
    ∃ m z, exec (.flitReceive p f) s = .next (pumpSends z) ∧ Only [.fabric, .plates, .clients] s m ∧
      PortIs s m p.val { x.acked f.bytes with rxNext := (x.rxNext + 1) % 4096, nak := false, awaiting := false } ∧
      (let w := drainHeld p 512 (takeFlit p g m)
       if (getPort w p.val).held = [] then z = w else PortIs w z p.val { getPort w p.val with nak := true, awaiting := true } ∧ Only [.fabric] w z) := by
  intro g x
  obtain ⟨hport, honly⟩ := takeAck_acked p.val f.bytes s
  have hx := (exec_flitReceive_good hup hgood).trans (congrArg Host.Outcome.next (if_neg htype))
  rw [hport.1] at hx
  exact ⟨_, _, hx.trans (congrArg Host.Outcome.next (if_pos h)), honly.step (setPort_only _ _ _) (by decide), hport.trans (setPort_is _ _ _),
    heldNaked_spec _ _⟩

end FlitReceive

/-! ### PORT_RECOVERY (R273) -/

/-- A port that has retrained: every unacknowledged flit is to be sent again in order, and nothing is held or asked for. -/
def Port.retrained (x : Port) : Port := { x with again := x.replay, resend := none, held := [], nak := false, awaiting := false }

theorem portRecovery_cases (p : PortId) (s : State) :
    let x := getPort s p.val
    let st := portState s p.val
    let recent := x.recovs.filter fun t => decide (s.tick < t + 1000000)
    (st ≠ 2 → exec (.portRecovery p .enter) s = .next s) ∧
    (st = 2 → ∃ n, exec (.portRecovery p .enter) s = .next n ∧ Only [.regs, .dict, .sat, .clients, .fabric, .host, .logs] s n ∧
      (if 2 ≤ recent.length then portState n p.val = 4 ∧ PortIs s n p.val { x with recovs := recent ++ [s.tick], failedAt := s.tick, swap := none }
       else portState n p.val = 3 ∧ PortIs s n p.val { x with recovs := recent ++ [s.tick] })) ∧
    (st ≠ 3 → exec (.portRecovery p .retrained) s = .next s) ∧
    (st = 3 → ∃ n, exec (.portRecovery p .retrained) s = .next n ∧ portState n p.val = 2 ∧ Only [.regs, .dict, .fabric] s n ∧
      PortIs s n p.val { x with again := x.replay, resend := none, held := [], nak := false, awaiting := false }) ∧
    (st ≠ 3 → exec (.portRecovery p .failed) s = .next s) ∧
    (st = 3 → ∃ n, exec (.portRecovery p .failed) s = .next n ∧ portState n p.val = 4 ∧
      Only [.regs, .dict, .sat, .clients, .fabric, .host, .logs] s n ∧ PortIs s n p.val { x with failedAt := s.tick, swap := none }) := by
  intro x st recent
  refine ⟨fun h => congrArg Host.Outcome.next (if_neg h), fun h => ⟨_, portRecovery_enters h, enterRecovery_spec p.val s⟩,
    fun h => congrArg Host.Outcome.next (if_neg h), fun h => ⟨_, congrArg Host.Outcome.next (if_pos h), ?_⟩,
    fun h => congrArg Host.Outcome.next (if_neg h), fun h => ⟨_, congrArg Host.Outcome.next (if_pos h), ?_⟩⟩
  · obtain ⟨hstate, honly⟩ := setPortState_spec p.val 2 (by decide) (setPort p.val x.retrained s)
    exact ⟨hstate, ((setPort_only p.val x.retrained s).mono (by decide)).step honly (by decide), (setPort_is p.val x.retrained s).only honly (by decide)⟩
  · obtain ⟨hstate, hport, honly⟩ := failPort_spec p.val s
    exact ⟨hstate, honly, hport⟩

/-- Settles O47: what a port sends, by what its peer asks for and what waits; what it receives, by the flit's check and number; its recovery. -/
theorem flits : Obligations.Flits := by
  unfold Obligations.Flits
  intro p s x st again x0 ready frame
  refine ⟨fun h => ⟨flitSend_down h, fun f => flitReceive_down h⟩, fun hup => ⟨fun f hf => flitSend_resends hup hf,
    fun hnone f l ha => flitSend_again hup hnone ha, fun hnone hagain => ⟨fun hsince => flitSend_marks hup hnone hagain hsince, fun hsince =>
      ⟨fun hfull => flitSend_idles hup hnone hagain hsince (sendNext_full ?_), fun hroom => ⟨fun hctl => flitSend_control hup hnone hagain hsince hroom hctl,
        fun hctl f hf => flitSend_timed hup hnone hagain hsince hroom hctl hf, fun hctl htt =>
          ⟨fun f l hbe => ?_, fun hbe => flitSend_idles hup hnone hagain hsince (sendNext_idle ?_ ?_ ?_ ?_)⟩⟩⟩⟩⟩,
    fun hup f => ⟨flitReceive_bad hup, fun hgood => ⟨flitReceive_acks hup hgood, flitReceive_holds hup hgood, flitReceive_delivers hup hgood⟩⟩,
    portRecovery_cases p s⟩
  · rwa [(setPort_is _ _ _).1]
  · obtain ⟨n, hx, hframe, hport⟩ := flitSend_bestEffort hup hnone hagain hsince hroom hctl htt hbe
    exact ⟨n, hx, hframe, hport⟩
  all_goals rw [(setPort_is _ _ _).1]; assumption

end Sys2Proof.Machine
end

section
/-! O48: slots, checkpoints, windows, step boundaries, stretches (R280, R283, R287 to R291, R301, R358). -/

namespace Sys2Proof.Machine

theorem inStep_iff {s : State} {c : Nat} {q : StepSt → Bool} : inStep s c q = true ↔ ∃ st, (getClient s c).step = some st ∧ q st = true := by
  unfold inStep
  cases (getClient s c).step <;> simp

/-- A slot is not in a list of the client's step. -/
theorem inStep_contains_iff {s : State} {c slot : Nat} {l : StepSt → List Nat} :
    inStep s c (fun st => (l st).contains slot) = true ↔ ¬ ∀ st, (getClient s c).step = some st → slot ∉ l st := by
  simp only [inStep_iff, List.contains_iff_mem, not_forall, not_not, exists_prop]

theorem slotBegun_step {s : State} {c slot : Nat} (h : slotBegun s c slot = true) : ∃ st, (getClient s c).step = some st := by
  unfold slotBegun at h
  simp only [Bool.and_eq_true] at h
  obtain ⟨⟨⟨hstep, -⟩, -⟩, -⟩ := h
  exact Option.isSome_iff_exists.1 hstep

/-- A change of a step that leaves its control slots alone leaves each as it is. -/
theorem getCtl_updStep {c : Nat} {f : StepSt → StepSt} (hf : ∀ st, (f st).ctl = st.ctl) (slot : Nat) (s : State) :
    getCtl (updStep c f s) c slot = getCtl s c slot := by
  unfold getCtl
  rw [updStep_getClient, if_pos rfl]
  cases (getClient s c).step with
  | none => rfl
  | some st => exact congrArg (fun m => mget {} m slot) (hf st)

/-! ### Windows that open (R283, R287) -/

/-- The ports of a slot. -/
def Slot.ports (e : Slot) : List Nat := if e.kind = 3 then [] else if e.kind = 2 then [e.port, e.inport] else [e.port]

/-- A slot's window is to open. -/
def OpenDue (s : State) (c slot : Nat) : Prop :=
  slotBegun s c slot = true ∧ (∀ st, (getClient s c).step = some st → slot ∉ st.opened) ∧ unlocked s = false ∧
    (∀ p ∈ ((shareOf s c).slot slot).ports, portState s (portFor s p) ≠ 4) ∧
    ¬ ((((shareOf s c).slot slot).kind = 0 ∨ ((shareOf s c).slot slot).kind = 2) ∧ portKept s c slot = true)

theorem exec_slotOpen (c : ClientId) (slot : Nat) (s : State) :
    let y := updStep c.val (fun st => { st with opened := st.opened ++ [slot] }) s
    (¬ OpenDue s c.val slot → exec (.slotOpen c slot) s = .next s) ∧
    (OpenDue s c.val slot → exec (.slotOpen c slot) s = .next (pumpSends (if ((shareOf s c.val).slot slot).kind = 3 then tryUp c.val slot y else y))) := by
  intro y
  have hfailed : (((shareOf s c.val).slot slot).ports.any fun p => decide (portState s (portFor s p) = 4)) = true ↔
      ¬ ∀ p ∈ ((shareOf s c.val).slot slot).ports, portState s (portFor s p) ≠ 4 := by
    simp only [List.any_eq_true, decide_eq_true_eq, not_forall, not_not, exists_prop, ne_eq]
  have hcond : (¬ slotBegun s c.val slot = true ∨ inStep s c.val (fun st => st.opened.contains slot) = true ∨ unlocked s = true ∨
      (((shareOf s c.val).slot slot).ports.any fun p => decide (portState s (portFor s p) = 4)) = true ∨
      ((((shareOf s c.val).slot slot).kind = 0 ∨ ((shareOf s c.val).slot slot).kind = 2) ∧ portKept s c.val slot = true)) ↔
      ¬ OpenDue s c.val slot := by
    unfold OpenDue
    rw [inStep_contains_iff, hfailed, ← Bool.not_eq_true (unlocked s)]
    tauto
  exact ⟨fun h => congrArg Host.Outcome.next (if_pos (hcond.2 h)), fun h => congrArg Host.Outcome.next (if_neg fun hn => hcond.1 hn h)⟩

theorem slotOpen_opens {c : ClientId} {slot : Nat} {s : State} (hdue : OpenDue s c.val slot) :
    ∃ y m, exec (.slotOpen c slot) s = .next (pumpSends m) ∧ Only [.clients] s y ∧
      Stepped s y c.val (fun st => { st with opened := st.opened ++ [slot] }) ∧
      (((shareOf s c.val).slot slot).kind ≠ 3 → m = y) ∧ (((shareOf s c.val).slot slot).kind = 3 → Upward c.val slot y m) := by
  refine ⟨_, _, (exec_slotOpen c slot s).2 hdue, updStep_only _ _ s, updStep_stepped _ _ s, fun h => if_neg h, fun h => ?_⟩
  rw [if_pos h]
  exact tryUp_upward _ _ _

/-! ### Checkpoints (R288) -/

/-- Why a slot is late at its checkpoint: a send slot whose flits cannot all leave in time, or stand in a recovery; a control slot
without the module's own records. -/
def checkpointCause (s : State) (c slot : Nat) : Option Nat :=
  let e := (shareOf s c).slot slot
  if e.kind = 0 then (if 412 * (remaining s c (slotEnd s c slot) - 2) < unsentFlits s c slot then some 0 else if inRecovery s c slot then some 1 else none)
  else if e.kind = 3 then (if (getCtl s c slot).own then none else some 3) else none

/-- A slot's checkpoint has come, and its window has not ended. -/
def CheckpointDue (s : State) (c slot : Nat) : Prop :=
  slotBegun s c slot = true ∧ remaining s c (slotEnd s c slot) ≤ (shareOf s c).lead ∧ remaining s c (slotEnd s c slot) ≠ 0

theorem exec_slotCheckpoint (c : ClientId) (slot : Nat) (s : State) : let e := (shareOf s c.val).slot slot
    (¬ CheckpointDue s c.val slot → exec (.slotCheckpoint c slot) s = .next s) ∧
    (CheckpointDue s c.val slot → exec (.slotCheckpoint c slot) s = .next ((checkpointCause s c.val slot).elim s fun k =>
      lateSlot c.val slot k (slotEnd s c.val slot) (if e.kind = 0 then some e.port else none) s)) := by
  intro e
  have hcond : (¬ slotBegun s c.val slot = true ∨ (shareOf s c.val).lead < remaining s c.val (slotEnd s c.val slot) ∨
      remaining s c.val (slotEnd s c.val slot) = 0) ↔ ¬ CheckpointDue s c.val slot := by
    unfold CheckpointDue
    rw [← Nat.not_le]
    tauto
  refine ⟨fun h => congrArg Host.Outcome.next (if_pos (hcond.2 h)), fun h => congrArg Host.Outcome.next ((if_neg fun hn => hcond.1 hn h).trans ?_)⟩
  unfold checkpointCause
  dsimp only
  by_cases h0 : e.kind = 0
  · rw [if_pos h0, if_pos h0, if_pos h0]
    split
    · rfl
    · split <;> rfl
  · rw [if_neg h0, if_neg h0, if_neg h0]
    split
    · split <;> rfl
    · rfl

theorem slotCheckpoint_cases (c : ClientId) (slot : Nat) (s : State) : let e := (shareOf s c.val).slot slot
    ((¬ CheckpointDue s c.val slot ∨ checkpointCause s c.val slot = none) → exec (.slotCheckpoint c slot) s = .next s) ∧
    (CheckpointDue s c.val slot → ∀ k, checkpointCause s c.val slot = some k → ∃ n, exec (.slotCheckpoint c slot) s = .next n ∧
      LateSlot c.val slot k (slotEnd s c.val slot) (if e.kind = 0 then some e.port else none) s n) := by
  intro e
  obtain ⟨hno, hyes⟩ := exec_slotCheckpoint c slot s
  refine ⟨fun h => ?_, fun hdue k hk => ?_⟩
  · by_cases hdue : CheckpointDue s c.val slot
    · rw [hyes hdue, h.resolve_left (not_not.2 hdue)]
      rfl
    · exact hno hdue
  · rw [hk] at hyes
    exact ⟨_, hyes hdue, lateSlot_late _ _ _ _ _ _⟩

/-! ### Windows that end (R288, R301, R358) -/

/-- A slot's window is to end. -/
def EndDue (s : State) (c slot : Nat) : Prop :=
  slotBegun s c slot = true ∧ ((shareOf s c).slot slot).stop ≤ stepTick s c ∧ ∀ st, (getClient s c).step = some st → slot ∉ st.ended

/-- A state in which a slot's window has ended. -/
def windowEnded (c slot : Nat) (s : State) : State := updStep c (fun st => { st with ended := st.ended ++ [slot] }) s

/-- What the end of the closing slot brings, in the state in which its window has ended. -/
theorem closeStep_windowEnded (c slot : Nat) (s : State) : let n := closeStep c slot (windowEnded c slot s)
    n.rot.carry = 0 ∧ (getClient n c).debt = (getClient s c).debt + nth 0 (mget [] (getCtl s c slot).recs 1) 5 ∧
      (∀ x ∈ n.fabric.ctxs, ¬ (x.2.state = 3 ∧ x.2.client = c)) ∧ Only [.dict, .tiles, .clients, .fabric, .rot] s n := by
  obtain ⟨hcarry, hdebt, hctxs, honly⟩ := closeStep_spec c slot (windowEnded c slot s)
  have hctl : getCtl (windowEnded c slot s) c slot = getCtl s c slot := getCtl_updStep (by exact fun _ => rfl) slot s
  have howed : (getClient (windowEnded c slot s) c).debt = (getClient s c).debt := by
    unfold windowEnded
    rw [updStep_getClient, if_pos rfl]
  rw [hctl, howed] at hdebt
  exact ⟨hcarry, hdebt, hctxs, ((updStep_only _ _ s).mono (by decide)).trans honly⟩

section WindowEnd

variable {c : ClientId} {slot : Nat} {s : State}

theorem windowEnd_waits (h : ¬ EndDue s c.val slot) : exec (.windowEnd c slot) s = .next s := by
  refine congrArg Host.Outcome.next (if_pos ?_)
  rw [inStep_contains_iff, ← Nat.not_le]
  unfold EndDue at h
  tauto

variable (hdue : EndDue s c.val slot)
include hdue

theorem exec_windowEnd : let e := (shareOf s c.val).slot slot
    let y := windowEnded c.val slot s
    exec (.windowEnd c slot) s = .next (if e.kind = 3 then (if isClosing s c.val slot = true then closeStep c.val slot y else y)
      else if inStep s c.val (fun st => st.doneTx.contains slot) = true then y
      else lateSlot c.val slot 2 (slotEnd s c.val slot + (shareOf s c.val).lead) (some e.port) y) := by
  refine congrArg Host.Outcome.next (if_neg ?_)
  rw [inStep_contains_iff, ← Nat.not_le]
  unfold EndDue at hdue
  tauto

theorem windowEnd_cases : let e := (shareOf s c.val).slot slot
    ∃ y n, exec (.windowEnd c slot) s = .next n ∧ Only [.clients] s y ∧ Stepped s y c.val (fun st => { st with ended := st.ended ++ [slot] }) ∧
      (e.kind = 3 → isClosing s c.val slot = false → n = y) ∧
      (e.kind = 3 → isClosing s c.val slot = true → n.rot.carry = 0 ∧
        (getClient n c.val).debt = (getClient s c.val).debt + nth 0 (mget [] (getCtl s c.val slot).recs 1) 5 ∧
        (∀ x ∈ n.fabric.ctxs, ¬ (x.2.state = 3 ∧ x.2.client = c.val)) ∧ Only [.dict, .tiles, .clients, .fabric, .rot] s n) ∧
      (e.kind ≠ 3 → (∀ st, (getClient s c.val).step = some st → slot ∈ st.doneTx) → n = y) ∧
      (e.kind ≠ 3 → (∀ st, (getClient s c.val).step = some st → slot ∉ st.doneTx) →
        LateSlot c.val slot 2 (slotEnd s c.val slot + (shareOf s c.val).lead) (some e.port) y n) := by
  intro e
  have hx := exec_windowEnd hdue
  obtain ⟨st, hst⟩ := slotBegun_step hdue.1
  have hy : Only [.clients] s (windowEnded c.val slot s) := updStep_only _ _ s
  have hstep : Stepped s (windowEnded c.val slot s) c.val (fun st => { st with ended := st.ended ++ [slot] }) := updStep_stepped _ _ s
  refine ⟨windowEnded c.val slot s, _, hx, hy, hstep, fun h3 hc => ?_, fun h3 hc => ?_, fun h3 hdone => ?_, fun h3 hleft => ?_⟩
  · exact (if_pos h3).trans (if_neg (by rw [hc]; exact Bool.false_ne_true))
  · rw [if_pos h3, if_pos hc]
    exact closeStep_windowEnded c.val slot s
  · exact (if_neg h3).trans (if_pos (inStep_contains_iff.2 fun h => h st hst (hdone st hst)))
  · rw [if_neg h3, if_neg fun h => inStep_contains_iff.1 h hleft]
    exact lateSlot_late _ _ _ _ _ _

end WindowEnd

/-! ### Step boundaries (R261, R288, R377) -/

/-- The plan tick 0 of a run's next step. -/
def nextBoundary (s : State) (c : Nat) (r : Run) : Nat :=
  (match (getClient s c).step with | some st => st.n + 1 | none => r.n) * (shareOf s c).stepLen

theorem stepBoundaryCheck_none {c : ClientId} {s : State} (h : (getClient s c.val).run = none) : exec (.stepBoundaryCheck c) s = .next s := by
  show execStepBoundaryCheck c s = _
  unfold execStepBoundaryCheck
  dsimp only
  rw [h]

theorem stepBoundaryCheck_cases {c : ClientId} {s : State} {r : Run} (h : (getClient s c.val).run = some r) :
    let left := remaining s c.val (nextBoundary s c.val r) + (getClient s c.val).arch.pause
    let due := left ≠ 0 ∧ left ≤ (shareOf s c.val).lead ∧ boundaryLate s c.val = true
    (¬ due → exec (.stepBoundaryCheck c) s = .next s) ∧
    (due → ∃ n, exec (.stepBoundaryCheck c) s = .next n ∧ LateSlot c.val 0xFFFF 4 (nextBoundary s c.val r) none s n) := by
  intro left due
  have hx : exec (.stepBoundaryCheck c) s = .next (if left = 0 ∨ (shareOf s c.val).lead < left ∨ ¬ boundaryLate s c.val = true then s
      else lateSlot c.val 0xFFFF 4 (nextBoundary s c.val r) none s) := by
    show execStepBoundaryCheck c s = _
    unfold execStepBoundaryCheck
    dsimp only
    rw [h]
    rfl
  have hcond : (left = 0 ∨ (shareOf s c.val).lead < left ∨ ¬ boundaryLate s c.val = true) ↔ ¬ due := by
    rw [← Nat.not_le]
    simp only [due]
    tauto
  exact ⟨fun hd => hx.trans (congrArg Host.Outcome.next (if_pos (hcond.2 hd))),
    fun hd => ⟨_, hx.trans (congrArg Host.Outcome.next (if_neg fun hn => hcond.1 hn hd)), lateSlot_late _ _ _ _ _ _⟩⟩

/-- Settles O48: a slot's window that opens, its checkpoint, its window that ends, a step's boundary, a STRETCH message. -/
theorem timetableSlots : Obligations.TimetableSlots := by
  unfold Obligations.TimetableSlots
  intro c slot s t e
  refine ⟨⟨(exec_slotOpen c slot s).1, slotOpen_opens⟩, slotCheckpoint_cases c slot s, ⟨windowEnd_waits, windowEnd_cases⟩,
    ⟨stepBoundaryCheck_none, fun r hr => stepBoundaryCheck_cases hr⟩, fun p w0 w1 => ⟨_, rfl, applyStretch_stretched _ _ _ _ _ _ _ _⟩⟩

end Sys2Proof.Machine
end

section
/-! O50: lane swaps, remaps, best-effort packets, credits (R268, R269, R274, R275, R292, R293, R433). -/

namespace Sys2Proof.Machine

/-! ### Lane swaps (R274) -/

/-- A state in which a port's lane swap waits. -/
def swapAsked (p lane : Nat) (s : State) : State := setBit (portStatus p) 25 (setPort p { getPort s p with swap := some lane } s)

theorem swapAsked_spec (p lane : Nat) (s : State) : let y := swapAsked p lane s
    getReg y (portStatus p) = getReg s (portStatus p) ||| 1#64 <<< 25 ∧ PortIs s y p { getPort s p with swap := some lane } ∧
    y.wearS = s.wearS ∧ Only [.regs, .fabric] s y := by
  unfold swapAsked
  have hport := setPort_is p { getPort s p with swap := some lane } s
  have hset := setPort_only p { getPort s p with swap := some lane } s
  generalize setPort p { getPort s p with swap := some lane } s = s1 at hport hset
  have hbit := setBit_only (portStatus p) 25 s1
  have hval := setBit_getReg (portStatus p) 25 (portStatus p) s1
  rw [if_pos rfl, getReg_congr (hset.regs (by decide))] at hval
  exact ⟨hval, hport.only hbit (by decide), (hbit.wearS (by decide)).trans (hset.wearS (by decide)), (hset.mono (by decide)).step hbit (by decide)⟩

theorem exec_laneSwap (p : PortId) (lane : Nat) (s : State) :
    (4 ≤ lane ∨ fld (getReg s (portStatus p.val)) 3 3 ≠ 4 → exec (.laneSwap p lane) s = .next s) ∧
    (lane < 4 → fld (getReg s (portStatus p.val)) 3 3 = 4 → exec (.laneSwap p lane) s = .next (dueSwap p.val (swapAsked p.val lane s))) :=
  ⟨fun h => congrArg Host.Outcome.next (if_pos h), fun h1 h2 => congrArg Host.Outcome.next (if_neg fun h => h.elim (Nat.not_le.2 h1) (· h2))⟩

theorem dueSwap_waiting {p lane : Nat} {s : State} (h : (getPort s p).swap = some lane) :
    dueSwap p s = if portGap s p = true then swapLane p lane s else s := by
  unfold dueSwap
  rw [h]

/-- A state in which a worn lane is out of use, and the port's swap waits no more. -/
def laneTaken (p lane : Nat) (s : State) : State :=
  let s1 := setReg (portStatus p) (setFld (setFld (getReg s (portStatus p)) 3 3 lane) 25 1 0) s
  bumpDict (dkey 0x5000 0x12) 1 (setPort p { getPort s1 p with swap := none } s1)

theorem laneTaken_spec {p lane : Nat} (hlane : lane < 4) (s : State) : let z := laneTaken p lane s
    PortIs s z p { getPort s p with swap := none } ∧ fld (getReg z (portStatus p)) 3 3 = lane ∧ bit (getReg z (portStatus p)) 25 = false ∧
    z.wearS = s.wearS ∧ Only [.regs, .dict, .sat, .fabric, .host, .logs] s z := by
  unfold laneTaken
  dsimp only
  have hreg := setReg_only (portStatus p) (setFld (setFld (getReg s (portStatus p)) 3 3 lane) 25 1 0) s
  have hval := getReg_setReg s (portStatus p) (portStatus p) (setFld (setFld (getReg s (portStatus p)) 3 3 lane) 25 1 0)
  rw [if_pos rfl] at hval
  generalize setReg (portStatus p) (setFld (setFld (getReg s (portStatus p)) 3 3 lane) 25 1 0) s = s1 at hreg hval
  have hport := setPort_is p { getPort s1 p with swap := none } s1
  have hset := setPort_only p { getPort s1 p with swap := none } s1
  rw [getPort_congr (hreg.fabric (by decide))] at hport hset ⊢
  generalize setPort p { getPort s p with swap := none } s1 = s2 at hport hset
  have hdict := bumpDict_only (dkey 0x5000 0x12) 1 s2
  have hstatus : getReg (bumpDict (dkey 0x5000 0x12) 1 s2) (portStatus p) = setFld (setFld (getReg s (portStatus p)) 3 3 lane) 25 1 0 :=
    (getReg_congr ((hdict.regs (by decide)).trans (hset.regs (by decide))) _).trans hval
  refine ⟨(hport.only hdict (by decide)).from (by rw [hreg.fabric (by decide)]), ?_, ?_,
    (hdict.wearS (by decide)).trans ((hset.wearS (by decide)).trans (hreg.wearS (by decide))),
    ((hreg.mono (by decide)).step hset (by decide)).step hdict (by decide)⟩
  · rw [hstatus, fld_setFld_off _ _ _ _ _ _ (by decide) (by decide), fld_setFld _ _ _ _ (by decide)]
    exact Nat.mod_eq_of_lt (by omega)
  · rw [hstatus, bit_setFld _ _ _ _ _ (by decide), if_pos (by decide)]
    decide

/-- A swap performed is recorded, with its cause, behind what its queue gives up. -/
theorem doneSwap_recorded (kind die unit frm dst : Nat) (s : State) : ∃ w cause, Only [.wearS, .free] s w ∧
    SwapRecorded kind die unit frm dst cause 0 w (doneSwap kind die unit frm dst s) :=
  ⟨(takeSwap kind die unit frm s).2, (takeSwap kind die unit frm s).1, (takeSwap_kept kind die unit frm (Kept.rfl' s) (by decide)).only,
    recordSwap_recorded _ _ _ _ _ _ _ _⟩

theorem laneSwap_asked {p : PortId} {lane : Nat} {s : State} (h1 : lane < 4) (h2 : fld (getReg s (portStatus p.val)) 3 3 = 4) :
    let x := getPort s p.val
    let a := portStatus p.val
    ∃ y n, exec (.laneSwap p lane) s = .next n ∧ Only [.regs, .fabric] s y ∧
      bit (getReg y a) 25 = true ∧ PortIs s y p.val { x with swap := some lane } ∧
      (portGap y p.val = false → n = y) ∧
      (portGap y p.val = true → ∃ z w cause, Only [.regs, .dict, .sat, .fabric, .wearS, .host, .logs, .free] y w ∧
        PortIs s z p.val { x with swap := none } ∧ z.wearS = s.wearS ∧ fld (getReg z a) 3 3 = lane ∧ bit (getReg z a) 25 = false ∧
        w.regs = z.regs ∧ w.fabric = z.fabric ∧ SwapRecorded 7 (p.val / 8) p.val lane 4 cause 0 w n) := by
  intro x a
  have hx := (exec_laneSwap p lane s).2 h1 h2
  obtain ⟨hstatus, hport, hwear, honly⟩ := swapAsked_spec p.val lane s
  generalize swapAsked p.val lane s = y at hx hstatus hport hwear honly
  rw [dueSwap_waiting (by rw [hport.1])] at hx
  refine ⟨y, _, hx, honly, ?_, hport, fun hgap => ?_, fun hgap => ?_⟩
  · rw [hstatus]
    exact bit_or_self _ _ (by decide)
  · exact if_neg (by rw [hgap]; exact Bool.false_ne_true)
  · obtain ⟨hfree, hlane, hdue, hzwear, hz⟩ := laneTaken_spec (p := p.val) h1 y
    have hspare : fld (getReg y a) 3 3 = 4 := by
      rw [hstatus, fld_or_bit _ _ _ _ (by decide) (by decide)]
      exact h2
    have hn : swapLane p.val lane y = doneSwap 7 (p.val / 8) p.val lane 4 (laneTaken p.val lane y) :=
      congrArg (fun dst => doneSwap 7 (p.val / 8) p.val lane dst (laneTaken p.val lane y)) hspare
    rw [if_pos hgap, hn]
    rw [hport.1] at hfree
    generalize laneTaken p.val lane y = z at hfree hlane hdue hzwear hz
    obtain ⟨w, cause, hw, hrec⟩ := doneSwap_recorded 7 (p.val / 8) p.val lane 4 z
    exact ⟨z, w, cause, (hz.mono (by decide)).step hw (by decide), hport.trans hfree, hzwear.trans hwear, hlane, hdue, hw.regs (by decide),
      hw.fabric (by decide), hrec⟩

/-! ### Remaps (R275, R433) -/

/-- A failed port is to be mapped onto a standby spare. -/
def RemapDue (s : State) (p : Nat) : Prop :=
  (getDict s (dkey 0x8000 0x04) ≠ 0 ∨ ∃ w ∈ s.wearS.queue, w.kind = 8 ∧ w.item = p) ∧ standbyFor s p ≠ none ∧
    portState s p = 4 ∧ ∀ c ∈ clientsOnPort s p, (getClient s c).step = none

theorem remapWanted_iff {s : State} {p : Nat} : remapWanted s p = true ↔
    getDict s (dkey 0x8000 0x04) ≠ 0 ∨ ∃ w ∈ s.wearS.queue, w.kind = 8 ∧ w.item = p := by
  unfold remapWanted
  simp only [Bool.or_eq_true, decide_eq_true_eq, List.any_eq_true, Bool.and_eq_true]

/-- A state in which port p is mapped onto spare q, which is up, and no swap of p waits. -/
def remapped (p q : Nat) (s : State) : State :=
  setPortState q 2 { s with wearS := { s.wearS with
    portMap := mset p s.wearS.portMap p q, queue := s.wearS.queue.filter fun w => !(decide (w.kind = 8) && decide (w.item = p)) } }

theorem remapped_spec (p q : Nat) (s : State) : let y := remapped p q s
    Only [.regs, .dict, .wearS] s y ∧ portState y q = 2 ∧ portFor y p = q ∧ (∀ k, k ≠ p → portFor y k = portFor s k) ∧
    y.wearS = { s.wearS with portMap := y.wearS.portMap, queue := s.wearS.queue.filter fun w => !(decide (w.kind = 8) && decide (w.item = p)) } := by
  obtain ⟨z, hz⟩ : ∃ z : State, z = { s with wearS := { s.wearS with
    portMap := mset p s.wearS.portMap p q, queue := s.wearS.queue.filter fun w => !(decide (w.kind = 8) && decide (w.item = p)) } } := ⟨_, rfl⟩
  have hy : remapped p q s = setPortState q 2 z := by rw [hz]; rfl
  have hsz : Only [.wearS] s z := hz ▸ only_wearS _ s
  obtain ⟨hup, honly⟩ := setPortState_spec q 2 (by decide) z
  have hwear : (setPortState q 2 z).wearS = { s.wearS with
      portMap := mset p s.wearS.portMap p q, queue := s.wearS.queue.filter fun w => !(decide (w.kind = 8) && decide (w.item = p)) } :=
    (honly.wearS (by decide)).trans (by rw [hz])
  rw [hy]
  refine ⟨(hsz.mono (by decide)).step honly (by decide), hup, ?_, fun k hk => ?_, ?_⟩
  · unfold portFor
    rw [hwear]
    exact mget_mset_same _ _ _ _
  · unfold portFor
    rw [hwear]
    exact mget_mset_ne _ _ _ _ hk
  · rw [hwear]

theorem stepOnPort_iff {s : State} {p : Nat} : ((clientsOnPort s p).any fun c => (getClient s c).step.isSome) = true ↔
    ¬ ∀ c ∈ clientsOnPort s p, (getClient s c).step = none := by
  simp only [List.any_eq_true, Option.isSome_iff_ne_none, not_forall, exists_prop, ne_eq]

theorem remapPort_due {s : State} {p q : Nat} (hq : standbyFor s p = some q) (hfailed : portState s p = 4)
    (hidle : ∀ c ∈ clientsOnPort s p, (getClient s c).step = none) : remapPort p s = recordSwap 8 (p / 8) p p q 7 0 (remapped p q s) := by
  unfold remapPort
  rw [hq]
  exact if_neg (not_or.2 ⟨not_not.2 hfailed, fun h => stepOnPort_iff.1 h hidle⟩)

theorem remapPort_waits {s : State} {p : Nat} (h : ¬ (standbyFor s p ≠ none ∧ portState s p = 4 ∧ ∀ c ∈ clientsOnPort s p, (getClient s c).step = none)) :
    remapPort p s = s := by
  unfold remapPort
  cases hq : standbyFor s p with
  | none => rfl
  | some q =>
    refine if_pos ((not_and_or.1 fun hn => h ⟨?_, hn⟩).imp_right stepOnPort_iff.2)
    rw [hq]
    exact Option.some_ne_none q

theorem portRemap_cases (p : PortId) (s : State) : (¬ RemapDue s p.val → exec (.portRemap p) s = .next s) ∧
    (RemapDue s p.val → ∀ q, standbyFor s p.val = some q → ∃ y n, exec (.portRemap p) s = .next n ∧ Only [.regs, .dict, .wearS] s y ∧
      portState y q = 2 ∧ portFor y p.val = q ∧ (∀ k, k ≠ p.val → portFor y k = portFor s k) ∧
      y.wearS = { s.wearS with portMap := y.wearS.portMap, queue := s.wearS.queue.filter fun w => !(decide (w.kind = 8) && decide (w.item = p.val)) } ∧
      SwapRecorded 8 (p.val / 8) p.val p.val q 7 0 y n) := by
  refine ⟨fun h => ?_, fun h q hq => ?_⟩
  · refine congrArg Host.Outcome.next ?_
    split
    · next hw => exact remapPort_waits fun hn => h ⟨remapWanted_iff.1 hw, hn⟩
    · rfl
  · obtain ⟨hwanted, -, hfailed, hidle⟩ := h
    obtain ⟨honly, hup, hmap, hother, hqueue⟩ := remapped_spec p.val q s
    exact ⟨_, _, congrArg Host.Outcome.next ((if_pos (remapWanted_iff.2 hwanted)).trans (remapPort_due hq hfailed hidle)), honly, hup, hmap, hother, hqueue,
      recordSwap_recorded _ _ _ _ _ _ _ _⟩

/-! ### Best-effort packets (R292, R293) -/

/-- A state that has taken the k-th waiting packet up. -/
def packetTaken (k : Nat) (s : State) : State := { s with fabric := { s.fabric with packets := s.fabric.packets.eraseIdx k } }

/-- A port that has taken a packet's flits, and their credits of a virtual channel. -/
def Port.queued (u : Port) (fs : List Flit) (vc : Nat) : Port :=
  { u with be := u.be ++ fs, cred0 := if vc = 0 then u.cred0 - fs.length else u.cred0, cred1 := if vc = 0 then u.cred1 else u.cred1 - fs.length }

section BestEffort

variable {p : PortId} {k : Nat} {s : State}

theorem bestEffort_none (h : s.fabric.packets[k]? = none) : exec (.bestEffortPacket p k) s = .next s := by
  show execBestEffortPacket p k s = _
  unfold execBestEffortPacket
  rw [h]

variable {w : Packet} (hw : s.fabric.packets[k]? = some w)
include hw

theorem bestEffort_behind (h : ∃ u ∈ s.fabric.packets.take k, u.smod = w.smod ∧ u.dmod = w.dmod) : exec (.bestEffortPacket p k) s = .next s := by
  show execBestEffortPacket p k s = _
  unfold execBestEffortPacket
  rw [hw]
  exact congrArg Host.Outcome.next (if_pos (by simpa only [List.any_eq_true, Bool.and_eq_true, decide_eq_true_eq] using h))

variable (hfirst : ∀ u ∈ s.fabric.packets.take k, ¬ (u.smod = w.smod ∧ u.dmod = w.dmod))
include hfirst

/-- A packet that no earlier one of its source and destination keeps back. -/
theorem exec_bestEffort : exec (.bestEffortPacket p k) s = .next (match nextHop s w with
    | none => landPacket w (packetTaken k s)
    | some (dim, _, wrap, q) =>
      let out := portFor s q
      let vc := if wrap then 1 else if dim = w.dim then w.vc else 0
      let fs := packetFlits w vc
      let y := getPort s out
      let cred := if vc = 0 then y.cred0 else y.cred1
      if out ≠ p.val ∨ portState s out ≠ 2 ∨ cred < fs.length then s
      else
        let y1 := { y with be := y.be ++ fs }
        let y2 := if vc = 0 then { y1 with cred0 := cred - fs.length } else { y1 with cred1 := cred - fs.length }
        returnCredit w.inBuf (setPort out y2 (packetTaken k s))) := by
  show execBestEffortPacket p k s = _
  unfold execBestEffortPacket
  rw [hw]
  refine congrArg Host.Outcome.next ((if_neg ?_).trans rfl)
  simp only [List.any_eq_true, Bool.and_eq_true, decide_eq_true_eq, not_exists, not_and] at hfirst ⊢
  exact hfirst

theorem bestEffort_arrived (h : nextHop s w = none) : let m := packetTaken k s
    ∃ n, exec (.bestEffortPacket p k) s = .next n ∧
      let via := (w.inBuf.map (·.1)).getD ((portTo m w.smod).getD 0)
      CreditReturned w.inBuf (if recKind (w.bytes.take 16) = 0 then landData via (w.bytes.take 16) 0 (w.bytes.drop 16) m else m) n := by
  intro m
  have hx := exec_bestEffort (p := p) hw hfirst
  rw [h] at hx
  exact ⟨_, hx, returnCredit_returned _ _⟩

theorem bestEffort_hops {dim q : Nat} {minus wrap : Bool} (h : nextHop s w = some (dim, minus, wrap, q)) :
    let out := portFor s q
    let vc := if wrap then 1 else if dim = w.dim then w.vc else 0
    let fs := packetFlits w vc
    let u := getPort s out
    let cred := if vc = 0 then u.cred0 else u.cred1
    let goes := out = p.val ∧ portState s out = 2 ∧ fs.length ≤ cred
    (¬ goes → exec (.bestEffortPacket p k) s = .next s) ∧
    (goes → ∃ y n, exec (.bestEffortPacket p k) s = .next n ∧ Only [.fabric] s y ∧ y.fabric.packets = s.fabric.packets.eraseIdx k ∧
      PortIs s y out (u.queued fs vc) ∧ CreditReturned w.inBuf y n) := by
  intro out vc fs u cred goes
  have hx := exec_bestEffort (p := p) hw hfirst
  rw [h] at hx
  have hcond : (out ≠ p.val ∨ portState s out ≠ 2 ∨ cred < fs.length) ↔ ¬ goes := by
    rw [← Nat.not_le]
    simp only [goes]
    tauto
  have hport : (if vc = 0 then { u with be := u.be ++ fs, cred0 := cred - fs.length } else { u with be := u.be ++ fs, cred1 := cred - fs.length }) =
      u.queued fs vc := by
    unfold Port.queued
    by_cases hv : vc = 0
    · simp only [cred, if_pos hv]
    · simp only [cred, if_neg hv]
  refine ⟨fun hg => hx.trans (congrArg Host.Outcome.next (if_pos (hcond.2 hg))), fun hg => ?_⟩
  have hy : Only [.fabric] s (packetTaken k s) := only_fabric _ s
  refine ⟨setPort out (u.queued fs vc) (packetTaken k s), _, hx.trans (congrArg Host.Outcome.next ((if_neg fun hn => hcond.1 hn hg).trans ?_)),
    hy.trans (setPort_only _ _ _), rfl, (setPort_is _ _ _).from rfl, returnCredit_returned _ _⟩
  rw [← hport]

end BestEffort

/-- Settles O50: lane swaps, remaps, packets that land or hop, credits. -/
theorem ports : Obligations.Ports := by
  unfold Obligations.Ports
  intro p s x a
  refine ⟨fun lane => ⟨(exec_laneSwap p lane s).1, laneSwap_asked⟩, portRemap_cases p s, fun k => ⟨bestEffort_none, fun w hw => ?_⟩,
    fun w0 w1 => ⟨_, rfl, setPort_only _ _ s, setPort_is _ _ s⟩⟩
  exact ⟨bestEffort_behind hw, fun hfirst => ⟨bestEffort_arrived hw hfirst, fun dim minus wrap q hq => bestEffort_hops hw hfirst hq⟩⟩

end Sys2Proof.Machine
end

section
/-! O52: transfers and spill packets at a die's collective engine, spills that do not come, the decision of a re-shard (R300, R303, R310, R314,
R318, R319). -/

namespace Sys2Proof.Machine

/-! ### An arrival is a reduce transfer, a place transfer or a spill packet (R302, R304, R310) -/

section
variable {d shape : Nat} {data : List Byte} {s : State}

theorem collArrive_reduce (hs : (xferOf data).spill = false) (hc : copReduce (xferOf data).cop = true) :
    collArrive d shape data s = arriveReduce d shape (xferOf data) s := by
  unfold collArrive
  dsimp only
  rw [if_neg (hs ▸ Bool.false_ne_true), if_pos hc]

theorem collArrive_place (hs : (xferOf data).spill = false) (hc : copReduce (xferOf data).cop = false) :
    collArrive d shape data s = (false, arrivePlace d (xferOf data) s) := by
  unfold collArrive
  dsimp only
  rw [if_neg (hs ▸ Bool.false_ne_true), if_neg (hc ▸ Bool.false_ne_true)]

theorem collArrive_spill (hs : (xferOf data).spill = true) : collArrive d shape data s = arriveSpill d (xferOf data) s := if_pos hs

end

/-! ### What COLL_TRANSFER_ARRIVE does with a transfer that is held, refused with a fault, or taken in (R300, R303) -/

section
variable {d : DieId} {shape : Nat} {data : List Byte} {s y : State}

theorem collTransferArrive_held (h : collArrive d.val shape data s = (true, s)) :
    ∃ m, exec (.collTransferArrive d shape data) s = .next (pumpSends m) ∧
      m = { s with fabric := { s.fabric with held := s.fabric.held ++ [(d, shape, data)] } } :=
  ⟨_, rfl, takeXfer_held h⟩

theorem collTransferArrive_taken (h : collArrive d.val shape data s = (false, y)) :
    ∃ m, exec (.collTransferArrive d shape data) s = .next (pumpSends m) ∧ TakenIn d data y m :=
  ⟨_, rfl, takeXfer_taken h⟩

theorem collTransferArrive_faulted {client code job ctx : Nat} (h : collArrive d.val shape data s = (false, collFault d.val client code job ctx s)) :
    ∃ m, exec (.collTransferArrive d shape data) s = .next (pumpSends m) ∧ ∃ y, CollFaulted d.val client code job ctx s y ∧ TakenIn d data y m := by
  obtain ⟨m, hx, ht⟩ := collTransferArrive_taken h
  exact ⟨m, hx, _, collFault_faulted _ _ _ _ _ _, ht⟩

end

/-- What follows the additions of a transfer into its contexts touches neither registers nor contexts, so a transfer that covers one context, and has
spilled nothing there, leaves them as its addition does (R53, R300). -/
theorem addInto_one_after {x : CXfer} {es : List Contrib} {blk d k n : Nat} {s y : State} (hd : k / 65536 = d)
    (hy : Only [.regs, .dict, .sat, .clients, .host, .logs] (addInto x es blk [] [] (k, 0, n) s) y) :
    (∀ i : Fin 512, (ctxReg y d (getCtx s k)).get i =
      if i.val < n then (nth .none es i.val).into ((ctxReg s d (getCtx s k)).get i) else (ctxReg s d (getCtx s k)).get i) ∧
    getCtx y k = (getCtx s k).counted ∧ ∀ j, j ≠ k → getCtx y j = getCtx s j := by
  subst hd
  obtain ⟨hreg, hself, hother⟩ := addInto_one x es blk k n s
  have hctx := getCtx_congr (hy.fabric (by decide))
  exact ⟨fun i => (congrArg (·.get i) (ctxReg_congr (hy.tiles (by decide)))).trans (hreg i), (hctx k).trans hself,
    fun j hj => (hctx j).trans (hother j hj)⟩

/-! ### Spill packets (R310) -/

/-- Whether a context waits for a piece of a spill packet from the packet's sender. -/
def SpillAwaited (d : Nat) (x : CXfer) (s : State) (p : Nat × Nat × List XReg) : Prop :=
  ∃ w ∈ s.fabric.spills, w.ctx = ctxKey d x.cbase + (p.1 * ((fmtOf (x.selem + 16 * x.sblk)).getD noFmt).blk + p.2.1) / 512 ∧ w.smod = x.smod

theorem arriveSpill_cases (d : Nat) (x : CXfer) (s : State) :
    let ps := spillPieces (x.pay.length + 1) x.pay
    ((∃ p ∈ ps, ¬ SpillAwaited d x s p) → arriveSpill d x s = (true, s)) ∧
    ((∀ p ∈ ps, SpillAwaited d x s p) → arriveSpill d x s = (false, ps.foldl (fun s p =>
      mergePiece d x.cbase x.smod (p.1 * ((fmtOf (x.selem + 16 * x.sblk)).getD noFmt).blk + p.2.1) p.2.2 s) s)) := by
  intro ps
  have hready : (ps.all fun p => s.fabric.spills.any fun w =>
      decide (w.ctx = ctxKey d x.cbase + (p.1 * ((fmtOf (x.selem + 16 * x.sblk)).getD noFmt).blk + p.2.1) / 512) && decide (w.smod = x.smod)) = true ↔
      ∀ p ∈ ps, SpillAwaited d x s p := by
    simp only [List.all_eq_true, List.any_eq_true, Bool.and_eq_true, decide_eq_true_eq, SpillAwaited]
  exact ⟨fun ⟨p, hp, hn⟩ => if_pos fun hr => hn (hready.1 hr p hp), fun h => if_neg (not_not.2 (hready.2 h))⟩

theorem arriveSpill_only (d : Nat) (x : CXfer) (s : State) : Only [.tiles, .clients, .fabric] s (arriveSpill d x s).2 :=
  (arriveSpill_kept d x (Kept.rfl' s) (by decide)).only

theorem spillPacket_other {d : DieId} {data : List Byte} {s : State} (h : (xferOf data).spill = false) : exec (.spillPacket d data) s = .next s :=
  congrArg Host.Outcome.next (if_neg (h ▸ Bool.false_ne_true))

theorem exec_spillPacket {d : DieId} {data : List Byte} {s : State} (h : (xferOf data).spill = true) :
    exec (.spillPacket d data) s = .next (pumpSends (takeXfer d 0 data s)) :=
  congrArg Host.Outcome.next (if_pos h)

theorem spillPacket_held {d : DieId} {data : List Byte} {s : State} (h : (xferOf data).spill = true)
    (ha : ∃ p ∈ spillPieces ((xferOf data).pay.length + 1) (xferOf data).pay, ¬ SpillAwaited d.val (xferOf data) s p) :
    exec (.spillPacket d data) s = .next (pumpSends { s with fabric := { s.fabric with held := s.fabric.held ++ [(d, 0, data)] } }) := by
  rw [exec_spillPacket h, takeXfer_held ((collArrive_spill h).trans ((arriveSpill_cases d.val (xferOf data) s).1 ha))]

theorem spillPacket_merged {d : DieId} {data : List Byte} {s : State} (h : (xferOf data).spill = true)
    (ha : ∀ p ∈ spillPieces ((xferOf data).pay.length + 1) (xferOf data).pay, SpillAwaited d.val (xferOf data) s p) :
    let x := xferOf data
    ∃ y m, exec (.spillPacket d data) s = .next (pumpSends m) ∧ TakenIn d data y m ∧ Only [.tiles, .clients, .fabric] s y ∧
      y = (spillPieces (x.pay.length + 1) x.pay).foldl (fun s p =>
        mergePiece d.val x.cbase x.smod (p.1 * ((fmtOf (x.selem + 16 * x.sblk)).getD noFmt).blk + p.2.1) p.2.2 s) s := by
  have hy := (arriveSpill_cases d.val (xferOf data) s).2 ha
  have ho := arriveSpill_only d.val (xferOf data) s
  rw [hy] at ho
  exact ⟨_, _, exec_spillPacket h, takeXfer_taken ((collArrive_spill h).trans hy), ho, rfl⟩

theorem spillTimeout_cases (d : DieId) (ctx : Nat) (s : State) :
    let k := ctxKey d.val ctx
    let x := getCtx s k
    let due := ∃ w ∈ s.fabric.spills, w.ctx = k ∧ (getDict s (dkey 0x5100 0x0E)).toNat < s.tick - w.since
    (¬ due → exec (.spillTimeout d ctx) s = .next s) ∧
    (due → ∃ n, exec (.spillTimeout d ctx) s = .next n ∧
      CollFaulted d.val x.client 8 x.job (k % 65536) { s with fabric := { s.fabric with spills := s.fabric.spills.filter fun w => decide (w.ctx ≠ k) } } n) := by
  intro k x due
  have hdue : (s.fabric.spills.any fun w => decide (w.ctx = k) && decide ((getDict s (dkey 0x5100 0x0E)).toNat < s.tick - w.since)) = true ↔ due := by
    simp only [List.any_eq_true, Bool.and_eq_true, decide_eq_true_eq, due]
  exact ⟨fun hn => congrArg Host.Outcome.next (if_neg fun h => hn (hdue.1 h)),
    fun h => ⟨_, congrArg Host.Outcome.next (if_pos (hdue.2 h)), collFault_faulted _ _ _ _ _ _⟩⟩

/-! ### The decision of a re-shard (R318, R319) -/

/-- The state in which every die's commit of a re-shard is queued for plan tick T, with bit 10 of a die's status set where T has passed. -/
def commitsQueued (c T : Nat) (s : State) : State :=
  (List.finRange 4).foldl (fun s d =>
    if (queueCommit d c T s).1 = true then setBit (collBlk d.val 0) 10 (queueCommit d c T s).2 else (queueCommit d c T s).2) s

section
variable {c : ClientId} {slot : Nat} {s : State}

theorem reshardDecide_no_step (h : (getClient s c.val).step = none) : exec (.reshardDecide c slot) s = .next s := by
  change execReshardDecide c slot s = _
  unfold execReshardDecide
  rw [h]

/-- The commits of a control slot that have not been decided. -/
def undecided (st : StepSt) (slot : Nat) : List CommitJob := st.commits.filter fun j => decide (j.cslot = slot) && j.decided.isNone

/-- Whether the combined records of a control slot stop the commit j: a module is not ready, or the step is aborted. -/
abbrev ReshardStops (st : StepSt) (slot : Nat) (j : CommitJob) : Prop :=
  (nth 0 (mget [] (mget {} st.ctl slot).recs j.pos) 0).testBit 0 = true ∨ (nth 0 (mget [] (mget {} st.ctl slot).recs 0) 0).testBit 0 = true

variable {st : StepSt} (hst : (getClient s c.val).step = some st)
include hst

theorem reshardDecide_waits (h : undecided st slot = [] ∨ (mget {} st.ctl slot).down = false) : exec (.reshardDecide c slot) s = .next s := by
  change execReshardDecide c slot s = _
  unfold execReshardDecide
  rw [hst]
  change Host.Outcome.next (match undecided st slot with | [] => s | j :: _ => _) = _
  cases hm : undecided st slot with
  | nil => rfl
  | cons j l =>
    have hdown : (mget {} st.ctl slot).down = false := h.resolve_left (hm ▸ List.cons_ne_nil j l)
    exact congrArg Host.Outcome.next (if_pos fun hd => Bool.false_ne_true (hdown.symm.trans hd))

variable {j : CommitJob} {l : List CommitJob} (hdown : (mget {} st.ctl slot).down = true) (hmine : undecided st slot = j :: l)
include hdown hmine

theorem exec_reshardDecide : exec (.reshardDecide c slot) s = .next (
    if ReshardStops st slot j then abandonReshard c.val ((undecided st slot).map (·.id)) s
    else updStep c.val (fun st => { st with commits := st.commits.map fun x => if x.cslot = slot then { x with decided := some true } else x })
      (commitsQueued c.val (stepBase s c.val + j.ctick) s)) := by
  change execReshardDecide c slot s = _
  unfold execReshardDecide
  rw [hst]
  change Host.Outcome.next (match undecided st slot with | [] => s | j :: _ => _) = _
  generalize hids : (undecided st slot).map (·.id) = ids
  rw [hmine]
  subst hids
  exact congrArg Host.Outcome.next (if_neg (not_not.2 hdown))

theorem reshardDecide_stops (h : ReshardStops st slot j) :
    exec (.reshardDecide c slot) s = .next (abandonReshard c.val ((undecided st slot).map (·.id)) s) := by
  rw [exec_reshardDecide hst hdown hmine, if_pos h]

theorem reshardDecide_queues (h : ¬ ReshardStops st slot j) :
    let T := stepBase s c.val + j.ctick
    let late := T ≤ planTick s c.val ∧ ∀ r, (getClient s c.val).run = some r → runBegun s r = true
    ∃ n, exec (.reshardDecide c slot) s = .next n ∧ Only [.regs, .cat, .clients, .host, .logs] s n ∧
      (n.cat = { s.cat with commits := s.cat.commits ++ (List.finRange 4).map fun d => { die := d, client := c, tick := if late then planTick s c.val + 1 else T } } ∧
       (late → ∀ d : DieId, bit (getReg n (collBlk d.val 0)) 10 = true) ∧ (¬ late → n.regs = s.regs)) ∧
      Stepped s n c.val (fun st => { st with commits := st.commits.map fun x => if x.cslot = slot then { x with decided := some true } else x }) := by
  intro T late
  have hx := exec_reshardDecide hst hdown hmine
  rw [if_neg h] at hx
  obtain ⟨hcat, hlate, -, hregs, hq⟩ := reshardQueue_spec c.val T (List.finRange 4) s
  have hu := updStep_only c.val (fun st => { st with commits := st.commits.map fun x => if x.cslot = slot then { x with decided := some true } else x })
    (commitsQueued c.val T s)
  refine ⟨_, hx, (hq.mono (by decide)).step hu (by decide), ⟨(hu.cat (by decide)).trans hcat, fun hl d => ?_, fun hl => (hu.regs (by decide)).trans (hregs hl)⟩,
    (updStep_stepped _ _ _).pre (ScopesOnly.of_only hq (by decide))⟩
  rw [getReg_congr (hu.regs (by decide))]
  exact hlate hl d (List.mem_finRange d)

end

/-- Settles O52: reduce transfers, place transfers, spill packets, spills that do not come, the decision of a re-shard. -/
theorem collectiveArrivals : Obligations.CollectiveArrivals := by
  unfold Obligations.CollectiveArrivals
  intro d s
  refine ⟨?_, ?_, fun ctx => spillTimeout_cases d ctx s, fun c slot => ⟨reshardDecide_no_step, fun st hst => ⟨reshardDecide_waits hst, ?_⟩⟩⟩
  · intro shape data x client held fault hs
    refine ⟨fun hc => ?_, fun hc => ?_⟩
    · intro f r q zero its
      obtain ⟨hfault, hheld, htaken⟩ := arriveReduce_eq d.val shape x s
      refine ⟨fun code k h => collTransferArrive_faulted ((collArrive_reduce hs hc).trans (hfault code k h)),
        fun h hb => collTransferArrive_held ((collArrive_reduce hs hc).trans (hheld h hb)), fun h hb => ?_⟩
      obtain ⟨y, hy, ho, hadded⟩ := htaken h hb
      obtain ⟨m, hx, ht⟩ := collTransferArrive_taken ((collArrive_reduce hs hc).trans hy)
      refine ⟨y, m, hx, ht, ho, fun k n hits hesc hspilled hd => addInto_one_after (x := x) (blk := f.blk) hd ?_⟩
      change Only _ (its.foldl (fun s it => addInto x r.1 f.blk r.2.2.1 r.2.2.2 it s) s) y at hadded
      rwa [hits, hesc, hspilled] at hadded
    · intro k c e rows
      obtain ⟨hfault, hconv, htag, hplaced⟩ := arrivePlace_eq d.val x s
      have harr := collArrive_place (d := d.val) (shape := shape) (s := s) hs hc
      refine ⟨fun code h hn => collTransferArrive_faulted (harr.trans (congrArg (Prod.mk false) (hfault code h hn))),
        fun h8 hsame h1 => collTransferArrive_faulted (harr.trans (congrArg (Prod.mk false) (hconv h8 hsame h1))),
        fun h hn hr => collTransferArrive_faulted (harr.trans (congrArg (Prod.mk false) (htag h hn hr))), fun h hn hr => ?_⟩
      obtain ⟨y, hy, hself, hother, ho⟩ := hplaced h hn hr
      obtain ⟨m, hx, ht⟩ := collTransferArrive_taken (harr.trans (congrArg (Prod.mk false) hy))
      exact ⟨y, m, hx, ht, hself, hother, ho⟩
  · intro data x f ps waits
    refine ⟨spillPacket_other, spillPacket_held, fun h ha => ?_⟩
    obtain ⟨y, m, hx, ht, ho, hy⟩ := spillPacket_merged h ha
    refine ⟨y, m, hx, ht, ho, fun b o xs hps => ?_⟩
    change y = ps.foldl _ s at hy
    rw [hps] at hy
    subst hy
    exact mergePiece_spec _ _ _ _ _ _
  · intro hdown j l hmine stop
    refine ⟨fun h => ?_, reshardDecide_queues hst hdown hmine⟩
    obtain ⟨⟨y, hhost, hy⟩, hn⟩ := abandonReshard_spec c.val ((undecided st slot).map (·.id)) s
    exact ⟨y, _, reshardDecide_stops hst hdown hmine h, hhost, hy, hn⟩

end Sys2Proof.Machine
end

section
/-! The queue: a step runs the front command, a run consumes the queue in order and takes nothing back (log 4, log 8, R345, R346, R411, R414). -/

namespace Sys2Proof.Machine

theorem step_cons {c : Instr} {rest : List Instr} {s : State} (h : s.pending = c :: rest) :
    step s = exec c { s with pending := rest } := by
  unfold step
  rw [h]

theorem step_nil {s : State} (h : s.pending = []) : step s = .next s := by
  unfold step
  rw [h]

/-- Settles O1: by what waits in the queue. -/
theorem stepRunsFrontCommand : Obligations.StepRunsFrontCommand := by
  unfold Obligations.StepRunsFrontCommand
  exact ⟨fun _ _ _ => step_cons, fun _ => step_nil⟩

/-- From s the block has come to t by k steps: the queue without its first k commands, what has left the module with more behind it, and
the counter of free values no lower (log 4). -/
def Consumed (k : Nat) (s t : State) : Prop :=
  t.pending = s.pending.drop k ∧ s.host.sent <+: t.host.sent ∧ s.can.sent <+: t.can.sent ∧ s.free ≤ t.free

theorem Consumed.refl (s : State) : Consumed 0 s s := ⟨rfl, List.prefix_rfl, List.prefix_rfl, le_rfl⟩

theorem Consumed.trans {j k : Nat} {r s t : State} (h : Consumed j r s) (h' : Consumed k s t) : Consumed (j + k) r t := by
  obtain ⟨hp, hs, hc, hf⟩ := h
  obtain ⟨hp', hs', hc', hf'⟩ := h'
  exact ⟨by rw [hp', hp, List.drop_drop], hs.trans hs', hc.trans hc', hf.trans hf'⟩

/-- One step consumes the front command; an idle block has none to consume. -/
theorem step_consumed {s t : State} (ht : step s = .next t) : Consumed 1 s t := by
  cases hp : s.pending with
  | nil =>
    rw [step_nil hp] at ht
    cases ht
    exact ⟨by rw [hp]; rfl, List.prefix_rfl, List.prefix_rfl, le_rfl⟩
  | cons c rest =>
    rw [step_cons hp] at ht
    have hk := exec_kept (Kept.rfl' { s with pending := rest }) ht (List.Subset.refl _)
    exact ⟨by rw [hk.pending, hp]; rfl, hk.sent, hk.frames, hk.free⟩

/-- A run of k + 1 steps that has a next state is a first step and a run of k steps. -/
theorem run_succ {M : Host.Core} {k : Nat} {s t : M.State} (h : M.run (k + 1) s = .next t) :
    ∃ m, M.step s = .next m ∧ M.run k m = .next t := by
  unfold Host.Core.run at h
  split at h
  · next m hm => exact ⟨m, hm, h⟩
  · cases h
  · cases h

theorem run_consumed : ∀ (k : Nat) (s t : State), Sys2Proof.core.run k s = .next t → Consumed k s t
  | 0, s, t, h => by
    cases h
    exact .refl s
  | k + 1, s, t, h => by
    obtain ⟨m, hm, hr⟩ := run_succ h
    rw [Nat.add_comm]
    exact (step_consumed hm).trans (run_consumed k m t hr)

/-- Settles O3: by induction over the steps, each by what every command keeps. -/
theorem runsConsumeAndAppend : Obligations.RunsConsumeAndAppend := by
  unfold Obligations.RunsConsumeAndAppend
  exact run_consumed

end Sys2Proof.Machine
end

section
/-! The host's queues at work: doorbells, queues enabled, heads written, records posted, messages sent and unmasked (R340, R345 to R347). -/

namespace Sys2Proof.Machine

/-! ### Doorbells (R340) -/

section

variable {q tail head : Nat} {s : State}

/-- A queue that is beyond the last, or not on, is not one that works. -/
theorem lt_or_not_iff {a b : Nat} {p : Prop} : a < b ∨ ¬ p ↔ ¬ (b ≤ a ∧ p) := by
  rw [not_and_or, Nat.not_le]

theorem exec_doorbellWrite_off (h : ¬ (q ≤ 64 ∧ queueOn s q (sqReg q 0x18) = true)) : exec (.doorbellWrite q tail) s = .next s :=
  congrArg Host.Outcome.next (if_pos (lt_or_not_iff.2 h))

theorem exec_doorbellWrite_beyond (h : q ≤ 64 ∧ queueOn s q (sqReg q 0x18) = true) (ht : queueSize s (sqReg q 8) ≤ tail % 4096) :
    exec (.doorbellWrite q tail) s = .next (stopQueue q (sqReg q 0x18) 1 s) :=
  congrArg Host.Outcome.next ((if_neg (not_not_intro h ∘ lt_or_not_iff.1)).trans (if_pos ht))

theorem exec_doorbellWrite_fetches (h : q ≤ 64 ∧ queueOn s q (sqReg q 0x18) = true) (ht : tail % 4096 < queueSize s (sqReg q 8)) :
    exec (.doorbellWrite q tail) s =
      .next (fetchQueue q { s with host := { s.host with tails := mset 0 s.host.tails q (tail % 4096) } }) :=
  congrArg Host.Outcome.next ((if_neg (not_not_intro h ∘ lt_or_not_iff.1)).trans (if_neg (Nat.not_le.2 ht)))

theorem exec_eventQueueHeadWrite_off (h : ¬ (q ≤ 16 ∧ queueOn s (128 + q) (eqReg q 0x18) = true)) :
    exec (.eventQueueHeadWrite q head) s = .next s :=
  congrArg Host.Outcome.next (if_pos (lt_or_not_iff.2 h))

theorem exec_eventQueueHeadWrite_beyond (h : q ≤ 16 ∧ queueOn s (128 + q) (eqReg q 0x18) = true)
    (ht : queueSize s (eqReg q 8) ≤ head % 4096) :
    exec (.eventQueueHeadWrite q head) s = .next (stopQueue (128 + q) (eqReg q 0x18) 1 s) :=
  congrArg Host.Outcome.next ((if_neg (not_not_intro h ∘ lt_or_not_iff.1)).trans (if_pos ht))

theorem exec_eventQueueHeadWrite_flushes (h : q ≤ 16 ∧ queueOn s (128 + q) (eqReg q 0x18) = true)
    (ht : head % 4096 < queueSize s (eqReg q 8)) :
    exec (.eventQueueHeadWrite q head) s = .next (flushHold q (setEvQ q { getEvQ s q with head := head % 4096 } s)) :=
  congrArg Host.Outcome.next ((if_neg (not_not_intro h ∘ lt_or_not_iff.1)).trans (if_neg (Nat.not_le.2 ht)))

/-! ### Queues enabled (R340, R346) -/

/-- Setting EN of a queue and letting it work again: the queue is on, and nothing but its register and its mark has changed. -/
theorem unstop_on (k a : Nat) (s : State) :
    let y := unstop k (setBit a 0 s)
    queueOn y k a = true ∧ (∀ b, b ≠ a → getReg y b = getReg s b) ∧ Only [.regs, .host] s y ∧
      y.host = { s.host with stopped := mset false s.host.stopped k false } := by
  have hreg : ∀ b, getReg (unstop k (setBit a 0 s)) b = if b = a then getReg s a ||| 1#64 <<< 0 else getReg s b :=
    fun b => getReg_setReg s a b _
  refine ⟨?_, fun b hb => by rw [hreg, if_neg hb], ((setReg_only a _ s).mono (by decide)).step (only_host _ _) (by decide), rfl⟩
  have hstop : mget false (unstop k (setBit a 0 s)).host.stopped k = false := by
    change mget false (mset false s.host.stopped k false) k = false
    rw [mget_mset, if_pos rfl]
  unfold queueOn
  rw [hstop, hreg, if_pos rfl, bit_or_shift _ _ _ (by decide)]
  simp

theorem exec_queueEnable_beyond (h : 64 < q) : exec (.queueEnable false q) s = .next s :=
  congrArg Host.Outcome.next (if_pos h)

theorem exec_queueEnable_event_beyond (h : 16 < q) : exec (.queueEnable true q) s = .next s :=
  congrArg Host.Outcome.next (if_pos h)

theorem exec_queueEnable (h : q ≤ 64) :
    exec (.queueEnable false q) s = .next (fetchQueue q (unstop q (setBit (sqReg q 0x18) 0 s))) :=
  congrArg Host.Outcome.next (if_neg (Nat.not_lt.2 h))

theorem exec_queueEnable_event (h : q ≤ 16) :
    exec (.queueEnable true q) s = .next (flushHold q (unstop (128 + q) (setBit (eqReg q 0x18) 0 s))) :=
  congrArg Host.Outcome.next (if_neg (Nat.not_lt.2 h))

theorem queueEnable_fetches (h : q ≤ 64) : ∃ y n, exec (.queueEnable false q) s = .next n ∧ queueOn y q (sqReg q 0x18) = true ∧
    (∀ a, a ≠ sqReg q 0x18 → getReg y a = getReg s a) ∧ Only [.regs, .host] s y ∧
    y.host = { s.host with stopped := mset false s.host.stopped q false } ∧ QueueFetched q y n := by
  obtain ⟨hon, hreg, honly, hhost⟩ := unstop_on q (sqReg q 0x18) s
  exact ⟨_, _, exec_queueEnable h, hon, hreg, honly, hhost, fetchQueue_fetched q _⟩

theorem queueEnable_flushes (h : q ≤ 16) : ∃ y n, exec (.queueEnable true q) s = .next n ∧ queueOn y (128 + q) (eqReg q 0x18) = true ∧
    (∀ a, a ≠ eqReg q 0x18 → getReg y a = getReg s a) ∧ Only [.regs, .host] s y ∧
    y.host = { s.host with stopped := mset false s.host.stopped (128 + q) false } ∧ Flushed q (getEvQ s q).hold.length y n := by
  obtain ⟨hon, hreg, honly, hhost⟩ := unstop_on (128 + q) (eqReg q 0x18) s
  exact ⟨_, _, exec_queueEnable_event h, hon, hreg, honly, hhost, flushHold_flushed q (unstop (128 + q) (setBit (eqReg q 0x18) 0 s))⟩

end

/-! ### Records (R345, R346) -/

section

variable {e : Nat} {v : Event} {s : State}

theorem postRecord_held (h : (getEvQ s e).hold ≠ [] ∨ evqOpen s e = false) : postRecord e v s = holdEvent e v s := by
  unfold postRecord
  exact if_pos (by simpa using h)

theorem postRecord_writes (hh : (getEvQ s e).hold = []) (ho : evqOpen s e = true) :
    postRecord e v s = match writeEvent e v s with
      | some m => m
      | none => stopEvQ e (setEvQ e { getEvQ s e with hold := [v] } s) := by
  unfold postRecord
  exact if_neg (by simp [hh, ho])

theorem postRecord_written (hh : (getEvQ s e).hold = []) (ho : evqOpen s e = true) (hk : hostOk s (evTail s e) 32 = true) :
    EventWritten e v [] s (postRecord e v s) := by
  obtain ⟨m, hm, hw⟩ := writeEvent_some e v s hk
  rw [postRecord_writes hh ho, hm, ← hh]
  exact hw

theorem postRecord_stopped (hh : (getEvQ s e).hold = []) (ho : evqOpen s e = true) (hk : hostOk s (evTail s e) 32 = false) :
    QueueStopped (128 + e) (eqReg e 0x18) 2 (setEvQ e { getEvQ s e with hold := [v] } s) (postRecord e v s) := by
  rw [postRecord_writes hh ho, writeEvent_none e v s hk]
  exact stopQueue_stopped _ _ _ (by decide) _

theorem exec_eventPost_none (h : s.host.posted = []) : exec .eventPost s = .next s := by
  change execEventPost s = _
  unfold execEventPost
  rw [h]

theorem exec_eventPost {l : List (Nat × Event)} (h : s.host.posted = (e, v) :: l) :
    exec .eventPost s = .next (postRecord e v { s with host := { s.host with posted := l } }) := by
  change execEventPost s = _
  unfold execEventPost
  rw [h]

end

/-! ### Messages (R347) -/

section

variable {q v : Nat} {timer : Bool} {s : State}

/-- Whether a queue's message is due: records not signalled, enough of them, an urgent one, or their time passed (R347). -/
def msixDue (s : State) (q : Nat) (timer : Bool) : Prop :=
  q ≤ 16 ∧ (getEvQ s q).unsig ≠ 0 ∧ (timer = true ∨ (getEvQ s q).urgent = true ∨ fld (getReg s (eqReg q 0x28)) 0 16 ≤ (getEvQ s q).unsig)

/-- The guard of MSIX_SEND says that no message is due. -/
theorem not_msixDue_iff : (16 < q ∨ (getEvQ s q).unsig = 0 ∨
    ¬ (timer = true ∨ (getEvQ s q).urgent = true ∨ fld (getReg s (eqReg q 0x28)) 0 16 ≤ (getEvQ s q).unsig)) ↔ ¬ msixDue s q timer := by
  unfold msixDue
  rw [not_and_or, not_and_or, Nat.not_le, not_not]

theorem exec_msixSend_idle (h : ¬ msixDue s q timer) : exec (.msixSend q timer) s = .next s :=
  congrArg Host.Outcome.next (if_pos (not_msixDue_iff.2 h))

theorem exec_msixSend_sends (h : msixDue s q timer) (hm : mget false s.host.unmasked (evqVec s q) = true) :
    exec (.msixSend q timer) s = .next (sendMsix q s) :=
  congrArg Host.Outcome.next ((if_neg (fun hn => not_msixDue_iff.1 hn h)).trans (if_pos hm))

theorem exec_msixSend_masked (h : msixDue s q timer) (hm : mget false s.host.unmasked (evqVec s q) = false) :
    exec (.msixSend q timer) s = .next { s with host := { s.host with
      queues := mset {} s.host.queues q { getEvQ s q with waits := true }, pba := mset false s.host.pba (evqVec s q) true } } :=
  congrArg Host.Outcome.next ((if_neg (fun hn => not_msixDue_iff.1 hn h)).trans (if_neg (by rw [hm]; decide)))

/-- The state with a vector unmasked and its pending bit cleared. -/
def unmaskVec (v : Nat) (s : State) : State :=
  { s with host := { s.host with unmasked := mset false s.host.unmasked v true, pba := mset false s.host.pba v false } }

theorem exec_msixUnmask_beyond (h : 256 ≤ v) : exec (.msixUnmask v) s = .next s := congrArg Host.Outcome.next (if_pos h)

theorem exec_msixUnmask_quiet (h : v < 256) (hp : mget false s.host.pba v = false) : exec (.msixUnmask v) s = .next (unmaskVec v s) :=
  congrArg Host.Outcome.next ((if_neg (Nat.not_le.2 h)).trans (if_neg (by rw [hp]; decide)))

/-- The queues' records that a pending message signals count as signalled. -/
def signalVec (v : Nat) (s : State) : State :=
  ((List.range 17).filter fun e => (getEvQ s e).waits && decide (evqVec s e = v)).foldl
    (fun s e => setEvQ e { getEvQ s e with unsig := 0, urgent := false, waits := false } s) (unmaskVec v s)

theorem exec_msixUnmask_sends (h : v < 256) (hp : mget false s.host.pba v = true) :
    exec (.msixUnmask v) s = .next { signalVec v s with host := { (signalVec v s).host with sent := (signalVec v s).host.sent ++ [v] } } :=
  congrArg Host.Outcome.next ((if_neg (Nat.not_le.2 h)).trans (if_pos hp))

theorem signalVec_spec (v : Nat) (s : State) :
    signalVec v s = { unmaskVec v s with host := { (unmaskVec v s).host with queues := (signalVec v s).host.queues } } ∧
      ∀ e, getEvQ (signalVec v s) e = if e < 17 ∧ (getEvQ s e).waits = true ∧ evqVec s e = v then
        { getEvQ s e with unsig := 0, urgent := false, waits := false } else getEvQ s e := by
  obtain ⟨hs, hq⟩ := unsignal_spec (fun e => (getEvQ s e).waits && decide (evqVec s e = v)) 17 (unmaskVec v s)
  refine ⟨hs, fun e => (hq e).trans (if_congr ?_ rfl rfl)⟩
  rw [Bool.and_eq_true, decide_eq_true_iff]

/-- Where a vector's mask and pending bit stand after it is unmasked, and where those of the others do. -/
theorem unmaskVec_spec (v : Nat) (s : State) :
    mget false (unmaskVec v s).host.unmasked v = true ∧ mget false (unmaskVec v s).host.pba v = false ∧
    ∀ w, w ≠ v → mget false (unmaskVec v s).host.unmasked w = mget false s.host.unmasked w ∧
      mget false (unmaskVec v s).host.pba w = mget false s.host.pba w := by
  unfold unmaskVec
  exact ⟨by rw [mget_mset, if_pos rfl], by rw [mget_mset, if_pos rfl],
    fun w hw => ⟨by rw [mget_mset, if_neg hw], by rw [mget_mset, if_neg hw]⟩⟩

theorem msixUnmask_cases (h : v < 256) : ∃ n, exec (.msixUnmask v) s = .next n ∧
    mget false n.host.unmasked v = true ∧ mget false n.host.pba v = false ∧
    (∀ w, w ≠ v → mget false n.host.unmasked w = mget false s.host.unmasked w ∧ mget false n.host.pba w = mget false s.host.pba w) ∧
    n = { s with host := { s.host with unmasked := n.host.unmasked, pba := n.host.pba, queues := n.host.queues, sent := n.host.sent } } ∧
    (mget false s.host.pba v = false → n.host.sent = s.host.sent ∧ n.host.queues = s.host.queues) ∧
    (mget false s.host.pba v = true → n.host.sent = s.host.sent ++ [v] ∧
      ∀ e, getEvQ n e = if e < 17 ∧ (getEvQ s e).waits = true ∧ evqVec s e = v then
        { getEvQ s e with unsig := 0, urgent := false, waits := false } else getEvQ s e) := by
  obtain ⟨hmask, hpend, hother⟩ := unmaskVec_spec v s
  cases hp : mget false s.host.pba v with
  | false => exact ⟨_, exec_msixUnmask_quiet h hp, hmask, hpend, hother, rfl, fun _ => ⟨rfl, rfl⟩, nofun⟩
  | true =>
    obtain ⟨hs, hq⟩ := signalVec_spec v s
    have hx := exec_msixUnmask_sends h hp
    generalize signalVec v s = y at hs hq hx
    have hhost : y.host = { (unmaskVec v s).host with queues := y.host.queues } := by rw [hs]
    refine ⟨_, hx, ?_, ?_, ?_, ?_, nofun, fun _ => ⟨?_, hq⟩⟩
    all_goals dsimp only; rw [hhost]
    · exact hmask
    · exact hpend
    · exact hother
    · rw [hs]
      rfl
    · rfl

end

/-- Settles O53: doorbells, queues enabled, heads, records, messages, masks. -/
theorem hostQueues : Obligations.HostQueues := by
  unfold Obligations.HostQueues
  intro s
  refine ⟨fun q tail => ⟨exec_doorbellWrite_off, fun h ht => ⟨_, exec_doorbellWrite_beyond h ht, stopQueue_stopped _ _ _ (by decide) s⟩,
      fun h ht => ⟨_, exec_doorbellWrite_fetches h ht, fetchQueue_fetched q _⟩⟩,
    fun q => ⟨exec_queueEnable_beyond, exec_queueEnable_event_beyond, queueEnable_fetches, queueEnable_flushes⟩,
    fun q head => ⟨exec_eventQueueHeadWrite_off, fun h ht => ⟨_, exec_eventQueueHeadWrite_beyond h ht, stopQueue_stopped _ _ _ (by decide) s⟩,
      fun h ht => ⟨_, exec_eventQueueHeadWrite_flushes h ht, ?_⟩⟩,
    ⟨exec_eventPost_none, fun e v l h => ?_⟩,
    fun q timer => ⟨exec_msixSend_idle, exec_msixSend_sends, exec_msixSend_masked⟩,
    fun v => ⟨exec_msixUnmask_beyond, msixUnmask_cases⟩⟩
  · have hf := flushHold_flushed q (setEvQ q { getEvQ s q with head := head % 4096 } s)
    rwa [getEvQ_setEvQ, if_pos rfl] at hf
  · intro y
    refine ⟨_, exec_eventPost h, fun hh => ?_, fun hh ho hk => postRecord_written (s := y) hh ho hk,
      fun hh ho hk => postRecord_stopped (s := y) hh ho hk⟩
    rw [postRecord_held (s := y) hh]
    exact holdEvent_held e v y

end Sys2Proof.Machine
end

section
/-! Host commands at work: their dispatch, RUN_STEPS, COPY, ADMIT, EVICT (R340, R341, R343, R344, R349 to R351, R391). -/

namespace Sys2Proof.Machine

/-! ### Dispatch (R340, R341, R354, R391) -/

section

variable {s : State} {q hop : Nat} {h : HostCmd} {k : HostCmd → State → State}

theorem withHost_otherOpcode (hh : nextHost s q = some h) (ho : h.hop ≠ hop) : withHost hop q s k = s := by
  rw [withHost_some hop k hh, if_pos ho]

theorem withHost_unstaged (hh : nextHost s q = some h) (ho : h.hop = hop) (hs : ¬ (stageOf s = 2 ∨ stageOf s = 3)) :
    withHost hop q s k = cmdDone h (sketchStatus hop) 0 (dropHost h s) := by
  rw [withHost_some hop k hh, if_neg (not_not_intro ho), if_pos (not_or.1 hs)]

theorem withHost_wrongQueue (hh : nextHost s q = some h) (ho : h.hop = hop) (hs : stageOf s = 2 ∨ stageOf s = 3)
    (hq : ¬ (64 ≤ q ↔ 16 ≤ hop)) : withHost hop q s k = cmdDone h stRefused 0 (dropHost h s) := by
  rw [withHost_some hop k hh, if_neg (not_not_intro ho), if_neg (by rwa [← not_or, not_not]), if_pos (fun he => hq (iff_of_eq he))]

/-- What becomes of a command in a client's queue, of an opcode that such queues take (R341, R354). -/
theorem withHost_client (hh : nextHost s q = some h) (ho : h.hop = hop) (hs : stageOf s = 2 ∨ stageOf s = 3) (hq : q < 64)
    (hc : hop < 16) :
    let c := getClient s (queueClient q)
    withHost hop q s k = if c.state = 0 then cmdDone h stNotAdmitted 0 (dropHost h s)
      else if hop ≠ 5 ∧ ¬ (c.state = 2 ∨ (c.state = 1 ∧ inTurn s (queueClient q) = true)) then s
      else k h (dropHost h s) := by
  intro c
  rw [withHost_some hop k hh, if_neg (not_not_intro ho), if_neg (by rwa [← not_or, not_not]), if_neg (by simp; omega), if_neg (by omega)]

theorem withHost_notAdmitted (hh : nextHost s q = some h) (ho : h.hop = hop) (hs : stageOf s = 2 ∨ stageOf s = 3) (hq : q < 64)
    (hc : hop < 16) (hst : (getClient s (queueClient q)).state = 0) :
    withHost hop q s k = cmdDone h stNotAdmitted 0 (dropHost h s) :=
  (withHost_client hh ho hs hq hc).trans (if_pos hst)

theorem withHost_outOfTurn (hh : nextHost s q = some h) (ho : h.hop = hop) (hs : stageOf s = 2 ∨ stageOf s = 3) (hq : q < 64)
    (hc : hop < 16) (h5 : hop ≠ 5) (hst : (getClient s (queueClient q)).state ≠ 0)
    (ht : ¬ ((getClient s (queueClient q)).state = 2 ∨ ((getClient s (queueClient q)).state = 1 ∧ inTurn s (queueClient q) = true))) :
    withHost hop q s k = s :=
  (withHost_client hh ho hs hq hc).trans ((if_neg hst).trans (if_pos ⟨h5, ht⟩))

/-- Each of the rows runs its queue's next command where that has its opcode. -/
theorem exec_hostRow {i : Instr} (hi : (i, hop) ∈ [(Instr.loadPlates q, 1), (.runSteps q, 2), (.archiveOut q, 3), (.restoreIn q, 4),
    (.copy q, 5), (.admitClient q, 16), (.evict q, 17)]) : ∃ k, exec i s = .next (withHost hop q s k) := by
  simp only [List.mem_cons, Prod.mk.injEq, List.not_mem_nil, or_false] at hi
  obtain ⟨rfl, rfl⟩ | ⟨rfl, rfl⟩ | ⟨rfl, rfl⟩ | ⟨rfl, rfl⟩ | ⟨rfl, rfl⟩ | ⟨rfl, rfl⟩ | ⟨rfl, rfl⟩ := hi
  · exact ⟨loadPlates, rfl⟩
  · exact ⟨runSteps, rfl⟩
  · exact ⟨archiveOut, rfl⟩
  · exact ⟨restoreIn, rfl⟩
  · exact ⟨copyCmd, rfl⟩
  · exact ⟨admitCmd, rfl⟩
  · exact ⟨evictCmd, rfl⟩

theorem exec_hostReservedOpcode_none (hh : nextHost s q = none) : exec (.hostReservedOpcode q) s = .next s := by
  change execHostReservedOpcode q s = _
  unfold execHostReservedOpcode
  rw [hh]

theorem exec_hostReservedOpcode_some (hh : nextHost s q = some h) : exec (.hostReservedOpcode q) s =
    .next (if h.hop ∈ [1, 2, 3, 4, 5, 16, 17] then s
      else cmdDone h (if stageOf s = 2 ∨ stageOf s = 3 then 2 else 6) 0 (dropHost h s)) := by
  change execHostReservedOpcode q s = _
  unfold execHostReservedOpcode
  rw [hh]
  rfl

end

/-! ### RUN_STEPS (R343) -/

theorem ClientIs.trans {x y n : State} {c : Nat} {w z : Client} (h : ClientIs x y c w) (h' : ClientIs y n c z) : ClientIs x n c z := by
  obtain ⟨-, hk, ho⟩ := h
  obtain ⟨hz, hk', ho'⟩ := h'
  exact ⟨hz, fun k hkc => (hk' k hkc).trans (hk k hkc), ho.trans ho'⟩

theorem setClientState_is (c n : Nat) (z : Client) (x : State) :
    ClientIs x (setClientState c n (setClient c z x)) c { z with state := n } := by
  have hz := setClient_is c z x
  unfold setClientState
  rw [hz.1]
  exact hz.trans (setClient_is c { z with state := n } _)

/-- The checks of RUN_STEPS in their order (R343). -/
theorem runSteps_eq (h : HostCmd) (x : State) :
    let c := queueClient h.q
    let cl := getClient x c
    let ahead := ticksAhead x (fld (h.w 2) 0 40)
    let steps := fld (h.w 3) 0 32
    let idx := if h.w 4 = BitVec.allOnes 64 then cl.next else (h.w 4).toNat
    (cl.run ≠ none → runSteps h x = cmdDone h stBusy 0 x) ∧
    (cl.run = none → cl.set = none → runSteps h x = cmdDone h stNoPlates 0 x) ∧
    (cl.run = none → cl.set ≠ none → ahead < 2 ∨ 2 ^ 39 ≤ ahead → runSteps h x = cmdDone h stStartPassed 0 x) ∧
    (cl.run = none → cl.set ≠ none → ¬ (ahead < 2 ∨ 2 ^ 39 ≤ ahead) → steps = 0 → runSteps h x = cmdDone h stRefused 0 x) ∧
    (cl.run = none → cl.set ≠ none → ¬ (ahead < 2 ∨ 2 ^ 39 ≤ ahead) → steps ≠ 0 →
      (∀ d, cl.seed = some d → d ≠ (h.w 1).toNat → runSteps h x = cmdDone h stSeedMismatch 0 x) ∧
      ((∀ d, cl.seed = some d → d = (h.w 1).toNat) → runSteps h x = setClientState c 2 (setClient c { cl with
        seed := some (h.w 1).toNat, next := idx,
        run := some { q := h.q, cmdid := h.id, notify := h.notify, start := x.tick + ahead, left := steps, idx := idx,
                      arch := fld (h.w 5) 0 32 } } x))) := by
  intro c cl ahead steps idx
  unfold runSteps
  dsimp only
  have idle (hr : cl.run = none) : ¬ cl.run.isSome = true := mt Option.isSome_iff_ne_none.1 (not_not_intro hr)
  have loaded (hs : cl.set ≠ none) : ¬ cl.set.isNone = true := mt Option.isNone_iff_eq_none.1 hs
  refine ⟨fun hr => if_pos (Option.isSome_iff_ne_none.2 hr), fun hr hs => (if_neg (idle hr)).trans (if_pos (Option.isNone_iff_eq_none.2 hs)),
    fun hr hs ha => (if_neg (idle hr)).trans ((if_neg (loaded hs)).trans (if_pos ha)),
    fun hr hs ha hz => (if_neg (idle hr)).trans ((if_neg (loaded hs)).trans ((if_neg ha).trans (if_pos hz))),
    fun hr hs ha hz => ⟨fun d hd hne => (if_neg (idle hr)).trans ((if_neg (loaded hs)).trans ((if_neg ha).trans ((if_neg hz).trans ?_))),
      fun hd => (if_neg (idle hr)).trans ((if_neg (loaded hs)).trans ((if_neg ha).trans ((if_neg hz).trans (if_neg ?_))))⟩⟩
  · change (getClient x (queueClient h.q)).seed = some d at hd
    rw [hd]
    exact if_pos (decide_eq_true hne)
  · cases hseed : (getClient x (queueClient h.q)).seed with
    | none => exact Bool.false_ne_true
    | some d => exact fun hh => of_decide_eq_true hh (hd d hseed)

/-- A host command that a row serves is served in the state without it. -/
theorem exec_served {i : Instr} {s : State} {q hop : Nat} {h : HostCmd} {k : HostCmd → State → State} (hi : exec i s = .next (withHost hop q s k))
    (hs : HostServes s q hop h) : exec i s = .next (k h (dropHost h s)) := hi.trans (congrArg Host.Outcome.next (withHost_serves k hs))

/-! ### COPY (R344) -/

/-- Whether a COPY is refused: no bytes, host to host, or a side outside the client's buffers (R168, R344). -/
def copyBad (s : State) (c n : Nat) (src dst : CopySide) : Prop :=
  n = 0 ∨ (src.host = true ∧ dst.host = true) ∨ copySideBad s c n src = true ∨ copySideBad s c n dst = true

/-- Whether a COPY waits: for its client to run, or for the slots that it would read or write (R177, R354). -/
def copyWaits (s : State) (c n : Nat) (src dst : CopySide) : Prop :=
  sideWaits s c src = true ∨ sideWaits s c dst = true ∨ (src.host = false ∧ readReady s src.name (getEnt s src.name) src.off n = false) ∨
    (dst.host = false ∧ writeReady s dst.name (getEnt s dst.name) dst.off n = false)

/-- Whether the host bus fails on a side of a COPY. -/
def copyDead (s : State) (n : Nat) (src dst : CopySide) : Prop :=
  (src.host = true ∧ hostOk s src.addr n = false) ∨ (dst.host = true ∧ hostOk s dst.addr n = false)

theorem copyWaits_iff (s : State) (c n : Nat) (src dst : CopySide) : (sideWaits s c src || sideWaits s c dst ||
    (!src.host && !readReady s src.name (getEnt s src.name) src.off n) ||
    (!dst.host && !writeReady s dst.name (getEnt s dst.name) dst.off n)) = true ↔ copyWaits s c n src dst := by
  simp only [copyWaits, Bool.or_eq_true, Bool.and_eq_true, Bool.not_eq_true', or_assoc]

theorem copyDead_iff (s : State) (n : Nat) (src dst : CopySide) : ((src.host && !hostOk s src.addr n) ||
    (dst.host && !hostOk s dst.addr n)) = true ↔ copyDead s n src dst := by
  simp only [copyDead, Bool.or_eq_true, Bool.and_eq_true, Bool.not_eq_true']

/-- What becomes of a COPY: refused, put back, failed, or its bytes moved (R344). -/
theorem copyCmd_eq (h : HostCmd) (x : State) :
    let c := queueClient h.q
    let n := fld (h.w 3) 0 36
    let src := copySide (bit (h.w 4) 0) (h.w 1)
    let dst := copySide (bit (h.w 4) 1) (h.w 2)
    (copyBad x c n src dst → copyCmd h x = cmdDone h stRefused 0 x) ∧
    (¬ copyBad x c n src dst → copyWaits x c n src dst → copyCmd h x = holdHost h x) ∧
    (¬ copyBad x c n src dst → ¬ copyWaits x c n src dst → copyDead x n src dst → copyCmd h x = cmdDone h stHostFault 0 x) ∧
    (¬ copyBad x c n src dst → ¬ copyWaits x c n src dst → ¬ copyDead x n src dst →
      let z := copyIn c n src (crossBridge c (sideDie src) (sideDie dst) n x)
      copyCmd h x = cmdDone h (if anyPoison z.1 then stPoisoned else stOk) 0 (copyOut c dst z.1 z.2)) := by
  intro c n src dst
  unfold copyCmd
  dsimp only
  have ready (hw : ¬ copyWaits x c n src dst) := mt (copyWaits_iff x c n src dst).1 hw
  exact ⟨fun hb => if_pos hb,
    fun hb hw => (if_neg hb).trans (if_pos ((copyWaits_iff x c n src dst).2 hw)),
    fun hb hw hd => (if_neg hb).trans ((if_neg (ready hw)).trans (if_pos ((copyDead_iff x n src dst).2 hd))),
    fun hb hw hd => (if_neg hb).trans ((if_neg (ready hw)).trans (if_neg (mt (copyDead_iff x n src dst).1 hd)))⟩

/-! ### ADMIT and EVICT (R349 to R351) -/

section

variable {h : HostCmd} {s : State} {q : Nat}

theorem exec_admitClient_bad (hs : HostServes s q 16 h)
    (hb : admitBad s (fld (h.w 1) 0 4) (admitted h) (getDict s (dkey 0x7000 0x02)).toNat = true) :
    exec (.admitClient q) s = .next (cmdDone h stRefused 0 (dropHost h s)) :=
  (exec_served rfl hs).trans (congrArg Host.Outcome.next (if_pos hb))

theorem exec_admitClient_good (hs : HostServes s q 16 h)
    (hb : ¬ admitBad s (fld (h.w 1) 0 4) (admitted h) (getDict s (dkey 0x7000 0x02)).toNat = true) :
    exec (.admitClient q) s = .next (cmdDone h stOk 0 (admitClient (fld (h.w 1) 0 4) (admitted h) (dropHost h s))) :=
  (exec_served rfl hs).trans (congrArg Host.Outcome.next (if_neg hb))

theorem exec_evict_absent (hs : HostServes s q 17 h) (hc : (getClient s (fld (h.w 1) 0 4)).state = 0) :
    exec (.evict q) s = .next (cmdDone h stNotAdmitted 0 (dropHost h s)) :=
  (exec_served rfl hs).trans (congrArg Host.Outcome.next (if_pos hc))

theorem exec_evict_present (hs : HostServes s q 17 h) (hc : (getClient s (fld (h.w 1) 0 4)).state ≠ 0) :
    exec (.evict q) s = .next (cmdDone h stOk 0 (evictClient (fld (h.w 1) 0 4) true (dropHost h s))) :=
  (exec_served rfl hs).trans (congrArg Host.Outcome.next (if_neg hc))

end

theorem dropHost_only (h : HostCmd) (s : State) : Only [.host] s (dropHost h s) := only_host _ _

/-- Settles O54: the dispatch, RUN_STEPS by its checks, COPY by its checks and its bytes, ADMIT, EVICT. -/
theorem hostCommands : Obligations.HostCommands := by
  unfold Obligations.HostCommands
  intro s q
  refine ⟨fun i hop hi => ?_, ⟨exec_hostReservedOpcode_none, fun h hh => ⟨fun hm => ?_, fun hm => ?_⟩⟩, fun h hs => ?_, fun h hs => ?_,
    fun h hs => ⟨fun hb => ⟨_, exec_admitClient_bad hs hb, hostDone_done _ _ _ _⟩, fun hb => ?_⟩,
    fun h hs => ⟨fun hc => ⟨_, exec_evict_absent hs hc, hostDone_done _ _ _ _⟩, fun hc => ?_⟩⟩
  · obtain ⟨k, hk⟩ := exec_hostRow (s := s) hi
    rw [hk]
    refine ⟨fun hn => congrArg _ (withHost_none hop k hn), fun h hh => ?_⟩
    intro c staged
    have done (status : Nat) (he : withHost hop q s k = cmdDone h status 0 (dropHost h s)) :
        ∃ n, Host.Outcome.next (withHost hop q s k) = (.next n : Host.Outcome State Fault Refusal) ∧ CmdDone h status 0 (dropHost h s) n :=
      ⟨_, rfl, he ▸ hostDone_done _ _ _ _⟩
    exact ⟨fun ho => congrArg _ (withHost_otherOpcode hh ho), fun ho hs => done _ (withHost_unstaged hh ho hs),
      fun ho hs hq => done _ (withHost_wrongQueue hh ho hs hq), fun ho hs hq hc hst => done _ (withHost_notAdmitted hh ho hs hq hc hst),
      fun ho hs hq hc h5 hst ht => congrArg _ (withHost_outOfTurn hh ho hs hq hc h5 hst ht)⟩
  · rw [exec_hostReservedOpcode_some hh, if_pos hm]
  · rw [exec_hostReservedOpcode_some hh, if_neg hm]
    exact ⟨_, rfl, hostDone_done _ _ _ _⟩
  · intro x c cl ahead fail
    have hx : exec (.runSteps q) s = .next (runSteps h x) := exec_served rfl hs
    have done (status : Nat) (he : runSteps h x = cmdDone h status 0 x) : fail status := ⟨_, hx, he ▸ hostDone_done _ _ _ _⟩
    obtain ⟨hbusy, hplates, hpassed, hzero, hrun⟩ := runSteps_eq h x
    refine ⟨fun hr => done _ (hbusy hr), fun hr => ⟨fun hp => done _ (hplates hr hp), fun hp => ⟨fun ha => done _ (hpassed hr hp ha),
      fun ha1 ha2 => ?_⟩⟩⟩
    have ha : ¬ (ahead < 2 ∨ 2 ^ 39 ≤ ahead) := by omega
    refine ⟨fun hz => done _ (hzero hr hp ha hz), fun hz => ⟨fun d hd hne => done _ ((hrun hr hp ha hz).1 d hd hne), fun hd => ?_⟩⟩
    exact ⟨_, hx.trans (congrArg _ ((hrun hr hp ha hz).2 hd)), setClientState_is _ _ _ _⟩
  · intro x c n src dst bad waits dead data
    have hx : exec (.copy q) s = .next (copyCmd h x) := exec_served rfl hs
    obtain ⟨hbad, hwaits, hdead, hmoves⟩ := copyCmd_eq h x
    refine ⟨fun hb => ⟨_, hx, hbad hb ▸ hostDone_done _ _ _ _⟩, fun hb hw => hx.trans (congrArg _ (hwaits hb hw)),
      fun hb hw hd => ⟨_, hx, hdead hb hw hd ▸ hostDone_done _ _ _ _⟩, fun hb hw hd => ?_⟩
    obtain ⟨hdata, honly, hfetched, hhost, hbuf⟩ := copy_spec c n src dst x
    refine ⟨_, _, hx.trans (congrArg _ (hmoves hb hw hd)), ?_, ((dropHost_only h s).mono (by decide)).trans honly, hfetched, hhost, hbuf⟩
    rw [hdata]
    exact hostDone_done _ _ _ _
  · obtain ⟨hhost, hclient, hledger, hdict, honly⟩ := admitClient_spec _ (fld_lt (h.w 1) 0 4) (admitted h) (dropHost h s)
    exact ⟨_, _, exec_admitClient_good hs hb, hostDone_done _ _ _ _, hhost, hclient, hledger, hdict,
      ((dropHost_only h s).mono (by decide)).trans (honly.mono (by decide))⟩
  · obtain ⟨hfetched, hents⟩ := evictClient_more (fld (h.w 1) 0 4) (dropHost h s)
    obtain ⟨-, hclient, honly⟩ := evictClient_spec (fld (h.w 1) 0 4) true (dropHost h s)
    exact ⟨_, _, exec_evict_present hs hc, hostDone_done _ _ _ _, hclient, hfetched, hents,
      ((dropHost_only h s).mono (by decide)).trans honly⟩

end Sys2Proof.Machine
end

section
/-! The rotation and the arbiters at work: slices due, switches out and in, long commands, grants (R352, R355, R357, R358, R361 to R364). -/

namespace Sys2Proof.Machine

/-! ### Slices due (R352) -/

section

variable {s : State}

theorem exec_sliceDue_waiting (h : s.rot.due = true) : exec .sliceDue s = .next s := congrArg Host.Outcome.next (if_pos h)

theorem exec_sliceDue_rotating (hd : s.rot.due = false) (hl : s.rot.len ≠ 0) : exec .sliceDue s =
    .next (if sliceStart s s.rot.slice + sliceLen (rotEntry s s.rot.slice) - s.rot.cut ≤ s.tick then { s with rot := { s.rot with due := true } } else s) :=
  congrArg Host.Outcome.next ((if_neg (by rw [hd]; decide)).trans (if_neg hl))

theorem exec_sliceDue_first (hd : s.rot.due = false) (hl : s.rot.len = 0) : exec .sliceDue s =
    .next (if (nextTable s).1 ≠ 0 ∧ nextStart s (nextTable s) s.tick = s.tick then { s with rot := { s.rot with due := true, origin := s.tick } } else s) :=
  congrArg Host.Outcome.next ((if_neg (by rw [hd]; decide)).trans (if_pos hl))

end

/-! ### Switching out (R355, R357) -/

theorem unitRuns_congr {s n : State} (ht : n.tiles = s.tiles) (hu : n.units = s.units) (e : Eng) : unitRuns n e = unitRuns s e := by
  cases e <;> simp only [unitRuns, getArr, getVec, getCpt, getTile_congr ht, hu]

theorem dieAtRest_congr {s n : State} (ht : n.tiles = s.tiles) (hu : n.units = s.units) (d : Nat) : dieAtRest n d = dieAtRest s d := by
  unfold dieAtRest
  exact congrArg ((enginesOf d).all ·) (funext fun e => congrArg (!·) (unitRuns_congr ht hu e))

/-- The clients that a due slice sends out: those of it that no capture holds back (R355, R377). -/
def goers (s : State) : List Nat := (sliceClients s).filter fun c => !(getClient s c).arch.due && decide ((getClient s c).arch.pause = 0)

theorem goers_nodup (s : State) : (goers s).Nodup := (List.nodup_range.filter _).filter _

theorem mem_goers (s : State) (j : Nat) :
    j ∈ goers s ↔ j ∈ sliceClients s ∧ (getClient s j).arch.due = false ∧ (getClient s j).arch.pause = 0 := by
  unfold goers
  rw [List.mem_filter, Bool.and_eq_true, Bool.not_eq_true', decide_eq_true_iff]

/-- The state with every client that goes stopped where it can stop (R355, R357). -/
def goersStopped (s : State) : State := (goers s).foldl (fun s c => stopClient c s) { s with rot := { s.rot with between := true } }

theorem exec_switchOut_idle {s : State} (h : s.rot.due = false) : exec .switchOut s = .next s :=
  congrArg Host.Outcome.next (if_pos (by rw [h]; decide))

theorem exec_switchOut_due {s : State} (h : s.rot.due = true) :
    exec .switchOut s = .next ((goers s).foldl (fun s c => saveClient c s) (goersStopped s)) :=
  congrArg Host.Outcome.next (if_neg (not_not_intro h))

open Classical in
/-- What stopping leaves: each client that goes and can stop is at its boundary, and nothing else has changed. -/
theorem goersStopped_spec (s : State) :
    let m := goersStopped s
    (∀ k, getClient m k = if k ∈ goers s ∧ canStop s k then { getClient s k with state := 4 } else getClient s k) ∧
    (∀ k, mget 0 m.rot.bounds k = if k ∈ goers s ∧ canStop s k then s.tick else mget 0 s.rot.bounds k) ∧
    m.rot = { s.rot with bounds := m.rot.bounds, between := true } ∧ Only [.clients, .rot] s m := by
  obtain ⟨hclient, hbound, hrot, hbetween, honly⟩ := stopClients_spec (goers s) (goers_nodup s) { s with rot := { s.rot with between := true } }
  refine ⟨hclient, hbound, ?_, ((only_rot _ s).mono (by decide)).trans honly⟩
  change (goersStopped s).rot = { s.rot with bounds := (goersStopped s).rot.bounds, between := (goersStopped s).rot.between } at hrot
  rw [hrot]
  exact congrArg (fun b => ({ s.rot with bounds := (goersStopped s).rot.bounds, between := b } : Rotation)) (hbetween rfl)

/-- A lone client that goes from its boundary is saved where its dies are at rest, and only there (R357). -/
theorem saveLone_state {s m : State} {k : Nat} (hlone : ∀ j ∈ goers s, j = k) (hk : k ∈ goers s)
    (hm : getClient m k = { getClient s k with state := 4 }) (ht : m.tiles = s.tiles) (hu : m.units = s.units) :
    (getClient ((goers s).foldl (fun s c => saveClient c s) m) k).state = 3 ↔ ∀ d ∈ clientDies (getClient s k), dieAtRest s d = true := by
  have hl : goers s = [k] := by
    refine List.perm_singleton.1 ((List.perm_ext_iff_of_nodup (goers_nodup s) (List.nodup_singleton k)).2 fun j => ?_)
    rw [List.mem_singleton]
    exact ⟨hlone j, fun h => h ▸ hk⟩
  have hdies : clientDies (getClient m k) = clientDies (getClient s k) := by rw [hm]; rfl
  have hrest : (clientDies (getClient m k)).all (dieAtRest m) = true ↔ ∀ d ∈ clientDies (getClient s k), dieAtRest s d = true := by
    rw [hdies, funext (dieAtRest_congr ht hu), List.all_eq_true]
  rw [hl, List.foldl_cons, List.foldl_nil, (saveClient_spec k m).1 k, ← hrest, hm]
  split
  · next h => exact ⟨fun _ => h.2.2, fun _ => rfl⟩
  · next h => exact ⟨fun h3 => absurd h3 (show ¬ (4 : Nat) = 3 by decide), fun hr => absurd ⟨rfl, rfl, hr⟩ h⟩

/-- What a switch out leaves of each client and of the rotation (R355, R357). -/
theorem switchOut_spec {s : State} (h : s.rot.due = true) :
    ∃ n, exec .switchOut s = .next n ∧ n.rot.between = true ∧ n.rot.due = true ∧ n.rot.slice = s.rot.slice ∧
      Only [.mem, .regs, .sat, .cat, .plates, .tiles, .units, .clients, .rot, .host, .logs, .ledger] s n ∧
      ∀ k : Nat,
        let c := getClient s k
        (k ∉ goers s → getClient n k = c ∧ mget 0 n.rot.bounds k = mget 0 s.rot.bounds k) ∧
        (k ∈ goers s → getClient n k = { c with state := (getClient n k).state } ∧
          (canStop s k → ((getClient n k).state = 4 ∨ (getClient n k).state = 3) ∧ mget 0 n.rot.bounds k = s.tick) ∧
          (¬ canStop s k → mget 0 n.rot.bounds k = mget 0 s.rot.bounds k ∧ (c.state ≠ 4 → (getClient n k).state = c.state) ∧
            (c.state = 4 → (getClient n k).state = 4 ∨ (getClient n k).state = 3)) ∧
          (canStop s k ∨ c.state = 4 → (∀ j ∈ goers s, j = k) → ((getClient n k).state = 3 ↔ ∀ d ∈ clientDies c, dieAtRest s d = true))) := by
  obtain ⟨hstop, hbound, hrot, honly⟩ := goersStopped_spec s
  obtain ⟨hsave, hrot', honly'⟩ := saveClients_spec (goers s) (goersStopped s)
  have hlone := fun k => saveLone_state (s := s) (m := goersStopped s) (k := k)
  have hx := exec_switchOut_due h
  generalize goersStopped s = m at hstop hbound hrot honly hsave hrot' honly' hlone hx
  generalize List.foldl _ m (goers s) = n at hsave hrot' honly' hlone hx
  have hbounds : n.rot.bounds = m.rot.bounds := by rw [hrot']
  refine ⟨n, hx, by rw [hrot', hrot], by rw [hrot', hrot]; exact h, by rw [hrot', hrot], (honly.mono (by decide)).trans honly', fun k => ?_⟩
  obtain ⟨hkeep, hstate, hfour⟩ := hsave k
  rw [hbounds, hbound k]
  rw [hstop k] at hkeep hstate hfour
  have hlone := hlone k
  rw [hstop k] at hlone
  refine ⟨fun hk => ?_, fun hk => ⟨?_, fun hs => ?_, fun hs => ?_, fun hs hj => ?_⟩⟩
  · rw [if_neg (fun hh => hk hh.1)] at hkeep hstate ⊢
    rw [hkeep, hstate (.inl hk)]
    exact ⟨rfl, rfl⟩
  · rw [hkeep]
    split <;> rfl
  · rw [if_pos ⟨hk, hs⟩] at hfour ⊢
    exact ⟨hfour rfl, rfl⟩
  · rw [if_neg (fun hh => hs hh.2)] at hstate hfour ⊢
    exact ⟨rfl, fun h4 => hstate (.inr h4), hfour⟩
  · refine hlone hj hk ?_ (honly.tiles (by decide)) (honly.units (by decide))
    by_cases hc : canStop s k
    · exact if_pos ⟨hk, hc⟩
    · rw [if_neg (fun hh => hc hh.2), ← hs.resolve_left hc]

/-! ### Switching in (R352, R357, R360) -/

section

variable {s : State} {i origin start : Nat} {t : Nat × SMap Word}

/-- Whether a switch in is ready: the slice before has gone, all its clients saved, and the next slice's start has come. -/
def switchReady (s : State) (start : Nat) : Prop :=
  s.rot.due = true ∧ s.rot.between = true ∧ (∀ c ∈ sliceClients s, (getClient s c).state = 3) ∧ start ≤ s.tick

theorem not_switchReady_iff : (¬ s.rot.due = true ∨ ¬ s.rot.between = true ∨
    (sliceClients s).any (fun c => decide ((getClient s c).state ≠ 3)) = true ∨ s.tick < start) ↔ ¬ switchReady s start := by
  unfold switchReady
  simp only [not_and_or, List.any_eq_true, decide_eq_true_eq, not_forall, exists_prop, Nat.not_le, ne_eq]

/-- The state with a slice begun, before its clients are brought (R352, R357). -/
def sliceBegun (i : Nat) (t : Nat × SMap Word) (origin : Nat) (s : State) : State :=
  { s with rot := { s.rot with
    due := false, between := false, slice := i, len := t.1, entries := t.2, origin := origin, bounds := [], long := [], overrun := 0, cut := 0 } }

/-- The state with the clients of a slice that has begun brought in. -/
def sliceBrought (start : Nat) (s : State) : State := (sliceClients s).foldl (fun s c => bringClient start c s) s

/-- The state with a switch counted, and its longest time noted (R360). -/
def switchCounted (s : State) : State :=
  let y := setDict (dkey 0x7000 0x09)
    (BitVec.ofNat 64 (max (getDict s (dkey 0x7000 0x09)).toNat ((s.rot.cost.map fun x => switchTime x.2).foldl max 0))) (bumpDict (dkey 0x7000 0x08) 1 s)
  { y with rot := { y.rot with cost := [] } }

theorem exec_switchIn_idle (hn : nextSlice s = (i, t, origin, start)) (h : ¬ switchReady s start) : exec .switchIn s = .next s := by
  change execSwitchIn s = _
  unfold execSwitchIn
  rw [hn]
  exact congrArg Host.Outcome.next (if_pos (not_switchReady_iff.2 h))

theorem exec_switchIn_ready (hn : nextSlice s = (i, t, origin, start)) (h : switchReady s start) :
    exec .switchIn s = .next (switchCounted (sliceBrought start (sliceBegun i t origin s))) := by
  change execSwitchIn s = _
  unfold execSwitchIn
  rw [hn]
  exact congrArg Host.Outcome.next (if_neg (fun hh => not_switchReady_iff.1 hh h))

theorem mem_sliceClients (s : State) (k : Nat) :
    k ∈ sliceClients s ↔ k < 16 ∧ (getClient s k).state ≠ 0 ∧ (s.rot.len = 0 ∨ bit (rotEntry s s.rot.slice) k = true) := by
  unfold sliceClients
  rw [List.mem_filter, List.mem_range, Bool.and_eq_true, Bool.or_eq_true, decide_eq_true_iff, decide_eq_true_iff]

theorem switchCounted_spec (s : State) :
    let n := switchCounted s
    n.clients = s.clients ∧ n.rot = { s.rot with cost := [] } ∧
      getDict n (dkey 0x7000 0x08) = countUp 64 (getDict s (dkey 0x7000 0x08)) 1 := by
  have hb := bumpDict_only (dkey 0x7000 0x08) 1 s
  refine ⟨hb.clients (by decide), congrArg (fun r : Rotation => { r with cost := [] }) (hb.rot (by decide)), ?_⟩
  change getDict (setDict (dkey 0x7000 0x09) _ (bumpDict (dkey 0x7000 0x08) 1 s)) (dkey 0x7000 0x08) = _
  rw [getDict_setDict, if_neg (by decide), bumpDict_countUp]

/-- A slice that begins: its clients run or stand idle, without debt, the others are as they were, and the switch is counted (R352, R357). -/
theorem switchIn_spec (hn : nextSlice s = (i, t, origin, start)) (h : switchReady s start) :
    let here (k : Nat) : Prop := k < 16 ∧ (t.1 = 0 ∨ bit (mget 0 t.2 i) k = true) ∧ ((getClient s k).state = 1 ∨ (getClient s k).state = 3)
    ∃ n, exec .switchIn s = .next n ∧ Only [.mem, .regs, .dict, .sat, .cat, .plates, .tiles, .units, .clients, .rot, .host, .logs, .ledger] s n ∧
      n.rot.due = false ∧ n.rot.between = false ∧ n.rot.slice = i ∧ n.rot.len = t.1 ∧ n.rot.entries = t.2 ∧ n.rot.origin = origin ∧ n.rot.bounds = [] ∧
      n.rot.long = [] ∧ n.rot.overrun = 0 ∧ n.rot.cost = [] ∧ getDict n (dkey 0x7000 0x08) = countUp 64 (getDict s (dkey 0x7000 0x08)) 1 ∧
      ∀ k, (here k → (getClient n k).state = (if (getClient s k).run.isSome then 2 else 1) ∧ (getClient n k).debt = 0 ∧ (getClient s k).debt ≤ n.rot.cut) ∧
        (¬ here k → getClient n k = { getClient s k with scope := (getClient n k).scope }) := by
  intro here
  have hx := exec_switchIn_ready hn h
  have hhere (k : Nat) : here k ↔ k ∈ sliceClients (sliceBegun i t origin s) ∧ ((getClient s k).state = 1 ∨ (getClient s k).state = 3) := by
    rw [mem_sliceClients]
    constructor
    · rintro ⟨hk, ht, hst⟩
      exact ⟨⟨hk, fun h0 : (getClient s k).state = 0 => by omega, ht⟩, hst⟩
    · rintro ⟨⟨hk, -, ht⟩, hst⟩
      exact ⟨hk, ht, hst⟩
  obtain ⟨⟨hrot, -, hcount⟩, hother, hbrought⟩ := bringClients_spec start (sliceClients (sliceBegun i t origin s)) (List.nodup_range.filter _) (sliceBegun i t origin s)
  change exec .switchIn s = .next (switchCounted (List.foldl (fun s c => bringClient start c s) (sliceBegun i t origin s) _)) at hx
  generalize List.foldl (fun s c => bringClient start c s) (sliceBegun i t origin s) _ = m at hx hrot hcount hother hbrought
  obtain ⟨hclients, hrot', hcount'⟩ := switchCounted_spec m
  generalize switchCounted m = n at hx hclients hrot' hcount'
  have honly := (execSwitchIn_kept (Kept.rfl' s) hx (List.Subset.refl _)).only
  have hclient (k : Nat) : getClient n k = getClient m k := getClient_congr hclients k
  rw [hrot] at hrot'
  rw [hcount] at hcount'
  refine ⟨n, hx, honly, ?_⟩
  rw [hrot']
  refine ⟨rfl, rfl, rfl, rfl, rfl, rfl, rfl, rfl, rfl, rfl, hcount', fun k => ?_⟩
  rw [hclient]
  exact ⟨fun hk => hbrought k ((hhere k).1 hk), fun hk => hother k (fun hh => hk ((hhere k).2 hh))⟩

end

/-! ### Long commands (R358) -/

section

variable {s : State} {e : Eng}

/-- Whether a unit still runs 50 us after its client's boundary, and that has not been said (R358). -/
def longDue (s : State) (e : Eng) : Prop :=
  (getClient s (clientOn s (engDie e))).state = 4 ∧ mget 0 s.rot.bounds (clientOn s (engDie e)) + 50 ≤ s.tick ∧ unitRuns s e = true ∧ engKey e ∉ s.rot.long

theorem not_longDue_iff : ((getClient s (clientOn s (engDie e))).state ≠ 4 ∨ s.tick < mget 0 s.rot.bounds (clientOn s (engDie e)) + 50 ∨
    ¬ unitRuns s e = true ∨ s.rot.long.contains (engKey e) = true) ↔ ¬ longDue s e := by
  unfold longDue
  rw [not_and_or, not_and_or, not_and_or, Nat.not_le, not_not, List.contains_iff_mem]

theorem exec_longCommand_idle (h : ¬ longDue s e) : exec (.longCommand e) s = .next s :=
  congrArg Host.Outcome.next (if_pos (not_longDue_iff.2 h))

theorem exec_longCommand_due (h : longDue s e) : exec (.longCommand e) s = .next (post 0x0208 (clientOn s (engDie e))
    (engCode e + 16 * engUnit e + 256 * engDie e) (bumpDict (dkey 0x7000 0x0B) 1 { s with rot := { s.rot with long := s.rot.long ++ [engKey e] } })) :=
  congrArg Host.Outcome.next (if_neg (fun hh => not_longDue_iff.1 hh h))

theorem longCommand_spec (h : longDue s e) : ∃ y,
    exec (.longCommand e) s = .next (post 0x0208 (clientOn s (engDie e)) (engCode e + 16 * engUnit e + 256 * engDie e) y) ∧
    y.rot = { s.rot with long := s.rot.long ++ [engKey e] } ∧ getDict y (dkey 0x7000 0x0B) = countUp 64 (getDict s (dkey 0x7000 0x0B)) 1 ∧
    Only [.dict, .sat, .rot, .host, .logs] s y := by
  have hb := bumpDict_only (dkey 0x7000 0x0B) 1 { s with rot := { s.rot with long := s.rot.long ++ [engKey e] } }
  exact ⟨_, exec_longCommand_due h, hb.rot (by decide), bumpDict_countUp _ _ _, ((only_rot _ s).mono (by decide)).trans (hb.mono (by decide))⟩

end

/-! ### Arbiters (R361 to R364) -/

section

variable {s : State} {res : Nat} {d : DieId} {reqs : List ArbReq} {code : Nat}

/-- The arbiter as a cycle of it begins: its window has moved on where it has ended (R363). -/
def arbBegun (s : State) (a : Arb) : Arb := if (getDict s (dkey 0x7000 0x04)).toNat ≤ a.cycle then arbWindow a else a

theorem exec_arbiterGrant_none (h : 4 ≤ res) : exec (.arbiterGrant res d reqs) s = .next s := congrArg Host.Outcome.next (if_pos h)

theorem exec_arbiterGrant_cycle (h : res < 4) : exec (.arbiterGrant res d reqs) s =
    .next (setArb res d.val (arbCycle s res reqs (mget {} s.arbs (arbKey res d.val))) s) :=
  congrArg Host.Outcome.next (if_neg (Nat.not_le.2 h))

theorem arbGrant_nil (s : State) (n : Nat) (a : Arb) : arbGrant s n a [] = (a, []) := by
  cases n with
  | zero => rfl
  | succ n =>
    unfold arbGrant
    simp [arbPick]

/-- A cycle of an arbiter grants what it can, and the requesters left over wait. -/
theorem arbCycle_eq (s : State) (res : Nat) (reqs : List ArbReq) (a : Arb) :
    let g := arbGrant s (arbWidth res) { arbBegun s a with cycle := (arbBegun s a).cycle + 1 } reqs
    arbCycle s res reqs a = ((g.2.map (·.code)).eraseDups).foldl arbWait g.1 := rfl

theorem arbCycle_nil (s : State) (res : Nat) (a : Arb) :
    arbCycle s res [] a = { arbBegun s a with cycle := (arbBegun s a).cycle + 1 } := by
  rw [arbCycle_eq, arbGrant_nil]
  rfl

/-- The counts of a requester that is granted (R363, R364). -/
def arbGranted (cls : Nat) (r : ArbReq) (y : ArbCnt) : ArbCnt :=
  { y with grants := min (2 ^ 64 - 1) (y.grants + 1), maxWait := min (2 ^ 32 - 1) (max y.maxWait r.age),
           high := if cls = 0 then y.high + 1 else y.high }

theorem arbTake_cnts (r : ArbReq) (cls : Nat) (a : Arb) (k : Nat) :
    mget {} (arbTake r cls a).cnts k = if k = r.code then arbGranted cls r (mget {} a.cnts k) else mget {} a.cnts k := by
  have h : mget {} (arbTake r cls a).cnts k = if k = r.code then arbGranted cls r (mget {} a.cnts r.code) else mget {} a.cnts k := mget_mset _ _ _ _ _
  rw [h]
  split
  · next hk => rw [hk]
  · rfl

/-- A cycle of an arbiter that serves one request: the best class, round robin in it, and a cycle of wait for the requesters left (R361, R364). -/
theorem arbCycle_one (s : State) (a : Arb) (hres : res ≠ 2) (hreqs : reqs ≠ []) :
    let a0 := arbBegun s a
    let x := arbCycle s res reqs a
    ∃ r ∈ reqs,
      let dist (q : ArbReq) : Nat := (q.code + 64 - (mget 63 a0.last (arbClass s a0 r) + 1) % 64) % 64
      (∀ q ∈ reqs, arbClass s a0 r ≤ arbClass s a0 q) ∧ (∀ q ∈ reqs, arbClass s a0 q = arbClass s a0 r → dist r ≤ dist q) ∧
      x.cycle = a0.cycle + 1 ∧ mget 63 x.last (arbClass s a0 r) = r.code % 64 ∧
      ∀ k,
        let y := mget {} a0.cnts k
        let y' := if k = r.code then arbGranted (arbClass s a0 r) r y else y
        mget {} x.cnts k = if ∃ q ∈ reqs.erase r, q.code = k then { y' with wait := min (2 ^ 64 - 1) (y'.wait + 1) } else y' := by
  intro a0 x
  obtain ⟨r, hr, hgrant, hclass, hdist⟩ := arbGrant_one s { a0 with cycle := a0.cycle + 1 } reqs hreqs
  have hx : x = (((reqs.erase r).map (·.code)).eraseDups).foldl arbWait (arbTake r (arbClass s a0 r) { a0 with cycle := a0.cycle + 1 }) := by
    refine (arbCycle_eq s res reqs a).trans ?_
    rw [show arbWidth res = 1 from if_neg hres, hgrant]
    rfl
  obtain ⟨hlast, hcycle, hcnts⟩ := arbWaits_spec _ (nodup_eraseDups ((reqs.erase r).map (·.code))) (arbTake r (arbClass s a0 r) { a0 with cycle := a0.cycle + 1 })
  rw [← hx] at hlast hcycle hcnts
  refine ⟨r, hr, hclass, hdist, hcycle, ?_, fun k => ?_⟩
  · rw [hlast]
    exact (mget_mset _ _ _ _ _).trans (if_pos rfl)
  · rw [hcnts, arbTake_cnts]
    refine if_congr ?_ rfl rfl
    rw [List.mem_eraseDups, List.mem_map]

theorem setArb_self (res d : Nat) (a : Arb) (s : State) : mget {} (setArb res d a s).arbs (arbKey res d) = a := by
  rw [setArb_arbs, mget_mset, if_pos rfl]

theorem setArb_other {k : Nat} (res d : Nat) (a : Arb) (s : State) (h : k ≠ arbKey res d) :
    mget {} (setArb res d a s).arbs k = mget {} s.arbs k := by
  rw [setArb_arbs, mget_mset, if_neg h]

theorem exec_grantWithdraw_none (h : 4 ≤ res ∨ (mget {} (mget {} s.arbs (arbKey res d.val)).cnts code).grants = 0) :
    exec (.grantWithdraw res d code) s = .next s := congrArg Host.Outcome.next (if_pos h)

theorem grantWithdraw_counted (hres : res < 4) (hg : (mget {} (mget {} s.arbs (arbKey res d.val)).cnts code).grants ≠ 0) :
    let a := mget {} s.arbs (arbKey res d.val)
    let x := mget {} a.cnts code
    ∃ n, exec (.grantWithdraw res d code) s = .next n ∧ Only [.sat, .arbs, .host, .logs] s n ∧
      n.arbs = mset {} s.arbs (arbKey res d.val) { a with cnts := mset {} a.cnts code { x with grants := x.grants - 1, withdrawn := min (2 ^ 32 - 1) (x.withdrawn + 1) } } := by
  intro a x
  have hx : exec (.grantWithdraw res d code) s = .next (setArb res d.val { a with cnts := mset {} a.cnts code { x with
      grants := x.grants - 1, withdrawn := min (2 ^ 32 - 1) (x.withdrawn + 1) } } s) :=
    congrArg Host.Outcome.next (if_neg (not_or.2 ⟨Nat.not_le.2 hres, hg⟩))
  exact ⟨_, hx, (setArb_kept _ _ _ (Kept.rfl' s) (List.Subset.refl _)).only, setArb_arbs _ _ _ _⟩

end

/-- Settles O56: slices due, switches out and in, long commands, grants and grants withdrawn. -/
theorem rotationAndArbiters : Obligations.RotationAndArbiters := by
  unfold Obligations.RotationAndArbiters
  intro s
  refine ⟨⟨exec_sliceDue_waiting, exec_sliceDue_rotating, exec_sliceDue_first⟩, ⟨exec_switchOut_idle, fun h => ?_⟩, ?_,
    fun e => ⟨exec_longCommand_idle, longCommand_spec⟩, fun res d reqs => ⟨exec_arbiterGrant_none, fun h => ?_⟩,
    fun res d code => ⟨exec_grantWithdraw_none, grantWithdraw_counted⟩⟩
  · obtain ⟨n, hx, hbetween, hdue, hslice, honly, hclients⟩ := switchOut_spec h
    refine ⟨n, hx, hbetween, hdue, hslice, honly, fun k => ?_⟩
    intro c goes stops
    have hgoes : goes = fun j => j ∈ goers s := funext fun j => propext (mem_goers s j).symm
    rw [hgoes]
    exact hclients k
  · generalize hn : nextSlice s = x
    obtain ⟨i, t, origin, start⟩ := x
    exact ⟨exec_switchIn_idle hn, switchIn_spec hn⟩
  · refine ⟨_, exec_arbiterGrant_cycle h, (setArb_kept _ _ _ (Kept.rfl' s) (List.Subset.refl _)).only, fun k => setArb_other _ _ _ _, ?_⟩
    rw [setArb_self]
    exact ⟨fun hr => hr ▸ arbCycle_nil _ _ _, arbCycle_one s _⟩

end Sys2Proof.Machine
end

section
/-! The stages of the start at work: Sketch, boot images, Proof, Edition, firmware updates, saved entries (R391 to R393, R395 to R397, R401, R402, R432). -/

namespace Sys2Proof.Machine

section

variable {s : State}

/-! ### Sketch (R391) -/

theorem exec_sketchEntry_idle {m : SketchIn} (h : s.start.good = false ∨ s.start.sketched = true) : exec (.sketchEntry m) s = .next s :=
  congrArg Host.Outcome.next (if_pos (by rwa [Bool.not_eq_true]))

theorem exec_sketchEntry_works {m : SketchIn} (hg : s.start.good = true) (hs : s.start.sketched = false) :
    exec (.sketchEntry m) s = .next (sketchWork m s) :=
  congrArg Host.Outcome.next (if_neg (by simp [hg, hs]))

/-! ### Boot images (R396, R397) -/

/-- Whether a boot image is looked for: Sketch's work is done, and no firmware runs (R396). -/
def bootReady (s : State) : Prop := s.start.sketched = true ∧ s.start.firmware = false ∧ stageOf s = 1

theorem not_bootReady_iff : (¬ s.start.sketched = true ∨ s.start.firmware = true ∨ stageOf s ≠ 1) ↔ ¬ bootReady s := by
  unfold bootReady
  rw [not_and_or, not_and_or, Bool.not_eq_false]

theorem exec_bootVerify_idle (h : ¬ bootReady s) : exec .bootVerify s = .next s := congrArg Host.Outcome.next (if_pos (not_bootReady_iff.2 h))

/-- The preferred slot's image where it is good, else the other slot's, else Sketch recovery (R396, R397). -/
theorem exec_bootVerify_ready (h : bootReady s) :
    let k := (getDict s (dkey 0x2000 0x0C)).toNat % 2
    exec .bootVerify s = .next (if imageGood s (slotImage s k) = true then bootSlot k false s
      else if imageGood s (slotImage s (1 - k)) = true then bootSlot (1 - k) true s else stageFault 1 (enterStage 0x81 s)) :=
  congrArg Host.Outcome.next (if_neg (fun hh => not_bootReady_iff.1 hh h))

theorem bootVerify_preferred (h : bootReady s) : let k := (getDict s (dkey 0x2000 0x0C)).toNat % 2
    imageGood s (slotImage s k) = true → ∃ n, exec .bootVerify s = .next n ∧ Booted k s n := by
  intro k hk
  rw [exec_bootVerify_ready h, if_pos hk]
  exact ⟨_, rfl, bootSlot_booted _ _⟩

theorem bootVerify_other (h : bootReady s) : let k := (getDict s (dkey 0x2000 0x0C)).toNat % 2
    imageGood s (slotImage s k) = false → imageGood s (slotImage s (1 - k)) = true →
      ∃ y z, exec .bootVerify s = .next (post 0x0802 16 (1 - k) z) ∧ Booted (1 - k) s y ∧ Only [.dict, .sat, .host, .logs] y z ∧
        getDict z (dkey 0x2000 0x0E) = countUp 32 (getDict s (dkey 0x2000 0x0E)) 1 := by
  intro k hk ho
  obtain ⟨y, z, hpost, hz⟩ := bootSlot_other (1 - k) s
  refine ⟨y, z, ?_, hz⟩
  rw [exec_bootVerify_ready h, if_neg (Bool.not_eq_true _ ▸ hk), if_pos ho, hpost]

theorem bootVerify_recovery (h : bootReady s) : let k := (getDict s (dkey 0x2000 0x0C)).toNat % 2
    imageGood s (slotImage s k) = false → imageGood s (slotImage s (1 - k)) = false →
      ∃ y n, exec .bootVerify s = .next n ∧ StageEntered 0x81 s y ∧ StageFaulted 1 y n := by
  intro k hk ho
  rw [exec_bootVerify_ready h, if_neg (Bool.not_eq_true _ ▸ hk), if_neg (Bool.not_eq_true _ ▸ ho)]
  exact ⟨_, _, rfl, enterStage_entered _ _, stageFault_faulted _ _⟩

/-! ### Proof and Edition (R392 to R396) -/

/-- Whether Proof can be entered: verified firmware, and no fuse that reads back inconsistently (R392). -/
def proofReady (s : State) : Prop := s.start.firmware = true ∧ stageOf s = 1 ∧ getDict s (dkey 0x2000 0x02) ≠ 5

theorem not_proofReady_iff : (¬ s.start.firmware = true ∨ stageOf s ≠ 1 ∨ getDict s (dkey 0x2000 0x02) = 5) ↔ ¬ proofReady s := by
  unfold proofReady
  rw [not_and_or, not_and_or, not_not]

theorem exec_proofEntry_idle (h : ¬ proofReady s) : exec .proofEntry s = .next s := congrArg Host.Outcome.next (if_pos (not_proofReady_iff.2 h))

theorem exec_proofEntry_ready (h : proofReady s) :
    exec .proofEntry s = .next (enterStage 2 (setDict (dkey 0x2100 0x10) 800 { s with start := { s.start with tcut := 800 } })) :=
  congrArg Host.Outcome.next (if_neg (fun hh => not_proofReady_iff.1 hh h))

/-- Whether Edition can be entered: every task met, no RUN_STEPS under way (R393). -/
def editionReady (s : State) : Prop := stageOf s = 2 ∧ TasksMet s ∧ ∀ x ∈ s.clients, x.2.run = none

theorem not_editionReady_iff : (¬ inProof s = true ∨ ¬ tasksMet s = true ∨ s.clients.any (fun x => x.2.run.isSome) = true) ↔ ¬ editionReady s := by
  have hrun : s.clients.any (fun x => x.2.run.isSome) = true ↔ ¬ ∀ x ∈ s.clients, x.2.run = none := by
    rw [List.any_eq_true]
    simp only [not_forall, exists_prop, Option.isSome_iff_ne_none, ne_eq]
  unfold editionReady inProof
  rw [hrun, tasksMet_iff, decide_eq_true_iff, not_and_or, not_and_or]

theorem exec_editionEntry_idle (h : ¬ editionReady s) : exec .editionEntry s = .next s := congrArg Host.Outcome.next (if_pos (not_editionReady_iff.2 h))

theorem exec_editionEntry_ready (h : editionReady s) :
    exec .editionEntry s = .next (enterStage 3 (setDict (dkey 0x2000 0x0D)
      (BitVec.ofNat 64 (max s.start.svn (getDict s (dkey 0x2000 0x0D)).toNat)) { s with start := { s.start with selftest := false } })) :=
  congrArg Host.Outcome.next (if_neg (fun hh => not_editionReady_iff.1 hh h))

/-- An entry and a start record stored together: every other entry reads as before. -/
theorem setDict_withStart (k : Nat) (v : Word) (x : StartSt) (s : State) :
    let y := setDict k v { s with start := x }
    y.start = x ∧ getDict y k = v ∧ (∀ j, j ≠ k → getDict y j = getDict s j) ∧ Only [.dict, .start] s y := by
  refine ⟨rfl, ?_, fun j hj => ?_, ((only_start x s).mono (by decide)).step (setDict_only _ _ _) (by decide)⟩
  · rw [getDict_setDict, if_pos rfl]
  · rw [getDict_setDict, if_neg hj]
    rfl

theorem proofEntry_enters (h : proofReady s) : ∃ y n, exec .proofEntry s = .next n ∧ y.start = { s.start with tcut := 800 } ∧
    getDict y (dkey 0x2100 0x10) = 800 ∧ (∀ j, j ≠ dkey 0x2100 0x10 → getDict y j = getDict s j) ∧ Only [.dict, .start] s y ∧ StageEntered 2 y n := by
  obtain ⟨hstart, hkey, hother, honly⟩ := setDict_withStart (dkey 0x2100 0x10) 800 { s.start with tcut := 800 } s
  exact ⟨_, _, exec_proofEntry_ready h, hstart, hkey, hother, honly, enterStage_entered _ _⟩

theorem editionEntry_enters (h : editionReady s) : ∃ y n, exec .editionEntry s = .next n ∧ y.start = { s.start with selftest := false } ∧
    getDict y (dkey 0x2000 0x0D) = BitVec.ofNat 64 (max s.start.svn (getDict s (dkey 0x2000 0x0D)).toNat) ∧
    (∀ j, j ≠ dkey 0x2000 0x0D → getDict y j = getDict s j) ∧ Only [.dict, .start] s y ∧ StageEntered 3 y n := by
  obtain ⟨hstart, hkey, hother, honly⟩ := setDict_withStart (dkey 0x2000 0x0D)
    (BitVec.ofNat 64 (max s.start.svn (getDict s (dkey 0x2000 0x0D)).toNat)) { s.start with selftest := false } s
  exact ⟨_, _, exec_editionEntry_ready h, hstart, hkey, hother, honly, enterStage_entered _ _⟩

theorem exec_stageTimeout_idle (h : s.start.good = false ∨ stageOf s = 3) : exec .stageTimeout s = .next s :=
  congrArg Host.Outcome.next (if_pos (by rwa [Bool.not_eq_true]))

theorem exec_stageTimeout_faults (hg : s.start.good = true) (hs : stageOf s ≠ 3) : exec .stageTimeout s = .next (stageFault 4 s) :=
  congrArg Host.Outcome.next (if_neg (not_or.2 ⟨not_not_intro hg, hs⟩))

/-! ### Firmware updates and saved entries (R402, R420) -/

/-- The slot that does not run. -/
def otherSlot (s : State) : Nat := 1 - (getDict s (dkey 0x2000 0x0B)).toNat % 2

/-- The state with a slot preferred, and that preference alone saved (R402). -/
def slotPreferred (slot : Nat) (s : State) : State :=
  setDict (dkey 0x2000 0x0C) (BitVec.ofNat 64 slot) { s with start := { s.start with
    saved := mset (dictDefault (dkey 0x2000 0x0C)) s.start.saved (dkey 0x2000 0x0C) (BitVec.ofNat 64 slot) } }

theorem exec_fwUpdCommit_bad (h : imageGood s (slotImage s (otherSlot s)) = false) : exec .fwUpdCommit s = .next s :=
  congrArg (fun r : Nat × State => Host.Outcome.next r.2) (if_neg (Bool.not_eq_true _ ▸ h))

theorem exec_fwUpdCommit_good (h : imageGood s (slotImage s (otherSlot s)) = true) : exec .fwUpdCommit s = .next (slotPreferred (otherSlot s) s) :=
  congrArg (fun r : Nat × State => Host.Outcome.next r.2) (if_pos h)

theorem slotPreferred_spec (slot : Nat) (s : State) :
    let n := slotPreferred slot s
    let k := dkey 0x2000 0x0C
    n.start = { s.start with saved := n.start.saved } ∧
    (∀ j, j ≠ k → getDict n j = getDict s j ∧ mget (dictDefault j) n.start.saved j = mget (dictDefault j) s.start.saved j) ∧
    getDict n k = BitVec.ofNat 64 slot ∧ mget (dictDefault k) n.start.saved k = BitVec.ofNat 64 slot ∧ Only [.dict, .start] s n := by
  intro n k
  obtain ⟨hstart, hkey, hother, honly⟩ := setDict_withStart k (BitVec.ofNat 64 slot)
    { s.start with saved := mset (dictDefault k) s.start.saved k (BitVec.ofNat 64 slot) } s
  change n.start = _ at hstart
  have hsaved : n.start.saved = mset (dictDefault k) s.start.saved k (BitVec.ofNat 64 slot) := by rw [hstart]
  refine ⟨by rw [hstart], fun j hj => ⟨hother j hj, ?_⟩, hkey, ?_, honly⟩
  · rw [hsaved, mget_mset_ne _ _ _ _ hj]
  · rw [hsaved, mget_mset_same]

theorem cfgSave_spec (s : State) : ∃ n, exec .cfgSave s = .next n ∧ n.start = { s.start with saved := n.start.saved } ∧ Only [.start] s n ∧
    ∀ k, mget (dictDefault k) n.start.saved k = if k ∈ savedEntries then getDict s k else mget (dictDefault k) s.start.saved k :=
  ⟨_, rfl, rfl, only_start _ s, fun k => saves_spec s k savedEntries s.start.saved⟩

end

/-- Settles O57: stage by stage, then the updates and the saved entries. -/
theorem startStages : Obligations.StartStages := by
  unfold Obligations.StartStages
  intro s
  refine ⟨fun m => ⟨exec_sketchEntry_idle, fun hg hs => ?_⟩,
    ⟨exec_bootVerify_idle, bootVerify_preferred, bootVerify_other, bootVerify_recovery⟩,
    ⟨exec_proofEntry_idle, proofEntry_enters⟩, ⟨exec_editionEntry_idle, editionEntry_enters⟩,
    ⟨exec_stageTimeout_idle, fun hg hs => ⟨_, exec_stageTimeout_faults hg hs, stageFault_faulted _ _⟩⟩,
    fun data => fwData_spec data s,
    ⟨exec_fwUpdCommit_bad, fun h => ⟨_, exec_fwUpdCommit_good h, slotPreferred_spec _ _⟩⟩, cfgSave_spec s⟩
  have hx := exec_sketchEntry_works (m := m) hg hs
  have honly := (execSketchEntry_kept m (Kept.rfl' s) hx (List.Subset.refl _)).only
  obtain ⟨hsketched, hreset, htrip, hstage, htime, hfuse, hcat, howner, hcells, hsynd, hoverride, hstrap, hid, hnode, hspeed, hwidth⟩ := sketchWork_spec m s
  exact ⟨_, hx, hsketched, hreset, htrip, hstage, htime, hfuse, hcat, howner, hcells, hsynd, hoverride, hstrap, hid, hnode, hspeed, hwidth, honly⟩

end Sys2Proof.Machine
end

section
/-! JTAG: the boundary register, the pins, the instructions' registers (R451, R452). -/

namespace Sys2Proof.Machine

section

variable {d : DieId} {bits : List Bool} {s : State} {i : Instr} {x : Jtag}

theorem getJtag_setJtag (d e : DieId) (x : Jtag) (s : State) : getJtag (setJtag d x s) e = if e = d then x else getJtag s e :=
  (mget_mset _ _ _ _ _).trans (if_congr Fin.val_inj rfl rfl)

/-- A row that stores a die's port: no other port and no other state changes. -/
theorem jtag_stored (hi : exec i s = .next (setJtag d x s)) : ∃ t, exec i s = .next t ∧
    (t = { s with start := { s.start with jtag := t.start.jtag } } ∧ ∀ e : DieId, e ≠ d → getJtag t e = getJtag s e) ∧ getJtag t d = x :=
  ⟨_, hi, ⟨rfl, fun e he => by rw [getJtag_setJtag, if_neg he]⟩, by rw [getJtag_setJtag, if_pos rfl]⟩

/-- In Sketch an instruction that takes the pins drives them (R452). -/
theorem takePins_sketch (h : stageOf s = 1) : takePins d x s = setJtag d { x with driving := true } s := if_pos h

/-- In any other stage it acts as BYPASS (R452). -/
theorem next_takePins_bypass (h : stageOf s ≠ 1) : .next (takePins d x s) = exec (.bypass d) s := congrArg Host.Outcome.next (if_neg h)

/-- The cells that bits were shifted into hold them, the others hold 0 (R451). -/
theorem cellsOf_getElem? {i : Nat} (h : i < 1152) : (cellsOf bits)[i]? = some (bits.getD i false) := by
  unfold cellsOf
  rw [List.getElem?_map, show (List.range boundaryCells)[i]? = some i from List.getElem?_range h]
  rfl

end

/-- Settles O30: each row stores its die's port; those that take the pins do so in Sketch alone. -/
theorem jtagCommands : Obligations.JtagCommands := by
  unfold Obligations.JtagCommands
  intro d bits s frame filled kept
  have filled_of {t : State} (ht : (getJtag t d).cells = cellsOf bits) : filled t := fun i hi => by
    rw [ht, cellsOf_getElem? hi]
  refine ⟨fun h => ⟨?_, ?_, ?_⟩, fun h => ?_, ?_, ?_, ?_, ?_⟩
  · obtain ⟨t, hx, hf, ht⟩ := jtag_stored (i := .extest d bits) (congrArg Host.Outcome.next (takePins_sketch h))
    exact ⟨t, hx, hf, filled_of (by rw [ht]), congrArg Jtag.ir ht, congrArg Jtag.driving ht, congrArg Jtag.float ht⟩
  · obtain ⟨t, hx, hf, ht⟩ := jtag_stored (i := .clamp d) (congrArg Host.Outcome.next (takePins_sketch h))
    exact ⟨t, hx, hf, (congrArg Jtag.cells ht :), congrArg Jtag.ir ht, congrArg Jtag.driving ht, congrArg Jtag.float ht⟩
  · obtain ⟨t, hx, hf, ht⟩ := jtag_stored (i := .highz d) (congrArg Host.Outcome.next (takePins_sketch h))
    exact ⟨t, hx, hf, (congrArg Jtag.cells ht :), congrArg Jtag.ir ht, congrArg Jtag.driving ht, congrArg Jtag.float ht⟩
  · exact ⟨_, rfl, next_takePins_bypass h, next_takePins_bypass h, next_takePins_bypass h⟩
  · obtain ⟨t, hx, hf, ht⟩ := jtag_stored (s := s) (i := .samplePreload d bits) rfl
    exact ⟨t, hx, hf, filled_of (by rw [ht]), congrArg Jtag.ir ht, (congrArg Jtag.driving ht :)⟩
  · obtain ⟨t, hx, hf, ht⟩ := jtag_stored (s := s) (i := .bypass d) rfl
    exact ⟨t, hx, hf, (congrArg Jtag.cells ht :), congrArg Jtag.ir ht, congrArg jtagDr ht⟩
  · obtain ⟨t, hx, hf, ht⟩ := jtag_stored (s := s) (i := .idcode d) rfl
    exact ⟨t, hx, hf, (congrArg Jtag.cells ht :), congrArg jtagDr ht⟩
  · obtain ⟨t, hx, hf, ht⟩ := jtag_stored (s := s) (i := .tapReset d) rfl
    exact ⟨t, hx, hf, (congrArg Jtag.cells ht :), congrArg Jtag.ir ht, congrArg Jtag.driving ht, congrArg Jtag.float ht⟩

end Sys2Proof.Machine
end

section
/-! CAN and the mailbox at work: requests, transfers, events, heartbeats, identity, errors; GO and its timeout (R407 to R418). -/

namespace Sys2Proof.Machine

section

variable {s : State} {f : CanFrame} {run : State → State} {cmd tag : Nat}

/-! ### Requests (R408 to R413) -/

/-- Each request's row serves frames of its own command (R409). -/
theorem exec_canRow {c : Nat} {i : Instr} (h : (c, i) ∈ [(1, Instr.canRead f), (2, .canWrite f), (3, .canWriteInit f), (6, .canSegment f),
    (7, .canBlockAck f), (9, .canInfo f), (0xF, .canAbort f)]) : ∃ run, exec i s = .next (onRequest c f run s) := by
  simp only [List.mem_cons, Prod.mk.injEq, List.not_mem_nil, or_false] at h
  obtain ⟨rfl, rfl⟩ | ⟨rfl, rfl⟩ | ⟨rfl, rfl⟩ | ⟨rfl, rfl⟩ | ⟨rfl, rfl⟩ | ⟨rfl, rfl⟩ | ⟨rfl, rfl⟩ := h
  all_goals exact ⟨_, rfl⟩

/-- Whether a frame is a request to this node (R408). -/
def ToNode (s : State) (f : CanFrame) : Prop := canOn s = true ∧ f.id = 0xC * 128 + nodeId s ∧ 8 ≤ f.data.length

/-- Whether a request is malformed (R407, R409). -/
def Malformed (f : CanFrame) : Prop := f.cmd ∉ [1, 2, 3, 6, 7, 9, 0xF] ∨ f.data.length ∉ [8, 12, 16, 20, 24, 32, 48, 64]

theorem onRequest_ignored (h : ¬ ToNode s f ∨ (¬ Malformed f ∧ f.cmd ≠ cmd)) : onRequest cmd f run s = s := by
  refine onRequest_other cmd f run s (h.imp (fun hr => ?_) fun hb => ⟨?_, hb.2⟩)
  · rw [← Bool.not_eq_true]
    exact mt (isRequest_iff f s).1 hr
  · rw [← Bool.not_eq_true]
    exact mt (badRequest_iff f).1 hb.1

theorem onRequest_malformed (hr : ToNode s f) (hb : Malformed f) : onRequest cmd f run s = abortTrans f.tag 0xA (goodReceive s) :=
  onRequest_bad cmd f run s ((isRequest_iff f s).2 hr) ((badRequest_iff f).2 hb)

theorem onRequest_served (hr : ToNode s f) (hb : ¬ Malformed f) (hc : f.cmd = cmd) : onRequest cmd f run s = run (goodReceive s) := by
  refine onRequest_run f run s ((isRequest_iff f s).2 hr) ?_ hc
  rw [← Bool.not_eq_true]
  exact mt (badRequest_iff f).1 hb

/-- A row that serves a request by r, run on the state that has heard the frame. -/
theorem request_served {i : Instr} {r : State → State → Prop} (hi : exec i s = .next (onRequest cmd f run s)) (hr : ToNode s f)
    (hb : ¬ Malformed f) (hrun : ∀ m, r m (run m)) (hc : f.cmd = cmd) : ∃ n, exec i s = .next n ∧ r (goodReceive s) n :=
  ⟨_, hi.trans (congrArg _ (onRequest_served hr hb hc)), hrun _⟩

/-- The effect of a whole write that a frame brings (R410). -/
theorem canWrite_applied (f : CanFrame) (m : State) :
    let fits := 1 ≤ f.len ∧ f.len ≤ 56 ∧ f.len ≤ f.body.length
    let n := if f.len = 0 ∨ 56 < f.len ∨ f.body.length < f.len then abortTrans f.tag 0xA m
      else applyWrite f.tag f.index f.sub (f.body.take f.len) m
    (¬ fits → CanAborted f.tag 0xA m n) ∧ (fits → Applied f.tag f.index f.sub (f.body.take f.len) m n) := by
  intro fits n
  have hfits : (f.len = 0 ∨ 56 < f.len ∨ f.body.length < f.len) ↔ ¬ fits := by omega
  refine ⟨fun h => ?_, fun h => ?_⟩
  · rw [show n = _ from if_pos (hfits.2 h)]
    exact abortTrans_aborted _ _ _
  · rw [show n = _ from if_neg (fun hh => hfits.1 hh h)]
    exact applyWrite_applied _ _ _ _ _

/-- The effect of a frame that opens a long write (R411). -/
theorem canWriteInit_opened (f : CanFrame) (m : State) :
    let size := leNat (f.body.take 4)
    let fits := 4 ≤ f.body.length ∧ 57 ≤ size ∧ size ≤ 65536
    let x : CanTx := { tag := f.tag, ix := f.index, sub := f.sub, write := true, data := [], size := size }
    let n := if f.body.length < 4 ∨ size < 57 ∨ 65536 < size then abortTrans f.tag 0xA m else respond (segHead 7 f.tag 0 0 16) (openTrans x m)
    (¬ fits → CanAborted f.tag 0xA m n) ∧
      (fits → FrameSent 0xB (nodeId m) (segHead 7 f.tag 0 0 16) { m with can := { m.can with txs := m.can.txs ++ [x] } } n) := by
  intro size fits x n
  have hfits : (f.body.length < 4 ∨ size < 57 ∨ 65536 < size) ↔ ¬ fits := by omega
  refine ⟨fun h => ?_, fun h => ?_⟩
  · rw [show n = _ from if_pos (hfits.2 h)]
    exact abortTrans_aborted _ _ _
  · rw [show n = _ from if_neg (fun hh => hfits.1 hh h)]
    exact sendFrame_sent _ _ _ _

/-- What a segment does: nothing without its transaction, an abort in a read, else it is taken (R411). -/
def segmentRun (f : CanFrame) (g : State) : State :=
  match findTrans g f.tag with
  | none => g
  | some x => if x.write then takeSegment x f g else abortTrans f.tag 0xA g

/-- From g to n a segment has been served (R411). -/
def SegmentServed (f : CanFrame) (g n : State) : Prop :=
  (findTrans g f.tag = none → n = g) ∧ ∀ x, findTrans g f.tag = some x →
    (x.write = false → CanAborted f.tag 0xA g n) ∧ (x.write = true → SegmentTaken x f g n)

theorem segmentRun_served (f : CanFrame) (g : State) : SegmentServed f g (segmentRun f g) := by
  unfold segmentRun SegmentServed
  refine ⟨fun h => by rw [h], fun x h => ?_⟩
  rw [h]
  refine ⟨fun hw => ?_, fun hw => ?_⟩
  · dsimp only
    rw [if_neg (by rw [hw]; decide)]
    exact abortTrans_aborted _ _ _
  · dsimp only
    rw [if_pos hw]
    exact takeSegment_taken _ _ _

/-- What a block's acknowledgement does: nothing without its transaction, else it is served (R411). -/
def blockAckRun (f : CanFrame) (g : State) : State :=
  match findTrans g f.tag with
  | none => g
  | some x =>
    let place := min x.size (x.done + 56 * f.seq)
    if x.write ∨ x.seg < f.seq then abortTrans f.tag 0xA g
    else if place = x.size then endTrans f.tag g
    else if f.segLen = 0 ∨ 16 < f.segLen then abortTrans f.tag 0xA g
    else sendBlock { x with done := place, block := f.segLen } g

/-- From g to n an acknowledgement has been served, where its transaction is open (R411). -/
def AckServed (f : CanFrame) (g n : State) : Prop :=
  (findTrans g f.tag = none → n = g) ∧ ∀ x, findTrans g f.tag = some x → BlockServed x f g n

theorem blockAckRun_served (f : CanFrame) (g : State) : AckServed f g (blockAckRun f g) := by
  unfold blockAckRun AckServed
  refine ⟨fun h => by rw [h], fun x h => ?_⟩
  rw [h]
  exact blockAck_served x f g

/-! ### Timeouts (R411, R412) -/

theorem exec_canTimeout_idle (h : canOn s = false ∨ findTrans s tag = none) : exec (.canTimeout tag) s = .next s := by
  refine congrArg Host.Outcome.next (if_neg ?_)
  rintro ⟨hon, hx⟩
  rcases h with h | h
  · exact absurd (h.symm.trans hon) (by decide)
  · exact absurd (h ▸ hx) (by decide)

theorem exec_canTimeout_ends {x : CanTx} (hon : canOn s = true) (h : findTrans s tag = some x) :
    exec (.canTimeout tag) s = .next (abortTrans tag 9 s) :=
  congrArg Host.Outcome.next (if_pos ⟨hon, by rw [h]; rfl⟩)

theorem exec_canSegmentGapTimer_none (h : findTrans s tag = none) : exec (.canSegmentGapTimer tag) s = .next s := by
  change execCanSegmentGapTimer tag s = _
  unfold execCanSegmentGapTimer
  rw [h]

theorem exec_canSegmentGapTimer_some {x : CanTx} (h : findTrans s tag = some x) :
    exec (.canSegmentGapTimer tag) s = .next (if canOn s = true ∧ x.write = true then ackBlock x s else s) := by
  change execCanSegmentGapTimer tag s = _
  unfold execCanSegmentGapTimer
  rw [h]

theorem exec_canSegmentGapTimer_idle (h : canOn s = false ∨ findTrans s tag = none) : exec (.canSegmentGapTimer tag) s = .next s := by
  cases hx : findTrans s tag with
  | none => exact exec_canSegmentGapTimer_none hx
  | some x =>
    have hoff : canOn s = false := h.resolve_right (by rw [hx]; exact Option.some_ne_none x)
    rw [exec_canSegmentGapTimer_some hx, if_neg (by rw [hoff]; simp)]

/-! ### Events and heartbeats (R414, R415) -/

theorem FrameSent.getDict {code node k : Nat} {bs : List Byte} {s n : State} (h : FrameSent code node bs s n) (hk : k ≠ dkey 0x1100 0x04) :
    getDict n k = getDict s k := by
  obtain ⟨hoff, hon⟩ := h
  cases hs : s.start.sketched with
  | false => rw [hoff hs]
  | true =>
    obtain ⟨-, ⟨-, hother⟩, -⟩ := hon hs
    exact hother k hk

theorem mirrorEvent_getDict (e : Event) (s : State) {k : Nat} (hk : k ≠ dkey 0x1100 0x04) : getDict (mirrorEvent e s) k = getDict s k := by
  obtain ⟨v, w, p, x, hx, hsent⟩ := mirrorEvent_sent e s
  rw [hsent.getDict hk, getDict_congr (hx.dict (by decide))]

/-- The events that are severe enough for the bus, of those that wait (R414). -/
def mirrored (s : State) : List Event :=
  s.logs.canWait.filter fun e => decide (dictNat s 0x1100 0x06 ≠ 0xFF) && decide (dictNat s 0x1100 0x06 ≤ e.sev)

/-- Event frames sent in the second in progress. -/
def mirrorUsed (s : State) : Nat := if s.can.second = s.tick / 1000000 then s.can.rate else 0

/-- The events that the rate allows. -/
def mirrorCount (s : State) : Nat := min (mirrored s).length (dictNat s 0x1100 0x07 - mirrorUsed s)

/-- The state with the waiting events taken, and those that the rate allows counted. -/
def mirrorBegun (s : State) : State :=
  { s with logs := { s.logs with canWait := [] }, can := { s.can with second := s.tick / 1000000, rate := mirrorUsed s + mirrorCount s } }

/-- The state with the newest of the events sent, as many as the rate allows. -/
def mirrorSent (s : State) : State :=
  ((mirrored s).drop ((mirrored s).length - mirrorCount s)).foldl (fun s e => mirrorEvent e s) (mirrorBegun s)

theorem exec_canEventMirror_off (h : canOn s = false) : exec .canEventMirror s = .next s :=
  congrArg Host.Outcome.next (if_pos (by rw [h]; decide))

theorem exec_canEventMirror_on (h : canOn s = true) :
    exec .canEventMirror s = .next (bumpDict (dkey 0x1100 0x0B) ((mirrored s).length - mirrorCount s) (mirrorSent s)) :=
  congrArg Host.Outcome.next (if_neg (not_not_intro h))

theorem mirrorSent_chain (s : State) :
    Chain (fun (e : Event) s n => ∃ (v w : Word) (p : Bool) (x : State), Only [.free] s x ∧
      FrameSent 1 (nodeId s) (leBytes 8 0x10 ++ bytesOf (recordWords e p v w)) x n)
      ((mirrored s).drop ((mirrored s).length - mirrorCount s)) (mirrorBegun s) (mirrorSent s) :=
  chain_foldl (fun s e => mirrorEvent_sent e s) _ _

theorem mirrorSent_getDict (s : State) {k : Nat} (hk : k ≠ dkey 0x1100 0x04) : getDict (mirrorSent s) k = getDict s k :=
  foldl_field (fun s => getDict s k) _ _ (mirrorBegun s) fun s e => mirrorEvent_getDict e s hk

/-- Whether a heartbeat is sent: the first always, the others where their period is set (R415). -/
def heartbeatDue (s : State) : Prop := canOn s = true ∧ (s.can.booted = false ∨ dictNat s 0x1100 0x05 ≠ 0)

theorem not_heartbeatDue_iff : (¬ canOn s = true ∨ (s.can.booted = true ∧ dictNat s 0x1100 0x05 = 0)) ↔ ¬ heartbeatDue s := by
  unfold heartbeatDue
  rw [not_and_or, not_or, Bool.not_eq_false, not_not]

theorem exec_heartbeat_idle (h : ¬ heartbeatDue s) : exec .heartbeat s = .next s := congrArg Host.Outcome.next (if_pos (not_heartbeatDue_iff.2 h))

theorem exec_heartbeat_due (h : heartbeatDue s) :
    let y := sendFrame 0xE (nodeId s) (leBytes 8 (heartbeatWord s)) s
    exec .heartbeat s = .next { y with can := { y.can with booted := true } } :=
  congrArg Host.Outcome.next (if_neg (fun hh => not_heartbeatDue_iff.1 hh h))

/-- The heartbeat's word, bit 40 being BOOT and bit 41 the fault flag (R415). -/
theorem heartbeatWord_eq (s : State) :
    heartbeatWord s = 0x11 + 2 ^ 8 * stageOf s + 2 ^ 16 * (dictNat s 0x2000 0x02 % 256) + 2 ^ 24 * bitsWhere 16 (fun c => decide ((getClient s c).state ≠ 0)) +
      2 ^ 40 * (if s.can.booted then 0 else 1) + 2 ^ 41 * (if dictNat s 0x2000 0x02 ≠ 0 ∨ 3 ≤ canState s then 1 else 0) := by
  have hboot : b2n (!s.can.booted) = if s.can.booted then 0 else 1 := by cases s.can.booted <;> rfl
  have hfault : b2n (decide (dictNat s 0x2000 0x02 ≠ 0) || decide (3 ≤ canState s)) = if dictNat s 0x2000 0x02 ≠ 0 ∨ 3 ≤ canState s then 1 else 0 :=
    if_congr (by rw [Bool.or_eq_true, decide_eq_true_iff, decide_eq_true_iff]) rfl rfl
  unfold heartbeatWord
  rw [hboot, hfault]

/-! ### Identity and errors (R407, R416) -/

/-- Whether a node still listens for its ID: Sketch's work is done, it takes no part yet, and no ID keeps it listening (R416). -/
def listens (s : State) : Prop := s.start.sketched = true ∧ s.can.ready = false ∧ pinsTaken s = false ∧ canState s ≠ 3

theorem not_listens_iff : (¬ s.start.sketched = true ∨ s.can.ready = true ∨ pinsTaken s = true ∨ canState s = 3) ↔ ¬ listens s := by
  unfold listens
  rw [not_and_or, not_and_or, not_and_or, Bool.not_eq_false, Bool.not_eq_false, not_not]

theorem exec_nodeIdListen_idle (h : ¬ listens s) (seen : Bool) : exec (.nodeIdListen seen) s = .next s :=
  congrArg Host.Outcome.next (if_pos (not_listens_iff.2 h))

theorem exec_nodeIdListen (h : listens s) (seen : Bool) :
    exec (.nodeIdListen seen) s = .next (if seen = true then setCanState 4 s else { s with can := { s.can with ready := true } }) :=
  congrArg Host.Outcome.next (if_neg (fun hh => not_listens_iff.1 hh h))

theorem exec_busOffRecovery_idle (h : canState s ≠ 2) : exec .busOffRecovery s = .next s := congrArg Host.Outcome.next (if_pos h)

theorem exec_busOffRecovery_off (h : canState s = 2) :
    exec .busOffRecovery s = .next (bumpDictW 32 (dkey 0x1100 0x09) 1 (setCanState 0 { s with can := { s.can with tec := 0, errs := 0 } })) :=
  congrArg Host.Outcome.next (if_neg (not_not_intro h))

/-- A recovery clears the counters and the state, and is counted (R407). -/
theorem busOffRecovery_recovers (h : canState s = 2) : ∃ n, exec .busOffRecovery s = .next n ∧ n.can = { s.can with tec := 0, errs := 0 } ∧ canState n = 0 ∧
    getDict n (dkey 0x1100 0x09) = countUp 32 (getDict s (dkey 0x1100 0x09)) 1 ∧
    (∀ k, k ≠ dkey 0x1100 0x04 → k ≠ dkey 0x1100 0x09 → getDict n k = getDict s k) ∧ Only [.dict, .sat, .host, .logs, .can] s n := by
  obtain ⟨hstate, hother, honly⟩ := setCanState_spec 0 (by decide) { s with can := { s.can with tec := 0, errs := 0 } }
  have hx := exec_busOffRecovery_off h
  generalize setCanState 0 _ = y at hstate hother honly hx
  have hdict (k : Nat) := bumpDictW_getDict 32 (dkey 0x1100 0x09) 1 k y
  have hcount := bumpDictW_only 32 (dkey 0x1100 0x09) 1 y
  refine ⟨_, hx, (hcount.can (by decide)).trans (honly.can (by decide)), ?_, ?_, fun k h4 h9 => ?_,
    ((only_can _ s).mono (by decide)).trans ((honly.mono (by decide)).trans (hcount.mono (by decide)))⟩
  · unfold canState dictNat
    rw [hdict, if_neg (by decide)]
    exact hstate
  · rw [hdict, if_pos rfl, hother _ (by decide)]
    rfl
  · rw [hdict, if_neg h9, hother k h4]
    rfl

theorem exec_canBusError_off (h : canOn s = false) (tx : Bool) (k : Nat) : exec (.canBusError tx k) s = .next s :=
  congrArg Host.Outcome.next (if_pos (by rw [h]; decide))

theorem exec_canBusError_on (h : canOn s = true) (tx : Bool) (k : Nat) : exec (.canBusError tx k) s =
    .next (errorState { s with can := if tx = true then { s.can with tec := s.can.tec + 8 * k } else { s.can with errs := s.can.errs + k } }) :=
  congrArg Host.Outcome.next (if_neg (not_not_intro h))

theorem canBusError_counts (h : canOn s = true) (tx : Bool) (k : Nat) : ∃ n, exec (.canBusError tx k) s = .next n ∧
    n.can = (if tx = true then { s.can with tec := s.can.tec + 8 * k } else { s.can with errs := s.can.errs + k }) ∧ Tallied s n ∧ Only [.dict, .can] s n := by
  obtain ⟨htally, hcan, honly⟩ := errorState_of s (if tx = true then { s.can with tec := s.can.tec + 8 * k } else { s.can with errs := s.can.errs + k })
  exact ⟨_, exec_canBusError_on h tx k, hcan, htally, honly⟩

/-! ### The mailbox (R417, R418) -/

/-- Whether a GO is served: the host can reach the mailbox, and no request is with another module (R418). -/
def mailServes (s : State) : Prop := s.start.sketched = true ∧ pinsTaken s = false ∧ s.mail.remote = false

theorem not_mailServes_iff : (¬ mbOpen s = true ∨ s.mail.remote = true) ↔ ¬ mailServes s := by
  unfold mailServes mbOpen
  rw [← and_assoc, not_and_or, Bool.and_eq_true, Bool.not_eq_true', Bool.not_eq_false]

theorem exec_mailboxGo_idle (h : ¬ mailServes s) : exec .mailboxGo s = .next s := congrArg Host.Outcome.next (if_pos (not_mailServes_iff.2 h))

/-- A GO that is served: here, or nowhere where no port is up, or forwarded (R418). -/
theorem exec_mailboxGo_serves (h : mailServes s) :
    let w := mbRequest s
    exec .mailboxGo s = .next (if ¬ bit w 61 = true ∨ fld w 49 12 = moduleId s % 4096 then mbServe w s
      else if ¬ (List.range 32).any (fun p => decide (portState s p = 2)) = true then mbDone 13 0 s else mbForward w s) :=
  congrArg Host.Outcome.next (if_neg (fun hh => not_mailServes_iff.1 hh h))

theorem exec_mailboxGo_here (h : mailServes s) (hh : bit (mbRequest s) 61 = false ∨ fld (mbRequest s) 49 12 = moduleId s % 4096) :
    exec .mailboxGo s = .next (mbServe (mbRequest s) s) := by
  rw [exec_mailboxGo_serves h, if_pos (by rwa [Bool.not_eq_true])]

theorem exec_mailboxGo_elsewhere (h : mailServes s) (hh : ¬ (bit (mbRequest s) 61 = false ∨ fld (mbRequest s) 49 12 = moduleId s % 4096)) :
    exec .mailboxGo s = .next (if ¬ (List.range 32).any (fun p => decide (portState s p = 2)) = true then mbDone 13 0 s else mbForward (mbRequest s) s) := by
  rw [exec_mailboxGo_serves h, if_neg (by rwa [Bool.not_eq_true])]

theorem anyPort_iff (s : State) : (List.range 32).any (fun p => decide (portState s p = 2)) = true ↔ ∃ p, p < 32 ∧ portState s p = 2 := by
  simp only [List.any_eq_true, List.mem_range, decide_eq_true_eq]

/-- What becomes of a request served here: INFO whatever DIR says, a read, or a write (R417, R418). -/
theorem mbServe_spec (w : Word) (s : State) :
    let ix := fld w 8 16
    let sub := fld w 24 8
    let len := fld w 32 17
    (bit w 1 = true → MailRead (dictInfo ix sub s) (mbServe w s)) ∧
    (bit w 1 = false → bit w 0 = false → MailRead (dictRead ix sub s) (mbServe w s)) ∧
    (bit w 1 = false → bit w 0 = true →
      (¬ (1 ≤ len ∧ len ≤ 65536) → MailEnded 6 0 s (mbServe w s)) ∧
      (1 ≤ len → len ≤ 65536 → let r := dictWrite .mailbox ix sub ((List.range len).map (mbByte s)) s; MailEnded r.1 0 r.2 (mbServe w s))) := by
  intro ix sub len
  have hn : mbServe w s = if bit w 1 = true then mbRead (dictInfo ix sub s) else if ¬ bit w 0 = true then mbRead (dictRead ix sub s)
    else if len = 0 ∨ 65536 < len then mbDone 6 0 s else
      mbDone (dictWrite .mailbox ix sub ((List.range len).map (mbByte s)) s).1 0 (dictWrite .mailbox ix sub ((List.range len).map (mbByte s)) s).2 := rfl
  rw [hn]
  refine ⟨fun h1 => ?_, fun h1 h0 => ?_, fun h1 h0 => ⟨fun hl => ?_, fun hl hl' => ?_⟩⟩
  · rw [if_pos h1]
    exact mbRead_read _
  · rw [if_neg (by rw [h1]; decide), if_pos (by rw [h0]; decide)]
    exact mbRead_read _
  · rw [if_neg (by rw [h1]; decide), if_neg (not_not_intro h0), if_pos (by omega)]
    exact mbDone_ended _ _ _
  · rw [if_neg (by rw [h1]; decide), if_neg (not_not_intro h0), if_neg (by omega)]
    exact mbDone_ended _ _ _

theorem exec_mailboxRemoteTimeout_idle (h : s.mail.remote = false) : exec .mailboxRemoteTimeout s = .next s :=
  congrArg Host.Outcome.next (if_pos (by rw [h]; decide))

theorem exec_mailboxRemoteTimeout_ends (h : s.mail.remote = true) :
    exec .mailboxRemoteTimeout s = .next (mbDone 9 0 { s with mail := { s.mail with remote := false } }) :=
  congrArg Host.Outcome.next (if_neg (not_not_intro h))

end

/-- Settles O59: requests by their commands, timeouts, events, heartbeats, identity, recovery, errors, the mailbox. -/
theorem canAndMailbox : Obligations.CanAndMailbox := by
  unfold Obligations.CanAndMailbox
  intro s
  obtain ⟨hinfo, hread, hwrite⟩ := mbServe_spec (mbRequest s) s
  refine ⟨fun f => ⟨fun x hx => ?_, fun hr hb => ?_⟩, fun tag => ⟨exec_canTimeout_idle, fun x hon hx => ⟨_, exec_canTimeout_ends hon hx, abortTrans_aborted _ _ _⟩,
      exec_canSegmentGapTimer_idle, fun x hx hw => ?_, fun x hon hx hw => ?_⟩,
    ⟨exec_canEventMirror_off, fun hon => ?_⟩, ⟨exec_heartbeat_idle, fun hdue => ?_⟩,
    ⟨exec_nodeIdListen_idle, fun hdue => ⟨?_, exec_nodeIdListen hdue false⟩⟩, ⟨exec_busOffRecovery_idle, busOffRecovery_recovers⟩,
    fun k => ⟨fun hoff tx => exec_canBusError_off hoff tx k, fun hon => ⟨canBusError_counts hon true k, canBusError_counts hon false k⟩⟩,
    ⟨exec_mailboxGo_idle, fun hs hh h1 => ?_, fun hs hh h1 h0 => ?_, fun hs hh h1 h0 => ?_, fun hs hh hp => ?_, fun hs hh hp => ?_⟩,
    exec_mailboxRemoteTimeout_idle, fun h => ⟨_, exec_mailboxRemoteTimeout_ends h, mbDone_ended _ _ _⟩⟩
  · obtain ⟨run, hrun⟩ := exec_canRow (s := s) hx
    exact ⟨fun h => hrun.trans (congrArg _ (onRequest_ignored h)),
      fun hr hb => ⟨_, _, hrun.trans (congrArg _ (onRequest_malformed hr hb)), goodReceive_heard s, abortTrans_aborted _ _ _⟩⟩
  · refine ⟨goodReceive s, goodReceive_heard s, ?_, ?_, ?_, ?_, ?_, ?_, ?_⟩
    · exact request_served (i := .canRead f) rfl hr hb fun m => opening_opened _ _ _ (fun m => returnValue_returned f _) m
    · exact request_served (i := .canInfo f) rfl hr hb fun m => opening_opened _ _ _ (fun m => returnValue_returned f _) m
    · exact request_served (i := .canWrite f) rfl hr hb fun m => opening_opened _ _ _ (canWrite_applied f) m
    · exact request_served (i := .canWriteInit f) rfl hr hb fun m => opening_opened _ _ _ (canWriteInit_opened f) m
    · exact request_served (i := .canSegment f) rfl hr hb (segmentRun_served f)
    · exact request_served (i := .canBlockAck f) rfl hr hb (blockAckRun_served f)
    · exact request_served (i := .canAbort f) rfl hr hb fun m => countAbort_counted _
  · rw [exec_canSegmentGapTimer_some hx, if_neg (by rw [hw]; simp)]
  · rw [exec_canSegmentGapTimer_some hx, if_pos ⟨hon, hw⟩]
    exact ⟨_, rfl, ackBlock_acked _ _⟩
  · refine ⟨_, _, exec_canEventMirror_on hon, mirrorSent_chain s, ?_, fun j hj => ?_, bumpDict_only _ _ _⟩
    · rw [bumpDict_countUp, mirrorSent_getDict s (by decide)]
      rfl
    · rw [bumpDict_getDict, if_neg hj]
  · refine ⟨_, _, exec_heartbeat_due hdue, ?_, rfl⟩
    rw [heartbeatWord_eq]
    exact sendFrame_sent _ _ _ _
  · obtain ⟨hstate, hother, honly⟩ := setCanState_spec 4 (by decide) s
    exact ⟨_, exec_nodeIdListen hdue true, hstate, hother, honly⟩
  · exact ⟨_, exec_mailboxGo_here hs hh, hinfo h1⟩
  · exact ⟨_, exec_mailboxGo_here hs hh, hread h1 h0⟩
  · exact ⟨_, exec_mailboxGo_here hs hh, hwrite h1 h0⟩
  · refine ⟨_, (exec_mailboxGo_elsewhere hs hh).trans (congrArg _ (if_pos ?_)), mbDone_ended _ _ _⟩
    rw [anyPort_iff]
    rintro ⟨p, hlt, h2⟩
    exact hp p hlt h2
  · refine ⟨_, (exec_mailboxGo_elsewhere hs hh).trans (congrArg _ (if_neg ?_)), mbForward_spec _ s⟩
    rw [not_not, anyPort_iff]
    exact hp

end Sys2Proof.Machine
end
